-- ==== Sys2Proof/Word.lean ====
section
/-! DEFINITION. The register word and its plainest arithmetic. -/

namespace Sys2Proof

/-- A register is 32 bits wide (R2). -/
abbrev Word := BitVec 32

/-- The smallest addressable unit of every memory of the device. -/
abbrev Byte := BitVec 8

/-- `n` bits of `x` from bit `lo` upward. -/
def bitsOf (x lo n : Nat) : Nat := x / 2 ^ lo % 2 ^ n

/-- Ceiling division; 0 where the divisor is 0. -/
def ceilDiv (a b : Nat) : Nat := if b = 0 then 0 else (a + b - 1) / b

end Sys2Proof
end

