-- ==== Sys2Proof/Syntax.lean ====
section
/-! DEFINITION. The commands of the device: one constructor per row of the table of operations and events, with the
row's operands. What the outside decides (a received word, a temperature, the verdict of a signature check, the reply of a
host) is an operand of the command that needs it. -/

namespace Sys2Proof

/-- Who makes a register access (R538 gives the numbers of the writers). -/
inductive Writer where
  /-- a host function, 0 to 7 -/
  | fn (f : Fin 8)
  /-- a helm core, through the register window -/
  | helm (c : Fin 8)
  /-- the Binnacle (Dvorkenor) -/
  | binnacle
  /-- the Pelorus port: path 0 is JTAG, path 1 is PCIe -/
  | pelorus (path : Fin 2)
  /-- the ring engine acting for a descriptor of function `f` -/
  | ring (f : Fin 8)
  /-- any other source -/
  | other
  deriving DecidableEq, Repr

/-- What triggers a package reset (R415); the thermal trip is part of TELEMETRY_SAMPLE. -/
inductive PkgTrigger where
  /-- `RESET_N` low for at least 1 µs -/
  | pin
  /-- a write of `RST_CMD.CMD` = 2 -/
  | command (w : Writer)
  /-- a Binnacle fault within 1 s of a hub warm reset -/
  | binFatal
  deriving DecidableEq, Repr

/-- What triggers a hub warm reset (R415). -/
inductive HubTrigger where
  /-- a write of `RST_CMD.CMD` = 1 -/
  | command (w : Writer)
  /-- a lockstep mismatch of the Binnacle -/
  | lockstep
  /-- expiry of the Binnacle watchdog -/
  | watchdog
  deriving DecidableEq, Repr

/-- A supply rail that is absent or out of range (R526). -/
inductive Rail where
  /-- a monitored rail: `VCC_AON`, `VCCAUX`, `VCC_H`, `VCCA_LN`, `VCCH_LN` -/
  | monitored
  /-- `VCC_Fn` -/
  | core (n : Fin 8)
  /-- an HBM rail of a stack -/
  | hbm (st : Fin 4)
  /-- the rail of I/O bank `k` of die Fn; `up`: it is back in range -/
  | io (n : Fin 8) (k : Fin 4) (up : Bool)
  deriving DecidableEq, Repr

/-- A path of the Pelorus port (R483): JTAG, or PCIe with the function that makes the access. -/
inductive PelSrc where
  | jtag
  | pcie (f : Fin 8)
  deriving DecidableEq, Repr

/-! ## What a configuration frame configures (R32 to R38, R50, R67, R71 to R76, R83, R91). The manual leaves the places of
the bits in a frame to the tools, so what a frame means is an operand beside its bytes. -/

/-- A tap: always driving, or driving while a fabric signal enables it; an unlisted tap is off (R37). -/
inductive TapMode where
  | static
  | dynamic
  deriving DecidableEq, Repr

/-- What a flip-flop registers: the first or the second LUT output, the bypass input, the LUT's free sixth input, or the sum
of the cell's carry stage. -/
inductive FfSrc where
  | lut
  | lut2
  | bypass
  | sixth
  | sum
  deriving DecidableEq, Repr

/-- A control set (R32): the tree that clocks it (0 to 15 global, 16 to 21 the regional trees of the band), its active edge,
and whether its set/reset is asynchronous. -/
structure CtlSet where
  tree : Fin 22
  rising : Bool
  async : Bool
  deriving DecidableEq, Repr

/-- What a port's read data show in a cycle in which it writes (R72). -/
inductive WriteMode where
  | writeFirst
  | readFirst
  | noChange
  deriving DecidableEq, Repr

/-- The mode of a block RAM (R71; a TDP port has width 1, 2, 4, 9, 18 or 36) or of a deep RAM (R76: `sdp` raw, `ecc`). -/
inductive RamMode where
  | tdp (w0 w1 : Nat)
  | sdp
  | ecc
  deriving DecidableEq, Repr

/-- The configuration of a memory block: mode, the output registers and write modes of its ports, the scrub bit, and the
number of blocks of the cascade whose lowest block it is (R71 to R76). -/
structure RamCfg where
  mode : RamMode
  out0 : Bool
  out1 : Bool
  wm0 : WriteMode
  wm1 : WriteMode
  scrub : Bool
  cascade : Nat
  deriving DecidableEq, Repr

/-- The modes of a reckoner block (R83). -/
inductive RknMode where
  | mult
  | mac
  | macc
  | add
  | acs
  deriving DecidableEq, Repr

/-- The configuration of a reckoner block: mode, pre-adder, operands from the operand memory (ACS: table mode), two accesses
per cycle, cascade, `OUT_SHIFT` (R83, R86, R91, R95). -/
structure RknCfg where
  mode : RknMode
  pre : Bool
  mem : Bool
  two : Bool
  casc : Bool
  shift : Fin 48
  deriving DecidableEq, Repr

/-- One thing that a frame configures in its column of its sector. -/
inductive CfgItem where
  /-- a tap of a span segment (R37) -/
  | tap (vertical : Bool) (seg : Fin 800) (tap : Fin 100) (mode : TapMode)
  /-- a control set of the cluster in a row (R32) -/
  | ctl (row : Fin 100) (set_ : Fin 2) (c : CtlSet)
  /-- flip-flop A (0) or B (1) of a cell: initial value, set/reset value, what it registers (R32, R42) -/
  | ff (row : Fin 100) (cell : Fin 16) (b : Fin 2) (init sr : Bool) (src : FfSrc)
  /-- a LUT: its table, and whether it works as two 5-input functions -/
  | lut (row : Fin 100) (cell : Fin 16) (table : BitVec 64) (two : Bool)
  /-- a routing wire and its one driver (R36) -/
  | wire (w driver : Nat)
  /-- a tree that the sector uses (R50) -/
  | tree (t : Fin 22)
  /-- the isolation attribute of a crossing input or sector-boundary input (R67) -/
  | iso (input : Nat) (attr : BitVec 2)
  /-- a memory block -/
  | ram (block : Fin 10) (c : RamCfg)
  /-- a reckoner block, and a word of its operand memory (R50) -/
  | rkn (block : Fin 24) (c : RknCfg)
  | oper (block : Fin 24) (addr : Fin 64) (word : BitVec 36)
  /-- the standard of a user-I/O bank (R534) -/
  | bank (b : Nat) (std : Nat)
  deriving DecidableEq, Repr

/-! ## What the user's design does at an edge of one of its clocks -/

/-- The inputs of a cell: the LUT's six, and the bypass. -/
structure CellIn where
  ins : BitVec 6
  byp : Bool
  deriving DecidableEq, Repr

/-- One cycle of a span segment: the enables of its taps and the values they would drive, bit t for tap t (R39). -/
structure SegCycle where
  vertical : Bool
  seg : Fin 800
  en : BitVec 100
  val : BitVec 100
  deriving DecidableEq, Repr

/-- The inputs of a memory port at an active edge of its clock: enable, write enable, write enables per 9 bits, address,
data. -/
structure RamIn where
  en : Bool
  we : Bool
  be : BitVec 8
  addr : Nat
  data : BitVec 72
  deriving DecidableEq, Repr

/-- The inputs of a reckoner block at an active edge of its clock (R82). -/
structure RknIn where
  a : BitVec 27
  b : BitVec 24
  c : BitVec 64
  d : BitVec 27
  oa0 : Fin 64
  oa1 : Fin 64
  ow : Bool
  nrm : BitVec 16
  load : Bool
  sub : Bool
  ce : Bool
  rst : Bool
  deriving DecidableEq, Repr

/-- What a router finds in a flit of an arriving packet: the flit, the data word (none: the header), whether its error cannot
be corrected (R175, R176). -/
structure FlitErr where
  flit : Fin 4
  word : Option (Fin 8)
  bad : Bool
  deriving DecidableEq, Repr

/-- Bearings that Dvorkenor writes: die (8: the hub), NI, index, the four words. -/
abbrev BearingSet := List (Fin 9 × Fin 48 × Fin 512 × BitVec 128)

/-- What a design does in a sector `k` of die `d`. -/
inductive UserAct where
  /-- an active edge of a control set of a cluster: the inputs of its cells, clock enable, set/reset, carry input -/
  | edge (d : Fin 8) (k : Fin 40) (col : Fin 30) (row : Fin 100) (set_ : Fin 2) (cells : List CellIn) (ce sr cin : Bool)
  /-- a set/reset of a control set is asserted between edges -/
  | setReset (d : Fin 8) (k : Fin 40) (col : Fin 30) (row : Fin 100) (set_ : Fin 2)
  /-- a cycle of a span segment -/
  | span (d : Fin 8) (k : Fin 40) (c : SegCycle)
  /-- a 256:1 multiplexer: the four clusters' rows, the track, their data, the eight select bits (R35) -/
  | mux (d : Fin 8) (k : Fin 40) (col : Fin 30) (rows : List (Fin 100)) (track : Fin 8) (data : BitVec 256) (sel : BitVec 8)
  /-- active edges of the ports of a memory block: `gap` ps apart, port 0's first where `first0` -/
  | ram (d : Fin 8) (k : Fin 40) (deep : Bool) (col : Fin 3) (block : Fin 10) (p0 p1 : Option RamIn) (gap : Nat) (first0 : Bool)
  /-- an active edge of a reckoner block -/
  | rkn (d : Fin 8) (k : Fin 40) (col : Fin 3) (block : Fin 24) (x : RknIn)
  /-- a sector-boundary input that sector `src` of its die drives receives a value (R67) -/
  | input (d : Fin 8) (k : Fin 40) (input : Nat) (src : Fin 40) (v : Bool)
  /-- an input of the sector that comes from a user-I/O pin receives the pin's value (R526) -/
  | pinIn (d : Fin 8) (k : Fin 40) (input : Nat) (pin : Fin 192) (v : Bool)
  /-- the sector drives a user-I/O pin, or releases it (R534) -/
  | pin (d : Fin 8) (k : Fin 40) (pin : Fin 192) (v : Option Bool)
  /-- an edge of `TP_CLK` of the sector's fabric time port (R365) -/
  | timePort (d : Fin 8) (k : Fin 40)
  deriving DecidableEq, Repr

/-- What a lane does by itself in a nanosecond. -/
inductive LaneAct where
  /-- a word period of a lane's transmitter begins (R296, R299, R308) -/
  | send (trunk : Bool) (l : Fin 224)
  /-- the design offers its lane port the next transmit word of the lane (R302, R309) -/
  | load (trunk : Bool) (l : Fin 224) (data : BitVec 64)
  /-- a trunk lane receives 64 bits in NRZ, 32 levels of two bits in PAM4; the design has taken `taken` words before (R302, R305,
  R309) -/
  | trunkWord (t : Fin 32) (data : BitVec 64) (taken : Nat)
  deriving DecidableEq, Repr

/-- A memory access of a helm core's program (R461 to R464, R481); `a` is a global address. -/
inductive HelmAct where
  /-- an instruction fetch; `bus`: the flash read that it needs fails on the xSPI bus after one retry -/
  | fetch (a : BitVec 48) (bus : Bool)
  | load (a : BitVec 48) (bus : Bool)
  /-- a store or AMO leaves `n` bytes of `data` at `a` -/
  | store (a : BitVec 48) (n : Fin 9) (data : BitVec 64)
  | lr (a : BitVec 48)
  | sc (a : BitVec 48) (n : Fin 9) (data : BitVec 64)
  /-- CBO.CLEAN, CBO.FLUSH, CBO.INVAL, FENCE.I -/
  | clean (a : BitVec 48)
  | flush (a : BitVec 48)
  | inval (a : BitVec 48)
  | fenceI
  /-- the core's L1 data cache, or the L2, gives up a line to make room -/
  | evict (l2 : Bool) (a : BitVec 48)
  /-- a line of the flash cache meets an uncorrectable error -/
  | flashErr (a : BitVec 48)
  deriving DecidableEq, Repr

/-- What the outside decides about a register access whose fields start an operation of another row: the same facts are
operands of that row's own command. -/
structure RegEnv where
  /-- a source or reference is good (R373, R376); P0's reference carries spread (R530) -/
  good : Bool
  spread : Bool
  /-- a supply rail is up; position and kind in a die's fuses (R10, R390, R409) -/
  rail : Bool
  fuse : Fin 8 × BitVec 2
  /-- verdicts on signatures (R435, R450) and on a flash write (R454) -/
  sig : Bool
  sig2 : Bool
  flashOk : Bool
  /-- period in ns of the slowest tree of a sector (R61) -/
  period : Nat
  /-- what a helm core that halts or is reset has done, its program counter, privilege mode and `mstatus.MIE` (R475) -/
  acts : List HelmAct
  pc : BitVec 64
  prv : BitVec 2
  mie : Bool
  /-- corrected bits that a checker has received and not yet met (R300) -/
  rx : List (BitVec 64)
  /-- the line a target outside the device answers a read with, and the statuses of its read and its write (R486) -/
  line : BitVec 512
  rd : Fin 4
  wr : Fin 4
  /-- the bearings that Dvorkenor writes after a detour (R209) -/
  bs : BearingSet
  deriving DecidableEq, Repr

/-- The commands. -/
inductive Instr where
  /-- REGISTER_WRITE (R3). A write to a register that has no row of its own stores or ignores each field according to its access type and its own acceptance rules. `off` is the BAR0 offset, `bytes` the width of the access. -/
  | registerWrite (w : Writer) (off : BitVec 25) (bytes : Nat) (val : BitVec 64) (env : RegEnv)
  /-- RC_FIELD_READ (R4). A read of an RC field returns its value and clears it, with no increment lost or counted twice. `off` is the BAR0 offset, `bytes` the width of the access. -/
  | rcFieldRead (w : Writer) (off : BitVec 25) (bytes : Nat) (env : RegEnv)
  /-- ENG_STEPS_LO_READ (R138). A read of ENG_STEPS_LO returns the low word and latches ENG_STEPS_HI. -/
  | engStepsLoRead (w : Writer) (e : Fin 96)
  /-- FC_CMP_LO_READ (R159). A read of FC_CMP_LO returns the low word and latches FC_CMP_HI. -/
  | fcCmpLoRead (w : Writer) (e : Fin 96)
  /-- SEAL_HWM_LO_READ (R285). A read of SEAL_HWM_LO returns the low word and latches SEAL_HWM_HI. -/
  | sealHwmLoRead (w : Writer) (st : Fin 4) (r : Fin 16)
  /-- BIT_LO_READ (R540). A read of CL_BIT_LO or TR_BIT_LO returns the low word, latches the high word and clears the 64-bit count. `l` is the global lane (a trunk lane where `trunk` is true); `rx`: corrected bits that the checker has received and not yet met. -/
  | bitLoRead (w : Writer) (trunk : Bool) (l : Fin 224) (rx : List (BitVec 64))
  /-- SX_TIME_FRAC_READ (R370). A read of SX_TIME_FRAC latches the nanoseconds and seconds registers from the same instant. -/
  | sxTimeFracRead (w : Writer)
  /-- SX_MEAS_OFS_LO_READ (R371). A read of SX_MEAS_OFS_LO latches the other measurement registers from the same measurement. -/
  | sxMeasOfsLoRead (w : Writer)
  /-- BLOCK_ERROR_REPORT (R15). A block reports an error it detected in the data plane on its management port, and the steward time-stamps and queues the report. `site` is the die (8: the hub), `off` the register offset of the block there. -/
  | blockErrorReport (site : Fin 9) (off : BitVec 25) (code : BitVec 16) (sev : Fin 5) (arg : BitVec 64)
  /-- OVERFLOW_EVENT (R16). When queue space frees, the steward queues the count of unqueued reports as overflow event 0x0F01. -/
  | overflowEvent (d : Fin 8)
  /-- EVENT_LOG_APPEND (R496). The hub appends an arriving report to the event log with the next SEQ and raises the log interrupts. `site` is the die whose steward forwards (8: the hub's collector). -/
  | eventLogAppend (site : Fin 9)
  /-- EVT_ACK_WRITE (R497). A write of EVT_ACK is accepted only within the span of unacknowledged records. -/
  | evtAckWrite (w : Writer) (v : BitVec 32)
  /-- JOURNAL_WRITE (R498). Dvorkenor writes each error, fatal or service-notice record to the flash journal. -/
  | journalWrite
  /-- SECTOR_RESET (R43). A write of SEC_CTL.RESET = 1 to a running sector enters sector reset, setting initial values and isolating outputs. -/
  | sectorReset (w : Writer) (d : Fin 8) (k : Fin 40)
  /-- SECTOR_RELEASE_REQUEST (R47). A write of SEC_CTL.RESET = 0 to a loaded, held sector requests its release draw permit. -/
  | sectorReleaseRequest (w : Writer) (d : Fin 8) (k : Fin 40)
  /-- SECTOR_RELEASE (R44). Once the release permit is granted, every tree starts at its first active edge and the sector runs from the release edge. `edge` is the time in ns from the release instant to the release edge. -/
  | sectorRelease (d : Fin 8) (k : Fin 40) (edge : Nat)
  /-- SECTOR_RELEASE_TIMEOUT (R48). A release whose permit times out leaves the sector in STATE 2 and raises an event. -/
  | sectorReleaseTimeout (d : Fin 8) (k : Fin 40)
  /-- MIGRATE (R61). A write of SEC_CTL.CMD = 1 applies a pending remap by migrating the running sector. `p` is the period in ns of the slowest tree running in the sector. -/
  | migrate (w : Writer) (d : Fin 8) (k : Fin 40) (p : Nat)
  /-- MIGRATION_GATED (R61). All trees of a migrating sector are gated and state capture of its flip-flops begins. -/
  | migrationGated (d : Fin 8) (k : Fin 40)
  /-- MIGRATION_CAPTURE_DONE (R61). State capture completes and the engine rewrites the frames of the moved logical columns. -/
  | migrationCaptureDone (d : Fin 8) (k : Fin 40)
  /-- MIGRATION_REWRITE_DONE (R61). The rewrite of moved columns completes and flip-flop state restore begins. -/
  | migrationRewriteDone (d : Fin 8) (k : Fin 40)
  /-- MIGRATION_RESTORE_DONE (R61). Restore completes and the migration requests its draw permit. -/
  | migrationRestoreDone (d : Fin 8) (k : Fin 40)
  /-- MIGRATION_RESTART (R61). At the permit grant each tree restarts, outputs follow logic again and STATE becomes 3, or reset is entered if held. -/
  | migrationRestart (d : Fin 8) (k : Fin 40)
  /-- MIGRATION_PERMIT_TIMEOUT (R61). A migration whose permit times out enters sector reset and raises the release-timeout event. -/
  | migrationPermitTimeout (d : Fin 8) (k : Fin 40)
  /-- COLUMN_DEFECT_FOUND (R59). A newly found defective physical column changes the sector's column map or makes the sector unavailable. `p` is the physical column, `period` that of the slowest tree running in the sector, in ns. -/
  | columnDefectFound (d : Fin 8) (k : Fin 40) (p : Fin 31) (period : Nat)
  /-- SPAN_CONTENTION (R39). Two or more dynamic taps enabled on one span segment in a cycle record a contention in SEC_SPAN. `segs`: segments of the sector in that cycle, the one that sets `CONT` first. -/
  | spanContention (d : Fin 8) (k : Fin 40) (segs : List SegCycle)
  /-- CFG_FRAME (R51). A configuration frame arriving at a die's engine is checked, written with SECDED, verified and rewritten up to three times. `fails` verifies fail; `items`: what the frame's bits configure. -/
  | cfgFrame (d : Fin 8) (fails : Fin 5) (items : List CfgItem)
  /-- CFG_RELEASE_INSTANT (R53). At the release instant on the time spine every named sector of a load leaves reset. `lead` ns beyond the 10 µs of R53; `edge` ns from the instant to the release edges. -/
  | cfgReleaseInstant (lead edge : Nat)
  /-- CLOCK_TREE_SWITCH (R65). A write of FCLK_GSEL or FCLK_RSEL SRC starts a glitch-free switch of a running tree's source. `tr` 0 to 15 is a global tree, 16 + r regional tree r. -/
  | clockTreeSwitch (w : Writer) (d : Fin 8) (tr : Fin 64) (src : BitVec 6)
  /-- CLOCK_SWITCH_DONE (R65). The tree follows the new source from its first rising edge and the switch ends. `converged`: the deskew to a spine has converged. -/
  | clockSwitchDone (d : Fin 8) (tr : Fin 64) (converged : Bool)
  /-- CLOCK_SWITCH_FORCED (R65). An old source with no edge for 10 µs forces the switch and sets FORCED. -/
  | clockSwitchForced (d : Fin 8) (tr : Fin 64)
  /-- MEM_ECC_ERROR (R74). An SDP-ECC or deep RAM read finding a single- or double-bit error flags it, reports it and records it in MEM_ECC. `upset`: bits of the stored word that have changed since it was last written or read. -/
  | memEccError (d : Fin 8) (k : Fin 40) (deep : Bool) (col : Fin 3) (block : Fin 10) (addr : Fin 16384) (upset : BitVec 72)
  /-- BRAM_SCRUB_WRITEBACK (R74). The corrected word is written back through port 0 in the first cycle the fabric leaves it idle. -/
  | bramScrubWriteback (d : Fin 8) (k : Fin 40) (deep : Bool) (col : Fin 3) (block : Fin 10) (addr : Fin 16384)
  /-- RKN_LATE_ACCESS (R87). A slot-1 operand-memory access not completed by the next edge is late and sets LATE_O and RKN_STAT.LATE. `lates`: the blocks late in the cycle with their ports, the one that sets `LATE` first. -/
  | rknLateAccess (d : Fin 8) (k : Fin 40) (lates : List (Fin 3 × Fin 24 × RknIn))
  /-- START (R101). ENG_CTL.CMD = START checks the set-up, initialises the engine and requests its start permit. -/
  | start (w : Writer) (e : Fin 96)
  /-- ARM (R105). ENG_CTL.CMD = ARM initialises the engine and requests its permit, to start at the trigger time. -/
  | arm (w : Writer) (e : Fin 96)
  /-- ENG_CMD_STOP (R102). ENG_CTL.CMD = STOP ends the run at the step boundary or abandons the waiting step, returning the permit. -/
  | engCmdStop (w : Writer) (e : Fin 96)
  /-- PAUSE (R103). ENG_CTL.CMD = PAUSE stops the engine between steps, or abandons a waiting or stalled step, keeping the permit. -/
  | pause (w : Writer) (e : Fin 96)
  /-- ENG_CMD_RESUME (R105). ENG_CTL.CMD = RESUME returns a paused engine to running. -/
  | engCmdResume (w : Writer) (e : Fin 96)
  /-- ENG_CMD_STEP (R103). ENG_CTL.CMD = STEP executes exactly one step of a paused engine. -/
  | engCmdStep (w : Writer) (e : Fin 96)
  /-- ENGINE_RESET (R104). ENG_CTL.CMD = RESET abandons everything at once and returns ENG fields to reset values. -/
  | engineReset (w : Writer) (e : Fin 96)
  /-- ENG_START_EFFECT (R143). START or ARM given while the previous run's FIFO or compare queue held entries takes effect once both are empty, incrementing FC_RUN. -/
  | engStartEffect (e : Fin 96)
  /-- ENG_PERMIT_GRANT (R105). The engine's start permit is granted and the engine begins its first step or becomes armed. -/
  | engPermitGrant (e : Fin 96)
  /-- ENG_PERMIT_TIMEOUT (R129). An engine permit request not granted in time faults the engine with PERMIT_TIMEOUT. -/
  | engPermitTimeout (e : Fin 96)
  /-- ENG_TRIGGER (R125). An armed engine's spine tap reaches the trigger time and the engine begins its first step. -/
  | engTrigger (e : Fin 96)
  /-- ENG_NOP (R108). Instruction NOP executes its address and data slots with no control action. The engine executes the step at its PC, if the word there is of this operation. -/
  | engNop (e : Fin 96)
  /-- LOOP (R110). Instruction LOOP opens a loop on counter c over PC + 1 to end, or skips the body when the reload is 0. -/
  | loop_ (e : Fin 96)
  /-- JMP (R108). Instruction JMP sets the next PC to its target. -/
  | jmp (e : Fin 96)
  /-- BR (R109). Instruction BR branches to its target when its condition holds at the start of the step. -/
  | br (e : Fin 96)
  /-- CALL (R111). Instruction CALL pushes PC + 1 and continues at its target. -/
  | call (e : Fin 96)
  /-- RET (R111). Instruction RET pops the call stack, or ends the timer handler. -/
  | ret (e : Fin 96)
  /-- WAIT (R121). Instruction WAIT makes the step wait n ns on the time spine. -/
  | wait_ (e : Fin 96)
  /-- WAIT_END (R121). The WAIT of a step ends at the first spine instant n ns after the step began and the step continues. -/
  | waitEnd (e : Fin 96)
  /-- DRAIN (R122). Instruction DRAIN waits until earlier vectors are delivered and, unless vectors only, earlier expectations resolved. -/
  | drain (e : Fin 96)
  /-- DRAIN_DONE (R122). The last earlier output is delivered or resolved and the DRAIN step continues. -/
  | drainDone (e : Fin 96)
  /-- SYNC (R123). Instruction SYNC issues a fix-point wait, set, clear or arrival operation. -/
  | sync_ (e : Fin 96)
  /-- SYNC_BROADCAST_SEEN (R123). The engine sees the broadcast of its operation or the barrier completion and its SYNC step completes. -/
  | syncBroadcastSeen (e : Fin 96)
  /-- WAITT (R125). Instruction WAITT waits for the trigger time, or sets TLATE if already reached. -/
  | waitt (e : Fin 96)
  /-- WAITT_TRIGGER (R125). The trigger time is reached and the WAITT step continues. -/
  | waittTrigger (e : Fin 96)
  /-- SETL (R108). Instruction SETL writes ENG_LREL[c] with its immediate. -/
  | setl (e : Fin 96)
  /-- STRM (R126). Instruction STRM starts or stops the stream, emptying the prefetch buffer. -/
  | strm (e : Fin 96)
  /-- RATE (R130). Instruction RATE changes the stream rate, requesting or returning draw units. -/
  | rate (e : Fin 96)
  /-- RATE_PERMIT_GRANT (R130). The extra units for a RATE rise are granted and the RATE step completes with the new pacing. -/
  | ratePermitGrant (e : Fin 96)
  /-- EVT (R108). Instruction EVT raises an engine event carrying its code. -/
  | evt (e : Fin 96)
  /-- HALT (R108). Instruction HALT records END_CODE and ends the run in STATE 6. -/
  | halt (e : Fin 96)
  /-- ENG_TIMER_EXPIRY (R112). The interval timer expires and makes a call pending, or sets TMR_OVR if one is pending or in handler. -/
  | engTimerExpiry (e : Fin 96)
  /-- ENG_STEP_UNSTALL (R120). A stalled step continues once its stream word arrives or the output FIFO and compare queue have room. -/
  | engStepUnstall (e : Fin 96)
  /-- STREAM_FILL_DONE (R127). The fill amount reaches the prefetch buffer and the first stream step continues. -/
  | streamFillDone (e : Fin 96)
  /-- STREAM_READ_ISSUE (R127). The engine issues a paced 64-byte stream read while the buffer has room and words remain. -/
  | streamReadIssue (e : Fin 96)
  /-- STREAM_READ_COMPLETE (R128). A stream read response places its word in the prefetch buffer, with any error status kept for consumption. `n` is the word of the stream; `data` and `status` (0 good, 1 ACCESS_DENIED, 2 UNREACHABLE, 3 POISONED) are what a target outside the device's own memories answers. -/
  | streamReadComplete (e : Fin 96) (n : Nat) (data : BitVec 512) (status : Fin 4)
  /-- FIX_POINT_APPLY (R123). The hub applies the operations of one 1 ns slot to the fix points, clears then sets then arrivals, and broadcasts them. `n` is the number of waiting operations that fall in the slot. -/
  | fixPointApply (n : Nat)
  /-- FIX_SET (R124). A write of FIX_STAT.SET = 1 issues a set of the fix-point flag. -/
  | fixSet (w : Writer) (f : Fin 16)
  /-- FIX_CLR (R124). A write of FIX_STAT.CLR = 1 issues a clear of the fix-point flag. -/
  | fixClr (w : Writer) (f : Fin 16)
  /-- FIX_CFG_WRITE (R124). A write of FIX_CFG sets QUORUM and resets COUNT to 0. -/
  | fixCfgWrite (w : Writer) (f : Fin 16) (q : BitVec 7)
  /-- FIX_REBASE (R123). After a hub warm reset the hub broadcasts the cleared fix-point state, and engines re-base and reissue held operations. -/
  | fixRebase
  /-- TX_SLOT (R145). At the start of a slot period the straight path sends the head vector of the output FIFO or an idle slot. -/
  | txSlot (e : Fin 96)
  /-- STRAIGHT_PATH_LAUNCH (R147). The first vector after START or ARM launches at a word boundary, held until the launch time when TALIGN is 1. -/
  | straightPathLaunch (e : Fin 96)
  /-- RX_WORD_COMPARE (R146). The receive words of slot period s + DELAY are compared with the expectation bound to slot s. `n` is the slot period in which the words were sampled, `data` the words in the slice layout, each as its lane's receiver sampled it, before the inversion of R295. -/
  | rxWordCompare (e : Fin 96) (n : Nat) (data : BitVec 512)
  /-- VP_VECTOR_TAKEN (R149). The fabric takes a vector from the vector port and it is delivered. -/
  | vpVectorTaken (e : Fin 96)
  /-- RP_RESPONSE (R149). The fabric response port delivers received data or a skip for the oldest unresolved expectation. -/
  | rpResponse (e : Fin 96) (data : BitVec 512) (skip : Bool)
  /-- RESPONSE_TIMEOUT (R149). An expectation unresolved FC_RSP_TO µs after reaching the queue head resolves as timed out. -/
  | responseTimeout (e : Fin 96)
  /-- EXPECTATION_RESOLVE (R141). An expectation is compared, counted, tallied and, if failing, its fail record formed. -/
  | expectationResolve (e : Fin 96)
  /-- FAIL_RING_WRITE (R153). The writer copies the FIFO head record to the fail ring when there is room, advancing FC_RING_WR when done. `env` is the status a target outside HBM answers. -/
  | failRingWrite (e : Fin 96) (env : Fin 4)
  /-- RING_ERR_RESTART (R153). A write of 1 to FC_STATUS.RING_ERR restarts the stopped ring writer with the failed record. -/
  | ringErrRestart (w : Writer) (e : Fin 96)
  /-- FC_RING_RD_WRITE (R154). A write of FC_RING_RD is accepted only within the span of written records. -/
  | fcRingRdWrite (w : Writer) (e : Fin 96) (v : BitVec 32)
  /-- FC_LANES_WRITE (R148). A write of FC_LANES sets or ends straight-path lane ownership, or is dropped whole. -/
  | fcLanesWrite (w : Writer) (e : Fin 96) (v : BitVec 32)
  /-- BITMAP_CLEAR (R156). FC_CTL.CMD = 1 starts clearing every bitmap tally. -/
  | bitmapClear (w : Writer) (e : Fin 96)
  /-- BITMAP_CLEAR_DONE (R156). The bitmap clear ends, and held updates and writes are applied. -/
  | bitmapClearDone (e : Fin 96)
  /-- FC_COUNTERS_CLEAR (R539). FC_CTL.CMD = 2 clears the fail-capture counters except FC_RUN in any state. -/
  | fcCountersClear (w : Writer) (e : Fin 96)
  /-- NI_SEND (R171). A master's NI turns an address into a destination, looks up its bearing and injects the packet. NI 2 × router + local port of a die (8: the hub); `data` the flits of a write. -/
  | niSend (site : Fin 9) (ni : Fin 48) (opc : BitVec 5) (addr : BitVec 48) (tag : BitVec 10) (fn : BitVec 4) (data : List (BitVec 512))
  /-- ROUTER_HEAD_FLIT (R169). A head flit arriving at a router is checked, routed by its route code or bounced. VC 0 to 3 by class, 4 the return VC; `errs`: what the router finds in the packet's flits. -/
  | routerHeadFlit (site : Fin 9) (r : Fin 24) (port : Fin 8) (vc : Fin 5) (errs : List FlitErr)
  /-- NI_BOUNCE_RECEIVE (R179). An NI receiving a bounce resends on the alternate route or fails the packet. `hdrBad`: its header is uncorrectable. -/
  | niBounceReceive (site : Fin 9) (ni : Fin 48) (hdrBad : Bool)
  /-- RELAY_FORWARD (R172). A relay re-sends a packet not addressed to it under its own bearings. `hdrBad`: its header is uncorrectable. -/
  | relayForward (site : Fin 9) (ni : Fin 48) (hdrBad : Bool)
  /-- NI_DELIVER (R177). The destination NI checks the packet CRC and delivers it to its block, poisoned on error. `hdrBad`: its header is uncorrectable; `noise`: by flit, the data bits altered on the way that no router's code has caught. -/
  | niDeliver (site : Fin 9) (ni : Fin 48) (hdrBad : Bool) (noise : List (BitVec 512))
  /-- PACK_SEND (R173). A destination NI sends PACK after 16 unacknowledged posted packets or 1 µs. -/
  | packSend (site : Fin 9) (ni : Fin 48) (src : BitVec 12)
  /-- NI_RESPONSE_TIMEOUT (R176). A request with no response within RSP_TO completes with UNREACHABLE. -/
  | niResponseTimeout (site : Fin 9) (ni : Fin 48) (tag : BitVec 10)
  /-- STALL_BOUNCE (R180). A head flit waiting NOC_STALL.TIMEOUT for its output bounces. -/
  | stallBounce (site : Fin 9) (r : Fin 24) (port : Fin 8) (vc : Fin 5)
  /-- PORT_DRAIN (R181). A write of NOC_RTR_PORT.DRAIN starts or ends the drain of router output ports. -/
  | portDrain (w : Writer) (site : Fin 9) (r : Fin 24) (bits : BitVec 8)
  /-- PORT_DRAINED (R181). No flit crosses the draining port and credits have returned, so DRAINED sets. -/
  | portDrained (site : Fin 9) (r : Fin 24) (p : Fin 8)
  /-- DRAIN_TIMEOUT_BOUNCE (R181). A head flit waiting at a draining port bounces after NOC_DRAIN.TIMEOUT. -/
  | drainTimeoutBounce (site : Fin 9) (r : Fin 24) (port : Fin 8) (vc : Fin 5)
  /-- ROUTER_PORT_CONFIG (R182). A write to NOC_RTR_VC or of EN = 0 takes effect only on a drained or disabled port. `vc`: a write of NOC_RTR_VC[p]; else of NOC_RTR_PORT.EN. -/
  | routerPortConfig (w : Writer) (site : Fin 9) (r : Fin 24) (p : Fin 8) (vc : Bool) (v : BitVec 32)
  /-- BEARING_READ (R192). NOC_NI_BSEL.OP = 1 copies a bearing into BDATA. -/
  | bearingRead (w : Writer) (site : Fin 9) (ni : Fin 48) (k : Fin 512)
  /-- BEARING_WRITE (R192). NOC_NI_BSEL.OP = 2 writes BDATA into a bearing, refusing duplicate DEST. -/
  | bearingWrite (w : Writer) (site : Fin 9) (ni : Fin 48) (k : Fin 512)
  /-- BEARING_INVALIDATE (R192). NOC_NI_BSEL.OP = 3 invalidates a bearing. -/
  | bearingInvalidate (w : Writer) (site : Fin 9) (ni : Fin 48) (k : Fin 512)
  /-- LINK_TRAINING_START (R200). With its permits granted a ring link or spoke starts forwarded clocks and trains. link 0 to 7 is ring link n to n + 1, 8 + n spoke n. -/
  | linkTrainingStart (l : Fin 16)
  /-- LINK_TRAINING_DONE (R200). Training assigns spares, retires groups, assigns roles and starts link frames, returning permits. failed lanes (group, lane) and groups without clock, of the clockwise direction or towards the die (false), and of the other (true); `bs`: the bearings that Dvorkenor writes where NoC traffic detours. -/
  | linkTrainingDone (l : Fin 16) (bad : List (Bool × Fin 96 × Fin 34)) (clk : List (Bool × Fin 96)) (bs : BearingSet)
  /-- LINK_TRAINING_PERMIT_TIMEOUT (R200). A link whose training permit times out stays down and raises an event. -/
  | linkTrainingPermitTimeout (l : Fin 16)
  /-- LINK_TRAINING_RETRY (R200). Dvorkenor retries a failed link training 10 ms later. -/
  | linkTrainingRetry (l : Fin 16)
  /-- GK_ROLE_WRITE (R198). A write of GK_ROLE is accepted only while neither die of the link is in service. -/
  | gkRoleWrite (w : Writer) (n : Fin 8) (xsect : BitVec 8) (coh : BitVec 5)
  /-- LINK_FRAME_RECEIVE (R205). A received link frame is CRC-checked, delivered in sequence, or discarded with a negative acknowledgement. receiving end: die n and side 0, 1 or 2 (spoke), or 8 and the spoke; `g0` to `g2` the groups whose group-frames carry it; `flips` the bits of the frame altered on the link. -/
  | linkFrameReceive (n : Fin 9) (k : Fin 8) (coh : Bool) (g0 g1 g2 : Fin 96) (flips : BitVec 768)
  /-- LINK_REPLAY (R205). A transmitter receiving a negative acknowledgement resends from the named frame. -/
  | linkReplay (n : Fin 9) (k : Fin 8) (coh : Bool) (g : Fin 96)
  /-- POOL_RETRAIN (R205). A frame failing 16 times makes the pool retrain its groups in place. -/
  | poolRetrain (n : Fin 9) (k : Fin 8) (coh : Bool)
  /-- LANE_HEALTH_INTERVAL (R206). At the end of each 1 ms interval margin disagreements are counted and threshold crossings found. group, lane, UIs in which the samplers disagreed. -/
  | laneHealthInterval (n : Fin 9) (k : Fin 8) (counts : List (Fin 96 × Fin 34 × Nat))
  /-- SPARE_SWAP (R207). A NoC or coherence lane crossing threshold is replaced by the group's spare, pausing the group. -/
  | spareSwap (n : Fin 9) (k : Fin 8) (g : Fin 96) (l : Fin 33)
  /-- SPARE_REJOIN (R207). The receiver has realigned the spare and the group rejoins the pool. -/
  | spareRejoin (n : Fin 9) (k : Fin 8) (g : Fin 96)
  /-- CROSSING_SPARE_SWAP (R208). A crossing lane crossing threshold is copied onto the spare and checked for 4,096 frames. -/
  | crossingSpareSwap (n : Fin 9) (k : Fin 8) (g : Fin 96) (l : Fin 33)
  /-- CROSSING_SWITCH_INSTANT (R208). At the switch instant both ends switch the crossing onto the spare or converted group. -/
  | crossingSwitchInstant (n : Fin 9) (k : Fin 8) (g : Fin 96)
  /-- GROUP_RETIRE (R209). A group past its spare is retired, shrinking its pool, converting a group or detouring NoC traffic. `clk`: its forwarded clock fails; `bs`: the bearings that Dvorkenor writes where NoC traffic detours. -/
  | groupRetire (n : Fin 9) (k : Fin 8) (g : Fin 96) (clk : Bool) (bs : BearingSet)
  /-- GROUP_CONVERSION (R209). With its permits granted, a group retrains in the crossing role and shadows the retiring group. `g` the group that takes the crossing role. -/
  | groupConversion (n : Fin 9) (k : Fin 8) (g : Fin 96)
  /-- GK_CMD_SWAP (R228). GK_CTL.CMD = 1 swaps a named lane for its spare. -/
  | gkCmdSwap (w : Writer) (n : Fin 9) (k : Fin 8) (g : Fin 96) (l : BitVec 6)
  /-- GK_CMD_RETIRE (R228). GK_CTL.CMD = 2 retires a named group. `bs` as for GROUP_RETIRE. -/
  | gkCmdRetire (w : Writer) (n : Fin 9) (k : Fin 8) (g : Fin 96) (bs : BearingSet)
  /-- CROSSING_FRAME_RECEIVE (R212). A crossing frame delivers its signals, applying live-bit isolation and flagging a CRC-5 failure on XERR. One spine cycle of a logical group: `data` the signals as the sending port samples them at its spine edge, which arrive L cycles later; `flips` the bits altered in the frame that arrives: 256 data bits, then the 8 UI of the framing lane. -/
  | crossingFrameReceive (n : Fin 8) (k : Fin 2) (lc : Fin 48) (data : BitVec 256) (flips : BitVec 264)
  /-- RC_ACCESS (R215). An access reaches the remote cache and hits, or misses and sends a coherence request to the home. die, global address / 64, the access, the master's ID and function; `ecc` 0 none, 1 single-bit, 2 uncorrectable in the data, 3 in a tag. -/
  | rcAccess (n : Fin 8) (line : BitVec 32) (write : Bool) (data : BitVec 512) (src : BitVec 12) (fn : BitVec 4) (ecc : Fin 4)
  /-- CRDS (R219). A home agent receives a shared read request and snoops holders before filling. the requesting die and the line. -/
  | crds (n : Fin 8) (line : BitVec 32)
  /-- CRDX (R219). A home agent receives a read-for-ownership request and invalidates other holders. -/
  | crdx (n : Fin 8) (line : BitVec 32)
  /-- CUPG (R220). A home agent receives an upgrade from S to E. -/
  | cupg (n : Fin 8) (line : BitVec 32)
  /-- CEVC (R219). A home agent learns a clean line was dropped. -/
  | cevc (n : Fin 8) (line : BitVec 32)
  /-- HSNI (R219). A remote cache receives an invalidate snoop and returns data if M. the snooped die and the line. -/
  | hsni (n : Fin 8) (line : BitVec 32)
  /-- HSNS (R219). A remote cache receives a downgrade snoop and returns data if M. -/
  | hsns (n : Fin 8) (line : BitVec 32)
  /-- CACK (R219). A snoop-done or upgrade-granted response is received. -/
  | cack (n : Fin 8) (line : BitVec 32) (atHome : Bool)
  /-- DATAX (R219). A remote cache receives line data granting E. -/
  | datax (n : Fin 8) (line : BitVec 32)
  /-- DIRTY_EVICTION (R220). An evicted M line waits in the writeback buffer and goes to the home as WR64. -/
  | dirtyEviction (n : Fin 8)
  /-- RC_FLUSH_RANGE (R226). RC_CMD.CMD = 1 writes back and invalidates the cached lines of a range. -/
  | rcFlushRange (w : Writer) (n : Fin 8)
  /-- RC_CLEAN_RANGE (R226). RC_CMD.CMD = 2 writes back and keeps the cached lines of a range. -/
  | rcCleanRange (w : Writer) (n : Fin 8)
  /-- RC_INVALIDATE_READ_MOSTLY (R226). RC_CMD.CMD = 3 invalidates read-mostly lines of a range. -/
  | rcInvalidateReadMostly (w : Writer) (n : Fin 8)
  /-- RC_FLUSH_ALL (R230). RC_CMD.CMD = 4 flushes the whole remote cache. -/
  | rcFlushAll (w : Writer) (n : Fin 8)
  /-- RC_CMD_DONE (R230). A remote-cache command ends and BUSY clears. -/
  | rcCmdDone (n : Fin 8)
  /-- RCW_ENABLE (R225). A write of RCW_CTL.EN = 1 enables a cache window at once. -/
  | rcwEnable (w : Writer) (x : Fin 16)
  /-- RCW_DISABLE (R225). A write of RCW_CTL.EN = 0 sets BUSY and flushes the window's lines from every cache. -/
  | rcwDisable (w : Writer) (x : Fin 16)
  /-- RCW_DISABLE_DONE (R225). The window flush ends, BUSY clears and EN reads 0. -/
  | rcwDisableDone (x : Fin 16)
  /-- HOME_UNREACHABLE (R224). When a home becomes unreachable every other cache invalidates its clean lines and retains its dirty ones. -/
  | homeUnreachable (st : Fin 4)
  /-- HOME_RECALL_DONE (R224). Every cache has written back its retained lines and the returning home agent takes requests again. -/
  | homeRecallDone (st : Fin 4)
  /-- RC_LOSS_TIMEOUT (R214). A flush on clock loss not done within RC_CTL.LOSS_TO is handled as an unplanned loss. -/
  | rcLossTimeout (n : Fin 8)
  /-- HBM_FRONT_PIPE_ENTRY (R239). A port request granted by the front arbiter passes sealing checks and enters its pseudo-channel queue. -/
  | hbmFrontPipeEntry (st : Fin 4)
  /-- HBM_SCHEDULE (R241). A pseudo-channel scheduler issues the next due refresh, RFM, retraining or request command. `c` is 2 × channel + pseudo-channel; `demand`: the stack's thresholds ask for an RFM of the bank; `par`: parity errors of a write's access, 2 where its retry fails too (R252). -/
  | hbmSchedule (st : Fin 4) (c : Fin 32) (demand : Bool) (par : Fin 3)
  /-- HBM_READ_COMPLETE (R252). Read data is ECC-checked, corrected or poisoned, and returned. the `n`th read in flight; `finding`, in its line `line`: 0 none, 1 corrected, 2 uncorrectable, 3 severity report, 4 parity error with a good retry, 5 with a failed retry, 6 altered bits `flips` in the stored line ([511:0]) and tag ([575:512]), 7 a copy (the mirror or the primary) of the tree node above the line at `level` uncorrectable (`flips` 0) or with altered bits `flips`. -/
  | hbmReadComplete (st : Fin 4) (c : Fin 32) (n : Nat) (line : Fin 4) (finding : Fin 8) (level : Fin 8) (mirror : Bool) (flips : BitVec 576)
  /-- HBM_REFRESH_DUE (R244). A refresh falls due at the rate the stack temperature requires. -/
  | hbmRefreshDue (st : Fin 4) (c : Fin 32)
  /-- HBM_TEMP_READING (R244). Every 1 ms the controller reads stack temperature, adjusting refresh rate, HOT, alarms and retraining. -/
  | hbmTempReading (st : Fin 4) (temp : BitVec 8)
  /-- HBM_REFRESH_BURST (R245). Owed refreshes are issued as a burst under the refresh-burst permit. -/
  | hbmRefreshBurst (st : Fin 4)
  /-- REFRESH_BURST_PERMIT_TIMEOUT (R245). A refresh-burst permit not granted within 1 µs makes owed refreshes go one at a time. -/
  | refreshBurstPermitTimeout (st : Fin 4)
  /-- HBM_TRAINING_START (R247). With HBM training and standing-refresh permits granted, the stack's reset is released and training starts. -/
  | hbmTrainingStart (st : Fin 4)
  /-- HBM_TRAIN_PERMIT_TIMEOUT (R247). A training permit timeout returns held grants and leaves the stack as it was. -/
  | hbmTrainPermitTimeout (st : Fin 4)
  /-- HBM_TRAINING_DONE (R247). Training ends, STATE becomes 2 and Dvorkenor enables the stack. `lrep`: lane repairs left by channel; `rfm`: the stack's mode registers require RFM. -/
  | hbmTrainingDone (st : Fin 4) (lrep : List Nat) (temp : BitVec 8) (rfm : Bool)
  /-- HBM_TRAINING_FAIL (R247). A channel that cannot train or a wrong identity makes STATE 4 and raises an error. -/
  | hbmTrainingFail (st : Fin 4)
  /-- ZERO_FILL_DONE (R247). The zero-fill of a stack with no contents completes and CONTENT becomes 1. `softLeft` banks still have a soft-repair resource; `repaired`: a row was soft-repaired; `unrepaired` rows have no resource. -/
  | zeroFillDone (st : Fin 4) (softLeft : Fin 1537) (repaired : Bool) (unrepaired : Nat)
  /-- HBM_TRAIN_RETRY (R247). Dvorkenor retries a failed HBM training 10 ms later. -/
  | hbmTrainRetry (st : Fin 4)
  /-- HBM_RETRAIN_PERIOD (R248). HBM_TRAIN.PERIOD has passed since a channel's last training and retraining starts. -/
  | hbmRetrainPeriod (st : Fin 4)
  /-- HBM_CMD_RETRAIN (R248). HBM_CTL.CMD = 1 retrains every channel in turn. -/
  | hbmCmdRetrain (w : Writer) (st : Fin 4)
  /-- HBM_CHANNEL_RETRAIN_DONE (R248). One channel's retraining ends, applying lane repair or failing the stack. -/
  | hbmChannelRetrainDone (st : Fin 4) (failing : Bool)
  /-- HBM_CMD_SELF_REFRESH (R250). HBM_CTL.CMD = 2 starts self-refresh entry. -/
  | hbmCmdSelfRefresh (w : Writer) (st : Fin 4)
  /-- HBM_CMD_SELF_REFRESH_EXIT (R250). HBM_CTL.CMD = 3 ends a commanded self-refresh by requesting the standing-refresh permit. -/
  | hbmCmdSelfRefreshExit (w : Writer) (st : Fin 4)
  /-- SELF_REFRESH_ENTERED (R250). Queued requests complete, owed refreshes issue and the stack enters self-refresh. -/
  | selfRefreshEntered (st : Fin 4)
  /-- SELF_REFRESH_EXIT_GRANT (R250). At the standing-refresh grant the stack leaves self-refresh and channels retrain. -/
  | selfRefreshExitGrant (st : Fin 4)
  /-- HBM_POWER_DOWN (R256). After PD_IDLE of idle the stack enters power-down. -/
  | hbmPowerDown (st : Fin 4)
  /-- HBM_SCRUB_BURST (R253). The scrub engine reads a burst of 64 lines under the scrub-burst permit, correcting or poisoning them. `found`: lines of the burst with an error, and whether it is uncorrectable; `granted`: the scrub-burst permit is granted (else it times out). -/
  | hbmScrubBurst (st : Fin 4) (found : List (Fin 64 × Bool)) (granted : Bool)
  /-- HBM_ILV_WRITE (R238). A write of HBM_ILV is accepted only while every in-service stack is disabled. -/
  | hbmIlvWrite (w : Writer) (v : BitVec 2)
  /-- HBM_HASH_WRITE (R238). A write of HBM_HASH is accepted only while its stack is disabled. -/
  | hbmHashWrite (w : Writer) (st : Fin 4) (x : Fin 9) (v : BitVec 26)
  /-- SEAL_CLAIM (R264). A write of SEAL_RCTL.CLAIM = 1 to an unowned range makes the writer its owner. -/
  | sealClaim (w : Writer) (st : Fin 4) (r : Fin 16)
  /-- ENABLE (R267). SEAL_RCTL.CMD = ENABLE checks the range and queues its initialise sweep. -/
  | enable (w : Writer) (st : Fin 4) (r : Fin 16)
  /-- DISABLE (R267). SEAL_RCTL.CMD = DISABLE erases an idle range at once or queues its release sweep. -/
  | disable (w : Writer) (st : Fin 4) (r : Fin 16)
  /-- REKEY (R267). SEAL_RCTL.CMD = REKEY queues a re-key sweep onto the other slot. -/
  | rekey (w : Writer) (st : Fin 4) (r : Fin 16)
  /-- SEAL_RESUME (R267). SEAL_RCTL.CMD = RESUME requests the stopped sweep's permit again. -/
  | sealResume (w : Writer) (st : Fin 4) (r : Fin 16)
  /-- SEAL_KEY_GENERATE (R266). SEAL_KEY.OP = 1 has the Lodestar generate a slot's keys. -/
  | sealKeyGenerate (w : Writer) (st : Fin 4) (slot : BitVec 6)
  /-- SEAL_KEY_IMPORT (R446). SEAL_KEY.OP = 2 consumes a session's key deposit into a slot. -/
  | sealKeyImport (w : Writer) (st : Fin 4) (slot : BitVec 6) (session : BitVec 8)
  /-- SEAL_KEY_ERASE (R266). SEAL_KEY.OP = 3 erases a slot. -/
  | sealKeyErase (w : Writer) (st : Fin 4) (slot : BitVec 6)
  /-- SEAL_KEY_DONE (R283). A key operation ends and SEAL_KEY.BUSY clears. for an import: the keys that the deposit unwraps to, none where the unwrap fails its integrity check. -/
  | sealKeyDone (st : Fin 4) (keys : Option (BitVec 768))
  /-- SWEEP_PERMIT_GRANT (R280). A sweep's permit is granted and it starts or resumes chunk processing. -/
  | sweepPermitGrant (st : Fin 4)
  /-- SWEEP_PERMIT_TIMEOUT (R280). A sweep permit timeout stops the sweep, sets SWSTOP and records code 7. -/
  | sweepPermitTimeout (st : Fin 4)
  /-- SWEEP_CHUNK (R278). A sweep locks a chunk of 64 lines, processes them at its rate and advances SEAL_POS. `bad`: altered bits of lines of the chunk ([511:0]) and of their tags ([575:512]) that a re-key meets. -/
  | sweepChunk (st : Fin 4) (bad : List (Fin 64 × BitVec 576))
  /-- SEAL_RATE_WRITE (R280). A write of SEAL_CTL.RATE pauses, resumes or resizes sweeps at the next boundary. -/
  | sealRateWrite (w : Writer) (st : Fin 4) (rate : BitVec 6)
  /-- NODE_LOST (R276). Both copies of a tree node fail and a repair sweep starts. -/
  | nodeLost (st : Fin 4) (r : Fin 16) (level : Fin 8) (node : BitVec 24)
  /-- REPAIR_PERMIT_RETRY (R277). A repair sweep whose permit timed out requests it again 1 ms later. -/
  | repairPermitRetry (st : Fin 4)
  /-- COUNTER_CACHE_WRITEBACK (R273). A dirty tree node is written back with an incremented parent counter to both copies. -/
  | counterCacheWriteback (st : Fin 4) (r : Fin 16) (level : Fin 8) (node : BitVec 24)
  /-- LEAF_REENCRYPT_DONE (R274). A minor overflow's leaf re-encryption ends and the waiting write proceeds. `bad`: altered bits of lines of the leaf ([511:0]) and of their tags ([575:512]). -/
  | leafReencryptDone (st : Fin 4) (bad : List (Fin 64 × BitVec 576))
  /-- BUNDLE_ENABLE (R292). A write of CL_BND_CTL.EN = 1 requests the bundle's bring-up permit. `b` is the global bundle. -/
  | bundleEnable (w : Writer) (b : Fin 28)
  /-- BUNDLE_DISABLE (R312). A write of CL_BND_CTL.EN = 0 stops the bundle's lanes and returns its permit. -/
  | bundleDisable (w : Writer) (b : Fin 28)
  /-- BUNDLE_BRINGUP (R294). With the permit granted the bundle PLL starts and receivers train on the training block. -/
  | bundleBringup (b : Fin 28)
  /-- BUNDLE_PLL_LOCK_CHECK (R294). At t0 + 50 µs the PLL is locked and word boundaries placed, or bring-up fails with TRN_ERR 3. -/
  | bundlePllLockCheck (b : Fin 28) (locked : Bool)
  /-- BUNDLE_TRAIN_DECISION (R295). At t0 + 1.05 ms the bundle decides presence, reversal and inversion and goes up or fails. for each receiver of the bundle, the last of the 1,024 blocks that it counted, as received from its marker on (none: absent). -/
  | bundleTrainDecision (b : Fin 28) (rx : List (Option (BitVec 64)))
  /-- BUNDLE_RETRAIN (R312). CL_BND_CTL.CMD = 1 retrains the bundle under its held permit. -/
  | bundleRetrain (w : Writer) (b : Fin 28)
  /-- BUNDLE_PERMIT_TIMEOUT (R292). A bring-up permit timeout sets STATE 5 with TRN_ERR 4. -/
  | bundlePermitTimeout (b : Fin 28)
  /-- LANE_CTL_WRITE (R287). A write of CL_CTL enables, selects use, divider and mode of a lane under its acceptance rules. bits [6:0] of the word; `l` is the global lane. -/
  | laneCtlWrite (w : Writer) (l : Fin 224) (v : BitVec 7)
  /-- LOOP_MEASURE (R298). CL_CTL.CMD = 1 sends zeros and a training block to measure the lane's loop delay. -/
  | loopMeasure (w : Writer) (l : Fin 224)
  /-- LOOP_MEASURE_DONE (R298). The marker is sampled and UI recorded, or 65,536 UI pass and FAIL is set. the UI count, none if no marker came. -/
  | loopMeasureDone (l : Fin 224) (ui : Option (BitVec 16))
  /-- LANE_INJECT_ERROR (R301). CL_CTL.CMD = 2 inverts the first bit of the next transmitted word. -/
  | laneInjectError (w : Writer) (l : Fin 224)
  /-- LANE_SLIP (R297). A write of CL_SLIP delays the receive word boundaries by c UI and clears REALIGN. -/
  | laneSlip (w : Writer) (l : Fin 224) (c : BitVec 9)
  /-- LANE_TIMING_WRITE (R291). A write of CL_TIM moves verniers stepwise and deskews only when allowed. -/
  | laneTimingWrite (w : Writer) (l : Fin 224) (v : BitVec 32)
  /-- LOSS_OF_SIGNAL (R303). A receiver's swing stays below threshold for 256 UI, setting LOS and raising an event. `l` is the global lane (below 32 where `trunk` is true). -/
  | lossOfSignal (trunk : Bool) (l : Fin 224)
  /-- LOSS_OF_LOCK (R303). A receiver's CDR fails to track for 64 UI, setting LOL and raising an event. -/
  | lossOfLock (trunk : Bool) (l : Fin 224)
  /-- LOSS_CONDITION_END (R303). Loss of signal or lock ends and REALIGN is set. `lol`: it is the loss of lock that ends. -/
  | lossConditionEnd (trunk : Bool) (l : Fin 224) (lol : Bool)
  /-- LANE_PORT_RX_WORD (R302). A received word enters the fabric lane port FIFO, or is dropped when full. `l`: the lane of the physical receiver, `data` as sampled there (R295); `taken`: words the fabric took from the port before this one came. -/
  | lanePortRxWord (l : Fin 224) (data : BitVec 64) (taken : Nat)
  /-- TRUNK_ENABLE (R307). A write of TR_CTL.EN = 1 requests the trunk lane's adaptation permit. `t` is the global trunk lane. -/
  | trunkEnable (w : Writer) (t : Fin 32)
  /-- TRUNK_ADAPT (R307). With the permit granted the trunk PLL starts and the receiver adapts. -/
  | trunkAdapt (t : Fin 32)
  /-- TRUNK_CONVERGED (R307). The trunk receiver locks and converges and STATE becomes 3. -/
  | trunkConverged (t : Fin 32) (snr : BitVec 8)
  /-- TRUNK_NO_SIGNAL (R307). Without a signal at t0 + 50 ms the lane reads STATE 4 and raises an event. -/
  | trunkNoSignal (t : Fin 32)
  /-- TRUNK_READAPT (R315). TR_CTL.CMD = 1 adapts the trunk lane again. -/
  | trunkReadapt (w : Writer) (t : Fin 32)
  /-- TRUNK_INJECT_ERROR (R315). TR_CTL.CMD = 2 injects one error. -/
  | trunkInjectError (w : Writer) (t : Fin 32)
  /-- TRUNK_PERMIT_TIMEOUT (R307). An adaptation permit timeout leaves STATE 0 and raises an event. -/
  | trunkPermitTimeout (t : Fin 32)
  /-- TR_FFE_WRITE (R306). A write of TR_FFE sets transmit taps between two symbols, dropped if the main tap would fall below 32. -/
  | trFfeWrite (w : Writer) (t : Fin 32) (pre2 pre1 post1 : BitVec 6)
  /-- CAPTURE_BEAT (R309). A capture beat of 128 samples enters the capture FIFO, or is dropped and sets CAP_OVF. `taken`: beats the fabric took before this one came. -/
  | captureBeat (t : Fin 32) (samples : BitVec 896) (taken : Nat)
  /-- DB_SQ_TAIL (R325). A write of the SQ tail doorbell by the owning function advances the submission ring. `f` is the function through whose BAR2 the write comes. -/
  | dbSqTail (f : Fin 8) (q : Fin 1024) (v : BitVec 32)
  /-- DB_CQ_HEAD (R325). A write of the CQ head doorbell frees completion entries. `f` is the function through whose BAR2 the write comes. -/
  | dbCqHead (f : Fin 8) (q : Fin 1024) (v : BitVec 32)
  /-- QP_ENABLE (R326). A write of HIF_QP_CTL.EN = 1 resets the ring pointers and starts the queue pair. -/
  | qpEnable (w : Writer) (q : Fin 1024)
  /-- QP_DISABLE (R326). A write of HIF_QP_CTL.EN = 0 stops fetching or clears an error state. -/
  | qpDisable (w : Writer) (q : Fin 1024)
  /-- DESCRIPTOR_FETCH (R338). The ring engine reads and starts the next descriptor of the chosen queue pair. `desc` is the descriptor that host memory holds, none where the read fails on the link. -/
  | descriptorFetch (desc : Option (BitVec 512))
  /-- NOP (R338). Descriptor NOP completes at once. -/
  | nop (q : Fin 1024)
  /-- H2D (R330). Descriptor H2D moves lines from host memory to global addresses. -/
  | h2d (q : Fin 1024)
  /-- D2H (R330). Descriptor D2H moves lines from global addresses to host memory. -/
  | d2h (q : Fin 1024)
  /-- D2D (R330). Descriptor D2D moves lines between global addresses. -/
  | d2d (q : Fin 1024)
  /-- DMA_LINE_COMPLETE (R330). A moved line is acknowledged by its target, or ends the descriptor with its error status. `n` is the position of the descriptor among those in progress; `data`, `rd`, `wr`, `fault`: what the host or the user design answers. -/
  | dmaLineComplete (q : Fin 1024) (n : Fin 64) (data : BitVec 512) (rd wr : Fin 4) (fault : Bool)
  /-- ENG_LOAD (R331). Descriptor ENG_LOAD copies host data into an engine's local window. -/
  | engLoad (q : Fin 1024)
  /-- ENG_START (R332). Descriptor ENG_START checks the named engines and writes START or ARM to each. -/
  | engStart (q : Fin 1024)
  /-- ENG_STOP (R332). Descriptor ENG_STOP writes STOP or RESET to each named engine. -/
  | engStop (q : Fin 1024)
  /-- FAIL_DRAIN (R333). Descriptor FAIL_DRAIN copies fail records to host memory and advances FC_RING_RD. -/
  | failDrain (q : Fin 1024)
  /-- CFG_LOAD (R334). Descriptor CFG_LOAD streams a configuration image through the Lodestar to the named dies. `hdr` is the header in host memory, none for a PCIe error; `unwrap`: the image key unwraps. -/
  | cfgLoad (q : Fin 1024) (hdr : Option (BitVec 2048)) (unwrap : Bool)
  /-- CFG_RECORD (R411). The hub checks a frame record's die and dispatches it to that die's buffer. the next record in host memory, none for a PCIe error. -/
  | cfgRecord (rec_ : Option (BitVec 8256))
  /-- IMAGE_VERIFY_END (R437). The image signature and tag are judged at the end of the body, completing or failing the load. -/
  | imageVerifyEnd (sigOk tagOk : Bool)
  /-- LANE_CMD (R335). Descriptor LANE_CMD writes register pairs to a die's lanes in order, waiting on acknowledgements. -/
  | laneCmd (q : Fin 1024)
  /-- TIME_READ (R336). Descriptor TIME sub-operation READ writes a time record to host memory. -/
  | timeRead (q : Fin 1024)
  /-- TIME_STEP (R336). Descriptor TIME sub-operation STEP requests a step of the Sextant time. -/
  | timeStep (q : Fin 1024)
  /-- TIME_ADJUST (R336). Descriptor TIME sub-operation ADJUST sets the Sextant rate offset. -/
  | timeAdjust (q : Fin 1024)
  /-- FENCE (R338). Descriptor FENCE waits for every earlier descriptor of the queue pair to complete. -/
  | fence (q : Fin 1024)
  /-- MAILBOX (R337). Descriptor MAILBOX delivers a request to Dvorkenor and writes the reply. `req` is the request in host memory, none for a PCIe error. -/
  | mailbox (q : Fin 1024) (req : Option (List (BitVec 8)))
  /-- MAILBOX_TIMEOUT (R337). A mailbox request unanswered within 1 s completes with ABORTED. `n` is the position of the exchange among those that wait. -/
  | mailboxTimeout (n : Fin 2048)
  /-- COMPLETION_WRITE (R343). A finished descriptor's completion entry is written at CQ_TAIL when the CQ has room. `n` as in DMA_LINE_COMPLETE; `ok`: the write does not fail on the link. -/
  | completionWrite (q : Fin 1024) (n : Fin 64) (ok : Bool)
  /-- MSIX_HOLDOFF_EXPIRY (R345). At the end of a holdoff interval one message is sent for the raisings within it. -/
  | msixHoldoffExpiry (f : Fin 8) (v : Fin 1024)
  /-- BAR4_READ (R320). A host read of BAR4 reaches HBM as a request of its function after earlier BAR4 writes. -/
  | bar4Read (f : Fin 8) (off : BitVec 36) (n : Fin 4097)
  /-- BAR4_WRITE (R320). A host write of BAR4 becomes a request-class write, sub-line writes by read-merge-write. -/
  | bar4Write (f : Fin 8) (off : BitVec 36) (bs : List (BitVec 8))
  /-- FUNCTION_LEVEL_RESET (R347). A function-level reset stops a function's work and returns its FN fields to reset values. -/
  | functionLevelReset (f : Fin 8)
  /-- FLR_DONE (R347). Every effect of a function-level reset is carried out, FLR_BUSY clears and FLR_CNT advances. -/
  | flrDone (f : Fin 8)
  /-- BUS_MASTER_DISABLE (R319). Clearing Bus Master Enable stops the device issuing requests for the function. `on` is the value of Bus Master Enable that the host writes. -/
  | busMasterDisable (f : Fin 8) (on : Bool)
  /-- PCIE_LINK_DOWN (R319). A port link-down, including one from PERST, acts as a function-level reset on its four functions. -/
  | pcieLinkDown (p : Fin 2)
  /-- STEP (R355). SX_STEP_CMD.CMD = 1 requests a step of local time, checked before acceptance. -/
  | step_ (w : Writer) (force : Bool)
  /-- SET (R355). SX_STEP_CMD.CMD = 2 requests a set of local time, checked as a step. -/
  | set_ (w : Writer) (force : Bool)
  /-- STEP_APPLY (R356). At the scheduled spine tick every tap and the hub counter take the new time. -/
  | stepApply
  /-- SX_ADJ_WRITE (R353). A write of SX_ADJ changes the time rate at the next tick and pulls the spine when syntonising. -/
  | sxAdjWrite (w : Writer) (v : BitVec 32)
  /-- SX_CTL_WRITE (R369). A write of SX_CTL is accepted whole only with MODE 0, except SERVO and SYNTONISE. -/
  | sxCtlWrite (w : Writer) (v : BitVec 32)
  /-- PTP_RX_EVENT (R358). A received PTP event message is time-stamped at ingress, or a non-PTP frame discarded. `type` is the messageType, `ptp`: a PTP event message of the configured domain. -/
  | ptpRxEvent (p : Fin 2) (ptp : Bool) (type : Fin 4) (seq : BitVec 16)
  /-- PTP_TX_EVENT (R359). A transmitted PTP event message gets its stamp inserted or queued for two-step. -/
  | ptpTxEvent (p : Fin 2) (type : Fin 4) (seq : BitVec 16)
  /-- TC_FORWARD (R360). In transparent mode a PTP event message is forwarded with its residence time added. `p` is the port of arrival, `resid` the time between the balls in 2^-16 ns. -/
  | tcForward (p : Fin 2) (type : Fin 16) (ident : BitVec 80) (seq : BitVec 16) (corr : BitVec 64) (resid : Nat) (two full : Bool)
  /-- RESIDENCE_TIMEOUT (R360). A residence waiting over 1 s for its follow-up is discarded and counted as ORPHAN. -/
  | residenceTimeout
  /-- SX_TXQ_POP (R361). A write of SX_TXQ_CTL.POP removes the oldest transmit stamp. -/
  | sxTxqPop (w : Writer) (p : Fin 2)
  /-- SERVO_MEASUREMENT (R362). A completed offset measurement is applied by the Dvorkenor servo or published with NEW. `rate` is what Dvorkenor's servo makes of it. -/
  | servoMeasurement (ofs mpd : BitVec 64) (seq : BitVec 16) (rate : BitVec 32)
  /-- PPS_PULSE (R366). PPS_OUT goes high at each second boundary of local time. -/
  | ppsPulse
  /-- PPS_END (R366). PPS_OUT goes low after WIDTH µs. -/
  | ppsEnd
  /-- CLK_SOURCE_SELECT (R373). A write of CLK_SRC.SEL glides the reference spine to the new source. `good`: the monitor finds the source selected good; `spread`: P0's reference carries spread (R530). -/
  | clkSourceSelect (w : Writer) (sel : BitVec 2) (good spread : Bool)
  /-- GLIDE_DONE (R376). A glide of the reference spine ends and GLIDING clears. -/
  | glideDone
  /-- CLOCK_SOURCE_FAIL (R375). The monitor finds the active source failed and the device enters dead reckoning. `silent`: no edge for 1 µs; `w1`, `w2`: edges in two consecutive windows of 10 µs, `expect` the count expected. -/
  | clockSourceFail (silent : Bool) (w1 w2 expect : Nat)
  /-- OSC_ERR_MEASURE (R375). Every 1 ms the oscillator error is measured against a good source. `err` is the oscillator's error in ppm, two's complement. -/
  | oscErrMeasure (err : BitVec 16)
  /-- CLOCK_AUTO_RETURN (R376). With AUTO_RETURN, a source good for 100 ms starts the glide back. -/
  | clockAutoReturn
  /-- CLK_SRC_RETURN (R376). CLK_SRC.CMD = 1 glides back to the selected source if good. `good`: the monitor finds the selected source good. -/
  | clkSrcReturn (w : Writer) (good : Bool)
  /-- CLK_SSC_WRITE (R377). A write of CLK_SSC is accepted only while no spread user is running. -/
  | clkSscWrite (w : Writer) (depth freq : BitVec 8)
  /-- CLKOUT_SWITCH (R378). A change of CLKOUT_CTL.SRC stops the pin after a falling edge and restarts it on the new clock. -/
  | clkoutSwitch (w : Writer) (x : Fin 2) (src : BitVec 2)
  /-- SPN_SYN_WRITE (R380). A write of SPN_SYN sets a spine frequency unless a tree ceiling or crossing forbids it. -/
  | spnSynWrite (w : Writer) (k : Fin 8) (freq : BitVec 21)
  /-- FSYN_FREQ_WRITE (R383). A write of FSYN_FREQ stores or applies a synthesizer frequency for a setting. -/
  | fsynFreqWrite (w : Writer) (n : Fin 8) (k v : Fin 4) (freq : BitVec 21)
  /-- SYNTH_GLIDE_STEP (R379). Each µs a gliding synthesizer moves at most 1 % toward its target. `n` is the die; 8: `k` is a clock spine. -/
  | synthGlideStep (n : Fin 9) (k : Fin 8)
  /-- VSEL_SEQUENCE (R384). A write of FVS_CTL.VSEL glides clocks down, drives the rail and glides clocks up. -/
  | vselSequence (w : Writer) (n : Fin 8) (v : BitVec 2)
  /-- RAIL_SETTLE_CHECK (R384). After SETTLE and every 10 µs the sequencer checks the rail, failing after 4 × SETTLE. `ok`: the rail lies within 15 mV of the setting. -/
  | railSettleCheck (n : Fin 8) (ok : Bool)
  /-- SYNTH_RISE_GRANT (R384). A synthesizer rise permit is granted and the synthesizer glides up. -/
  | synthRiseGrant (n : Fin 8) (k : Fin 4)
  /-- PWR_ENTER_P1 (R388). PWR_DIE_CTL.CMD = 1 takes a die to P1 Hove-to. -/
  | pwrEnterP1 (w : Writer) (n : Fin 8)
  /-- PWR_ENTER_P2 (R388). PWR_DIE_CTL.CMD = 2 takes a die to P2 Anchored. -/
  | pwrEnterP2 (w : Writer) (n : Fin 8)
  /-- PWR_ENTER_P3 (R388). PWR_DIE_CTL.CMD = 3 takes a die to P3 Laid-up. -/
  | pwrEnterP3 (w : Writer) (n : Fin 8)
  /-- PWR_RETURN_P0 (R390). PWR_DIE_CTL.CMD = 4 requests the resume permit to return a die to P0. `rail`: the die's core rail is up; `fuse`: position and kind in its fuses, if they are read now (R10). -/
  | pwrReturnP0 (w : Writer) (n : Fin 8) (rail : Bool) (fuse : Fin 8 × BitVec 2)
  /-- PWR_TRANSITION_DONE (R388). A die reaches its new power state and BUSY clears. -/
  | pwrTransitionDone (n : Fin 8)
  /-- PERMIT_REQUEST (R391). A heavy operation queues a request for draw units at a governor. The heavy operation that no other command begins: the training of PCIe port `p`. -/
  | permitRequest (p : Fin 2)
  /-- PERMIT_GRANT (R391). The head request fits the budget and ramp and is granted. `g` is the governor: 0 to 7 core, 8 hub, 9 to 12 HBM. -/
  | permitGrant (g : Fin 13)
  /-- PERMIT_RETURN (R394). An operation returns its held draw units. -/
  | permitReturn (g : Fin 13) (op : Fin 32)
  /-- STEP_PERMIT_RETURN (R394). A step permit returns its units 20 µs after its grant. -/
  | stepPermitReturn (g : Fin 13)
  /-- PERMIT_TIMEOUT (R393). A request not granted within TIMEOUT, or oversize, is withdrawn and recorded. -/
  | permitTimeout (g : Fin 13)
  /-- POWER_ON_RESET (R415). Supply rising or H_AON falling resets everything. -/
  | powerOnReset
  /-- PACKAGE_RESET (R415). RESET_N low, RST_CMD = 2, thermal trip or a repeated Binnacle fault resets all but POR and DBG fields. -/
  | packageReset (t : PkgTrigger)
  /-- BOOT_STAGE_COMPLETE (R401). A boot stage ends and the next stage begins. Stage 1: the dies that are fitted, and position and kind in the fuses of each (R10). Stage 2: the firmware signature of slot A and of slot B is valid, and the flash has an 8D-8D-8D mode (R533). Stage 3: the selected clock source passes R374. Stage 5 after a hub warm reset: the bearings that Dvorkenor writes (die, NI, index, words). -/
  | bootStageComplete (fitted : BitVec 8) (fuses : List (Fin 8 × BitVec 2)) (sigA sigB srcOk octal : Bool) (bs : BearingSet)
  /-- DIE_RAIL_ABSENT (R409). A die not answering its sideband within 200 µs at stage 1 is passed over with START_ERR 5. -/
  | dieRailAbsent (n : Fin 8)
  /-- DIE_RELEASE (R407). The hub powers a die's domains and runs steward start, spoke training and self-test. `rail`: the die's core rail is in range at its turn. -/
  | dieRelease (n : Fin 8) (rail : Bool)
  /-- SELF_TEST_DONE (R407). Die self-test ends, setting column maps, slot maps and spare rows. `cols`: defective physical columns found; `rkn`: defective reckoner blocks (sector, column, block); `rows`: memory rows given a spare (sector, spare rows left in the block); `lost`: sectors of which a memory block needs more spare rows than it has. -/
  | selfTestDone (n : Fin 8) (cols : List (Fin 40 × Fin 31)) (rkn : List (Fin 40 × Fin 3 × Fin 25)) (rows : List (Fin 40 × Nat)) (lost : List (Fin 40))
  /-- DIE_RELEASE_DONE (R407). Bearings are written, taps aligned and the die enters service, requesting HBM and ring training. `bs`: the bearings that Dvorkenor writes (die, NI, index, words). -/
  | dieReleaseDone (n : Fin 8) (bs : BearingSet)
  /-- DIE_START_FAIL (R408). A die that cannot complete release is held in reset with START_ERR. `cause` + 1 is the cause of R408. -/
  | dieStartFail (n : Fin 8) (cause : Fin 4)
  /-- CFG_AUTOLOAD (R413). After stage 5 the hub loads the booted slot's configuration image as a CFG_LOAD. `unwrap`: the image key unwraps. -/
  | cfgAutoload (unwrap : Bool)
  /-- RST_UNLOCK (R416). A write of RST_UNLOCK.KEY = 0xC3A5 unlocks RST_CMD for 100 µs. -/
  | rstUnlock (w : Writer) (key : BitVec 16)
  /-- HUB_WARM_RESET (R417). RST_CMD = 1, a lockstep mismatch or the Binnacle watchdog resets the hub while fabric dies run. -/
  | hubWarmReset (t : HubTrigger)
  /-- PLANNED_DIE_RESET (R418). RST_DIE_CTL.CMD = 1 stops, flushes and resets one fabric die. -/
  | plannedDieReset (w : Writer) (n : Fin 8)
  /-- DIE_START (R423). RST_DIE_CTL.CMD = 2 resets and releases a held or lost die. `rail`: the die's core rail is up. -/
  | dieStart (w : Writer) (n : Fin 8) (rail : Bool)
  /-- DIE_LOST (R421). A silent sideband or a steward fatal report declares a die lost and holds it in reset. `cause`: 0 sideband silent, 1 rail fault, 2 over-temperature, 3 steward fatal; `powered`: `F_AON` and `F_IO` are still powered and the steward answers on the reset line. -/
  | dieLost (n : Fin 8) (cause : Fin 4) (powered : Bool)
  /-- DIE_CLOCK_LOST (R422). The reference spine stops reaching a die, which gates its trees and leaves the data plane. `flushed`: the remote cache is flushed within `RC_CTL.LOSS_TO`. -/
  | dieClockLost (n : Fin 8) (flushed : Bool)
  /-- DIE_CLOCK_RESTORED (R422). The reference has been present for 100 ms and the die is reset and released. -/
  | dieClockRestored (n : Fin 8)
  /-- DIE_AUTO_RESTART (R423). With AUTO_RESTART, 1 s after a loss the die is reset and released. -/
  | dieAutoRestart (n : Fin 8) (rail : Bool)
  /-- RAIL_FAULT (R526). A rail going absent or out of range causes a reset, die loss or stack loss as its row states. -/
  | railFault (r : Rail)
  /-- TELEMETRY_SAMPLE (R504). Every 1 ms the steward or hub samples temperature, voltage and current, checking warning and trip limits. `site` is the die (8: the hub); the highest temperature in °C, the core rail's voltage in mV and current in A. -/
  | telemetrySample (site : Fin 9) (temp : BitVec 8) (mv : BitVec 12) (amp : BitVec 10)
  /-- THERMTRIP_RELEASE (R527). Every sensor reads below 100 °C and the device starts again. -/
  | thermtripRelease
  /-- LIFE_HOURS_UPDATE (R507). Each hour the temperature bin hours and life consumed are updated. `site` is the die (8: the hub). -/
  | lifeHoursUpdate (site : Fin 9)
  /-- CONFIG_SCRUB_FRAME (R501). The scrub reads a configuration frame, correcting or acting on errors. Words of the frame with a single-bit error and with an uncorrectable one; `fails`: the rewritten frame still fails its verify after three rewrites. -/
  | configScrubFrame (n : Fin 8) (cor : Fin 129) (unc : Fin 129) (fails : Bool) (slow : Nat)
  /-- ATTEST (R444). Message ATTEST returns a signed report over the device state and nonce. `n` is the place of the exchange among those that await their reply, in this and the other messages. -/
  | attest (n : Fin 2048)
  /-- GET_CERTS (R443). Message GET_CERTS returns the identity and AK certificates. -/
  | getCerts (n : Fin 2048)
  /-- SESSION_OPEN (R445). Message SESSION_OPEN performs an ECDH exchange and opens a session. -/
  | sessionOpen (n : Fin 2048)
  /-- KEY_DEPOSIT (R446). Message KEY_DEPOSIT stores wrapped keys in a session. -/
  | keyDeposit (n : Fin 2048)
  /-- SESSION_CLOSE (R445). Message SESSION_CLOSE ends a session. -/
  | sessionClose (n : Fin 2048)
  /-- SESSION_IDLE_TIMEOUT (R445). A session unused for 60 s ends. -/
  | sessionIdleTimeout (v : Fin 256)
  /-- COUNTER_COMMIT (R441). Message COUNTER_COMMIT blows anti-rollback fuses up to a value. `stop`: the counter value at which a fuse fails to verify three times or (true) power is lost. -/
  | counterCommit (n : Fin 2048) (stop : Option (BitVec 7 × Bool))
  /-- TAKE_OWNERSHIP (R448). Message TAKE_OWNERSHIP fuses owner keys, KEK and passwords and enters OWNED. `kek`: the unwrapped key, none where the unwrap fails; `how`: 0 every fuse verifies, 1 one does not, 2 power is lost before `LIFECYCLE` is blown. -/
  | takeOwnership (n : Fin 2048) (kek : Option (BitVec 256)) (how : Fin 3)
  /-- REVOKE_OWNER_KEY (R448). Message REVOKE_OWNER_KEY revokes one owner key. `by_`: the owner key under which the signature is valid. -/
  | revokeOwnerKey (n : Fin 2048) (by_ : Option (Fin 4)) (fuseOk : Bool)
  /-- RETIRE (R448). Message RETIRE blows UDS and KEK, enters RETIRED and resets the package. `by_`: the owner key under which the signature is valid. -/
  | retire (n : Fin 2048) (by_ : Option (Fin 4))
  /-- TRNG_HEALTH_FAIL (R447). A continuous random-generator health test fails and output stops. -/
  | trngHealthFail
  /-- DEBUG_CHALLENGE (R450). PEL_AUTH.CMD = 1 reads a fresh 48-byte challenge. `l` is the `LEVEL` that the same write carries. -/
  | debugChallenge (p : PelSrc) (l : BitVec 2)
  /-- DEBUG_CERT_SUBMIT (R450). PEL_AUTH.CMD = 2 submits a debug certificate and signature to raise a path's level. Whether the issuer's signature of the certificate and the subject's over the challenge are valid. -/
  | debugCertSubmit (p : PelSrc) (l : BitVec 2) (issuerSig subjectSig : Bool)
  /-- DEBUG_PASSWORD_SUBMIT (R451). PEL_AUTH.CMD = 3 submits a debug password to raise a path's level. -/
  | debugPasswordSubmit (p : PelSrc) (l : BitVec 2)
  /-- RECOVERY_BEGIN (R454). LS_RCV_CTL.CMD = 1 begins receiving a recovery firmware image. `len` is the field, the length divided by 16. -/
  | recoveryBegin (w : Writer) (slot : Bool) (len : BitVec 28)
  /-- RECOVERY_DATA (R454). A write of LS_RCV_DATA appends 4 bytes of the recovery image. -/
  | recoveryData (w : Writer) (v : BitVec 32)
  /-- RECOVERY_END (R454). LS_RCV_CTL.CMD = 2 verifies the recovery image and restarts or fails. `sig`: the signature is valid; `flashOk`: the flash writes succeeded. -/
  | recoveryEnd (w : Writer) (sig flashOk : Bool)
  /-- HELM_CORE_RELEASE (R469). HELM_CORE_CTL.CMD = 1 or boot auto-release requests a core's release permit. -/
  | helmCoreRelease (w : Writer) (c : Fin 8)
  /-- HELM_CORE_START (R469). At the release grant the core starts at its reset vector, or enters the boot hold. -/
  | helmCoreStart (c : Fin 8)
  /-- HELM_CORE_RESET (R470). HELM_CORE_CTL.CMD = 2 or a second watchdog expiry resets a helm core. -/
  | helmCoreReset (w : Writer) (c : Fin 8) (acts : List HelmAct)
  /-- FABRIC_IRQ_LINE (R465). A fabric interrupt line rises and its source becomes pending. `high`: the level of line `x` of die `n`. -/
  | fabricIrqLine (n : Fin 8) (x : Fin 32) (high : Bool)
  /-- HELM_IC_SET (R492). A write of HELM_IC_SET sets a software interrupt source. -/
  | helmIcSet (w : Writer) (src : BitVec 9)
  /-- HELM_IC_CLAIM (R467). A read of HELM_IC_CLAIM by its core claims the highest deliverable source. `w` is the reader. -/
  | helmIcClaim (w : Writer) (c : Fin 8)
  /-- HELM_IC_COMPLETE (R467). A write to HELM_IC_CLAIM completes a source and pops the running level. -/
  | helmIcComplete (w : Writer) (c : Fin 8) (src : BitVec 9)
  /-- HELM_NMI (R468). A clock-fail event or first watchdog expiry delivers an NMI to the core. `pc`, `prv`, `mie`: program counter, privilege mode and `MIE` to which the core's program has come; `handling`: it has not yet executed the MRET of an earlier NMI's handler. -/
  | helmNmi (c : Fin 8) (acts : List HelmAct) (pc : BitVec 64) (prv : BitVec 2) (mie handling : Bool)
  /-- DBG_MONITOR_HALT (R471). HELM_DBG_CMD = 1 requests monitor entry. -/
  | dbgMonitorHalt (w : Writer) (c : Fin 8)
  /-- DBG_HARD_HALT (R475). HELM_DBG_CMD = 2 hard-halts a core at its next instruction boundary. The core's program has come to `pc`, mode `prv` and `MIE` = `mie`. -/
  | dbgHardHalt (w : Writer) (c : Fin 8) (acts : List HelmAct) (pc : BitVec 64) (prv : BitVec 2) (mie : Bool)
  /-- DBG_HARD_RELEASE (R475). HELM_DBG_CMD = 3 releases a hard-halted core. -/
  | dbgHardRelease (w : Writer) (c : Fin 8)
  /-- MONITOR_ENTRY (R472). A pending monitor request is taken at an instruction boundary with L below 12. The core's program has come to `pc`, mode `prv` and `MIE` = `mie`; `ebreak`: it executes EBREAK. -/
  | monitorEntry (c : Fin 8) (acts : List HelmAct) (pc : BitVec 64) (prv : BitVec 2) (mie ebreak : Bool)
  /-- MONITOR_EXIT (R473). A write of helmmon.EXIT restores mode and level and resumes, or single-steps. `stp`: `helmmon.STEP`. -/
  | monitorExit (c : Fin 8) (stp : Bool)
  /-- DBG_REG_READ (R475). HELM_DBG_ACC.OP = 1 reads a hard-halted core's register. -/
  | dbgRegRead (w : Writer) (c : Fin 8) (reg : BitVec 14)
  /-- DBG_REG_WRITE (R475). HELM_DBG_ACC.OP = 2 writes a hard-halted core's register. -/
  | dbgRegWrite (w : Writer) (c : Fin 8) (reg : BitVec 14)
  /-- WDT_KICK (R477). A write of the kick key reloads the watchdog and clears STAGE. -/
  | wdtKick (w : Writer) (c : Fin 8) (key : BitVec 16)
  /-- WDT_UNLOCK (R479). A write of HELM_WDT_UNLOCK.KEY unlocks the watchdog registers. -/
  | wdtUnlock (w : Writer) (c : Fin 8) (key : BitVec 16)
  /-- WDT_EXPIRY (R477). The watchdog count reaches 0, raising an NMI the first time and resetting the core the second. -/
  | wdtExpiry (c : Fin 8)
  /-- PATCH_WRITE (R464). A write to a patch unit invalidates the affected L1 lines before acknowledgement. `data`: the write is to `HELM_PATCH_DATA`. -/
  | patchWrite (w : Writer) (c : Fin 8) (u : Fin 16) (data : Bool) (v : BitVec 32)
  /-- FLASH_SECTOR_REWRITTEN (R462). A flash program or erase ends, invalidates the sector's cached lines and raises source 194. `ok`: the operation succeeded. -/
  | flashSectorRewritten (ok : Bool)
  /-- HELM_MAILBOX_GO (R482). HELM_MBX_CTL.GO = 1 sends a core's mailbox message. -/
  | helmMailboxGo (w : Writer) (c : Fin 8)
  /-- HELM_MAILBOX_DONE (R482). A core's mailbox exchange completes and raises source 16 + c. -/
  | helmMailboxDone (c : Fin 8)
  /-- PEL_PEEK (R487). PEL_CTL.CMD = 1 reads a register without side effects. -/
  | pelPeek (p : PelSrc)
  /-- PEL_CONSUME (R487). PEL_CTL.CMD = 2 reads a register with the effects of a helm read. -/
  | pelConsume (p : PelSrc) (env : RegEnv)
  /-- PEL_REG_WRITE (R486). PEL_CTL.CMD = 3 writes a register through the sideband. -/
  | pelRegWrite (p : PelSrc) (env : RegEnv)
  /-- PEL_MEM_READ (R486). PEL_CTL.CMD = 4 reads 8 bytes of global memory through the NoC. -/
  | pelMemRead (p : PelSrc) (env : RegEnv)
  /-- PEL_MEM_WRITE (R486). PEL_CTL.CMD = 5 writes 8 bytes of global memory by read-merge-write. -/
  | pelMemWrite (p : PelSrc) (env : RegEnv)
  /-- PEL_ACCESS_DONE (R493). A Pelorus access ends with its status and BUSY clears. -/
  | pelAccessDone (p : Fin 2)
  /-- PEL_RST (R493). A write of PEL_RST.CMD = 1 resets the debug logic and both levels. -/
  | pelRst (p : PelSrc)
  /-- IDCODE (R483). TAP instruction IDCODE selects the identification register. -/
  | idcode
  /-- SAMPLE_PRELOAD (R483). TAP instruction SAMPLE/PRELOAD samples or preloads the boundary-scan chain. `pins`: the values of the covered pins that are captured; `bits`: what is shifted in. -/
  | samplePreload (pins : Nat) (bits : Nat)
  /-- EXTEST (R484). TAP instruction EXTEST places covered pins under scan control. `pins`: the values of the covered pins that are captured; `bits`: what is shifted in. -/
  | extest (pins : Nat) (bits : Nat)
  /-- EXTEST_PULSE (R484). TAP instruction EXTEST_PULSE runs IEEE 1149.6 pulse test on covered lanes. -/
  | extestPulse (pins : Nat) (bits : Nat)
  /-- EXTEST_TRAIN (R484). TAP instruction EXTEST_TRAIN runs IEEE 1149.6 train test on covered lanes. -/
  | extestTrain (pins : Nat) (bits : Nat)
  /-- CLAMP (R484). TAP instruction CLAMP holds covered pins at preloaded values. -/
  | clamp
  /-- HIGHZ (R484). TAP instruction HIGHZ places covered pins at high impedance. -/
  | highz
  /-- PEL_REG (R483). TAP instruction PEL_REG accesses the Pelorus access block over JTAG. `dr`: the bits shifted into the data register. -/
  | pelReg (dr : BitVec 40) (env : RegEnv)
  /-- BYPASS (R483). TAP instruction BYPASS, and any unknown or unauthorised code, selects the bypass register. `code`: the code loaded. -/
  | bypass (code : BitVec 8)
  /-- EVT_JOURNAL_READ (R510). Message EVT_JOURNAL_READ returns journal records from an index. -/
  | evtJournalRead (n : Fin 2048)
  /-- TELEMETRY_READ (R510). Message TELEMETRY_READ returns telemetry of each die and the hub. -/
  | telemetryRead (n : Fin 2048)
  /-- REPAIR_READ (R510). Message REPAIR_READ returns a die's repair-record entries. -/
  | repairRead (n : Fin 2048)
  /-- FLASH_ERASE (R509). Message FLASH_ERASE erases an aligned flash region. -/
  | flashErase (n : Fin 2048)
  /-- FLASH_WRITE (R509). Message FLASH_WRITE programs erased flash. -/
  | flashWrite (n : Fin 2048)
  /-- DIR_WRITE (R509). Message DIR_WRITE writes the older boot directory copy with a higher SEQ. -/
  | dirWrite (n : Fin 2048)
  /-- SCRUB_NOW (R510). Message SCRUB_NOW starts a configuration scrub pass at once. -/
  | scrubNow (n : Fin 2048)
  /-- RESET_RELEASE (R401). RESET_N rises, or the 10 ms power-on hold ends, and boot stage 0 begins. `refSel`, `testEn`: the straps as the power-on hold ends (R520). -/
  | resetRelease (refSel testEn : Bool)
  /-- CROSSING_FRAMES_MISSING (R212). After 64 consecutive frames of a crossing group are missing or lack the framing marker, its crossing inputs take their isolation values. -/
  | crossingFramesMissing (n : Fin 8) (k : Fin 2) (lc : Fin 48)
  /-- CHECKER_LOCK (R300). A PRBS checker sees 2 × degree consecutive bits that agree with its polynomial, sets CHK_LOCK and starts counting bits and errors. `rx`: the corrected receive bits that the checker meets, the first in bit 0 of the first word. -/
  | checkerLock (trunk : Bool) (l : Fin 224) (rx : List (BitVec 64))
  /-- CHECKER_LOCK_LOSS (R300). A locked PRBS checker sees 64 errors within 1,024 bits, clears CHK_LOCK and stops counting until it relocks. `rx`: as in CHECKER_LOCK. -/
  | checkerLockLoss (trunk : Bool) (l : Fin 224) (rx : List (BitVec 64))
  /-- PTP_PORT_STATE_CHANGE (R362). A timing port's portState changes under the protocol or its link, driving the forced servo step on entering PSTATE 8 and the HOLDOVER evaluation. `ofs` is the offset with which the servo steps on entering state 8. -/
  | ptpPortStateChange (p : Fin 2) (st : Fin 10) (link : Bool) (ofs : BitVec 64)
  /-- PCIE_LINK_UP (R395). A PCIe port finishes training and its link comes up, returning its training permit and making its recovered clock selectable. -/
  | pcieLinkUp (p : Fin 2)
  /-- TRNG_HEALTH_RECOVER (R447). The failing continuous health test passes again, TRNG_OK returns to 1 and waiting random requests are served. -/
  | trngHealthRecover
  /-- TRNG_WAIT_TIMEOUT (R447). While the generator fails, a SEAL_KEY OP 1 still waiting after 100 ms sets FAIL, and after 1 s LS_ERR.CODE 6 is recorded. A waiting `SEAL_KEY` OP 1 of a stack, or (none) the record after 1 s. -/
  | trngWaitTimeout (st : Option (Fin 4))
  deriving DecidableEq, Repr

end Sys2Proof
end

