-- ==== Sys2Proof/Decode.lean ====
section
/-! DEFINITION. The device is a block that takes commands. Its table of commands gives no row any bits, so no word spells a
command. -/

namespace Sys2Proof

/-- The command that a word spells by the table's bits: the table gives no bits to any row, so none. -/
def decodeTableWord (_nbits _w : Nat) : Option Instr := none

end Sys2Proof
end

