-- ==== Sys2Proof/Config.lean ====
section
/-! DEFINITION. What the manual leaves open: free values (constants without a body, so that nothing can be proved of their
values) and the codes that the release notes fix. -/

namespace Sys2Proof

/-- A fresh free value, by the number of draws made so far (log entry 3). -/
opaque Config.freeValue : Nat → BitVec 512

/-- The low byte of the code of rule `rule` in the range of its block (R495 leaves it to the release notes; log entry 4). -/
opaque Config.eventCode : Nat → Nat → BitVec 8

/-- SHA-384 of bytes, as a number whose byte 0 is the first byte of the digest. The manual takes it from its standard and
says nothing of its values; the model leaves it uninterpreted (log entry 6). -/
opaque Config.sha384 : List Byte → BitVec 384

/-- AES-256 (FIPS 197) and its inverse: key, block. Byte 0 of a block or key is its lowest byte (log entry 132). -/
opaque Config.aes256 : BitVec 256 → BitVec 128 → BitVec 128
opaque Config.aes256Inv : BitVec 256 → BitVec 128 → BitVec 128

/-- The keys and signatures that the Lodestar computes (R432, R443 to R446): by purpose and input, uninterpreted (log
entry 6). -/
opaque Config.crypto : Nat → List Byte → BitVec 1024

/-- The hub's serial number, and those of the dies, fused at manufacture (R10, R431; log entry 5). -/
opaque Config.serial : BitVec 64
opaque Config.dieSerial : Nat → BitVec 64

/-- The identity certificate, and the attestation-key certificate by the firmware measurement (R439, R443; log entry 6). -/
opaque Config.identityCert : List Byte
opaque Config.akCert : Nat → List Byte

/-- The `ARG` field of a record of a rule whose layout the release notes fix, by its details (R495; log entry 4). -/
opaque Config.eventArg : List Nat → BitVec 64

/-- The bytes that REPAIR_READ gives for an entry of the repair record, whose layout the manual does not state (R510). -/
opaque Config.repairEntry : List Nat → List Byte

/-- The carry stage of a cell, whose function the manual does not state: its sum and its carry output, by the two LUT
outputs, the bypass input and the carry input (R34; log entry 102). -/
opaque Config.carrySum : Bool → Bool → Bool → Bool → Bool
opaque Config.carryOut : Bool → Bool → Bool → Bool → Bool

/-- What the user's design does in one nanosecond, by the number of draws made so far: its routing and its inputs decide it,
and the model leaves both free (log entry 24). -/
opaque Config.userActs : Nat → List UserAct

/-- The size in bytes that the boot flash reports (R462). -/
opaque Config.flashSize : Nat

/-- What the lanes do by themselves in one nanosecond (log entry 126). -/
opaque Config.laneActs : Nat → List LaneAct

/-- The bit of the PAM4 pattern of code `c` that follows the 31 bits before it, the newest in bit 0 (R308). -/
opaque Config.pam4Next : Nat → Nat → Bool

/-- Word `k` of the PAM4 pattern of code `c` (R308): IEEE 802.3 defines the patterns, and the manual does not repeat them. -/
opaque Config.pam4Word : Nat → Nat → BitVec 64

end Sys2Proof
end

