-- ==== Sys2Proof/Machine/Regs.lean ====
section
/-! DEFINITION. The register map of the device (BAR0, R21, R22): every register and every field that the
register tables of the manual name, with bit positions, access type (R3), reset class (R6), reset value and place.
A register is `Reg`, a field is `Fld`; a particular instance (of a die, an engine, a lane ...) is a list of
numbers, the *index* of the register. -/

namespace Sys2Proof.Machine

/-- Field access types (R3). -/
inductive Acc where
  | rw | ro | w1c | w1s | wo | rc
  deriving DecidableEq, Repr

/-- Reset classes (R6). -/
inductive Cls where
  | por | pkg | hub | die | sec | fn | eng | core | dbg
  deriving DecidableEq, Repr

/-- The address space in which a register's offset is given: the hub, a fabric die, a stack of a corner die, an engine,
a router, an NI, a link side, a bundle, a lane, a trunk lane, a permit governor, a telemetry block, a Pelorus block. -/
inductive Space where
  | hub | die | stk | eng | rtr | noc | ni | gk | bnd | lane | trk | gov | tel | pel | pelsh
  deriving DecidableEq, Repr

/-- What a register table says of one field. -/
structure FieldSpec where
  /-- lowest bit -/
  lo : Nat
  /-- number of bits -/
  width : Nat
  acc : Acc
  cls : Cls
  /-- reset value, where it does not depend on the instance -/
  rst : Nat
  deriving DecidableEq, Repr

/-- Every register the manual names. -/
inductive Reg where
  | HUB_ID | HUB_DIE_STATE | HUB_PERSONALITY | FIX_CFG | FIX_STAT | HBM_ILV
  | CLK_SRC | CLK_MON | CLK_SSC | CLKOUT_CTL | SPN_SYN | PWR_DIE_CTL
  | PWR_DIE_STAT | PWR_HUB_STAT | RST_UNLOCK | RST_CMD | RST_CAUSE | RST_DIE_CTL
  | RST_DIE_STAT | BOOT_STAT | BOOT_CFG | LS_RCV_CTL | LS_RCV_DATA | LS_RCV_STAT
  | HIF_CFG_FN | HIF_QP_ASSIGN | HIF_FN_CTL | HIF_FN_STAT | HIF_BAR4 | HIF_FN_FAB
  | HIF_ENG_ASSIGN | HIF_QP_SQ_LO | HIF_QP_SQ_HI | HIF_QP_CQ_LO | HIF_QP_CQ_HI | HIF_QP_CTL
  | HIF_QP_STAT | HIF_QP_HEAD | HIF_QP_IRQ | HIF_QP_DONE_CNT | SX_CTL | SX_STAT
  | SX_TIME_FRAC | SX_TIME_NS | SX_TIME_SL | SX_TIME_SH | SX_ADJ | SX_STEP_NS_LO
  | SX_STEP_NS_HI | SX_STEP_FRAC | SX_STEP_CMD | SX_STEP_THR | SX_PPS | SX_MEAS_OFS_LO
  | SX_MEAS_OFS_HI | SX_MEAS_MPD_LO | SX_MEAS_MPD_HI | SX_MEAS_SEQ | SX_PORT_CFG | SX_PORT_STAT
  | SX_PORT_EASYM | SX_PORT_IASYM | SX_PORT_PDELAY | SX_TXQ_ID | SX_TXQ_FRAC | SX_TXQ_NS
  | SX_TXQ_SL | SX_TXQ_SH | SX_TXQ_CTL | SX_TXQ_LOST_CNT | LS_STAT | LS_ARB
  | LS_SVN | LS_DBG_STAT | LS_ERR | LS_VER_CNT | EVT_CTL | EVT_NEXT
  | EVT_ACK | EVT_LOST_CNT | EVT_INFO_CNT | MGMT_HEALTH | HELM_CORE_CTL | HELM_CORE_STAT
  | HELM_WDT_CTL | HELM_WDT_LOAD | HELM_WDT_CNT | HELM_WDT_KICK | HELM_WDT_UNLOCK | HELM_DBG_CTL
  | HELM_DBG_STAT | HELM_DBG_CMD | HELM_DBG_ACC | HELM_DBG_ACC_LO | HELM_DBG_ACC_HI | HELM_MBX_REQ_LO
  | HELM_MBX_REQ_HI | HELM_MBX_RSP_LO | HELM_MBX_RSP_HI | HELM_MBX_LEN | HELM_MBX_CTL | HELM_BOOT_LO
  | HELM_BOOT_HI | HELM_BOOT_AUTO | HELM_PATCH_ADDR | HELM_PATCH_DATA | HELM_IC_SRC | HELM_IC_PEND
  | HELM_IC_SET | HELM_IC_THR | HELM_IC_CLAIM | RCW_BASE_LO | RCW_BASE_HI | RCW_SIZE
  | RCW_CTL | CFG_STATUS | CFG_ERR | CFG_ERR_FAR | SCRUB_CTL | SCRUB_STAT
  | SCRUB_COR_CNT | SCRUB_UNC_CNT | SEC_CTL | SEC_STATUS | SEC_COLMAP | SEC_SPAN
  | SEC_SPAN_CNT | MEM_ECC | MEM_SBE_CNT | MEM_DBE_CNT | RKN_STAT | RKN_LATE_CNT
  | HARD_MAP | FCLK_GSEL | FCLK_RSEL | FSYN_CTL | FSYN_FREQ | FVS_CTL
  | FVS_STAT | RC_CTL | RC_STAT | RC_CMD | RC_CMD_BASE_LO | RC_CMD_BASE_HI
  | RC_CMD_LEN | RC_HIT_CNT | RC_MISS_CNT | RC_WB_CNT | RC_SNP_CNT | RC_ECC_CNT
  | RC_POISON_CNT | HA_STAT | HA_BACKINV_CNT | HA_POISON_CNT | HBM_CTL | HBM_STAT
  | HBM_ARB | HBM_REF | HBM_RH | HBM_TRAIN | HBM_SCRUB | HBM_HASH
  | HBM_QOS_TARGET | HBM_ERR | HBM_ERR_ADDR_LO | HBM_ERR_ADDR_HI | HBM_CH_STAT | HBM_CH_COR_CNT
  | HBM_CH_UNC_CNT | HBM_CH_PAR_CNT | HBM_CH_RFM_CNT | HBM_CH_NBR_CNT | HBM_CH_ACT_CNT | SEAL_CTL
  | SEAL_STAT | SEAL_KEY | SEAL_INTEG | SEAL_ERR | SEAL_ERR_ADDR_LO | SEAL_ERR_ADDR_HI
  | SEAL_MAC_CNT | SEAL_NODE_CNT | SEAL_LOST_CNT | SEAL_DENY_CNT | SEAL_OVF_CNT | SEAL_CC_MISS_CNT
  | SEAL_BASE | SEAL_SIZE | SEAL_MBASE | SEAL_RCTL | SEAL_RSTAT | SEAL_POS
  | SEAL_GRANT_ENG | SEAL_GRANT_OTH | SEAL_HWM_LO | SEAL_HWM_HI | ENG_CTL | ENG_STATUS
  | ENG_FAULT | ENG_PC | ENG_OUT | ENG_AFMT | ENG_VFMT | ENG_PMASK
  | ENG_CMASK | ENG_LFSR_LO | ENG_LFSR_HI | ENG_TTRIG_NS | ENG_TTRIG_SL | ENG_TTRIG_SH
  | ENG_TMR_PERIOD | ENG_TMR_VEC | ENG_STRM_ADDR_LO | ENG_STRM_ADDR_HI | ENG_STRM_LEN | ENG_STRM_CTL
  | ENG_STRM_POS | ENG_GEN_B | ENG_GEN_E | ENG_GEN_S | ENG_GEN_V | ENG_LREL
  | ENG_LCNT | ENG_STEPS_LO | ENG_STEPS_HI | ENG_STALL | ENG_PERMIT | FC_CTL
  | FC_STATUS | FC_LANES | FC_RX | FC_TX | FC_RSP_TO | FC_REC_MAX
  | FC_RING_BASE_LO | FC_RING_BASE_HI | FC_RING_SIZE | FC_RING_WR | FC_RING_RD | FC_BM_ROW
  | FC_BM_COL | FC_CMP_LO | FC_CMP_HI | FC_FAIL_CNT | FC_UNCHK_CNT | FC_DROP_CNT
  | FC_GAP_CNT | FC_RUN | FC_SLICE_FAIL | NOC_RTR_PORT | NOC_RTR_ARB | NOC_RTR_ERR
  | NOC_RTR_VC | NOC_RTR_CORCNT | NOC_RTR_UNCCNT | NOC_RTR_BOUNCE | NOC_DRAIN | NOC_STALL
  | NOC_NI_ID | NOC_NI_CTL | NOC_NI_BSEL | NOC_NI_BDATA | NOC_NI_BOUNCE_CNT | NOC_NI_ALT_CNT
  | NOC_NI_FAIL_CNT | NOC_NI_CRC_CNT | NOC_NI_TO_CNT | NOC_NI_ERR | GK_CTL | GK_ROLE
  | GK_STAT | GK_HEALTH | GK_ARB | GK_XERR_CNT | GK_GRP_STAT | GK_GRP_CRC_CNT
  | GK_GRP_REPLAY_CNT | GK_LANE_MCNT | CL_BND_CTL | CL_BND_TRN | CL_BND_STAT | CL_CTL
  | CL_TIM | CL_PRBS | CL_SLIP | CL_STAT | CL_LOOP | CL_ERR_CNT
  | CL_BIT_LO | CL_BIT_HI | TR_CTL | TR_RATE | TR_FFE | TR_PRBS
  | TR_STAT | TR_ERR_CNT | TR_BIT_LO | TR_BIT_HI | PG_CFG | PG_STAT
  | PG_TO_CNT | PG_GRANT_CNT | PG_ERR | TEL_STAT | TEL_CTL | TEL_LIFE
  | TEL_HOURS | PEL_CTL | PEL_ADDR_LO | PEL_ADDR_HI | PEL_DATA_LO | PEL_DATA_HI
  | PEL_STAT | PEL_AUTH | PEL_AUTH_DATA | PEL_AUTH_STAT | PEL_BOOTHALT | PEL_RST
  deriving DecidableEq, Repr

/-- Every register field the manual names: `<register>_<field>`. -/
inductive Fld where
  | HUB_ID_FAMILY | HUB_ID_PART | HUB_ID_STEPPING | HUB_DIE_STATE_POS
  | HUB_DIE_STATE_KIND | HUB_DIE_STATE_PRESENT | HUB_DIE_STATE_STATE | HUB_DIE_STATE_HBM_OK
  | HUB_DIE_STATE_SPOKE_OK | HUB_DIE_STATE_RING_CW_OK | HUB_DIE_STATE_RING_CCW_OK | HUB_DIE_STATE_CFG_LOADED
  | HUB_DIE_STATE_LOST | HUB_PERSONALITY_MODE | HUB_PERSONALITY_DIES_IN_SERVICE | HUB_PERSONALITY_STACKS_OK
  | FIX_CFG_QUORUM | FIX_STAT_FLAG | FIX_STAT_SET | FIX_STAT_CLR
  | FIX_STAT_COUNT | FIX_STAT_GEN | HBM_ILV_MODE | CLK_SRC_SEL
  | CLK_SRC_ACTIVE | CLK_SRC_REF_SEL | CLK_SRC_DEAD_RECK | CLK_SRC_AUTO_RETURN
  | CLK_SRC_GLIDING | CLK_SRC_CMD | CLK_MON_FAIL_EV | CLK_MON_REF_OK
  | CLK_MON_OSC_ERR | CLK_SSC_DEPTH | CLK_SSC_FREQ | CLKOUT_CTL_SRC
  | CLKOUT_CTL_SPINE | CLKOUT_CTL_SSC | SPN_SYN_FREQ | SPN_SYN_GLIDING
  | PWR_DIE_CTL_CMD | PWR_DIE_STAT_PSTATE | PWR_DIE_STAT_BUSY | PWR_DIE_STAT_REFUSED
  | PWR_DIE_STAT_DOMAINS | PWR_HUB_STAT_DOMAINS | RST_UNLOCK_KEY | RST_CMD_CMD
  | RST_CAUSE_POR | RST_CAUSE_PIN | RST_CAUSE_SW_PKG | RST_CAUSE_THERMAL
  | RST_CAUSE_BIN_FATAL | RST_CAUSE_SW_HUB | RST_CAUSE_BIN_LOCKSTEP | RST_CAUSE_BIN_WDT
  | RST_DIE_CTL_CMD | RST_DIE_CTL_HOLD | RST_DIE_CTL_AUTO_RESTART | RST_DIE_STAT_CAUSE
  | RST_DIE_STAT_START_ERR | RST_DIE_STAT_RESETS | RST_DIE_STAT_HELD | RST_DIE_STAT_REFUSED
  | BOOT_STAT_STAGE | BOOT_STAT_SLOT | BOOT_STAT_FALLBACK | BOOT_STAT_DIR_COPY
  | BOOT_STAT_CFG | BOOT_STAT_CFG_STATUS | BOOT_CFG_NEXT_SLOT | BOOT_CFG_NO_AUTOLOAD
  | LS_RCV_CTL_CMD | LS_RCV_CTL_SLOT | LS_RCV_CTL_LEN | LS_RCV_DATA_DATA
  | LS_RCV_STAT_STATE | LS_RCV_STAT_ERR | LS_RCV_STAT_BYTES | HIF_CFG_FN_MASK
  | HIF_QP_ASSIGN_FN | HIF_QP_ASSIGN_VALID | HIF_FN_CTL_RO_DATA | HIF_FN_CTL_FLR_ENG
  | HIF_FN_STAT_FLR_BUSY | HIF_FN_STAT_FLR_CNT | HIF_FN_STAT_BME | HIF_BAR4_GIB
  | HIF_FN_FAB_DIES | HIF_ENG_ASSIGN_MASK | HIF_QP_SQ_LO_ADDR | HIF_QP_SQ_HI_ADDR
  | HIF_QP_CQ_LO_ADDR | HIF_QP_CQ_HI_ADDR | HIF_QP_CTL_SQ_LOG2 | HIF_QP_CTL_CQ_LOG2
  | HIF_QP_CTL_EN | HIF_QP_CTL_PRIO | HIF_QP_CTL_IRQ_ALL | HIF_QP_STAT_STATE
  | HIF_QP_STAT_ERR | HIF_QP_STAT_PHASE | HIF_QP_STAT_INFLIGHT | HIF_QP_HEAD_SQ_HEAD
  | HIF_QP_HEAD_CQ_TAIL | HIF_QP_IRQ_VEC | HIF_QP_IRQ_HOLDOFF | HIF_QP_DONE_CNT_COUNT
  | SX_CTL_MODE | SX_CTL_OC_PORT | SX_CTL_DELAY | SX_CTL_TRANSPORT
  | SX_CTL_SERVO | SX_CTL_SYNTONISE | SX_CTL_DOMAIN | SX_STAT_VALID
  | SX_STAT_HOLDOVER | SX_STAT_DEAD_RECK | SX_STAT_SPINE_OK | SX_STAT_STEP_REF
  | SX_STAT_REF_CODE | SX_STAT_STEPS | SX_TIME_FRAC_FRAC | SX_TIME_NS_NS
  | SX_TIME_SL_SEC | SX_TIME_SH_SEC | SX_ADJ_RATE | SX_STEP_NS_LO_NS
  | SX_STEP_NS_HI_NS | SX_STEP_FRAC_FRAC | SX_STEP_CMD_CMD | SX_STEP_CMD_FORCE
  | SX_STEP_CMD_BUSY | SX_STEP_THR_THR | SX_PPS_WIDTH | SX_MEAS_OFS_LO_VALUE
  | SX_MEAS_OFS_HI_VALUE | SX_MEAS_MPD_LO_VALUE | SX_MEAS_MPD_HI_VALUE | SX_MEAS_SEQ_SEQ
  | SX_MEAS_SEQ_NEW | SX_PORT_CFG_EN | SX_PORT_CFG_TWO_STEP | SX_PORT_CFG_SPEED
  | SX_PORT_STAT_PSTATE | SX_PORT_STAT_LINK | SX_PORT_STAT_TXQ_LEVEL | SX_PORT_STAT_TXQ_OVF
  | SX_PORT_STAT_ORPHAN | SX_PORT_EASYM_ASYM | SX_PORT_IASYM_ASYM | SX_PORT_PDELAY_DELAY
  | SX_TXQ_ID_SEQ | SX_TXQ_ID_TYPE | SX_TXQ_ID_VALID | SX_TXQ_FRAC_FRAC
  | SX_TXQ_NS_NS | SX_TXQ_SL_SEC | SX_TXQ_SH_SEC | SX_TXQ_CTL_POP
  | SX_TXQ_LOST_CNT_COUNT | LS_STAT_LIFECYCLE | LS_STAT_READY | LS_STAT_TRNG_OK
  | LS_STAT_OWNER_KEYS | LS_STAT_KEK | LS_STAT_VKEYS | LS_ARB_VALUE
  | LS_ARB_SPENT | LS_SVN_SVN | LS_DBG_STAT_JTAG_LEVEL | LS_DBG_STAT_PCIE_LEVEL
  | LS_DBG_STAT_USED | LS_DBG_STAT_FAILS | LS_DBG_STAT_WAIT | LS_ERR_CODE
  | LS_ERR_SOURCE | LS_ERR_VALID | LS_VER_CNT_COUNT | EVT_CTL_INFO_OFF
  | EVT_NEXT_SEQ | EVT_ACK_SEQ | EVT_LOST_CNT_COUNT | EVT_INFO_CNT_COUNT
  | MGMT_HEALTH_STAGE | MGMT_HEALTH_ZERO | HELM_CORE_CTL_CMD | HELM_CORE_STAT_STATE
  | HELM_CORE_STAT_WFI | HELM_CORE_STAT_PERMIT_TO | HELM_CORE_STAT_WDT_RESET | HELM_CORE_STAT_LEVEL
  | HELM_WDT_CTL_EN | HELM_WDT_CTL_FREEZE_MON | HELM_WDT_CTL_STAGE | HELM_WDT_LOAD_US
  | HELM_WDT_CNT_US | HELM_WDT_KICK_KEY | HELM_WDT_UNLOCK_KEY | HELM_DBG_CTL_EBRK
  | HELM_DBG_CTL_STEP_LRSC | HELM_DBG_CTL_GROUP | HELM_DBG_STAT_IN_MON | HELM_DBG_STAT_CAUSE
  | HELM_DBG_STAT_UNLOCK_ABORT | HELM_DBG_CMD_CMD | HELM_DBG_ACC_REG | HELM_DBG_ACC_OP
  | HELM_DBG_ACC_ERR | HELM_DBG_ACC_LO_DATA | HELM_DBG_ACC_HI_DATA | HELM_MBX_REQ_LO_ADDR
  | HELM_MBX_REQ_HI_ADDR | HELM_MBX_RSP_LO_ADDR | HELM_MBX_RSP_HI_ADDR | HELM_MBX_LEN_REQ
  | HELM_MBX_LEN_LIMIT | HELM_MBX_CTL_GO | HELM_MBX_CTL_BUSY | HELM_MBX_CTL_STATUS
  | HELM_MBX_CTL_BYTES | HELM_BOOT_LO_VEC | HELM_BOOT_HI_VEC | HELM_BOOT_AUTO_MASK
  | HELM_PATCH_ADDR_EN | HELM_PATCH_ADDR_OFF | HELM_PATCH_DATA_WORD | HELM_IC_SRC_PRIO
  | HELM_IC_SRC_TARGETS | HELM_IC_SRC_LEVEL | HELM_IC_PEND_BITS | HELM_IC_SET_SRC
  | HELM_IC_THR_THR | HELM_IC_CLAIM_SRC | RCW_BASE_LO_ADDR | RCW_BASE_HI_ADDR
  | RCW_SIZE_MIB | RCW_CTL_ATTR | RCW_CTL_EN | RCW_CTL_BUSY
  | CFG_STATUS_BUSY | CFG_STATUS_FRAMES | CFG_ERR_CODE | CFG_ERR_SECTOR
  | CFG_ERR_VALID | CFG_ERR_FAR_FAR | SCRUB_CTL_PERIOD | SCRUB_CTL_UNC_ACT
  | SCRUB_STAT_SECTOR | SCRUB_STAT_ACTIVE | SCRUB_STAT_DONE | SCRUB_COR_CNT_COUNT
  | SCRUB_UNC_CNT_COUNT | SEC_CTL_RESET | SEC_CTL_MIGRATE_EN | SEC_CTL_CMD
  | SEC_STATUS_STATE | SEC_STATUS_PERMIT_WAIT | SEC_STATUS_ISOLATED | SEC_STATUS_PENDING_REMAP
  | SEC_STATUS_RESET_HELD | SEC_COLMAP_ACTIVE | SEC_COLMAP_FUSED | SEC_COLMAP_FIELD
  | SEC_COLMAP_DEFECTS | SEC_SPAN_CONT | SEC_SPAN_DIR | SEC_SPAN_SEG
  | SEC_SPAN_WINNER | SEC_SPAN_CNT_COUNT | MEM_ECC_SBE | MEM_ECC_DBE
  | MEM_ECC_KIND | MEM_ECC_COL | MEM_ECC_BLOCK | MEM_ECC_ADDR
  | MEM_SBE_CNT_COUNT | MEM_DBE_CNT_COUNT | RKN_STAT_LATE | RKN_STAT_NEAR
  | RKN_STAT_COL | RKN_STAT_BLOCK | RKN_LATE_CNT_COUNT | HARD_MAP_RKN0
  | HARD_MAP_RKN1 | HARD_MAP_RKN2 | HARD_MAP_MEM_SPARE_LOW | FCLK_GSEL_SRC
  | FCLK_GSEL_ACTIVE | FCLK_GSEL_SWITCHING | FCLK_GSEL_FORCED | FCLK_GSEL_LOCKED
  | FCLK_RSEL_SRC | FCLK_RSEL_ACTIVE | FCLK_RSEL_SWITCHING | FCLK_RSEL_FORCED
  | FCLK_RSEL_LOCKED | FSYN_CTL_LOCKED | FSYN_CTL_GLIDING | FSYN_CTL_PERMIT_WAIT
  | FSYN_FREQ_FREQ | FVS_CTL_VSEL | FVS_CTL_SETTLE | FVS_STAT_VCUR
  | FVS_STAT_BUSY | FVS_STAT_FAIL | RC_CTL_EN | RC_CTL_LOSS_TO
  | RC_STAT_STATE | RC_STAT_RETAINED | RC_CMD_CMD | RC_CMD_BUSY
  | RC_CMD_BASE_LO_ADDR | RC_CMD_BASE_HI_ADDR | RC_CMD_LEN_LEN | RC_HIT_CNT_COUNT
  | RC_MISS_CNT_COUNT | RC_WB_CNT_COUNT | RC_SNP_CNT_COUNT | RC_ECC_CNT_COUNT
  | RC_POISON_CNT_COUNT | HA_STAT_SF_LEVEL | HA_STAT_RECALL | HA_BACKINV_CNT_COUNT
  | HA_POISON_CNT_COUNT | HBM_CTL_EN | HBM_CTL_CMD | HBM_CTL_TALARM
  | HBM_CTL_PD_IDLE | HBM_STAT_STATE | HBM_STAT_CONTENT | HBM_STAT_RATE
  | HBM_STAT_TEMP | HBM_STAT_HOT | HBM_STAT_TALARM_HIT | HBM_ARB_QFROM
  | HBM_ARB_QUOTA | HBM_ARB_WINDOW | HBM_ARB_WAIT | HBM_REF_MODE
  | HBM_REF_POSTPONE | HBM_RH_K | HBM_RH_RFM_REQ | HBM_TRAIN_RATE
  | HBM_TRAIN_PERIOD | HBM_TRAIN_DTEMP | HBM_SCRUB_HOURS | HBM_SCRUB_DONE
  | HBM_HASH_MASK | HBM_QOS_TARGET_TARGET | HBM_ERR_CODE | HBM_ERR_CH
  | HBM_ERR_PC | HBM_ERR_SID | HBM_ERR_VALID | HBM_ERR_ADDR_LO_ADDR
  | HBM_ERR_ADDR_HI_ADDR | HBM_CH_STAT_STATE | HBM_CH_STAT_LREP_LEFT | HBM_CH_COR_CNT_COUNT
  | HBM_CH_UNC_CNT_COUNT | HBM_CH_PAR_CNT_COUNT | HBM_CH_RFM_CNT_COUNT | HBM_CH_NBR_CNT_COUNT
  | HBM_CH_ACT_CNT_COUNT | SEAL_CTL_RATE | SEAL_STAT_RANGE | SEAL_STAT_KIND
  | SEAL_STAT_PERMIT_WAIT | SEAL_STAT_QUEUE | SEAL_STAT_DEFKEY | SEAL_KEY_SLOT
  | SEAL_KEY_OP | SEAL_KEY_SESSION | SEAL_KEY_BUSY | SEAL_KEY_FAIL
  | SEAL_INTEG_MIB | SEAL_ERR_CODE | SEAL_ERR_RANGE | SEAL_ERR_LEVEL
  | SEAL_ERR_VALID | SEAL_ERR_ADDR_LO_ADDR | SEAL_ERR_ADDR_HI_ADDR | SEAL_MAC_CNT_COUNT
  | SEAL_NODE_CNT_COUNT | SEAL_LOST_CNT_COUNT | SEAL_DENY_CNT_COUNT | SEAL_OVF_CNT_COUNT
  | SEAL_CC_MISS_CNT_COUNT | SEAL_BASE_MIB | SEAL_SIZE_MIB | SEAL_MBASE_MIB
  | SEAL_RCTL_MODE | SEAL_RCTL_CLAIM | SEAL_RCTL_CUR | SEAL_RCTL_OWNER
  | SEAL_RCTL_CMD | SEAL_RSTAT_STATE | SEAL_RSTAT_SWSTOP | SEAL_RSTAT_FREEZE
  | SEAL_RSTAT_KEYS | SEAL_POS_POS | SEAL_GRANT_ENG_MASK | SEAL_GRANT_OTH_FABRIC
  | SEAL_GRANT_OTH_HELM | SEAL_HWM_LO_HWM | SEAL_HWM_HI_HWM | ENG_CTL_CMD
  | ENG_CTL_LATE_POLICY | ENG_CTL_TMR_FREEZE | ENG_STATUS_STATE | ENG_STATUS_IN_HANDLER
  | ENG_STATUS_FAIL | ENG_STATUS_TLATE | ENG_STATUS_TMR_OVR | ENG_STATUS_LDEPTH
  | ENG_STATUS_CDEPTH | ENG_STATUS_END_CODE | ENG_FAULT_CODE | ENG_FAULT_DETAIL
  | ENG_FAULT_PC | ENG_FAULT_VALID | ENG_PC_START | ENG_PC_CUR
  | ENG_OUT_DEST | ENG_AFMT_WX | ENG_AFMT_WY | ENG_AFMT_WZ
  | ENG_AFMT_SCR | ENG_VFMT_AOFF | ENG_VFMT_COFF | ENG_PMASK_MASK
  | ENG_CMASK_MASK | ENG_LFSR_LO_SEED | ENG_LFSR_HI_SEED | ENG_TTRIG_NS_NS
  | ENG_TTRIG_SL_SEC | ENG_TTRIG_SH_SEC | ENG_TMR_PERIOD_PERIOD | ENG_TMR_VEC_VEC
  | ENG_STRM_ADDR_LO_ADDR | ENG_STRM_ADDR_HI_ADDR | ENG_STRM_LEN_LEN | ENG_STRM_CTL_RATE
  | ENG_STRM_CTL_FILL | ENG_STRM_CTL_AUTO | ENG_STRM_CTL_ENDED | ENG_STRM_CTL_LEVEL
  | ENG_STRM_POS_POS | ENG_GEN_B_VALUE | ENG_GEN_E_VALUE | ENG_GEN_S_VALUE
  | ENG_GEN_V_VALUE | ENG_LREL_COUNT | ENG_LCNT_COUNT | ENG_STEPS_LO_COUNT
  | ENG_STEPS_HI_COUNT | ENG_STALL_COUNT | ENG_PERMIT_HELD | ENG_PERMIT_WAIT
  | FC_CTL_CMD | FC_CTL_FORMAT | FC_CTL_OVF_POLICY | FC_CTL_BM_EN
  | FC_CTL_BM_UNIT | FC_CTL_TALIGN | FC_CTL_IDLE | FC_STATUS_CQ_LEVEL
  | FC_STATUS_FIFO_LEVEL | FC_STATUS_OVF | FC_STATUS_RING_ERR | FC_STATUS_LAUNCH_LATE
  | FC_STATUS_BM_SAT | FC_STATUS_BM_BUSY | FC_STATUS_LANE_CFG | FC_LANES_COUNT
  | FC_LANES_LANE0 | FC_LANES_LANE1 | FC_LANES_LANE2 | FC_LANES_LANE3
  | FC_RX_DELAY | FC_TX_LAUNCH | FC_RSP_TO_TIMEOUT | FC_REC_MAX_MAX
  | FC_RING_BASE_LO_ADDR | FC_RING_BASE_HI_ADDR | FC_RING_SIZE_LOG2 | FC_RING_WR_COUNT
  | FC_RING_RD_COUNT | FC_BM_ROW_SHIFT | FC_BM_ROW_WIDTH | FC_BM_COL_SHIFT
  | FC_BM_COL_WIDTH | FC_CMP_LO_COUNT | FC_CMP_HI_COUNT | FC_FAIL_CNT_COUNT
  | FC_UNCHK_CNT_COUNT | FC_DROP_CNT_COUNT | FC_GAP_CNT_COUNT | FC_RUN_RUN
  | FC_SLICE_FAIL_COUNT | NOC_RTR_PORT_EN | NOC_RTR_PORT_DRAIN | NOC_RTR_PORT_DRAINED
  | NOC_RTR_PORT_EXISTS | NOC_RTR_ARB_QFROM | NOC_RTR_ARB_QUOTA | NOC_RTR_ARB_WINDOW
  | NOC_RTR_ARB_WAIT | NOC_RTR_ERR_HCOR | NOC_RTR_ERR_HUNC | NOC_RTR_ERR_DCOR
  | NOC_RTR_ERR_DUNC | NOC_RTR_ERR_PORT | NOC_RTR_VC_REQ | NOC_RTR_VC_PST
  | NOC_RTR_VC_SNP | NOC_RTR_VC_RSP | NOC_RTR_CORCNT_COUNT | NOC_RTR_UNCCNT_COUNT
  | NOC_RTR_BOUNCE_COUNT | NOC_DRAIN_TIMEOUT | NOC_STALL_TIMEOUT | NOC_NI_ID_ID
  | NOC_NI_ID_ASSIGNED | NOC_NI_CTL_EN | NOC_NI_CTL_RSP_TO | NOC_NI_BSEL_INDEX
  | NOC_NI_BSEL_OP | NOC_NI_BSEL_BUSY | NOC_NI_BDATA_WORD | NOC_NI_BOUNCE_CNT_COUNT
  | NOC_NI_ALT_CNT_COUNT | NOC_NI_FAIL_CNT_COUNT | NOC_NI_CRC_CNT_COUNT | NOC_NI_TO_CNT_COUNT
  | NOC_NI_ERR_CODE | NOC_NI_ERR_DEST | NOC_NI_ERR_VALID | GK_CTL_SPINE
  | GK_CTL_CMD | GK_CTL_GROUP | GK_CTL_LANE | GK_ROLE_XSECT
  | GK_ROLE_COH | GK_STAT_STATE | GK_STAT_NOC | GK_STAT_NOC_DETOUR
  | GK_STAT_COH | GK_STAT_CROSS | GK_HEALTH_MOFFSET | GK_HEALTH_MTHR
  | GK_HEALTH_CTHR | GK_ARB_QFROM | GK_ARB_QUOTA | GK_ARB_WINDOW
  | GK_ARB_WAIT | GK_XERR_CNT_COUNT | GK_GRP_STAT_ROLE | GK_GRP_STAT_LCROSS
  | GK_GRP_STAT_SPARE_FOR | GK_GRP_STAT_PAUSED | GK_GRP_CRC_CNT_COUNT | GK_GRP_REPLAY_CNT_COUNT
  | GK_LANE_MCNT_COUNT | CL_BND_CTL_EN | CL_BND_CTL_SSC | CL_BND_CTL_CMD
  | CL_BND_CTL_MBPS | CL_BND_TRN_MODE | CL_BND_TRN_LANES | CL_BND_STAT_STATE
  | CL_BND_STAT_PLL_LOCK | CL_BND_STAT_GRID | CL_BND_STAT_REV | CL_BND_STAT_TRN_ERR
  | CL_BND_STAT_PRESENT | CL_CTL_EN | CL_CTL_USE | CL_CTL_TXINV
  | CL_CTL_DIV | CL_CTL_RXMODE | CL_CTL_CMD | CL_TIM_TXVERN
  | CL_TIM_TXDSK | CL_TIM_RXSTB | CL_TIM_RXDSK | CL_PRBS_GEN
  | CL_PRBS_CHK | CL_SLIP_COUNT | CL_STAT_LOS | CL_STAT_LOL
  | CL_STAT_LOS_EV | CL_STAT_LOL_EV | CL_STAT_RXINV | CL_STAT_CHK_LOCK
  | CL_STAT_REALIGN | CL_STAT_FPORT_DOWN | CL_STAT_SLIP_POS | CL_STAT_OWNED
  | CL_LOOP_UI | CL_LOOP_VALID | CL_LOOP_BUSY | CL_LOOP_FAIL
  | CL_ERR_CNT_COUNT | CL_BIT_LO_COUNT | CL_BIT_HI_COUNT | TR_CTL_EN
  | TR_CTL_MOD | TR_CTL_PRECODE | TR_CTL_TXINV | TR_CTL_RXINV
  | TR_CTL_CAP | TR_CTL_CAP_POINT | TR_CTL_FREEZE | TR_CTL_CMD
  | TR_RATE_RATE | TR_FFE_PRE2 | TR_FFE_PRE1 | TR_FFE_POST1
  | TR_PRBS_GEN | TR_PRBS_CHK | TR_STAT_STATE | TR_STAT_LOS
  | TR_STAT_LOL | TR_STAT_CHK_LOCK | TR_STAT_CAP_OVF | TR_STAT_SNR
  | TR_ERR_CNT_COUNT | TR_BIT_LO_COUNT | TR_BIT_HI_COUNT | PG_CFG_BUDGET
  | PG_CFG_RAMP | PG_CFG_TIMEOUT | PG_STAT_HELD | PG_STAT_QUEUE
  | PG_STAT_HEAD_UNITS | PG_STAT_HEAD_OP | PG_TO_CNT_COUNT | PG_GRANT_CNT_COUNT
  | PG_ERR_OVERSIZE | PG_ERR_OP | PG_ERR_UNITS | PG_ERR_VALID
  | TEL_STAT_TEMP | TEL_STAT_VCORE | TEL_STAT_ICORE | TEL_STAT_TWARN_HIT
  | TEL_CTL_TWARN | TEL_LIFE_PPM | TEL_HOURS_HOURS | PEL_CTL_CMD
  | PEL_ADDR_LO_ADDR | PEL_ADDR_HI_ADDR | PEL_DATA_LO_DATA | PEL_DATA_HI_DATA
  | PEL_STAT_BUSY | PEL_STAT_STATUS | PEL_AUTH_CMD | PEL_AUTH_LEVEL
  | PEL_AUTH_DATA_DATA | PEL_AUTH_STAT_BUSY | PEL_AUTH_STAT_OK | PEL_BOOTHALT_MASK
  | PEL_RST_CMD
  deriving DecidableEq, Repr

/-- The field tables: bit positions, access, class and reset value, as the rule of each register gives them.
A field whose reset value the table gives as fuse or strap has here the value of a device whose fuses mark no
defect and whose strap is low (log entry 5); such fields of the Lodestar change as fuses are blown, and no reset clears them. -/
def Fld.spec : Fld → FieldSpec
  | .HUB_ID_FAMILY => ⟨24, 8, .ro, .por, 84⟩  -- RNone
  | .HUB_ID_PART => ⟨8, 16, .ro, .por, 2048⟩
  | .HUB_ID_STEPPING => ⟨0, 8, .ro, .por, 177⟩
  | .HUB_DIE_STATE_POS => ⟨0, 4, .ro, .por, 0⟩  -- R24
  | .HUB_DIE_STATE_KIND => ⟨4, 2, .ro, .por, 0⟩
  | .HUB_DIE_STATE_PRESENT => ⟨6, 1, .ro, .por, 0⟩
  | .HUB_DIE_STATE_STATE => ⟨8, 3, .ro, .pkg, 0⟩
  | .HUB_DIE_STATE_HBM_OK => ⟨12, 1, .ro, .pkg, 0⟩
  | .HUB_DIE_STATE_SPOKE_OK => ⟨13, 1, .ro, .pkg, 0⟩
  | .HUB_DIE_STATE_RING_CW_OK => ⟨14, 1, .ro, .pkg, 0⟩
  | .HUB_DIE_STATE_RING_CCW_OK => ⟨15, 1, .ro, .pkg, 0⟩
  | .HUB_DIE_STATE_CFG_LOADED => ⟨16, 1, .ro, .pkg, 0⟩
  | .HUB_DIE_STATE_LOST => ⟨24, 1, .w1c, .pkg, 0⟩
  | .HUB_PERSONALITY_MODE => ⟨0, 2, .ro, .pkg, 0⟩  -- R25
  | .HUB_PERSONALITY_DIES_IN_SERVICE => ⟨8, 8, .ro, .pkg, 0⟩
  | .HUB_PERSONALITY_STACKS_OK => ⟨16, 4, .ro, .pkg, 0⟩
  | .FIX_CFG_QUORUM => ⟨0, 7, .rw, .hub, 0⟩  -- R124
  | .FIX_STAT_FLAG => ⟨0, 1, .ro, .hub, 0⟩  -- R124
  | .FIX_STAT_SET => ⟨1, 1, .wo, .hub, 0⟩
  | .FIX_STAT_CLR => ⟨2, 1, .wo, .hub, 0⟩
  | .FIX_STAT_COUNT => ⟨8, 7, .ro, .hub, 0⟩
  | .FIX_STAT_GEN => ⟨16, 1, .ro, .hub, 0⟩
  | .HBM_ILV_MODE => ⟨0, 2, .rw, .pkg, 1⟩  -- R255
  | .CLK_SRC_SEL => ⟨0, 2, .rw, .pkg, 0⟩  -- R397
  | .CLK_SRC_ACTIVE => ⟨4, 2, .ro, .pkg, 3⟩
  | .CLK_SRC_REF_SEL => ⟨8, 1, .ro, .por, 0⟩
  | .CLK_SRC_DEAD_RECK => ⟨9, 1, .ro, .pkg, 0⟩
  | .CLK_SRC_AUTO_RETURN => ⟨10, 1, .rw, .pkg, 0⟩
  | .CLK_SRC_GLIDING => ⟨11, 1, .ro, .pkg, 0⟩
  | .CLK_SRC_CMD => ⟨12, 4, .wo, .pkg, 0⟩
  | .CLK_MON_FAIL_EV => ⟨0, 1, .w1c, .pkg, 0⟩  -- R397
  | .CLK_MON_REF_OK => ⟨1, 1, .ro, .pkg, 0⟩
  | .CLK_MON_OSC_ERR => ⟨16, 16, .ro, .pkg, 0⟩
  | .CLK_SSC_DEPTH => ⟨0, 8, .rw, .pkg, 0⟩  -- R397
  | .CLK_SSC_FREQ => ⟨8, 8, .rw, .pkg, 32⟩
  | .CLKOUT_CTL_SRC => ⟨0, 2, .rw, .pkg, 0⟩  -- R397
  | .CLKOUT_CTL_SPINE => ⟨2, 3, .rw, .pkg, 0⟩
  | .CLKOUT_CTL_SSC => ⟨5, 1, .rw, .pkg, 0⟩
  | .SPN_SYN_FREQ => ⟨0, 21, .rw, .pkg, 1000000⟩  -- R397
  | .SPN_SYN_GLIDING => ⟨21, 1, .ro, .pkg, 0⟩
  | .PWR_DIE_CTL_CMD => ⟨0, 3, .wo, .pkg, 0⟩  -- R398
  | .PWR_DIE_STAT_PSTATE => ⟨0, 2, .ro, .pkg, 3⟩  -- R398
  | .PWR_DIE_STAT_BUSY => ⟨2, 1, .ro, .pkg, 0⟩
  | .PWR_DIE_STAT_REFUSED => ⟨3, 1, .w1c, .pkg, 0⟩
  | .PWR_DIE_STAT_DOMAINS => ⟨4, 5, .ro, .pkg, 0⟩
  | .PWR_HUB_STAT_DOMAINS => ⟨0, 6, .ro, .pkg, 7⟩  -- R398
  | .RST_UNLOCK_KEY => ⟨0, 16, .wo, .hub, 0⟩  -- R427
  | .RST_CMD_CMD => ⟨0, 2, .wo, .hub, 0⟩  -- R427
  | .RST_CAUSE_POR => ⟨0, 1, .w1c, .por, 1⟩  -- R427
  | .RST_CAUSE_PIN => ⟨1, 1, .w1c, .por, 0⟩
  | .RST_CAUSE_SW_PKG => ⟨2, 1, .w1c, .por, 0⟩
  | .RST_CAUSE_THERMAL => ⟨3, 1, .w1c, .por, 0⟩
  | .RST_CAUSE_BIN_FATAL => ⟨4, 1, .w1c, .por, 0⟩
  | .RST_CAUSE_SW_HUB => ⟨5, 1, .w1c, .por, 0⟩
  | .RST_CAUSE_BIN_LOCKSTEP => ⟨6, 1, .w1c, .por, 0⟩
  | .RST_CAUSE_BIN_WDT => ⟨7, 1, .w1c, .por, 0⟩
  | .RST_DIE_CTL_CMD => ⟨0, 2, .wo, .pkg, 0⟩  -- R428
  | .RST_DIE_CTL_HOLD => ⟨2, 1, .rw, .pkg, 0⟩
  | .RST_DIE_CTL_AUTO_RESTART => ⟨3, 1, .rw, .pkg, 0⟩
  | .RST_DIE_STAT_CAUSE => ⟨0, 4, .ro, .pkg, 0⟩  -- R428
  | .RST_DIE_STAT_START_ERR => ⟨4, 4, .ro, .pkg, 0⟩
  | .RST_DIE_STAT_RESETS => ⟨8, 8, .ro, .pkg, 0⟩
  | .RST_DIE_STAT_HELD => ⟨16, 1, .ro, .pkg, 0⟩
  | .RST_DIE_STAT_REFUSED => ⟨17, 1, .w1c, .pkg, 0⟩
  | .BOOT_STAT_STAGE => ⟨0, 4, .ro, .pkg, 0⟩  -- R429
  | .BOOT_STAT_SLOT => ⟨4, 1, .ro, .pkg, 0⟩
  | .BOOT_STAT_FALLBACK => ⟨5, 1, .ro, .pkg, 0⟩
  | .BOOT_STAT_DIR_COPY => ⟨6, 1, .ro, .pkg, 0⟩
  | .BOOT_STAT_CFG => ⟨8, 3, .ro, .pkg, 0⟩
  | .BOOT_STAT_CFG_STATUS => ⟨12, 4, .ro, .pkg, 0⟩
  | .BOOT_CFG_NEXT_SLOT => ⟨0, 2, .rw, .por, 0⟩  -- R429
  | .BOOT_CFG_NO_AUTOLOAD => ⟨2, 1, .rw, .por, 0⟩
  | .LS_RCV_CTL_CMD => ⟨0, 2, .wo, .pkg, 0⟩  -- R459
  | .LS_RCV_CTL_SLOT => ⟨2, 1, .rw, .pkg, 0⟩
  | .LS_RCV_CTL_LEN => ⟨4, 28, .rw, .pkg, 0⟩
  | .LS_RCV_DATA_DATA => ⟨0, 32, .wo, .pkg, 0⟩  -- R459
  | .LS_RCV_STAT_STATE => ⟨0, 2, .ro, .pkg, 0⟩  -- R459
  | .LS_RCV_STAT_ERR => ⟨2, 4, .ro, .pkg, 0⟩
  | .LS_RCV_STAT_BYTES => ⟨8, 24, .ro, .pkg, 0⟩
  | .HIF_CFG_FN_MASK => ⟨0, 8, .rw, .hub, 17⟩  -- R349
  | .HIF_QP_ASSIGN_FN => ⟨0, 3, .rw, .hub, 0⟩  -- R349
  | .HIF_QP_ASSIGN_VALID => ⟨4, 1, .rw, .hub, 0⟩
  | .HIF_FN_CTL_RO_DATA => ⟨0, 1, .rw, .hub, 1⟩  -- R350
  | .HIF_FN_CTL_FLR_ENG => ⟨1, 1, .rw, .hub, 1⟩
  | .HIF_FN_STAT_FLR_BUSY => ⟨0, 1, .ro, .pkg, 0⟩  -- R350
  | .HIF_FN_STAT_FLR_CNT => ⟨8, 8, .ro, .pkg, 0⟩
  | .HIF_FN_STAT_BME => ⟨16, 1, .ro, .pkg, 0⟩
  | .HIF_BAR4_GIB => ⟨0, 8, .rw, .fn, 0⟩  -- R350
  | .HIF_FN_FAB_DIES => ⟨0, 8, .rw, .hub, 0⟩  -- R350
  | .HIF_ENG_ASSIGN_MASK => ⟨0, 32, .rw, .hub, 0⟩  -- R350
  | .HIF_QP_SQ_LO_ADDR => ⟨12, 20, .rw, .fn, 0⟩  -- R351
  | .HIF_QP_SQ_HI_ADDR => ⟨0, 32, .rw, .fn, 0⟩  -- R351
  | .HIF_QP_CQ_LO_ADDR => ⟨12, 20, .rw, .fn, 0⟩  -- R351
  | .HIF_QP_CQ_HI_ADDR => ⟨0, 32, .rw, .fn, 0⟩  -- R351
  | .HIF_QP_CTL_SQ_LOG2 => ⟨0, 5, .rw, .fn, 0⟩  -- R351
  | .HIF_QP_CTL_CQ_LOG2 => ⟨8, 5, .rw, .fn, 0⟩
  | .HIF_QP_CTL_EN => ⟨16, 1, .rw, .fn, 0⟩
  | .HIF_QP_CTL_PRIO => ⟨17, 2, .rw, .fn, 0⟩
  | .HIF_QP_CTL_IRQ_ALL => ⟨19, 1, .rw, .fn, 0⟩
  | .HIF_QP_STAT_STATE => ⟨0, 2, .ro, .fn, 0⟩  -- R351
  | .HIF_QP_STAT_ERR => ⟨2, 4, .ro, .fn, 0⟩
  | .HIF_QP_STAT_PHASE => ⟨8, 1, .ro, .fn, 1⟩
  | .HIF_QP_STAT_INFLIGHT => ⟨9, 7, .ro, .fn, 0⟩
  | .HIF_QP_HEAD_SQ_HEAD => ⟨0, 16, .ro, .fn, 0⟩  -- R351
  | .HIF_QP_HEAD_CQ_TAIL => ⟨16, 16, .ro, .fn, 0⟩
  | .HIF_QP_IRQ_VEC => ⟨0, 10, .rw, .fn, 0⟩  -- R351
  | .HIF_QP_IRQ_HOLDOFF => ⟨16, 8, .rw, .fn, 0⟩
  | .HIF_QP_DONE_CNT_COUNT => ⟨0, 32, .rc, .fn, 0⟩  -- R351
  | .SX_CTL_MODE => ⟨0, 2, .rw, .hub, 0⟩  -- R369
  | .SX_CTL_OC_PORT => ⟨2, 1, .rw, .hub, 0⟩
  | .SX_CTL_DELAY => ⟨3, 1, .rw, .hub, 0⟩
  | .SX_CTL_TRANSPORT => ⟨4, 1, .rw, .hub, 0⟩
  | .SX_CTL_SERVO => ⟨5, 1, .rw, .hub, 0⟩
  | .SX_CTL_SYNTONISE => ⟨6, 1, .rw, .hub, 1⟩
  | .SX_CTL_DOMAIN => ⟨8, 8, .rw, .hub, 0⟩
  | .SX_STAT_VALID => ⟨0, 1, .ro, .pkg, 0⟩  -- R369
  | .SX_STAT_HOLDOVER => ⟨1, 1, .ro, .pkg, 0⟩
  | .SX_STAT_DEAD_RECK => ⟨2, 1, .ro, .pkg, 0⟩
  | .SX_STAT_SPINE_OK => ⟨3, 1, .ro, .pkg, 0⟩
  | .SX_STAT_STEP_REF => ⟨4, 1, .w1c, .pkg, 0⟩
  | .SX_STAT_REF_CODE => ⟨5, 3, .ro, .pkg, 0⟩
  | .SX_STAT_STEPS => ⟨8, 8, .ro, .pkg, 0⟩
  | .SX_TIME_FRAC_FRAC => ⟨0, 16, .ro, .pkg, 0⟩  -- R370
  | .SX_TIME_NS_NS => ⟨0, 30, .ro, .pkg, 0⟩  -- R370
  | .SX_TIME_SL_SEC => ⟨0, 32, .ro, .pkg, 0⟩  -- R370
  | .SX_TIME_SH_SEC => ⟨0, 16, .ro, .pkg, 0⟩  -- R370
  | .SX_ADJ_RATE => ⟨0, 32, .rw, .pkg, 0⟩  -- R370
  | .SX_STEP_NS_LO_NS => ⟨0, 32, .rw, .hub, 0⟩  -- R370
  | .SX_STEP_NS_HI_NS => ⟨0, 32, .rw, .hub, 0⟩  -- R370
  | .SX_STEP_FRAC_FRAC => ⟨0, 16, .rw, .hub, 0⟩  -- R370
  | .SX_STEP_CMD_CMD => ⟨0, 2, .wo, .hub, 0⟩  -- R370
  | .SX_STEP_CMD_FORCE => ⟨2, 1, .wo, .hub, 0⟩
  | .SX_STEP_CMD_BUSY => ⟨3, 1, .ro, .hub, 0⟩
  | .SX_STEP_THR_THR => ⟨0, 32, .rw, .hub, 1000⟩  -- R370
  | .SX_PPS_WIDTH => ⟨0, 16, .rw, .hub, 0⟩  -- R370
  | .SX_MEAS_OFS_LO_VALUE => ⟨0, 32, .ro, .hub, 0⟩  -- R371
  | .SX_MEAS_OFS_HI_VALUE => ⟨0, 32, .ro, .hub, 0⟩  -- R371
  | .SX_MEAS_MPD_LO_VALUE => ⟨0, 32, .ro, .hub, 0⟩  -- R371
  | .SX_MEAS_MPD_HI_VALUE => ⟨0, 32, .ro, .hub, 0⟩  -- R371
  | .SX_MEAS_SEQ_SEQ => ⟨0, 16, .ro, .hub, 0⟩  -- R371
  | .SX_MEAS_SEQ_NEW => ⟨16, 1, .w1c, .hub, 0⟩
  | .SX_PORT_CFG_EN => ⟨0, 1, .rw, .hub, 0⟩  -- R372
  | .SX_PORT_CFG_TWO_STEP => ⟨1, 1, .rw, .hub, 0⟩
  | .SX_PORT_CFG_SPEED => ⟨2, 2, .rw, .hub, 0⟩
  | .SX_PORT_STAT_PSTATE => ⟨0, 4, .ro, .hub, 0⟩  -- R372
  | .SX_PORT_STAT_LINK => ⟨4, 1, .ro, .hub, 0⟩
  | .SX_PORT_STAT_TXQ_LEVEL => ⟨5, 6, .ro, .hub, 0⟩
  | .SX_PORT_STAT_TXQ_OVF => ⟨11, 1, .w1c, .hub, 0⟩
  | .SX_PORT_STAT_ORPHAN => ⟨12, 8, .ro, .hub, 0⟩
  | .SX_PORT_EASYM_ASYM => ⟨0, 32, .rw, .hub, 0⟩  -- R372
  | .SX_PORT_IASYM_ASYM => ⟨0, 32, .rw, .hub, 0⟩  -- R372
  | .SX_PORT_PDELAY_DELAY => ⟨0, 32, .ro, .hub, 0⟩  -- R372
  | .SX_TXQ_ID_SEQ => ⟨0, 16, .ro, .hub, 0⟩  -- R372
  | .SX_TXQ_ID_TYPE => ⟨16, 4, .ro, .hub, 0⟩
  | .SX_TXQ_ID_VALID => ⟨20, 1, .ro, .hub, 0⟩
  | .SX_TXQ_FRAC_FRAC => ⟨0, 16, .ro, .hub, 0⟩  -- R372
  | .SX_TXQ_NS_NS => ⟨0, 30, .ro, .hub, 0⟩  -- R372
  | .SX_TXQ_SL_SEC => ⟨0, 32, .ro, .hub, 0⟩  -- R372
  | .SX_TXQ_SH_SEC => ⟨0, 16, .ro, .hub, 0⟩  -- R372
  | .SX_TXQ_CTL_POP => ⟨0, 1, .wo, .hub, 0⟩  -- R372
  | .SX_TXQ_LOST_CNT_COUNT => ⟨0, 32, .rc, .hub, 0⟩  -- R372
  | .LS_STAT_LIFECYCLE => ⟨0, 2, .ro, .por, 1⟩  -- R457
  | .LS_STAT_READY => ⟨2, 1, .ro, .pkg, 0⟩
  | .LS_STAT_TRNG_OK => ⟨3, 1, .ro, .pkg, 0⟩
  | .LS_STAT_OWNER_KEYS => ⟨4, 4, .ro, .por, 0⟩
  | .LS_STAT_KEK => ⟨8, 1, .ro, .por, 0⟩
  | .LS_STAT_VKEYS => ⟨9, 2, .ro, .por, 3⟩
  | .LS_ARB_VALUE => ⟨0, 7, .ro, .por, 0⟩  -- R457
  | .LS_ARB_SPENT => ⟨7, 1, .ro, .por, 0⟩
  | .LS_SVN_SVN => ⟨0, 32, .ro, .hub, 0⟩  -- R457
  | .LS_DBG_STAT_JTAG_LEVEL => ⟨0, 2, .ro, .dbg, 0⟩  -- R458
  | .LS_DBG_STAT_PCIE_LEVEL => ⟨2, 2, .ro, .dbg, 0⟩
  | .LS_DBG_STAT_USED => ⟨4, 3, .ro, .pkg, 0⟩
  | .LS_DBG_STAT_FAILS => ⟨8, 8, .ro, .por, 0⟩
  | .LS_DBG_STAT_WAIT => ⟨16, 16, .ro, .por, 0⟩
  | .LS_ERR_CODE => ⟨0, 4, .ro, .pkg, 0⟩  -- R458
  | .LS_ERR_SOURCE => ⟨4, 3, .ro, .pkg, 0⟩
  | .LS_ERR_VALID => ⟨31, 1, .w1c, .pkg, 0⟩
  | .LS_VER_CNT_COUNT => ⟨0, 32, .rc, .pkg, 0⟩  -- R458
  | .EVT_CTL_INFO_OFF => ⟨0, 1, .rw, .pkg, 0⟩  -- R511
  | .EVT_NEXT_SEQ => ⟨0, 32, .ro, .pkg, 0⟩  -- R511
  | .EVT_ACK_SEQ => ⟨0, 32, .rw, .pkg, 0⟩  -- R511
  | .EVT_LOST_CNT_COUNT => ⟨0, 32, .rc, .pkg, 0⟩  -- R511
  | .EVT_INFO_CNT_COUNT => ⟨0, 32, .rc, .pkg, 0⟩  -- R511
  | .MGMT_HEALTH_STAGE => ⟨0, 3, .ro, .pkg, 0⟩  -- R511
  | .MGMT_HEALTH_ZERO => ⟨8, 8, .ro, .pkg, 0⟩
  | .HELM_CORE_CTL_CMD => ⟨0, 2, .wo, .hub, 0⟩  -- R490
  | .HELM_CORE_STAT_STATE => ⟨0, 3, .ro, .hub, 0⟩  -- R490
  | .HELM_CORE_STAT_WFI => ⟨3, 1, .ro, .core, 0⟩
  | .HELM_CORE_STAT_PERMIT_TO => ⟨4, 1, .w1c, .hub, 0⟩
  | .HELM_CORE_STAT_WDT_RESET => ⟨5, 1, .w1c, .hub, 0⟩
  | .HELM_CORE_STAT_LEVEL => ⟨8, 4, .ro, .core, 0⟩
  | .HELM_WDT_CTL_EN => ⟨0, 1, .rw, .hub, 0⟩  -- R490
  | .HELM_WDT_CTL_FREEZE_MON => ⟨1, 1, .rw, .hub, 1⟩
  | .HELM_WDT_CTL_STAGE => ⟨4, 1, .ro, .core, 0⟩
  | .HELM_WDT_LOAD_US => ⟨0, 32, .rw, .hub, 0⟩  -- R490
  | .HELM_WDT_CNT_US => ⟨0, 32, .ro, .core, 0⟩  -- R490
  | .HELM_WDT_KICK_KEY => ⟨0, 16, .wo, .core, 0⟩  -- R490
  | .HELM_WDT_UNLOCK_KEY => ⟨0, 16, .wo, .core, 0⟩  -- R490
  | .HELM_DBG_CTL_EBRK => ⟨0, 1, .rw, .dbg, 0⟩  -- R490
  | .HELM_DBG_CTL_STEP_LRSC => ⟨1, 1, .rw, .dbg, 1⟩
  | .HELM_DBG_CTL_GROUP => ⟨2, 1, .rw, .dbg, 0⟩
  | .HELM_DBG_STAT_IN_MON => ⟨0, 1, .ro, .core, 0⟩  -- R490
  | .HELM_DBG_STAT_CAUSE => ⟨1, 3, .ro, .core, 0⟩
  | .HELM_DBG_STAT_UNLOCK_ABORT => ⟨4, 1, .w1c, .core, 0⟩
  | .HELM_DBG_CMD_CMD => ⟨0, 2, .wo, .core, 0⟩  -- R490
  | .HELM_DBG_ACC_REG => ⟨0, 14, .rw, .dbg, 0⟩  -- R490
  | .HELM_DBG_ACC_OP => ⟨14, 2, .wo, .dbg, 0⟩
  | .HELM_DBG_ACC_ERR => ⟨16, 1, .w1c, .dbg, 0⟩
  | .HELM_DBG_ACC_LO_DATA => ⟨0, 32, .rw, .dbg, 0⟩  -- R490
  | .HELM_DBG_ACC_HI_DATA => ⟨0, 32, .rw, .dbg, 0⟩  -- R490
  | .HELM_MBX_REQ_LO_ADDR => ⟨0, 32, .rw, .core, 0⟩  -- R491
  | .HELM_MBX_REQ_HI_ADDR => ⟨0, 16, .rw, .core, 0⟩  -- R491
  | .HELM_MBX_RSP_LO_ADDR => ⟨0, 32, .rw, .core, 0⟩  -- R491
  | .HELM_MBX_RSP_HI_ADDR => ⟨0, 16, .rw, .core, 0⟩  -- R491
  | .HELM_MBX_LEN_REQ => ⟨0, 13, .rw, .core, 0⟩  -- R491
  | .HELM_MBX_LEN_LIMIT => ⟨16, 13, .rw, .core, 0⟩
  | .HELM_MBX_CTL_GO => ⟨0, 1, .wo, .core, 0⟩  -- R491
  | .HELM_MBX_CTL_BUSY => ⟨1, 1, .ro, .core, 0⟩
  | .HELM_MBX_CTL_STATUS => ⟨4, 8, .ro, .core, 0⟩
  | .HELM_MBX_CTL_BYTES => ⟨16, 13, .ro, .core, 0⟩
  | .HELM_BOOT_LO_VEC => ⟨1, 31, .rw, .pkg, 134217728⟩  -- R491
  | .HELM_BOOT_HI_VEC => ⟨0, 16, .rw, .pkg, 448⟩  -- R491
  | .HELM_BOOT_AUTO_MASK => ⟨0, 8, .rw, .pkg, 1⟩  -- R491
  | .HELM_PATCH_ADDR_EN => ⟨0, 1, .rw, .hub, 0⟩  -- R492
  | .HELM_PATCH_ADDR_OFF => ⟨2, 29, .rw, .hub, 0⟩
  | .HELM_PATCH_DATA_WORD => ⟨0, 32, .rw, .hub, 0⟩  -- R492
  | .HELM_IC_SRC_PRIO => ⟨0, 4, .rw, .hub, 0⟩  -- R492
  | .HELM_IC_SRC_TARGETS => ⟨8, 8, .rw, .hub, 0⟩
  | .HELM_IC_SRC_LEVEL => ⟨16, 1, .ro, .hub, 0⟩
  | .HELM_IC_PEND_BITS => ⟨0, 32, .ro, .hub, 0⟩  -- R492
  | .HELM_IC_SET_SRC => ⟨0, 9, .wo, .hub, 0⟩  -- R492
  | .HELM_IC_THR_THR => ⟨0, 4, .rw, .core, 0⟩  -- R492
  | .HELM_IC_CLAIM_SRC => ⟨0, 9, .rw, .core, 0⟩  -- R492
  | .RCW_BASE_LO_ADDR => ⟨20, 12, .rw, .hub, 0⟩  -- R232
  | .RCW_BASE_HI_ADDR => ⟨0, 16, .rw, .hub, 0⟩  -- R232
  | .RCW_SIZE_MIB => ⟨0, 18, .rw, .hub, 0⟩  -- R232
  | .RCW_CTL_ATTR => ⟨0, 2, .rw, .hub, 0⟩  -- R232
  | .RCW_CTL_EN => ⟨4, 1, .rw, .hub, 0⟩
  | .RCW_CTL_BUSY => ⟨5, 1, .ro, .hub, 0⟩
  | .CFG_STATUS_BUSY => ⟨0, 1, .ro, .die, 0⟩  -- R55
  | .CFG_STATUS_FRAMES => ⟨8, 24, .ro, .die, 0⟩
  | .CFG_ERR_CODE => ⟨0, 4, .ro, .die, 0⟩  -- R55
  | .CFG_ERR_SECTOR => ⟨8, 6, .ro, .die, 0⟩
  | .CFG_ERR_VALID => ⟨31, 1, .w1c, .die, 0⟩
  | .CFG_ERR_FAR_FAR => ⟨0, 32, .ro, .die, 0⟩  -- R55
  | .SCRUB_CTL_PERIOD => ⟨0, 16, .rw, .die, 10⟩  -- R512
  | .SCRUB_CTL_UNC_ACT => ⟨16, 1, .rw, .die, 1⟩
  | .SCRUB_STAT_SECTOR => ⟨0, 6, .ro, .die, 0⟩  -- R512
  | .SCRUB_STAT_ACTIVE => ⟨6, 1, .ro, .die, 0⟩
  | .SCRUB_STAT_DONE => ⟨7, 1, .w1c, .die, 0⟩
  | .SCRUB_COR_CNT_COUNT => ⟨0, 32, .rc, .die, 0⟩  -- R512
  | .SCRUB_UNC_CNT_COUNT => ⟨0, 32, .rc, .die, 0⟩  -- R512
  | .SEC_CTL_RESET => ⟨0, 1, .rw, .die, 1⟩  -- R45
  | .SEC_CTL_MIGRATE_EN => ⟨1, 1, .rw, .die, 1⟩
  | .SEC_CTL_CMD => ⟨4, 3, .wo, .die, 0⟩
  | .SEC_STATUS_STATE => ⟨0, 3, .ro, .die, 0⟩  -- R46
  | .SEC_STATUS_PERMIT_WAIT => ⟨3, 1, .ro, .die, 0⟩
  | .SEC_STATUS_ISOLATED => ⟨4, 1, .ro, .die, 1⟩
  | .SEC_STATUS_PENDING_REMAP => ⟨5, 1, .ro, .die, 0⟩
  | .SEC_STATUS_RESET_HELD => ⟨6, 1, .ro, .die, 0⟩
  | .SEC_COLMAP_ACTIVE => ⟨0, 5, .ro, .die, 31⟩  -- R62
  | .SEC_COLMAP_FUSED => ⟨8, 5, .ro, .por, 31⟩
  | .SEC_COLMAP_FIELD => ⟨16, 5, .ro, .die, 31⟩
  | .SEC_COLMAP_DEFECTS => ⟨24, 2, .ro, .die, 0⟩
  | .SEC_SPAN_CONT => ⟨0, 1, .w1c, .sec, 0⟩  -- R40
  | .SEC_SPAN_DIR => ⟨1, 1, .ro, .sec, 0⟩
  | .SEC_SPAN_SEG => ⟨4, 10, .ro, .sec, 0⟩
  | .SEC_SPAN_WINNER => ⟨14, 7, .ro, .sec, 0⟩
  | .SEC_SPAN_CNT_COUNT => ⟨0, 32, .rc, .sec, 0⟩  -- R41
  | .MEM_ECC_SBE => ⟨0, 1, .w1c, .sec, 0⟩  -- R79
  | .MEM_ECC_DBE => ⟨1, 1, .w1c, .sec, 0⟩
  | .MEM_ECC_KIND => ⟨4, 1, .ro, .sec, 0⟩
  | .MEM_ECC_COL => ⟨5, 2, .ro, .sec, 0⟩
  | .MEM_ECC_BLOCK => ⟨7, 4, .ro, .sec, 0⟩
  | .MEM_ECC_ADDR => ⟨12, 14, .ro, .sec, 0⟩
  | .MEM_SBE_CNT_COUNT => ⟨0, 32, .rc, .sec, 0⟩  -- R80
  | .MEM_DBE_CNT_COUNT => ⟨0, 32, .rc, .sec, 0⟩  -- R80
  | .RKN_STAT_LATE => ⟨0, 1, .w1c, .sec, 0⟩  -- R89
  | .RKN_STAT_NEAR => ⟨1, 1, .ro, .sec, 0⟩
  | .RKN_STAT_COL => ⟨4, 2, .ro, .sec, 0⟩
  | .RKN_STAT_BLOCK => ⟨6, 5, .ro, .sec, 0⟩
  | .RKN_LATE_CNT_COUNT => ⟨0, 32, .rc, .sec, 0⟩  -- R90
  | .HARD_MAP_RKN0 => ⟨0, 5, .ro, .die, 31⟩  -- R81
  | .HARD_MAP_RKN1 => ⟨8, 5, .ro, .die, 31⟩
  | .HARD_MAP_RKN2 => ⟨16, 5, .ro, .die, 31⟩
  | .HARD_MAP_MEM_SPARE_LOW => ⟨24, 1, .ro, .die, 0⟩
  | .FCLK_GSEL_SRC => ⟨0, 6, .rw, .die, 0⟩  -- R63
  | .FCLK_GSEL_ACTIVE => ⟨8, 6, .ro, .die, 0⟩
  | .FCLK_GSEL_SWITCHING => ⟨14, 1, .ro, .die, 0⟩
  | .FCLK_GSEL_FORCED => ⟨15, 1, .w1c, .die, 0⟩
  | .FCLK_GSEL_LOCKED => ⟨16, 1, .ro, .die, 0⟩
  | .FCLK_RSEL_SRC => ⟨0, 6, .rw, .die, 0⟩  -- R64
  | .FCLK_RSEL_ACTIVE => ⟨8, 6, .ro, .die, 0⟩
  | .FCLK_RSEL_SWITCHING => ⟨14, 1, .ro, .die, 0⟩
  | .FCLK_RSEL_FORCED => ⟨15, 1, .w1c, .die, 0⟩
  | .FCLK_RSEL_LOCKED => ⟨16, 1, .ro, .die, 0⟩
  | .FSYN_CTL_LOCKED => ⟨0, 1, .ro, .die, 0⟩  -- R399
  | .FSYN_CTL_GLIDING => ⟨1, 1, .ro, .die, 0⟩
  | .FSYN_CTL_PERMIT_WAIT => ⟨2, 1, .ro, .die, 0⟩
  | .FSYN_FREQ_FREQ => ⟨0, 21, .rw, .die, 0⟩  -- R399
  | .FVS_CTL_VSEL => ⟨0, 2, .rw, .die, 2⟩  -- R399
  | .FVS_CTL_SETTLE => ⟨8, 8, .rw, .die, 50⟩
  | .FVS_STAT_VCUR => ⟨0, 2, .ro, .die, 2⟩  -- R399
  | .FVS_STAT_BUSY => ⟨2, 1, .ro, .die, 0⟩
  | .FVS_STAT_FAIL => ⟨3, 1, .w1c, .die, 0⟩
  | .RC_CTL_EN => ⟨0, 1, .rw, .die, 0⟩  -- R230
  | .RC_CTL_LOSS_TO => ⟨8, 8, .rw, .die, 10⟩
  | .RC_STAT_STATE => ⟨0, 2, .ro, .die, 0⟩  -- R230
  | .RC_STAT_RETAINED => ⟨8, 19, .ro, .die, 0⟩
  | .RC_CMD_CMD => ⟨0, 4, .wo, .die, 0⟩  -- R230
  | .RC_CMD_BUSY => ⟨4, 1, .ro, .die, 0⟩
  | .RC_CMD_BASE_LO_ADDR => ⟨6, 26, .rw, .die, 0⟩  -- R230
  | .RC_CMD_BASE_HI_ADDR => ⟨0, 16, .rw, .die, 0⟩  -- R230
  | .RC_CMD_LEN_LEN => ⟨0, 32, .rw, .die, 0⟩  -- R230
  | .RC_HIT_CNT_COUNT => ⟨0, 32, .rc, .die, 0⟩  -- R230
  | .RC_MISS_CNT_COUNT => ⟨0, 32, .rc, .die, 0⟩  -- R230
  | .RC_WB_CNT_COUNT => ⟨0, 32, .rc, .die, 0⟩  -- R230
  | .RC_SNP_CNT_COUNT => ⟨0, 32, .rc, .die, 0⟩  -- R230
  | .RC_ECC_CNT_COUNT => ⟨0, 32, .rc, .die, 0⟩  -- R230
  | .RC_POISON_CNT_COUNT => ⟨0, 32, .rc, .die, 0⟩  -- R230
  | .HA_STAT_SF_LEVEL => ⟨0, 23, .ro, .die, 0⟩  -- R231
  | .HA_STAT_RECALL => ⟨24, 1, .ro, .die, 0⟩
  | .HA_BACKINV_CNT_COUNT => ⟨0, 32, .rc, .die, 0⟩  -- R231
  | .HA_POISON_CNT_COUNT => ⟨0, 32, .rc, .die, 0⟩  -- R231
  | .HBM_CTL_EN => ⟨0, 1, .rw, .die, 0⟩  -- R256
  | .HBM_CTL_CMD => ⟨4, 4, .wo, .die, 0⟩
  | .HBM_CTL_TALARM => ⟨8, 8, .rw, .die, 95⟩
  | .HBM_CTL_PD_IDLE => ⟨16, 8, .rw, .die, 10⟩
  | .HBM_STAT_STATE => ⟨0, 3, .ro, .die, 0⟩  -- R256
  | .HBM_STAT_CONTENT => ⟨3, 1, .ro, .pkg, 0⟩
  | .HBM_STAT_RATE => ⟨4, 2, .ro, .die, 0⟩
  | .HBM_STAT_TEMP => ⟨8, 8, .ro, .die, 0⟩
  | .HBM_STAT_HOT => ⟨16, 1, .ro, .die, 0⟩
  | .HBM_STAT_TALARM_HIT => ⟨17, 1, .w1c, .die, 0⟩
  | .HBM_ARB_QFROM => ⟨0, 6, .rw, .die, 48⟩  -- R256
  | .HBM_ARB_QUOTA => ⟨8, 4, .rw, .die, 8⟩
  | .HBM_ARB_WINDOW => ⟨16, 8, .rw, .die, 64⟩
  | .HBM_ARB_WAIT => ⟨24, 8, .rw, .die, 16⟩
  | .HBM_REF_MODE => ⟨0, 1, .rw, .die, 0⟩  -- R256
  | .HBM_REF_POSTPONE => ⟨4, 4, .rw, .die, 4⟩
  | .HBM_RH_K => ⟨0, 5, .rw, .die, 10⟩  -- R256
  | .HBM_RH_RFM_REQ => ⟨5, 1, .ro, .die, 0⟩
  | .HBM_TRAIN_RATE => ⟨0, 2, .rw, .pkg, 2⟩  -- R256
  | .HBM_TRAIN_PERIOD => ⟨8, 8, .rw, .die, 10⟩
  | .HBM_TRAIN_DTEMP => ⟨16, 5, .rw, .die, 5⟩
  | .HBM_SCRUB_HOURS => ⟨0, 8, .rw, .die, 24⟩  -- R256
  | .HBM_SCRUB_DONE => ⟨31, 1, .w1c, .die, 0⟩
  | .HBM_HASH_MASK => ⟨6, 26, .rw, .pkg, 0⟩  -- R257
  | .HBM_QOS_TARGET_TARGET => ⟨0, 16, .rw, .die, 1000⟩  -- R257
  | .HBM_ERR_CODE => ⟨0, 4, .ro, .die, 0⟩  -- R258
  | .HBM_ERR_CH => ⟨4, 4, .ro, .die, 0⟩
  | .HBM_ERR_PC => ⟨8, 1, .ro, .die, 0⟩
  | .HBM_ERR_SID => ⟨9, 2, .ro, .die, 0⟩
  | .HBM_ERR_VALID => ⟨31, 1, .w1c, .die, 0⟩
  | .HBM_ERR_ADDR_LO_ADDR => ⟨6, 26, .ro, .die, 0⟩  -- R258
  | .HBM_ERR_ADDR_HI_ADDR => ⟨0, 4, .ro, .die, 0⟩  -- R258
  | .HBM_CH_STAT_STATE => ⟨0, 2, .ro, .die, 0⟩  -- R259
  | .HBM_CH_STAT_LREP_LEFT => ⟨2, 4, .ro, .die, 0⟩
  | .HBM_CH_COR_CNT_COUNT => ⟨0, 32, .rc, .die, 0⟩  -- R259
  | .HBM_CH_UNC_CNT_COUNT => ⟨0, 32, .rc, .die, 0⟩  -- R259
  | .HBM_CH_PAR_CNT_COUNT => ⟨0, 32, .rc, .die, 0⟩  -- R259
  | .HBM_CH_RFM_CNT_COUNT => ⟨0, 32, .rc, .die, 0⟩  -- R259
  | .HBM_CH_NBR_CNT_COUNT => ⟨0, 32, .rc, .die, 0⟩  -- R259
  | .HBM_CH_ACT_CNT_COUNT => ⟨0, 32, .rc, .die, 0⟩  -- R259
  | .SEAL_CTL_RATE => ⟨0, 6, .rw, .pkg, 16⟩  -- R283
  | .SEAL_STAT_RANGE => ⟨0, 4, .ro, .pkg, 0⟩  -- R283
  | .SEAL_STAT_KIND => ⟨4, 3, .ro, .pkg, 0⟩
  | .SEAL_STAT_PERMIT_WAIT => ⟨7, 1, .ro, .pkg, 0⟩
  | .SEAL_STAT_QUEUE => ⟨8, 16, .ro, .pkg, 0⟩
  | .SEAL_STAT_DEFKEY => ⟨24, 1, .ro, .pkg, 0⟩
  | .SEAL_KEY_SLOT => ⟨0, 6, .rw, .pkg, 0⟩  -- R283
  | .SEAL_KEY_OP => ⟨8, 2, .wo, .pkg, 0⟩
  | .SEAL_KEY_SESSION => ⟨16, 8, .rw, .pkg, 0⟩
  | .SEAL_KEY_BUSY => ⟨24, 1, .ro, .pkg, 0⟩
  | .SEAL_KEY_FAIL => ⟨25, 1, .w1c, .pkg, 0⟩
  | .SEAL_INTEG_MIB => ⟨0, 16, .ro, .pkg, 0⟩  -- R283
  | .SEAL_ERR_CODE => ⟨0, 4, .ro, .pkg, 0⟩  -- R284
  | .SEAL_ERR_RANGE => ⟨4, 4, .ro, .pkg, 0⟩
  | .SEAL_ERR_LEVEL => ⟨8, 4, .ro, .pkg, 0⟩
  | .SEAL_ERR_VALID => ⟨31, 1, .w1c, .pkg, 0⟩
  | .SEAL_ERR_ADDR_LO_ADDR => ⟨6, 26, .ro, .pkg, 0⟩  -- R284
  | .SEAL_ERR_ADDR_HI_ADDR => ⟨0, 4, .ro, .pkg, 0⟩  -- R284
  | .SEAL_MAC_CNT_COUNT => ⟨0, 32, .rc, .pkg, 0⟩  -- R284
  | .SEAL_NODE_CNT_COUNT => ⟨0, 32, .rc, .pkg, 0⟩  -- R284
  | .SEAL_LOST_CNT_COUNT => ⟨0, 32, .rc, .pkg, 0⟩  -- R284
  | .SEAL_DENY_CNT_COUNT => ⟨0, 32, .rc, .pkg, 0⟩  -- R284
  | .SEAL_OVF_CNT_COUNT => ⟨0, 32, .rc, .pkg, 0⟩  -- R284
  | .SEAL_CC_MISS_CNT_COUNT => ⟨0, 32, .rc, .pkg, 0⟩  -- R284
  | .SEAL_BASE_MIB => ⟨0, 16, .rw, .pkg, 0⟩  -- R285
  | .SEAL_SIZE_MIB => ⟨0, 16, .rw, .pkg, 0⟩  -- R285
  | .SEAL_MBASE_MIB => ⟨0, 16, .rw, .pkg, 0⟩  -- R285
  | .SEAL_RCTL_MODE => ⟨0, 1, .rw, .pkg, 0⟩  -- R285
  | .SEAL_RCTL_CLAIM => ⟨1, 1, .wo, .pkg, 0⟩
  | .SEAL_RCTL_CUR => ⟨2, 1, .ro, .pkg, 0⟩
  | .SEAL_RCTL_OWNER => ⟨4, 4, .ro, .pkg, 15⟩
  | .SEAL_RCTL_CMD => ⟨8, 4, .wo, .pkg, 0⟩
  | .SEAL_RSTAT_STATE => ⟨0, 3, .ro, .pkg, 0⟩  -- R285
  | .SEAL_RSTAT_SWSTOP => ⟨3, 1, .ro, .pkg, 0⟩
  | .SEAL_RSTAT_FREEZE => ⟨4, 2, .ro, .pkg, 0⟩
  | .SEAL_RSTAT_KEYS => ⟨8, 2, .ro, .pkg, 0⟩
  | .SEAL_POS_POS => ⟨0, 30, .ro, .pkg, 0⟩  -- R285
  | .SEAL_GRANT_ENG_MASK => ⟨0, 32, .rw, .pkg, 0⟩  -- R285
  | .SEAL_GRANT_OTH_FABRIC => ⟨0, 8, .rw, .pkg, 0⟩  -- R285
  | .SEAL_GRANT_OTH_HELM => ⟨8, 1, .rw, .pkg, 0⟩
  | .SEAL_HWM_LO_HWM => ⟨0, 32, .ro, .pkg, 0⟩  -- R285
  | .SEAL_HWM_HI_HWM => ⟨0, 24, .ro, .pkg, 0⟩  -- R285
  | .ENG_CTL_CMD => ⟨0, 4, .wo, .eng, 0⟩  -- R134
  | .ENG_CTL_LATE_POLICY => ⟨4, 1, .rw, .eng, 0⟩
  | .ENG_CTL_TMR_FREEZE => ⟨5, 1, .rw, .eng, 1⟩
  | .ENG_STATUS_STATE => ⟨0, 4, .ro, .eng, 0⟩  -- R134
  | .ENG_STATUS_IN_HANDLER => ⟨4, 1, .ro, .eng, 0⟩
  | .ENG_STATUS_FAIL => ⟨5, 1, .ro, .eng, 0⟩
  | .ENG_STATUS_TLATE => ⟨6, 1, .w1c, .eng, 0⟩
  | .ENG_STATUS_TMR_OVR => ⟨7, 1, .w1c, .eng, 0⟩
  | .ENG_STATUS_LDEPTH => ⟨8, 4, .ro, .eng, 0⟩
  | .ENG_STATUS_CDEPTH => ⟨12, 3, .ro, .eng, 0⟩
  | .ENG_STATUS_END_CODE => ⟨16, 16, .ro, .eng, 0⟩
  | .ENG_FAULT_CODE => ⟨0, 5, .ro, .eng, 0⟩  -- R134
  | .ENG_FAULT_DETAIL => ⟨5, 3, .ro, .eng, 0⟩
  | .ENG_FAULT_PC => ⟨16, 14, .ro, .eng, 0⟩
  | .ENG_FAULT_VALID => ⟨31, 1, .ro, .eng, 0⟩
  | .ENG_PC_START => ⟨0, 14, .rw, .eng, 0⟩  -- R134
  | .ENG_PC_CUR => ⟨16, 14, .ro, .eng, 0⟩
  | .ENG_OUT_DEST => ⟨0, 2, .rw, .eng, 0⟩  -- R135
  | .ENG_AFMT_WX => ⟨0, 6, .rw, .eng, 0⟩  -- R135
  | .ENG_AFMT_WY => ⟨8, 6, .rw, .eng, 0⟩
  | .ENG_AFMT_WZ => ⟨16, 6, .rw, .eng, 0⟩
  | .ENG_AFMT_SCR => ⟨24, 4, .rw, .eng, 0⟩
  | .ENG_VFMT_AOFF => ⟨0, 9, .rw, .eng, 0⟩  -- R135
  | .ENG_VFMT_COFF => ⟨16, 9, .rw, .eng, 0⟩
  | .ENG_PMASK_MASK => ⟨0, 32, .rw, .eng, 0⟩  -- R135
  | .ENG_CMASK_MASK => ⟨0, 32, .rw, .eng, 0⟩  -- R135
  | .ENG_LFSR_LO_SEED => ⟨0, 32, .rw, .eng, 1⟩  -- R135
  | .ENG_LFSR_HI_SEED => ⟨0, 32, .rw, .eng, 0⟩  -- R135
  | .ENG_TTRIG_NS_NS => ⟨0, 30, .rw, .eng, 0⟩  -- R136
  | .ENG_TTRIG_SL_SEC => ⟨0, 32, .rw, .eng, 0⟩  -- R136
  | .ENG_TTRIG_SH_SEC => ⟨0, 16, .rw, .eng, 0⟩  -- R136
  | .ENG_TMR_PERIOD_PERIOD => ⟨0, 32, .rw, .eng, 0⟩  -- R136
  | .ENG_TMR_VEC_VEC => ⟨0, 14, .rw, .eng, 0⟩  -- R136
  | .ENG_STRM_ADDR_LO_ADDR => ⟨6, 26, .rw, .eng, 0⟩  -- R137
  | .ENG_STRM_ADDR_HI_ADDR => ⟨0, 16, .rw, .eng, 0⟩  -- R137
  | .ENG_STRM_LEN_LEN => ⟨0, 32, .rw, .eng, 0⟩  -- R137
  | .ENG_STRM_CTL_RATE => ⟨0, 7, .rw, .eng, 0⟩  -- R137
  | .ENG_STRM_CTL_FILL => ⟨8, 6, .rw, .eng, 0⟩
  | .ENG_STRM_CTL_AUTO => ⟨16, 1, .rw, .eng, 0⟩
  | .ENG_STRM_CTL_ENDED => ⟨17, 1, .ro, .eng, 0⟩
  | .ENG_STRM_CTL_LEVEL => ⟨20, 8, .ro, .eng, 0⟩
  | .ENG_STRM_POS_POS => ⟨0, 32, .ro, .eng, 0⟩  -- R137
  | .ENG_GEN_B_VALUE => ⟨0, 32, .rw, .eng, 0⟩  -- R138
  | .ENG_GEN_E_VALUE => ⟨0, 32, .rw, .eng, 4294967295⟩  -- R138
  | .ENG_GEN_S_VALUE => ⟨0, 32, .rw, .eng, 1⟩  -- R138
  | .ENG_GEN_V_VALUE => ⟨0, 32, .rw, .eng, 0⟩  -- R138
  | .ENG_LREL_COUNT => ⟨0, 32, .rw, .eng, 0⟩  -- R138
  | .ENG_LCNT_COUNT => ⟨0, 32, .ro, .eng, 0⟩  -- R138
  | .ENG_STEPS_LO_COUNT => ⟨0, 32, .ro, .eng, 0⟩  -- R138
  | .ENG_STEPS_HI_COUNT => ⟨0, 32, .ro, .eng, 0⟩  -- R138
  | .ENG_STALL_COUNT => ⟨0, 32, .rc, .eng, 0⟩  -- R138
  | .ENG_PERMIT_HELD => ⟨0, 8, .ro, .eng, 0⟩  -- R138
  | .ENG_PERMIT_WAIT => ⟨8, 1, .ro, .eng, 0⟩
  | .FC_CTL_CMD => ⟨0, 4, .wo, .eng, 0⟩  -- R157
  | .FC_CTL_FORMAT => ⟨4, 1, .rw, .eng, 0⟩
  | .FC_CTL_OVF_POLICY => ⟨5, 1, .rw, .eng, 0⟩
  | .FC_CTL_BM_EN => ⟨6, 1, .rw, .eng, 0⟩
  | .FC_CTL_BM_UNIT => ⟨7, 1, .rw, .eng, 0⟩
  | .FC_CTL_TALIGN => ⟨8, 1, .rw, .eng, 0⟩
  | .FC_CTL_IDLE => ⟨12, 2, .rw, .eng, 0⟩
  | .FC_STATUS_CQ_LEVEL => ⟨0, 11, .ro, .eng, 0⟩  -- R157
  | .FC_STATUS_FIFO_LEVEL => ⟨12, 13, .ro, .eng, 0⟩
  | .FC_STATUS_OVF => ⟨25, 1, .w1c, .eng, 0⟩
  | .FC_STATUS_RING_ERR => ⟨26, 1, .w1c, .eng, 0⟩
  | .FC_STATUS_LAUNCH_LATE => ⟨27, 1, .w1c, .eng, 0⟩
  | .FC_STATUS_BM_SAT => ⟨28, 1, .w1c, .eng, 0⟩
  | .FC_STATUS_BM_BUSY => ⟨29, 1, .ro, .eng, 0⟩
  | .FC_STATUS_LANE_CFG => ⟨30, 1, .ro, .eng, 0⟩
  | .FC_LANES_COUNT => ⟨0, 3, .rw, .eng, 0⟩  -- R157
  | .FC_LANES_LANE0 => ⟨8, 6, .rw, .eng, 0⟩
  | .FC_LANES_LANE1 => ⟨14, 6, .rw, .eng, 0⟩
  | .FC_LANES_LANE2 => ⟨20, 6, .rw, .eng, 0⟩
  | .FC_LANES_LANE3 => ⟨26, 6, .rw, .eng, 0⟩
  | .FC_RX_DELAY => ⟨0, 10, .rw, .eng, 0⟩  -- R157
  | .FC_TX_LAUNCH => ⟨0, 16, .rw, .eng, 64⟩  -- R157
  | .FC_RSP_TO_TIMEOUT => ⟨0, 16, .rw, .eng, 0⟩  -- R158
  | .FC_REC_MAX_MAX => ⟨0, 32, .rw, .eng, 4294967295⟩  -- R158
  | .FC_RING_BASE_LO_ADDR => ⟨7, 25, .rw, .die, 0⟩  -- R158
  | .FC_RING_BASE_HI_ADDR => ⟨0, 16, .rw, .die, 0⟩  -- R158
  | .FC_RING_SIZE_LOG2 => ⟨0, 5, .rw, .die, 0⟩  -- R158
  | .FC_RING_WR_COUNT => ⟨0, 32, .ro, .die, 0⟩  -- R158
  | .FC_RING_RD_COUNT => ⟨0, 32, .rw, .die, 0⟩  -- R158
  | .FC_BM_ROW_SHIFT => ⟨0, 5, .rw, .eng, 0⟩  -- R158
  | .FC_BM_ROW_WIDTH => ⟨8, 5, .rw, .eng, 0⟩
  | .FC_BM_COL_SHIFT => ⟨0, 5, .rw, .eng, 0⟩  -- R158
  | .FC_BM_COL_WIDTH => ⟨8, 5, .rw, .eng, 0⟩
  | .FC_CMP_LO_COUNT => ⟨0, 32, .ro, .eng, 0⟩  -- R159
  | .FC_CMP_HI_COUNT => ⟨0, 32, .ro, .eng, 0⟩  -- R159
  | .FC_FAIL_CNT_COUNT => ⟨0, 32, .ro, .eng, 0⟩  -- R159
  | .FC_UNCHK_CNT_COUNT => ⟨0, 32, .ro, .eng, 0⟩  -- R159
  | .FC_DROP_CNT_COUNT => ⟨0, 32, .rc, .eng, 0⟩  -- R159
  | .FC_GAP_CNT_COUNT => ⟨0, 32, .rc, .eng, 0⟩  -- R159
  | .FC_RUN_RUN => ⟨0, 8, .ro, .eng, 0⟩  -- R159
  | .FC_SLICE_FAIL_COUNT => ⟨0, 32, .ro, .eng, 0⟩  -- R159
  | .NOC_RTR_PORT_EN => ⟨0, 8, .rw, .die, 0⟩  -- R189
  | .NOC_RTR_PORT_DRAIN => ⟨8, 8, .rw, .die, 0⟩
  | .NOC_RTR_PORT_DRAINED => ⟨16, 8, .ro, .die, 0⟩
  | .NOC_RTR_PORT_EXISTS => ⟨24, 8, .ro, .por, 0⟩
  | .NOC_RTR_ARB_QFROM => ⟨0, 6, .rw, .die, 24⟩  -- R189
  | .NOC_RTR_ARB_QUOTA => ⟨8, 4, .rw, .die, 8⟩
  | .NOC_RTR_ARB_WINDOW => ⟨16, 8, .rw, .die, 64⟩
  | .NOC_RTR_ARB_WAIT => ⟨24, 8, .rw, .die, 32⟩
  | .NOC_RTR_ERR_HCOR => ⟨0, 1, .w1c, .die, 0⟩  -- R189
  | .NOC_RTR_ERR_HUNC => ⟨1, 1, .w1c, .die, 0⟩
  | .NOC_RTR_ERR_DCOR => ⟨2, 1, .w1c, .die, 0⟩
  | .NOC_RTR_ERR_DUNC => ⟨3, 1, .w1c, .die, 0⟩
  | .NOC_RTR_ERR_PORT => ⟨4, 3, .ro, .die, 0⟩
  | .NOC_RTR_VC_REQ => ⟨0, 6, .rw, .die, 8⟩  -- R190
  | .NOC_RTR_VC_PST => ⟨8, 6, .rw, .die, 8⟩
  | .NOC_RTR_VC_SNP => ⟨16, 6, .rw, .die, 4⟩
  | .NOC_RTR_VC_RSP => ⟨24, 6, .rw, .die, 12⟩
  | .NOC_RTR_CORCNT_COUNT => ⟨0, 32, .rc, .die, 0⟩  -- R190
  | .NOC_RTR_UNCCNT_COUNT => ⟨0, 32, .rc, .die, 0⟩  -- R190
  | .NOC_RTR_BOUNCE_COUNT => ⟨0, 32, .rc, .die, 0⟩  -- R190
  | .NOC_DRAIN_TIMEOUT => ⟨0, 16, .rw, .die, 100⟩  -- R191
  | .NOC_STALL_TIMEOUT => ⟨0, 16, .rw, .die, 1000⟩  -- R191
  | .NOC_NI_ID_ID => ⟨0, 12, .ro, .por, 0⟩  -- R192
  | .NOC_NI_ID_ASSIGNED => ⟨12, 1, .ro, .por, 0⟩
  | .NOC_NI_CTL_EN => ⟨0, 1, .rw, .die, 0⟩  -- R192
  | .NOC_NI_CTL_RSP_TO => ⟨4, 12, .rw, .die, 200⟩
  | .NOC_NI_BSEL_INDEX => ⟨0, 9, .rw, .die, 0⟩  -- R192
  | .NOC_NI_BSEL_OP => ⟨12, 2, .wo, .die, 0⟩
  | .NOC_NI_BSEL_BUSY => ⟨15, 1, .ro, .die, 0⟩
  | .NOC_NI_BDATA_WORD => ⟨0, 32, .rw, .die, 0⟩  -- R192
  | .NOC_NI_BOUNCE_CNT_COUNT => ⟨0, 32, .rc, .die, 0⟩  -- R192
  | .NOC_NI_ALT_CNT_COUNT => ⟨0, 32, .rc, .die, 0⟩  -- R192
  | .NOC_NI_FAIL_CNT_COUNT => ⟨0, 32, .rc, .die, 0⟩  -- R192
  | .NOC_NI_CRC_CNT_COUNT => ⟨0, 32, .rc, .die, 0⟩  -- R192
  | .NOC_NI_TO_CNT_COUNT => ⟨0, 32, .rc, .die, 0⟩  -- R192
  | .NOC_NI_ERR_CODE => ⟨0, 4, .ro, .die, 0⟩  -- R192
  | .NOC_NI_ERR_DEST => ⟨4, 12, .ro, .die, 0⟩
  | .NOC_NI_ERR_VALID => ⟨31, 1, .w1c, .die, 0⟩
  | .GK_CTL_SPINE => ⟨0, 3, .rw, .pkg, 0⟩  -- R228
  | .GK_CTL_CMD => ⟨8, 4, .wo, .die, 0⟩
  | .GK_CTL_GROUP => ⟨16, 7, .rw, .die, 0⟩
  | .GK_CTL_LANE => ⟨24, 6, .rw, .die, 0⟩
  | .GK_ROLE_XSECT => ⟨0, 8, .rw, .pkg, 255⟩  -- R228
  | .GK_ROLE_COH => ⟨8, 5, .rw, .pkg, 12⟩
  | .GK_STAT_STATE => ⟨0, 3, .ro, .die, 0⟩  -- R228
  | .GK_STAT_NOC => ⟨8, 7, .ro, .die, 0⟩
  | .GK_STAT_NOC_DETOUR => ⟨15, 1, .ro, .die, 0⟩
  | .GK_STAT_COH => ⟨16, 7, .ro, .die, 0⟩
  | .GK_STAT_CROSS => ⟨24, 6, .ro, .die, 0⟩
  | .GK_HEALTH_MOFFSET => ⟨0, 6, .rw, .die, 12⟩  -- R228
  | .GK_HEALTH_MTHR => ⟨8, 8, .rw, .die, 64⟩
  | .GK_HEALTH_CTHR => ⟨16, 4, .rw, .die, 4⟩
  | .GK_ARB_QFROM => ⟨0, 6, .rw, .die, 36⟩  -- R228
  | .GK_ARB_QUOTA => ⟨8, 4, .rw, .die, 8⟩
  | .GK_ARB_WINDOW => ⟨16, 8, .rw, .die, 64⟩
  | .GK_ARB_WAIT => ⟨24, 8, .rw, .die, 32⟩
  | .GK_XERR_CNT_COUNT => ⟨0, 32, .rc, .die, 0⟩  -- R228
  | .GK_GRP_STAT_ROLE => ⟨0, 2, .ro, .die, 0⟩  -- R229
  | .GK_GRP_STAT_LCROSS => ⟨2, 6, .ro, .die, 0⟩
  | .GK_GRP_STAT_SPARE_FOR => ⟨8, 6, .ro, .die, 63⟩
  | .GK_GRP_STAT_PAUSED => ⟨14, 1, .ro, .die, 0⟩
  | .GK_GRP_CRC_CNT_COUNT => ⟨0, 32, .rc, .die, 0⟩  -- R229
  | .GK_GRP_REPLAY_CNT_COUNT => ⟨0, 32, .rc, .die, 0⟩  -- R229
  | .GK_LANE_MCNT_COUNT => ⟨0, 32, .rc, .die, 0⟩  -- R229
  | .CL_BND_CTL_EN => ⟨0, 1, .rw, .die, 0⟩  -- R312
  | .CL_BND_CTL_SSC => ⟨1, 1, .rw, .die, 0⟩
  | .CL_BND_CTL_CMD => ⟨4, 4, .wo, .die, 0⟩
  | .CL_BND_CTL_MBPS => ⟨16, 16, .rw, .die, 10000⟩
  | .CL_BND_TRN_MODE => ⟨0, 1, .rw, .die, 0⟩  -- R312
  | .CL_BND_TRN_LANES => ⟨8, 8, .rw, .die, 255⟩
  | .CL_BND_STAT_STATE => ⟨0, 3, .ro, .die, 0⟩  -- R312
  | .CL_BND_STAT_PLL_LOCK => ⟨3, 1, .ro, .die, 0⟩
  | .CL_BND_STAT_GRID => ⟨4, 1, .ro, .die, 0⟩
  | .CL_BND_STAT_REV => ⟨5, 1, .ro, .die, 0⟩
  | .CL_BND_STAT_TRN_ERR => ⟨8, 4, .ro, .die, 0⟩
  | .CL_BND_STAT_PRESENT => ⟨16, 8, .ro, .die, 0⟩
  | .CL_CTL_EN => ⟨0, 1, .rw, .die, 0⟩  -- R313
  | .CL_CTL_USE => ⟨1, 2, .rw, .die, 0⟩
  | .CL_CTL_TXINV => ⟨3, 1, .rw, .die, 0⟩
  | .CL_CTL_DIV => ⟨4, 2, .rw, .die, 0⟩
  | .CL_CTL_RXMODE => ⟨6, 1, .rw, .die, 0⟩
  | .CL_CTL_CMD => ⟨8, 4, .wo, .die, 0⟩
  | .CL_TIM_TXVERN => ⟨0, 7, .rw, .die, 0⟩  -- R313
  | .CL_TIM_TXDSK => ⟨8, 8, .rw, .die, 0⟩
  | .CL_TIM_RXSTB => ⟨16, 7, .rw, .die, 64⟩
  | .CL_TIM_RXDSK => ⟨24, 8, .rw, .die, 0⟩
  | .CL_PRBS_GEN => ⟨0, 3, .rw, .die, 0⟩  -- R313
  | .CL_PRBS_CHK => ⟨4, 3, .rw, .die, 0⟩
  | .CL_SLIP_COUNT => ⟨0, 9, .wo, .die, 0⟩  -- R313
  | .CL_STAT_LOS => ⟨0, 1, .ro, .die, 0⟩  -- R314
  | .CL_STAT_LOL => ⟨1, 1, .ro, .die, 0⟩
  | .CL_STAT_LOS_EV => ⟨2, 1, .w1c, .die, 0⟩
  | .CL_STAT_LOL_EV => ⟨3, 1, .w1c, .die, 0⟩
  | .CL_STAT_RXINV => ⟨4, 1, .ro, .die, 0⟩
  | .CL_STAT_CHK_LOCK => ⟨5, 1, .ro, .die, 0⟩
  | .CL_STAT_REALIGN => ⟨6, 1, .w1c, .die, 1⟩
  | .CL_STAT_FPORT_DOWN => ⟨7, 1, .ro, .die, 1⟩
  | .CL_STAT_SLIP_POS => ⟨8, 9, .ro, .die, 0⟩
  | .CL_STAT_OWNED => ⟨17, 1, .ro, .die, 0⟩
  | .CL_LOOP_UI => ⟨0, 16, .ro, .die, 0⟩  -- R314
  | .CL_LOOP_VALID => ⟨16, 1, .ro, .die, 0⟩
  | .CL_LOOP_BUSY => ⟨17, 1, .ro, .die, 0⟩
  | .CL_LOOP_FAIL => ⟨18, 1, .w1c, .die, 0⟩
  | .CL_ERR_CNT_COUNT => ⟨0, 32, .rc, .die, 0⟩  -- R540
  | .CL_BIT_LO_COUNT => ⟨0, 32, .ro, .die, 0⟩  -- R540
  | .CL_BIT_HI_COUNT => ⟨0, 32, .ro, .die, 0⟩  -- R540
  | .TR_CTL_EN => ⟨0, 1, .rw, .die, 0⟩  -- R315
  | .TR_CTL_MOD => ⟨1, 1, .rw, .die, 0⟩
  | .TR_CTL_PRECODE => ⟨2, 1, .rw, .die, 0⟩
  | .TR_CTL_TXINV => ⟨3, 1, .rw, .die, 0⟩
  | .TR_CTL_RXINV => ⟨4, 1, .rw, .die, 0⟩
  | .TR_CTL_CAP => ⟨5, 1, .rw, .die, 0⟩
  | .TR_CTL_CAP_POINT => ⟨6, 1, .rw, .die, 0⟩
  | .TR_CTL_FREEZE => ⟨7, 1, .rw, .die, 0⟩
  | .TR_CTL_CMD => ⟨8, 4, .wo, .die, 0⟩
  | .TR_RATE_RATE => ⟨0, 14, .rw, .die, 2500⟩  -- R315
  | .TR_FFE_PRE2 => ⟨0, 6, .rw, .die, 0⟩  -- R315
  | .TR_FFE_PRE1 => ⟨8, 6, .rw, .die, 0⟩
  | .TR_FFE_POST1 => ⟨16, 6, .rw, .die, 0⟩
  | .TR_PRBS_GEN => ⟨0, 3, .rw, .die, 0⟩  -- R315
  | .TR_PRBS_CHK => ⟨4, 3, .rw, .die, 0⟩
  | .TR_STAT_STATE => ⟨0, 3, .ro, .die, 0⟩  -- R315
  | .TR_STAT_LOS => ⟨3, 1, .ro, .die, 0⟩
  | .TR_STAT_LOL => ⟨4, 1, .ro, .die, 0⟩
  | .TR_STAT_CHK_LOCK => ⟨5, 1, .ro, .die, 0⟩
  | .TR_STAT_CAP_OVF => ⟨6, 1, .w1c, .die, 0⟩
  | .TR_STAT_SNR => ⟨8, 8, .ro, .die, 0⟩
  | .TR_ERR_CNT_COUNT => ⟨0, 32, .rc, .die, 0⟩  -- R540
  | .TR_BIT_LO_COUNT => ⟨0, 32, .ro, .die, 0⟩  -- R540
  | .TR_BIT_HI_COUNT => ⟨0, 32, .ro, .die, 0⟩  -- R540
  | .PG_CFG_BUDGET => ⟨0, 8, .rw, .die, 40⟩  -- R400
  | .PG_CFG_RAMP => ⟨8, 8, .rw, .die, 20⟩
  | .PG_CFG_TIMEOUT => ⟨16, 16, .rw, .die, 1000⟩
  | .PG_STAT_HELD => ⟨0, 8, .ro, .die, 0⟩  -- R400
  | .PG_STAT_QUEUE => ⟨8, 8, .ro, .die, 0⟩
  | .PG_STAT_HEAD_UNITS => ⟨16, 8, .ro, .die, 0⟩
  | .PG_STAT_HEAD_OP => ⟨24, 5, .ro, .die, 0⟩
  | .PG_TO_CNT_COUNT => ⟨0, 32, .rc, .die, 0⟩  -- R400
  | .PG_GRANT_CNT_COUNT => ⟨0, 32, .rc, .die, 0⟩  -- R400
  | .PG_ERR_OVERSIZE => ⟨0, 1, .w1c, .die, 0⟩  -- R400
  | .PG_ERR_OP => ⟨8, 5, .ro, .die, 0⟩
  | .PG_ERR_UNITS => ⟨16, 8, .ro, .die, 0⟩
  | .PG_ERR_VALID => ⟨31, 1, .w1c, .die, 0⟩
  | .TEL_STAT_TEMP => ⟨0, 8, .ro, .die, 0⟩  -- R513
  | .TEL_STAT_VCORE => ⟨8, 12, .ro, .die, 0⟩
  | .TEL_STAT_ICORE => ⟨20, 10, .ro, .die, 0⟩
  | .TEL_STAT_TWARN_HIT => ⟨30, 1, .w1c, .die, 0⟩
  | .TEL_CTL_TWARN => ⟨0, 8, .rw, .die, 95⟩  -- R513
  | .TEL_LIFE_PPM => ⟨0, 20, .ro, .die, 0⟩  -- R513
  | .TEL_HOURS_HOURS => ⟨0, 32, .ro, .die, 0⟩  -- R513
  | .PEL_CTL_CMD => ⟨0, 3, .wo, .dbg, 0⟩  -- R493
  | .PEL_ADDR_LO_ADDR => ⟨0, 32, .rw, .dbg, 0⟩  -- R493
  | .PEL_ADDR_HI_ADDR => ⟨0, 16, .rw, .dbg, 0⟩  -- R493
  | .PEL_DATA_LO_DATA => ⟨0, 32, .rw, .dbg, 0⟩  -- R493
  | .PEL_DATA_HI_DATA => ⟨0, 32, .rw, .dbg, 0⟩  -- R493
  | .PEL_STAT_BUSY => ⟨0, 1, .ro, .dbg, 0⟩  -- R493
  | .PEL_STAT_STATUS => ⟨8, 8, .ro, .dbg, 0⟩
  | .PEL_AUTH_CMD => ⟨0, 2, .wo, .dbg, 0⟩  -- R493
  | .PEL_AUTH_LEVEL => ⟨4, 2, .rw, .dbg, 0⟩
  | .PEL_AUTH_DATA_DATA => ⟨0, 32, .rw, .dbg, 0⟩  -- R493
  | .PEL_AUTH_STAT_BUSY => ⟨0, 1, .ro, .dbg, 0⟩  -- R493
  | .PEL_AUTH_STAT_OK => ⟨1, 1, .ro, .dbg, 0⟩
  | .PEL_BOOTHALT_MASK => ⟨0, 8, .rw, .dbg, 0⟩  -- R493
  | .PEL_RST_CMD => ⟨0, 1, .wo, .dbg, 0⟩  -- R493

/-- Every field, in the order of its number. -/
def Fld.all : List Fld :=
  List.flatten [
  [.HUB_ID_FAMILY, .HUB_ID_PART, .HUB_ID_STEPPING, .HUB_DIE_STATE_POS, .HUB_DIE_STATE_KIND],
  [.HUB_DIE_STATE_PRESENT, .HUB_DIE_STATE_STATE, .HUB_DIE_STATE_HBM_OK, .HUB_DIE_STATE_SPOKE_OK, .HUB_DIE_STATE_RING_CW_OK],
  [.HUB_DIE_STATE_RING_CCW_OK, .HUB_DIE_STATE_CFG_LOADED, .HUB_DIE_STATE_LOST, .HUB_PERSONALITY_MODE, .HUB_PERSONALITY_DIES_IN_SERVICE],
  [.HUB_PERSONALITY_STACKS_OK, .FIX_CFG_QUORUM, .FIX_STAT_FLAG, .FIX_STAT_SET, .FIX_STAT_CLR],
  [.FIX_STAT_COUNT, .FIX_STAT_GEN, .HBM_ILV_MODE, .CLK_SRC_SEL, .CLK_SRC_ACTIVE],
  [.CLK_SRC_REF_SEL, .CLK_SRC_DEAD_RECK, .CLK_SRC_AUTO_RETURN, .CLK_SRC_GLIDING, .CLK_SRC_CMD],
  [.CLK_MON_FAIL_EV, .CLK_MON_REF_OK, .CLK_MON_OSC_ERR, .CLK_SSC_DEPTH, .CLK_SSC_FREQ],
  [.CLKOUT_CTL_SRC, .CLKOUT_CTL_SPINE, .CLKOUT_CTL_SSC, .SPN_SYN_FREQ, .SPN_SYN_GLIDING],
  [.PWR_DIE_CTL_CMD, .PWR_DIE_STAT_PSTATE, .PWR_DIE_STAT_BUSY, .PWR_DIE_STAT_REFUSED, .PWR_DIE_STAT_DOMAINS],
  [.PWR_HUB_STAT_DOMAINS, .RST_UNLOCK_KEY, .RST_CMD_CMD, .RST_CAUSE_POR, .RST_CAUSE_PIN],
  [.RST_CAUSE_SW_PKG, .RST_CAUSE_THERMAL, .RST_CAUSE_BIN_FATAL, .RST_CAUSE_SW_HUB, .RST_CAUSE_BIN_LOCKSTEP],
  [.RST_CAUSE_BIN_WDT, .RST_DIE_CTL_CMD, .RST_DIE_CTL_HOLD, .RST_DIE_CTL_AUTO_RESTART, .RST_DIE_STAT_CAUSE],
  [.RST_DIE_STAT_START_ERR, .RST_DIE_STAT_RESETS, .RST_DIE_STAT_HELD, .RST_DIE_STAT_REFUSED, .BOOT_STAT_STAGE],
  [.BOOT_STAT_SLOT, .BOOT_STAT_FALLBACK, .BOOT_STAT_DIR_COPY, .BOOT_STAT_CFG, .BOOT_STAT_CFG_STATUS],
  [.BOOT_CFG_NEXT_SLOT, .BOOT_CFG_NO_AUTOLOAD, .LS_RCV_CTL_CMD, .LS_RCV_CTL_SLOT, .LS_RCV_CTL_LEN],
  [.LS_RCV_DATA_DATA, .LS_RCV_STAT_STATE, .LS_RCV_STAT_ERR, .LS_RCV_STAT_BYTES, .HIF_CFG_FN_MASK],
  [.HIF_QP_ASSIGN_FN, .HIF_QP_ASSIGN_VALID, .HIF_FN_CTL_RO_DATA, .HIF_FN_CTL_FLR_ENG, .HIF_FN_STAT_FLR_BUSY],
  [.HIF_FN_STAT_FLR_CNT, .HIF_FN_STAT_BME, .HIF_BAR4_GIB, .HIF_FN_FAB_DIES, .HIF_ENG_ASSIGN_MASK],
  [.HIF_QP_SQ_LO_ADDR, .HIF_QP_SQ_HI_ADDR, .HIF_QP_CQ_LO_ADDR, .HIF_QP_CQ_HI_ADDR, .HIF_QP_CTL_SQ_LOG2],
  [.HIF_QP_CTL_CQ_LOG2, .HIF_QP_CTL_EN, .HIF_QP_CTL_PRIO, .HIF_QP_CTL_IRQ_ALL, .HIF_QP_STAT_STATE],
  [.HIF_QP_STAT_ERR, .HIF_QP_STAT_PHASE, .HIF_QP_STAT_INFLIGHT, .HIF_QP_HEAD_SQ_HEAD, .HIF_QP_HEAD_CQ_TAIL],
  [.HIF_QP_IRQ_VEC, .HIF_QP_IRQ_HOLDOFF, .HIF_QP_DONE_CNT_COUNT, .SX_CTL_MODE, .SX_CTL_OC_PORT],
  [.SX_CTL_DELAY, .SX_CTL_TRANSPORT, .SX_CTL_SERVO, .SX_CTL_SYNTONISE, .SX_CTL_DOMAIN],
  [.SX_STAT_VALID, .SX_STAT_HOLDOVER, .SX_STAT_DEAD_RECK, .SX_STAT_SPINE_OK, .SX_STAT_STEP_REF],
  [.SX_STAT_REF_CODE, .SX_STAT_STEPS, .SX_TIME_FRAC_FRAC, .SX_TIME_NS_NS, .SX_TIME_SL_SEC],
  [.SX_TIME_SH_SEC, .SX_ADJ_RATE, .SX_STEP_NS_LO_NS, .SX_STEP_NS_HI_NS, .SX_STEP_FRAC_FRAC],
  [.SX_STEP_CMD_CMD, .SX_STEP_CMD_FORCE, .SX_STEP_CMD_BUSY, .SX_STEP_THR_THR, .SX_PPS_WIDTH],
  [.SX_MEAS_OFS_LO_VALUE, .SX_MEAS_OFS_HI_VALUE, .SX_MEAS_MPD_LO_VALUE, .SX_MEAS_MPD_HI_VALUE, .SX_MEAS_SEQ_SEQ],
  [.SX_MEAS_SEQ_NEW, .SX_PORT_CFG_EN, .SX_PORT_CFG_TWO_STEP, .SX_PORT_CFG_SPEED, .SX_PORT_STAT_PSTATE],
  [.SX_PORT_STAT_LINK, .SX_PORT_STAT_TXQ_LEVEL, .SX_PORT_STAT_TXQ_OVF, .SX_PORT_STAT_ORPHAN, .SX_PORT_EASYM_ASYM],
  [.SX_PORT_IASYM_ASYM, .SX_PORT_PDELAY_DELAY, .SX_TXQ_ID_SEQ, .SX_TXQ_ID_TYPE, .SX_TXQ_ID_VALID],
  [.SX_TXQ_FRAC_FRAC, .SX_TXQ_NS_NS, .SX_TXQ_SL_SEC, .SX_TXQ_SH_SEC, .SX_TXQ_CTL_POP],
  [.SX_TXQ_LOST_CNT_COUNT, .LS_STAT_LIFECYCLE, .LS_STAT_READY, .LS_STAT_TRNG_OK, .LS_STAT_OWNER_KEYS],
  [.LS_STAT_KEK, .LS_STAT_VKEYS, .LS_ARB_VALUE, .LS_ARB_SPENT, .LS_SVN_SVN],
  [.LS_DBG_STAT_JTAG_LEVEL, .LS_DBG_STAT_PCIE_LEVEL, .LS_DBG_STAT_USED, .LS_DBG_STAT_FAILS, .LS_DBG_STAT_WAIT],
  [.LS_ERR_CODE, .LS_ERR_SOURCE, .LS_ERR_VALID, .LS_VER_CNT_COUNT, .EVT_CTL_INFO_OFF],
  [.EVT_NEXT_SEQ, .EVT_ACK_SEQ, .EVT_LOST_CNT_COUNT, .EVT_INFO_CNT_COUNT, .MGMT_HEALTH_STAGE],
  [.MGMT_HEALTH_ZERO, .HELM_CORE_CTL_CMD, .HELM_CORE_STAT_STATE, .HELM_CORE_STAT_WFI, .HELM_CORE_STAT_PERMIT_TO],
  [.HELM_CORE_STAT_WDT_RESET, .HELM_CORE_STAT_LEVEL, .HELM_WDT_CTL_EN, .HELM_WDT_CTL_FREEZE_MON, .HELM_WDT_CTL_STAGE],
  [.HELM_WDT_LOAD_US, .HELM_WDT_CNT_US, .HELM_WDT_KICK_KEY, .HELM_WDT_UNLOCK_KEY, .HELM_DBG_CTL_EBRK],
  [.HELM_DBG_CTL_STEP_LRSC, .HELM_DBG_CTL_GROUP, .HELM_DBG_STAT_IN_MON, .HELM_DBG_STAT_CAUSE, .HELM_DBG_STAT_UNLOCK_ABORT],
  [.HELM_DBG_CMD_CMD, .HELM_DBG_ACC_REG, .HELM_DBG_ACC_OP, .HELM_DBG_ACC_ERR, .HELM_DBG_ACC_LO_DATA],
  [.HELM_DBG_ACC_HI_DATA, .HELM_MBX_REQ_LO_ADDR, .HELM_MBX_REQ_HI_ADDR, .HELM_MBX_RSP_LO_ADDR, .HELM_MBX_RSP_HI_ADDR],
  [.HELM_MBX_LEN_REQ, .HELM_MBX_LEN_LIMIT, .HELM_MBX_CTL_GO, .HELM_MBX_CTL_BUSY, .HELM_MBX_CTL_STATUS],
  [.HELM_MBX_CTL_BYTES, .HELM_BOOT_LO_VEC, .HELM_BOOT_HI_VEC, .HELM_BOOT_AUTO_MASK, .HELM_PATCH_ADDR_EN],
  [.HELM_PATCH_ADDR_OFF, .HELM_PATCH_DATA_WORD, .HELM_IC_SRC_PRIO, .HELM_IC_SRC_TARGETS, .HELM_IC_SRC_LEVEL],
  [.HELM_IC_PEND_BITS, .HELM_IC_SET_SRC, .HELM_IC_THR_THR, .HELM_IC_CLAIM_SRC, .RCW_BASE_LO_ADDR],
  [.RCW_BASE_HI_ADDR, .RCW_SIZE_MIB, .RCW_CTL_ATTR, .RCW_CTL_EN, .RCW_CTL_BUSY],
  [.CFG_STATUS_BUSY, .CFG_STATUS_FRAMES, .CFG_ERR_CODE, .CFG_ERR_SECTOR, .CFG_ERR_VALID],
  [.CFG_ERR_FAR_FAR, .SCRUB_CTL_PERIOD, .SCRUB_CTL_UNC_ACT, .SCRUB_STAT_SECTOR, .SCRUB_STAT_ACTIVE],
  [.SCRUB_STAT_DONE, .SCRUB_COR_CNT_COUNT, .SCRUB_UNC_CNT_COUNT, .SEC_CTL_RESET, .SEC_CTL_MIGRATE_EN],
  [.SEC_CTL_CMD, .SEC_STATUS_STATE, .SEC_STATUS_PERMIT_WAIT, .SEC_STATUS_ISOLATED, .SEC_STATUS_PENDING_REMAP],
  [.SEC_STATUS_RESET_HELD, .SEC_COLMAP_ACTIVE, .SEC_COLMAP_FUSED, .SEC_COLMAP_FIELD, .SEC_COLMAP_DEFECTS],
  [.SEC_SPAN_CONT, .SEC_SPAN_DIR, .SEC_SPAN_SEG, .SEC_SPAN_WINNER, .SEC_SPAN_CNT_COUNT],
  [.MEM_ECC_SBE, .MEM_ECC_DBE, .MEM_ECC_KIND, .MEM_ECC_COL, .MEM_ECC_BLOCK],
  [.MEM_ECC_ADDR, .MEM_SBE_CNT_COUNT, .MEM_DBE_CNT_COUNT, .RKN_STAT_LATE, .RKN_STAT_NEAR],
  [.RKN_STAT_COL, .RKN_STAT_BLOCK, .RKN_LATE_CNT_COUNT, .HARD_MAP_RKN0, .HARD_MAP_RKN1],
  [.HARD_MAP_RKN2, .HARD_MAP_MEM_SPARE_LOW, .FCLK_GSEL_SRC, .FCLK_GSEL_ACTIVE, .FCLK_GSEL_SWITCHING],
  [.FCLK_GSEL_FORCED, .FCLK_GSEL_LOCKED, .FCLK_RSEL_SRC, .FCLK_RSEL_ACTIVE, .FCLK_RSEL_SWITCHING],
  [.FCLK_RSEL_FORCED, .FCLK_RSEL_LOCKED, .FSYN_CTL_LOCKED, .FSYN_CTL_GLIDING, .FSYN_CTL_PERMIT_WAIT],
  [.FSYN_FREQ_FREQ, .FVS_CTL_VSEL, .FVS_CTL_SETTLE, .FVS_STAT_VCUR, .FVS_STAT_BUSY],
  [.FVS_STAT_FAIL, .RC_CTL_EN, .RC_CTL_LOSS_TO, .RC_STAT_STATE, .RC_STAT_RETAINED],
  [.RC_CMD_CMD, .RC_CMD_BUSY, .RC_CMD_BASE_LO_ADDR, .RC_CMD_BASE_HI_ADDR, .RC_CMD_LEN_LEN],
  [.RC_HIT_CNT_COUNT, .RC_MISS_CNT_COUNT, .RC_WB_CNT_COUNT, .RC_SNP_CNT_COUNT, .RC_ECC_CNT_COUNT],
  [.RC_POISON_CNT_COUNT, .HA_STAT_SF_LEVEL, .HA_STAT_RECALL, .HA_BACKINV_CNT_COUNT, .HA_POISON_CNT_COUNT],
  [.HBM_CTL_EN, .HBM_CTL_CMD, .HBM_CTL_TALARM, .HBM_CTL_PD_IDLE, .HBM_STAT_STATE],
  [.HBM_STAT_CONTENT, .HBM_STAT_RATE, .HBM_STAT_TEMP, .HBM_STAT_HOT, .HBM_STAT_TALARM_HIT],
  [.HBM_ARB_QFROM, .HBM_ARB_QUOTA, .HBM_ARB_WINDOW, .HBM_ARB_WAIT, .HBM_REF_MODE],
  [.HBM_REF_POSTPONE, .HBM_RH_K, .HBM_RH_RFM_REQ, .HBM_TRAIN_RATE, .HBM_TRAIN_PERIOD],
  [.HBM_TRAIN_DTEMP, .HBM_SCRUB_HOURS, .HBM_SCRUB_DONE, .HBM_HASH_MASK, .HBM_QOS_TARGET_TARGET],
  [.HBM_ERR_CODE, .HBM_ERR_CH, .HBM_ERR_PC, .HBM_ERR_SID, .HBM_ERR_VALID],
  [.HBM_ERR_ADDR_LO_ADDR, .HBM_ERR_ADDR_HI_ADDR, .HBM_CH_STAT_STATE, .HBM_CH_STAT_LREP_LEFT, .HBM_CH_COR_CNT_COUNT],
  [.HBM_CH_UNC_CNT_COUNT, .HBM_CH_PAR_CNT_COUNT, .HBM_CH_RFM_CNT_COUNT, .HBM_CH_NBR_CNT_COUNT, .HBM_CH_ACT_CNT_COUNT],
  [.SEAL_CTL_RATE, .SEAL_STAT_RANGE, .SEAL_STAT_KIND, .SEAL_STAT_PERMIT_WAIT, .SEAL_STAT_QUEUE],
  [.SEAL_STAT_DEFKEY, .SEAL_KEY_SLOT, .SEAL_KEY_OP, .SEAL_KEY_SESSION, .SEAL_KEY_BUSY],
  [.SEAL_KEY_FAIL, .SEAL_INTEG_MIB, .SEAL_ERR_CODE, .SEAL_ERR_RANGE, .SEAL_ERR_LEVEL],
  [.SEAL_ERR_VALID, .SEAL_ERR_ADDR_LO_ADDR, .SEAL_ERR_ADDR_HI_ADDR, .SEAL_MAC_CNT_COUNT, .SEAL_NODE_CNT_COUNT],
  [.SEAL_LOST_CNT_COUNT, .SEAL_DENY_CNT_COUNT, .SEAL_OVF_CNT_COUNT, .SEAL_CC_MISS_CNT_COUNT, .SEAL_BASE_MIB],
  [.SEAL_SIZE_MIB, .SEAL_MBASE_MIB, .SEAL_RCTL_MODE, .SEAL_RCTL_CLAIM, .SEAL_RCTL_CUR],
  [.SEAL_RCTL_OWNER, .SEAL_RCTL_CMD, .SEAL_RSTAT_STATE, .SEAL_RSTAT_SWSTOP, .SEAL_RSTAT_FREEZE],
  [.SEAL_RSTAT_KEYS, .SEAL_POS_POS, .SEAL_GRANT_ENG_MASK, .SEAL_GRANT_OTH_FABRIC, .SEAL_GRANT_OTH_HELM],
  [.SEAL_HWM_LO_HWM, .SEAL_HWM_HI_HWM, .ENG_CTL_CMD, .ENG_CTL_LATE_POLICY, .ENG_CTL_TMR_FREEZE],
  [.ENG_STATUS_STATE, .ENG_STATUS_IN_HANDLER, .ENG_STATUS_FAIL, .ENG_STATUS_TLATE, .ENG_STATUS_TMR_OVR],
  [.ENG_STATUS_LDEPTH, .ENG_STATUS_CDEPTH, .ENG_STATUS_END_CODE, .ENG_FAULT_CODE, .ENG_FAULT_DETAIL],
  [.ENG_FAULT_PC, .ENG_FAULT_VALID, .ENG_PC_START, .ENG_PC_CUR, .ENG_OUT_DEST],
  [.ENG_AFMT_WX, .ENG_AFMT_WY, .ENG_AFMT_WZ, .ENG_AFMT_SCR, .ENG_VFMT_AOFF],
  [.ENG_VFMT_COFF, .ENG_PMASK_MASK, .ENG_CMASK_MASK, .ENG_LFSR_LO_SEED, .ENG_LFSR_HI_SEED],
  [.ENG_TTRIG_NS_NS, .ENG_TTRIG_SL_SEC, .ENG_TTRIG_SH_SEC, .ENG_TMR_PERIOD_PERIOD, .ENG_TMR_VEC_VEC],
  [.ENG_STRM_ADDR_LO_ADDR, .ENG_STRM_ADDR_HI_ADDR, .ENG_STRM_LEN_LEN, .ENG_STRM_CTL_RATE, .ENG_STRM_CTL_FILL],
  [.ENG_STRM_CTL_AUTO, .ENG_STRM_CTL_ENDED, .ENG_STRM_CTL_LEVEL, .ENG_STRM_POS_POS, .ENG_GEN_B_VALUE],
  [.ENG_GEN_E_VALUE, .ENG_GEN_S_VALUE, .ENG_GEN_V_VALUE, .ENG_LREL_COUNT, .ENG_LCNT_COUNT],
  [.ENG_STEPS_LO_COUNT, .ENG_STEPS_HI_COUNT, .ENG_STALL_COUNT, .ENG_PERMIT_HELD, .ENG_PERMIT_WAIT],
  [.FC_CTL_CMD, .FC_CTL_FORMAT, .FC_CTL_OVF_POLICY, .FC_CTL_BM_EN, .FC_CTL_BM_UNIT],
  [.FC_CTL_TALIGN, .FC_CTL_IDLE, .FC_STATUS_CQ_LEVEL, .FC_STATUS_FIFO_LEVEL, .FC_STATUS_OVF],
  [.FC_STATUS_RING_ERR, .FC_STATUS_LAUNCH_LATE, .FC_STATUS_BM_SAT, .FC_STATUS_BM_BUSY, .FC_STATUS_LANE_CFG],
  [.FC_LANES_COUNT, .FC_LANES_LANE0, .FC_LANES_LANE1, .FC_LANES_LANE2, .FC_LANES_LANE3],
  [.FC_RX_DELAY, .FC_TX_LAUNCH, .FC_RSP_TO_TIMEOUT, .FC_REC_MAX_MAX, .FC_RING_BASE_LO_ADDR],
  [.FC_RING_BASE_HI_ADDR, .FC_RING_SIZE_LOG2, .FC_RING_WR_COUNT, .FC_RING_RD_COUNT, .FC_BM_ROW_SHIFT],
  [.FC_BM_ROW_WIDTH, .FC_BM_COL_SHIFT, .FC_BM_COL_WIDTH, .FC_CMP_LO_COUNT, .FC_CMP_HI_COUNT],
  [.FC_FAIL_CNT_COUNT, .FC_UNCHK_CNT_COUNT, .FC_DROP_CNT_COUNT, .FC_GAP_CNT_COUNT, .FC_RUN_RUN],
  [.FC_SLICE_FAIL_COUNT, .NOC_RTR_PORT_EN, .NOC_RTR_PORT_DRAIN, .NOC_RTR_PORT_DRAINED, .NOC_RTR_PORT_EXISTS],
  [.NOC_RTR_ARB_QFROM, .NOC_RTR_ARB_QUOTA, .NOC_RTR_ARB_WINDOW, .NOC_RTR_ARB_WAIT, .NOC_RTR_ERR_HCOR],
  [.NOC_RTR_ERR_HUNC, .NOC_RTR_ERR_DCOR, .NOC_RTR_ERR_DUNC, .NOC_RTR_ERR_PORT, .NOC_RTR_VC_REQ],
  [.NOC_RTR_VC_PST, .NOC_RTR_VC_SNP, .NOC_RTR_VC_RSP, .NOC_RTR_CORCNT_COUNT, .NOC_RTR_UNCCNT_COUNT],
  [.NOC_RTR_BOUNCE_COUNT, .NOC_DRAIN_TIMEOUT, .NOC_STALL_TIMEOUT, .NOC_NI_ID_ID, .NOC_NI_ID_ASSIGNED],
  [.NOC_NI_CTL_EN, .NOC_NI_CTL_RSP_TO, .NOC_NI_BSEL_INDEX, .NOC_NI_BSEL_OP, .NOC_NI_BSEL_BUSY],
  [.NOC_NI_BDATA_WORD, .NOC_NI_BOUNCE_CNT_COUNT, .NOC_NI_ALT_CNT_COUNT, .NOC_NI_FAIL_CNT_COUNT, .NOC_NI_CRC_CNT_COUNT],
  [.NOC_NI_TO_CNT_COUNT, .NOC_NI_ERR_CODE, .NOC_NI_ERR_DEST, .NOC_NI_ERR_VALID, .GK_CTL_SPINE],
  [.GK_CTL_CMD, .GK_CTL_GROUP, .GK_CTL_LANE, .GK_ROLE_XSECT, .GK_ROLE_COH],
  [.GK_STAT_STATE, .GK_STAT_NOC, .GK_STAT_NOC_DETOUR, .GK_STAT_COH, .GK_STAT_CROSS],
  [.GK_HEALTH_MOFFSET, .GK_HEALTH_MTHR, .GK_HEALTH_CTHR, .GK_ARB_QFROM, .GK_ARB_QUOTA],
  [.GK_ARB_WINDOW, .GK_ARB_WAIT, .GK_XERR_CNT_COUNT, .GK_GRP_STAT_ROLE, .GK_GRP_STAT_LCROSS],
  [.GK_GRP_STAT_SPARE_FOR, .GK_GRP_STAT_PAUSED, .GK_GRP_CRC_CNT_COUNT, .GK_GRP_REPLAY_CNT_COUNT, .GK_LANE_MCNT_COUNT],
  [.CL_BND_CTL_EN, .CL_BND_CTL_SSC, .CL_BND_CTL_CMD, .CL_BND_CTL_MBPS, .CL_BND_TRN_MODE],
  [.CL_BND_TRN_LANES, .CL_BND_STAT_STATE, .CL_BND_STAT_PLL_LOCK, .CL_BND_STAT_GRID, .CL_BND_STAT_REV],
  [.CL_BND_STAT_TRN_ERR, .CL_BND_STAT_PRESENT, .CL_CTL_EN, .CL_CTL_USE, .CL_CTL_TXINV],
  [.CL_CTL_DIV, .CL_CTL_RXMODE, .CL_CTL_CMD, .CL_TIM_TXVERN, .CL_TIM_TXDSK],
  [.CL_TIM_RXSTB, .CL_TIM_RXDSK, .CL_PRBS_GEN, .CL_PRBS_CHK, .CL_SLIP_COUNT],
  [.CL_STAT_LOS, .CL_STAT_LOL, .CL_STAT_LOS_EV, .CL_STAT_LOL_EV, .CL_STAT_RXINV],
  [.CL_STAT_CHK_LOCK, .CL_STAT_REALIGN, .CL_STAT_FPORT_DOWN, .CL_STAT_SLIP_POS, .CL_STAT_OWNED],
  [.CL_LOOP_UI, .CL_LOOP_VALID, .CL_LOOP_BUSY, .CL_LOOP_FAIL, .CL_ERR_CNT_COUNT],
  [.CL_BIT_LO_COUNT, .CL_BIT_HI_COUNT, .TR_CTL_EN, .TR_CTL_MOD, .TR_CTL_PRECODE],
  [.TR_CTL_TXINV, .TR_CTL_RXINV, .TR_CTL_CAP, .TR_CTL_CAP_POINT, .TR_CTL_FREEZE],
  [.TR_CTL_CMD, .TR_RATE_RATE, .TR_FFE_PRE2, .TR_FFE_PRE1, .TR_FFE_POST1],
  [.TR_PRBS_GEN, .TR_PRBS_CHK, .TR_STAT_STATE, .TR_STAT_LOS, .TR_STAT_LOL],
  [.TR_STAT_CHK_LOCK, .TR_STAT_CAP_OVF, .TR_STAT_SNR, .TR_ERR_CNT_COUNT, .TR_BIT_LO_COUNT],
  [.TR_BIT_HI_COUNT, .PG_CFG_BUDGET, .PG_CFG_RAMP, .PG_CFG_TIMEOUT, .PG_STAT_HELD],
  [.PG_STAT_QUEUE, .PG_STAT_HEAD_UNITS, .PG_STAT_HEAD_OP, .PG_TO_CNT_COUNT, .PG_GRANT_CNT_COUNT],
  [.PG_ERR_OVERSIZE, .PG_ERR_OP, .PG_ERR_UNITS, .PG_ERR_VALID, .TEL_STAT_TEMP],
  [.TEL_STAT_VCORE, .TEL_STAT_ICORE, .TEL_STAT_TWARN_HIT, .TEL_CTL_TWARN, .TEL_LIFE_PPM],
  [.TEL_HOURS_HOURS, .PEL_CTL_CMD, .PEL_ADDR_LO_ADDR, .PEL_ADDR_HI_ADDR, .PEL_DATA_LO_DATA],
  [.PEL_DATA_HI_DATA, .PEL_STAT_BUSY, .PEL_STAT_STATUS, .PEL_AUTH_CMD, .PEL_AUTH_LEVEL],
  [.PEL_AUTH_DATA_DATA, .PEL_AUTH_STAT_BUSY, .PEL_AUTH_STAT_OK, .PEL_BOOTHALT_MASK, .PEL_RST_CMD]]

/-- The field with a number. -/
def Fld.ofIdx (k : Nat) : Option Fld := Fld.all[k]?

/-- The fields of each register. -/
def Reg.fields : Reg → List Fld
  | .HUB_ID => [.HUB_ID_FAMILY, .HUB_ID_PART, .HUB_ID_STEPPING]
  | .HUB_DIE_STATE => [.HUB_DIE_STATE_POS, .HUB_DIE_STATE_KIND, .HUB_DIE_STATE_PRESENT, .HUB_DIE_STATE_STATE, .HUB_DIE_STATE_HBM_OK, .HUB_DIE_STATE_SPOKE_OK, .HUB_DIE_STATE_RING_CW_OK, .HUB_DIE_STATE_RING_CCW_OK, .HUB_DIE_STATE_CFG_LOADED, .HUB_DIE_STATE_LOST]
  | .HUB_PERSONALITY => [.HUB_PERSONALITY_MODE, .HUB_PERSONALITY_DIES_IN_SERVICE, .HUB_PERSONALITY_STACKS_OK]
  | .FIX_CFG => [.FIX_CFG_QUORUM]
  | .FIX_STAT => [.FIX_STAT_FLAG, .FIX_STAT_SET, .FIX_STAT_CLR, .FIX_STAT_COUNT, .FIX_STAT_GEN]
  | .HBM_ILV => [.HBM_ILV_MODE]
  | .CLK_SRC => [.CLK_SRC_SEL, .CLK_SRC_ACTIVE, .CLK_SRC_REF_SEL, .CLK_SRC_DEAD_RECK, .CLK_SRC_AUTO_RETURN, .CLK_SRC_GLIDING, .CLK_SRC_CMD]
  | .CLK_MON => [.CLK_MON_FAIL_EV, .CLK_MON_REF_OK, .CLK_MON_OSC_ERR]
  | .CLK_SSC => [.CLK_SSC_DEPTH, .CLK_SSC_FREQ]
  | .CLKOUT_CTL => [.CLKOUT_CTL_SRC, .CLKOUT_CTL_SPINE, .CLKOUT_CTL_SSC]
  | .SPN_SYN => [.SPN_SYN_FREQ, .SPN_SYN_GLIDING]
  | .PWR_DIE_CTL => [.PWR_DIE_CTL_CMD]
  | .PWR_DIE_STAT => [.PWR_DIE_STAT_PSTATE, .PWR_DIE_STAT_BUSY, .PWR_DIE_STAT_REFUSED, .PWR_DIE_STAT_DOMAINS]
  | .PWR_HUB_STAT => [.PWR_HUB_STAT_DOMAINS]
  | .RST_UNLOCK => [.RST_UNLOCK_KEY]
  | .RST_CMD => [.RST_CMD_CMD]
  | .RST_CAUSE => [.RST_CAUSE_POR, .RST_CAUSE_PIN, .RST_CAUSE_SW_PKG, .RST_CAUSE_THERMAL, .RST_CAUSE_BIN_FATAL, .RST_CAUSE_SW_HUB, .RST_CAUSE_BIN_LOCKSTEP, .RST_CAUSE_BIN_WDT]
  | .RST_DIE_CTL => [.RST_DIE_CTL_CMD, .RST_DIE_CTL_HOLD, .RST_DIE_CTL_AUTO_RESTART]
  | .RST_DIE_STAT => [.RST_DIE_STAT_CAUSE, .RST_DIE_STAT_START_ERR, .RST_DIE_STAT_RESETS, .RST_DIE_STAT_HELD, .RST_DIE_STAT_REFUSED]
  | .BOOT_STAT => [.BOOT_STAT_STAGE, .BOOT_STAT_SLOT, .BOOT_STAT_FALLBACK, .BOOT_STAT_DIR_COPY, .BOOT_STAT_CFG, .BOOT_STAT_CFG_STATUS]
  | .BOOT_CFG => [.BOOT_CFG_NEXT_SLOT, .BOOT_CFG_NO_AUTOLOAD]
  | .LS_RCV_CTL => [.LS_RCV_CTL_CMD, .LS_RCV_CTL_SLOT, .LS_RCV_CTL_LEN]
  | .LS_RCV_DATA => [.LS_RCV_DATA_DATA]
  | .LS_RCV_STAT => [.LS_RCV_STAT_STATE, .LS_RCV_STAT_ERR, .LS_RCV_STAT_BYTES]
  | .HIF_CFG_FN => [.HIF_CFG_FN_MASK]
  | .HIF_QP_ASSIGN => [.HIF_QP_ASSIGN_FN, .HIF_QP_ASSIGN_VALID]
  | .HIF_FN_CTL => [.HIF_FN_CTL_RO_DATA, .HIF_FN_CTL_FLR_ENG]
  | .HIF_FN_STAT => [.HIF_FN_STAT_FLR_BUSY, .HIF_FN_STAT_FLR_CNT, .HIF_FN_STAT_BME]
  | .HIF_BAR4 => [.HIF_BAR4_GIB]
  | .HIF_FN_FAB => [.HIF_FN_FAB_DIES]
  | .HIF_ENG_ASSIGN => [.HIF_ENG_ASSIGN_MASK]
  | .HIF_QP_SQ_LO => [.HIF_QP_SQ_LO_ADDR]
  | .HIF_QP_SQ_HI => [.HIF_QP_SQ_HI_ADDR]
  | .HIF_QP_CQ_LO => [.HIF_QP_CQ_LO_ADDR]
  | .HIF_QP_CQ_HI => [.HIF_QP_CQ_HI_ADDR]
  | .HIF_QP_CTL => [.HIF_QP_CTL_SQ_LOG2, .HIF_QP_CTL_CQ_LOG2, .HIF_QP_CTL_EN, .HIF_QP_CTL_PRIO, .HIF_QP_CTL_IRQ_ALL]
  | .HIF_QP_STAT => [.HIF_QP_STAT_STATE, .HIF_QP_STAT_ERR, .HIF_QP_STAT_PHASE, .HIF_QP_STAT_INFLIGHT]
  | .HIF_QP_HEAD => [.HIF_QP_HEAD_SQ_HEAD, .HIF_QP_HEAD_CQ_TAIL]
  | .HIF_QP_IRQ => [.HIF_QP_IRQ_VEC, .HIF_QP_IRQ_HOLDOFF]
  | .HIF_QP_DONE_CNT => [.HIF_QP_DONE_CNT_COUNT]
  | .SX_CTL => [.SX_CTL_MODE, .SX_CTL_OC_PORT, .SX_CTL_DELAY, .SX_CTL_TRANSPORT, .SX_CTL_SERVO, .SX_CTL_SYNTONISE, .SX_CTL_DOMAIN]
  | .SX_STAT => [.SX_STAT_VALID, .SX_STAT_HOLDOVER, .SX_STAT_DEAD_RECK, .SX_STAT_SPINE_OK, .SX_STAT_STEP_REF, .SX_STAT_REF_CODE, .SX_STAT_STEPS]
  | .SX_TIME_FRAC => [.SX_TIME_FRAC_FRAC]
  | .SX_TIME_NS => [.SX_TIME_NS_NS]
  | .SX_TIME_SL => [.SX_TIME_SL_SEC]
  | .SX_TIME_SH => [.SX_TIME_SH_SEC]
  | .SX_ADJ => [.SX_ADJ_RATE]
  | .SX_STEP_NS_LO => [.SX_STEP_NS_LO_NS]
  | .SX_STEP_NS_HI => [.SX_STEP_NS_HI_NS]
  | .SX_STEP_FRAC => [.SX_STEP_FRAC_FRAC]
  | .SX_STEP_CMD => [.SX_STEP_CMD_CMD, .SX_STEP_CMD_FORCE, .SX_STEP_CMD_BUSY]
  | .SX_STEP_THR => [.SX_STEP_THR_THR]
  | .SX_PPS => [.SX_PPS_WIDTH]
  | .SX_MEAS_OFS_LO => [.SX_MEAS_OFS_LO_VALUE]
  | .SX_MEAS_OFS_HI => [.SX_MEAS_OFS_HI_VALUE]
  | .SX_MEAS_MPD_LO => [.SX_MEAS_MPD_LO_VALUE]
  | .SX_MEAS_MPD_HI => [.SX_MEAS_MPD_HI_VALUE]
  | .SX_MEAS_SEQ => [.SX_MEAS_SEQ_SEQ, .SX_MEAS_SEQ_NEW]
  | .SX_PORT_CFG => [.SX_PORT_CFG_EN, .SX_PORT_CFG_TWO_STEP, .SX_PORT_CFG_SPEED]
  | .SX_PORT_STAT => [.SX_PORT_STAT_PSTATE, .SX_PORT_STAT_LINK, .SX_PORT_STAT_TXQ_LEVEL, .SX_PORT_STAT_TXQ_OVF, .SX_PORT_STAT_ORPHAN]
  | .SX_PORT_EASYM => [.SX_PORT_EASYM_ASYM]
  | .SX_PORT_IASYM => [.SX_PORT_IASYM_ASYM]
  | .SX_PORT_PDELAY => [.SX_PORT_PDELAY_DELAY]
  | .SX_TXQ_ID => [.SX_TXQ_ID_SEQ, .SX_TXQ_ID_TYPE, .SX_TXQ_ID_VALID]
  | .SX_TXQ_FRAC => [.SX_TXQ_FRAC_FRAC]
  | .SX_TXQ_NS => [.SX_TXQ_NS_NS]
  | .SX_TXQ_SL => [.SX_TXQ_SL_SEC]
  | .SX_TXQ_SH => [.SX_TXQ_SH_SEC]
  | .SX_TXQ_CTL => [.SX_TXQ_CTL_POP]
  | .SX_TXQ_LOST_CNT => [.SX_TXQ_LOST_CNT_COUNT]
  | .LS_STAT => [.LS_STAT_LIFECYCLE, .LS_STAT_READY, .LS_STAT_TRNG_OK, .LS_STAT_OWNER_KEYS, .LS_STAT_KEK, .LS_STAT_VKEYS]
  | .LS_ARB => [.LS_ARB_VALUE, .LS_ARB_SPENT]
  | .LS_SVN => [.LS_SVN_SVN]
  | .LS_DBG_STAT => [.LS_DBG_STAT_JTAG_LEVEL, .LS_DBG_STAT_PCIE_LEVEL, .LS_DBG_STAT_USED, .LS_DBG_STAT_FAILS, .LS_DBG_STAT_WAIT]
  | .LS_ERR => [.LS_ERR_CODE, .LS_ERR_SOURCE, .LS_ERR_VALID]
  | .LS_VER_CNT => [.LS_VER_CNT_COUNT]
  | .EVT_CTL => [.EVT_CTL_INFO_OFF]
  | .EVT_NEXT => [.EVT_NEXT_SEQ]
  | .EVT_ACK => [.EVT_ACK_SEQ]
  | .EVT_LOST_CNT => [.EVT_LOST_CNT_COUNT]
  | .EVT_INFO_CNT => [.EVT_INFO_CNT_COUNT]
  | .MGMT_HEALTH => [.MGMT_HEALTH_STAGE, .MGMT_HEALTH_ZERO]
  | .HELM_CORE_CTL => [.HELM_CORE_CTL_CMD]
  | .HELM_CORE_STAT => [.HELM_CORE_STAT_STATE, .HELM_CORE_STAT_WFI, .HELM_CORE_STAT_PERMIT_TO, .HELM_CORE_STAT_WDT_RESET, .HELM_CORE_STAT_LEVEL]
  | .HELM_WDT_CTL => [.HELM_WDT_CTL_EN, .HELM_WDT_CTL_FREEZE_MON, .HELM_WDT_CTL_STAGE]
  | .HELM_WDT_LOAD => [.HELM_WDT_LOAD_US]
  | .HELM_WDT_CNT => [.HELM_WDT_CNT_US]
  | .HELM_WDT_KICK => [.HELM_WDT_KICK_KEY]
  | .HELM_WDT_UNLOCK => [.HELM_WDT_UNLOCK_KEY]
  | .HELM_DBG_CTL => [.HELM_DBG_CTL_EBRK, .HELM_DBG_CTL_STEP_LRSC, .HELM_DBG_CTL_GROUP]
  | .HELM_DBG_STAT => [.HELM_DBG_STAT_IN_MON, .HELM_DBG_STAT_CAUSE, .HELM_DBG_STAT_UNLOCK_ABORT]
  | .HELM_DBG_CMD => [.HELM_DBG_CMD_CMD]
  | .HELM_DBG_ACC => [.HELM_DBG_ACC_REG, .HELM_DBG_ACC_OP, .HELM_DBG_ACC_ERR]
  | .HELM_DBG_ACC_LO => [.HELM_DBG_ACC_LO_DATA]
  | .HELM_DBG_ACC_HI => [.HELM_DBG_ACC_HI_DATA]
  | .HELM_MBX_REQ_LO => [.HELM_MBX_REQ_LO_ADDR]
  | .HELM_MBX_REQ_HI => [.HELM_MBX_REQ_HI_ADDR]
  | .HELM_MBX_RSP_LO => [.HELM_MBX_RSP_LO_ADDR]
  | .HELM_MBX_RSP_HI => [.HELM_MBX_RSP_HI_ADDR]
  | .HELM_MBX_LEN => [.HELM_MBX_LEN_REQ, .HELM_MBX_LEN_LIMIT]
  | .HELM_MBX_CTL => [.HELM_MBX_CTL_GO, .HELM_MBX_CTL_BUSY, .HELM_MBX_CTL_STATUS, .HELM_MBX_CTL_BYTES]
  | .HELM_BOOT_LO => [.HELM_BOOT_LO_VEC]
  | .HELM_BOOT_HI => [.HELM_BOOT_HI_VEC]
  | .HELM_BOOT_AUTO => [.HELM_BOOT_AUTO_MASK]
  | .HELM_PATCH_ADDR => [.HELM_PATCH_ADDR_EN, .HELM_PATCH_ADDR_OFF]
  | .HELM_PATCH_DATA => [.HELM_PATCH_DATA_WORD]
  | .HELM_IC_SRC => [.HELM_IC_SRC_PRIO, .HELM_IC_SRC_TARGETS, .HELM_IC_SRC_LEVEL]
  | .HELM_IC_PEND => [.HELM_IC_PEND_BITS]
  | .HELM_IC_SET => [.HELM_IC_SET_SRC]
  | .HELM_IC_THR => [.HELM_IC_THR_THR]
  | .HELM_IC_CLAIM => [.HELM_IC_CLAIM_SRC]
  | .RCW_BASE_LO => [.RCW_BASE_LO_ADDR]
  | .RCW_BASE_HI => [.RCW_BASE_HI_ADDR]
  | .RCW_SIZE => [.RCW_SIZE_MIB]
  | .RCW_CTL => [.RCW_CTL_ATTR, .RCW_CTL_EN, .RCW_CTL_BUSY]
  | .CFG_STATUS => [.CFG_STATUS_BUSY, .CFG_STATUS_FRAMES]
  | .CFG_ERR => [.CFG_ERR_CODE, .CFG_ERR_SECTOR, .CFG_ERR_VALID]
  | .CFG_ERR_FAR => [.CFG_ERR_FAR_FAR]
  | .SCRUB_CTL => [.SCRUB_CTL_PERIOD, .SCRUB_CTL_UNC_ACT]
  | .SCRUB_STAT => [.SCRUB_STAT_SECTOR, .SCRUB_STAT_ACTIVE, .SCRUB_STAT_DONE]
  | .SCRUB_COR_CNT => [.SCRUB_COR_CNT_COUNT]
  | .SCRUB_UNC_CNT => [.SCRUB_UNC_CNT_COUNT]
  | .SEC_CTL => [.SEC_CTL_RESET, .SEC_CTL_MIGRATE_EN, .SEC_CTL_CMD]
  | .SEC_STATUS => [.SEC_STATUS_STATE, .SEC_STATUS_PERMIT_WAIT, .SEC_STATUS_ISOLATED, .SEC_STATUS_PENDING_REMAP, .SEC_STATUS_RESET_HELD]
  | .SEC_COLMAP => [.SEC_COLMAP_ACTIVE, .SEC_COLMAP_FUSED, .SEC_COLMAP_FIELD, .SEC_COLMAP_DEFECTS]
  | .SEC_SPAN => [.SEC_SPAN_CONT, .SEC_SPAN_DIR, .SEC_SPAN_SEG, .SEC_SPAN_WINNER]
  | .SEC_SPAN_CNT => [.SEC_SPAN_CNT_COUNT]
  | .MEM_ECC => [.MEM_ECC_SBE, .MEM_ECC_DBE, .MEM_ECC_KIND, .MEM_ECC_COL, .MEM_ECC_BLOCK, .MEM_ECC_ADDR]
  | .MEM_SBE_CNT => [.MEM_SBE_CNT_COUNT]
  | .MEM_DBE_CNT => [.MEM_DBE_CNT_COUNT]
  | .RKN_STAT => [.RKN_STAT_LATE, .RKN_STAT_NEAR, .RKN_STAT_COL, .RKN_STAT_BLOCK]
  | .RKN_LATE_CNT => [.RKN_LATE_CNT_COUNT]
  | .HARD_MAP => [.HARD_MAP_RKN0, .HARD_MAP_RKN1, .HARD_MAP_RKN2, .HARD_MAP_MEM_SPARE_LOW]
  | .FCLK_GSEL => [.FCLK_GSEL_SRC, .FCLK_GSEL_ACTIVE, .FCLK_GSEL_SWITCHING, .FCLK_GSEL_FORCED, .FCLK_GSEL_LOCKED]
  | .FCLK_RSEL => [.FCLK_RSEL_SRC, .FCLK_RSEL_ACTIVE, .FCLK_RSEL_SWITCHING, .FCLK_RSEL_FORCED, .FCLK_RSEL_LOCKED]
  | .FSYN_CTL => [.FSYN_CTL_LOCKED, .FSYN_CTL_GLIDING, .FSYN_CTL_PERMIT_WAIT]
  | .FSYN_FREQ => [.FSYN_FREQ_FREQ]
  | .FVS_CTL => [.FVS_CTL_VSEL, .FVS_CTL_SETTLE]
  | .FVS_STAT => [.FVS_STAT_VCUR, .FVS_STAT_BUSY, .FVS_STAT_FAIL]
  | .RC_CTL => [.RC_CTL_EN, .RC_CTL_LOSS_TO]
  | .RC_STAT => [.RC_STAT_STATE, .RC_STAT_RETAINED]
  | .RC_CMD => [.RC_CMD_CMD, .RC_CMD_BUSY]
  | .RC_CMD_BASE_LO => [.RC_CMD_BASE_LO_ADDR]
  | .RC_CMD_BASE_HI => [.RC_CMD_BASE_HI_ADDR]
  | .RC_CMD_LEN => [.RC_CMD_LEN_LEN]
  | .RC_HIT_CNT => [.RC_HIT_CNT_COUNT]
  | .RC_MISS_CNT => [.RC_MISS_CNT_COUNT]
  | .RC_WB_CNT => [.RC_WB_CNT_COUNT]
  | .RC_SNP_CNT => [.RC_SNP_CNT_COUNT]
  | .RC_ECC_CNT => [.RC_ECC_CNT_COUNT]
  | .RC_POISON_CNT => [.RC_POISON_CNT_COUNT]
  | .HA_STAT => [.HA_STAT_SF_LEVEL, .HA_STAT_RECALL]
  | .HA_BACKINV_CNT => [.HA_BACKINV_CNT_COUNT]
  | .HA_POISON_CNT => [.HA_POISON_CNT_COUNT]
  | .HBM_CTL => [.HBM_CTL_EN, .HBM_CTL_CMD, .HBM_CTL_TALARM, .HBM_CTL_PD_IDLE]
  | .HBM_STAT => [.HBM_STAT_STATE, .HBM_STAT_CONTENT, .HBM_STAT_RATE, .HBM_STAT_TEMP, .HBM_STAT_HOT, .HBM_STAT_TALARM_HIT]
  | .HBM_ARB => [.HBM_ARB_QFROM, .HBM_ARB_QUOTA, .HBM_ARB_WINDOW, .HBM_ARB_WAIT]
  | .HBM_REF => [.HBM_REF_MODE, .HBM_REF_POSTPONE]
  | .HBM_RH => [.HBM_RH_K, .HBM_RH_RFM_REQ]
  | .HBM_TRAIN => [.HBM_TRAIN_RATE, .HBM_TRAIN_PERIOD, .HBM_TRAIN_DTEMP]
  | .HBM_SCRUB => [.HBM_SCRUB_HOURS, .HBM_SCRUB_DONE]
  | .HBM_HASH => [.HBM_HASH_MASK]
  | .HBM_QOS_TARGET => [.HBM_QOS_TARGET_TARGET]
  | .HBM_ERR => [.HBM_ERR_CODE, .HBM_ERR_CH, .HBM_ERR_PC, .HBM_ERR_SID, .HBM_ERR_VALID]
  | .HBM_ERR_ADDR_LO => [.HBM_ERR_ADDR_LO_ADDR]
  | .HBM_ERR_ADDR_HI => [.HBM_ERR_ADDR_HI_ADDR]
  | .HBM_CH_STAT => [.HBM_CH_STAT_STATE, .HBM_CH_STAT_LREP_LEFT]
  | .HBM_CH_COR_CNT => [.HBM_CH_COR_CNT_COUNT]
  | .HBM_CH_UNC_CNT => [.HBM_CH_UNC_CNT_COUNT]
  | .HBM_CH_PAR_CNT => [.HBM_CH_PAR_CNT_COUNT]
  | .HBM_CH_RFM_CNT => [.HBM_CH_RFM_CNT_COUNT]
  | .HBM_CH_NBR_CNT => [.HBM_CH_NBR_CNT_COUNT]
  | .HBM_CH_ACT_CNT => [.HBM_CH_ACT_CNT_COUNT]
  | .SEAL_CTL => [.SEAL_CTL_RATE]
  | .SEAL_STAT => [.SEAL_STAT_RANGE, .SEAL_STAT_KIND, .SEAL_STAT_PERMIT_WAIT, .SEAL_STAT_QUEUE, .SEAL_STAT_DEFKEY]
  | .SEAL_KEY => [.SEAL_KEY_SLOT, .SEAL_KEY_OP, .SEAL_KEY_SESSION, .SEAL_KEY_BUSY, .SEAL_KEY_FAIL]
  | .SEAL_INTEG => [.SEAL_INTEG_MIB]
  | .SEAL_ERR => [.SEAL_ERR_CODE, .SEAL_ERR_RANGE, .SEAL_ERR_LEVEL, .SEAL_ERR_VALID]
  | .SEAL_ERR_ADDR_LO => [.SEAL_ERR_ADDR_LO_ADDR]
  | .SEAL_ERR_ADDR_HI => [.SEAL_ERR_ADDR_HI_ADDR]
  | .SEAL_MAC_CNT => [.SEAL_MAC_CNT_COUNT]
  | .SEAL_NODE_CNT => [.SEAL_NODE_CNT_COUNT]
  | .SEAL_LOST_CNT => [.SEAL_LOST_CNT_COUNT]
  | .SEAL_DENY_CNT => [.SEAL_DENY_CNT_COUNT]
  | .SEAL_OVF_CNT => [.SEAL_OVF_CNT_COUNT]
  | .SEAL_CC_MISS_CNT => [.SEAL_CC_MISS_CNT_COUNT]
  | .SEAL_BASE => [.SEAL_BASE_MIB]
  | .SEAL_SIZE => [.SEAL_SIZE_MIB]
  | .SEAL_MBASE => [.SEAL_MBASE_MIB]
  | .SEAL_RCTL => [.SEAL_RCTL_MODE, .SEAL_RCTL_CLAIM, .SEAL_RCTL_CUR, .SEAL_RCTL_OWNER, .SEAL_RCTL_CMD]
  | .SEAL_RSTAT => [.SEAL_RSTAT_STATE, .SEAL_RSTAT_SWSTOP, .SEAL_RSTAT_FREEZE, .SEAL_RSTAT_KEYS]
  | .SEAL_POS => [.SEAL_POS_POS]
  | .SEAL_GRANT_ENG => [.SEAL_GRANT_ENG_MASK]
  | .SEAL_GRANT_OTH => [.SEAL_GRANT_OTH_FABRIC, .SEAL_GRANT_OTH_HELM]
  | .SEAL_HWM_LO => [.SEAL_HWM_LO_HWM]
  | .SEAL_HWM_HI => [.SEAL_HWM_HI_HWM]
  | .ENG_CTL => [.ENG_CTL_CMD, .ENG_CTL_LATE_POLICY, .ENG_CTL_TMR_FREEZE]
  | .ENG_STATUS => [.ENG_STATUS_STATE, .ENG_STATUS_IN_HANDLER, .ENG_STATUS_FAIL, .ENG_STATUS_TLATE, .ENG_STATUS_TMR_OVR, .ENG_STATUS_LDEPTH, .ENG_STATUS_CDEPTH, .ENG_STATUS_END_CODE]
  | .ENG_FAULT => [.ENG_FAULT_CODE, .ENG_FAULT_DETAIL, .ENG_FAULT_PC, .ENG_FAULT_VALID]
  | .ENG_PC => [.ENG_PC_START, .ENG_PC_CUR]
  | .ENG_OUT => [.ENG_OUT_DEST]
  | .ENG_AFMT => [.ENG_AFMT_WX, .ENG_AFMT_WY, .ENG_AFMT_WZ, .ENG_AFMT_SCR]
  | .ENG_VFMT => [.ENG_VFMT_AOFF, .ENG_VFMT_COFF]
  | .ENG_PMASK => [.ENG_PMASK_MASK]
  | .ENG_CMASK => [.ENG_CMASK_MASK]
  | .ENG_LFSR_LO => [.ENG_LFSR_LO_SEED]
  | .ENG_LFSR_HI => [.ENG_LFSR_HI_SEED]
  | .ENG_TTRIG_NS => [.ENG_TTRIG_NS_NS]
  | .ENG_TTRIG_SL => [.ENG_TTRIG_SL_SEC]
  | .ENG_TTRIG_SH => [.ENG_TTRIG_SH_SEC]
  | .ENG_TMR_PERIOD => [.ENG_TMR_PERIOD_PERIOD]
  | .ENG_TMR_VEC => [.ENG_TMR_VEC_VEC]
  | .ENG_STRM_ADDR_LO => [.ENG_STRM_ADDR_LO_ADDR]
  | .ENG_STRM_ADDR_HI => [.ENG_STRM_ADDR_HI_ADDR]
  | .ENG_STRM_LEN => [.ENG_STRM_LEN_LEN]
  | .ENG_STRM_CTL => [.ENG_STRM_CTL_RATE, .ENG_STRM_CTL_FILL, .ENG_STRM_CTL_AUTO, .ENG_STRM_CTL_ENDED, .ENG_STRM_CTL_LEVEL]
  | .ENG_STRM_POS => [.ENG_STRM_POS_POS]
  | .ENG_GEN_B => [.ENG_GEN_B_VALUE]
  | .ENG_GEN_E => [.ENG_GEN_E_VALUE]
  | .ENG_GEN_S => [.ENG_GEN_S_VALUE]
  | .ENG_GEN_V => [.ENG_GEN_V_VALUE]
  | .ENG_LREL => [.ENG_LREL_COUNT]
  | .ENG_LCNT => [.ENG_LCNT_COUNT]
  | .ENG_STEPS_LO => [.ENG_STEPS_LO_COUNT]
  | .ENG_STEPS_HI => [.ENG_STEPS_HI_COUNT]
  | .ENG_STALL => [.ENG_STALL_COUNT]
  | .ENG_PERMIT => [.ENG_PERMIT_HELD, .ENG_PERMIT_WAIT]
  | .FC_CTL => [.FC_CTL_CMD, .FC_CTL_FORMAT, .FC_CTL_OVF_POLICY, .FC_CTL_BM_EN, .FC_CTL_BM_UNIT, .FC_CTL_TALIGN, .FC_CTL_IDLE]
  | .FC_STATUS => [.FC_STATUS_CQ_LEVEL, .FC_STATUS_FIFO_LEVEL, .FC_STATUS_OVF, .FC_STATUS_RING_ERR, .FC_STATUS_LAUNCH_LATE, .FC_STATUS_BM_SAT, .FC_STATUS_BM_BUSY, .FC_STATUS_LANE_CFG]
  | .FC_LANES => [.FC_LANES_COUNT, .FC_LANES_LANE0, .FC_LANES_LANE1, .FC_LANES_LANE2, .FC_LANES_LANE3]
  | .FC_RX => [.FC_RX_DELAY]
  | .FC_TX => [.FC_TX_LAUNCH]
  | .FC_RSP_TO => [.FC_RSP_TO_TIMEOUT]
  | .FC_REC_MAX => [.FC_REC_MAX_MAX]
  | .FC_RING_BASE_LO => [.FC_RING_BASE_LO_ADDR]
  | .FC_RING_BASE_HI => [.FC_RING_BASE_HI_ADDR]
  | .FC_RING_SIZE => [.FC_RING_SIZE_LOG2]
  | .FC_RING_WR => [.FC_RING_WR_COUNT]
  | .FC_RING_RD => [.FC_RING_RD_COUNT]
  | .FC_BM_ROW => [.FC_BM_ROW_SHIFT, .FC_BM_ROW_WIDTH]
  | .FC_BM_COL => [.FC_BM_COL_SHIFT, .FC_BM_COL_WIDTH]
  | .FC_CMP_LO => [.FC_CMP_LO_COUNT]
  | .FC_CMP_HI => [.FC_CMP_HI_COUNT]
  | .FC_FAIL_CNT => [.FC_FAIL_CNT_COUNT]
  | .FC_UNCHK_CNT => [.FC_UNCHK_CNT_COUNT]
  | .FC_DROP_CNT => [.FC_DROP_CNT_COUNT]
  | .FC_GAP_CNT => [.FC_GAP_CNT_COUNT]
  | .FC_RUN => [.FC_RUN_RUN]
  | .FC_SLICE_FAIL => [.FC_SLICE_FAIL_COUNT]
  | .NOC_RTR_PORT => [.NOC_RTR_PORT_EN, .NOC_RTR_PORT_DRAIN, .NOC_RTR_PORT_DRAINED, .NOC_RTR_PORT_EXISTS]
  | .NOC_RTR_ARB => [.NOC_RTR_ARB_QFROM, .NOC_RTR_ARB_QUOTA, .NOC_RTR_ARB_WINDOW, .NOC_RTR_ARB_WAIT]
  | .NOC_RTR_ERR => [.NOC_RTR_ERR_HCOR, .NOC_RTR_ERR_HUNC, .NOC_RTR_ERR_DCOR, .NOC_RTR_ERR_DUNC, .NOC_RTR_ERR_PORT]
  | .NOC_RTR_VC => [.NOC_RTR_VC_REQ, .NOC_RTR_VC_PST, .NOC_RTR_VC_SNP, .NOC_RTR_VC_RSP]
  | .NOC_RTR_CORCNT => [.NOC_RTR_CORCNT_COUNT]
  | .NOC_RTR_UNCCNT => [.NOC_RTR_UNCCNT_COUNT]
  | .NOC_RTR_BOUNCE => [.NOC_RTR_BOUNCE_COUNT]
  | .NOC_DRAIN => [.NOC_DRAIN_TIMEOUT]
  | .NOC_STALL => [.NOC_STALL_TIMEOUT]
  | .NOC_NI_ID => [.NOC_NI_ID_ID, .NOC_NI_ID_ASSIGNED]
  | .NOC_NI_CTL => [.NOC_NI_CTL_EN, .NOC_NI_CTL_RSP_TO]
  | .NOC_NI_BSEL => [.NOC_NI_BSEL_INDEX, .NOC_NI_BSEL_OP, .NOC_NI_BSEL_BUSY]
  | .NOC_NI_BDATA => [.NOC_NI_BDATA_WORD]
  | .NOC_NI_BOUNCE_CNT => [.NOC_NI_BOUNCE_CNT_COUNT]
  | .NOC_NI_ALT_CNT => [.NOC_NI_ALT_CNT_COUNT]
  | .NOC_NI_FAIL_CNT => [.NOC_NI_FAIL_CNT_COUNT]
  | .NOC_NI_CRC_CNT => [.NOC_NI_CRC_CNT_COUNT]
  | .NOC_NI_TO_CNT => [.NOC_NI_TO_CNT_COUNT]
  | .NOC_NI_ERR => [.NOC_NI_ERR_CODE, .NOC_NI_ERR_DEST, .NOC_NI_ERR_VALID]
  | .GK_CTL => [.GK_CTL_SPINE, .GK_CTL_CMD, .GK_CTL_GROUP, .GK_CTL_LANE]
  | .GK_ROLE => [.GK_ROLE_XSECT, .GK_ROLE_COH]
  | .GK_STAT => [.GK_STAT_STATE, .GK_STAT_NOC, .GK_STAT_NOC_DETOUR, .GK_STAT_COH, .GK_STAT_CROSS]
  | .GK_HEALTH => [.GK_HEALTH_MOFFSET, .GK_HEALTH_MTHR, .GK_HEALTH_CTHR]
  | .GK_ARB => [.GK_ARB_QFROM, .GK_ARB_QUOTA, .GK_ARB_WINDOW, .GK_ARB_WAIT]
  | .GK_XERR_CNT => [.GK_XERR_CNT_COUNT]
  | .GK_GRP_STAT => [.GK_GRP_STAT_ROLE, .GK_GRP_STAT_LCROSS, .GK_GRP_STAT_SPARE_FOR, .GK_GRP_STAT_PAUSED]
  | .GK_GRP_CRC_CNT => [.GK_GRP_CRC_CNT_COUNT]
  | .GK_GRP_REPLAY_CNT => [.GK_GRP_REPLAY_CNT_COUNT]
  | .GK_LANE_MCNT => [.GK_LANE_MCNT_COUNT]
  | .CL_BND_CTL => [.CL_BND_CTL_EN, .CL_BND_CTL_SSC, .CL_BND_CTL_CMD, .CL_BND_CTL_MBPS]
  | .CL_BND_TRN => [.CL_BND_TRN_MODE, .CL_BND_TRN_LANES]
  | .CL_BND_STAT => [.CL_BND_STAT_STATE, .CL_BND_STAT_PLL_LOCK, .CL_BND_STAT_GRID, .CL_BND_STAT_REV, .CL_BND_STAT_TRN_ERR, .CL_BND_STAT_PRESENT]
  | .CL_CTL => [.CL_CTL_EN, .CL_CTL_USE, .CL_CTL_TXINV, .CL_CTL_DIV, .CL_CTL_RXMODE, .CL_CTL_CMD]
  | .CL_TIM => [.CL_TIM_TXVERN, .CL_TIM_TXDSK, .CL_TIM_RXSTB, .CL_TIM_RXDSK]
  | .CL_PRBS => [.CL_PRBS_GEN, .CL_PRBS_CHK]
  | .CL_SLIP => [.CL_SLIP_COUNT]
  | .CL_STAT => [.CL_STAT_LOS, .CL_STAT_LOL, .CL_STAT_LOS_EV, .CL_STAT_LOL_EV, .CL_STAT_RXINV, .CL_STAT_CHK_LOCK, .CL_STAT_REALIGN, .CL_STAT_FPORT_DOWN, .CL_STAT_SLIP_POS, .CL_STAT_OWNED]
  | .CL_LOOP => [.CL_LOOP_UI, .CL_LOOP_VALID, .CL_LOOP_BUSY, .CL_LOOP_FAIL]
  | .CL_ERR_CNT => [.CL_ERR_CNT_COUNT]
  | .CL_BIT_LO => [.CL_BIT_LO_COUNT]
  | .CL_BIT_HI => [.CL_BIT_HI_COUNT]
  | .TR_CTL => [.TR_CTL_EN, .TR_CTL_MOD, .TR_CTL_PRECODE, .TR_CTL_TXINV, .TR_CTL_RXINV, .TR_CTL_CAP, .TR_CTL_CAP_POINT, .TR_CTL_FREEZE, .TR_CTL_CMD]
  | .TR_RATE => [.TR_RATE_RATE]
  | .TR_FFE => [.TR_FFE_PRE2, .TR_FFE_PRE1, .TR_FFE_POST1]
  | .TR_PRBS => [.TR_PRBS_GEN, .TR_PRBS_CHK]
  | .TR_STAT => [.TR_STAT_STATE, .TR_STAT_LOS, .TR_STAT_LOL, .TR_STAT_CHK_LOCK, .TR_STAT_CAP_OVF, .TR_STAT_SNR]
  | .TR_ERR_CNT => [.TR_ERR_CNT_COUNT]
  | .TR_BIT_LO => [.TR_BIT_LO_COUNT]
  | .TR_BIT_HI => [.TR_BIT_HI_COUNT]
  | .PG_CFG => [.PG_CFG_BUDGET, .PG_CFG_RAMP, .PG_CFG_TIMEOUT]
  | .PG_STAT => [.PG_STAT_HELD, .PG_STAT_QUEUE, .PG_STAT_HEAD_UNITS, .PG_STAT_HEAD_OP]
  | .PG_TO_CNT => [.PG_TO_CNT_COUNT]
  | .PG_GRANT_CNT => [.PG_GRANT_CNT_COUNT]
  | .PG_ERR => [.PG_ERR_OVERSIZE, .PG_ERR_OP, .PG_ERR_UNITS, .PG_ERR_VALID]
  | .TEL_STAT => [.TEL_STAT_TEMP, .TEL_STAT_VCORE, .TEL_STAT_ICORE, .TEL_STAT_TWARN_HIT]
  | .TEL_CTL => [.TEL_CTL_TWARN]
  | .TEL_LIFE => [.TEL_LIFE_PPM]
  | .TEL_HOURS => [.TEL_HOURS_HOURS]
  | .PEL_CTL => [.PEL_CTL_CMD]
  | .PEL_ADDR_LO => [.PEL_ADDR_LO_ADDR]
  | .PEL_ADDR_HI => [.PEL_ADDR_HI_ADDR]
  | .PEL_DATA_LO => [.PEL_DATA_LO_DATA]
  | .PEL_DATA_HI => [.PEL_DATA_HI_DATA]
  | .PEL_STAT => [.PEL_STAT_BUSY, .PEL_STAT_STATUS]
  | .PEL_AUTH => [.PEL_AUTH_CMD, .PEL_AUTH_LEVEL]
  | .PEL_AUTH_DATA => [.PEL_AUTH_DATA_DATA]
  | .PEL_AUTH_STAT => [.PEL_AUTH_STAT_BUSY, .PEL_AUTH_STAT_OK]
  | .PEL_BOOTHALT => [.PEL_BOOTHALT_MASK]
  | .PEL_RST => [.PEL_RST_CMD]

/-- The register of each field. -/
def Fld.reg : Fld → Reg
  | .HUB_ID_FAMILY => .HUB_ID
  | .HUB_ID_PART => .HUB_ID
  | .HUB_ID_STEPPING => .HUB_ID
  | .HUB_DIE_STATE_POS => .HUB_DIE_STATE
  | .HUB_DIE_STATE_KIND => .HUB_DIE_STATE
  | .HUB_DIE_STATE_PRESENT => .HUB_DIE_STATE
  | .HUB_DIE_STATE_STATE => .HUB_DIE_STATE
  | .HUB_DIE_STATE_HBM_OK => .HUB_DIE_STATE
  | .HUB_DIE_STATE_SPOKE_OK => .HUB_DIE_STATE
  | .HUB_DIE_STATE_RING_CW_OK => .HUB_DIE_STATE
  | .HUB_DIE_STATE_RING_CCW_OK => .HUB_DIE_STATE
  | .HUB_DIE_STATE_CFG_LOADED => .HUB_DIE_STATE
  | .HUB_DIE_STATE_LOST => .HUB_DIE_STATE
  | .HUB_PERSONALITY_MODE => .HUB_PERSONALITY
  | .HUB_PERSONALITY_DIES_IN_SERVICE => .HUB_PERSONALITY
  | .HUB_PERSONALITY_STACKS_OK => .HUB_PERSONALITY
  | .FIX_CFG_QUORUM => .FIX_CFG
  | .FIX_STAT_FLAG => .FIX_STAT
  | .FIX_STAT_SET => .FIX_STAT
  | .FIX_STAT_CLR => .FIX_STAT
  | .FIX_STAT_COUNT => .FIX_STAT
  | .FIX_STAT_GEN => .FIX_STAT
  | .HBM_ILV_MODE => .HBM_ILV
  | .CLK_SRC_SEL => .CLK_SRC
  | .CLK_SRC_ACTIVE => .CLK_SRC
  | .CLK_SRC_REF_SEL => .CLK_SRC
  | .CLK_SRC_DEAD_RECK => .CLK_SRC
  | .CLK_SRC_AUTO_RETURN => .CLK_SRC
  | .CLK_SRC_GLIDING => .CLK_SRC
  | .CLK_SRC_CMD => .CLK_SRC
  | .CLK_MON_FAIL_EV => .CLK_MON
  | .CLK_MON_REF_OK => .CLK_MON
  | .CLK_MON_OSC_ERR => .CLK_MON
  | .CLK_SSC_DEPTH => .CLK_SSC
  | .CLK_SSC_FREQ => .CLK_SSC
  | .CLKOUT_CTL_SRC => .CLKOUT_CTL
  | .CLKOUT_CTL_SPINE => .CLKOUT_CTL
  | .CLKOUT_CTL_SSC => .CLKOUT_CTL
  | .SPN_SYN_FREQ => .SPN_SYN
  | .SPN_SYN_GLIDING => .SPN_SYN
  | .PWR_DIE_CTL_CMD => .PWR_DIE_CTL
  | .PWR_DIE_STAT_PSTATE => .PWR_DIE_STAT
  | .PWR_DIE_STAT_BUSY => .PWR_DIE_STAT
  | .PWR_DIE_STAT_REFUSED => .PWR_DIE_STAT
  | .PWR_DIE_STAT_DOMAINS => .PWR_DIE_STAT
  | .PWR_HUB_STAT_DOMAINS => .PWR_HUB_STAT
  | .RST_UNLOCK_KEY => .RST_UNLOCK
  | .RST_CMD_CMD => .RST_CMD
  | .RST_CAUSE_POR => .RST_CAUSE
  | .RST_CAUSE_PIN => .RST_CAUSE
  | .RST_CAUSE_SW_PKG => .RST_CAUSE
  | .RST_CAUSE_THERMAL => .RST_CAUSE
  | .RST_CAUSE_BIN_FATAL => .RST_CAUSE
  | .RST_CAUSE_SW_HUB => .RST_CAUSE
  | .RST_CAUSE_BIN_LOCKSTEP => .RST_CAUSE
  | .RST_CAUSE_BIN_WDT => .RST_CAUSE
  | .RST_DIE_CTL_CMD => .RST_DIE_CTL
  | .RST_DIE_CTL_HOLD => .RST_DIE_CTL
  | .RST_DIE_CTL_AUTO_RESTART => .RST_DIE_CTL
  | .RST_DIE_STAT_CAUSE => .RST_DIE_STAT
  | .RST_DIE_STAT_START_ERR => .RST_DIE_STAT
  | .RST_DIE_STAT_RESETS => .RST_DIE_STAT
  | .RST_DIE_STAT_HELD => .RST_DIE_STAT
  | .RST_DIE_STAT_REFUSED => .RST_DIE_STAT
  | .BOOT_STAT_STAGE => .BOOT_STAT
  | .BOOT_STAT_SLOT => .BOOT_STAT
  | .BOOT_STAT_FALLBACK => .BOOT_STAT
  | .BOOT_STAT_DIR_COPY => .BOOT_STAT
  | .BOOT_STAT_CFG => .BOOT_STAT
  | .BOOT_STAT_CFG_STATUS => .BOOT_STAT
  | .BOOT_CFG_NEXT_SLOT => .BOOT_CFG
  | .BOOT_CFG_NO_AUTOLOAD => .BOOT_CFG
  | .LS_RCV_CTL_CMD => .LS_RCV_CTL
  | .LS_RCV_CTL_SLOT => .LS_RCV_CTL
  | .LS_RCV_CTL_LEN => .LS_RCV_CTL
  | .LS_RCV_DATA_DATA => .LS_RCV_DATA
  | .LS_RCV_STAT_STATE => .LS_RCV_STAT
  | .LS_RCV_STAT_ERR => .LS_RCV_STAT
  | .LS_RCV_STAT_BYTES => .LS_RCV_STAT
  | .HIF_CFG_FN_MASK => .HIF_CFG_FN
  | .HIF_QP_ASSIGN_FN => .HIF_QP_ASSIGN
  | .HIF_QP_ASSIGN_VALID => .HIF_QP_ASSIGN
  | .HIF_FN_CTL_RO_DATA => .HIF_FN_CTL
  | .HIF_FN_CTL_FLR_ENG => .HIF_FN_CTL
  | .HIF_FN_STAT_FLR_BUSY => .HIF_FN_STAT
  | .HIF_FN_STAT_FLR_CNT => .HIF_FN_STAT
  | .HIF_FN_STAT_BME => .HIF_FN_STAT
  | .HIF_BAR4_GIB => .HIF_BAR4
  | .HIF_FN_FAB_DIES => .HIF_FN_FAB
  | .HIF_ENG_ASSIGN_MASK => .HIF_ENG_ASSIGN
  | .HIF_QP_SQ_LO_ADDR => .HIF_QP_SQ_LO
  | .HIF_QP_SQ_HI_ADDR => .HIF_QP_SQ_HI
  | .HIF_QP_CQ_LO_ADDR => .HIF_QP_CQ_LO
  | .HIF_QP_CQ_HI_ADDR => .HIF_QP_CQ_HI
  | .HIF_QP_CTL_SQ_LOG2 => .HIF_QP_CTL
  | .HIF_QP_CTL_CQ_LOG2 => .HIF_QP_CTL
  | .HIF_QP_CTL_EN => .HIF_QP_CTL
  | .HIF_QP_CTL_PRIO => .HIF_QP_CTL
  | .HIF_QP_CTL_IRQ_ALL => .HIF_QP_CTL
  | .HIF_QP_STAT_STATE => .HIF_QP_STAT
  | .HIF_QP_STAT_ERR => .HIF_QP_STAT
  | .HIF_QP_STAT_PHASE => .HIF_QP_STAT
  | .HIF_QP_STAT_INFLIGHT => .HIF_QP_STAT
  | .HIF_QP_HEAD_SQ_HEAD => .HIF_QP_HEAD
  | .HIF_QP_HEAD_CQ_TAIL => .HIF_QP_HEAD
  | .HIF_QP_IRQ_VEC => .HIF_QP_IRQ
  | .HIF_QP_IRQ_HOLDOFF => .HIF_QP_IRQ
  | .HIF_QP_DONE_CNT_COUNT => .HIF_QP_DONE_CNT
  | .SX_CTL_MODE => .SX_CTL
  | .SX_CTL_OC_PORT => .SX_CTL
  | .SX_CTL_DELAY => .SX_CTL
  | .SX_CTL_TRANSPORT => .SX_CTL
  | .SX_CTL_SERVO => .SX_CTL
  | .SX_CTL_SYNTONISE => .SX_CTL
  | .SX_CTL_DOMAIN => .SX_CTL
  | .SX_STAT_VALID => .SX_STAT
  | .SX_STAT_HOLDOVER => .SX_STAT
  | .SX_STAT_DEAD_RECK => .SX_STAT
  | .SX_STAT_SPINE_OK => .SX_STAT
  | .SX_STAT_STEP_REF => .SX_STAT
  | .SX_STAT_REF_CODE => .SX_STAT
  | .SX_STAT_STEPS => .SX_STAT
  | .SX_TIME_FRAC_FRAC => .SX_TIME_FRAC
  | .SX_TIME_NS_NS => .SX_TIME_NS
  | .SX_TIME_SL_SEC => .SX_TIME_SL
  | .SX_TIME_SH_SEC => .SX_TIME_SH
  | .SX_ADJ_RATE => .SX_ADJ
  | .SX_STEP_NS_LO_NS => .SX_STEP_NS_LO
  | .SX_STEP_NS_HI_NS => .SX_STEP_NS_HI
  | .SX_STEP_FRAC_FRAC => .SX_STEP_FRAC
  | .SX_STEP_CMD_CMD => .SX_STEP_CMD
  | .SX_STEP_CMD_FORCE => .SX_STEP_CMD
  | .SX_STEP_CMD_BUSY => .SX_STEP_CMD
  | .SX_STEP_THR_THR => .SX_STEP_THR
  | .SX_PPS_WIDTH => .SX_PPS
  | .SX_MEAS_OFS_LO_VALUE => .SX_MEAS_OFS_LO
  | .SX_MEAS_OFS_HI_VALUE => .SX_MEAS_OFS_HI
  | .SX_MEAS_MPD_LO_VALUE => .SX_MEAS_MPD_LO
  | .SX_MEAS_MPD_HI_VALUE => .SX_MEAS_MPD_HI
  | .SX_MEAS_SEQ_SEQ => .SX_MEAS_SEQ
  | .SX_MEAS_SEQ_NEW => .SX_MEAS_SEQ
  | .SX_PORT_CFG_EN => .SX_PORT_CFG
  | .SX_PORT_CFG_TWO_STEP => .SX_PORT_CFG
  | .SX_PORT_CFG_SPEED => .SX_PORT_CFG
  | .SX_PORT_STAT_PSTATE => .SX_PORT_STAT
  | .SX_PORT_STAT_LINK => .SX_PORT_STAT
  | .SX_PORT_STAT_TXQ_LEVEL => .SX_PORT_STAT
  | .SX_PORT_STAT_TXQ_OVF => .SX_PORT_STAT
  | .SX_PORT_STAT_ORPHAN => .SX_PORT_STAT
  | .SX_PORT_EASYM_ASYM => .SX_PORT_EASYM
  | .SX_PORT_IASYM_ASYM => .SX_PORT_IASYM
  | .SX_PORT_PDELAY_DELAY => .SX_PORT_PDELAY
  | .SX_TXQ_ID_SEQ => .SX_TXQ_ID
  | .SX_TXQ_ID_TYPE => .SX_TXQ_ID
  | .SX_TXQ_ID_VALID => .SX_TXQ_ID
  | .SX_TXQ_FRAC_FRAC => .SX_TXQ_FRAC
  | .SX_TXQ_NS_NS => .SX_TXQ_NS
  | .SX_TXQ_SL_SEC => .SX_TXQ_SL
  | .SX_TXQ_SH_SEC => .SX_TXQ_SH
  | .SX_TXQ_CTL_POP => .SX_TXQ_CTL
  | .SX_TXQ_LOST_CNT_COUNT => .SX_TXQ_LOST_CNT
  | .LS_STAT_LIFECYCLE => .LS_STAT
  | .LS_STAT_READY => .LS_STAT
  | .LS_STAT_TRNG_OK => .LS_STAT
  | .LS_STAT_OWNER_KEYS => .LS_STAT
  | .LS_STAT_KEK => .LS_STAT
  | .LS_STAT_VKEYS => .LS_STAT
  | .LS_ARB_VALUE => .LS_ARB
  | .LS_ARB_SPENT => .LS_ARB
  | .LS_SVN_SVN => .LS_SVN
  | .LS_DBG_STAT_JTAG_LEVEL => .LS_DBG_STAT
  | .LS_DBG_STAT_PCIE_LEVEL => .LS_DBG_STAT
  | .LS_DBG_STAT_USED => .LS_DBG_STAT
  | .LS_DBG_STAT_FAILS => .LS_DBG_STAT
  | .LS_DBG_STAT_WAIT => .LS_DBG_STAT
  | .LS_ERR_CODE => .LS_ERR
  | .LS_ERR_SOURCE => .LS_ERR
  | .LS_ERR_VALID => .LS_ERR
  | .LS_VER_CNT_COUNT => .LS_VER_CNT
  | .EVT_CTL_INFO_OFF => .EVT_CTL
  | .EVT_NEXT_SEQ => .EVT_NEXT
  | .EVT_ACK_SEQ => .EVT_ACK
  | .EVT_LOST_CNT_COUNT => .EVT_LOST_CNT
  | .EVT_INFO_CNT_COUNT => .EVT_INFO_CNT
  | .MGMT_HEALTH_STAGE => .MGMT_HEALTH
  | .MGMT_HEALTH_ZERO => .MGMT_HEALTH
  | .HELM_CORE_CTL_CMD => .HELM_CORE_CTL
  | .HELM_CORE_STAT_STATE => .HELM_CORE_STAT
  | .HELM_CORE_STAT_WFI => .HELM_CORE_STAT
  | .HELM_CORE_STAT_PERMIT_TO => .HELM_CORE_STAT
  | .HELM_CORE_STAT_WDT_RESET => .HELM_CORE_STAT
  | .HELM_CORE_STAT_LEVEL => .HELM_CORE_STAT
  | .HELM_WDT_CTL_EN => .HELM_WDT_CTL
  | .HELM_WDT_CTL_FREEZE_MON => .HELM_WDT_CTL
  | .HELM_WDT_CTL_STAGE => .HELM_WDT_CTL
  | .HELM_WDT_LOAD_US => .HELM_WDT_LOAD
  | .HELM_WDT_CNT_US => .HELM_WDT_CNT
  | .HELM_WDT_KICK_KEY => .HELM_WDT_KICK
  | .HELM_WDT_UNLOCK_KEY => .HELM_WDT_UNLOCK
  | .HELM_DBG_CTL_EBRK => .HELM_DBG_CTL
  | .HELM_DBG_CTL_STEP_LRSC => .HELM_DBG_CTL
  | .HELM_DBG_CTL_GROUP => .HELM_DBG_CTL
  | .HELM_DBG_STAT_IN_MON => .HELM_DBG_STAT
  | .HELM_DBG_STAT_CAUSE => .HELM_DBG_STAT
  | .HELM_DBG_STAT_UNLOCK_ABORT => .HELM_DBG_STAT
  | .HELM_DBG_CMD_CMD => .HELM_DBG_CMD
  | .HELM_DBG_ACC_REG => .HELM_DBG_ACC
  | .HELM_DBG_ACC_OP => .HELM_DBG_ACC
  | .HELM_DBG_ACC_ERR => .HELM_DBG_ACC
  | .HELM_DBG_ACC_LO_DATA => .HELM_DBG_ACC_LO
  | .HELM_DBG_ACC_HI_DATA => .HELM_DBG_ACC_HI
  | .HELM_MBX_REQ_LO_ADDR => .HELM_MBX_REQ_LO
  | .HELM_MBX_REQ_HI_ADDR => .HELM_MBX_REQ_HI
  | .HELM_MBX_RSP_LO_ADDR => .HELM_MBX_RSP_LO
  | .HELM_MBX_RSP_HI_ADDR => .HELM_MBX_RSP_HI
  | .HELM_MBX_LEN_REQ => .HELM_MBX_LEN
  | .HELM_MBX_LEN_LIMIT => .HELM_MBX_LEN
  | .HELM_MBX_CTL_GO => .HELM_MBX_CTL
  | .HELM_MBX_CTL_BUSY => .HELM_MBX_CTL
  | .HELM_MBX_CTL_STATUS => .HELM_MBX_CTL
  | .HELM_MBX_CTL_BYTES => .HELM_MBX_CTL
  | .HELM_BOOT_LO_VEC => .HELM_BOOT_LO
  | .HELM_BOOT_HI_VEC => .HELM_BOOT_HI
  | .HELM_BOOT_AUTO_MASK => .HELM_BOOT_AUTO
  | .HELM_PATCH_ADDR_EN => .HELM_PATCH_ADDR
  | .HELM_PATCH_ADDR_OFF => .HELM_PATCH_ADDR
  | .HELM_PATCH_DATA_WORD => .HELM_PATCH_DATA
  | .HELM_IC_SRC_PRIO => .HELM_IC_SRC
  | .HELM_IC_SRC_TARGETS => .HELM_IC_SRC
  | .HELM_IC_SRC_LEVEL => .HELM_IC_SRC
  | .HELM_IC_PEND_BITS => .HELM_IC_PEND
  | .HELM_IC_SET_SRC => .HELM_IC_SET
  | .HELM_IC_THR_THR => .HELM_IC_THR
  | .HELM_IC_CLAIM_SRC => .HELM_IC_CLAIM
  | .RCW_BASE_LO_ADDR => .RCW_BASE_LO
  | .RCW_BASE_HI_ADDR => .RCW_BASE_HI
  | .RCW_SIZE_MIB => .RCW_SIZE
  | .RCW_CTL_ATTR => .RCW_CTL
  | .RCW_CTL_EN => .RCW_CTL
  | .RCW_CTL_BUSY => .RCW_CTL
  | .CFG_STATUS_BUSY => .CFG_STATUS
  | .CFG_STATUS_FRAMES => .CFG_STATUS
  | .CFG_ERR_CODE => .CFG_ERR
  | .CFG_ERR_SECTOR => .CFG_ERR
  | .CFG_ERR_VALID => .CFG_ERR
  | .CFG_ERR_FAR_FAR => .CFG_ERR_FAR
  | .SCRUB_CTL_PERIOD => .SCRUB_CTL
  | .SCRUB_CTL_UNC_ACT => .SCRUB_CTL
  | .SCRUB_STAT_SECTOR => .SCRUB_STAT
  | .SCRUB_STAT_ACTIVE => .SCRUB_STAT
  | .SCRUB_STAT_DONE => .SCRUB_STAT
  | .SCRUB_COR_CNT_COUNT => .SCRUB_COR_CNT
  | .SCRUB_UNC_CNT_COUNT => .SCRUB_UNC_CNT
  | .SEC_CTL_RESET => .SEC_CTL
  | .SEC_CTL_MIGRATE_EN => .SEC_CTL
  | .SEC_CTL_CMD => .SEC_CTL
  | .SEC_STATUS_STATE => .SEC_STATUS
  | .SEC_STATUS_PERMIT_WAIT => .SEC_STATUS
  | .SEC_STATUS_ISOLATED => .SEC_STATUS
  | .SEC_STATUS_PENDING_REMAP => .SEC_STATUS
  | .SEC_STATUS_RESET_HELD => .SEC_STATUS
  | .SEC_COLMAP_ACTIVE => .SEC_COLMAP
  | .SEC_COLMAP_FUSED => .SEC_COLMAP
  | .SEC_COLMAP_FIELD => .SEC_COLMAP
  | .SEC_COLMAP_DEFECTS => .SEC_COLMAP
  | .SEC_SPAN_CONT => .SEC_SPAN
  | .SEC_SPAN_DIR => .SEC_SPAN
  | .SEC_SPAN_SEG => .SEC_SPAN
  | .SEC_SPAN_WINNER => .SEC_SPAN
  | .SEC_SPAN_CNT_COUNT => .SEC_SPAN_CNT
  | .MEM_ECC_SBE => .MEM_ECC
  | .MEM_ECC_DBE => .MEM_ECC
  | .MEM_ECC_KIND => .MEM_ECC
  | .MEM_ECC_COL => .MEM_ECC
  | .MEM_ECC_BLOCK => .MEM_ECC
  | .MEM_ECC_ADDR => .MEM_ECC
  | .MEM_SBE_CNT_COUNT => .MEM_SBE_CNT
  | .MEM_DBE_CNT_COUNT => .MEM_DBE_CNT
  | .RKN_STAT_LATE => .RKN_STAT
  | .RKN_STAT_NEAR => .RKN_STAT
  | .RKN_STAT_COL => .RKN_STAT
  | .RKN_STAT_BLOCK => .RKN_STAT
  | .RKN_LATE_CNT_COUNT => .RKN_LATE_CNT
  | .HARD_MAP_RKN0 => .HARD_MAP
  | .HARD_MAP_RKN1 => .HARD_MAP
  | .HARD_MAP_RKN2 => .HARD_MAP
  | .HARD_MAP_MEM_SPARE_LOW => .HARD_MAP
  | .FCLK_GSEL_SRC => .FCLK_GSEL
  | .FCLK_GSEL_ACTIVE => .FCLK_GSEL
  | .FCLK_GSEL_SWITCHING => .FCLK_GSEL
  | .FCLK_GSEL_FORCED => .FCLK_GSEL
  | .FCLK_GSEL_LOCKED => .FCLK_GSEL
  | .FCLK_RSEL_SRC => .FCLK_RSEL
  | .FCLK_RSEL_ACTIVE => .FCLK_RSEL
  | .FCLK_RSEL_SWITCHING => .FCLK_RSEL
  | .FCLK_RSEL_FORCED => .FCLK_RSEL
  | .FCLK_RSEL_LOCKED => .FCLK_RSEL
  | .FSYN_CTL_LOCKED => .FSYN_CTL
  | .FSYN_CTL_GLIDING => .FSYN_CTL
  | .FSYN_CTL_PERMIT_WAIT => .FSYN_CTL
  | .FSYN_FREQ_FREQ => .FSYN_FREQ
  | .FVS_CTL_VSEL => .FVS_CTL
  | .FVS_CTL_SETTLE => .FVS_CTL
  | .FVS_STAT_VCUR => .FVS_STAT
  | .FVS_STAT_BUSY => .FVS_STAT
  | .FVS_STAT_FAIL => .FVS_STAT
  | .RC_CTL_EN => .RC_CTL
  | .RC_CTL_LOSS_TO => .RC_CTL
  | .RC_STAT_STATE => .RC_STAT
  | .RC_STAT_RETAINED => .RC_STAT
  | .RC_CMD_CMD => .RC_CMD
  | .RC_CMD_BUSY => .RC_CMD
  | .RC_CMD_BASE_LO_ADDR => .RC_CMD_BASE_LO
  | .RC_CMD_BASE_HI_ADDR => .RC_CMD_BASE_HI
  | .RC_CMD_LEN_LEN => .RC_CMD_LEN
  | .RC_HIT_CNT_COUNT => .RC_HIT_CNT
  | .RC_MISS_CNT_COUNT => .RC_MISS_CNT
  | .RC_WB_CNT_COUNT => .RC_WB_CNT
  | .RC_SNP_CNT_COUNT => .RC_SNP_CNT
  | .RC_ECC_CNT_COUNT => .RC_ECC_CNT
  | .RC_POISON_CNT_COUNT => .RC_POISON_CNT
  | .HA_STAT_SF_LEVEL => .HA_STAT
  | .HA_STAT_RECALL => .HA_STAT
  | .HA_BACKINV_CNT_COUNT => .HA_BACKINV_CNT
  | .HA_POISON_CNT_COUNT => .HA_POISON_CNT
  | .HBM_CTL_EN => .HBM_CTL
  | .HBM_CTL_CMD => .HBM_CTL
  | .HBM_CTL_TALARM => .HBM_CTL
  | .HBM_CTL_PD_IDLE => .HBM_CTL
  | .HBM_STAT_STATE => .HBM_STAT
  | .HBM_STAT_CONTENT => .HBM_STAT
  | .HBM_STAT_RATE => .HBM_STAT
  | .HBM_STAT_TEMP => .HBM_STAT
  | .HBM_STAT_HOT => .HBM_STAT
  | .HBM_STAT_TALARM_HIT => .HBM_STAT
  | .HBM_ARB_QFROM => .HBM_ARB
  | .HBM_ARB_QUOTA => .HBM_ARB
  | .HBM_ARB_WINDOW => .HBM_ARB
  | .HBM_ARB_WAIT => .HBM_ARB
  | .HBM_REF_MODE => .HBM_REF
  | .HBM_REF_POSTPONE => .HBM_REF
  | .HBM_RH_K => .HBM_RH
  | .HBM_RH_RFM_REQ => .HBM_RH
  | .HBM_TRAIN_RATE => .HBM_TRAIN
  | .HBM_TRAIN_PERIOD => .HBM_TRAIN
  | .HBM_TRAIN_DTEMP => .HBM_TRAIN
  | .HBM_SCRUB_HOURS => .HBM_SCRUB
  | .HBM_SCRUB_DONE => .HBM_SCRUB
  | .HBM_HASH_MASK => .HBM_HASH
  | .HBM_QOS_TARGET_TARGET => .HBM_QOS_TARGET
  | .HBM_ERR_CODE => .HBM_ERR
  | .HBM_ERR_CH => .HBM_ERR
  | .HBM_ERR_PC => .HBM_ERR
  | .HBM_ERR_SID => .HBM_ERR
  | .HBM_ERR_VALID => .HBM_ERR
  | .HBM_ERR_ADDR_LO_ADDR => .HBM_ERR_ADDR_LO
  | .HBM_ERR_ADDR_HI_ADDR => .HBM_ERR_ADDR_HI
  | .HBM_CH_STAT_STATE => .HBM_CH_STAT
  | .HBM_CH_STAT_LREP_LEFT => .HBM_CH_STAT
  | .HBM_CH_COR_CNT_COUNT => .HBM_CH_COR_CNT
  | .HBM_CH_UNC_CNT_COUNT => .HBM_CH_UNC_CNT
  | .HBM_CH_PAR_CNT_COUNT => .HBM_CH_PAR_CNT
  | .HBM_CH_RFM_CNT_COUNT => .HBM_CH_RFM_CNT
  | .HBM_CH_NBR_CNT_COUNT => .HBM_CH_NBR_CNT
  | .HBM_CH_ACT_CNT_COUNT => .HBM_CH_ACT_CNT
  | .SEAL_CTL_RATE => .SEAL_CTL
  | .SEAL_STAT_RANGE => .SEAL_STAT
  | .SEAL_STAT_KIND => .SEAL_STAT
  | .SEAL_STAT_PERMIT_WAIT => .SEAL_STAT
  | .SEAL_STAT_QUEUE => .SEAL_STAT
  | .SEAL_STAT_DEFKEY => .SEAL_STAT
  | .SEAL_KEY_SLOT => .SEAL_KEY
  | .SEAL_KEY_OP => .SEAL_KEY
  | .SEAL_KEY_SESSION => .SEAL_KEY
  | .SEAL_KEY_BUSY => .SEAL_KEY
  | .SEAL_KEY_FAIL => .SEAL_KEY
  | .SEAL_INTEG_MIB => .SEAL_INTEG
  | .SEAL_ERR_CODE => .SEAL_ERR
  | .SEAL_ERR_RANGE => .SEAL_ERR
  | .SEAL_ERR_LEVEL => .SEAL_ERR
  | .SEAL_ERR_VALID => .SEAL_ERR
  | .SEAL_ERR_ADDR_LO_ADDR => .SEAL_ERR_ADDR_LO
  | .SEAL_ERR_ADDR_HI_ADDR => .SEAL_ERR_ADDR_HI
  | .SEAL_MAC_CNT_COUNT => .SEAL_MAC_CNT
  | .SEAL_NODE_CNT_COUNT => .SEAL_NODE_CNT
  | .SEAL_LOST_CNT_COUNT => .SEAL_LOST_CNT
  | .SEAL_DENY_CNT_COUNT => .SEAL_DENY_CNT
  | .SEAL_OVF_CNT_COUNT => .SEAL_OVF_CNT
  | .SEAL_CC_MISS_CNT_COUNT => .SEAL_CC_MISS_CNT
  | .SEAL_BASE_MIB => .SEAL_BASE
  | .SEAL_SIZE_MIB => .SEAL_SIZE
  | .SEAL_MBASE_MIB => .SEAL_MBASE
  | .SEAL_RCTL_MODE => .SEAL_RCTL
  | .SEAL_RCTL_CLAIM => .SEAL_RCTL
  | .SEAL_RCTL_CUR => .SEAL_RCTL
  | .SEAL_RCTL_OWNER => .SEAL_RCTL
  | .SEAL_RCTL_CMD => .SEAL_RCTL
  | .SEAL_RSTAT_STATE => .SEAL_RSTAT
  | .SEAL_RSTAT_SWSTOP => .SEAL_RSTAT
  | .SEAL_RSTAT_FREEZE => .SEAL_RSTAT
  | .SEAL_RSTAT_KEYS => .SEAL_RSTAT
  | .SEAL_POS_POS => .SEAL_POS
  | .SEAL_GRANT_ENG_MASK => .SEAL_GRANT_ENG
  | .SEAL_GRANT_OTH_FABRIC => .SEAL_GRANT_OTH
  | .SEAL_GRANT_OTH_HELM => .SEAL_GRANT_OTH
  | .SEAL_HWM_LO_HWM => .SEAL_HWM_LO
  | .SEAL_HWM_HI_HWM => .SEAL_HWM_HI
  | .ENG_CTL_CMD => .ENG_CTL
  | .ENG_CTL_LATE_POLICY => .ENG_CTL
  | .ENG_CTL_TMR_FREEZE => .ENG_CTL
  | .ENG_STATUS_STATE => .ENG_STATUS
  | .ENG_STATUS_IN_HANDLER => .ENG_STATUS
  | .ENG_STATUS_FAIL => .ENG_STATUS
  | .ENG_STATUS_TLATE => .ENG_STATUS
  | .ENG_STATUS_TMR_OVR => .ENG_STATUS
  | .ENG_STATUS_LDEPTH => .ENG_STATUS
  | .ENG_STATUS_CDEPTH => .ENG_STATUS
  | .ENG_STATUS_END_CODE => .ENG_STATUS
  | .ENG_FAULT_CODE => .ENG_FAULT
  | .ENG_FAULT_DETAIL => .ENG_FAULT
  | .ENG_FAULT_PC => .ENG_FAULT
  | .ENG_FAULT_VALID => .ENG_FAULT
  | .ENG_PC_START => .ENG_PC
  | .ENG_PC_CUR => .ENG_PC
  | .ENG_OUT_DEST => .ENG_OUT
  | .ENG_AFMT_WX => .ENG_AFMT
  | .ENG_AFMT_WY => .ENG_AFMT
  | .ENG_AFMT_WZ => .ENG_AFMT
  | .ENG_AFMT_SCR => .ENG_AFMT
  | .ENG_VFMT_AOFF => .ENG_VFMT
  | .ENG_VFMT_COFF => .ENG_VFMT
  | .ENG_PMASK_MASK => .ENG_PMASK
  | .ENG_CMASK_MASK => .ENG_CMASK
  | .ENG_LFSR_LO_SEED => .ENG_LFSR_LO
  | .ENG_LFSR_HI_SEED => .ENG_LFSR_HI
  | .ENG_TTRIG_NS_NS => .ENG_TTRIG_NS
  | .ENG_TTRIG_SL_SEC => .ENG_TTRIG_SL
  | .ENG_TTRIG_SH_SEC => .ENG_TTRIG_SH
  | .ENG_TMR_PERIOD_PERIOD => .ENG_TMR_PERIOD
  | .ENG_TMR_VEC_VEC => .ENG_TMR_VEC
  | .ENG_STRM_ADDR_LO_ADDR => .ENG_STRM_ADDR_LO
  | .ENG_STRM_ADDR_HI_ADDR => .ENG_STRM_ADDR_HI
  | .ENG_STRM_LEN_LEN => .ENG_STRM_LEN
  | .ENG_STRM_CTL_RATE => .ENG_STRM_CTL
  | .ENG_STRM_CTL_FILL => .ENG_STRM_CTL
  | .ENG_STRM_CTL_AUTO => .ENG_STRM_CTL
  | .ENG_STRM_CTL_ENDED => .ENG_STRM_CTL
  | .ENG_STRM_CTL_LEVEL => .ENG_STRM_CTL
  | .ENG_STRM_POS_POS => .ENG_STRM_POS
  | .ENG_GEN_B_VALUE => .ENG_GEN_B
  | .ENG_GEN_E_VALUE => .ENG_GEN_E
  | .ENG_GEN_S_VALUE => .ENG_GEN_S
  | .ENG_GEN_V_VALUE => .ENG_GEN_V
  | .ENG_LREL_COUNT => .ENG_LREL
  | .ENG_LCNT_COUNT => .ENG_LCNT
  | .ENG_STEPS_LO_COUNT => .ENG_STEPS_LO
  | .ENG_STEPS_HI_COUNT => .ENG_STEPS_HI
  | .ENG_STALL_COUNT => .ENG_STALL
  | .ENG_PERMIT_HELD => .ENG_PERMIT
  | .ENG_PERMIT_WAIT => .ENG_PERMIT
  | .FC_CTL_CMD => .FC_CTL
  | .FC_CTL_FORMAT => .FC_CTL
  | .FC_CTL_OVF_POLICY => .FC_CTL
  | .FC_CTL_BM_EN => .FC_CTL
  | .FC_CTL_BM_UNIT => .FC_CTL
  | .FC_CTL_TALIGN => .FC_CTL
  | .FC_CTL_IDLE => .FC_CTL
  | .FC_STATUS_CQ_LEVEL => .FC_STATUS
  | .FC_STATUS_FIFO_LEVEL => .FC_STATUS
  | .FC_STATUS_OVF => .FC_STATUS
  | .FC_STATUS_RING_ERR => .FC_STATUS
  | .FC_STATUS_LAUNCH_LATE => .FC_STATUS
  | .FC_STATUS_BM_SAT => .FC_STATUS
  | .FC_STATUS_BM_BUSY => .FC_STATUS
  | .FC_STATUS_LANE_CFG => .FC_STATUS
  | .FC_LANES_COUNT => .FC_LANES
  | .FC_LANES_LANE0 => .FC_LANES
  | .FC_LANES_LANE1 => .FC_LANES
  | .FC_LANES_LANE2 => .FC_LANES
  | .FC_LANES_LANE3 => .FC_LANES
  | .FC_RX_DELAY => .FC_RX
  | .FC_TX_LAUNCH => .FC_TX
  | .FC_RSP_TO_TIMEOUT => .FC_RSP_TO
  | .FC_REC_MAX_MAX => .FC_REC_MAX
  | .FC_RING_BASE_LO_ADDR => .FC_RING_BASE_LO
  | .FC_RING_BASE_HI_ADDR => .FC_RING_BASE_HI
  | .FC_RING_SIZE_LOG2 => .FC_RING_SIZE
  | .FC_RING_WR_COUNT => .FC_RING_WR
  | .FC_RING_RD_COUNT => .FC_RING_RD
  | .FC_BM_ROW_SHIFT => .FC_BM_ROW
  | .FC_BM_ROW_WIDTH => .FC_BM_ROW
  | .FC_BM_COL_SHIFT => .FC_BM_COL
  | .FC_BM_COL_WIDTH => .FC_BM_COL
  | .FC_CMP_LO_COUNT => .FC_CMP_LO
  | .FC_CMP_HI_COUNT => .FC_CMP_HI
  | .FC_FAIL_CNT_COUNT => .FC_FAIL_CNT
  | .FC_UNCHK_CNT_COUNT => .FC_UNCHK_CNT
  | .FC_DROP_CNT_COUNT => .FC_DROP_CNT
  | .FC_GAP_CNT_COUNT => .FC_GAP_CNT
  | .FC_RUN_RUN => .FC_RUN
  | .FC_SLICE_FAIL_COUNT => .FC_SLICE_FAIL
  | .NOC_RTR_PORT_EN => .NOC_RTR_PORT
  | .NOC_RTR_PORT_DRAIN => .NOC_RTR_PORT
  | .NOC_RTR_PORT_DRAINED => .NOC_RTR_PORT
  | .NOC_RTR_PORT_EXISTS => .NOC_RTR_PORT
  | .NOC_RTR_ARB_QFROM => .NOC_RTR_ARB
  | .NOC_RTR_ARB_QUOTA => .NOC_RTR_ARB
  | .NOC_RTR_ARB_WINDOW => .NOC_RTR_ARB
  | .NOC_RTR_ARB_WAIT => .NOC_RTR_ARB
  | .NOC_RTR_ERR_HCOR => .NOC_RTR_ERR
  | .NOC_RTR_ERR_HUNC => .NOC_RTR_ERR
  | .NOC_RTR_ERR_DCOR => .NOC_RTR_ERR
  | .NOC_RTR_ERR_DUNC => .NOC_RTR_ERR
  | .NOC_RTR_ERR_PORT => .NOC_RTR_ERR
  | .NOC_RTR_VC_REQ => .NOC_RTR_VC
  | .NOC_RTR_VC_PST => .NOC_RTR_VC
  | .NOC_RTR_VC_SNP => .NOC_RTR_VC
  | .NOC_RTR_VC_RSP => .NOC_RTR_VC
  | .NOC_RTR_CORCNT_COUNT => .NOC_RTR_CORCNT
  | .NOC_RTR_UNCCNT_COUNT => .NOC_RTR_UNCCNT
  | .NOC_RTR_BOUNCE_COUNT => .NOC_RTR_BOUNCE
  | .NOC_DRAIN_TIMEOUT => .NOC_DRAIN
  | .NOC_STALL_TIMEOUT => .NOC_STALL
  | .NOC_NI_ID_ID => .NOC_NI_ID
  | .NOC_NI_ID_ASSIGNED => .NOC_NI_ID
  | .NOC_NI_CTL_EN => .NOC_NI_CTL
  | .NOC_NI_CTL_RSP_TO => .NOC_NI_CTL
  | .NOC_NI_BSEL_INDEX => .NOC_NI_BSEL
  | .NOC_NI_BSEL_OP => .NOC_NI_BSEL
  | .NOC_NI_BSEL_BUSY => .NOC_NI_BSEL
  | .NOC_NI_BDATA_WORD => .NOC_NI_BDATA
  | .NOC_NI_BOUNCE_CNT_COUNT => .NOC_NI_BOUNCE_CNT
  | .NOC_NI_ALT_CNT_COUNT => .NOC_NI_ALT_CNT
  | .NOC_NI_FAIL_CNT_COUNT => .NOC_NI_FAIL_CNT
  | .NOC_NI_CRC_CNT_COUNT => .NOC_NI_CRC_CNT
  | .NOC_NI_TO_CNT_COUNT => .NOC_NI_TO_CNT
  | .NOC_NI_ERR_CODE => .NOC_NI_ERR
  | .NOC_NI_ERR_DEST => .NOC_NI_ERR
  | .NOC_NI_ERR_VALID => .NOC_NI_ERR
  | .GK_CTL_SPINE => .GK_CTL
  | .GK_CTL_CMD => .GK_CTL
  | .GK_CTL_GROUP => .GK_CTL
  | .GK_CTL_LANE => .GK_CTL
  | .GK_ROLE_XSECT => .GK_ROLE
  | .GK_ROLE_COH => .GK_ROLE
  | .GK_STAT_STATE => .GK_STAT
  | .GK_STAT_NOC => .GK_STAT
  | .GK_STAT_NOC_DETOUR => .GK_STAT
  | .GK_STAT_COH => .GK_STAT
  | .GK_STAT_CROSS => .GK_STAT
  | .GK_HEALTH_MOFFSET => .GK_HEALTH
  | .GK_HEALTH_MTHR => .GK_HEALTH
  | .GK_HEALTH_CTHR => .GK_HEALTH
  | .GK_ARB_QFROM => .GK_ARB
  | .GK_ARB_QUOTA => .GK_ARB
  | .GK_ARB_WINDOW => .GK_ARB
  | .GK_ARB_WAIT => .GK_ARB
  | .GK_XERR_CNT_COUNT => .GK_XERR_CNT
  | .GK_GRP_STAT_ROLE => .GK_GRP_STAT
  | .GK_GRP_STAT_LCROSS => .GK_GRP_STAT
  | .GK_GRP_STAT_SPARE_FOR => .GK_GRP_STAT
  | .GK_GRP_STAT_PAUSED => .GK_GRP_STAT
  | .GK_GRP_CRC_CNT_COUNT => .GK_GRP_CRC_CNT
  | .GK_GRP_REPLAY_CNT_COUNT => .GK_GRP_REPLAY_CNT
  | .GK_LANE_MCNT_COUNT => .GK_LANE_MCNT
  | .CL_BND_CTL_EN => .CL_BND_CTL
  | .CL_BND_CTL_SSC => .CL_BND_CTL
  | .CL_BND_CTL_CMD => .CL_BND_CTL
  | .CL_BND_CTL_MBPS => .CL_BND_CTL
  | .CL_BND_TRN_MODE => .CL_BND_TRN
  | .CL_BND_TRN_LANES => .CL_BND_TRN
  | .CL_BND_STAT_STATE => .CL_BND_STAT
  | .CL_BND_STAT_PLL_LOCK => .CL_BND_STAT
  | .CL_BND_STAT_GRID => .CL_BND_STAT
  | .CL_BND_STAT_REV => .CL_BND_STAT
  | .CL_BND_STAT_TRN_ERR => .CL_BND_STAT
  | .CL_BND_STAT_PRESENT => .CL_BND_STAT
  | .CL_CTL_EN => .CL_CTL
  | .CL_CTL_USE => .CL_CTL
  | .CL_CTL_TXINV => .CL_CTL
  | .CL_CTL_DIV => .CL_CTL
  | .CL_CTL_RXMODE => .CL_CTL
  | .CL_CTL_CMD => .CL_CTL
  | .CL_TIM_TXVERN => .CL_TIM
  | .CL_TIM_TXDSK => .CL_TIM
  | .CL_TIM_RXSTB => .CL_TIM
  | .CL_TIM_RXDSK => .CL_TIM
  | .CL_PRBS_GEN => .CL_PRBS
  | .CL_PRBS_CHK => .CL_PRBS
  | .CL_SLIP_COUNT => .CL_SLIP
  | .CL_STAT_LOS => .CL_STAT
  | .CL_STAT_LOL => .CL_STAT
  | .CL_STAT_LOS_EV => .CL_STAT
  | .CL_STAT_LOL_EV => .CL_STAT
  | .CL_STAT_RXINV => .CL_STAT
  | .CL_STAT_CHK_LOCK => .CL_STAT
  | .CL_STAT_REALIGN => .CL_STAT
  | .CL_STAT_FPORT_DOWN => .CL_STAT
  | .CL_STAT_SLIP_POS => .CL_STAT
  | .CL_STAT_OWNED => .CL_STAT
  | .CL_LOOP_UI => .CL_LOOP
  | .CL_LOOP_VALID => .CL_LOOP
  | .CL_LOOP_BUSY => .CL_LOOP
  | .CL_LOOP_FAIL => .CL_LOOP
  | .CL_ERR_CNT_COUNT => .CL_ERR_CNT
  | .CL_BIT_LO_COUNT => .CL_BIT_LO
  | .CL_BIT_HI_COUNT => .CL_BIT_HI
  | .TR_CTL_EN => .TR_CTL
  | .TR_CTL_MOD => .TR_CTL
  | .TR_CTL_PRECODE => .TR_CTL
  | .TR_CTL_TXINV => .TR_CTL
  | .TR_CTL_RXINV => .TR_CTL
  | .TR_CTL_CAP => .TR_CTL
  | .TR_CTL_CAP_POINT => .TR_CTL
  | .TR_CTL_FREEZE => .TR_CTL
  | .TR_CTL_CMD => .TR_CTL
  | .TR_RATE_RATE => .TR_RATE
  | .TR_FFE_PRE2 => .TR_FFE
  | .TR_FFE_PRE1 => .TR_FFE
  | .TR_FFE_POST1 => .TR_FFE
  | .TR_PRBS_GEN => .TR_PRBS
  | .TR_PRBS_CHK => .TR_PRBS
  | .TR_STAT_STATE => .TR_STAT
  | .TR_STAT_LOS => .TR_STAT
  | .TR_STAT_LOL => .TR_STAT
  | .TR_STAT_CHK_LOCK => .TR_STAT
  | .TR_STAT_CAP_OVF => .TR_STAT
  | .TR_STAT_SNR => .TR_STAT
  | .TR_ERR_CNT_COUNT => .TR_ERR_CNT
  | .TR_BIT_LO_COUNT => .TR_BIT_LO
  | .TR_BIT_HI_COUNT => .TR_BIT_HI
  | .PG_CFG_BUDGET => .PG_CFG
  | .PG_CFG_RAMP => .PG_CFG
  | .PG_CFG_TIMEOUT => .PG_CFG
  | .PG_STAT_HELD => .PG_STAT
  | .PG_STAT_QUEUE => .PG_STAT
  | .PG_STAT_HEAD_UNITS => .PG_STAT
  | .PG_STAT_HEAD_OP => .PG_STAT
  | .PG_TO_CNT_COUNT => .PG_TO_CNT
  | .PG_GRANT_CNT_COUNT => .PG_GRANT_CNT
  | .PG_ERR_OVERSIZE => .PG_ERR
  | .PG_ERR_OP => .PG_ERR
  | .PG_ERR_UNITS => .PG_ERR
  | .PG_ERR_VALID => .PG_ERR
  | .TEL_STAT_TEMP => .TEL_STAT
  | .TEL_STAT_VCORE => .TEL_STAT
  | .TEL_STAT_ICORE => .TEL_STAT
  | .TEL_STAT_TWARN_HIT => .TEL_STAT
  | .TEL_CTL_TWARN => .TEL_CTL
  | .TEL_LIFE_PPM => .TEL_LIFE
  | .TEL_HOURS_HOURS => .TEL_HOURS
  | .PEL_CTL_CMD => .PEL_CTL
  | .PEL_ADDR_LO_ADDR => .PEL_ADDR_LO
  | .PEL_ADDR_HI_ADDR => .PEL_ADDR_HI
  | .PEL_DATA_LO_DATA => .PEL_DATA_LO
  | .PEL_DATA_HI_DATA => .PEL_DATA_HI
  | .PEL_STAT_BUSY => .PEL_STAT
  | .PEL_STAT_STATUS => .PEL_STAT
  | .PEL_AUTH_CMD => .PEL_AUTH
  | .PEL_AUTH_LEVEL => .PEL_AUTH
  | .PEL_AUTH_DATA_DATA => .PEL_AUTH_DATA
  | .PEL_AUTH_STAT_BUSY => .PEL_AUTH_STAT
  | .PEL_AUTH_STAT_OK => .PEL_AUTH_STAT
  | .PEL_BOOTHALT_MASK => .PEL_BOOTHALT
  | .PEL_RST_CMD => .PEL_RST

/-- Where each register lies: its space, its offset there, and (stride, count) for each index. -/
def Reg.place : Reg → Space × Nat × List (Nat × Nat)
  | .HUB_ID => (.hub, 0x0, [])
  | .HUB_DIE_STATE => (.hub, 0x100, [(0x4, 8)])
  | .HUB_PERSONALITY => (.hub, 0x140, [])
  | .FIX_CFG => (.hub, 0x200, [(0x8, 16)])
  | .FIX_STAT => (.hub, 0x204, [(0x8, 16)])
  | .HBM_ILV => (.hub, 0x300, [])
  | .CLK_SRC => (.hub, 0x1000, [])
  | .CLK_MON => (.hub, 0x1004, [])
  | .CLK_SSC => (.hub, 0x1008, [])
  | .CLKOUT_CTL => (.hub, 0x1010, [(0x4, 2)])
  | .SPN_SYN => (.hub, 0x1040, [(0x4, 8)])
  | .PWR_DIE_CTL => (.hub, 0x2000, [(0x8, 8)])
  | .PWR_DIE_STAT => (.hub, 0x2004, [(0x8, 8)])
  | .PWR_HUB_STAT => (.hub, 0x2040, [])
  | .RST_UNLOCK => (.hub, 0x4000, [])
  | .RST_CMD => (.hub, 0x4004, [])
  | .RST_CAUSE => (.hub, 0x4008, [])
  | .RST_DIE_CTL => (.hub, 0x4100, [(0x8, 8)])
  | .RST_DIE_STAT => (.hub, 0x4104, [(0x8, 8)])
  | .BOOT_STAT => (.hub, 0x5000, [])
  | .BOOT_CFG => (.hub, 0x5004, [])
  | .LS_RCV_CTL => (.hub, 0x6000, [])
  | .LS_RCV_DATA => (.hub, 0x6004, [])
  | .LS_RCV_STAT => (.hub, 0x6008, [])
  | .HIF_CFG_FN => (.hub, 0x100010, [])
  | .HIF_QP_ASSIGN => (.hub, 0x104000, [(0x4, 1024)])
  | .HIF_FN_CTL => (.hub, 0x101000, [(0x40, 8)])
  | .HIF_FN_STAT => (.hub, 0x101004, [(0x40, 8)])
  | .HIF_BAR4 => (.hub, 0x101008, [(0x40, 8)])
  | .HIF_FN_FAB => (.hub, 0x10100c, [(0x40, 8)])
  | .HIF_ENG_ASSIGN => (.hub, 0x101010, [(0x40, 8), (0x4, 3)])
  | .HIF_QP_SQ_LO => (.hub, 0x180000, [(0x40, 1024)])
  | .HIF_QP_SQ_HI => (.hub, 0x180004, [(0x40, 1024)])
  | .HIF_QP_CQ_LO => (.hub, 0x180008, [(0x40, 1024)])
  | .HIF_QP_CQ_HI => (.hub, 0x18000c, [(0x40, 1024)])
  | .HIF_QP_CTL => (.hub, 0x180010, [(0x40, 1024)])
  | .HIF_QP_STAT => (.hub, 0x180014, [(0x40, 1024)])
  | .HIF_QP_HEAD => (.hub, 0x180018, [(0x40, 1024)])
  | .HIF_QP_IRQ => (.hub, 0x18001c, [(0x40, 1024)])
  | .HIF_QP_DONE_CNT => (.hub, 0x180020, [(0x40, 1024)])
  | .SX_CTL => (.hub, 0x200000, [])
  | .SX_STAT => (.hub, 0x200004, [])
  | .SX_TIME_FRAC => (.hub, 0x200010, [])
  | .SX_TIME_NS => (.hub, 0x200014, [])
  | .SX_TIME_SL => (.hub, 0x200018, [])
  | .SX_TIME_SH => (.hub, 0x20001c, [])
  | .SX_ADJ => (.hub, 0x200020, [])
  | .SX_STEP_NS_LO => (.hub, 0x200030, [])
  | .SX_STEP_NS_HI => (.hub, 0x200034, [])
  | .SX_STEP_FRAC => (.hub, 0x200038, [])
  | .SX_STEP_CMD => (.hub, 0x20003c, [])
  | .SX_STEP_THR => (.hub, 0x200040, [])
  | .SX_PPS => (.hub, 0x200044, [])
  | .SX_MEAS_OFS_LO => (.hub, 0x200050, [])
  | .SX_MEAS_OFS_HI => (.hub, 0x200054, [])
  | .SX_MEAS_MPD_LO => (.hub, 0x200058, [])
  | .SX_MEAS_MPD_HI => (.hub, 0x20005c, [])
  | .SX_MEAS_SEQ => (.hub, 0x200060, [])
  | .SX_PORT_CFG => (.hub, 0x201000, [(0x100, 2)])
  | .SX_PORT_STAT => (.hub, 0x201004, [(0x100, 2)])
  | .SX_PORT_EASYM => (.hub, 0x201008, [(0x100, 2)])
  | .SX_PORT_IASYM => (.hub, 0x20100c, [(0x100, 2)])
  | .SX_PORT_PDELAY => (.hub, 0x201010, [(0x100, 2)])
  | .SX_TXQ_ID => (.hub, 0x201020, [(0x100, 2)])
  | .SX_TXQ_FRAC => (.hub, 0x201024, [(0x100, 2)])
  | .SX_TXQ_NS => (.hub, 0x201028, [(0x100, 2)])
  | .SX_TXQ_SL => (.hub, 0x20102c, [(0x100, 2)])
  | .SX_TXQ_SH => (.hub, 0x201030, [(0x100, 2)])
  | .SX_TXQ_CTL => (.hub, 0x201034, [(0x100, 2)])
  | .SX_TXQ_LOST_CNT => (.hub, 0x201038, [(0x100, 2)])
  | .LS_STAT => (.hub, 0x300000, [])
  | .LS_ARB => (.hub, 0x300010, [(0x4, 8)])
  | .LS_SVN => (.hub, 0x300030, [(0x4, 8)])
  | .LS_DBG_STAT => (.hub, 0x300050, [])
  | .LS_ERR => (.hub, 0x300060, [])
  | .LS_VER_CNT => (.hub, 0x300064, [])
  | .EVT_CTL => (.hub, 0x400000, [])
  | .EVT_NEXT => (.hub, 0x400004, [])
  | .EVT_ACK => (.hub, 0x400008, [])
  | .EVT_LOST_CNT => (.hub, 0x40000c, [])
  | .EVT_INFO_CNT => (.hub, 0x400010, [])
  | .MGMT_HEALTH => (.hub, 0x400100, [(0x4, 9)])
  | .HELM_CORE_CTL => (.hub, 0x500000, [(0x100, 8)])
  | .HELM_CORE_STAT => (.hub, 0x500004, [(0x100, 8)])
  | .HELM_WDT_CTL => (.hub, 0x500010, [(0x100, 8)])
  | .HELM_WDT_LOAD => (.hub, 0x500014, [(0x100, 8)])
  | .HELM_WDT_CNT => (.hub, 0x500018, [(0x100, 8)])
  | .HELM_WDT_KICK => (.hub, 0x50001c, [(0x100, 8)])
  | .HELM_WDT_UNLOCK => (.hub, 0x500020, [(0x100, 8)])
  | .HELM_DBG_CTL => (.hub, 0x500030, [(0x100, 8)])
  | .HELM_DBG_STAT => (.hub, 0x500034, [(0x100, 8)])
  | .HELM_DBG_CMD => (.hub, 0x500038, [(0x100, 8)])
  | .HELM_DBG_ACC => (.hub, 0x500040, [(0x100, 8)])
  | .HELM_DBG_ACC_LO => (.hub, 0x500044, [(0x100, 8)])
  | .HELM_DBG_ACC_HI => (.hub, 0x500048, [(0x100, 8)])
  | .HELM_MBX_REQ_LO => (.hub, 0x500060, [(0x100, 8)])
  | .HELM_MBX_REQ_HI => (.hub, 0x500064, [(0x100, 8)])
  | .HELM_MBX_RSP_LO => (.hub, 0x500068, [(0x100, 8)])
  | .HELM_MBX_RSP_HI => (.hub, 0x50006c, [(0x100, 8)])
  | .HELM_MBX_LEN => (.hub, 0x500070, [(0x100, 8)])
  | .HELM_MBX_CTL => (.hub, 0x500074, [(0x100, 8)])
  | .HELM_BOOT_LO => (.hub, 0x500800, [])
  | .HELM_BOOT_HI => (.hub, 0x500804, [])
  | .HELM_BOOT_AUTO => (.hub, 0x500808, [])
  | .HELM_PATCH_ADDR => (.hub, 0x501000, [(0x100, 8), (0x8, 16)])
  | .HELM_PATCH_DATA => (.hub, 0x501004, [(0x100, 8), (0x8, 16)])
  | .HELM_IC_SRC => (.hub, 0x504000, [(0x4, 512)])
  | .HELM_IC_PEND => (.hub, 0x504800, [(0x4, 16)])
  | .HELM_IC_SET => (.hub, 0x504840, [])
  | .HELM_IC_THR => (.hub, 0x504900, [(0x8, 8)])
  | .HELM_IC_CLAIM => (.hub, 0x504904, [(0x8, 8)])
  | .RCW_BASE_LO => (.hub, 0x8c0000, [(0x10, 16)])
  | .RCW_BASE_HI => (.hub, 0x8c0004, [(0x10, 16)])
  | .RCW_SIZE => (.hub, 0x8c0008, [(0x10, 16)])
  | .RCW_CTL => (.hub, 0x8c000c, [(0x10, 16)])
  | .CFG_STATUS => (.die, 0x20000, [])
  | .CFG_ERR => (.die, 0x20004, [])
  | .CFG_ERR_FAR => (.die, 0x20008, [])
  | .SCRUB_CTL => (.die, 0x20010, [])
  | .SCRUB_STAT => (.die, 0x20014, [])
  | .SCRUB_COR_CNT => (.die, 0x20018, [])
  | .SCRUB_UNC_CNT => (.die, 0x2001c, [])
  | .SEC_CTL => (.die, 0x21000, [(0x40, 40)])
  | .SEC_STATUS => (.die, 0x21004, [(0x40, 40)])
  | .SEC_COLMAP => (.die, 0x21008, [(0x40, 40)])
  | .SEC_SPAN => (.die, 0x2100c, [(0x40, 40)])
  | .SEC_SPAN_CNT => (.die, 0x21010, [(0x40, 40)])
  | .MEM_ECC => (.die, 0xe0000, [(0x40, 40)])
  | .MEM_SBE_CNT => (.die, 0xe0004, [(0x40, 40)])
  | .MEM_DBE_CNT => (.die, 0xe0008, [(0x40, 40)])
  | .RKN_STAT => (.die, 0xe000c, [(0x40, 40)])
  | .RKN_LATE_CNT => (.die, 0xe0010, [(0x40, 40)])
  | .HARD_MAP => (.die, 0xe0014, [(0x40, 40)])
  | .FCLK_GSEL => (.die, 0x1c0100, [(0x4, 16)])
  | .FCLK_RSEL => (.die, 0x1c0200, [(0x4, 48)])
  | .FSYN_CTL => (.die, 0x1c0000, [(0x20, 4)])
  | .FSYN_FREQ => (.die, 0x1c0004, [(0x20, 4), (0x4, 4)])
  | .FVS_CTL => (.die, 0x1c0080, [])
  | .FVS_STAT => (.die, 0x1c0084, [])
  | .RC_CTL => (.die, 0xa0000, [])
  | .RC_STAT => (.die, 0xa0004, [])
  | .RC_CMD => (.die, 0xa0008, [])
  | .RC_CMD_BASE_LO => (.die, 0xa000c, [])
  | .RC_CMD_BASE_HI => (.die, 0xa0010, [])
  | .RC_CMD_LEN => (.die, 0xa0014, [])
  | .RC_HIT_CNT => (.die, 0xa0020, [])
  | .RC_MISS_CNT => (.die, 0xa0024, [])
  | .RC_WB_CNT => (.die, 0xa0028, [])
  | .RC_SNP_CNT => (.die, 0xa002c, [])
  | .RC_ECC_CNT => (.die, 0xa0030, [])
  | .RC_POISON_CNT => (.die, 0xa0034, [])
  | .HA_STAT => (.die, 0xa1000, [])
  | .HA_BACKINV_CNT => (.die, 0xa1004, [])
  | .HA_POISON_CNT => (.die, 0xa1008, [])
  | .HBM_CTL => (.stk, 0x140000, [])
  | .HBM_STAT => (.stk, 0x140004, [])
  | .HBM_ARB => (.stk, 0x140008, [])
  | .HBM_REF => (.stk, 0x14000c, [])
  | .HBM_RH => (.stk, 0x140010, [])
  | .HBM_TRAIN => (.stk, 0x140014, [])
  | .HBM_SCRUB => (.stk, 0x140018, [])
  | .HBM_HASH => (.stk, 0x140020, [(0x4, 9)])
  | .HBM_QOS_TARGET => (.stk, 0x140100, [(0x4, 16)])
  | .HBM_ERR => (.stk, 0x140200, [])
  | .HBM_ERR_ADDR_LO => (.stk, 0x140204, [])
  | .HBM_ERR_ADDR_HI => (.stk, 0x140208, [])
  | .HBM_CH_STAT => (.stk, 0x141000, [(0x100, 16)])
  | .HBM_CH_COR_CNT => (.stk, 0x141004, [(0x100, 16)])
  | .HBM_CH_UNC_CNT => (.stk, 0x141008, [(0x100, 16)])
  | .HBM_CH_PAR_CNT => (.stk, 0x14100c, [(0x100, 16)])
  | .HBM_CH_RFM_CNT => (.stk, 0x141010, [(0x100, 16)])
  | .HBM_CH_NBR_CNT => (.stk, 0x141014, [(0x100, 16)])
  | .HBM_CH_ACT_CNT => (.stk, 0x141018, [(0x100, 16)])
  | .SEAL_CTL => (.stk, 0x180000, [])
  | .SEAL_STAT => (.stk, 0x180004, [])
  | .SEAL_KEY => (.stk, 0x180008, [])
  | .SEAL_INTEG => (.stk, 0x18000c, [])
  | .SEAL_ERR => (.stk, 0x180010, [])
  | .SEAL_ERR_ADDR_LO => (.stk, 0x180014, [])
  | .SEAL_ERR_ADDR_HI => (.stk, 0x180018, [])
  | .SEAL_MAC_CNT => (.stk, 0x180020, [])
  | .SEAL_NODE_CNT => (.stk, 0x180024, [])
  | .SEAL_LOST_CNT => (.stk, 0x180028, [])
  | .SEAL_DENY_CNT => (.stk, 0x18002c, [])
  | .SEAL_OVF_CNT => (.stk, 0x180030, [])
  | .SEAL_CC_MISS_CNT => (.stk, 0x180034, [])
  | .SEAL_BASE => (.stk, 0x181000, [(0x40, 16)])
  | .SEAL_SIZE => (.stk, 0x181004, [(0x40, 16)])
  | .SEAL_MBASE => (.stk, 0x181008, [(0x40, 16)])
  | .SEAL_RCTL => (.stk, 0x18100c, [(0x40, 16)])
  | .SEAL_RSTAT => (.stk, 0x181010, [(0x40, 16)])
  | .SEAL_POS => (.stk, 0x181014, [(0x40, 16)])
  | .SEAL_GRANT_ENG => (.stk, 0x181018, [(0x40, 16), (0x4, 3)])
  | .SEAL_GRANT_OTH => (.stk, 0x181024, [(0x40, 16)])
  | .SEAL_HWM_LO => (.stk, 0x181028, [(0x40, 16)])
  | .SEAL_HWM_HI => (.stk, 0x18102c, [(0x40, 16)])
  | .ENG_CTL => (.eng, 0x0, [])
  | .ENG_STATUS => (.eng, 0x4, [])
  | .ENG_FAULT => (.eng, 0x8, [])
  | .ENG_PC => (.eng, 0xc, [])
  | .ENG_OUT => (.eng, 0x10, [])
  | .ENG_AFMT => (.eng, 0x14, [])
  | .ENG_VFMT => (.eng, 0x18, [])
  | .ENG_PMASK => (.eng, 0x1c, [])
  | .ENG_CMASK => (.eng, 0x20, [])
  | .ENG_LFSR_LO => (.eng, 0x24, [])
  | .ENG_LFSR_HI => (.eng, 0x28, [])
  | .ENG_TTRIG_NS => (.eng, 0x30, [])
  | .ENG_TTRIG_SL => (.eng, 0x34, [])
  | .ENG_TTRIG_SH => (.eng, 0x38, [])
  | .ENG_TMR_PERIOD => (.eng, 0x40, [])
  | .ENG_TMR_VEC => (.eng, 0x44, [])
  | .ENG_STRM_ADDR_LO => (.eng, 0x50, [])
  | .ENG_STRM_ADDR_HI => (.eng, 0x54, [])
  | .ENG_STRM_LEN => (.eng, 0x58, [])
  | .ENG_STRM_CTL => (.eng, 0x5c, [])
  | .ENG_STRM_POS => (.eng, 0x60, [])
  | .ENG_GEN_B => (.eng, 0x80, [(0x10, 4)])
  | .ENG_GEN_E => (.eng, 0x84, [(0x10, 4)])
  | .ENG_GEN_S => (.eng, 0x88, [(0x10, 4)])
  | .ENG_GEN_V => (.eng, 0x8c, [(0x10, 4)])
  | .ENG_LREL => (.eng, 0xc0, [(0x4, 8)])
  | .ENG_LCNT => (.eng, 0xe0, [(0x4, 8)])
  | .ENG_STEPS_LO => (.eng, 0x100, [])
  | .ENG_STEPS_HI => (.eng, 0x104, [])
  | .ENG_STALL => (.eng, 0x108, [])
  | .ENG_PERMIT => (.eng, 0x10c, [])
  | .FC_CTL => (.eng, 0x1000, [])
  | .FC_STATUS => (.eng, 0x1004, [])
  | .FC_LANES => (.eng, 0x1008, [])
  | .FC_RX => (.eng, 0x100c, [])
  | .FC_TX => (.eng, 0x1010, [])
  | .FC_RSP_TO => (.eng, 0x1014, [])
  | .FC_REC_MAX => (.eng, 0x1018, [])
  | .FC_RING_BASE_LO => (.eng, 0x1020, [])
  | .FC_RING_BASE_HI => (.eng, 0x1024, [])
  | .FC_RING_SIZE => (.eng, 0x1028, [])
  | .FC_RING_WR => (.eng, 0x102c, [])
  | .FC_RING_RD => (.eng, 0x1030, [])
  | .FC_BM_ROW => (.eng, 0x1034, [])
  | .FC_BM_COL => (.eng, 0x1038, [])
  | .FC_CMP_LO => (.eng, 0x1040, [])
  | .FC_CMP_HI => (.eng, 0x1044, [])
  | .FC_FAIL_CNT => (.eng, 0x1048, [])
  | .FC_UNCHK_CNT => (.eng, 0x104c, [])
  | .FC_DROP_CNT => (.eng, 0x1050, [])
  | .FC_GAP_CNT => (.eng, 0x1054, [])
  | .FC_RUN => (.eng, 0x1058, [])
  | .FC_SLICE_FAIL => (.eng, 0x1060, [(0x4, 4)])
  | .NOC_RTR_PORT => (.rtr, 0x0, [])
  | .NOC_RTR_ARB => (.rtr, 0x4, [])
  | .NOC_RTR_ERR => (.rtr, 0x8, [])
  | .NOC_RTR_VC => (.rtr, 0x10, [(0x4, 8)])
  | .NOC_RTR_CORCNT => (.rtr, 0x30, [])
  | .NOC_RTR_UNCCNT => (.rtr, 0x34, [])
  | .NOC_RTR_BOUNCE => (.rtr, 0x38, [])
  | .NOC_DRAIN => (.noc, 0x7f00, [])
  | .NOC_STALL => (.noc, 0x7f04, [])
  | .NOC_NI_ID => (.ni, 0x0, [])
  | .NOC_NI_CTL => (.ni, 0x4, [])
  | .NOC_NI_BSEL => (.ni, 0x8, [])
  | .NOC_NI_BDATA => (.ni, 0x10, [(0x4, 4)])
  | .NOC_NI_BOUNCE_CNT => (.ni, 0x20, [])
  | .NOC_NI_ALT_CNT => (.ni, 0x24, [])
  | .NOC_NI_FAIL_CNT => (.ni, 0x28, [])
  | .NOC_NI_CRC_CNT => (.ni, 0x2c, [])
  | .NOC_NI_TO_CNT => (.ni, 0x30, [])
  | .NOC_NI_ERR => (.ni, 0x34, [])
  | .GK_CTL => (.gk, 0x0, [])
  | .GK_ROLE => (.gk, 0x4, [])
  | .GK_STAT => (.gk, 0x8, [])
  | .GK_HEALTH => (.gk, 0xc, [])
  | .GK_ARB => (.gk, 0x10, [(0x4, 2)])
  | .GK_XERR_CNT => (.gk, 0x18, [])
  | .GK_GRP_STAT => (.gk, 0x1000, [(0x100, 96)])
  | .GK_GRP_CRC_CNT => (.gk, 0x1004, [(0x100, 96)])
  | .GK_GRP_REPLAY_CNT => (.gk, 0x1008, [(0x100, 96)])
  | .GK_LANE_MCNT => (.gk, 0x1040, [(0x100, 96), (0x4, 34)])
  | .CL_BND_CTL => (.bnd, 0x0, [])
  | .CL_BND_TRN => (.bnd, 0x4, [])
  | .CL_BND_STAT => (.bnd, 0x8, [])
  | .CL_CTL => (.lane, 0x0, [])
  | .CL_TIM => (.lane, 0x4, [])
  | .CL_PRBS => (.lane, 0x8, [])
  | .CL_SLIP => (.lane, 0xc, [])
  | .CL_STAT => (.lane, 0x10, [])
  | .CL_LOOP => (.lane, 0x14, [])
  | .CL_ERR_CNT => (.lane, 0x18, [])
  | .CL_BIT_LO => (.lane, 0x1c, [])
  | .CL_BIT_HI => (.lane, 0x20, [])
  | .TR_CTL => (.trk, 0x0, [])
  | .TR_RATE => (.trk, 0x4, [])
  | .TR_FFE => (.trk, 0x8, [])
  | .TR_PRBS => (.trk, 0xc, [])
  | .TR_STAT => (.trk, 0x10, [])
  | .TR_ERR_CNT => (.trk, 0x14, [])
  | .TR_BIT_LO => (.trk, 0x18, [])
  | .TR_BIT_HI => (.trk, 0x1c, [])
  | .PG_CFG => (.gov, 0x0, [])
  | .PG_STAT => (.gov, 0x4, [])
  | .PG_TO_CNT => (.gov, 0x8, [])
  | .PG_GRANT_CNT => (.gov, 0xc, [])
  | .PG_ERR => (.gov, 0x10, [])
  | .TEL_STAT => (.tel, 0x0, [])
  | .TEL_CTL => (.tel, 0x4, [])
  | .TEL_LIFE => (.tel, 0x8, [])
  | .TEL_HOURS => (.tel, 0x10, [(0x4, 4)])
  | .PEL_CTL => (.pel, 0x0, [])
  | .PEL_ADDR_LO => (.pel, 0x4, [])
  | .PEL_ADDR_HI => (.pel, 0x8, [])
  | .PEL_DATA_LO => (.pel, 0xc, [])
  | .PEL_DATA_HI => (.pel, 0x10, [])
  | .PEL_STAT => (.pel, 0x14, [])
  | .PEL_AUTH => (.pel, 0x20, [])
  | .PEL_AUTH_DATA => (.pel, 0x24, [])
  | .PEL_AUTH_STAT => (.pel, 0x28, [])
  | .PEL_BOOTHALT => (.pelsh, 0x30, [])
  | .PEL_RST => (.pelsh, 0x34, [])

/-- Every register, in the order of the map. -/
def Reg.all : List Reg :=
  List.flatten [
  [.HUB_ID, .HUB_DIE_STATE, .HUB_PERSONALITY, .FIX_CFG, .FIX_STAT, .HBM_ILV, .CLK_SRC, .CLK_MON],
  [.CLK_SSC, .CLKOUT_CTL, .SPN_SYN, .PWR_DIE_CTL, .PWR_DIE_STAT, .PWR_HUB_STAT, .RST_UNLOCK, .RST_CMD],
  [.RST_CAUSE, .RST_DIE_CTL, .RST_DIE_STAT, .BOOT_STAT, .BOOT_CFG, .LS_RCV_CTL, .LS_RCV_DATA, .LS_RCV_STAT],
  [.HIF_CFG_FN, .HIF_QP_ASSIGN, .HIF_FN_CTL, .HIF_FN_STAT, .HIF_BAR4, .HIF_FN_FAB, .HIF_ENG_ASSIGN, .HIF_QP_SQ_LO],
  [.HIF_QP_SQ_HI, .HIF_QP_CQ_LO, .HIF_QP_CQ_HI, .HIF_QP_CTL, .HIF_QP_STAT, .HIF_QP_HEAD, .HIF_QP_IRQ, .HIF_QP_DONE_CNT],
  [.SX_CTL, .SX_STAT, .SX_TIME_FRAC, .SX_TIME_NS, .SX_TIME_SL, .SX_TIME_SH, .SX_ADJ, .SX_STEP_NS_LO],
  [.SX_STEP_NS_HI, .SX_STEP_FRAC, .SX_STEP_CMD, .SX_STEP_THR, .SX_PPS, .SX_MEAS_OFS_LO, .SX_MEAS_OFS_HI, .SX_MEAS_MPD_LO],
  [.SX_MEAS_MPD_HI, .SX_MEAS_SEQ, .SX_PORT_CFG, .SX_PORT_STAT, .SX_PORT_EASYM, .SX_PORT_IASYM, .SX_PORT_PDELAY, .SX_TXQ_ID],
  [.SX_TXQ_FRAC, .SX_TXQ_NS, .SX_TXQ_SL, .SX_TXQ_SH, .SX_TXQ_CTL, .SX_TXQ_LOST_CNT, .LS_STAT, .LS_ARB],
  [.LS_SVN, .LS_DBG_STAT, .LS_ERR, .LS_VER_CNT, .EVT_CTL, .EVT_NEXT, .EVT_ACK, .EVT_LOST_CNT],
  [.EVT_INFO_CNT, .MGMT_HEALTH, .HELM_CORE_CTL, .HELM_CORE_STAT, .HELM_WDT_CTL, .HELM_WDT_LOAD, .HELM_WDT_CNT, .HELM_WDT_KICK],
  [.HELM_WDT_UNLOCK, .HELM_DBG_CTL, .HELM_DBG_STAT, .HELM_DBG_CMD, .HELM_DBG_ACC, .HELM_DBG_ACC_LO, .HELM_DBG_ACC_HI, .HELM_MBX_REQ_LO],
  [.HELM_MBX_REQ_HI, .HELM_MBX_RSP_LO, .HELM_MBX_RSP_HI, .HELM_MBX_LEN, .HELM_MBX_CTL, .HELM_BOOT_LO, .HELM_BOOT_HI, .HELM_BOOT_AUTO],
  [.HELM_PATCH_ADDR, .HELM_PATCH_DATA, .HELM_IC_SRC, .HELM_IC_PEND, .HELM_IC_SET, .HELM_IC_THR, .HELM_IC_CLAIM, .RCW_BASE_LO],
  [.RCW_BASE_HI, .RCW_SIZE, .RCW_CTL, .CFG_STATUS, .CFG_ERR, .CFG_ERR_FAR, .SCRUB_CTL, .SCRUB_STAT],
  [.SCRUB_COR_CNT, .SCRUB_UNC_CNT, .SEC_CTL, .SEC_STATUS, .SEC_COLMAP, .SEC_SPAN, .SEC_SPAN_CNT, .MEM_ECC],
  [.MEM_SBE_CNT, .MEM_DBE_CNT, .RKN_STAT, .RKN_LATE_CNT, .HARD_MAP, .FCLK_GSEL, .FCLK_RSEL, .FSYN_CTL],
  [.FSYN_FREQ, .FVS_CTL, .FVS_STAT, .RC_CTL, .RC_STAT, .RC_CMD, .RC_CMD_BASE_LO, .RC_CMD_BASE_HI],
  [.RC_CMD_LEN, .RC_HIT_CNT, .RC_MISS_CNT, .RC_WB_CNT, .RC_SNP_CNT, .RC_ECC_CNT, .RC_POISON_CNT, .HA_STAT],
  [.HA_BACKINV_CNT, .HA_POISON_CNT, .HBM_CTL, .HBM_STAT, .HBM_ARB, .HBM_REF, .HBM_RH, .HBM_TRAIN],
  [.HBM_SCRUB, .HBM_HASH, .HBM_QOS_TARGET, .HBM_ERR, .HBM_ERR_ADDR_LO, .HBM_ERR_ADDR_HI, .HBM_CH_STAT, .HBM_CH_COR_CNT],
  [.HBM_CH_UNC_CNT, .HBM_CH_PAR_CNT, .HBM_CH_RFM_CNT, .HBM_CH_NBR_CNT, .HBM_CH_ACT_CNT, .SEAL_CTL, .SEAL_STAT, .SEAL_KEY],
  [.SEAL_INTEG, .SEAL_ERR, .SEAL_ERR_ADDR_LO, .SEAL_ERR_ADDR_HI, .SEAL_MAC_CNT, .SEAL_NODE_CNT, .SEAL_LOST_CNT, .SEAL_DENY_CNT],
  [.SEAL_OVF_CNT, .SEAL_CC_MISS_CNT, .SEAL_BASE, .SEAL_SIZE, .SEAL_MBASE, .SEAL_RCTL, .SEAL_RSTAT, .SEAL_POS],
  [.SEAL_GRANT_ENG, .SEAL_GRANT_OTH, .SEAL_HWM_LO, .SEAL_HWM_HI, .ENG_CTL, .ENG_STATUS, .ENG_FAULT, .ENG_PC],
  [.ENG_OUT, .ENG_AFMT, .ENG_VFMT, .ENG_PMASK, .ENG_CMASK, .ENG_LFSR_LO, .ENG_LFSR_HI, .ENG_TTRIG_NS],
  [.ENG_TTRIG_SL, .ENG_TTRIG_SH, .ENG_TMR_PERIOD, .ENG_TMR_VEC, .ENG_STRM_ADDR_LO, .ENG_STRM_ADDR_HI, .ENG_STRM_LEN, .ENG_STRM_CTL],
  [.ENG_STRM_POS, .ENG_GEN_B, .ENG_GEN_E, .ENG_GEN_S, .ENG_GEN_V, .ENG_LREL, .ENG_LCNT, .ENG_STEPS_LO],
  [.ENG_STEPS_HI, .ENG_STALL, .ENG_PERMIT, .FC_CTL, .FC_STATUS, .FC_LANES, .FC_RX, .FC_TX],
  [.FC_RSP_TO, .FC_REC_MAX, .FC_RING_BASE_LO, .FC_RING_BASE_HI, .FC_RING_SIZE, .FC_RING_WR, .FC_RING_RD, .FC_BM_ROW],
  [.FC_BM_COL, .FC_CMP_LO, .FC_CMP_HI, .FC_FAIL_CNT, .FC_UNCHK_CNT, .FC_DROP_CNT, .FC_GAP_CNT, .FC_RUN],
  [.FC_SLICE_FAIL, .NOC_RTR_PORT, .NOC_RTR_ARB, .NOC_RTR_ERR, .NOC_RTR_VC, .NOC_RTR_CORCNT, .NOC_RTR_UNCCNT, .NOC_RTR_BOUNCE],
  [.NOC_DRAIN, .NOC_STALL, .NOC_NI_ID, .NOC_NI_CTL, .NOC_NI_BSEL, .NOC_NI_BDATA, .NOC_NI_BOUNCE_CNT, .NOC_NI_ALT_CNT],
  [.NOC_NI_FAIL_CNT, .NOC_NI_CRC_CNT, .NOC_NI_TO_CNT, .NOC_NI_ERR, .GK_CTL, .GK_ROLE, .GK_STAT, .GK_HEALTH],
  [.GK_ARB, .GK_XERR_CNT, .GK_GRP_STAT, .GK_GRP_CRC_CNT, .GK_GRP_REPLAY_CNT, .GK_LANE_MCNT, .CL_BND_CTL, .CL_BND_TRN],
  [.CL_BND_STAT, .CL_CTL, .CL_TIM, .CL_PRBS, .CL_SLIP, .CL_STAT, .CL_LOOP, .CL_ERR_CNT],
  [.CL_BIT_LO, .CL_BIT_HI, .TR_CTL, .TR_RATE, .TR_FFE, .TR_PRBS, .TR_STAT, .TR_ERR_CNT],
  [.TR_BIT_LO, .TR_BIT_HI, .PG_CFG, .PG_STAT, .PG_TO_CNT, .PG_GRANT_CNT, .PG_ERR, .TEL_STAT],
  [.TEL_CTL, .TEL_LIFE, .TEL_HOURS, .PEL_CTL, .PEL_ADDR_LO, .PEL_ADDR_HI, .PEL_DATA_LO, .PEL_DATA_HI],
  [.PEL_STAT, .PEL_AUTH, .PEL_AUTH_DATA, .PEL_AUTH_STAT, .PEL_BOOTHALT, .PEL_RST]]

/-- The default masks of the HBM address hash (R237). -/
def hashDefault : Nat → Nat
  | 0 => 0x00880200 / 64
  | 1 => 0x01100400 / 64
  | 2 => 0x02200800 / 64
  | 3 => 0x04401000 / 64
  | 4 => 0x08000100 / 64
  | 5 => 0x10002000 / 64
  | 6 => 0x20004000 / 64
  | 7 => 0x40008000 / 64
  | 8 => 0x80010000 / 64
  | _ => 0

/-- The reset value of field `f` of the instance `i` (R6). Three registers have values that depend on the instance:
the governors' budgets (R391, R400; governors 0 to 7 are the core governors, 8 the hub's, 9 to 12 the HBM governors of
M0 to M3) and the hash masks (R237). -/
def Fld.reset (f : Fld) (i : List Nat) : Nat :=
  if f = .PG_CFG_BUDGET then (if i.headD 0 < 8 then 110 else if i.headD 0 = 8 then 60 else 40)
  else if f = .HBM_HASH_MASK then hashDefault (i.getD 1 0)
  else f.spec.rst

end Sys2Proof.Machine
end

