-- ==== Sys2Proof/Machine/SMap.lean ====
section
/-! DEFINITION. Sparse tables: lists of (key, value) in ONE canonical form, keys strictly rising and no entry equal to
what an unlisted key reads as. Registers, the blocks' own state and the event log are kept in such tables; so equal
contents are equal lists. -/

namespace Sys2Proof.Machine

/-- A key: the numbers that name one instance. -/
abbrev Key := List Nat

/-- Lexicographic order of keys. -/
def keyLt : Key → Key → Bool
  | [], [] => false
  | [], _ :: _ => true
  | _ :: _, [] => false
  | a :: as, b :: bs => a < b || (a == b && keyLt as bs)

/-- A sparse table. -/
abbrev SMap (α : Type) := List (Key × α)

/-- The value listed at `k`, or `d` where none is listed. -/
def smGet {α : Type} (m : SMap α) (k : Key) (d : α) : α :=
  match m with
  | [] => d
  | (k', v) :: r => if k' = k then v else smGet r k d

/-- Drop the entry at `k`. -/
def smDrop {α : Type} (m : SMap α) (k : Key) : SMap α :=
  match m with
  | [] => []
  | (k', v) :: r => if k' = k then smDrop r k else (k', v) :: smDrop r k

/-- Put an entry at its place in the order. -/
def smIns {α : Type} (m : SMap α) (k : Key) (v : α) : SMap α :=
  match m with
  | [] => [(k, v)]
  | (k', v') :: r => if keyLt k k' then (k, v) :: (k', v') :: r else (k', v') :: smIns r k v

/-- Write `v` at `k`; `d` is what `k` reads as when it is not listed. -/
def smPut {α : Type} [DecidableEq α] (m : SMap α) (k : Key) (v d : α) : SMap α :=
  if v = d then smDrop m k else smIns (smDrop m k) k v

/-- Keys strictly rising. -/
def smSorted {α : Type} : SMap α → Bool
  | [] => true
  | [_] => true
  | a :: b :: r => keyLt a.1 b.1 && smSorted (b :: r)

/-- The canonical form: keys strictly rising, no entry equal to its default. -/
def smWf {α : Type} [DecidableEq α] (m : SMap α) (dflt : Key → α) : Bool :=
  smSorted m && m.all (fun e => !decide (e.2 = dflt e.1))

/-- Keep the entries whose key satisfies `p`. -/
def smKeep {α : Type} (m : SMap α) (p : Key → Bool) : SMap α := m.filter (fun e => p e.1)

/-! Byte memories: the same canonical form over one address. -/

/-- The byte listed at `a`, or `d`. -/
def memGet (m : List (Nat × Byte)) (a : Nat) (d : Byte) : Byte :=
  match m with
  | [] => d
  | (a', v) :: r => if a' = a then v else memGet r a d

/-- Drop the entry at `a`. -/
def memDrop (m : List (Nat × Byte)) (a : Nat) : List (Nat × Byte) :=
  match m with
  | [] => []
  | (a', v) :: r => if a' = a then memDrop r a else (a', v) :: memDrop r a

/-- Put an entry at its place. -/
def memIns (m : List (Nat × Byte)) (a : Nat) (v : Byte) : List (Nat × Byte) :=
  match m with
  | [] => [(a, v)]
  | (a', v') :: r => if a < a' then (a, v) :: (a', v') :: r else (a', v') :: memIns r a v

/-- Write byte `v` at `a`; `d` is what an unlisted address reads as. -/
def memPut (m : List (Nat × Byte)) (a : Nat) (v d : Byte) : List (Nat × Byte) :=
  if v = d then memDrop m a else memIns (memDrop m a) a v

/-- Addresses strictly rising. -/
def memSorted : List (Nat × Byte) → Bool
  | [] => true
  | [_] => true
  | a :: b :: r => decide (a.1 < b.1) && memSorted (b :: r)

/-- The canonical form of a byte memory (its unlisted bytes read as `d`). -/
def memWf (m : List (Nat × Byte)) (d : Byte) : Bool :=
  memSorted m && m.all (fun e => !decide (e.2 = d))

/-- `n` bytes from `a` upward. -/
def memBytes (m : List (Nat × Byte)) (a n : Nat) (d : Byte) : List Byte :=
  (List.range n).map (fun i => memGet m (a + i) d)

/-- Write the bytes of `bs` from `a` upward. -/
def memStore (m : List (Nat × Byte)) (a : Nat) (bs : List Byte) (d : Byte) : List (Nat × Byte) :=
  match bs with
  | [] => m
  | b :: r => memStore (memPut m a b d) (a + 1) r d

/-- The number that little-endian bytes spell (R2). -/
def leNat : List Byte → Nat
  | [] => 0
  | b :: r => b.toNat + 256 * leNat r

/-- `n` little-endian bytes of `x`. -/
def natLe (x n : Nat) : List Byte :=
  match n with
  | 0 => []
  | n + 1 => BitVec.ofNat 8 x :: natLe (x / 256) n

end Sys2Proof.Machine
end

