-- ==== Sys2Proof/Machine/State.lean ====
section
/-! DEFINITION. The state of the device: every register field the manual names (a sparse table over `Fld`), every block's
own state, every memory and queue, and the queue of waiting commands. All of it is plain data. -/

namespace Sys2Proof.Machine

/-! ## Events and their log (Fault Handling and Service Life) -/

/-- An event code: one the manual fixes, or the code of a rule, which the manual leaves to the release notes (R495):
the range of the block and the rule. -/
inductive Code where
  | fixed (n : Nat)
  | ofRule (range rule : Nat)
  deriving DecidableEq, Repr

/-- The `ARG` field of a record: bytes the manual lays out, or details whose layout it leaves to the release notes. -/
inductive Arg where
  | known (v : Nat)
  | details (l : List Nat)
  deriving DecidableEq, Repr

/-- A report on its way to the log (R15, R494). -/
structure Report where
  code : Code
  sev : Nat
  die : Nat
  block : Nat
  count : Nat := 1
  /-- local time at the time-stamp, in nanoseconds -/
  time : Nat := 0
  /-- `SX_STAT.VALID` at the time-stamp -/
  valid : Bool := false
  arg : Arg := .known 0
  deriving DecidableEq, Repr

/-- A record of the log: a report with its sequence number (R494, R496). -/
structure LogRec where
  seq : Nat
  rep : Report
  deriving DecidableEq, Repr

/-- A steward's event queue (R16); the hub's event collector has the same shape. -/
structure Steward where
  queue : List Report := []
  /-- reports counted while the queue was full -/
  lost : Nat := 0
  /-- full counts of 65,535 waiting for space -/
  lostFull : Nat := 0
  deriving DecidableEq, Repr

/-- What the health stage of a die or the hub is computed from (R503). -/
structure Health where
  used : Bool := false
  /-- classes of `MGMT_HEALTH.ZERO` whose margin stands at 0 in the repair record -/
  low : Nat := 0
  /-- a sector is unavailable by the repair record -/
  secLost : Bool := false
  capLost : Bool := false
  dead : Bool := false
  deriving DecidableEq, Repr

/-! ## Permit governors (Clocks, Power and Draw Permits) -/

/-- A request or a held permit: operation code of R395, the requester's number, units, the time it joined (or was
granted), and the time at which it times out (0: never). -/
structure Permit where
  op : Nat
  who : List Nat
  units : Nat
  t : Nat
  due : Nat := 0
  /-- what is asked for next, once this is granted: governor, operation, units (R394, R396) -/
  chain : List (List Nat) := []
  deriving DecidableEq, Repr

/-- One permit governor (R391 to R394). -/
structure Gov where
  queue : List Permit := []
  held : List Permit := []
  /-- grants the requester has not yet acted on -/
  ready : List Permit := []
  /-- timed-out requests the requester has not yet acted on -/
  expired : List Permit := []
  lastT : Nat := 0
  lastU : Nat := 0
  deriving DecidableEq, Repr

/-! ## Sectors, configuration and migration (Logic Fabric) -/

/-- One sector's own state beside its registers. -/
structure SecRt where
  /-- every flip-flop holds its initial value (R42) -/
  ffInit : Bool := true
  /-- the trees of the sector are gated (R43, R61) -/
  gated : Bool := true
  /-- outputs hold their last values (R61) -/
  frozen : Bool := false
  /-- NoC bridges accept flits (R43) -/
  bridges : Bool := false
  /-- `STATE` 3 has been read since `STATE` 0: the sector's services are there (R426) -/
  opened : Bool := false
  /-- reckoner columns the loaded configuration uses (R396) -/
  rkn : List Nat := []
  /-- columns still to be woken before the release permit is asked for (R396) -/
  wakes : List Nat := []
  /-- migration step: 0 none, 1 gating, 2 capture, 3 rewrite, 4 restore, 5 waiting for the permit (R61) -/
  mig : Nat := 0
  migT : Nat := 0
  /-- period of the slowest tree of the sector, in ns, during a migration -/
  migP : Nat := 0
  /-- the migration moves a held sector, with no state capture (R60) -/
  migHeld : Bool := false
  /-- frames accepted into the sector in the current load -/
  frames : Nat := 0
  /-- the number of the load whose image the sector holds (R29); 0: none -/
  img : Nat := 0
  /-- corrected words waiting for write-back: kind, column, block, address (R74) -/
  wb : List (List Nat) := []
  /-- words written back by the scrub, for R77 -/
  swb : List (List Nat) := []
  deriving DecidableEq, Repr

/-- One clock tree's switch (R65): the source it moves to, and when the old source was last seen. -/
structure TreeRt where
  tgt : Nat := 0
  start : Nat := 0
  deriving DecidableEq, Repr

/-! ## The user's design (Logic Fabric; Block RAM, Deep RAM and Reckoner Blocks) -/

/-- Read data of a memory port with its error flags: 1 `SBE`, 2 `DBE` (R74). No data: nothing fixes them, and they read as a
free value. -/
structure RdData where
  data : Option Nat := none
  err : Nat := 0
  deriving DecidableEq, Repr

/-- A port of a memory block: read data, output register (R72), the register that a cascade adds (R75). -/
structure RamPort where
  latch : RdData := {}
  reg : RdData := {}
  creg : RdData := {}
  deriving DecidableEq, Repr

/-- The registers of a reckoner block (R83, R87, R91, R95): operands and `C` with the controls sampled with them, the
branch metrics of ACS, the multiplier's register with the `C` and `LOAD` that belong to it, accumulator, `P` of ACS,
`SURV`, `CMIN`, `OVF`, `LATE_O`; the words that the two slots have read, none where slot 1 wrote (R86). -/
structure RknRt where
  r0 : Nat := 0
  r1 : Option Nat := none
  a : Nat := 0
  b : Nat := 0
  c : Nat := 0
  d : Nat := 0
  load : Bool := false
  sub : Bool := false
  w0 : Nat := 0
  w1 : Nat := 0
  m : Int := 0
  c2 : Nat := 0
  load2 : Bool := false
  acc : Nat := 0
  pAcs : Nat := 0
  surv : Nat := 0
  cmin : Nat := 0
  ovf : Bool := false
  lateO : Bool := false
  deriving DecidableEq, Repr

/-- An input of a sector: what it gives the design, the last value received (R67), and the user-I/O pin it comes from. -/
structure InRt where
  val : Bool := false
  last : Bool := false
  pin : Option Nat := none
  deriving DecidableEq, Repr

/-- A fabric time port (R365): the times sampled at the last edges, newest first, in ns; the steps applied so far at each of
them; whether `SPINE_OK` and `VALID` were 1; what it drives: `TP_SEC`, `TP_NS`, `TP_VALID`, `TP_PPS`, `TP_STEP`. -/
structure TimePort where
  times : List (Nat × Nat × Bool) := []
  sec : Nat := 0
  ns : Nat := 0
  valid : Bool := false
  pps : Bool := false
  stepped : Bool := false
  deriving DecidableEq, Repr

/-- The fabric's contents. Every table is sparse. -/
structure Fab where
  /-- what each written frame configures: key = die, frame address -/
  design : SMap (List CfgItem) := []
  /-- flip-flops that have left their initial value: key = die, sector, column, row, cell, A or B -/
  ffs : SMap (Option Bool) := []
  /-- span segments (an unlisted one holds 0): key = die, sector, direction, index -/
  segs : SMap Bool := []
  /-- words of block RAM and deep RAM (an unlisted word holds 0): key = die, sector, kind, column, block, address; in ECC mode
  the 64 data bits, and in `upset` the stored bits that differ from the word's code -/
  ram : SMap Nat := []
  upset : SMap Nat := []
  /-- ports: key = die, sector, kind, column, block, port -/
  ports : SMap RamPort := []
  /-- operand memories: key = die, sector, column, physical block, address -/
  oper : SMap Nat := []
  /-- reckoner blocks: key = die, sector, column, logical block -/
  rkn : SMap RknRt := []
  /-- inputs: key = die, sector, input -/
  inputs : SMap InRt := []
  /-- user-I/O pins that a design drives: key = die, pin; the sector and the value -/
  pins : SMap (Option (Nat × Bool)) := []
  /-- fabric time ports: key = die, sector -/
  tport : SMap TimePort := []
  deriving DecidableEq, Repr

/-! ## What leaves the device -/

/-- Something the device sends to the outside: bytes to host memory (port, requesting function, address, relaxed ordering,
bytes; function 15 for a master that acts for none), an MSI-X message
(function, vector), a lane slot, a frame on a timing port, an answer of the boundary scan ... -/
inductive Out where
  | hostWrite (port fn addr : Nat) (ro : Bool) (bytes : List Byte)
  | hostRead (port addr len : Nat)
  | msix (fn vec : Nat)
  | readReply (tag data status : Nat)
  /-- a pin: 0 `PPS_OUT`; 10, 11 `CLKOUT0`, `CLKOUT1` (0 low, 1 100 MHz, 2 156.25 MHz, 8 + s spine s); 20 + n `VID_Fn`;
  30 `THERMTRIP_N`; 31 `XSPI_RST_N`; 40 the pins of the boundary-scan chain -/
  | pin (which value : Nat)
  /-- `CLKOUTi` runs: its clock as in `pin`, and the down-spread it carries, depth in units of 50 ppm and rate in kHz (R377) -/
  | clkout (i clock depth rate : Nat)
  /-- a frame that a timing port transmits: messageType, then its fields (Sextant.lean says which) -/
  | frame (port : Nat) (data : List Nat)
  /-- a slot period of an engine's straight path: its number and its 512 bits (R145) -/
  | slot (e n data : Nat)
  /-- a vector taken at a vector port, with `VP_SEQ` (R149) -/
  | vector (e seq data : Nat)
  /-- a word that a bundle's fabric lane port gives the fabric, with `LP_RXLOST` (R302) -/
  | laneWord (l data : Nat) (lost : Bool)
  /-- a capture beat of a trunk lane, with `CAP_SEQ` and `CAP_GAP` (R309) -/
  | beat (t seq data : Nat) (gap : Bool)
  /-- a word that a channel or trunk lane transmits, first bit in bit 0 (R296, R299, R308) -/
  | txWord (trunk : Bool) (l data : Nat)
  /-- a word that a trunk lane's port gives the fabric, with its lost flag (R309) -/
  | trunkWord (t data : Nat) (lost : Bool)
  deriving DecidableEq, Repr

/-! ## Waypoint engines and fail capture -/

/-- What resolved an expectation (R141, R142, R149). -/
structure Resolution where
  /-- received data -/
  r : Nat := 0
  timeout : Bool := false
  unchecked : Bool := false
  rxBad : Bool := false
  /-- local time of the timestamp (R152), ns -/
  time : Nat := 0
  deriving DecidableEq, Repr

/-- An expectation in the compare queue, with the values its fail record needs (R118, R152). -/
structure Expn where
  ix : Nat
  e : Nat
  m : Nat
  aw : Nat
  pc : Nat
  cmd : Nat
  x : Nat
  y : Nat
  z : Nat
  l : Nat
  /-- the slot it is bound to (R145) -/
  slot : Option Nat := none
  /-- when it reached the head of the queue -/
  headT : Nat := 0
  res : Option Resolution := none
  deriving DecidableEq, Repr

/-- An output-FIFO entry: a vector, or the idle slot of a step of `KIND` 3 (R145), with the expectation bound to it. -/
structure OutV where
  v : Option Nat
  ix : Option Nat
  deriving DecidableEq, Repr

/-- A fail record's contents (R152). -/
structure FailRec where
  index : Nat
  engine : Nat
  run : Nat
  aw : Nat
  pc : Nat
  timeout : Bool
  rxBad : Bool
  first : Bool
  droppedBefore : Bool
  cmd : Nat
  time : Nat
  x : Nat
  y : Nat
  z : Nat
  l : Nat
  f : Nat
  deriving DecidableEq, Repr

/-- An arrival at a fix point (R123): its number, whether it has left the engine; once the hub has counted it, the generation
then in force and the number of broadcasts made before it; whether the engine has seen that barrier complete. -/
structure Arrival where
  f : Nat
  id : Nat
  issued : Bool
  cnt : Option (Bool × Nat) := none
  done : Bool := false
  deriving DecidableEq, Repr

/-- What the current step of an engine waits for (item 1 of R120). -/
inductive WaitK where
  | none
  | wait (t : Nat)
  | drain (vectorsOnly : Bool)
  /-- SYNC action 0 or 1: the flag wanted -/
  | syncFlag (f : Nat) (want : Bool)
  /-- SYNC action 2 or 3: the broadcast of its own operation, by its number -/
  | syncOp (f : Nat) (setIt : Bool) (issued : Bool) (id : Nat)
  /-- SYNC action 4: the barrier of an arrival -/
  | syncArr (a : Arrival)
  | waitt
  | rate (units : Nat)
  | fill
  deriving DecidableEq, Repr

/-- A word of the stream in the prefetch buffer: number, data, status (0 good; otherwise `ENG_FAULT.DETAIL`). -/
structure StrmWord where
  n : Nat
  data : Nat
  status : Nat
  deriving DecidableEq, Repr

/-- A bitmap update held during a clear (R156): a tally rise or a software write of four bytes. -/
inductive BmOp where
  | tally (row : Bool) (index : Nat) (by_ : Nat)
  | store (off : Nat) (v : Nat)
  deriving DecidableEq, Repr

/-- One engine with its fail capture: state beside the registers. -/
structure EngRt where
  /-- loop stack, top first: counter, start, end (R110) -/
  lstack : List (Nat × Nat × Nat) := []
  cstack : List Nat := []
  /-- timer return register and recorded depths (R112) -/
  tret : Nat := 0
  tloop : Nat := 0
  tcall : Nat := 0
  cx : Bool := false
  cy : Bool := false
  cz : Bool := false
  cl : Bool := false
  lfsr : Nat := 0
  /-- steps completed since START or ARM (R138) -/
  steps : Nat := 0
  /-- next timer expiry (0: timer off); time left while frozen -/
  tmrDue : Nat := 0
  tmrLeft : Nat := 0
  tmrPend : Bool := false
  /-- start of the current step -/
  stepT : Nat := 0
  wait : WaitK := .none
  /-- 0, or the item of R120 at which the step is stalled -/
  stall : Nat := 0
  /-- the current step's waits of item 1 are over -/
  waited : Bool := false
  /-- the step has been counted in `ENG_STALL` (R132) -/
  counted : Bool := false
  /-- the condition of a BR step, tested at its start (R109) -/
  brOk : Bool := false
  /-- a STEP command is in progress (R103) -/
  single : Bool := false
  /-- START (1) or ARM (2) held until the queues are empty (R143) -/
  startPend : Nat := 0
  /-- the run was begun by ARM -/
  armed : Bool := false
  /-- arrival already registered by an abandoned SYNC step (R103) -/
  kept : Option Arrival := none
  /-- operations on fix points that the engine has made: the number of the last one -/
  opN : Nat := 0
  /-- broadcasts seen, and the engine's copies of flags and generations as bit masks (R123) -/
  seen : Nat := 0
  flags : Nat := 0
  gens : Nat := 0
  /-- the stream is on; words issued; reads outstanding; words in the buffer; recent issue times -/
  strmOn : Bool := false
  strmFirst : Bool := false
  issued : Nat := 0
  outst : List Nat := []
  buf : List StrmWord := []
  issT : List Nat := []
  /-- output FIFO, compare queue -/
  out : List OutV := []
  cq : List Expn := []
  /-- expectations emitted since START or ARM; vectors emitted; vectors taken at the vector port -/
  nextIx : Nat := 0
  vseq : Nat := 0
  vpTaken : Option (Nat × Nat) := none
  /-- straight path: launched, next slot, end of the slot now sent, its bits, arrival of the first vector, reference T -/
  launched : Bool := false
  slot : Nat := 0
  sendEnd : Nat := 0
  txBits : Nat := 0
  firstVecT : Option Nat := none
  launchRef : Nat := 0
  /-- elapsed time of the launch: the start of slot period 0 -/
  launchT : Nat := 0
  /-- the refusal of R148 has been reported in this run -/
  cfgSaid : Bool := false
  /-- expectations resolved in the run (`FC_CMP`), fail FIFO, records of the run, flags of R151 -/
  cmp : Nat := 0
  ff : List FailRec := []
  recs : Nat := 0
  dropped : Bool := false
  anyFail : Bool := false
  /-- channel lanes that the straight path owns: global lane and word width (R148) -/
  owned : List (Nat × Nat) := []
  /-- end of a bitmap clear, and the updates held meanwhile (R156) -/
  bmEnd : Nat := 0
  bmHeld : List BmOp := []
  deriving DecidableEq, Repr

/-- An operation on a fix point that has reached the hub (R123): 0 clear, 1 set, 2 arrival; the engine, or none for the
host; the engine's number of it; whether it falls in the slot of the operation before it (R124). -/
structure FixOp where
  f : Nat
  kind : Nat
  eng : Option Nat
  id : Nat := 0
  tied : Bool := false
  deriving DecidableEq, Repr

/-- A broadcast of the hub: fix point, flag and generation after the operation, the engine whose operation it was and that
engine's number of it, and whether it is a re-base. -/
structure Bcast where
  f : Nat
  flag : Bool
  gen : Bool
  eng : Option Nat
  kind : Nat
  id : Nat
  rebase : Bool
  deriving DecidableEq, Repr


/-! ## Memory: requests, remote caches, filters, sealing -/

/-- A line in a remote cache (R215): state 0 I, 1 S, 2 E, 3 M. -/
structure RcLine where
  st : Nat := 0
  data : Nat := 0
  poison : Bool := false
  /-- filled in a read-mostly window (R221) -/
  rm : Bool := false
  /-- dirty line of an unreachable home (R224) -/
  retained : Bool := false
  deriving DecidableEq, Repr

/-- An access that waits at a remote cache for its home (R215, R219): 0 read, 1 write; the data written; the request that
was sent (opcode of R219); the answer on its way: 0 none, 1 DATA64 granting S, 2 DATAX, 3 CACK granting E. -/
structure RcMiss where
  write : Bool := false
  data : Nat := 0
  opc : Nat := 0
  grant : Nat := 0
  deriving DecidableEq, Repr

/-- An evicted dirty line in the writeback buffer (R220); `taken`: a snoop has taken its data. -/
structure RcWb where
  line : Nat
  data : Nat
  poison : Bool := false
  taken : Bool := false
  deriving DecidableEq, Repr

/-- A snoop-filter entry (R218): presence mask, owned bit, age. -/
structure SfEnt where
  mask : Nat := 0
  owned : Bool := false
  age : Nat := 0
  deriving DecidableEq, Repr

/-- A coherence request at a home agent (R219, R220). -/
structure HaReq where
  opc : Nat
  line : Nat
  die : Nat
  deriving DecidableEq, Repr

/-- The transaction that a home agent has open on a line: the request, the caches still to be snooped, whether the snoop
invalidates, and the caches whose answer without data (CACK) is on its way. -/
structure HaTx where
  req : HaReq
  wait : Nat
  inval : Bool
  acks : Nat := 0
  deriving DecidableEq, Repr

/-- A sweep of the sealing engine (R278): 1 initialise, 2 re-key, 3 release, 4 repair of node `node` at level `level`. -/
structure Sweep where
  kind : Nat
  r : Nat
  pos : Nat := 0
  node : Nat := 0
  level : Nat := 0
  /-- one past the last line -/
  stop : Nat := 0
  /-- the counter value that a repair gives (R277) -/
  val : Nat := 0
  deriving DecidableEq, Repr

/-- The sweeps of one stack (R277, R278, R280): the running one, the queue, the units it holds, whether it waits for its
permit; the repairs, the first under way; the units a repair holds of its own, whether it waits for them, and when it asks
again (0: not). -/
structure SealRt where
  run : Option Sweep := none
  queue : List Sweep := []
  units : Nat := 0
  asked : Bool := false
  repairs : List Sweep := []
  rUnits : Nat := 0
  rAsked : Bool := false
  retryT : Nat := 0
  deriving DecidableEq, Repr

/-- A key-exchange session of the Lodestar (R445, R446): its owner (0 to 7, or 8 for the helm cores), the time of its last
use, its session key, and the 104 bytes of its deposit. -/
structure LsSession where
  owner : Nat
  used : Nat
  key : Nat := 0
  deposit : Option Nat := none
  deriving DecidableEq, Repr

/-- A request at an HBM controller port, or in a queue of a pseudo-channel (R239 to R241). -/
structure HbmReq where
  src : Nat
  fn : Nat
  opc : Nat
  tag : Nat
  a : Nat
  data : List Nat := []
  poison : Bool := false
  t : Nat := 0
  /-- younger requests that have passed it -/
  passed : Nat := 0
  /-- status found when it entered (R265) -/
  status : Nat := 0
  deriving DecidableEq, Repr

/-- A leaf locked for re-encryption, and the requests that wait for it, the write that caused it first (R274). -/
structure Reenc where
  r : Nat
  leaf : Nat
  waiting : List HbmReq
  deriving DecidableEq, Repr

/-- An arbiter (R184, R185): wait counters, grants in the window, masked inputs, grants made in the window. -/
structure Arb where
  wait : SMap Nat := []
  used : SMap Nat := []
  mask : List Nat := []
  n : Nat := 0
  deriving DecidableEq, Repr

/-- A pseudo-channel of an HBM controller (R241, R245, R246): queues (a read's data come with its completion), open rows
by bank, refreshes owed, RFMs due, activates, LFSR state, draining writes; reads issued and not yet complete. -/
structure PcRt where
  rq : List HbmReq := []
  wq : List HbmReq := []
  drain : Bool := false
  rows : SMap Nat := []
  owed : Nat := 0
  burst : Bool := false
  rfm : List Nat := []
  acts : Nat := 0
  lfsr : Nat := 0
  inflight : List HbmReq := []
  deriving DecidableEq, Repr

/-- A stack's controller (R247 to R253). -/
structure StackRt where
  /-- training: 0 none, 1 permits asked, 2 running -/
  train : Nat := 0
  /-- the last grant before the training -/
  t0 : Nat := 0
  /-- causes of self-refresh: 1 planned die reset, 2 clock loss, 3 P1 or P2, 4 `CMD` 2, 5 R249 -/
  causes : List Nat := []
  /-- self-refresh entry is under way: new requests are refused -/
  entering : Bool := false
  /-- an exit by `CMD` 3 waits for its permit -/
  exitAsked : Bool := false
  /-- channels still to be retrained, the present one first, and when its retraining ends -/
  todo : List Nat := []
  todoT : Nat := 0
  /-- full counts of lane repairs left, by channel (R259) -/
  lrep : SMap Nat := []
  /-- temperature and time of the last training or retraining (R248) -/
  tempAt : Nat := 0
  trainT : Nat := 0
  /-- the next reading at or above `TALARM` raises the alarm -/
  armed : Bool := true
  /-- when Dvorkenor trains again (0: not), and whether it has done so already -/
  retry : Nat := 0
  retried : Bool := false
  powerDown : Bool := false
  /-- end of the last command (for power-down) -/
  busyT : Nat := 0
  /-- pending decision of the front arbiter (R186): a port, or 16 for the scrub input -/
  next : Option Nat := none
  /-- position of the scrub pass, in lines -/
  scrubPos : Nat := 0
  /-- when the scrub pass began; 0: none has -/
  scrubT : Nat := 0
  /-- request of the refresh-burst permit -/
  burstT : Nat := 0
  /-- lines with one corrected error (R252) -/
  suspect : List Nat := []
  deriving DecidableEq, Repr

/-! ## NoC -/

/-- A packet (R166): header, address, data flits of 512 bits; `poison`: a data word is poisoned; `alt`: sent on the
alternate route; `again`: already re-sent after a bounce; `t`: when its head became the head of the buffer where it lies;
`arr`: when it arrived there; `sn`: its place among the packets that its NI has sent (R174). -/
structure Pkt where
  route : Nat := 0
  len : Nat := 0
  hops : Nat := 0
  dest : Nat
  src : Nat
  cls : Nat
  bounce : Bool := false
  opc : Nat
  tag : Nat := 0
  fn : Nat := 15
  addr : Nat := 0
  data : List Nat := []
  poison : Bool := false
  alt : Bool := false
  again : Bool := false
  t : Nat := 0
  arr : Nat := 0
  sn : Nat := 0
  deriving DecidableEq, Repr

/-- A network interface: packets waiting to be sent; bounced packets waiting to be sent again, in the order first sent;
packets arrived and not delivered; the return queue; packets delivered to the block; requests outstanding (tag, destination,
opcode, time of sending); posted packets unacknowledged by destination; destinations held under R174; the arrival times of posted
packets received and not acknowledged, by source, oldest first; packets sent so far. -/
structure NiRt where
  hold : List Pkt := []
  resend : List Pkt := []
  inq : List Pkt := []
  bounced : List Pkt := []
  block : List Pkt := []
  reqs : List (Nat × Nat × Nat × Nat) := []
  posted : SMap Nat := []
  held : List Nat := []
  acks : SMap (List Nat) := []
  sn : Nat := 0
  deriving DecidableEq, Repr

/-! ## Galkor links -/

/-- A link's training (R200): 0 none, 1 permits asked, 2 running; its start; when Dvorkenor trains again, and whether it has
done so already. Links 0 to 7 are the ring links n to n + 1, links 8 to 15 the spokes. -/
structure GkLink where
  train : Nat := 0
  t0 : Nat := 0
  retry : Nat := 0
  retried : Bool := false
  deriving DecidableEq, Repr

/-- A conversion of a group (R209): the retiring group and its logical group, the group that takes it over, whether the
permits are granted, the switch instant. -/
structure GkConv where
  from_ : Nat
  lc : Nat
  into : Nat
  granted : Bool := false
  instant : Nat := 0
  deriving DecidableEq, Repr

/-- One direction of a link, at its receiving end: lanes past their threshold, spare swaps under way with their start, crossing
swaps with their switch instant, conversions, CRC errors charged in the last second (group, lane, time), sector pairs lost. -/
structure GkDir where
  lost : List Nat := []
  crossed : List (Nat × Nat) := []
  swaps : List (Nat × Nat × Nat) := []
  cswaps : List (Nat × Nat × Nat) := []
  convs : List GkConv := []
  charges : List (Nat × Nat × Nat) := []
  deriving DecidableEq, Repr

/-- A flit on its way through a pool: its packet, its index there, the NoC link it belongs to. -/
structure GkFlit where
  p : Pkt
  ix : Nat
  j : Nat
  deriving DecidableEq, Repr

/-- One pool of a direction (R202, R205). At the receiver: the expected `SEQ`, whether frames are being discarded, failures of
the expected frame in succession, the altered bits of the failed frame that it keeps and the groups that carried it, the packet of which it has received
flits, whether it is to send a positive or a negative acknowledgement. At the transmitter: the next `SEQ`, the replay buffer
(oldest first), how many of its frames have been sent since the last replay began, flits granted and not yet in a frame, the
pending decision of the arbiter (NoC link and input), the frame that a negative acknowledgement names, flits in flight by NoC
link and VC. -/
structure GkPool where
  exp : Nat := 0
  disc : Bool := false
  fails : Nat := 0
  failed : Option (Nat × List Nat) := none
  rx : Option Pkt := none
  ackDue : Bool := false
  nakDue : Bool := false
  seq : Nat := 0
  buf : List GkFlit := []
  sent : Nat := 0
  txq : List GkFlit := []
  pend : Option (Nat × Nat) := none
  nak : Option Nat := none
  fly : SMap Nat := []
  deriving DecidableEq, Repr

/-- A logical crossing group at its receiver (R212, R213): signals of the last live frame, live, `XERR` of the last frame,
frames in succession without the framing marker, frames launched and not yet arrived, oldest first, with their live bits
(R68). -/
structure CrossIn where
  data : Nat := 0
  live : Bool := false
  xerr : Bool := false
  miss : Nat := 0
  pipe : List (Nat × Bool) := []
  deriving DecidableEq, Repr
/-! ## Lanes -/

/-- A checker (R300): the bits before, the newest in bit 0, how many of them there are, the bits in a row that agreed; while it is
locked, the bits checked and the places of the errors among the last 1,024. -/
structure ChkRt where
  reg : Nat := 0
  seen : Nat := 0
  run : Nat := 0
  pos : Nat := 0
  errs : List Nat := []
  deriving DecidableEq, Repr

/-- One channel lane or trunk lane: state beside the registers. -/
structure LaneRt where
  /-- bits checked (`CL_BIT`, `TR_BIT`), 64 bits (R540) -/
  bits : Nat := 0
  /-- generator (R300): running, its register; the bits sent of code 6, the words sent of a PAM4 pattern -/
  genOn : Bool := false
  genReg : Nat := 0
  chk : ChkRt := {}
  /-- the last level that the precoder of a trunk lane sent, and that its inverse received (R305) -/
  txPrev : Nat := 0
  rxPrev : Nat := 0
  /-- transmit FIFO of the fabric port, oldest first (R302) -/
  tx : List Nat := []
  /-- loop measurement: when it started (R298) -/
  loopT : Nat := 0
  /-- one error waits for the next transmitted word (R301, R315) -/
  inject : Bool := false
  /-- receive FIFO of the fabric port, oldest first: word (or capture beat), its lost flag and its `CAP_SEQ` (R302, R309) -/
  rx : List (Nat × Bool × Nat) := []
  rxLost : Bool := false
  capSeq : Nat := 0
  /-- receive FIFO of a trunk lane's port in normal mode: words, each with its lost flag (R309) -/
  words : List (Nat × Bool) := []
  wordsLost : Bool := false
  /-- start of the adaptation of a trunk lane (R307) -/
  adaptT : Nat := 0
  deriving DecidableEq, Repr

/-- One channel bundle: when bring-up started (R294). -/
structure BundleRt where
  t0 : Nat := 0
  deriving DecidableEq, Repr


/-! ## Host rings (Host Rings and Doorbells) -/

/-- A descriptor that the ring engine has fetched and whose completion is not yet done (R338): its SQ index, its sixteen
words in one number, whether an earlier descriptor of its chain comes before it and how that one ended (0 not yet, 1 well or
none, 2 badly: R339), the first word in error (R329), 0 waiting to start, 1 running, 2 ended; then its completion, lines
moved, lines to move (for FAIL_DRAIN: records to move), and the size and the number of the first record. -/
structure Job where
  idx : Nat
  d : Nat
  linked : Bool := false
  pred : Nat := 1
  bad : Option Nat := none
  st : Nat := 0
  status : Nat := 0
  detail : Nat := 0
  bytes : Nat := 0
  n : Nat := 0
  k : Nat := 0
  size : Nat := 64
  base : Nat := 0
  deriving DecidableEq, Repr

/-- A queue pair: tail of the SQ and head of the CQ as the host has written them, descriptors in progress, oldest first;
whether the last one fetched had `CHAIN`, and how it ended (0 not yet, 1 well, 2 badly). -/
structure QpRt where
  tail : Nat := 0
  head : Nat := 0
  jobs : List Job := []
  chain : Bool := false
  last : Nat := 0
  deriving DecidableEq, Repr

/-- An entry of a function's MSI-X table with its pending bit (R318, R345): address, data, mask; the time of its last
message, and the end of the holdoff interval in which it has been raised. -/
structure VecRt where
  addr : Nat := 0
  data : Nat := 0
  masked : Bool := true
  pend : Bool := false
  sentT : Option Nat := none
  due : Option Nat := none
  deriving DecidableEq, Repr

/-- A mailbox exchange that awaits its reply (R337, R482): sender 0 to 7 a function, 8 + c helm core c; queue pair and SQ
index; the request; the reply limit and address; when it was delivered. -/
structure Mail where
  src : Nat
  q : Nat := 0
  idx : Nat := 0
  req : List Byte
  limit : Nat
  dst : Nat
  t : Nat
  deriving DecidableEq, Repr

/-! ## Configuration loads (R52 to R54, R334, R410 to R412, R437) -/

/-- A frame record in the hub's buffer of a die: its 1,032 bytes (R411). -/
structure CfgRec where
  die : Nat
  rec_ : Nat
  deriving DecidableEq, Repr

/-- The configuration load under way. Phases: 0 none, 1 waiting for the decryption permit, 2 waiting for the dies'
engines, 3 streaming, 4 waiting for the permits of the release, 5 the release instant is set. `owner`: the queue pair and
SQ index whose descriptor it is. -/
structure CfgLoad where
  phase : Nat := 0
  owner : Option (Nat × Nat) := none
  auto : Bool := false
  release : Bool := false
  hdr : Nat := 0
  len : Nat := 0
  /-- offset in the boot flash of an autoloaded image -/
  at_ : Nat := 0
  /-- records delivered; frames accepted -/
  sent : Nat := 0
  done : Nat := 0
  buf : List CfgRec := []
  instant : Nat := 0
  deriving DecidableEq, Repr

/-! ## Sextant time unit -/

/-- A request of a step or a set (R355): the offset or the value in units of 2^-16 ns; its source: 0 `SX_STEP_CMD`, 1 a
TIME descriptor of a queue pair and SQ index, 2 the Dvorkenor servo; when it was accepted. -/
structure SxReq where
  set_ : Bool
  val : Int
  force : Bool
  src : Nat
  q : Nat := 0
  idx : Nat := 0
  t : Option Nat := none
  deriving DecidableEq, Repr

/-- An entry of a transmit-stamp queue (R361): sequenceId, messageType, stamp in 2^-16 ns. -/
structure TxStamp where
  seq : Nat
  type : Nat
  stamp : Nat
  deriving DecidableEq, Repr

/-- A residence that waits for its follow-up message (R360): port the event message left by, messageType,
sourcePortIdentity, sequenceId, residence in 2^-16 ns, time of the event message. -/
structure Residence where
  port : Nat
  type : Nat
  ident : Nat
  seq : Nat
  val : Int
  t : Nat
  deriving DecidableEq, Repr
/-! ## Clocks, power, resets and starts -/

/-- A fractional synthesizer (R379): its output and the target of its glide in kHz, a frequency written during a glide. -/
structure Synth where
  freq : Nat := 0
  tgt : Nat := 0
  next : Option Nat := none
  deriving DecidableEq, Repr

/-- The voltage-frequency sequencer of a die (R384): 0 none, 1 glides down, 2 rail, 3 glides up; the start of step 2, and
the next check of the rail. -/
structure Fvs where
  step : Nat := 0
  t0 : Nat := 0
  due : Nat := 0
  deriving DecidableEq, Repr

/-- A fabric die as the hub leads it: its release (0 none, 1 waiting for its turn, 2 powered, 3 self-test passed) and the
start of it (R407), power transition under way (the state it leads to, plus one; 0 none), whether the resume permit is
awaited (R390), bearings withdrawn for a power state (site, NI, index), the time of its loss and of its last restart
(R423). -/
structure DieRt where
  rel : Nat := 0
  t0 : Nat := 0
  pwr : Nat := 0
  resume : Bool := false
  withdrawn : List (List Nat) := []
  lostT : Nat := 0
  restartT : Option Nat := none
  deriving DecidableEq, Repr

/-- Telemetry and life of a die or the hub (R504 to R507): whether the next reading at `TWARN` warns, the last reading,
the highest of the hour, when the hour ends, hours by bin, weighted hours in tenths, and samples in succession at 110 °C
and at 118 °C or more (R527). -/
structure LifeRt where
  armed : Bool := true
  last : Nat := 0
  top : Nat := 0
  due : Nat := 3600000000000
  hours : List Nat := [0, 0, 0, 0]
  tenths : Nat := 0
  hot : Nat := 0
  hotter : Nat := 0
  deriving DecidableEq, Repr

/-! ## Helm cores and the Pelorus port -/

/-- A helm core as far as the manual's events reach it (R460 to R481): program counter, privilege mode, `mstatus.MIE`,
MPP and MPIE; other registers by debug number (an unlisted one holds its reset value while `fresh`, else what the core's
program has left in it); pending NMIs (32 clock, 33 watchdog) and whether one is being handled; the levels it preempted;
sources in service, newest first; a monitor request (cause, 0 none); the reservation of LR; the monitor's `helmdpc`,
`helmdvec` and `helmmon` (PRV, PMIE, STEP); one instruction is to be executed and the monitor entered again; the boot
hold; the watchdog's count in ns and when it was that (while it runs); the unlock of R479 (until when);
the result of its mailbox exchange, once there (status, reply bytes). -/
structure HelmRt where
  pc : Nat := 0
  mode : Nat := 3
  mie : Bool := false
  mpp : Nat := 0
  mpie : Bool := false
  csr : SMap (Option Nat) := []
  fresh : Bool := true
  nmi : List Nat := []
  inNmi : Bool := false
  levels : List Nat := []
  serving : List Nat := []
  monReq : Nat := 0
  resv : Option Nat := none
  dpc : Nat := 0
  dvec : Nat := 0
  prv : Nat := 0
  pmie : Bool := false
  step_ : Bool := false
  hold : Bool := false
  wdLeft : Nat := 0
  wdT : Option Nat := none
  unlock : Option Nat := none
  mbx : Option (Nat × Nat) := none
  /-- the core's last memory access: 0 it gave the value, 1 instruction, 2 load, 3 store access fault; the value -/
  last : Nat × Nat := (0, 0)
  deriving DecidableEq, Repr

/-- A line of a helm cache (R461). -/
structure HelmLine where
  data : Nat
  dirty : Bool := false
  deriving DecidableEq, Repr

/-- A path of the Pelorus port (R450, R486, R493): the access under way (status and data it will give, and whether it
gives data); whether a challenge is awaited from the random generator; a challenge not yet used; its bytes still to be
read; the bytes submitted. -/
structure PelRt where
  status : Nat := 0
  data : Option Nat := none
  /-- the BAR0 offset that a running access reads (R23) -/
  off : Option Nat := none
  want : Bool := false
  chal : Option Nat := none
  toRead : List Byte := []
  sent : List Byte := []
  deriving DecidableEq, Repr

/-- The TAP and the boundary-scan chain (R483, R484): instruction register, the instruction in force, whether the covered
pins are under scan control, the chain's bits, the bits that the pins are driven with. -/
structure TapRt where
  ir : Nat := 0x01
  act : Nat := 0x01
  scan : Bool := false
  chain : Nat := 0
  drive : Option Nat := none
  /-- the data register of PEL_REG as captured -/
  dr : Nat := 0
  deriving DecidableEq, Repr

/-- An operation of Dvorkenor on the flash (R509): the exchange that asked for it; 0 an erase, 1 a program, 2 a directory;
where it goes on, erase sectors still to be done, the bytes to program. -/
structure FlashOp where
  m : Mail
  kind : Nat
  at_ : Nat := 0
  left : Nat := 0
  bytes : List Byte := []
  deriving DecidableEq, Repr

/-- The configuration scrub of a die (R500 to R502): whether a pass runs, its start, frames it is to read and has read; the
sector, the next frame in it, and the sector's `STATE` when its reading began; when the next pass is due. -/
structure ScrubRt where
  on : Bool := false
  t0 : Nat := 0
  total : Nat := 0
  done : Nat := 0
  sector : Nat := 0
  frame : Nat := 0
  st0 : Nat := 0
  due : Nat := 0
  deriving DecidableEq, Repr

/-! ## The whole state -/

/-- The state of the device. -/
structure State where
  /-- commands waiting, first in, first out -/
  pending : List Instr := []
  /-- elapsed time in ns since power-on (the model's clock; the count that R354 calls elapsed time) -/
  now : Nat := 0
  /-- Sextant local time in units of 2^-16 / 10^9 ns (R352, R353), kept exactly -/
  local_ : Nat := 0
  /-- the clocks of stage 3 have been started since the last package reset, so local time runs (R401, R369) -/
  clocksUp : Bool := false
  /-- register fields: key = field number :: index; unlisted fields read their reset value -/
  regs : SMap Nat := []
  /-- the data the last read command returned -/
  answer : Nat := 0
  /-- what the device has sent to the outside, newest first (the model's own trace) -/
  out : List Out := []
  /-- how many free values have been drawn -/
  draws : Nat := 0
  -- management plane
  stewards : SMap Steward := []
  evlog : SMap (Option LogRec) := []
  jtodo : List LogRec := []
  journal : List LogRec := []
  health : SMap Health := []
  /-- the hub's repair record, newest first: die and entry -/
  repairs : List (List Nat) := []
  govs : SMap Gov := []
  -- fabric
  sec : SMap SecRt := []
  tree : SMap TreeRt := []
  /-- the fabric's contents: what is configured, flip-flops, segments, memories, reckoner blocks, pins -/
  fab : Fab := {}
  -- engines and fix points
  eng : SMap EngRt := []
  /-- operations that have reached the hub and are not yet applied (R123), oldest first -/
  fixq : List FixOp := []
  /-- broadcasts of the hub, oldest first -/
  bcasts : List Bcast := []
  -- memories
  /-- HBM contents: key = stack * 36 GiB + physical line location * 64 + byte; unlisted bytes read 0 -/
  hbm : List Host.Cell := []
  /-- poisoned HBM lines: line keys in rising order -/
  poison : List Nat := []
  /-- the engines' local windows: key = engine * 2^20 + offset; unlisted bytes read 0 -/
  win : List Host.Cell := []
  /-- the boot flash; unlisted bytes read 0xFF (erased) -/
  flash : List Host.Cell := []
  -- remote caches, home agents, sealing engines, HBM controllers
  rcLines : SMap RcLine := []
  rcMiss : SMap RcMiss := []
  rcWb : SMap (List RcWb) := []
  sf : SMap SfEnt := []
  sfAge : Nat := 0
  haIn : SMap (List HaReq) := []
  haTx : SMap HaTx := []
  /-- homes that the caches find unreachable (R224) -/
  homeOut : List Nat := []
  /-- deadline of a flush on clock loss, by die (R214); 0: none -/
  rcLossT : SMap Nat := []
  seals : SMap SealRt := []
  leafMaj : SMap Nat := []
  leafMin : SMap Nat := []
  innerC : SMap Nat := []
  /-- counter cache: 1 clean, 2 dirty -/
  ccache : SMap Nat := []
  hwm : SMap Nat := []
  lostN : SMap Bool := []
  reenc : SMap (List Reenc) := []
  /-- when a node was last written back (R273) -/
  ccT : SMap Nat := []
  /-- the keys in the slots (R262): data key, tweak key, MAC key, 256 bits each, in one number; 0 in an empty slot -/
  keys : SMap Nat := []
  /-- key operations running, by stack: slot, operation, start, session -/
  keyOp : SMap (List Nat) := []
  /-- the Lodestar's open sessions by number, and the last number assigned (R445) -/
  sessions : SMap (Option LsSession) := []
  lastSes : Nat := 0
  hbmPort : SMap (List HbmReq) := []
  hbmPc : SMap PcRt := []
  stack : SMap StackRt := []
  arbs : SMap Arb := []
  -- NoC
  /-- input buffers: key = die (8: hub), router, port, VC (0 to 3 by class, 4 return) -/
  rtq : SMap (List Pkt) := []
  ni : SMap NiRt := []
  /-- bearings: key = die, NI, index; four words (R193) -/
  bearings : SMap (List Nat) := []
  /-- pending decisions of router outputs (R186): key = die, router, port; input and VC of the winner -/
  rtPend : SMap (Option (Nat × Nat)) := []
  /-- when a port's drain was written: key = die, router, port -/
  drainT : SMap Nat := []
  -- Galkor links
  gkLink : SMap GkLink := []
  gkDir : SMap GkDir := []
  gkPool : SMap GkPool := []
  crossIn : SMap CrossIn := []
  -- lanes
  lane : SMap LaneRt := []
  trunk : SMap LaneRt := []
  bundle : SMap BundleRt := []
  /-- a hub warm reset is in progress (R417) -/
  hubDown : Bool := false
  /-- the re-base broadcast of R417 is due -/
  rebaseDue : Bool := false
  -- host rings
  qps : SMap QpRt := []
  /-- the queue pair that started last, by priority (R340) -/
  rot : SMap Nat := []
  vecs : SMap VecRt := []
  mail : List Mail := []
  /-- PCIe ports: 0 down, 1 training, 2 up -/
  pcie : SMap Nat := []
  -- configuration loads
  /-- CFG_LOAD descriptors that have reached the head of their queue pairs, in that order -/
  cfgWait : List (Nat × Nat) := []
  cfgLoad : CfgLoad := {}
  /-- images that have verified so far -/
  loadN : Nat := 0
  /-- configuration frames held by the dies: key = die, frame address (logical columns); unlisted frames are blank -/
  cfg : SMap Nat := []
  /-- the configuration measurement and the firmware measurement (R438, R439) -/
  cfgMeas : Nat := 0
  fwMeas : Nat := 0
  -- Sextant
  sxq : List SxReq := []
  txq : SMap (List TxStamp) := []
  residences : List Residence := []
  /-- steps and sets applied since power-on (R355; `TP_STEP` of R365) -/
  stepN : Nat := 0
  /-- ingress stamps of received event messages: key = port, messageType, sequenceId; the latest one of that key -/
  rxStamp : SMap (Option Nat) := []
  /-- frames discarded or dropped, by port -/
  sxDiscard : SMap Nat := []
  /-- the measurement that `SX_MEAS_OFS_LO` latches: offset high word, path delay low and high word, sequenceId -/
  sxMeas : List Nat := []
  /-- the end of the `PPS_OUT` pulse in progress -/
  ppsEnd : Option Nat := none
  /-- the offset that `SX_ADJ` adds to the reference spine, in 2^-16 ppb / 1000 (R353) -/
  spinePull : Int := 0
  /-- the grid anchor (R289): elapsed count in ns, and local time in whole ns -/
  anchorE : Nat := 0
  anchorT : Nat := 0
  -- clocks, power, resets
  /-- synthesizers: key = die, number; die 8: the spines -/
  synth : SMap Synth := []
  fvs : SMap Fvs := []
  dieRt : SMap DieRt := []
  /-- the device is held in reset: 0 no, 1 power-on hold, 2 `RESET_N` low, 3 thermal trip -/
  hold : Nat := 1
  /-- dies to be released, in order; planned die resets that wait for a release to end (R407, R419) -/
  relq : List Nat := []
  rstq : List Nat := []
  /-- how the boot ROM reads the flash: 0 not yet, 1 1S-1S-1S, 2 8D-8D-8D; when stage 2 began (R533) -/
  flashMode : Nat := 0
  stage2T : Nat := 0
  /-- the configuration image that this boot loads by itself: flash offset, length, `RELEASE`; whether the autoload is
  suppressed (R405, R413) -/
  auto : Option (Nat × Nat × Bool) := none
  noAuto : Bool := false
  /-- this start is the end of a hub warm reset; when the last one began (R415, R417) -/
  warm : Bool := false
  warmT : Option Nat := none
  /-- the unlock of R416: until when, and the helm core that wrote it (8: another writer) -/
  rstUnlock : Option (Nat × Nat) := none
  tele : SMap LifeRt := []
  -- Lodestar
  /-- I/O banks whose rail is out of range: key = die, bank (R526) -/
  ioOff : SMap Bool := []
  /-- fuse banks of R431: key = bank, item: 1 `OWNER_KEY`, 2 `OREVOKE`, 3 `KEK`, 4 `DBG_PW`, 5 `UDS` blown -/
  lsFuse : SMap Nat := []
  /-- transport keys by stack (R446) -/
  transport : SMap Nat := []
  /-- when the random generator failed (R447), and whether `LS_ERR` has recorded it -/
  trngT : Option Nat := none
  trngSaid : Bool := false
  /-- until when attempts are refused (R452) -/
  dbgWait : Nat := 0
  /-- bytes of the recovery image received (R454) -/
  rcvN : Nat := 0
  /-- the flash operation under way (R509) -/
  flashOp : Option FlashOp := none
  -- helm cores, interrupt controller and Pelorus port
  helm : SMap HelmRt := []
  /-- the L1 caches of the helm cores (key = core, 0 data or 1 instructions, line), their L2 (key = line), and the flash cache
  (key = line of the window): a line is an address divided by 64 (R461, R462) -/
  helmL1 : SMap (Option HelmLine) := []
  helmL2 : SMap (Option HelmLine) := []
  flashC : SMap (Option Nat) := []
  /-- lines of the fabric interrupts, by source (R465) -/
  irqLine : SMap Bool := []
  pel : SMap PelRt := []
  tap : TapRt := {}
  /-- the configuration scrub, by die -/
  scrub : SMap ScrubRt := []
  deriving DecidableEq, Repr

/-- Faults. The manual gives every command of the table an effect, and an exceptional condition of the device is an event,
a status bit or a completion status, all of them parts of the state; so no command stops the machine and this type has no
value. -/
inductive Fault where
  deriving DecidableEq, Repr

/-- Refusals. -/
inductive Refusal where
  /-- Raised by `exec` for a command that has no meaning yet; the string is the row's mnemonic. Safe: nothing happens. -/
  | notModelled (mnemonic : String)
  deriving DecidableEq, Repr

/-- The machine right after a power-on reset, before the power-on hold ends: every register field at its reset value
(nothing listed), no command waiting, every memory without a listed byte, every block at rest. -/
def State.reset : State := {}

end Sys2Proof.Machine
end

