-- ==== Sys2Proof/Machine/Flags.lean ====
section
/-! DEFINITION. The flag computations of the device: the carries of the address generators, parities, the LFSR, the
accumulator overflow and the survivor bits of the reckoner blocks. -/

namespace Sys2Proof.Machine

/-- `V + S` or a wrap to `B`, with its carry (R114). -/
def genInc (b e st v : Nat) : Nat × Bool :=
  let n := v + st
  if e < b ∨ e ≤ v ∨ e < n then (b, true) else (n, false)

/-- `V - S` or a wrap to `E`, with its carry (R114); the difference may go below 0. -/
def genDec (b e st v : Nat) : Nat × Bool :=
  let n : Int := (v : Int) - st
  if e < b ∨ v ≤ b ∨ n < b then (e, true) else (n.toNat, false)

/-- One generator operation at the end of a step (R113): new value and carry. `imm` is `AIMM`, `lda` what LDA loads. -/
def genOp (op b e st v imm lda : Nat) : Nat × Bool :=
  match op with
  | 1 => genInc b e st v
  | 2 => genDec b e st v
  | 3 => (b, false)
  | 4 => (e, false)
  | 5 => (imm, false)
  | 6 => ((v + imm) % 2 ^ 32, false)
  | 7 => (lda, false)
  | _ => (v, false)

/-- Number of 1 bits among the low `n` bits. -/
def ones (x n : Nat) : Nat :=
  match n with
  | 0 => 0
  | n + 1 => x % 2 + ones (x / 2) n

/-- Parity of a 32-bit value: 1 for an odd number of ones (R118). -/
def parity32 (x : Nat) : Bool := ones x 32 % 2 = 1

/-- One shift of the 64-bit Fibonacci LFSR (R119). -/
def lfsrShift (x : Nat) : Nat :=
  let b := (x / 2 ^ 63 + x / 2 ^ 62 + x / 2 ^ 60 + x / 2 ^ 59) % 2
  (x * 2 + b) % 2 ^ 64

/-- `n` shifts. -/
def lfsrShifts (x : Nat) : Nat → Nat
  | 0 => x
  | n + 1 => lfsrShifts (lfsrShift x) n

/-- The advance of a step with `LSTEP` = 1: 64 shifts (R119). -/
def lfsrStep (x : Nat) : Nat := lfsrShifts x 64

/-! ## Reckoner blocks (R82 to R95): what one cycle computes -/

/-- `w` low bits of `x` as a two's-complement value. -/
def sintOf (w x : Nat) : Int := if x % 2 ^ w < 2 ^ (w - 1) then (x % 2 ^ w : Nat) else ((x % 2 ^ w : Nat) : Int) - 2 ^ w

/-- The low 64 bits of an integer. -/
def wrap64 (x : Int) : Nat := (x % 2 ^ 64).toNat

/-- The multiplier output M (R83): `A` × `B`, or (`A[25:0]` ± `D[25:0]`) × `B` with the pre-adder. -/
def rknM (a b d : Nat) (pre sub : Bool) : Int :=
  if pre then (if sub then sintOf 26 a - sintOf 26 d else sintOf 26 a + sintOf 26 d) * sintOf 24 b
  else sintOf 27 a * sintOf 24 b

/-- The exact sum that an accumulator update forms (R83). -/
def rknSum (m : RknMode) (acc c casc : Nat) (mul : Int) (load : Bool) : Int :=
  match m with
  | .mult => mul
  | .mac => (if load then sintOf 64 c else sintOf 64 acc) + mul
  | .macc => sintOf 64 casc + mul
  | .add => if load then sintOf 64 c else sintOf 64 acc + sintOf 64 c
  | .acs => sintOf 64 acc

/-- The accumulator wraps modulo 2^64 (R85). -/
def rknAcc (m : RknMode) (acc c casc : Nat) (mul : Int) (load : Bool) : Nat := wrap64 (rknSum m acc c casc mul load)

/-- `OVF`: the update overflowed as a two's-complement value (R85). -/
def rknOvf (m : RknMode) (acc c casc : Nat) (mul : Int) (load : Bool) : Bool :=
  decide (sintOf 64 (rknAcc m acc c casc mul load) ≠ rknSum m acc c casc mul load)

/-- `P`: the accumulator shifted right arithmetically by `OUT_SHIFT` (R91). -/
def rknP (acc sh : Nat) : Nat := wrap64 (sintOf 64 acc / 2 ^ sh)

/-- The operand memory's narrowing (R86): operand A is word[35:9], operand B is word[35:12]. -/
def rknOperandA (w : Nat) : Nat := bitsOf w 9 27
def rknOperandB (w : Nat) : Nat := bitsOf w 12 24

/-- Metric order (R93): a is smaller when (a − b) mod 2^16 is 0x8000 or more. -/
def acsLess (a b : Nat) : Bool := decide (0x8000 ≤ (a + 2 ^ 16 - b % 2 ^ 16) % 2 ^ 16)

/-- `sel` with its survivor bit; on a tie the second argument is chosen (R92). -/
def acsSel (p q : Nat) : Nat × Bool := if acsLess p q then (p, false) else (q, true)

/-- One butterfly (R92): X, its survivor bit, Y, its survivor bit. -/
def acsButterfly (p q u v w z nrm : Nat) : Nat × Bool × Nat × Bool :=
  let x := acsSel ((p + u) % 2 ^ 16) ((q + v) % 2 ^ 16)
  let y := acsSel ((p + w) % 2 ^ 16) ((q + z) % 2 ^ 16)
  ((x.1 + 2 ^ 16 - nrm % 2 ^ 16) % 2 ^ 16, x.2, (y.1 + 2 ^ 16 - nrm % 2 ^ 16) % 2 ^ 16, y.2)

/-- `P`, `SURV` and `CMIN` of a block in ACS mode, table mode operands (R92, R94, R95): old metrics `c`, the words of slot 0
and slot 1, `NRM`, and what the block below gives where the cascade is enabled. -/
def acsBlock (c w0 w1 nrm : Nat) (below : Option Nat) : Nat × Nat × Nat :=
  let b0 := acsButterfly (bitsOf c 0 16) (bitsOf c 16 16) (bitsOf w0 0 9) (bitsOf w0 9 9) (bitsOf w0 18 9) (bitsOf w0 27 9) nrm
  let b1 := acsButterfly (bitsOf c 32 16) (bitsOf c 48 16) (bitsOf w1 0 9) (bitsOf w1 9 9) (bitsOf w1 18 9) (bitsOf w1 27 9) nrm
  let surv := b0.2.1.toNat + 2 * b0.2.2.2.toNat + 4 * b1.2.1.toNat + 8 * b1.2.2.2.toNat
  let least (a b : Nat) := if acsLess b a then b else a
  (b0.1 + b0.2.2.1 * 2 ^ 16 + b1.1 * 2 ^ 32 + b1.2.2.1 * 2 ^ 48, surv,
   (below.toList).foldl least (least (least (least b0.1 b0.2.2.1) b1.1) b1.2.2.1))

/-- The words of direct mode (R94): `A` = {w0, v0, u0}, `D` = {v1, u1, z0}, `B[17:0]` = {z1, w1}, as the table-mode words
with the same branch metrics. -/
def acsDirect (a d b : Nat) : Nat × Nat :=
  (bitsOf a 0 27 + bitsOf d 0 9 * 2 ^ 27, bitsOf d 9 9 + bitsOf d 18 9 * 2 ^ 9 + bitsOf b 0 9 * 2 ^ 18 + bitsOf b 9 9 * 2 ^ 27)

/-- The physical block of logical block `k` under slot map `m` of a reckoner column (R78). -/
def rknSlot (m k : Nat) : Nat := if m < 24 ∧ m ≤ k then k + 1 else k

/-- CRC-32 of IEEE 802.3 over `n` bits of `x`, least significant bit of each byte first (R51, R166, R197). -/
def crcBits (x : Nat) : Nat → Nat → Nat
  | 0, c => c
  | n + 1, c =>
    let c' := if (c ^^^ x) % 2 = 1 then c / 2 ^^^ 0xEDB88320 else c / 2
    crcBits (x / 2) n c'

def crc32 (x nbits : Nat) : Nat := crcBits x nbits 0xFFFFFFFF ^^^ 0xFFFFFFFF

/-- What the check of a CRC-32 sees of `n` altered data bits: the CRC is linear, so the altered bits alone decide it. -/
def crcLin (x nbits : Nat) : Nat := crcBits x nbits 0

/-- CRC-5 over `n` bits, polynomial x^5 + x^2 + 1, initial value 0, lowest bit first (R196). -/
def crc5 (x : Nat) : Nat → Nat → Nat
  | 0, c => c
  | n + 1, c =>
    let top := (c / 16 + x) % 2
    crc5 (x / 2) n ((c * 2 % 32) ^^^ (if top = 1 then 5 else 0))

/-! ## Lane patterns (R293, R300) -/

/-- Degree and second tap of a PRBS code; degree 0 for none. -/
def prbsTaps (g : Nat) : Nat × Nat :=
  match g with
  | 1 => (7, 6)
  | 2 => (9, 5)
  | 3 => (15, 14)
  | 4 => (23, 18)
  | 5 => (31, 28)
  | _ => (0, 0)

/-- The training block of lane `i` with block count `n` (R293). -/
def trainBlock (i n : Nat) : Nat :=
  0xB4C7 + i % 8 * 2 ^ 16 + (7 - i % 8) * 2 ^ 24 + 0b11111 * 2 ^ 27 + n % 2 ^ 32 * 2 ^ 32

/-- What a receiver reads in a block: the index, and whether the marker was inverted; none without a valid marker and index. -/
def readBlock (b : Nat) : Option (Nat × Bool) :=
  let inv := b % 2 ^ 16 == 0x4B38
  let x := if inv then 2 ^ 64 - 1 - b else b
  let i := bitsOf x 16 3
  if x % 2 ^ 16 = 0xB4C7 ∧ bitsOf x 24 3 = 7 - i then some (i, inv) else none

/-- The register with which a generator starts: all ones; the training block starts with its first bit, count 0. -/
def genSeed (g : Nat) : Nat := 2 ^ (prbsTaps g).1 - 1

/-- The next bit of generator `g` of bundle lane `i`, and its register after it. A Fibonacci register of the polynomial
x^a + x^b + 1 shifts out bit 0; the bit that enters makes each bit the sum of those a and b bits before it. -/
def genBit (g i reg : Nat) : Bool × Nat :=
  if g = 6 then ((trainBlock i (reg / 64)).testBit (reg % 64), reg + 1)
  else
    let (a, b) := prbsTaps g
    (reg.testBit 0, reg / 2 + (if reg.testBit 0 != reg.testBit (a - b) then 2 ^ (a - 1) else 0))

/-- The next `n` bits, the first in bit 0. -/
def genBits (g i reg : Nat) : Nat → Nat × Nat
  | 0 => (0, reg)
  | n + 1 =>
    let (b, r) := genBit g i reg
    let (x, r) := genBits g i r n
    (b.toNat + 2 * x, r)

/-! ## Checkers (R300, R308) -/

/-- Degree of a checker's polynomial; for the PAM4 codes that of the pattern they stand for (log entry 137). -/
def chkDegree (pam : Bool) (g : Nat) : Nat := if pam then (if g = 1 then 13 else 31) else (prbsTaps g).1

/-- The bit that the polynomial gives after the bits before. -/
def chkNext (pam : Bool) (g reg : Nat) : Bool :=
  if pam then Config.pam4Next g reg else reg.testBit ((prbsTaps g).1 - 1) != reg.testBit ((prbsTaps g).2 - 1)

/-- One received bit: the checker after it, whether it is locked, and whether the bit is an error that counts. It locks after
2 × degree bits in a row that agree, and loses its lock on 64 errors within 1,024 bits. -/
def chkBit (pam : Bool) (g : Nat) (c : ChkRt) (locked b : Bool) : ChkRt × Bool × Bool :=
  let deg := chkDegree pam g
  let full := decide (deg ≤ c.seen)
  let err := full && b != chkNext pam g c.reg
  let d := { c with reg := (2 * c.reg + b.toNat) % 2 ^ 31, seen := min deg (c.seen + 1) }
  if locked then
    let errs := (if err then [c.pos] else []) ++ c.errs.filter (fun x => decide (c.pos < x + 1024))
    if 64 ≤ errs.length then ({ d with run := 0, pos := 0, errs := [] }, false, err)
    else ({ d with pos := c.pos + 1, errs := errs }, true, err)
  else
    let run := if full && !err then c.run + 1 else 0
    if 2 * deg ≤ run then ({ d with run := 0, pos := 0, errs := [] }, true, false) else ({ d with run := run }, false, false)

/-- What bits, the first in time first, make of a checker and its lock; `n` and `e` count the bits met while it was locked and
the errors among them. -/
def chkRun (pam : Bool) (g : Nat) : List Bool → ChkRt → Bool → Nat → Nat → ChkRt × Bool × Nat × Nat
  | [], c, locked, n, e => (c, locked, n, e)
  | b :: r, c, locked, n, e =>
    let x := chkBit pam g c locked b
    chkRun pam g r x.1 x.2.1 (n + locked.toNat) (e + (locked && x.2.2).toNat)

/-! ## PAM4 mapping (R305) -/

/-- The Gray level of a pair of bits, the first in time in bit 0, and back. -/
def grayLevel (p : Nat) : Nat := if p = 0 then 0 else if p = 2 then 1 else if p = 3 then 2 else 3
def grayBits (l : Nat) : Nat := if l = 0 then 0 else if l = 1 then 2 else if l = 2 then 3 else 1

/-- `n` pairs of bits as levels, two bits each, the first lowest; the precoder sends s − its last level, modulo 4. -/
def mapLevels (pre : Bool) (x prev : Nat) : Nat → Nat × Nat
  | 0 => (0, prev)
  | n + 1 =>
    let l := grayLevel (x % 4)
    let p := if pre then (l + 4 - prev % 4) % 4 else l
    let (y, q) := mapLevels pre (x / 4) p n
    (p + 4 * y, q)

/-- The inverse: levels received, `prev` the level before. -/
def unmapLevels (pre : Bool) (x prev : Nat) : Nat → Nat × Nat
  | 0 => (0, prev)
  | n + 1 =>
    let p := x % 4
    let (y, q) := unmapLevels pre (x / 4) p n
    (grayBits (if pre then (p + prev) % 4 else p) + 4 * y, q)

/-! ## AES modes (R260, R271) -/

/-- Byte `j` of a block goes to byte 15 - j. -/
def flipBlock (x : BitVec 128) : BitVec 128 :=
  BitVec.ofNat 128 ((List.range 16).foldl (fun y j => y * 256 + x.toNat / 256 ^ j % 256) 0)

/-- Multiplication by α in GF(2^128), byte 0 lowest (IEEE 1619). -/
def gfDouble (x : BitVec 128) : BitVec 128 := (x <<< 1) ^^^ (if x.msb then 0x87#128 else 0)

/-- The 16-byte blocks of a number, block j in bytes 16j to 16j + 15, and back. -/
def blocks (x n : Nat) : List (BitVec 128) := (List.range n).map fun j => BitVec.ofNat 128 (x / 2 ^ (128 * j))
def unblocks (l : List (BitVec 128)) : Nat := l.foldr (fun b x => b.toNat + x * 2 ^ 128) 0

/-- The AES-256 CMAC of whole blocks (NIST SP 800-38B): the last one takes the subkey K1. -/
def cmac (k : BitVec 256) : List (BitVec 128) → BitVec 128 → BitVec 128
  | [], x => x
  | [b], x => Config.aes256 k (x ^^^ b ^^^ flipBlock (gfDouble (flipBlock (Config.aes256 k 0))))
  | b :: c :: r, x => cmac k (c :: r) (Config.aes256 k (x ^^^ b))

/-- The first `n` bits of a CMAC as a number, its first bit the highest. -/
def cmacFirst (k : BitVec 256) (l : List (BitVec 128)) (n : Nat) : Nat := (flipBlock (cmac k l 0)).toNat / 2 ^ (128 - n)

end Sys2Proof.Machine
end

