-- ==== Sys2Proof/Machine/Ops.lean ====
section
/-! DEFINITION. The named operations over the state: register fields, time, events, permits, memories, resets. -/

namespace Sys2Proof.Machine

/-- What a meaning answers. -/
abbrev Ans := Host.Outcome State Fault Refusal

/-! ## Register fields -/

/-- The key of a field of an instance. -/
def fkey (f : Fld) (i : List Nat) : Key := f.ctorIdx :: i

/-- The stored value of a field (its reset value where nothing is listed, R6). -/
def State.rd (s : State) (f : Fld) (i : List Nat) : Nat := smGet s.regs (fkey f i) (f.reset i)

/-- Store a value in a field, cut to the field's width. -/
def State.wr (s : State) (f : Fld) (i : List Nat) (v : Nat) : State :=
  { s with regs := smPut s.regs (fkey f i) (v % 2 ^ f.spec.width) (f.reset i) }

/-- Is a one-bit field set? -/
def State.on (s : State) (f : Fld) (i : List Nat) : Bool := s.rd f i != 0

/-- Add to a counter that stops at its maximum. -/
def State.bump (s : State) (f : Fld) (i : List Nat) (n : Nat := 1) : State :=
  s.wr f i (min (s.rd f i + n) (2 ^ f.spec.width - 1))

/-- Add one to a counter that wraps. -/
def State.incr (s : State) (f : Fld) (i : List Nat) : State := s.wr f i (s.rd f i + 1)

/-- A value in a bit of a field. -/
def State.setBit (s : State) (f : Fld) (i : List Nat) (b : Nat) (v : Bool) : State :=
  s.wr f i (if v then s.rd f i ||| 2 ^ b else s.rd f i - (s.rd f i &&& 2 ^ b))

/-! ## Places -/

/-- Offset of fabric die `n` in BAR0 (R21). -/
def dieBase (n : Nat) : Nat := 0x1000000 + n * 0x200000

/-- The die of global channel lane `l`, and its number there (R9, R286). -/
def laneDie (l : Nat) : Nat := if l % 56 < 16 then 2 * (l / 56) else 2 * (l / 56) + 1
def laneLocal (l : Nat) : Nat := if l % 56 < 16 then l % 56 else l % 56 - 16
/-- The global number of lane `l` of die `n`. -/
def laneGlobal (n l : Nat) : Nat := 56 * (n / 2) + (if n % 2 = 0 then l else 16 + l)
/-- The same for bundles and trunk lanes. -/
def bundleDie (b : Nat) : Nat := laneDie (8 * b)
def bundleLocal (b : Nat) : Nat := laneLocal (8 * b) / 8
def trunkDie (t : Nat) : Nat := 2 * (t / 8) + 1
def trunkGlobal (n t : Nat) : Nat := 8 * (n / 2) + t
/-- Channel lanes of a die (R286). -/
def laneCount (n : Nat) : Nat := if n % 2 = 0 then 16 else 40

/-- The die of engine `e` (R9). -/
def engDie (e : Nat) : Nat := e / 12

/-- The die whose steward serves governor `g`: 0 to 7 core, 8 hub, 9 to 12 the HBM governors of M0 to M3. -/
def govSite (g : Nat) : Nat := if g < 9 then g else 2 * (g - 9)

/-- Σ stride · index. -/
def strideSum : List (Nat × Nat) → List Nat → Nat
  | (st, _) :: r, i :: is => st * i + strideSum r is
  | _, _ => 0

/-- Where an instance of a register belongs: die 0 to 7, or 8 for the hub. -/
def Reg.site (r : Reg) (i : List Nat) : Nat :=
  match r.place.1 with
  | .hub | .pel | .pelsh => 8
  | .die | .rtr | .noc | .ni | .gk | .tel => i.headD 0
  | .stk => 2 * i.headD 0
  | .eng => engDie (i.headD 0)
  | .bnd => bundleDie (i.headD 0)
  | .lane => laneDie (i.headD 0)
  | .trk => trunkDie (i.headD 0)
  | .gov => govSite (i.headD 0)

/-- The BAR0 offset of an instance of a register (R21, R22 and each register's own rule). -/
def Reg.addr (r : Reg) (i : List Nat) : Nat :=
  let (sp, off, st) := r.place
  let i0 := i.headD 0
  let i1 := i.getD 1 0
  match sp with
  | .hub => off + strideSum st i
  | .die => dieBase i0 + off + strideSum st i.tail
  | .stk => dieBase (2 * i0) + off + strideSum st i.tail
  | .eng => dieBase (engDie i0) + 0xC0000 + i0 % 12 * 0x2000 + off + strideSum st i.tail
  | .rtr => (if i0 < 8 then dieBase i0 + 0x40000 else 0x800000) + i1 * 0x400 + off + strideSum st (i.drop 2)
  | .noc => (if i0 < 8 then dieBase i0 + 0x40000 else 0x800000) + off
  | .ni => (if i0 < 8 then dieBase i0 + 0x48000 else 0x808000) + i1 * 0x800 + off + strideSum st (i.drop 2)
  | .gk => (if i0 < 8 then dieBase i0 + (if i1 < 2 then 0x60000 + i1 * 0x8000 else 0x80000) else 0x880000 + i1 * 0x8000)
      + off + strideSum st (i.drop 2)
  | .bnd => dieBase (bundleDie i0) + 0x100000 + bundleLocal i0 * 0x100 + off
  | .lane => dieBase (laneDie i0) + 0x110000 + laneLocal i0 * 0x100 + off
  | .trk => dieBase (trunkDie i0) + 0x130000 + i0 % 8 * 0x400 + off
  | .gov => (if i0 < 8 then dieBase i0 + 0x100 else if i0 = 8 then 0x3000 else dieBase (2 * (i0 - 9)) + 0x140) + off
  | .tel => (if i0 < 8 then dieBase i0 + 0x200 else 0x400200) + off + strideSum st i.tail
  | .pel | .pelsh => 0x5F0000 + off

/-- Split a rest of an offset into indices. -/
def unstride : List (Nat × Nat) → Nat → Option (List Nat)
  | [], 0 => some []
  | [], _ => none
  | (st, n) :: r, x => if x / st < n then (unstride r (x % st)).map (x / st :: ·) else none

/-- The instance index that `Reg.addr` leaves before the strides, and the offset inside the space, for each space that
holds BAR0 offset `a`. -/
def Space.locate (sp : Space) (a : Nat) : Option (List Nat × Nat) :=
  let die := 0x1000000 ≤ a
  let n := (a - 0x1000000) / 0x200000
  let x := (a - 0x1000000) % 0x200000
  match sp with
  | .hub => if die then none else some ([], a)
  | .die => if die then some ([n], x) else none
  | .stk => if die ∧ n % 2 = 0 then some ([n / 2], x) else none
  | .eng => if die ∧ 0xC0000 ≤ x ∧ x < 0xD8000 then some ([12 * n + (x - 0xC0000) / 0x2000], (x - 0xC0000) % 0x2000) else none
  | .rtr => if die then (if 0x40000 ≤ x ∧ x < 0x46000 then some ([n, (x - 0x40000) / 0x400], (x - 0x40000) % 0x400) else none)
      else if 0x800000 ≤ a ∧ a < 0x804000 then some ([8, (a - 0x800000) / 0x400], (a - 0x800000) % 0x400) else none
  | .noc => if die then (if 0x40000 ≤ x ∧ x < 0x48000 then some ([n], x - 0x40000) else none)
      else if 0x800000 ≤ a ∧ a < 0x808000 then some ([8], a - 0x800000) else none
  | .ni => if die then (if 0x48000 ≤ x ∧ x < 0x60000 then some ([n, (x - 0x48000) / 0x800], (x - 0x48000) % 0x800) else none)
      else if 0x808000 ≤ a ∧ a < 0x818000 then some ([8, (a - 0x808000) / 0x800], (a - 0x808000) % 0x800) else none
  | .gk => if die then
        (if 0x60000 ≤ x ∧ x < 0x70000 then some ([n, (x - 0x60000) / 0x8000], (x - 0x60000) % 0x8000)
         else if 0x80000 ≤ x ∧ x < 0x88000 then some ([n, 2], x - 0x80000) else none)
      else if 0x880000 ≤ a ∧ a < 0x8C0000 then some ([8, (a - 0x880000) / 0x8000], (a - 0x880000) % 0x8000) else none
  | .bnd => if die ∧ 0x100000 ≤ x ∧ x < 0x100000 + laneCount n / 8 * 0x100 then
        some ([laneGlobal n (8 * ((x - 0x100000) / 0x100)) / 8], (x - 0x100000) % 0x100) else none
  | .lane => if die ∧ 0x110000 ≤ x ∧ x < 0x110000 + laneCount n * 0x100 then
        some ([laneGlobal n ((x - 0x110000) / 0x100)], (x - 0x110000) % 0x100) else none
  | .trk => if die ∧ n % 2 = 1 ∧ 0x130000 ≤ x ∧ x < 0x132000 then
        some ([trunkGlobal n ((x - 0x130000) / 0x400)], (x - 0x130000) % 0x400) else none
  | .gov => if die then
        (if 0x100 ≤ x ∧ x < 0x114 then some ([n], x - 0x100)
         else if n % 2 = 0 ∧ 0x140 ≤ x ∧ x < 0x154 then some ([9 + n / 2], x - 0x140) else none)
      else if 0x3000 ≤ a ∧ a < 0x3014 then some ([8], a - 0x3000) else none
  | .tel => if die then (if 0x200 ≤ x ∧ x < 0x220 then some ([n], x - 0x200) else none)
      else if 0x400200 ≤ a ∧ a < 0x400220 then some ([8], a - 0x400200) else none
  | .pel => if 0x5F0000 ≤ a ∧ a < 0x5F0030 then some ([1], a - 0x5F0000) else none
  | .pelsh => if 0x5F0030 ≤ a ∧ a < 0x5F0040 then some ([], a - 0x5F0000) else none

/-- The register at a BAR0 offset, if one is allocated there. -/
def regAt (a : Nat) : Option (Reg × List Nat) :=
  Reg.all.findSome? fun r =>
    let (sp, off, st) := r.place
    match sp.locate a with
    | none => none
    | some (pre, x) => if off ≤ x then (unstride st (x - off)).map (fun is => (r, pre ++ is)) else none

/-- `BLOCK` of a record (R494): the register offset of the reporting block divided by 256, a die offset for a fabric die
and a BAR0 offset for the hub. -/
def Reg.blockNo (r : Reg) (i : List Nat) : Nat :=
  let a := r.addr i
  (if a < 0x1000000 then a else (a - 0x1000000) % 0x200000) / 256

/-- The range of event codes of the block a register belongs to (R495). -/
def Reg.range (r : Reg) : Nat :=
  let x := (r.addr [0, 0, 0, 0]) % 0x200000
  match r.place.1 with
  | .eng => 0x0200
  | .rtr | .noc | .ni => 0x0300
  | .gk => 0x0400
  | .bnd | .lane | .trk => 0x0700
  | .gov => 0x0A00
  | .tel => 0x0E00
  | .pel | .pelsh => 0x0D00
  | .stk => if x < 0x100000 then 0x0400 else if x < 0x180000 then 0x0500 else 0x0600
  | .die => if 0xA0000 ≤ x ∧ x < 0xC0000 then 0x0400 else if 0x1C0000 ≤ x then 0x0A00 else 0x0100
  | .hub =>
    if r.addr [0] < 0x200 then 0x0B00 else if r.addr [0] < 0x300 then 0x0200 else if r.addr [0] < 0x1000 then 0x0500
    else if r.addr [0] < 0x4000 then 0x0A00 else if r.addr [0] < 0x6000 then 0x0B00 else if r.addr [0] < 0x100000 then 0x0C00
    else if r.addr [0] < 0x200000 then 0x0800 else if r.addr [0] < 0x300000 then 0x0900
    else if r.addr [0] < 0x400000 then 0x0C00 else if r.addr [0] < 0x500000 then 0x0F00
    else if r.addr [0] < 0x800000 then 0x0D00 else 0x0400

/-! ## Time -/

/-- One nanosecond in the units of `local_`. -/
def nsUnit : Nat := 2 ^ 16 * 1000000000

/-- Local time wraps at 2^48 s (R352). -/
def localWrap : Nat := 2 ^ 48 * 1000000000 * nsUnit

/-- A two's-complement 32-bit value as an integer. -/
def sint32 (v : Nat) : Int := if v < 2 ^ 31 then (v : Int) else (v : Int) - 2 ^ 32

/-- What local time gains in one nanosecond of elapsed time: 1 ns plus the rate (R353). -/
def State.rateUnits (s : State) : Nat := (nsUnit + sint32 (s.rd .SX_ADJ_RATE [])).toNat

/-- Local time runs from the end of boot stage 3 (R401). -/
def State.timeRuns (s : State) : Bool := s.clocksUp

/-- A value moves toward a target by at most `d`. -/
def pullToward (cur tgt : Int) (d : Nat) : Int := if cur ≤ tgt then min tgt (cur + d) else max tgt (cur - d)

/-- The offset that the reference spine is pulled to: that of `SX_ADJ` while `SYNTONISE` is 1 (R353, R373). -/
def State.pullTarget (s : State) : Int := if s.on .SX_CTL_SYNTONISE [] then sint32 (s.rd .SX_ADJ_RATE []) * 1000 else 0

/-- Let `dt` ns pass. The spine follows `SX_ADJ` at 1 ppm per ms, the time counter at once (R353). -/
def State.lapse (s : State) (dt : Nat) : State :=
  { s with
    now := s.now + dt
    spinePull := if s.timeRuns then pullToward s.spinePull s.pullTarget (dt * 65536) else s.spinePull
    local_ := if s.timeRuns then (s.local_ + dt * s.rateUnits) % localWrap else s.local_ }

/-- Let time pass until elapsed time `t` (none passes if it is reached already). -/
def State.lapseTo (s : State) (t : Nat) : State := s.lapse (t - s.now)

/-- Local time in whole ns, fraction dropped. -/
def State.localNs (s : State) : Nat := s.local_ / nsUnit

/-- Let time pass until local time reaches `t` ns. -/
def State.lapseToLocal (s : State) (t : Nat) : State :=
  s.lapse (ceilDiv (t * nsUnit - s.local_) s.rateUnits)

/-! ## Events (R15, R16, R494, R538) -/

/-- The steward of die `n`; 8 is the hub's event collector. -/
def State.steward (s : State) (n : Nat) : Steward := smGet s.stewards [n] {}
def State.setSteward (s : State) (n : Nat) (q : Steward) : State := { s with stewards := smPut s.stewards [n] q {} }

/-- The overflow event (R16): code 0x0F01 with the count. -/
def overflowRep (s : State) (n c : Nat) : Report :=
  { code := .fixed 0x0F01, sev := 2, die := n, block := 0, count := c, time := s.localNs, valid := s.on .SX_STAT_VALID [] }

/-- Queue the counts of lost reports as far as there is space: each full count of 65,535, then the count that runs (R16). -/
def Steward.spill (q : Steward) (mk : Nat → Report) : Steward :=
  let k := min q.lostFull (256 - q.queue.length)
  let q := { q with queue := q.queue ++ List.replicate k (mk 65535), lostFull := q.lostFull - k }
  if q.queue.length < 256 ∧ q.lostFull = 0 ∧ 0 < q.lost then { q with queue := q.queue ++ [mk q.lost], lost := 0 } else q

/-- Queue one report at a steward, or count it where the queue is full (R16). The hub's collector has no queue bound. -/
def Steward.push (q : Steward) (r : Report) (bounded : Bool) : Steward :=
  if !bounded || (q.queue.length < 256 && q.lost = 0 && q.lostFull = 0) then { q with queue := q.queue ++ [r] }
  else if q.lost + 1 = 65535 then { q with lost := 0, lostFull := q.lostFull + 1 }
  else { q with lost := q.lost + 1 }

/-- A report reaches the steward of its site. -/
def State.push (s : State) (n : Nat) (r : Report) : State :=
  let q := s.steward n
  let q := if n < 8 then q.spill (overflowRep s n) else q
  s.setSteward n (q.push r (decide (n < 8)))

/-- The block of register `r` raises the event of rule `rule`. -/
def State.raise (s : State) (r : Reg) (i : List Nat) (rule sev : Nat) (d : List Nat := []) : State :=
  let n := r.site i
  s.push n { code := .ofRule r.range rule, sev := sev, die := n, block := r.blockNo i, time := s.localNs,
             valid := s.on .SX_STAT_VALID [], arg := .details d }

/-- An event whose code and argument the manual fixes. -/
def State.raiseFixed (s : State) (r : Reg) (i : List Nat) (code sev : Nat) (arg : Arg := .known 0) : State :=
  let n := r.site i
  s.push n { code := .fixed code, sev := sev, die := n, block := r.blockNo i, time := s.localNs,
             valid := s.on .SX_STAT_VALID [], arg := arg }

/-- The number of a writer in a record (R538). -/
def writerNum : Writer → Nat
  | .fn f => f.val
  | .helm _ => 8
  | .binnacle => 9
  | .pelorus _ => 10
  | .ring _ => 11
  | .other => 15

/-- `ARG` of a dropped or narrow write of a register (R538). -/
def dropArg (w : Writer) (off v : Nat) : Nat := off % 2 ^ 25 + writerNum w * 2 ^ 28 + v % 2 ^ 32 * 2 ^ 32

/-- A write dropped by a rule of the manual: code 0x0F03 (R495, R538). `v` is the value written. -/
def State.drop (s : State) (w : Writer) (r : Reg) (i : List Nat) (v : Nat) : State :=
  s.raiseFixed r i 0x0F03 2 (.known (dropArg w (r.addr i) v))

/-- The word of a register with some of its fields replaced: the value a command that writes only those fields stands for. -/
def State.wordWith (s : State) (r : Reg) (i : List Nat) (fs : List (Fld × Nat)) : Nat :=
  (r.fields.map fun f =>
    let v := match fs.find? (fun p => p.1 = f) with
      | some p => p.2
      | none => if f.spec.acc = .rw then s.rd f i else 0
    v % 2 ^ f.spec.width * 2 ^ f.spec.lo).sum

/-- The same, for a command that writes one field. -/
def State.dropF (s : State) (w : Writer) (f : Fld) (i : List Nat) (v : Nat) : State :=
  s.drop w f.reg i (s.wordWith f.reg i [(f, v)])

/-! ## Health (R499, R503) -/

def State.hlth (s : State) (n : Nat) : Health := smGet s.health [n] {}

/-- Compute the health stage again (R503). -/
def State.healthUpdate (s : State) (n : Nat) (h : Health) : State :=
  let s := { s with health := smPut s.health [n] h {} }
  s.wr .MGMT_HEALTH_STAGE [n]
    (if h.dead then 4 else if h.capLost || h.secLost then 3 else if h.low ≠ 0 then 2 else if h.used then 1 else 0)

/-- Capacity is lost on die `n`. -/
def State.capacityLost (s : State) (n : Nat) : State := s.healthUpdate n { s.hlth n with capLost := true }

/-- A sector of die `n` is unavailable: the repair record keeps it (R59, R503). -/
def State.sectorLost (s : State) (n : Nat) : State := s.healthUpdate n { s.hlth n with secLost := true }

/-- A service notice (R499): code, item, margin, detail; `bit` is the class of the resource in `MGMT_HEALTH.ZERO`, if it
has one. -/
def State.notice (s : State) (r : Reg) (i : List Nat) (code item margin detail : Nat) (bit : Option Nat) : State :=
  let n := r.site i
  let s := s.raiseFixed r i code 1 (.known (margin % 2 ^ 16 + item % 2 ^ 16 * 2 ^ 16 + detail % 2 ^ 32 * 2 ^ 32))
  let h := { s.hlth n with used := true }
  match bit with
  | some b =>
    if margin = 0 then (s.setBit .MGMT_HEALTH_ZERO [n] b true).healthUpdate n { h with low := h.low ||| 2 ^ b }
    else s.healthUpdate n h
  | none => s.healthUpdate n h

/-- An entry of the hub's repair record. -/
def State.record (s : State) (e : List Nat) : State := { s with repairs := e :: s.repairs }

/-! ## Register accesses to dies (R12, R23, R389) -/

/-- Die `n` is in service (R24). -/
def State.up (s : State) (n : Nat) : Bool := s.rd .HUB_DIE_STATE_STATE [n] = 3

/-- Registers in power domain `F_INFRA` (R386). -/
def Reg.infra (r : Reg) : Bool :=
  match r.place.1 with
  | .eng | .rtr | .noc | .ni | .gk | .stk => true
  | .die => r.range == 0x0400
  | _ => false

/-- A register access to a die not in service (R23): the hub logs it. -/
def State.deadAccess (s : State) (w : Writer) (r : Reg) (i : List Nat) : State :=
  s.raise .HUB_DIE_STATE [r.site i] 23 2 [writerNum w, r.addr i]

/-- BAR writes of a function are dropped from the initiation of its reset until the reset is done (R347). -/
def State.mute (s : State) (w : Writer) : Bool :=
  match w with
  | .fn f => s.on .HIF_FN_STAT_FLR_BUSY [f]
  | _ => false

/-- The privilege level of a Pelorus path (R449). -/
def State.pelLevel (s : State) (p : Nat) : Nat :=
  if p = 0 then s.rd .LS_DBG_STAT_JTAG_LEVEL [] else s.rd .LS_DBG_STAT_PCIE_LEVEL []

/-- The writer has the rights of an administrative function, or of a helm core (R316, R485). -/
def State.isAdminW (s : State) (w : Writer) : Bool :=
  match w with
  | .fn f => f.val == 0 || f.val == 4
  | .pelorus p => decide (3 ≤ s.pelLevel p)
  | _ => false
def State.isHelmW (s : State) (w : Writer) : Bool :=
  match w with
  | .helm _ => true
  | .pelorus p => decide (2 ≤ s.pelLevel p)
  | _ => false

/-- A register of the hub global region (R21). -/
def Reg.hubGlobal (r : Reg) (i : List Nat) : Bool := decide (r.addr i < 0x100000)

/-- An unlock of `RST_CMD` is in force (R416). -/
def State.unlocked (s : State) : Bool :=
  match s.rstUnlock with
  | some (t, _) => decide (s.now ≤ t)
  | none => false

/-- A register write reaches its block: it does not where the die is out of service (R23); it is dropped and logged where
the die is in P2 and the block belongs to `F_INFRA` (R389), and in the hub global region between an unlock and its command,
which cancels the unlock (R416). -/
def State.reach (s : State) (w : Writer) (r : Reg) (i : List Nat) (v : Nat) (k : State → State) : State :=
  let n := r.site i
  if s.mute w then s
  else if n < 8 ∧ s.up n = false then s.deadAccess w r i
  else if n < 8 ∧ r.infra ∧ s.rd .PWR_DIE_STAT_PSTATE [n] = 2 then s.drop w r i v
  else if r.hubGlobal i ∧ s.unlocked then ({ s with rstUnlock := none } : State).drop w r i v
  else k s

/-! ## Draw permits (R391 to R394) -/

def State.gov (s : State) (g : Nat) : Gov := smGet s.govs [g] {}
def State.setGov (s : State) (g : Nat) (x : Gov) : State := { s with govs := smPut s.govs [g] x {} }

/-- Sum of the units of permits. -/
def unitSum (l : List Permit) : Nat := (l.map (·.units)).sum

/-- `PG_STAT.HELD`. -/
def State.heldUnits (s : State) (g : Nat) : Nat := unitSum (s.gov g).held

/-- Step permits return by themselves 20 µs after the grant (R394, R395). -/
def isStepOp (op : Nat) : Bool := op = 3 || op = 4 || op = 13 || op = 14 || op = 15 || op = 16 || op = 18

def Permit.is (p : Permit) (op : Nat) (who : List Nat) : Bool := p.op = op && p.who = who

/-- A request is withdrawn as timed out (R393): counted, recorded under the first-timeout rule, reported. -/
def State.expire (s : State) (g : Nat) (p : Permit) (oversize : Bool) : State :=
  let s := s.bump .PG_TO_CNT_COUNT [g]
  let s := if s.on .PG_ERR_VALID [g] then s
    else (((s.wr .PG_ERR_OP [g] p.op).wr .PG_ERR_UNITS [g] p.units).wr .PG_ERR_OVERSIZE [g] (if oversize then 1 else 0)).wr
      .PG_ERR_VALID [g] 1
  let x := s.gov g
  (s.setGov g { x with expired := x.expired ++ [p] }).raise .PG_CFG [g] 393 2 (p.op :: p.units :: p.who)

/-- A request joins a governor's queue, or is withdrawn at once as oversize (R393). `chain` lists the governors, operations
and units still to be asked for after this grant (R394, R396). -/
def State.request (s : State) (g op units : Nat) (who : List Nat) (chain : List (List Nat)) : State :=
  let t := s.rd .PG_CFG_TIMEOUT [g]
  let p : Permit := { op, who, units, t := s.now, due := if t = 0 then 0 else s.now + t * 10000, chain }
  if s.rd .PG_CFG_BUDGET [g] < units then s.expire g p true
  else
    let x := s.gov g
    s.setGov g { x with queue := x.queue ++ [p] }

/-- The units of the head request fit the budget (R391). -/
def State.headFits (s : State) (g : Nat) : Bool :=
  match (s.gov g).queue with
  | [] => false
  | p :: _ => decide (s.heldUnits g + p.units ≤ s.rd .PG_CFG_BUDGET [g])

/-- The earliest instant of the next grant under the spacing rule (R391). -/
def State.grantTime (s : State) (g : Nat) : Nat :=
  let x := s.gov g
  x.lastT + ceilDiv (x.lastU * 1000) (s.rd .PG_CFG_RAMP [g])

/-- Grant the head request of governor `g` (it must fit): `HELD` rises, and the next request of its chain is made. -/
def State.grantHead (s : State) (g : Nat) : State :=
  match (s.gov g).queue with
  | [] => s
  | p :: q =>
    if s.headFits g then
      let s := s.lapseTo (s.grantTime g)
      let x := s.gov g
      let p' := { p with t := s.now, due := 0 }
      let s := s.setGov g { x with
        queue := q, held := x.held ++ [p'], ready := (if p.chain.isEmpty then x.ready ++ [p'] else x.ready),
        lastT := s.now, lastU := p.units }
      let s := s.bump .PG_GRANT_CNT_COUNT [g]
      match p.chain with
      | [] => s
      | c :: rest => s.request (c.getD 0 0) (c.getD 1 0) (c.getD 2 0) p.who rest
    else s

/-- The requester `who` acts on a grant of operation `op` at governor `g`, whether the governor has given it already or
gives it now, the request being at the head and fitting. -/
def State.takeGrant (s : State) (g op : Nat) (who : List Nat) : Option State :=
  let s' := if (s.gov g).ready.any (·.is op who) then s
    else match (s.gov g).queue with
      | p :: _ => if p.is op who then s.grantHead g else s
      | [] => s
  let x := s'.gov g
  if x.ready.any (·.is op who) then
    some (s'.setGov g { x with ready := x.ready.filter (fun p => !p.is op who) })
  else none

/-- The requester acts on the timeout of its request, whether it has been withdrawn already or is withdrawn now. -/
def State.takeTimeout (s : State) (g op : Nat) (who : List Nat) : Option State :=
  let s' := if (s.gov g).expired.any (·.is op who) then s
    else match (s.gov g).queue.find? (·.is op who) with
      | some p =>
        if p.due = 0 then s
        else
          let s := s.lapseTo p.due
          let x := s.gov g
          (s.setGov g { x with queue := x.queue.filter (fun p => !p.is op who) }).expire g p false
      | none => s
  let x := s'.gov g
  if x.expired.any (·.is op who) then
    some (s'.setGov g { x with expired := x.expired.filter (fun p => !p.is op who) })
  else none

/-- Return every unit that `who` holds of `op` at governor `g`, and withdraw its requests there (R394). -/
def State.giveBack (s : State) (g op : Nat) (who : List Nat) : State :=
  let x := s.gov g
  let out (l : List Permit) := l.filter (fun p => !p.is op who)
  s.setGov g { x with queue := out x.queue, held := out x.held, ready := out x.ready, expired := out x.expired }

/-- Does `who` hold a permit of `op` at governor `g`? -/
def State.holds (s : State) (g op : Nat) (who : List Nat) : Bool := (s.gov g).held.any (·.is op who)

/-- Is a request or an unused grant of `who` there? -/
def State.waits (s : State) (g op : Nat) (who : List Nat) : Bool :=
  let x := s.gov g
  x.queue.any (·.is op who) || x.ready.any (·.is op who)

/-! ## Free values -/

/-- Draw a fresh free value of `w` bits: nothing constrains it. -/
def State.draw (s : State) (w : Nat) : Nat × State :=
  ((Config.freeValue s.draws).toNat % 2 ^ w, { s with draws := s.draws + 1 })

/-- Pins that the boundary-scan chain covers (R484): `PPS_OUT`, `CLKOUT0`, `CLKOUT1`, the channel and trunk lanes. -/
def Out.scanned : Out → Bool
  | .pin k _ => k == 0 || k == 10 || k == 11
  | .clkout _ _ _ _ => true
  | .slot _ _ _ | .txWord _ _ _ => true
  | _ => false

/-- Something leaves the device; covered pins do not follow while they are under scan control (R484). -/
def State.emit (s : State) (o : Out) : State := if s.tap.scan && o.scanned then s else { s with out := o :: s.out }

/-! ## Resets of register classes (R6) -/

/-- Drop the listed values of the fields that `p` selects: they read their reset values again. -/
def State.clearRegs (s : State) (p : Fld → List Nat → Bool) : State :=
  { s with regs := s.regs.filter (fun e => match e.1 with
      | [] => true
      | k :: i => match Fld.ofIdx k with
        | some f => !p f i
        | none => true) }

/-- The class of a field of an instance: in the hub's copies of die registers class DIE is class HUB (R189, R191, R228,
R400, R513); every field of a hub end of a spoke is of class HUB. -/
def Fld.clsAt (f : Fld) (i : List Nat) : Cls :=
  let sp := f.reg.place.1
  if f.reg.site i = 8 ∧ sp = .gk then .hub
  else if f.reg.site i = 8 ∧ f.spec.cls = .die then .hub
  else f.spec.cls

/-- A reset of die `n` returns its fields of classes DIE, SEC and ENG (R6). -/
def dieClears (n : Nat) (f : Fld) (i : List Nat) : Bool :=
  f.reg.site i == n && (match f.clsAt i with
    | .die | .sec | .eng => true
    | _ => false)

end Sys2Proof.Machine
end

