-- ==== Sys2Proof/Machine/Cells.lean ====
section
/-! DEFINITION. What the fabric holds and what a user's design does to it: clusters, span segments, block RAM and deep RAM,
reckoner blocks, inputs, pins and time ports (R32 to R43, R67, R71 to R78, R82 to R95, R365, R534). The design's routing and
its inputs are free; each act is an edge of one of its clocks. -/

namespace Sys2Proof.Machine

/-! ## Sectors -/

def State.sector (s : State) (d k : Nat) : SecRt := smGet s.sec [d, k] {}
def State.setSector (s : State) (d k : Nat) (x : SecRt) : State := { s with sec := smPut s.sec [d, k] x {} }

/-- A change of the fabric's contents. -/
def State.onFab (s : State) (f : Fab → Fab) : State := { s with fab := f s.fab }

/-- The design of sector `k` runs: its die is in service, its `STATE` is 3 and its trees are not gated. -/
def State.userRuns (s : State) (d k : Nat) : Bool :=
  s.up d && s.rd .SEC_STATUS_STATE [d, k] == 3 && !(s.sector d k).gated

/-- A sector is in sector reset or is being loaded, as the boundaries of carry chains and cascades see it (R34, R84). -/
def State.secHeld (s : State) (d k : Nat) : Bool := !([3, 4].contains (s.rd .SEC_STATUS_STATE [d, k]))

/-! ## Frame addresses (R49, R50) -/

def farMINOR (a : Nat) : Nat := bitsOf a 0 10
def farCOL (a : Nat) : Nat := bitsOf a 10 5
def farKIND (a : Nat) : Nat := bitsOf a 15 3
def farSector (a : Nat) : Nat := 8 * bitsOf a 21 3 + bitsOf a 18 3
def farDIE (a : Nat) : Nat := bitsOf a 24 3

/-- The valid addresses of R50, in the five row bands of R49, with the columns and blocks of a sector of R30. -/
def farValid (a : Nat) : Bool :=
  a / 2 ^ 27 == 0 && bitsOf a 21 3 ≤ 4 && (match farKIND a with
    | 0 => farCOL a ≤ 29 && farMINOR a ≤ 127
    | 1 => farCOL a ≤ 2 && farMINOR a ≤ 105
    | 2 => farCOL a == 0 && farMINOR a ≤ 583
    | 3 => farCOL a ≤ 2 && farMINOR a ≤ 23
    | 4 => farCOL a == 0 && farMINOR a ≤ 31
    | _ => false)

/-- A frame of memory contents, which blanking keeps (R50, R52). -/
def farContent (a : Nat) : Bool :=
  (farKIND a == 1 && 16 ≤ farMINOR a) || (farKIND a == 2 && 8 ≤ farMINOR a)

/-! ## What is configured -/

/-- Can a frame of address `a` configure this (R37, R50)? -/
def itemAt (a : Nat) : CfgItem → Bool
  | .tap v seg tap _ =>
    farKIND a == 0 && (if v then seg.val < 240 && seg.val / 8 == farCOL a else tap.val == farCOL a)
  | .ctl _ _ _ | .ff _ _ _ _ _ _ | .lut _ _ _ _ | .wire _ _ => farKIND a == 0
  | .ram b _ => (farKIND a == 1 && farMINOR a < 16) || (farKIND a == 2 && farMINOR a < 8 && b.val < 4)
  | .rkn _ _ | .oper _ _ _ => farKIND a == 3
  | .tree _ | .iso _ _ | .bank _ _ => farKIND a == 4

/-- Everything configured in a sector, with the address of the frame it comes from. -/
def State.items (s : State) (d k : Nat) : List (Nat × CfgItem) :=
  (s.fab.design.filter fun e => e.1.headD 0 == d && farSector (e.1.getD 1 0) == k).flatMap fun e =>
    e.2.map fun x => (e.1.getD 1 0, x)

/-- The first configured item that `f` finds. -/
def State.item {α : Type} (s : State) (d k : Nat) (f : Nat → CfgItem → Option α) : Option α :=
  (s.items d k).findSome? fun p => f p.1 p.2

/-- The taps of a segment that the driver census counts (R38). -/
def State.census (s : State) (d k : Nat) (v : Bool) (seg : Nat) : List (Nat × TapMode) :=
  (s.items d k).filterMap fun p => match p.2 with
    | .tap v' seg' t m => if v' = v ∧ seg'.val = seg then some (t.val, m) else none
    | _ => none

/-- Two static taps, or a static tap beside a dynamic one (R38). -/
def censusBad (l : List (Nat × TapMode)) : Bool :=
  let st := (l.filter fun p => p.2 == .static).length
  1 < st || (st == 1 && l.any fun p => p.2 == .dynamic)

/-- The items of a frame take effect in the place of what the frame configured before. -/
def State.design (s : State) (d a : Nat) (l : List CfgItem) : State :=
  s.onFab fun b => { b with design := smPut b.design [d, a] (l.filter (itemAt a)) [] }

/-- Writing the frame would leave a segment with conflicting taps (R38). -/
def State.censusFails (s : State) (d a : Nat) (l : List CfgItem) : Bool :=
  let t := s.design d a l
  (l.filter (itemAt a)).any fun x => match x with
    | .tap v seg _ _ => censusBad (t.census d (farSector a) v seg)
    | _ => false

/-- An isolation attribute of the frame holds the reserved encoding (R54). -/
def isoReserved (a : Nat) (l : List CfgItem) : Bool :=
  (l.filter (itemAt a)).any fun x => match x with
    | .iso _ v => v == 3
    | _ => false

/-- Drop what belongs to a sector in a table whose keys begin with die and sector. -/
def smSector {α : Type} (m : SMap α) (d k : Nat) : SMap α := smKeep m fun i => i.take 2 != [d, k]

/-- Entry into sector reset (R42, R43, R37, R83): flip-flops at their initial values, segments 0, the registers of reckoner
blocks 0, no pin driven; memories keep their contents. What the ports of memory blocks give next is open. -/
def State.fabReset (s : State) (d k : Nat) : State :=
  s.onFab fun b => { b with
    ffs := smSector b.ffs d k
    segs := smSector b.segs d k
    ports := smSector b.ports d k
    rkn := smSector b.rkn d k
    pins := b.pins.filter fun e => !(e.1.headD 0 == d && (match e.2 with
      | some (k', _) => k' == k
      | none => true))
    tport := smSector b.tport d k }

/-- Blanking (R52): every frame but those of memory contents is cleared, and with it the driver census. -/
def State.fabBlank (s : State) (d k : Nat) : State :=
  s.onFab fun b => { b with
    design := smKeep b.design fun i => i.headD 0 != d || farSector (i.getD 1 0) != k || farContent (i.getD 1 0) }

/-- The die's fabric is empty: nothing configured, every memory word 0 with a valid check code (R77). -/
def State.fabEmpty (s : State) (d : Nat) : State :=
  let keep {α : Type} (m : SMap α) : SMap α := smKeep m fun i => i.headD 0 != d
  s.onFab fun b => {
    design := keep b.design, ffs := keep b.ffs, segs := keep b.segs, ram := keep b.ram, upset := keep b.upset,
    ports := keep b.ports, oper := keep b.oper, rkn := keep b.rkn, inputs := keep b.inputs, pins := keep b.pins,
    tport := keep b.tport }

/-! ## Trees -/

/-- Tree `t` of a sector (0 to 15 global, 16 to 21 regional of its band) has a source (R32, R63, R64). -/
def State.treeRuns (s : State) (d k t : Nat) : Bool :=
  if t < 16 then s.rd .FCLK_GSEL_ACTIVE [d, t] != 0 else s.rd .FCLK_RSEL_ACTIVE [d, 6 * (k % 8) + (t - 16)] != 0

/-- The trees that a sector uses and that run. -/
def State.treesOf (s : State) (d k : Nat) : List Nat :=
  ((s.items d k).filterMap fun p => match p.2 with
    | .tree t => some t.val
    | _ => none).filter fun t => s.treeRuns d k t

/-! ## Clusters (R32 to R35) -/

/-- A LUT's outputs: one 6-input function, or two 5-input functions of the same inputs. -/
def lutOut (table : BitVec 64) (two : Bool) (ins : BitVec 6) : Bool × Bool :=
  if two then (table.getLsbD (ins.toNat % 32), table.getLsbD (32 + ins.toNat % 32))
  else (table.getLsbD ins.toNat, table.getLsbD ins.toNat)

/-- The LUT of a cell. -/
def State.lutOf (s : State) (d k col row cell : Nat) : BitVec 64 × Bool :=
  (s.item d k fun a x => match x with
    | .lut r c t two => if farCOL a = col ∧ r.val = row ∧ c.val = cell then some (t, two) else none
    | _ => none).getD (0, false)

/-- The configuration of a flip-flop: initial value, set/reset value, what it registers. -/
def State.ffOf (s : State) (d k col row cell b : Nat) : Bool × Bool × FfSrc :=
  (s.item d k fun a x => match x with
    | .ff r c b' i v src => if farCOL a = col ∧ r.val = row ∧ c.val = cell ∧ b'.val = b then some (i, v, src) else none
    | _ => none).getD (false, false, .lut)

/-- The control set of a cluster. -/
def State.clusterCtl (s : State) (d k col row cs : Nat) : Option CtlSet :=
  s.item d k fun a x => match x with
    | .ctl r c y => if farCOL a = col ∧ r.val = row ∧ c.val = cs then some y else none
    | _ => none

/-- The value of a flip-flop: its initial value until an edge gives it another (R42). -/
def State.ffVal (s : State) (d k col row cell b : Nat) : Bool :=
  (smGet s.fab.ffs [d, k, col, row, cell, b] none).getD (s.ffOf d k col row cell b).1

def State.setFf (s : State) (d k col row cell b : Nat) (v : Bool) : State :=
  s.onFab fun x => { x with ffs := smPut x.ffs [d, k, col, row, cell, b] (some v) none }

/-- The carry input of a cluster (R34): at a row-band boundary 0 while the sector below is in reset or loading. -/
def State.carryIn (s : State) (d k row : Nat) (cin : Bool) : Bool :=
  if row = 0 ∧ 8 ≤ k ∧ s.secHeld d (k - 8) then false else cin

/-- The cells of a cluster, cell 0 first, with the carry that runs through them: the LUT outputs, sixth input, bypass and sum
of each. -/
def State.cellSums (s : State) (d k col row : Nat) : List CellIn → Nat → Bool → List (Bool × Bool × CellIn × Bool)
  | [], _, _ => []
  | x :: r, cell, c =>
    let (t, two) := s.lutOf d k col row cell
    let (o, o2) := lutOut t two x.ins
    (o, o2, x, Config.carrySum o o2 x.byp c) :: s.cellSums d k col row r (cell + 1) (Config.carryOut o o2 x.byp c)

/-- What a flip-flop registers. -/
def ffData (src : FfSrc) (y : Bool × Bool × CellIn × Bool) : Bool :=
  match src with
  | .lut => y.1
  | .lut2 => y.2.1
  | .bypass => y.2.2.1.byp
  | .sixth => y.2.2.1.ins.getLsbD 5
  | .sum => y.2.2.2

/-- An active edge of a control set (R32, R33): an asserted set/reset overrides the clock enable. -/
def State.ctlEdge (s : State) (d k col row cs : Nat) (cells : List CellIn) (ce sr cin : Bool) : State :=
  let ys := s.cellSums d k col row (cells.take 16) 0 (s.carryIn d k row cin)
  (ys.zipIdx).foldl (fun t p =>
    let (_, v, src) := s.ffOf d k col row p.2 cs
    if sr then t.setFf d k col row p.2 cs v
    else if ce then t.setFf d k col row p.2 cs (ffData src p.1)
    else t) s

/-- An asynchronous set/reset acts as soon as it is asserted (R33); a synchronous one waits for the edge. -/
def State.ctlSetReset (s : State) (d k col row cs : Nat) : State :=
  (List.range 16).foldl (fun t cell => t.setFf d k col row cell cs (s.ffOf d k col row cell cs).2.1) s

/-! ## Span segments (R37 to R39) -/

def segTaps (v : Bool) : Nat := if v then 100 else 30
def segCount (v : Bool) : Nat := if v then 240 else 800

/-- The value a segment holds: the last driven one, 0 after configuration and after sector reset (R37). -/
def State.segVal (s : State) (d k : Nat) (v : Bool) (seg : Nat) : Bool := smGet s.fab.segs [d, k, v.toNat, seg] false

/-- The taps whose enable is high in a cycle: static ones, and dynamic ones that the design enables. -/
def State.driving (s : State) (d k : Nat) (c : SegCycle) : List Nat :=
  ((s.census d k c.vertical c.seg).filter fun p => p.1 < segTaps c.vertical &&
    (p.2 == .static || c.en.getLsbD p.1)).map (·.1)

/-- The dynamic taps enabled in a cycle: two or more are a contention (R39). -/
def State.enabledTaps (s : State) (d k : Nat) (c : SegCycle) : List Nat :=
  ((s.census d k c.vertical c.seg).filter fun p => p.1 < segTaps c.vertical &&
    p.2 == .dynamic && c.en.getLsbD p.1).map (·.1)

/-- A segment has a contention in this cycle. -/
def State.contends (s : State) (d k : Nat) (c : SegCycle) : Bool :=
  decide (c.seg.val < segCount c.vertical ∧ 2 ≤ (s.enabledTaps d k c).eraseDups.length)

/-- A cycle of a segment: the highest-numbered enabled tap drives it; with no tap driving the keeper holds (R37, R39). -/
def State.segCycle (s : State) (d k : Nat) (c : SegCycle) : State :=
  match s.driving d k c with
  | [] => s
  | l => s.onFab fun b => { b with
      segs := smPut b.segs [d, k, c.vertical.toNat, c.seg] (c.val.getLsbD (l.foldl max 0)) false }

/-- A 64:1 multiplexer of a cluster (R35). -/
def mux64 (data : BitVec 64) (sel : BitVec 6) : Bool := data.getLsbD sel.toNat

/-- A 256:1 multiplexer as a cycle of its vertical segment: each of the four clusters drives its 64:1 output through its tap,
which the decode of the two upper select bits enables, so exactly one drives (R35). -/
def muxCycle (col : Nat) (rows : List (Fin 100)) (track : Fin 8) (data : BitVec 256) (sel : BitVec 8) : SegCycle :=
  let i := sel.toNat / 64
  let row := (rows.getD i 0).val
  { vertical := true
    seg := Fin.ofNat 800 (8 * col + track)
    en := BitVec.ofNat 100 (2 ^ row)
    val := if mux64 (data.extractLsb' (64 * i) 64) (sel.extractLsb' 0 6) then BitVec.ofNat 100 (2 ^ row) else 0 }

/-! ## Memory blocks (R71 to R76) -/

/-- The configuration of a memory block. -/
def State.ramOf (s : State) (d k : Nat) (deep : Bool) (col block : Nat) : Option RamCfg :=
  s.item d k fun a x => match x with
    | .ram b c => if farKIND a = (if deep then 2 else 1) ∧ farCOL a = col ∧ b.val = block then some c else none
    | _ => none

/-- Width and depth of a port (R71, R76). -/
def ramWidth (c : RamCfg) (p : Nat) : Nat :=
  match c.mode with
  | .tdp w0 w1 => if p = 0 then w0 else w1
  | .sdp => 72
  | .ecc => 64
def ramDepth (c : RamCfg) (deep : Bool) (p : Nat) : Nat :=
  match c.mode with
  | .tdp w0 w1 =>
    let w := if p = 0 then w0 else w1
    if w ≤ 4 then 65536 / w else 73728 / w
  | _ => if deep then 16384 else 1024

/-- The widths of R71. -/
def ramOk (c : RamCfg) (deep : Bool) : Bool :=
  (match c.mode with
    | .tdp w0 w1 => !deep && [1, 2, 4, 9, 18, 36].contains w0 && [1, 2, 4, 9, 18, 36].contains w1
    | _ => true) &&
  decide (c.cascade ≤ (if deep then 4 else 10))

/-- Word and lowest bit in it of an address of a port `w` bits wide. The bits that the narrow widths reach are the low eight
of each nine (DESIGN CHOICE, log entry 103). -/
def ramPlace (w a : Nat) : Nat × Nat :=
  if w = 64 then (a, 0)
  else if w ≤ 4 then (a * w / 64, 9 * (a * w / 8 % 8) + a * w % 8)
  else (a * w / 72, a * w % 72)

/-- Bits of a word that a write with enables `be` replaces, from its lowest bit (R71). -/
def ramMask (w be : Nat) : Nat :=
  if w ≤ 4 ∨ w = 64 then 2 ^ w - 1
  else ((List.range (w / 9)).map fun i => if be.testBit i then 0x1FF * 2 ^ (9 * i) else 0).sum

/-- A narrow port reaches only 65,536 bits; the others read as 0 through a wider port (R71). -/
def ramNarrow (c : RamCfg) : Bool :=
  match c.mode with
  | .tdp w0 w1 => decide (w0 ≤ 4) || decide (w1 ≤ 4)
  | _ => false

/-- The key of a memory word: a cascade runs through the blocks above its lowest one in address order (R75, R76). -/
def ramKey (kb : Key) (depth a w : Nat) : Key :=
  kb.take 4 ++ [kb.getD 4 0 + a / depth, (ramPlace w (a % depth)).1]

/-- The stored word, and the stored bits that differ from its code. -/
def State.ramWord (s : State) (key : Key) : Nat := smGet s.fab.ram key 0
def State.ramUpset (s : State) (key : Key) : Nat := smGet s.fab.upset key 0

/-- A block's port: the memory key and the low bit it addresses. -/
def ramAt (c : RamCfg) (kb : Key) (p a : Nat) : Key × Nat :=
  let dp := ramDepth c (kb.getD 2 0 == 1) p
  (ramKey kb dp a (ramWidth c p), (ramPlace (ramWidth c p) (a % dp)).2)

/-- The address lies in the block or its cascade. -/
def ramInside (c : RamCfg) (kb : Key) (p a : Nat) : Bool :=
  decide (a < ramDepth c (kb.getD 2 0 == 1) p * max 1 c.cascade ∧
    kb.getD 4 0 + max 1 c.cascade ≤ (if kb.getD 2 0 = 1 then 4 else 10))

/-- What a read of the word at an address gives (R71, R74): a single error is corrected, a double one is not. -/
def State.ramRead (s : State) (c : RamCfg) (kb : Key) (p a : Nat) : RdData :=
  let (key, lo) := ramAt c kb p a
  let w := s.ramWord key
  match c.mode with
  | .ecc =>
    let u := s.ramUpset key
    if ones u 72 = 0 then { data := some (w % 2 ^ 64) }
    else if ones u 72 = 1 then { data := some (w % 2 ^ 64), err := 1 }
    else { data := some ((w ^^^ u) % 2 ^ 64), err := 2 }
  | _ =>
    let x := bitsOf w lo (ramWidth c p)
    { data := some (if ramNarrow c ∧ 9 ≤ ramWidth c p then
        ((List.range (ramWidth c p / 9)).map fun i => bitsOf x (9 * i) 8 * 2 ^ (9 * i)).sum else x) }

/-- A write merged into a word. -/
def ramMerge (c : RamCfg) (p lo w : Nat) (x : RamIn) : Nat :=
  let m := ramMask (ramWidth c p) x.be.toNat * 2 ^ lo
  (w - (w &&& m)) ||| (x.data.toNat * 2 ^ lo &&& m)

/-- Store a memory word with a good code; a write-back still waiting for it is cancelled (R74). -/
def State.ramPut (s : State) (d k : Nat) (key : Key) (v : Nat) : State :=
  let s := s.onFab fun b => { b with ram := smPut b.ram key v 0, upset := smPut b.upset key 0 0 }
  let x := s.sector d k
  if x.wb.any (· = key.drop 2) then s.setSector d k { x with wb := x.wb.filter (· ≠ key.drop 2) } else s

/-- Does the port write, does it read, in this cycle: in the simple modes port 0 writes and port 1 reads (R71). -/
def ramWrites (c : RamCfg) (p : Nat) (x : RamIn) : Bool :=
  x.en && x.we && (match c.mode with
    | .tdp _ _ => true
    | _ => p == 0)
def ramReads (c : RamCfg) (p : Nat) (x : RamIn) : Bool :=
  x.en && (match c.mode with
    | .tdp _ _ => true
    | _ => p == 1)

/-- The read data of a port after its edge: what it read in `old`, or in a cycle in which it writes what its write mode shows
(R72). -/
def State.ramLatch (old : State) (c : RamCfg) (kb : Key) (p : Nat) (x : RamIn) (now_ : RdData) : RdData :=
  if ramReads c p x = false then now_
  else if ramWrites c p x then
    match (if p = 0 then c.wm0 else c.wm1) with
    | .noChange => now_
    | .readFirst => old.ramRead c kb p x.addr
    | .writeFirst =>
      let (key, lo) := ramAt c kb p x.addr
      { data := some (bitsOf (ramMerge c p lo (old.ramWord key) x) lo (ramWidth c p)) }
  else old.ramRead c kb p x.addr

/-- The output register of a port: a deep RAM has it always (R76). -/
def ramOut (c : RamCfg) (deep : Bool) (p : Nat) : Bool := deep || (if p = 0 then c.out0 else c.out1)

/-- What a port drives (R72, R75). -/
def RamPort.drives (y : RamPort) (c : RamCfg) (deep : Bool) (p : Nat) : RdData :=
  if 2 ≤ c.cascade then y.creg else if ramOut c deep p then y.reg else y.latch

/-- An active edge of one port, the memory's contents before it being those of `old`. -/
def State.ramPortEdge (s old : State) (c : RamCfg) (kb : Key) (p : Nat) (x : RamIn) : State :=
  let y := smGet s.fab.ports (kb ++ [p]) {}
  let y' : RamPort := {
    latch := old.ramLatch c kb p x y.latch
    reg := y.latch
    creg := if ramOut c (kb.getD 2 0 == 1) p then y.reg else y.latch }
  let s := s.onFab fun b => { b with ports := smPut b.ports (kb ++ [p]) y' {} }
  if ramWrites c p x then
    let (key, lo) := ramAt c kb p x.addr
    s.ramPut (kb.getD 0 0) (kb.getD 1 0) key (ramMerge c p lo (s.ramWord key) x)
  else s

/-- The corrected word waiting longest in a block is written back (R74). -/
def State.writeBack (s : State) (d k : Nat) (word : List Nat) : State :=
  let x := s.sector d k
  let s := s.setSector d k { x with wb := x.wb.filter (· ≠ word), swb := word :: x.swb.filter (· ≠ word) }
  s.onFab fun b => { b with upset := smPut b.upset (d :: k :: word) 0 0 }

/-- The edges of the two ports (R73): less than 400 ps apart both see the contents before, and port 1's data win; else they
act in their order. Port 0 left idle writes a corrected word back (R74). -/
def State.ramEdges (s : State) (c : RamCfg) (kb : Key) (p0 p1 : Option RamIn) (gap : Nat) (first0 : Bool) : State :=
  let d := kb.getD 0 0
  let k := kb.getD 1 0
  let edge (t old : State) (p : Nat) (x : Option RamIn) : State :=
    match x with
    | some x => if x.en && !ramInside c kb p x.addr then t else t.ramPortEdge old c kb p x
    | none => t
  let s' :=
    if gap < 400 then edge (edge s s 0 p0) s 1 p1
    else if first0 then (let t := edge s s 0 p0; edge t t 1 p1)
    else (let t := edge s s 1 p1; edge t t 0 p0)
  match p0 with
  | some x =>
    if x.en then s'
    else match ((s'.sector d k).wb.filter fun w => w.take 3 == (kb.drop 2)).getLast? with
      | some w => s'.writeBack d k w
      | none => s'
  | none => s'

/-- The read of port 1 meets no error: one that does is the row MEM_ECC_ERROR. -/
def State.ramClean (s : State) (c : RamCfg) (kb : Key) (p1 : Option RamIn) : Bool :=
  match p1 with
  | some x => !(ramReads c 1 x) || s.ramUpset (ramAt c kb 1 x.addr).1 == 0
  | none => true

/-- Memory words that a content frame holds: 8,192 bits of the block's array from bit `lo` upward, word by word, lowest bit
first (DESIGN CHOICE, log entry 103). -/
def ramFill (m : SMap Nat) (pre : Key) (lo data : Nat) : Nat → SMap Nat
  | 0 => m
  | n + 1 =>
    let w := lo / 72 + n
    let a := max lo (72 * w)
    let z := min (lo + 8192) (72 * w + 72)
    let m := if a < z then
        let old := smGet m (pre ++ [w]) 0
        let mask := (2 ^ (z - a) - 1) * 2 ^ (a - 72 * w)
        smPut m (pre ++ [w]) ((old - (old &&& mask)) ||| bitsOf data (a - lo) (z - a) * 2 ^ (a - 72 * w)) 0
      else m
    ramFill m pre lo data n

/-- A content frame is written (R50, R52): the words it covers, with good codes. -/
def State.ramFrame (s : State) (d a data : Nat) : State :=
  let k := farSector a
  let n := if farKIND a = 1 then farMINOR a - 16 else farMINOR a - 8
  let per := if farKIND a = 1 then 9 else 144
  let pre := [d, k, (if farKIND a = 1 then 0 else 1), farCOL a, n / per]
  let lo := n % per * 8192
  s.onFab fun b => { b with
    ram := ramFill b.ram pre lo data 115
    upset := smKeep b.upset fun i => !(i.take 5 == pre && decide (lo / 72 ≤ i.getD 5 0 ∧ 72 * i.getD 5 0 < lo + 8192)) }

/-! ## Reckoner blocks (R82 to R95) -/

/-- The configuration of a block. -/
def State.rknOf (s : State) (d k col block : Nat) : Option RknCfg :=
  s.item d k fun a x => match x with
    | .rkn b c => if farCOL a = col ∧ b.val = block then some c else none
    | _ => none

def State.rknAt (s : State) (d k col block : Nat) : RknRt := smGet s.fab.rkn [d, k, col, block] {}
def State.setRkn (s : State) (d k col block : Nat) (x : RknRt) : State :=
  s.onFab fun b => { b with rkn := smPut b.rkn [d, k, col, block] x {} }

/-- The slot map of a reckoner column (R78, R81). -/
def rknMap (c : Nat) : Fld := if c = 0 then .HARD_MAP_RKN0 else if c = 1 then .HARD_MAP_RKN1 else .HARD_MAP_RKN2

/-- The key of an operand-memory word: it lies in the physical block that the slot map gives (R78). -/
def State.operKey (s : State) (d k col block addr : Nat) : Key :=
  [d, k, col, rknSlot (s.rd (rknMap col) [d, k]) block, addr]

/-- What a block gives upward (R84): its accumulator; in ACS mode its `CMIN` (R95; DEDUCED, log entry 104). -/
def State.cascOut (s : State) (d k col block : Nat) : Nat :=
  let x := s.rknAt d k col block
  match s.rknOf d k col block with
  | some c => if c.mode = .acs then x.cmin else x.acc
  | none => x.acc

/-- `CASC_IN` (R84): from the logical block below, at a sector boundary from block 23 of the sector below, 0 while either
sector is in reset or loading; at the lower edge of the die nothing drives it, and it is a free value. -/
def State.cascIn (s : State) (d k col block : Nat) : Nat :=
  if 0 < block then s.cascOut d k col (block - 1)
  else if k < 8 then (Config.freeValue s.draws).toNat % 2 ^ 64
  else if s.secHeld d k || s.secHeld d (k - 8) then 0
  else s.cascOut d (k - 8) col 23

/-- The two accesses of a cycle (R86): slot 0 reads, then slot 1 reads or writes. -/
def State.rknAccess (s : State) (d k col block : Nat) (x : RknIn) : State × Nat × Option Nat :=
  let w0 := smGet s.fab.oper (s.operKey d k col block x.oa0) 0
  if x.ow then
    let w := x.d.toNat * 2 ^ 9 + x.b.toNat % 2 ^ 9
    (s.onFab fun b => { b with oper := smPut b.oper (s.operKey d k col block x.oa1) w 0 }, w0, none)
  else (s, w0, some (smGet s.fab.oper (s.operKey d k col block x.oa1) 0))

/-- What the registers of a block take at an active edge (R83, R86, R87, R95); `late`: the slot-1 access has not completed, so
its operand stays what it was. -/
def RknRt.clock (y : RknRt) (c : RknCfg) (x : RknIn) (casc : Nat) (late : Bool) : RknRt :=
  let direct := acsDirect x.a.toNat x.d.toNat x.b.toNat
  let below := if c.casc then some (casc % 2 ^ 16) else none
  let acs := acsBlock x.c.toNat y.w0 y.w1 x.nrm.toNat below
  let addMode := c.mode = .add
  let cc := if addMode then y.c else y.c2
  let ld := if addMode then y.load else y.load2
  { y with
    a := if c.mem then rknOperandA y.r0 else x.a.toNat
    b := if c.mem then (match y.r1 with
        | some w => if late then y.b else rknOperandB w
        | none => x.b.toNat) else x.b.toNat
    c := x.c.toNat
    d := x.d.toNat
    load := x.load
    sub := x.sub
    w0 := if c.mem then y.r0 else direct.1
    w1 := if c.mem then (match y.r1 with
        | some w => if late then y.w1 else w
        | none => y.w1) else direct.2
    m := rknM y.a y.b y.d c.pre y.sub
    c2 := y.c
    load2 := y.load
    acc := if c.mode = .acs then y.acc else rknAcc c.mode y.acc cc casc y.m ld
    ovf := if c.mode = .acs then false else rknOvf c.mode y.acc cc casc y.m ld
    pAcs := if c.mode = .acs then acs.1 else y.pAcs
    surv := if c.mode = .acs then acs.2.1 else y.surv
    cmin := if c.mode = .acs then acs.2.2 else y.cmin
    lateO := late }

/-- `P` (R91, R92). -/
def RknRt.p (y : RknRt) (c : RknCfg) : Nat := if c.mode = .acs then y.pAcs else rknP y.acc c.shift

/-- An active edge of a block: `RST` sets every register to 0, `CE` = 0 holds them (R33, R83). -/
def State.rknEdge (s : State) (d k col block : Nat) (c : RknCfg) (x : RknIn) (late : Bool) : State :=
  let y := s.rknAt d k col block
  if x.rst then s.setRkn d k col block {}
  else if x.ce then
    let (t, w0, w1) := s.rknAccess d k col block x
    t.setRkn d k col block { y.clock c x (s.cascIn d k col block) late with r0 := w0, r1 := w1 }
  else s

/-! ## Inputs, pins, time ports -/

/-- The isolation attribute of an input (R67). -/
def State.isoOf (s : State) (d k input : Nat) : BitVec 2 :=
  (s.item d k fun _ x => match x with
    | .iso i v => if i = input then some v else none
    | _ => none).getD 0

/-- What an input gives the design: the value received, or under isolation what its attribute says (R67). -/
def isoValue (attr : BitVec 2) (last : Bool) : Bool := if attr = 0 then false else if attr = 1 then true else last

/-- An input receives a value, or is isolated. -/
def State.inputTakes (s : State) (d k input : Nat) (live v : Bool) : State :=
  let y := smGet s.fab.inputs [d, k, input] {}
  let last := if live then v else y.last
  s.onFab fun b => { b with
    inputs := smPut b.inputs [d, k, input] { val := if live then v else isoValue (s.isoOf d k input) last, last := last } {} }

/-- Input `i` of sector `k` comes from a crossing, and so from its frames: the first 1,536 inputs of the sectors of row bands 0
and 4 (R67; the numbering is the model's own, log entry 133). -/
def crossesIn (k i : Nat) : Bool := (k < 8 || 32 ≤ k) && i < 1536

/-- User-I/O pins of a die (R9). -/
def pinCount (d : Nat) : Nat := if d % 2 = 0 then 96 else 192

/-- What a user-I/O pin drives: none is high impedance, with no pull (R534): before the release of the die, in the baseline
personality, while its sector is not in `STATE` 3, and in P2 and P3; and while its bank's rail is out of range (R526). -/
def State.pinOut (s : State) (d pin : Nat) : Option Bool :=
  match smGet s.fab.pins [d, pin] none with
  | some (k, v) =>
    if s.up d && s.rd .SEC_STATUS_STATE [d, k] == 3 && s.rd .PWR_DIE_STAT_PSTATE [d] < 2 &&
      !smGet s.ioOff [d, pin / 48] false then some v else none
  | none => none

/-- `SX_STAT.SPINE_OK` and `VALID` are both 1 (R365). -/
def State.timeGood (s : State) : Bool := s.clocksUp && s.on .SX_STAT_VALID []

/-- An edge of `TP_CLK` (R365): what the port drives after edge n + 2 is the time at edge n. -/
def TimePort.clock (y : TimePort) (ns steps : Nat) (ok : Bool) : TimePort :=
  let times := ((ns, steps, ok) :: y.times).take 4
  match times with
  | _ :: _ :: (t, n, v) :: before =>
    { times := times, sec := t / 1000000000 % 2 ^ 48, ns := t % 1000000000, valid := v,
      pps := before.any fun b => decide (t % 1000000000 < b.1 % 1000000000), stepped := before.any fun b => b.2.1 != n }
  | _ => { y with times := times }

/-! ## Acts -/

/-- One act of a design, where its sector runs. -/
def State.userAct (s : State) : UserAct → State
  | .edge d k col row cs cells ce sr cin =>
    match s.clusterCtl d k col row cs with
    | some c => if s.userRuns d k && s.treeRuns d k c.tree then s.ctlEdge d k col row cs cells ce sr cin else s
    | none => s
  | .setReset d k col row cs =>
    match s.clusterCtl d k col row cs with
    | some c => if s.userRuns d k && c.async then s.ctlSetReset d k col row cs else s
    | none => s
  | .span d k c => if s.userRuns d k && !s.contends d k c && c.seg.val < segCount c.vertical then s.segCycle d k c else s
  | .mux d k col rows track data sel =>
    let c := muxCycle col rows track data sel
    if s.userRuns d k && rows.length == 4 && rows.eraseDups.length == 4 then s.segCycle d k c else s
  | .ram d k deep col block p0 p1 gap first0 =>
    match s.ramOf d k deep col block with
    | some c =>
      let kb : Key := [d, k, deep.toNat, col, block]
      if s.userRuns d k && ramOk c deep && s.ramClean c kb p1 then s.ramEdges c kb p0 p1 gap first0 else s
    | none => s
  | .rkn d k col block x =>
    match s.rknOf d k col block with
    | some c => if s.userRuns d k then s.rknEdge d k col block c x false else s
    | none => s
  | .input d k i src v =>
    if s.userRuns d k && !(s.sector d src).frozen && !crossesIn k i then s.inputTakes d k i (!s.on .SEC_STATUS_ISOLATED [d, src]) v
    else s
  | .pinIn d k i pin v =>
    if s.userRuns d k && pin.val < pinCount d && !crossesIn k i then
      let s := s.inputTakes d k i true (v && !smGet s.ioOff [d.val, pin / 48] false)
      s.onFab fun b => { b with
        inputs := smPut b.inputs [d, k, i] { smGet b.inputs [d, k, i] {} with pin := some pin.val } {} }
    else s
  | .pin d k pin v =>
    if s.userRuns d k && pin.val < pinCount d then
      s.onFab fun b => { b with pins := smPut b.pins [d, pin] (v.map fun v => (k, v)) none }
    else s
  | .timePort d k =>
    if s.userRuns d k && 16 ≤ k.val && k.val < 24 then
      s.onFab fun b => { b with
        tport := smPut b.tport [d, k] ((smGet b.tport [d, k] {}).clock s.localNs s.stepN s.timeGood) {} }
    else s

/-- What the time port of a sector drives: 0 in the baseline personality and outside `STATE` 3 (R365). -/
def State.timePort (s : State) (d k : Nat) : TimePort :=
  if s.userRuns d k then smGet s.fab.tport [d, k] {} else {}

/-- `RKN_STAT.NEAR` (R88, R89): the slack of the replicas of blocks that make two accesses per cycle is the chip's own, a
free value; a sector without such a block running reads 0. -/
def State.rknNear (s : State) (d k : Nat) : Nat :=
  if s.userRuns d k && (s.items d k).any (fun p => match p.2 with
    | .rkn _ c => c.two
    | _ => false) then (Config.freeValue s.draws).toNat % 2 else 0

/-- The acts of one nanosecond (log entry 24). -/
def State.userNs (s : State) : State :=
  { (Config.userActs s.draws).foldl (fun t a => t.userAct a) s with draws := s.draws + 1 }

end Sys2Proof.Machine
end

