-- ==== Sys2Proof/Machine/Fabric.lean ====
section
/-! DEFINITION. The logic fabric: sector reset and release, column remap and migration, span contention, clock trees,
memory and reckoner errors. -/

namespace Sys2Proof.Machine

/-! ## Sectors -/

/-- The sector whose fields of class SEC a sector reset clears (R6). -/
def secClears (d k : Nat) (f : Fld) (i : List Nat) : Bool := f.spec.cls == .sec && i == [d, k]

/-- Entry into sector reset (R43): trees gated, flip-flops at their initial values, outputs isolated, bridges stopped,
fields of class SEC at their reset values. A loaded sector then reads `STATE` 2. Corrected memory words that wait for their
write-back go on waiting (DESIGN CHOICE, log entry 105: R43 keeps the memories and R74 does not name a reset). -/
def State.sectorReset (s : State) (d k : Nat) : State :=
  let s := (s.clearRegs (secClears d k)).fabReset d k
  let s := s.giveBack d 4 [d, k]
  let s := s.setSector d k { s.sector d k with
    ffInit := true, gated := true, frozen := false, bridges := false, mig := 0, migT := 0, migP := 0, migHeld := false }
  ((((s.wr .SEC_STATUS_STATE [d, k] 2).wr .SEC_STATUS_ISOLATED [d, k] 1).wr .SEC_STATUS_PERMIT_WAIT [d, k] 0).wr
    .SEC_STATUS_RESET_HELD [d, k] 0).wr .SEC_CTL_RESET [d, k] 1

/-- A sector runs (R44): trees started, outputs live, bridges open. -/
def State.sectorRun (s : State) (d k : Nat) : State :=
  let s := s.setSector d k { s.sector d k with
    ffInit := false, gated := false, frozen := false, bridges := true, opened := true, mig := 0, migT := 0, migP := 0, migHeld := false }
  ((s.wr .SEC_STATUS_STATE [d, k] 3).wr .SEC_STATUS_ISOLATED [d, k] 0).wr .SEC_STATUS_PERMIT_WAIT [d, k] 0

/-- Ask for the release permit of one sector, waking first the reckoner columns its configuration uses (R44, R396). -/
def State.askRelease (s : State) (d k : Nat) : State :=
  let s := s.wr .SEC_STATUS_PERMIT_WAIT [d, k] 1
  match (s.sector d k).rkn with
  | [] => s.request d 4 1 [d, k] []
  | _ :: r => s.request d 3 1 [d, k] (r.map (fun _ => [d, 3, 1]) ++ [[d, 4, 1]])

/-- Grant the head requests of governor `g` as long as they belong to `who` and fit: the wakes of R396 before the release
permit. -/
def State.drive (s : State) (g : Nat) (who : List Nat) : Nat → State
  | 0 => s
  | n + 1 =>
    match (s.gov g).queue with
    | p :: _ => if p.who = who ∧ p.chain ≠ [] then (s.grantHead g).drive g who n else s
    | [] => s

/-- SECTOR_RESET (R43, R47). -/
def execSectorReset (w : Writer) (d : Fin 8) (k : Fin 40) (s : State) : Ans :=
  .next (s.reach w .SEC_CTL [d, k] (s.wordWith .SEC_CTL [d, k] [(.SEC_CTL_RESET, 1)]) fun s =>
    let s := s.wr .SEC_CTL_RESET [d, k] 1
    if s.rd .SEC_STATUS_STATE [d, k] = 3 then s.sectorReset d k
    else if s.rd .SEC_STATUS_STATE [d, k] = 4 then s.wr .SEC_STATUS_RESET_HELD [d, k] 1
    else s)

/-- SECTOR_RELEASE_REQUEST (R44, R47). -/
def execSectorReleaseRequest (w : Writer) (d : Fin 8) (k : Fin 40) (s : State) : Ans :=
  .next (s.reach w .SEC_CTL [d, k] (s.wordWith .SEC_CTL [d, k] [(.SEC_CTL_RESET, 0)]) fun s =>
    let s := s.wr .SEC_CTL_RESET [d, k] 0
    let st := s.rd .SEC_STATUS_STATE [d, k]
    if st = 0 ∨ st = 5 then s.raise .SEC_CTL [d, k] 47 2 [k, st]
    else if st = 2 ∧ s.rd .SEC_STATUS_PERMIT_WAIT [d, k] = 0 then s.askRelease d k
    else s)

/-- The frequency of a tree of a sector in kHz, where the device sets it: a synthesizer of the die, or a spine (R63, R379). -/
def State.treeKHz (s : State) (d k t : Nat) : Option Nat :=
  let a := if t < 16 then s.rd .FCLK_GSEL_ACTIVE [d, t] else s.rd .FCLK_RSEL_ACTIVE [d, 6 * (k % 8) + (t - 16)]
  if 1 ≤ a ∧ a ≤ 4 then some (smGet s.synth [d, a - 1] {}).freq
  else if 8 ≤ a ∧ a ≤ 15 then some (smGet s.synth [8, a - 8] {}).freq
  else none

/-- The release edge follows the release instant by less than one period of the fastest tree, and at once where no tree runs
(R44). -/
def State.edgeOk (s : State) (d k edge : Nat) : Bool :=
  match s.treesOf d k with
  | [] => edge == 0
  | l => l.all fun t => match s.treeKHz d k t with
    | some f => f == 0 || decide (edge * f < 1000000)
    | none => true

/-- SECTOR_RELEASE (R44): `edge` ns after the release instant comes the release edge. The flip-flops of a tree whose first
edge comes later hold their initial values until it: an edge of a control set is an act of the design (`State.ctlEdge`). -/
def execSectorRelease (d : Fin 8) (k : Fin 40) (edge : Nat) (s : State) : Ans :=
  if s.rd .SEC_STATUS_STATE [d, k] = 2 ∧ s.rd .SEC_STATUS_PERMIT_WAIT [d, k] = 1 ∧ s.edgeOk d k edge then
    match (s.drive d [d, k] 4).takeGrant d 4 [d, k] with
    | some s => .next ((s.lapse edge).sectorRun d k)
    | none => .next s
  else .next s

/-- SECTOR_RELEASE_TIMEOUT (R48, R396). -/
def execSectorReleaseTimeout (d : Fin 8) (k : Fin 40) (s : State) : Ans :=
  if s.rd .SEC_STATUS_STATE [d, k] = 2 ∧ s.rd .SEC_STATUS_PERMIT_WAIT [d, k] = 1 then
    match (match s.takeTimeout d 4 [d, k] with
      | some t => some t
      | none => s.takeTimeout d 3 [d, k]) with
    | some s =>
      .next (((s.wr .SEC_STATUS_PERMIT_WAIT [d, k] 0).wr .SEC_CTL_RESET [d, k] 1).raise .SEC_CTL [d, k] 48 2 [k])
    | none => .next s
  else .next s

/-! ## Column remap and migration -/

/-- The defective column d of a sector, 31 for none (R56, R59): the fused one, else the one found in the field. -/
def State.knownDefect (s : State) (d k : Nat) : Nat :=
  if s.rd .SEC_COLMAP_FUSED [d, k] ≠ 31 then s.rd .SEC_COLMAP_FUSED [d, k] else s.rd .SEC_COLMAP_FIELD [d, k]

/-- Is a physical column already known as defective (R58)? -/
def State.columnKnown (s : State) (d k p : Nat) : Bool :=
  s.rd .SEC_COLMAP_FUSED [d, k] == p || s.rd .SEC_COLMAP_FIELD [d, k] == p || s.repairs.any (· = [d, 59, k, p])

/-- The physical column of logical column `c` under map value `m` (R30, R56). -/
def physColumn (m c : Nat) : Nat := if m < 30 ∧ m ≤ c then c + 1 else c

/-- Sectors of die `d` that still have a free spare column: the margin of notice 0x1001 (R499). -/
def State.freeSpares (s : State) (d : Nat) : Nat :=
  ((List.range 40).filter (fun k => s.knownDefect d k = 31)).length

/-- The remap is in force: `ACTIVE` takes the new value and the notice is made (R59, R499). -/
def State.remapDone (s : State) (d k : Nat) : State :=
  (s.wr .SEC_STATUS_PENDING_REMAP [d, k] 0).notice .SEC_CTL [d, k] 0x1001 k (s.freeSpares d) 0 (some 0)

/-- Start a migration (R61); a held sector moves without state capture (R60): its trees are gated already and no flip-flop
state is kept, so the rewrite begins at once, and it ends in `STATE` 2 with no restore and no permit (DEDUCED, log entry
106). -/
def State.startMigration (s : State) (d k p : Nat) (held : Bool) : State :=
  let m := s.knownDefect d k
  let x := s.sector d k
  let s := s.wr .SEC_STATUS_STATE [d, k] 4
  if held then
    s.setSector d k { x with mig := 3, migT := s.now + (30 - m) * 32768, migP := p, migHeld := true, bridges := false }
  else
    s.setSector d k { x with mig := 1, migT := s.now + p + 50, migP := p, migHeld := false, frozen := true, bridges := false }

/-- MIGRATE (R45, R60, R61). -/
def execMigrate (w : Writer) (d : Fin 8) (k : Fin 40) (p : Nat) (s : State) : Ans :=
  .next (s.reach w .SEC_CTL [d, k] (s.wordWith .SEC_CTL [d, k] [(.SEC_CTL_CMD, 1)]) fun s =>
    if s.rd .SEC_STATUS_STATE [d, k] = 3 ∧ s.rd .SEC_STATUS_PENDING_REMAP [d, k] = 1 then
      s.startMigration d k p false
    else s.dropF w .SEC_CTL_CMD [d, k] 1)

/-- MIGRATION_GATED (R61): at t0 + P + 50 ns. -/
def execMigrationGated (d : Fin 8) (k : Fin 40) (s : State) : Ans :=
  let x := s.sector d k
  if s.rd .SEC_STATUS_STATE [d, k] = 4 ∧ x.mig = 1 then
    .next ((s.lapseTo x.migT).setSector d k { x with gated := true, mig := 2, migT := x.migT + 16000 })
  else .next s

/-- MIGRATION_CAPTURE_DONE (R61): at t0 + P + 16.05 µs; the rewrite of logical columns d to 29 takes 32.768 µs each. -/
def execMigrationCaptureDone (d : Fin 8) (k : Fin 40) (s : State) : Ans :=
  let x := s.sector d k
  if s.rd .SEC_STATUS_STATE [d, k] = 4 ∧ x.mig = 2 then
    .next ((s.lapseTo x.migT).setSector d k { x with mig := 3, migT := x.migT + (30 - s.knownDefect d k) * 32768 })
  else .next s

/-- MIGRATION_REWRITE_DONE (R61): the moved columns are in their new places; a held sector is done with it (R60). -/
def execMigrationRewriteDone (d : Fin 8) (k : Fin 40) (s : State) : Ans :=
  let x := s.sector d k
  if s.rd .SEC_STATUS_STATE [d, k] = 4 ∧ x.mig = 3 then
    let s := (s.lapseTo x.migT).wr .SEC_COLMAP_ACTIVE [d, k] (s.knownDefect d k)
    if x.migHeld then
      .next ((((s.setSector d k { x with mig := 0, migT := 0, migP := 0, migHeld := false }).wr
        .SEC_STATUS_STATE [d, k] 2).wr .SEC_STATUS_RESET_HELD [d, k] 0).remapDone d k)
    else .next (s.setSector d k { x with mig := 4, migT := x.migT + 16000 })
  else .next s

/-- MIGRATION_RESTORE_DONE (R61): the draw permit is requested. -/
def execMigrationRestoreDone (d : Fin 8) (k : Fin 40) (s : State) : Ans :=
  let x := s.sector d k
  if s.rd .SEC_STATUS_STATE [d, k] = 4 ∧ x.mig = 4 then
    .next (((s.lapseTo x.migT).setSector d k { x with mig := 5, migT := 0 }).request d 4 1 [d, k] [])
  else .next s

/-- MIGRATION_RESTART (R61, R47): at the grant the sector runs again, or enters sector reset if one is held. -/
def execMigrationRestart (d : Fin 8) (k : Fin 40) (s : State) : Ans :=
  if s.rd .SEC_STATUS_STATE [d, k] = 4 ∧ (s.sector d k).mig = 5 then
    match s.takeGrant d 4 [d, k] with
    | some s =>
      if s.on .SEC_STATUS_RESET_HELD [d, k] then .next ((s.sectorReset d k).remapDone d k)
      else .next ((s.sectorRun d k).remapDone d k)
    | none => .next s
  else .next s

/-- MIGRATION_PERMIT_TIMEOUT (R61): the sector enters sector reset, and the event of R48 is raised. -/
def execMigrationPermitTimeout (d : Fin 8) (k : Fin 40) (s : State) : Ans :=
  if s.rd .SEC_STATUS_STATE [d, k] = 4 ∧ (s.sector d k).mig = 5 then
    match s.takeTimeout d 4 [d, k] with
    | some s => .next (((s.sectorReset d k).raise .SEC_CTL [d, k] 48 2 [k]).remapDone d k)
    | none => .next s
  else .next s

/-- The sector becomes unavailable (R59): sector reset, `STATE` 5, an error event, capacity lost (R503). -/
def State.sectorUnavailable (s : State) (d k rule : Nat) : State :=
  let s := if s.rd .SEC_STATUS_STATE [d, k] = 5 then s else s.sectorReset d k
  ((s.wr .SEC_STATUS_STATE [d, k] 5).raise .SEC_CTL [d, k] rule 3 [k]).sectorLost d

/-- A change of d applied according to `STATE` (R60). -/
def State.applyRemap (s : State) (d k period : Nat) : State :=
  let m := s.knownDefect d k
  match s.rd .SEC_STATUS_STATE [d, k] with
  | 0 | 1 => (s.wr .SEC_COLMAP_ACTIVE [d, k] m).remapDone d k
  | 2 => s.startMigration d k period true
  | 3 => if s.on .SEC_CTL_MIGRATE_EN [d, k] then s.startMigration d k period false
    else s.wr .SEC_STATUS_PENDING_REMAP [d, k] 1
  | _ => s

/-- A defective physical column becomes known (R58, R59, R60): it is counted (R62) and recorded; in `STATE` 5 the map does
not change. -/
def State.columnDefect (s : State) (d k p period : Nat) : State :=
  if s.columnKnown d k p then s
  else
    let known := s.knownDefect d k
    let s := (s.wr .SEC_COLMAP_DEFECTS [d, k] (min 3 (s.rd .SEC_COLMAP_DEFECTS [d, k] + 1))).record [d, 59, k, p]
    let s := if s.rd .SEC_COLMAP_FIELD [d, k] = 31 then s.wr .SEC_COLMAP_FIELD [d, k] p else s
    if s.rd .SEC_STATUS_STATE [d, k] = 5 then s
    else if known = 31 then
      if p = 30 then (s.wr .SEC_COLMAP_ACTIVE [d, k] 30).remapDone d k
      else s.applyRemap d k period
    else s.sectorUnavailable d k 59

/-- COLUMN_DEFECT_FOUND (R58, R59, R60). -/
def execColumnDefectFound (d : Fin 8) (k : Fin 40) (p : Fin 31) (period : Nat) (s : State) : Ans :=
  .next (s.columnDefect d k p period)

/-! ## Span contention -/

/-- SPAN_CONTENTION (R37 to R41): a cycle of the sector in which segments have contentions. Each segment is driven by the
highest-numbered enabled tap; the cycle counts once; the first contention in it sets `CONT`. -/
def execSpanContention (d : Fin 8) (k : Fin 40) (segs : List SegCycle) (s : State) : Ans :=
  match segs.filter (s.contends d k) with
  | [] => .next s
  | c :: more =>
    if s.userRuns d k then
      let top := (s.driving d k c).foldl max 0
      let s := (c :: more).foldl (fun t c => t.segCycle d k c) s
      let s := s.bump .SEC_SPAN_CNT_COUNT [d, k]
      if s.on .SEC_SPAN_CONT [d, k] then .next s
      else
        .next (((((s.wr .SEC_SPAN_CONT [d, k] 1).wr .SEC_SPAN_DIR [d, k] c.vertical.toNat).wr
          .SEC_SPAN_SEG [d, k] c.seg).wr .SEC_SPAN_WINNER [d, k] top).raise .SEC_SPAN [d, k] 40 0 [c.seg, top])
    else .next s

/-! ## Clock trees -/

/-- The register and fields of a tree: 0 to 15 global, 16 + r regional (R63, R64). -/
def treeReg (tr : Nat) : Reg := if tr < 16 then .FCLK_GSEL else .FCLK_RSEL
def treeIx (d tr : Nat) : List Nat := if tr < 16 then [d, tr] else [d, tr - 16]
def treeSRC (tr : Nat) : Fld := if tr < 16 then .FCLK_GSEL_SRC else .FCLK_RSEL_SRC
def treeACTIVE (tr : Nat) : Fld := if tr < 16 then .FCLK_GSEL_ACTIVE else .FCLK_RSEL_ACTIVE
def treeSWITCHING (tr : Nat) : Fld := if tr < 16 then .FCLK_GSEL_SWITCHING else .FCLK_RSEL_SWITCHING
def treeFORCED (tr : Nat) : Fld := if tr < 16 then .FCLK_GSEL_FORCED else .FCLK_RSEL_FORCED
def treeLOCKED (tr : Nat) : Fld := if tr < 16 then .FCLK_GSEL_LOCKED else .FCLK_RSEL_LOCKED

/-- Is a source code allowed for the tree (R63, R64)? -/
def treeCodeOk (d tr src : Nat) : Bool :=
  src == 0 || (1 ≤ src && src ≤ 4) || (tr < 16 && 8 ≤ src && src ≤ 15) ||
    (16 ≤ src && src < (if d % 2 = 0 then 24 else 32)) || (32 ≤ src && src < (if d % 2 = 0 then 34 else 37)) ||
    (16 ≤ tr && src == 48)

/-- A reserved source code acts as 0. -/
def treeEff (d tr src : Nat) : Nat := if treeCodeOk d tr src then src else 0

/-- Begin the switch of a running tree to source `e` (R65). -/
def State.treeStart (s : State) (d tr e : Nat) : State :=
  (({ s with tree := smPut s.tree [d, tr] { tgt := e, start := s.now } {} }).wr (treeSWITCHING tr) (treeIx d tr) 1).wr
    (treeLOCKED tr) (treeIx d tr) 0

/-- The switch ends: the tree follows the new source; a source written meanwhile takes effect (R65). -/
def State.treeEnd (s : State) (d tr : Nat) : State :=
  let x := smGet s.tree [d, tr] {}
  let s := ({ s with tree := smPut s.tree [d, tr] {} {} }).wr (treeACTIVE tr) (treeIx d tr) x.tgt
  let s := s.wr (treeSWITCHING tr) (treeIx d tr) 0
  let e := treeEff d tr (s.rd (treeSRC tr) (treeIx d tr))
  if e = x.tgt then s
  else if x.tgt = 0 then s.wr (treeACTIVE tr) (treeIx d tr) e
  else s.treeStart d tr e

/-- CLOCK_TREE_SWITCH (R63, R64, R65). -/
def execClockTreeSwitch (w : Writer) (d : Fin 8) (tr : Fin 64) (src : BitVec 6) (s : State) : Ans :=
  .next (s.reach w (treeReg tr) (treeIx d tr) src.toNat fun s =>
    let i := treeIx d tr
    let s := s.wr (treeSRC tr) i src.toNat
    let s := if treeCodeOk d tr src.toNat then s else s.raise (treeReg tr) i 63 2 [tr, src.toNat]
    let e := treeEff d tr src.toNat
    if s.on (treeSWITCHING tr) i then s
    else if s.rd (treeACTIVE tr) i = e then s
    else if s.rd (treeACTIVE tr) i = 0 then s.wr (treeACTIVE tr) i e
    else s.treeStart d tr e)

/-- CLOCK_SWITCH_DONE (R65); `LOCKED` follows the deskew of a global tree bound to a spine (R63, R66). -/
def execClockSwitchDone (d : Fin 8) (tr : Fin 64) (converged : Bool) (s : State) : Ans :=
  let i := treeIx d tr
  let s := if s.on (treeSWITCHING tr) i then s.treeEnd d tr else s
  let a := s.rd (treeACTIVE tr) i
  if converged ∧ tr.val < 16 ∧ 8 ≤ a ∧ a ≤ 15 ∧ s.on (treeSWITCHING tr) i = false then
    .next (s.wr (treeLOCKED tr) i 1)
  else .next s

/-- CLOCK_SWITCH_FORCED (R65): the old source has shown no edge for 10 µs. -/
def execClockSwitchForced (d : Fin 8) (tr : Fin 64) (s : State) : Ans :=
  let i := treeIx d tr
  if s.on (treeSWITCHING tr) i then
    let s := s.lapseTo ((smGet s.tree [d.val, tr.val] {}).start + 10000)
    .next ((s.wr (treeFORCED tr) i 1).treeEnd d tr)
  else .next s

/-! ## Hard blocks -/

/-- MEM_ECC_ERROR (R74, R76, R77, R79, R80): port 1 of an ECC block reads the word at `addr`, in which the bits `upset` have
changed since; one bad bit is corrected, two are not. With the block's scrub bit set a corrected word waits for its
write-back. -/
def execMemEccError (d : Fin 8) (k : Fin 40) (deep : Bool) (col : Fin 3) (block : Fin 10) (addr : Fin 16384)
    (upset : BitVec 72) (s : State) : Ans :=
  let i : List Nat := [d, k]
  let kind := deep.toNat
  let word := [kind, col.val, block.val, addr.val]
  let u := s.ramUpset (i ++ word) ^^^ upset.toNat
  match s.ramOf d k deep col block with
  | some c =>
    if s.userRuns d k ∧ c.mode = .ecc ∧ addr.val < ramDepth c deep 1 ∧ (ones u 72 = 1 ∨ ones u 72 = 2) then
      let double := ones u 72 == 2
      let s := s.onFab fun b => { b with upset := smPut b.upset (i ++ word) u 0 }
      let read : RamIn := { en := true, we := false, be := 0, addr := addr, data := 0 }
      let s := s.ramPortEdge s c [d, k, kind, col, block] 1 read
      let first := !s.on .MEM_ECC_SBE i && !s.on .MEM_ECC_DBE i
      let ovw := double && s.on .MEM_ECC_SBE i && !s.on .MEM_ECC_DBE i
      let s := if first || ovw then
          (((s.wr .MEM_ECC_KIND i kind).wr .MEM_ECC_COL i col).wr .MEM_ECC_BLOCK i block).wr .MEM_ECC_ADDR i addr
        else s
      let s := if double then (s.wr .MEM_ECC_DBE i 1).bump .MEM_DBE_CNT_COUNT i
        else (s.wr .MEM_ECC_SBE i 1).bump .MEM_SBE_CNT_COUNT i
      let x := s.sector d k
      let suspect := double || x.swb.any (· = word)
      let s := if suspect then s.record (d.val :: 77 :: k.val :: word) else s
      let s := if c.scrub && !double then s.setSector d k { x with wb := word :: x.wb.filter (· ≠ word) } else s
      .next (s.raise .MEM_ECC i 74 (if double then 3 else 0) word)
    else .next s
  | none => .next s

/-- BRAM_SCRUB_WRITEBACK (R74): port 0 is idle in this cycle, and the corrected word is written. A fabric write to the address
before then has cancelled it (`State.ramPut`). -/
def execBramScrubWriteback (d : Fin 8) (k : Fin 40) (deep : Bool) (col : Fin 3) (block : Fin 10) (addr : Fin 16384)
    (s : State) : Ans :=
  let word := [deep.toNat, col.val, block.val, addr.val]
  if s.userRuns d k ∧ (s.sector d k).wb.any (· = word) then .next (s.writeBack d k word) else .next s

/-- A late access of a block that makes two accesses per cycle (R87). -/
def State.rknLate (s : State) (d k : Nat) (x : Fin 3 × Fin 24 × RknIn) : State :=
  match s.rknOf d k x.1 x.2.1 with
  | some c => s.rknEdge d k x.1 x.2.1 c x.2.2 true
  | none => s

/-- Can a block be late: it makes two accesses per cycle (R86, R87). -/
def State.rknTwo (s : State) (d k : Nat) (x : Fin 3 × Fin 24 × RknIn) : Bool :=
  match s.rknOf d k x.1 x.2.1 with
  | some c => c.two
  | none => false

/-- RKN_LATE_ACCESS (R87, R89, R90): a cycle of the sector in which blocks are late; the first of them sets `LATE`, and the
cycle counts once. -/
def execRknLateAccess (d : Fin 8) (k : Fin 40) (lates : List (Fin 3 × Fin 24 × RknIn)) (s : State) : Ans :=
  let i : List Nat := [d, k]
  match lates.filter (s.rknTwo d k) with
  | [] => .next s
  | x :: more =>
    if s.userRuns d k then
      let s := (x :: more).foldl (fun t x => t.rknLate d k x) s
      let s := s.bump .RKN_LATE_CNT_COUNT i
      if s.on .RKN_STAT_LATE i then .next s
      else .next ((((s.wr .RKN_STAT_LATE i 1).wr .RKN_STAT_COL i x.1).wr .RKN_STAT_BLOCK i x.2.1).raise .RKN_STAT i 89 0
        [x.1, x.2.1])
    else .next s

end Sys2Proof.Machine
end

