-- ==== Sys2Proof/Machine/Operands.lean ====
section
/-! DEFINITION. The operand forms of an engine step: the instruction word, the address word, the data, vector, expectation
and mask (R106, R116 to R118). -/

namespace Sys2Proof.Machine

/-! ## Local window -/

/-- A byte of engine `e`'s local window. -/
def State.winByte (s : State) (e off : Nat) : Byte := memGet s.win (e * 2 ^ 20 + off) 0

/-- `n` bytes of a local window as a number, lowest address in the low bits (R97). -/
def State.winRead (s : State) (e off n : Nat) : Nat := leNat (memBytes s.win (e * 2 ^ 20 + off) n 0)

/-- Store `n` bytes in a local window. -/
def State.winStore (s : State) (e off n v : Nat) : State :=
  { s with win := memStore s.win (e * 2 ^ 20 + off) (natLe v n) 0 }

/-- Is an offset of the window allocated (R97)? -/
def winAllocated (off : Nat) : Bool := off < 0x44400 || (0x80000 ≤ off && off < 0xC0000)

/-- The instruction word at address `pc` of engine `e` (R97). -/
def State.instrWord (s : State) (e pc : Nat) : Nat := s.winRead e (16 * pc) 16

/-! ## The three slots (R106) -/

def wOP (w : Nat) : Nat := bitsOf w 123 5
def wCNT (w : Nat) : Nat := bitsOf w 120 3
def wY (w : Nat) : Bool := bitsOf w 119 1 == 1
def wIMM (w : Nat) : Nat := bitsOf w 96 23
def wXOP (w : Nat) : Nat := bitsOf w 93 3
def wYOP (w : Nat) : Nat := bitsOf w 90 3
def wZOP (w : Nat) : Nat := bitsOf w 87 3
def wLOP (w : Nat) : Nat := bitsOf w 84 3
def wASEL (w : Nat) : Nat := bitsOf w 82 2
def wYCX (w : Nat) : Bool := bitsOf w 81 1 == 1
def wZCY (w : Nat) : Bool := bitsOf w 80 1 == 1
def wAIMM (w : Nat) : Nat := bitsOf w 48 32
def wKIND (w : Nat) : Nat := bitsOf w 46 2
def wDSRC (w : Nat) : Nat := bitsOf w 44 2
def wBIDX (w : Nat) : Nat := bitsOf w 40 4
def wINV (w : Nat) : Bool := bitsOf w 39 1 == 1
def wAPAR (w : Nat) : Bool := bitsOf w 38 1 == 1
def wCHK (w : Nat) : Bool := bitsOf w 37 1 == 1
def wLSTEP (w : Nat) : Bool := bitsOf w 36 1 == 1
def wMEN (w : Nat) : Bool := bitsOf w 35 1 == 1
def wMIDX (w : Nat) : Nat := bitsOf w 31 4
def wCMD (w : Nat) : Nat := bitsOf w 23 8
def wAMRG (w : Nat) : Bool := bitsOf w 22 1 == 1
def wCMRG (w : Nat) : Bool := bitsOf w 21 1 == 1

/-- The bits of `IMM` that an operation uses, and whether it uses `CNT` (R108). -/
def immUsed (op imm : Nat) : Nat :=
  match op with
  | 1 | 2 | 4 => 2 ^ 14 - 1
  | 3 => if bitsOf imm 14 4 = 8 ∨ bitsOf imm 14 4 = 9 then 2 ^ 22 - 1 else 2 ^ 18 - 1
  | 6 | 10 => 2 ^ 23 - 1
  | 7 | 11 => 1
  | 8 => 2 ^ 7 - 1
  | 12 => 2 ^ 7 - 1
  | 13 | 14 => 2 ^ 16 - 1
  | _ => 0

def cntUsed (op imm : Nat) : Bool := op == 1 || op == 10 || (op == 3 && decide (bitsOf imm 14 4 ≤ 1))

/-- R107: a reserved code in any field, a reserved bit set, or an unused bit of `CNT` or `IMM` set. -/
def illegalWord (w : Nat) : Bool :=
  let op := wOP w
  let imm := wIMM w
  decide (15 ≤ op) || wASEL w == 3 || wDSRC w == 3 || bitsOf w 0 21 != 0 ||
  (!cntUsed op imm && wCNT w != 0) || decide (imm ≠ imm % (immUsed op imm + 1)) ||
  (op == 3 && decide (12 ≤ bitsOf imm 14 4)) || (op == 8 && decide (5 ≤ bitsOf imm 4 3)) ||
  (op == 12 && decide (64 < imm))

/-! ## Generators and the address word (R113 to R116) -/

/-- Widths and offsets whose reserved values act as 0 (R135). -/
def State.wx (s : State) (e : Nat) : Nat := let v := s.rd .ENG_AFMT_WX [e]; if v ≤ 32 then v else 0
def State.wy (s : State) (e : Nat) : Nat := let v := s.rd .ENG_AFMT_WY [e]; if v ≤ 32 then v else 0
def State.wz (s : State) (e : Nat) : Nat := let v := s.rd .ENG_AFMT_WZ [e]; if v ≤ 32 then v else 0
def State.aoff (s : State) (e : Nat) : Nat := let v := s.rd .ENG_VFMT_AOFF [e]; if v ≤ 480 then v else 0
def State.coff (s : State) (e : Nat) : Nat := let v := s.rd .ENG_VFMT_COFF [e]; if v ≤ 504 then v else 0
def State.dest (s : State) (e : Nat) : Nat := let v := s.rd .ENG_OUT_DEST [e]; if v = 3 then 0 else v
def State.strmRate (s : State) (e : Nat) : Nat := let v := s.rd .ENG_STRM_CTL_RATE [e]; if v ≤ 64 then v else 0

/-- The value of generator `g` (X 0, Y 1, Z 2, L 3). -/
def State.gen (s : State) (e g : Nat) : Nat := s.rd .ENG_GEN_V_VALUE [e, g]

/-- Scrambling through table `g` (R116). -/
def State.scramble (s : State) (e g v : Nat) : Nat :=
  let t := s.winRead e (0x40000 + g * 0x1000 + 4 * (v % 1024)) 4
  (v / 1024 ^^^ t / 1024) * 1024 + t % 1024

/-- `s(g, v)` of R116. -/
def State.scr (s : State) (e g v : Nat) : Nat :=
  if bitsOf (s.rd .ENG_AFMT_SCR [e]) g 1 = 1 then s.scramble e g v else v

/-- The composite address, scrambled or not (R116). -/
def State.composite (s : State) (e : Nat) (scrambled : Bool) : Nat :=
  let f (g : Nat) := let v := s.gen e g; if scrambled then s.scr e g v else v
  f 0 % 2 ^ s.wx e + f 1 % 2 ^ s.wy e * 2 ^ s.wx e + f 2 % 2 ^ s.wz e * 2 ^ (s.wx e + s.wy e)

/-- The address word of a step (R116). -/
def State.addrWord (s : State) (e w : Nat) : Nat :=
  let c := s.composite e true
  let l := s.scr e 3 (s.gen e 3)
  match wASEL w with
  | 0 => c
  | 1 => l
  | _ => c ^^^ l

/-- The generators after a step, with their carries (R113, R115), every operation reading the values at the start of the
step. -/
def State.genStep (s : State) (e w : Nat) : List (Nat × Bool) :=
  let b (g : Nat) := s.rd .ENG_GEN_B_VALUE [e, g]
  let n (g : Nat) := s.rd .ENG_GEN_E_VALUE [e, g]
  let st (g : Nat) := s.rd .ENG_GEN_S_VALUE [e, g]
  let v (g : Nat) := s.gen e g
  let go (g op lda : Nat) := genOp op (b g) (n g) (st g) (v g) (wAIMM w) lda
  let x := go 0 (wXOP w) (v 3)
  let y := if wYCX w && !x.2 then (v 1, false) else go 1 (wYOP w) (v 3)
  let z := if wZCY w && !y.2 then (v 2, false) else go 2 (wZOP w) (v 3)
  let l := go 3 (wLOP w) (s.composite e false)
  [x, y, z, l]

/-! ## Data (R117, R118) -/

/-- A background entry. -/
def State.bank (s : State) (e i : Nat) : Nat := s.winRead e (0x44000 + 64 * i) 64

/-- The 64-bit LFSR state repeated eight times. -/
def replicate8 (x : Nat) : Nat := (List.range 8).foldl (fun a i => a + x * 2 ^ (64 * i)) 0

/-- All ones, 512 bits. -/
def ones512 : Nat := 2 ^ 512 - 1

/-- Replace `n` bits of `v` from bit `lo` upward. -/
def spliceBits (v lo n x : Nat) : Nat := v - bitsOf v lo n * 2 ^ lo + x % 2 ^ n * 2 ^ lo

/-- D of R118: `stream` is the stream word, used when `DSRC` is 2. -/
def State.stepData (s : State) (e w lfsr stream : Nat) : Nat :=
  let src := match wDSRC w with
    | 0 => s.bank e (wBIDX w)
    | 1 => replicate8 lfsr
    | _ => stream
  let aw := s.addrWord e w
  let inv := (wINV w != (wAPAR w && parity32 (aw &&& s.rd .ENG_PMASK_MASK [e]))) !=
    (wCHK w && parity32 (aw &&& s.rd .ENG_CMASK_MASK [e]))
  if inv then src ^^^ ones512 else src

/-- V of R118: the address word, then the command byte, merged into D. -/
def State.stepVector (s : State) (e w d : Nat) : Nat :=
  let v := if wAMRG w then spliceBits d (s.aoff e) 32 (s.addrWord e w) else d
  if wCMRG w then spliceBits v (s.coff e) 8 (wCMD w) else v

/-- M of R118. -/
def State.stepMask (s : State) (e w : Nat) : Nat := if wMEN w then s.bank e (wMIDX w) else ones512

end Sys2Proof.Machine
end

