-- ==== Sys2Proof/Machine/Memory.lean ====
section
/-! DEFINITION. Global memory as a master sees it: the address map (R18, R19), the HBM address decode (R235, R236), the
sealing checks and counters (R265, R272 to R277), coherence at the home agents and the remote caches (R215 to R221), and
the read and the write of one 64-byte line by a master. -/

namespace Sys2Proof.Machine

/-- A requester: its ID (R164) and the function it acts for, 15 for none (R166). -/
structure Mst where
  src : Nat
  fn : Nat := 15
  deriving DecidableEq, Repr

def engMst (e : Nat) : Mst := { src := e / 12 * 256 + e % 12 }
def ringMst (f : Nat) : Mst := { src := 0x800, fn := f }
def bridgeMst (port f : Nat) : Mst := { src := 0x801 + port, fn := f }
def helmMst : Mst := { src := 0x803 }
def binMst : Mst := { src := 0x804 }

/-! ## HBM address decode -/

/-- `HBM_ILV.MODE`; 3 acts as 1 (R255). -/
def State.ilv (s : State) : Nat := let m := s.rd .HBM_ILV_MODE []; if m = 3 then 1 else m

/-- Stack and stack-local address of a global HBM address (R235). -/
def hbmSplit (mode g : Nat) : Nat × Nat :=
  match mode with
  | 0 => (g / 0x900000000, g % 0x900000000)
  | 2 => (bitsOf g 16 2, g / 2 ^ 18 * 2 ^ 16 + g % 2 ^ 16)
  | _ => (bitsOf g 12 2, g / 2 ^ 14 * 2 ^ 12 + g % 2 ^ 12)

/-- The global address of a stack-local address: the inverse of `hbmSplit`. -/
def hbmJoin (mode st a : Nat) : Nat :=
  match mode with
  | 0 => st * 0x900000000 + a
  | 2 => a / 2 ^ 16 * 2 ^ 18 + st * 2 ^ 16 + a % 2 ^ 16
  | _ => a / 2 ^ 12 * 2 ^ 14 + st * 2 ^ 12 + a % 2 ^ 12

/-- The home bit of hash entry `i` (R236). -/
def homeBit (i : Nat) : Nat := if i < 4 then 9 + i else if i = 4 then 8 else 8 + i

/-- Hashed bit `i` of stack `st` for address `a` (R236). -/
def State.hashBit (s : State) (st i a : Nat) : Nat := ones (a &&& s.rd .HBM_HASH_MASK [st, i] * 64) 36 % 2

/-- Channel, pseudo-channel of the channel, bank (bank group and bank), SID, row and column of a stack-local address
(R236). -/
def State.hbmChannel (s : State) (st a : Nat) : Nat := (List.range 4).foldl (fun x i => x + s.hashBit st i a * 2 ^ i) 0
def State.hbmPC (s : State) (st a : Nat) : Nat := s.hashBit st 4 a
def State.hbmBG (s : State) (st a : Nat) : Nat := s.hashBit st 5 a + 2 * s.hashBit st 6 a
def State.hbmBA (s : State) (st a : Nat) : Nat := s.hashBit st 7 a + 2 * s.hashBit st 8 a
def hbmSID (a : Nat) : Nat := bitsOf a 32 4 / 3
def hbmRow (a : Nat) : Nat := bitsOf a 32 4 % 3 * 8192 + bitsOf a 19 13
def hbmColumn (a : Nat) : Nat := bitsOf a 17 2 * 4 + bitsOf a 6 2

/-- The location of the line of a stack-local address: the address with every hashed bit in the place of its home bit, a
number that names channel, pseudo-channel, bank, row and column one to one. -/
def State.locOf (s : State) (st a : Nat) : Nat :=
  (List.range 9).foldl (fun x i => x + s.hashBit st i a * 2 ^ homeBit i) (bitsOf a 17 19 * 2 ^ 17 + bitsOf a 6 2 * 2 ^ 6)

/-- The stack-local address of a location: the inverse of `locOf`, each home bit entering its own hash alone (R236). -/
def State.addrOf (s : State) (st loc : Nat) : Nat :=
  let base := bitsOf loc 17 19 * 2 ^ 17 + bitsOf loc 6 2 * 2 ^ 6
  (List.range 9).foldl (fun x i => x + (bitsOf loc (homeBit i) 1 + s.hashBit st i base) % 2 * 2 ^ homeBit i) base

/-- The key of a line in the memory table. -/
def State.lineKey (s : State) (st a : Nat) : Nat := st * 0x900000000 + s.locOf st a

/-- Data of a line. -/
def State.lineData (s : State) (key : Nat) : Nat := leNat (memBytes s.hbm key 64 0)

/-- Insert in a rising list without repeats. -/
def insertNat (x : Nat) : List Nat → List Nat
  | [] => [x]
  | y :: r => if x = y then y :: r else if x < y then x :: y :: r else y :: insertNat x r

/-- Store a line with its data, or with the poison syndrome (R252). -/
def State.linePut (s : State) (key data : Nat) (bad : Bool) : State :=
  if bad then { s with poison := insertNat key s.poison }
  else { s with hbm := memStore s.hbm key (natLe data 64) 0, poison := s.poison.filter (· ≠ key) }

/-- The stack serves requests: its die in service, `EN` 1, ready or retraining (R20, R250, R256). -/
def State.stackOk (s : State) (st : Nat) : Bool :=
  s.up (2 * st) && s.on .HBM_CTL_EN [st] && !(smGet s.stack [st] {}).entering && (s.rd .HBM_STAT_STATE [st] = 2 || s.rd .HBM_STAT_STATE [st] = 5)

/-! ## Sealed ranges (R263 to R265) -/

def State.sealState (s : State) (st r : Nat) : Nat := s.rd .SEAL_RSTAT_STATE [st, r]

/-- A range in `STATE` 1 to 5. -/
def State.sealLive (s : State) (st r : Nat) : Bool := 1 ≤ s.sealState st r && s.sealState st r ≤ 5

def State.inRange (s : State) (st r a : Nat) : Bool :=
  let b := s.rd .SEAL_BASE_MIB [st, r]
  decide (b * 2 ^ 20 ≤ a ∧ a < (b + s.rd .SEAL_SIZE_MIB [st, r]) * 2 ^ 20)

/-- Size in MiB of the metadata region of an integrity range (R268). -/
def metaMib (size : Nat) : Nat := ceilDiv (11 * size) 64

def State.inMeta (s : State) (st r a : Nat) : Bool :=
  let b := s.rd .SEAL_MBASE_MIB [st, r]
  decide (s.on .SEAL_RCTL_MODE [st, r] ∧ b * 2 ^ 20 ≤ a ∧ a < (b + metaMib (s.rd .SEAL_SIZE_MIB [st, r])) * 2 ^ 20)

/-- The live range that holds an address. -/
def State.rangeOf (s : State) (st a : Nat) : Option Nat :=
  (List.range 16).find? (fun r => s.sealLive st r && s.inRange st r a)

/-- The line number of an address in its range. -/
def State.rangeLine (s : State) (st r a : Nat) : Nat := (a - s.rd .SEAL_BASE_MIB [st, r] * 2 ^ 20) / 64

/-- The master owns the range, or is granted (R265). -/
def State.sealOwns (s : State) (st r : Nat) (m : Mst) : Bool :=
  let o := s.rd .SEAL_RCTL_OWNER [st, r]
  (decide (o < 8) && m.fn == o) || (o == 8 && m.src == 0x803)

def State.sealGrants (s : State) (st r : Nat) (m : Mst) : Bool :=
  let d := m.src / 256
  let p := m.src % 256
  if m.src = 0x803 then s.on .SEAL_GRANT_OTH_HELM [st, r]
  else if 8 ≤ d then false
  else if p < 12 then (s.rd .SEAL_GRANT_ENG_MASK [st, r, (12 * d + p) / 32]).testBit ((12 * d + p) % 32)
  else if 0x20 ≤ p ∧ p < 0x2C then (s.rd .SEAL_GRANT_OTH_FABRIC [st, r]).testBit d
  else false

/-- The checks of R265 in order: status (0 served, 1 ACCESS_DENIED, 2 UNREACHABLE) and the range concerned. -/
def State.sealCheck (s : State) (st : Nat) (m : Mst) (a : Nat) (write : Bool) : Nat × Option Nat :=
  match (List.range 16).find? (fun r => s.sealLive st r && s.inMeta st r a) with
  | some r => (1, some r)
  | none => match s.rangeOf st a with
    | none => (0, none)
    | some r =>
      let x := s.sealState st r
      if x = 1 ∨ x = 4 then (2, some r)
      else if !(s.sealOwns st r m || s.sealGrants st r m) then (1, some r)
      else if x = 5 ∧ write then (1, some r)
      else (0, some r)

/-- Record an error in `SEAL_ERR` under the first-error rule (R284). `LEVEL` is defined for codes 2 and 3 only, and no
line or node is concerned with codes 6 and 7: there the manual gives `LEVEL` and the address no value, and they are free. -/
def State.sealErr (s : State) (st code r level a : Nat) : State :=
  if s.on .SEAL_ERR_VALID [st] then s
  else
    let (level, s) := if code = 2 ∨ code = 3 then (level, s) else s.draw 4
    let (a, s) := if 6 ≤ code then s.draw 36 else (a, s)
    (((((s.wr .SEAL_ERR_CODE [st] code).wr .SEAL_ERR_RANGE [st] r).wr .SEAL_ERR_LEVEL [st] level).wr
    .SEAL_ERR_ADDR_LO_ADDR [st] (bitsOf a 6 26)).wr .SEAL_ERR_ADDR_HI_ADDR [st] (bitsOf a 32 4)).wr .SEAL_ERR_VALID [st] 1

/-- A request refused by the checks of R265. -/
def State.sealDeny (s : State) (st r a : Nat) : State :=
  ((s.bump .SEAL_DENY_CNT_COUNT [st]).sealErr st 4 r 0 a).raise .SEAL_CTL [st] 265 2 [r, a]

/-- Record an error in `HBM_ERR` under the first-error rule (R258), and raise its event (R252). -/
def State.hbmErr (s : State) (st code a sev : Nat) : State :=
  let s := s.raise .HBM_CTL [st] 252 sev [code, a]
  if s.on .HBM_ERR_VALID [st] then s
  else ((((((s.wr .HBM_ERR_CODE [st] code).wr .HBM_ERR_CH [st] (s.hbmChannel st a)).wr .HBM_ERR_PC [st] (s.hbmPC st a)).wr
    .HBM_ERR_SID [st] (hbmSID a)).wr .HBM_ERR_ADDR_LO_ADDR [st] (bitsOf a 6 26)).wr .HBM_ERR_ADDR_HI_ADDR [st]
    (bitsOf a 32 4)).wr .HBM_ERR_VALID [st] 1

/-! ## Integrity ranges (R268 to R277) -/

/-- The number of nodes of each stored level, leaves first (R270). -/
def treeLevelsFrom : Nat → Nat → List Nat
  | 0, n => [n]
  | fuel + 1, n => if n ≤ 8 then [n] else n :: treeLevelsFrom fuel (ceilDiv n 8)

def treeLevels (size : Nat) : List Nat := treeLevelsFrom 12 (256 * size)

/-- The number n of node `m` of level `j` (R270). -/
def nodeNumber (size j m : Nat) : Nat := ((treeLevels size).take j).sum + m

/-- The address of the primary copy of node n, and of its mirror (R268, R270). -/
def nodeAddr (size mbase n : Nat) : Nat := mbase * 2 ^ 20 + 131072 * size + n / 64 * 8192 + n % 64 * 64
def mirrorAddr (size mbase n : Nat) : Nat := nodeAddr size mbase n + 4096

/-- The address of the tag of range line i (R268). -/
def tagAddr (mbase i : Nat) : Nat := mbase * 2 ^ 20 + 8 * i

/-- The tweak block of a line (R261). -/
def tweakBlock (a st slot major minor : Nat) : Nat :=
  bitsOf a 6 30 + st * 2 ^ 30 + slot * 2 ^ 32 + major * 2 ^ 40 + minor * 2 ^ 96

/-- The slot that governs range line `i` of range `r` (R260, R279). -/
def State.slotOf (s : State) (st r i : Nat) : Nat :=
  let cur := s.rd .SEAL_RCTL_CUR [st, r]
  let x : SealRt := smGet s.seals [st] {}
  let rekeys := (x.run.toList ++ x.queue).any (fun w => w.kind = 2 && w.r = r)
  if rekeys ∧ i < s.rd .SEAL_POS_POS [st, r] then 2 * r + (1 - cur) else 2 * r + cur

/-- The leaf of a line is brought into the counter cache with its ancestors (R272). -/
def State.leafTouch (s : State) (st r leaf : Nat) : State :=
  if smGet s.ccache [st, r, 0, leaf] 0 ≠ 0 then s
  else
    let s := s.bump .SEAL_CC_MISS_CNT_COUNT [st]
    let n := (treeLevels (s.rd .SEAL_SIZE_MIB [st, r])).length
    { s with ccache := (List.range n).foldl (fun c j =>
        if smGet c [st, r, j, leaf / 8 ^ j] 0 = 0 then smPut c [st, r, j, leaf / 8 ^ j] 1 0 else c) s.ccache }

/-- A node is dirty in the counter cache. -/
def State.nodeDirty (s : State) (st r j m : Nat) : State := { s with ccache := smPut s.ccache [st, r, j, m] 2 0 }

/-- The range is frozen (R275): kind 1 a major counter, 2 an inner counter. -/
def State.sealFreeze (s : State) (st r kind a : Nat) : State :=
  (((s.wr .SEAL_RSTAT_STATE [st, r] 5).wr .SEAL_RSTAT_FREEZE [st, r] kind).sealErr st 5 r 0 a).raise .SEAL_CTL [st] 275 3 [r]

/-- A counter takes a new value: `HWM` follows. -/
def State.hwmTo (s : State) (st r v : Nat) : State :=
  { s with hwm := smPut s.hwm [st, r] (max v (smGet s.hwm [st, r] 0)) 0 }

/-- The leaf of lines 64k to 64k + 63 takes major `mj` and minors 0. -/
def State.leafReset (s : State) (st r leaf mj : Nat) : State :=
  { s with
    leafMaj := smPut s.leafMaj [st, r, leaf] mj 0
    leafMin := (List.range 64).foldl (fun m i => smPut m [st, r, 64 * leaf + i] 0 0) s.leafMin }

/-- Re-encryption of a leaf (R274): major plus 1, minors 0; `none` where the counter is at its end (R275). -/
def State.leafReencrypt (s : State) (st r leaf : Nat) : Option State :=
  let mj := smGet s.leafMaj [st, r, leaf] 0 + 1
  if 2 ^ 56 ≤ mj then none
  else some ((((s.leafReset st r leaf mj).hwmTo st r mj).bump .SEAL_OVF_CNT_COUNT [st]).nodeDirty st r 0 leaf)

/-- A write of range line `i` counts (R272, R274); `none`: refused, the range being frozen by it (R275). -/
def State.sealCount (s : State) (st r i : Nat) : Option State :=
  let s := s.leafTouch st r (i / 64)
  let m := smGet s.leafMin [st, r, i] 0
  if m < 63 then some ({ s with leafMin := smPut s.leafMin [st, r, i] (m + 1) 0 }.nodeDirty st r 0 (i / 64))
  else match s.leafReencrypt st r (i / 64) with
    | some s => some { s with leafMin := smPut s.leafMin [st, r, i] 1 0 }
    | none => none

/-- Does a lost node cover range line `i`, whose leaf its repair has not rebuilt yet (R276, R277)? -/
def State.lineLost (s : State) (st r i : Nat) : Bool :=
  s.lostN.any (fun e => e.2 && (match e.1 with
    | [a, b, j, m] => a == st && b == r && i / 64 / 8 ^ j == m &&
        !(smGet s.seals [st] {}).repairs.any (fun w => w.r == r && w.level == j && w.node == m && decide (i < w.pos))
    | _ => false))

/-! ## The line in its stack, after the checks -/

/-- A read of a line that the checks let pass: all ones where it is poisoned or lost (R276). -/
def State.stackRead (s : State) (st a : Nat) : Nat × Nat × State :=
  let key := s.lineKey st a
  match s.rangeOf st a with
  | some r =>
    let i := s.rangeLine st r a
    if s.on .SEAL_RCTL_MODE [st, r] then
      if s.lineLost st r i then (ones512, 3, s)
      else
        let s := s.leafTouch st r (i / 64)
        if s.poison.contains key then (ones512, 3, s) else (s.lineData key, 0, s)
    else if s.poison.contains key then (ones512, 3, s) else (s.lineData key, 0, s)
  | none => if s.poison.contains key then (ones512, 3, s) else (s.lineData key, 0, s)

/-- A write of a line that the checks let pass. -/
def State.stackWrite (s : State) (st a data : Nat) (bad : Bool) : Nat × State :=
  let key := s.lineKey st a
  match s.rangeOf st a with
  | some r =>
    if s.on .SEAL_RCTL_MODE [st, r] then
      let i := s.rangeLine st r a
      if s.lineLost st r i then (2, s.bump .SEAL_DENY_CNT_COUNT [st])
      else match s.sealCount st r i with
        | some s => (0, s.linePut key data bad)
        | none => (1, s.sealFreeze st r 1 a)
    else (0, s.linePut key data bad)
  | none => (0, s.linePut key data bad)

/-- The entry of a read into the front pipe, served at once (R265). -/
def State.pipeRead (s : State) (st : Nat) (m : Mst) (a : Nat) : Nat × Nat × State :=
  let (c, r) := s.sealCheck st m a false
  if c = 0 then s.stackRead st a else (ones512, c, s.sealDeny st (r.getD 0) a)

/-- The entry of a write into the front pipe (R240, R265). -/
def State.pipeWrite (s : State) (st : Nat) (m : Mst) (a data : Nat) (bad : Bool) : Nat × State :=
  let (c, r) := s.sealCheck st m a true
  if c = 0 then (if bad then s.hbmErr st 6 a 3 else s).stackWrite st a data bad else (c, s.sealDeny st (r.getD 0) a)

/-! ## Cache windows, filter and remote caches (R215 to R224) -/

/-- The attribute of a global HBM address (R216): 0 uncached, 1 coherent, 2 read-mostly. -/
def State.winAttr (s : State) (g : Nat) : Nat :=
  match (List.range 16).reverse.find? (fun w =>
      let b := s.rd .RCW_BASE_LO_ADDR [w] * 2 ^ 20 + s.rd .RCW_BASE_HI_ADDR [w] * 2 ^ 32
      s.on .RCW_CTL_EN [w] && decide (b ≤ g ∧ g < b + s.rd .RCW_SIZE_MIB [w] * 2 ^ 20)) with
  | some w => let a := s.rd .RCW_CTL_ATTR [w]; if a = 3 then 0 else a
  | none => 0

/-- Stack and stack-local address of a line (a line is a global address divided by 64). -/
def State.lineHome (s : State) (line : Nat) : Nat × Nat := hbmSplit s.ilv (line * 64)

def State.rcLine (s : State) (n line : Nat) : RcLine := smGet s.rcLines [n, line] {}
def State.setRc (s : State) (n line : Nat) (x : RcLine) : State := { s with rcLines := smPut s.rcLines [n, line] x {} }
def State.wbs (s : State) (n : Nat) : List RcWb := smGet s.rcWb [n] []
def State.setWbs (s : State) (n : Nat) (l : List RcWb) : State := { s with rcWb := smPut s.rcWb [n] l [] }

/-- The filter entry of a line at its home stack. -/
def State.sfEnt (s : State) (st line : Nat) : SfEnt := smGet s.sf [st, line] {}

/-- Write a filter entry; an entry without holders is freed, and `SF_LEVEL` follows. -/
def State.setSf (s : State) (st line : Nat) (x : SfEnt) : State :=
  let s := { s with sf := smPut s.sf [st, line] (if x.mask = 0 then {} else x) {} }
  s.wr .HA_STAT_SF_LEVEL [st] ((s.sf.filter (fun e => e.1.headD 9 == st)).length)

/-- The home writes a line that a cache gave back. -/
def State.homeStore (s : State) (line data : Nat) (bad : Bool) : State :=
  let (st, a) := s.lineHome line
  s.linePut (s.lineKey st a) data bad

/-- Cache `n` answers a snoop (R219, R220): M data go to the home, the line becomes I or S. -/
def State.snoopOne (s : State) (line : Nat) (inval : Bool) (n : Nat) : State :=
  let x := s.rcLine n line
  let s := s.bump .RC_SNP_CNT_COUNT [n]
  let s := if x.st = 3 then s.homeStore line x.data x.poison else s
  let wb := (s.wbs n).find? (fun b => b.line = line && !b.taken)
  let s := match wb with
    | some b => (s.homeStore line b.data b.poison).setWbs n
        ((s.wbs n).map (fun c => if c.line = line then { c with taken := true } else c))
    | none => s
  if x.st = 0 then s else s.setRc n line (if inval then {} else { x with st := 1 })

/-- The dies of a mask. -/
def maskDies (m : Nat) : List Nat := (List.range 8).filter (fun n => m.testBit n)

/-- Snoop every holder of a line but die `but` (8: none) at once, and bring the filter up to date. -/
def State.snoopAll (s : State) (line but : Nat) (inval : Bool) : State :=
  let st := (s.lineHome line).1
  let x := s.sfEnt st line
  if x.mask = 0 then s
  else
    let ds := (maskDies x.mask).filter (· ≠ but)
    let targets := if inval then ds else if x.owned then ds else []
    let s := targets.foldl (fun s n => s.snoopOne line inval n) s
    if inval then s.setSf st line { x with mask := if x.mask.testBit but then 2 ^ but else 0, owned := x.owned && x.mask.testBit but }
    else s.setSf st line { x with owned := x.owned && targets.isEmpty }

/-- The filter set of a line: 262,144 sets. -/
def sfSet (line : Nat) : Nat := line % 262144

/-- Record die `n` as holder of a line; a full set loses its oldest entry (R218). -/
def State.sfAdd (s : State) (line n : Nat) (own : Bool) : State :=
  let st := (s.lineHome line).1
  let x := s.sfEnt st line
  let s := if x.mask ≠ 0 then s
    else
      let inSet := s.sf.filter (fun e => e.1.headD 9 == st && sfSet (e.1.getD 1 0) == sfSet line)
      if inSet.length < 16 then s
      else match inSet.foldl (fun (b : Option (Key × SfEnt)) e => match b with
          | none => some e
          | some o => if e.2.age < o.2.age then some e else some o) none with
        | none => s
        | some o => (s.snoopAll (o.1.getD 1 0) 8 true).bump .HA_BACKINV_CNT_COUNT [st]
  let m := if x.mask.testBit n then x.mask else x.mask + 2 ^ n
  let s := s.setSf st line { mask := m, owned := own || (x.owned && x.mask ≠ 0), age := if x.mask = 0 then s.sfAge else x.age }
  { s with sfAge := s.sfAge + 1 }

/-- Die `n` no longer holds a line. -/
def State.sfDrop (s : State) (line n : Nat) : State :=
  let st := (s.lineHome line).1
  let x := s.sfEnt st line
  if x.mask.testBit n then s.setSf st line { x with mask := x.mask - 2 ^ n, owned := x.owned && x.mask ≠ 2 ^ n } else s

/-- A line of the writeback buffer goes to its home (R219, R220): not written where a snoop has taken it. -/
def State.wbGo (s : State) (n : Nat) (b : RcWb) : State :=
  let s := (s.setWbs n ((s.wbs n).erase b)).bump .RC_WB_CNT_COUNT [n]
  if b.taken then s else (s.homeStore b.line b.data b.poison).sfDrop b.line n

/-- The oldest line of the writeback buffer whose home is reachable goes there. -/
def State.wbDrain (s : State) (n : Nat) : State :=
  match (s.wbs n).find? (fun b => s.stackOk (s.lineHome b.line).1) with
  | some b => s.wbGo n b
  | none => s

/-- Drop a line of cache `n` for want of room, or by command: a dirty line enters the writeback buffer, a clean coherent
line is reported with CEVC. -/
def State.rcEvict (s : State) (n line : Nat) : State :=
  let x := s.rcLine n line
  let s := s.setRc n line {}
  if x.st = 3 then
    let s := if 32 ≤ (s.wbs n).length then s.wbDrain n else s
    s.setWbs n (s.wbs n ++ [{ line := line, data := x.data, poison := x.poison }])
  else if x.st = 0 || x.rm then s
  else
    let st := (s.lineHome line).1
    { s with haIn := smPut s.haIn [st] (smGet s.haIn [st] [] ++ [{ opc := 0x1B, line := line, die := n }]) [] }

/-- The lines of cache `n` in the set of `line` (R215). -/
def State.rcSet (s : State) (n line : Nat) : List (Key × RcLine) :=
  s.rcLines.filter (fun e => e.1.headD 9 == n && e.1.getD 1 0 % 16384 == line % 16384)

/-- Fill a line, evicting one that is not retained where the set is full; with 16 retained lines it is served uncached
(R224), and so where a dirty one finds the writeback buffer full of lines whose homes are out (R220). Which line is evicted the manual leaves open: a free value. -/
def State.rcFill (s : State) (n line : Nat) (x : RcLine) : State :=
  let here := s.rcSet n line
  if here.length < 16 || here.any (fun e => e.1.getD 1 0 == line) then s.setRc n line x
  else
    let can := here.filter (fun e => !e.2.retained)
    if can.isEmpty then s
    else
      let (v, s) := s.draw 32
      match can[v % can.length]? with
      | some e =>
        let s := if e.2.st = 3 ∧ 32 ≤ (s.wbs n).length then s.wbDrain n else s
        if e.2.st = 3 ∧ 32 ≤ (s.wbs n).length then s else (s.rcEvict n (e.1.getD 1 0)).setRc n line x
      | none => s

/-- Is the access of a master on die `n` to a global address handled by the die's remote cache (R165, R215 to R217)? -/
def State.cacheable (s : State) (n g : Nat) : Bool :=
  let (st, a) := hbmSplit s.ilv g
  decide (n < 8) && 2 * st != n && s.winAttr g != 0 && s.on .RC_CTL_EN [n] && (s.rangeOf st a).isNone

/-- Bring a line into cache `n`, shared or owned, with every other holder snooped (R218, R219). -/
def State.rcBring (s : State) (n line : Nat) (own : Bool) : State :=
  let s := s.snoopAll line n own
  let (st, a) := s.lineHome line
  let key := s.lineKey st a
  let s := s.sfAdd line n own
  s.rcFill n line { st := if own then 2 else 1, data := s.lineData key, poison := s.poison.contains key }

/-- `RETAINED` follows the cache's retained lines (R230). -/
def State.countRetained (s : State) (n : Nat) : State :=
  s.wr .RC_STAT_RETAINED [n] ((s.rcLines.filter (fun e => e.1.headD 9 == n && e.2.retained)).length)

/-- Every cache writes back its retained and its buffered lines of a home that has returned, keeping the retained ones
shared, and the home agent takes requests (R220, R224). -/
def State.recallHome (s : State) (st : Nat) : State :=
  let kept := s.rcLines.filter (fun e => e.2.retained && (s.lineHome (e.1.getD 1 0)).1 == st)
  let s := kept.foldl (fun s e =>
    let n := e.1.headD 0
    let line := e.1.getD 1 0
    let s := ((s.homeStore line e.2.data e.2.poison).setRc n line { e.2 with st := 1, retained := false }).bump .RC_WB_CNT_COUNT [n]
    let s := (s.setSf st line { s.sfEnt st line with owned := false }).sfAdd line n false
    s.countRetained n) s
  let s := (List.range 8).foldl (fun s n =>
    ((s.wbs n).filter (fun b => (s.lineHome b.line).1 = st)).foldl (fun s b => s.wbGo n b) s) s
  ({ s with homeOut := s.homeOut.filter (· ≠ st) }).wr .HA_STAT_RECALL [st] 0

/-- A home agent in recall first takes back the retained lines. -/
def State.recallFirst (s : State) (st : Nat) : State := if s.on .HA_STAT_RECALL [st] then s.recallHome st else s

/-- A read by a master of die `n` through its remote cache, all at once. -/
def State.rcRead (s : State) (n line : Nat) : Nat × Nat × State :=
  let x := s.rcLine n line
  let wb := (s.wbs n).find? (fun b => b.line = line && !b.taken)
  let give (d : Nat) (p : Bool) (s : State) : Nat × Nat × State := if p then (ones512, 3, s) else (d, 0, s)
  if x.st ≠ 0 then give x.data x.poison (s.bump .RC_HIT_CNT_COUNT [n])
  else match wb with
    | some b => give b.data b.poison (s.bump .RC_HIT_CNT_COUNT [n])
    | none =>
      let (st, a) := s.lineHome line
      let s := (s.bump .RC_MISS_CNT_COUNT [n]).recallFirst st
      if s.stackOk st = false then (ones512, 2, s)
      else
        let key := s.lineKey st a
        if s.winAttr (line * 64) = 2 then
          let s := s.rcFill n line { st := 1, data := s.lineData key, poison := s.poison.contains key, rm := true }
          give (s.lineData key) (s.poison.contains key) s
        else
          let s := s.rcBring n line false
          give (s.lineData key) (s.poison.contains key) s

/-- A full-line write by a master of die `n` through its remote cache, all at once. -/
def State.rcWrite (s : State) (n line data : Nat) (bad : Bool) : Nat × State :=
  let x := s.rcLine n line
  let (st, _) := s.lineHome line
  if s.winAttr (line * 64) = 2 then
    if s.stackOk st then
      let s := s.homeStore line data bad
      (0, if x.st ≠ 0 then s.setRc n line { x with data := data, poison := bad } else s)
    else (2, s)
  else if 2 ≤ x.st then ((0, (s.bump .RC_HIT_CNT_COUNT [n]).setRc n line { x with st := 3, data := data, poison := bad }))
  else
    let s := (s.bump .RC_MISS_CNT_COUNT [n]).recallFirst st
    if s.stackOk st then
      let s := s.rcBring n line true
      if (s.rcLine n line).st = 0 then (0, (s.homeStore line data bad).sfDrop line n)
      else (0, s.setRc n line { st := 3, data := data, poison := bad })
    else (2, s)

/-! ## One line of the global address space, as a master reads and writes it -/

/-- What an address of the global map is (R18). -/
inductive Place where
  | hbm
  | user (die port : Nat)
  | window (e off : Nat)
  | flash (off : Nat)
  | regs
  | host (port addr : Nat)
  | reserved
  deriving DecidableEq, Repr

/-- The global physical address map (R18, R165). -/
def placeOf (g : Nat) : Place :=
  if g < 0x002400000000 then .hbm
  else if g < 0x010000000000 then .reserved
  else if g < 0x018000000000 then
    if bitsOf g 32 4 < 12 then .user ((g - 0x010000000000) / 0x001000000000) (bitsOf g 32 4) else .reserved
  else if g < 0x018006000000 then .window ((g - 0x018000000000) / 0x100000) (g % 0x100000)
  else if g < 0x01C000000000 then .reserved
  else if g < 0x01C080000000 then .flash (g - 0x01C000000000)
  else if g < 0x01E000000000 then .reserved
  else if g < 0x01E002000000 then .regs
  else if g < 0x800000000000 then .reserved
  else if g < 0xC00000000000 then .host 0 (g - 0x800000000000)
  else if g < 0x1000000000000 then .host 1 (g - 0xC00000000000)
  else .reserved

/-- A request refused before it enters the mesh, or at its destination (R19): logged by the requester's NI. -/
def State.refuse19 (s : State) (m : Mst) (g status : Nat) : State :=
  s.raise .NOC_NI_CTL [min 8 (m.src / 256), 0] 19 2 [m.src, g, status]

/-- The die of a master that is a fabric port. -/
def Mst.fabric (m : Mst) : Option Nat :=
  let p := m.src % 256
  if m.src / 256 < 8 ∧ 0x20 ≤ p ∧ p < 0x2C then some (m.src / 256) else none

/-- The function through which a master reaches host memory at a PCIe port (R346): for a fabric port the one that grants its die,
none if there is none; for every other master the one it acts for. -/
def State.hostFn (s : State) (m : Mst) (port : Nat) : Option Nat :=
  match m.fabric with
  | some d => ((List.range 4).map (4 * port + ·)).find? (fun f => (s.rd .HIF_FN_FAB_DIES [f]).testBit d)
  | none => some m.fn

/-- The status of an access to host memory: ACCESS_DENIED without a function (R346); UNREACHABLE for a fabric port while the bridge
issues nothing for that function (R319; which status, the model chose: log entry 138). -/
def State.hostStatus (s : State) (m : Mst) (port : Nat) : Nat :=
  match s.hostFn m port with
  | none => 1
  | some f => if m.fabric.isSome && !s.on .HIF_FN_STAT_BME [f] then 2 else 0

/-- The masters that may reach the engines' local memories, and the boot flash (R18). -/
def winMaster (m : Mst) : Bool := m.src == 0x800 || m.src == 0x803
def flashMaster (m : Mst) : Bool := m.src == 0x803 || m.src == 0x804

/-- Endpoints of die `n` serve the data plane: it is in service and not in a power state (R389). -/
def State.dpUp (s : State) (n : Nat) : Bool := s.up n && s.rd .PWR_DIE_STAT_PSTATE [n] == 0

/-- The status with which the map refuses a request, 0 if it does not. -/
def State.mapStatus (s : State) (m : Mst) (g : Nat) : Nat :=
  match placeOf g with
  | .hbm => if s.stackOk (hbmSplit s.ilv g).1 then 0 else
      if s.cacheable (m.src / 256) g then 0 else 2
  | .user d p => if s.dpUp d ∧ (smGet s.sec [d, if p < 6 then 17 + p else 27 + p] {}).opened then 0 else 2
  | .window e _ => if winMaster m then (if s.dpUp (engDie e) then 0 else 2) else 1
  | .flash _ => if flashMaster m then 0 else 1
  | .regs => 1
  | .host p _ => s.hostStatus m p
  | .reserved => 2

/-- The lines that `n` bytes from `a` touch: line address, first byte, bytes. -/
def linePieces (a n : Nat) : List (Nat × Nat × Nat) :=
  if n = 0 then []
  else (List.range ((a + n - 1) / 64 - a / 64 + 1)).map fun i =>
    let l := (a / 64 + i) * 64
    let lo := max a l
    (l, lo - l, min (a + n) (l + 64) - lo)

/-- Put bytes into a line from byte `lo`. -/
def mergeLine (line lo : Nat) (bs : List Byte) : Nat :=
  let old := natLe line 64
  leNat (old.take lo ++ bs ++ old.drop (lo + bs.length))

/-- A master reads the 64-byte line at a global address: data, status (0 OK, 1 ACCESS_DENIED, 2 UNREACHABLE, 3 POISONED)
and state. `env` is what the user design or the host answers: data and status. -/
def State.gRead (s : State) (m : Mst) (g : Nat) (env : Nat × Nat) : Nat × Nat × State :=
  let c := s.mapStatus m g
  if c ≠ 0 then (ones512, c, s.refuse19 m g c)
  else match placeOf g with
    | .hbm =>
      let g := g / 64 * 64
      let (st, a) := hbmSplit s.ilv g
      if s.cacheable (m.src / 256) g then
        let (d, c, s) := s.rcRead (m.src / 256) (g / 64)
        (d, c, if c = 2 then s.refuse19 m g 2 else s)
      else
        let s := if s.winAttr g = 1 then (s.recallFirst st).snoopAll (g / 64) 8 false else s
        s.pipeRead st m a
    | .window e off =>
      let off := off / 64 * 64
      (if s.on .FC_STATUS_BM_BUSY [e] ∧ 0x80000 ≤ off then 0 else s.winRead e off 64, 0, s)
    | .flash off => (leNat (memBytes s.flash (off / 64 * 64) 64 0xFF), 0, s)
    | _ => if env.2 = 0 then (env.1 % 2 ^ 512, 0, s) else (ones512, env.2, s)

/-- An engine state in which the local memories are written (R98). -/
def State.winWritable (s : State) (e : Nat) : Bool :=
  let x := s.rd .ENG_STATUS_STATE [e]
  x == 0 || (decide (5 ≤ x) && decide (x ≤ 8))

/-- A write into a local window that is dropped and logged (R97, R98, R538). -/
def State.winDrop (s : State) (w : Writer) (e off v : Nat) : State :=
  s.raiseFixed .ENG_CTL [e] 0x0F03 2 (.known (off % 2 ^ 25 + 2 ^ 27 + writerNum w * 2 ^ 28 + v % 2 ^ 32 * 2 ^ 32))

/-- A 4-byte write into a local window (R97, R98, R156): 0 done or held, 1 dropped. -/
def State.winWord (s : State) (w : Writer) (e off v : Nat) : Nat × State :=
  if off % 4 = 0 ∧ winAllocated off ∧ s.winWritable e then
    if s.on .FC_STATUS_BM_BUSY [e] ∧ 0x80000 ≤ off then
      let r := smGet s.eng [e] {}
      (0, { s with eng := smPut s.eng [e] { r with bmHeld := r.bmHeld ++ [.store off v] } {} })
    else (0, s.winStore e off 4 v)
  else (1, s.winDrop w e off v)

/-- A master writes the 64-byte line at a global address: status and state. `bad`: the data arrived poisoned. -/
def State.gWrite (s : State) (m : Mst) (g data : Nat) (bad : Bool) (env : Nat) : Nat × State :=
  let c := s.mapStatus m g
  if c ≠ 0 then (c, s.refuse19 m g c)
  else match placeOf g with
    | .hbm =>
      let g := g / 64 * 64
      let (st, a) := hbmSplit s.ilv g
      if s.cacheable (m.src / 256) g then
        let (c, s) := s.rcWrite (m.src / 256) (g / 64) data bad
        (c, if c = 2 then s.refuse19 m g 2 else s)
      else
        let s := if s.winAttr g = 1 then (s.recallFirst st).snoopAll (g / 64) 8 true else s
        s.pipeWrite st m a data bad
    | .window e off =>
      let w : Writer := if m.src = 0x803 then .helm 0 else if h : m.fn < 8 then .ring ⟨m.fn, h⟩ else .other
      let off := off / 64 * 64
      if winAllocated off = false then (0, s.winDrop w e off (bitsOf data 0 32))
      else if s.winWritable e = false then (1, s.winDrop w e off (bitsOf data 0 32))
      else (List.range 16).foldl (fun (acc : Nat × State) i =>
        let (c, s) := acc
        let (d, s) := s.winWord w e (off + 4 * i) (bitsOf data (32 * i) 32)
        (max c d, s)) (0, s)
    | .flash _ => (1, s.refuse19 m g 1)
    | .host p a => if env = 0 then (0, s.emit (.hostWrite p ((s.hostFn m p).getD 15) (a / 64 * 64) false (natLe data 64))) else (env, s)
    | _ => (env, s)

end Sys2Proof.Machine
end

