-- ==== Sys2Proof/Machine/Engines.lean ====
section
/-! DEFINITION. The waypoint engines: commands, the steps of a program, waits, streaming, permits (R96 to R139). -/

namespace Sys2Proof.Machine

def State.engine (s : State) (e : Nat) : EngRt := smGet s.eng [e] {}
def State.setEngine (s : State) (e : Nat) (r : EngRt) : State := { s with eng := smPut s.eng [e] r {} }
def State.estate (s : State) (e : Nat) : Nat := s.rd .ENG_STATUS_STATE [e]

/-- Sector of the vector and response ports of engine `e` (R149). -/
def vpSector (e : Nat) : Nat := if e % 12 < 6 then 9 + e % 12 else 19 + e % 12

/-- The vector port is available while its sector reads `STATE` 3 (R150). -/
def State.vpUp (s : State) (e : Nat) : Bool := s.rd .SEC_STATUS_STATE [engDie e, vpSector e] = 3

/-- The permit of engine `e` returns: operations 1 and 2 of R395. -/
def State.engReturn (s : State) (e : Nat) : State := (s.giveBack (engDie e) 1 [e]).giveBack (engDie e) 2 [e]

/-- The trigger time in ns of local time (R125). -/
def State.trigger (s : State) (e : Nat) : Nat :=
  (s.rd .ENG_TTRIG_SL_SEC [e] + s.rd .ENG_TTRIG_SH_SEC [e] * 2 ^ 32) * 1000000000 + s.rd .ENG_TTRIG_NS_NS [e]

/-- A fault ends the run (R133): recorded, `STATE` 8, permit returned, event raised. -/
def State.engFault (s : State) (e code detail pc : Nat) : State :=
  let s := s.engReturn e
  let s := s.setEngine e { s.engine e with wait := .none, stall := 0, waited := false, single := false, strmOn := false }
  let s := (((s.wr .ENG_FAULT_CODE [e] code).wr .ENG_FAULT_DETAIL [e] detail).wr .ENG_FAULT_PC [e] pc).wr .ENG_FAULT_VALID [e] 1
  (s.wr .ENG_STATUS_STATE [e] 8).raise .ENG_CTL [e] 133 (if code = 13 then 2 else 0) [code, detail, pc]

/-! ## Streams (R126, R127) -/

/-- A stream start: buffer emptied, position 0, fetching on (R126). -/
def State.strmStart (s : State) (e : Nat) : State :=
  let s := s.setEngine e { s.engine e with buf := [], outst := [], issued := 0, issT := [], strmOn := true, strmFirst := true }
  (s.wr .ENG_STRM_POS_POS [e] 0).wr .ENG_STRM_CTL_ENDED [e] 0

/-- A stream stop: buffer emptied, fetching off (R126). -/
def State.strmStop (s : State) (e : Nat) : State :=
  s.setEngine e { s.engine e with buf := [], outst := [], strmOn := false, strmFirst := false }

/-- A stream start is refused while `RATE` or `LEN` is 0 (R126). -/
def State.strmOff (s : State) (e : Nat) : Bool := s.strmRate e = 0 || s.rd .ENG_STRM_LEN_LEN [e] = 0

/-- The fill that the first stream step waits for is there (R127). -/
def State.filled (s : State) (e : Nat) : Bool :=
  decide (min (min (s.rd .ENG_STRM_CTL_FILL [e]) 32 * 256) (s.rd .ENG_STRM_LEN_LEN [e]) ≤ (s.engine e).buf.length)

/-! ## START, ARM and the other commands (R101 to R105) -/

/-- The first step begins (R105, R112): the timer starts. -/
def State.engBegin (s : State) (e : Nat) : State :=
  let p := s.rd .ENG_TMR_PERIOD_PERIOD [e]
  let s := s.setEngine e { s.engine e with tmrDue := if p = 0 then 0 else s.now + p, stepT := s.now }
  s.wr .ENG_STATUS_STATE [e] 3

/-- START or ARM takes effect (R101, R143): checks, initialisation, permit request. One that fails its checks begins no run:
it leaves `FC_RUN` and the counters of R143 as they were (DESIGN CHOICE, log entry 112). -/
def State.engInit (s : State) (e : Nat) (arm : Bool) : State :=
  let s := s.setEngine e { s.engine e with startPend := 0 }
  let pc := s.rd .ENG_PC_START [e]
  if 32 < s.wx e + s.wy e + s.wz e then s.engFault e 16 0 pc
  else if s.dest e = 1 ∧ s.vpUp e = false then s.engFault e 9 0 pc
  else
    let r := s.engine e
    let r : EngRt := { r with
      lstack := [], cstack := [], tret := 0, tloop := 0, tcall := 0, cx := false, cy := false, cz := false, cl := false,
      lfsr := s.rd .ENG_LFSR_LO_SEED [e] + s.rd .ENG_LFSR_HI_SEED [e] * 2 ^ 32,
      steps := 0, tmrDue := 0, tmrLeft := 0, tmrPend := false, wait := .none, stall := 0, waited := false, counted := false,
      single := false, armed := arm, kept := none,
      strmOn := false, strmFirst := false, issued := 0, outst := [], buf := [], issT := [],
      out := [], cq := [], nextIx := 0, vseq := 0, launched := false, slot := 0, firstVecT := none, cfgSaid := false,
      cmp := 0, recs := 0, anyFail := false }
    let s := s.setEngine e r
    let s := (List.range 8).foldl (fun s c => s.wr .ENG_LCNT_COUNT [e, c] 0) s
    let s := (List.range 4).foldl (fun s g => s.wr .ENG_GEN_V_VALUE [e, g] (s.rd .ENG_GEN_B_VALUE [e, g])) s
    let s := (List.range 4).foldl (fun s j => s.wr .FC_SLICE_FAIL_COUNT [e, j] 0) s
    let s := ((((s.wr .ENG_PC_CUR [e] pc).wr .ENG_STATUS_IN_HANDLER [e] 0).wr .ENG_STATUS_FAIL [e] 0).wr
      .ENG_STATUS_TLATE [e] 0).wr .ENG_STATUS_TMR_OVR [e] 0
    let s := ((((s.wr .ENG_FAULT_CODE [e] 0).wr .ENG_FAULT_DETAIL [e] 0).wr .ENG_FAULT_PC [e] 0).wr .ENG_FAULT_VALID [e] 0).wr
      .ENG_STATUS_END_CODE [e] 0
    let s := (((s.wr .ENG_STALL_COUNT [e] 0).wr .ENG_STRM_POS_POS [e] 0).wr .ENG_STRM_CTL_ENDED [e] 0).wr .ENG_STEPS_HI_COUNT [e] 0
    let s := ((s.wr .FC_FAIL_CNT_COUNT [e] 0).wr .FC_UNCHK_CNT_COUNT [e] 0).incr .FC_RUN_RUN [e]
    (s.wr .ENG_STATUS_STATE [e] 1).request (engDie e) 1 (3 + ceilDiv (s.strmRate e) 16) [e] []

/-- START or ARM accepted: it takes effect at once, or when the queues of the previous run are empty (R143). -/
def State.engStart (s : State) (e : Nat) (arm : Bool) : State :=
  let r := s.engine e
  if r.out.isEmpty && r.cq.isEmpty then s.engInit e arm
  else s.setEngine e { r with startPend := if arm then 2 else 1 }

/-- The timer freezes while the engine is paused, if `TMR_FREEZE` says so (R103). -/
def State.tmrStop (s : State) (e : Nat) : State :=
  let r := s.engine e
  if s.on .ENG_CTL_TMR_FREEZE [e] && r.tmrDue != 0 then
    s.setEngine e { r with tmrLeft := max 1 (r.tmrDue - s.now), tmrDue := 0 }
  else s

/-- The timer runs again. -/
def State.tmrRun (s : State) (e : Nat) : State :=
  let r := s.engine e
  if r.tmrLeft = 0 then s else s.setEngine e { r with tmrDue := s.now + r.tmrLeft, tmrLeft := 0 }

/-- A paused engine's timer follows `TMR_FREEZE` as it is written (R103). -/
def State.tmrFollow (s : State) (e : Nat) : State :=
  if s.estate e = 5 then (if s.on .ENG_CTL_TMR_FREEZE [e] then s.tmrStop e else s.tmrRun e) else s

/-- What a SYNC arrival that has been registered leaves behind when its step is abandoned (R103). -/
def keptOf (r : EngRt) : Option Arrival :=
  match r.wait with
  | .syncArr a => if a.issued then some a else r.kept
  | _ => r.kept

/-- STOP (R102) in `STATE` 1 to 5. -/
def State.engStop (s : State) (e : Nat) : State :=
  let s := s.engReturn e
  let s := s.setEngine e { s.engine e with wait := .none, stall := 0, waited := false, single := false, buf := [], outst := [], strmOn := false }
  s.wr .ENG_STATUS_STATE [e] 7

/-- PAUSE (R103) in `STATE` 3 or 4: between steps, or the waiting or stalled step is abandoned. The units that a RATE step
has asked for or been granted go back with the step, which asks for them again when it executes again; a step that then
stalls anew counts in `ENG_STALL` anew, as a new execution (both DESIGN CHOICE, log entries 113 and 114). -/
def State.engPause (s : State) (e : Nat) : State :=
  let r := s.engine e
  let s := s.giveBack (engDie e) 2 [e]
  let s := s.setEngine e { r with kept := keptOf r, wait := .none, stall := 0, waited := false, counted := false, single := false }
  (s.wr .ENG_STATUS_STATE [e] 5).tmrStop e

/-- Which fields an engine reset clears (R6): class ENG of the engine. -/
def engClears (e : Nat) (f : Fld) (i : List Nat) : Bool := f.spec.cls == .eng && i.headD 0 == e

/-- An engine reset (R104, R144): everything abandoned, permit returned, class ENG fields at their reset values; the fix-point
copies, the local window and the ring registers stay. A bitmap clear under way ends with `BM_BUSY`: the bitmap RAM keeps what
it holds, and the tallies and writes held for the end of the clear are lost (DESIGN CHOICE, log entry 115). -/
def State.engReset (s : State) (e : Nat) : State :=
  let r := s.engine e
  let s := s.engReturn e
  let s := s.setEngine e { seen := r.seen, flags := r.flags, gens := r.gens, opN := r.opN }
  s.clearRegs (engClears e)

/-- The `ENG_CTL` register of an engine, and the word that a command written there stands for. -/
def State.engCmd (s : State) (w : Writer) (e cmd : Nat) (k : State → State) (states : List Nat) : State :=
  s.reach w .ENG_CTL [e] (s.wordWith .ENG_CTL [e] [(.ENG_CTL_CMD, cmd)]) fun s =>
    if states.contains (s.estate e) then k s else s.dropF w .ENG_CTL_CMD [e] cmd

/-- START (R101, R105). -/
def execStart (w : Writer) (e : Fin 96) (s : State) : Ans := .next (s.engCmd w e 1 (·.engStart e false) [0, 6, 7, 8])

/-- ARM (R105). -/
def execArm (w : Writer) (e : Fin 96) (s : State) : Ans := .next (s.engCmd w e 2 (·.engStart e true) [0, 6, 7, 8])

/-- ENG_CMD_STOP (R102). -/
def execEngCmdStop (w : Writer) (e : Fin 96) (s : State) : Ans := .next (s.engCmd w e 3 (·.engStop e) [1, 2, 3, 4, 5])

/-- PAUSE (R103). -/
def execPause (w : Writer) (e : Fin 96) (s : State) : Ans := .next (s.engCmd w e 4 (·.engPause e) [3, 4])

/-- ENG_CMD_RESUME (R105): `STATE` 3; an abandoned step executes again from its start. -/
def execEngCmdResume (w : Writer) (e : Fin 96) (s : State) : Ans :=
  .next (s.engCmd w e 5 (fun s => (s.tmrRun e).wr .ENG_STATUS_STATE [e] 3) [5])

/-- ENGINE_RESET (R104). -/
def execEngineReset (w : Writer) (e : Fin 96) (s : State) : Ans :=
  .next (s.engCmd w e 7 (·.engReset e) [0, 1, 2, 3, 4, 5, 6, 7, 8])

/-- ENG_START_EFFECT (R143): the queues of the previous run are empty. -/
def execEngStartEffect (e : Fin 96) (s : State) : Ans :=
  let r := s.engine e
  if r.startPend ≠ 0 ∧ r.out.isEmpty ∧ r.cq.isEmpty then .next (s.engInit e (r.startPend = 2))
  else .next s

/-- ENG_PERMIT_GRANT (R105, R125, R126): the engine runs, or is armed; a stream with `AUTO` starts. -/
def execEngPermitGrant (e : Fin 96) (s : State) : Ans :=
  if s.estate e = 1 then
    match s.takeGrant (engDie e) 1 [e.val] with
    | none => .next s
    | some s =>
      if s.on .ENG_STRM_CTL_AUTO [e] && s.strmOff e then .next (s.engFault e 10 0 (s.rd .ENG_PC_CUR [e]))
      else
        let s := if s.on .ENG_STRM_CTL_AUTO [e] then s.strmStart e else s
        let r := s.engine e
        if r.armed then
          let s := s.setEngine e { r with launchRef := s.trigger e }
          if s.localNs ≤ s.trigger e then .next (s.wr .ENG_STATUS_STATE [e] 2)
          else if s.on .ENG_CTL_LATE_POLICY [e] then .next (s.engFault e 14 0 (s.rd .ENG_PC_CUR [e]))
          else .next ((s.wr .ENG_STATUS_TLATE [e] 1).engBegin e)
        else .next ((s.setEngine e { r with launchRef := s.localNs }).engBegin e)
  else .next s

/-- ENG_TRIGGER (R125): an armed engine begins its first step. -/
def execEngTrigger (e : Fin 96) (s : State) : Ans :=
  if s.estate e = 2 then .next ((s.lapseToLocal (s.trigger e)).engBegin e) else .next s

/-! ## The control operations (R108 to R112), each on the state after emission; `pc` is the step's address -/

/-- What a control operation gives. -/
inductive Ctl where
  /-- next PC, whether the end check of R110 applies, the state -/
  | go (next : Nat) (seq : Bool) (s : State)
  | fault (code : Nat)
  /-- HALT -/
  | halt (next : Nat) (s : State)

def ctlLoop (e pc w : Nat) (s : State) : Ctl :=
  let c := wCNT w
  let end_ := wIMM w % 2 ^ 14
  let r := s.engine e
  if end_ ≤ pc then .fault 5
  else if r.lstack.any (fun x => x.1 = c) then .fault 4
  else if s.rd .ENG_LREL_COUNT [e, c] = 0 then .go (end_ + 1) false s
  else if 8 ≤ r.lstack.length then .fault 3
  else .go (pc + 1) true
    ((s.setEngine e { r with lstack := (c, pc + 1, end_) :: r.lstack }).wr .ENG_LCNT_COUNT [e, c] (s.rd .ENG_LREL_COUNT [e, c]))

def ctlJmp (_e _pc w : Nat) (s : State) : Ctl := .go (wIMM w % 2 ^ 14) false s

/-- The condition of a BR step (R109). -/
def State.brCond (s : State) (e w : Nat) : Bool :=
  let r := s.engine e
  let f := bitsOf (wIMM w) 18 4
  match bitsOf (wIMM w) 14 4 with
  | 0 => s.rd .ENG_LCNT_COUNT [e, wCNT w] = 0
  | 1 => s.rd .ENG_LCNT_COUNT [e, wCNT w] ≠ 0
  | 2 => r.cx
  | 3 => r.cy
  | 4 => r.cz
  | 5 => r.cl
  | 6 => s.on .ENG_STATUS_FAIL [e]
  | 7 => !s.on .ENG_STATUS_FAIL [e]
  | 8 => r.flags.testBit f
  | 9 => !r.flags.testBit f
  | 10 => s.on .ENG_STRM_CTL_ENDED [e]
  | 11 => !s.on .ENG_STRM_CTL_ENDED [e]
  | _ => false

def ctlBr (e pc w : Nat) (s : State) : Ctl :=
  if (s.engine e).brOk then .go (wIMM w % 2 ^ 14) false s else .go (pc + 1) true s

def ctlCall (e pc w : Nat) (s : State) : Ctl :=
  let r := s.engine e
  if 4 ≤ r.cstack.length then .fault 6
  else .go (wIMM w % 2 ^ 14) false (s.setEngine e { r with cstack := (pc + 1) :: r.cstack })

def ctlRet (e _pc _w : Nat) (s : State) : Ctl :=
  let r := s.engine e
  if s.on .ENG_STATUS_IN_HANDLER [e] ∧ r.cstack.length = r.tcall then
    if r.lstack.length ≠ r.tloop then .fault 8
    else .go r.tret false (s.wr .ENG_STATUS_IN_HANDLER [e] 0)
  else match r.cstack with
    | [] => .fault 7
    | a :: q => .go a false (s.setEngine e { r with cstack := q })

def ctlSetl (e pc w : Nat) (s : State) : Ctl := .go (pc + 1) true (s.wr .ENG_LREL_COUNT [e, wCNT w] (wIMM w))

def ctlStrm (e pc w : Nat) (s : State) : Ctl :=
  if wIMM w % 2 = 1 then
    if s.strmOff e then .fault 10 else .go (pc + 1) true (s.strmStart e)
  else .go (pc + 1) true (s.strmStop e)

/-- The permit of a running engine is worth `3 + ceil(r / 16)` units (R129, R130). -/
def State.holdEngine (s : State) (e rate : Nat) : State :=
  let g := engDie e
  let x := s.gov g
  s.setGov g { x with
    held := x.held.filter (fun p => !(p.is 1 [e] || p.is 2 [e])) ++ [{ op := 1, who := [e], units := 3 + ceilDiv rate 16, t := s.now }] }

def ctlRate (e pc w : Nat) (s : State) : Ctl :=
  let rt := wIMM w % 2 ^ 7
  let s := if ceilDiv rt 16 = ceilDiv (s.strmRate e) 16 then s else s.holdEngine e rt
  let s := s.wr .ENG_STRM_CTL_RATE [e] rt
  .go (pc + 1) true (if rt = 0 then s.strmStop e else s)

def ctlEvt (e pc w : Nat) (s : State) : Ctl :=
  let n := engDie e
  let rep : Report :=
    { code := .ofRule 0x0200 108, sev := 0, die := n, block := Reg.blockNo .ENG_CTL [e], time := s.localNs,
      valid := s.on .SX_STAT_VALID [], arg := .known (wIMM w % 2 ^ 16 + e * 2 ^ 16 + pc * 2 ^ 32) }
  .go (pc + 1) true (s.push n rep)

def ctlHalt (e pc w : Nat) (s : State) : Ctl := .halt (pc + 1) (s.wr .ENG_STATUS_END_CODE [e] (wIMM w % 2 ^ 16))

def ctlNext (_e pc _w : Nat) (s : State) : Ctl := .go (pc + 1) true s

/-- The control operation of a word (R108). -/
def ctlOf (e pc w : Nat) (s : State) : Ctl :=
  match wOP w with
  | 1 => ctlLoop e pc w s
  | 2 => ctlJmp e pc w s
  | 3 => ctlBr e pc w s
  | 4 => ctlCall e pc w s
  | 5 => ctlRet e pc w s
  | 10 => ctlSetl e pc w s
  | 11 => ctlStrm e pc w s
  | 12 => ctlRate e pc w s
  | 13 => ctlEvt e pc w s
  | 14 => ctlHalt e pc w s
  | _ => ctlNext e pc w s

/-- The loop-end rule (R110) at address `pc`, for the entries of the loop stack from the top: new state and next PC. -/
def State.loopEnd (s : State) (e pc : Nat) : List (Nat × Nat × Nat) → State × Nat
  | [] => (s.setEngine e { s.engine e with lstack := [] }, pc + 1)
  | (c, start, end_) :: r =>
    if end_ = pc then
      let s := s.wr .ENG_LCNT_COUNT [e, c] (s.rd .ENG_LCNT_COUNT [e, c] + 2 ^ 32 - 1)
      if s.rd .ENG_LCNT_COUNT [e, c] ≠ 0 then (s.setEngine e { s.engine e with lstack := (c, start, end_) :: r }, start)
      else s.loopEnd e pc r
    else (s.setEngine e { s.engine e with lstack := (c, start, end_) :: r }, pc + 1)

/-! ## Items 2 to 6 of a step (R120) -/

/-- Does the straight path refuse vectors (R148)? -/
def State.laneCfgBad (s : State) (e : Nat) : Bool :=
  let n := s.rd .FC_LANES_COUNT [e]
  let d := engDie e
  let lane (j : Nat) := laneGlobal d (s.rd (match j with
    | 0 => .FC_LANES_LANE0 | 1 => .FC_LANES_LANE1 | 2 => .FC_LANES_LANE2 | _ => .FC_LANES_LANE3) [e])
  let rate (l : Nat) := (s.rd .CL_BND_CTL_MBPS [l / 8], s.rd .CL_CTL_DIV [l])
  let kbps (l : Nat) := (rate l).1 * 1000 / 2 ^ (rate l).2
  n = 0 || (List.range n).any (fun j =>
    let l := lane j
    kbps l != kbps (lane 0) || s.rd .CL_CTL_USE [l] == 1 || s.rd .CL_CTL_USE [l] == 2 || !s.on .CL_CTL_EN [l]
      || s.rd .CL_BND_STAT_STATE [l / 8] != 4)

/-- The step stalls at an item; `ENG_STALL` counts it once (R132). -/
def State.engStall (s : State) (e item : Nat) : State :=
  let r := s.engine e
  let s := if r.counted then s else s.bump .ENG_STALL_COUNT [e]
  (s.setEngine e { r with stall := item, counted := true, waited := true, wait := .none }).wr .ENG_STATUS_STATE [e] 3

/-- The expectation that a step emits (R118, R152). -/
def State.stepExpn (s : State) (e w pc d : Nat) (ix : Nat) : Expn :=
  { ix := ix, e := d, m := s.stepMask e w, aw := s.addrWord e w, pc := pc, cmd := wCMD w,
    x := s.gen e 0, y := s.gen e 1, z := s.gen e 2, l := s.gen e 3, headT := s.now,
    res := if s.dest e = 0 then some { unchecked := true, time := s.localNs } else none }

/-- Item 3: the vector enters the output FIFO and the expectation the compare queue (R120, R145). `sw` is the stream word. -/
def State.stepEmit (s : State) (e w pc sw : Nat) : State :=
  let r := s.engine e
  let kind := wKIND w
  let d := s.stepData e w r.lfsr sw
  let ix := r.nextIx
  let hasE := decide (2 ≤ kind)
  let hasV := kind = 1 || kind = 2
  let outs := if hasV then [{ v := some (s.stepVector e w d), ix := if hasE then some ix else none : OutV }]
    else if hasE && s.dest e == 2 then [{ v := none, ix := some ix : OutV }] else []
  let exps := if hasE then [s.stepExpn e w pc d ix] else []
  let used := kind != 0 && wDSRC w == 2
  let pos := s.rd .ENG_STRM_POS_POS [e]
  let s := s.setEngine e { r with
    out := r.out ++ outs, cq := r.cq ++ exps, nextIx := if hasE then ix + 1 else ix,
    firstVecT := if r.firstVecT.isNone && !outs.isEmpty then some s.localNs else r.firstVecT,
    buf := if used then r.buf.filter (fun x => x.n ≠ pos) else r.buf }
  if used then
    (s.wr .ENG_STRM_POS_POS [e] (pos + 1)).wr .ENG_STRM_CTL_ENDED [e] (if pos + 1 = s.rd .ENG_STRM_LEN_LEN [e] then 1 else 0)
  else s

/-- Is there room for what a step emits (item 3 of R120, R148, R150)? Under `DEST` 2 the slot of a step of `KIND` 3 is an entry
of the output FIFO like a vector's, so such a step waits while the FIFO is full (DEDUCED, log entry 116). -/
def State.stepRoom (s : State) (e w : Nat) : Bool :=
  let r := s.engine e
  let kind := wKIND w
  let needO := kind = 1 || kind = 2 || (kind = 3 && s.dest e == 2)
  (!needO || (decide (r.out.length < 32) && !(s.dest e == 2 && s.laneCfgBad e))) &&
    (!(decide (2 ≤ kind)) || decide (r.cq.length < 1024))

/-- Item 5: generators, carries and LFSR, all from the values `g` formed at the start of the step. -/
def State.stepGens (s : State) (e w : Nat) (g : List (Nat × Bool)) : State :=
  let at_ (i : Nat) := g.getD i (0, false)
  let r := s.engine e
  let s := (List.range 4).foldl (fun s i => s.wr .ENG_GEN_V_VALUE [e, i] (at_ i).1) s
  s.setEngine e { r with cx := (at_ 0).2, cy := (at_ 1).2, cz := (at_ 2).2, cl := (at_ 3).2,
                         lfsr := if wLSTEP w then lfsrStep r.lfsr else r.lfsr }

/-- The end of a step: PC, the timer call (R112), the step count, and the state the engine is left in. -/
def State.stepEnd (s : State) (e w next : Nat) (halt : Bool) : State :=
  let r := s.engine e
  let call := wY w && r.tmrPend && !s.on .ENG_STATUS_IN_HANDLER [e] && !halt
  let single := r.single
  let r := { r with steps := (r.steps + 1) % 2 ^ 64, wait := .none, waited := false, stall := 0, counted := false, single := false,
                    kept := none, stepT := s.now }
  let r := if call then { r with tret := next, tloop := r.lstack.length, tcall := r.cstack.length, tmrPend := false } else r
  let s := s.setEngine e r
  let s := if call then s.wr .ENG_STATUS_IN_HANDLER [e] 1 else s
  let s := s.wr .ENG_PC_CUR [e] (if call then s.rd .ENG_TMR_VEC_VEC [e] else next)
  if halt then (s.engReturn e).wr .ENG_STATUS_STATE [e] 6
  else if single then (s.wr .ENG_STATUS_STATE [e] 5).tmrStop e
  else s.wr .ENG_STATUS_STATE [e] 3

/-- Items 3 to 6 once the step can go on; a fault leaves none of their effects (R120, R133). A HALT has the next PC of the step
after it, so a HALT at address 16,383 faults with PC_RANGE like any other step there (DEDUCED from R110, log entry 117). -/
def State.stepCommit (s : State) (e w pc sw : Nat) : State :=
  let g := s.genStep e w
  let s1 := s.stepEmit e w pc sw
  match ctlOf e pc w s1 with
  | .fault c => s.engFault e c 0 pc
  | .go next seq s2 =>
    let s3 := s2.stepGens e w g
    let (s4, n) := if seq then s3.loopEnd e pc (s3.engine e).lstack else (s3, next)
    if 16384 ≤ n then s.engFault e 2 0 pc else s4.stepEnd e w n false
  | .halt _ s2 =>
    let s3 := s2.stepGens e w g
    let (s4, n) := s3.loopEnd e pc (s3.engine e).lstack
    if 16384 ≤ n then s.engFault e 2 0 pc else s4.stepEnd e w n true

/-- Item 2 and the checks before item 3 (R120, R126, R128, R133), then the rest of the step. A stream step faults with
STREAM_OFF in a run in which no stream was ever started, as after a stop (DEDUCED, log entry 118). -/
def State.stepItems (s : State) (e w pc : Nat) : State :=
  let r := s.engine e
  let pos := s.rd .ENG_STRM_POS_POS [e]
  let rest (sw : Nat) : State :=
    if (wKIND w = 1 ∨ wKIND w = 2) ∧ s.dest e = 0 then s.engFault e 9 0 pc
    else if s.stepRoom e w then s.stepCommit e w pc sw
    else
      let s := if s.dest e = 2 && s.laneCfgBad e && !r.cfgSaid then
          (s.setEngine e { r with cfgSaid := true }).raise .FC_CTL [e] 148 0 [e]
        else s
      s.engStall e 3
  if wKIND w ≠ 0 ∧ wDSRC w = 2 then
    if s.strmOff e || !r.strmOn then s.engFault e 10 0 pc
    else if s.rd .ENG_STRM_LEN_LEN [e] ≤ pos then s.engFault e 11 0 pc
    else match r.buf.find? (fun x => x.n = pos) with
      | none => s.engStall e 2
      | some x => if x.status ≠ 0 then s.engFault e 12 x.status pc else rest x.data
  else rest 0

/-- The fill wait of the first stream step, the last wait of item 1 (R120, R127); then the items that follow. -/
def State.stepFill (s : State) (e w pc : Nat) : State :=
  let r := s.engine e
  if wKIND w ≠ 0 ∧ wDSRC w = 2 ∧ r.strmOn ∧ r.strmFirst ∧ s.strmOff e = false then
    if s.filled e then (s.setEngine e { r with strmFirst := false, wait := .none, waited := true }).stepItems e w pc
    else (s.setEngine e { r with wait := .fill, waited := true }).wr .ENG_STATUS_STATE [e] 4
  else (s.setEngine e { r with wait := .none, waited := true }).stepItems e w pc

/-- The step waits (item 1 of R120): `STATE` 4. -/
def State.engWait (s : State) (e : Nat) (k : WaitK) : State :=
  (s.setEngine e { s.engine e with wait := k }).wr .ENG_STATUS_STATE [e] 4

/-- The wait of the control operation is over: the step continues in `STATE` 3. -/
def State.engWaitOver (s : State) (e : Nat) : State :=
  let pc := s.rd .ENG_PC_CUR [e]
  (s.wr .ENG_STATUS_STATE [e] 3).stepFill e (s.instrWord e pc) pc

/-- Has everything an earlier step emitted been delivered, and, unless `vec`, resolved (R122)? -/
def State.drained (s : State) (e : Nat) (vec : Bool) : Bool :=
  let r := s.engine e
  (r.out.all (fun o => o.v.isNone)) && decide (r.sendEnd ≤ s.now) && (vec || r.cq.isEmpty)

/-- An operation of an engine goes to the hub, or is held while the hub is in warm reset (R123). -/
def State.fixIssue (s : State) (f kind e id : Nat) : State :=
  if s.hubDown then s else { s with fixq := s.fixq ++ [{ f := f, kind := kind, eng := some e, id := id }] }

/-- A set or a clear of a SYNC step, under a new number. -/
def State.syncSet (s : State) (e f : Nat) (setIt : Bool) : State :=
  let id := (s.engine e).opN + 1
  ((s.setEngine e { s.engine e with opN := id }).fixIssue f (if setIt then 1 else 0) e id).engWait e (.syncOp f setIt (!s.hubDown) id)

/-- An arrival of a SYNC step, under a new number. -/
def State.syncArrive (s : State) (e f : Nat) : State :=
  let id := (s.engine e).opN + 1
  ((s.setEngine e { s.engine e with opN := id }).fixIssue f 2 e id).engWait e
    (.syncArr { f := f, id := id, issued := !s.hubDown })

/-- Item 1 of a SYNC step (R123). -/
def State.syncBegin (s : State) (e w pc : Nat) : State :=
  let f := wIMM w % 16
  let r := s.engine e
  match bitsOf (wIMM w) 4 3 with
  | 0 => if r.flags.testBit f then s.stepFill e w pc else s.engWait e (.syncFlag f true)
  | 1 => if r.flags.testBit f then s.engWait e (.syncFlag f false) else s.stepFill e w pc
  | 2 => s.syncSet e f true
  | 3 => s.syncSet e f false
  | _ => match r.kept with
    | some a => if a.f = f then (if a.done then s.stepFill e w pc else s.engWait e (.syncArr a)) else s.syncArrive e f
    | none => s.syncArrive e f

/-- A step begins: the legality check (R107), the condition of a BR (R109), the wait of its control operation (R120). -/
def State.stepBegin (s : State) (e : Nat) : State :=
  let pc := s.rd .ENG_PC_CUR [e]
  let w := s.instrWord e pc
  if illegalWord w then s.engFault e 1 0 pc
  else
    let s := s.setEngine e { s.engine e with stepT := s.now, brOk := wOP w == 3 && s.brCond e w, counted := false, waited := false }
    match wOP w with
    | 6 => if wIMM w = 0 then s.stepFill e w pc else s.engWait e (.wait (s.now + wIMM w))
    | 7 => if s.drained e (wIMM w % 2 = 1) then s.stepFill e w pc else s.engWait e (.drain (wIMM w % 2 = 1))
    | 8 => s.syncBegin e w pc
    | 9 => if s.trigger e ≤ s.localNs then (s.wr .ENG_STATUS_TLATE [e] 1).stepFill e w pc else s.engWait e .waitt
    | 12 =>
      let u := ceilDiv (wIMM w % 2 ^ 7) 16 - ceilDiv (s.strmRate e) 16
      if u = 0 then s.stepFill e w pc else (s.engWait e (.rate u)).request (engDie e) 2 u [e] []
    | _ => s.stepFill e w pc

/-- Is engine `e` at the start of a step whose word holds operation `op`, or a reserved operation, which no row of the table
names and which faults (R107) whatever row says that the engine goes on (DESIGN CHOICE, log entry 111)? -/
def State.atStep (s : State) (e op : Nat) : Bool :=
  let o := wOP (s.instrWord e (s.rd .ENG_PC_CUR [e]))
  s.estate e == 3 && (s.engine e).stall == 0 && !(s.engine e).waited && (o == op || decide (15 ≤ o))

/-- Engine `e` executes the step at its PC if the word there holds operation `op`. -/
def State.runOp (s : State) (e op : Nat) : State := if s.atStep e op then s.stepBegin e else s

/-- ENG_NOP (R108). -/
def execEngNop (e : Fin 96) (s : State) : Ans := .next (s.runOp e 0)
/-- LOOP (R110). -/
def execLoop (e : Fin 96) (s : State) : Ans := .next (s.runOp e 1)
/-- JMP (R108). -/
def execJmp (e : Fin 96) (s : State) : Ans := .next (s.runOp e 2)
/-- BR (R109). -/
def execBr (e : Fin 96) (s : State) : Ans := .next (s.runOp e 3)
/-- CALL (R111). -/
def execCall (e : Fin 96) (s : State) : Ans := .next (s.runOp e 4)
/-- RET (R111, R112). -/
def execRet (e : Fin 96) (s : State) : Ans := .next (s.runOp e 5)
/-- WAIT (R121). -/
def execWait (e : Fin 96) (s : State) : Ans := .next (s.runOp e 6)
/-- DRAIN (R122). -/
def execDrain (e : Fin 96) (s : State) : Ans := .next (s.runOp e 7)
/-- SYNC (R123). -/
def execSync (e : Fin 96) (s : State) : Ans := .next (s.runOp e 8)
/-- WAITT (R125). -/
def execWaitt (e : Fin 96) (s : State) : Ans := .next (s.runOp e 9)
/-- SETL (R108). -/
def execSetl (e : Fin 96) (s : State) : Ans := .next (s.runOp e 10)
/-- STRM (R126). -/
def execStrm (e : Fin 96) (s : State) : Ans := .next (s.runOp e 11)
/-- RATE (R130). -/
def execRate (e : Fin 96) (s : State) : Ans := .next (s.runOp e 12)
/-- EVT (R108). -/
def execEvt (e : Fin 96) (s : State) : Ans := .next (s.runOp e 13)
/-- HALT (R108). -/
def execHalt (e : Fin 96) (s : State) : Ans := .next (s.runOp e 14)

/-- ENG_CMD_STEP (R103): exactly one step of a paused engine. -/
def execEngCmdStep (w : Writer) (e : Fin 96) (s : State) : Ans :=
  .next (s.engCmd w e 6 (fun s =>
    let s := (s.tmrRun e).wr .ENG_STATUS_STATE [e] 3
    (s.setEngine e { s.engine e with single := true }).stepBegin e) [5])

/-! ## Ends of waits and stalls -/

/-- WAIT_END (R121). -/
def execWaitEnd (e : Fin 96) (s : State) : Ans :=
  match (s.engine e).wait with
  | .wait t => if s.estate e = 4 then .next ((s.lapseTo t).engWaitOver e) else .next s
  | _ => .next s

/-- DRAIN_DONE (R122). -/
def execDrainDone (e : Fin 96) (s : State) : Ans :=
  match (s.engine e).wait with
  | .drain vec =>
    let s' := if (s.engine e).out.all (fun o => o.v.isNone) then s.lapseTo (s.engine e).sendEnd else s
    if s.estate e = 4 ∧ s'.drained e vec then .next (s'.engWaitOver e) else .next s
  | _ => .next s

/-- WAITT_TRIGGER (R125). -/
def execWaittTrigger (e : Fin 96) (s : State) : Ans :=
  match (s.engine e).wait with
  | .waitt => if s.estate e = 4 then .next ((s.lapseToLocal (s.trigger e)).engWaitOver e) else .next s
  | _ => .next s

/-- RATE_PERMIT_GRANT (R130). -/
def execRatePermitGrant (e : Fin 96) (s : State) : Ans :=
  match (s.engine e).wait with
  | .rate _ =>
    if s.estate e = 4 then
      match s.takeGrant (engDie e) 2 [e.val] with
      | some s => .next (s.engWaitOver e)
      | none => .next s
    else .next s
  | _ => .next s

/-- ENG_PERMIT_TIMEOUT (R129, R130): of START or ARM, or of a rise of the rate. -/
def execEngPermitTimeout (e : Fin 96) (s : State) : Ans :=
  let pc := s.rd .ENG_PC_CUR [e]
  if s.estate e = 1 then
    match s.takeTimeout (engDie e) 1 [e.val] with
    | some s => .next (s.engFault e 13 0 pc)
    | none => .next s
  else match (s.engine e).wait with
    | .rate _ =>
      match s.takeTimeout (engDie e) 2 [e.val] with
      | some s => .next (s.engFault e 13 0 pc)
      | none => .next s
    | _ => .next s

/-- ENG_TIMER_EXPIRY (R112). -/
def execEngTimerExpiry (e : Fin 96) (s : State) : Ans :=
  let r := s.engine e
  if r.tmrDue ≠ 0 ∧ 3 ≤ s.estate e ∧ s.estate e ≤ 5 then
    let s := s.lapseTo r.tmrDue
    let r' := { r with tmrDue := r.tmrDue + s.rd .ENG_TMR_PERIOD_PERIOD [e] }
    if r.tmrPend || s.on .ENG_STATUS_IN_HANDLER [e] then
      .next (((s.setEngine e r').wr .ENG_STATUS_TMR_OVR [e] 1).raise .ENG_CTL [e] 112 0 [e])
    else .next (s.setEngine e { r' with tmrPend := true })
  else .next s

/-- ENG_STEP_UNSTALL (R120, R132): the stalled step continues if it can. -/
def execEngStepUnstall (e : Fin 96) (s : State) : Ans :=
  let r := s.engine e
  if s.estate e = 3 ∧ r.stall ≠ 0 then
    let pc := s.rd .ENG_PC_CUR [e]
    .next (s.stepItems e (s.instrWord e pc) pc)
  else .next s

/-! ## Streaming (R127, R128) -/

/-- STREAM_FILL_DONE (R127). -/
def execStreamFillDone (e : Fin 96) (s : State) : Ans :=
  match (s.engine e).wait with
  | .fill => if s.estate e = 4 ∧ s.filled e then .next (s.engWaitOver e) else .next s
  | _ => .next s

/-- STREAM_READ_ISSUE (R127): at most 1,024 reads outstanding, room in the buffer, words left, and no 1 µs window above
`RATE` GB/s. -/
def execStreamReadIssue (e : Fin 96) (s : State) : Ans :=
  let r := s.engine e
  let rate := s.strmRate e
  if r.strmOn ∧ 2 ≤ s.estate e ∧ s.estate e ≤ 5 ∧ r.issued < s.rd .ENG_STRM_LEN_LEN [e] ∧ r.outst.length < 1024 ∧
      r.outst.length + r.buf.length < 8192 ∧ 0 < rate then
    let most := rate * 1000 / 64
    let s := if r.issT.length < most then s else s.lapseTo (r.issT.getD (most - 1) 0 + 1000)
    let recent := r.issT.filter (fun t => s.now < t + 1000)
    .next (s.setEngine e { r with issued := r.issued + 1, outst := r.outst ++ [r.issued], issT := s.now :: recent })
  else .next s

/-- The address of stream word `n` (R126). -/
def State.strmAddr (s : State) (e n : Nat) : Nat :=
  s.rd .ENG_STRM_ADDR_LO_ADDR [e] * 64 + s.rd .ENG_STRM_ADDR_HI_ADDR [e] * 2 ^ 32 + 64 * n

/-- STREAM_READ_COMPLETE (R127, R128): the response of the read of stream word `n` arrives; `data` and `status` are those
of a target outside the device's own memories. -/
def execStreamReadComplete (e : Fin 96) (n : Nat) (data : BitVec 512) (status : Fin 4) (s : State) : Ans :=
  if (s.engine e).outst.contains n then
    let (d, c, s) := s.gRead (engMst e) (s.strmAddr e n) (data.toNat, status)
    let r := s.engine e
    .next (s.setEngine e { r with outst := r.outst.filter (· ≠ n), buf := r.buf ++ [{ n := n, data := d, status := c }] })
  else .next s

/-! ## Fix points (R123, R124) -/

/-- The quorum in force; reserved values act as 0. -/
def State.quorum (s : State) (f : Nat) : Nat := let q := s.rd .FIX_CFG_QUORUM [f]; if q ≤ 96 then q else 0

/-- The hub broadcasts the state of a fix point after operation `o`. -/
def State.bcast (s : State) (o : FixOp) (rebase : Bool) : State :=
  { s with bcasts := s.bcasts ++ [{ f := o.f, flag := s.on .FIX_STAT_FLAG [o.f], gen := s.on .FIX_STAT_GEN [o.f],
                                    eng := o.eng, kind := o.kind, id := o.id, rebase := rebase }] }

/-- The arrival of engine `e` with number `id`, whether its step waits or is paused (R103). -/
def State.mapArrival (s : State) (e : Nat) (k : Arrival → Arrival) : State :=
  let r := s.engine e
  s.setEngine e { r with
    wait := match r.wait with
      | .syncArr a => .syncArr (k a)
      | w => w
    kept := r.kept.map k }

/-- The hub counts arrival `id` of engine `e`: the generation in force, and where its broadcast stands. -/
def State.arrCounted (s : State) (e id : Nat) (g : Bool) : State :=
  s.mapArrival e fun a => if a.id = id then { a with cnt := some (g, s.bcasts.length) } else a

/-- The hub refuses an arrival (R123): the arriving step faults with SYNC_OFF. Where PAUSE has abandoned that step meanwhile,
the arrival is forgotten and made again when the step executes again (DESIGN CHOICE, log entry 119). -/
def State.arrRefused (s : State) (e id : Nat) : State :=
  let r := s.engine e
  match r.wait with
  | .syncArr a => if a.id = id ∧ s.estate e = 4 then s.engFault e 15 0 (s.rd .ENG_PC_CUR [e]) else s
  | _ => s.setEngine e { r with kept := r.kept.filter (fun a => a.id ≠ id) }

/-- The hub applies one operation and broadcasts it (R123). -/
def State.fixApply (s : State) (o : FixOp) : State :=
  match o.kind with
  | 0 => (s.wr .FIX_STAT_FLAG [o.f] 0).bcast o false
  | 1 => (s.wr .FIX_STAT_FLAG [o.f] 1).bcast o false
  | _ =>
    let e := o.eng.getD 0
    if s.quorum o.f = 0 then s.arrRefused e o.id
    else
      let s := s.arrCounted e o.id (s.on .FIX_STAT_GEN [o.f])
      let c := s.rd .FIX_STAT_COUNT [o.f] + 1
      let s := if s.quorum o.f ≤ c then
          ((s.wr .FIX_STAT_COUNT [o.f] 0).wr .FIX_STAT_GEN [o.f] (s.rd .FIX_STAT_GEN [o.f] + 1)).wr .FIX_STAT_FLAG [o.f] 1
        else s.wr .FIX_STAT_COUNT [o.f] c
      s.bcast o false

/-- FIX_POINT_APPLY (R123, R124): the first `n` waiting operations fall in one slot of 1 ns, and with them those that one
write has brought together with the last of them; clears first, then sets, then arrivals. -/
def execFixPointApply (n : Nat) (s : State) : Ans :=
  if s.hubDown then .next s
  else
    let n := n + ((s.fixq.drop n).takeWhile (·.tied)).length
    let ops := s.fixq.take n
    let ordered := ops.filter (·.kind = 0) ++ ops.filter (·.kind = 1) ++ ops.filter (fun o => decide (2 ≤ o.kind))
    .next (ordered.foldl State.fixApply ({ s with fixq := s.fixq.drop n }.lapse 1))

/-- Put bit `i` of a mask. -/
def putBit (m i : Nat) (b : Bool) : Nat := (if m.testBit i then m - 2 ^ i else m) + (if b then 2 ^ i else 0)

/-- Does broadcast `b` complete the wait of engine `e` (R123)? -/
def bcastEnds (e : Nat) (k : WaitK) (b : Bcast) : Bool :=
  match k with
  | .syncFlag f want => b.f == f && b.flag == want
  | .syncOp f _ true id => b.f == f && b.eng == some e && b.id == id && !b.rebase
  | _ => false

/-- Does broadcast number `n` complete the barrier of an arrival (R123): a generation other than the one in force when the
hub counted the arrival, seen from the arrival's own broadcast on? -/
def Arrival.completes (a : Arrival) (n : Nat) (b : Bcast) : Bool :=
  match a.cnt with
  | some (g, m) => b.f == a.f && b.gen != g && decide (m ≤ n) && !b.rebase
  | none => false

/-- Is the wait that of an arrival whose barrier is complete? -/
def arrDone (k : WaitK) : Bool :=
  match k with
  | .syncArr a => a.done
  | _ => false

/-- Engine `e` sees the next broadcast: its copies follow, and its SYNC step completes if the broadcast ends the wait. -/
def State.seeOne (s : State) (e : Nat) : State :=
  let r := s.engine e
  match s.bcasts[r.seen]? with
  | none => s
  | some b =>
    let s := s.mapArrival e fun a => { a with done := a.done || a.completes r.seen b }
    let r := s.engine e
    let done := s.estate e == 4 && (bcastEnds e r.wait b || arrDone r.wait)
    let s := s.setEngine e { r with seen := r.seen + 1, flags := putBit r.flags b.f b.flag, gens := putBit r.gens b.f b.gen }
    if done then s.engWaitOver e else s

/-- SYNC_BROADCAST_SEEN (R123). -/
def execSyncBroadcastSeen (e : Fin 96) (s : State) : Ans := .next (s.seeOne e)

/-- A host operation on a fix point joins those waiting at the hub (R124). -/
def State.fixHost (s : State) (f kind : Nat) : State := { s with fixq := s.fixq ++ [{ f := f, kind := kind, eng := none }] }

/-- A write of `SET` and `CLR` together: the clear and the set fall in one slot, and the flag ends set (R124). -/
def State.fixHostBoth (s : State) (f : Nat) : State :=
  { s with fixq := s.fixq ++ [{ f := f, kind := 0, eng := none }, { f := f, kind := 1, eng := none, tied := true }] }

/-- FIX_SET (R124). -/
def execFixSet (w : Writer) (f : Fin 16) (s : State) : Ans := .next (s.reach w .FIX_STAT [f] 2 (·.fixHost f 1))

/-- FIX_CLR (R124). -/
def execFixClr (w : Writer) (f : Fin 16) (s : State) : Ans := .next (s.reach w .FIX_STAT [f] 4 (·.fixHost f 0))

/-- FIX_CFG_WRITE (R124): any write sets `COUNT` to 0; a reserved value is logged. -/
def execFixCfgWrite (w : Writer) (f : Fin 16) (q : BitVec 7) (s : State) : Ans :=
  .next (s.reach w .FIX_CFG [f] q.toNat fun s =>
    let s := (s.wr .FIX_CFG_QUORUM [f] q.toNat).wr .FIX_STAT_COUNT [f] 0
    if 96 < q.toNat then s.raise .FIX_CFG [f] 124 2 [f, q.toNat] else s)

/-- What a re-base does to one engine (R123, R417): unseen broadcasts first, then the copies, then the operations held or
discarded are issued again. -/
def State.rebaseEngine (s : State) (before : Nat) (e : Nat) : State :=
  let s := (List.range (before - (s.engine e).seen)).foldl (fun s _ => s.seeOne e) s
  let s := s.setEngine e { s.engine e with seen := s.bcasts.length, flags := 0, gens := 0 }
  let r := s.engine e
  if s.estate e = 4 then
    match r.wait with
    | .syncFlag _ false => s.engWaitOver e
    | .syncOp f b _ id => (s.fixIssue f (if b then 1 else 0) e id).setEngine e { r with wait := .syncOp f b true id }
    | .syncArr a => match a.cnt with
      | none => (s.fixIssue a.f 2 e a.id).setEngine e { r with wait := .syncArr { a with issued := true } }
      | some _ => s.setEngine e { r with wait := .syncArr { a with cnt := some (false, s.bcasts.length) } }
    | _ => s
  else match r.kept with
    | some a => match a.cnt with
      | none => s.setEngine e { r with kept := none }
      | some _ => s.setEngine e { r with kept := some { a with cnt := some (false, s.bcasts.length) } }
    | none => s

/-- FIX_REBASE (R123, R417): the hub broadcasts the cleared state after its warm reset. -/
def execFixRebase (s : State) : Ans :=
  if s.rebaseDue then
    let before := s.bcasts.length
    let s := { s with rebaseDue := false, hubDown := false }
    let s := (List.range 16).foldl (fun s f => s.bcast { f := f, kind := 0, eng := none } true) s
    .next ((List.range 96).foldl (fun s e => s.rebaseEngine before e) s)
  else .next s

end Sys2Proof.Machine
end

