-- ==== Sys2Proof/Machine/FailCapture.lean ====
section
/-! DEFINITION. Compare, fail capture and the straight path (R140 to R160). -/

namespace Sys2Proof.Machine

/-! ## The straight path (R145 to R148) -/

/-- The `LANEn` fields. -/
def laneFld (j : Nat) : Fld :=
  match j with
  | 0 => .FC_LANES_LANE0
  | 1 => .FC_LANES_LANE1
  | 2 => .FC_LANES_LANE2
  | _ => .FC_LANES_LANE3

/-- Lanes in use (0, 1, 2 or 4), and the global number of the lane of slice `j`. -/
def State.fcCount (s : State) (e : Nat) : Nat := s.rd .FC_LANES_COUNT [e]
def State.fcLane (s : State) (e j : Nat) : Nat := laneGlobal (engDie e) (s.rd (laneFld j) [e])

/-- Bits of a slice. -/
def State.sliceW (s : State) (e : Nat) : Nat := if s.fcCount e = 0 then 512 else 512 / s.fcCount e

/-- The rate of a channel lane in kb/s: that of its bundle, divided (R287). -/
def State.laneKbps (s : State) (l : Nat) : Nat := s.rd .CL_BND_CTL_MBPS [l / 8] * 1000 / 2 ^ s.rd .CL_CTL_DIV [l]

/-- The elapsed time at which slot period `n` begins: 512 / (lanes × rate) ns each (R148). -/
def State.slotT (s : State) (e n : Nat) : Nat :=
  (s.engine e).launchT + n * 512000000 / max 1 (s.fcCount e * s.laneKbps (s.fcLane e 0))

/-- What an idle slot carries (R157): zeros, ones, or on each lane the last bit it sent. -/
def State.idleBits (s : State) (e : Nat) : Nat :=
  let w := s.sliceW e
  match s.rd .FC_CTL_IDLE [e] with
  | 1 => ones512
  | 2 => (List.range (s.fcCount e)).foldl (fun x j =>
      if (s.engine e).txBits.testBit (w * j + w - 1) then x + (2 ^ w - 1) * 2 ^ (w * j) else x) 0
  | _ => 0

/-- What the lanes of a straight path make of a slot: an injected error inverts the first bit of the word of its lane (R301), and
`TXINV` the whole word (R299). -/
def State.injected (s : State) (e bits : Nat) : Nat :=
  let w := s.sliceW e
  (List.range (s.fcCount e)).foldl (fun x j =>
    let l := s.fcLane e j
    let x := if (smGet s.lane [l] {}).inject then x ^^^ 2 ^ (w * j) else x
    if s.on .CL_CTL_TXINV [l] then x ^^^ (2 ^ w - 1) * 2 ^ (w * j) else x) bits

/-- Receive words of a straight path with the inversions that bring-up found (R295). -/
def State.rxCorrected (s : State) (e bits : Nat) : Nat :=
  let w := s.sliceW e
  (List.range (s.fcCount e)).foldl (fun x j =>
    if s.on .CL_STAT_RXINV [s.fcLane e j] then x ^^^ (2 ^ w - 1) * 2 ^ (w * j) else x) bits

/-- The injections of a word have been made. -/
def State.injectDone (s : State) (e : Nat) : State :=
  (List.range (s.fcCount e)).foldl (fun s j =>
    let l := s.fcLane e j
    { s with lane := smPut s.lane [l] { (smGet s.lane [l] {}) with inject := false } {} }) s

/-- The slot period that begins now is filled (R145): the head of the output FIFO, or idle. The idle slot of a step of `KIND`
3 belongs to its expectation and is no gap. -/
def State.txSlot (s : State) (e : Nat) : State :=
  let r := s.engine e
  let n := r.slot
  let go (s : State) (r : EngRt) (bits : Nat) : State :=
    let out := s.injected e bits
    let s := s.setEngine e { r with slot := n + 1, txBits := bits }
    (s.injectDone e).emit (.slot e n out)
  match r.out with
  | [] => (go s r (s.idleBits e)).bump .FC_GAP_CNT_COUNT [e]
  | o :: rest =>
    let r := { r with
      out := rest
      cq := match o.ix with
        | some ix => r.cq.map (fun x => if x.ix = ix then { x with slot := some n } else x)
        | none => r.cq }
    match o.v with
    | some v => go s { r with sendEnd := s.slotT e (n + 1) } v
    | none => go s r (s.idleBits e)

/-- TX_SLOT (R145): the next slot period after the launch begins. -/
def execTxSlot (e : Fin 96) (s : State) : Ans :=
  if (s.engine e).launched ∧ s.fcCount e ≠ 0 then
    .next ((s.lapseTo (s.slotT e (s.engine e).slot)).txSlot e)
  else .next s

/-- The first instant of the word grid at or after now, for words of `w` bits at `kbps` (R289): the grid is anchored at the
last step and counted on the elapsed count. -/
def State.wordEdge (s : State) (kbps w : Nat) : Nat :=
  let t := s.anchorT + s.now - s.anchorE
  let n := ceilDiv (t * kbps) (1000000 * w)
  s.anchorE + ceilDiv (n * 1000000 * w) kbps - s.anchorT

/-- Wait for the next word boundary of a straight path whose bundle is on the grid (R147, R289). -/
def State.toWord (s : State) (e : Nat) : State :=
  let l := s.fcLane e 0
  if s.on .CL_BND_STAT_GRID [l / 8] ∧ s.laneKbps l ≠ 0 then s.lapseTo (s.wordEdge (s.laneKbps l) (s.sliceW e)) else s

/-- STRAIGHT_PATH_LAUNCH (R147): slot period 0 begins with the first vector. -/
def execStraightPathLaunch (e : Fin 96) (s : State) : Ans :=
  let r := s.engine e
  match r.firstVecT with
  | none => .next s
  | some t =>
    if s.dest e = 2 ∧ r.launched = false ∧ r.out.isEmpty = false ∧ s.fcCount e ≠ 0 then
      let inst := r.launchRef + max 20 (s.rd .FC_TX_LAUNCH [e])
      let s := if s.on .FC_CTL_TALIGN [e] then
          (if inst < t then s.wr .FC_STATUS_LAUNCH_LATE [e] 1 else s.lapseToLocal inst)
        else s
      let s := (s.toWord e).wr .FC_GAP_CNT_COUNT [e] 0
      .next ((s.setEngine e { s.engine e with launched := true, launchT := s.now, slot := 0, txBits := 0 }).txSlot e)
    else .next s

/-- A lane without signal or lock (R146). -/
def State.rxBad (s : State) (e : Nat) : Bool :=
  (List.range (s.fcCount e)).any (fun j => s.on .CL_STAT_LOS [s.fcLane e j] || s.on .CL_STAT_LOL [s.fcLane e j])

/-- `FC_RX.DELAY`; 961 to 1,023 act as 960. -/
def State.rxDelay (s : State) (e : Nat) : Nat := min 960 (s.rd .FC_RX_DELAY [e])

/-- Attach a resolution to the expectation with index `ix`. -/
def State.attach (s : State) (e ix : Nat) (x : Resolution) : State :=
  let r := s.engine e
  s.setEngine e { r with cq := r.cq.map (fun q => if q.ix = ix then { q with res := some x } else q) }

/-- RX_WORD_COMPARE (R146): the receive words sampled in slot period `n`, in the slice layout of a vector, each as the receiver
that R295 gives its lane sampled it, meet the expectation bound to slot `n` − `DELAY`; without one they are discarded. -/
def execRxWordCompare (e : Fin 96) (n : Nat) (data : BitVec 512) (s : State) : Ans :=
  let r := s.engine e
  let d := s.rxDelay e
  if r.launched ∧ d ≤ n ∧ n - d < r.slot then
    match r.cq.find? (fun x => x.slot = some (n - d) && x.res.isNone) with
    | none => .next s
    | some x =>
      let s := s.lapseTo (s.slotT e n)
      .next (s.attach e x.ix { r := s.rxCorrected e data.toNat, rxBad := s.rxBad e, time := s.localNs })
  else .next s

/-! ## The fabric ports (R149, R150) -/

/-- VP_VECTOR_TAKEN (R149, R150). -/
def execVpVectorTaken (e : Fin 96) (s : State) : Ans :=
  let r := s.engine e
  if s.dest e = 1 ∧ s.vpUp e then
    match r.out with
    | [] => .next s
    | o :: rest =>
      .next ((s.setEngine e { r with out := rest, vseq := (r.vseq + 1) % 2 ^ 32 }).emit (.vector e r.vseq (o.v.getD 0)))
  else .next s

/-- Fail-FIFO capacity (R151). -/
def State.ffFull (s : State) (e : Nat) : Bool := 4096 ≤ (s.engine e).ff.length

/-- The fabric is held while the FIFO is full, under `OVF_POLICY` 1 and `DEST` 1 (R151). -/
def State.ffHolds (s : State) (e : Nat) : Bool := s.ffFull e && s.on .FC_CTL_OVF_POLICY [e] && s.dest e = 1

/-- RP_RESPONSE (R149, R151). -/
def execRpResponse (e : Fin 96) (data : BitVec 512) (skip : Bool) (s : State) : Ans :=
  if s.dest e = 1 ∧ s.vpUp e ∧ s.ffHolds e = false then
    match (s.engine e).cq.find? (fun x => x.res.isNone) with
    | none => .next s
    | some x => .next (s.attach e x.ix { r := data.toNat, unchecked := skip, time := s.localNs })
  else .next s

/-- RESPONSE_TIMEOUT (R149): the head of the compare queue times out. -/
def execResponseTimeout (e : Fin 96) (s : State) : Ans :=
  let t := s.rd .FC_RSP_TO_TIMEOUT [e]
  if s.dest e = 1 ∧ t ≠ 0 then
    match (s.engine e).cq with
    | x :: _ =>
      if x.res.isNone then
        let s := s.lapseTo (x.headT + t * 1000)
        .next (s.attach e x.ix { timeout := true, time := s.localNs })
      else .next s
    | [] => .next s
  else .next s

/-! ## Resolution (R141, R142, R151, R152, R155) -/

/-- F of R142. -/
def failBits (x : Expn) (q : Resolution) : Nat := if q.timeout then x.m else (q.r ^^^ x.e) &&& x.m

/-- Does the expectation fail (R142)? -/
def failsIt (x : Expn) (q : Resolution) : Bool := !q.unchecked && (q.timeout || failBits x q != 0)

/-- Slice q of `SLICES` (R152). -/
def sliceBad (f q : Nat) : Bool := bitsOf f (128 * q) 128 != 0

/-- The lowest set bit; 0 for 0. -/
def firstBit (f : Nat) : Nat := ((List.range 512).find? (fun i => f.testBit i)).getD 0

/-- Width of an index; 17 to 31 act as 0. -/
def bmWidth (w : Nat) : Nat := if w ≤ 16 then w else 0

/-- Add to a tally of the bitmap RAM, which saturates (R155). -/
def State.tally (s : State) (e : Nat) (row : Bool) (ix n : Nat) : State :=
  let off := (if row then 0x80000 else 0xA0000) + 2 * ix
  let v := s.winRead e off 2 + n
  if 0xFFFF < v then (s.winStore e off 2 0xFFFF).wr .FC_STATUS_BM_SAT [e] 1 else s.winStore e off 2 v

/-- Apply or, during a clear, hold a tally (R156). -/
def State.tallyOp (s : State) (e : Nat) (row : Bool) (ix n : Nat) : State :=
  if s.on .FC_STATUS_BM_BUSY [e] then
    let r := s.engine e
    s.setEngine e { r with bmHeld := r.bmHeld ++ [.tally row ix n] }
  else s.tally e row ix n

/-- The tallies of a failing expectation (R155). -/
def State.bitmapUpdate (s : State) (e aw nbits : Nat) : State :=
  if s.on .FC_CTL_BM_EN [e] then
    let n := if s.on .FC_CTL_BM_UNIT [e] then nbits else 1
    let wr := bmWidth (s.rd .FC_BM_ROW_WIDTH [e])
    let wc := bmWidth (s.rd .FC_BM_COL_WIDTH [e])
    let s := if wr = 0 then s else s.tallyOp e true (aw / 2 ^ s.rd .FC_BM_ROW_SHIFT [e] % 2 ^ wr) n
    if wc = 0 then s else s.tallyOp e false (aw / 2 ^ s.rd .FC_BM_COL_SHIFT [e] % 2 ^ wc) n
  else s

/-- The record of a failing expectation enters the FIFO, is dropped, or is suppressed (R151). -/
def State.failRecord (s : State) (e : Nat) (x : Expn) (q : Resolution) (first : Bool) : State :=
  let r := s.engine e
  if s.rd .FC_REC_MAX_MAX [e] ≤ r.recs then s
  else if s.ffFull e then
    ((s.setEngine e { r with dropped := true }).bump .FC_DROP_CNT_COUNT [e]).wr .FC_STATUS_OVF [e] 1
  else
    let rec_ : FailRec :=
      { index := x.ix % 2 ^ 48, engine := e, run := s.rd .FC_RUN_RUN [e], aw := x.aw, pc := x.pc, timeout := q.timeout,
        rxBad := q.rxBad, first := first, droppedBefore := r.dropped, cmd := x.cmd, time := q.time, x := x.x, y := x.y,
        z := x.z, l := x.l, f := failBits x q }
    s.setEngine e { r with ff := r.ff ++ [rec_], recs := r.recs + 1, dropped := false }

/-- The lanes' own compare counts (R301), for lanes with `CHK` 0. -/
def State.laneCounts (s : State) (e : Nat) (x : Expn) (f : Nat) : State :=
  let w := s.sliceW e
  (List.range (s.fcCount e)).foldl (fun s j =>
    let l := s.fcLane e j
    if s.rd .CL_PRBS_CHK [l] = 0 then
      let s := s.bump .CL_ERR_CNT_COUNT [l] (ones (bitsOf f (w * j) w) w)
      let r := smGet s.lane [l] {}
      { s with lane := smPut s.lane [l] { r with bits := min (2 ^ 64 - 1) (r.bits + ones (bitsOf x.m (w * j) w) w) } {} }
    else s) s

/-- The head of the compare queue leaves it; the next becomes the head now. -/
def State.popHead (s : State) (e : Nat) : State :=
  let r := s.engine e
  s.setEngine e { r with
    cmp := min (2 ^ 64 - 1) (r.cmp + 1)
    cq := match r.cq with
      | _ :: y :: rest => { y with headT := s.now } :: rest
      | _ => [] }

/-- Everything the resolution of a failing expectation does beside its record. -/
def State.countFail (s : State) (e : Nat) (x : Expn) (f : Nat) : State :=
  let s := s.bump .FC_FAIL_CNT_COUNT [e]
  let s := (List.range 4).foldl (fun s j => if sliceBad f j then s.bump .FC_SLICE_FAIL_COUNT [e, j] else s) s
  (s.bitmapUpdate e x.aw (ones f 512)).wr .ENG_STATUS_FAIL [e] 1

/-- EXPECTATION_RESOLVE (R141, R142, R151). -/
def execExpectationResolve (e : Fin 96) (s : State) : Ans :=
  match (s.engine e).cq with
  | [] => .next s
  | x :: _ =>
    match x.res with
    | none => .next s
    | some q =>
      if q.unchecked then .next ((s.bump .FC_UNCHK_CNT_COUNT [e.val]).popHead e)
      else
        let f := failBits x q
        if failsIt x q then
          if s.ffHolds e ∧ (s.engine e).recs < s.rd .FC_REC_MAX_MAX [e.val] then .next s
          else
            let first := !(s.engine e).anyFail
            let s := if s.dest e = 2 then s.laneCounts e x f else s
            let s := s.countFail e x f
            let s := s.failRecord e x q first
            .next ((s.setEngine e { s.engine e with anyFail := true }).popHead e)
        else .next ((if s.dest e = 2 then s.laneCounts e x f else s).popHead e)

/-! ## The fail ring (R152 to R154) -/

/-- The bytes of a fail record (R152). -/
def recordBytes (short : Bool) (x : FailRec) : List Byte :=
  let b (c : Bool) := if c then 1 else 0
  let slices := b (sliceBad x.f 0) + 2 * b (sliceBad x.f 1) + 4 * b (sliceBad x.f 2) + 8 * b (sliceBad x.f 3)
  natLe (x.index + x.engine * 2 ^ 48 + x.run * 2 ^ 55 + b short * 2 ^ 63) 8 ++ natLe x.aw 4 ++
  natLe (x.pc % 2 ^ 14 + b x.timeout * 2 ^ 16 + b x.rxBad * 2 ^ 17 + b x.first * 2 ^ 18 + b x.droppedBefore * 2 ^ 19 +
    slices * 2 ^ 20 + x.cmd * 2 ^ 24) 4 ++
  natLe (x.time % 1000000000 + x.time / 1000000000 % 2 ^ 32 * 2 ^ 30) 8 ++
  natLe (ones x.f 512 + firstBit x.f * 2 ^ 10) 4 ++ natLe 0 4 ++
  natLe x.x 4 ++ natLe x.y 4 ++ natLe x.z 4 ++ natLe x.l 4 ++
  (if short then natLe (bitsOf x.f 0 128 ||| bitsOf x.f 128 128 ||| bitsOf x.f 256 128 ||| bitsOf x.f 384 128) 16
   else natLe 0 16 ++ natLe x.f 64)

/-- Log2 of the ring size; reserved values act as 0 (R158). -/
def State.ringLog2 (s : State) (e : Nat) : Nat :=
  let v := s.rd .FC_RING_SIZE_LOG2 [e]
  if 4 ≤ v ∧ v ≤ 24 then v else 0

def State.ringBase (s : State) (e : Nat) : Nat := s.rd .FC_RING_BASE_LO_ADDR [e] * 128 + s.rd .FC_RING_BASE_HI_ADDR [e] * 2 ^ 32

/-- Records in the ring, modulo 2^32. -/
def State.ringLevel (s : State) (e : Nat) : Nat :=
  (s.rd .FC_RING_WR_COUNT [e] + 2 ^ 32 - s.rd .FC_RING_RD_COUNT [e]) % 2 ^ 32

/-- Size of a record in the ring. -/
def State.recSize (s : State) (e : Nat) : Nat := if s.on .FC_CTL_FORMAT [e] then 64 else 128

/-- The address of slot `k` of the ring (R153). -/
def State.ringSlot (s : State) (e k : Nat) : Nat := s.ringBase e + k % 2 ^ s.ringLog2 e * s.recSize e

/-- Write lines upward from `g` as master `m`; the status of the first that is refused. -/
def State.gStoreLines (s : State) (m : Mst) (g : Nat) (env : Nat) : List Nat → Nat × State
  | [] => (0, s)
  | d :: r =>
    let (c, s) := s.gWrite m g d false env
    if c ≠ 0 then (c, s) else s.gStoreLines m (g + 64) env r

/-- The lines of a byte list. -/
def linesOf (bs : List Byte) : List Nat :=
  (List.range (bs.length / 64)).map (fun i => leNat ((bs.drop (64 * i)).take 64))

/-- FAIL_RING_WRITE (R153): `env` is what a target outside HBM answers. -/
def execFailRingWrite (e : Fin 96) (env : Fin 4) (s : State) : Ans :=
  let r := s.engine e
  match r.ff with
  | [] => .next s
  | x :: rest =>
    if s.ringLog2 e = 0 ∨ s.on .FC_STATUS_RING_ERR [e.val] ∨ s.ringLevel e = 2 ^ s.ringLog2 e then .next s
    else
      let wrc := s.rd .FC_RING_WR_COUNT [e.val]
      let (c, s) := s.gStoreLines (engMst e) (s.ringSlot e wrc) env (linesOf (recordBytes (s.on .FC_CTL_FORMAT [e.val]) x))
      if c ≠ 0 then .next ((s.wr .FC_STATUS_RING_ERR [e.val] 1).raise .FC_CTL [e.val] 153 2 [e.val, c])
      else .next ((s.setEngine e { s.engine e with ff := rest }).incr .FC_RING_WR_COUNT [e.val])

/-- RING_ERR_RESTART (R153). -/
def execRingErrRestart (w : Writer) (e : Fin 96) (s : State) : Ans :=
  .next (s.reach w .FC_STATUS [e] (2 ^ 26) fun s => s.wr .FC_STATUS_RING_ERR [e] 0)

/-- FC_RING_RD_WRITE (R154). -/
def execFcRingRdWrite (w : Writer) (e : Fin 96) (v : BitVec 32) (s : State) : Ans :=
  .next (s.reach w .FC_RING_RD [e] v.toNat fun s =>
    let old := s.rd .FC_RING_RD_COUNT [e]
    if (v.toNat + 2 ^ 32 - old) % 2 ^ 32 ≤ s.ringLevel e then s.wr .FC_RING_RD_COUNT [e] v.toNat
    else s.drop w .FC_RING_RD [e] v.toNat)

/-- The RW fields of the fail capture accept writes in `STATE` 0, 6, 7 and 8 (R539). -/
def State.fcOpen (s : State) (e : Nat) : Bool := [0, 6, 7, 8].contains (s.estate e)

/-- The lanes that a value of `FC_LANES` names, and whether the write is dropped whole (R148). -/
def fcNamed (v : Nat) : List Nat := (List.range (v % 8)).map (fun j => bitsOf v (8 + 6 * j) 6)

/-- Is global lane `l` owned by the straight path of engine `e`? -/
def State.fcOwns (s : State) (e l : Nat) : Bool := (s.engine e).owned.any (fun x => x.1 = l)

def State.fcLanesBad (s : State) (e v : Nat) : Bool :=
  let n := v % 8
  let d := engDie e
  let ls := fcNamed v
  n = 3 || 5 ≤ n || ls.any (fun l => laneCount d ≤ l) || ls.eraseDups.length != ls.length ||
    ls.any (fun l => (List.range 12).any (fun k => 12 * d + k != e && s.fcOwns (12 * d + k) (laneGlobal d l)))

/-- Store `FC_LANES`. -/
def State.fcLanesStore (s : State) (e v : Nat) : State :=
  ((((s.wr .FC_LANES_COUNT [e] (v % 8)).wr .FC_LANES_LANE0 [e] (bitsOf v 8 6)).wr .FC_LANES_LANE1 [e] (bitsOf v 14 6)).wr
    .FC_LANES_LANE2 [e] (bitsOf v 20 6)).wr .FC_LANES_LANE3 [e] (bitsOf v 26 6)

/-- The global lanes that engine `e` owns once `FC_LANES` holds what it holds, with the word width of each (R148): with `COUNT`
0 none; otherwise the lanes named, and those it owned before and that are no longer named, which ownership does not leave. -/
def State.fcOwned (s : State) (e : Nat) : List (Nat × Nat) :=
  if s.fcCount e = 0 then []
  else
    let new := (List.range (s.fcCount e)).map (fun j => (s.fcLane e j, s.sliceW e))
    new ++ (s.engine e).owned.filter (fun x => !new.any (fun y => y.1 = x.1))

/-- Lanes whose ownership or width a write of `FC_LANES` has changed start anew on the grid (R296). -/
def State.lanesRealign (s : State) (old new : List (Nat × Nat)) : State :=
  let hit := (old.filter (fun x => !new.contains x) ++ new.filter (fun x => !old.contains x)).map (·.1)
  hit.foldl (fun s l => (s.wr .CL_STAT_SLIP_POS [l] 0).wr .CL_STAT_REALIGN [l] 1) s

/-- FC_LANES_WRITE (R148, R296, R539): a write with `COUNT` 0 ends ownership; the slots of the old lanes end with a
change. -/
def execFcLanesWrite (w : Writer) (e : Fin 96) (v : BitVec 32) (s : State) : Ans :=
  .next (s.reach w .FC_LANES [e] v.toNat fun s =>
    if s.fcOpen e = false then
      (if s.wordWith .FC_LANES [e] [] = v.toNat - v.toNat % 256 + v.toNat % 8 then s else s.drop w .FC_LANES [e] v.toNat)
    else if s.fcLanesBad e v.toNat then s.drop w .FC_LANES [e] v.toNat
    else
      let t := s.fcLanesStore e v.toNat
      let own := t.fcOwned e
      (t.setEngine e { s.engine e with launched := false, owned := own }).lanesRealign (s.engine e).owned own)

/-! ## The bitmap RAM and the counters (R156, R159) -/

/-- BITMAP_CLEAR (R156): in `STATE` 0 and 5 to 8. -/
def execBitmapClear (w : Writer) (e : Fin 96) (s : State) : Ans :=
  .next (s.reach w .FC_CTL [e] (s.wordWith .FC_CTL [e] [(.FC_CTL_CMD, 1)]) fun s =>
    if s.winWritable e then
      (s.wr .FC_STATUS_BM_BUSY [e] 1).setEngine e { s.engine e with bmEnd := s.now + 20000 }
    else s.dropF w .FC_CTL_CMD [e] 1)

/-- Apply an update held during a clear. -/
def State.bmApply (s : State) (e : Nat) (o : BmOp) : State :=
  match o with
  | .tally row ix n => s.tally e row ix n
  | .store off v => s.winStore e off 4 v

/-- BITMAP_CLEAR_DONE (R156): every tally reads 0, then the held updates and writes follow in order. -/
def execBitmapClearDone (e : Fin 96) (s : State) : Ans :=
  if s.on .FC_STATUS_BM_BUSY [e] then
    let r := s.engine e
    let a := e.val * 2 ^ 20
    let s := { s with win := s.win.filter (fun c => !(a + 0x80000 ≤ c.1 && c.1 < a + 0xC0000)) }
    let s := (s.wr .FC_STATUS_BM_BUSY [e] 0).setEngine e { r with bmEnd := 0, bmHeld := [] }
    .next (r.bmHeld.foldl (fun s o => s.bmApply e o) s)
  else .next s

/-- The counters of R159 but `FC_RUN` read 0. -/
def State.fcClear (s : State) (e : Nat) : State :=
  let s := s.setEngine e { s.engine e with cmp := 0 }
  let s := (((s.wr .FC_FAIL_CNT_COUNT [e] 0).wr .FC_UNCHK_CNT_COUNT [e] 0).wr .FC_DROP_CNT_COUNT [e] 0).wr .FC_GAP_CNT_COUNT [e] 0
  let s := s.wr .FC_CMP_HI_COUNT [e] 0
  (List.range 4).foldl (fun s j => s.wr .FC_SLICE_FAIL_COUNT [e, j] 0) s

/-- FC_COUNTERS_CLEAR (R539). -/
def execFcCountersClear (w : Writer) (e : Fin 96) (s : State) : Ans :=
  .next (s.reach w .FC_CTL [e] (s.wordWith .FC_CTL [e] [(.FC_CTL_CMD, 2)]) (·.fcClear e))

end Sys2Proof.Machine
end

