-- ==== Sys2Proof/Machine/Rings.lean ====
section
/-! DEFINITION. Queue pairs as the ring engine keeps them: ownership, ring sizes, descriptors in progress, their order,
fences and chains, their completions, and the MSI-X vectors (R321 to R326, R338 to R345). -/

namespace Sys2Proof.Machine

def State.qp (s : State) (q : Nat) : QpRt := smGet s.qps [q] {}
def State.setQp (s : State) (q : Nat) (x : QpRt) : State := { s with qps := smPut s.qps [q] x {} }
def State.qstate (s : State) (q : Nat) : Nat := s.rd .HIF_QP_STAT_STATE [q]

/-- Ports and administrative functions (R316). -/
def portOf (f : Nat) : Nat := f / 4
def isAdmin (f : Nat) : Bool := f == 0 || f == 4

/-- Does function `f` own queue pair `q` (R321)? -/
def State.qpOwned (s : State) (q f : Nat) : Bool := s.on .HIF_QP_ASSIGN_VALID [q] && s.rd .HIF_QP_ASSIGN_FN [q] == f

/-- What every function tells the host of itself: Device ID and class code (R316). -/
def deviceId : Nat := 0x0800
def classCode : Nat := 0x120000

/-- May the writer write the host-interface region; `own`: the register is one that its owner may write (R322)? -/
def State.hifWriter (s : State) (w : Writer) (own : Nat → Bool) : Bool :=
  s.isAdminW w || (match w with
    | .fn f => own f
    | _ => false)

/-- Entries of a ring of a `LOG2` (R324). -/
def ringSize (log2 : Nat) : Nat := if 4 ≤ log2 ∧ log2 ≤ 16 then 2 ^ log2 else 0
def State.sqSize (s : State) (q : Nat) : Nat := ringSize (s.rd .HIF_QP_CTL_SQ_LOG2 [q])
def State.cqSize (s : State) (q : Nat) : Nat := ringSize (s.rd .HIF_QP_CTL_CQ_LOG2 [q])

/-- Host addresses of the two rings (R324). -/
def State.sqBase (s : State) (q : Nat) : Nat := s.rd .HIF_QP_SQ_LO_ADDR [q] * 2 ^ 12 + s.rd .HIF_QP_SQ_HI_ADDR [q] * 2 ^ 32
def State.cqBase (s : State) (q : Nat) : Nat := s.rd .HIF_QP_CQ_LO_ADDR [q] * 2 ^ 12 + s.rd .HIF_QP_CQ_HI_ADDR [q] * 2 ^ 32

/-- Descriptors waiting in the SQ (R325). -/
def State.sqLevel (s : State) (q : Nat) : Nat :=
  let z := s.sqSize q
  if z = 0 then 0 else ((s.qp q).tail + z - s.rd .HIF_QP_HEAD_SQ_HEAD [q]) % z

/-- The CQ is full with size - 1 entries unread (R325, R343). -/
def State.cqFull (s : State) (q : Nat) : Bool :=
  let z := s.cqSize q
  z == 0 || (s.rd .HIF_QP_HEAD_CQ_TAIL [q] + 1) % z == (s.qp q).head

/-- The engine is usable by the function (R323). -/
def State.usable (s : State) (e f : Nat) : Bool :=
  let has (g : Nat) := (s.rd .HIF_ENG_ASSIGN_MASK [g, e / 32]).testBit (e % 32)
  has f || (isAdmin f && (List.range 8).all (fun g => !has g))

/-! ## Fields of a descriptor (R327) -/

def dWord (d i : Nat) : Nat := bitsOf d (32 * i) 32
def dOPC (d : Nat) : Nat := bitsOf d 0 8
def dFENCE (d : Nat) : Bool := d.testBit 8
def dNOCMP (d : Nat) : Bool := d.testBit 9
def dIRQ (d : Nat) : Bool := d.testBit 10
def dCHAIN (d : Nat) : Bool := d.testBit 11
def dTAG (d : Nat) : Nat := bitsOf d 16 16
def dLEN (d : Nat) : Nat := dWord d 1
def dSRC (d : Nat) : Nat := bitsOf d 64 64
def dDST (d : Nat) : Nat := bitsOf d 128 64

/-- The descriptor fences itself: its flag, or its opcode (R338). -/
def dFenced (d : Nat) : Bool := dFENCE d || dOPC d == 0x50

/-! ## MSI-X (R345) -/

def State.vec (s : State) (f v : Nat) : VecRt := smGet s.vecs [f, v] {}
def State.setVec (s : State) (f v : Nat) (x : VecRt) : State := { s with vecs := smPut s.vecs [f, v] x {} }

/-- Send the message of a vector, or set its pending bit where it is masked or the function may not request (R319). -/
def State.sendVec (s : State) (f v : Nat) : State :=
  let x := { s.vec f v with due := none }
  if x.masked || !s.on .HIF_FN_STAT_BME [f] then s.setVec f v { x with pend := true }
  else (s.setVec f v { x with pend := false, sentT := some s.now }).emit (.msix f v)

/-- A vector is raised with the holdoff of `h` µs (R345). -/
def State.raiseVec (s : State) (f v h : Nat) : State :=
  let x := s.vec f v
  match x.due, x.sentT with
  | some d, _ => s.setVec f v { x with due := some (min d (s.now + h * 1000)) }
  | none, some t => if 0 < h ∧ s.now < t + h * 1000 then s.setVec f v { x with due := some (t + h * 1000) } else s.sendVec f v
  | none, none => s.sendVec f v

/-- The vector of a queue pair is raised. -/
def State.raiseQp (s : State) (q : Nat) : State :=
  s.raiseVec (s.rd .HIF_QP_ASSIGN_FN [q]) (s.rd .HIF_QP_IRQ_VEC [q]) (s.rd .HIF_QP_IRQ_HOLDOFF [q])

/-- The queue pair enters `STATE` 3 (R343, R344, R345). -/
def State.qpError (s : State) (q err : Nat) : State :=
  ((s.wr .HIF_QP_STAT_ERR [q] err).wr .HIF_QP_STAT_STATE [q] 3).raiseQp q

/-! ## Descriptors in progress -/

/-- Replace a descriptor in progress. -/
def State.setJob (s : State) (q n : Nat) (j : Job) : State :=
  let x := s.qp q
  s.setQp q { x with jobs := x.jobs.set n j }

/-- The position of the first descriptor not yet started, if it may start: its predecessor in a chain has ended, its fence
is met, and the CQ has room (R338, R339, R343). -/
def State.nextJob (s : State) (q : Nat) : Option (Nat × Job) :=
  let js := (s.qp q).jobs
  match js.findIdx? (fun j => j.st = 0) with
  | none => none
  | some n =>
    match js[n]? with
    | none => none
    | some j => if (0 < n ∧ dFenced j.d) ∨ j.pred = 0 ∨ s.cqFull q then none else some (n, j)

/-- A descriptor has ended and its entry, if it has one, is written: its successor in a chain may run or is aborted
(R339), it is counted (R351), and a stopping queue pair with none left reads `STATE` 0 (R326). -/
def State.jobGone (s : State) (q n : Nat) : State :=
  let x := s.qp q
  match x.jobs[n]? with
  | none => s
  | some j =>
    let r := if j.status = 0 ∨ j.status = 4 then 1 else 2
    let rest := x.jobs.drop (n + 1)
    let rest := match rest with
      | k :: ks => if k.linked ∧ k.pred = 0 then { k with pred := r } :: ks else rest
      | [] => []
    let x := { x with jobs := x.jobs.take n ++ rest, last := if rest.isEmpty then r else x.last }
    let s := (s.setQp q x).bump .HIF_QP_DONE_CNT_COUNT [q]
    if x.jobs.isEmpty ∧ s.qstate q = 2 then s.wr .HIF_QP_STAT_STATE [q] 0 else s

/-- A descriptor ends with a status; with `NOCMP` and OK it needs no entry (R344). -/
def State.jobEnd (s : State) (q n status detail bytes : Nat) : State :=
  match (s.qp q).jobs[n]? with
  | none => s
  | some j =>
    let s := s.setJob q n { j with st := 2, status := status, detail := detail, bytes := bytes }
    if status = 0 ∧ dNOCMP j.d then s.jobGone q n else s

/-- Start as far as no opcode is needed: invalid descriptors end, descriptors behind a failed member of their chain are
aborted (R329, R339), and a CFG_LOAD that has reached the head joins the line of R334. -/
def State.settle (s : State) (q : Nat) : Nat → State
  | 0 => s
  | fuel + 1 =>
    match s.nextJob q with
    | none => s
    | some (n, j) =>
      if j.pred = 2 then (s.jobEnd q n 5 0xFF 0).settle q fuel
      else match j.bad with
        | some w => (s.jobEnd q n 6 w 0).settle q fuel
        | none =>
          if dOPC j.d = 0x20 ∧ (q, j.idx) ∉ s.cfgWait then { s with cfgWait := s.cfgWait ++ [(q, j.idx)] } else s

/-- The end of a descriptor, and what may go on after it. -/
def State.jobDone (s : State) (q n status detail bytes : Nat) : State := (s.jobEnd q n status detail bytes).settle q 65

/-- Drop every descriptor of a queue pair without completion. -/
def State.qpDrop (s : State) (q : Nat) : State :=
  { s.setQp q { s.qp q with jobs := [], chain := false, last := 0 } with
    cfgWait := s.cfgWait.filter (fun e => e.1 ≠ q)
    mail := s.mail.filter (fun m => m.src ≥ 8 ∨ m.q ≠ q) }

/-- The position of the descriptor of a queue pair with an SQ index that runs. -/
def State.jobAt (s : State) (q idx : Nat) : Option Nat :=
  (s.qp q).jobs.findIdx? (fun j => j.idx = idx ∧ j.st = 1)

/-- A descriptor's data go to host memory, with relaxed ordering where `RO_DATA` is 1 (R317). -/
def State.hostData (s : State) (f a : Nat) (bs : List Byte) : State :=
  s.emit (.hostWrite (portOf f) f a (s.on .HIF_FN_CTL_RO_DATA [f]) bs)

/-! ## Masters of a line (R330) -/

/-- Who moves a line: the ring engine for a line in an engine local memory, else the bridge of the function's port. -/
def lineMst (f g : Nat) : Mst :=
  match placeOf g with
  | .window _ _ => ringMst f
  | _ => bridgeMst (portOf f) f

/-- The status with which R330 refuses a line before it is requested: an engine not usable by the function. -/
def State.lineRefused (s : State) (f g : Nat) : Bool :=
  match placeOf g with
  | .window e _ => s.up (engDie e) && !s.usable e f
  | _ => false

end Sys2Proof.Machine
end

