-- ==== Sys2Proof/Machine/Images.lean ====
section
/-! DEFINITION. Signed images and configuration loads: headers, checks, frames, blanking, refusals, release (R48 to R55,
R58, R334, R410 to R412, R434 to R438). -/

namespace Sys2Proof.Machine

/-! ## The Lodestar's error register (R458) -/

/-- Record an error under the first-error rule, and raise its event. -/
def State.lsErr (s : State) (code source : Nat) : State :=
  let s := if s.on .LS_ERR_VALID [] then s
    else ((s.wr .LS_ERR_CODE [] code).wr .LS_ERR_SOURCE [] source).wr .LS_ERR_VALID [] 1
  s.raise .LS_ERR [] 458 2 [code, source]

/-! ## Image headers (R410, R434); `h` is the header, byte 0 lowest -/

def hByte (h b : Nat) : Nat := bitsOf h (8 * b) 8
def hMAGIC (h : Nat) : Nat := bitsOf h 0 32
def hFORMAT (h : Nat) : Nat := bitsOf h 32 16
def hFLAGS (h : Nat) : Nat := bitsOf h 48 16
def hSVN (h : Nat) : Nat := bitsOf h 64 32
def hDIES (h : Nat) : Nat := hByte h 12
def hSECTORS (h n : Nat) : Nat := bitsOf h (8 * (16 + 5 * n)) 40
def hFRAMES (h : Nat) : Nat := bitsOf h 448 32
def hBODY (h : Nat) : Nat := bitsOf h 512 64
def hKEY (h : Nat) : Nat := hByte h 72
def hCOUNTER (h : Nat) : Nat := hByte h 73
def hEncrypted (h : Nat) : Bool := (hFLAGS h).testBit 0

/-- The dies an image names, and the sectors of a die. -/
def hDieList (h : Nat) : List Nat := (List.range 8).filter (fun n => (hDIES h).testBit n)
def hSecList (h n : Nat) : List Nat := (List.range 40).filter (fun k => (hSECTORS h n).testBit k)

/-- The image is inconsistent with its header or its length (R410). -/
def hInconsistent (h len : Nat) : Bool :=
  hMAGIC h ≠ 0x54434647 || hFORMAT h ≠ 1 || 1 < hFLAGS h || hBODY h ≠ 1032 * hFRAMES h || len ≠ 256 + hBODY h ||
    (List.range 8).any (fun n => (hDIES h).testBit n != (hSECTORS h n ≠ 0))

/-- The key slot of a configuration image (R435): 0 good, else the `LS_ERR` code. -/
def State.keyCheck (s : State) (slot : Nat) (cfg enc : Bool) : Nat :=
  let life := s.rd .LS_STAT_LIFECYCLE []
  let vendor := slot ≤ 1
  let owner := 2 ≤ slot && slot ≤ 5
  if vendor = false ∧ owner = false ∧ slot ≠ 0xFF then 1
  else if cfg = false then (if vendor ∧ (s.rd .LS_STAT_VKEYS []).testBit slot then 0 else if vendor then 1 else 5)
  else if life = 2 then
    (if owner then (if (s.rd .LS_STAT_OWNER_KEYS []).testBit (slot - 2) then 0 else 1) else 5)
  else if vendor then (if (s.rd .LS_STAT_VKEYS []).testBit slot then 0 else 1)
  else if slot = 0xFF ∧ enc = false then 0
  else 5

/-- The checks that the Lodestar makes as soon as it has the header of a configuration image (R435 to R437): 0, or the
`LS_ERR` code. `unwrap`: the integrity check of the image key's unwrap passes. -/
def State.cfgHeaderCheck (s : State) (h len : Nat) (unwrap : Bool) : Nat :=
  let k := s.keyCheck (hKEY h) true (hEncrypted h)
  if hInconsistent h len then 4
  else if k ≠ 0 then k
  else if hCOUNTER h = 0 ∨ 7 < hCOUNTER h then 4
  else if hEncrypted h ∧ s.rd .LS_STAT_LIFECYCLE [] ≠ 2 then 5
  else if hEncrypted h ∧ (s.on .LS_STAT_KEK [] && unwrap) = false then 3
  else if hSVN h < s.rd .LS_ARB_VALUE [hCOUNTER h] then 2
  else 0

/-- An image fails verification: counted and recorded (R437, R458). -/
def State.imageBad (s : State) (code source : Nat) : State := (s.bump .LS_VER_CNT_COUNT []).lsErr code source

/-! ## Frames (R51, R411) -/

/-- Fields of a frame record (R411). -/
def recFAR (r : Nat) : Nat := bitsOf r 0 32
def recData (r : Nat) : Nat := bitsOf r 32 8192
def recCRC (r : Nat) : Nat := bitsOf r 8224 32

/-! ## A load -/

def State.cfgNamed (s : State) (n k : Nat) : Bool := (hDIES s.cfgLoad.hdr).testBit n && (hSECTORS s.cfgLoad.hdr n).testBit k

/-- A configuration engine is busy with a migration (R55). -/
def State.migrating (s : State) (n : Nat) : Bool := (List.range 40).any (fun k => (s.sector n k).mig ≠ 0)

/-- Blank a sector (R52): every frame but those of memory contents, and what was known of its design. -/
def State.cfgBlank (s : State) (n k : Nat) : State :=
  let s := s.setSector n k { s.sector n k with rkn := [], wakes := [], frames := 0, img := 0, opened := false, ffInit := true }
  let s := s.fabBlank n k
  { s with cfg := smKeep s.cfg (fun i => i.headD 0 ≠ n || farSector (i.getD 1 0) ≠ k || farContent (i.getD 1 0)) }

/-- Every sector the load names, on the dies in service, with a change applied. -/
def State.cfgEach (s : State) (f : Nat → Nat → State → State) : State :=
  (hDieList s.cfgLoad.hdr).foldl (fun s n =>
    if s.up n then (hSecList s.cfgLoad.hdr n).foldl (fun s k => f n k s) s else s) s

/-- A remap that waits is applied at the next load (R60). -/
def State.remapAtLoad (s : State) (n k : Nat) : State :=
  if s.on .SEC_STATUS_PENDING_REMAP [n, k] then
    (s.wr .SEC_COLMAP_ACTIVE [n, k] (s.knownDefect n k)).remapDone n k
  else s

/-- At the start of a load each named sector enters sector reset, reads `STATE` 1 and is blanked (R52, R43); a pending remap
is applied (R60). -/
def State.cfgEnter (s : State) : State :=
  let s := s.cfgEach fun n k s =>
    if s.rd .SEC_STATUS_STATE [n, k] = 5 then s
    else (((s.sectorReset n k).wr .SEC_STATUS_STATE [n, k] 1).cfgBlank n k).remapAtLoad n k
  (hDieList s.cfgLoad.hdr).foldl (fun s n => s.wr .CFG_STATUS_FRAMES [n] 0) s

/-- A refused load: every named sector returns to `STATE` 0, blanked (R54). -/
def State.cfgVoid (s : State) : State :=
  s.cfgEach fun n k s =>
    if s.rd .SEC_STATUS_STATE [n, k] = 5 then s
    else ((s.sectorReset n k).wr .SEC_STATUS_STATE [n, k] 0).cfgBlank n k

/-- The requester of a load's permits. -/
def cfgWho : List Nat := [2000]

/-- The load is over: its decryption permit returns, its descriptor ends, or its autoload, whose outcome is recorded (R395,
R334, R413). -/
def State.cfgClose (s : State) (status detail bytes : Nat) : State :=
  let l := s.cfgLoad
  let s := { s.giveBack 8 19 cfgWho with cfgLoad := {} }
  match l.owner with
  | some (q, idx) =>
    let s := { s with cfgWait := s.cfgWait.filter (· ≠ (q, idx)) }
    match s.jobAt q idx with
    | some n => s.jobDone q n status detail bytes
    | none => s
  | none =>
    if l.auto then
      let s := (s.wr .BOOT_STAT_CFG [] (if status = 0 then 2 else 3)).wr .BOOT_STAT_CFG_STATUS [] status
      if status = 0 then s else s.raise .BOOT_STAT [] 413 0 [status, detail]
    else s

/-- Bytes of the image delivered so far. -/
def CfgLoad.bytes (l : CfgLoad) : Nat := 256 + 1032 * l.sent

/-- A load that ends without success after it has entered its sectors. -/
def State.cfgFail (s : State) (status detail : Nat) : State :=
  let b := s.cfgLoad.bytes
  (if s.cfgLoad.phase = 3 then s.cfgVoid else s).cfgClose status detail b

/-- Record a refusal in `CFG_ERR` of a die (R55). -/
def State.cfgErr (s : State) (n code sec far : Nat) : State :=
  let s := if s.on .CFG_ERR_VALID [n] then s
    else (((s.wr .CFG_ERR_CODE [n] code).wr .CFG_ERR_SECTOR [n] sec).wr .CFG_ERR_FAR_FAR [n] far).wr .CFG_ERR_VALID [n] 1
  s.raise .CFG_ERR [n] 54 2 [code, sec, far]

/-- A frame is refused: the load ends with ABORTED (R54). -/
def State.cfgRefuse (s : State) (n code sec far : Nat) : State := (s.cfgErr n code sec far).cfgFail 5 code

/-- A permit of the load has timed out (R48, R54, R393): for the decryption the load is aborted; for the release the sectors
stay in `STATE` 2, and cause 7 is recorded by every named die. -/
def State.cfgTimeouts (s : State) : State :=
  let l := s.cfgLoad
  if l.phase = 1 then
    (if (s.gov 8).expired.any (·.is 19 cfgWho) then s.cfgClose 5 0 0 else s)
  else if l.phase = 4 ∧ (List.range 8).any (fun g => (s.gov g).expired.any (fun p => p.who = cfgWho)) then
    let s := (List.range 8).foldl (fun s g => (s.giveBack g 3 cfgWho).giveBack g 4 cfgWho) s
    let s := s.cfgEach fun n k s =>
      if s.rd .SEC_STATUS_STATE [n, k] = 2 then
        (s.wr .SEC_STATUS_PERMIT_WAIT [n, k] 0).wr .SEC_CTL_RESET [n, k] 1
      else s
    let s := (hDieList l.hdr).foldl (fun s n =>
      (s.cfgErr n 7 ((hSecList l.hdr n).headD 0) 0).raise .SEC_CTL [n, 0] 48 2 (hSecList l.hdr n)) s
    s.cfgClose 5 7 l.bytes
  else s

/-- The load goes from the wait for its engines to its stream, once no named die migrates (R55). -/
def State.cfgProceed (s : State) : State :=
  if s.cfgLoad.phase = 2 ∧ (hDieList s.cfgLoad.hdr).all (fun n => !s.migrating n) then
    let s := s.cfgEnter
    { s with cfgLoad := { s.cfgLoad with phase := 3 } }
  else s

/-- The decryption permit is granted. -/
def State.cfgDecrypt (s : State) : State :=
  if s.cfgLoad.phase = 1 then
    match s.takeGrant 8 19 cfgWho with
    | some s => ({ s with cfgLoad := { s.cfgLoad with phase := 2 } } : State).cfgProceed
    | none => s
  else s

/-- Begin a load of `len` bytes whose header is `hdr` (none: the host returned an error), for a descriptor or for the boot
flash (R334, R410, R437, R54, R29, R395). -/
def State.cfgBegin (s : State) (owner : Option (Nat × Nat)) (release : Bool) (len at_ : Nat) (hdr : Option Nat)
    (unwrap : Bool) : State :=
  let s := { s with cfgLoad := { owner := owner, auto := owner.isNone, release := release, len := len, at_ := at_ } }
  if len = 0 then s.cfgClose 4 0 0
  else match hdr with
    | none => s.cfgClose 8 0 0
    | some h =>
      let h := if len < 256 then 0 else h % 2 ^ 2048
      let c := s.cfgHeaderCheck h len unwrap
      let s := { s with cfgLoad := { s.cfgLoad with hdr := h } }
      if c ≠ 0 then (s.imageBad c 1).cfgClose 1 0 0
      else if hFRAMES h = 0 then s.cfgClose 4 0 0
      else match (hDieList h).find? (fun n => !s.up n) with
        | some n => s.cfgClose 2 n 0
        | none =>
          if hEncrypted h then
            let s := { s with cfgLoad := { s.cfgLoad with phase := 1 } }
            (s.request 8 19 3 cfgWho []).cfgTimeouts
          else ({ s with cfgLoad := { s.cfgLoad with phase := 2 } } : State).cfgProceed

/-- CFG_RECORD (R411): the next record of the body, `none` where the host returned an error (R334); a load from the boot
flash takes it from there. -/
def execCfgRecord (rec_ : Option (BitVec 8256)) (s : State) : Ans :=
  let s := (s.cfgDecrypt).cfgProceed
  let l := s.cfgLoad
  if l.phase = 3 ∧ l.sent < hFRAMES l.hdr then
    let r := if l.auto then some (leNat (memBytes s.flash (l.at_ + l.bytes) 1032 0xFF)) else rec_.map (·.toNat)
    match r with
    | none => .next (s.cfgFail 8 0)
    | some r =>
      let n := farDIE (recFAR r)
      if (hDIES l.hdr).testBit n = false then
        .next (s.cfgRefuse ((hDieList l.hdr).headD 0) 2 (farSector (recFAR r)) (recFAR r))
      else if 64 ≤ (l.buf.filter (fun x => x.die = n)).length then .next s
      else .next { s with cfgLoad := { l with sent := l.sent + 1, buf := l.buf ++ [{ die := n, rec_ := r }] } }
  else .next s

/-- The cause for which the engine of die `n` refuses a frame before it writes it (R54), or 0. Of several causes the first
in the order 1, 2, 6, 4, 3, 8 is recorded (DESIGN CHOICE, log entry 46). -/
def State.frameCause (s : State) (n r : Nat) (items : List CfgItem) : Nat :=
  let a := recFAR r
  if farValid a = false then 1
  else if s.cfgNamed n (farSector a) = false then 2
  else if s.rd .SEC_STATUS_STATE [n, farSector a] = 5 then 6
  else if crc32 (recData r) 8192 ≠ recCRC r then 4
  else if s.censusFails n a items then 3
  else if isoReserved a items then 8
  else 0

/-- The columns of reckoner blocks that a frame makes the sector use (R396). -/
def addColumn (a : Nat) (l : List Nat) : List Nat := if farKIND a = 3 then insertNat (farCOL a) l else l

/-- Words of operand memories that a reckoner frame holds (R50). -/
def State.operItems (s : State) (n a : Nat) (items : List CfgItem) : State :=
  (items.filter (itemAt a)).foldl (fun s x => match x with
    | .oper b o w => s.onFab fun f => { f with
        oper := smPut f.oper (s.operKey n (farSector a) (farCOL a) b o) w.toNat 0 }
    | _ => s) s

/-- What a frame's bits configure takes effect (R37, R50). -/
def State.frameDesign (s : State) (n a data : Nat) (items : List CfgItem) : State :=
  if farContent a then s.ramFrame n a data else (s.design n a items).operItems n a items

/-- A frame is written and counted (R51, R55). -/
def State.frameStore (s : State) (n r : Nat) (items : List CfgItem) : State :=
  let a := recFAR r
  let x := s.sector n (farSector a)
  let s := s.setSector n (farSector a) { x with frames := x.frames + 1, rkn := addColumn a x.rkn }
  let s := s.wr .CFG_STATUS_FRAMES [n] (s.rd .CFG_STATUS_FRAMES [n] + 1)
  ({ s with cfg := smPut s.cfg [n, a] (recData r) 0,
            cfgLoad := { s.cfgLoad with done := s.cfgLoad.done + 1 } } : State).frameDesign n a (recData r) items

/-- CFG_FRAME (R51, R54, R58): the first record in the buffer of die `d` is checked, written and verified; `fails` verifies
fail (4: still after three rewrites); `items`: what the frame's bits configure. -/
def execCfgFrame (d : Fin 8) (fails : Fin 5) (items : List CfgItem) (s : State) : Ans :=
  let n := d.val
  match s.cfgLoad.buf.find? (fun x => x.die = n) with
  | none => .next s
  | some x =>
    if s.cfgLoad.phase = 3 ∧ s.up n then
      let r := x.rec_
      let a := recFAR r
      let k := farSector a
      let s := { s with cfgLoad := { s.cfgLoad with buf := s.cfgLoad.buf.erase x } }
      let c := s.frameCause n r items
      if c ≠ 0 then .next (s.cfgRefuse n c (k % 64) a)
      else if fails.val < 4 then .next (s.frameStore n r items)
      else if farKIND a = 0 then
        let spare := s.knownDefect n k = 31
        let s := s.columnDefect n k (physColumn (s.rd .SEC_COLMAP_ACTIVE [n, k]) (farCOL a)) 0
        .next (if spare then s.frameStore n r items else s.cfgRefuse n 5 k a)
      else .next (s.cfgRefuse n 5 k a)
    else .next s

/-- A load that has ended well: the measurement and the security version (R438). -/
def State.cfgGood (s : State) : State :=
  let h := s.cfgLoad.hdr
  let c := hCOUNTER h
  let m := Config.sha384 (natLe s.cfgMeas 48 ++ natLe (Config.sha384 (natLe h 256)).toNat 48)
  let s := { s with cfgMeas := m.toNat }
  (s.wr .LS_SVN_SVN [c] (max (s.rd .LS_SVN_SVN [c]) (hSVN h))).cfgClose 0 0 s.cfgLoad.bytes

/-- The permits of a release, die by die (R53, R394 to R396): a wake for every reckoner column used, in ascending sector
and column order, then one unit for every sector. -/
def State.cfgPermits (s : State) : List (List Nat) :=
  (hDieList s.cfgLoad.hdr).flatMap fun n =>
    ((hSecList s.cfgLoad.hdr n).flatMap fun k => (s.sector n k).rkn.map (fun _ => [n, 3, 1])) ++
      [[n, 4, (hSecList s.cfgLoad.hdr n).length]]

/-- IMAGE_VERIFY_END (R437, R53): signature and tag are judged once every frame has been accepted; the named sectors reach
`STATE` 2 when both are good, since `MODE` does not change for a load that fails (R27; DEDUCED, log entry 47). -/
def execImageVerifyEnd (sigOk tagOk : Bool) (s : State) : Ans :=
  let l := s.cfgLoad
  if l.phase = 3 ∧ l.done = hFRAMES l.hdr then
    if hKEY l.hdr ≠ 0xFF ∧ sigOk = false then .next ((s.imageBad 1 1).cfgFail 1 0)
    else if hEncrypted l.hdr ∧ tagOk = false then .next ((s.imageBad 3 1).cfgFail 1 0)
    else match (hDieList l.hdr).findSome? (fun n =>
        ((hSecList l.hdr n).find? (fun k => s.rd .SEC_STATUS_STATE [n, k] = 5)).map (fun k => (n, k))) with
      | some (n, k) => .next (s.cfgRefuse n 6 k 0)
      | none =>
        let s := { s with loadN := s.loadN + 1 }
        let s := s.cfgEach fun n k s =>
          (s.setSector n k { s.sector n k with img := s.loadN }).wr .SEC_STATUS_STATE [n, k] 2
        if l.release then
          let s := s.cfgEach fun n k s => s.wr .SEC_STATUS_PERMIT_WAIT [n, k] 1
          let s := { s with cfgLoad := { s.cfgLoad with phase := 4 } }
          match s.cfgPermits with
          | c :: rest => .next (s.request (c.getD 0 0) (c.getD 1 0) (c.getD 2 0) cfgWho rest).cfgTimeouts
          | [] => .next s
        else .next s.cfgGood
  else .next s

/-- Grant the requests of the load that stand at the head of their governors. -/
def State.cfgDrive (s : State) : Nat → State
  | 0 => s
  | fuel + 1 =>
    match (List.range 8).find? (fun g => ((s.gov g).queue.head?.map (·.who)) = some cfgWho && s.headFits g) with
    | some g => (s.grantHead g).cfgDrive fuel
    | none => s

/-- CFG_RELEASE_INSTANT (R53, R44): with a permit from every die, the release instant is set 10 µs and `lead` ns ahead; the
sectors' release edges come `edge` ns after it, one figure for all of them, and at once where no tree runs. -/
def execCfgReleaseInstant (lead edge : Nat) (s : State) : Ans :=
  let l := s.cfgLoad
  if l.phase = 4 ∧ (hDieList l.hdr).all (fun n => (hSecList l.hdr n).all fun k =>
      s.rd .SEC_STATUS_STATE [n, k] != 2 || (s.treesOf n k).isEmpty || s.edgeOk n k edge) then
    match (s.cfgDrive 5000).takeGrant ((hDieList l.hdr).getLastD 0) 4 cfgWho with
    | some s =>
      let s := s.lapse (10000 + lead + edge)
      let s := s.cfgEach fun n k s =>
        if s.rd .SEC_STATUS_STATE [n, k] = 2 then (s.sectorRun n k).wr .SEC_CTL_RESET [n, k] 0 else s
      .next s.cfgGood
    | none => .next s
  else .next s

/-- A die leaves service (R412): a load that names it completes with UNREACHABLE; its other sectors are blanked. -/
def State.cfgDieLeft (s : State) (n : Nat) : State :=
  let l := s.cfgLoad
  if l.phase ≠ 0 ∧ (hDIES l.hdr).testBit n then
    let s := (List.range 8).foldl (fun s g => (s.giveBack g 3 cfgWho).giveBack g 4 cfgWho) s
    (if 3 ≤ l.phase then s.cfgVoid else s).cfgClose 2 n l.bytes
  else s

/-- The function whose load this is is reset (R347): a load still reading its image ends as a refused one; a delivered
image runs to its end without its descriptor. -/
def State.cfgOrphan (s : State) (f : Nat) : State :=
  let l := s.cfgLoad
  match l.owner with
  | none => s
  | some (q, _) =>
    if s.qpOwned q f then
      let s := { s with cfgLoad := { s.cfgLoad with owner := none } }
      if l.phase = 0 ∨ l.phase = 4 ∨ (l.phase = 3 ∧ l.sent = hFRAMES l.hdr) then s else s.cfgFail 5 0
    else s

end Sys2Proof.Machine
end

