-- ==== Sys2Proof/Machine/Management.lean ====
section
/-! DEFINITION. The management plane: block reports, the event log, its acknowledgement and the journal. -/

namespace Sys2Proof.Machine

/-- A source of the helm interrupt controller becomes pending (R465). -/
def State.irq (s : State) (src : Nat) : State := s.setBit .HELM_IC_PEND_BITS [src / 32] (src % 32) true

/-! ## Helm cores (R460) -/

def State.helmRt (s : State) (c : Nat) : HelmRt := smGet s.helm [c] {}
def State.setHelm (s : State) (c : Nat) (x : HelmRt) : State := { s with helm := smPut s.helm [c] x {} }

/-- The event log runs from boot stage 4 (R401), and not in recovery (R406). -/
def State.logRuns (s : State) : Bool := decide (4 ≤ s.rd .BOOT_STAT_STAGE [] ∧ s.rd .BOOT_STAT_STAGE [] ≤ 6)

/-- BLOCK_ERROR_REPORT (R15, R16). -/
def execBlockErrorReport (site : Fin 9) (off : BitVec 25) (code : BitVec 16) (sev : Fin 5) (arg : BitVec 64)
    (s : State) : Ans :=
  .next (s.push site { code := .fixed code.toNat, sev := sev, die := site, block := off.toNat / 256, time := s.localNs,
                       valid := s.on .SX_STAT_VALID [], arg := .known arg.toNat })

/-- OVERFLOW_EVENT (R16). -/
def execOverflowEvent (d : Fin 8) (s : State) : Ans :=
  .next (s.setSteward d ((s.steward d).spill (overflowRep s d)))

/-- Is record `q` not yet acknowledged (R497)? -/
def State.unacked (s : State) (q : Nat) : Bool :=
  decide ((q + 2 ^ 32 - s.rd .EVT_ACK_SEQ []) % 2 ^ 32 < (s.rd .EVT_NEXT_SEQ [] + 2 ^ 32 - s.rd .EVT_ACK_SEQ []) % 2 ^ 32)

/-- Records of severity 3 or 4 and service notices go to the journal (R498). -/
def journaled (r : Report) : Bool := decide (3 ≤ r.sev) || decide (r.sev = 1)

/-- Append one report to the log (R496, R497, R511). -/
def State.append (s : State) (r : Report) : State :=
  if r.sev = 0 ∧ s.on .EVT_CTL_INFO_OFF [] then s.bump .EVT_INFO_CNT_COUNT []
  else
    let q := s.rd .EVT_NEXT_SEQ []
    let lost := match smGet s.evlog [q % 4096] none with
      | some o => s.unacked o.seq
      | none => false
    let s := if lost then (s.irq 193).bump .EVT_LOST_CNT_COUNT [] else s
    let rec_ : LogRec := { seq := q, rep := r }
    let s := { s with evlog := smPut s.evlog [q % 4096] (some rec_) none,
                      jtodo := if journaled r then s.jtodo ++ [rec_] else s.jtodo }
    (s.incr .EVT_NEXT_SEQ []).irq 192

/-- EVENT_LOG_APPEND (R496): the next report of a steward's queue, or of the hub's collector, reaches the log. -/
def execEventLogAppend (site : Fin 9) (s : State) : Ans :=
  match (s.steward site).queue with
  | [] => .next s
  | r :: q =>
    if s.logRuns then .next ((s.setSteward site { s.steward site with queue := q }).append r)
    else .next s

/-- EVT_ACK_WRITE (R497). -/
def execEvtAckWrite (w : Writer) (v : BitVec 32) (s : State) : Ans :=
  let a := s.rd .EVT_ACK_SEQ []
  if s.mute w then .next s
  else if (v.toNat + 2 ^ 32 - a) % 2 ^ 32 ≤ (s.rd .EVT_NEXT_SEQ [] + 2 ^ 32 - a) % 2 ^ 32 then
    .next (s.wr .EVT_ACK_SEQ [] v.toNat)
  else .next (s.drop w .EVT_ACK [] v.toNat)

/-- JOURNAL_WRITE (R498): the journal holds 16,384 records, newest first here. -/
def execJournalWrite (s : State) : Ans :=
  match s.jtodo with
  | [] => .next s
  | r :: q => .next { s with jtodo := q, journal := (r :: s.journal).take 16384 }

/-! ## The bytes of a record (R494, R495) -/

def Code.num : Code → Nat
  | .fixed n => n
  | .ofRule range rule => range + (Config.eventCode range rule).toNat

def Arg.num : Arg → Nat
  | .known v => v
  | .details l => (Config.eventArg l).toNat

/-- The 32 bytes of a record (R494). -/
def LogRec.bytes (r : LogRec) : List Byte :=
  let x := r.rep
  let a := natLe r.seq 4 ++ natLe x.code.num 2 ++ natLe x.sev 1 ++ natLe x.die 1 ++ natLe x.block 2 ++ natLe x.count 2
  let b := natLe (x.time % 1000000000) 4 ++ natLe (x.time / 1000000000) 6 ++ natLe x.valid.toNat 1 ++ natLe 0 1
  a ++ b ++ natLe x.arg.num 8

end Sys2Proof.Machine
end

