-- ==== Sys2Proof/Machine/HostRings.lean ====
section
/-! DEFINITION. The host rings: doorbells, queue pairs, descriptors and their completions, the BAR4 window, interrupts, and
the reset of a function (Host Rings and Doorbells). -/

namespace Sys2Proof.Machine

/-! ## Doorbells and queue pairs -/

/-- A doorbell write that is dropped and logged (R325): the function, the offset in the page and the value are the details. -/
def State.dbDrop (s : State) (f q off v : Nat) : State :=
  s.raiseFixed .HIF_QP_CTL [q] 0x0F03 2 (.details [f, q, off, v])

/-- A doorbell write through the BAR2 of function `f` (R321, R325, R347). -/
def State.doorbell (s : State) (f q off v size : Nat) (k : QpRt → QpRt) : State :=
  if s.on .HIF_FN_STAT_FLR_BUSY [f] then s
  else if s.qpOwned q f = false then s.dbDrop f q off v
  else if size ≤ v then (s.wr .HIF_QP_STAT_ERR [q] 3).dbDrop f q off v
  else if s.qstate q ≠ 1 then s.dbDrop f q off v
  else s.setQp q (k (s.qp q))

/-- DB_SQ_TAIL (R325). -/
def execDbSqTail (f : Fin 8) (q : Fin 1024) (v : BitVec 32) (s : State) : Ans :=
  .next (s.doorbell f q 0 v.toNat (s.sqSize q) fun x => { x with tail := v.toNat })

/-- DB_CQ_HEAD (R325, R343): room in the CQ lets descriptors go on. -/
def execDbCqHead (f : Fin 8) (q : Fin 1024) (v : BitVec 32) (s : State) : Ans :=
  .next ((s.doorbell f q 4 v.toNat (s.cqSize q) fun x => { x with head := v.toNat }).settle q 65)

/-- A write of `HIF_QP_CTL` by a writer who may (R322). -/
def State.qpWrite (s : State) (w : Writer) (q en : Nat) (k : State → State) : State :=
  s.reach w .HIF_QP_CTL [q] (s.wordWith .HIF_QP_CTL [q] [(.HIF_QP_CTL_EN, en)]) fun s =>
    if s.hifWriter w (fun f => s.qpOwned q f) then k s else s.dropF w .HIF_QP_CTL_EN [q] en

/-- QP_ENABLE (R321, R326). -/
def execQpEnable (w : Writer) (q : Fin 1024) (s : State) : Ans :=
  .next (s.qpWrite w q 1 fun s =>
    if s.on .HIF_QP_ASSIGN_VALID [q] = false then s.dropF w .HIF_QP_CTL_EN [q] 1
    else if s.sqSize q = 0 ∨ s.cqSize q = 0 then (s.wr .HIF_QP_STAT_ERR [q] 4).dropF w .HIF_QP_CTL_EN [q] 1
    else match s.qstate q with
      | 0 =>
        let s := (((s.qpDrop q).setQp q {}).wr .HIF_QP_HEAD_SQ_HEAD [q] 0).wr .HIF_QP_HEAD_CQ_TAIL [q] 0
        ((s.wr .HIF_QP_STAT_PHASE [q] 1).wr .HIF_QP_STAT_STATE [q] 1).wr .HIF_QP_CTL_EN [q] 1
      | 1 => s
      | _ => s.dropF w .HIF_QP_CTL_EN [q] 1)

/-- QP_DISABLE (R326). -/
def execQpDisable (w : Writer) (q : Fin 1024) (s : State) : Ans :=
  .next (s.qpWrite w q 0 fun s =>
    let s := s.wr .HIF_QP_CTL_EN [q] 0
    match s.qstate q with
    | 1 => s.wr .HIF_QP_STAT_STATE [q] (if (s.qp q).jobs.isEmpty then 0 else 2)
    | 3 => ((s.qpDrop q).wr .HIF_QP_STAT_ERR [q] 0).wr .HIF_QP_STAT_STATE [q] 0
    | _ => s)

/-! ## Descriptors: their form (R328, R329) -/

/-- Does `[a, a + n)` stay in allocated parts of a local window (R97)? -/
def loadRangeOk (a n : Nat) : Bool :=
  n == 0 || decide (a + n ≤ 0x44400) || (decide (0x80000 ≤ a) && decide (a + n ≤ 0xC0000))

/-- Is a LANE_CMD pair offset in the lane registers (R329)? -/
def lanePairOk (off : Nat) : Bool := decide (0x100000 ≤ off) && decide (off ≤ 0x13FFFC) && off % 4 == 0

/-- Is word `i` of descriptor `d` in error (R329)? -/
def State.wordBad (s : State) (d i : Nat) : Bool :=
  let x := dWord d i
  let z := x ≠ 0
  if i = 0 then
    bitsOf d 12 4 ≠ 0 || !([0, 1, 2, 3, 0x10, 0x11, 0x12, 0x13, 0x20, 0x30, 0x40, 0x50, 0x60].contains (dOPC d))
  else match dOPC d with
    | 0x01 => if i = 1 ∨ i = 4 then x % 64 ≠ 0 else 6 ≤ i && z
    | 0x02 => if i = 1 ∨ i = 2 then x % 64 ≠ 0 else 6 ≤ i && z
    | 0x03 => if i = 1 ∨ i = 2 ∨ i = 4 then x % 64 ≠ 0 else 6 ≤ i && z
    | 0x10 =>
      if i = 1 then x % 64 ≠ 0
      else if i = 4 then x % 64 ≠ 0 || !loadRangeOk (dDST d) (dLEN d)
      else if i = 6 then 128 ≤ x
      else 5 < i && z
    | 0x11 => if 6 ≤ i ∧ i ≤ 8 then false else if i = 9 then 4 ≤ x else z
    | 0x12 => if 6 ≤ i ∧ i ≤ 8 then false else if i = 9 then 2 ≤ x else z
    | 0x13 =>
      if i = 1 then x % s.recSize (dWord d 6 % 128) ≠ 0
      else if i = 4 ∨ i = 5 then false else if i = 6 then 128 ≤ x else z
    | 0x20 => if i ≤ 3 then false else if i = 6 then 2 ≤ x else z
    | 0x30 =>
      if i = 6 then x - (x &&& 0x177) ≠ 0 || 4 < bitsOf x 4 3
      else if 8 ≤ i ∧ i < 8 + 2 * bitsOf (dWord d 6) 4 3 then i % 2 == 0 && !lanePairOk x
      else z
    | 0x40 =>
      let sub := bitsOf (dWord d 6) 0 4
      if i = 1 then x ≠ (if sub = 1 then 16 else 0)
      else if i = 4 ∨ i = 5 then sub ≠ 1 && z
      else if i = 6 then x - (x &&& 0x10F) ≠ 0 || !([1, 2, 3].contains sub)
      else if 8 ≤ i ∧ i ≤ 10 then false else z
    | 0x60 =>
      if i = 1 then 4096 < x else if i ≤ 5 then false else if i = 6 then x = 0 || 4096 < x else z
    | _ => z

/-- The first word of a descriptor found in error (R329). -/
def State.firstBad (s : State) (d : Nat) : Option Nat := (List.range 16).find? (fun i => s.wordBad d i)

/-! ## Fetching (R319, R338, R340, R343, R344) -/

/-- Descriptors in progress in the whole device. -/
def State.allJobs (s : State) : Nat := (s.qps.map (fun e => e.2.jobs.length)).sum

/-- May the ring engine read a descriptor of queue pair `q`? -/
def State.canFetch (s : State) (q : Nat) : Bool :=
  s.qstate q == 1 && s.sqLevel q != 0 && s.on .HIF_FN_STAT_BME [s.rd .HIF_QP_ASSIGN_FN [q]] &&
    decide ((s.qp q).jobs.length < 64) && decide (s.allJobs < 4096) && !s.cqFull q

/-- The queue pair whose turn it is (R340). -/
def State.fetchTurn (s : State) : Option Nat :=
  let cs := (List.range 1024).filter s.canFetch
  let top := (cs.map (fun q => s.rd .HIF_QP_CTL_PRIO [q])).foldl max 0
  let cs := cs.filter (fun q => s.rd .HIF_QP_CTL_PRIO [q] = top)
  match cs.find? (fun q => smGet s.rot [top] 1024 < q) with
  | some q => some q
  | none => cs.head?

/-- DESCRIPTOR_FETCH (R325, R338 to R340, R344): `desc` is what the host memory holds there, none where the read fails on
the link. -/
def execDescriptorFetch (desc : Option (BitVec 512)) (s : State) : Ans :=
  match s.fetchTurn with
  | none => .next s
  | some q =>
    let s := { s with rot := smPut s.rot [s.rd .HIF_QP_CTL_PRIO [q]] q 1024 }
    match desc with
    | none => .next (s.qpError q 1)
    | some d =>
      let d := d.toNat
      let h := s.rd .HIF_QP_HEAD_SQ_HEAD [q]
      let x := s.qp q
      let p := if x.chain then (if x.jobs.isEmpty then x.last else 0) else 1
      let j : Job := { idx := h, d := d, linked := x.chain, pred := p, bad := s.firstBad d }
      let s := s.setQp q { x with jobs := x.jobs ++ [j], chain := dCHAIN d, last := 0 }
      .next ((s.wr .HIF_QP_HEAD_SQ_HEAD [q] ((h + 1) % s.sqSize q)).settle q 65)

/-! ## Starting a descriptor -/

/-- Start the next descriptor of queue pair `q` if it has opcode `opc`: `k` is given its position, its words and the
function of the queue pair. -/
def State.startOp (s : State) (q opc : Nat) (k : Nat → Nat → Nat → State → State) : State :=
  match s.nextJob q with
  | none => s
  | some (n, j) =>
    if dOPC j.d = opc ∧ j.bad = none ∧ j.pred = 1 then
      k n j.d (s.rd .HIF_QP_ASSIGN_FN [q]) (s.setJob q n { j with st := 1 })
    else s

/-- Nothing to do but to complete (R338). -/
def State.runNop (s : State) (q opc : Nat) : State := s.startOp q opc fun n _ _ s => s.jobDone q n 0 0 0

/-- NOP (R338). -/
def execNop (q : Fin 1024) (s : State) : Ans := .next (s.runNop q 0x00)

/-- FENCE (R338): it starts only when every earlier descriptor has completed. -/
def execFence (q : Fin 1024) (s : State) : Ans := .next (s.runNop q 0x50)

/-- Set the lines that a running descriptor has to move. -/
def State.jobLines (s : State) (q n k size base : Nat) : State :=
  match (s.qp q).jobs[n]? with
  | some j => s.setJob q n { j with k := k, size := size, base := base, n := 0 }
  | none => s

/-- A transfer begins, or is of length 0 (R8, R330). -/
def State.runMove (s : State) (q opc : Nat) : State :=
  s.startOp q opc fun n d _ s => if dLEN d = 0 then s.jobDone q n 4 0 0 else s.jobLines q n (dLEN d / 64) 64 0

/-- H2D (R330). -/
def execH2d (q : Fin 1024) (s : State) : Ans := .next (s.runMove q 0x01)

/-- D2H (R330). -/
def execD2h (q : Fin 1024) (s : State) : Ans := .next (s.runMove q 0x02)

/-- D2D (R330). -/
def execD2d (q : Fin 1024) (s : State) : Ans := .next (s.runMove q 0x03)

/-- The engine of ENG_LOAD and FAIL_DRAIN is in service and usable (R331, R333): else the descriptor ends. -/
def State.engineFor (s : State) (q n e f : Nat) (k : State → State) : State :=
  if s.up (engDie e) = false then s.jobDone q n 2 e 0
  else if s.usable e f = false then s.jobDone q n 1 e 0
  else k s

/-- ENG_LOAD (R331). -/
def execEngLoad (q : Fin 1024) (s : State) : Ans :=
  .next (s.startOp q 0x10 fun n d f s => s.engineFor q n (dWord d 6) f fun s =>
    if dLEN d = 0 then s.jobDone q n 4 0 0 else s.jobLines q n (dLEN d / 64) 64 0)

/-- A drain runs on engine `e` (R333). -/
def State.draining (s : State) (e : Nat) : Bool :=
  s.qps.any (fun x => x.2.jobs.any (fun j => j.st = 1 && dOPC j.d = 0x13 && dWord j.d 6 = e))

/-- FAIL_DRAIN (R333): both counts are taken now; with nothing to copy it is done. A second drain of an engine waits. -/
def execFailDrain (q : Fin 1024) (s : State) : Ans :=
  match s.nextJob q with
  | none => .next s
  | some (_, j) =>
    if s.draining (dWord j.d 6) then .next s
    else .next (s.startOp q 0x13 fun n d f s => s.engineFor q n (dWord d 6) f fun s =>
      let e := dWord d 6
      let k := if s.ringLog2 e = 0 then 0 else min (dLEN d / s.recSize e) (s.ringLevel e)
      if k = 0 then s.jobDone q n 0 0 0 else s.jobLines q n k (s.recSize e) (s.rd .FC_RING_RD_COUNT [e]))

/-! ## Moving lines (R319, R330, R331, R333) -/

/-- What the host or the user design answers to one line: the data and the status of a read, the status of a write, and
whether a read of host memory ends with a PCIe error. -/
structure LineEnv where
  data : Nat
  rd : Nat
  wr : Nat
  fault : Bool
  deriving DecidableEq, Repr

/-- Read a line of device memory for function `f`; a line of an engine that `f` may not use is refused. -/
def State.lineRead (s : State) (f g : Nat) (v : LineEnv) : Nat × Nat × State :=
  if s.lineRefused f g then (0, 1, s.refuse19 (ringMst f) g 1) else s.gRead (lineMst f g) g (v.data, v.rd)

/-- Write a line of device memory for function `f`. -/
def State.lineWrite (s : State) (f g data : Nat) (v : LineEnv) : Nat × State :=
  if s.lineRefused f g then (1, s.refuse19 (ringMst f) g 1) else s.gWrite (lineMst f g) g data false v.wr

/-- Send a line to host memory. -/
def State.hostLine (s : State) (f a data : Nat) : State := s.hostData f (a % 2 ^ 64) (natLe data 64)

/-- One line of a running descriptor: its status, detail and state. -/
def State.moveLine (s : State) (f : Nat) (j : Job) (v : LineEnv) : Nat × Nat × State :=
  let o := 64 * j.n
  let d := j.d
  match dOPC d with
  | 0x01 =>
    if v.fault then (8, 0, s)
    else
      let (c, s) := s.lineWrite f (dDST d + o) (v.data % 2 ^ 512) v
      (c, 0, s)
  | 0x02 =>
    let (x, c, s) := s.lineRead f (dSRC d + o) v
    (c, 0, if c = 0 then s.hostLine f (dDST d + o) x else s)
  | 0x03 =>
    let (x, c, s) := s.lineRead f (dSRC d + o) v
    if c ≠ 0 then (c, 0, s)
    else
      let (c, s) := s.lineWrite f (dDST d + o) x v
      (c, 0, s)
  | 0x10 =>
    let e := dWord d 6
    if s.up (engDie e) = false then (2, e, s)
    else if v.fault then (8, 0, s)
    else
      let (c, s) := s.gWrite (ringMst f) (0x018000000000 + e * 0x100000 + dDST d + o) (v.data % 2 ^ 512) false 0
      (c, 0, s)
  | _ =>
    let e := dWord d 6
    if s.up (engDie e) = false then (2, e, s)
    else
      let g := s.ringBase e + (j.base + o / j.size) % 2 ^ s.ringLog2 e * j.size + o % j.size
      let (x, c, s) := s.gRead (ringMst f) g (v.data, v.rd)
      (c, 0, if c = 0 then s.hostLine f (dDST d + o) x else s)

/-- Lines that a running descriptor moves in all. -/
def Job.lines (j : Job) : Nat := j.k * j.size / 64

/-- DMA_LINE_COMPLETE (R330, R331, R333): the next line of the descriptor at position `n` of queue pair `q`. -/
def execDmaLineComplete (q : Fin 1024) (n : Fin 64) (data : BitVec 512) (rd wr : Fin 4) (fault : Bool) (s : State) : Ans :=
  let f := s.rd .HIF_QP_ASSIGN_FN [q.val]
  match (s.qp q).jobs[n.val]? with
  | none => .next s
  | some j =>
    if j.st = 1 ∧ [1, 2, 3, 0x10, 0x13].contains (dOPC j.d) ∧ j.n < j.lines ∧ s.on .HIF_FN_STAT_BME [f] then
      let (c, e, s) := s.moveLine f j { data := data.toNat, rd := rd, wr := wr, fault := fault }
      if c ≠ 0 then .next (s.jobDone q n c e (64 * j.n))
      else
        let s := s.setJob q n { j with n := j.n + 1 }
        if j.n + 1 = j.lines then
          let s := if dOPC j.d = 0x13 then
              s.wr .FC_RING_RD_COUNT [dWord j.d 6] (s.rd .FC_RING_RD_COUNT [dWord j.d 6] + j.k)
            else s
          .next (s.jobDone q n 0 0 (64 * j.lines))
        else .next s
    else .next s

/-! ## Engines (R332) -/

/-- The engines of a mask in words 6 to 8. -/
def maskEngines (d : Nat) : List Nat := (List.range 96).filter (fun e => d.testBit (192 + e))

/-- The first check that fails, with the lowest engine that fails it (R332). -/
def State.engChecks (s : State) (es : List Nat) (f : Nat) (start : Bool) : Option (Nat × Nat) :=
  match es.find? (fun e => !s.up (engDie e)) with
  | some e => some (2, e)
  | none => match es.find? (fun e => !s.usable e f) with
    | some e => some (1, e)
    | none => match es.find? (fun e => start && !([0, 6, 7, 8].contains (s.estate e))) with
      | some e => some (7, e)
      | none => none

/-- Check the engines of a mask and give each the command, in ascending order. -/
def State.runEngines (s : State) (q opc : Nat) (cmd : Nat → Nat → Writer → State → State) : State :=
  s.startOp q opc fun n d f s =>
    let es := maskEngines d
    match s.engChecks es f (opc == 0x11) with
    | some (c, e) => s.jobDone q n c e 0
    | none => es.foldl (fun s e => cmd d e (if h : f < 8 then .ring ⟨f, h⟩ else .other) s) s

/-- ENG_START (R332). -/
def execEngStart (q : Fin 1024) (s : State) : Ans :=
  .next (s.runEngines q 0x11 fun d e w s =>
    if d.testBit 288 then s.engCmd w e 2 (·.engStart e true) [0, 6, 7, 8] else s.engCmd w e 1 (·.engStart e false) [0, 6, 7, 8])

/-- ENG_STOP (R332). -/
def execEngStop (q : Fin 1024) (s : State) : Ans :=
  .next (s.runEngines q 0x12 fun d e w s =>
    if d.testBit 288 then s.engCmd w e 7 (·.engReset e) [0, 1, 2, 3, 4, 5, 6, 7, 8] else s.engCmd w e 3 (·.engStop e) [1, 2, 3, 4, 5])

/-- Has an engine reached what ENG_START waits for (R332)? -/
def State.engReached (s : State) (e : Nat) (atEnd : Bool) : Bool :=
  (s.engine e).startPend == 0 && (if atEnd then [6, 7, 8].contains (s.estate e) else decide (2 ≤ s.estate e))

/-- The end of a running ENG_START or ENG_STOP, if it has come: status and detail (R332, R419). -/
def State.enginesEnd (s : State) (d : Nat) : Option (Nat × Nat) :=
  let es := maskEngines d
  match es.find? (fun e => !s.up (engDie e)) with
  | some e => some (2, e)
  | none =>
    let done := if dOPC d = 0x11 then es.all (fun e => s.engReached e (d.testBit 289))
      else es.all (fun e => [0, 6, 7, 8].contains (s.estate e))
    if done then
      match es.find? (fun e => s.estate e = 8) with
      | some e => some (if s.rd .ENG_FAULT_CODE [e] = 13 then 5 else 7, e)
      | none => some (0, 0)
    else none

/-! ## The wait of LANE_CMD (R335, R292, R307) -/

/-- Bundles and trunk lanes of die `n` whose control register a LANE_CMD writes. -/
def cmdOffsets (d : Nat) : List Nat := (List.range (bitsOf (dWord d 6) 4 3)).map (fun i => dWord d (8 + 2 * i))
def cmdBundles (n d : Nat) : List Nat :=
  (List.range (laneCount n / 8)).filter (fun b => (cmdOffsets d).contains (0x100000 + b * 0x100)) |>.map
    (fun b => laneGlobal n (8 * b) / 8)
def cmdTrunks (n d : Nat) : List Nat :=
  if n % 2 = 1 then
    (List.range 8).filter (fun t => (cmdOffsets d).contains (0x130000 + t * 0x400)) |>.map (fun t => trunkGlobal n t)
  else []

/-- The end of a LANE_CMD that waits, if it has come. -/
def State.laneEnd (s : State) (d : Nat) : Option (Nat × Nat) :=
  let n := dWord d 6 % 8
  let bs := cmdBundles n d
  let ts := cmdTrunks n d
  if s.up n = false then some (2, 0)
  else if bs.all (fun b => [4, 5].contains (s.rd .CL_BND_STAT_STATE [b])) ∧
      ts.all (fun t => [0, 3, 4].contains (s.rd .TR_STAT_STATE [t])) then
    if bs.any (fun b => s.rd .CL_BND_STAT_STATE [b] = 5 && s.rd .CL_BND_STAT_TRN_ERR [b] = 4) ∨
        ts.any (fun t => s.on .TR_CTL_EN [t] && s.rd .TR_STAT_STATE [t] = 0) then some (5, 0)
    else if bs.any (fun b => s.rd .CL_BND_STAT_STATE [b] = 5) then some (7, 0)
    else some (0, 0)
  else none

/-- A running descriptor that waits for something outside the rings ends when that has come. -/
def State.jobWaits (s : State) (q n : Nat) : State :=
  match (s.qp q).jobs[n]? with
  | none => s
  | some j =>
    let r := if j.st ≠ 1 then none
      else if dOPC j.d = 0x11 ∨ dOPC j.d = 0x12 then s.enginesEnd j.d
      else if dOPC j.d = 0x30 then s.laneEnd j.d
      else none
    match r with
    | some (c, e) => s.jobDone q n c e 0
    | none => s

/-! ## Completions (R341, R343 to R345) -/

/-- The sixteen bytes of an entry (R341). -/
def entryBytes (j : Job) (sqHead q phase : Nat) : List Byte :=
  natLe (dTAG j.d + j.status % 256 * 2 ^ 16 + j.detail % 256 * 2 ^ 24) 4 ++ natLe j.bytes 4 ++
    natLe (sqHead + q * 2 ^ 16 + phase * 2 ^ 31) 4 ++ natLe j.idx 4

/-- Write the entry of an ended descriptor; `ok`: the write does not fail on the link. -/
def State.writeEntry (s : State) (q n : Nat) (j : Job) (ok : Bool) : State :=
  if ok = false then ((s.jobGone q n).qpError q 2).settle q 65
  else
    let f := s.rd .HIF_QP_ASSIGN_FN [q]
    let t := s.rd .HIF_QP_HEAD_CQ_TAIL [q]
    let p := s.rd .HIF_QP_STAT_PHASE [q]
    let t' := (t + 1) % s.cqSize q
    let s := s.emit (.hostWrite (portOf f) f (s.cqBase q + 16 * t) false (entryBytes j (s.rd .HIF_QP_HEAD_SQ_HEAD [q]) q p))
    let s := s.wr .HIF_QP_HEAD_CQ_TAIL [q] t'
    let s := if t' = 0 then s.wr .HIF_QP_STAT_PHASE [q] (1 - p) else s
    let s := if dIRQ j.d || s.on .HIF_QP_CTL_IRQ_ALL [q] || j.status != 0 then s.raiseQp q else s
    (s.jobGone q n).settle q 65

/-- COMPLETION_WRITE (R343 to R345): the entry of the descriptor at position `n` of queue pair `q`, once it has ended and
the CQ has room. -/
def execCompletionWrite (q : Fin 1024) (n : Fin 64) (ok : Bool) (s : State) : Ans :=
  let s := s.jobWaits q n
  match (s.qp q).jobs[n.val]? with
  | none => .next s
  | some j =>
    if j.st = 2 ∧ s.on .HIF_FN_STAT_BME [s.rd .HIF_QP_ASSIGN_FN [q.val]] ∧ s.cqFull q = false then
      .next (s.writeEntry q n j ok)
    else .next s

/-- MSIX_HOLDOFF_EXPIRY (R345). -/
def execMsixHoldoffExpiry (f : Fin 8) (v : Fin 1024) (s : State) : Ans :=
  match (s.vec f v).due with
  | some t => .next ((s.lapseTo t).sendVec f v)
  | none => .next s

/-! ## CFG_LOAD (R334) -/

/-- CFG_LOAD (R334, R413): one load at a time, behind the autoload, in the order in which they reached the head of their queue pairs. `hdr`: the
header that the host returns, none for a PCIe error; `unwrap`: the image key unwraps. -/
def execCfgLoad (q : Fin 1024) (hdr : Option (BitVec 2048)) (unwrap : Bool) (s : State) : Ans :=
  if s.cfgLoad.phase = 0 ∧ s.auto.isNone then
    match s.cfgWait with
    | (q', idx) :: _ =>
      if q' = q.val then
        .next (s.startOp q 0x20 fun n d f s =>
          if (s.rd .HIF_CFG_FN_MASK []).testBit f = false then
            ({ s with cfgWait := s.cfgWait.tail } : State).jobDone q n 1 0 0
          else s.cfgBegin (some (q.val, idx)) (d.testBit 192) (dLEN d) 0 (hdr.map (·.toNat)) unwrap)
      else .next s
    | [] => .next s
  else .next s

/-! ## The mailbox (R337) -/

/-- `CODE` of a request (R508). -/
def mailCode (req : List Byte) : Nat := leNat (req.take 2)

/-- The messages that Dvorkenor and the Lodestar answer (R455, R510). -/
def knownCode (c : Nat) : Bool := (0x0101 ≤ c && c ≤ 0x0109) || (0x0201 ≤ c && c ≤ 0x0207)

/-- The bytes of a reply within the limit (R508). -/
def replyBytes (code rst : Nat) (body : List Byte) (limit : Nat) : List Byte :=
  let r := if limit < 8 + body.length then 6 else rst
  (natLe code 2 ++ natLe r 2 ++ natLe 0 4 ++ body).take limit

/-- The reply of a function's exchange goes to `DST`, and its descriptor completes with OK (R337, R508). -/
def State.fnAnswer (s : State) (m : Mail) (rst : Nat) (body : List Byte) : State :=
  match s.jobAt m.q m.idx with
  | some n =>
    let bs := replyBytes (mailCode m.req) rst body m.limit
    (s.hostData m.src m.dst bs).jobDone m.q n 0 0 bs.length
  | none => s

/-- A request that gets its answer at once: one shorter than a header, or of an unknown code (R508). -/
def mailBounce (req : List Byte) : Nat := if req.length < 8 then 3 else if knownCode (mailCode req) then 0 else 1

/-- MAILBOX (R337): the request is read (`req`: none for a PCIe error) and delivered to Dvorkenor. -/
def execMailbox (q : Fin 1024) (req : Option (List (BitVec 8))) (s : State) : Ans :=
  .next (s.startOp q 0x60 fun n d f s =>
    if dLEN d = 0 then s.jobDone q n 4 0 0
    else match req with
      | none => s.jobDone q n 8 0 0
      | some r =>
        let idx := ((s.qp q).jobs[n]?.map (·.idx)).getD 0
        let m : Mail := { src := f, q := q, idx := idx, req := r.take (dLEN d), limit := dWord d 6, dst := dDST d, t := s.now }
        if mailBounce m.req = 0 then { s with mail := s.mail ++ [m] } else s.fnAnswer m (mailBounce m.req) [])

/-- MAILBOX_TIMEOUT (R337): exchange `n` has not been answered within 1 s. A helm core's ends with ABORTED too (R482). -/
def execMailboxTimeout (n : Fin 2048) (s : State) : Ans :=
  match s.mail[n.val]? with
  | none => .next s
  | some m =>
    let s := { (s.lapseTo (m.t + 1000000000)) with mail := s.mail.eraseIdx n.val }
    if m.src < 8 then
      match s.jobAt m.q m.idx with
      | some n => .next (s.jobDone m.q n 5 0 0)
      | none => .next s
    else .next (s.setHelm (m.src - 8) { s.helmRt (m.src - 8) with mbx := some (5, 0) })

/-! ## The BAR4 window (R320) -/

/-- Global address of an offset of function `f`'s window. -/
def State.bar4 (s : State) (f off : Nat) : Nat := s.rd .HIF_BAR4_GIB [f] * 2 ^ 30 + off

/-- BAR4_READ (R320): the bytes go to the host, and all ones where a line is refused or poisoned. -/
def execBar4Read (f : Fin 8) (off : BitVec 36) (n : Fin 4097) (s : State) : Ans :=
  let m := bridgeMst (portOf f) f
  let (bs, s) := (linePieces (s.bar4 f off.toNat) n).foldl (fun (acc : List Byte × State) p =>
    let (x, c, s) := acc.2.gRead m p.1 (0, 0)
    (acc.1 ++ (if c = 0 then (natLe x 64).drop p.2.1 |>.take p.2.2 else List.replicate p.2.2 0xFF), s)) ([], s)
  .next (({ s with answer := leNat bs } : State).emit (.readReply f (leNat bs) 0))

/-- BAR4_WRITE (R320): whole lines are written, parts of lines by read, merge and write. -/
def execBar4Write (f : Fin 8) (off : BitVec 36) (bs : List (BitVec 8)) (s : State) : Ans :=
  if s.on .HIF_FN_STAT_FLR_BUSY [f] then .next s
  else
    let m := bridgeMst (portOf f) f
    let a := s.bar4 f off.toNat
    .next ((linePieces a bs.length).foldl (fun s p =>
      let part := (bs.drop (p.1 + p.2.1 - a)).take p.2.2
      if p.2.2 = 64 then (s.gWrite m p.1 (leNat part) false 0).2
      else
        let (x, c, s) := s.gRead m p.1 (0, 0)
        if c = 0 then (s.gWrite m p.1 (mergeLine x p.2.1 part) false 0).2
        else s.raise .HIF_BAR4 [f] 320 2 [f, p.1, c]) s)

/-! ## Resets of a function (R319, R347) -/

/-- The fields of class FN that a reset of function `f` clears; `own q`: the queue pair is `f`'s. -/
def fnClears (f : Nat) (own : Nat → Bool) (fl : Fld) (i : List Nat) : Bool :=
  fl.spec.cls == .fn && (match i with
    | [x] => if fl.reg = .HIF_BAR4 then x == f else own x
    | _ => false)

/-- Everything that a function-level reset does at once (R347, R445). -/
def State.fnReset (s : State) (f : Nat) : State :=
  let own (q : Nat) : Bool := s.qpOwned q f
  let qs := (List.range 1024).filter own
  let s := s.cfgOrphan f
  let s := qs.foldl (fun s q => (s.qpDrop q).setQp q {}) s
  let s := { s with mail := s.mail.filter (fun m => m.src ≠ f) }
  let s := if s.on .HIF_FN_CTL_FLR_ENG [f] then
      (List.range 96).foldl (fun s e =>
        if s.usable e f ∧ s.up (engDie e) ∧ [1, 2, 3, 4, 5].contains (s.estate e) then s.engStop e else s) s
    else s
  let s := { s with
    vecs := smKeep s.vecs (fun i => i.headD 8 ≠ f)
    sessions := s.sessions.filter (fun e => match e.2 with
      | some x => x.owner ≠ f
      | none => false) }
  s.clearRegs (fnClears f own)

/-- A reset of function `f` is initiated; one under way goes on. -/
def State.flr (s : State) (f : Nat) : State :=
  if s.on .HIF_FN_STAT_FLR_BUSY [f] then s else (s.wr .HIF_FN_STAT_FLR_BUSY [f] 1).fnReset f

/-- FUNCTION_LEVEL_RESET (R347); entering D3hot does the same (R319). -/
def execFunctionLevelReset (f : Fin 8) (s : State) : Ans := .next (s.flr f)

/-- FLR_DONE (R347). -/
def execFlrDone (f : Fin 8) (s : State) : Ans :=
  if s.on .HIF_FN_STAT_FLR_BUSY [f] then
    .next ((s.wr .HIF_FN_STAT_FLR_BUSY [f] 0).wr .HIF_FN_STAT_FLR_CNT [f] (s.rd .HIF_FN_STAT_FLR_CNT [f.val] + 1))
  else .next s

/-- BUS_MASTER_DISABLE (R319): the host's write of Bus Master Enable; `on` is the value written. Messages held back go out
when it returns. -/
def execBusMasterDisable (f : Fin 8) (on : Bool) (s : State) : Ans :=
  let s := s.wr .HIF_FN_STAT_BME [f] (if on then 1 else 0)
  if on then
    .next ((s.vecs.filter (fun e => e.1.headD 8 = f.val && e.2.pend && !e.2.masked)).foldl
      (fun s e => s.sendVec f (e.1.getD 1 0)) s)
  else .next s

/-- PCIE_LINK_DOWN (R319, R395): a function-level reset of the four functions; the training permit returns. -/
def execPcieLinkDown (p : Fin 2) (s : State) : Ans :=
  let s := { s.giveBack 8 17 [p] with pcie := smPut s.pcie [p.val] 0 0 }
  .next ((List.range 4).foldl (fun s i => s.flr (4 * p.val + i)) s)

/-- PCIE_LINK_UP (R395): the training permit returns, and the recovered clock can be selected. -/
def execPcieLinkUp (p : Fin 2) (s : State) : Ans :=
  if smGet s.pcie [p.val] 0 = 1 then .next { s.giveBack 8 17 [p] with pcie := smPut s.pcie [p.val] 2 0 } else .next s

end Sys2Proof.Machine
end

