-- ==== Sys2Proof/Machine/Sextant.lean ====
section
/-! DEFINITION. The Sextant time unit: steps and sets, the rate, PTP stamps and residences, the servo's measurements, the
PPS pin, and the TIME descriptors (Sextant Time Unit, R336). -/

namespace Sys2Proof.Machine

/-! ## Time -/

/-- One 2^-16 ns in the units of `local_`. -/
def fracUnit : Nat := 1000000000

/-- Local time in 2^-16 ns, and its end (R352). -/
def State.time16 (s : State) : Nat := s.local_ / fracUnit
def time16Wrap : Nat := 2 ^ 48 * 1000000000 * 2 ^ 16

/-- Fields of a time in 2^-16 ns (R352). -/
def tFRAC (t : Nat) : Nat := t % 2 ^ 16
def tNS (t : Nat) : Nat := t / 2 ^ 16 % 1000000000
def tSEC (t : Nat) : Nat := t / 2 ^ 16 / 1000000000 % 2 ^ 48

/-- A two's-complement 64-bit value as an integer. -/
def sint64 (v : Nat) : Int := if v < 2 ^ 63 then (v : Int) else (v : Int) - 2 ^ 64

/-- May the writer write the Sextant region (R367)? -/
def State.sxWriter (s : State) (w : Writer) : Bool := s.isAdminW w || s.isHelmW w || w == .binnacle

/-- A port is UNCALIBRATED or SLAVE (R355). -/
def State.sxSlaved (s : State) : Bool :=
  (List.range 2).any (fun p => s.rd .SX_PORT_STAT_PSTATE [p] = 8 || s.rd .SX_PORT_STAT_PSTATE [p] = 9)

/-! ## Steps and sets (R355, R356) -/

/-- The time that a request leads to, as of now (R355). -/
def State.sxResult (s : State) (r : SxReq) : Int := if r.set_ then r.val else (s.time16 : Int) + r.val

/-- The checks of R355 in order: 0, or `REF_CODE`. A step of offset 0 passes every one. -/
def State.sxCheck (s : State) (r : SxReq) : Nat :=
  let t := s.sxResult r
  let off := t - (s.time16 : Int)
  let thr := s.rd .SX_STEP_THR_THR []
  if r.set_ = false ∧ r.val = 0 then 0
  else if s.on .SX_CTL_SERVO [] = false ∧ r.src ≠ 2 ∧ s.sxSlaved then 3
  else if t < 0 ∨ (time16Wrap : Int) ≤ t then 2
  else if r.force = false ∧ thr ≠ 0 ∧ s.on .SX_STAT_VALID [] ∧ thr * 2 ^ 16 < off.natAbs then 1
  else 0

/-- The TIME descriptor of a request ends. -/
def State.sxJob (s : State) (r : SxReq) (status : Nat) : State :=
  if r.src = 1 then
    match s.jobAt r.q r.idx with
    | some n => s.jobDone r.q n status 0 0
    | none => s
  else s

/-- Check the requests in order of arrival until one is accepted (R355). -/
def State.sxNext (s : State) : Nat → State
  | 0 => s
  | fuel + 1 =>
    match s.sxq with
    | [] => s
    | r :: rest =>
      if r.t.isSome then s
      else
        let c := s.sxCheck r
        if c = 0 then { s.wr .SX_STEP_CMD_BUSY [] 1 with sxq := { r with t := some s.now } :: rest }
        else
          let s := { s with sxq := rest }
          let s := ((s.wr .SX_STAT_STEP_REF [] 1).wr .SX_STAT_REF_CODE [] c).raise .SX_STAT [] 355 2 [c, r.src]
          (s.sxJob r 7).sxNext fuel

/-- A request reaches the unit. -/
def State.sxRequest (s : State) (r : SxReq) : State := ({ s with sxq := s.sxq ++ [r] } : State).sxNext (s.sxq.length + 1)

/-- What a hub warm reset leaves of the requests: an accepted one, its descriptor gone (R356). -/
def State.sxKept (s : State) : List SxReq :=
  (s.sxq.filter fun (r : SxReq) => r.t.isSome).map fun (r : SxReq) => { r with src := 0 }

/-- The value of the step registers (R370): unsigned for a set, two's complement for a step. -/
def State.sxStepVal (s : State) (set_ : Bool) : Int :=
  let ns : Nat := s.rd .SX_STEP_NS_LO_NS [] + s.rd .SX_STEP_NS_HI_NS [] * 2 ^ 32
  (if set_ then (ns : Int) else sint64 ns) * 2 ^ 16 + ((s.rd .SX_STEP_FRAC_FRAC [] : Nat) : Int)

/-- A write of `SX_STEP_CMD` (R355, R367, R370). -/
def State.sxStepCmd (s : State) (w : Writer) (cmd : Nat) (force : Bool) : State :=
  let v := cmd + (if force then 4 else 0)
  s.reach w .SX_STEP_CMD [] v fun s =>
    if s.sxWriter w = false ∨ s.on .SX_STEP_CMD_BUSY [] then s.drop w .SX_STEP_CMD [] v
    else s.sxRequest { set_ := cmd == 2, val := s.sxStepVal (cmd == 2), force := force, src := if w = .binnacle then 2 else 0 }

/-- STEP (R355). -/
def execStep (w : Writer) (force : Bool) (s : State) : Ans := .next (s.sxStepCmd w 1 force)

/-- SET (R355). -/
def execSet (w : Writer) (force : Bool) (s : State) : Ans := .next (s.sxStepCmd w 2 force)

/-- STEP_APPLY (R356, R289): at the tick 1 µs after acceptance every tap takes the new time; 20 ns later the request is
complete, and the next one is checked. -/
def execStepApply (s : State) : Ans :=
  match s.sxq with
  | [] => .next s
  | r :: rest =>
    match r.t with
    | none => .next s
    | some t =>
      let s := s.lapseTo (t + 1000)
      let new := ((if r.set_ then r.val * fracUnit else (s.local_ : Int) + r.val * fracUnit) % (localWrap : Int)).toNat
      let s := { s with local_ := new, sxq := rest, anchorE := s.now, anchorT := new / nsUnit, stepN := s.stepN + 1 }
      let s := (List.range 28).foldl (fun s b => s.wr .CL_BND_STAT_GRID [b] 0) s
      let s := s.lapse 20
      let s := ((s.wr .SX_STAT_VALID [] 1).incr .SX_STAT_STEPS []).wr .SX_STEP_CMD_BUSY [] 0
      .next ((s.sxJob r 0).sxNext (rest.length + 1))

/-! ## Rate and control (R353, R355, R369) -/

/-- The servo keeps the rate from everyone else (R355). -/
def State.adjClosed (s : State) (w : Writer) : Bool := !s.on .SX_CTL_SERVO [] && s.sxSlaved && w != .binnacle

/-- SX_ADJ_WRITE (R353, R355, R367). -/
def execSxAdjWrite (w : Writer) (v : BitVec 32) (s : State) : Ans :=
  .next (s.reach w .SX_ADJ [] v.toNat fun s =>
    if s.sxWriter w = false ∨ s.adjClosed w then s.drop w .SX_ADJ [] v.toNat else s.wr .SX_ADJ_RATE [] v.toNat)

/-- SX_CTL_WRITE (R369). -/
def execSxCtlWrite (w : Writer) (v : BitVec 32) (s : State) : Ans :=
  .next (s.reach w .SX_CTL [] v.toNat fun s =>
    if s.sxWriter w = false then s.drop w .SX_CTL [] v.toNat
    else
      let x := v.toNat
      let fs : List (Fld × Nat) := [(.SX_CTL_OC_PORT, bitsOf x 2 1), (.SX_CTL_DELAY, bitsOf x 3 1),
        (.SX_CTL_TRANSPORT, bitsOf x 4 1), (.SX_CTL_DOMAIN, bitsOf x 8 8)]
      let same := fs.all (fun p => s.rd p.1 [] = p.2)
      let mode := s.rd .SX_CTL_MODE []
      let s' := (s.wr .SX_CTL_SERVO [] (bitsOf x 5 1)).wr .SX_CTL_SYNTONISE [] (bitsOf x 6 1)
      if mode = 0 ∨ (bitsOf x 0 2 = 0 ∧ same) then
        let s' := fs.foldl (fun s p => s.wr p.1 [] p.2) (s'.wr .SX_CTL_MODE [] (bitsOf x 0 2))
        if 128 ≤ bitsOf x 8 8 then s'.raise .SX_CTL [] 369 2 [bitsOf x 8 8] else s'
      else if same ∧ bitsOf x 0 2 = mode then s'
      else s'.drop w .SX_CTL [] x)

/-! ## Stamps (R358 to R361) -/

/-- The stamp of an event at the ball now, corrected by a signed register value (R358). -/
def State.stampAt (s : State) (corr : Int) : Nat := (((s.time16 : Int) + corr) % (time16Wrap : Int)).toNat
def State.egress (s : State) (p : Nat) : Nat := s.stampAt (sint32 (s.rd .SX_PORT_EASYM_ASYM [p]))
def State.ingress (s : State) (p : Nat) : Nat := s.stampAt (-(sint32 (s.rd .SX_PORT_IASYM_ASYM [p])))

/-- A frame is discarded or dropped, and counted. -/
def State.sxDrop (s : State) (p : Nat) : State :=
  { s with sxDiscard := smPut s.sxDiscard [p] (smGet s.sxDiscard [p] 0 + 1) 0 }

/-- Port `p` takes part: it is enabled, the unit is on, and an ordinary clock uses `OC_PORT` alone (R357, R369). -/
def State.sxRuns (s : State) (p : Nat) : Bool :=
  s.on .SX_PORT_CFG_EN [p] && s.on .SX_CTL_MODE [] && (s.rd .SX_CTL_MODE [] != 1 || s.rd .SX_CTL_OC_PORT [] == p)

/-- PTP_RX_EVENT (R358): a frame arrives at port `p`; `ptp`: it is a PTP event message of the configured domain. In
transparent mode TC_FORWARD carries it on. -/
def execPtpRxEvent (p : Fin 2) (ptp : Bool) (type : Fin 4) (seq : BitVec 16) (s : State) : Ans :=
  if s.sxRuns p = false then .next s
  else if ptp then
    .next { s with rxStamp := smPut s.rxStamp [p.val, type.val, seq.toNat] (some (s.ingress p)) none }
  else if s.rd .SX_CTL_MODE [] = 3 then .next (s.emit (.frame (1 - p) []))
  else .next (s.sxDrop p)

def State.txQueue (s : State) (p : Nat) : List TxStamp := smGet s.txq [p] []
def State.setTxQueue (s : State) (p : Nat) (l : List TxStamp) : State := { s with txq := smPut s.txq [p] l [] }

/-- A stamp enters the transmit-stamp queue, or is lost where it is full (R361). -/
def State.txStamp (s : State) (p type seq stamp : Nat) : State :=
  let l := s.txQueue p
  if l.length < 32 then s.setTxQueue p (l ++ [{ seq := seq, type := type, stamp := stamp }])
  else ((s.wr .SX_PORT_STAT_TXQ_OVF [p] 1).bump .SX_TXQ_LOST_CNT_COUNT [p]).raise .SX_PORT_STAT [p] 361 0 [p, seq]

/-- PTP_TX_EVENT (R358, R359, R361): port `p` transmits an event message now. In one-step mode a Sync carries its stamp,
and a Pdelay_Resp its turnaround, the time since the Pdelay_Req of the same sequenceId came in; every other stamp is queued. A
two-step port sets twoStepFlag. The frame shown: messageType, sequenceId, twoStepFlag, then what was inserted. -/
def execPtpTxEvent (p : Fin 2) (type : Fin 4) (seq : BitVec 16) (s : State) : Ans :=
  if s.sxRuns p = false then .next s
  else
    let e := s.egress p
    let two := s.on .SX_PORT_CFG_TWO_STEP [p]
    if two = false ∧ type.val = 0 then .next (s.emit (.frame p [0, seq.toNat, 0, tSEC e, tNS e, tFRAC e]))
    else if two = false ∧ type.val = 3 then
      let turn := match smGet s.rxStamp [p.val, 2, seq.toNat] none with
        | some i => (e + time16Wrap - i) % time16Wrap
        | none => 0
      .next (s.emit (.frame p [3, seq.toNat, 0, turn]))
    else .next ((s.emit (.frame p [type.val, seq.toNat, two.toNat])).txStamp p type seq.toNat e)

/-- TC_FORWARD (R360): a PTP message that came in at port `p` leaves by the other port. `resid` is the time between the two
balls by the elapsed count in 2^-16 ns, `corr` its correctionField, `two` its twoStepFlag, `full`: the far transmit queue is
full. Types 0 to 3 are the event messages, 8 Follow_Up, 10 Pdelay_Resp_Follow_Up. The frame shown: messageType,
sourcePortIdentity, sequenceId, correctionField, and 1 where the UDP checksum is set to 0: on the event messages of a one-step
port over UDP (R357). -/
def execTcForward (p : Fin 2) (type : Fin 16) (ident : BitVec 80) (seq : BitVec 16) (corr : BitVec 64) (resid : Nat)
    (two full : Bool) (s : State) : Ans :=
  let far := 1 - p.val
  let udp0 := type.val ≤ 3 && s.on .SX_CTL_TRANSPORT [] && !s.on .SX_PORT_CFG_TWO_STEP [far]
  let out (s : State) (c : Int) : State :=
    s.emit (.frame far [type.val, ident.toNat, seq.toNat, (c % 2 ^ 64).toNat, udp0.toNat])
  if s.rd .SX_CTL_MODE [] ≠ 3 ∨ s.sxRuns p = false ∨ s.sxRuns far = false then .next s
  else if full then .next (s.sxDrop far)
  else if type.val ≤ 3 then
    let r := (resid : Int) + sint32 (s.rd .SX_PORT_EASYM_ASYM [far]) + sint32 (s.rd .SX_PORT_IASYM_ASYM [p])
    let r := if type.val = 0 ∧ s.on .SX_CTL_DELAY [] then r + s.rd .SX_PORT_PDELAY_DELAY [p] else r
    if s.on .SX_PORT_CFG_TWO_STEP [far] ∨ (type.val = 0 ∧ two) then
      let x : Residence := { port := far, type := type, ident := ident.toNat, seq := seq.toNat, val := r, t := s.now }
      .next (out { s with residences := s.residences ++ [x] } corr.toNat)
    else .next (out s ((corr.toNat : Int) + r))
  else
    let ev := if type.val = 8 then 0 else if type.val = 10 then 3 else 16
    match s.residences.find? (fun x => x.type = ev && x.ident = ident.toNat && x.seq = seq.toNat && s.now ≤ x.t + 1000000000) with
    | some x => .next (out { s with residences := s.residences.erase x } ((corr.toNat : Int) + x.val))
    | none => .next (out s corr.toNat)

/-- RESIDENCE_TIMEOUT (R360): the oldest residence has waited 1 s. -/
def execResidenceTimeout (s : State) : Ans :=
  match s.residences with
  | [] => .next s
  | x :: rest => .next ({ (s.lapseTo (x.t + 1000000000)) with residences := rest }.bump .SX_PORT_STAT_ORPHAN [x.port])

/-- SX_TXQ_POP (R361). -/
def execSxTxqPop (w : Writer) (p : Fin 2) (s : State) : Ans :=
  .next (s.reach w .SX_TXQ_CTL [p] 1 fun s =>
    if s.sxWriter w = false ∨ (s.rd .SX_CTL_MODE [] ≠ 0 ∧ w ≠ .binnacle) then s.drop w .SX_TXQ_CTL [p] 1
    else s.setTxQueue p (s.txQueue p).tail)

/-! ## The servo (R362, R363) -/

/-- The servo asks for a step by the negated offset, forced (R362). -/
def State.servoStep (s : State) (ofs : Nat) : State :=
  s.sxRequest { set_ := false, val := -(sint64 ofs), force := true, src := 2 }

/-- SERVO_MEASUREMENT (R362): offset and path delay in 2^-16 ns; `rate` is the rate that Dvorkenor's servo sets. -/
def execServoMeasurement (ofs mpd : BitVec 64) (seq : BitVec 16) (rate : BitVec 32) (s : State) : Ans :=
  if s.rd .SX_CTL_MODE [] = 0 then .next s
  else if s.on .SX_CTL_SERVO [] then
    let s := (s.wr .SX_MEAS_OFS_LO_VALUE [] (ofs.toNat % 2 ^ 32)).wr .SX_MEAS_SEQ_NEW [] 1
    let s := { s with sxMeas := [ofs.toNat / 2 ^ 32, mpd.toNat % 2 ^ 32, mpd.toNat / 2 ^ 32, seq.toNat] }
    .next ((s.irq 64).raise .SX_MEAS_SEQ [] 362 0 [seq.toNat])
  else if s.on .SX_STAT_VALID [] = false ∧ s.rd .SX_CTL_MODE [] ≠ 3 then .next (s.servoStep ofs.toNat)
  else
    let s := s.wr .SX_ADJ_RATE [] rate.toNat
    let thr := s.rd .SX_STEP_THR_THR []
    .next (if thr * 2 ^ 16 < (sint64 ofs.toNat).natAbs ∧ thr ≠ 0 then s.raise .SX_STAT [] 362 0 [ofs.toNat] else s)

/-- PTP_PORT_STATE_CHANGE (R362, R363): the port's new portState and link; entering `PSTATE` 8, Dvorkenor's servo steps by
the offset `ofs` it has. -/
def execPtpPortStateChange (p : Fin 2) (st : Fin 10) (link : Bool) (ofs : BitVec 64) (s : State) : Ans :=
  let st := if s.on .SX_PORT_CFG_EN [p] then st.val else 0
  let old := s.rd .SX_PORT_STAT_PSTATE [p.val]
  let s := (s.wr .SX_PORT_STAT_PSTATE [p] st).wr .SX_PORT_STAT_LINK [p] (if link then 1 else 0)
  if st = 8 ∧ old ≠ 8 ∧ s.on .SX_CTL_SERVO [] = false ∧ s.rd .SX_CTL_MODE [] ≠ 3 then .next (s.servoStep ofs.toNat)
  else .next s

/-! ## The PPS pin (R366) -/

/-- PPS_PULSE: the next second boundary of local time. -/
def execPpsPulse (s : State) : Ans :=
  if s.timeRuns ∧ s.rd .SX_PPS_WIDTH [] ≠ 0 then
    let s := s.lapseToLocal ((s.localNs / 1000000000 + 1) * 1000000000)
    .next ({ s with ppsEnd := some (s.now + s.rd .SX_PPS_WIDTH [] * 1000) }.emit (.pin 0 1))
  else .next s

/-- PPS_END: the pin goes low after `WIDTH` µs. -/
def execPpsEnd (s : State) : Ans :=
  match s.ppsEnd with
  | none => .next s
  | some t => .next ({ (s.lapseTo t) with ppsEnd := none }.emit (.pin 0 0))

/-! ## TIME descriptors (R336) -/

/-- The next descriptor of queue pair `q` is a TIME descriptor with sub-operation `sub`: start it. -/
def State.runTime (s : State) (q sub : Nat) (k : Nat → Nat → Nat → State → State) : State :=
  match s.nextJob q with
  | some (_, j) => if bitsOf (dWord j.d 6) 0 4 = sub then s.startOp q 0x40 k else s
  | none => s

/-- TIME_READ: the 16-byte time record (R336). -/
def execTimeRead (q : Fin 1024) (s : State) : Ans :=
  .next (s.runTime q 1 fun n d f s =>
    let t := s.time16
    (s.hostData f (dDST d) (natLe (tNS t) 4 ++ natLe (tSEC t) 6 ++ natLe (tFRAC t) 2 ++ natLe 0 4)).jobDone
      q n 0 0 16)

/-- TIME_STEP: an administrative function asks for a step; the descriptor ends when it is applied or refused (R336). -/
def execTimeStep (q : Fin 1024) (s : State) : Ans :=
  .next (s.runTime q 2 fun n d f s =>
    if isAdmin f = false then s.jobDone q n 1 0 0
    else
      let v := sint64 (bitsOf d 256 64) * 2 ^ 16 + bitsOf d 320 16
      let idx := ((s.qp q).jobs[n]?.map (·.idx)).getD 0
      s.sxRequest { set_ := false, val := v, force := (dWord d 6).testBit 8, src := 1, q := q, idx := idx })

/-- TIME_ADJUST (R336, R353, R355). -/
def execTimeAdjust (q : Fin 1024) (s : State) : Ans :=
  .next (s.runTime q 3 fun n d f s =>
    if isAdmin f = false then s.jobDone q n 1 0 0
    else if s.adjClosed .other then s.jobDone q n 7 0 0
    else (s.wr .SX_ADJ_RATE [] (dWord d 8)).jobDone q n 0 0 0)

end Sys2Proof.Machine
end

