-- ==== Sys2Proof/Machine/Clocks.lean ====
section
/-! DEFINITION. The reference clock, spread spectrum, clock outputs, synthesizers and the voltage-frequency sequencer
(R373 to R384). -/

namespace Sys2Proof.Machine

/-! ## The reference spine (R373 to R376, R403) -/

/-- Has a selectable source a link (R373)? Sources 1 and 2 are recovered clocks of ports P0 and T0. -/
def State.srcLink (s : State) (sel : Nat) : Bool :=
  match sel with
  | 1 => smGet s.pcie [0] 0 == 2
  | 2 => s.on .SX_PORT_STAT_LINK [0]
  | _ => true

/-- A glide to the selected source begins: the spine has left the oscillator's dead reckoning (R373, R376). -/
def State.glide (s : State) : State :=
  (((s.wr .CLK_SRC_ACTIVE [] (s.rd .CLK_SRC_SEL [])).wr .CLK_SRC_GLIDING [] 1).wr .CLK_SRC_DEAD_RECK [] 0).wr
    .SX_STAT_DEAD_RECK [] 0

/-- CLK_SOURCE_SELECT (R373): in dead reckoning the spine waits for R376, before stage 3 no PLL uses it. -/
def execClkSourceSelect (w : Writer) (sel : BitVec 2) (good spread : Bool) (s : State) : Ans :=
  let word := s.wordWith .CLK_SRC [] [(.CLK_SRC_SEL, sel.toNat)]
  .next (s.reach w .CLK_SRC [] word fun s =>
    if s.srcLink sel.toNat = false ∨ (sel = 1 ∧ spread) then s.drop w .CLK_SRC [] word
    else if sel.toNat = s.rd .CLK_SRC_SEL [] then s
    else
      let s := (s.wr .CLK_SRC_SEL [] sel.toNat).wr .CLK_MON_REF_OK [] (if good then 1 else 0)
      if s.clocksUp ∧ s.on .CLK_SRC_DEAD_RECK [] = false then s.glide else s)

/-- GLIDE_DONE (R376). -/
def execGlideDone (s : State) : Ans := .next (s.wr .CLK_SRC_GLIDING [] 0)

/-- Dead reckoning begins (R375): the reference PLL locks to the oscillator, one non-maskable clock-fail event goes to the
Binnacle and to every helm core. -/
def State.deadReckon (s : State) : State :=
  let s := ((s.wr .CLK_MON_FAIL_EV [] 1).wr .CLK_MON_REF_OK [] 0).wr .CLK_SRC_ACTIVE [] 3
  let s := ((s.wr .CLK_SRC_DEAD_RECK [] 1).wr .CLK_SRC_GLIDING [] 0).wr .SX_STAT_DEAD_RECK [] 1
  let s := (List.range 8).foldl (fun s c =>
    if s.rd .HELM_CORE_STAT_STATE [c] < 2 then s
    else s.setHelm c { s.helmRt c with nmi := (s.helmRt c).nmi ++ [32] }) s
  s.raise .CLK_MON [] 375 0 []

/-- The monitor's verdict (R374): no edge for 1 µs, or two windows of 10 µs in a row whose counts are more than 5 % off
the expected one. -/
def sourceFailed (silent : Bool) (w1 w2 expect : Nat) : Bool :=
  let off (w : Nat) : Bool := decide (5 * expect < 100 * (w - expect)) || decide (5 * expect < 100 * (expect - w))
  silent || (off w1 && off w2)

/-- CLOCK_SOURCE_FAIL (R374, R375): what the monitor has counted. The oscillator itself is never reported. -/
def execClockSourceFail (silent : Bool) (w1 w2 expect : Nat) (s : State) : Ans :=
  if sourceFailed silent w1 w2 expect ∧ s.clocksUp ∧ s.on .CLK_SRC_DEAD_RECK [] = false ∧ s.rd .CLK_SRC_ACTIVE [] ≠ 3 then .next s.deadReckon else .next s

/-- OSC_ERR_MEASURE (R375): every 1 ms while the active source is good. -/
def execOscErrMeasure (err : BitVec 16) (s : State) : Ans :=
  if s.clocksUp ∧ s.on .CLK_SRC_DEAD_RECK [] = false then
    .next ((s.lapseTo (s.now / 1000000 * 1000000 + 1000000)).wr .CLK_MON_OSC_ERR [] err.toNat)
  else .next s

/-- The spine returns to the selected source: dead reckoning ends (R376, R465). -/
def State.returnToSource (s : State) : State := ((s.wr .CLK_MON_REF_OK [] 1).glide).irq 66

/-- CLOCK_AUTO_RETURN (R376). -/
def execClockAutoReturn (s : State) : Ans :=
  if s.on .CLK_SRC_DEAD_RECK [] ∧ s.on .CLK_SRC_AUTO_RETURN [] then .next s.returnToSource else .next s

/-- CLK_SRC_RETURN (R376): ignored and logged while the source is still failed; nothing to do outside dead reckoning. -/
def execClkSrcReturn (w : Writer) (good : Bool) (s : State) : Ans :=
  let word := s.wordWith .CLK_SRC [] [(.CLK_SRC_CMD, 1)]
  .next (s.reach w .CLK_SRC [] word fun s =>
    if s.on .CLK_SRC_DEAD_RECK [] = false then s
    else if good ∨ s.rd .CLK_SRC_SEL [] = 3 then s.returnToSource
    else s.drop w .CLK_SRC [] word)

/-! ## Spread spectrum and clock outputs (R377, R378) -/

/-- A user of the spread runs. -/
def State.sscBusy (s : State) : Bool :=
  (List.range 28).any (fun b => s.on .CL_BND_CTL_SSC [b] && s.on .CL_BND_CTL_EN [b]) ||
    (List.range 2).any (fun i => s.on .CLKOUT_CTL_SSC [i] && s.on .CLKOUT_CTL_SRC [i])

/-- CLK_SSC_WRITE (R377, R397): values out of range are stored and logged; they act as 100 and 32. -/
def execClkSscWrite (w : Writer) (depth freq : BitVec 8) (s : State) : Ans :=
  let word := depth.toNat + freq.toNat * 2 ^ 8
  .next (s.reach w .CLK_SSC [] word fun s =>
    if s.sscBusy then s.drop w .CLK_SSC [] word
    else
      let s := (s.wr .CLK_SSC_DEPTH [] depth.toNat).wr .CLK_SSC_FREQ [] freq.toNat
      if 100 < depth.toNat ∨ freq.toNat < 30 ∨ 64 < freq.toNat then s.raise .CLK_SSC [] 397 2 [word] else s)

/-- The spread as `DEPTH` and `FREQ` act: values out of range act as 100 and 32 (R397). -/
def State.spread (s : State) : Nat × Nat :=
  let f := s.rd .CLK_SSC_FREQ []
  (min 100 (s.rd .CLK_SSC_DEPTH []), if f < 30 ∨ 64 < f then 32 else f)

/-- The fastest clock of a `CLKOUT` pin, in kHz (R531). -/
def clkoutMax : Nat := 800000

/-- Pin `CLKOUTi` runs from its selected clock, with the spread where its `SSC` is 1 (R377, R378). It is low while off and
while its spine stands still, and stopped, with an event, while its spine runs above 800 MHz (R531). -/
def State.clkout (s : State) (i : Nat) : State :=
  let src := s.rd .CLKOUT_CTL_SRC [i]
  let x := if s.on .CLKOUT_CTL_SSC [i] then s.spread else (0, 0)
  let f := if src = 3 then (smGet s.synth [8, s.rd .CLKOUT_CTL_SPINE [i]] {}).freq else clkoutMax
  if src = 0 ∨ f = 0 then s.emit (.pin (10 + i) 0)
  else if clkoutMax < f then (s.emit (.pin (10 + i) 0)).raise .CLKOUT_CTL [i] 531 0 [i, f]
  else s.emit (.clkout i (if src = 3 then 8 + s.rd .CLKOUT_CTL_SPINE [i] else src) x.1 x.2)

/-- CLKOUT_SWITCH (R378): the pin goes low after its next falling edge, and the new clock starts at its rising edge. -/
def execClkoutSwitch (w : Writer) (i : Fin 2) (src : BitVec 2) (s : State) : Ans :=
  .next (s.reach w .CLKOUT_CTL [i] (s.wordWith .CLKOUT_CTL [i] [(.CLKOUT_CTL_SRC, src.toNat)]) fun s =>
    if src.toNat = s.rd .CLKOUT_CTL_SRC [i] then s
    else
      let s := (s.emit (.pin (10 + i) 0)).wr .CLKOUT_CTL_SRC [i] src.toNat
      if src.toNat = 0 then s else s.clkout i)

/-! ## Synthesizers (R379); die 8 stands for the hub, whose synthesizers are the clock spines -/

def State.synthAt (s : State) (n k : Nat) : Synth := smGet s.synth [n, k] {}

/-- The pins that run from spine `k` follow a change of its frequency from `f` (R531). -/
def State.spineMoved (s : State) (k f : Nat) : State :=
  let runs (f : Nat) : Bool := f != 0 && f ≤ clkoutMax
  (List.range 2).foldl (fun s i =>
    if s.rd .CLKOUT_CTL_SRC [i] = 3 ∧ s.rd .CLKOUT_CTL_SPINE [i] = k ∧ runs f ≠ runs (s.synthAt 8 k).freq then s.clkout i
    else s) s

def State.setSynth (s : State) (n k : Nat) (x : Synth) : State :=
  let t := { s with synth := smPut s.synth [n, k] x {} }
  if n = 8 then t.spineMoved k (s.synthAt n k).freq else t

/-- `GLIDING` of a synthesizer. -/
def State.setGliding (s : State) (n k v : Nat) : State :=
  if n = 8 then s.wr .SPN_SYN_GLIDING [k] v else s.wr .FSYN_CTL_GLIDING [n, k] v

/-- A frequency that may be written (R379). -/
def freqOk (f : Nat) : Bool := f == 0 || (10000 ≤ f && f ≤ 1200000)

/-- A frequency takes effect (R379): at once on a stopped synthesizer or for 0, else by a glide; during a glide it waits. -/
def State.synthGo (s : State) (n k f : Nat) : State :=
  let x := s.synthAt n k
  if x.freq ≠ x.tgt then s.setSynth n k { x with next := some f }
  else if f = x.freq then s
  else if f = 0 ∨ x.freq = 0 then
    let s := s.setSynth n k { freq := f, tgt := f }
    if n = 8 then s else s.wr .FSYN_CTL_LOCKED [n, k] (if f = 0 then 0 else 1)
  else (s.setSynth n k { x with tgt := f }).setGliding n k 1

/-- The greatest frequency that the output has now or is on its way to. -/
def Synth.top (x : Synth) : Nat := max x.freq (max x.tgt (x.next.getD 0))

/-- Tree ceiling and crossing limit of a rail setting, in kHz (R382). -/
def treeCeil (v : Nat) : Nat := if v = 0 then 900000 else if v = 1 then 1050000 else 1200000
def crossLimit (v : Nat) : Nat := if v = 0 then 750000 else if v = 1 then 880000 else 1000000

/-- Global trees of die `n` that are bound to spine `k` (R63). -/
def State.boundTrees (s : State) (n k : Nat) : List Nat :=
  (List.range 16).filter (fun g => s.rd .FCLK_GSEL_SRC [n, g] = 8 + k || s.rd .FCLK_GSEL_ACTIVE [n, g] = 8 + k)

/-- A ring link whose crossing uses spine `k` is up or in training (R380). -/
def State.spineCrossed (s : State) (k : Nat) : Bool :=
  (List.range 8).any fun n =>
    let live (i : List Nat) : Bool := let x := s.rd .GK_STAT_STATE i; decide (1 ≤ x ∧ x ≤ 3)
    s.rd .GK_CTL_SPINE [n, 1] == k && (live [n, 1] || live [(n + 1) % 8, 0])

/-- SPN_SYN_WRITE (R379, R380). -/
def execSpnSynWrite (w : Writer) (k : Fin 8) (freq : BitVec 21) (s : State) : Ans :=
  let f := freq.toNat
  .next (s.reach w .SPN_SYN [k] f fun s =>
    let high := (List.range 8).any (fun n =>
      !(s.boundTrees n k).isEmpty && decide (treeCeil (s.rd .FVS_STAT_VCUR [n]) < f))
    if freqOk f = false ∨ high ∨ (s.spineCrossed k ∧ f ≠ s.rd .SPN_SYN_FREQ [k]) then s.drop w .SPN_SYN [k] f
    else
      let same := decide (f = s.rd .SPN_SYN_FREQ [k])
      let s := s.wr .SPN_SYN_FREQ [k] f
      let s := if s.clocksUp then s.synthGo 8 k f else s
      if same then s
      else (List.range 8).foldl (fun s n => (s.boundTrees n k).foldl (fun s g => s.wr .FCLK_GSEL_LOCKED [n, g] 0) s) s)

/-- FSYN_FREQ_WRITE (R379, R383). -/
def execFsynFreqWrite (w : Writer) (n : Fin 8) (k v : Fin 4) (freq : BitVec 21) (s : State) : Ans :=
  let f := freq.toNat
  .next (s.reach w .FSYN_FREQ [n, k, v] f fun s =>
    if freqOk f = false ∨ treeCeil v < f then s.drop w .FSYN_FREQ [n, k, v] f
    else
      let s := s.wr .FSYN_FREQ_FREQ [n, k, v] f
      if s.rd .FVS_STAT_VCUR [n] = v.val then s.synthGo n k f else s)

/-! ## The voltage-frequency sequencer (R384) -/

def State.fvsAt (s : State) (n : Nat) : Fvs := smGet s.fvs [n] {}
def State.setFvs (s : State) (n : Nat) (x : Fvs) : State := { s with fvs := smPut s.fvs [n] x {} }

/-- `FVS_CTL.SETTLE` in ns; values below 20 act as 20 (R399). -/
def State.settleNs (s : State) (n : Nat) : Nat := max 20 (s.rd .FVS_CTL_SETTLE [n]) * 1000

/-- A synthesizer of die `n` glides, or waits for its rise permit. -/
def State.fsynMoves (s : State) (n : Nat) : Bool :=
  (List.range 4).any (fun k => s.on .FSYN_CTL_GLIDING [n, k] || s.on .FSYN_CTL_PERMIT_WAIT [n, k])

/-- The sequence ends. -/
def State.fvsEnd (s : State) (n : Nat) (failed : Bool) : State :=
  let s := (s.setFvs n {}).wr .FVS_STAT_BUSY [n] 0
  if failed then s.wr .FVS_STAT_FAIL [n] 1 else s

/-- Step 2 begins: the rail is driven to the setting (R384, R521). -/
def State.fvsRail (s : State) (n : Nat) : State :=
  (s.setFvs n { step := 2, t0 := s.now, due := s.now + s.settleNs n }).emit (.pin (20 + n) (s.rd .FVS_CTL_VSEL [n]))

/-- Step 1 or step 3 is over when nothing moves any more. -/
def State.fvsAdvance (s : State) (n : Nat) : State :=
  let x := s.fvsAt n
  if s.fsynMoves n then s
  else if x.step = 1 then s.fvsRail n
  else if x.step = 3 then s.fvsEnd n false
  else s

/-- A tree of die `n` runs from its synthesizer `k` (R63, R64). -/
def State.treeUses (s : State) (n k : Nat) : Bool :=
  (List.range 64).any (fun tr => s.rd (treeACTIVE tr) (treeIx n tr) = k + 1)

/-- A rise whose permit has timed out leaves the synthesizer as it is and ends the sequence (R384, R393). -/
def State.riseTimeouts (s : State) (n : Nat) : State :=
  if (s.gov n).expired.any (fun p => p.op = 15) then
    let s := (List.range 4).foldl (fun s k =>
      if s.on .FSYN_CTL_PERMIT_WAIT [n, k] then (s.giveBack n 15 [k]).wr .FSYN_CTL_PERMIT_WAIT [n, k] 0 else s) s
    s.fvsEnd n true
  else s

/-- Step 3 begins: synthesizers that rise ask for their permits where a tree runs from them (R384, R395). -/
def State.fvsRise (s : State) (n : Nat) : State :=
  let v := s.rd .FVS_STAT_VCUR [n]
  let s := s.setFvs n { step := 3 }
  let s := (List.range 4).foldl (fun s k =>
    let f := s.rd .FSYN_FREQ_FREQ [n, k, v]
    let x := s.synthAt n k
    if x.freq < f then
      if s.treeUses n k then
        (s.wr .FSYN_CTL_PERMIT_WAIT [n, k] 1).request n 15 (ceilDiv (f - x.freq) 100000) [k] []
      else s.synthGo n k f
    else s) s
  (s.riseTimeouts n).fvsAdvance n

/-- The grounds for refusing a setting (R384). -/
def State.vselBad (s : State) (n v : Nat) : Bool :=
  s.on .FVS_STAT_BUSY [n] ||
    (List.range 8).any (fun k => !(s.boundTrees n k).isEmpty && decide (treeCeil v < (s.synthAt 8 k).top)) ||
    [s.rd .GK_CTL_SPINE [n, 1], s.rd .GK_CTL_SPINE [(n + 7) % 8, 1]].any
      (fun k => decide (crossLimit v < (s.synthAt 8 k).top))

/-- VSEL_SEQUENCE (R384). -/
def execVselSequence (w : Writer) (n : Fin 8) (v : BitVec 2) (s : State) : Ans :=
  let word := s.wordWith .FVS_CTL [n] [(.FVS_CTL_VSEL, v.toNat)]
  .next (s.reach w .FVS_CTL [n] word fun s =>
    if s.vselBad n v.toNat then (s.wr .FVS_STAT_FAIL [n] 1).drop w .FVS_CTL [n] word
    else
      let s := ((s.wr .FVS_CTL_VSEL [n] v.toNat).wr .FVS_STAT_BUSY [n] 1).setFvs n { step := 1 }
      let s := (List.range 4).foldl (fun s k =>
        let f := s.rd .FSYN_FREQ_FREQ [n, k, v.toNat]
        if f < (s.synthAt n k).freq then s.synthGo n k f else s) s
      s.fvsAdvance n)

/-- SYNTH_GLIDE_STEP (R379): 1 µs, at most 1 % of the current frequency. -/
def execSynthGlideStep (n : Fin 9) (k : Fin 8) (s : State) : Ans :=
  let x := s.synthAt n k
  if x.freq = x.tgt then .next s
  else
    let s := s.lapse 1000
    let d := x.freq / 100
    let f := if x.freq < x.tgt then min x.tgt (x.freq + d) else max x.tgt (x.freq - d)
    if f ≠ x.tgt then .next (s.setSynth n k { x with freq := f })
    else
      let s := (s.setSynth n k { freq := f, tgt := f }).setGliding n k 0
      let s := match x.next with
        | some g => s.synthGo n k g
        | none => s
      .next (if n.val < 8 then s.fvsAdvance n else s)

/-- RAIL_SETTLE_CHECK (R384): after `SETTLE`, then every 10 µs; at 4 × `SETTLE` the sequence stops. -/
def execRailSettleCheck (n : Fin 8) (ok : Bool) (s : State) : Ans :=
  let x := s.fvsAt n
  if x.step = 2 then
    let s := s.lapseTo x.due
    if ok then .next ((s.wr .FVS_STAT_VCUR [n] (s.rd .FVS_CTL_VSEL [n])).fvsRise n)
    else if x.t0 + 4 * s.settleNs n ≤ x.due then .next ((s.fvsEnd n true).raise .FVS_CTL [n] 384 0 [n])
    else .next (s.setFvs n { x with due := min (x.due + 10000) (x.t0 + 4 * s.settleNs n) })
  else .next s

/-- SYNTH_RISE_GRANT (R384, R395). -/
def execSynthRiseGrant (n : Fin 8) (k : Fin 4) (s : State) : Ans :=
  if s.on .FSYN_CTL_PERMIT_WAIT [n, k] then
    match s.takeGrant n 15 [k.val] with
    | some s =>
      let s := (s.wr .FSYN_CTL_PERMIT_WAIT [n, k] 0).synthGo n k (s.rd .FSYN_FREQ_FREQ [n, k, s.rd .FVS_STAT_VCUR [n]])
      .next (s.fvsAdvance n)
    | none => .next s
  else .next s

end Sys2Proof.Machine
end

