-- ==== Sys2Proof/Machine/Helm.lean ====
section
/-! DEFINITION. The helm cores as far as the manual's events reach them: interrupts, starting and resetting, the monitor,
hard halts, watchdogs, patch units and the mailbox (R460 to R482). -/

namespace Sys2Proof.Machine

/-- A core's state: 0 in reset, 1 permit wait, 2 running, 3 in the monitor, 4 hard halted (R490). -/
def State.coreState (s : State) (c : Nat) : Nat := s.rd .HELM_CORE_STAT_STATE [c]
def State.setCore (s : State) (c v : Nat) : State := s.wr .HELM_CORE_STAT_STATE [c] v

/-- The running level L (R466). -/
def State.level (s : State) (c : Nat) : Nat := s.rd .HELM_CORE_STAT_LEVEL [c]

/-- The reset vector (R491). -/
def State.bootVec (s : State) : Nat := s.rd .HELM_BOOT_LO_VEC [] * 2 + s.rd .HELM_BOOT_HI_VEC [] * 2 ^ 32

/-! ## Writes of a core's registers -/

/-- The sources that may write the block of core `c`: the core itself, the administrative functions, the Pelorus port at
level 2. -/
def State.blockWriter (s : State) (w : Writer) (c : Nat) : Bool :=
  match w with
  | .helm d => d.val == c
  | .fn _ => s.isAdminW w
  | .pelorus p => decide (2 ≤ s.pelLevel p)
  | _ => false

/-- Any write to a core's block but the command it was meant for cancels the unlock of R479. -/
def State.relock (s : State) (c : Nat) : State := s.setHelm c { s.helmRt c with unlock := none }

/-- A write to the block of core `c`. -/
def State.blockWrite (s : State) (w : Writer) (r : Reg) (c v : Nat) (k : State → State) : State :=
  if s.mute w then s
  else if s.blockWriter w c = false then s.drop w r [c] v
  else k (s.relock c)

/-- A write of `HELM_DBG_CMD` or `HELM_DBG_ACC`: by the Pelorus port alone, at level 2. -/
def State.debugWrite (s : State) (w : Writer) (r : Reg) (c v : Nat) (k : State → State) : State :=
  match w with
  | .pelorus _ => s.blockWrite w r c v k
  | _ => if s.mute w then s else s.drop w r [c] v

/-! ## Watchdogs (R477 to R479) -/

/-- The watchdog runs. -/
def State.wdRuns (s : State) (c : Nat) : Bool :=
  let x := s.coreState c
  s.on .HELM_WDT_CTL_EN [c] && s.rd .HELM_WDT_LOAD_US [c] != 0 && decide (2 ≤ x) && !(s.helmRt c).hold &&
    !(s.on .HELM_WDT_CTL_FREEZE_MON [c] && decide (3 ≤ x))

/-- What is left of the count, in ns. -/
def State.wdCount (s : State) (c : Nat) : Nat :=
  let x := s.helmRt c
  match x.wdT with
  | some t => x.wdLeft - (s.now - t)
  | none => x.wdLeft

/-- Bring the count up to date, and let it run or stand as it should. -/
def State.wdSync (s : State) (c : Nat) : State :=
  s.setHelm c { s.helmRt c with wdLeft := s.wdCount c, wdT := if s.wdRuns c then some s.now else none }

/-- Load the count. -/
def State.wdLoad (s : State) (c : Nat) : State :=
  (s.setHelm c { s.helmRt c with wdLeft := s.rd .HELM_WDT_LOAD_US [c] * 1000, wdT := none }).wdSync c

/-- The core leaves a halt in which the count stood: it goes on from at least 1,000 µs (R478). -/
def State.wdThaw (s : State) (c : Nat) : State :=
  let x := s.helmRt c
  let s := match x.wdT with
    | some _ => s
    | none => if s.wdRuns c then s.setHelm c { x with wdLeft := max x.wdLeft 1000000 } else s
  s.wdSync c

/-- WDT_KICK (R477). -/
def execWdtKick (w : Writer) (c : Fin 8) (key : BitVec 16) (s : State) : Ans :=
  .next (s.blockWrite w .HELM_WDT_KICK c key.toNat fun s =>
    if key.toNat = 0x4B1D then (s.wr .HELM_WDT_CTL_STAGE [c] 0).wdLoad c else s.drop w .HELM_WDT_KICK [c] key.toNat)

/-- WDT_UNLOCK (R479): for 100 µs. -/
def execWdtUnlock (w : Writer) (c : Fin 8) (key : BitVec 16) (s : State) : Ans :=
  .next (s.blockWrite w .HELM_WDT_UNLOCK c key.toNat fun s =>
    if key.toNat = 0x5A3C then s.setHelm c { s.helmRt c with unlock := some (s.now + 100000) }
    else s.drop w .HELM_WDT_UNLOCK [c] key.toNat)

/-! ## Caches and flash window (R461 to R464). A program's accesses to other addresses are uncached and have rows of their
own: REGISTER_WRITE, NI_SEND -/

def State.l1 (s : State) (c k line : Nat) : Option HelmLine := smGet s.helmL1 [c, k, line] none
def State.setL1 (s : State) (c k line : Nat) (x : Option HelmLine) : State :=
  { s with helmL1 := smPut s.helmL1 [c, k, line] x none }
def State.setL2 (s : State) (line : Nat) (x : Option HelmLine) : State := { s with helmL2 := smPut s.helmL2 [line] x none }

/-- A line of the boot-flash window. -/
def inFlash (line : Nat) : Bool :=
  match placeOf (line * 64) with
  | .flash _ => true
  | _ => false

/-- The caches are coherent among the cores (R461): a dirty L1 line is written to the L2. -/
def State.l1Down (s : State) (line : Nat) : State :=
  (List.range 8).foldl (fun s c =>
    match s.l1 c 0 line with
    | some x => if x.dirty then (s.setL2 line (some x)).setL1 c 0 line (some { x with dirty := false }) else s
    | none => s) s

/-- The L1 data caches but that of core `but` (8: none) drop a line. -/
def State.l1Drop (s : State) (line but : Nat) : State :=
  (List.range 8).foldl (fun s c => if c = but then s else s.setL1 c 0 line none) s

/-- A line from below the L1 caches: from the L2 or HBM, or from the flash cache or the flash, where `bus` tells whether the
read fails. None: an access fault (R462), or a read of the flash that waits for an operation there. -/
def State.helmBelow (s : State) (c line : Nat) (bus : Bool) : Option Nat × State :=
  match placeOf (line * 64) with
  | .flash off =>
    if Config.flashSize ≤ off then (none, s)
    else match smGet s.flashC [line] none with
      | some d => (some d, s)
      | none =>
        if bus then (none, s.raise .HELM_CORE_CTL [c] 462 0 [c, off])
        else
          let d := leNat (memBytes s.flash off 64 0xFF)
          (some d, { s with flashC := smPut s.flashC [line] (some d) none })
  | .hbm =>
    (match smGet s.helmL2 [line] none with
    | some x => (some x.data, s)
    | none =>
      let (d, st, s) := s.gRead helmMst (line * 64) (0, 0)
      if st = 0 then (some d, s.setL2 line (some { data := d })) else (none, s))
  | _ => (none, s)

/-- Core `c` gets a line into its L1 cache `k`. -/
def State.helmLine (s : State) (c k line : Nat) (bus : Bool) : Option Nat × State :=
  match s.l1 c k line with
  | some x => (some x.data, s)
  | none =>
    match (s.l1Down line).helmBelow c line bus with
    | (some d, s) => (some d, s.setL1 c k line (some { data := d }))
    | (none, s) => (none, s)

/-- A miss of the flash cache waits while the flash is programmed or erased (R462). -/
def State.flashWaits (s : State) (c k line : Nat) : Bool :=
  s.flashOp.isSome && inFlash line && (s.l1 c k line).isNone && (smGet s.flashC [line] none).isNone

/-- The word at window offset `w` × 4 as core `c` sees it: of two patch units the higher-numbered one supplies it (R463). -/
def State.patched (s : State) (c w raw : Nat) : Nat :=
  match (List.range 16).reverse.find? (fun u => s.on .HELM_PATCH_ADDR_EN [c, u] && s.rd .HELM_PATCH_ADDR_OFF [c, u] == w) with
  | some u => s.rd .HELM_PATCH_DATA_WORD [c, u]
  | none => raw

/-- The aligned 32-bit word at address `a` of a line's data, as core `c` sees it. -/
def State.helmWord (s : State) (c a d : Nat) : Nat :=
  let raw := bitsOf d (8 * (a % 64 / 4 * 4)) 32
  match placeOf a with
  | .flash off => s.patched c (off / 4) raw
  | _ => raw

def State.helmLast (s : State) (c kind v : Nat) : State := s.setHelm c { s.helmRt c with last := (kind, v) }

/-- A fetch gives the aligned word, a load the aligned doubleword. -/
def State.helmRead (s : State) (c a : Nat) (fetch bus : Bool) : State :=
  let k := fetch.toNat
  if s.flashWaits c k (a / 64) then s
  else match s.helmLine c k (a / 64) bus with
    | (some d, s) =>
      if fetch then s.helmLast c 0 (s.helmWord c a d)
      else s.helmLast c 0 (s.helmWord c (a / 8 * 8) d + s.helmWord c (a / 8 * 8 + 4) d * 2 ^ 32)
    | (none, s) => s.helmLast c (if fetch then 1 else 2) 0

/-- A store or AMO (R461, R462): never into the flash window; the other cores' copies and reservations go. -/
def State.helmStore (s : State) (c a n data : Nat) : State :=
  let line := a / 64
  match placeOf a with
  | .flash _ => s.helmLast c 3 0
  | .hbm =>
    (match s.helmLine c 0 line false with
    | (some d, s) =>
      let s := (s.l1Drop line c).setL1 c 0 line (some { data := mergeLine d (a % 64) (natLe data n), dirty := true })
      (List.range 8).foldl (fun s e =>
        if e ≠ c ∧ (s.helmRt e).resv = some line then s.setHelm e { s.helmRt e with resv := none } else s) (s.helmLast c 0 0)
    | (none, s) => s.helmLast c 3 0)
  | _ => s

/-- A dirty line of the L2 is written to HBM. -/
def State.l2Clean (s : State) (line : Nat) : State :=
  match smGet s.helmL2 [line] none with
  | some x => if x.dirty then ((s.gWrite helmMst (line * 64) x.data false 0).2).setL2 line (some { x with dirty := false }) else s
  | none => s

/-- One access of core `c` (R461 to R464, R481). -/
def State.helmAct (s : State) (c : Nat) : HelmAct → State
  | .fetch a bus => s.helmRead c a.toNat true bus
  | .load a bus => s.helmRead c a.toNat false bus
  | .store a n data => s.helmStore c a.toNat n data.toNat
  | .lr a =>
    let s := s.helmRead c a.toNat false false
    s.setHelm c { s.helmRt c with resv := some (a.toNat / 64) }
  | .sc a n data =>
    let ok := (s.helmRt c).resv = some (a.toNat / 64)
    let s := s.setHelm c { s.helmRt c with resv := none }
    if ok then s.helmStore c a.toNat n data.toNat else s.helmLast c 0 1
  | .clean a => (s.l1Down (a.toNat / 64)).l2Clean (a.toNat / 64)
  | .flush a => (((s.l1Down (a.toNat / 64)).l2Clean (a.toNat / 64)).l1Drop (a.toNat / 64) 8).setL2 (a.toNat / 64) none
  | .inval a => (s.l1Drop (a.toNat / 64) 8).setL2 (a.toNat / 64) none
  | .fenceI => { s with helmL1 := smKeep s.helmL1 (fun i => i.take 2 != [c, 1]) }
  | .evict l2 a =>
    if l2 then ((s.l1Down (a.toNat / 64)).l2Clean (a.toNat / 64)).setL2 (a.toNat / 64) none
    else (s.l1Down (a.toNat / 64)).setL1 c 0 (a.toNat / 64) none
  | .flashErr a => { s with flashC := smPut s.flashC [a.toNat / 64] none none }

/-- What the program of core `c` has done to memory, while the core runs or is in its monitor. -/
def State.helmActs (s : State) (c : Nat) (acts : List HelmAct) : State :=
  if s.coreState c = 2 ∨ s.coreState c = 3 then acts.foldl (fun s a => s.helmAct c a) s else s

/-- The L1 lines of core `c` go, the dirty ones to the L2 (R461, R470). -/
def State.l1Reset (s : State) (c : Nat) : State :=
  let s := (s.helmL1.filter (fun e => e.1.take 2 == [c, 0])).foldl (fun s e =>
    match e.2 with
    | some x => if x.dirty then s.setL2 (e.1.getD 2 0) (some x) else s
    | none => s) s
  { s with helmL1 := smKeep s.helmL1 (fun i => i.headD 8 != c) }

/-! ## Starting and resetting (R469, R470, R476) -/

/-- A core asks for its release permit. -/
def State.coreAsk (s : State) (c : Nat) : State := (s.setCore c 1).request 8 18 2 [c] []

/-- Release permits that have timed out: the core stays in reset (R469). -/
def State.helmTimeouts (s : State) : State :=
  (List.range 8).foldl (fun s c =>
    if s.coreState c = 1 ∧ (s.gov 8).expired.any (·.is 18 [c]) then
      (((s.giveBack 8 18 [c]).setCore c 0).wr .HELM_CORE_STAT_PERMIT_TO [c] 1).raise .HELM_CORE_CTL [c] 469 2 [c]
    else s) s

/-- HELM_CORE_RELEASE (R469): ignored and logged unless the core is in reset. -/
def execHelmCoreRelease (w : Writer) (c : Fin 8) (s : State) : Ans :=
  .next (s.blockWrite w .HELM_CORE_CTL c 1 fun s =>
    if s.coreState c = 0 then (s.coreAsk c).helmTimeouts else s.drop w .HELM_CORE_CTL [c] 1)

/-- HELM_CORE_START (R469, R472, R476). -/
def execHelmCoreStart (c : Fin 8) (s : State) : Ans :=
  if s.coreState c = 1 then
    match s.takeGrant 8 18 [c.val] with
    | some s =>
      let hold := (s.rd .PEL_BOOTHALT_MASK []).testBit c
      let s := s.setHelm c { pc := s.bootVec, dvec := s.bootVec + 0x200, hold := hold, fresh := hold }
      let s := if hold then (s.setCore c 4).wr .HELM_DBG_STAT_CAUSE [c] 5 else s.setCore c 2
      .next (s.wdLoad c)
    | none => .next s
  else .next s

/-- Fields of class CORE of a core (R470). -/
def coreClears (c : Nat) (f : Fld) (i : List Nat) : Bool := f.spec.cls == .core && i.headD 9 == c

/-- A core reset (R461, R470): the core stays in reset until it is released; its dirty L1 lines go to the L2, its permit
request is withdrawn and its exchange with Dvorkenor is discarded. -/
def State.coreReset (s : State) (c : Nat) : State :=
  let s := (((s.l1Reset c).giveBack 8 18 [c]).clearRegs (coreClears c)).setCore c 0
  ({ s with mail := s.mail.filter (fun m => m.src ≠ 8 + c) } : State).setHelm c {}

/-- HELM_CORE_RESET (R470): by `CMD` = 2. -/
def execHelmCoreReset (w : Writer) (c : Fin 8) (acts : List HelmAct) (s : State) : Ans :=
  .next (s.blockWrite w .HELM_CORE_CTL c 2 fun s => (s.helmActs c acts).coreReset c)

/-- WDT_EXPIRY (R477, R478): the count reaches 0. -/
def execWdtExpiry (c : Fin 8) (s : State) : Ans :=
  match (s.helmRt c).wdT with
  | none => .next s
  | some t =>
    let s := s.lapseTo (t + (s.helmRt c).wdLeft)
    if s.on .HELM_WDT_CTL_STAGE [c] then .next ((s.coreReset c).wr .HELM_CORE_STAT_WDT_RESET [c] 1)
    else
      let s := s.setHelm c { s.helmRt c with nmi := (s.helmRt c).nmi ++ [33] }
      .next ((s.wr .HELM_WDT_CTL_STAGE [c] 1).wdLoad c)

/-! ## Interrupts (R465 to R468) -/

/-- Fabric interrupt source of line `i` of die `n`. -/
def irqSource (n i : Nat) : Nat := 256 + 32 * n + i

/-- Is a source pending? A fabric line counts while sector 7 of its die reads `STATE` 3 (R465). -/
def State.pendingSrc (s : State) (src : Nat) : Bool :=
  if 256 ≤ src then
    smGet s.irqLine [src] false && s.up ((src - 256) / 32) && s.rd .SEC_STATUS_STATE [(src - 256) / 32, 7] == 3
  else (s.rd .HELM_IC_PEND_BITS [src / 32]).testBit (src % 32)

/-- Is a source in service? -/
def State.inService (s : State) (src : Nat) : Bool := (List.range 8).any (fun c => (s.helmRt c).serving.contains src)

/-- Deliverable to core `c` (R466). -/
def State.deliverable (s : State) (c src : Nat) : Bool :=
  let p := s.rd .HELM_IC_SRC_PRIO [src]
  src != 0 && s.pendingSrc src && !s.inService src && (s.rd .HELM_IC_SRC_TARGETS [src]).testBit c &&
    decide (s.rd .HELM_IC_THR_THR [c] < p) && decide (s.level c < p)

/-- The source that a claim by core `c` returns: the highest priority, then the highest number; 0 for none (R467). -/
def State.claimable (s : State) (c : Nat) : Nat :=
  (List.range 512).foldl (fun b src =>
    if s.deliverable c src && (b == 0 || decide (s.rd .HELM_IC_SRC_PRIO [b] ≤ s.rd .HELM_IC_SRC_PRIO [src])) then src else b) 0

/-- FABRIC_IRQ_LINE (R465). -/
def execFabricIrqLine (n : Fin 8) (i : Fin 32) (high : Bool) (s : State) : Ans :=
  .next { s with irqLine := smPut s.irqLine [irqSource n i] high false }

/-- HELM_IC_SET (R465, R492). -/
def execHelmIcSet (w : Writer) (src : BitVec 9) (s : State) : Ans :=
  .next (if s.mute w then s
    else if 1 ≤ src.toNat ∧ src.toNat ≤ 15 then s.irq src.toNat
    else s.drop w .HELM_IC_SET [] src.toNat)

/-- HELM_IC_CLAIM (R467): a read by anyone but core `c` returns 0. -/
def execHelmIcClaim (w : Writer) (c : Fin 8) (s : State) : Ans :=
  if w = .helm c then
    let src := s.claimable c
    if src = 0 then .next { s with answer := 0 }
    else
      let s := if src < 256 then s.setBit .HELM_IC_PEND_BITS [src / 32] (src % 32) false else s
      let x := s.helmRt c
      let s := s.setHelm c { x with serving := src :: x.serving, levels := s.level c :: x.levels }
      .next { s.wr .HELM_CORE_STAT_LEVEL [c] (s.rd .HELM_IC_SRC_PRIO [src]) with answer := src }
  else .next { s with answer := 0 }

/-- L returns to the level it preempted. -/
def State.popLevel (s : State) (c : Nat) : State :=
  let x := s.helmRt c
  (s.setHelm c { x with levels := x.levels.tail }).wr .HELM_CORE_STAT_LEVEL [c] (x.levels.headD 0)

/-- HELM_IC_COMPLETE (R467): ignored and logged where the source is not in service by core `c`. -/
def execHelmIcComplete (w : Writer) (c : Fin 8) (src : BitVec 9) (s : State) : Ans :=
  let x := s.helmRt c
  if s.mute w then .next s
  else if x.serving.contains src.toNat then
    .next ((s.setHelm c { x with serving := x.serving.erase src.toNat }).popLevel c)
  else .next (s.drop w .HELM_IC_CLAIM [c] src.toNat)

/-- What a core's program has come to becomes known: its memory accesses, program counter, mode and `MIE`; its other registers
hold what the program has left there. -/
def State.coreAt (s : State) (c : Nat) (acts : List HelmAct) (pc prv : Nat) (mie : Bool) : State :=
  let s := s.helmActs c acts
  s.setHelm c { s.helmRt c with pc := pc, mode := prv, mie := mie, fresh := false, csr := [] }

/-- HELM_NMI (R468): taken by a running core, in the monitor too; `mepc` and `mstatus` are saved as for any trap. -/
def execHelmNmi (c : Fin 8) (acts : List HelmAct) (pc : BitVec 64) (prv : BitVec 2) (mie handling : Bool) (s : State) : Ans :=
  let x := s.helmRt c
  match x.nmi with
  | [] => .next s
  | n :: rest =>
    if (s.coreState c = 2 ∨ s.coreState c = 3) ∧ (x.inNmi && handling) = false then
      let s := s.coreAt c acts pc.toNat prv.toNat mie
      let x := s.helmRt c
      .next (s.setHelm c { x with
        nmi := rest, inNmi := true, mpp := prv.toNat, mpie := mie, mie := false, mode := 3, pc := s.bootVec + 0x100
        csr := smPut (smPut x.csr [0x341] (some pc.toNat) none) [0x342] (some (0x8000000000000000 + n)) none })
    else .next s

/-! ## Halts (R471 to R476, R478, R480, R481) -/

/-- A halt of core `c` is announced to the hub: it cancels an unlock that the core wrote and has not used (R480). -/
def State.unlockAbort (s : State) (c : Nat) : State :=
  let rst := match s.rstUnlock with
    | some (t, who) => decide (s.now ≤ t) && who == c
    | none => false
  let wd := match (s.helmRt c).unlock with
    | some t => decide (s.now ≤ t)
    | none => false
  if rst || wd then
    let s := if rst then { s with rstUnlock := none } else s
    ((s.relock c).wr .HELM_DBG_STAT_UNLOCK_ABORT [c] 1).raise .HELM_DBG_STAT [c] 480 0 [c]
  else s

/-- DBG_MONITOR_HALT (R471): a request of cause 1, which waits while the core is halted; ignored and logged in reset. -/
def execDbgMonitorHalt (w : Writer) (c : Fin 8) (s : State) : Ans :=
  .next (s.debugWrite w .HELM_DBG_CMD c 1 fun s =>
    if s.coreState c < 2 then s.drop w .HELM_DBG_CMD [c] 1
    else if (s.helmRt c).monReq = 0 then s.setHelm c { s.helmRt c with monReq := 1 } else s)

/-- DBG_HARD_HALT (R475, R481): the core stops at its next instruction boundary. -/
def execDbgHardHalt (w : Writer) (c : Fin 8) (acts : List HelmAct) (pc : BitVec 64) (prv : BitVec 2) (mie : Bool) (s : State) : Ans :=
  .next (s.debugWrite w .HELM_DBG_CMD c 2 fun s =>
    if s.coreState c < 2 then s.drop w .HELM_DBG_CMD [c] 2
    else if s.coreState c = 4 then s
    else
      let s := (s.coreAt c acts pc.toNat prv.toNat mie).wdSync c
      let s := (s.setHelm c { s.helmRt c with resv := none }).wr .HELM_DBG_STAT_CAUSE [c] 6
      ((s.setCore c 4).wdSync c).unlockAbort c)

/-- DBG_HARD_RELEASE (R475, R481): the core goes on where it was, in the monitor too. -/
def execDbgHardRelease (w : Writer) (c : Fin 8) (s : State) : Ans :=
  .next (s.debugWrite w .HELM_DBG_CMD c 3 fun s =>
    if s.coreState c < 2 then s.drop w .HELM_DBG_CMD [c] 3
    else if s.coreState c = 4 then
      let s := s.setHelm c { s.helmRt c with resv := none, hold := false, fresh := false }
      (s.setCore c (if s.on .HELM_DBG_STAT_IN_MON [c] then 3 else 2)).wdThaw c
    else s)

/-- MONITOR_ENTRY (R471, R472, R478, R480, R481): at an instruction boundary at which L is below 12. -/
def execMonitorEntry (c : Fin 8) (acts : List HelmAct) (pc : BitVec 64) (prv : BitVec 2) (mie ebreak : Bool) (s : State) : Ans :=
  let req := (s.helmRt c).monReq
  let cause := if req ≠ 0 then req else if ebreak ∧ s.on .HELM_DBG_CTL_EBRK [c] then 2 else 0
  if s.coreState c = 2 ∧ cause ≠ 0 ∧ s.level c < 12 then
    let s := (s.coreAt c acts pc.toNat prv.toNat mie).wdSync c
    let x := s.helmRt c
    let s := s.setHelm c { x with
      dpc := pc.toNat, prv := prv.toNat, pmie := mie, levels := s.level c :: x.levels, mode := 3, mie := true,
      pc := x.dvec, monReq := 0, resv := none }
    let s := (s.wr .HELM_CORE_STAT_LEVEL [c] 12).wr .HELM_DBG_STAT_IN_MON [c] 1
    let s := (((s.wr .HELM_DBG_STAT_CAUSE [c] cause).setCore c 3).wdSync c).unlockAbort c
    .next (if s.on .HELM_DBG_CTL_GROUP [c] then
      (List.range 8).foldl (fun s d =>
        if d ≠ c.val ∧ s.on .HELM_DBG_CTL_GROUP [d] ∧ s.coreState d = 2 ∧ (s.helmRt d).monReq = 0 then
          s.setHelm d { s.helmRt d with monReq := 4 }
        else s) s
      else s)
  else .next s

/-- MONITOR_EXIT (R473, R474, R478, R481): ignored and logged while an interrupt claimed in the monitor is in service. -/
def execMonitorExit (c : Fin 8) (stp : Bool) (s : State) : Ans :=
  if s.coreState c = 3 then
    if s.level c ≠ 12 then .next (s.raise .HELM_DBG_STAT [c] 473 2 [c])
    else
      let s := s.popLevel c
      let x := s.helmRt c
      let s := s.setHelm c { x with
        mode := x.prv, mie := x.pmie, pc := x.dpc, step_ := stp, monReq := (if stp then 3 else x.monReq), resv := none }
      .next (((s.wr .HELM_DBG_STAT_IN_MON [c] 0).setCore c 2).wdThaw c)
  else .next s

/-! ## Register access (R475) -/

/-- The CSRs that the cores implement: those of RV64GC with M, S and U modes and 16 PMP entries, and the monitor's. -/
def csrThere (r : Nat) : Bool :=
  [0x001, 0x002, 0x003, 0x100, 0x104, 0x105, 0x106, 0x10A, 0x140, 0x141, 0x142, 0x143, 0x144, 0x180, 0x300, 0x301, 0x302,
    0x303, 0x304, 0x305, 0x306, 0x30A, 0x320, 0x340, 0x341, 0x342, 0x343, 0x344, 0x3A0, 0x3A2, 0x7C8, 0x7C9, 0x7CA, 0xB00,
    0xB02, 0xC00, 0xC01, 0xC02, 0xF11, 0xF12, 0xF13, 0xF14, 0xF15].contains r ||
    (decide (0x323 ≤ r) && decide (r < 0x340)) || (decide (0x3B0 ≤ r) && decide (r < 0x3C0)) ||
    (decide (0xB03 ≤ r) && decide (r < 0xB20)) || (decide (0xC03 ≤ r) && decide (r < 0xC20))

/-- A register number names something. -/
def dbgThere (r : Nat) : Bool := csrThere r || (decide (0x1000 ≤ r) && decide (r < 0x1040)) || r == 0x2000

/-- The reset value of a register held in the sparse table. -/
def csrReset (c r : Nat) : Nat := if r = 0xF14 then c else if r = 0x301 then 0x800000000014112D else 0

/-- A register that the table holds; what a program has left in it and nobody has read is a free value. -/
def State.csrAt (s : State) (c r : Nat) : Nat × State :=
  let x := s.helmRt c
  match smGet x.csr [r] none with
  | some v => (v, s)
  | none =>
    if x.fresh ∨ r = 0xF14 ∨ r = 0x301 then (csrReset c r, s)
    else
      let (v, s) := s.draw 64
      (v, s.setHelm c { x with csr := smPut x.csr [r] (some v) none })

/-- Bits of `mstatus` that the model keeps apart: MIE, MPIE, MPP. -/
def mstatusWith (x : HelmRt) (v : Nat) : Nat :=
  let rest := v - (v &&& (2 ^ 3 + 2 ^ 7 + 2 ^ 11 + 2 ^ 12))
  rest + (if x.mie then 2 ^ 3 else 0) + (if x.mpie then 2 ^ 7 else 0) + x.mpp % 4 * 2 ^ 11

/-- Read a register of a halted core (R472, R475). -/
def State.dbgRead (s : State) (c r : Nat) : Nat × State :=
  let x := s.helmRt c
  if r = 0x2000 then (x.pc, s)
  else if r = 0x1000 then (0, s)
  else if r = 0x7C8 then ((if x.step_ then 2 else 0) + x.prv * 4 + (if x.pmie then 16 else 0), s)
  else if r = 0x7C9 then (x.dpc, s)
  else if r = 0x7CA then (x.dvec, s)
  else if r = 0xC01 then (s.now % 2 ^ 64, s)
  else if r = 0x300 then
    let (v, s) := s.csrAt c r
    (mstatusWith x v, s)
  else s.csrAt c r

/-- Write a register of a halted core; the read-only ones keep their values. -/
def State.dbgWrite (s : State) (c r v : Nat) : State :=
  let x := s.helmRt c
  if r = 0x2000 then s.setHelm c { x with pc := v }
  else if r = 0x1000 ∨ (0xC00 ≤ r ∧ r < 0x1000) then s
  else if r = 0x7C8 then s.setHelm c { x with step_ := v.testBit 1, prv := v / 4 % 4, pmie := v.testBit 4 }
  else if r = 0x7C9 then s.setHelm c { x with dpc := v }
  else if r = 0x7CA then s.setHelm c { x with dvec := v }
  else if r = 0x300 then
    s.setHelm c { x with csr := smPut x.csr [r] (some v) none, mie := v.testBit 3, mpie := v.testBit 7, mpp := v / 2 ^ 11 % 4 }
  else s.setHelm c { x with csr := smPut x.csr [r] (some v) none }

/-- A `HELM_DBG_ACC` operation: fails unless the core is hard halted and the register is there. -/
def State.dbgAcc (s : State) (w : Writer) (c reg op : Nat) (k : State → State) : State :=
  s.debugWrite w .HELM_DBG_ACC c (reg + op * 2 ^ 14) fun s =>
    let s := s.wr .HELM_DBG_ACC_REG [c] reg
    if s.coreState c = 4 ∧ dbgThere reg then k s else s.wr .HELM_DBG_ACC_ERR [c] 1

/-- DBG_REG_READ (R475). -/
def execDbgRegRead (w : Writer) (c : Fin 8) (reg : BitVec 14) (s : State) : Ans :=
  .next (s.dbgAcc w c reg.toNat 1 fun s =>
    let (v, s) := s.dbgRead c reg.toNat
    (s.wr .HELM_DBG_ACC_LO_DATA [c] (v % 2 ^ 32)).wr .HELM_DBG_ACC_HI_DATA [c] (v / 2 ^ 32))

/-- DBG_REG_WRITE (R475). -/
def execDbgRegWrite (w : Writer) (c : Fin 8) (reg : BitVec 14) (s : State) : Ans :=
  .next (s.dbgAcc w c reg.toNat 2 fun s =>
    s.dbgWrite c reg.toNat (s.rd .HELM_DBG_ACC_LO_DATA [c.val] + s.rd .HELM_DBG_ACC_HI_DATA [c.val] * 2 ^ 32))

/-! ## Patch units, flash, mailbox (R462 to R464, R482) -/

/-- The L1 lines of core `c` that hold a word of the flash window are invalidated (R464). -/
def State.patchDrop (s : State) (c u : Nat) : State :=
  let line := (0x01C000000000 + 4 * s.rd .HELM_PATCH_ADDR_OFF [c, u]) / 64
  (s.setL1 c 0 line none).setL1 c 1 line none

/-- PATCH_WRITE (R463, R464): the L1 lines with the old and the new word are invalidated before the acknowledgement. -/
def execPatchWrite (w : Writer) (c : Fin 8) (u : Fin 16) (data : Bool) (v : BitVec 32) (s : State) : Ans :=
  .next (if s.mute w then s
    else if data then (s.wr .HELM_PATCH_DATA_WORD [c, u] v.toNat).patchDrop c u
    else (((s.patchDrop c u).wr .HELM_PATCH_ADDR_EN [c, u] (v.toNat % 2)).wr .HELM_PATCH_ADDR_OFF [c, u]
      (v.toNat / 4)).patchDrop c u)

/-- A buffer lies in HBM outside every sealed range (R482). -/
def State.plainHbm (s : State) (a n : Nat) : Bool :=
  (linePieces a n).all fun p =>
    match placeOf p.1 with
    | .hbm =>
      let (st, x) := hbmSplit s.ilv p.1
      (s.rangeOf st x).isNone && !(List.range 16).any (fun r => s.sealLive st r && s.inMeta st r x)
    | _ => false

/-- Read `n` bytes at global address `a` as master `m`: status of the first line refused, bytes. -/
def State.gBytes (s : State) (m : Mst) (a n : Nat) : Nat × List Byte × State :=
  (linePieces a n).foldl (fun (acc : Nat × List Byte × State) p =>
    if acc.1 ≠ 0 then acc
    else
      let (x, c, s) := acc.2.2.gRead m p.1 (0, 0)
      (c, acc.2.1 ++ ((natLe x 64).drop p.2.1).take p.2.2, s)) (0, [], s)

/-- Write bytes at global address `a` as master `m`, parts of lines by read, merge and write: the first status not OK. -/
def State.gPut (s : State) (m : Mst) (a : Nat) (bs : List Byte) : Nat × State :=
  (linePieces a bs.length).foldl (fun (acc : Nat × State) p =>
    if acc.1 ≠ 0 then acc
    else
      let part := (bs.drop (p.1 + p.2.1 - a)).take p.2.2
      if p.2.2 = 64 then acc.2.gWrite m p.1 (leNat part) false 0
      else
        let (x, c, s) := acc.2.gRead m p.1 (0, 0)
        if c = 0 then s.gWrite m p.1 (mergeLine x p.2.1 part) false 0 else (c, s)) (0, s)

/-- The reply of an exchange, of a function or of a helm core (R337, R482, R508). -/
def State.mailAnswer (s : State) (m : Mail) (rst : Nat) (body : List Byte) : State :=
  if m.src < 8 then s.fnAnswer m rst body
  else
    let bs := replyBytes (mailCode m.req) rst body m.limit
    let (st, s) := s.gPut helmMst m.dst bs
    s.setHelm (m.src - 8) { s.helmRt (m.src - 8) with mbx := some (st, if st = 0 then bs.length else 0) }

/-- HELM_MAILBOX_GO (R337, R482, R491). -/
def execHelmMailboxGo (w : Writer) (c : Fin 8) (s : State) : Ans :=
  .next (s.blockWrite w .HELM_MBX_CTL c 1 fun s =>
    if s.on .HELM_MBX_CTL_BUSY [c] then s.drop w .HELM_MBX_CTL [c] 1
    else
      let s := s.wr .HELM_MBX_CTL_BUSY [c] 1
      let req := s.rd .HELM_MBX_REQ_LO_ADDR [c] + s.rd .HELM_MBX_REQ_HI_ADDR [c] * 2 ^ 32
      let rsp := s.rd .HELM_MBX_RSP_LO_ADDR [c] + s.rd .HELM_MBX_RSP_HI_ADDR [c] * 2 ^ 32
      let n := s.rd .HELM_MBX_LEN_REQ [c]
      let lim := s.rd .HELM_MBX_LEN_LIMIT [c]
      let done (s : State) (st : Nat) : State := s.setHelm c { s.helmRt c with mbx := some (st, 0) }
      if lim = 0 ∨ 4096 < lim ∨ 4096 < n then done s 6
      else if n = 0 then done s 4
      else if s.plainHbm req n = false ∨ s.plainHbm rsp lim = false then done s 1
      else
        let (st, bs, s) := s.gBytes helmMst req n
        if st ≠ 0 then done s st
        else
          let m : Mail := { src := 8 + c.val, req := bs, limit := lim, dst := rsp, t := s.now }
          if mailBounce bs = 0 then { s with mail := s.mail ++ [m] } else s.mailAnswer m (mailBounce bs) [])

/-- HELM_MAILBOX_DONE (R482). -/
def execHelmMailboxDone (c : Fin 8) (s : State) : Ans :=
  match (s.helmRt c).mbx with
  | none => .next s
  | some (st, n) =>
    let s := ((s.wr .HELM_MBX_CTL_BUSY [c] 0).wr .HELM_MBX_CTL_STATUS [c] st).wr .HELM_MBX_CTL_BYTES [c] n
    .next ((s.setHelm c { s.helmRt c with mbx := none }).irq (16 + c))

end Sys2Proof.Machine
end

