-- ==== Sys2Proof/Machine/Noc.lean ====
section
/-! DEFINITION. The network on chip and the shared-resource arbiter (R161 to R193), the arbitration of packets into the pools
of the Galkor links (R201, R202). -/

namespace Sys2Proof.Machine

/-! ## The shared-resource arbiter (R183 to R187) -/

/-- The parameters of an arbiter (R184). -/
structure ArbPar where
  qfrom : Nat
  quota : Nat
  window : Nat
  wait : Nat

/-- The greatest of a list. -/
def maxOf (l : List Nat) : Nat := l.foldl max 0

/-- The first grant of a window clears counts and masks (R185). -/
def Arb.opened (a : Arb) (p : ArbPar) : Arb :=
  if p.window ≠ 0 ∧ a.n % p.window = 0 then { a with used := [], mask := [], n := 0 } else a

/-- The wait counter of an input forces a win (R185). -/
def Arb.forces (a : Arb) (p : ArbPar) (i : Nat) : Bool := p.wait ≠ 0 && decide (p.wait ≤ smGet a.wait [i] 0)

/-- The wait counters of inputs that lost. -/
def Arb.lose (a : Arb) (p : ArbPar) (l : List Nat) : Arb :=
  { a with wait := l.foldl (fun m i => smPut m [i] (min (smGet m [i] 0 + 1) p.wait) 0) a.wait }

/-- One decision among the raised inputs (R185): the winner and the arbiter after it. Without windows nothing is masked. -/
def Arb.decision (a : Arb) (p : ArbPar) (cand : List Nat) : Nat × Arb :=
  let windows := p.quota ≠ 0 ∧ p.window ≠ 0
  let a := a.opened p
  let forced := cand.filter (a.forces p)
  let unmasked := cand.filter (fun i => p.window = 0 || !a.mask.contains i)
  let (w, counted) := if !forced.isEmpty then (maxOf forced, true)
    else if !unmasked.isEmpty then (maxOf unmasked, true) else (maxOf cand, false)
  let a := a.lose p (cand.filter (· ≠ w))
  let a := { a with wait := smPut a.wait [w] 0 0, n := if p.window = 0 then 0 else a.n + 1 }
  if counted ∧ p.qfrom ≤ w ∧ windows then
    let u := smGet a.used [w] 0 + 1
    (w, { a with used := smPut a.used [w] u 0, mask := if p.quota ≤ u ∧ !a.mask.contains w then a.mask ++ [w] else a.mask })
  else (w, a)

def State.arb (s : State) (k : Key) : Arb := smGet s.arbs k {}
def State.setArb (s : State) (k : Key) (a : Arb) : State := { s with arbs := smPut s.arbs k a {} }

/-- A write of an arbiter's parameters starts a new window (R187). -/
def State.newWindow (s : State) (k : Key) : State := s.setArb k { s.arb k with used := [], mask := [], n := 0 }

/-! ## Packets (R166, R167) -/

/-- Class of an opcode, none for a reserved one; coherence messages are snoops or responses (R219). -/
def opcClass (o : Nat) : Option Nat :=
  if 0x01 ≤ o ∧ o ≤ 0x06 then some 0
  else if 0x07 ≤ o ∧ o ≤ 0x09 then some 1
  else if 0x10 ≤ o ∧ o ≤ 0x15 then some 3
  else if 0x18 ≤ o ∧ o ≤ 0x1D then some 2
  else if 0x1E ≤ o ∧ o ≤ 0x1F then some 3
  else none

/-- Length in flits. -/
def opcFlits (o : Nat) : Nat :=
  if o = 0x05 ∨ o = 0x08 ∨ o = 0x11 then 2 else if o = 0x06 ∨ o = 0x09 ∨ o = 0x12 then 4 else 1

/-- Lines that a request covers. -/
def opcLines (o : Nat) : Nat :=
  if o = 0x02 ∨ o = 0x05 ∨ o = 0x08 then 2 else if o = 0x03 ∨ o = 0x06 ∨ o = 0x09 then 4 else 1

/-- A packet whose class does not match its opcode, or whose opcode is reserved (R167), or whose `LEN` is invalid (R166; what
becomes of one the manual does not say: log entry 123). -/
def Pkt.malformed (p : Pkt) : Bool := opcClass p.opc != some p.cls || decide (16 < p.len)

/-- The header of a head flit without its code (R166). -/
def Pkt.header (p : Pkt) : Nat :=
  p.route % 2 ^ 48 + p.len % 32 * 2 ^ 48 + p.hops % 32 * 2 ^ 53 + p.dest % 4096 * 2 ^ 58 + p.src % 4096 * 2 ^ 70 +
    p.cls % 4 * 2 ^ 82 + p.bounce.toNat * 2 ^ 84 + p.opc % 32 * 2 ^ 85 + p.tag % 1024 * 2 ^ 90 + p.fn % 16 * 2 ^ 100

/-- A packet with the fields of a header. -/
def Pkt.withHeader (p : Pkt) (h : Nat) : Pkt :=
  { p with
    route := bitsOf h 0 48, len := bitsOf h 48 5, hops := bitsOf h 53 5, dest := bitsOf h 58 12, src := bitsOf h 70 12,
    cls := bitsOf h 82 2, bounce := h.testBit 84, opc := bitsOf h 85 5, tag := bitsOf h 90 10, fn := bitsOf h 100 4 }

/-- The data of a packet with bits of flit `i` altered. -/
def Pkt.flipData (p : Pkt) (i x : Nat) : Pkt := { p with data := p.data.zipIdx.map fun d => if d.2 = i then d.1 ^^^ x else d.1 }

/-- The data bits of a packet, flit 0 lowest: what its end-to-end CRC covers (R166). -/
def Pkt.bits (p : Pkt) : Nat := p.data.zipIdx.foldl (fun x d => x + d.1 % 2 ^ 512 * 2 ^ (512 * d.2)) 0

/-- The end-to-end CRC that the last body flit of a packet carries (R166). -/
def Pkt.crc (p : Pkt) : Nat := crc32 p.bits (512 * p.data.length)

/-- The response to a refused request (R19, R167): all-ones data and the status for a read, ERR for a write. -/
def Pkt.refusal (p : Pkt) (status : Nat) : Pkt :=
  let read := decide (1 ≤ p.opc ∧ p.opc ≤ 3)
  { dest := p.src, src := p.dest, cls := 3, opc := if read then 0x0F + p.opc else 0x14, tag := p.tag, fn := status,
    data := if read then List.replicate (opcLines p.opc) ones512 else [] }

def flitsOf (q : List Pkt) : Nat := (q.map (fun p => opcFlits p.opc)).sum

/-! ## The meshes (R161 to R164) -/

/-- Routers of a mesh, and its height. -/
def rtrCount (site : Nat) : Nat := if site < 8 then 24 else 16
def rtrRows (site : Nat) : Nat := if site < 8 then 6 else 4

/-- The router and port code of NoC link `j` of spoke `n` at the hub (R163). -/
def spokePort (n j : Nat) : Nat × Nat :=
  match n with
  | 0 => (12, [0, 3, 6, 7].getD j 0)
  | 2 => (15, [0, 1, 6, 7].getD j 0)
  | 4 => (3, [1, 2, 6, 7].getD j 0)
  | 6 => (0, [2, 3, 6, 7].getD j 0)
  | 1 => (if j < 2 then 13 else 14, 6 + j % 2)
  | 3 => (if j < 2 then 7 else 11, 6 + j % 2)
  | 5 => (if j < 2 then 1 else 2, 6 + j % 2)
  | _ => (if j < 2 then 4 else 8, 6 + j % 2)

/-- Where an output port of a router leads. -/
inductive Hop where
  | router (site r port : Nat)
  | local_ (ni : Nat)
  deriving DecidableEq, Repr

/-- The input that output port `c` of router `r` of a mesh leads to (R162, R163); none where the port is absent. -/
def hopOf (site r c : Nat) : Option Hop :=
  let x := r % 4
  let y := r / 4
  let top := rtrRows site - 1
  if c = 4 ∨ c = 5 then some (.local_ (2 * r + (c - 4)))
  else if c = 0 ∧ y < top then some (.router site (r + 4) 2)
  else if c = 1 ∧ x < 3 then some (.router site (r + 1) 3)
  else if c = 2 ∧ 0 < y then some (.router site (r - 4) 0)
  else if c = 3 ∧ 0 < x then some (.router site (r - 1) 1)
  else if site < 8 then
    if y = 0 ∧ (c = 2 ∨ c = 6 ∨ c = 7) then some (.router ((site + 7) % 8) (20 + x) (if c = 2 then 0 else c))
    else if y = 5 ∧ (c = 0 ∨ c = 6 ∨ c = 7) then some (.router ((site + 1) % 8) x (if c = 0 then 2 else c))
    else if x = 0 ∧ 1 ≤ y ∧ y ≤ 4 ∧ c = 3 then
      let (hr, hc) := spokePort site (y - 1)
      some (.router 8 hr hc)
    else none
  else
    (List.range 8).findSome? (fun n => (List.range 4).findSome? (fun j =>
      if spokePort n j = (r, c) then some (.router n (4 * (j + 1)) 3) else none))

/-- The endpoint of a local port's NI (R164), if its ID is assigned. -/
def niEndpoint (site ni : Nat) : Option Nat :=
  let r := ni / 2
  let l := ni % 2
  if site < 8 then
    let corner := site % 2 = 0
    if 4 ≤ r ∧ r < 16 then some (if l = 0 then r - 4 else 0x20 + (r - 4))
    else if corner ∧ r < 4 then some (0x10 + 2 * r + l)
    else if corner ∧ 20 ≤ r then some (0x18 + 2 * (r - 20) + l)
    else if r = 18 ∨ r = 19 then some (0x30 + 2 * (r - 18) + l)
    else if !corner ∧ r = 0 ∧ l = 0 then some 0x34
    else if r = 16 then some (if l = 0 then 0x40 else 0x7F)
    else if corner ∧ r = 17 then some (if l = 0 then 0x41 else 0x42)
    else none
  else match r with
    | 5 => some l
    | 6 => some (2 + l)
    | 9 => some (4 + l)
    | 10 => if l = 1 then some 0x7F else none
    | _ => none

/-- The destination ID of an NI. -/
def niId (site ni : Nat) : Option Nat := (niEndpoint site ni).map (fun e => site * 256 + e)

def isRelay (site ni : Nat) : Bool := niEndpoint site ni == some 0x7F

/-- Is output `c` of a router a Galkor port: the receiving end of its direction, as a die (8: the hub) and a side (0 from the
anticlockwise neighbour, 1 from the clockwise one, 2 the spoke; at the hub the number of the spoke), and its NoC link (R163)? -/
def galkorOf (site r c : Nat) : Option (Nat × Nat × Nat) :=
  match hopOf site r c with
  | some (.router t _ _) =>
    if t = site then none
    else if t = 8 then some (8, site, r / 4 - 1)
    else if site = 8 then (List.range 4).findSome? fun j => if spokePort t j = (r, c) then some (t, 2, j) else none
    else
      let j := 3 * (r % 4) + (if c = 6 then 1 else if c = 7 then 2 else 0)
      some (t, if t = (site + 1) % 8 then 0 else 1, j)
  | _ => none

/-- The opposite direction of a link, named by its receiving end. -/
def oppEnd (n k : Nat) : Nat × Nat :=
  if n = 8 then (k, 2) else if k = 0 then ((n + 7) % 8, 1) else if k = 1 then ((n + 1) % 8, 0) else (8, n)

/-- The router output that sends NoC link `j` of direction (n, k), and the router input where it arrives (R163). -/
def galkorOut (n k j : Nat) : Nat × Nat × Nat :=
  if n = 8 then (k, 4 * (j + 1), 3)
  else if k = 2 then let x := spokePort n j; (8, x.1, x.2)
  else
    let g := if j % 3 = 1 then 6 else 7
    if k = 0 then ((n + 7) % 8, 20 + j / 3, if j % 3 = 0 then 0 else g) else ((n + 1) % 8, j / 3, if j % 3 = 0 then 2 else g)

/-- NoC links of a direction. -/
def galkorLinks (n k : Nat) : Nat := if n = 8 ∨ k = 2 then 4 else 12

/-! ## Buffers -/

def State.q (s : State) (site r port vc : Nat) : List Pkt := smGet s.rtq [site, r, port, vc] []
def State.setQ (s : State) (site r port vc : Nat) (l : List Pkt) : State :=
  { s with rtq := smPut s.rtq [site, r, port, vc] l [] }

/-- A packet arrives in a buffer; at its head it begins to wait now. -/
def State.enq (s : State) (site r port vc : Nat) (p : Pkt) : State :=
  s.setQ site r port vc (s.q site r port vc ++ [{ p with t := s.now, arr := s.now }])

/-- The head of a buffer leaves; the next packet begins to wait now. -/
def State.deq (s : State) (site r port vc : Nat) : State :=
  s.setQ site r port vc (match (s.q site r port vc).tail with
    | p :: t => { p with t := s.now } :: t
    | [] => [])

/-- The head of a buffer is replaced and goes on waiting. -/
def State.setHead (s : State) (site r port vc : Nat) (p : Pkt) : State :=
  s.setQ site r port vc (match s.q site r port vc with
    | _ :: t => p :: t
    | [] => [])

def State.niRt (s : State) (site i : Nat) : NiRt := smGet s.ni [site, i] {}
def State.setNi (s : State) (site i : Nat) (x : NiRt) : State := { s with ni := smPut s.ni [site, i] x {} }

/-- One pool of a direction. -/
def State.pool (s : State) (n k p : Nat) : GkPool := smGet s.gkPool [n, k, p] {}
def State.setPool (s : State) (n k p : Nat) (x : GkPool) : State := { s with gkPool := smPut s.gkPool [n, k, p] x {} }

/-- Depth of a VC of an input (R168, R190). -/
def State.vcDepth (s : State) (site r port vc : Nat) : Nat :=
  match vc with
  | 0 => s.rd .NOC_RTR_VC_REQ [site, r, port]
  | 1 => s.rd .NOC_RTR_VC_PST [site, r, port]
  | 2 => s.rd .NOC_RTR_VC_SNP [site, r, port]
  | 3 => s.rd .NOC_RTR_VC_RSP [site, r, port]
  | _ => 4

/-- The flits of a class or of bounces that are on their way to an input over a Galkor link. -/
def State.flying (s : State) (n k j vc : Nat) : Nat := smGet (s.pool n k 0).fly [j, vc] 0 + smGet (s.pool n k 1).fly [j, vc] 0

def State.vcRoom (s : State) (site r port vc : Nat) (p : Pkt) (far : Nat := 0) : Bool :=
  flitsOf (s.q site r port vc) + far + opcFlits p.opc ≤ s.vcDepth site r port vc

/-- A packet that travels in the coherence pool (R201). -/
def Pkt.coh (p : Pkt) : Bool :=
  p.cls == 2 || [0x40, 0x41].contains (p.src % 256) || [0x40, 0x41].contains (p.dest % 256)

/-- The pool of a packet in direction (n, k) (R201, R203): 1 coherence, while it has groups, 0 NoC. -/
def State.poolOf (s : State) (n k : Nat) (p : Pkt) : Nat := if p.coh ∧ 0 < s.rd .GK_STAT_COH [n, k] then 1 else 0

/-- The link of a direction is up. -/
def State.dirUp (s : State) (n k : Nat) : Bool := s.rd .GK_STAT_STATE [n, k] = 2 || s.rd .GK_STAT_STATE [n, k] = 3

/-- Direction (n, k) carries a packet (R201): up, not detoured at either side, with a pool that can carry it; a NoC pool of a
ring link of 4 groups or fewer carries nothing (R199). -/
def State.linkCarries (s : State) (n k : Nat) (p : Pkt) : Bool :=
  let o := oppEnd n k
  s.dirUp n k && !s.on .GK_STAT_NOC_DETOUR [n, k] && !s.on .GK_STAT_NOC_DETOUR [o.1, o.2] &&
    (if n = 8 ∨ k = 2 then decide (0 < s.rd .GK_STAT_NOC [n, k])
     else s.poolOf n k p = 1 || decide (4 < s.rd .GK_STAT_NOC [n, k]))

/-- An output is usable by a packet (R170, R201): present, enabled, not leading to a VC of depth 0, and its link carries. -/
def State.outOk (s : State) (site r c : Nat) (p : Pkt) : Bool :=
  (s.rd .NOC_RTR_PORT_EN [site, r]).testBit c && (match hopOf site r c with
    | none => false
    | some (.local_ ni) => isRelay site ni || niId site ni == some p.dest
    | some (.router t r' port) => s.vcDepth t r' port p.cls != 0 && (match galkorOf site r c with
      | some (n, k, _) => s.linkCarries n k p
      | none => true))

/-! ## Routing -/

/-- The header after a router has taken its code (R169). -/
def Pkt.shift (p : Pkt) (port : Nat) : Pkt :=
  { p with route := p.route % 2 ^ 48 / 8 + port * 2 ^ 45, len := p.len - 1, hops := p.hops + 1 }

/-- The return route of a trail of `k` codes, most recent first (R178). -/
def returnRoute (route k : Nat) : Nat := (List.range k).foldl (fun x i => x + bitsOf route (45 - 3 * i) 3 * 8 ^ i) 0

/-- A bounced packet (R178): `p` as it stands after the router has written its input code into the trail. -/
def Pkt.bounced (p : Pkt) : Pkt :=
  { p with route := returnRoute p.route p.hops, len := p.hops, hops := 0, bounce := true }

/-- The VC in which a packet travels. -/
def Pkt.vc (p : Pkt) : Nat := if p.bounce then 4 else p.cls

/-- Is there room behind output `c` for packet `p` (R168)? What is on its way over a Galkor link counts as there. -/
def State.outRoom (s : State) (site r c : Nat) (p : Pkt) : Bool :=
  match hopOf site r c with
  | none => false
  | some (.local_ ni) => !p.bounce || decide ((s.niRt site ni).bounced.length < 16)
  | some (.router t r' port) => s.vcRoom t r' port p.vc p (match galkorOf site r c with
    | some (n, k, j) => s.flying n k j p.vc
    | none => 0)

/-- A packet leaves through output `c`, a mesh port or a local port. -/
def State.forward (s : State) (site r c port : Nat) (p : Pkt) : State :=
  let p' := p.shift port
  match hopOf site r c with
  | none => s
  | some (.local_ ni) =>
    let x := s.niRt site ni
    let p' := { p' with t := s.now, arr := s.now }
    s.setNi site ni (if p.bounce then { x with bounced := x.bounced ++ [p'] } else { x with inq := x.inq ++ [p'] })
  | some (.router t r' port') => s.enq t r' port' p.vc p'

/-- The arbiter input of a packet at an output (R183). -/
def arbInput (port vc : Nat) (bounce : Bool) : Nat := if bounce then 32 + port else 8 * vc + port

/-- The raised requests of output `c` of a router: heads that name it, may use it and find room behind it. -/
def State.raised (s : State) (site r c : Nat) : List (Nat × Nat × Pkt) :=
  (List.range 8).flatMap (fun port => (List.range 5).filterMap (fun vc =>
    match s.q site r port vc with
    | [] => none
    | p :: _ => if bitsOf p.route 0 3 = c ∧ 0 < p.len ∧ (p.bounce ∨ s.outOk site r c p) ∧ s.outRoom site r c p then
        some (port, vc, p) else none))

def State.rtrPar (s : State) (i : List Nat) : ArbPar :=
  { qfrom := s.rd .NOC_RTR_ARB_QFROM i, quota := s.rd .NOC_RTR_ARB_QUOTA i, window := s.rd .NOC_RTR_ARB_WINDOW i,
    wait := s.rd .NOC_RTR_ARB_WAIT i }

/-- The pending decision of output `c` (R186): input and VC of its winner. -/
def State.rtNext (s : State) (site r c : Nat) : Option (Nat × Nat) := smGet s.rtPend [site, r, c] none
def State.setRtNext (s : State) (site r c : Nat) (x : Option (Nat × Nat)) : State :=
  { s with rtPend := smPut s.rtPend [site, r, c] x none }

/-- Output `c` decides among the requests raised now (R185); its decision is pending until the break point. -/
def State.decide_ (s : State) (site r c : Nat) : State :=
  match s.raised site r c with
  | [] => s.setRtNext site r c none
  | cs =>
    let (w, a) := (s.arb [0, site, r, c]).decision (s.rtrPar [site, r]) ((cs.map (fun x => arbInput x.1 x.2.1 x.2.2.bounce)).eraseDups)
    (s.setArb [0, site, r, c] a).setRtNext site r c
      ((cs.find? (fun x => arbInput x.1 x.2.1 x.2.2.bounce = w)).map (fun x => (x.1, x.2.1)))

/-- The packet that output `c` grants next, with its input and VC: the winner of the pending decision while it is there to be
taken; a decision that is void is made afresh (R186). -/
def State.choose (s : State) (site r c : Nat) : State × Option (Nat × Nat × Pkt) :=
  let pick (s : State) : Option (Nat × Nat × Pkt) :=
    (s.rtNext site r c).bind fun x => (s.raised site r c).find? fun y => (y.1, y.2.1) = x
  match pick s with
  | some y => (s, some y)
  | none => let s := s.decide_ site r c; (s, pick s)

/-! ## Packets into the pools of a Galkor link (R201 to R203) -/

def State.gkPar (s : State) (i : List Nat) : ArbPar :=
  { qfrom := s.rd .GK_ARB_QFROM i, quota := s.rd .GK_ARB_QUOTA i, window := s.rd .GK_ARB_WINDOW i, wait := s.rd .GK_ARB_WAIT i }

/-- The input of a packet of NoC link `j` at its pool's arbiter (R202). -/
def gkInput (j : Nat) (p : Pkt) : Nat := if p.bounce then 48 + j else 12 * p.cls + j

/-- An output port drains. -/
def State.drains (s : State) (site r c : Nat) : Bool := (s.rd .NOC_RTR_PORT_DRAIN [site, r]).testBit c

/-- The requests at the arbiter of a pool: NoC link, arbiter input, and the router's input, VC and packet. -/
def State.poolRaised (s : State) (n k pl : Nat) : List (Nat × Nat × Nat × Nat × Pkt) :=
  (List.range (galkorLinks n k)).filterMap fun j =>
    let (site, r, c) := galkorOut n k j
    if s.drains site r c then none
    else ((s.rtNext site r c).bind fun x => (s.raised site r c).find? fun y => (y.1, y.2.1) = x).bind fun y =>
      if s.poolOf n k y.2.2 = pl then some (j, gkInput j y.2.2, y) else none

/-- The arbiter of a pool decides; the parameters are those of the sending side. -/
def State.poolDecide (s : State) (n k pl : Nat) : State :=
  match s.poolRaised n k pl with
  | [] => s.setPool n k pl { s.pool n k pl with pend := none }
  | cs =>
    let o := oppEnd n k
    let (w, a) := (s.arb [2, n, k, pl]).decision (s.gkPar [o.1, o.2, pl]) (cs.map (·.2.1))
    let s := s.setArb [2, n, k, pl] a
    s.setPool n k pl { s.pool n k pl with pend := (cs.find? (fun x => x.2.1 = w)).map (fun x => (x.1, x.2.1)) }

/-- A pool whose last packet has left takes the next one: the winner of its pending decision, or of a decision made afresh.
The packet leaves its router's buffer, its flits wait for frames, and both arbiters make their next decisions. -/
def State.poolGrant (s : State) (n k pl : Nat) : State :=
  if (s.pool n k pl).txq.isEmpty = false then s
  else
    let pick (s : State) := (s.pool n k pl).pend.bind fun x => (s.poolRaised n k pl).find? fun y => (y.1, y.2.1) = x
    let s := if (pick s).isSome then s else s.poolDecide n k pl
    match pick s with
    | none => s
    | some (j, _, port, vc, p) =>
      let (site, r, c) := galkorOut n k j
      let p' := p.shift port
      let x := s.pool n k pl
      let m := opcFlits p.opc
      let s := s.setPool n k pl { x with
        txq := (List.range m).map (fun i => { p := p', ix := i, j := j }), pend := none
        fly := smPut x.fly [j, p.vc] (smGet x.fly [j, p.vc] 0 + m) 0 }
      ((s.deq site r port vc).decide_ site r c).poolDecide n k pl

/-- Output `c` is free: the packet chosen leaves through it, and the next decision is made at that instant; at a Galkor port
it has to win its pool as well. A draining port grants nothing (R181). -/
def State.outGo (s : State) (site r c : Nat) : State :=
  if s.drains site r c then s
  else
    let (s, x) := s.choose site r c
    match x with
    | none => s
    | some (port, vc, p) =>
      match galkorOf site r c with
      | some (n, k, _) => s.poolGrant n k (s.poolOf n k p)
      | none => ((s.deq site r port vc).forward site r c port p).decide_ site r c

/-- A head that bounces makes void the decisions that chose it (R186): its output's and its pool's. -/
def State.voidAt (s : State) (site r port vc c : Nat) : State :=
  if s.rtNext site r c = some (port, vc) then
    let s := s.setRtNext site r c none
    match galkorOf site r c with
    | some (n, k, j) => (List.range 2).foldl (fun s pl =>
        let x := s.pool n k pl
        if x.pend.any (fun y => y.1 = j) then s.setPool n k pl { x with pend := none } else s) s
    | none => s
  else s

/-- The head of a buffer bounces (R178): counted; it waits where it lies for the output that it came in by, in the return VC
(R183), and leaves at once if it wins. -/
def State.bounceHead (s : State) (site r port vc : Nat) : State :=
  match s.q site r port vc with
  | [] => s
  | p :: _ =>
    let s := (s.bump .NOC_RTR_BOUNCE_COUNT [site, r]).voidAt site r port vc (bitsOf p.route 0 3)
    (s.setHead site r port vc { (p.shift port).bounced with t := s.now }).outGo site r port

/-- Set a bit of `NOC_RTR_ERR`; the first after all four were 0 records the port (R189). -/
def State.rtrErr (s : State) (site r port : Nat) (f : Fld) : State :=
  let i := [site, r]
  let clear := !(s.on .NOC_RTR_ERR_HCOR i || s.on .NOC_RTR_ERR_HUNC i || s.on .NOC_RTR_ERR_DCOR i || s.on .NOC_RTR_ERR_DUNC i)
  (if clear then s.wr .NOC_RTR_ERR_PORT i port else s).wr f i 1

/-- One finding of a router in a flit (R175, R176): corrected words are counted; a data word that cannot be corrected is
poisoned; so is the packet of a body flit whose header cannot be corrected (DEDUCED from R176, which loses packets in no other
case than an uncorrectable head flit: log entry 124). -/
def State.flitErr (s : State) (site r port : Nat) (e : FlitErr) : State :=
  let i := [site, r]
  match e.word, e.bad with
  | none, false => ((s.rtrErr site r port .NOC_RTR_ERR_HCOR).bump .NOC_RTR_CORCNT_COUNT i).raise .NOC_RTR_PORT i 175 0 [port]
  | none, true => ((s.rtrErr site r port .NOC_RTR_ERR_HUNC).bump .NOC_RTR_UNCCNT_COUNT i).raise .NOC_RTR_PORT i 176 3 [r, port]
  | some _, false => ((s.rtrErr site r port .NOC_RTR_ERR_DCOR).bump .NOC_RTR_CORCNT_COUNT i).raise .NOC_RTR_PORT i 175 0 [port]
  | some _, true => ((s.rtrErr site r port .NOC_RTR_ERR_DUNC).bump .NOC_RTR_UNCCNT_COUNT i).raise .NOC_RTR_PORT i 175 3 [port]

/-- The checks of an arriving packet (R167, R175, R176), flit by flit. A head flit whose header cannot be corrected is
discarded with its body; a malformed packet is discarded and logged. -/
def State.headChecks (s : State) (site r port vc : Nat) (errs : List FlitErr) (p : Pkt) : State × Bool :=
  let errs := errs.filter (fun e => e.flit.val < opcFlits p.opc)
  match errs.find? (fun e => e.flit = 0 && e.word.isNone && e.bad) with
  | some e => ((s.flitErr site r port e).deq site r port vc, false)
  | none =>
    let s := errs.foldl (fun s e => s.flitErr site r port e) s
    let s := if errs.any (·.bad) then s.setHead site r port vc { p with poison := true } else s
    if p.malformed then ((s.raise .NOC_RTR_PORT [site, r] 167 0 [port, p.opc]).deq site r port vc, false) else (s, true)

/-- ROUTER_HEAD_FLIT (R169, R170, R175, R176, R181, R183). -/
def execRouterHeadFlit (site : Fin 9) (r : Fin 24) (port : Fin 8) (vc : Fin 5) (errs : List FlitErr) (s : State) : Ans :=
  match s.q site r port vc with
  | [] => .next s
  | p :: _ =>
    let (s, there) := s.headChecks site r port vc errs p
    if there then
      let c := bitsOf p.route 0 3
      let lost := !p.bounce && ((p.len = 0 && port.val != 4 && port.val != 5) || !s.outOk site r c p)
      if lost then .next (s.bounceHead site r port vc) else .next (s.outGo site r c)
    else .next s

/-- STALL_BOUNCE (R180). -/
def execStallBounce (site : Fin 9) (r : Fin 24) (port : Fin 8) (vc : Fin 5) (s : State) : Ans :=
  let t := s.rd .NOC_STALL_TIMEOUT [site]
  match s.q site r port vc with
  | [] => .next s
  | p :: _ => if t = 0 ∨ p.bounce then .next s else .next ((s.lapseTo (p.t + t * 1000)).bounceHead site r port vc)

/-- PORT_DRAIN (R181): a write of `DRAIN`. -/
def execPortDrain (w : Writer) (site : Fin 9) (r : Fin 24) (bits : BitVec 8) (s : State) : Ans :=
  let i : List Nat := [site, r]
  .next (s.reach w .NOC_RTR_PORT i (s.wordWith .NOC_RTR_PORT i [(.NOC_RTR_PORT_DRAIN, bits.toNat)]) fun s =>
    let old := s.rd .NOC_RTR_PORT_DRAIN i
    let t := (List.range 8).foldl (fun m p =>
      if bits.toNat.testBit p then (if old.testBit p then m else smPut m [site.val, r.val, p] s.now 0)
      else smPut m [site.val, r.val, p] 0 0) s.drainT
    ({ s with drainT := t }.wr .NOC_RTR_PORT_DRAIN i bits.toNat).wr .NOC_RTR_PORT_DRAINED i
      (s.rd .NOC_RTR_PORT_DRAINED i &&& bits.toNat))

/-- Every buffer behind an output is empty, and nothing is on its way there: its credits have returned. -/
def State.behindEmpty (s : State) (site r c : Nat) : Bool :=
  match hopOf site r c with
  | some (.router t r' port) => (List.range 5).all (fun vc => (s.q t r' port vc).isEmpty && (match galkorOf site r c with
    | some (n, k, j) => s.flying n k j vc == 0
    | none => true))
  | _ => true

/-- PORT_DRAINED (R181). -/
def execPortDrained (site : Fin 9) (r : Fin 24) (p : Fin 8) (s : State) : Ans :=
  if (s.rd .NOC_RTR_PORT_DRAIN [site.val, r.val]).testBit p ∧ s.behindEmpty site r p then
    .next (s.setBit .NOC_RTR_PORT_DRAINED [site, r] p true)
  else .next s

/-- DRAIN_TIMEOUT_BOUNCE (R181). -/
def execDrainTimeoutBounce (site : Fin 9) (r : Fin 24) (port : Fin 8) (vc : Fin 5) (s : State) : Ans :=
  match s.q site r port vc with
  | [] => .next s
  | p :: _ =>
    let c := bitsOf p.route 0 3
    if (s.rd .NOC_RTR_PORT_DRAIN [site.val, r.val]).testBit c ∧ p.bounce = false then
      let t := max p.arr (smGet s.drainT [site.val, r.val, c] 0) + s.rd .NOC_DRAIN_TIMEOUT [site.val] * 1000
      .next ((s.lapseTo t).bounceHead site r port vc)
    else .next s

/-- Bit p may be reconfigured (R182). -/
def State.portFree (s : State) (site r p : Nat) : Bool :=
  (s.rd .NOC_RTR_PORT_DRAINED [site, r]).testBit p || !(s.rd .NOC_RTR_PORT_EN [site, r]).testBit p

/-- Depths that R190 refuses. -/
def vcBad (v : Nat) : Bool :=
  let d (i : Nat) := bitsOf v (8 * i) 6
  32 < d 0 + d 1 + d 2 + d 3 || [0, 1, 3].any (fun i => 1 ≤ d i && d i ≤ 3)

/-- ROUTER_PORT_CONFIG (R182, R190): a write of `NOC_RTR_VC[p]` (`vc`), or of `EN`, a 0 for a bit whose port is not free
being dropped. -/
def execRouterPortConfig (w : Writer) (site : Fin 9) (r : Fin 24) (p : Fin 8) (vc : Bool) (v : BitVec 32) (s : State) : Ans :=
  let i : List Nat := [site, r]
  if vc then
    .next (s.reach w .NOC_RTR_VC [site, r, p] v.toNat fun s =>
      if vcBad v.toNat || !s.portFree site r p then s.drop w .NOC_RTR_VC [site, r, p] v.toNat
      else (((s.wr .NOC_RTR_VC_REQ [site, r, p] (bitsOf v.toNat 0 6)).wr .NOC_RTR_VC_PST [site, r, p] (bitsOf v.toNat 8 6)).wr
        .NOC_RTR_VC_SNP [site, r, p] (bitsOf v.toNat 16 6)).wr .NOC_RTR_VC_RSP [site, r, p] (bitsOf v.toNat 24 6))
  else
    .next (s.reach w .NOC_RTR_PORT i v.toNat fun s =>
      let old := s.rd .NOC_RTR_PORT_EN i
      let new := v.toNat % 256
      let kept := (List.range 8).filter (fun b => old.testBit b && !new.testBit b && !s.portFree site r b)
      let s := s.wr .NOC_RTR_PORT_EN i (kept.foldl (fun x b => x + 2 ^ b) new)
      if kept.isEmpty then s else s.drop w .NOC_RTR_PORT i v.toNat)

/-! ## Bearings (R171, R192, R193) -/

def State.bearing (s : State) (site ni k : Nat) : List Nat := smGet s.bearings [site, ni, k] [0, 0, 0, 0]
def bWord (b : List Nat) (i : Nat) : Nat := b.getD i 0
def bDest (b : List Nat) : Nat := bitsOf (bWord b 0) 0 12
def bPriLen (b : List Nat) : Nat := bitsOf (bWord b 0) 16 5
def bAltLen (b : List Nat) : Nat := bitsOf (bWord b 0) 24 5
def bAltValid (b : List Nat) : Bool := bitsOf (bWord b 0) 29 1 == 1
def bUseAlt (b : List Nat) : Bool := bitsOf (bWord b 0) 30 1 == 1
def bValid (b : List Nat) : Bool := bitsOf (bWord b 0) 31 1 == 1
def bPri (b : List Nat) : Nat := bWord b 1 + bitsOf (bWord b 2) 0 16 * 2 ^ 32
def bAlt (b : List Nat) : Nat := bitsOf (bWord b 2) 16 16 + bWord b 3 * 2 ^ 16

/-- The valid bearing for a destination. -/
def State.bearingFor (s : State) (site ni dest : Nat) : Option (Nat × List Nat) :=
  (List.range 512).findSome? (fun k =>
    let b := s.bearing site ni k
    if bValid b && bDest b == dest then some (k, b) else none)

def State.setBearing (s : State) (site ni k : Nat) (b : List Nat) : State :=
  { s with bearings := smPut s.bearings [site, ni, k] b [0, 0, 0, 0] }

/-- The NI's counts for a destination are both 0 (R173, R174). -/
def NiRt.quiet (x : NiRt) (dest : Nat) : Bool := x.reqs.all (fun q => q.2.1 != dest) && smGet x.posted [dest] 0 == 0

/-- From here new packets for a destination are held (R174). -/
def NiRt.hold174 (x : NiRt) (dest : Nat) : NiRt :=
  if x.quiet dest || x.held.contains dest then x else { x with held := x.held ++ [dest] }

/-- Drop the holds whose counts have reached 0. -/
def NiRt.release (x : NiRt) : NiRt := { x with held := x.held.filter (fun d => !x.quiet d) }

/-- BEARING_READ (R192). -/
def execBearingRead (w : Writer) (site : Fin 9) (ni : Fin 48) (k : Fin 512) (s : State) : Ans :=
  let i : List Nat := [site, ni]
  .next (s.reach w .NOC_NI_BSEL i (k + 2 ^ 12) fun s =>
    let b := s.bearing site ni k
    let s := s.wr .NOC_NI_BSEL_INDEX i k
    (List.range 4).foldl (fun s j => s.wr .NOC_NI_BDATA_WORD [site, ni, j] (bWord b j)) s)

/-- The words of a bearing as it is kept: the bits of R193 that are 0 read 0. -/
def bClean (b : List Nat) : List Nat :=
  (bWord b 0 - (bWord b 0 &&& 0xE0F000)) :: b.tail

/-- The route in force of a bearing. -/
def bRoute (b : List Nat) : Nat × Nat := if bUseAlt b then (bAlt b, bAltLen b) else (bPri b, bPriLen b)

/-- A bearing is written; where that changes the route to its destination, new packets for it are held (R174). -/
def State.putBearing (s : State) (site ni k : Nat) (b : List Nat) : State :=
  let b := bClean b
  let old := (s.bearingFor site ni (bDest b)).map (fun x => bRoute x.2)
  let s := s.setBearing site ni k b
  if old = (s.bearingFor site ni (bDest b)).map (fun x => bRoute x.2) then s
  else s.setNi site ni ((s.niRt site ni).hold174 (bDest b))

/-- Dvorkenor writes bearings. -/
def State.putBearings (s : State) (bs : BearingSet) : State :=
  bs.foldl (fun s b =>
    let v := b.2.2.2.toNat
    s.putBearing b.1 b.2.1 b.2.2.1 ((List.range 4).map (fun i => bitsOf v (32 * i) 32))) s

/-- BEARING_WRITE (R192, R193, R174): dropped whole for a duplicate `DEST` or a length from 17 to 31. -/
def execBearingWrite (w : Writer) (site : Fin 9) (ni : Fin 48) (k : Fin 512) (s : State) : Ans :=
  let i : List Nat := [site, ni]
  .next (s.reach w .NOC_NI_BSEL i (k + 2 ^ 13) fun s =>
    let b := (List.range 4).map (fun j => s.rd .NOC_NI_BDATA_WORD [site, ni, j])
    let dup := bValid b && (List.range 512).any (fun j => j != k && bValid (s.bearing site ni j) && bDest (s.bearing site ni j) == bDest b)
    if dup || 16 < bPriLen b || 16 < bAltLen b then s.drop w .NOC_NI_BSEL i (k + 2 ^ 13)
    else (s.wr .NOC_NI_BSEL_INDEX i k).putBearing site ni k b)

/-- BEARING_INVALIDATE (R192). -/
def execBearingInvalidate (w : Writer) (site : Fin 9) (ni : Fin 48) (k : Fin 512) (s : State) : Ans :=
  let i : List Nat := [site, ni]
  .next (s.reach w .NOC_NI_BSEL i (k + 3 * 2 ^ 12) fun s =>
    let s := s.wr .NOC_NI_BSEL_INDEX i k
    let b := s.bearing site ni k
    s.setBearing site ni k (if bValid b then (bWord b 0 - 2 ^ 31) :: b.tail else b))

/-! ## Network interfaces (R165, R171 to R179) -/

/-- The first-error rule of `NOC_NI_ERR`. -/
def State.niErr (s : State) (site ni code dest : Nat) : State :=
  let i := [site, ni]
  if s.on .NOC_NI_ERR_VALID i then s
  else ((s.wr .NOC_NI_ERR_CODE i code).wr .NOC_NI_ERR_DEST i dest).wr .NOC_NI_ERR_VALID i 1

/-- The destination of a global address (R165), for a master on die `site`. -/
def State.destOf (s : State) (site g : Nat) : Option Nat :=
  match placeOf g with
  | .hbm =>
    if s.cacheable site g then some (site * 256 + 0x40)
    else
      let (st, a) := hbmSplit s.ilv g
      some (2 * st * 256 + 0x10 + s.hbmChannel st a)
  | .user d f => some (d * 256 + 0x20 + f)
  | .window e _ => some (e / 12 * 256 + e % 12)
  | .flash _ => some 0x805
  | .host p _ => some (0x801 + p)
  | _ => none

/-- Refusals that a NI makes before the mesh (R18, R19). -/
def State.niRefuses (s : State) (m : Mst) (g : Nat) : Nat :=
  match placeOf g with
  | .window _ _ => if winMaster m then 0 else 1
  | .flash _ => if flashMaster m then 0 else 1
  | .host p _ => s.hostStatus m p
  | .regs => 1
  | .reserved => 2
  | _ => 0

/-- The block of an NI receives the completion of its request. -/
def State.toOwn (s : State) (site ni : Nat) (p : Pkt) : State :=
  let x := s.niRt site ni
  s.setNi site ni { x with block := x.block ++ [p] }

/-- A packet joins those that an NI is to send. -/
def State.niPush (s : State) (site ni : Nat) (p : Pkt) : State :=
  let x := s.niRt site ni
  s.setNi site ni { x with hold := x.hold ++ [p] }

/-- A packet enters the router at the local port of its NI. -/
def State.niEnter (s : State) (site ni : Nat) (p : Pkt) : State := s.enq site (ni / 2) (4 + ni % 2) p.cls p
def State.niRoom (s : State) (site ni : Nat) (p : Pkt) : Bool := s.vcRoom site (ni / 2) (4 + ni % 2) p.cls p

/-- A packet is sent for the first time: counted for its destination (R173). A relay counts nothing: the answers go to `SRC`
and not to it (R172; log entry 125). -/
def State.niCount (s : State) (site ni : Nat) (p : Pkt) : State :=
  let x := s.niRt site ni
  let x := { x with sn := x.sn + 1 }
  s.setNi site ni (if isRelay site ni then x
    else match p.cls with
      | 0 => { x with reqs := x.reqs ++ [(p.tag, p.dest, p.opc, s.now)] }
      | 1 => { x with posted := smPut x.posted [p.dest] (smGet x.posted [p.dest] 0 + 1) 0 }
      | _ => x)

/-- A request refused under R19 by its NI: logged, and answered to the block, or by a relay to `SRC` (R171, R172). -/
def State.niRefuse (s : State) (site ni : Nat) (p : Pkt) (status : Nat) : State :=
  let s := s.refuse19 { src := p.src, fn := p.fn } p.addr status
  if p.cls ≠ 0 then s
  else if niId site ni = some p.src then s.toOwn site ni (p.refusal status) else s.niPush site ni (p.refusal status)

/-- A failed packet (R179): a request is completed to its block with UNREACHABLE, by a relay with ERR to `SRC`; any other is
discarded and logged. -/
def State.niFail (s : State) (site ni : Nat) (p : Pkt) : State :=
  let s := (s.bump .NOC_NI_FAIL_CNT_COUNT [site, ni]).niErr site ni 2 p.dest
  let x := s.niRt site ni
  match p.cls with
  | 0 =>
    if isRelay site ni then
      s.niPush site ni { dest := p.src, src := (niId site ni).getD 0, cls := 3, opc := 0x14, tag := p.tag, fn := 2 }
    else (s.setNi site ni { x with reqs := x.reqs.filter (fun q => q.1 != p.tag) }.release).toOwn site ni (p.refusal 2)
  | 1 => (s.setNi site ni { x with posted := smPut x.posted [p.dest] (smGet x.posted [p.dest] 0 - 1) 0 }.release).raise
      .NOC_NI_CTL [site, ni] 179 2 [p.dest, p.opc]
  | _ => s.raise .NOC_NI_CTL [site, ni] 179 2 [p.dest, p.opc]

/-- Insert a packet among those to be sent again, in the order first sent (R174). -/
def insertSn (p : Pkt) : List Pkt → List Pkt
  | [] => [p]
  | q :: r => if p.sn < q.sn then p :: q :: r else q :: insertSn p r

/-- A bounce at its NI (R179): once to be sent again on the alternate route, or failed. -/
def State.niBounce (s : State) (site ni : Nat) (p : Pkt) : State :=
  let s := s.bump .NOC_NI_BOUNCE_CNT_COUNT [site, ni]
  match s.bearingFor site ni p.dest with
  | some (k, b) =>
    if !p.alt && !p.again && bAltValid b then
      let s := (s.bump .NOC_NI_ALT_CNT_COUNT [site, ni]).setBearing site ni k
        (if bUseAlt b then b else (bWord b 0 + 2 ^ 30) :: b.tail)
      let x := (s.niRt site ni).hold174 p.dest
      s.setNi site ni { x with resend := insertSn { p with hops := 0, bounce := false, alt := true, again := true } x.resend }
    else s.niFail site ni p
  | none => s.niFail site ni p

/-- Send packets again, in the order first sent, on the alternate route as it stands now (R174, R179): one that finds no room
waits, and those of its class for its destination with it; a route of length 0 bounces at once (R171). -/
def State.pumpResend (s : State) (site ni : Nat) : State :=
  let l := (s.niRt site ni).resend
  let s := s.setNi site ni { s.niRt site ni with resend := [] }
  (l.foldl (fun (a : State × List (Nat × Nat)) p =>
    let (s, stuck) := a
    match s.bearingFor site ni p.dest with
    | none => (s.niFail site ni p, stuck)
    | some (_, b) =>
      if bAltValid b = false then (s.niFail site ni p, stuck)
      else if bAltLen b = 0 then ((s.bump .NOC_NI_BOUNCE_CNT_COUNT [site, ni]).niFail site ni p, stuck)
      else if s.niRoom site ni p ∧ stuck.contains (p.cls, p.dest) = false then
        (s.niEnter site ni { p with route := bAlt b, len := bAltLen b }, stuck)
      else (s.setNi site ni { s.niRt site ni with resend := (s.niRt site ni).resend ++ [p] }, (p.cls, p.dest) :: stuck))
    (s, [])).1

/-- Send packets for the first time, in order (R171, R174): a packet for a destination that is held, or that finds no room,
waits, and the later ones of its class for its destination with it. -/
def State.pumpHold (s : State) (site ni : Nat) : State :=
  let l := (s.niRt site ni).hold
  let s := s.setNi site ni { s.niRt site ni with hold := [] }
  (l.foldl (fun (a : State × List (Nat × Nat)) p =>
    let (s, stuck) := a
    let x := s.niRt site ni
    if x.held.contains p.dest || stuck.contains (p.cls, p.dest) then (s.niPush site ni p, stuck)
    else match s.bearingFor site ni p.dest with
      | none => ((s.niErr site ni 1 p.dest).niRefuse site ni p 2, stuck)
      | some (_, b) =>
        let (route, len) := bRoute b
        let p := { p with route := route, len := len, hops := 0, alt := bUseAlt b, again := false, sn := x.sn }
        if len = 0 then ((s.niCount site ni p).niBounce site ni p, stuck)
        else if s.niRoom site ni p then ((s.niCount site ni p).niEnter site ni p, stuck)
        else (s.niPush site ni p, (p.cls, p.dest) :: stuck))
    (s, [])).1

/-- An enabled NI sends what it can: first what is to be sent again. -/
def State.niPump (s : State) (site ni : Nat) : State :=
  if s.on .NOC_NI_CTL_EN [site, ni] then ((((s.pumpResend site ni).pumpHold site ni).pumpResend site ni).pumpHold site ni) else s

/-- Send a packet from an NI (R171); one for the NI itself is delivered to its own block without entering the router. -/
def State.niSend (s : State) (site ni : Nat) (p : Pkt) : State :=
  if niId site ni = some p.dest then
    let x := s.niRt site ni
    s.setNi site ni { x with inq := x.inq ++ [{ p with arr := s.now }] }
  else (s.niPush site ni p).niPump site ni

/-- The request packets of an NI that are outstanding, and those it has still to send. -/
def NiRt.tags (x : NiRt) : List Nat := x.reqs.map (·.1) ++ (x.hold.filter (fun p => p.cls = 0)).map (·.tag)

/-- NI_SEND (R165, R171, R173, R174): the block behind an NI sends a request or posted write of opcode `opc`. -/
def execNiSend (site : Fin 9) (ni : Fin 48) (opc : BitVec 5) (addr : BitVec 48) (tag : BitVec 10) (fn : BitVec 4)
    (data : List (BitVec 512)) (s : State) : Ans :=
  match niId site ni, opcClass opc.toNat with
  | some id, some cls =>
    let s := s.niPump site ni
    let x := s.niRt site ni
    let p : Pkt := { dest := id, src := id, cls := cls, opc := opc.toNat, tag := tag.toNat, fn := fn.toNat, addr := addr.toNat,
                     data := data.map (·.toNat) }
    let no := s.niRefuses { src := id, fn := fn.toNat } addr.toNat
    if s.on .NOC_NI_CTL_EN [site, ni] = false ∨ 1 < cls then .next s
    else if cls = 0 ∧ (1024 ≤ x.tags.length ∨ x.tags.contains tag.toNat) then .next s
    else if no ≠ 0 then .next (s.niRefuse site ni p no)
    else match s.destOf site addr.toNat with
      | none => .next s
      | some dest => .next (s.niSend site ni { p with dest := dest })
  | _, _ => .next s

/-- A packet whose header cannot be corrected is discarded by the NI that receives it, and logged (R176). -/
def State.niLost (s : State) (site ni : Nat) : State := s.raise .NOC_NI_CTL [site, ni] 176 3 [ni]

/-- NI_BOUNCE_RECEIVE (R174, R176, R179): of the bounces in the return queue the one first sent. -/
def execNiBounceReceive (site : Fin 9) (ni : Fin 48) (hdrBad : Bool) (s : State) : Ans :=
  let x := s.niRt site ni
  if s.on .NOC_NI_CTL_EN [site, ni] = false then .next s
  else match x.bounced.foldl (fun (b : Option Pkt) p => match b with
      | none => some p
      | some o => if p.sn < o.sn then some p else some o) none with
    | none => .next s
    | some p =>
      let s := s.setNi site ni { x with bounced := x.bounced.erase p }
      if hdrBad then .next (s.niLost site ni) else .next ((s.niBounce site ni p).niPump site ni)

/-- A posted packet has been accepted: it is to be acknowledged (R173). -/
def State.niAccept (s : State) (site ni : Nat) (p : Pkt) : State :=
  if p.cls = 1 then
    let x := s.niRt site ni
    s.setNi site ni { x with acks := smPut x.acks [p.src] (smGet x.acks [p.src] [] ++ [p.arr]) [] }
  else s

/-- RELAY_FORWARD (R172, R176): a packet that a relay has taken in is sent again under the relay's own bearings. -/
def execRelayForward (site : Fin 9) (ni : Fin 48) (hdrBad : Bool) (s : State) : Ans :=
  let x := s.niRt site ni
  match x.inq with
  | [] => .next s
  | p :: rest =>
    if isRelay site ni ∧ niId site ni ≠ some p.dest ∧ s.on .NOC_NI_CTL_EN [site.val, ni.val] then
      let s := s.setNi site ni { x with inq := rest }
      if hdrBad then .next (s.niLost site ni)
      else .next ((s.niAccept site ni p).niSend site ni { p with route := 0, len := 0, hops := 0, alt := false, again := false })
    else .next s

/-- A response at its requester (R173, R174): counts fall, holds end. -/
def NiRt.answered (x : NiRt) (p : Pkt) : NiRt :=
  if p.opc = 0x15 then
    { x with posted := smPut x.posted [p.src] (smGet x.posted [p.src] 0 - p.tag % 32) 0 }.release
  else { x with reqs := x.reqs.filter (fun q => q.1 != p.tag) }.release

/-- The local memories of an engine, and the flash cache, answer a request (R97, R98, R156, R18): line by line, under the
checks of the map; a posted write is only logged where it is refused. -/
def State.serve (s : State) (site ni : Nat) (p : Pkt) : State :=
  let m : Mst := { src := p.src, fn := p.fn }
  let lines := (List.range (opcLines p.opc)).map (fun i => p.addr + 64 * i)
  let back : Pkt := { dest := p.src, src := p.dest, cls := 3, opc := 0x13, tag := p.tag, fn := 0 }
  if p.opc ≤ 3 then
    let (c, ds, s) := lines.foldl (fun (a : Nat × List Nat × State) g =>
      let (d, c, s) := a.2.2.gRead m g (0, 0)
      (max a.1 c, a.2.1 ++ [d], s)) (0, [], s)
    s.niSend site ni { back with opc := 0x0F + p.opc, fn := c, data := ds }
  else
    let (c, s) := lines.zipIdx.foldl (fun (a : Nat × State) g =>
      let (c, s) := a.2.gWrite m g.1 (p.data.getD g.2 0) p.poison 0
      (max a.1 c, s)) (0, s)
    if p.cls ≠ 0 then s else s.niSend site ni (if c = 0 then back else { back with opc := 0x14, fn := c })

/-- The sector of fabric port `f` (R164). -/
def fportSector (f : Nat) : Nat := if f < 6 then 17 + f else 27 + f

/-- Deliver a packet to the block of an NI: a port of an HBM controller takes it into its queue; an engine's memories and the
flash cache answer requests; a fabric port whose sector has not yet run refuses them (R426). -/
def State.toBlock (s : State) (site ni : Nat) (p : Pkt) : State :=
  match niEndpoint site ni with
  | some ep =>
    if site % 2 = 0 ∧ site < 8 ∧ 0x10 ≤ ep ∧ ep < 0x20 ∧ p.cls ≤ 1 then
      let k := [site / 2, ep - 0x10]
      let a := (hbmSplit s.ilv p.addr).2
      { s with hbmPort := smPut s.hbmPort k (smGet s.hbmPort k [] ++
        [{ src := p.src, fn := p.fn, opc := p.opc, tag := p.tag, a := a, data := p.data, poison := p.poison, t := s.now }]) [] }
    else if p.cls ≤ 1 ∧ ((site < 8 ∧ ep < 0x0C) ∨ (site = 8 ∧ ep = 5)) then s.serve site ni p
    else if p.cls ≤ 1 ∧ site < 8 ∧ 0x20 ≤ ep ∧ ep < 0x2C ∧ (smGet s.sec [site, fportSector (ep - 0x20)] {}).opened = false then
      let s := s.refuse19 { src := p.src, fn := p.fn } p.addr 2
      if p.cls = 0 then s.niSend site ni (p.refusal 2) else s
    else s.toOwn site ni p
  | none => s

/-- Has the block room? A port of an HBM controller holds 64 requests (R239); the bridge of a sector in sector reset or in
migration takes nothing (R43, R61). -/
def State.blockRoom (s : State) (site ni : Nat) : Bool :=
  match niEndpoint site ni with
  | some ep =>
    if site % 2 = 0 ∧ site < 8 ∧ 0x10 ≤ ep ∧ ep < 0x20 then decide ((smGet s.hbmPort [site / 2, ep - 0x10] []).length < 64)
    else if site < 8 ∧ 0x20 ≤ ep ∧ ep < 0x2C then
      let x : SecRt := smGet s.sec [site, fportSector (ep - 0x20)] {}
      x.bridges || !x.opened
    else true
  | none => true

/-- NI_DELIVER (R167, R175 to R177): the CRC-32 of a multi-flit packet is formed anew over the data received. -/
def execNiDeliver (site : Fin 9) (ni : Fin 48) (hdrBad : Bool) (noise : List (BitVec 512)) (s : State) : Ans :=
  let x := s.niRt site ni
  match x.inq with
  | [] => .next s
  | p :: rest =>
    if s.on .NOC_NI_CTL_EN [site, ni] = false then .next s
    else if isRelay site ni ∧ niId site ni ≠ some p.dest then .next s
    else if hdrBad then .next ((s.setNi site ni { x with inq := rest }).niLost site ni)
    else if s.blockRoom site ni = false then .next s
    else if p.malformed then
      .next (((s.setNi site ni { x with inq := rest }).niErr site ni 6 p.src).raise .NOC_NI_CTL [site, ni] 167 0 [p.opc])
    else
      let got := noise.zipIdx.foldl (fun (q : Pkt) n => q.flipData n.2 n.1.toNat) p
      let bad := decide (1 < opcFlits p.opc) && got.crc != p.crc
      let s := s.setNi site ni (if p.cls = 3 then { x with inq := rest }.answered p else { x with inq := rest })
      let s := if bad then ((s.bump .NOC_NI_CRC_CNT_COUNT [site, ni]).niErr site ni 3 p.src).raise .NOC_NI_CTL [site, ni] 177 3 [p.src]
        else s
      let s := if p.poison && !bad then s.niErr site ni 5 p.src else s
      let s := s.niAccept site ni p
      .next ((s.toBlock site ni { got with poison := p.poison || bad }).niPump site ni)

/-- PACK_SEND (R173): 16 posted packets unacknowledged, or 1 µs after the oldest arrived. -/
def execPackSend (site : Fin 9) (ni : Fin 48) (src : BitVec 12) (s : State) : Ans :=
  let x := s.niRt site ni
  match niId site ni, smGet x.acks [src.toNat] [] with
  | some id, t :: ts =>
    let c := ts.length + 1
    let s := if 16 ≤ c then s else s.lapseTo (t + 1000)
    let n := min 16 c
    let s := s.setNi site ni { x with acks := smPut x.acks [src.toNat] ((t :: ts).drop n) [] }
    .next (s.niSend site ni { dest := src.toNat, src := id, cls := 3, opc := 0x15, tag := n, fn := 0 })
  | _, _ => .next s

/-- NI_RESPONSE_TIMEOUT (R176): the request with a tag completes with UNREACHABLE. -/
def execNiResponseTimeout (site : Fin 9) (ni : Fin 48) (tag : BitVec 10) (s : State) : Ans :=
  let x := s.niRt site ni
  let lim := s.rd .NOC_NI_CTL_RSP_TO [site.val, ni.val]
  match x.reqs.find? (fun q => q.1 = tag.toNat) with
  | some (tg, dest, opc, t) =>
    if lim = 0 then .next s
    else
      let s := s.lapseTo (t + lim * 10000)
      let s := (s.bump .NOC_NI_TO_CNT_COUNT [site, ni]).niErr site ni 4 dest
      let x := { x with reqs := x.reqs.filter (fun q => q.1 != tg) }.release
      let s := (s.setNi site ni x).toOwn site ni
        (({ dest := dest, src := (niId site ni).getD 0, cls := 0, opc := opc, tag := tg } : Pkt).refusal 2)
      .next ((s.raise .NOC_NI_CTL [site, ni] 176 0 [dest, tg]).niPump site ni)
  | none => .next s

end Sys2Proof.Machine
end

