-- ==== Sys2Proof/Machine/Galkor.lean ====
section
/-! DEFINITION. Galkor links: training, roles, pools and replay, lane health, spares, retirement, crossings (R194 to R214,
R228, R229). A direction of a link is named by its receiving end: die n with side 0 (from the anticlockwise neighbour), 1
(from the clockwise neighbour) or 2 (spoke), or 8 with the number of the spoke (the hub end). -/

namespace Sys2Proof.Machine

def State.link (s : State) (l : Nat) : GkLink := smGet s.gkLink [l] {}
def State.setLink (s : State) (l : Nat) (x : GkLink) : State := { s with gkLink := smPut s.gkLink [l] x {} }
def State.dir (s : State) (n k : Nat) : GkDir := smGet s.gkDir [n, k] {}
def State.setDir (s : State) (n k : Nat) (x : GkDir) : State := { s with gkDir := smPut s.gkDir [n, k] x {} }
/-- The two receiving ends of a link; the first is the clockwise direction, or the die end of a spoke. -/
def linkEnds (l : Nat) : List (Nat × Nat) := if l < 8 then [((l + 1) % 8, 0), (l, 1)] else [(l - 8, 2), (8, l - 8)]

/-- The link of an end. -/
def endLink (n k : Nat) : Nat := if n = 8 then 8 + k else if k = 0 then (n + 7) % 8 else if k = 1 then n else 8 + n

/-- The dies whose governors are asked, in order (R200, R394). -/
def linkDies (l : Nat) : List Nat := if l < 8 then (if l = 7 then [0, 7] else [l, l + 1]) else [l - 8]

/-- Groups of a direction (R194). -/
def groupCount (k : Nat) (n : Nat) : Nat := if n < 8 ∧ k < 2 then 96 else 32

/-- Permit code and units of a training (R395). -/
def linkOp (l : Nat) : Nat := if l < 8 then 7 else 8
def linkUnits (l : Nat) : Nat := if l < 8 then 4 else 2

/-- Ask for the permits of a training (R200). -/
def State.askLink (s : State) (l : Nat) : State :=
  let s := s.setLink l { s.link l with train := 1, retry := 0 }
  match linkDies l with
  | a :: b :: _ => s.request a (linkOp l) (linkUnits l) [l] [[b, linkOp l, linkUnits l]]
  | [a] => s.request a (linkOp l) (linkUnits l) [l] []
  | [] => s

def State.linkReturn (s : State) (l : Nat) : State := (linkDies l).foldl (fun s d => s.giveBack d (linkOp l) [l]) s

/-- Grant the head request of governor `g` if it is `who`'s for `op`. -/
def State.pullHead (s : State) (g op : Nat) (who : List Nat) : State :=
  match (s.gov g).queue with
  | p :: _ => if p.is op who then s.grantHead g else s
  | [] => s

/-- LINK_TRAINING_START (R200): at the grant of the last permit. -/
def execLinkTrainingStart (l : Fin 16) (s : State) : Ans :=
  if (s.link l).train = 1 then
    let ds := linkDies l
    let s' := if ds.length = 2 then s.pullHead (ds.headD 0) (linkOp l) [l] else s
    match s'.takeGrant (ds.getLastD 0) (linkOp l) [l.val] with
    | some s =>
      let s := s.setLink l { s.link l with train := 2, t0 := s.now }
      .next ((linkEnds l).foldl (fun s e => s.wr .GK_STAT_STATE [e.1, e.2] 1) s)
    | none => .next s
  else .next s

/-- LINK_TRAINING_PERMIT_TIMEOUT (R200). -/
def execLinkTrainingPermitTimeout (l : Fin 16) (s : State) : Ans :=
  if (s.link l).train = 1 then
    let ds := linkDies l
    let s' := if ds.length = 2 then s.pullHead (ds.headD 0) (linkOp l) [l] else s
    match (match s.takeTimeout (ds.headD 0) (linkOp l) [l.val] with
      | some t => some t
      | none => s'.takeTimeout (ds.getLastD 0) (linkOp l) [l.val]) with
    | some s =>
      let s := s.linkReturn l
      let x := s.link l
      let e := (linkEnds l).headD (0, 0)
      .next ((s.setLink l { x with train := 0, retry := if x.retried then 0 else s.now + 10000000 }).raise .GK_CTL [e.1, e.2] 200 2 [l])
    | none => .next s
  else .next s

/-- LINK_TRAINING_RETRY (R200): once, 10 ms later. -/
def execLinkTrainingRetry (l : Fin 16) (s : State) : Ans :=
  let x := s.link l
  if x.retry ≠ 0 ∧ x.train = 0 then
    let s := s.lapseTo x.retry
    .next ((s.setLink l { x with retry := 0, retried := true }).askLink l)
  else .next s

/-! ## Roles (R199) -/

/-- `GK_STAT` counts the groups of each role. -/
def State.gkCount (s : State) (n k : Nat) : State :=
  let c (r : Nat) := ((List.range (groupCount k n)).filter (fun g => s.rd .GK_GRP_STAT_ROLE [n, k, g] = r)).length
  ((s.wr .GK_STAT_NOC [n, k] (c 2)).wr .GK_STAT_COH [n, k] (c 3)).wr .GK_STAT_CROSS [n, k] (c 1)

/-- The groups of a role, ascending. -/
def State.groupsOf (s : State) (n k r : Nat) : List Nat :=
  (List.range (groupCount k n)).filter (fun g => s.rd .GK_GRP_STAT_ROLE [n, k, g] = r && !s.on .GK_GRP_STAT_PAUSED [n, k, g])

/-- Coherence groups: the greatest number that leaves 5 NoC groups (R199). -/
def cohCount (coh good : Nat) : Nat := min (min coh good) (good - 5)

/-- The crossing roles of R199: logical groups to physical ones, from the good groups; groups left, and sector pairs lost. -/
def crossAssign (xsect : Nat) (good : List Nat) : List (Nat × Nat) × List Nat × List Nat :=
  (List.range 48).foldl (fun (acc : List (Nat × Nat) × List Nat × List Nat) c =>
    let b := c / 6
    if !xsect.testBit b || acc.2.2.contains b then acc
    else match acc.2.1 with
      | [] => (acc.1, [], acc.2.2 ++ [b])
      | g :: r => (acc.1 ++ [(g, c)], r, acc.2.2)) ([], good, [])

/-- The configuration of a link: `GK_ROLE` on the clockwise side of Fn (R198). -/
def State.roleOf (s : State) (l : Nat) : Nat × Nat := (s.rd .GK_ROLE_XSECT [l, 1], min 24 (s.rd .GK_ROLE_COH [l, 1]))

/-- Output ports of a router drain from now (R181). -/
def State.drainPorts (s : State) (site r bits : Nat) : State :=
  let old := s.rd .NOC_RTR_PORT_DRAIN [site, r]
  let t := (List.range 8).foldl (fun m p =>
    if bits.testBit p ∧ old.testBit p = false then smPut m [site, r, p] s.now 0 else m) s.drainT
  { s with drainT := t }.wr .NOC_RTR_PORT_DRAIN [site, r] (old ||| bits)

/-- Detour: a NoC pool of 4 groups or fewer carries no traffic; the side's 12 ports, at both dies of the link, drain, and
Dvorkenor rewrites bearings, `bs` being its choice (R209). -/
def State.detour (s : State) (n k : Nat) (bs : BearingSet) : State :=
  if s.on .GK_STAT_NOC_DETOUR [n, k] then s
  else
    let s := (s.wr .GK_STAT_NOC_DETOUR [n, k] 1).wr .GK_STAT_STATE [n, k] 3
    let dn := if k = 0 then (n + 7) % 8 else n
    let up := (dn + 1) % 8
    let s := (List.range 4).foldl (fun s x => (s.drainPorts dn (20 + x) 0xC1).drainPorts up x 0xC4) s
    let s := s.putBearings bs
    (s.notice .GK_CTL [n, k] 0x1013 0 (s.rd .GK_STAT_NOC [n, k]) k none).capacityLost n

/-- A direction's training ends (R199, R200): `bad` lists failed lanes (group, lane), `clk` groups without clock. -/
def State.dirTrained (s : State) (l n k : Nat) (bad : List (Nat × Nat)) (clk : List Nat) (bs : BearingSet) : State :=
  let lanes (g : Nat) := (bad.filter (fun b => b.1 = g)).map (·.2)
  let good := (List.range (groupCount k n)).filter (fun g => !clk.contains g && (lanes g).eraseDups.length ≤ 1)
  let s := (s.setDir n k {}).wr .GK_STAT_NOC_DETOUR [n, k] 0
  let s := (s.setPool n k 0 {}).setPool n k 1 {}
  let s := (List.range (groupCount k n)).foldl (fun s g =>
    let sf := match lanes g with
      | [] => 63
      | x :: _ => if x = 33 then 62 else x
    (((s.wr .GK_GRP_STAT_ROLE [n, k, g] 0).wr .GK_GRP_STAT_LCROSS [n, k, g] 0).wr .GK_GRP_STAT_PAUSED [n, k, g] 0).wr
      .GK_GRP_STAT_SPARE_FOR [n, k, g] sf) s
  let role (s : State) (r : Nat) (gs : List Nat) : State := gs.foldl (fun s g => s.wr .GK_GRP_STAT_ROLE [n, k, g] r) s
  if l < 8 then
    let (xs, coh) := s.roleOf l
    let (cross, left, lost) := crossAssign xs good
    let c := cohCount coh left.length
    let s := cross.foldl (fun s x => (s.wr .GK_GRP_STAT_ROLE [n, k, x.1] 1).wr .GK_GRP_STAT_LCROSS [n, k, x.1] x.2) s
    let s := role s 3 (left.drop (left.length - c))
    let s := (role s 2 (left.take (left.length - c))).gkCount n k
    let s := (s.setDir n k { lost := lost }).wr .GK_STAT_STATE [n, k] (if good.isEmpty then 4 else if lost.isEmpty then 2 else 3)
    let s := lost.foldl (fun s b => (s.raise .GK_CTL [n, k] 199 3 [b]).capacityLost n) s
    if s.rd .GK_STAT_NOC [n, k] ≤ 4 ∧ good.isEmpty = false then s.detour n k bs else s
  else ((role s 2 good).gkCount n k).wr .GK_STAT_STATE [n, k] (if good.isEmpty then 4 else 2)

/-- LINK_TRAINING_DONE (R199, R200): at t0 + 1.05 ms. -/
def execLinkTrainingDone (l : Fin 16) (bad : List (Bool × Fin 96 × Fin 34)) (clk : List (Bool × Fin 96))
    (bs : BearingSet) (s : State) : Ans :=
  let x := s.link l
  if x.train = 2 then
    let s := (s.lapseTo (x.t0 + 1050000)).linkReturn l
    let s := s.setLink l { x with train := 0 }
    let s := (linkEnds l).zipIdx.foldl (fun s e =>
      let mine := fun (b : Bool) => b == decide (e.2 = 1)
      s.dirTrained l e.1.1 e.1.2 ((bad.filter (fun b => mine b.1)).map (fun b => (b.2.1.val, b.2.2.val)))
        ((clk.filter (fun b => mine b.1)).map (fun b => b.2.val)) bs) s
    .next (s.setLink l { x with train := 0, retry := 0, retried := false })
  else .next s

/-- Neither die of ring link n–(n+1) is in service (R198). -/
def State.linkIdle (s : State) (n : Nat) : Bool := !s.up n && !s.up ((n + 1) % 8)

/-- GK_ROLE_WRITE (R198, R228): on the clockwise side of Fn; the other side mirrors it. -/
def execGkRoleWrite (w : Writer) (n : Fin 8) (xsect : BitVec 8) (coh : BitVec 5) (s : State) : Ans :=
  if s.mute w then .next s
  else if s.linkIdle n then
    let m := (n.val + 1) % 8
    let put (s : State) (i : List Nat) : State := (s.wr .GK_ROLE_XSECT i xsect.toNat).wr .GK_ROLE_COH i coh.toNat
    let s := put (put s [n, 1]) [m, 0]
    .next (if 24 < coh.toNat then s.raise .GK_ROLE [n, 1] 228 2 [coh.toNat] else s)
  else .next (s.drop w .GK_ROLE [n, 1] (xsect.toNat + coh.toNat * 2 ^ 8))

/-! ## Pools and replay (R205) -/

/-- Is an end that the model indexes an end of a link? -/
def isEnd (n k : Nat) : Bool := (n < 8 && k < 3) || n == 8

/-- A link frame (R197) without its data. -/
structure LinkFrame where
  flit : Option GkFlit := none
  seq : Nat := 0
  aseq : Nat := 0
  akind : Nat := 0

/-- Does `CRC` of a link frame pass with these bits of the frame altered? It covers bits [767:720] and [687:0]; being linear, it
passes exactly where the altered bits of `CRC` are the CRC of the altered bits that it covers (`crcLin`). -/
def frameOk (flips : Nat) : Bool := crcLin (bitsOf flips 0 688 + bitsOf flips 720 48 * 2 ^ 688) 736 == bitsOf flips 688 32

/-- The fields of a frame with bits altered. -/
def LinkFrame.altered (f : LinkFrame) (flips : Nat) : LinkFrame :=
  { flit := if flips.testBit 762 then none else f.flit
    seq := f.seq ^^^ bitsOf flips 720 10, aseq := f.aseq ^^^ bitsOf flips 730 10, akind := f.akind ^^^ bitsOf flips 740 2 }

/-- The packet of a flit with bits of its frame altered: header in [111:0], data in [623:112]. -/
def GkFlit.altered (f : GkFlit) (p : Pkt) (flips : Nat) : Pkt :=
  (if f.ix = 0 then p.withHeader (p.header ^^^ bitsOf flips 0 104) else p).flipData f.ix (bitsOf flips 112 512)

/-- The groups that a pool uses: those of its role that are not paused; without coherence groups the NoC ones. -/
def State.poolGroups (s : State) (n k pl : Nat) : List Nat :=
  if pl = 1 ∧ (s.groupsOf n k 3).isEmpty = false then s.groupsOf n k 3 else s.groupsOf n k 2

/-- What a pool's transmitter sends next (R205), `aseq` and `akind` apart: frames of the replay buffer that a replay has still to
send; else the next flit, into the buffer while it holds fewer than 512 frames; else a frame without a flit. -/
def GkPool.send (x : GkPool) : GkPool × LinkFrame :=
  match x.buf[x.sent]?, x.txq with
  | some f, _ => ({ x with sent := x.sent + 1 }, { flit := some f, seq := (x.seq + 1024 - x.buf.length + x.sent) % 1024 })
  | none, f :: r =>
    if x.buf.length < 512 then
      ({ x with buf := x.buf ++ [f], txq := r, sent := x.sent + 1, seq := (x.seq + 1) % 1024 }, { flit := some f, seq := x.seq })
    else (x, {})
  | none, [] => (x, {})

/-- The acknowledgement that a receiver has to send: `AKIND` and `ASEQ`. -/
def GkPool.ack (x : GkPool) : Nat × Nat :=
  if x.nakDue then (2, x.exp) else if x.ackDue then (1, (x.exp + 1023) % 1024) else (0, 0)

/-- A transmitter drops the frames before `SEQ` `a` from its replay buffer. -/
def GkPool.release (x : GkPool) (a : Nat) : GkPool :=
  let k := (a + 1024 - (x.seq + 1024 - x.buf.length) % 1024) % 1024
  if k ≤ x.buf.length then { x with buf := x.buf.drop k, sent := x.sent - k } else x

/-- A transmitter reads an acknowledgement. -/
def GkPool.acked (x : GkPool) (akind aseq : Nat) : GkPool :=
  if akind = 1 then x.release ((aseq + 1) % 1024) else if akind = 2 then { x.release aseq with nak := some aseq } else x

/-- The lanes of the altered bits of a frame that three groups carried, bits [255:0] first, each lane's spare in its place. -/
def State.chargeOf (s : State) (n k : Nat) (x : Nat × List Nat) : List (Nat × Nat × Nat) :=
  ((List.range 768).filter (fun b => x.1.testBit b)).map fun b =>
    let g := x.2.getD (b / 256) 0
    let l := b % 256 / 8
    (g, if s.rd .GK_GRP_STAT_SPARE_FOR [n, k, g] = l then 33 else l, s.now)

/-- A frame that failed its `CRC` is discarded (R205): counted on its groups; the receiver asks for the expected frame again, and
keeps that frame's first failed copy. -/
def State.frameFailed (s : State) (n k pl : Nat) (f : LinkFrame) (gs : List Nat) (flips : Nat) : State :=
  let x := s.pool n k pl
  let mine := f.flit.isSome && f.seq == x.exp
  let s := gs.eraseDups.foldl (fun s g => s.bump .GK_GRP_CRC_CNT_COUNT [n, k, g]) s
  let s := s.raise .GK_CTL [n, k] 205 0 [pl, gs.headD 0]
  s.setPool n k pl { s.pool n k pl with
    disc := true, nakDue := x.nakDue || mine || !x.disc, fails := if mine then x.fails + 1 else x.fails
    failed := if mine ∧ x.failed.isNone then some (flips, gs) else x.failed }

/-- A flit in sequence is taken (R205): the failed copy is compared; with its last flit the packet goes on into the router. -/
def State.frameTaken (s : State) (n k pl : Nat) (f : GkFlit) (flips : Nat) : State :=
  let x := s.pool n k pl
  let charges := match x.failed with
    | some y => s.chargeOf n k y
    | none => []
  let d := s.dir n k
  let s := s.setDir n k { d with charges := d.charges ++ charges }
  let p := f.altered (if f.ix = 0 then f.p else x.rx.getD f.p) flips
  let last := decide (f.ix + 1 = opcFlits f.p.opc)
  let x := { x with exp := (x.exp + 1) % 1024, disc := false, fails := 0, failed := none, ackDue := true, nakDue := false
                    rx := if last then none else some p }
  if last then
    let (site, r, c) := galkorOut n k f.j
    let s := s.setPool n k pl { x with fly := smPut x.fly [f.j, f.p.vc] (smGet x.fly [f.j, f.p.vc] 0 - opcFlits f.p.opc) 0 }
    match hopOf site r c with
    | some (.router t r' port) => s.enq t r' port p.vc p
    | _ => s
  else s.setPool n k pl x

/-- LINK_FRAME_RECEIVE (R197, R205): the transmitter's next frame arrives. The acknowledgement in it, for the opposite
direction, counts in every intact frame; a flit only with the expected `SEQ`. -/
def execLinkFrameReceive (n : Fin 9) (k : Fin 8) (coh : Bool) (g0 g1 g2 : Fin 96) (flips : BitVec 768) (s : State) : Ans :=
  let pl := if coh then 1 else 0
  let gs := [g0.val, g1.val, g2.val]
  let ok := isEnd n k && s.dirUp n k && gs.all (fun g => (s.poolGroups n k pl).contains g)
  if ok = false ∨ 16 ≤ (s.pool n k pl).fails then .next s
  else
    let x := s.pool n k pl
    let s := if x.txq.isEmpty ∧ x.sent = x.buf.length then s.poolGrant n k pl else s
    let (on, ok) := oppEnd n k
    let (akind, aseq) := (s.pool on ok pl).ack
    let (x, f) := (s.pool n k pl).send
    let f := { f with akind := akind, aseq := aseq }
    let s := s.setPool n k pl x
    if frameOk flips.toNat then
      let y := s.pool on ok pl
      let s := if akind = 0 then s else s.setPool on ok pl { y with ackDue := false, nakDue := y.nakDue && akind != 2 }
      let f := f.altered flips.toNat
      let s := s.setPool on ok pl ((s.pool on ok pl).acked f.akind f.aseq)
      match f.flit with
      | some x => if f.seq = (s.pool n k pl).exp then .next (s.frameTaken n k pl x flips.toNat) else .next s
      | none => .next s
    else .next (s.frameFailed n k pl f gs flips.toNat)

/-- LINK_REPLAY (R205): the transmitter of direction (n, k) resends from the frame that the negative acknowledgement names. -/
def execLinkReplay (n : Fin 9) (k : Fin 8) (coh : Bool) (g : Fin 96) (s : State) : Ans :=
  let p := if coh then 1 else 0
  let x := s.pool n k p
  match x.nak with
  | some _ => .next ((s.setPool n k p { x with sent := 0, nak := none }).bump .GK_GRP_REPLAY_CNT_COUNT [n, k, g])
  | none => .next s

/-- POOL_RETRAIN (R205): after 16 failures in succession the groups have retrained; frames waited and none is lost. -/
def execPoolRetrain (n : Fin 9) (k : Fin 8) (coh : Bool) (s : State) : Ans :=
  let p := if coh then 1 else 0
  let x := s.pool n k p
  if 16 ≤ x.fails then .next (s.setPool n k p { x with fails := 0, nakDue := true }) else .next s

/-! ## Lane health (R206) -/

/-- LANE_HEALTH_INTERVAL (R206): `counts` gives group, lane and the UIs of the interval in which its samplers disagreed. A lane
that the spare stands in for, and a failed spare, are out of use. -/
def execLaneHealthInterval (n : Fin 9) (k : Fin 8) (counts : List (Fin 96 × Fin 34 × Nat)) (s : State) : Ans :=
  let i : List Nat := [n, k]
  if isEnd n k = false then .next s
  else
    let mthr := s.rd .GK_HEALTH_MTHR i
    let cthr := s.rd .GK_HEALTH_CTHR i
    let s := counts.foldl (fun s c => s.bump .GK_LANE_MCNT_COUNT [n, k, c.1, c.2.1] c.2.2) s
    let d := s.dir n k
    let recent := d.charges.filter (fun c => s.now < c.2.2 + 1000000000)
    let used (x : Nat × Nat) : Bool :=
      let sf := s.rd .GK_GRP_STAT_SPARE_FOR [n, k, x.1]
      x.2 != sf && !(x.2 == 33 && sf == 62)
    let byM := if mthr = 0 then [] else (counts.filter (fun c => mthr ≤ c.2.2)).map (fun c => (c.1.val, c.2.1.val))
    let byC := if cthr = 0 then [] else
      ((recent.map (fun c => (c.1, c.2.1))).eraseDups).filter (fun x => cthr ≤ (recent.filter (fun c => (c.1, c.2.1) = x)).length)
    let hit := ((byM ++ byC).eraseDups).filter used
    let free (g : Nat) : Bool := s.rd .GK_GRP_STAT_SPARE_FOR [n, k, g] == 63
    let s := hit.foldl (fun (s : State) (x : Nat × Nat) =>
      let s := s.raise .GK_CTL i 206 2 [x.1, x.2]
      if x.2 = 33 ∧ free x.1 then s.wr .GK_GRP_STAT_SPARE_FOR [n, k, x.1] 62 else s) s
    .next (s.setDir n k { s.dir n k with
      charges := recent, crossed := (d.crossed ++ hit.filter (fun x => x.2 ≠ 33 ∨ free x.1 = false)).eraseDups })

/-! ## Spares (R207, R208) -/

def State.spareFree (s : State) (n k g : Nat) : Bool := s.rd .GK_GRP_STAT_SPARE_FOR [n, k, g] = 63

/-- Groups of a direction with a free spare: the margin of notice 0x1010. -/
def State.freeSpareGroups (s : State) (n k : Nat) : Nat :=
  ((List.range (groupCount k n)).filter (fun g => s.rd .GK_GRP_STAT_ROLE [n, k, g] ≠ 0 && s.spareFree n k g)).length

def State.spareNotice (s : State) (n k g : Nat) : State :=
  s.notice .GK_CTL [n, k] 0x1010 g (s.freeSpareGroups n k) k (some 3)

/-- The swap of a lane of a NoC or coherence group begins: the group pauses. -/
def State.swapBegin (s : State) (n k g l : Nat) : State :=
  let d := s.dir n k
  (s.setDir n k { d with crossed := d.crossed.filter (· ≠ (g, l)), swaps := d.swaps ++ [(g, l, s.now)] }).wr
    .GK_GRP_STAT_PAUSED [n, k, g] 1

/-- The spine of the crossing of the link that end (n, k) belongs to, and its frequency in kHz (R68, R228). -/
def State.crossSpine (s : State) (n k : Nat) : Nat := (smGet s.synth [8, s.rd .GK_CTL_SPINE [if k = 0 then (n + 7) % 8 else n, 1]] {}).freq

/-- The swap of a lane of a crossing group begins: 4,096 frames, one per spine cycle, are checked, then the hub sets the instant;
the model takes the earliest that R208 allows, 10 µs ahead. -/
def State.crossSwapBegin (s : State) (n k g l : Nat) : State :=
  let d := s.dir n k
  s.setDir n k { d with crossed := d.crossed.filter (· ≠ (g, l)), cswaps := d.cswaps ++ [(g, l, s.now + 4096 * 1000000 / s.crossSpine n k + 10000)] }

def State.busyGroup (s : State) (n k g : Nat) : Bool :=
  let d := s.dir n k
  d.swaps.any (fun x => x.1 = g) || d.cswaps.any (fun x => x.1 = g) || d.convs.any (fun x => x.from_ = g || x.into = g)

/-- SPARE_SWAP (R207). -/
def execSpareSwap (n : Fin 9) (k : Fin 8) (g : Fin 96) (l : Fin 33) (s : State) : Ans :=
  let r := s.rd .GK_GRP_STAT_ROLE [n.val, k.val, g.val]
  if (s.dir n k).crossed.contains (g.val, l.val) ∧ (r = 2 ∨ r = 3) ∧ s.spareFree n k g ∧ s.busyGroup n k g = false then
    .next (s.swapBegin n k g l)
  else .next s

/-- SPARE_REJOIN (R207): at t0 + 1.5 µs. -/
def execSpareRejoin (n : Fin 9) (k : Fin 8) (g : Fin 96) (s : State) : Ans :=
  let d := s.dir n k
  match d.swaps.find? (fun x => x.1 = g.val) with
  | some (_, l, t) =>
    let s := s.lapseTo (t + 1500)
    let s := s.setDir n k { d with swaps := d.swaps.filter (fun x => x.1 ≠ g.val) }
    let s := (s.wr .GK_GRP_STAT_SPARE_FOR [n, k, g] l).wr .GK_GRP_STAT_PAUSED [n, k, g] 0
    .next (s.spareNotice n k g)
  | none => .next s

/-- CROSSING_SPARE_SWAP (R208). -/
def execCrossingSpareSwap (n : Fin 9) (k : Fin 8) (g : Fin 96) (l : Fin 33) (s : State) : Ans :=
  if (s.dir n k).crossed.contains (g.val, l.val) ∧ s.rd .GK_GRP_STAT_ROLE [n.val, k.val, g.val] = 1 ∧ s.spareFree n k g ∧
      s.busyGroup n k g = false then
    .next (s.crossSwapBegin n k g l)
  else .next s

/-! ## Retirement and conversion (R209, R210) -/

/-- Active groups, the margin of notice 0x1011. -/
def State.activeGroups (s : State) (n k : Nat) : Nat := s.rd .GK_STAT_NOC [n, k] + s.rd .GK_STAT_COH [n, k] + s.rd .GK_STAT_CROSS [n, k]

/-- The side of a notice, and the NoC, coherence and crossing group counts (R210, R499: the side is in the lowest bits). -/
def State.gkDetail (s : State) (n k : Nat) : Nat :=
  k + s.rd .GK_STAT_NOC [n, k] * 2 ^ 8 + s.rd .GK_STAT_COH [n, k] * 2 ^ 16 + s.rd .GK_STAT_CROSS [n, k] * 2 ^ 24

/-- A group leaves its role for good. -/
def State.groupOut (s : State) (n k g : Nat) : State :=
  let s := (((s.wr .GK_GRP_STAT_ROLE [n, k, g] 0).wr .GK_GRP_STAT_LCROSS [n, k, g] 0).wr .GK_GRP_STAT_PAUSED [n, k, g] 0).gkCount n k
  s.notice .GK_CTL [n, k] 0x1011 g (s.activeGroups n k) (s.gkDetail n k) none

/-- Detour where the NoC pool of a ring link has fallen to 4 groups. -/
def State.floor (s : State) (n k : Nat) (bs : BearingSet) : State :=
  if n < 8 ∧ k < 2 ∧ s.rd .GK_STAT_NOC [n, k] ≤ 4 then s.detour n k bs else s

/-- Sector pairs that still cross in a direction. -/
def State.pairsLeft (s : State) (n k : Nat) : Nat :=
  ((List.range 8).filter fun b =>
    (s.rd .GK_ROLE_XSECT [n, k]).testBit b && !(s.dir n k).lost.contains b).length

/-- A logical crossing group is lost, and with it its sector pair (R209, R212). -/
def State.loseCrossing (s : State) (n k g : Nat) : State :=
  let lc := s.rd .GK_GRP_STAT_LCROSS [n, k, g]
  let s := s.groupOut n k g
  let d := s.dir n k
  let s := s.setDir n k { d with lost := if d.lost.contains (lc / 6) then d.lost else d.lost ++ [lc / 6] }
  ((s.wr .GK_STAT_STATE [n, k] 3).raise .GK_CTL [n, k] 209 3 [g, lc, s.pairsLeft n k]).capacityLost n

/-- A group is taken for the crossing role: it leaves its pool, and the conversion permits are asked for (R209). -/
def State.convBegin (s : State) (n k g into : Nat) : State :=
  let d := s.dir n k
  let lc := s.rd .GK_GRP_STAT_LCROSS [n, k, g]
  let s := s.setDir n k { d with convs := d.convs ++ [{ from_ := g, lc := lc, into := into }] }
  let s := s.wr .GK_GRP_STAT_PAUSED [n, k, into] 1
  let s := (s.wr .GK_GRP_STAT_ROLE [n, k, into] 0).gkCount n k
  let ds := linkDies (endLink n k)
  s.request (ds.headD 0) 9 1 [n, k, into] [[ds.getLastD 0, 9, 1]]

/-- Retire group `g` (R209). -/
def State.retireGroup (s : State) (n k g : Nat) (bs : BearingSet) : State :=
  let d := s.dir n k
  let s := s.setDir n k { d with crossed := d.crossed.filter (fun x => x.1 ≠ g) }
  match s.rd .GK_GRP_STAT_ROLE [n, k, g] with
  | 2 => (s.groupOut n k g).floor n k bs
  | 3 => s.groupOut n k g
  | 1 =>
    match s.groupsOf n k 2 with
    | h :: _ =>
      let s := if s.rd .GK_STAT_NOC [n, k] ≤ 4 then s.detour n k bs else s
      (s.convBegin n k g h).floor n k bs
    | [] => match s.groupsOf n k 3 with
      | h :: _ => s.convBegin n k g h
      | [] => s.loseCrossing n k g
  | _ => s

/-- GROUP_RETIRE (R209): another lane of a group past its spare crosses threshold, or its clock fails (`clk`). -/
def execGroupRetire (n : Fin 9) (k : Fin 8) (g : Fin 96) (clk : Bool) (bs : BearingSet) (s : State) : Ans :=
  if isEnd n k ∧ s.busyGroup n k g = false ∧
      (clk ∨ (s.spareFree n k g = false ∧ (s.dir n k).crossed.any (fun x =>
        x.1 = g.val ∧ x.2 ≠ s.rd .GK_GRP_STAT_SPARE_FOR [n.val, k.val, g.val]))) then
    .next (s.retireGroup n k g bs)
  else .next s

/-- Time from the grant to the switch of a conversion, in ns. R209 bounds it by 1 ms; this is the model's choice (log entry 131). -/
def convTime : Nat := 248000

/-- GROUP_CONVERSION (R209; a permit that has timed out is asked for again, log entry 139): with the permits granted the group retrains in the crossing role and shadows, and the hub sets the
switch instant. -/
def execGroupConversion (n : Fin 9) (k : Fin 8) (g : Fin 96) (s : State) : Ans :=
  let d := s.dir n k
  let ds := linkDies (endLink n k)
  match d.convs.find? (fun c => c.into = g.val && !c.granted) with
  | some c =>
    let who : List Nat := [n, k, g]
    let s := if ds.any (fun x => s.waits x 9 who) then s else s.request (ds.headD 0) 9 1 who [[ds.getLastD 0, 9, 1]]
    match (s.pullHead (ds.headD 0) 9 who).takeGrant (ds.getLastD 0) 9 who with
    | some s => .next (s.setDir n k { d with
        convs := d.convs.map (fun x => if x = c then { x with granted := true, instant := s.now + convTime } else x) })
    | none => .next s
  | none => .next s

/-- CROSSING_SWITCH_INSTANT (R208, R209): the spare, or the converted group, takes over between two spine cycles. -/
def execCrossingSwitchInstant (n : Fin 9) (k : Fin 8) (g : Fin 96) (s : State) : Ans :=
  let d := s.dir n k
  match d.cswaps.find? (fun x => x.1 = g.val) with
  | some (_, l, t) =>
    let s := (s.lapseTo t).setDir n k { d with cswaps := d.cswaps.filter (fun x => x.1 ≠ g.val) }
    .next ((s.wr .GK_GRP_STAT_SPARE_FOR [n, k, g] l).spareNotice n k g)
  | none => match d.convs.find? (fun c => c.into = g.val && c.granted) with
    | some c =>
      let s := (s.lapseTo c.instant).setDir n k { d with convs := d.convs.filter (· ≠ c) }
      let s := (linkDies (endLink n k)).foldl (fun s x => s.giveBack x 9 [n, k, g]) s
      let s := ((s.wr .GK_GRP_STAT_ROLE [n, k, g] 1).wr .GK_GRP_STAT_LCROSS [n, k, g] c.lc).wr .GK_GRP_STAT_PAUSED [n, k, g] 0
      let s := s.groupOut n k c.from_
      .next (s.notice .GK_CTL [n, k] 0x1012 g (s.rd .GK_STAT_NOC [n.val, k.val] - 4) k (some 4))
    | none => .next s

/-- A command of `GK_CTL`, accepted in `STATE` 2 or 3 (R228). -/
def State.gkCmd (s : State) (w : Writer) (n k cmd g l : Nat) (f : State → State) : State :=
  let i := [n, k]
  s.reach w .GK_CTL i (s.wordWith .GK_CTL i [(.GK_CTL_CMD, cmd), (.GK_CTL_GROUP, g), (.GK_CTL_LANE, l)]) fun s =>
    let s := (s.wr .GK_CTL_GROUP i g).wr .GK_CTL_LANE i l
    if s.rd .GK_STAT_STATE i = 2 ∨ s.rd .GK_STAT_STATE i = 3 then f s else s.dropF w .GK_CTL_CMD i cmd

/-- GK_CMD_SWAP (R228): lane 0 to 32 of a group whose spare is free. -/
def execGkCmdSwap (w : Writer) (n : Fin 9) (k : Fin 8) (g : Fin 96) (l : BitVec 6) (s : State) : Ans :=
  .next (s.gkCmd w n k 1 g l.toNat fun s =>
    if 32 < l.toNat ∨ s.spareFree n k g = false ∨ s.busyGroup n k g then s
    else match s.rd .GK_GRP_STAT_ROLE [n.val, k.val, g.val] with
      | 1 => s.crossSwapBegin n k g l.toNat
      | 2 | 3 => s.swapBegin n k g l.toNat
      | _ => s)

/-- GK_CMD_RETIRE (R228). -/
def execGkCmdRetire (w : Writer) (n : Fin 9) (k : Fin 8) (g : Fin 96) (bs : BearingSet) (s : State) : Ans :=
  .next (s.gkCmd w n k 2 g (s.rd .GK_CTL_LANE [n.val, k.val]) fun s =>
    if s.busyGroup n k g then s else s.retireGroup n k g bs)

/-! ## Crossings (R211 to R213) -/

/-- The die and the sector whose crossing outputs logical group `lc` brings to an end (R211). -/
def crossSender (n k lc : Nat) : Nat × Nat :=
  (if k = 0 then (n + 7) % 8 else (n + 1) % 8, if k = 0 then 32 + lc / 6 else lc / 6)

/-- The sending sector of a logical group at an end is live: not isolated, on a die in service and in P0 (R212). -/
def State.sendsLive (s : State) (n k lc : Nat) : Bool :=
  let (m, sec) := crossSender n k lc
  s.up m && s.rd .PWR_DIE_STAT_PSTATE [m] = 0 && !s.on .SEC_STATUS_ISOLATED [m, sec]

/-- The group that carries a logical group; none where its pair is lost, or the link's crossing has not trained. -/
def State.carrier (s : State) (n k lc : Nat) : Option Nat :=
  if s.dirUp n k = false ∨ (s.dir n k).lost.contains (lc / 6) then none
  else (List.range 96).find? fun g => s.rd .GK_GRP_STAT_ROLE [n, k, g] = 1 && s.rd .GK_GRP_STAT_LCROSS [n, k, g] = lc

def State.crossing (s : State) (n k lc : Nat) : CrossIn := smGet s.crossIn [n, k, lc] {}
def State.setCrossing (s : State) (n k lc : Nat) (x : CrossIn) : State := { s with crossIn := smPut s.crossIn [n, k, lc] x {} }

/-- L of R68: 4.5 ns in cycles of the link's spine, rounded up, at least 1. -/
def State.crossCycles (s : State) (n k : Nat) : Nat := max 1 ((45 * s.crossSpine n k + 9999999) / 10000000)

/-- What crossing input `i` of logical group `lc` gives its sector (R67, R211, R212): the signal received, or its isolation value. -/
def State.crossInput (s : State) (n k lc i : Nat) : Bool :=
  let x := s.crossing n k lc
  if x.live ∧ (s.carrier n k lc).isSome then x.data.testBit i
  else isoValue (s.isoOf n ((if k = 0 then 0 else 32) + lc / 6) (lc % 6 * 256 + i)) (x.data.testBit i)

/-- CROSSING_FRAME_RECEIVE (R68, R196, R212, R213): one spine cycle of a logical crossing group. The sender's signals are launched,
held at their last values where its sector migrates (R61); those of L cycles before arrive, with bits altered on the way: signals in [255:0], framing lane in [263:256]. -/
def execCrossingFrameReceive (n : Fin 8) (k : Fin 2) (lc : Fin 48) (data : BitVec 256) (flips : BitVec 264) (s : State) : Ans :=
  match s.carrier n k lc with
  | none => .next s
  | some g =>
    let x := s.crossing n k lc
    let (m, sec) := crossSender n k lc
    let out := if (s.sector m sec).frozen then (x.pipe.map (·.1)).getLastD x.data else data.toNat
    let sent := x.pipe ++ [(out, s.sendsLive n k lc)]
    match sent with
    | [] => .next s
    | (d, live) :: rest =>
      if sent.length ≤ s.crossCycles n k then .next (s.setCrossing n k lc { x with pipe := sent })
      else
        let e := flips.toNat
        if bitsOf e 256 2 ≠ 0 then
          .next (s.setCrossing n k lc { x with pipe := rest, xerr := false, miss := min 64 (x.miss + 1), live := x.live && decide (x.miss < 63) })
        else
          let live := live ^^ e.testBit 258
          let bad := crc5 (bitsOf e 0 256) 256 0 != bitsOf e 259 5
          let s := s.setCrossing n k lc
            { data := if live then d ^^^ bitsOf e 0 256 else x.data, live := live, xerr := bad, miss := 0, pipe := rest }
          if bad then
            .next (((s.bump .GK_XERR_CNT_COUNT [n, k]).bump .GK_GRP_CRC_CNT_COUNT [n, k, g]).raise .GK_CTL [n, k] 213 0 [lc])
          else .next s

/-- CROSSING_FRAMES_MISSING (R212): after 64 frames the inputs take their isolation values; nothing is on its way any more. -/
def execCrossingFramesMissing (n : Fin 8) (k : Fin 2) (lc : Fin 48) (s : State) : Ans :=
  .next (s.setCrossing n k lc { s.crossing n k lc with live := false, miss := 64, pipe := [] })

end Sys2Proof.Machine
end

