-- ==== Sys2Proof/Machine/Sweeps.lean ====
section
/-! DEFINITION. The sealing engine's sweeps: their permit, what shows in `SEAL_STAT`, and the errors it finds in lines and
tree nodes (R276 to R281). -/

namespace Sys2Proof.Machine

def State.seal (s : State) (st : Nat) : SealRt := smGet s.seals [st] {}

/-- `SEAL_CTL.RATE`; 41 to 63 act as 40 (R283). -/
def State.sealRate (s : State) (st : Nat) : Nat := min 40 (s.rd .SEAL_CTL_RATE [st])

/-- The rate of a repair sweep: at least 4 GB/s (R277). -/
def State.repairRate (s : State) (st : Nat) : Nat := max 4 (s.sealRate st)

/-- Draw units of a sweep at a rate (R280). -/
def sweepUnits (rate : Nat) : Nat := 2 + ceilDiv rate 10

/-- Store the sweeps of a stack; `SEAL_STAT` follows (R283). -/
def State.setSeal (s : State) (st : Nat) (x : SealRt) : State :=
  let s := { s with seals := smPut s.seals [st] x {} }
  let (k, r) := match x.repairs, x.run with
    | w :: _, _ => (4, w.r)
    | [], some w => (w.kind, w.r)
    | [], none => (0, 0)
  let q := (List.range 16).foldl (fun a r => if x.queue.any (fun w => w.r == r) then a + 2 ^ r else a) 0
  (((s.wr .SEAL_STAT_KIND [st] k).wr .SEAL_STAT_RANGE [st] r).wr .SEAL_STAT_PERMIT_WAIT [st]
    (if x.asked || x.rAsked then 1 else 0)).wr .SEAL_STAT_QUEUE [st] q

/-- The running sweep is stopped until RESUME (R280). -/
def State.sweepStopped (s : State) (st : Nat) : Bool :=
  match (s.seal st).run with
  | some w => s.on .SEAL_RSTAT_SWSTOP [st, w.r]
  | none => false

/-- Take back units a sweep holds too many of (R280). -/
def State.trimHeld (s : State) (g : Nat) (who : List Nat) (units : Nat) : State :=
  let x := s.gov g
  match x.held.filter (·.is 10 who) with
  | [] => s
  | p :: _ => s.setGov g { x with held := x.held.filter (fun p => !p.is 10 who) ++ [{ p with units := units }] }

/-- Bring the running sweep's permit to its rate: ask, ask for the difference, return the surplus, or return all at rate 0
(R280). -/
def State.sweepPermit (s : State) (st : Nat) : State :=
  let x := s.seal st
  match x.run with
  | none => s
  | some _ =>
    if s.sweepStopped st then s
    else if s.sealRate st = 0 then
      (s.giveBack (2 * st) 10 [st]).setSeal st { x with units := 0, asked := false }
    else if x.asked then s
    else
      let need := sweepUnits (s.sealRate st)
      if x.units < need then (s.setSeal st { x with asked := true }).request (2 * st) 10 (need - x.units) [st] []
      else if need < x.units then (s.trimHeld (2 * st) [st] need).setSeal st { x with units := need }
      else s

/-- Bring the repair's own permit to its rate: none where it has the running sweep's (R277). -/
def State.repairPermit (s : State) (st : Nat) : State :=
  let x := s.seal st
  let lent := decide (0 < x.units) && !x.asked
  match x.repairs with
  | [] => (s.giveBack (2 * st) 10 [st, 1]).setSeal st { x with rUnits := 0, rAsked := false, retryT := 0 }
  | _ :: _ =>
    if lent || x.rAsked || x.retryT != 0 then s
    else
      let need := sweepUnits (s.repairRate st)
      if x.rUnits < need then (s.setSeal st { x with rAsked := true }).request (2 * st) 10 (need - x.rUnits) [st, 1] []
      else if need < x.rUnits then (s.trimHeld (2 * st) [st, 1] need).setSeal st { x with rUnits := need }
      else s

/-- The sweep now running begins: `POS` 0 (R267). -/
def State.sweepBegin (s : State) (st : Nat) (w : Sweep) : State :=
  (s.setSeal st { s.seal st with run := some w }).wr .SEAL_POS_POS [st, w.r] 0 |>.sweepPermit st

/-- A sweep is queued, and starts if none runs (R278). -/
def State.sweepQueue (s : State) (st : Nat) (w : Sweep) : State :=
  let x := s.seal st
  match x.run with
  | none => s.sweepBegin st w
  | some _ => s.setSeal st { x with queue := x.queue ++ [w] }

/-- The running sweep ends or is dropped: its permit returns, and the next one starts (R278, R280). -/
def State.sweepNext (s : State) (st : Nat) : State :=
  let s := s.giveBack (2 * st) 10 [st]
  let x := s.seal st
  match x.queue with
  | [] => s.setSeal st { x with run := none, units := 0, asked := false }
  | w :: q => (s.setSeal st { x with run := none, queue := q, units := 0, asked := false }).sweepBegin st w

/-- The die leaves service or sleeps: sweeps stop at their boundary and return their permits (R281). -/
def State.sweepSleep (s : State) (st : Nat) : State :=
  ((s.giveBack (2 * st) 10 [st]).giveBack (2 * st) 10 [st, 1]).setSeal st
    { s.seal st with units := 0, asked := false, rUnits := 0, rAsked := false, retryT := 0 }

/-- The stack is back in service: sweeps ask again (R281). -/
def State.sweepWake (s : State) (st : Nat) : State := (s.sweepPermit st).repairPermit st

/-! ## Encryption, tags and node MACs (R260 to R262, R269, R271) -/

/-- Keys `j` of a key slot: 0 the data key, 1 the tweak key, 2 the MAC key (R262). -/
def State.slotKey (s : State) (st slot j : Nat) : BitVec 256 := BitVec.ofNat 256 (smGet s.keys [st, slot] 0 / 2 ^ (256 * j))

/-- The slot that governs a line (R262). -/
def State.lineSlot (s : State) (st a : Nat) : Nat :=
  match s.rangeOf st a with
  | some r => s.slotOf st r (s.rangeLine st r a)
  | none => 32

/-- The integrity range that holds a line, with its line number. -/
def State.integLine (s : State) (st a : Nat) : Option (Nat × Nat) :=
  match s.rangeOf st a with
  | some r => if s.on .SEAL_RCTL_MODE [st, r] then some (r, s.rangeLine st r a) else none
  | none => none

/-- The tweak block of a line as it stands (R261). -/
def State.lineTweak (s : State) (st a : Nat) : BitVec 128 :=
  let (mj, mn) := match s.integLine st a with
    | some (r, i) => (smGet s.leafMaj [st, r, i / 64] 0, smGet s.leafMin [st, r, i] 0)
    | none => (0, 0)
  BitVec.ofNat 128 (tweakBlock a st (s.lineSlot st a) mj mn)

/-- The four tweaks T_j of a line (R260). -/
def State.lineTs (s : State) (st a : Nat) : List (BitVec 128) :=
  let t := Config.aes256 (s.slotKey st (s.lineSlot st a) 1) (s.lineTweak st a)
  [t, gfDouble t, gfDouble (gfDouble t), gfDouble (gfDouble (gfDouble t))]

/-- XTS over a line: the block cipher `f` between the two masks (R260). -/
def xts (f : BitVec 128 → BitVec 128) (ts : List (BitVec 128)) (line : Nat) : Nat :=
  unblocks (((blocks line 4).zip ts).map fun e => f (e.1 ^^^ e.2) ^^^ e.2)

/-- The ciphertext of a line that holds `data`, and the data of a ciphertext (R260). -/
def State.lineSeal (s : State) (st a data : Nat) : Nat := xts (Config.aes256 (s.slotKey st (s.lineSlot st a) 0)) (s.lineTs st a) data
def State.lineOpen (s : State) (st a c : Nat) : Nat := xts (Config.aes256Inv (s.slotKey st (s.lineSlot st a) 0)) (s.lineTs st a) c

/-- The tag of a line with ciphertext `c` (R271). -/
def State.lineTag (s : State) (st a c : Nat) : Nat :=
  cmacFirst (s.slotKey st (s.lineSlot st a) 2) (s.lineTweak st a :: blocks c 4) 64

/-- What a line of data `data` reads as when bits of its stored ciphertext (`flips` [511:0]) and of its stored tag
([575:512]) have been altered with a clean ECC: `none` where its tag no longer matches (R271, R272). -/
def State.lineFetch (s : State) (st a data flips : Nat) : Option Nat :=
  let f := bitsOf flips 0 512
  let c := s.lineSeal st a data
  let got := if f = 0 then data else s.lineOpen st a (c ^^^ f)
  if (s.integLine st a).isNone ∨ s.lineTag st a (c ^^^ f) = s.lineTag st a c ^^^ bitsOf flips 512 64 then some got else none

/-- The 512 bits of a node of the tree but its MAC, which reads 0 here (R269). -/
def State.nodeBody (s : State) (st r level m : Nat) : Nat :=
  if level = 0 then
    (List.range 64).foldl (fun x i => x + smGet s.leafMin [st, r, 64 * m + i] 0 * 2 ^ (56 + 6 * i)) (smGet s.leafMaj [st, r, m] 0)
  else (List.range 8).foldl (fun x c => x + smGet s.innerC [st, r, level - 1, 8 * m + c] 0 * 2 ^ (56 * c)) 0

/-- Where the MAC stands in a node (R269). -/
def macBit (level : Nat) : Nat := if level = 0 then 440 else 448

/-- The MAC of a node of body `x` under the slot that governs its first covered line (R271, R279). -/
def State.nodeMac (s : State) (st r level m x : Nat) : Nat :=
  let slot := s.slotOf st r (64 * 8 ^ level * m)
  let n := nodeNumber (s.rd .SEAL_SIZE_MIB [st, r]) level m
  let head := n + r * 2 ^ 32 + st * 2 ^ 36 + slot * 2 ^ 38 + smGet s.innerC [st, r, level, m] 0 * 2 ^ 48
  cmacFirst (s.slotKey st slot 2) (BitVec.ofNat 128 head :: blocks x 4) 56

/-- Does a copy of a node with altered bits `flips` fail its MAC? -/
def State.copyFails (s : State) (st r level m flips : Nat) : Bool :=
  let x := s.nodeBody st r level m
  let f := bitsOf flips (macBit level) 56
  s.nodeMac st r level m (x ^^^ (flips ^^^ f * 2 ^ macBit level)) != s.nodeMac st r level m x ^^^ f

/-- The counters that a copy with altered bits `flips` holds are used: its MAC passed (R272). -/
def State.nodeTake (s : State) (st r level m flips : Nat) : State :=
  let x := s.nodeBody st r level m ^^^ flips
  if level = 0 then
    { s with
      leafMaj := smPut s.leafMaj [st, r, m] (bitsOf x 0 56) 0
      leafMin := (List.range 64).foldl (fun t i => smPut t [st, r, 64 * m + i] (bitsOf x (56 + 6 * i) 6) 0) s.leafMin }
  else { s with innerC := (List.range 8).foldl (fun t c => smPut t [st, r, level - 1, 8 * m + c] (bitsOf x (56 * c) 56) 0) s.innerC }

/-! ## Findings (R276) -/

/-- The stack-local address of line `i` of a range. -/
def State.lineAddr (s : State) (st r i : Nat) : Nat := s.rd .SEAL_BASE_MIB [st, r] * 2 ^ 20 + 64 * i

/-- The tag of a line does not match: code 1; `poison`: the line is written back with the poison syndrome (R274). -/
def State.tagMismatch (s : State) (st r i : Nat) (poison : Bool) : State :=
  let a := s.lineAddr st r i
  let s := ((s.bump .SEAL_MAC_CNT_COUNT [st]).sealErr st 1 r 0 a).raise .SEAL_CTL [st] 276 3 [r, a]
  if poison then s.linePut (s.lineKey st a) 0 true else s

/-- One copy of a node is bad and is rebuilt from the other: code 2 and the service notice. -/
def State.nodeCopyBad (s : State) (st r level node : Nat) (mirror : Bool) : State :=
  let size := s.rd .SEAL_SIZE_MIB [st, r]
  if level < (treeLevels size).length then
    let n := nodeNumber size level node
    let mb := s.rd .SEAL_MBASE_MIB [st, r]
    ((s.bump .SEAL_NODE_CNT_COUNT [st]).sealErr st 2 r level (if mirror then mirrorAddr size mb n else nodeAddr size mb n)).notice
      .SEAL_CTL [st] 0x1030 r 0xFFFF n none
  else s

/-- A copy of a node is fetched: `flips` its altered bits, 0 where it is uncorrectable. -/
def State.nodeFetch (s : State) (st r level node : Nat) (mirror : Bool) (flips : Nat) : State :=
  if flips = 0 ∨ s.copyFails st r level node flips then s.nodeCopyBad st r level node mirror
  else s.nodeTake st r level node flips

/-- The lines of a leaf are read and verified before they are written anew (R274, R279): what each of `bad`, the lines with
altered bits, reads as. -/
def State.leafFetch (s : State) (st r leaf : Nat) (bad : List (Fin 64 × BitVec 576)) : List (Nat × Option Nat) :=
  bad.map fun e =>
    let a := s.lineAddr st r (64 * leaf + e.1.val)
    (64 * leaf + e.1.val, s.lineFetch st a (s.lineData (s.lineKey st a)) e.2.toNat)

/-- The lines so read are written: poisoned where the tag failed. -/
def State.leafStore (s : State) (st r : Nat) (got : List (Nat × Option Nat)) : State :=
  got.foldl (fun s e => match e.2 with
    | some d => let k := s.lineKey st (s.lineAddr st r e.1); s.linePut k d (s.poison.contains k)
    | none => s.tagMismatch st r e.1 true) s

end Sys2Proof.Machine
end

