-- ==== Sys2Proof/Machine/Hbm.lean ====
section
/-! DEFINITION. The HBM3E controllers: ports, front pipe, scheduling, refresh, training, self-refresh, errors, scrub
(R233 to R259). -/

namespace Sys2Proof.Machine

def State.stk (s : State) (st : Nat) : StackRt := smGet s.stack [st] {}
def State.setStk (s : State) (st : Nat) (x : StackRt) : State := { s with stack := smPut s.stack [st] x {} }
def State.pc (s : State) (st c : Nat) : PcRt := smGet s.hbmPc [st, c] {}
def State.setPc (s : State) (st c : Nat) (x : PcRt) : State := { s with hbmPc := smPut s.hbmPc [st, c] x {} }
def State.hstate (s : State) (st : Nat) : Nat := s.rd .HBM_STAT_STATE [st]

/-- The NI of controller port `p` (R164). -/
def portNi (p : Nat) : Nat := if p < 8 then p else 40 + (p - 8)

/-! ## Permits of a stack (R247, R250) -/

/-- The head request of governor `g`, if it is `who`'s for `op` and fits, is granted. -/
def State.pull (s : State) (g op : Nat) (who : List Nat) : State :=
  match (s.gov g).queue with
  | p :: _ => if p.is op who then s.grantHead g else s
  | [] => s

/-- The training asks for its permits: core, HBM, then the standing refresh (R247, R394). -/
def State.askTraining (s : State) (st : Nat) : State :=
  (s.setStk st { s.stk st with train := 1, retry := 0 }).request (2 * st) 11 6 [st] [[9 + st, 11, 12], [9 + st, 12, 8]]

/-- The training's permits return; the standing refresh stays. -/
def State.trainReturn (s : State) (st : Nat) : State := (s.giveBack (2 * st) 11 [st]).giveBack (9 + st) 11 [st]

/-- The standing-refresh permit returns (R245). -/
def State.refreshReturn (s : State) (st : Nat) : State := s.giveBack (9 + st) 12 [st]

/-! ## Retraining and self-refresh -/

/-- Start or merge a retraining of every channel (R248). -/
def State.retrain (s : State) (st : Nat) : State :=
  let x := s.stk st
  if !x.todo.isEmpty then s
  else
    let s := s.setStk st { x with todo := List.range 16, todoT := s.now + 3000 }
    (s.wr .HBM_STAT_STATE [st] 5).wr .HBM_CH_STAT_STATE [st, 0] 2

/-- A cause of self-refresh arises (R250). -/
def State.srCause (s : State) (st c : Nat) : State :=
  let x := s.stk st
  let x := if x.causes.contains c then x else { x with causes := x.causes ++ [c] }
  let h := s.hstate st
  if h = 2 ∨ h = 5 then s.setStk st { x with entering := true }
  else if h = 1 then
    let s := (s.trainReturn st).refreshReturn st
    let s := s.setStk st { x with train := 0 }
    s.wr .HBM_STAT_STATE [st] (if x.t0 + 1000000 ≤ s.now then 3 else 0)
  else if x.train = 1 then ((s.trainReturn st).refreshReturn st).setStk st { x with train := 0 }
  else s.setStk st x

/-- A cause ends. -/
def State.srEnd (s : State) (st c : Nat) : State :=
  let x := s.stk st
  s.setStk st { x with causes := x.causes.filter (· ≠ c) }

/-- The stack loses its contents (R251). -/
def State.stackLost (s : State) (st : Nat) : State :=
  let s := (s.trainReturn st).refreshReturn st
  let s := s.setStk st { s.stk st with train := 0, entering := false, exitAsked := false, todo := [], causes := [] }
  (s.wr .HBM_STAT_STATE [st] 0).wr .HBM_STAT_CONTENT [st] 0

/-! ## The front pipe (R239 to R243, R265) -/

/-- The pseudo-channel queue of an address. -/
def State.pcOf (s : State) (st a : Nat) : Nat := 2 * s.hbmChannel st a + s.hbmPC st a

def HbmReq.isRead (q : HbmReq) : Bool := decide (q.opc ≤ 0x03)
def HbmReq.posted (q : HbmReq) : Bool := decide (7 ≤ q.opc ∧ q.opc ≤ 9)
/-- The lines of a request. -/
def HbmReq.lines (q : HbmReq) : List Nat := (List.range (opcLines q.opc)).map (fun i => q.a + 64 * i)

/-- The response to a request, with its status in `FN` (R167). -/
def State.respond (s : State) (st p : Nat) (q : HbmReq) (status : Nat) (data : List Nat) : State :=
  if q.posted then s
  else
    let id := 2 * st * 256 + 0x10 + p
    let opc := if q.isRead then (if q.opc = 1 then 0x10 else if q.opc = 2 then 0x11 else 0x12) else if status = 0 then 0x13 else 0x14
    s.niSend (2 * st) (portNi p) { dest := q.src, src := id, cls := 3, opc := opc, tag := q.tag, fn := status, data := data }

/-- Data of a refused or poisoned read: all ones (R19, R276). -/
def HbmReq.allOnes (q : HbmReq) : List Nat := q.lines.map (fun _ => ones512)

/-- Enter a request into the queue of its pseudo-channel. -/
def State.enqueue (s : State) (st : Nat) (q : HbmReq) : State :=
  let c := s.pcOf st q.a
  let x := s.pc st c
  s.setPc st c (if q.isRead then { x with rq := x.rq ++ [q] } else { x with wq := x.wq ++ [q] })

/-- Does this write overflow a minor counter of its leaf (R274)? -/
def State.overflows (s : State) (st : Nat) (q : HbmReq) : Option (Nat × Nat) :=
  match s.rangeOf st q.a with
  | some r =>
    let i := s.rangeLine st r q.a
    if s.on .SEAL_RCTL_MODE [st, r] && !q.isRead && !s.lineLost st r i &&
        q.lines.any (fun a => 63 ≤ smGet s.leafMin [st, r, s.rangeLine st r a] 0) then some (r, i / 64) else none
  | none => none

/-- Is the leaf of a request locked for re-encryption? -/
def State.leafLocked (s : State) (st : Nat) (q : HbmReq) : Option (Nat × Nat) :=
  match s.rangeOf st q.a with
  | some r =>
    let k := s.rangeLine st r q.a / 64
    if (smGet s.reenc [st] []).any (fun e => e.r = r && e.leaf = k) then some (r, k) else none
  | none => none

/-- A request takes effect at its entry, the checks having passed: a write is applied and acknowledged, a read takes the
data that every earlier write left (R240). -/
def State.takeEffect (s : State) (st p : Nat) (q : HbmReq) : State :=
  if q.isRead then
    let (ds, c, s) := q.lines.foldl (fun (acc : List Nat × Nat × State) a =>
      let (d, c, s) := acc.2.2.stackRead st a
      (acc.1 ++ [d], max c acc.2.1, s)) ([], 0, s)
    s.enqueue st { q with data := ds, status := c }
  else
    let (c, s) := (q.lines.zip (List.range q.lines.length)).foldl (fun (acc : Nat × State) x =>
      let s := if q.poison then acc.2.hbmErr st 6 x.1 3 else acc.2
      let (c, s) := s.stackWrite st x.1 (q.data.getD x.2 0) q.poison
      (max c acc.1, s)) (0, s)
    let s := if c = 0 then s.enqueue st q else s
    s.respond st p q c []

/-- A request enters the front pipe (R240, R265, R274). -/
def State.hbmEnter (s : State) (st p : Nat) (q : HbmReq) : State :=
  if s.stackOk st = false then
    let s := s.refuse19 { src := q.src, fn := q.fn } (hbmJoin s.ilv st q.a) 2
    s.respond st p q 2 (if q.isRead then q.allOnes else [])
  else
    let (c, r) := s.sealCheck st { src := q.src, fn := q.fn } q.a (!q.isRead)
    if c ≠ 0 then (s.sealDeny st (r.getD 0) q.a).respond st p q c (if q.isRead then q.allOnes else [])
    else
      let s := q.lines.foldl (fun s a =>
        let g := hbmJoin s.ilv st a
        if s.winAttr g = 1 then (s.recallFirst st).snoopAll (g / 64) 8 (!q.isRead) else s) s
      match s.leafLocked st q with
      | some (r, k) => { s with reenc := smPut s.reenc [st] ((smGet s.reenc [st] []).map (fun e =>
          if e.r = r ∧ e.leaf = k then { e with waiting := e.waiting ++ [q] } else e)) [] }
      | none => match s.overflows st q with
        | some (r, k) => { s with reenc := smPut s.reenc [st] (smGet s.reenc [st] [] ++ [{ r := r, leaf := k, waiting := [q] }]) [] }
        | none => s.takeEffect st p q

/-- Urgency of a request of port `p` (R242). -/
def State.urgency (s : State) (st p : Nat) (q : HbmReq) : Nat :=
  let t := s.rd .HBM_QOS_TARGET_TARGET [st, p]
  let age := s.now - q.t
  if t = 0 then 0 else if t ≤ age then 3 else if 3 * t ≤ 4 * age then 2 else if t ≤ 2 * age then 1 else 0

/-- The ports that present, with the input number of each (R239, R243). -/
def State.presenting (s : State) (st : Nat) : List (Nat × Nat × HbmReq) :=
  (List.range 16).filterMap (fun p => match smGet s.hbmPort [st, p] [] with
    | [] => none
    | q :: _ =>
      let x := s.pc st (s.pcOf st q.a)
      if s.stackOk st ∧ 64 ≤ (if q.isRead then x.rq.length else x.wq.length) then none
      else some (p, 16 * s.urgency st p q + p, q))

/-- Re-key a table of counters. -/
def reKey (m : SMap Nat) (l : List (Nat × Nat)) : SMap Nat :=
  l.foldl (fun t x => smPut t [x.2] (smGet m [x.1] 0) 0) []

/-- One decision of the front arbiter: the counters belong to the ports and follow them to their input numbers (R243). -/
def frontDecide (a : Arb) (par : ArbPar) (cand : List (Nat × Nat)) : Nat × Arb :=
  let a' : Arb := { wait := reKey a.wait cand, used := reKey a.used cand,
                    mask := (cand.filter (fun x => a.mask.contains x.1)).map (·.2), n := a.n }
  let (w, b) := a'.decision par (cand.map (·.2))
  let keep (m : SMap Nat) : SMap Nat := m.filter (fun e => cand.all (fun x => [x.1] != e.1))
  let back (m old : SMap Nat) : SMap Nat := cand.foldl (fun t x => smPut t [x.1] (smGet m [x.2] 0) 0) (keep old)
  let fresh := decide (b.used.isEmpty ∧ b.mask.isEmpty)
  let win := (cand.find? (fun x => x.2 = w)).map (·.1)
  (win.getD 0, { wait := back b.wait a.wait, used := if fresh then [] else back b.used a.used,
                 mask := (if fresh then [] else a.mask.filter (fun p => cand.all (fun x => x.1 != p))) ++
                   (cand.filter (fun x => b.mask.contains x.2)).map (·.1), n := b.n })

/-- The scrub input wins (R243): where no port presents, or by force where no input from 16 to 63 presents and no port's wait
counter forces a win. -/
def scrubWins (a : Arb) (par : ArbPar) (cand : List (Nat × Nat)) : Bool :=
  cand.isEmpty || (a.forces par 16 && cand.all (fun x => decide (x.2 < 16) && !a.forces par x.1))

/-- The parameters of a stack's front arbiter (R256). -/
def State.frontPar (s : State) (st : Nat) : ArbPar :=
  { qfrom := s.rd .HBM_ARB_QFROM [st], quota := s.rd .HBM_ARB_QUOTA [st], window := s.rd .HBM_ARB_WINDOW [st],
    wait := s.rd .HBM_ARB_WAIT [st] }

/-- The front arbiter decides among the ports that present and, with `scrub`, the scrub input (R185, R243); the decision is
pending until the break point. -/
def State.frontChoose (s : State) (st : Nat) (scrub : Bool) : State :=
  let par := s.frontPar st
  let a := s.arb [1, st]
  let cand := (s.presenting st).map (fun x => (x.1, x.2.1))
  if scrub && scrubWins a par cand then
    let b := (a.opened par).lose par (cand.map (·.1))
    (s.setArb [1, st] { b with wait := smPut b.wait [16] 0 0, n := if par.window = 0 then 0 else b.n + 1 }).setStk st
      { s.stk st with next := some 16 }
  else if cand.isEmpty then s.setStk st { s.stk st with next := none }
  else
    let (p, b) := frontDecide a par cand
    (s.setArb [1, st] (if scrub then b.lose par [16] else b)).setStk st { s.stk st with next := some p }

/-- One grant of the front arbiter (R185, R186, R239): the winner of the pending decision while it still presents, else of a
decision made afresh; the next decision is made at once. Whether the scrub input won; `more`: it has a further read. -/
def State.frontStep (s : State) (st : Nat) (scrub more : Bool) : State × Bool :=
  let there (s : State) (p : Nat) : Bool := if p = 16 then scrub else (s.presenting st).any (fun x => x.1 = p)
  let s := if (s.stk st).next.any (there s) then s else s.frontChoose st scrub
  match (s.stk st).next with
  | none => (s, false)
  | some p =>
    if p = 16 then (s.frontChoose st more, true)
    else match smGet s.hbmPort [st, p] [] with
      | [] => (s, false)
      | q :: rest =>
        ((({ s with hbmPort := smPut s.hbmPort [st, p] rest [] }).hbmEnter st p q).frontChoose st scrub, false)

/-- HBM_FRONT_PIPE_ENTRY (R239, R240, R243, R265): one grant of the front arbiter. -/
def execHbmFrontPipeEntry (st : Fin 4) (s : State) : Ans := .next (s.frontStep st false false).1

/-- A scrub read waits at the scrub input until it is granted; ports that win before it enter their requests (R243, R253). -/
def State.scrubRead (s : State) (st : Nat) (more : Bool) : Nat → State
  | 0 => s
  | n + 1 => let (t, won) := s.frontStep st true more; if won then t else t.scrubRead st more n

/-- The 64 reads of a scrub burst enter the front pipe. -/
def State.scrubReads (s : State) (st : Nat) : State :=
  (List.range 64).foldl (fun s i =>
    let waiting := ((List.range 16).map (fun p => (smGet s.hbmPort [st, p] []).length)).sum
    s.scrubRead st (i < 63) (waiting + 1)) s

/-- LEAF_REENCRYPT_DONE (R274, R275): the leaf's lines, read under the old counters, are under the new ones; of `bad`, the
lines met with altered bits, those that fail their verification are poisoned; the waiting requests are served in order. -/
def execLeafReencryptDone (st : Fin 4) (bad : List (Fin 64 × BitVec 576)) (s : State) : Ans :=
  match smGet s.reenc [st.val] [] with
  | [] => .next s
  | e :: rest =>
    let s := { s with reenc := smPut s.reenc [st.val] rest [] }
    let serve (s : State) : State := e.waiting.foldl (fun s q => s.takeEffect st (s.hbmChannel st q.a) q) s
    let got := s.leafFetch st e.r e.leaf bad
    match s.leafReencrypt st e.r e.leaf with
    | some s => .next (serve (s.leafStore st e.r got))
    | none =>
      match e.waiting with
      | q :: more =>
        let s := (s.sealFreeze st e.r 1 q.a).respond st (s.hbmChannel st q.a) q 1 []
        .next (more.foldl (fun s q => s.hbmEnter st (s.hbmChannel st q.a) q) s)
      | [] => .next s

/-! ## Scheduling (R241, R244 to R246) -/

/-- The bank of a line, and its row. -/
def State.bankOf (s : State) (st a : Nat) : Nat := hbmSID a * 16 + s.hbmBG st a * 4 + s.hbmBA st a

/-- `HBM_REF.POSTPONE`; 9 to 15 act as 8. -/
def State.postpone (s : State) (st : Nat) : Nat := min 8 (s.rd .HBM_REF_POSTPONE [st])

/-- Exponent k of R246; reserved values act as 4 and 16. -/
def State.rhK (s : State) (st : Nat) : Nat :=
  let k := s.rd .HBM_RH_K [st]
  if k = 0 then 0 else min 16 (max 4 k)

/-- Pick within a kind (R241): an urgent request, else the oldest row hit, unless the oldest has been passed 16 times. -/
def State.pick (s : State) (st : Nat) (x : PcRt) (l : List HbmReq) : Option HbmReq :=
  match l with
  | [] => none
  | q :: _ =>
    match l.find? (fun q => s.urgency st (s.hbmChannel st q.a) q = 3) with
    | some u => some u
    | none =>
      if 16 ≤ q.passed then some q
      else match l.find? (fun q => smGet x.rows [s.bankOf st q.a] 0 = hbmRow q.a + 1) with
        | some h => some h
        | none => some q

/-- Take one out of a queue; those before it have been passed once more. -/
def takeOut (q : HbmReq) : List HbmReq → List HbmReq
  | [] => []
  | y :: r => if y = q then r else { y with passed := y.passed + 1 } :: takeOut q r

/-- Open the row of a request: an activate with its draw (R246); `demand`: the stack's thresholds ask for an RFM. -/
def State.activate (s : State) (st c : Nat) (q : HbmReq) (demand : Bool) : State :=
  let ch := c / 2
  let b := s.bankOf st q.a
  let x := s.pc st c
  if smGet x.rows [b] 0 = hbmRow q.a + 1 then s
  else
    let s := s.bump .HBM_CH_ACT_CNT_COUNT [st, ch]
    let k := s.rhK st
    let (v, s) := if k = 0 then (1, s) else s.draw k
    let hit := decide (v = 0)
    let s := if hit then s.bump .HBM_CH_NBR_CNT_COUNT [st, ch] else s
    let due := (hit || (demand && s.on .HBM_RH_RFM_REQ [st])) && !x.rfm.contains b
    s.setPc st c { x with rows := smPut x.rows [b] (hbmRow q.a + 1) 0, acts := x.acts + 1,
                          rfm := if due then x.rfm ++ [b] else x.rfm }

/-- A row with an uncorrectable error, or with two corrected ones, enters the repair record (R252). -/
def State.suspectRow (s : State) (st a : Nat) (now_ : Bool) : State :=
  let x := s.stk st
  let k := s.lineKey st a
  if now_ ∨ x.suspect.contains k then s.record [2 * st, 252, s.pcOf st a, s.bankOf st a, hbmRow a]
  else s.setStk st { x with suspect := insertNat k x.suspect }

/-- A parity error of a write's access (R252): one retry; a second failure counts as an uncorrectable error of its lines. -/
def State.writeParity (s : State) (st ch : Nat) (q : HbmReq) (par : Nat) : State :=
  match par with
  | 0 => s
  | 1 => (s.bump .HBM_CH_PAR_CNT_COUNT [st, ch]).raise .HBM_CTL [st] 252 0 [q.a]
  | _ =>
    let s := (s.bump .HBM_CH_PAR_CNT_COUNT [st, ch]).bump .HBM_CH_UNC_CNT_COUNT [st, ch]
    let s := q.lines.foldl (fun s a => s.linePut (s.lineKey st a) 0 true) s
    (s.hbmErr st 4 q.a 3).suspectRow st q.a true

/-- HBM_SCHEDULE (R241, R245, R246, R252): the next command of a pseudo-channel: an RFM or refresh that is due, then an urgent
request, then reads before writes until the write queue holds 48, from then writes until it holds 16. While the limit of
owed refreshes is reached and their burst's permit is awaited, only a refresh beyond the limit goes first. -/
def execHbmSchedule (st : Fin 4) (c : Fin 32) (demand : Bool) (par : Fin 3) (s : State) : Ans :=
  let x := s.pc st c
  let ch := c.val / 2
  let urgent := (x.rq ++ x.wq).any (fun q => s.urgency st (s.hbmChannel st q.a) q = 3)
  let s := s.setStk st { s.stk st with busyT := s.now, powerDown := false }
  if s.rd .HBM_CH_STAT_STATE [st.val, ch] = 2 then .next s
  else match x.rfm with
    | b :: more =>
      .next ((s.setPc st c { x with rfm := more, rows := smPut x.rows [b] 0 0 }).bump .HBM_CH_RFM_CNT_COUNT [st.val, ch])
    | [] =>
      let full := if s.waits (9 + st) 13 [st] then s.postpone st < x.owed else s.postpone st ≤ x.owed
      if 0 < x.owed ∧ (x.burst ∨ !urgent ∨ full) then
        .next (s.setPc st c { x with owed := x.owed - 1, rows := [], burst := x.burst && decide (1 < x.owed) })
      else
        let drain := if 48 ≤ x.wq.length then true else if x.wq.length ≤ 16 then false else x.drain
        let s := s.setPc st c { x with drain := drain }
        let go (q : HbmReq) (read : Bool) : State :=
          let s := s.activate st c q demand
          let x := s.pc st c
          if read then s.setPc st c { x with rq := takeOut q x.rq, inflight := x.inflight ++ [q] }
          else (s.setPc st c { x with wq := takeOut q x.wq }).writeParity st ch q par
        let uw := x.wq.find? (fun q => s.urgency st (s.hbmChannel st q.a) q = 3)
        let ur := x.rq.find? (fun q => s.urgency st (s.hbmChannel st q.a) q = 3)
        match ur, uw with
        | some q, _ => .next (go q true)
        | none, some q => .next (go q false)
        | none, none =>
          match (if drain || x.rq.isEmpty then s.pick st x x.wq else none) with
          | some q => .next (go q false)
          | none => match s.pick st x x.rq with
            | some q => .next (go q true)
            | none => .next s

/-- A read whose line `l` was met with altered bits returns what that line now opens to, or POISONED (R276). -/
def State.fetchAltered (s : State) (st : Nat) (q : HbmReq) (l flips : Nat) : State :=
  match s.lineFetch st (q.a + 64 * l) (q.data.getD l 0) flips with
  | some d => s.respond st (s.hbmChannel st q.a) q 0 (q.data.set l d)
  | none =>
    let s := match s.integLine st (q.a + 64 * l) with
      | some (r, i) => s.tagMismatch st r i false
      | none => s
    s.respond st (s.hbmChannel st q.a) q 3 q.allOnes

/-- A write of line `a` has entered after read `q`: it stands, and no rewrite of the line replaces it (R240, R252). -/
def State.newerWrite (s : State) (st : Nat) (q : HbmReq) (a : Nat) (x : PcRt) : Bool :=
  s.lineData (s.lineKey st a) != q.data.getD ((a - q.a) / 64) 0 || x.wq.any (fun w => w.lines.contains a && decide (q.t ≤ w.t))

/-- HBM_READ_COMPLETE (R252, R258, R259, R276): the `n`th read in flight returns, with a finding in its `line`; 0 none, 1 corrected, 2
uncorrectable, 3 severity report, 4 a parity error whose retry was good, 5 one whose retry failed, 6 clean ECC but altered
bits `flips` in the stored line and tag (`State.lineFetch`), 7 a copy of the node of level `level` above the line, the
primary or the mirror, uncorrectable (`flips` 0) or with altered bits (`State.nodeFetch`). -/
def execHbmReadComplete (st : Fin 4) (c : Fin 32) (n : Nat) (line : Fin 4) (finding : Fin 8) (level : Fin 8)
    (mirror : Bool) (flips : BitVec 576) (s : State) : Ans :=
  let x := s.pc st c
  match x.inflight[n]? with
  | none => .next s
  | some q =>
    let ch := c.val / 2
    let a := q.a + 64 * (line.val % q.lines.length)
    let s := s.setPc st c { x with inflight := x.inflight.eraseIdx n }
    let bad := finding.val = 2 || finding.val = 3 || finding.val = 5
    let s := match finding.val with
      | 1 => ((s.bump .HBM_CH_COR_CNT_COUNT [st.val, ch]).hbmErr st 1 a 0).suspectRow st a false
      | 2 => ((s.bump .HBM_CH_UNC_CNT_COUNT [st.val, ch]).hbmErr st 2 a 3).suspectRow st a true
      | 3 => ((s.bump .HBM_CH_UNC_CNT_COUNT [st.val, ch]).hbmErr st 3 a 3).suspectRow st a true
      | 4 => (s.bump .HBM_CH_PAR_CNT_COUNT [st.val, ch]).raise .HBM_CTL [st] 252 0 [a]
      | 5 => (((s.bump .HBM_CH_PAR_CNT_COUNT [st.val, ch]).bump .HBM_CH_UNC_CNT_COUNT [st.val, ch]).hbmErr st 4 a 3).suspectRow
          st a true
      | 7 => match s.integLine st a with
        | some (r, i) => s.nodeFetch st r level (i / 64 / 8 ^ level.val) mirror (bitsOf flips.toNat 0 512)
        | none => s
      | _ => s
    let s := if bad && !s.newerWrite st q a x then s.linePut (s.lineKey st a) 0 true else s
    if bad then .next (s.respond st (s.hbmChannel st q.a) q 3 q.allOnes)
    else if finding.val = 6 ∧ q.status = 0 then .next (s.fetchAltered st q (line.val % q.lines.length) flips.toNat)
    else .next (s.respond st (s.hbmChannel st q.a) q q.status (if q.status = 0 then q.data else q.allOnes))

/-- HBM_REFRESH_DUE (R244, R245): a refresh falls due; when the limit of postponed refreshes is reached, the burst permit
is asked for. -/
def execHbmRefreshDue (st : Fin 4) (c : Fin 32) (s : State) : Ans :=
  let h := s.hstate st
  if h = 1 ∨ h = 2 ∨ h = 5 then
    let x := s.pc st c
    let s := s.setPc st c { x with owed := x.owed + 1 }
    if 0 < s.postpone st ∧ s.postpone st ≤ x.owed + 1 ∧ s.waits (9 + st) 13 [st] = false then
      .next ((s.setStk st { s.stk st with burstT := s.now }).request (9 + st) 13 4 [st] [])
    else .next s
  else .next s

/-- HBM_REFRESH_BURST (R245): at the grant every owed refresh is issued as a burst. -/
def execHbmRefreshBurst (st : Fin 4) (s : State) : Ans :=
  match s.takeGrant (9 + st) 13 [st.val] with
  | some s => .next ((List.range 32).foldl (fun s c => s.setPc st c { s.pc st c with owed := 0, burst := false, rows := [] }) s)
  | none => .next s

/-- REFRESH_BURST_PERMIT_TIMEOUT (R245): 1 µs after the request; owed refreshes then go one at a time, ahead of requests. -/
def execRefreshBurstPermitTimeout (st : Fin 4) (s : State) : Ans :=
  if (s.gov (9 + st)).queue.any (·.is 13 [st]) then
    let s := s.lapseTo ((s.stk st).burstT + 1000)
    let s := s.giveBack (9 + st) 13 [st]
    .next ((List.range 32).foldl (fun s c =>
      let x := s.pc st c
      if 0 < x.owed then s.setPc st c { x with burst := true } else s) s)
  else .next s

/-- HBM_TEMP_READING (R244, R248, R256). -/
def execHbmTempReading (st : Fin 4) (temp : BitVec 8) (s : State) : Ans :=
  let h := s.hstate st
  if h = 1 ∨ h = 2 ∨ h = 3 ∨ h = 5 then
    let t := temp.toNat
    let al := s.rd .HBM_CTL_TALARM [st.val]
    let s := (s.wr .HBM_STAT_TEMP [st] t).wr .HBM_STAT_HOT [st] (if 85 ≤ t then 1 else 0)
    let x := s.stk st
    let s := if al ≤ t then
        (if x.armed then ((s.setStk st { x with armed := false }).wr .HBM_STAT_TALARM_HIT [st] 1).raise .HBM_CTL [st] 256 2 [t]
         else s)
      else if t + 5 ≤ al then s.setStk st { x with armed := true } else s
    let d := s.rd .HBM_TRAIN_DTEMP [st.val]
    let x := s.stk st
    if (h = 2 ∨ h = 5) ∧ d ≠ 0 ∧ (x.tempAt + d ≤ t ∨ t + d ≤ x.tempAt) then
      .next ((s.setStk st { x with tempAt := t }).retrain st)
    else .next s
  else .next s

/-! ## Training (R247, R281) -/

/-- A stack whose contents are lost trains (R281): ranges free, slots erased, an event for each range that was live; the
Lodestar makes a new default key (R262). -/
def State.sealForget (s : State) (st : Nat) : State :=
  let s := (List.range 16).foldl (fun s r =>
    let s := if s.sealLive st r then s.raise .SEAL_CTL [st] 281 3 [r] else s
    (((((s.wr .SEAL_RSTAT_STATE [st, r] 0).wr .SEAL_RSTAT_SWSTOP [st, r] 0).wr .SEAL_RSTAT_FREEZE [st, r] 0).wr
      .SEAL_RSTAT_KEYS [st, r] 0).wr .SEAL_RCTL_OWNER [st, r] 15).wr .SEAL_RCTL_CUR [st, r] 0) s
  let mine (m : SMap Nat) : SMap Nat := m.filter (fun e => e.1.headD 9 != st)
  let s := { s with
    seals := smPut s.seals [st] {} {}, leafMaj := mine s.leafMaj, leafMin := mine s.leafMin, innerC := mine s.innerC,
    ccache := mine s.ccache, hwm := mine s.hwm, lostN := s.lostN.filter (fun e => e.1.headD 9 != st),
    reenc := smPut s.reenc [st] [] [], ccT := mine s.ccT, keys := mine s.keys }
  let (k, s) := s.draw 512
  let (m, s) := s.draw 256
  let s := { s with keys := smPut s.keys [st, 32] (k + m * 2 ^ 512) 0 }
  let s := (s.giveBack (2 * st) 10 [st]).giveBack (2 * st) 10 [st, 1]
  (((s.wr .SEAL_STAT_KIND [st] 0).wr .SEAL_STAT_QUEUE [st] 0).wr .SEAL_STAT_PERMIT_WAIT [st] 0).wr .SEAL_STAT_DEFKEY [st] 1

/-- HBM_TRAINING_START (R247): at the last grant. -/
def execHbmTrainingStart (st : Fin 4) (s : State) : Ans :=
  if (s.stk st).train = 1 then
    let s' := (s.pull (2 * st) 11 [st]).pull (9 + st) 11 [st]
    match s'.takeGrant (9 + st) 12 [st.val] with
    | some s =>
      let s := s.setStk st { s.stk st with train := 2, t0 := s.now, entering := false }
      let s := s.wr .HBM_STAT_STATE [st] 1
      .next (if s.on .HBM_STAT_CONTENT [st] then s else s.sealForget st)
    | none => .next s
  else .next s

/-- HBM_TRAIN_PERMIT_TIMEOUT (R247): the grants already held return; the stack stays as it was. -/
def execHbmTrainPermitTimeout (st : Fin 4) (s : State) : Ans :=
  if (s.stk st).train = 1 then
    let s' := (s.pull (2 * st) 11 [st]).pull (9 + st) 11 [st]
    match (match s.takeTimeout (2 * st) 11 [st.val] with
      | some t => some t
      | none => match s'.takeTimeout (9 + st) 11 [st.val] with
        | some t => some t
        | none => s'.takeTimeout (9 + st) 12 [st.val]) with
    | some s =>
      let s := (s.trainReturn st).refreshReturn st
      let x := s.stk st
      .next ((s.setStk st { x with train := 0, retry := if x.retried then 0 else s.now + 10000000 }).raise .HBM_CTL [st] 247 2 [st])
    | none => .next s
  else .next s

/-- HBM_TRAIN_RETRY (R247): once, 10 ms later. -/
def execHbmTrainRetry (st : Fin 4) (s : State) : Ans :=
  let x := s.stk st
  if x.retry ≠ 0 ∧ x.train = 0 then
    let s := s.lapseTo x.retry
    .next ((s.setStk st { x with retry := 0, retried := true }).askTraining st)
  else .next s

/-- ZERO_FILL_DONE (R247): soft repairs have been applied and every line holds zeros; `softLeft` banks still have a
soft-repair resource, `unrepaired` rows of the record have none. -/
def execZeroFillDone (st : Fin 4) (softLeft : Fin 1537) (repaired : Bool) (unrepaired : Nat) (s : State) : Ans :=
  let x := s.stk st
  if x.train = 2 ∧ s.on .HBM_STAT_CONTENT [st] = false then
    let s := s.lapseTo (x.t0 + 22000000)
    let lo := st.val * 0x900000000
    let hi := lo + 0x900000000
    let s := { s with hbm := s.hbm.filter (fun c => !(lo ≤ c.1 && c.1 < hi)),
                      poison := s.poison.filter (fun k => !(lo ≤ k && k < hi)) }
    let s := if repaired then s.notice .HBM_CTL [st] 0x1021 0 softLeft 0 (some 6) else s
    let s := (List.range unrepaired).foldl (fun s i => s.raise .HBM_CTL [st] 247 2 [i]) s
    .next (s.wr .HBM_STAT_CONTENT [st] 1)
  else .next s

/-- HBM_TRAINING_DONE (R247): `lrep` gives the lane repairs left of each channel. -/
def execHbmTrainingDone (st : Fin 4) (lrep : List Nat) (temp : BitVec 8) (rfm : Bool) (s : State) : Ans :=
  let x := s.stk st
  if x.train = 2 ∧ s.on .HBM_STAT_CONTENT [st] then
    let s := s.lapseTo (x.t0 + 22000000)
    let s := s.trainReturn st
    let s := (List.range 16).foldl (fun s c =>
      (s.wr .HBM_CH_STAT_STATE [st, c] 1).wr .HBM_CH_STAT_LREP_LEFT [st, c] (min 15 (lrep.getD c 0))) s
    let rate := s.rd .HBM_TRAIN_RATE [st.val]
    let s := (s.wr .HBM_STAT_RATE [st] (if rate = 3 then 2 else rate)).wr .HBM_RH_RFM_REQ [st] (if rfm then 1 else 0)
    let s := s.setStk st { x with
      train := 0, retried := false, retry := 0, causes := [], entering := false, todo := [], suspect := [],
      lrep := (List.range 16).foldl (fun m c => smPut m [c] (lrep.getD c 0) 0) [], tempAt := temp.toNat, trainT := s.now }
    let s := if s.homeOut.contains st.val then s.wr .HA_STAT_RECALL [st] 1 else s
    .next (((s.wr .HBM_STAT_STATE [st] 2).wr .HBM_CTL_EN [st] 1).sweepWake st)
  else .next s

/-- HBM_TRAINING_FAIL (R247). -/
def execHbmTrainingFail (st : Fin 4) (s : State) : Ans :=
  let x := s.stk st
  if x.train = 2 then
    let s := (s.trainReturn st).refreshReturn st
    let s := s.setStk st { x with train := 0, retry := if x.retried then 0 else s.now + 10000000 }
    .next (((s.wr .HBM_STAT_STATE [st] 4).wr .HBM_CTL_EN [st] 0).raise .HBM_CTL [st] 247 3 [st])
  else .next s

/-! ## Retraining (R248, R249) -/

/-- HBM_RETRAIN_PERIOD (R248). -/
def execHbmRetrainPeriod (st : Fin 4) (s : State) : Ans :=
  let p := s.rd .HBM_TRAIN_PERIOD [st.val]
  if p ≠ 0 ∧ (s.hstate st = 2 ∨ s.hstate st = 5) then
    let s := s.lapseTo ((s.stk st).trainT + p * 100000000)
    .next (s.retrain st)
  else .next s

/-- The `HBM_CTL` register and a command written there. -/
def State.hbmCmd (s : State) (w : Writer) (st cmd : Nat) (ok : Bool) (k : State → State) : State :=
  s.reach w .HBM_CTL [st] (s.wordWith .HBM_CTL [st] [(.HBM_CTL_CMD, cmd)]) fun s =>
    if ok then k s else s.dropF w .HBM_CTL_CMD [st] cmd

/-- HBM_CMD_RETRAIN (R248, R256). -/
def execHbmCmdRetrain (w : Writer) (st : Fin 4) (s : State) : Ans :=
  .next (s.hbmCmd w st 1 (s.hstate st = 2 || s.hstate st = 5) (·.retrain st))

/-- The whole stack leaves service (R249). -/
def State.stackFails (s : State) (st c : Nat) : State :=
  let s := (s.wr .HBM_CH_STAT_STATE [st, c] 3).wr .HBM_CTL_EN [st] 0
  ((s.raise .HBM_CTL [st] 249 3 [c]).srCause st 5).capacityLost (2 * st)

/-- HBM_CHANNEL_RETRAIN_DONE (R248, R249, R250): `failing`: a lane of the channel fails. -/
def execHbmChannelRetrainDone (st : Fin 4) (failing : Bool) (s : State) : Ans :=
  let x := s.stk st
  match x.todo with
  | [] => .next s
  | c :: rest =>
    let s := s.lapseTo x.todoT
    let left := smGet x.lrep [c] 0
    if failing ∧ left = 0 then .next ((s.setStk st { x with todo := [] }).stackFails st c)
    else
      let x := if failing then { x with lrep := smPut x.lrep [c] (left - 1) 0 } else x
      let s := if failing then
          (s.wr .HBM_CH_STAT_LREP_LEFT [st, c] (min 15 (left - 1))).notice .HBM_CTL [st] 0x1020 c (left - 1) 0 (some 5)
        else s
      let s := s.wr .HBM_CH_STAT_STATE [st, c] 1
      match rest with
      | [] => .next ((s.setStk st { x with todo := [], todoT := 0, trainT := s.now, tempAt := s.rd .HBM_STAT_TEMP [st.val] }).wr
          .HBM_STAT_STATE [st] 2)
      | d :: _ => .next ((s.setStk st { x with todo := rest, todoT := s.now + 3000 }).wr .HBM_CH_STAT_STATE [st, d] 2)

/-! ## Self-refresh and power-down (R250, R256) -/

/-- The timeout of an exit's permit (R250): the stack stays in self-refresh. -/
def State.srExitTimeout (s : State) (st : Nat) : State :=
  if (s.stk st).exitAsked ∧ (s.gov (9 + st)).expired.any (·.is 12 [st]) then
    ((s.giveBack (9 + st) 12 [st]).setStk st { s.stk st with exitAsked := false }).raise .HBM_CTL [st] 250 2 [st]
  else s

/-- HBM_CMD_SELF_REFRESH (R250). -/
def execHbmCmdSelfRefresh (w : Writer) (st : Fin 4) (s : State) : Ans :=
  .next (s.hbmCmd w st 2 (s.hstate st = 2 || s.hstate st = 5) (·.srCause st 4))

/-- HBM_CMD_SELF_REFRESH_EXIT (R250): only where command 2 is the one cause. -/
def execHbmCmdSelfRefreshExit (w : Writer) (st : Fin 4) (s : State) : Ans :=
  .next (s.hbmCmd w st 3 (s.hstate st = 3 && (s.stk st).causes == [4] && !(s.stk st).exitAsked) fun s =>
    ((s.setStk st { s.stk st with exitAsked := true }).request (9 + st) 12 8 [st] []).srExitTimeout st)

/-- The entry into self-refresh ends: queued requests have completed, the standing-refresh permit returns (R245, R250). -/
def State.srEntered (s : State) (st : Nat) : State :=
  let x := s.stk st
  if x.entering then
    let s := (List.range 32).foldl (fun s c =>
      let p := s.pc st c
      let s := p.inflight.foldl (fun s q => s.respond st (s.hbmChannel st q.a) q q.status
        (if q.status = 0 then q.data else q.allOnes)) s
      let s := p.rq.foldl (fun s q => s.respond st (s.hbmChannel st q.a) q q.status
        (if q.status = 0 then q.data else q.allOnes)) s
      s.setPc st c {}) s
    let s := s.refreshReturn st
    (s.setStk st { x with entering := false, todo := [] }).wr .HBM_STAT_STATE [st] 3
  else s

/-- SELF_REFRESH_ENTERED (R250): within 2 µs of the refusal of new requests. -/
def execSelfRefreshEntered (st : Fin 4) (s : State) : Ans := .next (s.srEntered st)

/-- The stack leaves self-refresh and every channel is retrained (R250). -/
def State.srExit (s : State) (st : Nat) : State :=
  let s := s.setStk st { s.stk st with exitAsked := false, causes := [] }
  s.retrain st

/-- SELF_REFRESH_EXIT_GRANT (R250): the grant of the standing-refresh permit, within 2 µs. -/
def execSelfRefreshExitGrant (st : Fin 4) (s : State) : Ans :=
  if (s.stk st).exitAsked then
    match s.takeGrant (9 + st) 12 [st.val] with
    | some s => .next (s.srExit st)
    | none => .next s
  else .next s

/-- HBM_POWER_DOWN (R234, R256): after `PD_IDLE` × 100 ns of idle. -/
def execHbmPowerDown (st : Fin 4) (s : State) : Ans :=
  let i := s.rd .HBM_CTL_PD_IDLE [st.val]
  let x := s.stk st
  let idle := (List.range 32).all (fun c => (s.pc st c).rq.isEmpty && (s.pc st c).wq.isEmpty && (s.pc st c).inflight.isEmpty)
  if i ≠ 0 ∧ s.hstate st = 2 ∧ idle then
    .next ((s.lapseTo (x.busyT + i * 100)).setStk st { x with powerDown := true })
  else .next s

/-! ## Scrub and decode registers (R238, R253) -/

/-- HBM_SCRUB_BURST (R253): a burst of 64 lines from the pass position; `found` lists lines of the burst and whether the
error there is uncorrectable. The bursts of a pass are spread evenly over its hours (log entry 136). Without the permit the
burst is skipped. -/
def execHbmScrubBurst (st : Fin 4) (found : List (Fin 64 × Bool)) (granted : Bool) (s : State) : Ans :=
  if s.rd .HBM_SCRUB_HOURS [st.val] ≠ 0 ∧ s.stackOk st then
    let x := s.stk st
    let pos := x.scrubPos
    let pass := s.rd .HBM_SCRUB_HOURS [st.val] * 3600000000000
    let s := if x.scrubT = 0 then s.setStk st { x with scrubT := s.now } else s.lapseTo (x.scrubT + pos / 64 * pass / 9437184)
    let s := if s.waits (9 + st) 14 [st] then s else s.request (9 + st) 14 2 [st] []
    let adv (s : State) : State :=
      let next := pos + 64
      if 603979776 ≤ next then (s.setStk st { s.stk st with scrubPos := 0, scrubT := (s.stk st).scrubT + pass }).wr .HBM_SCRUB_DONE [st] 1
      else s.setStk st { s.stk st with scrubPos := next }
    if granted then
      match s.takeGrant (9 + st) 14 [st.val] with
      | none => .next s
      | some s =>
        let s := found.foldl (fun s f =>
          let a := (pos + f.1.val) * 64
          let ch := s.hbmChannel st a
          if f.2 then
            ((((s.linePut (s.lineKey st a) 0 true).bump .HBM_CH_UNC_CNT_COUNT [st, ch]).hbmErr st 5 a 3).suspectRow st a true)
          else ((s.bump .HBM_CH_COR_CNT_COUNT [st, ch]).hbmErr st 1 a 0).suspectRow st a false) (s.scrubReads st)
        .next (adv s)
    else
      match s.takeTimeout (9 + st) 14 [st.val] with
      | none => .next s
      | some s => .next (adv (s.raise .HBM_CTL [st] 253 2 [st]))
  else .next s

/-- HBM_ILV_WRITE (R238, R255). -/
def execHbmIlvWrite (w : Writer) (v : BitVec 2) (s : State) : Ans :=
  .next (s.reach w .HBM_ILV [] v.toNat fun s =>
    if (List.range 4).all (fun st => !s.up (2 * st) || !s.on .HBM_CTL_EN [st]) then
      let s := s.wr .HBM_ILV_MODE [] v.toNat
      if v.toNat = 3 then s.raise .HBM_ILV [] 255 2 [3] else s
    else s.drop w .HBM_ILV [] v.toNat)

/-- A mask as `HBM_HASH[i]` holds it: its home bit 1, the other home bits 0 (R236). Field bits start at bit 6. -/
def hashMask (i v : Nat) : Nat :=
  let homes := [3, 4, 5, 6, 2, 7, 8, 9, 10]
  let cleared := homes.foldl (fun x b => if x.testBit b then x - 2 ^ b else x) v
  cleared + 2 ^ homes.getD i 0

/-- HBM_HASH_WRITE (R236, R238): `v` is the field, bits [31:6] of the word. -/
def execHbmHashWrite (w : Writer) (st : Fin 4) (i : Fin 9) (v : BitVec 26) (s : State) : Ans :=
  .next (s.reach w .HBM_HASH [st, i] (v.toNat * 64) fun s =>
    if s.on .HBM_CTL_EN [st] then s.drop w .HBM_HASH [st, i] (v.toNat * 64)
    else s.wr .HBM_HASH_MASK [st, i] (hashMask i v.toNat))

end Sys2Proof.Machine
end

