-- ==== Sys2Proof/Machine/Lanes.lean ====
section
/-! DEFINITION. Channel lanes, bundles and trunk lanes (R286 to R315, R540). -/

namespace Sys2Proof.Machine

def State.laneRt (s : State) (l : Nat) : LaneRt := smGet s.lane [l] {}
def State.setLane (s : State) (l : Nat) (x : LaneRt) : State := { s with lane := smPut s.lane [l] x {} }
def State.trunkRt (s : State) (t : Nat) : LaneRt := smGet s.trunk [t] {}
def State.setTrunk (s : State) (t : Nat) (x : LaneRt) : State := { s with trunk := smPut s.trunk [t] x {} }

/-- The engine whose straight path owns a lane (R148). -/
def State.laneOwner (s : State) (l : Nat) : Option Nat :=
  (List.range 12).findSome? (fun k => let e := 12 * laneDie l + k; if s.fcOwns e l then some e else none)

/-- An engine that owns the lane is in `STATE` 1 to 5 (R304). -/
def State.laneBusy (s : State) (l : Nat) : Bool :=
  match s.laneOwner l with
  | some e => let x := s.rd .ENG_STATUS_STATE [e]; decide (1 ≤ x ∧ x ≤ 5)
  | none => false

/-- The word width of a lane (R296). -/
def State.laneW (s : State) (l : Nat) : Nat :=
  match s.laneOwner l with
  | some e => s.sliceW e
  | none => 64

def State.bndState (s : State) (b : Nat) : Nat := s.rd .CL_BND_STAT_STATE [b]
/-- The lanes of a bundle. -/
def bundleLanes (b : Nat) : List Nat := (List.range 8).map (8 * b + ·)
/-- `USE`; 3 acts as 0 (R313). -/
def State.laneUse (s : State) (l : Nat) : Nat := let u := s.rd .CL_CTL_USE [l]; if u = 3 then 0 else u

/-! ## PRBS (R300) -/

/-- The generator of a lane starts (R300). -/
def State.genStart (s : State) (l : Nat) : State :=
  s.setLane l { s.laneRt l with genOn := true, genReg := genSeed (s.rd .CL_PRBS_GEN [l]) }

/-- A write of `CL_PRBS`: a changed `GEN` restarts the generator of a lane that transmits it, a changed `CHK` makes the
checker lock anew, reserved codes are logged (R300, R313). -/
def State.prbsWritten (s : State) (l oldGen oldChk : Nat) : State :=
  let g := s.rd .CL_PRBS_GEN [l]
  let c := s.rd .CL_PRBS_CHK [l]
  let s := if g ≠ oldGen ∧ s.on .CL_CTL_EN [l] ∧ s.rd .CL_CTL_USE [l] = 2 then s.genStart l else s
  let s := if c ≠ oldChk then s.wr .CL_STAT_CHK_LOCK [l] 0 else s
  if g = 7 ∨ 6 ≤ c then s.raise .CL_PRBS [l] 313 2 [g, c] else s

/-! ## Bundles (R287 to R295, R312) -/

/-- The bundle starts its PLL under the permit it holds (R294). -/
def State.bundleStart (s : State) (b : Nat) : State :=
  let s := { s with bundle := smPut s.bundle [b] { t0 := s.now } {} }
  (((s.wr .CL_BND_STAT_STATE [b] 2).wr .CL_BND_STAT_PLL_LOCK [b] 0).wr .CL_BND_STAT_GRID [b] 0).wr .CL_BND_STAT_TRN_ERR [b] 0
    |> fun s => (bundleLanes b).foldl (fun s l => (s.wr .CL_STAT_LOS [l] 0).wr .CL_STAT_LOL [l] 0) s

/-- BUNDLE_ENABLE (R292, R312). -/
def execBundleEnable (w : Writer) (b : Fin 28) (s : State) : Ans :=
  .next (s.reach w .CL_BND_CTL [b] (s.wordWith .CL_BND_CTL [b] [(.CL_BND_CTL_EN, 1)]) fun s =>
    if s.on .CL_BND_CTL_EN [b] then s
    else
      let s := ((s.wr .CL_BND_CTL_EN [b] 1).wr .CL_BND_STAT_STATE [b] 1).wr .CL_BND_STAT_TRN_ERR [b] 0
      s.request (bundleDie b) 5 2 [b] [])

/-- A bundle goes off: its lanes stop and its permit returns (R312). -/
def State.bundleOff (s : State) (b : Nat) : State :=
  let s := (s.giveBack (bundleDie b) 5 [b]).wr .CL_BND_CTL_EN [b] 0
  let s := ((s.wr .CL_BND_STAT_STATE [b] 0).wr .CL_BND_STAT_PLL_LOCK [b] 0).wr .CL_BND_STAT_GRID [b] 0
  (bundleLanes b).foldl (fun s l =>
    ((s.wr .CL_STAT_LOS [l] 0).wr .CL_STAT_LOL [l] 0).wr .CL_STAT_CHK_LOCK [l] 0 |>.setLane l { s.laneRt l with genOn := false }) s

/-- BUNDLE_DISABLE (R304, R312). -/
def execBundleDisable (w : Writer) (b : Fin 28) (s : State) : Ans :=
  let word := s.wordWith .CL_BND_CTL [b] [(.CL_BND_CTL_EN, 0)]
  .next (s.reach w .CL_BND_CTL [b] word fun s =>
    if (bundleLanes b).any s.laneBusy then s.drop w .CL_BND_CTL [b] word else s.bundleOff b)

/-- BUNDLE_BRINGUP (R294): the permit is granted. -/
def execBundleBringup (b : Fin 28) (s : State) : Ans :=
  if s.bndState b = 1 then
    match s.takeGrant (bundleDie b) 5 [b.val] with
    | some s => .next (s.bundleStart b)
    | none => .next s
  else .next s

/-- BUNDLE_PLL_LOCK_CHECK (R294): at t0 + 50 µs; a locked bundle trains from t0 + 60 µs. -/
def execBundlePllLockCheck (b : Fin 28) (locked : Bool) (s : State) : Ans :=
  let t0 := (smGet s.bundle [b.val] {}).t0
  if s.bndState b = 2 then
    if locked then
      let s := ((s.lapseTo (t0 + 60000)).wr .CL_BND_STAT_PLL_LOCK [b] 1).wr .CL_BND_STAT_STATE [b] 3
      .next ((bundleLanes b).foldl (fun s l => s.setLane l { s.laneRt l with genReg := 0 }) s)
    else .next (((s.lapseTo (t0 + 50000)).wr .CL_BND_STAT_STATE [b] 5).wr .CL_BND_STAT_TRN_ERR [b] 3)
  else .next s

/-- What receiver `i` of the bundle reads in the blocks it received (R293): index and inversion. -/
def rxRead (rx : List (Option (BitVec 64))) (i : Nat) : Option (Nat × Bool) := (rx.getD i none).bind fun b => readBlock b.toNat
def rxIdx (rx : List (Option (BitVec 64))) (i : Nat) : Option Nat := (rxRead rx i).map (·.1)
def rxInv (rx : List (Option (BitVec 64))) (i : Nat) : Bool := (rxRead rx i).any (·.2)

/-- BUNDLE_TRAIN_DECISION (R289, R293, R294, R295, R300). -/
def execBundleTrainDecision (b : Fin 28) (rx : List (Option (BitVec 64))) (s : State) : Ans :=
  if s.bndState b = 3 then
    let s := s.lapseTo ((smGet s.bundle [b.val] {}).t0 + 1050000)
    let lanes := s.rd .CL_BND_TRN_LANES [b.val]
    let present := (List.range 8).filter (fun i => lanes.testBit i && (rxIdx rx i).isSome)
    let s := s.wr .CL_BND_STAT_PRESENT [b] (present.foldl (fun a i => a + 2 ^ i) 0)
    let straight := present.all (fun i => rxIdx rx i == some i)
    let back := present.all (fun i => rxIdx rx i == some (7 - i))
    let fail (err : Nat) : State := (s.wr .CL_BND_STAT_STATE [b] 5).wr .CL_BND_STAT_TRN_ERR [b] err
    if present.isEmpty then .next (fail 1)
    else if straight || back then
      let s := s.wr .CL_BND_STAT_REV [b] (if straight then 0 else 1)
      let s := present.foldl (fun s i => s.wr .CL_STAT_RXINV [8 * b.val + (rxIdx rx i).getD 0] (if rxInv rx i then 1 else 0)) s
      let s := s.wr .CL_BND_STAT_GRID [b] (if s.on .CL_BND_CTL_SSC [b] = false ∧ s.on .SX_STAT_VALID [] then 1 else 0)
      let s := (bundleLanes b).foldl (fun s l =>
        let s := (s.wr .CL_STAT_REALIGN [l] 1).wr .CL_STAT_CHK_LOCK [l] 0
        if s.on .CL_CTL_EN [l] ∧ s.rd .CL_CTL_USE [l] = 2 then s.genStart l else s) s
      .next (s.wr .CL_BND_STAT_STATE [b] 4)
    else .next (fail 2)
  else .next s

/-- A bring-up under the permit that the bundle holds; where it holds none (its die has been in P1, R388), it asks first (R17). -/
def State.bundleAgain (s : State) (b : Nat) : State :=
  if s.holds (bundleDie b) 5 [b] then s.bundleStart b
  else ((s.wr .CL_BND_STAT_STATE [b] 1).wr .CL_BND_STAT_TRN_ERR [b] 0).request (bundleDie b) 5 2 [b] []

/-- BUNDLE_RETRAIN (R304, R312). -/
def execBundleRetrain (w : Writer) (b : Fin 28) (s : State) : Ans :=
  let word := s.wordWith .CL_BND_CTL [b] [(.CL_BND_CTL_CMD, 1)]
  .next (s.reach w .CL_BND_CTL [b] word fun s =>
    let x := s.bndState b
    let e := s.rd .CL_BND_STAT_TRN_ERR [b]
    if (bundleLanes b).any s.laneBusy = false ∧ (x = 4 ∨ (x = 5 ∧ 1 ≤ e ∧ e ≤ 3)) then s.bundleAgain b
    else s.drop w .CL_BND_CTL [b] word)

/-- BUNDLE_PERMIT_TIMEOUT (R292). -/
def execBundlePermitTimeout (b : Fin 28) (s : State) : Ans :=
  if s.bndState b = 1 then
    match s.takeTimeout (bundleDie b) 5 [b.val] with
    | some s => .next ((s.wr .CL_BND_STAT_STATE [b] 5).wr .CL_BND_STAT_TRN_ERR [b] 4)
    | none => .next s
  else .next s

/-! ## Channel lanes (R287, R290, R291, R296 to R304, R313) -/

/-- The lane's receiver detects losses (R303). -/
def State.laneDetects (s : State) (l : Nat) : Bool := s.on .CL_CTL_EN [l] && s.bndState (l / 8) == 4

/-- A word written to `CL_CTL`, but for its `CMD` (R287, R300, R304, R313). -/
def State.laneCtl (s : State) (w : Writer) (l v : Nat) : State :=
  let en := v % 2
  let use := v / 2 % 4
  let div := v / 16 % 4
  let en0 := s.rd .CL_CTL_EN [l]
  let use0 := s.rd .CL_CTL_USE [l]
  let div0 := s.rd .CL_CTL_DIV [l]
  let busy := s.laneBusy l
  let cut := busy && (en != en0 || use != use0 || div != div0)
  let cutDiv := !busy && en0 == 1 && div != div0
  let s := if cut || cutDiv then s.drop w .CL_CTL [l] v else s
  let en := if busy then en0 else en
  let use := if busy then use0 else use
  let div := if busy || en0 == 1 then div0 else div
  let s := ((s.wr .CL_CTL_TXINV [l] (v / 8 % 2)).wr .CL_CTL_RXMODE [l] (v / 64 % 2))
  let s := ((s.wr .CL_CTL_EN [l] en).wr .CL_CTL_USE [l] use).wr .CL_CTL_DIV [l] div
  let s := if use = 3 ∧ !busy then s.raise .CL_CTL [l] 313 2 [use] else s
  let s := if en = 0 then ((s.wr .CL_STAT_LOS [l] 0).wr .CL_STAT_LOL [l] 0).wr .CL_STAT_CHK_LOCK [l] 0 else s
  if en = 1 ∧ use = 2 then (if en0 = 0 ∨ use0 ≠ 2 then s.genStart l else s)
  else s.setLane l { s.laneRt l with genOn := false }

/-- LANE_CTL_WRITE (R287, R304). -/
def execLaneCtlWrite (w : Writer) (l : Fin 224) (v : BitVec 7) (s : State) : Ans :=
  .next (s.reach w .CL_CTL [l] v.toNat fun s => s.laneCtl w l v.toNat)

/-- LOOP_MEASURE (R298). -/
def execLoopMeasure (w : Writer) (l : Fin 224) (s : State) : Ans :=
  let word := s.wordWith .CL_CTL [l] [(.CL_CTL_CMD, 1)]
  .next (s.reach w .CL_CTL [l] word fun s =>
    let u := s.laneUse l
    if s.laneDetects l ∧ ((u = 0 ∧ s.laneBusy l = false) ∨ u = 2) ∧ s.on .CL_LOOP_BUSY [l] = false then
      (s.wr .CL_LOOP_BUSY [l] 1).setLane l { s.laneRt l with loopT := s.now }
    else s.drop w .CL_CTL [l] word)

/-- LOOP_MEASURE_DONE (R298): the marker's first bit is sampled, or 65,536 UI have passed. -/
def execLoopMeasureDone (l : Fin 224) (ui : Option (BitVec 16)) (s : State) : Ans :=
  if s.on .CL_LOOP_BUSY [l] then
    let n := match ui with
      | some u => u.toNat
      | none => 65536
    let s := s.lapseTo ((s.laneRt l).loopT + ceilDiv ((1024 + n) * 1000000) (s.laneKbps l))
    let s := s.wr .CL_LOOP_BUSY [l] 0
    match ui with
    | some u => .next ((s.wr .CL_LOOP_UI [l] u.toNat).wr .CL_LOOP_VALID [l] 1)
    | none => .next ((s.wr .CL_LOOP_FAIL [l] 1).wr .CL_LOOP_VALID [l] 0)
  else .next s

/-- LANE_INJECT_ERROR (R301): the first bit of the next word goes out inverted. -/
def execLaneInjectError (w : Writer) (l : Fin 224) (s : State) : Ans :=
  .next (s.reach w .CL_CTL [l] (s.wordWith .CL_CTL [l] [(.CL_CTL_CMD, 2)]) fun s =>
    if s.laneDetects l then s.setLane l { s.laneRt l with inject := true } else s)

/-- LANE_SLIP (R297). -/
def execLaneSlip (w : Writer) (l : Fin 224) (c : BitVec 9) (s : State) : Ans :=
  .next (s.reach w .CL_SLIP [l] c.toNat fun s =>
    if c.toNat = 0 then s
    else if s.bndState (l.val / 8) = 4 ∧ s.laneBusy l = false then
      (s.wr .CL_STAT_SLIP_POS [l] ((s.rd .CL_STAT_SLIP_POS [l.val] + c.toNat) % s.laneW l)).wr .CL_STAT_REALIGN [l] 0
    else s.drop w .CL_SLIP [l] c.toNat)

/-- A deskew byte lies within −64 to +64 UI (R290). -/
def deskewOk (v : Nat) : Bool := decide (v ≤ 64 ∨ 192 ≤ v)

/-- LANE_TIMING_WRITE (R290, R291). -/
def execLaneTimingWrite (w : Writer) (l : Fin 224) (v : BitVec 32) (s : State) : Ans :=
  let x := v.toNat
  let tx := bitsOf x 8 8
  let rx := bitsOf x 24 8
  .next (s.reach w .CL_TIM [l] x fun s =>
    let same := decide (tx = s.rd .CL_TIM_TXDSK [l.val] ∧ rx = s.rd .CL_TIM_RXDSK [l.val])
    let free := !s.on .CL_CTL_EN [l] || ((s.laneOwner l).isNone && s.laneUse l == 0)
    if deskewOk tx ∧ deskewOk rx ∧ (same ∨ free) then
      (((s.wr .CL_TIM_TXVERN [l] (bitsOf x 0 7)).wr .CL_TIM_TXDSK [l] tx).wr .CL_TIM_RXSTB [l] (bitsOf x 16 7)).wr
        .CL_TIM_RXDSK [l] rx
    else s.drop w .CL_TIM [l] x)

/-! ## Losses (R303) -/

/-- The adaptation asks for its permit (R307). -/
def State.askAdapt (s : State) (t : Nat) : State := (s.wr .TR_STAT_STATE [t] 1).request (trunkDie t) 6 3 [t] []

/-- A trunk lane adapts again under the permit that it holds; where it holds none (its die has been in P1, R388), it asks first
(R17, R307). -/
def State.adaptAgain (s : State) (t : Nat) : State :=
  let s := s.wr .TR_STAT_CHK_LOCK [t] 0
  if s.holds (trunkDie t) 6 [t] then (s.wr .TR_STAT_STATE [t] 2).setTrunk t { s.trunkRt t with adaptT := s.now }
  else s.askAdapt t

/-- A trunk lane loses its signal or lock (R303, R307): `LOS` and `LOL` read 1 only in `STATE` 3, which it leaves at once. -/
def State.trunkLoss (s : State) (t lol : Nat) : State :=
  if s.rd .TR_STAT_STATE [t] = 3 then (s.raise .TR_CTL [t] 303 0 [lol]).adaptAgain t else s

/-- LOSS_OF_SIGNAL (R303). -/
def execLossOfSignal (trunk : Bool) (l : Fin 224) (s : State) : Ans :=
  if trunk then .next (s.trunkLoss l 0)
  else if s.laneDetects l ∧ s.on .CL_STAT_LOS [l] = false then
    .next (((s.wr .CL_STAT_LOS [l] 1).wr .CL_STAT_LOS_EV [l] 1).raise .CL_CTL [l] 303 0 [0])
  else .next s

/-- The receiver samples at fixed instants: strobe mode, which a bundle with spread does not have (R288, R290). -/
def State.strobe (s : State) (l : Nat) : Bool := s.on .CL_CTL_RXMODE [l] && !s.on .CL_BND_CTL_SSC [l / 8]

/-- LOSS_OF_LOCK (R303): never in strobe mode. -/
def execLossOfLock (trunk : Bool) (l : Fin 224) (s : State) : Ans :=
  if trunk then .next (s.trunkLoss l 1)
  else if s.laneDetects l ∧ s.strobe l = false ∧ s.on .CL_STAT_LOL [l] = false then
    .next (((s.wr .CL_STAT_LOL [l] 1).wr .CL_STAT_LOL_EV [l] 1).raise .CL_CTL [l] 303 0 [1])
  else .next s

/-- LOSS_CONDITION_END (R303): `REALIGN` is set, and a locked checker locks anew. -/
def execLossConditionEnd (trunk : Bool) (l : Fin 224) (lol : Bool) (s : State) : Ans :=
  let f : Fld := if lol then .CL_STAT_LOL else .CL_STAT_LOS
  if trunk = false ∧ s.on f [l] then
    .next (((s.wr f [l] 0).wr .CL_STAT_REALIGN [l] 1).wr .CL_STAT_CHK_LOCK [l] 0)
  else .next s

/-! ## Fabric lane ports and checkers (R300 to R302, R308, R309) -/

/-- The fabric takes `n` words from the port's receive FIFO. -/
def State.portTake (s : State) (l n : Nat) : State :=
  let x := s.laneRt l
  let s := (x.rx.take n).foldl (fun s q => s.emit (.laneWord l q.1 q.2.1)) s
  s.setLane l { x with rx := x.rx.drop n }

/-- The fabric lane port of a lane's bundle works (R302). -/
def State.portUp (s : State) (l : Nat) : Bool :=
  s.rd .SEC_STATUS_STATE [laneDie l, laneLocal l / 8 * 8] == 3

/-- The counters of a checker are brought up to date. -/
def State.chkCount (s : State) (trunk : Bool) (l bits errs : Nat) : State :=
  if trunk then
    let x := s.trunkRt l
    (s.bump .TR_ERR_CNT_COUNT [l] errs).setTrunk l { x with bits := min (2 ^ 64 - 1) (x.bits + bits) }
  else
    let x := s.laneRt l
    (s.bump .CL_ERR_CNT_COUNT [l] errs).setLane l { x with bits := min (2 ^ 64 - 1) (x.bits + bits) }

def chkLockFld (trunk : Bool) : Fld := if trunk then .TR_STAT_CHK_LOCK else .CL_STAT_CHK_LOCK

/-- The code of a checker. -/
def State.chkCode (s : State) (trunk : Bool) (l : Nat) : Nat := s.rd (if trunk then .TR_PRBS_CHK else .CL_PRBS_CHK) [l]

/-- A checker that runs: its code is one of its lane kind (R300, R308), and its lane receives. -/
def State.chkRuns (s : State) (trunk : Bool) (l : Nat) : Bool :=
  let c := s.chkCode trunk l
  if trunk then
    s.rd .TR_STAT_STATE [l] == 3 && c != 0 && decide (c ≤ if s.on .TR_CTL_MOD [l] then 3 else 5)
  else
    s.laneDetects l && c != 0 && decide (c ≤ 5)

/-- The bits of a received word go through the checker, the first in bit 0; they and their errors count while it is locked (R300). -/
def State.chkBits (s : State) (trunk : Bool) (l x : Nat) : Nat → State
  | 0 => s
  | n + 1 =>
    let r := if trunk then s.trunkRt l else s.laneRt l
    let locked := s.on (chkLockFld trunk) [l]
    let (c, locked', err) := chkBit (trunk && s.on .TR_CTL_MOD [l]) (s.chkCode trunk l) r.chk locked (x.testBit 0)
    let s := if trunk then s.setTrunk l { r with chk := c } else s.setLane l { r with chk := c }
    let s := if locked then s.chkCount trunk l 1 err.toNat else s
    (s.wr (chkLockFld trunk) [l] (if locked' then 1 else 0)).chkBits trunk l (x / 2) n

/-- Received words meet the checker where it runs. -/
def State.chkWords (s : State) (trunk : Bool) (l : Nat) (ws : List (BitVec 64)) : State :=
  if s.chkRuns trunk l then ws.foldl (fun s w => s.chkBits trunk l w.toNat 64) s else s

/-- CHECKER_LOCK (R300): corrected receive bits on which the checker locks. -/
def execCheckerLock (trunk : Bool) (l : Fin 224) (rx : List (BitVec 64)) (s : State) : Ans := .next (s.chkWords trunk l rx)

/-- CHECKER_LOCK_LOSS (R300): corrected receive bits on which it loses its lock. -/
def execCheckerLockLoss (trunk : Bool) (l : Fin 224) (rx : List (BitVec 64)) (s : State) : Ans := .next (s.chkWords trunk l rx)

/-- The bundle lane whose data the physical receiver of a lane gives (R295). -/
def State.rxLane (s : State) (l : Nat) : Nat := if s.on .CL_BND_STAT_REV [l / 8] then l / 8 * 8 + (7 - l % 8) else l

/-- LANE_PORT_RX_WORD (R295, R299, R300, R302): a word of the receiver at physical lane `l`, corrected, meets the lane's checker and
enters the FIFO; one that finds 16 words waiting is dropped, and the next one says so. -/
def execLanePortRxWord (l : Fin 224) (data : BitVec 64) (taken : Nat) (s : State) : Ans :=
  let l := s.rxLane l
  if s.laneDetects l ∧ s.laneUse l = 1 then
    let data := if s.on .CL_STAT_RXINV [l] then ~~~data else data
    let s := s.chkWords false l [data]
    let s := if s.portUp l then s.portTake l taken else s
    let x := s.laneRt l
    if x.rx.length < 16 then .next (s.setLane l { x with rx := x.rx ++ [(data.toNat, x.rxLost, 0)], rxLost := false })
    else .next (s.setLane l { x with rxLost := true })
  else .next s

/-! ## Trunk lanes (R305 to R309, R315) -/

def State.trState (s : State) (t : Nat) : Nat := s.rd .TR_STAT_STATE [t]

/-- The generator of a trunk lane starts (R300, R308). -/
def State.trunkGen (s : State) (t : Nat) : State :=
  s.setTrunk t { s.trunkRt t with genReg := if s.on .TR_CTL_MOD [t] then 0 else genSeed (s.rd .TR_PRBS_GEN [t]) }

/-- A write of `TR_PRBS`: a changed `GEN` restarts the generator, a changed `CHK` makes the checker lock anew, reserved codes are
logged (R300, R308, R315). -/
def State.trPrbsWritten (s : State) (t oldGen oldChk : Nat) : State :=
  let s := if s.rd .TR_PRBS_GEN [t] = oldGen then s else s.trunkGen t
  if s.rd .TR_PRBS_CHK [t] = oldChk then s else s.wr .TR_STAT_CHK_LOCK [t] 0

/-- TRUNK_ENABLE (R307). -/
def execTrunkEnable (w : Writer) (t : Fin 32) (s : State) : Ans :=
  .next (s.reach w .TR_CTL [t] (s.wordWith .TR_CTL [t] [(.TR_CTL_EN, 1)]) fun s =>
    let s := s.wr .TR_CTL_EN [t] 1
    if s.trState t = 0 then s.askAdapt t else s)

/-- A trunk lane goes off and returns its permit (R307). -/
def State.trunkOff (s : State) (t : Nat) : State :=
  ((((s.giveBack (trunkDie t) 6 [t]).wr .TR_CTL_EN [t] 0).wr .TR_STAT_STATE [t] 0).wr .TR_STAT_CHK_LOCK [t] 0)

/-- TRUNK_ADAPT (R307): the permit is granted. -/
def execTrunkAdapt (t : Fin 32) (s : State) : Ans :=
  if s.trState t = 1 then
    match s.takeGrant (trunkDie t) 6 [t.val] with
    | some s => .next (((s.wr .TR_STAT_STATE [t] 2).setTrunk t { s.trunkRt t with adaptT := s.now }).trunkGen t)
    | none => .next s
  else .next s

/-- TRUNK_CONVERGED (R307): also after the lane has read `STATE` 4. -/
def execTrunkConverged (t : Fin 32) (snr : BitVec 8) (s : State) : Ans :=
  if s.trState t = 2 ∨ s.trState t = 4 then .next ((s.wr .TR_STAT_STATE [t] 3).wr .TR_STAT_SNR [t] snr.toNat) else .next s

/-- TRUNK_NO_SIGNAL (R307): at t0 + 50 ms. -/
def execTrunkNoSignal (t : Fin 32) (s : State) : Ans :=
  if s.trState t = 2 then
    .next (((s.lapseTo ((s.trunkRt t).adaptT + 50000000)).wr .TR_STAT_STATE [t] 4).raise .TR_CTL [t] 307 0 [t])
  else .next s

/-- TRUNK_READAPT (R307, R315): under the permit held, or with a new request where none is held. -/
def execTrunkReadapt (w : Writer) (t : Fin 32) (s : State) : Ans :=
  .next (s.reach w .TR_CTL [t] (s.wordWith .TR_CTL [t] [(.TR_CTL_CMD, 1)]) fun s =>
    let x := s.trState t
    if s.on .TR_CTL_EN [t] = false ∨ x = 1 then s
    else if x = 0 then s.askAdapt t
    else s.adaptAgain t)

/-- TRUNK_INJECT_ERROR (R315). -/
def execTrunkInjectError (w : Writer) (t : Fin 32) (s : State) : Ans :=
  .next (s.reach w .TR_CTL [t] (s.wordWith .TR_CTL [t] [(.TR_CTL_CMD, 2)]) fun s =>
    if 2 ≤ s.trState t then s.setTrunk t { s.trunkRt t with inject := true } else s)

/-- TRUNK_PERMIT_TIMEOUT (R307). -/
def execTrunkPermitTimeout (t : Fin 32) (s : State) : Ans :=
  if s.trState t = 1 then
    match s.takeTimeout (trunkDie t) 6 [t.val] with
    | some s => .next ((s.wr .TR_STAT_STATE [t] 0).raise .TR_CTL [t] 307 2 [t])
    | none => .next s
  else .next s

/-- The size of a tap, six bits in two's complement. -/
def tapAbs (v : BitVec 6) : Nat := if v.toNat < 32 then v.toNat else 64 - v.toNat

/-- TR_FFE_WRITE (R306). -/
def execTrFfeWrite (w : Writer) (t : Fin 32) (pre2 pre1 post1 : BitVec 6) (s : State) : Ans :=
  let word := pre2.toNat + pre1.toNat * 2 ^ 8 + post1.toNat * 2 ^ 16
  .next (s.reach w .TR_FFE [t] word fun s =>
    if tapAbs pre2 + tapAbs pre1 + tapAbs post1 ≤ 32 then
      ((s.wr .TR_FFE_PRE2 [t] pre2.toNat).wr .TR_FFE_PRE1 [t] pre1.toNat).wr .TR_FFE_POST1 [t] post1.toNat
    else s.drop w .TR_FFE [t] word)

/-- The fabric port of a trunk lane works (R309). -/
def State.trunkPortUp (s : State) (t : Nat) : Bool :=
  s.rd .SEC_STATUS_STATE [trunkDie t, 15 + 8 * (t % 8 / 2)] == 3

/-- The fabric takes `n` capture beats. -/
def State.beatTake (s : State) (t n : Nat) : State :=
  let x := s.trunkRt t
  let s := (x.rx.take n).foldl (fun s q => s.emit (.beat t q.2.2 q.1 q.2.1)) s
  s.setTrunk t { x with rx := x.rx.drop n }

/-- CAPTURE_BEAT (R309): a beat that finds 64 beats waiting is dropped; `CAP_SEQ` counts it all the same. -/
def execCaptureBeat (t : Fin 32) (samples : BitVec 896) (taken : Nat) (s : State) : Ans :=
  if s.trState t = 3 ∧ s.on .TR_CTL_CAP [t] ∧ s.trunkPortUp t then
    let s := s.beatTake t taken
    let x := s.trunkRt t
    let seq := (x.capSeq + 1) % 2 ^ 16
    if x.rx.length < 64 then
      .next (s.setTrunk t { x with rx := x.rx ++ [(samples.toNat, x.rxLost, x.capSeq)], rxLost := false, capSeq := seq })
    else .next ((s.setTrunk t { x with rxLost := true, capSeq := seq }).wr .TR_STAT_CAP_OVF [t] 1)
  else .next s

/-! ## What lanes send and receive by themselves (R26, R293, R296, R299, R300, R302, R308, R309) -/

/-- The next word of a channel lane, `w` bits, and the lane after it (R299). -/
def State.laneWord (s : State) (l w : Nat) : Nat × LaneRt :=
  let x := s.laneRt l
  let b := l / 8
  let i := laneLocal l % 8
  if s.bndState b = 3 then
    if s.on .CL_BND_TRN_MODE [b] ∧ (s.rd .CL_BND_TRN_LANES [b]).testBit i then
      let (v, r) := genBits 6 i x.genReg w
      (v, { x with genReg := r })
    else (0, x)
  else if s.laneDetects l then
    match s.laneUse l with
    | 1 => if s.portUp l then (x.tx.headD 0, { x with tx := x.tx.tail }) else (0, x)
    | 2 =>
      let g := s.rd .CL_PRBS_GEN [l]
      if x.genOn ∧ 1 ≤ g ∧ g ≤ 6 then
        let (v, r) := genBits g i x.genReg w
        (v, { x with genReg := r })
      else (0, x)
    | _ => (0, x)
  else (0, x)

/-- A transmitted word with the error that waits for it, inverted where `inv`. -/
def outWord (v w : Nat) (inject inv : Bool) : Nat := v ^^^ inject.toNat ^^^ (if inv then 2 ^ w - 1 else 0)

/-- A word period of a channel lane begins. The slots of a straight path are not sent here; a bundle that is off, waits or
starts is silent, and so is a die that is not in P0. -/
def State.laneSend (s : State) (l : Nat) : State :=
  let slots := s.laneUse l == 0 && (s.laneOwner l).any fun e => (s.engine e).launched
  if s.bndState (l / 8) < 3 ∨ s.dpUp (laneDie l) = false ∨ slots then s
  else
    let w := s.laneW l
    let (v, x) := s.laneWord l w
    (s.setLane l { x with inject := false }).emit (.txWord false l (outWord v w x.inject (s.on .CL_CTL_TXINV [l])))

/-- A word period of a trunk lane begins: 64 bits in NRZ, in PAM4 32 levels of two bits each (R305). -/
def State.trunkSend (s : State) (t : Nat) : State :=
  let x := s.trunkRt t
  if s.trState t < 2 ∨ s.now < x.adaptT + 100000 ∨ s.dpUp (trunkDie t) = false then s
  else
    let g := s.rd .TR_PRBS_GEN [t]
    let pam := s.on .TR_CTL_MOD [t]
    let (v, x) :=
      if pam ∧ 1 ≤ g ∧ g ≤ 3 then ((Config.pam4Word g x.genReg).toNat, { x with genReg := x.genReg + 1 })
      else if pam = false ∧ 1 ≤ g ∧ g ≤ 5 then
        let (v, r) := genBits g 0 x.genReg 64
        (v, { x with genReg := r })
      else if s.trunkPortUp t then (x.tx.headD 0, { x with tx := x.tx.tail })
      else (0, x)
    let v := outWord v 64 x.inject false
    let (v, prev) := if pam then mapLevels (s.on .TR_CTL_PRECODE [t]) v x.txPrev 32 else (v, x.txPrev)
    (s.setTrunk t { x with inject := false, txPrev := prev }).emit (.txWord true t (outWord v 64 false (s.on .TR_CTL_TXINV [t])))

/-- The design offers a transmit word: taken while the FIFO holds fewer than 16 (R302). -/
def State.portLoad (s : State) (trunk : Bool) (l data : Nat) : State :=
  let up := if trunk then s.trunkPortUp l else s.portUp l
  let x := if trunk then s.trunkRt l else s.laneRt l
  if up = false ∨ 16 ≤ x.tx.length then s
  else if trunk then s.setTrunk l { x with tx := x.tx ++ [data] } else s.setLane l { x with tx := x.tx ++ [data] }

/-- A trunk lane receives 64 bits, or 32 levels in PAM4: inverted and decoded, they are the next word of its port in normal mode
(R305, R309), under the rules of R302. -/
def State.trunkReceive (s : State) (t data taken : Nat) : State :=
  if s.trState t = 3 then
    let x := s.trunkRt t
    let data := outWord data 64 false (s.on .TR_CTL_RXINV [t])
    let (data, prev) := if s.on .TR_CTL_MOD [t] then unmapLevels (s.on .TR_CTL_PRECODE [t]) data x.rxPrev 32 else (data, x.rxPrev)
    let s := s.setTrunk t { x with rxPrev := prev }
    if s.on .TR_CTL_CAP [t] then s
    else
    let x := s.trunkRt t
    let n := if s.trunkPortUp t then taken else 0
    let s := (x.words.take n).foldl (fun s q => s.emit (.trunkWord t q.1 q.2)) s
    let ws := x.words.drop n
    if ws.length < 16 then s.setTrunk t { x with words := ws ++ [(data, x.wordsLost)], wordsLost := false }
    else s.setTrunk t { x with words := ws, wordsLost := true }
  else s

def State.laneAct (s : State) (a : LaneAct) : State :=
  match a with
  | .send trunk l => if trunk then s.trunkSend (l % 32) else s.laneSend l
  | .load trunk l data => s.portLoad trunk (if trunk then l % 32 else l) data.toNat
  | .trunkWord t data taken => s.trunkReceive t data.toNat taken

/-- The acts of the lanes in one nanosecond (log entry 126). -/
def State.laneNs (s : State) : State := (Config.laneActs s.draws).foldl (fun t a => t.laneAct a) s

end Sys2Proof.Machine
end

