-- ==== Sys2Proof/Machine/RemoteCache.lean ====
section
/-! DEFINITION. Remote caches, home agents and cache windows (R215 to R232), message by message. -/

namespace Sys2Proof.Machine

def State.miss (s : State) (n line : Nat) : RcMiss := smGet s.rcMiss [n, line] {}
def State.setMiss (s : State) (n line : Nat) (x : RcMiss) : State := { s with rcMiss := smPut s.rcMiss [n, line] x {} }
def State.haQ (s : State) (st : Nat) : List HaReq := smGet s.haIn [st] []
def State.setHaQ (s : State) (st : Nat) (l : List HaReq) : State := { s with haIn := smPut s.haIn [st] l [] }

/-- The transaction open on a line; opcode 0 stands for none. -/
def noTx : HaTx := { req := { opc := 0, line := 0, die := 0 }, wait := 0, inval := false }
def State.tx (s : State) (st line : Nat) : HaTx := smGet s.haTx [st, line] noTx
def State.setTx (s : State) (st line : Nat) (x : HaTx) : State := { s with haTx := smPut s.haTx [st, line] x noTx }

/-- What a read returns. -/
def State.answerWith (s : State) (data : Nat) (bad : Bool) : State := { s with answer := if bad then ones512 else data }

/-- An uncorrectable error in the arrays of cache `n` (R222): in the data of a line, or in a tag of its set. Both counters of
poisoned lines count, the home's where it poisons by its filter (log entry 134). -/
def State.rcArrayError (s : State) (n line : Nat) (tag : Bool) : State :=
  let lose (s : State) (l : Nat) : State :=
    let x := s.rcLine n l
    let s := if x.st = 3 then (s.homeStore l 0 true).bump .RC_POISON_CNT_COUNT [n] else s
    let s := if x.st = 3 ∧ tag then s.bump .HA_POISON_CNT_COUNT [(s.lineHome l).1] else s
    (s.setRc n l {}).sfDrop l n
  if tag then (s.rcSet n line).foldl (fun s e => lose s (e.1.getD 1 0)) s else lose s line

/-- RC_ACCESS (R215, R217, R221, R222, R224): an access of master `src`, acting for `fn`, to a line. -/
def execRcAccess (n : Fin 8) (line : BitVec 32) (write : Bool) (data : BitVec 512) (src : BitVec 12) (fn : BitVec 4)
    (ecc : Fin 4) (s : State) : Ans :=
  let l := line.toNat
  let g := l * 64
  let m : Mst := { src := src.toNat, fn := fn.toNat }
  if s.cacheable n g = false then
    if write then .next (s.gWrite m g data.toNat false 0).2
    else
      let (d, _, s) := s.gRead m g (0, 0)
      .next { s with answer := d }
  else
    let hit := (s.rcLine n l).st ≠ 0
    let s := if hit ∧ ecc.val ≠ 0 then
        (s.bump .RC_ECC_CNT_COUNT [n]).raise .RC_CTL [n] 222 (if ecc.val = 1 then 0 else 3) [l] else s
    let s := if hit ∧ ecc.val = 2 then s.rcArrayError n l false else if ecc.val = 3 then s.rcArrayError n l true else s
    let x := s.rcLine n l
    let st := (s.lineHome l).1
    if s.winAttr g = 2 ∨ (x.st ≠ 0 ∧ (write = false ∨ 2 ≤ x.st)) ∨ s.stackOk st = false then
      if write then
        let (c, s) := s.rcWrite n l data.toNat false
        .next (if c = 2 then s.refuse19 m g 2 else s)
      else
        let (d, c, s) := s.rcRead n l
        .next { (if c = 2 then s.refuse19 m g 2 else s) with answer := d }
    else
      let out := s.rcMiss.filter (fun e => e.1.headD 9 == n.val && (s.lineHome (e.1.getD 1 0)).1 == st)
      let clean := (s.haQ st).filter (fun r => r.die == n.val && r.opc == 0x1B)
      if 64 ≤ out.length + clean.length ∨ (s.miss n l).opc ≠ 0 then .next s
      else
        let opc := if write then (if x.st = 1 then 0x1A else 0x19) else 0x18
        let s := s.bump .RC_MISS_CNT_COUNT [n]
        let s := s.setMiss n l { write := write, data := data.toNat, opc := opc }
        .next (s.setHaQ st (s.haQ st ++ [{ opc := opc, line := l, die := n }]))

/-! ## Home agents (R218 to R220) -/

/-- The transaction of a line ends: the requester is answered (R219). -/
def State.txEnd (s : State) (st line : Nat) : State :=
  let t := s.tx st line
  let n := t.req.die
  let s := s.setTx st line noTx
  let m := s.miss n line
  match t.req.opc with
  | 0x18 =>
    let key := s.lineKey st (s.lineHome line).2
    let s := (s.sfAdd line n false).setMiss n line {}
    let s := s.rcFill n line { st := 1, data := s.lineData key, poison := s.poison.contains key }
    s.answerWith (s.lineData key) (s.poison.contains key)
  | 0x1A =>
    if (s.sfEnt st line).mask.testBit n then (s.sfAdd line n true).setMiss n line { m with grant := 3 }
    else (s.sfAdd line n true).setMiss n line { m with grant := 2 }
  | _ => (s.sfAdd line n true).setMiss n line { m with grant := 2 }

/-- End the transaction if every snoop has been answered. -/
def State.txTry (s : State) (st line : Nat) : State :=
  let t := s.tx st line
  if t.req.opc ≠ 0 ∧ t.wait = 0 ∧ t.acks = 0 then s.txEnd st line else s

/-- A request reaches the front of its line at the home agent (R219, R220, R224). -/
def State.haTake (s : State) (st opc n line : Nat) : State :=
  let q := s.haQ st
  match q.find? (fun r => r.line = line) with
  | some r =>
    let granted := (List.range 8).any (fun d => (s.miss d line).grant ≠ 0)
    if r.opc = opc ∧ r.die = n ∧ (s.tx st line).req.opc = 0 ∧ !granted ∧ s.on .HA_STAT_RECALL [st] = false ∧ s.stackOk st then
      let s := s.setHaQ st (q.erase r)
      let x := s.sfEnt st line
      let others := (maskDies x.mask).filter (· ≠ n)
      let wait := if opc = 0x18 then (if x.owned then others else []) else others
      let s := s.setTx st line { req := r, wait := (wait.map (fun d => 2 ^ d)).sum, inval := opc != 0x18 }
      s.txTry st line
    else s
  | none => s

/-- CRDS (R219, R220). -/
def execCrds (n : Fin 8) (line : BitVec 32) (s : State) : Ans :=
  .next (s.haTake (s.lineHome line.toNat).1 0x18 n line.toNat)

/-- CRDX (R219, R220). -/
def execCrdx (n : Fin 8) (line : BitVec 32) (s : State) : Ans :=
  .next (s.haTake (s.lineHome line.toNat).1 0x19 n line.toNat)

/-- CUPG (R219, R220). -/
def execCupg (n : Fin 8) (line : BitVec 32) (s : State) : Ans :=
  .next (s.haTake (s.lineHome line.toNat).1 0x1A n line.toNat)

/-- CEVC (R219, R220): the home learns that a clean line was dropped, in the line's arrival order. -/
def execCevc (n : Fin 8) (line : BitVec 32) (s : State) : Ans :=
  let st := (s.lineHome line.toNat).1
  let r : HaReq := { opc := 0x1B, line := line.toNat, die := n }
  if (s.haQ st).find? (fun q => q.line = line.toNat) = some r ∧ (s.tx st line.toNat).req.opc = 0 then .next ((s.setHaQ st ((s.haQ st).erase r)).sfDrop line.toNat n) else .next s

/-- A snoop reaches cache `n` (R219, R220): data go back at once, an answer without data as CACK. -/
def State.haSnoop (s : State) (n line : Nat) (inval : Bool) : State :=
  let st := (s.lineHome line).1
  let t := s.tx st line
  if t.req.opc ≠ 0 ∧ t.inval = inval ∧ t.wait.testBit n then
    let dirty := (s.rcLine n line).st = 3 || (s.wbs n).any (fun b => b.line = line && !b.taken)
    let s := s.snoopOne line inval n
    let s := if inval then s.sfDrop line n
      else s.setSf st line { s.sfEnt st line with owned := false }
    let s := s.setTx st line { t with wait := t.wait - 2 ^ n, acks := if dirty then t.acks else t.acks + 2 ^ n }
    s.txTry st line
  else s

/-- HSNI (R219). -/
def execHsni (n : Fin 8) (line : BitVec 32) (s : State) : Ans := .next (s.haSnoop n line.toNat true)

/-- HSNS (R219). -/
def execHsns (n : Fin 8) (line : BitVec 32) (s : State) : Ans := .next (s.haSnoop n line.toNat false)

/-- A cache takes E and does the write that waits for it. -/
def State.takeE (s : State) (n line : Nat) (data : Nat) (bad : Bool) : State :=
  let m := s.miss n line
  let s := s.setMiss n line {}
  let x : RcLine := if m.write then { st := 3, data := m.data } else { st := 2, data := data, poison := bad }
  let s := s.rcFill n line x
  if (s.rcLine n line).st = 0 ∧ m.write then (s.homeStore line m.data false).sfDrop line n else s

/-- CACK (R219): at the home a snoop is done; at the cache an upgrade is granted. -/
def execCack (n : Fin 8) (line : BitVec 32) (atHome : Bool) (s : State) : Ans :=
  let l := line.toNat
  let st := (s.lineHome l).1
  if atHome then
    let t := s.tx st l
    if t.acks.testBit n then .next ((s.setTx st l { t with acks := t.acks - 2 ^ n.val }).txTry st l) else .next s
  else if (s.miss n l).grant = 3 then
    let x := s.rcLine n l
    .next (s.takeE n l x.data x.poison)
  else .next s

/-- DATAX (R219). -/
def execDatax (n : Fin 8) (line : BitVec 32) (s : State) : Ans :=
  let l := line.toNat
  if (s.miss n l).grant = 2 then
    let (st, a) := s.lineHome l
    let key := s.lineKey st a
    .next (s.takeE n l (s.lineData key) (s.poison.contains key))
  else .next s

/-- DIRTY_EVICTION (R219, R220): the WR64 of the oldest evicted line reaches its home and is acknowledged. -/
def execDirtyEviction (n : Fin 8) (s : State) : Ans := .next (s.wbDrain n)

/-! ## Commands of a remote cache (R226, R230) -/

/-- Write back one line if it is dirty, and invalidate it or keep it clean. -/
def State.rcClean (s : State) (n line : Nat) (inval : Bool) : State :=
  let x := s.rcLine n line
  let st := (s.lineHome line).1
  if x.st = 0 ∨ (x.st = 3 ∧ s.stackOk st = false) then s
  else
    let s := if x.st = 3 then (s.homeStore line x.data x.poison).bump .RC_WB_CNT_COUNT [n] else s
    if inval then (s.setRc n line {}).sfDrop line n
    else if x.st = 3 then
      (s.setRc n line { x with st := 1, retained := false }).setSf st line { s.sfEnt st line with owned := false }
    else s

/-- The lines that cache `n` holds and `p` selects. -/
def State.rcHeld (s : State) (n : Nat) (p : Nat → RcLine → Bool) : List Nat :=
  (s.rcLines.filter (fun e => e.1.headD 9 == n && p (e.1.getD 1 0) e.2)).map (fun e => e.1.getD 1 0)

/-- Write back and invalidate every line and every buffered line of a cache (R223). -/
def State.rcFlushAll (s : State) (n : Nat) : State :=
  let s := (s.rcHeld n (fun _ _ => true)).foldl (fun s l => s.rcClean n l true) s
  (List.range (s.wbs n).length).foldl (fun s _ => s.wbDrain n) s

/-- The lines of [base, base + 64 × `LEN`). -/
def State.rcRange (s : State) (n : Nat) (l : Nat) : Bool :=
  let b := s.rd .RC_CMD_BASE_LO_ADDR [n] + s.rd .RC_CMD_BASE_HI_ADDR [n] * 2 ^ 26
  decide (b ≤ l ∧ l < b + s.rd .RC_CMD_LEN_LEN [n])

/-- A command of `RC_CMD`; a range command with `LEN` 0 completes at once. -/
def State.rcCmd (s : State) (w : Writer) (n cmd : Nat) (k : State → State) : State :=
  s.reach w .RC_CMD [n] cmd fun s =>
    if s.on .RC_CMD_BUSY [n] then s.dropF w .RC_CMD_CMD [n] cmd
    else if cmd < 4 ∧ s.rd .RC_CMD_LEN_LEN [n] = 0 then s
    else
      let s := (k s).wr .RC_CMD_BUSY [n] 1
      (s.countRetained n).wr .RC_STAT_STATE [n] 2

/-- RC_FLUSH_RANGE (R226). -/
def execRcFlushRange (w : Writer) (n : Fin 8) (s : State) : Ans :=
  .next (s.rcCmd w n 1 fun s => (s.rcHeld n (fun l _ => s.rcRange n l)).foldl (fun s l => s.rcClean n l true) s)

/-- RC_CLEAN_RANGE (R226). -/
def execRcCleanRange (w : Writer) (n : Fin 8) (s : State) : Ans :=
  .next (s.rcCmd w n 2 fun s => (s.rcHeld n (fun l _ => s.rcRange n l)).foldl (fun s l => s.rcClean n l false) s)

/-- RC_INVALIDATE_READ_MOSTLY (R221, R226). -/
def execRcInvalidateReadMostly (w : Writer) (n : Fin 8) (s : State) : Ans :=
  .next (s.rcCmd w n 3 fun s =>
    (s.rcHeld n (fun l x => s.rcRange n l && x.rm)).foldl (fun s l => s.setRc n l {}) s)

/-- RC_FLUSH_ALL (R230). -/
def execRcFlushAll (w : Writer) (n : Fin 8) (s : State) : Ans := .next (s.rcCmd w n 4 (·.rcFlushAll n))

/-- RC_CMD_DONE (R230): `STATE` is on or off again. -/
def execRcCmdDone (n : Fin 8) (s : State) : Ans :=
  if s.on .RC_CMD_BUSY [n] then
    .next ((s.wr .RC_CMD_BUSY [n] 0).wr .RC_STAT_STATE [n] (if s.on .RC_CTL_EN [n] then 1 else 0))
  else .next s

/-! ## Cache windows (R216, R225, R232) -/

/-- RCW_ENABLE (R225, R232): refused for a window that reaches beyond HBM. -/
def execRcwEnable (w : Writer) (i : Fin 16) (s : State) : Ans :=
  let b := s.rd .RCW_BASE_LO_ADDR [i.val] * 2 ^ 20 + s.rd .RCW_BASE_HI_ADDR [i.val] * 2 ^ 32
  if s.mute w then .next s
  else if 0x002400000000 < b + s.rd .RCW_SIZE_MIB [i.val] * 2 ^ 20 then .next (s.dropF w .RCW_CTL_EN [i] 1)
  else .next (s.wr .RCW_CTL_EN [i] 1)

/-- RCW_DISABLE (R225): `EN` reads 1 until the flush ends. -/
def execRcwDisable (w : Writer) (i : Fin 16) (s : State) : Ans :=
  if s.on .RCW_CTL_EN [i] ∧ s.mute w = false then .next (s.wr .RCW_CTL_BUSY [i] 1) else .next s

/-- Is a line in window `i`? -/
def State.inWindow (s : State) (i l : Nat) : Bool :=
  let b := s.rd .RCW_BASE_LO_ADDR [i] * 2 ^ 20 + s.rd .RCW_BASE_HI_ADDR [i] * 2 ^ 32
  decide (b ≤ l * 64 ∧ l * 64 < b + s.rd .RCW_SIZE_MIB [i] * 2 ^ 20)

/-- RCW_DISABLE_DONE (R225). -/
def execRcwDisableDone (i : Fin 16) (s : State) : Ans :=
  if s.on .RCW_CTL_BUSY [i] then
    let s := (List.range 8).foldl (fun s n =>
      (s.rcHeld n (fun l _ => s.inWindow i l)).foldl (fun s l => s.rcClean n l true) s) s
    .next ((s.wr .RCW_CTL_BUSY [i] 0).wr .RCW_CTL_EN [i] 0)
  else .next s

/-! ## Homes and caches that go (R214, R224) -/

/-- A home becomes unreachable (R224): clean lines go, dirty ones are retained, and what waits for the home completes with
UNREACHABLE. -/
def State.homeGone (s : State) (st : Nat) : State :=
  let homed (l : Nat) : Bool := (s.lineHome l).1 == st
  let waits := s.rcMiss.any (fun e => homed (e.1.getD 1 0) && !e.2.write)
  let s := { s with
    homeOut := insertNat st s.homeOut
    rcMiss := s.rcMiss.filter (fun e => !homed (e.1.getD 1 0))
    haIn := smPut s.haIn [st] [] []
    haTx := s.haTx.filter (fun e => e.1.headD 9 != st)
    answer := if waits then ones512 else s.answer }
  (List.range 8).foldl (fun s n =>
    let s := (s.rcHeld n (fun l _ => (s.lineHome l).1 == st)).foldl (fun s l =>
      let x := s.rcLine n l
      s.setRc n l (if x.st = 3 then { x with retained := true } else {})) s
    s.countRetained n) s

/-- HOME_UNREACHABLE (R224). -/
def execHomeUnreachable (st : Fin 4) (s : State) : Ans :=
  if s.stackOk st then .next s else .next (s.homeGone st)

/-- HOME_RECALL_DONE (R224). -/
def execHomeRecallDone (st : Fin 4) (s : State) : Ans :=
  if s.on .HA_STAT_RECALL [st] ∧ s.stackOk st then .next (s.recallHome st) else .next s

/-- The home agents give up the transactions of a die that is gone, and its answers to their snoops. -/
def State.haForget (s : State) (n : Nat) : State :=
  let s := { s with
    haIn := s.haIn.foldl (fun m (e : Key × List HaReq) => smPut m e.1 (e.2.filter (fun r => r.die ≠ n)) []) s.haIn
    haTx := s.haTx.filter (fun e => e.2.req.die ≠ n) }
  s.haTx.foldl (fun (s : State) e =>
    let st := e.1.headD 0
    let l := e.1.getD 1 0
    let t := s.tx st l
    let less (m : Nat) : Nat := if m.testBit n then m - 2 ^ n else m
    (s.setTx st l { t with wait := less t.wait, acks := less t.acks }).txTry st l) s

/-- A die is lost without a flush (R224): the lines that it owned are poisoned at their homes, its presence bits go. -/
def State.rcLost (s : State) (n : Nat) : State :=
  let held := s.sf.filter (fun e => e.2.mask.testBit n)
  let s := held.foldl (fun s e =>
    let st := e.1.headD 0
    let line := e.1.getD 1 0
    let s := if e.2.owned then (s.homeStore line 0 true).bump .HA_POISON_CNT_COUNT [st] else s
    s.sfDrop line n) s
  let s := s.haForget n
  { s with rcLines := s.rcLines.filter (fun e => e.1.headD 9 != n), rcMiss := s.rcMiss.filter (fun e => e.1.headD 9 != n),
           rcWb := smPut s.rcWb [n] [] [] }

/-- RC_LOSS_TIMEOUT (R214): a flush on clock loss not done within `LOSS_TO` × 100 µs is handled as an unplanned loss. -/
def execRcLossTimeout (n : Fin 8) (s : State) : Ans :=
  let t := smGet s.rcLossT [n.val] 0
  if t ≠ 0 then .next (({ s.lapseTo t with rcLossT := smPut s.rcLossT [n.val] 0 0 }).rcLost n) else .next s

end Sys2Proof.Machine
end

