-- ==== Sys2Proof/Machine/Power.lean ====
section
/-! DEFINITION. A fabric die leaving the data plane and coming back: power states (R386 to R390), planned resets, losses and
restarts (R214, R418 to R423), and the permit governors' own events (R391 to R396). -/

namespace Sys2Proof.Machine

/-! ## The parts of leaving service (R214) -/

def State.dieAt (s : State) (n : Nat) : DieRt := smGet s.dieRt [n] {}
def State.setDieRt (s : State) (n : Nat) (x : DieRt) : State := { s with dieRt := smPut s.dieRt [n] x {} }

/-- The state of die `n`: a change sets its helm source and raises its event (R24, R465, R495). -/
def State.setDie (s : State) (n v : Nat) : State :=
  let old := s.rd .HUB_DIE_STATE_STATE [n]
  if old = v then s
  else (((s.wr .HUB_DIE_STATE_STATE [n] v).irq (48 + n)).raise .HUB_DIE_STATE [n] 24 0 [old, v])

/-- The stack of a corner die. -/
def dieStack (n : Nat) : Option Nat := if n % 2 = 0 then some (n / 2) else none

/-- The valid bearings that lead to endpoints of die `n`. -/
def State.bearingsTo (s : State) (n : Nat) : List (List Nat) :=
  (s.bearings.filter (fun e => bValid e.2 && bDest e.2 / 256 == n)).map (·.1)

/-- Put the `VALID` bit of bearings. -/
def State.bearingsPut (s : State) (v : Bool) (ks : List (List Nat)) : State :=
  ks.foldl (fun s k =>
    let b := smGet s.bearings k [0, 0, 0, 0]
    let w := bWord b 0 % 2 ^ 31 + (if v then 2 ^ 31 else 0)
    { s with bearings := smPut s.bearings k (w :: b.tail) [0, 0, 0, 0] }) s

/-- The neighbours' crossing inputs from die `n` take their isolation values (R212). -/
def State.isolate (s : State) (n : Nat) : State :=
  let hit (i : List Nat) : Bool := i.take 2 == [(n + 1) % 8, 0] || i.take 2 == [(n + 7) % 8, 1]
  (s.crossIn.filter (fun e => hit e.1)).foldl (fun s e =>
    { s with crossIn := smPut s.crossIn e.1 { e.2 with live := false, pipe := [] } {} }) s

/-- The other caches write back and release the lines homed on stack `st` (R223). -/
def State.homeFlush (s : State) (st : Nat) : State :=
  (List.range 8).foldl (fun s m =>
    (s.rcHeld m (fun l _ => (s.lineHome l).1 == st)).foldl (fun s l => s.rcClean m l true) s) s

/-- Every engine of die `n` in `STATE` 1 to 5 receives STOP. -/
def State.stopEngines (s : State) (n : Nat) : State :=
  (List.range 12).foldl (fun s k =>
    let e := 12 * n + k
    if 1 ≤ s.estate e ∧ s.estate e ≤ 5 then s.engStop e else s) s

/-- Every sector of die `n` that holds or runs something enters sector reset. -/
def State.resetSectors (s : State) (n : Nat) : State :=
  (List.range 40).foldl (fun s k =>
    if s.rd .SEC_STATUS_STATE [n, k] ∈ [2, 3, 4] then s.sectorReset n k else s) s

/-- Flushes of R223, in its order; then the stack enters self-refresh for cause `c` (R250). -/
def State.flushOut (s : State) (n c : Nat) : State :=
  let s := s.rcFlushAll n
  match dieStack n with
  | some st => (((s.homeFlush st).sweepSleep st).srCause st c).srEntered st
  | none => s

/-- Descriptors that wait on an engine of die `n` end with UNREACHABLE, and so does a load that names it (R412, R419). -/
def State.jobsLeave (s : State) (n : Nat) : State :=
  let s := s.qps.foldl (fun s e =>
    let q := e.1.headD 0
    (List.range e.2.jobs.length).foldl (fun s i =>
      match (s.qp q).jobs[i]? with
      | some j =>
        if j.st = 1 ∧ (dOPC j.d = 0x11 ∨ dOPC j.d = 0x12) then s.jobWaits q i
        else if j.st = 1 ∧ dOPC j.d = 0x13 ∧ engDie (dWord j.d 6) = n then s.jobDone q i 2 (dWord j.d 6) 0
        else s
      | none => s) s) s
  s.cfgDieLeft n

/-- The loads whose images the sectors of die `n` hold. -/
def State.imgsOn (s : State) (n : Nat) : List Nat :=
  ((List.range 40).filter fun k => s.rd .SEC_STATUS_STATE [n, k] ∈ [2, 3, 4]).map (fun k => (s.sector n k).img)

/-- A design that spans the die goes on elsewhere: an event for each affected die (R29). -/
def State.spanEvents (s : State) (n : Nat) : State :=
  let mine := s.imgsOn n
  let hit (m : Nat) : Bool := (s.imgsOn m).any fun x => x ≠ 0 && mine.contains x
  (List.range 8).foldl (fun t m => if m ≠ n ∧ s.up m ∧ hit m then t.raise .HUB_DIE_STATE [m] 29 3 [n] else t) s

/-- A link goes down. -/
def State.linkDown (s : State) (l : Nat) : State :=
  let s := (s.linkReturn l).setLink l {}
  (linkEnds l).foldl (fun s e =>
    let s := ((s.setDir e.1 e.2 {}).wr .GK_STAT_STATE [e.1, e.2] 0).wr .GK_STAT_NOC_DETOUR [e.1, e.2] 0
    let s := (s.setPool e.1 e.2 0 {}).setPool e.1 e.2 1 {}
    ((List.range (groupCount e.2 e.1)).foldl (fun s g => s.wr .GK_GRP_STAT_ROLE [e.1, e.2, g] 0) s).gkCount e.1 e.2) s

/-- The three links of die `n`. -/
def dieLinks (n : Nat) : List Nat := [(n + 7) % 8, n, 8 + n]

/-- Entries of a table that do not belong to die `n`, by the first index. -/
def offDie {α : Type} (m : SMap α) (n : Nat) : SMap α := smKeep m (fun i => i.headD 100 ≠ n)

/-- `F_INFRA`, `F_MEM`, `F_FAB` and `F_IO` of die `n` are reset (R418, R420): everything goes but the always-on domain with
the sealing retention store, and the stack's contents. Its permits return, its queued requests are withdrawn (R394). -/
def State.dieWipe (s : State) (n : Nat) : State :=
  let s := (dieLinks n).foldl (fun s l => s.linkDown l) s
  let s := ((s.haForget n).clearRegs (dieClears n)).fabEmpty n
  let mineEng (i : List Nat) : Bool := engDie (i.headD 9999) != n
  let s := { s with
    sec := offDie s.sec n, tree := offDie s.tree n, eng := smKeep s.eng mineEng
    win := s.win.filter (fun c => c.1 / 2 ^ 20 / 12 ≠ n)
    rcLines := offDie s.rcLines n, rcMiss := offDie s.rcMiss n, rcWb := offDie s.rcWb n, rcLossT := offDie s.rcLossT n
    rtq := offDie s.rtq n, rtPend := offDie s.rtPend n, ni := offDie s.ni n, bearings := offDie s.bearings n, drainT := offDie s.drainT n
    arbs := smKeep s.arbs (fun i => !(i.take 2 == [0, n]) && !(n % 2 == 0 && i == [1, n / 2]))
    gkDir := offDie s.gkDir n, gkPool := offDie s.gkPool n, crossIn := offDie s.crossIn n
    lane := smKeep s.lane (fun i => laneDie (i.headD 9999) ≠ n), trunk := smKeep s.trunk (fun i => trunkDie (i.headD 9999) ≠ n)
    bundle := smKeep s.bundle (fun i => bundleDie (i.headD 9999) ≠ n)
    cfg := offDie s.cfg n, scrub := offDie s.scrub n, synth := offDie s.synth n, fvs := offDie s.fvs n
    govs := smKeep s.govs (fun i => i ≠ [n] ∧ (n % 2 = 1 ∨ i ≠ [9 + n / 2])) }
  match dieStack n with
  | none => s
  | some st =>
    let s := { s with
      sf := offDie s.sf st, haIn := offDie s.haIn st, haTx := offDie s.haTx st
      hbmPort := offDie s.hbmPort st, hbmPc := offDie s.hbmPc st }
    let s := s.setStk st { causes := (s.stk st).causes, suspect := (s.stk st).suspect }
    if s.on .HBM_STAT_CONTENT [st] then s.wr .HBM_STAT_STATE [st] 3 else s

/-! ## Planned reset, loss and restart (R418 to R423) -/

/-- A release of some die is under way. -/
def State.releasing (s : State) : Bool :=
  !s.relq.isEmpty || (List.range 8).any (fun n => 2 ≤ (s.dieAt n).rel)

/-- Die `n` has been reset; it is released, or held (R418, R407). -/
def State.dieRelease (s : State) (n : Nat) : State :=
  if s.on .RST_DIE_CTL_HOLD [n] then s.wr .RST_DIE_STAT_HELD [n] 1
  else ({ s.setDieRt n { s.dieAt n with rel := 1 } with relq := s.relq ++ [n] } : State)

/-- The planned reset of die `n` is accepted and runs (R418, R214). -/
def State.plannedReset (s : State) (n : Nat) : State :=
  let s := s.setDie n 4
  let s := ((s.wr .RST_DIE_STAT_CAUSE [n] 2).incr .RST_DIE_STAT_RESETS [n]).spanEvents n
  let s := (((s.stopEngines n).resetSectors n).isolate n).jobsLeave n
  let s := s.bearingsPut false (s.bearingsTo n)
  let s := s.flushOut n 1
  ((s.lapse 4000000).dieWipe n).dieRelease n

/-- PLANNED_DIE_RESET (R418, R419): refused unless the die is in service in P0; waits for a release under way. -/
def execPlannedDieReset (w : Writer) (n : Fin 8) (s : State) : Ans :=
  let word := s.wordWith .RST_DIE_CTL [n] [(.RST_DIE_CTL_CMD, 1)]
  .next (s.reach w .RST_DIE_CTL [n] word fun s =>
    if s.dpUp n = false ∨ s.on .PWR_DIE_STAT_BUSY [n] then (s.wr .RST_DIE_STAT_REFUSED [n] 1).drop w .RST_DIE_CTL [n] word
    else if s.releasing then { s with rstq := s.rstq ++ [n.val] }
    else s.plannedReset n)

/-- A release has ended: a reset that waited for it runs (R419). -/
def State.nextReset (s : State) : State :=
  if s.releasing then s
  else match s.rstq with
    | [] => s
    | n :: r =>
      let s := { s with rstq := r }
      if s.dpUp n then s.plannedReset n else s.wr .RST_DIE_STAT_REFUSED [n] 1

/-- A held die is released; a lost one is reset and then released (R423). A core rail out of range leaves it laid up
(R526). -/
def State.dieRestart (s : State) (n : Nat) (rail : Bool) : State :=
  let held := s.on .RST_DIE_STAT_HELD [n]
  let s := if held then s.wr .RST_DIE_STAT_HELD [n] 0
    else (s.incr .RST_DIE_STAT_RESETS [n]).setDieRt n { s.dieAt n with restartT := some s.now }
  let s := s.dieWipe n
  if rail then ({ s.setDieRt n { s.dieAt n with rel := 1 } with relq := s.relq ++ [n] } : State)
  else ((s.setDie n 1).wr .PWR_DIE_STAT_PSTATE [n] 3).raise .HUB_DIE_STATE [n] 526 0 [n]

/-- The die is too hot to be started (R527). -/
def State.tooHot (s : State) (n : Nat) : Bool :=
  s.rd .RST_DIE_STAT_CAUSE [n] == 6 && decide (100 < (smGet s.tele [n] {}).last)

/-- DIE_START (R423, R428): a held or lost die; any other state refuses the command. -/
def execDieStart (w : Writer) (n : Fin 8) (rail : Bool) (s : State) : Ans :=
  let word := s.wordWith .RST_DIE_CTL [n] [(.RST_DIE_CTL_CMD, 2)]
  .next (s.reach w .RST_DIE_CTL [n] word fun s =>
    let st := s.rd .HUB_DIE_STATE_STATE [n]
    if (st = 5 ∨ s.on .RST_DIE_STAT_HELD [n]) ∧ (s.dieAt n).rel = 0 ∧ s.tooHot n = false then s.dieRestart n rail
    else (s.wr .RST_DIE_STAT_REFUSED [n] 1).drop w .RST_DIE_CTL [n] word)

/-- The die has left service without a plan (R421): held in die reset, the unplanned column of R214. `keep`: the stack
keeps its contents in self-refresh. -/
def State.dieLost (s : State) (n cause : Nat) (keep : Bool) : State :=
  let s := (s.setDie n 5).wr .HUB_DIE_STATE_LOST [n] 1
  let s := ((s.wr .RST_DIE_STAT_CAUSE [n] cause).raise .HUB_DIE_STATE [n] 421 3 [n, cause]).spanEvents n
  let s := ((s.isolate n).jobsLeave n).bearingsPut false (s.bearingsTo n)
  let s := s.rcLost n
  let s := match dieStack n with
    | none => s
    | some st =>
      let s := (s.sweepSleep st).homeGone st
      if keep then (s.srCause st 3).srEntered st else s.stackLost st
  let s := s.dieWipe n
  let x := s.dieAt n
  let again := match x.restartT with
    | some t => decide (s.now < t + 10000000000)
    | none => false
  let s := s.setDieRt n { x with rel := 0, pwr := 0, resume := false, withdrawn := [], lostT := s.now }
  let s := (({ s with relq := s.relq.filter (· ≠ n) } : State).wr .PWR_DIE_STAT_BUSY [n] 0).capacityLost n
  if again then
    let s := s.wr .RST_DIE_CTL_HOLD [n] 1
    s.healthUpdate n { s.hlth n with dead := true }
  else s

/-- DIE_LOST (R421): in `STATE` 2 or 3. A core rail that fails loses the stack's contents (R251). -/
def execDieLost (n : Fin 8) (cause : Fin 4) (powered : Bool) (s : State) : Ans :=
  let st := s.rd .HUB_DIE_STATE_STATE [n.val]
  if st = 2 ∨ st = 3 then .next ((s.dieLost n (4 + cause) (powered && cause.val != 1)).nextReset) else .next s

/-- DIE_CLOCK_LOST (R422, R214): the clock-loss column. -/
def execDieClockLost (n : Fin 8) (flushed : Bool) (s : State) : Ans :=
  if s.up n then
    let s := ((s.setDie n 4).wr .RST_DIE_STAT_CAUSE [n] 3).wr .HUB_DIE_STATE_LOST [n] 1
    let s := ((s.raise .HUB_DIE_STATE [n] 422 3 [n.val]).spanEvents n)
    let s := (((s.stopEngines n).resetSectors n).isolate n).jobsLeave n
    let s := s.bearingsPut false (s.bearingsTo n)
    let s := if flushed then s.rcFlushAll n
      else if s.rd .RC_CTL_LOSS_TO [n.val] = 0 then s.rcLost n
      else { s with rcLossT := smPut s.rcLossT [n.val] (s.now + s.rd .RC_CTL_LOSS_TO [n.val] * 100000) 0 }
    match dieStack n with
    | some st => .next ((((s.sweepSleep st).srCause st 2).srEntered st).homeGone st)
    | none => .next s
  else .next s

/-- DIE_CLOCK_RESTORED (R422): the reference has been present for 100 ms; the die is reset and released, or held. A cache
that was neither flushed nor given up in time is given up now. -/
def execDieClockRestored (n : Fin 8) (s : State) : Ans :=
  if s.rd .HUB_DIE_STATE_STATE [n] = 4 ∧ s.rd .RST_DIE_STAT_CAUSE [n] = 3 ∧ (s.dieAt n).rel = 0 ∧
      s.on .RST_DIE_STAT_HELD [n] = false then
    let s := if smGet s.rcLossT [n.val] 0 ≠ 0 then s.rcLost n else s
    .next ((((s.incr .RST_DIE_STAT_RESETS [n]).dieWipe n).dieRelease n))
  else .next s

/-- DIE_AUTO_RESTART (R423): 1 s after the loss, unless held or too hot. -/
def execDieAutoRestart (n : Fin 8) (rail : Bool) (s : State) : Ans :=
  if s.rd .HUB_DIE_STATE_STATE [n] = 5 ∧ s.on .HUB_DIE_STATE_LOST [n] ∧ s.on .RST_DIE_CTL_AUTO_RESTART [n] ∧
      s.on .RST_DIE_CTL_HOLD [n] = false ∧ (s.dieAt n).rel = 0 ∧ s.tooHot n = false then
    .next ((s.lapseTo ((s.dieAt n).lostT + 1000000000)).dieRestart n rail)
  else .next s

/-! ## Power states (R387 to R390) -/

/-- Grounds for refusing the entry into a power state (R388). -/
def State.sleepBad (s : State) (n : Nat) : Bool :=
  !s.up n || s.rd .PWR_DIE_STAT_PSTATE [n] != 0 || s.on .PWR_DIE_STAT_BUSY [n] ||
    (List.range 12).any (fun k => decide (1 ≤ s.estate (12 * n + k) ∧ s.estate (12 * n + k) ≤ 5)) ||
    (match dieStack n with
      | some st => (s.seal st).run.isSome || !(s.seal st).repairs.isEmpty
      | none => false)

/-- A refused power command. -/
def State.pwrRefuse (s : State) (w : Writer) (n cmd : Nat) : State :=
  (s.wr .PWR_DIE_STAT_REFUSED [n] 1).drop w .PWR_DIE_CTL [n] cmd

/-- Lanes of die `n`. -/
def dieBundles (n : Nat) : List Nat := (List.range 28).filter (fun b => bundleDie b = n)
def dieTrunks (n : Nat) : List Nat := (List.range 32).filter (fun t => trunkDie t = n)

/-- Lanes and PRBS stop and their permits return (R388). -/
def State.lanesStop (s : State) (n : Nat) : State :=
  let s := (dieBundles n).foldl (fun s b =>
    let s := s.giveBack n 5 [b]
    let s := if s.bndState b = 4 then s else s.wr .CL_BND_STAT_STATE [b] 0
    (bundleLanes b).foldl (fun s l => s.setLane l { s.laneRt l with genOn := false }) s) s
  (dieTrunks n).foldl (fun s t =>
    let s := s.giveBack n 6 [t]
    if s.trState t = 3 then s else s.wr .TR_STAT_STATE [t] 0) s

/-- Lanes lose their training (R420, column P2). -/
def State.lanesLose (s : State) (n : Nat) : State :=
  let s := (dieBundles n).foldl (fun s b =>
    ((s.wr .CL_BND_STAT_STATE [b] 0).wr .CL_BND_STAT_PLL_LOCK [b] 0).wr .CL_BND_STAT_GRID [b] 0) s
  (dieTrunks n).foldl (fun s t => (s.wr .TR_STAT_STATE [t] 0).wr .TR_STAT_CHK_LOCK [t] 0) s

/-- Entry into power state `p` is accepted: the die leaves the data plane (R388). -/
def State.sleepBegin (s : State) (n p : Nat) : State :=
  let ks := s.bearingsTo n
  let s := ((s.wr .PWR_DIE_STAT_BUSY [n] 1).bearingsPut false ks).isolate n
  let s := s.setDieRt n { s.dieAt n with pwr := p + 1, withdrawn := ks }
  (s.flushOut n 3).lanesStop n

/-- A command of `PWR_DIE_CTL` that enters a power state. -/
def State.sleepCmd (s : State) (w : Writer) (n p : Nat) : State :=
  s.reach w .PWR_DIE_CTL [n] p fun s => if s.sleepBad n then s.pwrRefuse w n p else s.sleepBegin n p

/-- PWR_ENTER_P1 (R388). -/
def execPwrEnterP1 (w : Writer) (n : Fin 8) (s : State) : Ans := .next (s.sleepCmd w n 1)

/-- PWR_ENTER_P2 (R388). -/
def execPwrEnterP2 (w : Writer) (n : Fin 8) (s : State) : Ans := .next (s.sleepCmd w n 2)

/-- PWR_ENTER_P3 (R388). -/
def execPwrEnterP3 (w : Writer) (n : Fin 8) (s : State) : Ans := .next (s.sleepCmd w n 3)

/-- The kind of the die at spoke `n` by the table of R9: 1 corner, 2 edge. -/
def dieKind (n : Nat) : Nat := if n % 2 = 0 then 1 else 2

/-- The fuses of a die as they are read: its position and kind (R10). A kind that contradicts the table fails them. -/
def State.fusesRead (s : State) (n : Nat) (fuse : Fin 8 × BitVec 2) : State :=
  ((s.wr .HUB_DIE_STATE_PRESENT [n] 1).wr .HUB_DIE_STATE_POS [n] fuse.1).wr .HUB_DIE_STATE_KIND [n] fuse.2.toNat
def fusesGood (n : Nat) (fuse : Fin 8 × BitVec 2) : Bool := fuse.2.toNat == dieKind n

/-- A die starts as at power-on (R390, R409): its fuses are read first, unless they have been read already. -/
def State.coldStart (s : State) (n : Nat) (fuse : Fin 8 × BitVec 2) : State :=
  if s.on .HUB_DIE_STATE_PRESENT [n] ∨ fusesGood n fuse then
    let s := if s.on .HUB_DIE_STATE_PRESENT [n] then s else s.fusesRead n fuse
    let s := (s.wr .RST_DIE_STAT_START_ERR [n] 0).wr .PWR_DIE_STAT_DOMAINS [n] 1
    ({ (s.setDieRt n { rel := 1 }).wr .PWR_DIE_STAT_BUSY [n] 1 with relq := s.relq ++ [n] } : State)
  else ((s.setDie n 0).wr .HUB_DIE_STATE_PRESENT [n] 0).wr .RST_DIE_STAT_START_ERR [n] 4

/-- The resume permit has timed out: the die stays in its state (R390). -/
def State.resumeTimeouts (s : State) (n : Nat) : State :=
  if (s.dieAt n).resume ∧ (s.gov n).expired.any (·.is 16 [n]) then
    (((s.giveBack n 16 [n]).setDieRt n { s.dieAt n with resume := false }).wr .PWR_DIE_STAT_REFUSED [n] 1).raise
      .PWR_DIE_CTL [n] 390 2 [n]
  else s

/-- PWR_RETURN_P0 (R390, R409, R526). -/
def execPwrReturnP0 (w : Writer) (n : Fin 8) (rail : Bool) (fuse : Fin 8 × BitVec 2) (s : State) : Ans :=
  .next (s.reach w .PWR_DIE_CTL [n] 4 fun s =>
    let x := s.dieAt n
    let p := s.rd .PWR_DIE_STAT_PSTATE [n]
    if s.on .PWR_DIE_STAT_BUSY [n] ∨ x.rel ≠ 0 ∨ x.resume then s.pwrRefuse w n 4
    else if s.up n ∧ (p = 1 ∨ p = 2) then
      ((s.setDieRt n { x with resume := true }).request n 16 10 [n] []).resumeTimeouts n
    else if s.rd .HUB_DIE_STATE_STATE [n] = 1 then
      if rail then s.coldStart n fuse
      else (s.wr .PWR_DIE_STAT_REFUSED [n] 1).raise .PWR_DIE_CTL [n] 409 0 [n]
    else s.pwrRefuse w n 4)

/-- The resume permit is granted: the return to P0 runs (R390). -/
def State.resumeGo (s : State) (n : Nat) : State :=
  (s.setDieRt n { s.dieAt n with resume := false, pwr := 1 }).wr .PWR_DIE_STAT_BUSY [n] 1

/-- Sectors of die `n` stand with their clocks stopped, or go on (R387, R390). -/
def State.sectorsGate (s : State) (n : Nat) (g : Bool) : State :=
  (List.range 40).foldl (fun s k =>
    if s.rd .SEC_STATUS_STATE [n, k] = 3 then s.setSector n k { s.sector n k with gated := g } else s) s

/-- The die is back in P0 from `p` (R390). -/
def State.backToP0 (s : State) (n p : Nat) : State :=
  let s := s.bearingsPut true (s.dieAt n).withdrawn
  let s := s.setDieRt n { s.dieAt n with pwr := 0, withdrawn := [] }
  let s := match dieStack n with
    | some st => s.askTraining st
    | none => s
  let s := if p = 1 then s.sectorsGate n false
    else [(n + 7) % 8, n, 8 + n].foldl (fun s l =>
      if l < 8 ∧ !(s.dpUp l && s.dpUp ((l + 1) % 8)) then s else s.askLink l) s
  let s := (dieBundles n).foldl (fun s b =>
    if s.on .CL_BND_CTL_EN [b] = false then s
    else if s.bndState b = 4 then
      (bundleLanes b).foldl (fun s l => if s.on .CL_CTL_EN [l] ∧ s.rd .CL_CTL_USE [l] = 2 then s.genStart l else s) s
    else (s.wr .CL_BND_STAT_STATE [b] 1).request n 5 2 [b] []) s
  (dieTrunks n).foldl (fun s t =>
    if s.on .TR_CTL_EN [t] ∧ s.trState t = 0 then s.askAdapt t else s) s

/-- PWR_TRANSITION_DONE (R387, R388, R390). -/
def execPwrTransitionDone (n : Fin 8) (s : State) : Ans :=
  let x := s.dieAt n
  let s' := s.setDieRt n { x with pwr := 0 }
  let done (s : State) (p dom : Nat) : State :=
    ((s.wr .PWR_DIE_STAT_PSTATE [n] p).wr .PWR_DIE_STAT_DOMAINS [n] dom).wr .PWR_DIE_STAT_BUSY [n] 0
  match x.pwr with
  | 0 => .next s
  | 1 => .next ((done s' 0 31).backToP0 n (s.rd .PWR_DIE_STAT_PSTATE [n]))
  | 2 => .next (done (s'.sectorsGate n true) 1 31)
  | 3 =>
    let s := (s'.resetSectors n).lanesLose n
    .next (done ((dieLinks n).foldl (fun s l => s.linkDown l) s) 2 1)
  | _ =>
    let s := match dieStack n with
      | some st => s'.stackLost st
      | none => s'
    let s := ((s.dieWipe n).setDieRt n {}).setSteward n {}
    .next ((done s 3 0).setDie n 1)

/-! ## Governors (R391 to R396) -/

/-- A conversion's permit has timed out: what the other die granted goes back; the group stays out of its pool and the
crossing signals on the retiring group, until GROUP_CONVERSION asks again (R209, R393, R394; log entry 139). -/
def State.convTimeouts (s : State) (n : Nat) : State :=
  ((s.gov n).expired.filter (fun p => p.op = 9)).foldl (fun s p =>
    (linkDies (endLink (p.who.getD 0 0) (p.who.getD 1 0))).foldl (fun s d => s.giveBack d 9 p.who) s) s

/-- What the requesters that have no command of their own for it do at a timeout. -/
def State.fallout (s : State) : State :=
  let s := (List.range 8).foldl (fun s n => ((s.riseTimeouts n).resumeTimeouts n).convTimeouts n) s.cfgTimeouts.helmTimeouts
  let s := (List.range 4).foldl (fun s st => s.srExitTimeout st) s
  (List.range 2).foldl (fun s p => s.setGov 8 { s.gov 8 with expired := (s.gov 8).expired.filter (fun x => !x.is 17 [p]) }) s

/-- PERMIT_REQUEST (R395, code 17): port `p` asks for its training permit, from boot stage 4 on. -/
def execPermitRequest (p : Fin 2) (s : State) : Ans :=
  if 4 ≤ s.rd .BOOT_STAT_STAGE [] ∧ smGet s.pcie [p.val] 0 = 0 ∧ s.waits 8 17 [p.val] = false then
    .next ((s.request 8 17 4 [p] []).fallout)
  else .next s

/-- PERMIT_GRANT (R391, R392): the head request of a governor is granted, if it fits. -/
def execPermitGrant (g : Fin 13) (s : State) : Ans :=
  let s := s.grantHead g
  let s := (List.range 2).foldl (fun s p =>
    if g.val = 8 then
      match s.takeGrant 8 17 [p] with
      | some s => { s with pcie := smPut s.pcie [p] 1 0 }
      | none => s
    else s) s
  if g.val < 8 ∧ (s.gov g).ready.any (·.is 16 [g.val]) then
    match s.takeGrant g 16 [g.val] with
    | some s => .next (s.resumeGo g)
    | none => .next s
  else .next s

/-- The operation of a held permit is over (R395, "Returned"). -/
def State.opOver (s : State) (p : Permit) : Bool :=
  let w := p.who.headD 0
  match p.op with
  | 1 | 2 => [0, 6, 7, 8].contains (s.estate w)
  | 5 => !s.on .CL_BND_CTL_EN [w]
  | 6 => !s.on .TR_CTL_EN [w]
  | 7 | 8 => (s.link w).train == 0
  | 11 => (s.stk w).train == 0
  | 12 => (s.stk w).train == 0 && [0, 3, 4].contains (s.hstate w)
  | 17 => smGet s.pcie [w] 0 != 1
  | 19 => s.cfgLoad.phase == 0
  | _ => false

/-- PERMIT_RETURN (R394): units of operation `op` whose operation is over return; the commands that end an operation
return its units themselves. -/
def execPermitReturn (g : Fin 13) (op : Fin 32) (s : State) : Ans :=
  let x := s.gov g
  .next (s.setGov g { x with held := x.held.filter (fun p => !(p.op == op.val && s.opOver p)) })

/-- STEP_PERMIT_RETURN (R394): 20 µs after its grant. -/
def execStepPermitReturn (g : Fin 13) (s : State) : Ans :=
  match (s.gov g).held.find? (fun p => isStepOp p.op) with
  | none => .next s
  | some p =>
    let s := s.lapseTo (p.t + 20000)
    .next (s.setGov g { s.gov g with held := (s.gov g).held.erase p })

/-- PERMIT_TIMEOUT (R393): the request that times out first is withdrawn. -/
def execPermitTimeout (g : Fin 13) (s : State) : Ans :=
  let due := (s.gov g).queue.filter (fun p => p.due ≠ 0)
  match due with
  | [] => .next s
  | a :: r =>
    let p := r.foldl (fun b c => if c.due < b.due then c else b) a
    let s := s.lapseTo p.due
    let s := s.setGov g { s.gov g with queue := (s.gov g).queue.erase p }
    .next ((s.expire g p false).fallout)

end Sys2Proof.Machine
end

