-- ==== Sys2Proof/Machine/Boot.lean ====
section
/-! DEFINITION. Boot stages, die releases, package and hub resets, rails, telemetry and service life (R401 to R417, R504 to
R507, R525 to R527). -/

namespace Sys2Proof.Machine

/-! ## Resets of the package (R415, R420) -/

/-- Fields that stand for blown fuses: no reset returns them (R420, first row). -/
def Fld.fused (f : Fld) : Bool :=
  [Fld.LS_STAT_LIFECYCLE, Fld.LS_STAT_OWNER_KEYS, Fld.LS_STAT_KEK, Fld.LS_STAT_VKEYS, Fld.LS_ARB_VALUE, Fld.LS_ARB_SPENT].contains f

/-- What the repair record and the stewards' totals hold through every reset (R503, R507). -/
def keptHealth (m : SMap Health) : SMap Health :=
  m.foldl (fun a e => smPut a e.1 { e.2 with capLost := false, dead := false } {}) []
def keptLife (m : SMap LifeRt) : SMap LifeRt :=
  m.foldl (fun a e => smPut a e.1 { e.2 with hot := 0, hotter := 0 } {}) []

/-- Compute the stages again from what the repair record says (R503). -/
def State.healthAgain (s : State) : State := (List.range 9).foldl (fun s n => s.healthUpdate n (s.hlth n)) s

/-- What no reset of the device touches: the model's clock and trace, the waiting commands, the flash with its journal, the
fuses, the repair record and the totals kept there, the rails of the I/O banks. -/
def State.bare (s : State) (keep : Fld → List Nat → Bool) : State :=
  { pending := s.pending, now := s.now, answer := s.answer, out := s.out, draws := s.draws
    regs := (s.clearRegs (fun f i => !f.fused && !keep f i)).regs
    journal := s.journal, health := keptHealth s.health, repairs := s.repairs, flash := s.flash
    lsFuse := s.lsFuse, ioOff := s.ioOff, tele := keptLife s.tele }

/-- Power-on reset: everything (R415). The power-on hold begins. -/
def State.powerOn (s : State) : State := (s.bare (fun _ _ => false)).healthAgain

/-- POWER_ON_RESET (R415, R525). -/
def execPowerOnReset (s : State) : Ans := .next s.powerOn

/-- The levels held are recorded in `USED`, one carried through a package reset too (R453). -/
def State.levelsUsed (s : State) : State :=
  [s.pelLevel 0, s.pelLevel 1].foldl (fun s l => if l = 0 then s else s.setBit .LS_DBG_STAT_USED [] (l - 1) true) s

/-- A package reset: everything but fields of class POR and DBG (R415, R420); `h` is what holds the device afterwards. The
debug logic lives on; scan control of the pins ends (R484). -/
def State.packageReset (s : State) (h : Nat) : State :=
  let keep (f : Fld) (_ : List Nat) : Bool := f.spec.cls == .por || f.spec.cls == .dbg
  let s := { s.bare keep with
    hold := h, dbgWait := s.dbgWait, pel := s.pel, tap := { s.tap with scan := false, drive := none } }
  s.levelsUsed.healthAgain.emit (.pin 31 0)

/-- A cause bit of `RST_CAUSE` is set. -/
def State.cause (s : State) (f : Fld) : State := s.wr f [] 1

/-- The writers of `RST_UNLOCK` and `RST_CMD` (R416). -/
def State.rstWriter (s : State) (w : Writer) : Bool := s.isAdminW w || s.isHelmW w || w == .binnacle

/-- A write of `RST_CMD`: only directly after an unlock, which it uses up (R416). -/
def State.rstCmd (s : State) (w : Writer) (v : Nat) (k : State → State) : State :=
  if s.mute w then s
  else
    let s' := { s with rstUnlock := none }
    if s.rstWriter w && s.unlocked then k s' else s'.drop w .RST_CMD [] v

/-- A repeated Binnacle fault (R415): within 1 s of a hub warm reset. -/
def State.binAgain (s : State) : Bool :=
  match s.warmT with
  | some t => decide (s.now ≤ t + 1000000000)
  | none => false

/-- PACKAGE_RESET (R415). -/
def execPackageReset (t : PkgTrigger) (s : State) : Ans :=
  match t with
  | .pin => .next ((s.packageReset 2).cause .RST_CAUSE_PIN)
  | .command w => .next (s.rstCmd w 2 fun s => (s.packageReset 0).cause .RST_CAUSE_SW_PKG)
  | .binFatal => if s.binAgain then .next ((s.packageReset 0).cause .RST_CAUSE_BIN_FATAL) else .next s

/-- The device leaves its reset: `XSPI_RST_N` rises (R533). -/
def State.leaveReset (s : State) : State := ({ s with hold := 0 } : State).emit (.pin 31 1)

/-- RESET_RELEASE (R401, R520): the power-on hold ends 10 ms after the rails are good, and the straps are sampled then, a
`TEST_EN` of 1 holding the device in power-on reset; or `RESET_N` rises. Stage 0 begins. -/
def execResetRelease (refSel testEn : Bool) (s : State) : Ans :=
  if s.hold = 1 then
    if testEn then .next (s.lapse 10000000)
    else .next ((s.lapse 10000000).wr .CLK_SRC_REF_SEL [] refSel.toNat).leaveReset
  else if s.hold = 2 then .next s.leaveReset
  else .next s

/-- RST_UNLOCK (R416): for 100 µs; a wrong key cancels. -/
def execRstUnlock (w : Writer) (key : BitVec 16) (s : State) : Ans :=
  if s.mute w then .next s
  else if s.rstWriter w ∧ key.toNat = 0xC3A5 then
    let who := match w with
      | .helm c => c.val
      | _ => 8
    .next { s with rstUnlock := some (s.now + 100000, who) }
  else .next (({ s with rstUnlock := none } : State).drop w .RST_UNLOCK [] key.toNat)

/-! ## Hub warm reset (R417) -/

/-- Step 1: every enabled cache window is flushed. -/
def State.windowsFlush (s : State) : State :=
  let ws := (List.range 16).filter (fun i => s.on .RCW_CTL_EN [i])
  (List.range 8).foldl (fun s n =>
    (s.rcHeld n (fun l _ => ws.any (fun i => s.inWindow i l))).foldl (fun s l => s.rcClean n l true) s) s

/-- Step 2: host descriptors stop; an autoload that still reads its image ends as a refused load. -/
def State.ringsStop (s : State) : State :=
  let s := (List.range 8).foldl (fun s f => s.cfgOrphan f) s
  if s.cfgLoad.auto ∧ s.cfgLoad.phase ≠ 0 ∧ s.cfgLoad.phase ≠ 4 then s.cfgFail 5 0 else s

/-- Fields that a hub warm reset returns: classes HUB, FN and CORE (R6). -/
def hubClears (f : Fld) (i : List Nat) : Bool :=
  match f.clsAt i with
  | .hub | .fn | .core => true
  | _ => false

/-- Releases under way are begun anew by the restarted hub; the die is reset again as that release begins (R6: not here). -/
def State.releasesAgain (s : State) : State :=
  (List.range 8).foldl (fun s n =>
    if 2 ≤ (s.dieAt n).rel then s.setDieRt n { s.dieAt n with rel := 1 } else s) s

/-- Stage 2 begins (R401, R417): the flash is held in reset for 10 µs (R533). -/
def State.stage2 (s : State) : State :=
  ({ s.wr .BOOT_STAT_STAGE [] 2 with stage2T := s.now, flashMode := 0 } : State).emit (.pin 31 0)

/-- A hub warm reset: the hub die but `H_AON` restarts from stage 2 (R417). -/
def State.hubReset (s : State) : State :=
  let s := (s.windowsFlush.ringsStop).releasesAgain
  let s := (List.range 8).foldl (fun s n => s.linkDown (8 + n)) s
  let s := s.clearRegs hubClears
  let s := { s with
    qps := [], rot := [], vecs := [], mail := [], cfgWait := [], pcie := [], sessions := [], lastSes := 0, cfgMeas := 0
    flashOp := none, helm := [], helmL1 := [], helmL2 := [], flashC := [], rstUnlock := none, auto := none
    rtq := offDie s.rtq 8, rtPend := offDie s.rtPend 8, ni := offDie s.ni 8, bearings := offDie s.bearings 8, drainT := offDie s.drainT 8
    arbs := smKeep s.arbs (fun i => !(i.take 2 == [0, 8])), govs := smKeep s.govs (fun i => i ≠ [8])
    gkDir := offDie s.gkDir 8, gkPool := offDie s.gkPool 8
    fixq := [], hubDown := true, rebaseDue := false
    sxq := s.sxKept, txq := [], residences := [], rxStamp := [], sxDiscard := [], sxMeas := []
    ppsEnd := none, stewards := smKeep s.stewards (fun i => i ≠ [8])
    relq := [], rstq := [], warm := true, warmT := some s.now }
  (s.wr .PWR_HUB_STAT_DOMAINS [] 7).stage2

/-- HUB_WARM_RESET (R415, R417): a Binnacle fault repeated within 1 s resets the package. -/
def execHubWarmReset (t : HubTrigger) (s : State) : Ans :=
  match t with
  | .command w => .next (s.rstCmd w 1 fun s => s.hubReset.cause .RST_CAUSE_SW_HUB)
  | .lockstep =>
    if s.binAgain then .next ((s.packageReset 0).cause .RST_CAUSE_BIN_FATAL)
    else .next (s.hubReset.cause .RST_CAUSE_BIN_LOCKSTEP)
  | .watchdog =>
    if s.binAgain then .next ((s.packageReset 0).cause .RST_CAUSE_BIN_FATAL)
    else .next (s.hubReset.cause .RST_CAUSE_BIN_WDT)

/-! ## The boot flash (R404, R405, R434, R435, R439) -/

/-- The 4,096 bytes of copy `c` of the directory, byte 0 lowest. -/
def State.dirCopy (s : State) (c : Nat) : Nat := leNat (memBytes s.flash (4096 * c) 4096 0xFF)
def dirMAGIC (d : Nat) : Nat := bitsOf d 0 32
def dirSEQ (d : Nat) : Nat := bitsOf d 32 32
def dirPREFER (d : Nat) : Nat := bitsOf d 64 32
def dirFLAGS (d : Nat) : Nat := bitsOf d 96 32
def dirCRC (d : Nat) : Nat := bitsOf d (8 * 4092) 32
/-- Offset and length of the firmware and of the configuration image of slot `k` (0 A, 1 B). -/
def dirFw (d k : Nat) : Nat × Nat := (bitsOf d (8 * (16 + 16 * k)) 32, bitsOf d (8 * (20 + 16 * k)) 32)
def dirCfg (d k : Nat) : Nat × Nat := (bitsOf d (8 * (24 + 16 * k)) 32, bitsOf d (8 * (28 + 16 * k)) 32)

/-- A copy is valid where `MAGIC` and `CRC` are right (R405). -/
def dirValid (d : Nat) : Bool := dirMAGIC d == 0x54444952 && dirCRC d == crc32 (d % 2 ^ (8 * 4092)) (8 * 4092)

/-- The copy in use: the valid one of higher `SEQ`, copy 0 where they are equal (R405). -/
def State.dirPick (s : State) : Option Nat :=
  let a := s.dirCopy 0
  let b := s.dirCopy 1
  if dirValid a then (if dirValid b ∧ dirSEQ a < dirSEQ b then some 1 else some 0)
  else if dirValid b then some 1 else none

/-- The largest firmware image. -/
def fwMax : Nat := 64 * 2 ^ 20

/-- The checks of a firmware image at a flash offset (R434, R435, R436, R440): 0, or the `LS_ERR` code. -/
def State.fwCheck (s : State) (off len : Nat) (sig : Bool) : Nat :=
  let h := leNat (memBytes s.flash off 256 0xFF)
  let k := s.keyCheck (hKEY h) false false
  if hMAGIC h ≠ 0x54444657 ∨ hFORMAT h ≠ 1 ∨ hFLAGS h ≠ 0 ∨ fwMax < hBODY h ∨ len ≠ 256 + hBODY h then 4
  else if k ≠ 0 then k
  else if hCOUNTER h ≠ 0 then 4
  else if hSVN h < s.rd .LS_ARB_VALUE [0] then 2
  else if sig = false then 1
  else 0

/-- A slot is tried: an empty one is no image; a failing one is counted and recorded. -/
def State.slotTry (s : State) (d k : Nat) (sig : Bool) : Bool × State :=
  let (off, len) := dirFw d k
  if len = 0 then (false, s)
  else
    let c := s.fwCheck off len sig
    if c = 0 then (true, s) else (false, s.imageBad c 0)

/-- The firmware of slot `k` is taken (R405, R439): its measurement, its `SVN`, the Binnacle released. -/
def State.slotTake (s : State) (d k : Nat) : State :=
  let (off, len) := dirFw d k
  let bs := memBytes s.flash off len 0xFF
  let s := { s with fwMeas := (Config.sha384 bs).toNat }
  ((s.wr .LS_SVN_SVN [0] (hSVN (leNat (bs.take 256)))).wr .LS_STAT_READY [] 1).wr .BOOT_STAT_SLOT [] k

/-- Recovery (R406): P0 is trained as a single function 0. -/
def State.recover (s : State) : State := { s.wr .BOOT_STAT_STAGE [] 15 with pcie := smPut s.pcie [0] 2 0 }

/-- The verdict on the signature of slot `k`. -/
def sigOf (sigA sigB : Bool) (k : Nat) : Bool := if k = 0 then sigA else sigB

/-- The firmware of slot `k`, or of the other slot where it fails (R405): the slot, whether it is good. -/
def State.slotEither (s : State) (d k : Nat) (sigA sigB : Bool) : (Nat × Bool) × State :=
  let x := s.slotTry d k (sigOf sigA sigB k)
  if x.1 then ((k, true), x.2)
  else
    let y := x.2.slotTry d (1 - k) (sigOf sigA sigB (1 - k))
    ((1 - k, y.1), y.2)

/-- Slot `k'` boots where `k` was wanted (R405, R413). -/
def State.slotBoot (s : State) (d k k' : Nat) : State :=
  let x := dirCfg d k'
  let due := (dirFLAGS d).testBit 0 && x.2 != 0
  { ((s.slotTake d k').wr .BOOT_STAT_FALLBACK [] (if k' = k then 0 else 1)).wr .BOOT_STAT_STAGE [] 3 with
    auto := if due then some (x.1, x.2, (dirFLAGS d).testBit 1) else none }

/-- The choice of a slot at a cold start (R405, R427). -/
def State.slotCold (s : State) (c : Nat) : State :=
  let s := { s with noAuto := s.on .BOOT_CFG_NO_AUTOLOAD [] }
  ((s.wr .BOOT_STAT_DIR_COPY [] c).wr .BOOT_CFG_NEXT_SLOT [] 0).wr .BOOT_CFG_NO_AUTOLOAD [] 0

/-- The firmware is chosen by directory `d`, copy `c` (R405, R417). -/
def State.firmwareBy (s : State) (c d : Nat) (sigA sigB : Bool) : State :=
  if s.warm then
    let k := s.rd .BOOT_STAT_SLOT []
    let x := s.slotTry d k (sigOf sigA sigB k)
    if x.1 then (x.2.slotTake d k).wr .BOOT_STAT_STAGE [] 3 else x.2.recover
  else
    let nxt := s.rd .BOOT_CFG_NEXT_SLOT []
    let k := if nxt = 1 then 0 else if nxt = 2 then 1 else if dirPREFER d = 1 then 1 else 0
    let x := (s.slotCold c).slotEither d k sigA sigB
    if x.1.2 then x.2.slotBoot d k x.1.1 else x.2.recover

/-- The end of stage 2 (R405, R406, R413, R417). -/
def State.firmware (s : State) (sigA sigB : Bool) : State :=
  match s.dirPick with
  | none => s.recover
  | some c => s.firmwareBy c (s.dirCopy c) sigA sigB

/-! ## Boot stages (R401 to R403) -/

/-- The end of stage 1 (R10, R401, R408, R521): each fitted die that has answered is present, its `F_AON` on, or its fuses
are bad. -/
def State.fuseStage (s : State) (fitted : Nat) (fuses : List (Fin 8 × BitVec 2)) : State :=
  (List.range 8).foldl (fun s n =>
    let s := s.emit (.pin (20 + n) 2)
    if s.rd .RST_DIE_STAT_START_ERR [n] = 5 then s
    else if fitted.testBit n = false then s.wr .HUB_DIE_STATE_PRESENT [n] 0
    else if fusesGood n (fuses.getD n (0, 0)) then
      ((s.fusesRead n (fuses.getD n (0, 0))).wr .PWR_DIE_STAT_DOMAINS [n] 1).setDie n 1
    else ((s.wr .HUB_DIE_STATE_PRESENT [n] 0).wr .RST_DIE_STAT_START_ERR [n] 4).raise .HUB_DIE_STATE [n] 408 3 [n, 4]) s

/-- The end of stage 3 (R401, R403): the reference PLL locks without a glide, spines and time start. After a hub warm reset
they have run on. -/
def State.clocksStart (s : State) (srcOk : Bool) : State :=
  if s.clocksUp then s
  else
    let s := { s with clocksUp := true, local_ := 0, anchorE := s.now, anchorT := 0 }
    let s := (List.range 8).foldl (fun s k =>
      let f := s.rd .SPN_SYN_FREQ [k]
      s.setSynth 8 k { freq := f, tgt := f }) s
    if srcOk then (s.wr .CLK_SRC_ACTIVE [] (s.rd .CLK_SRC_SEL [])).wr .CLK_MON_REF_OK [] 1 else s.deadReckon

/-- The ports that a router has. -/
def rtrPorts (site r : Nat) : Nat := (List.range 8).foldl (fun x c => if (hopOf site r c).isSome then x + 2 ^ c else x) 0

/-- Dvorkenor enables the routers and NIs of a die or the hub (R189, R192, R407). -/
def State.meshOn (s : State) (site : Nat) : State :=
  let s := (List.range (rtrCount site)).foldl (fun s r => s.wr .NOC_RTR_PORT_EN [site, r] (rtrPorts site r)) s
  (List.range 48).foldl (fun s i => if (niId site i).isSome then s.wr .NOC_NI_CTL_EN [site, i] 1 else s) s

/-- The registers of a telemetry block take the totals of the repair record (R513). -/
def State.lifeLoad (s : State) (n : Nat) : State :=
  let x : LifeRt := smGet s.tele [n] {}
  let s := s.wr .TEL_LIFE_PPM [n] (min 1048575 (x.tenths * 100000 / 219150))
  (List.range 4).foldl (fun s b => s.wr .TEL_HOURS_HOURS [n, b] (x.hours.getD b 0)) s

/-- The end of stage 4: the hub's mesh, the helm cores of `HELM_BOOT_AUTO`, the re-base of a hub warm reset, and the dies
that stage 5 releases, F0 first (R401, R417, R469). -/
def State.servicesUp (s : State) : State :=
  let s := if s.warm then { s with rebaseDue := true } else s.meshOn 8
  let s := (List.range 8).foldl (fun s c =>
    if (s.rd .HELM_BOOT_AUTO_MASK []).testBit c ∧ s.coreState c = 0 then s.coreAsk c else s) s
  let s := s.helmTimeouts
  let fresh (n : Nat) : Bool := (s.dieAt n).rel == 1 ||
    (s.on .HUB_DIE_STATE_PRESENT [n] && s.rd .HUB_DIE_STATE_STATE [n] == 1 && s.rd .RST_DIE_STAT_CAUSE [n] == 0)
  let ns := (List.range 8).filter fresh
  let s := ns.foldl (fun s n => s.setDieRt n { s.dieAt n with rel := 1 }) s
  let s := if s.warm then (List.range 8).foldl (fun s n => if s.up n then s.askLink (8 + n) else s) s else s
  { s with relq := ns }

/-- Stage 5 is over when no die is being released and no training that belongs to it runs (R401, R402, R417). -/
def State.stage5Over (s : State) : Bool :=
  !s.releasing && (List.range 16).all (fun l => (s.link l).train == 0) && (List.range 4).all (fun st => (s.stk st).train == 0)

/-- The boot ROM reads the flash's discoverable parameters in 1S-1S-1S mode, and goes on in 8D-8D-8D mode where they allow it
(R533). -/
def State.flashReads (s : State) (octal : Bool) : State :=
  let s := (s.lapseTo (s.stage2T + 10000)).emit (.pin 31 1)
  { s with flashMode := if octal then 2 else 1 }

/-- BOOT_STAGE_COMPLETE (R401 to R406, R417, R533): `fitted` dies, the fuses of each, the verdicts on the signatures of slots
A and B, whether the source of the reference spine is good, whether the flash has an 8D-8D-8D mode, the bearings. -/
def execBootStageComplete (fitted : BitVec 8) (fuses : List (Fin 8 × BitVec 2)) (sigA sigB srcOk octal : Bool)
    (bs : BearingSet) (s : State) : Ans :=
  if s.hold ≠ 0 then .next s
  else match s.rd .BOOT_STAT_STAGE [] with
    | 0 => .next ((s.wr .LS_STAT_TRNG_OK [] 1).wr .BOOT_STAT_STAGE [] 1)
    | 1 => .next (s.fuseStage fitted.toNat fuses).stage2
    | 2 => .next ((s.flashReads octal).firmware sigA sigB)
    | 3 => .next ((((s.clocksStart srcOk).wr .PWR_HUB_STAT_DOMAINS [] 0x3F).lifeLoad 8).wr .BOOT_STAT_STAGE [] 4)
    | 4 => .next (s.servicesUp.wr .BOOT_STAT_STAGE [] 5)
    | 5 =>
      if s.stage5Over then
        let s := if s.warm then (s.meshOn 8).putBearings bs else s
        .next { s.wr .BOOT_STAT_STAGE [] 6 with warm := false }
      else .next s
    | _ => .next s

/-- DIE_RAIL_ABSENT (R409): in stage 1. -/
def execDieRailAbsent (n : Fin 8) (s : State) : Ans :=
  if s.hold = 0 ∧ s.rd .BOOT_STAT_STAGE [] = 1 then
    let s := (s.wr .HUB_DIE_STATE_PRESENT [n] 0).setDie n 1
    .next ((s.wr .RST_DIE_STAT_START_ERR [n] 5).raise .HUB_DIE_STATE [n] 409 0 [n])
  else .next s

/-! ## Releasing a die (R407, R408) -/

/-- Defective columns of a sector in the repair record, the first found first. -/
def State.recordedCols (s : State) (n k : Nat) : List Nat :=
  (((s.repairs.filter (fun e => e.take 3 == [n, 59, k])).map (fun e => e.getD 3 31)).reverse).eraseDups

/-- The steward loads the die's entries of the repair record (R58, R62, R407). -/
def State.repairsLoad (s : State) (n : Nat) : State :=
  (List.range 40).foldl (fun s k =>
    let f := s.rd .SEC_COLMAP_FUSED [n, k]
    let ps := (s.recordedCols n k).filter (· ≠ f)
    let s := s.wr .SEC_COLMAP_FIELD [n, k] (ps.headD 31)
    (s.wr .SEC_COLMAP_ACTIVE [n, k] (s.knownDefect n k)).wr .SEC_COLMAP_DEFECTS [n, k]
      (min 3 (ps.length + if f = 31 then 0 else 1))) s

/-- The stack's sealing engine gets its transport key, one for each package reset (R446). -/
def State.transportKey (s : State) (n : Nat) : State :=
  match dieStack n with
  | none => s
  | some st =>
    if smGet s.transport [st] 0 ≠ 0 then s
    else
      let (k, s) := s.draw 256
      { s with transport := smPut s.transport [st] k 0 }

/-- DIE_RELEASE (R407, R521, R526): the die at the head of the line, when no other release is under way. -/
def execDieRelease (n : Fin 8) (rail : Bool) (s : State) : Ans :=
  match s.relq with
  | [] => .next s
  | m :: rest =>
    let stage := s.rd .BOOT_STAT_STAGE []
    if m = n.val ∧ (stage = 5 ∨ stage = 6) ∧ (List.range 8).all (fun k => (s.dieAt k).rel < 2) then
      let s := { s with relq := rest }
      if rail = false then
        let s := (s.setDieRt n { s.dieAt n with rel := 0 }).wr .PWR_DIE_STAT_BUSY [n] 0
        .next (((s.setDie n 1).wr .PWR_DIE_STAT_PSTATE [n] 3).raise .PWR_DIE_CTL [n] 526 0 [n]).nextReset
      else
        let s := if s.rd .HUB_DIE_STATE_STATE [n] = 2 then s.dieWipe n else s
        let s := (s.setDieRt n { s.dieAt n with rel := 2, t0 := s.now }).setDie n 2
        let s := (s.wr .PWR_DIE_STAT_PSTATE [n] 0).wr .PWR_DIE_STAT_DOMAINS [n] 31
        let s := if s.rd .RST_DIE_STAT_CAUSE [n] = 0 then s.wr .RST_DIE_STAT_CAUSE [n] 1 else s
        let s := ((s.emit (.pin (20 + n) 2)).repairsLoad n).lifeLoad n
        .next ((s.transportKey n).askLink (8 + n))
    else .next s

/-- Reckoner columns of a die with a free spare: the margin of notice 0x1002. -/
def State.freeSlots (s : State) (n : Nat) : Nat :=
  ((List.range 40).map (fun k => ((List.range 3).filter (fun c => s.rd (rknMap c) [n, k] = 31)).length)).sum

/-- A defective reckoner block (R78): the column's spare is used, or the sector is unavailable. -/
def State.rknDefect (s : State) (n k c b : Nat) : State :=
  let d := s.rd (rknMap c) [n, k]
  if d = b then s
  else if d = 31 then
    let s := s.wr (rknMap c) [n, k] b
    s.notice .HARD_MAP [n, k] 0x1002 (3 * k + c) (s.freeSlots n) 0 (some 1)
  else s.sectorUnavailable n k 78

/-- The spoke of die `n` is up: trained, with at least one NoC group in each direction (R24). -/
def State.spokeUp (s : State) (n : Nat) : Bool :=
  (s.link (8 + n)).train == 0 && [(n, 2), (8, n)].all fun e => s.dirUp e.1 e.2 && s.rd .GK_STAT_NOC [e.1, e.2] != 0

/-- SELF_TEST_DONE (R407, R58, R59, R77, R78): after the spoke has trained; memory rows that the record suspects have been
tested again. -/
def execSelfTestDone (n : Fin 8) (cols : List (Fin 40 × Fin 31)) (rkn : List (Fin 40 × Fin 3 × Fin 25))
    (rows : List (Fin 40 × Nat)) (lost : List (Fin 40)) (s : State) : Ans :=
  if (s.dieAt n).rel = 2 ∧ s.spokeUp n then
    let s := s.lapseTo ((s.dieAt n).t0 + 28000000)
    let s := { s with repairs := s.repairs.filter (fun e => e.take 2 != [n.val, 77]) }
    let s := (s.setBit .MGMT_HEALTH_ZERO [n] 1 false).setBit .MGMT_HEALTH_ZERO [n] 2 false
    let h := s.hlth n
    let s := s.healthUpdate n { h with secLost := false, low := h.low - (h.low &&& 6) }
    let s := (List.range 40).foldl (fun s k =>
      if (s.recordedCols n k).any (· ≠ s.knownDefect n k) then s.sectorUnavailable n k 59 else s) s
    let s := cols.foldl (fun s x => s.columnDefect n x.1 x.2 0) s
    let s := rkn.foldl (fun s x => s.rknDefect n x.1 x.2.1 x.2.2) s
    let s := rows.foldl (fun s x =>
      let s := s.notice .HARD_MAP [n, x.1] 0x1003 x.1 x.2 0 (some 2)
      if x.2 = 0 then s.wr .HARD_MAP_MEM_SPARE_LOW [n, x.1] 1 else s) s
    let s := lost.foldl (fun s k => s.sectorUnavailable n k 77) s
    .next (s.setDieRt n { s.dieAt n with rel := 3 })
  else .next s

/-- DIE_RELEASE_DONE (R407, R247, R200): the die enters service. -/
def execDieReleaseDone (n : Fin 8) (bs : BearingSet) (s : State) : Ans :=
  if (s.dieAt n).rel = 3 then
    let s := (s.lapseTo ((s.dieAt n).t0 + 31000000)).setDieRt n { s.dieAt n with rel := 0 }
    let s := ((s.meshOn n).wr .RC_CTL_EN [n] 1).wr .RC_STAT_STATE [n] 1
    let s := s.putBearings (bs.filter (fun b => b.1.val == n.val || bitsOf b.2.2.2.toNat 8 4 == n.val))
    let s := ((s.setDie n 3).wr .PWR_DIE_STAT_BUSY [n] 0).wr .RST_DIE_STAT_START_ERR [n] 0
    let s := s.healthUpdate n { s.hlth n with dead := false }
    let s := match dieStack n with
      | some st => s.askTraining st
      | none => s
    let s := if s.up ((n + 1) % 8) then s.askLink n else s
    let s := if s.up ((n + 7) % 8) then s.askLink ((n + 7) % 8) else s
    .next s.nextReset
  else .next s

/-- DIE_START_FAIL (R408): held in die reset; with cause 4 reported as absent. -/
def execDieStartFail (n : Fin 8) (cause : Fin 4) (s : State) : Ans :=
  if 2 ≤ (s.dieAt n).rel then
    let c := cause.val + 1
    let s := (s.dieWipe n).setDieRt n { s.dieAt n with rel := 0 }
    let s := (s.wr .RST_DIE_STAT_START_ERR [n] c).wr .PWR_DIE_STAT_BUSY [n] 0
    let s := if c = 4 then (s.setDie n 0).wr .HUB_DIE_STATE_PRESENT [n] 0 else (s.setDie n 5).wr .HUB_DIE_STATE_LOST [n] 0
    let s := s.raise .RST_DIE_CTL [n] 408 3 [n, c]
    .next (s.healthUpdate n { s.hlth n with dead := true }).nextReset
  else .next s

/-- CFG_AUTOLOAD (R413): once stage 5 has ended; suppressed where `NO_AUTOLOAD` read 1 at boot. -/
def execCfgAutoload (unwrap : Bool) (s : State) : Ans :=
  match s.auto with
  | none => .next s
  | some (off, len, rel) =>
    if s.rd .BOOT_STAT_STAGE [] = 6 ∧ s.cfgLoad.phase = 0 then
      let s := { s with auto := none }
      if s.noAuto then .next (s.wr .BOOT_STAT_CFG [] 4)
      else
        let h := leNat (memBytes s.flash off 256 0xFF)
        .next ((s.wr .BOOT_STAT_CFG [] 1).cfgBegin none rel len off (some h) unwrap)
    else .next s

/-! ## Rails (R526) -/

/-- An HBM rail fails while the stack holds contents (R526, R251). -/
def State.railStack (s : State) (st : Nat) : State :=
  let s := (List.range 32).foldl (fun s c =>
    let p := s.pc st c
    let s := (p.inflight ++ p.rq).foldl (fun s q => s.respond st (s.hbmChannel st q.a) q 6 q.allOnes) s
    s.setPc st c {}) s
  let s := ((s.wr .HBM_CTL_EN [st] 0).stackLost st).homeGone st
  (s.sweepSleep st).raise .HBM_CTL [st] 526 3 [st]

/-- The rail of an I/O bank: its pins are at high impedance, and the design reads its inputs as 0 (R526). -/
def State.bankRail (s : State) (n k : Nat) (up : Bool) : State :=
  let s := { s with ioOff := smPut s.ioOff [n, k] (!up) false }
  let hit (i : Key) (y : InRt) : Bool := i.headD 8 == n && y.pin.any (fun p => p / 48 == k)
  if up then s
  else s.onFab fun b => { b with
    inputs := b.inputs.map fun e => if hit e.1 e.2 then (e.1, { e.2 with val := false, last := false }) else e }

/-- RAIL_FAULT (R526). -/
def execRailFault (r : Rail) (s : State) : Ans :=
  match r with
  | .monitored => .next s.powerOn
  | .core n => if s.up n then .next ((s.raise .PWR_DIE_CTL [n] 526 3 [n]).dieLost n 5 false).nextReset else .next s
  | .hbm st =>
    if (s.stk st).train = 2 then execHbmTrainingFail st s
    else if s.on .HBM_STAT_CONTENT [st] then .next (s.railStack st)
    else .next s
  | .io n k up => .next (s.bankRail n k up)

/-! ## Telemetry and service life (R504 to R507, R527) -/

/-- The steward of a die runs, or the site is the hub. -/
def State.stewardRuns (s : State) (n : Nat) : Bool := n == 8 || [2, 3, 4].contains (s.rd .HUB_DIE_STATE_STATE [n])

def State.life (s : State) (n : Nat) : LifeRt := smGet s.tele [n] {}
def State.setLife (s : State) (n : Nat) (x : LifeRt) : State := { s with tele := smPut s.tele [n] x {} }

/-- The thermal trip (R527, R415). -/
def State.thermalTrip (s : State) : State :=
  ((s.packageReset 3).cause .RST_CAUSE_THERMAL).emit (.pin 30 0)

/-- TELEMETRY_SAMPLE (R504, R505, R527). -/
def execTelemetrySample (site : Fin 9) (temp : BitVec 8) (mv : BitVec 12) (amp : BitVec 10) (s : State) : Ans :=
  let n := site.val
  let t := temp.toNat
  let x := s.life n
  let x := { x with
    last := t, top := max x.top t, hot := (if 110 ≤ t then x.hot + 1 else 0), hotter := (if 118 ≤ t then x.hotter + 1 else 0) }
  if s.hold ≠ 0 ∨ s.stewardRuns n = false then .next (s.setLife n { x with hot := 0, hotter := 0 })
  else
    let s := ((s.wr .TEL_STAT_TEMP [n] t).wr .TEL_STAT_VCORE [n] mv.toNat).wr .TEL_STAT_ICORE [n] amp.toNat
    let warn := s.rd .TEL_CTL_TWARN [n]
    let s := if x.armed ∧ warn ≤ t then
        ((s.setLife n { x with armed := false }).wr .TEL_STAT_TWARN_HIT [n] 1).raiseFixed .TEL_CTL [n] 0x0E01 2 (.details [t])
      else s.setLife n (if t + 5 ≤ warn then { x with armed := true } else x)
    if (n = 8 ∧ 2 ≤ x.hot) ∨ (n < 8 ∧ 2 ≤ x.hotter) then .next s.thermalTrip
    else if n < 8 ∧ 2 ≤ x.hot ∧ (s.rd .HUB_DIE_STATE_STATE [n] = 2 ∨ s.rd .HUB_DIE_STATE_STATE [n] = 3) then
      .next ((s.raise .PWR_DIE_CTL [n] 527 3 [n, t]).dieLost n 6 true).nextReset
    else .next s

/-- THERMTRIP_RELEASE (R527): every sensor reads below 100 °C. -/
def execThermtripRelease (s : State) : Ans :=
  if s.hold = 3 ∧ (List.range 9).all (fun n => (s.life n).last < 100) then .next (s.leaveReset.emit (.pin 30 1))
  else .next s

/-- The bin of a temperature, and its weight in tenths (R507). -/
def lifeBin (t : Nat) : Nat := if t ≤ 85 then 0 else if t ≤ 95 then 1 else if t ≤ 100 then 2 else 3
def lifeWeight (b : Nat) : Nat := [10, 22, 33, 100].getD b 100

/-- Tenths of the life that are consumed whole, of `x` tenths of weighted hours; and those left (R499, R507). -/
def lifeTenths (x : Nat) : Nat := x * 10 / 2191500
def lifeLeft (x : Nat) : Nat := (21915000 - x * 10) / 2191500

/-- LIFE_HOURS_UPDATE (R507): an hour ends at a site whose steward runs. -/
def execLifeHoursUpdate (site : Fin 9) (s : State) : Ans :=
  let n := site.val
  if s.stewardRuns n then
    let x := s.life n
    let s := s.lapseTo x.due
    let b := lifeBin x.top
    let y := { x with
      top := 0, due := s.now + 3600000000000, hours := x.hours.set b (x.hours.getD b 0 + 1), tenths := x.tenths + lifeWeight b }
    let s := (s.setLife n y).lifeLoad n
    .next (if lifeTenths x.tenths < lifeTenths y.tenths then
        s.notice .TEL_CTL [n] 0x1050 n (lifeLeft y.tenths) 0 none
      else s)
  else .next s

end Sys2Proof.Machine
end

