-- ==== Sys2Proof/Machine/Seal.lean ====
section
/-! DEFINITION. Memory sealing: claims, range commands, key operations, sweeps, the counter tree's repairs and write-backs
(R260 to R285). -/

namespace Sys2Proof.Machine

/-- The identity of a writer (R264): a function's BAR0, or a helm core; the others own nothing. -/
def sealWriter : Writer → Option Nat
  | .fn f => some f.val
  | .helm _ => some 8
  | _ => none

/-- Does the writer own the range? -/
def State.ownsRange (s : State) (w : Writer) (st r : Nat) : Bool :=
  sealWriter w == some (s.rd .SEAL_RCTL_OWNER [st, r]) && s.rd .SEAL_RCTL_OWNER [st, r] != 15

/-- SEAL_CLAIM (R264). -/
def execSealClaim (w : Writer) (st : Fin 4) (r : Fin 16) (s : State) : Ans :=
  let word := s.wordWith .SEAL_RCTL [st, r] [(.SEAL_RCTL_CLAIM, 1)]
  .next (s.reach w .SEAL_RCTL [st, r] word fun s =>
    match sealWriter w with
    | some o => if s.rd .SEAL_RCTL_OWNER [st, r] = 15 then s.wr .SEAL_RCTL_OWNER [st, r] o else s.drop w .SEAL_RCTL [st, r] word
    | none => s.drop w .SEAL_RCTL [st, r] word)

/-- A write of `SEAL_RCTL.CMD`: dropped unless by the owner (R264); code 6 where it is not accepted (R267). -/
def State.sealCmd (s : State) (w : Writer) (st r cmd : Nat) (k : State → Option State) : State :=
  let word := s.wordWith .SEAL_RCTL [st, r] [(.SEAL_RCTL_CMD, cmd)]
  s.reach w .SEAL_RCTL [st, r] word fun s =>
    if s.ownsRange w st r then
      match k s with
      | some s => s
      | none => (s.sealErr st 6 r 0 0).raise .SEAL_CTL [st] 267 2 [r, cmd]
    else s.drop w .SEAL_RCTL [st, r] word

/-- Does slot 2r + `i` hold a key? -/
def State.holdsKey (s : State) (st r i : Nat) : Bool := (s.rd .SEAL_RSTAT_KEYS [st, r]).testBit i

/-- Erase slot 2r + `i`. -/
def State.eraseSlot (s : State) (st r i : Nat) : State :=
  { s with keys := smPut s.keys [st, 2 * r + i] 0 0 }.setBit .SEAL_RSTAT_KEYS [st, r] i false

/-- Do the MiB intervals [a, a + n) and [b, b + m) meet? -/
def meets (a n b m : Nat) : Bool := decide (a < b + m ∧ b < a + n)

/-- MiB interval `b`, `n` is free of every live range and metadata region of the stack, and inside the stack (R263). -/
def State.mibFree (s : State) (st b n : Nat) : Bool :=
  decide (b + n ≤ 36864) && (List.range 16).all fun q =>
    !s.sealLive st q || (!meets b n (s.rd .SEAL_BASE_MIB [st, q]) (s.rd .SEAL_SIZE_MIB [st, q]) &&
      !(s.on .SEAL_RCTL_MODE [st, q] && meets b n (s.rd .SEAL_MBASE_MIB [st, q]) (metaMib (s.rd .SEAL_SIZE_MIB [st, q]))))

/-- `SEAL_INTEG.MIB`: total size of the live integrity ranges. -/
def State.integMib (s : State) (st : Nat) : Nat :=
  ((List.range 16).map fun q => if s.sealLive st q && s.on .SEAL_RCTL_MODE [st, q] then s.rd .SEAL_SIZE_MIB [st, q] else 0).sum

/-- The checks of ENABLE (R263, R267). -/
def State.enableOk (s : State) (st r : Nat) : Bool :=
  let b := s.rd .SEAL_BASE_MIB [st, r]
  let n := s.rd .SEAL_SIZE_MIB [st, r]
  let mb := s.rd .SEAL_MBASE_MIB [st, r]
  decide (s.sealState st r = 0 ∧ n ≠ 0) && s.mibFree st b n && s.holdsKey st r (s.rd .SEAL_RCTL_CUR [st, r]) &&
  (!s.on .SEAL_RCTL_MODE [st, r] ||
    (s.mibFree st mb (metaMib n) && !meets b n mb (metaMib n) && decide (s.integMib st + n ≤ 24576)))

/-- No remote cache holds a line of a sealed range (R217): when a range becomes one, the caches write back and drop its lines
(DEDUCED, log entry 135). -/
def State.rangeUncached (s : State) (st r : Nat) : State :=
  (List.range 8).foldl (fun s n =>
    (s.rcHeld n (fun l _ => let h := s.lineHome l; h.1 == st && s.inRange st r h.2)).foldl (fun s l => s.rcClean n l true) s) s

/-- ENABLE (R267). -/
def execEnable (w : Writer) (st : Fin 4) (r : Fin 16) (s : State) : Ans :=
  .next (s.sealCmd w st r 1 fun s =>
    if s.enableOk st r then
      some (((s.rangeUncached st r).wr .SEAL_RSTAT_STATE [st, r] 1).sweepQueue st { kind := 1, r := r, stop := 16384 * s.rd .SEAL_SIZE_MIB [st.val, r.val] })
    else none)

/-- Drop the re-key of a range, running or queued, at its boundary. -/
def State.dropRekey (s : State) (st r : Nat) : State :=
  let x := s.seal st
  let mine (w : Sweep) : Bool := w.r == r && w.kind == 2
  if x.run.any mine then s.sweepNext st
  else s.setSeal st { x with queue := x.queue.filter (fun w => !mine w) }

/-- DISABLE (R267). -/
def execDisable (w : Writer) (st : Fin 4) (r : Fin 16) (s : State) : Ans :=
  .next (s.sealCmd w st r 2 fun s =>
    let x := s.sealState st r
    if x = 0 then some (((s.eraseSlot st r 0).eraseSlot st r 1).wr .SEAL_RCTL_OWNER [st, r] 15)
    else if x = 2 ∨ x = 3 ∨ x = 5 then
      let s := ((s.wr .SEAL_RSTAT_SWSTOP [st, r] 0).wr .SEAL_RSTAT_STATE [st, r] 4).dropRekey st r
      some (s.sweepQueue st { kind := 3, r := r, stop := 16384 * s.rd .SEAL_SIZE_MIB [st.val, r.val] })
    else none)

/-- REKEY (R267). -/
def execRekey (w : Writer) (st : Fin 4) (r : Fin 16) (s : State) : Ans :=
  .next (s.sealCmd w st r 3 fun s =>
    if s.sealState st r = 2 ∧ s.holdsKey st r (1 - s.rd .SEAL_RCTL_CUR [st, r]) then
      some (((s.wr .SEAL_RSTAT_STATE [st, r] 3).wr .SEAL_POS_POS [st, r] 0).sweepQueue st
        { kind := 2, r := r, stop := 16384 * s.rd .SEAL_SIZE_MIB [st.val, r.val] })
    else none)

/-- SEAL_RESUME (R267, R280): the sweep continues from `POS` with a new request. -/
def execSealResume (w : Writer) (st : Fin 4) (r : Fin 16) (s : State) : Ans :=
  .next (s.sealCmd w st r 4 fun s =>
    if s.on .SEAL_RSTAT_SWSTOP [st, r] then some ((s.wr .SEAL_RSTAT_SWSTOP [st, r] 0).sweepPermit st) else none)

/-! ## Key operations (R266, R283, R446) -/

/-- The word of a key operation. -/
def State.keyWord (s : State) (st slot op session : Nat) : Nat :=
  s.wordWith .SEAL_KEY [st] [(.SEAL_KEY_SLOT, slot), (.SEAL_KEY_OP, op), (.SEAL_KEY_SESSION, session)]

/-- Is an operation on a slot accepted (R266)? -/
def State.slotFree (s : State) (st slot : Nat) : Bool :=
  let r := slot / 2
  (s.sealState st r == 0 && s.rd .SEAL_RCTL_OWNER [st, r] != 15) ||
  (s.sealState st r == 2 && slot % 2 != s.rd .SEAL_RCTL_CUR [st, r])

/-- A write of `SEAL_KEY` with an operation (R264, R266). -/
def State.keyCmd (s : State) (w : Writer) (st slot op session : Nat) (ok : Bool) : State :=
  let word := s.keyWord st slot op session
  s.reach w .SEAL_KEY [st] word fun s =>
    let mayWrite := match w with
      | .pelorus _ => false
      | _ => slot ≥ 32 || s.ownsRange w st (slot / 2)
    if s.on .SEAL_KEY_BUSY [st] || !mayWrite then s.drop w .SEAL_KEY [st] word
    else
      let s := (s.wr .SEAL_KEY_SLOT [st] slot).wr .SEAL_KEY_SESSION [st] session
      if slot < 32 ∧ s.slotFree st slot ∧ ok then
        { s with keyOp := smPut s.keyOp [st] [slot, op, s.now, session] [] }.wr .SEAL_KEY_BUSY [st] 1
      else s.wr .SEAL_KEY_FAIL [st] 1

/-- SEAL_KEY_GENERATE (R266). -/
def execSealKeyGenerate (w : Writer) (st : Fin 4) (slot : BitVec 6) (s : State) : Ans :=
  .next (s.keyCmd w st slot.toNat 1 (s.rd .SEAL_KEY_SESSION [st.val]) true)

/-- Session `n` is open, the writer owns it, and it holds a deposit (R446). -/
def State.depositFor (s : State) (w : Writer) (n : Nat) : Bool :=
  match smGet s.sessions [n] none with
  | some x => sealWriter w == some x.owner && x.deposit.isSome
  | none => false

/-- SEAL_KEY_IMPORT (R266, R446). -/
def execSealKeyImport (w : Writer) (st : Fin 4) (slot : BitVec 6) (session : BitVec 8) (s : State) : Ans :=
  .next (s.keyCmd w st slot.toNat 2 session.toNat (s.depositFor w session.toNat))

/-- SEAL_KEY_ERASE (R266). -/
def execSealKeyErase (w : Writer) (st : Fin 4) (slot : BitVec 6) (s : State) : Ans :=
  .next (s.keyCmd w st slot.toNat 3 (s.rd .SEAL_KEY_SESSION [st.val]) true)

/-- A key takes its slot. -/
def State.giveKey (s : State) (st slot k : Nat) : State :=
  { s with keys := smPut s.keys [st, slot] k 0 }.setBit .SEAL_RSTAT_KEYS [st, slot / 2] (slot % 2) true

/-- SEAL_KEY_DONE (R283, R446, R447): the running operation ends. A generation waits while the random generator fails its
health test. -/
def execSealKeyDone (st : Fin 4) (keys : Option (BitVec 768)) (s : State) : Ans :=
  match smGet s.keyOp [st.val] [] with
  | slot :: op :: _ :: n :: _ =>
    if op = 1 ∧ s.on .LS_STAT_TRNG_OK [] = false then .next s
    else
    let s := { s with keyOp := smPut s.keyOp [st] [] [] }.wr .SEAL_KEY_BUSY [st] 0
    if op = 1 then
      let (a, s) := s.draw 512
      let (b, s) := s.draw 256
      .next (s.giveKey st slot (a + b * 2 ^ 512))
    else if op = 2 then
      match keys, smGet s.sessions [n] none with
      | some k, some x =>
        let s := { s with sessions := smPut s.sessions [n] (some { x with deposit := none, used := s.now }) none }
        .next (s.giveKey st slot k.toNat)
      | _, _ => .next (s.wr .SEAL_KEY_FAIL [st] 1)
    else .next (s.eraseSlot st (slot / 2) (slot % 2))
  | _ => .next s

/-! ## Sweeps (R277 to R280) -/

/-- SWEEP_PERMIT_GRANT (R280): the sweep, or the repair that waits, has its permit. -/
def execSweepPermitGrant (st : Fin 4) (s : State) : Ans :=
  let x := s.seal st
  let own := if x.rAsked then s.takeGrant (2 * st) 10 [st.val, 1] else none
  match own with
  | some s => .next ((s.setSeal st { x with rUnits := sweepUnits (s.repairRate st), rAsked := false }).repairPermit st)
  | none =>
    match (if x.asked then s.takeGrant (2 * st) 10 [st.val] else none) with
    | some s =>
      let u := unitSum ((s.gov (2 * st)).held.filter (·.is 10 [st.val]))
      .next ((s.setSeal st { x with units := u, asked := false }).sweepPermit st)
    | none => .next s

/-- SWEEP_PERMIT_TIMEOUT (R277, R280): a repair asks again 1 ms later; another sweep stops at its boundary. -/
def execSweepPermitTimeout (st : Fin 4) (s : State) : Ans :=
  let x := s.seal st
  match (if x.rAsked then s.takeTimeout (2 * st) 10 [st.val, 1] else none) with
  | some s =>
    .next ((s.giveBack (2 * st) 10 [st, 1]).setSeal st { x with rAsked := false, rUnits := 0, retryT := s.now + 1000000 })
  | none =>
    match x.run, (if x.asked then s.takeTimeout (2 * st) 10 [st.val] else none) with
    | some w, some s =>
      let s := (s.giveBack (2 * st) 10 [st]).setSeal st { x with asked := false, units := 0 }
      let s := (s.wr .SEAL_RSTAT_SWSTOP [st, w.r] 1).sealErr st 7 w.r 0 0
      .next (s.raise .SEAL_CTL [st] 280 2 [w.r])
    | _, _ => .next s

/-- REPAIR_PERMIT_RETRY (R277). -/
def execRepairPermitRetry (st : Fin 4) (s : State) : Ans :=
  let x := s.seal st
  if x.retryT ≠ 0 then
    let s := s.lapseTo x.retryT
    .next ((s.setSeal st { x with retryT := 0 }).repairPermit st)
  else .next s

/-- Has a request to a line of the chunk entered the front pipe and not completed (R278)? -/
def State.chunkBusy (s : State) (st r pos : Nat) : Bool :=
  let hit (q : HbmReq) : Bool := s.rangeOf st q.a == some r && s.rangeLine st r q.a / 64 == pos / 64
  (List.range 32).any (fun c => let x := s.pc st c; x.rq.any hit || x.wq.any hit || x.inflight.any hit) ||
  (smGet s.reenc [st] []).any (fun e => e.r == r && e.leaf == pos / 64)

/-- Write a line of a range as zeros. -/
def State.zeroLine (s : State) (st r i : Nat) : State := s.linePut (s.lineKey st (s.lineAddr st r i)) 0 false

/-- The lines of the chunk at `pos`. -/
def chunkLines (pos : Nat) : List Nat := (List.range 64).map (pos + ·)

/-- Forget the tree of a range: every counter 0, nothing cached, no node lost (R267). -/
def State.treeClear (s : State) (st r : Nat) : State :=
  let out (m : SMap Nat) : SMap Nat := smKeep m (fun k => !(k.headD 9 == st && k.getD 1 99 == r))
  { s with leafMaj := out s.leafMaj, leafMin := out s.leafMin, innerC := out s.innerC, ccache := out s.ccache,
           ccT := out s.ccT, hwm := smPut s.hwm [st, r] 0 0,
           lostN := smKeep s.lostN (fun k => !(k.headD 9 == st && k.getD 1 99 == r)) }

/-- The nodes on the path of a leaf are dirty in the counter cache (R279). -/
def State.pathDirty (s : State) (st r leaf : Nat) : State :=
  (List.range (treeLevels (s.rd .SEAL_SIZE_MIB [st, r])).length).foldl (fun s j => s.nodeDirty st r j (leaf / 8 ^ j)) s

/-- The metadata region of a range as zeros (R267). -/
def State.metaZero (s : State) (st r : Nat) : State :=
  if s.on .SEAL_RCTL_MODE [st, r] then
    let out (k : Nat) : Bool := decide (k / 0x900000000 ≠ st) || !s.inMeta st r (s.addrOf st (k % 0x900000000))
    { s with hbm := s.hbm.filter (fun c => out c.1), poison := s.poison.filter out }
  else s

/-- A sweep ends (R267, R279). -/
def State.sweepEnd (s : State) (st : Nat) (w : Sweep) : State :=
  let s := match w.kind with
    | 1 => s.wr .SEAL_RSTAT_STATE [st, w.r] 2
    | 2 =>
      let old := s.rd .SEAL_RCTL_CUR [st, w.r]
      let s := (s.wr .SEAL_RCTL_CUR [st, w.r] (1 - old)).eraseSlot st w.r old
      if s.sealState st w.r = 3 then s.wr .SEAL_RSTAT_STATE [st, w.r] 2 else s
    | _ =>
      let s := (((s.metaZero st w.r).treeClear st w.r).eraseSlot st w.r 0).eraseSlot st w.r 1
      ((s.wr .SEAL_RSTAT_STATE [st, w.r] 0).wr .SEAL_RSTAT_FREEZE [st, w.r] 0).wr .SEAL_RCTL_OWNER [st, w.r] 15
  s.sweepNext st

/-- A chunk of a repair: its lines poisoned, its leaf rebuilt; at the end every rebuilt child counter and `HWM` (R277). -/
def State.repairChunk (s : State) (st : Nat) (w : Sweep) : State :=
  let s := (chunkLines w.pos).foldl (fun s i => s.linePut (s.lineKey st (s.lineAddr st w.r i)) 0 true) s
  let s := s.leafReset st w.r (w.pos / 64) w.val
  let x := s.seal st
  if w.pos + 64 < w.stop then s.setSeal st { x with repairs := { w with pos := w.pos + 64 } :: x.repairs.tail }
  else
    let first := w.node * 64 * 8 ^ w.level
    let counters (s : State) (j : Nat) : State :=
      (List.range (ceilDiv (w.stop - first) (64 * 8 ^ j))).foldl (fun s i =>
        { s with innerC := smPut s.innerC [st, w.r, j, first / (64 * 8 ^ j) + i] w.val 0 }) s
    let s := (List.range w.level).foldl counters s
    let s := { s with lostN := smPut s.lostN [st, w.r, w.level, w.node] false false }
    ((s.hwmTo st w.r w.val).setSeal st { x with repairs := x.repairs.tail }).repairPermit st

/-- A chunk of the running sweep (R278, R279). -/
def State.mainChunk (s : State) (st : Nat) (w : Sweep) (bad : List (Fin 64 × BitVec 576)) : State :=
  let r := w.r
  let integ := s.on .SEAL_RCTL_MODE [st, r]
  let leaf := w.pos / 64
  let s := match w.kind with
    | 2 =>
      if integ then
        let s := s.leafStore st r (s.leafFetch st r leaf bad)
        (s.leafReset st r leaf 0).pathDirty st r leaf
      else s.leafStore st r (s.leafFetch st r leaf bad)
    | 1 => (chunkLines w.pos).foldl (fun s i => s.zeroLine st r i) (if w.pos = 0 then s.treeClear st r else s)
    | _ => (chunkLines w.pos).foldl (fun s i => s.zeroLine st r i) s
  let s := s.wr .SEAL_POS_POS [st, r] (w.pos + 64)
  if w.pos + 64 < w.stop then s.setSeal st { s.seal st with run := some { w with pos := w.pos + 64 } } else s.sweepEnd st w

/-- SWEEP_CHUNK (R277, R278, R280): the sweep whose turn it is processes one chunk, which takes 4,096 / rate ns. `bad`: the
altered bits that a re-key meets in lines and tags of the chunk. -/
def execSweepChunk (st : Fin 4) (bad : List (Fin 64 × BitVec 576)) (s : State) : Ans :=
  let x := s.seal st
  let lent := decide (0 < x.units) && !x.asked
  if s.stackOk st = false then .next s
  else match x.repairs with
    | w :: _ =>
      if (lent ∨ (0 < x.rUnits ∧ !x.rAsked)) ∧ s.chunkBusy st w.r w.pos = false then
        .next ((s.lapse (ceilDiv 4096 (s.repairRate st))).repairChunk st w)
      else .next s
    | [] => match x.run with
      | some w =>
        if lent ∧ 0 < s.sealRate st ∧ s.sweepStopped st = false ∧ s.chunkBusy st w.r w.pos = false then
          .next ((s.lapse (ceilDiv 4096 (s.sealRate st))).mainChunk st w bad)
        else .next s
      | none => .next s

/-- SEAL_RATE_WRITE (R280, R283): accepted from an administrative function or a helm core. -/
def execSealRateWrite (w : Writer) (st : Fin 4) (rate : BitVec 6) (s : State) : Ans :=
  let ok := match w with
    | .fn f => f.val = 0 || f.val = 4
    | .helm _ => true
    | _ => false
  .next (s.reach w .SEAL_CTL [st] rate.toNat fun s =>
    if ok then
      let s := s.wr .SEAL_CTL_RATE [st] rate.toNat
      let s := if 40 < rate.toNat then s.raise .SEAL_CTL [st] 283 2 [rate.toNat] else s
      (s.sweepPermit st).repairPermit st
    else s.drop w .SEAL_CTL [st] rate.toNat)

/-! ## The counter tree (R273, R275 to R277) -/

/-- NODE_LOST (R276, R277): both copies of a node fail; its lines are out until its repair has passed them. -/
def execNodeLost (st : Fin 4) (r : Fin 16) (level : Fin 8) (node : BitVec 24) (s : State) : Ans :=
  let size := s.rd .SEAL_SIZE_MIB [st.val, r.val]
  let lv := treeLevels size
  let m := node.toNat
  if s.sealLive st r ∧ s.on .SEAL_RCTL_MODE [st, r] ∧ level.val < lv.length ∧ m < lv.getD level 0 then
    let a := nodeAddr size (s.rd .SEAL_MBASE_MIB [st.val, r.val]) (nodeNumber size level m)
    let s := (((s.bump .SEAL_NODE_CNT_COUNT [st] 2).bump .SEAL_LOST_CNT_COUNT [st]).sealErr st 3 r level a).raise
      .SEAL_CTL [st] 276 3 [r, level, m]
    let under (k : Nat) (j : Nat) : Bool := decide (j ≤ level.val) && k / 8 ^ (level.val - j) == m
    let s := { s with lostN := smPut (smKeep s.lostN (fun k =>
        !(k.headD 9 == st.val && k.getD 1 99 == r.val && under (k.getD 3 0) (k.getD 2 0)))) [st, r, level, m] true false }
    let x := s.seal st
    let x := { x with repairs := x.repairs.filter (fun w => !(w.r == r.val && under w.node w.level)) }
    let v := smGet s.hwm [st.val, r.val] 0 + 1
    if 2 ^ 56 ≤ v then .next ((s.setSeal st x).sealFreeze st r (if level.val = 0 then 1 else 2) a)
    else
      let w : Sweep := { kind := 4, r := r, pos := m * 64 * 8 ^ level.val, node := m, level := level,
                         stop := min (16384 * size) ((m + 1) * 64 * 8 ^ level.val), val := v }
      .next ((s.setSeal st { x with repairs := x.repairs ++ [w] }).repairPermit st)
  else .next s

/-- COUNTER_CACHE_WRITEBACK (R273, R275): a dirty node's counter in its parent rises, and both copies are written; at most
once in 64 ns. -/
def execCounterCacheWriteback (st : Fin 4) (r : Fin 16) (level : Fin 8) (node : BitVec 24) (s : State) : Ans :=
  let k := [st.val, r.val, level.val, node.toNat]
  if smGet s.ccache k 0 = 2 then
    let last := smGet s.ccT k 0
    let s := if last = 0 then s else s.lapseTo (last + 64)
    let size := s.rd .SEAL_SIZE_MIB [st.val, r.val]
    let v := smGet s.innerC k 0 + 1
    if 2 ^ 56 ≤ v then
      .next (s.sealFreeze st r 2 (nodeAddr size (s.rd .SEAL_MBASE_MIB [st.val, r.val]) (nodeNumber size level node.toNat)))
    else
      let s := ({ s with innerC := smPut s.innerC k v 0, ccache := smPut s.ccache k 1 0,
                         ccT := smPut s.ccT k s.now 0 }).hwmTo st r v
      .next (if level.val + 1 < (treeLevels size).length then s.nodeDirty st r (level.val + 1) (node.toNat / 8) else s)
  else .next s

end Sys2Proof.Machine
end

