-- ==== Sys2Proof/Machine/Security.lean ====
section
/-! DEFINITION. The Lodestar: messages, sessions, anti-rollback counters, lifecycle, the random generator, debug
authorisation and recovery (R431 to R459, R508). -/

namespace Sys2Proof.Machine

/-! ## Messages (R455, R508) -/

/-- The sender has the rights of an administrative function (R455, R482). -/
def Mail.admin (m : Mail) : Bool := m.src == 0 || m.src == 4 || decide (8 ≤ m.src)

/-- The identity of the sender: the function, or 8 for the helm cores (R264, R445). -/
def Mail.who (m : Mail) : Nat := min m.src 8

/-- The message is one of the Lodestar's. -/
def Mail.lodestar (m : Mail) : Bool := mailCode m.req / 256 == 1

/-- The body of a request, after its header. -/
def Mail.body (m : Mail) : List Byte := m.req.drop 8

/-- The number in `k` bytes of a request's body from byte `a`. -/
def Mail.num (m : Mail) (a k : Nat) : Nat := leNat ((m.body.drop a).take k)

/-- A message of the Lodestar is refused: `LS_ERR` records it (R455). -/
def State.lsRefuse (s : State) (m : Mail) (code rst : Nat) : State := (s.lsErr code 3).mailAnswer m rst []

/-- The same with a cause that the manual does not code. -/
def State.lsRefuseOpen (s : State) (m : Mail) (rst : Nat) : State :=
  let (c, s) := s.draw 4
  s.lsRefuse m c rst

/-- The sender of exchange `m` is refused (R508). -/
def State.senderRefused (s : State) (m : Mail) : State :=
  if m.lodestar then s.lsRefuseOpen m 2 else s.mailAnswer m 2 []

/-- The request of exchange `m` has a bad length (R508). -/
def State.badLength (s : State) (m : Mail) : State :=
  if m.lodestar then s.lsRefuse m 4 3 else s.mailAnswer m 3 []

/-- The exchange at place `n` is taken up, if it is of message `code`: sender and length are checked, then it is carried
out. -/
def State.message (s : State) (n code : Nat) (admin : Bool) (len : Nat → Bool) (k : Mail → State → State) : State :=
  match s.mail[n]? with
  | none => s
  | some m =>
    if mailCode m.req = code then
      let s := { s with mail := s.mail.eraseIdx n }
      if admin && !m.admin then s.senderRefused m
      else if !len m.body.length then s.badLength m
      else k m s
    else s

def State.lifecycle (s : State) : Nat := s.rd .LS_STAT_LIFECYCLE []

/-! ## Identity and attestation (R443, R444) -/

/-- The word of a register, of stored fields. -/
def State.word (s : State) (r : Reg) (i : List Nat) : Nat := (r.fields.map fun f => s.rd f i * 2 ^ f.spec.lo).sum

/-- `HUB_PERSONALITY.DIES_IN_SERVICE` (R25). -/
def State.diesUp (s : State) : Nat := (List.range 8).foldl (fun x n => if s.up n then x + 2 ^ n else x) 0

/-- Local time in whole seconds. -/
def State.seconds (s : State) : Nat := s.localNs / 1000000000

/-- Bytes 0 to 255 of the report (R444). -/
def State.report (s : State) (nonce : List Byte) : List Byte :=
  let flags := s.rd .BOOT_STAT_SLOT [] + 2 * s.rd .BOOT_STAT_FALLBACK [] + 256 * s.diesUp
  let serials := (List.range 8).flatMap fun n =>
    natLe (if s.on .HUB_DIE_STATE_PRESENT [n] then (Config.dieSerial n).toNat else 0) 8
  let p1 := natLe 0x54415454 4 ++ natLe 1 2 ++ natLe s.lifecycle 1 ++ natLe (s.rd .LS_DBG_STAT_USED []) 1
  let p2 := natLe (s.word .HUB_ID []) 4 ++ natLe flags 4 ++ natLe Config.serial.toNat 8 ++ nonce
  let p3 := natLe s.fwMeas 48 ++ natLe s.cfgMeas 48
  let p4 := (List.range 8).flatMap (fun c => natLe (s.rd .LS_ARB_VALUE [c]) 1)
  let p5 := natLe (s.rd .LS_SVN_SVN [0]) 4 ++ natLe 0 4 ++ serials
  let p6 := natLe s.seconds 6 ++ natLe (s.rd .SX_STAT_VALID []) 1 ++ natLe 0 1
  p1 ++ p2 ++ p3 ++ p4 ++ p5 ++ p6

/-- A signature by the attestation key of the running firmware (R432, R439): 96 bytes. -/
def State.akSign (s : State) (bs : List Byte) : List Byte := natLe (Config.crypto 3 (natLe s.fwMeas 48 ++ bs)).toNat 96

/-- ATTEST (R444): refused in RETIRED. -/
def execAttest (n : Fin 2048) (s : State) : Ans :=
  .next (s.message n 0x0101 false (· == 48) fun m s =>
    if s.lifecycle = 3 then s.lsRefuse m 5 5
    else
      let r := s.report m.body
      s.mailAnswer m 0 (r ++ s.akSign r))

/-- GET_CERTS (R443): the identity is unusable in RETIRED (R448). -/
def execGetCerts (n : Fin 2048) (s : State) : Ans :=
  .next (s.message n 0x0102 false (· == 0) fun m s =>
    if s.lifecycle = 3 then s.lsRefuse m 5 5
    else s.mailAnswer m 0 (Config.identityCert ++ Config.akCert s.fwMeas))

/-! ## Sessions (R445, R446) -/

/-- The next free session number after the last one assigned, from 1 to 255 in rotation. -/
def State.nextSession (s : State) : Nat :=
  ((List.range 255).map (fun i => (s.lastSes + i) % 255 + 1)).find? (fun v => (smGet s.sessions [v] none).isNone) |>.getD 0

def State.setSession (s : State) (v : Nat) (x : Option LsSession) : State :=
  { s with sessions := smPut s.sessions [v] x none }

/-- SESSION_OPEN (R445): it waits while the random generator gives no output (R447). -/
def execSessionOpen (n : Fin 2048) (s : State) : Ans :=
  if s.on .LS_STAT_TRNG_OK [] = false then .next s
  else .next (s.message n 0x0103 false (· == 96) fun m s =>
    if s.lifecycle = 3 then s.lsRefuse m 5 5
    else if 16 ≤ s.sessions.length then s.lsRefuse m 6 5
    else
      let v := s.nextSession
      let (e, s) := s.draw 384
      let pub := natLe (Config.crypto 1 (natLe e 48)).toNat 96
      let key := (Config.crypto 2 (natLe e 48 ++ m.body)).toNat % 2 ^ 256
      let s := { s.setSession v (some { owner := m.who, used := s.now, key := key }) with lastSes := v }
      s.mailAnswer m 0 (natLe v 4 ++ pub ++ s.akSign (m.body ++ pub ++ natLe v 4)))

/-- The session that a message names, if it is open and the sender's (R445, R455). -/
def State.ownSession (s : State) (m : Mail) : Option (Nat × LsSession) :=
  match smGet s.sessions [m.num 0 4] none with
  | some x => if x.owner = m.who then some (m.num 0 4, x) else none
  | none => none

/-- KEY_DEPOSIT (R446): a later deposit replaces the earlier one. -/
def execKeyDeposit (n : Fin 2048) (s : State) : Ans :=
  .next (s.message n 0x0104 false (· == 108) fun m s =>
    match s.ownSession m with
    | none => s.senderRefused m
    | some (v, x) => (s.setSession v (some { x with used := s.now, deposit := some (m.num 4 104) })).mailAnswer m 0 [])

/-- SESSION_CLOSE (R445). -/
def execSessionClose (n : Fin 2048) (s : State) : Ans :=
  .next (s.message n 0x0105 false (· == 4) fun m s =>
    match s.ownSession m with
    | none => s.senderRefused m
    | some (v, _) => (s.setSession v none).mailAnswer m 0 [])

/-- SESSION_IDLE_TIMEOUT (R445): 60 s without use. -/
def execSessionIdleTimeout (v : Fin 256) (s : State) : Ans :=
  match smGet s.sessions [v.val] none with
  | some x => .next ((s.lapseTo (x.used + 60000000000)).setSession v none)
  | none => .next s

/-! ## Anti-rollback counters (R440 to R442) -/

/-- Counter `c` is advanced to `v`: its fuses are blown; a service notice gives the fuses left (R442, R499). -/
def State.arbAdvance (s : State) (c v : Nat) : State :=
  let s := (s.wr .LS_ARB_VALUE [c] v).wr .LS_ARB_SPENT [c] (if v = 64 then 1 else 0)
  s.notice .LS_ARB [c] 0x1040 c (64 - v) 0 (some 7)

/-- COUNTER_COMMIT (R441, R442): in arrival order. -/
def execCounterCommit (n : Fin 2048) (stop : Option (BitVec 7 × Bool)) (s : State) : Ans :=
  if (s.mail.take n).any (fun m => mailCode m.req = 0x0106) then .next s
  else .next (s.message n 0x0106 true (· == 8) fun m s =>
    let c := m.num 0 4
    let v := m.num 4 4
    let old := s.rd .LS_ARB_VALUE [c]
    if 8 ≤ c then s.lsRefuse m 4 5
    else if v ≤ old then s.mailAnswer m 0 (natLe old 4)
    else if s.rd .LS_SVN_SVN [c] < v then s.lsRefuse m 2 5
    else if 64 < v then s.lsRefuse m 8 5
    else match stop with
      | none => (s.arbAdvance c v).mailAnswer m 0 (natLe v 4)
      | some (x, cut) =>
        let got := max old (min x.toNat (if cut then v else v - 1))
        let s := if old < got then s.arbAdvance c got else s
        if cut then s.powerOn else s.lsRefuse m 7 5)

/-! ## Lifecycle (R448, R453) -/

/-- A lifecycle transition sets both debug levels to 0. -/
def State.lifecycleTo (s : State) (x : Nat) : State :=
  ((s.wr .LS_STAT_LIFECYCLE [] x).wr .LS_DBG_STAT_JTAG_LEVEL [] 0).wr .LS_DBG_STAT_PCIE_LEVEL [] 0

def State.fuse (s : State) (bank item v : Nat) : State := { s with lsFuse := smPut s.lsFuse [bank, item] v 0 }

/-- The owner fuses of a TAKE_OWNERSHIP message of `k` keys: session (4 bytes), keys, wrapped `KEK` (40 bytes), hashes. -/
def State.ownerFuses (s : State) (m : Mail) (k kek : Nat) : State :=
  let s := (List.range k).foldl (fun s i => s.fuse 1 i (m.num (4 + 96 * i) 96)) s
  let s := s.fuse 3 0 kek
  (List.range 3).foldl (fun s l => s.fuse 4 (l + 1) (m.num (44 + 96 * k + 48 * l) 48)) s

/-- The key slots that hold a key. -/
def State.fusedKeys (s : State) : Nat :=
  (List.range 4).foldl (fun x i => if smGet s.lsFuse [1, i] 0 ≠ 0 then x + 2 ^ i else x) 0

/-- Some owner fuse is blown already. -/
def State.partlyOwned (s : State) : Bool := s.lsFuse.any (fun e => [1, 3, 4].contains (e.1.headD 0))

/-- Number of keys in a TAKE_OWNERSHIP request whose body has `len` bytes; 0: none. -/
def ownerKeyCount (len : Nat) : Nat := if (len - 188) % 96 = 0 ∧ 188 < len ∧ len ≤ 572 then (len - 188) / 96 else 0

/-- TAKE_OWNERSHIP (R448). -/
def execTakeOwnership (n : Fin 2048) (kek : Option (BitVec 256)) (how : Fin 3) (s : State) : Ans :=
  .next (s.message n 0x0107 true (fun l => ownerKeyCount l != 0) fun m s =>
    let k := ownerKeyCount m.body.length
    if s.lifecycle ≠ 1 then s.lsRefuse m 5 5
    else match s.ownSession m, kek with
      | some (v, x), some key =>
        let s := s.setSession v (some { x with used := s.now })
        if s.partlyOwned then s.lsRefuse m 7 5
        else
          let s := s.ownerFuses m k key.toNat
          if how = 0 then
            let s := (s.wr .LS_STAT_OWNER_KEYS [] s.fusedKeys).wr .LS_STAT_KEK [] 1
            (s.lifecycleTo 2).mailAnswer m 0 []
          else if how = 1 then s.lsRefuse m 7 5
          else s.powerOn
      | _, _ => s.lsRefuse m 3 5)

/-- REVOKE_OWNER_KEY (R448): signed by a different unrevoked owner key, so that one always remains. -/
def execRevokeOwnerKey (n : Fin 2048) (by_ : Option (Fin 4)) (fuseOk : Bool) (s : State) : Ans :=
  .next (s.message n 0x0108 true (· == 100) fun m s =>
    let k := m.num 0 4
    let keys := s.rd .LS_STAT_OWNER_KEYS []
    if s.lifecycle ≠ 2 then s.lsRefuse m 5 5
    else match by_ with
      | some b =>
        if k < 4 ∧ b.val ≠ k ∧ keys.testBit b then
          (if fuseOk then
            ((s.fuse 2 0 (smGet s.lsFuse [2, 0] 0 ||| 2 ^ k)).setBit .LS_STAT_OWNER_KEYS [] k false).mailAnswer m 0 []
          else s.lsRefuse m 7 5)
        else s.lsRefuse m 1 5
      | none => s.lsRefuse m 1 5)

/-- RETIRE (R448): signed by an unrevoked owner key; a package reset follows. -/
def execRetire (n : Fin 2048) (by_ : Option (Fin 4)) (s : State) : Ans :=
  .next (s.message n 0x0109 true (· == 96) fun m s =>
    if s.lifecycle ≠ 2 then s.lsRefuse m 5 5
    else match by_ with
      | some b =>
        if (s.rd .LS_STAT_OWNER_KEYS []).testBit b then
          (((s.fuse 5 0 1).fuse 3 0 (2 ^ 256 - 1)).lifecycleTo 3).packageReset 0
        else s.lsRefuse m 1 5
      | none => s.lsRefuse m 1 5)

/-! ## Random generator (R447) -/

def State.pelRt (s : State) (p : Nat) : PelRt := smGet s.pel [p] {}
def State.setPel (s : State) (p : Nat) (x : PelRt) : State := { s with pel := smPut s.pel [p] x {} }

/-- TRNG_HEALTH_FAIL. -/
def execTrngHealthFail (s : State) : Ans :=
  if s.on .LS_STAT_TRNG_OK [] then
    .next ({ s.wr .LS_STAT_TRNG_OK [] 0 with trngT := some s.now, trngSaid := false }.raise .LS_STAT [] 447 0)
  else .next s

/-- A challenge is made for a path (R450). -/
def State.giveChallenge (s : State) (p : Nat) : State :=
  let (c, s) := s.draw 384
  (s.setPel p { s.pelRt p with want := false, chal := some c, toRead := natLe c 48, sent := [] }).wr .PEL_AUTH_STAT_BUSY [p] 0

/-- TRNG_HEALTH_RECOVER: the debug challenges that wait are made; the other requests go on with their own commands. -/
def execTrngHealthRecover (s : State) : Ans :=
  if s.trngT.isSome then
    let s := { s.wr .LS_STAT_TRNG_OK [] 1 with trngT := none, trngSaid := false }
    .next ([0, 1].foldl (fun s p => if (s.pelRt p).want then s.giveChallenge p else s) s)
  else .next s

/-- TRNG_WAIT_TIMEOUT: a key generation that has waited 100 ms fails; after 1 s `LS_ERR` records the failure. -/
def execTrngWaitTimeout (st : Option (Fin 4)) (s : State) : Ans :=
  match s.trngT with
  | none => .next s
  | some t =>
    match st with
    | some st =>
      match smGet s.keyOp [st.val] [] with
      | _ :: 1 :: t0 :: _ =>
        let s := s.lapseTo (max t t0 + 100000000)
        .next (({ s with keyOp := smPut s.keyOp [st.val] [] [] }.wr .SEAL_KEY_BUSY [st] 0).wr .SEAL_KEY_FAIL [st] 1)
      | _ => .next s
    | none =>
      if s.trngSaid then .next s
      else
        let (x, s) := (s.lapseTo (t + 1000000000)).draw 3
        .next ({ s with trngSaid := true }.lsErr 6 x)

/-! ## Debug authorisation (R449 to R453) -/

def pelPath : PelSrc → Nat
  | .jtag => 0
  | .pcie _ => 1
def pelWriter : PelSrc → Writer
  | .jtag => .pelorus 0
  | .pcie f => .fn f

/-- The path's access block is reached: over PCIe by the administrative functions only (R483). -/
def pelReaches : PelSrc → Bool
  | .jtag => true
  | .pcie f => f.val == 0 || f.val == 4

/-- A write of the access block. -/
def State.pelBlock (s : State) (p : PelSrc) (r : Reg) (i : List Nat) (v : Nat) (k : State → State) : State :=
  if s.mute (pelWriter p) then s else if pelReaches p then k s else s.drop (pelWriter p) r i v

/-- A write of `PEL_AUTH`: `LEVEL` is stored; a command is dropped while the Lodestar works for the path. -/
def State.authCmd (s : State) (p : PelSrc) (l cmd : Nat) (k : State → State) : State :=
  s.pelBlock p .PEL_AUTH [(pelPath p)] (cmd + 16 * l) fun s =>
    let s := s.wr .PEL_AUTH_LEVEL [(pelPath p)] l
    if s.on .PEL_AUTH_STAT_BUSY [(pelPath p)] then s.drop (pelWriter p) .PEL_AUTH [(pelPath p)] (cmd + 16 * l) else k s

/-- DEBUG_CHALLENGE (R450): it waits for the random generator (R447). -/
def execDebugChallenge (p : PelSrc) (l : BitVec 2) (s : State) : Ans :=
  .next (s.authCmd p l.toNat 1 fun s =>
    if s.on .LS_STAT_TRNG_OK [] then s.giveChallenge (pelPath p)
    else (s.setPel (pelPath p) { s.pelRt (pelPath p) with want := true }).wr .PEL_AUTH_STAT_BUSY [(pelPath p)] 1)

/-- The level field of a path. -/
def levelFld (p : Nat) : Fld := if p = 0 then .LS_DBG_STAT_JTAG_LEVEL else .LS_DBG_STAT_PCIE_LEVEL

/-- The seconds that `f` consecutive failures cost (R452). -/
def failWait (f : Nat) : Nat := if f = 0 then 0 else min 4096 (2 ^ (f - 1))

/-- What an attempt has used up: its challenge and the bytes submitted (R450). -/
def State.attemptOver (s : State) (p : Nat) (ok : Bool) : State :=
  (s.setPel p { s.pelRt p with chal := none, toRead := [], sent := [] }).wr .PEL_AUTH_STAT_OK [p] (if ok then 1 else 0)

/-- A failed attempt (R452): counted, recorded with a cause (none: the manual codes none), and the wait begins. -/
def State.attemptFails (s : State) (p : Nat) (code : Option Nat) : State :=
  let s := s.bump .LS_DBG_STAT_FAILS []
  let s := { s with dbgWait := s.now + failWait (s.rd .LS_DBG_STAT_FAILS []) * 1000000000 }
  let s := match code with
    | some c => s.lsErr c 2
    | none =>
      let (c, s) := s.draw 4
      s.lsErr c 2
  s.attemptOver p false

/-- A successful attempt (R449, R452, R453). -/
def State.attemptWins (s : State) (p l : Nat) : State :=
  (((s.wr (levelFld p) [] l).setBit .LS_DBG_STAT_USED [] (l - 1) true).wr .LS_DBG_STAT_FAILS [] 0).attemptOver p true

/-- An attempt to raise a path to level `l`: at or below its level it changes nothing; while a wait runs it is refused. -/
def State.attempt (s : State) (p l : Nat) (judge : State → Option (Option Nat)) : State :=
  if l ≤ s.pelLevel p then s
  else if s.now < s.dbgWait then s.attemptOver p false
  else match judge s with
    | none => s.attemptWins p l
    | some c => s.attemptFails p c

/-- The verdict on a debug certificate and its signature (R449, R450): none is good, else the `LS_ERR` code. -/
def State.certJudge (s : State) (p l : Nat) (issuerSig subjectSig : Bool) : Option (Option Nat) :=
  let x := s.pelRt p
  let c := leNat x.sent
  let issuer := hByte c 5
  let serial := bitsOf c 64 64
  let vendor := decide (issuer ≤ 1)
  let owner := decide (2 ≤ issuer ∧ issuer ≤ 5)
  let allowed :=
    if s.lifecycle = 2 then (owner && decide (l ≤ 2)) || (vendor && l == 3 && serial == Config.serial.toNat) else vendor
  let key := if vendor then (s.rd .LS_STAT_VKEYS []).testBit issuer else (s.rd .LS_STAT_OWNER_KEYS []).testBit (issuer - 2)
  if x.sent.length ≠ 304 ∨ bitsOf c 0 32 ≠ 0x54444243 ∨ bitsOf c 48 16 ≠ 0 then some (some 4)
  else if vendor = false ∧ owner = false then some (some 1)
  else if allowed = false then some (some 5)
  else if key = false ∨ issuerSig = false then some (some 1)
  else if hByte c 4 < l ∨ (serial ≠ 0 ∧ serial ≠ Config.serial.toNat) then some none
  else if x.chal.isNone ∨ subjectSig = false then some (some 1)
  else none

/-- DEBUG_CERT_SUBMIT (R449, R450, R452). -/
def execDebugCertSubmit (p : PelSrc) (l : BitVec 2) (issuerSig subjectSig : Bool) (s : State) : Ans :=
  .next (s.authCmd p l.toNat 2 fun s =>
    s.attempt (pelPath p) l.toNat fun s => s.certJudge (pelPath p) l.toNat issuerSig subjectSig)

/-- The verdict on a password (R449, R451). -/
def State.passwordJudge (s : State) (p l : Nat) : Option (Option Nat) :=
  let x := s.pelRt p
  let h := smGet s.lsFuse [4, l] 0
  if s.lifecycle = 3 then some (some 5)
  else if x.sent.length ≠ 32 then some (some 4)
  else if h ≠ 0 ∧ (Config.sha384 x.sent).toNat = h then none
  else some none

/-- DEBUG_PASSWORD_SUBMIT (R449, R451, R452). -/
def execDebugPasswordSubmit (p : PelSrc) (l : BitVec 2) (s : State) : Ans :=
  .next (s.authCmd p l.toNat 3 fun s => s.attempt (pelPath p) l.toNat fun s => s.passwordJudge (pelPath p) l.toNat)

/-! ## Recovery (R406, R454, R459) -/

/-- Writers of the recovery registers: function 0 of P0 and the Pelorus port. -/
def recoveryWriter : Writer → Bool
  | .fn f => f.val == 0
  | .pelorus _ => true
  | _ => false

/-- A write of a recovery register: outside recovery it is dropped and logged. -/
def State.recoveryReg (s : State) (w : Writer) (r : Reg) (v : Nat) (k : State → State) : State :=
  s.reach w r [] v fun s => if s.rd .BOOT_STAT_STAGE [] = 15 ∧ recoveryWriter w then k s else s.drop w r [] v

/-- A copy of the directory is written with a new `CRC` (R404): `d` holds bytes 0 to 4,091. -/
def State.dirWrite (s : State) (c d : Nat) : State :=
  let x := d % 2 ^ (8 * 4092)
  let bs := natLe (x + crc32 x (8 * 4092) * 2 ^ (8 * 4092)) 4096
  { s with flash := memStore s.flash (4096 * c) bs 0xFF }

/-- The copy with the lower `SEQ`, or an invalid one, is written, with the higher `SEQ` plus 1 (R509); `d` gives the bytes
from 8 on. -/
def State.dirNext (s : State) (d : Nat) : State :=
  match s.dirPick with
  | none => s.dirWrite 0 (d / 2 ^ 64 * 2 ^ 64 + 0x54444952 + 2 ^ 32)
  | some c => s.dirWrite (1 - c) (d / 2 ^ 64 * 2 ^ 64 + 0x54444952 + (dirSEQ (s.dirCopy c) + 1) % 2 ^ 32 * 2 ^ 32)

/-- Where recovery places the firmware of a slot. -/
def recoveryBase (k : Nat) : Nat := if k = 0 then 0x00100000 else 0x04200000

/-- The directory that recovery writes where no copy is valid. -/
def recoveryDir (k : Nat) : Nat :=
  0x54444952 + 2 ^ 32 + k * 2 ^ 64 + recoveryBase 0 * 2 ^ 128 + recoveryBase 1 * 2 ^ 256

/-- The directory in use. -/
def State.dirNow (s : State) : Nat :=
  match s.dirPick with
  | some c => s.dirCopy c
  | none => 0

/-- The flash offset of a slot's firmware: as the directory has it, or where recovery places it. -/
def State.slotBase (s : State) (k : Nat) : Nat :=
  let (off, _) := dirFw s.dirNow k
  if off = 0 then recoveryBase k else off

/-- The recovery fails (R454). -/
def State.recoveryFails (s : State) (err : Nat) : State := (s.wr .LS_RCV_STAT_STATE [] 3).wr .LS_RCV_STAT_ERR [] err

/-- RECOVERY_BEGIN (R454). -/
def execRecoveryBegin (w : Writer) (slot : Bool) (len : BitVec 28) (s : State) : Ans :=
  .next (s.recoveryReg w .LS_RCV_CTL (1 + 4 * slot.toNat + 16 * len.toNat) fun s =>
    let s := (s.wr .LS_RCV_CTL_SLOT [] slot.toNat).wr .LS_RCV_CTL_LEN [] len.toNat
    let n := 16 * len.toNat
    if n = 0 ∨ fwMax + 256 < n then s.recoveryFails 3
    else
      let s := if s.dirPick.isNone then s.dirWrite 0 (recoveryDir slot.toNat) else s
      let s := { s.wr .LS_RCV_STAT_STATE [] 1 with rcvN := 0 }
      (s.wr .LS_RCV_STAT_ERR [] 0).wr .LS_RCV_STAT_BYTES [] 0)

/-- RECOVERY_DATA (R454): while receiving, up to the length. -/
def execRecoveryData (w : Writer) (v : BitVec 32) (s : State) : Ans :=
  .next (s.recoveryReg w .LS_RCV_DATA v.toNat fun s =>
    if s.rd .LS_RCV_STAT_STATE [] = 1 ∧ s.rcvN < 16 * s.rd .LS_RCV_CTL_LEN [] then
      let a := s.slotBase (s.rd .LS_RCV_CTL_SLOT []) + s.rcvN
      let s := { s with flash := memStore s.flash a (natLe v.toNat 4) 0xFF, rcvN := s.rcvN + 4 }
      s.wr .LS_RCV_STAT_BYTES [] (s.rcvN / 16)
    else s)

/-- The directory with the offset and length of a slot's firmware replaced. -/
def dirPutFw (d k off len : Nat) : Nat :=
  let lo := 8 * (16 + 16 * k)
  d % 2 ^ lo + off % 2 ^ 32 * 2 ^ lo + len % 2 ^ 32 * 2 ^ (lo + 32) + d / 2 ^ (lo + 64) * 2 ^ (lo + 64)

/-- RECOVERY_END (R454): the image is judged as firmware; a good one is entered in the directory and the device starts
again. -/
def execRecoveryEnd (w : Writer) (sig flashOk : Bool) (s : State) : Ans :=
  .next (s.recoveryReg w .LS_RCV_CTL (2 + s.wordWith .LS_RCV_CTL [] []) fun s =>
    if s.rd .LS_RCV_STAT_STATE [] ≠ 1 then s
    else
      let k := s.rd .LS_RCV_CTL_SLOT []
      let n := 16 * s.rd .LS_RCV_CTL_LEN []
      let base := s.slotBase k
      let len := 256 + hBODY (leNat (memBytes s.flash base 256 0xFF))
      if flashOk = false then s.recoveryFails 4
      else if s.rcvN ≠ n ∨ len ≤ n - 16 ∨ n < len then ({ s.imageBad 4 4 with rcvN := 0 } : State).recoveryFails 3
      else
        let c := s.fwCheck base len sig
        if c = 0 then (s.dirNext (dirPutFw s.dirNow k base len)).packageReset 0
        else if c = 2 then (s.imageBad c 4).recoveryFails 2
        else if c = 4 then
          let (e, s) := s.draw 4
          (s.imageBad c 4).recoveryFails e
        else (s.imageBad c 4).recoveryFails 1)

end Sys2Proof.Machine
end

