-- ==== Sys2Proof/Machine/Service.lean ====
section
/-! DEFINITION. Configuration scrubbing, and the messages that Dvorkenor answers: journal, telemetry, repair record, flash
and directory (R500 to R502, R508 to R510). -/

namespace Sys2Proof.Machine

/-! ## Configuration scrubbing (R500 to R502) -/

def State.scrubRt (s : State) (n : Nat) : ScrubRt := smGet s.scrub [n] {}
def State.setScrub (s : State) (n : Nat) (x : ScrubRt) : State := { s with scrub := smPut s.scrub [n] x {} }

/-- Frames of a sector (R50). -/
def sectorFrames : Nat := 4846

/-- Kind, column and minor of frame `i` of a sector, in ascending order of kind, column and minor (R50). -/
def frameOf (i : Nat) : Nat × Nat × Nat :=
  if i < 3840 then (0, i / 128, i % 128)
  else if i < 4158 then (1, (i - 3840) / 106, (i - 3840) % 106)
  else if i < 4742 then (2, 0, i - 4158)
  else if i < 4814 then (3, (i - 4742) / 24, (i - 4742) % 24)
  else (4, 0, i - 4814)

/-- The frame address of frame `i` of sector `k` of die `n` (R49). -/
def frameAddr (n k i : Nat) : Nat :=
  let (kind, col, minor) := frameOf i
  minor + col * 2 ^ 10 + kind * 2 ^ 15 + k % 8 * 2 ^ 18 + k / 8 * 2 ^ 21 + n * 2 ^ 24

/-- Sectors that a pass reads: those in `STATE` 2 or 3. -/
def State.scrubbable (s : State) (n k : Nat) : Bool := s.rd .SEC_STATUS_STATE [n, k] == 2 || s.rd .SEC_STATUS_STATE [n, k] == 3

/-- The first such sector from `k` on. -/
def State.scrubNext (s : State) (n k : Nat) : Option Nat := ((List.range 40).drop k).find? (fun k => s.scrubbable n k)

/-- The pass of die `n` goes to a sector, or ends (R500). -/
def State.scrubGo (s : State) (n k : Nat) : State :=
  let x := s.scrubRt n
  match s.scrubNext n k with
  | some k =>
    (s.setScrub n { x with sector := k, frame := 0, st0 := s.rd .SEC_STATUS_STATE [n, k] }).wr .SCRUB_STAT_SECTOR [n] k
  | none =>
    let due := max s.now (x.t0 + s.rd .SCRUB_CTL_PERIOD [n] * 1000000000)
    ((s.setScrub n { due := due }).wr .SCRUB_STAT_ACTIVE [n] 0).wr .SCRUB_STAT_DONE [n] 1

/-- A pass begins. -/
def State.scrubStart (s : State) (n : Nat) : State :=
  let k := ((List.range 40).filter (fun k => s.scrubbable n k)).length
  ((s.setScrub n { on := true, t0 := s.now, total := sectorFrames * k }).wr .SCRUB_STAT_ACTIVE [n] 1).scrubGo n 0

/-- What the scrub finds in a frame (R501): counts, the treatment of a column that still fails (R58, R59), and of an
uncorrectable word; `slow`: the period of the slowest tree running in the sector, for a migration (R61). -/
def State.scrubFound (s : State) (n k a cor unc : Nat) (fails : Bool) (slow : Nat) : State :=
  let s := (s.bump .SCRUB_COR_CNT_COUNT [n] cor).bump .SCRUB_UNC_CNT_COUNT [n] unc
  let s := if fails ∧ 0 < cor ∧ farKIND a = 0 then
      s.columnDefect n k (physColumn (s.rd .SEC_COLMAP_ACTIVE [n, k]) (farCOL a)) slow
    else s
  if unc = 0 then s
  else
    let s := if s.on .SCRUB_CTL_UNC_ACT [n] ∧ s.scrubbable n k then
        ((s.sectorReset n k).wr .SEC_STATUS_STATE [n, k] 0).cfgBlank n k
      else s
    s.raiseFixed .SCRUB_CTL [n] 0x0121 3 (.details [k, a])

/-- CONFIG_SCRUB_FRAME (R500 to R502): a pass begins when it is due, or the next frame of the pass is read, 128 ns at its
place in the period; a sector taken by a load, a migration or a reset is left. -/
def execConfigScrubFrame (n : Fin 8) (cor unc : Fin 129) (fails : Bool) (slow : Nat) (s : State) : Ans :=
  let x := s.scrubRt n
  let period := s.rd .SCRUB_CTL_PERIOD [n]
  if s.up n = false ∨ s.rd .PWR_DIE_STAT_PSTATE [n] = 2 then .next s
  else if x.on = false then
    if period = 0 then .next s else .next ((s.lapseTo x.due).scrubStart n)
  else
    let k := x.sector
    if s.rd .SEC_STATUS_STATE [n, k] ≠ x.st0 ∨ (s.sector n k).mig ≠ 0 then .next (s.scrubGo n (k + 1))
    else
      let s := (s.lapseTo (x.t0 + period * 1000000000 * x.done / x.total)).lapse 128
      let s := s.scrubFound n k (frameAddr n k x.frame) cor unc fails slow
      let s := s.setScrub n { x with frame := x.frame + 1, done := x.done + 1 }
      .next (if x.frame + 1 < sectorFrames ∧ s.rd .SEC_STATUS_STATE [n, k] = x.st0 then s else s.scrubGo n (k + 1))

/-- SCRUB_NOW (R510): a pass starts at once on a die in service. -/
def execScrubNow (n : Fin 2048) (s : State) : Ans :=
  .next (s.message n 0x0207 true (· == 4) fun m s =>
    let d := m.num 0 4
    if d < 8 ∧ s.up d then (if (s.scrubRt d).on then s else s.scrubStart d).mailAnswer m 0 [] else s.mailAnswer m 5 [])

/-! ## Journal, telemetry, repair record (R498, R510) -/

/-- EVT_JOURNAL_READ: up to 127 records from an index, which counts from the oldest record held. -/
def execEvtJournalRead (n : Fin 2048) (s : State) : Ans :=
  .next (s.message n 0x0201 false (· == 4) fun m s =>
    s.mailAnswer m 0 (((s.journal.reverse.drop (m.num 0 4)).take 127).flatMap LogRec.bytes))

/-- `TEL_STAT`, `TEL_LIFE` and `TEL_HOURS` of a site. -/
def State.telemetry (s : State) (n : Nat) : List Byte :=
  natLe (s.word .TEL_STAT [n]) 4 ++ natLe (s.word .TEL_LIFE [n]) 4 ++
    (List.range 4).flatMap (fun b => natLe (s.word .TEL_HOURS [n, b]) 4)

/-- TELEMETRY_READ: the dies in order, then the hub. -/
def execTelemetryRead (n : Fin 2048) (s : State) : Ans :=
  .next (s.message n 0x0202 false (· == 0) fun m s => s.mailAnswer m 0 ((List.range 9).flatMap s.telemetry))

/-- REPAIR_READ: the die's entries, oldest first. -/
def execRepairRead (n : Fin 2048) (s : State) : Ans :=
  .next (s.message n 0x0203 false (· == 4) fun m s =>
    let d := m.num 0 4
    s.mailAnswer m 0 ((s.repairs.reverse.filter (fun e => e.headD 9 == d)).flatMap Config.repairEntry))

/-! ## Flash messages (R509, R510, R462) -/

/-- A flash message. -/
def Mail.flash (m : Mail) : Bool := [0x0204, 0x0205, 0x0206].contains (mailCode m.req)

/-- [a, a + n) meets the firmware region of the slot booted last. -/
def State.bootedRegion (s : State) (a n : Nat) : Bool :=
  let (off, len) := dirFw s.dirNow (s.rd .BOOT_STAT_SLOT [])
  decide (a < off + len ∧ off < a + n)

/-- A flash message is taken up: in arrival order, when no operation is in progress; a ninth that would wait receives 4. -/
def State.flashMessage (s : State) (n code : Nat) (len : Nat → Bool) (k : Mail → State → State) : State :=
  match s.mail[n]? with
  | none => s
  | some m =>
    let running (x : Mail) : Bool := s.flashOp.any (fun o => o.m == x)
    if mailCode m.req ≠ code ∨ running m then s
    else if m.admin = false then ({ s with mail := s.mail.eraseIdx n } : State).mailAnswer m 2 []
    else if len m.body.length = false then ({ s with mail := s.mail.eraseIdx n } : State).mailAnswer m 3 []
    else
      let ahead := ((s.mail.take n).filter (fun x => x.flash && !running x)).length
      if s.flashOp.isNone ∧ ahead = 0 then k m s
      else if 8 ≤ ahead then ({ s with mail := s.mail.eraseIdx n } : State).mailAnswer m 4 []
      else s

/-- The exchange ends with a reply, if it still awaits one. -/
def State.flashReply (s : State) (m : Mail) (rst : Nat) (body : List Byte) : State :=
  if s.mail.contains m then ({ s with mail := s.mail.erase m } : State).mailAnswer m rst body else s

/-- An erase sector of the flash: the alignment of R510. -/
def flashSector : Nat := 65536

/-- FLASH_ERASE (R509, R510). -/
def execFlashErase (n : Fin 2048) (s : State) : Ans :=
  .next (s.flashMessage n 0x0204 (· == 8) fun m s =>
    let a := m.num 0 4
    let len := m.num 4 4
    if a % flashSector ≠ 0 ∨ len % flashSector ≠ 0 ∨ len = 0 then s.flashReply m 5 []
    else if s.bootedRegion a len then s.flashReply m 2 []
    else { s with flashOp := some { m := m, kind := 0, at_ := a, left := len / flashSector } })

/-- FLASH_WRITE (R509, R510). -/
def execFlashWrite (n : Fin 2048) (s : State) : Ans :=
  .next (s.flashMessage n 0x0205 (fun l => decide (4 < l ∧ l ≤ 4084)) fun m s =>
    let a := m.num 0 4
    let bs := m.body.drop 4
    if s.bootedRegion a bs.length then s.flashReply m 2 []
    else { s with flashOp := some { m := m, kind := 1, at_ := a, bytes := bs } })

/-- DIR_WRITE (R404, R509, R510): bytes 8 to 47 of a directory. -/
def execDirWrite (n : Fin 2048) (s : State) : Ans :=
  .next (s.flashMessage n 0x0206 (· == 40) fun m s =>
    { s with flashOp := some { m := m, kind := 2, bytes := m.body } })

/-- Bytes are programmed: into erased flash they are as sent; what becomes of a byte that was not erased is open. -/
def State.program (s : State) (a : Nat) : List Byte → State
  | [] => s
  | b :: r =>
    let old := memGet s.flash a 0xFF
    let (v, s) := if old = 0xFF then (b, s) else
      let (x, s) := s.draw 8
      (BitVec.ofNat 8 x, s)
    ({ s with flash := memPut s.flash a v 0xFF } : State).program (a + 1) r

/-- An erase sector reads all ones (R509). -/
def State.eraseAt (s : State) (a : Nat) : State :=
  { s with flash := s.flash.filter (fun c => !(decide (a ≤ c.1) && decide (c.1 < a + flashSector))) }

/-- The lines of erase sectors that a finished operation has touched leave the flash cache and the helm cores' L1 caches
(R462); `a` and `n`: its first byte and its length. -/
def State.flashForget (s : State) (a n : Nat) : State :=
  let hit (line : Nat) : Bool :=
    match placeOf (line * 64) with
    | .flash off => decide (a / flashSector ≤ off / flashSector ∧ off / flashSector ≤ (a + n - 1) / flashSector)
    | _ => false
  { s with
    flashC := smKeep s.flashC (fun i => !hit (i.headD 0))
    helmL1 := smKeep s.helmL1 (fun i => !hit (i.getD 2 0)) }

/-- FLASH_SECTOR_REWRITTEN (R462, R509): the program or erase under way ends, source 194 is raised, and the exchange gets
its reply with the last one. -/
def execFlashSectorRewritten (ok : Bool) (s : State) : Ans :=
  match s.flashOp with
  | none => .next s
  | some o =>
    let s := (s.flashForget (if o.kind = 2 then 0 else o.at_) (if o.kind = 2 then 8192 else max 1 o.bytes.length)).irq 194
    if ok = false then .next (({ s with flashOp := none } : State).flashReply o.m 5 [])
    else if o.kind = 0 then
      let s := s.eraseAt o.at_
      if 1 < o.left then .next { s with flashOp := some { o with at_ := o.at_ + flashSector, left := o.left - 1 } }
      else .next (({ s with flashOp := none } : State).flashReply o.m 0 [])
    else if o.kind = 1 then .next ((({ s with flashOp := none } : State).program o.at_ o.bytes).flashReply o.m 0 [])
    else
      let s := ({ s with flashOp := none } : State).dirNext (leNat o.bytes * 2 ^ 64)
      .next (s.flashReply o.m 0 (natLe (dirSEQ s.dirNow) 4))

end Sys2Proof.Machine
end

