-- ==== Sys2Proof/Machine/View.lean ====
section
/-! DEFINITION. What the fields read that are not stored but computed from the rest of the state: die states, levels,
counts, latched low words. `State.view` is what a read of any field returns before its access type acts. -/

namespace Sys2Proof.Machine

/-- One bit. -/
def bit (b : Bool) : Nat := if b then 1 else 0

/-- The two ends of ring link `l` carry traffic. -/
def State.ringUp (s : State) (l : Nat) : Bool :=
  (linkEnds l).all fun p => [2, 3].contains (s.rd .GK_STAT_STATE [p.1, p.2])

/-- A sector of die `n` holds a user configuration (R24). -/
def State.cfgLoaded (s : State) (n : Nat) : Bool :=
  (List.range 40).any fun k => [2, 3, 4].contains (s.rd .SEC_STATUS_STATE [n, k])

/-- The minimum service set has not come up yet: recovery, or a start before the end of stage 5 (R25, R401). -/
def State.starting (s : State) : Bool :=
  let x := s.rd .BOOT_STAT_STAGE []
  x == 15 || (!s.warm && (decide (x < 5) || (x == 5 && s.releasing)))

/-- `HUB_PERSONALITY.MODE` (R25, R28, R425). -/
def State.mode (s : State) : Nat :=
  if s.starting then 0
  else if s.diesUp = 0 then 3
  else if (List.range 8).any s.cfgLoaded then 2
  else 1

/-- The configuration engine of die `n` is busy (R55). -/
def State.cfgBusy (s : State) (n : Nat) : Bool :=
  (decide (3 ≤ s.cfgLoad.phase) && (hDIES s.cfgLoad.hdr).testBit n) || s.migrating n

/-- Units that engine `e` holds, and whether it waits for a permit (R138). -/
def State.engHeld (s : State) (e : Nat) : Nat :=
  unitSum ((s.gov (engDie e)).held.filter fun p => p.is 1 [e] || p.is 2 [e])
def State.engWaits (s : State) (e : Nat) : Bool := s.waits (engDie e) 1 [e] || s.waits (engDie e) 2 [e]

/-- The head of a transmit-stamp queue (R361). -/
def State.txHead (s : State) (p : Nat) : TxStamp := (s.txQueue p).headD { seq := 0, type := 0, stamp := 0 }

/-- The head of a governor's queue (R400). -/
def State.headPermit (s : State) (g : Nat) : Permit := (s.gov g).queue.headD { op := 0, who := [], units := 0, t := 0 }

abbrev Views := List (Fld × (State → List Nat → Nat))

/-- First and second index. -/
def ix0 (i : List Nat) : Nat := i.headD 0
def ix1 (i : List Nat) : Nat := i.getD 1 0

def hubViews : Views := [
  (.HUB_DIE_STATE_HBM_OK, fun s i => bit (ix0 i % 2 == 0 && s.stackOk (ix0 i / 2))),
  (.HUB_DIE_STATE_SPOKE_OK, fun s i => bit (s.spokeUp (ix0 i))),
  (.HUB_DIE_STATE_RING_CW_OK, fun s i => bit (s.ringUp (ix0 i))),
  (.HUB_DIE_STATE_RING_CCW_OK, fun s i => bit (s.ringUp ((ix0 i + 7) % 8))),
  (.HUB_DIE_STATE_CFG_LOADED, fun s i => bit (s.cfgLoaded (ix0 i))),
  (.HUB_PERSONALITY_MODE, fun s _ => s.mode),
  (.HUB_PERSONALITY_DIES_IN_SERVICE, fun s _ => s.diesUp),
  (.HUB_PERSONALITY_STACKS_OK, fun s _ => (List.range 4).foldl (fun x st => x + bit (s.stackOk st) * 2 ^ st) 0),
  (.CFG_STATUS_BUSY, fun s i => bit (s.cfgBusy (ix0 i))),
  (.PG_STAT_HELD, fun s i => min 255 (s.heldUnits (ix0 i))),
  (.PG_STAT_QUEUE, fun s i => min 255 (s.gov (ix0 i)).queue.length),
  (.PG_STAT_HEAD_UNITS, fun s i => (s.headPermit (ix0 i)).units),
  (.PG_STAT_HEAD_OP, fun s i => (s.headPermit (ix0 i)).op)]

def engViews : Views := [
  (.ENG_STATUS_LDEPTH, fun s i => (s.engine (ix0 i)).lstack.length),
  (.ENG_STATUS_CDEPTH, fun s i => (s.engine (ix0 i)).cstack.length),
  (.ENG_STRM_CTL_LEVEL, fun s i => (s.engine (ix0 i)).buf.length * 64 / 4096),
  (.ENG_STEPS_LO_COUNT, fun s i => (s.engine (ix0 i)).steps % 2 ^ 32),
  (.ENG_PERMIT_HELD, fun s i => s.engHeld (ix0 i)),
  (.ENG_PERMIT_WAIT, fun s i => bit (s.engWaits (ix0 i))),
  (.FC_STATUS_CQ_LEVEL, fun s i => (s.engine (ix0 i)).cq.length),
  (.FC_STATUS_FIFO_LEVEL, fun s i => (s.engine (ix0 i)).ff.length),
  (.FC_STATUS_LANE_CFG, fun s i => bit (s.dest (ix0 i) == 2 && s.laneCfgBad (ix0 i))),
  (.FC_CMP_LO_COUNT, fun s i => (s.engine (ix0 i)).cmp % 2 ^ 32)]

def dieViews : Views := [
  (.NOC_RTR_PORT_EXISTS, fun _ i => rtrPorts (ix0 i) (ix1 i)),
  (.NOC_NI_ID_ID, fun _ i => (niId (ix0 i) (ix1 i)).getD 0),
  (.NOC_NI_ID_ASSIGNED, fun _ i => bit (niId (ix0 i) (ix1 i)).isSome),
  (.GK_CTL_SPINE, fun s i =>
    if ix0 i = 8 ∨ ix1 i = 2 then 0 else if ix1 i = 0 then s.rd .GK_CTL_SPINE [(ix0 i + 7) % 8, 1] else s.rd .GK_CTL_SPINE i),
  (.RKN_STAT_NEAR, fun s i => s.rknNear (ix0 i) (ix1 i)),
  (.SEAL_INTEG_MIB, fun s i => s.integMib (ix0 i)),
  (.SEAL_HWM_LO_HWM, fun s i => smGet s.hwm [ix0 i, ix1 i] 0 % 2 ^ 32),
  (.CL_STAT_OWNED, fun s i => bit (s.laneOwner (ix0 i)).isSome),
  (.CL_STAT_FPORT_DOWN, fun s i => bit (!s.portUp (ix0 i))),
  (.CL_BIT_LO_COUNT, fun s i => (s.laneRt (ix0 i)).bits % 2 ^ 32),
  (.TR_BIT_LO_COUNT, fun s i => (s.trunkRt (ix0 i)).bits % 2 ^ 32)]

def hostViews : Views := [
  (.HIF_QP_STAT_INFLIGHT, fun s i => (s.qp (ix0 i)).jobs.length),
  (.SX_STAT_HOLDOVER, fun s _ => bit (s.clocksUp && (List.range 2).all fun p => s.rd .SX_PORT_STAT_PSTATE [p] != 9)),
  (.SX_STAT_SPINE_OK, fun s _ => bit s.clocksUp),  -- R364
  (.SX_TIME_FRAC_FRAC, fun s _ => tFRAC s.time16),
  (.SX_PORT_STAT_TXQ_LEVEL, fun s i => (s.txQueue (ix0 i)).length),
  (.SX_TXQ_ID_SEQ, fun s i => (s.txHead (ix0 i)).seq),
  (.SX_TXQ_ID_TYPE, fun s i => (s.txHead (ix0 i)).type),
  (.SX_TXQ_ID_VALID, fun s i => bit (!(s.txQueue (ix0 i)).isEmpty)),
  (.SX_TXQ_FRAC_FRAC, fun s i => tFRAC (s.txHead (ix0 i)).stamp),
  (.SX_TXQ_NS_NS, fun s i => tNS (s.txHead (ix0 i)).stamp),
  (.SX_TXQ_SL_SEC, fun s i => tSEC (s.txHead (ix0 i)).stamp % 2 ^ 32),
  (.SX_TXQ_SH_SEC, fun s i => tSEC (s.txHead (ix0 i)).stamp / 2 ^ 32),
  (.LS_DBG_STAT_WAIT, fun s _ => ceilDiv (s.dbgWait - s.now) 1000000000),
  (.HELM_CORE_STAT_WFI, fun s i => if s.coreState (ix0 i) = 2 then (Config.freeValue s.draws).toNat % 2 else 0),
  (.HELM_WDT_CNT_US, fun s i => s.wdCount (ix0 i) / 1000),
  (.HELM_IC_SRC_LEVEL, fun _ i => bit (decide (256 ≤ ix0 i))),
  (.HELM_IC_PEND_BITS, fun s i => (List.range 32).foldl (fun x b => x + bit (s.pendingSrc (32 * ix0 i + b)) * 2 ^ b) 0),
  (.HELM_IC_CLAIM_SRC, fun s i => s.claimable (ix0 i)),
  (.PEL_AUTH_DATA_DATA, fun s i => leNat ((s.pelRt (ix0 i)).toRead.take 4))]

/-- What a field holds: computed where the list has it, stored otherwise. -/
def State.view (s : State) (f : Fld) (i : List Nat) : Nat :=
  match (hubViews ++ engViews ++ dieViews ++ hostViews).find? (fun p => p.1 == f) with
  | some p => p.2 s i % 2 ^ f.spec.width
  | none => s.rd f i

/-- The value of a register with no side effect; write-only fields read 0 (R3, R487). -/
def State.peekReg (s : State) (r : Reg) (i : List Nat) : Nat :=
  (r.fields.map fun f => if f.spec.acc = .wo then 0 else s.view f i * 2 ^ f.spec.lo).sum

end Sys2Proof.Machine
end

