-- ==== Sys2Proof/Machine/Access.lean ====
section
/-! DEFINITION. Register reads (R2 to R5, R23, and the latches): REGISTER reads with their effects, the low-word reads,
RC_FIELD_READ. The data read stands in `answer`. -/

namespace Sys2Proof.Machine

/-- A spoke end has the side layout without `GK_ROLE`, `GK_ARB[1]` and `GK_XERR_CNT`, and 32 groups (R228). -/
def allocated (r : Reg) (i : List Nat) : Bool :=
  if r.place.1 = .gk ∧ (ix0 i = 8 ∨ ix1 i = 2) then
    if r = .GK_ROLE ∨ r = .GK_XERR_CNT then false
    else if r = .GK_ARB then i.getD 2 0 == 0
    else decide (i.getD 2 0 < 32)
  else true

/-- The allocated register at a BAR0 offset. -/
def regHere (a : Nat) : Option (Reg × List Nat) := (regAt a).filter fun p => allocated p.1 p.2

/-- The registers of one queue pair (R351). -/
def Reg.perQp (r : Reg) : Bool :=
  decide (r ∈ [.HIF_QP_SQ_LO, .HIF_QP_SQ_HI, .HIF_QP_CQ_LO, .HIF_QP_CQ_HI, .HIF_QP_CTL, .HIF_QP_STAT, .HIF_QP_HEAD,
    .HIF_QP_IRQ, .HIF_QP_DONE_CNT])

/-- Registers that a reader finds as 0: the Pelorus block for all but functions 0 and 4 (R483), the queue pair of another
function (R322). -/
def State.hidden (s : State) (w : Writer) (r : Reg) (i : List Nat) : Bool :=
  if r.place.1 = .pel ∨ r.place.1 = .pelsh then
    (match w with
    | .fn f => !(f.val == 0 || f.val == 4)
    | _ => true)
  else if r.perQp then
    (match w with
    | .fn f => s.on .HIF_QP_ASSIGN_VALID [ix0 i] && s.rd .HIF_QP_ASSIGN_FN [ix0 i] != f.val
    | _ => false)
  else false

/-- Only the hub global region is served in recovery (R406). -/
def State.unserved (s : State) (a : Nat) : Bool := s.rd .BOOT_STAT_STAGE [] == 15 && decide (0x100000 ≤ a)

/-- The fields of a register that a read clears (R3, R4). -/
def rcFields (r : Reg) : List Fld := r.fields.filter fun f => f.spec.acc == .rc

/-- What a read does beside returning the value: it clears RC fields (R4), latches the words that belong to a low word
(R138, R159, R285, R370, R371, R540), takes the next bytes of a challenge (R493), claims (R467). -/
def State.readEffect (s : State) (w : Writer) (r : Reg) (i : List Nat) : State :=
  let a := ix0 i
  if r = .ENG_STEPS_LO then s.wr .ENG_STEPS_HI_COUNT i ((s.engine a).steps / 2 ^ 32)
  else if r = .FC_CMP_LO then s.wr .FC_CMP_HI_COUNT i ((s.engine a).cmp / 2 ^ 32)
  else if r = .SEAL_HWM_LO then s.wr .SEAL_HWM_HI_HWM i (smGet s.hwm [a, ix1 i] 0 / 2 ^ 32)
  else if r = .CL_BIT_LO then
    (s.wr .CL_BIT_HI_COUNT i ((s.laneRt a).bits / 2 ^ 32)).setLane a { s.laneRt a with bits := 0 }
  else if r = .TR_BIT_LO then
    (s.wr .TR_BIT_HI_COUNT i ((s.trunkRt a).bits / 2 ^ 32)).setTrunk a { s.trunkRt a with bits := 0 }
  else if r = .SX_TIME_FRAC then
    ((s.wr .SX_TIME_NS_NS [] (tNS s.time16)).wr .SX_TIME_SL_SEC [] (tSEC s.time16)).wr .SX_TIME_SH_SEC []
      (tSEC s.time16 / 2 ^ 32)
  else if r = .SX_MEAS_OFS_LO then
    let m (k : Nat) := s.sxMeas.getD k 0
    (((s.wr .SX_MEAS_OFS_HI_VALUE [] (m 0)).wr .SX_MEAS_MPD_LO_VALUE [] (m 1)).wr .SX_MEAS_MPD_HI_VALUE [] (m 2)).wr
      .SX_MEAS_SEQ_SEQ [] (m 3)
  else if r = .PEL_AUTH_DATA then s.setPel a { s.pelRt a with toRead := (s.pelRt a).toRead.drop 4 }
  else if r = .HELM_IC_CLAIM then
    (match execHelmIcClaim w (Fin.ofNat 8 a) s with
    | .next t => t
    | _ => s)
  else (rcFields r).foldl (fun s f => s.wr f i 0) s

/-- A claim register read by anyone but its core returns 0 (R467). -/
def State.readVal (s : State) (w : Writer) (r : Reg) (i : List Nat) : Nat :=
  if r = .HELM_IC_CLAIM ∧ w ≠ .helm (Fin.ofNat 8 (ix0 i)) then 0 else s.peekReg r i

/-- A checker's counters are brought up to date before they are read. -/
def State.chkNow (s : State) (r : Reg) (i : List Nat) (rx : List (BitVec 64)) : State :=
  let trunk := r == .TR_BIT_LO || r == .TR_ERR_CNT
  if trunk || r == .CL_BIT_LO || r == .CL_ERR_CNT then s.chkWords trunk (ix0 i) rx else s

/-- A 32-bit read of a register. -/
def State.readReg (s : State) (w : Writer) (r : Reg) (i : List Nat) (rx : List (BitVec 64)) : Nat × State :=
  let n := r.site i
  let s := { s with draws := s.draws + 1 }
  if s.unserved (r.addr i) then (0, s)
  else if n < 8 ∧ s.up n = false then (0xFFFFFFFF, s.raise .HUB_DIE_STATE [n] 23 0 [writerNum w, r.addr i])
  else if s.hidden w r i then (0, s)
  else
    let s := s.chkNow r i rx
    (s.readVal w r i, s.readEffect w r i)

/-- A word of the event log (R496). -/
def State.logWord (s : State) (a : Nat) : Nat :=
  match smGet s.evlog [(a - 0x408000) / 32] none with
  | none => 0
  | some r => leNat ((r.bytes.drop (a % 32)).take 4)

def inLog (a : Nat) : Bool := decide (0x408000 ≤ a) && decide (a < 0x410000)
def inMsix (a : Nat) : Bool := decide (0x1C0000 ≤ a) && decide (a < 0x1C4080)

/-- A word of the MSI-X table of function `f`, or of its pending-bit array (R318). -/
def State.msixWord (s : State) (f a : Nat) : Nat :=
  if 0x1C4000 ≤ a then
    (List.range 32).foldl (fun x b => x + bit (s.vec f (8 * (a - 0x1C4000) + b)).pend * 2 ^ b) 0
  else
    let x := s.vec f ((a - 0x1C0000) / 16)
    match a / 4 % 4 with
    | 0 => x.addr % 2 ^ 32
    | 1 => x.addr / 2 ^ 32
    | 2 => x.data
    | _ => bit x.masked

/-- A word that no register rule covers: the log's slots, the function's own MSI-X table. -/
def State.otherWord (s : State) (w : Writer) (a : Nat) : Option Nat :=
  if inLog a then some (s.logWord a)
  else if inMsix a then
    (match w with
    | .fn f => some (s.msixWord f a)
    | _ => some 0)
  else none

/-- A 32-bit read of a BAR0 offset, with its effects. -/
def State.read32 (s : State) (w : Writer) (a : Nat) (env : RegEnv) : Nat × State :=
  if s.unserved a then (0, s)
  else match s.otherWord w a with
    | some v => (v, s)
    | none => match regHere a with
      | none => (0, s)
      | some (r, i) => s.readReg w r i env.rx

/-- A 32-bit peek (R487): the value, and no effect but the log of an access to a die that is out of service. -/
def State.peek32 (s : State) (w : Writer) (a : Nat) : Nat × State :=
  if s.unserved a then (0, s)
  else match s.otherWord w a with
    | some v => (v, s)
    | none => match regHere a with
      | none => (0, s)
      | some (r, i) =>
        let n := r.site i
        if n < 8 ∧ s.up n = false then (0xFFFFFFFF, s.raise .HUB_DIE_STATE [n] 23 0 [writerNum w, r.addr i])
        else if s.hidden w r i then (0, s) else (s.peekReg r i, { s with draws := s.draws + 1 })

/-- A read leaves its data in `answer`. -/
def State.reads (p : Nat × State) : Ans := .next { p.2 with answer := p.1 }

/-- RC_FIELD_READ (R2, R4): a narrow read has the effect of the whole one; a 64-bit read is two, the lower first. -/
def execRcFieldRead (w : Writer) (off : BitVec 25) (bytes : Nat) (env : RegEnv) (s : State) : Ans :=
  let a := off.toNat / 4 * 4
  let (x, s) := s.read32 w a env
  if bytes = 8 then
    let (y, s) := s.read32 w (a + 4) env
    State.reads (x + y * 2 ^ 32, s)
  else State.reads (x / 2 ^ (8 * (off.toNat % 4)) % 2 ^ (8 * bytes), s)

/-- ENG_STEPS_LO_READ (R138). -/
def execEngStepsLoRead (w : Writer) (e : Fin 96) (s : State) : Ans := State.reads (s.readReg w .ENG_STEPS_LO [e] [])

/-- FC_CMP_LO_READ (R159). -/
def execFcCmpLoRead (w : Writer) (e : Fin 96) (s : State) : Ans := State.reads (s.readReg w .FC_CMP_LO [e] [])

/-- SEAL_HWM_LO_READ (R285). -/
def execSealHwmLoRead (w : Writer) (st : Fin 4) (r : Fin 16) (s : State) : Ans :=
  State.reads (s.readReg w .SEAL_HWM_LO [st, r] [])

/-- BIT_LO_READ (R540). -/
def execBitLoRead (w : Writer) (trunk : Bool) (l : Fin 224) (rx : List (BitVec 64)) (s : State) : Ans :=
  if trunk then (if l.val < 32 then State.reads (s.readReg w .TR_BIT_LO [l] rx) else .next s)
  else State.reads (s.readReg w .CL_BIT_LO [l] rx)

/-- SX_TIME_FRAC_READ (R370). -/
def execSxTimeFracRead (w : Writer) (s : State) : Ans := State.reads (s.readReg w .SX_TIME_FRAC [] [])

/-- SX_MEAS_OFS_LO_READ (R371). -/
def execSxMeasOfsLoRead (w : Writer) (s : State) : Ans := State.reads (s.readReg w .SX_MEAS_OFS_LO [] [])

end Sys2Proof.Machine
end

