-- ==== Sys2Proof/Machine/Writes.lean ====
section
/-! DEFINITION. Register writes: which writes are dropped whole, which fields keep their values, which values are reserved,
and which fields start an operation that has a row of its own. -/

namespace Sys2Proof.Machine

/-- The state that a meaning answers. -/
def Ans.after (a : Ans) (s : State) : State :=
  match a with
  | .next t => t
  | _ => s

/-- The bits of a written word that fall on a field. -/
def Fld.of (f : Fld) (v : Nat) : Nat := bitsOf v f.spec.lo f.spec.width

/-! ## Fields with rows of their own -/

/-- RW fields that a row's command writes; a plain store leaves them alone. -/
def rowField (f : Fld) : Bool :=
  decide (f ∈ [.SEC_CTL_RESET, .FCLK_GSEL_SRC, .FCLK_RSEL_SRC, .FIX_CFG_QUORUM, .FC_RING_RD_COUNT, .EVT_ACK_SEQ,
    .HBM_ILV_MODE, .HBM_HASH_MASK]) ||
  decide (f ∈ [.FC_LANES_COUNT, .FC_LANES_LANE0, .FC_LANES_LANE1, .FC_LANES_LANE2, .FC_LANES_LANE3, .SEAL_CTL_RATE,
    .NOC_RTR_PORT_EN, .NOC_RTR_PORT_DRAIN, .NOC_RTR_VC_REQ, .NOC_RTR_VC_PST, .NOC_RTR_VC_SNP, .NOC_RTR_VC_RSP]) ||
  decide (f ∈ [.RCW_CTL_EN, .GK_ROLE_XSECT, .GK_ROLE_COH, .GK_CTL_SPINE, .CL_BND_CTL_EN, .CL_CTL_EN, .CL_CTL_USE,
    .CL_CTL_TXINV, .CL_CTL_DIV, .CL_CTL_RXMODE, .TR_CTL_EN, .TR_FFE_PRE2, .TR_FFE_PRE1, .TR_FFE_POST1]) ||
  decide (f ∈ [.CL_TIM_TXVERN, .CL_TIM_TXDSK, .CL_TIM_RXSTB, .CL_TIM_RXDSK, .HIF_QP_CTL_EN, .SX_ADJ_RATE, .SX_CTL_MODE,
    .SX_CTL_OC_PORT, .SX_CTL_DELAY, .SX_CTL_TRANSPORT, .SX_CTL_SERVO, .SX_CTL_SYNTONISE, .SX_CTL_DOMAIN]) ||
  decide (f ∈ [.CLK_SRC_SEL, .CLK_SSC_DEPTH, .CLK_SSC_FREQ, .CLKOUT_CTL_SRC, .SPN_SYN_FREQ, .FSYN_FREQ_FREQ,
    .FVS_CTL_VSEL, .HELM_PATCH_ADDR_EN, .HELM_PATCH_ADDR_OFF, .HELM_PATCH_DATA_WORD, .HELM_IC_CLAIM_SRC,
    .LS_RCV_CTL_SLOT, .LS_RCV_CTL_LEN])

/-! ## Writes that are dropped whole -/

/-- Registers of R135 to R138 with RW fields (R139). -/
def Reg.engSetup (r : Reg) : Bool :=
  decide (r ∈ [.ENG_OUT, .ENG_AFMT, .ENG_VFMT, .ENG_PMASK, .ENG_CMASK, .ENG_LFSR_LO, .ENG_LFSR_HI, .ENG_TTRIG_NS]) ||
  decide (r ∈ [.ENG_TTRIG_SL, .ENG_TTRIG_SH, .ENG_TMR_PERIOD, .ENG_TMR_VEC, .ENG_STRM_ADDR_LO, .ENG_STRM_ADDR_HI,
    .ENG_STRM_LEN, .ENG_STRM_CTL, .ENG_GEN_B, .ENG_GEN_E, .ENG_GEN_S, .ENG_GEN_V, .ENG_LREL])

/-- Engine setup is open in `STATE` 0, 6, 7 and 8, and `ENG_GEN_V` and `ENG_LREL` also in 5 (R139); a trigger of 10^9 ns or
more is dropped (R136). -/
def State.engRejects (s : State) (r : Reg) (i : List Nat) (v : Nat) : Bool :=
  let x := s.estate (ix0 i)
  (r.engSetup && !([0, 6, 7, 8].contains x || (x == 5 && (r == .ENG_GEN_V || r == .ENG_LREL)))) ||
    (r == .ENG_TTRIG_NS && decide (1000000000 ≤ v % 2 ^ 30))

/-- The writer of the fail ring is idle (R154). -/
def State.ringIdle (s : State) (e : Nat) : Bool :=
  (s.engine e).ff.isEmpty || s.ringLog2 e == 0 || s.on .FC_STATUS_RING_ERR [e]

/-- The ring registers are open only while the ring is empty and its writer idle (R154). -/
def State.ringRejects (s : State) (r : Reg) (i : List Nat) : Bool :=
  (r == .FC_RING_BASE_LO || r == .FC_RING_BASE_HI || r == .FC_RING_SIZE) &&
    !(s.ringLevel (ix0 i) == 0 && s.ringIdle (ix0 i))

/-- Sealing registers: nothing through the Pelorus port; range registers and keys only by the owner; base, size and
metadata base only in `STATE` 0 (R264, R282). -/
def State.sealRejects (s : State) (w : Writer) (r : Reg) (i : List Nat) (v : Nat) : Bool :=
  let st := ix0 i
  let pel := match w with
    | .pelorus _ => true
    | _ => false
  let range := decide (r ∈ [.SEAL_BASE, .SEAL_SIZE, .SEAL_MBASE, .SEAL_RCTL, .SEAL_GRANT_ENG, .SEAL_GRANT_OTH])
  if r = .SEAL_KEY then
    pel || s.on .SEAL_KEY_BUSY [st] || !(decide (32 ≤ v % 64) || s.ownsRange w st (v % 64 / 2))
  else if range then
    pel || !s.ownsRange w st (ix1 i) ||
      ((r == .SEAL_BASE || r == .SEAL_SIZE || r == .SEAL_MBASE) && s.sealState st (ix1 i) != 0)
  else pel && (r == .SEAL_ERR)

/-- The host interface (R321, R322, R323, R326, R346, R350). -/
def State.hifRejects (s : State) (w : Writer) (r : Reg) (i : List Nat) (v : Nat) : Bool :=
  let q := ix0 i
  let own (f : Nat) : Bool := if r.perQp then s.qpOwned q f else r == .HIF_BAR4 && q == f
  let others : List Nat := (List.range 8).filter (· != q)
  !s.hifWriter w own ||
  (decide (r ∈ [.HIF_QP_ASSIGN, .HIF_QP_SQ_LO, .HIF_QP_SQ_HI, .HIF_QP_CQ_LO, .HIF_QP_CQ_HI, .HIF_QP_IRQ]) && s.qstate q != 0) ||
  (r == .HIF_BAR4 && decide (144 ≤ v % 256)) ||
  (r == .HIF_FN_FAB && others.any (fun f => portOf f == portOf q && (s.rd .HIF_FN_FAB_DIES [f] &&& v) != 0)) ||
  (r == .HIF_ENG_ASSIGN && others.any (fun f => (s.rd .HIF_ENG_ASSIGN_MASK [f, ix1 i] &&& v) != 0))

/-- Lanes (R287, R305). -/
def State.laneRejects (s : State) (r : Reg) (i : List Nat) (v : Nat) : Bool :=
  let x := v % 2 ^ 14
  let off (pam : Bool) (x : Nat) : Bool := if pam then decide (x < 1000) || decide (11200 < x) else decide (x < 250) || decide (5600 < x)
  (r == .CL_BND_CTL && (decide (v / 2 ^ 16 % 2 ^ 16 < 8000) || decide (40000 < v / 2 ^ 16 % 2 ^ 16))) ||
  (r == .TR_RATE && (s.on .TR_CTL_EN i || off (s.on .TR_CTL_MOD i) x)) ||
  (r == .TR_CTL && !s.on .TR_CTL_EN i && off (v.testBit 1) (s.rd .TR_RATE_RATE i))

/-- Helm registers outside the cores' blocks: the boot vector while every core is in reset (R491). -/
def State.helmRejects (s : State) (r : Reg) : Bool :=
  (r == .HELM_BOOT_LO || r == .HELM_BOOT_HI) && !(List.range 8).all (fun c => s.coreState c == 0)

/-- The Lodestar region but for `LS_ERR.VALID` by administrative functions and helm cores (R457, R485). -/
def State.lsRejects (s : State) (w : Writer) (r : Reg) : Bool :=
  r != .LS_ERR || !(match w with
    | .fn _ => s.isAdminW w
    | .helm _ => true
    | _ => false)

/-- A write that its block drops whole, and logs. -/
def State.rejects (s : State) (w : Writer) (r : Reg) (i : List Nat) (v : Nat) : Bool :=
  let a := r.addr i
  s.engRejects r i v || s.ringRejects r i || s.sealRejects w r i v || s.laneRejects r i v || s.helmRejects r ||
  (decide (0x100000 ≤ a) && decide (a < 0x200000) && s.hifRejects w r i v) ||
  (decide (0x200000 ≤ a) && decide (a < 0x300000) && !s.sxWriter w) ||
  (decide (0x300000 ≤ a) && decide (a < 0x400000) && s.lsRejects w r) ||
  (decide (r ∈ [.RCW_BASE_LO, .RCW_BASE_HI, .RCW_SIZE]) && s.on .RCW_CTL_EN i)

/-! ## Fields that keep their values -/

/-- Registers of R157 to R159 whose RW fields are open in `STATE` 0, 6, 7 and 8 only (R539). -/
def Reg.fcSetup (r : Reg) : Bool := decide (r ∈ [.FC_CTL, .FC_RX, .FC_TX, .FC_RSP_TO, .FC_REC_MAX, .FC_BM_ROW, .FC_BM_COL])

/-- An RW field that a write cannot change now, while the rest of the write acts. -/
def State.keeps (s : State) (r : Reg) (i : List Nat) (f : Fld) : Bool :=
  (r.fcSetup && !s.fcOpen (ix0 i)) ||
  (f == .RCW_CTL_ATTR && s.on .RCW_CTL_EN i) ||
  (f == .SEAL_RCTL_MODE && s.sealState (ix0 i) (ix1 i) != 0) ||
  ((f == .CL_BND_CTL_SSC || f == .CL_BND_CTL_MBPS) && s.on .CL_BND_CTL_EN i) ||
  (f == .TR_CTL_MOD && s.on .TR_CTL_EN i) ||
  ((f == .HIF_QP_CTL_SQ_LOG2 || f == .HIF_QP_CTL_CQ_LOG2) && s.qstate (ix0 i) != 0) ||
  ((f == .SX_PORT_CFG_SPEED || f == .SX_PORT_CFG_TWO_STEP) && s.on .SX_PORT_CFG_EN i)

/-- Values that are reserved or act as another value; writing one is logged. Codes of `TR_PRBS` depend on `MOD`. -/
def State.oddValue (s : State) (i : List Nat) (f : Fld) (x : Nat) : Bool :=
  let log2 := (decide (1 ≤ x) && decide (x ≤ 3)) || decide (17 ≤ x)
  if f = .ENG_OUT_DEST ∨ f = .FC_CTL_IDLE ∨ f = .RCW_CTL_ATTR ∨ f = .HBM_TRAIN_RATE ∨ f = .SX_PORT_CFG_SPEED ∨
      f = .BOOT_CFG_NEXT_SLOT then x == 3
  else if f = .ENG_AFMT_WX ∨ f = .ENG_AFMT_WY ∨ f = .ENG_AFMT_WZ then decide (32 < x)
  else if f = .ENG_VFMT_AOFF then decide (480 < x)
  else if f = .ENG_VFMT_COFF then decide (504 < x)
  else if f = .ENG_STRM_CTL_RATE then decide (64 < x)
  else if f = .FC_RX_DELAY then decide (960 < x)
  else if f = .FC_RING_SIZE_LOG2 then (decide (1 ≤ x) && decide (x ≤ 3)) || decide (25 ≤ x)
  else if f = .FC_BM_ROW_WIDTH ∨ f = .FC_BM_COL_WIDTH then decide (16 < x)
  else if f = .HBM_REF_POSTPONE then decide (8 < x)
  else if f = .HBM_RH_K ∨ f = .HIF_QP_CTL_SQ_LOG2 ∨ f = .HIF_QP_CTL_CQ_LOG2 then log2
  else if f = .CL_PRBS_GEN then x == 7
  else if f = .CL_PRBS_CHK then decide (6 ≤ x)
  else if f = .TR_PRBS_GEN ∨ f = .TR_PRBS_CHK then decide ((if s.on .TR_CTL_MOD i then 4 else 6) ≤ x)
  else false

/-- Store one field of a written word by its access type (R3). -/
def State.storeField (s : State) (r : Reg) (i : List Nat) (v : Nat) (f : Fld) : State :=
  match f.spec.acc with
  | .rw => if rowField f || s.keeps r i f then s else s.wr f i (f.of v)
  | .w1c => s.wr f i (s.rd f i - (s.rd f i &&& f.of v))
  | .w1s => s.wr f i (s.rd f i ||| f.of v)
  | _ => s

/-- A field whose change is not accepted now, with another value written. -/
def State.keptField (s : State) (r : Reg) (i : List Nat) (v : Nat) (f : Fld) : Bool :=
  f.spec.acc == .rw && !rowField f && s.keeps r i f && s.rd f i != f.of v

/-- Store the fields of a written word that have no row of their own; log what is kept and what is reserved. -/
def State.storeFields (s : State) (w : Writer) (r : Reg) (i : List Nat) (v : Nat) : State :=
  let kept := r.fields.any (s.keptField r i v)
  let odd := r.fields.any (fun f => f.spec.acc == .rw && !s.keeps r i f && r != .CL_PRBS && s.oddValue i f (f.of v))
  let t := r.fields.foldl (fun t f => t.storeField r i v f) s
  let t := if kept then t.drop w r i v else t
  if odd then t.raise r i 3 2 [v] else t

/-! ## What a write starts -/

/-- Operations in a die's engine and fail-capture registers. -/
def State.engWritten (s : State) (w : Writer) (r : Reg) (i : List Nat) (v : Nat) : State :=
  let e : Fin 96 := Fin.ofNat 96 (ix0 i)
  if r = .ENG_CTL then
    let s := s.tmrFollow e
    (match v % 16 with
    | 1 => (execStart w e s).after s
    | 2 => (execArm w e s).after s
    | 3 => (execEngCmdStop w e s).after s
    | 4 => (execPause w e s).after s
    | 5 => (execEngCmdResume w e s).after s
    | 6 => (execEngCmdStep w e s).after s
    | 7 => (execEngineReset w e s).after s
    | _ => s)
  else if r = .FC_CTL then
    (match v % 16 with
    | 1 => (execBitmapClear w e s).after s
    | 2 => (execFcCountersClear w e s).after s
    | _ => s)
  else if r = .FC_LANES then (execFcLanesWrite w e (BitVec.ofNat 32 v) s).after s
  else if r = .FC_RING_RD then (execFcRingRdWrite w e (BitVec.ofNat 32 v) s).after s
  else s

/-- Operations in the logic fabric's registers. -/
def State.fabricWritten (s : State) (w : Writer) (r : Reg) (i : List Nat) (v : Nat) (env : RegEnv) : State :=
  let d : Fin 8 := Fin.ofNat 8 (ix0 i)
  if r = .SEC_CTL then
    let k : Fin 40 := Fin.ofNat 40 (ix1 i)
    let s := if v.testBit 0 then (execSectorReset w d k s).after s else (execSectorReleaseRequest w d k s).after s
    if v / 16 % 8 = 1 then (execMigrate w d k env.period s).after s else s
  else if r = .FCLK_GSEL then (execClockTreeSwitch w d (Fin.ofNat 64 (ix1 i)) (BitVec.ofNat 6 v) s).after s
  else if r = .FCLK_RSEL then (execClockTreeSwitch w d (Fin.ofNat 64 (16 + ix1 i)) (BitVec.ofNat 6 v) s).after s
  else if r = .FSYN_FREQ then
    (execFsynFreqWrite w d (Fin.ofNat 4 (ix1 i)) (Fin.ofNat 4 (i.getD 2 0)) (BitVec.ofNat 21 v) s).after s
  else if r = .FVS_CTL then
    (if v % 4 = s.rd .FVS_CTL_VSEL i ∧ (s.on .FVS_STAT_BUSY i ∨ v % 4 = s.rd .FVS_STAT_VCUR i) then s else (execVselSequence w d (BitVec.ofNat 2 v) s).after s)
  else s

/-- Operations in the NoC's and the links' registers. -/
def State.nocWritten (s : State) (w : Writer) (r : Reg) (i : List Nat) (v : Nat) (bs : BearingSet) : State :=
  let n : Fin 9 := Fin.ofNat 9 (ix0 i)
  let rt : Fin 24 := Fin.ofNat 24 (ix1 i)
  if r = .NOC_RTR_PORT then
    let s := (execRouterPortConfig w n rt 0 false (BitVec.ofNat 32 v) s).after s
    (execPortDrain w n rt (BitVec.ofNat 8 (v / 2 ^ 8)) s).after s
  else if r = .NOC_RTR_VC then
    (execRouterPortConfig w n rt (Fin.ofNat 8 (i.getD 2 0)) true (BitVec.ofNat 32 v) s).after s
  else if r = .NOC_NI_BSEL then
    let ni : Fin 48 := Fin.ofNat 48 (ix1 i)
    let k : Fin 512 := Fin.ofNat 512 v
    (match v / 2 ^ 12 % 4 with
    | 1 => (execBearingRead w n ni k s).after s
    | 2 => (execBearingWrite w n ni k s).after s
    | 3 => (execBearingInvalidate w n ni k s).after s
    | _ => s)
  else if r = .GK_CTL then
    let k : Fin 8 := Fin.ofNat 8 (ix1 i)
    let g := v / 2 ^ 16 % 2 ^ 7
    (match v / 2 ^ 8 % 16 with
    | 1 => if g < 96 then (execGkCmdSwap w n k (Fin.ofNat 96 g) (BitVec.ofNat 6 (v / 2 ^ 24)) s).after s else s
    | 2 => if g < 96 then (execGkCmdRetire w n k (Fin.ofNat 96 g) bs s).after s else s
    | _ => s)
  else if r = .NOC_RTR_ARB then (List.range 8).foldl (fun s c => s.newWindow (0 :: i ++ [c])) s
  else if r = .GK_ARB then
    let o := oppEnd (ix0 i) (ix1 i)
    s.newWindow [2, o.1, o.2, i.getD 2 0]
  else s

/-- Operations in the memory path's registers: remote caches, HBM, sealing. -/
def State.memWritten (s : State) (w : Writer) (r : Reg) (i : List Nat) (v : Nat) : State :=
  let st : Fin 4 := Fin.ofNat 4 (ix0 i)
  let n : Fin 8 := Fin.ofNat 8 (ix0 i)
  let rg : Fin 16 := Fin.ofNat 16 (ix1 i)
  if r = .HBM_ARB then s.newWindow [1, st]
  else if r = .RC_CTL then
    (if s.on .RC_CMD_BUSY i then s else s.wr .RC_STAT_STATE i (v % 2))
  else if r = .RC_CMD then
    (match v % 16 with
    | 1 => (execRcFlushRange w n s).after s
    | 2 => (execRcCleanRange w n s).after s
    | 3 => (execRcInvalidateReadMostly w n s).after s
    | 4 => (execRcFlushAll w n s).after s
    | _ => s)
  else if r = .RCW_CTL then
    (if v.testBit 4 = s.on .RCW_CTL_EN i then s
    else if v.testBit 4 then (execRcwEnable w (Fin.ofNat 16 (ix0 i)) s).after s
    else (execRcwDisable w (Fin.ofNat 16 (ix0 i)) s).after s)
  else if r = .HBM_ILV then (execHbmIlvWrite w (BitVec.ofNat 2 v) s).after s
  else if r = .HBM_HASH then (execHbmHashWrite w st (Fin.ofNat 9 (ix1 i)) (BitVec.ofNat 26 (v / 64)) s).after s
  else if r = .HBM_CTL then
    (match v / 16 % 16 with
    | 1 => (execHbmCmdRetrain w st s).after s
    | 2 => (execHbmCmdSelfRefresh w st s).after s
    | 3 => (execHbmCmdSelfRefreshExit w st s).after s
    | _ => s)
  else if r = .SEAL_CTL then (execSealRateWrite w st (BitVec.ofNat 6 v) s).after s
  else if r = .SEAL_KEY then
    (match v / 2 ^ 8 % 4 with
    | 1 => (execSealKeyGenerate w st (BitVec.ofNat 6 v) s).after s
    | 2 => (execSealKeyImport w st (BitVec.ofNat 6 v) (BitVec.ofNat 8 (v / 2 ^ 16)) s).after s
    | 3 => (execSealKeyErase w st (BitVec.ofNat 6 v) s).after s
    | _ => s)
  else if r = .SEAL_RCTL then
    let s := if v.testBit 1 then (execSealClaim w st rg s).after s else s
    (match v / 2 ^ 8 % 16 with
    | 1 => (execEnable w st rg s).after s
    | 2 => (execDisable w st rg s).after s
    | 3 => (execRekey w st rg s).after s
    | 4 => (execSealResume w st rg s).after s
    | _ => s)
  else s

/-- Operations in the lanes' registers. `s0`: the state before the write. -/
def State.laneWritten (s : State) (w : Writer) (r : Reg) (i : List Nat) (v : Nat) (s0 : State) : State :=
  let l : Fin 224 := Fin.ofNat 224 (ix0 i)
  let b : Fin 28 := Fin.ofNat 28 (ix0 i)
  let t : Fin 32 := Fin.ofNat 32 (ix0 i)
  if r = .CL_BND_CTL then
    let s := if v.testBit 0 then (execBundleEnable w b s).after s
      else if s.on .CL_BND_CTL_EN i then (execBundleDisable w b s).after s else s
    if v / 16 % 16 = 1 then (execBundleRetrain w b s).after s else s
  else if r = .CL_CTL then
    let s := (execLaneCtlWrite w l (BitVec.ofNat 7 v) s).after s
    (match v / 2 ^ 8 % 16 with
    | 1 => (execLoopMeasure w l s).after s
    | 2 => (execLaneInjectError w l s).after s
    | _ => s)
  else if r = .CL_TIM then (execLaneTimingWrite w l (BitVec.ofNat 32 v) s).after s
  else if r = .CL_SLIP then (execLaneSlip w l (BitVec.ofNat 9 v) s).after s
  else if r = .CL_PRBS then s.prbsWritten l (s0.rd .CL_PRBS_GEN i) (s0.rd .CL_PRBS_CHK i)
  else if r = .TR_PRBS then
    s.trPrbsWritten t (s0.rd .TR_PRBS_GEN i) (s0.rd .TR_PRBS_CHK i)
  else if r = .TR_CTL then
    let s := if v.testBit 0 then (if s.on .TR_CTL_EN i then s else (execTrunkEnable w t s).after s)
      else if s.on .TR_CTL_EN i then s.trunkOff t else s
    (match v / 2 ^ 8 % 16 with
    | 1 => (execTrunkReadapt w t s).after s
    | 2 => (execTrunkInjectError w t s).after s
    | _ => s)
  else if r = .TR_FFE then
    (execTrFfeWrite w t (BitVec.ofNat 6 v) (BitVec.ofNat 6 (v / 2 ^ 8)) (BitVec.ofNat 6 (v / 2 ^ 16)) s).after s
  else s

/-- Operations in the host interface, the Sextant unit and the event log. -/
def State.hostWritten (s : State) (w : Writer) (r : Reg) (i : List Nat) (v : Nat) : State :=
  let q : Fin 1024 := Fin.ofNat 1024 (ix0 i)
  if r = .HIF_QP_CTL then
    (if v.testBit 16 then (execQpEnable w q s).after s
    else if s.on .HIF_QP_CTL_EN i then (execQpDisable w q s).after s else s)
  else if r = .SX_CTL then (execSxCtlWrite w (BitVec.ofNat 32 v) s).after s
  else if r = .SX_ADJ then (execSxAdjWrite w (BitVec.ofNat 32 v) s).after s
  else if r = .SX_STEP_CMD then
    (match v % 4 with
    | 1 => (execStep w (v.testBit 2) s).after s
    | 2 => (execSet w (v.testBit 2) s).after s
    | _ => s)
  else if r = .SX_PPS then (if v % 2 ^ 16 = 0 ∧ s.ppsEnd.isSome then { s with ppsEnd := none }.emit (.pin 0 0) else s)
  else if r = .SX_PORT_CFG then (if v.testBit 0 then s else s.wr .SX_PORT_STAT_PSTATE i 0)
  else if r = .SX_TXQ_CTL then (if v.testBit 0 then (execSxTxqPop w (Fin.ofNat 2 (ix0 i)) s).after s else s)
  else if r = .EVT_ACK then (execEvtAckWrite w (BitVec.ofNat 32 v) s).after s
  else s

/-- Operations in the hub global region. `s0`: the state before the write. -/
def State.hubWritten (s : State) (w : Writer) (r : Reg) (i : List Nat) (v : Nat) (env : RegEnv) (s0 : State) : State :=
  let n : Fin 8 := Fin.ofNat 8 (ix0 i)
  if r = .FIX_CFG then (execFixCfgWrite w (Fin.ofNat 16 (ix0 i)) (BitVec.ofNat 7 v) s).after s
  else if r = .FIX_STAT then
    let f := ix0 i
    if v.testBit 1 ∧ v.testBit 2 then s.fixHostBoth f
    else if v.testBit 1 then s.fixHost f 1
    else if v.testBit 2 then s.fixHost f 0 else s
  else if r = .CLK_SRC then
    let s := (execClkSourceSelect w (BitVec.ofNat 2 v) env.good env.spread s).after s
    if v / 2 ^ 12 % 16 = 1 then (execClkSrcReturn w env.good s).after s else s
  else if r = .CLK_SSC then (execClkSscWrite w (BitVec.ofNat 8 v) (BitVec.ofNat 8 (v / 2 ^ 8)) s).after s
  else if r = .CLKOUT_CTL then
    let p : Fin 2 := Fin.ofNat 2 (ix0 i)
    let now3 := v % 4 == 3 && s0.rd .CLKOUT_CTL_SPINE i != s.rd .CLKOUT_CTL_SPINE i
    let moved := s.on .CLKOUT_CTL_SRC i && s.rd .CLKOUT_CTL_SRC i == v % 4 &&
      (now3 || s0.rd .CLKOUT_CTL_SSC i != s.rd .CLKOUT_CTL_SSC i)
    let s := (execClkoutSwitch w p (BitVec.ofNat 2 v) s).after s
    if moved then s.clkout p else s
  else if r = .SPN_SYN then (execSpnSynWrite w n (BitVec.ofNat 21 v) s).after s
  else if r = .PWR_DIE_CTL then
    (match v % 8 with
    | 1 => (execPwrEnterP1 w n s).after s
    | 2 => (execPwrEnterP2 w n s).after s
    | 3 => (execPwrEnterP3 w n s).after s
    | 4 => (execPwrReturnP0 w n env.rail env.fuse s).after s
    | _ => s)
  else if r = .RST_DIE_CTL then
    (match v % 4 with
    | 1 => (execPlannedDieReset w n s).after s
    | 2 => (execDieStart w n env.rail s).after s
    | _ => s)
  else s

/-- The recovery registers (R454). -/
def State.recoveryWritten (s : State) (w : Writer) (r : Reg) (v : Nat) (env : RegEnv) : State :=
  if r = .LS_RCV_DATA then (execRecoveryData w (BitVec.ofNat 32 v) s).after s
  else if v % 4 = 1 then (execRecoveryBegin w (v.testBit 2) (BitVec.ofNat 28 (v / 16)) s).after s
  else
    let s' := s.recoveryReg w .LS_RCV_CTL v fun s =>
      (s.wr .LS_RCV_CTL_SLOT [] (v / 4 % 2)).wr .LS_RCV_CTL_LEN [] (v / 16)
    if v % 4 = 2 ∧ s.rd .BOOT_STAT_STAGE [] = 15 ∧ recoveryWriter w then (execRecoveryEnd w env.sig env.flashOk s').after s' else s'

/-- `RST_CMD` (R415, R416): commands 0 and 3 use the unlock up and do nothing. -/
def State.rstWritten (s : State) (w : Writer) (v : Nat) : State :=
  match v % 4 with
  | 1 => (execHubWarmReset (.command w) s).after s
  | 2 => (execPackageReset (.command w) s).after s
  | _ => s.rstCmd w v id

/-- A core's block (R477 to R482, R490, R491): plain fields, then what the write starts. The watchdog's control and load
are closed while it is enabled but directly after an unlock (R479). -/
def State.coreWritten (s : State) (w : Writer) (r : Reg) (c : Fin 8) (v : Nat) (env : RegEnv) : State :=
  let plain (s : State) : State := s.blockWrite w r c v (·.storeFields w r [c] v)
  if r = .HELM_CORE_CTL then
    (match v % 4 with
    | 1 => (execHelmCoreRelease w c s).after s
    | 2 => (execHelmCoreReset w c env.acts s).after s
    | _ => plain s)
  else if r = .HELM_WDT_KICK then (execWdtKick w c (BitVec.ofNat 16 v) s).after s
  else if r = .HELM_WDT_UNLOCK then (execWdtUnlock w c (BitVec.ofNat 16 v) s).after s
  else if r = .HELM_WDT_CTL ∨ r = .HELM_WDT_LOAD then
    let open_ := match (s.helmRt c).unlock with
      | some t => decide (s.now ≤ t)
      | none => false
    let on0 := s.wdRuns c
    s.blockWrite w r c v fun s =>
      if s.on .HELM_WDT_CTL_EN [c] && !open_ then s.drop w r [c] v
      else
        let s := (s.wdSync c).storeFields w r [c] v
        if s.wdRuns c && !on0 then s.wdLoad c else s.wdSync c
  else if r = .HELM_DBG_CMD then
    (match v % 4 with
    | 1 => (execDbgMonitorHalt w c s).after s
    | 2 => (execDbgHardHalt w c env.acts env.pc env.prv env.mie s).after s
    | 3 => (execDbgHardRelease w c s).after s
    | _ => s.debugWrite w r c v id)
  else if r = .HELM_DBG_ACC then
    let s := s.debugWrite w r c v (·.storeFields w r [c] v)
    (match v / 2 ^ 14 % 4 with
    | 1 => (execDbgRegRead w c (BitVec.ofNat 14 v) s).after s
    | 2 => (execDbgRegWrite w c (BitVec.ofNat 14 v) s).after s
    | _ => s)
  else if r = .HELM_MBX_CTL then (if v.testBit 0 then (execHelmMailboxGo w c s).after s else plain s)
  else plain s

/-- The registers of a core's block. -/
def Reg.coreBlock (r : Reg) : Bool :=
  decide (r ∈ [.HELM_CORE_CTL, .HELM_CORE_STAT, .HELM_WDT_CTL, .HELM_WDT_LOAD, .HELM_WDT_CNT, .HELM_WDT_KICK,
    .HELM_WDT_UNLOCK, .HELM_DBG_CTL, .HELM_DBG_STAT, .HELM_DBG_CMD, .HELM_DBG_ACC, .HELM_DBG_ACC_LO]) ||
  decide (r ∈ [.HELM_DBG_ACC_HI, .HELM_MBX_REQ_LO, .HELM_MBX_REQ_HI, .HELM_MBX_RSP_LO, .HELM_MBX_RSP_HI, .HELM_MBX_LEN,
    .HELM_MBX_CTL])

/-- Operations in the other helm registers. -/
def State.helmWritten (s : State) (w : Writer) (r : Reg) (i : List Nat) (v : Nat) : State :=
  let c : Fin 8 := Fin.ofNat 8 (ix0 i)
  let u : Fin 16 := Fin.ofNat 16 (ix1 i)
  if r = .HELM_PATCH_ADDR then (execPatchWrite w c u false (BitVec.ofNat 32 v) s).after s
  else if r = .HELM_PATCH_DATA then (execPatchWrite w c u true (BitVec.ofNat 32 v) s).after s
  else if r = .HELM_IC_SET then (execHelmIcSet w (BitVec.ofNat 9 v) s).after s
  else if r = .HELM_IC_CLAIM then (execHelmIcComplete w c (BitVec.ofNat 9 v) s).after s
  else s

/-- What a write starts, in whatever block it lies. `s0`: the state before the write. -/
def State.written (s : State) (w : Writer) (r : Reg) (i : List Nat) (v : Nat) (env : RegEnv) (s0 : State) : State :=
  match r.range with
  | 0x0200 => if r.place.1 = .eng then s.engWritten w r i v else s.hubWritten w r i v env s0
  | 0x0100 => s.fabricWritten w r i v env
  | 0x0300 => s.nocWritten w r i v env.bs
  | 0x0400 => if r.place.1 = .gk then s.nocWritten w r i v env.bs else s.memWritten w r i v
  | 0x0500 | 0x0600 => s.memWritten w r i v
  | 0x0700 => s.laneWritten w r i v s0
  | 0x0800 | 0x0900 | 0x0F00 => s.hostWritten w r i v
  | 0x0A00 => if ix0 i < 8 ∧ (r = .FSYN_FREQ ∨ r = .FVS_CTL ∨ r = .FCLK_GSEL ∨ r = .FCLK_RSEL) then s.fabricWritten w r i v env
      else s.hubWritten w r i v env s0
  | 0x0B00 => s.hubWritten w r i v env s0
  | 0x0D00 => s.helmWritten w r i v
  | _ => s

/-- The spine of a crossing, written on side 1 under the rule of R198 (R228). -/
def State.spineWritten (s : State) (w : Writer) (i : List Nat) (v : Nat) : State :=
  if ix0 i = 8 ∨ ix1 i ≠ 1 ∨ v % 8 = s.rd .GK_CTL_SPINE i ∨ s.mute w then s
  else if s.linkIdle (ix0 i) then s.wr .GK_CTL_SPINE i (v % 8)
  else s.drop w .GK_CTL i v

/-- A write of the link roles (R198, R228): read-only on side 0. -/
def State.roleWritten (s : State) (w : Writer) (i : List Nat) (v : Nat) : State :=
  if ix1 i = 1 then (execGkRoleWrite w (Fin.ofNat 8 (ix0 i)) (BitVec.ofNat 8 v) (BitVec.ofNat 5 (v / 2 ^ 8)) s).after s else s

/-- A 32-bit write of a register, but for the Pelorus access block, which is not reached here (R483). -/
def State.writeReg (s : State) (w : Writer) (r : Reg) (i : List Nat) (v : Nat) (env : RegEnv) : State :=
  if r.place.1 = .pel ∨ r.place.1 = .pelsh then (if s.mute w then s else s.drop w r i v)
  else if r = .RST_UNLOCK then (execRstUnlock w (BitVec.ofNat 16 v) s).after s
  else if r = .RST_CMD then s.rstWritten w v
  else if r = .GK_ROLE then s.roleWritten w i v
  else if r = .LS_RCV_CTL ∨ r = .LS_RCV_DATA then s.recoveryWritten w r v env
  else if r.coreBlock then s.coreWritten w r (Fin.ofNat 8 (ix0 i)) v env
  else if r = .SEAL_RCTL ∧ v.testBit 1 ∧ s.ownsRange w (ix0 i) (ix1 i) = false then
    (execSealClaim w (Fin.ofNat 4 (ix0 i)) (Fin.ofNat 16 (ix1 i)) s).after s
  else
    let s := if r = .GK_CTL then s.spineWritten w i v else s
    s.reach w r i v fun s =>
      if s.rejects w r i v then s.drop w r i v else (s.storeFields w r i v).written w r i v env s

/-- A write of the MSI-X table (R318): four words an entry; unmasking sends a pending message. -/
def State.msixWrite (s : State) (f a v : Nat) : State :=
  if 0x1C4000 ≤ a then s
  else
    let k := (a - 0x1C0000) / 16
    let x := s.vec f k
    match a / 4 % 4 with
    | 0 => s.setVec f k { x with addr := x.addr / 2 ^ 32 * 2 ^ 32 + v / 4 * 4 }
    | 1 => s.setVec f k { x with addr := x.addr % 2 ^ 32 + v * 2 ^ 32 }
    | 2 => s.setVec f k { x with data := v }
    | _ =>
      let s := s.setVec f k { x with masked := v.testBit 0 }
      if x.pend ∧ v.testBit 0 = false then s.sendVec f k else s

/-- A 32-bit write of a BAR0 offset outside the Pelorus block. -/
def State.write32 (s : State) (w : Writer) (a v : Nat) (env : RegEnv) : State :=
  if s.mute w ∨ s.unserved a then s
  else if inLog a then s.raiseFixed .EVT_CTL [] 0x0F03 2 (.known (dropArg w a v))
  else if inMsix a then
    (match w with
    | .fn f => s.msixWrite f a v
    | _ => s)
  else match regHere a with
    | none => s
    | some (r, i) => s.writeReg w r i v env

/-- A narrow or misaligned write of an allocated offset is dropped and logged (R2, R538). -/
def State.narrowWrite (s : State) (w : Writer) (off v : Nat) : State :=
  if s.mute w ∨ s.unserved off then s
  else match regHere (off / 4 * 4) with
    | none => if inLog off then s.raiseFixed .EVT_CTL [] 0x0F02 2 (.known (dropArg w off v)) else s
    | some (r, i) =>
      if r.site i < 8 ∧ s.up (r.site i) = false then s.deadAccess w r i
      else s.raiseFixed r i 0x0F02 2 (.known (dropArg w off v))

/-! ## LANE_CMD (R335) -/

/-- Does a log of dropped writes stand in a queue? -/
def dropLogged (q : Steward) : Bool := q.lost != 0 || q.queue.any fun r => r.code == .fixed 0x0F03

/-- One pair: whether the block accepted the write, and the state after it. -/
def State.lanePair (s : State) (f n off v : Nat) (env : RegEnv) : Bool × State :=
  let w : Writer := .ring (Fin.ofNat 8 f)
  let a := dieBase n + off
  let bare := ({ s with stewards := [] } : State).write32 w a v env
  (!dropLogged (bare.steward n), s.write32 w a v env)

/-- The pairs in order, up to one that is refused: its index, or none. -/
def State.lanePairs (s : State) (f n d : Nat) (env : RegEnv) : Nat → Nat → Option Nat × State
  | 0, _ => (none, s)
  | k + 1, i =>
    let (ok, t) := s.lanePair f n (dWord d (8 + 2 * i)) (dWord d (9 + 2 * i)) env
    if ok then t.lanePairs f n d env k (i + 1) else (some i, t)

/-- Facts that no lane register asks for. -/
def noEnv : RegEnv :=
  { good := false, spread := false, rail := false, fuse := (0, 0), sig := false, sig2 := false, flashOk := false
    period := 0, acts := [], pc := 0, prv := 0, mie := false, rx := [], line := 0, rd := 0, wr := 0, bs := [] }

/-- LANE_CMD (R335). -/
def execLaneCmd (q : Fin 1024) (s : State) : Ans :=
  .next (s.startOp q 0x30 fun j d f s =>
    let w6 := dWord d 6
    let n := w6 % 8
    let count := w6 / 16 % 8
    if count = 0 then s.jobDone q j 4 0 0
    else if s.up n = false then (s.deadAccess (.ring (Fin.ofNat 8 f)) .HUB_DIE_STATE [n]).jobDone q j 2 0 0
    else
      let (bad, s) := s.lanePairs f n d noEnv count 0
      match bad with
      | some i => s.jobDone q j 7 i 0
      | none => if w6.testBit 8 then s.jobWaits q j else s.jobDone q j 0 0 0)

end Sys2Proof.Machine
end

