-- ==== Sys2Proof/Machine/Pelorus.lean ====
section
/-! DEFINITION. The Pelorus port (R483 to R488, R493): the access block of each path, its commands, the TAP; and
REGISTER_WRITE, which reaches that block over PCIe. -/

namespace Sys2Proof.Machine

/-- The writer that an access of a path is (R538). -/
def pelActs (p : PelSrc) : Writer := .pelorus (Fin.ofNat 2 (pelPath p))

/-- Index of a register of the block: each path has its own but `PEL_BOOTHALT` and `PEL_RST` (R493). -/
def pelIx (r : Reg) (p : PelSrc) : List Nat := if r.place.1 = .pelsh then [] else [pelPath p]

/-- A command of `PEL_CTL`: dropped while an access runs (R493). -/
def State.pelCmd (s : State) (p : PelSrc) (cmd : Nat) (k : State → State) : State :=
  s.pelBlock p .PEL_CTL [pelPath p] cmd fun s =>
    if s.on .PEL_STAT_BUSY [pelPath p] then s.drop (pelWriter p) .PEL_CTL [pelPath p] cmd else k s

/-- The access runs: its status and data are there when it ends (PEL_ACCESS_DONE). -/
def State.pelRuns (s : State) (p : PelSrc) (status : Nat) (data : Option Nat) (off : Option Nat := none) : State :=
  (s.setPel (pelPath p) { s.pelRt (pelPath p) with status := status, data := data, off := off }).wr .PEL_STAT_BUSY [pelPath p] 1

def State.pelOffset (s : State) (p : PelSrc) : Nat := s.rd .PEL_ADDR_LO_ADDR [pelPath p] / 4 * 4
def State.pelAddress (s : State) (p : PelSrc) : Nat :=
  (s.rd .PEL_ADDR_LO_ADDR [pelPath p] + s.rd .PEL_ADDR_HI_ADDR [pelPath p] * 2 ^ 32) / 8 * 8

/-- The offset holds a register of a die that is not in service (R23). -/
def State.deadAt (s : State) (a : Nat) : Bool :=
  match regHere a with
  | some (r, i) => decide (r.site i < 8) && !s.up (r.site i)
  | none => false

/-- The recovery registers, in the recovery stage (R454, R485). -/
def State.inRecovery (s : State) (a : Nat) : Bool :=
  s.rd .BOOT_STAT_STAGE [] == 15 && (match regHere a with
    | some (r, _) => r == .LS_RCV_CTL || r == .LS_RCV_DATA || r == .LS_RCV_STAT
    | none => false)

/-- The level that a peek needs (R485). -/
def State.peekLevel (s : State) (a : Nat) : Nat :=
  if a = Reg.addr .LS_DBG_STAT [] ∨ s.inRecovery a then 0 else 1

/-- PEL_PEEK (R485, R487). -/
def execPelPeek (p : PelSrc) (s : State) : Ans :=
  .next (s.pelCmd p 1 fun s =>
    let a := s.pelOffset p
    if s.pelLevel (pelPath p) < s.peekLevel a then s.pelRuns p 7 none
    else
      let (v, t) := s.peek32 (pelActs p) a
      t.pelRuns p (if s.deadAt a then 2 else 0) (some v) (if s.deadAt a then none else some a))

/-- PEL_CONSUME (R485, R487). -/
def execPelConsume (p : PelSrc) (env : RegEnv) (s : State) : Ans :=
  .next (s.pelCmd p 2 fun s =>
    let a := s.pelOffset p
    if s.pelLevel (pelPath p) < 2 then s.pelRuns p 7 none
    else
      let (v, t) := s.read32 (pelActs p) a env
      t.pelRuns p (if s.deadAt a then 2 else 0) (some v) (if s.deadAt a then none else some a))

/-- PEL_REG_WRITE (R485, R486). -/
def execPelRegWrite (p : PelSrc) (env : RegEnv) (s : State) : Ans :=
  .next (s.pelCmd p 3 fun s =>
    let a := s.pelOffset p
    if s.pelLevel (pelPath p) < 2 ∧ s.inRecovery a = false then s.pelRuns p 7 none
    else
      (s.write32 (pelActs p) a (s.rd .PEL_DATA_LO_DATA [pelPath p]) env).pelRuns p (if s.deadAt a then 2 else 0) none)

/-- PEL_MEM_READ (R486): 8 bytes by the Binnacle's port. -/
def execPelMemRead (p : PelSrc) (env : RegEnv) (s : State) : Ans :=
  .next (s.pelCmd p 4 fun s =>
    if s.pelLevel (pelPath p) < 2 then s.pelRuns p 7 none
    else
      let g := s.pelAddress p
      let (x, c, s) := s.gRead binMst g (env.line.toNat, env.rd)
      s.pelRuns p c (some (x / 2 ^ (8 * (g % 64)) % 2 ^ 64)))

/-- PEL_MEM_WRITE (R486): a line is read, merged and written. -/
def execPelMemWrite (p : PelSrc) (env : RegEnv) (s : State) : Ans :=
  .next (s.pelCmd p 5 fun s =>
    if s.pelLevel (pelPath p) < 2 then s.pelRuns p 7 none
    else
      let g := s.pelAddress p
      let v := s.rd .PEL_DATA_LO_DATA [pelPath p] + s.rd .PEL_DATA_HI_DATA [pelPath p] * 2 ^ 32
      let (x, c, s) := s.gRead binMst g (env.line.toNat, env.rd)
      if c ≠ 0 then s.pelRuns p c none
      else
        let (c, s) := s.gWrite binMst g (mergeLine x (g % 64) (natLe v 8)) false env.wr
        s.pelRuns p c none)

/-- The die that an outstanding read addresses has left service (R23): the read ends with all ones, and the access is logged. -/
def State.pelLeft (s : State) (p : Nat) : State :=
  let x := s.pelRt p
  match x.off with
  | some a =>
    if s.deadAt a then
      let s := s.setPel p { x with status := 2, data := some 0xFFFFFFFF }
      match regHere a with
      | some (r, i) => s.deadAccess (.pelorus (Fin.ofNat 2 p)) r i
      | none => s
    else s
  | none => s

/-- PEL_ACCESS_DONE (R23, R493): `STATUS` and the data are there and `BUSY` clears. -/
def execPelAccessDone (p : Fin 2) (s : State) : Ans :=
  if s.on .PEL_STAT_BUSY [p] then
    let s := s.pelLeft p
    let x := s.pelRt p
    let s := (s.setPel p { x with status := 0, data := none, off := none }).wr .PEL_STAT_BUSY [p] 0
    let s := s.wr .PEL_STAT_STATUS [p] x.status
    .next (match x.data with
      | some v => (s.wr .PEL_DATA_LO_DATA [p] (v % 2 ^ 32)).wr .PEL_DATA_HI_DATA [p] (v / 2 ^ 32)
      | none => s)
  else .next s

/-- PEL_RST (R493): the debug logic is reset, both levels fall to 0. -/
def execPelRst (p : PelSrc) (s : State) : Ans :=
  .next (s.pelBlock p .PEL_RST [] 1 fun s =>
    let s := { s.clearRegs (fun f _ => f.spec.cls == .dbg) with pel := [] }
    (s.wr .LS_DBG_STAT_JTAG_LEVEL [] 0).wr .LS_DBG_STAT_PCIE_LEVEL [] 0)

/-! ## The access block -/

/-- A write of a word of the access block. -/
def State.pelPut (s : State) (p : PelSrc) (r : Reg) (v : Nat) (env : RegEnv) : State :=
  let i := pelIx r p
  if r = .PEL_CTL then
    (match v % 8 with
    | 1 => (execPelPeek p s).after s
    | 2 => (execPelConsume p env s).after s
    | 3 => (execPelRegWrite p env s).after s
    | 4 => (execPelMemRead p env s).after s
    | 5 => (execPelMemWrite p env s).after s
    | _ => s.pelBlock p r i v id)
  else if r = .PEL_AUTH then
    let l : BitVec 2 := BitVec.ofNat 2 (v / 16)
    (match v % 4 with
    | 1 => (execDebugChallenge p l s).after s
    | 2 => (execDebugCertSubmit p l env.sig env.sig2 s).after s
    | 3 => (execDebugPasswordSubmit p l s).after s
    | _ => s.pelBlock p r i v (·.wr .PEL_AUTH_LEVEL i (v / 16)))
  else if r = .PEL_AUTH_DATA then
    s.pelBlock p r i v fun s => s.setPel (pelPath p) { s.pelRt (pelPath p) with sent := (s.pelRt (pelPath p)).sent ++ natLe v 4 }
  else if r = .PEL_BOOTHALT then
    s.pelBlock p r i v fun s =>
      if s.pelLevel (pelPath p) < 2 then s.drop (pelWriter p) r i v else s.wr .PEL_BOOTHALT_MASK [] v
  else if r = .PEL_RST then (if v.testBit 0 then (execPelRst p s).after s else s.pelBlock p r i v id)
  else s.pelBlock p r i v fun s => r.fields.foldl (fun s f => if f.spec.acc == .rw then s.wr f i (f.of v) else s) s

/-- A read of a word of the access block: the value, and the state after it. -/
def State.pelGet (s : State) (p : PelSrc) (r : Reg) : Nat × State :=
  if pelReaches p then (s.peekReg r (pelIx r p), s.readEffect (pelWriter p) r (pelIx r p)) else (0, s)

/-- A 32-bit write of any BAR0 offset. -/
def State.writeWord (s : State) (w : Writer) (a v : Nat) (env : RegEnv) : State :=
  match w with
  | .fn f =>
    (match regHere a with
    | some (r, _) =>
      if (r.place.1 = .pel ∨ r.place.1 = .pelsh) ∧ s.unserved a = false then s.pelPut (.pcie f) r v env else s.write32 w a v env
    | none => s.write32 w a v env)
  | _ => s.write32 w a v env

/-- REGISTER_WRITE (R2, R3, R5, R23, R538): a narrow or misaligned write is dropped; a 64-bit write is two, the lower
first. -/
def execRegisterWrite (w : Writer) (off : BitVec 25) (bytes : Nat) (val : BitVec 64) (env : RegEnv) (s : State) : Ans :=
  let a := off.toNat
  if a % 4 ≠ 0 ∨ (bytes ≠ 4 ∧ bytes ≠ 8) then .next (s.narrowWrite w a val.toNat)
  else
    let s := s.writeWord w a (val.toNat % 2 ^ 32) env
    .next (if bytes = 8 then s.writeWord w (a + 4) (val.toNat / 2 ^ 32) env else s)

/-! ## The TAP (R483, R484) -/

/-- The instruction register and the instruction in force. -/
def State.tapLoad (s : State) (code act : Nat) : State := { s with tap := { s.tap with ir := code, act := act } }

/-- An instruction that the path's level does not open acts as BYPASS and is logged. -/
def State.scanLoad (s : State) (code : Nat) (k : State → State) : State :=
  if s.pelLevel 0 < 3 then (s.tapLoad code 0xFF).raise .PEL_CTL [0] 483 2 [code] else k (s.tapLoad code code)

/-- Covered pins come under scan control, driven with `bits`; `how` is 40 for levels, 41 pulse, 42 train, 43 high
impedance. -/
def State.scanDrive (s : State) (how : Nat) (bits : Option Nat) : State :=
  { s with tap := { s.tap with scan := true, drive := bits } }.emit (.pin how (bits.getD 0))

/-- IDCODE (R483). -/
def execIdcode (s : State) : Ans := .next { s.tapLoad 0x01 0x01 with answer := 0x10800A6F }

/-- SAMPLE_PRELOAD (R483). -/
def execSamplePreload (pins bits : Nat) (s : State) : Ans :=
  let t := s.tapLoad 0x02 0x02
  .next { t with answer := pins, tap := { t.tap with chain := bits } }

/-- The captured pins are shifted out, the bits shifted in become the chain and drive the pins. -/
def State.extest (s : State) (code how pins bits : Nat) : State :=
  s.scanLoad code fun s =>
    let t := s.scanDrive how (some s.tap.chain)
    ({ t with answer := pins, tap := { t.tap with chain := bits } }).scanDrive how (some bits)

/-- EXTEST (R484). -/
def execExtest (pins bits : Nat) (s : State) : Ans := .next (s.extest 0x03 40 pins bits)
/-- EXTEST_PULSE (R484). -/
def execExtestPulse (pins bits : Nat) (s : State) : Ans := .next (s.extest 0x04 41 pins bits)
/-- EXTEST_TRAIN (R484). -/
def execExtestTrain (pins bits : Nat) (s : State) : Ans := .next (s.extest 0x05 42 pins bits)
/-- CLAMP (R484): the preloaded values. -/
def execClamp (s : State) : Ans := .next (s.scanLoad 0x06 fun s => s.scanDrive 40 (some s.tap.chain))
/-- HIGHZ (R484). -/
def execHighz (s : State) : Ans := .next (s.scanLoad 0x07 fun s => s.scanDrive 43 none)

/-- PEL_REG (R483): bits [37:32] of the data register name a word of the access block, bit 38 is a write, and bit 39 is
captured as 1 when the previous access has ended. What is captured stands in `answer`. -/
def execPelReg (dr : BitVec 40) (env : RegEnv) (s : State) : Ans :=
  let x := dr.toNat
  let s := s.tapLoad 0x20 0x20
  let ended := !s.on .PEL_STAT_BUSY [0]
  let done (v : Nat) (s : State) : State :=
    let c := v + x / 2 ^ 32 % 2 ^ 6 * 2 ^ 32 + (if ended then 2 ^ 39 else 0)
    { s with answer := c, tap := { s.tap with dr := c } }
  match regAt (0x5F0000 + 4 * (x / 2 ^ 32 % 2 ^ 6)) with
  | none => .next (done 0 s)
  | some (r, _) =>
    if r.place.1 = .pel ∨ r.place.1 = .pelsh then
      (if x.testBit 38 then .next (done 0 (s.pelPut .jtag r (x % 2 ^ 32) env))
      else
        let (v, s) := s.pelGet .jtag r
        .next (done v s))
    else .next (done 0 s)

/-- BYPASS (R483): its own code, any unknown one, and one that the path's level does not open, which is logged. -/
def execBypass (code : BitVec 8) (s : State) : Ans :=
  let c := code.toNat
  if c = 0x01 ∨ c = 0x02 ∨ c = 0x20 then .next s
  else if 3 ≤ c ∧ c ≤ 7 then (if s.pelLevel 0 < 3 then .next (s.scanLoad c id) else .next s)
  else .next { s.tapLoad c 0xFF with answer := 0 }

end Sys2Proof.Machine
end

