-- ==== Sys2Proof/Machine/Dispatch.lean ====
section
/-! DEFINITION. The meaning of every command: one arm per constructor, one call of its meaning. -/

namespace Sys2Proof.Machine

/-- The effect of a command on everything but the queue. -/
def exec (i : Instr) (s : State) : Host.Outcome State Fault Refusal :=
  match i with
  | .registerWrite w off bytes val env => Sys2Proof.Machine.execRegisterWrite w off bytes val env s
  | .rcFieldRead w off bytes env => Sys2Proof.Machine.execRcFieldRead w off bytes env s
  | .engStepsLoRead w e => Sys2Proof.Machine.execEngStepsLoRead w e s
  | .fcCmpLoRead w e => Sys2Proof.Machine.execFcCmpLoRead w e s
  | .sealHwmLoRead w st r => Sys2Proof.Machine.execSealHwmLoRead w st r s
  | .bitLoRead w trunk l rx => Sys2Proof.Machine.execBitLoRead w trunk l rx s
  | .sxTimeFracRead w => Sys2Proof.Machine.execSxTimeFracRead w s
  | .sxMeasOfsLoRead w => Sys2Proof.Machine.execSxMeasOfsLoRead w s
  | .blockErrorReport site off code sev arg => Sys2Proof.Machine.execBlockErrorReport site off code sev arg s
  | .overflowEvent d => Sys2Proof.Machine.execOverflowEvent d s
  | .eventLogAppend site => Sys2Proof.Machine.execEventLogAppend site s
  | .evtAckWrite w v => Sys2Proof.Machine.execEvtAckWrite w v s
  | .journalWrite => Sys2Proof.Machine.execJournalWrite s
  | .sectorReset w d k => Sys2Proof.Machine.execSectorReset w d k s
  | .sectorReleaseRequest w d k => Sys2Proof.Machine.execSectorReleaseRequest w d k s
  | .sectorRelease d k edge => Sys2Proof.Machine.execSectorRelease d k edge s
  | .sectorReleaseTimeout d k => Sys2Proof.Machine.execSectorReleaseTimeout d k s
  | .migrate w d k p => Sys2Proof.Machine.execMigrate w d k p s
  | .migrationGated d k => Sys2Proof.Machine.execMigrationGated d k s
  | .migrationCaptureDone d k => Sys2Proof.Machine.execMigrationCaptureDone d k s
  | .migrationRewriteDone d k => Sys2Proof.Machine.execMigrationRewriteDone d k s
  | .migrationRestoreDone d k => Sys2Proof.Machine.execMigrationRestoreDone d k s
  | .migrationRestart d k => Sys2Proof.Machine.execMigrationRestart d k s
  | .migrationPermitTimeout d k => Sys2Proof.Machine.execMigrationPermitTimeout d k s
  | .columnDefectFound d k p period => Sys2Proof.Machine.execColumnDefectFound d k p period s
  | .spanContention d k segs => Sys2Proof.Machine.execSpanContention d k segs s
  | .cfgFrame d fails items => Sys2Proof.Machine.execCfgFrame d fails items s
  | .cfgReleaseInstant lead edge => Sys2Proof.Machine.execCfgReleaseInstant lead edge s
  | .clockTreeSwitch w d tr src => Sys2Proof.Machine.execClockTreeSwitch w d tr src s
  | .clockSwitchDone d tr converged => Sys2Proof.Machine.execClockSwitchDone d tr converged s
  | .clockSwitchForced d tr => Sys2Proof.Machine.execClockSwitchForced d tr s
  | .memEccError d k deep col block addr upset => Sys2Proof.Machine.execMemEccError d k deep col block addr upset s
  | .bramScrubWriteback d k deep col block addr => Sys2Proof.Machine.execBramScrubWriteback d k deep col block addr s
  | .rknLateAccess d k lates => Sys2Proof.Machine.execRknLateAccess d k lates s
  | .start w e => Sys2Proof.Machine.execStart w e s
  | .arm w e => Sys2Proof.Machine.execArm w e s
  | .engCmdStop w e => Sys2Proof.Machine.execEngCmdStop w e s
  | .pause w e => Sys2Proof.Machine.execPause w e s
  | .engCmdResume w e => Sys2Proof.Machine.execEngCmdResume w e s
  | .engCmdStep w e => Sys2Proof.Machine.execEngCmdStep w e s
  | .engineReset w e => Sys2Proof.Machine.execEngineReset w e s
  | .engStartEffect e => Sys2Proof.Machine.execEngStartEffect e s
  | .engPermitGrant e => Sys2Proof.Machine.execEngPermitGrant e s
  | .engPermitTimeout e => Sys2Proof.Machine.execEngPermitTimeout e s
  | .engTrigger e => Sys2Proof.Machine.execEngTrigger e s
  | .engNop e => Sys2Proof.Machine.execEngNop e s
  | .loop_ e => Sys2Proof.Machine.execLoop e s
  | .jmp e => Sys2Proof.Machine.execJmp e s
  | .br e => Sys2Proof.Machine.execBr e s
  | .call e => Sys2Proof.Machine.execCall e s
  | .ret e => Sys2Proof.Machine.execRet e s
  | .wait_ e => Sys2Proof.Machine.execWait e s
  | .waitEnd e => Sys2Proof.Machine.execWaitEnd e s
  | .drain e => Sys2Proof.Machine.execDrain e s
  | .drainDone e => Sys2Proof.Machine.execDrainDone e s
  | .sync_ e => Sys2Proof.Machine.execSync e s
  | .syncBroadcastSeen e => Sys2Proof.Machine.execSyncBroadcastSeen e s
  | .waitt e => Sys2Proof.Machine.execWaitt e s
  | .waittTrigger e => Sys2Proof.Machine.execWaittTrigger e s
  | .setl e => Sys2Proof.Machine.execSetl e s
  | .strm e => Sys2Proof.Machine.execStrm e s
  | .rate e => Sys2Proof.Machine.execRate e s
  | .ratePermitGrant e => Sys2Proof.Machine.execRatePermitGrant e s
  | .evt e => Sys2Proof.Machine.execEvt e s
  | .halt e => Sys2Proof.Machine.execHalt e s
  | .engTimerExpiry e => Sys2Proof.Machine.execEngTimerExpiry e s
  | .engStepUnstall e => Sys2Proof.Machine.execEngStepUnstall e s
  | .streamFillDone e => Sys2Proof.Machine.execStreamFillDone e s
  | .streamReadIssue e => Sys2Proof.Machine.execStreamReadIssue e s
  | .streamReadComplete e n data status => Sys2Proof.Machine.execStreamReadComplete e n data status s
  | .fixPointApply n => Sys2Proof.Machine.execFixPointApply n s
  | .fixSet w f => Sys2Proof.Machine.execFixSet w f s
  | .fixClr w f => Sys2Proof.Machine.execFixClr w f s
  | .fixCfgWrite w f q => Sys2Proof.Machine.execFixCfgWrite w f q s
  | .fixRebase => Sys2Proof.Machine.execFixRebase s
  | .txSlot e => Sys2Proof.Machine.execTxSlot e s
  | .straightPathLaunch e => Sys2Proof.Machine.execStraightPathLaunch e s
  | .rxWordCompare e n data => Sys2Proof.Machine.execRxWordCompare e n data s
  | .vpVectorTaken e => Sys2Proof.Machine.execVpVectorTaken e s
  | .rpResponse e data skip => Sys2Proof.Machine.execRpResponse e data skip s
  | .responseTimeout e => Sys2Proof.Machine.execResponseTimeout e s
  | .expectationResolve e => Sys2Proof.Machine.execExpectationResolve e s
  | .failRingWrite e env => Sys2Proof.Machine.execFailRingWrite e env s
  | .ringErrRestart w e => Sys2Proof.Machine.execRingErrRestart w e s
  | .fcRingRdWrite w e v => Sys2Proof.Machine.execFcRingRdWrite w e v s
  | .fcLanesWrite w e v => Sys2Proof.Machine.execFcLanesWrite w e v s
  | .bitmapClear w e => Sys2Proof.Machine.execBitmapClear w e s
  | .bitmapClearDone e => Sys2Proof.Machine.execBitmapClearDone e s
  | .fcCountersClear w e => Sys2Proof.Machine.execFcCountersClear w e s
  | .niSend site ni opc addr tag fn data => Sys2Proof.Machine.execNiSend site ni opc addr tag fn data s
  | .routerHeadFlit site r port vc errs => Sys2Proof.Machine.execRouterHeadFlit site r port vc errs s
  | .niBounceReceive site ni hdrBad => Sys2Proof.Machine.execNiBounceReceive site ni hdrBad s
  | .relayForward site ni hdrBad => Sys2Proof.Machine.execRelayForward site ni hdrBad s
  | .niDeliver site ni hdrBad noise => Sys2Proof.Machine.execNiDeliver site ni hdrBad noise s
  | .packSend site ni src => Sys2Proof.Machine.execPackSend site ni src s
  | .niResponseTimeout site ni tag => Sys2Proof.Machine.execNiResponseTimeout site ni tag s
  | .stallBounce site r port vc => Sys2Proof.Machine.execStallBounce site r port vc s
  | .portDrain w site r bits => Sys2Proof.Machine.execPortDrain w site r bits s
  | .portDrained site r p => Sys2Proof.Machine.execPortDrained site r p s
  | .drainTimeoutBounce site r port vc => Sys2Proof.Machine.execDrainTimeoutBounce site r port vc s
  | .routerPortConfig w site r p vc v => Sys2Proof.Machine.execRouterPortConfig w site r p vc v s
  | .bearingRead w site ni k => Sys2Proof.Machine.execBearingRead w site ni k s
  | .bearingWrite w site ni k => Sys2Proof.Machine.execBearingWrite w site ni k s
  | .bearingInvalidate w site ni k => Sys2Proof.Machine.execBearingInvalidate w site ni k s
  | .linkTrainingStart l => Sys2Proof.Machine.execLinkTrainingStart l s
  | .linkTrainingDone l bad clk bs => Sys2Proof.Machine.execLinkTrainingDone l bad clk bs s
  | .linkTrainingPermitTimeout l => Sys2Proof.Machine.execLinkTrainingPermitTimeout l s
  | .linkTrainingRetry l => Sys2Proof.Machine.execLinkTrainingRetry l s
  | .gkRoleWrite w n xsect coh => Sys2Proof.Machine.execGkRoleWrite w n xsect coh s
  | .linkFrameReceive n k coh g0 g1 g2 flips => Sys2Proof.Machine.execLinkFrameReceive n k coh g0 g1 g2 flips s
  | .linkReplay n k coh g => Sys2Proof.Machine.execLinkReplay n k coh g s
  | .poolRetrain n k coh => Sys2Proof.Machine.execPoolRetrain n k coh s
  | .laneHealthInterval n k counts => Sys2Proof.Machine.execLaneHealthInterval n k counts s
  | .spareSwap n k g l => Sys2Proof.Machine.execSpareSwap n k g l s
  | .spareRejoin n k g => Sys2Proof.Machine.execSpareRejoin n k g s
  | .crossingSpareSwap n k g l => Sys2Proof.Machine.execCrossingSpareSwap n k g l s
  | .crossingSwitchInstant n k g => Sys2Proof.Machine.execCrossingSwitchInstant n k g s
  | .groupRetire n k g clk bs => Sys2Proof.Machine.execGroupRetire n k g clk bs s
  | .groupConversion n k g => Sys2Proof.Machine.execGroupConversion n k g s
  | .gkCmdSwap w n k g l => Sys2Proof.Machine.execGkCmdSwap w n k g l s
  | .gkCmdRetire w n k g bs => Sys2Proof.Machine.execGkCmdRetire w n k g bs s
  | .crossingFrameReceive n k lc data flips => Sys2Proof.Machine.execCrossingFrameReceive n k lc data flips s
  | .rcAccess n line write data src fn ecc => Sys2Proof.Machine.execRcAccess n line write data src fn ecc s
  | .crds n line => Sys2Proof.Machine.execCrds n line s
  | .crdx n line => Sys2Proof.Machine.execCrdx n line s
  | .cupg n line => Sys2Proof.Machine.execCupg n line s
  | .cevc n line => Sys2Proof.Machine.execCevc n line s
  | .hsni n line => Sys2Proof.Machine.execHsni n line s
  | .hsns n line => Sys2Proof.Machine.execHsns n line s
  | .cack n line atHome => Sys2Proof.Machine.execCack n line atHome s
  | .datax n line => Sys2Proof.Machine.execDatax n line s
  | .dirtyEviction n => Sys2Proof.Machine.execDirtyEviction n s
  | .rcFlushRange w n => Sys2Proof.Machine.execRcFlushRange w n s
  | .rcCleanRange w n => Sys2Proof.Machine.execRcCleanRange w n s
  | .rcInvalidateReadMostly w n => Sys2Proof.Machine.execRcInvalidateReadMostly w n s
  | .rcFlushAll w n => Sys2Proof.Machine.execRcFlushAll w n s
  | .rcCmdDone n => Sys2Proof.Machine.execRcCmdDone n s
  | .rcwEnable w x => Sys2Proof.Machine.execRcwEnable w x s
  | .rcwDisable w x => Sys2Proof.Machine.execRcwDisable w x s
  | .rcwDisableDone x => Sys2Proof.Machine.execRcwDisableDone x s
  | .homeUnreachable st => Sys2Proof.Machine.execHomeUnreachable st s
  | .homeRecallDone st => Sys2Proof.Machine.execHomeRecallDone st s
  | .rcLossTimeout n => Sys2Proof.Machine.execRcLossTimeout n s
  | .hbmFrontPipeEntry st => Sys2Proof.Machine.execHbmFrontPipeEntry st s
  | .hbmSchedule st c demand par => Sys2Proof.Machine.execHbmSchedule st c demand par s
  | .hbmReadComplete st c n line finding level mirror flips => Sys2Proof.Machine.execHbmReadComplete st c n line finding level mirror flips s
  | .hbmRefreshDue st c => Sys2Proof.Machine.execHbmRefreshDue st c s
  | .hbmTempReading st temp => Sys2Proof.Machine.execHbmTempReading st temp s
  | .hbmRefreshBurst st => Sys2Proof.Machine.execHbmRefreshBurst st s
  | .refreshBurstPermitTimeout st => Sys2Proof.Machine.execRefreshBurstPermitTimeout st s
  | .hbmTrainingStart st => Sys2Proof.Machine.execHbmTrainingStart st s
  | .hbmTrainPermitTimeout st => Sys2Proof.Machine.execHbmTrainPermitTimeout st s
  | .hbmTrainingDone st lrep temp rfm => Sys2Proof.Machine.execHbmTrainingDone st lrep temp rfm s
  | .hbmTrainingFail st => Sys2Proof.Machine.execHbmTrainingFail st s
  | .zeroFillDone st softLeft repaired unrepaired => Sys2Proof.Machine.execZeroFillDone st softLeft repaired unrepaired s
  | .hbmTrainRetry st => Sys2Proof.Machine.execHbmTrainRetry st s
  | .hbmRetrainPeriod st => Sys2Proof.Machine.execHbmRetrainPeriod st s
  | .hbmCmdRetrain w st => Sys2Proof.Machine.execHbmCmdRetrain w st s
  | .hbmChannelRetrainDone st failing => Sys2Proof.Machine.execHbmChannelRetrainDone st failing s
  | .hbmCmdSelfRefresh w st => Sys2Proof.Machine.execHbmCmdSelfRefresh w st s
  | .hbmCmdSelfRefreshExit w st => Sys2Proof.Machine.execHbmCmdSelfRefreshExit w st s
  | .selfRefreshEntered st => Sys2Proof.Machine.execSelfRefreshEntered st s
  | .selfRefreshExitGrant st => Sys2Proof.Machine.execSelfRefreshExitGrant st s
  | .hbmPowerDown st => Sys2Proof.Machine.execHbmPowerDown st s
  | .hbmScrubBurst st found granted => Sys2Proof.Machine.execHbmScrubBurst st found granted s
  | .hbmIlvWrite w v => Sys2Proof.Machine.execHbmIlvWrite w v s
  | .hbmHashWrite w st x v => Sys2Proof.Machine.execHbmHashWrite w st x v s
  | .sealClaim w st r => Sys2Proof.Machine.execSealClaim w st r s
  | .enable w st r => Sys2Proof.Machine.execEnable w st r s
  | .disable w st r => Sys2Proof.Machine.execDisable w st r s
  | .rekey w st r => Sys2Proof.Machine.execRekey w st r s
  | .sealResume w st r => Sys2Proof.Machine.execSealResume w st r s
  | .sealKeyGenerate w st slot => Sys2Proof.Machine.execSealKeyGenerate w st slot s
  | .sealKeyImport w st slot session => Sys2Proof.Machine.execSealKeyImport w st slot session s
  | .sealKeyErase w st slot => Sys2Proof.Machine.execSealKeyErase w st slot s
  | .sealKeyDone st keys => Sys2Proof.Machine.execSealKeyDone st keys s
  | .sweepPermitGrant st => Sys2Proof.Machine.execSweepPermitGrant st s
  | .sweepPermitTimeout st => Sys2Proof.Machine.execSweepPermitTimeout st s
  | .sweepChunk st bad => Sys2Proof.Machine.execSweepChunk st bad s
  | .sealRateWrite w st rate => Sys2Proof.Machine.execSealRateWrite w st rate s
  | .nodeLost st r level node => Sys2Proof.Machine.execNodeLost st r level node s
  | .repairPermitRetry st => Sys2Proof.Machine.execRepairPermitRetry st s
  | .counterCacheWriteback st r level node => Sys2Proof.Machine.execCounterCacheWriteback st r level node s
  | .leafReencryptDone st bad => Sys2Proof.Machine.execLeafReencryptDone st bad s
  | .bundleEnable w b => Sys2Proof.Machine.execBundleEnable w b s
  | .bundleDisable w b => Sys2Proof.Machine.execBundleDisable w b s
  | .bundleBringup b => Sys2Proof.Machine.execBundleBringup b s
  | .bundlePllLockCheck b locked => Sys2Proof.Machine.execBundlePllLockCheck b locked s
  | .bundleTrainDecision b rx => Sys2Proof.Machine.execBundleTrainDecision b rx s
  | .bundleRetrain w b => Sys2Proof.Machine.execBundleRetrain w b s
  | .bundlePermitTimeout b => Sys2Proof.Machine.execBundlePermitTimeout b s
  | .laneCtlWrite w l v => Sys2Proof.Machine.execLaneCtlWrite w l v s
  | .loopMeasure w l => Sys2Proof.Machine.execLoopMeasure w l s
  | .loopMeasureDone l ui => Sys2Proof.Machine.execLoopMeasureDone l ui s
  | .laneInjectError w l => Sys2Proof.Machine.execLaneInjectError w l s
  | .laneSlip w l c => Sys2Proof.Machine.execLaneSlip w l c s
  | .laneTimingWrite w l v => Sys2Proof.Machine.execLaneTimingWrite w l v s
  | .lossOfSignal trunk l => Sys2Proof.Machine.execLossOfSignal trunk l s
  | .lossOfLock trunk l => Sys2Proof.Machine.execLossOfLock trunk l s
  | .lossConditionEnd trunk l lol => Sys2Proof.Machine.execLossConditionEnd trunk l lol s
  | .lanePortRxWord l data taken => Sys2Proof.Machine.execLanePortRxWord l data taken s
  | .trunkEnable w t => Sys2Proof.Machine.execTrunkEnable w t s
  | .trunkAdapt t => Sys2Proof.Machine.execTrunkAdapt t s
  | .trunkConverged t snr => Sys2Proof.Machine.execTrunkConverged t snr s
  | .trunkNoSignal t => Sys2Proof.Machine.execTrunkNoSignal t s
  | .trunkReadapt w t => Sys2Proof.Machine.execTrunkReadapt w t s
  | .trunkInjectError w t => Sys2Proof.Machine.execTrunkInjectError w t s
  | .trunkPermitTimeout t => Sys2Proof.Machine.execTrunkPermitTimeout t s
  | .trFfeWrite w t pre2 pre1 post1 => Sys2Proof.Machine.execTrFfeWrite w t pre2 pre1 post1 s
  | .captureBeat t samples taken => Sys2Proof.Machine.execCaptureBeat t samples taken s
  | .dbSqTail f q v => Sys2Proof.Machine.execDbSqTail f q v s
  | .dbCqHead f q v => Sys2Proof.Machine.execDbCqHead f q v s
  | .qpEnable w q => Sys2Proof.Machine.execQpEnable w q s
  | .qpDisable w q => Sys2Proof.Machine.execQpDisable w q s
  | .descriptorFetch desc => Sys2Proof.Machine.execDescriptorFetch desc s
  | .nop q => Sys2Proof.Machine.execNop q s
  | .h2d q => Sys2Proof.Machine.execH2d q s
  | .d2h q => Sys2Proof.Machine.execD2h q s
  | .d2d q => Sys2Proof.Machine.execD2d q s
  | .dmaLineComplete q n data rd wr fault => Sys2Proof.Machine.execDmaLineComplete q n data rd wr fault s
  | .engLoad q => Sys2Proof.Machine.execEngLoad q s
  | .engStart q => Sys2Proof.Machine.execEngStart q s
  | .engStop q => Sys2Proof.Machine.execEngStop q s
  | .failDrain q => Sys2Proof.Machine.execFailDrain q s
  | .cfgLoad q hdr unwrap => Sys2Proof.Machine.execCfgLoad q hdr unwrap s
  | .cfgRecord rec_ => Sys2Proof.Machine.execCfgRecord rec_ s
  | .imageVerifyEnd sigOk tagOk => Sys2Proof.Machine.execImageVerifyEnd sigOk tagOk s
  | .laneCmd q => Sys2Proof.Machine.execLaneCmd q s
  | .timeRead q => Sys2Proof.Machine.execTimeRead q s
  | .timeStep q => Sys2Proof.Machine.execTimeStep q s
  | .timeAdjust q => Sys2Proof.Machine.execTimeAdjust q s
  | .fence q => Sys2Proof.Machine.execFence q s
  | .mailbox q req => Sys2Proof.Machine.execMailbox q req s
  | .mailboxTimeout n => Sys2Proof.Machine.execMailboxTimeout n s
  | .completionWrite q n ok => Sys2Proof.Machine.execCompletionWrite q n ok s
  | .msixHoldoffExpiry f v => Sys2Proof.Machine.execMsixHoldoffExpiry f v s
  | .bar4Read f off n => Sys2Proof.Machine.execBar4Read f off n s
  | .bar4Write f off bs => Sys2Proof.Machine.execBar4Write f off bs s
  | .functionLevelReset f => Sys2Proof.Machine.execFunctionLevelReset f s
  | .flrDone f => Sys2Proof.Machine.execFlrDone f s
  | .busMasterDisable f on => Sys2Proof.Machine.execBusMasterDisable f on s
  | .pcieLinkDown p => Sys2Proof.Machine.execPcieLinkDown p s
  | .step_ w force => Sys2Proof.Machine.execStep w force s
  | .set_ w force => Sys2Proof.Machine.execSet w force s
  | .stepApply => Sys2Proof.Machine.execStepApply s
  | .sxAdjWrite w v => Sys2Proof.Machine.execSxAdjWrite w v s
  | .sxCtlWrite w v => Sys2Proof.Machine.execSxCtlWrite w v s
  | .ptpRxEvent p ptp type seq => Sys2Proof.Machine.execPtpRxEvent p ptp type seq s
  | .ptpTxEvent p type seq => Sys2Proof.Machine.execPtpTxEvent p type seq s
  | .tcForward p type ident seq corr resid two full => Sys2Proof.Machine.execTcForward p type ident seq corr resid two full s
  | .residenceTimeout => Sys2Proof.Machine.execResidenceTimeout s
  | .sxTxqPop w p => Sys2Proof.Machine.execSxTxqPop w p s
  | .servoMeasurement ofs mpd seq rate => Sys2Proof.Machine.execServoMeasurement ofs mpd seq rate s
  | .ppsPulse => Sys2Proof.Machine.execPpsPulse s
  | .ppsEnd => Sys2Proof.Machine.execPpsEnd s
  | .clkSourceSelect w sel good spread => Sys2Proof.Machine.execClkSourceSelect w sel good spread s
  | .glideDone => Sys2Proof.Machine.execGlideDone s
  | .clockSourceFail silent w1 w2 expect => Sys2Proof.Machine.execClockSourceFail silent w1 w2 expect s
  | .oscErrMeasure err => Sys2Proof.Machine.execOscErrMeasure err s
  | .clockAutoReturn => Sys2Proof.Machine.execClockAutoReturn s
  | .clkSrcReturn w good => Sys2Proof.Machine.execClkSrcReturn w good s
  | .clkSscWrite w depth freq => Sys2Proof.Machine.execClkSscWrite w depth freq s
  | .clkoutSwitch w x src => Sys2Proof.Machine.execClkoutSwitch w x src s
  | .spnSynWrite w k freq => Sys2Proof.Machine.execSpnSynWrite w k freq s
  | .fsynFreqWrite w n k v freq => Sys2Proof.Machine.execFsynFreqWrite w n k v freq s
  | .synthGlideStep n k => Sys2Proof.Machine.execSynthGlideStep n k s
  | .vselSequence w n v => Sys2Proof.Machine.execVselSequence w n v s
  | .railSettleCheck n ok => Sys2Proof.Machine.execRailSettleCheck n ok s
  | .synthRiseGrant n k => Sys2Proof.Machine.execSynthRiseGrant n k s
  | .pwrEnterP1 w n => Sys2Proof.Machine.execPwrEnterP1 w n s
  | .pwrEnterP2 w n => Sys2Proof.Machine.execPwrEnterP2 w n s
  | .pwrEnterP3 w n => Sys2Proof.Machine.execPwrEnterP3 w n s
  | .pwrReturnP0 w n rail fuse => Sys2Proof.Machine.execPwrReturnP0 w n rail fuse s
  | .pwrTransitionDone n => Sys2Proof.Machine.execPwrTransitionDone n s
  | .permitRequest p => Sys2Proof.Machine.execPermitRequest p s
  | .permitGrant g => Sys2Proof.Machine.execPermitGrant g s
  | .permitReturn g op => Sys2Proof.Machine.execPermitReturn g op s
  | .stepPermitReturn g => Sys2Proof.Machine.execStepPermitReturn g s
  | .permitTimeout g => Sys2Proof.Machine.execPermitTimeout g s
  | .powerOnReset => Sys2Proof.Machine.execPowerOnReset s
  | .packageReset t => Sys2Proof.Machine.execPackageReset t s
  | .bootStageComplete fitted fuses sigA sigB srcOk octal bs => Sys2Proof.Machine.execBootStageComplete fitted fuses sigA sigB srcOk octal bs s
  | .dieRailAbsent n => Sys2Proof.Machine.execDieRailAbsent n s
  | .dieRelease n rail => Sys2Proof.Machine.execDieRelease n rail s
  | .selfTestDone n cols rkn rows lost => Sys2Proof.Machine.execSelfTestDone n cols rkn rows lost s
  | .dieReleaseDone n bs => Sys2Proof.Machine.execDieReleaseDone n bs s
  | .dieStartFail n cause => Sys2Proof.Machine.execDieStartFail n cause s
  | .cfgAutoload unwrap => Sys2Proof.Machine.execCfgAutoload unwrap s
  | .rstUnlock w key => Sys2Proof.Machine.execRstUnlock w key s
  | .hubWarmReset t => Sys2Proof.Machine.execHubWarmReset t s
  | .plannedDieReset w n => Sys2Proof.Machine.execPlannedDieReset w n s
  | .dieStart w n rail => Sys2Proof.Machine.execDieStart w n rail s
  | .dieLost n cause powered => Sys2Proof.Machine.execDieLost n cause powered s
  | .dieClockLost n flushed => Sys2Proof.Machine.execDieClockLost n flushed s
  | .dieClockRestored n => Sys2Proof.Machine.execDieClockRestored n s
  | .dieAutoRestart n rail => Sys2Proof.Machine.execDieAutoRestart n rail s
  | .railFault r => Sys2Proof.Machine.execRailFault r s
  | .telemetrySample site temp mv amp => Sys2Proof.Machine.execTelemetrySample site temp mv amp s
  | .thermtripRelease => Sys2Proof.Machine.execThermtripRelease s
  | .lifeHoursUpdate site => Sys2Proof.Machine.execLifeHoursUpdate site s
  | .configScrubFrame n cor unc fails slow => Sys2Proof.Machine.execConfigScrubFrame n cor unc fails slow s
  | .attest n => Sys2Proof.Machine.execAttest n s
  | .getCerts n => Sys2Proof.Machine.execGetCerts n s
  | .sessionOpen n => Sys2Proof.Machine.execSessionOpen n s
  | .keyDeposit n => Sys2Proof.Machine.execKeyDeposit n s
  | .sessionClose n => Sys2Proof.Machine.execSessionClose n s
  | .sessionIdleTimeout v => Sys2Proof.Machine.execSessionIdleTimeout v s
  | .counterCommit n stop => Sys2Proof.Machine.execCounterCommit n stop s
  | .takeOwnership n kek how => Sys2Proof.Machine.execTakeOwnership n kek how s
  | .revokeOwnerKey n by_ fuseOk => Sys2Proof.Machine.execRevokeOwnerKey n by_ fuseOk s
  | .retire n by_ => Sys2Proof.Machine.execRetire n by_ s
  | .trngHealthFail => Sys2Proof.Machine.execTrngHealthFail s
  | .debugChallenge p l => Sys2Proof.Machine.execDebugChallenge p l s
  | .debugCertSubmit p l issuerSig subjectSig => Sys2Proof.Machine.execDebugCertSubmit p l issuerSig subjectSig s
  | .debugPasswordSubmit p l => Sys2Proof.Machine.execDebugPasswordSubmit p l s
  | .recoveryBegin w slot len => Sys2Proof.Machine.execRecoveryBegin w slot len s
  | .recoveryData w v => Sys2Proof.Machine.execRecoveryData w v s
  | .recoveryEnd w sig flashOk => Sys2Proof.Machine.execRecoveryEnd w sig flashOk s
  | .helmCoreRelease w c => Sys2Proof.Machine.execHelmCoreRelease w c s
  | .helmCoreStart c => Sys2Proof.Machine.execHelmCoreStart c s
  | .helmCoreReset w c acts => Sys2Proof.Machine.execHelmCoreReset w c acts s
  | .fabricIrqLine n x high => Sys2Proof.Machine.execFabricIrqLine n x high s
  | .helmIcSet w src => Sys2Proof.Machine.execHelmIcSet w src s
  | .helmIcClaim w c => Sys2Proof.Machine.execHelmIcClaim w c s
  | .helmIcComplete w c src => Sys2Proof.Machine.execHelmIcComplete w c src s
  | .helmNmi c acts pc prv mie handling => Sys2Proof.Machine.execHelmNmi c acts pc prv mie handling s
  | .dbgMonitorHalt w c => Sys2Proof.Machine.execDbgMonitorHalt w c s
  | .dbgHardHalt w c acts pc prv mie => Sys2Proof.Machine.execDbgHardHalt w c acts pc prv mie s
  | .dbgHardRelease w c => Sys2Proof.Machine.execDbgHardRelease w c s
  | .monitorEntry c acts pc prv mie ebreak => Sys2Proof.Machine.execMonitorEntry c acts pc prv mie ebreak s
  | .monitorExit c stp => Sys2Proof.Machine.execMonitorExit c stp s
  | .dbgRegRead w c reg => Sys2Proof.Machine.execDbgRegRead w c reg s
  | .dbgRegWrite w c reg => Sys2Proof.Machine.execDbgRegWrite w c reg s
  | .wdtKick w c key => Sys2Proof.Machine.execWdtKick w c key s
  | .wdtUnlock w c key => Sys2Proof.Machine.execWdtUnlock w c key s
  | .wdtExpiry c => Sys2Proof.Machine.execWdtExpiry c s
  | .patchWrite w c u data v => Sys2Proof.Machine.execPatchWrite w c u data v s
  | .flashSectorRewritten ok => Sys2Proof.Machine.execFlashSectorRewritten ok s
  | .helmMailboxGo w c => Sys2Proof.Machine.execHelmMailboxGo w c s
  | .helmMailboxDone c => Sys2Proof.Machine.execHelmMailboxDone c s
  | .pelPeek p => Sys2Proof.Machine.execPelPeek p s
  | .pelConsume p env => Sys2Proof.Machine.execPelConsume p env s
  | .pelRegWrite p env => Sys2Proof.Machine.execPelRegWrite p env s
  | .pelMemRead p env => Sys2Proof.Machine.execPelMemRead p env s
  | .pelMemWrite p env => Sys2Proof.Machine.execPelMemWrite p env s
  | .pelAccessDone p => Sys2Proof.Machine.execPelAccessDone p s
  | .pelRst p => Sys2Proof.Machine.execPelRst p s
  | .idcode => Sys2Proof.Machine.execIdcode s
  | .samplePreload pins bits => Sys2Proof.Machine.execSamplePreload pins bits s
  | .extest pins bits => Sys2Proof.Machine.execExtest pins bits s
  | .extestPulse pins bits => Sys2Proof.Machine.execExtestPulse pins bits s
  | .extestTrain pins bits => Sys2Proof.Machine.execExtestTrain pins bits s
  | .clamp => Sys2Proof.Machine.execClamp s
  | .highz => Sys2Proof.Machine.execHighz s
  | .pelReg dr env => Sys2Proof.Machine.execPelReg dr env s
  | .bypass code => Sys2Proof.Machine.execBypass code s
  | .evtJournalRead n => Sys2Proof.Machine.execEvtJournalRead n s
  | .telemetryRead n => Sys2Proof.Machine.execTelemetryRead n s
  | .repairRead n => Sys2Proof.Machine.execRepairRead n s
  | .flashErase n => Sys2Proof.Machine.execFlashErase n s
  | .flashWrite n => Sys2Proof.Machine.execFlashWrite n s
  | .dirWrite n => Sys2Proof.Machine.execDirWrite n s
  | .scrubNow n => Sys2Proof.Machine.execScrubNow n s
  | .resetRelease refSel testEn => Sys2Proof.Machine.execResetRelease refSel testEn s
  | .crossingFramesMissing n k lc => Sys2Proof.Machine.execCrossingFramesMissing n k lc s
  | .checkerLock trunk l rx => Sys2Proof.Machine.execCheckerLock trunk l rx s
  | .checkerLockLoss trunk l rx => Sys2Proof.Machine.execCheckerLockLoss trunk l rx s
  | .ptpPortStateChange p st link ofs => Sys2Proof.Machine.execPtpPortStateChange p st link ofs s
  | .pcieLinkUp p => Sys2Proof.Machine.execPcieLinkUp p s
  | .trngHealthRecover => Sys2Proof.Machine.execTrngHealthRecover s
  | .trngWaitTimeout st => Sys2Proof.Machine.execTrngWaitTimeout st s

end Sys2Proof.Machine
end

