-- ==== Sys2Proof/Machine/Step.lean ====
section
/-! DEFINITION. One step of the block: the command at the front of the queue; on an empty queue, time passes. -/

namespace Sys2Proof.Machine

/-- The tick of the model's clock: one nanosecond passes, in which the lanes and the user's designs do what they do
(log entries 2, 24 and 126). -/
def State.tick (s : State) : State := (s.lapse 1).laneNs.userNs

/-- One step: the command at the front of the queue acts on the state with the rest of the queue; with no command waiting
one nanosecond passes (DESIGN CHOICE, log entry 2). -/
def step (s : State) : Host.Outcome State Fault Refusal :=
  match s.pending with
  | [] => .next s.tick
  | c :: rest => exec c { s with pending := rest }

/-- `s` with the command that a word spells in front of its queue; no word spells one. -/
def State.withFetchWord (s : State) (nbits w : Nat) : State :=
  match decodeTableWord nbits w with
  | some c => { s with pending := c :: s.pending }
  | none => s

end Sys2Proof.Machine
end

