-- ==== Sys2Proof/Machine/Frames.lean ====
section
/-! DEFINITION. The parts of the state and sets of register fields, in which statements say what a command may change. -/

namespace Sys2Proof.Machine

/-- The parts of the state, one for each field of it. -/
inductive Part where
  | pending | now | local_ | clocksUp | regs | answer | out | draws | stewards | evlog
  | jtodo | journal | health | repairs | govs | sec | tree | fab | eng | fixq
  | bcasts | hbm | poison | win | flash | rcLines | rcMiss | rcWb | sf | sfAge
  | haIn | haTx | homeOut | rcLossT | seals | leafMaj | leafMin | innerC | ccache | hwm
  | lostN | reenc | ccT | keys | keyOp | sessions | lastSes | hbmPort | hbmPc | stack
  | arbs | rtq | ni | bearings | rtPend | drainT | gkLink | gkDir | gkPool | crossIn
  | lane | trunk | bundle | hubDown | rebaseDue | qps | rot | vecs | mail | pcie
  | cfgWait | cfgLoad | loadN | cfg | cfgMeas | fwMeas | sxq | txq | residences | stepN
  | rxStamp | sxDiscard | sxMeas | ppsEnd | spinePull | anchorE | anchorT | synth | fvs | dieRt
  | hold | relq | rstq | flashMode | stage2T | auto | noAuto | warm | warmT | rstUnlock
  | tele | ioOff | lsFuse | transport | trngT | trngSaid | dbgWait | rcvN | flashOp | helm
  | helmL1 | helmL2 | flashC | irqLine | pel | tap | scrub
  deriving DecidableEq, Repr

/-- A part is the same in two states. -/
def Part.same (s t : State) : Part → Prop
  | .pending => t.pending = s.pending
  | .now => t.now = s.now
  | .local_ => t.local_ = s.local_
  | .clocksUp => t.clocksUp = s.clocksUp
  | .regs => t.regs = s.regs
  | .answer => t.answer = s.answer
  | .out => t.out = s.out
  | .draws => t.draws = s.draws
  | .stewards => t.stewards = s.stewards
  | .evlog => t.evlog = s.evlog
  | .jtodo => t.jtodo = s.jtodo
  | .journal => t.journal = s.journal
  | .health => t.health = s.health
  | .repairs => t.repairs = s.repairs
  | .govs => t.govs = s.govs
  | .sec => t.sec = s.sec
  | .tree => t.tree = s.tree
  | .fab => t.fab = s.fab
  | .eng => t.eng = s.eng
  | .fixq => t.fixq = s.fixq
  | .bcasts => t.bcasts = s.bcasts
  | .hbm => t.hbm = s.hbm
  | .poison => t.poison = s.poison
  | .win => t.win = s.win
  | .flash => t.flash = s.flash
  | .rcLines => t.rcLines = s.rcLines
  | .rcMiss => t.rcMiss = s.rcMiss
  | .rcWb => t.rcWb = s.rcWb
  | .sf => t.sf = s.sf
  | .sfAge => t.sfAge = s.sfAge
  | .haIn => t.haIn = s.haIn
  | .haTx => t.haTx = s.haTx
  | .homeOut => t.homeOut = s.homeOut
  | .rcLossT => t.rcLossT = s.rcLossT
  | .seals => t.seals = s.seals
  | .leafMaj => t.leafMaj = s.leafMaj
  | .leafMin => t.leafMin = s.leafMin
  | .innerC => t.innerC = s.innerC
  | .ccache => t.ccache = s.ccache
  | .hwm => t.hwm = s.hwm
  | .lostN => t.lostN = s.lostN
  | .reenc => t.reenc = s.reenc
  | .ccT => t.ccT = s.ccT
  | .keys => t.keys = s.keys
  | .keyOp => t.keyOp = s.keyOp
  | .sessions => t.sessions = s.sessions
  | .lastSes => t.lastSes = s.lastSes
  | .hbmPort => t.hbmPort = s.hbmPort
  | .hbmPc => t.hbmPc = s.hbmPc
  | .stack => t.stack = s.stack
  | .arbs => t.arbs = s.arbs
  | .rtq => t.rtq = s.rtq
  | .ni => t.ni = s.ni
  | .bearings => t.bearings = s.bearings
  | .rtPend => t.rtPend = s.rtPend
  | .drainT => t.drainT = s.drainT
  | .gkLink => t.gkLink = s.gkLink
  | .gkDir => t.gkDir = s.gkDir
  | .gkPool => t.gkPool = s.gkPool
  | .crossIn => t.crossIn = s.crossIn
  | .lane => t.lane = s.lane
  | .trunk => t.trunk = s.trunk
  | .bundle => t.bundle = s.bundle
  | .hubDown => t.hubDown = s.hubDown
  | .rebaseDue => t.rebaseDue = s.rebaseDue
  | .qps => t.qps = s.qps
  | .rot => t.rot = s.rot
  | .vecs => t.vecs = s.vecs
  | .mail => t.mail = s.mail
  | .pcie => t.pcie = s.pcie
  | .cfgWait => t.cfgWait = s.cfgWait
  | .cfgLoad => t.cfgLoad = s.cfgLoad
  | .loadN => t.loadN = s.loadN
  | .cfg => t.cfg = s.cfg
  | .cfgMeas => t.cfgMeas = s.cfgMeas
  | .fwMeas => t.fwMeas = s.fwMeas
  | .sxq => t.sxq = s.sxq
  | .txq => t.txq = s.txq
  | .residences => t.residences = s.residences
  | .stepN => t.stepN = s.stepN
  | .rxStamp => t.rxStamp = s.rxStamp
  | .sxDiscard => t.sxDiscard = s.sxDiscard
  | .sxMeas => t.sxMeas = s.sxMeas
  | .ppsEnd => t.ppsEnd = s.ppsEnd
  | .spinePull => t.spinePull = s.spinePull
  | .anchorE => t.anchorE = s.anchorE
  | .anchorT => t.anchorT = s.anchorT
  | .synth => t.synth = s.synth
  | .fvs => t.fvs = s.fvs
  | .dieRt => t.dieRt = s.dieRt
  | .hold => t.hold = s.hold
  | .relq => t.relq = s.relq
  | .rstq => t.rstq = s.rstq
  | .flashMode => t.flashMode = s.flashMode
  | .stage2T => t.stage2T = s.stage2T
  | .auto => t.auto = s.auto
  | .noAuto => t.noAuto = s.noAuto
  | .warm => t.warm = s.warm
  | .warmT => t.warmT = s.warmT
  | .rstUnlock => t.rstUnlock = s.rstUnlock
  | .tele => t.tele = s.tele
  | .ioOff => t.ioOff = s.ioOff
  | .lsFuse => t.lsFuse = s.lsFuse
  | .transport => t.transport = s.transport
  | .trngT => t.trngT = s.trngT
  | .trngSaid => t.trngSaid = s.trngSaid
  | .dbgWait => t.dbgWait = s.dbgWait
  | .rcvN => t.rcvN = s.rcvN
  | .flashOp => t.flashOp = s.flashOp
  | .helm => t.helm = s.helm
  | .helmL1 => t.helmL1 = s.helmL1
  | .helmL2 => t.helmL2 = s.helmL2
  | .flashC => t.flashC = s.flashC
  | .irqLine => t.irqLine = s.irqLine
  | .pel => t.pel = s.pel
  | .tap => t.tap = s.tap
  | .scrub => t.scrub = s.scrub

/-- A set of register fields: those listed, those of a class listed, those of an access kind listed, or every one. -/
structure FSet where
  flds : List Fld
  cls : List Cls
  acc : List Acc
  every : Bool
  deriving DecidableEq, Repr

/-- Every field. -/
def FSet.all : FSet := ⟨[], [], [], true⟩

/-- The field is in the set. -/
def hasFld (L : FSet) (f : Fld) : Bool := L.every || L.flds.contains f || L.cls.contains f.spec.cls || L.acc.contains f.spec.acc

/-- A write by `w` of an instance of a register reaches its block: the writer is not muted by its function's reset (R347),
the die is in service (R23) and its block not powered down in P2 (R389), and no unlock of `RST_CMD` is pending in the hub
global region (R416). -/
def State.reaches (s : State) (w : Writer) (r : Reg) (i : List Nat) : Bool :=
  !s.mute w && (decide (8 ≤ r.site i) || (s.up (r.site i) && !(r.infra && s.rd .PWR_DIE_STAT_PSTATE [r.site i] == 2))) &&
    !(r.hubGlobal i && s.unlocked)

/-- Requester `who` may act on a grant of operation `op` of governor `g`: the governor has given it, or its request is the
last of its chain, at the head of the queue, and fits (R391). -/
def State.grantReady (s : State) (g op : Nat) (who : List Nat) : Bool :=
  (s.gov g).ready.any (·.is op who) || (match (s.gov g).queue with
    | p :: _ => p.is op who && p.chain.isEmpty && s.headFits g
    | [] => false)

/-- Requester `who` may act on a timeout of operation `op` at governor `g`: the request has been withdrawn, or it waits and
has a timeout (R393). -/
def State.timeoutReady (s : State) (g op : Nat) (who : List Nat) : Bool :=
  (s.gov g).expired.any (·.is op who) || (match (s.gov g).queue.find? (·.is op who) with
    | some p => p.due != 0
    | none => false)

/-- What `execBlockErrorReport` may change. -/
def partsBlockErrorReport : List Part := [.stewards]
def fieldsBlockErrorReport : FSet := ⟨[], [], [], false⟩

/-- What `execOverflowEvent` may change. -/
def partsOverflowEvent : List Part := [.stewards]
def fieldsOverflowEvent : FSet := ⟨[], [], [], false⟩

/-- What `execEventLogAppend` may change. -/
def partsEventLogAppend : List Part := [.regs, .stewards, .evlog, .jtodo]
def fieldsEventLogAppend : FSet :=
  ⟨[.EVT_INFO_CNT_COUNT, .EVT_LOST_CNT_COUNT, .EVT_NEXT_SEQ, .HELM_IC_PEND_BITS], [], [], false⟩

/-- What `execEvtAckWrite` may change. -/
def partsEvtAckWrite : List Part := [.regs, .stewards]
def fieldsEvtAckWrite : FSet := ⟨[.EVT_ACK_SEQ], [], [], false⟩

/-- What `execJournalWrite` may change. -/
def partsJournalWrite : List Part := [.jtodo, .journal]
def fieldsJournalWrite : FSet := ⟨[], [], [], false⟩

/-- What `execSectorReset` may change. -/
def partsSectorReset : List Part := [.regs, .stewards, .govs, .sec, .fab, .rstUnlock]
def fieldsSectorReset : FSet :=
  ⟨[.SEC_CTL_RESET, .SEC_STATUS_ISOLATED, .SEC_STATUS_PERMIT_WAIT, .SEC_STATUS_RESET_HELD, .SEC_STATUS_STATE], [.sec],
    [], false⟩

/-- What `execSectorReleaseRequest` may change. -/
def partsSectorReleaseRequest : List Part := [.regs, .stewards, .govs, .rstUnlock]
def fieldsSectorReleaseRequest : FSet :=
  ⟨[.PG_ERR_OP, .PG_ERR_OVERSIZE, .PG_ERR_UNITS, .PG_ERR_VALID, .PG_TO_CNT_COUNT, .SEC_CTL_RESET,
    .SEC_STATUS_PERMIT_WAIT], [], [], false⟩

/-- What `execSectorRelease` may change. -/
def partsSectorRelease : List Part := [.now, .local_, .regs, .stewards, .govs, .sec, .spinePull]
def fieldsSectorRelease : FSet :=
  ⟨[.PG_ERR_OP, .PG_ERR_OVERSIZE, .PG_ERR_UNITS, .PG_ERR_VALID, .PG_GRANT_CNT_COUNT, .PG_TO_CNT_COUNT,
    .SEC_STATUS_ISOLATED, .SEC_STATUS_PERMIT_WAIT, .SEC_STATUS_STATE], [], [], false⟩

/-- What `execSectorReleaseTimeout` may change. -/
def partsSectorReleaseTimeout : List Part := [.now, .local_, .regs, .stewards, .govs, .spinePull]
def fieldsSectorReleaseTimeout : FSet :=
  ⟨[.PG_ERR_OP, .PG_ERR_OVERSIZE, .PG_ERR_UNITS, .PG_ERR_VALID, .PG_TO_CNT_COUNT, .SEC_CTL_RESET,
    .SEC_STATUS_PERMIT_WAIT], [], [], false⟩

/-- What `execMigrate` may change. -/
def partsMigrate : List Part := [.regs, .stewards, .sec, .rstUnlock]
def fieldsMigrate : FSet := ⟨[.SEC_STATUS_STATE], [], [], false⟩

/-- What `execMigrationGated` may change. -/
def partsMigrationGated : List Part := [.now, .local_, .sec, .spinePull]
def fieldsMigrationGated : FSet := ⟨[], [], [], false⟩

/-- What `execMigrationCaptureDone` may change. -/
def partsMigrationCaptureDone : List Part := [.now, .local_, .sec, .spinePull]
def fieldsMigrationCaptureDone : FSet := ⟨[], [], [], false⟩

/-- What `execMigrationRewriteDone` may change. -/
def partsMigrationRewriteDone : List Part := [.now, .local_, .regs, .stewards, .health, .sec, .spinePull]
def fieldsMigrationRewriteDone : FSet :=
  ⟨[.MGMT_HEALTH_STAGE, .MGMT_HEALTH_ZERO, .SEC_COLMAP_ACTIVE, .SEC_STATUS_PENDING_REMAP, .SEC_STATUS_RESET_HELD,
    .SEC_STATUS_STATE], [], [], false⟩

/-- What `execMigrationRestoreDone` may change. -/
def partsMigrationRestoreDone : List Part := [.now, .local_, .regs, .stewards, .govs, .sec, .spinePull]
def fieldsMigrationRestoreDone : FSet :=
  ⟨[.PG_ERR_OP, .PG_ERR_OVERSIZE, .PG_ERR_UNITS, .PG_ERR_VALID, .PG_TO_CNT_COUNT], [], [], false⟩

/-- What `execMigrationRestart` may change. -/
def partsMigrationRestart : List Part := [.now, .local_, .regs, .stewards, .health, .govs, .sec, .fab, .spinePull]
def fieldsMigrationRestart : FSet :=
  ⟨[.MGMT_HEALTH_STAGE, .MGMT_HEALTH_ZERO, .PG_ERR_OP, .PG_ERR_OVERSIZE, .PG_ERR_UNITS, .PG_ERR_VALID,
    .PG_GRANT_CNT_COUNT, .PG_TO_CNT_COUNT, .SEC_CTL_RESET, .SEC_STATUS_ISOLATED, .SEC_STATUS_PENDING_REMAP,
    .SEC_STATUS_PERMIT_WAIT, .SEC_STATUS_RESET_HELD, .SEC_STATUS_STATE], [.sec], [], false⟩

/-- What `execMigrationPermitTimeout` may change. -/
def partsMigrationPermitTimeout : List Part := [.now, .local_, .regs, .stewards, .health, .govs, .sec, .fab, .spinePull]
def fieldsMigrationPermitTimeout : FSet :=
  ⟨[.MGMT_HEALTH_STAGE, .MGMT_HEALTH_ZERO, .PG_ERR_OP, .PG_ERR_OVERSIZE, .PG_ERR_UNITS, .PG_ERR_VALID, .PG_TO_CNT_COUNT,
    .SEC_CTL_RESET, .SEC_STATUS_ISOLATED, .SEC_STATUS_PENDING_REMAP, .SEC_STATUS_PERMIT_WAIT, .SEC_STATUS_RESET_HELD,
    .SEC_STATUS_STATE], [.sec], [], false⟩

/-- What `execColumnDefectFound` may change. -/
def partsColumnDefectFound : List Part := [.regs, .stewards, .health, .repairs, .govs, .sec, .fab]
def fieldsColumnDefectFound : FSet :=
  ⟨[.MGMT_HEALTH_STAGE, .MGMT_HEALTH_ZERO, .SEC_COLMAP_ACTIVE, .SEC_COLMAP_DEFECTS, .SEC_COLMAP_FIELD, .SEC_CTL_RESET,
    .SEC_STATUS_ISOLATED, .SEC_STATUS_PENDING_REMAP, .SEC_STATUS_PERMIT_WAIT, .SEC_STATUS_RESET_HELD,
    .SEC_STATUS_STATE], [.sec], [], false⟩

/-- What `execSpanContention` may change. -/
def partsSpanContention : List Part := [.regs, .stewards, .fab]
def fieldsSpanContention : FSet :=
  ⟨[.SEC_SPAN_CNT_COUNT, .SEC_SPAN_CONT, .SEC_SPAN_DIR, .SEC_SPAN_SEG, .SEC_SPAN_WINNER], [], [], false⟩

/-- What `execClockTreeSwitch` may change. -/
def partsClockTreeSwitch : List Part := [.regs, .stewards, .tree, .rstUnlock]
def fieldsClockTreeSwitch : FSet :=
  ⟨[.FCLK_GSEL_ACTIVE, .FCLK_GSEL_LOCKED, .FCLK_GSEL_SRC, .FCLK_GSEL_SWITCHING, .FCLK_RSEL_ACTIVE, .FCLK_RSEL_LOCKED,
    .FCLK_RSEL_SRC, .FCLK_RSEL_SWITCHING], [], [], false⟩

/-- What `execClockSwitchDone` may change. -/
def partsClockSwitchDone : List Part := [.regs, .tree]
def fieldsClockSwitchDone : FSet :=
  ⟨[.FCLK_GSEL_ACTIVE, .FCLK_GSEL_LOCKED, .FCLK_GSEL_SWITCHING, .FCLK_RSEL_ACTIVE, .FCLK_RSEL_LOCKED,
    .FCLK_RSEL_SWITCHING], [], [], false⟩

/-- What `execClockSwitchForced` may change. -/
def partsClockSwitchForced : List Part := [.now, .local_, .regs, .tree, .spinePull]
def fieldsClockSwitchForced : FSet :=
  ⟨[.FCLK_GSEL_ACTIVE, .FCLK_GSEL_FORCED, .FCLK_GSEL_LOCKED, .FCLK_GSEL_SWITCHING, .FCLK_RSEL_ACTIVE, .FCLK_RSEL_FORCED,
    .FCLK_RSEL_LOCKED, .FCLK_RSEL_SWITCHING], [], [], false⟩

/-- What `execMemEccError` may change. -/
def partsMemEccError : List Part := [.regs, .stewards, .repairs, .sec, .fab]
def fieldsMemEccError : FSet :=
  ⟨[.MEM_DBE_CNT_COUNT, .MEM_ECC_ADDR, .MEM_ECC_BLOCK, .MEM_ECC_COL, .MEM_ECC_DBE, .MEM_ECC_KIND, .MEM_ECC_SBE,
    .MEM_SBE_CNT_COUNT], [], [], false⟩

/-- What `execBramScrubWriteback` may change. -/
def partsBramScrubWriteback : List Part := [.sec, .fab]
def fieldsBramScrubWriteback : FSet := ⟨[], [], [], false⟩

/-- What `execRknLateAccess` may change. -/
def partsRknLateAccess : List Part := [.regs, .stewards, .fab]
def fieldsRknLateAccess : FSet :=
  ⟨[.RKN_LATE_CNT_COUNT, .RKN_STAT_BLOCK, .RKN_STAT_COL, .RKN_STAT_LATE], [], [], false⟩

/-- What `execCfgRecord` may change. -/
def partsCfgRecord : List Part :=
  [.now, .local_, .regs, .stewards, .health, .govs, .sec, .fab, .qps, .cfgWait, .cfgLoad, .cfg, .spinePull]
def fieldsCfgRecord : FSet :=
  ⟨[.BOOT_STAT_CFG, .BOOT_STAT_CFG_STATUS, .CFG_ERR_CODE, .CFG_ERR_FAR_FAR, .CFG_ERR_SECTOR, .CFG_ERR_VALID,
    .CFG_STATUS_FRAMES, .HIF_QP_DONE_CNT_COUNT, .HIF_QP_STAT_STATE, .MGMT_HEALTH_STAGE, .MGMT_HEALTH_ZERO, .PG_ERR_OP,
    .PG_ERR_OVERSIZE, .PG_ERR_UNITS, .PG_ERR_VALID, .PG_GRANT_CNT_COUNT, .PG_TO_CNT_COUNT, .SEC_COLMAP_ACTIVE,
    .SEC_CTL_RESET, .SEC_STATUS_ISOLATED, .SEC_STATUS_PENDING_REMAP, .SEC_STATUS_PERMIT_WAIT, .SEC_STATUS_RESET_HELD,
    .SEC_STATUS_STATE], [.sec], [], false⟩

/-- What `execCfgFrame` may change. -/
def partsCfgFrame : List Part :=
  [.regs, .stewards, .health, .repairs, .govs, .sec, .fab, .qps, .cfgWait, .cfgLoad, .cfg]
def fieldsCfgFrame : FSet :=
  ⟨[.BOOT_STAT_CFG, .BOOT_STAT_CFG_STATUS, .CFG_ERR_CODE, .CFG_ERR_FAR_FAR, .CFG_ERR_SECTOR, .CFG_ERR_VALID,
    .CFG_STATUS_FRAMES, .HIF_QP_DONE_CNT_COUNT, .HIF_QP_STAT_STATE, .MGMT_HEALTH_STAGE, .MGMT_HEALTH_ZERO,
    .SEC_COLMAP_ACTIVE, .SEC_COLMAP_DEFECTS, .SEC_COLMAP_FIELD, .SEC_CTL_RESET, .SEC_STATUS_ISOLATED,
    .SEC_STATUS_PENDING_REMAP, .SEC_STATUS_PERMIT_WAIT, .SEC_STATUS_RESET_HELD, .SEC_STATUS_STATE], [.sec], [], false⟩

/-- What `execImageVerifyEnd` may change. -/
def partsImageVerifyEnd : List Part :=
  [.regs, .stewards, .govs, .sec, .fab, .qps, .cfgWait, .cfgLoad, .loadN, .cfg, .cfgMeas]
def fieldsImageVerifyEnd : FSet :=
  ⟨[.BOOT_STAT_CFG, .BOOT_STAT_CFG_STATUS, .CFG_ERR_CODE, .CFG_ERR_FAR_FAR, .CFG_ERR_SECTOR, .CFG_ERR_VALID,
    .HIF_QP_DONE_CNT_COUNT, .HIF_QP_STAT_STATE, .LS_ERR_CODE, .LS_ERR_SOURCE, .LS_ERR_VALID, .LS_SVN_SVN,
    .LS_VER_CNT_COUNT, .PG_ERR_OP, .PG_ERR_OVERSIZE, .PG_ERR_UNITS, .PG_ERR_VALID, .PG_TO_CNT_COUNT, .SEC_CTL_RESET,
    .SEC_STATUS_ISOLATED, .SEC_STATUS_PERMIT_WAIT, .SEC_STATUS_RESET_HELD, .SEC_STATUS_STATE], [.sec], [], false⟩

/-- What `execCfgReleaseInstant` may change. -/
def partsCfgReleaseInstant : List Part :=
  [.now, .local_, .regs, .stewards, .govs, .sec, .qps, .cfgWait, .cfgLoad, .cfgMeas, .spinePull]
def fieldsCfgReleaseInstant : FSet :=
  ⟨[.BOOT_STAT_CFG, .BOOT_STAT_CFG_STATUS, .HIF_QP_DONE_CNT_COUNT, .HIF_QP_STAT_STATE, .LS_SVN_SVN, .PG_ERR_OP,
    .PG_ERR_OVERSIZE, .PG_ERR_UNITS, .PG_ERR_VALID, .PG_GRANT_CNT_COUNT, .PG_TO_CNT_COUNT, .SEC_CTL_RESET,
    .SEC_STATUS_ISOLATED, .SEC_STATUS_PERMIT_WAIT, .SEC_STATUS_STATE], [], [], false⟩

/-- What `execStart` may change. -/
def partsStart : List Part := [.regs, .out, .stewards, .govs, .eng, .rstUnlock]
def fieldsStart : FSet :=
  ⟨[.ENG_FAULT_CODE, .ENG_FAULT_DETAIL, .ENG_FAULT_PC, .ENG_FAULT_VALID, .ENG_GEN_V_VALUE, .ENG_LCNT_COUNT, .ENG_PC_CUR,
    .ENG_STALL_COUNT, .ENG_STATUS_END_CODE, .ENG_STATUS_FAIL, .ENG_STATUS_IN_HANDLER, .ENG_STATUS_STATE,
    .ENG_STATUS_TLATE, .ENG_STATUS_TMR_OVR, .ENG_STEPS_HI_COUNT, .ENG_STRM_CTL_ENDED, .ENG_STRM_POS_POS,
    .FC_FAIL_CNT_COUNT, .FC_RUN_RUN, .FC_SLICE_FAIL_COUNT, .FC_UNCHK_CNT_COUNT, .PG_ERR_OP, .PG_ERR_OVERSIZE,
    .PG_ERR_UNITS, .PG_ERR_VALID, .PG_TO_CNT_COUNT], [], [], false⟩

/-- What `execArm` may change. -/
def partsArm : List Part := [.regs, .out, .stewards, .govs, .eng, .rstUnlock]
def fieldsArm : FSet :=
  ⟨[.ENG_FAULT_CODE, .ENG_FAULT_DETAIL, .ENG_FAULT_PC, .ENG_FAULT_VALID, .ENG_GEN_V_VALUE, .ENG_LCNT_COUNT, .ENG_PC_CUR,
    .ENG_STALL_COUNT, .ENG_STATUS_END_CODE, .ENG_STATUS_FAIL, .ENG_STATUS_IN_HANDLER, .ENG_STATUS_STATE,
    .ENG_STATUS_TLATE, .ENG_STATUS_TMR_OVR, .ENG_STEPS_HI_COUNT, .ENG_STRM_CTL_ENDED, .ENG_STRM_POS_POS,
    .FC_FAIL_CNT_COUNT, .FC_RUN_RUN, .FC_SLICE_FAIL_COUNT, .FC_UNCHK_CNT_COUNT, .PG_ERR_OP, .PG_ERR_OVERSIZE,
    .PG_ERR_UNITS, .PG_ERR_VALID, .PG_TO_CNT_COUNT], [], [], false⟩

/-- What `execEngCmdStop` may change. -/
def partsEngCmdStop : List Part := [.regs, .stewards, .govs, .eng, .rstUnlock]
def fieldsEngCmdStop : FSet := ⟨[.ENG_STATUS_STATE], [], [], false⟩

/-- What `execPause` may change. -/
def partsPause : List Part := [.regs, .stewards, .govs, .eng, .rstUnlock]
def fieldsPause : FSet := ⟨[.ENG_STATUS_STATE], [], [], false⟩

/-- What `execEngCmdResume` may change. -/
def partsEngCmdResume : List Part := [.regs, .stewards, .eng, .rstUnlock]
def fieldsEngCmdResume : FSet := ⟨[.ENG_STATUS_STATE], [], [], false⟩

/-- What `execEngineReset` may change. -/
def partsEngineReset : List Part := [.regs, .stewards, .govs, .eng, .rstUnlock]
def fieldsEngineReset : FSet := ⟨[], [.eng], [], false⟩

/-- What `execEngStartEffect` may change. -/
def partsEngStartEffect : List Part := [.regs, .out, .stewards, .govs, .eng]
def fieldsEngStartEffect : FSet :=
  ⟨[.ENG_FAULT_CODE, .ENG_FAULT_DETAIL, .ENG_FAULT_PC, .ENG_FAULT_VALID, .ENG_GEN_V_VALUE, .ENG_LCNT_COUNT, .ENG_PC_CUR,
    .ENG_STALL_COUNT, .ENG_STATUS_END_CODE, .ENG_STATUS_FAIL, .ENG_STATUS_IN_HANDLER, .ENG_STATUS_STATE,
    .ENG_STATUS_TLATE, .ENG_STATUS_TMR_OVR, .ENG_STEPS_HI_COUNT, .ENG_STRM_CTL_ENDED, .ENG_STRM_POS_POS,
    .FC_FAIL_CNT_COUNT, .FC_RUN_RUN, .FC_SLICE_FAIL_COUNT, .FC_UNCHK_CNT_COUNT, .PG_ERR_OP, .PG_ERR_OVERSIZE,
    .PG_ERR_UNITS, .PG_ERR_VALID, .PG_TO_CNT_COUNT], [], [], false⟩

/-- What `execEngPermitGrant` may change. -/
def partsEngPermitGrant : List Part := [.now, .local_, .regs, .stewards, .govs, .eng, .spinePull]
def fieldsEngPermitGrant : FSet :=
  ⟨[.ENG_FAULT_CODE, .ENG_FAULT_DETAIL, .ENG_FAULT_PC, .ENG_FAULT_VALID, .ENG_STATUS_STATE, .ENG_STATUS_TLATE,
    .ENG_STRM_CTL_ENDED, .ENG_STRM_POS_POS, .PG_ERR_OP, .PG_ERR_OVERSIZE, .PG_ERR_UNITS, .PG_ERR_VALID,
    .PG_GRANT_CNT_COUNT, .PG_TO_CNT_COUNT], [], [], false⟩

/-- What `execEngTrigger` may change. -/
def partsEngTrigger : List Part := [.now, .local_, .regs, .eng, .spinePull]
def fieldsEngTrigger : FSet := ⟨[.ENG_STATUS_STATE], [], [], false⟩

/-- What `execEngNop` may change. -/
def partsEngNop : List Part := [.regs, .out, .stewards, .govs, .eng, .fixq]
def fieldsEngNop : FSet :=
  ⟨[.ENG_FAULT_CODE, .ENG_FAULT_DETAIL, .ENG_FAULT_PC, .ENG_FAULT_VALID, .ENG_GEN_V_VALUE, .ENG_LCNT_COUNT,
    .ENG_LREL_COUNT, .ENG_PC_CUR, .ENG_STALL_COUNT, .ENG_STATUS_END_CODE, .ENG_STATUS_IN_HANDLER, .ENG_STATUS_STATE,
    .ENG_STATUS_TLATE, .ENG_STRM_CTL_ENDED, .ENG_STRM_CTL_RATE, .ENG_STRM_POS_POS, .PG_ERR_OP, .PG_ERR_OVERSIZE,
    .PG_ERR_UNITS, .PG_ERR_VALID, .PG_TO_CNT_COUNT], [], [], false⟩

/-- What `execLoop` may change. -/
def partsLoop : List Part := [.regs, .out, .stewards, .govs, .eng, .fixq]
def fieldsLoop : FSet :=
  ⟨[.ENG_FAULT_CODE, .ENG_FAULT_DETAIL, .ENG_FAULT_PC, .ENG_FAULT_VALID, .ENG_GEN_V_VALUE, .ENG_LCNT_COUNT,
    .ENG_LREL_COUNT, .ENG_PC_CUR, .ENG_STALL_COUNT, .ENG_STATUS_END_CODE, .ENG_STATUS_IN_HANDLER, .ENG_STATUS_STATE,
    .ENG_STATUS_TLATE, .ENG_STRM_CTL_ENDED, .ENG_STRM_CTL_RATE, .ENG_STRM_POS_POS, .PG_ERR_OP, .PG_ERR_OVERSIZE,
    .PG_ERR_UNITS, .PG_ERR_VALID, .PG_TO_CNT_COUNT], [], [], false⟩

/-- What `execJmp` may change. -/
def partsJmp : List Part := [.regs, .out, .stewards, .govs, .eng, .fixq]
def fieldsJmp : FSet :=
  ⟨[.ENG_FAULT_CODE, .ENG_FAULT_DETAIL, .ENG_FAULT_PC, .ENG_FAULT_VALID, .ENG_GEN_V_VALUE, .ENG_LCNT_COUNT,
    .ENG_LREL_COUNT, .ENG_PC_CUR, .ENG_STALL_COUNT, .ENG_STATUS_END_CODE, .ENG_STATUS_IN_HANDLER, .ENG_STATUS_STATE,
    .ENG_STATUS_TLATE, .ENG_STRM_CTL_ENDED, .ENG_STRM_CTL_RATE, .ENG_STRM_POS_POS, .PG_ERR_OP, .PG_ERR_OVERSIZE,
    .PG_ERR_UNITS, .PG_ERR_VALID, .PG_TO_CNT_COUNT], [], [], false⟩

/-- What `execBr` may change. -/
def partsBr : List Part := [.regs, .out, .stewards, .govs, .eng, .fixq]
def fieldsBr : FSet :=
  ⟨[.ENG_FAULT_CODE, .ENG_FAULT_DETAIL, .ENG_FAULT_PC, .ENG_FAULT_VALID, .ENG_GEN_V_VALUE, .ENG_LCNT_COUNT,
    .ENG_LREL_COUNT, .ENG_PC_CUR, .ENG_STALL_COUNT, .ENG_STATUS_END_CODE, .ENG_STATUS_IN_HANDLER, .ENG_STATUS_STATE,
    .ENG_STATUS_TLATE, .ENG_STRM_CTL_ENDED, .ENG_STRM_CTL_RATE, .ENG_STRM_POS_POS, .PG_ERR_OP, .PG_ERR_OVERSIZE,
    .PG_ERR_UNITS, .PG_ERR_VALID, .PG_TO_CNT_COUNT], [], [], false⟩

/-- What `execCall` may change. -/
def partsCall : List Part := [.regs, .out, .stewards, .govs, .eng, .fixq]
def fieldsCall : FSet :=
  ⟨[.ENG_FAULT_CODE, .ENG_FAULT_DETAIL, .ENG_FAULT_PC, .ENG_FAULT_VALID, .ENG_GEN_V_VALUE, .ENG_LCNT_COUNT,
    .ENG_LREL_COUNT, .ENG_PC_CUR, .ENG_STALL_COUNT, .ENG_STATUS_END_CODE, .ENG_STATUS_IN_HANDLER, .ENG_STATUS_STATE,
    .ENG_STATUS_TLATE, .ENG_STRM_CTL_ENDED, .ENG_STRM_CTL_RATE, .ENG_STRM_POS_POS, .PG_ERR_OP, .PG_ERR_OVERSIZE,
    .PG_ERR_UNITS, .PG_ERR_VALID, .PG_TO_CNT_COUNT], [], [], false⟩

/-- What `execRet` may change. -/
def partsRet : List Part := [.regs, .out, .stewards, .govs, .eng, .fixq]
def fieldsRet : FSet :=
  ⟨[.ENG_FAULT_CODE, .ENG_FAULT_DETAIL, .ENG_FAULT_PC, .ENG_FAULT_VALID, .ENG_GEN_V_VALUE, .ENG_LCNT_COUNT,
    .ENG_LREL_COUNT, .ENG_PC_CUR, .ENG_STALL_COUNT, .ENG_STATUS_END_CODE, .ENG_STATUS_IN_HANDLER, .ENG_STATUS_STATE,
    .ENG_STATUS_TLATE, .ENG_STRM_CTL_ENDED, .ENG_STRM_CTL_RATE, .ENG_STRM_POS_POS, .PG_ERR_OP, .PG_ERR_OVERSIZE,
    .PG_ERR_UNITS, .PG_ERR_VALID, .PG_TO_CNT_COUNT], [], [], false⟩

/-- What `execWait` may change. -/
def partsWait : List Part := [.regs, .out, .stewards, .govs, .eng, .fixq]
def fieldsWait : FSet :=
  ⟨[.ENG_FAULT_CODE, .ENG_FAULT_DETAIL, .ENG_FAULT_PC, .ENG_FAULT_VALID, .ENG_GEN_V_VALUE, .ENG_LCNT_COUNT,
    .ENG_LREL_COUNT, .ENG_PC_CUR, .ENG_STALL_COUNT, .ENG_STATUS_END_CODE, .ENG_STATUS_IN_HANDLER, .ENG_STATUS_STATE,
    .ENG_STATUS_TLATE, .ENG_STRM_CTL_ENDED, .ENG_STRM_CTL_RATE, .ENG_STRM_POS_POS, .PG_ERR_OP, .PG_ERR_OVERSIZE,
    .PG_ERR_UNITS, .PG_ERR_VALID, .PG_TO_CNT_COUNT], [], [], false⟩

/-- What `execDrain` may change. -/
def partsDrain : List Part := [.regs, .out, .stewards, .govs, .eng, .fixq]
def fieldsDrain : FSet :=
  ⟨[.ENG_FAULT_CODE, .ENG_FAULT_DETAIL, .ENG_FAULT_PC, .ENG_FAULT_VALID, .ENG_GEN_V_VALUE, .ENG_LCNT_COUNT,
    .ENG_LREL_COUNT, .ENG_PC_CUR, .ENG_STALL_COUNT, .ENG_STATUS_END_CODE, .ENG_STATUS_IN_HANDLER, .ENG_STATUS_STATE,
    .ENG_STATUS_TLATE, .ENG_STRM_CTL_ENDED, .ENG_STRM_CTL_RATE, .ENG_STRM_POS_POS, .PG_ERR_OP, .PG_ERR_OVERSIZE,
    .PG_ERR_UNITS, .PG_ERR_VALID, .PG_TO_CNT_COUNT], [], [], false⟩

/-- What `execSync` may change. -/
def partsSync : List Part := [.regs, .out, .stewards, .govs, .eng, .fixq]
def fieldsSync : FSet :=
  ⟨[.ENG_FAULT_CODE, .ENG_FAULT_DETAIL, .ENG_FAULT_PC, .ENG_FAULT_VALID, .ENG_GEN_V_VALUE, .ENG_LCNT_COUNT,
    .ENG_LREL_COUNT, .ENG_PC_CUR, .ENG_STALL_COUNT, .ENG_STATUS_END_CODE, .ENG_STATUS_IN_HANDLER, .ENG_STATUS_STATE,
    .ENG_STATUS_TLATE, .ENG_STRM_CTL_ENDED, .ENG_STRM_CTL_RATE, .ENG_STRM_POS_POS, .PG_ERR_OP, .PG_ERR_OVERSIZE,
    .PG_ERR_UNITS, .PG_ERR_VALID, .PG_TO_CNT_COUNT], [], [], false⟩

/-- What `execWaitt` may change. -/
def partsWaitt : List Part := [.regs, .out, .stewards, .govs, .eng, .fixq]
def fieldsWaitt : FSet :=
  ⟨[.ENG_FAULT_CODE, .ENG_FAULT_DETAIL, .ENG_FAULT_PC, .ENG_FAULT_VALID, .ENG_GEN_V_VALUE, .ENG_LCNT_COUNT,
    .ENG_LREL_COUNT, .ENG_PC_CUR, .ENG_STALL_COUNT, .ENG_STATUS_END_CODE, .ENG_STATUS_IN_HANDLER, .ENG_STATUS_STATE,
    .ENG_STATUS_TLATE, .ENG_STRM_CTL_ENDED, .ENG_STRM_CTL_RATE, .ENG_STRM_POS_POS, .PG_ERR_OP, .PG_ERR_OVERSIZE,
    .PG_ERR_UNITS, .PG_ERR_VALID, .PG_TO_CNT_COUNT], [], [], false⟩

/-- What `execSetl` may change. -/
def partsSetl : List Part := [.regs, .out, .stewards, .govs, .eng, .fixq]
def fieldsSetl : FSet :=
  ⟨[.ENG_FAULT_CODE, .ENG_FAULT_DETAIL, .ENG_FAULT_PC, .ENG_FAULT_VALID, .ENG_GEN_V_VALUE, .ENG_LCNT_COUNT,
    .ENG_LREL_COUNT, .ENG_PC_CUR, .ENG_STALL_COUNT, .ENG_STATUS_END_CODE, .ENG_STATUS_IN_HANDLER, .ENG_STATUS_STATE,
    .ENG_STATUS_TLATE, .ENG_STRM_CTL_ENDED, .ENG_STRM_CTL_RATE, .ENG_STRM_POS_POS, .PG_ERR_OP, .PG_ERR_OVERSIZE,
    .PG_ERR_UNITS, .PG_ERR_VALID, .PG_TO_CNT_COUNT], [], [], false⟩

/-- What `execStrm` may change. -/
def partsStrm : List Part := [.regs, .out, .stewards, .govs, .eng, .fixq]
def fieldsStrm : FSet :=
  ⟨[.ENG_FAULT_CODE, .ENG_FAULT_DETAIL, .ENG_FAULT_PC, .ENG_FAULT_VALID, .ENG_GEN_V_VALUE, .ENG_LCNT_COUNT,
    .ENG_LREL_COUNT, .ENG_PC_CUR, .ENG_STALL_COUNT, .ENG_STATUS_END_CODE, .ENG_STATUS_IN_HANDLER, .ENG_STATUS_STATE,
    .ENG_STATUS_TLATE, .ENG_STRM_CTL_ENDED, .ENG_STRM_CTL_RATE, .ENG_STRM_POS_POS, .PG_ERR_OP, .PG_ERR_OVERSIZE,
    .PG_ERR_UNITS, .PG_ERR_VALID, .PG_TO_CNT_COUNT], [], [], false⟩

/-- What `execRate` may change. -/
def partsRate : List Part := [.regs, .out, .stewards, .govs, .eng, .fixq]
def fieldsRate : FSet :=
  ⟨[.ENG_FAULT_CODE, .ENG_FAULT_DETAIL, .ENG_FAULT_PC, .ENG_FAULT_VALID, .ENG_GEN_V_VALUE, .ENG_LCNT_COUNT,
    .ENG_LREL_COUNT, .ENG_PC_CUR, .ENG_STALL_COUNT, .ENG_STATUS_END_CODE, .ENG_STATUS_IN_HANDLER, .ENG_STATUS_STATE,
    .ENG_STATUS_TLATE, .ENG_STRM_CTL_ENDED, .ENG_STRM_CTL_RATE, .ENG_STRM_POS_POS, .PG_ERR_OP, .PG_ERR_OVERSIZE,
    .PG_ERR_UNITS, .PG_ERR_VALID, .PG_TO_CNT_COUNT], [], [], false⟩

/-- What `execEvt` may change. -/
def partsEvt : List Part := [.regs, .out, .stewards, .govs, .eng, .fixq]
def fieldsEvt : FSet :=
  ⟨[.ENG_FAULT_CODE, .ENG_FAULT_DETAIL, .ENG_FAULT_PC, .ENG_FAULT_VALID, .ENG_GEN_V_VALUE, .ENG_LCNT_COUNT,
    .ENG_LREL_COUNT, .ENG_PC_CUR, .ENG_STALL_COUNT, .ENG_STATUS_END_CODE, .ENG_STATUS_IN_HANDLER, .ENG_STATUS_STATE,
    .ENG_STATUS_TLATE, .ENG_STRM_CTL_ENDED, .ENG_STRM_CTL_RATE, .ENG_STRM_POS_POS, .PG_ERR_OP, .PG_ERR_OVERSIZE,
    .PG_ERR_UNITS, .PG_ERR_VALID, .PG_TO_CNT_COUNT], [], [], false⟩

/-- What `execHalt` may change. -/
def partsHalt : List Part := [.regs, .out, .stewards, .govs, .eng, .fixq]
def fieldsHalt : FSet :=
  ⟨[.ENG_FAULT_CODE, .ENG_FAULT_DETAIL, .ENG_FAULT_PC, .ENG_FAULT_VALID, .ENG_GEN_V_VALUE, .ENG_LCNT_COUNT,
    .ENG_LREL_COUNT, .ENG_PC_CUR, .ENG_STALL_COUNT, .ENG_STATUS_END_CODE, .ENG_STATUS_IN_HANDLER, .ENG_STATUS_STATE,
    .ENG_STATUS_TLATE, .ENG_STRM_CTL_ENDED, .ENG_STRM_CTL_RATE, .ENG_STRM_POS_POS, .PG_ERR_OP, .PG_ERR_OVERSIZE,
    .PG_ERR_UNITS, .PG_ERR_VALID, .PG_TO_CNT_COUNT], [], [], false⟩

/-- What `execEngCmdStep` may change. -/
def partsEngCmdStep : List Part := [.regs, .out, .stewards, .govs, .eng, .fixq, .rstUnlock]
def fieldsEngCmdStep : FSet :=
  ⟨[.ENG_FAULT_CODE, .ENG_FAULT_DETAIL, .ENG_FAULT_PC, .ENG_FAULT_VALID, .ENG_GEN_V_VALUE, .ENG_LCNT_COUNT,
    .ENG_LREL_COUNT, .ENG_PC_CUR, .ENG_STALL_COUNT, .ENG_STATUS_END_CODE, .ENG_STATUS_IN_HANDLER, .ENG_STATUS_STATE,
    .ENG_STATUS_TLATE, .ENG_STRM_CTL_ENDED, .ENG_STRM_CTL_RATE, .ENG_STRM_POS_POS, .PG_ERR_OP, .PG_ERR_OVERSIZE,
    .PG_ERR_UNITS, .PG_ERR_VALID, .PG_TO_CNT_COUNT], [], [], false⟩

/-- What `execWaitEnd` may change. -/
def partsWaitEnd : List Part := [.now, .local_, .regs, .out, .stewards, .govs, .eng, .spinePull]
def fieldsWaitEnd : FSet :=
  ⟨[.ENG_FAULT_CODE, .ENG_FAULT_DETAIL, .ENG_FAULT_PC, .ENG_FAULT_VALID, .ENG_GEN_V_VALUE, .ENG_LCNT_COUNT,
    .ENG_LREL_COUNT, .ENG_PC_CUR, .ENG_STALL_COUNT, .ENG_STATUS_END_CODE, .ENG_STATUS_IN_HANDLER, .ENG_STATUS_STATE,
    .ENG_STRM_CTL_ENDED, .ENG_STRM_CTL_RATE, .ENG_STRM_POS_POS], [], [], false⟩

/-- What `execDrainDone` may change. -/
def partsDrainDone : List Part := [.now, .local_, .regs, .out, .stewards, .govs, .eng, .spinePull]
def fieldsDrainDone : FSet :=
  ⟨[.ENG_FAULT_CODE, .ENG_FAULT_DETAIL, .ENG_FAULT_PC, .ENG_FAULT_VALID, .ENG_GEN_V_VALUE, .ENG_LCNT_COUNT,
    .ENG_LREL_COUNT, .ENG_PC_CUR, .ENG_STALL_COUNT, .ENG_STATUS_END_CODE, .ENG_STATUS_IN_HANDLER, .ENG_STATUS_STATE,
    .ENG_STRM_CTL_ENDED, .ENG_STRM_CTL_RATE, .ENG_STRM_POS_POS], [], [], false⟩

/-- What `execWaittTrigger` may change. -/
def partsWaittTrigger : List Part := [.now, .local_, .regs, .out, .stewards, .govs, .eng, .spinePull]
def fieldsWaittTrigger : FSet :=
  ⟨[.ENG_FAULT_CODE, .ENG_FAULT_DETAIL, .ENG_FAULT_PC, .ENG_FAULT_VALID, .ENG_GEN_V_VALUE, .ENG_LCNT_COUNT,
    .ENG_LREL_COUNT, .ENG_PC_CUR, .ENG_STALL_COUNT, .ENG_STATUS_END_CODE, .ENG_STATUS_IN_HANDLER, .ENG_STATUS_STATE,
    .ENG_STRM_CTL_ENDED, .ENG_STRM_CTL_RATE, .ENG_STRM_POS_POS], [], [], false⟩

/-- What `execRatePermitGrant` may change. -/
def partsRatePermitGrant : List Part := [.now, .local_, .regs, .out, .stewards, .govs, .eng, .spinePull]
def fieldsRatePermitGrant : FSet :=
  ⟨[.ENG_FAULT_CODE, .ENG_FAULT_DETAIL, .ENG_FAULT_PC, .ENG_FAULT_VALID, .ENG_GEN_V_VALUE, .ENG_LCNT_COUNT,
    .ENG_LREL_COUNT, .ENG_PC_CUR, .ENG_STALL_COUNT, .ENG_STATUS_END_CODE, .ENG_STATUS_IN_HANDLER, .ENG_STATUS_STATE,
    .ENG_STRM_CTL_ENDED, .ENG_STRM_CTL_RATE, .ENG_STRM_POS_POS, .PG_ERR_OP, .PG_ERR_OVERSIZE, .PG_ERR_UNITS,
    .PG_ERR_VALID, .PG_GRANT_CNT_COUNT, .PG_TO_CNT_COUNT], [], [], false⟩

/-- What `execEngPermitTimeout` may change. -/
def partsEngPermitTimeout : List Part := [.now, .local_, .regs, .stewards, .govs, .eng, .spinePull]
def fieldsEngPermitTimeout : FSet :=
  ⟨[.ENG_FAULT_CODE, .ENG_FAULT_DETAIL, .ENG_FAULT_PC, .ENG_FAULT_VALID, .ENG_STATUS_STATE, .PG_ERR_OP,
    .PG_ERR_OVERSIZE, .PG_ERR_UNITS, .PG_ERR_VALID, .PG_TO_CNT_COUNT], [], [], false⟩

/-- What `execEngTimerExpiry` may change. -/
def partsEngTimerExpiry : List Part := [.now, .local_, .regs, .stewards, .eng, .spinePull]
def fieldsEngTimerExpiry : FSet := ⟨[.ENG_STATUS_TMR_OVR], [], [], false⟩

/-- What `execEngStepUnstall` may change. -/
def partsEngStepUnstall : List Part := [.regs, .out, .stewards, .govs, .eng]
def fieldsEngStepUnstall : FSet :=
  ⟨[.ENG_FAULT_CODE, .ENG_FAULT_DETAIL, .ENG_FAULT_PC, .ENG_FAULT_VALID, .ENG_GEN_V_VALUE, .ENG_LCNT_COUNT,
    .ENG_LREL_COUNT, .ENG_PC_CUR, .ENG_STALL_COUNT, .ENG_STATUS_END_CODE, .ENG_STATUS_IN_HANDLER, .ENG_STATUS_STATE,
    .ENG_STRM_CTL_ENDED, .ENG_STRM_CTL_RATE, .ENG_STRM_POS_POS], [], [], false⟩

/-- What `execStreamFillDone` may change. -/
def partsStreamFillDone : List Part := [.regs, .out, .stewards, .govs, .eng]
def fieldsStreamFillDone : FSet :=
  ⟨[.ENG_FAULT_CODE, .ENG_FAULT_DETAIL, .ENG_FAULT_PC, .ENG_FAULT_VALID, .ENG_GEN_V_VALUE, .ENG_LCNT_COUNT,
    .ENG_LREL_COUNT, .ENG_PC_CUR, .ENG_STALL_COUNT, .ENG_STATUS_END_CODE, .ENG_STATUS_IN_HANDLER, .ENG_STATUS_STATE,
    .ENG_STRM_CTL_ENDED, .ENG_STRM_CTL_RATE, .ENG_STRM_POS_POS], [], [], false⟩

/-- What `execStreamReadIssue` may change. -/
def partsStreamReadIssue : List Part := [.now, .local_, .eng, .spinePull]
def fieldsStreamReadIssue : FSet := ⟨[], [], [], false⟩

/-- What `execStreamReadComplete` may change. -/
def partsStreamReadComplete : List Part :=
  [.regs, .draws, .stewards, .eng, .hbm, .poison, .rcLines, .rcWb, .sf, .sfAge, .haIn, .homeOut, .ccache]
def fieldsStreamReadComplete : FSet :=
  ⟨[.HA_BACKINV_CNT_COUNT, .HA_STAT_RECALL, .HA_STAT_SF_LEVEL, .RC_HIT_CNT_COUNT, .RC_MISS_CNT_COUNT, .RC_SNP_CNT_COUNT,
    .RC_STAT_RETAINED, .RC_WB_CNT_COUNT, .SEAL_CC_MISS_CNT_COUNT, .SEAL_DENY_CNT_COUNT, .SEAL_ERR_ADDR_HI_ADDR,
    .SEAL_ERR_ADDR_LO_ADDR, .SEAL_ERR_CODE, .SEAL_ERR_LEVEL, .SEAL_ERR_RANGE, .SEAL_ERR_VALID], [], [], false⟩

/-- What `execFixPointApply` may change. -/
def partsFixPointApply : List Part := [.now, .local_, .regs, .stewards, .govs, .eng, .fixq, .bcasts, .spinePull]
def fieldsFixPointApply : FSet :=
  ⟨[.ENG_FAULT_CODE, .ENG_FAULT_DETAIL, .ENG_FAULT_PC, .ENG_FAULT_VALID, .ENG_STATUS_STATE, .FIX_STAT_COUNT,
    .FIX_STAT_FLAG, .FIX_STAT_GEN], [], [], false⟩

/-- What `execSyncBroadcastSeen` may change. -/
def partsSyncBroadcastSeen : List Part := [.regs, .out, .stewards, .govs, .eng]
def fieldsSyncBroadcastSeen : FSet :=
  ⟨[.ENG_FAULT_CODE, .ENG_FAULT_DETAIL, .ENG_FAULT_PC, .ENG_FAULT_VALID, .ENG_GEN_V_VALUE, .ENG_LCNT_COUNT,
    .ENG_LREL_COUNT, .ENG_PC_CUR, .ENG_STALL_COUNT, .ENG_STATUS_END_CODE, .ENG_STATUS_IN_HANDLER, .ENG_STATUS_STATE,
    .ENG_STRM_CTL_ENDED, .ENG_STRM_CTL_RATE, .ENG_STRM_POS_POS], [], [], false⟩

/-- What `execFixSet` may change. -/
def partsFixSet : List Part := [.stewards, .fixq, .rstUnlock]
def fieldsFixSet : FSet := ⟨[], [], [], false⟩

/-- What `execFixClr` may change. -/
def partsFixClr : List Part := [.stewards, .fixq, .rstUnlock]
def fieldsFixClr : FSet := ⟨[], [], [], false⟩

/-- What `execFixCfgWrite` may change. -/
def partsFixCfgWrite : List Part := [.regs, .stewards, .rstUnlock]
def fieldsFixCfgWrite : FSet := ⟨[.FIX_CFG_QUORUM, .FIX_STAT_COUNT], [], [], false⟩

/-- What `execFixRebase` may change. -/
def partsFixRebase : List Part := [.regs, .out, .stewards, .govs, .eng, .fixq, .bcasts, .hubDown, .rebaseDue]
def fieldsFixRebase : FSet :=
  ⟨[.ENG_FAULT_CODE, .ENG_FAULT_DETAIL, .ENG_FAULT_PC, .ENG_FAULT_VALID, .ENG_GEN_V_VALUE, .ENG_LCNT_COUNT,
    .ENG_LREL_COUNT, .ENG_PC_CUR, .ENG_STALL_COUNT, .ENG_STATUS_END_CODE, .ENG_STATUS_IN_HANDLER, .ENG_STATUS_STATE,
    .ENG_STRM_CTL_ENDED, .ENG_STRM_CTL_RATE, .ENG_STRM_POS_POS], [], [], false⟩

/-- What `execTxSlot` may change. -/
def partsTxSlot : List Part := [.now, .local_, .regs, .out, .eng, .lane, .spinePull]
def fieldsTxSlot : FSet := ⟨[.FC_GAP_CNT_COUNT], [], [], false⟩

/-- What `execStraightPathLaunch` may change. -/
def partsStraightPathLaunch : List Part := [.now, .local_, .regs, .out, .eng, .lane, .spinePull]
def fieldsStraightPathLaunch : FSet := ⟨[.FC_GAP_CNT_COUNT, .FC_STATUS_LAUNCH_LATE], [], [], false⟩

/-- What `execRxWordCompare` may change. -/
def partsRxWordCompare : List Part := [.now, .local_, .eng, .spinePull]
def fieldsRxWordCompare : FSet := ⟨[], [], [], false⟩

/-- What `execVpVectorTaken` may change. -/
def partsVpVectorTaken : List Part := [.out, .eng]
def fieldsVpVectorTaken : FSet := ⟨[], [], [], false⟩

/-- What `execRpResponse` may change. -/
def partsRpResponse : List Part := [.eng]
def fieldsRpResponse : FSet := ⟨[], [], [], false⟩

/-- What `execResponseTimeout` may change. -/
def partsResponseTimeout : List Part := [.now, .local_, .eng, .spinePull]
def fieldsResponseTimeout : FSet := ⟨[], [], [], false⟩

/-- What `execExpectationResolve` may change. -/
def partsExpectationResolve : List Part := [.regs, .eng, .win, .lane]
def fieldsExpectationResolve : FSet :=
  ⟨[.CL_ERR_CNT_COUNT, .ENG_STATUS_FAIL, .FC_DROP_CNT_COUNT, .FC_FAIL_CNT_COUNT, .FC_SLICE_FAIL_COUNT,
    .FC_STATUS_BM_SAT, .FC_STATUS_OVF, .FC_UNCHK_CNT_COUNT], [], [], false⟩

/-- What `execFailRingWrite` may change. -/
def partsFailRingWrite : List Part :=
  [.regs, .out, .draws, .stewards, .eng, .hbm, .poison, .win, .rcLines, .rcWb, .sf, .sfAge, .haIn, .homeOut, .leafMaj,
    .leafMin, .ccache, .hwm]
def fieldsFailRingWrite : FSet :=
  ⟨[.FC_RING_WR_COUNT, .FC_STATUS_RING_ERR, .HA_BACKINV_CNT_COUNT, .HA_STAT_RECALL, .HA_STAT_SF_LEVEL,
    .HBM_ERR_ADDR_HI_ADDR, .HBM_ERR_ADDR_LO_ADDR, .HBM_ERR_CH, .HBM_ERR_CODE, .HBM_ERR_PC, .HBM_ERR_SID, .HBM_ERR_VALID,
    .RC_HIT_CNT_COUNT, .RC_MISS_CNT_COUNT, .RC_SNP_CNT_COUNT, .RC_STAT_RETAINED, .RC_WB_CNT_COUNT,
    .SEAL_CC_MISS_CNT_COUNT, .SEAL_DENY_CNT_COUNT, .SEAL_ERR_ADDR_HI_ADDR, .SEAL_ERR_ADDR_LO_ADDR, .SEAL_ERR_CODE,
    .SEAL_ERR_LEVEL, .SEAL_ERR_RANGE, .SEAL_ERR_VALID, .SEAL_OVF_CNT_COUNT, .SEAL_RSTAT_FREEZE, .SEAL_RSTAT_STATE], [],
    [], false⟩

/-- What `execRingErrRestart` may change. -/
def partsRingErrRestart : List Part := [.regs, .stewards, .rstUnlock]
def fieldsRingErrRestart : FSet := ⟨[.FC_STATUS_RING_ERR], [], [], false⟩

/-- What `execFcRingRdWrite` may change. -/
def partsFcRingRdWrite : List Part := [.regs, .stewards, .rstUnlock]
def fieldsFcRingRdWrite : FSet := ⟨[.FC_RING_RD_COUNT], [], [], false⟩

/-- What `execFcLanesWrite` may change. -/
def partsFcLanesWrite : List Part := [.regs, .stewards, .eng, .rstUnlock]
def fieldsFcLanesWrite : FSet :=
  ⟨[.CL_STAT_REALIGN, .CL_STAT_SLIP_POS, .FC_LANES_COUNT, .FC_LANES_LANE0, .FC_LANES_LANE1, .FC_LANES_LANE2,
    .FC_LANES_LANE3], [], [], false⟩

/-- What `execBitmapClear` may change. -/
def partsBitmapClear : List Part := [.regs, .stewards, .eng, .rstUnlock]
def fieldsBitmapClear : FSet := ⟨[.FC_STATUS_BM_BUSY], [], [], false⟩

/-- What `execBitmapClearDone` may change. -/
def partsBitmapClearDone : List Part := [.regs, .eng, .win]
def fieldsBitmapClearDone : FSet := ⟨[.FC_STATUS_BM_BUSY, .FC_STATUS_BM_SAT], [], [], false⟩

/-- What `execFcCountersClear` may change. -/
def partsFcCountersClear : List Part := [.regs, .stewards, .eng, .rstUnlock]
def fieldsFcCountersClear : FSet :=
  ⟨[.FC_CMP_HI_COUNT, .FC_DROP_CNT_COUNT, .FC_FAIL_CNT_COUNT, .FC_GAP_CNT_COUNT, .FC_SLICE_FAIL_COUNT,
    .FC_UNCHK_CNT_COUNT], [], [], false⟩

/-- What `execRouterHeadFlit` may change. -/
def partsRouterHeadFlit : List Part := [.regs, .stewards, .poison, .arbs, .rtq, .ni, .rtPend, .gkPool, .txq]
def fieldsRouterHeadFlit : FSet :=
  ⟨[.NOC_RTR_BOUNCE_COUNT, .NOC_RTR_CORCNT_COUNT, .NOC_RTR_ERR_DCOR, .NOC_RTR_ERR_DUNC, .NOC_RTR_ERR_HCOR,
    .NOC_RTR_ERR_HUNC, .NOC_RTR_ERR_PORT, .NOC_RTR_UNCCNT_COUNT], [], [], false⟩

/-- What `execStallBounce` may change. -/
def partsStallBounce : List Part := [.now, .local_, .regs, .arbs, .rtq, .ni, .rtPend, .gkPool, .txq, .spinePull]
def fieldsStallBounce : FSet := ⟨[.NOC_RTR_BOUNCE_COUNT], [], [], false⟩

/-- What `execPortDrain` may change. -/
def partsPortDrain : List Part := [.regs, .stewards, .drainT, .rstUnlock]
def fieldsPortDrain : FSet := ⟨[.NOC_RTR_PORT_DRAIN, .NOC_RTR_PORT_DRAINED], [], [], false⟩

/-- What `execPortDrained` may change. -/
def partsPortDrained : List Part := [.regs]
def fieldsPortDrained : FSet := ⟨[.NOC_RTR_PORT_DRAINED], [], [], false⟩

/-- What `execDrainTimeoutBounce` may change. -/
def partsDrainTimeoutBounce : List Part := [.now, .local_, .regs, .arbs, .rtq, .ni, .rtPend, .gkPool, .txq, .spinePull]
def fieldsDrainTimeoutBounce : FSet := ⟨[.NOC_RTR_BOUNCE_COUNT], [], [], false⟩

/-- What `execRouterPortConfig` may change. -/
def partsRouterPortConfig : List Part := [.regs, .stewards, .rstUnlock]
def fieldsRouterPortConfig : FSet :=
  ⟨[.NOC_RTR_PORT_EN, .NOC_RTR_VC_PST, .NOC_RTR_VC_REQ, .NOC_RTR_VC_RSP, .NOC_RTR_VC_SNP], [], [], false⟩

/-- What `execBearingRead` may change. -/
def partsBearingRead : List Part := [.regs, .stewards, .rstUnlock]
def fieldsBearingRead : FSet := ⟨[.NOC_NI_BDATA_WORD, .NOC_NI_BSEL_INDEX], [], [], false⟩

/-- What `execBearingWrite` may change. -/
def partsBearingWrite : List Part := [.regs, .stewards, .ni, .bearings, .rstUnlock]
def fieldsBearingWrite : FSet := ⟨[.NOC_NI_BSEL_INDEX], [], [], false⟩

/-- What `execBearingInvalidate` may change. -/
def partsBearingInvalidate : List Part := [.regs, .stewards, .bearings, .rstUnlock]
def fieldsBearingInvalidate : FSet := ⟨[.NOC_NI_BSEL_INDEX], [], [], false⟩

/-- What `execNiSend` may change. -/
def partsNiSend : List Part := [.regs, .stewards, .rtq, .ni, .bearings, .hold]
def fieldsNiSend : FSet :=
  ⟨[.NOC_NI_ALT_CNT_COUNT, .NOC_NI_BOUNCE_CNT_COUNT, .NOC_NI_ERR_CODE, .NOC_NI_ERR_DEST, .NOC_NI_ERR_VALID,
    .NOC_NI_FAIL_CNT_COUNT], [], [], false⟩

/-- What `execNiBounceReceive` may change. -/
def partsNiBounceReceive : List Part := [.regs, .stewards, .rtq, .ni, .bearings, .hold]
def fieldsNiBounceReceive : FSet :=
  ⟨[.NOC_NI_ALT_CNT_COUNT, .NOC_NI_BOUNCE_CNT_COUNT, .NOC_NI_ERR_CODE, .NOC_NI_ERR_DEST, .NOC_NI_ERR_VALID,
    .NOC_NI_FAIL_CNT_COUNT], [], [], false⟩

/-- What `execRelayForward` may change. -/
def partsRelayForward : List Part := [.regs, .stewards, .rtq, .ni, .bearings, .hold]
def fieldsRelayForward : FSet :=
  ⟨[.NOC_NI_ALT_CNT_COUNT, .NOC_NI_BOUNCE_CNT_COUNT, .NOC_NI_ERR_CODE, .NOC_NI_ERR_DEST, .NOC_NI_ERR_VALID,
    .NOC_NI_FAIL_CNT_COUNT], [], [], false⟩

/-- What `execNiDeliver` may change. -/
def partsNiDeliver : List Part :=
  [.regs, .out, .draws, .stewards, .eng, .hbm, .poison, .win, .rcLines, .rcWb, .sf, .sfAge, .haIn, .homeOut, .leafMaj,
    .leafMin, .ccache, .hwm, .hbmPort, .rtq, .ni, .bearings, .hold]
def fieldsNiDeliver : FSet :=
  ⟨(.HA_BACKINV_CNT_COUNT :: .HA_STAT_RECALL :: .HA_STAT_SF_LEVEL :: .HBM_ERR_ADDR_HI_ADDR :: .HBM_ERR_ADDR_LO_ADDR ::
    .HBM_ERR_CH :: .HBM_ERR_CODE :: .HBM_ERR_PC :: .HBM_ERR_SID :: .HBM_ERR_VALID :: .NOC_NI_ALT_CNT_COUNT ::
    .NOC_NI_BOUNCE_CNT_COUNT :: .NOC_NI_CRC_CNT_COUNT :: .NOC_NI_ERR_CODE :: .NOC_NI_ERR_DEST :: .NOC_NI_ERR_VALID ::
    .NOC_NI_FAIL_CNT_COUNT :: .RC_HIT_CNT_COUNT :: .RC_MISS_CNT_COUNT :: .RC_SNP_CNT_COUNT :: .RC_STAT_RETAINED ::
    .RC_WB_CNT_COUNT :: .SEAL_CC_MISS_CNT_COUNT :: .SEAL_DENY_CNT_COUNT :: .SEAL_ERR_ADDR_HI_ADDR ::
    .SEAL_ERR_ADDR_LO_ADDR :: .SEAL_ERR_CODE :: .SEAL_ERR_LEVEL :: .SEAL_ERR_RANGE :: .SEAL_ERR_VALID ::
    .SEAL_OVF_CNT_COUNT :: .SEAL_RSTAT_FREEZE :: .SEAL_RSTAT_STATE :: []), [], [], false⟩

/-- What `execPackSend` may change. -/
def partsPackSend : List Part := [.now, .local_, .regs, .stewards, .rtq, .ni, .bearings, .spinePull, .hold]
def fieldsPackSend : FSet :=
  ⟨[.NOC_NI_ALT_CNT_COUNT, .NOC_NI_BOUNCE_CNT_COUNT, .NOC_NI_ERR_CODE, .NOC_NI_ERR_DEST, .NOC_NI_ERR_VALID,
    .NOC_NI_FAIL_CNT_COUNT], [], [], false⟩

/-- What `execNiResponseTimeout` may change. -/
def partsNiResponseTimeout : List Part := [.now, .local_, .regs, .stewards, .rtq, .ni, .bearings, .spinePull, .hold]
def fieldsNiResponseTimeout : FSet :=
  ⟨[.NOC_NI_ALT_CNT_COUNT, .NOC_NI_BOUNCE_CNT_COUNT, .NOC_NI_ERR_CODE, .NOC_NI_ERR_DEST, .NOC_NI_ERR_VALID,
    .NOC_NI_FAIL_CNT_COUNT, .NOC_NI_TO_CNT_COUNT], [], [], false⟩

/-- What `execHbmFrontPipeEntry` may change. -/
def partsHbmFrontPipeEntry : List Part :=
  [.regs, .draws, .stewards, .hbm, .poison, .rcLines, .rcWb, .sf, .sfAge, .homeOut, .leafMaj, .leafMin, .ccache, .hwm,
    .reenc, .hbmPort, .hbmPc, .stack, .arbs, .rtq, .ni, .bearings, .hold]
def fieldsHbmFrontPipeEntry : FSet :=
  ⟨[.HA_BACKINV_CNT_COUNT, .HA_STAT_RECALL, .HA_STAT_SF_LEVEL, .HBM_ERR_ADDR_HI_ADDR, .HBM_ERR_ADDR_LO_ADDR,
    .HBM_ERR_CH, .HBM_ERR_CODE, .HBM_ERR_PC, .HBM_ERR_SID, .HBM_ERR_VALID, .NOC_NI_ALT_CNT_COUNT,
    .NOC_NI_BOUNCE_CNT_COUNT, .NOC_NI_ERR_CODE, .NOC_NI_ERR_DEST, .NOC_NI_ERR_VALID, .NOC_NI_FAIL_CNT_COUNT,
    .RC_SNP_CNT_COUNT, .RC_STAT_RETAINED, .RC_WB_CNT_COUNT, .SEAL_CC_MISS_CNT_COUNT, .SEAL_DENY_CNT_COUNT,
    .SEAL_ERR_ADDR_HI_ADDR, .SEAL_ERR_ADDR_LO_ADDR, .SEAL_ERR_CODE, .SEAL_ERR_LEVEL, .SEAL_ERR_RANGE, .SEAL_ERR_VALID,
    .SEAL_OVF_CNT_COUNT, .SEAL_RSTAT_FREEZE, .SEAL_RSTAT_STATE], [], [], false⟩

/-- What `execLeafReencryptDone` may change. -/
def partsLeafReencryptDone : List Part :=
  [.regs, .draws, .stewards, .hbm, .poison, .rcLines, .rcWb, .sf, .sfAge, .homeOut, .leafMaj, .leafMin, .ccache, .hwm,
    .reenc, .hbmPc, .rtq, .ni, .bearings, .hold]
def fieldsLeafReencryptDone : FSet :=
  ⟨(.HA_BACKINV_CNT_COUNT :: .HA_STAT_RECALL :: .HA_STAT_SF_LEVEL :: .HBM_ERR_ADDR_HI_ADDR :: .HBM_ERR_ADDR_LO_ADDR ::
    .HBM_ERR_CH :: .HBM_ERR_CODE :: .HBM_ERR_PC :: .HBM_ERR_SID :: .HBM_ERR_VALID :: .NOC_NI_ALT_CNT_COUNT ::
    .NOC_NI_BOUNCE_CNT_COUNT :: .NOC_NI_ERR_CODE :: .NOC_NI_ERR_DEST :: .NOC_NI_ERR_VALID :: .NOC_NI_FAIL_CNT_COUNT ::
    .RC_SNP_CNT_COUNT :: .RC_STAT_RETAINED :: .RC_WB_CNT_COUNT :: .SEAL_CC_MISS_CNT_COUNT :: .SEAL_DENY_CNT_COUNT ::
    .SEAL_ERR_ADDR_HI_ADDR :: .SEAL_ERR_ADDR_LO_ADDR :: .SEAL_ERR_CODE :: .SEAL_ERR_LEVEL :: .SEAL_ERR_RANGE ::
    .SEAL_ERR_VALID :: .SEAL_MAC_CNT_COUNT :: .SEAL_OVF_CNT_COUNT :: .SEAL_RSTAT_FREEZE :: .SEAL_RSTAT_STATE :: []), [],
    [], false⟩

/-- What `execHbmSchedule` may change. -/
def partsHbmSchedule : List Part := [.regs, .draws, .stewards, .repairs, .hbm, .poison, .hbmPc, .stack]
def fieldsHbmSchedule : FSet :=
  ⟨[.HBM_CH_ACT_CNT_COUNT, .HBM_CH_NBR_CNT_COUNT, .HBM_CH_PAR_CNT_COUNT, .HBM_CH_RFM_CNT_COUNT, .HBM_CH_UNC_CNT_COUNT,
    .HBM_ERR_ADDR_HI_ADDR, .HBM_ERR_ADDR_LO_ADDR, .HBM_ERR_CH, .HBM_ERR_CODE, .HBM_ERR_PC, .HBM_ERR_SID,
    .HBM_ERR_VALID], [], [], false⟩

/-- What `execHbmReadComplete` may change. -/
def partsHbmReadComplete : List Part :=
  [.regs, .draws, .stewards, .health, .repairs, .hbm, .poison, .leafMaj, .leafMin, .innerC, .hbmPc, .stack, .rtq, .ni,
    .bearings, .hold]
def fieldsHbmReadComplete : FSet :=
  ⟨[.HBM_CH_COR_CNT_COUNT, .HBM_CH_PAR_CNT_COUNT, .HBM_CH_UNC_CNT_COUNT, .HBM_ERR_ADDR_HI_ADDR, .HBM_ERR_ADDR_LO_ADDR,
    .HBM_ERR_CH, .HBM_ERR_CODE, .HBM_ERR_PC, .HBM_ERR_SID, .HBM_ERR_VALID, .MGMT_HEALTH_STAGE, .MGMT_HEALTH_ZERO,
    .NOC_NI_ALT_CNT_COUNT, .NOC_NI_BOUNCE_CNT_COUNT, .NOC_NI_ERR_CODE, .NOC_NI_ERR_DEST, .NOC_NI_ERR_VALID,
    .NOC_NI_FAIL_CNT_COUNT, .SEAL_ERR_ADDR_HI_ADDR, .SEAL_ERR_ADDR_LO_ADDR, .SEAL_ERR_CODE, .SEAL_ERR_LEVEL,
    .SEAL_ERR_RANGE, .SEAL_ERR_VALID, .SEAL_MAC_CNT_COUNT, .SEAL_NODE_CNT_COUNT], [], [], false⟩

/-- What `execHbmRefreshDue` may change. -/
def partsHbmRefreshDue : List Part := [.regs, .stewards, .govs, .hbmPc, .stack]
def fieldsHbmRefreshDue : FSet :=
  ⟨[.PG_ERR_OP, .PG_ERR_OVERSIZE, .PG_ERR_UNITS, .PG_ERR_VALID, .PG_TO_CNT_COUNT], [], [], false⟩

/-- What `execHbmRefreshBurst` may change. -/
def partsHbmRefreshBurst : List Part := [.now, .local_, .regs, .stewards, .govs, .hbmPc, .spinePull]
def fieldsHbmRefreshBurst : FSet :=
  ⟨[.PG_ERR_OP, .PG_ERR_OVERSIZE, .PG_ERR_UNITS, .PG_ERR_VALID, .PG_GRANT_CNT_COUNT, .PG_TO_CNT_COUNT], [], [], false⟩

/-- What `execRefreshBurstPermitTimeout` may change. -/
def partsRefreshBurstPermitTimeout : List Part := [.now, .local_, .govs, .hbmPc, .spinePull]
def fieldsRefreshBurstPermitTimeout : FSet := ⟨[], [], [], false⟩

/-- What `execHbmTempReading` may change. -/
def partsHbmTempReading : List Part := [.regs, .stewards, .stack]
def fieldsHbmTempReading : FSet :=
  ⟨[.HBM_CH_STAT_STATE, .HBM_STAT_HOT, .HBM_STAT_STATE, .HBM_STAT_TALARM_HIT, .HBM_STAT_TEMP], [], [], false⟩

/-- What `execHbmTrainingStart` may change. -/
def partsHbmTrainingStart : List Part :=
  [.now, .local_, .regs, .draws, .stewards, .govs, .seals, .leafMaj, .leafMin, .innerC, .ccache, .hwm, .lostN, .reenc,
    .ccT, .keys, .stack, .spinePull]
def fieldsHbmTrainingStart : FSet :=
  ⟨[.HBM_STAT_STATE, .PG_ERR_OP, .PG_ERR_OVERSIZE, .PG_ERR_UNITS, .PG_ERR_VALID, .PG_GRANT_CNT_COUNT, .PG_TO_CNT_COUNT,
    .SEAL_RCTL_CUR, .SEAL_RCTL_OWNER, .SEAL_RSTAT_FREEZE, .SEAL_RSTAT_KEYS, .SEAL_RSTAT_STATE, .SEAL_RSTAT_SWSTOP,
    .SEAL_STAT_DEFKEY, .SEAL_STAT_KIND, .SEAL_STAT_PERMIT_WAIT, .SEAL_STAT_QUEUE], [], [], false⟩

/-- What `execHbmTrainPermitTimeout` may change. -/
def partsHbmTrainPermitTimeout : List Part := [.now, .local_, .regs, .stewards, .govs, .stack, .spinePull]
def fieldsHbmTrainPermitTimeout : FSet :=
  ⟨[.PG_ERR_OP, .PG_ERR_OVERSIZE, .PG_ERR_UNITS, .PG_ERR_VALID, .PG_GRANT_CNT_COUNT, .PG_TO_CNT_COUNT], [], [], false⟩

/-- What `execHbmTrainRetry` may change. -/
def partsHbmTrainRetry : List Part := [.now, .local_, .regs, .stewards, .govs, .stack, .spinePull]
def fieldsHbmTrainRetry : FSet :=
  ⟨[.PG_ERR_OP, .PG_ERR_OVERSIZE, .PG_ERR_UNITS, .PG_ERR_VALID, .PG_TO_CNT_COUNT], [], [], false⟩

/-- What `execZeroFillDone` may change. -/
def partsZeroFillDone : List Part := [.now, .local_, .regs, .stewards, .health, .hbm, .poison, .spinePull]
def fieldsZeroFillDone : FSet := ⟨[.HBM_STAT_CONTENT, .MGMT_HEALTH_STAGE, .MGMT_HEALTH_ZERO], [], [], false⟩

/-- What `execHbmTrainingDone` may change. -/
def partsHbmTrainingDone : List Part := [.now, .local_, .regs, .stewards, .govs, .seals, .stack, .spinePull]
def fieldsHbmTrainingDone : FSet :=
  ⟨[.HA_STAT_RECALL, .HBM_CH_STAT_LREP_LEFT, .HBM_CH_STAT_STATE, .HBM_CTL_EN, .HBM_RH_RFM_REQ, .HBM_STAT_RATE,
    .HBM_STAT_STATE, .PG_ERR_OP, .PG_ERR_OVERSIZE, .PG_ERR_UNITS, .PG_ERR_VALID, .PG_TO_CNT_COUNT, .SEAL_STAT_KIND,
    .SEAL_STAT_PERMIT_WAIT, .SEAL_STAT_QUEUE, .SEAL_STAT_RANGE], [], [], false⟩

/-- What `execHbmTrainingFail` may change. -/
def partsHbmTrainingFail : List Part := [.regs, .stewards, .govs, .stack]
def fieldsHbmTrainingFail : FSet := ⟨[.HBM_CTL_EN, .HBM_STAT_STATE], [], [], false⟩

/-- What `execHbmRetrainPeriod` may change. -/
def partsHbmRetrainPeriod : List Part := [.now, .local_, .regs, .stack, .spinePull]
def fieldsHbmRetrainPeriod : FSet := ⟨[.HBM_CH_STAT_STATE, .HBM_STAT_STATE], [], [], false⟩

/-- What `execHbmCmdRetrain` may change. -/
def partsHbmCmdRetrain : List Part := [.regs, .stewards, .stack, .rstUnlock]
def fieldsHbmCmdRetrain : FSet := ⟨[.HBM_CH_STAT_STATE, .HBM_STAT_STATE], [], [], false⟩

/-- What `execHbmChannelRetrainDone` may change. -/
def partsHbmChannelRetrainDone : List Part := [.now, .local_, .regs, .stewards, .health, .govs, .stack, .spinePull]
def fieldsHbmChannelRetrainDone : FSet :=
  ⟨[.HBM_CH_STAT_LREP_LEFT, .HBM_CH_STAT_STATE, .HBM_CTL_EN, .HBM_STAT_STATE, .MGMT_HEALTH_STAGE, .MGMT_HEALTH_ZERO],
    [], [], false⟩

/-- What `execHbmCmdSelfRefresh` may change. -/
def partsHbmCmdSelfRefresh : List Part := [.regs, .stewards, .govs, .stack, .rstUnlock]
def fieldsHbmCmdSelfRefresh : FSet := ⟨[.HBM_STAT_STATE], [], [], false⟩

/-- What `execHbmCmdSelfRefreshExit` may change. -/
def partsHbmCmdSelfRefreshExit : List Part := [.regs, .stewards, .govs, .stack, .rstUnlock]
def fieldsHbmCmdSelfRefreshExit : FSet :=
  ⟨[.PG_ERR_OP, .PG_ERR_OVERSIZE, .PG_ERR_UNITS, .PG_ERR_VALID, .PG_TO_CNT_COUNT], [], [], false⟩

/-- What `execSelfRefreshEntered` may change. -/
def partsSelfRefreshEntered : List Part := [.regs, .stewards, .govs, .hbmPc, .stack, .rtq, .ni, .bearings, .hold]
def fieldsSelfRefreshEntered : FSet :=
  ⟨[.HBM_STAT_STATE, .NOC_NI_ALT_CNT_COUNT, .NOC_NI_BOUNCE_CNT_COUNT, .NOC_NI_ERR_CODE, .NOC_NI_ERR_DEST,
    .NOC_NI_ERR_VALID, .NOC_NI_FAIL_CNT_COUNT], [], [], false⟩

/-- What `execSelfRefreshExitGrant` may change. -/
def partsSelfRefreshExitGrant : List Part := [.now, .local_, .regs, .stewards, .govs, .stack, .spinePull]
def fieldsSelfRefreshExitGrant : FSet :=
  ⟨[.HBM_CH_STAT_STATE, .HBM_STAT_STATE, .PG_ERR_OP, .PG_ERR_OVERSIZE, .PG_ERR_UNITS, .PG_ERR_VALID,
    .PG_GRANT_CNT_COUNT, .PG_TO_CNT_COUNT], [], [], false⟩

/-- What `execHbmPowerDown` may change. -/
def partsHbmPowerDown : List Part := [.now, .local_, .stack, .spinePull]
def fieldsHbmPowerDown : FSet := ⟨[], [], [], false⟩

/-- What `execHbmScrubBurst` may change. -/
def partsHbmScrubBurst : List Part :=
  [.now, .local_, .regs, .draws, .stewards, .repairs, .govs, .hbm, .poison, .rcLines, .rcWb, .sf, .sfAge, .homeOut,
    .leafMaj, .leafMin, .ccache, .hwm, .reenc, .hbmPort, .hbmPc, .stack, .arbs, .rtq, .ni, .bearings, .spinePull, .hold]
def fieldsHbmScrubBurst : FSet :=
  ⟨(.HA_BACKINV_CNT_COUNT :: .HA_STAT_RECALL :: .HA_STAT_SF_LEVEL :: .HBM_CH_COR_CNT_COUNT :: .HBM_CH_UNC_CNT_COUNT ::
    .HBM_ERR_ADDR_HI_ADDR :: .HBM_ERR_ADDR_LO_ADDR :: .HBM_ERR_CH :: .HBM_ERR_CODE :: .HBM_ERR_PC :: .HBM_ERR_SID ::
    .HBM_ERR_VALID :: .HBM_SCRUB_DONE :: .NOC_NI_ALT_CNT_COUNT :: .NOC_NI_BOUNCE_CNT_COUNT :: .NOC_NI_ERR_CODE ::
    .NOC_NI_ERR_DEST :: .NOC_NI_ERR_VALID :: .NOC_NI_FAIL_CNT_COUNT :: .PG_ERR_OP :: .PG_ERR_OVERSIZE :: .PG_ERR_UNITS
    :: .PG_ERR_VALID :: .PG_GRANT_CNT_COUNT :: .PG_TO_CNT_COUNT :: .RC_SNP_CNT_COUNT :: .RC_STAT_RETAINED ::
    .RC_WB_CNT_COUNT :: .SEAL_CC_MISS_CNT_COUNT :: .SEAL_DENY_CNT_COUNT :: .SEAL_ERR_ADDR_HI_ADDR ::
    .SEAL_ERR_ADDR_LO_ADDR :: .SEAL_ERR_CODE :: .SEAL_ERR_LEVEL :: .SEAL_ERR_RANGE :: .SEAL_ERR_VALID ::
    .SEAL_OVF_CNT_COUNT :: .SEAL_RSTAT_FREEZE :: .SEAL_RSTAT_STATE :: []), [], [], false⟩

/-- What `execHbmIlvWrite` may change. -/
def partsHbmIlvWrite : List Part := [.regs, .stewards, .rstUnlock]
def fieldsHbmIlvWrite : FSet := ⟨[.HBM_ILV_MODE], [], [], false⟩

/-- What `execHbmHashWrite` may change. -/
def partsHbmHashWrite : List Part := [.regs, .stewards, .rstUnlock]
def fieldsHbmHashWrite : FSet := ⟨[.HBM_HASH_MASK], [], [], false⟩

/-- What `execRcAccess` may change. -/
def partsRcAccess : List Part :=
  [.regs, .answer, .out, .draws, .stewards, .eng, .hbm, .poison, .win, .rcLines, .rcMiss, .rcWb, .sf, .sfAge, .haIn,
    .homeOut, .leafMaj, .leafMin, .ccache, .hwm]
def fieldsRcAccess : FSet :=
  ⟨[.HA_BACKINV_CNT_COUNT, .HA_POISON_CNT_COUNT, .HA_STAT_RECALL, .HA_STAT_SF_LEVEL, .HBM_ERR_ADDR_HI_ADDR,
    .HBM_ERR_ADDR_LO_ADDR, .HBM_ERR_CH, .HBM_ERR_CODE, .HBM_ERR_PC, .HBM_ERR_SID, .HBM_ERR_VALID, .RC_ECC_CNT_COUNT,
    .RC_HIT_CNT_COUNT, .RC_MISS_CNT_COUNT, .RC_POISON_CNT_COUNT, .RC_SNP_CNT_COUNT, .RC_STAT_RETAINED, .RC_WB_CNT_COUNT,
    .SEAL_CC_MISS_CNT_COUNT, .SEAL_DENY_CNT_COUNT, .SEAL_ERR_ADDR_HI_ADDR, .SEAL_ERR_ADDR_LO_ADDR, .SEAL_ERR_CODE,
    .SEAL_ERR_LEVEL, .SEAL_ERR_RANGE, .SEAL_ERR_VALID, .SEAL_OVF_CNT_COUNT, .SEAL_RSTAT_FREEZE, .SEAL_RSTAT_STATE], [],
    [], false⟩

/-- What `execCrds` may change. -/
def partsCrds : List Part :=
  [.regs, .answer, .draws, .hbm, .poison, .rcLines, .rcMiss, .rcWb, .sf, .sfAge, .haIn, .haTx]
def fieldsCrds : FSet :=
  ⟨[.HA_BACKINV_CNT_COUNT, .HA_STAT_SF_LEVEL, .RC_SNP_CNT_COUNT, .RC_WB_CNT_COUNT], [], [], false⟩

/-- What `execCrdx` may change. -/
def partsCrdx : List Part :=
  [.regs, .answer, .draws, .hbm, .poison, .rcLines, .rcMiss, .rcWb, .sf, .sfAge, .haIn, .haTx]
def fieldsCrdx : FSet :=
  ⟨[.HA_BACKINV_CNT_COUNT, .HA_STAT_SF_LEVEL, .RC_SNP_CNT_COUNT, .RC_WB_CNT_COUNT], [], [], false⟩

/-- What `execCupg` may change. -/
def partsCupg : List Part :=
  [.regs, .answer, .draws, .hbm, .poison, .rcLines, .rcMiss, .rcWb, .sf, .sfAge, .haIn, .haTx]
def fieldsCupg : FSet :=
  ⟨[.HA_BACKINV_CNT_COUNT, .HA_STAT_SF_LEVEL, .RC_SNP_CNT_COUNT, .RC_WB_CNT_COUNT], [], [], false⟩

/-- What `execCevc` may change. -/
def partsCevc : List Part := [.regs, .sf, .haIn]
def fieldsCevc : FSet := ⟨[.HA_STAT_SF_LEVEL], [], [], false⟩

/-- What `execHsni` may change. -/
def partsHsni : List Part :=
  [.regs, .answer, .draws, .hbm, .poison, .rcLines, .rcMiss, .rcWb, .sf, .sfAge, .haIn, .haTx]
def fieldsHsni : FSet :=
  ⟨[.HA_BACKINV_CNT_COUNT, .HA_STAT_SF_LEVEL, .RC_SNP_CNT_COUNT, .RC_WB_CNT_COUNT], [], [], false⟩

/-- What `execHsns` may change. -/
def partsHsns : List Part :=
  [.regs, .answer, .draws, .hbm, .poison, .rcLines, .rcMiss, .rcWb, .sf, .sfAge, .haIn, .haTx]
def fieldsHsns : FSet :=
  ⟨[.HA_BACKINV_CNT_COUNT, .HA_STAT_SF_LEVEL, .RC_SNP_CNT_COUNT, .RC_WB_CNT_COUNT], [], [], false⟩

/-- What `execCack` may change. -/
def partsCack : List Part :=
  [.regs, .answer, .draws, .hbm, .poison, .rcLines, .rcMiss, .rcWb, .sf, .sfAge, .haIn, .haTx]
def fieldsCack : FSet :=
  ⟨[.HA_BACKINV_CNT_COUNT, .HA_STAT_SF_LEVEL, .RC_SNP_CNT_COUNT, .RC_WB_CNT_COUNT], [], [], false⟩

/-- What `execDatax` may change. -/
def partsDatax : List Part := [.regs, .draws, .hbm, .poison, .rcLines, .rcMiss, .rcWb, .sf, .haIn]
def fieldsDatax : FSet := ⟨[.HA_STAT_SF_LEVEL, .RC_WB_CNT_COUNT], [], [], false⟩

/-- What `execDirtyEviction` may change. -/
def partsDirtyEviction : List Part := [.regs, .hbm, .poison, .rcWb, .sf]
def fieldsDirtyEviction : FSet := ⟨[.HA_STAT_SF_LEVEL, .RC_WB_CNT_COUNT], [], [], false⟩

/-- What `execRcFlushRange` may change. -/
def partsRcFlushRange : List Part := [.regs, .stewards, .hbm, .poison, .rcLines, .sf, .rstUnlock]
def fieldsRcFlushRange : FSet :=
  ⟨[.HA_STAT_SF_LEVEL, .RC_CMD_BUSY, .RC_STAT_RETAINED, .RC_STAT_STATE, .RC_WB_CNT_COUNT], [], [], false⟩

/-- What `execRcCleanRange` may change. -/
def partsRcCleanRange : List Part := [.regs, .stewards, .hbm, .poison, .rcLines, .sf, .rstUnlock]
def fieldsRcCleanRange : FSet :=
  ⟨[.HA_STAT_SF_LEVEL, .RC_CMD_BUSY, .RC_STAT_RETAINED, .RC_STAT_STATE, .RC_WB_CNT_COUNT], [], [], false⟩

/-- What `execRcInvalidateReadMostly` may change. -/
def partsRcInvalidateReadMostly : List Part := [.regs, .stewards, .rcLines, .rstUnlock]
def fieldsRcInvalidateReadMostly : FSet := ⟨[.RC_CMD_BUSY, .RC_STAT_RETAINED, .RC_STAT_STATE], [], [], false⟩

/-- What `execRcFlushAll` may change. -/
def partsRcFlushAll : List Part := [.regs, .stewards, .hbm, .poison, .rcLines, .rcWb, .sf, .rstUnlock]
def fieldsRcFlushAll : FSet :=
  ⟨[.HA_STAT_SF_LEVEL, .RC_CMD_BUSY, .RC_STAT_RETAINED, .RC_STAT_STATE, .RC_WB_CNT_COUNT], [], [], false⟩

/-- What `execRcCmdDone` may change. -/
def partsRcCmdDone : List Part := [.regs]
def fieldsRcCmdDone : FSet := ⟨[.RC_CMD_BUSY, .RC_STAT_STATE], [], [], false⟩

/-- What `execRcwEnable` may change. -/
def partsRcwEnable : List Part := [.regs, .stewards]
def fieldsRcwEnable : FSet := ⟨[.RCW_CTL_EN], [], [], false⟩

/-- What `execRcwDisable` may change. -/
def partsRcwDisable : List Part := [.regs]
def fieldsRcwDisable : FSet := ⟨[.RCW_CTL_BUSY], [], [], false⟩

/-- What `execRcwDisableDone` may change. -/
def partsRcwDisableDone : List Part := [.regs, .hbm, .poison, .rcLines, .sf]
def fieldsRcwDisableDone : FSet :=
  ⟨[.HA_STAT_SF_LEVEL, .RCW_CTL_BUSY, .RCW_CTL_EN, .RC_WB_CNT_COUNT], [], [], false⟩

/-- What `execHomeUnreachable` may change. -/
def partsHomeUnreachable : List Part := [.regs, .answer, .rcLines, .rcMiss, .haIn, .haTx, .homeOut]
def fieldsHomeUnreachable : FSet := ⟨[.RC_STAT_RETAINED], [], [], false⟩

/-- What `execHomeRecallDone` may change. -/
def partsHomeRecallDone : List Part := [.regs, .hbm, .poison, .rcLines, .rcWb, .sf, .sfAge, .homeOut]
def fieldsHomeRecallDone : FSet :=
  ⟨[.HA_BACKINV_CNT_COUNT, .HA_STAT_RECALL, .HA_STAT_SF_LEVEL, .RC_SNP_CNT_COUNT, .RC_STAT_RETAINED, .RC_WB_CNT_COUNT],
    [], [], false⟩

/-- What `execRcLossTimeout` may change. -/
def partsRcLossTimeout : List Part :=
  [.now, .local_, .regs, .answer, .draws, .hbm, .poison, .rcLines, .rcMiss, .rcWb, .sf, .sfAge, .haIn, .haTx, .rcLossT,
    .spinePull]
def fieldsRcLossTimeout : FSet :=
  ⟨[.HA_BACKINV_CNT_COUNT, .HA_POISON_CNT_COUNT, .HA_STAT_SF_LEVEL, .RC_SNP_CNT_COUNT, .RC_WB_CNT_COUNT], [], [], false⟩

/-- What `execSealClaim` may change. -/
def partsSealClaim : List Part := [.regs, .stewards, .rstUnlock]
def fieldsSealClaim : FSet := ⟨[.SEAL_RCTL_OWNER], [], [], false⟩

/-- What `execEnable` may change. -/
def partsEnable : List Part :=
  [.regs, .draws, .stewards, .govs, .hbm, .poison, .rcLines, .sf, .seals, .rstUnlock]
def fieldsEnable : FSet :=
  ⟨[.HA_STAT_SF_LEVEL, .PG_ERR_OP, .PG_ERR_OVERSIZE, .PG_ERR_UNITS, .PG_ERR_VALID, .PG_TO_CNT_COUNT, .RC_WB_CNT_COUNT,
    .SEAL_ERR_ADDR_HI_ADDR, .SEAL_ERR_ADDR_LO_ADDR, .SEAL_ERR_CODE, .SEAL_ERR_LEVEL, .SEAL_ERR_RANGE, .SEAL_ERR_VALID,
    .SEAL_POS_POS, .SEAL_RSTAT_STATE, .SEAL_STAT_KIND, .SEAL_STAT_PERMIT_WAIT, .SEAL_STAT_QUEUE, .SEAL_STAT_RANGE], [],
    [], false⟩

/-- What `execDisable` may change. -/
def partsDisable : List Part := [.regs, .draws, .stewards, .govs, .seals, .keys, .rstUnlock]
def fieldsDisable : FSet :=
  ⟨[.PG_ERR_OP, .PG_ERR_OVERSIZE, .PG_ERR_UNITS, .PG_ERR_VALID, .PG_TO_CNT_COUNT, .SEAL_ERR_ADDR_HI_ADDR,
    .SEAL_ERR_ADDR_LO_ADDR, .SEAL_ERR_CODE, .SEAL_ERR_LEVEL, .SEAL_ERR_RANGE, .SEAL_ERR_VALID, .SEAL_POS_POS,
    .SEAL_RCTL_OWNER, .SEAL_RSTAT_KEYS, .SEAL_RSTAT_STATE, .SEAL_RSTAT_SWSTOP, .SEAL_STAT_KIND, .SEAL_STAT_PERMIT_WAIT,
    .SEAL_STAT_QUEUE, .SEAL_STAT_RANGE], [], [], false⟩

/-- What `execRekey` may change. -/
def partsRekey : List Part := [.regs, .draws, .stewards, .govs, .seals, .rstUnlock]
def fieldsRekey : FSet :=
  ⟨[.PG_ERR_OP, .PG_ERR_OVERSIZE, .PG_ERR_UNITS, .PG_ERR_VALID, .PG_TO_CNT_COUNT, .SEAL_ERR_ADDR_HI_ADDR,
    .SEAL_ERR_ADDR_LO_ADDR, .SEAL_ERR_CODE, .SEAL_ERR_LEVEL, .SEAL_ERR_RANGE, .SEAL_ERR_VALID, .SEAL_POS_POS,
    .SEAL_RSTAT_STATE, .SEAL_STAT_KIND, .SEAL_STAT_PERMIT_WAIT, .SEAL_STAT_QUEUE, .SEAL_STAT_RANGE], [], [], false⟩

/-- What `execSealResume` may change. -/
def partsSealResume : List Part := [.regs, .draws, .stewards, .govs, .seals, .rstUnlock]
def fieldsSealResume : FSet :=
  ⟨[.PG_ERR_OP, .PG_ERR_OVERSIZE, .PG_ERR_UNITS, .PG_ERR_VALID, .PG_TO_CNT_COUNT, .SEAL_ERR_ADDR_HI_ADDR,
    .SEAL_ERR_ADDR_LO_ADDR, .SEAL_ERR_CODE, .SEAL_ERR_LEVEL, .SEAL_ERR_RANGE, .SEAL_ERR_VALID, .SEAL_RSTAT_SWSTOP,
    .SEAL_STAT_KIND, .SEAL_STAT_PERMIT_WAIT, .SEAL_STAT_QUEUE, .SEAL_STAT_RANGE], [], [], false⟩

/-- What `execSealKeyGenerate` may change. -/
def partsSealKeyGenerate : List Part := [.regs, .stewards, .keyOp, .rstUnlock]
def fieldsSealKeyGenerate : FSet :=
  ⟨[.SEAL_KEY_BUSY, .SEAL_KEY_FAIL, .SEAL_KEY_SESSION, .SEAL_KEY_SLOT], [], [], false⟩

/-- What `execSealKeyImport` may change. -/
def partsSealKeyImport : List Part := [.regs, .stewards, .keyOp, .rstUnlock]
def fieldsSealKeyImport : FSet :=
  ⟨[.SEAL_KEY_BUSY, .SEAL_KEY_FAIL, .SEAL_KEY_SESSION, .SEAL_KEY_SLOT], [], [], false⟩

/-- What `execSealKeyErase` may change. -/
def partsSealKeyErase : List Part := [.regs, .stewards, .keyOp, .rstUnlock]
def fieldsSealKeyErase : FSet :=
  ⟨[.SEAL_KEY_BUSY, .SEAL_KEY_FAIL, .SEAL_KEY_SESSION, .SEAL_KEY_SLOT], [], [], false⟩

/-- What `execSealKeyDone` may change. -/
def partsSealKeyDone : List Part := [.regs, .draws, .keys, .keyOp, .sessions]
def fieldsSealKeyDone : FSet := ⟨[.SEAL_KEY_BUSY, .SEAL_KEY_FAIL, .SEAL_RSTAT_KEYS], [], [], false⟩

/-- What `execSweepPermitGrant` may change. -/
def partsSweepPermitGrant : List Part := [.now, .local_, .regs, .stewards, .govs, .seals, .spinePull]
def fieldsSweepPermitGrant : FSet :=
  ⟨[.PG_ERR_OP, .PG_ERR_OVERSIZE, .PG_ERR_UNITS, .PG_ERR_VALID, .PG_GRANT_CNT_COUNT, .PG_TO_CNT_COUNT, .SEAL_STAT_KIND,
    .SEAL_STAT_PERMIT_WAIT, .SEAL_STAT_QUEUE, .SEAL_STAT_RANGE], [], [], false⟩

/-- What `execSweepPermitTimeout` may change. -/
def partsSweepPermitTimeout : List Part := [.now, .local_, .regs, .draws, .stewards, .govs, .seals, .spinePull]
def fieldsSweepPermitTimeout : FSet :=
  ⟨[.PG_ERR_OP, .PG_ERR_OVERSIZE, .PG_ERR_UNITS, .PG_ERR_VALID, .PG_TO_CNT_COUNT, .SEAL_ERR_ADDR_HI_ADDR,
    .SEAL_ERR_ADDR_LO_ADDR, .SEAL_ERR_CODE, .SEAL_ERR_LEVEL, .SEAL_ERR_RANGE, .SEAL_ERR_VALID, .SEAL_RSTAT_SWSTOP,
    .SEAL_STAT_KIND, .SEAL_STAT_PERMIT_WAIT, .SEAL_STAT_QUEUE, .SEAL_STAT_RANGE], [], [], false⟩

/-- What `execRepairPermitRetry` may change. -/
def partsRepairPermitRetry : List Part := [.now, .local_, .regs, .stewards, .govs, .seals, .spinePull]
def fieldsRepairPermitRetry : FSet :=
  ⟨[.PG_ERR_OP, .PG_ERR_OVERSIZE, .PG_ERR_UNITS, .PG_ERR_VALID, .PG_TO_CNT_COUNT, .SEAL_STAT_KIND,
    .SEAL_STAT_PERMIT_WAIT, .SEAL_STAT_QUEUE, .SEAL_STAT_RANGE], [], [], false⟩

/-- What `execSweepChunk` may change. -/
def partsSweepChunk : List Part :=
  [.now, .local_, .regs, .draws, .stewards, .repairs, .govs, .hbm, .poison, .seals, .leafMaj, .leafMin, .innerC,
    .ccache, .hwm, .lostN, .ccT, .keys, .spinePull]
def fieldsSweepChunk : FSet :=
  ⟨[.PG_ERR_OP, .PG_ERR_OVERSIZE, .PG_ERR_UNITS, .PG_ERR_VALID, .PG_TO_CNT_COUNT, .SEAL_ERR_ADDR_HI_ADDR,
    .SEAL_ERR_ADDR_LO_ADDR, .SEAL_ERR_CODE, .SEAL_ERR_LEVEL, .SEAL_ERR_RANGE, .SEAL_ERR_VALID, .SEAL_MAC_CNT_COUNT,
    .SEAL_POS_POS, .SEAL_RCTL_CUR, .SEAL_RCTL_OWNER, .SEAL_RSTAT_FREEZE, .SEAL_RSTAT_KEYS, .SEAL_RSTAT_STATE,
    .SEAL_STAT_KIND, .SEAL_STAT_PERMIT_WAIT, .SEAL_STAT_QUEUE, .SEAL_STAT_RANGE], [], [], false⟩

/-- What `execSealRateWrite` may change. -/
def partsSealRateWrite : List Part := [.regs, .stewards, .govs, .seals, .rstUnlock]
def fieldsSealRateWrite : FSet :=
  ⟨[.PG_ERR_OP, .PG_ERR_OVERSIZE, .PG_ERR_UNITS, .PG_ERR_VALID, .PG_TO_CNT_COUNT, .SEAL_CTL_RATE, .SEAL_STAT_KIND,
    .SEAL_STAT_PERMIT_WAIT, .SEAL_STAT_QUEUE, .SEAL_STAT_RANGE], [], [], false⟩

/-- What `execNodeLost` may change. -/
def partsNodeLost : List Part := [.regs, .draws, .stewards, .repairs, .govs, .seals, .lostN]
def fieldsNodeLost : FSet :=
  ⟨[.PG_ERR_OP, .PG_ERR_OVERSIZE, .PG_ERR_UNITS, .PG_ERR_VALID, .PG_TO_CNT_COUNT, .SEAL_ERR_ADDR_HI_ADDR,
    .SEAL_ERR_ADDR_LO_ADDR, .SEAL_ERR_CODE, .SEAL_ERR_LEVEL, .SEAL_ERR_RANGE, .SEAL_ERR_VALID, .SEAL_LOST_CNT_COUNT,
    .SEAL_NODE_CNT_COUNT, .SEAL_RSTAT_FREEZE, .SEAL_RSTAT_STATE, .SEAL_STAT_KIND, .SEAL_STAT_PERMIT_WAIT,
    .SEAL_STAT_QUEUE, .SEAL_STAT_RANGE], [], [], false⟩

/-- What `execCounterCacheWriteback` may change. -/
def partsCounterCacheWriteback : List Part :=
  [.now, .local_, .regs, .draws, .stewards, .innerC, .ccache, .hwm, .ccT, .spinePull]
def fieldsCounterCacheWriteback : FSet :=
  ⟨[.SEAL_ERR_ADDR_HI_ADDR, .SEAL_ERR_ADDR_LO_ADDR, .SEAL_ERR_CODE, .SEAL_ERR_LEVEL, .SEAL_ERR_RANGE, .SEAL_ERR_VALID,
    .SEAL_RSTAT_FREEZE, .SEAL_RSTAT_STATE], [], [], false⟩

/-- What `execLinkTrainingStart` may change. -/
def partsLinkTrainingStart : List Part := [.now, .local_, .regs, .stewards, .govs, .gkLink, .spinePull]
def fieldsLinkTrainingStart : FSet :=
  ⟨[.GK_STAT_STATE, .PG_ERR_OP, .PG_ERR_OVERSIZE, .PG_ERR_UNITS, .PG_ERR_VALID, .PG_GRANT_CNT_COUNT, .PG_TO_CNT_COUNT],
    [], [], false⟩

/-- What `execLinkTrainingPermitTimeout` may change. -/
def partsLinkTrainingPermitTimeout : List Part := [.now, .local_, .regs, .stewards, .govs, .gkLink, .spinePull]
def fieldsLinkTrainingPermitTimeout : FSet :=
  ⟨[.PG_ERR_OP, .PG_ERR_OVERSIZE, .PG_ERR_UNITS, .PG_ERR_VALID, .PG_GRANT_CNT_COUNT, .PG_TO_CNT_COUNT], [], [], false⟩

/-- What `execLinkTrainingRetry` may change. -/
def partsLinkTrainingRetry : List Part := [.now, .local_, .regs, .stewards, .govs, .gkLink, .spinePull]
def fieldsLinkTrainingRetry : FSet :=
  ⟨[.PG_ERR_OP, .PG_ERR_OVERSIZE, .PG_ERR_UNITS, .PG_ERR_VALID, .PG_TO_CNT_COUNT], [], [], false⟩

/-- What `execLinkTrainingDone` may change. -/
def partsLinkTrainingDone : List Part :=
  [.now, .local_, .regs, .stewards, .health, .govs, .ni, .bearings, .drainT, .gkLink, .gkDir, .gkPool, .spinePull]
def fieldsLinkTrainingDone : FSet :=
  ⟨[.GK_GRP_STAT_LCROSS, .GK_GRP_STAT_PAUSED, .GK_GRP_STAT_ROLE, .GK_GRP_STAT_SPARE_FOR, .GK_STAT_COH, .GK_STAT_CROSS,
    .GK_STAT_NOC, .GK_STAT_NOC_DETOUR, .GK_STAT_STATE, .MGMT_HEALTH_STAGE, .MGMT_HEALTH_ZERO, .NOC_RTR_PORT_DRAIN], [],
    [], false⟩

/-- What `execGkRoleWrite` may change. -/
def partsGkRoleWrite : List Part := [.regs, .stewards]
def fieldsGkRoleWrite : FSet := ⟨[.GK_ROLE_COH, .GK_ROLE_XSECT], [], [], false⟩

/-- What `execLinkFrameReceive` may change. -/
def partsLinkFrameReceive : List Part := [.regs, .stewards, .arbs, .rtq, .rtPend, .gkDir, .gkPool, .txq]
def fieldsLinkFrameReceive : FSet := ⟨[.GK_GRP_CRC_CNT_COUNT], [], [], false⟩

/-- What `execLinkReplay` may change. -/
def partsLinkReplay : List Part := [.regs, .gkPool]
def fieldsLinkReplay : FSet := ⟨[.GK_GRP_REPLAY_CNT_COUNT], [], [], false⟩

/-- What `execPoolRetrain` may change. -/
def partsPoolRetrain : List Part := [.gkPool]
def fieldsPoolRetrain : FSet := ⟨[], [], [], false⟩

/-- What `execLaneHealthInterval` may change. -/
def partsLaneHealthInterval : List Part := [.regs, .stewards, .gkDir]
def fieldsLaneHealthInterval : FSet := ⟨[.GK_GRP_STAT_SPARE_FOR, .GK_LANE_MCNT_COUNT], [], [], false⟩

/-- What `execSpareSwap` may change. -/
def partsSpareSwap : List Part := [.regs, .gkDir]
def fieldsSpareSwap : FSet := ⟨[.GK_GRP_STAT_PAUSED], [], [], false⟩

/-- What `execSpareRejoin` may change. -/
def partsSpareRejoin : List Part := [.now, .local_, .regs, .stewards, .health, .gkDir, .spinePull]
def fieldsSpareRejoin : FSet :=
  ⟨[.GK_GRP_STAT_PAUSED, .GK_GRP_STAT_SPARE_FOR, .MGMT_HEALTH_STAGE, .MGMT_HEALTH_ZERO], [], [], false⟩

/-- What `execCrossingSpareSwap` may change. -/
def partsCrossingSpareSwap : List Part := [.gkDir]
def fieldsCrossingSpareSwap : FSet := ⟨[], [], [], false⟩

/-- What `execGroupRetire` may change. -/
def partsGroupRetire : List Part := [.regs, .stewards, .health, .govs, .ni, .bearings, .drainT, .gkDir]
def fieldsGroupRetire : FSet :=
  ⟨[.GK_GRP_STAT_LCROSS, .GK_GRP_STAT_PAUSED, .GK_GRP_STAT_ROLE, .GK_STAT_COH, .GK_STAT_CROSS, .GK_STAT_NOC,
    .GK_STAT_NOC_DETOUR, .GK_STAT_STATE, .MGMT_HEALTH_STAGE, .MGMT_HEALTH_ZERO, .NOC_RTR_PORT_DRAIN, .PG_ERR_OP,
    .PG_ERR_OVERSIZE, .PG_ERR_UNITS, .PG_ERR_VALID, .PG_TO_CNT_COUNT], [], [], false⟩

/-- What `execGroupConversion` may change. -/
def partsGroupConversion : List Part := [.now, .local_, .regs, .stewards, .govs, .gkDir, .spinePull]
def fieldsGroupConversion : FSet :=
  ⟨[.PG_ERR_OP, .PG_ERR_OVERSIZE, .PG_ERR_UNITS, .PG_ERR_VALID, .PG_GRANT_CNT_COUNT, .PG_TO_CNT_COUNT], [], [], false⟩

/-- What `execCrossingSwitchInstant` may change. -/
def partsCrossingSwitchInstant : List Part := [.now, .local_, .regs, .stewards, .health, .govs, .gkDir, .spinePull]
def fieldsCrossingSwitchInstant : FSet :=
  ⟨[.GK_GRP_STAT_LCROSS, .GK_GRP_STAT_PAUSED, .GK_GRP_STAT_ROLE, .GK_GRP_STAT_SPARE_FOR, .GK_STAT_COH, .GK_STAT_CROSS,
    .GK_STAT_NOC, .MGMT_HEALTH_STAGE, .MGMT_HEALTH_ZERO], [], [], false⟩

/-- What `execGkCmdSwap` may change. -/
def partsGkCmdSwap : List Part := [.regs, .stewards, .gkDir, .rstUnlock]
def fieldsGkCmdSwap : FSet := ⟨[.GK_CTL_GROUP, .GK_CTL_LANE, .GK_GRP_STAT_PAUSED], [], [], false⟩

/-- What `execGkCmdRetire` may change. -/
def partsGkCmdRetire : List Part := [.regs, .stewards, .health, .govs, .ni, .bearings, .drainT, .gkDir, .rstUnlock]
def fieldsGkCmdRetire : FSet :=
  ⟨[.GK_CTL_GROUP, .GK_CTL_LANE, .GK_GRP_STAT_LCROSS, .GK_GRP_STAT_PAUSED, .GK_GRP_STAT_ROLE, .GK_STAT_COH,
    .GK_STAT_CROSS, .GK_STAT_NOC, .GK_STAT_NOC_DETOUR, .GK_STAT_STATE, .MGMT_HEALTH_STAGE, .MGMT_HEALTH_ZERO,
    .NOC_RTR_PORT_DRAIN, .PG_ERR_OP, .PG_ERR_OVERSIZE, .PG_ERR_UNITS, .PG_ERR_VALID, .PG_TO_CNT_COUNT], [], [], false⟩

/-- What `execCrossingFrameReceive` may change. -/
def partsCrossingFrameReceive : List Part := [.regs, .stewards, .crossIn]
def fieldsCrossingFrameReceive : FSet := ⟨[.GK_GRP_CRC_CNT_COUNT, .GK_XERR_CNT_COUNT], [], [], false⟩

/-- What `execCrossingFramesMissing` may change. -/
def partsCrossingFramesMissing : List Part := [.crossIn]
def fieldsCrossingFramesMissing : FSet := ⟨[], [], [], false⟩

/-- What `execBundleEnable` may change. -/
def partsBundleEnable : List Part := [.regs, .stewards, .govs, .rstUnlock]
def fieldsBundleEnable : FSet :=
  ⟨[.CL_BND_CTL_EN, .CL_BND_STAT_STATE, .CL_BND_STAT_TRN_ERR, .PG_ERR_OP, .PG_ERR_OVERSIZE, .PG_ERR_UNITS,
    .PG_ERR_VALID, .PG_TO_CNT_COUNT], [], [], false⟩

/-- What `execBundleDisable` may change. -/
def partsBundleDisable : List Part := [.regs, .stewards, .govs, .lane, .rstUnlock]
def fieldsBundleDisable : FSet :=
  ⟨[.CL_BND_CTL_EN, .CL_BND_STAT_GRID, .CL_BND_STAT_PLL_LOCK, .CL_BND_STAT_STATE, .CL_STAT_CHK_LOCK, .CL_STAT_LOL,
    .CL_STAT_LOS], [], [], false⟩

/-- What `execBundleBringup` may change. -/
def partsBundleBringup : List Part := [.now, .local_, .regs, .stewards, .govs, .bundle, .spinePull]
def fieldsBundleBringup : FSet :=
  ⟨[.CL_BND_STAT_GRID, .CL_BND_STAT_PLL_LOCK, .CL_BND_STAT_STATE, .CL_BND_STAT_TRN_ERR, .CL_STAT_LOL, .CL_STAT_LOS,
    .PG_ERR_OP, .PG_ERR_OVERSIZE, .PG_ERR_UNITS, .PG_ERR_VALID, .PG_GRANT_CNT_COUNT, .PG_TO_CNT_COUNT], [], [], false⟩

/-- What `execBundlePllLockCheck` may change. -/
def partsBundlePllLockCheck : List Part := [.now, .local_, .regs, .lane, .spinePull]
def fieldsBundlePllLockCheck : FSet :=
  ⟨[.CL_BND_STAT_PLL_LOCK, .CL_BND_STAT_STATE, .CL_BND_STAT_TRN_ERR], [], [], false⟩

/-- What `execBundleTrainDecision` may change. -/
def partsBundleTrainDecision : List Part := [.now, .local_, .regs, .lane, .spinePull]
def fieldsBundleTrainDecision : FSet :=
  ⟨[.CL_BND_STAT_GRID, .CL_BND_STAT_PRESENT, .CL_BND_STAT_REV, .CL_BND_STAT_STATE, .CL_BND_STAT_TRN_ERR,
    .CL_STAT_CHK_LOCK, .CL_STAT_REALIGN, .CL_STAT_RXINV], [], [], false⟩

/-- What `execBundleRetrain` may change. -/
def partsBundleRetrain : List Part := [.regs, .stewards, .govs, .bundle, .rstUnlock]
def fieldsBundleRetrain : FSet :=
  ⟨[.CL_BND_STAT_GRID, .CL_BND_STAT_PLL_LOCK, .CL_BND_STAT_STATE, .CL_BND_STAT_TRN_ERR, .CL_STAT_LOL, .CL_STAT_LOS,
    .PG_ERR_OP, .PG_ERR_OVERSIZE, .PG_ERR_UNITS, .PG_ERR_VALID, .PG_TO_CNT_COUNT], [], [], false⟩

/-- What `execBundlePermitTimeout` may change. -/
def partsBundlePermitTimeout : List Part := [.now, .local_, .regs, .stewards, .govs, .spinePull]
def fieldsBundlePermitTimeout : FSet :=
  ⟨[.CL_BND_STAT_STATE, .CL_BND_STAT_TRN_ERR, .PG_ERR_OP, .PG_ERR_OVERSIZE, .PG_ERR_UNITS, .PG_ERR_VALID,
    .PG_TO_CNT_COUNT], [], [], false⟩

/-- What `execLaneCtlWrite` may change. -/
def partsLaneCtlWrite : List Part := [.regs, .stewards, .lane, .rstUnlock]
def fieldsLaneCtlWrite : FSet :=
  ⟨[.CL_CTL_DIV, .CL_CTL_EN, .CL_CTL_RXMODE, .CL_CTL_TXINV, .CL_CTL_USE, .CL_STAT_CHK_LOCK, .CL_STAT_LOL, .CL_STAT_LOS],
    [], [], false⟩

/-- What `execLoopMeasure` may change. -/
def partsLoopMeasure : List Part := [.regs, .stewards, .lane, .rstUnlock]
def fieldsLoopMeasure : FSet := ⟨[.CL_LOOP_BUSY], [], [], false⟩

/-- What `execLoopMeasureDone` may change. -/
def partsLoopMeasureDone : List Part := [.now, .local_, .regs, .spinePull]
def fieldsLoopMeasureDone : FSet := ⟨[.CL_LOOP_BUSY, .CL_LOOP_FAIL, .CL_LOOP_UI, .CL_LOOP_VALID], [], [], false⟩

/-- What `execLaneInjectError` may change. -/
def partsLaneInjectError : List Part := [.stewards, .lane, .rstUnlock]
def fieldsLaneInjectError : FSet := ⟨[], [], [], false⟩

/-- What `execLaneSlip` may change. -/
def partsLaneSlip : List Part := [.regs, .stewards, .rstUnlock]
def fieldsLaneSlip : FSet := ⟨[.CL_STAT_REALIGN, .CL_STAT_SLIP_POS], [], [], false⟩

/-- What `execLaneTimingWrite` may change. -/
def partsLaneTimingWrite : List Part := [.regs, .stewards, .rstUnlock]
def fieldsLaneTimingWrite : FSet := ⟨[.CL_TIM_RXDSK, .CL_TIM_RXSTB, .CL_TIM_TXDSK, .CL_TIM_TXVERN], [], [], false⟩

/-- What `execLossOfSignal` may change. -/
def partsLossOfSignal : List Part := [.regs, .stewards, .govs, .trunk]
def fieldsLossOfSignal : FSet :=
  ⟨[.CL_STAT_LOS, .CL_STAT_LOS_EV, .PG_ERR_OP, .PG_ERR_OVERSIZE, .PG_ERR_UNITS, .PG_ERR_VALID, .PG_TO_CNT_COUNT,
    .TR_STAT_CHK_LOCK, .TR_STAT_STATE], [], [], false⟩

/-- What `execLossOfLock` may change. -/
def partsLossOfLock : List Part := [.regs, .stewards, .govs, .trunk]
def fieldsLossOfLock : FSet :=
  ⟨[.CL_STAT_LOL, .CL_STAT_LOL_EV, .PG_ERR_OP, .PG_ERR_OVERSIZE, .PG_ERR_UNITS, .PG_ERR_VALID, .PG_TO_CNT_COUNT,
    .TR_STAT_CHK_LOCK, .TR_STAT_STATE], [], [], false⟩

/-- What `execLossConditionEnd` may change. -/
def partsLossConditionEnd : List Part := [.regs]
def fieldsLossConditionEnd : FSet :=
  ⟨[.CL_STAT_CHK_LOCK, .CL_STAT_LOL, .CL_STAT_LOS, .CL_STAT_REALIGN], [], [], false⟩

/-- What `execCheckerLock` may change. -/
def partsCheckerLock : List Part := [.regs, .lane, .trunk]
def fieldsCheckerLock : FSet :=
  ⟨[.CL_ERR_CNT_COUNT, .CL_STAT_CHK_LOCK, .TR_ERR_CNT_COUNT, .TR_STAT_CHK_LOCK], [], [], false⟩

/-- What `execCheckerLockLoss` may change. -/
def partsCheckerLockLoss : List Part := [.regs, .lane, .trunk]
def fieldsCheckerLockLoss : FSet :=
  ⟨[.CL_ERR_CNT_COUNT, .CL_STAT_CHK_LOCK, .TR_ERR_CNT_COUNT, .TR_STAT_CHK_LOCK], [], [], false⟩

/-- What `execLanePortRxWord` may change. -/
def partsLanePortRxWord : List Part := [.regs, .out, .stewards, .lane, .trunk]
def fieldsLanePortRxWord : FSet :=
  ⟨[.CL_ERR_CNT_COUNT, .CL_STAT_CHK_LOCK, .TR_ERR_CNT_COUNT, .TR_STAT_CHK_LOCK], [], [], false⟩

/-- What `execTrunkEnable` may change. -/
def partsTrunkEnable : List Part := [.regs, .stewards, .govs, .rstUnlock]
def fieldsTrunkEnable : FSet :=
  ⟨[.PG_ERR_OP, .PG_ERR_OVERSIZE, .PG_ERR_UNITS, .PG_ERR_VALID, .PG_TO_CNT_COUNT, .TR_CTL_EN, .TR_STAT_STATE], [], [],
    false⟩

/-- What `execTrunkAdapt` may change. -/
def partsTrunkAdapt : List Part := [.now, .local_, .regs, .stewards, .govs, .trunk, .spinePull]
def fieldsTrunkAdapt : FSet :=
  ⟨[.PG_ERR_OP, .PG_ERR_OVERSIZE, .PG_ERR_UNITS, .PG_ERR_VALID, .PG_GRANT_CNT_COUNT, .PG_TO_CNT_COUNT, .TR_STAT_STATE],
    [], [], false⟩

/-- What `execTrunkConverged` may change. -/
def partsTrunkConverged : List Part := [.regs]
def fieldsTrunkConverged : FSet := ⟨[.TR_STAT_SNR, .TR_STAT_STATE], [], [], false⟩

/-- What `execTrunkNoSignal` may change. -/
def partsTrunkNoSignal : List Part := [.now, .local_, .regs, .stewards, .spinePull]
def fieldsTrunkNoSignal : FSet := ⟨[.TR_STAT_STATE], [], [], false⟩

/-- What `execTrunkReadapt` may change. -/
def partsTrunkReadapt : List Part := [.regs, .stewards, .govs, .trunk, .rstUnlock]
def fieldsTrunkReadapt : FSet :=
  ⟨[.PG_ERR_OP, .PG_ERR_OVERSIZE, .PG_ERR_UNITS, .PG_ERR_VALID, .PG_TO_CNT_COUNT, .TR_STAT_CHK_LOCK, .TR_STAT_STATE],
    [], [], false⟩

/-- What `execTrunkInjectError` may change. -/
def partsTrunkInjectError : List Part := [.stewards, .trunk, .rstUnlock]
def fieldsTrunkInjectError : FSet := ⟨[], [], [], false⟩

/-- What `execTrunkPermitTimeout` may change. -/
def partsTrunkPermitTimeout : List Part := [.now, .local_, .regs, .stewards, .govs, .spinePull]
def fieldsTrunkPermitTimeout : FSet :=
  ⟨[.PG_ERR_OP, .PG_ERR_OVERSIZE, .PG_ERR_UNITS, .PG_ERR_VALID, .PG_TO_CNT_COUNT, .TR_STAT_STATE], [], [], false⟩

/-- What `execTrFfeWrite` may change. -/
def partsTrFfeWrite : List Part := [.regs, .stewards, .rstUnlock]
def fieldsTrFfeWrite : FSet := ⟨[.TR_FFE_POST1, .TR_FFE_PRE1, .TR_FFE_PRE2], [], [], false⟩

/-- What `execCaptureBeat` may change. -/
def partsCaptureBeat : List Part := [.regs, .out, .stewards, .trunk]
def fieldsCaptureBeat : FSet := ⟨[.TR_STAT_CAP_OVF], [], [], false⟩

/-- What `execDbSqTail` may change. -/
def partsDbSqTail : List Part := [.regs, .stewards, .qps]
def fieldsDbSqTail : FSet := ⟨[.HIF_QP_STAT_ERR], [], [], false⟩

/-- What `execDbCqHead` may change. -/
def partsDbCqHead : List Part := [.regs, .stewards, .qps, .cfgWait]
def fieldsDbCqHead : FSet := ⟨[.HIF_QP_DONE_CNT_COUNT, .HIF_QP_STAT_ERR, .HIF_QP_STAT_STATE], [], [], false⟩

/-- What `execQpEnable` may change. -/
def partsQpEnable : List Part := [.regs, .stewards, .qps, .mail, .cfgWait, .rstUnlock]
def fieldsQpEnable : FSet :=
  ⟨[.HIF_QP_CTL_EN, .HIF_QP_HEAD_CQ_TAIL, .HIF_QP_HEAD_SQ_HEAD, .HIF_QP_STAT_ERR, .HIF_QP_STAT_PHASE,
    .HIF_QP_STAT_STATE], [], [], false⟩

/-- What `execQpDisable` may change. -/
def partsQpDisable : List Part := [.regs, .stewards, .qps, .mail, .cfgWait, .rstUnlock]
def fieldsQpDisable : FSet := ⟨[.HIF_QP_CTL_EN, .HIF_QP_STAT_ERR, .HIF_QP_STAT_STATE], [], [], false⟩

/-- What `execDescriptorFetch` may change. -/
def partsDescriptorFetch : List Part := [.regs, .out, .stewards, .qps, .rot, .vecs, .cfgWait]
def fieldsDescriptorFetch : FSet :=
  ⟨[.HIF_QP_DONE_CNT_COUNT, .HIF_QP_HEAD_SQ_HEAD, .HIF_QP_STAT_ERR, .HIF_QP_STAT_STATE], [], [], false⟩

/-- What `execNop` may change. -/
def partsNop : List Part := [.regs, .stewards, .qps, .cfgWait]
def fieldsNop : FSet := ⟨[.HIF_QP_DONE_CNT_COUNT, .HIF_QP_STAT_STATE], [], [], false⟩

/-- What `execFence` may change. -/
def partsFence : List Part := [.regs, .stewards, .qps, .cfgWait]
def fieldsFence : FSet := ⟨[.HIF_QP_DONE_CNT_COUNT, .HIF_QP_STAT_STATE], [], [], false⟩

/-- What `execH2d` may change. -/
def partsH2d : List Part := [.regs, .stewards, .qps, .cfgWait]
def fieldsH2d : FSet := ⟨[.HIF_QP_DONE_CNT_COUNT, .HIF_QP_STAT_STATE], [], [], false⟩

/-- What `execD2h` may change. -/
def partsD2h : List Part := [.regs, .stewards, .qps, .cfgWait]
def fieldsD2h : FSet := ⟨[.HIF_QP_DONE_CNT_COUNT, .HIF_QP_STAT_STATE], [], [], false⟩

/-- What `execD2d` may change. -/
def partsD2d : List Part := [.regs, .stewards, .qps, .cfgWait]
def fieldsD2d : FSet := ⟨[.HIF_QP_DONE_CNT_COUNT, .HIF_QP_STAT_STATE], [], [], false⟩

/-- What `execEngLoad` may change. -/
def partsEngLoad : List Part := [.regs, .stewards, .qps, .cfgWait]
def fieldsEngLoad : FSet := ⟨[.HIF_QP_DONE_CNT_COUNT, .HIF_QP_STAT_STATE], [], [], false⟩

/-- What `execFailDrain` may change. -/
def partsFailDrain : List Part := [.regs, .stewards, .qps, .cfgWait]
def fieldsFailDrain : FSet := ⟨[.HIF_QP_DONE_CNT_COUNT, .HIF_QP_STAT_STATE], [], [], false⟩

/-- What `execDmaLineComplete` may change. -/
def partsDmaLineComplete : List Part :=
  [.regs, .out, .draws, .stewards, .eng, .hbm, .poison, .win, .rcLines, .rcWb, .sf, .sfAge, .haIn, .homeOut, .leafMaj,
    .leafMin, .ccache, .hwm, .qps, .cfgWait]
def fieldsDmaLineComplete : FSet :=
  ⟨[.FC_RING_RD_COUNT, .HA_BACKINV_CNT_COUNT, .HA_STAT_RECALL, .HA_STAT_SF_LEVEL, .HBM_ERR_ADDR_HI_ADDR,
    .HBM_ERR_ADDR_LO_ADDR, .HBM_ERR_CH, .HBM_ERR_CODE, .HBM_ERR_PC, .HBM_ERR_SID, .HBM_ERR_VALID,
    .HIF_QP_DONE_CNT_COUNT, .HIF_QP_STAT_STATE, .RC_HIT_CNT_COUNT, .RC_MISS_CNT_COUNT, .RC_SNP_CNT_COUNT,
    .RC_STAT_RETAINED, .RC_WB_CNT_COUNT, .SEAL_CC_MISS_CNT_COUNT, .SEAL_DENY_CNT_COUNT, .SEAL_ERR_ADDR_HI_ADDR,
    .SEAL_ERR_ADDR_LO_ADDR, .SEAL_ERR_CODE, .SEAL_ERR_LEVEL, .SEAL_ERR_RANGE, .SEAL_ERR_VALID, .SEAL_OVF_CNT_COUNT,
    .SEAL_RSTAT_FREEZE, .SEAL_RSTAT_STATE], [], [], false⟩

/-- What `execEngStart` may change. -/
def partsEngStart : List Part := [.regs, .out, .stewards, .govs, .eng, .qps, .cfgWait, .rstUnlock]
def fieldsEngStart : FSet :=
  ⟨[.ENG_FAULT_CODE, .ENG_FAULT_DETAIL, .ENG_FAULT_PC, .ENG_FAULT_VALID, .ENG_GEN_V_VALUE, .ENG_LCNT_COUNT, .ENG_PC_CUR,
    .ENG_STALL_COUNT, .ENG_STATUS_END_CODE, .ENG_STATUS_FAIL, .ENG_STATUS_IN_HANDLER, .ENG_STATUS_STATE,
    .ENG_STATUS_TLATE, .ENG_STATUS_TMR_OVR, .ENG_STEPS_HI_COUNT, .ENG_STRM_CTL_ENDED, .ENG_STRM_POS_POS,
    .FC_FAIL_CNT_COUNT, .FC_RUN_RUN, .FC_SLICE_FAIL_COUNT, .FC_UNCHK_CNT_COUNT, .HIF_QP_DONE_CNT_COUNT,
    .HIF_QP_STAT_STATE, .PG_ERR_OP, .PG_ERR_OVERSIZE, .PG_ERR_UNITS, .PG_ERR_VALID, .PG_TO_CNT_COUNT], [], [], false⟩

/-- What `execEngStop` may change. -/
def partsEngStop : List Part := [.regs, .stewards, .govs, .eng, .qps, .cfgWait, .rstUnlock]
def fieldsEngStop : FSet :=
  ⟨[.ENG_STATUS_STATE, .HIF_QP_DONE_CNT_COUNT, .HIF_QP_STAT_STATE], [.eng], [], false⟩

/-- What `execCompletionWrite` may change. -/
def partsCompletionWrite : List Part := [.regs, .out, .stewards, .qps, .vecs, .cfgWait]
def fieldsCompletionWrite : FSet :=
  ⟨[.HIF_QP_DONE_CNT_COUNT, .HIF_QP_HEAD_CQ_TAIL, .HIF_QP_STAT_ERR, .HIF_QP_STAT_PHASE, .HIF_QP_STAT_STATE], [], [],
    false⟩

/-- What `execMsixHoldoffExpiry` may change. -/
def partsMsixHoldoffExpiry : List Part := [.now, .local_, .out, .vecs, .spinePull]
def fieldsMsixHoldoffExpiry : FSet := ⟨[], [], [], false⟩

/-- What `execCfgLoad` may change. -/
def partsCfgLoad : List Part := [.regs, .stewards, .health, .govs, .sec, .fab, .qps, .cfgWait, .cfgLoad, .cfg]
def fieldsCfgLoad : FSet :=
  ⟨[.BOOT_STAT_CFG, .BOOT_STAT_CFG_STATUS, .CFG_ERR_CODE, .CFG_ERR_FAR_FAR, .CFG_ERR_SECTOR, .CFG_ERR_VALID,
    .CFG_STATUS_FRAMES, .HIF_QP_DONE_CNT_COUNT, .HIF_QP_STAT_STATE, .LS_ERR_CODE, .LS_ERR_SOURCE, .LS_ERR_VALID,
    .LS_VER_CNT_COUNT, .MGMT_HEALTH_STAGE, .MGMT_HEALTH_ZERO, .PG_ERR_OP, .PG_ERR_OVERSIZE, .PG_ERR_UNITS,
    .PG_ERR_VALID, .PG_TO_CNT_COUNT, .SEC_COLMAP_ACTIVE, .SEC_CTL_RESET, .SEC_STATUS_ISOLATED,
    .SEC_STATUS_PENDING_REMAP, .SEC_STATUS_PERMIT_WAIT, .SEC_STATUS_RESET_HELD, .SEC_STATUS_STATE], [.sec], [], false⟩

/-- What `execMailbox` may change. -/
def partsMailbox : List Part := [.regs, .out, .stewards, .qps, .mail, .cfgWait]
def fieldsMailbox : FSet := ⟨[.HIF_QP_DONE_CNT_COUNT, .HIF_QP_STAT_STATE], [], [], false⟩

/-- What `execMailboxTimeout` may change. -/
def partsMailboxTimeout : List Part := [.now, .local_, .regs, .stewards, .qps, .mail, .cfgWait, .spinePull, .helm]
def fieldsMailboxTimeout : FSet := ⟨[.HIF_QP_DONE_CNT_COUNT, .HIF_QP_STAT_STATE], [], [], false⟩

/-- What `execBar4Read` may change. -/
def partsBar4Read : List Part :=
  [.regs, .answer, .out, .draws, .stewards, .hbm, .poison, .rcLines, .rcWb, .sf, .sfAge, .haIn, .homeOut, .ccache]
def fieldsBar4Read : FSet :=
  ⟨[.HA_BACKINV_CNT_COUNT, .HA_STAT_RECALL, .HA_STAT_SF_LEVEL, .RC_HIT_CNT_COUNT, .RC_MISS_CNT_COUNT, .RC_SNP_CNT_COUNT,
    .RC_STAT_RETAINED, .RC_WB_CNT_COUNT, .SEAL_CC_MISS_CNT_COUNT, .SEAL_DENY_CNT_COUNT, .SEAL_ERR_ADDR_HI_ADDR,
    .SEAL_ERR_ADDR_LO_ADDR, .SEAL_ERR_CODE, .SEAL_ERR_LEVEL, .SEAL_ERR_RANGE, .SEAL_ERR_VALID], [], [], false⟩

/-- What `execBar4Write` may change. -/
def partsBar4Write : List Part :=
  [.regs, .out, .draws, .stewards, .eng, .hbm, .poison, .win, .rcLines, .rcWb, .sf, .sfAge, .haIn, .homeOut, .leafMaj,
    .leafMin, .ccache, .hwm]
def fieldsBar4Write : FSet :=
  ⟨[.HA_BACKINV_CNT_COUNT, .HA_STAT_RECALL, .HA_STAT_SF_LEVEL, .HBM_ERR_ADDR_HI_ADDR, .HBM_ERR_ADDR_LO_ADDR,
    .HBM_ERR_CH, .HBM_ERR_CODE, .HBM_ERR_PC, .HBM_ERR_SID, .HBM_ERR_VALID, .RC_HIT_CNT_COUNT, .RC_MISS_CNT_COUNT,
    .RC_SNP_CNT_COUNT, .RC_STAT_RETAINED, .RC_WB_CNT_COUNT, .SEAL_CC_MISS_CNT_COUNT, .SEAL_DENY_CNT_COUNT,
    .SEAL_ERR_ADDR_HI_ADDR, .SEAL_ERR_ADDR_LO_ADDR, .SEAL_ERR_CODE, .SEAL_ERR_LEVEL, .SEAL_ERR_RANGE, .SEAL_ERR_VALID,
    .SEAL_OVF_CNT_COUNT, .SEAL_RSTAT_FREEZE, .SEAL_RSTAT_STATE], [], [], false⟩

/-- What `execFunctionLevelReset` may change. -/
def partsFunctionLevelReset : List Part :=
  [.regs, .stewards, .govs, .sec, .fab, .eng, .sessions, .qps, .vecs, .mail, .cfgWait, .cfgLoad, .cfg]
def fieldsFunctionLevelReset : FSet :=
  ⟨[.BOOT_STAT_CFG, .BOOT_STAT_CFG_STATUS, .ENG_STATUS_STATE, .HIF_FN_STAT_FLR_BUSY, .HIF_QP_DONE_CNT_COUNT,
    .HIF_QP_STAT_STATE, .SEC_CTL_RESET, .SEC_STATUS_ISOLATED, .SEC_STATUS_PERMIT_WAIT, .SEC_STATUS_RESET_HELD,
    .SEC_STATUS_STATE], [.fn, .sec], [], false⟩

/-- What `execFlrDone` may change. -/
def partsFlrDone : List Part := [.regs]
def fieldsFlrDone : FSet := ⟨[.HIF_FN_STAT_FLR_BUSY, .HIF_FN_STAT_FLR_CNT], [], [], false⟩

/-- What `execBusMasterDisable` may change. -/
def partsBusMasterDisable : List Part := [.regs, .out, .vecs]
def fieldsBusMasterDisable : FSet := ⟨[.HIF_FN_STAT_BME], [], [], false⟩

/-- What `execPcieLinkDown` may change. -/
def partsPcieLinkDown : List Part :=
  [.regs, .stewards, .govs, .sec, .fab, .eng, .sessions, .qps, .vecs, .mail, .pcie, .cfgWait, .cfgLoad, .cfg]
def fieldsPcieLinkDown : FSet :=
  ⟨[.BOOT_STAT_CFG, .BOOT_STAT_CFG_STATUS, .ENG_STATUS_STATE, .HIF_FN_STAT_FLR_BUSY, .HIF_QP_DONE_CNT_COUNT,
    .HIF_QP_STAT_STATE, .SEC_CTL_RESET, .SEC_STATUS_ISOLATED, .SEC_STATUS_PERMIT_WAIT, .SEC_STATUS_RESET_HELD,
    .SEC_STATUS_STATE], [.fn, .sec], [], false⟩

/-- What `execPcieLinkUp` may change. -/
def partsPcieLinkUp : List Part := [.govs, .pcie]
def fieldsPcieLinkUp : FSet := ⟨[], [], [], false⟩

/-- What `execStep` may change. -/
def partsStep : List Part := [.regs, .stewards, .qps, .cfgWait, .sxq, .rstUnlock]
def fieldsStep : FSet :=
  ⟨[.HIF_QP_DONE_CNT_COUNT, .HIF_QP_STAT_STATE, .SX_STAT_REF_CODE, .SX_STAT_STEP_REF, .SX_STEP_CMD_BUSY], [], [], false⟩

/-- What `execSet` may change. -/
def partsSet : List Part := [.regs, .stewards, .qps, .cfgWait, .sxq, .rstUnlock]
def fieldsSet : FSet :=
  ⟨[.HIF_QP_DONE_CNT_COUNT, .HIF_QP_STAT_STATE, .SX_STAT_REF_CODE, .SX_STAT_STEP_REF, .SX_STEP_CMD_BUSY], [], [], false⟩

/-- What `execStepApply` may change. -/
def partsStepApply : List Part :=
  [.now, .local_, .regs, .stewards, .qps, .cfgWait, .sxq, .stepN, .spinePull, .anchorE, .anchorT]
def fieldsStepApply : FSet :=
  ⟨[.CL_BND_STAT_GRID, .HIF_QP_DONE_CNT_COUNT, .HIF_QP_STAT_STATE, .SX_STAT_REF_CODE, .SX_STAT_STEPS, .SX_STAT_STEP_REF,
    .SX_STAT_VALID, .SX_STEP_CMD_BUSY], [], [], false⟩

/-- What `execSxAdjWrite` may change. -/
def partsSxAdjWrite : List Part := [.regs, .stewards, .rstUnlock]
def fieldsSxAdjWrite : FSet := ⟨[.SX_ADJ_RATE], [], [], false⟩

/-- What `execSxCtlWrite` may change. -/
def partsSxCtlWrite : List Part := [.regs, .stewards, .rstUnlock]
def fieldsSxCtlWrite : FSet :=
  ⟨[.SX_CTL_DELAY, .SX_CTL_DOMAIN, .SX_CTL_MODE, .SX_CTL_OC_PORT, .SX_CTL_SERVO, .SX_CTL_SYNTONISE, .SX_CTL_TRANSPORT],
    [], [], false⟩

/-- What `execPtpRxEvent` may change. -/
def partsPtpRxEvent : List Part := [.out, .rxStamp, .sxDiscard]
def fieldsPtpRxEvent : FSet := ⟨[], [], [], false⟩

/-- What `execPtpTxEvent` may change. -/
def partsPtpTxEvent : List Part := [.regs, .out, .stewards, .txq]
def fieldsPtpTxEvent : FSet := ⟨[.SX_PORT_STAT_TXQ_OVF, .SX_TXQ_LOST_CNT_COUNT], [], [], false⟩

/-- What `execTcForward` may change. -/
def partsTcForward : List Part := [.out, .residences, .sxDiscard]
def fieldsTcForward : FSet := ⟨[], [], [], false⟩

/-- What `execResidenceTimeout` may change. -/
def partsResidenceTimeout : List Part := [.now, .local_, .regs, .residences, .spinePull]
def fieldsResidenceTimeout : FSet := ⟨[.SX_PORT_STAT_ORPHAN], [], [], false⟩

/-- What `execSxTxqPop` may change. -/
def partsSxTxqPop : List Part := [.stewards, .txq, .rstUnlock]
def fieldsSxTxqPop : FSet := ⟨[], [], [], false⟩

/-- What `execServoMeasurement` may change. -/
def partsServoMeasurement : List Part := [.regs, .stewards, .qps, .cfgWait, .sxq, .sxMeas]
def fieldsServoMeasurement : FSet :=
  ⟨[.HELM_IC_PEND_BITS, .HIF_QP_DONE_CNT_COUNT, .HIF_QP_STAT_STATE, .SX_ADJ_RATE, .SX_MEAS_OFS_LO_VALUE,
    .SX_MEAS_SEQ_NEW, .SX_STAT_REF_CODE, .SX_STAT_STEP_REF, .SX_STEP_CMD_BUSY], [], [], false⟩

/-- What `execPtpPortStateChange` may change. -/
def partsPtpPortStateChange : List Part := [.regs, .stewards, .qps, .cfgWait, .sxq]
def fieldsPtpPortStateChange : FSet :=
  ⟨[.HIF_QP_DONE_CNT_COUNT, .HIF_QP_STAT_STATE, .SX_PORT_STAT_LINK, .SX_PORT_STAT_PSTATE, .SX_STAT_REF_CODE,
    .SX_STAT_STEP_REF, .SX_STEP_CMD_BUSY], [], [], false⟩

/-- What `execPpsPulse` may change. -/
def partsPpsPulse : List Part := [.now, .local_, .out, .ppsEnd, .spinePull]
def fieldsPpsPulse : FSet := ⟨[], [], [], false⟩

/-- What `execPpsEnd` may change. -/
def partsPpsEnd : List Part := [.now, .local_, .out, .ppsEnd, .spinePull]
def fieldsPpsEnd : FSet := ⟨[], [], [], false⟩

/-- What `execTimeRead` may change. -/
def partsTimeRead : List Part := [.regs, .out, .stewards, .qps, .cfgWait]
def fieldsTimeRead : FSet := ⟨[.HIF_QP_DONE_CNT_COUNT, .HIF_QP_STAT_STATE], [], [], false⟩

/-- What `execTimeStep` may change. -/
def partsTimeStep : List Part := [.regs, .stewards, .qps, .cfgWait, .sxq]
def fieldsTimeStep : FSet :=
  ⟨[.HIF_QP_DONE_CNT_COUNT, .HIF_QP_STAT_STATE, .SX_STAT_REF_CODE, .SX_STAT_STEP_REF, .SX_STEP_CMD_BUSY], [], [], false⟩

/-- What `execTimeAdjust` may change. -/
def partsTimeAdjust : List Part := [.regs, .stewards, .qps, .cfgWait]
def fieldsTimeAdjust : FSet := ⟨[.HIF_QP_DONE_CNT_COUNT, .HIF_QP_STAT_STATE, .SX_ADJ_RATE], [], [], false⟩

/-- What `execClkSourceSelect` may change. -/
def partsClkSourceSelect : List Part := [.regs, .stewards, .rstUnlock]
def fieldsClkSourceSelect : FSet :=
  ⟨[.CLK_MON_REF_OK, .CLK_SRC_ACTIVE, .CLK_SRC_DEAD_RECK, .CLK_SRC_GLIDING, .CLK_SRC_SEL, .SX_STAT_DEAD_RECK], [], [],
    false⟩

/-- What `execGlideDone` may change. -/
def partsGlideDone : List Part := [.regs]
def fieldsGlideDone : FSet := ⟨[.CLK_SRC_GLIDING], [], [], false⟩

/-- What `execClockSourceFail` may change. -/
def partsClockSourceFail : List Part := [.regs, .stewards, .helm]
def fieldsClockSourceFail : FSet :=
  ⟨[.CLK_MON_FAIL_EV, .CLK_MON_REF_OK, .CLK_SRC_ACTIVE, .CLK_SRC_DEAD_RECK, .CLK_SRC_GLIDING, .SX_STAT_DEAD_RECK], [],
    [], false⟩

/-- What `execOscErrMeasure` may change. -/
def partsOscErrMeasure : List Part := [.now, .local_, .regs, .spinePull]
def fieldsOscErrMeasure : FSet := ⟨[.CLK_MON_OSC_ERR], [], [], false⟩

/-- What `execClockAutoReturn` may change. -/
def partsClockAutoReturn : List Part := [.regs]
def fieldsClockAutoReturn : FSet :=
  ⟨[.CLK_MON_REF_OK, .CLK_SRC_ACTIVE, .CLK_SRC_DEAD_RECK, .CLK_SRC_GLIDING, .HELM_IC_PEND_BITS, .SX_STAT_DEAD_RECK], [],
    [], false⟩

/-- What `execClkSrcReturn` may change. -/
def partsClkSrcReturn : List Part := [.regs, .stewards, .rstUnlock]
def fieldsClkSrcReturn : FSet :=
  ⟨[.CLK_MON_REF_OK, .CLK_SRC_ACTIVE, .CLK_SRC_DEAD_RECK, .CLK_SRC_GLIDING, .HELM_IC_PEND_BITS, .SX_STAT_DEAD_RECK], [],
    [], false⟩

/-- What `execClkSscWrite` may change. -/
def partsClkSscWrite : List Part := [.regs, .stewards, .rstUnlock]
def fieldsClkSscWrite : FSet := ⟨[.CLK_SSC_DEPTH, .CLK_SSC_FREQ], [], [], false⟩

/-- What `execClkoutSwitch` may change. -/
def partsClkoutSwitch : List Part := [.regs, .out, .stewards, .rstUnlock]
def fieldsClkoutSwitch : FSet := ⟨[.CLKOUT_CTL_SRC], [], [], false⟩

/-- What `execSpnSynWrite` may change. -/
def partsSpnSynWrite : List Part := [.regs, .out, .stewards, .synth, .rstUnlock]
def fieldsSpnSynWrite : FSet :=
  ⟨[.FCLK_GSEL_LOCKED, .FSYN_CTL_GLIDING, .FSYN_CTL_LOCKED, .SPN_SYN_FREQ, .SPN_SYN_GLIDING], [], [], false⟩

/-- What `execFsynFreqWrite` may change. -/
def partsFsynFreqWrite : List Part := [.regs, .out, .stewards, .synth, .rstUnlock]
def fieldsFsynFreqWrite : FSet :=
  ⟨[.FSYN_CTL_GLIDING, .FSYN_CTL_LOCKED, .FSYN_FREQ_FREQ, .SPN_SYN_GLIDING], [], [], false⟩

/-- What `execVselSequence` may change. -/
def partsVselSequence : List Part := [.regs, .out, .stewards, .synth, .fvs, .rstUnlock]
def fieldsVselSequence : FSet :=
  ⟨[.FSYN_CTL_GLIDING, .FSYN_CTL_LOCKED, .FVS_CTL_VSEL, .FVS_STAT_BUSY, .FVS_STAT_FAIL, .SPN_SYN_GLIDING], [], [],
    false⟩

/-- What `execSynthGlideStep` may change. -/
def partsSynthGlideStep : List Part := [.now, .local_, .regs, .out, .stewards, .spinePull, .synth, .fvs]
def fieldsSynthGlideStep : FSet :=
  ⟨[.FSYN_CTL_GLIDING, .FSYN_CTL_LOCKED, .FVS_STAT_BUSY, .FVS_STAT_FAIL, .SPN_SYN_GLIDING], [], [], false⟩

/-- What `execRailSettleCheck` may change. -/
def partsRailSettleCheck : List Part := [.now, .local_, .regs, .out, .stewards, .govs, .spinePull, .synth, .fvs]
def fieldsRailSettleCheck : FSet :=
  ⟨[.FSYN_CTL_GLIDING, .FSYN_CTL_LOCKED, .FSYN_CTL_PERMIT_WAIT, .FVS_STAT_BUSY, .FVS_STAT_FAIL, .FVS_STAT_VCUR,
    .PG_ERR_OP, .PG_ERR_OVERSIZE, .PG_ERR_UNITS, .PG_ERR_VALID, .PG_TO_CNT_COUNT, .SPN_SYN_GLIDING], [], [], false⟩

/-- What `execSynthRiseGrant` may change. -/
def partsSynthRiseGrant : List Part := [.now, .local_, .regs, .out, .stewards, .govs, .spinePull, .synth, .fvs]
def fieldsSynthRiseGrant : FSet :=
  ⟨[.FSYN_CTL_GLIDING, .FSYN_CTL_LOCKED, .FSYN_CTL_PERMIT_WAIT, .FVS_STAT_BUSY, .FVS_STAT_FAIL, .PG_ERR_OP,
    .PG_ERR_OVERSIZE, .PG_ERR_UNITS, .PG_ERR_VALID, .PG_GRANT_CNT_COUNT, .PG_TO_CNT_COUNT, .SPN_SYN_GLIDING], [], [],
    false⟩

/-- What `execWdtKick` may change. -/
def partsWdtKick : List Part := [.regs, .stewards, .helm]
def fieldsWdtKick : FSet := ⟨[.HELM_WDT_CTL_STAGE], [], [], false⟩

/-- What `execWdtUnlock` may change. -/
def partsWdtUnlock : List Part := [.stewards, .helm]
def fieldsWdtUnlock : FSet := ⟨[], [], [], false⟩

/-- What `execHelmCoreRelease` may change. -/
def partsHelmCoreRelease : List Part := [.regs, .stewards, .govs, .helm]
def fieldsHelmCoreRelease : FSet :=
  ⟨[.HELM_CORE_STAT_PERMIT_TO, .HELM_CORE_STAT_STATE, .PG_ERR_OP, .PG_ERR_OVERSIZE, .PG_ERR_UNITS, .PG_ERR_VALID,
    .PG_TO_CNT_COUNT], [], [], false⟩

/-- What `execHelmCoreStart` may change. -/
def partsHelmCoreStart : List Part := [.now, .local_, .regs, .stewards, .govs, .spinePull, .helm]
def fieldsHelmCoreStart : FSet :=
  ⟨[.HELM_CORE_STAT_STATE, .HELM_DBG_STAT_CAUSE, .PG_ERR_OP, .PG_ERR_OVERSIZE, .PG_ERR_UNITS, .PG_ERR_VALID,
    .PG_GRANT_CNT_COUNT, .PG_TO_CNT_COUNT], [], [], false⟩

/-- What `execHelmCoreReset` may change. -/
def partsHelmCoreReset : List Part :=
  [.regs, .out, .draws, .stewards, .govs, .eng, .hbm, .poison, .win, .rcLines, .rcWb, .sf, .sfAge, .haIn, .homeOut,
    .leafMaj, .leafMin, .ccache, .hwm, .mail, .helm, .helmL1, .helmL2, .flashC]
def fieldsHelmCoreReset : FSet :=
  ⟨[.HA_BACKINV_CNT_COUNT, .HA_STAT_RECALL, .HA_STAT_SF_LEVEL, .HBM_ERR_ADDR_HI_ADDR, .HBM_ERR_ADDR_LO_ADDR,
    .HBM_ERR_CH, .HBM_ERR_CODE, .HBM_ERR_PC, .HBM_ERR_SID, .HBM_ERR_VALID, .HELM_CORE_STAT_STATE, .RC_HIT_CNT_COUNT,
    .RC_MISS_CNT_COUNT, .RC_SNP_CNT_COUNT, .RC_STAT_RETAINED, .RC_WB_CNT_COUNT, .SEAL_CC_MISS_CNT_COUNT,
    .SEAL_DENY_CNT_COUNT, .SEAL_ERR_ADDR_HI_ADDR, .SEAL_ERR_ADDR_LO_ADDR, .SEAL_ERR_CODE, .SEAL_ERR_LEVEL,
    .SEAL_ERR_RANGE, .SEAL_ERR_VALID, .SEAL_OVF_CNT_COUNT, .SEAL_RSTAT_FREEZE, .SEAL_RSTAT_STATE], [.core], [], false⟩

/-- What `execWdtExpiry` may change. -/
def partsWdtExpiry : List Part := [.now, .local_, .regs, .govs, .mail, .spinePull, .helm, .helmL1, .helmL2]
def fieldsWdtExpiry : FSet :=
  ⟨[.HELM_CORE_STAT_STATE, .HELM_CORE_STAT_WDT_RESET, .HELM_WDT_CTL_STAGE], [.core], [], false⟩

/-- What `execFabricIrqLine` may change. -/
def partsFabricIrqLine : List Part := [.irqLine]
def fieldsFabricIrqLine : FSet := ⟨[], [], [], false⟩

/-- What `execHelmIcSet` may change. -/
def partsHelmIcSet : List Part := [.regs, .stewards]
def fieldsHelmIcSet : FSet := ⟨[.HELM_IC_PEND_BITS], [], [], false⟩

/-- What `execHelmIcClaim` may change. -/
def partsHelmIcClaim : List Part := [.regs, .answer, .helm]
def fieldsHelmIcClaim : FSet := ⟨[.HELM_CORE_STAT_LEVEL, .HELM_IC_PEND_BITS], [], [], false⟩

/-- What `execHelmIcComplete` may change. -/
def partsHelmIcComplete : List Part := [.regs, .stewards, .helm]
def fieldsHelmIcComplete : FSet := ⟨[.HELM_CORE_STAT_LEVEL], [], [], false⟩

/-- What `execHelmNmi` may change. -/
def partsHelmNmi : List Part :=
  [.regs, .out, .draws, .stewards, .eng, .hbm, .poison, .win, .rcLines, .rcWb, .sf, .sfAge, .haIn, .homeOut, .leafMaj,
    .leafMin, .ccache, .hwm, .helm, .helmL1, .helmL2, .flashC]
def fieldsHelmNmi : FSet :=
  ⟨[.HA_BACKINV_CNT_COUNT, .HA_STAT_RECALL, .HA_STAT_SF_LEVEL, .HBM_ERR_ADDR_HI_ADDR, .HBM_ERR_ADDR_LO_ADDR,
    .HBM_ERR_CH, .HBM_ERR_CODE, .HBM_ERR_PC, .HBM_ERR_SID, .HBM_ERR_VALID, .RC_HIT_CNT_COUNT, .RC_MISS_CNT_COUNT,
    .RC_SNP_CNT_COUNT, .RC_STAT_RETAINED, .RC_WB_CNT_COUNT, .SEAL_CC_MISS_CNT_COUNT, .SEAL_DENY_CNT_COUNT,
    .SEAL_ERR_ADDR_HI_ADDR, .SEAL_ERR_ADDR_LO_ADDR, .SEAL_ERR_CODE, .SEAL_ERR_LEVEL, .SEAL_ERR_RANGE, .SEAL_ERR_VALID,
    .SEAL_OVF_CNT_COUNT, .SEAL_RSTAT_FREEZE, .SEAL_RSTAT_STATE], [], [], false⟩

/-- What `execDbgMonitorHalt` may change. -/
def partsDbgMonitorHalt : List Part := [.stewards, .helm]
def fieldsDbgMonitorHalt : FSet := ⟨[], [], [], false⟩

/-- What `execDbgHardHalt` may change. -/
def partsDbgHardHalt : List Part :=
  [.regs, .out, .draws, .stewards, .eng, .hbm, .poison, .win, .rcLines, .rcWb, .sf, .sfAge, .haIn, .homeOut, .leafMaj,
    .leafMin, .ccache, .hwm, .rstUnlock, .helm, .helmL1, .helmL2, .flashC]
def fieldsDbgHardHalt : FSet :=
  ⟨[.HA_BACKINV_CNT_COUNT, .HA_STAT_RECALL, .HA_STAT_SF_LEVEL, .HBM_ERR_ADDR_HI_ADDR, .HBM_ERR_ADDR_LO_ADDR,
    .HBM_ERR_CH, .HBM_ERR_CODE, .HBM_ERR_PC, .HBM_ERR_SID, .HBM_ERR_VALID, .HELM_CORE_STAT_STATE, .HELM_DBG_STAT_CAUSE,
    .HELM_DBG_STAT_UNLOCK_ABORT, .RC_HIT_CNT_COUNT, .RC_MISS_CNT_COUNT, .RC_SNP_CNT_COUNT, .RC_STAT_RETAINED,
    .RC_WB_CNT_COUNT, .SEAL_CC_MISS_CNT_COUNT, .SEAL_DENY_CNT_COUNT, .SEAL_ERR_ADDR_HI_ADDR, .SEAL_ERR_ADDR_LO_ADDR,
    .SEAL_ERR_CODE, .SEAL_ERR_LEVEL, .SEAL_ERR_RANGE, .SEAL_ERR_VALID, .SEAL_OVF_CNT_COUNT, .SEAL_RSTAT_FREEZE,
    .SEAL_RSTAT_STATE], [], [], false⟩

/-- What `execDbgHardRelease` may change. -/
def partsDbgHardRelease : List Part := [.regs, .stewards, .hold, .helm]
def fieldsDbgHardRelease : FSet := ⟨[.HELM_CORE_STAT_STATE], [], [], false⟩

/-- What `execMonitorEntry` may change. -/
def partsMonitorEntry : List Part :=
  [.regs, .out, .draws, .stewards, .eng, .hbm, .poison, .win, .rcLines, .rcWb, .sf, .sfAge, .haIn, .homeOut, .leafMaj,
    .leafMin, .ccache, .hwm, .rstUnlock, .helm, .helmL1, .helmL2, .flashC]
def fieldsMonitorEntry : FSet :=
  ⟨(.HA_BACKINV_CNT_COUNT :: .HA_STAT_RECALL :: .HA_STAT_SF_LEVEL :: .HBM_ERR_ADDR_HI_ADDR :: .HBM_ERR_ADDR_LO_ADDR ::
    .HBM_ERR_CH :: .HBM_ERR_CODE :: .HBM_ERR_PC :: .HBM_ERR_SID :: .HBM_ERR_VALID :: .HELM_CORE_STAT_LEVEL ::
    .HELM_CORE_STAT_STATE :: .HELM_DBG_STAT_CAUSE :: .HELM_DBG_STAT_IN_MON :: .HELM_DBG_STAT_UNLOCK_ABORT ::
    .RC_HIT_CNT_COUNT :: .RC_MISS_CNT_COUNT :: .RC_SNP_CNT_COUNT :: .RC_STAT_RETAINED :: .RC_WB_CNT_COUNT ::
    .SEAL_CC_MISS_CNT_COUNT :: .SEAL_DENY_CNT_COUNT :: .SEAL_ERR_ADDR_HI_ADDR :: .SEAL_ERR_ADDR_LO_ADDR ::
    .SEAL_ERR_CODE :: .SEAL_ERR_LEVEL :: .SEAL_ERR_RANGE :: .SEAL_ERR_VALID :: .SEAL_OVF_CNT_COUNT :: .SEAL_RSTAT_FREEZE
    :: .SEAL_RSTAT_STATE :: []), [], [], false⟩

/-- What `execMonitorExit` may change. -/
def partsMonitorExit : List Part := [.regs, .stewards, .helm]
def fieldsMonitorExit : FSet :=
  ⟨[.HELM_CORE_STAT_LEVEL, .HELM_CORE_STAT_STATE, .HELM_DBG_STAT_IN_MON], [], [], false⟩

/-- What `execDbgRegRead` may change. -/
def partsDbgRegRead : List Part := [.regs, .draws, .stewards, .helm]
def fieldsDbgRegRead : FSet :=
  ⟨[.HELM_DBG_ACC_ERR, .HELM_DBG_ACC_HI_DATA, .HELM_DBG_ACC_LO_DATA, .HELM_DBG_ACC_REG], [], [], false⟩

/-- What `execDbgRegWrite` may change. -/
def partsDbgRegWrite : List Part := [.regs, .stewards, .helm]
def fieldsDbgRegWrite : FSet := ⟨[.HELM_DBG_ACC_ERR, .HELM_DBG_ACC_REG], [], [], false⟩

/-- What `execPatchWrite` may change. -/
def partsPatchWrite : List Part := [.regs, .helmL1]
def fieldsPatchWrite : FSet :=
  ⟨[.HELM_PATCH_ADDR_EN, .HELM_PATCH_ADDR_OFF, .HELM_PATCH_DATA_WORD], [], [], false⟩

/-- What `execHelmMailboxGo` may change. -/
def partsHelmMailboxGo : List Part :=
  [.regs, .out, .draws, .stewards, .eng, .hbm, .poison, .win, .rcLines, .rcWb, .sf, .sfAge, .haIn, .homeOut, .leafMaj,
    .leafMin, .ccache, .hwm, .qps, .mail, .cfgWait, .helm]
def fieldsHelmMailboxGo : FSet :=
  ⟨[.HA_BACKINV_CNT_COUNT, .HA_STAT_RECALL, .HA_STAT_SF_LEVEL, .HBM_ERR_ADDR_HI_ADDR, .HBM_ERR_ADDR_LO_ADDR,
    .HBM_ERR_CH, .HBM_ERR_CODE, .HBM_ERR_PC, .HBM_ERR_SID, .HBM_ERR_VALID, .HELM_MBX_CTL_BUSY, .HIF_QP_DONE_CNT_COUNT,
    .HIF_QP_STAT_STATE, .RC_HIT_CNT_COUNT, .RC_MISS_CNT_COUNT, .RC_SNP_CNT_COUNT, .RC_STAT_RETAINED, .RC_WB_CNT_COUNT,
    .SEAL_CC_MISS_CNT_COUNT, .SEAL_DENY_CNT_COUNT, .SEAL_ERR_ADDR_HI_ADDR, .SEAL_ERR_ADDR_LO_ADDR, .SEAL_ERR_CODE,
    .SEAL_ERR_LEVEL, .SEAL_ERR_RANGE, .SEAL_ERR_VALID, .SEAL_OVF_CNT_COUNT, .SEAL_RSTAT_FREEZE, .SEAL_RSTAT_STATE], [],
    [], false⟩

/-- What `execHelmMailboxDone` may change. -/
def partsHelmMailboxDone : List Part := [.regs, .helm]
def fieldsHelmMailboxDone : FSet :=
  ⟨[.HELM_IC_PEND_BITS, .HELM_MBX_CTL_BUSY, .HELM_MBX_CTL_BYTES, .HELM_MBX_CTL_STATUS], [], [], false⟩

/-- What `execPlannedDieReset` may change. -/
def partsPlannedDieReset : List Part :=
  (.now :: .local_ :: .regs :: .answer :: .draws :: .stewards :: .govs :: .sec :: .tree :: .fab :: .eng :: .hbm ::
    .poison :: .win :: .rcLines :: .rcMiss :: .rcWb :: .sf :: .sfAge :: .haIn :: .haTx :: .rcLossT :: .seals :: .hbmPort
    :: .hbmPc :: .stack :: .arbs :: .rtq :: .ni :: .bearings :: .rtPend :: .drainT :: .gkLink :: .gkDir :: .gkPool ::
    .crossIn :: .lane :: .trunk :: .bundle :: .qps :: .cfgWait :: .cfgLoad :: .cfg :: .spinePull :: .synth :: .fvs ::
    .dieRt :: .hold :: .relq :: .rstq :: .rstUnlock :: .scrub :: [])
def fieldsPlannedDieReset : FSet :=
  ⟨(.BOOT_STAT_CFG :: .BOOT_STAT_CFG_STATUS :: .ENG_STATUS_STATE :: .GK_GRP_STAT_ROLE :: .GK_STAT_COH :: .GK_STAT_CROSS
    :: .GK_STAT_NOC :: .GK_STAT_NOC_DETOUR :: .GK_STAT_STATE :: .HA_BACKINV_CNT_COUNT :: .HA_STAT_SF_LEVEL ::
    .HBM_STAT_STATE :: .HELM_IC_PEND_BITS :: .HIF_QP_DONE_CNT_COUNT :: .HIF_QP_STAT_STATE :: .HUB_DIE_STATE_STATE ::
    .NOC_NI_ALT_CNT_COUNT :: .NOC_NI_BOUNCE_CNT_COUNT :: .NOC_NI_ERR_CODE :: .NOC_NI_ERR_DEST :: .NOC_NI_ERR_VALID ::
    .NOC_NI_FAIL_CNT_COUNT :: .RC_SNP_CNT_COUNT :: .RC_WB_CNT_COUNT :: .RST_DIE_STAT_CAUSE :: .RST_DIE_STAT_HELD ::
    .RST_DIE_STAT_REFUSED :: .RST_DIE_STAT_RESETS :: .SEAL_STAT_KIND :: .SEAL_STAT_PERMIT_WAIT :: .SEAL_STAT_QUEUE ::
    .SEAL_STAT_RANGE :: .SEC_CTL_RESET :: .SEC_STATUS_ISOLATED :: .SEC_STATUS_PERMIT_WAIT :: .SEC_STATUS_RESET_HELD ::
    .SEC_STATUS_STATE :: []), [.die, .eng, .sec], [], false⟩

/-- What `execDieStart` may change. -/
def partsDieStart : List Part :=
  (.regs :: .answer :: .draws :: .stewards :: .govs :: .sec :: .tree :: .fab :: .eng :: .hbm :: .poison :: .win ::
    .rcLines :: .rcMiss :: .rcWb :: .sf :: .sfAge :: .haIn :: .haTx :: .rcLossT :: .hbmPort :: .hbmPc :: .stack :: .arbs
    :: .rtq :: .ni :: .bearings :: .rtPend :: .drainT :: .gkLink :: .gkDir :: .gkPool :: .crossIn :: .lane :: .trunk ::
    .bundle :: .cfg :: .synth :: .fvs :: .dieRt :: .relq :: .rstUnlock :: .scrub :: [])
def fieldsDieStart : FSet :=
  ⟨[.GK_GRP_STAT_ROLE, .GK_STAT_COH, .GK_STAT_CROSS, .GK_STAT_NOC, .GK_STAT_NOC_DETOUR, .GK_STAT_STATE,
    .HA_BACKINV_CNT_COUNT, .HA_STAT_SF_LEVEL, .HBM_STAT_STATE, .HELM_IC_PEND_BITS, .HUB_DIE_STATE_STATE,
    .PWR_DIE_STAT_PSTATE, .RC_SNP_CNT_COUNT, .RC_WB_CNT_COUNT, .RST_DIE_STAT_HELD, .RST_DIE_STAT_REFUSED,
    .RST_DIE_STAT_RESETS], [.die, .eng, .sec], [], false⟩

/-- What `execDieLost` may change. -/
def partsDieLost : List Part :=
  (.now :: .local_ :: .regs :: .answer :: .draws :: .stewards :: .health :: .govs :: .sec :: .tree :: .fab :: .eng ::
    .hbm :: .poison :: .win :: .rcLines :: .rcMiss :: .rcWb :: .sf :: .sfAge :: .haIn :: .haTx :: .homeOut :: .rcLossT
    :: .seals :: .hbmPort :: .hbmPc :: .stack :: .arbs :: .rtq :: .ni :: .bearings :: .rtPend :: .drainT :: .gkLink ::
    .gkDir :: .gkPool :: .crossIn :: .lane :: .trunk :: .bundle :: .qps :: .cfgWait :: .cfgLoad :: .cfg :: .spinePull ::
    .synth :: .fvs :: .dieRt :: .hold :: .relq :: .rstq :: .scrub :: [])
def fieldsDieLost : FSet :=
  ⟨(.BOOT_STAT_CFG :: .BOOT_STAT_CFG_STATUS :: .ENG_STATUS_STATE :: .GK_GRP_STAT_ROLE :: .GK_STAT_COH :: .GK_STAT_CROSS
    :: .GK_STAT_NOC :: .GK_STAT_NOC_DETOUR :: .GK_STAT_STATE :: .HA_BACKINV_CNT_COUNT :: .HA_POISON_CNT_COUNT ::
    .HA_STAT_SF_LEVEL :: .HBM_STAT_CONTENT :: .HBM_STAT_STATE :: .HELM_IC_PEND_BITS :: .HIF_QP_DONE_CNT_COUNT ::
    .HIF_QP_STAT_STATE :: .HUB_DIE_STATE_LOST :: .HUB_DIE_STATE_STATE :: .MGMT_HEALTH_STAGE :: .NOC_NI_ALT_CNT_COUNT ::
    .NOC_NI_BOUNCE_CNT_COUNT :: .NOC_NI_ERR_CODE :: .NOC_NI_ERR_DEST :: .NOC_NI_ERR_VALID :: .NOC_NI_FAIL_CNT_COUNT ::
    .PWR_DIE_STAT_BUSY :: .RC_SNP_CNT_COUNT :: .RC_STAT_RETAINED :: .RC_WB_CNT_COUNT :: .RST_DIE_CTL_HOLD ::
    .RST_DIE_STAT_CAUSE :: .RST_DIE_STAT_HELD :: .RST_DIE_STAT_REFUSED :: .RST_DIE_STAT_RESETS :: .SEAL_STAT_KIND ::
    .SEAL_STAT_PERMIT_WAIT :: .SEAL_STAT_QUEUE :: .SEAL_STAT_RANGE :: .SEC_CTL_RESET :: .SEC_STATUS_ISOLATED ::
    .SEC_STATUS_PERMIT_WAIT :: .SEC_STATUS_RESET_HELD :: .SEC_STATUS_STATE :: []), [.die, .eng, .sec], [], false⟩

/-- What `execDieClockLost` may change. -/
def partsDieClockLost : List Part :=
  (.regs :: .answer :: .draws :: .stewards :: .govs :: .sec :: .fab :: .eng :: .hbm :: .poison :: .rcLines :: .rcMiss ::
    .rcWb :: .sf :: .sfAge :: .haIn :: .haTx :: .homeOut :: .rcLossT :: .seals :: .hbmPc :: .stack :: .rtq :: .ni ::
    .bearings :: .crossIn :: .qps :: .cfgWait :: .cfgLoad :: .cfg :: .hold :: [])
def fieldsDieClockLost : FSet :=
  ⟨(.BOOT_STAT_CFG :: .BOOT_STAT_CFG_STATUS :: .ENG_STATUS_STATE :: .HA_BACKINV_CNT_COUNT :: .HA_POISON_CNT_COUNT ::
    .HA_STAT_SF_LEVEL :: .HBM_STAT_STATE :: .HELM_IC_PEND_BITS :: .HIF_QP_DONE_CNT_COUNT :: .HIF_QP_STAT_STATE ::
    .HUB_DIE_STATE_LOST :: .HUB_DIE_STATE_STATE :: .NOC_NI_ALT_CNT_COUNT :: .NOC_NI_BOUNCE_CNT_COUNT :: .NOC_NI_ERR_CODE
    :: .NOC_NI_ERR_DEST :: .NOC_NI_ERR_VALID :: .NOC_NI_FAIL_CNT_COUNT :: .RC_SNP_CNT_COUNT :: .RC_STAT_RETAINED ::
    .RC_WB_CNT_COUNT :: .RST_DIE_STAT_CAUSE :: .SEAL_STAT_KIND :: .SEAL_STAT_PERMIT_WAIT :: .SEAL_STAT_QUEUE ::
    .SEAL_STAT_RANGE :: .SEC_CTL_RESET :: .SEC_STATUS_ISOLATED :: .SEC_STATUS_PERMIT_WAIT :: .SEC_STATUS_RESET_HELD ::
    .SEC_STATUS_STATE :: []), [.sec], [], false⟩

/-- What `execDieClockRestored` may change. -/
def partsDieClockRestored : List Part :=
  (.regs :: .answer :: .draws :: .govs :: .sec :: .tree :: .fab :: .eng :: .hbm :: .poison :: .win :: .rcLines ::
    .rcMiss :: .rcWb :: .sf :: .sfAge :: .haIn :: .haTx :: .rcLossT :: .hbmPort :: .hbmPc :: .stack :: .arbs :: .rtq ::
    .ni :: .bearings :: .rtPend :: .drainT :: .gkLink :: .gkDir :: .gkPool :: .crossIn :: .lane :: .trunk :: .bundle ::
    .cfg :: .synth :: .fvs :: .dieRt :: .relq :: .scrub :: [])
def fieldsDieClockRestored : FSet :=
  ⟨[.GK_GRP_STAT_ROLE, .GK_STAT_COH, .GK_STAT_CROSS, .GK_STAT_NOC, .GK_STAT_NOC_DETOUR, .GK_STAT_STATE,
    .HA_BACKINV_CNT_COUNT, .HA_POISON_CNT_COUNT, .HA_STAT_SF_LEVEL, .HBM_STAT_STATE, .RC_SNP_CNT_COUNT,
    .RC_WB_CNT_COUNT, .RST_DIE_STAT_HELD, .RST_DIE_STAT_RESETS], [.die, .eng, .sec], [], false⟩

/-- What `execDieAutoRestart` may change. -/
def partsDieAutoRestart : List Part :=
  (.now :: .local_ :: .regs :: .answer :: .draws :: .stewards :: .govs :: .sec :: .tree :: .fab :: .eng :: .hbm ::
    .poison :: .win :: .rcLines :: .rcMiss :: .rcWb :: .sf :: .sfAge :: .haIn :: .haTx :: .rcLossT :: .hbmPort :: .hbmPc
    :: .stack :: .arbs :: .rtq :: .ni :: .bearings :: .rtPend :: .drainT :: .gkLink :: .gkDir :: .gkPool :: .crossIn ::
    .lane :: .trunk :: .bundle :: .cfg :: .spinePull :: .synth :: .fvs :: .dieRt :: .relq :: .scrub :: [])
def fieldsDieAutoRestart : FSet :=
  ⟨[.GK_GRP_STAT_ROLE, .GK_STAT_COH, .GK_STAT_CROSS, .GK_STAT_NOC, .GK_STAT_NOC_DETOUR, .GK_STAT_STATE,
    .HA_BACKINV_CNT_COUNT, .HA_STAT_SF_LEVEL, .HBM_STAT_STATE, .HELM_IC_PEND_BITS, .HUB_DIE_STATE_STATE,
    .PWR_DIE_STAT_PSTATE, .RC_SNP_CNT_COUNT, .RC_WB_CNT_COUNT, .RST_DIE_STAT_HELD, .RST_DIE_STAT_RESETS], [.die, .eng,
    .sec], [], false⟩

/-- What `execPwrEnterP1` may change. -/
def partsPwrEnterP1 : List Part :=
  [.regs, .stewards, .govs, .hbm, .poison, .rcLines, .rcWb, .sf, .seals, .hbmPc, .stack, .rtq, .ni, .bearings, .crossIn,
    .lane, .dieRt, .hold, .rstUnlock]
def fieldsPwrEnterP1 : FSet :=
  ⟨[.CL_BND_STAT_STATE, .HA_STAT_SF_LEVEL, .HBM_STAT_STATE, .NOC_NI_ALT_CNT_COUNT, .NOC_NI_BOUNCE_CNT_COUNT,
    .NOC_NI_ERR_CODE, .NOC_NI_ERR_DEST, .NOC_NI_ERR_VALID, .NOC_NI_FAIL_CNT_COUNT, .PWR_DIE_STAT_BUSY,
    .PWR_DIE_STAT_REFUSED, .RC_WB_CNT_COUNT, .SEAL_STAT_KIND, .SEAL_STAT_PERMIT_WAIT, .SEAL_STAT_QUEUE,
    .SEAL_STAT_RANGE, .TR_STAT_STATE], [], [], false⟩

/-- What `execPwrEnterP2` may change. -/
def partsPwrEnterP2 : List Part :=
  [.regs, .stewards, .govs, .hbm, .poison, .rcLines, .rcWb, .sf, .seals, .hbmPc, .stack, .rtq, .ni, .bearings, .crossIn,
    .lane, .dieRt, .hold, .rstUnlock]
def fieldsPwrEnterP2 : FSet :=
  ⟨[.CL_BND_STAT_STATE, .HA_STAT_SF_LEVEL, .HBM_STAT_STATE, .NOC_NI_ALT_CNT_COUNT, .NOC_NI_BOUNCE_CNT_COUNT,
    .NOC_NI_ERR_CODE, .NOC_NI_ERR_DEST, .NOC_NI_ERR_VALID, .NOC_NI_FAIL_CNT_COUNT, .PWR_DIE_STAT_BUSY,
    .PWR_DIE_STAT_REFUSED, .RC_WB_CNT_COUNT, .SEAL_STAT_KIND, .SEAL_STAT_PERMIT_WAIT, .SEAL_STAT_QUEUE,
    .SEAL_STAT_RANGE, .TR_STAT_STATE], [], [], false⟩

/-- What `execPwrEnterP3` may change. -/
def partsPwrEnterP3 : List Part :=
  [.regs, .stewards, .govs, .hbm, .poison, .rcLines, .rcWb, .sf, .seals, .hbmPc, .stack, .rtq, .ni, .bearings, .crossIn,
    .lane, .dieRt, .hold, .rstUnlock]
def fieldsPwrEnterP3 : FSet :=
  ⟨[.CL_BND_STAT_STATE, .HA_STAT_SF_LEVEL, .HBM_STAT_STATE, .NOC_NI_ALT_CNT_COUNT, .NOC_NI_BOUNCE_CNT_COUNT,
    .NOC_NI_ERR_CODE, .NOC_NI_ERR_DEST, .NOC_NI_ERR_VALID, .NOC_NI_FAIL_CNT_COUNT, .PWR_DIE_STAT_BUSY,
    .PWR_DIE_STAT_REFUSED, .RC_WB_CNT_COUNT, .SEAL_STAT_KIND, .SEAL_STAT_PERMIT_WAIT, .SEAL_STAT_QUEUE,
    .SEAL_STAT_RANGE, .TR_STAT_STATE], [], [], false⟩

/-- What `execPwrReturnP0` may change. -/
def partsPwrReturnP0 : List Part := [.regs, .stewards, .govs, .dieRt, .relq, .rstUnlock]
def fieldsPwrReturnP0 : FSet :=
  ⟨[.HELM_IC_PEND_BITS, .HUB_DIE_STATE_KIND, .HUB_DIE_STATE_POS, .HUB_DIE_STATE_PRESENT, .HUB_DIE_STATE_STATE,
    .PG_ERR_OP, .PG_ERR_OVERSIZE, .PG_ERR_UNITS, .PG_ERR_VALID, .PG_TO_CNT_COUNT, .PWR_DIE_STAT_BUSY,
    .PWR_DIE_STAT_DOMAINS, .PWR_DIE_STAT_REFUSED, .RST_DIE_STAT_START_ERR], [], [], false⟩

/-- What `execPwrTransitionDone` may change. -/
def partsPwrTransitionDone : List Part :=
  (.regs :: .answer :: .draws :: .stewards :: .govs :: .sec :: .tree :: .fab :: .eng :: .hbm :: .poison :: .win ::
    .rcLines :: .rcMiss :: .rcWb :: .sf :: .sfAge :: .haIn :: .haTx :: .rcLossT :: .hbmPort :: .hbmPc :: .stack :: .arbs
    :: .rtq :: .ni :: .bearings :: .rtPend :: .drainT :: .gkLink :: .gkDir :: .gkPool :: .crossIn :: .lane :: .trunk ::
    .bundle :: .cfg :: .synth :: .fvs :: .dieRt :: .scrub :: [])
def fieldsPwrTransitionDone : FSet :=
  ⟨(.CL_BND_STAT_GRID :: .CL_BND_STAT_PLL_LOCK :: .CL_BND_STAT_STATE :: .GK_GRP_STAT_ROLE :: .GK_STAT_COH ::
    .GK_STAT_CROSS :: .GK_STAT_NOC :: .GK_STAT_NOC_DETOUR :: .GK_STAT_STATE :: .HA_BACKINV_CNT_COUNT ::
    .HA_STAT_SF_LEVEL :: .HBM_STAT_CONTENT :: .HBM_STAT_STATE :: .HELM_IC_PEND_BITS :: .HUB_DIE_STATE_STATE ::
    .PG_ERR_OP :: .PG_ERR_OVERSIZE :: .PG_ERR_UNITS :: .PG_ERR_VALID :: .PG_TO_CNT_COUNT :: .PWR_DIE_STAT_BUSY ::
    .PWR_DIE_STAT_DOMAINS :: .PWR_DIE_STAT_PSTATE :: .RC_SNP_CNT_COUNT :: .RC_WB_CNT_COUNT :: .SEC_CTL_RESET ::
    .SEC_STATUS_ISOLATED :: .SEC_STATUS_PERMIT_WAIT :: .SEC_STATUS_RESET_HELD :: .SEC_STATUS_STATE :: .TR_STAT_CHK_LOCK
    :: .TR_STAT_STATE :: []), [.die, .eng, .sec], [], false⟩

/-- What `execPermitRequest` may change. -/
def partsPermitRequest : List Part := [.regs, .stewards, .govs, .stack, .qps, .cfgWait, .cfgLoad, .fvs, .dieRt]
def fieldsPermitRequest : FSet :=
  ⟨[.BOOT_STAT_CFG, .BOOT_STAT_CFG_STATUS, .CFG_ERR_CODE, .CFG_ERR_FAR_FAR, .CFG_ERR_SECTOR, .CFG_ERR_VALID,
    .FSYN_CTL_PERMIT_WAIT, .FVS_STAT_BUSY, .FVS_STAT_FAIL, .HELM_CORE_STAT_PERMIT_TO, .HELM_CORE_STAT_STATE,
    .HIF_QP_DONE_CNT_COUNT, .HIF_QP_STAT_STATE, .PG_ERR_OP, .PG_ERR_OVERSIZE, .PG_ERR_UNITS, .PG_ERR_VALID,
    .PG_TO_CNT_COUNT, .PWR_DIE_STAT_REFUSED, .SEC_CTL_RESET, .SEC_STATUS_PERMIT_WAIT], [], [], false⟩

/-- What `execPermitGrant` may change. -/
def partsPermitGrant : List Part := [.now, .local_, .regs, .stewards, .govs, .pcie, .spinePull, .dieRt]
def fieldsPermitGrant : FSet :=
  ⟨[.PG_ERR_OP, .PG_ERR_OVERSIZE, .PG_ERR_UNITS, .PG_ERR_VALID, .PG_GRANT_CNT_COUNT, .PG_TO_CNT_COUNT,
    .PWR_DIE_STAT_BUSY], [], [], false⟩

/-- What `execPermitReturn` may change. -/
def partsPermitReturn : List Part := [.govs]
def fieldsPermitReturn : FSet := ⟨[], [], [], false⟩

/-- What `execStepPermitReturn` may change. -/
def partsStepPermitReturn : List Part := [.now, .local_, .govs, .spinePull]
def fieldsStepPermitReturn : FSet := ⟨[], [], [], false⟩

/-- What `execPermitTimeout` may change. -/
def partsPermitTimeout : List Part :=
  [.now, .local_, .regs, .stewards, .govs, .stack, .qps, .cfgWait, .cfgLoad, .spinePull, .fvs, .dieRt]
def fieldsPermitTimeout : FSet :=
  ⟨[.BOOT_STAT_CFG, .BOOT_STAT_CFG_STATUS, .CFG_ERR_CODE, .CFG_ERR_FAR_FAR, .CFG_ERR_SECTOR, .CFG_ERR_VALID,
    .FSYN_CTL_PERMIT_WAIT, .FVS_STAT_BUSY, .FVS_STAT_FAIL, .HELM_CORE_STAT_PERMIT_TO, .HELM_CORE_STAT_STATE,
    .HIF_QP_DONE_CNT_COUNT, .HIF_QP_STAT_STATE, .PG_ERR_OP, .PG_ERR_OVERSIZE, .PG_ERR_UNITS, .PG_ERR_VALID,
    .PG_TO_CNT_COUNT, .PWR_DIE_STAT_REFUSED, .SEC_CTL_RESET, .SEC_STATUS_PERMIT_WAIT], [], [], false⟩

/-- What `execPowerOnReset` may change. -/
def partsPowerOnReset : List Part :=
  (.now :: .local_ :: .clocksUp :: .regs :: .answer :: .out :: .draws :: .stewards :: .evlog :: .jtodo :: .journal ::
    .health :: .repairs :: .govs :: .sec :: .tree :: .fab :: .eng :: .fixq :: .bcasts :: .hbm :: .poison :: .win ::
    .flash :: .rcLines :: .rcMiss :: .rcWb :: .sf :: .sfAge :: .haIn :: .haTx :: .homeOut :: .rcLossT :: .seals ::
    .leafMaj :: .leafMin :: .innerC :: .ccache :: .hwm :: .lostN :: .reenc :: .ccT :: .keys :: .keyOp :: .sessions ::
    .lastSes :: .hbmPort :: .hbmPc :: .stack :: .arbs :: .rtq :: .ni :: .bearings :: .rtPend :: .drainT :: .gkLink ::
    .gkDir :: .gkPool :: .crossIn :: .lane :: .trunk :: .bundle :: .hubDown :: .rebaseDue :: .qps :: .rot :: .vecs ::
    .mail :: .pcie :: .cfgWait :: .cfgLoad :: .loadN :: .cfg :: .cfgMeas :: .fwMeas :: .sxq :: .txq :: .residences ::
    .stepN :: .rxStamp :: .sxDiscard :: .sxMeas :: .ppsEnd :: .spinePull :: .anchorE :: .anchorT :: .synth :: .fvs ::
    .dieRt :: .hold :: .relq :: .rstq :: .flashMode :: .stage2T :: .auto :: .noAuto :: .warm :: .warmT :: .rstUnlock ::
    .tele :: .ioOff :: .lsFuse :: .transport :: .trngT :: .trngSaid :: .dbgWait :: .rcvN :: .flashOp :: .helm :: .helmL1
    :: .helmL2 :: .flashC :: .irqLine :: .pel :: .tap :: .scrub :: [])
def fieldsPowerOnReset : FSet := .all

/-- What `execPackageReset` may change. -/
def partsPackageReset : List Part :=
  (.now :: .local_ :: .clocksUp :: .regs :: .answer :: .out :: .draws :: .stewards :: .evlog :: .jtodo :: .journal ::
    .health :: .repairs :: .govs :: .sec :: .tree :: .fab :: .eng :: .fixq :: .bcasts :: .hbm :: .poison :: .win ::
    .flash :: .rcLines :: .rcMiss :: .rcWb :: .sf :: .sfAge :: .haIn :: .haTx :: .homeOut :: .rcLossT :: .seals ::
    .leafMaj :: .leafMin :: .innerC :: .ccache :: .hwm :: .lostN :: .reenc :: .ccT :: .keys :: .keyOp :: .sessions ::
    .lastSes :: .hbmPort :: .hbmPc :: .stack :: .arbs :: .rtq :: .ni :: .bearings :: .rtPend :: .drainT :: .gkLink ::
    .gkDir :: .gkPool :: .crossIn :: .lane :: .trunk :: .bundle :: .hubDown :: .rebaseDue :: .qps :: .rot :: .vecs ::
    .mail :: .pcie :: .cfgWait :: .cfgLoad :: .loadN :: .cfg :: .cfgMeas :: .fwMeas :: .sxq :: .txq :: .residences ::
    .stepN :: .rxStamp :: .sxDiscard :: .sxMeas :: .ppsEnd :: .spinePull :: .anchorE :: .anchorT :: .synth :: .fvs ::
    .dieRt :: .hold :: .relq :: .rstq :: .flashMode :: .stage2T :: .auto :: .noAuto :: .warm :: .warmT :: .rstUnlock ::
    .tele :: .ioOff :: .lsFuse :: .transport :: .trngT :: .trngSaid :: .dbgWait :: .rcvN :: .flashOp :: .helm :: .helmL1
    :: .helmL2 :: .flashC :: .irqLine :: .pel :: .tap :: .scrub :: [])
def fieldsPackageReset : FSet := .all

/-- What `execResetRelease` may change. -/
def partsResetRelease : List Part := [.now, .local_, .regs, .out, .spinePull, .hold]
def fieldsResetRelease : FSet := ⟨[.CLK_SRC_REF_SEL], [], [], false⟩

/-- What `execRstUnlock` may change. -/
def partsRstUnlock : List Part := [.stewards, .rstUnlock]
def fieldsRstUnlock : FSet := ⟨[], [], [], false⟩

/-- What `execHubWarmReset` may change. -/
def partsHubWarmReset : List Part :=
  (.now :: .local_ :: .clocksUp :: .regs :: .answer :: .out :: .draws :: .stewards :: .evlog :: .jtodo :: .journal ::
    .health :: .repairs :: .govs :: .sec :: .tree :: .fab :: .eng :: .fixq :: .bcasts :: .hbm :: .poison :: .win ::
    .flash :: .rcLines :: .rcMiss :: .rcWb :: .sf :: .sfAge :: .haIn :: .haTx :: .homeOut :: .rcLossT :: .seals ::
    .leafMaj :: .leafMin :: .innerC :: .ccache :: .hwm :: .lostN :: .reenc :: .ccT :: .keys :: .keyOp :: .sessions ::
    .lastSes :: .hbmPort :: .hbmPc :: .stack :: .arbs :: .rtq :: .ni :: .bearings :: .rtPend :: .drainT :: .gkLink ::
    .gkDir :: .gkPool :: .crossIn :: .lane :: .trunk :: .bundle :: .hubDown :: .rebaseDue :: .qps :: .rot :: .vecs ::
    .mail :: .pcie :: .cfgWait :: .cfgLoad :: .loadN :: .cfg :: .cfgMeas :: .fwMeas :: .sxq :: .txq :: .residences ::
    .stepN :: .rxStamp :: .sxDiscard :: .sxMeas :: .ppsEnd :: .spinePull :: .anchorE :: .anchorT :: .synth :: .fvs ::
    .dieRt :: .hold :: .relq :: .rstq :: .flashMode :: .stage2T :: .auto :: .noAuto :: .warm :: .warmT :: .rstUnlock ::
    .tele :: .ioOff :: .lsFuse :: .transport :: .trngT :: .trngSaid :: .dbgWait :: .rcvN :: .flashOp :: .helm :: .helmL1
    :: .helmL2 :: .flashC :: .irqLine :: .pel :: .tap :: .scrub :: [])
def fieldsHubWarmReset : FSet := .all

/-- What `execBootStageComplete` may change. -/
def partsBootStageComplete : List Part :=
  [.now, .local_, .clocksUp, .regs, .out, .stewards, .govs, .ni, .bearings, .gkLink, .rebaseDue, .pcie, .fwMeas,
    .spinePull, .anchorE, .anchorT, .synth, .dieRt, .relq, .flashMode, .stage2T, .auto, .noAuto, .warm, .helm]
def fieldsBootStageComplete : FSet :=
  ⟨(.BOOT_CFG_NEXT_SLOT :: .BOOT_CFG_NO_AUTOLOAD :: .BOOT_STAT_DIR_COPY :: .BOOT_STAT_FALLBACK :: .BOOT_STAT_SLOT ::
    .BOOT_STAT_STAGE :: .CLK_MON_FAIL_EV :: .CLK_MON_REF_OK :: .CLK_SRC_ACTIVE :: .CLK_SRC_DEAD_RECK :: .CLK_SRC_GLIDING
    :: .HELM_CORE_STAT_PERMIT_TO :: .HELM_CORE_STAT_STATE :: .HELM_IC_PEND_BITS :: .HUB_DIE_STATE_KIND ::
    .HUB_DIE_STATE_POS :: .HUB_DIE_STATE_PRESENT :: .HUB_DIE_STATE_STATE :: .LS_ERR_CODE :: .LS_ERR_SOURCE ::
    .LS_ERR_VALID :: .LS_STAT_READY :: .LS_STAT_TRNG_OK :: .LS_SVN_SVN :: .LS_VER_CNT_COUNT :: .NOC_NI_CTL_EN ::
    .NOC_RTR_PORT_EN :: .PG_ERR_OP :: .PG_ERR_OVERSIZE :: .PG_ERR_UNITS :: .PG_ERR_VALID :: .PG_TO_CNT_COUNT ::
    .PWR_DIE_STAT_DOMAINS :: .PWR_HUB_STAT_DOMAINS :: .RST_DIE_STAT_START_ERR :: .SX_STAT_DEAD_RECK :: .TEL_HOURS_HOURS
    :: .TEL_LIFE_PPM :: []), [], [], false⟩

/-- What `execDieRailAbsent` may change. -/
def partsDieRailAbsent : List Part := [.regs, .stewards]
def fieldsDieRailAbsent : FSet :=
  ⟨[.HELM_IC_PEND_BITS, .HUB_DIE_STATE_PRESENT, .HUB_DIE_STATE_STATE, .RST_DIE_STAT_START_ERR], [], [], false⟩

/-- What `execDieRelease` may change. -/
def partsDieRelease : List Part :=
  (.now :: .local_ :: .regs :: .answer :: .out :: .draws :: .stewards :: .govs :: .sec :: .tree :: .fab :: .eng :: .hbm
    :: .poison :: .win :: .rcLines :: .rcMiss :: .rcWb :: .sf :: .sfAge :: .haIn :: .haTx :: .rcLossT :: .seals ::
    .hbmPort :: .hbmPc :: .stack :: .arbs :: .rtq :: .ni :: .bearings :: .rtPend :: .drainT :: .gkLink :: .gkDir ::
    .gkPool :: .crossIn :: .lane :: .trunk :: .bundle :: .qps :: .cfgWait :: .cfgLoad :: .cfg :: .spinePull :: .synth ::
    .fvs :: .dieRt :: .hold :: .relq :: .rstq :: .transport :: .scrub :: [])
def fieldsDieRelease : FSet :=
  ⟨(.BOOT_STAT_CFG :: .BOOT_STAT_CFG_STATUS :: .ENG_STATUS_STATE :: .GK_GRP_STAT_ROLE :: .GK_STAT_COH :: .GK_STAT_CROSS
    :: .GK_STAT_NOC :: .GK_STAT_NOC_DETOUR :: .GK_STAT_STATE :: .HA_BACKINV_CNT_COUNT :: .HA_STAT_SF_LEVEL ::
    .HBM_STAT_STATE :: .HELM_IC_PEND_BITS :: .HIF_QP_DONE_CNT_COUNT :: .HIF_QP_STAT_STATE :: .HUB_DIE_STATE_STATE ::
    .NOC_NI_ALT_CNT_COUNT :: .NOC_NI_BOUNCE_CNT_COUNT :: .NOC_NI_ERR_CODE :: .NOC_NI_ERR_DEST :: .NOC_NI_ERR_VALID ::
    .NOC_NI_FAIL_CNT_COUNT :: .PG_ERR_OP :: .PG_ERR_OVERSIZE :: .PG_ERR_UNITS :: .PG_ERR_VALID :: .PG_TO_CNT_COUNT ::
    .PWR_DIE_STAT_BUSY :: .PWR_DIE_STAT_DOMAINS :: .PWR_DIE_STAT_PSTATE :: .RC_SNP_CNT_COUNT :: .RC_WB_CNT_COUNT ::
    .RST_DIE_STAT_CAUSE :: .RST_DIE_STAT_HELD :: .RST_DIE_STAT_REFUSED :: .RST_DIE_STAT_RESETS :: .SEAL_STAT_KIND ::
    .SEAL_STAT_PERMIT_WAIT :: .SEAL_STAT_QUEUE :: .SEAL_STAT_RANGE :: .SEC_COLMAP_ACTIVE :: .SEC_COLMAP_DEFECTS ::
    .SEC_COLMAP_FIELD :: .SEC_CTL_RESET :: .SEC_STATUS_ISOLATED :: .SEC_STATUS_PERMIT_WAIT :: .SEC_STATUS_RESET_HELD ::
    .SEC_STATUS_STATE :: .TEL_HOURS_HOURS :: .TEL_LIFE_PPM :: []), [.die, .eng, .sec], [], false⟩

/-- What `execSelfTestDone` may change. -/
def partsSelfTestDone : List Part :=
  [.now, .local_, .regs, .stewards, .health, .repairs, .govs, .sec, .fab, .spinePull, .dieRt]
def fieldsSelfTestDone : FSet :=
  ⟨[.HARD_MAP_MEM_SPARE_LOW, .HARD_MAP_RKN0, .HARD_MAP_RKN1, .HARD_MAP_RKN2, .MGMT_HEALTH_STAGE, .MGMT_HEALTH_ZERO,
    .SEC_COLMAP_ACTIVE, .SEC_COLMAP_DEFECTS, .SEC_COLMAP_FIELD, .SEC_CTL_RESET, .SEC_STATUS_ISOLATED,
    .SEC_STATUS_PENDING_REMAP, .SEC_STATUS_PERMIT_WAIT, .SEC_STATUS_RESET_HELD, .SEC_STATUS_STATE], [.sec], [], false⟩

/-- What `execDieReleaseDone` may change. -/
def partsDieReleaseDone : List Part :=
  (.now :: .local_ :: .regs :: .answer :: .draws :: .stewards :: .health :: .govs :: .sec :: .tree :: .fab :: .eng ::
    .hbm :: .poison :: .win :: .rcLines :: .rcMiss :: .rcWb :: .sf :: .sfAge :: .haIn :: .haTx :: .rcLossT :: .seals ::
    .hbmPort :: .hbmPc :: .stack :: .arbs :: .rtq :: .ni :: .bearings :: .rtPend :: .drainT :: .gkLink :: .gkDir ::
    .gkPool :: .crossIn :: .lane :: .trunk :: .bundle :: .qps :: .cfgWait :: .cfgLoad :: .cfg :: .spinePull :: .synth ::
    .fvs :: .dieRt :: .hold :: .relq :: .rstq :: .scrub :: [])
def fieldsDieReleaseDone : FSet :=
  ⟨(.BOOT_STAT_CFG :: .BOOT_STAT_CFG_STATUS :: .ENG_STATUS_STATE :: .GK_GRP_STAT_ROLE :: .GK_STAT_COH :: .GK_STAT_CROSS
    :: .GK_STAT_NOC :: .GK_STAT_NOC_DETOUR :: .GK_STAT_STATE :: .HA_BACKINV_CNT_COUNT :: .HA_STAT_SF_LEVEL ::
    .HBM_STAT_STATE :: .HELM_IC_PEND_BITS :: .HIF_QP_DONE_CNT_COUNT :: .HIF_QP_STAT_STATE :: .HUB_DIE_STATE_STATE ::
    .MGMT_HEALTH_STAGE :: .NOC_NI_ALT_CNT_COUNT :: .NOC_NI_BOUNCE_CNT_COUNT :: .NOC_NI_CTL_EN :: .NOC_NI_ERR_CODE ::
    .NOC_NI_ERR_DEST :: .NOC_NI_ERR_VALID :: .NOC_NI_FAIL_CNT_COUNT :: .NOC_RTR_PORT_EN :: .PG_ERR_OP ::
    .PG_ERR_OVERSIZE :: .PG_ERR_UNITS :: .PG_ERR_VALID :: .PG_TO_CNT_COUNT :: .PWR_DIE_STAT_BUSY :: .RC_CTL_EN ::
    .RC_SNP_CNT_COUNT :: .RC_STAT_STATE :: .RC_WB_CNT_COUNT :: .RST_DIE_STAT_CAUSE :: .RST_DIE_STAT_HELD ::
    .RST_DIE_STAT_REFUSED :: .RST_DIE_STAT_RESETS :: .RST_DIE_STAT_START_ERR :: .SEAL_STAT_KIND ::
    .SEAL_STAT_PERMIT_WAIT :: .SEAL_STAT_QUEUE :: .SEAL_STAT_RANGE :: .SEC_CTL_RESET :: .SEC_STATUS_ISOLATED ::
    .SEC_STATUS_PERMIT_WAIT :: .SEC_STATUS_RESET_HELD :: .SEC_STATUS_STATE :: []), [.die, .eng, .sec], [], false⟩

/-- What `execDieStartFail` may change. -/
def partsDieStartFail : List Part :=
  (.now :: .local_ :: .regs :: .answer :: .draws :: .stewards :: .health :: .govs :: .sec :: .tree :: .fab :: .eng ::
    .hbm :: .poison :: .win :: .rcLines :: .rcMiss :: .rcWb :: .sf :: .sfAge :: .haIn :: .haTx :: .rcLossT :: .seals ::
    .hbmPort :: .hbmPc :: .stack :: .arbs :: .rtq :: .ni :: .bearings :: .rtPend :: .drainT :: .gkLink :: .gkDir ::
    .gkPool :: .crossIn :: .lane :: .trunk :: .bundle :: .qps :: .cfgWait :: .cfgLoad :: .cfg :: .spinePull :: .synth ::
    .fvs :: .dieRt :: .hold :: .relq :: .rstq :: .scrub :: [])
def fieldsDieStartFail : FSet :=
  ⟨(.BOOT_STAT_CFG :: .BOOT_STAT_CFG_STATUS :: .ENG_STATUS_STATE :: .GK_GRP_STAT_ROLE :: .GK_STAT_COH :: .GK_STAT_CROSS
    :: .GK_STAT_NOC :: .GK_STAT_NOC_DETOUR :: .GK_STAT_STATE :: .HA_BACKINV_CNT_COUNT :: .HA_STAT_SF_LEVEL ::
    .HBM_STAT_STATE :: .HELM_IC_PEND_BITS :: .HIF_QP_DONE_CNT_COUNT :: .HIF_QP_STAT_STATE :: .HUB_DIE_STATE_LOST ::
    .HUB_DIE_STATE_PRESENT :: .HUB_DIE_STATE_STATE :: .MGMT_HEALTH_STAGE :: .NOC_NI_ALT_CNT_COUNT ::
    .NOC_NI_BOUNCE_CNT_COUNT :: .NOC_NI_ERR_CODE :: .NOC_NI_ERR_DEST :: .NOC_NI_ERR_VALID :: .NOC_NI_FAIL_CNT_COUNT ::
    .PWR_DIE_STAT_BUSY :: .RC_SNP_CNT_COUNT :: .RC_WB_CNT_COUNT :: .RST_DIE_STAT_CAUSE :: .RST_DIE_STAT_HELD ::
    .RST_DIE_STAT_REFUSED :: .RST_DIE_STAT_RESETS :: .RST_DIE_STAT_START_ERR :: .SEAL_STAT_KIND ::
    .SEAL_STAT_PERMIT_WAIT :: .SEAL_STAT_QUEUE :: .SEAL_STAT_RANGE :: .SEC_CTL_RESET :: .SEC_STATUS_ISOLATED ::
    .SEC_STATUS_PERMIT_WAIT :: .SEC_STATUS_RESET_HELD :: .SEC_STATUS_STATE :: []), [.die, .eng, .sec], [], false⟩

/-- What `execCfgAutoload` may change. -/
def partsCfgAutoload : List Part :=
  [.regs, .stewards, .health, .govs, .sec, .fab, .qps, .cfgWait, .cfgLoad, .cfg, .auto]
def fieldsCfgAutoload : FSet :=
  ⟨[.BOOT_STAT_CFG, .BOOT_STAT_CFG_STATUS, .CFG_ERR_CODE, .CFG_ERR_FAR_FAR, .CFG_ERR_SECTOR, .CFG_ERR_VALID,
    .CFG_STATUS_FRAMES, .HIF_QP_DONE_CNT_COUNT, .HIF_QP_STAT_STATE, .LS_ERR_CODE, .LS_ERR_SOURCE, .LS_ERR_VALID,
    .LS_VER_CNT_COUNT, .MGMT_HEALTH_STAGE, .MGMT_HEALTH_ZERO, .PG_ERR_OP, .PG_ERR_OVERSIZE, .PG_ERR_UNITS,
    .PG_ERR_VALID, .PG_TO_CNT_COUNT, .SEC_COLMAP_ACTIVE, .SEC_CTL_RESET, .SEC_STATUS_ISOLATED,
    .SEC_STATUS_PENDING_REMAP, .SEC_STATUS_PERMIT_WAIT, .SEC_STATUS_RESET_HELD, .SEC_STATUS_STATE], [.sec], [], false⟩

/-- What `execRailFault` may change. -/
def partsRailFault : List Part :=
  (.now :: .local_ :: .clocksUp :: .regs :: .answer :: .out :: .draws :: .stewards :: .evlog :: .jtodo :: .journal ::
    .health :: .repairs :: .govs :: .sec :: .tree :: .fab :: .eng :: .fixq :: .bcasts :: .hbm :: .poison :: .win ::
    .flash :: .rcLines :: .rcMiss :: .rcWb :: .sf :: .sfAge :: .haIn :: .haTx :: .homeOut :: .rcLossT :: .seals ::
    .leafMaj :: .leafMin :: .innerC :: .ccache :: .hwm :: .lostN :: .reenc :: .ccT :: .keys :: .keyOp :: .sessions ::
    .lastSes :: .hbmPort :: .hbmPc :: .stack :: .arbs :: .rtq :: .ni :: .bearings :: .rtPend :: .drainT :: .gkLink ::
    .gkDir :: .gkPool :: .crossIn :: .lane :: .trunk :: .bundle :: .hubDown :: .rebaseDue :: .qps :: .rot :: .vecs ::
    .mail :: .pcie :: .cfgWait :: .cfgLoad :: .loadN :: .cfg :: .cfgMeas :: .fwMeas :: .sxq :: .txq :: .residences ::
    .stepN :: .rxStamp :: .sxDiscard :: .sxMeas :: .ppsEnd :: .spinePull :: .anchorE :: .anchorT :: .synth :: .fvs ::
    .dieRt :: .hold :: .relq :: .rstq :: .flashMode :: .stage2T :: .auto :: .noAuto :: .warm :: .warmT :: .rstUnlock ::
    .tele :: .ioOff :: .lsFuse :: .transport :: .trngT :: .trngSaid :: .dbgWait :: .rcvN :: .flashOp :: .helm :: .helmL1
    :: .helmL2 :: .flashC :: .irqLine :: .pel :: .tap :: .scrub :: [])
def fieldsRailFault : FSet := .all

/-- What `execTelemetrySample` may change. -/
def partsTelemetrySample : List Part :=
  (.now :: .local_ :: .clocksUp :: .regs :: .answer :: .out :: .draws :: .stewards :: .evlog :: .jtodo :: .journal ::
    .health :: .repairs :: .govs :: .sec :: .tree :: .fab :: .eng :: .fixq :: .bcasts :: .hbm :: .poison :: .win ::
    .flash :: .rcLines :: .rcMiss :: .rcWb :: .sf :: .sfAge :: .haIn :: .haTx :: .homeOut :: .rcLossT :: .seals ::
    .leafMaj :: .leafMin :: .innerC :: .ccache :: .hwm :: .lostN :: .reenc :: .ccT :: .keys :: .keyOp :: .sessions ::
    .lastSes :: .hbmPort :: .hbmPc :: .stack :: .arbs :: .rtq :: .ni :: .bearings :: .rtPend :: .drainT :: .gkLink ::
    .gkDir :: .gkPool :: .crossIn :: .lane :: .trunk :: .bundle :: .hubDown :: .rebaseDue :: .qps :: .rot :: .vecs ::
    .mail :: .pcie :: .cfgWait :: .cfgLoad :: .loadN :: .cfg :: .cfgMeas :: .fwMeas :: .sxq :: .txq :: .residences ::
    .stepN :: .rxStamp :: .sxDiscard :: .sxMeas :: .ppsEnd :: .spinePull :: .anchorE :: .anchorT :: .synth :: .fvs ::
    .dieRt :: .hold :: .relq :: .rstq :: .flashMode :: .stage2T :: .auto :: .noAuto :: .warm :: .warmT :: .rstUnlock ::
    .tele :: .ioOff :: .lsFuse :: .transport :: .trngT :: .trngSaid :: .dbgWait :: .rcvN :: .flashOp :: .helm :: .helmL1
    :: .helmL2 :: .flashC :: .irqLine :: .pel :: .tap :: .scrub :: [])
def fieldsTelemetrySample : FSet := .all

/-- What `execThermtripRelease` may change. -/
def partsThermtripRelease : List Part := [.out, .hold]
def fieldsThermtripRelease : FSet := ⟨[], [], [], false⟩

/-- What `execLifeHoursUpdate` may change. -/
def partsLifeHoursUpdate : List Part := [.now, .local_, .regs, .stewards, .health, .spinePull, .tele]
def fieldsLifeHoursUpdate : FSet :=
  ⟨[.MGMT_HEALTH_STAGE, .MGMT_HEALTH_ZERO, .TEL_HOURS_HOURS, .TEL_LIFE_PPM], [], [], false⟩

/-- What `execAttest` may change. -/
def partsAttest : List Part :=
  [.regs, .out, .draws, .stewards, .eng, .hbm, .poison, .win, .rcLines, .rcWb, .sf, .sfAge, .haIn, .homeOut, .leafMaj,
    .leafMin, .ccache, .hwm, .qps, .mail, .cfgWait, .helm]
def fieldsAttest : FSet :=
  ⟨(.HA_BACKINV_CNT_COUNT :: .HA_STAT_RECALL :: .HA_STAT_SF_LEVEL :: .HBM_ERR_ADDR_HI_ADDR :: .HBM_ERR_ADDR_LO_ADDR ::
    .HBM_ERR_CH :: .HBM_ERR_CODE :: .HBM_ERR_PC :: .HBM_ERR_SID :: .HBM_ERR_VALID :: .HIF_QP_DONE_CNT_COUNT ::
    .HIF_QP_STAT_STATE :: .LS_ERR_CODE :: .LS_ERR_SOURCE :: .LS_ERR_VALID :: .RC_HIT_CNT_COUNT :: .RC_MISS_CNT_COUNT ::
    .RC_SNP_CNT_COUNT :: .RC_STAT_RETAINED :: .RC_WB_CNT_COUNT :: .SEAL_CC_MISS_CNT_COUNT :: .SEAL_DENY_CNT_COUNT ::
    .SEAL_ERR_ADDR_HI_ADDR :: .SEAL_ERR_ADDR_LO_ADDR :: .SEAL_ERR_CODE :: .SEAL_ERR_LEVEL :: .SEAL_ERR_RANGE ::
    .SEAL_ERR_VALID :: .SEAL_OVF_CNT_COUNT :: .SEAL_RSTAT_FREEZE :: .SEAL_RSTAT_STATE :: []), [], [], false⟩

/-- What `execGetCerts` may change. -/
def partsGetCerts : List Part :=
  [.regs, .out, .draws, .stewards, .eng, .hbm, .poison, .win, .rcLines, .rcWb, .sf, .sfAge, .haIn, .homeOut, .leafMaj,
    .leafMin, .ccache, .hwm, .qps, .mail, .cfgWait, .helm]
def fieldsGetCerts : FSet :=
  ⟨(.HA_BACKINV_CNT_COUNT :: .HA_STAT_RECALL :: .HA_STAT_SF_LEVEL :: .HBM_ERR_ADDR_HI_ADDR :: .HBM_ERR_ADDR_LO_ADDR ::
    .HBM_ERR_CH :: .HBM_ERR_CODE :: .HBM_ERR_PC :: .HBM_ERR_SID :: .HBM_ERR_VALID :: .HIF_QP_DONE_CNT_COUNT ::
    .HIF_QP_STAT_STATE :: .LS_ERR_CODE :: .LS_ERR_SOURCE :: .LS_ERR_VALID :: .RC_HIT_CNT_COUNT :: .RC_MISS_CNT_COUNT ::
    .RC_SNP_CNT_COUNT :: .RC_STAT_RETAINED :: .RC_WB_CNT_COUNT :: .SEAL_CC_MISS_CNT_COUNT :: .SEAL_DENY_CNT_COUNT ::
    .SEAL_ERR_ADDR_HI_ADDR :: .SEAL_ERR_ADDR_LO_ADDR :: .SEAL_ERR_CODE :: .SEAL_ERR_LEVEL :: .SEAL_ERR_RANGE ::
    .SEAL_ERR_VALID :: .SEAL_OVF_CNT_COUNT :: .SEAL_RSTAT_FREEZE :: .SEAL_RSTAT_STATE :: []), [], [], false⟩

/-- What `execSessionOpen` may change. -/
def partsSessionOpen : List Part :=
  [.regs, .out, .draws, .stewards, .eng, .hbm, .poison, .win, .rcLines, .rcWb, .sf, .sfAge, .haIn, .homeOut, .leafMaj,
    .leafMin, .ccache, .hwm, .sessions, .lastSes, .qps, .mail, .cfgWait, .helm]
def fieldsSessionOpen : FSet :=
  ⟨(.HA_BACKINV_CNT_COUNT :: .HA_STAT_RECALL :: .HA_STAT_SF_LEVEL :: .HBM_ERR_ADDR_HI_ADDR :: .HBM_ERR_ADDR_LO_ADDR ::
    .HBM_ERR_CH :: .HBM_ERR_CODE :: .HBM_ERR_PC :: .HBM_ERR_SID :: .HBM_ERR_VALID :: .HIF_QP_DONE_CNT_COUNT ::
    .HIF_QP_STAT_STATE :: .LS_ERR_CODE :: .LS_ERR_SOURCE :: .LS_ERR_VALID :: .RC_HIT_CNT_COUNT :: .RC_MISS_CNT_COUNT ::
    .RC_SNP_CNT_COUNT :: .RC_STAT_RETAINED :: .RC_WB_CNT_COUNT :: .SEAL_CC_MISS_CNT_COUNT :: .SEAL_DENY_CNT_COUNT ::
    .SEAL_ERR_ADDR_HI_ADDR :: .SEAL_ERR_ADDR_LO_ADDR :: .SEAL_ERR_CODE :: .SEAL_ERR_LEVEL :: .SEAL_ERR_RANGE ::
    .SEAL_ERR_VALID :: .SEAL_OVF_CNT_COUNT :: .SEAL_RSTAT_FREEZE :: .SEAL_RSTAT_STATE :: []), [], [], false⟩

/-- What `execKeyDeposit` may change. -/
def partsKeyDeposit : List Part :=
  [.regs, .out, .draws, .stewards, .eng, .hbm, .poison, .win, .rcLines, .rcWb, .sf, .sfAge, .haIn, .homeOut, .leafMaj,
    .leafMin, .ccache, .hwm, .sessions, .qps, .mail, .cfgWait, .helm]
def fieldsKeyDeposit : FSet :=
  ⟨(.HA_BACKINV_CNT_COUNT :: .HA_STAT_RECALL :: .HA_STAT_SF_LEVEL :: .HBM_ERR_ADDR_HI_ADDR :: .HBM_ERR_ADDR_LO_ADDR ::
    .HBM_ERR_CH :: .HBM_ERR_CODE :: .HBM_ERR_PC :: .HBM_ERR_SID :: .HBM_ERR_VALID :: .HIF_QP_DONE_CNT_COUNT ::
    .HIF_QP_STAT_STATE :: .LS_ERR_CODE :: .LS_ERR_SOURCE :: .LS_ERR_VALID :: .RC_HIT_CNT_COUNT :: .RC_MISS_CNT_COUNT ::
    .RC_SNP_CNT_COUNT :: .RC_STAT_RETAINED :: .RC_WB_CNT_COUNT :: .SEAL_CC_MISS_CNT_COUNT :: .SEAL_DENY_CNT_COUNT ::
    .SEAL_ERR_ADDR_HI_ADDR :: .SEAL_ERR_ADDR_LO_ADDR :: .SEAL_ERR_CODE :: .SEAL_ERR_LEVEL :: .SEAL_ERR_RANGE ::
    .SEAL_ERR_VALID :: .SEAL_OVF_CNT_COUNT :: .SEAL_RSTAT_FREEZE :: .SEAL_RSTAT_STATE :: []), [], [], false⟩

/-- What `execSessionClose` may change. -/
def partsSessionClose : List Part :=
  [.regs, .out, .draws, .stewards, .eng, .hbm, .poison, .win, .rcLines, .rcWb, .sf, .sfAge, .haIn, .homeOut, .leafMaj,
    .leafMin, .ccache, .hwm, .sessions, .qps, .mail, .cfgWait, .helm]
def fieldsSessionClose : FSet :=
  ⟨(.HA_BACKINV_CNT_COUNT :: .HA_STAT_RECALL :: .HA_STAT_SF_LEVEL :: .HBM_ERR_ADDR_HI_ADDR :: .HBM_ERR_ADDR_LO_ADDR ::
    .HBM_ERR_CH :: .HBM_ERR_CODE :: .HBM_ERR_PC :: .HBM_ERR_SID :: .HBM_ERR_VALID :: .HIF_QP_DONE_CNT_COUNT ::
    .HIF_QP_STAT_STATE :: .LS_ERR_CODE :: .LS_ERR_SOURCE :: .LS_ERR_VALID :: .RC_HIT_CNT_COUNT :: .RC_MISS_CNT_COUNT ::
    .RC_SNP_CNT_COUNT :: .RC_STAT_RETAINED :: .RC_WB_CNT_COUNT :: .SEAL_CC_MISS_CNT_COUNT :: .SEAL_DENY_CNT_COUNT ::
    .SEAL_ERR_ADDR_HI_ADDR :: .SEAL_ERR_ADDR_LO_ADDR :: .SEAL_ERR_CODE :: .SEAL_ERR_LEVEL :: .SEAL_ERR_RANGE ::
    .SEAL_ERR_VALID :: .SEAL_OVF_CNT_COUNT :: .SEAL_RSTAT_FREEZE :: .SEAL_RSTAT_STATE :: []), [], [], false⟩

/-- What `execSessionIdleTimeout` may change. -/
def partsSessionIdleTimeout : List Part := [.now, .local_, .sessions, .spinePull]
def fieldsSessionIdleTimeout : FSet := ⟨[], [], [], false⟩

/-- What `execCounterCommit` may change. -/
def partsCounterCommit : List Part :=
  (.now :: .local_ :: .clocksUp :: .regs :: .answer :: .out :: .draws :: .stewards :: .evlog :: .jtodo :: .journal ::
    .health :: .repairs :: .govs :: .sec :: .tree :: .fab :: .eng :: .fixq :: .bcasts :: .hbm :: .poison :: .win ::
    .flash :: .rcLines :: .rcMiss :: .rcWb :: .sf :: .sfAge :: .haIn :: .haTx :: .homeOut :: .rcLossT :: .seals ::
    .leafMaj :: .leafMin :: .innerC :: .ccache :: .hwm :: .lostN :: .reenc :: .ccT :: .keys :: .keyOp :: .sessions ::
    .lastSes :: .hbmPort :: .hbmPc :: .stack :: .arbs :: .rtq :: .ni :: .bearings :: .rtPend :: .drainT :: .gkLink ::
    .gkDir :: .gkPool :: .crossIn :: .lane :: .trunk :: .bundle :: .hubDown :: .rebaseDue :: .qps :: .rot :: .vecs ::
    .mail :: .pcie :: .cfgWait :: .cfgLoad :: .loadN :: .cfg :: .cfgMeas :: .fwMeas :: .sxq :: .txq :: .residences ::
    .stepN :: .rxStamp :: .sxDiscard :: .sxMeas :: .ppsEnd :: .spinePull :: .anchorE :: .anchorT :: .synth :: .fvs ::
    .dieRt :: .hold :: .relq :: .rstq :: .flashMode :: .stage2T :: .auto :: .noAuto :: .warm :: .warmT :: .rstUnlock ::
    .tele :: .ioOff :: .lsFuse :: .transport :: .trngT :: .trngSaid :: .dbgWait :: .rcvN :: .flashOp :: .helm :: .helmL1
    :: .helmL2 :: .flashC :: .irqLine :: .pel :: .tap :: .scrub :: [])
def fieldsCounterCommit : FSet := .all

/-- What `execTakeOwnership` may change. -/
def partsTakeOwnership : List Part :=
  (.now :: .local_ :: .clocksUp :: .regs :: .answer :: .out :: .draws :: .stewards :: .evlog :: .jtodo :: .journal ::
    .health :: .repairs :: .govs :: .sec :: .tree :: .fab :: .eng :: .fixq :: .bcasts :: .hbm :: .poison :: .win ::
    .flash :: .rcLines :: .rcMiss :: .rcWb :: .sf :: .sfAge :: .haIn :: .haTx :: .homeOut :: .rcLossT :: .seals ::
    .leafMaj :: .leafMin :: .innerC :: .ccache :: .hwm :: .lostN :: .reenc :: .ccT :: .keys :: .keyOp :: .sessions ::
    .lastSes :: .hbmPort :: .hbmPc :: .stack :: .arbs :: .rtq :: .ni :: .bearings :: .rtPend :: .drainT :: .gkLink ::
    .gkDir :: .gkPool :: .crossIn :: .lane :: .trunk :: .bundle :: .hubDown :: .rebaseDue :: .qps :: .rot :: .vecs ::
    .mail :: .pcie :: .cfgWait :: .cfgLoad :: .loadN :: .cfg :: .cfgMeas :: .fwMeas :: .sxq :: .txq :: .residences ::
    .stepN :: .rxStamp :: .sxDiscard :: .sxMeas :: .ppsEnd :: .spinePull :: .anchorE :: .anchorT :: .synth :: .fvs ::
    .dieRt :: .hold :: .relq :: .rstq :: .flashMode :: .stage2T :: .auto :: .noAuto :: .warm :: .warmT :: .rstUnlock ::
    .tele :: .ioOff :: .lsFuse :: .transport :: .trngT :: .trngSaid :: .dbgWait :: .rcvN :: .flashOp :: .helm :: .helmL1
    :: .helmL2 :: .flashC :: .irqLine :: .pel :: .tap :: .scrub :: [])
def fieldsTakeOwnership : FSet := .all

/-- What `execRevokeOwnerKey` may change. -/
def partsRevokeOwnerKey : List Part :=
  [.regs, .out, .draws, .stewards, .eng, .hbm, .poison, .win, .rcLines, .rcWb, .sf, .sfAge, .haIn, .homeOut, .leafMaj,
    .leafMin, .ccache, .hwm, .qps, .mail, .cfgWait, .lsFuse, .helm]
def fieldsRevokeOwnerKey : FSet :=
  ⟨(.HA_BACKINV_CNT_COUNT :: .HA_STAT_RECALL :: .HA_STAT_SF_LEVEL :: .HBM_ERR_ADDR_HI_ADDR :: .HBM_ERR_ADDR_LO_ADDR ::
    .HBM_ERR_CH :: .HBM_ERR_CODE :: .HBM_ERR_PC :: .HBM_ERR_SID :: .HBM_ERR_VALID :: .HIF_QP_DONE_CNT_COUNT ::
    .HIF_QP_STAT_STATE :: .LS_ERR_CODE :: .LS_ERR_SOURCE :: .LS_ERR_VALID :: .LS_STAT_OWNER_KEYS :: .RC_HIT_CNT_COUNT ::
    .RC_MISS_CNT_COUNT :: .RC_SNP_CNT_COUNT :: .RC_STAT_RETAINED :: .RC_WB_CNT_COUNT :: .SEAL_CC_MISS_CNT_COUNT ::
    .SEAL_DENY_CNT_COUNT :: .SEAL_ERR_ADDR_HI_ADDR :: .SEAL_ERR_ADDR_LO_ADDR :: .SEAL_ERR_CODE :: .SEAL_ERR_LEVEL ::
    .SEAL_ERR_RANGE :: .SEAL_ERR_VALID :: .SEAL_OVF_CNT_COUNT :: .SEAL_RSTAT_FREEZE :: .SEAL_RSTAT_STATE :: []), [], [],
    false⟩

/-- What `execRetire` may change. -/
def partsRetire : List Part :=
  (.now :: .local_ :: .clocksUp :: .regs :: .answer :: .out :: .draws :: .stewards :: .evlog :: .jtodo :: .journal ::
    .health :: .repairs :: .govs :: .sec :: .tree :: .fab :: .eng :: .fixq :: .bcasts :: .hbm :: .poison :: .win ::
    .flash :: .rcLines :: .rcMiss :: .rcWb :: .sf :: .sfAge :: .haIn :: .haTx :: .homeOut :: .rcLossT :: .seals ::
    .leafMaj :: .leafMin :: .innerC :: .ccache :: .hwm :: .lostN :: .reenc :: .ccT :: .keys :: .keyOp :: .sessions ::
    .lastSes :: .hbmPort :: .hbmPc :: .stack :: .arbs :: .rtq :: .ni :: .bearings :: .rtPend :: .drainT :: .gkLink ::
    .gkDir :: .gkPool :: .crossIn :: .lane :: .trunk :: .bundle :: .hubDown :: .rebaseDue :: .qps :: .rot :: .vecs ::
    .mail :: .pcie :: .cfgWait :: .cfgLoad :: .loadN :: .cfg :: .cfgMeas :: .fwMeas :: .sxq :: .txq :: .residences ::
    .stepN :: .rxStamp :: .sxDiscard :: .sxMeas :: .ppsEnd :: .spinePull :: .anchorE :: .anchorT :: .synth :: .fvs ::
    .dieRt :: .hold :: .relq :: .rstq :: .flashMode :: .stage2T :: .auto :: .noAuto :: .warm :: .warmT :: .rstUnlock ::
    .tele :: .ioOff :: .lsFuse :: .transport :: .trngT :: .trngSaid :: .dbgWait :: .rcvN :: .flashOp :: .helm :: .helmL1
    :: .helmL2 :: .flashC :: .irqLine :: .pel :: .tap :: .scrub :: [])
def fieldsRetire : FSet := .all

/-- What `execTrngHealthFail` may change. -/
def partsTrngHealthFail : List Part := [.regs, .stewards, .trngT, .trngSaid]
def fieldsTrngHealthFail : FSet := ⟨[.LS_STAT_TRNG_OK], [], [], false⟩

/-- What `execTrngHealthRecover` may change. -/
def partsTrngHealthRecover : List Part := [.regs, .draws, .trngT, .trngSaid, .pel]
def fieldsTrngHealthRecover : FSet := ⟨[.LS_STAT_TRNG_OK, .PEL_AUTH_STAT_BUSY], [], [], false⟩

/-- What `execTrngWaitTimeout` may change. -/
def partsTrngWaitTimeout : List Part := [.now, .local_, .regs, .draws, .stewards, .keyOp, .spinePull, .trngSaid]
def fieldsTrngWaitTimeout : FSet :=
  ⟨[.LS_ERR_CODE, .LS_ERR_SOURCE, .LS_ERR_VALID, .SEAL_KEY_BUSY, .SEAL_KEY_FAIL], [], [], false⟩

/-- What `execDebugChallenge` may change. -/
def partsDebugChallenge : List Part := [.regs, .draws, .stewards, .pel]
def fieldsDebugChallenge : FSet := ⟨[.PEL_AUTH_LEVEL, .PEL_AUTH_STAT_BUSY], [], [], false⟩

/-- What `execDebugCertSubmit` may change. -/
def partsDebugCertSubmit : List Part := [.regs, .draws, .stewards, .dbgWait, .pel]
def fieldsDebugCertSubmit : FSet :=
  ⟨[.LS_DBG_STAT_FAILS, .LS_DBG_STAT_JTAG_LEVEL, .LS_DBG_STAT_PCIE_LEVEL, .LS_DBG_STAT_USED, .LS_ERR_CODE,
    .LS_ERR_SOURCE, .LS_ERR_VALID, .PEL_AUTH_LEVEL, .PEL_AUTH_STAT_OK], [], [], false⟩

/-- What `execDebugPasswordSubmit` may change. -/
def partsDebugPasswordSubmit : List Part := [.regs, .draws, .stewards, .dbgWait, .pel]
def fieldsDebugPasswordSubmit : FSet :=
  ⟨[.LS_DBG_STAT_FAILS, .LS_DBG_STAT_JTAG_LEVEL, .LS_DBG_STAT_PCIE_LEVEL, .LS_DBG_STAT_USED, .LS_ERR_CODE,
    .LS_ERR_SOURCE, .LS_ERR_VALID, .PEL_AUTH_LEVEL, .PEL_AUTH_STAT_OK], [], [], false⟩

/-- What `execRecoveryBegin` may change. -/
def partsRecoveryBegin : List Part := [.regs, .stewards, .flash, .rstUnlock, .rcvN]
def fieldsRecoveryBegin : FSet :=
  ⟨[.LS_RCV_CTL_LEN, .LS_RCV_CTL_SLOT, .LS_RCV_STAT_BYTES, .LS_RCV_STAT_ERR, .LS_RCV_STAT_STATE], [], [], false⟩

/-- What `execRecoveryData` may change. -/
def partsRecoveryData : List Part := [.regs, .stewards, .flash, .rstUnlock, .rcvN]
def fieldsRecoveryData : FSet := ⟨[.LS_RCV_STAT_BYTES], [], [], false⟩

/-- What `execRecoveryEnd` may change. -/
def partsRecoveryEnd : List Part :=
  (.now :: .local_ :: .clocksUp :: .regs :: .answer :: .out :: .draws :: .stewards :: .evlog :: .jtodo :: .journal ::
    .health :: .repairs :: .govs :: .sec :: .tree :: .fab :: .eng :: .fixq :: .bcasts :: .hbm :: .poison :: .win ::
    .flash :: .rcLines :: .rcMiss :: .rcWb :: .sf :: .sfAge :: .haIn :: .haTx :: .homeOut :: .rcLossT :: .seals ::
    .leafMaj :: .leafMin :: .innerC :: .ccache :: .hwm :: .lostN :: .reenc :: .ccT :: .keys :: .keyOp :: .sessions ::
    .lastSes :: .hbmPort :: .hbmPc :: .stack :: .arbs :: .rtq :: .ni :: .bearings :: .rtPend :: .drainT :: .gkLink ::
    .gkDir :: .gkPool :: .crossIn :: .lane :: .trunk :: .bundle :: .hubDown :: .rebaseDue :: .qps :: .rot :: .vecs ::
    .mail :: .pcie :: .cfgWait :: .cfgLoad :: .loadN :: .cfg :: .cfgMeas :: .fwMeas :: .sxq :: .txq :: .residences ::
    .stepN :: .rxStamp :: .sxDiscard :: .sxMeas :: .ppsEnd :: .spinePull :: .anchorE :: .anchorT :: .synth :: .fvs ::
    .dieRt :: .hold :: .relq :: .rstq :: .flashMode :: .stage2T :: .auto :: .noAuto :: .warm :: .warmT :: .rstUnlock ::
    .tele :: .ioOff :: .lsFuse :: .transport :: .trngT :: .trngSaid :: .dbgWait :: .rcvN :: .flashOp :: .helm :: .helmL1
    :: .helmL2 :: .flashC :: .irqLine :: .pel :: .tap :: .scrub :: [])
def fieldsRecoveryEnd : FSet := .all

/-- What `execConfigScrubFrame` may change. -/
def partsConfigScrubFrame : List Part :=
  [.now, .local_, .regs, .stewards, .health, .repairs, .govs, .sec, .fab, .cfg, .spinePull, .scrub]
def fieldsConfigScrubFrame : FSet :=
  ⟨[.MGMT_HEALTH_STAGE, .MGMT_HEALTH_ZERO, .SCRUB_COR_CNT_COUNT, .SCRUB_STAT_ACTIVE, .SCRUB_STAT_DONE,
    .SCRUB_STAT_SECTOR, .SCRUB_UNC_CNT_COUNT, .SEC_COLMAP_ACTIVE, .SEC_COLMAP_DEFECTS, .SEC_COLMAP_FIELD,
    .SEC_CTL_RESET, .SEC_STATUS_ISOLATED, .SEC_STATUS_PENDING_REMAP, .SEC_STATUS_PERMIT_WAIT, .SEC_STATUS_RESET_HELD,
    .SEC_STATUS_STATE], [.sec], [], false⟩

/-- What `execScrubNow` may change. -/
def partsScrubNow : List Part :=
  [.regs, .out, .draws, .stewards, .eng, .hbm, .poison, .win, .rcLines, .rcWb, .sf, .sfAge, .haIn, .homeOut, .leafMaj,
    .leafMin, .ccache, .hwm, .qps, .mail, .cfgWait, .helm, .scrub]
def fieldsScrubNow : FSet :=
  ⟨(.HA_BACKINV_CNT_COUNT :: .HA_STAT_RECALL :: .HA_STAT_SF_LEVEL :: .HBM_ERR_ADDR_HI_ADDR :: .HBM_ERR_ADDR_LO_ADDR ::
    .HBM_ERR_CH :: .HBM_ERR_CODE :: .HBM_ERR_PC :: .HBM_ERR_SID :: .HBM_ERR_VALID :: .HIF_QP_DONE_CNT_COUNT ::
    .HIF_QP_STAT_STATE :: .LS_ERR_CODE :: .LS_ERR_SOURCE :: .LS_ERR_VALID :: .RC_HIT_CNT_COUNT :: .RC_MISS_CNT_COUNT ::
    .RC_SNP_CNT_COUNT :: .RC_STAT_RETAINED :: .RC_WB_CNT_COUNT :: .SCRUB_STAT_ACTIVE :: .SCRUB_STAT_DONE ::
    .SCRUB_STAT_SECTOR :: .SEAL_CC_MISS_CNT_COUNT :: .SEAL_DENY_CNT_COUNT :: .SEAL_ERR_ADDR_HI_ADDR ::
    .SEAL_ERR_ADDR_LO_ADDR :: .SEAL_ERR_CODE :: .SEAL_ERR_LEVEL :: .SEAL_ERR_RANGE :: .SEAL_ERR_VALID ::
    .SEAL_OVF_CNT_COUNT :: .SEAL_RSTAT_FREEZE :: .SEAL_RSTAT_STATE :: []), [], [], false⟩

/-- What `execEvtJournalRead` may change. -/
def partsEvtJournalRead : List Part :=
  [.regs, .out, .draws, .stewards, .eng, .hbm, .poison, .win, .rcLines, .rcWb, .sf, .sfAge, .haIn, .homeOut, .leafMaj,
    .leafMin, .ccache, .hwm, .qps, .mail, .cfgWait, .helm]
def fieldsEvtJournalRead : FSet :=
  ⟨(.HA_BACKINV_CNT_COUNT :: .HA_STAT_RECALL :: .HA_STAT_SF_LEVEL :: .HBM_ERR_ADDR_HI_ADDR :: .HBM_ERR_ADDR_LO_ADDR ::
    .HBM_ERR_CH :: .HBM_ERR_CODE :: .HBM_ERR_PC :: .HBM_ERR_SID :: .HBM_ERR_VALID :: .HIF_QP_DONE_CNT_COUNT ::
    .HIF_QP_STAT_STATE :: .LS_ERR_CODE :: .LS_ERR_SOURCE :: .LS_ERR_VALID :: .RC_HIT_CNT_COUNT :: .RC_MISS_CNT_COUNT ::
    .RC_SNP_CNT_COUNT :: .RC_STAT_RETAINED :: .RC_WB_CNT_COUNT :: .SEAL_CC_MISS_CNT_COUNT :: .SEAL_DENY_CNT_COUNT ::
    .SEAL_ERR_ADDR_HI_ADDR :: .SEAL_ERR_ADDR_LO_ADDR :: .SEAL_ERR_CODE :: .SEAL_ERR_LEVEL :: .SEAL_ERR_RANGE ::
    .SEAL_ERR_VALID :: .SEAL_OVF_CNT_COUNT :: .SEAL_RSTAT_FREEZE :: .SEAL_RSTAT_STATE :: []), [], [], false⟩

/-- What `execTelemetryRead` may change. -/
def partsTelemetryRead : List Part :=
  [.regs, .out, .draws, .stewards, .eng, .hbm, .poison, .win, .rcLines, .rcWb, .sf, .sfAge, .haIn, .homeOut, .leafMaj,
    .leafMin, .ccache, .hwm, .qps, .mail, .cfgWait, .helm]
def fieldsTelemetryRead : FSet :=
  ⟨(.HA_BACKINV_CNT_COUNT :: .HA_STAT_RECALL :: .HA_STAT_SF_LEVEL :: .HBM_ERR_ADDR_HI_ADDR :: .HBM_ERR_ADDR_LO_ADDR ::
    .HBM_ERR_CH :: .HBM_ERR_CODE :: .HBM_ERR_PC :: .HBM_ERR_SID :: .HBM_ERR_VALID :: .HIF_QP_DONE_CNT_COUNT ::
    .HIF_QP_STAT_STATE :: .LS_ERR_CODE :: .LS_ERR_SOURCE :: .LS_ERR_VALID :: .RC_HIT_CNT_COUNT :: .RC_MISS_CNT_COUNT ::
    .RC_SNP_CNT_COUNT :: .RC_STAT_RETAINED :: .RC_WB_CNT_COUNT :: .SEAL_CC_MISS_CNT_COUNT :: .SEAL_DENY_CNT_COUNT ::
    .SEAL_ERR_ADDR_HI_ADDR :: .SEAL_ERR_ADDR_LO_ADDR :: .SEAL_ERR_CODE :: .SEAL_ERR_LEVEL :: .SEAL_ERR_RANGE ::
    .SEAL_ERR_VALID :: .SEAL_OVF_CNT_COUNT :: .SEAL_RSTAT_FREEZE :: .SEAL_RSTAT_STATE :: []), [], [], false⟩

/-- What `execRepairRead` may change. -/
def partsRepairRead : List Part :=
  [.regs, .out, .draws, .stewards, .eng, .hbm, .poison, .win, .rcLines, .rcWb, .sf, .sfAge, .haIn, .homeOut, .leafMaj,
    .leafMin, .ccache, .hwm, .qps, .mail, .cfgWait, .helm]
def fieldsRepairRead : FSet :=
  ⟨(.HA_BACKINV_CNT_COUNT :: .HA_STAT_RECALL :: .HA_STAT_SF_LEVEL :: .HBM_ERR_ADDR_HI_ADDR :: .HBM_ERR_ADDR_LO_ADDR ::
    .HBM_ERR_CH :: .HBM_ERR_CODE :: .HBM_ERR_PC :: .HBM_ERR_SID :: .HBM_ERR_VALID :: .HIF_QP_DONE_CNT_COUNT ::
    .HIF_QP_STAT_STATE :: .LS_ERR_CODE :: .LS_ERR_SOURCE :: .LS_ERR_VALID :: .RC_HIT_CNT_COUNT :: .RC_MISS_CNT_COUNT ::
    .RC_SNP_CNT_COUNT :: .RC_STAT_RETAINED :: .RC_WB_CNT_COUNT :: .SEAL_CC_MISS_CNT_COUNT :: .SEAL_DENY_CNT_COUNT ::
    .SEAL_ERR_ADDR_HI_ADDR :: .SEAL_ERR_ADDR_LO_ADDR :: .SEAL_ERR_CODE :: .SEAL_ERR_LEVEL :: .SEAL_ERR_RANGE ::
    .SEAL_ERR_VALID :: .SEAL_OVF_CNT_COUNT :: .SEAL_RSTAT_FREEZE :: .SEAL_RSTAT_STATE :: []), [], [], false⟩

/-- What `execFlashErase` may change. -/
def partsFlashErase : List Part :=
  [.regs, .out, .draws, .stewards, .eng, .hbm, .poison, .win, .rcLines, .rcWb, .sf, .sfAge, .haIn, .homeOut, .leafMaj,
    .leafMin, .ccache, .hwm, .qps, .mail, .cfgWait, .flashOp, .helm]
def fieldsFlashErase : FSet :=
  ⟨[.HA_BACKINV_CNT_COUNT, .HA_STAT_RECALL, .HA_STAT_SF_LEVEL, .HBM_ERR_ADDR_HI_ADDR, .HBM_ERR_ADDR_LO_ADDR,
    .HBM_ERR_CH, .HBM_ERR_CODE, .HBM_ERR_PC, .HBM_ERR_SID, .HBM_ERR_VALID, .HIF_QP_DONE_CNT_COUNT, .HIF_QP_STAT_STATE,
    .RC_HIT_CNT_COUNT, .RC_MISS_CNT_COUNT, .RC_SNP_CNT_COUNT, .RC_STAT_RETAINED, .RC_WB_CNT_COUNT,
    .SEAL_CC_MISS_CNT_COUNT, .SEAL_DENY_CNT_COUNT, .SEAL_ERR_ADDR_HI_ADDR, .SEAL_ERR_ADDR_LO_ADDR, .SEAL_ERR_CODE,
    .SEAL_ERR_LEVEL, .SEAL_ERR_RANGE, .SEAL_ERR_VALID, .SEAL_OVF_CNT_COUNT, .SEAL_RSTAT_FREEZE, .SEAL_RSTAT_STATE], [],
    [], false⟩

/-- What `execFlashWrite` may change. -/
def partsFlashWrite : List Part :=
  [.regs, .out, .draws, .stewards, .eng, .hbm, .poison, .win, .rcLines, .rcWb, .sf, .sfAge, .haIn, .homeOut, .leafMaj,
    .leafMin, .ccache, .hwm, .qps, .mail, .cfgWait, .flashOp, .helm]
def fieldsFlashWrite : FSet :=
  ⟨[.HA_BACKINV_CNT_COUNT, .HA_STAT_RECALL, .HA_STAT_SF_LEVEL, .HBM_ERR_ADDR_HI_ADDR, .HBM_ERR_ADDR_LO_ADDR,
    .HBM_ERR_CH, .HBM_ERR_CODE, .HBM_ERR_PC, .HBM_ERR_SID, .HBM_ERR_VALID, .HIF_QP_DONE_CNT_COUNT, .HIF_QP_STAT_STATE,
    .RC_HIT_CNT_COUNT, .RC_MISS_CNT_COUNT, .RC_SNP_CNT_COUNT, .RC_STAT_RETAINED, .RC_WB_CNT_COUNT,
    .SEAL_CC_MISS_CNT_COUNT, .SEAL_DENY_CNT_COUNT, .SEAL_ERR_ADDR_HI_ADDR, .SEAL_ERR_ADDR_LO_ADDR, .SEAL_ERR_CODE,
    .SEAL_ERR_LEVEL, .SEAL_ERR_RANGE, .SEAL_ERR_VALID, .SEAL_OVF_CNT_COUNT, .SEAL_RSTAT_FREEZE, .SEAL_RSTAT_STATE], [],
    [], false⟩

/-- What `execDirWrite` may change. -/
def partsDirWrite : List Part :=
  [.regs, .out, .draws, .stewards, .eng, .hbm, .poison, .win, .rcLines, .rcWb, .sf, .sfAge, .haIn, .homeOut, .leafMaj,
    .leafMin, .ccache, .hwm, .qps, .mail, .cfgWait, .flashOp, .helm]
def fieldsDirWrite : FSet :=
  ⟨[.HA_BACKINV_CNT_COUNT, .HA_STAT_RECALL, .HA_STAT_SF_LEVEL, .HBM_ERR_ADDR_HI_ADDR, .HBM_ERR_ADDR_LO_ADDR,
    .HBM_ERR_CH, .HBM_ERR_CODE, .HBM_ERR_PC, .HBM_ERR_SID, .HBM_ERR_VALID, .HIF_QP_DONE_CNT_COUNT, .HIF_QP_STAT_STATE,
    .RC_HIT_CNT_COUNT, .RC_MISS_CNT_COUNT, .RC_SNP_CNT_COUNT, .RC_STAT_RETAINED, .RC_WB_CNT_COUNT,
    .SEAL_CC_MISS_CNT_COUNT, .SEAL_DENY_CNT_COUNT, .SEAL_ERR_ADDR_HI_ADDR, .SEAL_ERR_ADDR_LO_ADDR, .SEAL_ERR_CODE,
    .SEAL_ERR_LEVEL, .SEAL_ERR_RANGE, .SEAL_ERR_VALID, .SEAL_OVF_CNT_COUNT, .SEAL_RSTAT_FREEZE, .SEAL_RSTAT_STATE], [],
    [], false⟩

/-- What `execFlashSectorRewritten` may change. -/
def partsFlashSectorRewritten : List Part :=
  [.regs, .out, .draws, .stewards, .eng, .hbm, .poison, .win, .flash, .rcLines, .rcWb, .sf, .sfAge, .haIn, .homeOut,
    .leafMaj, .leafMin, .ccache, .hwm, .qps, .mail, .cfgWait, .flashOp, .helm, .helmL1, .flashC]
def fieldsFlashSectorRewritten : FSet :=
  ⟨[.HA_BACKINV_CNT_COUNT, .HA_STAT_RECALL, .HA_STAT_SF_LEVEL, .HBM_ERR_ADDR_HI_ADDR, .HBM_ERR_ADDR_LO_ADDR,
    .HBM_ERR_CH, .HBM_ERR_CODE, .HBM_ERR_PC, .HBM_ERR_SID, .HBM_ERR_VALID, .HELM_IC_PEND_BITS, .HIF_QP_DONE_CNT_COUNT,
    .HIF_QP_STAT_STATE, .RC_HIT_CNT_COUNT, .RC_MISS_CNT_COUNT, .RC_SNP_CNT_COUNT, .RC_STAT_RETAINED, .RC_WB_CNT_COUNT,
    .SEAL_CC_MISS_CNT_COUNT, .SEAL_DENY_CNT_COUNT, .SEAL_ERR_ADDR_HI_ADDR, .SEAL_ERR_ADDR_LO_ADDR, .SEAL_ERR_CODE,
    .SEAL_ERR_LEVEL, .SEAL_ERR_RANGE, .SEAL_ERR_VALID, .SEAL_OVF_CNT_COUNT, .SEAL_RSTAT_FREEZE, .SEAL_RSTAT_STATE], [],
    [], false⟩

/-- What `execRcFieldRead` may change. -/
def partsRcFieldRead : List Part := [.regs, .answer, .draws, .stewards, .lane, .trunk, .helm, .pel]
def fieldsRcFieldRead : FSet :=
  ⟨[.CL_BIT_HI_COUNT, .CL_ERR_CNT_COUNT, .CL_STAT_CHK_LOCK, .ENG_STEPS_HI_COUNT, .FC_CMP_HI_COUNT,
    .HELM_CORE_STAT_LEVEL, .HELM_IC_PEND_BITS, .SEAL_HWM_HI_HWM, .SX_MEAS_MPD_HI_VALUE, .SX_MEAS_MPD_LO_VALUE,
    .SX_MEAS_OFS_HI_VALUE, .SX_MEAS_SEQ_SEQ, .SX_TIME_NS_NS, .SX_TIME_SH_SEC, .SX_TIME_SL_SEC, .TR_BIT_HI_COUNT,
    .TR_ERR_CNT_COUNT, .TR_STAT_CHK_LOCK], [], [.rc], false⟩

/-- What `execEngStepsLoRead` may change. -/
def partsEngStepsLoRead : List Part := [.regs, .answer, .draws, .stewards, .lane, .trunk, .helm, .pel]
def fieldsEngStepsLoRead : FSet :=
  ⟨[.CL_BIT_HI_COUNT, .CL_ERR_CNT_COUNT, .CL_STAT_CHK_LOCK, .ENG_STEPS_HI_COUNT, .FC_CMP_HI_COUNT,
    .HELM_CORE_STAT_LEVEL, .HELM_IC_PEND_BITS, .SEAL_HWM_HI_HWM, .SX_MEAS_MPD_HI_VALUE, .SX_MEAS_MPD_LO_VALUE,
    .SX_MEAS_OFS_HI_VALUE, .SX_MEAS_SEQ_SEQ, .SX_TIME_NS_NS, .SX_TIME_SH_SEC, .SX_TIME_SL_SEC, .TR_BIT_HI_COUNT,
    .TR_ERR_CNT_COUNT, .TR_STAT_CHK_LOCK], [], [.rc], false⟩

/-- What `execFcCmpLoRead` may change. -/
def partsFcCmpLoRead : List Part := [.regs, .answer, .draws, .stewards, .lane, .trunk, .helm, .pel]
def fieldsFcCmpLoRead : FSet :=
  ⟨[.CL_BIT_HI_COUNT, .CL_ERR_CNT_COUNT, .CL_STAT_CHK_LOCK, .ENG_STEPS_HI_COUNT, .FC_CMP_HI_COUNT,
    .HELM_CORE_STAT_LEVEL, .HELM_IC_PEND_BITS, .SEAL_HWM_HI_HWM, .SX_MEAS_MPD_HI_VALUE, .SX_MEAS_MPD_LO_VALUE,
    .SX_MEAS_OFS_HI_VALUE, .SX_MEAS_SEQ_SEQ, .SX_TIME_NS_NS, .SX_TIME_SH_SEC, .SX_TIME_SL_SEC, .TR_BIT_HI_COUNT,
    .TR_ERR_CNT_COUNT, .TR_STAT_CHK_LOCK], [], [.rc], false⟩

/-- What `execSealHwmLoRead` may change. -/
def partsSealHwmLoRead : List Part := [.regs, .answer, .draws, .stewards, .lane, .trunk, .helm, .pel]
def fieldsSealHwmLoRead : FSet :=
  ⟨[.CL_BIT_HI_COUNT, .CL_ERR_CNT_COUNT, .CL_STAT_CHK_LOCK, .ENG_STEPS_HI_COUNT, .FC_CMP_HI_COUNT,
    .HELM_CORE_STAT_LEVEL, .HELM_IC_PEND_BITS, .SEAL_HWM_HI_HWM, .SX_MEAS_MPD_HI_VALUE, .SX_MEAS_MPD_LO_VALUE,
    .SX_MEAS_OFS_HI_VALUE, .SX_MEAS_SEQ_SEQ, .SX_TIME_NS_NS, .SX_TIME_SH_SEC, .SX_TIME_SL_SEC, .TR_BIT_HI_COUNT,
    .TR_ERR_CNT_COUNT, .TR_STAT_CHK_LOCK], [], [.rc], false⟩

/-- What `execBitLoRead` may change. -/
def partsBitLoRead : List Part := [.regs, .answer, .draws, .stewards, .lane, .trunk, .helm, .pel]
def fieldsBitLoRead : FSet :=
  ⟨[.CL_BIT_HI_COUNT, .CL_ERR_CNT_COUNT, .CL_STAT_CHK_LOCK, .ENG_STEPS_HI_COUNT, .FC_CMP_HI_COUNT,
    .HELM_CORE_STAT_LEVEL, .HELM_IC_PEND_BITS, .SEAL_HWM_HI_HWM, .SX_MEAS_MPD_HI_VALUE, .SX_MEAS_MPD_LO_VALUE,
    .SX_MEAS_OFS_HI_VALUE, .SX_MEAS_SEQ_SEQ, .SX_TIME_NS_NS, .SX_TIME_SH_SEC, .SX_TIME_SL_SEC, .TR_BIT_HI_COUNT,
    .TR_ERR_CNT_COUNT, .TR_STAT_CHK_LOCK], [], [.rc], false⟩

/-- What `execSxTimeFracRead` may change. -/
def partsSxTimeFracRead : List Part := [.regs, .answer, .draws, .stewards, .lane, .trunk, .helm, .pel]
def fieldsSxTimeFracRead : FSet :=
  ⟨[.CL_BIT_HI_COUNT, .CL_ERR_CNT_COUNT, .CL_STAT_CHK_LOCK, .ENG_STEPS_HI_COUNT, .FC_CMP_HI_COUNT,
    .HELM_CORE_STAT_LEVEL, .HELM_IC_PEND_BITS, .SEAL_HWM_HI_HWM, .SX_MEAS_MPD_HI_VALUE, .SX_MEAS_MPD_LO_VALUE,
    .SX_MEAS_OFS_HI_VALUE, .SX_MEAS_SEQ_SEQ, .SX_TIME_NS_NS, .SX_TIME_SH_SEC, .SX_TIME_SL_SEC, .TR_BIT_HI_COUNT,
    .TR_ERR_CNT_COUNT, .TR_STAT_CHK_LOCK], [], [.rc], false⟩

/-- What `execSxMeasOfsLoRead` may change. -/
def partsSxMeasOfsLoRead : List Part := [.regs, .answer, .draws, .stewards, .lane, .trunk, .helm, .pel]
def fieldsSxMeasOfsLoRead : FSet :=
  ⟨[.CL_BIT_HI_COUNT, .CL_ERR_CNT_COUNT, .CL_STAT_CHK_LOCK, .ENG_STEPS_HI_COUNT, .FC_CMP_HI_COUNT,
    .HELM_CORE_STAT_LEVEL, .HELM_IC_PEND_BITS, .SEAL_HWM_HI_HWM, .SX_MEAS_MPD_HI_VALUE, .SX_MEAS_MPD_LO_VALUE,
    .SX_MEAS_OFS_HI_VALUE, .SX_MEAS_SEQ_SEQ, .SX_TIME_NS_NS, .SX_TIME_SH_SEC, .SX_TIME_SL_SEC, .TR_BIT_HI_COUNT,
    .TR_ERR_CNT_COUNT, .TR_STAT_CHK_LOCK], [], [.rc], false⟩

/-- What `execLaneCmd` may change. -/
def partsLaneCmd : List Part :=
  (.now :: .local_ :: .clocksUp :: .regs :: .answer :: .out :: .draws :: .stewards :: .evlog :: .jtodo :: .journal ::
    .health :: .repairs :: .govs :: .sec :: .tree :: .fab :: .eng :: .fixq :: .bcasts :: .hbm :: .poison :: .win ::
    .flash :: .rcLines :: .rcMiss :: .rcWb :: .sf :: .sfAge :: .haIn :: .haTx :: .homeOut :: .rcLossT :: .seals ::
    .leafMaj :: .leafMin :: .innerC :: .ccache :: .hwm :: .lostN :: .reenc :: .ccT :: .keys :: .keyOp :: .sessions ::
    .lastSes :: .hbmPort :: .hbmPc :: .stack :: .arbs :: .rtq :: .ni :: .bearings :: .rtPend :: .drainT :: .gkLink ::
    .gkDir :: .gkPool :: .crossIn :: .lane :: .trunk :: .bundle :: .hubDown :: .rebaseDue :: .qps :: .rot :: .vecs ::
    .mail :: .pcie :: .cfgWait :: .cfgLoad :: .loadN :: .cfg :: .cfgMeas :: .fwMeas :: .sxq :: .txq :: .residences ::
    .stepN :: .rxStamp :: .sxDiscard :: .sxMeas :: .ppsEnd :: .spinePull :: .anchorE :: .anchorT :: .synth :: .fvs ::
    .dieRt :: .hold :: .relq :: .rstq :: .flashMode :: .stage2T :: .auto :: .noAuto :: .warm :: .warmT :: .rstUnlock ::
    .tele :: .ioOff :: .lsFuse :: .transport :: .trngT :: .trngSaid :: .dbgWait :: .rcvN :: .flashOp :: .helm :: .helmL1
    :: .helmL2 :: .flashC :: .irqLine :: .pel :: .tap :: .scrub :: [])
def fieldsLaneCmd : FSet := .all

/-- What `execPelPeek` may change. -/
def partsPelPeek : List Part := [.regs, .draws, .stewards, .pel]
def fieldsPelPeek : FSet := ⟨[.PEL_STAT_BUSY], [], [], false⟩

/-- What `execPelConsume` may change. -/
def partsPelConsume : List Part := [.regs, .answer, .draws, .stewards, .lane, .trunk, .helm, .pel]
def fieldsPelConsume : FSet :=
  ⟨[.CL_BIT_HI_COUNT, .CL_ERR_CNT_COUNT, .CL_STAT_CHK_LOCK, .ENG_STEPS_HI_COUNT, .FC_CMP_HI_COUNT,
    .HELM_CORE_STAT_LEVEL, .HELM_IC_PEND_BITS, .PEL_STAT_BUSY, .SEAL_HWM_HI_HWM, .SX_MEAS_MPD_HI_VALUE,
    .SX_MEAS_MPD_LO_VALUE, .SX_MEAS_OFS_HI_VALUE, .SX_MEAS_SEQ_SEQ, .SX_TIME_NS_NS, .SX_TIME_SH_SEC, .SX_TIME_SL_SEC,
    .TR_BIT_HI_COUNT, .TR_ERR_CNT_COUNT, .TR_STAT_CHK_LOCK], [], [.rc], false⟩

/-- What `execPelRegWrite` may change. -/
def partsPelRegWrite : List Part :=
  (.now :: .local_ :: .clocksUp :: .regs :: .answer :: .out :: .draws :: .stewards :: .evlog :: .jtodo :: .journal ::
    .health :: .repairs :: .govs :: .sec :: .tree :: .fab :: .eng :: .fixq :: .bcasts :: .hbm :: .poison :: .win ::
    .flash :: .rcLines :: .rcMiss :: .rcWb :: .sf :: .sfAge :: .haIn :: .haTx :: .homeOut :: .rcLossT :: .seals ::
    .leafMaj :: .leafMin :: .innerC :: .ccache :: .hwm :: .lostN :: .reenc :: .ccT :: .keys :: .keyOp :: .sessions ::
    .lastSes :: .hbmPort :: .hbmPc :: .stack :: .arbs :: .rtq :: .ni :: .bearings :: .rtPend :: .drainT :: .gkLink ::
    .gkDir :: .gkPool :: .crossIn :: .lane :: .trunk :: .bundle :: .hubDown :: .rebaseDue :: .qps :: .rot :: .vecs ::
    .mail :: .pcie :: .cfgWait :: .cfgLoad :: .loadN :: .cfg :: .cfgMeas :: .fwMeas :: .sxq :: .txq :: .residences ::
    .stepN :: .rxStamp :: .sxDiscard :: .sxMeas :: .ppsEnd :: .spinePull :: .anchorE :: .anchorT :: .synth :: .fvs ::
    .dieRt :: .hold :: .relq :: .rstq :: .flashMode :: .stage2T :: .auto :: .noAuto :: .warm :: .warmT :: .rstUnlock ::
    .tele :: .ioOff :: .lsFuse :: .transport :: .trngT :: .trngSaid :: .dbgWait :: .rcvN :: .flashOp :: .helm :: .helmL1
    :: .helmL2 :: .flashC :: .irqLine :: .pel :: .tap :: .scrub :: [])
def fieldsPelRegWrite : FSet := .all

/-- What `execPelMemRead` may change. -/
def partsPelMemRead : List Part :=
  [.regs, .draws, .stewards, .hbm, .poison, .rcLines, .rcWb, .sf, .sfAge, .haIn, .homeOut, .ccache, .pel]
def fieldsPelMemRead : FSet :=
  ⟨[.HA_BACKINV_CNT_COUNT, .HA_STAT_RECALL, .HA_STAT_SF_LEVEL, .PEL_STAT_BUSY, .RC_HIT_CNT_COUNT, .RC_MISS_CNT_COUNT,
    .RC_SNP_CNT_COUNT, .RC_STAT_RETAINED, .RC_WB_CNT_COUNT, .SEAL_CC_MISS_CNT_COUNT, .SEAL_DENY_CNT_COUNT,
    .SEAL_ERR_ADDR_HI_ADDR, .SEAL_ERR_ADDR_LO_ADDR, .SEAL_ERR_CODE, .SEAL_ERR_LEVEL, .SEAL_ERR_RANGE, .SEAL_ERR_VALID],
    [], [], false⟩

/-- What `execPelMemWrite` may change. -/
def partsPelMemWrite : List Part :=
  [.regs, .out, .draws, .stewards, .eng, .hbm, .poison, .win, .rcLines, .rcWb, .sf, .sfAge, .haIn, .homeOut, .leafMaj,
    .leafMin, .ccache, .hwm, .pel]
def fieldsPelMemWrite : FSet :=
  ⟨[.HA_BACKINV_CNT_COUNT, .HA_STAT_RECALL, .HA_STAT_SF_LEVEL, .HBM_ERR_ADDR_HI_ADDR, .HBM_ERR_ADDR_LO_ADDR,
    .HBM_ERR_CH, .HBM_ERR_CODE, .HBM_ERR_PC, .HBM_ERR_SID, .HBM_ERR_VALID, .PEL_STAT_BUSY, .RC_HIT_CNT_COUNT,
    .RC_MISS_CNT_COUNT, .RC_SNP_CNT_COUNT, .RC_STAT_RETAINED, .RC_WB_CNT_COUNT, .SEAL_CC_MISS_CNT_COUNT,
    .SEAL_DENY_CNT_COUNT, .SEAL_ERR_ADDR_HI_ADDR, .SEAL_ERR_ADDR_LO_ADDR, .SEAL_ERR_CODE, .SEAL_ERR_LEVEL,
    .SEAL_ERR_RANGE, .SEAL_ERR_VALID, .SEAL_OVF_CNT_COUNT, .SEAL_RSTAT_FREEZE, .SEAL_RSTAT_STATE], [], [], false⟩

/-- What `execPelAccessDone` may change. -/
def partsPelAccessDone : List Part := [.regs, .stewards, .pel]
def fieldsPelAccessDone : FSet :=
  ⟨[.PEL_DATA_HI_DATA, .PEL_DATA_LO_DATA, .PEL_STAT_BUSY, .PEL_STAT_STATUS], [], [], false⟩

/-- What `execPelRst` may change. -/
def partsPelRst : List Part := [.regs, .stewards, .pel]
def fieldsPelRst : FSet := ⟨[.LS_DBG_STAT_JTAG_LEVEL, .LS_DBG_STAT_PCIE_LEVEL], [.dbg], [], false⟩

/-- What `execRegisterWrite` may change. -/
def partsRegisterWrite : List Part :=
  (.now :: .local_ :: .clocksUp :: .regs :: .answer :: .out :: .draws :: .stewards :: .evlog :: .jtodo :: .journal ::
    .health :: .repairs :: .govs :: .sec :: .tree :: .fab :: .eng :: .fixq :: .bcasts :: .hbm :: .poison :: .win ::
    .flash :: .rcLines :: .rcMiss :: .rcWb :: .sf :: .sfAge :: .haIn :: .haTx :: .homeOut :: .rcLossT :: .seals ::
    .leafMaj :: .leafMin :: .innerC :: .ccache :: .hwm :: .lostN :: .reenc :: .ccT :: .keys :: .keyOp :: .sessions ::
    .lastSes :: .hbmPort :: .hbmPc :: .stack :: .arbs :: .rtq :: .ni :: .bearings :: .rtPend :: .drainT :: .gkLink ::
    .gkDir :: .gkPool :: .crossIn :: .lane :: .trunk :: .bundle :: .hubDown :: .rebaseDue :: .qps :: .rot :: .vecs ::
    .mail :: .pcie :: .cfgWait :: .cfgLoad :: .loadN :: .cfg :: .cfgMeas :: .fwMeas :: .sxq :: .txq :: .residences ::
    .stepN :: .rxStamp :: .sxDiscard :: .sxMeas :: .ppsEnd :: .spinePull :: .anchorE :: .anchorT :: .synth :: .fvs ::
    .dieRt :: .hold :: .relq :: .rstq :: .flashMode :: .stage2T :: .auto :: .noAuto :: .warm :: .warmT :: .rstUnlock ::
    .tele :: .ioOff :: .lsFuse :: .transport :: .trngT :: .trngSaid :: .dbgWait :: .rcvN :: .flashOp :: .helm :: .helmL1
    :: .helmL2 :: .flashC :: .irqLine :: .pel :: .tap :: .scrub :: [])
def fieldsRegisterWrite : FSet := .all

/-- What `execIdcode` may change. -/
def partsIdcode : List Part := [.answer, .tap]
def fieldsIdcode : FSet := ⟨[], [], [], false⟩

/-- What `execSamplePreload` may change. -/
def partsSamplePreload : List Part := [.answer, .tap]
def fieldsSamplePreload : FSet := ⟨[], [], [], false⟩

/-- What `execExtest` may change. -/
def partsExtest : List Part := [.answer, .out, .stewards, .tap]
def fieldsExtest : FSet := ⟨[], [], [], false⟩

/-- What `execExtestPulse` may change. -/
def partsExtestPulse : List Part := [.answer, .out, .stewards, .tap]
def fieldsExtestPulse : FSet := ⟨[], [], [], false⟩

/-- What `execExtestTrain` may change. -/
def partsExtestTrain : List Part := [.answer, .out, .stewards, .tap]
def fieldsExtestTrain : FSet := ⟨[], [], [], false⟩

/-- What `execClamp` may change. -/
def partsClamp : List Part := [.out, .stewards, .tap]
def fieldsClamp : FSet := ⟨[], [], [], false⟩

/-- What `execHighz` may change. -/
def partsHighz : List Part := [.out, .stewards, .tap]
def fieldsHighz : FSet := ⟨[], [], [], false⟩

/-- What `execPelReg` may change. -/
def partsPelReg : List Part :=
  (.now :: .local_ :: .clocksUp :: .regs :: .answer :: .out :: .draws :: .stewards :: .evlog :: .jtodo :: .journal ::
    .health :: .repairs :: .govs :: .sec :: .tree :: .fab :: .eng :: .fixq :: .bcasts :: .hbm :: .poison :: .win ::
    .flash :: .rcLines :: .rcMiss :: .rcWb :: .sf :: .sfAge :: .haIn :: .haTx :: .homeOut :: .rcLossT :: .seals ::
    .leafMaj :: .leafMin :: .innerC :: .ccache :: .hwm :: .lostN :: .reenc :: .ccT :: .keys :: .keyOp :: .sessions ::
    .lastSes :: .hbmPort :: .hbmPc :: .stack :: .arbs :: .rtq :: .ni :: .bearings :: .rtPend :: .drainT :: .gkLink ::
    .gkDir :: .gkPool :: .crossIn :: .lane :: .trunk :: .bundle :: .hubDown :: .rebaseDue :: .qps :: .rot :: .vecs ::
    .mail :: .pcie :: .cfgWait :: .cfgLoad :: .loadN :: .cfg :: .cfgMeas :: .fwMeas :: .sxq :: .txq :: .residences ::
    .stepN :: .rxStamp :: .sxDiscard :: .sxMeas :: .ppsEnd :: .spinePull :: .anchorE :: .anchorT :: .synth :: .fvs ::
    .dieRt :: .hold :: .relq :: .rstq :: .flashMode :: .stage2T :: .auto :: .noAuto :: .warm :: .warmT :: .rstUnlock ::
    .tele :: .ioOff :: .lsFuse :: .transport :: .trngT :: .trngSaid :: .dbgWait :: .rcvN :: .flashOp :: .helm :: .helmL1
    :: .helmL2 :: .flashC :: .irqLine :: .pel :: .tap :: .scrub :: [])
def fieldsPelReg : FSet := .all

/-- What `execBypass` may change. -/
def partsBypass : List Part := [.answer, .stewards, .tap]
def fieldsBypass : FSet := ⟨[], [], [], false⟩

/-- The parts of the state that a command may change. -/
def changedParts : Instr → List Part
  | .registerWrite .. => partsRegisterWrite
  | .rcFieldRead .. => partsRcFieldRead
  | .engStepsLoRead .. => partsEngStepsLoRead
  | .fcCmpLoRead .. => partsFcCmpLoRead
  | .sealHwmLoRead .. => partsSealHwmLoRead
  | .bitLoRead .. => partsBitLoRead
  | .sxTimeFracRead .. => partsSxTimeFracRead
  | .sxMeasOfsLoRead .. => partsSxMeasOfsLoRead
  | .blockErrorReport .. => partsBlockErrorReport
  | .overflowEvent .. => partsOverflowEvent
  | .eventLogAppend .. => partsEventLogAppend
  | .evtAckWrite .. => partsEvtAckWrite
  | .journalWrite => partsJournalWrite
  | .sectorReset .. => partsSectorReset
  | .sectorReleaseRequest .. => partsSectorReleaseRequest
  | .sectorRelease .. => partsSectorRelease
  | .sectorReleaseTimeout .. => partsSectorReleaseTimeout
  | .migrate .. => partsMigrate
  | .migrationGated .. => partsMigrationGated
  | .migrationCaptureDone .. => partsMigrationCaptureDone
  | .migrationRewriteDone .. => partsMigrationRewriteDone
  | .migrationRestoreDone .. => partsMigrationRestoreDone
  | .migrationRestart .. => partsMigrationRestart
  | .migrationPermitTimeout .. => partsMigrationPermitTimeout
  | .columnDefectFound .. => partsColumnDefectFound
  | .spanContention .. => partsSpanContention
  | .cfgFrame .. => partsCfgFrame
  | .cfgReleaseInstant .. => partsCfgReleaseInstant
  | .clockTreeSwitch .. => partsClockTreeSwitch
  | .clockSwitchDone .. => partsClockSwitchDone
  | .clockSwitchForced .. => partsClockSwitchForced
  | .memEccError .. => partsMemEccError
  | .bramScrubWriteback .. => partsBramScrubWriteback
  | .rknLateAccess .. => partsRknLateAccess
  | .start .. => partsStart
  | .arm .. => partsArm
  | .engCmdStop .. => partsEngCmdStop
  | .pause .. => partsPause
  | .engCmdResume .. => partsEngCmdResume
  | .engCmdStep .. => partsEngCmdStep
  | .engineReset .. => partsEngineReset
  | .engStartEffect .. => partsEngStartEffect
  | .engPermitGrant .. => partsEngPermitGrant
  | .engPermitTimeout .. => partsEngPermitTimeout
  | .engTrigger .. => partsEngTrigger
  | .engNop .. => partsEngNop
  | .loop_ .. => partsLoop
  | .jmp .. => partsJmp
  | .br .. => partsBr
  | .call .. => partsCall
  | .ret .. => partsRet
  | .wait_ .. => partsWait
  | .waitEnd .. => partsWaitEnd
  | .drain .. => partsDrain
  | .drainDone .. => partsDrainDone
  | .sync_ .. => partsSync
  | .syncBroadcastSeen .. => partsSyncBroadcastSeen
  | .waitt .. => partsWaitt
  | .waittTrigger .. => partsWaittTrigger
  | .setl .. => partsSetl
  | .strm .. => partsStrm
  | .rate .. => partsRate
  | .ratePermitGrant .. => partsRatePermitGrant
  | .evt .. => partsEvt
  | .halt .. => partsHalt
  | .engTimerExpiry .. => partsEngTimerExpiry
  | .engStepUnstall .. => partsEngStepUnstall
  | .streamFillDone .. => partsStreamFillDone
  | .streamReadIssue .. => partsStreamReadIssue
  | .streamReadComplete .. => partsStreamReadComplete
  | .fixPointApply .. => partsFixPointApply
  | .fixSet .. => partsFixSet
  | .fixClr .. => partsFixClr
  | .fixCfgWrite .. => partsFixCfgWrite
  | .fixRebase => partsFixRebase
  | .txSlot .. => partsTxSlot
  | .straightPathLaunch .. => partsStraightPathLaunch
  | .rxWordCompare .. => partsRxWordCompare
  | .vpVectorTaken .. => partsVpVectorTaken
  | .rpResponse .. => partsRpResponse
  | .responseTimeout .. => partsResponseTimeout
  | .expectationResolve .. => partsExpectationResolve
  | .failRingWrite .. => partsFailRingWrite
  | .ringErrRestart .. => partsRingErrRestart
  | .fcRingRdWrite .. => partsFcRingRdWrite
  | .fcLanesWrite .. => partsFcLanesWrite
  | .bitmapClear .. => partsBitmapClear
  | .bitmapClearDone .. => partsBitmapClearDone
  | .fcCountersClear .. => partsFcCountersClear
  | .niSend .. => partsNiSend
  | .routerHeadFlit .. => partsRouterHeadFlit
  | .niBounceReceive .. => partsNiBounceReceive
  | .relayForward .. => partsRelayForward
  | .niDeliver .. => partsNiDeliver
  | .packSend .. => partsPackSend
  | .niResponseTimeout .. => partsNiResponseTimeout
  | .stallBounce .. => partsStallBounce
  | .portDrain .. => partsPortDrain
  | .portDrained .. => partsPortDrained
  | .drainTimeoutBounce .. => partsDrainTimeoutBounce
  | .routerPortConfig .. => partsRouterPortConfig
  | .bearingRead .. => partsBearingRead
  | .bearingWrite .. => partsBearingWrite
  | .bearingInvalidate .. => partsBearingInvalidate
  | .linkTrainingStart .. => partsLinkTrainingStart
  | .linkTrainingDone .. => partsLinkTrainingDone
  | .linkTrainingPermitTimeout .. => partsLinkTrainingPermitTimeout
  | .linkTrainingRetry .. => partsLinkTrainingRetry
  | .gkRoleWrite .. => partsGkRoleWrite
  | .linkFrameReceive .. => partsLinkFrameReceive
  | .linkReplay .. => partsLinkReplay
  | .poolRetrain .. => partsPoolRetrain
  | .laneHealthInterval .. => partsLaneHealthInterval
  | .spareSwap .. => partsSpareSwap
  | .spareRejoin .. => partsSpareRejoin
  | .crossingSpareSwap .. => partsCrossingSpareSwap
  | .crossingSwitchInstant .. => partsCrossingSwitchInstant
  | .groupRetire .. => partsGroupRetire
  | .groupConversion .. => partsGroupConversion
  | .gkCmdSwap .. => partsGkCmdSwap
  | .gkCmdRetire .. => partsGkCmdRetire
  | .crossingFrameReceive .. => partsCrossingFrameReceive
  | .rcAccess .. => partsRcAccess
  | .crds .. => partsCrds
  | .crdx .. => partsCrdx
  | .cupg .. => partsCupg
  | .cevc .. => partsCevc
  | .hsni .. => partsHsni
  | .hsns .. => partsHsns
  | .cack .. => partsCack
  | .datax .. => partsDatax
  | .dirtyEviction .. => partsDirtyEviction
  | .rcFlushRange .. => partsRcFlushRange
  | .rcCleanRange .. => partsRcCleanRange
  | .rcInvalidateReadMostly .. => partsRcInvalidateReadMostly
  | .rcFlushAll .. => partsRcFlushAll
  | .rcCmdDone .. => partsRcCmdDone
  | .rcwEnable .. => partsRcwEnable
  | .rcwDisable .. => partsRcwDisable
  | .rcwDisableDone .. => partsRcwDisableDone
  | .homeUnreachable .. => partsHomeUnreachable
  | .homeRecallDone .. => partsHomeRecallDone
  | .rcLossTimeout .. => partsRcLossTimeout
  | .hbmFrontPipeEntry .. => partsHbmFrontPipeEntry
  | .hbmSchedule .. => partsHbmSchedule
  | .hbmReadComplete .. => partsHbmReadComplete
  | .hbmRefreshDue .. => partsHbmRefreshDue
  | .hbmTempReading .. => partsHbmTempReading
  | .hbmRefreshBurst .. => partsHbmRefreshBurst
  | .refreshBurstPermitTimeout .. => partsRefreshBurstPermitTimeout
  | .hbmTrainingStart .. => partsHbmTrainingStart
  | .hbmTrainPermitTimeout .. => partsHbmTrainPermitTimeout
  | .hbmTrainingDone .. => partsHbmTrainingDone
  | .hbmTrainingFail .. => partsHbmTrainingFail
  | .zeroFillDone .. => partsZeroFillDone
  | .hbmTrainRetry .. => partsHbmTrainRetry
  | .hbmRetrainPeriod .. => partsHbmRetrainPeriod
  | .hbmCmdRetrain .. => partsHbmCmdRetrain
  | .hbmChannelRetrainDone .. => partsHbmChannelRetrainDone
  | .hbmCmdSelfRefresh .. => partsHbmCmdSelfRefresh
  | .hbmCmdSelfRefreshExit .. => partsHbmCmdSelfRefreshExit
  | .selfRefreshEntered .. => partsSelfRefreshEntered
  | .selfRefreshExitGrant .. => partsSelfRefreshExitGrant
  | .hbmPowerDown .. => partsHbmPowerDown
  | .hbmScrubBurst .. => partsHbmScrubBurst
  | .hbmIlvWrite .. => partsHbmIlvWrite
  | .hbmHashWrite .. => partsHbmHashWrite
  | .sealClaim .. => partsSealClaim
  | .enable .. => partsEnable
  | .disable .. => partsDisable
  | .rekey .. => partsRekey
  | .sealResume .. => partsSealResume
  | .sealKeyGenerate .. => partsSealKeyGenerate
  | .sealKeyImport .. => partsSealKeyImport
  | .sealKeyErase .. => partsSealKeyErase
  | .sealKeyDone .. => partsSealKeyDone
  | .sweepPermitGrant .. => partsSweepPermitGrant
  | .sweepPermitTimeout .. => partsSweepPermitTimeout
  | .sweepChunk .. => partsSweepChunk
  | .sealRateWrite .. => partsSealRateWrite
  | .nodeLost .. => partsNodeLost
  | .repairPermitRetry .. => partsRepairPermitRetry
  | .counterCacheWriteback .. => partsCounterCacheWriteback
  | .leafReencryptDone .. => partsLeafReencryptDone
  | .bundleEnable .. => partsBundleEnable
  | .bundleDisable .. => partsBundleDisable
  | .bundleBringup .. => partsBundleBringup
  | .bundlePllLockCheck .. => partsBundlePllLockCheck
  | .bundleTrainDecision .. => partsBundleTrainDecision
  | .bundleRetrain .. => partsBundleRetrain
  | .bundlePermitTimeout .. => partsBundlePermitTimeout
  | .laneCtlWrite .. => partsLaneCtlWrite
  | .loopMeasure .. => partsLoopMeasure
  | .loopMeasureDone .. => partsLoopMeasureDone
  | .laneInjectError .. => partsLaneInjectError
  | .laneSlip .. => partsLaneSlip
  | .laneTimingWrite .. => partsLaneTimingWrite
  | .lossOfSignal .. => partsLossOfSignal
  | .lossOfLock .. => partsLossOfLock
  | .lossConditionEnd .. => partsLossConditionEnd
  | .lanePortRxWord .. => partsLanePortRxWord
  | .trunkEnable .. => partsTrunkEnable
  | .trunkAdapt .. => partsTrunkAdapt
  | .trunkConverged .. => partsTrunkConverged
  | .trunkNoSignal .. => partsTrunkNoSignal
  | .trunkReadapt .. => partsTrunkReadapt
  | .trunkInjectError .. => partsTrunkInjectError
  | .trunkPermitTimeout .. => partsTrunkPermitTimeout
  | .trFfeWrite .. => partsTrFfeWrite
  | .captureBeat .. => partsCaptureBeat
  | .dbSqTail .. => partsDbSqTail
  | .dbCqHead .. => partsDbCqHead
  | .qpEnable .. => partsQpEnable
  | .qpDisable .. => partsQpDisable
  | .descriptorFetch .. => partsDescriptorFetch
  | .nop .. => partsNop
  | .h2d .. => partsH2d
  | .d2h .. => partsD2h
  | .d2d .. => partsD2d
  | .dmaLineComplete .. => partsDmaLineComplete
  | .engLoad .. => partsEngLoad
  | .engStart .. => partsEngStart
  | .engStop .. => partsEngStop
  | .failDrain .. => partsFailDrain
  | .cfgLoad .. => partsCfgLoad
  | .cfgRecord .. => partsCfgRecord
  | .imageVerifyEnd .. => partsImageVerifyEnd
  | .laneCmd .. => partsLaneCmd
  | .timeRead .. => partsTimeRead
  | .timeStep .. => partsTimeStep
  | .timeAdjust .. => partsTimeAdjust
  | .fence .. => partsFence
  | .mailbox .. => partsMailbox
  | .mailboxTimeout .. => partsMailboxTimeout
  | .completionWrite .. => partsCompletionWrite
  | .msixHoldoffExpiry .. => partsMsixHoldoffExpiry
  | .bar4Read .. => partsBar4Read
  | .bar4Write .. => partsBar4Write
  | .functionLevelReset .. => partsFunctionLevelReset
  | .flrDone .. => partsFlrDone
  | .busMasterDisable .. => partsBusMasterDisable
  | .pcieLinkDown .. => partsPcieLinkDown
  | .step_ .. => partsStep
  | .set_ .. => partsSet
  | .stepApply => partsStepApply
  | .sxAdjWrite .. => partsSxAdjWrite
  | .sxCtlWrite .. => partsSxCtlWrite
  | .ptpRxEvent .. => partsPtpRxEvent
  | .ptpTxEvent .. => partsPtpTxEvent
  | .tcForward .. => partsTcForward
  | .residenceTimeout => partsResidenceTimeout
  | .sxTxqPop .. => partsSxTxqPop
  | .servoMeasurement .. => partsServoMeasurement
  | .ppsPulse => partsPpsPulse
  | .ppsEnd => partsPpsEnd
  | .clkSourceSelect .. => partsClkSourceSelect
  | .glideDone => partsGlideDone
  | .clockSourceFail .. => partsClockSourceFail
  | .oscErrMeasure .. => partsOscErrMeasure
  | .clockAutoReturn => partsClockAutoReturn
  | .clkSrcReturn .. => partsClkSrcReturn
  | .clkSscWrite .. => partsClkSscWrite
  | .clkoutSwitch .. => partsClkoutSwitch
  | .spnSynWrite .. => partsSpnSynWrite
  | .fsynFreqWrite .. => partsFsynFreqWrite
  | .synthGlideStep .. => partsSynthGlideStep
  | .vselSequence .. => partsVselSequence
  | .railSettleCheck .. => partsRailSettleCheck
  | .synthRiseGrant .. => partsSynthRiseGrant
  | .pwrEnterP1 .. => partsPwrEnterP1
  | .pwrEnterP2 .. => partsPwrEnterP2
  | .pwrEnterP3 .. => partsPwrEnterP3
  | .pwrReturnP0 .. => partsPwrReturnP0
  | .pwrTransitionDone .. => partsPwrTransitionDone
  | .permitRequest .. => partsPermitRequest
  | .permitGrant .. => partsPermitGrant
  | .permitReturn .. => partsPermitReturn
  | .stepPermitReturn .. => partsStepPermitReturn
  | .permitTimeout .. => partsPermitTimeout
  | .powerOnReset => partsPowerOnReset
  | .packageReset .. => partsPackageReset
  | .bootStageComplete .. => partsBootStageComplete
  | .dieRailAbsent .. => partsDieRailAbsent
  | .dieRelease .. => partsDieRelease
  | .selfTestDone .. => partsSelfTestDone
  | .dieReleaseDone .. => partsDieReleaseDone
  | .dieStartFail .. => partsDieStartFail
  | .cfgAutoload .. => partsCfgAutoload
  | .rstUnlock .. => partsRstUnlock
  | .hubWarmReset .. => partsHubWarmReset
  | .plannedDieReset .. => partsPlannedDieReset
  | .dieStart .. => partsDieStart
  | .dieLost .. => partsDieLost
  | .dieClockLost .. => partsDieClockLost
  | .dieClockRestored .. => partsDieClockRestored
  | .dieAutoRestart .. => partsDieAutoRestart
  | .railFault .. => partsRailFault
  | .telemetrySample .. => partsTelemetrySample
  | .thermtripRelease => partsThermtripRelease
  | .lifeHoursUpdate .. => partsLifeHoursUpdate
  | .configScrubFrame .. => partsConfigScrubFrame
  | .attest .. => partsAttest
  | .getCerts .. => partsGetCerts
  | .sessionOpen .. => partsSessionOpen
  | .keyDeposit .. => partsKeyDeposit
  | .sessionClose .. => partsSessionClose
  | .sessionIdleTimeout .. => partsSessionIdleTimeout
  | .counterCommit .. => partsCounterCommit
  | .takeOwnership .. => partsTakeOwnership
  | .revokeOwnerKey .. => partsRevokeOwnerKey
  | .retire .. => partsRetire
  | .trngHealthFail => partsTrngHealthFail
  | .debugChallenge .. => partsDebugChallenge
  | .debugCertSubmit .. => partsDebugCertSubmit
  | .debugPasswordSubmit .. => partsDebugPasswordSubmit
  | .recoveryBegin .. => partsRecoveryBegin
  | .recoveryData .. => partsRecoveryData
  | .recoveryEnd .. => partsRecoveryEnd
  | .helmCoreRelease .. => partsHelmCoreRelease
  | .helmCoreStart .. => partsHelmCoreStart
  | .helmCoreReset .. => partsHelmCoreReset
  | .fabricIrqLine .. => partsFabricIrqLine
  | .helmIcSet .. => partsHelmIcSet
  | .helmIcClaim .. => partsHelmIcClaim
  | .helmIcComplete .. => partsHelmIcComplete
  | .helmNmi .. => partsHelmNmi
  | .dbgMonitorHalt .. => partsDbgMonitorHalt
  | .dbgHardHalt .. => partsDbgHardHalt
  | .dbgHardRelease .. => partsDbgHardRelease
  | .monitorEntry .. => partsMonitorEntry
  | .monitorExit .. => partsMonitorExit
  | .dbgRegRead .. => partsDbgRegRead
  | .dbgRegWrite .. => partsDbgRegWrite
  | .wdtKick .. => partsWdtKick
  | .wdtUnlock .. => partsWdtUnlock
  | .wdtExpiry .. => partsWdtExpiry
  | .patchWrite .. => partsPatchWrite
  | .flashSectorRewritten .. => partsFlashSectorRewritten
  | .helmMailboxGo .. => partsHelmMailboxGo
  | .helmMailboxDone .. => partsHelmMailboxDone
  | .pelPeek .. => partsPelPeek
  | .pelConsume .. => partsPelConsume
  | .pelRegWrite .. => partsPelRegWrite
  | .pelMemRead .. => partsPelMemRead
  | .pelMemWrite .. => partsPelMemWrite
  | .pelAccessDone .. => partsPelAccessDone
  | .pelRst .. => partsPelRst
  | .idcode => partsIdcode
  | .samplePreload .. => partsSamplePreload
  | .extest .. => partsExtest
  | .extestPulse .. => partsExtestPulse
  | .extestTrain .. => partsExtestTrain
  | .clamp => partsClamp
  | .highz => partsHighz
  | .pelReg .. => partsPelReg
  | .bypass .. => partsBypass
  | .evtJournalRead .. => partsEvtJournalRead
  | .telemetryRead .. => partsTelemetryRead
  | .repairRead .. => partsRepairRead
  | .flashErase .. => partsFlashErase
  | .flashWrite .. => partsFlashWrite
  | .dirWrite .. => partsDirWrite
  | .scrubNow .. => partsScrubNow
  | .resetRelease .. => partsResetRelease
  | .crossingFramesMissing .. => partsCrossingFramesMissing
  | .checkerLock .. => partsCheckerLock
  | .checkerLockLoss .. => partsCheckerLockLoss
  | .ptpPortStateChange .. => partsPtpPortStateChange
  | .pcieLinkUp .. => partsPcieLinkUp
  | .trngHealthRecover => partsTrngHealthRecover
  | .trngWaitTimeout .. => partsTrngWaitTimeout

/-- The register fields that a command may change. -/
def changedFields : Instr → FSet
  | .registerWrite .. => fieldsRegisterWrite
  | .rcFieldRead .. => fieldsRcFieldRead
  | .engStepsLoRead .. => fieldsEngStepsLoRead
  | .fcCmpLoRead .. => fieldsFcCmpLoRead
  | .sealHwmLoRead .. => fieldsSealHwmLoRead
  | .bitLoRead .. => fieldsBitLoRead
  | .sxTimeFracRead .. => fieldsSxTimeFracRead
  | .sxMeasOfsLoRead .. => fieldsSxMeasOfsLoRead
  | .blockErrorReport .. => fieldsBlockErrorReport
  | .overflowEvent .. => fieldsOverflowEvent
  | .eventLogAppend .. => fieldsEventLogAppend
  | .evtAckWrite .. => fieldsEvtAckWrite
  | .journalWrite => fieldsJournalWrite
  | .sectorReset .. => fieldsSectorReset
  | .sectorReleaseRequest .. => fieldsSectorReleaseRequest
  | .sectorRelease .. => fieldsSectorRelease
  | .sectorReleaseTimeout .. => fieldsSectorReleaseTimeout
  | .migrate .. => fieldsMigrate
  | .migrationGated .. => fieldsMigrationGated
  | .migrationCaptureDone .. => fieldsMigrationCaptureDone
  | .migrationRewriteDone .. => fieldsMigrationRewriteDone
  | .migrationRestoreDone .. => fieldsMigrationRestoreDone
  | .migrationRestart .. => fieldsMigrationRestart
  | .migrationPermitTimeout .. => fieldsMigrationPermitTimeout
  | .columnDefectFound .. => fieldsColumnDefectFound
  | .spanContention .. => fieldsSpanContention
  | .cfgFrame .. => fieldsCfgFrame
  | .cfgReleaseInstant .. => fieldsCfgReleaseInstant
  | .clockTreeSwitch .. => fieldsClockTreeSwitch
  | .clockSwitchDone .. => fieldsClockSwitchDone
  | .clockSwitchForced .. => fieldsClockSwitchForced
  | .memEccError .. => fieldsMemEccError
  | .bramScrubWriteback .. => fieldsBramScrubWriteback
  | .rknLateAccess .. => fieldsRknLateAccess
  | .start .. => fieldsStart
  | .arm .. => fieldsArm
  | .engCmdStop .. => fieldsEngCmdStop
  | .pause .. => fieldsPause
  | .engCmdResume .. => fieldsEngCmdResume
  | .engCmdStep .. => fieldsEngCmdStep
  | .engineReset .. => fieldsEngineReset
  | .engStartEffect .. => fieldsEngStartEffect
  | .engPermitGrant .. => fieldsEngPermitGrant
  | .engPermitTimeout .. => fieldsEngPermitTimeout
  | .engTrigger .. => fieldsEngTrigger
  | .engNop .. => fieldsEngNop
  | .loop_ .. => fieldsLoop
  | .jmp .. => fieldsJmp
  | .br .. => fieldsBr
  | .call .. => fieldsCall
  | .ret .. => fieldsRet
  | .wait_ .. => fieldsWait
  | .waitEnd .. => fieldsWaitEnd
  | .drain .. => fieldsDrain
  | .drainDone .. => fieldsDrainDone
  | .sync_ .. => fieldsSync
  | .syncBroadcastSeen .. => fieldsSyncBroadcastSeen
  | .waitt .. => fieldsWaitt
  | .waittTrigger .. => fieldsWaittTrigger
  | .setl .. => fieldsSetl
  | .strm .. => fieldsStrm
  | .rate .. => fieldsRate
  | .ratePermitGrant .. => fieldsRatePermitGrant
  | .evt .. => fieldsEvt
  | .halt .. => fieldsHalt
  | .engTimerExpiry .. => fieldsEngTimerExpiry
  | .engStepUnstall .. => fieldsEngStepUnstall
  | .streamFillDone .. => fieldsStreamFillDone
  | .streamReadIssue .. => fieldsStreamReadIssue
  | .streamReadComplete .. => fieldsStreamReadComplete
  | .fixPointApply .. => fieldsFixPointApply
  | .fixSet .. => fieldsFixSet
  | .fixClr .. => fieldsFixClr
  | .fixCfgWrite .. => fieldsFixCfgWrite
  | .fixRebase => fieldsFixRebase
  | .txSlot .. => fieldsTxSlot
  | .straightPathLaunch .. => fieldsStraightPathLaunch
  | .rxWordCompare .. => fieldsRxWordCompare
  | .vpVectorTaken .. => fieldsVpVectorTaken
  | .rpResponse .. => fieldsRpResponse
  | .responseTimeout .. => fieldsResponseTimeout
  | .expectationResolve .. => fieldsExpectationResolve
  | .failRingWrite .. => fieldsFailRingWrite
  | .ringErrRestart .. => fieldsRingErrRestart
  | .fcRingRdWrite .. => fieldsFcRingRdWrite
  | .fcLanesWrite .. => fieldsFcLanesWrite
  | .bitmapClear .. => fieldsBitmapClear
  | .bitmapClearDone .. => fieldsBitmapClearDone
  | .fcCountersClear .. => fieldsFcCountersClear
  | .niSend .. => fieldsNiSend
  | .routerHeadFlit .. => fieldsRouterHeadFlit
  | .niBounceReceive .. => fieldsNiBounceReceive
  | .relayForward .. => fieldsRelayForward
  | .niDeliver .. => fieldsNiDeliver
  | .packSend .. => fieldsPackSend
  | .niResponseTimeout .. => fieldsNiResponseTimeout
  | .stallBounce .. => fieldsStallBounce
  | .portDrain .. => fieldsPortDrain
  | .portDrained .. => fieldsPortDrained
  | .drainTimeoutBounce .. => fieldsDrainTimeoutBounce
  | .routerPortConfig .. => fieldsRouterPortConfig
  | .bearingRead .. => fieldsBearingRead
  | .bearingWrite .. => fieldsBearingWrite
  | .bearingInvalidate .. => fieldsBearingInvalidate
  | .linkTrainingStart .. => fieldsLinkTrainingStart
  | .linkTrainingDone .. => fieldsLinkTrainingDone
  | .linkTrainingPermitTimeout .. => fieldsLinkTrainingPermitTimeout
  | .linkTrainingRetry .. => fieldsLinkTrainingRetry
  | .gkRoleWrite .. => fieldsGkRoleWrite
  | .linkFrameReceive .. => fieldsLinkFrameReceive
  | .linkReplay .. => fieldsLinkReplay
  | .poolRetrain .. => fieldsPoolRetrain
  | .laneHealthInterval .. => fieldsLaneHealthInterval
  | .spareSwap .. => fieldsSpareSwap
  | .spareRejoin .. => fieldsSpareRejoin
  | .crossingSpareSwap .. => fieldsCrossingSpareSwap
  | .crossingSwitchInstant .. => fieldsCrossingSwitchInstant
  | .groupRetire .. => fieldsGroupRetire
  | .groupConversion .. => fieldsGroupConversion
  | .gkCmdSwap .. => fieldsGkCmdSwap
  | .gkCmdRetire .. => fieldsGkCmdRetire
  | .crossingFrameReceive .. => fieldsCrossingFrameReceive
  | .rcAccess .. => fieldsRcAccess
  | .crds .. => fieldsCrds
  | .crdx .. => fieldsCrdx
  | .cupg .. => fieldsCupg
  | .cevc .. => fieldsCevc
  | .hsni .. => fieldsHsni
  | .hsns .. => fieldsHsns
  | .cack .. => fieldsCack
  | .datax .. => fieldsDatax
  | .dirtyEviction .. => fieldsDirtyEviction
  | .rcFlushRange .. => fieldsRcFlushRange
  | .rcCleanRange .. => fieldsRcCleanRange
  | .rcInvalidateReadMostly .. => fieldsRcInvalidateReadMostly
  | .rcFlushAll .. => fieldsRcFlushAll
  | .rcCmdDone .. => fieldsRcCmdDone
  | .rcwEnable .. => fieldsRcwEnable
  | .rcwDisable .. => fieldsRcwDisable
  | .rcwDisableDone .. => fieldsRcwDisableDone
  | .homeUnreachable .. => fieldsHomeUnreachable
  | .homeRecallDone .. => fieldsHomeRecallDone
  | .rcLossTimeout .. => fieldsRcLossTimeout
  | .hbmFrontPipeEntry .. => fieldsHbmFrontPipeEntry
  | .hbmSchedule .. => fieldsHbmSchedule
  | .hbmReadComplete .. => fieldsHbmReadComplete
  | .hbmRefreshDue .. => fieldsHbmRefreshDue
  | .hbmTempReading .. => fieldsHbmTempReading
  | .hbmRefreshBurst .. => fieldsHbmRefreshBurst
  | .refreshBurstPermitTimeout .. => fieldsRefreshBurstPermitTimeout
  | .hbmTrainingStart .. => fieldsHbmTrainingStart
  | .hbmTrainPermitTimeout .. => fieldsHbmTrainPermitTimeout
  | .hbmTrainingDone .. => fieldsHbmTrainingDone
  | .hbmTrainingFail .. => fieldsHbmTrainingFail
  | .zeroFillDone .. => fieldsZeroFillDone
  | .hbmTrainRetry .. => fieldsHbmTrainRetry
  | .hbmRetrainPeriod .. => fieldsHbmRetrainPeriod
  | .hbmCmdRetrain .. => fieldsHbmCmdRetrain
  | .hbmChannelRetrainDone .. => fieldsHbmChannelRetrainDone
  | .hbmCmdSelfRefresh .. => fieldsHbmCmdSelfRefresh
  | .hbmCmdSelfRefreshExit .. => fieldsHbmCmdSelfRefreshExit
  | .selfRefreshEntered .. => fieldsSelfRefreshEntered
  | .selfRefreshExitGrant .. => fieldsSelfRefreshExitGrant
  | .hbmPowerDown .. => fieldsHbmPowerDown
  | .hbmScrubBurst .. => fieldsHbmScrubBurst
  | .hbmIlvWrite .. => fieldsHbmIlvWrite
  | .hbmHashWrite .. => fieldsHbmHashWrite
  | .sealClaim .. => fieldsSealClaim
  | .enable .. => fieldsEnable
  | .disable .. => fieldsDisable
  | .rekey .. => fieldsRekey
  | .sealResume .. => fieldsSealResume
  | .sealKeyGenerate .. => fieldsSealKeyGenerate
  | .sealKeyImport .. => fieldsSealKeyImport
  | .sealKeyErase .. => fieldsSealKeyErase
  | .sealKeyDone .. => fieldsSealKeyDone
  | .sweepPermitGrant .. => fieldsSweepPermitGrant
  | .sweepPermitTimeout .. => fieldsSweepPermitTimeout
  | .sweepChunk .. => fieldsSweepChunk
  | .sealRateWrite .. => fieldsSealRateWrite
  | .nodeLost .. => fieldsNodeLost
  | .repairPermitRetry .. => fieldsRepairPermitRetry
  | .counterCacheWriteback .. => fieldsCounterCacheWriteback
  | .leafReencryptDone .. => fieldsLeafReencryptDone
  | .bundleEnable .. => fieldsBundleEnable
  | .bundleDisable .. => fieldsBundleDisable
  | .bundleBringup .. => fieldsBundleBringup
  | .bundlePllLockCheck .. => fieldsBundlePllLockCheck
  | .bundleTrainDecision .. => fieldsBundleTrainDecision
  | .bundleRetrain .. => fieldsBundleRetrain
  | .bundlePermitTimeout .. => fieldsBundlePermitTimeout
  | .laneCtlWrite .. => fieldsLaneCtlWrite
  | .loopMeasure .. => fieldsLoopMeasure
  | .loopMeasureDone .. => fieldsLoopMeasureDone
  | .laneInjectError .. => fieldsLaneInjectError
  | .laneSlip .. => fieldsLaneSlip
  | .laneTimingWrite .. => fieldsLaneTimingWrite
  | .lossOfSignal .. => fieldsLossOfSignal
  | .lossOfLock .. => fieldsLossOfLock
  | .lossConditionEnd .. => fieldsLossConditionEnd
  | .lanePortRxWord .. => fieldsLanePortRxWord
  | .trunkEnable .. => fieldsTrunkEnable
  | .trunkAdapt .. => fieldsTrunkAdapt
  | .trunkConverged .. => fieldsTrunkConverged
  | .trunkNoSignal .. => fieldsTrunkNoSignal
  | .trunkReadapt .. => fieldsTrunkReadapt
  | .trunkInjectError .. => fieldsTrunkInjectError
  | .trunkPermitTimeout .. => fieldsTrunkPermitTimeout
  | .trFfeWrite .. => fieldsTrFfeWrite
  | .captureBeat .. => fieldsCaptureBeat
  | .dbSqTail .. => fieldsDbSqTail
  | .dbCqHead .. => fieldsDbCqHead
  | .qpEnable .. => fieldsQpEnable
  | .qpDisable .. => fieldsQpDisable
  | .descriptorFetch .. => fieldsDescriptorFetch
  | .nop .. => fieldsNop
  | .h2d .. => fieldsH2d
  | .d2h .. => fieldsD2h
  | .d2d .. => fieldsD2d
  | .dmaLineComplete .. => fieldsDmaLineComplete
  | .engLoad .. => fieldsEngLoad
  | .engStart .. => fieldsEngStart
  | .engStop .. => fieldsEngStop
  | .failDrain .. => fieldsFailDrain
  | .cfgLoad .. => fieldsCfgLoad
  | .cfgRecord .. => fieldsCfgRecord
  | .imageVerifyEnd .. => fieldsImageVerifyEnd
  | .laneCmd .. => fieldsLaneCmd
  | .timeRead .. => fieldsTimeRead
  | .timeStep .. => fieldsTimeStep
  | .timeAdjust .. => fieldsTimeAdjust
  | .fence .. => fieldsFence
  | .mailbox .. => fieldsMailbox
  | .mailboxTimeout .. => fieldsMailboxTimeout
  | .completionWrite .. => fieldsCompletionWrite
  | .msixHoldoffExpiry .. => fieldsMsixHoldoffExpiry
  | .bar4Read .. => fieldsBar4Read
  | .bar4Write .. => fieldsBar4Write
  | .functionLevelReset .. => fieldsFunctionLevelReset
  | .flrDone .. => fieldsFlrDone
  | .busMasterDisable .. => fieldsBusMasterDisable
  | .pcieLinkDown .. => fieldsPcieLinkDown
  | .step_ .. => fieldsStep
  | .set_ .. => fieldsSet
  | .stepApply => fieldsStepApply
  | .sxAdjWrite .. => fieldsSxAdjWrite
  | .sxCtlWrite .. => fieldsSxCtlWrite
  | .ptpRxEvent .. => fieldsPtpRxEvent
  | .ptpTxEvent .. => fieldsPtpTxEvent
  | .tcForward .. => fieldsTcForward
  | .residenceTimeout => fieldsResidenceTimeout
  | .sxTxqPop .. => fieldsSxTxqPop
  | .servoMeasurement .. => fieldsServoMeasurement
  | .ppsPulse => fieldsPpsPulse
  | .ppsEnd => fieldsPpsEnd
  | .clkSourceSelect .. => fieldsClkSourceSelect
  | .glideDone => fieldsGlideDone
  | .clockSourceFail .. => fieldsClockSourceFail
  | .oscErrMeasure .. => fieldsOscErrMeasure
  | .clockAutoReturn => fieldsClockAutoReturn
  | .clkSrcReturn .. => fieldsClkSrcReturn
  | .clkSscWrite .. => fieldsClkSscWrite
  | .clkoutSwitch .. => fieldsClkoutSwitch
  | .spnSynWrite .. => fieldsSpnSynWrite
  | .fsynFreqWrite .. => fieldsFsynFreqWrite
  | .synthGlideStep .. => fieldsSynthGlideStep
  | .vselSequence .. => fieldsVselSequence
  | .railSettleCheck .. => fieldsRailSettleCheck
  | .synthRiseGrant .. => fieldsSynthRiseGrant
  | .pwrEnterP1 .. => fieldsPwrEnterP1
  | .pwrEnterP2 .. => fieldsPwrEnterP2
  | .pwrEnterP3 .. => fieldsPwrEnterP3
  | .pwrReturnP0 .. => fieldsPwrReturnP0
  | .pwrTransitionDone .. => fieldsPwrTransitionDone
  | .permitRequest .. => fieldsPermitRequest
  | .permitGrant .. => fieldsPermitGrant
  | .permitReturn .. => fieldsPermitReturn
  | .stepPermitReturn .. => fieldsStepPermitReturn
  | .permitTimeout .. => fieldsPermitTimeout
  | .powerOnReset => fieldsPowerOnReset
  | .packageReset .. => fieldsPackageReset
  | .bootStageComplete .. => fieldsBootStageComplete
  | .dieRailAbsent .. => fieldsDieRailAbsent
  | .dieRelease .. => fieldsDieRelease
  | .selfTestDone .. => fieldsSelfTestDone
  | .dieReleaseDone .. => fieldsDieReleaseDone
  | .dieStartFail .. => fieldsDieStartFail
  | .cfgAutoload .. => fieldsCfgAutoload
  | .rstUnlock .. => fieldsRstUnlock
  | .hubWarmReset .. => fieldsHubWarmReset
  | .plannedDieReset .. => fieldsPlannedDieReset
  | .dieStart .. => fieldsDieStart
  | .dieLost .. => fieldsDieLost
  | .dieClockLost .. => fieldsDieClockLost
  | .dieClockRestored .. => fieldsDieClockRestored
  | .dieAutoRestart .. => fieldsDieAutoRestart
  | .railFault .. => fieldsRailFault
  | .telemetrySample .. => fieldsTelemetrySample
  | .thermtripRelease => fieldsThermtripRelease
  | .lifeHoursUpdate .. => fieldsLifeHoursUpdate
  | .configScrubFrame .. => fieldsConfigScrubFrame
  | .attest .. => fieldsAttest
  | .getCerts .. => fieldsGetCerts
  | .sessionOpen .. => fieldsSessionOpen
  | .keyDeposit .. => fieldsKeyDeposit
  | .sessionClose .. => fieldsSessionClose
  | .sessionIdleTimeout .. => fieldsSessionIdleTimeout
  | .counterCommit .. => fieldsCounterCommit
  | .takeOwnership .. => fieldsTakeOwnership
  | .revokeOwnerKey .. => fieldsRevokeOwnerKey
  | .retire .. => fieldsRetire
  | .trngHealthFail => fieldsTrngHealthFail
  | .debugChallenge .. => fieldsDebugChallenge
  | .debugCertSubmit .. => fieldsDebugCertSubmit
  | .debugPasswordSubmit .. => fieldsDebugPasswordSubmit
  | .recoveryBegin .. => fieldsRecoveryBegin
  | .recoveryData .. => fieldsRecoveryData
  | .recoveryEnd .. => fieldsRecoveryEnd
  | .helmCoreRelease .. => fieldsHelmCoreRelease
  | .helmCoreStart .. => fieldsHelmCoreStart
  | .helmCoreReset .. => fieldsHelmCoreReset
  | .fabricIrqLine .. => fieldsFabricIrqLine
  | .helmIcSet .. => fieldsHelmIcSet
  | .helmIcClaim .. => fieldsHelmIcClaim
  | .helmIcComplete .. => fieldsHelmIcComplete
  | .helmNmi .. => fieldsHelmNmi
  | .dbgMonitorHalt .. => fieldsDbgMonitorHalt
  | .dbgHardHalt .. => fieldsDbgHardHalt
  | .dbgHardRelease .. => fieldsDbgHardRelease
  | .monitorEntry .. => fieldsMonitorEntry
  | .monitorExit .. => fieldsMonitorExit
  | .dbgRegRead .. => fieldsDbgRegRead
  | .dbgRegWrite .. => fieldsDbgRegWrite
  | .wdtKick .. => fieldsWdtKick
  | .wdtUnlock .. => fieldsWdtUnlock
  | .wdtExpiry .. => fieldsWdtExpiry
  | .patchWrite .. => fieldsPatchWrite
  | .flashSectorRewritten .. => fieldsFlashSectorRewritten
  | .helmMailboxGo .. => fieldsHelmMailboxGo
  | .helmMailboxDone .. => fieldsHelmMailboxDone
  | .pelPeek .. => fieldsPelPeek
  | .pelConsume .. => fieldsPelConsume
  | .pelRegWrite .. => fieldsPelRegWrite
  | .pelMemRead .. => fieldsPelMemRead
  | .pelMemWrite .. => fieldsPelMemWrite
  | .pelAccessDone .. => fieldsPelAccessDone
  | .pelRst .. => fieldsPelRst
  | .idcode => fieldsIdcode
  | .samplePreload .. => fieldsSamplePreload
  | .extest .. => fieldsExtest
  | .extestPulse .. => fieldsExtestPulse
  | .extestTrain .. => fieldsExtestTrain
  | .clamp => fieldsClamp
  | .highz => fieldsHighz
  | .pelReg .. => fieldsPelReg
  | .bypass .. => fieldsBypass
  | .evtJournalRead .. => fieldsEvtJournalRead
  | .telemetryRead .. => fieldsTelemetryRead
  | .repairRead .. => fieldsRepairRead
  | .flashErase .. => fieldsFlashErase
  | .flashWrite .. => fieldsFlashWrite
  | .dirWrite .. => fieldsDirWrite
  | .scrubNow .. => fieldsScrubNow
  | .resetRelease .. => fieldsResetRelease
  | .crossingFramesMissing .. => fieldsCrossingFramesMissing
  | .checkerLock .. => fieldsCheckerLock
  | .checkerLockLoss .. => fieldsCheckerLockLoss
  | .ptpPortStateChange .. => fieldsPtpPortStateChange
  | .pcieLinkUp .. => fieldsPcieLinkUp
  | .trngHealthRecover => fieldsTrngHealthRecover
  | .trngWaitTimeout .. => fieldsTrngWaitTimeout

/-- The command may store to HBM, to the engines' windows or to the boot flash. -/
def storesMemory (c : Instr) : Bool := [Part.hbm, .poison, .win, .flash].any (changedParts c).contains

end Sys2Proof.Machine
end

