-- ==== Sys2Proof/Safety.lean ====
section
/-! DEFINITION. What statements call safe: a step that answers a next state, and the canonical form of the memories. -/

namespace Sys2Proof.Machine

/-- The outcome is the next state `t`. -/
abbrev Goes (o : Host.Outcome State Fault Refusal) (t : State) : Prop := o = .next t

/-- The outcome is some next state. -/
def Completes (o : Host.Outcome State Fault Refusal) : Prop := ∃ t, o = .next t

/-- The memories of the fabric are in their canonical form: block RAM and operand memories read 0 where nothing is listed. -/
def fabWf (b : Fab) : Bool := smWf b.ram (fun _ => 0) && smWf b.oper (fun _ => 0)

/-- The memories are in their canonical form: HBM, the engines' windows and the fabric's memories read 0 where nothing is
listed, the boot flash reads 0xFF. -/
def Memory.wf (s : State) : Bool := memWf s.hbm 0 && memWf s.win 0 && memWf s.flash 0xFF && fabWf s.fab

/-- What a key of the register table reads as where it is not listed. -/
def regDefault : Key → Nat
  | k :: i => match Fld.ofIdx k with
    | some f => f.reset i
    | none => 0
  | [] => 0

/-- An entry of the register table belongs to a field and fits its width. -/
def regFits (e : Key × Nat) : Bool :=
  match e.1 with
  | k :: _ => match Fld.ofIdx k with
    | some f => decide (e.2 < 2 ^ f.spec.width)
    | none => false
  | [] => false

/-- The register table is in its canonical form and every value listed fits its field. -/
def Registers.wf (s : State) : Bool := smWf s.regs regDefault && s.regs.all regFits

/-- The memories of two states are the same. -/
abbrev SameMemory (s t : State) : Prop := t.hbm = s.hbm ∧ t.poison = s.poison ∧ t.win = s.win ∧ t.flash = s.flash

/-- Every register field but those of the list reads the same in two states. -/
abbrev SameFields (s t : State) (l : List (Fld × List Nat)) : Prop := ∀ f i, (f, i) ∉ l → t.rd f i = s.rd f i

/-- Engine `e` is at the start of a step whose legal word `w` holds operation `op`; the step emits nothing (`KIND` 0), allows
no timer call (`Y` 0) and is not a single step of a paused engine. -/
def State.atQuietStep (s : State) (e op w : Nat) : Bool :=
  s.atStep e op && s.instrWord e (s.rd .ENG_PC_CUR [e]) == w && !illegalWord w && wKIND w == 0 && !wY w && !(s.engine e).single

/-- No open loop of engine `e` ends at its PC, and the PC is not the last address. -/
def State.noLoopEnds (s : State) (e : Nat) : Bool :=
  (s.engine e).lstack.all (fun x => x.2.2 != s.rd .ENG_PC_CUR [e]) && decide (s.rd .ENG_PC_CUR [e] < 16383)

/-- The descriptor `j` at position `n` of queue pair `q` has opcode `opc`, is valid, and may start now. -/
def State.mayStart (s : State) (q n opc : Nat) (j : Job) : Bool :=
  s.nextJob q == some (n, j) && dOPC j.d == opc && j.bad.isNone && j.pred == 1

/-- A descriptor that has ended with a status, detail and byte count. -/
def Job.ended (j : Job) (status detail bytes : Nat) : Job := { j with st := 2, status := status, detail := detail, bytes := bytes }

/-- Core `c` has set `GO` of its mailbox: `BUSY` reads 1 and an unlock of its watchdog is cancelled (R479, R482). -/
def State.asked (s : State) (c : Nat) : State := (s.relock c).wr .HELM_MBX_CTL_BUSY [c] 1

/-- The exchange at place `n` is `m`, of message `code`, from a function. -/
def State.fromFn (s : State) (n : Nat) (m : Mail) (code : Nat) : Bool :=
  s.mail[n]? == some m && decide (m.src < 8) && mailCode m.req == code

/-- The exchange at place `n` is `m`, of message `code`, from a helm core. -/
def State.fromHelm (s : State) (n : Nat) (m : Mail) (code : Nat) : Bool :=
  s.mail[n]? == some m && decide (8 ≤ m.src) && mailCode m.req == code

/-- From `s` to `t` the function that sent exchange `m` gets its reply: the bytes go to its address and its descriptor, if it
waits for an entry, has ended with OK and their number. Where the descriptor is gone nothing is sent. -/
def State.gotReply (s t : State) (m : Mail) (rst : Nat) (body : List Byte) : Bool :=
  match s.jobAt m.q m.idx with
  | none => t.out == s.out
  | some k =>
    let bs := replyBytes (mailCode m.req) rst body m.limit
    match (s.qp m.q).jobs[k]? with
    | none => false
    | some j => t.out == .hostWrite (portOf m.src) m.src m.dst (s.on .HIF_FN_CTL_RO_DATA [m.src]) bs :: s.out &&
        (dNOCMP j.d || (t.qp m.q).jobs[k]? == some (j.ended 0 0 bs.length))

/-- `LS_ERR` has recorded a first error: `VALID` reads 1 with this cause. -/
def State.hasErr (t : State) (code source : Nat) : Bool :=
  t.on .LS_ERR_VALID [] && t.rd .LS_ERR_CODE [] == code && t.rd .LS_ERR_SOURCE [] == source

/-- A command of the path's authentication registers is taken: the writer is not muted, the path reaches the block, and the
Lodestar does not work for it. -/
def State.authTaken (s : State) (p : PelSrc) : Bool :=
  !s.mute (pelWriter p) && pelReaches p && !s.on .PEL_AUTH_STAT_BUSY [pelPath p]

/-- A write of the recovery registers by `w` is taken. -/
def State.recovers (s : State) (w : Writer) : Bool :=
  !s.mute w && !s.unlocked && s.rd .BOOT_STAT_STAGE [] == 15 && recoveryWriter w

/-- A command of the path's access block is taken: the writer is not muted, the path reaches the block, no access runs. -/
def State.pelTaken (s : State) (p : PelSrc) : Bool :=
  !s.mute (pelWriter p) && pelReaches p && !s.on .PEL_STAT_BUSY [pelPath p]

/-- An access of the path runs and will end with a status and data. -/
def State.pelWill (t : State) (p : PelSrc) (status : Nat) (data : Option Nat) : Bool :=
  t.on .PEL_STAT_BUSY [pelPath p] && (t.pelRt (pelPath p)).status == status && (t.pelRt (pelPath p)).data == data

end Sys2Proof.Machine
end

