-- ==== Sys2Proof/Certificates/Slice0/Obligations.lean ====
section
/-! DEFINITION. The statements for the provers. -/

open Sys2Proof Sys2Proof.Machine

/-- A step runs the command at the front of the queue on the state with the rest of the queue. For every command c and
state s whose queue is c followed by rest, step of s answers exactly what exec of c answers on s with the queue rest.
(spec/00_scope.md) -/
def Obligations.StepRunsTheFrontCommand : Prop :=
  ∀ (c : Instr) (s : State) (rest : List Instr), s.pending = c :: rest →
    step s = exec c { s with pending := rest }

/-- With no command waiting a step is one nanosecond of time, lanes and user designs that changes no register field
and no memory (the model's choice, log entry 2). On an empty queue step answers the next state State.tick of the
state: elapsed time is one nanosecond later, every register field reads as before, the HBM, its poison, the engine
windows and the flash are the same, the queue stays empty, and of the state's parts only the local clock with the
spine's pull, the trace, the free values' counter, the stewards' queues, the lanes and trunk lanes, the sectors'
running state and the fabric change. The spec has no row for a tick, it is the model's choice of log entry 2.
(spec/12_sextant_time_unit.md, spec/02_logic_fabric.md, spec/10_channel_and_trunk_lanes.md) -/
def Obligations.EmptyQueueOneNanosecond : Prop :=
  ∀ s : State, s.pending = [] → ∃ t, step s = .next t ∧ t = s.tick ∧ t.now = s.now + 1 ∧ t.pending = [] ∧
    SameMemory s t ∧ (∀ f i, t.rd f i = s.rd f i) ∧
    ∀ p : Part, [Part.now, .local_, .spinePull, .out, .draws, .stewards, .lane, .trunk, .sec, .fab].contains p = false →
      p.same s t

/-- Every command answers a next state in every state. No command ends in a fault or a refusal, whatever its operands
and whatever the state is. Where its enabling condition does not hold the next state is the one its rules give for
that case. (spec/95_what_each_step_holds.md) -/
def Obligations.EveryCommandAnswersANextState : Prop :=
  ∀ (c : Instr) (s : State), ∃ t, exec c s = .next t

/-- Every step keeps the canonical form of the memories and of the register table, and takes one command from the
queue. If the HBM, window, flash and fabric memory contents are in their canonical form and the register table is
canonical with every value fitting its field, then after any step they are so again, and the queue is the old queue
without its front command. (spec/01_package_and_planes.md, spec/08_hbm_controller.md, spec/15_lodestar_security.md) -/
def Obligations.StepKeepsCanonicalForms : Prop :=
  ∀ s t : State, Memory.wf s = true → Registers.wf s = true → step s = .next t →
    Memory.wf t = true ∧ Registers.wf t = true ∧ t.pending = s.pending.tail

/-- The state after reset is canonical, its queue is empty and every register field reads its reset value. At
State.reset the memories and the register table have their canonical forms, no command waits, and every field of every
instance reads the reset value of its register table entry. Reset values the spec does not give are the model's
choices, named in the assumption log. (spec/00_scope.md, spec/14_bring_up_resets_and_states.md) -/
def Obligations.ResetIsCanonical : Prop :=
  Memory.wf State.reset = true ∧ Registers.wf State.reset = true ∧ State.reset.pending = [] ∧
    ∀ f i, State.reset.rd f i = f.reset i

/-- In every canonical state each register field reads a value that fits its width. If the register table is canonical
then every field of every instance reads below two to the power of its width, whether it is listed or reads its reset
value. (spec/00_scope.md) -/
def Obligations.FieldsFitTheirWidth : Prop :=
  ∀ (s : State) (f : Fld) (i : List Nat), Registers.wf s = true → s.rd f i < 2 ^ f.spec.width

/-- Every command leaves each register field outside its own table of fields unchanged. For every command c, whenever
exec of c answers a next state, every register field that changedFields c does not contain reads in every instance as
it did before. (spec/95_what_each_step_holds.md, spec/00_scope.md) -/
def Obligations.CommandsChangeOnlyTheirFields : Prop :=
  ∀ (c : Instr) (s t : State), exec c s = .next t → ∀ (f : Fld) (i : List Nat), hasFld (changedFields c) f = false →
    t.rd f i = s.rd f i

/-- Every command leaves each part of the state outside its own table of parts unchanged. For every command c,
whenever exec of c answers a next state, every part of the state (a queue, a buffer, a counter, a memory, the hidden
state of a block) that changedParts c does not list is the same as before. The waiting commands are in no table, so no
command changes them. (spec/95_what_each_step_holds.md, spec/00_scope.md) -/
def Obligations.CommandsChangeOnlyTheirParts : Prop :=
  ∀ (c : Instr) (s t : State), exec c s = .next t → ∀ p : Part, (changedParts c).contains p = false → p.same s t

/-- A command that stores nothing leaves every byte of HBM, of the engine windows and of the boot flash as it was. For
every command whose table of parts names no memory, whenever exec answers a next state, every address of HBM, of the
windows and of the boot flash reads after it what it read before, and no line's poison changes.
(spec/08_hbm_controller.md, spec/04_waypoint_engines.md, spec/16_helm_cores_and_debug.md) -/
def Obligations.CommandsThatStoreNothingKeepMemory : Prop :=
  ∀ (c : Instr) (s t : State), storesMemory c = false → exec c s = .next t →
    (∀ a, memGet t.hbm a 0 = memGet s.hbm a 0) ∧ (∀ a, memGet t.win a 0 = memGet s.win a 0) ∧
      (∀ a, memGet t.flash a 0xFF = memGet s.flash a 0xFF) ∧ t.poison = s.poison

/-- No command changes the commands that wait behind it. Whenever exec of a command answers a next state, the queue of
waiting commands in it is the queue of the state it ran on. (spec/00_scope.md) -/
def Obligations.NoCommandTouchesTheQueue : Prop :=
  ∀ (c : Instr) (s t : State), exec c s = .next t → t.pending = s.pending

/-- A steward queues each report behind the others, counts what it cannot queue, and queues the count as one overflow
event. BLOCK_ERROR_REPORT puts a report with the given code, severity, block and argument and the local time at the
end of the queue of its site while a steward's queue has fewer than 256 reports and no count is owed, and at the end
of the hub collector's queue always. On a full steward queue the queue stays and the lost count rises by one, and
where it would reach 65,535 it starts again from 0 with one full count owed. OVERFLOW_EVENT with space queues one
report of code 0x0F01 whose count is the number of reports lost, which then reads 0, and one of count 65,535 for a
full count owed. Clauses that stand in R15, R16, R494. (spec/01_package_and_planes.md,
spec/17_fault_handling_and_service_life.md) -/
def Obligations.StewardQueuesReports : Prop :=
  (∀ (site : Fin 9) (off : BitVec 25) (code : BitVec 16) (sev : Fin 5) (arg : BitVec 64) (s : State),
    (site.val < 8 → (s.steward site).queue.length < 256 ∧ (s.steward site).lost = 0 ∧ (s.steward site).lostFull = 0) →
    ∃ t, exec (.blockErrorReport site off code sev arg) s = .next t ∧
      ∃ r : Report, (t.steward site).queue = (s.steward site).queue ++ [r] ∧ r.code = .fixed code.toNat ∧ r.sev = sev.val ∧
        r.die = site.val ∧ r.block = off.toNat / 256 ∧ r.time = s.localNs ∧ r.arg = .known arg.toNat) ∧
  (∀ (d : Fin 8) (off : BitVec 25) (code : BitVec 16) (sev : Fin 5) (arg : BitVec 64) (s : State),
    256 ≤ (s.steward d).queue.length → (s.steward d).lost < 65534 →
    ∃ t, exec (.blockErrorReport d.castSucc off code sev arg) s = .next t ∧
      (t.steward d).queue = (s.steward d).queue ∧ (t.steward d).lost = (s.steward d).lost + 1) ∧
  (∀ (d : Fin 8) (s : State),
    (s.steward d).queue.length < 256 → (s.steward d).lostFull = 0 → 0 < (s.steward d).lost →
    ∃ t, exec (.overflowEvent d) s = .next t ∧ (t.steward d).lost = 0 ∧
      ∃ r : Report, (t.steward d).queue = (s.steward d).queue ++ [r] ∧ r.code = .fixed 0x0F01 ∧ r.count = (s.steward d).lost) ∧
  (∀ (d : Fin 8) (off : BitVec 25) (code : BitVec 16) (sev : Fin 5) (arg : BitVec 64) (s : State),
    256 ≤ (s.steward d).queue.length → (s.steward d).lost = 65534 →
    ∃ t, exec (.blockErrorReport d.castSucc off code sev arg) s = .next t ∧
      (t.steward d).queue = (s.steward d).queue ∧ (t.steward d).lost = 0 ∧ (t.steward d).lostFull = (s.steward d).lostFull + 1) ∧
  (∀ (d : Fin 8) (s : State),
    (s.steward d).queue.length < 256 → (s.steward d).lostFull = 1 → (s.steward d).lost = 0 →
    ∃ t, exec (.overflowEvent d) s = .next t ∧ (t.steward d).lostFull = 0 ∧ (t.steward d).lost = 0 ∧
      ∃ r : Report, (t.steward d).queue = (s.steward d).queue ++ [r] ∧ r.code = .fixed 0x0F01 ∧ r.count = 65535)

/-- The log takes the oldest report of a queue under the next sequence number, and the journal takes what belongs in
it. While the log runs (boot stage 4 to 6), EVENT_LOG_APPEND takes the oldest report of the site's queue and writes
it, under the sequence number EVT_NEXT, to slot EVT_NEXT mod 4096, advances EVT_NEXT modulo 2^32, sets helm source
192, and owes the record to the journal if its severity is 3 or 4 or it is a service notice. With EVT_CTL.INFO_OFF a
report of severity 0 only counts in EVT_INFO_CNT, which stops at its maximum. JOURNAL_WRITE moves the oldest owed
record to the front of the journal, which keeps the newest 16,384. Clauses that stand in R401, R496, R497, R498, R511.
(spec/14_bring_up_resets_and_states.md, spec/17_fault_handling_and_service_life.md) -/
def Obligations.EventLogAppendsInOrder : Prop :=
  (∀ (site : Fin 9) (r : Report) (q : List Report) (s : State),
    4 ≤ s.rd .BOOT_STAT_STAGE [] → s.rd .BOOT_STAT_STAGE [] ≤ 6 → (s.steward site).queue = r :: q →
    ¬(r.sev = 0 ∧ s.on .EVT_CTL_INFO_OFF [] = true) →
    ∃ t, exec (.eventLogAppend site) s = .next t ∧ (t.steward site).queue = q ∧
      smGet t.evlog [s.rd .EVT_NEXT_SEQ [] % 4096] none = some { seq := s.rd .EVT_NEXT_SEQ [], rep := r } ∧
      t.rd .EVT_NEXT_SEQ [] = (s.rd .EVT_NEXT_SEQ [] + 1) % 2 ^ 32 ∧ (t.rd .HELM_IC_PEND_BITS [6]).testBit 0 = true ∧
      t.jtodo = (if 3 ≤ r.sev ∨ r.sev = 1 then s.jtodo ++ [{ seq := s.rd .EVT_NEXT_SEQ [], rep := r }] else s.jtodo)) ∧
  (∀ (site : Fin 9) (r : Report) (q : List Report) (s : State),
    4 ≤ s.rd .BOOT_STAT_STAGE [] → s.rd .BOOT_STAT_STAGE [] ≤ 6 → (s.steward site).queue = r :: q →
    r.sev = 0 → s.on .EVT_CTL_INFO_OFF [] = true →
    ∃ t, exec (.eventLogAppend site) s = .next t ∧ (t.steward site).queue = q ∧ t.evlog = s.evlog ∧
      t.rd .EVT_INFO_CNT_COUNT [] = min (s.rd .EVT_INFO_CNT_COUNT [] + 1) (2 ^ 32 - 1) ∧
      t.rd .EVT_NEXT_SEQ [] = s.rd .EVT_NEXT_SEQ []) ∧
  (∀ (r : LogRec) (q : List LogRec) (s : State), s.jtodo = r :: q →
    ∃ t, exec .journalWrite s = .next t ∧ t.jtodo = q ∧ t.journal = (r :: s.journal).take 16384)

/-- A write of EVT_ACK is accepted exactly when it lies between the acknowledged and the next sequence number.
EVT_ACK_WRITE by a writer that is not muted stores the value when (new - EVT_ACK) mod 2^32 is at most (EVT_NEXT -
EVT_ACK) mod 2^32. Any other value leaves EVT_ACK as it was and queues one more report, of code 0x0F03, at the hub's
collector. No other register changes in either case. Clauses that stand in R497.
(spec/17_fault_handling_and_service_life.md) -/
def Obligations.EventAckAcceptsTheWindow : Prop :=
  (∀ (w : Writer) (v : BitVec 32) (s : State), s.mute w = false →
    (v.toNat + 2 ^ 32 - s.rd .EVT_ACK_SEQ []) % 2 ^ 32 ≤
      (s.rd .EVT_NEXT_SEQ [] + 2 ^ 32 - s.rd .EVT_ACK_SEQ []) % 2 ^ 32 →
    ∃ t, exec (.evtAckWrite w v) s = .next t ∧ t.rd .EVT_ACK_SEQ [] = v.toNat ∧ SameFields s t [(.EVT_ACK_SEQ, [])]) ∧
  (∀ (w : Writer) (v : BitVec 32) (s : State), s.mute w = false →
    (s.rd .EVT_NEXT_SEQ [] + 2 ^ 32 - s.rd .EVT_ACK_SEQ []) % 2 ^ 32 <
      (v.toNat + 2 ^ 32 - s.rd .EVT_ACK_SEQ []) % 2 ^ 32 →
    ∃ t, exec (.evtAckWrite w v) s = .next t ∧ SameFields s t [] ∧
      ∃ r : Report, (t.steward 8).queue = (s.steward 8).queue ++ [r] ∧ r.code = .fixed 0x0F03)

/-- Writes to SEC_CTL.RESET act according to the sector's STATE as the table of R47 says. For a write that reaches its
sector: RESET = 1 is stored and has no other effect in STATE 0, 1, 2 and 5, enters sector reset in STATE 3 (STATE 2,
isolated, trees gated, flip-flops at initial values) and sets RESET_HELD in STATE 4 without leaving it, and the sector
enters reset, STATE 2, as the migration ends. RESET = 0 is stored and has no other effect in STATE 1, 3 and 4, in
STATE 0 and 5 is stored with the sector staying in that STATE and the write logged at the die's steward, and in STATE
2 asks for the draw permit, unless it waits for it already, and the sector is released, STATE 3, once it is granted.
(R47) -/
def Obligations.SectorResetWritesActByState : Prop :=
  (∀ (w : Writer) (d : Fin 8) (k : Fin 40) (s : State), s.reaches w .SEC_CTL [d, k] = true →
    [0, 1, 2, 5].contains (s.rd .SEC_STATUS_STATE [d, k]) = true →
    ∃ t, exec (.sectorReset w d k) s = .next t ∧ t.rd .SEC_CTL_RESET [d, k] = 1 ∧ SameFields s t [(.SEC_CTL_RESET, [d, k])] ∧
      t.sec = s.sec ∧ t.govs = s.govs) ∧
  (∀ (w : Writer) (d : Fin 8) (k : Fin 40) (s : State), s.reaches w .SEC_CTL [d, k] = true →
    s.rd .SEC_STATUS_STATE [d, k] = 3 →
    ∃ t, exec (.sectorReset w d k) s = .next t ∧ t.rd .SEC_CTL_RESET [d, k] = 1 ∧ t.rd .SEC_STATUS_STATE [d, k] = 2 ∧
      t.rd .SEC_STATUS_ISOLATED [d, k] = 1 ∧ (t.sector d k).gated = true ∧ (t.sector d k).ffInit = true ∧
      (t.sector d k).bridges = false) ∧
  (∀ (w : Writer) (d : Fin 8) (k : Fin 40) (s : State), s.reaches w .SEC_CTL [d, k] = true →
    s.rd .SEC_STATUS_STATE [d, k] = 4 →
    ∃ t, exec (.sectorReset w d k) s = .next t ∧ t.rd .SEC_STATUS_RESET_HELD [d, k] = 1 ∧
      t.rd .SEC_STATUS_STATE [d, k] = 4 ∧
      SameFields s t [(.SEC_CTL_RESET, [d, k]), (.SEC_STATUS_RESET_HELD, [d, k])]) ∧
  (∀ (w : Writer) (d : Fin 8) (k : Fin 40) (s : State), s.reaches w .SEC_CTL [d, k] = true →
    [1, 3, 4].contains (s.rd .SEC_STATUS_STATE [d, k]) = true →
    ∃ t, exec (.sectorReleaseRequest w d k) s = .next t ∧ t.rd .SEC_CTL_RESET [d, k] = 0 ∧
      SameFields s t [(.SEC_CTL_RESET, [d, k])] ∧ t.sec = s.sec ∧ t.govs = s.govs) ∧
  (∀ (w : Writer) (d : Fin 8) (k : Fin 40) (s : State), s.reaches w .SEC_CTL [d, k] = true →
    [0, 5].contains (s.rd .SEC_STATUS_STATE [d, k]) = true →
    ∃ t, exec (.sectorReleaseRequest w d k) s = .next t ∧ t.rd .SEC_CTL_RESET [d, k] = 0 ∧
      SameFields s t [(.SEC_CTL_RESET, [d, k])] ∧ t.sec = s.sec ∧ t.govs = s.govs ∧
      ((s.steward d).queue.length < 256 → (s.steward d).lost = 0 → (s.steward d).lostFull = 0 →
        (t.steward d).queue.length = (s.steward d).queue.length + 1)) ∧
  (∀ (w : Writer) (d : Fin 8) (k : Fin 40) (s : State), s.reaches w .SEC_CTL [d, k] = true →
    s.rd .SEC_STATUS_STATE [d, k] = 2 → s.rd .SEC_STATUS_PERMIT_WAIT [d, k] = 0 → 1 ≤ s.rd .PG_CFG_BUDGET [d] →
    ∃ t, exec (.sectorReleaseRequest w d k) s = .next t ∧ t.rd .SEC_CTL_RESET [d, k] = 0 ∧
      t.rd .SEC_STATUS_STATE [d, k] = 2 ∧ t.rd .SEC_STATUS_PERMIT_WAIT [d, k] = 1 ∧
      (t.gov d).queue.length = (s.gov d).queue.length + 1) ∧
  (∀ (w : Writer) (d : Fin 8) (k : Fin 40) (s : State), s.reaches w .SEC_CTL [d, k] = true →
    s.rd .SEC_STATUS_STATE [d, k] = 2 → s.rd .SEC_STATUS_PERMIT_WAIT [d, k] = 1 →
    ∃ t, exec (.sectorReleaseRequest w d k) s = .next t ∧ t.rd .SEC_CTL_RESET [d, k] = 0 ∧
      SameFields s t [(.SEC_CTL_RESET, [d, k])] ∧ t.sec = s.sec ∧ t.govs = s.govs) ∧
  (∀ (d : Fin 8) (k : Fin 40) (edge : Nat) (s : State), s.rd .SEC_STATUS_STATE [d, k] = 2 →
    s.rd .SEC_STATUS_PERMIT_WAIT [d, k] = 1 → s.grantReady d 4 [d, k] = true → s.edgeOk d k edge = true →
    ∃ t, exec (.sectorRelease d k edge) s = .next t ∧ t.rd .SEC_STATUS_STATE [d, k] = 3) ∧
  (∀ (d : Fin 8) (k : Fin 40) (s : State), s.rd .SEC_STATUS_STATE [d, k] = 4 → (s.sector d k).mig = 5 →
    s.grantReady d 4 [d, k] = true → s.rd .SEC_STATUS_RESET_HELD [d, k] = 1 →
    ∃ t, exec (.migrationRestart d k) s = .next t ∧ t.rd .SEC_STATUS_STATE [d, k] = 2)

/-- A held sector runs after its permit and its release edge, stays held on a timeout, and a reset clears its class
SEC fields. With the release permit granted, SECTOR_RELEASE of a waiting sector in STATE 2 gives STATE 3, ISOLATED 0,
no permit wait, running trees and open bridges, edge nanoseconds or more after the instant before, edge being under
one period of the fastest tree. A permit timeout leaves it in STATE 2 with RESET = 1 and no wait. A sector reset of a
running sector returns every field of class SEC of that sector other than SEC_STATUS and SEC_CTL to its reset value
and keeps every field of other classes but those two registers. Clauses that stand in R43, R44, R48, R6, R391, R393.
(spec/02_logic_fabric.md, spec/00_scope.md, spec/13_clocks_power_and_permits.md) -/
def Obligations.SectorReleasesAtTheGrant : Prop :=
  (∀ (d : Fin 8) (k : Fin 40) (edge : Nat) (s : State), s.rd .SEC_STATUS_STATE [d, k] = 2 →
    s.rd .SEC_STATUS_PERMIT_WAIT [d, k] = 1 → s.grantReady d 4 [d, k] = true → s.edgeOk d k edge = true →
    ∃ t, exec (.sectorRelease d k edge) s = .next t ∧ t.rd .SEC_STATUS_STATE [d, k] = 3 ∧
      t.rd .SEC_STATUS_ISOLATED [d, k] = 0 ∧ t.rd .SEC_STATUS_PERMIT_WAIT [d, k] = 0 ∧ (t.sector d k).gated = false ∧
      (t.sector d k).bridges = true ∧ s.now + edge ≤ t.now) ∧
  (∀ (d : Fin 8) (k : Fin 40) (s : State), s.rd .SEC_STATUS_STATE [d, k] = 2 →
    s.rd .SEC_STATUS_PERMIT_WAIT [d, k] = 1 → s.timeoutReady d 4 [d, k] = true →
    ∃ t, exec (.sectorReleaseTimeout d k) s = .next t ∧ t.rd .SEC_STATUS_STATE [d, k] = 2 ∧
      t.rd .SEC_CTL_RESET [d, k] = 1 ∧ t.rd .SEC_STATUS_PERMIT_WAIT [d, k] = 0) ∧
  (∀ (w : Writer) (d : Fin 8) (k : Fin 40) (s : State), s.reaches w .SEC_CTL [d, k] = true →
    s.rd .SEC_STATUS_STATE [d, k] = 3 →
    ∃ t, exec (.sectorReset w d k) s = .next t ∧
      (∀ f : Fld, f.spec.cls = .sec → f.reg ≠ .SEC_STATUS → t.rd f [d, k] = f.reset [d, k]) ∧
      (∀ (f : Fld) (i : List Nat), f.spec.cls ≠ .sec ∨ i ≠ [d.val, k.val] → f.reg ≠ .SEC_STATUS → f.reg ≠ .SEC_CTL →
        t.rd f i = s.rd f i))

/-- A remap migrates a running sector through the steps of R61 with their times, and a second defect makes it
unavailable. MIGRATE of a running sector with a pending remap gives STATE 4 with outputs frozen and gating due P + 50
ns later, then gating, capture (16 µs), rewrite (32.768 µs for each column from d on), restore (16 µs) and the permit
request follow at their instants, and at the grant the sector runs again in STATE 3, or enters sector reset if
RESET_HELD. A held sector's migration ends in STATE 2 after its rewrite. A permit timeout ends in sector reset. A
first defect, a column not yet known, of an empty or loading sector becomes FIELD and ACTIVE at once, a further one
gives STATE 5. Clauses that stand in R45, R58, R59, R60, R61, R62, R391, R393. (spec/02_logic_fabric.md,
spec/13_clocks_power_and_permits.md) -/
def Obligations.MigrationFollowsItsSteps : Prop :=
  (∀ (w : Writer) (d : Fin 8) (k : Fin 40) (p : Nat) (s : State), s.reaches w .SEC_CTL [d, k] = true →
    s.rd .SEC_STATUS_STATE [d, k] = 3 → s.rd .SEC_STATUS_PENDING_REMAP [d, k] = 1 →
    ∃ t, exec (.migrate w d k p) s = .next t ∧ t.rd .SEC_STATUS_STATE [d, k] = 4 ∧ (t.sector d k).mig = 1 ∧
      (t.sector d k).migT = s.now + p + 50 ∧ (t.sector d k).frozen = true ∧ (t.sector d k).bridges = false) ∧
  (∀ (d : Fin 8) (k : Fin 40) (s : State), s.rd .SEC_STATUS_STATE [d, k] = 4 → (s.sector d k).mig = 1 →
    ∃ t, exec (.migrationGated d k) s = .next t ∧ (t.sector d k).gated = true ∧ (t.sector d k).mig = 2 ∧
      (t.sector d k).migT = (s.sector d k).migT + 16000 ∧ t.now = max s.now (s.sector d k).migT ∧ SameFields s t []) ∧
  (∀ (d : Fin 8) (k : Fin 40) (s : State), s.rd .SEC_STATUS_STATE [d, k] = 4 → (s.sector d k).mig = 2 →
    ∃ t, exec (.migrationCaptureDone d k) s = .next t ∧ (t.sector d k).mig = 3 ∧
      (t.sector d k).migT = (s.sector d k).migT + (30 - s.knownDefect d k) * 32768 ∧
      t.now = max s.now (s.sector d k).migT ∧ SameFields s t []) ∧
  (∀ (d : Fin 8) (k : Fin 40) (s : State), s.rd .SEC_STATUS_STATE [d, k] = 4 → (s.sector d k).mig = 3 →
    (s.sector d k).migHeld = false →
    ∃ t, exec (.migrationRewriteDone d k) s = .next t ∧ (t.sector d k).mig = 4 ∧
      t.rd .SEC_COLMAP_ACTIVE [d, k] = s.knownDefect d k % 32 ∧ (t.sector d k).migT = (s.sector d k).migT + 16000 ∧
      SameFields s t [(.SEC_COLMAP_ACTIVE, [d, k])]) ∧
  (∀ (d : Fin 8) (k : Fin 40) (s : State), s.rd .SEC_STATUS_STATE [d, k] = 4 → (s.sector d k).mig = 3 →
    (s.sector d k).migHeld = true →
    ∃ t, exec (.migrationRewriteDone d k) s = .next t ∧ (t.sector d k).mig = 0 ∧
      t.rd .SEC_COLMAP_ACTIVE [d, k] = s.knownDefect d k % 32 ∧ t.rd .SEC_STATUS_STATE [d, k] = 2 ∧
      t.rd .SEC_STATUS_PENDING_REMAP [d, k] = 0) ∧
  (∀ (d : Fin 8) (k : Fin 40) (s : State), s.rd .SEC_STATUS_STATE [d, k] = 4 → (s.sector d k).mig = 4 →
    1 ≤ s.rd .PG_CFG_BUDGET [d] →
    ∃ t, exec (.migrationRestoreDone d k) s = .next t ∧ (t.sector d k).mig = 5 ∧
      (t.gov d).queue.length = (s.gov d).queue.length + 1 ∧ SameFields s t []) ∧
  (∀ (d : Fin 8) (k : Fin 40) (s : State), s.rd .SEC_STATUS_STATE [d, k] = 4 → (s.sector d k).mig = 5 →
    s.grantReady d 4 [d, k] = true → s.rd .SEC_STATUS_RESET_HELD [d, k] = 0 →
    ∃ t, exec (.migrationRestart d k) s = .next t ∧ t.rd .SEC_STATUS_STATE [d, k] = 3 ∧
      t.rd .SEC_STATUS_ISOLATED [d, k] = 0 ∧ t.rd .SEC_STATUS_PENDING_REMAP [d, k] = 0 ∧
      (t.sector d k).frozen = false ∧ (t.sector d k).mig = 0) ∧
  (∀ (d : Fin 8) (k : Fin 40) (s : State), s.rd .SEC_STATUS_STATE [d, k] = 4 → (s.sector d k).mig = 5 →
    s.grantReady d 4 [d, k] = true → s.rd .SEC_STATUS_RESET_HELD [d, k] = 1 →
    ∃ t, exec (.migrationRestart d k) s = .next t ∧ t.rd .SEC_STATUS_STATE [d, k] = 2 ∧
      t.rd .SEC_STATUS_ISOLATED [d, k] = 1 ∧ t.rd .SEC_STATUS_RESET_HELD [d, k] = 0) ∧
  (∀ (d : Fin 8) (k : Fin 40) (s : State), s.rd .SEC_STATUS_STATE [d, k] = 4 → (s.sector d k).mig = 5 →
    s.timeoutReady d 4 [d, k] = true →
    ∃ t, exec (.migrationPermitTimeout d k) s = .next t ∧ t.rd .SEC_STATUS_STATE [d, k] = 2 ∧
      t.rd .SEC_CTL_RESET [d, k] = 1) ∧
  (∀ (d : Fin 8) (k : Fin 40) (p : Fin 31) (period : Nat) (s : State),
    s.rd .SEC_STATUS_STATE [d, k] = 0 ∨ s.rd .SEC_STATUS_STATE [d, k] = 1 → s.knownDefect d k = 31 →
    s.columnKnown d k p = false →
    ∃ t, exec (.columnDefectFound d k p period) s = .next t ∧ t.rd .SEC_COLMAP_FIELD [d, k] = p.val ∧
      t.rd .SEC_COLMAP_ACTIVE [d, k] = p.val ∧
      t.rd .SEC_COLMAP_DEFECTS [d, k] = min 3 (s.rd .SEC_COLMAP_DEFECTS [d, k] + 1) ∧
      t.rd .SEC_STATUS_STATE [d, k] = s.rd .SEC_STATUS_STATE [d, k]) ∧
  (∀ (d : Fin 8) (k : Fin 40) (p : Fin 31) (period : Nat) (s : State), s.rd .SEC_STATUS_STATE [d, k] ≠ 5 →
    s.knownDefect d k ≠ 31 → s.columnKnown d k p = false →
    ∃ t, exec (.columnDefectFound d k p period) s = .next t ∧ t.rd .SEC_STATUS_STATE [d, k] = 5 ∧
      t.rd .SEC_STATUS_ISOLATED [d, k] = 1)

/-- A clock tree takes its source at once when off, switches through SWITCHING when running, and is forced when the
old source stops. CLOCK_TREE_SWITCH that reaches the tree stores SRC. On a tree that is off (ACTIVE 0) and not
switching ACTIVE becomes the source at once, on a running tree with another source SWITCHING becomes 1 and ACTIVE
stays. A reserved code acts as 0. CLOCK_SWITCH_DONE ends the switch with ACTIVE at its target, CLOCK_SWITCH_FORCED
does so with FORCED set, not before 10 µs after the start, when no other source was written meanwhile. LOCKED becomes
1 on a global tree that follows a spine once its deskew converges. The fields of tree tr are those of FCLK_GSEL below
16 and of FCLK_RSEL from 16 on. Clauses that stand in R63, R64, R65, R66. (spec/02_logic_fabric.md) -/
def Obligations.ClockTreesSwitchWithoutGlitch : Prop :=
  (∀ (w : Writer) (d : Fin 8) (tr : Fin 64) (src : BitVec 6) (s : State), s.reaches w (treeReg tr) (treeIx d tr) = true →
    s.rd (treeSWITCHING tr) (treeIx d tr) = 0 → s.rd (treeACTIVE tr) (treeIx d tr) = 0 →
    ∃ t, exec (.clockTreeSwitch w d tr src) s = .next t ∧ t.rd (treeSRC tr) (treeIx d tr) = src.toNat ∧
      t.rd (treeACTIVE tr) (treeIx d tr) = treeEff d tr src.toNat ∧ t.rd (treeSWITCHING tr) (treeIx d tr) = 0) ∧
  (∀ (w : Writer) (d : Fin 8) (tr : Fin 64) (src : BitVec 6) (s : State), s.reaches w (treeReg tr) (treeIx d tr) = true →
    s.rd (treeSWITCHING tr) (treeIx d tr) = 0 → s.rd (treeACTIVE tr) (treeIx d tr) ≠ 0 →
    s.rd (treeACTIVE tr) (treeIx d tr) ≠ treeEff d tr src.toNat →
    ∃ t, exec (.clockTreeSwitch w d tr src) s = .next t ∧ t.rd (treeSRC tr) (treeIx d tr) = src.toNat ∧
      t.rd (treeACTIVE tr) (treeIx d tr) = s.rd (treeACTIVE tr) (treeIx d tr) ∧
      t.rd (treeSWITCHING tr) (treeIx d tr) = 1 ∧ t.rd (treeLOCKED tr) (treeIx d tr) = 0 ∧
      smGet t.tree [d.val, tr.val] {} = { tgt := treeEff d tr src.toNat, start := s.now }) ∧
  (∀ (d : Fin 8) (tr : Fin 64) (s : State), s.rd (treeSWITCHING tr) (treeIx d tr) = 1 →
    (smGet s.tree [d.val, tr.val] {}).tgt = treeEff d tr (s.rd (treeSRC tr) (treeIx d tr)) →
    ∃ t, exec (.clockSwitchDone d tr false) s = .next t ∧
      t.rd (treeACTIVE tr) (treeIx d tr) = (smGet s.tree [d.val, tr.val] {}).tgt % 64 ∧
      t.rd (treeSWITCHING tr) (treeIx d tr) = 0) ∧
  (∀ (d : Fin 8) (tr : Fin 64) (s : State), tr.val < 16 → s.rd (treeSWITCHING tr) (treeIx d tr) = 0 →
    8 ≤ s.rd (treeACTIVE tr) (treeIx d tr) → s.rd (treeACTIVE tr) (treeIx d tr) ≤ 15 →
    ∃ t, exec (.clockSwitchDone d tr true) s = .next t ∧ t.rd (treeLOCKED tr) (treeIx d tr) = 1 ∧
      SameFields s t [(treeLOCKED tr, treeIx d tr)]) ∧
  (∀ (d : Fin 8) (tr : Fin 64) (s : State), s.rd (treeSWITCHING tr) (treeIx d tr) = 1 →
    (smGet s.tree [d.val, tr.val] {}).tgt = treeEff d tr (s.rd (treeSRC tr) (treeIx d tr)) →
    ∃ t, exec (.clockSwitchForced d tr) s = .next t ∧ t.rd (treeFORCED tr) (treeIx d tr) = 1 ∧
      t.rd (treeACTIVE tr) (treeIx d tr) = (smGet s.tree [d.val, tr.val] {}).tgt % 64 ∧
      t.rd (treeSWITCHING tr) (treeIx d tr) = 0 ∧ (smGet s.tree [d.val, tr.val] {}).start + 10000 ≤ t.now)

/-- Span contention, memory errors and late reckoner accesses count to their maximum and hold the first error's place.
Two or more dynamic taps enabled on a segment of a running sector are a contention: the segment takes the value of the
highest-numbered enabled tap, the cycle counts once in SEC_SPAN_CNT, and if CONT was 0 it becomes 1 with direction,
segment and that tap, else the record stays. One bad bit in a word that port 1 of an ECC block reads sets SBE and port
1 gives the corrected word, two set DBE; each counts, and its place is recorded if no error was held or if it is a
double-bit error over a single-bit one. A corrected word of a block with its scrub bit waits for its write-back, which
clears its bad bits. A cycle with late accesses sets LATE with the place of the first if it was 0, and counts once.
Clauses that stand in R37, R39, R41, R74, R76, R79, R80, R87, R89, R90. (spec/02_logic_fabric.md,
spec/03_block_memory_and_reckoners.md) -/
def Obligations.FabricErrorsAreCountedAndHeld : Prop :=
  (∀ (d : Fin 8) (k : Fin 40) (segs : List SegCycle) (c : SegCycle) (more : List SegCycle) (s : State),
    s.userRuns d k = true → segs.filter (s.contends d k) = c :: more → s.rd .SEC_SPAN_CONT [d, k] = 0 →
    ∃ t, exec (.spanContention d k segs) s = .next t ∧ t.rd .SEC_SPAN_CONT [d, k] = 1 ∧
      t.rd .SEC_SPAN_DIR [d, k] = (if c.vertical then 1 else 0) ∧ t.rd .SEC_SPAN_SEG [d, k] = c.seg.val ∧
      t.rd .SEC_SPAN_WINNER [d, k] = (s.driving d k c).foldl max 0 % 128 ∧
      t.rd .SEC_SPAN_CNT_COUNT [d, k] = min (s.rd .SEC_SPAN_CNT_COUNT [d, k] + 1) 0xFFFFFFFF) ∧
  (∀ (d : Fin 8) (k : Fin 40) (segs : List SegCycle) (c : SegCycle) (more : List SegCycle) (s : State),
    s.userRuns d k = true → segs.filter (s.contends d k) = c :: more → s.rd .SEC_SPAN_CONT [d, k] = 1 →
    ∃ t, exec (.spanContention d k segs) s = .next t ∧
      t.rd .SEC_SPAN_CNT_COUNT [d, k] = min (s.rd .SEC_SPAN_CNT_COUNT [d, k] + 1) 0xFFFFFFFF ∧
      SameFields s t [(.SEC_SPAN_CNT_COUNT, [d, k])]) ∧
  (∀ (d : Fin 8) (k : Fin 40) (c : SegCycle) (s : State), s.userRuns d k = true → s.contends d k c = true →
    ∃ t, exec (.spanContention d k [c]) s = .next t ∧
      t.segVal d k c.vertical c.seg = c.val.getLsbD ((s.driving d k c).foldl max 0)) ∧
  (∀ (d : Fin 8) (k : Fin 40) (deep : Bool) (col : Fin 3) (block : Fin 10) (addr : Fin 16384) (upset : BitVec 72)
    (c : RamCfg) (double : Bool) (s : State), s.userRuns d k = true → s.ramOf d k deep col block = some c → c.mode = .ecc →
    addr.val < ramDepth c deep 1 →
    ones (s.ramUpset [d, k, deep.toNat, col, block, addr] ^^^ upset.toNat) 72 = (if double then 2 else 1) →
    s.rd .MEM_ECC_DBE [d, k] = 0 → s.rd .MEM_ECC_SBE [d, k] = 0 ∨ double = true →
    ∃ t, exec (.memEccError d k deep col block addr upset) s = .next t ∧
      t.rd .MEM_ECC_KIND [d, k] = (if deep then 1 else 0) ∧ t.rd .MEM_ECC_COL [d, k] = col.val ∧
      t.rd .MEM_ECC_BLOCK [d, k] = block.val ∧ t.rd .MEM_ECC_ADDR [d, k] = addr.val ∧
      t.rd .MEM_ECC_DBE [d, k] = (if double then 1 else 0) ∧
      (double = false → t.rd .MEM_ECC_SBE [d, k] = 1) ∧
      t.rd .MEM_DBE_CNT_COUNT [d, k] =
        (if double then min (s.rd .MEM_DBE_CNT_COUNT [d, k] + 1) 0xFFFFFFFF else s.rd .MEM_DBE_CNT_COUNT [d, k]) ∧
      t.rd .MEM_SBE_CNT_COUNT [d, k] =
        (if double then s.rd .MEM_SBE_CNT_COUNT [d, k] else min (s.rd .MEM_SBE_CNT_COUNT [d, k] + 1) 0xFFFFFFFF) ∧
      (double = false → (smGet t.fab.ports [d, k, deep.toNat, col, block, 1] {}).latch =
        { data := some (s.ramWord [d, k, deep.toNat, col, block, addr] % 2 ^ 64), err := 1 }) ∧
      (double = false → c.scrub = true → [deep.toNat, col.val, block.val, addr.val] ∈ (t.sector d k).wb)) ∧
  (∀ (d : Fin 8) (k : Fin 40) (deep : Bool) (col : Fin 3) (block : Fin 10) (addr : Fin 16384) (upset : BitVec 72)
    (c : RamCfg) (double : Bool) (s : State), s.userRuns d k = true → s.ramOf d k deep col block = some c → c.mode = .ecc →
    addr.val < ramDepth c deep 1 →
    ones (s.ramUpset [d, k, deep.toNat, col, block, addr] ^^^ upset.toNat) 72 = (if double then 2 else 1) →
    s.rd .MEM_ECC_DBE [d, k] = 1 →
    ∃ t, exec (.memEccError d k deep col block addr upset) s = .next t ∧
      t.rd .MEM_ECC_KIND [d, k] = s.rd .MEM_ECC_KIND [d, k] ∧ t.rd .MEM_ECC_ADDR [d, k] = s.rd .MEM_ECC_ADDR [d, k] ∧
      t.rd .MEM_ECC_COL [d, k] = s.rd .MEM_ECC_COL [d, k] ∧ t.rd .MEM_ECC_BLOCK [d, k] = s.rd .MEM_ECC_BLOCK [d, k] ∧
      t.rd .MEM_DBE_CNT_COUNT [d, k] =
        (if double then min (s.rd .MEM_DBE_CNT_COUNT [d, k] + 1) 0xFFFFFFFF else s.rd .MEM_DBE_CNT_COUNT [d, k]) ∧
      t.rd .MEM_SBE_CNT_COUNT [d, k] =
        (if double then s.rd .MEM_SBE_CNT_COUNT [d, k] else min (s.rd .MEM_SBE_CNT_COUNT [d, k] + 1) 0xFFFFFFFF)) ∧
  (∀ (d : Fin 8) (k : Fin 40) (deep : Bool) (col : Fin 3) (block : Fin 10) (addr : Fin 16384)
    (s : State), s.userRuns d k = true → [deep.toNat, col.val, block.val, addr.val] ∈ (s.sector d k).wb →
    ∃ t, exec (.bramScrubWriteback d k deep col block addr) s = .next t ∧
      [deep.toNat, col.val, block.val, addr.val] ∉ (t.sector d k).wb ∧
      t.ramUpset [d, k, deep.toNat, col, block, addr] = 0 ∧ SameFields s t []) ∧
  (∀ (d : Fin 8) (k : Fin 40) (lates : List (Fin 3 × Fin 24 × RknIn)) (x : Fin 3 × Fin 24 × RknIn)
    (more : List (Fin 3 × Fin 24 × RknIn)) (s : State), s.userRuns d k = true → lates.filter (s.rknTwo d k) = x :: more →
    s.rd .RKN_STAT_LATE [d, k] = 0 →
    ∃ t, exec (.rknLateAccess d k lates) s = .next t ∧ t.rd .RKN_STAT_LATE [d, k] = 1 ∧
      t.rd .RKN_STAT_COL [d, k] = x.1.val ∧ t.rd .RKN_STAT_BLOCK [d, k] = x.2.1.val ∧
      t.rd .RKN_LATE_CNT_COUNT [d, k] = min (s.rd .RKN_LATE_CNT_COUNT [d, k] + 1) 0xFFFFFFFF) ∧
  (∀ (d : Fin 8) (k : Fin 40) (lates : List (Fin 3 × Fin 24 × RknIn)) (x : Fin 3 × Fin 24 × RknIn)
    (more : List (Fin 3 × Fin 24 × RknIn)) (s : State), s.userRuns d k = true → lates.filter (s.rknTwo d k) = x :: more →
    s.rd .RKN_STAT_LATE [d, k] = 1 →
    ∃ t, exec (.rknLateAccess d k lates) s = .next t ∧ t.rd .RKN_STAT_COL [d, k] = s.rd .RKN_STAT_COL [d, k] ∧
      t.rd .RKN_STAT_BLOCK [d, k] = s.rd .RKN_STAT_BLOCK [d, k] ∧
      t.rd .RKN_LATE_CNT_COUNT [d, k] = min (s.rd .RKN_LATE_CNT_COUNT [d, k] + 1) 0xFFFFFFFF)

/-- ENG_CTL commands act in the states that R105 lists, initialise, stop, pause, resume and reset the engine, and
START asks for a permit. START and ARM from STATE 0, 6, 7 or 8 with empty queues and a good set-up take PC from
ENG_PC.START, each GEN_V from GEN_B, empty the stacks, clear the status and fault fields, give STATE 1 and queue the
permit request the governor's budget allows. With queues not yet empty they wait for ENG_START_EFFECT. A format wider
than 32 bits faults (code 16), a vector port that is not up faults (code 9). At the grant a started engine reads STATE
3, with AUTO its stream started or fault 10, an armed one not after its trigger STATE 2, after it fault 14 or STATE 3
with TLATE, by LATE_POLICY. ENG_TRIGGER begins the first step. A permit timeout faults (code 13). STOP gives STATE 7,
PAUSE gives 5, RESUME gives 3, RESET returns class ENG to reset. START, STOP, RESUME or PAUSE in another state changes
no field and no engine. Clauses that stand in R101, R102, R103, R104, R105, R125, R129, R143.
(spec/04_waypoint_engines.md, spec/05_compare_fail_capture_straight_path.md) -/
def Obligations.EngineCommandsActByState : Prop :=
  (∀ (w : Writer) (e : Fin 96) (s : State), s.reaches w .ENG_CTL [e] = true →
    [0, 6, 7, 8].contains (s.estate e) = true → (s.engine e).out = [] → (s.engine e).cq = [] →
    s.wx e + s.wy e + s.wz e ≤ 32 → s.dest e ≠ 1 ∨ s.vpUp e = true → 3 + ceilDiv (s.strmRate e) 16 ≤ s.rd .PG_CFG_BUDGET [engDie e] →
    ∃ t, exec (.start w e) s = .next t ∧ t.estate e = 1 ∧ t.rd .ENG_PC_CUR [e] = s.rd .ENG_PC_START [e] % 2 ^ 14 ∧
      (∀ g : Fin 4, t.rd .ENG_GEN_V_VALUE [e, g] = s.rd .ENG_GEN_B_VALUE [e, g] % 2 ^ 32) ∧
      (∀ c : Fin 8, t.rd .ENG_LCNT_COUNT [e, c] = 0) ∧ (t.engine e).lstack = [] ∧ (t.engine e).cstack = [] ∧
      (t.engine e).armed = false ∧ t.rd .ENG_STATUS_FAIL [e] = 0 ∧ t.rd .ENG_FAULT_VALID [e] = 0 ∧
      (t.gov (engDie e)).queue.length = (s.gov (engDie e)).queue.length + 1) ∧
  (∀ (w : Writer) (e : Fin 96) (s : State), s.reaches w .ENG_CTL [e] = true →
    [0, 6, 7, 8].contains (s.estate e) = true → (s.engine e).out = [] → (s.engine e).cq = [] →
    s.wx e + s.wy e + s.wz e ≤ 32 → s.dest e ≠ 1 ∨ s.vpUp e = true →
    3 + ceilDiv (s.strmRate e) 16 ≤ s.rd .PG_CFG_BUDGET [engDie e] →
    ∃ t, exec (.arm w e) s = .next t ∧ t.estate e = 1 ∧ (t.engine e).armed = true ∧
      t.rd .ENG_PC_CUR [e] = s.rd .ENG_PC_START [e] % 2 ^ 14 ∧
      (∀ g : Fin 4, t.rd .ENG_GEN_V_VALUE [e, g] = s.rd .ENG_GEN_B_VALUE [e, g] % 2 ^ 32) ∧
      (∀ c : Fin 8, t.rd .ENG_LCNT_COUNT [e, c] = 0) ∧ (t.engine e).lstack = [] ∧ (t.engine e).cstack = [] ∧
      t.rd .ENG_STATUS_FAIL [e] = 0 ∧ t.rd .ENG_FAULT_VALID [e] = 0 ∧
      (t.gov (engDie e)).queue.length = (s.gov (engDie e)).queue.length + 1) ∧
  (∀ (w : Writer) (e : Fin 96) (s : State), s.reaches w .ENG_CTL [e] = true →
    [0, 6, 7, 8].contains (s.estate e) = true → (s.engine e).out = [] → (s.engine e).cq = [] →
    32 < s.wx e + s.wy e + s.wz e →
    ∃ t, exec (.start w e) s = .next t ∧ t.estate e = 8 ∧ t.rd .ENG_FAULT_CODE [e] = 16 ∧ t.rd .ENG_FAULT_VALID [e] = 1) ∧
  (∀ (w : Writer) (e : Fin 96) (s : State), s.reaches w .ENG_CTL [e] = true →
    [0, 6, 7, 8].contains (s.estate e) = true → (s.engine e).out = [] → (s.engine e).cq = [] →
    s.wx e + s.wy e + s.wz e ≤ 32 → s.dest e = 1 → s.vpUp e = false →
    ∃ t, exec (.start w e) s = .next t ∧ t.estate e = 8 ∧ t.rd .ENG_FAULT_CODE [e] = 9 ∧ t.rd .ENG_FAULT_VALID [e] = 1) ∧
  (∀ (e : Fin 96) (s : State), (s.engine e).startPend = 2 → (s.engine e).out = [] → (s.engine e).cq = [] →
    s.wx e + s.wy e + s.wz e ≤ 32 → s.dest e ≠ 1 ∨ s.vpUp e = true →
    ∃ t, exec (.engStartEffect e) s = .next t ∧ t.estate e = 1 ∧ (t.engine e).armed = true ∧ (t.engine e).startPend = 0) ∧
  (∀ (e : Fin 96) (s : State), s.estate e = 1 → s.grantReady (engDie e) 1 [e] = true →
    s.rd .ENG_STRM_CTL_AUTO [e] = 0 → (s.engine e).armed = false →
    ∃ t, exec (.engPermitGrant e) s = .next t ∧ t.estate e = 3 ∧ (t.engine e).stepT = t.now) ∧
  (∀ (e : Fin 96) (s : State), s.estate e = 1 → (s.gov (engDie e)).ready.any (·.is 1 [e]) = true →
    s.rd .ENG_STRM_CTL_AUTO [e] = 0 → (s.engine e).armed = true → s.localNs ≤ s.trigger e →
    ∃ t, exec (.engPermitGrant e) s = .next t ∧ t.estate e = 2) ∧
  (∀ (e : Fin 96) (s : State), s.estate e = 2 →
    ∃ t, exec (.engTrigger e) s = .next t ∧ t.estate e = 3 ∧ (t.engine e).stepT = t.now) ∧
  (∀ (e : Fin 96) (s : State), s.estate e = 1 → s.timeoutReady (engDie e) 1 [e] = true →
    ∃ t, exec (.engPermitTimeout e) s = .next t ∧ t.estate e = 8 ∧ t.rd .ENG_FAULT_CODE [e] = 13 ∧
      t.rd .ENG_FAULT_PC [e] = s.rd .ENG_PC_CUR [e] % 2 ^ 14) ∧
  (∀ (w : Writer) (e : Fin 96) (s : State), s.reaches w .ENG_CTL [e] = true → 1 ≤ s.estate e → s.estate e ≤ 5 →
    ∃ t, exec (.engCmdStop w e) s = .next t ∧ t.estate e = 7 ∧ t.rd .ENG_PC_CUR [e] = s.rd .ENG_PC_CUR [e] ∧
      (t.engine e).buf = [] ∧ (t.engine e).strmOn = false ∧ (t.engine e).out = (s.engine e).out ∧
      (t.engine e).cq = (s.engine e).cq ∧ (t.gov (engDie e)).held.any (·.is 1 [e]) = false) ∧
  (∀ (w : Writer) (e : Fin 96) (s : State), s.reaches w .ENG_CTL [e] = true → s.estate e = 3 ∨ s.estate e = 4 →
    ∃ t, exec (.pause w e) s = .next t ∧ t.estate e = 5 ∧ t.rd .ENG_PC_CUR [e] = s.rd .ENG_PC_CUR [e] ∧
      (t.engine e).wait = .none ∧ (t.gov (engDie e)).held.filter (·.is 1 [e]) = (s.gov (engDie e)).held.filter (·.is 1 [e])) ∧
  (∀ (w : Writer) (e : Fin 96) (s : State), s.reaches w .ENG_CTL [e] = true → s.estate e = 5 →
    ∃ t, exec (.engCmdResume w e) s = .next t ∧ t.estate e = 3 ∧ SameFields s t [(.ENG_STATUS_STATE, [e])]) ∧
  (∀ (w : Writer) (e : Fin 96) (s : State), s.reaches w .ENG_CTL [e] = true → s.estate e ≤ 8 →
    ∃ t, exec (.engineReset w e) s = .next t ∧ t.estate e = 0 ∧
      (∀ f : Fld, f.spec.cls = .eng → t.rd f [e] = f.reset [e]) ∧ t.win = s.win) ∧
  (∀ (w : Writer) (e : Fin 96) (s : State), s.reaches w .ENG_CTL [e] = true → 1 ≤ s.estate e → s.estate e ≤ 5 →
    ∃ t, exec (.start w e) s = .next t ∧ SameFields s t [] ∧ t.eng = s.eng) ∧
  (∀ (w : Writer) (e : Fin 96) (s : State), s.reaches w .ENG_CTL [e] = true → s.estate e ≠ 3 → s.estate e ≠ 4 →
    ∃ t, exec (.pause w e) s = .next t ∧ SameFields s t [] ∧ t.eng = s.eng) ∧
  (∀ (w : Writer) (e : Fin 96) (s : State), s.reaches w .ENG_CTL [e] = true →
    [0, 6, 7, 8].contains (s.estate e) = true → (s.engine e).out ≠ [] ∨ (s.engine e).cq ≠ [] →
    ∃ t, exec (.start w e) s = .next t ∧ (t.engine e).startPend = 1 ∧ t.estate e = s.estate e ∧ SameFields s t []) ∧
  (∀ (w : Writer) (e : Fin 96) (s : State), s.reaches w .ENG_CTL [e] = true →
    [0, 6, 7, 8].contains (s.estate e) = true → (s.engine e).out ≠ [] ∨ (s.engine e).cq ≠ [] →
    ∃ t, exec (.arm w e) s = .next t ∧ (t.engine e).startPend = 2 ∧ t.estate e = s.estate e ∧ SameFields s t []) ∧
  (∀ (e : Fin 96) (s : State), (s.engine e).startPend = 1 → (s.engine e).out = [] → (s.engine e).cq = [] →
    s.wx e + s.wy e + s.wz e ≤ 32 → s.dest e ≠ 1 ∨ s.vpUp e = true →
    ∃ t, exec (.engStartEffect e) s = .next t ∧ t.estate e = 1 ∧ (t.engine e).armed = false ∧ (t.engine e).startPend = 0) ∧
  (∀ (e : Fin 96) (s : State), s.estate e = 1 → (s.gov (engDie e)).ready.any (·.is 1 [e]) = true →
    s.rd .ENG_STRM_CTL_AUTO [e] = 0 → (s.engine e).armed = true → s.trigger e < s.localNs →
    ∃ t, exec (.engPermitGrant e) s = .next t ∧
      (if s.on .ENG_CTL_LATE_POLICY [e] then t.estate e = 8 ∧ t.rd .ENG_FAULT_CODE [e] = 14
        else t.estate e = 3 ∧ t.rd .ENG_STATUS_TLATE [e] = 1)) ∧
  (∀ (e : Fin 96) (s : State), s.estate e = 1 → s.grantReady (engDie e) 1 [e] = true →
    s.on .ENG_STRM_CTL_AUTO [e] = true → (s.engine e).armed = false →
    ∃ t, exec (.engPermitGrant e) s = .next t ∧
      (if s.strmOff e then t.estate e = 8 ∧ t.rd .ENG_FAULT_CODE [e] = 10
        else t.estate e = 3 ∧ (t.engine e).strmOn = true)) ∧
  (∀ (w : Writer) (e : Fin 96) (s : State), s.reaches w .ENG_CTL [e] = true → s.estate e ≠ 5 →
    ∃ t, exec (.engCmdResume w e) s = .next t ∧ SameFields s t [] ∧ t.eng = s.eng) ∧
  (∀ (w : Writer) (e : Fin 96) (s : State), s.reaches w .ENG_CTL [e] = true → s.estate e = 0 ∨ 6 ≤ s.estate e →
    ∃ t, exec (.engCmdStop w e) s = .next t ∧ SameFields s t [] ∧ t.eng = s.eng)

/-- A step whose word is illegal faults with ILLEGAL (code 1) and has no effect. A step of a running engine, by the
row of its operation, and a STEP command on a paused one, whose word at PC holds a reserved code, a nonzero reserved
bit, or a nonzero bit of CNT or IMM that its operation does not use gives STATE 8 with FAULT.CODE 1, VALID 1 and the
PC of the step in FAULT.PC. PC, the generators, the loop counters, the reload registers and the fix points stay, and
the engine has emitted nothing. (R107) -/
def Obligations.IllegalWordFaultsBeforeAnyEffect : Prop :=
  (∀ (w : Writer) (e : Fin 96) (s : State), s.reaches w .ENG_CTL [e] = true → s.estate e = 5 →
    illegalWord (s.instrWord e (s.rd .ENG_PC_CUR [e])) = true →
    ∃ t, exec (.engCmdStep w e) s = .next t ∧ t.estate e = 8 ∧ t.rd .ENG_FAULT_CODE [e] = 1 ∧
      t.rd .ENG_FAULT_VALID [e] = 1 ∧ t.rd .ENG_FAULT_PC [e] = s.rd .ENG_PC_CUR [e] % 2 ^ 14 ∧
      (t.engine e).out = (s.engine e).out ∧ (t.engine e).cq = (s.engine e).cq ∧ (t.engine e).lstack = (s.engine e).lstack ∧
      (t.engine e).cstack = (s.engine e).cstack ∧ t.fixq = s.fixq ∧
      SameFields s t [(.ENG_STATUS_STATE, [e]), (.ENG_FAULT_CODE, [e]), (.ENG_FAULT_DETAIL, [e]), (.ENG_FAULT_PC, [e]),
        (.ENG_FAULT_VALID, [e])]) ∧
  (∀ (e : Fin 96) (k : Fin 15) (s : State), s.atStep e k = true → wOP (s.instrWord e (s.rd .ENG_PC_CUR [e])) = k.val →
    illegalWord (s.instrWord e (s.rd .ENG_PC_CUR [e])) = true →
    ∃ t, exec (([.engNop e, .loop_ e, .jmp e, .br e, .call e, .ret e, .wait_ e, .drain e, .sync_ e, .waitt e, .setl e, .strm e,
        .rate e, .evt e, .halt e] : List Instr).getD k (.engNop e)) s = .next t ∧ t.estate e = 8 ∧ t.rd .ENG_FAULT_CODE [e] = 1 ∧
      t.rd .ENG_FAULT_VALID [e] = 1 ∧ t.rd .ENG_FAULT_PC [e] = s.rd .ENG_PC_CUR [e] % 2 ^ 14 ∧
      (t.engine e).out = (s.engine e).out ∧ (t.engine e).cq = (s.engine e).cq ∧ (t.engine e).lstack = (s.engine e).lstack ∧
      (t.engine e).cstack = (s.engine e).cstack ∧ t.fixq = s.fixq ∧
      SameFields s t [(.ENG_STATUS_STATE, [e]), (.ENG_FAULT_CODE, [e]), (.ENG_FAULT_DETAIL, [e]), (.ENG_FAULT_PC, [e]),
        (.ENG_FAULT_VALID, [e])])

/-- NOP, JMP, BR, CALL, RET and LOOP give the next PC of R108 to R111, and each step forms the generators from the
values at its start. For a legal word that emits nothing and allows no timer call: NOP goes to PC + 1 with every
generator at the value R113 to R115 form from the start of the step. JMP goes to its target. BR goes there when its
condition held at the start of the step, else to PC + 1. CALL pushes PC + 1, and with four entries faults (code 6).
RET pops, with an empty stack outside the handler faults (code 7), and ends the handler, or faults (code 8) where its
loops are not closed. LOOP loads the counter and opens the loop, skips the body for a reload of 0, and faults for an
end at or before PC (5), a counter in use (4) or eight open loops (3). A step at the end of the top loop with a count
of 2 or more goes back to its start with one less. A STEP command on a paused engine runs such a step and returns to
STATE 5. Clauses that stand in R103, R108, R109, R110, R111, R112, R113, R115, R120. (spec/04_waypoint_engines.md) -/
def Obligations.ControlOperationsMoveThePC : Prop :=
  (∀ (e : Fin 96) (x : Nat) (s : State), s.atQuietStep e 0 x = true → s.noLoopEnds e = true →
    ∃ t, exec (.engNop e) s = .next t ∧ t.rd .ENG_PC_CUR [e] = s.rd .ENG_PC_CUR [e] + 1 ∧ t.estate e = 3 ∧
      (t.engine e).steps = ((s.engine e).steps + 1) % 2 ^ 64 ∧
      (∀ g : Fin 4, t.rd .ENG_GEN_V_VALUE [e, g] = ((s.genStep e x).getD g (0, false)).1 % 2 ^ 32) ∧
      (t.engine e).cx = ((s.genStep e x).getD 0 (0, false)).2 ∧ (t.engine e).lstack = (s.engine e).lstack) ∧
  (∀ (e : Fin 96) (x : Nat) (c start end_ : Nat) (r : List (Nat × Nat × Nat)) (s : State), s.atQuietStep e 0 x = true →
    (s.engine e).lstack = (c, start, end_) :: r → end_ = s.rd .ENG_PC_CUR [e] → 2 ≤ s.rd .ENG_LCNT_COUNT [e, c] →
    s.rd .ENG_LCNT_COUNT [e, c] < 2 ^ 32 → start < 16384 →
    ∃ t, exec (.engNop e) s = .next t ∧ t.rd .ENG_PC_CUR [e] = start ∧
      t.rd .ENG_LCNT_COUNT [e, c] = s.rd .ENG_LCNT_COUNT [e, c] - 1 ∧ (t.engine e).lstack = (s.engine e).lstack) ∧
  (∀ (e : Fin 96) (x : Nat) (s : State), s.atQuietStep e 2 x = true →
    ∃ t, exec (.jmp e) s = .next t ∧ t.rd .ENG_PC_CUR [e] = wIMM x % 2 ^ 14 ∧ (t.engine e).lstack = (s.engine e).lstack ∧
      (t.engine e).steps = ((s.engine e).steps + 1) % 2 ^ 64) ∧
  (∀ (e : Fin 96) (x : Nat) (s : State), s.atQuietStep e 3 x = true → s.brCond e x = true →
    ∃ t, exec (.br e) s = .next t ∧ t.rd .ENG_PC_CUR [e] = wIMM x % 2 ^ 14) ∧
  (∀ (e : Fin 96) (x : Nat) (s : State), s.atQuietStep e 3 x = true → s.brCond e x = false → s.noLoopEnds e = true →
    ∃ t, exec (.br e) s = .next t ∧ t.rd .ENG_PC_CUR [e] = s.rd .ENG_PC_CUR [e] + 1) ∧
  (∀ (e : Fin 96) (x : Nat) (s : State), s.atQuietStep e 4 x = true → (s.engine e).cstack.length < 4 →
    ∃ t, exec (.call e) s = .next t ∧ t.rd .ENG_PC_CUR [e] = wIMM x % 2 ^ 14 ∧
      (t.engine e).cstack = (s.rd .ENG_PC_CUR [e] + 1) :: (s.engine e).cstack) ∧
  (∀ (e : Fin 96) (x : Nat) (s : State), s.atQuietStep e 4 x = true → 4 ≤ (s.engine e).cstack.length →
    ∃ t, exec (.call e) s = .next t ∧ t.estate e = 8 ∧ t.rd .ENG_FAULT_CODE [e] = 6) ∧
  (∀ (e : Fin 96) (x a : Nat) (r : List Nat) (s : State), s.atQuietStep e 5 x = true → (s.engine e).cstack = a :: r →
    s.rd .ENG_STATUS_IN_HANDLER [e] = 0 → a < 16384 →
    ∃ t, exec (.ret e) s = .next t ∧ t.rd .ENG_PC_CUR [e] = a ∧ (t.engine e).cstack = r) ∧
  (∀ (e : Fin 96) (x : Nat) (s : State), s.atQuietStep e 5 x = true → (s.engine e).cstack = [] →
    s.rd .ENG_STATUS_IN_HANDLER [e] = 0 →
    ∃ t, exec (.ret e) s = .next t ∧ t.estate e = 8 ∧ t.rd .ENG_FAULT_CODE [e] = 7) ∧
  (∀ (e : Fin 96) (x : Nat) (s : State), s.atQuietStep e 1 x = true → s.noLoopEnds e = true →
    s.rd .ENG_PC_CUR [e] < wIMM x % 2 ^ 14 → (s.engine e).lstack.all (fun l => l.1 != wCNT x) = true →
    s.rd .ENG_LREL_COUNT [e, wCNT x] ≠ 0 → (s.engine e).lstack.length < 8 →
    ∃ t, exec (.loop_ e) s = .next t ∧ t.rd .ENG_PC_CUR [e] = s.rd .ENG_PC_CUR [e] + 1 ∧
      t.rd .ENG_LCNT_COUNT [e, wCNT x] = s.rd .ENG_LREL_COUNT [e, wCNT x] % 2 ^ 32 ∧
      (t.engine e).lstack = (wCNT x, s.rd .ENG_PC_CUR [e] + 1, wIMM x % 2 ^ 14) :: (s.engine e).lstack) ∧
  (∀ (e : Fin 96) (x : Nat) (s : State), s.atQuietStep e 1 x = true →
    s.rd .ENG_PC_CUR [e] < wIMM x % 2 ^ 14 → (s.engine e).lstack.all (fun l => l.1 != wCNT x) = true →
    s.rd .ENG_LREL_COUNT [e, wCNT x] = 0 → wIMM x % 2 ^ 14 < 16383 →
    ∃ t, exec (.loop_ e) s = .next t ∧ t.rd .ENG_PC_CUR [e] = wIMM x % 2 ^ 14 + 1 ∧ (t.engine e).lstack = (s.engine e).lstack) ∧
  (∀ (e : Fin 96) (x : Nat) (s : State), s.atQuietStep e 1 x = true → wIMM x % 2 ^ 14 ≤ s.rd .ENG_PC_CUR [e] →
    ∃ t, exec (.loop_ e) s = .next t ∧ t.estate e = 8 ∧ t.rd .ENG_FAULT_CODE [e] = 5) ∧
  (∀ (w : Writer) (e : Fin 96) (x : Nat) (s : State), s.reaches w .ENG_CTL [e] = true → s.estate e = 5 →
    s.instrWord e (s.rd .ENG_PC_CUR [e]) = x → illegalWord x = false → wOP x = 2 → wKIND x = 0 → wY x = false →
    ∃ t, exec (.engCmdStep w e) s = .next t ∧ t.estate e = 5 ∧ t.rd .ENG_PC_CUR [e] = wIMM x % 2 ^ 14) ∧
  (∀ (e : Fin 96) (x : Nat) (s : State), s.atQuietStep e 1 x = true → s.rd .ENG_PC_CUR [e] < wIMM x % 2 ^ 14 →
    (s.engine e).lstack.any (fun l => l.1 == wCNT x) = true →
    ∃ t, exec (.loop_ e) s = .next t ∧ t.estate e = 8 ∧ t.rd .ENG_FAULT_CODE [e] = 4) ∧
  (∀ (e : Fin 96) (x : Nat) (s : State), s.atQuietStep e 1 x = true → s.rd .ENG_PC_CUR [e] < wIMM x % 2 ^ 14 →
    (s.engine e).lstack.all (fun l => l.1 != wCNT x) = true → s.rd .ENG_LREL_COUNT [e, wCNT x] ≠ 0 →
    8 ≤ (s.engine e).lstack.length →
    ∃ t, exec (.loop_ e) s = .next t ∧ t.estate e = 8 ∧ t.rd .ENG_FAULT_CODE [e] = 3) ∧
  (∀ (e : Fin 96) (x a : Nat) (s : State), s.atQuietStep e 5 x = true → s.on .ENG_STATUS_IN_HANDLER [e] = true →
    (s.engine e).cstack.length = (s.engine e).tcall → (s.engine e).lstack.length = (s.engine e).tloop →
    (s.engine e).tret = a → a < 16384 →
    ∃ t, exec (.ret e) s = .next t ∧ t.rd .ENG_PC_CUR [e] = a ∧ t.rd .ENG_STATUS_IN_HANDLER [e] = 0) ∧
  (∀ (e : Fin 96) (x : Nat) (s : State), s.atQuietStep e 5 x = true → s.on .ENG_STATUS_IN_HANDLER [e] = true →
    (s.engine e).cstack.length = (s.engine e).tcall → (s.engine e).lstack.length ≠ (s.engine e).tloop →
    ∃ t, exec (.ret e) s = .next t ∧ t.estate e = 8 ∧ t.rd .ENG_FAULT_CODE [e] = 8)

/-- SETL, STRM, RATE, EVT and HALT take effect on their registers, streams fetch and fill in order, and the timer
makes a call pending. For a quiet legal word: SETL loads ENG_LREL[c]. STRM 1 starts the stream with an empty buffer at
position 0 (fault code 10 while RATE or LEN is 0), STRM 0 stops it. RATE to a rate of no more units sets it. EVT
queues one event. HALT sets END_CODE, gives STATE 6 and returns the permit. A stream read is issued for the next word
while reads, room and words are left, its response enters the buffer with its data and status, and the wait for the
fill ends once the fill is there. A stalled step goes on once it can. A timer expiry makes a call pending, or sets
TMR_OVR when one is pending. Clauses that stand in R101, R108, R112, R120, R125, R126, R127, R128, R130, R132.
(spec/04_waypoint_engines.md) -/
def Obligations.EngineOperationsSetTheirRegisters : Prop :=
  (∀ (e : Fin 96) (x : Nat) (s : State), s.atQuietStep e 10 x = true → s.noLoopEnds e = true →
    ∃ t, exec (.setl e) s = .next t ∧ t.rd .ENG_LREL_COUNT [e, wCNT x] = wIMM x % 2 ^ 23 ∧
      t.rd .ENG_PC_CUR [e] = s.rd .ENG_PC_CUR [e] + 1) ∧
  (∀ (e : Fin 96) (x : Nat) (s : State), s.atQuietStep e 11 x = true → s.noLoopEnds e = true → wIMM x = 1 →
    s.strmOff e = false →
    ∃ t, exec (.strm e) s = .next t ∧ (t.engine e).strmOn = true ∧ (t.engine e).buf = [] ∧ (t.engine e).issued = 0 ∧
      t.rd .ENG_STRM_POS_POS [e] = 0 ∧ t.rd .ENG_STRM_CTL_ENDED [e] = 0 ∧ t.rd .ENG_PC_CUR [e] = s.rd .ENG_PC_CUR [e] + 1) ∧
  (∀ (e : Fin 96) (x : Nat) (s : State), s.atQuietStep e 11 x = true → wIMM x = 1 → s.strmOff e = true →
    ∃ t, exec (.strm e) s = .next t ∧ t.estate e = 8 ∧ t.rd .ENG_FAULT_CODE [e] = 10) ∧
  (∀ (e : Fin 96) (x : Nat) (s : State), s.atQuietStep e 11 x = true → s.noLoopEnds e = true → wIMM x = 0 →
    ∃ t, exec (.strm e) s = .next t ∧ (t.engine e).strmOn = false ∧ (t.engine e).buf = []) ∧
  (∀ (e : Fin 96) (x : Nat) (s : State), s.atQuietStep e 12 x = true → s.noLoopEnds e = true →
    ceilDiv (wIMM x % 128) 16 ≤ ceilDiv (s.strmRate e) 16 →
    ∃ t, exec (.rate e) s = .next t ∧ t.rd .ENG_STRM_CTL_RATE [e] = wIMM x % 128 ∧
      t.rd .ENG_PC_CUR [e] = s.rd .ENG_PC_CUR [e] + 1) ∧
  (∀ (e : Fin 96) (x : Nat) (s : State), s.atQuietStep e 13 x = true → s.noLoopEnds e = true →
    (s.steward (engDie e)).queue.length < 256 → (s.steward (engDie e)).lost = 0 → (s.steward (engDie e)).lostFull = 0 →
    ∃ t, exec (.evt e) s = .next t ∧ (t.steward (engDie e)).queue.length = (s.steward (engDie e)).queue.length + 1 ∧
      t.rd .ENG_PC_CUR [e] = s.rd .ENG_PC_CUR [e] + 1) ∧
  (∀ (e : Fin 96) (x : Nat) (s : State), s.atQuietStep e 14 x = true → s.noLoopEnds e = true →
    ∃ t, exec (.halt e) s = .next t ∧ t.estate e = 6 ∧ t.rd .ENG_STATUS_END_CODE [e] = wIMM x % 2 ^ 16 ∧
      t.rd .ENG_PC_CUR [e] = s.rd .ENG_PC_CUR [e] + 1 ∧ (t.gov (engDie e)).held.any (·.is 1 [e]) = false) ∧
  (∀ (e : Fin 96) (s : State), (s.engine e).strmOn = true → s.estate e = 3 → (s.engine e).issued < s.rd .ENG_STRM_LEN_LEN [e] →
    (s.engine e).outst.length < 1024 → (s.engine e).outst.length + (s.engine e).buf.length < 8192 → 0 < s.strmRate e →
    ∃ t, exec (.streamReadIssue e) s = .next t ∧ (t.engine e).issued = (s.engine e).issued + 1 ∧
      (t.engine e).outst = (s.engine e).outst ++ [(s.engine e).issued] ∧ SameFields s t []) ∧
  (∀ (e : Fin 96) (n : Nat) (data : BitVec 512) (status : Fin 4) (s : State), (s.engine e).outst.contains n = true →
    ∃ t, exec (.streamReadComplete e n data status) s = .next t ∧
      (t.engine e).buf.length = (s.engine e).buf.length + 1 ∧ ((t.engine e).buf.getLast?.map (·.n)) = some n ∧
      (t.engine e).outst = (s.engine e).outst.filter (· ≠ n)) ∧
  (∀ (e : Fin 96) (s : State), (s.engine e).wait = .fill → s.estate e = 4 → s.filled e = true → s.strmOff e = false →
    (s.engine e).strmOn = true → s.rd .ENG_STRM_POS_POS [e] < s.rd .ENG_STRM_LEN_LEN [e] →
    wKIND (s.instrWord e (s.rd .ENG_PC_CUR [e])) ≠ 0 → wDSRC (s.instrWord e (s.rd .ENG_PC_CUR [e])) = 2 →
    (s.engine e).buf.all (fun b => b.n != s.rd .ENG_STRM_POS_POS [e]) = true →
    ∃ t, exec (.streamFillDone e) s = .next t ∧ t.estate e = 3 ∧ (t.engine e).stall = 2) ∧
  (∀ (e : Fin 96) (x : Nat) (s : State), s.estate e = 3 → (s.engine e).stall = 2 → (s.engine e).single = false →
    s.instrWord e (s.rd .ENG_PC_CUR [e]) = x → wOP x = 0 → wKIND x = 0 → wY x = false → s.noLoopEnds e = true →
    ∃ t, exec (.engStepUnstall e) s = .next t ∧ t.estate e = 3 ∧ (t.engine e).stall = 0 ∧
      t.rd .ENG_PC_CUR [e] = s.rd .ENG_PC_CUR [e] + 1) ∧
  (∀ (e : Fin 96) (s : State), (s.engine e).tmrDue ≠ 0 → 3 ≤ s.estate e → s.estate e ≤ 5 → (s.engine e).tmrPend = false →
    s.rd .ENG_STATUS_IN_HANDLER [e] = 0 →
    ∃ t, exec (.engTimerExpiry e) s = .next t ∧ (t.engine e).tmrPend = true ∧
      (t.engine e).tmrDue = (s.engine e).tmrDue + s.rd .ENG_TMR_PERIOD_PERIOD [e] ∧ t.now = max s.now (s.engine e).tmrDue) ∧
  (∀ (e : Fin 96) (s : State), (s.engine e).tmrDue ≠ 0 → 3 ≤ s.estate e → s.estate e ≤ 5 → (s.engine e).tmrPend = true →
    ∃ t, exec (.engTimerExpiry e) s = .next t ∧ t.rd .ENG_STATUS_TMR_OVR [e] = 1)

/-- WAIT, DRAIN, SYNC, WAITT and a rise of RATE wait in STATE 4 and end as their rules say, through the fix points at
the hub. WAIT n gives STATE 4 until n ns after the step began. DRAIN waits while output is undelivered, WAITT until
local time reaches the trigger, a rise of RATE until its permit. When a wait of a quiet step ends it goes on in STATE
3 at PC + 1. SYNC action 2 issues a set, action 4 an arrival. The hub applies the first n operations in 1 ns: a set
sets the flag, an arrival that reaches the quorum clears COUNT, sets FLAG and toggles GEN, and each is broadcast. An
engine that sees a flag it waits for goes on. FIX_SET and FIX_CLR queue an operation, a write of FIX_CFG stores QUORUM
and clears COUNT, a re-base clears every copy. Clauses that stand in R120, R121, R122, R123, R124, R125, R129, R130,
R417. (spec/04_waypoint_engines.md, spec/14_bring_up_resets_and_states.md) -/
def Obligations.WaitingStepsEndAtTheirCondition : Prop :=
  (∀ (e : Fin 96) (x : Nat) (s : State), s.atQuietStep e 6 x = true → wIMM x ≠ 0 →
    ∃ t, exec (.wait_ e) s = .next t ∧ t.estate e = 4 ∧ (t.engine e).wait = .wait (s.now + wIMM x) ∧
      t.rd .ENG_PC_CUR [e] = s.rd .ENG_PC_CUR [e]) ∧
  (∀ (e : Fin 96) (x u : Nat) (s : State), s.estate e = 4 → (s.engine e).wait = .wait u → (s.engine e).single = false →
    s.instrWord e (s.rd .ENG_PC_CUR [e]) = x → wOP x = 6 → wKIND x = 0 → wY x = false → s.noLoopEnds e = true →
    ∃ t, exec (.waitEnd e) s = .next t ∧ t.estate e = 3 ∧ t.rd .ENG_PC_CUR [e] = s.rd .ENG_PC_CUR [e] + 1 ∧
      t.now = max s.now u) ∧
  (∀ (e : Fin 96) (x : Nat) (s : State), s.atQuietStep e 7 x = true → (s.engine e).out ≠ [] →
    (s.engine e).out.all (fun o => o.v.isSome) = true →
    ∃ t, exec (.drain e) s = .next t ∧ t.estate e = 4 ∧ (t.engine e).wait = .drain (wIMM x % 2 = 1)) ∧
  (∀ (e : Fin 96) (x : Nat) (s : State), s.estate e = 4 → (s.engine e).wait = .drain true → (s.engine e).out = [] →
    (s.engine e).single = false → s.instrWord e (s.rd .ENG_PC_CUR [e]) = x → wOP x = 7 → wKIND x = 0 → wY x = false →
    s.noLoopEnds e = true →
    ∃ t, exec (.drainDone e) s = .next t ∧ t.estate e = 3 ∧ t.rd .ENG_PC_CUR [e] = s.rd .ENG_PC_CUR [e] + 1 ∧
      (s.engine e).sendEnd ≤ t.now) ∧
  (∀ (e : Fin 96) (x : Nat) (s : State), s.atQuietStep e 9 x = true → s.localNs < s.trigger e →
    ∃ t, exec (.waitt e) s = .next t ∧ t.estate e = 4 ∧ (t.engine e).wait = .waitt) ∧
  (∀ (e : Fin 96) (x : Nat) (s : State), s.atQuietStep e 9 x = true → s.noLoopEnds e = true → s.trigger e ≤ s.localNs →
    ∃ t, exec (.waitt e) s = .next t ∧ t.estate e = 3 ∧ t.rd .ENG_STATUS_TLATE [e] = 1 ∧
      t.rd .ENG_PC_CUR [e] = s.rd .ENG_PC_CUR [e] + 1) ∧
  (∀ (e : Fin 96) (x : Nat) (s : State), s.estate e = 4 → (s.engine e).wait = .waitt → (s.engine e).single = false →
    s.instrWord e (s.rd .ENG_PC_CUR [e]) = x → wOP x = 9 → wKIND x = 0 → wY x = false → s.noLoopEnds e = true →
    ∃ t, exec (.waittTrigger e) s = .next t ∧ t.estate e = 3 ∧ t.rd .ENG_PC_CUR [e] = s.rd .ENG_PC_CUR [e] + 1) ∧
  (∀ (e : Fin 96) (x : Nat) (s : State), s.atQuietStep e 12 x = true →
    ceilDiv (s.strmRate e) 16 < ceilDiv (wIMM x % 128) 16 →
    ceilDiv (wIMM x % 128) 16 - ceilDiv (s.strmRate e) 16 ≤ s.rd .PG_CFG_BUDGET [engDie e] →
    ∃ t, exec (.rate e) s = .next t ∧ t.estate e = 4 ∧
      (t.gov (engDie e)).queue.length = (s.gov (engDie e)).queue.length + 1) ∧
  (∀ (e : Fin 96) (x u : Nat) (s : State), s.estate e = 4 → (s.engine e).wait = .rate u →
    s.grantReady (engDie e) 2 [e] = true → (s.engine e).single = false →
    s.instrWord e (s.rd .ENG_PC_CUR [e]) = x → wOP x = 12 → wKIND x = 0 → wY x = false → s.noLoopEnds e = true →
    ∃ t, exec (.ratePermitGrant e) s = .next t ∧ t.estate e = 3 ∧ t.rd .ENG_STRM_CTL_RATE [e] = wIMM x % 128) ∧
  (∀ (e : Fin 96) (x : Nat) (s : State), s.atQuietStep e 8 x = true → bitsOf (wIMM x) 4 3 = 2 → s.hubDown = false →
    ∃ t, exec (.sync_ e) s = .next t ∧ t.estate e = 4 ∧
      t.fixq = s.fixq ++ [{ f := wIMM x % 16, kind := 1, eng := some e.val, id := (s.engine e).opN + 1 }]) ∧
  (∀ (e : Fin 96) (x : Nat) (s : State), s.atQuietStep e 8 x = true → bitsOf (wIMM x) 4 3 = 4 → s.hubDown = false →
    (s.engine e).kept = none →
    ∃ t, exec (.sync_ e) s = .next t ∧ t.estate e = 4 ∧ (t.engine e).wait = .syncArr { f := wIMM x % 16, id := (s.engine e).opN + 1, issued := true } ∧
      t.fixq = s.fixq ++ [{ f := wIMM x % 16, kind := 2, eng := some e.val, id := (s.engine e).opN + 1 }]) ∧
  (∀ (f : Fin 16) (o : FixOp) (q : List FixOp) (s : State), s.hubDown = false → s.fixq = o :: q → q.takeWhile (·.tied) = [] → o.f = f.val →
    o.kind = 1 →
    ∃ t, exec (.fixPointApply 1) s = .next t ∧ t.rd .FIX_STAT_FLAG [f] = 1 ∧ t.fixq = q ∧
      t.bcasts.length = s.bcasts.length + 1 ∧ t.now = s.now + 1) ∧
  (∀ (f : Fin 16) (o : FixOp) (q : List FixOp) (s : State), s.hubDown = false → s.fixq = o :: q → q.takeWhile (·.tied) = [] → o.f = f.val →
    o.kind = 2 →
    s.quorum f ≠ 0 → s.quorum f = s.rd .FIX_STAT_COUNT [f] + 1 →
    ∃ t, exec (.fixPointApply 1) s = .next t ∧ t.rd .FIX_STAT_FLAG [f] = 1 ∧ t.rd .FIX_STAT_COUNT [f] = 0 ∧
      t.rd .FIX_STAT_GEN [f] = (s.rd .FIX_STAT_GEN [f] + 1) % 2 ∧ t.bcasts.length = s.bcasts.length + 1) ∧
  (∀ (e : Fin 96) (x f : Nat) (b : Bcast) (s : State), s.bcasts[(s.engine e).seen]? = some b → s.estate e = 4 →
    (s.engine e).wait = .syncFlag f true → b.f = f → b.flag = true → (s.engine e).single = false →
    s.instrWord e (s.rd .ENG_PC_CUR [e]) = x → wOP x = 8 → wKIND x = 0 → wY x = false → s.noLoopEnds e = true →
    ∃ t, exec (.syncBroadcastSeen e) s = .next t ∧ t.estate e = 3 ∧ t.rd .ENG_PC_CUR [e] = s.rd .ENG_PC_CUR [e] + 1 ∧
      (t.engine e).seen = (s.engine e).seen + 1 ∧ (t.engine e).flags = putBit (s.engine e).flags f true) ∧
  (∀ (w : Writer) (f : Fin 16) (s : State), s.reaches w .FIX_STAT [f] = true →
    ∃ t, exec (.fixSet w f) s = .next t ∧ t.fixq = s.fixq ++ [{ f := f.val, kind := 1, eng := none }] ∧ SameFields s t []) ∧
  (∀ (w : Writer) (f : Fin 16) (s : State), s.reaches w .FIX_STAT [f] = true →
    ∃ t, exec (.fixClr w f) s = .next t ∧ t.fixq = s.fixq ++ [{ f := f.val, kind := 0, eng := none }] ∧ SameFields s t []) ∧
  (∀ (w : Writer) (f : Fin 16) (q : BitVec 7) (s : State), s.reaches w .FIX_CFG [f] = true →
    ∃ t, exec (.fixCfgWrite w f q) s = .next t ∧ t.rd .FIX_CFG_QUORUM [f] = q.toNat ∧ t.rd .FIX_STAT_COUNT [f] = 0 ∧
      SameFields s t [(.FIX_CFG_QUORUM, [f]), (.FIX_STAT_COUNT, [f])]) ∧
  (∀ (s : State), s.rebaseDue = true → (∀ e : Fin 96, s.estate e ≠ 4) →
    ∃ t, exec .fixRebase s = .next t ∧ t.rebaseDue = false ∧ t.hubDown = false ∧
      t.bcasts.length = s.bcasts.length + 16 ∧ (∀ e : Fin 96, (t.engine e).flags = 0 ∧ (t.engine e).gens = 0))

/-- An expectation fails when (R ^ E) & M is not 0 or when it timed out, with F = M then. EXPECTATION_RESOLVE of the
head x of the compare queue, compared or timed out with result q: F is the mask where q is a timeout and (R ^ E) & M
otherwise. If it timed out or F is not 0, FC_FAIL_CNT counts one more (stopping at its maximum), FAIL is 1 and the
record that enters the fail FIFO has the fail bits F. Else FC_FAIL_CNT, FAIL and the FIFO stay. (Hypotheses: the FIFO
has space and FC_REC_MAX leaves room for a record.) (R142) -/
def Obligations.ExpectationsFailOnMaskedDifferenceOrTimeout : Prop :=
  ∀ (e : Fin 96) (x : Expn) (q : Resolution) (r : List Expn) (s : State), (s.engine e).cq = x :: r → x.res = some q →
    q.unchecked = false → (s.engine e).ff.length < 4096 → (s.engine e).recs < s.rd .FC_REC_MAX_MAX [e] →
    ∃ t, exec (.expectationResolve e) s = .next t ∧ (t.engine e).cmp = min (2 ^ 64 - 1) ((s.engine e).cmp + 1) ∧
      t.rd .FC_FAIL_CNT_COUNT [e] = (if q.timeout = true ∨ (q.r ^^^ x.e) &&& x.m ≠ 0
        then min (s.rd .FC_FAIL_CNT_COUNT [e] + 1) 0xFFFFFFFF else s.rd .FC_FAIL_CNT_COUNT [e]) ∧
      t.rd .ENG_STATUS_FAIL [e] = (if q.timeout = true ∨ (q.r ^^^ x.e) &&& x.m ≠ 0 then 1 else s.rd .ENG_STATUS_FAIL [e]) ∧
      (t.engine e).ff.map (·.f) = (s.engine e).ff.map (·.f) ++ (if q.timeout = true ∨ (q.r ^^^ x.e) &&& x.m ≠ 0
        then [if q.timeout then x.m else (q.r ^^^ x.e) &&& x.m] else [])

/-- Slots, lanes and fabric ports take vectors in order, and each response, receive word or timeout resolves the
expectation it belongs to. After the launch a TX_SLOT takes the head of the output FIFO into the next slot, or counts
an idle slot in FC_GAP_CNT. The launch begins slot period 0. The vector port takes the head vector while its sector
runs. A response is attached to the oldest unresolved expectation, a receive word of slot n, polarity corrected, to
the expectation of slot n - DELAY, a timeout to the head t microseconds after it became head. An expectation resolved
unchecked counts in FC_UNCHK_CNT and leaves the queue. A failing expectation whose record finds the FIFO full under
DEST 2 is dropped, counted and sets OVF. Clauses that stand in R140, R141, R145, R146, R147, R149, R150, R151.
(spec/05_compare_fail_capture_straight_path.md) -/
def Obligations.VectorsLeaveAndResponsesMeetTheirExpectation : Prop :=
  (∀ (e : Fin 96) (s : State), (s.engine e).launched = true → s.fcCount e ≠ 0 → (s.engine e).out = [] →
    ∃ t, exec (.txSlot e) s = .next t ∧ (t.engine e).slot = (s.engine e).slot + 1 ∧
      t.rd .FC_GAP_CNT_COUNT [e] = min (s.rd .FC_GAP_CNT_COUNT [e] + 1) 0xFFFFFFFF) ∧
  (∀ (e : Fin 96) (o : OutV) (r : List OutV) (s : State), (s.engine e).launched = true → s.fcCount e ≠ 0 →
    (s.engine e).out = o :: r →
    ∃ t, exec (.txSlot e) s = .next t ∧ (t.engine e).slot = (s.engine e).slot + 1 ∧ (t.engine e).out = r ∧
      (t.engine e).txBits = o.v.getD (s.idleBits e) ∧ t.rd .FC_GAP_CNT_COUNT [e] = s.rd .FC_GAP_CNT_COUNT [e]) ∧
  (∀ (e : Fin 96) (tv b : Nat) (o : OutV) (r : List OutV) (s : State), (s.engine e).firstVecT = some tv → s.dest e = 2 →
    (s.engine e).launched = false → (s.engine e).out = o :: r → s.fcCount e ≠ 0 → s.rd .FC_CTL_TALIGN [e] = 0 → o.v = some b →
    ∃ t, exec (.straightPathLaunch e) s = .next t ∧ (t.engine e).launched = true ∧ (t.engine e).slot = 1 ∧
      (t.engine e).out = r ∧ (t.engine e).txBits = b) ∧
  (∀ (e : Fin 96) (n : Nat) (data : BitVec 512) (x : Expn) (r : List Expn) (s : State), (s.engine e).launched = true →
    s.rxDelay e ≤ n → n - s.rxDelay e < (s.engine e).slot → (s.engine e).cq = x :: r → x.slot = some (n - s.rxDelay e) →
    x.res = none → r.all (fun y => y.ix != x.ix) = true →
    ∃ t, exec (.rxWordCompare e n data) s = .next t ∧ ((t.engine e).cq.head?.bind (·.res)).map (·.r) = some (s.rxCorrected e data.toNat) ∧
      ((t.engine e).cq.head?.bind (·.res)).map (·.unchecked) = some false ∧ (t.engine e).cq.tail = r) ∧
  (∀ (e : Fin 96) (o : OutV) (r : List OutV) (s : State), s.dest e = 1 → s.vpUp e = true → (s.engine e).out = o :: r →
    ∃ t, exec (.vpVectorTaken e) s = .next t ∧ (t.engine e).out = r ∧
      (t.engine e).vseq = ((s.engine e).vseq + 1) % 2 ^ 32 ∧ SameFields s t []) ∧
  (∀ (e : Fin 96) (data : BitVec 512) (skip : Bool) (x : Expn) (r : List Expn) (s : State), s.dest e = 1 →
    s.vpUp e = true → (s.engine e).ff.length < 4096 → (s.engine e).cq = x :: r → x.res = none →
    r.all (fun y => y.ix != x.ix) = true →
    ∃ t, exec (.rpResponse e data skip) s = .next t ∧
      (t.engine e).cq = { x with res := some { r := data.toNat, unchecked := skip, time := s.localNs } } :: r) ∧
  (∀ (e : Fin 96) (x : Expn) (r : List Expn) (s : State), s.dest e = 1 → s.rd .FC_RSP_TO_TIMEOUT [e] ≠ 0 →
    (s.engine e).cq = x :: r → x.res = none → r.all (fun y => y.ix != x.ix) = true →
    ∃ t, exec (.responseTimeout e) s = .next t ∧ ((t.engine e).cq.head?.bind (·.res)).map (·.timeout) = some true ∧
      t.now = max s.now (x.headT + s.rd .FC_RSP_TO_TIMEOUT [e] * 1000)) ∧
  (∀ (e : Fin 96) (x : Expn) (q : Resolution) (r : List Expn) (s : State), (s.engine e).cq = x :: r → x.res = some q →
    q.unchecked = true →
    ∃ t, exec (.expectationResolve e) s = .next t ∧ (t.engine e).cq.length = r.length ∧
      t.rd .FC_UNCHK_CNT_COUNT [e] = min (s.rd .FC_UNCHK_CNT_COUNT [e] + 1) 0xFFFFFFFF ∧
      SameFields s t [(.FC_UNCHK_CNT_COUNT, [e])]) ∧
  (∀ (e : Fin 96) (x : Expn) (q : Resolution) (r : List Expn) (s : State), (s.engine e).cq = x :: r → x.res = some q →
    q.unchecked = false → q.timeout = true → s.dest e = 2 → 4096 ≤ (s.engine e).ff.length →
    (s.engine e).recs < s.rd .FC_REC_MAX_MAX [e] →
    ∃ t, exec (.expectationResolve e) s = .next t ∧ (t.engine e).ff = (s.engine e).ff ∧ t.rd .FC_STATUS_OVF [e] = 1 ∧
      t.rd .FC_DROP_CNT_COUNT [e] = min (s.rd .FC_DROP_CNT_COUNT [e] + 1) 0xFFFFFFFF ∧ (t.engine e).dropped = true)

/-- The fail ring writer advances only on success, its read pointer moves only inside the window, and lanes and bitmap
change as commanded. FAIL_RING_WRITE of a ring that is on, not in error and not full takes the head record from the
FIFO and advances FC_RING_WR when every line is written, else sets RING_ERR and keeps the record (a host window ring
with an answering host, or a refusing one). A write of 1 to RING_ERR clears it. FC_RING_RD takes a value in its window
and drops any other. FC_LANES stores a good value while the engine is at rest and drops a reserved COUNT. BITMAP_CLEAR
makes BM_BUSY 1 and when done every tally reads 0 and BM_BUSY 0. FC_COUNTERS_CLEAR returns the counters to 0. Clauses
that stand in R148, R153, R154, R155, R156, R159, R539. (spec/05_compare_fail_capture_straight_path.md) -/
def Obligations.FailRingAndBitmapKeepTheirRecords : Prop :=
  (∀ (e : Fin 96) (x : FailRec) (r : List FailRec) (s : State), (s.engine e).ff = x :: r → s.ringLog2 e ≠ 0 →
    s.rd .FC_STATUS_RING_ERR [e] = 0 → s.ringLevel e ≠ 2 ^ s.ringLog2 e → s.rd .FC_CTL_FORMAT [e] = 1 →
    s.mapStatus (engMst e) (s.ringSlot e (s.rd .FC_RING_WR_COUNT [e])) = 0 →
    0x800000000000 ≤ s.ringSlot e (s.rd .FC_RING_WR_COUNT [e]) → s.ringSlot e (s.rd .FC_RING_WR_COUNT [e]) < 0x1000000000000 →
    ∃ t, exec (.failRingWrite e 0) s = .next t ∧ (t.engine e).ff = r ∧
      t.rd .FC_RING_WR_COUNT [e] = (s.rd .FC_RING_WR_COUNT [e] + 1) % 2 ^ 32 ∧
      SameFields s t [(.FC_RING_WR_COUNT, [e])]) ∧
  (∀ (e : Fin 96) (env : Fin 4) (x : FailRec) (r : List FailRec) (s : State), (s.engine e).ff = x :: r → s.ringLog2 e ≠ 0 →
    s.rd .FC_STATUS_RING_ERR [e] = 0 → s.ringLevel e ≠ 2 ^ s.ringLog2 e → s.rd .FC_CTL_FORMAT [e] = 1 →
    s.mapStatus (engMst e) (s.ringSlot e (s.rd .FC_RING_WR_COUNT [e])) = 2 →
    ∃ t, exec (.failRingWrite e env) s = .next t ∧ (t.engine e).ff = x :: r ∧ t.rd .FC_STATUS_RING_ERR [e] = 1 ∧
      t.rd .FC_RING_WR_COUNT [e] = s.rd .FC_RING_WR_COUNT [e]) ∧
  (∀ (w : Writer) (e : Fin 96) (s : State), s.reaches w .FC_STATUS [e] = true →
    ∃ t, exec (.ringErrRestart w e) s = .next t ∧ t.rd .FC_STATUS_RING_ERR [e] = 0 ∧
      SameFields s t [(.FC_STATUS_RING_ERR, [e])]) ∧
  (∀ (w : Writer) (e : Fin 96) (v : BitVec 32) (s : State), s.reaches w .FC_RING_RD [e] = true →
    (v.toNat + 2 ^ 32 - s.rd .FC_RING_RD_COUNT [e]) % 2 ^ 32 ≤
      (s.rd .FC_RING_WR_COUNT [e] + 2 ^ 32 - s.rd .FC_RING_RD_COUNT [e]) % 2 ^ 32 →
    ∃ t, exec (.fcRingRdWrite w e v) s = .next t ∧ t.rd .FC_RING_RD_COUNT [e] = v.toNat ∧
      SameFields s t [(.FC_RING_RD_COUNT, [e])]) ∧
  (∀ (w : Writer) (e : Fin 96) (v : BitVec 32) (s : State), s.reaches w .FC_RING_RD [e] = true →
    (s.rd .FC_RING_WR_COUNT [e] + 2 ^ 32 - s.rd .FC_RING_RD_COUNT [e]) % 2 ^ 32 <
      (v.toNat + 2 ^ 32 - s.rd .FC_RING_RD_COUNT [e]) % 2 ^ 32 →
    ∃ t, exec (.fcRingRdWrite w e v) s = .next t ∧ SameFields s t []) ∧
  (∀ (w : Writer) (e : Fin 96) (v : BitVec 32) (s : State), s.reaches w .FC_LANES [e] = true → s.fcOpen e = true →
    s.fcLanesBad e v.toNat = false →
    ∃ t, exec (.fcLanesWrite w e v) s = .next t ∧ t.rd .FC_LANES_COUNT [e] = v.toNat % 8 ∧
      t.rd .FC_LANES_LANE0 [e] = bitsOf v.toNat 8 6 ∧ t.rd .FC_LANES_LANE1 [e] = bitsOf v.toNat 14 6 ∧
      t.rd .FC_LANES_LANE2 [e] = bitsOf v.toNat 20 6 ∧ t.rd .FC_LANES_LANE3 [e] = bitsOf v.toNat 26 6 ∧
      (t.engine e).launched = false) ∧
  (∀ (w : Writer) (e : Fin 96) (v : BitVec 32) (s : State), s.reaches w .FC_LANES [e] = true → s.fcOpen e = true →
    v.toNat % 8 = 3 ∨ 5 ≤ v.toNat % 8 →
    ∃ t, exec (.fcLanesWrite w e v) s = .next t ∧ SameFields s t []) ∧
  (∀ (w : Writer) (e : Fin 96) (s : State), s.reaches w .FC_CTL [e] = true →
    s.estate e = 0 ∨ (5 ≤ s.estate e ∧ s.estate e ≤ 8) →
    ∃ t, exec (.bitmapClear w e) s = .next t ∧ t.rd .FC_STATUS_BM_BUSY [e] = 1 ∧
      SameFields s t [(.FC_STATUS_BM_BUSY, [e])]) ∧
  (∀ (e : Fin 96) (s : State), s.rd .FC_STATUS_BM_BUSY [e] = 1 → (s.engine e).bmHeld = [] →
    ∃ t, exec (.bitmapClearDone e) s = .next t ∧ t.rd .FC_STATUS_BM_BUSY [e] = 0 ∧
      (∀ a : Nat, t.winByte e a = if 0x80000 ≤ a ∧ a < 0xC0000 then 0 else s.winByte e a)) ∧
  (∀ (w : Writer) (e : Fin 96) (s : State), s.reaches w .FC_CTL [e] = true →
    ∃ t, exec (.fcCountersClear w e) s = .next t ∧ t.rd .FC_FAIL_CNT_COUNT [e] = 0 ∧ t.rd .FC_UNCHK_CNT_COUNT [e] = 0 ∧
      t.rd .FC_DROP_CNT_COUNT [e] = 0 ∧ t.rd .FC_GAP_CNT_COUNT [e] = 0 ∧ (t.engine e).cmp = 0 ∧
      t.rd .FC_RUN_RUN [e] = s.rd .FC_RUN_RUN [e])

/-- A router forwards the head that its output grants, with its input code in the route, and bounces one that has no
way on, stalls or is drained. A head whose mesh output is usable, not draining and asked for by it alone leaves its
buffer and enters the next router's buffer with its route shifted by one code and the input port as the newest trail
code, at a Galkor output its flits wait in the link's pool. One whose output is not usable bounces at once, one that
waits the stall timeout or the drain timeout bounces then: BOUNCE counts each, and the packet leaves by the port it
came in by or waits for it as the head of its buffer, always so while that port drains. A header that cannot be
corrected is discarded with HUNC set. A write of DRAIN stores it, DRAINED follows once the buffers behind are empty,
and VC depths are stored for a free port unless R190 refuses them. A write of EN is stored where every port is free.
Clauses that stand in R167, R169, R170, R175, R176, R178, R180, R181, R182, R185, R189, R190.
(spec/06_network_on_chip.md) -/
def Obligations.RoutersForwardBounceAndDrain : Prop :=
  (∀ (site : Fin 9) (r : Fin 24) (port : Fin 8) (vc : Fin 5) (p : Pkt) (q : List Pkt) (t' r' port' : Nat) (s : State),
    s.q site r port vc = p :: q → p.malformed = false → p.len ≠ 0 → s.outOk site r (bitsOf p.route 0 3) p = true →
    s.drains site r (bitsOf p.route 0 3) = false → galkorOf site r (bitsOf p.route 0 3) = none →
    s.raised site r (bitsOf p.route 0 3) = [(port.val, vc.val, p)] →
    hopOf site r (bitsOf p.route 0 3) = some (.router t' r' port') →
    ∃ t, exec (.routerHeadFlit site r port vc []) s = .next t ∧ (t.q site r port vc).length = q.length ∧
      ((t.q t' r' port' p.vc).getLast?.map (·.route)) = some (p.route % 2 ^ 48 / 8 + port.val * 2 ^ 45) ∧
      (t.q t' r' port' p.vc).length = (s.q t' r' port' p.vc).length + 1) ∧
  (∀ (site : Fin 9) (r : Fin 24) (port : Fin 8) (vc : Fin 5) (p : Pkt) (q : List Pkt) (n k j : Nat) (s : State),
    s.q site r port vc = p :: q → p.malformed = false → p.len ≠ 0 → s.outOk site r (bitsOf p.route 0 3) p = true →
    s.drains site r (bitsOf p.route 0 3) = false → galkorOf site r (bitsOf p.route 0 3) = some (n, k, j) →
    galkorOut n k j = (site.val, r.val, bitsOf p.route 0 3) → s.rtNext site r (bitsOf p.route 0 3) = some (port.val, vc.val) →
    s.raised site r (bitsOf p.route 0 3) = [(port.val, vc.val, p)] → (s.pool n k (s.poolOf n k p)).txq = [] →
    s.poolRaised n k (s.poolOf n k p) = [(j, gkInput j p, port.val, vc.val, p)] →
    ∃ t, exec (.routerHeadFlit site r port vc []) s = .next t ∧ (t.q site r port vc).length = q.length ∧
      (t.pool n k (s.poolOf n k p)).txq.length = opcFlits p.opc ∧
      ((t.pool n k (s.poolOf n k p)).txq.head?.map (·.p.route)) = some (p.route % 2 ^ 48 / 8 + port.val * 2 ^ 45)) ∧
  (∀ (site : Fin 9) (r : Fin 24) (port : Fin 8) (vc : Fin 5) (p : Pkt) (q : List Pkt) (s : State),
    s.q site r port vc = p :: q → p.malformed = false → p.bounce = false → s.outOk site r (bitsOf p.route 0 3) p = false →
    ∃ t, exec (.routerHeadFlit site r port vc []) s = .next t ∧ t.rd .NOC_RTR_BOUNCE_COUNT [site, r] = min (s.rd .NOC_RTR_BOUNCE_COUNT [site, r] + 1) 0xFFFFFFFF ∧
      ((t.q site r port vc).length = q.length ∨
        (t.q site r port vc).head? = some { (p.shift port).bounced with t := s.now })) ∧
  (∀ (site : Fin 9) (r : Fin 24) (port : Fin 8) (vc : Fin 5) (p : Pkt) (q : List Pkt) (s : State),
    s.q site r port vc = p :: q → p.malformed = false → p.bounce = false → s.outOk site r (bitsOf p.route 0 3) p = false →
    s.drains site r port = true →
    ∃ t, exec (.routerHeadFlit site r port vc []) s = .next t ∧
      t.q site r port vc = { (p.shift port).bounced with t := s.now } :: q) ∧
  (∀ (site : Fin 9) (r : Fin 24) (port : Fin 8) (vc : Fin 5) (errs : List FlitErr) (p : Pkt) (q : List Pkt) (s : State),
    s.q site r port vc = p :: q → errs.any (fun e => e.flit == 0 && e.word.isNone && e.bad) = true →
    ∃ t, exec (.routerHeadFlit site r port vc errs) s = .next t ∧ (t.q site r port vc).length = q.length ∧
      t.rd .NOC_RTR_ERR_HUNC [site, r] = 1 ∧
      t.rd .NOC_RTR_UNCCNT_COUNT [site, r] = min (s.rd .NOC_RTR_UNCCNT_COUNT [site, r] + 1) 0xFFFFFFFF) ∧
  (∀ (site : Fin 9) (r : Fin 24) (port : Fin 8) (vc : Fin 5) (p : Pkt) (q : List Pkt) (s : State),
    s.q site r port vc = p :: q → p.bounce = false → s.rd .NOC_STALL_TIMEOUT [site] ≠ 0 →
    ∃ t, exec (.stallBounce site r port vc) s = .next t ∧ t.rd .NOC_RTR_BOUNCE_COUNT [site, r] = min (s.rd .NOC_RTR_BOUNCE_COUNT [site, r] + 1) 0xFFFFFFFF ∧
      t.now = max s.now (p.t + s.rd .NOC_STALL_TIMEOUT [site] * 1000) ∧
      ((t.q site r port vc).length = q.length ∨
        (t.q site r port vc).head? = some { (p.shift port).bounced with t := t.now })) ∧
  (∀ (site : Fin 9) (r : Fin 24) (port : Fin 8) (vc : Fin 5) (p : Pkt) (q : List Pkt) (s : State),
    s.q site r port vc = p :: q → p.bounce = false → s.drains site r (bitsOf p.route 0 3) = true →
    ∃ t, exec (.drainTimeoutBounce site r port vc) s = .next t ∧ t.rd .NOC_RTR_BOUNCE_COUNT [site, r] = min (s.rd .NOC_RTR_BOUNCE_COUNT [site, r] + 1) 0xFFFFFFFF ∧
      p.arr + s.rd .NOC_DRAIN_TIMEOUT [site] * 1000 ≤ t.now ∧
      ((t.q site r port vc).length = q.length ∨
        (t.q site r port vc).head? = some { (p.shift port).bounced with t := t.now })) ∧
  (∀ (w : Writer) (site : Fin 9) (r : Fin 24) (bits : BitVec 8) (s : State), s.reaches w .NOC_RTR_PORT [site, r] = true →
    ∃ t, exec (.portDrain w site r bits) s = .next t ∧ t.rd .NOC_RTR_PORT_DRAIN [site, r] = bits.toNat ∧
      t.rd .NOC_RTR_PORT_DRAINED [site, r] = (s.rd .NOC_RTR_PORT_DRAINED [site, r] &&& bits.toNat) ∧
      SameFields s t [(.NOC_RTR_PORT_DRAIN, [site, r]), (.NOC_RTR_PORT_DRAINED, [site, r])]) ∧
  (∀ (site : Fin 9) (r : Fin 24) (p : Fin 8) (s : State), s.drains site r p = true →
    s.behindEmpty site r p = true →
    ∃ t, exec (.portDrained site r p) s = .next t ∧ (t.rd .NOC_RTR_PORT_DRAINED [site, r]).testBit p = true ∧
      SameFields s t [(.NOC_RTR_PORT_DRAINED, [site, r])]) ∧
  (∀ (w : Writer) (site : Fin 9) (r : Fin 24) (p : Fin 8) (v : BitVec 32) (s : State),
    s.reaches w .NOC_RTR_VC [site, r, p] = true → s.portFree site r p = true → vcBad v.toNat = false →
    ∃ t, exec (.routerPortConfig w site r p true v) s = .next t ∧ t.rd .NOC_RTR_VC_REQ [site, r, p] = bitsOf v.toNat 0 6 ∧
      t.rd .NOC_RTR_VC_PST [site, r, p] = bitsOf v.toNat 8 6 ∧ t.rd .NOC_RTR_VC_SNP [site, r, p] = bitsOf v.toNat 16 6 ∧
      t.rd .NOC_RTR_VC_RSP [site, r, p] = bitsOf v.toNat 24 6) ∧
  (∀ (w : Writer) (site : Fin 9) (r : Fin 24) (p : Fin 8) (v : BitVec 32) (s : State),
    s.reaches w .NOC_RTR_VC [site, r, p] = true → vcBad v.toNat = true →
    ∃ t, exec (.routerPortConfig w site r p true v) s = .next t ∧ SameFields s t []) ∧
  (∀ (w : Writer) (site : Fin 9) (r : Fin 24) (p : Fin 8) (v : BitVec 32) (s : State),
    s.reaches w .NOC_RTR_PORT [site, r] = true → (∀ b : Fin 8, s.portFree site r b = true) →
    ∃ t, exec (.routerPortConfig w site r p false v) s = .next t ∧ t.rd .NOC_RTR_PORT_EN [site, r] = v.toNat % 256)

/-- An interface sends under the bearing of its destination, re-sends a bounce once on the alternate route, and
completes or counts each packet. A bearing write stores BDATA in the bearing, its zero bits 0, or is dropped where it
duplicates a valid DEST or names a length above 16, a read copies it to BDATA, an invalidate clears VALID. An enabled
interface with nothing waiting and room sends a read to a destination with a bearing: one packet with its route enters
the local router port and a request counts. A bounce with an alternate left is counted, sent again on it and the
bearing uses it. A bounce without one fails: FAIL_CNT counts it and the block gets an error. A header that cannot be
corrected loses the packet. A delivered response leaves the interface for its block, a relay sends a packet on, PACK
acknowledges up to 16 posted packets, and a request past RSP_TO completes unreachable and counts in TO_CNT. Clauses
that stand in R165, R171, R172, R173, R174, R176, R177, R179, R192, R193. (spec/06_network_on_chip.md) -/
def Obligations.NetworkInterfacesSendAndResendPackets : Prop :=
  (∀ (w : Writer) (site : Fin 9) (ni : Fin 48) (k : Fin 512) (s : State), s.reaches w .NOC_NI_BSEL [site, ni] = true →
    ∃ t, exec (.bearingRead w site ni k) s = .next t ∧ t.rd .NOC_NI_BSEL_INDEX [site, ni] = k.val ∧
      (∀ j : Fin 4, t.rd .NOC_NI_BDATA_WORD [site, ni, j] = bWord (s.bearing site ni k) j % 2 ^ 32)) ∧
  (∀ (w : Writer) (site : Fin 9) (ni : Fin 48) (k : Fin 512) (b : List Nat) (s : State),
    s.reaches w .NOC_NI_BSEL [site, ni] = true →
    b = (List.range 4).map (fun j => s.rd .NOC_NI_BDATA_WORD [site.val, ni.val, j]) → bPriLen b ≤ 16 → bAltLen b ≤ 16 →
    (∀ j : Fin 512, j ≠ k → bValid b = true → bValid (s.bearing site ni j) = true → bDest (s.bearing site ni j) ≠ bDest b) →
    ∃ t, exec (.bearingWrite w site ni k) s = .next t ∧ t.bearing site ni k = bClean b ∧
      t.rd .NOC_NI_BSEL_INDEX [site, ni] = k.val) ∧
  (∀ (w : Writer) (site : Fin 9) (ni : Fin 48) (k : Fin 512) (b : List Nat) (s : State),
    s.reaches w .NOC_NI_BSEL [site, ni] = true →
    b = (List.range 4).map (fun j => s.rd .NOC_NI_BDATA_WORD [site.val, ni.val, j]) → 16 < bPriLen b ∨ 16 < bAltLen b →
    ∃ t, exec (.bearingWrite w site ni k) s = .next t ∧ t.bearings = s.bearings ∧ SameFields s t []) ∧
  (∀ (w : Writer) (site : Fin 9) (ni : Fin 48) (k j : Fin 512) (b : List Nat) (s : State),
    s.reaches w .NOC_NI_BSEL [site, ni] = true →
    b = (List.range 4).map (fun j => s.rd .NOC_NI_BDATA_WORD [site.val, ni.val, j]) → j ≠ k → bValid b = true →
    bValid (s.bearing site ni j) = true → bDest (s.bearing site ni j) = bDest b →
    ∃ t, exec (.bearingWrite w site ni k) s = .next t ∧ t.bearings = s.bearings ∧ SameFields s t []) ∧
  (∀ (w : Writer) (site : Fin 9) (ni : Fin 48) (k : Fin 512) (s : State), s.reaches w .NOC_NI_BSEL [site, ni] = true →
    bWord (s.bearing site ni k) 0 < 2 ^ 32 →
    ∃ t, exec (.bearingInvalidate w site ni k) s = .next t ∧ bValid (t.bearing site ni k) = false ∧
      bDest (t.bearing site ni k) = bDest (s.bearing site ni k)) ∧
  (∀ (site : Fin 9) (ni : Fin 48) (id dest k : Nat) (b : List Nat) (addr : BitVec 48) (tag : BitVec 10) (fn : BitVec 4) (s : State),
    niId site ni = some id → (s.niRt site ni).hold = [] → (s.niRt site ni).resend = [] → (s.niRt site ni).held = [] →
    (s.niRt site ni).reqs = [] → s.rd .NOC_NI_CTL_EN [site, ni] = 1 → s.niRefuses { src := id, fn := fn.toNat } addr.toNat = 0 →
    isRelay site ni = false → s.destOf site addr.toNat = some dest → niId site ni ≠ some dest →
    s.bearingFor site ni dest = some (k, b) → bUseAlt b = false → bPriLen b ≠ 0 →
    flitsOf (s.q site (ni.val / 2) (4 + ni.val % 2) 0) + 1 ≤ s.vcDepth site (ni.val / 2) (4 + ni.val % 2) 0 →
    ∃ t, exec (.niSend site ni 1 addr tag fn []) s = .next t ∧
      (t.niRt site ni).reqs = [(tag.toNat, dest, 1, s.now)] ∧
      (t.q site (ni.val / 2) (4 + ni.val % 2) 0).length = (s.q site (ni.val / 2) (4 + ni.val % 2) 0).length + 1 ∧
      ((t.q site (ni.val / 2) (4 + ni.val % 2) 0).getLast?.map (·.route)) = some (bPri b) ∧
      ((t.q site (ni.val / 2) (4 + ni.val % 2) 0).getLast?.map (·.dest)) = some dest) ∧
  (∀ (site : Fin 9) (ni : Fin 48) (p : Pkt) (r : List Pkt) (k : Nat) (b : List Nat) (s : State),
    (s.niRt site ni).bounced = p :: r → r.all (fun q => decide (p.sn ≤ q.sn)) = true → (s.niRt site ni).hold = [] → (s.niRt site ni).resend = [] →
    s.rd .NOC_NI_CTL_EN [site, ni] = 1 → p.alt = false → p.again = false → s.bearingFor site ni p.dest = some (k, b) →
    bAltValid b = true → bUseAlt b = false → bAltLen b ≠ 0 → bWord b 0 < 2 ^ 32 → b.length = 4 → s.niRoom site ni p = true →
    ∃ t, exec (.niBounceReceive site ni false) s = .next t ∧ (t.niRt site ni).bounced = r ∧
      t.rd .NOC_NI_BOUNCE_CNT_COUNT [site, ni] = min (s.rd .NOC_NI_BOUNCE_CNT_COUNT [site, ni] + 1) 0xFFFFFFFF ∧
      t.rd .NOC_NI_ALT_CNT_COUNT [site, ni] = min (s.rd .NOC_NI_ALT_CNT_COUNT [site, ni] + 1) 0xFFFFFFFF ∧
      bUseAlt (t.bearing site ni k) = true ∧
      ((t.q site (ni.val / 2) (4 + ni.val % 2) p.cls).getLast?.map (·.route)) = some (bAlt b)) ∧
  (∀ (site : Fin 9) (ni : Fin 48) (p : Pkt) (r : List Pkt) (s : State), (s.niRt site ni).bounced = p :: r →
    r.all (fun q => decide (p.sn ≤ q.sn)) = true → (s.niRt site ni).hold = [] → (s.niRt site ni).resend = [] → s.rd .NOC_NI_CTL_EN [site, ni] = 1 →
    p.cls = 0 → p.again = true → isRelay site ni = false →
    ∃ t, exec (.niBounceReceive site ni false) s = .next t ∧ (t.niRt site ni).bounced = r ∧
      t.rd .NOC_NI_FAIL_CNT_COUNT [site, ni] = min (s.rd .NOC_NI_FAIL_CNT_COUNT [site, ni] + 1) 0xFFFFFFFF ∧
      (t.niRt site ni).block.length = (s.niRt site ni).block.length + 1 ∧ t.rd .NOC_NI_ERR_VALID [site, ni] ≠ 0) ∧
  (∀ (site : Fin 9) (ni : Fin 48) (p : Pkt) (r : List Pkt) (s : State), (s.niRt site ni).bounced = p :: r →
    r.all (fun q => decide (p.sn ≤ q.sn)) = true → s.rd .NOC_NI_CTL_EN [site, ni] = 1 →
    ∃ t, exec (.niBounceReceive site ni true) s = .next t ∧ (t.niRt site ni).bounced = r ∧ SameFields s t []) ∧
  (∀ (site : Fin 9) (ni : Fin 48) (p : Pkt) (r : List Pkt) (k : Nat) (b : List Nat) (s : State), (s.niRt site ni).inq = p :: r →
    (s.niRt site ni).hold = [] → (s.niRt site ni).resend = [] → s.rd .NOC_NI_CTL_EN [site, ni] = 1 → isRelay site ni = true →
    niId site ni ≠ some p.dest → p.cls = 3 → (s.niRt site ni).held = [] →
    s.bearingFor site ni p.dest = some (k, b) → bUseAlt b = false → bPriLen b ≠ 0 → s.niRoom site ni p = true →
    ∃ t, exec (.relayForward site ni false) s = .next t ∧ (t.niRt site ni).inq = r ∧
      ((t.q site (ni.val / 2) (4 + ni.val % 2) 3).getLast?.map (·.route)) = some (bPri b)) ∧
  (∀ (site : Fin 9) (ni : Fin 48) (p : Pkt) (r : List Pkt) (s : State), (s.niRt site ni).inq = p :: r →
    (s.niRt site ni).hold = [] → (s.niRt site ni).resend = [] → s.rd .NOC_NI_CTL_EN [site, ni] = 1 → niId site ni = some p.dest →
    p.malformed = false → p.cls = 3 → s.blockRoom site ni = true → p.poison = false →
    ∃ t, exec (.niDeliver site ni false []) s = .next t ∧ (t.niRt site ni).inq = r ∧
      (t.niRt site ni).block = (s.niRt site ni).block ++ [p] ∧
      (p.opc ≠ 0x15 → (t.niRt site ni).reqs = (s.niRt site ni).reqs.filter (fun q => q.1 != p.tag))) ∧
  (∀ (site : Fin 9) (ni : Fin 48) (src : BitVec 12) (id u k : Nat) (us b : List Nat) (s : State), niId site ni = some id →
    smGet (s.niRt site ni).acks [src.toNat] [] = u :: us → us.length < 16 → id ≠ src.toNat → (s.niRt site ni).held = [] →
    (s.niRt site ni).hold = [] → (s.niRt site ni).resend = [] → s.rd .NOC_NI_CTL_EN [site, ni] = 1 →
    s.bearingFor site ni src.toNat = some (k, b) → bUseAlt b = false → bPriLen b ≠ 0 →
    flitsOf (s.q site (ni.val / 2) (4 + ni.val % 2) 3) + 1 ≤ s.vcDepth site (ni.val / 2) (4 + ni.val % 2) 3 →
    ∃ t, exec (.packSend site ni src) s = .next t ∧ smGet (t.niRt site ni).acks [src.toNat] [] = [] ∧
      ((t.q site (ni.val / 2) (4 + ni.val % 2) 3).getLast?.map (·.tag)) = some (us.length + 1)) ∧
  (∀ (site : Fin 9) (ni : Fin 48) (tag : BitVec 10) (dest opc u : Nat) (s : State),
    (s.niRt site ni).reqs = [(tag.toNat, dest, opc, u)] → s.rd .NOC_NI_CTL_RSP_TO [site, ni] ≠ 0 →
    (s.niRt site ni).hold = [] → (s.niRt site ni).resend = [] →
    ∃ t, exec (.niResponseTimeout site ni tag) s = .next t ∧ (t.niRt site ni).reqs = [] ∧
      t.rd .NOC_NI_TO_CNT_COUNT [site, ni] = min (s.rd .NOC_NI_TO_CNT_COUNT [site, ni] + 1) 0xFFFFFFFF ∧
      (t.niRt site ni).block.length = (s.niRt site ni).block.length + 1 ∧
      t.now = max s.now (u + s.rd .NOC_NI_CTL_RSP_TO [site, ni] * 10000))

/-- The front pipe applies a write to exactly its line, the scheduler moves requests, refreshes and RFMs, and errors
count and poison. A posted one-line write outside every range that alone presents and passes the checks stores its 64
bytes at its line's place, every other byte reads as before, and it enters the write queue. A one-line read enters the
read queue with the stored line as its data. A request that the range checks refuse leaves its port, and nothing is
stored or queued. The scheduler issues a due RFM first, then an owed refresh while nothing is queued, then the only
read with its row opened. A read in flight leaves when it completes, a corrected error counts in COR_CNT, an
uncorrectable one in UNC_CNT and poisons the line unless a newer write has been met. Refreshes fall due one by one, a
granted burst issues all, its timeout marks those owed. A scrub burst moves the pass by 64 lines. An idle stack powers
down after PD_IDLE. The leaf's re-encryption raises its major counter and counts in OVF_CNT. Clauses that stand in
R234, R239, R240, R241, R244, R245, R246, R252, R253, R265, R274, R276. (spec/08_hbm_controller.md,
spec/09_memory_sealing.md) -/
def Obligations.HbmRequestsAreServedInTheirStack : Prop :=
  (∀ (st : Fin 4) (p n : Nat) (q : HbmReq) (r : List HbmReq) (s : State), s.presenting st = [(p, n, q)] →
    smGet s.hbmPort [st.val, p] [] = q :: r → s.stackOk st = true →
    (s.sealCheck st { src := q.src, fn := q.fn } q.a true).1 = 0 → s.rangeOf st q.a = none → q.opc = 7 → q.poison = false →
    s.winAttr (hbmJoin s.ilv st q.a) ≠ 1 →
    ∃ t, exec (.hbmFrontPipeEntry st) s = .next t ∧ smGet t.hbmPort [st.val, p] [] = r ∧
      t.hbm = memStore s.hbm (s.lineKey st q.a) (natLe (q.data.getD 0 0) 64) 0 ∧
      (∀ a : Nat, a < s.lineKey st q.a ∨ s.lineKey st q.a + 64 ≤ a → memGet t.hbm a 0 = memGet s.hbm a 0) ∧
      (t.pc st (s.pcOf st q.a)).wq = (s.pc st (s.pcOf st q.a)).wq ++ [q]) ∧
  (∀ (st : Fin 4) (c : Fin 32) (demand : Bool) (par : Fin 3) (b : Nat) (r : List Nat) (s : State), (s.pc st c).rfm = b :: r →
    s.rd .HBM_CH_STAT_STATE [st, c.val / 2] ≠ 2 →
    ∃ t, exec (.hbmSchedule st c demand par) s = .next t ∧ (t.pc st c).rfm = r ∧ smGet (t.pc st c).rows [b] 0 = 0 ∧
      t.rd .HBM_CH_RFM_CNT_COUNT [st, c.val / 2] = min (s.rd .HBM_CH_RFM_CNT_COUNT [st, c.val / 2] + 1) 0xFFFFFFFF) ∧
  (∀ (st : Fin 4) (c : Fin 32) (demand : Bool) (par : Fin 3) (s : State), (s.pc st c).rfm = [] → (s.pc st c).rq = [] → (s.pc st c).wq = [] →
    0 < (s.pc st c).owed → s.rd .HBM_CH_STAT_STATE [st, c.val / 2] ≠ 2 →
    ∃ t, exec (.hbmSchedule st c demand par) s = .next t ∧ (t.pc st c).owed = (s.pc st c).owed - 1 ∧ (t.pc st c).rows = [] ∧
      SameFields s t []) ∧
  (∀ (st : Fin 4) (c : Fin 32) (demand : Bool) (par : Fin 3) (q : HbmReq) (s : State), (s.pc st c).rfm = [] → (s.pc st c).owed = 0 →
    (s.pc st c).rq = [q] → (s.pc st c).wq = [] → s.rd .HBM_CH_STAT_STATE [st, c.val / 2] ≠ 2 →
    ∃ t, exec (.hbmSchedule st c demand par) s = .next t ∧ (t.pc st c).rq = [] ∧
      (t.pc st c).inflight = (s.pc st c).inflight ++ [q] ∧
      smGet (t.pc st c).rows [s.bankOf st q.a] 0 = hbmRow q.a + 1) ∧
  (∀ (st : Fin 4) (c : Fin 32) (n : Nat) (line : Fin 4) (level : Fin 8) (mirror : Bool) (flips : BitVec 576) (q : HbmReq)
    (s : State), (s.pc st c).inflight[n]? = some q →
    ∃ t, exec (.hbmReadComplete st c n line 1 level mirror flips) s = .next t ∧ (t.pc st c).inflight = (s.pc st c).inflight.eraseIdx n ∧
      t.rd .HBM_CH_COR_CNT_COUNT [st, c.val / 2] = min (s.rd .HBM_CH_COR_CNT_COUNT [st, c.val / 2] + 1) 0xFFFFFFFF ∧
      t.hbm = s.hbm ∧ t.poison = s.poison) ∧
  (∀ (st : Fin 4) (c : Fin 32) (n : Nat) (line : Fin 4) (level : Fin 8) (mirror : Bool) (flips : BitVec 576) (q : HbmReq)
    (s : State), (s.pc st c).inflight[n]? = some q →
    ∃ t, exec (.hbmReadComplete st c n line 2 level mirror flips) s = .next t ∧ (t.pc st c).inflight = (s.pc st c).inflight.eraseIdx n ∧
      t.rd .HBM_CH_UNC_CNT_COUNT [st, c.val / 2] = min (s.rd .HBM_CH_UNC_CNT_COUNT [st, c.val / 2] + 1) 0xFFFFFFFF ∧
      (s.newerWrite st q (q.a + 64 * (line.val % q.lines.length)) (s.pc st c) = false →
        t.poison.contains (s.lineKey st (q.a + 64 * (line.val % q.lines.length))) = true)) ∧
  (∀ (st : Fin 4) (c : Fin 32) (s : State), s.hstate st = 2 ∨ s.hstate st = 5 →
    ∃ t, exec (.hbmRefreshDue st c) s = .next t ∧ (t.pc st c).owed = (s.pc st c).owed + 1) ∧
  (∀ (st : Fin 4) (s : State), s.grantReady (9 + st) 13 [st] = true →
    ∃ t, exec (.hbmRefreshBurst st) s = .next t ∧ (∀ c : Fin 32, (t.pc st c).owed = 0 ∧ (t.pc st c).rows = [])) ∧
  (∀ (st : Fin 4) (s : State), (s.gov (9 + st)).queue.any (·.is 13 [st]) = true →
    ∃ t, exec (.refreshBurstPermitTimeout st) s = .next t ∧ (t.gov (9 + st)).queue.any (·.is 13 [st]) = false ∧
      (∀ c : Fin 32, 0 < (s.pc st c).owed → (t.pc st c).burst = true) ∧ (s.stk st).burstT + 1000 ≤ t.now) ∧
  (∀ (st : Fin 4) (s : State), s.rd .HBM_SCRUB_HOURS [st] ≠ 0 → s.stackOk st = true →
    (s.gov (9 + st)).ready.any (·.is 14 [st]) = true → (s.stk st).scrubPos + 64 < 603979776 →
    ∃ t, exec (.hbmScrubBurst st [] true) s = .next t ∧ (t.stk st).scrubPos = (s.stk st).scrubPos + 64 ∧
      ((∀ p : Fin 16, smGet s.hbmPort [st, p] [] = []) → SameFields s t [])) ∧
  (∀ (st : Fin 4) (s : State), s.rd .HBM_CTL_PD_IDLE [st] ≠ 0 → s.hstate st = 2 →
    (∀ c : Fin 32, (s.pc st c).rq = [] ∧ (s.pc st c).wq = [] ∧ (s.pc st c).inflight = []) →
    ∃ t, exec (.hbmPowerDown st) s = .next t ∧ (t.stk st).powerDown = true ∧
      (s.stk st).busyT + s.rd .HBM_CTL_PD_IDLE [st] * 100 ≤ t.now) ∧
  (∀ (st : Fin 4) (bad : List (Fin 64 × BitVec 576)) (e : Reenc) (r : List Reenc) (s : State), smGet s.reenc [st.val] [] = e :: r → e.waiting = [] →
    smGet s.leafMaj [st.val, e.r, e.leaf] 0 + 1 < 2 ^ 56 →
    ∃ t, exec (.leafReencryptDone st bad) s = .next t ∧ smGet t.reenc [st.val] [] = r ∧
      smGet t.leafMaj [st.val, e.r, e.leaf] 0 = smGet s.leafMaj [st.val, e.r, e.leaf] 0 + 1 ∧
      t.rd .SEAL_OVF_CNT_COUNT [st] = min (s.rd .SEAL_OVF_CNT_COUNT [st] + 1) 0xFFFFFFFF) ∧
  (∀ (st : Fin 4) (p n : Nat) (q : HbmReq) (r : List HbmReq) (s : State), s.presenting st = [(p, n, q)] →
    smGet s.hbmPort [st.val, p] [] = q :: r → s.stackOk st = true →
    (s.sealCheck st { src := q.src, fn := q.fn } q.a false).1 = 0 → s.rangeOf st q.a = none → q.opc = 1 →
    s.winAttr (hbmJoin s.ilv st q.a) ≠ 1 → s.poison.contains (s.lineKey st q.a) = false →
    ∃ t, exec (.hbmFrontPipeEntry st) s = .next t ∧ smGet t.hbmPort [st.val, p] [] = r ∧ t.hbm = s.hbm ∧
      (t.pc st (s.pcOf st q.a)).rq = (s.pc st (s.pcOf st q.a)).rq ++ [{ q with data := [s.lineData (s.lineKey st q.a)], status := 0 }]) ∧
  (∀ (st : Fin 4) (p n : Nat) (q : HbmReq) (r : List HbmReq) (s : State), s.presenting st = [(p, n, q)] →
    smGet s.hbmPort [st.val, p] [] = q :: r → s.stackOk st = true →
    (s.sealCheck st { src := q.src, fn := q.fn } q.a (!q.isRead)).1 ≠ 0 →
    ∃ t, exec (.hbmFrontPipeEntry st) s = .next t ∧ smGet t.hbmPort [st.val, p] [] = r ∧ t.hbm = s.hbm ∧ t.hbmPc = s.hbmPc) ∧
  (∀ (st : Fin 4) (c : Fin 32) (n : Nat) (line : Fin 4) (level : Fin 8) (mirror : Bool) (flips : BitVec 576) (q : HbmReq)
    (s : State), (s.pc st c).inflight[n]? = some q →
    ∃ t, exec (.hbmReadComplete st c n line 0 level mirror flips) s = .next t ∧
      t.pc st c = { s.pc st c with inflight := (s.pc st c).inflight.eraseIdx n } ∧ t.hbm = s.hbm ∧ t.poison = s.poison)

/-- Training, retraining and self-refresh of a stack follow their permits and give the states of HBM_STAT.STATE. With
the last training grant a stack reads STATE 1 and, if its contents were lost, its ranges are free and DEFKEY is 1. Its
zero fill sets CONTENT and every byte of the stack reads 0. Training done gives STATE 2 with EN 1, a failure STATE 4
with EN 0 and one retry 10 ms later, a permit timeout leaves it untrained. Retraining gives STATE 5 and takes the
channels in order, the last back to STATE 2, and a failing channel without repairs takes the stack out. Commands 2 and
3 enter and leave self-refresh through STATE 3. A reading sets TEMP and HOT. HBM_ILV and HBM_HASH change only while EN
is 0. Clauses that stand in R236, R238, R247, R248, R249, R250, R251, R255, R256, R281, R394.
(spec/08_hbm_controller.md, spec/09_memory_sealing.md, spec/13_clocks_power_and_permits.md) -/
def Obligations.StacksTrainRetrainAndRefreshThemselves : Prop :=
  (∀ (st : Fin 4) (s : State), (s.stk st).train = 1 → (s.gov (9 + st)).ready.any (·.is 12 [st]) = true →
    (s.gov (2 * st)).queue = [] → (s.gov (9 + st)).queue = [] → s.rd .HBM_STAT_CONTENT [st] = 1 →
    ∃ t, exec (.hbmTrainingStart st) s = .next t ∧ t.hstate st = 1 ∧ (t.stk st).train = 2 ∧ (t.stk st).t0 = s.now ∧
      SameFields s t [(.HBM_STAT_STATE, [st])]) ∧
  (∀ (st : Fin 4) (s : State), (s.stk st).train = 1 → (s.gov (9 + st)).ready.any (·.is 12 [st]) = true →
    s.rd .HBM_STAT_CONTENT [st] = 0 →
    ∃ t, exec (.hbmTrainingStart st) s = .next t ∧ t.hstate st = 1 ∧ t.rd .SEAL_STAT_DEFKEY [st] = 1 ∧
      (∀ r : Fin 16, t.rd .SEAL_RSTAT_STATE [st, r] = 0 ∧ t.rd .SEAL_RCTL_OWNER [st, r] = 15)) ∧
  (∀ (st : Fin 4) (s : State), (s.stk st).train = 1 → (s.gov (2 * st)).expired.any (·.is 11 [st]) = true →
    ∃ t, exec (.hbmTrainPermitTimeout st) s = .next t ∧ (t.stk st).train = 0 ∧
      (t.stk st).retry = (if (s.stk st).retried then 0 else s.now + 10000000) ∧ t.hstate st = s.hstate st) ∧
  (∀ (st : Fin 4) (s : State), (s.stk st).retry ≠ 0 → (s.stk st).train = 0 → 6 ≤ s.rd .PG_CFG_BUDGET [2 * st.val] →
    ∃ t, exec (.hbmTrainRetry st) s = .next t ∧ (t.stk st).train = 1 ∧ (t.stk st).retried = true ∧
      (t.gov (2 * st)).queue.length = (s.gov (2 * st)).queue.length + 1 ∧ t.now = max s.now (s.stk st).retry) ∧
  (∀ (st : Fin 4) (softLeft : Fin 1537) (s : State), (s.stk st).train = 2 → s.rd .HBM_STAT_CONTENT [st] = 0 →
    ∃ t, exec (.zeroFillDone st softLeft false 0) s = .next t ∧ t.rd .HBM_STAT_CONTENT [st] = 1 ∧
      (∀ a : Nat, memGet t.hbm a 0 =
        if st.val * 0x900000000 ≤ a ∧ a < st.val * 0x900000000 + 0x900000000 then 0 else memGet s.hbm a 0) ∧
      SameFields s t [(.HBM_STAT_CONTENT, [st])]) ∧
  (∀ (st : Fin 4) (lrep : List Nat) (temp : BitVec 8) (rfm : Bool) (s : State), (s.stk st).train = 2 →
    s.rd .HBM_STAT_CONTENT [st] = 1 →
    ∃ t, exec (.hbmTrainingDone st lrep temp rfm) s = .next t ∧ t.hstate st = 2 ∧ t.rd .HBM_CTL_EN [st] = 1 ∧
      (t.stk st).train = 0 ∧ t.rd .HBM_RH_RFM_REQ [st] = (if rfm then 1 else 0) ∧
      (∀ c : Fin 16, t.rd .HBM_CH_STAT_STATE [st, c] = 1 ∧ t.rd .HBM_CH_STAT_LREP_LEFT [st, c] = min 15 (lrep.getD c 0)) ∧
      (s.stk st).t0 + 22000000 ≤ t.now) ∧
  (∀ (st : Fin 4) (s : State), (s.stk st).train = 2 →
    ∃ t, exec (.hbmTrainingFail st) s = .next t ∧ t.hstate st = 4 ∧ t.rd .HBM_CTL_EN [st] = 0 ∧ (t.stk st).train = 0 ∧
      (t.stk st).retry = (if (s.stk st).retried then 0 else s.now + 10000000)) ∧
  (∀ (st : Fin 4) (s : State), s.rd .HBM_TRAIN_PERIOD [st] ≠ 0 → s.hstate st = 2 → (s.stk st).todo = [] →
    ∃ t, exec (.hbmRetrainPeriod st) s = .next t ∧ t.hstate st = 5 ∧ (t.stk st).todo = List.range 16 ∧
      t.rd .HBM_CH_STAT_STATE [st, 0] = 2 ∧ (t.stk st).todoT = t.now + 3000) ∧
  (∀ (w : Writer) (st : Fin 4) (s : State), s.reaches w .HBM_CTL [st] = true → s.hstate st = 2 → (s.stk st).todo = [] →
    ∃ t, exec (.hbmCmdRetrain w st) s = .next t ∧ t.hstate st = 5 ∧ (t.stk st).todo = List.range 16) ∧
  (∀ (w : Writer) (st : Fin 4) (s : State), s.reaches w .HBM_CTL [st] = true → s.hstate st ≠ 2 → s.hstate st ≠ 5 →
    ∃ t, exec (.hbmCmdRetrain w st) s = .next t ∧ SameFields s t [] ∧ t.stack = s.stack) ∧
  (∀ (st : Fin 4) (c d : Nat) (r : List Nat) (s : State), (s.stk st).todo = c :: d :: r → c ≠ d →
    ∃ t, exec (.hbmChannelRetrainDone st false) s = .next t ∧ t.rd .HBM_CH_STAT_STATE [st, c] = 1 ∧
      t.rd .HBM_CH_STAT_STATE [st, d] = 2 ∧ (t.stk st).todo = d :: r) ∧
  (∀ (st : Fin 4) (c : Nat) (s : State), (s.stk st).todo = [c] →
    ∃ t, exec (.hbmChannelRetrainDone st false) s = .next t ∧ t.rd .HBM_CH_STAT_STATE [st, c] = 1 ∧ t.hstate st = 2 ∧
      (t.stk st).todo = []) ∧
  (∀ (st : Fin 4) (c : Nat) (r : List Nat) (s : State), (s.stk st).todo = c :: r → smGet (s.stk st).lrep [c] 0 = 0 →
    ∃ t, exec (.hbmChannelRetrainDone st true) s = .next t ∧ t.rd .HBM_CH_STAT_STATE [st, c] = 3 ∧
      t.rd .HBM_CTL_EN [st] = 0 ∧ (t.stk st).causes.contains 5 = true) ∧
  (∀ (w : Writer) (st : Fin 4) (s : State), s.reaches w .HBM_CTL [st] = true → s.hstate st = 2 ∨ s.hstate st = 5 →
    ∃ t, exec (.hbmCmdSelfRefresh w st) s = .next t ∧ (t.stk st).entering = true ∧ (t.stk st).causes.contains 4 = true ∧
      t.stackOk st = false) ∧
  (∀ (st : Fin 4) (s : State), (s.stk st).entering = true →
    ∃ t, exec (.selfRefreshEntered st) s = .next t ∧ t.hstate st = 3 ∧ (t.stk st).entering = false ∧
      (∀ c : Fin 32, t.pc st c = {}) ∧ (t.gov (9 + st)).held.any (·.is 12 [st]) = false) ∧
  (∀ (w : Writer) (st : Fin 4) (s : State), s.reaches w .HBM_CTL [st] = true → s.hstate st = 3 → (s.stk st).causes = [4] →
    (s.stk st).exitAsked = false → 8 ≤ s.rd .PG_CFG_BUDGET [9 + st.val] →
    ∃ t, exec (.hbmCmdSelfRefreshExit w st) s = .next t ∧ (t.stk st).exitAsked = true ∧
      (t.gov (9 + st)).queue.length = (s.gov (9 + st)).queue.length + 1) ∧
  (∀ (st : Fin 4) (s : State), (s.stk st).exitAsked = true → s.grantReady (9 + st) 12 [st] = true → (s.stk st).todo = [] →
    ∃ t, exec (.selfRefreshExitGrant st) s = .next t ∧ t.hstate st = 5 ∧ (t.stk st).causes = [] ∧
      (t.stk st).todo = List.range 16) ∧
  (∀ (st : Fin 4) (temp : BitVec 8) (s : State), s.hstate st = 2 → s.rd .HBM_TRAIN_DTEMP [st] = 0 →
    ∃ t, exec (.hbmTempReading st temp) s = .next t ∧ t.rd .HBM_STAT_TEMP [st] = temp.toNat ∧
      t.rd .HBM_STAT_HOT [st] = (if 85 ≤ temp.toNat then 1 else 0) ∧ t.hstate st = 2) ∧
  (∀ (w : Writer) (v : BitVec 2) (s : State), s.reaches w .HBM_ILV [] = true → (∀ st : Fin 4, s.rd .HBM_CTL_EN [st] = 0) →
    ∃ t, exec (.hbmIlvWrite w v) s = .next t ∧ t.rd .HBM_ILV_MODE [] = v.toNat ∧ SameFields s t [(.HBM_ILV_MODE, [])]) ∧
  (∀ (w : Writer) (v : BitVec 2) (st : Fin 4) (s : State), s.reaches w .HBM_ILV [] = true → s.up (2 * st) = true →
    s.rd .HBM_CTL_EN [st] = 1 →
    ∃ t, exec (.hbmIlvWrite w v) s = .next t ∧ SameFields s t []) ∧
  (∀ (w : Writer) (st : Fin 4) (i : Fin 9) (v : BitVec 26) (s : State), s.reaches w .HBM_HASH [st, i] = true →
    s.rd .HBM_CTL_EN [st] = 0 →
    ∃ t, exec (.hbmHashWrite w st i v) s = .next t ∧ t.rd .HBM_HASH_MASK [st, i] = hashMask i v.toNat ∧
      SameFields s t [(.HBM_HASH_MASK, [st, i])]) ∧
  (∀ (w : Writer) (st : Fin 4) (i : Fin 9) (v : BitVec 26) (s : State), s.reaches w .HBM_HASH [st, i] = true →
    s.rd .HBM_CTL_EN [st] = 1 →
    ∃ t, exec (.hbmHashWrite w st i v) s = .next t ∧ SameFields s t []) ∧
  (∀ (st : Fin 4) (temp : BitVec 8) (s : State), [1, 2, 3, 5].contains (s.hstate st) = true →
    ∃ t, exec (.hbmTempReading st temp) s = .next t ∧ t.rd .HBM_STAT_TEMP [st] = temp.toNat ∧
      t.rd .HBM_STAT_HOT [st] = (if 85 ≤ temp.toNat then 1 else 0))

/-- Claims, range commands, key operations and sweeps change a sealed range as its owner asks, and a command out of
place changes nothing. A claim of an unowned range by a function or a helm core makes it the owner, any other is
dropped. ENABLE gives STATE 1 and starts a sweep, a sweep's last chunk gives STATE 2. DISABLE of a free range erases
both slots and gives OWNER 15, of a live one gives STATE 4. REKEY gives STATE 3 and POS 0. RESUME clears SWSTOP. A
command out of place keeps the range's state and records code 6. A key operation makes BUSY 1 and when done the slot's
key bit is set or cleared. A sweep's permit lets it run, its timeout sets SWSTOP and code 7. A chunk moves POS by 64.
A lost node counts, a write-back raises its counter by 1. Clauses that stand in R260, R264, R266, R267, R273, R276,
R277, R278, R280, R283, R446. (spec/09_memory_sealing.md, spec/15_lodestar_security.md) -/
def Obligations.SealedRangesFollowTheirOwnersCommands : Prop :=
  (∀ (f : Fin 8) (st : Fin 4) (r : Fin 16) (s : State), s.reaches (.fn f) .SEAL_RCTL [st, r] = true →
    s.rd .SEAL_RCTL_OWNER [st, r] = 15 →
    ∃ t, exec (.sealClaim (.fn f) st r) s = .next t ∧ t.rd .SEAL_RCTL_OWNER [st, r] = f.val ∧
      SameFields s t [(.SEAL_RCTL_OWNER, [st, r])]) ∧
  (∀ (c : Fin 8) (st : Fin 4) (r : Fin 16) (s : State), s.reaches (.helm c) .SEAL_RCTL [st, r] = true →
    s.rd .SEAL_RCTL_OWNER [st, r] = 15 →
    ∃ t, exec (.sealClaim (.helm c) st r) s = .next t ∧ t.rd .SEAL_RCTL_OWNER [st, r] = 8) ∧
  (∀ (w : Writer) (st : Fin 4) (r : Fin 16) (s : State), s.reaches w .SEAL_RCTL [st, r] = true →
    s.rd .SEAL_RCTL_OWNER [st, r] ≠ 15 →
    ∃ t, exec (.sealClaim w st r) s = .next t ∧ SameFields s t []) ∧
  (∀ (w : Writer) (st : Fin 4) (r : Fin 16) (s : State), s.reaches w .SEAL_RCTL [st, r] = true →
    s.ownsRange w st r = true → s.enableOk st r = true → (s.seal st).run = none → (s.seal st).repairs = [] →
    ∃ t, exec (.enable w st r) s = .next t ∧ t.rd .SEAL_RSTAT_STATE [st, r] = 1 ∧ t.rd .SEAL_POS_POS [st, r] = 0 ∧
      (t.seal st).run = some { kind := 1, r := r.val, stop := 16384 * s.rd .SEAL_SIZE_MIB [st, r] } ∧
      t.rd .SEAL_STAT_KIND [st] = 1 ∧ t.rd .SEAL_RCTL_OWNER [st, r] = s.rd .SEAL_RCTL_OWNER [st, r]) ∧
  (∀ (w : Writer) (st : Fin 4) (r : Fin 16) (s : State), s.reaches w .SEAL_RCTL [st, r] = true →
    s.ownsRange w st r = true → s.enableOk st r = false →
    ∃ t, exec (.enable w st r) s = .next t ∧ t.rd .SEAL_RSTAT_STATE [st, r] = s.rd .SEAL_RSTAT_STATE [st, r] ∧
      t.seals = s.seals ∧ t.rd .SEAL_ERR_VALID [st] ≠ 0 ∧ (s.rd .SEAL_ERR_VALID [st] = 0 → t.rd .SEAL_ERR_CODE [st] = 6)) ∧
  (∀ (w : Writer) (st : Fin 4) (r : Fin 16) (s : State), s.reaches w .SEAL_RCTL [st, r] = true →
    s.ownsRange w st r = true → s.rd .SEAL_RSTAT_STATE [st, r] = 0 →
    ∃ t, exec (.disable w st r) s = .next t ∧ t.rd .SEAL_RCTL_OWNER [st, r] = 15 ∧ t.rd .SEAL_RSTAT_STATE [st, r] = 0 ∧
      t.rd .SEAL_RSTAT_KEYS [st, r] = 0 ∧ smGet t.keys [st.val, 2 * r.val] 0 = 0 ∧ smGet t.keys [st.val, 2 * r.val + 1] 0 = 0) ∧
  (∀ (w : Writer) (st : Fin 4) (r : Fin 16) (s : State), s.reaches w .SEAL_RCTL [st, r] = true →
    s.ownsRange w st r = true → [2, 3, 5].contains (s.rd .SEAL_RSTAT_STATE [st, r]) = true →
    ∃ t, exec (.disable w st r) s = .next t ∧ t.rd .SEAL_RSTAT_STATE [st, r] = 4 ∧
      t.rd .SEAL_RCTL_OWNER [st, r] = s.rd .SEAL_RCTL_OWNER [st, r] ∧ t.keys = s.keys) ∧
  (∀ (w : Writer) (st : Fin 4) (r : Fin 16) (s : State), s.reaches w .SEAL_RCTL [st, r] = true →
    s.ownsRange w st r = true → s.rd .SEAL_RSTAT_STATE [st, r] = 2 →
    s.holdsKey st r (1 - s.rd .SEAL_RCTL_CUR [st, r]) = true →
    ∃ t, exec (.rekey w st r) s = .next t ∧ t.rd .SEAL_RSTAT_STATE [st, r] = 3 ∧ t.rd .SEAL_POS_POS [st, r] = 0 ∧
      t.rd .SEAL_RCTL_CUR [st, r] = s.rd .SEAL_RCTL_CUR [st, r]) ∧
  (∀ (w : Writer) (st : Fin 4) (r : Fin 16) (s : State), s.reaches w .SEAL_RCTL [st, r] = true →
    s.ownsRange w st r = true → s.rd .SEAL_RSTAT_SWSTOP [st, r] = 1 →
    ∃ t, exec (.sealResume w st r) s = .next t ∧ t.rd .SEAL_RSTAT_SWSTOP [st, r] = 0 ∧
      t.rd .SEAL_RSTAT_STATE [st, r] = s.rd .SEAL_RSTAT_STATE [st, r]) ∧
  (∀ (w : Writer) (st : Fin 4) (slot : Fin 32) (s : State), s.reaches w .SEAL_KEY [st] = true →
    s.rd .SEAL_KEY_BUSY [st] = 0 → s.ownsRange w st (slot.val / 2) = true → (∀ p : Fin 2, w ≠ .pelorus p) →
    s.slotFree st slot = true →
    ∃ t, exec (.sealKeyGenerate w st slot.val) s = .next t ∧ t.rd .SEAL_KEY_BUSY [st] = 1 ∧
      t.rd .SEAL_KEY_SLOT [st] = slot.val ∧ (smGet t.keyOp [st.val] []).take 2 = [slot.val, 1]) ∧
  (∀ (w : Writer) (st : Fin 4) (slot : Fin 32) (ses : BitVec 8) (s : State), s.reaches w .SEAL_KEY [st] = true →
    s.rd .SEAL_KEY_BUSY [st] = 0 → s.ownsRange w st (slot.val / 2) = true → (∀ p : Fin 2, w ≠ .pelorus p) →
    s.slotFree st slot = true → s.depositFor w ses.toNat = true →
    ∃ t, exec (.sealKeyImport w st slot.val ses) s = .next t ∧ t.rd .SEAL_KEY_BUSY [st] = 1 ∧
      (smGet t.keyOp [st.val] []).take 2 = [slot.val, 2] ∧ t.rd .SEAL_KEY_SESSION [st] = ses.toNat) ∧
  (∀ (w : Writer) (st : Fin 4) (slot : Fin 32) (s : State), s.reaches w .SEAL_KEY [st] = true →
    s.rd .SEAL_KEY_BUSY [st] = 0 → s.ownsRange w st (slot.val / 2) = true → (∀ p : Fin 2, w ≠ .pelorus p) →
    s.slotFree st slot = true →
    ∃ t, exec (.sealKeyErase w st slot.val) s = .next t ∧ t.rd .SEAL_KEY_BUSY [st] = 1 ∧
      (smGet t.keyOp [st.val] []).take 2 = [slot.val, 3]) ∧
  (∀ (st : Fin 4) (slot : Fin 32) (u n : Nat) (s : State), smGet s.keyOp [st.val] [] = [slot.val, 3, u, n] →
    ∃ t, exec (.sealKeyDone st none) s = .next t ∧ t.rd .SEAL_KEY_BUSY [st] = 0 ∧
      (t.rd .SEAL_RSTAT_KEYS [st, slot.val / 2]).testBit (slot.val % 2) = false ∧ smGet t.keys [st.val, slot.val] 0 = 0) ∧
  (∀ (st : Fin 4) (slot : Fin 32) (u n : Nat) (s : State), smGet s.keyOp [st.val] [] = [slot.val, 1, u, n] →
    s.rd .LS_STAT_TRNG_OK [] = 1 →
    ∃ t, exec (.sealKeyDone st none) s = .next t ∧ t.rd .SEAL_KEY_BUSY [st] = 0 ∧
      (t.rd .SEAL_RSTAT_KEYS [st, slot.val / 2]).testBit (slot.val % 2) = true ∧ t.draws = s.draws + 2) ∧
  (∀ (st : Fin 4) (s : State), (s.seal st).asked = true → (s.seal st).rAsked = false → (s.seal st).run ≠ none →
    s.sweepStopped st = false → 0 < s.sealRate st →
    (s.gov (2 * st)).ready.any (·.is 10 [st]) = true →
    unitSum ((s.gov (2 * st)).held.filter (·.is 10 [st.val])) = sweepUnits (s.sealRate st) →
    ∃ t, exec (.sweepPermitGrant st) s = .next t ∧ (t.seal st).asked = false ∧
      (t.seal st).units = sweepUnits (s.sealRate st) ∧ t.rd .SEAL_STAT_PERMIT_WAIT [st] = 0) ∧
  (∀ (st : Fin 4) (x : Sweep) (s : State), (s.seal st).asked = true → (s.seal st).rAsked = false → (s.seal st).run = some x →
    s.timeoutReady (2 * st) 10 [st] = true →
    ∃ t, exec (.sweepPermitTimeout st) s = .next t ∧ (t.seal st).asked = false ∧ (t.seal st).units = 0 ∧
      t.rd .SEAL_RSTAT_SWSTOP [st, x.r] = 1 ∧ (s.rd .SEAL_ERR_VALID [st] = 0 → t.rd .SEAL_ERR_CODE [st] = 7)) ∧
  (∀ (st : Fin 4) (x : Sweep) (l : List Sweep) (s : State), (s.seal st).retryT ≠ 0 → (s.seal st).repairs = x :: l →
    (s.seal st).units = 0 → (s.seal st).rAsked = false → (s.seal st).rUnits = 0 →
    sweepUnits (s.repairRate st) ≤ s.rd .PG_CFG_BUDGET [2 * st.val] →
    ∃ t, exec (.repairPermitRetry st) s = .next t ∧ (t.seal st).retryT = 0 ∧ (t.seal st).rAsked = true ∧
      (t.gov (2 * st)).queue.length = (s.gov (2 * st)).queue.length + 1 ∧ t.now = max s.now (s.seal st).retryT) ∧
  (∀ (st : Fin 4) (x : Sweep) (s : State), s.stackOk st = true → (s.seal st).repairs = [] → (s.seal st).run = some x →
    x.kind = 2 → s.rd .SEAL_RCTL_MODE [st, x.r] = 0 → 0 < (s.seal st).units → (s.seal st).asked = false →
    0 < s.sealRate st → s.sweepStopped st = false → s.chunkBusy st x.r x.pos = false → x.pos + 64 < x.stop →
    x.pos + 64 < 2 ^ 30 →
    ∃ t, exec (.sweepChunk st []) s = .next t ∧ t.rd .SEAL_POS_POS [st, x.r] = x.pos + 64 ∧
      (t.seal st).run = some { x with pos := x.pos + 64 } ∧ t.now = s.now + ceilDiv 4096 (s.sealRate st) ∧ t.hbm = s.hbm) ∧
  (∀ (st : Fin 4) (x : Sweep) (s : State), s.stackOk st = true → (s.seal st).repairs = [] → (s.seal st).run = some x →
    (s.seal st).queue = [] → x.kind = 1 → 0 < (s.seal st).units → (s.seal st).asked = false → 0 < s.sealRate st →
    s.sweepStopped st = false → s.chunkBusy st x.r x.pos = false → x.stop ≤ x.pos + 64 →
    ∃ t, exec (.sweepChunk st []) s = .next t ∧ t.rd .SEAL_RSTAT_STATE [st, x.r] = 2 ∧ (t.seal st).run = none ∧
      t.rd .SEAL_STAT_KIND [st] = 0 ∧ (t.gov (2 * st)).held.any (·.is 10 [st]) = false) ∧
  (∀ (st : Fin 4) (c : Fin 8) (rate : BitVec 6) (s : State), s.reaches (.helm c) .SEAL_CTL [st] = true →
    ∃ t, exec (.sealRateWrite (.helm c) st rate) s = .next t ∧ t.rd .SEAL_CTL_RATE [st] = rate.toNat) ∧
  (∀ (st : Fin 4) (rate : BitVec 6) (s : State), s.reaches .other .SEAL_CTL [st] = true →
    ∃ t, exec (.sealRateWrite .other st rate) s = .next t ∧ SameFields s t []) ∧
  (∀ (st : Fin 4) (r : Fin 16) (level : Fin 8) (node : BitVec 24) (s : State), s.sealLive st r = true →
    s.rd .SEAL_RCTL_MODE [st, r] = 1 → level.val < (treeLevels (s.rd .SEAL_SIZE_MIB [st, r])).length →
    node.toNat < (treeLevels (s.rd .SEAL_SIZE_MIB [st, r])).getD level 0 → smGet s.hwm [st.val, r.val] 0 + 1 < 2 ^ 56 →
    ∃ t, exec (.nodeLost st r level node) s = .next t ∧ smGet t.lostN [st.val, r.val, level.val, node.toNat] false = true ∧
      t.rd .SEAL_LOST_CNT_COUNT [st] = min (s.rd .SEAL_LOST_CNT_COUNT [st] + 1) 0xFFFFFFFF ∧
      t.rd .SEAL_NODE_CNT_COUNT [st] = min (s.rd .SEAL_NODE_CNT_COUNT [st] + 2) 0xFFFFFFFF ∧
      ((t.seal st).repairs.getLast?.map (·.node)) = some node.toNat ∧ t.rd .SEAL_STAT_KIND [st] = 4) ∧
  (∀ (st : Fin 4) (r : Fin 16) (level : Fin 8) (node : BitVec 24) (s : State),
    smGet s.ccache [st.val, r.val, level.val, node.toNat] 0 = 2 →
    smGet s.innerC [st.val, r.val, level.val, node.toNat] 0 + 1 < 2 ^ 56 →
    ∃ t, exec (.counterCacheWriteback st r level node) s = .next t ∧
      smGet t.innerC [st.val, r.val, level.val, node.toNat] 0 = smGet s.innerC [st.val, r.val, level.val, node.toNat] 0 + 1 ∧
      smGet t.ccache [st.val, r.val, level.val, node.toNat] 0 = 1 ∧ SameFields s t []) ∧
  (∀ (w : Writer) (st : Fin 4) (r : Fin 16) (s : State), s.reaches w .SEAL_RCTL [st, r] = true →
    s.ownsRange w st r = true → [2, 3, 5].contains (s.rd .SEAL_RSTAT_STATE [st, r]) = false → s.rd .SEAL_RSTAT_STATE [st, r] ≠ 0 →
    ∃ t, exec (.disable w st r) s = .next t ∧ t.rd .SEAL_RSTAT_STATE [st, r] = s.rd .SEAL_RSTAT_STATE [st, r] ∧
      t.seals = s.seals ∧ t.rd .SEAL_ERR_VALID [st] ≠ 0 ∧ (s.rd .SEAL_ERR_VALID [st] = 0 → t.rd .SEAL_ERR_CODE [st] = 6)) ∧
  (∀ (w : Writer) (st : Fin 4) (r : Fin 16) (s : State), s.reaches w .SEAL_RCTL [st, r] = true →
    s.ownsRange w st r = true → (s.rd .SEAL_RSTAT_STATE [st, r] ≠ 2 ∨ s.holdsKey st r (1 - s.rd .SEAL_RCTL_CUR [st, r]) = false) →
    ∃ t, exec (.rekey w st r) s = .next t ∧ t.rd .SEAL_RSTAT_STATE [st, r] = s.rd .SEAL_RSTAT_STATE [st, r] ∧
      t.seals = s.seals ∧ t.rd .SEAL_ERR_VALID [st] ≠ 0 ∧ (s.rd .SEAL_ERR_VALID [st] = 0 → t.rd .SEAL_ERR_CODE [st] = 6)) ∧
  (∀ (w : Writer) (st : Fin 4) (r : Fin 16) (s : State), s.reaches w .SEAL_RCTL [st, r] = true →
    s.ownsRange w st r = true → s.rd .SEAL_RSTAT_SWSTOP [st, r] = 0 →
    ∃ t, exec (.sealResume w st r) s = .next t ∧ t.rd .SEAL_RSTAT_STATE [st, r] = s.rd .SEAL_RSTAT_STATE [st, r] ∧
      t.seals = s.seals ∧ t.rd .SEAL_ERR_VALID [st] ≠ 0 ∧ (s.rd .SEAL_ERR_VALID [st] = 0 → t.rd .SEAL_ERR_CODE [st] = 6))

/-- Hits, misses, home requests, snoops, grants and evictions move a line and its directory entry as the coherence
rules say. A read hit answers the line's data and counts, a write hit on an owned line makes it modified, a read miss
sends CRdS to the home. A home that takes CRdS of an unowned line shares it with the requester and answers the stored
line, CRdX of a held line snoops the other holders, CUpg of a line held by its requester alone grants it. CEvC clears
the holder's bit. An invalidating snoop takes a modified line back into memory and drops it, a sharing one leaves it
shared. DataX or the upgrade acknowledgement makes a waiting write modified. An eviction writes its line to memory and
counts. Clauses that stand in R215, R217, R218, R219, R220, R222, R224. (spec/07_galkor_ring_and_remote_caching.md) -/
def Obligations.RemoteCachesAndHomesKeepLinesCoherent : Prop :=
  (∀ (n : Fin 8) (line : BitVec 32) (src : BitVec 12) (fn : BitVec 4) (d : BitVec 512) (s : State),
    s.cacheable n (line.toNat * 64) = true → (s.rcLine n line.toNat).st ≠ 0 → (s.rcLine n line.toNat).poison = false →
    ∃ t, exec (.rcAccess n line false d src fn 0) s = .next t ∧ t.answer = (s.rcLine n line.toNat).data ∧
      t.rd .RC_HIT_CNT_COUNT [n] = min (s.rd .RC_HIT_CNT_COUNT [n] + 1) 0xFFFFFFFF ∧ t.rcLines = s.rcLines ∧
      SameFields s t [(.RC_HIT_CNT_COUNT, [n])]) ∧
  (∀ (n : Fin 8) (line : BitVec 32) (src : BitVec 12) (fn : BitVec 4) (d : BitVec 512) (s : State),
    s.cacheable n (line.toNat * 64) = true → 2 ≤ (s.rcLine n line.toNat).st → s.winAttr (line.toNat * 64) = 1 →
    ∃ t, exec (.rcAccess n line true d src fn 0) s = .next t ∧ (t.rcLine n line.toNat).st = 3 ∧
      (t.rcLine n line.toNat).data = d.toNat ∧ (t.rcLine n line.toNat).poison = false ∧ t.hbm = s.hbm) ∧
  (∀ (n : Fin 8) (line : BitVec 32) (src : BitVec 12) (fn : BitVec 4) (d : BitVec 512) (h : Fin 4) (s : State),
    s.cacheable n (line.toNat * 64) = true → (s.rcLine n line.toNat).st = 0 → s.winAttr (line.toNat * 64) = 1 →
    (s.lineHome line.toNat).1 = h.val → s.stackOk h = true → s.rcMiss = [] →
    ∃ t, exec (.rcAccess n line false d src fn 0) s = .next t ∧
      t.haQ h = s.haQ h ++ [{ opc := 0x18, line := line.toNat, die := n.val }] ∧ (t.miss n line.toNat).opc = 0x18 ∧
      t.rd .RC_MISS_CNT_COUNT [n] = min (s.rd .RC_MISS_CNT_COUNT [n] + 1) 0xFFFFFFFF) ∧
  (∀ (n : Fin 8) (line : BitVec 32) (h : Fin 4) (q : List HaReq) (s : State), (s.lineHome line.toNat).1 = h.val →
    s.haQ h = { opc := 0x18, line := line.toNat, die := n.val } :: q → (s.tx h line.toNat).req.opc = 0 →
    s.rd .HA_STAT_RECALL [h] = 0 → s.stackOk h = true → (s.sfEnt h line.toNat).owned = false →
    (s.sf.filter (fun e => e.1.headD 9 == h.val && sfSet (e.1.getD 1 0) == sfSet line.toNat)).length < 16 →
    (s.rcSet n line.toNat).length < 16 →
    ∃ t, exec (.crds n line) s = .next t ∧ t.haQ h = q ∧ (t.rcLine n line.toNat).st = 1 ∧
      (t.rcLine n line.toNat).data = s.lineData (s.lineKey h (s.lineHome line.toNat).2) ∧
      (t.sfEnt h line.toNat).mask.testBit n = true ∧
      (s.poison.contains (s.lineKey h (s.lineHome line.toNat).2) = false →
        t.answer = s.lineData (s.lineKey h (s.lineHome line.toNat).2))) ∧
  (∀ (n m : Fin 8) (line : BitVec 32) (h : Fin 4) (q : List HaReq) (s : State), (s.lineHome line.toNat).1 = h.val →
    s.haQ h = { opc := 0x19, line := line.toNat, die := n.val } :: q → (s.tx h line.toNat).req.opc = 0 →
    s.rd .HA_STAT_RECALL [h] = 0 → s.stackOk h = true → (s.sfEnt h line.toNat).mask = 2 ^ m.val → m ≠ n →
    ∃ t, exec (.crdx n line) s = .next t ∧ t.haQ h = q ∧ (t.tx h line.toNat).wait = 2 ^ m.val ∧
      (t.tx h line.toNat).inval = true ∧ (t.tx h line.toNat).req.die = n.val) ∧
  (∀ (n : Fin 8) (line : BitVec 32) (h : Fin 4) (q : List HaReq) (s : State), (s.lineHome line.toNat).1 = h.val →
    s.haQ h = { opc := 0x1A, line := line.toNat, die := n.val } :: q → (s.tx h line.toNat).req.opc = 0 →
    s.rd .HA_STAT_RECALL [h] = 0 → s.stackOk h = true → (s.sfEnt h line.toNat).mask = 2 ^ n.val →
    ∃ t, exec (.cupg n line) s = .next t ∧ t.haQ h = q ∧ (t.miss n line.toNat).grant = 3 ∧
      (t.sfEnt h line.toNat).owned = true ∧ (t.sfEnt h line.toNat).mask = 2 ^ n.val) ∧
  (∀ (n : Fin 8) (line : BitVec 32) (h : Fin 4) (q : List HaReq) (s : State), (s.lineHome line.toNat).1 = h.val →
    s.haQ h = { opc := 0x1B, line := line.toNat, die := n.val } :: q →
    ∃ t, exec (.cevc n line) s = .next t ∧ t.haQ h = q ∧ (t.sfEnt h line.toNat).mask.testBit n = false) ∧
  (∀ (n : Fin 8) (line : BitVec 32) (h : Fin 4) (s : State), (s.lineHome line.toNat).1 = h.val →
    (s.tx h line.toNat).req.opc ≠ 0 → (s.tx h line.toNat).inval = true → (s.tx h line.toNat).wait.testBit n = true →
    (s.tx h line.toNat).wait ≠ 2 ^ n.val → (s.rcLine n line.toNat).st = 3 → (s.rcLine n line.toNat).poison = false →
    s.wbs n = [] →
    ∃ t, exec (.hsni n line) s = .next t ∧ (t.rcLine n line.toNat).st = 0 ∧
      t.hbm = memStore s.hbm (s.lineKey h (s.lineHome line.toNat).2) (natLe (s.rcLine n line.toNat).data 64) 0 ∧
      (t.sfEnt h line.toNat).mask.testBit n = false ∧ (t.tx h line.toNat).wait = (s.tx h line.toNat).wait - 2 ^ n.val ∧
      t.rd .RC_SNP_CNT_COUNT [n] = min (s.rd .RC_SNP_CNT_COUNT [n] + 1) 0xFFFFFFFF) ∧
  (∀ (n : Fin 8) (line : BitVec 32) (h : Fin 4) (s : State), (s.lineHome line.toNat).1 = h.val →
    (s.tx h line.toNat).req.opc ≠ 0 → (s.tx h line.toNat).inval = false → (s.tx h line.toNat).wait.testBit n = true →
    (s.tx h line.toNat).wait ≠ 2 ^ n.val → (s.rcLine n line.toNat).st = 2 → s.wbs n = [] →
    ∃ t, exec (.hsns n line) s = .next t ∧ (t.rcLine n line.toNat).st = 1 ∧ t.hbm = s.hbm ∧
      (t.sfEnt h line.toNat).owned = false ∧ (t.tx h line.toNat).wait = (s.tx h line.toNat).wait - 2 ^ n.val) ∧
  (∀ (n : Fin 8) (line : BitVec 32) (h : Fin 4) (s : State), (s.lineHome line.toNat).1 = h.val →
    (s.tx h line.toNat).acks.testBit n = true → (s.tx h line.toNat).acks ≠ 2 ^ n.val →
    ∃ t, exec (.cack n line true) s = .next t ∧ (t.tx h line.toNat).acks = (s.tx h line.toNat).acks - 2 ^ n.val) ∧
  (∀ (n : Fin 8) (line : BitVec 32) (s : State), (s.miss n line.toNat).grant = 3 → (s.miss n line.toNat).write = true →
    (s.rcSet n line.toNat).length < 16 →
    ∃ t, exec (.cack n line false) s = .next t ∧ (t.rcLine n line.toNat).st = 3 ∧
      (t.rcLine n line.toNat).data = (s.miss n line.toNat).data ∧ t.miss n line.toNat = {}) ∧
  (∀ (n : Fin 8) (line : BitVec 32) (s : State), (s.miss n line.toNat).grant = 2 → (s.miss n line.toNat).write = true →
    (s.rcSet n line.toNat).length < 16 →
    ∃ t, exec (.datax n line) s = .next t ∧ (t.rcLine n line.toNat).st = 3 ∧
      (t.rcLine n line.toNat).data = (s.miss n line.toNat).data ∧ t.miss n line.toNat = {}) ∧
  (∀ (n : Fin 8) (b : RcWb) (r : List RcWb) (s : State), s.wbs n = b :: r → s.stackOk (s.lineHome b.line).1 = true →
    b.taken = false → b.poison = false →
    ∃ t, exec (.dirtyEviction n) s = .next t ∧ t.wbs n = r ∧
      t.hbm = memStore s.hbm (s.lineKey (s.lineHome b.line).1 (s.lineHome b.line).2) (natLe b.data 64) 0 ∧
      t.rd .RC_WB_CNT_COUNT [n] = min (s.rd .RC_WB_CNT_COUNT [n] + 1) 0xFFFFFFFF)

/-- Range commands, window disables and the loss of a home write back, clean or drop exactly what they select. RC_CMD
sets BUSY and STATE 2: a flush writes the dirty line it selects to memory and drops it, a clean writes it and keeps it
shared, an invalidate drops a read-mostly line unwritten. A command while BUSY changes no field. Its end clears BUSY
and STATE follows EN. A window inside HBM is enabled, one beyond is not, a disable makes BUSY 1 and, when done, EN 0.
An unreachable home retains dirty lines and drops clean ones, its recall clears RECALL. A flush not done in LOSS_TO
loses the cache's lines. Clauses that stand in R214, R216, R221, R223, R224, R225, R226, R230, R232.
(spec/07_galkor_ring_and_remote_caching.md) -/
def Obligations.CacheCommandsAndWindowsFlushTheirLines : Prop :=
  (∀ (w : Writer) (n : Fin 8) (l : Nat) (x : RcLine) (s : State), s.reaches w .RC_CMD [n] = true →
    s.rd .RC_CMD_BUSY [n] = 0 → s.rcLines = [([n.val, l], x)] → s.rcRange n l = true → x.st = 3 → x.poison = false →
    s.stackOk (s.lineHome l).1 = true → s.rd .RC_CMD_LEN_LEN [n] ≠ 0 →
    ∃ t, exec (.rcFlushRange w n) s = .next t ∧ t.rd .RC_CMD_BUSY [n] = 1 ∧ t.rd .RC_STAT_STATE [n] = 2 ∧ t.rcLines = [] ∧
      t.hbm = memStore s.hbm (s.lineKey (s.lineHome l).1 (s.lineHome l).2) (natLe x.data 64) 0) ∧
  (∀ (w : Writer) (n : Fin 8) (s : State), s.reaches w .RC_CMD [n] = true → s.rd .RC_CMD_BUSY [n] = 1 →
    ∃ t, exec (.rcFlushRange w n) s = .next t ∧ SameFields s t [] ∧ t.rcLines = s.rcLines) ∧
  (∀ (w : Writer) (n : Fin 8) (l : Nat) (x : RcLine) (s : State), s.reaches w .RC_CMD [n] = true →
    s.rd .RC_CMD_BUSY [n] = 0 → s.rcLines = [([n.val, l], x)] → s.rcRange n l = true → x.st = 3 → x.poison = false →
    s.stackOk (s.lineHome l).1 = true → s.rd .RC_CMD_LEN_LEN [n] ≠ 0 →
    ∃ t, exec (.rcCleanRange w n) s = .next t ∧ t.rd .RC_CMD_BUSY [n] = 1 ∧
      t.rcLine n l = { x with st := 1, retained := false } ∧
      t.hbm = memStore s.hbm (s.lineKey (s.lineHome l).1 (s.lineHome l).2) (natLe x.data 64) 0) ∧
  (∀ (w : Writer) (n : Fin 8) (l : Nat) (x : RcLine) (s : State), s.reaches w .RC_CMD [n] = true →
    s.rd .RC_CMD_BUSY [n] = 0 → s.rcLines = [([n.val, l], x)] → s.rcRange n l = true → x.rm = true →
    s.rd .RC_CMD_LEN_LEN [n] ≠ 0 →
    ∃ t, exec (.rcInvalidateReadMostly w n) s = .next t ∧ t.rcLines = [] ∧ t.hbm = s.hbm) ∧
  (∀ (w : Writer) (n : Fin 8) (l : Nat) (x : RcLine) (s : State), s.reaches w .RC_CMD [n] = true →
    s.rd .RC_CMD_BUSY [n] = 0 → s.rcLines = [([n.val, l], x)] → x.st = 3 → x.poison = false → s.wbs n = [] →
    s.stackOk (s.lineHome l).1 = true →
    ∃ t, exec (.rcFlushAll w n) s = .next t ∧ t.rd .RC_CMD_BUSY [n] = 1 ∧ t.rcLines = [] ∧
      t.hbm = memStore s.hbm (s.lineKey (s.lineHome l).1 (s.lineHome l).2) (natLe x.data 64) 0) ∧
  (∀ (n : Fin 8) (s : State), s.rd .RC_CMD_BUSY [n] = 1 →
    ∃ t, exec (.rcCmdDone n) s = .next t ∧ t.rd .RC_CMD_BUSY [n] = 0 ∧
      t.rd .RC_STAT_STATE [n] = (if s.rd .RC_CTL_EN [n] = 0 then 0 else 1) ∧
      SameFields s t [(.RC_CMD_BUSY, [n]), (.RC_STAT_STATE, [n])]) ∧
  (∀ (w : Writer) (i : Fin 16) (s : State), s.mute w = false →
    s.rd .RCW_BASE_LO_ADDR [i] * 2 ^ 20 + s.rd .RCW_BASE_HI_ADDR [i] * 2 ^ 32 + s.rd .RCW_SIZE_MIB [i] * 2 ^ 20
      ≤ 0x2400000000 →
    ∃ t, exec (.rcwEnable w i) s = .next t ∧ t.rd .RCW_CTL_EN [i] = 1 ∧ SameFields s t [(.RCW_CTL_EN, [i])]) ∧
  (∀ (w : Writer) (i : Fin 16) (s : State), s.mute w = false →
    0x2400000000 <
      s.rd .RCW_BASE_LO_ADDR [i] * 2 ^ 20 + s.rd .RCW_BASE_HI_ADDR [i] * 2 ^ 32 + s.rd .RCW_SIZE_MIB [i] * 2 ^ 20 →
    ∃ t, exec (.rcwEnable w i) s = .next t ∧ SameFields s t []) ∧
  (∀ (w : Writer) (i : Fin 16) (s : State), s.mute w = false → s.rd .RCW_CTL_EN [i] = 1 →
    ∃ t, exec (.rcwDisable w i) s = .next t ∧ t.rd .RCW_CTL_BUSY [i] = 1 ∧ t.rd .RCW_CTL_EN [i] = 1) ∧
  (∀ (n : Fin 8) (i : Fin 16) (l : Nat) (x : RcLine) (s : State), s.rd .RCW_CTL_BUSY [i] = 1 →
    s.rcLines = [([n.val, l], x)] → s.inWindow i l = true → x.st = 3 → x.poison = false →
    s.stackOk (s.lineHome l).1 = true →
    ∃ t, exec (.rcwDisableDone i) s = .next t ∧ t.rd .RCW_CTL_BUSY [i] = 0 ∧ t.rd .RCW_CTL_EN [i] = 0 ∧ t.rcLines = [] ∧
      t.hbm = memStore s.hbm (s.lineKey (s.lineHome l).1 (s.lineHome l).2) (natLe x.data 64) 0) ∧
  (∀ (st : Fin 4) (n : Fin 8) (l : Nat) (x : RcLine) (s : State), s.stackOk st = false → s.rcLines = [([n.val, l], x)] →
    (s.lineHome l).1 = st.val → x.st = 3 →
    ∃ t, exec (.homeUnreachable st) s = .next t ∧ (t.rcLine n l).retained = true ∧ t.rd .RC_STAT_RETAINED [n] = 1 ∧
      t.homeOut.contains st.val = true ∧ t.hbm = s.hbm) ∧
  (∀ (st : Fin 4) (n : Fin 8) (l : Nat) (x : RcLine) (s : State), s.stackOk st = false → s.rcLines = [([n.val, l], x)] →
    (s.lineHome l).1 = st.val → x.st ≠ 3 →
    ∃ t, exec (.homeUnreachable st) s = .next t ∧ t.rcLines = []) ∧
  (∀ (st : Fin 4) (s : State), s.rd .HA_STAT_RECALL [st] = 1 → s.stackOk st = true →
    ∃ t, exec (.homeRecallDone st) s = .next t ∧ t.rd .HA_STAT_RECALL [st] = 0 ∧ t.homeOut.contains st.val = false) ∧
  (∀ (n : Fin 8) (s : State), smGet s.rcLossT [n.val] 0 ≠ 0 →
    ∃ t, exec (.rcLossTimeout n) s = .next t ∧ smGet t.rcLossT [n.val] 0 = 0 ∧ t.wbs n = [] ∧
      t.rcLines = s.rcLines.filter (fun e => e.1.headD 9 != n.val) ∧ t.now = max s.now (smGet s.rcLossT [n.val] 0))

/-- Links train under their permits, number and replay frames, and swap, retire and convert groups. At the last grant
both ends read STATE 1. A spoke trained without a bad lane reads 2 with every group in the NoC role, a ring link with
XSECT 0xFF gives 48 crossing groups in order, its COH groups and the rest NoC. A permit timeout leads to one retry 10
ms later. GK_ROLE changes both ends while neither die is in service. A frame in sequence advances the expected number,
a CRC failure counts and discards, a negative acknowledgement is replayed from, 512 unacknowledged frames hold flits
back. A lane past its threshold crosses. A swap of a NoC group pauses it, rejoining takes the spare. A crossing group
swaps at its instant. A NoC or coherence group that retires leaves its role, a crossing one takes a NoC group. A
crossing frame gives its signals after L cycles, a bad CRC-5 sets XERR, frames missing isolate. The instants of R208
and R209 are the model's choice (log entries 131 and 130). Clauses that stand in R194, R198, R199, R200, R205, R206,
R207, R208, R209, R212, R213, R228. (spec/07_galkor_ring_and_remote_caching.md) -/
def Obligations.LinksTrainReplayAndRepairThemselves : Prop :=
  (∀ (l : Fin 16) (s : State), (s.link l).train = 1 → 8 ≤ l.val → s.grantReady (l - 8) 8 [l] = true →
    ∃ t, exec (.linkTrainingStart l) s = .next t ∧ (t.link l).train = 2 ∧ (t.link l).t0 = t.now ∧
      t.rd .GK_STAT_STATE [l - 8, 2] = 1 ∧ t.rd .GK_STAT_STATE [8, l - 8] = 1) ∧
  (∀ (l : Fin 7) (s : State), (s.link l).train = 1 → (s.gov l).queue = [] → s.grantReady (l + 1) 7 [l] = true →
    ∃ t, exec (.linkTrainingStart (l.castLE (by decide))) s = .next t ∧ (t.link l).train = 2 ∧
      t.rd .GK_STAT_STATE [l + 1, 0] = 1 ∧ t.rd .GK_STAT_STATE [l, 1] = 1) ∧
  (∀ (l : Fin 16) (bs : BearingSet) (s : State), (s.link l).train = 2 → 8 ≤ l.val →
    ∃ t, exec (.linkTrainingDone l [] [] bs) s = .next t ∧ (t.link l).train = 0 ∧ t.rd .GK_STAT_STATE [l - 8, 2] = 2 ∧
      t.rd .GK_STAT_STATE [8, l - 8] = 2 ∧ (s.link l).t0 + 1050000 ≤ t.now ∧
      (∀ g : Fin 32, t.rd .GK_GRP_STAT_ROLE [l - 8, 2, g] = 2 ∧ t.rd .GK_GRP_STAT_SPARE_FOR [l - 8, 2, g] = 63)) ∧
  (∀ (l : Fin 16) (s : State), (s.link l).train = 1 → (s.gov ((linkDies l).headD 0)).expired.any (·.is (linkOp l) [l]) = true →
    ∃ t, exec (.linkTrainingPermitTimeout l) s = .next t ∧ (t.link l).train = 0 ∧
      (t.link l).retry = (if (s.link l).retried then 0 else s.now + 10000000)) ∧
  (∀ (l : Fin 16) (s : State), (s.link l).retry ≠ 0 → (s.link l).train = 0 →
    linkUnits l ≤ s.rd .PG_CFG_BUDGET [(linkDies l).headD 0] →
    ∃ t, exec (.linkTrainingRetry l) s = .next t ∧ (t.link l).train = 1 ∧ (t.link l).retried = true ∧
      (t.gov ((linkDies l).headD 0)).queue.length = (s.gov ((linkDies l).headD 0)).queue.length + 1 ∧
      t.now = max s.now (s.link l).retry) ∧
  (∀ (w : Writer) (n : Fin 8) (x : BitVec 8) (c : BitVec 5) (s : State), s.mute w = false → s.up n = false →
    s.up ((n.val + 1) % 8) = false →
    ∃ t, exec (.gkRoleWrite w n x c) s = .next t ∧ t.rd .GK_ROLE_XSECT [n, 1] = x.toNat ∧ t.rd .GK_ROLE_COH [n, 1] = c.toNat ∧
      t.rd .GK_ROLE_XSECT [(n.val + 1) % 8, 0] = x.toNat ∧ t.rd .GK_ROLE_COH [(n.val + 1) % 8, 0] = c.toNat) ∧
  (∀ (w : Writer) (n : Fin 8) (x : BitVec 8) (c : BitVec 5) (s : State), s.up n = true →
    ∃ t, exec (.gkRoleWrite w n x c) s = .next t ∧ SameFields s t []) ∧
  (∀ (l : Fin 8) (bs : BearingSet) (s : State), (s.link l).train = 2 → s.rd .GK_ROLE_XSECT [l, 1] = 255 →
    ∃ t, exec (.linkTrainingDone (l.castLE (by decide)) [] [] bs) s = .next t ∧ (t.link l).train = 0 ∧
      t.rd .GK_STAT_STATE [l, 1] = 2 ∧ t.rd .GK_STAT_CROSS [l, 1] = 48 ∧
      t.rd .GK_STAT_COH [l, 1] = min 24 (s.rd .GK_ROLE_COH [l, 1]) ∧
      t.rd .GK_STAT_NOC [l, 1] = 48 - min 24 (s.rd .GK_ROLE_COH [l, 1]) ∧
      (∀ g : Fin 96, g.val < 48 → t.rd .GK_GRP_STAT_ROLE [l, 1, g] = 1 ∧ t.rd .GK_GRP_STAT_LCROSS [l, 1, g] = g.val)) ∧
  (∀ (n : Fin 8) (k : Fin 3) (coh : Bool) (g h i : Fin 96) (f : GkFlit) (s : State), s.dirUp n k = true →
    [g.val, h.val, i.val].all (fun g => (s.poolGroups n k (if coh then 1 else 0)).contains g) = true →
    (s.pool n k (if coh then 1 else 0)).fails < 16 →
    (s.pool n k (if coh then 1 else 0)).buf[(s.pool n k (if coh then 1 else 0)).sent]? = some f →
    ((s.pool n k (if coh then 1 else 0)).seq + 1024 - (s.pool n k (if coh then 1 else 0)).buf.length +
      (s.pool n k (if coh then 1 else 0)).sent) % 1024 = (s.pool n k (if coh then 1 else 0)).exp →
    ∃ t, exec (.linkFrameReceive n.castSucc (k.castLE (by decide)) coh g h i 0) s = .next t ∧
      (t.pool n k (if coh then 1 else 0)).exp = ((s.pool n k (if coh then 1 else 0)).exp + 1) % 1024 ∧
      (t.pool n k (if coh then 1 else 0)).fails = 0 ∧ (t.pool n k (if coh then 1 else 0)).disc = false ∧
      (t.pool n k (if coh then 1 else 0)).sent = (s.pool n k (if coh then 1 else 0)).sent + 1 ∧
      (t.pool n k (if coh then 1 else 0)).buf = (s.pool n k (if coh then 1 else 0)).buf ∧ SameFields s t []) ∧
  (∀ (n : Fin 8) (k : Fin 3) (coh : Bool) (g h i : Fin 96) (f : GkFlit) (flips : BitVec 768) (s : State), s.dirUp n k = true →
    [g.val, h.val, i.val].all (fun g => (s.poolGroups n k (if coh then 1 else 0)).contains g) = true →
    (s.pool n k (if coh then 1 else 0)).fails < 16 →
    (s.pool n k (if coh then 1 else 0)).buf[(s.pool n k (if coh then 1 else 0)).sent]? = some f →
    ((s.pool n k (if coh then 1 else 0)).seq + 1024 - (s.pool n k (if coh then 1 else 0)).buf.length +
      (s.pool n k (if coh then 1 else 0)).sent) % 1024 = (s.pool n k (if coh then 1 else 0)).exp →
    frameOk flips.toNat = false →
    ∃ t, exec (.linkFrameReceive n.castSucc (k.castLE (by decide)) coh g h i flips) s = .next t ∧
      (t.pool n k (if coh then 1 else 0)).disc = true ∧ (t.pool n k (if coh then 1 else 0)).nakDue = true ∧
      (t.pool n k (if coh then 1 else 0)).exp = (s.pool n k (if coh then 1 else 0)).exp ∧
      (t.pool n k (if coh then 1 else 0)).fails = (s.pool n k (if coh then 1 else 0)).fails + 1 ∧
      t.rd .GK_GRP_CRC_CNT_COUNT [n, k, g] = min (s.rd .GK_GRP_CRC_CNT_COUNT [n, k, g] + 1) 0xFFFFFFFF) ∧
  (∀ (n : Fin 8) (k : Fin 3) (coh : Bool) (g h i : Fin 96) (s : State), s.dirUp n k = true →
    [g.val, h.val, i.val].all (fun g => (s.poolGroups n k (if coh then 1 else 0)).contains g) = true →
    (s.pool n k (if coh then 1 else 0)).fails < 16 → (s.pool n k (if coh then 1 else 0)).buf.length = 512 →
    (s.pool n k (if coh then 1 else 0)).sent = 512 → (s.pool n k (if coh then 1 else 0)).txq ≠ [] →
    ∃ t, exec (.linkFrameReceive n.castSucc (k.castLE (by decide)) coh g h i 0) s = .next t ∧
      (t.pool n k (if coh then 1 else 0)).txq = (s.pool n k (if coh then 1 else 0)).txq ∧
      (t.pool n k (if coh then 1 else 0)).seq = (s.pool n k (if coh then 1 else 0)).seq ∧
      (t.pool n k (if coh then 1 else 0)).exp = (s.pool n k (if coh then 1 else 0)).exp) ∧
  (∀ (n : Fin 9) (k : Fin 8) (coh : Bool) (g : Fin 96) (a : Nat) (s : State),
    (s.pool n k (if coh then 1 else 0)).nak = some a →
    ∃ t, exec (.linkReplay n k coh g) s = .next t ∧ (t.pool n k (if coh then 1 else 0)).nak = none ∧
      (t.pool n k (if coh then 1 else 0)).sent = 0 ∧
      (t.pool n k (if coh then 1 else 0)).buf = (s.pool n k (if coh then 1 else 0)).buf ∧
      t.rd .GK_GRP_REPLAY_CNT_COUNT [n, k, g] = min (s.rd .GK_GRP_REPLAY_CNT_COUNT [n, k, g] + 1) 0xFFFFFFFF) ∧
  (∀ (n : Fin 9) (k : Fin 8) (coh : Bool) (s : State), 16 ≤ (s.pool n k (if coh then 1 else 0)).fails →
    ∃ t, exec (.poolRetrain n k coh) s = .next t ∧ (t.pool n k (if coh then 1 else 0)).fails = 0 ∧
      (t.pool n k (if coh then 1 else 0)).exp = (s.pool n k (if coh then 1 else 0)).exp) ∧
  (∀ (n : Fin 8) (k : Fin 3) (g : Fin 96) (l : Fin 33) (c : Nat) (s : State), s.rd .GK_HEALTH_MTHR [n, k] ≠ 0 →
    s.rd .GK_HEALTH_MTHR [n, k] ≤ c →
    ∃ t, exec (.laneHealthInterval n.castSucc (k.castLE (by decide)) [(g, l.castSucc, c)]) s = .next t ∧
      (t.dir n k).crossed.contains (g.val, l.val) = true ∧
      t.rd .GK_LANE_MCNT_COUNT [n, k, g, l] = min (s.rd .GK_LANE_MCNT_COUNT [n, k, g, l] + c) (2 ^ Fld.GK_LANE_MCNT_COUNT.spec.width - 1)) ∧
  (∀ (n : Fin 9) (k : Fin 8) (g : Fin 96) (l : Fin 33) (s : State), (s.dir n k).crossed.contains (g.val, l.val) = true →
    s.rd .GK_GRP_STAT_ROLE [n, k, g] = 2 ∨ s.rd .GK_GRP_STAT_ROLE [n, k, g] = 3 → s.spareFree n k g = true →
    s.busyGroup n k g = false →
    ∃ t, exec (.spareSwap n k g l) s = .next t ∧ t.rd .GK_GRP_STAT_PAUSED [n, k, g] = 1 ∧
      (t.dir n k).swaps = (s.dir n k).swaps ++ [(g.val, l.val, s.now)] ∧ SameFields s t [(.GK_GRP_STAT_PAUSED, [n, k, g])]) ∧
  (∀ (n : Fin 9) (k : Fin 8) (g : Fin 96) (l : Fin 33) (u : Nat) (s : State), (s.dir n k).swaps = [(g.val, l.val, u)] →
    ∃ t, exec (.spareRejoin n k g) s = .next t ∧ t.rd .GK_GRP_STAT_SPARE_FOR [n, k, g] = l.val ∧
      t.rd .GK_GRP_STAT_PAUSED [n, k, g] = 0 ∧ (t.dir n k).swaps = [] ∧ u + 1500 ≤ t.now) ∧
  (∀ (n : Fin 9) (k : Fin 8) (g : Fin 96) (l : Fin 33) (s : State), (s.dir n k).crossed.contains (g.val, l.val) = true →
    s.rd .GK_GRP_STAT_ROLE [n, k, g] = 1 → s.spareFree n k g = true → s.busyGroup n k g = false →
    ∃ t, exec (.crossingSpareSwap n k g l) s = .next t ∧
      (t.dir n k).cswaps = (s.dir n k).cswaps ++ [(g.val, l.val, s.now + 4096 * 1000000 / s.crossSpine n k + 10000)] ∧ SameFields s t []) ∧
  (∀ (n : Fin 9) (k : Fin 8) (g : Fin 96) (l : Fin 33) (u : Nat) (s : State), (s.dir n k).cswaps = [(g.val, l.val, u)] →
    ∃ t, exec (.crossingSwitchInstant n k g) s = .next t ∧ t.rd .GK_GRP_STAT_SPARE_FOR [n, k, g] = l.val ∧
      (t.dir n k).cswaps = [] ∧ t.now = max s.now u) ∧
  (∀ (n : Fin 8) (k : Fin 3) (g : Fin 96) (bs : BearingSet) (s : State), s.rd .GK_GRP_STAT_ROLE [n, k, g] = 2 ∨ s.rd .GK_GRP_STAT_ROLE [n, k, g] = 3 →
    s.busyGroup n k g = false →
    ∃ t, exec (.groupRetire n.castSucc (k.castLE (by decide)) g true bs) s = .next t ∧ t.rd .GK_GRP_STAT_ROLE [n, k, g] = 0) ∧
  (∀ (n : Fin 8) (k : Fin 2) (g h : Fin 96) (r : List Nat) (bs : BearingSet) (s : State), s.rd .GK_GRP_STAT_ROLE [n, k, g] = 1 →
    s.busyGroup n k g = false → s.groupsOf n k 2 = h.val :: r →
    ∃ t, exec (.groupRetire n.castSucc (k.castLE (by decide)) g true bs) s = .next t ∧
      t.rd .GK_GRP_STAT_ROLE [n, k, h] = 0 ∧ t.rd .GK_GRP_STAT_PAUSED [n, k, h] = 1 ∧
      t.rd .GK_GRP_STAT_ROLE [n, k, g] = 1 ∧ ((t.dir n k).convs.getLast?.map (·.into)) = some h.val) ∧
  (∀ (n : Fin 8) (k : Fin 2) (g : Fin 96) (c : GkConv) (s : State), (s.dir n k).convs = [c] → c.into = g.val →
    c.granted = false → (s.gov ((linkDies (endLink n k)).headD 0)).queue = [] →
    (s.gov ((linkDies (endLink n k)).getLastD 0)).ready.any (·.is 9 [n, k, g]) = true →
    ∃ t, exec (.groupConversion n.castSucc (k.castLE (by decide)) g) s = .next t ∧
      (t.dir n k).convs = [{ c with granted := true, instant := s.now + convTime }]) ∧
  (∀ (w : Writer) (n : Fin 9) (k : Fin 8) (g : Fin 96) (l : Fin 33) (s : State), s.reaches w .GK_CTL [n, k] = true →
    s.rd .GK_STAT_STATE [n, k] = 2 → s.rd .GK_GRP_STAT_ROLE [n, k, g] = 2 → s.spareFree n k g = true →
    s.busyGroup n k g = false →
    ∃ t, exec (.gkCmdSwap w n k g l.val) s = .next t ∧ t.rd .GK_GRP_STAT_PAUSED [n, k, g] = 1 ∧
      (t.dir n k).swaps = (s.dir n k).swaps ++ [(g.val, l.val, s.now)]) ∧
  (∀ (w : Writer) (n : Fin 9) (k : Fin 8) (g : Fin 96) (bs : BearingSet) (s : State), s.reaches w .GK_CTL [n, k] = true →
    s.rd .GK_STAT_STATE [n, k] = 2 → s.rd .GK_GRP_STAT_ROLE [n, k, g] = 3 → s.busyGroup n k g = false →
    ∃ t, exec (.gkCmdRetire w n k g bs) s = .next t ∧ t.rd .GK_GRP_STAT_ROLE [n, k, g] = 0) ∧
  (∀ (n : Fin 8) (k : Fin 2) (lc : Fin 48) (data : BitVec 256) (g d : Nat) (r : List (Nat × Bool)) (s : State),
    s.carrier n k lc = some g → (s.crossing n k lc).pipe = (d, true) :: r → s.crossCycles n k ≤ r.length + 1 →
    ∃ t, exec (.crossingFrameReceive n k lc data 0) s = .next t ∧ (t.crossing n k lc).data = d ∧
      (t.crossing n k lc).live = true ∧ (t.crossing n k lc).xerr = false ∧
      (∀ i : Fin 256, t.crossInput n k lc i = d.testBit i) ∧
      ((s.sector (crossSender n k lc).1 (crossSender n k lc).2).frozen = false →
        (t.crossing n k lc).pipe = r ++ [(data.toNat, s.sendsLive n k lc)]) ∧ SameFields s t []) ∧
  (∀ (n : Fin 8) (k : Fin 2) (lc : Fin 48) (data : BitVec 256) (flips : BitVec 264) (g d : Nat) (r : List (Nat × Bool))
    (s : State), s.carrier n k lc = some g → (s.crossing n k lc).pipe = (d, true) :: r → s.crossCycles n k ≤ r.length + 1 →
    bitsOf flips.toNat 256 3 = 0 → crc5 (bitsOf flips.toNat 0 256) 256 0 ≠ bitsOf flips.toNat 259 5 →
    ∃ t, exec (.crossingFrameReceive n k lc data flips) s = .next t ∧ (t.crossing n k lc).xerr = true ∧
      (t.crossing n k lc).data = d ^^^ bitsOf flips.toNat 0 256 ∧
      t.rd .GK_XERR_CNT_COUNT [n, k] = min (s.rd .GK_XERR_CNT_COUNT [n, k] + 1) 0xFFFFFFFF ∧
      t.rd .GK_GRP_CRC_CNT_COUNT [n, k, g] = min (s.rd .GK_GRP_CRC_CNT_COUNT [n, k, g] + 1) 0xFFFFFFFF) ∧
  (∀ (n : Fin 8) (k : Fin 2) (lc : Fin 48) (data : BitVec 256) (flips : BitVec 264) (g : Nat) (s : State),
    s.carrier n k lc = some g → (s.crossing n k lc).pipe.length + 1 ≤ s.crossCycles n k →
    ∃ t, exec (.crossingFrameReceive n k lc data flips) s = .next t ∧ (t.crossing n k lc).data = (s.crossing n k lc).data ∧
      (t.crossing n k lc).live = (s.crossing n k lc).live ∧
      (t.crossing n k lc).pipe.length = (s.crossing n k lc).pipe.length + 1 ∧ SameFields s t []) ∧
  (∀ (n : Fin 8) (k : Fin 2) (lc : Fin 48) (s : State),
    ∃ t, exec (.crossingFramesMissing n k lc) s = .next t ∧ (t.crossing n k lc).live = false ∧
      (∀ i : Fin 256, t.crossInput n k lc i = isoValue (t.isoOf n ((if k.val = 0 then 0 else 32) + lc.val / 6)
        (lc.val % 6 * 256 + i.val)) ((s.crossing n k lc).data.testBit i.val)) ∧
      SameFields s t [])

/-- A bundle asks for its permit, locks its PLL, trains and takes its corrections, retrains, and goes off with its
permit returned. BUNDLE_ENABLE of a bundle that is off gives EN 1 and STATE 1 and queues a request, of one that is
enabled changes no field. At the grant STATE 2. A locked PLL gives PLL_LOCK 1 and STATE 3 at t0 + 60 us, an unlocked
one STATE 5 with TRN_ERR 3 at t0 + 50 us. Training of all eight lanes at t0 + 1.05 ms: indices in place give REV 0 and
STATE 4, exchanged ones REV 1, both with the received inversions in RXINV and REALIGN set, none give TRN_ERR 1, mixed
ones TRN_ERR 2, both in STATE 5. RETRAIN from STATE 4 starts again under the permit held, or asks for one. DISABLE
gives STATE 0 and returns the permit. With a running engine owning a lane, DISABLE and RETRAIN change no field. A
permit timeout gives STATE 5 with TRN_ERR 4. Clauses that stand in R289, R292, R294, R295, R304, R312.
(spec/10_channel_and_trunk_lanes.md) -/
def Obligations.BundlesComeUpUnderTheirPermit : Prop :=
  (∀ (w : Writer) (b : Fin 28) (s : State), s.reaches w .CL_BND_CTL [b] = true → s.on .CL_BND_CTL_EN [b] = false →
    2 ≤ s.rd .PG_CFG_BUDGET [bundleDie b] →
    ∃ t, exec (.bundleEnable w b) s = .next t ∧ t.bndState b = 1 ∧ t.rd .CL_BND_CTL_EN [b] = 1 ∧ t.rd .CL_BND_STAT_TRN_ERR [b] = 0 ∧
      (t.gov (bundleDie b)).queue.length = (s.gov (bundleDie b)).queue.length + 1 ∧
      SameFields s t [(.CL_BND_STAT_STATE, [b]), (.CL_BND_CTL_EN, [b]), (.CL_BND_STAT_TRN_ERR, [b])]) ∧
  (∀ (w : Writer) (b : Fin 28) (s : State), s.reaches w .CL_BND_CTL [b] = true → s.on .CL_BND_CTL_EN [b] = true →
    ∃ t, exec (.bundleEnable w b) s = .next t ∧ SameFields s t []) ∧
  (∀ (b : Fin 28) (s : State), s.bndState b = 1 → s.grantReady (bundleDie b) 5 [b] = true →
    ∃ t, exec (.bundleBringup b) s = .next t ∧ t.bndState b = 2 ∧ t.rd .CL_BND_STAT_PLL_LOCK [b] = 0 ∧
      (smGet t.bundle [b.val] {}).t0 = t.now) ∧
  (∀ (b : Fin 28) (s : State), s.bndState b = 2 →
    ∃ t, exec (.bundlePllLockCheck b true) s = .next t ∧ t.bndState b = 3 ∧ t.rd .CL_BND_STAT_PLL_LOCK [b] = 1 ∧
      t.now = max s.now ((smGet s.bundle [b.val] {}).t0 + 60000)) ∧
  (∀ (b : Fin 28) (s : State), s.bndState b = 2 →
    ∃ t, exec (.bundlePllLockCheck b false) s = .next t ∧ t.bndState b = 5 ∧ t.rd .CL_BND_STAT_TRN_ERR [b] = 3 ∧
      t.now = max s.now ((smGet s.bundle [b.val] {}).t0 + 50000)) ∧
  (∀ (b : Fin 28) (rx : List (Option (BitVec 64))) (s : State), s.bndState b = 3 → s.rd .CL_BND_TRN_LANES [b] = 255 →
    (∀ i : Fin 8, rxIdx rx i = some i.val) →
    ∃ t, exec (.bundleTrainDecision b rx) s = .next t ∧ t.bndState b = 4 ∧ t.rd .CL_BND_STAT_REV [b] = 0 ∧
      t.rd .CL_BND_STAT_PRESENT [b] = 255 ∧ t.now = max s.now ((smGet s.bundle [b.val] {}).t0 + 1050000) ∧
      (∀ i : Fin 8, t.rd .CL_STAT_RXINV [8 * b.val + i.val] = (if rxInv rx i then 1 else 0)) ∧
      (∀ i : Fin 8, t.rd .CL_STAT_REALIGN [8 * b.val + i.val] = 1)) ∧
  (∀ (b : Fin 28) (rx : List (Option (BitVec 64))) (s : State), s.bndState b = 3 → s.rd .CL_BND_TRN_LANES [b] = 255 →
    (∀ i : Fin 8, rxIdx rx i = some (7 - i.val)) →
    ∃ t, exec (.bundleTrainDecision b rx) s = .next t ∧ t.bndState b = 4 ∧ t.rd .CL_BND_STAT_REV [b] = 1 ∧
      t.rd .CL_BND_STAT_PRESENT [b] = 255 ∧
      (∀ i : Fin 8, t.rd .CL_STAT_RXINV [8 * b.val + (7 - i.val)] = (if rxInv rx i then 1 else 0))) ∧
  (∀ (b : Fin 28) (rx : List (Option (BitVec 64))) (s : State), s.bndState b = 3 → (∀ i : Fin 8, rxIdx rx i = none) →
    ∃ t, exec (.bundleTrainDecision b rx) s = .next t ∧ t.bndState b = 5 ∧ t.rd .CL_BND_STAT_TRN_ERR [b] = 1 ∧
      t.rd .CL_BND_STAT_PRESENT [b] = 0) ∧
  (∀ (b : Fin 28) (rx : List (Option (BitVec 64))) (i j : Fin 8) (s : State), s.bndState b = 3 →
    (s.rd .CL_BND_TRN_LANES [b]).testBit i = true → rxIdx rx i = some j.val → j ≠ i → i.val + j.val ≠ 7 →
    ∃ t, exec (.bundleTrainDecision b rx) s = .next t ∧ t.bndState b = 5 ∧ t.rd .CL_BND_STAT_TRN_ERR [b] = 2) ∧
  (∀ (w : Writer) (b : Fin 28) (s : State), s.reaches w .CL_BND_CTL [b] = true → s.bndState b = 4 →
    (bundleLanes b).any s.laneBusy = false → s.holds (bundleDie b) 5 [b] = true →
    ∃ t, exec (.bundleRetrain w b) s = .next t ∧ t.bndState b = 2 ∧ (smGet t.bundle [b.val] {}).t0 = s.now ∧
      t.govs = s.govs) ∧
  (∀ (w : Writer) (b : Fin 28) (s : State), s.reaches w .CL_BND_CTL [b] = true → s.bndState b = 4 →
    (bundleLanes b).any s.laneBusy = false → s.holds (bundleDie b) 5 [b] = false → 2 ≤ s.rd .PG_CFG_BUDGET [bundleDie b] →
    ∃ t, exec (.bundleRetrain w b) s = .next t ∧ t.bndState b = 1 ∧
      (t.gov (bundleDie b)).queue.length = (s.gov (bundleDie b)).queue.length + 1) ∧
  (∀ (w : Writer) (b : Fin 28) (s : State), s.reaches w .CL_BND_CTL [b] = true → (bundleLanes b).any s.laneBusy = true →
    ∃ t, exec (.bundleRetrain w b) s = .next t ∧ SameFields s t []) ∧
  (∀ (w : Writer) (b : Fin 28) (s : State), s.reaches w .CL_BND_CTL [b] = true → (bundleLanes b).any s.laneBusy = false →
    ∃ t, exec (.bundleDisable w b) s = .next t ∧ t.bndState b = 0 ∧ t.rd .CL_BND_CTL_EN [b] = 0 ∧
      t.rd .CL_BND_STAT_PLL_LOCK [b] = 0 ∧ (t.gov (bundleDie b)).held.any (·.is 5 [b]) = false ∧
      (∀ i : Fin 8, t.rd .CL_STAT_LOS [8 * b.val + i.val] = 0 ∧ t.rd .CL_STAT_LOL [8 * b.val + i.val] = 0)) ∧
  (∀ (w : Writer) (b : Fin 28) (s : State), s.reaches w .CL_BND_CTL [b] = true → (bundleLanes b).any s.laneBusy = true →
    ∃ t, exec (.bundleDisable w b) s = .next t ∧ SameFields s t []) ∧
  (∀ (b : Fin 28) (s : State), s.bndState b = 1 → s.timeoutReady (bundleDie b) 5 [b] = true →
    ∃ t, exec (.bundlePermitTimeout b) s = .next t ∧ t.bndState b = 5 ∧ t.rd .CL_BND_STAT_TRN_ERR [b] = 4)

/-- Lane controls, slips, deskews and loop measurements act in their states, losses are latched once, and port words
queue in 16 places. A CL_CTL write sets EN, USE, TXINV and RXMODE, and DIV of a disabled lane. With a running engine
owning the lane, EN, USE and DIV stay. A slip moves SLIP_POS modulo the word width and clears REALIGN while the bundle
is up and no engine runs. The timing word is taken for a disabled lane with deskews in range, and dropped out of
range. A loop measurement sets BUSY, and ends with UI and VALID 1 or with FAIL 1 and VALID 0. An injected error waits
for the next word sent. A loss sets its bit and its latch, and its end sets REALIGN. A port word, from the receiver
its bundle's REV names and inverted where RXINV says so, is queued with the lost flag, or lost when 16 wait. A checker
locks after two times its degree of agreeing bits, counts bits and errors while locked, and loses its lock on 64
errors within 1,024 bits. Clauses that stand in R287, R290, R297, R298, R300, R301, R302, R303, R304, R313.
(spec/10_channel_and_trunk_lanes.md) -/
def Obligations.ChannelLanesTakeTheirControlsAndReportLosses : Prop :=
  (∀ (w : Writer) (l : Fin 224) (v : BitVec 7) (s : State), s.reaches w .CL_CTL [l] = true → s.laneBusy l = false →
    s.rd .CL_CTL_EN [l] = 0 →
    ∃ t, exec (.laneCtlWrite w l v) s = .next t ∧ t.rd .CL_CTL_EN [l] = v.toNat % 2 ∧ t.rd .CL_CTL_USE [l] = v.toNat / 2 % 4 ∧
      t.rd .CL_CTL_TXINV [l] = v.toNat / 8 % 2 ∧ t.rd .CL_CTL_DIV [l] = v.toNat / 16 % 4 ∧
      t.rd .CL_CTL_RXMODE [l] = v.toNat / 64 % 2) ∧
  (∀ (w : Writer) (l : Fin 224) (v : BitVec 7) (s : State), s.reaches w .CL_CTL [l] = true → s.laneBusy l = true →
    ∃ t, exec (.laneCtlWrite w l v) s = .next t ∧ t.rd .CL_CTL_EN [l] = s.rd .CL_CTL_EN [l] % 2 ∧
      t.rd .CL_CTL_USE [l] = s.rd .CL_CTL_USE [l] % 4 ∧ t.rd .CL_CTL_DIV [l] = s.rd .CL_CTL_DIV [l] % 4 ∧
      t.rd .CL_CTL_TXINV [l] = v.toNat / 8 % 2 ∧ t.rd .CL_CTL_RXMODE [l] = v.toNat / 64 % 2) ∧
  (∀ (w : Writer) (l : Fin 224) (c : BitVec 9) (s : State), s.reaches w .CL_SLIP [l] = true → c.toNat ≠ 0 →
    s.bndState (l.val / 8) = 4 → s.laneBusy l = false →
    ∃ t, exec (.laneSlip w l c) s = .next t ∧ t.rd .CL_STAT_REALIGN [l] = 0 ∧ t.rd .CL_STAT_SLIP_POS [l] =
      (s.rd .CL_STAT_SLIP_POS [l] + c.toNat) % s.laneW l % 2 ^ Fld.CL_STAT_SLIP_POS.spec.width ∧
      SameFields s t [(.CL_STAT_SLIP_POS, [l]), (.CL_STAT_REALIGN, [l])]) ∧
  (∀ (w : Writer) (l : Fin 224) (v : BitVec 32) (s : State), s.reaches w .CL_TIM [l] = true → s.on .CL_CTL_EN [l] = false →
    deskewOk (bitsOf v.toNat 8 8) = true → deskewOk (bitsOf v.toNat 24 8) = true →
    ∃ t, exec (.laneTimingWrite w l v) s = .next t ∧ t.rd .CL_TIM_TXVERN [l] = bitsOf v.toNat 0 7 ∧
      t.rd .CL_TIM_TXDSK [l] = bitsOf v.toNat 8 8 ∧ t.rd .CL_TIM_RXSTB [l] = bitsOf v.toNat 16 7 ∧
      t.rd .CL_TIM_RXDSK [l] = bitsOf v.toNat 24 8) ∧
  (∀ (w : Writer) (l : Fin 224) (v : BitVec 32) (s : State), s.reaches w .CL_TIM [l] = true →
    deskewOk (bitsOf v.toNat 8 8) = false ∨ deskewOk (bitsOf v.toNat 24 8) = false →
    ∃ t, exec (.laneTimingWrite w l v) s = .next t ∧ SameFields s t []) ∧
  (∀ (w : Writer) (l : Fin 224) (s : State), s.reaches w .CL_CTL [l] = true → s.laneDetects l = true → s.laneUse l = 0 →
    s.laneBusy l = false → s.on .CL_LOOP_BUSY [l] = false →
    ∃ t, exec (.loopMeasure w l) s = .next t ∧ t.rd .CL_LOOP_BUSY [l] = 1 ∧ (t.laneRt l).loopT = s.now ∧
      SameFields s t [(.CL_LOOP_BUSY, [l])]) ∧
  (∀ (w : Writer) (l : Fin 224) (s : State), s.reaches w .CL_CTL [l] = true → s.on .CL_LOOP_BUSY [l] = true →
    ∃ t, exec (.loopMeasure w l) s = .next t ∧ SameFields s t [] ∧ t.lane = s.lane) ∧
  (∀ (l : Fin 224) (u : BitVec 16) (s : State), s.on .CL_LOOP_BUSY [l] = true →
    ∃ t, exec (.loopMeasureDone l (some u)) s = .next t ∧ t.rd .CL_LOOP_BUSY [l] = 0 ∧ t.rd .CL_LOOP_VALID [l] = 1 ∧
      t.rd .CL_LOOP_UI [l] = u.toNat) ∧
  (∀ (l : Fin 224) (s : State), s.on .CL_LOOP_BUSY [l] = true →
    ∃ t, exec (.loopMeasureDone l none) s = .next t ∧ t.rd .CL_LOOP_BUSY [l] = 0 ∧ t.rd .CL_LOOP_VALID [l] = 0 ∧
      t.rd .CL_LOOP_FAIL [l] = 1) ∧
  (∀ (w : Writer) (l : Fin 224) (s : State), s.reaches w .CL_CTL [l] = true → s.laneDetects l = true →
    ∃ t, exec (.laneInjectError w l) s = .next t ∧ (t.laneRt l).inject = true ∧ SameFields s t []) ∧
  (∀ (l : Fin 224) (s : State), s.laneDetects l = true → s.on .CL_STAT_LOS [l] = false →
    ∃ t, exec (.lossOfSignal false l) s = .next t ∧ t.rd .CL_STAT_LOS [l] = 1 ∧ t.rd .CL_STAT_LOS_EV [l] = 1 ∧
      SameFields s t [(.CL_STAT_LOS, [l]), (.CL_STAT_LOS_EV, [l])]) ∧
  (∀ (l : Fin 224) (s : State), s.laneDetects l = true → s.strobe l = false → s.on .CL_STAT_LOL [l] = false →
    ∃ t, exec (.lossOfLock false l) s = .next t ∧ t.rd .CL_STAT_LOL [l] = 1 ∧ t.rd .CL_STAT_LOL_EV [l] = 1 ∧
      SameFields s t [(.CL_STAT_LOL, [l]), (.CL_STAT_LOL_EV, [l])]) ∧
  (∀ (l : Fin 224) (s : State), s.on .CL_STAT_LOL [l] = true →
    ∃ t, exec (.lossConditionEnd false l true) s = .next t ∧ t.rd .CL_STAT_LOL [l] = 0 ∧ t.rd .CL_STAT_REALIGN [l] = 1 ∧
      t.rd .CL_STAT_CHK_LOCK [l] = 0 ∧
      SameFields s t [(.CL_STAT_LOL, [l]), (.CL_STAT_REALIGN, [l]), (.CL_STAT_CHK_LOCK, [l])]) ∧
  (∀ (l : Fin 224) (data : BitVec 64) (n : Nat) (s : State), s.laneDetects (s.rxLane l) = true → s.laneUse (s.rxLane l) = 1 →
    s.chkRuns false (s.rxLane l) = false →
    ((s.laneRt (s.rxLane l)).rx.drop (if s.portUp (s.rxLane l) then n else 0)).length < 16 →
    ∃ t, exec (.lanePortRxWord l data n) s = .next t ∧
      (t.laneRt (s.rxLane l)).rx = (s.laneRt (s.rxLane l)).rx.drop (if s.portUp (s.rxLane l) then n else 0) ++
        [((if s.on .CL_STAT_RXINV [s.rxLane l] then ~~~data else data).toNat, (s.laneRt (s.rxLane l)).rxLost, 0)] ∧
      (t.laneRt (s.rxLane l)).rxLost = false ∧ SameFields s t []) ∧
  (∀ (l : Fin 224) (data : BitVec 64) (n : Nat) (s : State), s.laneDetects (s.rxLane l) = true → s.laneUse (s.rxLane l) = 1 →
    s.chkRuns false (s.rxLane l) = false →
    16 ≤ ((s.laneRt (s.rxLane l)).rx.drop (if s.portUp (s.rxLane l) then n else 0)).length →
    ∃ t, exec (.lanePortRxWord l data n) s = .next t ∧
      (t.laneRt (s.rxLane l)).rx = (s.laneRt (s.rxLane l)).rx.drop (if s.portUp (s.rxLane l) then n else 0) ∧
      (t.laneRt (s.rxLane l)).rxLost = true ∧ SameFields s t []) ∧
  (∀ (trunk : Bool) (l : Fin 224) (rx : List (BitVec 64)) (c : ChkRt) (k : Bool) (n e : Nat) (s : State),
    s.chkRuns trunk l = true → s.on (chkLockFld trunk) [l] = false →
    chkRun (trunk && s.on .TR_CTL_MOD [l]) (s.chkCode trunk l) (rx.flatMap fun x => (List.range 64).map fun i => x.toNat.testBit i)
      (if trunk then s.trunkRt l else s.laneRt l).chk false 0 0 = (c, k, n, e) →
    ∃ t, exec (.checkerLock trunk l rx) s = .next t ∧ t.on (chkLockFld trunk) [l] = k ∧
      (if trunk then t.trunkRt l else t.laneRt l).chk = c ∧
      t.rd (if trunk then .TR_ERR_CNT_COUNT else .CL_ERR_CNT_COUNT) [l] =
        min (s.rd (if trunk then .TR_ERR_CNT_COUNT else .CL_ERR_CNT_COUNT) [l] + e) 0xFFFFFFFF ∧
      (if trunk then t.trunkRt l else t.laneRt l).bits =
        min (2 ^ 64 - 1) ((if trunk then s.trunkRt l else s.laneRt l).bits + n) ∧
      SameFields s t [(chkLockFld trunk, [l]), (if trunk then .TR_ERR_CNT_COUNT else .CL_ERR_CNT_COUNT, [l])]) ∧
  (∀ (trunk : Bool) (l : Fin 224) (rx : List (BitVec 64)) (c : ChkRt) (k : Bool) (n e : Nat) (s : State),
    s.chkRuns trunk l = true → s.on (chkLockFld trunk) [l] = true →
    chkRun (trunk && s.on .TR_CTL_MOD [l]) (s.chkCode trunk l) (rx.flatMap fun x => (List.range 64).map fun i => x.toNat.testBit i)
      (if trunk then s.trunkRt l else s.laneRt l).chk true 0 0 = (c, k, n, e) →
    ∃ t, exec (.checkerLockLoss trunk l rx) s = .next t ∧ t.on (chkLockFld trunk) [l] = k ∧
      (if trunk then t.trunkRt l else t.laneRt l).chk = c ∧
      t.rd (if trunk then .TR_ERR_CNT_COUNT else .CL_ERR_CNT_COUNT) [l] =
        min (s.rd (if trunk then .TR_ERR_CNT_COUNT else .CL_ERR_CNT_COUNT) [l] + e) 0xFFFFFFFF ∧
      (if trunk then t.trunkRt l else t.laneRt l).bits =
        min (2 ^ 64 - 1) ((if trunk then s.trunkRt l else s.laneRt l).bits + n) ∧
      SameFields s t [(chkLockFld trunk, [l]), (if trunk then .TR_ERR_CNT_COUNT else .CL_ERR_CNT_COUNT, [l])]) ∧
  (∀ (pam b : Bool) (g : Nat) (c : ChkRt), chkDegree pam g ≤ c.seen → b = chkNext pam g c.reg →
    (chkBit pam g c false b).2 = (decide (2 * chkDegree pam g ≤ c.run + 1), false)) ∧
  (∀ (pam b : Bool) (g : Nat) (c : ChkRt), chkDegree pam g ≤ c.seen → b ≠ chkNext pam g c.reg →
    (chkBit pam g c true b).2 = (decide ((c.errs.filter fun x => decide (c.pos < x + 1024)).length < 63), true)) ∧
  (∀ (w : Writer) (l : Fin 224) (v : BitVec 7) (s : State), s.reaches w .CL_CTL [l] = true → s.laneBusy l = false →
    s.rd .CL_CTL_EN [l] = 1 →
    ∃ t, exec (.laneCtlWrite w l v) s = .next t ∧ t.rd .CL_CTL_EN [l] = v.toNat % 2 ∧ t.rd .CL_CTL_USE [l] = v.toNat / 2 % 4 ∧
      t.rd .CL_CTL_DIV [l] = s.rd .CL_CTL_DIV [l] % 4 ∧ t.rd .CL_CTL_TXINV [l] = v.toNat / 8 % 2 ∧
      t.rd .CL_CTL_RXMODE [l] = v.toNat / 64 % 2)

/-- A trunk lane asks for its permit, adapts, comes up with its SNR, adapts again after a loss, and its capture beats
queue in 64 places. TRUNK_ENABLE of a lane that is off gives EN 1 and STATE 1 and queues a request. At the grant STATE
2, converged STATE 3 with SNR, also from 4. Without a signal 50 ms after the grant STATE 4. CMD 1 on an adapting or
running lane gives STATE 2 with no request, or asks where no permit is held. A permit timeout gives STATE 0. A loss of
a lane in STATE 3 that holds its permit gives STATE 2 with no request. Taps whose sizes sum to at most 32 are taken,
others change no field. An injected error waits for the next word sent. A capture beat is queued with its CAP_SEQ and
gap flag, or dropped with CAP_OVF 1 when 64 wait, and CAP_SEQ counts it either way. Clauses that stand in R300, R303,
R306, R307, R308, R309, R315. (spec/10_channel_and_trunk_lanes.md) -/
def Obligations.TrunkLanesAdaptUnderTheirPermitAndCapture : Prop :=
  (∀ (w : Writer) (k : Fin 32) (s : State), s.reaches w .TR_CTL [k] = true → s.trState k = 0 →
    3 ≤ s.rd .PG_CFG_BUDGET [trunkDie k] →
    ∃ t, exec (.trunkEnable w k) s = .next t ∧ t.trState k = 1 ∧ t.rd .TR_CTL_EN [k] = 1 ∧
      (t.gov (trunkDie k)).queue.length = (s.gov (trunkDie k)).queue.length + 1 ∧
      SameFields s t [(.TR_STAT_STATE, [k]), (.TR_CTL_EN, [k])]) ∧
  (∀ (k : Fin 32) (s : State), s.trState k = 1 → s.grantReady (trunkDie k) 6 [k] = true →
    ∃ t, exec (.trunkAdapt k) s = .next t ∧ t.trState k = 2 ∧ (t.trunkRt k).adaptT = t.now) ∧
  (∀ (k : Fin 32) (snr : BitVec 8) (s : State), s.trState k = 2 ∨ s.trState k = 4 →
    ∃ t, exec (.trunkConverged k snr) s = .next t ∧ t.trState k = 3 ∧ t.rd .TR_STAT_SNR [k] = snr.toNat ∧
      SameFields s t [(.TR_STAT_STATE, [k]), (.TR_STAT_SNR, [k])]) ∧
  (∀ (k : Fin 32) (s : State), s.trState k = 2 →
    ∃ t, exec (.trunkNoSignal k) s = .next t ∧ t.trState k = 4 ∧ t.now = max s.now ((s.trunkRt k).adaptT + 50000000) ∧
      SameFields s t [(.TR_STAT_STATE, [k])]) ∧
  (∀ (w : Writer) (k : Fin 32) (s : State), s.reaches w .TR_CTL [k] = true → s.on .TR_CTL_EN [k] = true → 2 ≤ s.trState k →
    s.holds (trunkDie k) 6 [k] = true →
    ∃ t, exec (.trunkReadapt w k) s = .next t ∧ t.trState k = 2 ∧ (t.trunkRt k).adaptT = s.now ∧ t.govs = s.govs ∧
      SameFields s t [(.TR_STAT_STATE, [k]), (.TR_STAT_CHK_LOCK, [k])]) ∧
  (∀ (w : Writer) (k : Fin 32) (s : State), s.reaches w .TR_CTL [k] = true → s.on .TR_CTL_EN [k] = true → 2 ≤ s.trState k →
    s.holds (trunkDie k) 6 [k] = false → 3 ≤ s.rd .PG_CFG_BUDGET [trunkDie k] →
    ∃ t, exec (.trunkReadapt w k) s = .next t ∧ t.trState k = 1 ∧
      (t.gov (trunkDie k)).queue.length = (s.gov (trunkDie k)).queue.length + 1 ∧
      SameFields s t [(.TR_STAT_STATE, [k]), (.TR_STAT_CHK_LOCK, [k])]) ∧
  (∀ (k : Fin 32) (s : State), s.trState k = 1 → s.timeoutReady (trunkDie k) 6 [k] = true →
    ∃ t, exec (.trunkPermitTimeout k) s = .next t ∧ t.trState k = 0) ∧
  (∀ (k : Fin 32) (s : State), s.trState k = 3 → s.holds (trunkDie k) 6 [k] = true →
    ∃ t, exec (.lossOfSignal true (k.castLE (by decide))) s = .next t ∧ t.trState k = 2 ∧ t.govs = s.govs ∧
      SameFields s t [(.TR_STAT_STATE, [k]), (.TR_STAT_CHK_LOCK, [k])]) ∧
  (∀ (w : Writer) (k : Fin 32) (a b c : BitVec 6) (s : State), s.reaches w .TR_FFE [k] = true →
    tapAbs a + tapAbs b + tapAbs c ≤ 32 →
    ∃ t, exec (.trFfeWrite w k a b c) s = .next t ∧ t.rd .TR_FFE_PRE2 [k] = a.toNat ∧ t.rd .TR_FFE_PRE1 [k] = b.toNat ∧
      t.rd .TR_FFE_POST1 [k] = c.toNat ∧
      SameFields s t [(.TR_FFE_PRE2, [k]), (.TR_FFE_PRE1, [k]), (.TR_FFE_POST1, [k])]) ∧
  (∀ (w : Writer) (k : Fin 32) (a b c : BitVec 6) (s : State), s.reaches w .TR_FFE [k] = true →
    32 < tapAbs a + tapAbs b + tapAbs c →
    ∃ t, exec (.trFfeWrite w k a b c) s = .next t ∧ SameFields s t []) ∧
  (∀ (w : Writer) (k : Fin 32) (s : State), s.reaches w .TR_CTL [k] = true → 2 ≤ s.trState k →
    ∃ t, exec (.trunkInjectError w k) s = .next t ∧ (t.trunkRt k).inject = true ∧ SameFields s t []) ∧
  (∀ (k : Fin 32) (x : BitVec 896) (n : Nat) (s : State), s.trState k = 3 → s.on .TR_CTL_CAP [k] = true →
    s.trunkPortUp k = true → ((s.trunkRt k).rx.drop n).length < 64 →
    ∃ t, exec (.captureBeat k x n) s = .next t ∧
      (t.trunkRt k).rx = (s.trunkRt k).rx.drop n ++ [(x.toNat, (s.trunkRt k).rxLost, (s.trunkRt k).capSeq)] ∧
      (t.trunkRt k).rxLost = false ∧ (t.trunkRt k).capSeq = ((s.trunkRt k).capSeq + 1) % 2 ^ 16 ∧ SameFields s t []) ∧
  (∀ (k : Fin 32) (x : BitVec 896) (n : Nat) (s : State), s.trState k = 3 → s.on .TR_CTL_CAP [k] = true →
    s.trunkPortUp k = true → 64 ≤ ((s.trunkRt k).rx.drop n).length →
    ∃ t, exec (.captureBeat k x n) s = .next t ∧ (t.trunkRt k).rx = (s.trunkRt k).rx.drop n ∧ (t.trunkRt k).rxLost = true ∧
      (t.trunkRt k).capSeq = ((s.trunkRt k).capSeq + 1) % 2 ^ 16 ∧ t.rd .TR_STAT_CAP_OVF [k] = 1 ∧
      SameFields s t [(.TR_STAT_CAP_OVF, [k])])

/-- Doorbells of the owner advance the ring, an enabled queue pair starts at 0, and fetches and completions move
SQ_HEAD, CQ_TAIL and PHASE. A doorbell value below the ring size from the owner in STATE 1 becomes the tail or head, a
larger one sets ERR 3, one of another function changes no field or queue pair. QP_ENABLE in STATE 0 zeroes both
indices, sets PHASE 1 and STATE 1, with no ring size it sets ERR 4. QP_DISABLE gives STATE 2 with descriptors left and
0 without, and clears ERR in STATE 3. A failed fetch gives STATE 3 and ERR 1. A fetched descriptor advances SQ_HEAD,
an invalid one ends with INVALID and the word. A written entry advances CQ_TAIL, inverts PHASE at the wrap and counts.
A failed one gives STATE 3, ERR 2. A holdoff's end sends one message, a masked vector sets its pending bit. Clauses
that stand in R319, R321, R322, R325, R326, R338, R340, R343, R344, R345. (spec/11_host_rings_and_doorbells.md) -/
def Obligations.DoorbellsAndQueuePairsKeepTheirRings : Prop :=
  (∀ (f : Fin 8) (q : Fin 1024) (v : BitVec 32) (s : State), s.on .HIF_FN_STAT_FLR_BUSY [f] = false → s.qpOwned q f = true →
    s.qstate q = 1 → v.toNat < s.sqSize q →
    ∃ t, exec (.dbSqTail f q v) s = .next t ∧ (t.qp q).tail = v.toNat ∧ (t.qp q).jobs = (s.qp q).jobs ∧ SameFields s t []) ∧
  (∀ (f : Fin 8) (q : Fin 1024) (v : BitVec 32) (s : State), s.on .HIF_FN_STAT_FLR_BUSY [f] = false → s.qpOwned q f = true →
    s.qstate q = 1 → s.sqSize q ≤ v.toNat →
    ∃ t, exec (.dbSqTail f q v) s = .next t ∧ t.rd .HIF_QP_STAT_ERR [q] = 3 ∧ t.qps = s.qps ∧
      SameFields s t [(.HIF_QP_STAT_ERR, [q])]) ∧
  (∀ (f : Fin 8) (q : Fin 1024) (v : BitVec 32) (s : State), s.qpOwned q f = false ∨ s.qstate q ≠ 1 →
    ∃ t, exec (.dbSqTail f q v) s = .next t ∧ t.qps = s.qps ∧ SameFields s t []) ∧
  (∀ (f : Fin 8) (q : Fin 1024) (v : BitVec 32) (s : State), s.on .HIF_FN_STAT_FLR_BUSY [f] = false → s.qpOwned q f = true →
    s.qstate q = 1 → v.toNat < s.cqSize q →
    ∃ t, exec (.dbCqHead f q v) s = .next t ∧ (t.qp q).head = v.toNat ∧ SameFields s t []) ∧
  (∀ (w : Writer) (q : Fin 1024) (s : State), s.reaches w .HIF_QP_CTL [q] = true →
    s.hifWriter w (fun f => s.qpOwned q f) = true → s.on .HIF_QP_ASSIGN_VALID [q] = true → s.sqSize q ≠ 0 → s.cqSize q ≠ 0 →
    s.qstate q = 0 →
    ∃ t, exec (.qpEnable w q) s = .next t ∧ t.qstate q = 1 ∧ t.rd .HIF_QP_STAT_PHASE [q] = 1 ∧ t.rd .HIF_QP_CTL_EN [q] = 1 ∧
      t.rd .HIF_QP_HEAD_SQ_HEAD [q] = 0 ∧ t.rd .HIF_QP_HEAD_CQ_TAIL [q] = 0 ∧ t.qp q = {} ∧
      t.rd .HIF_QP_STAT_ERR [q] = s.rd .HIF_QP_STAT_ERR [q]) ∧
  (∀ (w : Writer) (q : Fin 1024) (s : State), s.reaches w .HIF_QP_CTL [q] = true →
    s.hifWriter w (fun f => s.qpOwned q f) = true → s.on .HIF_QP_ASSIGN_VALID [q] = true → s.sqSize q = 0 ∨ s.cqSize q = 0 →
    ∃ t, exec (.qpEnable w q) s = .next t ∧ t.rd .HIF_QP_STAT_ERR [q] = 4 ∧ t.qps = s.qps ∧
      SameFields s t [(.HIF_QP_STAT_ERR, [q])]) ∧
  (∀ (w : Writer) (q : Fin 1024) (s : State), s.reaches w .HIF_QP_CTL [q] = true →
    s.hifWriter w (fun f => s.qpOwned q f) = true → s.qstate q = 1 →
    ∃ t, exec (.qpDisable w q) s = .next t ∧ t.rd .HIF_QP_CTL_EN [q] = 0 ∧
      t.qstate q = (if (s.qp q).jobs.isEmpty then 0 else 2) ∧ t.qps = s.qps) ∧
  (∀ (w : Writer) (q : Fin 1024) (s : State), s.reaches w .HIF_QP_CTL [q] = true →
    s.hifWriter w (fun f => s.qpOwned q f) = true → s.qstate q = 3 →
    ∃ t, exec (.qpDisable w q) s = .next t ∧ t.qstate q = 0 ∧ t.rd .HIF_QP_STAT_ERR [q] = 0 ∧ (t.qp q).jobs = []) ∧
  (∀ (q : Nat) (s : State), s.fetchTurn = some q →
    ∃ t, exec (.descriptorFetch none) s = .next t ∧ t.qstate q = 3 ∧ t.rd .HIF_QP_STAT_ERR [q] = 1 ∧
      t.rd .HIF_QP_HEAD_SQ_HEAD [q] = s.rd .HIF_QP_HEAD_SQ_HEAD [q]) ∧
  (∀ (q : Nat) (d : BitVec 512) (s : State), s.fetchTurn = some q →
    ∃ t, exec (.descriptorFetch (some d)) s = .next t ∧
      t.rd .HIF_QP_HEAD_SQ_HEAD [q] = (s.rd .HIF_QP_HEAD_SQ_HEAD [q] + 1) % s.sqSize q % 2 ^ 16 ∧
      (t.qp q).chain = dCHAIN d.toNat ∧ t.qstate q = s.qstate q) ∧
  (∀ (q x : Nat) (d : BitVec 512) (s : State), s.fetchTurn = some q → (s.qp q).jobs = [] → (s.qp q).chain = false →
    s.firstBad d.toNat = some x →
    ∃ t, exec (.descriptorFetch (some d)) s = .next t ∧ (t.qp q).jobs = [{ idx := s.rd .HIF_QP_HEAD_SQ_HEAD [q], d := d.toNat, bad := some x, st := 2, status := 6, detail := x }]) ∧
  (∀ (q : Nat) (d : BitVec 512) (s : State), s.fetchTurn = some q → (s.qp q).jobs = [] → (s.qp q).chain = false →
    s.firstBad d.toNat = none →
    ∃ t, exec (.descriptorFetch (some d)) s = .next t ∧ (t.qp q).jobs = [{ idx := s.rd .HIF_QP_HEAD_SQ_HEAD [q], d := d.toNat }]) ∧
  (∀ (q : Fin 1024) (j : Job) (s : State), (s.qp q).jobs = [j] → j.st = 2 → s.cqFull q = false →
    s.on .HIF_FN_STAT_BME [s.rd .HIF_QP_ASSIGN_FN [q]] = true → s.rd .HIF_QP_STAT_PHASE [q] ≤ 1 →
    ∃ t, exec (.completionWrite q 0 true) s = .next t ∧ (t.qp q).jobs = [] ∧
      t.rd .HIF_QP_HEAD_CQ_TAIL [q] = (s.rd .HIF_QP_HEAD_CQ_TAIL [q] + 1) % s.cqSize q % 2 ^ 16 ∧
      t.rd .HIF_QP_STAT_PHASE [q] = (if (s.rd .HIF_QP_HEAD_CQ_TAIL [q] + 1) % s.cqSize q = 0
        then 1 - s.rd .HIF_QP_STAT_PHASE [q] else s.rd .HIF_QP_STAT_PHASE [q]) ∧
      t.rd .HIF_QP_DONE_CNT_COUNT [q] = min (s.rd .HIF_QP_DONE_CNT_COUNT [q] + 1) 0xFFFFFFFF) ∧
  (∀ (q : Fin 1024) (j : Job) (s : State), (s.qp q).jobs = [j] → j.st = 2 → s.cqFull q = false →
    s.on .HIF_FN_STAT_BME [s.rd .HIF_QP_ASSIGN_FN [q]] = true →
    ∃ t, exec (.completionWrite q 0 false) s = .next t ∧ t.qstate q = 3 ∧ t.rd .HIF_QP_STAT_ERR [q] = 2 ∧
      t.rd .HIF_QP_HEAD_CQ_TAIL [q] = s.rd .HIF_QP_HEAD_CQ_TAIL [q]) ∧
  (∀ (q : Fin 1024) (j : Job) (r : List Job) (s : State), (s.qp q).jobs = j :: r → j.st = 2 → s.cqFull q = true →
    ∃ t, exec (.completionWrite q 0 true) s = .next t ∧ t.qps = s.qps ∧ SameFields s t []) ∧
  (∀ (f : Fin 8) (v : Fin 1024) (u : Nat) (s : State), (s.vec f v).due = some u → (s.vec f v).masked = false →
    s.on .HIF_FN_STAT_BME [f] = true →
    ∃ t, exec (.msixHoldoffExpiry f v) s = .next t ∧ t.out = .msix f v :: s.out ∧ t.now = max s.now u ∧
      t.vec f v = { s.vec f v with due := none, pend := false, sentT := some (max s.now u) } ∧ SameFields s t []) ∧
  (∀ (f : Fin 8) (v : Fin 1024) (u : Nat) (s : State), (s.vec f v).due = some u → (s.vec f v).masked = true →
    ∃ t, exec (.msixHoldoffExpiry f v) s = .next t ∧ t.out = s.out ∧ (t.vec f v).pend = true ∧ (t.vec f v).due = none)

/-- A function-level reset stops the function's queue pairs, vectors, mail and sessions at once, and link and
bus-master events do what R319 says. FUNCTION_LEVEL_RESET of a function that is not in reset sets FLR_BUSY, empties
its queue pairs, returns their STATE to 0, puts its vectors back, removes its mailbox exchanges and its sessions, and
leaves engine ownership. While FLR_BUSY is 1 it changes nothing. FLR_DONE clears FLR_BUSY and counts in FLR_CNT.
BUS_MASTER_DISABLE sets BME to the value written. A link down resets the four functions of its port and returns the
training permit, a link up from training returns it. Clauses that stand in R319, R345, R347, R395.
(spec/11_host_rings_and_doorbells.md, spec/13_clocks_power_and_permits.md) -/
def Obligations.FunctionResetsAndLinkEventsReachTheirQueuePairs : Prop :=
  (∀ (f : Fin 8) (q : Fin 1024) (s : State), s.on .HIF_FN_STAT_FLR_BUSY [f] = false → s.qpOwned q f = true →
    ∃ t, exec (.functionLevelReset f) s = .next t ∧ t.rd .HIF_FN_STAT_FLR_BUSY [f] = 1 ∧ t.qstate q = 0 ∧ t.qp q = {} ∧
      t.rd .HIF_QP_CTL_EN [q] = 0 ∧ t.mail.all (fun m => m.src != f.val) = true ∧
      t.sessions.all (fun e => match e.2 with
        | some x => x.owner != f.val
        | none => false) = true ∧
      (∀ v : Fin 1024, t.vec f v = {}) ∧ t.rd .HIF_QP_ASSIGN_VALID [q] = s.rd .HIF_QP_ASSIGN_VALID [q] ∧
      (∀ i : Fin 3, t.rd .HIF_ENG_ASSIGN_MASK [f, i] = s.rd .HIF_ENG_ASSIGN_MASK [f, i])) ∧
  (∀ (f : Fin 8) (s : State), s.on .HIF_FN_STAT_FLR_BUSY [f] = true →
    ∃ t, exec (.functionLevelReset f) s = .next t ∧ t = s) ∧
  (∀ (f : Fin 8) (s : State), s.on .HIF_FN_STAT_FLR_BUSY [f] = true →
    ∃ t, exec (.flrDone f) s = .next t ∧ t.rd .HIF_FN_STAT_FLR_BUSY [f] = 0 ∧
      t.rd .HIF_FN_STAT_FLR_CNT [f] = (s.rd .HIF_FN_STAT_FLR_CNT [f] + 1) % 2 ^ Fld.HIF_FN_STAT_FLR_CNT.spec.width ∧
      SameFields s t [(.HIF_FN_STAT_FLR_BUSY, [f]), (.HIF_FN_STAT_FLR_CNT, [f])]) ∧
  (∀ (f : Fin 8) (b : Bool) (s : State),
    ∃ t, exec (.busMasterDisable f b) s = .next t ∧ t.rd .HIF_FN_STAT_BME [f] = (if b then 1 else 0) ∧ t.qps = s.qps ∧
      SameFields s t [(.HIF_FN_STAT_BME, [f])]) ∧
  (∀ (p : Fin 2) (i : Fin 4) (s : State),
    ∃ t, exec (.pcieLinkDown p) s = .next t ∧ t.rd .HIF_FN_STAT_FLR_BUSY [4 * p.val + i.val] ≠ 0 ∧
      smGet t.pcie [p.val] 0 = 0 ∧ (t.gov 8).held.any (·.is 17 [p]) = false) ∧
  (∀ (p : Fin 2) (s : State), smGet s.pcie [p.val] 0 = 1 →
    ∃ t, exec (.pcieLinkUp p) s = .next t ∧ smGet t.pcie [p.val] 0 = 2 ∧ (t.gov 8).held.any (·.is 17 [p]) = false ∧
      SameFields s t [])

/-- A descriptor that may start begins or ends as the checks and the length of its opcode say, and one of another
opcode changes nothing. NOP and FENCE end with OK, with NOCMP they leave at once and count. H2D, D2H, D2D and ENG_LOAD
of length 0 end with ZERO_LENGTH, of another length they run with LEN / 64 lines to move. ENG_LOAD and FAIL_DRAIN of a
die out of service end with UNREACHABLE and the engine, of an engine that the function may not use with ACCESS_DENIED
and the engine. A drain of an empty ring ends with OK, another runs with its records and the read count of that
moment, and while a drain of the engine runs it changes nothing. ENG_START and ENG_STOP end with the first failed
check and its engine, else they run, their engine reads STATE 1, armed if the descriptor says so, or STATE 7. LANE_CMD
with COUNT 0 ends with ZERO_LENGTH, of a die out of service with UNREACHABLE, a pair that slips lane 0 moves its
SLIP_POS and ends with OK, or with REFUSED and the pair's index while the bundle is not up. Where the next descriptor
has another opcode, or none may start, the command changes nothing. Clauses that stand in R323, R329, R330, R331,
R332, R333, R335, R337, R338, R339, R344. (spec/11_host_rings_and_doorbells.md) -/
def Obligations.DescriptorsStartAndEndWithTheirStatus : Prop :=
  (∀ (q : Fin 1024) (n : Nat) (j : Job) (s : State), s.mayStart q n 0x00 j = true → dNOCMP j.d = false →
    ∃ t, exec (.nop q) s = .next t ∧ (t.qp q).jobs[n]? = some (j.ended 0 0 0) ∧ SameFields s t []) ∧
  (∀ (q : Fin 1024) (j : Job) (s : State), s.mayStart q 0 0x00 j = true → dNOCMP j.d = true → (s.qp q).jobs = [j] →
    ∃ t, exec (.nop q) s = .next t ∧ (t.qp q).jobs = [] ∧
      t.rd .HIF_QP_DONE_CNT_COUNT [q] = min (s.rd .HIF_QP_DONE_CNT_COUNT [q] + 1) 0xFFFFFFFF) ∧
  (∀ (q : Fin 1024) (n : Nat) (j : Job) (s : State), s.mayStart q n 0x50 j = true → dNOCMP j.d = false →
    ∃ t, exec (.fence q) s = .next t ∧ n = 0 ∧ (t.qp q).jobs[n]? = some (j.ended 0 0 0) ∧ SameFields s t []) ∧
  (∀ (q : Fin 1024) (j : Job) (s : State), s.mayStart q 0 0x50 j = true → dNOCMP j.d = true → (s.qp q).jobs = [j] →
    ∃ t, exec (.fence q) s = .next t ∧ (t.qp q).jobs = [] ∧
      t.rd .HIF_QP_DONE_CNT_COUNT [q] = min (s.rd .HIF_QP_DONE_CNT_COUNT [q] + 1) 0xFFFFFFFF) ∧
  (∀ (q : Fin 1024) (n : Nat) (j : Job) (s : State), s.mayStart q n 0x01 j = true → dLEN j.d = 0 →
    ∃ t, exec (.h2d q) s = .next t ∧ (t.qp q).jobs[n]? = some (j.ended 4 0 0) ∧ SameFields s t []) ∧
  (∀ (q : Fin 1024) (n : Nat) (j : Job) (s : State), s.mayStart q n 0x01 j = true → dLEN j.d ≠ 0 →
    ∃ t, exec (.h2d q) s = .next t ∧ SameFields s t [] ∧
      (t.qp q).jobs[n]? = some { j with st := 1, k := dLEN j.d / 64, size := 64, base := 0, n := 0 }) ∧
  (∀ (q : Fin 1024) (n : Nat) (j : Job) (s : State), s.mayStart q n 0x02 j = true → dLEN j.d = 0 →
    ∃ t, exec (.d2h q) s = .next t ∧ (t.qp q).jobs[n]? = some (j.ended 4 0 0) ∧ SameFields s t []) ∧
  (∀ (q : Fin 1024) (n : Nat) (j : Job) (s : State), s.mayStart q n 0x02 j = true → dLEN j.d ≠ 0 →
    ∃ t, exec (.d2h q) s = .next t ∧ SameFields s t [] ∧
      (t.qp q).jobs[n]? = some { j with st := 1, k := dLEN j.d / 64, size := 64, base := 0, n := 0 }) ∧
  (∀ (q : Fin 1024) (n : Nat) (j : Job) (s : State), s.mayStart q n 0x03 j = true → dLEN j.d = 0 →
    ∃ t, exec (.d2d q) s = .next t ∧ (t.qp q).jobs[n]? = some (j.ended 4 0 0) ∧ SameFields s t []) ∧
  (∀ (q : Fin 1024) (n : Nat) (j : Job) (s : State), s.mayStart q n 0x03 j = true → dLEN j.d ≠ 0 →
    ∃ t, exec (.d2d q) s = .next t ∧ SameFields s t [] ∧
      (t.qp q).jobs[n]? = some { j with st := 1, k := dLEN j.d / 64, size := 64, base := 0, n := 0 }) ∧
  (∀ (q : Fin 1024) (n : Nat) (j : Job) (s : State), s.mayStart q n 0x10 j = true → s.up (engDie (dWord j.d 6)) = false →
    ∃ t, exec (.engLoad q) s = .next t ∧ (t.qp q).jobs[n]? = some (j.ended 2 (dWord j.d 6) 0) ∧ SameFields s t []) ∧
  (∀ (q : Fin 1024) (n : Nat) (j : Job) (s : State), s.mayStart q n 0x10 j = true → s.up (engDie (dWord j.d 6)) = true →
    s.usable (dWord j.d 6) (s.rd .HIF_QP_ASSIGN_FN [q]) = false →
    ∃ t, exec (.engLoad q) s = .next t ∧ (t.qp q).jobs[n]? = some (j.ended 1 (dWord j.d 6) 0) ∧ SameFields s t []) ∧
  (∀ (q : Fin 1024) (n : Nat) (j : Job) (s : State), s.mayStart q n 0x10 j = true → s.up (engDie (dWord j.d 6)) = true →
    s.usable (dWord j.d 6) (s.rd .HIF_QP_ASSIGN_FN [q]) = true → dLEN j.d ≠ 0 →
    ∃ t, exec (.engLoad q) s = .next t ∧ SameFields s t [] ∧
      (t.qp q).jobs[n]? = some { j with st := 1, k := dLEN j.d / 64, size := 64, base := 0, n := 0 }) ∧
  (∀ (q : Fin 1024) (n : Nat) (j : Job) (s : State), s.mayStart q n 0x10 j = true → s.up (engDie (dWord j.d 6)) = true →
    s.usable (dWord j.d 6) (s.rd .HIF_QP_ASSIGN_FN [q]) = true → dLEN j.d = 0 →
    ∃ t, exec (.engLoad q) s = .next t ∧ (t.qp q).jobs[n]? = some (j.ended 4 0 0) ∧ SameFields s t []) ∧
  (∀ (q : Fin 1024) (n : Nat) (j : Job) (s : State), s.mayStart q n 0x13 j = true → s.draining (dWord j.d 6) = false →
    s.up (engDie (dWord j.d 6)) = false →
    ∃ t, exec (.failDrain q) s = .next t ∧ (t.qp q).jobs[n]? = some (j.ended 2 (dWord j.d 6) 0)) ∧
  (∀ (q : Fin 1024) (n : Nat) (j : Job) (s : State), s.mayStart q n 0x13 j = true → s.draining (dWord j.d 6) = false →
    s.up (engDie (dWord j.d 6)) = true → s.usable (dWord j.d 6) (s.rd .HIF_QP_ASSIGN_FN [q]) = false →
    ∃ t, exec (.failDrain q) s = .next t ∧ (t.qp q).jobs[n]? = some (j.ended 1 (dWord j.d 6) 0)) ∧
  (∀ (q : Fin 1024) (n : Nat) (j : Job) (s : State), s.mayStart q n 0x13 j = true → s.draining (dWord j.d 6) = false →
    s.up (engDie (dWord j.d 6)) = true → s.usable (dWord j.d 6) (s.rd .HIF_QP_ASSIGN_FN [q]) = true →
    s.ringLevel (dWord j.d 6) = 0 → dNOCMP j.d = false →
    ∃ t, exec (.failDrain q) s = .next t ∧ (t.qp q).jobs[n]? = some (j.ended 0 0 0) ∧ SameFields s t []) ∧
  (∀ (q : Fin 1024) (n e : Nat) (j : Job) (s : State), s.mayStart q n 0x13 j = true → dWord j.d 6 = e → s.draining e = false →
    s.up (engDie e) = true → s.usable e (s.rd .HIF_QP_ASSIGN_FN [q]) = true → s.ringLog2 e ≠ 0 → s.ringLevel e ≠ 0 →
    s.recSize e ≤ dLEN j.d →
    ∃ t, exec (.failDrain q) s = .next t ∧ SameFields s t [] ∧
      (t.qp q).jobs[n]? = some { j with st := 1, k := min (dLEN j.d / s.recSize e) (s.ringLevel e), size := s.recSize e, base := s.rd .FC_RING_RD_COUNT [e], n := 0 }) ∧
  (∀ (q : Fin 1024) (n : Nat) (j : Job) (s : State), s.nextJob q = some (n, j) → s.draining (dWord j.d 6) = true →
    ∃ t, exec (.failDrain q) s = .next t ∧ t = s) ∧
  (∀ (q : Fin 1024) (n c e : Nat) (j : Job) (s : State), s.mayStart q n 0x11 j = true →
    s.engChecks (maskEngines j.d) (s.rd .HIF_QP_ASSIGN_FN [q]) true = some (c, e) → c ≠ 0 →
    ∃ t, exec (.engStart q) s = .next t ∧ (t.qp q).jobs[n]? = some (j.ended c e 0) ∧ SameFields s t []) ∧
  (∀ (q : Fin 1024) (n : Nat) (f : Fin 8) (e : Fin 96) (j : Job) (s : State), s.mayStart q n 0x11 j = true →
    s.rd .HIF_QP_ASSIGN_FN [q] = f.val → maskEngines j.d = [e.val] → s.up (engDie e) = true → s.usable e f = true →
    [0, 6, 7, 8].contains (s.estate e) = true → s.reaches (.ring f) .ENG_CTL [e] = true → (s.engine e).out = [] →
    (s.engine e).cq = [] → s.wx e + s.wy e + s.wz e ≤ 32 → s.dest e ≠ 1 →
    3 + ceilDiv (s.strmRate e) 16 ≤ s.rd .PG_CFG_BUDGET [engDie e] →
    ∃ t, exec (.engStart q) s = .next t ∧ t.estate e = 1 ∧ (t.qp q).jobs[n]? = some { j with st := 1 } ∧
      (t.engine e).armed = j.d.testBit 288) ∧
  (∀ (q : Fin 1024) (n c e : Nat) (j : Job) (s : State), s.mayStart q n 0x12 j = true →
    s.engChecks (maskEngines j.d) (s.rd .HIF_QP_ASSIGN_FN [q]) false = some (c, e) → c ≠ 0 →
    ∃ t, exec (.engStop q) s = .next t ∧ (t.qp q).jobs[n]? = some (j.ended c e 0) ∧ SameFields s t []) ∧
  (∀ (q : Fin 1024) (n : Nat) (f : Fin 8) (e : Fin 96) (j : Job) (s : State), s.mayStart q n 0x12 j = true →
    s.rd .HIF_QP_ASSIGN_FN [q] = f.val → maskEngines j.d = [e.val] → s.up (engDie e) = true → s.usable e f = true →
    1 ≤ s.estate e → s.estate e ≤ 5 → s.reaches (.ring f) .ENG_CTL [e] = true → j.d.testBit 288 = false →
    ∃ t, exec (.engStop q) s = .next t ∧ t.estate e = 7 ∧ (t.qp q).jobs[n]? = some { j with st := 1 }) ∧
  (∀ (q : Fin 1024) (n : Nat) (j : Job) (s : State), s.mayStart q n 0x30 j = true → bitsOf (dWord j.d 6) 4 3 = 0 →
    ∃ t, exec (.laneCmd q) s = .next t ∧ (t.qp q).jobs[n]? = some (j.ended 4 0 0) ∧ SameFields s t []) ∧
  (∀ (q : Fin 1024) (n : Nat) (j : Job) (s : State), s.mayStart q n 0x30 j = true → bitsOf (dWord j.d 6) 4 3 ≠ 0 →
    s.up (dWord j.d 6 % 8) = false →
    ∃ t, exec (.laneCmd q) s = .next t ∧ (t.qp q).jobs[n]? = some (j.ended 2 0 0) ∧ SameFields s t []) ∧
  (∀ (q : Fin 1024) (n : Nat) (j : Job) (s : State), s.mayStart q n 0x30 j = true → dWord j.d 6 = 0x10 → s.up 0 = true →
    dWord j.d 8 = 0x11000C → 1 ≤ dWord j.d 9 → dWord j.d 9 < 512 → s.bndState 0 = 4 → s.laneBusy 0 = false →
    s.rd .BOOT_STAT_STAGE [] ≠ 15 → dNOCMP j.d = false →
    ∃ t, exec (.laneCmd q) s = .next t ∧ (t.qp q).jobs[n]? = some (j.ended 0 0 0) ∧ t.rd .CL_STAT_SLIP_POS [0] =
      (s.rd .CL_STAT_SLIP_POS [0] + dWord j.d 9) % s.laneW 0 % 2 ^ Fld.CL_STAT_SLIP_POS.spec.width) ∧
  (∀ (q : Fin 1024) (n : Nat) (j : Job) (s : State), s.mayStart q n 0x30 j = true → dWord j.d 6 = 0x10 → s.up 0 = true →
    dWord j.d 8 = 0x11000C → 1 ≤ dWord j.d 9 → dWord j.d 9 < 512 → s.bndState 0 ≠ 4 → s.rd .BOOT_STAT_STAGE [] ≠ 15 →
    ∃ t, exec (.laneCmd q) s = .next t ∧ (t.qp q).jobs[n]? = some (j.ended 7 0 0) ∧
      t.rd .CL_STAT_SLIP_POS [0] = s.rd .CL_STAT_SLIP_POS [0]) ∧
  (∀ (q : Fin 1024) (s : State), (s.nextJob q).all (fun x => dOPC x.2.d != 0x00) = true →
    ∃ t, exec (.nop q) s = .next t ∧ t = s) ∧
  (∀ (q : Fin 1024) (s : State), (s.nextJob q).all (fun x => dOPC x.2.d != 0x50) = true →
    ∃ t, exec (.fence q) s = .next t ∧ t = s) ∧
  (∀ (q : Fin 1024) (s : State), (s.nextJob q).all (fun x => dOPC x.2.d != 0x01) = true →
    ∃ t, exec (.h2d q) s = .next t ∧ t = s) ∧
  (∀ (q : Fin 1024) (s : State), (s.nextJob q).all (fun x => dOPC x.2.d != 0x02) = true →
    ∃ t, exec (.d2h q) s = .next t ∧ t = s) ∧
  (∀ (q : Fin 1024) (s : State), (s.nextJob q).all (fun x => dOPC x.2.d != 0x03) = true →
    ∃ t, exec (.d2d q) s = .next t ∧ t = s) ∧
  (∀ (q : Fin 1024) (s : State), (s.nextJob q).all (fun x => dOPC x.2.d != 0x10) = true →
    ∃ t, exec (.engLoad q) s = .next t ∧ t = s) ∧
  (∀ (q : Fin 1024) (s : State), (s.nextJob q).all (fun x => dOPC x.2.d != 0x11) = true →
    ∃ t, exec (.engStart q) s = .next t ∧ t = s) ∧
  (∀ (q : Fin 1024) (s : State), (s.nextJob q).all (fun x => dOPC x.2.d != 0x12) = true →
    ∃ t, exec (.engStop q) s = .next t ∧ t = s) ∧
  (∀ (q : Fin 1024) (s : State), (s.nextJob q).all (fun x => dOPC x.2.d != 0x13) = true →
    ∃ t, exec (.failDrain q) s = .next t ∧ t = s) ∧
  (∀ (q : Fin 1024) (s : State), (s.nextJob q).all (fun x => dOPC x.2.d != 0x30) = true →
    ∃ t, exec (.laneCmd q) s = .next t ∧ t = s)

/-- A running descriptor moves one line at a time and ends with OK after the last or with the status of the first that
fails. A line of H2D that the host fails ends the descriptor with HOST_FAULT and the bytes moved before. A line that
the device answers with another status ends it with that status. The last line that succeeds ends it with OK and all
its bytes, and a drain then advances RD by its records. An earlier one counts the line. A line of D2H from an engine
window goes out to host memory as read. While bus mastering is off nothing moves. A BAR4 read within one line answers
its bytes as the line reads, of a reserved address all ones. A BAR4 write of a whole line writes it, of a part reads,
merges and writes, and while the function is in reset changes nothing. Clauses that stand in R18, R320, R330, R331,
R333, R344. (spec/01_package_and_planes.md, spec/11_host_rings_and_doorbells.md) -/
def Obligations.RunningDescriptorsMoveTheirLines : Prop :=
  (∀ (q : Fin 1024) (n : Fin 64) (x : BitVec 512) (a b : Fin 4) (j : Job) (s : State), (s.qp q).jobs[n.val]? = some j →
    j.st = 1 → dOPC j.d = 1 → j.n < j.lines → s.on .HIF_FN_STAT_BME [s.rd .HIF_QP_ASSIGN_FN [q]] = true →
    ∃ t, exec (.dmaLineComplete q n x a b true) s = .next t ∧ (t.qp q).jobs[n.val]? = some (j.ended 8 0 (64 * j.n)) ∧
      SameMemory s t) ∧
  (∀ (q : Fin 1024) (n : Fin 64) (x : BitVec 512) (a b : Fin 4) (c : Bool) (j : Job) (s : State),
    (s.qp q).jobs[n.val]? = some j → j.st = 1 → [1, 2, 3, 0x10, 0x13].contains (dOPC j.d) = true → j.n < j.lines →
    s.on .HIF_FN_STAT_BME [s.rd .HIF_QP_ASSIGN_FN [q]] = true →
    (s.moveLine (s.rd .HIF_QP_ASSIGN_FN [q]) j { data := x.toNat, rd := a, wr := b, fault := c }).1 ≠ 0 →
    ∃ t, exec (.dmaLineComplete q n x a b c) s = .next t ∧ (t.qp q).jobs[n.val]? = some (j.ended
      (s.moveLine (s.rd .HIF_QP_ASSIGN_FN [q]) j { data := x.toNat, rd := a, wr := b, fault := c }).1
      (s.moveLine (s.rd .HIF_QP_ASSIGN_FN [q]) j { data := x.toNat, rd := a, wr := b, fault := c }).2.1 (64 * j.n))) ∧
  (∀ (q : Fin 1024) (n : Fin 64) (x : BitVec 512) (a b : Fin 4) (c : Bool) (j : Job) (s : State),
    (s.qp q).jobs[n.val]? = some j → j.st = 1 → [1, 2, 3, 0x10, 0x13].contains (dOPC j.d) = true → j.n + 1 < j.lines →
    s.on .HIF_FN_STAT_BME [s.rd .HIF_QP_ASSIGN_FN [q]] = true →
    (s.moveLine (s.rd .HIF_QP_ASSIGN_FN [q]) j { data := x.toNat, rd := a, wr := b, fault := c }).1 = 0 →
    ∃ t, exec (.dmaLineComplete q n x a b c) s = .next t ∧ (t.qp q).jobs[n.val]? = some { j with n := j.n + 1 }) ∧
  (∀ (q : Fin 1024) (n : Fin 64) (x : BitVec 512) (a b : Fin 4) (c : Bool) (j : Job) (s : State),
    (s.qp q).jobs[n.val]? = some j → j.st = 1 → [1, 2, 3, 0x10, 0x13].contains (dOPC j.d) = true → j.n + 1 = j.lines →
    s.on .HIF_FN_STAT_BME [s.rd .HIF_QP_ASSIGN_FN [q]] = true → dNOCMP j.d = false →
    (s.moveLine (s.rd .HIF_QP_ASSIGN_FN [q]) j { data := x.toNat, rd := a, wr := b, fault := c }).1 = 0 →
    ∃ t, exec (.dmaLineComplete q n x a b c) s = .next t ∧
      (t.qp q).jobs[n.val]? = some (({ j with n := j.n + 1 } : Job).ended 0 0 (64 * j.lines))) ∧
  (∀ (q : Fin 1024) (n : Fin 64) (x : BitVec 512) (a b : Fin 4) (c : Bool) (j : Job) (s : State),
    (s.qp q).jobs[n.val]? = some j → j.st = 1 → dOPC j.d = 0x13 → j.n + 1 = j.lines →
    s.on .HIF_FN_STAT_BME [s.rd .HIF_QP_ASSIGN_FN [q]] = true → s.rd .FC_RING_RD_COUNT [dWord j.d 6] + j.k < 2 ^ 32 →
    (s.moveLine (s.rd .HIF_QP_ASSIGN_FN [q]) j { data := x.toNat, rd := a, wr := b, fault := c }).1 = 0 →
    ∃ t, exec (.dmaLineComplete q n x a b c) s = .next t ∧
      t.rd .FC_RING_RD_COUNT [dWord j.d 6] = s.rd .FC_RING_RD_COUNT [dWord j.d 6] + j.k) ∧
  (∀ (q : Fin 1024) (n : Fin 64) (x : BitVec 512) (a b : Fin 4) (e o : Nat) (j : Job) (s : State),
    (s.qp q).jobs[n.val]? = some j → j.st = 1 → dOPC j.d = 2 → j.n < j.lines →
    s.on .HIF_FN_STAT_BME [s.rd .HIF_QP_ASSIGN_FN [q]] = true → placeOf (dSRC j.d + 64 * j.n) = .window e o →
    s.up (engDie e) = true → s.usable e (s.rd .HIF_QP_ASSIGN_FN [q]) = true →
    s.mapStatus (ringMst (s.rd .HIF_QP_ASSIGN_FN [q])) (dSRC j.d + 64 * j.n) = 0 → s.on .FC_STATUS_BM_BUSY [e] = false →
    ∃ t, exec (.dmaLineComplete q n x a b false) s = .next t ∧
      t.out = .hostWrite (portOf (s.rd .HIF_QP_ASSIGN_FN [q])) (s.rd .HIF_QP_ASSIGN_FN [q]) ((dDST j.d + 64 * j.n) % 2 ^ 64)
        (s.on .HIF_FN_CTL_RO_DATA [s.rd .HIF_QP_ASSIGN_FN [q]]) (natLe (s.winRead e (o / 64 * 64) 64) 64) :: s.out ∧ SameMemory s t) ∧
  (∀ (q : Fin 1024) (n : Fin 64) (x : BitVec 512) (a b : Fin 4) (c : Bool) (s : State),
    s.on .HIF_FN_STAT_BME [s.rd .HIF_QP_ASSIGN_FN [q]] = false →
    ∃ t, exec (.dmaLineComplete q n x a b c) s = .next t ∧ t = s) ∧
  (∀ (f : Fin 8) (off : BitVec 36) (k : Fin 4097) (g lo m : Nat) (s : State),
    linePieces (s.bar4 f off.toNat) k = [(g, lo, m)] → (s.gRead (bridgeMst (portOf f) f) g (0, 0)).2.1 = 0 →
    ∃ t, exec (.bar4Read f off k) s = .next t ∧
      t.answer = leNat (((natLe (s.gRead (bridgeMst (portOf f) f) g (0, 0)).1 64).drop lo).take m)) ∧
  (∀ (f : Fin 8) (off : BitVec 36) (k : Fin 4097) (g lo m : Nat) (s : State),
    linePieces (s.bar4 f off.toNat) k = [(g, lo, m)] → s.mapStatus (bridgeMst (portOf f) f) g ≠ 0 →
    ∃ t, exec (.bar4Read f off k) s = .next t ∧ t.answer = leNat (List.replicate m 0xFF) ∧ SameMemory s t) ∧
  (∀ (f : Fin 8) (off : BitVec 36) (bs : List (BitVec 8)) (s : State), s.on .HIF_FN_STAT_FLR_BUSY [f] = true →
    ∃ t, exec (.bar4Write f off bs) s = .next t ∧ t = s) ∧
  (∀ (f : Fin 8) (off : BitVec 36) (bs : List (BitVec 8)) (g lo m : Nat) (s : State),
    s.on .HIF_FN_STAT_FLR_BUSY [f] = false → linePieces (s.bar4 f off.toNat) bs.length = [(g, lo, m)] →
    s.mapStatus (bridgeMst (portOf f) f) g ≠ 0 →
    ∃ t, exec (.bar4Write f off bs) s = .next t ∧ SameFields s t [] ∧ SameMemory s t) ∧
  (∀ (f : Fin 8) (off : BitVec 36) (bs : List (BitVec 8)) (g : Nat) (s : State),
    s.on .HIF_FN_STAT_FLR_BUSY [f] = false → linePieces (s.bar4 f off.toNat) bs.length = [(g, 0, 64)] →
    ∃ t, exec (.bar4Write f off bs) s = .next t ∧
      t = (s.gWrite (bridgeMst (portOf f) f) g (leNat (bs.take 64)) false 0).2) ∧
  (∀ (f : Fin 8) (off : BitVec 36) (bs : List (BitVec 8)) (g lo m : Nat) (s : State),
    s.on .HIF_FN_STAT_FLR_BUSY [f] = false → linePieces (s.bar4 f off.toNat) bs.length = [(g, lo, m)] → m ≠ 64 →
    (s.gRead (bridgeMst (portOf f) f) g (0, 0)).2.1 = 0 →
    ∃ t, exec (.bar4Write f off bs) s = .next t ∧ t = ((s.gRead (bridgeMst (portOf f) f) g (0, 0)).2.2.gWrite
      (bridgeMst (portOf f) f) g (mergeLine (s.gRead (bridgeMst (portOf f) f) g (0, 0)).1 lo (bs.take m)) false 0).2)

/-- A MAILBOX descriptor delivers its request or ends with its status, and an exchange not answered within 1 s ends
with ABORTED. A request of LEN 0 ends with ZERO_LENGTH, one that the host fails with HOST_FAULT, and neither is
delivered. A request of a known code is queued with its sender, limit and address and its descriptor stays running. A
request shorter than 8 bytes gets the reply result 3, of an unknown code result 1, and its descriptor ends with OK and
the reply's length. An exchange not answered after 1 s leaves the queue: a function's descriptor ends with ABORTED, a
helm core's exchange gets status 5. Clauses that stand in R329, R337, R482, R508.
(spec/11_host_rings_and_doorbells.md, spec/16_helm_cores_and_debug.md, spec/17_fault_handling_and_service_life.md) -/
def Obligations.MailboxExchangesCarryOneRequestAndOneReply : Prop :=
  (∀ (q : Fin 1024) (n : Nat) (r : Option (List (BitVec 8))) (j : Job) (s : State), s.mayStart q n 0x60 j = true →
    dLEN j.d = 0 →
    ∃ t, exec (.mailbox q r) s = .next t ∧ (t.qp q).jobs[n]? = some (j.ended 4 0 0) ∧ t.mail = s.mail ∧ SameFields s t []) ∧
  (∀ (q : Fin 1024) (n : Nat) (j : Job) (s : State), s.mayStart q n 0x60 j = true → dLEN j.d ≠ 0 →
    ∃ t, exec (.mailbox q none) s = .next t ∧ (t.qp q).jobs[n]? = some (j.ended 8 0 0) ∧ t.mail = s.mail ∧ SameFields s t []) ∧
  (∀ (q : Fin 1024) (n : Nat) (r : List (BitVec 8)) (j : Job) (s : State), s.mayStart q n 0x60 j = true → dLEN j.d ≠ 0 →
    8 ≤ (r.take (dLEN j.d)).length → knownCode (mailCode (r.take (dLEN j.d))) = true →
    ∃ t, exec (.mailbox q (some r)) s = .next t ∧ (t.qp q).jobs[n]? = some { j with st := 1 } ∧ SameFields s t [] ∧
      t.mail = s.mail ++ [{ src := s.rd .HIF_QP_ASSIGN_FN [q], q := q, idx := j.idx, req := r.take (dLEN j.d), limit := dWord j.d 6, dst := dDST j.d, t := s.now }]) ∧
  (∀ (q : Fin 1024) (r : List (BitVec 8)) (j : Job) (s : State), s.mayStart q 0 0x60 j = true → (s.qp q).jobs = [j] →
    dLEN j.d ≠ 0 → (r.take (dLEN j.d)).length < 8 → 8 ≤ dWord j.d 6 → dNOCMP j.d = false →
    ∃ t, exec (.mailbox q (some r)) s = .next t ∧ (t.qp q).jobs = [j.ended 0 0 8] ∧ t.mail = s.mail ∧ t.out =
      .hostWrite (portOf (s.rd .HIF_QP_ASSIGN_FN [q])) (s.rd .HIF_QP_ASSIGN_FN [q]) (dDST j.d)
        (s.on .HIF_FN_CTL_RO_DATA [s.rd .HIF_QP_ASSIGN_FN [q]])
        (natLe (mailCode (r.take (dLEN j.d))) 2 ++ natLe 3 2 ++ natLe 0 4) :: s.out) ∧
  (∀ (q : Fin 1024) (r : List (BitVec 8)) (j : Job) (s : State), s.mayStart q 0 0x60 j = true → (s.qp q).jobs = [j] →
    dLEN j.d ≠ 0 → 8 ≤ (r.take (dLEN j.d)).length → knownCode (mailCode (r.take (dLEN j.d))) = false → 8 ≤ dWord j.d 6 →
    dNOCMP j.d = false →
    ∃ t, exec (.mailbox q (some r)) s = .next t ∧ (t.qp q).jobs = [j.ended 0 0 8] ∧ t.mail = s.mail ∧ t.out =
      .hostWrite (portOf (s.rd .HIF_QP_ASSIGN_FN [q])) (s.rd .HIF_QP_ASSIGN_FN [q]) (dDST j.d)
        (s.on .HIF_FN_CTL_RO_DATA [s.rd .HIF_QP_ASSIGN_FN [q]])
        (natLe (mailCode (r.take (dLEN j.d))) 2 ++ natLe 1 2 ++ natLe 0 4) :: s.out) ∧
  (∀ (n : Fin 2048) (m : Mail) (k : Nat) (j : Job) (s : State), s.mail[n.val]? = some m → m.src < 8 →
    s.jobAt m.q m.idx = some k → (s.qp m.q).jobs[k]? = some j →
    ∃ t, exec (.mailboxTimeout n) s = .next t ∧ t.mail = s.mail.eraseIdx n ∧ (t.qp m.q).jobs[k]? = some (j.ended 5 0 0) ∧
      t.now = max s.now (m.t + 1000000000) ∧ SameFields s t []) ∧
  (∀ (n : Fin 2048) (m : Mail) (s : State), s.mail[n.val]? = some m → 8 ≤ m.src →
    ∃ t, exec (.mailboxTimeout n) s = .next t ∧ t.mail = s.mail.eraseIdx n ∧ (t.helmRt (m.src - 8)).mbx = some (5, 0) ∧
      t.now = max s.now (m.t + 1000000000) ∧ SameFields s t [])

/-- A CFG_LOAD checks its header, takes its records, writes each good frame, voids the load at a bad one, and releases
its sectors together. A CFG_LOAD of a function whose CFG_FN bit is 0 ends with ACCESS_DENIED, of LEN 0 with
ZERO_LENGTH, of a failed header with HOST_FAULT. A good header of a plain image starts the stream. A record enters the
buffer of its die, a failed read ends the load. A good frame is stored at its address and counted, a bad one records
its cause in CFG_ERR and ends the load, one outside the columns of logic that still fails its verify records cause 5.
The order of the causes is log entry 46. At the end a bad signature ends the load and counts in LS_VER_CNT, else every
named sector reads STATE 2 and the security version rises. At the release instant every named sector in STATE 2 runs.
Clauses that stand in R44, R51, R53, R54, R334, R410, R411, R412, R437, R438. (spec/02_logic_fabric.md,
spec/11_host_rings_and_doorbells.md, spec/14_bring_up_resets_and_states.md, spec/15_lodestar_security.md) -/
def Obligations.ConfigurationLoadsRunOneAtATime : Prop :=
  (∀ (q : Fin 1024) (n : Nat) (h : Option (BitVec 2048)) (u : Bool) (j : Job) (r : List (Nat × Nat)) (s : State),
    s.mayStart q n 0x20 j = true → s.cfgLoad.phase = 0 → s.auto = none → s.cfgWait = (q.val, j.idx) :: r →
    (s.rd .HIF_CFG_FN_MASK []).testBit (s.rd .HIF_QP_ASSIGN_FN [q]) = false →
    ∃ t, exec (.cfgLoad q h u) s = .next t ∧ (t.qp q).jobs[n]? = some (j.ended 1 0 0) ∧ t.cfgLoad = s.cfgLoad ∧ SameFields s t []) ∧
  (∀ (q : Fin 1024) (h : Option (BitVec 2048)) (u : Bool) (j : Job) (r : List (Nat × Nat)) (s : State),
    s.mayStart q 0 0x20 j = true → (s.qp q).jobs = [j] → s.cfgLoad.phase = 0 → s.auto = none → s.cfgWait = (q.val, j.idx) :: r →
    (s.rd .HIF_CFG_FN_MASK []).testBit (s.rd .HIF_QP_ASSIGN_FN [q]) = true → dLEN j.d = 0 →
    ∃ t, exec (.cfgLoad q h u) s = .next t ∧ (t.qp q).jobs = [j.ended 4 0 0] ∧ t.cfgLoad = {} ∧ SameFields s t []) ∧
  (∀ (q : Fin 1024) (u : Bool) (j : Job) (r : List (Nat × Nat)) (s : State),
    s.mayStart q 0 0x20 j = true → (s.qp q).jobs = [j] → s.cfgLoad.phase = 0 → s.auto = none → s.cfgWait = (q.val, j.idx) :: r →
    (s.rd .HIF_CFG_FN_MASK []).testBit (s.rd .HIF_QP_ASSIGN_FN [q]) = true → dLEN j.d ≠ 0 →
    ∃ t, exec (.cfgLoad q none u) s = .next t ∧ (t.qp q).jobs = [j.ended 8 0 0] ∧ t.cfgLoad = {} ∧ SameFields s t []) ∧
  (∀ (q : Fin 1024) (n : Nat) (h : BitVec 2048) (u : Bool) (j : Job) (r : List (Nat × Nat)) (s : State),
    s.mayStart q n 0x20 j = true → s.cfgLoad.phase = 0 → s.auto = none → s.cfgWait = (q.val, j.idx) :: r →
    (s.rd .HIF_CFG_FN_MASK []).testBit (s.rd .HIF_QP_ASSIGN_FN [q]) = true → 256 ≤ dLEN j.d →
    s.cfgHeaderCheck h.toNat (dLEN j.d) u = 0 → hFRAMES h.toNat ≠ 0 → hEncrypted h.toNat = false →
    (hDieList h.toNat).all (fun d => s.up d && !s.migrating d) = true →
    ∃ t, exec (.cfgLoad q (some h) u) s = .next t ∧ t.cfgLoad.phase = 3 ∧ t.cfgLoad.hdr = h.toNat ∧ t.cfgLoad.sent = 0 ∧
      t.cfgLoad.owner = some (q.val, j.idx) ∧ (t.qp q).jobs[n]? = some { j with st := 1 }) ∧
  (∀ (x : BitVec 8256) (s : State), s.cfgLoad.phase = 3 → s.cfgLoad.sent < hFRAMES s.cfgLoad.hdr → s.cfgLoad.auto = false →
    (hDIES s.cfgLoad.hdr).testBit (farDIE (recFAR x.toNat)) = true →
    (s.cfgLoad.buf.filter (fun y => y.die = farDIE (recFAR x.toNat))).length < 64 →
    ∃ t, exec (.cfgRecord (some x)) s = .next t ∧ t.cfgLoad.sent = s.cfgLoad.sent + 1 ∧
      t.cfgLoad.buf = s.cfgLoad.buf ++ [{ die := farDIE (recFAR x.toNat), rec_ := x.toNat }] ∧ SameFields s t []) ∧
  (∀ (s : State), s.cfgLoad.phase = 3 → s.cfgLoad.sent < hFRAMES s.cfgLoad.hdr → s.cfgLoad.auto = false →
    ∃ t, exec (.cfgRecord none) s = .next t ∧ t.cfgLoad = {}) ∧
  (∀ (d : Fin 8) (fails : Fin 5) (items : List CfgItem) (x : CfgRec) (r : List CfgRec) (s : State), s.cfgLoad.phase = 3 → s.up d = true →
    s.cfgLoad.buf = x :: r → x.die = d.val → s.frameCause d x.rec_ items = 0 → fails.val < 4 → recData x.rec_ ≠ 0 →
    ∃ t, exec (.cfgFrame d fails items) s = .next t ∧ smGet t.cfg [d.val, recFAR x.rec_] 0 = recData x.rec_ ∧
      t.cfgLoad.done = s.cfgLoad.done + 1 ∧ t.cfgLoad.buf = r ∧
      t.rd .CFG_STATUS_FRAMES [d] = (s.rd .CFG_STATUS_FRAMES [d] + 1) % 2 ^ Fld.CFG_STATUS_FRAMES.spec.width ∧
      SameFields s t [(.CFG_STATUS_FRAMES, [d])]) ∧
  (∀ (d : Fin 8) (fails : Fin 5) (items : List CfgItem) (x : CfgRec) (r : List CfgRec) (s : State), s.cfgLoad.phase = 3 → s.up d = true →
    s.cfgLoad.buf = x :: r → x.die = d.val → s.frameCause d x.rec_ items ≠ 0 → s.rd .CFG_ERR_VALID [d] = 0 →
    ∃ t, exec (.cfgFrame d fails items) s = .next t ∧ t.cfgLoad = {} ∧ t.rd .CFG_ERR_VALID [d] = 1 ∧
      t.rd .CFG_ERR_CODE [d] = s.frameCause d x.rec_ items ∧ t.rd .CFG_ERR_FAR_FAR [d] = recFAR x.rec_) ∧
  (∀ (d : Fin 8) (items : List CfgItem) (x : CfgRec) (r : List CfgRec) (s : State), s.cfgLoad.phase = 3 → s.up d = true →
    s.cfgLoad.buf = x :: r → x.die = d.val → s.frameCause d x.rec_ items = 0 → farKIND (recFAR x.rec_) ≠ 0 →
    s.rd .CFG_ERR_VALID [d] = 0 →
    ∃ t, exec (.cfgFrame d 4 items) s = .next t ∧ t.cfgLoad = {} ∧ t.rd .CFG_ERR_VALID [d] = 1 ∧
      t.rd .CFG_ERR_CODE [d] = 5 ∧ t.rd .CFG_ERR_FAR_FAR [d] = recFAR x.rec_) ∧
  (∀ (g : Bool) (s : State), s.cfgLoad.phase = 3 → s.cfgLoad.done = hFRAMES s.cfgLoad.hdr → hKEY s.cfgLoad.hdr ≠ 0xFF →
    ∃ t, exec (.imageVerifyEnd false g) s = .next t ∧ t.cfgLoad = {} ∧
      t.rd .LS_VER_CNT_COUNT [] = min (s.rd .LS_VER_CNT_COUNT [] + 1) 0xFFFFFFFF) ∧
  (∀ (d : Fin 8) (k : Fin 40) (s : State), s.cfgLoad.phase = 3 → s.cfgLoad.done = hFRAMES s.cfgLoad.hdr →
    s.cfgLoad.release = false → (hDieList s.cfgLoad.hdr).all (fun n =>
      (hSecList s.cfgLoad.hdr n).all (fun i => s.rd .SEC_STATUS_STATE [n, i] != 5)) = true →
    s.up d = true → s.cfgNamed d k = true →
    ∃ t, exec (.imageVerifyEnd true true) s = .next t ∧ t.cfgLoad = {} ∧ t.rd .SEC_STATUS_STATE [d, k] = 2 ∧
      t.rd .LS_SVN_SVN [hCOUNTER s.cfgLoad.hdr] =
        max (s.rd .LS_SVN_SVN [hCOUNTER s.cfgLoad.hdr]) (hSVN s.cfgLoad.hdr) % 2 ^ Fld.LS_SVN_SVN.spec.width) ∧
  (∀ (a b : Nat) (d : Fin 8) (k : Fin 40) (s : State), s.cfgLoad.phase = 4 → s.up d = true → s.cfgNamed d k = true →
    s.rd .SEC_STATUS_STATE [d, k] = 2 → (List.range 8).all (fun g => (s.gov g).queue.isEmpty) = true →
    (s.gov ((hDieList s.cfgLoad.hdr).getLastD 0)).ready.any (·.is 4 cfgWho) = true →
    (hDieList s.cfgLoad.hdr).all (fun n => (hSecList s.cfgLoad.hdr n).all fun i =>
      s.rd .SEC_STATUS_STATE [n, i] != 2 || (s.treesOf n i).isEmpty || s.edgeOk n i b) = true →
    ∃ t, exec (.cfgReleaseInstant a b) s = .next t ∧ t.cfgLoad = {} ∧ t.rd .SEC_STATUS_STATE [d, k] = 3 ∧
      t.rd .SEC_CTL_RESET [d, k] = 0 ∧ t.now = s.now + (10000 + a + b))

/-- A step or set is checked in order, waits its microsecond, and gives every tap the new time; rate and control
writes follow their writer. STEP and SET of a writer that may, with nothing waiting: a request that passes the checks
of R355 sets BUSY and is applied later, one that fails sets STEP_REF and REF_CODE and is gone. While BUSY is 1 either
is dropped. At the apply, 1 us after acceptance, local time takes the set value or moves by the step, 20 ns later
VALID is 1, STEPS counts one more, BUSY is 0. SX_ADJ takes the rate unless Dvorkenor's servo holds it. SX_CTL takes
its fields in MODE 0. TIME_READ writes the 16-byte record, TIME_STEP asks, TIME_ADJUST sets the rate, both only for an
administrative function. Clauses that stand in R336, R353, R355, R356, R367, R369, R370.
(spec/11_host_rings_and_doorbells.md, spec/12_sextant_time_unit.md) -/
def Obligations.TimeStepsAreCheckedQueuedAndApplied : Prop :=
  (∀ (w : Writer) (force : Bool) (s : State), s.reaches w .SX_STEP_CMD [] = true → s.sxWriter w = true →
    s.on .SX_STEP_CMD_BUSY [] = false → s.sxq = [] →
    s.sxCheck { set_ := false, val := s.sxStepVal false, force := force, src := if w = .binnacle then 2 else 0 } = 0 →
    ∃ t, exec (.step_ w force) s = .next t ∧ t.rd .SX_STEP_CMD_BUSY [] = 1 ∧ t.local_ = s.local_ ∧
      t.sxq = [{ set_ := false, val := s.sxStepVal false, force := force, src := if w = .binnacle then 2 else 0, t := some s.now }] ∧
      SameFields s t [(.SX_STEP_CMD_BUSY, [])]) ∧
  (∀ (w : Writer) (force : Bool) (s : State), s.reaches w .SX_STEP_CMD [] = true → s.sxWriter w = true →
    s.on .SX_STEP_CMD_BUSY [] = false → s.sxq = [] →
    s.sxCheck { set_ := true, val := s.sxStepVal true, force := force, src := if w = .binnacle then 2 else 0 } = 0 →
    ∃ t, exec (.set_ w force) s = .next t ∧ t.rd .SX_STEP_CMD_BUSY [] = 1 ∧ t.local_ = s.local_ ∧
      t.sxq = [{ set_ := true, val := s.sxStepVal true, force := force, src := if w = .binnacle then 2 else 0, t := some s.now }] ∧
      SameFields s t [(.SX_STEP_CMD_BUSY, [])]) ∧
  (∀ (w : Writer) (force : Bool) (s : State), s.reaches w .SX_STEP_CMD [] = true → s.sxWriter w = true →
    s.on .SX_STEP_CMD_BUSY [] = false → s.sxq = [] →
    s.sxCheck { set_ := false, val := s.sxStepVal false, force := force, src := if w = .binnacle then 2 else 0 } ≠ 0 →
    ∃ t, exec (.step_ w force) s = .next t ∧ t.rd .SX_STAT_STEP_REF [] = 1 ∧ t.local_ = s.local_ ∧ t.sxq = [] ∧
      t.rd .SX_STAT_REF_CODE [] =
        s.sxCheck { set_ := false, val := s.sxStepVal false, force := force, src := if w = .binnacle then 2 else 0 } ∧
      SameFields s t [(.SX_STAT_STEP_REF, []), (.SX_STAT_REF_CODE, [])]) ∧
  (∀ (w : Writer) (force : Bool) (s : State), s.reaches w .SX_STEP_CMD [] = true → s.on .SX_STEP_CMD_BUSY [] = true →
    ∃ t, exec (.set_ w force) s = .next t ∧ t.sxq = s.sxq ∧ t.local_ = s.local_ ∧ SameFields s t []) ∧
  (∀ (r : SxReq) (u v : Nat) (s : State), s.sxq = [r] → r.t = some u → r.set_ = true → r.val = v → s.clocksUp = true →
    ∃ t, exec .stepApply s = .next t ∧ t.sxq = [] ∧ t.rd .SX_STAT_VALID [] = 1 ∧ t.rd .SX_STEP_CMD_BUSY [] = 0 ∧
      t.rd .SX_STAT_STEPS [] = (s.rd .SX_STAT_STEPS [] + 1) % 2 ^ Fld.SX_STAT_STEPS.spec.width ∧
      t.now = max s.now (u + 1000) + 20 ∧ t.local_ = (v * fracUnit % localWrap + 20 * s.rateUnits) % localWrap ∧
      (∀ b : Fin 28, t.rd .CL_BND_STAT_GRID [b] = 0)) ∧
  (∀ (r : SxReq) (u : Nat) (s : State), s.sxq = [r] → r.t = some u → r.set_ = false → s.clocksUp = true →
    ∃ t, exec .stepApply s = .next t ∧ t.sxq = [] ∧ t.rd .SX_STAT_VALID [] = 1 ∧ t.rd .SX_STEP_CMD_BUSY [] = 0 ∧
      t.local_ = (((((s.lapseTo (u + 1000)).local_ : Int) + r.val * fracUnit) % localWrap).toNat + 20 * s.rateUnits) % localWrap) ∧
  (∀ (r : SxReq) (u k : Nat) (j : Job) (s : State), s.sxq = [r] → r.t = some u → r.src = 1 → s.jobAt r.q r.idx = some k →
    (s.qp r.q).jobs[k]? = some j → dNOCMP j.d = false →
    ∃ t, exec .stepApply s = .next t ∧ t.sxq = [] ∧ (t.qp r.q).jobs[k]? = some (j.ended 0 0 0)) ∧
  (∀ (w : Writer) (v : BitVec 32) (s : State), s.reaches w .SX_ADJ [] = true → s.sxWriter w = true → s.adjClosed w = false →
    ∃ t, exec (.sxAdjWrite w v) s = .next t ∧ t.rd .SX_ADJ_RATE [] = v.toNat ∧ SameFields s t [(.SX_ADJ_RATE, [])]) ∧
  (∀ (w : Writer) (v : BitVec 32) (s : State), s.reaches w .SX_ADJ [] = true → s.adjClosed w = true →
    ∃ t, exec (.sxAdjWrite w v) s = .next t ∧ SameFields s t []) ∧
  (∀ (w : Writer) (v : BitVec 32) (s : State), s.reaches w .SX_CTL [] = true → s.sxWriter w = true → s.rd .SX_CTL_MODE [] = 0 →
    ∃ t, exec (.sxCtlWrite w v) s = .next t ∧ t.rd .SX_CTL_MODE [] = bitsOf v.toNat 0 2 ∧
      t.rd .SX_CTL_OC_PORT [] = bitsOf v.toNat 2 1 ∧ t.rd .SX_CTL_DELAY [] = bitsOf v.toNat 3 1 ∧
      t.rd .SX_CTL_TRANSPORT [] = bitsOf v.toNat 4 1 ∧ t.rd .SX_CTL_SERVO [] = bitsOf v.toNat 5 1 ∧
      t.rd .SX_CTL_SYNTONISE [] = bitsOf v.toNat 6 1 ∧ t.rd .SX_CTL_DOMAIN [] = bitsOf v.toNat 8 8) ∧
  (∀ (q : Fin 1024) (n : Nat) (j : Job) (s : State), s.mayStart q n 0x40 j = true → bitsOf (dWord j.d 6) 0 4 = 1 →
    dNOCMP j.d = false →
    ∃ t, exec (.timeRead q) s = .next t ∧ (t.qp q).jobs[n]? = some (j.ended 0 0 16) ∧ SameFields s t [] ∧
      t.out = .hostWrite (portOf (s.rd .HIF_QP_ASSIGN_FN [q])) (s.rd .HIF_QP_ASSIGN_FN [q]) (dDST j.d)
        (s.on .HIF_FN_CTL_RO_DATA [s.rd .HIF_QP_ASSIGN_FN [q]])
        (natLe (tNS s.time16) 4 ++ natLe (tSEC s.time16) 6 ++ natLe (tFRAC s.time16) 2 ++ natLe 0 4) :: s.out) ∧
  (∀ (q : Fin 1024) (n : Nat) (j : Job) (s : State), s.mayStart q n 0x40 j = true → bitsOf (dWord j.d 6) 0 4 = 2 →
    isAdmin (s.rd .HIF_QP_ASSIGN_FN [q]) = false →
    ∃ t, exec (.timeStep q) s = .next t ∧ (t.qp q).jobs[n]? = some (j.ended 1 0 0) ∧ t.sxq = s.sxq ∧ SameFields s t []) ∧
  (∀ (q : Fin 1024) (n : Nat) (j : Job) (s : State), s.mayStart q n 0x40 j = true → bitsOf (dWord j.d 6) 0 4 = 2 →
    isAdmin (s.rd .HIF_QP_ASSIGN_FN [q]) = true → s.sxq = [] → s.sxCheck { set_ := false, val := sint64 (bitsOf j.d 256 64) * 2 ^ 16 + bitsOf j.d 320 16, force := (dWord j.d 6).testBit 8, src := 1, q := q, idx := j.idx } = 0 →
    ∃ t, exec (.timeStep q) s = .next t ∧ (t.qp q).jobs[n]? = some { j with st := 1 } ∧ t.rd .SX_STEP_CMD_BUSY [] = 1 ∧
      t.sxq.map (·.val) = [sint64 (bitsOf j.d 256 64) * 2 ^ 16 + bitsOf j.d 320 16]) ∧
  (∀ (q : Fin 1024) (n : Nat) (j : Job) (s : State), s.mayStart q n 0x40 j = true → bitsOf (dWord j.d 6) 0 4 = 3 →
    isAdmin (s.rd .HIF_QP_ASSIGN_FN [q]) = true → s.adjClosed .other = false → dNOCMP j.d = false →
    ∃ t, exec (.timeAdjust q) s = .next t ∧ (t.qp q).jobs[n]? = some (j.ended 0 0 0) ∧ t.rd .SX_ADJ_RATE [] = dWord j.d 8 ∧
      SameFields s t [(.SX_ADJ_RATE, [])]) ∧
  (∀ (q : Fin 1024) (n : Nat) (j : Job) (s : State), s.mayStart q n 0x40 j = true → bitsOf (dWord j.d 6) 0 4 = 3 →
    isAdmin (s.rd .HIF_QP_ASSIGN_FN [q]) = true → s.adjClosed .other = true →
    ∃ t, exec (.timeAdjust q) s = .next t ∧ (t.qp q).jobs[n]? = some (j.ended 7 0 0) ∧ SameFields s t [])

/-- PTP frames are stamped at the ball, a transparent clock adds its residence, the servo gets its measurements and
the PPS pin its pulse. A received event message stores its sequence number and ingress stamp. A transmitted one in
two-step mode, and any request, queues its egress stamp, with 32 waiting it sets TXQ_OVF and counts lost. A one-step
Sync leaves with its stamp, a one-step Pdelay_Resp with the time since its request came in. POP removes the oldest
stamp. In MODE 3 a one-step event message leaves with the residence added, a two-step one leaves unchanged and its
residence waits for its follow-up, which takes it. A waiting residence is given up after 1 s. A measurement is latched
for the host servo, or sets the rate for Dvorkenor's once time is valid. A port takes its new state and link. PPS_OUT
rises at the next second for WIDTH us. Clauses that stand in R357, R358, R359, R360, R361, R362, R363, R366.
(spec/12_sextant_time_unit.md) -/
def Obligations.PtpStampsResidencesAndThePpsPin : Prop :=
  (∀ (p : Fin 2) (ty : Fin 4) (q : BitVec 16) (s : State), s.sxRuns p = true →
    ∃ t, exec (.ptpRxEvent p true ty q) s = .next t ∧ smGet t.rxStamp [p.val, ty.val, q.toNat] none = some (s.ingress p) ∧ SameFields s t []) ∧
  (∀ (p : Fin 2) (ty : Fin 4) (q : BitVec 16) (s : State), s.sxRuns p = true →
    s.on .SX_PORT_CFG_TWO_STEP [p] = true ∨ ty = 1 ∨ ty = 2 → (s.txQueue p).length < 32 →
    ∃ t, exec (.ptpTxEvent p ty q) s = .next t ∧
      t.txQueue p = s.txQueue p ++ [{ seq := q.toNat, type := ty, stamp := s.egress p }] ∧
      t.out = .frame p [ty, q.toNat, (s.on .SX_PORT_CFG_TWO_STEP [p]).toNat] :: s.out ∧ SameFields s t []) ∧
  (∀ (p : Fin 2) (ty : Fin 4) (q : BitVec 16) (s : State), s.sxRuns p = true →
    s.on .SX_PORT_CFG_TWO_STEP [p] = true ∨ ty = 1 ∨ ty = 2 → 32 ≤ (s.txQueue p).length →
    ∃ t, exec (.ptpTxEvent p ty q) s = .next t ∧ t.txQueue p = s.txQueue p ∧ t.rd .SX_PORT_STAT_TXQ_OVF [p] = 1 ∧
      t.rd .SX_TXQ_LOST_CNT_COUNT [p] = min (s.rd .SX_TXQ_LOST_CNT_COUNT [p] + 1) (2 ^ Fld.SX_TXQ_LOST_CNT_COUNT.spec.width - 1)) ∧
  (∀ (p : Fin 2) (q : BitVec 16) (s : State), s.sxRuns p = true → s.on .SX_PORT_CFG_TWO_STEP [p] = false →
    ∃ t, exec (.ptpTxEvent p 0 q) s = .next t ∧ t.txq = s.txq ∧
      t.out = .frame p [0, q.toNat, 0, tSEC (s.egress p), tNS (s.egress p), tFRAC (s.egress p)] :: s.out ∧ SameFields s t []) ∧
  (∀ (p : Fin 2) (q : BitVec 16) (i : Nat) (s : State), s.sxRuns p = true → s.on .SX_PORT_CFG_TWO_STEP [p] = false →
    smGet s.rxStamp [p.val, 2, q.toNat] none = some i →
    ∃ t, exec (.ptpTxEvent p 3 q) s = .next t ∧ t.txq = s.txq ∧
      t.out = .frame p [3, q.toNat, 0, (s.egress p + time16Wrap - i) % time16Wrap] :: s.out ∧ SameFields s t []) ∧
  (∀ (w : Writer) (p : Fin 2) (s : State), s.reaches w .SX_TXQ_CTL [p] = true → s.sxWriter w = true →
    s.rd .SX_CTL_MODE [] = 0 ∨ w = .binnacle →
    ∃ t, exec (.sxTxqPop w p) s = .next t ∧ t.txQueue p = (s.txQueue p).tail ∧ SameFields s t []) ∧
  (∀ (w : Writer) (p : Fin 2) (s : State), s.reaches w .SX_TXQ_CTL [p] = true → s.rd .SX_CTL_MODE [] ≠ 0 → w ≠ .binnacle →
    ∃ t, exec (.sxTxqPop w p) s = .next t ∧ t.txq = s.txq ∧ SameFields s t []) ∧
  (∀ (p : Fin 2) (ty : Fin 4) (idt : BitVec 80) (q : BitVec 16) (c : BitVec 64) (r : Nat) (two : Bool) (s : State),
    s.rd .SX_CTL_MODE [] = 3 → s.sxRuns p = true → s.sxRuns (1 - p.val) = true →
    s.on .SX_PORT_CFG_TWO_STEP [1 - p.val] = false → ty ≠ 0 →
    ∃ t, exec (.tcForward p (ty.castLE (by decide)) idt q c r two false) s = .next t ∧ t.residences = s.residences ∧
      t.out = .frame (1 - p.val) [ty.val, idt.toNat, q.toNat, (((c.toNat : Int) + (r + sint32 (s.rd .SX_PORT_EASYM_ASYM [1 - p.val]) +
        sint32 (s.rd .SX_PORT_IASYM_ASYM [p]))) % 2 ^ 64).toNat, (s.on .SX_CTL_TRANSPORT []).toNat] :: s.out ∧ SameFields s t []) ∧
  (∀ (p : Fin 2) (ty : Fin 4) (idt : BitVec 80) (q : BitVec 16) (c : BitVec 64) (r : Nat) (two : Bool) (s : State),
    s.rd .SX_CTL_MODE [] = 3 → s.sxRuns p = true → s.sxRuns (1 - p.val) = true →
    s.on .SX_PORT_CFG_TWO_STEP [1 - p.val] = true → ty ≠ 0 →
    ∃ t, exec (.tcForward p (ty.castLE (by decide)) idt q c r two false) s = .next t ∧ t.residences = s.residences ++
        [{ port := 1 - p.val, type := ty, ident := idt.toNat, seq := q.toNat, val := r + sint32 (s.rd .SX_PORT_EASYM_ASYM [1 - p.val]) + sint32 (s.rd .SX_PORT_IASYM_ASYM [p]), t := s.now }] ∧
      t.out = .frame (1 - p.val) [ty.val, idt.toNat, q.toNat, c.toNat, 0] :: s.out ∧ SameFields s t []) ∧
  (∀ (p : Fin 2) (idt : BitVec 80) (q : BitVec 16) (c : BitVec 64) (n : Nat) (two : Bool) (x : Residence) (s : State),
    s.rd .SX_CTL_MODE [] = 3 → s.sxRuns p = true → s.sxRuns (1 - p.val) = true → s.residences = [x] →
    s.now ≤ x.t + 1000000000 → x.type = 0 → x.ident = idt.toNat → x.seq = q.toNat →
    ∃ t, exec (.tcForward p 8 idt q c n two false) s = .next t ∧ t.residences = [] ∧
      t.out = .frame (1 - p.val) [8, idt.toNat, q.toNat, (((c.toNat : Int) + x.val) % 2 ^ 64).toNat, 0] :: s.out ∧ SameFields s t []) ∧
  (∀ (x : Residence) (r : List Residence) (s : State), s.residences = x :: r →
    ∃ t, exec .residenceTimeout s = .next t ∧ t.residences = r ∧ t.now = max s.now (x.t + 1000000000) ∧
      t.rd .SX_PORT_STAT_ORPHAN [x.port] =
        min (s.rd .SX_PORT_STAT_ORPHAN [x.port] + 1) (2 ^ Fld.SX_PORT_STAT_ORPHAN.spec.width - 1) ∧
      SameFields s t [(.SX_PORT_STAT_ORPHAN, [x.port])]) ∧
  (∀ (o m : BitVec 64) (q : BitVec 16) (r : BitVec 32) (s : State), s.rd .SX_CTL_MODE [] ≠ 0 → s.on .SX_CTL_SERVO [] = true →
    ∃ t, exec (.servoMeasurement o m q r) s = .next t ∧ t.rd .SX_MEAS_OFS_LO_VALUE [] = o.toNat % 2 ^ 32 ∧
      t.rd .SX_MEAS_SEQ_NEW [] = 1 ∧ t.sxMeas = [o.toNat / 2 ^ 32, m.toNat % 2 ^ 32, m.toNat / 2 ^ 32, q.toNat] ∧
      t.rd .SX_ADJ_RATE [] = s.rd .SX_ADJ_RATE []) ∧
  (∀ (o m : BitVec 64) (q : BitVec 16) (r : BitVec 32) (s : State), s.rd .SX_CTL_MODE [] ≠ 0 → s.on .SX_CTL_SERVO [] = false →
    s.on .SX_STAT_VALID [] = true →
    ∃ t, exec (.servoMeasurement o m q r) s = .next t ∧ t.rd .SX_ADJ_RATE [] = r.toNat ∧ SameFields s t [(.SX_ADJ_RATE, [])]) ∧
  (∀ (p : Fin 2) (x : Fin 10) (link : Bool) (o : BitVec 64) (s : State), s.on .SX_PORT_CFG_EN [p] = true → x ≠ 8 →
    ∃ t, exec (.ptpPortStateChange p x link o) s = .next t ∧ t.rd .SX_PORT_STAT_PSTATE [p] = x.val ∧
      t.rd .SX_PORT_STAT_LINK [p] = (if link then 1 else 0) ∧
      SameFields s t [(.SX_PORT_STAT_PSTATE, [p]), (.SX_PORT_STAT_LINK, [p])]) ∧
  (∀ (s : State), s.timeRuns = true → s.rd .SX_PPS_WIDTH [] ≠ 0 → s.tap.scan = false →
    ∃ t, exec .ppsPulse s = .next t ∧ t.out = .pin 0 1 :: s.out ∧ s.now ≤ t.now ∧
      t.ppsEnd = some (t.now + s.rd .SX_PPS_WIDTH [] * 1000) ∧ SameFields s t []) ∧
  (∀ (u : Nat) (s : State), s.ppsEnd = some u → s.tap.scan = false →
    ∃ t, exec .ppsEnd s = .next t ∧ t.out = .pin 0 0 :: s.out ∧ t.ppsEnd = none ∧ t.now = max s.now u ∧ SameFields s t [])

/-- The spine glides to a new source, reckons by the oscillator when its source fails, and returns by itself or by
command. A selected source with a link takes SEL and starts a glide once the clocks run, a source without a link, or
P0's while it carries spread, changes no field. A source that fails by the monitor's counts gives DEAD_RECK 1, ACTIVE
3 and FAIL_EV 1 and one non-maskable event in every running helm core. The oscillator error is measured each 1 ms.
With AUTO_RETURN the spine returns to SEL by itself, by command once the source is good, else the command changes no
field. CLK_SSC is taken unless a user of the spread runs. A CLKOUT pin goes low and then drives its new source, with
the spread if its SSC says so. Clauses that stand in R373, R374, R375, R376, R377, R378.
(spec/13_clocks_power_and_permits.md) -/
def Obligations.TheReferenceSpineFollowsItsSource : Prop :=
  (∀ (w : Writer) (x : BitVec 2) (good spread : Bool) (s : State), s.reaches w .CLK_SRC [] = true → s.srcLink x.toNat = true →
    (x = 1 → spread = false) →
    x.toNat ≠ s.rd .CLK_SRC_SEL [] → s.clocksUp = true → s.on .CLK_SRC_DEAD_RECK [] = false →
    ∃ t, exec (.clkSourceSelect w x good spread) s = .next t ∧ t.rd .CLK_SRC_SEL [] = x.toNat ∧ t.rd .CLK_SRC_ACTIVE [] = x.toNat ∧
      t.rd .CLK_SRC_GLIDING [] = 1 ∧ t.rd .CLK_MON_REF_OK [] = (if good then 1 else 0)) ∧
  (∀ (w : Writer) (x : BitVec 2) (good spread : Bool) (s : State), s.reaches w .CLK_SRC [] = true → s.srcLink x.toNat = true →
    (x = 1 → spread = false) →
    x.toNat ≠ s.rd .CLK_SRC_SEL [] → s.clocksUp = false →
    ∃ t, exec (.clkSourceSelect w x good spread) s = .next t ∧ t.rd .CLK_SRC_SEL [] = x.toNat ∧
      t.rd .CLK_SRC_GLIDING [] = s.rd .CLK_SRC_GLIDING [] ∧ SameFields s t [(.CLK_SRC_SEL, []), (.CLK_MON_REF_OK, [])]) ∧
  (∀ (w : Writer) (x : BitVec 2) (good spread : Bool) (s : State), s.reaches w .CLK_SRC [] = true →
    s.srcLink x.toNat = false ∨ (x = 1 ∧ spread = true) →
    ∃ t, exec (.clkSourceSelect w x good spread) s = .next t ∧ SameFields s t []) ∧
  (∀ (s : State), ∃ t, exec .glideDone s = .next t ∧ t.rd .CLK_SRC_GLIDING [] = 0 ∧ SameFields s t [(.CLK_SRC_GLIDING, [])]) ∧
  (∀ (c : Fin 8) (silent : Bool) (a b e : Nat) (s : State), sourceFailed silent a b e = true → s.clocksUp = true →
    s.on .CLK_SRC_DEAD_RECK [] = false → s.rd .CLK_SRC_ACTIVE [] ≠ 3 →
    ∃ t, exec (.clockSourceFail silent a b e) s = .next t ∧ t.rd .CLK_SRC_DEAD_RECK [] = 1 ∧ t.rd .CLK_SRC_ACTIVE [] = 3 ∧
      t.rd .CLK_MON_FAIL_EV [] = 1 ∧ t.rd .CLK_MON_REF_OK [] = 0 ∧ t.rd .SX_STAT_DEAD_RECK [] = 1 ∧
      t.rd .CLK_SRC_SEL [] = s.rd .CLK_SRC_SEL [] ∧
      (t.helmRt c).nmi = (if s.rd .HELM_CORE_STAT_STATE [c] < 2 then (s.helmRt c).nmi else (s.helmRt c).nmi ++ [32])) ∧
  (∀ (silent : Bool) (a b e : Nat) (s : State), sourceFailed silent a b e = false ∨ s.rd .CLK_SRC_ACTIVE [] = 3 →
    ∃ t, exec (.clockSourceFail silent a b e) s = .next t ∧ t = s) ∧
  (∀ (err : BitVec 16) (s : State), s.clocksUp = true → s.on .CLK_SRC_DEAD_RECK [] = false →
    ∃ t, exec (.oscErrMeasure err) s = .next t ∧ t.rd .CLK_MON_OSC_ERR [] = err.toNat ∧ t.now % 1000000 = 0 ∧ s.now < t.now ∧
      SameFields s t [(.CLK_MON_OSC_ERR, [])]) ∧
  (∀ (s : State), s.on .CLK_SRC_DEAD_RECK [] = true → s.on .CLK_SRC_AUTO_RETURN [] = true →
    ∃ t, exec .clockAutoReturn s = .next t ∧ t.rd .CLK_SRC_DEAD_RECK [] = 0 ∧ t.rd .CLK_SRC_GLIDING [] = 1 ∧
      t.rd .CLK_SRC_ACTIVE [] = s.rd .CLK_SRC_SEL [] % 2 ^ Fld.CLK_SRC_ACTIVE.spec.width ∧ t.rd .SX_STAT_DEAD_RECK [] = 0) ∧
  (∀ (s : State), s.on .CLK_SRC_AUTO_RETURN [] = false → ∃ t, exec .clockAutoReturn s = .next t ∧ t = s) ∧
  (∀ (w : Writer) (s : State), s.reaches w .CLK_SRC [] = true → s.on .CLK_SRC_DEAD_RECK [] = true →
    ∃ t, exec (.clkSrcReturn w true) s = .next t ∧ t.rd .CLK_SRC_DEAD_RECK [] = 0 ∧ t.rd .CLK_SRC_GLIDING [] = 1) ∧
  (∀ (w : Writer) (s : State), s.reaches w .CLK_SRC [] = true → s.on .CLK_SRC_DEAD_RECK [] = true →
    s.rd .CLK_SRC_SEL [] ≠ 3 →
    ∃ t, exec (.clkSrcReturn w false) s = .next t ∧ SameFields s t []) ∧
  (∀ (w : Writer) (d f : BitVec 8) (s : State), s.reaches w .CLK_SSC [] = true → s.sscBusy = false →
    ∃ t, exec (.clkSscWrite w d f) s = .next t ∧ t.rd .CLK_SSC_DEPTH [] = d.toNat ∧ t.rd .CLK_SSC_FREQ [] = f.toNat ∧
      SameFields s t [(.CLK_SSC_DEPTH, []), (.CLK_SSC_FREQ, [])]) ∧
  (∀ (w : Writer) (d f : BitVec 8) (s : State), s.reaches w .CLK_SSC [] = true → s.sscBusy = true →
    ∃ t, exec (.clkSscWrite w d f) s = .next t ∧ SameFields s t []) ∧
  (∀ (w : Writer) (i : Fin 2) (x : BitVec 2) (s : State), s.reaches w .CLKOUT_CTL [i] = true →
    x.toNat ≠ s.rd .CLKOUT_CTL_SRC [i] → x.toNat ≠ 0 → s.tap.scan = false →
    (x.toNat = 3 → 1 ≤ (s.synthAt 8 (s.rd .CLKOUT_CTL_SPINE [i])).freq ∧
      (s.synthAt 8 (s.rd .CLKOUT_CTL_SPINE [i])).freq ≤ clkoutMax) →
    ∃ t, exec (.clkoutSwitch w i x) s = .next t ∧ t.rd .CLKOUT_CTL_SRC [i] = x.toNat ∧
      t.out = .clkout (i : Fin 2).val (if x.toNat = 3 then 8 + s.rd .CLKOUT_CTL_SPINE [i] else x.toNat)
        (if s.on .CLKOUT_CTL_SSC [i] then s.spread.1 else 0) (if s.on .CLKOUT_CTL_SSC [i] then s.spread.2 else 0) ::
        .pin (10 + i) 0 :: s.out ∧
      SameFields s t [(.CLKOUT_CTL_SRC, [i])])

/-- A synthesizer glides by at most 1 % a microsecond, and a voltage setting moves synthesizers down, the rail, and
synthesizers up, in that order. A spine or fabric frequency out of range or above its ceiling changes no field. A
stopped synthesizer takes its frequency at once. A frequency for a setting not in force is only stored. A glide step
moves by at most 1/100 and lasts 1 us, the last one clears GLIDING. A setting refused by R384 sets FAIL. An accepted
one sets VSEL and BUSY and moves the rail once nothing glides. A rail not yet right is checked again after 10 us, and
at 4 SETTLE the sequence ends with FAIL. A right one puts VCUR, and with nothing to raise BUSY ends. At the rise grant
PERMIT_WAIT ends and the synthesizer glides. Clauses that stand in R379, R380, R381, R382, R383, R384, R395.
(spec/13_clocks_power_and_permits.md) -/
def Obligations.SynthesizersGlideAndTheRailFollowsVsel : Prop :=
  (∀ (w : Writer) (k : Fin 8) (f : BitVec 21) (s : State), s.reaches w .SPN_SYN [k] = true → freqOk f.toNat = false →
    ∃ t, exec (.spnSynWrite w k f) s = .next t ∧ SameFields s t [] ∧ t.synth = s.synth) ∧
  (∀ (w : Writer) (k : Fin 8) (f : BitVec 21) (s : State), s.reaches w .SPN_SYN [k] = true → freqOk f.toNat = true →
    s.spineCrossed k = false → (List.range 8).all (fun n => (s.boundTrees n k).isEmpty) = true → s.clocksUp = true →
    (s.synthAt 8 k).freq = 0 → (s.synthAt 8 k).tgt = 0 →
    ∃ t, exec (.spnSynWrite w k f) s = .next t ∧ t.rd .SPN_SYN_FREQ [k] = f.toNat ∧ (t.synthAt 8 k).freq = f.toNat ∧
      (t.synthAt 8 k).tgt = f.toNat ∧ SameFields s t [(.SPN_SYN_FREQ, [k])]) ∧
  (∀ (w : Writer) (n : Fin 8) (k v : Fin 4) (f : BitVec 21) (s : State), s.reaches w .FSYN_FREQ [n, k, v] = true →
    treeCeil v < f.toNat →
    ∃ t, exec (.fsynFreqWrite w n k v f) s = .next t ∧ SameFields s t [] ∧ t.synth = s.synth) ∧
  (∀ (w : Writer) (n : Fin 8) (k v : Fin 4) (f : BitVec 21) (s : State), s.reaches w .FSYN_FREQ [n, k, v] = true →
    freqOk f.toNat = true → f.toNat ≤ treeCeil v → s.rd .FVS_STAT_VCUR [n] ≠ v.val →
    ∃ t, exec (.fsynFreqWrite w n k v f) s = .next t ∧ t.rd .FSYN_FREQ_FREQ [n, k, v] = f.toNat ∧ t.synth = s.synth ∧
      SameFields s t [(.FSYN_FREQ_FREQ, [n, k, v])]) ∧
  (∀ (w : Writer) (n : Fin 8) (k v : Fin 4) (f : BitVec 21) (s : State), s.reaches w .FSYN_FREQ [n, k, v] = true →
    freqOk f.toNat = true → f.toNat ≤ treeCeil v → s.rd .FVS_STAT_VCUR [n] = v.val → f.toNat ≠ 0 →
    (s.synthAt n k).freq = (s.synthAt n k).tgt → (s.synthAt n k).freq ≠ 0 → (s.synthAt n k).freq ≠ f.toNat →
    ∃ t, exec (.fsynFreqWrite w n k v f) s = .next t ∧ t.rd .FSYN_FREQ_FREQ [n, k, v] = f.toNat ∧
      t.rd .FSYN_CTL_GLIDING [n, k] = 1 ∧ (t.synthAt n k).freq = (s.synthAt n k).freq ∧ (t.synthAt n k).tgt = f.toNat) ∧
  (∀ (n : Fin 9) (k : Fin 8) (s : State), (s.synthAt n k).freq + (s.synthAt n k).freq / 100 < (s.synthAt n k).tgt →
    ∃ t, exec (.synthGlideStep n k) s = .next t ∧ (t.synthAt n k).freq = (s.synthAt n k).freq + (s.synthAt n k).freq / 100 ∧
      (t.synthAt n k).tgt = (s.synthAt n k).tgt ∧ t.now = s.now + 1000 ∧ SameFields s t []) ∧
  (∀ (n : Fin 9) (k : Fin 8) (s : State), (s.synthAt n k).tgt + (s.synthAt n k).freq / 100 < (s.synthAt n k).freq →
    ∃ t, exec (.synthGlideStep n k) s = .next t ∧ (t.synthAt n k).freq = (s.synthAt n k).freq - (s.synthAt n k).freq / 100 ∧
      (t.synthAt n k).tgt = (s.synthAt n k).tgt ∧ t.now = s.now + 1000 ∧ SameFields s t []) ∧
  (∀ (k : Fin 8) (s : State), (s.synthAt 8 k).freq < (s.synthAt 8 k).tgt → (s.synthAt 8 k).next = none →
    (s.synthAt 8 k).tgt ≤ (s.synthAt 8 k).freq + (s.synthAt 8 k).freq / 100 →
    ∃ t, exec (.synthGlideStep 8 k) s = .next t ∧ (t.synthAt 8 k).freq = (s.synthAt 8 k).tgt ∧
      t.rd .SPN_SYN_GLIDING [k] = 0 ∧ SameFields s t [(.SPN_SYN_GLIDING, [k])]) ∧
  (∀ (w : Writer) (n : Fin 8) (v : BitVec 2) (s : State), s.reaches w .FVS_CTL [n] = true → s.vselBad n v.toNat = true →
    ∃ t, exec (.vselSequence w n v) s = .next t ∧ t.rd .FVS_STAT_FAIL [n] = 1 ∧ SameFields s t [(.FVS_STAT_FAIL, [n])]) ∧
  (∀ (w : Writer) (n : Fin 8) (v : BitVec 2) (s : State), s.reaches w .FVS_CTL [n] = true → s.vselBad n v.toNat = false →
    (List.range 4).all (fun k => decide ((s.synthAt n k).freq ≤ s.rd .FSYN_FREQ_FREQ [n, k, v.toNat])) = true →
    s.fsynMoves n = false →
    ∃ t, exec (.vselSequence w n v) s = .next t ∧ t.rd .FVS_CTL_VSEL [n] = v.toNat ∧ t.rd .FVS_STAT_BUSY [n] = 1 ∧
      t.fvsAt n = { step := 2, t0 := s.now, due := s.now + s.settleNs n } ∧ t.out = .pin (20 + n) v.toNat :: s.out ∧
      SameFields s t [(.FVS_CTL_VSEL, [n]), (.FVS_STAT_BUSY, [n])]) ∧
  (∀ (n : Fin 8) (s : State), (s.fvsAt n).step = 2 → (s.fvsAt n).due < (s.fvsAt n).t0 + 4 * s.settleNs n →
    ∃ t, exec (.railSettleCheck n false) s = .next t ∧ (t.fvsAt n).step = 2 ∧ t.now = max s.now (s.fvsAt n).due ∧
      (t.fvsAt n).due = min ((s.fvsAt n).due + 10000) ((s.fvsAt n).t0 + 4 * s.settleNs n) ∧ SameFields s t []) ∧
  (∀ (n : Fin 8) (s : State), (s.fvsAt n).step = 2 → (s.fvsAt n).t0 + 4 * s.settleNs n ≤ (s.fvsAt n).due →
    ∃ t, exec (.railSettleCheck n false) s = .next t ∧ t.fvsAt n = {} ∧ t.rd .FVS_STAT_BUSY [n] = 0 ∧
      t.rd .FVS_STAT_FAIL [n] = 1 ∧ t.rd .FVS_STAT_VCUR [n] = s.rd .FVS_STAT_VCUR [n]) ∧
  (∀ (n : Fin 8) (s : State), (s.fvsAt n).step = 2 → s.rd .FVS_CTL_VSEL [n] < 4 → (s.gov n).expired = [] →
    (List.range 4).all (fun k => decide (s.rd .FSYN_FREQ_FREQ [n, k, s.rd .FVS_CTL_VSEL [n]] ≤ (s.synthAt n k).freq)) = true →
    s.fsynMoves n = false →
    ∃ t, exec (.railSettleCheck n true) s = .next t ∧ t.rd .FVS_STAT_VCUR [n] = s.rd .FVS_CTL_VSEL [n] ∧
      t.rd .FVS_STAT_BUSY [n] = 0 ∧ t.fvsAt n = {}) ∧
  (∀ (n : Fin 8) (k : Fin 4) (s : State), s.on .FSYN_CTL_PERMIT_WAIT [n, k] = true → s.grantReady n 15 [k] = true →
    (s.synthAt n k).freq = (s.synthAt n k).tgt → (s.synthAt n k).freq ≠ 0 →
    (s.synthAt n k).freq < s.rd .FSYN_FREQ_FREQ [n, k, s.rd .FVS_STAT_VCUR [n]] →
    ∃ t, exec (.synthRiseGrant n k) s = .next t ∧ t.rd .FSYN_CTL_PERMIT_WAIT [n, k] = 0 ∧
      t.rd .FSYN_CTL_GLIDING [n, k] = 1 ∧ (t.synthAt n k).tgt = s.rd .FSYN_FREQ_FREQ [n, k, s.rd .FVS_STAT_VCUR [n]])

/-- A helm core is released under its permit, claims the highest deliverable source, completes it, and is reset by its
command or its watchdog. RELEASE of a core in reset gives STATE 1 and queues its request, of another core changes no
field. At the grant STATE is 2, or 4 with cause 5 under a boot halt, and the pc is the boot vector. RESET gives STATE
0 and removes its mail. A claim by the core answers the claimable source, raises L to its priority and puts it in
service, by another writer it answers 0. COMPLETE of a source in service restores L. SET makes sources 1 to 15
pending. A fabric line takes its level. A non-maskable event goes to the vector with mepc saved. A kick with the key
reloads the count and clears STAGE. The first expiry sets STAGE and adds the event, the second resets the core.
Clauses that stand in R465, R466, R467, R468, R469, R470, R476, R477, R478, R479. (spec/16_helm_cores_and_debug.md) -/
def Obligations.HelmCoresStartTakeInterruptsAndKickTheirWatchdogs : Prop :=
  (∀ (w : Writer) (c : Fin 8) (s : State), s.mute w = false → s.blockWriter w c = true → s.coreState c = 0 →
    2 ≤ s.rd .PG_CFG_BUDGET [8] → (s.gov 8).expired = [] →
    ∃ t, exec (.helmCoreRelease w c) s = .next t ∧ t.coreState c = 1 ∧
      (t.gov 8).queue.length = (s.gov 8).queue.length + 1 ∧ SameFields s t [(.HELM_CORE_STAT_STATE, [c])]) ∧
  (∀ (w : Writer) (c : Fin 8) (s : State), s.coreState c ≠ 0 →
    ∃ t, exec (.helmCoreRelease w c) s = .next t ∧ SameFields s t []) ∧
  (∀ (c : Fin 8) (s : State), s.coreState c = 1 → s.grantReady 8 18 [c] = true →
    (s.rd .PEL_BOOTHALT_MASK []).testBit c = false →
    ∃ t, exec (.helmCoreStart c) s = .next t ∧ t.coreState c = 2 ∧ (t.helmRt c).pc = s.bootVec ∧ (t.helmRt c).mode = 3 ∧
      (t.helmRt c).dvec = s.bootVec + 0x200) ∧
  (∀ (c : Fin 8) (s : State), s.coreState c = 1 → s.grantReady 8 18 [c] = true →
    (s.rd .PEL_BOOTHALT_MASK []).testBit c = true →
    ∃ t, exec (.helmCoreStart c) s = .next t ∧ t.coreState c = 4 ∧ t.rd .HELM_DBG_STAT_CAUSE [c] = 5 ∧
      (t.helmRt c).pc = s.bootVec) ∧
  (∀ (w : Writer) (c : Fin 8) (acts : List HelmAct) (s : State), s.mute w = false → s.blockWriter w c = true →
    ∃ t, exec (.helmCoreReset w c acts) s = .next t ∧ t.coreState c = 0 ∧ t.helmRt c = {} ∧
      t.mail.all (fun m => m.src != 8 + c.val) = true ∧ t.rd .HELM_WDT_CTL_STAGE [c] = 0 ∧ t.level c = 0 ∧ t.rd .HELM_DBG_STAT_IN_MON [c] = 0 ∧
      t.rd .HELM_MBX_CTL_BUSY [c] = 0 ∧
      (t.gov 8).queue.any (·.is 18 [c]) = false) ∧
  (∀ (n : Fin 8) (i : Fin 32) (b : Bool) (s : State),
    ∃ t, exec (.fabricIrqLine n i b) s = .next t ∧ smGet t.irqLine [irqSource n i] false = b ∧ SameFields s t []) ∧
  (∀ (w : Writer) (x : BitVec 9) (s : State), s.mute w = false → 1 ≤ x.toNat → x.toNat ≤ 15 →
    ∃ t, exec (.helmIcSet w x) s = .next t ∧ (t.rd .HELM_IC_PEND_BITS [0]).testBit x.toNat = true ∧
      SameFields s t [(.HELM_IC_PEND_BITS, [0])]) ∧
  (∀ (w : Writer) (x : BitVec 9) (s : State), 15 < x.toNat →
    ∃ t, exec (.helmIcSet w x) s = .next t ∧ SameFields s t []) ∧
  (∀ (c : Fin 8) (s : State), s.claimable c ≠ 0 →
    ∃ t, exec (.helmIcClaim (.helm c) c) s = .next t ∧ t.answer = s.claimable c ∧
      t.level c = s.rd .HELM_IC_SRC_PRIO [s.claimable c] % 2 ^ Fld.HELM_CORE_STAT_LEVEL.spec.width ∧
      (t.helmRt c).serving = s.claimable c :: (s.helmRt c).serving ∧ (t.helmRt c).levels = s.level c :: (s.helmRt c).levels) ∧
  (∀ (w : Writer) (c : Fin 8) (s : State), w ≠ .helm c →
    ∃ t, exec (.helmIcClaim w c) s = .next t ∧ t.answer = 0 ∧ t.helm = s.helm ∧ SameFields s t []) ∧
  (∀ (w : Writer) (c : Fin 8) (x : BitVec 9) (l : Nat) (r : List Nat) (s : State), s.mute w = false →
    (s.helmRt c).serving.contains x.toNat = true → (s.helmRt c).levels = l :: r →
    l < 2 ^ Fld.HELM_CORE_STAT_LEVEL.spec.width →
    ∃ t, exec (.helmIcComplete w c x) s = .next t ∧ t.level c = l ∧ (t.helmRt c).levels = r ∧
      (t.helmRt c).serving = (s.helmRt c).serving.erase x.toNat ∧ SameFields s t [(.HELM_CORE_STAT_LEVEL, [c])]) ∧
  (∀ (w : Writer) (c : Fin 8) (x : BitVec 9) (s : State), (s.helmRt c).serving.contains x.toNat = false →
    ∃ t, exec (.helmIcComplete w c x) s = .next t ∧ t.helm = s.helm ∧ SameFields s t []) ∧
  (∀ (c : Fin 8) (acts : List HelmAct) (pc : BitVec 64) (prv : BitVec 2) (mie h : Bool) (n : Nat) (r : List Nat) (s : State),
    (s.helmRt c).nmi = n :: r → s.coreState c = 2 ∨ s.coreState c = 3 → (s.helmRt c).inNmi = false →
    ∃ t, exec (.helmNmi c acts pc prv mie h) s = .next t ∧ (t.helmRt c).nmi = r ∧ (t.helmRt c).inNmi = true ∧
      (t.helmRt c).pc = s.bootVec + 0x100 ∧ (t.helmRt c).mode = 3 ∧ (t.helmRt c).mie = false ∧ (t.helmRt c).mpie = mie ∧
      (t.helmRt c).mpp = prv.toNat ∧ smGet (t.helmRt c).csr [0x341] none = some pc.toNat ∧
      smGet (t.helmRt c).csr [0x342] none = some (0x8000000000000000 + n) ∧ SameFields (s.helmActs c acts) t []) ∧
  (∀ (w : Writer) (c : Fin 8) (s : State), s.mute w = false → s.blockWriter w c = true →
    ∃ t, exec (.wdtKick w c 0x4B1D) s = .next t ∧ t.rd .HELM_WDT_CTL_STAGE [c] = 0 ∧
      (t.helmRt c).wdLeft = s.rd .HELM_WDT_LOAD_US [c] * 1000 ∧ SameFields s t [(.HELM_WDT_CTL_STAGE, [c])]) ∧
  (∀ (w : Writer) (c : Fin 8) (k : BitVec 16) (s : State), k ≠ 0x4B1D →
    ∃ t, exec (.wdtKick w c k) s = .next t ∧ (t.helmRt c).wdLeft = (s.helmRt c).wdLeft ∧ SameFields s t []) ∧
  (∀ (w : Writer) (c : Fin 8) (s : State), s.mute w = false → s.blockWriter w c = true →
    ∃ t, exec (.wdtUnlock w c 0x5A3C) s = .next t ∧ (t.helmRt c).unlock = some (s.now + 100000) ∧ SameFields s t []) ∧
  (∀ (c : Fin 8) (u : Nat) (s : State), (s.helmRt c).wdT = some u → s.on .HELM_WDT_CTL_STAGE [c] = false →
    ∃ t, exec (.wdtExpiry c) s = .next t ∧ t.rd .HELM_WDT_CTL_STAGE [c] = 1 ∧ (t.helmRt c).nmi = (s.helmRt c).nmi ++ [33] ∧
      (t.helmRt c).wdLeft = s.rd .HELM_WDT_LOAD_US [c] * 1000 ∧ t.now = max s.now (u + (s.helmRt c).wdLeft) ∧
      SameFields s t [(.HELM_WDT_CTL_STAGE, [c])]) ∧
  (∀ (c : Fin 8) (u : Nat) (s : State), (s.helmRt c).wdT = some u → s.on .HELM_WDT_CTL_STAGE [c] = true →
    ∃ t, exec (.wdtExpiry c) s = .next t ∧ t.coreState c = 0 ∧ t.helmRt c = {} ∧ t.rd .HELM_CORE_STAT_WDT_RESET [c] = 1)

/-- Monitor entry and exit, hard halts, register access while halted, patch units and the mailbox of a helm core
follow their commands. A monitor request waits for the boundary. At it, below L 12, the core saves pc, privilege and
MIE, runs at dvec with L 12 and STATE 3. EXIT restores them and STATE 2, while an interrupt claimed in the monitor is
in service it changes no field. A hard halt gives STATE 4 and cause 6 and drops the reservation, a hard release gives
STATE 2, or 3 in the monitor. A debug read of a register that is there gives its value in DATA, a write of the pc or
of x1 to x63 sets it, of a register not there or on a core not halted either sets ERR and changes no register. A patch
write sets its unit's word or address, and the L1 lines of the word go. GO sets BUSY and queues the request, one out
of its limits ends with INVALID, GO while BUSY changes no field. The end gives STATUS and BYTES and clears BUSY.
Clauses that stand in R463, R464, R471, R472, R473, R474, R475, R480, R481, R482. (spec/16_helm_cores_and_debug.md) -/
def Obligations.HelmHaltsAndDebugAccessFollowTheMonitor : Prop :=
  (∀ (p : Fin 2) (c : Fin 8) (s : State), s.blockWriter (.pelorus p) c = true → 2 ≤ s.coreState c → (s.helmRt c).monReq = 0 →
    ∃ t, exec (.dbgMonitorHalt (.pelorus p) c) s = .next t ∧ (t.helmRt c).monReq = 1 ∧ SameFields s t []) ∧
  (∀ (w : Writer) (c : Fin 8) (s : State), s.coreState c < 2 →
    ∃ t, exec (.dbgMonitorHalt w c) s = .next t ∧ (t.helmRt c).monReq = (s.helmRt c).monReq ∧ SameFields s t []) ∧
  (∀ (c : Fin 8) (acts : List HelmAct) (pc : BitVec 64) (prv : BitVec 2) (mie e : Bool) (s : State), s.coreState c = 2 → (s.helmRt c).monReq = 1 →
    s.level c < 12 →
    ∃ t, exec (.monitorEntry c acts pc prv mie e) s = .next t ∧ t.coreState c = 3 ∧ t.level c = 12 ∧
      t.rd .HELM_DBG_STAT_IN_MON [c] = 1 ∧ t.rd .HELM_DBG_STAT_CAUSE [c] = 1 ∧ (t.helmRt c).dpc = pc.toNat ∧
      (t.helmRt c).prv = prv.toNat ∧ (t.helmRt c).pmie = mie ∧ (t.helmRt c).pc = (s.helmRt c).dvec ∧ (t.helmRt c).mode = 3 ∧
      (t.helmRt c).levels = (s.helmActs c acts).level c :: ((s.helmActs c acts).helmRt c).levels ∧ (t.helmRt c).monReq = 0 ∧
      (t.helmRt c).resv = none) ∧
  (∀ (c : Fin 8) (acts : List HelmAct) (pc : BitVec 64) (prv : BitVec 2) (mie e : Bool) (s : State), 12 ≤ s.level c →
    ∃ t, exec (.monitorEntry c acts pc prv mie e) s = .next t ∧ t = s) ∧
  (∀ (c : Fin 8) (l : Nat) (r : List Nat) (s : State), s.coreState c = 3 → s.level c = 12 →
    (s.helmRt c).levels = l :: r → l < 12 →
    ∃ t, exec (.monitorExit c false) s = .next t ∧ t.coreState c = 2 ∧ t.level c = l ∧ t.rd .HELM_DBG_STAT_IN_MON [c] = 0 ∧
      (t.helmRt c).pc = (s.helmRt c).dpc ∧ (t.helmRt c).mode = (s.helmRt c).prv ∧ (t.helmRt c).mie = (s.helmRt c).pmie ∧
      (t.helmRt c).levels = r) ∧
  (∀ (c : Fin 8) (b : Bool) (s : State), s.coreState c = 3 → s.level c ≠ 12 →
    ∃ t, exec (.monitorExit c b) s = .next t ∧ t.helm = s.helm ∧ SameFields s t []) ∧
  (∀ (p : Fin 2) (c : Fin 8) (acts : List HelmAct) (pc : BitVec 64) (prv : BitVec 2) (mie : Bool) (s : State), s.blockWriter (.pelorus p) c = true →
    s.coreState c = 2 ∨ s.coreState c = 3 →
    ∃ t, exec (.dbgHardHalt (.pelorus p) c acts pc prv mie) s = .next t ∧ t.coreState c = 4 ∧ t.rd .HELM_DBG_STAT_CAUSE [c] = 6 ∧
      (t.helmRt c).resv = none ∧ (t.helmRt c).pc = pc.toNat ∧ (t.helmRt c).mode = prv.toNat) ∧
  (∀ (p : Fin 2) (c : Fin 8) (s : State), s.blockWriter (.pelorus p) c = true → s.coreState c = 4 →
    ∃ t, exec (.dbgHardRelease (.pelorus p) c) s = .next t ∧
      t.coreState c = (if s.on .HELM_DBG_STAT_IN_MON [c] then 3 else 2) ∧ (t.helmRt c).pc = (s.helmRt c).pc ∧
      SameFields s t [(.HELM_CORE_STAT_STATE, [c])]) ∧
  (∀ (w : Writer) (c : Fin 8) (s : State), s.coreState c < 2 →
    ∃ t, exec (.dbgHardRelease w c) s = .next t ∧ SameFields s t []) ∧
  (∀ (p : Fin 2) (c : Fin 8) (r : BitVec 14) (s : State), s.blockWriter (.pelorus p) c = true → s.coreState c = 4 →
    dbgThere r.toNat = true →
    ∃ t, exec (.dbgRegRead (.pelorus p) c r) s = .next t ∧
      t.rd .HELM_DBG_ACC_LO_DATA [c] = (s.dbgRead c r.toNat).1 % 2 ^ 32 ∧
      t.rd .HELM_DBG_ACC_HI_DATA [c] = (s.dbgRead c r.toNat).1 / 2 ^ 32 % 2 ^ 32 ∧
      t.rd .HELM_DBG_ACC_ERR [c] = s.rd .HELM_DBG_ACC_ERR [c]) ∧
  (∀ (c : Fin 8) (r v : Nat) (s : State), s.dbgRead c 0x2000 = ((s.helmRt c).pc, s) ∧ s.dbgRead c 0x1000 = (0, s) ∧
    s.dbgRead c 0x7C9 = ((s.helmRt c).dpc, s) ∧ s.dbgRead c 0x7CA = ((s.helmRt c).dvec, s) ∧
    (csrThere r = true → [0x7C8, 0x7C9, 0x7CA, 0xC01, 0x300].contains r = false → smGet (s.helmRt c).csr [r] none = some v →
      s.dbgRead c r = (v, s)) ∧
    (0x1001 ≤ r → r < 0x1040 → smGet (s.helmRt c).csr [r] none = some v → s.dbgRead c r = (v, s))) ∧
  (∀ (p : Fin 2) (c : Fin 8) (r : BitVec 14) (s : State), s.blockWriter (.pelorus p) c = true →
    s.coreState c ≠ 4 ∨ dbgThere r.toNat = false →
    ∃ t, exec (.dbgRegRead (.pelorus p) c r) s = .next t ∧ t.rd .HELM_DBG_ACC_ERR [c] = 1 ∧
      t.rd .HELM_DBG_ACC_LO_DATA [c] = s.rd .HELM_DBG_ACC_LO_DATA [c]) ∧
  (∀ (p : Fin 2) (c : Fin 8) (r : BitVec 14) (s : State), s.blockWriter (.pelorus p) c = true →
    s.coreState c ≠ 4 ∨ dbgThere r.toNat = false →
    ∃ t, exec (.dbgRegWrite (.pelorus p) c r) s = .next t ∧ t.rd .HELM_DBG_ACC_ERR [c] = 1 ∧
      (t.helmRt c).pc = (s.helmRt c).pc ∧ (t.helmRt c).csr = (s.helmRt c).csr) ∧
  (∀ (p : Fin 2) (c : Fin 8) (r : BitVec 14) (s : State), s.blockWriter (.pelorus p) c = true → s.coreState c = 4 →
    0x1001 ≤ r.toNat → r.toNat < 0x1040 →
    ∃ t, exec (.dbgRegWrite (.pelorus p) c r) s = .next t ∧ smGet (t.helmRt c).csr [r.toNat] none =
      some (s.rd .HELM_DBG_ACC_LO_DATA [c] + s.rd .HELM_DBG_ACC_HI_DATA [c] * 2 ^ 32)) ∧
  (∀ (p : Fin 2) (c : Fin 8) (s : State), s.blockWriter (.pelorus p) c = true → s.coreState c = 4 →
    ∃ t, exec (.dbgRegWrite (.pelorus p) c 0x2000) s = .next t ∧
      (t.helmRt c).pc = s.rd .HELM_DBG_ACC_LO_DATA [c] + s.rd .HELM_DBG_ACC_HI_DATA [c] * 2 ^ 32) ∧
  (∀ (w : Writer) (c : Fin 8) (u : Fin 16) (v : BitVec 32) (s : State), s.mute w = false →
    ∃ t, exec (.patchWrite w c u true v) s = .next t ∧ t.rd .HELM_PATCH_DATA_WORD [c, u] = v.toNat ∧
      (∀ k : Fin 2, t.l1 c k ((0x01C000000000 + 4 * s.rd .HELM_PATCH_ADDR_OFF [c, u]) / 64) = none) ∧
      SameFields s t [(.HELM_PATCH_DATA_WORD, [c, u])]) ∧
  (∀ (w : Writer) (c : Fin 8) (u : Fin 16) (v : BitVec 32) (s : State), s.mute w = false →
    ∃ t, exec (.patchWrite w c u false v) s = .next t ∧ t.rd .HELM_PATCH_ADDR_EN [c, u] = v.toNat % 2 ∧
      t.rd .HELM_PATCH_ADDR_OFF [c, u] = v.toNat / 4 % 2 ^ Fld.HELM_PATCH_ADDR_OFF.spec.width ∧
      SameFields s t [(.HELM_PATCH_ADDR_EN, [c, u]), (.HELM_PATCH_ADDR_OFF, [c, u])]) ∧
  (∀ (w : Writer) (c : Fin 8) (s : State), s.on .HELM_MBX_CTL_BUSY [c] = true →
    ∃ t, exec (.helmMailboxGo w c) s = .next t ∧ t.mail = s.mail ∧ SameFields s t []) ∧
  (∀ (w : Writer) (c : Fin 8) (s : State), s.mute w = false → s.blockWriter w c = true → s.on .HELM_MBX_CTL_BUSY [c] = false →
    s.rd .HELM_MBX_LEN_LIMIT [c] = 0 ∨ 4096 < s.rd .HELM_MBX_LEN_LIMIT [c] ∨ 4096 < s.rd .HELM_MBX_LEN_REQ [c] →
    ∃ t, exec (.helmMailboxGo w c) s = .next t ∧ (t.helmRt c).mbx = some (6, 0) ∧ t.rd .HELM_MBX_CTL_BUSY [c] = 1 ∧
      t.mail = s.mail) ∧
  (∀ (w : Writer) (c : Fin 8) (a b n l : Nat) (bs : List Byte) (s : State), s.mute w = false →
    s.blockWriter w c = true → s.on .HELM_MBX_CTL_BUSY [c] = false → s.rd .HELM_MBX_LEN_REQ [c] = n →
    s.rd .HELM_MBX_LEN_LIMIT [c] = l → a = s.rd .HELM_MBX_REQ_LO_ADDR [c] + s.rd .HELM_MBX_REQ_HI_ADDR [c] * 2 ^ 32 →
    b = s.rd .HELM_MBX_RSP_LO_ADDR [c] + s.rd .HELM_MBX_RSP_HI_ADDR [c] * 2 ^ 32 → 1 ≤ l → l ≤ 4096 → 1 ≤ n → n ≤ 4096 →
    (s.asked c).plainHbm a n = true → (s.asked c).plainHbm b l = true → ((s.asked c).gBytes helmMst a n).1 = 0 →
    ((s.asked c).gBytes helmMst a n).2.1 = bs → mailBounce bs = 0 →
    ∃ t, exec (.helmMailboxGo w c) s = .next t ∧
      t.mail.getLast?.map (fun m => (m.src, m.req, m.limit, m.dst)) = some (8 + c.val, bs, l, b)) ∧
  (∀ (c : Fin 8) (st n : Nat) (s : State), (s.helmRt c).mbx = some (st, n) →
    ∃ t, exec (.helmMailboxDone c) s = .next t ∧ t.rd .HELM_MBX_CTL_BUSY [c] = 0 ∧ (t.helmRt c).mbx = none ∧
      t.rd .HELM_MBX_CTL_STATUS [c] = st % 2 ^ Fld.HELM_MBX_CTL_STATUS.spec.width ∧
      t.rd .HELM_MBX_CTL_BYTES [c] = n % 2 ^ Fld.HELM_MBX_CTL_BYTES.spec.width)

/-- A die enters and leaves its power states by command, and a governor grants its head request when it fits,
withdraws it in time and takes units back. An entry refused by R388 sets REFUSED and changes no other field. An
accepted one sets BUSY, and its end gives PSTATE 1, 2 or 3 with DOMAINS 31, 1 or 0. RETURN of a die in P1 or P2 asks
for 10 units. Of a die powered down it is refused without its rail, with its rail it puts the die in line, but for one
whose fuses, read now, are bad: that one reads STATE 0 and START_ERR 4. While BUSY it is refused. The end of a return
gives PSTATE 0 and DOMAINS 31. A PCIe port from stage 4 on asks for 4 units. A head request that fits is granted at
its time: HELD rises by its units, GRANT_CNT counts. One that does not fit waits. A request past its timeout leaves
the queue, counts in TO_CNT and sets ERR. Units of an engine's permit return when its run is over, units of a step 20
us after their grant. Clauses that stand in R387, R388, R390, R391, R392, R393, R394, R395, R396, R409.
(spec/13_clocks_power_and_permits.md, spec/14_bring_up_resets_and_states.md) -/
def Obligations.PowerStatesAndPermitsFollowTheGovernors : Prop :=
  (∀ (w : Writer) (n : Fin 8) (s : State), s.reaches w .PWR_DIE_CTL [n] = true → s.sleepBad n = true →
    ∃ t, exec (.pwrEnterP1 w n) s = .next t ∧ t.rd .PWR_DIE_STAT_REFUSED [n] = 1 ∧ t.dieRt = s.dieRt ∧
      SameFields s t [(.PWR_DIE_STAT_REFUSED, [n])]) ∧
  (∀ (w : Writer) (n : Fin 8) (s : State), s.reaches w .PWR_DIE_CTL [n] = true → s.sleepBad n = false →
    ∃ t, exec (.pwrEnterP1 w n) s = .next t ∧ t.rd .PWR_DIE_STAT_BUSY [n] = 1 ∧ (t.dieAt n).pwr = 2 ∧
      t.rd .PWR_DIE_STAT_PSTATE [n] = s.rd .PWR_DIE_STAT_PSTATE [n]) ∧
  (∀ (w : Writer) (n : Fin 8) (s : State), s.reaches w .PWR_DIE_CTL [n] = true → s.sleepBad n = false →
    ∃ t, exec (.pwrEnterP2 w n) s = .next t ∧ t.rd .PWR_DIE_STAT_BUSY [n] = 1 ∧ (t.dieAt n).pwr = 3) ∧
  (∀ (w : Writer) (n : Fin 8) (s : State), s.reaches w .PWR_DIE_CTL [n] = true → s.sleepBad n = false →
    ∃ t, exec (.pwrEnterP3 w n) s = .next t ∧ t.rd .PWR_DIE_STAT_BUSY [n] = 1 ∧ (t.dieAt n).pwr = 4) ∧
  (∀ (n : Fin 8) (s : State), (s.dieAt n).pwr = 2 →
    ∃ t, exec (.pwrTransitionDone n) s = .next t ∧ t.rd .PWR_DIE_STAT_PSTATE [n] = 1 ∧ t.rd .PWR_DIE_STAT_DOMAINS [n] = 31 ∧
      t.rd .PWR_DIE_STAT_BUSY [n] = 0 ∧ (t.dieAt n).pwr = 0 ∧ SameFields s t
        [(.PWR_DIE_STAT_PSTATE, [n]), (.PWR_DIE_STAT_DOMAINS, [n]), (.PWR_DIE_STAT_BUSY, [n])]) ∧
  (∀ (n : Fin 8) (s : State), (s.dieAt n).pwr = 3 →
    ∃ t, exec (.pwrTransitionDone n) s = .next t ∧ t.rd .PWR_DIE_STAT_PSTATE [n] = 2 ∧ t.rd .PWR_DIE_STAT_DOMAINS [n] = 1 ∧
      t.rd .PWR_DIE_STAT_BUSY [n] = 0 ∧ (t.dieAt n).pwr = 0) ∧
  (∀ (n : Fin 8) (s : State), (s.dieAt n).pwr = 4 →
    ∃ t, exec (.pwrTransitionDone n) s = .next t ∧ t.rd .PWR_DIE_STAT_PSTATE [n] = 3 ∧ t.rd .PWR_DIE_STAT_DOMAINS [n] = 0 ∧
      t.rd .PWR_DIE_STAT_BUSY [n] = 0 ∧ t.rd .HUB_DIE_STATE_STATE [n] = 1) ∧
  (∀ (n : Fin 8) (s : State), (s.dieAt n).pwr = 1 →
    ∃ t, exec (.pwrTransitionDone n) s = .next t ∧ t.rd .PWR_DIE_STAT_PSTATE [n] = 0 ∧ t.rd .PWR_DIE_STAT_DOMAINS [n] = 31 ∧
      t.rd .PWR_DIE_STAT_BUSY [n] = 0 ∧ (t.dieAt n).pwr = 0) ∧
  (∀ (w : Writer) (n : Fin 8) (a : Bool) (b : Fin 8 × BitVec 2) (s : State), s.reaches w .PWR_DIE_CTL [n] = true → s.up n = true →
    s.rd .PWR_DIE_STAT_PSTATE [n] = 1 ∨ s.rd .PWR_DIE_STAT_PSTATE [n] = 2 → s.on .PWR_DIE_STAT_BUSY [n] = false →
    (s.dieAt n).rel = 0 → (s.dieAt n).resume = false → 10 ≤ s.rd .PG_CFG_BUDGET [n] → (s.gov n).expired = [] →
    ∃ t, exec (.pwrReturnP0 w n a b) s = .next t ∧ (t.dieAt n).resume = true ∧ SameFields s t [] ∧
      (t.gov n).queue.length = (s.gov n).queue.length + 1 ∧ ((t.gov n).queue.getLast?.map (·.units)) = some 10 ∧
      t.waits n 16 [n] = true) ∧
  (∀ (w : Writer) (n : Fin 8) (b : Fin 8 × BitVec 2) (s : State), s.reaches w .PWR_DIE_CTL [n] = true →
    s.rd .HUB_DIE_STATE_STATE [n] = 1 → s.on .PWR_DIE_STAT_BUSY [n] = false → (s.dieAt n).rel = 0 →
    (s.dieAt n).resume = false → s.on .HUB_DIE_STATE_PRESENT [n] = true →
    ∃ t, exec (.pwrReturnP0 w n true b) s = .next t ∧ (t.dieAt n).rel = 1 ∧ t.relq = s.relq ++ [n.val] ∧
      t.rd .PWR_DIE_STAT_BUSY [n] = 1 ∧ t.rd .RST_DIE_STAT_START_ERR [n] = 0) ∧
  (∀ (w : Writer) (n : Fin 8) (b : Fin 8 × BitVec 2) (s : State), s.reaches w .PWR_DIE_CTL [n] = true →
    s.rd .HUB_DIE_STATE_STATE [n] = 1 → s.on .PWR_DIE_STAT_BUSY [n] = false → (s.dieAt n).rel = 0 →
    (s.dieAt n).resume = false → s.on .HUB_DIE_STATE_PRESENT [n] = false → fusesGood n b = true →
    ∃ t, exec (.pwrReturnP0 w n true b) s = .next t ∧ (t.dieAt n).rel = 1 ∧ t.relq = s.relq ++ [n.val] ∧
      t.rd .HUB_DIE_STATE_PRESENT [n] = 1 ∧ t.rd .HUB_DIE_STATE_POS [n] = b.1.val ∧ t.rd .HUB_DIE_STATE_KIND [n] = b.2.toNat) ∧
  (∀ (w : Writer) (n : Fin 8) (b : Fin 8 × BitVec 2) (s : State), s.reaches w .PWR_DIE_CTL [n] = true →
    s.rd .HUB_DIE_STATE_STATE [n] = 1 → s.on .PWR_DIE_STAT_BUSY [n] = false → (s.dieAt n).rel = 0 →
    (s.dieAt n).resume = false → s.on .HUB_DIE_STATE_PRESENT [n] = false → fusesGood n b = false →
    ∃ t, exec (.pwrReturnP0 w n true b) s = .next t ∧ t.relq = s.relq ∧ t.rd .HUB_DIE_STATE_STATE [n] = 0 ∧
      t.rd .RST_DIE_STAT_START_ERR [n] = 4) ∧
  (∀ (w : Writer) (n : Fin 8) (b : Fin 8 × BitVec 2) (s : State), s.reaches w .PWR_DIE_CTL [n] = true →
    s.rd .HUB_DIE_STATE_STATE [n] = 1 → s.on .PWR_DIE_STAT_BUSY [n] = false → (s.dieAt n).rel = 0 →
    (s.dieAt n).resume = false →
    ∃ t, exec (.pwrReturnP0 w n false b) s = .next t ∧ t.rd .PWR_DIE_STAT_REFUSED [n] = 1 ∧ t.dieRt = s.dieRt ∧
      t.relq = s.relq ∧ SameFields s t [(.PWR_DIE_STAT_REFUSED, [n])]) ∧
  (∀ (w : Writer) (n : Fin 8) (a : Bool) (b : Fin 8 × BitVec 2) (s : State), s.reaches w .PWR_DIE_CTL [n] = true →
    s.on .PWR_DIE_STAT_BUSY [n] = true →
    ∃ t, exec (.pwrReturnP0 w n a b) s = .next t ∧ t.rd .PWR_DIE_STAT_REFUSED [n] = 1 ∧
      SameFields s t [(.PWR_DIE_STAT_REFUSED, [n])]) ∧
  (∀ (p : Fin 2) (s : State), 4 ≤ s.rd .BOOT_STAT_STAGE [] → smGet s.pcie [p.val] 0 = 0 → s.waits 8 17 [p] = false →
    4 ≤ s.rd .PG_CFG_BUDGET [8] → (List.range 13).all (fun k => (s.gov k).expired.isEmpty) = true →
    ∃ t, exec (.permitRequest p) s = .next t ∧ t.waits 8 17 [p] = true ∧
      ((t.gov 8).queue.getLast?.map (·.units)) = some 4 ∧ SameFields s t []) ∧
  (∀ (p : Fin 2) (s : State), s.rd .BOOT_STAT_STAGE [] < 4 → ∃ t, exec (.permitRequest p) s = .next t ∧ t = s) ∧
  (∀ (g : Fin 13) (p : Permit) (r : List Permit) (s : State), (s.gov g).queue = p :: r → s.headFits g = true →
    p.chain = [] → p.op ≠ 16 → p.op ≠ 17 → (s.gov g).ready = [] →
    ∃ t, exec (.permitGrant g) s = .next t ∧ t.heldUnits g = s.heldUnits g + p.units ∧ (t.gov g).queue = r ∧
      t.rd .PG_GRANT_CNT_COUNT [g] = min (s.rd .PG_GRANT_CNT_COUNT [g] + 1) 0xFFFFFFFF ∧
      (t.gov g).ready.any (·.is p.op p.who) = true ∧ t.now = max s.now (s.grantTime g) ∧
      SameFields s t [(.PG_GRANT_CNT_COUNT, [g])]) ∧
  (∀ (g : Fin 13) (s : State), s.headFits g = false → (s.gov g).ready = [] →
    ∃ t, exec (.permitGrant g) s = .next t ∧ t = s) ∧
  (∀ (g : Fin 13) (e : Fin 96) (p : Permit) (s : State), (s.gov g).held = [p] → p.op = 1 → p.who = [e.val] →
    ∃ t, exec (.permitReturn g 1) s = .next t ∧ SameFields s t [] ∧
      (t.gov g).held = (if [0, 6, 7, 8].contains (s.estate e) then [] else [p])) ∧
  (∀ (g : Fin 13) (p : Permit) (s : State), (s.gov g).held = [p] → isStepOp p.op = true →
    ∃ t, exec (.stepPermitReturn g) s = .next t ∧ (t.gov g).held = [] ∧ t.now = max s.now (p.t + 20000) ∧ SameFields s t []) ∧
  (∀ (g : Fin 13) (p : Permit) (s : State), (s.gov g).queue = [p] → p.due ≠ 0 → [1, 2, 5, 6].contains p.op = true →
    (List.range 13).all (fun k => (s.gov k).expired.isEmpty) = true → s.rd .PG_ERR_VALID [g] = 0 →
    ∃ t, exec (.permitTimeout g) s = .next t ∧ (t.gov g).queue = [] ∧ (t.gov g).expired = [p] ∧ t.now = max s.now p.due ∧
      t.rd .PG_TO_CNT_COUNT [g] = min (s.rd .PG_TO_CNT_COUNT [g] + 1) 0xFFFFFFFF ∧ t.rd .PG_ERR_VALID [g] = 1 ∧
      t.rd .PG_ERR_OP [g] = p.op ∧ t.rd .PG_ERR_OVERSIZE [g] = 0)

/-- A planned reset, a loss, a lost clock and a restart bring a die to its state, its cause and its place in the line
of releases. A planned reset of a die not in service or busy is refused with REFUSED, during a release it waits in
line, else the die reads STATE 4 and CAUSE 2, RESETS counts, its engines and sectors read STATE 0, and it waits for
its release, or is HELD. START of a held or lost die with its rail puts it in line, of a die in service is refused. A
loss in STATE 2 or 3 gives STATE 5, LOST 1 and CAUSE 4 plus its reason. A lost clock gives STATE 4, CAUSE 3 and LOST
1, its return resets and releases the die or holds it. The automatic restart comes 1 s after the loss, and not while
HOLD is set. Clauses that stand in R24, R214, R407, R418, R419, R421, R422, R423, R526, R527.
(spec/01_package_and_planes.md, spec/07_galkor_ring_and_remote_caching.md, spec/14_bring_up_resets_and_states.md,
spec/18_pins_electrical_package.md) -/
def Obligations.DiesLeaveAndReturnUnderTheirRules : Prop :=
  (∀ (w : Writer) (n : Fin 8) (s : State), s.reaches w .RST_DIE_CTL [n] = true →
    s.dpUp n = false ∨ s.on .PWR_DIE_STAT_BUSY [n] = true →
    ∃ t, exec (.plannedDieReset w n) s = .next t ∧ t.rd .RST_DIE_STAT_REFUSED [n] = 1 ∧
      SameFields s t [(.RST_DIE_STAT_REFUSED, [n])]) ∧
  (∀ (w : Writer) (n : Fin 8) (s : State), s.reaches w .RST_DIE_CTL [n] = true → s.dpUp n = true →
    s.on .PWR_DIE_STAT_BUSY [n] = false → s.releasing = true →
    ∃ t, exec (.plannedDieReset w n) s = .next t ∧ t.rstq = s.rstq ++ [n.val] ∧ SameFields s t []) ∧
  (∀ (w : Writer) (n : Fin 8) (s : State), s.reaches w .RST_DIE_CTL [n] = true → s.dpUp n = true →
    s.on .PWR_DIE_STAT_BUSY [n] = false → s.releasing = false →
    ∃ t, exec (.plannedDieReset w n) s = .next t ∧ t.rd .HUB_DIE_STATE_STATE [n] = 4 ∧ t.rd .RST_DIE_STAT_CAUSE [n] = 2 ∧
      t.rd .RST_DIE_STAT_RESETS [n] = (s.rd .RST_DIE_STAT_RESETS [n] + 1) % 2 ^ Fld.RST_DIE_STAT_RESETS.spec.width ∧
      (∀ k : Fin 12, t.estate (12 * n.val + k.val) = 0) ∧ (∀ k : Fin 40, t.rd .SEC_STATUS_STATE [n, k] = 0) ∧
      (if s.on .RST_DIE_CTL_HOLD [n] then t.rd .RST_DIE_STAT_HELD [n] = 1 else (t.dieAt n).rel = 1 ∧ t.relq = [n.val])) ∧
  (∀ (w : Writer) (n : Fin 8) (s : State), s.reaches w .RST_DIE_CTL [n] = true → s.rd .HUB_DIE_STATE_STATE [n] = 5 →
    s.on .RST_DIE_STAT_HELD [n] = false → (s.dieAt n).rel = 0 → s.tooHot n = false →
    ∃ t, exec (.dieStart w n true) s = .next t ∧ (t.dieAt n).rel = 1 ∧ t.relq = s.relq ++ [n.val] ∧
      t.rd .RST_DIE_STAT_RESETS [n] = (s.rd .RST_DIE_STAT_RESETS [n] + 1) % 2 ^ Fld.RST_DIE_STAT_RESETS.spec.width) ∧
  (∀ (w : Writer) (n : Fin 8) (s : State), s.reaches w .RST_DIE_CTL [n] = true → s.on .RST_DIE_STAT_HELD [n] = true →
    (s.dieAt n).rel = 0 → s.tooHot n = false →
    ∃ t, exec (.dieStart w n true) s = .next t ∧ (t.dieAt n).rel = 1 ∧ t.relq = s.relq ++ [n.val] ∧
      t.rd .RST_DIE_STAT_HELD [n] = 0 ∧ t.rd .RST_DIE_STAT_RESETS [n] = s.rd .RST_DIE_STAT_RESETS [n]) ∧
  (∀ (w : Writer) (n : Fin 8) (b : Bool) (s : State), s.reaches w .RST_DIE_CTL [n] = true → s.up n = true →
    s.on .RST_DIE_STAT_HELD [n] = false →
    ∃ t, exec (.dieStart w n b) s = .next t ∧ t.rd .RST_DIE_STAT_REFUSED [n] = 1 ∧
      SameFields s t [(.RST_DIE_STAT_REFUSED, [n])]) ∧
  (∀ (n : Fin 8) (c : Fin 4) (b : Bool) (s : State), s.rd .HUB_DIE_STATE_STATE [n] = 2 ∨ s.rd .HUB_DIE_STATE_STATE [n] = 3 →
    ∃ t, exec (.dieLost n c b) s = .next t ∧ t.rd .HUB_DIE_STATE_STATE [n] = 5 ∧ t.rd .HUB_DIE_STATE_LOST [n] = 1 ∧
      t.rd .RST_DIE_STAT_CAUSE [n] = 4 + c.val ∧ (t.dieAt n).rel = 0) ∧
  (∀ (n : Fin 8) (c : Fin 4) (b : Bool) (s : State), s.rd .HUB_DIE_STATE_STATE [n] ≠ 2 → s.rd .HUB_DIE_STATE_STATE [n] ≠ 3 →
    ∃ t, exec (.dieLost n c b) s = .next t ∧ t = s) ∧
  (∀ (n : Fin 8) (b : Bool) (s : State), s.up n = true →
    ∃ t, exec (.dieClockLost n b) s = .next t ∧ t.rd .HUB_DIE_STATE_STATE [n] = 4 ∧ t.rd .RST_DIE_STAT_CAUSE [n] = 3 ∧
      t.rd .HUB_DIE_STATE_LOST [n] = 1) ∧
  (∀ (n : Fin 8) (s : State), s.rd .HUB_DIE_STATE_STATE [n] = 4 → s.rd .RST_DIE_STAT_CAUSE [n] = 3 → (s.dieAt n).rel = 0 →
    s.on .RST_DIE_STAT_HELD [n] = false →
    ∃ t, exec (.dieClockRestored n) s = .next t ∧
      t.rd .RST_DIE_STAT_RESETS [n] = (s.rd .RST_DIE_STAT_RESETS [n] + 1) % 2 ^ Fld.RST_DIE_STAT_RESETS.spec.width ∧
      (if s.on .RST_DIE_CTL_HOLD [n] then t.rd .RST_DIE_STAT_HELD [n] = 1 else (t.dieAt n).rel = 1 ∧ t.relq = s.relq ++ [n.val])) ∧
  (∀ (n : Fin 8) (s : State), s.rd .HUB_DIE_STATE_STATE [n] = 5 → s.on .HUB_DIE_STATE_LOST [n] = true →
    s.on .RST_DIE_CTL_AUTO_RESTART [n] = true → s.on .RST_DIE_CTL_HOLD [n] = false → (s.dieAt n).rel = 0 →
    s.tooHot n = false → s.on .RST_DIE_STAT_HELD [n] = false →
    ∃ t, exec (.dieAutoRestart n true) s = .next t ∧ (t.dieAt n).rel = 1 ∧ t.relq = s.relq ++ [n.val] ∧
      t.now = max s.now ((s.dieAt n).lostT + 1000000000) ∧ (t.dieAt n).restartT = some t.now) ∧
  (∀ (n : Fin 8) (b : Bool) (s : State), s.on .RST_DIE_CTL_HOLD [n] = true →
    ∃ t, exec (.dieAutoRestart n b) s = .next t ∧ t = s)

/-- Boot goes from stage to stage, dies are released one at a time through rail, self-test and service, and a failed
start is held. Stage 0 ends with TRNG_OK 1, stage 1 with the fitted and good dies present in STATE 1, stage 2 without
a valid directory in recovery (STAGE 15), stage 3 with the clocks running, stage 4 with the dies to release in line,
stage 5 once no release runs. While held in reset nothing happens. A die without its rail in stage 1 reads START_ERR
5. The first die in line enters STATE 2 with its rail, else STATE 1 and PSTATE 3. Its self-test leads to its release,
after which it reads STATE 3 with its cache enabled. A failed start reads STATE 5, or 0 for bad fuses. An autoload
suppressed at boot reads CFG 4, a refused one 3. Clauses that stand in R28, R401, R402, R403, R405, R406, R407, R408,
R409, R413, R526. (spec/01_package_and_planes.md, spec/14_bring_up_resets_and_states.md,
spec/18_pins_electrical_package.md) -/
def Obligations.TheDeviceBootsStageByStageAndReleasesItsDies : Prop :=
  (∀ (a : BitVec 8) (b : List (Fin 8 × BitVec 2)) (x y z o : Bool) (bs : BearingSet) (s : State), s.hold = 0 →
    s.rd .BOOT_STAT_STAGE [] = 0 →
    ∃ t, exec (.bootStageComplete a b x y z o bs) s = .next t ∧ t.rd .BOOT_STAT_STAGE [] = 1 ∧ t.rd .LS_STAT_TRNG_OK [] = 1 ∧
      SameFields s t [(.BOOT_STAT_STAGE, []), (.LS_STAT_TRNG_OK, [])]) ∧
  (∀ (a : BitVec 8) (b : List (Fin 8 × BitVec 2)) (x y z o : Bool) (bs : BearingSet) (n : Fin 8) (s : State), s.hold = 0 →
    s.rd .BOOT_STAT_STAGE [] = 1 → a.toNat.testBit n = true → fusesGood n (b.getD n (0, 0)) = true →
    s.rd .RST_DIE_STAT_START_ERR [n] ≠ 5 →
    ∃ t, exec (.bootStageComplete a b x y z o bs) s = .next t ∧ t.rd .BOOT_STAT_STAGE [] = 2 ∧ t.stage2T = s.now ∧
      t.rd .HUB_DIE_STATE_PRESENT [n] = 1 ∧ t.rd .HUB_DIE_STATE_STATE [n] = 1 ∧
      t.rd .HUB_DIE_STATE_POS [n] = (b.getD n (0, 0)).1.val ∧ t.rd .HUB_DIE_STATE_KIND [n] = (b.getD n (0, 0)).2.toNat) ∧
  (∀ (a : BitVec 8) (b : List (Fin 8 × BitVec 2)) (x y z o : Bool) (bs : BearingSet) (n : Fin 8) (s : State), s.hold = 0 →
    s.rd .BOOT_STAT_STAGE [] = 1 → a.toNat.testBit n = true → fusesGood n (b.getD n (0, 0)) = false →
    s.rd .RST_DIE_STAT_START_ERR [n] ≠ 5 →
    ∃ t, exec (.bootStageComplete a b x y z o bs) s = .next t ∧ t.rd .BOOT_STAT_STAGE [] = 2 ∧
      t.rd .HUB_DIE_STATE_PRESENT [n] = 0 ∧ t.rd .RST_DIE_STAT_START_ERR [n] = 4) ∧
  (∀ (a : BitVec 8) (b : List (Fin 8 × BitVec 2)) (x y z o : Bool) (bs : BearingSet) (n : Fin 8) (s : State), s.hold = 0 →
    s.rd .BOOT_STAT_STAGE [] = 1 → a.toNat.testBit n = false → s.rd .RST_DIE_STAT_START_ERR [n] ≠ 5 →
    ∃ t, exec (.bootStageComplete a b x y z o bs) s = .next t ∧ t.rd .BOOT_STAT_STAGE [] = 2 ∧ t.rd .HUB_DIE_STATE_PRESENT [n] = 0) ∧
  (∀ (a : BitVec 8) (b : List (Fin 8 × BitVec 2)) (x y z o : Bool) (bs : BearingSet) (s : State), s.hold = 0 →
    s.rd .BOOT_STAT_STAGE [] = 2 → s.dirPick = none →
    ∃ t, exec (.bootStageComplete a b x y z o bs) s = .next t ∧ t.rd .BOOT_STAT_STAGE [] = 15 ∧ smGet t.pcie [0] 0 = 2 ∧
      t.flashMode = (if o then 2 else 1) ∧ t.now = max s.now (s.stage2T + 10000) ∧ SameFields s t [(.BOOT_STAT_STAGE, [])]) ∧
  (∀ (a : BitVec 8) (b : List (Fin 8 × BitVec 2)) (x y z o : Bool) (bs : BearingSet) (c : Nat) (s : State), s.hold = 0 →
    s.rd .BOOT_STAT_STAGE [] = 2 → s.warm = false → s.rd .BOOT_CFG_NEXT_SLOT [] = 0 → s.dirPick = some c →
    dirPREFER (s.dirCopy c) ≠ 1 → (dirFw (s.dirCopy c) 0).2 ≠ 0 →
    s.fwCheck (dirFw (s.dirCopy c) 0).1 (dirFw (s.dirCopy c) 0).2 x = 0 →
    ∃ t, exec (.bootStageComplete a b x y z o bs) s = .next t ∧ t.rd .BOOT_STAT_STAGE [] = 3 ∧ t.rd .BOOT_STAT_SLOT [] = 0 ∧
      t.rd .BOOT_STAT_FALLBACK [] = 0 ∧ t.rd .BOOT_STAT_DIR_COPY [] = c ∧ t.rd .LS_STAT_READY [] = 1 ∧
      t.rd .LS_SVN_SVN [0] = hSVN (leNat (memBytes s.flash (dirFw (s.dirCopy c) 0).1 256 0xFF)) ∧ t.pcie = s.pcie) ∧
  (∀ (a : BitVec 8) (b : List (Fin 8 × BitVec 2)) (x y z o : Bool) (bs : BearingSet) (k : Fin 8) (s : State), s.hold = 0 →
    s.rd .BOOT_STAT_STAGE [] = 3 → s.clocksUp = false →
    ∃ t, exec (.bootStageComplete a b x y z o bs) s = .next t ∧ t.rd .BOOT_STAT_STAGE [] = 4 ∧ t.clocksUp = true ∧ t.local_ = 0 ∧
      t.rd .PWR_HUB_STAT_DOMAINS [] = 0x3F ∧ (t.synthAt 8 k).freq = s.rd .SPN_SYN_FREQ [k] ∧
      t.rd .CLK_SRC_DEAD_RECK [] = (if z then s.rd .CLK_SRC_DEAD_RECK [] else 1)) ∧
  (∀ (a : BitVec 8) (b : List (Fin 8 × BitVec 2)) (x y z o : Bool) (bs : BearingSet) (n : Fin 8) (s : State), s.hold = 0 →
    s.rd .BOOT_STAT_STAGE [] = 4 → s.on .HUB_DIE_STATE_PRESENT [n] = true → s.rd .HUB_DIE_STATE_STATE [n] = 1 →
    s.rd .RST_DIE_STAT_CAUSE [n] = 0 →
    ∃ t, exec (.bootStageComplete a b x y z o bs) s = .next t ∧ t.rd .BOOT_STAT_STAGE [] = 5 ∧ t.relq.contains n.val = true ∧
      (t.dieAt n).rel = 1) ∧
  (∀ (a : BitVec 8) (b : List (Fin 8 × BitVec 2)) (x y z o : Bool) (bs : BearingSet) (s : State), s.hold = 0 →
    s.rd .BOOT_STAT_STAGE [] = 5 → s.stage5Over = true →
    ∃ t, exec (.bootStageComplete a b x y z o bs) s = .next t ∧ t.rd .BOOT_STAT_STAGE [] = 6 ∧ t.warm = false) ∧
  (∀ (a : BitVec 8) (b : List (Fin 8 × BitVec 2)) (x y z o : Bool) (bs : BearingSet) (s : State), s.hold ≠ 0 →
    ∃ t, exec (.bootStageComplete a b x y z o bs) s = .next t ∧ t = s) ∧
  (∀ (n : Fin 8) (s : State), s.hold = 0 → s.rd .BOOT_STAT_STAGE [] = 1 →
    ∃ t, exec (.dieRailAbsent n) s = .next t ∧ t.rd .HUB_DIE_STATE_PRESENT [n] = 0 ∧ t.rd .HUB_DIE_STATE_STATE [n] = 1 ∧
      t.rd .RST_DIE_STAT_START_ERR [n] = 5) ∧
  (∀ (n : Fin 8) (r : List Nat) (s : State), s.relq = n.val :: r →
    s.rd .BOOT_STAT_STAGE [] = 5 ∨ s.rd .BOOT_STAT_STAGE [] = 6 →
    (List.range 8).all (fun k => decide ((s.dieAt k).rel < 2)) = true →
    ∃ t, exec (.dieRelease n true) s = .next t ∧ t.relq = r ∧ (t.dieAt n).rel = 2 ∧ t.rd .HUB_DIE_STATE_STATE [n] = 2 ∧
      t.rd .PWR_DIE_STAT_PSTATE [n] = 0 ∧ t.rd .PWR_DIE_STAT_DOMAINS [n] = 31 ∧
      t.rd .RST_DIE_STAT_CAUSE [n] = (if s.rd .RST_DIE_STAT_CAUSE [n] = 0 then 1 else s.rd .RST_DIE_STAT_CAUSE [n])) ∧
  (∀ (n : Fin 8) (r : List Nat) (s : State), s.relq = n.val :: r →
    s.rd .BOOT_STAT_STAGE [] = 5 ∨ s.rd .BOOT_STAT_STAGE [] = 6 →
    (List.range 8).all (fun k => decide ((s.dieAt k).rel < 2)) = true → s.rstq = [] →
    ∃ t, exec (.dieRelease n false) s = .next t ∧ t.relq = r ∧ (t.dieAt n).rel = 0 ∧ t.rd .HUB_DIE_STATE_STATE [n] = 1 ∧
      t.rd .PWR_DIE_STAT_PSTATE [n] = 3) ∧
  (∀ (n : Fin 8) (s : State), (s.dieAt n).rel = 2 → s.spokeUp n = true → s.repairs = [] →
    ∃ t, exec (.selfTestDone n [] [] [] []) s = .next t ∧ (t.dieAt n).rel = 3 ∧ t.now = max s.now ((s.dieAt n).t0 + 28000000)) ∧
  (∀ (n : Fin 8) (s : State), s.spokeUp n = false →
    ∃ t, exec (.selfTestDone n [] [] [] []) s = .next t ∧ t = s) ∧
  (∀ (n : Fin 8) (bs : BearingSet) (s : State), (s.dieAt n).rel = 3 → s.rstq = [] →
    ∃ t, exec (.dieReleaseDone n bs) s = .next t ∧ (t.dieAt n).rel = 0 ∧ t.rd .HUB_DIE_STATE_STATE [n] = 3 ∧
      t.rd .PWR_DIE_STAT_BUSY [n] = 0 ∧ t.rd .RST_DIE_STAT_START_ERR [n] = 0 ∧ t.rd .RC_CTL_EN [n] = 1 ∧
      t.now = max s.now ((s.dieAt n).t0 + 31000000)) ∧
  (∀ (n : Fin 8) (c : Fin 4) (s : State), 2 ≤ (s.dieAt n).rel → s.rstq = [] →
    ∃ t, exec (.dieStartFail n c) s = .next t ∧ (t.dieAt n).rel = 0 ∧ t.rd .RST_DIE_STAT_START_ERR [n] = c.val + 1 ∧
      t.rd .HUB_DIE_STATE_STATE [n] = (if c = 3 then 0 else 5)) ∧
  (∀ (u r : Bool) (o l : Nat) (s : State), s.auto = some (o, l, r) → s.rd .BOOT_STAT_STAGE [] = 6 → s.cfgLoad.phase = 0 →
    s.noAuto = true →
    ∃ t, exec (.cfgAutoload u) s = .next t ∧ t.auto = none ∧ t.rd .BOOT_STAT_CFG [] = 4 ∧ t.cfgLoad = s.cfgLoad ∧
      SameFields s t [(.BOOT_STAT_CFG, [])]) ∧
  (∀ (u r : Bool) (o l : Nat) (s : State), s.auto = some (o, l, r) → s.rd .BOOT_STAT_STAGE [] = 6 → s.cfgLoad.phase = 0 →
    s.noAuto = false → 1 ≤ l → l < 256 →
    ∃ t, exec (.cfgAutoload u) s = .next t ∧ t.auto = none ∧ t.rd .BOOT_STAT_CFG [] = 3 ∧ t.rd .BOOT_STAT_CFG_STATUS [] = 1 ∧
      t.cfgLoad = {})

/-- Power-on, package and hub resets return what they cover and keep what they must, and rail faults and the life
counters act on their dies. A power-on reset returns every field that no fuse holds to its reset value, keeps flash,
journal and fuses, and holds the device. RESET_N low sets PIN and holds it. RST_CMD works only after an unlock and
sets SW_PKG or SW_HUB. The hold ends 10 ms after the rails are good. The unlock key opens for 100 us, another closes.
A hub warm reset restarts at stage 2 with no queue pair and no helm core running, a Binnacle fault repeated within 1 s
resets the package. A monitored rail resets all, a core rail loses its die with CAUSE 5, an I/O rail changes only its
bank. A sample is stored. The trip ends when every sensor is below 100. An hour counts in its bin. Clauses that stand
in R251, R415, R416, R417, R420, R504, R507, R525, R526, R527. (spec/08_hbm_controller.md,
spec/14_bring_up_resets_and_states.md, spec/17_fault_handling_and_service_life.md, spec/18_pins_electrical_package.md) -/
def Obligations.ResetsRailsAndTelemetryReachTheWholeDevice : Prop :=
  (∀ (s : State), ∃ t, exec .powerOnReset s = .next t ∧ t.hold = 1 ∧ t.clocksUp = false ∧ t.flash = s.flash ∧
    t.journal = s.journal ∧ t.lsFuse = s.lsFuse ∧ t.hbm = [] ∧ t.qps = [] ∧ t.eng = [] ∧
    (∀ f : Fld, ∀ i : List Nat, f.fused = false → f ≠ .MGMT_HEALTH_STAGE → t.rd f i = f.reset i)) ∧
  (∀ (s : State), ∃ t, exec (.packageReset .pin) s = .next t ∧ t.hold = 2 ∧ t.rd .RST_CAUSE_PIN [] = 1 ∧
    t.clocksUp = false ∧ t.flash = s.flash ∧ t.rd .BOOT_STAT_STAGE [] = 0 ∧ t.qps = [] ∧
    (∀ n : Fin 8, t.rd .HUB_DIE_STATE_STATE [n] = 0)) ∧
  (∀ (w : Writer) (s : State), s.mute w = false → s.rstWriter w = true → s.unlocked = true →
    ∃ t, exec (.packageReset (.command w)) s = .next t ∧ t.hold = 0 ∧ t.rd .RST_CAUSE_SW_PKG [] = 1 ∧
      t.rd .BOOT_STAT_STAGE [] = 0) ∧
  (∀ (w : Writer) (s : State), s.mute w = false → s.unlocked = false →
    ∃ t, exec (.packageReset (.command w)) s = .next t ∧ SameFields s t [] ∧ t.hold = s.hold ∧ t.qps = s.qps) ∧
  (∀ (r : Bool) (s : State), s.hold = 1 → ∃ t, exec (.resetRelease r false) s = .next t ∧ t.hold = 0 ∧
    t.now = s.now + 10000000 ∧ t.rd .CLK_SRC_REF_SEL [] = r.toNat ∧ t.out = .pin 31 1 :: (s.lapse 10000000).out ∧
    SameFields s t [(.CLK_SRC_REF_SEL, [])]) ∧
  (∀ (r : Bool) (s : State), s.hold = 1 → ∃ t, exec (.resetRelease r true) s = .next t ∧ t.hold = 1 ∧
    t.now = s.now + 10000000 ∧ SameFields s t []) ∧
  (∀ (r e : Bool) (s : State), s.hold = 2 → ∃ t, exec (.resetRelease r e) s = .next t ∧ t.hold = 0 ∧ t.now = s.now ∧
    t.out = .pin 31 1 :: s.out ∧ SameFields s t []) ∧
  (∀ (w : Writer) (s : State), s.mute w = false → s.rstWriter w = true →
    ∃ t, exec (.rstUnlock w 0xC3A5) s = .next t ∧ t.rstUnlock.map (·.1) = some (s.now + 100000) ∧ t.unlocked = true ∧
      SameFields s t []) ∧
  (∀ (w : Writer) (k : BitVec 16) (s : State), s.mute w = false → k ≠ 0xC3A5 →
    ∃ t, exec (.rstUnlock w k) s = .next t ∧ t.rstUnlock = none ∧ SameFields s t []) ∧
  (∀ (w : Writer) (s : State), s.mute w = false → s.rstWriter w = true → s.unlocked = true →
    ∃ t, exec (.hubWarmReset (.command w)) s = .next t ∧ t.rd .BOOT_STAT_STAGE [] = 2 ∧ t.rd .RST_CAUSE_SW_HUB [] = 1 ∧
      t.warm = true ∧ t.qps = [] ∧ t.helm = [] ∧ (∀ c : Fin 8, t.coreState c = 0) ∧ t.flash = s.flash) ∧
  (∀ (s : State), s.binAgain = true →
    ∃ t, exec (.hubWarmReset .watchdog) s = .next t ∧ t.rd .RST_CAUSE_BIN_FATAL [] = 1 ∧ t.rd .BOOT_STAT_STAGE [] = 0) ∧
  (∀ (s : State), s.binAgain = false →
    ∃ t, exec (.hubWarmReset .lockstep) s = .next t ∧ t.rd .RST_CAUSE_BIN_LOCKSTEP [] = 1 ∧ t.rd .BOOT_STAT_STAGE [] = 2) ∧
  (∀ (s : State), ∃ t, exec (.railFault .monitored) s = .next t ∧ t.hold = 1 ∧ t.rd .BOOT_STAT_STAGE [] = 0) ∧
  (∀ (n : Fin 8) (s : State), s.up n = true →
    ∃ t, exec (.railFault (.core n)) s = .next t ∧ t.rd .HUB_DIE_STATE_STATE [n] = 5 ∧ t.rd .HUB_DIE_STATE_LOST [n] = 1 ∧
      t.rd .RST_DIE_STAT_CAUSE [n] = 5) ∧
  (∀ (st : Fin 4) (s : State), (s.stk st).train ≠ 2 → s.on .HBM_STAT_CONTENT [st] = true →
    ∃ t, exec (.railFault (.hbm st)) s = .next t ∧ t.rd .HBM_CTL_EN [st] = 0 ∧ t.rd .HBM_STAT_CONTENT [st] = 0) ∧
  (∀ (n : Fin 8) (k : Fin 4) (u : Bool) (s : State), ∃ t, exec (.railFault (.io n k u)) s = .next t ∧
    smGet t.ioOff [n.val, k.val] false = !u ∧ SameFields s t [] ∧ t.sec = s.sec) ∧
  (∀ (n : Fin 9) (x : BitVec 8) (v : BitVec 12) (a : BitVec 10) (s : State), s.hold = 0 → s.stewardRuns n = true →
    x.toNat < 110 →
    ∃ t, exec (.telemetrySample n x v a) s = .next t ∧ t.rd .TEL_STAT_TEMP [n] = x.toNat ∧ t.rd .TEL_STAT_VCORE [n] = v.toNat ∧
      t.rd .TEL_STAT_ICORE [n] = a.toNat ∧ (t.life n).last = x.toNat ∧ (t.life n).top = max (s.life n).top x.toNat ∧
      (t.life n).hot = 0) ∧
  (∀ (x : BitVec 8) (v : BitVec 12) (a : BitVec 10) (s : State), s.hold = 0 → 110 ≤ x.toNat → 1 ≤ (s.life 8).hot →
    ∃ t, exec (.telemetrySample 8 x v a) s = .next t ∧ t.hold = 3 ∧ t.rd .RST_CAUSE_THERMAL [] = 1) ∧
  (∀ (n : Fin 8) (x : BitVec 8) (v : BitVec 12) (a : BitVec 10) (s : State), s.hold = 0 → s.up n = true →
    110 ≤ x.toNat → x.toNat < 118 → 1 ≤ (s.life n).hot →
    ∃ t, exec (.telemetrySample (n.castLE (by decide)) x v a) s = .next t ∧ t.rd .HUB_DIE_STATE_STATE [n] = 5 ∧
      t.rd .RST_DIE_STAT_CAUSE [n] = 6) ∧
  (∀ (s : State), s.hold = 3 → (List.range 9).all (fun n => decide ((s.life n).last < 100)) = true →
    ∃ t, exec .thermtripRelease s = .next t ∧ t.hold = 0 ∧ t.out = .pin 30 1 :: .pin 31 1 :: s.out ∧ SameFields s t []) ∧
  (∀ (n : Fin 9) (s : State), s.hold = 3 → 100 ≤ (s.life n).last → ∃ t, exec .thermtripRelease s = .next t ∧ t = s) ∧
  (∀ (n : Fin 9) (s : State), s.stewardRuns n = true →
    ∃ t, exec (.lifeHoursUpdate n) s = .next t ∧ (t.life n).top = 0 ∧
      (t.life n).tenths = (s.life n).tenths + lifeWeight (lifeBin (s.life n).top) ∧
      (t.life n).hours = (s.life n).hours.set (lifeBin (s.life n).top) ((s.life n).hours.getD (lifeBin (s.life n).top) 0 + 1) ∧
      t.now = max s.now (s.life n).due)

/-- A reading at TWARN raises event 0x0E01 and sets TWARN_HIT once, and again only after a reading 5 degrees below;
the trip acts whatever the warning. At a site whose steward runs, with its event queue not full. A first reading at or
above TWARN and below 110 queues one report of code 0x0E01 and sets TWARN_HIT, and the site is disarmed. A later one
queues nothing and keeps it disarmed. A reading at most TWARN - 5 queues nothing and arms it again. A reading between
changes neither. The second reading of 118 or more of a die trips the device, armed or not. (R505) -/
def Obligations.TelemetryWarnsOnceForEachRise : Prop :=
  (∀ (n : Fin 9) (x : BitVec 8) (v : BitVec 12) (a : BitVec 10) (s : State), s.hold = 0 → s.stewardRuns n = true →
    x.toNat < 110 → s.rd .TEL_CTL_TWARN [n] ≤ x.toNat → (s.life n).armed = true → (s.steward n).queue.length < 256 →
    (s.steward n).lost = 0 → (s.steward n).lostFull = 0 →
    ∃ t, exec (.telemetrySample n x v a) s = .next t ∧ t.rd .TEL_STAT_TWARN_HIT [n] = 1 ∧ (t.life n).armed = false ∧
      (t.steward n).queue.length = (s.steward n).queue.length + 1 ∧
      ((t.steward n).queue.getLast?.map (·.code)) = some (.fixed 0x0E01)) ∧
  (∀ (n : Fin 9) (x : BitVec 8) (v : BitVec 12) (a : BitVec 10) (s : State), s.hold = 0 → s.stewardRuns n = true →
    x.toNat < 110 → s.rd .TEL_CTL_TWARN [n] < x.toNat + 5 → (s.life n).armed = false →
    ∃ t, exec (.telemetrySample n x v a) s = .next t ∧ (t.life n).armed = false ∧ t.stewards = s.stewards ∧
      t.rd .TEL_STAT_TWARN_HIT [n] = s.rd .TEL_STAT_TWARN_HIT [n]) ∧
  (∀ (n : Fin 9) (x : BitVec 8) (v : BitVec 12) (a : BitVec 10) (s : State), s.hold = 0 → s.stewardRuns n = true →
    x.toNat < 110 → x.toNat + 5 ≤ s.rd .TEL_CTL_TWARN [n] →
    ∃ t, exec (.telemetrySample n x v a) s = .next t ∧ (t.life n).armed = true ∧ t.stewards = s.stewards) ∧
  (∀ (n : Fin 8) (x : BitVec 8) (v : BitVec 12) (a : BitVec 10) (s : State), s.hold = 0 →
    s.stewardRuns n = true → 118 ≤ x.toNat → 1 ≤ (s.life n).hotter →
    ∃ t, exec (.telemetrySample (n.castLE (by decide)) x v a) s = .next t ∧ t.hold = 3 ∧ t.rd .RST_CAUSE_THERMAL [] = 1)

/-- The Lodestar's messages attest, keep sessions, advance counters and move the lifecycle, each with its reply, and a
refused one records LS_ERR. ATTEST and GET_CERTS reply with the report and the certificates, and are refused in
RETIRED. SESSION_OPEN waits without TRNG_OK, is refused with 16 open, else opens a session of the sender with a number
not in use. A deposit replaces the earlier one and counts as use. Only the owner closes it. It ends after 60 s unused.
COUNTER_COMMIT advances to v, replies the old value below it, refuses v above SVN with CODE 2 and above 64 with 8; a
failed fuse gives 7 and loses nothing. TAKE_OWNERSHIP in SHIPPED blows keys, KEK and hashes, reads OWNED and closes
both levels; partly blown fuses refuse it with 7, a power loss leaves SHIPPED. Revoking needs another unrevoked key.
RETIRE reads RETIRED and resets the package. A function that is not administrative gets 2, a bad length 3 with CODE 4.
A helm core's exchange ends too. Clauses that stand in R440, R441, R442, R443, R444, R445, R446, R448, R453, R455,
R508. (spec/15_lodestar_security.md, spec/17_fault_handling_and_service_life.md) -/
def Obligations.LodestarMessagesHaveTheirEffectAndTheirReply : Prop :=
  (∀ (n : Fin 2048) (m : Mail) (s : State), s.fromFn n m 0x0101 = true → m.body.length = 48 → s.lifecycle ≠ 3 →
    ∃ t, exec (.attest n) s = .next t ∧ t.mail = s.mail.eraseIdx n ∧
      s.gotReply t m 0 (s.report m.body ++ s.akSign (s.report m.body)) = true) ∧
  (∀ (n : Fin 2048) (m : Mail) (s : State), s.fromFn n m 0x0101 = true → m.body.length = 48 → s.lifecycle = 3 →
    s.on .LS_ERR_VALID [] = false →
    ∃ t, exec (.attest n) s = .next t ∧ t.mail = s.mail.eraseIdx n ∧ s.gotReply t m 5 [] = true ∧ t.hasErr 5 3 = true) ∧
  (∀ (n : Fin 2048) (m : Mail) (s : State), s.fromFn n m 0x0101 = true → m.body.length ≠ 48 → s.on .LS_ERR_VALID [] = false →
    ∃ t, exec (.attest n) s = .next t ∧ t.mail = s.mail.eraseIdx n ∧ s.gotReply t m 3 [] = true ∧ t.hasErr 4 3 = true) ∧
  (∀ (n : Fin 2048) (m : Mail) (s : State), s.fromFn n m 0x0102 = true → m.body.length = 0 → s.lifecycle ≠ 3 →
    ∃ t, exec (.getCerts n) s = .next t ∧ t.mail = s.mail.eraseIdx n ∧
      s.gotReply t m 0 (Config.identityCert ++ Config.akCert s.fwMeas) = true) ∧
  (∀ (n : Fin 2048) (s : State), s.on .LS_STAT_TRNG_OK [] = false → ∃ t, exec (.sessionOpen n) s = .next t ∧ t = s) ∧
  (∀ (n : Fin 2048) (m : Mail) (s : State), s.on .LS_STAT_TRNG_OK [] = true → s.fromFn n m 0x0103 = true →
    m.body.length = 96 → s.lifecycle ≠ 3 → s.sessions.length < 16 →
    ∃ t, exec (.sessionOpen n) s = .next t ∧ t.mail = s.mail.eraseIdx n ∧ 1 ≤ t.lastSes ∧ t.lastSes ≤ 255 ∧
      smGet s.sessions [t.lastSes] none = none ∧
      (smGet t.sessions [t.lastSes] none).map (fun x => (x.owner, x.used, x.deposit)) = some (m.src, s.now, none) ∧
      t.out.length = s.out.length + (if (s.jobAt m.q m.idx).isSome then 1 else 0)) ∧
  (∀ (n : Fin 2048) (m : Mail) (s : State), s.on .LS_STAT_TRNG_OK [] = true → s.fromFn n m 0x0103 = true →
    m.body.length = 96 → s.lifecycle ≠ 3 → 16 ≤ s.sessions.length → s.on .LS_ERR_VALID [] = false →
    ∃ t, exec (.sessionOpen n) s = .next t ∧ s.gotReply t m 5 [] = true ∧ t.hasErr 6 3 = true ∧ t.sessions = s.sessions) ∧
  (∀ (n : Fin 2048) (m : Mail) (v : Nat) (x : LsSession) (s : State), s.fromFn n m 0x0104 = true → m.body.length = 108 →
    s.ownSession m = some (v, x) →
    ∃ t, exec (.keyDeposit n) s = .next t ∧ t.mail = s.mail.eraseIdx n ∧ s.gotReply t m 0 [] = true ∧
      smGet t.sessions [v] none = some { x with used := s.now, deposit := some (m.num 4 104) }) ∧
  (∀ (n : Fin 2048) (m : Mail) (v : Nat) (x : LsSession) (s : State), s.fromFn n m 0x0105 = true → m.body.length = 4 →
    s.ownSession m = some (v, x) →
    ∃ t, exec (.sessionClose n) s = .next t ∧ t.mail = s.mail.eraseIdx n ∧ s.gotReply t m 0 [] = true ∧
      smGet t.sessions [v] none = none) ∧
  (∀ (n : Fin 2048) (m : Mail) (s : State), s.fromFn n m 0x0105 = true → m.body.length = 4 → s.ownSession m = none →
    ∃ t, exec (.sessionClose n) s = .next t ∧ s.gotReply t m 2 [] = true ∧ t.on .LS_ERR_VALID [] = true ∧
      t.sessions = s.sessions) ∧
  (∀ (n : Fin 2048) (m : Mail) (v : Nat) (x : LsSession) (s : State), s.fromHelm n m 0x0105 = true → m.body.length = 4 →
    s.ownSession m = some (v, x) →
    ∃ t, exec (.sessionClose n) s = .next t ∧ t.mail = s.mail.eraseIdx n ∧ smGet t.sessions [v] none = none ∧
      (t.helmRt (m.src - 8)).mbx.isSome = true) ∧
  (∀ (v : Fin 256) (x : LsSession) (s : State), smGet s.sessions [v.val] none = some x →
    ∃ t, exec (.sessionIdleTimeout v) s = .next t ∧ smGet t.sessions [v.val] none = none ∧
      t.now = max s.now (x.used + 60000000000) ∧ SameFields s t []) ∧
  (∀ (n : Fin 2048) (m : Mail) (s : State), s.fromFn n m 0x0106 = true →
    (s.mail.take n).all (fun x => mailCode x.req != 0x0106) = true → m.admin = true → m.body.length = 8 → m.num 0 4 < 8 →
    s.rd .LS_ARB_VALUE [m.num 0 4] < m.num 4 4 → m.num 4 4 ≤ s.rd .LS_SVN_SVN [m.num 0 4] → m.num 4 4 ≤ 64 →
    ∃ t, exec (.counterCommit n none) s = .next t ∧ t.mail = s.mail.eraseIdx n ∧ s.gotReply t m 0 (natLe (m.num 4 4) 4) = true ∧
      t.rd .LS_ARB_VALUE [m.num 0 4] = m.num 4 4 ∧ t.on .LS_ARB_SPENT [m.num 0 4] = decide (m.num 4 4 = 64)) ∧
  (∀ (n : Fin 2048) (stop : Option (BitVec 7 × Bool)) (m : Mail) (s : State), s.fromFn n m 0x0106 = true →
    (s.mail.take n).all (fun x => mailCode x.req != 0x0106) = true → m.admin = true → m.body.length = 8 → m.num 0 4 < 8 →
    m.num 4 4 ≤ s.rd .LS_ARB_VALUE [m.num 0 4] →
    ∃ t, exec (.counterCommit n stop) s = .next t ∧ s.gotReply t m 0 (natLe (s.rd .LS_ARB_VALUE [m.num 0 4]) 4) = true ∧
      t.rd .LS_ARB_VALUE [m.num 0 4] = s.rd .LS_ARB_VALUE [m.num 0 4]) ∧
  (∀ (n : Fin 2048) (stop : Option (BitVec 7 × Bool)) (m : Mail) (s : State), s.fromFn n m 0x0106 = true →
    (s.mail.take n).all (fun x => mailCode x.req != 0x0106) = true → m.admin = true → m.body.length = 8 → m.num 0 4 < 8 →
    s.rd .LS_ARB_VALUE [m.num 0 4] < m.num 4 4 → s.rd .LS_SVN_SVN [m.num 0 4] < m.num 4 4 → s.on .LS_ERR_VALID [] = false →
    ∃ t, exec (.counterCommit n stop) s = .next t ∧ s.gotReply t m 5 [] = true ∧ t.hasErr 2 3 = true ∧
      t.rd .LS_ARB_VALUE [m.num 0 4] = s.rd .LS_ARB_VALUE [m.num 0 4]) ∧
  (∀ (n : Fin 2048) (stop : Option (BitVec 7 × Bool)) (m : Mail) (s : State), s.fromFn n m 0x0106 = true →
    (s.mail.take n).all (fun x => mailCode x.req != 0x0106) = true → m.admin = true → m.body.length = 8 → m.num 0 4 < 8 →
    s.rd .LS_ARB_VALUE [m.num 0 4] < m.num 4 4 → m.num 4 4 ≤ s.rd .LS_SVN_SVN [m.num 0 4] → 64 < m.num 4 4 →
    s.on .LS_ERR_VALID [] = false →
    ∃ t, exec (.counterCommit n stop) s = .next t ∧ s.gotReply t m 5 [] = true ∧ t.hasErr 8 3 = true ∧
      t.rd .LS_ARB_VALUE [m.num 0 4] = s.rd .LS_ARB_VALUE [m.num 0 4]) ∧
  (∀ (n : Fin 2048) (b : BitVec 7) (m : Mail) (s : State), s.fromFn n m 0x0106 = true →
    (s.mail.take n).all (fun x => mailCode x.req != 0x0106) = true → m.admin = true → m.body.length = 8 → m.num 0 4 < 8 →
    s.rd .LS_ARB_VALUE [m.num 0 4] < m.num 4 4 → m.num 4 4 ≤ s.rd .LS_SVN_SVN [m.num 0 4] → m.num 4 4 ≤ 64 →
    s.on .LS_ERR_VALID [] = false →
    ∃ t, exec (.counterCommit n (some (b, false))) s = .next t ∧ s.gotReply t m 5 [] = true ∧ t.hasErr 7 3 = true ∧
      s.rd .LS_ARB_VALUE [m.num 0 4] ≤ t.rd .LS_ARB_VALUE [m.num 0 4] ∧ t.rd .LS_ARB_VALUE [m.num 0 4] < m.num 4 4) ∧
  (∀ (n : Fin 2048) (stop : Option (BitVec 7 × Bool)) (m : Mail) (s : State), s.fromFn n m 0x0106 = true →
    (s.mail.take n).all (fun x => mailCode x.req != 0x0106) = true → m.admin = false →
    ∃ t, exec (.counterCommit n stop) s = .next t ∧ t.mail = s.mail.eraseIdx n ∧ s.gotReply t m 2 [] = true ∧
      t.on .LS_ERR_VALID [] = true) ∧
  (∀ (n : Fin 2048) (k : BitVec 256) (m : Mail) (v : Nat) (x : LsSession) (s : State), s.fromFn n m 0x0107 = true →
    m.admin = true → ownerKeyCount m.body.length ≠ 0 → s.lifecycle = 1 → s.ownSession m = some (v, x) →
    s.partlyOwned = false →
    ∃ t, exec (.takeOwnership n (some k) 0) s = .next t ∧ t.mail = s.mail.eraseIdx n ∧ s.gotReply t m 0 [] = true ∧
      t.rd .LS_STAT_LIFECYCLE [] = 2 ∧ t.rd .LS_STAT_KEK [] = 1 ∧ t.pelLevel 0 = 0 ∧ t.pelLevel 1 = 0 ∧
      smGet t.lsFuse [3, 0] 0 = k.toNat ∧
      (∀ l : Fin 3, smGet t.lsFuse [4, l + 1] 0 = m.num (44 + 96 * ownerKeyCount m.body.length + 48 * l) 48) ∧
      (∀ i : Fin 4, i < ownerKeyCount m.body.length → smGet t.lsFuse [1, i] 0 = m.num (4 + 96 * i) 96 ∧
        (t.rd .LS_STAT_OWNER_KEYS []).testBit i = decide (m.num (4 + 96 * i) 96 ≠ 0))) ∧
  (∀ (n : Fin 2048) (k : BitVec 256) (how : Fin 3) (m : Mail) (v : Nat) (x : LsSession) (s : State),
    s.fromFn n m 0x0107 = true → m.admin = true → ownerKeyCount m.body.length ≠ 0 → s.lifecycle = 1 →
    s.ownSession m = some (v, x) → s.partlyOwned = true → s.on .LS_ERR_VALID [] = false →
    ∃ t, exec (.takeOwnership n (some k) how) s = .next t ∧ s.gotReply t m 5 [] = true ∧ t.hasErr 7 3 = true ∧
      t.lsFuse = s.lsFuse ∧ t.rd .LS_STAT_LIFECYCLE [] = 1) ∧
  (∀ (n : Fin 2048) (k : BitVec 256) (m : Mail) (v : Nat) (x : LsSession) (s : State), s.fromFn n m 0x0107 = true →
    m.admin = true → ownerKeyCount m.body.length ≠ 0 → s.lifecycle = 1 → s.ownSession m = some (v, x) →
    s.partlyOwned = false →
    ∃ t, exec (.takeOwnership n (some k) 2) s = .next t ∧ t.rd .LS_STAT_LIFECYCLE [] = 1 ∧ t.partlyOwned = true ∧ t.hold = 1) ∧
  (∀ (n : Fin 2048) (b : Fin 4) (m : Mail) (s : State), s.fromFn n m 0x0108 = true → m.admin = true → m.body.length = 100 →
    s.lifecycle = 2 → m.num 0 4 < 4 → b.val ≠ m.num 0 4 → (s.rd .LS_STAT_OWNER_KEYS []).testBit b = true →
    ∃ t, exec (.revokeOwnerKey n (some b) true) s = .next t ∧ t.mail = s.mail.eraseIdx n ∧ s.gotReply t m 0 [] = true ∧
      (∀ i : Fin 4, (t.rd .LS_STAT_OWNER_KEYS []).testBit i = (decide (i.val ≠ m.num 0 4) && (s.rd .LS_STAT_OWNER_KEYS []).testBit i)) ∧
      (smGet t.lsFuse [2, 0] 0).testBit (m.num 0 4) = true) ∧
  (∀ (n : Fin 2048) (f : Bool) (m : Mail) (s : State), s.fromFn n m 0x0108 = true → m.admin = true → m.body.length = 100 →
    s.lifecycle = 2 → s.on .LS_ERR_VALID [] = false →
    ∃ t, exec (.revokeOwnerKey n none f) s = .next t ∧ s.gotReply t m 5 [] = true ∧ t.hasErr 1 3 = true ∧
      t.rd .LS_STAT_OWNER_KEYS [] = s.rd .LS_STAT_OWNER_KEYS []) ∧
  (∀ (n : Fin 2048) (b : Fin 4) (m : Mail) (s : State), s.fromFn n m 0x0109 = true → m.admin = true → m.body.length = 96 →
    s.lifecycle = 2 → (s.rd .LS_STAT_OWNER_KEYS []).testBit b = true →
    ∃ t, exec (.retire n (some b)) s = .next t ∧ t.rd .LS_STAT_LIFECYCLE [] = 3 ∧ smGet t.lsFuse [5, 0] 0 = 1 ∧
      smGet t.lsFuse [3, 0] 0 = 2 ^ 256 - 1 ∧ t.rd .BOOT_STAT_STAGE [] = 0 ∧ t.pelLevel 0 = 0 ∧ t.pelLevel 1 = 0 ∧ t.mail = [])

/-- A debug level rises by a valid certificate or the fused password only; failures count and cost time; the random
generator's failure makes challenges wait. A failed health test clears TRNG_OK, its recovery sets it and makes the
challenges that wait. A key generation that waits 100 ms sets FAIL; after 1 s LS_ERR records CODE 6. A challenge gives
48 bytes, or sets BUSY while the generator gives no output. In SHIPPED a certificate by an unrevoked vendor key, of
this device or none, for at least level l, with both signatures good over a challenge, sets the level and USED, clears
FAILS and reads OK. A bad issuer signature counts in FAILS, costs 2^(f-1) s up to 4,096 s, records CODE 1 and keeps
the level. An attempt at or below the level changes nothing but LEVEL; one during the wait reads OK 0 and counts
nothing. A 32-byte password opens its level exactly where its hash is the fused one and that is not 0. In RETIRED it
fails with CODE 5. Clauses that stand in R447, R449, R450, R451, R452, R453, R458, R493.
(spec/15_lodestar_security.md, spec/16_helm_cores_and_debug.md) -/
def Obligations.DebugLevelsOpenOnlyByAGoodAttempt : Prop :=
  (∀ (s : State), s.on .LS_STAT_TRNG_OK [] = true →
    ∃ t, exec .trngHealthFail s = .next t ∧ t.rd .LS_STAT_TRNG_OK [] = 0 ∧ t.trngT = some s.now) ∧
  (∀ (s : State), s.trngT.isSome = true →
    ∃ t, exec .trngHealthRecover s = .next t ∧ t.rd .LS_STAT_TRNG_OK [] = 1 ∧ t.trngT = none ∧
      (∀ p : Fin 2, (t.pelRt p).want = false ∧ ((s.pelRt p).want = true → (t.pelRt p).toRead.length = 48 ∧
        t.rd .PEL_AUTH_STAT_BUSY [p] = 0))) ∧
  (∀ (st : Fin 4) (a b u : Nat) (r : List Nat) (s : State), s.trngT = some a → smGet s.keyOp [st.val] [] = b :: 1 :: u :: r →
    ∃ t, exec (.trngWaitTimeout (some st)) s = .next t ∧ t.rd .SEAL_KEY_BUSY [st] = 0 ∧ t.rd .SEAL_KEY_FAIL [st] = 1 ∧
      t.now = max s.now (max a u + 100000000) ∧ SameFields s t [(.SEAL_KEY_BUSY, [st]), (.SEAL_KEY_FAIL, [st])]) ∧
  (∀ (a : Nat) (s : State), s.trngT = some a → s.trngSaid = false → s.on .LS_ERR_VALID [] = false →
    ∃ t, exec (.trngWaitTimeout none) s = .next t ∧ t.on .LS_ERR_VALID [] = true ∧ t.rd .LS_ERR_CODE [] = 6 ∧
      t.now = max s.now (a + 1000000000) ∧ t.trngSaid = true) ∧
  (∀ (p : PelSrc) (l : BitVec 2) (s : State), s.authTaken p = true → s.on .LS_STAT_TRNG_OK [] = true →
    ∃ t, exec (.debugChallenge p l) s = .next t ∧ t.rd .PEL_AUTH_LEVEL [pelPath p] = l.toNat ∧
      (t.pelRt (pelPath p)).toRead.length = 48 ∧ (t.pelRt (pelPath p)).chal.isSome = true ∧
      (t.pelRt (pelPath p)).sent = [] ∧ SameFields s t [(.PEL_AUTH_LEVEL, [pelPath p])]) ∧
  (∀ (p : PelSrc) (l : BitVec 2) (s : State), s.authTaken p = true → s.on .LS_STAT_TRNG_OK [] = false →
    ∃ t, exec (.debugChallenge p l) s = .next t ∧ t.rd .PEL_AUTH_STAT_BUSY [pelPath p] = 1 ∧
      (t.pelRt (pelPath p)).want = true ∧
      SameFields s t [(.PEL_AUTH_LEVEL, [pelPath p]), (.PEL_AUTH_STAT_BUSY, [pelPath p])]) ∧
  (∀ (p : PelSrc) (l : BitVec 2) (c : Nat) (s : State), s.authTaken p = true → s.pelLevel (pelPath p) < l.toNat →
    s.dbgWait ≤ s.now → s.lifecycle = 1 → (s.pelRt (pelPath p)).sent.length = 304 → leNat (s.pelRt (pelPath p)).sent = c →
    bitsOf c 0 32 = 0x54444243 → bitsOf c 48 16 = 0 → hByte c 5 ≤ 1 → (s.rd .LS_STAT_VKEYS []).testBit (hByte c 5) = true →
    l.toNat ≤ hByte c 4 → bitsOf c 64 64 = 0 ∨ bitsOf c 64 64 = Config.serial.toNat → (s.pelRt (pelPath p)).chal.isSome = true →
    ∃ t, exec (.debugCertSubmit p l true true) s = .next t ∧ t.pelLevel (pelPath p) = l.toNat ∧
      t.pelLevel (1 - pelPath p) = s.pelLevel (1 - pelPath p) ∧ (t.rd .LS_DBG_STAT_USED []).testBit (l.toNat - 1) = true ∧
      t.rd .LS_DBG_STAT_FAILS [] = 0 ∧ t.rd .PEL_AUTH_STAT_OK [pelPath p] = 1 ∧ (t.pelRt (pelPath p)).chal = none) ∧
  (∀ (p : PelSrc) (l : BitVec 2) (b : Bool) (c : Nat) (s : State), s.authTaken p = true → s.pelLevel (pelPath p) < l.toNat →
    s.dbgWait ≤ s.now → s.lifecycle = 1 → (s.pelRt (pelPath p)).sent.length = 304 → leNat (s.pelRt (pelPath p)).sent = c →
    bitsOf c 0 32 = 0x54444243 → bitsOf c 48 16 = 0 → hByte c 5 ≤ 1 → s.on .LS_ERR_VALID [] = false →
    ∃ t, exec (.debugCertSubmit p l false b) s = .next t ∧ t.pelLevel 0 = s.pelLevel 0 ∧ t.pelLevel 1 = s.pelLevel 1 ∧
      t.rd .LS_DBG_STAT_FAILS [] = min 255 (s.rd .LS_DBG_STAT_FAILS [] + 1) ∧ t.rd .PEL_AUTH_STAT_OK [pelPath p] = 0 ∧
      t.dbgWait = s.now + failWait (min 255 (s.rd .LS_DBG_STAT_FAILS [] + 1)) * 1000000000 ∧ t.hasErr 1 2 = true ∧
      (t.pelRt (pelPath p)).chal = none) ∧
  (∀ (p : PelSrc) (l : BitVec 2) (x y : Bool) (s : State), s.authTaken p = true → l.toNat ≤ s.pelLevel (pelPath p) →
    ∃ t, exec (.debugCertSubmit p l x y) s = .next t ∧ t.pel = s.pel ∧ t.dbgWait = s.dbgWait ∧
      SameFields s t [(.PEL_AUTH_LEVEL, [pelPath p])]) ∧
  (∀ (p : PelSrc) (l : BitVec 2) (x y : Bool) (s : State), s.authTaken p = true → s.pelLevel (pelPath p) < l.toNat →
    s.now < s.dbgWait →
    ∃ t, exec (.debugCertSubmit p l x y) s = .next t ∧ t.rd .PEL_AUTH_STAT_OK [pelPath p] = 0 ∧ t.dbgWait = s.dbgWait ∧
      SameFields s t [(.PEL_AUTH_LEVEL, [pelPath p]), (.PEL_AUTH_STAT_OK, [pelPath p])]) ∧
  (∀ (p : PelSrc) (l : BitVec 2) (h : Nat) (s : State), s.authTaken p = true → s.pelLevel (pelPath p) < l.toNat →
    s.dbgWait ≤ s.now → s.lifecycle ≠ 3 → (s.pelRt (pelPath p)).sent.length = 32 → smGet s.lsFuse [4, l.toNat] 0 = h → h ≠ 0 →
    ∃ t, exec (.debugPasswordSubmit p l) s = .next t ∧
      t.pelLevel (pelPath p) = (if (Config.sha384 (s.pelRt (pelPath p)).sent).toNat = h then l.toNat else s.pelLevel (pelPath p)) ∧
      t.rd .LS_DBG_STAT_FAILS [] = (if (Config.sha384 (s.pelRt (pelPath p)).sent).toNat = h then 0
        else min 255 (s.rd .LS_DBG_STAT_FAILS [] + 1)) ∧ t.pelLevel (1 - pelPath p) = s.pelLevel (1 - pelPath p)) ∧
  (∀ (p : PelSrc) (l : BitVec 2) (s : State), s.authTaken p = true → s.pelLevel (pelPath p) < l.toNat →
    s.dbgWait ≤ s.now → s.lifecycle ≠ 3 → smGet s.lsFuse [4, l.toNat] 0 = 0 →
    ∃ t, exec (.debugPasswordSubmit p l) s = .next t ∧ t.pelLevel (pelPath p) = s.pelLevel (pelPath p) ∧
      t.rd .LS_DBG_STAT_FAILS [] = min 255 (s.rd .LS_DBG_STAT_FAILS [] + 1)) ∧
  (∀ (p : PelSrc) (l : BitVec 2) (s : State), s.authTaken p = true → s.pelLevel (pelPath p) < l.toNat →
    s.dbgWait ≤ s.now → s.lifecycle = 3 → s.on .LS_ERR_VALID [] = false →
    ∃ t, exec (.debugPasswordSubmit p l) s = .next t ∧ t.pelLevel (pelPath p) = s.pelLevel (pelPath p) ∧
      t.rd .LS_DBG_STAT_FAILS [] = min 255 (s.rd .LS_DBG_STAT_FAILS [] + 1) ∧ t.hasErr 5 2 = true)

/-- In the recovery stage an image is begun, received at its slot and judged; a good one restarts the device;
elsewhere the registers drop writes. Begin with a LEN of 0 or above 64 MiB + 256 reads STATE 3 and ERR 3, else STATE 1
with no bytes. Data while receiving stores 4 bytes at the slot's place, lowest address first, and counts; once LEN
bytes have come it changes nothing. End without all bytes reads STATE 3 and ERR 3 and counts an image that failed; a
failed flash write reads ERR 4; an image that fails only its signature ERR 1; a good image restarts from STAGE 0 with
the bytes of the image kept. Outside recovery a write changes no register and no byte of flash. Clauses that stand in
R406, R454, R459. (spec/14_bring_up_resets_and_states.md, spec/15_lodestar_security.md) -/
def Obligations.RecoveryReceivesJudgesAndRestarts : Prop :=
  (∀ (w : Writer) (b : Bool) (n : BitVec 28) (s : State), s.recovers w = true → n.toNat = 0 ∨ 64 * 2 ^ 20 + 256 < 16 * n.toNat →
    ∃ t, exec (.recoveryBegin w b n) s = .next t ∧ t.rd .LS_RCV_STAT_STATE [] = 3 ∧ t.rd .LS_RCV_STAT_ERR [] = 3 ∧
      t.flash = s.flash) ∧
  (∀ (w : Writer) (b : Bool) (n : BitVec 28) (s : State), s.recovers w = true → n.toNat ≠ 0 → 16 * n.toNat ≤ 64 * 2 ^ 20 + 256 →
    ∃ t, exec (.recoveryBegin w b n) s = .next t ∧ t.rd .LS_RCV_STAT_STATE [] = 1 ∧ t.rd .LS_RCV_STAT_ERR [] = 0 ∧
      t.rd .LS_RCV_STAT_BYTES [] = 0 ∧ t.rd .LS_RCV_CTL_SLOT [] = b.toNat ∧ t.rd .LS_RCV_CTL_LEN [] = n.toNat ∧ t.rcvN = 0 ∧
      (s.dirPick.isSome = true → t.flash = s.flash)) ∧
  (∀ (w : Writer) (v : BitVec 32) (s : State), s.recovers w = true → s.rd .LS_RCV_STAT_STATE [] = 1 →
    s.rcvN < 16 * s.rd .LS_RCV_CTL_LEN [] → s.rcvN < 0x8000000 →
    ∃ t, exec (.recoveryData w v) s = .next t ∧ t.rcvN = s.rcvN + 4 ∧ t.rd .LS_RCV_STAT_BYTES [] = (s.rcvN + 4) / 16 ∧
      memBytes t.flash (s.slotBase (s.rd .LS_RCV_CTL_SLOT []) + s.rcvN) 4 0xFF = natLe v.toNat 4 ∧
      (∀ a : Nat, (a < s.slotBase (s.rd .LS_RCV_CTL_SLOT []) + s.rcvN ∨ s.slotBase (s.rd .LS_RCV_CTL_SLOT []) + s.rcvN + 4 ≤ a) →
        memGet t.flash a 0xFF = memGet s.flash a 0xFF) ∧
      SameFields s t [(.LS_RCV_STAT_BYTES, [])]) ∧
  (∀ (w : Writer) (v : BitVec 32) (s : State), s.recovers w = true → 16 * s.rd .LS_RCV_CTL_LEN [] ≤ s.rcvN →
    ∃ t, exec (.recoveryData w v) s = .next t ∧ t = s) ∧
  (∀ (w : Writer) (v : BitVec 32) (s : State), s.mute w = false → s.unlocked = false → s.rd .BOOT_STAT_STAGE [] ≠ 15 →
    ∃ t, exec (.recoveryData w v) s = .next t ∧ t.flash = s.flash ∧ t.rcvN = s.rcvN ∧ SameFields s t []) ∧
  (∀ (w : Writer) (b : Bool) (s : State), s.recovers w = true → s.rd .LS_RCV_STAT_STATE [] = 1 →
    ∃ t, exec (.recoveryEnd w b false) s = .next t ∧ t.rd .LS_RCV_STAT_STATE [] = 3 ∧ t.rd .LS_RCV_STAT_ERR [] = 4 ∧
      SameFields s t [(.LS_RCV_STAT_STATE, []), (.LS_RCV_STAT_ERR, [])]) ∧
  (∀ (w : Writer) (b : Bool) (s : State), s.recovers w = true → s.rd .LS_RCV_STAT_STATE [] = 1 →
    s.rcvN ≠ 16 * s.rd .LS_RCV_CTL_LEN [] →
    ∃ t, exec (.recoveryEnd w b true) s = .next t ∧ t.rd .LS_RCV_STAT_STATE [] = 3 ∧ t.rd .LS_RCV_STAT_ERR [] = 3 ∧
      t.rd .LS_VER_CNT_COUNT [] = min 0xFFFFFFFF (s.rd .LS_VER_CNT_COUNT [] + 1) ∧ t.flash = s.flash) ∧
  (∀ (w : Writer) (a len : Nat) (s : State), s.recovers w = true → s.rd .LS_RCV_STAT_STATE [] = 1 →
    s.rcvN = 16 * s.rd .LS_RCV_CTL_LEN [] → s.slotBase (s.rd .LS_RCV_CTL_SLOT []) = a →
    256 + hBODY (leNat (memBytes s.flash a 256 0xFF)) = len → len ≤ s.rcvN → s.rcvN < len + 16 → s.fwCheck a len true = 0 →
    ∃ t, exec (.recoveryEnd w false true) s = .next t ∧ t.rd .LS_RCV_STAT_STATE [] = 3 ∧ t.rd .LS_RCV_STAT_ERR [] = 1 ∧
      t.flash = s.flash) ∧
  (∀ (w : Writer) (a len : Nat) (s : State), s.recovers w = true → s.rd .LS_RCV_STAT_STATE [] = 1 →
    s.rcvN = 16 * s.rd .LS_RCV_CTL_LEN [] → s.slotBase (s.rd .LS_RCV_CTL_SLOT []) = a → 8192 ≤ a →
    256 + hBODY (leNat (memBytes s.flash a 256 0xFF)) = len → len ≤ s.rcvN → s.rcvN < len + 16 → s.fwCheck a len true = 0 →
    ∃ t, exec (.recoveryEnd w true true) s = .next t ∧ t.rd .BOOT_STAT_STAGE [] = 0 ∧ t.hold = 0 ∧
      (∀ k : Nat, memGet t.flash (a + k) 0xFF = memGet s.flash (a + k) 0xFF))

/-- The scrub reads frames in order, counts, and clears a sector on UNC_ACT; Dvorkenor answers its messages and runs
one flash operation at a time. A pass begins when due at the first sector in STATE 2 or 3. A frame takes 128 ns and
adds to COR_CNT and UNC_CNT; with an uncorrectable word the sector runs on, or with UNC_ACT reads STATE 0. A sector
taken meanwhile is left for the next. PERIOD 0 or a die not in service does nothing. SCRUB_NOW starts a pass, on a
dead die it gets 5. Journal, telemetry and repair record are read. An aligned erase outside the booted slot, a program
and a directory start an operation when none is in progress or waits ahead, else they wait, a ninth gets 4. A
misaligned erase gets 5, the booted region 2, a sender without rights 2, a bad length 3. An erased sector reads all
ones, the rest as before; erased flash is programmed as sent; the directory goes to the copy not in use with the next
SEQ, valid, the other copy as it was. Source 194 pends. Clauses that stand in R51, R404, R462, R498, R500, R501, R502,
R508, R509, R510. (spec/02_logic_fabric.md, spec/14_bring_up_resets_and_states.md, spec/16_helm_cores_and_debug.md,
spec/17_fault_handling_and_service_life.md) -/
def Obligations.ScrubbingAndDvorkenorsMessagesActAndAnswer : Prop :=
  (∀ (n : Fin 8) (a b : Fin 129) (f : Bool) (g : Nat) (s : State), s.up n = false ∨ s.rd .PWR_DIE_STAT_PSTATE [n] = 2 →
    ∃ t, exec (.configScrubFrame n a b f g) s = .next t ∧ t = s) ∧
  (∀ (n : Fin 8) (a b : Fin 129) (f : Bool) (g : Nat) (s : State), (s.scrubRt n).on = false → s.rd .SCRUB_CTL_PERIOD [n] = 0 →
    ∃ t, exec (.configScrubFrame n a b f g) s = .next t ∧ t = s) ∧
  (∀ (n : Fin 8) (a b : Fin 129) (f : Bool) (k : Nat) (g : Nat) (s : State), s.up n = true → s.rd .PWR_DIE_STAT_PSTATE [n] ≠ 2 →
    (s.scrubRt n).on = false → s.rd .SCRUB_CTL_PERIOD [n] ≠ 0 → s.scrubNext n 0 = some k →
    ∃ t, exec (.configScrubFrame n a b f g) s = .next t ∧ t.rd .SCRUB_STAT_ACTIVE [n] = 1 ∧ t.rd .SCRUB_STAT_SECTOR [n] = k ∧
      (t.scrubRt n).on = true ∧ (t.scrubRt n).sector = k ∧ (t.scrubRt n).frame = 0 ∧ t.now = max s.now (s.scrubRt n).due ∧
      SameFields s t [(.SCRUB_STAT_ACTIVE, [n]), (.SCRUB_STAT_SECTOR, [n])]) ∧
  (∀ (n : Fin 8) (a : Fin 129) (k : Nat) (g : Nat) (s : State), s.up n = true → s.rd .PWR_DIE_STAT_PSTATE [n] ≠ 2 →
    (s.scrubRt n).on = true → (s.scrubRt n).sector = k → s.rd .SEC_STATUS_STATE [n, k] = (s.scrubRt n).st0 →
    (s.sector n k).mig = 0 → (s.scrubRt n).frame + 1 < 4846 →
    ∃ t, exec (.configScrubFrame n a 0 false g) s = .next t ∧ (t.scrubRt n).frame = (s.scrubRt n).frame + 1 ∧
      (t.scrubRt n).done = (s.scrubRt n).done + 1 ∧
      t.rd .SCRUB_COR_CNT_COUNT [n] = min 0xFFFFFFFF (s.rd .SCRUB_COR_CNT_COUNT [n] + a) ∧
      t.now = max s.now ((s.scrubRt n).t0 + s.rd .SCRUB_CTL_PERIOD [n] * 1000000000 * (s.scrubRt n).done / (s.scrubRt n).total) + 128 ∧
      SameFields s t [(.SCRUB_COR_CNT_COUNT, [n])]) ∧
  (∀ (n : Fin 8) (a b : Fin 129) (k : Nat) (g : Nat) (s : State), s.up n = true → s.rd .PWR_DIE_STAT_PSTATE [n] ≠ 2 →
    (s.scrubRt n).on = true → (s.scrubRt n).sector = k → s.rd .SEC_STATUS_STATE [n, k] = (s.scrubRt n).st0 →
    (s.sector n k).mig = 0 → b ≠ 0 → s.on .SCRUB_CTL_UNC_ACT [n] = false →
    ∃ t, exec (.configScrubFrame n a b false g) s = .next t ∧
      t.rd .SCRUB_UNC_CNT_COUNT [n] = min 0xFFFFFFFF (s.rd .SCRUB_UNC_CNT_COUNT [n] + b) ∧
      t.rd .SEC_STATUS_STATE [n, k] = s.rd .SEC_STATUS_STATE [n, k]) ∧
  (∀ (n : Fin 8) (a b : Fin 129) (k : Nat) (g : Nat) (s : State), s.up n = true → s.rd .PWR_DIE_STAT_PSTATE [n] ≠ 2 →
    (s.scrubRt n).on = true → (s.scrubRt n).sector = k → s.rd .SEC_STATUS_STATE [n, k] = (s.scrubRt n).st0 →
    s.scrubbable n k = true → (s.sector n k).mig = 0 → b ≠ 0 → s.on .SCRUB_CTL_UNC_ACT [n] = true →
    ∃ t, exec (.configScrubFrame n a b false g) s = .next t ∧
      t.rd .SCRUB_UNC_CNT_COUNT [n] = min 0xFFFFFFFF (s.rd .SCRUB_UNC_CNT_COUNT [n] + b) ∧ t.rd .SEC_STATUS_STATE [n, k] = 0) ∧
  (∀ (n : Fin 8) (a b : Fin 129) (f : Bool) (k l : Nat) (g : Nat) (s : State), s.up n = true → s.rd .PWR_DIE_STAT_PSTATE [n] ≠ 2 →
    (s.scrubRt n).on = true → (s.scrubRt n).sector = k → s.rd .SEC_STATUS_STATE [n, k] ≠ (s.scrubRt n).st0 →
    s.scrubNext n (k + 1) = some l →
    ∃ t, exec (.configScrubFrame n a b f g) s = .next t ∧ (t.scrubRt n).sector = l ∧ (t.scrubRt n).frame = 0 ∧
      t.rd .SCRUB_STAT_SECTOR [n] = l ∧ SameFields s t [(.SCRUB_STAT_SECTOR, [n])]) ∧
  (∀ (n : Fin 2048) (m : Mail) (d k : Nat) (s : State), s.fromFn n m 0x0207 = true → m.admin = true → m.body.length = 4 →
    m.num 0 4 = d → d < 8 → s.up d = true → (s.scrubRt d).on = false → s.scrubNext d 0 = some k →
    ∃ t, exec (.scrubNow n) s = .next t ∧ t.mail = s.mail.eraseIdx n ∧ s.gotReply t m 0 [] = true ∧
      t.rd .SCRUB_STAT_ACTIVE [d] = 1 ∧ t.rd .SCRUB_STAT_SECTOR [d] = k ∧ (t.scrubRt d).t0 = s.now) ∧
  (∀ (n : Fin 2048) (m : Mail) (s : State), s.fromFn n m 0x0207 = true → m.admin = true → m.body.length = 4 →
    8 ≤ m.num 0 4 ∨ s.up (m.num 0 4) = false →
    ∃ t, exec (.scrubNow n) s = .next t ∧ s.gotReply t m 5 [] = true ∧ t.scrub = s.scrub) ∧
  (∀ (n : Fin 2048) (m : Mail) (s : State), s.fromFn n m 0x0201 = true → m.body.length = 4 →
    ∃ t, exec (.evtJournalRead n) s = .next t ∧ t.mail = s.mail.eraseIdx n ∧
      s.gotReply t m 0 (((s.journal.reverse.drop (m.num 0 4)).take 127).flatMap LogRec.bytes) = true) ∧
  (∀ (n : Fin 2048) (m : Mail) (s : State), s.fromFn n m 0x0202 = true → m.body.length = 0 →
    ∃ t, exec (.telemetryRead n) s = .next t ∧ t.mail = s.mail.eraseIdx n ∧
      s.gotReply t m 0 ((List.range 9).flatMap s.telemetry) = true) ∧
  (∀ (n : Fin 2048) (m : Mail) (s : State), s.fromFn n m 0x0203 = true → m.body.length = 4 →
    ∃ t, exec (.repairRead n) s = .next t ∧ t.mail = s.mail.eraseIdx n ∧
      s.gotReply t m 0 ((s.repairs.reverse.filter (fun e => e.headD 9 == m.num 0 4)).flatMap Config.repairEntry) = true) ∧
  (∀ (n : Fin 2048) (m : Mail) (s : State), s.fromFn n m 0x0204 = true → m.admin = true → m.body.length = 8 →
    s.flashOp = none → (s.mail.take n).all (fun x => !x.flash) = true → m.num 0 4 % 65536 = 0 → m.num 4 4 % 65536 = 0 →
    m.num 4 4 ≠ 0 →
    ∃ t, exec (.flashErase n) s = .next t ∧ t.flash = s.flash ∧
      t.flashOp = (if s.bootedRegion (m.num 0 4) (m.num 4 4) then none
        else some { m := m, kind := 0, at_ := m.num 0 4, left := m.num 4 4 / 65536 }) ∧
      (s.bootedRegion (m.num 0 4) (m.num 4 4) = true → s.gotReply t m 2 [] = true)) ∧
  (∀ (n : Fin 2048) (m : Mail) (s : State), s.fromFn n m 0x0204 = true → m.admin = true → m.body.length = 8 →
    s.flashOp = none → (s.mail.take n).all (fun x => !x.flash) = true → m.num 0 4 % 65536 ≠ 0 ∨ m.num 4 4 % 65536 ≠ 0 →
    ∃ t, exec (.flashErase n) s = .next t ∧ t.mail = s.mail.erase m ∧ s.gotReply t m 5 [] = true ∧ t.flashOp = none) ∧
  (∀ (n : Fin 2048) (m : Mail) (s : State), s.fromFn n m 0x0204 = true → m.admin = false → s.flashOp = none →
    ∃ t, exec (.flashErase n) s = .next t ∧ t.mail = s.mail.eraseIdx n ∧ s.gotReply t m 2 [] = true ∧ t.flashOp = none) ∧
  (∀ (n : Fin 2048) (m : Mail) (s : State), s.fromFn n m 0x0205 = true → m.admin = true → s.flashOp = none →
    m.body.length ≤ 4 ∨ 4084 < m.body.length →
    ∃ t, exec (.flashWrite n) s = .next t ∧ t.mail = s.mail.eraseIdx n ∧ s.gotReply t m 3 [] = true ∧ t.flashOp = none) ∧
  (∀ (n : Fin 2048) (m : Mail) (o : FlashOp) (s : State), s.fromFn n m 0x0205 = true → m.admin = true → s.flashOp = some o →
    o.m ≠ m → 4 < m.body.length → m.body.length ≤ 4084 →
    8 ≤ ((s.mail.take n).filter (fun x => x.flash && decide (x ≠ o.m))).length →
    ∃ t, exec (.flashWrite n) s = .next t ∧ t.mail = s.mail.eraseIdx n ∧ s.gotReply t m 4 [] = true ∧ t.flashOp = some o) ∧
  (∀ (n : Fin 2048) (m : Mail) (o : FlashOp) (s : State), s.fromFn n m 0x0206 = true → m.admin = true → s.flashOp = some o →
    m.body.length = 40 → ((s.mail.take n).filter (fun x => x.flash && decide (x ≠ o.m))).length < 8 →
    ∃ t, exec (.dirWrite n) s = .next t ∧ t = s) ∧
  (∀ (n : Fin 2048) (m : Mail) (s : State), s.fromFn n m 0x0205 = true → m.admin = true → s.flashOp = none →
    4 < m.body.length → m.body.length ≤ 4084 → (s.mail.take n).all (fun x => !x.flash) = true →
    ∃ t, exec (.flashWrite n) s = .next t ∧ t.flash = s.flash ∧
      t.flashOp = (if s.bootedRegion (m.num 0 4) (m.body.length - 4) then none
        else some { m := m, kind := 1, at_ := m.num 0 4, bytes := m.body.drop 4 })) ∧
  (∀ (n : Fin 2048) (m : Mail) (s : State), s.fromFn n m 0x0206 = true → m.admin = true → s.flashOp = none →
    m.body.length = 40 → (s.mail.take n).all (fun x => !x.flash) = true →
    ∃ t, exec (.dirWrite n) s = .next t ∧ t.flashOp = some { m := m, kind := 2, bytes := m.body } ∧ t.mail = s.mail ∧
      t.flash = s.flash) ∧
  (∀ (o : FlashOp) (s : State), s.flashOp = some o → s.mail.contains o.m = true → o.m.src < 8 →
    ∃ t, exec (.flashSectorRewritten false) s = .next t ∧ t.flashOp = none ∧ s.gotReply t o.m 5 [] = true ∧
      t.mail = s.mail.erase o.m ∧ (t.rd .HELM_IC_PEND_BITS [6]).testBit 2 = true) ∧
  (∀ (o : FlashOp) (s : State), s.flashOp = some o → o.kind = 0 → 1 < o.left →
    ∃ t, exec (.flashSectorRewritten true) s = .next t ∧
      t.flashOp = some { o with at_ := o.at_ + 65536, left := o.left - 1 } ∧ t.mail = s.mail ∧
      (t.rd .HELM_IC_PEND_BITS [6]).testBit 2 = true ∧
      (∀ k : Nat, memGet t.flash k 0xFF = (if o.at_ ≤ k ∧ k < o.at_ + 65536 then 0xFF else memGet s.flash k 0xFF))) ∧
  (∀ (o : FlashOp) (s : State), s.flashOp = some o → o.kind = 0 → o.left = 1 → s.mail.contains o.m = true → o.m.src < 8 →
    ∃ t, exec (.flashSectorRewritten true) s = .next t ∧ t.flashOp = none ∧ s.gotReply t o.m 0 [] = true ∧
      t.mail = s.mail.erase o.m ∧
      (∀ k : Nat, memGet t.flash k 0xFF = (if o.at_ ≤ k ∧ k < o.at_ + 65536 then 0xFF else memGet s.flash k 0xFF))) ∧
  (∀ (o : FlashOp) (s : State), s.flashOp = some o → o.kind = 1 → s.mail.contains o.m = true → o.m.src < 8 →
    (memBytes s.flash o.at_ o.bytes.length 0xFF).all (· == 0xFF) = true →
    ∃ t, exec (.flashSectorRewritten true) s = .next t ∧ t.flashOp = none ∧ s.gotReply t o.m 0 [] = true ∧
      memBytes t.flash o.at_ o.bytes.length 0xFF = o.bytes ∧
      (∀ k : Nat, (k < o.at_ ∨ o.at_ + o.bytes.length ≤ k) → memGet t.flash k 0xFF = memGet s.flash k 0xFF)) ∧
  (∀ (o : FlashOp) (s : State), s.flashOp = some o → o.kind = 2 → o.bytes.length = 40 →
    ∃ t, exec (.flashSectorRewritten true) s = .next t ∧ t.flashOp = none ∧
      dirValid (t.dirCopy (s.dirPick.elim 0 (1 - ·))) = true ∧
      dirSEQ (t.dirCopy (s.dirPick.elim 0 (1 - ·))) = s.dirPick.elim 1 (fun c => (dirSEQ (s.dirCopy c) + 1) % 2 ^ 32) ∧
      bitsOf (t.dirCopy (s.dirPick.elim 0 (1 - ·))) 64 320 = leNat o.bytes ∧
      t.dirCopy (s.dirPick.elim 1 (·)) = s.dirCopy (s.dirPick.elim 1 (·))) ∧
  (∀ (b : Bool) (s : State), s.flashOp = none → ∃ t, exec (.flashSectorRewritten b) s = .next t ∧ t = s)

/-- A read returns the register, clears its RC fields whatever its width, and a low word latches its high word at the
moment it is read. A read of LS_VER_CNT returns it and clears it, a read of one of its bytes returns the byte and
clears it all, the second half of a 64-bit read at LS_ERR too, and nothing else changes. The scrub counter of a die in
service is cleared; of one that is not the read returns all ones and clears nothing. An offset with no register reads
0. A queue pair of another function reads 0 and keeps its count. In recovery a register above the hub global region
reads 0 and keeps its value. ENG_STEPS_LO, FC_CMP_LO and SEAL_HWM_LO return the low 32 bits and latch the rest.
CL_BIT_LO and TR_BIT_LO do so and their counter starts at 0. SX_TIME_FRAC and SX_MEAS_OFS_LO latch the words read
after them. Clauses that stand in R2, R4, R23, R138, R159, R285, R322, R370, R371, R406, R540. (spec/00_scope.md,
spec/01_package_and_planes.md, spec/04_waypoint_engines.md, spec/05_compare_fail_capture_straight_path.md,
spec/09_memory_sealing.md, spec/11_host_rings_and_doorbells.md, spec/12_sextant_time_unit.md,
spec/14_bring_up_resets_and_states.md, spec/10_channel_and_trunk_lanes.md) -/
def Obligations.ReadsReturnLatchAndClear : Prop :=
  (∀ (w : Writer) (e : RegEnv) (s : State), s.rd .BOOT_STAT_STAGE [] ≠ 15 →
    ∃ t, exec (.rcFieldRead w 0x300064 4 e) s = .next t ∧ t.answer = s.rd .LS_VER_CNT_COUNT [] ∧
      t.rd .LS_VER_CNT_COUNT [] = 0 ∧ SameFields s t [(.LS_VER_CNT_COUNT, [])]) ∧
  (∀ (w : Writer) (k : Fin 4) (e : RegEnv) (s : State), s.rd .BOOT_STAT_STAGE [] ≠ 15 →
    ∃ t, exec (.rcFieldRead w (BitVec.ofNat 25 (0x300064 + k)) 1 e) s = .next t ∧
      t.answer = s.rd .LS_VER_CNT_COUNT [] / 2 ^ (8 * k.val) % 256 ∧
      t.rd .LS_VER_CNT_COUNT [] = 0 ∧ SameFields s t [(.LS_VER_CNT_COUNT, [])]) ∧
  (∀ (w : Writer) (e : RegEnv) (s : State), s.rd .BOOT_STAT_STAGE [] ≠ 15 →
    ∃ t, exec (.rcFieldRead w 0x300060 8 e) s = .next t ∧ t.answer = s.rd .LS_ERR_CODE [] + s.rd .LS_ERR_SOURCE [] * 2 ^ 4 +
        s.rd .LS_ERR_VALID [] * 2 ^ 31 + s.rd .LS_VER_CNT_COUNT [] * 2 ^ 32 ∧
      t.rd .LS_VER_CNT_COUNT [] = 0 ∧ SameFields s t [(.LS_VER_CNT_COUNT, [])]) ∧
  (∀ (w : Writer) (n : Fin 8) (e : RegEnv) (s : State), s.rd .BOOT_STAT_STAGE [] ≠ 15 → s.up n = true →
    ∃ t, exec (.rcFieldRead w (BitVec.ofNat 25 (Reg.addr .SCRUB_UNC_CNT [n])) 4 e) s = .next t ∧
      t.answer = s.rd .SCRUB_UNC_CNT_COUNT [n] ∧ t.rd .SCRUB_UNC_CNT_COUNT [n] = 0 ∧
      SameFields s t [(.SCRUB_UNC_CNT_COUNT, [n])]) ∧
  (∀ (w : Writer) (n : Fin 8) (e : RegEnv) (s : State), s.rd .BOOT_STAT_STAGE [] ≠ 15 → s.up n = false →
    ∃ t, exec (.rcFieldRead w (BitVec.ofNat 25 (Reg.addr .SCRUB_UNC_CNT [n])) 4 e) s = .next t ∧ t.answer = 0xFFFFFFFF ∧
      SameFields s t []) ∧
  (∀ (w : Writer) (e : RegEnv) (s : State), ∃ t, exec (.rcFieldRead w 0x30006C 4 e) s = .next t ∧ t.answer = 0 ∧
      SameFields s t []) ∧
  (∀ (f : Fin 8) (q : Fin 1024) (e : RegEnv) (s : State), s.rd .BOOT_STAT_STAGE [] ≠ 15 → s.on .HIF_QP_ASSIGN_VALID [q] = true →
    s.rd .HIF_QP_ASSIGN_FN [q] ≠ f.val →
    ∃ t, exec (.rcFieldRead (.fn f) (BitVec.ofNat 25 (Reg.addr .HIF_QP_DONE_CNT [q])) 4 e) s = .next t ∧ t.answer = 0 ∧
      SameFields s t []) ∧
  (∀ (f : Fin 8) (q : Fin 1024) (e : RegEnv) (s : State), s.rd .BOOT_STAT_STAGE [] ≠ 15 → s.rd .HIF_QP_ASSIGN_FN [q] = f.val →
    ∃ t, exec (.rcFieldRead (.fn f) (BitVec.ofNat 25 (Reg.addr .HIF_QP_DONE_CNT [q])) 4 e) s = .next t ∧
      t.answer = s.rd .HIF_QP_DONE_CNT_COUNT [q] ∧ t.rd .HIF_QP_DONE_CNT_COUNT [q] = 0) ∧
  (∀ (w : Writer) (e : RegEnv) (s : State), s.rd .BOOT_STAT_STAGE [] = 15 →
    ∃ t, exec (.rcFieldRead w 0x300064 4 e) s = .next t ∧ t.answer = 0 ∧ SameFields s t []) ∧
  (∀ (w : Writer) (e : Fin 96) (s : State), s.rd .BOOT_STAT_STAGE [] ≠ 15 → s.up (engDie e) = true →
    ∃ t, exec (.engStepsLoRead w e) s = .next t ∧ t.answer = (s.engine e).steps % 2 ^ 32 ∧
      t.rd .ENG_STEPS_HI_COUNT [e] = (s.engine e).steps / 2 ^ 32 % 2 ^ 32 ∧ SameFields s t [(.ENG_STEPS_HI_COUNT, [e])]) ∧
  (∀ (w : Writer) (e : Fin 96) (s : State), s.rd .BOOT_STAT_STAGE [] ≠ 15 → s.up (engDie e) = false →
    ∃ t, exec (.engStepsLoRead w e) s = .next t ∧ t.answer = 0xFFFFFFFF ∧ SameFields s t []) ∧
  (∀ (w : Writer) (e : Fin 96) (s : State), s.rd .BOOT_STAT_STAGE [] ≠ 15 → s.up (engDie e) = true →
    ∃ t, exec (.fcCmpLoRead w e) s = .next t ∧ t.answer = (s.engine e).cmp % 2 ^ 32 ∧
      t.rd .FC_CMP_HI_COUNT [e] = (s.engine e).cmp / 2 ^ 32 % 2 ^ 32 ∧ SameFields s t [(.FC_CMP_HI_COUNT, [e])]) ∧
  (∀ (w : Writer) (st : Fin 4) (r : Fin 16) (h : Nat) (s : State), s.rd .BOOT_STAT_STAGE [] ≠ 15 → s.up (2 * st) = true →
    smGet s.hwm [st.val, r.val] 0 = h →
    ∃ t, exec (.sealHwmLoRead w st r) s = .next t ∧ t.answer = h % 2 ^ 32 ∧ t.hwm = s.hwm ∧
      t.rd .SEAL_HWM_HI_HWM [st, r] = h / 2 ^ 32 % 2 ^ 24 ∧ SameFields s t [(.SEAL_HWM_HI_HWM, [st, r])]) ∧
  (∀ (w : Writer) (l : Fin 224) (rx : List (BitVec 64)) (s : State), s.rd .BOOT_STAT_STAGE [] ≠ 15 → s.up (Reg.site .CL_BIT_LO [l]) = true →
    s.chkRuns false l = false →
    ∃ t, exec (.bitLoRead w false l rx) s = .next t ∧ t.answer = (s.laneRt l).bits % 2 ^ 32 ∧
      t.rd .CL_BIT_HI_COUNT [l] = (s.laneRt l).bits / 2 ^ 32 % 2 ^ 32 ∧ (t.laneRt l).bits = 0) ∧
  (∀ (w : Writer) (l : Fin 32) (rx : List (BitVec 64)) (s : State), s.rd .BOOT_STAT_STAGE [] ≠ 15 → s.up (Reg.site .TR_BIT_LO [l]) = true →
    s.chkRuns true l = false →
    ∃ t, exec (.bitLoRead w true (l.castLE (by decide)) rx) s = .next t ∧ t.answer = (s.trunkRt l).bits % 2 ^ 32 ∧
      t.rd .TR_BIT_HI_COUNT [l] = (s.trunkRt l).bits / 2 ^ 32 % 2 ^ 32 ∧ (t.trunkRt l).bits = 0) ∧
  (∀ (w : Writer) (l : Fin 224) (rx : List (BitVec 64)) (s : State), s.rd .BOOT_STAT_STAGE [] ≠ 15 →
    s.up (Reg.site .CL_BIT_LO [l]) = true → s.chkRuns false l = true →
    ∃ t, exec (.bitLoRead w false l rx) s = .next t ∧ t.answer = ((s.chkWords false l rx).laneRt l).bits % 2 ^ 32 ∧
      t.rd .CL_BIT_HI_COUNT [l] = ((s.chkWords false l rx).laneRt l).bits / 2 ^ 32 % 2 ^ 32 ∧ (t.laneRt l).bits = 0) ∧
  (∀ (w : Writer) (s : State), s.rd .BOOT_STAT_STAGE [] ≠ 15 →
    ∃ t, exec (.sxTimeFracRead w) s = .next t ∧ t.answer = tFRAC s.time16 ∧ t.rd .SX_TIME_NS_NS [] = tNS s.time16 ∧
      t.rd .SX_TIME_SL_SEC [] = tSEC s.time16 % 2 ^ 32 ∧ t.rd .SX_TIME_SH_SEC [] = tSEC s.time16 / 2 ^ 32 % 2 ^ 16 ∧
      SameFields s t [(.SX_TIME_NS_NS, []), (.SX_TIME_SL_SEC, []), (.SX_TIME_SH_SEC, [])]) ∧
  (∀ (w : Writer) (a b c d : Nat) (s : State), s.rd .BOOT_STAT_STAGE [] ≠ 15 → s.sxMeas = [a, b, c, d] →
    ∃ t, exec (.sxMeasOfsLoRead w) s = .next t ∧ t.rd .SX_MEAS_OFS_HI_VALUE [] = a % 2 ^ 32 ∧
      t.rd .SX_MEAS_MPD_LO_VALUE [] = b % 2 ^ 32 ∧ t.rd .SX_MEAS_MPD_HI_VALUE [] = c % 2 ^ 32 ∧ t.rd .SX_MEAS_SEQ_SEQ [] = d % 2 ^ 16 ∧
      t.answer = s.rd .SX_MEAS_OFS_LO_VALUE [])

/-- Register writes reach their fields only whole and on a live die; Pelorus accesses and scan instructions act by the
level their path holds. A 32-bit write of SCRUB_CTL on a die in service stores its fields, a 64-bit write both boot
words while every core is in reset, a narrow one or one to a dead die nothing, W1C clears LS_ERR.VALID. A peek above
the level ends with status 7, below level 1 all but LS_DBG_STAT; it clears nothing, a consume at level 2 clears. A
Pelorus write at level 2 stores, of the Lodestar region never, below level 2 ends with 7. Memory is read and written
by the Binnacle's port, an engine memory is refused with 1. A command while BUSY does nothing. The end gives STATUS
and data. PEL_RST takes both levels and the boot halt to 0. IDCODE reads 0x10800A6F, SAMPLE/PRELOAD captures and
preloads, the scan instructions drive the pins at level 3 and act as BYPASS below. PEL_REG reads and writes a word of
the block. Clauses that stand in R2, R3, R23, R449, R457, R483, R484, R485, R486, R487, R491, R493. (spec/00_scope.md,
spec/01_package_and_planes.md, spec/15_lodestar_security.md, spec/16_helm_cores_and_debug.md) -/
def Obligations.ThePelorusPortOpensOnlyWhatItsLevelHolds : Prop :=
  (∀ (w : Writer) (n : Fin 8) (v : BitVec 64) (e : RegEnv) (s : State), s.mute w = false → s.rd .BOOT_STAT_STAGE [] ≠ 15 →
    s.up n = true → s.rd .PWR_DIE_STAT_PSTATE [n] ≠ 2 →
    ∃ t, exec (.registerWrite w (BitVec.ofNat 25 (Reg.addr .SCRUB_CTL [n])) 4 v e) s = .next t ∧
      t.rd .SCRUB_CTL_PERIOD [n] = v.toNat % 2 ^ 16 ∧ t.rd .SCRUB_CTL_UNC_ACT [n] = v.toNat / 2 ^ 16 % 2 ∧
      SameFields s t [(.SCRUB_CTL_PERIOD, [n]), (.SCRUB_CTL_UNC_ACT, [n])]) ∧
  (∀ (w : Writer) (off : BitVec 25) (b : Nat) (v : BitVec 64) (e : RegEnv) (s : State),
    off.toNat % 4 ≠ 0 ∨ (b ≠ 4 ∧ b ≠ 8) →
    ∃ t, exec (.registerWrite w off b v e) s = .next t ∧ SameFields s t []) ∧
  (∀ (w : Writer) (n : Fin 8) (v : BitVec 64) (e : RegEnv) (s : State), s.up n = false →
    ∃ t, exec (.registerWrite w (BitVec.ofNat 25 (Reg.addr .SCRUB_CTL [n])) 4 v e) s = .next t ∧ SameFields s t []) ∧
  (∀ (w : Writer) (v : BitVec 64) (e : RegEnv) (s : State), s.mute w = false → s.rd .BOOT_STAT_STAGE [] ≠ 15 →
    (∀ c : Fin 8, s.coreState c = 0) →
    ∃ t, exec (.registerWrite w 0x500800 8 v e) s = .next t ∧ t.rd .HELM_BOOT_LO_VEC [] = Fld.of .HELM_BOOT_LO_VEC v.toNat ∧
      t.rd .HELM_BOOT_HI_VEC [] = Fld.of .HELM_BOOT_HI_VEC (v.toNat / 2 ^ 32) ∧
      SameFields s t [(.HELM_BOOT_LO_VEC, []), (.HELM_BOOT_HI_VEC, [])]) ∧
  (∀ (c : Fin 8) (v : BitVec 64) (e : RegEnv) (s : State), s.rd .BOOT_STAT_STAGE [] ≠ 15 →
    ∃ t, exec (.registerWrite (.helm c) 0x300060 4 v e) s = .next t ∧
      t.on .LS_ERR_VALID [] = (s.on .LS_ERR_VALID [] && !v.toNat.testBit 31) ∧ SameFields s t [(.LS_ERR_VALID, [])]) ∧
  (∀ (p : PelSrc) (s : State), s.pelTaken p = true → s.pelLevel (pelPath p) = 0 → s.rd .BOOT_STAT_STAGE [] ≠ 15 →
    s.rd .PEL_ADDR_LO_ADDR [pelPath p] = 0x300064 →
    ∃ t, exec (.pelPeek p) s = .next t ∧ t.pelWill p 7 none = true ∧ SameFields s t [(.PEL_STAT_BUSY, [pelPath p])]) ∧
  (∀ (p : PelSrc) (s : State), s.pelTaken p = true → 1 ≤ s.pelLevel (pelPath p) → s.rd .BOOT_STAT_STAGE [] ≠ 15 →
    s.rd .PEL_ADDR_LO_ADDR [pelPath p] = 0x300064 →
    ∃ t, exec (.pelPeek p) s = .next t ∧ t.pelWill p 0 (some (s.rd .LS_VER_CNT_COUNT [])) = true ∧
      SameFields s t [(.PEL_STAT_BUSY, [pelPath p])]) ∧
  (∀ (p : PelSrc) (s : State), s.pelTaken p = true → s.rd .BOOT_STAT_STAGE [] ≠ 15 →
    s.rd .PEL_ADDR_LO_ADDR [pelPath p] = 0x300050 →
    ∃ t, exec (.pelPeek p) s = .next t ∧ (t.pelRt (pelPath p)).status = 0 ∧
      (t.pelRt (pelPath p)).data.map (· % 16) = some (s.pelLevel 0 + 4 * s.pelLevel 1)) ∧
  (∀ (p : PelSrc) (s : State), s.mute (pelWriter p) = false → pelReaches p = true → s.on .PEL_STAT_BUSY [pelPath p] = true →
    ∃ t, exec (.pelPeek p) s = .next t ∧ t.pel = s.pel ∧ SameFields s t []) ∧
  (∀ (p : PelSrc) (e : RegEnv) (s : State), s.pelTaken p = true → s.pelLevel (pelPath p) < 2 →
    ∃ t, exec (.pelConsume p e) s = .next t ∧ t.pelWill p 7 none = true ∧ SameFields s t [(.PEL_STAT_BUSY, [pelPath p])]) ∧
  (∀ (p : PelSrc) (e : RegEnv) (s : State), s.pelTaken p = true → 2 ≤ s.pelLevel (pelPath p) → s.rd .BOOT_STAT_STAGE [] ≠ 15 →
    s.rd .PEL_ADDR_LO_ADDR [pelPath p] = 0x300064 →
    ∃ t, exec (.pelConsume p e) s = .next t ∧ t.pelWill p 0 (some (s.rd .LS_VER_CNT_COUNT [])) = true ∧
      t.rd .LS_VER_CNT_COUNT [] = 0) ∧
  (∀ (p : PelSrc) (e : RegEnv) (s : State), s.pelTaken p = true → s.pelLevel (pelPath p) < 2 → s.rd .BOOT_STAT_STAGE [] ≠ 15 →
    ∃ t, exec (.pelRegWrite p e) s = .next t ∧ t.pelWill p 7 none = true ∧ SameFields s t [(.PEL_STAT_BUSY, [pelPath p])]) ∧
  (∀ (p : PelSrc) (n : Fin 8) (v : Nat) (e : RegEnv) (s : State), s.pelTaken p = true → 2 ≤ s.pelLevel (pelPath p) →
    s.rd .BOOT_STAT_STAGE [] ≠ 15 → s.up n = true → s.rd .PWR_DIE_STAT_PSTATE [n] ≠ 2 →
    s.rd .PEL_ADDR_LO_ADDR [pelPath p] = Reg.addr .SCRUB_CTL [n] → s.rd .PEL_DATA_LO_DATA [pelPath p] = v →
    ∃ t, exec (.pelRegWrite p e) s = .next t ∧ t.pelWill p 0 none = true ∧ t.rd .SCRUB_CTL_PERIOD [n] = v % 2 ^ 16 ∧
      t.rd .SCRUB_CTL_UNC_ACT [n] = v / 2 ^ 16 % 2) ∧
  (∀ (p : PelSrc) (e : RegEnv) (s : State), s.pelTaken p = true → s.rd .BOOT_STAT_STAGE [] ≠ 15 →
    s.rd .PEL_ADDR_LO_ADDR [pelPath p] = 0x300060 →
    ∃ t, exec (.pelRegWrite p e) s = .next t ∧ SameFields s t [(.PEL_STAT_BUSY, [pelPath p])]) ∧
  (∀ (p : PelSrc) (e : RegEnv) (g x : Nat) (s : State), s.pelTaken p = true → 2 ≤ s.pelLevel (pelPath p) → s.pelAddress p = g →
    (s.gRead binMst g (e.line.toNat, e.rd)).2.1 = 0 → (s.gRead binMst g (e.line.toNat, e.rd)).1 = x →
    ∃ t, exec (.pelMemRead p e) s = .next t ∧ t.pelWill p 0 (some (x / 2 ^ (8 * (g % 64)) % 2 ^ 64)) = true) ∧
  (∀ (p : PelSrc) (e : RegEnv) (k : Fin 96) (off : Nat) (s : State), s.pelTaken p = true → 2 ≤ s.pelLevel (pelPath p) →
    placeOf (s.pelAddress p) = .window k off → s.up (engDie k) = true →
    ∃ t, exec (.pelMemRead p e) s = .next t ∧ (t.pelRt (pelPath p)).status = 1) ∧
  (∀ (p : PelSrc) (e : RegEnv) (s : State), s.pelTaken p = true → s.pelLevel (pelPath p) < 2 →
    ∃ t, exec (.pelMemRead p e) s = .next t ∧ t.pelWill p 7 none = true ∧ SameFields s t [(.PEL_STAT_BUSY, [pelPath p])]) ∧
  (∀ (p : PelSrc) (e : RegEnv) (g v : Nat) (s : State), s.pelTaken p = true → 2 ≤ s.pelLevel (pelPath p) → s.pelAddress p = g →
    s.rd .PEL_DATA_LO_DATA [pelPath p] + s.rd .PEL_DATA_HI_DATA [pelPath p] * 2 ^ 32 = v →
    (s.gRead binMst g (e.line.toNat, e.rd)).2.1 = 0 →
    ∃ t, exec (.pelMemWrite p e) s = .next t ∧ (t.pelRt (pelPath p)).data = none ∧
      (t.pelRt (pelPath p)).status = ((s.gRead binMst g (e.line.toNat, e.rd)).2.2.gWrite binMst g
        (mergeLine (s.gRead binMst g (e.line.toNat, e.rd)).1 (g % 64) (natLe v 8)) false e.wr).1 ∧
      t.hbm = ((s.gRead binMst g (e.line.toNat, e.rd)).2.2.gWrite binMst g
        (mergeLine (s.gRead binMst g (e.line.toNat, e.rd)).1 (g % 64) (natLe v 8)) false e.wr).2.hbm) ∧
  (∀ (p : PelSrc) (e : RegEnv) (s : State), s.pelTaken p = true → s.pelLevel (pelPath p) < 2 →
    ∃ t, exec (.pelMemWrite p e) s = .next t ∧ t.pelWill p 7 none = true ∧ t.hbm = s.hbm ∧
      SameFields s t [(.PEL_STAT_BUSY, [pelPath p])]) ∧
  (∀ (p : Fin 2) (v : Nat) (s : State), s.on .PEL_STAT_BUSY [p] = true → (s.pelRt p).data = some v →
    (s.pelRt p).off.all (fun a => !s.deadAt a) = true →
    ∃ t, exec (.pelAccessDone p) s = .next t ∧ t.rd .PEL_STAT_BUSY [p] = 0 ∧
      t.rd .PEL_STAT_STATUS [p] = (s.pelRt p).status % 2 ^ 8 ∧ t.rd .PEL_DATA_LO_DATA [p] = v % 2 ^ 32 ∧
      t.rd .PEL_DATA_HI_DATA [p] = v / 2 ^ 32 % 2 ^ 32 ∧ SameFields s t [(.PEL_STAT_BUSY, [p]), (.PEL_STAT_STATUS, [p]), (.PEL_DATA_LO_DATA, [p]), (.PEL_DATA_HI_DATA, [p])]) ∧
  (∀ (p : Fin 2) (s : State), s.on .PEL_STAT_BUSY [p] = true → (s.pelRt p).data = none →
    (s.pelRt p).off.all (fun a => !s.deadAt a) = true →
    ∃ t, exec (.pelAccessDone p) s = .next t ∧ t.rd .PEL_STAT_BUSY [p] = 0 ∧
      t.rd .PEL_STAT_STATUS [p] = (s.pelRt p).status % 2 ^ 8 ∧ SameFields s t [(.PEL_STAT_BUSY, [p]), (.PEL_STAT_STATUS, [p])]) ∧
  (∀ (p : Fin 2) (a : Nat) (s : State), s.on .PEL_STAT_BUSY [p] = true → (s.pelRt p).off = some a → s.deadAt a = true →
    ∃ t, exec (.pelAccessDone p) s = .next t ∧ t.rd .PEL_STAT_BUSY [p] = 0 ∧ t.rd .PEL_STAT_STATUS [p] = 2 ∧
      t.rd .PEL_DATA_LO_DATA [p] = 0xFFFFFFFF ∧ t.rd .PEL_DATA_HI_DATA [p] = 0 ∧
      SameFields s t [(.PEL_STAT_BUSY, [p]), (.PEL_STAT_STATUS, [p]), (.PEL_DATA_LO_DATA, [p]), (.PEL_DATA_HI_DATA, [p])]) ∧
  (∀ (p : Fin 2) (s : State), s.on .PEL_STAT_BUSY [p] = false → ∃ t, exec (.pelAccessDone p) s = .next t ∧ t = s) ∧
  (∀ (p : PelSrc) (s : State), s.mute (pelWriter p) = false → pelReaches p = true →
    ∃ t, exec (.pelRst p) s = .next t ∧ t.pelLevel 0 = 0 ∧ t.pelLevel 1 = 0 ∧ t.rd .PEL_BOOTHALT_MASK [] = 0 ∧ t.pel = []) ∧
  (∀ (s : State), ∃ t, exec .idcode s = .next t ∧ t.answer = 0x10800A6F ∧ t.tap.act = 0x01 ∧ SameFields s t []) ∧
  (∀ (a b : Nat) (s : State), ∃ t, exec (.samplePreload a b) s = .next t ∧ t.answer = a ∧ t.tap.chain = b ∧
      t.tap.scan = s.tap.scan ∧ t.tap.drive = s.tap.drive ∧ t.out = s.out) ∧
  (∀ (a b : Nat) (s : State), 3 ≤ s.pelLevel 0 →
    ∃ t, exec (.extest a b) s = .next t ∧ t.answer = a ∧ t.tap = { s.tap with ir := 3, act := 3, chain := b, scan := true, drive := some b } ∧
      t.out = .pin 40 b :: .pin 40 s.tap.chain :: s.out) ∧
  (∀ (a b : Nat) (s : State), s.pelLevel 0 < 3 →
    ∃ t, exec (.extest a b) s = .next t ∧ t.tap = { s.tap with ir := 3, act := 0xFF } ∧ t.out = s.out) ∧
  (∀ (a b : Nat) (s : State), 3 ≤ s.pelLevel 0 →
    ∃ t, exec (.extestPulse a b) s = .next t ∧ t.answer = a ∧ t.tap = { s.tap with ir := 4, act := 4, chain := b, scan := true, drive := some b } ∧
      t.out = .pin 41 b :: .pin 41 s.tap.chain :: s.out) ∧
  (∀ (a b : Nat) (s : State), 3 ≤ s.pelLevel 0 →
    ∃ t, exec (.extestTrain a b) s = .next t ∧ t.answer = a ∧ t.tap = { s.tap with ir := 5, act := 5, chain := b, scan := true, drive := some b } ∧
      t.out = .pin 42 b :: .pin 42 s.tap.chain :: s.out) ∧
  (∀ (s : State), 3 ≤ s.pelLevel 0 →
    ∃ t, exec .clamp s = .next t ∧ t.tap = { s.tap with ir := 6, act := 6, scan := true, drive := some s.tap.chain } ∧
      t.out = .pin 40 s.tap.chain :: s.out) ∧
  (∀ (s : State), 3 ≤ s.pelLevel 0 →
    ∃ t, exec .highz s = .next t ∧ t.tap = { s.tap with ir := 7, act := 7, scan := true, drive := none }) ∧
  (∀ (s : State), s.pelLevel 0 < 3 → ∃ t, exec .highz s = .next t ∧ t.tap = { s.tap with ir := 7, act := 0xFF }) ∧
  (∀ (v : BitVec 32) (e : RegEnv) (s : State),
    ∃ t, exec (.pelReg (BitVec.ofNat 40 (v.toNat + 3 * 2 ^ 32)) e) s = .next t ∧ t.answer % 2 ^ 32 = s.rd .PEL_DATA_LO_DATA [0] ∧
      t.answer.testBit 39 = !s.on .PEL_STAT_BUSY [0] ∧ SameFields s t []) ∧
  (∀ (v : BitVec 32) (e : RegEnv) (s : State),
    ∃ t, exec (.pelReg (BitVec.ofNat 40 (v.toNat + 2 ^ 32 + 2 ^ 38)) e) s = .next t ∧ t.rd .PEL_ADDR_LO_ADDR [0] = v.toNat ∧
      t.answer.testBit 39 = !s.on .PEL_STAT_BUSY [0] ∧ SameFields s t [(.PEL_ADDR_LO_ADDR, [0])]) ∧
  (∀ (c : BitVec 8) (s : State), c = 0xFF ∨ (8 ≤ c.toNat ∧ c.toNat ≠ 0x20) →
    ∃ t, exec (.bypass c) s = .next t ∧ t.tap = { s.tap with ir := c.toNat, act := 0xFF } ∧ SameFields s t []) ∧
  (∀ (c : BitVec 8) (s : State), 3 ≤ c.toNat → c.toNat ≤ 7 → s.pelLevel 0 < 3 →
    ∃ t, exec (.bypass c) s = .next t ∧ t.tap = { s.tap with ir := c.toNat, act := 0xFF }) ∧
  (∀ (a b : Nat) (s : State), s.pelLevel 0 < 3 →
    ∃ t, exec (.extestPulse a b) s = .next t ∧ t.tap = { s.tap with ir := 4, act := 0xFF } ∧ t.out = s.out) ∧
  (∀ (a b : Nat) (s : State), s.pelLevel 0 < 3 →
    ∃ t, exec (.extestTrain a b) s = .next t ∧ t.tap = { s.tap with ir := 5, act := 0xFF } ∧ t.out = s.out) ∧
  (∀ (s : State), s.pelLevel 0 < 3 →
    ∃ t, exec .clamp s = .next t ∧ t.tap = { s.tap with ir := 6, act := 0xFF } ∧ t.out = s.out)
end

