-- ==== Sys2Proof/Laws/SMap.lean ====
section
/-! SUPPORT. The laws of the sparse tables and of the byte memories: what is read after a write, and that every operation
keeps the canonical form. -/

namespace Sys2Proof.Machine

/-! ## Sparse tables -/

theorem smGet_smDrop {α : Type} (m : SMap α) (k j : Key) (d : α) :
    smGet (smDrop m k) j d = if k = j then d else smGet m j d := by
  induction m with
  | nil => simp [smDrop, smGet]
  | cons e r ih =>
    obtain ⟨a, v⟩ := e
    by_cases h1 : a = k
    · subst h1
      by_cases h2 : a = j <;> simp_all [smDrop, smGet]
    · by_cases h2 : a = j
      · subst h2
        simp [smDrop, smGet, h1, Ne.symm h1]
      · simp [smDrop, smGet, h1, h2, ih]

theorem smGet_smIns {α : Type} (m : SMap α) (k j : Key) (v d : α) (h : smGet m k d = d) (hn : ∀ e ∈ m, e.1 ≠ k) :
    smGet (smIns m k v) j d = if k = j then v else smGet m j d := by
  induction m with
  | nil => by_cases h2 : k = j <;> simp [smIns, smGet, h2]
  | cons e r ih =>
    obtain ⟨a, w⟩ := e
    have ha : a ≠ k := hn (a, w) (by simp)
    have hr : ∀ e ∈ r, e.1 ≠ k := fun e he => hn e (by simp [he])
    have hg : smGet r k d = d := by simpa [smGet, ha] using h
    by_cases hl : keyLt k a
    · simp only [smIns, hl, ↓reduceIte]
      by_cases h2 : k = j
      · simp [smGet, h2]
      · simp [smGet, h2]
    · by_cases h2 : a = j
      · subst h2; simp [smIns, smGet, hl, Ne.symm ha]
      · simp [smIns, smGet, hl, h2, ih hg hr]

theorem smDrop_none {α : Type} (m : SMap α) (k : Key) : ∀ e ∈ smDrop m k, e.1 ≠ k := by
  induction m with
  | nil => simp [smDrop]
  | cons e r ih =>
    obtain ⟨a, v⟩ := e
    by_cases h : a = k
    · simpa [smDrop, h] using ih
    · intro e he
      simp only [smDrop, h, ↓reduceIte, List.mem_cons] at he
      rcases he with rfl | he
      · exact h
      · exact ih e he

/-- A read after a write: the value written at its key, what was there elsewhere. -/
theorem smGet_smPut {α : Type} [DecidableEq α] (m : SMap α) (k j : Key) (v d : α) :
    smGet (smPut m k v d) j d = if k = j then v else smGet m j d := by
  unfold smPut
  split
  · rename_i h; subst h; rw [smGet_smDrop]
  · rw [smGet_smIns _ _ _ _ _ (by simp [smGet_smDrop]) (smDrop_none m k), smGet_smDrop]
    split <;> rfl

/-- Elsewhere a read does not see the write, whatever the default there. -/
theorem smGet_smPut_ne {α : Type} [DecidableEq α] (m : SMap α) (k j : Key) (v d d' : α) (h : k ≠ j) :
    smGet (smPut m k v d) j d' = smGet m j d' := by
  have hd : ∀ m : SMap α, smGet (smDrop m k) j d' = smGet m j d' := by
    intro m
    induction m with
    | nil => rfl
    | cons e r ih =>
      obtain ⟨a, w⟩ := e
      by_cases h1 : a = k
      · subst h1; simp [smDrop, smGet, h, ih]
      · simp only [smDrop, h1, ↓reduceIte, smGet, ih]
  have hi : ∀ m : SMap α, smGet (smIns m k v) j d' = smGet m j d' := by
    intro m
    induction m with
    | nil => simp [smIns, smGet, h]
    | cons e r ih =>
      obtain ⟨a, w⟩ := e
      by_cases hl : keyLt k a
      · simp [smIns, smGet, hl, h]
      · simp only [smIns, hl, smGet, ih, Bool.false_eq_true, ↓reduceIte]
  unfold smPut
  split
  · exact hd m
  · rw [hi, hd]

/-- A read of the key just written, whatever the default was. -/
@[simp] theorem smGet_smPut_same {α : Type} [DecidableEq α] (m : SMap α) (k : Key) (v d : α) :
    smGet (smPut m k v d) k d = v := by simp [smGet_smPut]

/-! ### The canonical form of a sparse table -/

theorem keyLt_irrefl (a : Key) : keyLt a a = false := by
  induction a with
  | nil => rfl
  | cons x r ih => simp [keyLt, ih]

theorem keyLt_trans {a b c : Key} (h : keyLt a b = true) (h' : keyLt b c = true) : keyLt a c = true := by
  induction a generalizing b c with
  | nil =>
    cases b with
    | nil => simp [keyLt] at h
    | cons y t => cases c <;> simp_all [keyLt]
  | cons x r ih =>
    cases b with
    | nil => simp [keyLt] at h
    | cons y t =>
      cases c with
      | nil => simp [keyLt] at h'
      | cons z u =>
        simp only [keyLt, Bool.or_eq_true, decide_eq_true_eq, Bool.and_eq_true, beq_iff_eq] at h h' ⊢
        rcases h with h | ⟨rfl, h⟩ <;> rcases h' with h' | ⟨rfl, h'⟩
        · left; omega
        · left; exact h
        · left; exact h'
        · right; exact ⟨rfl, ih h h'⟩

theorem keyLt_total {a b : Key} (h : keyLt a b = false) (hn : b ≠ a) : keyLt b a = true := by
  induction a generalizing b with
  | nil => cases b <;> simp_all [keyLt]
  | cons x r ih =>
    cases b with
    | nil => rfl
    | cons y t =>
      simp only [keyLt, Bool.or_eq_false_iff, decide_eq_false_iff_not, Bool.and_eq_false_iff, Bool.or_eq_true, decide_eq_true_eq,
        Bool.and_eq_true, beq_iff_eq, beq_eq_false_iff_ne] at h ⊢
      obtain ⟨h1, h2⟩ := h
      by_cases hxy : x = y
      · subst hxy
        right
        refine ⟨rfl, ih ?_ (fun e => hn (by rw [e]))⟩
        rcases h2 with h2 | h2
        · exact absurd rfl h2
        · exact h2
      · left; omega

/-- Keys rising: the head is below every other key. -/
def smAbove {α : Type} (k : Key) (m : SMap α) : Prop := ∀ e ∈ m, keyLt k e.1 = true

theorem smSorted_cons {α : Type} (e : Key × α) (m : SMap α) :
    smSorted (e :: m) = true ↔ smAbove e.1 m ∧ smSorted m = true := by
  induction m generalizing e with
  | nil => simp [smSorted, smAbove]
  | cons b r ih =>
    simp only [smSorted, Bool.and_eq_true, smAbove]
    constructor
    · rintro ⟨h1, h2⟩
      refine ⟨?_, h2⟩
      intro x hx
      rcases List.mem_cons.mp hx with rfl | hx
      · exact h1
      · exact keyLt_trans h1 (((ih b).mp h2).1 x hx)
    · rintro ⟨h1, h2⟩
      exact ⟨h1 b (by simp), h2⟩

theorem smAbove_smDrop {α : Type} {k j : Key} {m : SMap α} (h : smAbove k m) : smAbove k (smDrop m j) := by
  induction m with
  | nil => exact h
  | cons e r ih =>
    obtain ⟨a, v⟩ := e
    have hr : smAbove k r := fun e he => h e (by simp [he])
    by_cases ha : a = j
    · simpa [smDrop, ha] using ih hr
    · intro e he
      simp only [smDrop, ha, ↓reduceIte, List.mem_cons] at he
      rcases he with rfl | he
      · exact h _ (by simp)
      · exact ih hr e he

theorem smSorted_smDrop {α : Type} {j : Key} {m : SMap α} (h : smSorted m = true) : smSorted (smDrop m j) = true := by
  induction m with
  | nil => exact h
  | cons e r ih =>
    obtain ⟨a, v⟩ := e
    obtain ⟨h1, h2⟩ := (smSorted_cons _ _).mp h
    by_cases ha : a = j
    · simpa [smDrop, ha] using ih h2
    · simp only [smDrop, ha, ↓reduceIte]
      exact (smSorted_cons _ _).mpr ⟨smAbove_smDrop h1, ih h2⟩

theorem smAbove_smIns {α : Type} {k j : Key} {m : SMap α} {v : α} (h : smAbove k m) (hk : keyLt k j = true) :
    smAbove k (smIns m j v) := by
  induction m with
  | nil => intro e he; simp_all [smIns]
  | cons e r ih =>
    obtain ⟨a, w⟩ := e
    have hr : smAbove k r := fun e he => h e (by simp [he])
    intro x hx
    by_cases hl : keyLt j a
    · simp only [smIns, hl, ↓reduceIte, List.mem_cons] at hx
      rcases hx with rfl | hx
      · exact hk
      · exact h x (by simpa using hx)
    · simp only [smIns, hl, Bool.false_eq_true, ↓reduceIte, List.mem_cons] at hx
      rcases hx with rfl | hx
      · exact h _ (by simp)
      · exact ih hr x hx

theorem smSorted_smIns {α : Type} {j : Key} {m : SMap α} {v : α} (h : smSorted m = true) (hn : ∀ e ∈ m, e.1 ≠ j) :
    smSorted (smIns m j v) = true := by
  induction m with
  | nil => rfl
  | cons e r ih =>
    obtain ⟨a, w⟩ := e
    obtain ⟨h1, h2⟩ := (smSorted_cons _ _).mp h
    by_cases hl : keyLt j a
    · simp only [smIns, hl, ↓reduceIte]
      refine (smSorted_cons _ _).mpr ⟨?_, h⟩
      intro x hx
      rcases List.mem_cons.mp hx with rfl | hx
      · exact hl
      · exact keyLt_trans hl (h1 x hx)
    · have ha : a ≠ j := hn (a, w) (by simp)
      have haj : keyLt a j = true := keyLt_total (by simpa using hl) ha
      simp only [smIns, hl]
      exact (smSorted_cons _ _).mpr ⟨smAbove_smIns h1 haj, ih h2 (fun e he => hn e (by simp [he]))⟩

/-- A write keeps the keys rising. -/
theorem smSorted_smPut {α : Type} [DecidableEq α] {k : Key} {m : SMap α} {v d : α} (h : smSorted m = true) :
    smSorted (smPut m k v d) = true := by
  unfold smPut
  split
  · exact smSorted_smDrop h
  · exact smSorted_smIns (smSorted_smDrop h) (smDrop_none m k)

theorem mem_smDrop {α : Type} {j : Key} {m : SMap α} {e : Key × α} (h : e ∈ smDrop m j) : e ∈ m := by
  induction m with
  | nil => exact h
  | cons x r ih =>
    obtain ⟨a, v⟩ := x
    by_cases ha : a = j
    · simp only [smDrop, ha, ↓reduceIte] at h; exact List.mem_cons_of_mem _ (ih h)
    · simp only [smDrop, ha, ↓reduceIte, List.mem_cons] at h
      rcases h with rfl | h
      · simp
      · exact List.mem_cons_of_mem _ (ih h)

theorem mem_smIns {α : Type} {j : Key} {m : SMap α} {v : α} {e : Key × α} (h : e ∈ smIns m j v) : e = (j, v) ∨ e ∈ m := by
  induction m with
  | nil => simpa [smIns] using h
  | cons x r ih =>
    obtain ⟨a, w⟩ := x
    by_cases hl : keyLt j a
    · simpa [smIns, hl] using h
    · simp only [smIns, hl, Bool.false_eq_true, ↓reduceIte, List.mem_cons] at h
      rcases h with rfl | h
      · simp
      · rcases ih h with h | h
        · exact .inl h
        · exact .inr (List.mem_cons_of_mem _ h)

/-- A write keeps the canonical form. -/
theorem smWf_smPut {α : Type} [DecidableEq α] {k : Key} {m : SMap α} {v : α} {dflt : Key → α} (h : smWf m dflt = true) :
    smWf (smPut m k v (dflt k)) dflt = true := by
  simp only [smWf, Bool.and_eq_true, List.all_eq_true, Bool.not_eq_true', decide_eq_false_iff_not] at h ⊢
  refine ⟨smSorted_smPut h.1, ?_⟩
  intro e he
  unfold smPut at he
  split at he
  · exact h.2 e (mem_smDrop he)
  · rcases mem_smIns he with rfl | he
    · assumption
    · exact h.2 e (mem_smDrop he)

/-! ## Byte memories -/

theorem memGet_memDrop (m : List (Nat × Byte)) (a b : Nat) (d : Byte) :
    memGet (memDrop m a) b d = if a = b then d else memGet m b d := by
  induction m with
  | nil => simp [memDrop, memGet]
  | cons e r ih =>
    obtain ⟨x, v⟩ := e
    by_cases h1 : x = a
    · subst h1
      by_cases h2 : x = b <;> simp_all [memDrop, memGet]
    · by_cases h2 : x = b
      · subst h2
        simp [memDrop, memGet, h1, Ne.symm h1]
      · simp [memDrop, memGet, h1, h2, ih]

theorem memDrop_none (m : List (Nat × Byte)) (a : Nat) : ∀ e ∈ memDrop m a, e.1 ≠ a := by
  induction m with
  | nil => simp [memDrop]
  | cons e r ih =>
    obtain ⟨x, v⟩ := e
    by_cases h : x = a
    · simpa [memDrop, h] using ih
    · intro e he
      simp only [memDrop, h, ↓reduceIte, List.mem_cons] at he
      rcases he with rfl | he
      · exact h
      · exact ih e he

theorem memGet_memIns (m : List (Nat × Byte)) (a b : Nat) (v d : Byte) (hn : ∀ e ∈ m, e.1 ≠ a) :
    memGet (memIns m a v) b d = if a = b then v else memGet m b d := by
  induction m with
  | nil => by_cases h2 : a = b <;> simp [memIns, memGet, h2]
  | cons e r ih =>
    obtain ⟨x, w⟩ := e
    have hx : x ≠ a := hn (x, w) (by simp)
    have hr : ∀ e ∈ r, e.1 ≠ a := fun e he => hn e (by simp [he])
    by_cases hl : a < x
    · simp only [memIns, hl, ↓reduceIte]
      by_cases h2 : a = b
      · simp [memGet, h2]
      · simp [memGet, h2]
    · by_cases h2 : x = b
      · subst h2; simp [memIns, memGet, hl, Ne.symm hx]
      · simp [memIns, memGet, hl, h2, ih hr]

/-- A read after a write of one byte. -/
theorem memGet_memPut (m : List (Nat × Byte)) (a b : Nat) (v d : Byte) :
    memGet (memPut m a v d) b d = if a = b then v else memGet m b d := by
  unfold memPut
  split
  · rename_i h; subst h; rw [memGet_memDrop]
  · rw [memGet_memIns _ _ _ _ _ (memDrop_none m a), memGet_memDrop]
    split <;> rfl

/-- A store leaves every byte outside its range as it was. -/
theorem memGet_memStore_outside (bs : List Byte) (m : List (Nat × Byte)) (a b : Nat) (d : Byte)
    (h : b < a ∨ a + bs.length ≤ b) : memGet (memStore m a bs d) b d = memGet m b d := by
  induction bs generalizing m a with
  | nil => rfl
  | cons v r ih =>
    simp only [memStore]
    rw [ih _ _ (by simp only [List.length_cons] at h; omega), memGet_memPut,
      if_neg (by simp only [List.length_cons] at h; omega)]

/-- A store puts each of its bytes at its place. -/
theorem memGet_memStore_inside (bs : List Byte) (m : List (Nat × Byte)) (a n : Nat) (d : Byte) (h : n < bs.length) :
    memGet (memStore m a bs d) (a + n) d = bs[n] := by
  induction bs generalizing m a n with
  | nil => simp at h
  | cons v r ih =>
    simp only [memStore]
    cases n with
    | zero => rw [memGet_memStore_outside _ _ _ _ _ (by omega), memGet_memPut]; simp
    | succ n =>
      have := ih (memPut m a v d) (a + 1) n (by simpa using h)
      rw [show a + (n + 1) = a + 1 + n by omega, this]
      simp

/-! ### The canonical form of a byte memory -/

/-- Every address is above `a`. -/
def memAbove (a : Nat) (m : List (Nat × Byte)) : Prop := ∀ e ∈ m, a < e.1

theorem memSorted_cons (e : Nat × Byte) (m : List (Nat × Byte)) :
    memSorted (e :: m) = true ↔ memAbove e.1 m ∧ memSorted m = true := by
  induction m generalizing e with
  | nil => simp [memSorted, memAbove]
  | cons b r ih =>
    simp only [memSorted, Bool.and_eq_true, memAbove, decide_eq_true_eq]
    constructor
    · rintro ⟨h1, h2⟩
      refine ⟨?_, h2⟩
      intro x hx
      rcases List.mem_cons.mp hx with rfl | hx
      · exact h1
      · exact lt_trans h1 (((ih b).mp h2).1 x hx)
    · rintro ⟨h1, h2⟩
      exact ⟨h1 b (by simp), h2⟩

theorem mem_memDrop {a : Nat} {m : List (Nat × Byte)} {e : Nat × Byte} (h : e ∈ memDrop m a) : e ∈ m := by
  induction m with
  | nil => exact h
  | cons x r ih =>
    obtain ⟨y, v⟩ := x
    by_cases ha : y = a
    · simp only [memDrop, ha, ↓reduceIte] at h; exact List.mem_cons_of_mem _ (ih h)
    · simp only [memDrop, ha, ↓reduceIte, List.mem_cons] at h
      rcases h with rfl | h
      · simp
      · exact List.mem_cons_of_mem _ (ih h)

theorem memSorted_memDrop {a : Nat} {m : List (Nat × Byte)} (h : memSorted m = true) : memSorted (memDrop m a) = true := by
  induction m with
  | nil => exact h
  | cons e r ih =>
    obtain ⟨x, v⟩ := e
    obtain ⟨h1, h2⟩ := (memSorted_cons _ _).mp h
    by_cases ha : x = a
    · simpa [memDrop, ha] using ih h2
    · simp only [memDrop, ha, ↓reduceIte]
      exact (memSorted_cons _ _).mpr ⟨fun e he => h1 e (mem_memDrop he), ih h2⟩

theorem mem_memIns {a : Nat} {m : List (Nat × Byte)} {v : Byte} {e : Nat × Byte} (h : e ∈ memIns m a v) :
    e = (a, v) ∨ e ∈ m := by
  induction m with
  | nil => simpa [memIns] using h
  | cons x r ih =>
    obtain ⟨y, w⟩ := x
    by_cases hl : a < y
    · simpa [memIns, hl] using h
    · simp only [memIns, hl, ↓reduceIte, List.mem_cons] at h
      rcases h with rfl | h
      · simp
      · rcases ih h with h | h
        · exact .inl h
        · exact .inr (List.mem_cons_of_mem _ h)

theorem memSorted_memIns {a : Nat} {m : List (Nat × Byte)} {v : Byte} (h : memSorted m = true) (hn : ∀ e ∈ m, e.1 ≠ a) :
    memSorted (memIns m a v) = true := by
  induction m with
  | nil => rfl
  | cons e r ih =>
    obtain ⟨x, w⟩ := e
    obtain ⟨h1, h2⟩ := (memSorted_cons _ _).mp h
    by_cases hl : a < x
    · simp only [memIns, hl, ↓reduceIte]
      refine (memSorted_cons _ _).mpr ⟨?_, h⟩
      intro y hy
      rcases List.mem_cons.mp hy with rfl | hy
      · exact hl
      · exact lt_trans hl (h1 y hy)
    · have hx : x ≠ a := hn (x, w) (by simp)
      simp only [memIns, hl, ↓reduceIte]
      refine (memSorted_cons _ _).mpr ⟨?_, ih h2 (fun e he => hn e (by simp [he]))⟩
      intro y hy
      rcases mem_memIns hy with rfl | hy
      · show x < a; omega
      · exact h1 y hy

theorem memWf_iff (m : List (Nat × Byte)) (d : Byte) :
    memWf m d = true ↔ memSorted m = true ∧ ∀ e ∈ m, e.2 ≠ d := by
  simp [memWf]

/-- Writing a byte keeps the canonical form. -/
theorem memWf_memPut {m : List (Nat × Byte)} {a : Nat} {v d : Byte} (h : memWf m d = true) :
    memWf (memPut m a v d) d = true := by
  rw [memWf_iff] at h ⊢
  unfold memPut
  split
  · exact ⟨memSorted_memDrop h.1, fun e he => h.2 e (mem_memDrop he)⟩
  · refine ⟨memSorted_memIns (memSorted_memDrop h.1) (memDrop_none m a), fun e he => ?_⟩
    rcases mem_memIns he with rfl | he
    · assumption
    · exact h.2 e (mem_memDrop he)

/-- Storing bytes keeps the canonical form. -/
theorem memWf_memStore {bs : List Byte} {m : List (Nat × Byte)} {a : Nat} {d : Byte} (h : memWf m d = true) :
    memWf (memStore m a bs d) d = true := by
  induction bs generalizing m a with
  | nil => exact h
  | cons v r ih => exact ih (memWf_memPut h)

/-- Dropping entries keeps the canonical form. -/
theorem memWf_filter {m : List (Nat × Byte)} {d : Byte} (p : Nat × Byte → Bool) (h : memWf m d = true) :
    memWf (m.filter p) d = true := by
  rw [memWf_iff] at h ⊢
  refine ⟨?_, fun e he => h.2 e (List.mem_of_mem_filter he)⟩
  have hs := h.1
  clear h
  induction m with
  | nil => rfl
  | cons e r ih =>
    obtain ⟨h1, h2⟩ := (memSorted_cons _ _).mp hs
    rw [List.filter_cons]
    split
    · exact (memSorted_cons _ _).mpr ⟨fun x hx => h1 x (List.mem_of_mem_filter hx), ih h2⟩
    · exact ih h2

end Sys2Proof.Machine
end

