-- ==== Sys2Proof/Laws/State.lean ====
section
/-! SUPPORT. The laws of the state: what a register field reads after a write of a field, and that an update of any other
part of the state leaves every register field alone. -/

namespace Sys2Proof.Machine

/-! ## Register fields -/

theorem Fld.ctorIdx_inj {f g : Fld} (h : f.ctorIdx = g.ctorIdx) : f = g := by
  rw [← Fld.ofNat_ctorIdx f, h, Fld.ofNat_ctorIdx]

theorem fkey_inj {f g : Fld} {i j : List Nat} : fkey f i = fkey g j ↔ f = g ∧ i = j := by
  constructor
  · intro h
    simp only [fkey, List.cons.injEq] at h
    exact ⟨Fld.ctorIdx_inj h.1, h.2⟩
  · rintro ⟨rfl, rfl⟩; rfl

/-- A field reads what was written to it, cut to its width; every other field of every instance reads as before. -/
theorem State.rd_wr (s : State) (f g : Fld) (i j : List Nat) (v : Nat) :
    (s.wr f i v).rd g j = if f = g ∧ i = j then v % 2 ^ f.spec.width else s.rd g j := by
  unfold State.rd State.wr
  by_cases h : f = g ∧ i = j
  · obtain ⟨rfl, rfl⟩ := h; simp
  · rw [if_neg h]
    exact smGet_smPut_ne _ _ _ _ _ _ (fun e => h (fkey_inj.mp e))

@[simp] theorem State.rd_wr_same (s : State) (f : Fld) (i : List Nat) (v : Nat) :
    (s.wr f i v).rd f i = v % 2 ^ f.spec.width := by simp [State.rd_wr]

@[simp] theorem State.rd_wr_fld (s : State) (f g : Fld) (i j : List Nat) (v : Nat) (h : f ≠ g) :
    (s.wr f i v).rd g j = s.rd g j := by simp [State.rd_wr, h]

theorem State.rd_wr_ix (s : State) (f g : Fld) (i j : List Nat) (v : Nat) (h : i ≠ j) :
    (s.wr f i v).rd g j = s.rd g j := by simp [State.rd_wr, h]

/-! The fields by number. -/

theorem Fld.all_ctorIdx : Fld.all.map Fld.ctorIdx = List.range 665 := by decide +kernel

theorem Fld.ctorIdx_lt (f : Fld) : f.ctorIdx < 665 := by
  cases f <;> simp only [Fld.ctorIdx] <;> omega

theorem Fld.ofIdx_ctorIdx (f : Fld) : Fld.ofIdx f.ctorIdx = some f := by
  have h := congrArg (fun l => l[f.ctorIdx]?) Fld.all_ctorIdx
  simp only [List.getElem?_map, List.getElem?_range (Fld.ctorIdx_lt f), Option.map_eq_some_iff] at h
  obtain ⟨g, hg, he⟩ := h
  rw [Fld.ofIdx, hg, Fld.ctorIdx_inj he]

theorem Fld.reset_all : Fld.all.all (fun f => decide (f.spec.rst < 2 ^ f.spec.width)) = true := by decide +kernel

theorem Fld.mem_all (f : Fld) : f ∈ Fld.all := List.mem_of_getElem? (Fld.ofIdx_ctorIdx f)

theorem Fld.rst_lt (f : Fld) : f.spec.rst < 2 ^ f.spec.width := by
  simpa using List.all_eq_true.mp Fld.reset_all f (Fld.mem_all f)

/-- States with the same register table read alike. -/
theorem State.rd_of_regs {s t : State} (h : t.regs = s.regs) (f : Fld) (i : List Nat) : t.rd f i = s.rd f i := by
  simp only [State.rd, h]

/-- The table of registers keeps its order through a write. -/
theorem State.wr_sorted {s : State} (h : smSorted s.regs = true) (f : Fld) (i : List Nat) (v : Nat) :
    smSorted (s.wr f i v).regs = true := smSorted_smPut h

/-! ## A write of a register field leaves every other part of the state alone -/

@[simp] theorem State.wr_pending (s : State) (f : Fld) (i : List Nat) (v : Nat) : (s.wr f i v).pending = s.pending := rfl
@[simp] theorem State.wr_now (s : State) (f : Fld) (i : List Nat) (v : Nat) : (s.wr f i v).now = s.now := rfl
@[simp] theorem State.wr_local_ (s : State) (f : Fld) (i : List Nat) (v : Nat) : (s.wr f i v).local_ = s.local_ := rfl
@[simp] theorem State.wr_clocksUp (s : State) (f : Fld) (i : List Nat) (v : Nat) : (s.wr f i v).clocksUp = s.clocksUp := rfl
@[simp] theorem State.wr_answer (s : State) (f : Fld) (i : List Nat) (v : Nat) : (s.wr f i v).answer = s.answer := rfl
@[simp] theorem State.wr_out (s : State) (f : Fld) (i : List Nat) (v : Nat) : (s.wr f i v).out = s.out := rfl
@[simp] theorem State.wr_draws (s : State) (f : Fld) (i : List Nat) (v : Nat) : (s.wr f i v).draws = s.draws := rfl
@[simp] theorem State.wr_stewards (s : State) (f : Fld) (i : List Nat) (v : Nat) : (s.wr f i v).stewards = s.stewards := rfl
@[simp] theorem State.wr_evlog (s : State) (f : Fld) (i : List Nat) (v : Nat) : (s.wr f i v).evlog = s.evlog := rfl
@[simp] theorem State.wr_jtodo (s : State) (f : Fld) (i : List Nat) (v : Nat) : (s.wr f i v).jtodo = s.jtodo := rfl
@[simp] theorem State.wr_journal (s : State) (f : Fld) (i : List Nat) (v : Nat) : (s.wr f i v).journal = s.journal := rfl
@[simp] theorem State.wr_health (s : State) (f : Fld) (i : List Nat) (v : Nat) : (s.wr f i v).health = s.health := rfl
@[simp] theorem State.wr_repairs (s : State) (f : Fld) (i : List Nat) (v : Nat) : (s.wr f i v).repairs = s.repairs := rfl
@[simp] theorem State.wr_govs (s : State) (f : Fld) (i : List Nat) (v : Nat) : (s.wr f i v).govs = s.govs := rfl
@[simp] theorem State.wr_sec (s : State) (f : Fld) (i : List Nat) (v : Nat) : (s.wr f i v).sec = s.sec := rfl
@[simp] theorem State.wr_tree (s : State) (f : Fld) (i : List Nat) (v : Nat) : (s.wr f i v).tree = s.tree := rfl
@[simp] theorem State.wr_fab (s : State) (f : Fld) (i : List Nat) (v : Nat) : (s.wr f i v).fab = s.fab := rfl
@[simp] theorem State.wr_eng (s : State) (f : Fld) (i : List Nat) (v : Nat) : (s.wr f i v).eng = s.eng := rfl
@[simp] theorem State.wr_fixq (s : State) (f : Fld) (i : List Nat) (v : Nat) : (s.wr f i v).fixq = s.fixq := rfl
@[simp] theorem State.wr_bcasts (s : State) (f : Fld) (i : List Nat) (v : Nat) : (s.wr f i v).bcasts = s.bcasts := rfl
@[simp] theorem State.wr_hbm (s : State) (f : Fld) (i : List Nat) (v : Nat) : (s.wr f i v).hbm = s.hbm := rfl
@[simp] theorem State.wr_poison (s : State) (f : Fld) (i : List Nat) (v : Nat) : (s.wr f i v).poison = s.poison := rfl
@[simp] theorem State.wr_win (s : State) (f : Fld) (i : List Nat) (v : Nat) : (s.wr f i v).win = s.win := rfl
@[simp] theorem State.wr_flash (s : State) (f : Fld) (i : List Nat) (v : Nat) : (s.wr f i v).flash = s.flash := rfl
@[simp] theorem State.wr_rcLines (s : State) (f : Fld) (i : List Nat) (v : Nat) : (s.wr f i v).rcLines = s.rcLines := rfl
@[simp] theorem State.wr_rcMiss (s : State) (f : Fld) (i : List Nat) (v : Nat) : (s.wr f i v).rcMiss = s.rcMiss := rfl
@[simp] theorem State.wr_rcWb (s : State) (f : Fld) (i : List Nat) (v : Nat) : (s.wr f i v).rcWb = s.rcWb := rfl
@[simp] theorem State.wr_sf (s : State) (f : Fld) (i : List Nat) (v : Nat) : (s.wr f i v).sf = s.sf := rfl
@[simp] theorem State.wr_sfAge (s : State) (f : Fld) (i : List Nat) (v : Nat) : (s.wr f i v).sfAge = s.sfAge := rfl
@[simp] theorem State.wr_haIn (s : State) (f : Fld) (i : List Nat) (v : Nat) : (s.wr f i v).haIn = s.haIn := rfl
@[simp] theorem State.wr_haTx (s : State) (f : Fld) (i : List Nat) (v : Nat) : (s.wr f i v).haTx = s.haTx := rfl
@[simp] theorem State.wr_homeOut (s : State) (f : Fld) (i : List Nat) (v : Nat) : (s.wr f i v).homeOut = s.homeOut := rfl
@[simp] theorem State.wr_rcLossT (s : State) (f : Fld) (i : List Nat) (v : Nat) : (s.wr f i v).rcLossT = s.rcLossT := rfl
@[simp] theorem State.wr_seals (s : State) (f : Fld) (i : List Nat) (v : Nat) : (s.wr f i v).seals = s.seals := rfl
@[simp] theorem State.wr_leafMaj (s : State) (f : Fld) (i : List Nat) (v : Nat) : (s.wr f i v).leafMaj = s.leafMaj := rfl
@[simp] theorem State.wr_leafMin (s : State) (f : Fld) (i : List Nat) (v : Nat) : (s.wr f i v).leafMin = s.leafMin := rfl
@[simp] theorem State.wr_innerC (s : State) (f : Fld) (i : List Nat) (v : Nat) : (s.wr f i v).innerC = s.innerC := rfl
@[simp] theorem State.wr_ccache (s : State) (f : Fld) (i : List Nat) (v : Nat) : (s.wr f i v).ccache = s.ccache := rfl
@[simp] theorem State.wr_hwm (s : State) (f : Fld) (i : List Nat) (v : Nat) : (s.wr f i v).hwm = s.hwm := rfl
@[simp] theorem State.wr_lostN (s : State) (f : Fld) (i : List Nat) (v : Nat) : (s.wr f i v).lostN = s.lostN := rfl
@[simp] theorem State.wr_reenc (s : State) (f : Fld) (i : List Nat) (v : Nat) : (s.wr f i v).reenc = s.reenc := rfl
@[simp] theorem State.wr_ccT (s : State) (f : Fld) (i : List Nat) (v : Nat) : (s.wr f i v).ccT = s.ccT := rfl
@[simp] theorem State.wr_keys (s : State) (f : Fld) (i : List Nat) (v : Nat) : (s.wr f i v).keys = s.keys := rfl
@[simp] theorem State.wr_keyOp (s : State) (f : Fld) (i : List Nat) (v : Nat) : (s.wr f i v).keyOp = s.keyOp := rfl
@[simp] theorem State.wr_sessions (s : State) (f : Fld) (i : List Nat) (v : Nat) : (s.wr f i v).sessions = s.sessions := rfl
@[simp] theorem State.wr_lastSes (s : State) (f : Fld) (i : List Nat) (v : Nat) : (s.wr f i v).lastSes = s.lastSes := rfl
@[simp] theorem State.wr_hbmPort (s : State) (f : Fld) (i : List Nat) (v : Nat) : (s.wr f i v).hbmPort = s.hbmPort := rfl
@[simp] theorem State.wr_hbmPc (s : State) (f : Fld) (i : List Nat) (v : Nat) : (s.wr f i v).hbmPc = s.hbmPc := rfl
@[simp] theorem State.wr_stack (s : State) (f : Fld) (i : List Nat) (v : Nat) : (s.wr f i v).stack = s.stack := rfl
@[simp] theorem State.wr_arbs (s : State) (f : Fld) (i : List Nat) (v : Nat) : (s.wr f i v).arbs = s.arbs := rfl
@[simp] theorem State.wr_rtq (s : State) (f : Fld) (i : List Nat) (v : Nat) : (s.wr f i v).rtq = s.rtq := rfl
@[simp] theorem State.wr_ni (s : State) (f : Fld) (i : List Nat) (v : Nat) : (s.wr f i v).ni = s.ni := rfl
@[simp] theorem State.wr_bearings (s : State) (f : Fld) (i : List Nat) (v : Nat) : (s.wr f i v).bearings = s.bearings := rfl
@[simp] theorem State.wr_rtPend (s : State) (f : Fld) (i : List Nat) (v : Nat) : (s.wr f i v).rtPend = s.rtPend := rfl
@[simp] theorem State.wr_drainT (s : State) (f : Fld) (i : List Nat) (v : Nat) : (s.wr f i v).drainT = s.drainT := rfl
@[simp] theorem State.wr_gkLink (s : State) (f : Fld) (i : List Nat) (v : Nat) : (s.wr f i v).gkLink = s.gkLink := rfl
@[simp] theorem State.wr_gkDir (s : State) (f : Fld) (i : List Nat) (v : Nat) : (s.wr f i v).gkDir = s.gkDir := rfl
@[simp] theorem State.wr_gkPool (s : State) (f : Fld) (i : List Nat) (v : Nat) : (s.wr f i v).gkPool = s.gkPool := rfl
@[simp] theorem State.wr_crossIn (s : State) (f : Fld) (i : List Nat) (v : Nat) : (s.wr f i v).crossIn = s.crossIn := rfl
@[simp] theorem State.wr_lane (s : State) (f : Fld) (i : List Nat) (v : Nat) : (s.wr f i v).lane = s.lane := rfl
@[simp] theorem State.wr_trunk (s : State) (f : Fld) (i : List Nat) (v : Nat) : (s.wr f i v).trunk = s.trunk := rfl
@[simp] theorem State.wr_bundle (s : State) (f : Fld) (i : List Nat) (v : Nat) : (s.wr f i v).bundle = s.bundle := rfl
@[simp] theorem State.wr_hubDown (s : State) (f : Fld) (i : List Nat) (v : Nat) : (s.wr f i v).hubDown = s.hubDown := rfl
@[simp] theorem State.wr_rebaseDue (s : State) (f : Fld) (i : List Nat) (v : Nat) : (s.wr f i v).rebaseDue = s.rebaseDue := rfl
@[simp] theorem State.wr_qps (s : State) (f : Fld) (i : List Nat) (v : Nat) : (s.wr f i v).qps = s.qps := rfl
@[simp] theorem State.wr_rot (s : State) (f : Fld) (i : List Nat) (v : Nat) : (s.wr f i v).rot = s.rot := rfl
@[simp] theorem State.wr_vecs (s : State) (f : Fld) (i : List Nat) (v : Nat) : (s.wr f i v).vecs = s.vecs := rfl
@[simp] theorem State.wr_mail (s : State) (f : Fld) (i : List Nat) (v : Nat) : (s.wr f i v).mail = s.mail := rfl
@[simp] theorem State.wr_pcie (s : State) (f : Fld) (i : List Nat) (v : Nat) : (s.wr f i v).pcie = s.pcie := rfl
@[simp] theorem State.wr_cfgWait (s : State) (f : Fld) (i : List Nat) (v : Nat) : (s.wr f i v).cfgWait = s.cfgWait := rfl
@[simp] theorem State.wr_cfgLoad (s : State) (f : Fld) (i : List Nat) (v : Nat) : (s.wr f i v).cfgLoad = s.cfgLoad := rfl
@[simp] theorem State.wr_loadN (s : State) (f : Fld) (i : List Nat) (v : Nat) : (s.wr f i v).loadN = s.loadN := rfl
@[simp] theorem State.wr_cfg (s : State) (f : Fld) (i : List Nat) (v : Nat) : (s.wr f i v).cfg = s.cfg := rfl
@[simp] theorem State.wr_cfgMeas (s : State) (f : Fld) (i : List Nat) (v : Nat) : (s.wr f i v).cfgMeas = s.cfgMeas := rfl
@[simp] theorem State.wr_fwMeas (s : State) (f : Fld) (i : List Nat) (v : Nat) : (s.wr f i v).fwMeas = s.fwMeas := rfl
@[simp] theorem State.wr_sxq (s : State) (f : Fld) (i : List Nat) (v : Nat) : (s.wr f i v).sxq = s.sxq := rfl
@[simp] theorem State.wr_txq (s : State) (f : Fld) (i : List Nat) (v : Nat) : (s.wr f i v).txq = s.txq := rfl
@[simp] theorem State.wr_residences (s : State) (f : Fld) (i : List Nat) (v : Nat) : (s.wr f i v).residences = s.residences := rfl
@[simp] theorem State.wr_stepN (s : State) (f : Fld) (i : List Nat) (v : Nat) : (s.wr f i v).stepN = s.stepN := rfl
@[simp] theorem State.wr_rxStamp (s : State) (f : Fld) (i : List Nat) (v : Nat) : (s.wr f i v).rxStamp = s.rxStamp := rfl
@[simp] theorem State.wr_sxDiscard (s : State) (f : Fld) (i : List Nat) (v : Nat) : (s.wr f i v).sxDiscard = s.sxDiscard := rfl
@[simp] theorem State.wr_sxMeas (s : State) (f : Fld) (i : List Nat) (v : Nat) : (s.wr f i v).sxMeas = s.sxMeas := rfl
@[simp] theorem State.wr_ppsEnd (s : State) (f : Fld) (i : List Nat) (v : Nat) : (s.wr f i v).ppsEnd = s.ppsEnd := rfl
@[simp] theorem State.wr_spinePull (s : State) (f : Fld) (i : List Nat) (v : Nat) : (s.wr f i v).spinePull = s.spinePull := rfl
@[simp] theorem State.wr_anchorE (s : State) (f : Fld) (i : List Nat) (v : Nat) : (s.wr f i v).anchorE = s.anchorE := rfl
@[simp] theorem State.wr_anchorT (s : State) (f : Fld) (i : List Nat) (v : Nat) : (s.wr f i v).anchorT = s.anchorT := rfl
@[simp] theorem State.wr_synth (s : State) (f : Fld) (i : List Nat) (v : Nat) : (s.wr f i v).synth = s.synth := rfl
@[simp] theorem State.wr_fvs (s : State) (f : Fld) (i : List Nat) (v : Nat) : (s.wr f i v).fvs = s.fvs := rfl
@[simp] theorem State.wr_dieRt (s : State) (f : Fld) (i : List Nat) (v : Nat) : (s.wr f i v).dieRt = s.dieRt := rfl
@[simp] theorem State.wr_hold (s : State) (f : Fld) (i : List Nat) (v : Nat) : (s.wr f i v).hold = s.hold := rfl
@[simp] theorem State.wr_relq (s : State) (f : Fld) (i : List Nat) (v : Nat) : (s.wr f i v).relq = s.relq := rfl
@[simp] theorem State.wr_rstq (s : State) (f : Fld) (i : List Nat) (v : Nat) : (s.wr f i v).rstq = s.rstq := rfl
@[simp] theorem State.wr_flashMode (s : State) (f : Fld) (i : List Nat) (v : Nat) : (s.wr f i v).flashMode = s.flashMode := rfl
@[simp] theorem State.wr_stage2T (s : State) (f : Fld) (i : List Nat) (v : Nat) : (s.wr f i v).stage2T = s.stage2T := rfl
@[simp] theorem State.wr_auto (s : State) (f : Fld) (i : List Nat) (v : Nat) : (s.wr f i v).auto = s.auto := rfl
@[simp] theorem State.wr_noAuto (s : State) (f : Fld) (i : List Nat) (v : Nat) : (s.wr f i v).noAuto = s.noAuto := rfl
@[simp] theorem State.wr_warm (s : State) (f : Fld) (i : List Nat) (v : Nat) : (s.wr f i v).warm = s.warm := rfl
@[simp] theorem State.wr_warmT (s : State) (f : Fld) (i : List Nat) (v : Nat) : (s.wr f i v).warmT = s.warmT := rfl
@[simp] theorem State.wr_rstUnlock (s : State) (f : Fld) (i : List Nat) (v : Nat) : (s.wr f i v).rstUnlock = s.rstUnlock := rfl
@[simp] theorem State.wr_tele (s : State) (f : Fld) (i : List Nat) (v : Nat) : (s.wr f i v).tele = s.tele := rfl
@[simp] theorem State.wr_ioOff (s : State) (f : Fld) (i : List Nat) (v : Nat) : (s.wr f i v).ioOff = s.ioOff := rfl
@[simp] theorem State.wr_lsFuse (s : State) (f : Fld) (i : List Nat) (v : Nat) : (s.wr f i v).lsFuse = s.lsFuse := rfl
@[simp] theorem State.wr_transport (s : State) (f : Fld) (i : List Nat) (v : Nat) : (s.wr f i v).transport = s.transport := rfl
@[simp] theorem State.wr_trngT (s : State) (f : Fld) (i : List Nat) (v : Nat) : (s.wr f i v).trngT = s.trngT := rfl
@[simp] theorem State.wr_trngSaid (s : State) (f : Fld) (i : List Nat) (v : Nat) : (s.wr f i v).trngSaid = s.trngSaid := rfl
@[simp] theorem State.wr_dbgWait (s : State) (f : Fld) (i : List Nat) (v : Nat) : (s.wr f i v).dbgWait = s.dbgWait := rfl
@[simp] theorem State.wr_rcvN (s : State) (f : Fld) (i : List Nat) (v : Nat) : (s.wr f i v).rcvN = s.rcvN := rfl
@[simp] theorem State.wr_flashOp (s : State) (f : Fld) (i : List Nat) (v : Nat) : (s.wr f i v).flashOp = s.flashOp := rfl
@[simp] theorem State.wr_helm (s : State) (f : Fld) (i : List Nat) (v : Nat) : (s.wr f i v).helm = s.helm := rfl
@[simp] theorem State.wr_helmL1 (s : State) (f : Fld) (i : List Nat) (v : Nat) : (s.wr f i v).helmL1 = s.helmL1 := rfl
@[simp] theorem State.wr_helmL2 (s : State) (f : Fld) (i : List Nat) (v : Nat) : (s.wr f i v).helmL2 = s.helmL2 := rfl
@[simp] theorem State.wr_flashC (s : State) (f : Fld) (i : List Nat) (v : Nat) : (s.wr f i v).flashC = s.flashC := rfl
@[simp] theorem State.wr_irqLine (s : State) (f : Fld) (i : List Nat) (v : Nat) : (s.wr f i v).irqLine = s.irqLine := rfl
@[simp] theorem State.wr_pel (s : State) (f : Fld) (i : List Nat) (v : Nat) : (s.wr f i v).pel = s.pel := rfl
@[simp] theorem State.wr_tap (s : State) (f : Fld) (i : List Nat) (v : Nat) : (s.wr f i v).tap = s.tap := rfl
@[simp] theorem State.wr_scrub (s : State) (f : Fld) (i : List Nat) (v : Nat) : (s.wr f i v).scrub = s.scrub := rfl

/-! ## An update of any other part of the state leaves every register field alone -/

@[simp] theorem State.rd_with_pending (s : State) (x : List Instr) (f : Fld) (i : List Nat) :
    ({ s with pending := x } : State).rd f i = s.rd f i := rfl
@[simp] theorem State.rd_with_now (s : State) (x : Nat) (f : Fld) (i : List Nat) :
    ({ s with now := x } : State).rd f i = s.rd f i := rfl
@[simp] theorem State.rd_with_local_ (s : State) (x : Nat) (f : Fld) (i : List Nat) :
    ({ s with local_ := x } : State).rd f i = s.rd f i := rfl
@[simp] theorem State.rd_with_clocksUp (s : State) (x : Bool) (f : Fld) (i : List Nat) :
    ({ s with clocksUp := x } : State).rd f i = s.rd f i := rfl
@[simp] theorem State.rd_with_answer (s : State) (x : Nat) (f : Fld) (i : List Nat) :
    ({ s with answer := x } : State).rd f i = s.rd f i := rfl
@[simp] theorem State.rd_with_out (s : State) (x : List Out) (f : Fld) (i : List Nat) :
    ({ s with out := x } : State).rd f i = s.rd f i := rfl
@[simp] theorem State.rd_with_draws (s : State) (x : Nat) (f : Fld) (i : List Nat) :
    ({ s with draws := x } : State).rd f i = s.rd f i := rfl
@[simp] theorem State.rd_with_stewards (s : State) (x : SMap Steward) (f : Fld) (i : List Nat) :
    ({ s with stewards := x } : State).rd f i = s.rd f i := rfl
@[simp] theorem State.rd_with_evlog (s : State) (x : SMap (Option LogRec)) (f : Fld) (i : List Nat) :
    ({ s with evlog := x } : State).rd f i = s.rd f i := rfl
@[simp] theorem State.rd_with_jtodo (s : State) (x : List LogRec) (f : Fld) (i : List Nat) :
    ({ s with jtodo := x } : State).rd f i = s.rd f i := rfl
@[simp] theorem State.rd_with_journal (s : State) (x : List LogRec) (f : Fld) (i : List Nat) :
    ({ s with journal := x } : State).rd f i = s.rd f i := rfl
@[simp] theorem State.rd_with_health (s : State) (x : SMap Health) (f : Fld) (i : List Nat) :
    ({ s with health := x } : State).rd f i = s.rd f i := rfl
@[simp] theorem State.rd_with_repairs (s : State) (x : List (List Nat)) (f : Fld) (i : List Nat) :
    ({ s with repairs := x } : State).rd f i = s.rd f i := rfl
@[simp] theorem State.rd_with_govs (s : State) (x : SMap Gov) (f : Fld) (i : List Nat) :
    ({ s with govs := x } : State).rd f i = s.rd f i := rfl
@[simp] theorem State.rd_with_sec (s : State) (x : SMap SecRt) (f : Fld) (i : List Nat) :
    ({ s with sec := x } : State).rd f i = s.rd f i := rfl
@[simp] theorem State.rd_with_tree (s : State) (x : SMap TreeRt) (f : Fld) (i : List Nat) :
    ({ s with tree := x } : State).rd f i = s.rd f i := rfl
@[simp] theorem State.rd_with_fab (s : State) (x : Fab) (f : Fld) (i : List Nat) :
    ({ s with fab := x } : State).rd f i = s.rd f i := rfl
@[simp] theorem State.rd_with_eng (s : State) (x : SMap EngRt) (f : Fld) (i : List Nat) :
    ({ s with eng := x } : State).rd f i = s.rd f i := rfl
@[simp] theorem State.rd_with_fixq (s : State) (x : List FixOp) (f : Fld) (i : List Nat) :
    ({ s with fixq := x } : State).rd f i = s.rd f i := rfl
@[simp] theorem State.rd_with_bcasts (s : State) (x : List Bcast) (f : Fld) (i : List Nat) :
    ({ s with bcasts := x } : State).rd f i = s.rd f i := rfl
@[simp] theorem State.rd_with_hbm (s : State) (x : List Host.Cell) (f : Fld) (i : List Nat) :
    ({ s with hbm := x } : State).rd f i = s.rd f i := rfl
@[simp] theorem State.rd_with_poison (s : State) (x : List Nat) (f : Fld) (i : List Nat) :
    ({ s with poison := x } : State).rd f i = s.rd f i := rfl
@[simp] theorem State.rd_with_win (s : State) (x : List Host.Cell) (f : Fld) (i : List Nat) :
    ({ s with win := x } : State).rd f i = s.rd f i := rfl
@[simp] theorem State.rd_with_flash (s : State) (x : List Host.Cell) (f : Fld) (i : List Nat) :
    ({ s with flash := x } : State).rd f i = s.rd f i := rfl
@[simp] theorem State.rd_with_rcLines (s : State) (x : SMap RcLine) (f : Fld) (i : List Nat) :
    ({ s with rcLines := x } : State).rd f i = s.rd f i := rfl
@[simp] theorem State.rd_with_rcMiss (s : State) (x : SMap RcMiss) (f : Fld) (i : List Nat) :
    ({ s with rcMiss := x } : State).rd f i = s.rd f i := rfl
@[simp] theorem State.rd_with_rcWb (s : State) (x : SMap (List RcWb)) (f : Fld) (i : List Nat) :
    ({ s with rcWb := x } : State).rd f i = s.rd f i := rfl
@[simp] theorem State.rd_with_sf (s : State) (x : SMap SfEnt) (f : Fld) (i : List Nat) :
    ({ s with sf := x } : State).rd f i = s.rd f i := rfl
@[simp] theorem State.rd_with_sfAge (s : State) (x : Nat) (f : Fld) (i : List Nat) :
    ({ s with sfAge := x } : State).rd f i = s.rd f i := rfl
@[simp] theorem State.rd_with_haIn (s : State) (x : SMap (List HaReq)) (f : Fld) (i : List Nat) :
    ({ s with haIn := x } : State).rd f i = s.rd f i := rfl
@[simp] theorem State.rd_with_haTx (s : State) (x : SMap HaTx) (f : Fld) (i : List Nat) :
    ({ s with haTx := x } : State).rd f i = s.rd f i := rfl
@[simp] theorem State.rd_with_homeOut (s : State) (x : List Nat) (f : Fld) (i : List Nat) :
    ({ s with homeOut := x } : State).rd f i = s.rd f i := rfl
@[simp] theorem State.rd_with_rcLossT (s : State) (x : SMap Nat) (f : Fld) (i : List Nat) :
    ({ s with rcLossT := x } : State).rd f i = s.rd f i := rfl
@[simp] theorem State.rd_with_seals (s : State) (x : SMap SealRt) (f : Fld) (i : List Nat) :
    ({ s with seals := x } : State).rd f i = s.rd f i := rfl
@[simp] theorem State.rd_with_leafMaj (s : State) (x : SMap Nat) (f : Fld) (i : List Nat) :
    ({ s with leafMaj := x } : State).rd f i = s.rd f i := rfl
@[simp] theorem State.rd_with_leafMin (s : State) (x : SMap Nat) (f : Fld) (i : List Nat) :
    ({ s with leafMin := x } : State).rd f i = s.rd f i := rfl
@[simp] theorem State.rd_with_innerC (s : State) (x : SMap Nat) (f : Fld) (i : List Nat) :
    ({ s with innerC := x } : State).rd f i = s.rd f i := rfl
@[simp] theorem State.rd_with_ccache (s : State) (x : SMap Nat) (f : Fld) (i : List Nat) :
    ({ s with ccache := x } : State).rd f i = s.rd f i := rfl
@[simp] theorem State.rd_with_hwm (s : State) (x : SMap Nat) (f : Fld) (i : List Nat) :
    ({ s with hwm := x } : State).rd f i = s.rd f i := rfl
@[simp] theorem State.rd_with_lostN (s : State) (x : SMap Bool) (f : Fld) (i : List Nat) :
    ({ s with lostN := x } : State).rd f i = s.rd f i := rfl
@[simp] theorem State.rd_with_reenc (s : State) (x : SMap (List Reenc)) (f : Fld) (i : List Nat) :
    ({ s with reenc := x } : State).rd f i = s.rd f i := rfl
@[simp] theorem State.rd_with_ccT (s : State) (x : SMap Nat) (f : Fld) (i : List Nat) :
    ({ s with ccT := x } : State).rd f i = s.rd f i := rfl
@[simp] theorem State.rd_with_keys (s : State) (x : SMap Nat) (f : Fld) (i : List Nat) :
    ({ s with keys := x } : State).rd f i = s.rd f i := rfl
@[simp] theorem State.rd_with_keyOp (s : State) (x : SMap (List Nat)) (f : Fld) (i : List Nat) :
    ({ s with keyOp := x } : State).rd f i = s.rd f i := rfl
@[simp] theorem State.rd_with_sessions (s : State) (x : SMap (Option LsSession)) (f : Fld) (i : List Nat) :
    ({ s with sessions := x } : State).rd f i = s.rd f i := rfl
@[simp] theorem State.rd_with_lastSes (s : State) (x : Nat) (f : Fld) (i : List Nat) :
    ({ s with lastSes := x } : State).rd f i = s.rd f i := rfl
@[simp] theorem State.rd_with_hbmPort (s : State) (x : SMap (List HbmReq)) (f : Fld) (i : List Nat) :
    ({ s with hbmPort := x } : State).rd f i = s.rd f i := rfl
@[simp] theorem State.rd_with_hbmPc (s : State) (x : SMap PcRt) (f : Fld) (i : List Nat) :
    ({ s with hbmPc := x } : State).rd f i = s.rd f i := rfl
@[simp] theorem State.rd_with_stack (s : State) (x : SMap StackRt) (f : Fld) (i : List Nat) :
    ({ s with stack := x } : State).rd f i = s.rd f i := rfl
@[simp] theorem State.rd_with_arbs (s : State) (x : SMap Arb) (f : Fld) (i : List Nat) :
    ({ s with arbs := x } : State).rd f i = s.rd f i := rfl
@[simp] theorem State.rd_with_rtq (s : State) (x : SMap (List Pkt)) (f : Fld) (i : List Nat) :
    ({ s with rtq := x } : State).rd f i = s.rd f i := rfl
@[simp] theorem State.rd_with_ni (s : State) (x : SMap NiRt) (f : Fld) (i : List Nat) :
    ({ s with ni := x } : State).rd f i = s.rd f i := rfl
@[simp] theorem State.rd_with_bearings (s : State) (x : SMap (List Nat)) (f : Fld) (i : List Nat) :
    ({ s with bearings := x } : State).rd f i = s.rd f i := rfl
@[simp] theorem State.rd_with_rtPend (s : State) (x : SMap (Option (Nat × Nat))) (f : Fld) (i : List Nat) :
    ({ s with rtPend := x } : State).rd f i = s.rd f i := rfl
@[simp] theorem State.rd_with_drainT (s : State) (x : SMap Nat) (f : Fld) (i : List Nat) :
    ({ s with drainT := x } : State).rd f i = s.rd f i := rfl
@[simp] theorem State.rd_with_gkLink (s : State) (x : SMap GkLink) (f : Fld) (i : List Nat) :
    ({ s with gkLink := x } : State).rd f i = s.rd f i := rfl
@[simp] theorem State.rd_with_gkDir (s : State) (x : SMap GkDir) (f : Fld) (i : List Nat) :
    ({ s with gkDir := x } : State).rd f i = s.rd f i := rfl
@[simp] theorem State.rd_with_gkPool (s : State) (x : SMap GkPool) (f : Fld) (i : List Nat) :
    ({ s with gkPool := x } : State).rd f i = s.rd f i := rfl
@[simp] theorem State.rd_with_crossIn (s : State) (x : SMap CrossIn) (f : Fld) (i : List Nat) :
    ({ s with crossIn := x } : State).rd f i = s.rd f i := rfl
@[simp] theorem State.rd_with_lane (s : State) (x : SMap LaneRt) (f : Fld) (i : List Nat) :
    ({ s with lane := x } : State).rd f i = s.rd f i := rfl
@[simp] theorem State.rd_with_trunk (s : State) (x : SMap LaneRt) (f : Fld) (i : List Nat) :
    ({ s with trunk := x } : State).rd f i = s.rd f i := rfl
@[simp] theorem State.rd_with_bundle (s : State) (x : SMap BundleRt) (f : Fld) (i : List Nat) :
    ({ s with bundle := x } : State).rd f i = s.rd f i := rfl
@[simp] theorem State.rd_with_hubDown (s : State) (x : Bool) (f : Fld) (i : List Nat) :
    ({ s with hubDown := x } : State).rd f i = s.rd f i := rfl
@[simp] theorem State.rd_with_rebaseDue (s : State) (x : Bool) (f : Fld) (i : List Nat) :
    ({ s with rebaseDue := x } : State).rd f i = s.rd f i := rfl
@[simp] theorem State.rd_with_qps (s : State) (x : SMap QpRt) (f : Fld) (i : List Nat) :
    ({ s with qps := x } : State).rd f i = s.rd f i := rfl
@[simp] theorem State.rd_with_rot (s : State) (x : SMap Nat) (f : Fld) (i : List Nat) :
    ({ s with rot := x } : State).rd f i = s.rd f i := rfl
@[simp] theorem State.rd_with_vecs (s : State) (x : SMap VecRt) (f : Fld) (i : List Nat) :
    ({ s with vecs := x } : State).rd f i = s.rd f i := rfl
@[simp] theorem State.rd_with_mail (s : State) (x : List Mail) (f : Fld) (i : List Nat) :
    ({ s with mail := x } : State).rd f i = s.rd f i := rfl
@[simp] theorem State.rd_with_pcie (s : State) (x : SMap Nat) (f : Fld) (i : List Nat) :
    ({ s with pcie := x } : State).rd f i = s.rd f i := rfl
@[simp] theorem State.rd_with_cfgWait (s : State) (x : List (Nat × Nat)) (f : Fld) (i : List Nat) :
    ({ s with cfgWait := x } : State).rd f i = s.rd f i := rfl
@[simp] theorem State.rd_with_cfgLoad (s : State) (x : CfgLoad) (f : Fld) (i : List Nat) :
    ({ s with cfgLoad := x } : State).rd f i = s.rd f i := rfl
@[simp] theorem State.rd_with_loadN (s : State) (x : Nat) (f : Fld) (i : List Nat) :
    ({ s with loadN := x } : State).rd f i = s.rd f i := rfl
@[simp] theorem State.rd_with_cfg (s : State) (x : SMap Nat) (f : Fld) (i : List Nat) :
    ({ s with cfg := x } : State).rd f i = s.rd f i := rfl
@[simp] theorem State.rd_with_cfgMeas (s : State) (x : Nat) (f : Fld) (i : List Nat) :
    ({ s with cfgMeas := x } : State).rd f i = s.rd f i := rfl
@[simp] theorem State.rd_with_fwMeas (s : State) (x : Nat) (f : Fld) (i : List Nat) :
    ({ s with fwMeas := x } : State).rd f i = s.rd f i := rfl
@[simp] theorem State.rd_with_sxq (s : State) (x : List SxReq) (f : Fld) (i : List Nat) :
    ({ s with sxq := x } : State).rd f i = s.rd f i := rfl
@[simp] theorem State.rd_with_txq (s : State) (x : SMap (List TxStamp)) (f : Fld) (i : List Nat) :
    ({ s with txq := x } : State).rd f i = s.rd f i := rfl
@[simp] theorem State.rd_with_residences (s : State) (x : List Residence) (f : Fld) (i : List Nat) :
    ({ s with residences := x } : State).rd f i = s.rd f i := rfl
@[simp] theorem State.rd_with_stepN (s : State) (x : Nat) (f : Fld) (i : List Nat) :
    ({ s with stepN := x } : State).rd f i = s.rd f i := rfl
@[simp] theorem State.rd_with_rxStamp (s : State) (x : SMap (Option Nat)) (f : Fld) (i : List Nat) :
    ({ s with rxStamp := x } : State).rd f i = s.rd f i := rfl
@[simp] theorem State.rd_with_sxDiscard (s : State) (x : SMap Nat) (f : Fld) (i : List Nat) :
    ({ s with sxDiscard := x } : State).rd f i = s.rd f i := rfl
@[simp] theorem State.rd_with_sxMeas (s : State) (x : List Nat) (f : Fld) (i : List Nat) :
    ({ s with sxMeas := x } : State).rd f i = s.rd f i := rfl
@[simp] theorem State.rd_with_ppsEnd (s : State) (x : Option Nat) (f : Fld) (i : List Nat) :
    ({ s with ppsEnd := x } : State).rd f i = s.rd f i := rfl
@[simp] theorem State.rd_with_spinePull (s : State) (x : Int) (f : Fld) (i : List Nat) :
    ({ s with spinePull := x } : State).rd f i = s.rd f i := rfl
@[simp] theorem State.rd_with_anchorE (s : State) (x : Nat) (f : Fld) (i : List Nat) :
    ({ s with anchorE := x } : State).rd f i = s.rd f i := rfl
@[simp] theorem State.rd_with_anchorT (s : State) (x : Nat) (f : Fld) (i : List Nat) :
    ({ s with anchorT := x } : State).rd f i = s.rd f i := rfl
@[simp] theorem State.rd_with_synth (s : State) (x : SMap Synth) (f : Fld) (i : List Nat) :
    ({ s with synth := x } : State).rd f i = s.rd f i := rfl
@[simp] theorem State.rd_with_fvs (s : State) (x : SMap Fvs) (f : Fld) (i : List Nat) :
    ({ s with fvs := x } : State).rd f i = s.rd f i := rfl
@[simp] theorem State.rd_with_dieRt (s : State) (x : SMap DieRt) (f : Fld) (i : List Nat) :
    ({ s with dieRt := x } : State).rd f i = s.rd f i := rfl
@[simp] theorem State.rd_with_hold (s : State) (x : Nat) (f : Fld) (i : List Nat) :
    ({ s with hold := x } : State).rd f i = s.rd f i := rfl
@[simp] theorem State.rd_with_relq (s : State) (x : List Nat) (f : Fld) (i : List Nat) :
    ({ s with relq := x } : State).rd f i = s.rd f i := rfl
@[simp] theorem State.rd_with_rstq (s : State) (x : List Nat) (f : Fld) (i : List Nat) :
    ({ s with rstq := x } : State).rd f i = s.rd f i := rfl
@[simp] theorem State.rd_with_flashMode (s : State) (x : Nat) (f : Fld) (i : List Nat) :
    ({ s with flashMode := x } : State).rd f i = s.rd f i := rfl
@[simp] theorem State.rd_with_stage2T (s : State) (x : Nat) (f : Fld) (i : List Nat) :
    ({ s with stage2T := x } : State).rd f i = s.rd f i := rfl
@[simp] theorem State.rd_with_auto (s : State) (x : Option (Nat × Nat × Bool)) (f : Fld) (i : List Nat) :
    ({ s with auto := x } : State).rd f i = s.rd f i := rfl
@[simp] theorem State.rd_with_noAuto (s : State) (x : Bool) (f : Fld) (i : List Nat) :
    ({ s with noAuto := x } : State).rd f i = s.rd f i := rfl
@[simp] theorem State.rd_with_warm (s : State) (x : Bool) (f : Fld) (i : List Nat) :
    ({ s with warm := x } : State).rd f i = s.rd f i := rfl
@[simp] theorem State.rd_with_warmT (s : State) (x : Option Nat) (f : Fld) (i : List Nat) :
    ({ s with warmT := x } : State).rd f i = s.rd f i := rfl
@[simp] theorem State.rd_with_rstUnlock (s : State) (x : Option (Nat × Nat)) (f : Fld) (i : List Nat) :
    ({ s with rstUnlock := x } : State).rd f i = s.rd f i := rfl
@[simp] theorem State.rd_with_tele (s : State) (x : SMap LifeRt) (f : Fld) (i : List Nat) :
    ({ s with tele := x } : State).rd f i = s.rd f i := rfl
@[simp] theorem State.rd_with_ioOff (s : State) (x : SMap Bool) (f : Fld) (i : List Nat) :
    ({ s with ioOff := x } : State).rd f i = s.rd f i := rfl
@[simp] theorem State.rd_with_lsFuse (s : State) (x : SMap Nat) (f : Fld) (i : List Nat) :
    ({ s with lsFuse := x } : State).rd f i = s.rd f i := rfl
@[simp] theorem State.rd_with_transport (s : State) (x : SMap Nat) (f : Fld) (i : List Nat) :
    ({ s with transport := x } : State).rd f i = s.rd f i := rfl
@[simp] theorem State.rd_with_trngT (s : State) (x : Option Nat) (f : Fld) (i : List Nat) :
    ({ s with trngT := x } : State).rd f i = s.rd f i := rfl
@[simp] theorem State.rd_with_trngSaid (s : State) (x : Bool) (f : Fld) (i : List Nat) :
    ({ s with trngSaid := x } : State).rd f i = s.rd f i := rfl
@[simp] theorem State.rd_with_dbgWait (s : State) (x : Nat) (f : Fld) (i : List Nat) :
    ({ s with dbgWait := x } : State).rd f i = s.rd f i := rfl
@[simp] theorem State.rd_with_rcvN (s : State) (x : Nat) (f : Fld) (i : List Nat) :
    ({ s with rcvN := x } : State).rd f i = s.rd f i := rfl
@[simp] theorem State.rd_with_flashOp (s : State) (x : Option FlashOp) (f : Fld) (i : List Nat) :
    ({ s with flashOp := x } : State).rd f i = s.rd f i := rfl
@[simp] theorem State.rd_with_helm (s : State) (x : SMap HelmRt) (f : Fld) (i : List Nat) :
    ({ s with helm := x } : State).rd f i = s.rd f i := rfl
@[simp] theorem State.rd_with_helmL1 (s : State) (x : SMap (Option HelmLine)) (f : Fld) (i : List Nat) :
    ({ s with helmL1 := x } : State).rd f i = s.rd f i := rfl
@[simp] theorem State.rd_with_helmL2 (s : State) (x : SMap (Option HelmLine)) (f : Fld) (i : List Nat) :
    ({ s with helmL2 := x } : State).rd f i = s.rd f i := rfl
@[simp] theorem State.rd_with_flashC (s : State) (x : SMap (Option Nat)) (f : Fld) (i : List Nat) :
    ({ s with flashC := x } : State).rd f i = s.rd f i := rfl
@[simp] theorem State.rd_with_irqLine (s : State) (x : SMap Bool) (f : Fld) (i : List Nat) :
    ({ s with irqLine := x } : State).rd f i = s.rd f i := rfl
@[simp] theorem State.rd_with_pel (s : State) (x : SMap PelRt) (f : Fld) (i : List Nat) :
    ({ s with pel := x } : State).rd f i = s.rd f i := rfl
@[simp] theorem State.rd_with_tap (s : State) (x : TapRt) (f : Fld) (i : List Nat) :
    ({ s with tap := x } : State).rd f i = s.rd f i := rfl
@[simp] theorem State.rd_with_scrub (s : State) (x : SMap ScrubRt) (f : Fld) (i : List Nat) :
    ({ s with scrub := x } : State).rd f i = s.rd f i := rfl

end Sys2Proof.Machine
end

