-- ==== Sys2Proof/Laws/Keeps.lean ====
section
/-! SUPPORT. What the operations of the machine keep: a property of states that survives the changes an operation may make
(`Keeps P L R`) holds after it if it held before. The files `Keeps<Name>` say this once for each operation of
`Machine/<Name>.lean`, with the parts `P` and the fields `L` that the operation may change. The canonical form of the
memories, of the register table and the commands that wait are such properties, and so is every frame. -/

namespace Sys2Proof.Machine

/-- A property of states that the operations of the machine keep as long as they change only the parts of `P` and, of the
registers, only the fields of `L`, keep the canonical form of the byte memories, and leave the waiting commands. -/
structure Keeps (P : List Part) (L : FSet) (R : State → Prop) : Prop where
  wr : ∀ {s : State} (f : Fld) (i : List Nat) (v : Nat), P.contains .regs = true → hasFld L f = true → R s → R (s.wr f i v)
  clear : ∀ {s : State} (p : Fld → List Nat → Bool), P.contains .regs = true → (∀ f i, p f i = true → hasFld L f = true) → R s → R (s.clearRegs p)
  upd : ∀ {s : State}
    {x_now : Nat} {x_local_ : Nat} {x_clocksUp : Bool} {x_answer : Nat} {x_out : List Out} {x_draws : Nat}
    {x_stewards : SMap Steward} {x_evlog : SMap (Option LogRec)} {x_jtodo : List LogRec} {x_journal : List
    LogRec} {x_health : SMap Health} {x_repairs : List (List Nat)} {x_govs : SMap Gov} {x_sec : SMap SecRt}
    {x_tree : SMap TreeRt} {x_fab : Fab} {x_eng : SMap EngRt} {x_fixq : List FixOp} {x_bcasts : List Bcast}
    {x_hbm : List Host.Cell} {x_poison : List Nat} {x_win : List Host.Cell} {x_flash : List Host.Cell}
    {x_rcLines : SMap RcLine} {x_rcMiss : SMap RcMiss} {x_rcWb : SMap (List RcWb)} {x_sf : SMap SfEnt} {x_sfAge
    : Nat} {x_haIn : SMap (List HaReq)} {x_haTx : SMap HaTx} {x_homeOut : List Nat} {x_rcLossT : SMap Nat}
    {x_seals : SMap SealRt} {x_leafMaj : SMap Nat} {x_leafMin : SMap Nat} {x_innerC : SMap Nat} {x_ccache : SMap
    Nat} {x_hwm : SMap Nat} {x_lostN : SMap Bool} {x_reenc : SMap (List Reenc)} {x_ccT : SMap Nat} {x_keys :
    SMap Nat} {x_keyOp : SMap (List Nat)} {x_sessions : SMap (Option LsSession)} {x_lastSes : Nat} {x_hbmPort :
    SMap (List HbmReq)} {x_hbmPc : SMap PcRt} {x_stack : SMap StackRt} {x_arbs : SMap Arb} {x_rtq : SMap (List
    Pkt)} {x_ni : SMap NiRt} {x_bearings : SMap (List Nat)} {x_rtPend : SMap (Option (Nat × Nat))} {x_drainT :
    SMap Nat} {x_gkLink : SMap GkLink} {x_gkDir : SMap GkDir} {x_gkPool : SMap GkPool} {x_crossIn : SMap
    CrossIn} {x_lane : SMap LaneRt} {x_trunk : SMap LaneRt} {x_bundle : SMap BundleRt} {x_hubDown : Bool}
    {x_rebaseDue : Bool} {x_qps : SMap QpRt} {x_rot : SMap Nat} {x_vecs : SMap VecRt} {x_mail : List Mail}
    {x_pcie : SMap Nat} {x_cfgWait : List (Nat × Nat)} {x_cfgLoad : CfgLoad} {x_loadN : Nat} {x_cfg : SMap Nat}
    {x_cfgMeas : Nat} {x_fwMeas : Nat} {x_sxq : List SxReq} {x_txq : SMap (List TxStamp)} {x_residences : List
    Residence} {x_stepN : Nat} {x_rxStamp : SMap (Option Nat)} {x_sxDiscard : SMap Nat} {x_sxMeas : List Nat}
    {x_ppsEnd : Option Nat} {x_spinePull : Int} {x_anchorE : Nat} {x_anchorT : Nat} {x_synth : SMap Synth}
    {x_fvs : SMap Fvs} {x_dieRt : SMap DieRt} {x_hold : Nat} {x_relq : List Nat} {x_rstq : List Nat}
    {x_flashMode : Nat} {x_stage2T : Nat} {x_auto : Option (Nat × Nat × Bool)} {x_noAuto : Bool} {x_warm : Bool}
    {x_warmT : Option Nat} {x_rstUnlock : Option (Nat × Nat)} {x_tele : SMap LifeRt} {x_ioOff : SMap Bool}
    {x_lsFuse : SMap Nat} {x_transport : SMap Nat} {x_trngT : Option Nat} {x_trngSaid : Bool} {x_dbgWait : Nat}
    {x_rcvN : Nat} {x_flashOp : Option FlashOp} {x_helm : SMap HelmRt} {x_helmL1 : SMap (Option HelmLine)}
    {x_helmL2 : SMap (Option HelmLine)} {x_flashC : SMap (Option Nat)} {x_irqLine : SMap Bool} {x_pel : SMap
    PelRt} {x_tap : TapRt} {x_scrub : SMap ScrubRt},
    (P.contains .now = true ∨ x_now = s.now) →
    (P.contains .local_ = true ∨ x_local_ = s.local_) →
    (P.contains .clocksUp = true ∨ x_clocksUp = s.clocksUp) →
    (P.contains .answer = true ∨ x_answer = s.answer) →
    (P.contains .out = true ∨ x_out = s.out) →
    (P.contains .draws = true ∨ x_draws = s.draws) →
    (P.contains .stewards = true ∨ x_stewards = s.stewards) →
    (P.contains .evlog = true ∨ x_evlog = s.evlog) →
    (P.contains .jtodo = true ∨ x_jtodo = s.jtodo) →
    (P.contains .journal = true ∨ x_journal = s.journal) →
    (P.contains .health = true ∨ x_health = s.health) →
    (P.contains .repairs = true ∨ x_repairs = s.repairs) →
    (P.contains .govs = true ∨ x_govs = s.govs) →
    (P.contains .sec = true ∨ x_sec = s.sec) →
    (P.contains .tree = true ∨ x_tree = s.tree) →
    (P.contains .fab = true ∨ x_fab = s.fab) →
    (P.contains .eng = true ∨ x_eng = s.eng) →
    (P.contains .fixq = true ∨ x_fixq = s.fixq) →
    (P.contains .bcasts = true ∨ x_bcasts = s.bcasts) →
    (P.contains .hbm = true ∨ x_hbm = s.hbm) →
    (P.contains .poison = true ∨ x_poison = s.poison) →
    (P.contains .win = true ∨ x_win = s.win) →
    (P.contains .flash = true ∨ x_flash = s.flash) →
    (P.contains .rcLines = true ∨ x_rcLines = s.rcLines) →
    (P.contains .rcMiss = true ∨ x_rcMiss = s.rcMiss) →
    (P.contains .rcWb = true ∨ x_rcWb = s.rcWb) →
    (P.contains .sf = true ∨ x_sf = s.sf) →
    (P.contains .sfAge = true ∨ x_sfAge = s.sfAge) →
    (P.contains .haIn = true ∨ x_haIn = s.haIn) →
    (P.contains .haTx = true ∨ x_haTx = s.haTx) →
    (P.contains .homeOut = true ∨ x_homeOut = s.homeOut) →
    (P.contains .rcLossT = true ∨ x_rcLossT = s.rcLossT) →
    (P.contains .seals = true ∨ x_seals = s.seals) →
    (P.contains .leafMaj = true ∨ x_leafMaj = s.leafMaj) →
    (P.contains .leafMin = true ∨ x_leafMin = s.leafMin) →
    (P.contains .innerC = true ∨ x_innerC = s.innerC) →
    (P.contains .ccache = true ∨ x_ccache = s.ccache) →
    (P.contains .hwm = true ∨ x_hwm = s.hwm) →
    (P.contains .lostN = true ∨ x_lostN = s.lostN) →
    (P.contains .reenc = true ∨ x_reenc = s.reenc) →
    (P.contains .ccT = true ∨ x_ccT = s.ccT) →
    (P.contains .keys = true ∨ x_keys = s.keys) →
    (P.contains .keyOp = true ∨ x_keyOp = s.keyOp) →
    (P.contains .sessions = true ∨ x_sessions = s.sessions) →
    (P.contains .lastSes = true ∨ x_lastSes = s.lastSes) →
    (P.contains .hbmPort = true ∨ x_hbmPort = s.hbmPort) →
    (P.contains .hbmPc = true ∨ x_hbmPc = s.hbmPc) →
    (P.contains .stack = true ∨ x_stack = s.stack) →
    (P.contains .arbs = true ∨ x_arbs = s.arbs) →
    (P.contains .rtq = true ∨ x_rtq = s.rtq) →
    (P.contains .ni = true ∨ x_ni = s.ni) →
    (P.contains .bearings = true ∨ x_bearings = s.bearings) →
    (P.contains .rtPend = true ∨ x_rtPend = s.rtPend) →
    (P.contains .drainT = true ∨ x_drainT = s.drainT) →
    (P.contains .gkLink = true ∨ x_gkLink = s.gkLink) →
    (P.contains .gkDir = true ∨ x_gkDir = s.gkDir) →
    (P.contains .gkPool = true ∨ x_gkPool = s.gkPool) →
    (P.contains .crossIn = true ∨ x_crossIn = s.crossIn) →
    (P.contains .lane = true ∨ x_lane = s.lane) →
    (P.contains .trunk = true ∨ x_trunk = s.trunk) →
    (P.contains .bundle = true ∨ x_bundle = s.bundle) →
    (P.contains .hubDown = true ∨ x_hubDown = s.hubDown) →
    (P.contains .rebaseDue = true ∨ x_rebaseDue = s.rebaseDue) →
    (P.contains .qps = true ∨ x_qps = s.qps) →
    (P.contains .rot = true ∨ x_rot = s.rot) →
    (P.contains .vecs = true ∨ x_vecs = s.vecs) →
    (P.contains .mail = true ∨ x_mail = s.mail) →
    (P.contains .pcie = true ∨ x_pcie = s.pcie) →
    (P.contains .cfgWait = true ∨ x_cfgWait = s.cfgWait) →
    (P.contains .cfgLoad = true ∨ x_cfgLoad = s.cfgLoad) →
    (P.contains .loadN = true ∨ x_loadN = s.loadN) →
    (P.contains .cfg = true ∨ x_cfg = s.cfg) →
    (P.contains .cfgMeas = true ∨ x_cfgMeas = s.cfgMeas) →
    (P.contains .fwMeas = true ∨ x_fwMeas = s.fwMeas) →
    (P.contains .sxq = true ∨ x_sxq = s.sxq) →
    (P.contains .txq = true ∨ x_txq = s.txq) →
    (P.contains .residences = true ∨ x_residences = s.residences) →
    (P.contains .stepN = true ∨ x_stepN = s.stepN) →
    (P.contains .rxStamp = true ∨ x_rxStamp = s.rxStamp) →
    (P.contains .sxDiscard = true ∨ x_sxDiscard = s.sxDiscard) →
    (P.contains .sxMeas = true ∨ x_sxMeas = s.sxMeas) →
    (P.contains .ppsEnd = true ∨ x_ppsEnd = s.ppsEnd) →
    (P.contains .spinePull = true ∨ x_spinePull = s.spinePull) →
    (P.contains .anchorE = true ∨ x_anchorE = s.anchorE) →
    (P.contains .anchorT = true ∨ x_anchorT = s.anchorT) →
    (P.contains .synth = true ∨ x_synth = s.synth) →
    (P.contains .fvs = true ∨ x_fvs = s.fvs) →
    (P.contains .dieRt = true ∨ x_dieRt = s.dieRt) →
    (P.contains .hold = true ∨ x_hold = s.hold) →
    (P.contains .relq = true ∨ x_relq = s.relq) →
    (P.contains .rstq = true ∨ x_rstq = s.rstq) →
    (P.contains .flashMode = true ∨ x_flashMode = s.flashMode) →
    (P.contains .stage2T = true ∨ x_stage2T = s.stage2T) →
    (P.contains .auto = true ∨ x_auto = s.auto) →
    (P.contains .noAuto = true ∨ x_noAuto = s.noAuto) →
    (P.contains .warm = true ∨ x_warm = s.warm) →
    (P.contains .warmT = true ∨ x_warmT = s.warmT) →
    (P.contains .rstUnlock = true ∨ x_rstUnlock = s.rstUnlock) →
    (P.contains .tele = true ∨ x_tele = s.tele) →
    (P.contains .ioOff = true ∨ x_ioOff = s.ioOff) →
    (P.contains .lsFuse = true ∨ x_lsFuse = s.lsFuse) →
    (P.contains .transport = true ∨ x_transport = s.transport) →
    (P.contains .trngT = true ∨ x_trngT = s.trngT) →
    (P.contains .trngSaid = true ∨ x_trngSaid = s.trngSaid) →
    (P.contains .dbgWait = true ∨ x_dbgWait = s.dbgWait) →
    (P.contains .rcvN = true ∨ x_rcvN = s.rcvN) →
    (P.contains .flashOp = true ∨ x_flashOp = s.flashOp) →
    (P.contains .helm = true ∨ x_helm = s.helm) →
    (P.contains .helmL1 = true ∨ x_helmL1 = s.helmL1) →
    (P.contains .helmL2 = true ∨ x_helmL2 = s.helmL2) →
    (P.contains .flashC = true ∨ x_flashC = s.flashC) →
    (P.contains .irqLine = true ∨ x_irqLine = s.irqLine) →
    (P.contains .pel = true ∨ x_pel = s.pel) →
    (P.contains .tap = true ∨ x_tap = s.tap) →
    (P.contains .scrub = true ∨ x_scrub = s.scrub) →
    (memWf s.hbm 0 = true → memWf x_hbm 0 = true) → (memWf s.win 0 = true → memWf x_win 0 = true) →
    (memWf s.flash 0xFF = true → memWf x_flash 0xFF = true) → (fabWf s.fab = true → fabWf x_fab = true) → R s →
    R { 
      pending := s.pending, now := x_now, local_ := x_local_, clocksUp := x_clocksUp, regs := s.regs, answer :=
      x_answer, out := x_out, draws := x_draws, stewards := x_stewards, evlog := x_evlog, jtodo := x_jtodo,
      journal := x_journal, health := x_health, repairs := x_repairs, govs := x_govs, sec := x_sec, tree :=
      x_tree, fab := x_fab, eng := x_eng, fixq := x_fixq, bcasts := x_bcasts, hbm := x_hbm, poison :=
      x_poison, win := x_win, flash := x_flash, rcLines := x_rcLines, rcMiss := x_rcMiss, rcWb := x_rcWb, sf
      := x_sf, sfAge := x_sfAge, haIn := x_haIn, haTx := x_haTx, homeOut := x_homeOut, rcLossT := x_rcLossT,
      seals := x_seals, leafMaj := x_leafMaj, leafMin := x_leafMin, innerC := x_innerC, ccache := x_ccache,
      hwm := x_hwm, lostN := x_lostN, reenc := x_reenc, ccT := x_ccT, keys := x_keys, keyOp := x_keyOp,
      sessions := x_sessions, lastSes := x_lastSes, hbmPort := x_hbmPort, hbmPc := x_hbmPc, stack := x_stack,
      arbs := x_arbs, rtq := x_rtq, ni := x_ni, bearings := x_bearings, rtPend := x_rtPend, drainT :=
      x_drainT, gkLink := x_gkLink, gkDir := x_gkDir, gkPool := x_gkPool, crossIn := x_crossIn, lane :=
      x_lane, trunk := x_trunk, bundle := x_bundle, hubDown := x_hubDown, rebaseDue := x_rebaseDue, qps :=
      x_qps, rot := x_rot, vecs := x_vecs, mail := x_mail, pcie := x_pcie, cfgWait := x_cfgWait, cfgLoad :=
      x_cfgLoad, loadN := x_loadN, cfg := x_cfg, cfgMeas := x_cfgMeas, fwMeas := x_fwMeas, sxq := x_sxq, txq
      := x_txq, residences := x_residences, stepN := x_stepN, rxStamp := x_rxStamp, sxDiscard := x_sxDiscard,
      sxMeas := x_sxMeas, ppsEnd := x_ppsEnd, spinePull := x_spinePull, anchorE := x_anchorE, anchorT :=
      x_anchorT, synth := x_synth, fvs := x_fvs, dieRt := x_dieRt, hold := x_hold, relq := x_relq, rstq :=
      x_rstq, flashMode := x_flashMode, stage2T := x_stage2T, auto := x_auto, noAuto := x_noAuto, warm :=
      x_warm, warmT := x_warmT, rstUnlock := x_rstUnlock, tele := x_tele, ioOff := x_ioOff, lsFuse :=
      x_lsFuse, transport := x_transport, trngT := x_trngT, trngSaid := x_trngSaid, dbgWait := x_dbgWait, rcvN
      := x_rcvN, flashOp := x_flashOp, helm := x_helm, helmL1 := x_helmL1, helmL2 := x_helmL2, flashC :=
      x_flashC, irqLine := x_irqLine, pel := x_pel, tap := x_tap, scrub := x_scrub }

/-- Is each member of the first list one of the second? -/
def subList {α : Type} [DecidableEq α] (a b : List α) : Bool := a.all (fun x => b.contains x)

/-- Is each field of the first set one of the second? -/
def subFld (a b : FSet) : Bool := b.every || (!a.every && subList a.flds b.flds && subList a.cls b.cls && subList a.acc b.acc)

theorem mem_of_subList {α : Type} [DecidableEq α] {a b : List α} {x : α} (h : subList a b = true) (hx : x ∈ a) : x ∈ b := by
  simpa using List.all_eq_true.mp h x hx

theorem contains_of_subList {α : Type} [DecidableEq α] {a b : List α} {x : α} (h : subList a b = true)
    (hx : a.contains x = true) : b.contains x = true := by
  simp only [List.contains_iff_mem] at *
  exact mem_of_subList h hx

theorem has_of_subFld {a b : FSet} {f : Fld} (h : subFld a b = true) (hf : hasFld a f = true) : hasFld b f = true := by
  simp only [hasFld, subFld, Bool.or_eq_true, Bool.and_eq_true, Bool.not_eq_true', List.contains_iff_mem] at *
  rcases h with h | h
  · exact .inl (.inl (.inl h))
  · rcases hf with ((hf | hf) | hf) | hf
    · rw [h.1.1.1] at hf; cases hf
    · exact .inl (.inl (.inr (mem_of_subList h.1.1.2 hf)))
    · exact .inl (.inr (mem_of_subList h.1.2 hf))
    · exact .inr (mem_of_subList h.2 hf)

theorem hasFld_self (f : Fld) (l : List Fld) : hasFld ⟨f :: l, [], [], false⟩ f = true := by
  simp [hasFld]

theorem hasFld_all (f : Fld) : hasFld .all f = true := rfl

theorem hasFld_cls {L : FSet} {f : Fld} {l : List Cls} (h : f.spec.cls ∈ l) (hl : subList l L.cls = true := by decide) :
    hasFld L f = true := by
  simp only [hasFld, Bool.or_eq_true, List.contains_iff_mem]
  exact .inl (.inr (mem_of_subList hl h))

theorem hasFld_rc {L : FSet} {f : Fld} {r : Reg} (h : f ∈ rcFields r) (hl : L.acc.contains .rc = true := by decide) :
    hasFld L f = true := by
  have : f.spec.acc = .rc := by simpa using (List.mem_filter.mp h).2
  simp only [hasFld, Bool.or_eq_true, this]
  exact .inr hl

theorem secClears_cls {d k : Nat} {f : Fld} {i : List Nat} (h : secClears d k f i = true) : f.spec.cls ∈ [Cls.sec] := by
  simp only [secClears, Bool.and_eq_true, beq_iff_eq] at h; simp [h.1]

theorem engClears_cls {e : Nat} {f : Fld} {i : List Nat} (h : engClears e f i = true) : f.spec.cls ∈ [Cls.eng] := by
  simp only [engClears, Bool.and_eq_true, beq_iff_eq] at h; simp [h.1]

theorem coreClears_cls {c : Nat} {f : Fld} {i : List Nat} (h : coreClears c f i = true) : f.spec.cls ∈ [Cls.core] := by
  simp only [coreClears, Bool.and_eq_true, beq_iff_eq] at h; simp [h.1]

theorem fnClears_cls {n : Nat} {own : Nat → Bool} {f : Fld} {i : List Nat} (h : fnClears n own f i = true) :
    f.spec.cls ∈ [Cls.fn] := by
  simp only [fnClears, Bool.and_eq_true, beq_iff_eq] at h; simp [h.1]

theorem dieClears_cls {n : Nat} {f : Fld} {i : List Nat} (h : dieClears n f i = true) :
    f.spec.cls ∈ [Cls.die, Cls.sec, Cls.eng] := by
  simp only [dieClears, Fld.clsAt, Bool.and_eq_true] at h
  replace h := h.2
  by_cases h1 : f.reg.site i = 8 ∧ f.reg.place.1 = .gk
  · simp only [if_pos h1] at h; cases h
  · simp only [if_neg h1] at h
    by_cases h2 : f.reg.site i = 8 ∧ f.spec.cls = .die
    · simp only [if_pos h2] at h; cases h
    · simp only [if_neg h2] at h
      generalize f.spec.cls = c at h ⊢
      cases c <;> simp at h ⊢

theorem gk_cls : Fld.all.all (fun f => f.reg.place.1 != .gk || [Cls.hub, .fn, .core, .die, .pkg].contains f.spec.cls) = true := by
  decide +kernel

theorem hubClears_cls {f : Fld} {i : List Nat} (h : hubClears f i = true) :
    f.spec.cls ∈ [Cls.hub, .fn, .core, .die, .pkg] := by
  have hg := List.all_eq_true.mp gk_cls f (Fld.mem_all f)
  simp only [hubClears, Fld.clsAt] at h
  by_cases hp : f.reg.place.1 = .gk
  · simpa [hp] using hg
  · simp only [hp, and_false, if_false] at h
    generalize f.spec.cls = c at h ⊢
    cases c <;> simp at h ⊢

theorem rel_foldl_mem {R : State → Prop} {α : Type} {f : State → α → State} (l : List α)
    (hf : ∀ s a, a ∈ l → R s → R (f s a)) : ∀ {s : State}, R s → R (l.foldl f s) := by
  induction l with
  | nil => intro s h; exact h
  | cons a r ih =>
    intro s h
    exact ih (fun s b hb => hf s b (List.mem_cons_of_mem _ hb)) (hf s a List.mem_cons_self h)

theorem subFld_self (f : Fld) (l : List Fld) : subFld ⟨[f], [], [], false⟩ ⟨f :: l, [], [], false⟩ = true := by
  simp [subFld, subList]

/-- A property kept by more is kept by less. -/
theorem Keeps.sub {P P' : List Part} {L L' : FSet} {R : State → Prop} (h : Keeps P L R)
    (hp : subList P' P = true := by decide +kernel) (hl : subFld L' L = true := by decide +kernel) : Keeps P' L' R where
  wr _ _ _ hr hf := h.wr _ _ _ (contains_of_subList hp hr) (has_of_subFld hl hf)
  clear _ hr hf := h.clear _ (contains_of_subList hp hr) (fun f i e => has_of_subFld hl (hf f i e))
  upd := by
    intros
    apply h.upd <;> first | assumption | exact Or.imp_left (contains_of_subList hp) (by assumption)

theorem rel_ite {R : State → Prop} {a b : State} {c : Prop} [Decidable c] (h1 : R a) (h2 : R b) : R (if c then a else b) := by
  split <;> assumption

theorem rel_foldl {R : State → Prop} {α : Type} {f : State → α → State} (hf : ∀ s a, R s → R (f s a)) (l : List α) :
    ∀ {s : State}, R s → R (l.foldl f s) := by
  induction l with
  | nil => intro s h; exact h
  | cons a r ih => intro s h; exact ih (hf s a h)

theorem rel_foldl2 {R : State → Prop} {α β : Type} {f : β × State → α → β × State} (hf : ∀ p a, R p.2 → R (f p a).2)
    (l : List α) : ∀ {p : β × State}, R p.2 → R (l.foldl f p).2 := by
  induction l with
  | nil => intro s h; exact h
  | cons a r ih => intro s h; exact ih (hf s a h)

theorem smSorted_filter {α : Type} {m : SMap α} (p : Key × α → Bool) (h : smSorted m = true) :
    smSorted (m.filter p) = true := by
  induction m with
  | nil => rfl
  | cons e r ih =>
    obtain ⟨h1, h2⟩ := (smSorted_cons _ _).mp h
    rw [List.filter_cons]
    split
    · exact (smSorted_cons _ _).mpr ⟨fun x hx => h1 x (List.mem_of_mem_filter hx), ih h2⟩
    · exact ih h2

theorem smWf_filter {α : Type} [DecidableEq α] {m : SMap α} {dflt : Key → α} (p : Key × α → Bool) (h : smWf m dflt = true) :
    smWf (m.filter p) dflt = true := by
  simp only [smWf, Bool.and_eq_true, List.all_eq_true] at h ⊢
  exact ⟨smSorted_filter p h.1, fun e he => h.2 e (List.mem_of_mem_filter he)⟩

/-- A fabric whose memories keep their form. -/
theorem fabWf_of {b x : Fab} (h : fabWf b = true) (h1 : smWf b.ram (fun _ => 0) = true → smWf x.ram (fun _ => 0) = true)
    (h2 : smWf b.oper (fun _ => 0) = true → smWf x.oper (fun _ => 0) = true) : fabWf x = true := by
  simp only [fabWf, Bool.and_eq_true] at *
  exact ⟨h1 h.1, h2 h.2⟩

theorem smWf_ramFill (pre : Key) (lo data n : Nat) : ∀ {m : SMap Nat}, smWf m (fun _ => 0) = true →
    smWf (ramFill m pre lo data n) (fun _ => 0) = true := by
  induction n with
  | zero => intro m h; exact h
  | succ n ih =>
    intro m h
    refine ih ?_
    dsimp only
    split
    · exact smWf_smPut (dflt := fun _ => 0) h
    · exact h

theorem rel_foldl1 {R : State → Prop} {α β : Type} {f : State × β → α → State × β} (hf : ∀ p a, R p.1 → R (f p a).1)
    (l : List α) : ∀ {p : State × β}, R p.1 → R (l.foldl f p).1 := by
  induction l with
  | nil => intro s h; exact h
  | cons a r ih => intro s h; exact ih (hf s a h)

theorem rel_foldl3 {R : State → Prop} {α β γ : Type} {f : β × γ × State → α → β × γ × State}
    (hf : ∀ p a, R p.2.2 → R (f p a).2.2) (l : List α) : ∀ {p : β × γ × State}, R p.2.2 → R (l.foldl f p).2.2 := by
  induction l with
  | nil => intro s h; exact h
  | cons a r ih => intro s h; exact ih (hf s a h)

theorem rel_foldr {R : State → Prop} {α : Type} {f : α → State → State} (hf : ∀ s a, R s → R (f a s)) (l : List α) :
    ∀ {s : State}, R s → R (l.foldr f s) := by
  induction l with
  | nil => intro s h; exact h
  | cons a r ih => intro s h; exact hf _ a (ih h)

/-! What a kept property says of parts, fields and the canonical forms. -/

theorem smGet_filter {α : Type} (m : SMap α) (q : Key → Bool) (k : Key) (d : α) :
    smGet (m.filter (fun e => q e.1)) k d = if q k = true then smGet m k d else d := by
  induction m with
  | nil => simp [smGet]
  | cons e r ih =>
    rw [List.filter_cons]
    by_cases h : e.1 = k
    · subst h
      cases hq : q e.1 <;> simp_all [smGet]
    · cases hq : q e.1 <;> simp_all [smGet]

/-- A class reset: the fields it clears read their reset values, every other one reads as before. -/
theorem State.rd_clearRegs (s : State) (p : Fld → List Nat → Bool) (f : Fld) (i : List Nat) :
    (s.clearRegs p).rd f i = if p f i = true then f.reset i else s.rd f i := by
  have h := smGet_filter s.regs (fun k => match k with
    | [] => true
    | k :: i => match Fld.ofIdx k with
      | some f => !p f i
      | none => true) (fkey f i) (f.reset i)
  refine Eq.trans h ?_
  simp only [fkey, Fld.ofIdx_ctorIdx]
  cases p f i <;> simp [State.rd, fkey]

/-- A field outside the set reads the same. -/
theorem Keeps.rd {P : List Part} {L : FSet} {f : Fld} (h : hasFld L f = false) (i : List Nat) (v : Nat) :
    Keeps P L (fun s => s.rd f i = v) where
  wr g j w _ hg hs := by
    rw [State.rd_wr_fld _ _ _ _ _ _ (fun e => by subst e; rw [h] at hg; cases hg)]; exact hs
  clear p _ hp hs := by
    rw [State.rd_clearRegs]; split
    · rename_i hc; rw [hp _ _ hc] at h; cases h
    · exact hs
  upd := by intros; assumption

/-- A part outside the list stays the same. -/
theorem Keeps.part {P : List Part} {L : FSet} {p : Part} (h : P.contains p = false) (hp : p ≠ .regs) (s : State) :
    Keeps P L (fun t => p.same s t) where
  wr g j w hr _ hs := by
    cases p <;> first | exact hs | exact absurd rfl hp
  clear q hr _ hs := by
    cases p <;> first | exact hs | exact absurd rfl hp
  upd := by
    intros
    cases p <;> first
      | exact absurd rfl hp
      | assumption
      | exact Eq.trans ((by assumption : _ ∨ _).resolve_left (by rw [h]; exact Bool.false_ne_true)) (by assumption)

theorem regDefault_fkey (f : Fld) (i : List Nat) : regDefault (fkey f i) = f.reset i := by
  simp [regDefault, fkey, Fld.ofIdx_ctorIdx]

theorem Registers.wf_wr {s : State} (h : Registers.wf s = true) (f : Fld) (i : List Nat) (v : Nat) :
    Registers.wf (s.wr f i v) = true := by
  simp only [Registers.wf, Bool.and_eq_true] at h ⊢
  refine ⟨?_, ?_⟩
  · have := smWf_smPut (k := fkey f i) (v := v % 2 ^ f.spec.width) h.1
    rwa [regDefault_fkey] at this
  · have h2 := h.2
    simp only [List.all_eq_true] at h2 ⊢
    intro e he
    simp only [State.wr, smPut] at he
    split at he
    · exact h2 e (mem_smDrop he)
    · rcases mem_smIns he with rfl | he
      · simp [regFits, fkey, Fld.ofIdx_ctorIdx, Nat.mod_lt]
      · exact h2 e (mem_smDrop he)

theorem Registers.wf_filter {s : State} (h : Registers.wf s = true) (p : Key × Nat → Bool) :
    Registers.wf { s with regs := s.regs.filter p } = true := by
  simp only [Registers.wf, smWf, Bool.and_eq_true, List.all_eq_true] at h ⊢
  exact ⟨⟨smSorted_filter p h.1.1, fun e he => h.1.2 e (List.mem_of_mem_filter he)⟩,
    fun e he => h.2 e (List.mem_of_mem_filter he)⟩

/-- The canonical forms stay, whatever may change. -/
theorem Keeps.wf (P : List Part) (L : FSet) : Keeps P L (fun s => Memory.wf s = true ∧ Registers.wf s = true) where
  wr f i v _ _ hs := ⟨hs.1, Registers.wf_wr hs.2 _ _ _⟩
  clear p _ _ hs := ⟨hs.1, Registers.wf_filter hs.2 _⟩
  upd := by
    intro s
    intros
    rename_i h1 h2 h3 h4 hs
    refine ⟨?_, hs.2⟩
    have hm := hs.1
    simp only [Memory.wf, Bool.and_eq_true] at hm ⊢
    exact ⟨⟨⟨h1 hm.1.1.1, h2 hm.1.1.2⟩, h3 hm.1.2⟩, h4 hm.2⟩

/-- The commands that wait stay. -/
theorem Keeps.pending (P : List Part) (L : FSet) (q : List Instr) : Keeps P L (fun s => s.pending = q) where
  wr _ _ _ _ _ hs := hs
  clear _ _ _ hs := hs
  upd := by intros; assumption

/-- The register table outside the parts stays the same. -/
theorem Keeps.regs {P : List Part} {L : FSet} (h : P.contains .regs = false) (s : State) :
    Keeps P L (fun t => Part.regs.same s t) where
  wr g j w hr _ hs := by rw [h] at hr; cases hr
  clear q hr _ hs := by rw [h] at hr; cases hr
  upd := by intros; assumption

end Sys2Proof.Machine
end

