-- ==== Sys2Proof/Laws/KeepsOps.lean ====
section
/-! SUPPORT. What the operations of `Machine/Ops.lean` may change and what they keep. -/

namespace Sys2Proof.Machine

set_option Elab.async false
set_option linter.all false

theorem State.wr_keeps {R : State → Prop} {f : Fld} (hR : Keeps [.regs] ⟨[f], [], [], false⟩ R) (s : State) (i : List Nat) (v : Nat)
    (hI : R s) : R (State.wr s f i v) := by
  exact hR.wr _ _ _ rfl (hasFld_self _ _) hI

theorem State.bump_keeps {R : State → Prop} {f : Fld} (hR : Keeps [.regs] ⟨[f], [], [], false⟩ R) (s : State) (i : List Nat) (n : Nat)
    (hI : R s) : R (State.bump s f i n) := by
  unfold State.bump
  try dsimp only
  repeat' first
    | with_reducible assumption
    | exact hR.sub
    | with_reducible apply rel_ite
    | with_reducible refine hR.wr _ _ _ (by decide +kernel) (by first | decide +kernel | exact hasFld_self _ _ | exact hasFld_all _ | (simp [hasFld]; done) ) ?_
    | dsimp only
    | intro _ _
    | intro _
    | contradiction
    | (unfold id)
    | split
    | (rename_i hh; injection hh with hh; subst hh)
    | (rename_i hh; split at hh)

theorem State.incr_keeps {R : State → Prop} {f : Fld} (hR : Keeps [.regs] ⟨[f], [], [], false⟩ R) (s : State) (i : List Nat)
    (hI : R s) : R (State.incr s f i) := by
  unfold State.incr
  try dsimp only
  repeat' first
    | with_reducible assumption
    | exact hR.sub
    | with_reducible apply rel_ite
    | with_reducible refine hR.wr _ _ _ (by decide +kernel) (by first | decide +kernel | exact hasFld_self _ _ | exact hasFld_all _ | (simp [hasFld]; done) ) ?_
    | dsimp only
    | intro _ _
    | intro _
    | contradiction
    | (unfold id)
    | split
    | (rename_i hh; injection hh with hh; subst hh)
    | (rename_i hh; split at hh)

theorem State.setBit_keeps {R : State → Prop} {f : Fld} (hR : Keeps [.regs] ⟨[f], [], [], false⟩ R) (s : State) (i : List Nat) (b : Nat) (v : Bool)
    (hI : R s) : R (State.setBit s f i b v) := by
  unfold State.setBit
  try dsimp only
  repeat' first
    | with_reducible assumption
    | exact hR.sub
    | with_reducible apply rel_ite
    | with_reducible refine hR.wr _ _ _ (by decide +kernel) (by first | decide +kernel | exact hasFld_self _ _ | exact hasFld_all _ | (simp [hasFld]; done) ) ?_
    | dsimp only
    | intro _ _
    | intro _
    | contradiction
    | (unfold id)
    | split
    | (rename_i hh; injection hh with hh; subst hh)
    | (rename_i hh; split at hh)

theorem State.lapse_keeps {R : State → Prop} (hR : Keeps [.now, .local_, .spinePull] ⟨[], [], [], false⟩ R) (s : State) (dt : Nat)
    (hI : R s) : R (State.lapse s dt) := by
  unfold State.lapse
  try dsimp only
  repeat' first
    | with_reducible assumption
    | exact hR.sub
    | exact fun h => memWf_memStore h
    | exact fun h => memWf_memPut h
    | exact fun h => memWf_filter _ h
    | exact fun _ => rfl
    | with_reducible apply rel_ite
    | fail_if_no_progress (with_reducible apply hR.upd; all_goals try first | with_reducible exact .inr rfl | exact .inl (by decide +kernel) | exact id)
    | dsimp only
    | intro _ _
    | intro _
    | contradiction
    | (unfold id)
    | split
    | (rename_i hh; injection hh with hh; subst hh)
    | (rename_i hh; split at hh)

theorem State.lapseTo_keeps {R : State → Prop} (hR : Keeps [.now, .local_, .spinePull] ⟨[], [], [], false⟩ R) (s : State) (t : Nat)
    (hI : R s) : R (State.lapseTo s t) := by
  unfold State.lapseTo
  try dsimp only
  repeat' first
    | with_reducible assumption
    | exact hR.sub
    | with_reducible apply rel_ite
    | with_reducible apply State.lapse_keeps
    | dsimp only
    | intro _ _
    | intro _
    | contradiction
    | (unfold id)
    | split
    | (rename_i hh; injection hh with hh; subst hh)
    | (rename_i hh; split at hh)

theorem State.lapseToLocal_keeps {R : State → Prop} (hR : Keeps [.now, .local_, .spinePull] ⟨[], [], [], false⟩ R) (s : State) (t : Nat)
    (hI : R s) : R (State.lapseToLocal s t) := by
  unfold State.lapseToLocal
  try dsimp only
  repeat' first
    | with_reducible assumption
    | exact hR.sub
    | with_reducible apply rel_ite
    | with_reducible apply State.lapse_keeps
    | dsimp only
    | intro _ _
    | intro _
    | contradiction
    | (unfold id)
    | split
    | (rename_i hh; injection hh with hh; subst hh)
    | (rename_i hh; split at hh)

theorem State.setSteward_keeps {R : State → Prop} (hR : Keeps [.stewards] ⟨[], [], [], false⟩ R) (s : State) (n : Nat) (q : Steward)
    (hI : R s) : R (State.setSteward s n q) := by
  unfold State.setSteward
  try dsimp only
  repeat' first
    | with_reducible assumption
    | exact hR.sub
    | exact fun h => memWf_memStore h
    | exact fun h => memWf_memPut h
    | exact fun h => memWf_filter _ h
    | exact fun _ => rfl
    | with_reducible apply rel_ite
    | fail_if_no_progress (with_reducible apply hR.upd; all_goals try first | with_reducible exact .inr rfl | exact .inl (by decide +kernel) | exact id)
    | dsimp only
    | intro _ _
    | intro _
    | contradiction
    | (unfold id)
    | split
    | (rename_i hh; injection hh with hh; subst hh)
    | (rename_i hh; split at hh)

theorem State.push_keeps {R : State → Prop} (hR : Keeps [.stewards] ⟨[], [], [], false⟩ R) (s : State) (n : Nat) (r : Report)
    (hI : R s) : R (State.push s n r) := by
  unfold State.push
  try dsimp only
  repeat' first
    | with_reducible assumption
    | exact hR.sub
    | with_reducible apply rel_ite
    | with_reducible apply State.setSteward_keeps
    | dsimp only
    | intro _ _
    | intro _
    | contradiction
    | (unfold id)
    | split
    | (rename_i hh; injection hh with hh; subst hh)
    | (rename_i hh; split at hh)

theorem State.raise_keeps {R : State → Prop} (hR : Keeps [.stewards] ⟨[], [], [], false⟩ R) (s : State) (r : Reg) (i : List Nat) (rule sev : Nat) (d : List Nat)
    (hI : R s) : R (State.raise s r i rule sev d) := by
  unfold State.raise
  try dsimp only
  repeat' first
    | with_reducible assumption
    | exact hR.sub
    | with_reducible apply rel_ite
    | with_reducible apply State.push_keeps
    | dsimp only
    | intro _ _
    | intro _
    | contradiction
    | (unfold id)
    | split
    | (rename_i hh; injection hh with hh; subst hh)
    | (rename_i hh; split at hh)

theorem State.raiseFixed_keeps {R : State → Prop} (hR : Keeps [.stewards] ⟨[], [], [], false⟩ R) (s : State) (r : Reg) (i : List Nat) (code sev : Nat) (arg : Arg)
    (hI : R s) : R (State.raiseFixed s r i code sev arg) := by
  unfold State.raiseFixed
  try dsimp only
  repeat' first
    | with_reducible assumption
    | exact hR.sub
    | with_reducible apply rel_ite
    | with_reducible apply State.push_keeps
    | dsimp only
    | intro _ _
    | intro _
    | contradiction
    | (unfold id)
    | split
    | (rename_i hh; injection hh with hh; subst hh)
    | (rename_i hh; split at hh)

theorem State.drop_keeps {R : State → Prop} (hR : Keeps [.stewards] ⟨[], [], [], false⟩ R) (s : State) (w : Writer) (r : Reg) (i : List Nat) (v : Nat)
    (hI : R s) : R (State.drop s w r i v) := by
  unfold State.drop
  try dsimp only
  repeat' first
    | with_reducible assumption
    | exact hR.sub
    | with_reducible apply rel_ite
    | with_reducible apply State.raiseFixed_keeps
    | dsimp only
    | intro _ _
    | intro _
    | contradiction
    | (unfold id)
    | split
    | (rename_i hh; injection hh with hh; subst hh)
    | (rename_i hh; split at hh)

theorem State.dropF_keeps {R : State → Prop} (hR : Keeps [.stewards] ⟨[], [], [], false⟩ R) (s : State) (w : Writer) (f : Fld) (i : List Nat) (v : Nat)
    (hI : R s) : R (State.dropF s w f i v) := by
  unfold State.dropF
  try dsimp only
  repeat' first
    | with_reducible assumption
    | exact hR.sub
    | with_reducible apply rel_ite
    | with_reducible apply State.drop_keeps
    | dsimp only
    | intro _ _
    | intro _
    | contradiction
    | (unfold id)
    | split
    | (rename_i hh; injection hh with hh; subst hh)
    | (rename_i hh; split at hh)

theorem State.healthUpdate_keeps {R : State → Prop} (hR : Keeps [.regs, .health] ⟨[.MGMT_HEALTH_STAGE], [], [], false⟩ R) (s : State) (n : Nat) (h : Health)
    (hI : R s) : R (State.healthUpdate s n h) := by
  unfold State.healthUpdate
  try dsimp only
  repeat' first
    | with_reducible assumption
    | exact hR.sub
    | exact fun h => memWf_memStore h
    | exact fun h => memWf_memPut h
    | exact fun h => memWf_filter _ h
    | exact fun _ => rfl
    | with_reducible apply rel_ite
    | with_reducible refine hR.wr _ _ _ (by decide +kernel) (by first | decide +kernel | exact hasFld_self _ _ | exact hasFld_all _ | (simp [hasFld]; done) ) ?_
    | fail_if_no_progress (with_reducible apply hR.upd; all_goals try first | with_reducible exact .inr rfl | exact .inl (by decide +kernel) | exact id)
    | dsimp only
    | intro _ _
    | intro _
    | contradiction
    | (unfold id)
    | split
    | (rename_i hh; injection hh with hh; subst hh)
    | (rename_i hh; split at hh)

theorem State.capacityLost_keeps {R : State → Prop} (hR : Keeps [.regs, .health] ⟨[.MGMT_HEALTH_STAGE], [], [], false⟩ R) (s : State) (n : Nat)
    (hI : R s) : R (State.capacityLost s n) := by
  unfold State.capacityLost
  try dsimp only
  repeat' first
    | with_reducible assumption
    | exact hR.sub
    | exact fun h => memWf_memStore h
    | exact fun h => memWf_memPut h
    | exact fun h => memWf_filter _ h
    | exact fun _ => rfl
    | with_reducible apply rel_ite
    | with_reducible apply State.healthUpdate_keeps
    | fail_if_no_progress (with_reducible apply hR.upd; all_goals try first | with_reducible exact .inr rfl | exact .inl (by decide +kernel) | exact id)
    | dsimp only
    | intro _ _
    | intro _
    | contradiction
    | (unfold id)
    | split
    | (rename_i hh; injection hh with hh; subst hh)
    | (rename_i hh; split at hh)

theorem State.sectorLost_keeps {R : State → Prop} (hR : Keeps [.regs, .health] ⟨[.MGMT_HEALTH_STAGE], [], [], false⟩ R) (s : State) (n : Nat)
    (hI : R s) : R (State.sectorLost s n) := by
  unfold State.sectorLost
  try dsimp only
  repeat' first
    | with_reducible assumption
    | exact hR.sub
    | exact fun h => memWf_memStore h
    | exact fun h => memWf_memPut h
    | exact fun h => memWf_filter _ h
    | exact fun _ => rfl
    | with_reducible apply rel_ite
    | with_reducible apply State.healthUpdate_keeps
    | fail_if_no_progress (with_reducible apply hR.upd; all_goals try first | with_reducible exact .inr rfl | exact .inl (by decide +kernel) | exact id)
    | dsimp only
    | intro _ _
    | intro _
    | contradiction
    | (unfold id)
    | split
    | (rename_i hh; injection hh with hh; subst hh)
    | (rename_i hh; split at hh)

theorem State.notice_keeps {R : State → Prop} (hR : Keeps [.regs, .stewards, .health] ⟨[.MGMT_HEALTH_STAGE, .MGMT_HEALTH_ZERO], [], [], false⟩ R) (s : State) (r : Reg) (i : List Nat) (code item margin detail : Nat) (bit : Option Nat)
    (hI : R s) : R (State.notice s r i code item margin detail bit) := by
  unfold State.notice
  try dsimp only
  repeat' first
    | with_reducible assumption
    | exact hR.sub
    | exact fun h => memWf_memStore h
    | exact fun h => memWf_memPut h
    | exact fun h => memWf_filter _ h
    | exact fun _ => rfl
    | exact hR.sub (by decide +kernel) (subFld_self _ _)
    | with_reducible apply rel_ite
    | with_reducible apply State.healthUpdate_keeps
    | with_reducible apply State.raiseFixed_keeps
    | with_reducible apply State.setBit_keeps
    | fail_if_no_progress (with_reducible apply hR.upd; all_goals try first | with_reducible exact .inr rfl | exact .inl (by decide +kernel) | exact id)
    | dsimp only
    | intro _ _
    | intro _
    | contradiction
    | (unfold id)
    | split
    | (rename_i hh; injection hh with hh; subst hh)
    | (rename_i hh; split at hh)

theorem State.record_keeps {R : State → Prop} (hR : Keeps [.repairs] ⟨[], [], [], false⟩ R) (s : State) (e : List Nat)
    (hI : R s) : R (State.record s e) := by
  unfold State.record
  try dsimp only
  repeat' first
    | with_reducible assumption
    | exact hR.sub
    | exact fun h => memWf_memStore h
    | exact fun h => memWf_memPut h
    | exact fun h => memWf_filter _ h
    | exact fun _ => rfl
    | with_reducible apply rel_ite
    | fail_if_no_progress (with_reducible apply hR.upd; all_goals try first | with_reducible exact .inr rfl | exact .inl (by decide +kernel) | exact id)
    | dsimp only
    | intro _ _
    | intro _
    | contradiction
    | (unfold id)
    | split
    | (rename_i hh; injection hh with hh; subst hh)
    | (rename_i hh; split at hh)

theorem State.deadAccess_keeps {R : State → Prop} (hR : Keeps [.stewards] ⟨[], [], [], false⟩ R) (s : State) (w : Writer) (r : Reg) (i : List Nat)
    (hI : R s) : R (State.deadAccess s w r i) := by
  unfold State.deadAccess
  try dsimp only
  repeat' first
    | with_reducible assumption
    | exact hR.sub
    | with_reducible apply rel_ite
    | with_reducible apply State.raise_keeps
    | dsimp only
    | intro _ _
    | intro _
    | contradiction
    | (unfold id)
    | split
    | (rename_i hh; injection hh with hh; subst hh)
    | (rename_i hh; split at hh)

theorem State.reach_keeps {R : State → Prop} (hR : Keeps [.stewards, .rstUnlock] ⟨[], [], [], false⟩ R) (s : State) (w : Writer) (r : Reg) (i : List Nat) (v : Nat) (k : State → State)
    (hI : R s) (hk : ∀  s, R s → R (k  s)) : R (State.reach s w r i v k) := by
  unfold State.reach
  try dsimp only
  repeat' first
    | with_reducible assumption
    | exact hR.sub
    | exact fun h => memWf_memStore h
    | exact fun h => memWf_memPut h
    | exact fun h => memWf_filter _ h
    | exact fun _ => rfl
    | with_reducible apply rel_ite
    | (with_reducible apply hk)
    | with_reducible apply State.deadAccess_keeps
    | with_reducible apply State.drop_keeps
    | fail_if_no_progress (with_reducible apply hR.upd; all_goals try first | with_reducible exact .inr rfl | exact .inl (by decide +kernel) | exact id)
    | dsimp only
    | intro _ _
    | intro _
    | contradiction
    | (unfold id)
    | split
    | (rename_i hh; injection hh with hh; subst hh)
    | (rename_i hh; split at hh)

theorem State.setGov_keeps {R : State → Prop} (hR : Keeps [.govs] ⟨[], [], [], false⟩ R) (s : State) (g : Nat) (x : Gov)
    (hI : R s) : R (State.setGov s g x) := by
  unfold State.setGov
  try dsimp only
  repeat' first
    | with_reducible assumption
    | exact hR.sub
    | exact fun h => memWf_memStore h
    | exact fun h => memWf_memPut h
    | exact fun h => memWf_filter _ h
    | exact fun _ => rfl
    | with_reducible apply rel_ite
    | fail_if_no_progress (with_reducible apply hR.upd; all_goals try first | with_reducible exact .inr rfl | exact .inl (by decide +kernel) | exact id)
    | dsimp only
    | intro _ _
    | intro _
    | contradiction
    | (unfold id)
    | split
    | (rename_i hh; injection hh with hh; subst hh)
    | (rename_i hh; split at hh)

theorem State.expire_keeps {R : State → Prop} (hR : Keeps [.regs, .stewards, .govs] ⟨[.PG_ERR_OP, .PG_ERR_OVERSIZE, .PG_ERR_UNITS, .PG_ERR_VALID, .PG_TO_CNT_COUNT], [], [], false⟩ R) (s : State) (g : Nat) (p : Permit) (oversize : Bool)
    (hI : R s) : R (State.expire s g p oversize) := by
  unfold State.expire
  try dsimp only
  repeat' first
    | with_reducible assumption
    | exact hR.sub
    | exact fun h => memWf_memStore h
    | exact fun h => memWf_memPut h
    | exact fun h => memWf_filter _ h
    | exact fun _ => rfl
    | exact hR.sub (by decide +kernel) (subFld_self _ _)
    | with_reducible apply rel_ite
    | with_reducible refine hR.wr _ _ _ (by decide +kernel) (by first | decide +kernel | exact hasFld_self _ _ | exact hasFld_all _ | (simp [hasFld]; done) ) ?_
    | with_reducible apply State.bump_keeps
    | with_reducible apply State.raise_keeps
    | with_reducible apply State.setGov_keeps
    | fail_if_no_progress (with_reducible apply hR.upd; all_goals try first | with_reducible exact .inr rfl | exact .inl (by decide +kernel) | exact id)
    | dsimp only
    | intro _ _
    | intro _
    | contradiction
    | (unfold id)
    | split
    | (rename_i hh; injection hh with hh; subst hh)
    | (rename_i hh; split at hh)

theorem State.request_keeps {R : State → Prop} (hR : Keeps [.regs, .stewards, .govs] ⟨[.PG_ERR_OP, .PG_ERR_OVERSIZE, .PG_ERR_UNITS, .PG_ERR_VALID, .PG_TO_CNT_COUNT], [], [], false⟩ R) (s : State) (g op units : Nat) (who : List Nat) (chain : List (List Nat))
    (hI : R s) : R (State.request s g op units who chain) := by
  unfold State.request
  try dsimp only
  repeat' first
    | with_reducible assumption
    | exact hR.sub
    | exact fun h => memWf_memStore h
    | exact fun h => memWf_memPut h
    | exact fun h => memWf_filter _ h
    | exact fun _ => rfl
    | with_reducible apply rel_ite
    | with_reducible apply State.expire_keeps
    | with_reducible apply State.setGov_keeps
    | fail_if_no_progress (with_reducible apply hR.upd; all_goals try first | with_reducible exact .inr rfl | exact .inl (by decide +kernel) | exact id)
    | dsimp only
    | intro _ _
    | intro _
    | contradiction
    | (unfold id)
    | split
    | (rename_i hh; injection hh with hh; subst hh)
    | (rename_i hh; split at hh)

theorem State.grantHead_keeps {R : State → Prop} (hR : Keeps [.now, .local_, .regs, .stewards, .govs, .spinePull] ⟨[.PG_ERR_OP, .PG_ERR_OVERSIZE, .PG_ERR_UNITS, .PG_ERR_VALID, .PG_GRANT_CNT_COUNT, .PG_TO_CNT_COUNT], [], [], false⟩ R) (s : State) (g : Nat)
    (hI : R s) : R (State.grantHead s g) := by
  unfold State.grantHead
  try dsimp only
  repeat' first
    | with_reducible assumption
    | exact hR.sub
    | exact fun h => memWf_memStore h
    | exact fun h => memWf_memPut h
    | exact fun h => memWf_filter _ h
    | exact fun _ => rfl
    | exact hR.sub (by decide +kernel) (subFld_self _ _)
    | with_reducible apply rel_ite
    | with_reducible apply State.bump_keeps
    | with_reducible apply State.lapseTo_keeps
    | with_reducible apply State.request_keeps
    | with_reducible apply State.setGov_keeps
    | fail_if_no_progress (with_reducible apply hR.upd; all_goals try first | with_reducible exact .inr rfl | exact .inl (by decide +kernel) | exact id)
    | dsimp only
    | intro _ _
    | intro _
    | contradiction
    | (unfold id)
    | split
    | (rename_i hh; injection hh with hh; subst hh)
    | (rename_i hh; split at hh)

theorem State.takeGrant_keeps {R : State → Prop} (hR : Keeps [.now, .local_, .regs, .stewards, .govs, .spinePull] ⟨[.PG_ERR_OP, .PG_ERR_OVERSIZE, .PG_ERR_UNITS, .PG_ERR_VALID, .PG_GRANT_CNT_COUNT, .PG_TO_CNT_COUNT], [], [], false⟩ R) (s : State) (g op : Nat) (who : List Nat)
    (hI : R s) {tT : State} (eE : State.takeGrant s g op who = some tT) : R tT := by
  unfold State.takeGrant at eE
  try dsimp only at eE
  repeat' split at eE
  all_goals first | (injection eE with eE; subst eE) | (exact absurd eE (by simp))
  all_goals repeat' first
    | with_reducible assumption
    | exact hR.sub
    | exact fun h => memWf_memStore h
    | exact fun h => memWf_memPut h
    | exact fun h => memWf_filter _ h
    | exact fun _ => rfl
    | with_reducible apply rel_ite
    | with_reducible apply State.grantHead_keeps
    | with_reducible apply State.setGov_keeps
    | fail_if_no_progress (with_reducible apply hR.upd; all_goals try first | with_reducible exact .inr rfl | exact .inl (by decide +kernel) | exact id)
    | dsimp only
    | intro _ _
    | intro _
    | contradiction
    | (unfold id)
    | split
    | (rename_i hh; injection hh with hh; subst hh)
    | (rename_i hh; split at hh)

theorem State.takeTimeout_keeps {R : State → Prop} (hR : Keeps [.now, .local_, .regs, .stewards, .govs, .spinePull] ⟨[.PG_ERR_OP, .PG_ERR_OVERSIZE, .PG_ERR_UNITS, .PG_ERR_VALID, .PG_TO_CNT_COUNT], [], [], false⟩ R) (s : State) (g op : Nat) (who : List Nat)
    (hI : R s) {tT : State} (eE : State.takeTimeout s g op who = some tT) : R tT := by
  unfold State.takeTimeout at eE
  try dsimp only at eE
  repeat' split at eE
  all_goals first | (injection eE with eE; subst eE) | (exact absurd eE (by simp))
  all_goals repeat' first
    | with_reducible assumption
    | exact hR.sub
    | exact fun h => memWf_memStore h
    | exact fun h => memWf_memPut h
    | exact fun h => memWf_filter _ h
    | exact fun _ => rfl
    | with_reducible apply rel_ite
    | with_reducible apply State.expire_keeps
    | with_reducible apply State.lapseTo_keeps
    | with_reducible apply State.setGov_keeps
    | fail_if_no_progress (with_reducible apply hR.upd; all_goals try first | with_reducible exact .inr rfl | exact .inl (by decide +kernel) | exact id)
    | dsimp only
    | intro _ _
    | intro _
    | contradiction
    | (unfold id)
    | split
    | (rename_i hh; injection hh with hh; subst hh)
    | (rename_i hh; split at hh)

theorem State.giveBack_keeps {R : State → Prop} (hR : Keeps [.govs] ⟨[], [], [], false⟩ R) (s : State) (g op : Nat) (who : List Nat)
    (hI : R s) : R (State.giveBack s g op who) := by
  unfold State.giveBack
  try dsimp only
  repeat' first
    | with_reducible assumption
    | exact hR.sub
    | exact fun h => memWf_memStore h
    | exact fun h => memWf_memPut h
    | exact fun h => memWf_filter _ h
    | exact fun _ => rfl
    | with_reducible apply rel_ite
    | with_reducible apply State.setGov_keeps
    | fail_if_no_progress (with_reducible apply hR.upd; all_goals try first | with_reducible exact .inr rfl | exact .inl (by decide +kernel) | exact id)
    | dsimp only
    | intro _ _
    | intro _
    | contradiction
    | (unfold id)
    | split
    | (rename_i hh; injection hh with hh; subst hh)
    | (rename_i hh; split at hh)

theorem State.draw_keeps {R : State → Prop} (hR : Keeps [.draws] ⟨[], [], [], false⟩ R) (s : State) (w : Nat)
    (hI : R s) : R (State.draw s w).2 := by
  unfold State.draw
  try dsimp only
  repeat' first
    | with_reducible assumption
    | exact hR.sub
    | exact fun h => memWf_memStore h
    | exact fun h => memWf_memPut h
    | exact fun h => memWf_filter _ h
    | exact fun _ => rfl
    | with_reducible apply rel_ite
    | fail_if_no_progress (with_reducible apply hR.upd; all_goals try first | with_reducible exact .inr rfl | exact .inl (by decide +kernel) | exact id)
    | dsimp only
    | intro _ _
    | intro _
    | contradiction
    | (unfold id)
    | split
    | (rename_i hh; injection hh with hh; subst hh)
    | (rename_i hh; split at hh)

theorem State.draw_keeps_of {R : State → Prop} (hR : Keeps [.draws] ⟨[], [], [], false⟩ R) (s : State) (w : Nat)
    (hI : R s) {a : Nat} {tT : State} (eE : State.draw s w = (a, tT)) : R tT := by
  have h := State.draw_keeps hR s w hI
  rw [eE] at h
  exact h

theorem State.emit_keeps {R : State → Prop} (hR : Keeps [.out] ⟨[], [], [], false⟩ R) (s : State) (o : Out)
    (hI : R s) : R (State.emit s o) := by
  unfold State.emit
  try dsimp only
  repeat' first
    | with_reducible assumption
    | exact hR.sub
    | exact fun h => memWf_memStore h
    | exact fun h => memWf_memPut h
    | exact fun h => memWf_filter _ h
    | exact fun _ => rfl
    | with_reducible apply rel_ite
    | fail_if_no_progress (with_reducible apply hR.upd; all_goals try first | with_reducible exact .inr rfl | exact .inl (by decide +kernel) | exact id)
    | dsimp only
    | intro _ _
    | intro _
    | contradiction
    | (unfold id)
    | split
    | (rename_i hh; injection hh with hh; subst hh)
    | (rename_i hh; split at hh)

theorem State.clearRegs_keeps {R : State → Prop} (hR : Keeps [.regs] .all R) (s : State) (p : Fld → List Nat → Bool) (hI : R s) : R (s.clearRegs p) :=
  hR.clear _ rfl (fun _ _ _ => rfl) hI

end Sys2Proof.Machine
end

