-- ==== Sys2Proof/Laws/KeepsCells.lean ====
section
/-! SUPPORT. What the operations of `Machine/Cells.lean` may change and what they keep. -/

namespace Sys2Proof.Machine

set_option Elab.async false
set_option linter.all false

theorem State.setSector_keeps {R : State → Prop} (hR : Keeps [.sec] ⟨[], [], [], false⟩ R) (s : State) (d k : Nat) (x : SecRt)
    (hI : R s) : R (State.setSector s d k x) := by
  unfold State.setSector
  try dsimp only
  repeat' first
    | with_reducible assumption
    | exact hR.sub
    | exact fun h => memWf_memStore h
    | exact fun h => memWf_memPut h
    | exact fun h => memWf_filter _ h
    | exact fun _ => rfl
    | with_reducible apply rel_ite
    | fail_if_no_progress (with_reducible apply hR.upd; all_goals try first | with_reducible exact .inr rfl | exact .inl (by decide +kernel) | exact id)
    | dsimp only
    | intro _ _
    | intro _
    | contradiction
    | (unfold id)
    | split
    | (rename_i hh; injection hh with hh; subst hh)
    | (rename_i hh; split at hh)

theorem State.onFab_keeps {R : State → Prop} (hR : Keeps [.fab] ⟨[], [], [], false⟩ R) (s : State) (f : Fab → Fab) (hI : R s)
    (hf : ∀ b, fabWf b = true → fabWf (f b) = true) : R (State.onFab s f) := by
  unfold State.onFab
  with_reducible apply hR.upd
  all_goals first
    | exact .inl (by decide +kernel)
    | exact .inr rfl
    | exact hf _
    | exact id
    | exact hI

theorem State.design_keeps {R : State → Prop} (hR : Keeps [.fab] ⟨[], [], [], false⟩ R) (s : State) (d a : Nat) (l : List CfgItem)
    (hI : R s) : R (State.design s d a l) := by
  unfold State.design
  try dsimp only
  repeat' first
    | with_reducible assumption
    | exact hR.sub
    | exact fun h => memWf_memStore h
    | exact fun h => memWf_memPut h
    | exact fun h => memWf_filter _ h
    | exact fun _ => rfl
    | (intro b hb; exact fabWf_of hb (fun h => by (try dsimp only); first | with_reducible exact h | exact smWf_ramFill _ _ _ _ h | exact smWf_smPut (dflt := fun _ => 0) h | exact smWf_filter _ h) (fun h => by first | exact h | exact smWf_smPut (dflt := fun _ => 0) h | exact smWf_filter _ h))
    | with_reducible apply rel_ite
    | with_reducible apply State.onFab_keeps
    | fail_if_no_progress (with_reducible apply hR.upd; all_goals try first | with_reducible exact .inr rfl | exact .inl (by decide +kernel) | exact id)
    | dsimp only
    | intro _ _
    | intro _
    | contradiction
    | (unfold id)
    | split
    | (rename_i hh; injection hh with hh; subst hh)
    | (rename_i hh; split at hh)

theorem State.fabReset_keeps {R : State → Prop} (hR : Keeps [.fab] ⟨[], [], [], false⟩ R) (s : State) (d k : Nat)
    (hI : R s) : R (State.fabReset s d k) := by
  unfold State.fabReset
  try dsimp only
  repeat' first
    | with_reducible assumption
    | exact hR.sub
    | exact fun h => memWf_memStore h
    | exact fun h => memWf_memPut h
    | exact fun h => memWf_filter _ h
    | exact fun _ => rfl
    | (intro b hb; exact fabWf_of hb (fun h => by (try dsimp only); first | with_reducible exact h | exact smWf_ramFill _ _ _ _ h | exact smWf_smPut (dflt := fun _ => 0) h | exact smWf_filter _ h) (fun h => by first | exact h | exact smWf_smPut (dflt := fun _ => 0) h | exact smWf_filter _ h))
    | with_reducible apply rel_ite
    | with_reducible apply State.onFab_keeps
    | fail_if_no_progress (with_reducible apply hR.upd; all_goals try first | with_reducible exact .inr rfl | exact .inl (by decide +kernel) | exact id)
    | dsimp only
    | intro _ _
    | intro _
    | contradiction
    | (unfold id)
    | split
    | (rename_i hh; injection hh with hh; subst hh)
    | (rename_i hh; split at hh)

theorem State.fabBlank_keeps {R : State → Prop} (hR : Keeps [.fab] ⟨[], [], [], false⟩ R) (s : State) (d k : Nat)
    (hI : R s) : R (State.fabBlank s d k) := by
  unfold State.fabBlank
  try dsimp only
  repeat' first
    | with_reducible assumption
    | exact hR.sub
    | exact fun h => memWf_memStore h
    | exact fun h => memWf_memPut h
    | exact fun h => memWf_filter _ h
    | exact fun _ => rfl
    | (intro b hb; exact fabWf_of hb (fun h => by (try dsimp only); first | with_reducible exact h | exact smWf_ramFill _ _ _ _ h | exact smWf_smPut (dflt := fun _ => 0) h | exact smWf_filter _ h) (fun h => by first | exact h | exact smWf_smPut (dflt := fun _ => 0) h | exact smWf_filter _ h))
    | with_reducible apply rel_ite
    | with_reducible apply State.design_keeps
    | with_reducible apply State.onFab_keeps
    | fail_if_no_progress (with_reducible apply hR.upd; all_goals try first | with_reducible exact .inr rfl | exact .inl (by decide +kernel) | exact id)
    | dsimp only
    | intro _ _
    | intro _
    | contradiction
    | (unfold id)
    | split
    | (rename_i hh; injection hh with hh; subst hh)
    | (rename_i hh; split at hh)

theorem State.fabEmpty_keeps {R : State → Prop} (hR : Keeps [.fab] ⟨[], [], [], false⟩ R) (s : State) (d : Nat)
    (hI : R s) : R (State.fabEmpty s d) := by
  unfold State.fabEmpty
  try dsimp only
  repeat' first
    | with_reducible assumption
    | exact hR.sub
    | (intro b hb; exact fabWf_of hb (fun h => by (try dsimp only); first | with_reducible exact h | exact smWf_ramFill _ _ _ _ h | exact smWf_smPut (dflt := fun _ => 0) h | exact smWf_filter _ h) (fun h => by first | exact h | exact smWf_smPut (dflt := fun _ => 0) h | exact smWf_filter _ h))
    | with_reducible apply rel_ite
    | with_reducible apply State.design_keeps
    | with_reducible apply State.onFab_keeps
    | dsimp only
    | intro _ _
    | intro _
    | contradiction
    | (unfold id)
    | split
    | (rename_i hh; injection hh with hh; subst hh)
    | (rename_i hh; split at hh)

theorem State.setFf_keeps {R : State → Prop} (hR : Keeps [.fab] ⟨[], [], [], false⟩ R) (s : State) (d k col row cell b : Nat) (v : Bool)
    (hI : R s) : R (State.setFf s d k col row cell b v) := by
  unfold State.setFf
  try dsimp only
  repeat' first
    | with_reducible assumption
    | exact hR.sub
    | exact fun h => memWf_memStore h
    | exact fun h => memWf_memPut h
    | exact fun h => memWf_filter _ h
    | exact fun _ => rfl
    | (intro b hb; exact fabWf_of hb (fun h => by (try dsimp only); first | with_reducible exact h | exact smWf_ramFill _ _ _ _ h | exact smWf_smPut (dflt := fun _ => 0) h | exact smWf_filter _ h) (fun h => by first | exact h | exact smWf_smPut (dflt := fun _ => 0) h | exact smWf_filter _ h))
    | with_reducible apply rel_ite
    | with_reducible apply State.onFab_keeps
    | fail_if_no_progress (with_reducible apply hR.upd; all_goals try first | with_reducible exact .inr rfl | exact .inl (by decide +kernel) | exact id)
    | dsimp only
    | intro _ _
    | intro _
    | contradiction
    | (unfold id)
    | split
    | (rename_i hh; injection hh with hh; subst hh)
    | (rename_i hh; split at hh)

theorem State.ctlEdge_keeps {R : State → Prop} (hR : Keeps [.fab] ⟨[], [], [], false⟩ R) (s : State) (d k col row cs : Nat) (cells : List CellIn) (ce sr cin : Bool)
    (hI : R s) : R (State.ctlEdge s d k col row cs cells ce sr cin) := by
  unfold State.ctlEdge
  try dsimp only
  repeat' first
    | with_reducible assumption
    | exact hR.sub
    | with_reducible apply rel_ite
    | with_reducible apply State.setFf_keeps
    | (with_reducible apply rel_foldl; intro _ _ _)
    | (with_reducible apply rel_foldl2; intro _ _ _)
    | (with_reducible apply rel_foldl3; intro _ _ _)
    | (with_reducible apply rel_foldl1; intro _ _ _)
    | dsimp only
    | intro _ _
    | intro _
    | contradiction
    | (unfold id)
    | split
    | (rename_i hh; injection hh with hh; subst hh)
    | (rename_i hh; split at hh)

theorem State.ctlSetReset_keeps {R : State → Prop} (hR : Keeps [.fab] ⟨[], [], [], false⟩ R) (s : State) (d k col row cs : Nat)
    (hI : R s) : R (State.ctlSetReset s d k col row cs) := by
  unfold State.ctlSetReset
  try dsimp only
  repeat' first
    | with_reducible assumption
    | exact hR.sub
    | with_reducible apply rel_ite
    | with_reducible apply State.setFf_keeps
    | (with_reducible apply rel_foldl; intro _ _ _)
    | (with_reducible apply rel_foldl2; intro _ _ _)
    | (with_reducible apply rel_foldl3; intro _ _ _)
    | (with_reducible apply rel_foldl1; intro _ _ _)
    | dsimp only
    | intro _ _
    | intro _
    | contradiction
    | (unfold id)
    | split
    | (rename_i hh; injection hh with hh; subst hh)
    | (rename_i hh; split at hh)

theorem State.segCycle_keeps {R : State → Prop} (hR : Keeps [.fab] ⟨[], [], [], false⟩ R) (s : State) (d k : Nat) (c : SegCycle)
    (hI : R s) : R (State.segCycle s d k c) := by
  unfold State.segCycle
  try dsimp only
  repeat' first
    | with_reducible assumption
    | exact hR.sub
    | exact fun h => memWf_memStore h
    | exact fun h => memWf_memPut h
    | exact fun h => memWf_filter _ h
    | exact fun _ => rfl
    | (intro b hb; exact fabWf_of hb (fun h => by (try dsimp only); first | with_reducible exact h | exact smWf_ramFill _ _ _ _ h | exact smWf_smPut (dflt := fun _ => 0) h | exact smWf_filter _ h) (fun h => by first | exact h | exact smWf_smPut (dflt := fun _ => 0) h | exact smWf_filter _ h))
    | with_reducible apply rel_ite
    | with_reducible apply State.onFab_keeps
    | (with_reducible apply rel_foldl; intro _ _ _)
    | (with_reducible apply rel_foldl2; intro _ _ _)
    | (with_reducible apply rel_foldl3; intro _ _ _)
    | (with_reducible apply rel_foldl1; intro _ _ _)
    | fail_if_no_progress (with_reducible apply hR.upd; all_goals try first | with_reducible exact .inr rfl | exact .inl (by decide +kernel) | exact id)
    | dsimp only
    | intro _ _
    | intro _
    | contradiction
    | (unfold id)
    | split
    | (rename_i hh; injection hh with hh; subst hh)
    | (rename_i hh; split at hh)

theorem State.ramPut_keeps {R : State → Prop} (hR : Keeps [.stewards, .sec, .fab] ⟨[], [], [], false⟩ R) (s : State) (d k : Nat) (key : Key) (v : Nat)
    (hI : R s) : R (State.ramPut s d k key v) := by
  unfold State.ramPut
  try dsimp only
  repeat' first
    | with_reducible assumption
    | exact hR.sub
    | exact fun h => memWf_memStore h
    | exact fun h => memWf_memPut h
    | exact fun h => memWf_filter _ h
    | exact fun _ => rfl
    | (intro b hb; exact fabWf_of hb (fun h => by (try dsimp only); first | with_reducible exact h | exact smWf_ramFill _ _ _ _ h | exact smWf_smPut (dflt := fun _ => 0) h | exact smWf_filter _ h) (fun h => by first | exact h | exact smWf_smPut (dflt := fun _ => 0) h | exact smWf_filter _ h))
    | with_reducible apply rel_ite
    | with_reducible apply State.drop_keeps
    | with_reducible apply State.onFab_keeps
    | with_reducible apply State.setSector_keeps
    | fail_if_no_progress (with_reducible apply hR.upd; all_goals try first | with_reducible exact .inr rfl | exact .inl (by decide +kernel) | exact id)
    | dsimp only
    | intro _ _
    | intro _
    | contradiction
    | (unfold id)
    | split
    | (rename_i hh; injection hh with hh; subst hh)
    | (rename_i hh; split at hh)

theorem State.ramPortEdge_keeps {R : State → Prop} (hR : Keeps [.stewards, .sec, .fab] ⟨[], [], [], false⟩ R) (s old : State) (c : RamCfg) (kb : Key) (p : Nat) (x : RamIn)
    (hI : R s) (hI1 : R old) : R (State.ramPortEdge s old c kb p x) := by
  unfold State.ramPortEdge
  try dsimp only
  repeat' first
    | with_reducible assumption
    | exact hR.sub
    | exact fun h => memWf_memStore h
    | exact fun h => memWf_memPut h
    | exact fun h => memWf_filter _ h
    | exact fun _ => rfl
    | (intro b hb; exact fabWf_of hb (fun h => by (try dsimp only); first | with_reducible exact h | exact smWf_ramFill _ _ _ _ h | exact smWf_smPut (dflt := fun _ => 0) h | exact smWf_filter _ h) (fun h => by first | exact h | exact smWf_smPut (dflt := fun _ => 0) h | exact smWf_filter _ h))
    | with_reducible apply rel_ite
    | with_reducible apply State.onFab_keeps
    | with_reducible apply State.ramPut_keeps
    | fail_if_no_progress (with_reducible apply hR.upd; all_goals try first | with_reducible exact .inr rfl | exact .inl (by decide +kernel) | exact id)
    | dsimp only
    | intro _ _
    | intro _
    | contradiction
    | (unfold id)
    | split
    | (rename_i hh; injection hh with hh; subst hh)
    | (rename_i hh; split at hh)

theorem State.writeBack_keeps {R : State → Prop} (hR : Keeps [.sec, .fab] ⟨[], [], [], false⟩ R) (s : State) (d k : Nat) (word : List Nat)
    (hI : R s) : R (State.writeBack s d k word) := by
  unfold State.writeBack
  try dsimp only
  repeat' first
    | with_reducible assumption
    | exact hR.sub
    | exact fun h => memWf_memStore h
    | exact fun h => memWf_memPut h
    | exact fun h => memWf_filter _ h
    | exact fun _ => rfl
    | (intro b hb; exact fabWf_of hb (fun h => by (try dsimp only); first | with_reducible exact h | exact smWf_ramFill _ _ _ _ h | exact smWf_smPut (dflt := fun _ => 0) h | exact smWf_filter _ h) (fun h => by first | exact h | exact smWf_smPut (dflt := fun _ => 0) h | exact smWf_filter _ h))
    | with_reducible apply rel_ite
    | with_reducible apply State.onFab_keeps
    | with_reducible apply State.setSector_keeps
    | fail_if_no_progress (with_reducible apply hR.upd; all_goals try first | with_reducible exact .inr rfl | exact .inl (by decide +kernel) | exact id)
    | dsimp only
    | intro _ _
    | intro _
    | contradiction
    | (unfold id)
    | split
    | (rename_i hh; injection hh with hh; subst hh)
    | (rename_i hh; split at hh)

theorem State.ramEdges_keeps {R : State → Prop} (hR : Keeps [.stewards, .sec, .fab] ⟨[], [], [], false⟩ R) (s : State) (c : RamCfg) (kb : Key) (p0 p1 : Option RamIn) (gap : Nat) (first0 : Bool)
    (hI : R s) : R (State.ramEdges s c kb p0 p1 gap first0) := by
  unfold State.ramEdges
  try dsimp only
  repeat' first
    | with_reducible assumption
    | exact hR.sub
    | exact fun h => memWf_memStore h
    | exact fun h => memWf_memPut h
    | exact fun h => memWf_filter _ h
    | exact fun _ => rfl
    | with_reducible apply rel_ite
    | with_reducible apply State.drop_keeps
    | with_reducible apply State.ramPortEdge_keeps
    | with_reducible apply State.writeBack_keeps
    | fail_if_no_progress (with_reducible apply hR.upd; all_goals try first | with_reducible exact .inr rfl | exact .inl (by decide +kernel) | exact id)
    | dsimp only
    | intro _ _
    | intro _
    | contradiction
    | (unfold id)
    | split
    | (rename_i hh; injection hh with hh; subst hh)
    | (rename_i hh; split at hh)

theorem State.ramFrame_keeps {R : State → Prop} (hR : Keeps [.fab] ⟨[], [], [], false⟩ R) (s : State) (d a data : Nat)
    (hI : R s) : R (State.ramFrame s d a data) := by
  unfold State.ramFrame
  try dsimp only
  repeat' first
    | with_reducible assumption
    | exact hR.sub
    | exact fun h => memWf_memStore h
    | exact fun h => memWf_memPut h
    | exact fun h => memWf_filter _ h
    | exact fun _ => rfl
    | (intro b hb; exact fabWf_of hb (fun h => by (try dsimp only); first | with_reducible exact h | exact smWf_ramFill _ _ _ _ h | exact smWf_smPut (dflt := fun _ => 0) h | exact smWf_filter _ h) (fun h => by first | exact h | exact smWf_smPut (dflt := fun _ => 0) h | exact smWf_filter _ h))
    | with_reducible apply rel_ite
    | with_reducible apply State.onFab_keeps
    | fail_if_no_progress (with_reducible apply hR.upd; all_goals try first | with_reducible exact .inr rfl | exact .inl (by decide +kernel) | exact id)
    | dsimp only
    | intro _ _
    | intro _
    | contradiction
    | (unfold id)
    | split
    | (rename_i hh; injection hh with hh; subst hh)
    | (rename_i hh; split at hh)

theorem State.setRkn_keeps {R : State → Prop} (hR : Keeps [.fab] ⟨[], [], [], false⟩ R) (s : State) (d k col block : Nat) (x : RknRt)
    (hI : R s) : R (State.setRkn s d k col block x) := by
  unfold State.setRkn
  try dsimp only
  repeat' first
    | with_reducible assumption
    | exact hR.sub
    | exact fun h => memWf_memStore h
    | exact fun h => memWf_memPut h
    | exact fun h => memWf_filter _ h
    | exact fun _ => rfl
    | (intro b hb; exact fabWf_of hb (fun h => by (try dsimp only); first | with_reducible exact h | exact smWf_ramFill _ _ _ _ h | exact smWf_smPut (dflt := fun _ => 0) h | exact smWf_filter _ h) (fun h => by first | exact h | exact smWf_smPut (dflt := fun _ => 0) h | exact smWf_filter _ h))
    | with_reducible apply rel_ite
    | with_reducible apply State.onFab_keeps
    | fail_if_no_progress (with_reducible apply hR.upd; all_goals try first | with_reducible exact .inr rfl | exact .inl (by decide +kernel) | exact id)
    | dsimp only
    | intro _ _
    | intro _
    | contradiction
    | (unfold id)
    | split
    | (rename_i hh; injection hh with hh; subst hh)
    | (rename_i hh; split at hh)

theorem State.rknAccess_keeps {R : State → Prop} (hR : Keeps [.fab] ⟨[], [], [], false⟩ R) (s : State) (d k col block : Nat) (x : RknIn) (hI : R s) :
    R (State.rknAccess s d k col block x).1 := by
  unfold State.rknAccess
  dsimp only
  split
  all_goals dsimp only
  · refine State.onFab_keeps hR.sub s _ hI ?_
    exact fun b hb => fabWf_of hb id (fun h => smWf_smPut (dflt := fun _ => 0) h)
  · exact hI

theorem State.rknEdge_keeps {R : State → Prop} (hR : Keeps [.fab] ⟨[], [], [], false⟩ R) (s : State) (d k col block : Nat) (c : RknCfg) (x : RknIn) (late : Bool)
    (hI : R s) : R (State.rknEdge s d k col block c x late) := by
  unfold State.rknEdge
  try dsimp only
  repeat' first
    | with_reducible assumption
    | exact hR.sub
    | exact fun h => memWf_memStore h
    | exact fun h => memWf_memPut h
    | exact fun h => memWf_filter _ h
    | exact fun _ => rfl
    | with_reducible apply rel_ite
    | with_reducible apply State.rknAccess_keeps
    | with_reducible apply State.setRkn_keeps
    | fail_if_no_progress (with_reducible apply hR.upd; all_goals try first | with_reducible exact .inr rfl | exact .inl (by decide +kernel) | exact id)
    | dsimp only
    | intro _ _
    | intro _
    | contradiction
    | (unfold id)
    | split
    | (rename_i hh; injection hh with hh; subst hh)
    | (rename_i hh; split at hh)

theorem State.inputTakes_keeps {R : State → Prop} (hR : Keeps [.fab] ⟨[], [], [], false⟩ R) (s : State) (d k input : Nat) (live v : Bool)
    (hI : R s) : R (State.inputTakes s d k input live v) := by
  unfold State.inputTakes
  try dsimp only
  repeat' first
    | with_reducible assumption
    | exact hR.sub
    | exact fun h => memWf_memStore h
    | exact fun h => memWf_memPut h
    | exact fun h => memWf_filter _ h
    | exact fun _ => rfl
    | (intro b hb; exact fabWf_of hb (fun h => by (try dsimp only); first | with_reducible exact h | exact smWf_ramFill _ _ _ _ h | exact smWf_smPut (dflt := fun _ => 0) h | exact smWf_filter _ h) (fun h => by first | exact h | exact smWf_smPut (dflt := fun _ => 0) h | exact smWf_filter _ h))
    | with_reducible apply rel_ite
    | with_reducible apply State.onFab_keeps
    | fail_if_no_progress (with_reducible apply hR.upd; all_goals try first | with_reducible exact .inr rfl | exact .inl (by decide +kernel) | exact id)
    | dsimp only
    | intro _ _
    | intro _
    | contradiction
    | (unfold id)
    | split
    | (rename_i hh; injection hh with hh; subst hh)
    | (rename_i hh; split at hh)

theorem State.userAct_keeps {R : State → Prop} (hR : Keeps [.stewards, .sec, .fab] ⟨[], [], [], false⟩ R) (s : State) (u : UserAct)
    (hI : R s) : R (State.userAct s u) := by
  unfold State.userAct
  try dsimp only
  repeat' first
    | with_reducible assumption
    | exact hR.sub
    | exact fun h => memWf_memStore h
    | exact fun h => memWf_memPut h
    | exact fun h => memWf_filter _ h
    | exact fun _ => rfl
    | (intro b hb; exact fabWf_of hb (fun h => by (try dsimp only); first | with_reducible exact h | exact smWf_ramFill _ _ _ _ h | exact smWf_smPut (dflt := fun _ => 0) h | exact smWf_filter _ h) (fun h => by first | exact h | exact smWf_smPut (dflt := fun _ => 0) h | exact smWf_filter _ h))
    | with_reducible apply rel_ite
    | with_reducible apply State.ctlEdge_keeps
    | with_reducible apply State.ctlSetReset_keeps
    | with_reducible apply State.inputTakes_keeps
    | with_reducible apply State.onFab_keeps
    | with_reducible apply State.ramEdges_keeps
    | with_reducible apply State.rknEdge_keeps
    | with_reducible apply State.segCycle_keeps
    | fail_if_no_progress (with_reducible apply hR.upd; all_goals try first | with_reducible exact .inr rfl | exact .inl (by decide +kernel) | exact id)
    | dsimp only
    | intro _ _
    | intro _
    | contradiction
    | (unfold id)
    | split
    | (rename_i hh; injection hh with hh; subst hh)
    | (rename_i hh; split at hh)

theorem State.userNs_keeps {R : State → Prop} (hR : Keeps [.draws, .stewards, .sec, .fab] ⟨[], [], [], false⟩ R) (s : State)
    (hI : R s) : R (State.userNs s) := by
  unfold State.userNs
  try dsimp only
  repeat' first
    | with_reducible assumption
    | exact hR.sub
    | exact fun h => memWf_memStore h
    | exact fun h => memWf_memPut h
    | exact fun h => memWf_filter _ h
    | exact fun _ => rfl
    | with_reducible apply rel_ite
    | with_reducible apply State.userAct_keeps
    | (with_reducible apply rel_foldl; intro _ _ _)
    | (with_reducible apply rel_foldl2; intro _ _ _)
    | (with_reducible apply rel_foldl3; intro _ _ _)
    | (with_reducible apply rel_foldl1; intro _ _ _)
    | fail_if_no_progress (with_reducible apply hR.upd; all_goals try first | with_reducible exact .inr rfl | exact .inl (by decide +kernel) | exact id)
    | dsimp only
    | intro _ _
    | intro _
    | contradiction
    | (unfold id)
    | split
    | (rename_i hh; injection hh with hh; subst hh)
    | (rename_i hh; split at hh)

end Sys2Proof.Machine
end

