-- ==== Sys2Proof/Laws/KeepsManagement.lean ====
section
/-! SUPPORT. What the operations of `Machine/Management.lean` may change and what they keep. -/

namespace Sys2Proof.Machine

set_option Elab.async false
set_option linter.all false

theorem State.irq_keeps {R : State → Prop} (hR : Keeps [.regs] ⟨[.HELM_IC_PEND_BITS], [], [], false⟩ R) (s : State) (src : Nat)
    (hI : R s) : R (State.irq s src) := by
  unfold State.irq
  try dsimp only
  repeat' first
    | with_reducible assumption
    | exact hR.sub
    | exact hR.sub (by decide +kernel) (subFld_self _ _)
    | with_reducible apply rel_ite
    | with_reducible apply State.setBit_keeps
    | dsimp only
    | intro _ _
    | intro _
    | contradiction
    | (unfold id)
    | split
    | (rename_i hh; injection hh with hh; subst hh)
    | (rename_i hh; split at hh)

theorem State.setHelm_keeps {R : State → Prop} (hR : Keeps [.helm] ⟨[], [], [], false⟩ R) (s : State) (c : Nat) (x : HelmRt)
    (hI : R s) : R (State.setHelm s c x) := by
  unfold State.setHelm
  try dsimp only
  repeat' first
    | with_reducible assumption
    | exact hR.sub
    | exact fun h => memWf_memStore h
    | exact fun h => memWf_memPut h
    | exact fun h => memWf_filter _ h
    | exact fun _ => rfl
    | with_reducible apply rel_ite
    | fail_if_no_progress (with_reducible apply hR.upd; all_goals try first | with_reducible exact .inr rfl | exact .inl (by decide +kernel) | exact id)
    | dsimp only
    | intro _ _
    | intro _
    | contradiction
    | (unfold id)
    | split
    | (rename_i hh; injection hh with hh; subst hh)
    | (rename_i hh; split at hh)

theorem execBlockErrorReport_keeps {R : State → Prop} (hR : Keeps partsBlockErrorReport fieldsBlockErrorReport R) (site : Fin 9) (off : BitVec 25) (code : BitVec 16) (sev : Fin 5) (arg : BitVec 64) (s : State)
    (hI : R s) {tT : State} (eE : execBlockErrorReport site off code sev arg s = .next tT) : R tT := by
  unfold execBlockErrorReport at eE
  try dsimp only at eE
  repeat' split at eE
  all_goals try (injection eE with eE; subst eE)
  all_goals repeat' first
    | with_reducible assumption
    | exact hR.sub
    | with_reducible apply rel_ite
    | with_reducible apply State.dirNext_keeps
    | with_reducible apply State.flashMessage_keeps
    | with_reducible apply State.message_keeps
    | with_reducible apply State.packageReset_keeps
    | with_reducible apply State.powerOn_keeps
    | with_reducible apply State.push_keeps
    | with_reducible apply State.reach_keeps
    | dsimp only
    | intro _ _
    | intro _
    | contradiction
    | (unfold id)
    | split
    | (rename_i hh; injection hh with hh; subst hh)
    | (rename_i hh; split at hh)

theorem execOverflowEvent_keeps {R : State → Prop} (hR : Keeps partsOverflowEvent fieldsOverflowEvent R) (d : Fin 8) (s : State)
    (hI : R s) {tT : State} (eE : execOverflowEvent d s = .next tT) : R tT := by
  unfold execOverflowEvent at eE
  try dsimp only at eE
  repeat' split at eE
  all_goals try (injection eE with eE; subst eE)
  all_goals repeat' first
    | with_reducible assumption
    | exact hR.sub
    | with_reducible apply rel_ite
    | with_reducible apply State.dirNext_keeps
    | with_reducible apply State.flashMessage_keeps
    | with_reducible apply State.message_keeps
    | with_reducible apply State.packageReset_keeps
    | with_reducible apply State.powerOn_keeps
    | with_reducible apply State.reach_keeps
    | with_reducible apply State.setSteward_keeps
    | dsimp only
    | intro _ _
    | intro _
    | contradiction
    | (unfold id)
    | split
    | (rename_i hh; injection hh with hh; subst hh)
    | (rename_i hh; split at hh)

theorem State.append_keeps {R : State → Prop} (hR : Keeps [.regs, .evlog, .jtodo] ⟨[.EVT_INFO_CNT_COUNT, .EVT_LOST_CNT_COUNT, .EVT_NEXT_SEQ, .HELM_IC_PEND_BITS], [], [], false⟩ R) (s : State) (r : Report)
    (hI : R s) : R (State.append s r) := by
  unfold State.append
  try dsimp only
  repeat' first
    | with_reducible assumption
    | exact hR.sub
    | exact fun h => memWf_memStore h
    | exact fun h => memWf_memPut h
    | exact fun h => memWf_filter _ h
    | exact fun _ => rfl
    | exact hR.sub (by decide +kernel) (subFld_self _ _)
    | with_reducible apply rel_ite
    | with_reducible apply State.bump_keeps
    | with_reducible apply State.incr_keeps
    | with_reducible apply State.irq_keeps
    | fail_if_no_progress (with_reducible apply hR.upd; all_goals try first | with_reducible exact .inr rfl | exact .inl (by decide +kernel) | exact id)
    | dsimp only
    | intro _ _
    | intro _
    | contradiction
    | (unfold id)
    | split
    | (rename_i hh; injection hh with hh; subst hh)
    | (rename_i hh; split at hh)

theorem execEventLogAppend_keeps {R : State → Prop} (hR : Keeps partsEventLogAppend fieldsEventLogAppend R) (site : Fin 9) (s : State)
    (hI : R s) {tT : State} (eE : execEventLogAppend site s = .next tT) : R tT := by
  unfold execEventLogAppend at eE
  try dsimp only at eE
  repeat' split at eE
  all_goals try (injection eE with eE; subst eE)
  all_goals repeat' first
    | with_reducible assumption
    | exact hR.sub
    | exact fun h => memWf_memStore h
    | exact fun h => memWf_memPut h
    | exact fun h => memWf_filter _ h
    | exact fun _ => rfl
    | with_reducible apply rel_ite
    | with_reducible apply State.append_keeps
    | with_reducible apply State.dirNext_keeps
    | with_reducible apply State.flashMessage_keeps
    | with_reducible apply State.message_keeps
    | with_reducible apply State.packageReset_keeps
    | with_reducible apply State.powerOn_keeps
    | with_reducible apply State.reach_keeps
    | with_reducible apply State.setSteward_keeps
    | fail_if_no_progress (with_reducible apply hR.upd; all_goals try first | with_reducible exact .inr rfl | exact .inl (by decide +kernel) | exact id)
    | dsimp only
    | intro _ _
    | intro _
    | contradiction
    | (unfold id)
    | split
    | (rename_i hh; injection hh with hh; subst hh)
    | (rename_i hh; split at hh)

theorem execEvtAckWrite_keeps {R : State → Prop} (hR : Keeps partsEvtAckWrite fieldsEvtAckWrite R) (w : Writer) (v : BitVec 32) (s : State)
    (hI : R s) {tT : State} (eE : execEvtAckWrite w v s = .next tT) : R tT := by
  unfold execEvtAckWrite at eE
  try dsimp only at eE
  repeat' split at eE
  all_goals try (injection eE with eE; subst eE)
  all_goals repeat' first
    | with_reducible assumption
    | exact hR.sub
    | with_reducible apply rel_ite
    | with_reducible refine hR.wr _ _ _ (by decide +kernel) (by first | decide +kernel | exact hasFld_self _ _ | exact hasFld_all _ | (simp [hasFld]; done) ) ?_
    | with_reducible apply State.dirNext_keeps
    | with_reducible apply State.drop_keeps
    | with_reducible apply State.flashMessage_keeps
    | with_reducible apply State.message_keeps
    | with_reducible apply State.packageReset_keeps
    | with_reducible apply State.powerOn_keeps
    | with_reducible apply State.reach_keeps
    | dsimp only
    | intro _ _
    | intro _
    | contradiction
    | (unfold id)
    | split
    | (rename_i hh; injection hh with hh; subst hh)
    | (rename_i hh; split at hh)

theorem execJournalWrite_keeps {R : State → Prop} (hR : Keeps partsJournalWrite fieldsJournalWrite R) (s : State)
    (hI : R s) {tT : State} (eE : execJournalWrite s = .next tT) : R tT := by
  unfold execJournalWrite at eE
  try dsimp only at eE
  repeat' split at eE
  all_goals try (injection eE with eE; subst eE)
  all_goals repeat' first
    | with_reducible assumption
    | exact hR.sub
    | exact fun h => memWf_memStore h
    | exact fun h => memWf_memPut h
    | exact fun h => memWf_filter _ h
    | exact fun _ => rfl
    | with_reducible apply rel_ite
    | with_reducible apply State.dirNext_keeps
    | with_reducible apply State.flashMessage_keeps
    | with_reducible apply State.message_keeps
    | with_reducible apply State.packageReset_keeps
    | with_reducible apply State.powerOn_keeps
    | with_reducible apply State.reach_keeps
    | fail_if_no_progress (with_reducible apply hR.upd; all_goals try first | with_reducible exact .inr rfl | exact .inl (by decide +kernel) | exact id)
    | dsimp only
    | intro _ _
    | intro _
    | contradiction
    | (unfold id)
    | split
    | (rename_i hh; injection hh with hh; subst hh)
    | (rename_i hh; split at hh)

end Sys2Proof.Machine
end

