-- ==== Sys2Proof/Laws/KeepsFabric.lean ====
section
/-! SUPPORT. What the operations of `Machine/Fabric.lean` may change and what they keep. -/

namespace Sys2Proof.Machine

set_option Elab.async false
set_option linter.all false

theorem State.sectorReset_keeps {R : State → Prop} (hR : Keeps [.regs, .govs, .sec, .fab] ⟨[.SEC_CTL_RESET, .SEC_STATUS_ISOLATED, .SEC_STATUS_PERMIT_WAIT, .SEC_STATUS_RESET_HELD, .SEC_STATUS_STATE], [.sec], [], false⟩ R) (s : State) (d k : Nat)
    (hI : R s) : R (State.sectorReset s d k) := by
  unfold State.sectorReset
  try dsimp only
  repeat' first
    | with_reducible assumption
    | exact hR.sub
    | exact fun h => memWf_memStore h
    | exact fun h => memWf_memPut h
    | exact fun h => memWf_filter _ h
    | exact fun _ => rfl
    | with_reducible apply rel_ite
    | with_reducible refine hR.wr _ _ _ (by decide +kernel) (by first | decide +kernel | exact hasFld_self _ _ | exact hasFld_all _ | (simp [hasFld]; done) ) ?_
    | with_reducible refine hR.clear _ (by decide +kernel) (fun _ _ h => hasFld_cls (secClears_cls h)) ?_
    | with_reducible apply State.fabReset_keeps
    | with_reducible apply State.giveBack_keeps
    | with_reducible apply State.setSector_keeps
    | fail_if_no_progress (with_reducible apply hR.upd; all_goals try first | with_reducible exact .inr rfl | exact .inl (by decide +kernel) | exact id)
    | dsimp only
    | intro _ _
    | intro _
    | contradiction
    | (unfold id)
    | split
    | (rename_i hh; injection hh with hh; subst hh)
    | (rename_i hh; split at hh)

theorem State.sectorRun_keeps {R : State → Prop} (hR : Keeps [.regs, .sec] ⟨[.SEC_STATUS_ISOLATED, .SEC_STATUS_PERMIT_WAIT, .SEC_STATUS_STATE], [], [], false⟩ R) (s : State) (d k : Nat)
    (hI : R s) : R (State.sectorRun s d k) := by
  unfold State.sectorRun
  try dsimp only
  repeat' first
    | with_reducible assumption
    | exact hR.sub
    | exact fun h => memWf_memStore h
    | exact fun h => memWf_memPut h
    | exact fun h => memWf_filter _ h
    | exact fun _ => rfl
    | with_reducible apply rel_ite
    | with_reducible refine hR.wr _ _ _ (by decide +kernel) (by first | decide +kernel | exact hasFld_self _ _ | exact hasFld_all _ | (simp [hasFld]; done) ) ?_
    | with_reducible apply State.setSector_keeps
    | fail_if_no_progress (with_reducible apply hR.upd; all_goals try first | with_reducible exact .inr rfl | exact .inl (by decide +kernel) | exact id)
    | dsimp only
    | intro _ _
    | intro _
    | contradiction
    | (unfold id)
    | split
    | (rename_i hh; injection hh with hh; subst hh)
    | (rename_i hh; split at hh)

theorem State.askRelease_keeps {R : State → Prop} (hR : Keeps [.regs, .stewards, .govs] ⟨[.PG_ERR_OP, .PG_ERR_OVERSIZE, .PG_ERR_UNITS, .PG_ERR_VALID, .PG_TO_CNT_COUNT, .SEC_STATUS_PERMIT_WAIT], [], [], false⟩ R) (s : State) (d k : Nat)
    (hI : R s) : R (State.askRelease s d k) := by
  unfold State.askRelease
  try dsimp only
  repeat' first
    | with_reducible assumption
    | exact hR.sub
    | exact fun h => memWf_memStore h
    | exact fun h => memWf_memPut h
    | exact fun h => memWf_filter _ h
    | exact fun _ => rfl
    | with_reducible apply rel_ite
    | with_reducible refine hR.wr _ _ _ (by decide +kernel) (by first | decide +kernel | exact hasFld_self _ _ | exact hasFld_all _ | (simp [hasFld]; done) ) ?_
    | with_reducible apply State.request_keeps
    | fail_if_no_progress (with_reducible apply hR.upd; all_goals try first | with_reducible exact .inr rfl | exact .inl (by decide +kernel) | exact id)
    | dsimp only
    | intro _ _
    | intro _
    | contradiction
    | (unfold id)
    | split
    | (rename_i hh; injection hh with hh; subst hh)
    | (rename_i hh; split at hh)

theorem State.drive_keeps {R : State → Prop} (hR : Keeps [.now, .local_, .regs, .stewards, .govs, .spinePull] ⟨[.PG_ERR_OP, .PG_ERR_OVERSIZE, .PG_ERR_UNITS, .PG_ERR_VALID, .PG_GRANT_CNT_COUNT, .PG_TO_CNT_COUNT], [], [], false⟩ R) (s : State) (g : Nat) (who : List Nat) (n : Nat)
    (hI : R s) : R (State.drive s g who n) := by
  induction n generalizing s g who with
  | zero => exact hI
  | succ n ih =>
  unfold State.drive
  try dsimp only
  repeat' first
    | with_reducible assumption
    | (with_reducible apply ih)
    | exact hR.sub
    | exact fun h => memWf_memStore h
    | exact fun h => memWf_memPut h
    | exact fun h => memWf_filter _ h
    | exact fun _ => rfl
    | with_reducible apply rel_ite
    | with_reducible apply State.grantHead_keeps
    | fail_if_no_progress (with_reducible apply hR.upd; all_goals try first | with_reducible exact .inr rfl | exact .inl (by decide +kernel) | exact id)
    | dsimp only
    | intro _ _
    | intro _
    | contradiction
    | (unfold id)
    | split
    | (rename_i hh; injection hh with hh; subst hh)
    | (rename_i hh; split at hh)

theorem execSectorReset_keeps {R : State → Prop} (hR : Keeps partsSectorReset fieldsSectorReset R) (w : Writer) (d : Fin 8) (k : Fin 40) (s : State)
    (hI : R s) {tT : State} (eE : execSectorReset w d k s = .next tT) : R tT := by
  unfold execSectorReset at eE
  try dsimp only at eE
  repeat' split at eE
  all_goals try (injection eE with eE; subst eE)
  all_goals repeat' first
    | with_reducible assumption
    | exact hR.sub
    | with_reducible apply rel_ite
    | with_reducible refine hR.wr _ _ _ (by decide +kernel) (by first | decide +kernel | exact hasFld_self _ _ | exact hasFld_all _ | (simp [hasFld]; done) ) ?_
    | with_reducible apply State.dirNext_keeps
    | with_reducible apply State.flashMessage_keeps
    | with_reducible apply State.message_keeps
    | with_reducible apply State.packageReset_keeps
    | with_reducible apply State.powerOn_keeps
    | with_reducible apply State.reach_keeps
    | with_reducible apply State.sectorReset_keeps
    | dsimp only
    | intro _ _
    | intro _
    | contradiction
    | (unfold id)
    | split
    | (rename_i hh; injection hh with hh; subst hh)
    | (rename_i hh; split at hh)

theorem execSectorReleaseRequest_keeps {R : State → Prop} (hR : Keeps partsSectorReleaseRequest fieldsSectorReleaseRequest R) (w : Writer) (d : Fin 8) (k : Fin 40) (s : State)
    (hI : R s) {tT : State} (eE : execSectorReleaseRequest w d k s = .next tT) : R tT := by
  unfold execSectorReleaseRequest at eE
  try dsimp only at eE
  repeat' split at eE
  all_goals try (injection eE with eE; subst eE)
  all_goals repeat' first
    | with_reducible assumption
    | exact hR.sub
    | with_reducible apply rel_ite
    | with_reducible refine hR.wr _ _ _ (by decide +kernel) (by first | decide +kernel | exact hasFld_self _ _ | exact hasFld_all _ | (simp [hasFld]; done) ) ?_
    | with_reducible apply State.askRelease_keeps
    | with_reducible apply State.dirNext_keeps
    | with_reducible apply State.flashMessage_keeps
    | with_reducible apply State.message_keeps
    | with_reducible apply State.packageReset_keeps
    | with_reducible apply State.powerOn_keeps
    | with_reducible apply State.raise_keeps
    | with_reducible apply State.reach_keeps
    | dsimp only
    | intro _ _
    | intro _
    | contradiction
    | (unfold id)
    | split
    | (rename_i hh; injection hh with hh; subst hh)
    | (rename_i hh; split at hh)

theorem execSectorRelease_keeps {R : State → Prop} (hR : Keeps partsSectorRelease fieldsSectorRelease R) (d : Fin 8) (k : Fin 40) (edge : Nat) (s : State)
    (hI : R s) {tT : State} (eE : execSectorRelease d k edge s = .next tT) : R tT := by
  unfold execSectorRelease at eE
  try dsimp only at eE
  repeat' split at eE
  all_goals try (injection eE with eE; subst eE)
  all_goals repeat' first
    | with_reducible assumption
    | exact hR.sub
    | exact fun h => memWf_memStore h
    | exact fun h => memWf_memPut h
    | exact fun h => memWf_filter _ h
    | exact fun _ => rfl
    | with_reducible apply rel_ite
    | with_reducible apply State.dirNext_keeps
    | with_reducible apply State.drive_keeps
    | with_reducible apply State.flashMessage_keeps
    | with_reducible apply State.lapse_keeps
    | with_reducible apply State.message_keeps
    | with_reducible apply State.packageReset_keeps
    | with_reducible apply State.powerOn_keeps
    | with_reducible apply State.reach_keeps
    | with_reducible apply State.sectorRun_keeps
    | (refine State.takeGrant_keeps hR.sub _ _ _ _ ?_ (by assumption))
    | fail_if_no_progress (with_reducible apply hR.upd; all_goals try first | with_reducible exact .inr rfl | exact .inl (by decide +kernel) | exact id)
    | dsimp only
    | intro _ _
    | intro _
    | contradiction
    | (unfold id)
    | split
    | (rename_i hh; injection hh with hh; subst hh)
    | (rename_i hh; split at hh)

theorem execSectorReleaseTimeout_keeps {R : State → Prop} (hR : Keeps partsSectorReleaseTimeout fieldsSectorReleaseTimeout R) (d : Fin 8) (k : Fin 40) (s : State)
    (hI : R s) {tT : State} (eE : execSectorReleaseTimeout d k s = .next tT) : R tT := by
  unfold execSectorReleaseTimeout at eE
  try dsimp only at eE
  repeat' split at eE
  all_goals (injection eE with eE; subst eE)
  · rename_i t' h
    have h1 : R t' := by
      split at h
      · injection h with h; subst h
        exact State.takeTimeout_keeps hR.sub _ _ _ _ hI (by assumption)
      · exact State.takeTimeout_keeps hR.sub _ _ _ _ hI h
    repeat' first
    | with_reducible assumption
    | exact hR.sub
    | fail_if_no_progress (with_reducible apply hR.upd; all_goals try first | exact .inl (by decide +kernel) | with_reducible exact .inr rfl | exact id)
    | with_reducible apply rel_ite
    | with_reducible refine hR.wr _ _ _ (by decide +kernel) (by decide +kernel) ?_
    | with_reducible apply State.bump_keeps
    | with_reducible apply State.raise_keeps
  all_goals assumption

theorem State.remapDone_keeps {R : State → Prop} (hR : Keeps [.regs, .stewards, .health] ⟨[.MGMT_HEALTH_STAGE, .MGMT_HEALTH_ZERO, .SEC_STATUS_PENDING_REMAP], [], [], false⟩ R) (s : State) (d k : Nat)
    (hI : R s) : R (State.remapDone s d k) := by
  unfold State.remapDone
  try dsimp only
  repeat' first
    | with_reducible assumption
    | exact hR.sub
    | with_reducible apply rel_ite
    | with_reducible refine hR.wr _ _ _ (by decide +kernel) (by first | decide +kernel | exact hasFld_self _ _ | exact hasFld_all _ | (simp [hasFld]; done) ) ?_
    | with_reducible apply State.notice_keeps
    | dsimp only
    | intro _ _
    | intro _
    | contradiction
    | (unfold id)
    | split
    | (rename_i hh; injection hh with hh; subst hh)
    | (rename_i hh; split at hh)

theorem State.startMigration_keeps {R : State → Prop} (hR : Keeps [.regs, .sec] ⟨[.SEC_STATUS_STATE], [], [], false⟩ R) (s : State) (d k p : Nat) (held : Bool)
    (hI : R s) : R (State.startMigration s d k p held) := by
  unfold State.startMigration
  try dsimp only
  repeat' first
    | with_reducible assumption
    | exact hR.sub
    | exact fun h => memWf_memStore h
    | exact fun h => memWf_memPut h
    | exact fun h => memWf_filter _ h
    | exact fun _ => rfl
    | with_reducible apply rel_ite
    | with_reducible refine hR.wr _ _ _ (by decide +kernel) (by first | decide +kernel | exact hasFld_self _ _ | exact hasFld_all _ | (simp [hasFld]; done) ) ?_
    | with_reducible apply State.setSector_keeps
    | fail_if_no_progress (with_reducible apply hR.upd; all_goals try first | with_reducible exact .inr rfl | exact .inl (by decide +kernel) | exact id)
    | dsimp only
    | intro _ _
    | intro _
    | contradiction
    | (unfold id)
    | split
    | (rename_i hh; injection hh with hh; subst hh)
    | (rename_i hh; split at hh)

theorem execMigrate_keeps {R : State → Prop} (hR : Keeps partsMigrate fieldsMigrate R) (w : Writer) (d : Fin 8) (k : Fin 40) (p : Nat) (s : State)
    (hI : R s) {tT : State} (eE : execMigrate w d k p s = .next tT) : R tT := by
  unfold execMigrate at eE
  try dsimp only at eE
  repeat' split at eE
  all_goals try (injection eE with eE; subst eE)
  all_goals repeat' first
    | with_reducible assumption
    | exact hR.sub
    | with_reducible apply rel_ite
    | with_reducible apply State.dirNext_keeps
    | with_reducible apply State.dropF_keeps
    | with_reducible apply State.flashMessage_keeps
    | with_reducible apply State.message_keeps
    | with_reducible apply State.packageReset_keeps
    | with_reducible apply State.powerOn_keeps
    | with_reducible apply State.reach_keeps
    | with_reducible apply State.startMigration_keeps
    | dsimp only
    | intro _ _
    | intro _
    | contradiction
    | (unfold id)
    | split
    | (rename_i hh; injection hh with hh; subst hh)
    | (rename_i hh; split at hh)

theorem execMigrationGated_keeps {R : State → Prop} (hR : Keeps partsMigrationGated fieldsMigrationGated R) (d : Fin 8) (k : Fin 40) (s : State)
    (hI : R s) {tT : State} (eE : execMigrationGated d k s = .next tT) : R tT := by
  unfold execMigrationGated at eE
  try dsimp only at eE
  repeat' split at eE
  all_goals try (injection eE with eE; subst eE)
  all_goals repeat' first
    | with_reducible assumption
    | exact hR.sub
    | exact fun h => memWf_memStore h
    | exact fun h => memWf_memPut h
    | exact fun h => memWf_filter _ h
    | exact fun _ => rfl
    | with_reducible apply rel_ite
    | with_reducible apply State.dirNext_keeps
    | with_reducible apply State.flashMessage_keeps
    | with_reducible apply State.lapseTo_keeps
    | with_reducible apply State.message_keeps
    | with_reducible apply State.packageReset_keeps
    | with_reducible apply State.powerOn_keeps
    | with_reducible apply State.reach_keeps
    | with_reducible apply State.setSector_keeps
    | fail_if_no_progress (with_reducible apply hR.upd; all_goals try first | with_reducible exact .inr rfl | exact .inl (by decide +kernel) | exact id)
    | dsimp only
    | intro _ _
    | intro _
    | contradiction
    | (unfold id)
    | split
    | (rename_i hh; injection hh with hh; subst hh)
    | (rename_i hh; split at hh)

theorem execMigrationCaptureDone_keeps {R : State → Prop} (hR : Keeps partsMigrationCaptureDone fieldsMigrationCaptureDone R) (d : Fin 8) (k : Fin 40) (s : State)
    (hI : R s) {tT : State} (eE : execMigrationCaptureDone d k s = .next tT) : R tT := by
  unfold execMigrationCaptureDone at eE
  try dsimp only at eE
  repeat' split at eE
  all_goals try (injection eE with eE; subst eE)
  all_goals repeat' first
    | with_reducible assumption
    | exact hR.sub
    | exact fun h => memWf_memStore h
    | exact fun h => memWf_memPut h
    | exact fun h => memWf_filter _ h
    | exact fun _ => rfl
    | with_reducible apply rel_ite
    | with_reducible apply State.dirNext_keeps
    | with_reducible apply State.flashMessage_keeps
    | with_reducible apply State.lapseTo_keeps
    | with_reducible apply State.message_keeps
    | with_reducible apply State.packageReset_keeps
    | with_reducible apply State.powerOn_keeps
    | with_reducible apply State.reach_keeps
    | with_reducible apply State.setSector_keeps
    | fail_if_no_progress (with_reducible apply hR.upd; all_goals try first | with_reducible exact .inr rfl | exact .inl (by decide +kernel) | exact id)
    | dsimp only
    | intro _ _
    | intro _
    | contradiction
    | (unfold id)
    | split
    | (rename_i hh; injection hh with hh; subst hh)
    | (rename_i hh; split at hh)

theorem execMigrationRewriteDone_keeps {R : State → Prop} (hR : Keeps partsMigrationRewriteDone fieldsMigrationRewriteDone R) (d : Fin 8) (k : Fin 40) (s : State)
    (hI : R s) {tT : State} (eE : execMigrationRewriteDone d k s = .next tT) : R tT := by
  unfold execMigrationRewriteDone at eE
  try dsimp only at eE
  repeat' split at eE
  all_goals try (injection eE with eE; subst eE)
  all_goals repeat' first
    | with_reducible assumption
    | exact hR.sub
    | exact fun h => memWf_memStore h
    | exact fun h => memWf_memPut h
    | exact fun h => memWf_filter _ h
    | exact fun _ => rfl
    | with_reducible apply rel_ite
    | with_reducible refine hR.wr _ _ _ (by decide +kernel) (by first | decide +kernel | exact hasFld_self _ _ | exact hasFld_all _ | (simp [hasFld]; done) ) ?_
    | with_reducible apply State.dirNext_keeps
    | with_reducible apply State.flashMessage_keeps
    | with_reducible apply State.lapseTo_keeps
    | with_reducible apply State.message_keeps
    | with_reducible apply State.packageReset_keeps
    | with_reducible apply State.powerOn_keeps
    | with_reducible apply State.reach_keeps
    | with_reducible apply State.remapDone_keeps
    | with_reducible apply State.setSector_keeps
    | fail_if_no_progress (with_reducible apply hR.upd; all_goals try first | with_reducible exact .inr rfl | exact .inl (by decide +kernel) | exact id)
    | dsimp only
    | intro _ _
    | intro _
    | contradiction
    | (unfold id)
    | split
    | (rename_i hh; injection hh with hh; subst hh)
    | (rename_i hh; split at hh)

theorem execMigrationRestoreDone_keeps {R : State → Prop} (hR : Keeps partsMigrationRestoreDone fieldsMigrationRestoreDone R) (d : Fin 8) (k : Fin 40) (s : State)
    (hI : R s) {tT : State} (eE : execMigrationRestoreDone d k s = .next tT) : R tT := by
  unfold execMigrationRestoreDone at eE
  try dsimp only at eE
  repeat' split at eE
  all_goals try (injection eE with eE; subst eE)
  all_goals repeat' first
    | with_reducible assumption
    | exact hR.sub
    | exact fun h => memWf_memStore h
    | exact fun h => memWf_memPut h
    | exact fun h => memWf_filter _ h
    | exact fun _ => rfl
    | with_reducible apply rel_ite
    | with_reducible apply State.dirNext_keeps
    | with_reducible apply State.flashMessage_keeps
    | with_reducible apply State.lapseTo_keeps
    | with_reducible apply State.message_keeps
    | with_reducible apply State.packageReset_keeps
    | with_reducible apply State.powerOn_keeps
    | with_reducible apply State.reach_keeps
    | with_reducible apply State.request_keeps
    | with_reducible apply State.setSector_keeps
    | fail_if_no_progress (with_reducible apply hR.upd; all_goals try first | with_reducible exact .inr rfl | exact .inl (by decide +kernel) | exact id)
    | dsimp only
    | intro _ _
    | intro _
    | contradiction
    | (unfold id)
    | split
    | (rename_i hh; injection hh with hh; subst hh)
    | (rename_i hh; split at hh)

theorem execMigrationRestart_keeps {R : State → Prop} (hR : Keeps partsMigrationRestart fieldsMigrationRestart R) (d : Fin 8) (k : Fin 40) (s : State)
    (hI : R s) {tT : State} (eE : execMigrationRestart d k s = .next tT) : R tT := by
  unfold execMigrationRestart at eE
  try dsimp only at eE
  repeat' split at eE
  all_goals try (injection eE with eE; subst eE)
  all_goals repeat' first
    | with_reducible assumption
    | exact hR.sub
    | exact fun h => memWf_memStore h
    | exact fun h => memWf_memPut h
    | exact fun h => memWf_filter _ h
    | exact fun _ => rfl
    | with_reducible apply rel_ite
    | with_reducible apply State.dirNext_keeps
    | with_reducible apply State.flashMessage_keeps
    | with_reducible apply State.message_keeps
    | with_reducible apply State.packageReset_keeps
    | with_reducible apply State.powerOn_keeps
    | with_reducible apply State.reach_keeps
    | with_reducible apply State.remapDone_keeps
    | with_reducible apply State.sectorReset_keeps
    | with_reducible apply State.sectorRun_keeps
    | (refine State.takeGrant_keeps hR.sub _ _ _ _ ?_ (by assumption))
    | fail_if_no_progress (with_reducible apply hR.upd; all_goals try first | with_reducible exact .inr rfl | exact .inl (by decide +kernel) | exact id)
    | dsimp only
    | intro _ _
    | intro _
    | contradiction
    | (unfold id)
    | split
    | (rename_i hh; injection hh with hh; subst hh)
    | (rename_i hh; split at hh)

theorem execMigrationPermitTimeout_keeps {R : State → Prop} (hR : Keeps partsMigrationPermitTimeout fieldsMigrationPermitTimeout R) (d : Fin 8) (k : Fin 40) (s : State)
    (hI : R s) {tT : State} (eE : execMigrationPermitTimeout d k s = .next tT) : R tT := by
  unfold execMigrationPermitTimeout at eE
  try dsimp only at eE
  repeat' split at eE
  all_goals try (injection eE with eE; subst eE)
  all_goals repeat' first
    | with_reducible assumption
    | exact hR.sub
    | exact fun h => memWf_memStore h
    | exact fun h => memWf_memPut h
    | exact fun h => memWf_filter _ h
    | exact fun _ => rfl
    | with_reducible apply rel_ite
    | with_reducible apply State.dirNext_keeps
    | with_reducible apply State.flashMessage_keeps
    | with_reducible apply State.message_keeps
    | with_reducible apply State.packageReset_keeps
    | with_reducible apply State.powerOn_keeps
    | with_reducible apply State.raise_keeps
    | with_reducible apply State.reach_keeps
    | with_reducible apply State.remapDone_keeps
    | with_reducible apply State.sectorReset_keeps
    | (refine State.takeTimeout_keeps hR.sub _ _ _ _ ?_ (by assumption))
    | fail_if_no_progress (with_reducible apply hR.upd; all_goals try first | with_reducible exact .inr rfl | exact .inl (by decide +kernel) | exact id)
    | dsimp only
    | intro _ _
    | intro _
    | contradiction
    | (unfold id)
    | split
    | (rename_i hh; injection hh with hh; subst hh)
    | (rename_i hh; split at hh)

def opFieldsSectorUnavailable : FSet :=
  ⟨[.MGMT_HEALTH_STAGE, .SEC_CTL_RESET, .SEC_STATUS_ISOLATED, .SEC_STATUS_PERMIT_WAIT, .SEC_STATUS_RESET_HELD,
    .SEC_STATUS_STATE], [.sec], [], false⟩

theorem State.sectorUnavailable_keeps {R : State → Prop} (hR : Keeps [.regs, .stewards, .health, .govs, .sec, .fab] opFieldsSectorUnavailable R) (s : State) (d k rule : Nat)
    (hI : R s) : R (State.sectorUnavailable s d k rule) := by
  unfold State.sectorUnavailable
  try dsimp only
  repeat' first
    | with_reducible assumption
    | exact hR.sub
    | with_reducible apply rel_ite
    | with_reducible refine hR.wr _ _ _ (by decide +kernel) (by first | decide +kernel | exact hasFld_self _ _ | exact hasFld_all _ | (simp [hasFld]; done) ) ?_
    | with_reducible apply State.raise_keeps
    | with_reducible apply State.sectorLost_keeps
    | with_reducible apply State.sectorReset_keeps
    | dsimp only
    | intro _ _
    | intro _
    | contradiction
    | (unfold id)
    | split
    | (rename_i hh; injection hh with hh; subst hh)
    | (rename_i hh; split at hh)

theorem State.applyRemap_keeps {R : State → Prop} (hR : Keeps [.regs, .stewards, .health, .sec] ⟨[.MGMT_HEALTH_STAGE, .MGMT_HEALTH_ZERO, .SEC_COLMAP_ACTIVE, .SEC_STATUS_PENDING_REMAP, .SEC_STATUS_STATE], [], [], false⟩ R) (s : State) (d k period : Nat)
    (hI : R s) : R (State.applyRemap s d k period) := by
  unfold State.applyRemap
  try dsimp only
  repeat' first
    | with_reducible assumption
    | exact hR.sub
    | exact fun h => memWf_memStore h
    | exact fun h => memWf_memPut h
    | exact fun h => memWf_filter _ h
    | exact fun _ => rfl
    | with_reducible apply rel_ite
    | with_reducible refine hR.wr _ _ _ (by decide +kernel) (by first | decide +kernel | exact hasFld_self _ _ | exact hasFld_all _ | (simp [hasFld]; done) ) ?_
    | with_reducible apply State.remapDone_keeps
    | with_reducible apply State.startMigration_keeps
    | fail_if_no_progress (with_reducible apply hR.upd; all_goals try first | with_reducible exact .inr rfl | exact .inl (by decide +kernel) | exact id)
    | dsimp only
    | intro _ _
    | intro _
    | contradiction
    | (unfold id)
    | split
    | (rename_i hh; injection hh with hh; subst hh)
    | (rename_i hh; split at hh)

def opPartsColumnDefect : List Part := [.regs, .stewards, .health, .repairs, .govs, .sec, .fab]
def opFieldsColumnDefect : FSet :=
  ⟨[.MGMT_HEALTH_STAGE, .MGMT_HEALTH_ZERO, .SEC_COLMAP_ACTIVE, .SEC_COLMAP_DEFECTS, .SEC_COLMAP_FIELD, .SEC_CTL_RESET,
    .SEC_STATUS_ISOLATED, .SEC_STATUS_PENDING_REMAP, .SEC_STATUS_PERMIT_WAIT, .SEC_STATUS_RESET_HELD,
    .SEC_STATUS_STATE], [.sec], [], false⟩

theorem State.columnDefect_keeps {R : State → Prop} (hR : Keeps opPartsColumnDefect opFieldsColumnDefect R) (s : State) (d k p period : Nat)
    (hI : R s) : R (State.columnDefect s d k p period) := by
  unfold State.columnDefect
  try dsimp only
  repeat' first
    | with_reducible assumption
    | exact hR.sub
    | with_reducible apply rel_ite
    | with_reducible refine hR.wr _ _ _ (by decide +kernel) (by first | decide +kernel | exact hasFld_self _ _ | exact hasFld_all _ | (simp [hasFld]; done) ) ?_
    | with_reducible apply State.applyRemap_keeps
    | with_reducible apply State.record_keeps
    | with_reducible apply State.remapDone_keeps
    | with_reducible apply State.sectorUnavailable_keeps
    | dsimp only
    | intro _ _
    | intro _
    | contradiction
    | (unfold id)
    | split
    | (rename_i hh; injection hh with hh; subst hh)
    | (rename_i hh; split at hh)

theorem execColumnDefectFound_keeps {R : State → Prop} (hR : Keeps partsColumnDefectFound fieldsColumnDefectFound R) (d : Fin 8) (k : Fin 40) (p : Fin 31) (period : Nat) (s : State)
    (hI : R s) {tT : State} (eE : execColumnDefectFound d k p period s = .next tT) : R tT := by
  unfold execColumnDefectFound at eE
  try dsimp only at eE
  repeat' split at eE
  all_goals try (injection eE with eE; subst eE)
  all_goals repeat' first
    | with_reducible assumption
    | exact hR.sub
    | with_reducible apply rel_ite
    | with_reducible apply State.columnDefect_keeps
    | with_reducible apply State.dirNext_keeps
    | with_reducible apply State.flashMessage_keeps
    | with_reducible apply State.message_keeps
    | with_reducible apply State.packageReset_keeps
    | with_reducible apply State.powerOn_keeps
    | with_reducible apply State.reach_keeps
    | dsimp only
    | intro _ _
    | intro _
    | contradiction
    | (unfold id)
    | split
    | (rename_i hh; injection hh with hh; subst hh)
    | (rename_i hh; split at hh)

theorem execSpanContention_keeps {R : State → Prop} (hR : Keeps partsSpanContention fieldsSpanContention R) (d : Fin 8) (k : Fin 40) (segs : List SegCycle) (s : State)
    (hI : R s) {tT : State} (eE : execSpanContention d k segs s = .next tT) : R tT := by
  unfold execSpanContention at eE
  try dsimp only at eE
  repeat' split at eE
  all_goals try (injection eE with eE; subst eE)
  all_goals repeat' first
    | with_reducible assumption
    | exact hR.sub
    | exact fun h => memWf_memStore h
    | exact fun h => memWf_memPut h
    | exact fun h => memWf_filter _ h
    | exact fun _ => rfl
    | exact hR.sub (by decide +kernel) (subFld_self _ _)
    | with_reducible apply rel_ite
    | with_reducible refine hR.wr _ _ _ (by decide +kernel) (by first | decide +kernel | exact hasFld_self _ _ | exact hasFld_all _ | (simp [hasFld]; done) ) ?_
    | with_reducible apply State.bump_keeps
    | with_reducible apply State.dirNext_keeps
    | with_reducible apply State.flashMessage_keeps
    | with_reducible apply State.message_keeps
    | with_reducible apply State.packageReset_keeps
    | with_reducible apply State.powerOn_keeps
    | with_reducible apply State.raise_keeps
    | with_reducible apply State.reach_keeps
    | with_reducible apply State.segCycle_keeps
    | (with_reducible apply rel_foldl; intro _ _ _)
    | (with_reducible apply rel_foldl2; intro _ _ _)
    | (with_reducible apply rel_foldl3; intro _ _ _)
    | (with_reducible apply rel_foldl1; intro _ _ _)
    | fail_if_no_progress (with_reducible apply hR.upd; all_goals try first | with_reducible exact .inr rfl | exact .inl (by decide +kernel) | exact id)
    | dsimp only
    | intro _ _
    | intro _
    | contradiction
    | (unfold id)
    | split
    | (rename_i hh; injection hh with hh; subst hh)
    | (rename_i hh; split at hh)

theorem State.treeStart_keeps {R : State → Prop} (hR : Keeps [.regs, .tree] ⟨[.FCLK_GSEL_LOCKED, .FCLK_GSEL_SWITCHING, .FCLK_RSEL_LOCKED, .FCLK_RSEL_SWITCHING], [], [], false⟩ R) (s : State) (d tr e : Nat)
    (hI : R s) : R (State.treeStart s d tr e) := by
  unfold State.treeStart
  try dsimp only
  repeat' first
    | with_reducible assumption
    | exact hR.sub
    | exact fun h => memWf_memStore h
    | exact fun h => memWf_memPut h
    | exact fun h => memWf_filter _ h
    | exact fun _ => rfl
    | with_reducible apply rel_ite
    | with_reducible refine hR.wr _ _ _ (by decide +kernel) (by first | decide +kernel | exact hasFld_self _ _ | exact hasFld_all _ | (simp [hasFld]; done) | (unfold treeSWITCHING; split <;> decide +kernel)| (unfold treeLOCKED; split <;> decide +kernel)) ?_
    | fail_if_no_progress (with_reducible apply hR.upd; all_goals try first | with_reducible exact .inr rfl | exact .inl (by decide +kernel) | exact id)
    | dsimp only
    | intro _ _
    | intro _
    | contradiction
    | (unfold id)
    | split
    | (rename_i hh; injection hh with hh; subst hh)
    | (rename_i hh; split at hh)

theorem State.treeEnd_keeps {R : State → Prop} (hR : Keeps [.regs, .tree] ⟨[.FCLK_GSEL_ACTIVE, .FCLK_GSEL_LOCKED, .FCLK_GSEL_SWITCHING, .FCLK_RSEL_ACTIVE, .FCLK_RSEL_LOCKED, .FCLK_RSEL_SWITCHING], [], [], false⟩ R) (s : State) (d tr : Nat)
    (hI : R s) : R (State.treeEnd s d tr) := by
  unfold State.treeEnd
  try dsimp only
  repeat' first
    | with_reducible assumption
    | exact hR.sub
    | exact fun h => memWf_memStore h
    | exact fun h => memWf_memPut h
    | exact fun h => memWf_filter _ h
    | exact fun _ => rfl
    | with_reducible apply rel_ite
    | with_reducible refine hR.wr _ _ _ (by decide +kernel) (by first | decide +kernel | exact hasFld_self _ _ | exact hasFld_all _ | (simp [hasFld]; done) | (unfold treeSRC; split <;> decide +kernel)| (unfold treeACTIVE; split <;> decide +kernel)| (unfold treeSWITCHING; split <;> decide +kernel)) ?_
    | with_reducible apply State.treeStart_keeps
    | fail_if_no_progress (with_reducible apply hR.upd; all_goals try first | with_reducible exact .inr rfl | exact .inl (by decide +kernel) | exact id)
    | dsimp only
    | intro _ _
    | intro _
    | contradiction
    | (unfold id)
    | split
    | (rename_i hh; injection hh with hh; subst hh)
    | (rename_i hh; split at hh)

theorem execClockTreeSwitch_keeps {R : State → Prop} (hR : Keeps partsClockTreeSwitch fieldsClockTreeSwitch R) (w : Writer) (d : Fin 8) (tr : Fin 64) (src : BitVec 6) (s : State)
    (hI : R s) {tT : State} (eE : execClockTreeSwitch w d tr src s = .next tT) : R tT := by
  unfold execClockTreeSwitch at eE
  try dsimp only at eE
  repeat' split at eE
  all_goals try (injection eE with eE; subst eE)
  all_goals repeat' first
    | with_reducible assumption
    | exact hR.sub
    | with_reducible apply rel_ite
    | with_reducible refine hR.wr _ _ _ (by decide +kernel) (by first | decide +kernel | exact hasFld_self _ _ | exact hasFld_all _ | (simp [hasFld]; done) | (unfold treeSRC; split <;> decide +kernel)| (unfold treeACTIVE; split <;> decide +kernel)| (unfold treeSWITCHING; split <;> decide +kernel)) ?_
    | with_reducible apply State.dirNext_keeps
    | with_reducible apply State.flashMessage_keeps
    | with_reducible apply State.message_keeps
    | with_reducible apply State.packageReset_keeps
    | with_reducible apply State.powerOn_keeps
    | with_reducible apply State.raise_keeps
    | with_reducible apply State.reach_keeps
    | with_reducible apply State.treeStart_keeps
    | dsimp only
    | intro _ _
    | intro _
    | contradiction
    | (unfold id)
    | split
    | (rename_i hh; injection hh with hh; subst hh)
    | (rename_i hh; split at hh)

theorem execClockSwitchDone_keeps {R : State → Prop} (hR : Keeps partsClockSwitchDone fieldsClockSwitchDone R) (d : Fin 8) (tr : Fin 64) (converged : Bool) (s : State)
    (hI : R s) {tT : State} (eE : execClockSwitchDone d tr converged s = .next tT) : R tT := by
  unfold execClockSwitchDone at eE
  try dsimp only at eE
  repeat' split at eE
  all_goals try (injection eE with eE; subst eE)
  all_goals repeat' first
    | with_reducible assumption
    | exact hR.sub
    | with_reducible apply rel_ite
    | with_reducible refine hR.wr _ _ _ (by decide +kernel) (by first | decide +kernel | exact hasFld_self _ _ | exact hasFld_all _ | (simp [hasFld]; done) | (unfold treeACTIVE; split <;> decide +kernel)| (unfold treeSWITCHING; split <;> decide +kernel)| (unfold treeLOCKED; split <;> decide +kernel)) ?_
    | with_reducible apply State.dirNext_keeps
    | with_reducible apply State.flashMessage_keeps
    | with_reducible apply State.message_keeps
    | with_reducible apply State.packageReset_keeps
    | with_reducible apply State.powerOn_keeps
    | with_reducible apply State.reach_keeps
    | with_reducible apply State.treeEnd_keeps
    | dsimp only
    | intro _ _
    | intro _
    | contradiction
    | (unfold id)
    | split
    | (rename_i hh; injection hh with hh; subst hh)
    | (rename_i hh; split at hh)

theorem execClockSwitchForced_keeps {R : State → Prop} (hR : Keeps partsClockSwitchForced fieldsClockSwitchForced R) (d : Fin 8) (tr : Fin 64) (s : State)
    (hI : R s) {tT : State} (eE : execClockSwitchForced d tr s = .next tT) : R tT := by
  unfold execClockSwitchForced at eE
  try dsimp only at eE
  repeat' split at eE
  all_goals try (injection eE with eE; subst eE)
  all_goals repeat' first
    | with_reducible assumption
    | exact hR.sub
    | with_reducible apply rel_ite
    | with_reducible refine hR.wr _ _ _ (by decide +kernel) (by first | decide +kernel | exact hasFld_self _ _ | exact hasFld_all _ | (simp [hasFld]; done) | (unfold treeSWITCHING; split <;> decide +kernel)| (unfold treeFORCED; split <;> decide +kernel)) ?_
    | with_reducible apply State.dirNext_keeps
    | with_reducible apply State.flashMessage_keeps
    | with_reducible apply State.lapseTo_keeps
    | with_reducible apply State.message_keeps
    | with_reducible apply State.packageReset_keeps
    | with_reducible apply State.powerOn_keeps
    | with_reducible apply State.reach_keeps
    | with_reducible apply State.treeEnd_keeps
    | dsimp only
    | intro _ _
    | intro _
    | contradiction
    | (unfold id)
    | split
    | (rename_i hh; injection hh with hh; subst hh)
    | (rename_i hh; split at hh)

theorem execMemEccError_keeps {R : State → Prop} (hR : Keeps partsMemEccError fieldsMemEccError R) (d : Fin 8) (k : Fin 40) (deep : Bool) (col : Fin 3) (block : Fin 10) (addr : Fin 16384) (upset : BitVec 72) (s : State)
    (hI : R s) {tT : State} (eE : execMemEccError d k deep col block addr upset s = .next tT) : R tT := by
  unfold execMemEccError at eE
  try dsimp only at eE
  repeat' split at eE
  all_goals try (injection eE with eE; subst eE)
  all_goals repeat' first
    | with_reducible assumption
    | exact hR.sub
    | exact fun h => memWf_memStore h
    | exact fun h => memWf_memPut h
    | exact fun h => memWf_filter _ h
    | exact fun _ => rfl
    | (intro b hb; exact fabWf_of hb (fun h => by (try dsimp only); first | with_reducible exact h | exact smWf_ramFill _ _ _ _ h | exact smWf_smPut (dflt := fun _ => 0) h | exact smWf_filter _ h) (fun h => by first | exact h | exact smWf_smPut (dflt := fun _ => 0) h | exact smWf_filter _ h))
    | exact hR.sub (by decide +kernel) (subFld_self _ _)
    | with_reducible apply rel_ite
    | with_reducible refine hR.wr _ _ _ (by decide +kernel) (by first | decide +kernel | exact hasFld_self _ _ | exact hasFld_all _ | (simp [hasFld]; done) ) ?_
    | with_reducible apply State.bump_keeps
    | with_reducible apply State.dirNext_keeps
    | with_reducible apply State.flashMessage_keeps
    | with_reducible apply State.message_keeps
    | with_reducible apply State.onFab_keeps
    | with_reducible apply State.packageReset_keeps
    | with_reducible apply State.powerOn_keeps
    | with_reducible apply State.raise_keeps
    | with_reducible apply State.ramPortEdge_keeps
    | with_reducible apply State.reach_keeps
    | with_reducible apply State.record_keeps
    | with_reducible apply State.setSector_keeps
    | fail_if_no_progress (with_reducible apply hR.upd; all_goals try first | with_reducible exact .inr rfl | exact .inl (by decide +kernel) | exact id)
    | dsimp only
    | intro _ _
    | intro _
    | contradiction
    | (unfold id)
    | split
    | (rename_i hh; injection hh with hh; subst hh)
    | (rename_i hh; split at hh)

theorem execBramScrubWriteback_keeps {R : State → Prop} (hR : Keeps partsBramScrubWriteback fieldsBramScrubWriteback R) (d : Fin 8) (k : Fin 40) (deep : Bool) (col : Fin 3) (block : Fin 10) (addr : Fin 16384) (s : State)
    (hI : R s) {tT : State} (eE : execBramScrubWriteback d k deep col block addr s = .next tT) : R tT := by
  unfold execBramScrubWriteback at eE
  try dsimp only at eE
  repeat' split at eE
  all_goals try (injection eE with eE; subst eE)
  all_goals repeat' first
    | with_reducible assumption
    | exact hR.sub
    | with_reducible apply rel_ite
    | with_reducible apply State.dirNext_keeps
    | with_reducible apply State.flashMessage_keeps
    | with_reducible apply State.message_keeps
    | with_reducible apply State.packageReset_keeps
    | with_reducible apply State.powerOn_keeps
    | with_reducible apply State.reach_keeps
    | with_reducible apply State.writeBack_keeps
    | dsimp only
    | intro _ _
    | intro _
    | contradiction
    | (unfold id)
    | split
    | (rename_i hh; injection hh with hh; subst hh)
    | (rename_i hh; split at hh)

theorem State.rknLate_keeps {R : State → Prop} (hR : Keeps [.fab] ⟨[], [], [], false⟩ R) (s : State) (d k : Nat) (x : Fin 3 × Fin 24 × RknIn)
    (hI : R s) : R (State.rknLate s d k x) := by
  unfold State.rknLate
  try dsimp only
  repeat' first
    | with_reducible assumption
    | exact hR.sub
    | exact fun h => memWf_memStore h
    | exact fun h => memWf_memPut h
    | exact fun h => memWf_filter _ h
    | exact fun _ => rfl
    | with_reducible apply rel_ite
    | with_reducible apply State.rknEdge_keeps
    | fail_if_no_progress (with_reducible apply hR.upd; all_goals try first | with_reducible exact .inr rfl | exact .inl (by decide +kernel) | exact id)
    | dsimp only
    | intro _ _
    | intro _
    | contradiction
    | (unfold id)
    | split
    | (rename_i hh; injection hh with hh; subst hh)
    | (rename_i hh; split at hh)

theorem execRknLateAccess_keeps {R : State → Prop} (hR : Keeps partsRknLateAccess fieldsRknLateAccess R) (d : Fin 8) (k : Fin 40) (lates : List (Fin 3 × Fin 24 × RknIn)) (s : State)
    (hI : R s) {tT : State} (eE : execRknLateAccess d k lates s = .next tT) : R tT := by
  unfold execRknLateAccess at eE
  try dsimp only at eE
  repeat' split at eE
  all_goals try (injection eE with eE; subst eE)
  all_goals repeat' first
    | with_reducible assumption
    | exact hR.sub
    | exact fun h => memWf_memStore h
    | exact fun h => memWf_memPut h
    | exact fun h => memWf_filter _ h
    | exact fun _ => rfl
    | exact hR.sub (by decide +kernel) (subFld_self _ _)
    | with_reducible apply rel_ite
    | with_reducible refine hR.wr _ _ _ (by decide +kernel) (by first | decide +kernel | exact hasFld_self _ _ | exact hasFld_all _ | (simp [hasFld]; done) ) ?_
    | with_reducible apply State.bump_keeps
    | with_reducible apply State.dirNext_keeps
    | with_reducible apply State.flashMessage_keeps
    | with_reducible apply State.message_keeps
    | with_reducible apply State.packageReset_keeps
    | with_reducible apply State.powerOn_keeps
    | with_reducible apply State.raise_keeps
    | with_reducible apply State.reach_keeps
    | with_reducible apply State.rknLate_keeps
    | (with_reducible apply rel_foldl; intro _ _ _)
    | (with_reducible apply rel_foldl2; intro _ _ _)
    | (with_reducible apply rel_foldl3; intro _ _ _)
    | (with_reducible apply rel_foldl1; intro _ _ _)
    | fail_if_no_progress (with_reducible apply hR.upd; all_goals try first | with_reducible exact .inr rfl | exact .inl (by decide +kernel) | exact id)
    | dsimp only
    | intro _ _
    | intro _
    | contradiction
    | (unfold id)
    | split
    | (rename_i hh; injection hh with hh; subst hh)
    | (rename_i hh; split at hh)

end Sys2Proof.Machine
end

