-- ==== Sys2Proof/Laws/KeepsOperands.lean ====
section
/-! SUPPORT. What the operations of `Machine/Operands.lean` may change and what they keep. -/

namespace Sys2Proof.Machine

set_option Elab.async false
set_option linter.all false

theorem State.winStore_keeps {R : State → Prop} (hR : Keeps [.win] ⟨[], [], [], false⟩ R) (s : State) (e off n v : Nat)
    (hI : R s) : R (State.winStore s e off n v) := by
  unfold State.winStore
  try dsimp only
  repeat' first
    | with_reducible assumption
    | exact hR.sub
    | exact fun h => memWf_memStore h
    | exact fun h => memWf_memPut h
    | exact fun h => memWf_filter _ h
    | exact fun _ => rfl
    | with_reducible apply rel_ite
    | fail_if_no_progress (with_reducible apply hR.upd; all_goals try first | with_reducible exact .inr rfl | exact .inl (by decide +kernel) | exact id)
    | dsimp only
    | intro _ _
    | intro _
    | contradiction
    | (unfold id)
    | split
    | (rename_i hh; injection hh with hh; subst hh)
    | (rename_i hh; split at hh)

end Sys2Proof.Machine
end

