-- ==== Sys2Proof/Laws/KeepsMemory.lean ====
section
/-! SUPPORT. What the operations of `Machine/Memory.lean` may change and what they keep. -/

namespace Sys2Proof.Machine

set_option Elab.async false
set_option linter.all false

theorem State.linePut_keeps {R : State → Prop} (hR : Keeps [.hbm, .poison] ⟨[], [], [], false⟩ R) (s : State) (key data : Nat) (bad : Bool)
    (hI : R s) : R (State.linePut s key data bad) := by
  unfold State.linePut
  try dsimp only
  repeat' first
    | with_reducible assumption
    | exact hR.sub
    | exact fun h => memWf_memStore h
    | exact fun h => memWf_memPut h
    | exact fun h => memWf_filter _ h
    | exact fun _ => rfl
    | with_reducible apply rel_ite
    | fail_if_no_progress (with_reducible apply hR.upd; all_goals try first | with_reducible exact .inr rfl | exact .inl (by decide +kernel) | exact id)
    | dsimp only
    | intro _ _
    | intro _
    | contradiction
    | (unfold id)
    | split
    | (rename_i hh; injection hh with hh; subst hh)
    | (rename_i hh; split at hh)

theorem State.sealErr_keeps {R : State → Prop} (hR : Keeps [.regs, .draws] ⟨[.SEAL_ERR_ADDR_HI_ADDR, .SEAL_ERR_ADDR_LO_ADDR, .SEAL_ERR_CODE, .SEAL_ERR_LEVEL, .SEAL_ERR_RANGE, .SEAL_ERR_VALID], [], [], false⟩ R) (s : State) (st code r level a : Nat)
    (hI : R s) : R (State.sealErr s st code r level a) := by
  unfold State.sealErr
  try dsimp only
  repeat' first
    | with_reducible assumption
    | exact hR.sub
    | with_reducible apply rel_ite
    | with_reducible refine hR.wr _ _ _ (by decide +kernel) (by first | decide +kernel | exact hasFld_self _ _ | exact hasFld_all _ | (simp [hasFld]; done) ) ?_
    | with_reducible apply State.draw_keeps
    | (refine State.draw_keeps_of hR.sub _ _ ?_ (by assumption))
    | dsimp only
    | intro _ _
    | intro _
    | contradiction
    | (unfold id)
    | split
    | (rename_i hh; injection hh with hh; subst hh)
    | (rename_i hh; split at hh)

def opFieldsSealDeny : FSet :=
  ⟨[.SEAL_DENY_CNT_COUNT, .SEAL_ERR_ADDR_HI_ADDR, .SEAL_ERR_ADDR_LO_ADDR, .SEAL_ERR_CODE, .SEAL_ERR_LEVEL,
    .SEAL_ERR_RANGE, .SEAL_ERR_VALID], [], [], false⟩

theorem State.sealDeny_keeps {R : State → Prop} (hR : Keeps [.regs, .draws, .stewards] opFieldsSealDeny R) (s : State) (st r a : Nat)
    (hI : R s) : R (State.sealDeny s st r a) := by
  unfold State.sealDeny
  try dsimp only
  repeat' first
    | with_reducible assumption
    | exact hR.sub
    | exact hR.sub (by decide +kernel) (subFld_self _ _)
    | with_reducible apply rel_ite
    | with_reducible apply State.bump_keeps
    | with_reducible apply State.raise_keeps
    | with_reducible apply State.sealErr_keeps
    | dsimp only
    | intro _ _
    | intro _
    | contradiction
    | (unfold id)
    | split
    | (rename_i hh; injection hh with hh; subst hh)
    | (rename_i hh; split at hh)

def opFieldsHbmErr : FSet :=
  ⟨[.HBM_ERR_ADDR_HI_ADDR, .HBM_ERR_ADDR_LO_ADDR, .HBM_ERR_CH, .HBM_ERR_CODE, .HBM_ERR_PC, .HBM_ERR_SID,
    .HBM_ERR_VALID], [], [], false⟩

theorem State.hbmErr_keeps {R : State → Prop} (hR : Keeps [.regs, .stewards] opFieldsHbmErr R) (s : State) (st code a sev : Nat)
    (hI : R s) : R (State.hbmErr s st code a sev) := by
  unfold State.hbmErr
  try dsimp only
  repeat' first
    | with_reducible assumption
    | exact hR.sub
    | with_reducible apply rel_ite
    | with_reducible refine hR.wr _ _ _ (by decide +kernel) (by first | decide +kernel | exact hasFld_self _ _ | exact hasFld_all _ | (simp [hasFld]; done) ) ?_
    | with_reducible apply State.raise_keeps
    | dsimp only
    | intro _ _
    | intro _
    | contradiction
    | (unfold id)
    | split
    | (rename_i hh; injection hh with hh; subst hh)
    | (rename_i hh; split at hh)

theorem State.leafTouch_keeps {R : State → Prop} (hR : Keeps [.regs, .ccache] ⟨[.SEAL_CC_MISS_CNT_COUNT], [], [], false⟩ R) (s : State) (st r leaf : Nat)
    (hI : R s) : R (State.leafTouch s st r leaf) := by
  unfold State.leafTouch
  try dsimp only
  repeat' first
    | with_reducible assumption
    | exact hR.sub
    | exact fun h => memWf_memStore h
    | exact fun h => memWf_memPut h
    | exact fun h => memWf_filter _ h
    | exact fun _ => rfl
    | exact hR.sub (by decide +kernel) (subFld_self _ _)
    | with_reducible apply rel_ite
    | with_reducible apply State.bump_keeps
    | (with_reducible apply rel_foldl; intro _ _ _)
    | (with_reducible apply rel_foldl2; intro _ _ _)
    | (with_reducible apply rel_foldl3; intro _ _ _)
    | (with_reducible apply rel_foldl1; intro _ _ _)
    | fail_if_no_progress (with_reducible apply hR.upd; all_goals try first | with_reducible exact .inr rfl | exact .inl (by decide +kernel) | exact id)
    | dsimp only
    | intro _ _
    | intro _
    | contradiction
    | (unfold id)
    | split
    | (rename_i hh; injection hh with hh; subst hh)
    | (rename_i hh; split at hh)

theorem State.nodeDirty_keeps {R : State → Prop} (hR : Keeps [.ccache] ⟨[], [], [], false⟩ R) (s : State) (st r j m : Nat)
    (hI : R s) : R (State.nodeDirty s st r j m) := by
  unfold State.nodeDirty
  try dsimp only
  repeat' first
    | with_reducible assumption
    | exact hR.sub
    | exact fun h => memWf_memStore h
    | exact fun h => memWf_memPut h
    | exact fun h => memWf_filter _ h
    | exact fun _ => rfl
    | with_reducible apply rel_ite
    | fail_if_no_progress (with_reducible apply hR.upd; all_goals try first | with_reducible exact .inr rfl | exact .inl (by decide +kernel) | exact id)
    | dsimp only
    | intro _ _
    | intro _
    | contradiction
    | (unfold id)
    | split
    | (rename_i hh; injection hh with hh; subst hh)
    | (rename_i hh; split at hh)

def opFieldsSealFreeze : FSet :=
  ⟨[.SEAL_ERR_ADDR_HI_ADDR, .SEAL_ERR_ADDR_LO_ADDR, .SEAL_ERR_CODE, .SEAL_ERR_LEVEL, .SEAL_ERR_RANGE, .SEAL_ERR_VALID,
    .SEAL_RSTAT_FREEZE, .SEAL_RSTAT_STATE], [], [], false⟩

theorem State.sealFreeze_keeps {R : State → Prop} (hR : Keeps [.regs, .draws, .stewards] opFieldsSealFreeze R) (s : State) (st r kind a : Nat)
    (hI : R s) : R (State.sealFreeze s st r kind a) := by
  unfold State.sealFreeze
  try dsimp only
  repeat' first
    | with_reducible assumption
    | exact hR.sub
    | with_reducible apply rel_ite
    | with_reducible refine hR.wr _ _ _ (by decide +kernel) (by first | decide +kernel | exact hasFld_self _ _ | exact hasFld_all _ | (simp [hasFld]; done) ) ?_
    | with_reducible apply State.raise_keeps
    | with_reducible apply State.sealErr_keeps
    | dsimp only
    | intro _ _
    | intro _
    | contradiction
    | (unfold id)
    | split
    | (rename_i hh; injection hh with hh; subst hh)
    | (rename_i hh; split at hh)

theorem State.hwmTo_keeps {R : State → Prop} (hR : Keeps [.hwm] ⟨[], [], [], false⟩ R) (s : State) (st r v : Nat)
    (hI : R s) : R (State.hwmTo s st r v) := by
  unfold State.hwmTo
  try dsimp only
  repeat' first
    | with_reducible assumption
    | exact hR.sub
    | exact fun h => memWf_memStore h
    | exact fun h => memWf_memPut h
    | exact fun h => memWf_filter _ h
    | exact fun _ => rfl
    | with_reducible apply rel_ite
    | fail_if_no_progress (with_reducible apply hR.upd; all_goals try first | with_reducible exact .inr rfl | exact .inl (by decide +kernel) | exact id)
    | dsimp only
    | intro _ _
    | intro _
    | contradiction
    | (unfold id)
    | split
    | (rename_i hh; injection hh with hh; subst hh)
    | (rename_i hh; split at hh)

theorem State.leafReset_keeps {R : State → Prop} (hR : Keeps [.leafMaj, .leafMin] ⟨[], [], [], false⟩ R) (s : State) (st r leaf mj : Nat)
    (hI : R s) : R (State.leafReset s st r leaf mj) := by
  unfold State.leafReset
  generalize List.foldl _ _ _ = m
  apply hR.upd <;> first | assumption | exact .inl (by decide +kernel) | with_reducible exact .inr rfl | exact id

theorem State.leafReencrypt_keeps {R : State → Prop} (hR : Keeps [.regs, .leafMaj, .leafMin, .ccache, .hwm] ⟨[.SEAL_OVF_CNT_COUNT], [], [], false⟩ R) (s : State) (st r leaf : Nat)
    (hI : R s) {tT : State} (eE : State.leafReencrypt s st r leaf = some tT) : R tT := by
  unfold State.leafReencrypt at eE
  try dsimp only at eE
  repeat' split at eE
  all_goals first | (injection eE with eE; subst eE) | (exact absurd eE (by simp))
  all_goals repeat' first
    | with_reducible assumption
    | exact hR.sub
    | exact hR.sub (by decide +kernel) (subFld_self _ _)
    | with_reducible apply rel_ite
    | with_reducible apply State.bump_keeps
    | with_reducible apply State.hwmTo_keeps
    | with_reducible apply State.leafReset_keeps
    | with_reducible apply State.nodeDirty_keeps
    | dsimp only
    | intro _ _
    | intro _
    | contradiction
    | (unfold id)
    | split
    | (rename_i hh; injection hh with hh; subst hh)
    | (rename_i hh; split at hh)

theorem State.sealCount_keeps {R : State → Prop} (hR : Keeps [.regs, .leafMaj, .leafMin, .ccache, .hwm] ⟨[.SEAL_CC_MISS_CNT_COUNT, .SEAL_OVF_CNT_COUNT], [], [], false⟩ R) (s : State) (st r i : Nat)
    (hI : R s) {tT : State} (eE : State.sealCount s st r i = some tT) : R tT := by
  unfold State.sealCount at eE
  try dsimp only at eE
  repeat' split at eE
  all_goals first | (injection eE with eE; subst eE) | (exact absurd eE (by simp))
  all_goals repeat' first
    | with_reducible assumption
    | exact hR.sub
    | exact fun h => memWf_memStore h
    | exact fun h => memWf_memPut h
    | exact fun h => memWf_filter _ h
    | exact fun _ => rfl
    | with_reducible apply rel_ite
    | with_reducible apply State.leafTouch_keeps
    | with_reducible apply State.nodeDirty_keeps
    | (refine State.leafReencrypt_keeps hR.sub _ _ _ _ ?_ (by assumption))
    | fail_if_no_progress (with_reducible apply hR.upd; all_goals try first | with_reducible exact .inr rfl | exact .inl (by decide +kernel) | exact id)
    | dsimp only
    | intro _ _
    | intro _
    | contradiction
    | (unfold id)
    | split
    | (rename_i hh; injection hh with hh; subst hh)
    | (rename_i hh; split at hh)

theorem State.stackRead_keeps {R : State → Prop} (hR : Keeps [.regs, .ccache] ⟨[.SEAL_CC_MISS_CNT_COUNT], [], [], false⟩ R) (s : State) (st a : Nat)
    (hI : R s) : R (State.stackRead s st a).2.2 := by
  unfold State.stackRead
  try dsimp only
  repeat' first
    | with_reducible assumption
    | exact hR.sub
    | exact fun h => memWf_memStore h
    | exact fun h => memWf_memPut h
    | exact fun h => memWf_filter _ h
    | exact fun _ => rfl
    | with_reducible apply rel_ite
    | with_reducible apply State.leafTouch_keeps
    | fail_if_no_progress (with_reducible apply hR.upd; all_goals try first | with_reducible exact .inr rfl | exact .inl (by decide +kernel) | exact id)
    | dsimp only
    | intro _ _
    | intro _
    | contradiction
    | (unfold id)
    | split
    | (rename_i hh; injection hh with hh; subst hh)
    | (rename_i hh; split at hh)

theorem State.stackRead_keeps_of {R : State → Prop} (hR : Keeps [.regs, .ccache] ⟨[.SEAL_CC_MISS_CNT_COUNT], [], [], false⟩ R) (s : State) (st a : Nat)
    (hI : R s) {a : Nat} {b : Nat} {tT : State} (eE : State.stackRead s st a = (a, b, tT)) : R tT := by
  have h := State.stackRead_keeps hR s st a hI
  rw [eE] at h
  exact h

def opPartsStackWrite : List Part := [.regs, .draws, .stewards, .hbm, .poison, .leafMaj, .leafMin, .ccache, .hwm]
def opFieldsStackWrite : FSet :=
  ⟨[.SEAL_CC_MISS_CNT_COUNT, .SEAL_DENY_CNT_COUNT, .SEAL_ERR_ADDR_HI_ADDR, .SEAL_ERR_ADDR_LO_ADDR, .SEAL_ERR_CODE,
    .SEAL_ERR_LEVEL, .SEAL_ERR_RANGE, .SEAL_ERR_VALID, .SEAL_OVF_CNT_COUNT, .SEAL_RSTAT_FREEZE, .SEAL_RSTAT_STATE], [],
    [], false⟩

theorem State.stackWrite_keeps {R : State → Prop} (hR : Keeps opPartsStackWrite opFieldsStackWrite R) (s : State) (st a data : Nat) (bad : Bool)
    (hI : R s) : R (State.stackWrite s st a data bad).2 := by
  unfold State.stackWrite
  try dsimp only
  repeat' first
    | with_reducible assumption
    | exact hR.sub
    | exact fun h => memWf_memStore h
    | exact fun h => memWf_memPut h
    | exact fun h => memWf_filter _ h
    | exact fun _ => rfl
    | exact hR.sub (by decide +kernel) (subFld_self _ _)
    | with_reducible apply rel_ite
    | with_reducible apply State.bump_keeps
    | with_reducible apply State.linePut_keeps
    | with_reducible apply State.sealFreeze_keeps
    | (refine State.sealCount_keeps hR.sub _ _ _ _ ?_ (by assumption))
    | fail_if_no_progress (with_reducible apply hR.upd; all_goals try first | with_reducible exact .inr rfl | exact .inl (by decide +kernel) | exact id)
    | dsimp only
    | intro _ _
    | intro _
    | contradiction
    | (unfold id)
    | split
    | (rename_i hh; injection hh with hh; subst hh)
    | (rename_i hh; split at hh)

theorem State.stackWrite_keeps_of {R : State → Prop} (hR : Keeps opPartsStackWrite opFieldsStackWrite R) (s : State) (st a data : Nat) (bad : Bool)
    (hI : R s) {a : Nat} {tT : State} (eE : State.stackWrite s st a data bad = (a, tT)) : R tT := by
  have h := State.stackWrite_keeps hR s st a data bad hI
  rw [eE] at h
  exact h

def opFieldsPipeRead : FSet :=
  ⟨[.SEAL_CC_MISS_CNT_COUNT, .SEAL_DENY_CNT_COUNT, .SEAL_ERR_ADDR_HI_ADDR, .SEAL_ERR_ADDR_LO_ADDR, .SEAL_ERR_CODE,
    .SEAL_ERR_LEVEL, .SEAL_ERR_RANGE, .SEAL_ERR_VALID], [], [], false⟩

theorem State.pipeRead_keeps {R : State → Prop} (hR : Keeps [.regs, .draws, .stewards, .ccache] opFieldsPipeRead R) (s : State) (st : Nat) (m : Mst) (a : Nat)
    (hI : R s) : R (State.pipeRead s st m a).2.2 := by
  unfold State.pipeRead
  try dsimp only
  repeat' first
    | with_reducible assumption
    | exact hR.sub
    | with_reducible apply rel_ite
    | with_reducible apply State.sealDeny_keeps
    | with_reducible apply State.stackRead_keeps
    | (refine State.stackRead_keeps_of hR.sub _ _ _ ?_ (by assumption))
    | dsimp only
    | intro _ _
    | intro _
    | contradiction
    | (unfold id)
    | split
    | (rename_i hh; injection hh with hh; subst hh)
    | (rename_i hh; split at hh)

theorem State.pipeRead_keeps_of {R : State → Prop} (hR : Keeps [.regs, .draws, .stewards, .ccache] opFieldsPipeRead R) (s : State) (st : Nat) (m : Mst) (a : Nat)
    (hI : R s) {a : Nat} {b : Nat} {tT : State} (eE : State.pipeRead s st m a = (a, b, tT)) : R tT := by
  have h := State.pipeRead_keeps hR s st m a hI
  rw [eE] at h
  exact h

def opPartsPipeWrite : List Part := [.regs, .draws, .stewards, .hbm, .poison, .leafMaj, .leafMin, .ccache, .hwm]
def opFieldsPipeWrite : FSet :=
  ⟨[.HBM_ERR_ADDR_HI_ADDR, .HBM_ERR_ADDR_LO_ADDR, .HBM_ERR_CH, .HBM_ERR_CODE, .HBM_ERR_PC, .HBM_ERR_SID, .HBM_ERR_VALID,
    .SEAL_CC_MISS_CNT_COUNT, .SEAL_DENY_CNT_COUNT, .SEAL_ERR_ADDR_HI_ADDR, .SEAL_ERR_ADDR_LO_ADDR, .SEAL_ERR_CODE,
    .SEAL_ERR_LEVEL, .SEAL_ERR_RANGE, .SEAL_ERR_VALID, .SEAL_OVF_CNT_COUNT, .SEAL_RSTAT_FREEZE, .SEAL_RSTAT_STATE], [],
    [], false⟩

theorem State.pipeWrite_keeps {R : State → Prop} (hR : Keeps opPartsPipeWrite opFieldsPipeWrite R) (s : State) (st : Nat) (m : Mst) (a data : Nat) (bad : Bool)
    (hI : R s) : R (State.pipeWrite s st m a data bad).2 := by
  unfold State.pipeWrite
  try dsimp only
  repeat' first
    | with_reducible assumption
    | exact hR.sub
    | with_reducible apply rel_ite
    | with_reducible apply State.hbmErr_keeps
    | with_reducible apply State.sealDeny_keeps
    | with_reducible apply State.stackWrite_keeps
    | (refine State.stackWrite_keeps_of hR.sub _ _ _ _ _ ?_ (by assumption))
    | dsimp only
    | intro _ _
    | intro _
    | contradiction
    | (unfold id)
    | split
    | (rename_i hh; injection hh with hh; subst hh)
    | (rename_i hh; split at hh)

theorem State.pipeWrite_keeps_of {R : State → Prop} (hR : Keeps opPartsPipeWrite opFieldsPipeWrite R) (s : State) (st : Nat) (m : Mst) (a data : Nat) (bad : Bool)
    (hI : R s) {a : Nat} {tT : State} (eE : State.pipeWrite s st m a data bad = (a, tT)) : R tT := by
  have h := State.pipeWrite_keeps hR s st m a data bad hI
  rw [eE] at h
  exact h

theorem State.setRc_keeps {R : State → Prop} (hR : Keeps [.rcLines] ⟨[], [], [], false⟩ R) (s : State) (n line : Nat) (x : RcLine)
    (hI : R s) : R (State.setRc s n line x) := by
  unfold State.setRc
  try dsimp only
  repeat' first
    | with_reducible assumption
    | exact hR.sub
    | exact fun h => memWf_memStore h
    | exact fun h => memWf_memPut h
    | exact fun h => memWf_filter _ h
    | exact fun _ => rfl
    | with_reducible apply rel_ite
    | fail_if_no_progress (with_reducible apply hR.upd; all_goals try first | with_reducible exact .inr rfl | exact .inl (by decide +kernel) | exact id)
    | dsimp only
    | intro _ _
    | intro _
    | contradiction
    | (unfold id)
    | split
    | (rename_i hh; injection hh with hh; subst hh)
    | (rename_i hh; split at hh)

theorem State.setWbs_keeps {R : State → Prop} (hR : Keeps [.rcWb] ⟨[], [], [], false⟩ R) (s : State) (n : Nat) (l : List RcWb)
    (hI : R s) : R (State.setWbs s n l) := by
  unfold State.setWbs
  try dsimp only
  repeat' first
    | with_reducible assumption
    | exact hR.sub
    | exact fun h => memWf_memStore h
    | exact fun h => memWf_memPut h
    | exact fun h => memWf_filter _ h
    | exact fun _ => rfl
    | with_reducible apply rel_ite
    | fail_if_no_progress (with_reducible apply hR.upd; all_goals try first | with_reducible exact .inr rfl | exact .inl (by decide +kernel) | exact id)
    | dsimp only
    | intro _ _
    | intro _
    | contradiction
    | (unfold id)
    | split
    | (rename_i hh; injection hh with hh; subst hh)
    | (rename_i hh; split at hh)

theorem State.setSf_keeps {R : State → Prop} (hR : Keeps [.regs, .sf] ⟨[.HA_STAT_SF_LEVEL], [], [], false⟩ R) (s : State) (st line : Nat) (x : SfEnt)
    (hI : R s) : R (State.setSf s st line x) := by
  unfold State.setSf
  try dsimp only
  repeat' first
    | with_reducible assumption
    | exact hR.sub
    | exact fun h => memWf_memStore h
    | exact fun h => memWf_memPut h
    | exact fun h => memWf_filter _ h
    | exact fun _ => rfl
    | with_reducible apply rel_ite
    | with_reducible refine hR.wr _ _ _ (by decide +kernel) (by first | decide +kernel | exact hasFld_self _ _ | exact hasFld_all _ | (simp [hasFld]; done) ) ?_
    | fail_if_no_progress (with_reducible apply hR.upd; all_goals try first | with_reducible exact .inr rfl | exact .inl (by decide +kernel) | exact id)
    | dsimp only
    | intro _ _
    | intro _
    | contradiction
    | (unfold id)
    | split
    | (rename_i hh; injection hh with hh; subst hh)
    | (rename_i hh; split at hh)

theorem State.homeStore_keeps {R : State → Prop} (hR : Keeps [.hbm, .poison] ⟨[], [], [], false⟩ R) (s : State) (line data : Nat) (bad : Bool)
    (hI : R s) : R (State.homeStore s line data bad) := by
  unfold State.homeStore
  try dsimp only
  repeat' first
    | with_reducible assumption
    | exact hR.sub
    | with_reducible apply rel_ite
    | with_reducible apply State.linePut_keeps
    | dsimp only
    | intro _ _
    | intro _
    | contradiction
    | (unfold id)
    | split
    | (rename_i hh; injection hh with hh; subst hh)
    | (rename_i hh; split at hh)

theorem State.snoopOne_keeps {R : State → Prop} (hR : Keeps [.regs, .hbm, .poison, .rcLines, .rcWb] ⟨[.RC_SNP_CNT_COUNT], [], [], false⟩ R) (s : State) (line : Nat) (inval : Bool) (n : Nat)
    (hI : R s) : R (State.snoopOne s line inval n) := by
  unfold State.snoopOne
  try dsimp only
  repeat' first
    | with_reducible assumption
    | exact hR.sub
    | exact fun h => memWf_memStore h
    | exact fun h => memWf_memPut h
    | exact fun h => memWf_filter _ h
    | exact fun _ => rfl
    | exact hR.sub (by decide +kernel) (subFld_self _ _)
    | with_reducible apply rel_ite
    | with_reducible apply State.bump_keeps
    | with_reducible apply State.homeStore_keeps
    | with_reducible apply State.setRc_keeps
    | with_reducible apply State.setWbs_keeps
    | fail_if_no_progress (with_reducible apply hR.upd; all_goals try first | with_reducible exact .inr rfl | exact .inl (by decide +kernel) | exact id)
    | dsimp only
    | intro _ _
    | intro _
    | contradiction
    | (unfold id)
    | split
    | (rename_i hh; injection hh with hh; subst hh)
    | (rename_i hh; split at hh)

theorem State.snoopAll_keeps {R : State → Prop} (hR : Keeps [.regs, .hbm, .poison, .rcLines, .rcWb, .sf] ⟨[.HA_STAT_SF_LEVEL, .RC_SNP_CNT_COUNT], [], [], false⟩ R) (s : State) (line but : Nat) (inval : Bool)
    (hI : R s) : R (State.snoopAll s line but inval) := by
  unfold State.snoopAll
  try dsimp only
  repeat' first
    | with_reducible assumption
    | exact hR.sub
    | exact fun h => memWf_memStore h
    | exact fun h => memWf_memPut h
    | exact fun h => memWf_filter _ h
    | exact fun _ => rfl
    | with_reducible apply rel_ite
    | with_reducible apply State.setSf_keeps
    | with_reducible apply State.snoopOne_keeps
    | (with_reducible apply rel_foldl; intro _ _ _)
    | (with_reducible apply rel_foldl2; intro _ _ _)
    | (with_reducible apply rel_foldl3; intro _ _ _)
    | (with_reducible apply rel_foldl1; intro _ _ _)
    | fail_if_no_progress (with_reducible apply hR.upd; all_goals try first | with_reducible exact .inr rfl | exact .inl (by decide +kernel) | exact id)
    | dsimp only
    | intro _ _
    | intro _
    | contradiction
    | (unfold id)
    | split
    | (rename_i hh; injection hh with hh; subst hh)
    | (rename_i hh; split at hh)

def opPartsSfAdd : List Part := [.regs, .hbm, .poison, .rcLines, .rcWb, .sf, .sfAge]

theorem State.sfAdd_keeps {R : State → Prop} (hR : Keeps opPartsSfAdd ⟨[.HA_BACKINV_CNT_COUNT, .HA_STAT_SF_LEVEL, .RC_SNP_CNT_COUNT], [], [], false⟩ R) (s : State) (line n : Nat) (own : Bool)
    (hI : R s) : R (State.sfAdd s line n own) := by
  unfold State.sfAdd
  try dsimp only
  repeat' first
    | with_reducible assumption
    | exact hR.sub
    | exact fun h => memWf_memStore h
    | exact fun h => memWf_memPut h
    | exact fun h => memWf_filter _ h
    | exact fun _ => rfl
    | exact hR.sub (by decide +kernel) (subFld_self _ _)
    | with_reducible apply rel_ite
    | with_reducible apply State.bump_keeps
    | with_reducible apply State.setSf_keeps
    | with_reducible apply State.snoopAll_keeps
    | (with_reducible apply rel_foldl; intro _ _ _)
    | (with_reducible apply rel_foldl2; intro _ _ _)
    | (with_reducible apply rel_foldl3; intro _ _ _)
    | (with_reducible apply rel_foldl1; intro _ _ _)
    | fail_if_no_progress (with_reducible apply hR.upd; all_goals try first | with_reducible exact .inr rfl | exact .inl (by decide +kernel) | exact id)
    | dsimp only
    | intro _ _
    | intro _
    | contradiction
    | (unfold id)
    | split
    | (rename_i hh; injection hh with hh; subst hh)
    | (rename_i hh; split at hh)

theorem State.sfDrop_keeps {R : State → Prop} (hR : Keeps [.regs, .sf] ⟨[.HA_STAT_SF_LEVEL], [], [], false⟩ R) (s : State) (line n : Nat)
    (hI : R s) : R (State.sfDrop s line n) := by
  unfold State.sfDrop
  try dsimp only
  repeat' first
    | with_reducible assumption
    | exact hR.sub
    | exact fun h => memWf_memStore h
    | exact fun h => memWf_memPut h
    | exact fun h => memWf_filter _ h
    | exact fun _ => rfl
    | with_reducible apply rel_ite
    | with_reducible apply State.setSf_keeps
    | fail_if_no_progress (with_reducible apply hR.upd; all_goals try first | with_reducible exact .inr rfl | exact .inl (by decide +kernel) | exact id)
    | dsimp only
    | intro _ _
    | intro _
    | contradiction
    | (unfold id)
    | split
    | (rename_i hh; injection hh with hh; subst hh)
    | (rename_i hh; split at hh)

theorem State.wbGo_keeps {R : State → Prop} (hR : Keeps [.regs, .hbm, .poison, .rcWb, .sf] ⟨[.HA_STAT_SF_LEVEL, .RC_WB_CNT_COUNT], [], [], false⟩ R) (s : State) (n : Nat) (b : RcWb)
    (hI : R s) : R (State.wbGo s n b) := by
  unfold State.wbGo
  try dsimp only
  repeat' first
    | with_reducible assumption
    | exact hR.sub
    | exact hR.sub (by decide +kernel) (subFld_self _ _)
    | with_reducible apply rel_ite
    | with_reducible apply State.bump_keeps
    | with_reducible apply State.homeStore_keeps
    | with_reducible apply State.setWbs_keeps
    | with_reducible apply State.sfDrop_keeps
    | dsimp only
    | intro _ _
    | intro _
    | contradiction
    | (unfold id)
    | split
    | (rename_i hh; injection hh with hh; subst hh)
    | (rename_i hh; split at hh)

theorem State.wbDrain_keeps {R : State → Prop} (hR : Keeps [.regs, .hbm, .poison, .rcWb, .sf] ⟨[.HA_STAT_SF_LEVEL, .RC_WB_CNT_COUNT], [], [], false⟩ R) (s : State) (n : Nat)
    (hI : R s) : R (State.wbDrain s n) := by
  unfold State.wbDrain
  try dsimp only
  repeat' first
    | with_reducible assumption
    | exact hR.sub
    | exact fun h => memWf_memStore h
    | exact fun h => memWf_memPut h
    | exact fun h => memWf_filter _ h
    | exact fun _ => rfl
    | with_reducible apply rel_ite
    | with_reducible apply State.wbGo_keeps
    | fail_if_no_progress (with_reducible apply hR.upd; all_goals try first | with_reducible exact .inr rfl | exact .inl (by decide +kernel) | exact id)
    | dsimp only
    | intro _ _
    | intro _
    | contradiction
    | (unfold id)
    | split
    | (rename_i hh; injection hh with hh; subst hh)
    | (rename_i hh; split at hh)

def opPartsRcEvict : List Part := [.regs, .hbm, .poison, .rcLines, .rcWb, .sf, .haIn]

theorem State.rcEvict_keeps {R : State → Prop} (hR : Keeps opPartsRcEvict ⟨[.HA_STAT_SF_LEVEL, .RC_WB_CNT_COUNT], [], [], false⟩ R) (s : State) (n line : Nat)
    (hI : R s) : R (State.rcEvict s n line) := by
  unfold State.rcEvict
  try dsimp only
  repeat' first
    | with_reducible assumption
    | exact hR.sub
    | exact fun h => memWf_memStore h
    | exact fun h => memWf_memPut h
    | exact fun h => memWf_filter _ h
    | exact fun _ => rfl
    | with_reducible apply rel_ite
    | with_reducible apply State.setRc_keeps
    | with_reducible apply State.setWbs_keeps
    | with_reducible apply State.wbDrain_keeps
    | fail_if_no_progress (with_reducible apply hR.upd; all_goals try first | with_reducible exact .inr rfl | exact .inl (by decide +kernel) | exact id)
    | dsimp only
    | intro _ _
    | intro _
    | contradiction
    | (unfold id)
    | split
    | (rename_i hh; injection hh with hh; subst hh)
    | (rename_i hh; split at hh)

def opPartsRcFill : List Part := [.regs, .draws, .hbm, .poison, .rcLines, .rcWb, .sf, .haIn]

theorem State.rcFill_keeps {R : State → Prop} (hR : Keeps opPartsRcFill ⟨[.HA_STAT_SF_LEVEL, .RC_WB_CNT_COUNT], [], [], false⟩ R) (s : State) (n line : Nat) (x : RcLine)
    (hI : R s) : R (State.rcFill s n line x) := by
  unfold State.rcFill
  try dsimp only
  repeat' first
    | with_reducible assumption
    | exact hR.sub
    | exact fun h => memWf_memStore h
    | exact fun h => memWf_memPut h
    | exact fun h => memWf_filter _ h
    | exact fun _ => rfl
    | with_reducible apply rel_ite
    | with_reducible apply State.draw_keeps
    | with_reducible apply State.rcEvict_keeps
    | with_reducible apply State.setRc_keeps
    | with_reducible apply State.wbDrain_keeps
    | (refine State.draw_keeps_of hR.sub _ _ ?_ (by assumption))
    | fail_if_no_progress (with_reducible apply hR.upd; all_goals try first | with_reducible exact .inr rfl | exact .inl (by decide +kernel) | exact id)
    | dsimp only
    | intro _ _
    | intro _
    | contradiction
    | (unfold id)
    | split
    | (rename_i hh; injection hh with hh; subst hh)
    | (rename_i hh; split at hh)

def opPartsRcBring : List Part := [.regs, .draws, .hbm, .poison, .rcLines, .rcWb, .sf, .sfAge, .haIn]

theorem State.rcBring_keeps {R : State → Prop} (hR : Keeps opPartsRcBring ⟨[.HA_BACKINV_CNT_COUNT, .HA_STAT_SF_LEVEL, .RC_SNP_CNT_COUNT, .RC_WB_CNT_COUNT], [], [], false⟩ R) (s : State) (n line : Nat) (own : Bool)
    (hI : R s) : R (State.rcBring s n line own) := by
  unfold State.rcBring
  try dsimp only
  repeat' first
    | with_reducible assumption
    | exact hR.sub
    | with_reducible apply rel_ite
    | with_reducible apply State.rcFill_keeps
    | with_reducible apply State.sfAdd_keeps
    | with_reducible apply State.snoopAll_keeps
    | dsimp only
    | intro _ _
    | intro _
    | contradiction
    | (unfold id)
    | split
    | (rename_i hh; injection hh with hh; subst hh)
    | (rename_i hh; split at hh)

theorem State.countRetained_keeps {R : State → Prop} (hR : Keeps [.regs] ⟨[.RC_STAT_RETAINED], [], [], false⟩ R) (s : State) (n : Nat)
    (hI : R s) : R (State.countRetained s n) := by
  unfold State.countRetained
  try dsimp only
  repeat' first
    | with_reducible assumption
    | exact hR.sub
    | with_reducible apply rel_ite
    | with_reducible refine hR.wr _ _ _ (by decide +kernel) (by first | decide +kernel | exact hasFld_self _ _ | exact hasFld_all _ | (simp [hasFld]; done) ) ?_
    | dsimp only
    | intro _ _
    | intro _
    | contradiction
    | (unfold id)
    | split
    | (rename_i hh; injection hh with hh; subst hh)
    | (rename_i hh; split at hh)

def opPartsRecallHome : List Part := [.regs, .hbm, .poison, .rcLines, .rcWb, .sf, .sfAge, .homeOut]

theorem State.recallHome_keeps {R : State → Prop} (hR : Keeps opPartsRecallHome ⟨[.HA_BACKINV_CNT_COUNT, .HA_STAT_RECALL, .HA_STAT_SF_LEVEL, .RC_SNP_CNT_COUNT, .RC_STAT_RETAINED, .RC_WB_CNT_COUNT], [], [], false⟩ R) (s : State) (st : Nat)
    (hI : R s) : R (State.recallHome s st) := by
  unfold State.recallHome
  extract_lets kept s1 s2
  have h1 : R s1 := by
    refine rel_foldl (fun s e h => ?_) _ hI
    dsimp only
    repeat' first
    | with_reducible assumption
    | exact hR.sub
    | exact hR.sub
    | with_reducible apply State.countRetained_keeps
    | with_reducible apply State.sfAdd_keeps
    | with_reducible apply State.setSf_keeps
    | with_reducible apply State.bump_keeps
    | with_reducible apply State.setRc_keeps
    | with_reducible apply State.homeStore_keeps
    | exact hR.sub (by decide +kernel) (subFld_self _ _)
  clear_value s1
  have h2 : R s2 :=
    rel_foldl (fun s n h => rel_foldl (fun s b h => State.wbGo_keeps hR.sub _ _ _ h) _ h) _ h1
  clear_value s2
  refine hR.wr _ _ _ (by decide +kernel) (by decide +kernel) ?_
  fail_if_no_progress (with_reducible apply hR.upd; all_goals try first | exact .inl (by decide +kernel) | with_reducible exact .inr rfl | exact id)
  assumption

def opPartsRecallFirst : List Part := [.regs, .hbm, .poison, .rcLines, .rcWb, .sf, .sfAge, .homeOut]

theorem State.recallFirst_keeps {R : State → Prop} (hR : Keeps opPartsRecallFirst ⟨[.HA_BACKINV_CNT_COUNT, .HA_STAT_RECALL, .HA_STAT_SF_LEVEL, .RC_SNP_CNT_COUNT, .RC_STAT_RETAINED, .RC_WB_CNT_COUNT], [], [], false⟩ R) (s : State) (st : Nat)
    (hI : R s) : R (State.recallFirst s st) := by
  unfold State.recallFirst
  try dsimp only
  repeat' first
    | with_reducible assumption
    | exact hR.sub
    | with_reducible apply rel_ite
    | with_reducible apply State.recallHome_keeps
    | dsimp only
    | intro _ _
    | intro _
    | contradiction
    | (unfold id)
    | split
    | (rename_i hh; injection hh with hh; subst hh)
    | (rename_i hh; split at hh)

def opPartsRcRead : List Part := [.regs, .draws, .hbm, .poison, .rcLines, .rcWb, .sf, .sfAge, .haIn, .homeOut]
def opFieldsRcRead : FSet :=
  ⟨[.HA_BACKINV_CNT_COUNT, .HA_STAT_RECALL, .HA_STAT_SF_LEVEL, .RC_HIT_CNT_COUNT, .RC_MISS_CNT_COUNT, .RC_SNP_CNT_COUNT,
    .RC_STAT_RETAINED, .RC_WB_CNT_COUNT], [], [], false⟩

theorem State.rcRead_keeps {R : State → Prop} (hR : Keeps opPartsRcRead opFieldsRcRead R) (s : State) (n line : Nat)
    (hI : R s) : R (State.rcRead s n line).2.2 := by
  unfold State.rcRead
  try dsimp only
  repeat' first
    | with_reducible assumption
    | exact hR.sub
    | exact fun h => memWf_memStore h
    | exact fun h => memWf_memPut h
    | exact fun h => memWf_filter _ h
    | exact fun _ => rfl
    | exact hR.sub (by decide +kernel) (subFld_self _ _)
    | with_reducible apply rel_ite
    | with_reducible apply State.bump_keeps
    | with_reducible apply State.rcBring_keeps
    | with_reducible apply State.rcFill_keeps
    | with_reducible apply State.recallFirst_keeps
    | fail_if_no_progress (with_reducible apply hR.upd; all_goals try first | with_reducible exact .inr rfl | exact .inl (by decide +kernel) | exact id)
    | dsimp only
    | intro _ _
    | intro _
    | contradiction
    | (unfold id)
    | split
    | (rename_i hh; injection hh with hh; subst hh)
    | (rename_i hh; split at hh)

theorem State.rcRead_keeps_of {R : State → Prop} (hR : Keeps opPartsRcRead opFieldsRcRead R) (s : State) (n line : Nat)
    (hI : R s) {a : Nat} {b : Nat} {tT : State} (eE : State.rcRead s n line = (a, b, tT)) : R tT := by
  have h := State.rcRead_keeps hR s n line hI
  rw [eE] at h
  exact h

def opPartsRcWrite : List Part := [.regs, .draws, .hbm, .poison, .rcLines, .rcWb, .sf, .sfAge, .haIn, .homeOut]
def opFieldsRcWrite : FSet :=
  ⟨[.HA_BACKINV_CNT_COUNT, .HA_STAT_RECALL, .HA_STAT_SF_LEVEL, .RC_HIT_CNT_COUNT, .RC_MISS_CNT_COUNT, .RC_SNP_CNT_COUNT,
    .RC_STAT_RETAINED, .RC_WB_CNT_COUNT], [], [], false⟩

theorem State.rcWrite_keeps {R : State → Prop} (hR : Keeps opPartsRcWrite opFieldsRcWrite R) (s : State) (n line data : Nat) (bad : Bool)
    (hI : R s) : R (State.rcWrite s n line data bad).2 := by
  unfold State.rcWrite
  try dsimp only
  repeat' first
    | with_reducible assumption
    | exact hR.sub
    | exact fun h => memWf_memStore h
    | exact fun h => memWf_memPut h
    | exact fun h => memWf_filter _ h
    | exact fun _ => rfl
    | exact hR.sub (by decide +kernel) (subFld_self _ _)
    | with_reducible apply rel_ite
    | with_reducible apply State.bump_keeps
    | with_reducible apply State.homeStore_keeps
    | with_reducible apply State.rcBring_keeps
    | with_reducible apply State.recallFirst_keeps
    | with_reducible apply State.setRc_keeps
    | with_reducible apply State.sfDrop_keeps
    | fail_if_no_progress (with_reducible apply hR.upd; all_goals try first | with_reducible exact .inr rfl | exact .inl (by decide +kernel) | exact id)
    | dsimp only
    | intro _ _
    | intro _
    | contradiction
    | (unfold id)
    | split
    | (rename_i hh; injection hh with hh; subst hh)
    | (rename_i hh; split at hh)

theorem State.rcWrite_keeps_of {R : State → Prop} (hR : Keeps opPartsRcWrite opFieldsRcWrite R) (s : State) (n line data : Nat) (bad : Bool)
    (hI : R s) {a : Nat} {tT : State} (eE : State.rcWrite s n line data bad = (a, tT)) : R tT := by
  have h := State.rcWrite_keeps hR s n line data bad hI
  rw [eE] at h
  exact h

theorem State.refuse19_keeps {R : State → Prop} (hR : Keeps [.stewards] ⟨[], [], [], false⟩ R) (s : State) (m : Mst) (g status : Nat)
    (hI : R s) : R (State.refuse19 s m g status) := by
  unfold State.refuse19
  try dsimp only
  repeat' first
    | with_reducible assumption
    | exact hR.sub
    | with_reducible apply rel_ite
    | with_reducible apply State.raise_keeps
    | dsimp only
    | intro _ _
    | intro _
    | contradiction
    | (unfold id)
    | split
    | (rename_i hh; injection hh with hh; subst hh)
    | (rename_i hh; split at hh)

def opPartsGRead : List Part :=
  [.regs, .draws, .stewards, .hbm, .poison, .rcLines, .rcWb, .sf, .sfAge, .haIn, .homeOut, .ccache]
def opFieldsGRead : FSet :=
  ⟨[.HA_BACKINV_CNT_COUNT, .HA_STAT_RECALL, .HA_STAT_SF_LEVEL, .RC_HIT_CNT_COUNT, .RC_MISS_CNT_COUNT, .RC_SNP_CNT_COUNT,
    .RC_STAT_RETAINED, .RC_WB_CNT_COUNT, .SEAL_CC_MISS_CNT_COUNT, .SEAL_DENY_CNT_COUNT, .SEAL_ERR_ADDR_HI_ADDR,
    .SEAL_ERR_ADDR_LO_ADDR, .SEAL_ERR_CODE, .SEAL_ERR_LEVEL, .SEAL_ERR_RANGE, .SEAL_ERR_VALID], [], [], false⟩

theorem State.gRead_keeps {R : State → Prop} (hR : Keeps opPartsGRead opFieldsGRead R) (s : State) (m : Mst) (g : Nat) (env : Nat × Nat)
    (hI : R s) : R (State.gRead s m g env).2.2 := by
  unfold State.gRead
  try dsimp only
  repeat' first
    | with_reducible assumption
    | exact hR.sub
    | exact fun h => memWf_memStore h
    | exact fun h => memWf_memPut h
    | exact fun h => memWf_filter _ h
    | exact fun _ => rfl
    | with_reducible apply rel_ite
    | with_reducible apply State.pipeRead_keeps
    | with_reducible apply State.rcRead_keeps
    | with_reducible apply State.recallFirst_keeps
    | with_reducible apply State.refuse19_keeps
    | with_reducible apply State.snoopAll_keeps
    | (refine State.pipeRead_keeps_of hR.sub _ _ _ _ ?_ (by assumption))
    | (refine State.rcRead_keeps_of hR.sub _ _ _ ?_ (by assumption))
    | fail_if_no_progress (with_reducible apply hR.upd; all_goals try first | with_reducible exact .inr rfl | exact .inl (by decide +kernel) | exact id)
    | dsimp only
    | intro _ _
    | intro _
    | contradiction
    | (unfold id)
    | split
    | (rename_i hh; injection hh with hh; subst hh)
    | (rename_i hh; split at hh)

theorem State.gRead_keeps_of {R : State → Prop} (hR : Keeps opPartsGRead opFieldsGRead R) (s : State) (m : Mst) (g : Nat) (env : Nat × Nat)
    (hI : R s) {a : Nat} {b : Nat} {tT : State} (eE : State.gRead s m g env = (a, b, tT)) : R tT := by
  have h := State.gRead_keeps hR s m g env hI
  rw [eE] at h
  exact h

theorem State.winDrop_keeps {R : State → Prop} (hR : Keeps [.stewards] ⟨[], [], [], false⟩ R) (s : State) (w : Writer) (e off v : Nat)
    (hI : R s) : R (State.winDrop s w e off v) := by
  unfold State.winDrop
  try dsimp only
  repeat' first
    | with_reducible assumption
    | exact hR.sub
    | with_reducible apply rel_ite
    | with_reducible apply State.raiseFixed_keeps
    | dsimp only
    | intro _ _
    | intro _
    | contradiction
    | (unfold id)
    | split
    | (rename_i hh; injection hh with hh; subst hh)
    | (rename_i hh; split at hh)

theorem State.winWord_keeps {R : State → Prop} (hR : Keeps [.stewards, .eng, .win] ⟨[], [], [], false⟩ R) (s : State) (w : Writer) (e off v : Nat)
    (hI : R s) : R (State.winWord s w e off v).2 := by
  unfold State.winWord
  try dsimp only
  repeat' first
    | with_reducible assumption
    | exact hR.sub
    | exact fun h => memWf_memStore h
    | exact fun h => memWf_memPut h
    | exact fun h => memWf_filter _ h
    | exact fun _ => rfl
    | with_reducible apply rel_ite
    | with_reducible apply State.winDrop_keeps
    | with_reducible apply State.winStore_keeps
    | fail_if_no_progress (with_reducible apply hR.upd; all_goals try first | with_reducible exact .inr rfl | exact .inl (by decide +kernel) | exact id)
    | dsimp only
    | intro _ _
    | intro _
    | contradiction
    | (unfold id)
    | split
    | (rename_i hh; injection hh with hh; subst hh)
    | (rename_i hh; split at hh)

theorem State.winWord_keeps_of {R : State → Prop} (hR : Keeps [.stewards, .eng, .win] ⟨[], [], [], false⟩ R) (s : State) (w : Writer) (e off v : Nat)
    (hI : R s) {a : Nat} {tT : State} (eE : State.winWord s w e off v = (a, tT)) : R tT := by
  have h := State.winWord_keeps hR s w e off v hI
  rw [eE] at h
  exact h

def opPartsGWrite : List Part :=
  [.regs, .out, .draws, .stewards, .eng, .hbm, .poison, .win, .rcLines, .rcWb, .sf, .sfAge, .haIn, .homeOut, .leafMaj,
    .leafMin, .ccache, .hwm]
def opFieldsGWrite : FSet :=
  ⟨[.HA_BACKINV_CNT_COUNT, .HA_STAT_RECALL, .HA_STAT_SF_LEVEL, .HBM_ERR_ADDR_HI_ADDR, .HBM_ERR_ADDR_LO_ADDR,
    .HBM_ERR_CH, .HBM_ERR_CODE, .HBM_ERR_PC, .HBM_ERR_SID, .HBM_ERR_VALID, .RC_HIT_CNT_COUNT, .RC_MISS_CNT_COUNT,
    .RC_SNP_CNT_COUNT, .RC_STAT_RETAINED, .RC_WB_CNT_COUNT, .SEAL_CC_MISS_CNT_COUNT, .SEAL_DENY_CNT_COUNT,
    .SEAL_ERR_ADDR_HI_ADDR, .SEAL_ERR_ADDR_LO_ADDR, .SEAL_ERR_CODE, .SEAL_ERR_LEVEL, .SEAL_ERR_RANGE, .SEAL_ERR_VALID,
    .SEAL_OVF_CNT_COUNT, .SEAL_RSTAT_FREEZE, .SEAL_RSTAT_STATE], [], [], false⟩

theorem State.gWrite_keeps {R : State → Prop} (hR : Keeps opPartsGWrite opFieldsGWrite R) (s : State) (m : Mst) (g data : Nat) (bad : Bool) (env : Nat)
    (hI : R s) : R (State.gWrite s m g data bad env).2 := by
  unfold State.gWrite
  try dsimp only
  repeat' first
    | with_reducible assumption
    | exact hR.sub
    | exact fun h => memWf_memStore h
    | exact fun h => memWf_memPut h
    | exact fun h => memWf_filter _ h
    | exact fun _ => rfl
    | with_reducible apply rel_ite
    | with_reducible apply State.emit_keeps
    | with_reducible apply State.pipeWrite_keeps
    | with_reducible apply State.rcWrite_keeps
    | with_reducible apply State.recallFirst_keeps
    | with_reducible apply State.refuse19_keeps
    | with_reducible apply State.snoopAll_keeps
    | with_reducible apply State.winDrop_keeps
    | with_reducible apply State.winWord_keeps
    | (with_reducible apply rel_foldl; intro _ _ _)
    | (with_reducible apply rel_foldl2; intro _ _ _)
    | (with_reducible apply rel_foldl3; intro _ _ _)
    | (with_reducible apply rel_foldl1; intro _ _ _)
    | (refine State.pipeWrite_keeps_of hR.sub _ _ _ _ _ _ ?_ (by assumption))
    | (refine State.rcWrite_keeps_of hR.sub _ _ _ _ _ ?_ (by assumption))
    | (refine State.winWord_keeps_of hR.sub _ _ _ _ _ ?_ (by assumption))
    | fail_if_no_progress (with_reducible apply hR.upd; all_goals try first | with_reducible exact .inr rfl | exact .inl (by decide +kernel) | exact id)
    | dsimp only
    | intro _ _
    | intro _
    | contradiction
    | (unfold id)
    | split
    | (rename_i hh; injection hh with hh; subst hh)
    | (rename_i hh; split at hh)

theorem State.gWrite_keeps_of {R : State → Prop} (hR : Keeps opPartsGWrite opFieldsGWrite R) (s : State) (m : Mst) (g data : Nat) (bad : Bool) (env : Nat)
    (hI : R s) {a : Nat} {tT : State} (eE : State.gWrite s m g data bad env = (a, tT)) : R tT := by
  have h := State.gWrite_keeps hR s m g data bad env hI
  rw [eE] at h
  exact h

end Sys2Proof.Machine
end

