-- ==== Sys2Proof/Laws/KeepsRings.lean ====
section
/-! SUPPORT. What the operations of `Machine/Rings.lean` may change and what they keep. -/

namespace Sys2Proof.Machine

set_option Elab.async false
set_option linter.all false

theorem State.setQp_keeps {R : State → Prop} (hR : Keeps [.qps] ⟨[], [], [], false⟩ R) (s : State) (q : Nat) (x : QpRt)
    (hI : R s) : R (State.setQp s q x) := by
  unfold State.setQp
  try dsimp only
  repeat' first
    | with_reducible assumption
    | exact hR.sub
    | exact fun h => memWf_memStore h
    | exact fun h => memWf_memPut h
    | exact fun h => memWf_filter _ h
    | exact fun _ => rfl
    | with_reducible apply rel_ite
    | fail_if_no_progress (with_reducible apply hR.upd; all_goals try first | with_reducible exact .inr rfl | exact .inl (by decide +kernel) | exact id)
    | dsimp only
    | intro _ _
    | intro _
    | contradiction
    | (unfold id)
    | split
    | (rename_i hh; injection hh with hh; subst hh)
    | (rename_i hh; split at hh)

theorem State.setVec_keeps {R : State → Prop} (hR : Keeps [.vecs] ⟨[], [], [], false⟩ R) (s : State) (f v : Nat) (x : VecRt)
    (hI : R s) : R (State.setVec s f v x) := by
  unfold State.setVec
  try dsimp only
  repeat' first
    | with_reducible assumption
    | exact hR.sub
    | exact fun h => memWf_memStore h
    | exact fun h => memWf_memPut h
    | exact fun h => memWf_filter _ h
    | exact fun _ => rfl
    | with_reducible apply rel_ite
    | fail_if_no_progress (with_reducible apply hR.upd; all_goals try first | with_reducible exact .inr rfl | exact .inl (by decide +kernel) | exact id)
    | dsimp only
    | intro _ _
    | intro _
    | contradiction
    | (unfold id)
    | split
    | (rename_i hh; injection hh with hh; subst hh)
    | (rename_i hh; split at hh)

theorem State.sendVec_keeps {R : State → Prop} (hR : Keeps [.out, .vecs] ⟨[], [], [], false⟩ R) (s : State) (f v : Nat)
    (hI : R s) : R (State.sendVec s f v) := by
  unfold State.sendVec
  try dsimp only
  repeat' first
    | with_reducible assumption
    | exact hR.sub
    | exact fun h => memWf_memStore h
    | exact fun h => memWf_memPut h
    | exact fun h => memWf_filter _ h
    | exact fun _ => rfl
    | with_reducible apply rel_ite
    | with_reducible apply State.emit_keeps
    | with_reducible apply State.setVec_keeps
    | fail_if_no_progress (with_reducible apply hR.upd; all_goals try first | with_reducible exact .inr rfl | exact .inl (by decide +kernel) | exact id)
    | dsimp only
    | intro _ _
    | intro _
    | contradiction
    | (unfold id)
    | split
    | (rename_i hh; injection hh with hh; subst hh)
    | (rename_i hh; split at hh)

theorem State.raiseVec_keeps {R : State → Prop} (hR : Keeps [.out, .vecs] ⟨[], [], [], false⟩ R) (s : State) (f v h : Nat)
    (hI : R s) : R (State.raiseVec s f v h) := by
  unfold State.raiseVec
  try dsimp only
  repeat' first
    | with_reducible assumption
    | exact hR.sub
    | exact fun h => memWf_memStore h
    | exact fun h => memWf_memPut h
    | exact fun h => memWf_filter _ h
    | exact fun _ => rfl
    | with_reducible apply rel_ite
    | with_reducible apply State.sendVec_keeps
    | with_reducible apply State.setVec_keeps
    | fail_if_no_progress (with_reducible apply hR.upd; all_goals try first | with_reducible exact .inr rfl | exact .inl (by decide +kernel) | exact id)
    | dsimp only
    | intro _ _
    | intro _
    | contradiction
    | (unfold id)
    | split
    | (rename_i hh; injection hh with hh; subst hh)
    | (rename_i hh; split at hh)

theorem State.raiseQp_keeps {R : State → Prop} (hR : Keeps [.out, .vecs] ⟨[], [], [], false⟩ R) (s : State) (q : Nat)
    (hI : R s) : R (State.raiseQp s q) := by
  unfold State.raiseQp
  try dsimp only
  repeat' first
    | with_reducible assumption
    | exact hR.sub
    | with_reducible apply rel_ite
    | with_reducible apply State.raiseVec_keeps
    | dsimp only
    | intro _ _
    | intro _
    | contradiction
    | (unfold id)
    | split
    | (rename_i hh; injection hh with hh; subst hh)
    | (rename_i hh; split at hh)

theorem State.qpError_keeps {R : State → Prop} (hR : Keeps [.regs, .out, .vecs] ⟨[.HIF_QP_STAT_ERR, .HIF_QP_STAT_STATE], [], [], false⟩ R) (s : State) (q err : Nat)
    (hI : R s) : R (State.qpError s q err) := by
  unfold State.qpError
  try dsimp only
  repeat' first
    | with_reducible assumption
    | exact hR.sub
    | with_reducible apply rel_ite
    | with_reducible refine hR.wr _ _ _ (by decide +kernel) (by first | decide +kernel | exact hasFld_self _ _ | exact hasFld_all _ | (simp [hasFld]; done) ) ?_
    | with_reducible apply State.raiseQp_keeps
    | dsimp only
    | intro _ _
    | intro _
    | contradiction
    | (unfold id)
    | split
    | (rename_i hh; injection hh with hh; subst hh)
    | (rename_i hh; split at hh)

theorem State.setJob_keeps {R : State → Prop} (hR : Keeps [.qps] ⟨[], [], [], false⟩ R) (s : State) (q n : Nat) (j : Job)
    (hI : R s) : R (State.setJob s q n j) := by
  unfold State.setJob
  try dsimp only
  repeat' first
    | with_reducible assumption
    | exact hR.sub
    | exact fun h => memWf_memStore h
    | exact fun h => memWf_memPut h
    | exact fun h => memWf_filter _ h
    | exact fun _ => rfl
    | with_reducible apply rel_ite
    | with_reducible apply State.setQp_keeps
    | fail_if_no_progress (with_reducible apply hR.upd; all_goals try first | with_reducible exact .inr rfl | exact .inl (by decide +kernel) | exact id)
    | dsimp only
    | intro _ _
    | intro _
    | contradiction
    | (unfold id)
    | split
    | (rename_i hh; injection hh with hh; subst hh)
    | (rename_i hh; split at hh)

theorem State.jobGone_keeps {R : State → Prop} (hR : Keeps [.regs, .stewards, .qps] ⟨[.HIF_QP_DONE_CNT_COUNT, .HIF_QP_STAT_STATE], [], [], false⟩ R) (s : State) (q n : Nat)
    (hI : R s) : R (State.jobGone s q n) := by
  unfold State.jobGone
  try dsimp only
  repeat' first
    | with_reducible assumption
    | exact hR.sub
    | exact fun h => memWf_memStore h
    | exact fun h => memWf_memPut h
    | exact fun h => memWf_filter _ h
    | exact fun _ => rfl
    | exact hR.sub (by decide +kernel) (subFld_self _ _)
    | with_reducible apply rel_ite
    | with_reducible refine hR.wr _ _ _ (by decide +kernel) (by first | decide +kernel | exact hasFld_self _ _ | exact hasFld_all _ | (simp [hasFld]; done) ) ?_
    | with_reducible apply State.bump_keeps
    | with_reducible apply State.drop_keeps
    | with_reducible apply State.setQp_keeps
    | fail_if_no_progress (with_reducible apply hR.upd; all_goals try first | with_reducible exact .inr rfl | exact .inl (by decide +kernel) | exact id)
    | dsimp only
    | intro _ _
    | intro _
    | contradiction
    | (unfold id)
    | split
    | (rename_i hh; injection hh with hh; subst hh)
    | (rename_i hh; split at hh)

theorem State.jobEnd_keeps {R : State → Prop} (hR : Keeps [.regs, .stewards, .qps] ⟨[.HIF_QP_DONE_CNT_COUNT, .HIF_QP_STAT_STATE], [], [], false⟩ R) (s : State) (q n status detail bytes : Nat)
    (hI : R s) : R (State.jobEnd s q n status detail bytes) := by
  unfold State.jobEnd
  try dsimp only
  repeat' first
    | with_reducible assumption
    | exact hR.sub
    | exact fun h => memWf_memStore h
    | exact fun h => memWf_memPut h
    | exact fun h => memWf_filter _ h
    | exact fun _ => rfl
    | with_reducible apply rel_ite
    | with_reducible apply State.jobGone_keeps
    | with_reducible apply State.setJob_keeps
    | fail_if_no_progress (with_reducible apply hR.upd; all_goals try first | with_reducible exact .inr rfl | exact .inl (by decide +kernel) | exact id)
    | dsimp only
    | intro _ _
    | intro _
    | contradiction
    | (unfold id)
    | split
    | (rename_i hh; injection hh with hh; subst hh)
    | (rename_i hh; split at hh)

theorem State.settle_keeps {R : State → Prop} (hR : Keeps [.regs, .stewards, .qps, .cfgWait] ⟨[.HIF_QP_DONE_CNT_COUNT, .HIF_QP_STAT_STATE], [], [], false⟩ R) (s : State) (q : Nat) (n : Nat)
    (hI : R s) : R (State.settle s q n) := by
  induction n generalizing s q with
  | zero => exact hI
  | succ n ih =>
  unfold State.settle
  try dsimp only
  repeat' first
    | with_reducible assumption
    | (with_reducible apply ih)
    | exact hR.sub
    | exact fun h => memWf_memStore h
    | exact fun h => memWf_memPut h
    | exact fun h => memWf_filter _ h
    | exact fun _ => rfl
    | with_reducible apply rel_ite
    | with_reducible apply State.jobEnd_keeps
    | fail_if_no_progress (with_reducible apply hR.upd; all_goals try first | with_reducible exact .inr rfl | exact .inl (by decide +kernel) | exact id)
    | dsimp only
    | intro _ _
    | intro _
    | contradiction
    | (unfold id)
    | split
    | (rename_i hh; injection hh with hh; subst hh)
    | (rename_i hh; split at hh)

theorem State.jobDone_keeps {R : State → Prop} (hR : Keeps [.regs, .stewards, .qps, .cfgWait] ⟨[.HIF_QP_DONE_CNT_COUNT, .HIF_QP_STAT_STATE], [], [], false⟩ R) (s : State) (q n status detail bytes : Nat)
    (hI : R s) : R (State.jobDone s q n status detail bytes) := by
  unfold State.jobDone
  try dsimp only
  repeat' first
    | with_reducible assumption
    | exact hR.sub
    | with_reducible apply rel_ite
    | with_reducible apply State.jobEnd_keeps
    | with_reducible apply State.settle_keeps
    | dsimp only
    | intro _ _
    | intro _
    | contradiction
    | (unfold id)
    | split
    | (rename_i hh; injection hh with hh; subst hh)
    | (rename_i hh; split at hh)

theorem State.qpDrop_keeps {R : State → Prop} (hR : Keeps [.qps, .mail, .cfgWait] ⟨[], [], [], false⟩ R) (s : State) (q : Nat)
    (hI : R s) : R (State.qpDrop s q) := by
  unfold State.qpDrop
  try dsimp only
  repeat' first
    | with_reducible assumption
    | exact hR.sub
    | exact fun h => memWf_memStore h
    | exact fun h => memWf_memPut h
    | exact fun h => memWf_filter _ h
    | exact fun _ => rfl
    | with_reducible apply rel_ite
    | with_reducible apply State.setQp_keeps
    | fail_if_no_progress (with_reducible apply hR.upd; all_goals try first | with_reducible exact .inr rfl | exact .inl (by decide +kernel) | exact id)
    | dsimp only
    | intro _ _
    | intro _
    | contradiction
    | (unfold id)
    | split
    | (rename_i hh; injection hh with hh; subst hh)
    | (rename_i hh; split at hh)

theorem State.hostData_keeps {R : State → Prop} (hR : Keeps [.out] ⟨[], [], [], false⟩ R) (s : State) (f a : Nat) (bs : List Byte)
    (hI : R s) : R (State.hostData s f a bs) := by
  unfold State.hostData
  try dsimp only
  repeat' first
    | with_reducible assumption
    | exact hR.sub
    | with_reducible apply rel_ite
    | with_reducible apply State.emit_keeps
    | dsimp only
    | intro _ _
    | intro _
    | contradiction
    | (unfold id)
    | split
    | (rename_i hh; injection hh with hh; subst hh)
    | (rename_i hh; split at hh)

end Sys2Proof.Machine
end

