-- ==== Sys2Proof/Laws/KeepsImages.lean ====
section
/-! SUPPORT. What the operations of `Machine/Images.lean` may change and what they keep. -/

namespace Sys2Proof.Machine

set_option Elab.async false
set_option linter.all false

theorem State.lsErr_keeps {R : State → Prop} (hR : Keeps [.regs, .stewards] ⟨[.LS_ERR_CODE, .LS_ERR_SOURCE, .LS_ERR_VALID], [], [], false⟩ R) (s : State) (code source : Nat)
    (hI : R s) : R (State.lsErr s code source) := by
  unfold State.lsErr
  try dsimp only
  repeat' first
    | with_reducible assumption
    | exact hR.sub
    | with_reducible apply rel_ite
    | with_reducible refine hR.wr _ _ _ (by decide +kernel) (by first | decide +kernel | exact hasFld_self _ _ | exact hasFld_all _ | (simp [hasFld]; done) ) ?_
    | with_reducible apply State.raise_keeps
    | dsimp only
    | intro _ _
    | intro _
    | contradiction
    | (unfold id)
    | split
    | (rename_i hh; injection hh with hh; subst hh)
    | (rename_i hh; split at hh)

theorem State.imageBad_keeps {R : State → Prop} (hR : Keeps [.regs, .stewards] ⟨[.LS_ERR_CODE, .LS_ERR_SOURCE, .LS_ERR_VALID, .LS_VER_CNT_COUNT], [], [], false⟩ R) (s : State) (code source : Nat)
    (hI : R s) : R (State.imageBad s code source) := by
  unfold State.imageBad
  try dsimp only
  repeat' first
    | with_reducible assumption
    | exact hR.sub
    | exact hR.sub (by decide +kernel) (subFld_self _ _)
    | with_reducible apply rel_ite
    | with_reducible apply State.bump_keeps
    | with_reducible apply State.lsErr_keeps
    | dsimp only
    | intro _ _
    | intro _
    | contradiction
    | (unfold id)
    | split
    | (rename_i hh; injection hh with hh; subst hh)
    | (rename_i hh; split at hh)

theorem State.cfgBlank_keeps {R : State → Prop} (hR : Keeps [.sec, .fab, .cfg] ⟨[], [], [], false⟩ R) (s : State) (n k : Nat)
    (hI : R s) : R (State.cfgBlank s n k) := by
  unfold State.cfgBlank
  try dsimp only
  repeat' first
    | with_reducible assumption
    | exact hR.sub
    | exact fun h => memWf_memStore h
    | exact fun h => memWf_memPut h
    | exact fun h => memWf_filter _ h
    | exact fun _ => rfl
    | with_reducible apply rel_ite
    | with_reducible apply State.fabBlank_keeps
    | with_reducible apply State.setSector_keeps
    | fail_if_no_progress (with_reducible apply hR.upd; all_goals try first | with_reducible exact .inr rfl | exact .inl (by decide +kernel) | exact id)
    | dsimp only
    | intro _ _
    | intro _
    | contradiction
    | (unfold id)
    | split
    | (rename_i hh; injection hh with hh; subst hh)
    | (rename_i hh; split at hh)

theorem State.cfgEach_keeps {R : State → Prop} (hR : Keeps [] ⟨[], [], [], false⟩ R) (s : State) (f : Nat → Nat → State → State) (hI : R s)
    (hf : ∀ n k s, R s → R (f n k s)) : R (State.cfgEach s f) := by
  unfold State.cfgEach
  refine rel_foldl (fun s n h => ?_) _ hI
  exact rel_ite (rel_foldl (fun s k h => hf n k s h) _ h) h

theorem State.remapAtLoad_keeps {R : State → Prop} (hR : Keeps [.regs, .stewards, .health] ⟨[.MGMT_HEALTH_STAGE, .MGMT_HEALTH_ZERO, .SEC_COLMAP_ACTIVE, .SEC_STATUS_PENDING_REMAP], [], [], false⟩ R) (s : State) (n k : Nat)
    (hI : R s) : R (State.remapAtLoad s n k) := by
  unfold State.remapAtLoad
  try dsimp only
  repeat' first
    | with_reducible assumption
    | exact hR.sub
    | with_reducible apply rel_ite
    | with_reducible refine hR.wr _ _ _ (by decide +kernel) (by first | decide +kernel | exact hasFld_self _ _ | exact hasFld_all _ | (simp [hasFld]; done) ) ?_
    | with_reducible apply State.remapDone_keeps
    | dsimp only
    | intro _ _
    | intro _
    | contradiction
    | (unfold id)
    | split
    | (rename_i hh; injection hh with hh; subst hh)
    | (rename_i hh; split at hh)

def opPartsCfgEnter : List Part := [.regs, .stewards, .health, .govs, .sec, .fab, .cfg]
def opFieldsCfgEnter : FSet :=
  ⟨[.CFG_STATUS_FRAMES, .MGMT_HEALTH_STAGE, .MGMT_HEALTH_ZERO, .SEC_COLMAP_ACTIVE, .SEC_CTL_RESET, .SEC_STATUS_ISOLATED,
    .SEC_STATUS_PENDING_REMAP, .SEC_STATUS_PERMIT_WAIT, .SEC_STATUS_RESET_HELD, .SEC_STATUS_STATE], [.sec], [], false⟩

theorem State.cfgEnter_keeps {R : State → Prop} (hR : Keeps opPartsCfgEnter opFieldsCfgEnter R) (s : State)
    (hI : R s) : R (State.cfgEnter s) := by
  unfold State.cfgEnter
  try dsimp only
  repeat' first
    | with_reducible assumption
    | exact hR.sub
    | with_reducible apply rel_ite
    | with_reducible refine hR.wr _ _ _ (by decide +kernel) (by first | decide +kernel | exact hasFld_self _ _ | exact hasFld_all _ | (simp [hasFld]; done) ) ?_
    | with_reducible apply State.cfgBlank_keeps
    | with_reducible apply State.cfgEach_keeps
    | with_reducible apply State.remapAtLoad_keeps
    | with_reducible apply State.sectorReset_keeps
    | (with_reducible apply rel_foldl; intro _ _ _)
    | (with_reducible apply rel_foldl2; intro _ _ _)
    | (with_reducible apply rel_foldl3; intro _ _ _)
    | (with_reducible apply rel_foldl1; intro _ _ _)
    | dsimp only
    | intro _ _
    | intro _
    | contradiction
    | (unfold id)
    | split
    | (rename_i hh; injection hh with hh; subst hh)
    | (rename_i hh; split at hh)

theorem State.cfgVoid_keeps {R : State → Prop} (hR : Keeps [.regs, .govs, .sec, .fab, .cfg] ⟨[.SEC_CTL_RESET, .SEC_STATUS_ISOLATED, .SEC_STATUS_PERMIT_WAIT, .SEC_STATUS_RESET_HELD, .SEC_STATUS_STATE], [.sec], [], false⟩ R) (s : State)
    (hI : R s) : R (State.cfgVoid s) := by
  unfold State.cfgVoid
  try dsimp only
  repeat' first
    | with_reducible assumption
    | exact hR.sub
    | with_reducible apply rel_ite
    | with_reducible refine hR.wr _ _ _ (by decide +kernel) (by first | decide +kernel | exact hasFld_self _ _ | exact hasFld_all _ | (simp [hasFld]; done) ) ?_
    | with_reducible apply State.cfgBlank_keeps
    | with_reducible apply State.cfgEach_keeps
    | with_reducible apply State.sectorReset_keeps
    | dsimp only
    | intro _ _
    | intro _
    | contradiction
    | (unfold id)
    | split
    | (rename_i hh; injection hh with hh; subst hh)
    | (rename_i hh; split at hh)

theorem State.cfgClose_keeps {R : State → Prop} (hR : Keeps [.regs, .stewards, .govs, .qps, .cfgWait, .cfgLoad] ⟨[.BOOT_STAT_CFG, .BOOT_STAT_CFG_STATUS, .HIF_QP_DONE_CNT_COUNT, .HIF_QP_STAT_STATE], [], [], false⟩ R) (s : State) (status detail bytes : Nat)
    (hI : R s) : R (State.cfgClose s status detail bytes) := by
  unfold State.cfgClose
  try dsimp only
  repeat' first
    | with_reducible assumption
    | exact hR.sub
    | exact fun h => memWf_memStore h
    | exact fun h => memWf_memPut h
    | exact fun h => memWf_filter _ h
    | exact fun _ => rfl
    | with_reducible apply rel_ite
    | with_reducible refine hR.wr _ _ _ (by decide +kernel) (by first | decide +kernel | exact hasFld_self _ _ | exact hasFld_all _ | (simp [hasFld]; done) ) ?_
    | with_reducible apply State.giveBack_keeps
    | with_reducible apply State.jobDone_keeps
    | with_reducible apply State.raise_keeps
    | fail_if_no_progress (with_reducible apply hR.upd; all_goals try first | with_reducible exact .inr rfl | exact .inl (by decide +kernel) | exact id)
    | dsimp only
    | intro _ _
    | intro _
    | contradiction
    | (unfold id)
    | split
    | (rename_i hh; injection hh with hh; subst hh)
    | (rename_i hh; split at hh)

def opPartsCfgFail : List Part := [.regs, .stewards, .govs, .sec, .fab, .qps, .cfgWait, .cfgLoad, .cfg]
def opFieldsCfgFail : FSet :=
  ⟨[.BOOT_STAT_CFG, .BOOT_STAT_CFG_STATUS, .HIF_QP_DONE_CNT_COUNT, .HIF_QP_STAT_STATE, .SEC_CTL_RESET,
    .SEC_STATUS_ISOLATED, .SEC_STATUS_PERMIT_WAIT, .SEC_STATUS_RESET_HELD, .SEC_STATUS_STATE], [.sec], [], false⟩

theorem State.cfgFail_keeps {R : State → Prop} (hR : Keeps opPartsCfgFail opFieldsCfgFail R) (s : State) (status detail : Nat)
    (hI : R s) : R (State.cfgFail s status detail) := by
  unfold State.cfgFail
  try dsimp only
  repeat' first
    | with_reducible assumption
    | exact hR.sub
    | with_reducible apply rel_ite
    | with_reducible apply State.cfgClose_keeps
    | with_reducible apply State.cfgVoid_keeps
    | dsimp only
    | intro _ _
    | intro _
    | contradiction
    | (unfold id)
    | split
    | (rename_i hh; injection hh with hh; subst hh)
    | (rename_i hh; split at hh)

theorem State.cfgErr_keeps {R : State → Prop} (hR : Keeps [.regs, .stewards] ⟨[.CFG_ERR_CODE, .CFG_ERR_FAR_FAR, .CFG_ERR_SECTOR, .CFG_ERR_VALID], [], [], false⟩ R) (s : State) (n code sec far : Nat)
    (hI : R s) : R (State.cfgErr s n code sec far) := by
  unfold State.cfgErr
  try dsimp only
  repeat' first
    | with_reducible assumption
    | exact hR.sub
    | with_reducible apply rel_ite
    | with_reducible refine hR.wr _ _ _ (by decide +kernel) (by first | decide +kernel | exact hasFld_self _ _ | exact hasFld_all _ | (simp [hasFld]; done) ) ?_
    | with_reducible apply State.raise_keeps
    | dsimp only
    | intro _ _
    | intro _
    | contradiction
    | (unfold id)
    | split
    | (rename_i hh; injection hh with hh; subst hh)
    | (rename_i hh; split at hh)

def opPartsCfgRefuse : List Part := [.regs, .stewards, .govs, .sec, .fab, .qps, .cfgWait, .cfgLoad, .cfg]
def opFieldsCfgRefuse : FSet :=
  ⟨[.BOOT_STAT_CFG, .BOOT_STAT_CFG_STATUS, .CFG_ERR_CODE, .CFG_ERR_FAR_FAR, .CFG_ERR_SECTOR, .CFG_ERR_VALID,
    .HIF_QP_DONE_CNT_COUNT, .HIF_QP_STAT_STATE, .SEC_CTL_RESET, .SEC_STATUS_ISOLATED, .SEC_STATUS_PERMIT_WAIT,
    .SEC_STATUS_RESET_HELD, .SEC_STATUS_STATE], [.sec], [], false⟩

theorem State.cfgRefuse_keeps {R : State → Prop} (hR : Keeps opPartsCfgRefuse opFieldsCfgRefuse R) (s : State) (n code sec far : Nat)
    (hI : R s) : R (State.cfgRefuse s n code sec far) := by
  unfold State.cfgRefuse
  try dsimp only
  repeat' first
    | with_reducible assumption
    | exact hR.sub
    | with_reducible apply rel_ite
    | with_reducible apply State.cfgErr_keeps
    | with_reducible apply State.cfgFail_keeps
    | dsimp only
    | intro _ _
    | intro _
    | contradiction
    | (unfold id)
    | split
    | (rename_i hh; injection hh with hh; subst hh)
    | (rename_i hh; split at hh)

def opFieldsCfgTimeouts : FSet :=
  ⟨[.BOOT_STAT_CFG, .BOOT_STAT_CFG_STATUS, .CFG_ERR_CODE, .CFG_ERR_FAR_FAR, .CFG_ERR_SECTOR, .CFG_ERR_VALID,
    .HIF_QP_DONE_CNT_COUNT, .HIF_QP_STAT_STATE, .SEC_CTL_RESET, .SEC_STATUS_PERMIT_WAIT], [], [], false⟩

theorem State.cfgTimeouts_keeps {R : State → Prop} (hR : Keeps [.regs, .stewards, .govs, .qps, .cfgWait, .cfgLoad] opFieldsCfgTimeouts R) (s : State)
    (hI : R s) : R (State.cfgTimeouts s) := by
  unfold State.cfgTimeouts
  try dsimp only
  repeat' first
    | with_reducible assumption
    | exact hR.sub
    | with_reducible apply rel_ite
    | with_reducible refine hR.wr _ _ _ (by decide +kernel) (by first | decide +kernel | exact hasFld_self _ _ | exact hasFld_all _ | (simp [hasFld]; done) ) ?_
    | with_reducible apply State.cfgClose_keeps
    | with_reducible apply State.cfgEach_keeps
    | with_reducible apply State.cfgErr_keeps
    | with_reducible apply State.giveBack_keeps
    | with_reducible apply State.raise_keeps
    | (with_reducible apply rel_foldl; intro _ _ _)
    | (with_reducible apply rel_foldl2; intro _ _ _)
    | (with_reducible apply rel_foldl3; intro _ _ _)
    | (with_reducible apply rel_foldl1; intro _ _ _)
    | dsimp only
    | intro _ _
    | intro _
    | contradiction
    | (unfold id)
    | split
    | (rename_i hh; injection hh with hh; subst hh)
    | (rename_i hh; split at hh)

def opPartsCfgProceed : List Part := [.regs, .stewards, .health, .govs, .sec, .fab, .cfgLoad, .cfg]
def opFieldsCfgProceed : FSet :=
  ⟨[.CFG_STATUS_FRAMES, .MGMT_HEALTH_STAGE, .MGMT_HEALTH_ZERO, .SEC_COLMAP_ACTIVE, .SEC_CTL_RESET, .SEC_STATUS_ISOLATED,
    .SEC_STATUS_PENDING_REMAP, .SEC_STATUS_PERMIT_WAIT, .SEC_STATUS_RESET_HELD, .SEC_STATUS_STATE], [.sec], [], false⟩

theorem State.cfgProceed_keeps {R : State → Prop} (hR : Keeps opPartsCfgProceed opFieldsCfgProceed R) (s : State)
    (hI : R s) : R (State.cfgProceed s) := by
  unfold State.cfgProceed
  try dsimp only
  repeat' first
    | with_reducible assumption
    | exact hR.sub
    | exact fun h => memWf_memStore h
    | exact fun h => memWf_memPut h
    | exact fun h => memWf_filter _ h
    | exact fun _ => rfl
    | with_reducible apply rel_ite
    | with_reducible apply State.cfgEnter_keeps
    | fail_if_no_progress (with_reducible apply hR.upd; all_goals try first | with_reducible exact .inr rfl | exact .inl (by decide +kernel) | exact id)
    | dsimp only
    | intro _ _
    | intro _
    | contradiction
    | (unfold id)
    | split
    | (rename_i hh; injection hh with hh; subst hh)
    | (rename_i hh; split at hh)

def opPartsCfgDecrypt : List Part :=
  [.now, .local_, .regs, .stewards, .health, .govs, .sec, .fab, .cfgLoad, .cfg, .spinePull]
def opFieldsCfgDecrypt : FSet :=
  ⟨[.CFG_STATUS_FRAMES, .MGMT_HEALTH_STAGE, .MGMT_HEALTH_ZERO, .PG_ERR_OP, .PG_ERR_OVERSIZE, .PG_ERR_UNITS,
    .PG_ERR_VALID, .PG_GRANT_CNT_COUNT, .PG_TO_CNT_COUNT, .SEC_COLMAP_ACTIVE, .SEC_CTL_RESET, .SEC_STATUS_ISOLATED,
    .SEC_STATUS_PENDING_REMAP, .SEC_STATUS_PERMIT_WAIT, .SEC_STATUS_RESET_HELD, .SEC_STATUS_STATE], [.sec], [], false⟩

theorem State.cfgDecrypt_keeps {R : State → Prop} (hR : Keeps opPartsCfgDecrypt opFieldsCfgDecrypt R) (s : State)
    (hI : R s) : R (State.cfgDecrypt s) := by
  unfold State.cfgDecrypt
  try dsimp only
  repeat' first
    | with_reducible assumption
    | exact hR.sub
    | exact fun h => memWf_memStore h
    | exact fun h => memWf_memPut h
    | exact fun h => memWf_filter _ h
    | exact fun _ => rfl
    | with_reducible apply rel_ite
    | with_reducible apply State.cfgProceed_keeps
    | (refine State.takeGrant_keeps hR.sub _ _ _ _ ?_ (by assumption))
    | fail_if_no_progress (with_reducible apply hR.upd; all_goals try first | with_reducible exact .inr rfl | exact .inl (by decide +kernel) | exact id)
    | dsimp only
    | intro _ _
    | intro _
    | contradiction
    | (unfold id)
    | split
    | (rename_i hh; injection hh with hh; subst hh)
    | (rename_i hh; split at hh)

def opPartsCfgBegin : List Part := [.regs, .stewards, .health, .govs, .sec, .fab, .qps, .cfgWait, .cfgLoad, .cfg]
def opFieldsCfgBegin : FSet :=
  ⟨[.BOOT_STAT_CFG, .BOOT_STAT_CFG_STATUS, .CFG_ERR_CODE, .CFG_ERR_FAR_FAR, .CFG_ERR_SECTOR, .CFG_ERR_VALID,
    .CFG_STATUS_FRAMES, .HIF_QP_DONE_CNT_COUNT, .HIF_QP_STAT_STATE, .LS_ERR_CODE, .LS_ERR_SOURCE, .LS_ERR_VALID,
    .LS_VER_CNT_COUNT, .MGMT_HEALTH_STAGE, .MGMT_HEALTH_ZERO, .PG_ERR_OP, .PG_ERR_OVERSIZE, .PG_ERR_UNITS,
    .PG_ERR_VALID, .PG_TO_CNT_COUNT, .SEC_COLMAP_ACTIVE, .SEC_CTL_RESET, .SEC_STATUS_ISOLATED,
    .SEC_STATUS_PENDING_REMAP, .SEC_STATUS_PERMIT_WAIT, .SEC_STATUS_RESET_HELD, .SEC_STATUS_STATE], [.sec], [], false⟩

theorem State.cfgBegin_keeps {R : State → Prop} (hR : Keeps opPartsCfgBegin opFieldsCfgBegin R) (s : State) (owner : Option (Nat × Nat)) (release : Bool) (len at_ : Nat) (hdr : Option Nat) (unwrap : Bool)
    (hI : R s) : R (State.cfgBegin s owner release len at_ hdr unwrap) := by
  unfold State.cfgBegin
  try dsimp only
  repeat' first
    | with_reducible assumption
    | exact hR.sub
    | exact fun h => memWf_memStore h
    | exact fun h => memWf_memPut h
    | exact fun h => memWf_filter _ h
    | exact fun _ => rfl
    | with_reducible apply rel_ite
    | with_reducible apply State.cfgClose_keeps
    | with_reducible apply State.cfgProceed_keeps
    | with_reducible apply State.cfgTimeouts_keeps
    | with_reducible apply State.imageBad_keeps
    | with_reducible apply State.request_keeps
    | fail_if_no_progress (with_reducible apply hR.upd; all_goals try first | with_reducible exact .inr rfl | exact .inl (by decide +kernel) | exact id)
    | dsimp only
    | intro _ _
    | intro _
    | contradiction
    | (unfold id)
    | split
    | (rename_i hh; injection hh with hh; subst hh)
    | (rename_i hh; split at hh)

theorem execCfgRecord_keeps {R : State → Prop} (hR : Keeps partsCfgRecord fieldsCfgRecord R) (rec_ : Option (BitVec 8256)) (s : State)
    (hI : R s) {tT : State} (eE : execCfgRecord rec_ s = .next tT) : R tT := by
  unfold execCfgRecord at eE
  try dsimp only at eE
  repeat' split at eE
  all_goals try (injection eE with eE; subst eE)
  all_goals repeat' first
    | with_reducible assumption
    | exact hR.sub
    | exact fun h => memWf_memStore h
    | exact fun h => memWf_memPut h
    | exact fun h => memWf_filter _ h
    | exact fun _ => rfl
    | with_reducible apply rel_ite
    | with_reducible apply State.cfgDecrypt_keeps
    | with_reducible apply State.cfgFail_keeps
    | with_reducible apply State.cfgProceed_keeps
    | with_reducible apply State.cfgRefuse_keeps
    | with_reducible apply State.dirNext_keeps
    | with_reducible apply State.flashMessage_keeps
    | with_reducible apply State.message_keeps
    | with_reducible apply State.packageReset_keeps
    | with_reducible apply State.powerOn_keeps
    | with_reducible apply State.reach_keeps
    | fail_if_no_progress (with_reducible apply hR.upd; all_goals try first | with_reducible exact .inr rfl | exact .inl (by decide +kernel) | exact id)
    | dsimp only
    | intro _ _
    | intro _
    | contradiction
    | (unfold id)
    | split
    | (rename_i hh; injection hh with hh; subst hh)
    | (rename_i hh; split at hh)

theorem State.operItems_keeps {R : State → Prop} (hR : Keeps [.fab] ⟨[], [], [], false⟩ R) (s : State) (n a : Nat) (items : List CfgItem)
    (hI : R s) : R (State.operItems s n a items) := by
  unfold State.operItems
  try dsimp only
  repeat' first
    | with_reducible assumption
    | exact hR.sub
    | exact fun h => memWf_memStore h
    | exact fun h => memWf_memPut h
    | exact fun h => memWf_filter _ h
    | exact fun _ => rfl
    | (intro b hb; exact fabWf_of hb (fun h => by (try dsimp only); first | with_reducible exact h | exact smWf_ramFill _ _ _ _ h | exact smWf_smPut (dflt := fun _ => 0) h | exact smWf_filter _ h) (fun h => by first | exact h | exact smWf_smPut (dflt := fun _ => 0) h | exact smWf_filter _ h))
    | with_reducible apply rel_ite
    | with_reducible apply State.onFab_keeps
    | (with_reducible apply rel_foldl; intro _ _ _)
    | (with_reducible apply rel_foldl2; intro _ _ _)
    | (with_reducible apply rel_foldl3; intro _ _ _)
    | (with_reducible apply rel_foldl1; intro _ _ _)
    | fail_if_no_progress (with_reducible apply hR.upd; all_goals try first | with_reducible exact .inr rfl | exact .inl (by decide +kernel) | exact id)
    | dsimp only
    | intro _ _
    | intro _
    | contradiction
    | (unfold id)
    | split
    | (rename_i hh; injection hh with hh; subst hh)
    | (rename_i hh; split at hh)

theorem State.frameDesign_keeps {R : State → Prop} (hR : Keeps [.fab] ⟨[], [], [], false⟩ R) (s : State) (n a data : Nat) (items : List CfgItem)
    (hI : R s) : R (State.frameDesign s n a data items) := by
  unfold State.frameDesign
  try dsimp only
  repeat' first
    | with_reducible assumption
    | exact hR.sub
    | with_reducible apply rel_ite
    | with_reducible apply State.design_keeps
    | with_reducible apply State.operItems_keeps
    | with_reducible apply State.ramFrame_keeps
    | dsimp only
    | intro _ _
    | intro _
    | contradiction
    | (unfold id)
    | split
    | (rename_i hh; injection hh with hh; subst hh)
    | (rename_i hh; split at hh)

theorem State.frameStore_keeps {R : State → Prop} (hR : Keeps [.regs, .sec, .fab, .cfgLoad, .cfg] ⟨[.CFG_STATUS_FRAMES], [], [], false⟩ R) (s : State) (n r : Nat) (items : List CfgItem)
    (hI : R s) : R (State.frameStore s n r items) := by
  unfold State.frameStore
  try dsimp only
  repeat' first
    | with_reducible assumption
    | exact hR.sub
    | exact fun h => memWf_memStore h
    | exact fun h => memWf_memPut h
    | exact fun h => memWf_filter _ h
    | exact fun _ => rfl
    | with_reducible apply rel_ite
    | with_reducible refine hR.wr _ _ _ (by decide +kernel) (by first | decide +kernel | exact hasFld_self _ _ | exact hasFld_all _ | (simp [hasFld]; done) ) ?_
    | with_reducible apply State.frameDesign_keeps
    | with_reducible apply State.setSector_keeps
    | fail_if_no_progress (with_reducible apply hR.upd; all_goals try first | with_reducible exact .inr rfl | exact .inl (by decide +kernel) | exact id)
    | dsimp only
    | intro _ _
    | intro _
    | contradiction
    | (unfold id)
    | split
    | (rename_i hh; injection hh with hh; subst hh)
    | (rename_i hh; split at hh)

theorem execCfgFrame_keeps {R : State → Prop} (hR : Keeps partsCfgFrame fieldsCfgFrame R) (d : Fin 8) (fails : Fin 5) (items : List CfgItem) (s : State)
    (hI : R s) {tT : State} (eE : execCfgFrame d fails items s = .next tT) : R tT := by
  unfold execCfgFrame at eE
  try dsimp only at eE
  repeat' split at eE
  all_goals try (injection eE with eE; subst eE)
  all_goals repeat' first
    | with_reducible assumption
    | exact hR.sub
    | exact fun h => memWf_memStore h
    | exact fun h => memWf_memPut h
    | exact fun h => memWf_filter _ h
    | exact fun _ => rfl
    | with_reducible apply rel_ite
    | with_reducible apply State.cfgRefuse_keeps
    | with_reducible apply State.columnDefect_keeps
    | with_reducible apply State.dirNext_keeps
    | with_reducible apply State.flashMessage_keeps
    | with_reducible apply State.frameStore_keeps
    | with_reducible apply State.message_keeps
    | with_reducible apply State.packageReset_keeps
    | with_reducible apply State.powerOn_keeps
    | with_reducible apply State.reach_keeps
    | fail_if_no_progress (with_reducible apply hR.upd; all_goals try first | with_reducible exact .inr rfl | exact .inl (by decide +kernel) | exact id)
    | dsimp only
    | intro _ _
    | intro _
    | contradiction
    | (unfold id)
    | split
    | (rename_i hh; injection hh with hh; subst hh)
    | (rename_i hh; split at hh)

def opPartsCfgGood : List Part := [.regs, .stewards, .govs, .qps, .cfgWait, .cfgLoad, .cfgMeas]

theorem State.cfgGood_keeps {R : State → Prop} (hR : Keeps opPartsCfgGood ⟨[.BOOT_STAT_CFG, .BOOT_STAT_CFG_STATUS, .HIF_QP_DONE_CNT_COUNT, .HIF_QP_STAT_STATE, .LS_SVN_SVN], [], [], false⟩ R) (s : State)
    (hI : R s) : R (State.cfgGood s) := by
  unfold State.cfgGood
  try dsimp only
  repeat' first
    | with_reducible assumption
    | exact hR.sub
    | exact fun h => memWf_memStore h
    | exact fun h => memWf_memPut h
    | exact fun h => memWf_filter _ h
    | exact fun _ => rfl
    | with_reducible apply rel_ite
    | with_reducible refine hR.wr _ _ _ (by decide +kernel) (by first | decide +kernel | exact hasFld_self _ _ | exact hasFld_all _ | (simp [hasFld]; done) ) ?_
    | with_reducible apply State.cfgClose_keeps
    | fail_if_no_progress (with_reducible apply hR.upd; all_goals try first | with_reducible exact .inr rfl | exact .inl (by decide +kernel) | exact id)
    | dsimp only
    | intro _ _
    | intro _
    | contradiction
    | (unfold id)
    | split
    | (rename_i hh; injection hh with hh; subst hh)
    | (rename_i hh; split at hh)

theorem execImageVerifyEnd_keeps {R : State → Prop} (hR : Keeps partsImageVerifyEnd fieldsImageVerifyEnd R) (sigOk tagOk : Bool) (s : State)
    (hI : R s) {tT : State} (eE : execImageVerifyEnd sigOk tagOk s = .next tT) : R tT := by
  unfold execImageVerifyEnd at eE
  try dsimp only at eE
  repeat' split at eE
  all_goals try (injection eE with eE; subst eE)
  all_goals repeat' first
    | with_reducible assumption
    | exact hR.sub
    | exact fun h => memWf_memStore h
    | exact fun h => memWf_memPut h
    | exact fun h => memWf_filter _ h
    | exact fun _ => rfl
    | with_reducible apply rel_ite
    | with_reducible refine hR.wr _ _ _ (by decide +kernel) (by first | decide +kernel | exact hasFld_self _ _ | exact hasFld_all _ | (simp [hasFld]; done) ) ?_
    | with_reducible apply State.cfgEach_keeps
    | with_reducible apply State.cfgFail_keeps
    | with_reducible apply State.cfgGood_keeps
    | with_reducible apply State.cfgRefuse_keeps
    | with_reducible apply State.cfgTimeouts_keeps
    | with_reducible apply State.dirNext_keeps
    | with_reducible apply State.flashMessage_keeps
    | with_reducible apply State.imageBad_keeps
    | with_reducible apply State.message_keeps
    | with_reducible apply State.packageReset_keeps
    | with_reducible apply State.powerOn_keeps
    | with_reducible apply State.reach_keeps
    | with_reducible apply State.request_keeps
    | with_reducible apply State.setSector_keeps
    | fail_if_no_progress (with_reducible apply hR.upd; all_goals try first | with_reducible exact .inr rfl | exact .inl (by decide +kernel) | exact id)
    | dsimp only
    | intro _ _
    | intro _
    | contradiction
    | (unfold id)
    | split
    | (rename_i hh; injection hh with hh; subst hh)
    | (rename_i hh; split at hh)

theorem State.cfgDrive_keeps {R : State → Prop} (hR : Keeps [.now, .local_, .regs, .stewards, .govs, .spinePull] ⟨[.PG_ERR_OP, .PG_ERR_OVERSIZE, .PG_ERR_UNITS, .PG_ERR_VALID, .PG_GRANT_CNT_COUNT, .PG_TO_CNT_COUNT], [], [], false⟩ R) (s : State) (n : Nat)
    (hI : R s) : R (State.cfgDrive s n) := by
  induction n generalizing s with
  | zero => exact hI
  | succ n ih =>
  unfold State.cfgDrive
  try dsimp only
  repeat' first
    | with_reducible assumption
    | (with_reducible apply ih)
    | exact hR.sub
    | exact fun h => memWf_memStore h
    | exact fun h => memWf_memPut h
    | exact fun h => memWf_filter _ h
    | exact fun _ => rfl
    | with_reducible apply rel_ite
    | with_reducible apply State.grantHead_keeps
    | fail_if_no_progress (with_reducible apply hR.upd; all_goals try first | with_reducible exact .inr rfl | exact .inl (by decide +kernel) | exact id)
    | dsimp only
    | intro _ _
    | intro _
    | contradiction
    | (unfold id)
    | split
    | (rename_i hh; injection hh with hh; subst hh)
    | (rename_i hh; split at hh)

theorem execCfgReleaseInstant_keeps {R : State → Prop} (hR : Keeps partsCfgReleaseInstant fieldsCfgReleaseInstant R) (lead edge : Nat) (s : State)
    (hI : R s) {tT : State} (eE : execCfgReleaseInstant lead edge s = .next tT) : R tT := by
  unfold execCfgReleaseInstant at eE
  try dsimp only at eE
  repeat' split at eE
  all_goals try (injection eE with eE; subst eE)
  all_goals repeat' first
    | with_reducible assumption
    | exact hR.sub
    | exact fun h => memWf_memStore h
    | exact fun h => memWf_memPut h
    | exact fun h => memWf_filter _ h
    | exact fun _ => rfl
    | with_reducible apply rel_ite
    | with_reducible refine hR.wr _ _ _ (by decide +kernel) (by first | decide +kernel | exact hasFld_self _ _ | exact hasFld_all _ | (simp [hasFld]; done) ) ?_
    | with_reducible apply State.cfgDrive_keeps
    | with_reducible apply State.cfgEach_keeps
    | with_reducible apply State.cfgGood_keeps
    | with_reducible apply State.dirNext_keeps
    | with_reducible apply State.flashMessage_keeps
    | with_reducible apply State.lapse_keeps
    | with_reducible apply State.message_keeps
    | with_reducible apply State.packageReset_keeps
    | with_reducible apply State.powerOn_keeps
    | with_reducible apply State.reach_keeps
    | with_reducible apply State.sectorRun_keeps
    | (refine State.takeGrant_keeps hR.sub _ _ _ _ ?_ (by assumption))
    | fail_if_no_progress (with_reducible apply hR.upd; all_goals try first | with_reducible exact .inr rfl | exact .inl (by decide +kernel) | exact id)
    | dsimp only
    | intro _ _
    | intro _
    | contradiction
    | (unfold id)
    | split
    | (rename_i hh; injection hh with hh; subst hh)
    | (rename_i hh; split at hh)

def opPartsCfgDieLeft : List Part := [.regs, .stewards, .govs, .sec, .fab, .qps, .cfgWait, .cfgLoad, .cfg]
def opFieldsCfgDieLeft : FSet :=
  ⟨[.BOOT_STAT_CFG, .BOOT_STAT_CFG_STATUS, .HIF_QP_DONE_CNT_COUNT, .HIF_QP_STAT_STATE, .SEC_CTL_RESET,
    .SEC_STATUS_ISOLATED, .SEC_STATUS_PERMIT_WAIT, .SEC_STATUS_RESET_HELD, .SEC_STATUS_STATE], [.sec], [], false⟩

theorem State.cfgDieLeft_keeps {R : State → Prop} (hR : Keeps opPartsCfgDieLeft opFieldsCfgDieLeft R) (s : State) (n : Nat)
    (hI : R s) : R (State.cfgDieLeft s n) := by
  unfold State.cfgDieLeft
  try dsimp only
  repeat' first
    | with_reducible assumption
    | exact hR.sub
    | with_reducible apply rel_ite
    | with_reducible apply State.cfgClose_keeps
    | with_reducible apply State.cfgVoid_keeps
    | with_reducible apply State.giveBack_keeps
    | (with_reducible apply rel_foldl; intro _ _ _)
    | (with_reducible apply rel_foldl2; intro _ _ _)
    | (with_reducible apply rel_foldl3; intro _ _ _)
    | (with_reducible apply rel_foldl1; intro _ _ _)
    | dsimp only
    | intro _ _
    | intro _
    | contradiction
    | (unfold id)
    | split
    | (rename_i hh; injection hh with hh; subst hh)
    | (rename_i hh; split at hh)

def opPartsCfgOrphan : List Part := [.regs, .stewards, .govs, .sec, .fab, .qps, .cfgWait, .cfgLoad, .cfg]
def opFieldsCfgOrphan : FSet :=
  ⟨[.BOOT_STAT_CFG, .BOOT_STAT_CFG_STATUS, .HIF_QP_DONE_CNT_COUNT, .HIF_QP_STAT_STATE, .SEC_CTL_RESET,
    .SEC_STATUS_ISOLATED, .SEC_STATUS_PERMIT_WAIT, .SEC_STATUS_RESET_HELD, .SEC_STATUS_STATE], [.sec], [], false⟩

theorem State.cfgOrphan_keeps {R : State → Prop} (hR : Keeps opPartsCfgOrphan opFieldsCfgOrphan R) (s : State) (f : Nat)
    (hI : R s) : R (State.cfgOrphan s f) := by
  unfold State.cfgOrphan
  try dsimp only
  repeat' first
    | with_reducible assumption
    | exact hR.sub
    | exact fun h => memWf_memStore h
    | exact fun h => memWf_memPut h
    | exact fun h => memWf_filter _ h
    | exact fun _ => rfl
    | with_reducible apply rel_ite
    | with_reducible apply State.cfgFail_keeps
    | fail_if_no_progress (with_reducible apply hR.upd; all_goals try first | with_reducible exact .inr rfl | exact .inl (by decide +kernel) | exact id)
    | dsimp only
    | intro _ _
    | intro _
    | contradiction
    | (unfold id)
    | split
    | (rename_i hh; injection hh with hh; subst hh)
    | (rename_i hh; split at hh)

end Sys2Proof.Machine
end

