-- ==== Sys2Proof/Laws/KeepsSweeps.lean ====
section
/-! SUPPORT. What the operations of `Machine/Sweeps.lean` may change and what they keep. -/

namespace Sys2Proof.Machine

set_option Elab.async false
set_option linter.all false

theorem State.setSeal_keeps {R : State → Prop} (hR : Keeps [.regs, .seals] ⟨[.SEAL_STAT_KIND, .SEAL_STAT_PERMIT_WAIT, .SEAL_STAT_QUEUE, .SEAL_STAT_RANGE], [], [], false⟩ R) (s : State) (st : Nat) (x : SealRt)
    (hI : R s) : R (State.setSeal s st x) := by
  unfold State.setSeal
  try dsimp only
  repeat' first
    | with_reducible assumption
    | exact hR.sub
    | exact fun h => memWf_memStore h
    | exact fun h => memWf_memPut h
    | exact fun h => memWf_filter _ h
    | exact fun _ => rfl
    | with_reducible apply rel_ite
    | with_reducible refine hR.wr _ _ _ (by decide +kernel) (by first | decide +kernel | exact hasFld_self _ _ | exact hasFld_all _ | (simp [hasFld]; done) ) ?_
    | (with_reducible apply rel_foldl; intro _ _ _)
    | (with_reducible apply rel_foldl2; intro _ _ _)
    | (with_reducible apply rel_foldl3; intro _ _ _)
    | (with_reducible apply rel_foldl1; intro _ _ _)
    | fail_if_no_progress (with_reducible apply hR.upd; all_goals try first | with_reducible exact .inr rfl | exact .inl (by decide +kernel) | exact id)
    | dsimp only
    | intro _ _
    | intro _
    | contradiction
    | (unfold id)
    | split
    | (rename_i hh; injection hh with hh; subst hh)
    | (rename_i hh; split at hh)

theorem State.trimHeld_keeps {R : State → Prop} (hR : Keeps [.govs] ⟨[], [], [], false⟩ R) (s : State) (g : Nat) (who : List Nat) (units : Nat)
    (hI : R s) : R (State.trimHeld s g who units) := by
  unfold State.trimHeld
  try dsimp only
  repeat' first
    | with_reducible assumption
    | exact hR.sub
    | exact fun h => memWf_memStore h
    | exact fun h => memWf_memPut h
    | exact fun h => memWf_filter _ h
    | exact fun _ => rfl
    | with_reducible apply rel_ite
    | with_reducible apply State.setGov_keeps
    | fail_if_no_progress (with_reducible apply hR.upd; all_goals try first | with_reducible exact .inr rfl | exact .inl (by decide +kernel) | exact id)
    | dsimp only
    | intro _ _
    | intro _
    | contradiction
    | (unfold id)
    | split
    | (rename_i hh; injection hh with hh; subst hh)
    | (rename_i hh; split at hh)

def opFieldsSweepPermit : FSet :=
  ⟨[.PG_ERR_OP, .PG_ERR_OVERSIZE, .PG_ERR_UNITS, .PG_ERR_VALID, .PG_TO_CNT_COUNT, .SEAL_STAT_KIND,
    .SEAL_STAT_PERMIT_WAIT, .SEAL_STAT_QUEUE, .SEAL_STAT_RANGE], [], [], false⟩

theorem State.sweepPermit_keeps {R : State → Prop} (hR : Keeps [.regs, .stewards, .govs, .seals] opFieldsSweepPermit R) (s : State) (st : Nat)
    (hI : R s) : R (State.sweepPermit s st) := by
  unfold State.sweepPermit
  try dsimp only
  repeat' first
    | with_reducible assumption
    | exact hR.sub
    | exact fun h => memWf_memStore h
    | exact fun h => memWf_memPut h
    | exact fun h => memWf_filter _ h
    | exact fun _ => rfl
    | with_reducible apply rel_ite
    | with_reducible apply State.giveBack_keeps
    | with_reducible apply State.request_keeps
    | with_reducible apply State.setSeal_keeps
    | with_reducible apply State.trimHeld_keeps
    | fail_if_no_progress (with_reducible apply hR.upd; all_goals try first | with_reducible exact .inr rfl | exact .inl (by decide +kernel) | exact id)
    | dsimp only
    | intro _ _
    | intro _
    | contradiction
    | (unfold id)
    | split
    | (rename_i hh; injection hh with hh; subst hh)
    | (rename_i hh; split at hh)

def opFieldsRepairPermit : FSet :=
  ⟨[.PG_ERR_OP, .PG_ERR_OVERSIZE, .PG_ERR_UNITS, .PG_ERR_VALID, .PG_TO_CNT_COUNT, .SEAL_STAT_KIND,
    .SEAL_STAT_PERMIT_WAIT, .SEAL_STAT_QUEUE, .SEAL_STAT_RANGE], [], [], false⟩

theorem State.repairPermit_keeps {R : State → Prop} (hR : Keeps [.regs, .stewards, .govs, .seals] opFieldsRepairPermit R) (s : State) (st : Nat)
    (hI : R s) : R (State.repairPermit s st) := by
  unfold State.repairPermit
  try dsimp only
  repeat' first
    | with_reducible assumption
    | exact hR.sub
    | exact fun h => memWf_memStore h
    | exact fun h => memWf_memPut h
    | exact fun h => memWf_filter _ h
    | exact fun _ => rfl
    | with_reducible apply rel_ite
    | with_reducible apply State.giveBack_keeps
    | with_reducible apply State.request_keeps
    | with_reducible apply State.setSeal_keeps
    | with_reducible apply State.trimHeld_keeps
    | fail_if_no_progress (with_reducible apply hR.upd; all_goals try first | with_reducible exact .inr rfl | exact .inl (by decide +kernel) | exact id)
    | dsimp only
    | intro _ _
    | intro _
    | contradiction
    | (unfold id)
    | split
    | (rename_i hh; injection hh with hh; subst hh)
    | (rename_i hh; split at hh)

def opFieldsSweepBegin : FSet :=
  ⟨[.PG_ERR_OP, .PG_ERR_OVERSIZE, .PG_ERR_UNITS, .PG_ERR_VALID, .PG_TO_CNT_COUNT, .SEAL_POS_POS, .SEAL_STAT_KIND,
    .SEAL_STAT_PERMIT_WAIT, .SEAL_STAT_QUEUE, .SEAL_STAT_RANGE], [], [], false⟩

theorem State.sweepBegin_keeps {R : State → Prop} (hR : Keeps [.regs, .stewards, .govs, .seals] opFieldsSweepBegin R) (s : State) (st : Nat) (w : Sweep)
    (hI : R s) : R (State.sweepBegin s st w) := by
  unfold State.sweepBegin
  try dsimp only
  repeat' first
    | with_reducible assumption
    | exact hR.sub
    | exact fun h => memWf_memStore h
    | exact fun h => memWf_memPut h
    | exact fun h => memWf_filter _ h
    | exact fun _ => rfl
    | with_reducible apply rel_ite
    | with_reducible refine hR.wr _ _ _ (by decide +kernel) (by first | decide +kernel | exact hasFld_self _ _ | exact hasFld_all _ | (simp [hasFld]; done) ) ?_
    | with_reducible apply State.setSeal_keeps
    | with_reducible apply State.sweepPermit_keeps
    | fail_if_no_progress (with_reducible apply hR.upd; all_goals try first | with_reducible exact .inr rfl | exact .inl (by decide +kernel) | exact id)
    | dsimp only
    | intro _ _
    | intro _
    | contradiction
    | (unfold id)
    | split
    | (rename_i hh; injection hh with hh; subst hh)
    | (rename_i hh; split at hh)

def opFieldsSweepQueue : FSet :=
  ⟨[.PG_ERR_OP, .PG_ERR_OVERSIZE, .PG_ERR_UNITS, .PG_ERR_VALID, .PG_TO_CNT_COUNT, .SEAL_POS_POS, .SEAL_STAT_KIND,
    .SEAL_STAT_PERMIT_WAIT, .SEAL_STAT_QUEUE, .SEAL_STAT_RANGE], [], [], false⟩

theorem State.sweepQueue_keeps {R : State → Prop} (hR : Keeps [.regs, .stewards, .govs, .seals] opFieldsSweepQueue R) (s : State) (st : Nat) (w : Sweep)
    (hI : R s) : R (State.sweepQueue s st w) := by
  unfold State.sweepQueue
  try dsimp only
  repeat' first
    | with_reducible assumption
    | exact hR.sub
    | exact fun h => memWf_memStore h
    | exact fun h => memWf_memPut h
    | exact fun h => memWf_filter _ h
    | exact fun _ => rfl
    | with_reducible apply rel_ite
    | with_reducible apply State.setSeal_keeps
    | with_reducible apply State.sweepBegin_keeps
    | fail_if_no_progress (with_reducible apply hR.upd; all_goals try first | with_reducible exact .inr rfl | exact .inl (by decide +kernel) | exact id)
    | dsimp only
    | intro _ _
    | intro _
    | contradiction
    | (unfold id)
    | split
    | (rename_i hh; injection hh with hh; subst hh)
    | (rename_i hh; split at hh)

def opFieldsSweepNext : FSet :=
  ⟨[.PG_ERR_OP, .PG_ERR_OVERSIZE, .PG_ERR_UNITS, .PG_ERR_VALID, .PG_TO_CNT_COUNT, .SEAL_POS_POS, .SEAL_STAT_KIND,
    .SEAL_STAT_PERMIT_WAIT, .SEAL_STAT_QUEUE, .SEAL_STAT_RANGE], [], [], false⟩

theorem State.sweepNext_keeps {R : State → Prop} (hR : Keeps [.regs, .stewards, .govs, .seals] opFieldsSweepNext R) (s : State) (st : Nat)
    (hI : R s) : R (State.sweepNext s st) := by
  unfold State.sweepNext
  try dsimp only
  repeat' first
    | with_reducible assumption
    | exact hR.sub
    | exact fun h => memWf_memStore h
    | exact fun h => memWf_memPut h
    | exact fun h => memWf_filter _ h
    | exact fun _ => rfl
    | with_reducible apply rel_ite
    | with_reducible apply State.giveBack_keeps
    | with_reducible apply State.setSeal_keeps
    | with_reducible apply State.sweepBegin_keeps
    | fail_if_no_progress (with_reducible apply hR.upd; all_goals try first | with_reducible exact .inr rfl | exact .inl (by decide +kernel) | exact id)
    | dsimp only
    | intro _ _
    | intro _
    | contradiction
    | (unfold id)
    | split
    | (rename_i hh; injection hh with hh; subst hh)
    | (rename_i hh; split at hh)

theorem State.sweepSleep_keeps {R : State → Prop} (hR : Keeps [.regs, .govs, .seals] ⟨[.SEAL_STAT_KIND, .SEAL_STAT_PERMIT_WAIT, .SEAL_STAT_QUEUE, .SEAL_STAT_RANGE], [], [], false⟩ R) (s : State) (st : Nat)
    (hI : R s) : R (State.sweepSleep s st) := by
  unfold State.sweepSleep
  try dsimp only
  repeat' first
    | with_reducible assumption
    | exact hR.sub
    | exact fun h => memWf_memStore h
    | exact fun h => memWf_memPut h
    | exact fun h => memWf_filter _ h
    | exact fun _ => rfl
    | with_reducible apply rel_ite
    | with_reducible apply State.giveBack_keeps
    | with_reducible apply State.setSeal_keeps
    | fail_if_no_progress (with_reducible apply hR.upd; all_goals try first | with_reducible exact .inr rfl | exact .inl (by decide +kernel) | exact id)
    | dsimp only
    | intro _ _
    | intro _
    | contradiction
    | (unfold id)
    | split
    | (rename_i hh; injection hh with hh; subst hh)
    | (rename_i hh; split at hh)

def opFieldsSweepWake : FSet :=
  ⟨[.PG_ERR_OP, .PG_ERR_OVERSIZE, .PG_ERR_UNITS, .PG_ERR_VALID, .PG_TO_CNT_COUNT, .SEAL_STAT_KIND,
    .SEAL_STAT_PERMIT_WAIT, .SEAL_STAT_QUEUE, .SEAL_STAT_RANGE], [], [], false⟩

theorem State.sweepWake_keeps {R : State → Prop} (hR : Keeps [.regs, .stewards, .govs, .seals] opFieldsSweepWake R) (s : State) (st : Nat)
    (hI : R s) : R (State.sweepWake s st) := by
  unfold State.sweepWake
  try dsimp only
  repeat' first
    | with_reducible assumption
    | exact hR.sub
    | with_reducible apply rel_ite
    | with_reducible apply State.repairPermit_keeps
    | with_reducible apply State.sweepPermit_keeps
    | dsimp only
    | intro _ _
    | intro _
    | contradiction
    | (unfold id)
    | split
    | (rename_i hh; injection hh with hh; subst hh)
    | (rename_i hh; split at hh)

theorem State.nodeTake_keeps {R : State → Prop} (hR : Keeps [.leafMaj, .leafMin, .innerC] ⟨[], [], [], false⟩ R) (s : State) (st r level m flips : Nat)
    (hI : R s) : R (State.nodeTake s st r level m flips) := by
  unfold State.nodeTake
  try dsimp only
  repeat' first
    | with_reducible assumption
    | exact hR.sub
    | exact fun h => memWf_memStore h
    | exact fun h => memWf_memPut h
    | exact fun h => memWf_filter _ h
    | exact fun _ => rfl
    | with_reducible apply rel_ite
    | (with_reducible apply rel_foldl; intro _ _ _)
    | (with_reducible apply rel_foldl2; intro _ _ _)
    | (with_reducible apply rel_foldl3; intro _ _ _)
    | (with_reducible apply rel_foldl1; intro _ _ _)
    | fail_if_no_progress (with_reducible apply hR.upd; all_goals try first | with_reducible exact .inr rfl | exact .inl (by decide +kernel) | exact id)
    | dsimp only
    | intro _ _
    | intro _
    | contradiction
    | (unfold id)
    | split
    | (rename_i hh; injection hh with hh; subst hh)
    | (rename_i hh; split at hh)

def opFieldsTagMismatch : FSet :=
  ⟨[.SEAL_ERR_ADDR_HI_ADDR, .SEAL_ERR_ADDR_LO_ADDR, .SEAL_ERR_CODE, .SEAL_ERR_LEVEL, .SEAL_ERR_RANGE, .SEAL_ERR_VALID,
    .SEAL_MAC_CNT_COUNT], [], [], false⟩

theorem State.tagMismatch_keeps {R : State → Prop} (hR : Keeps [.regs, .draws, .stewards, .hbm, .poison] opFieldsTagMismatch R) (s : State) (st r i : Nat) (poison : Bool)
    (hI : R s) : R (State.tagMismatch s st r i poison) := by
  unfold State.tagMismatch
  try dsimp only
  repeat' first
    | with_reducible assumption
    | exact hR.sub
    | exact hR.sub (by decide +kernel) (subFld_self _ _)
    | with_reducible apply rel_ite
    | with_reducible apply State.bump_keeps
    | with_reducible apply State.linePut_keeps
    | with_reducible apply State.raise_keeps
    | with_reducible apply State.sealErr_keeps
    | dsimp only
    | intro _ _
    | intro _
    | contradiction
    | (unfold id)
    | split
    | (rename_i hh; injection hh with hh; subst hh)
    | (rename_i hh; split at hh)

def opFieldsNodeCopyBad : FSet :=
  ⟨[.MGMT_HEALTH_STAGE, .MGMT_HEALTH_ZERO, .SEAL_ERR_ADDR_HI_ADDR, .SEAL_ERR_ADDR_LO_ADDR, .SEAL_ERR_CODE,
    .SEAL_ERR_LEVEL, .SEAL_ERR_RANGE, .SEAL_ERR_VALID, .SEAL_NODE_CNT_COUNT], [], [], false⟩

theorem State.nodeCopyBad_keeps {R : State → Prop} (hR : Keeps [.regs, .draws, .stewards, .health] opFieldsNodeCopyBad R) (s : State) (st r level node : Nat) (mirror : Bool)
    (hI : R s) : R (State.nodeCopyBad s st r level node mirror) := by
  unfold State.nodeCopyBad
  try dsimp only
  repeat' first
    | with_reducible assumption
    | exact hR.sub
    | exact hR.sub (by decide +kernel) (subFld_self _ _)
    | with_reducible apply rel_ite
    | with_reducible apply State.bump_keeps
    | with_reducible apply State.notice_keeps
    | with_reducible apply State.sealErr_keeps
    | dsimp only
    | intro _ _
    | intro _
    | contradiction
    | (unfold id)
    | split
    | (rename_i hh; injection hh with hh; subst hh)
    | (rename_i hh; split at hh)

def opPartsNodeFetch : List Part := [.regs, .draws, .stewards, .health, .leafMaj, .leafMin, .innerC]
def opFieldsNodeFetch : FSet :=
  ⟨[.MGMT_HEALTH_STAGE, .MGMT_HEALTH_ZERO, .SEAL_ERR_ADDR_HI_ADDR, .SEAL_ERR_ADDR_LO_ADDR, .SEAL_ERR_CODE,
    .SEAL_ERR_LEVEL, .SEAL_ERR_RANGE, .SEAL_ERR_VALID, .SEAL_NODE_CNT_COUNT], [], [], false⟩

theorem State.nodeFetch_keeps {R : State → Prop} (hR : Keeps opPartsNodeFetch opFieldsNodeFetch R) (s : State) (st r level node : Nat) (mirror : Bool) (flips : Nat)
    (hI : R s) : R (State.nodeFetch s st r level node mirror flips) := by
  unfold State.nodeFetch
  try dsimp only
  repeat' first
    | with_reducible assumption
    | exact hR.sub
    | with_reducible apply rel_ite
    | with_reducible apply State.nodeCopyBad_keeps
    | with_reducible apply State.nodeTake_keeps
    | dsimp only
    | intro _ _
    | intro _
    | contradiction
    | (unfold id)
    | split
    | (rename_i hh; injection hh with hh; subst hh)
    | (rename_i hh; split at hh)

def opFieldsLeafStore : FSet :=
  ⟨[.SEAL_ERR_ADDR_HI_ADDR, .SEAL_ERR_ADDR_LO_ADDR, .SEAL_ERR_CODE, .SEAL_ERR_LEVEL, .SEAL_ERR_RANGE, .SEAL_ERR_VALID,
    .SEAL_MAC_CNT_COUNT], [], [], false⟩

theorem State.leafStore_keeps {R : State → Prop} (hR : Keeps [.regs, .draws, .stewards, .hbm, .poison] opFieldsLeafStore R) (s : State) (st r : Nat) (got : List (Nat × Option Nat))
    (hI : R s) : R (State.leafStore s st r got) := by
  unfold State.leafStore
  try dsimp only
  repeat' first
    | with_reducible assumption
    | exact hR.sub
    | exact fun h => memWf_memStore h
    | exact fun h => memWf_memPut h
    | exact fun h => memWf_filter _ h
    | exact fun _ => rfl
    | with_reducible apply rel_ite
    | with_reducible apply State.linePut_keeps
    | with_reducible apply State.tagMismatch_keeps
    | (with_reducible apply rel_foldl; intro _ _ _)
    | (with_reducible apply rel_foldl2; intro _ _ _)
    | (with_reducible apply rel_foldl3; intro _ _ _)
    | (with_reducible apply rel_foldl1; intro _ _ _)
    | fail_if_no_progress (with_reducible apply hR.upd; all_goals try first | with_reducible exact .inr rfl | exact .inl (by decide +kernel) | exact id)
    | dsimp only
    | intro _ _
    | intro _
    | contradiction
    | (unfold id)
    | split
    | (rename_i hh; injection hh with hh; subst hh)
    | (rename_i hh; split at hh)

end Sys2Proof.Machine
end

