-- ==== Sys2Proof/Laws/KeepsEngines.lean ====
section
/-! SUPPORT. What the operations of `Machine/Engines.lean` may change and what they keep. -/

namespace Sys2Proof.Machine

set_option Elab.async false
set_option linter.all false

theorem State.setEngine_keeps {R : State → Prop} (hR : Keeps [.eng] ⟨[], [], [], false⟩ R) (s : State) (e : Nat) (r : EngRt)
    (hI : R s) : R (State.setEngine s e r) := by
  unfold State.setEngine
  try dsimp only
  repeat' first
    | with_reducible assumption
    | exact hR.sub
    | exact fun h => memWf_memStore h
    | exact fun h => memWf_memPut h
    | exact fun h => memWf_filter _ h
    | exact fun _ => rfl
    | with_reducible apply rel_ite
    | fail_if_no_progress (with_reducible apply hR.upd; all_goals try first | with_reducible exact .inr rfl | exact .inl (by decide +kernel) | exact id)
    | dsimp only
    | intro _ _
    | intro _
    | contradiction
    | (unfold id)
    | split
    | (rename_i hh; injection hh with hh; subst hh)
    | (rename_i hh; split at hh)

theorem State.engReturn_keeps {R : State → Prop} (hR : Keeps [.govs] ⟨[], [], [], false⟩ R) (s : State) (e : Nat)
    (hI : R s) : R (State.engReturn s e) := by
  unfold State.engReturn
  try dsimp only
  repeat' first
    | with_reducible assumption
    | exact hR.sub
    | with_reducible apply rel_ite
    | with_reducible apply State.giveBack_keeps
    | dsimp only
    | intro _ _
    | intro _
    | contradiction
    | (unfold id)
    | split
    | (rename_i hh; injection hh with hh; subst hh)
    | (rename_i hh; split at hh)

theorem State.engFault_keeps {R : State → Prop} (hR : Keeps [.regs, .stewards, .govs, .eng] ⟨[.ENG_FAULT_CODE, .ENG_FAULT_DETAIL, .ENG_FAULT_PC, .ENG_FAULT_VALID, .ENG_STATUS_STATE], [], [], false⟩ R) (s : State) (e code detail pc : Nat)
    (hI : R s) : R (State.engFault s e code detail pc) := by
  unfold State.engFault
  try dsimp only
  repeat' first
    | with_reducible assumption
    | exact hR.sub
    | exact fun h => memWf_memStore h
    | exact fun h => memWf_memPut h
    | exact fun h => memWf_filter _ h
    | exact fun _ => rfl
    | with_reducible apply rel_ite
    | with_reducible refine hR.wr _ _ _ (by decide +kernel) (by first | decide +kernel | exact hasFld_self _ _ | exact hasFld_all _ | (simp [hasFld]; done) ) ?_
    | with_reducible apply State.engReturn_keeps
    | with_reducible apply State.raise_keeps
    | with_reducible apply State.setEngine_keeps
    | fail_if_no_progress (with_reducible apply hR.upd; all_goals try first | with_reducible exact .inr rfl | exact .inl (by decide +kernel) | exact id)
    | dsimp only
    | intro _ _
    | intro _
    | contradiction
    | (unfold id)
    | split
    | (rename_i hh; injection hh with hh; subst hh)
    | (rename_i hh; split at hh)

theorem State.strmStart_keeps {R : State → Prop} (hR : Keeps [.regs, .eng] ⟨[.ENG_STRM_CTL_ENDED, .ENG_STRM_POS_POS], [], [], false⟩ R) (s : State) (e : Nat)
    (hI : R s) : R (State.strmStart s e) := by
  unfold State.strmStart
  try dsimp only
  repeat' first
    | with_reducible assumption
    | exact hR.sub
    | exact fun h => memWf_memStore h
    | exact fun h => memWf_memPut h
    | exact fun h => memWf_filter _ h
    | exact fun _ => rfl
    | with_reducible apply rel_ite
    | with_reducible refine hR.wr _ _ _ (by decide +kernel) (by first | decide +kernel | exact hasFld_self _ _ | exact hasFld_all _ | (simp [hasFld]; done) ) ?_
    | with_reducible apply State.setEngine_keeps
    | fail_if_no_progress (with_reducible apply hR.upd; all_goals try first | with_reducible exact .inr rfl | exact .inl (by decide +kernel) | exact id)
    | dsimp only
    | intro _ _
    | intro _
    | contradiction
    | (unfold id)
    | split
    | (rename_i hh; injection hh with hh; subst hh)
    | (rename_i hh; split at hh)

theorem State.strmStop_keeps {R : State → Prop} (hR : Keeps [.eng] ⟨[], [], [], false⟩ R) (s : State) (e : Nat)
    (hI : R s) : R (State.strmStop s e) := by
  unfold State.strmStop
  try dsimp only
  repeat' first
    | with_reducible assumption
    | exact hR.sub
    | exact fun h => memWf_memStore h
    | exact fun h => memWf_memPut h
    | exact fun h => memWf_filter _ h
    | exact fun _ => rfl
    | with_reducible apply rel_ite
    | with_reducible apply State.setEngine_keeps
    | fail_if_no_progress (with_reducible apply hR.upd; all_goals try first | with_reducible exact .inr rfl | exact .inl (by decide +kernel) | exact id)
    | dsimp only
    | intro _ _
    | intro _
    | contradiction
    | (unfold id)
    | split
    | (rename_i hh; injection hh with hh; subst hh)
    | (rename_i hh; split at hh)

theorem State.engBegin_keeps {R : State → Prop} (hR : Keeps [.regs, .eng] ⟨[.ENG_STATUS_STATE], [], [], false⟩ R) (s : State) (e : Nat)
    (hI : R s) : R (State.engBegin s e) := by
  unfold State.engBegin
  try dsimp only
  repeat' first
    | with_reducible assumption
    | exact hR.sub
    | exact fun h => memWf_memStore h
    | exact fun h => memWf_memPut h
    | exact fun h => memWf_filter _ h
    | exact fun _ => rfl
    | with_reducible apply rel_ite
    | with_reducible refine hR.wr _ _ _ (by decide +kernel) (by first | decide +kernel | exact hasFld_self _ _ | exact hasFld_all _ | (simp [hasFld]; done) ) ?_
    | with_reducible apply State.setEngine_keeps
    | fail_if_no_progress (with_reducible apply hR.upd; all_goals try first | with_reducible exact .inr rfl | exact .inl (by decide +kernel) | exact id)
    | dsimp only
    | intro _ _
    | intro _
    | contradiction
    | (unfold id)
    | split
    | (rename_i hh; injection hh with hh; subst hh)
    | (rename_i hh; split at hh)

def opFieldsEngInit : FSet :=
  ⟨[.ENG_FAULT_CODE, .ENG_FAULT_DETAIL, .ENG_FAULT_PC, .ENG_FAULT_VALID, .ENG_GEN_V_VALUE, .ENG_LCNT_COUNT, .ENG_PC_CUR,
    .ENG_STALL_COUNT, .ENG_STATUS_END_CODE, .ENG_STATUS_FAIL, .ENG_STATUS_IN_HANDLER, .ENG_STATUS_STATE,
    .ENG_STATUS_TLATE, .ENG_STATUS_TMR_OVR, .ENG_STEPS_HI_COUNT, .ENG_STRM_CTL_ENDED, .ENG_STRM_POS_POS,
    .FC_FAIL_CNT_COUNT, .FC_RUN_RUN, .FC_SLICE_FAIL_COUNT, .FC_UNCHK_CNT_COUNT, .PG_ERR_OP, .PG_ERR_OVERSIZE,
    .PG_ERR_UNITS, .PG_ERR_VALID, .PG_TO_CNT_COUNT], [], [], false⟩

theorem State.engInit_keeps {R : State → Prop} (hR : Keeps [.regs, .out, .stewards, .govs, .eng] opFieldsEngInit R) (s : State) (e : Nat) (arm : Bool)
    (hI : R s) : R (State.engInit s e arm) := by
  unfold State.engInit
  try dsimp only
  repeat' first
    | with_reducible assumption
    | exact hR.sub
    | exact fun h => memWf_memStore h
    | exact fun h => memWf_memPut h
    | exact fun h => memWf_filter _ h
    | exact fun _ => rfl
    | exact hR.sub (by decide +kernel) (subFld_self _ _)
    | with_reducible apply rel_ite
    | with_reducible refine hR.wr _ _ _ (by decide +kernel) (by first | decide +kernel | exact hasFld_self _ _ | exact hasFld_all _ | (simp [hasFld]; done) ) ?_
    | with_reducible apply State.engFault_keeps
    | with_reducible apply State.incr_keeps
    | with_reducible apply State.request_keeps
    | with_reducible apply State.setEngine_keeps
    | (with_reducible apply rel_foldl; intro _ _ _)
    | (with_reducible apply rel_foldl2; intro _ _ _)
    | (with_reducible apply rel_foldl3; intro _ _ _)
    | (with_reducible apply rel_foldl1; intro _ _ _)
    | fail_if_no_progress (with_reducible apply hR.upd; all_goals try first | with_reducible exact .inr rfl | exact .inl (by decide +kernel) | exact id)
    | dsimp only
    | intro _ _
    | intro _
    | contradiction
    | (unfold id)
    | split
    | (rename_i hh; injection hh with hh; subst hh)
    | (rename_i hh; split at hh)

def opFieldsEngStart : FSet :=
  ⟨[.ENG_FAULT_CODE, .ENG_FAULT_DETAIL, .ENG_FAULT_PC, .ENG_FAULT_VALID, .ENG_GEN_V_VALUE, .ENG_LCNT_COUNT, .ENG_PC_CUR,
    .ENG_STALL_COUNT, .ENG_STATUS_END_CODE, .ENG_STATUS_FAIL, .ENG_STATUS_IN_HANDLER, .ENG_STATUS_STATE,
    .ENG_STATUS_TLATE, .ENG_STATUS_TMR_OVR, .ENG_STEPS_HI_COUNT, .ENG_STRM_CTL_ENDED, .ENG_STRM_POS_POS,
    .FC_FAIL_CNT_COUNT, .FC_RUN_RUN, .FC_SLICE_FAIL_COUNT, .FC_UNCHK_CNT_COUNT, .PG_ERR_OP, .PG_ERR_OVERSIZE,
    .PG_ERR_UNITS, .PG_ERR_VALID, .PG_TO_CNT_COUNT], [], [], false⟩

theorem State.engStart_keeps {R : State → Prop} (hR : Keeps [.regs, .out, .stewards, .govs, .eng] opFieldsEngStart R) (s : State) (e : Nat) (arm : Bool)
    (hI : R s) : R (State.engStart s e arm) := by
  unfold State.engStart
  try dsimp only
  repeat' first
    | with_reducible assumption
    | exact hR.sub
    | exact fun h => memWf_memStore h
    | exact fun h => memWf_memPut h
    | exact fun h => memWf_filter _ h
    | exact fun _ => rfl
    | with_reducible apply rel_ite
    | with_reducible apply State.engInit_keeps
    | with_reducible apply State.setEngine_keeps
    | fail_if_no_progress (with_reducible apply hR.upd; all_goals try first | with_reducible exact .inr rfl | exact .inl (by decide +kernel) | exact id)
    | dsimp only
    | intro _ _
    | intro _
    | contradiction
    | (unfold id)
    | split
    | (rename_i hh; injection hh with hh; subst hh)
    | (rename_i hh; split at hh)

theorem State.tmrStop_keeps {R : State → Prop} (hR : Keeps [.eng] ⟨[], [], [], false⟩ R) (s : State) (e : Nat)
    (hI : R s) : R (State.tmrStop s e) := by
  unfold State.tmrStop
  try dsimp only
  repeat' first
    | with_reducible assumption
    | exact hR.sub
    | exact fun h => memWf_memStore h
    | exact fun h => memWf_memPut h
    | exact fun h => memWf_filter _ h
    | exact fun _ => rfl
    | with_reducible apply rel_ite
    | with_reducible apply State.setEngine_keeps
    | fail_if_no_progress (with_reducible apply hR.upd; all_goals try first | with_reducible exact .inr rfl | exact .inl (by decide +kernel) | exact id)
    | dsimp only
    | intro _ _
    | intro _
    | contradiction
    | (unfold id)
    | split
    | (rename_i hh; injection hh with hh; subst hh)
    | (rename_i hh; split at hh)

theorem State.tmrRun_keeps {R : State → Prop} (hR : Keeps [.eng] ⟨[], [], [], false⟩ R) (s : State) (e : Nat)
    (hI : R s) : R (State.tmrRun s e) := by
  unfold State.tmrRun
  try dsimp only
  repeat' first
    | with_reducible assumption
    | exact hR.sub
    | exact fun h => memWf_memStore h
    | exact fun h => memWf_memPut h
    | exact fun h => memWf_filter _ h
    | exact fun _ => rfl
    | with_reducible apply rel_ite
    | with_reducible apply State.setEngine_keeps
    | fail_if_no_progress (with_reducible apply hR.upd; all_goals try first | with_reducible exact .inr rfl | exact .inl (by decide +kernel) | exact id)
    | dsimp only
    | intro _ _
    | intro _
    | contradiction
    | (unfold id)
    | split
    | (rename_i hh; injection hh with hh; subst hh)
    | (rename_i hh; split at hh)

theorem State.tmrFollow_keeps {R : State → Prop} (hR : Keeps [.eng] ⟨[], [], [], false⟩ R) (s : State) (e : Nat)
    (hI : R s) : R (State.tmrFollow s e) := by
  unfold State.tmrFollow
  try dsimp only
  repeat' first
    | with_reducible assumption
    | exact hR.sub
    | with_reducible apply rel_ite
    | with_reducible apply State.tmrRun_keeps
    | with_reducible apply State.tmrStop_keeps
    | dsimp only
    | intro _ _
    | intro _
    | contradiction
    | (unfold id)
    | split
    | (rename_i hh; injection hh with hh; subst hh)
    | (rename_i hh; split at hh)

theorem State.engStop_keeps {R : State → Prop} (hR : Keeps [.regs, .govs, .eng] ⟨[.ENG_STATUS_STATE], [], [], false⟩ R) (s : State) (e : Nat)
    (hI : R s) : R (State.engStop s e) := by
  unfold State.engStop
  try dsimp only
  repeat' first
    | with_reducible assumption
    | exact hR.sub
    | exact fun h => memWf_memStore h
    | exact fun h => memWf_memPut h
    | exact fun h => memWf_filter _ h
    | exact fun _ => rfl
    | with_reducible apply rel_ite
    | with_reducible refine hR.wr _ _ _ (by decide +kernel) (by first | decide +kernel | exact hasFld_self _ _ | exact hasFld_all _ | (simp [hasFld]; done) ) ?_
    | with_reducible apply State.engReturn_keeps
    | with_reducible apply State.setEngine_keeps
    | fail_if_no_progress (with_reducible apply hR.upd; all_goals try first | with_reducible exact .inr rfl | exact .inl (by decide +kernel) | exact id)
    | dsimp only
    | intro _ _
    | intro _
    | contradiction
    | (unfold id)
    | split
    | (rename_i hh; injection hh with hh; subst hh)
    | (rename_i hh; split at hh)

theorem State.engPause_keeps {R : State → Prop} (hR : Keeps [.regs, .govs, .eng] ⟨[.ENG_STATUS_STATE], [], [], false⟩ R) (s : State) (e : Nat)
    (hI : R s) : R (State.engPause s e) := by
  unfold State.engPause
  try dsimp only
  repeat' first
    | with_reducible assumption
    | exact hR.sub
    | exact fun h => memWf_memStore h
    | exact fun h => memWf_memPut h
    | exact fun h => memWf_filter _ h
    | exact fun _ => rfl
    | with_reducible apply rel_ite
    | with_reducible refine hR.wr _ _ _ (by decide +kernel) (by first | decide +kernel | exact hasFld_self _ _ | exact hasFld_all _ | (simp [hasFld]; done) ) ?_
    | with_reducible apply State.giveBack_keeps
    | with_reducible apply State.setEngine_keeps
    | with_reducible apply State.tmrStop_keeps
    | fail_if_no_progress (with_reducible apply hR.upd; all_goals try first | with_reducible exact .inr rfl | exact .inl (by decide +kernel) | exact id)
    | dsimp only
    | intro _ _
    | intro _
    | contradiction
    | (unfold id)
    | split
    | (rename_i hh; injection hh with hh; subst hh)
    | (rename_i hh; split at hh)

theorem State.engReset_keeps {R : State → Prop} (hR : Keeps [.regs, .govs, .eng] ⟨[], [.eng], [], false⟩ R) (s : State) (e : Nat)
    (hI : R s) : R (State.engReset s e) := by
  unfold State.engReset
  try dsimp only
  repeat' first
    | with_reducible assumption
    | exact hR.sub
    | with_reducible apply rel_ite
    | with_reducible refine hR.clear _ (by decide +kernel) (fun _ _ h => hasFld_cls (engClears_cls h)) ?_
    | with_reducible apply State.engReturn_keeps
    | with_reducible apply State.setEngine_keeps
    | dsimp only
    | intro _ _
    | intro _
    | contradiction
    | (unfold id)
    | split
    | (rename_i hh; injection hh with hh; subst hh)
    | (rename_i hh; split at hh)

theorem State.engCmd_keeps {R : State → Prop} (hR : Keeps [.stewards, .rstUnlock] ⟨[], [], [], false⟩ R) (s : State) (w : Writer) (e cmd : Nat) (k : State → State) (states : List Nat)
    (hI : R s) (hk : ∀  s, R s → R (k  s)) : R (State.engCmd s w e cmd k states) := by
  unfold State.engCmd
  try dsimp only
  repeat' first
    | with_reducible assumption
    | exact hR.sub
    | with_reducible apply rel_ite
    | (with_reducible apply hk)
    | with_reducible apply State.dropF_keeps
    | with_reducible apply State.reach_keeps
    | dsimp only
    | intro _ _
    | intro _
    | contradiction
    | (unfold id)
    | split
    | (rename_i hh; injection hh with hh; subst hh)
    | (rename_i hh; split at hh)

theorem execStart_keeps {R : State → Prop} (hR : Keeps partsStart fieldsStart R) (w : Writer) (e : Fin 96) (s : State)
    (hI : R s) {tT : State} (eE : execStart w e s = .next tT) : R tT := by
  unfold execStart at eE
  try dsimp only at eE
  repeat' split at eE
  all_goals try (injection eE with eE; subst eE)
  all_goals repeat' first
    | with_reducible assumption
    | exact hR.sub
    | with_reducible apply rel_ite
    | with_reducible apply State.dirNext_keeps
    | with_reducible apply State.engCmd_keeps
    | with_reducible apply State.engStart_keeps
    | with_reducible apply State.flashMessage_keeps
    | with_reducible apply State.message_keeps
    | with_reducible apply State.packageReset_keeps
    | with_reducible apply State.powerOn_keeps
    | with_reducible apply State.reach_keeps
    | dsimp only
    | intro _ _
    | intro _
    | contradiction
    | (unfold id)
    | split
    | (rename_i hh; injection hh with hh; subst hh)
    | (rename_i hh; split at hh)

theorem execArm_keeps {R : State → Prop} (hR : Keeps partsArm fieldsArm R) (w : Writer) (e : Fin 96) (s : State)
    (hI : R s) {tT : State} (eE : execArm w e s = .next tT) : R tT := by
  unfold execArm at eE
  try dsimp only at eE
  repeat' split at eE
  all_goals try (injection eE with eE; subst eE)
  all_goals repeat' first
    | with_reducible assumption
    | exact hR.sub
    | with_reducible apply rel_ite
    | with_reducible apply State.dirNext_keeps
    | with_reducible apply State.engCmd_keeps
    | with_reducible apply State.engStart_keeps
    | with_reducible apply State.flashMessage_keeps
    | with_reducible apply State.message_keeps
    | with_reducible apply State.packageReset_keeps
    | with_reducible apply State.powerOn_keeps
    | with_reducible apply State.reach_keeps
    | dsimp only
    | intro _ _
    | intro _
    | contradiction
    | (unfold id)
    | split
    | (rename_i hh; injection hh with hh; subst hh)
    | (rename_i hh; split at hh)

theorem execEngCmdStop_keeps {R : State → Prop} (hR : Keeps partsEngCmdStop fieldsEngCmdStop R) (w : Writer) (e : Fin 96) (s : State)
    (hI : R s) {tT : State} (eE : execEngCmdStop w e s = .next tT) : R tT := by
  unfold execEngCmdStop at eE
  try dsimp only at eE
  repeat' split at eE
  all_goals try (injection eE with eE; subst eE)
  all_goals repeat' first
    | with_reducible assumption
    | exact hR.sub
    | with_reducible apply rel_ite
    | with_reducible apply State.dirNext_keeps
    | with_reducible apply State.engCmd_keeps
    | with_reducible apply State.engStop_keeps
    | with_reducible apply State.flashMessage_keeps
    | with_reducible apply State.message_keeps
    | with_reducible apply State.packageReset_keeps
    | with_reducible apply State.powerOn_keeps
    | with_reducible apply State.reach_keeps
    | dsimp only
    | intro _ _
    | intro _
    | contradiction
    | (unfold id)
    | split
    | (rename_i hh; injection hh with hh; subst hh)
    | (rename_i hh; split at hh)

theorem execPause_keeps {R : State → Prop} (hR : Keeps partsPause fieldsPause R) (w : Writer) (e : Fin 96) (s : State)
    (hI : R s) {tT : State} (eE : execPause w e s = .next tT) : R tT := by
  unfold execPause at eE
  try dsimp only at eE
  repeat' split at eE
  all_goals try (injection eE with eE; subst eE)
  all_goals repeat' first
    | with_reducible assumption
    | exact hR.sub
    | with_reducible apply rel_ite
    | with_reducible apply State.dirNext_keeps
    | with_reducible apply State.engCmd_keeps
    | with_reducible apply State.engPause_keeps
    | with_reducible apply State.flashMessage_keeps
    | with_reducible apply State.message_keeps
    | with_reducible apply State.packageReset_keeps
    | with_reducible apply State.powerOn_keeps
    | with_reducible apply State.reach_keeps
    | dsimp only
    | intro _ _
    | intro _
    | contradiction
    | (unfold id)
    | split
    | (rename_i hh; injection hh with hh; subst hh)
    | (rename_i hh; split at hh)

theorem execEngCmdResume_keeps {R : State → Prop} (hR : Keeps partsEngCmdResume fieldsEngCmdResume R) (w : Writer) (e : Fin 96) (s : State)
    (hI : R s) {tT : State} (eE : execEngCmdResume w e s = .next tT) : R tT := by
  unfold execEngCmdResume at eE
  try dsimp only at eE
  repeat' split at eE
  all_goals try (injection eE with eE; subst eE)
  all_goals repeat' first
    | with_reducible assumption
    | exact hR.sub
    | with_reducible apply rel_ite
    | with_reducible refine hR.wr _ _ _ (by decide +kernel) (by first | decide +kernel | exact hasFld_self _ _ | exact hasFld_all _ | (simp [hasFld]; done) ) ?_
    | with_reducible apply State.dirNext_keeps
    | with_reducible apply State.engCmd_keeps
    | with_reducible apply State.flashMessage_keeps
    | with_reducible apply State.message_keeps
    | with_reducible apply State.packageReset_keeps
    | with_reducible apply State.powerOn_keeps
    | with_reducible apply State.reach_keeps
    | with_reducible apply State.tmrRun_keeps
    | dsimp only
    | intro _ _
    | intro _
    | contradiction
    | (unfold id)
    | split
    | (rename_i hh; injection hh with hh; subst hh)
    | (rename_i hh; split at hh)

theorem execEngineReset_keeps {R : State → Prop} (hR : Keeps partsEngineReset fieldsEngineReset R) (w : Writer) (e : Fin 96) (s : State)
    (hI : R s) {tT : State} (eE : execEngineReset w e s = .next tT) : R tT := by
  unfold execEngineReset at eE
  try dsimp only at eE
  repeat' split at eE
  all_goals try (injection eE with eE; subst eE)
  all_goals repeat' first
    | with_reducible assumption
    | exact hR.sub
    | with_reducible apply rel_ite
    | with_reducible apply State.dirNext_keeps
    | with_reducible apply State.engCmd_keeps
    | with_reducible apply State.engReset_keeps
    | with_reducible apply State.flashMessage_keeps
    | with_reducible apply State.message_keeps
    | with_reducible apply State.packageReset_keeps
    | with_reducible apply State.powerOn_keeps
    | with_reducible apply State.reach_keeps
    | dsimp only
    | intro _ _
    | intro _
    | contradiction
    | (unfold id)
    | split
    | (rename_i hh; injection hh with hh; subst hh)
    | (rename_i hh; split at hh)

theorem execEngStartEffect_keeps {R : State → Prop} (hR : Keeps partsEngStartEffect fieldsEngStartEffect R) (e : Fin 96) (s : State)
    (hI : R s) {tT : State} (eE : execEngStartEffect e s = .next tT) : R tT := by
  unfold execEngStartEffect at eE
  try dsimp only at eE
  repeat' split at eE
  all_goals try (injection eE with eE; subst eE)
  all_goals repeat' first
    | with_reducible assumption
    | exact hR.sub
    | with_reducible apply rel_ite
    | with_reducible apply State.dirNext_keeps
    | with_reducible apply State.engInit_keeps
    | with_reducible apply State.flashMessage_keeps
    | with_reducible apply State.message_keeps
    | with_reducible apply State.packageReset_keeps
    | with_reducible apply State.powerOn_keeps
    | with_reducible apply State.reach_keeps
    | dsimp only
    | intro _ _
    | intro _
    | contradiction
    | (unfold id)
    | split
    | (rename_i hh; injection hh with hh; subst hh)
    | (rename_i hh; split at hh)

theorem execEngPermitGrant_keeps {R : State → Prop} (hR : Keeps partsEngPermitGrant fieldsEngPermitGrant R) (e : Fin 96) (s : State)
    (hI : R s) {tT : State} (eE : execEngPermitGrant e s = .next tT) : R tT := by
  unfold execEngPermitGrant at eE
  try dsimp only at eE
  repeat' split at eE
  all_goals try (injection eE with eE; subst eE)
  all_goals repeat' first
    | with_reducible assumption
    | exact hR.sub
    | exact fun h => memWf_memStore h
    | exact fun h => memWf_memPut h
    | exact fun h => memWf_filter _ h
    | exact fun _ => rfl
    | with_reducible apply rel_ite
    | with_reducible refine hR.wr _ _ _ (by decide +kernel) (by first | decide +kernel | exact hasFld_self _ _ | exact hasFld_all _ | (simp [hasFld]; done) ) ?_
    | with_reducible apply State.dirNext_keeps
    | with_reducible apply State.engBegin_keeps
    | with_reducible apply State.engFault_keeps
    | with_reducible apply State.flashMessage_keeps
    | with_reducible apply State.message_keeps
    | with_reducible apply State.packageReset_keeps
    | with_reducible apply State.powerOn_keeps
    | with_reducible apply State.reach_keeps
    | with_reducible apply State.setEngine_keeps
    | with_reducible apply State.strmStart_keeps
    | (refine State.takeGrant_keeps hR.sub _ _ _ _ ?_ (by assumption))
    | fail_if_no_progress (with_reducible apply hR.upd; all_goals try first | with_reducible exact .inr rfl | exact .inl (by decide +kernel) | exact id)
    | dsimp only
    | intro _ _
    | intro _
    | contradiction
    | (unfold id)
    | split
    | (rename_i hh; injection hh with hh; subst hh)
    | (rename_i hh; split at hh)

theorem execEngTrigger_keeps {R : State → Prop} (hR : Keeps partsEngTrigger fieldsEngTrigger R) (e : Fin 96) (s : State)
    (hI : R s) {tT : State} (eE : execEngTrigger e s = .next tT) : R tT := by
  unfold execEngTrigger at eE
  try dsimp only at eE
  repeat' split at eE
  all_goals try (injection eE with eE; subst eE)
  all_goals repeat' first
    | with_reducible assumption
    | exact hR.sub
    | with_reducible apply rel_ite
    | with_reducible apply State.dirNext_keeps
    | with_reducible apply State.engBegin_keeps
    | with_reducible apply State.flashMessage_keeps
    | with_reducible apply State.lapseToLocal_keeps
    | with_reducible apply State.message_keeps
    | with_reducible apply State.packageReset_keeps
    | with_reducible apply State.powerOn_keeps
    | with_reducible apply State.reach_keeps
    | dsimp only
    | intro _ _
    | intro _
    | contradiction
    | (unfold id)
    | split
    | (rename_i hh; injection hh with hh; subst hh)
    | (rename_i hh; split at hh)

theorem State.holdEngine_keeps {R : State → Prop} (hR : Keeps [.govs] ⟨[], [], [], false⟩ R) (s : State) (e rate : Nat)
    (hI : R s) : R (State.holdEngine s e rate) := by
  unfold State.holdEngine
  try dsimp only
  repeat' first
    | with_reducible assumption
    | exact hR.sub
    | exact fun h => memWf_memStore h
    | exact fun h => memWf_memPut h
    | exact fun h => memWf_filter _ h
    | exact fun _ => rfl
    | with_reducible apply rel_ite
    | with_reducible apply State.setGov_keeps
    | fail_if_no_progress (with_reducible apply hR.upd; all_goals try first | with_reducible exact .inr rfl | exact .inl (by decide +kernel) | exact id)
    | dsimp only
    | intro _ _
    | intro _
    | contradiction
    | (unfold id)
    | split
    | (rename_i hh; injection hh with hh; subst hh)
    | (rename_i hh; split at hh)

-- SKIP State.loopEnd

theorem State.engStall_keeps {R : State → Prop} (hR : Keeps [.regs, .eng] ⟨[.ENG_STALL_COUNT, .ENG_STATUS_STATE], [], [], false⟩ R) (s : State) (e item : Nat)
    (hI : R s) : R (State.engStall s e item) := by
  unfold State.engStall
  try dsimp only
  repeat' first
    | with_reducible assumption
    | exact hR.sub
    | exact fun h => memWf_memStore h
    | exact fun h => memWf_memPut h
    | exact fun h => memWf_filter _ h
    | exact fun _ => rfl
    | exact hR.sub (by decide +kernel) (subFld_self _ _)
    | with_reducible apply rel_ite
    | with_reducible refine hR.wr _ _ _ (by decide +kernel) (by first | decide +kernel | exact hasFld_self _ _ | exact hasFld_all _ | (simp [hasFld]; done) ) ?_
    | with_reducible apply State.bump_keeps
    | with_reducible apply State.setEngine_keeps
    | fail_if_no_progress (with_reducible apply hR.upd; all_goals try first | with_reducible exact .inr rfl | exact .inl (by decide +kernel) | exact id)
    | dsimp only
    | intro _ _
    | intro _
    | contradiction
    | (unfold id)
    | split
    | (rename_i hh; injection hh with hh; subst hh)
    | (rename_i hh; split at hh)

theorem State.stepEmit_keeps {R : State → Prop} (hR : Keeps [.regs, .out, .eng] ⟨[.ENG_STRM_CTL_ENDED, .ENG_STRM_POS_POS], [], [], false⟩ R) (s : State) (e w pc sw : Nat)
    (hI : R s) : R (State.stepEmit s e w pc sw) := by
  unfold State.stepEmit
  try dsimp only
  repeat' first
    | with_reducible assumption
    | exact hR.sub
    | exact fun h => memWf_memStore h
    | exact fun h => memWf_memPut h
    | exact fun h => memWf_filter _ h
    | exact fun _ => rfl
    | with_reducible apply rel_ite
    | with_reducible refine hR.wr _ _ _ (by decide +kernel) (by first | decide +kernel | exact hasFld_self _ _ | exact hasFld_all _ | (simp [hasFld]; done) ) ?_
    | with_reducible apply State.setEngine_keeps
    | fail_if_no_progress (with_reducible apply hR.upd; all_goals try first | with_reducible exact .inr rfl | exact .inl (by decide +kernel) | exact id)
    | dsimp only
    | intro _ _
    | intro _
    | contradiction
    | (unfold id)
    | split
    | (rename_i hh; injection hh with hh; subst hh)
    | (rename_i hh; split at hh)

theorem State.stepGens_keeps {R : State → Prop} (hR : Keeps [.regs, .eng] ⟨[.ENG_GEN_V_VALUE], [], [], false⟩ R) (s : State) (e w : Nat) (g : List (Nat × Bool))
    (hI : R s) : R (State.stepGens s e w g) := by
  unfold State.stepGens
  try dsimp only
  repeat' first
    | with_reducible assumption
    | exact hR.sub
    | exact fun h => memWf_memStore h
    | exact fun h => memWf_memPut h
    | exact fun h => memWf_filter _ h
    | exact fun _ => rfl
    | with_reducible apply rel_ite
    | with_reducible refine hR.wr _ _ _ (by decide +kernel) (by first | decide +kernel | exact hasFld_self _ _ | exact hasFld_all _ | (simp [hasFld]; done) ) ?_
    | with_reducible apply State.setEngine_keeps
    | (with_reducible apply rel_foldl; intro _ _ _)
    | (with_reducible apply rel_foldl2; intro _ _ _)
    | (with_reducible apply rel_foldl3; intro _ _ _)
    | (with_reducible apply rel_foldl1; intro _ _ _)
    | fail_if_no_progress (with_reducible apply hR.upd; all_goals try first | with_reducible exact .inr rfl | exact .inl (by decide +kernel) | exact id)
    | dsimp only
    | intro _ _
    | intro _
    | contradiction
    | (unfold id)
    | split
    | (rename_i hh; injection hh with hh; subst hh)
    | (rename_i hh; split at hh)

theorem State.stepEnd_keeps {R : State → Prop} (hR : Keeps [.regs, .govs, .eng] ⟨[.ENG_PC_CUR, .ENG_STATUS_IN_HANDLER, .ENG_STATUS_STATE], [], [], false⟩ R) (s : State) (e w next : Nat) (halt : Bool)
    (hI : R s) : R (State.stepEnd s e w next halt) := by
  unfold State.stepEnd
  try dsimp only
  repeat' first
    | with_reducible assumption
    | exact hR.sub
    | exact fun h => memWf_memStore h
    | exact fun h => memWf_memPut h
    | exact fun h => memWf_filter _ h
    | exact fun _ => rfl
    | with_reducible apply rel_ite
    | with_reducible refine hR.wr _ _ _ (by decide +kernel) (by first | decide +kernel | exact hasFld_self _ _ | exact hasFld_all _ | (simp [hasFld]; done) ) ?_
    | with_reducible apply State.engReturn_keeps
    | with_reducible apply State.setEngine_keeps
    | with_reducible apply State.tmrStop_keeps
    | fail_if_no_progress (with_reducible apply hR.upd; all_goals try first | with_reducible exact .inr rfl | exact .inl (by decide +kernel) | exact id)
    | dsimp only
    | intro _ _
    | intro _
    | contradiction
    | (unfold id)
    | split
    | (rename_i hh; injection hh with hh; subst hh)
    | (rename_i hh; split at hh)

def opFieldsStepCommit : FSet :=
  ⟨[.ENG_FAULT_CODE, .ENG_FAULT_DETAIL, .ENG_FAULT_PC, .ENG_FAULT_VALID, .ENG_GEN_V_VALUE, .ENG_LCNT_COUNT,
    .ENG_LREL_COUNT, .ENG_PC_CUR, .ENG_STATUS_END_CODE, .ENG_STATUS_IN_HANDLER, .ENG_STATUS_STATE, .ENG_STRM_CTL_ENDED,
    .ENG_STRM_CTL_RATE, .ENG_STRM_POS_POS], [], [], false⟩

theorem State.loopEnd_keeps {R : State → Prop} (hR : Keeps [.regs, .eng] ⟨[.ENG_LCNT_COUNT], [], [], false⟩ R) (s : State) (e pc : Nat) (l : List (Nat × Nat × Nat)) (hI : R s) :
    R (s.loopEnd e pc l).1 := by
  induction l generalizing s with
  | nil => exact State.setEngine_keeps hR.sub _ _ _ hI
  | cons x r ih =>
    obtain ⟨c, start, stop⟩ := x
    unfold State.loopEnd
    try dsimp only
    repeat' first
    | with_reducible assumption
    | exact hR.sub
    | with_reducible apply ih
    | with_reducible apply State.setEngine_keeps
    | with_reducible refine hR.wr _ _ _ (by decide +kernel) (by decide +kernel) ?_
    | split
    | dsimp only

/-- What a control operation leaves keeps the invariant. -/
def Ctl.All (R : State → Prop) : Ctl → Prop
  | .go _ _ s => R s
  | .fault _ => True
  | .halt _ s => R s

theorem ctlOf_keeps {R : State → Prop} (hR : Keeps [.regs, .stewards, .govs, .eng] ⟨[.ENG_LCNT_COUNT, .ENG_LREL_COUNT, .ENG_STATUS_END_CODE, .ENG_STATUS_IN_HANDLER, .ENG_STRM_CTL_ENDED, .ENG_STRM_CTL_RATE, .ENG_STRM_POS_POS], [], [], false⟩ R) (e pc w : Nat) (s : State) (hI : R s) : (ctlOf e pc w s).All R := by
  unfold ctlOf ctlLoop ctlJmp ctlBr ctlCall ctlRet ctlSetl ctlStrm ctlRate ctlEvt ctlHalt ctlNext
  try dsimp only
  repeat' first
    | trivial
    | with_reducible assumption
    | exact hR.sub
    | with_reducible apply rel_ite
    | with_reducible apply State.setEngine_keeps
    | with_reducible refine hR.wr _ _ _ (by decide +kernel) (by decide +kernel) ?_
    | with_reducible apply State.strmStart_keeps
    | with_reducible apply State.strmStop_keeps
    | with_reducible apply State.holdEngine_keeps
    | with_reducible apply State.push_keeps
    | split
    | (simp only [Ctl.All])

theorem State.stepCommit_keeps {R : State → Prop} (hR : Keeps [.regs, .out, .stewards, .govs, .eng] opFieldsStepCommit R) (s : State) (e w pc sw : Nat) (hI : R s) :
    R (State.stepCommit s e w pc sw) := by
  unfold State.stepCommit
  have h1 := ctlOf_keeps hR.sub  e pc w _ (State.stepEmit_keeps hR.sub s e w pc sw hI)
  try dsimp only
  split
  · exact State.engFault_keeps hR.sub _ _ _ _ _ hI
  · rename_i next seq s2 h
    rw [h] at h1
    have h2 : R s2 := by simpa only [Ctl.All] using h1
    have h3 := State.stepGens_keeps hR.sub s2 e w (s.genStep e w) h2
    have h4 : R (if seq = true then (s2.stepGens e w (s.genStep e w)).loopEnd e pc
        ((s2.stepGens e w (s.genStep e w)).engine e).lstack else (s2.stepGens e w (s.genStep e w), next)).1 := by
      cases seq
      · exact h3
      · exact State.loopEnd_keeps hR.sub _ _ _ _ h3
    generalize (if seq = true then (s2.stepGens e w (s.genStep e w)).loopEnd e pc
        ((s2.stepGens e w (s.genStep e w)).engine e).lstack else (s2.stepGens e w (s.genStep e w), next)) = p at h4 ⊢
    obtain ⟨s4, n⟩ := p
    exact rel_ite (State.engFault_keeps hR.sub _ _ _ _ _ hI) (State.stepEnd_keeps hR.sub _ _ _ _ _ h4)
  · rename_i next s2 h
    rw [h] at h1
    have h2 : R s2 := by simpa only [Ctl.All] using h1
    exact rel_ite (State.engFault_keeps hR.sub _ _ _ _ _ hI)
      (State.stepEnd_keeps hR.sub _ _ _ _ _ (State.loopEnd_keeps hR.sub _ _ _ _ (State.stepGens_keeps hR.sub _ _ _ _ h2)))

def opFieldsStepItems : FSet :=
  ⟨[.ENG_FAULT_CODE, .ENG_FAULT_DETAIL, .ENG_FAULT_PC, .ENG_FAULT_VALID, .ENG_GEN_V_VALUE, .ENG_LCNT_COUNT,
    .ENG_LREL_COUNT, .ENG_PC_CUR, .ENG_STALL_COUNT, .ENG_STATUS_END_CODE, .ENG_STATUS_IN_HANDLER, .ENG_STATUS_STATE,
    .ENG_STRM_CTL_ENDED, .ENG_STRM_CTL_RATE, .ENG_STRM_POS_POS], [], [], false⟩

theorem State.stepItems_keeps {R : State → Prop} (hR : Keeps [.regs, .out, .stewards, .govs, .eng] opFieldsStepItems R) (s : State) (e w pc : Nat)
    (hI : R s) : R (State.stepItems s e w pc) := by
  unfold State.stepItems
  try dsimp only
  repeat' first
    | with_reducible assumption
    | exact hR.sub
    | exact fun h => memWf_memStore h
    | exact fun h => memWf_memPut h
    | exact fun h => memWf_filter _ h
    | exact fun _ => rfl
    | with_reducible apply rel_ite
    | with_reducible apply State.engFault_keeps
    | with_reducible apply State.engStall_keeps
    | with_reducible apply State.raise_keeps
    | with_reducible apply State.setEngine_keeps
    | with_reducible apply State.stepCommit_keeps
    | fail_if_no_progress (with_reducible apply hR.upd; all_goals try first | with_reducible exact .inr rfl | exact .inl (by decide +kernel) | exact id)
    | dsimp only
    | intro _ _
    | intro _
    | contradiction
    | (unfold id)
    | split
    | (rename_i hh; injection hh with hh; subst hh)
    | (rename_i hh; split at hh)

def opFieldsStepFill : FSet :=
  ⟨[.ENG_FAULT_CODE, .ENG_FAULT_DETAIL, .ENG_FAULT_PC, .ENG_FAULT_VALID, .ENG_GEN_V_VALUE, .ENG_LCNT_COUNT,
    .ENG_LREL_COUNT, .ENG_PC_CUR, .ENG_STALL_COUNT, .ENG_STATUS_END_CODE, .ENG_STATUS_IN_HANDLER, .ENG_STATUS_STATE,
    .ENG_STRM_CTL_ENDED, .ENG_STRM_CTL_RATE, .ENG_STRM_POS_POS], [], [], false⟩

theorem State.stepFill_keeps {R : State → Prop} (hR : Keeps [.regs, .out, .stewards, .govs, .eng] opFieldsStepFill R) (s : State) (e w pc : Nat)
    (hI : R s) : R (State.stepFill s e w pc) := by
  unfold State.stepFill
  try dsimp only
  repeat' first
    | with_reducible assumption
    | exact hR.sub
    | exact fun h => memWf_memStore h
    | exact fun h => memWf_memPut h
    | exact fun h => memWf_filter _ h
    | exact fun _ => rfl
    | with_reducible apply rel_ite
    | with_reducible refine hR.wr _ _ _ (by decide +kernel) (by first | decide +kernel | exact hasFld_self _ _ | exact hasFld_all _ | (simp [hasFld]; done) ) ?_
    | with_reducible apply State.setEngine_keeps
    | with_reducible apply State.stepItems_keeps
    | fail_if_no_progress (with_reducible apply hR.upd; all_goals try first | with_reducible exact .inr rfl | exact .inl (by decide +kernel) | exact id)
    | dsimp only
    | intro _ _
    | intro _
    | contradiction
    | (unfold id)
    | split
    | (rename_i hh; injection hh with hh; subst hh)
    | (rename_i hh; split at hh)

theorem State.engWait_keeps {R : State → Prop} (hR : Keeps [.regs, .eng] ⟨[.ENG_STATUS_STATE], [], [], false⟩ R) (s : State) (e : Nat) (k : WaitK)
    (hI : R s) : R (State.engWait s e k) := by
  unfold State.engWait
  try dsimp only
  repeat' first
    | with_reducible assumption
    | exact hR.sub
    | exact fun h => memWf_memStore h
    | exact fun h => memWf_memPut h
    | exact fun h => memWf_filter _ h
    | exact fun _ => rfl
    | with_reducible apply rel_ite
    | with_reducible refine hR.wr _ _ _ (by decide +kernel) (by first | decide +kernel | exact hasFld_self _ _ | exact hasFld_all _ | (simp [hasFld]; done) ) ?_
    | with_reducible apply State.setEngine_keeps
    | fail_if_no_progress (with_reducible apply hR.upd; all_goals try first | with_reducible exact .inr rfl | exact .inl (by decide +kernel) | exact id)
    | dsimp only
    | intro _ _
    | intro _
    | contradiction
    | (unfold id)
    | split
    | (rename_i hh; injection hh with hh; subst hh)
    | (rename_i hh; split at hh)

def opFieldsEngWaitOver : FSet :=
  ⟨[.ENG_FAULT_CODE, .ENG_FAULT_DETAIL, .ENG_FAULT_PC, .ENG_FAULT_VALID, .ENG_GEN_V_VALUE, .ENG_LCNT_COUNT,
    .ENG_LREL_COUNT, .ENG_PC_CUR, .ENG_STALL_COUNT, .ENG_STATUS_END_CODE, .ENG_STATUS_IN_HANDLER, .ENG_STATUS_STATE,
    .ENG_STRM_CTL_ENDED, .ENG_STRM_CTL_RATE, .ENG_STRM_POS_POS], [], [], false⟩

theorem State.engWaitOver_keeps {R : State → Prop} (hR : Keeps [.regs, .out, .stewards, .govs, .eng] opFieldsEngWaitOver R) (s : State) (e : Nat)
    (hI : R s) : R (State.engWaitOver s e) := by
  unfold State.engWaitOver
  try dsimp only
  repeat' first
    | with_reducible assumption
    | exact hR.sub
    | with_reducible apply rel_ite
    | with_reducible refine hR.wr _ _ _ (by decide +kernel) (by first | decide +kernel | exact hasFld_self _ _ | exact hasFld_all _ | (simp [hasFld]; done) ) ?_
    | with_reducible apply State.stepFill_keeps
    | dsimp only
    | intro _ _
    | intro _
    | contradiction
    | (unfold id)
    | split
    | (rename_i hh; injection hh with hh; subst hh)
    | (rename_i hh; split at hh)

theorem State.fixIssue_keeps {R : State → Prop} (hR : Keeps [.fixq] ⟨[], [], [], false⟩ R) (s : State) (f kind e id : Nat)
    (hI : R s) : R (State.fixIssue s f kind e id) := by
  unfold State.fixIssue
  try dsimp only
  repeat' first
    | with_reducible assumption
    | exact hR.sub
    | exact fun h => memWf_memStore h
    | exact fun h => memWf_memPut h
    | exact fun h => memWf_filter _ h
    | exact fun _ => rfl
    | with_reducible apply rel_ite
    | fail_if_no_progress (with_reducible apply hR.upd; all_goals try first | with_reducible exact .inr rfl | exact .inl (by decide +kernel) | exact id)
    | dsimp only
    | intro _ _
    | intro _
    | contradiction
    | (unfold id)
    | split
    | (rename_i hh; injection hh with hh; subst hh)
    | (rename_i hh; split at hh)

theorem State.syncSet_keeps {R : State → Prop} (hR : Keeps [.regs, .eng, .fixq] ⟨[.ENG_STATUS_STATE], [], [], false⟩ R) (s : State) (e f : Nat) (setIt : Bool)
    (hI : R s) : R (State.syncSet s e f setIt) := by
  unfold State.syncSet
  try dsimp only
  repeat' first
    | with_reducible assumption
    | exact hR.sub
    | exact fun h => memWf_memStore h
    | exact fun h => memWf_memPut h
    | exact fun h => memWf_filter _ h
    | exact fun _ => rfl
    | with_reducible apply rel_ite
    | with_reducible apply State.engWait_keeps
    | with_reducible apply State.fixIssue_keeps
    | with_reducible apply State.setEngine_keeps
    | fail_if_no_progress (with_reducible apply hR.upd; all_goals try first | with_reducible exact .inr rfl | exact .inl (by decide +kernel) | exact id)
    | dsimp only
    | intro _ _
    | intro _
    | contradiction
    | (unfold id)
    | split
    | (rename_i hh; injection hh with hh; subst hh)
    | (rename_i hh; split at hh)

theorem State.syncArrive_keeps {R : State → Prop} (hR : Keeps [.regs, .eng, .fixq] ⟨[.ENG_STATUS_STATE], [], [], false⟩ R) (s : State) (e f : Nat)
    (hI : R s) : R (State.syncArrive s e f) := by
  unfold State.syncArrive
  try dsimp only
  repeat' first
    | with_reducible assumption
    | exact hR.sub
    | exact fun h => memWf_memStore h
    | exact fun h => memWf_memPut h
    | exact fun h => memWf_filter _ h
    | exact fun _ => rfl
    | with_reducible apply rel_ite
    | with_reducible apply State.engWait_keeps
    | with_reducible apply State.fixIssue_keeps
    | with_reducible apply State.setEngine_keeps
    | fail_if_no_progress (with_reducible apply hR.upd; all_goals try first | with_reducible exact .inr rfl | exact .inl (by decide +kernel) | exact id)
    | dsimp only
    | intro _ _
    | intro _
    | contradiction
    | (unfold id)
    | split
    | (rename_i hh; injection hh with hh; subst hh)
    | (rename_i hh; split at hh)

def opFieldsSyncBegin : FSet :=
  ⟨[.ENG_FAULT_CODE, .ENG_FAULT_DETAIL, .ENG_FAULT_PC, .ENG_FAULT_VALID, .ENG_GEN_V_VALUE, .ENG_LCNT_COUNT,
    .ENG_LREL_COUNT, .ENG_PC_CUR, .ENG_STALL_COUNT, .ENG_STATUS_END_CODE, .ENG_STATUS_IN_HANDLER, .ENG_STATUS_STATE,
    .ENG_STRM_CTL_ENDED, .ENG_STRM_CTL_RATE, .ENG_STRM_POS_POS], [], [], false⟩

theorem State.syncBegin_keeps {R : State → Prop} (hR : Keeps [.regs, .out, .stewards, .govs, .eng, .fixq] opFieldsSyncBegin R) (s : State) (e w pc : Nat)
    (hI : R s) : R (State.syncBegin s e w pc) := by
  unfold State.syncBegin
  try dsimp only
  repeat' first
    | with_reducible assumption
    | exact hR.sub
    | exact fun h => memWf_memStore h
    | exact fun h => memWf_memPut h
    | exact fun h => memWf_filter _ h
    | exact fun _ => rfl
    | with_reducible apply rel_ite
    | with_reducible apply State.engWait_keeps
    | with_reducible apply State.stepFill_keeps
    | with_reducible apply State.syncArrive_keeps
    | with_reducible apply State.syncSet_keeps
    | fail_if_no_progress (with_reducible apply hR.upd; all_goals try first | with_reducible exact .inr rfl | exact .inl (by decide +kernel) | exact id)
    | dsimp only
    | intro _ _
    | intro _
    | contradiction
    | (unfold id)
    | split
    | (rename_i hh; injection hh with hh; subst hh)
    | (rename_i hh; split at hh)

def opFieldsStepBegin : FSet :=
  ⟨[.ENG_FAULT_CODE, .ENG_FAULT_DETAIL, .ENG_FAULT_PC, .ENG_FAULT_VALID, .ENG_GEN_V_VALUE, .ENG_LCNT_COUNT,
    .ENG_LREL_COUNT, .ENG_PC_CUR, .ENG_STALL_COUNT, .ENG_STATUS_END_CODE, .ENG_STATUS_IN_HANDLER, .ENG_STATUS_STATE,
    .ENG_STATUS_TLATE, .ENG_STRM_CTL_ENDED, .ENG_STRM_CTL_RATE, .ENG_STRM_POS_POS, .PG_ERR_OP, .PG_ERR_OVERSIZE,
    .PG_ERR_UNITS, .PG_ERR_VALID, .PG_TO_CNT_COUNT], [], [], false⟩

theorem State.stepBegin_keeps {R : State → Prop} (hR : Keeps [.regs, .out, .stewards, .govs, .eng, .fixq] opFieldsStepBegin R) (s : State) (e : Nat)
    (hI : R s) : R (State.stepBegin s e) := by
  unfold State.stepBegin
  try dsimp only
  repeat' first
    | with_reducible assumption
    | exact hR.sub
    | exact fun h => memWf_memStore h
    | exact fun h => memWf_memPut h
    | exact fun h => memWf_filter _ h
    | exact fun _ => rfl
    | with_reducible apply rel_ite
    | with_reducible refine hR.wr _ _ _ (by decide +kernel) (by first | decide +kernel | exact hasFld_self _ _ | exact hasFld_all _ | (simp [hasFld]; done) ) ?_
    | with_reducible apply State.engFault_keeps
    | with_reducible apply State.engWait_keeps
    | with_reducible apply State.request_keeps
    | with_reducible apply State.setEngine_keeps
    | with_reducible apply State.stepFill_keeps
    | with_reducible apply State.syncBegin_keeps
    | fail_if_no_progress (with_reducible apply hR.upd; all_goals try first | with_reducible exact .inr rfl | exact .inl (by decide +kernel) | exact id)
    | dsimp only
    | intro _ _
    | intro _
    | contradiction
    | (unfold id)
    | split
    | (rename_i hh; injection hh with hh; subst hh)
    | (rename_i hh; split at hh)

def opFieldsRunOp : FSet :=
  ⟨[.ENG_FAULT_CODE, .ENG_FAULT_DETAIL, .ENG_FAULT_PC, .ENG_FAULT_VALID, .ENG_GEN_V_VALUE, .ENG_LCNT_COUNT,
    .ENG_LREL_COUNT, .ENG_PC_CUR, .ENG_STALL_COUNT, .ENG_STATUS_END_CODE, .ENG_STATUS_IN_HANDLER, .ENG_STATUS_STATE,
    .ENG_STATUS_TLATE, .ENG_STRM_CTL_ENDED, .ENG_STRM_CTL_RATE, .ENG_STRM_POS_POS, .PG_ERR_OP, .PG_ERR_OVERSIZE,
    .PG_ERR_UNITS, .PG_ERR_VALID, .PG_TO_CNT_COUNT], [], [], false⟩

theorem State.runOp_keeps {R : State → Prop} (hR : Keeps [.regs, .out, .stewards, .govs, .eng, .fixq] opFieldsRunOp R) (s : State) (e op : Nat)
    (hI : R s) : R (State.runOp s e op) := by
  unfold State.runOp
  try dsimp only
  repeat' first
    | with_reducible assumption
    | exact hR.sub
    | with_reducible apply rel_ite
    | with_reducible apply State.stepBegin_keeps
    | dsimp only
    | intro _ _
    | intro _
    | contradiction
    | (unfold id)
    | split
    | (rename_i hh; injection hh with hh; subst hh)
    | (rename_i hh; split at hh)

theorem execEngNop_keeps {R : State → Prop} (hR : Keeps partsEngNop fieldsEngNop R) (e : Fin 96) (s : State)
    (hI : R s) {tT : State} (eE : execEngNop e s = .next tT) : R tT := by
  unfold execEngNop at eE
  try dsimp only at eE
  repeat' split at eE
  all_goals try (injection eE with eE; subst eE)
  all_goals repeat' first
    | with_reducible assumption
    | exact hR.sub
    | with_reducible apply rel_ite
    | with_reducible apply State.dirNext_keeps
    | with_reducible apply State.flashMessage_keeps
    | with_reducible apply State.message_keeps
    | with_reducible apply State.packageReset_keeps
    | with_reducible apply State.powerOn_keeps
    | with_reducible apply State.reach_keeps
    | with_reducible apply State.runOp_keeps
    | dsimp only
    | intro _ _
    | intro _
    | contradiction
    | (unfold id)
    | split
    | (rename_i hh; injection hh with hh; subst hh)
    | (rename_i hh; split at hh)

theorem execLoop_keeps {R : State → Prop} (hR : Keeps partsLoop fieldsLoop R) (e : Fin 96) (s : State)
    (hI : R s) {tT : State} (eE : execLoop e s = .next tT) : R tT := by
  unfold execLoop at eE
  try dsimp only at eE
  repeat' split at eE
  all_goals try (injection eE with eE; subst eE)
  all_goals repeat' first
    | with_reducible assumption
    | exact hR.sub
    | with_reducible apply rel_ite
    | with_reducible apply State.dirNext_keeps
    | with_reducible apply State.flashMessage_keeps
    | with_reducible apply State.message_keeps
    | with_reducible apply State.packageReset_keeps
    | with_reducible apply State.powerOn_keeps
    | with_reducible apply State.reach_keeps
    | with_reducible apply State.runOp_keeps
    | dsimp only
    | intro _ _
    | intro _
    | contradiction
    | (unfold id)
    | split
    | (rename_i hh; injection hh with hh; subst hh)
    | (rename_i hh; split at hh)

theorem execJmp_keeps {R : State → Prop} (hR : Keeps partsJmp fieldsJmp R) (e : Fin 96) (s : State)
    (hI : R s) {tT : State} (eE : execJmp e s = .next tT) : R tT := by
  unfold execJmp at eE
  try dsimp only at eE
  repeat' split at eE
  all_goals try (injection eE with eE; subst eE)
  all_goals repeat' first
    | with_reducible assumption
    | exact hR.sub
    | with_reducible apply rel_ite
    | with_reducible apply State.dirNext_keeps
    | with_reducible apply State.flashMessage_keeps
    | with_reducible apply State.message_keeps
    | with_reducible apply State.packageReset_keeps
    | with_reducible apply State.powerOn_keeps
    | with_reducible apply State.reach_keeps
    | with_reducible apply State.runOp_keeps
    | dsimp only
    | intro _ _
    | intro _
    | contradiction
    | (unfold id)
    | split
    | (rename_i hh; injection hh with hh; subst hh)
    | (rename_i hh; split at hh)

theorem execBr_keeps {R : State → Prop} (hR : Keeps partsBr fieldsBr R) (e : Fin 96) (s : State)
    (hI : R s) {tT : State} (eE : execBr e s = .next tT) : R tT := by
  unfold execBr at eE
  try dsimp only at eE
  repeat' split at eE
  all_goals try (injection eE with eE; subst eE)
  all_goals repeat' first
    | with_reducible assumption
    | exact hR.sub
    | with_reducible apply rel_ite
    | with_reducible apply State.dirNext_keeps
    | with_reducible apply State.flashMessage_keeps
    | with_reducible apply State.message_keeps
    | with_reducible apply State.packageReset_keeps
    | with_reducible apply State.powerOn_keeps
    | with_reducible apply State.reach_keeps
    | with_reducible apply State.runOp_keeps
    | dsimp only
    | intro _ _
    | intro _
    | contradiction
    | (unfold id)
    | split
    | (rename_i hh; injection hh with hh; subst hh)
    | (rename_i hh; split at hh)

theorem execCall_keeps {R : State → Prop} (hR : Keeps partsCall fieldsCall R) (e : Fin 96) (s : State)
    (hI : R s) {tT : State} (eE : execCall e s = .next tT) : R tT := by
  unfold execCall at eE
  try dsimp only at eE
  repeat' split at eE
  all_goals try (injection eE with eE; subst eE)
  all_goals repeat' first
    | with_reducible assumption
    | exact hR.sub
    | with_reducible apply rel_ite
    | with_reducible apply State.dirNext_keeps
    | with_reducible apply State.flashMessage_keeps
    | with_reducible apply State.message_keeps
    | with_reducible apply State.packageReset_keeps
    | with_reducible apply State.powerOn_keeps
    | with_reducible apply State.reach_keeps
    | with_reducible apply State.runOp_keeps
    | dsimp only
    | intro _ _
    | intro _
    | contradiction
    | (unfold id)
    | split
    | (rename_i hh; injection hh with hh; subst hh)
    | (rename_i hh; split at hh)

theorem execRet_keeps {R : State → Prop} (hR : Keeps partsRet fieldsRet R) (e : Fin 96) (s : State)
    (hI : R s) {tT : State} (eE : execRet e s = .next tT) : R tT := by
  unfold execRet at eE
  try dsimp only at eE
  repeat' split at eE
  all_goals try (injection eE with eE; subst eE)
  all_goals repeat' first
    | with_reducible assumption
    | exact hR.sub
    | with_reducible apply rel_ite
    | with_reducible apply State.dirNext_keeps
    | with_reducible apply State.flashMessage_keeps
    | with_reducible apply State.message_keeps
    | with_reducible apply State.packageReset_keeps
    | with_reducible apply State.powerOn_keeps
    | with_reducible apply State.reach_keeps
    | with_reducible apply State.runOp_keeps
    | dsimp only
    | intro _ _
    | intro _
    | contradiction
    | (unfold id)
    | split
    | (rename_i hh; injection hh with hh; subst hh)
    | (rename_i hh; split at hh)

theorem execWait_keeps {R : State → Prop} (hR : Keeps partsWait fieldsWait R) (e : Fin 96) (s : State)
    (hI : R s) {tT : State} (eE : execWait e s = .next tT) : R tT := by
  unfold execWait at eE
  try dsimp only at eE
  repeat' split at eE
  all_goals try (injection eE with eE; subst eE)
  all_goals repeat' first
    | with_reducible assumption
    | exact hR.sub
    | with_reducible apply rel_ite
    | with_reducible apply State.dirNext_keeps
    | with_reducible apply State.flashMessage_keeps
    | with_reducible apply State.message_keeps
    | with_reducible apply State.packageReset_keeps
    | with_reducible apply State.powerOn_keeps
    | with_reducible apply State.reach_keeps
    | with_reducible apply State.runOp_keeps
    | dsimp only
    | intro _ _
    | intro _
    | contradiction
    | (unfold id)
    | split
    | (rename_i hh; injection hh with hh; subst hh)
    | (rename_i hh; split at hh)

theorem execDrain_keeps {R : State → Prop} (hR : Keeps partsDrain fieldsDrain R) (e : Fin 96) (s : State)
    (hI : R s) {tT : State} (eE : execDrain e s = .next tT) : R tT := by
  unfold execDrain at eE
  try dsimp only at eE
  repeat' split at eE
  all_goals try (injection eE with eE; subst eE)
  all_goals repeat' first
    | with_reducible assumption
    | exact hR.sub
    | with_reducible apply rel_ite
    | with_reducible apply State.dirNext_keeps
    | with_reducible apply State.flashMessage_keeps
    | with_reducible apply State.message_keeps
    | with_reducible apply State.packageReset_keeps
    | with_reducible apply State.powerOn_keeps
    | with_reducible apply State.reach_keeps
    | with_reducible apply State.runOp_keeps
    | dsimp only
    | intro _ _
    | intro _
    | contradiction
    | (unfold id)
    | split
    | (rename_i hh; injection hh with hh; subst hh)
    | (rename_i hh; split at hh)

theorem execSync_keeps {R : State → Prop} (hR : Keeps partsSync fieldsSync R) (e : Fin 96) (s : State)
    (hI : R s) {tT : State} (eE : execSync e s = .next tT) : R tT := by
  unfold execSync at eE
  try dsimp only at eE
  repeat' split at eE
  all_goals try (injection eE with eE; subst eE)
  all_goals repeat' first
    | with_reducible assumption
    | exact hR.sub
    | with_reducible apply rel_ite
    | with_reducible apply State.dirNext_keeps
    | with_reducible apply State.flashMessage_keeps
    | with_reducible apply State.message_keeps
    | with_reducible apply State.packageReset_keeps
    | with_reducible apply State.powerOn_keeps
    | with_reducible apply State.reach_keeps
    | with_reducible apply State.runOp_keeps
    | dsimp only
    | intro _ _
    | intro _
    | contradiction
    | (unfold id)
    | split
    | (rename_i hh; injection hh with hh; subst hh)
    | (rename_i hh; split at hh)

theorem execWaitt_keeps {R : State → Prop} (hR : Keeps partsWaitt fieldsWaitt R) (e : Fin 96) (s : State)
    (hI : R s) {tT : State} (eE : execWaitt e s = .next tT) : R tT := by
  unfold execWaitt at eE
  try dsimp only at eE
  repeat' split at eE
  all_goals try (injection eE with eE; subst eE)
  all_goals repeat' first
    | with_reducible assumption
    | exact hR.sub
    | with_reducible apply rel_ite
    | with_reducible apply State.dirNext_keeps
    | with_reducible apply State.flashMessage_keeps
    | with_reducible apply State.message_keeps
    | with_reducible apply State.packageReset_keeps
    | with_reducible apply State.powerOn_keeps
    | with_reducible apply State.reach_keeps
    | with_reducible apply State.runOp_keeps
    | dsimp only
    | intro _ _
    | intro _
    | contradiction
    | (unfold id)
    | split
    | (rename_i hh; injection hh with hh; subst hh)
    | (rename_i hh; split at hh)

theorem execSetl_keeps {R : State → Prop} (hR : Keeps partsSetl fieldsSetl R) (e : Fin 96) (s : State)
    (hI : R s) {tT : State} (eE : execSetl e s = .next tT) : R tT := by
  unfold execSetl at eE
  try dsimp only at eE
  repeat' split at eE
  all_goals try (injection eE with eE; subst eE)
  all_goals repeat' first
    | with_reducible assumption
    | exact hR.sub
    | with_reducible apply rel_ite
    | with_reducible apply State.dirNext_keeps
    | with_reducible apply State.flashMessage_keeps
    | with_reducible apply State.message_keeps
    | with_reducible apply State.packageReset_keeps
    | with_reducible apply State.powerOn_keeps
    | with_reducible apply State.reach_keeps
    | with_reducible apply State.runOp_keeps
    | dsimp only
    | intro _ _
    | intro _
    | contradiction
    | (unfold id)
    | split
    | (rename_i hh; injection hh with hh; subst hh)
    | (rename_i hh; split at hh)

theorem execStrm_keeps {R : State → Prop} (hR : Keeps partsStrm fieldsStrm R) (e : Fin 96) (s : State)
    (hI : R s) {tT : State} (eE : execStrm e s = .next tT) : R tT := by
  unfold execStrm at eE
  try dsimp only at eE
  repeat' split at eE
  all_goals try (injection eE with eE; subst eE)
  all_goals repeat' first
    | with_reducible assumption
    | exact hR.sub
    | with_reducible apply rel_ite
    | with_reducible apply State.dirNext_keeps
    | with_reducible apply State.flashMessage_keeps
    | with_reducible apply State.message_keeps
    | with_reducible apply State.packageReset_keeps
    | with_reducible apply State.powerOn_keeps
    | with_reducible apply State.reach_keeps
    | with_reducible apply State.runOp_keeps
    | dsimp only
    | intro _ _
    | intro _
    | contradiction
    | (unfold id)
    | split
    | (rename_i hh; injection hh with hh; subst hh)
    | (rename_i hh; split at hh)

theorem execRate_keeps {R : State → Prop} (hR : Keeps partsRate fieldsRate R) (e : Fin 96) (s : State)
    (hI : R s) {tT : State} (eE : execRate e s = .next tT) : R tT := by
  unfold execRate at eE
  try dsimp only at eE
  repeat' split at eE
  all_goals try (injection eE with eE; subst eE)
  all_goals repeat' first
    | with_reducible assumption
    | exact hR.sub
    | with_reducible apply rel_ite
    | with_reducible apply State.dirNext_keeps
    | with_reducible apply State.flashMessage_keeps
    | with_reducible apply State.message_keeps
    | with_reducible apply State.packageReset_keeps
    | with_reducible apply State.powerOn_keeps
    | with_reducible apply State.reach_keeps
    | with_reducible apply State.runOp_keeps
    | dsimp only
    | intro _ _
    | intro _
    | contradiction
    | (unfold id)
    | split
    | (rename_i hh; injection hh with hh; subst hh)
    | (rename_i hh; split at hh)

theorem execEvt_keeps {R : State → Prop} (hR : Keeps partsEvt fieldsEvt R) (e : Fin 96) (s : State)
    (hI : R s) {tT : State} (eE : execEvt e s = .next tT) : R tT := by
  unfold execEvt at eE
  try dsimp only at eE
  repeat' split at eE
  all_goals try (injection eE with eE; subst eE)
  all_goals repeat' first
    | with_reducible assumption
    | exact hR.sub
    | with_reducible apply rel_ite
    | with_reducible apply State.dirNext_keeps
    | with_reducible apply State.flashMessage_keeps
    | with_reducible apply State.message_keeps
    | with_reducible apply State.packageReset_keeps
    | with_reducible apply State.powerOn_keeps
    | with_reducible apply State.reach_keeps
    | with_reducible apply State.runOp_keeps
    | dsimp only
    | intro _ _
    | intro _
    | contradiction
    | (unfold id)
    | split
    | (rename_i hh; injection hh with hh; subst hh)
    | (rename_i hh; split at hh)

theorem execHalt_keeps {R : State → Prop} (hR : Keeps partsHalt fieldsHalt R) (e : Fin 96) (s : State)
    (hI : R s) {tT : State} (eE : execHalt e s = .next tT) : R tT := by
  unfold execHalt at eE
  try dsimp only at eE
  repeat' split at eE
  all_goals try (injection eE with eE; subst eE)
  all_goals repeat' first
    | with_reducible assumption
    | exact hR.sub
    | with_reducible apply rel_ite
    | with_reducible apply State.dirNext_keeps
    | with_reducible apply State.flashMessage_keeps
    | with_reducible apply State.message_keeps
    | with_reducible apply State.packageReset_keeps
    | with_reducible apply State.powerOn_keeps
    | with_reducible apply State.reach_keeps
    | with_reducible apply State.runOp_keeps
    | dsimp only
    | intro _ _
    | intro _
    | contradiction
    | (unfold id)
    | split
    | (rename_i hh; injection hh with hh; subst hh)
    | (rename_i hh; split at hh)

theorem execEngCmdStep_keeps {R : State → Prop} (hR : Keeps partsEngCmdStep fieldsEngCmdStep R) (w : Writer) (e : Fin 96) (s : State)
    (hI : R s) {tT : State} (eE : execEngCmdStep w e s = .next tT) : R tT := by
  unfold execEngCmdStep at eE
  try dsimp only at eE
  repeat' split at eE
  all_goals try (injection eE with eE; subst eE)
  all_goals repeat' first
    | with_reducible assumption
    | exact hR.sub
    | exact fun h => memWf_memStore h
    | exact fun h => memWf_memPut h
    | exact fun h => memWf_filter _ h
    | exact fun _ => rfl
    | with_reducible apply rel_ite
    | with_reducible refine hR.wr _ _ _ (by decide +kernel) (by first | decide +kernel | exact hasFld_self _ _ | exact hasFld_all _ | (simp [hasFld]; done) ) ?_
    | with_reducible apply State.dirNext_keeps
    | with_reducible apply State.engCmd_keeps
    | with_reducible apply State.flashMessage_keeps
    | with_reducible apply State.message_keeps
    | with_reducible apply State.packageReset_keeps
    | with_reducible apply State.powerOn_keeps
    | with_reducible apply State.reach_keeps
    | with_reducible apply State.setEngine_keeps
    | with_reducible apply State.stepBegin_keeps
    | with_reducible apply State.tmrRun_keeps
    | fail_if_no_progress (with_reducible apply hR.upd; all_goals try first | with_reducible exact .inr rfl | exact .inl (by decide +kernel) | exact id)
    | dsimp only
    | intro _ _
    | intro _
    | contradiction
    | (unfold id)
    | split
    | (rename_i hh; injection hh with hh; subst hh)
    | (rename_i hh; split at hh)

theorem execWaitEnd_keeps {R : State → Prop} (hR : Keeps partsWaitEnd fieldsWaitEnd R) (e : Fin 96) (s : State)
    (hI : R s) {tT : State} (eE : execWaitEnd e s = .next tT) : R tT := by
  unfold execWaitEnd at eE
  try dsimp only at eE
  repeat' split at eE
  all_goals try (injection eE with eE; subst eE)
  all_goals repeat' first
    | with_reducible assumption
    | exact hR.sub
    | exact fun h => memWf_memStore h
    | exact fun h => memWf_memPut h
    | exact fun h => memWf_filter _ h
    | exact fun _ => rfl
    | with_reducible apply rel_ite
    | with_reducible apply State.dirNext_keeps
    | with_reducible apply State.engWaitOver_keeps
    | with_reducible apply State.flashMessage_keeps
    | with_reducible apply State.lapseTo_keeps
    | with_reducible apply State.message_keeps
    | with_reducible apply State.packageReset_keeps
    | with_reducible apply State.powerOn_keeps
    | with_reducible apply State.reach_keeps
    | fail_if_no_progress (with_reducible apply hR.upd; all_goals try first | with_reducible exact .inr rfl | exact .inl (by decide +kernel) | exact id)
    | dsimp only
    | intro _ _
    | intro _
    | contradiction
    | (unfold id)
    | split
    | (rename_i hh; injection hh with hh; subst hh)
    | (rename_i hh; split at hh)

theorem execDrainDone_keeps {R : State → Prop} (hR : Keeps partsDrainDone fieldsDrainDone R) (e : Fin 96) (s : State)
    (hI : R s) {tT : State} (eE : execDrainDone e s = .next tT) : R tT := by
  unfold execDrainDone at eE
  try dsimp only at eE
  repeat' split at eE
  all_goals try (injection eE with eE; subst eE)
  all_goals repeat' first
    | with_reducible assumption
    | exact hR.sub
    | exact fun h => memWf_memStore h
    | exact fun h => memWf_memPut h
    | exact fun h => memWf_filter _ h
    | exact fun _ => rfl
    | with_reducible apply rel_ite
    | with_reducible apply State.dirNext_keeps
    | with_reducible apply State.engWaitOver_keeps
    | with_reducible apply State.flashMessage_keeps
    | with_reducible apply State.lapseTo_keeps
    | with_reducible apply State.message_keeps
    | with_reducible apply State.packageReset_keeps
    | with_reducible apply State.powerOn_keeps
    | with_reducible apply State.reach_keeps
    | fail_if_no_progress (with_reducible apply hR.upd; all_goals try first | with_reducible exact .inr rfl | exact .inl (by decide +kernel) | exact id)
    | dsimp only
    | intro _ _
    | intro _
    | contradiction
    | (unfold id)
    | split
    | (rename_i hh; injection hh with hh; subst hh)
    | (rename_i hh; split at hh)

theorem execWaittTrigger_keeps {R : State → Prop} (hR : Keeps partsWaittTrigger fieldsWaittTrigger R) (e : Fin 96) (s : State)
    (hI : R s) {tT : State} (eE : execWaittTrigger e s = .next tT) : R tT := by
  unfold execWaittTrigger at eE
  try dsimp only at eE
  repeat' split at eE
  all_goals try (injection eE with eE; subst eE)
  all_goals repeat' first
    | with_reducible assumption
    | exact hR.sub
    | exact fun h => memWf_memStore h
    | exact fun h => memWf_memPut h
    | exact fun h => memWf_filter _ h
    | exact fun _ => rfl
    | with_reducible apply rel_ite
    | with_reducible apply State.dirNext_keeps
    | with_reducible apply State.engWaitOver_keeps
    | with_reducible apply State.flashMessage_keeps
    | with_reducible apply State.lapseToLocal_keeps
    | with_reducible apply State.message_keeps
    | with_reducible apply State.packageReset_keeps
    | with_reducible apply State.powerOn_keeps
    | with_reducible apply State.reach_keeps
    | fail_if_no_progress (with_reducible apply hR.upd; all_goals try first | with_reducible exact .inr rfl | exact .inl (by decide +kernel) | exact id)
    | dsimp only
    | intro _ _
    | intro _
    | contradiction
    | (unfold id)
    | split
    | (rename_i hh; injection hh with hh; subst hh)
    | (rename_i hh; split at hh)

theorem execRatePermitGrant_keeps {R : State → Prop} (hR : Keeps partsRatePermitGrant fieldsRatePermitGrant R) (e : Fin 96) (s : State)
    (hI : R s) {tT : State} (eE : execRatePermitGrant e s = .next tT) : R tT := by
  unfold execRatePermitGrant at eE
  try dsimp only at eE
  repeat' split at eE
  all_goals try (injection eE with eE; subst eE)
  all_goals repeat' first
    | with_reducible assumption
    | exact hR.sub
    | exact fun h => memWf_memStore h
    | exact fun h => memWf_memPut h
    | exact fun h => memWf_filter _ h
    | exact fun _ => rfl
    | with_reducible apply rel_ite
    | with_reducible apply State.dirNext_keeps
    | with_reducible apply State.engWaitOver_keeps
    | with_reducible apply State.flashMessage_keeps
    | with_reducible apply State.message_keeps
    | with_reducible apply State.packageReset_keeps
    | with_reducible apply State.powerOn_keeps
    | with_reducible apply State.reach_keeps
    | (refine State.takeGrant_keeps hR.sub _ _ _ _ ?_ (by assumption))
    | fail_if_no_progress (with_reducible apply hR.upd; all_goals try first | with_reducible exact .inr rfl | exact .inl (by decide +kernel) | exact id)
    | dsimp only
    | intro _ _
    | intro _
    | contradiction
    | (unfold id)
    | split
    | (rename_i hh; injection hh with hh; subst hh)
    | (rename_i hh; split at hh)

theorem execEngPermitTimeout_keeps {R : State → Prop} (hR : Keeps partsEngPermitTimeout fieldsEngPermitTimeout R) (e : Fin 96) (s : State)
    (hI : R s) {tT : State} (eE : execEngPermitTimeout e s = .next tT) : R tT := by
  unfold execEngPermitTimeout at eE
  try dsimp only at eE
  repeat' split at eE
  all_goals try (injection eE with eE; subst eE)
  all_goals repeat' first
    | with_reducible assumption
    | exact hR.sub
    | exact fun h => memWf_memStore h
    | exact fun h => memWf_memPut h
    | exact fun h => memWf_filter _ h
    | exact fun _ => rfl
    | with_reducible apply rel_ite
    | with_reducible apply State.dirNext_keeps
    | with_reducible apply State.engFault_keeps
    | with_reducible apply State.flashMessage_keeps
    | with_reducible apply State.message_keeps
    | with_reducible apply State.packageReset_keeps
    | with_reducible apply State.powerOn_keeps
    | with_reducible apply State.reach_keeps
    | (refine State.takeTimeout_keeps hR.sub _ _ _ _ ?_ (by assumption))
    | fail_if_no_progress (with_reducible apply hR.upd; all_goals try first | with_reducible exact .inr rfl | exact .inl (by decide +kernel) | exact id)
    | dsimp only
    | intro _ _
    | intro _
    | contradiction
    | (unfold id)
    | split
    | (rename_i hh; injection hh with hh; subst hh)
    | (rename_i hh; split at hh)

theorem execEngTimerExpiry_keeps {R : State → Prop} (hR : Keeps partsEngTimerExpiry fieldsEngTimerExpiry R) (e : Fin 96) (s : State)
    (hI : R s) {tT : State} (eE : execEngTimerExpiry e s = .next tT) : R tT := by
  unfold execEngTimerExpiry at eE
  try dsimp only at eE
  repeat' split at eE
  all_goals try (injection eE with eE; subst eE)
  all_goals repeat' first
    | with_reducible assumption
    | exact hR.sub
    | exact fun h => memWf_memStore h
    | exact fun h => memWf_memPut h
    | exact fun h => memWf_filter _ h
    | exact fun _ => rfl
    | with_reducible apply rel_ite
    | with_reducible refine hR.wr _ _ _ (by decide +kernel) (by first | decide +kernel | exact hasFld_self _ _ | exact hasFld_all _ | (simp [hasFld]; done) ) ?_
    | with_reducible apply State.dirNext_keeps
    | with_reducible apply State.flashMessage_keeps
    | with_reducible apply State.lapseTo_keeps
    | with_reducible apply State.message_keeps
    | with_reducible apply State.packageReset_keeps
    | with_reducible apply State.powerOn_keeps
    | with_reducible apply State.raise_keeps
    | with_reducible apply State.reach_keeps
    | with_reducible apply State.setEngine_keeps
    | fail_if_no_progress (with_reducible apply hR.upd; all_goals try first | with_reducible exact .inr rfl | exact .inl (by decide +kernel) | exact id)
    | dsimp only
    | intro _ _
    | intro _
    | contradiction
    | (unfold id)
    | split
    | (rename_i hh; injection hh with hh; subst hh)
    | (rename_i hh; split at hh)

theorem execEngStepUnstall_keeps {R : State → Prop} (hR : Keeps partsEngStepUnstall fieldsEngStepUnstall R) (e : Fin 96) (s : State)
    (hI : R s) {tT : State} (eE : execEngStepUnstall e s = .next tT) : R tT := by
  unfold execEngStepUnstall at eE
  try dsimp only at eE
  repeat' split at eE
  all_goals try (injection eE with eE; subst eE)
  all_goals repeat' first
    | with_reducible assumption
    | exact hR.sub
    | with_reducible apply rel_ite
    | with_reducible apply State.dirNext_keeps
    | with_reducible apply State.flashMessage_keeps
    | with_reducible apply State.message_keeps
    | with_reducible apply State.packageReset_keeps
    | with_reducible apply State.powerOn_keeps
    | with_reducible apply State.reach_keeps
    | with_reducible apply State.stepItems_keeps
    | dsimp only
    | intro _ _
    | intro _
    | contradiction
    | (unfold id)
    | split
    | (rename_i hh; injection hh with hh; subst hh)
    | (rename_i hh; split at hh)

theorem execStreamFillDone_keeps {R : State → Prop} (hR : Keeps partsStreamFillDone fieldsStreamFillDone R) (e : Fin 96) (s : State)
    (hI : R s) {tT : State} (eE : execStreamFillDone e s = .next tT) : R tT := by
  unfold execStreamFillDone at eE
  try dsimp only at eE
  repeat' split at eE
  all_goals try (injection eE with eE; subst eE)
  all_goals repeat' first
    | with_reducible assumption
    | exact hR.sub
    | exact fun h => memWf_memStore h
    | exact fun h => memWf_memPut h
    | exact fun h => memWf_filter _ h
    | exact fun _ => rfl
    | with_reducible apply rel_ite
    | with_reducible apply State.dirNext_keeps
    | with_reducible apply State.engWaitOver_keeps
    | with_reducible apply State.flashMessage_keeps
    | with_reducible apply State.message_keeps
    | with_reducible apply State.packageReset_keeps
    | with_reducible apply State.powerOn_keeps
    | with_reducible apply State.reach_keeps
    | fail_if_no_progress (with_reducible apply hR.upd; all_goals try first | with_reducible exact .inr rfl | exact .inl (by decide +kernel) | exact id)
    | dsimp only
    | intro _ _
    | intro _
    | contradiction
    | (unfold id)
    | split
    | (rename_i hh; injection hh with hh; subst hh)
    | (rename_i hh; split at hh)

theorem execStreamReadIssue_keeps {R : State → Prop} (hR : Keeps partsStreamReadIssue fieldsStreamReadIssue R) (e : Fin 96) (s : State)
    (hI : R s) {tT : State} (eE : execStreamReadIssue e s = .next tT) : R tT := by
  unfold execStreamReadIssue at eE
  try dsimp only at eE
  repeat' split at eE
  all_goals try (injection eE with eE; subst eE)
  all_goals repeat' first
    | with_reducible assumption
    | exact hR.sub
    | exact fun h => memWf_memStore h
    | exact fun h => memWf_memPut h
    | exact fun h => memWf_filter _ h
    | exact fun _ => rfl
    | with_reducible apply rel_ite
    | with_reducible apply State.dirNext_keeps
    | with_reducible apply State.flashMessage_keeps
    | with_reducible apply State.lapseTo_keeps
    | with_reducible apply State.message_keeps
    | with_reducible apply State.packageReset_keeps
    | with_reducible apply State.powerOn_keeps
    | with_reducible apply State.reach_keeps
    | with_reducible apply State.setEngine_keeps
    | fail_if_no_progress (with_reducible apply hR.upd; all_goals try first | with_reducible exact .inr rfl | exact .inl (by decide +kernel) | exact id)
    | dsimp only
    | intro _ _
    | intro _
    | contradiction
    | (unfold id)
    | split
    | (rename_i hh; injection hh with hh; subst hh)
    | (rename_i hh; split at hh)

theorem execStreamReadComplete_keeps {R : State → Prop} (hR : Keeps partsStreamReadComplete fieldsStreamReadComplete R) (e : Fin 96) (n : Nat) (data : BitVec 512) (status : Fin 4) (s : State)
    (hI : R s) {tT : State} (eE : execStreamReadComplete e n data status s = .next tT) : R tT := by
  unfold execStreamReadComplete at eE
  split at eE
  · generalize hg : s.gRead _ _ _ = p at eE
    obtain ⟨d, c, s1⟩ := p
    have h1 := State.gRead_keeps_of hR.sub _ _ _ _ hI hg
    injection eE with eE; subst eE
    exact State.setEngine_keeps hR.sub _ _ _ h1
  · injection eE with eE; subst eE; exact hI

theorem State.bcast_keeps {R : State → Prop} (hR : Keeps [.bcasts] ⟨[], [], [], false⟩ R) (s : State) (o : FixOp) (rebase : Bool)
    (hI : R s) : R (State.bcast s o rebase) := by
  unfold State.bcast
  try dsimp only
  repeat' first
    | with_reducible assumption
    | exact hR.sub
    | exact fun h => memWf_memStore h
    | exact fun h => memWf_memPut h
    | exact fun h => memWf_filter _ h
    | exact fun _ => rfl
    | with_reducible apply rel_ite
    | fail_if_no_progress (with_reducible apply hR.upd; all_goals try first | with_reducible exact .inr rfl | exact .inl (by decide +kernel) | exact id)
    | dsimp only
    | intro _ _
    | intro _
    | contradiction
    | (unfold id)
    | split
    | (rename_i hh; injection hh with hh; subst hh)
    | (rename_i hh; split at hh)

theorem State.mapArrival_keeps {R : State → Prop} (hR : Keeps [.eng] ⟨[], [], [], false⟩ R) (s : State) (e : Nat) (k : Arrival → Arrival)
    (hI : R s) : R (State.mapArrival s e k) := by
  unfold State.mapArrival
  try dsimp only
  repeat' first
    | with_reducible assumption
    | exact hR.sub
    | exact fun h => memWf_memStore h
    | exact fun h => memWf_memPut h
    | exact fun h => memWf_filter _ h
    | exact fun _ => rfl
    | with_reducible apply rel_ite
    | with_reducible apply State.setEngine_keeps
    | fail_if_no_progress (with_reducible apply hR.upd; all_goals try first | with_reducible exact .inr rfl | exact .inl (by decide +kernel) | exact id)
    | dsimp only
    | intro _ _
    | intro _
    | contradiction
    | (unfold id)
    | split
    | (rename_i hh; injection hh with hh; subst hh)
    | (rename_i hh; split at hh)

theorem State.arrCounted_keeps {R : State → Prop} (hR : Keeps [.eng] ⟨[], [], [], false⟩ R) (s : State) (e id : Nat) (g : Bool)
    (hI : R s) : R (State.arrCounted s e id g) := by
  unfold State.arrCounted
  try dsimp only
  repeat' first
    | with_reducible assumption
    | exact hR.sub
    | exact fun h => memWf_memStore h
    | exact fun h => memWf_memPut h
    | exact fun h => memWf_filter _ h
    | exact fun _ => rfl
    | with_reducible apply rel_ite
    | with_reducible apply State.mapArrival_keeps
    | fail_if_no_progress (with_reducible apply hR.upd; all_goals try first | with_reducible exact .inr rfl | exact .inl (by decide +kernel) | exact id)
    | dsimp only
    | intro _ _
    | intro _
    | contradiction
    | (unfold id)
    | split
    | (rename_i hh; injection hh with hh; subst hh)
    | (rename_i hh; split at hh)

theorem State.arrRefused_keeps {R : State → Prop} (hR : Keeps [.regs, .stewards, .govs, .eng] ⟨[.ENG_FAULT_CODE, .ENG_FAULT_DETAIL, .ENG_FAULT_PC, .ENG_FAULT_VALID, .ENG_STATUS_STATE], [], [], false⟩ R) (s : State) (e id : Nat)
    (hI : R s) : R (State.arrRefused s e id) := by
  unfold State.arrRefused
  dsimp only
  split
  · exact rel_ite (State.engFault_keeps hR.sub _ _ _ _ _ hI) hI
  · exact State.setEngine_keeps hR.sub _ _ _ hI

def opFieldsFixApply : FSet :=
  ⟨[.ENG_FAULT_CODE, .ENG_FAULT_DETAIL, .ENG_FAULT_PC, .ENG_FAULT_VALID, .ENG_STATUS_STATE, .FIX_STAT_COUNT,
    .FIX_STAT_FLAG, .FIX_STAT_GEN], [], [], false⟩

theorem State.fixApply_keeps {R : State → Prop} (hR : Keeps [.regs, .stewards, .govs, .eng, .bcasts] opFieldsFixApply R) (s : State) (o : FixOp)
    (hI : R s) : R (State.fixApply s o) := by
  unfold State.fixApply
  try dsimp only
  repeat' first
    | with_reducible assumption
    | exact hR.sub
    | exact fun h => memWf_memStore h
    | exact fun h => memWf_memPut h
    | exact fun h => memWf_filter _ h
    | exact fun _ => rfl
    | with_reducible apply rel_ite
    | with_reducible refine hR.wr _ _ _ (by decide +kernel) (by first | decide +kernel | exact hasFld_self _ _ | exact hasFld_all _ | (simp [hasFld]; done) ) ?_
    | with_reducible apply State.arrCounted_keeps
    | with_reducible apply State.arrRefused_keeps
    | with_reducible apply State.bcast_keeps
    | fail_if_no_progress (with_reducible apply hR.upd; all_goals try first | with_reducible exact .inr rfl | exact .inl (by decide +kernel) | exact id)
    | dsimp only
    | intro _ _
    | intro _
    | contradiction
    | (unfold id)
    | split
    | (rename_i hh; injection hh with hh; subst hh)
    | (rename_i hh; split at hh)

theorem execFixPointApply_keeps {R : State → Prop} (hR : Keeps partsFixPointApply fieldsFixPointApply R) (n : Nat) (s : State)
    (hI : R s) {tT : State} (eE : execFixPointApply n s = .next tT) : R tT := by
  unfold execFixPointApply at eE
  try dsimp only at eE
  repeat' split at eE
  all_goals try (injection eE with eE; subst eE)
  all_goals repeat' first
    | with_reducible assumption
    | exact hR.sub
    | exact fun h => memWf_memStore h
    | exact fun h => memWf_memPut h
    | exact fun h => memWf_filter _ h
    | exact fun _ => rfl
    | with_reducible apply rel_ite
    | with_reducible apply State.dirNext_keeps
    | with_reducible apply State.drop_keeps
    | with_reducible apply State.fixApply_keeps
    | with_reducible apply State.flashMessage_keeps
    | with_reducible apply State.lapse_keeps
    | with_reducible apply State.message_keeps
    | with_reducible apply State.packageReset_keeps
    | with_reducible apply State.powerOn_keeps
    | with_reducible apply State.reach_keeps
    | (with_reducible apply rel_foldl; intro _ _ _)
    | (with_reducible apply rel_foldl2; intro _ _ _)
    | (with_reducible apply rel_foldl3; intro _ _ _)
    | (with_reducible apply rel_foldl1; intro _ _ _)
    | fail_if_no_progress (with_reducible apply hR.upd; all_goals try first | with_reducible exact .inr rfl | exact .inl (by decide +kernel) | exact id)
    | dsimp only
    | intro _ _
    | intro _
    | contradiction
    | (unfold id)
    | split
    | (rename_i hh; injection hh with hh; subst hh)
    | (rename_i hh; split at hh)

def opFieldsSeeOne : FSet :=
  ⟨[.ENG_FAULT_CODE, .ENG_FAULT_DETAIL, .ENG_FAULT_PC, .ENG_FAULT_VALID, .ENG_GEN_V_VALUE, .ENG_LCNT_COUNT,
    .ENG_LREL_COUNT, .ENG_PC_CUR, .ENG_STALL_COUNT, .ENG_STATUS_END_CODE, .ENG_STATUS_IN_HANDLER, .ENG_STATUS_STATE,
    .ENG_STRM_CTL_ENDED, .ENG_STRM_CTL_RATE, .ENG_STRM_POS_POS], [], [], false⟩

theorem State.seeOne_keeps {R : State → Prop} (hR : Keeps [.regs, .out, .stewards, .govs, .eng] opFieldsSeeOne R) (s : State) (e : Nat)
    (hI : R s) : R (State.seeOne s e) := by
  unfold State.seeOne
  try dsimp only
  repeat' first
    | with_reducible assumption
    | exact hR.sub
    | exact fun h => memWf_memStore h
    | exact fun h => memWf_memPut h
    | exact fun h => memWf_filter _ h
    | exact fun _ => rfl
    | with_reducible apply rel_ite
    | with_reducible apply State.engWaitOver_keeps
    | with_reducible apply State.mapArrival_keeps
    | with_reducible apply State.setEngine_keeps
    | fail_if_no_progress (with_reducible apply hR.upd; all_goals try first | with_reducible exact .inr rfl | exact .inl (by decide +kernel) | exact id)
    | dsimp only
    | intro _ _
    | intro _
    | contradiction
    | (unfold id)
    | split
    | (rename_i hh; injection hh with hh; subst hh)
    | (rename_i hh; split at hh)

theorem execSyncBroadcastSeen_keeps {R : State → Prop} (hR : Keeps partsSyncBroadcastSeen fieldsSyncBroadcastSeen R) (e : Fin 96) (s : State)
    (hI : R s) {tT : State} (eE : execSyncBroadcastSeen e s = .next tT) : R tT := by
  unfold execSyncBroadcastSeen at eE
  try dsimp only at eE
  repeat' split at eE
  all_goals try (injection eE with eE; subst eE)
  all_goals repeat' first
    | with_reducible assumption
    | exact hR.sub
    | with_reducible apply rel_ite
    | with_reducible apply State.dirNext_keeps
    | with_reducible apply State.flashMessage_keeps
    | with_reducible apply State.message_keeps
    | with_reducible apply State.packageReset_keeps
    | with_reducible apply State.powerOn_keeps
    | with_reducible apply State.reach_keeps
    | with_reducible apply State.seeOne_keeps
    | dsimp only
    | intro _ _
    | intro _
    | contradiction
    | (unfold id)
    | split
    | (rename_i hh; injection hh with hh; subst hh)
    | (rename_i hh; split at hh)

theorem State.fixHost_keeps {R : State → Prop} (hR : Keeps [.fixq] ⟨[], [], [], false⟩ R) (s : State) (f kind : Nat)
    (hI : R s) : R (State.fixHost s f kind) := by
  unfold State.fixHost
  try dsimp only
  repeat' first
    | with_reducible assumption
    | exact hR.sub
    | exact fun h => memWf_memStore h
    | exact fun h => memWf_memPut h
    | exact fun h => memWf_filter _ h
    | exact fun _ => rfl
    | with_reducible apply rel_ite
    | fail_if_no_progress (with_reducible apply hR.upd; all_goals try first | with_reducible exact .inr rfl | exact .inl (by decide +kernel) | exact id)
    | dsimp only
    | intro _ _
    | intro _
    | contradiction
    | (unfold id)
    | split
    | (rename_i hh; injection hh with hh; subst hh)
    | (rename_i hh; split at hh)

theorem State.fixHostBoth_keeps {R : State → Prop} (hR : Keeps [.fixq] ⟨[], [], [], false⟩ R) (s : State) (f : Nat)
    (hI : R s) : R (State.fixHostBoth s f) := by
  unfold State.fixHostBoth
  try dsimp only
  repeat' first
    | with_reducible assumption
    | exact hR.sub
    | exact fun h => memWf_memStore h
    | exact fun h => memWf_memPut h
    | exact fun h => memWf_filter _ h
    | exact fun _ => rfl
    | with_reducible apply rel_ite
    | fail_if_no_progress (with_reducible apply hR.upd; all_goals try first | with_reducible exact .inr rfl | exact .inl (by decide +kernel) | exact id)
    | dsimp only
    | intro _ _
    | intro _
    | contradiction
    | (unfold id)
    | split
    | (rename_i hh; injection hh with hh; subst hh)
    | (rename_i hh; split at hh)

theorem execFixSet_keeps {R : State → Prop} (hR : Keeps partsFixSet fieldsFixSet R) (w : Writer) (f : Fin 16) (s : State)
    (hI : R s) {tT : State} (eE : execFixSet w f s = .next tT) : R tT := by
  unfold execFixSet at eE
  try dsimp only at eE
  repeat' split at eE
  all_goals try (injection eE with eE; subst eE)
  all_goals repeat' first
    | with_reducible assumption
    | exact hR.sub
    | with_reducible apply rel_ite
    | with_reducible apply State.dirNext_keeps
    | with_reducible apply State.fixHost_keeps
    | with_reducible apply State.flashMessage_keeps
    | with_reducible apply State.message_keeps
    | with_reducible apply State.packageReset_keeps
    | with_reducible apply State.powerOn_keeps
    | with_reducible apply State.reach_keeps
    | dsimp only
    | intro _ _
    | intro _
    | contradiction
    | (unfold id)
    | split
    | (rename_i hh; injection hh with hh; subst hh)
    | (rename_i hh; split at hh)

theorem execFixClr_keeps {R : State → Prop} (hR : Keeps partsFixClr fieldsFixClr R) (w : Writer) (f : Fin 16) (s : State)
    (hI : R s) {tT : State} (eE : execFixClr w f s = .next tT) : R tT := by
  unfold execFixClr at eE
  try dsimp only at eE
  repeat' split at eE
  all_goals try (injection eE with eE; subst eE)
  all_goals repeat' first
    | with_reducible assumption
    | exact hR.sub
    | with_reducible apply rel_ite
    | with_reducible apply State.dirNext_keeps
    | with_reducible apply State.fixHost_keeps
    | with_reducible apply State.flashMessage_keeps
    | with_reducible apply State.message_keeps
    | with_reducible apply State.packageReset_keeps
    | with_reducible apply State.powerOn_keeps
    | with_reducible apply State.reach_keeps
    | dsimp only
    | intro _ _
    | intro _
    | contradiction
    | (unfold id)
    | split
    | (rename_i hh; injection hh with hh; subst hh)
    | (rename_i hh; split at hh)

theorem execFixCfgWrite_keeps {R : State → Prop} (hR : Keeps partsFixCfgWrite fieldsFixCfgWrite R) (w : Writer) (f : Fin 16) (q : BitVec 7) (s : State)
    (hI : R s) {tT : State} (eE : execFixCfgWrite w f q s = .next tT) : R tT := by
  unfold execFixCfgWrite at eE
  try dsimp only at eE
  repeat' split at eE
  all_goals try (injection eE with eE; subst eE)
  all_goals repeat' first
    | with_reducible assumption
    | exact hR.sub
    | with_reducible apply rel_ite
    | with_reducible refine hR.wr _ _ _ (by decide +kernel) (by first | decide +kernel | exact hasFld_self _ _ | exact hasFld_all _ | (simp [hasFld]; done) ) ?_
    | with_reducible apply State.dirNext_keeps
    | with_reducible apply State.flashMessage_keeps
    | with_reducible apply State.message_keeps
    | with_reducible apply State.packageReset_keeps
    | with_reducible apply State.powerOn_keeps
    | with_reducible apply State.raise_keeps
    | with_reducible apply State.reach_keeps
    | dsimp only
    | intro _ _
    | intro _
    | contradiction
    | (unfold id)
    | split
    | (rename_i hh; injection hh with hh; subst hh)
    | (rename_i hh; split at hh)

def opFieldsRebaseEngine : FSet :=
  ⟨[.ENG_FAULT_CODE, .ENG_FAULT_DETAIL, .ENG_FAULT_PC, .ENG_FAULT_VALID, .ENG_GEN_V_VALUE, .ENG_LCNT_COUNT,
    .ENG_LREL_COUNT, .ENG_PC_CUR, .ENG_STALL_COUNT, .ENG_STATUS_END_CODE, .ENG_STATUS_IN_HANDLER, .ENG_STATUS_STATE,
    .ENG_STRM_CTL_ENDED, .ENG_STRM_CTL_RATE, .ENG_STRM_POS_POS], [], [], false⟩

theorem State.rebaseEngine_keeps {R : State → Prop} (hR : Keeps [.regs, .out, .stewards, .govs, .eng, .fixq] opFieldsRebaseEngine R) (s : State) (before : Nat) (e : Nat)
    (hI : R s) : R (State.rebaseEngine s before e) := by
  unfold State.rebaseEngine
  try dsimp only
  repeat' first
    | with_reducible assumption
    | exact hR.sub
    | exact fun h => memWf_memStore h
    | exact fun h => memWf_memPut h
    | exact fun h => memWf_filter _ h
    | exact fun _ => rfl
    | with_reducible apply rel_ite
    | with_reducible apply State.engWaitOver_keeps
    | with_reducible apply State.fixIssue_keeps
    | with_reducible apply State.seeOne_keeps
    | with_reducible apply State.setEngine_keeps
    | (with_reducible apply rel_foldl; intro _ _ _)
    | (with_reducible apply rel_foldl2; intro _ _ _)
    | (with_reducible apply rel_foldl3; intro _ _ _)
    | (with_reducible apply rel_foldl1; intro _ _ _)
    | fail_if_no_progress (with_reducible apply hR.upd; all_goals try first | with_reducible exact .inr rfl | exact .inl (by decide +kernel) | exact id)
    | dsimp only
    | intro _ _
    | intro _
    | contradiction
    | (unfold id)
    | split
    | (rename_i hh; injection hh with hh; subst hh)
    | (rename_i hh; split at hh)

theorem execFixRebase_keeps {R : State → Prop} (hR : Keeps partsFixRebase fieldsFixRebase R) (s : State)
    (hI : R s) {tT : State} (eE : execFixRebase s = .next tT) : R tT := by
  unfold execFixRebase at eE
  try dsimp only at eE
  repeat' split at eE
  all_goals try (injection eE with eE; subst eE)
  all_goals repeat' first
    | with_reducible assumption
    | exact hR.sub
    | exact fun h => memWf_memStore h
    | exact fun h => memWf_memPut h
    | exact fun h => memWf_filter _ h
    | exact fun _ => rfl
    | with_reducible apply rel_ite
    | with_reducible apply State.bcast_keeps
    | with_reducible apply State.dirNext_keeps
    | with_reducible apply State.flashMessage_keeps
    | with_reducible apply State.message_keeps
    | with_reducible apply State.packageReset_keeps
    | with_reducible apply State.powerOn_keeps
    | with_reducible apply State.reach_keeps
    | with_reducible apply State.rebaseEngine_keeps
    | (with_reducible apply rel_foldl; intro _ _ _)
    | (with_reducible apply rel_foldl2; intro _ _ _)
    | (with_reducible apply rel_foldl3; intro _ _ _)
    | (with_reducible apply rel_foldl1; intro _ _ _)
    | fail_if_no_progress (with_reducible apply hR.upd; all_goals try first | with_reducible exact .inr rfl | exact .inl (by decide +kernel) | exact id)
    | dsimp only
    | intro _ _
    | intro _
    | contradiction
    | (unfold id)
    | split
    | (rename_i hh; injection hh with hh; subst hh)
    | (rename_i hh; split at hh)

end Sys2Proof.Machine
end

