-- ==== Sys2Proof/Laws/KeepsFailCapture.lean ====
section
/-! SUPPORT. What the operations of `Machine/FailCapture.lean` may change and what they keep. -/

namespace Sys2Proof.Machine

set_option Elab.async false
set_option linter.all false

theorem State.injectDone_keeps {R : State → Prop} (hR : Keeps [.lane] ⟨[], [], [], false⟩ R) (s : State) (e : Nat)
    (hI : R s) : R (State.injectDone s e) := by
  unfold State.injectDone
  try dsimp only
  repeat' first
    | with_reducible assumption
    | exact hR.sub
    | exact fun h => memWf_memStore h
    | exact fun h => memWf_memPut h
    | exact fun h => memWf_filter _ h
    | exact fun _ => rfl
    | with_reducible apply rel_ite
    | (with_reducible apply rel_foldl; intro _ _ _)
    | (with_reducible apply rel_foldl2; intro _ _ _)
    | (with_reducible apply rel_foldl3; intro _ _ _)
    | (with_reducible apply rel_foldl1; intro _ _ _)
    | fail_if_no_progress (with_reducible apply hR.upd; all_goals try first | with_reducible exact .inr rfl | exact .inl (by decide +kernel) | exact id)
    | dsimp only
    | intro _ _
    | intro _
    | contradiction
    | (unfold id)
    | split
    | (rename_i hh; injection hh with hh; subst hh)
    | (rename_i hh; split at hh)

theorem State.txSlot_keeps {R : State → Prop} (hR : Keeps [.regs, .out, .eng, .lane] ⟨[.FC_GAP_CNT_COUNT], [], [], false⟩ R) (s : State) (e : Nat)
    (hI : R s) : R (State.txSlot s e) := by
  unfold State.txSlot
  try dsimp only
  repeat' first
    | with_reducible assumption
    | exact hR.sub
    | exact fun h => memWf_memStore h
    | exact fun h => memWf_memPut h
    | exact fun h => memWf_filter _ h
    | exact fun _ => rfl
    | exact hR.sub (by decide +kernel) (subFld_self _ _)
    | with_reducible apply rel_ite
    | with_reducible apply State.bump_keeps
    | with_reducible apply State.emit_keeps
    | with_reducible apply State.injectDone_keeps
    | with_reducible apply State.setEngine_keeps
    | fail_if_no_progress (with_reducible apply hR.upd; all_goals try first | with_reducible exact .inr rfl | exact .inl (by decide +kernel) | exact id)
    | dsimp only
    | intro _ _
    | intro _
    | contradiction
    | (unfold id)
    | split
    | (rename_i hh; injection hh with hh; subst hh)
    | (rename_i hh; split at hh)

theorem execTxSlot_keeps {R : State → Prop} (hR : Keeps partsTxSlot fieldsTxSlot R) (e : Fin 96) (s : State)
    (hI : R s) {tT : State} (eE : execTxSlot e s = .next tT) : R tT := by
  unfold execTxSlot at eE
  try dsimp only at eE
  repeat' split at eE
  all_goals try (injection eE with eE; subst eE)
  all_goals repeat' first
    | with_reducible assumption
    | exact hR.sub
    | with_reducible apply rel_ite
    | with_reducible apply State.dirNext_keeps
    | with_reducible apply State.flashMessage_keeps
    | with_reducible apply State.lapseTo_keeps
    | with_reducible apply State.message_keeps
    | with_reducible apply State.packageReset_keeps
    | with_reducible apply State.powerOn_keeps
    | with_reducible apply State.reach_keeps
    | with_reducible apply State.txSlot_keeps
    | dsimp only
    | intro _ _
    | intro _
    | contradiction
    | (unfold id)
    | split
    | (rename_i hh; injection hh with hh; subst hh)
    | (rename_i hh; split at hh)

theorem State.toWord_keeps {R : State → Prop} (hR : Keeps [.now, .local_, .spinePull] ⟨[], [], [], false⟩ R) (s : State) (e : Nat)
    (hI : R s) : R (State.toWord s e) := by
  unfold State.toWord
  try dsimp only
  repeat' first
    | with_reducible assumption
    | exact hR.sub
    | with_reducible apply rel_ite
    | with_reducible apply State.lapseTo_keeps
    | dsimp only
    | intro _ _
    | intro _
    | contradiction
    | (unfold id)
    | split
    | (rename_i hh; injection hh with hh; subst hh)
    | (rename_i hh; split at hh)

theorem execStraightPathLaunch_keeps {R : State → Prop} (hR : Keeps partsStraightPathLaunch fieldsStraightPathLaunch R) (e : Fin 96) (s : State)
    (hI : R s) {tT : State} (eE : execStraightPathLaunch e s = .next tT) : R tT := by
  unfold execStraightPathLaunch at eE
  try dsimp only at eE
  repeat' split at eE
  all_goals try (injection eE with eE; subst eE)
  all_goals repeat' first
    | with_reducible assumption
    | exact hR.sub
    | exact fun h => memWf_memStore h
    | exact fun h => memWf_memPut h
    | exact fun h => memWf_filter _ h
    | exact fun _ => rfl
    | with_reducible apply rel_ite
    | with_reducible refine hR.wr _ _ _ (by decide +kernel) (by first | decide +kernel | exact hasFld_self _ _ | exact hasFld_all _ | (simp [hasFld]; done) ) ?_
    | with_reducible apply State.dirNext_keeps
    | with_reducible apply State.flashMessage_keeps
    | with_reducible apply State.lapseToLocal_keeps
    | with_reducible apply State.message_keeps
    | with_reducible apply State.packageReset_keeps
    | with_reducible apply State.powerOn_keeps
    | with_reducible apply State.reach_keeps
    | with_reducible apply State.setEngine_keeps
    | with_reducible apply State.toWord_keeps
    | with_reducible apply State.txSlot_keeps
    | fail_if_no_progress (with_reducible apply hR.upd; all_goals try first | with_reducible exact .inr rfl | exact .inl (by decide +kernel) | exact id)
    | dsimp only
    | intro _ _
    | intro _
    | contradiction
    | (unfold id)
    | split
    | (rename_i hh; injection hh with hh; subst hh)
    | (rename_i hh; split at hh)

theorem State.attach_keeps {R : State → Prop} (hR : Keeps [.eng] ⟨[], [], [], false⟩ R) (s : State) (e ix : Nat) (x : Resolution)
    (hI : R s) : R (State.attach s e ix x) := by
  unfold State.attach
  try dsimp only
  repeat' first
    | with_reducible assumption
    | exact hR.sub
    | exact fun h => memWf_memStore h
    | exact fun h => memWf_memPut h
    | exact fun h => memWf_filter _ h
    | exact fun _ => rfl
    | with_reducible apply rel_ite
    | with_reducible apply State.setEngine_keeps
    | fail_if_no_progress (with_reducible apply hR.upd; all_goals try first | with_reducible exact .inr rfl | exact .inl (by decide +kernel) | exact id)
    | dsimp only
    | intro _ _
    | intro _
    | contradiction
    | (unfold id)
    | split
    | (rename_i hh; injection hh with hh; subst hh)
    | (rename_i hh; split at hh)

theorem execRxWordCompare_keeps {R : State → Prop} (hR : Keeps partsRxWordCompare fieldsRxWordCompare R) (e : Fin 96) (n : Nat) (data : BitVec 512) (s : State)
    (hI : R s) {tT : State} (eE : execRxWordCompare e n data s = .next tT) : R tT := by
  unfold execRxWordCompare at eE
  try dsimp only at eE
  repeat' split at eE
  all_goals try (injection eE with eE; subst eE)
  all_goals repeat' first
    | with_reducible assumption
    | exact hR.sub
    | exact fun h => memWf_memStore h
    | exact fun h => memWf_memPut h
    | exact fun h => memWf_filter _ h
    | exact fun _ => rfl
    | with_reducible apply rel_ite
    | with_reducible apply State.attach_keeps
    | with_reducible apply State.dirNext_keeps
    | with_reducible apply State.flashMessage_keeps
    | with_reducible apply State.lapseTo_keeps
    | with_reducible apply State.message_keeps
    | with_reducible apply State.packageReset_keeps
    | with_reducible apply State.powerOn_keeps
    | with_reducible apply State.reach_keeps
    | fail_if_no_progress (with_reducible apply hR.upd; all_goals try first | with_reducible exact .inr rfl | exact .inl (by decide +kernel) | exact id)
    | dsimp only
    | intro _ _
    | intro _
    | contradiction
    | (unfold id)
    | split
    | (rename_i hh; injection hh with hh; subst hh)
    | (rename_i hh; split at hh)

theorem execVpVectorTaken_keeps {R : State → Prop} (hR : Keeps partsVpVectorTaken fieldsVpVectorTaken R) (e : Fin 96) (s : State)
    (hI : R s) {tT : State} (eE : execVpVectorTaken e s = .next tT) : R tT := by
  unfold execVpVectorTaken at eE
  try dsimp only at eE
  repeat' split at eE
  all_goals try (injection eE with eE; subst eE)
  all_goals repeat' first
    | with_reducible assumption
    | exact hR.sub
    | exact fun h => memWf_memStore h
    | exact fun h => memWf_memPut h
    | exact fun h => memWf_filter _ h
    | exact fun _ => rfl
    | with_reducible apply rel_ite
    | with_reducible apply State.dirNext_keeps
    | with_reducible apply State.emit_keeps
    | with_reducible apply State.flashMessage_keeps
    | with_reducible apply State.message_keeps
    | with_reducible apply State.packageReset_keeps
    | with_reducible apply State.powerOn_keeps
    | with_reducible apply State.reach_keeps
    | with_reducible apply State.setEngine_keeps
    | fail_if_no_progress (with_reducible apply hR.upd; all_goals try first | with_reducible exact .inr rfl | exact .inl (by decide +kernel) | exact id)
    | dsimp only
    | intro _ _
    | intro _
    | contradiction
    | (unfold id)
    | split
    | (rename_i hh; injection hh with hh; subst hh)
    | (rename_i hh; split at hh)

theorem execRpResponse_keeps {R : State → Prop} (hR : Keeps partsRpResponse fieldsRpResponse R) (e : Fin 96) (data : BitVec 512) (skip : Bool) (s : State)
    (hI : R s) {tT : State} (eE : execRpResponse e data skip s = .next tT) : R tT := by
  unfold execRpResponse at eE
  try dsimp only at eE
  repeat' split at eE
  all_goals try (injection eE with eE; subst eE)
  all_goals repeat' first
    | with_reducible assumption
    | exact hR.sub
    | exact fun h => memWf_memStore h
    | exact fun h => memWf_memPut h
    | exact fun h => memWf_filter _ h
    | exact fun _ => rfl
    | with_reducible apply rel_ite
    | with_reducible apply State.attach_keeps
    | with_reducible apply State.dirNext_keeps
    | with_reducible apply State.flashMessage_keeps
    | with_reducible apply State.message_keeps
    | with_reducible apply State.packageReset_keeps
    | with_reducible apply State.powerOn_keeps
    | with_reducible apply State.reach_keeps
    | fail_if_no_progress (with_reducible apply hR.upd; all_goals try first | with_reducible exact .inr rfl | exact .inl (by decide +kernel) | exact id)
    | dsimp only
    | intro _ _
    | intro _
    | contradiction
    | (unfold id)
    | split
    | (rename_i hh; injection hh with hh; subst hh)
    | (rename_i hh; split at hh)

theorem execResponseTimeout_keeps {R : State → Prop} (hR : Keeps partsResponseTimeout fieldsResponseTimeout R) (e : Fin 96) (s : State)
    (hI : R s) {tT : State} (eE : execResponseTimeout e s = .next tT) : R tT := by
  unfold execResponseTimeout at eE
  try dsimp only at eE
  repeat' split at eE
  all_goals try (injection eE with eE; subst eE)
  all_goals repeat' first
    | with_reducible assumption
    | exact hR.sub
    | exact fun h => memWf_memStore h
    | exact fun h => memWf_memPut h
    | exact fun h => memWf_filter _ h
    | exact fun _ => rfl
    | with_reducible apply rel_ite
    | with_reducible apply State.attach_keeps
    | with_reducible apply State.dirNext_keeps
    | with_reducible apply State.flashMessage_keeps
    | with_reducible apply State.lapseTo_keeps
    | with_reducible apply State.message_keeps
    | with_reducible apply State.packageReset_keeps
    | with_reducible apply State.powerOn_keeps
    | with_reducible apply State.reach_keeps
    | fail_if_no_progress (with_reducible apply hR.upd; all_goals try first | with_reducible exact .inr rfl | exact .inl (by decide +kernel) | exact id)
    | dsimp only
    | intro _ _
    | intro _
    | contradiction
    | (unfold id)
    | split
    | (rename_i hh; injection hh with hh; subst hh)
    | (rename_i hh; split at hh)

theorem State.tally_keeps {R : State → Prop} (hR : Keeps [.regs, .win] ⟨[.FC_STATUS_BM_SAT], [], [], false⟩ R) (s : State) (e : Nat) (row : Bool) (ix n : Nat)
    (hI : R s) : R (State.tally s e row ix n) := by
  unfold State.tally
  try dsimp only
  repeat' first
    | with_reducible assumption
    | exact hR.sub
    | with_reducible apply rel_ite
    | with_reducible refine hR.wr _ _ _ (by decide +kernel) (by first | decide +kernel | exact hasFld_self _ _ | exact hasFld_all _ | (simp [hasFld]; done) ) ?_
    | with_reducible apply State.winStore_keeps
    | dsimp only
    | intro _ _
    | intro _
    | contradiction
    | (unfold id)
    | split
    | (rename_i hh; injection hh with hh; subst hh)
    | (rename_i hh; split at hh)

theorem State.tallyOp_keeps {R : State → Prop} (hR : Keeps [.regs, .eng, .win] ⟨[.FC_STATUS_BM_SAT], [], [], false⟩ R) (s : State) (e : Nat) (row : Bool) (ix n : Nat)
    (hI : R s) : R (State.tallyOp s e row ix n) := by
  unfold State.tallyOp
  try dsimp only
  repeat' first
    | with_reducible assumption
    | exact hR.sub
    | exact fun h => memWf_memStore h
    | exact fun h => memWf_memPut h
    | exact fun h => memWf_filter _ h
    | exact fun _ => rfl
    | with_reducible apply rel_ite
    | with_reducible apply State.setEngine_keeps
    | with_reducible apply State.tally_keeps
    | fail_if_no_progress (with_reducible apply hR.upd; all_goals try first | with_reducible exact .inr rfl | exact .inl (by decide +kernel) | exact id)
    | dsimp only
    | intro _ _
    | intro _
    | contradiction
    | (unfold id)
    | split
    | (rename_i hh; injection hh with hh; subst hh)
    | (rename_i hh; split at hh)

theorem State.bitmapUpdate_keeps {R : State → Prop} (hR : Keeps [.regs, .eng, .win] ⟨[.FC_STATUS_BM_SAT], [], [], false⟩ R) (s : State) (e aw nbits : Nat)
    (hI : R s) : R (State.bitmapUpdate s e aw nbits) := by
  unfold State.bitmapUpdate
  try dsimp only
  repeat' first
    | with_reducible assumption
    | exact hR.sub
    | with_reducible apply rel_ite
    | with_reducible apply State.tallyOp_keeps
    | dsimp only
    | intro _ _
    | intro _
    | contradiction
    | (unfold id)
    | split
    | (rename_i hh; injection hh with hh; subst hh)
    | (rename_i hh; split at hh)

theorem State.failRecord_keeps {R : State → Prop} (hR : Keeps [.regs, .eng] ⟨[.FC_DROP_CNT_COUNT, .FC_STATUS_OVF], [], [], false⟩ R) (s : State) (e : Nat) (x : Expn) (q : Resolution) (first : Bool)
    (hI : R s) : R (State.failRecord s e x q first) := by
  unfold State.failRecord
  try dsimp only
  repeat' first
    | with_reducible assumption
    | exact hR.sub
    | exact fun h => memWf_memStore h
    | exact fun h => memWf_memPut h
    | exact fun h => memWf_filter _ h
    | exact fun _ => rfl
    | exact hR.sub (by decide +kernel) (subFld_self _ _)
    | with_reducible apply rel_ite
    | with_reducible refine hR.wr _ _ _ (by decide +kernel) (by first | decide +kernel | exact hasFld_self _ _ | exact hasFld_all _ | (simp [hasFld]; done) ) ?_
    | with_reducible apply State.bump_keeps
    | with_reducible apply State.setEngine_keeps
    | fail_if_no_progress (with_reducible apply hR.upd; all_goals try first | with_reducible exact .inr rfl | exact .inl (by decide +kernel) | exact id)
    | dsimp only
    | intro _ _
    | intro _
    | contradiction
    | (unfold id)
    | split
    | (rename_i hh; injection hh with hh; subst hh)
    | (rename_i hh; split at hh)

theorem State.laneCounts_keeps {R : State → Prop} (hR : Keeps [.regs, .lane] ⟨[.CL_ERR_CNT_COUNT], [], [], false⟩ R) (s : State) (e : Nat) (x : Expn) (f : Nat)
    (hI : R s) : R (State.laneCounts s e x f) := by
  unfold State.laneCounts
  try dsimp only
  repeat' first
    | with_reducible assumption
    | exact hR.sub
    | exact fun h => memWf_memStore h
    | exact fun h => memWf_memPut h
    | exact fun h => memWf_filter _ h
    | exact fun _ => rfl
    | exact hR.sub (by decide +kernel) (subFld_self _ _)
    | with_reducible apply rel_ite
    | with_reducible apply State.bump_keeps
    | (with_reducible apply rel_foldl; intro _ _ _)
    | (with_reducible apply rel_foldl2; intro _ _ _)
    | (with_reducible apply rel_foldl3; intro _ _ _)
    | (with_reducible apply rel_foldl1; intro _ _ _)
    | fail_if_no_progress (with_reducible apply hR.upd; all_goals try first | with_reducible exact .inr rfl | exact .inl (by decide +kernel) | exact id)
    | dsimp only
    | intro _ _
    | intro _
    | contradiction
    | (unfold id)
    | split
    | (rename_i hh; injection hh with hh; subst hh)
    | (rename_i hh; split at hh)

theorem State.popHead_keeps {R : State → Prop} (hR : Keeps [.eng] ⟨[], [], [], false⟩ R) (s : State) (e : Nat)
    (hI : R s) : R (State.popHead s e) := by
  unfold State.popHead
  try dsimp only
  repeat' first
    | with_reducible assumption
    | exact hR.sub
    | exact fun h => memWf_memStore h
    | exact fun h => memWf_memPut h
    | exact fun h => memWf_filter _ h
    | exact fun _ => rfl
    | with_reducible apply rel_ite
    | with_reducible apply State.setEngine_keeps
    | fail_if_no_progress (with_reducible apply hR.upd; all_goals try first | with_reducible exact .inr rfl | exact .inl (by decide +kernel) | exact id)
    | dsimp only
    | intro _ _
    | intro _
    | contradiction
    | (unfold id)
    | split
    | (rename_i hh; injection hh with hh; subst hh)
    | (rename_i hh; split at hh)

theorem State.countFail_keeps {R : State → Prop} (hR : Keeps [.regs, .eng, .win] ⟨[.ENG_STATUS_FAIL, .FC_FAIL_CNT_COUNT, .FC_SLICE_FAIL_COUNT, .FC_STATUS_BM_SAT], [], [], false⟩ R) (s : State) (e : Nat) (x : Expn) (f : Nat)
    (hI : R s) : R (State.countFail s e x f) := by
  unfold State.countFail
  try dsimp only
  repeat' first
    | with_reducible assumption
    | exact hR.sub
    | exact hR.sub (by decide +kernel) (subFld_self _ _)
    | with_reducible apply rel_ite
    | with_reducible refine hR.wr _ _ _ (by decide +kernel) (by first | decide +kernel | exact hasFld_self _ _ | exact hasFld_all _ | (simp [hasFld]; done) ) ?_
    | with_reducible apply State.bitmapUpdate_keeps
    | with_reducible apply State.bump_keeps
    | (with_reducible apply rel_foldl; intro _ _ _)
    | (with_reducible apply rel_foldl2; intro _ _ _)
    | (with_reducible apply rel_foldl3; intro _ _ _)
    | (with_reducible apply rel_foldl1; intro _ _ _)
    | dsimp only
    | intro _ _
    | intro _
    | contradiction
    | (unfold id)
    | split
    | (rename_i hh; injection hh with hh; subst hh)
    | (rename_i hh; split at hh)

theorem execExpectationResolve_keeps {R : State → Prop} (hR : Keeps partsExpectationResolve fieldsExpectationResolve R) (e : Fin 96) (s : State)
    (hI : R s) {tT : State} (eE : execExpectationResolve e s = .next tT) : R tT := by
  unfold execExpectationResolve at eE
  try dsimp only at eE
  repeat' split at eE
  all_goals try (injection eE with eE; subst eE)
  all_goals repeat' first
    | with_reducible assumption
    | exact hR.sub
    | exact fun h => memWf_memStore h
    | exact fun h => memWf_memPut h
    | exact fun h => memWf_filter _ h
    | exact fun _ => rfl
    | exact hR.sub (by decide +kernel) (subFld_self _ _)
    | with_reducible apply rel_ite
    | with_reducible apply State.bump_keeps
    | with_reducible apply State.countFail_keeps
    | with_reducible apply State.dirNext_keeps
    | with_reducible apply State.failRecord_keeps
    | with_reducible apply State.flashMessage_keeps
    | with_reducible apply State.laneCounts_keeps
    | with_reducible apply State.message_keeps
    | with_reducible apply State.packageReset_keeps
    | with_reducible apply State.popHead_keeps
    | with_reducible apply State.powerOn_keeps
    | with_reducible apply State.reach_keeps
    | with_reducible apply State.setEngine_keeps
    | fail_if_no_progress (with_reducible apply hR.upd; all_goals try first | with_reducible exact .inr rfl | exact .inl (by decide +kernel) | exact id)
    | dsimp only
    | intro _ _
    | intro _
    | contradiction
    | (unfold id)
    | split
    | (rename_i hh; injection hh with hh; subst hh)
    | (rename_i hh; split at hh)

def opPartsGStoreLines : List Part :=
  [.regs, .out, .draws, .stewards, .eng, .hbm, .poison, .win, .rcLines, .rcWb, .sf, .sfAge, .haIn, .homeOut, .leafMaj,
    .leafMin, .ccache, .hwm]
def opFieldsGStoreLines : FSet :=
  ⟨[.HA_BACKINV_CNT_COUNT, .HA_STAT_RECALL, .HA_STAT_SF_LEVEL, .HBM_ERR_ADDR_HI_ADDR, .HBM_ERR_ADDR_LO_ADDR,
    .HBM_ERR_CH, .HBM_ERR_CODE, .HBM_ERR_PC, .HBM_ERR_SID, .HBM_ERR_VALID, .RC_HIT_CNT_COUNT, .RC_MISS_CNT_COUNT,
    .RC_SNP_CNT_COUNT, .RC_STAT_RETAINED, .RC_WB_CNT_COUNT, .SEAL_CC_MISS_CNT_COUNT, .SEAL_DENY_CNT_COUNT,
    .SEAL_ERR_ADDR_HI_ADDR, .SEAL_ERR_ADDR_LO_ADDR, .SEAL_ERR_CODE, .SEAL_ERR_LEVEL, .SEAL_ERR_RANGE, .SEAL_ERR_VALID,
    .SEAL_OVF_CNT_COUNT, .SEAL_RSTAT_FREEZE, .SEAL_RSTAT_STATE], [], [], false⟩

theorem State.gStoreLines_keeps {R : State → Prop} (hR : Keeps opPartsGStoreLines opFieldsGStoreLines R) (s : State) (m : Mst) (g env : Nat) (l : List Nat) (hI : R s) :
    R (s.gStoreLines m g env l).2 := by
  induction l generalizing s g with
  | nil => exact hI
  | cons d r ih =>
    unfold State.gStoreLines
    have h := State.gWrite_keeps hR.sub s m g d false env hI
    generalize s.gWrite m g d false env = p at h ⊢
    obtain ⟨c, s1⟩ := p
    show R (if c ≠ 0 then (c, s1) else s1.gStoreLines m (g + 64) env r).2
    split
    · exact h
    · exact ih _ _ h

theorem State.gStoreLines_keeps_of {R : State → Prop} (hR : Keeps opPartsGStoreLines opFieldsGStoreLines R) (s : State) (m : Mst) (g env : Nat) (l : List Nat) (hI : R s)
    {a : Nat} {t : State} (eE : s.gStoreLines m g env l = (a, t)) : R t := by
  have h := State.gStoreLines_keeps hR.sub  s m g env l hI
  rw [eE] at h; exact h

theorem execFailRingWrite_keeps {R : State → Prop} (hR : Keeps partsFailRingWrite fieldsFailRingWrite R) (e : Fin 96) (env : Fin 4) (s : State)
    (hI : R s) {tT : State} (eE : execFailRingWrite e env s = .next tT) : R tT := by
  unfold execFailRingWrite at eE
  try dsimp only at eE
  repeat' split at eE
  all_goals try (injection eE with eE; subst eE)
  all_goals repeat' first
    | with_reducible assumption
    | exact hR.sub
    | exact fun h => memWf_memStore h
    | exact fun h => memWf_memPut h
    | exact fun h => memWf_filter _ h
    | exact fun _ => rfl
    | exact hR.sub (by decide +kernel) (subFld_self _ _)
    | with_reducible apply rel_ite
    | with_reducible refine hR.wr _ _ _ (by decide +kernel) (by first | decide +kernel | exact hasFld_self _ _ | exact hasFld_all _ | (simp [hasFld]; done) ) ?_
    | with_reducible apply State.dirNext_keeps
    | with_reducible apply State.flashMessage_keeps
    | with_reducible apply State.gStoreLines_keeps
    | with_reducible apply State.incr_keeps
    | with_reducible apply State.message_keeps
    | with_reducible apply State.packageReset_keeps
    | with_reducible apply State.powerOn_keeps
    | with_reducible apply State.raise_keeps
    | with_reducible apply State.reach_keeps
    | with_reducible apply State.setEngine_keeps
    | fail_if_no_progress (with_reducible apply hR.upd; all_goals try first | with_reducible exact .inr rfl | exact .inl (by decide +kernel) | exact id)
    | dsimp only
    | intro _ _
    | intro _
    | contradiction
    | (unfold id)
    | split
    | (rename_i hh; injection hh with hh; subst hh)
    | (rename_i hh; split at hh)

theorem execRingErrRestart_keeps {R : State → Prop} (hR : Keeps partsRingErrRestart fieldsRingErrRestart R) (w : Writer) (e : Fin 96) (s : State)
    (hI : R s) {tT : State} (eE : execRingErrRestart w e s = .next tT) : R tT := by
  unfold execRingErrRestart at eE
  try dsimp only at eE
  repeat' split at eE
  all_goals try (injection eE with eE; subst eE)
  all_goals repeat' first
    | with_reducible assumption
    | exact hR.sub
    | with_reducible apply rel_ite
    | with_reducible refine hR.wr _ _ _ (by decide +kernel) (by first | decide +kernel | exact hasFld_self _ _ | exact hasFld_all _ | (simp [hasFld]; done) ) ?_
    | with_reducible apply State.dirNext_keeps
    | with_reducible apply State.flashMessage_keeps
    | with_reducible apply State.message_keeps
    | with_reducible apply State.packageReset_keeps
    | with_reducible apply State.powerOn_keeps
    | with_reducible apply State.reach_keeps
    | dsimp only
    | intro _ _
    | intro _
    | contradiction
    | (unfold id)
    | split
    | (rename_i hh; injection hh with hh; subst hh)
    | (rename_i hh; split at hh)

theorem execFcRingRdWrite_keeps {R : State → Prop} (hR : Keeps partsFcRingRdWrite fieldsFcRingRdWrite R) (w : Writer) (e : Fin 96) (v : BitVec 32) (s : State)
    (hI : R s) {tT : State} (eE : execFcRingRdWrite w e v s = .next tT) : R tT := by
  unfold execFcRingRdWrite at eE
  try dsimp only at eE
  repeat' split at eE
  all_goals try (injection eE with eE; subst eE)
  all_goals repeat' first
    | with_reducible assumption
    | exact hR.sub
    | with_reducible apply rel_ite
    | with_reducible refine hR.wr _ _ _ (by decide +kernel) (by first | decide +kernel | exact hasFld_self _ _ | exact hasFld_all _ | (simp [hasFld]; done) ) ?_
    | with_reducible apply State.dirNext_keeps
    | with_reducible apply State.drop_keeps
    | with_reducible apply State.flashMessage_keeps
    | with_reducible apply State.message_keeps
    | with_reducible apply State.packageReset_keeps
    | with_reducible apply State.powerOn_keeps
    | with_reducible apply State.reach_keeps
    | dsimp only
    | intro _ _
    | intro _
    | contradiction
    | (unfold id)
    | split
    | (rename_i hh; injection hh with hh; subst hh)
    | (rename_i hh; split at hh)

theorem State.fcLanesStore_keeps {R : State → Prop} (hR : Keeps [.regs] ⟨[.FC_LANES_COUNT, .FC_LANES_LANE0, .FC_LANES_LANE1, .FC_LANES_LANE2, .FC_LANES_LANE3], [], [], false⟩ R) (s : State) (e v : Nat)
    (hI : R s) : R (State.fcLanesStore s e v) := by
  unfold State.fcLanesStore
  try dsimp only
  repeat' first
    | with_reducible assumption
    | exact hR.sub
    | with_reducible apply rel_ite
    | with_reducible refine hR.wr _ _ _ (by decide +kernel) (by first | decide +kernel | exact hasFld_self _ _ | exact hasFld_all _ | (simp [hasFld]; done) ) ?_
    | dsimp only
    | intro _ _
    | intro _
    | contradiction
    | (unfold id)
    | split
    | (rename_i hh; injection hh with hh; subst hh)
    | (rename_i hh; split at hh)

theorem State.lanesRealign_keeps {R : State → Prop} (hR : Keeps [.regs] ⟨[.CL_STAT_REALIGN, .CL_STAT_SLIP_POS], [], [], false⟩ R) (s : State) (old new : List (Nat × Nat))
    (hI : R s) : R (State.lanesRealign s old new) := by
  unfold State.lanesRealign
  try dsimp only
  repeat' first
    | with_reducible assumption
    | exact hR.sub
    | with_reducible apply rel_ite
    | with_reducible refine hR.wr _ _ _ (by decide +kernel) (by first | decide +kernel | exact hasFld_self _ _ | exact hasFld_all _ | (simp [hasFld]; done) ) ?_
    | (with_reducible apply rel_foldl; intro _ _ _)
    | (with_reducible apply rel_foldl2; intro _ _ _)
    | (with_reducible apply rel_foldl3; intro _ _ _)
    | (with_reducible apply rel_foldl1; intro _ _ _)
    | dsimp only
    | intro _ _
    | intro _
    | contradiction
    | (unfold id)
    | split
    | (rename_i hh; injection hh with hh; subst hh)
    | (rename_i hh; split at hh)

theorem execFcLanesWrite_keeps {R : State → Prop} (hR : Keeps partsFcLanesWrite fieldsFcLanesWrite R) (w : Writer) (e : Fin 96) (v : BitVec 32) (s : State)
    (hI : R s) {tT : State} (eE : execFcLanesWrite w e v s = .next tT) : R tT := by
  unfold execFcLanesWrite at eE
  try dsimp only at eE
  repeat' split at eE
  all_goals try (injection eE with eE; subst eE)
  all_goals repeat' first
    | with_reducible assumption
    | exact hR.sub
    | exact fun h => memWf_memStore h
    | exact fun h => memWf_memPut h
    | exact fun h => memWf_filter _ h
    | exact fun _ => rfl
    | with_reducible apply rel_ite
    | with_reducible apply State.dirNext_keeps
    | with_reducible apply State.drop_keeps
    | with_reducible apply State.fcLanesStore_keeps
    | with_reducible apply State.flashMessage_keeps
    | with_reducible apply State.lanesRealign_keeps
    | with_reducible apply State.message_keeps
    | with_reducible apply State.packageReset_keeps
    | with_reducible apply State.powerOn_keeps
    | with_reducible apply State.reach_keeps
    | with_reducible apply State.setEngine_keeps
    | fail_if_no_progress (with_reducible apply hR.upd; all_goals try first | with_reducible exact .inr rfl | exact .inl (by decide +kernel) | exact id)
    | dsimp only
    | intro _ _
    | intro _
    | contradiction
    | (unfold id)
    | split
    | (rename_i hh; injection hh with hh; subst hh)
    | (rename_i hh; split at hh)

theorem execBitmapClear_keeps {R : State → Prop} (hR : Keeps partsBitmapClear fieldsBitmapClear R) (w : Writer) (e : Fin 96) (s : State)
    (hI : R s) {tT : State} (eE : execBitmapClear w e s = .next tT) : R tT := by
  unfold execBitmapClear at eE
  try dsimp only at eE
  repeat' split at eE
  all_goals try (injection eE with eE; subst eE)
  all_goals repeat' first
    | with_reducible assumption
    | exact hR.sub
    | exact fun h => memWf_memStore h
    | exact fun h => memWf_memPut h
    | exact fun h => memWf_filter _ h
    | exact fun _ => rfl
    | with_reducible apply rel_ite
    | with_reducible refine hR.wr _ _ _ (by decide +kernel) (by first | decide +kernel | exact hasFld_self _ _ | exact hasFld_all _ | (simp [hasFld]; done) ) ?_
    | with_reducible apply State.dirNext_keeps
    | with_reducible apply State.dropF_keeps
    | with_reducible apply State.flashMessage_keeps
    | with_reducible apply State.message_keeps
    | with_reducible apply State.packageReset_keeps
    | with_reducible apply State.powerOn_keeps
    | with_reducible apply State.reach_keeps
    | with_reducible apply State.setEngine_keeps
    | fail_if_no_progress (with_reducible apply hR.upd; all_goals try first | with_reducible exact .inr rfl | exact .inl (by decide +kernel) | exact id)
    | dsimp only
    | intro _ _
    | intro _
    | contradiction
    | (unfold id)
    | split
    | (rename_i hh; injection hh with hh; subst hh)
    | (rename_i hh; split at hh)

theorem State.bmApply_keeps {R : State → Prop} (hR : Keeps [.regs, .win] ⟨[.FC_STATUS_BM_SAT], [], [], false⟩ R) (s : State) (e : Nat) (o : BmOp)
    (hI : R s) : R (State.bmApply s e o) := by
  unfold State.bmApply
  try dsimp only
  repeat' first
    | with_reducible assumption
    | exact hR.sub
    | exact fun h => memWf_memStore h
    | exact fun h => memWf_memPut h
    | exact fun h => memWf_filter _ h
    | exact fun _ => rfl
    | with_reducible apply rel_ite
    | with_reducible apply State.tally_keeps
    | with_reducible apply State.winStore_keeps
    | fail_if_no_progress (with_reducible apply hR.upd; all_goals try first | with_reducible exact .inr rfl | exact .inl (by decide +kernel) | exact id)
    | dsimp only
    | intro _ _
    | intro _
    | contradiction
    | (unfold id)
    | split
    | (rename_i hh; injection hh with hh; subst hh)
    | (rename_i hh; split at hh)

theorem execBitmapClearDone_keeps {R : State → Prop} (hR : Keeps partsBitmapClearDone fieldsBitmapClearDone R) (e : Fin 96) (s : State)
    (hI : R s) {tT : State} (eE : execBitmapClearDone e s = .next tT) : R tT := by
  unfold execBitmapClearDone at eE
  try dsimp only at eE
  repeat' split at eE
  all_goals try (injection eE with eE; subst eE)
  all_goals repeat' first
    | with_reducible assumption
    | exact hR.sub
    | exact fun h => memWf_memStore h
    | exact fun h => memWf_memPut h
    | exact fun h => memWf_filter _ h
    | exact fun _ => rfl
    | with_reducible apply rel_ite
    | with_reducible refine hR.wr _ _ _ (by decide +kernel) (by first | decide +kernel | exact hasFld_self _ _ | exact hasFld_all _ | (simp [hasFld]; done) ) ?_
    | with_reducible apply State.bmApply_keeps
    | with_reducible apply State.dirNext_keeps
    | with_reducible apply State.flashMessage_keeps
    | with_reducible apply State.message_keeps
    | with_reducible apply State.packageReset_keeps
    | with_reducible apply State.powerOn_keeps
    | with_reducible apply State.reach_keeps
    | with_reducible apply State.setEngine_keeps
    | (with_reducible apply rel_foldl; intro _ _ _)
    | (with_reducible apply rel_foldl2; intro _ _ _)
    | (with_reducible apply rel_foldl3; intro _ _ _)
    | (with_reducible apply rel_foldl1; intro _ _ _)
    | fail_if_no_progress (with_reducible apply hR.upd; all_goals try first | with_reducible exact .inr rfl | exact .inl (by decide +kernel) | exact id)
    | dsimp only
    | intro _ _
    | intro _
    | contradiction
    | (unfold id)
    | split
    | (rename_i hh; injection hh with hh; subst hh)
    | (rename_i hh; split at hh)

theorem State.fcClear_keeps {R : State → Prop} (hR : Keeps [.regs, .eng] ⟨[.FC_CMP_HI_COUNT, .FC_DROP_CNT_COUNT, .FC_FAIL_CNT_COUNT, .FC_GAP_CNT_COUNT, .FC_SLICE_FAIL_COUNT, .FC_UNCHK_CNT_COUNT], [], [], false⟩ R) (s : State) (e : Nat)
    (hI : R s) : R (State.fcClear s e) := by
  unfold State.fcClear
  try dsimp only
  repeat' first
    | with_reducible assumption
    | exact hR.sub
    | exact fun h => memWf_memStore h
    | exact fun h => memWf_memPut h
    | exact fun h => memWf_filter _ h
    | exact fun _ => rfl
    | with_reducible apply rel_ite
    | with_reducible refine hR.wr _ _ _ (by decide +kernel) (by first | decide +kernel | exact hasFld_self _ _ | exact hasFld_all _ | (simp [hasFld]; done) ) ?_
    | with_reducible apply State.setEngine_keeps
    | (with_reducible apply rel_foldl; intro _ _ _)
    | (with_reducible apply rel_foldl2; intro _ _ _)
    | (with_reducible apply rel_foldl3; intro _ _ _)
    | (with_reducible apply rel_foldl1; intro _ _ _)
    | fail_if_no_progress (with_reducible apply hR.upd; all_goals try first | with_reducible exact .inr rfl | exact .inl (by decide +kernel) | exact id)
    | dsimp only
    | intro _ _
    | intro _
    | contradiction
    | (unfold id)
    | split
    | (rename_i hh; injection hh with hh; subst hh)
    | (rename_i hh; split at hh)

theorem execFcCountersClear_keeps {R : State → Prop} (hR : Keeps partsFcCountersClear fieldsFcCountersClear R) (w : Writer) (e : Fin 96) (s : State)
    (hI : R s) {tT : State} (eE : execFcCountersClear w e s = .next tT) : R tT := by
  unfold execFcCountersClear at eE
  try dsimp only at eE
  repeat' split at eE
  all_goals try (injection eE with eE; subst eE)
  all_goals repeat' first
    | with_reducible assumption
    | exact hR.sub
    | with_reducible apply rel_ite
    | with_reducible apply State.dirNext_keeps
    | with_reducible apply State.fcClear_keeps
    | with_reducible apply State.flashMessage_keeps
    | with_reducible apply State.message_keeps
    | with_reducible apply State.packageReset_keeps
    | with_reducible apply State.powerOn_keeps
    | with_reducible apply State.reach_keeps
    | dsimp only
    | intro _ _
    | intro _
    | contradiction
    | (unfold id)
    | split
    | (rename_i hh; injection hh with hh; subst hh)
    | (rename_i hh; split at hh)

end Sys2Proof.Machine
end

