-- ==== Sys2Proof/Laws/KeepsNoc.lean ====
section
/-! SUPPORT. What the operations of `Machine/Noc.lean` may change and what they keep. -/

namespace Sys2Proof.Machine

set_option Elab.async false
set_option linter.all false

theorem State.setArb_keeps {R : State → Prop} (hR : Keeps [.arbs] ⟨[], [], [], false⟩ R) (s : State) (k : Key) (a : Arb)
    (hI : R s) : R (State.setArb s k a) := by
  unfold State.setArb
  try dsimp only
  repeat' first
    | with_reducible assumption
    | exact hR.sub
    | exact fun h => memWf_memStore h
    | exact fun h => memWf_memPut h
    | exact fun h => memWf_filter _ h
    | exact fun _ => rfl
    | with_reducible apply rel_ite
    | fail_if_no_progress (with_reducible apply hR.upd; all_goals try first | with_reducible exact .inr rfl | exact .inl (by decide +kernel) | exact id)
    | dsimp only
    | intro _ _
    | intro _
    | contradiction
    | (unfold id)
    | split
    | (rename_i hh; injection hh with hh; subst hh)
    | (rename_i hh; split at hh)

theorem State.newWindow_keeps {R : State → Prop} (hR : Keeps [.arbs] ⟨[], [], [], false⟩ R) (s : State) (k : Key)
    (hI : R s) : R (State.newWindow s k) := by
  unfold State.newWindow
  try dsimp only
  repeat' first
    | with_reducible assumption
    | exact hR.sub
    | exact fun h => memWf_memStore h
    | exact fun h => memWf_memPut h
    | exact fun h => memWf_filter _ h
    | exact fun _ => rfl
    | with_reducible apply rel_ite
    | with_reducible apply State.setArb_keeps
    | fail_if_no_progress (with_reducible apply hR.upd; all_goals try first | with_reducible exact .inr rfl | exact .inl (by decide +kernel) | exact id)
    | dsimp only
    | intro _ _
    | intro _
    | contradiction
    | (unfold id)
    | split
    | (rename_i hh; injection hh with hh; subst hh)
    | (rename_i hh; split at hh)

theorem State.setQ_keeps {R : State → Prop} (hR : Keeps [.rtq] ⟨[], [], [], false⟩ R) (s : State) (site r port vc : Nat) (l : List Pkt)
    (hI : R s) : R (State.setQ s site r port vc l) := by
  unfold State.setQ
  try dsimp only
  repeat' first
    | with_reducible assumption
    | exact hR.sub
    | exact fun h => memWf_memStore h
    | exact fun h => memWf_memPut h
    | exact fun h => memWf_filter _ h
    | exact fun _ => rfl
    | with_reducible apply rel_ite
    | fail_if_no_progress (with_reducible apply hR.upd; all_goals try first | with_reducible exact .inr rfl | exact .inl (by decide +kernel) | exact id)
    | dsimp only
    | intro _ _
    | intro _
    | contradiction
    | (unfold id)
    | split
    | (rename_i hh; injection hh with hh; subst hh)
    | (rename_i hh; split at hh)

theorem State.enq_keeps {R : State → Prop} (hR : Keeps [.rtq] ⟨[], [], [], false⟩ R) (s : State) (site r port vc : Nat) (p : Pkt)
    (hI : R s) : R (State.enq s site r port vc p) := by
  unfold State.enq
  try dsimp only
  repeat' first
    | with_reducible assumption
    | exact hR.sub
    | exact fun h => memWf_memStore h
    | exact fun h => memWf_memPut h
    | exact fun h => memWf_filter _ h
    | exact fun _ => rfl
    | with_reducible apply rel_ite
    | with_reducible apply State.setQ_keeps
    | fail_if_no_progress (with_reducible apply hR.upd; all_goals try first | with_reducible exact .inr rfl | exact .inl (by decide +kernel) | exact id)
    | dsimp only
    | intro _ _
    | intro _
    | contradiction
    | (unfold id)
    | split
    | (rename_i hh; injection hh with hh; subst hh)
    | (rename_i hh; split at hh)

theorem State.deq_keeps {R : State → Prop} (hR : Keeps [.rtq] ⟨[], [], [], false⟩ R) (s : State) (site r port vc : Nat)
    (hI : R s) : R (State.deq s site r port vc) := by
  unfold State.deq
  try dsimp only
  repeat' first
    | with_reducible assumption
    | exact hR.sub
    | exact fun h => memWf_memStore h
    | exact fun h => memWf_memPut h
    | exact fun h => memWf_filter _ h
    | exact fun _ => rfl
    | with_reducible apply rel_ite
    | with_reducible apply State.setQ_keeps
    | fail_if_no_progress (with_reducible apply hR.upd; all_goals try first | with_reducible exact .inr rfl | exact .inl (by decide +kernel) | exact id)
    | dsimp only
    | intro _ _
    | intro _
    | contradiction
    | (unfold id)
    | split
    | (rename_i hh; injection hh with hh; subst hh)
    | (rename_i hh; split at hh)

theorem State.setHead_keeps {R : State → Prop} (hR : Keeps [.rtq] ⟨[], [], [], false⟩ R) (s : State) (site r port vc : Nat) (p : Pkt)
    (hI : R s) : R (State.setHead s site r port vc p) := by
  unfold State.setHead
  try dsimp only
  repeat' first
    | with_reducible assumption
    | exact hR.sub
    | exact fun h => memWf_memStore h
    | exact fun h => memWf_memPut h
    | exact fun h => memWf_filter _ h
    | exact fun _ => rfl
    | with_reducible apply rel_ite
    | with_reducible apply State.setQ_keeps
    | fail_if_no_progress (with_reducible apply hR.upd; all_goals try first | with_reducible exact .inr rfl | exact .inl (by decide +kernel) | exact id)
    | dsimp only
    | intro _ _
    | intro _
    | contradiction
    | (unfold id)
    | split
    | (rename_i hh; injection hh with hh; subst hh)
    | (rename_i hh; split at hh)

theorem State.setNi_keeps {R : State → Prop} (hR : Keeps [.ni] ⟨[], [], [], false⟩ R) (s : State) (site i : Nat) (x : NiRt)
    (hI : R s) : R (State.setNi s site i x) := by
  unfold State.setNi
  try dsimp only
  repeat' first
    | with_reducible assumption
    | exact hR.sub
    | exact fun h => memWf_memStore h
    | exact fun h => memWf_memPut h
    | exact fun h => memWf_filter _ h
    | exact fun _ => rfl
    | with_reducible apply rel_ite
    | fail_if_no_progress (with_reducible apply hR.upd; all_goals try first | with_reducible exact .inr rfl | exact .inl (by decide +kernel) | exact id)
    | dsimp only
    | intro _ _
    | intro _
    | contradiction
    | (unfold id)
    | split
    | (rename_i hh; injection hh with hh; subst hh)
    | (rename_i hh; split at hh)

theorem State.setPool_keeps {R : State → Prop} (hR : Keeps [.gkPool] ⟨[], [], [], false⟩ R) (s : State) (n k p : Nat) (x : GkPool)
    (hI : R s) : R (State.setPool s n k p x) := by
  unfold State.setPool
  try dsimp only
  repeat' first
    | with_reducible assumption
    | exact hR.sub
    | exact fun h => memWf_memStore h
    | exact fun h => memWf_memPut h
    | exact fun h => memWf_filter _ h
    | exact fun _ => rfl
    | with_reducible apply rel_ite
    | fail_if_no_progress (with_reducible apply hR.upd; all_goals try first | with_reducible exact .inr rfl | exact .inl (by decide +kernel) | exact id)
    | dsimp only
    | intro _ _
    | intro _
    | contradiction
    | (unfold id)
    | split
    | (rename_i hh; injection hh with hh; subst hh)
    | (rename_i hh; split at hh)

theorem State.forward_keeps {R : State → Prop} (hR : Keeps [.rtq, .ni] ⟨[], [], [], false⟩ R) (s : State) (site r c port : Nat) (p : Pkt)
    (hI : R s) : R (State.forward s site r c port p) := by
  unfold State.forward
  try dsimp only
  repeat' first
    | with_reducible assumption
    | exact hR.sub
    | exact fun h => memWf_memStore h
    | exact fun h => memWf_memPut h
    | exact fun h => memWf_filter _ h
    | exact fun _ => rfl
    | with_reducible apply rel_ite
    | with_reducible apply State.enq_keeps
    | with_reducible apply State.setNi_keeps
    | fail_if_no_progress (with_reducible apply hR.upd; all_goals try first | with_reducible exact .inr rfl | exact .inl (by decide +kernel) | exact id)
    | dsimp only
    | intro _ _
    | intro _
    | contradiction
    | (unfold id)
    | split
    | (rename_i hh; injection hh with hh; subst hh)
    | (rename_i hh; split at hh)

theorem State.setRtNext_keeps {R : State → Prop} (hR : Keeps [.rtPend] ⟨[], [], [], false⟩ R) (s : State) (site r c : Nat) (x : Option (Nat × Nat))
    (hI : R s) : R (State.setRtNext s site r c x) := by
  unfold State.setRtNext
  try dsimp only
  repeat' first
    | with_reducible assumption
    | exact hR.sub
    | exact fun h => memWf_memStore h
    | exact fun h => memWf_memPut h
    | exact fun h => memWf_filter _ h
    | exact fun _ => rfl
    | with_reducible apply rel_ite
    | fail_if_no_progress (with_reducible apply hR.upd; all_goals try first | with_reducible exact .inr rfl | exact .inl (by decide +kernel) | exact id)
    | dsimp only
    | intro _ _
    | intro _
    | contradiction
    | (unfold id)
    | split
    | (rename_i hh; injection hh with hh; subst hh)
    | (rename_i hh; split at hh)

theorem State.decide__keeps {R : State → Prop} (hR : Keeps [.arbs, .rtPend] ⟨[], [], [], false⟩ R) (s : State) (site r c : Nat)
    (hI : R s) : R (State.decide_ s site r c) := by
  unfold State.decide_
  try dsimp only
  repeat' first
    | with_reducible assumption
    | exact hR.sub
    | exact fun h => memWf_memStore h
    | exact fun h => memWf_memPut h
    | exact fun h => memWf_filter _ h
    | exact fun _ => rfl
    | with_reducible apply rel_ite
    | with_reducible apply State.setArb_keeps
    | with_reducible apply State.setRtNext_keeps
    | fail_if_no_progress (with_reducible apply hR.upd; all_goals try first | with_reducible exact .inr rfl | exact .inl (by decide +kernel) | exact id)
    | dsimp only
    | intro _ _
    | intro _
    | contradiction
    | (unfold id)
    | split
    | (rename_i hh; injection hh with hh; subst hh)
    | (rename_i hh; split at hh)

theorem State.choose_keeps {R : State → Prop} (hR : Keeps [.arbs, .rtPend] ⟨[], [], [], false⟩ R) (s : State) (site r c : Nat) (hI : R s) :
    R (State.choose s site r c).1 := by
  unfold State.choose
  dsimp only
  split
  · exact hI
  · exact State.decide__keeps hR.sub s _ _ _ hI

theorem State.choose_keeps_of {R : State → Prop} (hR : Keeps [.arbs, .rtPend] ⟨[], [], [], false⟩ R) (s : State) (site r c : Nat) (hI : R s)
    {a : Option (Nat × Nat × Pkt)} {t : State} (eE : s.choose site r c = (t, a)) : R t := by
  have h := State.choose_keeps hR.sub s site r c hI
  rw [eE] at h; exact h

theorem State.poolDecide_keeps {R : State → Prop} (hR : Keeps [.arbs, .gkPool] ⟨[], [], [], false⟩ R) (s : State) (n k pl : Nat)
    (hI : R s) : R (State.poolDecide s n k pl) := by
  unfold State.poolDecide
  try dsimp only
  repeat' first
    | with_reducible assumption
    | exact hR.sub
    | exact fun h => memWf_memStore h
    | exact fun h => memWf_memPut h
    | exact fun h => memWf_filter _ h
    | exact fun _ => rfl
    | with_reducible apply rel_ite
    | with_reducible apply State.setArb_keeps
    | with_reducible apply State.setPool_keeps
    | fail_if_no_progress (with_reducible apply hR.upd; all_goals try first | with_reducible exact .inr rfl | exact .inl (by decide +kernel) | exact id)
    | dsimp only
    | intro _ _
    | intro _
    | contradiction
    | (unfold id)
    | split
    | (rename_i hh; injection hh with hh; subst hh)
    | (rename_i hh; split at hh)

theorem State.poolGrant_keeps {R : State → Prop} (hR : Keeps [.arbs, .rtq, .rtPend, .gkPool, .txq] ⟨[], [], [], false⟩ R) (s : State) (n k pl : Nat)
    (hI : R s) : R (State.poolGrant s n k pl) := by
  unfold State.poolGrant
  try dsimp only
  repeat' first
    | with_reducible assumption
    | exact hR.sub
    | exact fun h => memWf_memStore h
    | exact fun h => memWf_memPut h
    | exact fun h => memWf_filter _ h
    | exact fun _ => rfl
    | with_reducible apply rel_ite
    | with_reducible apply State.decide__keeps
    | with_reducible apply State.deq_keeps
    | with_reducible apply State.poolDecide_keeps
    | with_reducible apply State.setPool_keeps
    | fail_if_no_progress (with_reducible apply hR.upd; all_goals try first | with_reducible exact .inr rfl | exact .inl (by decide +kernel) | exact id)
    | dsimp only
    | intro _ _
    | intro _
    | contradiction
    | (unfold id)
    | split
    | (rename_i hh; injection hh with hh; subst hh)
    | (rename_i hh; split at hh)

theorem State.outGo_keeps {R : State → Prop} (hR : Keeps [.arbs, .rtq, .ni, .rtPend, .gkPool, .txq] ⟨[], [], [], false⟩ R) (s : State) (site r c : Nat)
    (hI : R s) : R (State.outGo s site r c) := by
  unfold State.outGo
  try dsimp only
  repeat' first
    | with_reducible assumption
    | exact hR.sub
    | exact fun h => memWf_memStore h
    | exact fun h => memWf_memPut h
    | exact fun h => memWf_filter _ h
    | exact fun _ => rfl
    | with_reducible apply rel_ite
    | with_reducible apply State.choose_keeps
    | with_reducible apply State.decide__keeps
    | with_reducible apply State.deq_keeps
    | with_reducible apply State.forward_keeps
    | with_reducible apply State.poolGrant_keeps
    | fail_if_no_progress (with_reducible apply hR.upd; all_goals try first | with_reducible exact .inr rfl | exact .inl (by decide +kernel) | exact id)
    | dsimp only
    | intro _ _
    | intro _
    | contradiction
    | (unfold id)
    | split
    | (rename_i hh; injection hh with hh; subst hh)
    | (rename_i hh; split at hh)

theorem State.voidAt_keeps {R : State → Prop} (hR : Keeps [.rtPend, .gkPool] ⟨[], [], [], false⟩ R) (s : State) (site r port vc c : Nat)
    (hI : R s) : R (State.voidAt s site r port vc c) := by
  unfold State.voidAt
  try dsimp only
  repeat' first
    | with_reducible assumption
    | exact hR.sub
    | exact fun h => memWf_memStore h
    | exact fun h => memWf_memPut h
    | exact fun h => memWf_filter _ h
    | exact fun _ => rfl
    | with_reducible apply rel_ite
    | with_reducible apply State.setPool_keeps
    | with_reducible apply State.setRtNext_keeps
    | (with_reducible apply rel_foldl; intro _ _ _)
    | (with_reducible apply rel_foldl2; intro _ _ _)
    | (with_reducible apply rel_foldl3; intro _ _ _)
    | (with_reducible apply rel_foldl1; intro _ _ _)
    | fail_if_no_progress (with_reducible apply hR.upd; all_goals try first | with_reducible exact .inr rfl | exact .inl (by decide +kernel) | exact id)
    | dsimp only
    | intro _ _
    | intro _
    | contradiction
    | (unfold id)
    | split
    | (rename_i hh; injection hh with hh; subst hh)
    | (rename_i hh; split at hh)

def opPartsBounceHead : List Part := [.regs, .arbs, .rtq, .ni, .rtPend, .gkPool, .txq]

theorem State.bounceHead_keeps {R : State → Prop} (hR : Keeps opPartsBounceHead ⟨[.NOC_RTR_BOUNCE_COUNT], [], [], false⟩ R) (s : State) (site r port vc : Nat)
    (hI : R s) : R (State.bounceHead s site r port vc) := by
  unfold State.bounceHead
  try dsimp only
  repeat' first
    | with_reducible assumption
    | exact hR.sub
    | exact fun h => memWf_memStore h
    | exact fun h => memWf_memPut h
    | exact fun h => memWf_filter _ h
    | exact fun _ => rfl
    | exact hR.sub (by decide +kernel) (subFld_self _ _)
    | with_reducible apply rel_ite
    | with_reducible apply State.bump_keeps
    | with_reducible apply State.outGo_keeps
    | with_reducible apply State.setHead_keeps
    | with_reducible apply State.voidAt_keeps
    | fail_if_no_progress (with_reducible apply hR.upd; all_goals try first | with_reducible exact .inr rfl | exact .inl (by decide +kernel) | exact id)
    | dsimp only
    | intro _ _
    | intro _
    | contradiction
    | (unfold id)
    | split
    | (rename_i hh; injection hh with hh; subst hh)
    | (rename_i hh; split at hh)

theorem State.rtrErr_keeps {R : State → Prop} {f : Fld} (hR : Keeps [.regs] ⟨[f, .NOC_RTR_ERR_PORT], [], [], false⟩ R) (s : State) (site r port : Nat)
    (hI : R s) : R (State.rtrErr s site r port f) := by
  unfold State.rtrErr
  try dsimp only
  repeat' first
    | with_reducible assumption
    | exact hR.sub
    | with_reducible apply rel_ite
    | with_reducible refine hR.wr _ _ _ (by decide +kernel) (by first | decide +kernel | exact hasFld_self _ _ | exact hasFld_all _ | (simp [hasFld]; done) ) ?_
    | dsimp only
    | intro _ _
    | intro _
    | contradiction
    | (unfold id)
    | split
    | (rename_i hh; injection hh with hh; subst hh)
    | (rename_i hh; split at hh)

def opFieldsFlitErr : FSet :=
  ⟨[.NOC_RTR_CORCNT_COUNT, .NOC_RTR_ERR_DCOR, .NOC_RTR_ERR_DUNC, .NOC_RTR_ERR_HCOR, .NOC_RTR_ERR_HUNC,
    .NOC_RTR_ERR_PORT, .NOC_RTR_UNCCNT_COUNT], [], [], false⟩

theorem State.flitErr_keeps {R : State → Prop} (hR : Keeps [.regs, .stewards] opFieldsFlitErr R) (s : State) (site r port : Nat) (e : FlitErr)
    (hI : R s) : R (State.flitErr s site r port e) := by
  unfold State.flitErr
  try dsimp only
  repeat' first
    | with_reducible assumption
    | exact hR.sub
    | exact fun h => memWf_memStore h
    | exact fun h => memWf_memPut h
    | exact fun h => memWf_filter _ h
    | exact fun _ => rfl
    | exact hR.sub (by decide +kernel) (subFld_self _ _)
    | with_reducible apply rel_ite
    | with_reducible apply State.bump_keeps
    | with_reducible apply State.raise_keeps
    | with_reducible apply State.rtrErr_keeps
    | fail_if_no_progress (with_reducible apply hR.upd; all_goals try first | with_reducible exact .inr rfl | exact .inl (by decide +kernel) | exact id)
    | dsimp only
    | intro _ _
    | intro _
    | contradiction
    | (unfold id)
    | split
    | (rename_i hh; injection hh with hh; subst hh)
    | (rename_i hh; split at hh)

def opFieldsHeadChecks : FSet :=
  ⟨[.NOC_RTR_CORCNT_COUNT, .NOC_RTR_ERR_DCOR, .NOC_RTR_ERR_DUNC, .NOC_RTR_ERR_HCOR, .NOC_RTR_ERR_HUNC,
    .NOC_RTR_ERR_PORT, .NOC_RTR_UNCCNT_COUNT], [], [], false⟩

theorem State.headChecks_keeps {R : State → Prop} (hR : Keeps [.regs, .stewards, .poison, .rtq] opFieldsHeadChecks R) (s : State) (site r port vc : Nat) (errs : List FlitErr) (p : Pkt)
    (hI : R s) : R (State.headChecks s site r port vc errs p).1 := by
  unfold State.headChecks
  try dsimp only
  repeat' first
    | with_reducible assumption
    | exact hR.sub
    | exact fun h => memWf_memStore h
    | exact fun h => memWf_memPut h
    | exact fun h => memWf_filter _ h
    | exact fun _ => rfl
    | with_reducible apply rel_ite
    | with_reducible apply State.deq_keeps
    | with_reducible apply State.flitErr_keeps
    | with_reducible apply State.raise_keeps
    | with_reducible apply State.setHead_keeps
    | (with_reducible apply rel_foldl; intro _ _ _)
    | (with_reducible apply rel_foldl2; intro _ _ _)
    | (with_reducible apply rel_foldl3; intro _ _ _)
    | (with_reducible apply rel_foldl1; intro _ _ _)
    | fail_if_no_progress (with_reducible apply hR.upd; all_goals try first | with_reducible exact .inr rfl | exact .inl (by decide +kernel) | exact id)
    | dsimp only
    | intro _ _
    | intro _
    | contradiction
    | (unfold id)
    | split
    | (rename_i hh; injection hh with hh; subst hh)
    | (rename_i hh; split at hh)

theorem State.headChecks_keeps_of {R : State → Prop} (hR : Keeps [.regs, .stewards, .poison, .rtq] opFieldsHeadChecks R) (s : State) (site r port vc : Nat) (errs : List FlitErr) (p : Pkt)
    (hI : R s) {a : Bool} {tT : State} (eE : State.headChecks s site r port vc errs p = (tT, a)) : R tT := by
  have h := State.headChecks_keeps hR s site r port vc errs p hI
  rw [eE] at h
  exact h

theorem execRouterHeadFlit_keeps {R : State → Prop} (hR : Keeps partsRouterHeadFlit fieldsRouterHeadFlit R) (site : Fin 9) (r : Fin 24) (port : Fin 8) (vc : Fin 5) (errs : List FlitErr) (s : State)
    (hI : R s) {tT : State} (eE : execRouterHeadFlit site r port vc errs s = .next tT) : R tT := by
  unfold execRouterHeadFlit at eE
  try dsimp only at eE
  repeat' split at eE
  all_goals try (injection eE with eE; subst eE)
  all_goals repeat' first
    | with_reducible assumption
    | exact hR.sub
    | exact fun h => memWf_memStore h
    | exact fun h => memWf_memPut h
    | exact fun h => memWf_filter _ h
    | exact fun _ => rfl
    | with_reducible apply rel_ite
    | with_reducible apply State.bounceHead_keeps
    | with_reducible apply State.dirNext_keeps
    | with_reducible apply State.flashMessage_keeps
    | with_reducible apply State.headChecks_keeps
    | with_reducible apply State.message_keeps
    | with_reducible apply State.outGo_keeps
    | with_reducible apply State.packageReset_keeps
    | with_reducible apply State.powerOn_keeps
    | with_reducible apply State.reach_keeps
    | (refine State.headChecks_keeps_of hR.sub _ _ _ _ _ _ _ ?_ (by assumption))
    | fail_if_no_progress (with_reducible apply hR.upd; all_goals try first | with_reducible exact .inr rfl | exact .inl (by decide +kernel) | exact id)
    | dsimp only
    | intro _ _
    | intro _
    | contradiction
    | (unfold id)
    | split
    | (rename_i hh; injection hh with hh; subst hh)
    | (rename_i hh; split at hh)

theorem execStallBounce_keeps {R : State → Prop} (hR : Keeps partsStallBounce fieldsStallBounce R) (site : Fin 9) (r : Fin 24) (port : Fin 8) (vc : Fin 5) (s : State)
    (hI : R s) {tT : State} (eE : execStallBounce site r port vc s = .next tT) : R tT := by
  unfold execStallBounce at eE
  try dsimp only at eE
  repeat' split at eE
  all_goals try (injection eE with eE; subst eE)
  all_goals repeat' first
    | with_reducible assumption
    | exact hR.sub
    | exact fun h => memWf_memStore h
    | exact fun h => memWf_memPut h
    | exact fun h => memWf_filter _ h
    | exact fun _ => rfl
    | with_reducible apply rel_ite
    | with_reducible apply State.bounceHead_keeps
    | with_reducible apply State.dirNext_keeps
    | with_reducible apply State.flashMessage_keeps
    | with_reducible apply State.lapseTo_keeps
    | with_reducible apply State.message_keeps
    | with_reducible apply State.packageReset_keeps
    | with_reducible apply State.powerOn_keeps
    | with_reducible apply State.reach_keeps
    | fail_if_no_progress (with_reducible apply hR.upd; all_goals try first | with_reducible exact .inr rfl | exact .inl (by decide +kernel) | exact id)
    | dsimp only
    | intro _ _
    | intro _
    | contradiction
    | (unfold id)
    | split
    | (rename_i hh; injection hh with hh; subst hh)
    | (rename_i hh; split at hh)

theorem execPortDrain_keeps {R : State → Prop} (hR : Keeps partsPortDrain fieldsPortDrain R) (w : Writer) (site : Fin 9) (r : Fin 24) (bits : BitVec 8) (s : State)
    (hI : R s) {tT : State} (eE : execPortDrain w site r bits s = .next tT) : R tT := by
  unfold execPortDrain at eE
  try dsimp only at eE
  repeat' split at eE
  all_goals try (injection eE with eE; subst eE)
  all_goals repeat' first
    | with_reducible assumption
    | exact hR.sub
    | exact fun h => memWf_memStore h
    | exact fun h => memWf_memPut h
    | exact fun h => memWf_filter _ h
    | exact fun _ => rfl
    | with_reducible apply rel_ite
    | with_reducible refine hR.wr _ _ _ (by decide +kernel) (by first | decide +kernel | exact hasFld_self _ _ | exact hasFld_all _ | (simp [hasFld]; done) ) ?_
    | with_reducible apply State.dirNext_keeps
    | with_reducible apply State.flashMessage_keeps
    | with_reducible apply State.message_keeps
    | with_reducible apply State.packageReset_keeps
    | with_reducible apply State.powerOn_keeps
    | with_reducible apply State.reach_keeps
    | (with_reducible apply rel_foldl; intro _ _ _)
    | (with_reducible apply rel_foldl2; intro _ _ _)
    | (with_reducible apply rel_foldl3; intro _ _ _)
    | (with_reducible apply rel_foldl1; intro _ _ _)
    | fail_if_no_progress (with_reducible apply hR.upd; all_goals try first | with_reducible exact .inr rfl | exact .inl (by decide +kernel) | exact id)
    | dsimp only
    | intro _ _
    | intro _
    | contradiction
    | (unfold id)
    | split
    | (rename_i hh; injection hh with hh; subst hh)
    | (rename_i hh; split at hh)

theorem execPortDrained_keeps {R : State → Prop} (hR : Keeps partsPortDrained fieldsPortDrained R) (site : Fin 9) (r : Fin 24) (p : Fin 8) (s : State)
    (hI : R s) {tT : State} (eE : execPortDrained site r p s = .next tT) : R tT := by
  unfold execPortDrained at eE
  try dsimp only at eE
  repeat' split at eE
  all_goals try (injection eE with eE; subst eE)
  all_goals repeat' first
    | with_reducible assumption
    | exact hR.sub
    | exact hR.sub (by decide +kernel) (subFld_self _ _)
    | with_reducible apply rel_ite
    | with_reducible apply State.dirNext_keeps
    | with_reducible apply State.flashMessage_keeps
    | with_reducible apply State.message_keeps
    | with_reducible apply State.packageReset_keeps
    | with_reducible apply State.powerOn_keeps
    | with_reducible apply State.reach_keeps
    | with_reducible apply State.setBit_keeps
    | dsimp only
    | intro _ _
    | intro _
    | contradiction
    | (unfold id)
    | split
    | (rename_i hh; injection hh with hh; subst hh)
    | (rename_i hh; split at hh)

theorem execDrainTimeoutBounce_keeps {R : State → Prop} (hR : Keeps partsDrainTimeoutBounce fieldsDrainTimeoutBounce R) (site : Fin 9) (r : Fin 24) (port : Fin 8) (vc : Fin 5) (s : State)
    (hI : R s) {tT : State} (eE : execDrainTimeoutBounce site r port vc s = .next tT) : R tT := by
  unfold execDrainTimeoutBounce at eE
  try dsimp only at eE
  repeat' split at eE
  all_goals try (injection eE with eE; subst eE)
  all_goals repeat' first
    | with_reducible assumption
    | exact hR.sub
    | exact fun h => memWf_memStore h
    | exact fun h => memWf_memPut h
    | exact fun h => memWf_filter _ h
    | exact fun _ => rfl
    | with_reducible apply rel_ite
    | with_reducible apply State.bounceHead_keeps
    | with_reducible apply State.dirNext_keeps
    | with_reducible apply State.flashMessage_keeps
    | with_reducible apply State.lapseTo_keeps
    | with_reducible apply State.message_keeps
    | with_reducible apply State.packageReset_keeps
    | with_reducible apply State.powerOn_keeps
    | with_reducible apply State.reach_keeps
    | fail_if_no_progress (with_reducible apply hR.upd; all_goals try first | with_reducible exact .inr rfl | exact .inl (by decide +kernel) | exact id)
    | dsimp only
    | intro _ _
    | intro _
    | contradiction
    | (unfold id)
    | split
    | (rename_i hh; injection hh with hh; subst hh)
    | (rename_i hh; split at hh)

theorem execRouterPortConfig_keeps {R : State → Prop} (hR : Keeps partsRouterPortConfig fieldsRouterPortConfig R) (w : Writer) (site : Fin 9) (r : Fin 24) (p : Fin 8) (vc : Bool) (v : BitVec 32) (s : State)
    (hI : R s) {tT : State} (eE : execRouterPortConfig w site r p vc v s = .next tT) : R tT := by
  unfold execRouterPortConfig at eE
  try dsimp only at eE
  repeat' split at eE
  all_goals try (injection eE with eE; subst eE)
  all_goals repeat' first
    | with_reducible assumption
    | exact hR.sub
    | with_reducible apply rel_ite
    | with_reducible refine hR.wr _ _ _ (by decide +kernel) (by first | decide +kernel | exact hasFld_self _ _ | exact hasFld_all _ | (simp [hasFld]; done) ) ?_
    | with_reducible apply State.dirNext_keeps
    | with_reducible apply State.drop_keeps
    | with_reducible apply State.flashMessage_keeps
    | with_reducible apply State.message_keeps
    | with_reducible apply State.packageReset_keeps
    | with_reducible apply State.powerOn_keeps
    | with_reducible apply State.reach_keeps
    | (with_reducible apply rel_foldl; intro _ _ _)
    | (with_reducible apply rel_foldl2; intro _ _ _)
    | (with_reducible apply rel_foldl3; intro _ _ _)
    | (with_reducible apply rel_foldl1; intro _ _ _)
    | dsimp only
    | intro _ _
    | intro _
    | contradiction
    | (unfold id)
    | split
    | (rename_i hh; injection hh with hh; subst hh)
    | (rename_i hh; split at hh)

theorem State.setBearing_keeps {R : State → Prop} (hR : Keeps [.bearings] ⟨[], [], [], false⟩ R) (s : State) (site ni k : Nat) (b : List Nat)
    (hI : R s) : R (State.setBearing s site ni k b) := by
  unfold State.setBearing
  try dsimp only
  repeat' first
    | with_reducible assumption
    | exact hR.sub
    | exact fun h => memWf_memStore h
    | exact fun h => memWf_memPut h
    | exact fun h => memWf_filter _ h
    | exact fun _ => rfl
    | with_reducible apply rel_ite
    | fail_if_no_progress (with_reducible apply hR.upd; all_goals try first | with_reducible exact .inr rfl | exact .inl (by decide +kernel) | exact id)
    | dsimp only
    | intro _ _
    | intro _
    | contradiction
    | (unfold id)
    | split
    | (rename_i hh; injection hh with hh; subst hh)
    | (rename_i hh; split at hh)

theorem execBearingRead_keeps {R : State → Prop} (hR : Keeps partsBearingRead fieldsBearingRead R) (w : Writer) (site : Fin 9) (ni : Fin 48) (k : Fin 512) (s : State)
    (hI : R s) {tT : State} (eE : execBearingRead w site ni k s = .next tT) : R tT := by
  unfold execBearingRead at eE
  try dsimp only at eE
  repeat' split at eE
  all_goals try (injection eE with eE; subst eE)
  all_goals repeat' first
    | with_reducible assumption
    | exact hR.sub
    | with_reducible apply rel_ite
    | with_reducible refine hR.wr _ _ _ (by decide +kernel) (by first | decide +kernel | exact hasFld_self _ _ | exact hasFld_all _ | (simp [hasFld]; done) ) ?_
    | with_reducible apply State.dirNext_keeps
    | with_reducible apply State.flashMessage_keeps
    | with_reducible apply State.message_keeps
    | with_reducible apply State.packageReset_keeps
    | with_reducible apply State.powerOn_keeps
    | with_reducible apply State.reach_keeps
    | (with_reducible apply rel_foldl; intro _ _ _)
    | (with_reducible apply rel_foldl2; intro _ _ _)
    | (with_reducible apply rel_foldl3; intro _ _ _)
    | (with_reducible apply rel_foldl1; intro _ _ _)
    | dsimp only
    | intro _ _
    | intro _
    | contradiction
    | (unfold id)
    | split
    | (rename_i hh; injection hh with hh; subst hh)
    | (rename_i hh; split at hh)

theorem State.putBearing_keeps {R : State → Prop} (hR : Keeps [.ni, .bearings] ⟨[], [], [], false⟩ R) (s : State) (site ni k : Nat) (b : List Nat)
    (hI : R s) : R (State.putBearing s site ni k b) := by
  unfold State.putBearing
  try dsimp only
  repeat' first
    | with_reducible assumption
    | exact hR.sub
    | with_reducible apply rel_ite
    | with_reducible apply State.setBearing_keeps
    | with_reducible apply State.setNi_keeps
    | dsimp only
    | intro _ _
    | intro _
    | contradiction
    | (unfold id)
    | split
    | (rename_i hh; injection hh with hh; subst hh)
    | (rename_i hh; split at hh)

theorem State.putBearings_keeps {R : State → Prop} (hR : Keeps [.ni, .bearings] ⟨[], [], [], false⟩ R) (s : State) (bs : BearingSet)
    (hI : R s) : R (State.putBearings s bs) := by
  unfold State.putBearings
  try dsimp only
  repeat' first
    | with_reducible assumption
    | exact hR.sub
    | with_reducible apply rel_ite
    | with_reducible apply State.putBearing_keeps
    | (with_reducible apply rel_foldl; intro _ _ _)
    | (with_reducible apply rel_foldl2; intro _ _ _)
    | (with_reducible apply rel_foldl3; intro _ _ _)
    | (with_reducible apply rel_foldl1; intro _ _ _)
    | dsimp only
    | intro _ _
    | intro _
    | contradiction
    | (unfold id)
    | split
    | (rename_i hh; injection hh with hh; subst hh)
    | (rename_i hh; split at hh)

theorem execBearingWrite_keeps {R : State → Prop} (hR : Keeps partsBearingWrite fieldsBearingWrite R) (w : Writer) (site : Fin 9) (ni : Fin 48) (k : Fin 512) (s : State)
    (hI : R s) {tT : State} (eE : execBearingWrite w site ni k s = .next tT) : R tT := by
  unfold execBearingWrite at eE
  try dsimp only at eE
  repeat' split at eE
  all_goals try (injection eE with eE; subst eE)
  all_goals repeat' first
    | with_reducible assumption
    | exact hR.sub
    | with_reducible apply rel_ite
    | with_reducible refine hR.wr _ _ _ (by decide +kernel) (by first | decide +kernel | exact hasFld_self _ _ | exact hasFld_all _ | (simp [hasFld]; done) ) ?_
    | with_reducible apply State.dirNext_keeps
    | with_reducible apply State.drop_keeps
    | with_reducible apply State.flashMessage_keeps
    | with_reducible apply State.message_keeps
    | with_reducible apply State.packageReset_keeps
    | with_reducible apply State.powerOn_keeps
    | with_reducible apply State.putBearing_keeps
    | with_reducible apply State.reach_keeps
    | dsimp only
    | intro _ _
    | intro _
    | contradiction
    | (unfold id)
    | split
    | (rename_i hh; injection hh with hh; subst hh)
    | (rename_i hh; split at hh)

theorem execBearingInvalidate_keeps {R : State → Prop} (hR : Keeps partsBearingInvalidate fieldsBearingInvalidate R) (w : Writer) (site : Fin 9) (ni : Fin 48) (k : Fin 512) (s : State)
    (hI : R s) {tT : State} (eE : execBearingInvalidate w site ni k s = .next tT) : R tT := by
  unfold execBearingInvalidate at eE
  try dsimp only at eE
  repeat' split at eE
  all_goals try (injection eE with eE; subst eE)
  all_goals repeat' first
    | with_reducible assumption
    | exact hR.sub
    | with_reducible apply rel_ite
    | with_reducible refine hR.wr _ _ _ (by decide +kernel) (by first | decide +kernel | exact hasFld_self _ _ | exact hasFld_all _ | (simp [hasFld]; done) ) ?_
    | with_reducible apply State.dirNext_keeps
    | with_reducible apply State.flashMessage_keeps
    | with_reducible apply State.message_keeps
    | with_reducible apply State.packageReset_keeps
    | with_reducible apply State.powerOn_keeps
    | with_reducible apply State.reach_keeps
    | with_reducible apply State.setBearing_keeps
    | dsimp only
    | intro _ _
    | intro _
    | contradiction
    | (unfold id)
    | split
    | (rename_i hh; injection hh with hh; subst hh)
    | (rename_i hh; split at hh)

theorem State.niErr_keeps {R : State → Prop} (hR : Keeps [.regs] ⟨[.NOC_NI_ERR_CODE, .NOC_NI_ERR_DEST, .NOC_NI_ERR_VALID], [], [], false⟩ R) (s : State) (site ni code dest : Nat)
    (hI : R s) : R (State.niErr s site ni code dest) := by
  unfold State.niErr
  try dsimp only
  repeat' first
    | with_reducible assumption
    | exact hR.sub
    | with_reducible apply rel_ite
    | with_reducible refine hR.wr _ _ _ (by decide +kernel) (by first | decide +kernel | exact hasFld_self _ _ | exact hasFld_all _ | (simp [hasFld]; done) ) ?_
    | dsimp only
    | intro _ _
    | intro _
    | contradiction
    | (unfold id)
    | split
    | (rename_i hh; injection hh with hh; subst hh)
    | (rename_i hh; split at hh)

theorem State.toOwn_keeps {R : State → Prop} (hR : Keeps [.ni] ⟨[], [], [], false⟩ R) (s : State) (site ni : Nat) (p : Pkt)
    (hI : R s) : R (State.toOwn s site ni p) := by
  unfold State.toOwn
  try dsimp only
  repeat' first
    | with_reducible assumption
    | exact hR.sub
    | exact fun h => memWf_memStore h
    | exact fun h => memWf_memPut h
    | exact fun h => memWf_filter _ h
    | exact fun _ => rfl
    | with_reducible apply rel_ite
    | with_reducible apply State.setNi_keeps
    | fail_if_no_progress (with_reducible apply hR.upd; all_goals try first | with_reducible exact .inr rfl | exact .inl (by decide +kernel) | exact id)
    | dsimp only
    | intro _ _
    | intro _
    | contradiction
    | (unfold id)
    | split
    | (rename_i hh; injection hh with hh; subst hh)
    | (rename_i hh; split at hh)

theorem State.niPush_keeps {R : State → Prop} (hR : Keeps [.ni, .hold] ⟨[], [], [], false⟩ R) (s : State) (site ni : Nat) (p : Pkt)
    (hI : R s) : R (State.niPush s site ni p) := by
  unfold State.niPush
  try dsimp only
  repeat' first
    | with_reducible assumption
    | exact hR.sub
    | exact fun h => memWf_memStore h
    | exact fun h => memWf_memPut h
    | exact fun h => memWf_filter _ h
    | exact fun _ => rfl
    | with_reducible apply rel_ite
    | with_reducible apply State.setNi_keeps
    | fail_if_no_progress (with_reducible apply hR.upd; all_goals try first | with_reducible exact .inr rfl | exact .inl (by decide +kernel) | exact id)
    | dsimp only
    | intro _ _
    | intro _
    | contradiction
    | (unfold id)
    | split
    | (rename_i hh; injection hh with hh; subst hh)
    | (rename_i hh; split at hh)

theorem State.niEnter_keeps {R : State → Prop} (hR : Keeps [.rtq] ⟨[], [], [], false⟩ R) (s : State) (site ni : Nat) (p : Pkt)
    (hI : R s) : R (State.niEnter s site ni p) := by
  unfold State.niEnter
  try dsimp only
  repeat' first
    | with_reducible assumption
    | exact hR.sub
    | with_reducible apply rel_ite
    | with_reducible apply State.enq_keeps
    | dsimp only
    | intro _ _
    | intro _
    | contradiction
    | (unfold id)
    | split
    | (rename_i hh; injection hh with hh; subst hh)
    | (rename_i hh; split at hh)

theorem State.niCount_keeps {R : State → Prop} (hR : Keeps [.ni] ⟨[], [], [], false⟩ R) (s : State) (site ni : Nat) (p : Pkt)
    (hI : R s) : R (State.niCount s site ni p) := by
  unfold State.niCount
  try dsimp only
  repeat' first
    | with_reducible assumption
    | exact hR.sub
    | exact fun h => memWf_memStore h
    | exact fun h => memWf_memPut h
    | exact fun h => memWf_filter _ h
    | exact fun _ => rfl
    | with_reducible apply rel_ite
    | with_reducible apply State.setNi_keeps
    | fail_if_no_progress (with_reducible apply hR.upd; all_goals try first | with_reducible exact .inr rfl | exact .inl (by decide +kernel) | exact id)
    | dsimp only
    | intro _ _
    | intro _
    | contradiction
    | (unfold id)
    | split
    | (rename_i hh; injection hh with hh; subst hh)
    | (rename_i hh; split at hh)

theorem State.niRefuse_keeps {R : State → Prop} (hR : Keeps [.stewards, .ni, .hold] ⟨[], [], [], false⟩ R) (s : State) (site ni : Nat) (p : Pkt) (status : Nat)
    (hI : R s) : R (State.niRefuse s site ni p status) := by
  unfold State.niRefuse
  try dsimp only
  repeat' first
    | with_reducible assumption
    | exact hR.sub
    | with_reducible apply rel_ite
    | with_reducible apply State.niPush_keeps
    | with_reducible apply State.refuse19_keeps
    | with_reducible apply State.toOwn_keeps
    | dsimp only
    | intro _ _
    | intro _
    | contradiction
    | (unfold id)
    | split
    | (rename_i hh; injection hh with hh; subst hh)
    | (rename_i hh; split at hh)

theorem State.niFail_keeps {R : State → Prop} (hR : Keeps [.regs, .stewards, .ni, .hold] ⟨[.NOC_NI_ERR_CODE, .NOC_NI_ERR_DEST, .NOC_NI_ERR_VALID, .NOC_NI_FAIL_CNT_COUNT], [], [], false⟩ R) (s : State) (site ni : Nat) (p : Pkt)
    (hI : R s) : R (State.niFail s site ni p) := by
  unfold State.niFail
  try dsimp only
  repeat' first
    | with_reducible assumption
    | exact hR.sub
    | exact fun h => memWf_memStore h
    | exact fun h => memWf_memPut h
    | exact fun h => memWf_filter _ h
    | exact fun _ => rfl
    | exact hR.sub (by decide +kernel) (subFld_self _ _)
    | with_reducible apply rel_ite
    | with_reducible apply State.bump_keeps
    | with_reducible apply State.niErr_keeps
    | with_reducible apply State.niPush_keeps
    | with_reducible apply State.raise_keeps
    | with_reducible apply State.setNi_keeps
    | with_reducible apply State.toOwn_keeps
    | fail_if_no_progress (with_reducible apply hR.upd; all_goals try first | with_reducible exact .inr rfl | exact .inl (by decide +kernel) | exact id)
    | dsimp only
    | intro _ _
    | intro _
    | contradiction
    | (unfold id)
    | split
    | (rename_i hh; injection hh with hh; subst hh)
    | (rename_i hh; split at hh)

theorem State.niBounce_keeps {R : State → Prop} (hR : Keeps [.regs, .stewards, .ni, .bearings, .hold] ⟨[.NOC_NI_ALT_CNT_COUNT, .NOC_NI_BOUNCE_CNT_COUNT, .NOC_NI_ERR_CODE, .NOC_NI_ERR_DEST, .NOC_NI_ERR_VALID, .NOC_NI_FAIL_CNT_COUNT], [], [], false⟩ R) (s : State) (site ni : Nat) (p : Pkt)
    (hI : R s) : R (State.niBounce s site ni p) := by
  unfold State.niBounce
  try dsimp only
  repeat' first
    | with_reducible assumption
    | exact hR.sub
    | exact fun h => memWf_memStore h
    | exact fun h => memWf_memPut h
    | exact fun h => memWf_filter _ h
    | exact fun _ => rfl
    | exact hR.sub (by decide +kernel) (subFld_self _ _)
    | with_reducible apply rel_ite
    | with_reducible apply State.bump_keeps
    | with_reducible apply State.niFail_keeps
    | with_reducible apply State.setBearing_keeps
    | with_reducible apply State.setNi_keeps
    | fail_if_no_progress (with_reducible apply hR.upd; all_goals try first | with_reducible exact .inr rfl | exact .inl (by decide +kernel) | exact id)
    | dsimp only
    | intro _ _
    | intro _
    | contradiction
    | (unfold id)
    | split
    | (rename_i hh; injection hh with hh; subst hh)
    | (rename_i hh; split at hh)

theorem State.pumpResend_keeps {R : State → Prop} (hR : Keeps [.regs, .stewards, .rtq, .ni, .hold] ⟨[.NOC_NI_BOUNCE_CNT_COUNT, .NOC_NI_ERR_CODE, .NOC_NI_ERR_DEST, .NOC_NI_ERR_VALID, .NOC_NI_FAIL_CNT_COUNT], [], [], false⟩ R) (s : State) (site ni : Nat)
    (hI : R s) : R (State.pumpResend s site ni) := by
  unfold State.pumpResend
  extract_lets l x1 s1
  have h1 : R s1 := State.setNi_keeps hR.sub _ _ _ _ hI
  clear_value s1
  refine rel_foldl1 (p := (s1, [])) (fun a p h => ?_) l h1
  obtain ⟨s, stuck⟩ := a
  dsimp only at h ⊢
  repeat' first
    | split
    | dsimp only
    | with_reducible exact State.niFail_keeps hR.sub _ _ _ _ h
    | with_reducible exact State.niFail_keeps hR.sub _ _ _ _ (State.bump_keeps (hR.sub (by decide +kernel) (subFld_self _ _)) _ _ _ h)
    | with_reducible exact State.niEnter_keeps hR.sub _ _ _ _ h
    | with_reducible exact State.setNi_keeps hR.sub _ _ _ _ h

theorem State.pumpHold_keeps {R : State → Prop} (hR : Keeps [.regs, .stewards, .rtq, .ni, .bearings, .hold] ⟨[.NOC_NI_ALT_CNT_COUNT, .NOC_NI_BOUNCE_CNT_COUNT, .NOC_NI_ERR_CODE, .NOC_NI_ERR_DEST, .NOC_NI_ERR_VALID, .NOC_NI_FAIL_CNT_COUNT], [], [], false⟩ R) (s : State) (site ni : Nat)
    (hI : R s) : R (State.pumpHold s site ni) := by
  unfold State.pumpHold
  extract_lets l x1 s1
  have h1 : R s1 := State.setNi_keeps hR.sub _ _ _ _ hI
  clear_value s1
  refine rel_foldl1 (p := (s1, [])) (fun a p h => ?_) l h1
  obtain ⟨s, stuck⟩ := a
  dsimp only at h ⊢
  repeat' first
    | split
    | dsimp only
    | with_reducible exact State.niPush_keeps hR.sub _ _ _ _ h
    | with_reducible exact State.niRefuse_keeps hR.sub _ _ _ _ _ (State.niErr_keeps hR.sub _ _ _ _ _ h)
    | with_reducible exact State.niBounce_keeps hR.sub _ _ _ _ (State.niCount_keeps hR.sub _ _ _ _ h)
    | with_reducible exact State.niEnter_keeps hR.sub _ _ _ _ (State.niCount_keeps hR.sub _ _ _ _ h)

theorem State.niPump_keeps {R : State → Prop} (hR : Keeps [.regs, .stewards, .rtq, .ni, .bearings, .hold] ⟨[.NOC_NI_ALT_CNT_COUNT, .NOC_NI_BOUNCE_CNT_COUNT, .NOC_NI_ERR_CODE, .NOC_NI_ERR_DEST, .NOC_NI_ERR_VALID, .NOC_NI_FAIL_CNT_COUNT], [], [], false⟩ R) (s : State) (site ni : Nat)
    (hI : R s) : R (State.niPump s site ni) := by
  unfold State.niPump
  try dsimp only
  repeat' first
    | with_reducible assumption
    | exact hR.sub
    | with_reducible apply rel_ite
    | with_reducible apply State.pumpHold_keeps
    | with_reducible apply State.pumpResend_keeps
    | dsimp only
    | intro _ _
    | intro _
    | contradiction
    | (unfold id)
    | split
    | (rename_i hh; injection hh with hh; subst hh)
    | (rename_i hh; split at hh)

theorem State.niSend_keeps {R : State → Prop} (hR : Keeps [.regs, .stewards, .rtq, .ni, .bearings, .hold] ⟨[.NOC_NI_ALT_CNT_COUNT, .NOC_NI_BOUNCE_CNT_COUNT, .NOC_NI_ERR_CODE, .NOC_NI_ERR_DEST, .NOC_NI_ERR_VALID, .NOC_NI_FAIL_CNT_COUNT], [], [], false⟩ R) (s : State) (site ni : Nat) (p : Pkt)
    (hI : R s) : R (State.niSend s site ni p) := by
  unfold State.niSend
  try dsimp only
  repeat' first
    | with_reducible assumption
    | exact hR.sub
    | exact fun h => memWf_memStore h
    | exact fun h => memWf_memPut h
    | exact fun h => memWf_filter _ h
    | exact fun _ => rfl
    | with_reducible apply rel_ite
    | with_reducible apply State.niPump_keeps
    | with_reducible apply State.niPush_keeps
    | with_reducible apply State.setNi_keeps
    | fail_if_no_progress (with_reducible apply hR.upd; all_goals try first | with_reducible exact .inr rfl | exact .inl (by decide +kernel) | exact id)
    | dsimp only
    | intro _ _
    | intro _
    | contradiction
    | (unfold id)
    | split
    | (rename_i hh; injection hh with hh; subst hh)
    | (rename_i hh; split at hh)

theorem execNiSend_keeps {R : State → Prop} (hR : Keeps partsNiSend fieldsNiSend R) (site : Fin 9) (ni : Fin 48) (opc : BitVec 5) (addr : BitVec 48) (tag : BitVec 10) (fn : BitVec 4) (data : List (BitVec 512)) (s : State)
    (hI : R s) {tT : State} (eE : execNiSend site ni opc addr tag fn data s = .next tT) : R tT := by
  unfold execNiSend at eE
  try dsimp only at eE
  repeat' split at eE
  all_goals try (injection eE with eE; subst eE)
  all_goals repeat' first
    | with_reducible assumption
    | exact hR.sub
    | exact fun h => memWf_memStore h
    | exact fun h => memWf_memPut h
    | exact fun h => memWf_filter _ h
    | exact fun _ => rfl
    | with_reducible apply rel_ite
    | with_reducible apply State.dirNext_keeps
    | with_reducible apply State.flashMessage_keeps
    | with_reducible apply State.message_keeps
    | with_reducible apply State.niPump_keeps
    | with_reducible apply State.niRefuse_keeps
    | with_reducible apply State.niSend_keeps
    | with_reducible apply State.packageReset_keeps
    | with_reducible apply State.powerOn_keeps
    | with_reducible apply State.reach_keeps
    | fail_if_no_progress (with_reducible apply hR.upd; all_goals try first | with_reducible exact .inr rfl | exact .inl (by decide +kernel) | exact id)
    | dsimp only
    | intro _ _
    | intro _
    | contradiction
    | (unfold id)
    | split
    | (rename_i hh; injection hh with hh; subst hh)
    | (rename_i hh; split at hh)

theorem State.niLost_keeps {R : State → Prop} (hR : Keeps [.stewards] ⟨[], [], [], false⟩ R) (s : State) (site ni : Nat)
    (hI : R s) : R (State.niLost s site ni) := by
  unfold State.niLost
  try dsimp only
  repeat' first
    | with_reducible assumption
    | exact hR.sub
    | with_reducible apply rel_ite
    | with_reducible apply State.raise_keeps
    | dsimp only
    | intro _ _
    | intro _
    | contradiction
    | (unfold id)
    | split
    | (rename_i hh; injection hh with hh; subst hh)
    | (rename_i hh; split at hh)

theorem execNiBounceReceive_keeps {R : State → Prop} (hR : Keeps partsNiBounceReceive fieldsNiBounceReceive R) (site : Fin 9) (ni : Fin 48) (hdrBad : Bool) (s : State)
    (hI : R s) {tT : State} (eE : execNiBounceReceive site ni hdrBad s = .next tT) : R tT := by
  unfold execNiBounceReceive at eE
  try dsimp only at eE
  repeat' split at eE
  all_goals try (injection eE with eE; subst eE)
  all_goals repeat' first
    | with_reducible assumption
    | exact hR.sub
    | exact fun h => memWf_memStore h
    | exact fun h => memWf_memPut h
    | exact fun h => memWf_filter _ h
    | exact fun _ => rfl
    | with_reducible apply rel_ite
    | with_reducible apply State.dirNext_keeps
    | with_reducible apply State.flashMessage_keeps
    | with_reducible apply State.message_keeps
    | with_reducible apply State.niBounce_keeps
    | with_reducible apply State.niLost_keeps
    | with_reducible apply State.niPump_keeps
    | with_reducible apply State.packageReset_keeps
    | with_reducible apply State.powerOn_keeps
    | with_reducible apply State.reach_keeps
    | with_reducible apply State.setNi_keeps
    | (with_reducible apply rel_foldl; intro _ _ _)
    | (with_reducible apply rel_foldl2; intro _ _ _)
    | (with_reducible apply rel_foldl3; intro _ _ _)
    | (with_reducible apply rel_foldl1; intro _ _ _)
    | fail_if_no_progress (with_reducible apply hR.upd; all_goals try first | with_reducible exact .inr rfl | exact .inl (by decide +kernel) | exact id)
    | dsimp only
    | intro _ _
    | intro _
    | contradiction
    | (unfold id)
    | split
    | (rename_i hh; injection hh with hh; subst hh)
    | (rename_i hh; split at hh)

theorem State.niAccept_keeps {R : State → Prop} (hR : Keeps [.ni] ⟨[], [], [], false⟩ R) (s : State) (site ni : Nat) (p : Pkt)
    (hI : R s) : R (State.niAccept s site ni p) := by
  unfold State.niAccept
  try dsimp only
  repeat' first
    | with_reducible assumption
    | exact hR.sub
    | exact fun h => memWf_memStore h
    | exact fun h => memWf_memPut h
    | exact fun h => memWf_filter _ h
    | exact fun _ => rfl
    | with_reducible apply rel_ite
    | with_reducible apply State.setNi_keeps
    | fail_if_no_progress (with_reducible apply hR.upd; all_goals try first | with_reducible exact .inr rfl | exact .inl (by decide +kernel) | exact id)
    | dsimp only
    | intro _ _
    | intro _
    | contradiction
    | (unfold id)
    | split
    | (rename_i hh; injection hh with hh; subst hh)
    | (rename_i hh; split at hh)

theorem execRelayForward_keeps {R : State → Prop} (hR : Keeps partsRelayForward fieldsRelayForward R) (site : Fin 9) (ni : Fin 48) (hdrBad : Bool) (s : State)
    (hI : R s) {tT : State} (eE : execRelayForward site ni hdrBad s = .next tT) : R tT := by
  unfold execRelayForward at eE
  try dsimp only at eE
  repeat' split at eE
  all_goals try (injection eE with eE; subst eE)
  all_goals repeat' first
    | with_reducible assumption
    | exact hR.sub
    | exact fun h => memWf_memStore h
    | exact fun h => memWf_memPut h
    | exact fun h => memWf_filter _ h
    | exact fun _ => rfl
    | with_reducible apply rel_ite
    | with_reducible apply State.dirNext_keeps
    | with_reducible apply State.flashMessage_keeps
    | with_reducible apply State.message_keeps
    | with_reducible apply State.niAccept_keeps
    | with_reducible apply State.niLost_keeps
    | with_reducible apply State.niSend_keeps
    | with_reducible apply State.packageReset_keeps
    | with_reducible apply State.powerOn_keeps
    | with_reducible apply State.reach_keeps
    | with_reducible apply State.setNi_keeps
    | fail_if_no_progress (with_reducible apply hR.upd; all_goals try first | with_reducible exact .inr rfl | exact .inl (by decide +kernel) | exact id)
    | dsimp only
    | intro _ _
    | intro _
    | contradiction
    | (unfold id)
    | split
    | (rename_i hh; injection hh with hh; subst hh)
    | (rename_i hh; split at hh)

def opPartsServe : List Part :=
  [.regs, .out, .draws, .stewards, .eng, .hbm, .poison, .win, .rcLines, .rcWb, .sf, .sfAge, .haIn, .homeOut, .leafMaj,
    .leafMin, .ccache, .hwm, .rtq, .ni, .bearings, .hold]
def opFieldsServe : FSet :=
  ⟨(.HA_BACKINV_CNT_COUNT :: .HA_STAT_RECALL :: .HA_STAT_SF_LEVEL :: .HBM_ERR_ADDR_HI_ADDR :: .HBM_ERR_ADDR_LO_ADDR ::
    .HBM_ERR_CH :: .HBM_ERR_CODE :: .HBM_ERR_PC :: .HBM_ERR_SID :: .HBM_ERR_VALID :: .NOC_NI_ALT_CNT_COUNT ::
    .NOC_NI_BOUNCE_CNT_COUNT :: .NOC_NI_ERR_CODE :: .NOC_NI_ERR_DEST :: .NOC_NI_ERR_VALID :: .NOC_NI_FAIL_CNT_COUNT ::
    .RC_HIT_CNT_COUNT :: .RC_MISS_CNT_COUNT :: .RC_SNP_CNT_COUNT :: .RC_STAT_RETAINED :: .RC_WB_CNT_COUNT ::
    .SEAL_CC_MISS_CNT_COUNT :: .SEAL_DENY_CNT_COUNT :: .SEAL_ERR_ADDR_HI_ADDR :: .SEAL_ERR_ADDR_LO_ADDR ::
    .SEAL_ERR_CODE :: .SEAL_ERR_LEVEL :: .SEAL_ERR_RANGE :: .SEAL_ERR_VALID :: .SEAL_OVF_CNT_COUNT :: .SEAL_RSTAT_FREEZE
    :: .SEAL_RSTAT_STATE :: []), [], [], false⟩

theorem State.serve_keeps {R : State → Prop} (hR : Keeps opPartsServe opFieldsServe R) (s : State) (site ni : Nat) (p : Pkt)
    (hI : R s) : R (State.serve s site ni p) := by
  unfold State.serve
  try dsimp only
  repeat' first
    | with_reducible assumption
    | exact hR.sub
    | exact fun h => memWf_memStore h
    | exact fun h => memWf_memPut h
    | exact fun h => memWf_filter _ h
    | exact fun _ => rfl
    | with_reducible apply rel_ite
    | with_reducible apply State.gRead_keeps
    | with_reducible apply State.gWrite_keeps
    | with_reducible apply State.niSend_keeps
    | (with_reducible apply rel_foldl; intro _ _ _)
    | (with_reducible apply rel_foldl2; intro _ _ _)
    | (with_reducible apply rel_foldl3; intro _ _ _)
    | (with_reducible apply rel_foldl1; intro _ _ _)
    | (refine State.gRead_keeps_of hR.sub _ _ _ _ ?_ (by assumption))
    | (refine State.gWrite_keeps_of hR.sub _ _ _ _ _ _ ?_ (by assumption))
    | fail_if_no_progress (with_reducible apply hR.upd; all_goals try first | with_reducible exact .inr rfl | exact .inl (by decide +kernel) | exact id)
    | dsimp only
    | intro _ _
    | intro _
    | contradiction
    | (unfold id)
    | split
    | (rename_i hh; injection hh with hh; subst hh)
    | (rename_i hh; split at hh)

def opPartsToBlock : List Part :=
  [.regs, .out, .draws, .stewards, .eng, .hbm, .poison, .win, .rcLines, .rcWb, .sf, .sfAge, .haIn, .homeOut, .leafMaj,
    .leafMin, .ccache, .hwm, .hbmPort, .rtq, .ni, .bearings, .hold]
def opFieldsToBlock : FSet :=
  ⟨(.HA_BACKINV_CNT_COUNT :: .HA_STAT_RECALL :: .HA_STAT_SF_LEVEL :: .HBM_ERR_ADDR_HI_ADDR :: .HBM_ERR_ADDR_LO_ADDR ::
    .HBM_ERR_CH :: .HBM_ERR_CODE :: .HBM_ERR_PC :: .HBM_ERR_SID :: .HBM_ERR_VALID :: .NOC_NI_ALT_CNT_COUNT ::
    .NOC_NI_BOUNCE_CNT_COUNT :: .NOC_NI_ERR_CODE :: .NOC_NI_ERR_DEST :: .NOC_NI_ERR_VALID :: .NOC_NI_FAIL_CNT_COUNT ::
    .RC_HIT_CNT_COUNT :: .RC_MISS_CNT_COUNT :: .RC_SNP_CNT_COUNT :: .RC_STAT_RETAINED :: .RC_WB_CNT_COUNT ::
    .SEAL_CC_MISS_CNT_COUNT :: .SEAL_DENY_CNT_COUNT :: .SEAL_ERR_ADDR_HI_ADDR :: .SEAL_ERR_ADDR_LO_ADDR ::
    .SEAL_ERR_CODE :: .SEAL_ERR_LEVEL :: .SEAL_ERR_RANGE :: .SEAL_ERR_VALID :: .SEAL_OVF_CNT_COUNT :: .SEAL_RSTAT_FREEZE
    :: .SEAL_RSTAT_STATE :: []), [], [], false⟩

theorem State.toBlock_keeps {R : State → Prop} (hR : Keeps opPartsToBlock opFieldsToBlock R) (s : State) (site ni : Nat) (p : Pkt)
    (hI : R s) : R (State.toBlock s site ni p) := by
  unfold State.toBlock
  try dsimp only
  repeat' first
    | with_reducible assumption
    | exact hR.sub
    | exact fun h => memWf_memStore h
    | exact fun h => memWf_memPut h
    | exact fun h => memWf_filter _ h
    | exact fun _ => rfl
    | with_reducible apply rel_ite
    | with_reducible apply State.niSend_keeps
    | with_reducible apply State.refuse19_keeps
    | with_reducible apply State.serve_keeps
    | with_reducible apply State.toOwn_keeps
    | fail_if_no_progress (with_reducible apply hR.upd; all_goals try first | with_reducible exact .inr rfl | exact .inl (by decide +kernel) | exact id)
    | dsimp only
    | intro _ _
    | intro _
    | contradiction
    | (unfold id)
    | split
    | (rename_i hh; injection hh with hh; subst hh)
    | (rename_i hh; split at hh)

theorem execNiDeliver_keeps {R : State → Prop} (hR : Keeps partsNiDeliver fieldsNiDeliver R) (site : Fin 9) (ni : Fin 48) (hdrBad : Bool) (noise : List (BitVec 512)) (s : State)
    (hI : R s) {tT : State} (eE : execNiDeliver site ni hdrBad noise s = .next tT) : R tT := by
  unfold execNiDeliver at eE
  try dsimp only at eE
  repeat' split at eE
  all_goals try (injection eE with eE; subst eE)
  all_goals repeat' first
    | with_reducible assumption
    | exact hR.sub
    | exact fun h => memWf_memStore h
    | exact fun h => memWf_memPut h
    | exact fun h => memWf_filter _ h
    | exact fun _ => rfl
    | exact hR.sub (by decide +kernel) (subFld_self _ _)
    | with_reducible apply rel_ite
    | with_reducible apply State.bump_keeps
    | with_reducible apply State.dirNext_keeps
    | with_reducible apply State.flashMessage_keeps
    | with_reducible apply State.message_keeps
    | with_reducible apply State.niAccept_keeps
    | with_reducible apply State.niErr_keeps
    | with_reducible apply State.niLost_keeps
    | with_reducible apply State.niPump_keeps
    | with_reducible apply State.packageReset_keeps
    | with_reducible apply State.powerOn_keeps
    | with_reducible apply State.raise_keeps
    | with_reducible apply State.reach_keeps
    | with_reducible apply State.setNi_keeps
    | with_reducible apply State.toBlock_keeps
    | (with_reducible apply rel_foldl; intro _ _ _)
    | (with_reducible apply rel_foldl2; intro _ _ _)
    | (with_reducible apply rel_foldl3; intro _ _ _)
    | (with_reducible apply rel_foldl1; intro _ _ _)
    | fail_if_no_progress (with_reducible apply hR.upd; all_goals try first | with_reducible exact .inr rfl | exact .inl (by decide +kernel) | exact id)
    | dsimp only
    | intro _ _
    | intro _
    | contradiction
    | (unfold id)
    | split
    | (rename_i hh; injection hh with hh; subst hh)
    | (rename_i hh; split at hh)

theorem execPackSend_keeps {R : State → Prop} (hR : Keeps partsPackSend fieldsPackSend R) (site : Fin 9) (ni : Fin 48) (src : BitVec 12) (s : State)
    (hI : R s) {tT : State} (eE : execPackSend site ni src s = .next tT) : R tT := by
  unfold execPackSend at eE
  try dsimp only at eE
  repeat' split at eE
  all_goals try (injection eE with eE; subst eE)
  all_goals repeat' first
    | with_reducible assumption
    | exact hR.sub
    | exact fun h => memWf_memStore h
    | exact fun h => memWf_memPut h
    | exact fun h => memWf_filter _ h
    | exact fun _ => rfl
    | with_reducible apply rel_ite
    | with_reducible apply State.dirNext_keeps
    | with_reducible apply State.drop_keeps
    | with_reducible apply State.flashMessage_keeps
    | with_reducible apply State.lapseTo_keeps
    | with_reducible apply State.message_keeps
    | with_reducible apply State.niSend_keeps
    | with_reducible apply State.packageReset_keeps
    | with_reducible apply State.powerOn_keeps
    | with_reducible apply State.reach_keeps
    | with_reducible apply State.setNi_keeps
    | fail_if_no_progress (with_reducible apply hR.upd; all_goals try first | with_reducible exact .inr rfl | exact .inl (by decide +kernel) | exact id)
    | dsimp only
    | intro _ _
    | intro _
    | contradiction
    | (unfold id)
    | split
    | (rename_i hh; injection hh with hh; subst hh)
    | (rename_i hh; split at hh)

theorem execNiResponseTimeout_keeps {R : State → Prop} (hR : Keeps partsNiResponseTimeout fieldsNiResponseTimeout R) (site : Fin 9) (ni : Fin 48) (tag : BitVec 10) (s : State)
    (hI : R s) {tT : State} (eE : execNiResponseTimeout site ni tag s = .next tT) : R tT := by
  unfold execNiResponseTimeout at eE
  try dsimp only at eE
  repeat' split at eE
  all_goals try (injection eE with eE; subst eE)
  all_goals repeat' first
    | with_reducible assumption
    | exact hR.sub
    | exact fun h => memWf_memStore h
    | exact fun h => memWf_memPut h
    | exact fun h => memWf_filter _ h
    | exact fun _ => rfl
    | exact hR.sub (by decide +kernel) (subFld_self _ _)
    | with_reducible apply rel_ite
    | with_reducible apply State.bump_keeps
    | with_reducible apply State.dirNext_keeps
    | with_reducible apply State.flashMessage_keeps
    | with_reducible apply State.lapseTo_keeps
    | with_reducible apply State.message_keeps
    | with_reducible apply State.niErr_keeps
    | with_reducible apply State.niPump_keeps
    | with_reducible apply State.packageReset_keeps
    | with_reducible apply State.powerOn_keeps
    | with_reducible apply State.raise_keeps
    | with_reducible apply State.reach_keeps
    | with_reducible apply State.setNi_keeps
    | with_reducible apply State.toOwn_keeps
    | fail_if_no_progress (with_reducible apply hR.upd; all_goals try first | with_reducible exact .inr rfl | exact .inl (by decide +kernel) | exact id)
    | dsimp only
    | intro _ _
    | intro _
    | contradiction
    | (unfold id)
    | split
    | (rename_i hh; injection hh with hh; subst hh)
    | (rename_i hh; split at hh)

end Sys2Proof.Machine
end

