-- ==== Sys2Proof/Laws/KeepsHbm.lean ====
section
/-! SUPPORT. What the operations of `Machine/Hbm.lean` may change and what they keep. -/

namespace Sys2Proof.Machine

set_option Elab.async false
set_option linter.all false

theorem State.setStk_keeps {R : State → Prop} (hR : Keeps [.stack] ⟨[], [], [], false⟩ R) (s : State) (st : Nat) (x : StackRt)
    (hI : R s) : R (State.setStk s st x) := by
  unfold State.setStk
  try dsimp only
  repeat' first
    | with_reducible assumption
    | exact hR.sub
    | exact fun h => memWf_memStore h
    | exact fun h => memWf_memPut h
    | exact fun h => memWf_filter _ h
    | exact fun _ => rfl
    | with_reducible apply rel_ite
    | fail_if_no_progress (with_reducible apply hR.upd; all_goals try first | with_reducible exact .inr rfl | exact .inl (by decide +kernel) | exact id)
    | dsimp only
    | intro _ _
    | intro _
    | contradiction
    | (unfold id)
    | split
    | (rename_i hh; injection hh with hh; subst hh)
    | (rename_i hh; split at hh)

theorem State.setPc_keeps {R : State → Prop} (hR : Keeps [.hbmPc] ⟨[], [], [], false⟩ R) (s : State) (st c : Nat) (x : PcRt)
    (hI : R s) : R (State.setPc s st c x) := by
  unfold State.setPc
  try dsimp only
  repeat' first
    | with_reducible assumption
    | exact hR.sub
    | exact fun h => memWf_memStore h
    | exact fun h => memWf_memPut h
    | exact fun h => memWf_filter _ h
    | exact fun _ => rfl
    | with_reducible apply rel_ite
    | fail_if_no_progress (with_reducible apply hR.upd; all_goals try first | with_reducible exact .inr rfl | exact .inl (by decide +kernel) | exact id)
    | dsimp only
    | intro _ _
    | intro _
    | contradiction
    | (unfold id)
    | split
    | (rename_i hh; injection hh with hh; subst hh)
    | (rename_i hh; split at hh)

theorem State.pull_keeps {R : State → Prop} (hR : Keeps [.now, .local_, .regs, .stewards, .govs, .spinePull] ⟨[.PG_ERR_OP, .PG_ERR_OVERSIZE, .PG_ERR_UNITS, .PG_ERR_VALID, .PG_GRANT_CNT_COUNT, .PG_TO_CNT_COUNT], [], [], false⟩ R) (s : State) (g op : Nat) (who : List Nat)
    (hI : R s) : R (State.pull s g op who) := by
  unfold State.pull
  try dsimp only
  repeat' first
    | with_reducible assumption
    | exact hR.sub
    | exact fun h => memWf_memStore h
    | exact fun h => memWf_memPut h
    | exact fun h => memWf_filter _ h
    | exact fun _ => rfl
    | with_reducible apply rel_ite
    | with_reducible apply State.grantHead_keeps
    | fail_if_no_progress (with_reducible apply hR.upd; all_goals try first | with_reducible exact .inr rfl | exact .inl (by decide +kernel) | exact id)
    | dsimp only
    | intro _ _
    | intro _
    | contradiction
    | (unfold id)
    | split
    | (rename_i hh; injection hh with hh; subst hh)
    | (rename_i hh; split at hh)

theorem State.askTraining_keeps {R : State → Prop} (hR : Keeps [.regs, .stewards, .govs, .stack] ⟨[.PG_ERR_OP, .PG_ERR_OVERSIZE, .PG_ERR_UNITS, .PG_ERR_VALID, .PG_TO_CNT_COUNT], [], [], false⟩ R) (s : State) (st : Nat)
    (hI : R s) : R (State.askTraining s st) := by
  unfold State.askTraining
  try dsimp only
  repeat' first
    | with_reducible assumption
    | exact hR.sub
    | exact fun h => memWf_memStore h
    | exact fun h => memWf_memPut h
    | exact fun h => memWf_filter _ h
    | exact fun _ => rfl
    | with_reducible apply rel_ite
    | with_reducible apply State.request_keeps
    | with_reducible apply State.setStk_keeps
    | fail_if_no_progress (with_reducible apply hR.upd; all_goals try first | with_reducible exact .inr rfl | exact .inl (by decide +kernel) | exact id)
    | dsimp only
    | intro _ _
    | intro _
    | contradiction
    | (unfold id)
    | split
    | (rename_i hh; injection hh with hh; subst hh)
    | (rename_i hh; split at hh)

theorem State.trainReturn_keeps {R : State → Prop} (hR : Keeps [.govs] ⟨[], [], [], false⟩ R) (s : State) (st : Nat)
    (hI : R s) : R (State.trainReturn s st) := by
  unfold State.trainReturn
  try dsimp only
  repeat' first
    | with_reducible assumption
    | exact hR.sub
    | with_reducible apply rel_ite
    | with_reducible apply State.giveBack_keeps
    | dsimp only
    | intro _ _
    | intro _
    | contradiction
    | (unfold id)
    | split
    | (rename_i hh; injection hh with hh; subst hh)
    | (rename_i hh; split at hh)

theorem State.refreshReturn_keeps {R : State → Prop} (hR : Keeps [.govs] ⟨[], [], [], false⟩ R) (s : State) (st : Nat)
    (hI : R s) : R (State.refreshReturn s st) := by
  unfold State.refreshReturn
  try dsimp only
  repeat' first
    | with_reducible assumption
    | exact hR.sub
    | with_reducible apply rel_ite
    | with_reducible apply State.giveBack_keeps
    | dsimp only
    | intro _ _
    | intro _
    | contradiction
    | (unfold id)
    | split
    | (rename_i hh; injection hh with hh; subst hh)
    | (rename_i hh; split at hh)

theorem State.retrain_keeps {R : State → Prop} (hR : Keeps [.regs, .stack] ⟨[.HBM_CH_STAT_STATE, .HBM_STAT_STATE], [], [], false⟩ R) (s : State) (st : Nat)
    (hI : R s) : R (State.retrain s st) := by
  unfold State.retrain
  try dsimp only
  repeat' first
    | with_reducible assumption
    | exact hR.sub
    | exact fun h => memWf_memStore h
    | exact fun h => memWf_memPut h
    | exact fun h => memWf_filter _ h
    | exact fun _ => rfl
    | with_reducible apply rel_ite
    | with_reducible refine hR.wr _ _ _ (by decide +kernel) (by first | decide +kernel | exact hasFld_self _ _ | exact hasFld_all _ | (simp [hasFld]; done) ) ?_
    | with_reducible apply State.setStk_keeps
    | fail_if_no_progress (with_reducible apply hR.upd; all_goals try first | with_reducible exact .inr rfl | exact .inl (by decide +kernel) | exact id)
    | dsimp only
    | intro _ _
    | intro _
    | contradiction
    | (unfold id)
    | split
    | (rename_i hh; injection hh with hh; subst hh)
    | (rename_i hh; split at hh)

theorem State.srCause_keeps {R : State → Prop} (hR : Keeps [.regs, .govs, .stack] ⟨[.HBM_STAT_STATE], [], [], false⟩ R) (s : State) (st c : Nat)
    (hI : R s) : R (State.srCause s st c) := by
  unfold State.srCause
  try dsimp only
  repeat' first
    | with_reducible assumption
    | exact hR.sub
    | exact fun h => memWf_memStore h
    | exact fun h => memWf_memPut h
    | exact fun h => memWf_filter _ h
    | exact fun _ => rfl
    | with_reducible apply rel_ite
    | with_reducible refine hR.wr _ _ _ (by decide +kernel) (by first | decide +kernel | exact hasFld_self _ _ | exact hasFld_all _ | (simp [hasFld]; done) ) ?_
    | with_reducible apply State.refreshReturn_keeps
    | with_reducible apply State.setStk_keeps
    | with_reducible apply State.trainReturn_keeps
    | fail_if_no_progress (with_reducible apply hR.upd; all_goals try first | with_reducible exact .inr rfl | exact .inl (by decide +kernel) | exact id)
    | dsimp only
    | intro _ _
    | intro _
    | contradiction
    | (unfold id)
    | split
    | (rename_i hh; injection hh with hh; subst hh)
    | (rename_i hh; split at hh)

theorem State.srEnd_keeps {R : State → Prop} (hR : Keeps [.stack] ⟨[], [], [], false⟩ R) (s : State) (st c : Nat)
    (hI : R s) : R (State.srEnd s st c) := by
  unfold State.srEnd
  try dsimp only
  repeat' first
    | with_reducible assumption
    | exact hR.sub
    | exact fun h => memWf_memStore h
    | exact fun h => memWf_memPut h
    | exact fun h => memWf_filter _ h
    | exact fun _ => rfl
    | with_reducible apply rel_ite
    | with_reducible apply State.setStk_keeps
    | fail_if_no_progress (with_reducible apply hR.upd; all_goals try first | with_reducible exact .inr rfl | exact .inl (by decide +kernel) | exact id)
    | dsimp only
    | intro _ _
    | intro _
    | contradiction
    | (unfold id)
    | split
    | (rename_i hh; injection hh with hh; subst hh)
    | (rename_i hh; split at hh)

theorem State.stackLost_keeps {R : State → Prop} (hR : Keeps [.regs, .govs, .stack] ⟨[.HBM_STAT_CONTENT, .HBM_STAT_STATE], [], [], false⟩ R) (s : State) (st : Nat)
    (hI : R s) : R (State.stackLost s st) := by
  unfold State.stackLost
  try dsimp only
  repeat' first
    | with_reducible assumption
    | exact hR.sub
    | exact fun h => memWf_memStore h
    | exact fun h => memWf_memPut h
    | exact fun h => memWf_filter _ h
    | exact fun _ => rfl
    | with_reducible apply rel_ite
    | with_reducible refine hR.wr _ _ _ (by decide +kernel) (by first | decide +kernel | exact hasFld_self _ _ | exact hasFld_all _ | (simp [hasFld]; done) ) ?_
    | with_reducible apply State.refreshReturn_keeps
    | with_reducible apply State.setStk_keeps
    | with_reducible apply State.trainReturn_keeps
    | fail_if_no_progress (with_reducible apply hR.upd; all_goals try first | with_reducible exact .inr rfl | exact .inl (by decide +kernel) | exact id)
    | dsimp only
    | intro _ _
    | intro _
    | contradiction
    | (unfold id)
    | split
    | (rename_i hh; injection hh with hh; subst hh)
    | (rename_i hh; split at hh)

theorem State.respond_keeps {R : State → Prop} (hR : Keeps [.regs, .stewards, .rtq, .ni, .bearings, .hold] ⟨[.NOC_NI_ALT_CNT_COUNT, .NOC_NI_BOUNCE_CNT_COUNT, .NOC_NI_ERR_CODE, .NOC_NI_ERR_DEST, .NOC_NI_ERR_VALID, .NOC_NI_FAIL_CNT_COUNT], [], [], false⟩ R) (s : State) (st p : Nat) (q : HbmReq) (status : Nat) (data : List Nat)
    (hI : R s) : R (State.respond s st p q status data) := by
  unfold State.respond
  try dsimp only
  repeat' first
    | with_reducible assumption
    | exact hR.sub
    | with_reducible apply rel_ite
    | with_reducible apply State.niSend_keeps
    | dsimp only
    | intro _ _
    | intro _
    | contradiction
    | (unfold id)
    | split
    | (rename_i hh; injection hh with hh; subst hh)
    | (rename_i hh; split at hh)

theorem State.enqueue_keeps {R : State → Prop} (hR : Keeps [.hbmPc] ⟨[], [], [], false⟩ R) (s : State) (st : Nat) (q : HbmReq)
    (hI : R s) : R (State.enqueue s st q) := by
  unfold State.enqueue
  try dsimp only
  repeat' first
    | with_reducible assumption
    | exact hR.sub
    | exact fun h => memWf_memStore h
    | exact fun h => memWf_memPut h
    | exact fun h => memWf_filter _ h
    | exact fun _ => rfl
    | with_reducible apply rel_ite
    | with_reducible apply State.setPc_keeps
    | fail_if_no_progress (with_reducible apply hR.upd; all_goals try first | with_reducible exact .inr rfl | exact .inl (by decide +kernel) | exact id)
    | dsimp only
    | intro _ _
    | intro _
    | contradiction
    | (unfold id)
    | split
    | (rename_i hh; injection hh with hh; subst hh)
    | (rename_i hh; split at hh)

def opPartsTakeEffect : List Part :=
  [.regs, .draws, .stewards, .hbm, .poison, .leafMaj, .leafMin, .ccache, .hwm, .hbmPc, .rtq, .ni, .bearings, .hold]
def opFieldsTakeEffect : FSet :=
  ⟨[.HBM_ERR_ADDR_HI_ADDR, .HBM_ERR_ADDR_LO_ADDR, .HBM_ERR_CH, .HBM_ERR_CODE, .HBM_ERR_PC, .HBM_ERR_SID, .HBM_ERR_VALID,
    .NOC_NI_ALT_CNT_COUNT, .NOC_NI_BOUNCE_CNT_COUNT, .NOC_NI_ERR_CODE, .NOC_NI_ERR_DEST, .NOC_NI_ERR_VALID,
    .NOC_NI_FAIL_CNT_COUNT, .SEAL_CC_MISS_CNT_COUNT, .SEAL_DENY_CNT_COUNT, .SEAL_ERR_ADDR_HI_ADDR,
    .SEAL_ERR_ADDR_LO_ADDR, .SEAL_ERR_CODE, .SEAL_ERR_LEVEL, .SEAL_ERR_RANGE, .SEAL_ERR_VALID, .SEAL_OVF_CNT_COUNT,
    .SEAL_RSTAT_FREEZE, .SEAL_RSTAT_STATE], [], [], false⟩

theorem State.takeEffect_keeps {R : State → Prop} (hR : Keeps opPartsTakeEffect opFieldsTakeEffect R) (s : State) (st p : Nat) (q : HbmReq)
    (hI : R s) : R (State.takeEffect s st p q) := by
  unfold State.takeEffect
  try dsimp only
  repeat' first
    | with_reducible assumption
    | exact hR.sub
    | exact fun h => memWf_memStore h
    | exact fun h => memWf_memPut h
    | exact fun h => memWf_filter _ h
    | exact fun _ => rfl
    | with_reducible apply rel_ite
    | with_reducible apply State.enqueue_keeps
    | with_reducible apply State.hbmErr_keeps
    | with_reducible apply State.respond_keeps
    | with_reducible apply State.stackRead_keeps
    | with_reducible apply State.stackWrite_keeps
    | (with_reducible apply rel_foldl; intro _ _ _)
    | (with_reducible apply rel_foldl2; intro _ _ _)
    | (with_reducible apply rel_foldl3; intro _ _ _)
    | (with_reducible apply rel_foldl1; intro _ _ _)
    | (refine State.stackRead_keeps_of hR.sub _ _ _ ?_ (by assumption))
    | (refine State.stackWrite_keeps_of hR.sub _ _ _ _ _ ?_ (by assumption))
    | fail_if_no_progress (with_reducible apply hR.upd; all_goals try first | with_reducible exact .inr rfl | exact .inl (by decide +kernel) | exact id)
    | dsimp only
    | intro _ _
    | intro _
    | contradiction
    | (unfold id)
    | split
    | (rename_i hh; injection hh with hh; subst hh)
    | (rename_i hh; split at hh)

def opPartsHbmEnter : List Part :=
  [.regs, .draws, .stewards, .hbm, .poison, .rcLines, .rcWb, .sf, .sfAge, .homeOut, .leafMaj, .leafMin, .ccache, .hwm,
    .reenc, .hbmPc, .rtq, .ni, .bearings, .hold]
def opFieldsHbmEnter : FSet :=
  ⟨[.HA_BACKINV_CNT_COUNT, .HA_STAT_RECALL, .HA_STAT_SF_LEVEL, .HBM_ERR_ADDR_HI_ADDR, .HBM_ERR_ADDR_LO_ADDR,
    .HBM_ERR_CH, .HBM_ERR_CODE, .HBM_ERR_PC, .HBM_ERR_SID, .HBM_ERR_VALID, .NOC_NI_ALT_CNT_COUNT,
    .NOC_NI_BOUNCE_CNT_COUNT, .NOC_NI_ERR_CODE, .NOC_NI_ERR_DEST, .NOC_NI_ERR_VALID, .NOC_NI_FAIL_CNT_COUNT,
    .RC_SNP_CNT_COUNT, .RC_STAT_RETAINED, .RC_WB_CNT_COUNT, .SEAL_CC_MISS_CNT_COUNT, .SEAL_DENY_CNT_COUNT,
    .SEAL_ERR_ADDR_HI_ADDR, .SEAL_ERR_ADDR_LO_ADDR, .SEAL_ERR_CODE, .SEAL_ERR_LEVEL, .SEAL_ERR_RANGE, .SEAL_ERR_VALID,
    .SEAL_OVF_CNT_COUNT, .SEAL_RSTAT_FREEZE, .SEAL_RSTAT_STATE], [], [], false⟩

theorem State.hbmEnter_keeps {R : State → Prop} (hR : Keeps opPartsHbmEnter opFieldsHbmEnter R) (s : State) (st p : Nat) (q : HbmReq)
    (hI : R s) : R (State.hbmEnter s st p q) := by
  unfold State.hbmEnter
  try dsimp only
  repeat' first
    | with_reducible assumption
    | exact hR.sub
    | exact fun h => memWf_memStore h
    | exact fun h => memWf_memPut h
    | exact fun h => memWf_filter _ h
    | exact fun _ => rfl
    | with_reducible apply rel_ite
    | with_reducible apply State.recallFirst_keeps
    | with_reducible apply State.refuse19_keeps
    | with_reducible apply State.respond_keeps
    | with_reducible apply State.sealDeny_keeps
    | with_reducible apply State.snoopAll_keeps
    | with_reducible apply State.takeEffect_keeps
    | (with_reducible apply rel_foldl; intro _ _ _)
    | (with_reducible apply rel_foldl2; intro _ _ _)
    | (with_reducible apply rel_foldl3; intro _ _ _)
    | (with_reducible apply rel_foldl1; intro _ _ _)
    | fail_if_no_progress (with_reducible apply hR.upd; all_goals try first | with_reducible exact .inr rfl | exact .inl (by decide +kernel) | exact id)
    | dsimp only
    | intro _ _
    | intro _
    | contradiction
    | (unfold id)
    | split
    | (rename_i hh; injection hh with hh; subst hh)
    | (rename_i hh; split at hh)

theorem State.frontChoose_keeps {R : State → Prop} (hR : Keeps [.stack, .arbs] ⟨[], [], [], false⟩ R) (s : State) (st : Nat) (scrub : Bool)
    (hI : R s) : R (State.frontChoose s st scrub) := by
  unfold State.frontChoose
  try dsimp only
  repeat' first
    | with_reducible assumption
    | exact hR.sub
    | exact fun h => memWf_memStore h
    | exact fun h => memWf_memPut h
    | exact fun h => memWf_filter _ h
    | exact fun _ => rfl
    | with_reducible apply rel_ite
    | with_reducible apply State.setArb_keeps
    | with_reducible apply State.setStk_keeps
    | fail_if_no_progress (with_reducible apply hR.upd; all_goals try first | with_reducible exact .inr rfl | exact .inl (by decide +kernel) | exact id)
    | dsimp only
    | intro _ _
    | intro _
    | contradiction
    | (unfold id)
    | split
    | (rename_i hh; injection hh with hh; subst hh)
    | (rename_i hh; split at hh)

def opPartsFrontStep : List Part :=
  [.regs, .draws, .stewards, .hbm, .poison, .rcLines, .rcWb, .sf, .sfAge, .homeOut, .leafMaj, .leafMin, .ccache, .hwm,
    .reenc, .hbmPort, .hbmPc, .stack, .arbs, .rtq, .ni, .bearings, .hold]
def opFieldsFrontStep : FSet :=
  ⟨[.HA_BACKINV_CNT_COUNT, .HA_STAT_RECALL, .HA_STAT_SF_LEVEL, .HBM_ERR_ADDR_HI_ADDR, .HBM_ERR_ADDR_LO_ADDR,
    .HBM_ERR_CH, .HBM_ERR_CODE, .HBM_ERR_PC, .HBM_ERR_SID, .HBM_ERR_VALID, .NOC_NI_ALT_CNT_COUNT,
    .NOC_NI_BOUNCE_CNT_COUNT, .NOC_NI_ERR_CODE, .NOC_NI_ERR_DEST, .NOC_NI_ERR_VALID, .NOC_NI_FAIL_CNT_COUNT,
    .RC_SNP_CNT_COUNT, .RC_STAT_RETAINED, .RC_WB_CNT_COUNT, .SEAL_CC_MISS_CNT_COUNT, .SEAL_DENY_CNT_COUNT,
    .SEAL_ERR_ADDR_HI_ADDR, .SEAL_ERR_ADDR_LO_ADDR, .SEAL_ERR_CODE, .SEAL_ERR_LEVEL, .SEAL_ERR_RANGE, .SEAL_ERR_VALID,
    .SEAL_OVF_CNT_COUNT, .SEAL_RSTAT_FREEZE, .SEAL_RSTAT_STATE], [], [], false⟩

theorem State.frontStep_keeps {R : State → Prop} (hR : Keeps opPartsFrontStep opFieldsFrontStep R) (s : State) (st : Nat) (scrub more : Bool)
    (hI : R s) : R (State.frontStep s st scrub more).1 := by
  unfold State.frontStep
  try dsimp only
  repeat' first
    | with_reducible assumption
    | exact hR.sub
    | exact fun h => memWf_memStore h
    | exact fun h => memWf_memPut h
    | exact fun h => memWf_filter _ h
    | exact fun _ => rfl
    | with_reducible apply rel_ite
    | with_reducible apply State.frontChoose_keeps
    | with_reducible apply State.hbmEnter_keeps
    | fail_if_no_progress (with_reducible apply hR.upd; all_goals try first | with_reducible exact .inr rfl | exact .inl (by decide +kernel) | exact id)
    | dsimp only
    | intro _ _
    | intro _
    | contradiction
    | (unfold id)
    | split
    | (rename_i hh; injection hh with hh; subst hh)
    | (rename_i hh; split at hh)

theorem State.frontStep_keeps_of {R : State → Prop} (hR : Keeps opPartsFrontStep opFieldsFrontStep R) (s : State) (st : Nat) (scrub more : Bool)
    (hI : R s) {a : Bool} {tT : State} (eE : State.frontStep s st scrub more = (tT, a)) : R tT := by
  have h := State.frontStep_keeps hR s st scrub more hI
  rw [eE] at h
  exact h

theorem execHbmFrontPipeEntry_keeps {R : State → Prop} (hR : Keeps partsHbmFrontPipeEntry fieldsHbmFrontPipeEntry R) (st : Fin 4) (s : State)
    (hI : R s) {tT : State} (eE : execHbmFrontPipeEntry st s = .next tT) : R tT := by
  unfold execHbmFrontPipeEntry at eE
  try dsimp only at eE
  repeat' split at eE
  all_goals try (injection eE with eE; subst eE)
  all_goals repeat' first
    | with_reducible assumption
    | exact hR.sub
    | with_reducible apply rel_ite
    | with_reducible apply State.dirNext_keeps
    | with_reducible apply State.flashMessage_keeps
    | with_reducible apply State.frontStep_keeps
    | with_reducible apply State.message_keeps
    | with_reducible apply State.packageReset_keeps
    | with_reducible apply State.powerOn_keeps
    | with_reducible apply State.reach_keeps
    | (refine State.frontStep_keeps_of hR.sub _ _ _ _ ?_ (by assumption))
    | dsimp only
    | intro _ _
    | intro _
    | contradiction
    | (unfold id)
    | split
    | (rename_i hh; injection hh with hh; subst hh)
    | (rename_i hh; split at hh)

def opPartsScrubRead : List Part :=
  [.regs, .draws, .stewards, .hbm, .poison, .rcLines, .rcWb, .sf, .sfAge, .homeOut, .leafMaj, .leafMin, .ccache, .hwm,
    .reenc, .hbmPort, .hbmPc, .stack, .arbs, .rtq, .ni, .bearings, .hold]
def opFieldsScrubRead : FSet :=
  ⟨[.HA_BACKINV_CNT_COUNT, .HA_STAT_RECALL, .HA_STAT_SF_LEVEL, .HBM_ERR_ADDR_HI_ADDR, .HBM_ERR_ADDR_LO_ADDR,
    .HBM_ERR_CH, .HBM_ERR_CODE, .HBM_ERR_PC, .HBM_ERR_SID, .HBM_ERR_VALID, .NOC_NI_ALT_CNT_COUNT,
    .NOC_NI_BOUNCE_CNT_COUNT, .NOC_NI_ERR_CODE, .NOC_NI_ERR_DEST, .NOC_NI_ERR_VALID, .NOC_NI_FAIL_CNT_COUNT,
    .RC_SNP_CNT_COUNT, .RC_STAT_RETAINED, .RC_WB_CNT_COUNT, .SEAL_CC_MISS_CNT_COUNT, .SEAL_DENY_CNT_COUNT,
    .SEAL_ERR_ADDR_HI_ADDR, .SEAL_ERR_ADDR_LO_ADDR, .SEAL_ERR_CODE, .SEAL_ERR_LEVEL, .SEAL_ERR_RANGE, .SEAL_ERR_VALID,
    .SEAL_OVF_CNT_COUNT, .SEAL_RSTAT_FREEZE, .SEAL_RSTAT_STATE], [], [], false⟩

theorem State.scrubRead_keeps {R : State → Prop} (hR : Keeps opPartsScrubRead opFieldsScrubRead R) (s : State) (st : Nat) (more : Bool) (n : Nat)
    (hI : R s) : R (State.scrubRead s st more n) := by
  induction n generalizing s st more with
  | zero => exact hI
  | succ n ih =>
  unfold State.scrubRead
  try dsimp only
  repeat' first
    | with_reducible assumption
    | (with_reducible apply ih)
    | exact hR.sub
    | with_reducible apply rel_ite
    | with_reducible apply State.frontStep_keeps
    | (refine State.frontStep_keeps_of hR.sub _ _ _ _ ?_ (by assumption))
    | dsimp only
    | intro _ _
    | intro _
    | contradiction
    | (unfold id)
    | split
    | (rename_i hh; injection hh with hh; subst hh)
    | (rename_i hh; split at hh)

def opPartsScrubReads : List Part :=
  [.regs, .draws, .stewards, .hbm, .poison, .rcLines, .rcWb, .sf, .sfAge, .homeOut, .leafMaj, .leafMin, .ccache, .hwm,
    .reenc, .hbmPort, .hbmPc, .stack, .arbs, .rtq, .ni, .bearings, .hold]
def opFieldsScrubReads : FSet :=
  ⟨[.HA_BACKINV_CNT_COUNT, .HA_STAT_RECALL, .HA_STAT_SF_LEVEL, .HBM_ERR_ADDR_HI_ADDR, .HBM_ERR_ADDR_LO_ADDR,
    .HBM_ERR_CH, .HBM_ERR_CODE, .HBM_ERR_PC, .HBM_ERR_SID, .HBM_ERR_VALID, .NOC_NI_ALT_CNT_COUNT,
    .NOC_NI_BOUNCE_CNT_COUNT, .NOC_NI_ERR_CODE, .NOC_NI_ERR_DEST, .NOC_NI_ERR_VALID, .NOC_NI_FAIL_CNT_COUNT,
    .RC_SNP_CNT_COUNT, .RC_STAT_RETAINED, .RC_WB_CNT_COUNT, .SEAL_CC_MISS_CNT_COUNT, .SEAL_DENY_CNT_COUNT,
    .SEAL_ERR_ADDR_HI_ADDR, .SEAL_ERR_ADDR_LO_ADDR, .SEAL_ERR_CODE, .SEAL_ERR_LEVEL, .SEAL_ERR_RANGE, .SEAL_ERR_VALID,
    .SEAL_OVF_CNT_COUNT, .SEAL_RSTAT_FREEZE, .SEAL_RSTAT_STATE], [], [], false⟩

theorem State.scrubReads_keeps {R : State → Prop} (hR : Keeps opPartsScrubReads opFieldsScrubReads R) (s : State) (st : Nat)
    (hI : R s) : R (State.scrubReads s st) := by
  unfold State.scrubReads
  try dsimp only
  repeat' first
    | with_reducible assumption
    | exact hR.sub
    | with_reducible apply rel_ite
    | with_reducible apply State.scrubRead_keeps
    | (with_reducible apply rel_foldl; intro _ _ _)
    | (with_reducible apply rel_foldl2; intro _ _ _)
    | (with_reducible apply rel_foldl3; intro _ _ _)
    | (with_reducible apply rel_foldl1; intro _ _ _)
    | dsimp only
    | intro _ _
    | intro _
    | contradiction
    | (unfold id)
    | split
    | (rename_i hh; injection hh with hh; subst hh)
    | (rename_i hh; split at hh)

theorem execLeafReencryptDone_keeps {R : State → Prop} (hR : Keeps partsLeafReencryptDone fieldsLeafReencryptDone R) (st : Fin 4) (bad : List (Fin 64 × BitVec 576)) (s : State)
    (hI : R s) {tT : State} (eE : execLeafReencryptDone st bad s = .next tT) : R tT := by
  unfold execLeafReencryptDone at eE
  try dsimp only at eE
  repeat' split at eE
  all_goals try (injection eE with eE; subst eE)
  all_goals repeat' first
    | with_reducible assumption
    | exact hR.sub
    | exact fun h => memWf_memStore h
    | exact fun h => memWf_memPut h
    | exact fun h => memWf_filter _ h
    | exact fun _ => rfl
    | with_reducible apply rel_ite
    | with_reducible apply State.dirNext_keeps
    | with_reducible apply State.flashMessage_keeps
    | with_reducible apply State.hbmEnter_keeps
    | with_reducible apply State.leafStore_keeps
    | with_reducible apply State.message_keeps
    | with_reducible apply State.packageReset_keeps
    | with_reducible apply State.powerOn_keeps
    | with_reducible apply State.reach_keeps
    | with_reducible apply State.respond_keeps
    | with_reducible apply State.sealFreeze_keeps
    | with_reducible apply State.takeEffect_keeps
    | (with_reducible apply rel_foldl; intro _ _ _)
    | (with_reducible apply rel_foldl2; intro _ _ _)
    | (with_reducible apply rel_foldl3; intro _ _ _)
    | (with_reducible apply rel_foldl1; intro _ _ _)
    | (refine State.leafReencrypt_keeps hR.sub _ _ _ _ ?_ (by assumption))
    | fail_if_no_progress (with_reducible apply hR.upd; all_goals try first | with_reducible exact .inr rfl | exact .inl (by decide +kernel) | exact id)
    | dsimp only
    | intro _ _
    | intro _
    | contradiction
    | (unfold id)
    | split
    | (rename_i hh; injection hh with hh; subst hh)
    | (rename_i hh; split at hh)

theorem State.activate_keeps {R : State → Prop} (hR : Keeps [.regs, .draws, .hbmPc] ⟨[.HBM_CH_ACT_CNT_COUNT, .HBM_CH_NBR_CNT_COUNT], [], [], false⟩ R) (s : State) (st c : Nat) (q : HbmReq) (demand : Bool)
    (hI : R s) : R (State.activate s st c q demand) := by
  unfold State.activate
  try dsimp only
  repeat' first
    | with_reducible assumption
    | exact hR.sub
    | exact fun h => memWf_memStore h
    | exact fun h => memWf_memPut h
    | exact fun h => memWf_filter _ h
    | exact fun _ => rfl
    | exact hR.sub (by decide +kernel) (subFld_self _ _)
    | with_reducible apply rel_ite
    | with_reducible apply State.bump_keeps
    | with_reducible apply State.draw_keeps
    | with_reducible apply State.setPc_keeps
    | (refine State.draw_keeps_of hR.sub _ _ ?_ (by assumption))
    | fail_if_no_progress (with_reducible apply hR.upd; all_goals try first | with_reducible exact .inr rfl | exact .inl (by decide +kernel) | exact id)
    | dsimp only
    | intro _ _
    | intro _
    | contradiction
    | (unfold id)
    | split
    | (rename_i hh; injection hh with hh; subst hh)
    | (rename_i hh; split at hh)

theorem State.suspectRow_keeps {R : State → Prop} (hR : Keeps [.repairs, .stack] ⟨[], [], [], false⟩ R) (s : State) (st a : Nat) (now_ : Bool)
    (hI : R s) : R (State.suspectRow s st a now_) := by
  unfold State.suspectRow
  try dsimp only
  repeat' first
    | with_reducible assumption
    | exact hR.sub
    | exact fun h => memWf_memStore h
    | exact fun h => memWf_memPut h
    | exact fun h => memWf_filter _ h
    | exact fun _ => rfl
    | with_reducible apply rel_ite
    | with_reducible apply State.record_keeps
    | with_reducible apply State.setStk_keeps
    | fail_if_no_progress (with_reducible apply hR.upd; all_goals try first | with_reducible exact .inr rfl | exact .inl (by decide +kernel) | exact id)
    | dsimp only
    | intro _ _
    | intro _
    | contradiction
    | (unfold id)
    | split
    | (rename_i hh; injection hh with hh; subst hh)
    | (rename_i hh; split at hh)

def opFieldsWriteParity : FSet :=
  ⟨[.HBM_CH_PAR_CNT_COUNT, .HBM_CH_UNC_CNT_COUNT, .HBM_ERR_ADDR_HI_ADDR, .HBM_ERR_ADDR_LO_ADDR, .HBM_ERR_CH,
    .HBM_ERR_CODE, .HBM_ERR_PC, .HBM_ERR_SID, .HBM_ERR_VALID], [], [], false⟩

theorem State.writeParity_keeps {R : State → Prop} (hR : Keeps [.regs, .stewards, .repairs, .hbm, .poison, .stack] opFieldsWriteParity R) (s : State) (st ch : Nat) (q : HbmReq) (par : Nat)
    (hI : R s) : R (State.writeParity s st ch q par) := by
  unfold State.writeParity
  try dsimp only
  repeat' first
    | with_reducible assumption
    | exact hR.sub
    | exact fun h => memWf_memStore h
    | exact fun h => memWf_memPut h
    | exact fun h => memWf_filter _ h
    | exact fun _ => rfl
    | exact hR.sub (by decide +kernel) (subFld_self _ _)
    | with_reducible apply rel_ite
    | with_reducible apply State.bump_keeps
    | with_reducible apply State.hbmErr_keeps
    | with_reducible apply State.linePut_keeps
    | with_reducible apply State.raise_keeps
    | with_reducible apply State.suspectRow_keeps
    | (with_reducible apply rel_foldl; intro _ _ _)
    | (with_reducible apply rel_foldl2; intro _ _ _)
    | (with_reducible apply rel_foldl3; intro _ _ _)
    | (with_reducible apply rel_foldl1; intro _ _ _)
    | fail_if_no_progress (with_reducible apply hR.upd; all_goals try first | with_reducible exact .inr rfl | exact .inl (by decide +kernel) | exact id)
    | dsimp only
    | intro _ _
    | intro _
    | contradiction
    | (unfold id)
    | split
    | (rename_i hh; injection hh with hh; subst hh)
    | (rename_i hh; split at hh)

theorem execHbmSchedule_keeps {R : State → Prop} (hR : Keeps partsHbmSchedule fieldsHbmSchedule R) (st : Fin 4) (c : Fin 32) (demand : Bool) (par : Fin 3) (s : State)
    (hI : R s) {tT : State} (eE : execHbmSchedule st c demand par s = .next tT) : R tT := by
  unfold execHbmSchedule at eE
  try dsimp only at eE
  repeat' split at eE
  all_goals try (injection eE with eE; subst eE)
  all_goals repeat' first
    | with_reducible assumption
    | exact hR.sub
    | exact fun h => memWf_memStore h
    | exact fun h => memWf_memPut h
    | exact fun h => memWf_filter _ h
    | exact fun _ => rfl
    | exact hR.sub (by decide +kernel) (subFld_self _ _)
    | with_reducible apply rel_ite
    | with_reducible apply State.activate_keeps
    | with_reducible apply State.bump_keeps
    | with_reducible apply State.dirNext_keeps
    | with_reducible apply State.flashMessage_keeps
    | with_reducible apply State.message_keeps
    | with_reducible apply State.packageReset_keeps
    | with_reducible apply State.powerOn_keeps
    | with_reducible apply State.reach_keeps
    | with_reducible apply State.setPc_keeps
    | with_reducible apply State.setStk_keeps
    | with_reducible apply State.writeParity_keeps
    | fail_if_no_progress (with_reducible apply hR.upd; all_goals try first | with_reducible exact .inr rfl | exact .inl (by decide +kernel) | exact id)
    | dsimp only
    | intro _ _
    | intro _
    | contradiction
    | (unfold id)
    | split
    | (rename_i hh; injection hh with hh; subst hh)
    | (rename_i hh; split at hh)

def opPartsFetchAltered : List Part := [.regs, .draws, .stewards, .hbm, .poison, .rtq, .ni, .bearings, .hold]
def opFieldsFetchAltered : FSet :=
  ⟨[.NOC_NI_ALT_CNT_COUNT, .NOC_NI_BOUNCE_CNT_COUNT, .NOC_NI_ERR_CODE, .NOC_NI_ERR_DEST, .NOC_NI_ERR_VALID,
    .NOC_NI_FAIL_CNT_COUNT, .SEAL_ERR_ADDR_HI_ADDR, .SEAL_ERR_ADDR_LO_ADDR, .SEAL_ERR_CODE, .SEAL_ERR_LEVEL,
    .SEAL_ERR_RANGE, .SEAL_ERR_VALID, .SEAL_MAC_CNT_COUNT], [], [], false⟩

theorem State.fetchAltered_keeps {R : State → Prop} (hR : Keeps opPartsFetchAltered opFieldsFetchAltered R) (s : State) (st : Nat) (q : HbmReq) (l flips : Nat)
    (hI : R s) : R (State.fetchAltered s st q l flips) := by
  unfold State.fetchAltered
  try dsimp only
  repeat' first
    | with_reducible assumption
    | exact hR.sub
    | exact fun h => memWf_memStore h
    | exact fun h => memWf_memPut h
    | exact fun h => memWf_filter _ h
    | exact fun _ => rfl
    | with_reducible apply rel_ite
    | with_reducible apply State.respond_keeps
    | with_reducible apply State.tagMismatch_keeps
    | fail_if_no_progress (with_reducible apply hR.upd; all_goals try first | with_reducible exact .inr rfl | exact .inl (by decide +kernel) | exact id)
    | dsimp only
    | intro _ _
    | intro _
    | contradiction
    | (unfold id)
    | split
    | (rename_i hh; injection hh with hh; subst hh)
    | (rename_i hh; split at hh)

theorem execHbmReadComplete_keeps {R : State → Prop} (hR : Keeps partsHbmReadComplete fieldsHbmReadComplete R) (st : Fin 4) (c : Fin 32) (n : Nat) (line : Fin 4) (finding : Fin 8) (level : Fin 8) (mirror : Bool) (flips : BitVec 576) (s : State)
    (hI : R s) {tT : State} (eE : execHbmReadComplete st c n line finding level mirror flips s = .next tT) : R tT := by
  unfold execHbmReadComplete at eE
  try dsimp only at eE
  repeat' split at eE
  all_goals try (injection eE with eE; subst eE)
  all_goals repeat' first
    | with_reducible assumption
    | exact hR.sub
    | exact fun h => memWf_memStore h
    | exact fun h => memWf_memPut h
    | exact fun h => memWf_filter _ h
    | exact fun _ => rfl
    | exact hR.sub (by decide +kernel) (subFld_self _ _)
    | with_reducible apply rel_ite
    | with_reducible apply State.bump_keeps
    | with_reducible apply State.dirNext_keeps
    | with_reducible apply State.fetchAltered_keeps
    | with_reducible apply State.flashMessage_keeps
    | with_reducible apply State.hbmErr_keeps
    | with_reducible apply State.linePut_keeps
    | with_reducible apply State.message_keeps
    | with_reducible apply State.nodeFetch_keeps
    | with_reducible apply State.packageReset_keeps
    | with_reducible apply State.powerOn_keeps
    | with_reducible apply State.raise_keeps
    | with_reducible apply State.reach_keeps
    | with_reducible apply State.respond_keeps
    | with_reducible apply State.setPc_keeps
    | with_reducible apply State.suspectRow_keeps
    | fail_if_no_progress (with_reducible apply hR.upd; all_goals try first | with_reducible exact .inr rfl | exact .inl (by decide +kernel) | exact id)
    | dsimp only
    | intro _ _
    | intro _
    | contradiction
    | (unfold id)
    | split
    | (rename_i hh; injection hh with hh; subst hh)
    | (rename_i hh; split at hh)

theorem execHbmRefreshDue_keeps {R : State → Prop} (hR : Keeps partsHbmRefreshDue fieldsHbmRefreshDue R) (st : Fin 4) (c : Fin 32) (s : State)
    (hI : R s) {tT : State} (eE : execHbmRefreshDue st c s = .next tT) : R tT := by
  unfold execHbmRefreshDue at eE
  try dsimp only at eE
  repeat' split at eE
  all_goals try (injection eE with eE; subst eE)
  all_goals repeat' first
    | with_reducible assumption
    | exact hR.sub
    | exact fun h => memWf_memStore h
    | exact fun h => memWf_memPut h
    | exact fun h => memWf_filter _ h
    | exact fun _ => rfl
    | with_reducible apply rel_ite
    | with_reducible apply State.dirNext_keeps
    | with_reducible apply State.flashMessage_keeps
    | with_reducible apply State.message_keeps
    | with_reducible apply State.packageReset_keeps
    | with_reducible apply State.powerOn_keeps
    | with_reducible apply State.reach_keeps
    | with_reducible apply State.request_keeps
    | with_reducible apply State.setPc_keeps
    | with_reducible apply State.setStk_keeps
    | fail_if_no_progress (with_reducible apply hR.upd; all_goals try first | with_reducible exact .inr rfl | exact .inl (by decide +kernel) | exact id)
    | dsimp only
    | intro _ _
    | intro _
    | contradiction
    | (unfold id)
    | split
    | (rename_i hh; injection hh with hh; subst hh)
    | (rename_i hh; split at hh)

theorem execHbmRefreshBurst_keeps {R : State → Prop} (hR : Keeps partsHbmRefreshBurst fieldsHbmRefreshBurst R) (st : Fin 4) (s : State)
    (hI : R s) {tT : State} (eE : execHbmRefreshBurst st s = .next tT) : R tT := by
  unfold execHbmRefreshBurst at eE
  try dsimp only at eE
  repeat' split at eE
  all_goals try (injection eE with eE; subst eE)
  all_goals repeat' first
    | with_reducible assumption
    | exact hR.sub
    | exact fun h => memWf_memStore h
    | exact fun h => memWf_memPut h
    | exact fun h => memWf_filter _ h
    | exact fun _ => rfl
    | with_reducible apply rel_ite
    | with_reducible apply State.dirNext_keeps
    | with_reducible apply State.flashMessage_keeps
    | with_reducible apply State.message_keeps
    | with_reducible apply State.packageReset_keeps
    | with_reducible apply State.powerOn_keeps
    | with_reducible apply State.reach_keeps
    | with_reducible apply State.setPc_keeps
    | (with_reducible apply rel_foldl; intro _ _ _)
    | (with_reducible apply rel_foldl2; intro _ _ _)
    | (with_reducible apply rel_foldl3; intro _ _ _)
    | (with_reducible apply rel_foldl1; intro _ _ _)
    | (refine State.takeGrant_keeps hR.sub _ _ _ _ ?_ (by assumption))
    | fail_if_no_progress (with_reducible apply hR.upd; all_goals try first | with_reducible exact .inr rfl | exact .inl (by decide +kernel) | exact id)
    | dsimp only
    | intro _ _
    | intro _
    | contradiction
    | (unfold id)
    | split
    | (rename_i hh; injection hh with hh; subst hh)
    | (rename_i hh; split at hh)

theorem execRefreshBurstPermitTimeout_keeps {R : State → Prop} (hR : Keeps partsRefreshBurstPermitTimeout fieldsRefreshBurstPermitTimeout R) (st : Fin 4) (s : State)
    (hI : R s) {tT : State} (eE : execRefreshBurstPermitTimeout st s = .next tT) : R tT := by
  unfold execRefreshBurstPermitTimeout at eE
  try dsimp only at eE
  repeat' split at eE
  all_goals try (injection eE with eE; subst eE)
  all_goals repeat' first
    | with_reducible assumption
    | exact hR.sub
    | exact fun h => memWf_memStore h
    | exact fun h => memWf_memPut h
    | exact fun h => memWf_filter _ h
    | exact fun _ => rfl
    | with_reducible apply rel_ite
    | with_reducible apply State.dirNext_keeps
    | with_reducible apply State.flashMessage_keeps
    | with_reducible apply State.giveBack_keeps
    | with_reducible apply State.lapseTo_keeps
    | with_reducible apply State.message_keeps
    | with_reducible apply State.packageReset_keeps
    | with_reducible apply State.powerOn_keeps
    | with_reducible apply State.reach_keeps
    | with_reducible apply State.setPc_keeps
    | (with_reducible apply rel_foldl; intro _ _ _)
    | (with_reducible apply rel_foldl2; intro _ _ _)
    | (with_reducible apply rel_foldl3; intro _ _ _)
    | (with_reducible apply rel_foldl1; intro _ _ _)
    | fail_if_no_progress (with_reducible apply hR.upd; all_goals try first | with_reducible exact .inr rfl | exact .inl (by decide +kernel) | exact id)
    | dsimp only
    | intro _ _
    | intro _
    | contradiction
    | (unfold id)
    | split
    | (rename_i hh; injection hh with hh; subst hh)
    | (rename_i hh; split at hh)

theorem execHbmTempReading_keeps {R : State → Prop} (hR : Keeps partsHbmTempReading fieldsHbmTempReading R) (st : Fin 4) (temp : BitVec 8) (s : State)
    (hI : R s) {tT : State} (eE : execHbmTempReading st temp s = .next tT) : R tT := by
  unfold execHbmTempReading at eE
  try dsimp only at eE
  repeat' split at eE
  all_goals try (injection eE with eE; subst eE)
  all_goals repeat' first
    | with_reducible assumption
    | exact hR.sub
    | exact fun h => memWf_memStore h
    | exact fun h => memWf_memPut h
    | exact fun h => memWf_filter _ h
    | exact fun _ => rfl
    | with_reducible apply rel_ite
    | with_reducible refine hR.wr _ _ _ (by decide +kernel) (by first | decide +kernel | exact hasFld_self _ _ | exact hasFld_all _ | (simp [hasFld]; done) ) ?_
    | with_reducible apply State.dirNext_keeps
    | with_reducible apply State.flashMessage_keeps
    | with_reducible apply State.message_keeps
    | with_reducible apply State.packageReset_keeps
    | with_reducible apply State.powerOn_keeps
    | with_reducible apply State.raise_keeps
    | with_reducible apply State.reach_keeps
    | with_reducible apply State.retrain_keeps
    | with_reducible apply State.setStk_keeps
    | fail_if_no_progress (with_reducible apply hR.upd; all_goals try first | with_reducible exact .inr rfl | exact .inl (by decide +kernel) | exact id)
    | dsimp only
    | intro _ _
    | intro _
    | contradiction
    | (unfold id)
    | split
    | (rename_i hh; injection hh with hh; subst hh)
    | (rename_i hh; split at hh)

def opPartsSealForget : List Part :=
  [.regs, .draws, .stewards, .govs, .seals, .leafMaj, .leafMin, .innerC, .ccache, .hwm, .lostN, .reenc, .ccT, .keys]
def opFieldsSealForget : FSet :=
  ⟨[.SEAL_RCTL_CUR, .SEAL_RCTL_OWNER, .SEAL_RSTAT_FREEZE, .SEAL_RSTAT_KEYS, .SEAL_RSTAT_STATE, .SEAL_RSTAT_SWSTOP,
    .SEAL_STAT_DEFKEY, .SEAL_STAT_KIND, .SEAL_STAT_PERMIT_WAIT, .SEAL_STAT_QUEUE], [], [], false⟩

theorem State.sealForget_keeps {R : State → Prop} (hR : Keeps opPartsSealForget opFieldsSealForget R) (s : State) (st : Nat)
    (hI : R s) : R (State.sealForget s st) := by
  unfold State.sealForget
  extract_lets s1 mine s2
  have h1 : R s1 := by
    refine rel_foldl (fun s r h => ?_) _ hI
    repeat' first
    | with_reducible assumption
    | exact hR.sub
    | with_reducible refine hR.wr _ _ _ (by decide +kernel) (by decide +kernel) ?_
    | with_reducible apply State.raise_keeps
    | with_reducible apply rel_ite
  clear_value s1 mine
  have h2 : R s2 := by
    apply hR.upd <;> first | assumption | exact .inl (by decide +kernel) | with_reducible exact .inr rfl | exact id
  clear_value s2
  generalize hd : s2.draw 512 = p
  obtain ⟨k, s3⟩ := p
  have h3 := State.draw_keeps_of hR.sub _ _ h2 hd
  dsimp only
  generalize hd : s3.draw 256 = p
  obtain ⟨m, s4⟩ := p
  have h4 := State.draw_keeps_of hR.sub _ _ h3 hd
  dsimp only
  generalize smPut s4.keys _ _ _ = x
  repeat' first
    | with_reducible assumption
    | exact hR.sub
    | with_reducible refine hR.wr _ _ _ (by decide +kernel) (by decide +kernel) ?_
    | with_reducible apply State.giveBack_keeps
    | fail_if_no_progress (with_reducible apply hR.upd; all_goals try first | exact .inl (by decide +kernel) | with_reducible exact .inr rfl | exact id)

theorem execHbmTrainingStart_keeps {R : State → Prop} (hR : Keeps partsHbmTrainingStart fieldsHbmTrainingStart R) (st : Fin 4) (s : State)
    (hI : R s) {tT : State} (eE : execHbmTrainingStart st s = .next tT) : R tT := by
  unfold execHbmTrainingStart at eE
  try dsimp only at eE
  repeat' split at eE
  all_goals try (injection eE with eE; subst eE)
  all_goals repeat' first
    | with_reducible assumption
    | exact hR.sub
    | exact fun h => memWf_memStore h
    | exact fun h => memWf_memPut h
    | exact fun h => memWf_filter _ h
    | exact fun _ => rfl
    | with_reducible apply rel_ite
    | with_reducible refine hR.wr _ _ _ (by decide +kernel) (by first | decide +kernel | exact hasFld_self _ _ | exact hasFld_all _ | (simp [hasFld]; done) ) ?_
    | with_reducible apply State.dirNext_keeps
    | with_reducible apply State.flashMessage_keeps
    | with_reducible apply State.message_keeps
    | with_reducible apply State.packageReset_keeps
    | with_reducible apply State.powerOn_keeps
    | with_reducible apply State.pull_keeps
    | with_reducible apply State.reach_keeps
    | with_reducible apply State.sealForget_keeps
    | with_reducible apply State.setStk_keeps
    | (refine State.takeGrant_keeps hR.sub _ _ _ _ ?_ (by assumption))
    | fail_if_no_progress (with_reducible apply hR.upd; all_goals try first | with_reducible exact .inr rfl | exact .inl (by decide +kernel) | exact id)
    | dsimp only
    | intro _ _
    | intro _
    | contradiction
    | (unfold id)
    | split
    | (rename_i hh; injection hh with hh; subst hh)
    | (rename_i hh; split at hh)

theorem execHbmTrainPermitTimeout_keeps {R : State → Prop} (hR : Keeps partsHbmTrainPermitTimeout fieldsHbmTrainPermitTimeout R) (st : Fin 4) (s : State)
    (hI : R s) {tT : State} (eE : execHbmTrainPermitTimeout st s = .next tT) : R tT := by
  unfold execHbmTrainPermitTimeout at eE
  try dsimp only at eE
  split at eE
  on_goal 1 => split at eE
  all_goals (injection eE with eE; subst eE)
  · rename_i t' h
    have h1 : R t' := by
      have hp := State.pull_keeps hR.sub  _ (9 + st) 11 [st] (State.pull_keeps hR.sub _ (2 * st) 11 [st] hI)
      split at h
      · injection h with h; subst h
        exact State.takeTimeout_keeps hR.sub _ _ _ _ hI (by assumption)
      · split at h
        · injection h with h; subst h
          exact State.takeTimeout_keeps hR.sub _ _ _ _ hp (by assumption)
        · exact State.takeTimeout_keeps hR.sub _ _ _ _ hp h
    repeat' first
    | with_reducible assumption
    | exact hR.sub
    | with_reducible apply State.raise_keeps
    | with_reducible apply State.setStk_keeps
    | with_reducible apply State.refreshReturn_keeps
    | with_reducible apply State.trainReturn_keeps
  all_goals exact hI

theorem execHbmTrainRetry_keeps {R : State → Prop} (hR : Keeps partsHbmTrainRetry fieldsHbmTrainRetry R) (st : Fin 4) (s : State)
    (hI : R s) {tT : State} (eE : execHbmTrainRetry st s = .next tT) : R tT := by
  unfold execHbmTrainRetry at eE
  try dsimp only at eE
  repeat' split at eE
  all_goals try (injection eE with eE; subst eE)
  all_goals repeat' first
    | with_reducible assumption
    | exact hR.sub
    | exact fun h => memWf_memStore h
    | exact fun h => memWf_memPut h
    | exact fun h => memWf_filter _ h
    | exact fun _ => rfl
    | with_reducible apply rel_ite
    | with_reducible apply State.askTraining_keeps
    | with_reducible apply State.dirNext_keeps
    | with_reducible apply State.flashMessage_keeps
    | with_reducible apply State.lapseTo_keeps
    | with_reducible apply State.message_keeps
    | with_reducible apply State.packageReset_keeps
    | with_reducible apply State.powerOn_keeps
    | with_reducible apply State.reach_keeps
    | with_reducible apply State.setStk_keeps
    | fail_if_no_progress (with_reducible apply hR.upd; all_goals try first | with_reducible exact .inr rfl | exact .inl (by decide +kernel) | exact id)
    | dsimp only
    | intro _ _
    | intro _
    | contradiction
    | (unfold id)
    | split
    | (rename_i hh; injection hh with hh; subst hh)
    | (rename_i hh; split at hh)

theorem execZeroFillDone_keeps {R : State → Prop} (hR : Keeps partsZeroFillDone fieldsZeroFillDone R) (st : Fin 4) (softLeft : Fin 1537) (repaired : Bool) (unrepaired : Nat) (s : State)
    (hI : R s) {tT : State} (eE : execZeroFillDone st softLeft repaired unrepaired s = .next tT) : R tT := by
  unfold execZeroFillDone at eE
  try dsimp only at eE
  repeat' split at eE
  all_goals try (injection eE with eE; subst eE)
  all_goals repeat' first
    | with_reducible assumption
    | exact hR.sub
    | exact fun h => memWf_memStore h
    | exact fun h => memWf_memPut h
    | exact fun h => memWf_filter _ h
    | exact fun _ => rfl
    | with_reducible apply rel_ite
    | with_reducible refine hR.wr _ _ _ (by decide +kernel) (by first | decide +kernel | exact hasFld_self _ _ | exact hasFld_all _ | (simp [hasFld]; done) ) ?_
    | with_reducible apply State.dirNext_keeps
    | with_reducible apply State.flashMessage_keeps
    | with_reducible apply State.lapseTo_keeps
    | with_reducible apply State.message_keeps
    | with_reducible apply State.notice_keeps
    | with_reducible apply State.packageReset_keeps
    | with_reducible apply State.powerOn_keeps
    | with_reducible apply State.raise_keeps
    | with_reducible apply State.reach_keeps
    | (with_reducible apply rel_foldl; intro _ _ _)
    | (with_reducible apply rel_foldl2; intro _ _ _)
    | (with_reducible apply rel_foldl3; intro _ _ _)
    | (with_reducible apply rel_foldl1; intro _ _ _)
    | fail_if_no_progress (with_reducible apply hR.upd; all_goals try first | with_reducible exact .inr rfl | exact .inl (by decide +kernel) | exact id)
    | dsimp only
    | intro _ _
    | intro _
    | contradiction
    | (unfold id)
    | split
    | (rename_i hh; injection hh with hh; subst hh)
    | (rename_i hh; split at hh)

theorem execHbmTrainingDone_keeps {R : State → Prop} (hR : Keeps partsHbmTrainingDone fieldsHbmTrainingDone R) (st : Fin 4) (lrep : List Nat) (temp : BitVec 8) (rfm : Bool) (s : State)
    (hI : R s) {tT : State} (eE : execHbmTrainingDone st lrep temp rfm s = .next tT) : R tT := by
  unfold execHbmTrainingDone at eE
  try dsimp only at eE
  repeat' split at eE
  all_goals try (injection eE with eE; subst eE)
  all_goals repeat' first
    | with_reducible assumption
    | exact hR.sub
    | exact fun h => memWf_memStore h
    | exact fun h => memWf_memPut h
    | exact fun h => memWf_filter _ h
    | exact fun _ => rfl
    | with_reducible apply rel_ite
    | with_reducible refine hR.wr _ _ _ (by decide +kernel) (by first | decide +kernel | exact hasFld_self _ _ | exact hasFld_all _ | (simp [hasFld]; done) ) ?_
    | with_reducible apply State.dirNext_keeps
    | with_reducible apply State.flashMessage_keeps
    | with_reducible apply State.lapseTo_keeps
    | with_reducible apply State.message_keeps
    | with_reducible apply State.packageReset_keeps
    | with_reducible apply State.powerOn_keeps
    | with_reducible apply State.reach_keeps
    | with_reducible apply State.setStk_keeps
    | with_reducible apply State.sweepWake_keeps
    | with_reducible apply State.trainReturn_keeps
    | (with_reducible apply rel_foldl; intro _ _ _)
    | (with_reducible apply rel_foldl2; intro _ _ _)
    | (with_reducible apply rel_foldl3; intro _ _ _)
    | (with_reducible apply rel_foldl1; intro _ _ _)
    | fail_if_no_progress (with_reducible apply hR.upd; all_goals try first | with_reducible exact .inr rfl | exact .inl (by decide +kernel) | exact id)
    | dsimp only
    | intro _ _
    | intro _
    | contradiction
    | (unfold id)
    | split
    | (rename_i hh; injection hh with hh; subst hh)
    | (rename_i hh; split at hh)

theorem execHbmTrainingFail_keeps {R : State → Prop} (hR : Keeps partsHbmTrainingFail fieldsHbmTrainingFail R) (st : Fin 4) (s : State)
    (hI : R s) {tT : State} (eE : execHbmTrainingFail st s = .next tT) : R tT := by
  unfold execHbmTrainingFail at eE
  try dsimp only at eE
  repeat' split at eE
  all_goals try (injection eE with eE; subst eE)
  all_goals repeat' first
    | with_reducible assumption
    | exact hR.sub
    | exact fun h => memWf_memStore h
    | exact fun h => memWf_memPut h
    | exact fun h => memWf_filter _ h
    | exact fun _ => rfl
    | with_reducible apply rel_ite
    | with_reducible refine hR.wr _ _ _ (by decide +kernel) (by first | decide +kernel | exact hasFld_self _ _ | exact hasFld_all _ | (simp [hasFld]; done) ) ?_
    | with_reducible apply State.dirNext_keeps
    | with_reducible apply State.flashMessage_keeps
    | with_reducible apply State.message_keeps
    | with_reducible apply State.packageReset_keeps
    | with_reducible apply State.powerOn_keeps
    | with_reducible apply State.raise_keeps
    | with_reducible apply State.reach_keeps
    | with_reducible apply State.refreshReturn_keeps
    | with_reducible apply State.setStk_keeps
    | with_reducible apply State.trainReturn_keeps
    | fail_if_no_progress (with_reducible apply hR.upd; all_goals try first | with_reducible exact .inr rfl | exact .inl (by decide +kernel) | exact id)
    | dsimp only
    | intro _ _
    | intro _
    | contradiction
    | (unfold id)
    | split
    | (rename_i hh; injection hh with hh; subst hh)
    | (rename_i hh; split at hh)

theorem execHbmRetrainPeriod_keeps {R : State → Prop} (hR : Keeps partsHbmRetrainPeriod fieldsHbmRetrainPeriod R) (st : Fin 4) (s : State)
    (hI : R s) {tT : State} (eE : execHbmRetrainPeriod st s = .next tT) : R tT := by
  unfold execHbmRetrainPeriod at eE
  try dsimp only at eE
  repeat' split at eE
  all_goals try (injection eE with eE; subst eE)
  all_goals repeat' first
    | with_reducible assumption
    | exact hR.sub
    | with_reducible apply rel_ite
    | with_reducible apply State.dirNext_keeps
    | with_reducible apply State.flashMessage_keeps
    | with_reducible apply State.lapseTo_keeps
    | with_reducible apply State.message_keeps
    | with_reducible apply State.packageReset_keeps
    | with_reducible apply State.powerOn_keeps
    | with_reducible apply State.reach_keeps
    | with_reducible apply State.retrain_keeps
    | dsimp only
    | intro _ _
    | intro _
    | contradiction
    | (unfold id)
    | split
    | (rename_i hh; injection hh with hh; subst hh)
    | (rename_i hh; split at hh)

theorem State.hbmCmd_keeps {R : State → Prop} (hR : Keeps [.stewards, .rstUnlock] ⟨[], [], [], false⟩ R) (s : State) (w : Writer) (st cmd : Nat) (ok : Bool) (k : State → State)
    (hI : R s) (hk : ∀  s, R s → R (k  s)) : R (State.hbmCmd s w st cmd ok k) := by
  unfold State.hbmCmd
  try dsimp only
  repeat' first
    | with_reducible assumption
    | exact hR.sub
    | with_reducible apply rel_ite
    | (with_reducible apply hk)
    | with_reducible apply State.dropF_keeps
    | with_reducible apply State.reach_keeps
    | dsimp only
    | intro _ _
    | intro _
    | contradiction
    | (unfold id)
    | split
    | (rename_i hh; injection hh with hh; subst hh)
    | (rename_i hh; split at hh)

theorem execHbmCmdRetrain_keeps {R : State → Prop} (hR : Keeps partsHbmCmdRetrain fieldsHbmCmdRetrain R) (w : Writer) (st : Fin 4) (s : State)
    (hI : R s) {tT : State} (eE : execHbmCmdRetrain w st s = .next tT) : R tT := by
  unfold execHbmCmdRetrain at eE
  try dsimp only at eE
  repeat' split at eE
  all_goals try (injection eE with eE; subst eE)
  all_goals repeat' first
    | with_reducible assumption
    | exact hR.sub
    | with_reducible apply rel_ite
    | with_reducible apply State.dirNext_keeps
    | with_reducible apply State.flashMessage_keeps
    | with_reducible apply State.hbmCmd_keeps
    | with_reducible apply State.message_keeps
    | with_reducible apply State.packageReset_keeps
    | with_reducible apply State.powerOn_keeps
    | with_reducible apply State.reach_keeps
    | with_reducible apply State.retrain_keeps
    | dsimp only
    | intro _ _
    | intro _
    | contradiction
    | (unfold id)
    | split
    | (rename_i hh; injection hh with hh; subst hh)
    | (rename_i hh; split at hh)

theorem State.stackFails_keeps {R : State → Prop} (hR : Keeps [.regs, .stewards, .health, .govs, .stack] ⟨[.HBM_CH_STAT_STATE, .HBM_CTL_EN, .HBM_STAT_STATE, .MGMT_HEALTH_STAGE], [], [], false⟩ R) (s : State) (st c : Nat)
    (hI : R s) : R (State.stackFails s st c) := by
  unfold State.stackFails
  try dsimp only
  repeat' first
    | with_reducible assumption
    | exact hR.sub
    | with_reducible apply rel_ite
    | with_reducible refine hR.wr _ _ _ (by decide +kernel) (by first | decide +kernel | exact hasFld_self _ _ | exact hasFld_all _ | (simp [hasFld]; done) ) ?_
    | with_reducible apply State.capacityLost_keeps
    | with_reducible apply State.raise_keeps
    | with_reducible apply State.srCause_keeps
    | dsimp only
    | intro _ _
    | intro _
    | contradiction
    | (unfold id)
    | split
    | (rename_i hh; injection hh with hh; subst hh)
    | (rename_i hh; split at hh)

theorem execHbmChannelRetrainDone_keeps {R : State → Prop} (hR : Keeps partsHbmChannelRetrainDone fieldsHbmChannelRetrainDone R) (st : Fin 4) (failing : Bool) (s : State)
    (hI : R s) {tT : State} (eE : execHbmChannelRetrainDone st failing s = .next tT) : R tT := by
  unfold execHbmChannelRetrainDone at eE
  try dsimp only at eE
  repeat' split at eE
  all_goals try (injection eE with eE; subst eE)
  all_goals repeat' first
    | with_reducible assumption
    | exact hR.sub
    | exact fun h => memWf_memStore h
    | exact fun h => memWf_memPut h
    | exact fun h => memWf_filter _ h
    | exact fun _ => rfl
    | with_reducible apply rel_ite
    | with_reducible refine hR.wr _ _ _ (by decide +kernel) (by first | decide +kernel | exact hasFld_self _ _ | exact hasFld_all _ | (simp [hasFld]; done) ) ?_
    | with_reducible apply State.dirNext_keeps
    | with_reducible apply State.flashMessage_keeps
    | with_reducible apply State.lapseTo_keeps
    | with_reducible apply State.message_keeps
    | with_reducible apply State.notice_keeps
    | with_reducible apply State.packageReset_keeps
    | with_reducible apply State.powerOn_keeps
    | with_reducible apply State.reach_keeps
    | with_reducible apply State.setStk_keeps
    | with_reducible apply State.stackFails_keeps
    | fail_if_no_progress (with_reducible apply hR.upd; all_goals try first | with_reducible exact .inr rfl | exact .inl (by decide +kernel) | exact id)
    | dsimp only
    | intro _ _
    | intro _
    | contradiction
    | (unfold id)
    | split
    | (rename_i hh; injection hh with hh; subst hh)
    | (rename_i hh; split at hh)

theorem State.srExitTimeout_keeps {R : State → Prop} (hR : Keeps [.stewards, .govs, .stack] ⟨[], [], [], false⟩ R) (s : State) (st : Nat)
    (hI : R s) : R (State.srExitTimeout s st) := by
  unfold State.srExitTimeout
  try dsimp only
  repeat' first
    | with_reducible assumption
    | exact hR.sub
    | exact fun h => memWf_memStore h
    | exact fun h => memWf_memPut h
    | exact fun h => memWf_filter _ h
    | exact fun _ => rfl
    | with_reducible apply rel_ite
    | with_reducible apply State.giveBack_keeps
    | with_reducible apply State.raise_keeps
    | with_reducible apply State.setStk_keeps
    | fail_if_no_progress (with_reducible apply hR.upd; all_goals try first | with_reducible exact .inr rfl | exact .inl (by decide +kernel) | exact id)
    | dsimp only
    | intro _ _
    | intro _
    | contradiction
    | (unfold id)
    | split
    | (rename_i hh; injection hh with hh; subst hh)
    | (rename_i hh; split at hh)

theorem execHbmCmdSelfRefresh_keeps {R : State → Prop} (hR : Keeps partsHbmCmdSelfRefresh fieldsHbmCmdSelfRefresh R) (w : Writer) (st : Fin 4) (s : State)
    (hI : R s) {tT : State} (eE : execHbmCmdSelfRefresh w st s = .next tT) : R tT := by
  unfold execHbmCmdSelfRefresh at eE
  try dsimp only at eE
  repeat' split at eE
  all_goals try (injection eE with eE; subst eE)
  all_goals repeat' first
    | with_reducible assumption
    | exact hR.sub
    | with_reducible apply rel_ite
    | with_reducible apply State.dirNext_keeps
    | with_reducible apply State.flashMessage_keeps
    | with_reducible apply State.hbmCmd_keeps
    | with_reducible apply State.message_keeps
    | with_reducible apply State.packageReset_keeps
    | with_reducible apply State.powerOn_keeps
    | with_reducible apply State.reach_keeps
    | with_reducible apply State.srCause_keeps
    | dsimp only
    | intro _ _
    | intro _
    | contradiction
    | (unfold id)
    | split
    | (rename_i hh; injection hh with hh; subst hh)
    | (rename_i hh; split at hh)

theorem execHbmCmdSelfRefreshExit_keeps {R : State → Prop} (hR : Keeps partsHbmCmdSelfRefreshExit fieldsHbmCmdSelfRefreshExit R) (w : Writer) (st : Fin 4) (s : State)
    (hI : R s) {tT : State} (eE : execHbmCmdSelfRefreshExit w st s = .next tT) : R tT := by
  unfold execHbmCmdSelfRefreshExit at eE
  try dsimp only at eE
  repeat' split at eE
  all_goals try (injection eE with eE; subst eE)
  all_goals repeat' first
    | with_reducible assumption
    | exact hR.sub
    | exact fun h => memWf_memStore h
    | exact fun h => memWf_memPut h
    | exact fun h => memWf_filter _ h
    | exact fun _ => rfl
    | with_reducible apply rel_ite
    | with_reducible apply State.dirNext_keeps
    | with_reducible apply State.flashMessage_keeps
    | with_reducible apply State.hbmCmd_keeps
    | with_reducible apply State.message_keeps
    | with_reducible apply State.packageReset_keeps
    | with_reducible apply State.powerOn_keeps
    | with_reducible apply State.reach_keeps
    | with_reducible apply State.request_keeps
    | with_reducible apply State.setStk_keeps
    | with_reducible apply State.srExitTimeout_keeps
    | fail_if_no_progress (with_reducible apply hR.upd; all_goals try first | with_reducible exact .inr rfl | exact .inl (by decide +kernel) | exact id)
    | dsimp only
    | intro _ _
    | intro _
    | contradiction
    | (unfold id)
    | split
    | (rename_i hh; injection hh with hh; subst hh)
    | (rename_i hh; split at hh)

def opPartsSrEntered : List Part := [.regs, .stewards, .govs, .hbmPc, .stack, .rtq, .ni, .bearings, .hold]
def opFieldsSrEntered : FSet :=
  ⟨[.HBM_STAT_STATE, .NOC_NI_ALT_CNT_COUNT, .NOC_NI_BOUNCE_CNT_COUNT, .NOC_NI_ERR_CODE, .NOC_NI_ERR_DEST,
    .NOC_NI_ERR_VALID, .NOC_NI_FAIL_CNT_COUNT], [], [], false⟩

theorem State.srEntered_keeps {R : State → Prop} (hR : Keeps opPartsSrEntered opFieldsSrEntered R) (s : State) (st : Nat)
    (hI : R s) : R (State.srEntered s st) := by
  unfold State.srEntered
  try dsimp only
  repeat' first
    | with_reducible assumption
    | exact hR.sub
    | exact fun h => memWf_memStore h
    | exact fun h => memWf_memPut h
    | exact fun h => memWf_filter _ h
    | exact fun _ => rfl
    | with_reducible apply rel_ite
    | with_reducible refine hR.wr _ _ _ (by decide +kernel) (by first | decide +kernel | exact hasFld_self _ _ | exact hasFld_all _ | (simp [hasFld]; done) ) ?_
    | with_reducible apply State.refreshReturn_keeps
    | with_reducible apply State.respond_keeps
    | with_reducible apply State.setPc_keeps
    | with_reducible apply State.setStk_keeps
    | (with_reducible apply rel_foldl; intro _ _ _)
    | (with_reducible apply rel_foldl2; intro _ _ _)
    | (with_reducible apply rel_foldl3; intro _ _ _)
    | (with_reducible apply rel_foldl1; intro _ _ _)
    | fail_if_no_progress (with_reducible apply hR.upd; all_goals try first | with_reducible exact .inr rfl | exact .inl (by decide +kernel) | exact id)
    | dsimp only
    | intro _ _
    | intro _
    | contradiction
    | (unfold id)
    | split
    | (rename_i hh; injection hh with hh; subst hh)
    | (rename_i hh; split at hh)

theorem execSelfRefreshEntered_keeps {R : State → Prop} (hR : Keeps partsSelfRefreshEntered fieldsSelfRefreshEntered R) (st : Fin 4) (s : State)
    (hI : R s) {tT : State} (eE : execSelfRefreshEntered st s = .next tT) : R tT := by
  unfold execSelfRefreshEntered at eE
  try dsimp only at eE
  repeat' split at eE
  all_goals try (injection eE with eE; subst eE)
  all_goals repeat' first
    | with_reducible assumption
    | exact hR.sub
    | with_reducible apply rel_ite
    | with_reducible apply State.dirNext_keeps
    | with_reducible apply State.flashMessage_keeps
    | with_reducible apply State.message_keeps
    | with_reducible apply State.packageReset_keeps
    | with_reducible apply State.powerOn_keeps
    | with_reducible apply State.reach_keeps
    | with_reducible apply State.srEntered_keeps
    | dsimp only
    | intro _ _
    | intro _
    | contradiction
    | (unfold id)
    | split
    | (rename_i hh; injection hh with hh; subst hh)
    | (rename_i hh; split at hh)

theorem State.srExit_keeps {R : State → Prop} (hR : Keeps [.regs, .stack] ⟨[.HBM_CH_STAT_STATE, .HBM_STAT_STATE], [], [], false⟩ R) (s : State) (st : Nat)
    (hI : R s) : R (State.srExit s st) := by
  unfold State.srExit
  try dsimp only
  repeat' first
    | with_reducible assumption
    | exact hR.sub
    | exact fun h => memWf_memStore h
    | exact fun h => memWf_memPut h
    | exact fun h => memWf_filter _ h
    | exact fun _ => rfl
    | with_reducible apply rel_ite
    | with_reducible apply State.retrain_keeps
    | with_reducible apply State.setStk_keeps
    | fail_if_no_progress (with_reducible apply hR.upd; all_goals try first | with_reducible exact .inr rfl | exact .inl (by decide +kernel) | exact id)
    | dsimp only
    | intro _ _
    | intro _
    | contradiction
    | (unfold id)
    | split
    | (rename_i hh; injection hh with hh; subst hh)
    | (rename_i hh; split at hh)

theorem execSelfRefreshExitGrant_keeps {R : State → Prop} (hR : Keeps partsSelfRefreshExitGrant fieldsSelfRefreshExitGrant R) (st : Fin 4) (s : State)
    (hI : R s) {tT : State} (eE : execSelfRefreshExitGrant st s = .next tT) : R tT := by
  unfold execSelfRefreshExitGrant at eE
  try dsimp only at eE
  repeat' split at eE
  all_goals try (injection eE with eE; subst eE)
  all_goals repeat' first
    | with_reducible assumption
    | exact hR.sub
    | exact fun h => memWf_memStore h
    | exact fun h => memWf_memPut h
    | exact fun h => memWf_filter _ h
    | exact fun _ => rfl
    | with_reducible apply rel_ite
    | with_reducible apply State.dirNext_keeps
    | with_reducible apply State.flashMessage_keeps
    | with_reducible apply State.message_keeps
    | with_reducible apply State.packageReset_keeps
    | with_reducible apply State.powerOn_keeps
    | with_reducible apply State.reach_keeps
    | with_reducible apply State.srExit_keeps
    | (refine State.takeGrant_keeps hR.sub _ _ _ _ ?_ (by assumption))
    | fail_if_no_progress (with_reducible apply hR.upd; all_goals try first | with_reducible exact .inr rfl | exact .inl (by decide +kernel) | exact id)
    | dsimp only
    | intro _ _
    | intro _
    | contradiction
    | (unfold id)
    | split
    | (rename_i hh; injection hh with hh; subst hh)
    | (rename_i hh; split at hh)

theorem execHbmPowerDown_keeps {R : State → Prop} (hR : Keeps partsHbmPowerDown fieldsHbmPowerDown R) (st : Fin 4) (s : State)
    (hI : R s) {tT : State} (eE : execHbmPowerDown st s = .next tT) : R tT := by
  unfold execHbmPowerDown at eE
  try dsimp only at eE
  repeat' split at eE
  all_goals try (injection eE with eE; subst eE)
  all_goals repeat' first
    | with_reducible assumption
    | exact hR.sub
    | exact fun h => memWf_memStore h
    | exact fun h => memWf_memPut h
    | exact fun h => memWf_filter _ h
    | exact fun _ => rfl
    | with_reducible apply rel_ite
    | with_reducible apply State.dirNext_keeps
    | with_reducible apply State.flashMessage_keeps
    | with_reducible apply State.lapseTo_keeps
    | with_reducible apply State.message_keeps
    | with_reducible apply State.packageReset_keeps
    | with_reducible apply State.powerOn_keeps
    | with_reducible apply State.reach_keeps
    | with_reducible apply State.setStk_keeps
    | fail_if_no_progress (with_reducible apply hR.upd; all_goals try first | with_reducible exact .inr rfl | exact .inl (by decide +kernel) | exact id)
    | dsimp only
    | intro _ _
    | intro _
    | contradiction
    | (unfold id)
    | split
    | (rename_i hh; injection hh with hh; subst hh)
    | (rename_i hh; split at hh)

theorem execHbmScrubBurst_keeps {R : State → Prop} (hR : Keeps partsHbmScrubBurst fieldsHbmScrubBurst R) (st : Fin 4) (found : List (Fin 64 × Bool)) (granted : Bool) (s : State)
    (hI : R s) {tT : State} (eE : execHbmScrubBurst st found granted s = .next tT) : R tT := by
  unfold execHbmScrubBurst at eE
  try dsimp only at eE
  repeat' split at eE
  all_goals try (injection eE with eE; subst eE)
  all_goals repeat' first
    | with_reducible assumption
    | exact hR.sub
    | exact fun h => memWf_memStore h
    | exact fun h => memWf_memPut h
    | exact fun h => memWf_filter _ h
    | exact fun _ => rfl
    | exact hR.sub (by decide +kernel) (subFld_self _ _)
    | with_reducible apply rel_ite
    | with_reducible refine hR.wr _ _ _ (by decide +kernel) (by first | decide +kernel | exact hasFld_self _ _ | exact hasFld_all _ | (simp [hasFld]; done) ) ?_
    | with_reducible apply State.bump_keeps
    | with_reducible apply State.dirNext_keeps
    | with_reducible apply State.flashMessage_keeps
    | with_reducible apply State.hbmErr_keeps
    | with_reducible apply State.lapseTo_keeps
    | with_reducible apply State.linePut_keeps
    | with_reducible apply State.message_keeps
    | with_reducible apply State.packageReset_keeps
    | with_reducible apply State.powerOn_keeps
    | with_reducible apply State.raise_keeps
    | with_reducible apply State.reach_keeps
    | with_reducible apply State.request_keeps
    | with_reducible apply State.scrubReads_keeps
    | with_reducible apply State.setStk_keeps
    | with_reducible apply State.suspectRow_keeps
    | (with_reducible apply rel_foldl; intro _ _ _)
    | (with_reducible apply rel_foldl2; intro _ _ _)
    | (with_reducible apply rel_foldl3; intro _ _ _)
    | (with_reducible apply rel_foldl1; intro _ _ _)
    | (refine State.takeGrant_keeps hR.sub _ _ _ _ ?_ (by assumption))
    | (refine State.takeTimeout_keeps hR.sub _ _ _ _ ?_ (by assumption))
    | fail_if_no_progress (with_reducible apply hR.upd; all_goals try first | with_reducible exact .inr rfl | exact .inl (by decide +kernel) | exact id)
    | dsimp only
    | intro _ _
    | intro _
    | contradiction
    | (unfold id)
    | split
    | (rename_i hh; injection hh with hh; subst hh)
    | (rename_i hh; split at hh)

theorem execHbmIlvWrite_keeps {R : State → Prop} (hR : Keeps partsHbmIlvWrite fieldsHbmIlvWrite R) (w : Writer) (v : BitVec 2) (s : State)
    (hI : R s) {tT : State} (eE : execHbmIlvWrite w v s = .next tT) : R tT := by
  unfold execHbmIlvWrite at eE
  try dsimp only at eE
  repeat' split at eE
  all_goals try (injection eE with eE; subst eE)
  all_goals repeat' first
    | with_reducible assumption
    | exact hR.sub
    | with_reducible apply rel_ite
    | with_reducible refine hR.wr _ _ _ (by decide +kernel) (by first | decide +kernel | exact hasFld_self _ _ | exact hasFld_all _ | (simp [hasFld]; done) ) ?_
    | with_reducible apply State.dirNext_keeps
    | with_reducible apply State.drop_keeps
    | with_reducible apply State.flashMessage_keeps
    | with_reducible apply State.message_keeps
    | with_reducible apply State.packageReset_keeps
    | with_reducible apply State.powerOn_keeps
    | with_reducible apply State.raise_keeps
    | with_reducible apply State.reach_keeps
    | dsimp only
    | intro _ _
    | intro _
    | contradiction
    | (unfold id)
    | split
    | (rename_i hh; injection hh with hh; subst hh)
    | (rename_i hh; split at hh)

theorem execHbmHashWrite_keeps {R : State → Prop} (hR : Keeps partsHbmHashWrite fieldsHbmHashWrite R) (w : Writer) (st : Fin 4) (i : Fin 9) (v : BitVec 26) (s : State)
    (hI : R s) {tT : State} (eE : execHbmHashWrite w st i v s = .next tT) : R tT := by
  unfold execHbmHashWrite at eE
  try dsimp only at eE
  repeat' split at eE
  all_goals try (injection eE with eE; subst eE)
  all_goals repeat' first
    | with_reducible assumption
    | exact hR.sub
    | with_reducible apply rel_ite
    | with_reducible refine hR.wr _ _ _ (by decide +kernel) (by first | decide +kernel | exact hasFld_self _ _ | exact hasFld_all _ | (simp [hasFld]; done) ) ?_
    | with_reducible apply State.dirNext_keeps
    | with_reducible apply State.drop_keeps
    | with_reducible apply State.flashMessage_keeps
    | with_reducible apply State.message_keeps
    | with_reducible apply State.packageReset_keeps
    | with_reducible apply State.powerOn_keeps
    | with_reducible apply State.reach_keeps
    | dsimp only
    | intro _ _
    | intro _
    | contradiction
    | (unfold id)
    | split
    | (rename_i hh; injection hh with hh; subst hh)
    | (rename_i hh; split at hh)

end Sys2Proof.Machine
end

