-- ==== Sys2Proof/Laws/KeepsRemoteCache.lean ====
section
/-! SUPPORT. What the operations of `Machine/RemoteCache.lean` may change and what they keep. -/

namespace Sys2Proof.Machine

set_option Elab.async false
set_option linter.all false

theorem State.setMiss_keeps {R : State → Prop} (hR : Keeps [.rcMiss] ⟨[], [], [], false⟩ R) (s : State) (n line : Nat) (x : RcMiss)
    (hI : R s) : R (State.setMiss s n line x) := by
  unfold State.setMiss
  try dsimp only
  repeat' first
    | with_reducible assumption
    | exact hR.sub
    | exact fun h => memWf_memStore h
    | exact fun h => memWf_memPut h
    | exact fun h => memWf_filter _ h
    | exact fun _ => rfl
    | with_reducible apply rel_ite
    | fail_if_no_progress (with_reducible apply hR.upd; all_goals try first | with_reducible exact .inr rfl | exact .inl (by decide +kernel) | exact id)
    | dsimp only
    | intro _ _
    | intro _
    | contradiction
    | (unfold id)
    | split
    | (rename_i hh; injection hh with hh; subst hh)
    | (rename_i hh; split at hh)

theorem State.setHaQ_keeps {R : State → Prop} (hR : Keeps [.haIn] ⟨[], [], [], false⟩ R) (s : State) (st : Nat) (l : List HaReq)
    (hI : R s) : R (State.setHaQ s st l) := by
  unfold State.setHaQ
  try dsimp only
  repeat' first
    | with_reducible assumption
    | exact hR.sub
    | exact fun h => memWf_memStore h
    | exact fun h => memWf_memPut h
    | exact fun h => memWf_filter _ h
    | exact fun _ => rfl
    | with_reducible apply rel_ite
    | fail_if_no_progress (with_reducible apply hR.upd; all_goals try first | with_reducible exact .inr rfl | exact .inl (by decide +kernel) | exact id)
    | dsimp only
    | intro _ _
    | intro _
    | contradiction
    | (unfold id)
    | split
    | (rename_i hh; injection hh with hh; subst hh)
    | (rename_i hh; split at hh)

theorem State.setTx_keeps {R : State → Prop} (hR : Keeps [.haTx] ⟨[], [], [], false⟩ R) (s : State) (st line : Nat) (x : HaTx)
    (hI : R s) : R (State.setTx s st line x) := by
  unfold State.setTx
  try dsimp only
  repeat' first
    | with_reducible assumption
    | exact hR.sub
    | exact fun h => memWf_memStore h
    | exact fun h => memWf_memPut h
    | exact fun h => memWf_filter _ h
    | exact fun _ => rfl
    | with_reducible apply rel_ite
    | fail_if_no_progress (with_reducible apply hR.upd; all_goals try first | with_reducible exact .inr rfl | exact .inl (by decide +kernel) | exact id)
    | dsimp only
    | intro _ _
    | intro _
    | contradiction
    | (unfold id)
    | split
    | (rename_i hh; injection hh with hh; subst hh)
    | (rename_i hh; split at hh)

theorem State.answerWith_keeps {R : State → Prop} (hR : Keeps [.answer] ⟨[], [], [], false⟩ R) (s : State) (data : Nat) (bad : Bool)
    (hI : R s) : R (State.answerWith s data bad) := by
  unfold State.answerWith
  try dsimp only
  repeat' first
    | with_reducible assumption
    | exact hR.sub
    | exact fun h => memWf_memStore h
    | exact fun h => memWf_memPut h
    | exact fun h => memWf_filter _ h
    | exact fun _ => rfl
    | with_reducible apply rel_ite
    | fail_if_no_progress (with_reducible apply hR.upd; all_goals try first | with_reducible exact .inr rfl | exact .inl (by decide +kernel) | exact id)
    | dsimp only
    | intro _ _
    | intro _
    | contradiction
    | (unfold id)
    | split
    | (rename_i hh; injection hh with hh; subst hh)
    | (rename_i hh; split at hh)

theorem State.rcArrayError_keeps {R : State → Prop} (hR : Keeps [.regs, .hbm, .poison, .rcLines, .sf] ⟨[.HA_POISON_CNT_COUNT, .HA_STAT_SF_LEVEL, .RC_POISON_CNT_COUNT], [], [], false⟩ R) (s : State) (n line : Nat) (tag : Bool)
    (hI : R s) : R (State.rcArrayError s n line tag) := by
  unfold State.rcArrayError
  try dsimp only
  repeat' first
    | with_reducible assumption
    | exact hR.sub
    | exact hR.sub (by decide +kernel) (subFld_self _ _)
    | with_reducible apply rel_ite
    | with_reducible apply State.bump_keeps
    | with_reducible apply State.homeStore_keeps
    | with_reducible apply State.setRc_keeps
    | with_reducible apply State.sfDrop_keeps
    | (with_reducible apply rel_foldl; intro _ _ _)
    | (with_reducible apply rel_foldl2; intro _ _ _)
    | (with_reducible apply rel_foldl3; intro _ _ _)
    | (with_reducible apply rel_foldl1; intro _ _ _)
    | dsimp only
    | intro _ _
    | intro _
    | contradiction
    | (unfold id)
    | split
    | (rename_i hh; injection hh with hh; subst hh)
    | (rename_i hh; split at hh)

theorem execRcAccess_keeps {R : State → Prop} (hR : Keeps partsRcAccess fieldsRcAccess R) (n : Fin 8) (line : BitVec 32) (write : Bool) (data : BitVec 512) (src : BitVec 12) (fn : BitVec 4) (ecc : Fin 4) (s : State)
    (hI : R s) {tT : State} (eE : execRcAccess n line write data src fn ecc s = .next tT) : R tT := by
  unfold execRcAccess at eE
  extract_lets l g m hit s1 s2 x st out clean opc s3 s4 at eE
  split at eE
  · split at eE
    · injection eE with eE; subst eE
      exact State.gWrite_keeps hR.sub _ _ _ _ _ _ hI
    · have h := State.gRead_keeps hR.sub s m g (0, 0) hI
      generalize s.gRead m g (0, 0) = p at eE h
      obtain ⟨d, c, s1⟩ := p
      injection eE with eE; subst eE
      fail_if_no_progress (with_reducible apply hR.upd; all_goals try first | exact .inl (by decide +kernel) | with_reducible exact .inr rfl | exact id)
      exact h
  · skip
    have h1 : R s1 := rel_ite (State.raise_keeps hR.sub _ _ _ _ _ _ (State.bump_keeps (f := .RC_ECC_CNT_COUNT) hR.sub _ _ _ hI)) hI
    clear_value s1
    have h2 : R s2 := rel_ite (State.rcArrayError_keeps hR.sub _ _ _ _ h1) (rel_ite (State.rcArrayError_keeps hR.sub _ _ _ _ h1) h1)
    clear_value s2
    split at eE
    · split at eE
      · have h := State.rcWrite_keeps hR.sub s2 n l data.toNat false h2
        generalize s2.rcWrite n l data.toNat false = p at eE h
        obtain ⟨c, s3⟩ := p
        injection eE with eE; subst eE
        exact rel_ite (State.refuse19_keeps hR.sub _ _ _ _ h) h
      · have h := State.rcRead_keeps hR.sub s2 n l h2
        generalize s2.rcRead n l = p at eE h
        obtain ⟨d, c, s3⟩ := p
        injection eE with eE; subst eE
        have h4 : R (if c = 2 then s3.refuse19 m g 2 else s3) := rel_ite (State.refuse19_keeps hR.sub _ _ _ _ h) h
        revert h4
        generalize (if c = 2 then s3.refuse19 m g 2 else s3) = s4
        intro h4
        fail_if_no_progress (with_reducible apply hR.upd; all_goals try first | exact .inl (by decide +kernel) | with_reducible exact .inr rfl | exact id)
        exact h4
    · skip
      split at eE
      · injection eE with eE; subst eE; exact h2
      · injection eE with eE; subst eE
        have h3 : R s3 := State.bump_keeps (f := .RC_MISS_CNT_COUNT) hR.sub _ _ _ h2
        exact State.setHaQ_keeps hR.sub _ _ _ (State.setMiss_keeps hR.sub _ _ _ _ h3)

def opPartsTxEnd : List Part :=
  [.regs, .answer, .draws, .hbm, .poison, .rcLines, .rcMiss, .rcWb, .sf, .sfAge, .haIn, .haTx]

theorem State.txEnd_keeps {R : State → Prop} (hR : Keeps opPartsTxEnd ⟨[.HA_BACKINV_CNT_COUNT, .HA_STAT_SF_LEVEL, .RC_SNP_CNT_COUNT, .RC_WB_CNT_COUNT], [], [], false⟩ R) (s : State) (st line : Nat)
    (hI : R s) : R (State.txEnd s st line) := by
  unfold State.txEnd
  try dsimp only
  repeat' first
    | with_reducible assumption
    | exact hR.sub
    | exact fun h => memWf_memStore h
    | exact fun h => memWf_memPut h
    | exact fun h => memWf_filter _ h
    | exact fun _ => rfl
    | with_reducible apply rel_ite
    | with_reducible apply State.answerWith_keeps
    | with_reducible apply State.rcFill_keeps
    | with_reducible apply State.setMiss_keeps
    | with_reducible apply State.setTx_keeps
    | with_reducible apply State.sfAdd_keeps
    | fail_if_no_progress (with_reducible apply hR.upd; all_goals try first | with_reducible exact .inr rfl | exact .inl (by decide +kernel) | exact id)
    | dsimp only
    | intro _ _
    | intro _
    | contradiction
    | (unfold id)
    | split
    | (rename_i hh; injection hh with hh; subst hh)
    | (rename_i hh; split at hh)

def opPartsTxTry : List Part :=
  [.regs, .answer, .draws, .hbm, .poison, .rcLines, .rcMiss, .rcWb, .sf, .sfAge, .haIn, .haTx]

theorem State.txTry_keeps {R : State → Prop} (hR : Keeps opPartsTxTry ⟨[.HA_BACKINV_CNT_COUNT, .HA_STAT_SF_LEVEL, .RC_SNP_CNT_COUNT, .RC_WB_CNT_COUNT], [], [], false⟩ R) (s : State) (st line : Nat)
    (hI : R s) : R (State.txTry s st line) := by
  unfold State.txTry
  try dsimp only
  repeat' first
    | with_reducible assumption
    | exact hR.sub
    | with_reducible apply rel_ite
    | with_reducible apply State.txEnd_keeps
    | dsimp only
    | intro _ _
    | intro _
    | contradiction
    | (unfold id)
    | split
    | (rename_i hh; injection hh with hh; subst hh)
    | (rename_i hh; split at hh)

def opPartsHaTake : List Part :=
  [.regs, .answer, .draws, .hbm, .poison, .rcLines, .rcMiss, .rcWb, .sf, .sfAge, .haIn, .haTx]

theorem State.haTake_keeps {R : State → Prop} (hR : Keeps opPartsHaTake ⟨[.HA_BACKINV_CNT_COUNT, .HA_STAT_SF_LEVEL, .RC_SNP_CNT_COUNT, .RC_WB_CNT_COUNT], [], [], false⟩ R) (s : State) (st opc n line : Nat)
    (hI : R s) : R (State.haTake s st opc n line) := by
  unfold State.haTake
  try dsimp only
  repeat' first
    | with_reducible assumption
    | exact hR.sub
    | exact fun h => memWf_memStore h
    | exact fun h => memWf_memPut h
    | exact fun h => memWf_filter _ h
    | exact fun _ => rfl
    | with_reducible apply rel_ite
    | with_reducible apply State.setHaQ_keeps
    | with_reducible apply State.setTx_keeps
    | with_reducible apply State.txTry_keeps
    | fail_if_no_progress (with_reducible apply hR.upd; all_goals try first | with_reducible exact .inr rfl | exact .inl (by decide +kernel) | exact id)
    | dsimp only
    | intro _ _
    | intro _
    | contradiction
    | (unfold id)
    | split
    | (rename_i hh; injection hh with hh; subst hh)
    | (rename_i hh; split at hh)

theorem execCrds_keeps {R : State → Prop} (hR : Keeps partsCrds fieldsCrds R) (n : Fin 8) (line : BitVec 32) (s : State)
    (hI : R s) {tT : State} (eE : execCrds n line s = .next tT) : R tT := by
  unfold execCrds at eE
  try dsimp only at eE
  repeat' split at eE
  all_goals try (injection eE with eE; subst eE)
  all_goals repeat' first
    | with_reducible assumption
    | exact hR.sub
    | with_reducible apply rel_ite
    | with_reducible apply State.dirNext_keeps
    | with_reducible apply State.flashMessage_keeps
    | with_reducible apply State.haTake_keeps
    | with_reducible apply State.message_keeps
    | with_reducible apply State.packageReset_keeps
    | with_reducible apply State.powerOn_keeps
    | with_reducible apply State.reach_keeps
    | dsimp only
    | intro _ _
    | intro _
    | contradiction
    | (unfold id)
    | split
    | (rename_i hh; injection hh with hh; subst hh)
    | (rename_i hh; split at hh)

theorem execCrdx_keeps {R : State → Prop} (hR : Keeps partsCrdx fieldsCrdx R) (n : Fin 8) (line : BitVec 32) (s : State)
    (hI : R s) {tT : State} (eE : execCrdx n line s = .next tT) : R tT := by
  unfold execCrdx at eE
  try dsimp only at eE
  repeat' split at eE
  all_goals try (injection eE with eE; subst eE)
  all_goals repeat' first
    | with_reducible assumption
    | exact hR.sub
    | with_reducible apply rel_ite
    | with_reducible apply State.dirNext_keeps
    | with_reducible apply State.flashMessage_keeps
    | with_reducible apply State.haTake_keeps
    | with_reducible apply State.message_keeps
    | with_reducible apply State.packageReset_keeps
    | with_reducible apply State.powerOn_keeps
    | with_reducible apply State.reach_keeps
    | dsimp only
    | intro _ _
    | intro _
    | contradiction
    | (unfold id)
    | split
    | (rename_i hh; injection hh with hh; subst hh)
    | (rename_i hh; split at hh)

theorem execCupg_keeps {R : State → Prop} (hR : Keeps partsCupg fieldsCupg R) (n : Fin 8) (line : BitVec 32) (s : State)
    (hI : R s) {tT : State} (eE : execCupg n line s = .next tT) : R tT := by
  unfold execCupg at eE
  try dsimp only at eE
  repeat' split at eE
  all_goals try (injection eE with eE; subst eE)
  all_goals repeat' first
    | with_reducible assumption
    | exact hR.sub
    | with_reducible apply rel_ite
    | with_reducible apply State.dirNext_keeps
    | with_reducible apply State.flashMessage_keeps
    | with_reducible apply State.haTake_keeps
    | with_reducible apply State.message_keeps
    | with_reducible apply State.packageReset_keeps
    | with_reducible apply State.powerOn_keeps
    | with_reducible apply State.reach_keeps
    | dsimp only
    | intro _ _
    | intro _
    | contradiction
    | (unfold id)
    | split
    | (rename_i hh; injection hh with hh; subst hh)
    | (rename_i hh; split at hh)

theorem execCevc_keeps {R : State → Prop} (hR : Keeps partsCevc fieldsCevc R) (n : Fin 8) (line : BitVec 32) (s : State)
    (hI : R s) {tT : State} (eE : execCevc n line s = .next tT) : R tT := by
  unfold execCevc at eE
  try dsimp only at eE
  repeat' split at eE
  all_goals try (injection eE with eE; subst eE)
  all_goals repeat' first
    | with_reducible assumption
    | exact hR.sub
    | with_reducible apply rel_ite
    | with_reducible apply State.dirNext_keeps
    | with_reducible apply State.flashMessage_keeps
    | with_reducible apply State.message_keeps
    | with_reducible apply State.packageReset_keeps
    | with_reducible apply State.powerOn_keeps
    | with_reducible apply State.reach_keeps
    | with_reducible apply State.setHaQ_keeps
    | with_reducible apply State.sfDrop_keeps
    | dsimp only
    | intro _ _
    | intro _
    | contradiction
    | (unfold id)
    | split
    | (rename_i hh; injection hh with hh; subst hh)
    | (rename_i hh; split at hh)

def opPartsHaSnoop : List Part :=
  [.regs, .answer, .draws, .hbm, .poison, .rcLines, .rcMiss, .rcWb, .sf, .sfAge, .haIn, .haTx]

theorem State.haSnoop_keeps {R : State → Prop} (hR : Keeps opPartsHaSnoop ⟨[.HA_BACKINV_CNT_COUNT, .HA_STAT_SF_LEVEL, .RC_SNP_CNT_COUNT, .RC_WB_CNT_COUNT], [], [], false⟩ R) (s : State) (n line : Nat) (inval : Bool)
    (hI : R s) : R (State.haSnoop s n line inval) := by
  unfold State.haSnoop
  try dsimp only
  repeat' first
    | with_reducible assumption
    | exact hR.sub
    | exact fun h => memWf_memStore h
    | exact fun h => memWf_memPut h
    | exact fun h => memWf_filter _ h
    | exact fun _ => rfl
    | with_reducible apply rel_ite
    | with_reducible apply State.setSf_keeps
    | with_reducible apply State.setTx_keeps
    | with_reducible apply State.sfDrop_keeps
    | with_reducible apply State.snoopOne_keeps
    | with_reducible apply State.txTry_keeps
    | fail_if_no_progress (with_reducible apply hR.upd; all_goals try first | with_reducible exact .inr rfl | exact .inl (by decide +kernel) | exact id)
    | dsimp only
    | intro _ _
    | intro _
    | contradiction
    | (unfold id)
    | split
    | (rename_i hh; injection hh with hh; subst hh)
    | (rename_i hh; split at hh)

theorem execHsni_keeps {R : State → Prop} (hR : Keeps partsHsni fieldsHsni R) (n : Fin 8) (line : BitVec 32) (s : State)
    (hI : R s) {tT : State} (eE : execHsni n line s = .next tT) : R tT := by
  unfold execHsni at eE
  try dsimp only at eE
  repeat' split at eE
  all_goals try (injection eE with eE; subst eE)
  all_goals repeat' first
    | with_reducible assumption
    | exact hR.sub
    | with_reducible apply rel_ite
    | with_reducible apply State.dirNext_keeps
    | with_reducible apply State.flashMessage_keeps
    | with_reducible apply State.haSnoop_keeps
    | with_reducible apply State.message_keeps
    | with_reducible apply State.packageReset_keeps
    | with_reducible apply State.powerOn_keeps
    | with_reducible apply State.reach_keeps
    | dsimp only
    | intro _ _
    | intro _
    | contradiction
    | (unfold id)
    | split
    | (rename_i hh; injection hh with hh; subst hh)
    | (rename_i hh; split at hh)

theorem execHsns_keeps {R : State → Prop} (hR : Keeps partsHsns fieldsHsns R) (n : Fin 8) (line : BitVec 32) (s : State)
    (hI : R s) {tT : State} (eE : execHsns n line s = .next tT) : R tT := by
  unfold execHsns at eE
  try dsimp only at eE
  repeat' split at eE
  all_goals try (injection eE with eE; subst eE)
  all_goals repeat' first
    | with_reducible assumption
    | exact hR.sub
    | with_reducible apply rel_ite
    | with_reducible apply State.dirNext_keeps
    | with_reducible apply State.flashMessage_keeps
    | with_reducible apply State.haSnoop_keeps
    | with_reducible apply State.message_keeps
    | with_reducible apply State.packageReset_keeps
    | with_reducible apply State.powerOn_keeps
    | with_reducible apply State.reach_keeps
    | dsimp only
    | intro _ _
    | intro _
    | contradiction
    | (unfold id)
    | split
    | (rename_i hh; injection hh with hh; subst hh)
    | (rename_i hh; split at hh)

def opPartsTakeE : List Part := [.regs, .draws, .hbm, .poison, .rcLines, .rcMiss, .rcWb, .sf, .haIn]

theorem State.takeE_keeps {R : State → Prop} (hR : Keeps opPartsTakeE ⟨[.HA_STAT_SF_LEVEL, .RC_WB_CNT_COUNT], [], [], false⟩ R) (s : State) (n line : Nat) (data : Nat) (bad : Bool)
    (hI : R s) : R (State.takeE s n line data bad) := by
  unfold State.takeE
  try dsimp only
  repeat' first
    | with_reducible assumption
    | exact hR.sub
    | with_reducible apply rel_ite
    | with_reducible apply State.homeStore_keeps
    | with_reducible apply State.rcFill_keeps
    | with_reducible apply State.setMiss_keeps
    | with_reducible apply State.sfDrop_keeps
    | dsimp only
    | intro _ _
    | intro _
    | contradiction
    | (unfold id)
    | split
    | (rename_i hh; injection hh with hh; subst hh)
    | (rename_i hh; split at hh)

theorem execCack_keeps {R : State → Prop} (hR : Keeps partsCack fieldsCack R) (n : Fin 8) (line : BitVec 32) (atHome : Bool) (s : State)
    (hI : R s) {tT : State} (eE : execCack n line atHome s = .next tT) : R tT := by
  unfold execCack at eE
  try dsimp only at eE
  repeat' split at eE
  all_goals try (injection eE with eE; subst eE)
  all_goals repeat' first
    | with_reducible assumption
    | exact hR.sub
    | exact fun h => memWf_memStore h
    | exact fun h => memWf_memPut h
    | exact fun h => memWf_filter _ h
    | exact fun _ => rfl
    | with_reducible apply rel_ite
    | with_reducible apply State.dirNext_keeps
    | with_reducible apply State.flashMessage_keeps
    | with_reducible apply State.message_keeps
    | with_reducible apply State.packageReset_keeps
    | with_reducible apply State.powerOn_keeps
    | with_reducible apply State.reach_keeps
    | with_reducible apply State.setTx_keeps
    | with_reducible apply State.takeE_keeps
    | with_reducible apply State.txTry_keeps
    | fail_if_no_progress (with_reducible apply hR.upd; all_goals try first | with_reducible exact .inr rfl | exact .inl (by decide +kernel) | exact id)
    | dsimp only
    | intro _ _
    | intro _
    | contradiction
    | (unfold id)
    | split
    | (rename_i hh; injection hh with hh; subst hh)
    | (rename_i hh; split at hh)

theorem execDatax_keeps {R : State → Prop} (hR : Keeps partsDatax fieldsDatax R) (n : Fin 8) (line : BitVec 32) (s : State)
    (hI : R s) {tT : State} (eE : execDatax n line s = .next tT) : R tT := by
  unfold execDatax at eE
  try dsimp only at eE
  repeat' split at eE
  all_goals try (injection eE with eE; subst eE)
  all_goals repeat' first
    | with_reducible assumption
    | exact hR.sub
    | with_reducible apply rel_ite
    | with_reducible apply State.dirNext_keeps
    | with_reducible apply State.flashMessage_keeps
    | with_reducible apply State.message_keeps
    | with_reducible apply State.packageReset_keeps
    | with_reducible apply State.powerOn_keeps
    | with_reducible apply State.reach_keeps
    | with_reducible apply State.takeE_keeps
    | dsimp only
    | intro _ _
    | intro _
    | contradiction
    | (unfold id)
    | split
    | (rename_i hh; injection hh with hh; subst hh)
    | (rename_i hh; split at hh)

theorem execDirtyEviction_keeps {R : State → Prop} (hR : Keeps partsDirtyEviction fieldsDirtyEviction R) (n : Fin 8) (s : State)
    (hI : R s) {tT : State} (eE : execDirtyEviction n s = .next tT) : R tT := by
  unfold execDirtyEviction at eE
  try dsimp only at eE
  repeat' split at eE
  all_goals try (injection eE with eE; subst eE)
  all_goals repeat' first
    | with_reducible assumption
    | exact hR.sub
    | with_reducible apply rel_ite
    | with_reducible apply State.dirNext_keeps
    | with_reducible apply State.flashMessage_keeps
    | with_reducible apply State.message_keeps
    | with_reducible apply State.packageReset_keeps
    | with_reducible apply State.powerOn_keeps
    | with_reducible apply State.reach_keeps
    | with_reducible apply State.wbDrain_keeps
    | dsimp only
    | intro _ _
    | intro _
    | contradiction
    | (unfold id)
    | split
    | (rename_i hh; injection hh with hh; subst hh)
    | (rename_i hh; split at hh)

theorem State.rcClean_keeps {R : State → Prop} (hR : Keeps [.regs, .hbm, .poison, .rcLines, .sf] ⟨[.HA_STAT_SF_LEVEL, .RC_WB_CNT_COUNT], [], [], false⟩ R) (s : State) (n line : Nat) (inval : Bool)
    (hI : R s) : R (State.rcClean s n line inval) := by
  unfold State.rcClean
  try dsimp only
  repeat' first
    | with_reducible assumption
    | exact hR.sub
    | exact fun h => memWf_memStore h
    | exact fun h => memWf_memPut h
    | exact fun h => memWf_filter _ h
    | exact fun _ => rfl
    | exact hR.sub (by decide +kernel) (subFld_self _ _)
    | with_reducible apply rel_ite
    | with_reducible apply State.bump_keeps
    | with_reducible apply State.homeStore_keeps
    | with_reducible apply State.setRc_keeps
    | with_reducible apply State.setSf_keeps
    | with_reducible apply State.sfDrop_keeps
    | fail_if_no_progress (with_reducible apply hR.upd; all_goals try first | with_reducible exact .inr rfl | exact .inl (by decide +kernel) | exact id)
    | dsimp only
    | intro _ _
    | intro _
    | contradiction
    | (unfold id)
    | split
    | (rename_i hh; injection hh with hh; subst hh)
    | (rename_i hh; split at hh)

theorem State.rcFlushAll_keeps {R : State → Prop} (hR : Keeps [.regs, .hbm, .poison, .rcLines, .rcWb, .sf] ⟨[.HA_STAT_SF_LEVEL, .RC_WB_CNT_COUNT], [], [], false⟩ R) (s : State) (n : Nat)
    (hI : R s) : R (State.rcFlushAll s n) := by
  unfold State.rcFlushAll
  try dsimp only
  repeat' first
    | with_reducible assumption
    | exact hR.sub
    | with_reducible apply rel_ite
    | with_reducible apply State.rcClean_keeps
    | with_reducible apply State.wbDrain_keeps
    | (with_reducible apply rel_foldl; intro _ _ _)
    | (with_reducible apply rel_foldl2; intro _ _ _)
    | (with_reducible apply rel_foldl3; intro _ _ _)
    | (with_reducible apply rel_foldl1; intro _ _ _)
    | dsimp only
    | intro _ _
    | intro _
    | contradiction
    | (unfold id)
    | split
    | (rename_i hh; injection hh with hh; subst hh)
    | (rename_i hh; split at hh)

theorem State.rcCmd_keeps {R : State → Prop} (hR : Keeps [.regs, .stewards, .rstUnlock] ⟨[.RC_CMD_BUSY, .RC_STAT_RETAINED, .RC_STAT_STATE], [], [], false⟩ R) (s : State) (w : Writer) (n cmd : Nat) (k : State → State)
    (hI : R s) (hk : ∀  s, R s → R (k  s)) : R (State.rcCmd s w n cmd k) := by
  unfold State.rcCmd
  try dsimp only
  repeat' first
    | with_reducible assumption
    | exact hR.sub
    | with_reducible apply rel_ite
    | (with_reducible apply hk)
    | with_reducible refine hR.wr _ _ _ (by decide +kernel) (by first | decide +kernel | exact hasFld_self _ _ | exact hasFld_all _ | (simp [hasFld]; done) ) ?_
    | with_reducible apply State.countRetained_keeps
    | with_reducible apply State.dropF_keeps
    | with_reducible apply State.reach_keeps
    | dsimp only
    | intro _ _
    | intro _
    | contradiction
    | (unfold id)
    | split
    | (rename_i hh; injection hh with hh; subst hh)
    | (rename_i hh; split at hh)

theorem execRcFlushRange_keeps {R : State → Prop} (hR : Keeps partsRcFlushRange fieldsRcFlushRange R) (w : Writer) (n : Fin 8) (s : State)
    (hI : R s) {tT : State} (eE : execRcFlushRange w n s = .next tT) : R tT := by
  unfold execRcFlushRange at eE
  try dsimp only at eE
  repeat' split at eE
  all_goals try (injection eE with eE; subst eE)
  all_goals repeat' first
    | with_reducible assumption
    | exact hR.sub
    | with_reducible apply rel_ite
    | with_reducible apply State.dirNext_keeps
    | with_reducible apply State.flashMessage_keeps
    | with_reducible apply State.message_keeps
    | with_reducible apply State.packageReset_keeps
    | with_reducible apply State.powerOn_keeps
    | with_reducible apply State.rcClean_keeps
    | with_reducible apply State.rcCmd_keeps
    | with_reducible apply State.reach_keeps
    | (with_reducible apply rel_foldl; intro _ _ _)
    | (with_reducible apply rel_foldl2; intro _ _ _)
    | (with_reducible apply rel_foldl3; intro _ _ _)
    | (with_reducible apply rel_foldl1; intro _ _ _)
    | dsimp only
    | intro _ _
    | intro _
    | contradiction
    | (unfold id)
    | split
    | (rename_i hh; injection hh with hh; subst hh)
    | (rename_i hh; split at hh)

theorem execRcCleanRange_keeps {R : State → Prop} (hR : Keeps partsRcCleanRange fieldsRcCleanRange R) (w : Writer) (n : Fin 8) (s : State)
    (hI : R s) {tT : State} (eE : execRcCleanRange w n s = .next tT) : R tT := by
  unfold execRcCleanRange at eE
  try dsimp only at eE
  repeat' split at eE
  all_goals try (injection eE with eE; subst eE)
  all_goals repeat' first
    | with_reducible assumption
    | exact hR.sub
    | with_reducible apply rel_ite
    | with_reducible apply State.dirNext_keeps
    | with_reducible apply State.flashMessage_keeps
    | with_reducible apply State.message_keeps
    | with_reducible apply State.packageReset_keeps
    | with_reducible apply State.powerOn_keeps
    | with_reducible apply State.rcClean_keeps
    | with_reducible apply State.rcCmd_keeps
    | with_reducible apply State.reach_keeps
    | (with_reducible apply rel_foldl; intro _ _ _)
    | (with_reducible apply rel_foldl2; intro _ _ _)
    | (with_reducible apply rel_foldl3; intro _ _ _)
    | (with_reducible apply rel_foldl1; intro _ _ _)
    | dsimp only
    | intro _ _
    | intro _
    | contradiction
    | (unfold id)
    | split
    | (rename_i hh; injection hh with hh; subst hh)
    | (rename_i hh; split at hh)

theorem execRcInvalidateReadMostly_keeps {R : State → Prop} (hR : Keeps partsRcInvalidateReadMostly fieldsRcInvalidateReadMostly R) (w : Writer) (n : Fin 8) (s : State)
    (hI : R s) {tT : State} (eE : execRcInvalidateReadMostly w n s = .next tT) : R tT := by
  unfold execRcInvalidateReadMostly at eE
  try dsimp only at eE
  repeat' split at eE
  all_goals try (injection eE with eE; subst eE)
  all_goals repeat' first
    | with_reducible assumption
    | exact hR.sub
    | with_reducible apply rel_ite
    | with_reducible apply State.dirNext_keeps
    | with_reducible apply State.flashMessage_keeps
    | with_reducible apply State.message_keeps
    | with_reducible apply State.packageReset_keeps
    | with_reducible apply State.powerOn_keeps
    | with_reducible apply State.rcCmd_keeps
    | with_reducible apply State.reach_keeps
    | with_reducible apply State.setRc_keeps
    | (with_reducible apply rel_foldl; intro _ _ _)
    | (with_reducible apply rel_foldl2; intro _ _ _)
    | (with_reducible apply rel_foldl3; intro _ _ _)
    | (with_reducible apply rel_foldl1; intro _ _ _)
    | dsimp only
    | intro _ _
    | intro _
    | contradiction
    | (unfold id)
    | split
    | (rename_i hh; injection hh with hh; subst hh)
    | (rename_i hh; split at hh)

theorem execRcFlushAll_keeps {R : State → Prop} (hR : Keeps partsRcFlushAll fieldsRcFlushAll R) (w : Writer) (n : Fin 8) (s : State)
    (hI : R s) {tT : State} (eE : execRcFlushAll w n s = .next tT) : R tT := by
  unfold execRcFlushAll at eE
  try dsimp only at eE
  repeat' split at eE
  all_goals try (injection eE with eE; subst eE)
  all_goals repeat' first
    | with_reducible assumption
    | exact hR.sub
    | with_reducible apply rel_ite
    | with_reducible apply State.dirNext_keeps
    | with_reducible apply State.flashMessage_keeps
    | with_reducible apply State.message_keeps
    | with_reducible apply State.packageReset_keeps
    | with_reducible apply State.powerOn_keeps
    | with_reducible apply State.rcCmd_keeps
    | with_reducible apply State.rcFlushAll_keeps
    | with_reducible apply State.reach_keeps
    | dsimp only
    | intro _ _
    | intro _
    | contradiction
    | (unfold id)
    | split
    | (rename_i hh; injection hh with hh; subst hh)
    | (rename_i hh; split at hh)

theorem execRcCmdDone_keeps {R : State → Prop} (hR : Keeps partsRcCmdDone fieldsRcCmdDone R) (n : Fin 8) (s : State)
    (hI : R s) {tT : State} (eE : execRcCmdDone n s = .next tT) : R tT := by
  unfold execRcCmdDone at eE
  try dsimp only at eE
  repeat' split at eE
  all_goals try (injection eE with eE; subst eE)
  all_goals repeat' first
    | with_reducible assumption
    | exact hR.sub
    | with_reducible apply rel_ite
    | with_reducible refine hR.wr _ _ _ (by decide +kernel) (by first | decide +kernel | exact hasFld_self _ _ | exact hasFld_all _ | (simp [hasFld]; done) ) ?_
    | with_reducible apply State.dirNext_keeps
    | with_reducible apply State.flashMessage_keeps
    | with_reducible apply State.message_keeps
    | with_reducible apply State.packageReset_keeps
    | with_reducible apply State.powerOn_keeps
    | with_reducible apply State.reach_keeps
    | dsimp only
    | intro _ _
    | intro _
    | contradiction
    | (unfold id)
    | split
    | (rename_i hh; injection hh with hh; subst hh)
    | (rename_i hh; split at hh)

theorem execRcwEnable_keeps {R : State → Prop} (hR : Keeps partsRcwEnable fieldsRcwEnable R) (w : Writer) (i : Fin 16) (s : State)
    (hI : R s) {tT : State} (eE : execRcwEnable w i s = .next tT) : R tT := by
  unfold execRcwEnable at eE
  try dsimp only at eE
  repeat' split at eE
  all_goals try (injection eE with eE; subst eE)
  all_goals repeat' first
    | with_reducible assumption
    | exact hR.sub
    | with_reducible apply rel_ite
    | with_reducible refine hR.wr _ _ _ (by decide +kernel) (by first | decide +kernel | exact hasFld_self _ _ | exact hasFld_all _ | (simp [hasFld]; done) ) ?_
    | with_reducible apply State.dirNext_keeps
    | with_reducible apply State.dropF_keeps
    | with_reducible apply State.flashMessage_keeps
    | with_reducible apply State.message_keeps
    | with_reducible apply State.packageReset_keeps
    | with_reducible apply State.powerOn_keeps
    | with_reducible apply State.reach_keeps
    | dsimp only
    | intro _ _
    | intro _
    | contradiction
    | (unfold id)
    | split
    | (rename_i hh; injection hh with hh; subst hh)
    | (rename_i hh; split at hh)

theorem execRcwDisable_keeps {R : State → Prop} (hR : Keeps partsRcwDisable fieldsRcwDisable R) (w : Writer) (i : Fin 16) (s : State)
    (hI : R s) {tT : State} (eE : execRcwDisable w i s = .next tT) : R tT := by
  unfold execRcwDisable at eE
  try dsimp only at eE
  repeat' split at eE
  all_goals try (injection eE with eE; subst eE)
  all_goals repeat' first
    | with_reducible assumption
    | exact hR.sub
    | with_reducible apply rel_ite
    | with_reducible refine hR.wr _ _ _ (by decide +kernel) (by first | decide +kernel | exact hasFld_self _ _ | exact hasFld_all _ | (simp [hasFld]; done) ) ?_
    | with_reducible apply State.dirNext_keeps
    | with_reducible apply State.flashMessage_keeps
    | with_reducible apply State.message_keeps
    | with_reducible apply State.packageReset_keeps
    | with_reducible apply State.powerOn_keeps
    | with_reducible apply State.reach_keeps
    | dsimp only
    | intro _ _
    | intro _
    | contradiction
    | (unfold id)
    | split
    | (rename_i hh; injection hh with hh; subst hh)
    | (rename_i hh; split at hh)

theorem execRcwDisableDone_keeps {R : State → Prop} (hR : Keeps partsRcwDisableDone fieldsRcwDisableDone R) (i : Fin 16) (s : State)
    (hI : R s) {tT : State} (eE : execRcwDisableDone i s = .next tT) : R tT := by
  unfold execRcwDisableDone at eE
  try dsimp only at eE
  repeat' split at eE
  all_goals try (injection eE with eE; subst eE)
  all_goals repeat' first
    | with_reducible assumption
    | exact hR.sub
    | with_reducible apply rel_ite
    | with_reducible refine hR.wr _ _ _ (by decide +kernel) (by first | decide +kernel | exact hasFld_self _ _ | exact hasFld_all _ | (simp [hasFld]; done) ) ?_
    | with_reducible apply State.dirNext_keeps
    | with_reducible apply State.flashMessage_keeps
    | with_reducible apply State.message_keeps
    | with_reducible apply State.packageReset_keeps
    | with_reducible apply State.powerOn_keeps
    | with_reducible apply State.rcClean_keeps
    | with_reducible apply State.reach_keeps
    | (with_reducible apply rel_foldl; intro _ _ _)
    | (with_reducible apply rel_foldl2; intro _ _ _)
    | (with_reducible apply rel_foldl3; intro _ _ _)
    | (with_reducible apply rel_foldl1; intro _ _ _)
    | dsimp only
    | intro _ _
    | intro _
    | contradiction
    | (unfold id)
    | split
    | (rename_i hh; injection hh with hh; subst hh)
    | (rename_i hh; split at hh)

def opPartsHomeGone : List Part := [.regs, .answer, .rcLines, .rcMiss, .haIn, .haTx, .homeOut]

theorem State.homeGone_keeps {R : State → Prop} (hR : Keeps opPartsHomeGone ⟨[.RC_STAT_RETAINED], [], [], false⟩ R) (s : State) (st : Nat)
    (hI : R s) : R (State.homeGone s st) := by
  unfold State.homeGone
  try dsimp only
  repeat' first
    | with_reducible assumption
    | exact hR.sub
    | exact fun h => memWf_memStore h
    | exact fun h => memWf_memPut h
    | exact fun h => memWf_filter _ h
    | exact fun _ => rfl
    | with_reducible apply rel_ite
    | with_reducible apply State.countRetained_keeps
    | with_reducible apply State.setRc_keeps
    | (with_reducible apply rel_foldl; intro _ _ _)
    | (with_reducible apply rel_foldl2; intro _ _ _)
    | (with_reducible apply rel_foldl3; intro _ _ _)
    | (with_reducible apply rel_foldl1; intro _ _ _)
    | fail_if_no_progress (with_reducible apply hR.upd; all_goals try first | with_reducible exact .inr rfl | exact .inl (by decide +kernel) | exact id)
    | dsimp only
    | intro _ _
    | intro _
    | contradiction
    | (unfold id)
    | split
    | (rename_i hh; injection hh with hh; subst hh)
    | (rename_i hh; split at hh)

theorem execHomeUnreachable_keeps {R : State → Prop} (hR : Keeps partsHomeUnreachable fieldsHomeUnreachable R) (st : Fin 4) (s : State)
    (hI : R s) {tT : State} (eE : execHomeUnreachable st s = .next tT) : R tT := by
  unfold execHomeUnreachable at eE
  try dsimp only at eE
  repeat' split at eE
  all_goals try (injection eE with eE; subst eE)
  all_goals repeat' first
    | with_reducible assumption
    | exact hR.sub
    | with_reducible apply rel_ite
    | with_reducible apply State.dirNext_keeps
    | with_reducible apply State.flashMessage_keeps
    | with_reducible apply State.homeGone_keeps
    | with_reducible apply State.message_keeps
    | with_reducible apply State.packageReset_keeps
    | with_reducible apply State.powerOn_keeps
    | with_reducible apply State.reach_keeps
    | dsimp only
    | intro _ _
    | intro _
    | contradiction
    | (unfold id)
    | split
    | (rename_i hh; injection hh with hh; subst hh)
    | (rename_i hh; split at hh)

theorem execHomeRecallDone_keeps {R : State → Prop} (hR : Keeps partsHomeRecallDone fieldsHomeRecallDone R) (st : Fin 4) (s : State)
    (hI : R s) {tT : State} (eE : execHomeRecallDone st s = .next tT) : R tT := by
  unfold execHomeRecallDone at eE
  try dsimp only at eE
  repeat' split at eE
  all_goals try (injection eE with eE; subst eE)
  all_goals repeat' first
    | with_reducible assumption
    | exact hR.sub
    | with_reducible apply rel_ite
    | with_reducible apply State.dirNext_keeps
    | with_reducible apply State.flashMessage_keeps
    | with_reducible apply State.message_keeps
    | with_reducible apply State.packageReset_keeps
    | with_reducible apply State.powerOn_keeps
    | with_reducible apply State.reach_keeps
    | with_reducible apply State.recallHome_keeps
    | dsimp only
    | intro _ _
    | intro _
    | contradiction
    | (unfold id)
    | split
    | (rename_i hh; injection hh with hh; subst hh)
    | (rename_i hh; split at hh)

def opPartsHaForget : List Part :=
  [.regs, .answer, .draws, .hbm, .poison, .rcLines, .rcMiss, .rcWb, .sf, .sfAge, .haIn, .haTx]

theorem State.haForget_keeps {R : State → Prop} (hR : Keeps opPartsHaForget ⟨[.HA_BACKINV_CNT_COUNT, .HA_STAT_SF_LEVEL, .RC_SNP_CNT_COUNT, .RC_WB_CNT_COUNT], [], [], false⟩ R) (s : State) (n : Nat)
    (hI : R s) : R (State.haForget s n) := by
  unfold State.haForget
  try dsimp only
  repeat' first
    | with_reducible assumption
    | exact hR.sub
    | exact fun h => memWf_memStore h
    | exact fun h => memWf_memPut h
    | exact fun h => memWf_filter _ h
    | exact fun _ => rfl
    | with_reducible apply rel_ite
    | with_reducible apply State.setTx_keeps
    | with_reducible apply State.txTry_keeps
    | (with_reducible apply rel_foldl; intro _ _ _)
    | (with_reducible apply rel_foldl2; intro _ _ _)
    | (with_reducible apply rel_foldl3; intro _ _ _)
    | (with_reducible apply rel_foldl1; intro _ _ _)
    | fail_if_no_progress (with_reducible apply hR.upd; all_goals try first | with_reducible exact .inr rfl | exact .inl (by decide +kernel) | exact id)
    | dsimp only
    | intro _ _
    | intro _
    | contradiction
    | (unfold id)
    | split
    | (rename_i hh; injection hh with hh; subst hh)
    | (rename_i hh; split at hh)

def opPartsRcLost : List Part :=
  [.regs, .answer, .draws, .hbm, .poison, .rcLines, .rcMiss, .rcWb, .sf, .sfAge, .haIn, .haTx]

theorem State.rcLost_keeps {R : State → Prop} (hR : Keeps opPartsRcLost ⟨[.HA_BACKINV_CNT_COUNT, .HA_POISON_CNT_COUNT, .HA_STAT_SF_LEVEL, .RC_SNP_CNT_COUNT, .RC_WB_CNT_COUNT], [], [], false⟩ R) (s : State) (n : Nat)
    (hI : R s) : R (State.rcLost s n) := by
  unfold State.rcLost
  try dsimp only
  repeat' first
    | with_reducible assumption
    | exact hR.sub
    | exact fun h => memWf_memStore h
    | exact fun h => memWf_memPut h
    | exact fun h => memWf_filter _ h
    | exact fun _ => rfl
    | exact hR.sub (by decide +kernel) (subFld_self _ _)
    | with_reducible apply rel_ite
    | with_reducible apply State.bump_keeps
    | with_reducible apply State.haForget_keeps
    | with_reducible apply State.homeStore_keeps
    | with_reducible apply State.sfDrop_keeps
    | (with_reducible apply rel_foldl; intro _ _ _)
    | (with_reducible apply rel_foldl2; intro _ _ _)
    | (with_reducible apply rel_foldl3; intro _ _ _)
    | (with_reducible apply rel_foldl1; intro _ _ _)
    | fail_if_no_progress (with_reducible apply hR.upd; all_goals try first | with_reducible exact .inr rfl | exact .inl (by decide +kernel) | exact id)
    | dsimp only
    | intro _ _
    | intro _
    | contradiction
    | (unfold id)
    | split
    | (rename_i hh; injection hh with hh; subst hh)
    | (rename_i hh; split at hh)

theorem execRcLossTimeout_keeps {R : State → Prop} (hR : Keeps partsRcLossTimeout fieldsRcLossTimeout R) (n : Fin 8) (s : State)
    (hI : R s) {tT : State} (eE : execRcLossTimeout n s = .next tT) : R tT := by
  unfold execRcLossTimeout at eE
  try dsimp only at eE
  repeat' split at eE
  all_goals try (injection eE with eE; subst eE)
  all_goals repeat' first
    | with_reducible assumption
    | exact hR.sub
    | exact fun h => memWf_memStore h
    | exact fun h => memWf_memPut h
    | exact fun h => memWf_filter _ h
    | exact fun _ => rfl
    | with_reducible apply rel_ite
    | with_reducible apply State.dirNext_keeps
    | with_reducible apply State.flashMessage_keeps
    | with_reducible apply State.lapseTo_keeps
    | with_reducible apply State.message_keeps
    | with_reducible apply State.packageReset_keeps
    | with_reducible apply State.powerOn_keeps
    | with_reducible apply State.rcLost_keeps
    | with_reducible apply State.reach_keeps
    | fail_if_no_progress (with_reducible apply hR.upd; all_goals try first | with_reducible exact .inr rfl | exact .inl (by decide +kernel) | exact id)
    | dsimp only
    | intro _ _
    | intro _
    | contradiction
    | (unfold id)
    | split
    | (rename_i hh; injection hh with hh; subst hh)
    | (rename_i hh; split at hh)

end Sys2Proof.Machine
end

