-- ==== Sys2Proof/Laws/KeepsSeal.lean ====
section
/-! SUPPORT. What the operations of `Machine/Seal.lean` may change and what they keep. -/

namespace Sys2Proof.Machine

set_option Elab.async false
set_option linter.all false

theorem execSealClaim_keeps {R : State → Prop} (hR : Keeps partsSealClaim fieldsSealClaim R) (w : Writer) (st : Fin 4) (r : Fin 16) (s : State)
    (hI : R s) {tT : State} (eE : execSealClaim w st r s = .next tT) : R tT := by
  unfold execSealClaim at eE
  try dsimp only at eE
  repeat' split at eE
  all_goals try (injection eE with eE; subst eE)
  all_goals repeat' first
    | with_reducible assumption
    | exact hR.sub
    | exact fun h => memWf_memStore h
    | exact fun h => memWf_memPut h
    | exact fun h => memWf_filter _ h
    | exact fun _ => rfl
    | with_reducible apply rel_ite
    | with_reducible refine hR.wr _ _ _ (by decide +kernel) (by first | decide +kernel | exact hasFld_self _ _ | exact hasFld_all _ | (simp [hasFld]; done) ) ?_
    | with_reducible apply State.dirNext_keeps
    | with_reducible apply State.drop_keeps
    | with_reducible apply State.flashMessage_keeps
    | with_reducible apply State.message_keeps
    | with_reducible apply State.packageReset_keeps
    | with_reducible apply State.powerOn_keeps
    | with_reducible apply State.reach_keeps
    | fail_if_no_progress (with_reducible apply hR.upd; all_goals try first | with_reducible exact .inr rfl | exact .inl (by decide +kernel) | exact id)
    | dsimp only
    | intro _ _
    | intro _
    | contradiction
    | (unfold id)
    | split
    | (rename_i hh; injection hh with hh; subst hh)
    | (rename_i hh; split at hh)

theorem State.sealCmd_keeps {R : State → Prop} (hR : Keeps [.regs, .draws, .stewards, .rstUnlock] ⟨[.SEAL_ERR_ADDR_HI_ADDR, .SEAL_ERR_ADDR_LO_ADDR, .SEAL_ERR_CODE, .SEAL_ERR_LEVEL, .SEAL_ERR_RANGE, .SEAL_ERR_VALID], [], [], false⟩ R) (s : State) (w : Writer) (st r cmd : Nat) (k : State → Option State)
    (hI : R s) (hk : ∀ s t, R s → k s = some t → R t) : R (State.sealCmd s w st r cmd k) := by
  unfold State.sealCmd
  refine State.reach_keeps hR.sub _ _ _ _ _ _ hI (fun s hs => ?_)
  split
  · split
    · exact hk _ _ hs (by assumption)
    · exact State.raise_keeps hR.sub _ _ _ _ _ _ (State.sealErr_keeps hR.sub _ _ _ _ _ _ hs)
  · exact State.drop_keeps hR.sub _ _ _ _ _ hs

theorem State.eraseSlot_keeps {R : State → Prop} (hR : Keeps [.regs, .keys] ⟨[.SEAL_RSTAT_KEYS], [], [], false⟩ R) (s : State) (st r i : Nat)
    (hI : R s) : R (State.eraseSlot s st r i) := by
  unfold State.eraseSlot
  try dsimp only
  repeat' first
    | with_reducible assumption
    | exact hR.sub
    | exact fun h => memWf_memStore h
    | exact fun h => memWf_memPut h
    | exact fun h => memWf_filter _ h
    | exact fun _ => rfl
    | exact hR.sub (by decide +kernel) (subFld_self _ _)
    | with_reducible apply rel_ite
    | with_reducible apply State.setBit_keeps
    | fail_if_no_progress (with_reducible apply hR.upd; all_goals try first | with_reducible exact .inr rfl | exact .inl (by decide +kernel) | exact id)
    | dsimp only
    | intro _ _
    | intro _
    | contradiction
    | (unfold id)
    | split
    | (rename_i hh; injection hh with hh; subst hh)
    | (rename_i hh; split at hh)

theorem State.rangeUncached_keeps {R : State → Prop} (hR : Keeps [.regs, .hbm, .poison, .rcLines, .sf] ⟨[.HA_STAT_SF_LEVEL, .RC_WB_CNT_COUNT], [], [], false⟩ R) (s : State) (st r : Nat)
    (hI : R s) : R (State.rangeUncached s st r) := by
  unfold State.rangeUncached
  try dsimp only
  repeat' first
    | with_reducible assumption
    | exact hR.sub
    | with_reducible apply rel_ite
    | with_reducible apply State.rcClean_keeps
    | (with_reducible apply rel_foldl; intro _ _ _)
    | (with_reducible apply rel_foldl2; intro _ _ _)
    | (with_reducible apply rel_foldl3; intro _ _ _)
    | (with_reducible apply rel_foldl1; intro _ _ _)
    | dsimp only
    | intro _ _
    | intro _
    | contradiction
    | (unfold id)
    | split
    | (rename_i hh; injection hh with hh; subst hh)
    | (rename_i hh; split at hh)

theorem execEnable_keeps {R : State → Prop} (hR : Keeps partsEnable fieldsEnable R) (w : Writer) (st : Fin 4) (r : Fin 16) (s : State)
    (hI : R s) {tT : State} (eE : execEnable w st r s = .next tT) : R tT := by
  unfold execEnable at eE
  try dsimp only at eE
  repeat' split at eE
  all_goals try (injection eE with eE; subst eE)
  all_goals repeat' first
    | with_reducible assumption
    | exact hR.sub
    | with_reducible apply rel_ite
    | with_reducible refine hR.wr _ _ _ (by decide +kernel) (by first | decide +kernel | exact hasFld_self _ _ | exact hasFld_all _ | (simp [hasFld]; done) ) ?_
    | with_reducible apply State.dirNext_keeps
    | with_reducible apply State.flashMessage_keeps
    | with_reducible apply State.message_keeps
    | with_reducible apply State.packageReset_keeps
    | with_reducible apply State.powerOn_keeps
    | with_reducible apply State.rangeUncached_keeps
    | with_reducible apply State.reach_keeps
    | with_reducible apply State.sealCmd_keeps
    | with_reducible apply State.sweepQueue_keeps
    | dsimp only
    | intro _ _
    | intro _
    | contradiction
    | (unfold id)
    | split
    | (rename_i hh; injection hh with hh; subst hh)
    | (rename_i hh; split at hh)

def opFieldsDropRekey : FSet :=
  ⟨[.PG_ERR_OP, .PG_ERR_OVERSIZE, .PG_ERR_UNITS, .PG_ERR_VALID, .PG_TO_CNT_COUNT, .SEAL_POS_POS, .SEAL_STAT_KIND,
    .SEAL_STAT_PERMIT_WAIT, .SEAL_STAT_QUEUE, .SEAL_STAT_RANGE], [], [], false⟩

theorem State.dropRekey_keeps {R : State → Prop} (hR : Keeps [.regs, .stewards, .govs, .seals] opFieldsDropRekey R) (s : State) (st r : Nat)
    (hI : R s) : R (State.dropRekey s st r) := by
  unfold State.dropRekey
  try dsimp only
  repeat' first
    | with_reducible assumption
    | exact hR.sub
    | exact fun h => memWf_memStore h
    | exact fun h => memWf_memPut h
    | exact fun h => memWf_filter _ h
    | exact fun _ => rfl
    | with_reducible apply rel_ite
    | with_reducible apply State.setSeal_keeps
    | with_reducible apply State.sweepNext_keeps
    | fail_if_no_progress (with_reducible apply hR.upd; all_goals try first | with_reducible exact .inr rfl | exact .inl (by decide +kernel) | exact id)
    | dsimp only
    | intro _ _
    | intro _
    | contradiction
    | (unfold id)
    | split
    | (rename_i hh; injection hh with hh; subst hh)
    | (rename_i hh; split at hh)

theorem execDisable_keeps {R : State → Prop} (hR : Keeps partsDisable fieldsDisable R) (w : Writer) (st : Fin 4) (r : Fin 16) (s : State)
    (hI : R s) {tT : State} (eE : execDisable w st r s = .next tT) : R tT := by
  unfold execDisable at eE
  try dsimp only at eE
  repeat' split at eE
  all_goals try (injection eE with eE; subst eE)
  all_goals repeat' first
    | with_reducible assumption
    | exact hR.sub
    | with_reducible apply rel_ite
    | with_reducible refine hR.wr _ _ _ (by decide +kernel) (by first | decide +kernel | exact hasFld_self _ _ | exact hasFld_all _ | (simp [hasFld]; done) ) ?_
    | with_reducible apply State.dirNext_keeps
    | with_reducible apply State.dropRekey_keeps
    | with_reducible apply State.eraseSlot_keeps
    | with_reducible apply State.flashMessage_keeps
    | with_reducible apply State.message_keeps
    | with_reducible apply State.packageReset_keeps
    | with_reducible apply State.powerOn_keeps
    | with_reducible apply State.reach_keeps
    | with_reducible apply State.sealCmd_keeps
    | with_reducible apply State.sweepQueue_keeps
    | dsimp only
    | intro _ _
    | intro _
    | contradiction
    | (unfold id)
    | split
    | (rename_i hh; injection hh with hh; subst hh)
    | (rename_i hh; split at hh)

theorem execRekey_keeps {R : State → Prop} (hR : Keeps partsRekey fieldsRekey R) (w : Writer) (st : Fin 4) (r : Fin 16) (s : State)
    (hI : R s) {tT : State} (eE : execRekey w st r s = .next tT) : R tT := by
  unfold execRekey at eE
  try dsimp only at eE
  repeat' split at eE
  all_goals try (injection eE with eE; subst eE)
  all_goals repeat' first
    | with_reducible assumption
    | exact hR.sub
    | with_reducible apply rel_ite
    | with_reducible refine hR.wr _ _ _ (by decide +kernel) (by first | decide +kernel | exact hasFld_self _ _ | exact hasFld_all _ | (simp [hasFld]; done) ) ?_
    | with_reducible apply State.dirNext_keeps
    | with_reducible apply State.flashMessage_keeps
    | with_reducible apply State.message_keeps
    | with_reducible apply State.packageReset_keeps
    | with_reducible apply State.powerOn_keeps
    | with_reducible apply State.reach_keeps
    | with_reducible apply State.sealCmd_keeps
    | with_reducible apply State.sweepQueue_keeps
    | dsimp only
    | intro _ _
    | intro _
    | contradiction
    | (unfold id)
    | split
    | (rename_i hh; injection hh with hh; subst hh)
    | (rename_i hh; split at hh)

theorem execSealResume_keeps {R : State → Prop} (hR : Keeps partsSealResume fieldsSealResume R) (w : Writer) (st : Fin 4) (r : Fin 16) (s : State)
    (hI : R s) {tT : State} (eE : execSealResume w st r s = .next tT) : R tT := by
  unfold execSealResume at eE
  try dsimp only at eE
  repeat' split at eE
  all_goals try (injection eE with eE; subst eE)
  all_goals repeat' first
    | with_reducible assumption
    | exact hR.sub
    | with_reducible apply rel_ite
    | with_reducible refine hR.wr _ _ _ (by decide +kernel) (by first | decide +kernel | exact hasFld_self _ _ | exact hasFld_all _ | (simp [hasFld]; done) ) ?_
    | with_reducible apply State.dirNext_keeps
    | with_reducible apply State.flashMessage_keeps
    | with_reducible apply State.message_keeps
    | with_reducible apply State.packageReset_keeps
    | with_reducible apply State.powerOn_keeps
    | with_reducible apply State.reach_keeps
    | with_reducible apply State.sealCmd_keeps
    | with_reducible apply State.sweepPermit_keeps
    | dsimp only
    | intro _ _
    | intro _
    | contradiction
    | (unfold id)
    | split
    | (rename_i hh; injection hh with hh; subst hh)
    | (rename_i hh; split at hh)

theorem State.keyCmd_keeps {R : State → Prop} (hR : Keeps [.regs, .stewards, .keyOp, .rstUnlock] ⟨[.SEAL_KEY_BUSY, .SEAL_KEY_FAIL, .SEAL_KEY_SESSION, .SEAL_KEY_SLOT], [], [], false⟩ R) (s : State) (w : Writer) (st slot op session : Nat) (ok : Bool)
    (hI : R s) : R (State.keyCmd s w st slot op session ok) := by
  unfold State.keyCmd
  try dsimp only
  repeat' first
    | with_reducible assumption
    | exact hR.sub
    | exact fun h => memWf_memStore h
    | exact fun h => memWf_memPut h
    | exact fun h => memWf_filter _ h
    | exact fun _ => rfl
    | with_reducible apply rel_ite
    | with_reducible refine hR.wr _ _ _ (by decide +kernel) (by first | decide +kernel | exact hasFld_self _ _ | exact hasFld_all _ | (simp [hasFld]; done) ) ?_
    | with_reducible apply State.drop_keeps
    | with_reducible apply State.reach_keeps
    | fail_if_no_progress (with_reducible apply hR.upd; all_goals try first | with_reducible exact .inr rfl | exact .inl (by decide +kernel) | exact id)
    | dsimp only
    | intro _ _
    | intro _
    | contradiction
    | (unfold id)
    | split
    | (rename_i hh; injection hh with hh; subst hh)
    | (rename_i hh; split at hh)

theorem execSealKeyGenerate_keeps {R : State → Prop} (hR : Keeps partsSealKeyGenerate fieldsSealKeyGenerate R) (w : Writer) (st : Fin 4) (slot : BitVec 6) (s : State)
    (hI : R s) {tT : State} (eE : execSealKeyGenerate w st slot s = .next tT) : R tT := by
  unfold execSealKeyGenerate at eE
  try dsimp only at eE
  repeat' split at eE
  all_goals try (injection eE with eE; subst eE)
  all_goals repeat' first
    | with_reducible assumption
    | exact hR.sub
    | with_reducible apply rel_ite
    | with_reducible apply State.dirNext_keeps
    | with_reducible apply State.flashMessage_keeps
    | with_reducible apply State.keyCmd_keeps
    | with_reducible apply State.message_keeps
    | with_reducible apply State.packageReset_keeps
    | with_reducible apply State.powerOn_keeps
    | with_reducible apply State.reach_keeps
    | dsimp only
    | intro _ _
    | intro _
    | contradiction
    | (unfold id)
    | split
    | (rename_i hh; injection hh with hh; subst hh)
    | (rename_i hh; split at hh)

theorem execSealKeyImport_keeps {R : State → Prop} (hR : Keeps partsSealKeyImport fieldsSealKeyImport R) (w : Writer) (st : Fin 4) (slot : BitVec 6) (session : BitVec 8) (s : State)
    (hI : R s) {tT : State} (eE : execSealKeyImport w st slot session s = .next tT) : R tT := by
  unfold execSealKeyImport at eE
  try dsimp only at eE
  repeat' split at eE
  all_goals try (injection eE with eE; subst eE)
  all_goals repeat' first
    | with_reducible assumption
    | exact hR.sub
    | with_reducible apply rel_ite
    | with_reducible apply State.dirNext_keeps
    | with_reducible apply State.flashMessage_keeps
    | with_reducible apply State.keyCmd_keeps
    | with_reducible apply State.message_keeps
    | with_reducible apply State.packageReset_keeps
    | with_reducible apply State.powerOn_keeps
    | with_reducible apply State.reach_keeps
    | dsimp only
    | intro _ _
    | intro _
    | contradiction
    | (unfold id)
    | split
    | (rename_i hh; injection hh with hh; subst hh)
    | (rename_i hh; split at hh)

theorem execSealKeyErase_keeps {R : State → Prop} (hR : Keeps partsSealKeyErase fieldsSealKeyErase R) (w : Writer) (st : Fin 4) (slot : BitVec 6) (s : State)
    (hI : R s) {tT : State} (eE : execSealKeyErase w st slot s = .next tT) : R tT := by
  unfold execSealKeyErase at eE
  try dsimp only at eE
  repeat' split at eE
  all_goals try (injection eE with eE; subst eE)
  all_goals repeat' first
    | with_reducible assumption
    | exact hR.sub
    | with_reducible apply rel_ite
    | with_reducible apply State.dirNext_keeps
    | with_reducible apply State.flashMessage_keeps
    | with_reducible apply State.keyCmd_keeps
    | with_reducible apply State.message_keeps
    | with_reducible apply State.packageReset_keeps
    | with_reducible apply State.powerOn_keeps
    | with_reducible apply State.reach_keeps
    | dsimp only
    | intro _ _
    | intro _
    | contradiction
    | (unfold id)
    | split
    | (rename_i hh; injection hh with hh; subst hh)
    | (rename_i hh; split at hh)

theorem State.giveKey_keeps {R : State → Prop} (hR : Keeps [.regs, .keys] ⟨[.SEAL_RSTAT_KEYS], [], [], false⟩ R) (s : State) (st slot k : Nat)
    (hI : R s) : R (State.giveKey s st slot k) := by
  unfold State.giveKey
  try dsimp only
  repeat' first
    | with_reducible assumption
    | exact hR.sub
    | exact fun h => memWf_memStore h
    | exact fun h => memWf_memPut h
    | exact fun h => memWf_filter _ h
    | exact fun _ => rfl
    | exact hR.sub (by decide +kernel) (subFld_self _ _)
    | with_reducible apply rel_ite
    | with_reducible apply State.setBit_keeps
    | fail_if_no_progress (with_reducible apply hR.upd; all_goals try first | with_reducible exact .inr rfl | exact .inl (by decide +kernel) | exact id)
    | dsimp only
    | intro _ _
    | intro _
    | contradiction
    | (unfold id)
    | split
    | (rename_i hh; injection hh with hh; subst hh)
    | (rename_i hh; split at hh)

theorem execSealKeyDone_keeps {R : State → Prop} (hR : Keeps partsSealKeyDone fieldsSealKeyDone R) (st : Fin 4) (keys : Option (BitVec 768)) (s : State)
    (hI : R s) {tT : State} (eE : execSealKeyDone st keys s = .next tT) : R tT := by
  unfold execSealKeyDone at eE
  try dsimp only at eE
  repeat' split at eE
  all_goals try (injection eE with eE; subst eE)
  all_goals repeat' first
    | with_reducible assumption
    | exact hR.sub
    | exact fun h => memWf_memStore h
    | exact fun h => memWf_memPut h
    | exact fun h => memWf_filter _ h
    | exact fun _ => rfl
    | with_reducible apply rel_ite
    | with_reducible refine hR.wr _ _ _ (by decide +kernel) (by first | decide +kernel | exact hasFld_self _ _ | exact hasFld_all _ | (simp [hasFld]; done) ) ?_
    | with_reducible apply State.dirNext_keeps
    | with_reducible apply State.draw_keeps
    | with_reducible apply State.eraseSlot_keeps
    | with_reducible apply State.flashMessage_keeps
    | with_reducible apply State.giveKey_keeps
    | with_reducible apply State.message_keeps
    | with_reducible apply State.packageReset_keeps
    | with_reducible apply State.powerOn_keeps
    | with_reducible apply State.reach_keeps
    | (refine State.draw_keeps_of hR.sub _ _ ?_ (by assumption))
    | fail_if_no_progress (with_reducible apply hR.upd; all_goals try first | with_reducible exact .inr rfl | exact .inl (by decide +kernel) | exact id)
    | dsimp only
    | intro _ _
    | intro _
    | contradiction
    | (unfold id)
    | split
    | (rename_i hh; injection hh with hh; subst hh)
    | (rename_i hh; split at hh)

theorem execSweepPermitGrant_keeps {R : State → Prop} (hR : Keeps partsSweepPermitGrant fieldsSweepPermitGrant R) (st : Fin 4) (s : State)
    (hI : R s) {tT : State} (eE : execSweepPermitGrant st s = .next tT) : R tT := by
  unfold execSweepPermitGrant at eE
  try dsimp only at eE
  repeat' split at eE
  all_goals try (injection eE with eE; subst eE)
  all_goals repeat' first
    | with_reducible assumption
    | exact hR.sub
    | exact fun h => memWf_memStore h
    | exact fun h => memWf_memPut h
    | exact fun h => memWf_filter _ h
    | exact fun _ => rfl
    | with_reducible apply rel_ite
    | with_reducible apply State.dirNext_keeps
    | with_reducible apply State.flashMessage_keeps
    | with_reducible apply State.message_keeps
    | with_reducible apply State.packageReset_keeps
    | with_reducible apply State.powerOn_keeps
    | with_reducible apply State.reach_keeps
    | with_reducible apply State.repairPermit_keeps
    | with_reducible apply State.setSeal_keeps
    | with_reducible apply State.sweepPermit_keeps
    | (refine State.takeGrant_keeps hR.sub _ _ _ _ ?_ (by assumption))
    | fail_if_no_progress (with_reducible apply hR.upd; all_goals try first | with_reducible exact .inr rfl | exact .inl (by decide +kernel) | exact id)
    | dsimp only
    | intro _ _
    | intro _
    | contradiction
    | (unfold id)
    | split
    | (rename_i hh; injection hh with hh; subst hh)
    | (rename_i hh; split at hh)

theorem execSweepPermitTimeout_keeps {R : State → Prop} (hR : Keeps partsSweepPermitTimeout fieldsSweepPermitTimeout R) (st : Fin 4) (s : State)
    (hI : R s) {tT : State} (eE : execSweepPermitTimeout st s = .next tT) : R tT := by
  unfold execSweepPermitTimeout at eE
  try dsimp only at eE
  repeat' split at eE
  all_goals try (injection eE with eE; subst eE)
  all_goals repeat' first
    | with_reducible assumption
    | exact hR.sub
    | exact fun h => memWf_memStore h
    | exact fun h => memWf_memPut h
    | exact fun h => memWf_filter _ h
    | exact fun _ => rfl
    | with_reducible apply rel_ite
    | with_reducible refine hR.wr _ _ _ (by decide +kernel) (by first | decide +kernel | exact hasFld_self _ _ | exact hasFld_all _ | (simp [hasFld]; done) ) ?_
    | with_reducible apply State.dirNext_keeps
    | with_reducible apply State.flashMessage_keeps
    | with_reducible apply State.giveBack_keeps
    | with_reducible apply State.message_keeps
    | with_reducible apply State.packageReset_keeps
    | with_reducible apply State.powerOn_keeps
    | with_reducible apply State.raise_keeps
    | with_reducible apply State.reach_keeps
    | with_reducible apply State.sealErr_keeps
    | with_reducible apply State.setSeal_keeps
    | (refine State.takeTimeout_keeps hR.sub _ _ _ _ ?_ (by assumption))
    | fail_if_no_progress (with_reducible apply hR.upd; all_goals try first | with_reducible exact .inr rfl | exact .inl (by decide +kernel) | exact id)
    | dsimp only
    | intro _ _
    | intro _
    | contradiction
    | (unfold id)
    | split
    | (rename_i hh; injection hh with hh; subst hh)
    | (rename_i hh; split at hh)

theorem execRepairPermitRetry_keeps {R : State → Prop} (hR : Keeps partsRepairPermitRetry fieldsRepairPermitRetry R) (st : Fin 4) (s : State)
    (hI : R s) {tT : State} (eE : execRepairPermitRetry st s = .next tT) : R tT := by
  unfold execRepairPermitRetry at eE
  try dsimp only at eE
  repeat' split at eE
  all_goals try (injection eE with eE; subst eE)
  all_goals repeat' first
    | with_reducible assumption
    | exact hR.sub
    | exact fun h => memWf_memStore h
    | exact fun h => memWf_memPut h
    | exact fun h => memWf_filter _ h
    | exact fun _ => rfl
    | with_reducible apply rel_ite
    | with_reducible apply State.dirNext_keeps
    | with_reducible apply State.flashMessage_keeps
    | with_reducible apply State.lapseTo_keeps
    | with_reducible apply State.message_keeps
    | with_reducible apply State.packageReset_keeps
    | with_reducible apply State.powerOn_keeps
    | with_reducible apply State.reach_keeps
    | with_reducible apply State.repairPermit_keeps
    | with_reducible apply State.setSeal_keeps
    | fail_if_no_progress (with_reducible apply hR.upd; all_goals try first | with_reducible exact .inr rfl | exact .inl (by decide +kernel) | exact id)
    | dsimp only
    | intro _ _
    | intro _
    | contradiction
    | (unfold id)
    | split
    | (rename_i hh; injection hh with hh; subst hh)
    | (rename_i hh; split at hh)

theorem State.zeroLine_keeps {R : State → Prop} (hR : Keeps [.hbm, .poison] ⟨[], [], [], false⟩ R) (s : State) (st r i : Nat)
    (hI : R s) : R (State.zeroLine s st r i) := by
  unfold State.zeroLine
  try dsimp only
  repeat' first
    | with_reducible assumption
    | exact hR.sub
    | with_reducible apply rel_ite
    | with_reducible apply State.linePut_keeps
    | dsimp only
    | intro _ _
    | intro _
    | contradiction
    | (unfold id)
    | split
    | (rename_i hh; injection hh with hh; subst hh)
    | (rename_i hh; split at hh)

def opPartsTreeClear : List Part := [.leafMaj, .leafMin, .innerC, .ccache, .hwm, .lostN, .ccT]

theorem State.treeClear_keeps {R : State → Prop} (hR : Keeps opPartsTreeClear ⟨[], [], [], false⟩ R) (s : State) (st r : Nat)
    (hI : R s) : R (State.treeClear s st r) := by
  unfold State.treeClear
  try dsimp only
  repeat' first
    | with_reducible assumption
    | exact hR.sub
    | exact fun h => memWf_memStore h
    | exact fun h => memWf_memPut h
    | exact fun h => memWf_filter _ h
    | exact fun _ => rfl
    | with_reducible apply rel_ite
    | fail_if_no_progress (with_reducible apply hR.upd; all_goals try first | with_reducible exact .inr rfl | exact .inl (by decide +kernel) | exact id)
    | dsimp only
    | intro _ _
    | intro _
    | contradiction
    | (unfold id)
    | split
    | (rename_i hh; injection hh with hh; subst hh)
    | (rename_i hh; split at hh)

theorem State.pathDirty_keeps {R : State → Prop} (hR : Keeps [.ccache] ⟨[], [], [], false⟩ R) (s : State) (st r leaf : Nat)
    (hI : R s) : R (State.pathDirty s st r leaf) := by
  unfold State.pathDirty
  try dsimp only
  repeat' first
    | with_reducible assumption
    | exact hR.sub
    | with_reducible apply rel_ite
    | with_reducible apply State.nodeDirty_keeps
    | (with_reducible apply rel_foldl; intro _ _ _)
    | (with_reducible apply rel_foldl2; intro _ _ _)
    | (with_reducible apply rel_foldl3; intro _ _ _)
    | (with_reducible apply rel_foldl1; intro _ _ _)
    | dsimp only
    | intro _ _
    | intro _
    | contradiction
    | (unfold id)
    | split
    | (rename_i hh; injection hh with hh; subst hh)
    | (rename_i hh; split at hh)

theorem State.metaZero_keeps {R : State → Prop} (hR : Keeps [.hbm, .poison] ⟨[], [], [], false⟩ R) (s : State) (st r : Nat)
    (hI : R s) : R (State.metaZero s st r) := by
  unfold State.metaZero
  try dsimp only
  repeat' first
    | with_reducible assumption
    | exact hR.sub
    | exact fun h => memWf_memStore h
    | exact fun h => memWf_memPut h
    | exact fun h => memWf_filter _ h
    | exact fun _ => rfl
    | with_reducible apply rel_ite
    | fail_if_no_progress (with_reducible apply hR.upd; all_goals try first | with_reducible exact .inr rfl | exact .inl (by decide +kernel) | exact id)
    | dsimp only
    | intro _ _
    | intro _
    | contradiction
    | (unfold id)
    | split
    | (rename_i hh; injection hh with hh; subst hh)
    | (rename_i hh; split at hh)

def opPartsSweepEnd : List Part :=
  [.regs, .stewards, .govs, .hbm, .poison, .seals, .leafMaj, .leafMin, .innerC, .ccache, .hwm, .lostN, .ccT, .keys]
def opFieldsSweepEnd : FSet :=
  ⟨[.PG_ERR_OP, .PG_ERR_OVERSIZE, .PG_ERR_UNITS, .PG_ERR_VALID, .PG_TO_CNT_COUNT, .SEAL_POS_POS, .SEAL_RCTL_CUR,
    .SEAL_RCTL_OWNER, .SEAL_RSTAT_FREEZE, .SEAL_RSTAT_KEYS, .SEAL_RSTAT_STATE, .SEAL_STAT_KIND, .SEAL_STAT_PERMIT_WAIT,
    .SEAL_STAT_QUEUE, .SEAL_STAT_RANGE], [], [], false⟩

theorem State.sweepEnd_keeps {R : State → Prop} (hR : Keeps opPartsSweepEnd opFieldsSweepEnd R) (s : State) (st : Nat) (w : Sweep)
    (hI : R s) : R (State.sweepEnd s st w) := by
  unfold State.sweepEnd
  try dsimp only
  repeat' first
    | with_reducible assumption
    | exact hR.sub
    | exact fun h => memWf_memStore h
    | exact fun h => memWf_memPut h
    | exact fun h => memWf_filter _ h
    | exact fun _ => rfl
    | with_reducible apply rel_ite
    | with_reducible refine hR.wr _ _ _ (by decide +kernel) (by first | decide +kernel | exact hasFld_self _ _ | exact hasFld_all _ | (simp [hasFld]; done) ) ?_
    | with_reducible apply State.eraseSlot_keeps
    | with_reducible apply State.metaZero_keeps
    | with_reducible apply State.sweepNext_keeps
    | with_reducible apply State.treeClear_keeps
    | fail_if_no_progress (with_reducible apply hR.upd; all_goals try first | with_reducible exact .inr rfl | exact .inl (by decide +kernel) | exact id)
    | dsimp only
    | intro _ _
    | intro _
    | contradiction
    | (unfold id)
    | split
    | (rename_i hh; injection hh with hh; subst hh)
    | (rename_i hh; split at hh)

def opPartsRepairChunk : List Part :=
  [.regs, .stewards, .repairs, .govs, .hbm, .poison, .seals, .leafMaj, .leafMin, .innerC, .hwm, .lostN]
def opFieldsRepairChunk : FSet :=
  ⟨[.PG_ERR_OP, .PG_ERR_OVERSIZE, .PG_ERR_UNITS, .PG_ERR_VALID, .PG_TO_CNT_COUNT, .SEAL_STAT_KIND,
    .SEAL_STAT_PERMIT_WAIT, .SEAL_STAT_QUEUE, .SEAL_STAT_RANGE], [], [], false⟩

theorem State.repairChunk_keeps {R : State → Prop} (hR : Keeps opPartsRepairChunk opFieldsRepairChunk R) (s : State) (st : Nat) (w : Sweep)
    (hI : R s) : R (State.repairChunk s st w) := by
  unfold State.repairChunk
  try dsimp only
  repeat' first
    | with_reducible assumption
    | exact hR.sub
    | exact fun h => memWf_memStore h
    | exact fun h => memWf_memPut h
    | exact fun h => memWf_filter _ h
    | exact fun _ => rfl
    | with_reducible apply rel_ite
    | with_reducible apply State.hwmTo_keeps
    | with_reducible apply State.leafReset_keeps
    | with_reducible apply State.linePut_keeps
    | with_reducible apply State.repairPermit_keeps
    | with_reducible apply State.setSeal_keeps
    | (with_reducible apply rel_foldl; intro _ _ _)
    | (with_reducible apply rel_foldl2; intro _ _ _)
    | (with_reducible apply rel_foldl3; intro _ _ _)
    | (with_reducible apply rel_foldl1; intro _ _ _)
    | fail_if_no_progress (with_reducible apply hR.upd; all_goals try first | with_reducible exact .inr rfl | exact .inl (by decide +kernel) | exact id)
    | dsimp only
    | intro _ _
    | intro _
    | contradiction
    | (unfold id)
    | split
    | (rename_i hh; injection hh with hh; subst hh)
    | (rename_i hh; split at hh)

def opPartsMainChunk : List Part :=
  [.regs, .draws, .stewards, .govs, .hbm, .poison, .seals, .leafMaj, .leafMin, .innerC, .ccache, .hwm, .lostN, .ccT,
    .keys]
def opFieldsMainChunk : FSet :=
  ⟨[.PG_ERR_OP, .PG_ERR_OVERSIZE, .PG_ERR_UNITS, .PG_ERR_VALID, .PG_TO_CNT_COUNT, .SEAL_ERR_ADDR_HI_ADDR,
    .SEAL_ERR_ADDR_LO_ADDR, .SEAL_ERR_CODE, .SEAL_ERR_LEVEL, .SEAL_ERR_RANGE, .SEAL_ERR_VALID, .SEAL_MAC_CNT_COUNT,
    .SEAL_POS_POS, .SEAL_RCTL_CUR, .SEAL_RCTL_OWNER, .SEAL_RSTAT_FREEZE, .SEAL_RSTAT_KEYS, .SEAL_RSTAT_STATE,
    .SEAL_STAT_KIND, .SEAL_STAT_PERMIT_WAIT, .SEAL_STAT_QUEUE, .SEAL_STAT_RANGE], [], [], false⟩

theorem State.mainChunk_keeps {R : State → Prop} (hR : Keeps opPartsMainChunk opFieldsMainChunk R) (s : State) (st : Nat) (w : Sweep) (bad : List (Fin 64 × BitVec 576))
    (hI : R s) : R (State.mainChunk s st w bad) := by
  unfold State.mainChunk
  try dsimp only
  repeat' first
    | with_reducible assumption
    | exact hR.sub
    | exact fun h => memWf_memStore h
    | exact fun h => memWf_memPut h
    | exact fun h => memWf_filter _ h
    | exact fun _ => rfl
    | with_reducible apply rel_ite
    | with_reducible refine hR.wr _ _ _ (by decide +kernel) (by first | decide +kernel | exact hasFld_self _ _ | exact hasFld_all _ | (simp [hasFld]; done) ) ?_
    | with_reducible apply State.leafReset_keeps
    | with_reducible apply State.leafStore_keeps
    | with_reducible apply State.pathDirty_keeps
    | with_reducible apply State.setSeal_keeps
    | with_reducible apply State.sweepEnd_keeps
    | with_reducible apply State.treeClear_keeps
    | with_reducible apply State.zeroLine_keeps
    | (with_reducible apply rel_foldl; intro _ _ _)
    | (with_reducible apply rel_foldl2; intro _ _ _)
    | (with_reducible apply rel_foldl3; intro _ _ _)
    | (with_reducible apply rel_foldl1; intro _ _ _)
    | fail_if_no_progress (with_reducible apply hR.upd; all_goals try first | with_reducible exact .inr rfl | exact .inl (by decide +kernel) | exact id)
    | dsimp only
    | intro _ _
    | intro _
    | contradiction
    | (unfold id)
    | split
    | (rename_i hh; injection hh with hh; subst hh)
    | (rename_i hh; split at hh)

theorem execSweepChunk_keeps {R : State → Prop} (hR : Keeps partsSweepChunk fieldsSweepChunk R) (st : Fin 4) (bad : List (Fin 64 × BitVec 576)) (s : State)
    (hI : R s) {tT : State} (eE : execSweepChunk st bad s = .next tT) : R tT := by
  unfold execSweepChunk at eE
  try dsimp only at eE
  repeat' split at eE
  all_goals try (injection eE with eE; subst eE)
  all_goals repeat' first
    | with_reducible assumption
    | exact hR.sub
    | exact fun h => memWf_memStore h
    | exact fun h => memWf_memPut h
    | exact fun h => memWf_filter _ h
    | exact fun _ => rfl
    | with_reducible apply rel_ite
    | with_reducible apply State.dirNext_keeps
    | with_reducible apply State.flashMessage_keeps
    | with_reducible apply State.lapse_keeps
    | with_reducible apply State.mainChunk_keeps
    | with_reducible apply State.message_keeps
    | with_reducible apply State.packageReset_keeps
    | with_reducible apply State.powerOn_keeps
    | with_reducible apply State.reach_keeps
    | with_reducible apply State.repairChunk_keeps
    | fail_if_no_progress (with_reducible apply hR.upd; all_goals try first | with_reducible exact .inr rfl | exact .inl (by decide +kernel) | exact id)
    | dsimp only
    | intro _ _
    | intro _
    | contradiction
    | (unfold id)
    | split
    | (rename_i hh; injection hh with hh; subst hh)
    | (rename_i hh; split at hh)

theorem execSealRateWrite_keeps {R : State → Prop} (hR : Keeps partsSealRateWrite fieldsSealRateWrite R) (w : Writer) (st : Fin 4) (rate : BitVec 6) (s : State)
    (hI : R s) {tT : State} (eE : execSealRateWrite w st rate s = .next tT) : R tT := by
  unfold execSealRateWrite at eE
  try dsimp only at eE
  repeat' split at eE
  all_goals try (injection eE with eE; subst eE)
  all_goals repeat' first
    | with_reducible assumption
    | exact hR.sub
    | exact fun h => memWf_memStore h
    | exact fun h => memWf_memPut h
    | exact fun h => memWf_filter _ h
    | exact fun _ => rfl
    | with_reducible apply rel_ite
    | with_reducible refine hR.wr _ _ _ (by decide +kernel) (by first | decide +kernel | exact hasFld_self _ _ | exact hasFld_all _ | (simp [hasFld]; done) ) ?_
    | with_reducible apply State.dirNext_keeps
    | with_reducible apply State.drop_keeps
    | with_reducible apply State.flashMessage_keeps
    | with_reducible apply State.message_keeps
    | with_reducible apply State.packageReset_keeps
    | with_reducible apply State.powerOn_keeps
    | with_reducible apply State.raise_keeps
    | with_reducible apply State.reach_keeps
    | with_reducible apply State.repairPermit_keeps
    | with_reducible apply State.sweepPermit_keeps
    | fail_if_no_progress (with_reducible apply hR.upd; all_goals try first | with_reducible exact .inr rfl | exact .inl (by decide +kernel) | exact id)
    | dsimp only
    | intro _ _
    | intro _
    | contradiction
    | (unfold id)
    | split
    | (rename_i hh; injection hh with hh; subst hh)
    | (rename_i hh; split at hh)

theorem execNodeLost_keeps {R : State → Prop} (hR : Keeps partsNodeLost fieldsNodeLost R) (st : Fin 4) (r : Fin 16) (level : Fin 8) (node : BitVec 24) (s : State)
    (hI : R s) {tT : State} (eE : execNodeLost st r level node s = .next tT) : R tT := by
  unfold execNodeLost at eE
  try dsimp only at eE
  repeat' split at eE
  all_goals try (injection eE with eE; subst eE)
  all_goals repeat' first
    | with_reducible assumption
    | exact hR.sub
    | exact fun h => memWf_memStore h
    | exact fun h => memWf_memPut h
    | exact fun h => memWf_filter _ h
    | exact fun _ => rfl
    | exact hR.sub (by decide +kernel) (subFld_self _ _)
    | with_reducible apply rel_ite
    | with_reducible apply State.bump_keeps
    | with_reducible apply State.dirNext_keeps
    | with_reducible apply State.flashMessage_keeps
    | with_reducible apply State.message_keeps
    | with_reducible apply State.packageReset_keeps
    | with_reducible apply State.powerOn_keeps
    | with_reducible apply State.raise_keeps
    | with_reducible apply State.reach_keeps
    | with_reducible apply State.repairPermit_keeps
    | with_reducible apply State.sealErr_keeps
    | with_reducible apply State.sealFreeze_keeps
    | with_reducible apply State.setSeal_keeps
    | fail_if_no_progress (with_reducible apply hR.upd; all_goals try first | exact .inl (by decide +kernel) | with_reducible exact .inr rfl | exact id)
    | dsimp only
    | intro _ _
    | intro _
    | contradiction
    | (unfold id)
    | split
    | (rename_i hh; injection hh with hh; subst hh)
    | (rename_i hh; split at hh)

theorem execCounterCacheWriteback_keeps {R : State → Prop} (hR : Keeps partsCounterCacheWriteback fieldsCounterCacheWriteback R) (st : Fin 4) (r : Fin 16) (level : Fin 8) (node : BitVec 24) (s : State)
    (hI : R s) {tT : State} (eE : execCounterCacheWriteback st r level node s = .next tT) : R tT := by
  unfold execCounterCacheWriteback at eE
  try dsimp only at eE
  repeat' split at eE
  all_goals try (injection eE with eE; subst eE)
  all_goals repeat' first
    | with_reducible assumption
    | exact hR.sub
    | exact fun h => memWf_memStore h
    | exact fun h => memWf_memPut h
    | exact fun h => memWf_filter _ h
    | exact fun _ => rfl
    | with_reducible apply rel_ite
    | with_reducible apply State.dirNext_keeps
    | with_reducible apply State.flashMessage_keeps
    | with_reducible apply State.hwmTo_keeps
    | with_reducible apply State.lapseTo_keeps
    | with_reducible apply State.message_keeps
    | with_reducible apply State.nodeDirty_keeps
    | with_reducible apply State.packageReset_keeps
    | with_reducible apply State.powerOn_keeps
    | with_reducible apply State.reach_keeps
    | with_reducible apply State.sealFreeze_keeps
    | fail_if_no_progress (with_reducible apply hR.upd; all_goals try first | with_reducible exact .inr rfl | exact .inl (by decide +kernel) | exact id)
    | dsimp only
    | intro _ _
    | intro _
    | contradiction
    | (unfold id)
    | split
    | (rename_i hh; injection hh with hh; subst hh)
    | (rename_i hh; split at hh)

end Sys2Proof.Machine
end

