-- ==== Sys2Proof/Laws/KeepsGalkor.lean ====
section
/-! SUPPORT. What the operations of `Machine/Galkor.lean` may change and what they keep. -/

namespace Sys2Proof.Machine

set_option Elab.async false
set_option linter.all false

theorem State.setLink_keeps {R : State → Prop} (hR : Keeps [.gkLink] ⟨[], [], [], false⟩ R) (s : State) (l : Nat) (x : GkLink)
    (hI : R s) : R (State.setLink s l x) := by
  unfold State.setLink
  try dsimp only
  repeat' first
    | with_reducible assumption
    | exact hR.sub
    | exact fun h => memWf_memStore h
    | exact fun h => memWf_memPut h
    | exact fun h => memWf_filter _ h
    | exact fun _ => rfl
    | with_reducible apply rel_ite
    | fail_if_no_progress (with_reducible apply hR.upd; all_goals try first | with_reducible exact .inr rfl | exact .inl (by decide +kernel) | exact id)
    | dsimp only
    | intro _ _
    | intro _
    | contradiction
    | (unfold id)
    | split
    | (rename_i hh; injection hh with hh; subst hh)
    | (rename_i hh; split at hh)

theorem State.setDir_keeps {R : State → Prop} (hR : Keeps [.gkDir] ⟨[], [], [], false⟩ R) (s : State) (n k : Nat) (x : GkDir)
    (hI : R s) : R (State.setDir s n k x) := by
  unfold State.setDir
  try dsimp only
  repeat' first
    | with_reducible assumption
    | exact hR.sub
    | exact fun h => memWf_memStore h
    | exact fun h => memWf_memPut h
    | exact fun h => memWf_filter _ h
    | exact fun _ => rfl
    | with_reducible apply rel_ite
    | fail_if_no_progress (with_reducible apply hR.upd; all_goals try first | with_reducible exact .inr rfl | exact .inl (by decide +kernel) | exact id)
    | dsimp only
    | intro _ _
    | intro _
    | contradiction
    | (unfold id)
    | split
    | (rename_i hh; injection hh with hh; subst hh)
    | (rename_i hh; split at hh)

theorem State.askLink_keeps {R : State → Prop} (hR : Keeps [.regs, .stewards, .govs, .gkLink] ⟨[.PG_ERR_OP, .PG_ERR_OVERSIZE, .PG_ERR_UNITS, .PG_ERR_VALID, .PG_TO_CNT_COUNT], [], [], false⟩ R) (s : State) (l : Nat)
    (hI : R s) : R (State.askLink s l) := by
  unfold State.askLink
  try dsimp only
  repeat' first
    | with_reducible assumption
    | exact hR.sub
    | exact fun h => memWf_memStore h
    | exact fun h => memWf_memPut h
    | exact fun h => memWf_filter _ h
    | exact fun _ => rfl
    | with_reducible apply rel_ite
    | with_reducible apply State.request_keeps
    | with_reducible apply State.setLink_keeps
    | fail_if_no_progress (with_reducible apply hR.upd; all_goals try first | with_reducible exact .inr rfl | exact .inl (by decide +kernel) | exact id)
    | dsimp only
    | intro _ _
    | intro _
    | contradiction
    | (unfold id)
    | split
    | (rename_i hh; injection hh with hh; subst hh)
    | (rename_i hh; split at hh)

theorem State.linkReturn_keeps {R : State → Prop} (hR : Keeps [.govs] ⟨[], [], [], false⟩ R) (s : State) (l : Nat)
    (hI : R s) : R (State.linkReturn s l) := by
  unfold State.linkReturn
  try dsimp only
  repeat' first
    | with_reducible assumption
    | exact hR.sub
    | with_reducible apply rel_ite
    | with_reducible apply State.giveBack_keeps
    | (with_reducible apply rel_foldl; intro _ _ _)
    | (with_reducible apply rel_foldl2; intro _ _ _)
    | (with_reducible apply rel_foldl3; intro _ _ _)
    | (with_reducible apply rel_foldl1; intro _ _ _)
    | dsimp only
    | intro _ _
    | intro _
    | contradiction
    | (unfold id)
    | split
    | (rename_i hh; injection hh with hh; subst hh)
    | (rename_i hh; split at hh)

theorem State.pullHead_keeps {R : State → Prop} (hR : Keeps [.now, .local_, .regs, .stewards, .govs, .spinePull] ⟨[.PG_ERR_OP, .PG_ERR_OVERSIZE, .PG_ERR_UNITS, .PG_ERR_VALID, .PG_GRANT_CNT_COUNT, .PG_TO_CNT_COUNT], [], [], false⟩ R) (s : State) (g op : Nat) (who : List Nat)
    (hI : R s) : R (State.pullHead s g op who) := by
  unfold State.pullHead
  try dsimp only
  repeat' first
    | with_reducible assumption
    | exact hR.sub
    | exact fun h => memWf_memStore h
    | exact fun h => memWf_memPut h
    | exact fun h => memWf_filter _ h
    | exact fun _ => rfl
    | with_reducible apply rel_ite
    | with_reducible apply State.grantHead_keeps
    | fail_if_no_progress (with_reducible apply hR.upd; all_goals try first | with_reducible exact .inr rfl | exact .inl (by decide +kernel) | exact id)
    | dsimp only
    | intro _ _
    | intro _
    | contradiction
    | (unfold id)
    | split
    | (rename_i hh; injection hh with hh; subst hh)
    | (rename_i hh; split at hh)

theorem execLinkTrainingStart_keeps {R : State → Prop} (hR : Keeps partsLinkTrainingStart fieldsLinkTrainingStart R) (l : Fin 16) (s : State)
    (hI : R s) {tT : State} (eE : execLinkTrainingStart l s = .next tT) : R tT := by
  unfold execLinkTrainingStart at eE
  try dsimp only at eE
  repeat' split at eE
  all_goals try (injection eE with eE; subst eE)
  all_goals repeat' first
    | with_reducible assumption
    | exact hR.sub
    | exact fun h => memWf_memStore h
    | exact fun h => memWf_memPut h
    | exact fun h => memWf_filter _ h
    | exact fun _ => rfl
    | with_reducible apply rel_ite
    | with_reducible refine hR.wr _ _ _ (by decide +kernel) (by first | decide +kernel | exact hasFld_self _ _ | exact hasFld_all _ | (simp [hasFld]; done) ) ?_
    | with_reducible apply State.dirNext_keeps
    | with_reducible apply State.flashMessage_keeps
    | with_reducible apply State.message_keeps
    | with_reducible apply State.packageReset_keeps
    | with_reducible apply State.powerOn_keeps
    | with_reducible apply State.pullHead_keeps
    | with_reducible apply State.reach_keeps
    | with_reducible apply State.setLink_keeps
    | (with_reducible apply rel_foldl; intro _ _ _)
    | (with_reducible apply rel_foldl2; intro _ _ _)
    | (with_reducible apply rel_foldl3; intro _ _ _)
    | (with_reducible apply rel_foldl1; intro _ _ _)
    | (refine State.takeGrant_keeps hR.sub _ _ _ _ ?_ (by assumption))
    | fail_if_no_progress (with_reducible apply hR.upd; all_goals try first | with_reducible exact .inr rfl | exact .inl (by decide +kernel) | exact id)
    | dsimp only
    | intro _ _
    | intro _
    | contradiction
    | (unfold id)
    | split
    | (rename_i hh; injection hh with hh; subst hh)
    | (rename_i hh; split at hh)

theorem execLinkTrainingPermitTimeout_keeps {R : State → Prop} (hR : Keeps partsLinkTrainingPermitTimeout fieldsLinkTrainingPermitTimeout R) (l : Fin 16) (s : State)
    (hI : R s) {tT : State} (eE : execLinkTrainingPermitTimeout l s = .next tT) : R tT := by
  unfold execLinkTrainingPermitTimeout at eE
  try dsimp only at eE
  split at eE
  on_goal 1 => split at eE
  all_goals (injection eE with eE; subst eE)
  · rename_i t' h
    have h1 : R t' := by
      split at h
      · injection h with h; subst h
        exact State.takeTimeout_keeps hR.sub _ _ _ _ hI (by assumption)
      · refine State.takeTimeout_keeps hR.sub _ _ _ _ ?_ h
        exact rel_ite (State.pullHead_keeps hR.sub _ _ _ _ hI) hI
    exact State.raise_keeps hR.sub _ _ _ _ _ _ (State.setLink_keeps hR.sub _ _ _ (State.linkReturn_keeps hR.sub _ _ h1))
  all_goals exact hI

theorem execLinkTrainingRetry_keeps {R : State → Prop} (hR : Keeps partsLinkTrainingRetry fieldsLinkTrainingRetry R) (l : Fin 16) (s : State)
    (hI : R s) {tT : State} (eE : execLinkTrainingRetry l s = .next tT) : R tT := by
  unfold execLinkTrainingRetry at eE
  try dsimp only at eE
  repeat' split at eE
  all_goals try (injection eE with eE; subst eE)
  all_goals repeat' first
    | with_reducible assumption
    | exact hR.sub
    | exact fun h => memWf_memStore h
    | exact fun h => memWf_memPut h
    | exact fun h => memWf_filter _ h
    | exact fun _ => rfl
    | with_reducible apply rel_ite
    | with_reducible apply State.askLink_keeps
    | with_reducible apply State.dirNext_keeps
    | with_reducible apply State.flashMessage_keeps
    | with_reducible apply State.lapseTo_keeps
    | with_reducible apply State.message_keeps
    | with_reducible apply State.packageReset_keeps
    | with_reducible apply State.powerOn_keeps
    | with_reducible apply State.reach_keeps
    | with_reducible apply State.setLink_keeps
    | fail_if_no_progress (with_reducible apply hR.upd; all_goals try first | with_reducible exact .inr rfl | exact .inl (by decide +kernel) | exact id)
    | dsimp only
    | intro _ _
    | intro _
    | contradiction
    | (unfold id)
    | split
    | (rename_i hh; injection hh with hh; subst hh)
    | (rename_i hh; split at hh)

theorem State.gkCount_keeps {R : State → Prop} (hR : Keeps [.regs] ⟨[.GK_STAT_COH, .GK_STAT_CROSS, .GK_STAT_NOC], [], [], false⟩ R) (s : State) (n k : Nat)
    (hI : R s) : R (State.gkCount s n k) := by
  unfold State.gkCount
  try dsimp only
  repeat' first
    | with_reducible assumption
    | exact hR.sub
    | with_reducible apply rel_ite
    | with_reducible refine hR.wr _ _ _ (by decide +kernel) (by first | decide +kernel | exact hasFld_self _ _ | exact hasFld_all _ | (simp [hasFld]; done) ) ?_
    | dsimp only
    | intro _ _
    | intro _
    | contradiction
    | (unfold id)
    | split
    | (rename_i hh; injection hh with hh; subst hh)
    | (rename_i hh; split at hh)

theorem State.drainPorts_keeps {R : State → Prop} (hR : Keeps [.regs, .drainT] ⟨[.NOC_RTR_PORT_DRAIN], [], [], false⟩ R) (s : State) (site r bits : Nat)
    (hI : R s) : R (State.drainPorts s site r bits) := by
  unfold State.drainPorts
  try dsimp only
  repeat' first
    | with_reducible assumption
    | exact hR.sub
    | exact fun h => memWf_memStore h
    | exact fun h => memWf_memPut h
    | exact fun h => memWf_filter _ h
    | exact fun _ => rfl
    | with_reducible apply rel_ite
    | with_reducible refine hR.wr _ _ _ (by decide +kernel) (by first | decide +kernel | exact hasFld_self _ _ | exact hasFld_all _ | (simp [hasFld]; done) ) ?_
    | (with_reducible apply rel_foldl; intro _ _ _)
    | (with_reducible apply rel_foldl2; intro _ _ _)
    | (with_reducible apply rel_foldl3; intro _ _ _)
    | (with_reducible apply rel_foldl1; intro _ _ _)
    | fail_if_no_progress (with_reducible apply hR.upd; all_goals try first | with_reducible exact .inr rfl | exact .inl (by decide +kernel) | exact id)
    | dsimp only
    | intro _ _
    | intro _
    | contradiction
    | (unfold id)
    | split
    | (rename_i hh; injection hh with hh; subst hh)
    | (rename_i hh; split at hh)

theorem State.detour_keeps {R : State → Prop} (hR : Keeps [.regs, .stewards, .health, .ni, .bearings, .drainT] ⟨[.GK_STAT_NOC_DETOUR, .GK_STAT_STATE, .MGMT_HEALTH_STAGE, .MGMT_HEALTH_ZERO, .NOC_RTR_PORT_DRAIN], [], [], false⟩ R) (s : State) (n k : Nat) (bs : BearingSet)
    (hI : R s) : R (State.detour s n k bs) := by
  unfold State.detour
  try dsimp only
  repeat' first
    | with_reducible assumption
    | exact hR.sub
    | with_reducible apply rel_ite
    | with_reducible refine hR.wr _ _ _ (by decide +kernel) (by first | decide +kernel | exact hasFld_self _ _ | exact hasFld_all _ | (simp [hasFld]; done) ) ?_
    | with_reducible apply State.capacityLost_keeps
    | with_reducible apply State.drainPorts_keeps
    | with_reducible apply State.notice_keeps
    | with_reducible apply State.putBearings_keeps
    | (with_reducible apply rel_foldl; intro _ _ _)
    | (with_reducible apply rel_foldl2; intro _ _ _)
    | (with_reducible apply rel_foldl3; intro _ _ _)
    | (with_reducible apply rel_foldl1; intro _ _ _)
    | dsimp only
    | intro _ _
    | intro _
    | contradiction
    | (unfold id)
    | split
    | (rename_i hh; injection hh with hh; subst hh)
    | (rename_i hh; split at hh)

def opPartsDirTrained : List Part := [.regs, .stewards, .health, .ni, .bearings, .drainT, .gkDir, .gkPool]
def opFieldsDirTrained : FSet :=
  ⟨[.GK_GRP_STAT_LCROSS, .GK_GRP_STAT_PAUSED, .GK_GRP_STAT_ROLE, .GK_GRP_STAT_SPARE_FOR, .GK_STAT_COH, .GK_STAT_CROSS,
    .GK_STAT_NOC, .GK_STAT_NOC_DETOUR, .GK_STAT_STATE, .MGMT_HEALTH_STAGE, .MGMT_HEALTH_ZERO, .NOC_RTR_PORT_DRAIN], [],
    [], false⟩

theorem State.dirTrained_keeps {R : State → Prop} (hR : Keeps opPartsDirTrained opFieldsDirTrained R) (s : State) (l n k : Nat) (bad : List (Nat × Nat)) (clk : List Nat) (bs : BearingSet)
    (hI : R s) : R (State.dirTrained s l n k bad clk bs) := by
  unfold State.dirTrained
  try dsimp only
  repeat' first
    | with_reducible assumption
    | exact hR.sub
    | exact fun h => memWf_memStore h
    | exact fun h => memWf_memPut h
    | exact fun h => memWf_filter _ h
    | exact fun _ => rfl
    | with_reducible apply rel_ite
    | with_reducible refine hR.wr _ _ _ (by decide +kernel) (by first | decide +kernel | exact hasFld_self _ _ | exact hasFld_all _ | (simp [hasFld]; done) ) ?_
    | with_reducible apply State.capacityLost_keeps
    | with_reducible apply State.detour_keeps
    | with_reducible apply State.drop_keeps
    | with_reducible apply State.gkCount_keeps
    | with_reducible apply State.raise_keeps
    | with_reducible apply State.setDir_keeps
    | with_reducible apply State.setPool_keeps
    | (with_reducible apply rel_foldl; intro _ _ _)
    | (with_reducible apply rel_foldl2; intro _ _ _)
    | (with_reducible apply rel_foldl3; intro _ _ _)
    | (with_reducible apply rel_foldl1; intro _ _ _)
    | fail_if_no_progress (with_reducible apply hR.upd; all_goals try first | with_reducible exact .inr rfl | exact .inl (by decide +kernel) | exact id)
    | dsimp only
    | intro _ _
    | intro _
    | contradiction
    | (unfold id)
    | split
    | (rename_i hh; injection hh with hh; subst hh)
    | (rename_i hh; split at hh)

theorem execLinkTrainingDone_keeps {R : State → Prop} (hR : Keeps partsLinkTrainingDone fieldsLinkTrainingDone R) (l : Fin 16) (bad : List (Bool × Fin 96 × Fin 34)) (clk : List (Bool × Fin 96)) (bs : BearingSet) (s : State)
    (hI : R s) {tT : State} (eE : execLinkTrainingDone l bad clk bs s = .next tT) : R tT := by
  unfold execLinkTrainingDone at eE
  try dsimp only at eE
  repeat' split at eE
  all_goals try (injection eE with eE; subst eE)
  all_goals repeat' first
    | with_reducible assumption
    | exact hR.sub
    | exact fun h => memWf_memStore h
    | exact fun h => memWf_memPut h
    | exact fun h => memWf_filter _ h
    | exact fun _ => rfl
    | with_reducible apply rel_ite
    | with_reducible apply State.dirNext_keeps
    | with_reducible apply State.dirTrained_keeps
    | with_reducible apply State.flashMessage_keeps
    | with_reducible apply State.lapseTo_keeps
    | with_reducible apply State.linkReturn_keeps
    | with_reducible apply State.message_keeps
    | with_reducible apply State.packageReset_keeps
    | with_reducible apply State.powerOn_keeps
    | with_reducible apply State.reach_keeps
    | with_reducible apply State.setLink_keeps
    | (with_reducible apply rel_foldl; intro _ _ _)
    | (with_reducible apply rel_foldl2; intro _ _ _)
    | (with_reducible apply rel_foldl3; intro _ _ _)
    | (with_reducible apply rel_foldl1; intro _ _ _)
    | fail_if_no_progress (with_reducible apply hR.upd; all_goals try first | with_reducible exact .inr rfl | exact .inl (by decide +kernel) | exact id)
    | dsimp only
    | intro _ _
    | intro _
    | contradiction
    | (unfold id)
    | split
    | (rename_i hh; injection hh with hh; subst hh)
    | (rename_i hh; split at hh)

theorem execGkRoleWrite_keeps {R : State → Prop} (hR : Keeps partsGkRoleWrite fieldsGkRoleWrite R) (w : Writer) (n : Fin 8) (xsect : BitVec 8) (coh : BitVec 5) (s : State)
    (hI : R s) {tT : State} (eE : execGkRoleWrite w n xsect coh s = .next tT) : R tT := by
  unfold execGkRoleWrite at eE
  try dsimp only at eE
  repeat' split at eE
  all_goals try (injection eE with eE; subst eE)
  all_goals repeat' first
    | with_reducible assumption
    | exact hR.sub
    | with_reducible apply rel_ite
    | with_reducible refine hR.wr _ _ _ (by decide +kernel) (by first | decide +kernel | exact hasFld_self _ _ | exact hasFld_all _ | (simp [hasFld]; done) ) ?_
    | with_reducible apply State.dirNext_keeps
    | with_reducible apply State.drop_keeps
    | with_reducible apply State.flashMessage_keeps
    | with_reducible apply State.message_keeps
    | with_reducible apply State.packageReset_keeps
    | with_reducible apply State.powerOn_keeps
    | with_reducible apply State.raise_keeps
    | with_reducible apply State.reach_keeps
    | dsimp only
    | intro _ _
    | intro _
    | contradiction
    | (unfold id)
    | split
    | (rename_i hh; injection hh with hh; subst hh)
    | (rename_i hh; split at hh)

theorem State.frameFailed_keeps {R : State → Prop} (hR : Keeps [.regs, .stewards, .gkPool] ⟨[.GK_GRP_CRC_CNT_COUNT], [], [], false⟩ R) (s : State) (n k pl : Nat) (f : LinkFrame) (gs : List Nat) (flips : Nat)
    (hI : R s) : R (State.frameFailed s n k pl f gs flips) := by
  unfold State.frameFailed
  try dsimp only
  repeat' first
    | with_reducible assumption
    | exact hR.sub
    | exact fun h => memWf_memStore h
    | exact fun h => memWf_memPut h
    | exact fun h => memWf_filter _ h
    | exact fun _ => rfl
    | exact hR.sub (by decide +kernel) (subFld_self _ _)
    | with_reducible apply rel_ite
    | with_reducible apply State.bump_keeps
    | with_reducible apply State.raise_keeps
    | with_reducible apply State.setPool_keeps
    | (with_reducible apply rel_foldl; intro _ _ _)
    | (with_reducible apply rel_foldl2; intro _ _ _)
    | (with_reducible apply rel_foldl3; intro _ _ _)
    | (with_reducible apply rel_foldl1; intro _ _ _)
    | fail_if_no_progress (with_reducible apply hR.upd; all_goals try first | with_reducible exact .inr rfl | exact .inl (by decide +kernel) | exact id)
    | dsimp only
    | intro _ _
    | intro _
    | contradiction
    | (unfold id)
    | split
    | (rename_i hh; injection hh with hh; subst hh)
    | (rename_i hh; split at hh)

theorem State.frameTaken_keeps {R : State → Prop} (hR : Keeps [.rtq, .gkDir, .gkPool] ⟨[], [], [], false⟩ R) (s : State) (n k pl : Nat) (f : GkFlit) (flips : Nat)
    (hI : R s) : R (State.frameTaken s n k pl f flips) := by
  unfold State.frameTaken
  try dsimp only
  repeat' first
    | with_reducible assumption
    | exact hR.sub
    | exact fun h => memWf_memStore h
    | exact fun h => memWf_memPut h
    | exact fun h => memWf_filter _ h
    | exact fun _ => rfl
    | with_reducible apply rel_ite
    | with_reducible apply State.enq_keeps
    | with_reducible apply State.setDir_keeps
    | with_reducible apply State.setPool_keeps
    | fail_if_no_progress (with_reducible apply hR.upd; all_goals try first | with_reducible exact .inr rfl | exact .inl (by decide +kernel) | exact id)
    | dsimp only
    | intro _ _
    | intro _
    | contradiction
    | (unfold id)
    | split
    | (rename_i hh; injection hh with hh; subst hh)
    | (rename_i hh; split at hh)

theorem execLinkFrameReceive_keeps {R : State → Prop} (hR : Keeps partsLinkFrameReceive fieldsLinkFrameReceive R) (n : Fin 9) (k : Fin 8) (coh : Bool) (g0 g1 g2 : Fin 96) (flips : BitVec 768) (s : State)
    (hI : R s) {tT : State} (eE : execLinkFrameReceive n k coh g0 g1 g2 flips s = .next tT) : R tT := by
  unfold execLinkFrameReceive at eE
  try dsimp only at eE
  repeat' split at eE
  all_goals try (injection eE with eE; subst eE)
  all_goals repeat' first
    | with_reducible assumption
    | exact hR.sub
    | exact fun h => memWf_memStore h
    | exact fun h => memWf_memPut h
    | exact fun h => memWf_filter _ h
    | exact fun _ => rfl
    | with_reducible apply rel_ite
    | with_reducible apply State.dirNext_keeps
    | with_reducible apply State.flashMessage_keeps
    | with_reducible apply State.frameFailed_keeps
    | with_reducible apply State.frameTaken_keeps
    | with_reducible apply State.message_keeps
    | with_reducible apply State.packageReset_keeps
    | with_reducible apply State.poolGrant_keeps
    | with_reducible apply State.powerOn_keeps
    | with_reducible apply State.reach_keeps
    | with_reducible apply State.setPool_keeps
    | fail_if_no_progress (with_reducible apply hR.upd; all_goals try first | with_reducible exact .inr rfl | exact .inl (by decide +kernel) | exact id)
    | dsimp only
    | intro _ _
    | intro _
    | contradiction
    | (unfold id)
    | split
    | (rename_i hh; injection hh with hh; subst hh)
    | (rename_i hh; split at hh)

theorem execLinkReplay_keeps {R : State → Prop} (hR : Keeps partsLinkReplay fieldsLinkReplay R) (n : Fin 9) (k : Fin 8) (coh : Bool) (g : Fin 96) (s : State)
    (hI : R s) {tT : State} (eE : execLinkReplay n k coh g s = .next tT) : R tT := by
  unfold execLinkReplay at eE
  try dsimp only at eE
  repeat' split at eE
  all_goals try (injection eE with eE; subst eE)
  all_goals repeat' first
    | with_reducible assumption
    | exact hR.sub
    | exact fun h => memWf_memStore h
    | exact fun h => memWf_memPut h
    | exact fun h => memWf_filter _ h
    | exact fun _ => rfl
    | exact hR.sub (by decide +kernel) (subFld_self _ _)
    | with_reducible apply rel_ite
    | with_reducible apply State.bump_keeps
    | with_reducible apply State.dirNext_keeps
    | with_reducible apply State.flashMessage_keeps
    | with_reducible apply State.message_keeps
    | with_reducible apply State.packageReset_keeps
    | with_reducible apply State.powerOn_keeps
    | with_reducible apply State.reach_keeps
    | with_reducible apply State.setPool_keeps
    | fail_if_no_progress (with_reducible apply hR.upd; all_goals try first | with_reducible exact .inr rfl | exact .inl (by decide +kernel) | exact id)
    | dsimp only
    | intro _ _
    | intro _
    | contradiction
    | (unfold id)
    | split
    | (rename_i hh; injection hh with hh; subst hh)
    | (rename_i hh; split at hh)

theorem execPoolRetrain_keeps {R : State → Prop} (hR : Keeps partsPoolRetrain fieldsPoolRetrain R) (n : Fin 9) (k : Fin 8) (coh : Bool) (s : State)
    (hI : R s) {tT : State} (eE : execPoolRetrain n k coh s = .next tT) : R tT := by
  unfold execPoolRetrain at eE
  try dsimp only at eE
  repeat' split at eE
  all_goals try (injection eE with eE; subst eE)
  all_goals repeat' first
    | with_reducible assumption
    | exact hR.sub
    | exact fun h => memWf_memStore h
    | exact fun h => memWf_memPut h
    | exact fun h => memWf_filter _ h
    | exact fun _ => rfl
    | with_reducible apply rel_ite
    | with_reducible apply State.dirNext_keeps
    | with_reducible apply State.flashMessage_keeps
    | with_reducible apply State.message_keeps
    | with_reducible apply State.packageReset_keeps
    | with_reducible apply State.powerOn_keeps
    | with_reducible apply State.reach_keeps
    | with_reducible apply State.setPool_keeps
    | fail_if_no_progress (with_reducible apply hR.upd; all_goals try first | with_reducible exact .inr rfl | exact .inl (by decide +kernel) | exact id)
    | dsimp only
    | intro _ _
    | intro _
    | contradiction
    | (unfold id)
    | split
    | (rename_i hh; injection hh with hh; subst hh)
    | (rename_i hh; split at hh)

theorem execLaneHealthInterval_keeps {R : State → Prop} (hR : Keeps partsLaneHealthInterval fieldsLaneHealthInterval R) (n : Fin 9) (k : Fin 8) (counts : List (Fin 96 × Fin 34 × Nat)) (s : State)
    (hI : R s) {tT : State} (eE : execLaneHealthInterval n k counts s = .next tT) : R tT := by
  unfold execLaneHealthInterval at eE
  try dsimp only at eE
  repeat' split at eE
  all_goals try (injection eE with eE; subst eE)
  all_goals repeat' first
    | with_reducible assumption
    | exact hR.sub
    | exact fun h => memWf_memStore h
    | exact fun h => memWf_memPut h
    | exact fun h => memWf_filter _ h
    | exact fun _ => rfl
    | exact hR.sub (by decide +kernel) (subFld_self _ _)
    | with_reducible apply rel_ite
    | with_reducible refine hR.wr _ _ _ (by decide +kernel) (by first | decide +kernel | exact hasFld_self _ _ | exact hasFld_all _ | (simp [hasFld]; done) ) ?_
    | with_reducible apply State.bump_keeps
    | with_reducible apply State.dirNext_keeps
    | with_reducible apply State.flashMessage_keeps
    | with_reducible apply State.message_keeps
    | with_reducible apply State.packageReset_keeps
    | with_reducible apply State.powerOn_keeps
    | with_reducible apply State.raise_keeps
    | with_reducible apply State.reach_keeps
    | with_reducible apply State.setDir_keeps
    | (with_reducible apply rel_foldl; intro _ _ _)
    | (with_reducible apply rel_foldl2; intro _ _ _)
    | (with_reducible apply rel_foldl3; intro _ _ _)
    | (with_reducible apply rel_foldl1; intro _ _ _)
    | fail_if_no_progress (with_reducible apply hR.upd; all_goals try first | with_reducible exact .inr rfl | exact .inl (by decide +kernel) | exact id)
    | dsimp only
    | intro _ _
    | intro _
    | contradiction
    | (unfold id)
    | split
    | (rename_i hh; injection hh with hh; subst hh)
    | (rename_i hh; split at hh)

theorem State.spareNotice_keeps {R : State → Prop} (hR : Keeps [.regs, .stewards, .health] ⟨[.MGMT_HEALTH_STAGE, .MGMT_HEALTH_ZERO], [], [], false⟩ R) (s : State) (n k g : Nat)
    (hI : R s) : R (State.spareNotice s n k g) := by
  unfold State.spareNotice
  try dsimp only
  repeat' first
    | with_reducible assumption
    | exact hR.sub
    | with_reducible apply rel_ite
    | with_reducible apply State.notice_keeps
    | dsimp only
    | intro _ _
    | intro _
    | contradiction
    | (unfold id)
    | split
    | (rename_i hh; injection hh with hh; subst hh)
    | (rename_i hh; split at hh)

theorem State.swapBegin_keeps {R : State → Prop} (hR : Keeps [.regs, .gkDir] ⟨[.GK_GRP_STAT_PAUSED], [], [], false⟩ R) (s : State) (n k g l : Nat)
    (hI : R s) : R (State.swapBegin s n k g l) := by
  unfold State.swapBegin
  try dsimp only
  repeat' first
    | with_reducible assumption
    | exact hR.sub
    | exact fun h => memWf_memStore h
    | exact fun h => memWf_memPut h
    | exact fun h => memWf_filter _ h
    | exact fun _ => rfl
    | with_reducible apply rel_ite
    | with_reducible refine hR.wr _ _ _ (by decide +kernel) (by first | decide +kernel | exact hasFld_self _ _ | exact hasFld_all _ | (simp [hasFld]; done) ) ?_
    | with_reducible apply State.setDir_keeps
    | fail_if_no_progress (with_reducible apply hR.upd; all_goals try first | with_reducible exact .inr rfl | exact .inl (by decide +kernel) | exact id)
    | dsimp only
    | intro _ _
    | intro _
    | contradiction
    | (unfold id)
    | split
    | (rename_i hh; injection hh with hh; subst hh)
    | (rename_i hh; split at hh)

theorem State.crossSwapBegin_keeps {R : State → Prop} (hR : Keeps [.gkDir] ⟨[], [], [], false⟩ R) (s : State) (n k g l : Nat)
    (hI : R s) : R (State.crossSwapBegin s n k g l) := by
  unfold State.crossSwapBegin
  try dsimp only
  repeat' first
    | with_reducible assumption
    | exact hR.sub
    | exact fun h => memWf_memStore h
    | exact fun h => memWf_memPut h
    | exact fun h => memWf_filter _ h
    | exact fun _ => rfl
    | with_reducible apply rel_ite
    | with_reducible apply State.setDir_keeps
    | fail_if_no_progress (with_reducible apply hR.upd; all_goals try first | with_reducible exact .inr rfl | exact .inl (by decide +kernel) | exact id)
    | dsimp only
    | intro _ _
    | intro _
    | contradiction
    | (unfold id)
    | split
    | (rename_i hh; injection hh with hh; subst hh)
    | (rename_i hh; split at hh)

theorem execSpareSwap_keeps {R : State → Prop} (hR : Keeps partsSpareSwap fieldsSpareSwap R) (n : Fin 9) (k : Fin 8) (g : Fin 96) (l : Fin 33) (s : State)
    (hI : R s) {tT : State} (eE : execSpareSwap n k g l s = .next tT) : R tT := by
  unfold execSpareSwap at eE
  try dsimp only at eE
  repeat' split at eE
  all_goals try (injection eE with eE; subst eE)
  all_goals repeat' first
    | with_reducible assumption
    | exact hR.sub
    | with_reducible apply rel_ite
    | with_reducible apply State.dirNext_keeps
    | with_reducible apply State.flashMessage_keeps
    | with_reducible apply State.message_keeps
    | with_reducible apply State.packageReset_keeps
    | with_reducible apply State.powerOn_keeps
    | with_reducible apply State.reach_keeps
    | with_reducible apply State.swapBegin_keeps
    | dsimp only
    | intro _ _
    | intro _
    | contradiction
    | (unfold id)
    | split
    | (rename_i hh; injection hh with hh; subst hh)
    | (rename_i hh; split at hh)

theorem execSpareRejoin_keeps {R : State → Prop} (hR : Keeps partsSpareRejoin fieldsSpareRejoin R) (n : Fin 9) (k : Fin 8) (g : Fin 96) (s : State)
    (hI : R s) {tT : State} (eE : execSpareRejoin n k g s = .next tT) : R tT := by
  unfold execSpareRejoin at eE
  try dsimp only at eE
  repeat' split at eE
  all_goals try (injection eE with eE; subst eE)
  all_goals repeat' first
    | with_reducible assumption
    | exact hR.sub
    | exact fun h => memWf_memStore h
    | exact fun h => memWf_memPut h
    | exact fun h => memWf_filter _ h
    | exact fun _ => rfl
    | with_reducible apply rel_ite
    | with_reducible refine hR.wr _ _ _ (by decide +kernel) (by first | decide +kernel | exact hasFld_self _ _ | exact hasFld_all _ | (simp [hasFld]; done) ) ?_
    | with_reducible apply State.dirNext_keeps
    | with_reducible apply State.flashMessage_keeps
    | with_reducible apply State.lapseTo_keeps
    | with_reducible apply State.message_keeps
    | with_reducible apply State.packageReset_keeps
    | with_reducible apply State.powerOn_keeps
    | with_reducible apply State.reach_keeps
    | with_reducible apply State.setDir_keeps
    | with_reducible apply State.spareNotice_keeps
    | fail_if_no_progress (with_reducible apply hR.upd; all_goals try first | with_reducible exact .inr rfl | exact .inl (by decide +kernel) | exact id)
    | dsimp only
    | intro _ _
    | intro _
    | contradiction
    | (unfold id)
    | split
    | (rename_i hh; injection hh with hh; subst hh)
    | (rename_i hh; split at hh)

theorem execCrossingSpareSwap_keeps {R : State → Prop} (hR : Keeps partsCrossingSpareSwap fieldsCrossingSpareSwap R) (n : Fin 9) (k : Fin 8) (g : Fin 96) (l : Fin 33) (s : State)
    (hI : R s) {tT : State} (eE : execCrossingSpareSwap n k g l s = .next tT) : R tT := by
  unfold execCrossingSpareSwap at eE
  try dsimp only at eE
  repeat' split at eE
  all_goals try (injection eE with eE; subst eE)
  all_goals repeat' first
    | with_reducible assumption
    | exact hR.sub
    | with_reducible apply rel_ite
    | with_reducible apply State.crossSwapBegin_keeps
    | with_reducible apply State.dirNext_keeps
    | with_reducible apply State.flashMessage_keeps
    | with_reducible apply State.message_keeps
    | with_reducible apply State.packageReset_keeps
    | with_reducible apply State.powerOn_keeps
    | with_reducible apply State.reach_keeps
    | dsimp only
    | intro _ _
    | intro _
    | contradiction
    | (unfold id)
    | split
    | (rename_i hh; injection hh with hh; subst hh)
    | (rename_i hh; split at hh)

def opFieldsGroupOut : FSet :=
  ⟨[.GK_GRP_STAT_LCROSS, .GK_GRP_STAT_PAUSED, .GK_GRP_STAT_ROLE, .GK_STAT_COH, .GK_STAT_CROSS, .GK_STAT_NOC,
    .MGMT_HEALTH_STAGE, .MGMT_HEALTH_ZERO], [], [], false⟩

theorem State.groupOut_keeps {R : State → Prop} (hR : Keeps [.regs, .stewards, .health] opFieldsGroupOut R) (s : State) (n k g : Nat)
    (hI : R s) : R (State.groupOut s n k g) := by
  unfold State.groupOut
  try dsimp only
  repeat' first
    | with_reducible assumption
    | exact hR.sub
    | with_reducible apply rel_ite
    | with_reducible refine hR.wr _ _ _ (by decide +kernel) (by first | decide +kernel | exact hasFld_self _ _ | exact hasFld_all _ | (simp [hasFld]; done) ) ?_
    | with_reducible apply State.gkCount_keeps
    | with_reducible apply State.notice_keeps
    | dsimp only
    | intro _ _
    | intro _
    | contradiction
    | (unfold id)
    | split
    | (rename_i hh; injection hh with hh; subst hh)
    | (rename_i hh; split at hh)

theorem State.floor_keeps {R : State → Prop} (hR : Keeps [.regs, .stewards, .health, .ni, .bearings, .drainT] ⟨[.GK_STAT_NOC_DETOUR, .GK_STAT_STATE, .MGMT_HEALTH_STAGE, .MGMT_HEALTH_ZERO, .NOC_RTR_PORT_DRAIN], [], [], false⟩ R) (s : State) (n k : Nat) (bs : BearingSet)
    (hI : R s) : R (State.floor s n k bs) := by
  unfold State.floor
  try dsimp only
  repeat' first
    | with_reducible assumption
    | exact hR.sub
    | with_reducible apply rel_ite
    | with_reducible apply State.detour_keeps
    | dsimp only
    | intro _ _
    | intro _
    | contradiction
    | (unfold id)
    | split
    | (rename_i hh; injection hh with hh; subst hh)
    | (rename_i hh; split at hh)

def opFieldsLoseCrossing : FSet :=
  ⟨[.GK_GRP_STAT_LCROSS, .GK_GRP_STAT_PAUSED, .GK_GRP_STAT_ROLE, .GK_STAT_COH, .GK_STAT_CROSS, .GK_STAT_NOC,
    .GK_STAT_STATE, .MGMT_HEALTH_STAGE, .MGMT_HEALTH_ZERO], [], [], false⟩

theorem State.loseCrossing_keeps {R : State → Prop} (hR : Keeps [.regs, .stewards, .health, .gkDir] opFieldsLoseCrossing R) (s : State) (n k g : Nat)
    (hI : R s) : R (State.loseCrossing s n k g) := by
  unfold State.loseCrossing
  try dsimp only
  repeat' first
    | with_reducible assumption
    | exact hR.sub
    | exact fun h => memWf_memStore h
    | exact fun h => memWf_memPut h
    | exact fun h => memWf_filter _ h
    | exact fun _ => rfl
    | with_reducible apply rel_ite
    | with_reducible refine hR.wr _ _ _ (by decide +kernel) (by first | decide +kernel | exact hasFld_self _ _ | exact hasFld_all _ | (simp [hasFld]; done) ) ?_
    | with_reducible apply State.capacityLost_keeps
    | with_reducible apply State.groupOut_keeps
    | with_reducible apply State.raise_keeps
    | with_reducible apply State.setDir_keeps
    | fail_if_no_progress (with_reducible apply hR.upd; all_goals try first | with_reducible exact .inr rfl | exact .inl (by decide +kernel) | exact id)
    | dsimp only
    | intro _ _
    | intro _
    | contradiction
    | (unfold id)
    | split
    | (rename_i hh; injection hh with hh; subst hh)
    | (rename_i hh; split at hh)

def opFieldsConvBegin : FSet :=
  ⟨[.GK_GRP_STAT_PAUSED, .GK_GRP_STAT_ROLE, .GK_STAT_COH, .GK_STAT_CROSS, .GK_STAT_NOC, .PG_ERR_OP, .PG_ERR_OVERSIZE,
    .PG_ERR_UNITS, .PG_ERR_VALID, .PG_TO_CNT_COUNT], [], [], false⟩

theorem State.convBegin_keeps {R : State → Prop} (hR : Keeps [.regs, .stewards, .govs, .gkDir] opFieldsConvBegin R) (s : State) (n k g into : Nat)
    (hI : R s) : R (State.convBegin s n k g into) := by
  unfold State.convBegin
  try dsimp only
  repeat' first
    | with_reducible assumption
    | exact hR.sub
    | exact fun h => memWf_memStore h
    | exact fun h => memWf_memPut h
    | exact fun h => memWf_filter _ h
    | exact fun _ => rfl
    | with_reducible apply rel_ite
    | with_reducible refine hR.wr _ _ _ (by decide +kernel) (by first | decide +kernel | exact hasFld_self _ _ | exact hasFld_all _ | (simp [hasFld]; done) ) ?_
    | with_reducible apply State.gkCount_keeps
    | with_reducible apply State.request_keeps
    | with_reducible apply State.setDir_keeps
    | fail_if_no_progress (with_reducible apply hR.upd; all_goals try first | with_reducible exact .inr rfl | exact .inl (by decide +kernel) | exact id)
    | dsimp only
    | intro _ _
    | intro _
    | contradiction
    | (unfold id)
    | split
    | (rename_i hh; injection hh with hh; subst hh)
    | (rename_i hh; split at hh)

def opPartsRetireGroup : List Part := [.regs, .stewards, .health, .govs, .ni, .bearings, .drainT, .gkDir]
def opFieldsRetireGroup : FSet :=
  ⟨[.GK_GRP_STAT_LCROSS, .GK_GRP_STAT_PAUSED, .GK_GRP_STAT_ROLE, .GK_STAT_COH, .GK_STAT_CROSS, .GK_STAT_NOC,
    .GK_STAT_NOC_DETOUR, .GK_STAT_STATE, .MGMT_HEALTH_STAGE, .MGMT_HEALTH_ZERO, .NOC_RTR_PORT_DRAIN, .PG_ERR_OP,
    .PG_ERR_OVERSIZE, .PG_ERR_UNITS, .PG_ERR_VALID, .PG_TO_CNT_COUNT], [], [], false⟩

theorem State.retireGroup_keeps {R : State → Prop} (hR : Keeps opPartsRetireGroup opFieldsRetireGroup R) (s : State) (n k g : Nat) (bs : BearingSet)
    (hI : R s) : R (State.retireGroup s n k g bs) := by
  unfold State.retireGroup
  try dsimp only
  repeat' first
    | with_reducible assumption
    | exact hR.sub
    | exact fun h => memWf_memStore h
    | exact fun h => memWf_memPut h
    | exact fun h => memWf_filter _ h
    | exact fun _ => rfl
    | with_reducible apply rel_ite
    | with_reducible apply State.convBegin_keeps
    | with_reducible apply State.detour_keeps
    | with_reducible apply State.floor_keeps
    | with_reducible apply State.groupOut_keeps
    | with_reducible apply State.loseCrossing_keeps
    | with_reducible apply State.setDir_keeps
    | fail_if_no_progress (with_reducible apply hR.upd; all_goals try first | with_reducible exact .inr rfl | exact .inl (by decide +kernel) | exact id)
    | dsimp only
    | intro _ _
    | intro _
    | contradiction
    | (unfold id)
    | split
    | (rename_i hh; injection hh with hh; subst hh)
    | (rename_i hh; split at hh)

theorem execGroupRetire_keeps {R : State → Prop} (hR : Keeps partsGroupRetire fieldsGroupRetire R) (n : Fin 9) (k : Fin 8) (g : Fin 96) (clk : Bool) (bs : BearingSet) (s : State)
    (hI : R s) {tT : State} (eE : execGroupRetire n k g clk bs s = .next tT) : R tT := by
  unfold execGroupRetire at eE
  try dsimp only at eE
  repeat' split at eE
  all_goals try (injection eE with eE; subst eE)
  all_goals repeat' first
    | with_reducible assumption
    | exact hR.sub
    | with_reducible apply rel_ite
    | with_reducible apply State.dirNext_keeps
    | with_reducible apply State.flashMessage_keeps
    | with_reducible apply State.message_keeps
    | with_reducible apply State.packageReset_keeps
    | with_reducible apply State.powerOn_keeps
    | with_reducible apply State.reach_keeps
    | with_reducible apply State.retireGroup_keeps
    | dsimp only
    | intro _ _
    | intro _
    | contradiction
    | (unfold id)
    | split
    | (rename_i hh; injection hh with hh; subst hh)
    | (rename_i hh; split at hh)

theorem execGroupConversion_keeps {R : State → Prop} (hR : Keeps partsGroupConversion fieldsGroupConversion R) (n : Fin 9) (k : Fin 8) (g : Fin 96) (s : State)
    (hI : R s) {tT : State} (eE : execGroupConversion n k g s = .next tT) : R tT := by
  unfold execGroupConversion at eE
  try dsimp only at eE
  repeat' split at eE
  all_goals try (injection eE with eE; subst eE)
  all_goals repeat' first
    | with_reducible assumption
    | exact hR.sub
    | exact fun h => memWf_memStore h
    | exact fun h => memWf_memPut h
    | exact fun h => memWf_filter _ h
    | exact fun _ => rfl
    | with_reducible apply rel_ite
    | with_reducible apply State.dirNext_keeps
    | with_reducible apply State.flashMessage_keeps
    | with_reducible apply State.message_keeps
    | with_reducible apply State.packageReset_keeps
    | with_reducible apply State.powerOn_keeps
    | with_reducible apply State.pullHead_keeps
    | with_reducible apply State.reach_keeps
    | with_reducible apply State.request_keeps
    | with_reducible apply State.setDir_keeps
    | (refine State.takeGrant_keeps hR.sub _ _ _ _ ?_ (by assumption))
    | fail_if_no_progress (with_reducible apply hR.upd; all_goals try first | with_reducible exact .inr rfl | exact .inl (by decide +kernel) | exact id)
    | dsimp only
    | intro _ _
    | intro _
    | contradiction
    | (unfold id)
    | split
    | (rename_i hh; injection hh with hh; subst hh)
    | (rename_i hh; split at hh)

theorem execCrossingSwitchInstant_keeps {R : State → Prop} (hR : Keeps partsCrossingSwitchInstant fieldsCrossingSwitchInstant R) (n : Fin 9) (k : Fin 8) (g : Fin 96) (s : State)
    (hI : R s) {tT : State} (eE : execCrossingSwitchInstant n k g s = .next tT) : R tT := by
  unfold execCrossingSwitchInstant at eE
  try dsimp only at eE
  repeat' split at eE
  all_goals try (injection eE with eE; subst eE)
  all_goals repeat' first
    | with_reducible assumption
    | exact hR.sub
    | exact fun h => memWf_memStore h
    | exact fun h => memWf_memPut h
    | exact fun h => memWf_filter _ h
    | exact fun _ => rfl
    | with_reducible apply rel_ite
    | with_reducible refine hR.wr _ _ _ (by decide +kernel) (by first | decide +kernel | exact hasFld_self _ _ | exact hasFld_all _ | (simp [hasFld]; done) ) ?_
    | with_reducible apply State.dirNext_keeps
    | with_reducible apply State.flashMessage_keeps
    | with_reducible apply State.giveBack_keeps
    | with_reducible apply State.groupOut_keeps
    | with_reducible apply State.lapseTo_keeps
    | with_reducible apply State.message_keeps
    | with_reducible apply State.notice_keeps
    | with_reducible apply State.packageReset_keeps
    | with_reducible apply State.powerOn_keeps
    | with_reducible apply State.reach_keeps
    | with_reducible apply State.setDir_keeps
    | with_reducible apply State.spareNotice_keeps
    | (with_reducible apply rel_foldl; intro _ _ _)
    | (with_reducible apply rel_foldl2; intro _ _ _)
    | (with_reducible apply rel_foldl3; intro _ _ _)
    | (with_reducible apply rel_foldl1; intro _ _ _)
    | fail_if_no_progress (with_reducible apply hR.upd; all_goals try first | with_reducible exact .inr rfl | exact .inl (by decide +kernel) | exact id)
    | dsimp only
    | intro _ _
    | intro _
    | contradiction
    | (unfold id)
    | split
    | (rename_i hh; injection hh with hh; subst hh)
    | (rename_i hh; split at hh)

theorem State.gkCmd_keeps {R : State → Prop} (hR : Keeps [.regs, .stewards, .rstUnlock] ⟨[.GK_CTL_GROUP, .GK_CTL_LANE], [], [], false⟩ R) (s : State) (w : Writer) (n k cmd g l : Nat) (f : State → State)
    (hI : R s) (hf : ∀  s, R s → R (f  s)) : R (State.gkCmd s w n k cmd g l f) := by
  unfold State.gkCmd
  try dsimp only
  repeat' first
    | with_reducible assumption
    | exact hR.sub
    | with_reducible apply rel_ite
    | (with_reducible apply hf)
    | with_reducible refine hR.wr _ _ _ (by decide +kernel) (by first | decide +kernel | exact hasFld_self _ _ | exact hasFld_all _ | (simp [hasFld]; done) ) ?_
    | with_reducible apply State.dropF_keeps
    | with_reducible apply State.reach_keeps
    | dsimp only
    | intro _ _
    | intro _
    | contradiction
    | (unfold id)
    | split
    | (rename_i hh; injection hh with hh; subst hh)
    | (rename_i hh; split at hh)

theorem execGkCmdSwap_keeps {R : State → Prop} (hR : Keeps partsGkCmdSwap fieldsGkCmdSwap R) (w : Writer) (n : Fin 9) (k : Fin 8) (g : Fin 96) (l : BitVec 6) (s : State)
    (hI : R s) {tT : State} (eE : execGkCmdSwap w n k g l s = .next tT) : R tT := by
  unfold execGkCmdSwap at eE
  try dsimp only at eE
  repeat' split at eE
  all_goals try (injection eE with eE; subst eE)
  all_goals repeat' first
    | with_reducible assumption
    | exact hR.sub
    | exact fun h => memWf_memStore h
    | exact fun h => memWf_memPut h
    | exact fun h => memWf_filter _ h
    | exact fun _ => rfl
    | with_reducible apply rel_ite
    | with_reducible apply State.crossSwapBegin_keeps
    | with_reducible apply State.dirNext_keeps
    | with_reducible apply State.flashMessage_keeps
    | with_reducible apply State.gkCmd_keeps
    | with_reducible apply State.message_keeps
    | with_reducible apply State.packageReset_keeps
    | with_reducible apply State.powerOn_keeps
    | with_reducible apply State.reach_keeps
    | with_reducible apply State.swapBegin_keeps
    | fail_if_no_progress (with_reducible apply hR.upd; all_goals try first | with_reducible exact .inr rfl | exact .inl (by decide +kernel) | exact id)
    | dsimp only
    | intro _ _
    | intro _
    | contradiction
    | (unfold id)
    | split
    | (rename_i hh; injection hh with hh; subst hh)
    | (rename_i hh; split at hh)

theorem execGkCmdRetire_keeps {R : State → Prop} (hR : Keeps partsGkCmdRetire fieldsGkCmdRetire R) (w : Writer) (n : Fin 9) (k : Fin 8) (g : Fin 96) (bs : BearingSet) (s : State)
    (hI : R s) {tT : State} (eE : execGkCmdRetire w n k g bs s = .next tT) : R tT := by
  unfold execGkCmdRetire at eE
  try dsimp only at eE
  repeat' split at eE
  all_goals try (injection eE with eE; subst eE)
  all_goals repeat' first
    | with_reducible assumption
    | exact hR.sub
    | with_reducible apply rel_ite
    | with_reducible apply State.dirNext_keeps
    | with_reducible apply State.flashMessage_keeps
    | with_reducible apply State.gkCmd_keeps
    | with_reducible apply State.message_keeps
    | with_reducible apply State.packageReset_keeps
    | with_reducible apply State.powerOn_keeps
    | with_reducible apply State.reach_keeps
    | with_reducible apply State.retireGroup_keeps
    | dsimp only
    | intro _ _
    | intro _
    | contradiction
    | (unfold id)
    | split
    | (rename_i hh; injection hh with hh; subst hh)
    | (rename_i hh; split at hh)

theorem State.setCrossing_keeps {R : State → Prop} (hR : Keeps [.crossIn] ⟨[], [], [], false⟩ R) (s : State) (n k lc : Nat) (x : CrossIn)
    (hI : R s) : R (State.setCrossing s n k lc x) := by
  unfold State.setCrossing
  try dsimp only
  repeat' first
    | with_reducible assumption
    | exact hR.sub
    | exact fun h => memWf_memStore h
    | exact fun h => memWf_memPut h
    | exact fun h => memWf_filter _ h
    | exact fun _ => rfl
    | with_reducible apply rel_ite
    | fail_if_no_progress (with_reducible apply hR.upd; all_goals try first | with_reducible exact .inr rfl | exact .inl (by decide +kernel) | exact id)
    | dsimp only
    | intro _ _
    | intro _
    | contradiction
    | (unfold id)
    | split
    | (rename_i hh; injection hh with hh; subst hh)
    | (rename_i hh; split at hh)

theorem execCrossingFrameReceive_keeps {R : State → Prop} (hR : Keeps partsCrossingFrameReceive fieldsCrossingFrameReceive R) (n : Fin 8) (k : Fin 2) (lc : Fin 48) (data : BitVec 256) (flips : BitVec 264) (s : State)
    (hI : R s) {tT : State} (eE : execCrossingFrameReceive n k lc data flips s = .next tT) : R tT := by
  unfold execCrossingFrameReceive at eE
  try dsimp only at eE
  repeat' split at eE
  all_goals try (injection eE with eE; subst eE)
  all_goals repeat' first
    | with_reducible assumption
    | exact hR.sub
    | exact fun h => memWf_memStore h
    | exact fun h => memWf_memPut h
    | exact fun h => memWf_filter _ h
    | exact fun _ => rfl
    | exact hR.sub (by decide +kernel) (subFld_self _ _)
    | with_reducible apply rel_ite
    | with_reducible apply State.bump_keeps
    | with_reducible apply State.dirNext_keeps
    | with_reducible apply State.flashMessage_keeps
    | with_reducible apply State.message_keeps
    | with_reducible apply State.packageReset_keeps
    | with_reducible apply State.powerOn_keeps
    | with_reducible apply State.raise_keeps
    | with_reducible apply State.reach_keeps
    | with_reducible apply State.setCrossing_keeps
    | fail_if_no_progress (with_reducible apply hR.upd; all_goals try first | with_reducible exact .inr rfl | exact .inl (by decide +kernel) | exact id)
    | dsimp only
    | intro _ _
    | intro _
    | contradiction
    | (unfold id)
    | split
    | (rename_i hh; injection hh with hh; subst hh)
    | (rename_i hh; split at hh)

theorem execCrossingFramesMissing_keeps {R : State → Prop} (hR : Keeps partsCrossingFramesMissing fieldsCrossingFramesMissing R) (n : Fin 8) (k : Fin 2) (lc : Fin 48) (s : State)
    (hI : R s) {tT : State} (eE : execCrossingFramesMissing n k lc s = .next tT) : R tT := by
  unfold execCrossingFramesMissing at eE
  try dsimp only at eE
  repeat' split at eE
  all_goals try (injection eE with eE; subst eE)
  all_goals repeat' first
    | with_reducible assumption
    | exact hR.sub
    | exact fun h => memWf_memStore h
    | exact fun h => memWf_memPut h
    | exact fun h => memWf_filter _ h
    | exact fun _ => rfl
    | with_reducible apply rel_ite
    | with_reducible apply State.dirNext_keeps
    | with_reducible apply State.flashMessage_keeps
    | with_reducible apply State.message_keeps
    | with_reducible apply State.packageReset_keeps
    | with_reducible apply State.powerOn_keeps
    | with_reducible apply State.reach_keeps
    | with_reducible apply State.setCrossing_keeps
    | fail_if_no_progress (with_reducible apply hR.upd; all_goals try first | with_reducible exact .inr rfl | exact .inl (by decide +kernel) | exact id)
    | dsimp only
    | intro _ _
    | intro _
    | contradiction
    | (unfold id)
    | split
    | (rename_i hh; injection hh with hh; subst hh)
    | (rename_i hh; split at hh)

end Sys2Proof.Machine
end

