-- ==== Sys2Proof/Laws/KeepsHostRings.lean ====
section
/-! SUPPORT. What the operations of `Machine/HostRings.lean` may change and what they keep. -/

namespace Sys2Proof.Machine

set_option Elab.async false
set_option linter.all false

theorem State.dbDrop_keeps {R : State → Prop} (hR : Keeps [.stewards] ⟨[], [], [], false⟩ R) (s : State) (f q off v : Nat)
    (hI : R s) : R (State.dbDrop s f q off v) := by
  unfold State.dbDrop
  try dsimp only
  repeat' first
    | with_reducible assumption
    | exact hR.sub
    | with_reducible apply rel_ite
    | with_reducible apply State.raiseFixed_keeps
    | dsimp only
    | intro _ _
    | intro _
    | contradiction
    | (unfold id)
    | split
    | (rename_i hh; injection hh with hh; subst hh)
    | (rename_i hh; split at hh)

theorem State.doorbell_keeps {R : State → Prop} (hR : Keeps [.regs, .stewards, .qps] ⟨[.HIF_QP_STAT_ERR], [], [], false⟩ R) (s : State) (f q off v size : Nat) (k : QpRt → QpRt)
    (hI : R s) : R (State.doorbell s f q off v size k) := by
  unfold State.doorbell
  try dsimp only
  repeat' first
    | with_reducible assumption
    | exact hR.sub
    | with_reducible apply rel_ite
    | with_reducible refine hR.wr _ _ _ (by decide +kernel) (by first | decide +kernel | exact hasFld_self _ _ | exact hasFld_all _ | (simp [hasFld]; done) ) ?_
    | with_reducible apply State.dbDrop_keeps
    | with_reducible apply State.setQp_keeps
    | dsimp only
    | intro _ _
    | intro _
    | contradiction
    | (unfold id)
    | split
    | (rename_i hh; injection hh with hh; subst hh)
    | (rename_i hh; split at hh)

theorem execDbSqTail_keeps {R : State → Prop} (hR : Keeps partsDbSqTail fieldsDbSqTail R) (f : Fin 8) (q : Fin 1024) (v : BitVec 32) (s : State)
    (hI : R s) {tT : State} (eE : execDbSqTail f q v s = .next tT) : R tT := by
  unfold execDbSqTail at eE
  try dsimp only at eE
  repeat' split at eE
  all_goals try (injection eE with eE; subst eE)
  all_goals repeat' first
    | with_reducible assumption
    | exact hR.sub
    | exact fun h => memWf_memStore h
    | exact fun h => memWf_memPut h
    | exact fun h => memWf_filter _ h
    | exact fun _ => rfl
    | with_reducible apply rel_ite
    | with_reducible apply State.dirNext_keeps
    | with_reducible apply State.doorbell_keeps
    | with_reducible apply State.flashMessage_keeps
    | with_reducible apply State.message_keeps
    | with_reducible apply State.packageReset_keeps
    | with_reducible apply State.powerOn_keeps
    | with_reducible apply State.reach_keeps
    | fail_if_no_progress (with_reducible apply hR.upd; all_goals try first | with_reducible exact .inr rfl | exact .inl (by decide +kernel) | exact id)
    | dsimp only
    | intro _ _
    | intro _
    | contradiction
    | (unfold id)
    | split
    | (rename_i hh; injection hh with hh; subst hh)
    | (rename_i hh; split at hh)

theorem execDbCqHead_keeps {R : State → Prop} (hR : Keeps partsDbCqHead fieldsDbCqHead R) (f : Fin 8) (q : Fin 1024) (v : BitVec 32) (s : State)
    (hI : R s) {tT : State} (eE : execDbCqHead f q v s = .next tT) : R tT := by
  unfold execDbCqHead at eE
  try dsimp only at eE
  repeat' split at eE
  all_goals try (injection eE with eE; subst eE)
  all_goals repeat' first
    | with_reducible assumption
    | exact hR.sub
    | exact fun h => memWf_memStore h
    | exact fun h => memWf_memPut h
    | exact fun h => memWf_filter _ h
    | exact fun _ => rfl
    | with_reducible apply rel_ite
    | with_reducible apply State.dirNext_keeps
    | with_reducible apply State.doorbell_keeps
    | with_reducible apply State.flashMessage_keeps
    | with_reducible apply State.message_keeps
    | with_reducible apply State.packageReset_keeps
    | with_reducible apply State.powerOn_keeps
    | with_reducible apply State.reach_keeps
    | with_reducible apply State.settle_keeps
    | fail_if_no_progress (with_reducible apply hR.upd; all_goals try first | with_reducible exact .inr rfl | exact .inl (by decide +kernel) | exact id)
    | dsimp only
    | intro _ _
    | intro _
    | contradiction
    | (unfold id)
    | split
    | (rename_i hh; injection hh with hh; subst hh)
    | (rename_i hh; split at hh)

theorem State.qpWrite_keeps {R : State → Prop} (hR : Keeps [.stewards, .rstUnlock] ⟨[], [], [], false⟩ R) (s : State) (w : Writer) (q en : Nat) (k : State → State)
    (hI : R s) (hk : ∀  s, R s → R (k  s)) : R (State.qpWrite s w q en k) := by
  unfold State.qpWrite
  try dsimp only
  repeat' first
    | with_reducible assumption
    | exact hR.sub
    | with_reducible apply rel_ite
    | (with_reducible apply hk)
    | with_reducible apply State.dropF_keeps
    | with_reducible apply State.reach_keeps
    | dsimp only
    | intro _ _
    | intro _
    | contradiction
    | (unfold id)
    | split
    | (rename_i hh; injection hh with hh; subst hh)
    | (rename_i hh; split at hh)

theorem execQpEnable_keeps {R : State → Prop} (hR : Keeps partsQpEnable fieldsQpEnable R) (w : Writer) (q : Fin 1024) (s : State)
    (hI : R s) {tT : State} (eE : execQpEnable w q s = .next tT) : R tT := by
  unfold execQpEnable at eE
  try dsimp only at eE
  repeat' split at eE
  all_goals try (injection eE with eE; subst eE)
  all_goals repeat' first
    | with_reducible assumption
    | exact hR.sub
    | exact fun h => memWf_memStore h
    | exact fun h => memWf_memPut h
    | exact fun h => memWf_filter _ h
    | exact fun _ => rfl
    | with_reducible apply rel_ite
    | with_reducible refine hR.wr _ _ _ (by decide +kernel) (by first | decide +kernel | exact hasFld_self _ _ | exact hasFld_all _ | (simp [hasFld]; done) ) ?_
    | with_reducible apply State.dirNext_keeps
    | with_reducible apply State.dropF_keeps
    | with_reducible apply State.flashMessage_keeps
    | with_reducible apply State.message_keeps
    | with_reducible apply State.packageReset_keeps
    | with_reducible apply State.powerOn_keeps
    | with_reducible apply State.qpDrop_keeps
    | with_reducible apply State.qpWrite_keeps
    | with_reducible apply State.reach_keeps
    | with_reducible apply State.setQp_keeps
    | fail_if_no_progress (with_reducible apply hR.upd; all_goals try first | with_reducible exact .inr rfl | exact .inl (by decide +kernel) | exact id)
    | dsimp only
    | intro _ _
    | intro _
    | contradiction
    | (unfold id)
    | split
    | (rename_i hh; injection hh with hh; subst hh)
    | (rename_i hh; split at hh)

theorem execQpDisable_keeps {R : State → Prop} (hR : Keeps partsQpDisable fieldsQpDisable R) (w : Writer) (q : Fin 1024) (s : State)
    (hI : R s) {tT : State} (eE : execQpDisable w q s = .next tT) : R tT := by
  unfold execQpDisable at eE
  try dsimp only at eE
  repeat' split at eE
  all_goals try (injection eE with eE; subst eE)
  all_goals repeat' first
    | with_reducible assumption
    | exact hR.sub
    | exact fun h => memWf_memStore h
    | exact fun h => memWf_memPut h
    | exact fun h => memWf_filter _ h
    | exact fun _ => rfl
    | with_reducible apply rel_ite
    | with_reducible refine hR.wr _ _ _ (by decide +kernel) (by first | decide +kernel | exact hasFld_self _ _ | exact hasFld_all _ | (simp [hasFld]; done) ) ?_
    | with_reducible apply State.dirNext_keeps
    | with_reducible apply State.flashMessage_keeps
    | with_reducible apply State.message_keeps
    | with_reducible apply State.packageReset_keeps
    | with_reducible apply State.powerOn_keeps
    | with_reducible apply State.qpDrop_keeps
    | with_reducible apply State.qpWrite_keeps
    | with_reducible apply State.reach_keeps
    | fail_if_no_progress (with_reducible apply hR.upd; all_goals try first | with_reducible exact .inr rfl | exact .inl (by decide +kernel) | exact id)
    | dsimp only
    | intro _ _
    | intro _
    | contradiction
    | (unfold id)
    | split
    | (rename_i hh; injection hh with hh; subst hh)
    | (rename_i hh; split at hh)

theorem execDescriptorFetch_keeps {R : State → Prop} (hR : Keeps partsDescriptorFetch fieldsDescriptorFetch R) (desc : Option (BitVec 512)) (s : State)
    (hI : R s) {tT : State} (eE : execDescriptorFetch desc s = .next tT) : R tT := by
  unfold execDescriptorFetch at eE
  try dsimp only at eE
  repeat' split at eE
  all_goals try (injection eE with eE; subst eE)
  all_goals repeat' first
    | with_reducible assumption
    | exact hR.sub
    | exact fun h => memWf_memStore h
    | exact fun h => memWf_memPut h
    | exact fun h => memWf_filter _ h
    | exact fun _ => rfl
    | with_reducible apply rel_ite
    | with_reducible refine hR.wr _ _ _ (by decide +kernel) (by first | decide +kernel | exact hasFld_self _ _ | exact hasFld_all _ | (simp [hasFld]; done) ) ?_
    | with_reducible apply State.dirNext_keeps
    | with_reducible apply State.flashMessage_keeps
    | with_reducible apply State.message_keeps
    | with_reducible apply State.packageReset_keeps
    | with_reducible apply State.powerOn_keeps
    | with_reducible apply State.qpError_keeps
    | with_reducible apply State.reach_keeps
    | with_reducible apply State.setQp_keeps
    | with_reducible apply State.settle_keeps
    | fail_if_no_progress (with_reducible apply hR.upd; all_goals try first | with_reducible exact .inr rfl | exact .inl (by decide +kernel) | exact id)
    | dsimp only
    | intro _ _
    | intro _
    | contradiction
    | (unfold id)
    | split
    | (rename_i hh; injection hh with hh; subst hh)
    | (rename_i hh; split at hh)

theorem State.startOp_keeps {R : State → Prop} (hR : Keeps [.qps] ⟨[], [], [], false⟩ R) (s : State) (q opc : Nat) (k : Nat → Nat → Nat → State → State)
    (hI : R s) (hk : ∀ n d f s, R s → R (k n d f s)) : R (State.startOp s q opc k) := by
  unfold State.startOp
  repeat' first
    | with_reducible assumption
    | exact hR.sub
    | with_reducible apply hk
    | with_reducible apply State.setJob_keeps
    | split

theorem State.runNop_keeps {R : State → Prop} (hR : Keeps [.regs, .stewards, .qps, .cfgWait] ⟨[.HIF_QP_DONE_CNT_COUNT, .HIF_QP_STAT_STATE], [], [], false⟩ R) (s : State) (q opc : Nat)
    (hI : R s) : R (State.runNop s q opc) := by
  unfold State.runNop
  try dsimp only
  repeat' first
    | with_reducible assumption
    | exact hR.sub
    | with_reducible apply rel_ite
    | with_reducible apply State.jobDone_keeps
    | with_reducible apply State.startOp_keeps
    | dsimp only
    | intro _ _
    | intro _
    | contradiction
    | (unfold id)
    | split
    | (rename_i hh; injection hh with hh; subst hh)
    | (rename_i hh; split at hh)

theorem execNop_keeps {R : State → Prop} (hR : Keeps partsNop fieldsNop R) (q : Fin 1024) (s : State)
    (hI : R s) {tT : State} (eE : execNop q s = .next tT) : R tT := by
  unfold execNop at eE
  try dsimp only at eE
  repeat' split at eE
  all_goals try (injection eE with eE; subst eE)
  all_goals repeat' first
    | with_reducible assumption
    | exact hR.sub
    | with_reducible apply rel_ite
    | with_reducible apply State.dirNext_keeps
    | with_reducible apply State.flashMessage_keeps
    | with_reducible apply State.message_keeps
    | with_reducible apply State.packageReset_keeps
    | with_reducible apply State.powerOn_keeps
    | with_reducible apply State.reach_keeps
    | with_reducible apply State.runNop_keeps
    | dsimp only
    | intro _ _
    | intro _
    | contradiction
    | (unfold id)
    | split
    | (rename_i hh; injection hh with hh; subst hh)
    | (rename_i hh; split at hh)

theorem execFence_keeps {R : State → Prop} (hR : Keeps partsFence fieldsFence R) (q : Fin 1024) (s : State)
    (hI : R s) {tT : State} (eE : execFence q s = .next tT) : R tT := by
  unfold execFence at eE
  try dsimp only at eE
  repeat' split at eE
  all_goals try (injection eE with eE; subst eE)
  all_goals repeat' first
    | with_reducible assumption
    | exact hR.sub
    | with_reducible apply rel_ite
    | with_reducible apply State.dirNext_keeps
    | with_reducible apply State.flashMessage_keeps
    | with_reducible apply State.message_keeps
    | with_reducible apply State.packageReset_keeps
    | with_reducible apply State.powerOn_keeps
    | with_reducible apply State.reach_keeps
    | with_reducible apply State.runNop_keeps
    | dsimp only
    | intro _ _
    | intro _
    | contradiction
    | (unfold id)
    | split
    | (rename_i hh; injection hh with hh; subst hh)
    | (rename_i hh; split at hh)

theorem State.jobLines_keeps {R : State → Prop} (hR : Keeps [.qps] ⟨[], [], [], false⟩ R) (s : State) (q n k size base : Nat)
    (hI : R s) : R (State.jobLines s q n k size base) := by
  unfold State.jobLines
  try dsimp only
  repeat' first
    | with_reducible assumption
    | exact hR.sub
    | exact fun h => memWf_memStore h
    | exact fun h => memWf_memPut h
    | exact fun h => memWf_filter _ h
    | exact fun _ => rfl
    | with_reducible apply rel_ite
    | with_reducible apply State.setJob_keeps
    | fail_if_no_progress (with_reducible apply hR.upd; all_goals try first | with_reducible exact .inr rfl | exact .inl (by decide +kernel) | exact id)
    | dsimp only
    | intro _ _
    | intro _
    | contradiction
    | (unfold id)
    | split
    | (rename_i hh; injection hh with hh; subst hh)
    | (rename_i hh; split at hh)

theorem State.runMove_keeps {R : State → Prop} (hR : Keeps [.regs, .stewards, .qps, .cfgWait] ⟨[.HIF_QP_DONE_CNT_COUNT, .HIF_QP_STAT_STATE], [], [], false⟩ R) (s : State) (q opc : Nat)
    (hI : R s) : R (State.runMove s q opc) := by
  unfold State.runMove
  try dsimp only
  repeat' first
    | with_reducible assumption
    | exact hR.sub
    | with_reducible apply rel_ite
    | with_reducible apply State.jobDone_keeps
    | with_reducible apply State.jobLines_keeps
    | with_reducible apply State.startOp_keeps
    | dsimp only
    | intro _ _
    | intro _
    | contradiction
    | (unfold id)
    | split
    | (rename_i hh; injection hh with hh; subst hh)
    | (rename_i hh; split at hh)

theorem execH2d_keeps {R : State → Prop} (hR : Keeps partsH2d fieldsH2d R) (q : Fin 1024) (s : State)
    (hI : R s) {tT : State} (eE : execH2d q s = .next tT) : R tT := by
  unfold execH2d at eE
  try dsimp only at eE
  repeat' split at eE
  all_goals try (injection eE with eE; subst eE)
  all_goals repeat' first
    | with_reducible assumption
    | exact hR.sub
    | with_reducible apply rel_ite
    | with_reducible apply State.dirNext_keeps
    | with_reducible apply State.flashMessage_keeps
    | with_reducible apply State.message_keeps
    | with_reducible apply State.packageReset_keeps
    | with_reducible apply State.powerOn_keeps
    | with_reducible apply State.reach_keeps
    | with_reducible apply State.runMove_keeps
    | dsimp only
    | intro _ _
    | intro _
    | contradiction
    | (unfold id)
    | split
    | (rename_i hh; injection hh with hh; subst hh)
    | (rename_i hh; split at hh)

theorem execD2h_keeps {R : State → Prop} (hR : Keeps partsD2h fieldsD2h R) (q : Fin 1024) (s : State)
    (hI : R s) {tT : State} (eE : execD2h q s = .next tT) : R tT := by
  unfold execD2h at eE
  try dsimp only at eE
  repeat' split at eE
  all_goals try (injection eE with eE; subst eE)
  all_goals repeat' first
    | with_reducible assumption
    | exact hR.sub
    | with_reducible apply rel_ite
    | with_reducible apply State.dirNext_keeps
    | with_reducible apply State.flashMessage_keeps
    | with_reducible apply State.message_keeps
    | with_reducible apply State.packageReset_keeps
    | with_reducible apply State.powerOn_keeps
    | with_reducible apply State.reach_keeps
    | with_reducible apply State.runMove_keeps
    | dsimp only
    | intro _ _
    | intro _
    | contradiction
    | (unfold id)
    | split
    | (rename_i hh; injection hh with hh; subst hh)
    | (rename_i hh; split at hh)

theorem execD2d_keeps {R : State → Prop} (hR : Keeps partsD2d fieldsD2d R) (q : Fin 1024) (s : State)
    (hI : R s) {tT : State} (eE : execD2d q s = .next tT) : R tT := by
  unfold execD2d at eE
  try dsimp only at eE
  repeat' split at eE
  all_goals try (injection eE with eE; subst eE)
  all_goals repeat' first
    | with_reducible assumption
    | exact hR.sub
    | with_reducible apply rel_ite
    | with_reducible apply State.dirNext_keeps
    | with_reducible apply State.flashMessage_keeps
    | with_reducible apply State.message_keeps
    | with_reducible apply State.packageReset_keeps
    | with_reducible apply State.powerOn_keeps
    | with_reducible apply State.reach_keeps
    | with_reducible apply State.runMove_keeps
    | dsimp only
    | intro _ _
    | intro _
    | contradiction
    | (unfold id)
    | split
    | (rename_i hh; injection hh with hh; subst hh)
    | (rename_i hh; split at hh)

theorem State.engineFor_keeps {R : State → Prop} (hR : Keeps [.regs, .stewards, .qps, .cfgWait] ⟨[.HIF_QP_DONE_CNT_COUNT, .HIF_QP_STAT_STATE], [], [], false⟩ R) (s : State) (q n e f : Nat) (k : State → State)
    (hI : R s) (hk : ∀  s, R s → R (k  s)) : R (State.engineFor s q n e f k) := by
  unfold State.engineFor
  try dsimp only
  repeat' first
    | with_reducible assumption
    | exact hR.sub
    | with_reducible apply rel_ite
    | (with_reducible apply hk)
    | with_reducible apply State.jobDone_keeps
    | dsimp only
    | intro _ _
    | intro _
    | contradiction
    | (unfold id)
    | split
    | (rename_i hh; injection hh with hh; subst hh)
    | (rename_i hh; split at hh)

theorem execEngLoad_keeps {R : State → Prop} (hR : Keeps partsEngLoad fieldsEngLoad R) (q : Fin 1024) (s : State)
    (hI : R s) {tT : State} (eE : execEngLoad q s = .next tT) : R tT := by
  unfold execEngLoad at eE
  try dsimp only at eE
  repeat' split at eE
  all_goals try (injection eE with eE; subst eE)
  all_goals repeat' first
    | with_reducible assumption
    | exact hR.sub
    | with_reducible apply rel_ite
    | with_reducible apply State.dirNext_keeps
    | with_reducible apply State.engineFor_keeps
    | with_reducible apply State.flashMessage_keeps
    | with_reducible apply State.jobDone_keeps
    | with_reducible apply State.jobLines_keeps
    | with_reducible apply State.message_keeps
    | with_reducible apply State.packageReset_keeps
    | with_reducible apply State.powerOn_keeps
    | with_reducible apply State.reach_keeps
    | with_reducible apply State.startOp_keeps
    | dsimp only
    | intro _ _
    | intro _
    | contradiction
    | (unfold id)
    | split
    | (rename_i hh; injection hh with hh; subst hh)
    | (rename_i hh; split at hh)

theorem execFailDrain_keeps {R : State → Prop} (hR : Keeps partsFailDrain fieldsFailDrain R) (q : Fin 1024) (s : State)
    (hI : R s) {tT : State} (eE : execFailDrain q s = .next tT) : R tT := by
  unfold execFailDrain at eE
  try dsimp only at eE
  repeat' split at eE
  all_goals try (injection eE with eE; subst eE)
  all_goals repeat' first
    | with_reducible assumption
    | exact hR.sub
    | exact fun h => memWf_memStore h
    | exact fun h => memWf_memPut h
    | exact fun h => memWf_filter _ h
    | exact fun _ => rfl
    | with_reducible apply rel_ite
    | with_reducible apply State.dirNext_keeps
    | with_reducible apply State.engineFor_keeps
    | with_reducible apply State.flashMessage_keeps
    | with_reducible apply State.jobDone_keeps
    | with_reducible apply State.jobLines_keeps
    | with_reducible apply State.message_keeps
    | with_reducible apply State.packageReset_keeps
    | with_reducible apply State.powerOn_keeps
    | with_reducible apply State.reach_keeps
    | with_reducible apply State.startOp_keeps
    | fail_if_no_progress (with_reducible apply hR.upd; all_goals try first | with_reducible exact .inr rfl | exact .inl (by decide +kernel) | exact id)
    | dsimp only
    | intro _ _
    | intro _
    | contradiction
    | (unfold id)
    | split
    | (rename_i hh; injection hh with hh; subst hh)
    | (rename_i hh; split at hh)

def opPartsLineRead : List Part :=
  [.regs, .draws, .stewards, .hbm, .poison, .rcLines, .rcWb, .sf, .sfAge, .haIn, .homeOut, .ccache]
def opFieldsLineRead : FSet :=
  ⟨[.HA_BACKINV_CNT_COUNT, .HA_STAT_RECALL, .HA_STAT_SF_LEVEL, .RC_HIT_CNT_COUNT, .RC_MISS_CNT_COUNT, .RC_SNP_CNT_COUNT,
    .RC_STAT_RETAINED, .RC_WB_CNT_COUNT, .SEAL_CC_MISS_CNT_COUNT, .SEAL_DENY_CNT_COUNT, .SEAL_ERR_ADDR_HI_ADDR,
    .SEAL_ERR_ADDR_LO_ADDR, .SEAL_ERR_CODE, .SEAL_ERR_LEVEL, .SEAL_ERR_RANGE, .SEAL_ERR_VALID], [], [], false⟩

theorem State.lineRead_keeps {R : State → Prop} (hR : Keeps opPartsLineRead opFieldsLineRead R) (s : State) (f g : Nat) (v : LineEnv)
    (hI : R s) : R (State.lineRead s f g v).2.2 := by
  unfold State.lineRead
  try dsimp only
  repeat' first
    | with_reducible assumption
    | exact hR.sub
    | with_reducible apply rel_ite
    | with_reducible apply State.gRead_keeps
    | with_reducible apply State.refuse19_keeps
    | (refine State.gRead_keeps_of hR.sub _ _ _ _ ?_ (by assumption))
    | dsimp only
    | intro _ _
    | intro _
    | contradiction
    | (unfold id)
    | split
    | (rename_i hh; injection hh with hh; subst hh)
    | (rename_i hh; split at hh)

theorem State.lineRead_keeps_of {R : State → Prop} (hR : Keeps opPartsLineRead opFieldsLineRead R) (s : State) (f g : Nat) (v : LineEnv)
    (hI : R s) {a : Nat} {b : Nat} {tT : State} (eE : State.lineRead s f g v = (a, b, tT)) : R tT := by
  have h := State.lineRead_keeps hR s f g v hI
  rw [eE] at h
  exact h

def opPartsLineWrite : List Part :=
  [.regs, .out, .draws, .stewards, .eng, .hbm, .poison, .win, .rcLines, .rcWb, .sf, .sfAge, .haIn, .homeOut, .leafMaj,
    .leafMin, .ccache, .hwm]
def opFieldsLineWrite : FSet :=
  ⟨[.HA_BACKINV_CNT_COUNT, .HA_STAT_RECALL, .HA_STAT_SF_LEVEL, .HBM_ERR_ADDR_HI_ADDR, .HBM_ERR_ADDR_LO_ADDR,
    .HBM_ERR_CH, .HBM_ERR_CODE, .HBM_ERR_PC, .HBM_ERR_SID, .HBM_ERR_VALID, .RC_HIT_CNT_COUNT, .RC_MISS_CNT_COUNT,
    .RC_SNP_CNT_COUNT, .RC_STAT_RETAINED, .RC_WB_CNT_COUNT, .SEAL_CC_MISS_CNT_COUNT, .SEAL_DENY_CNT_COUNT,
    .SEAL_ERR_ADDR_HI_ADDR, .SEAL_ERR_ADDR_LO_ADDR, .SEAL_ERR_CODE, .SEAL_ERR_LEVEL, .SEAL_ERR_RANGE, .SEAL_ERR_VALID,
    .SEAL_OVF_CNT_COUNT, .SEAL_RSTAT_FREEZE, .SEAL_RSTAT_STATE], [], [], false⟩

theorem State.lineWrite_keeps {R : State → Prop} (hR : Keeps opPartsLineWrite opFieldsLineWrite R) (s : State) (f g data : Nat) (v : LineEnv)
    (hI : R s) : R (State.lineWrite s f g data v).2 := by
  unfold State.lineWrite
  try dsimp only
  repeat' first
    | with_reducible assumption
    | exact hR.sub
    | with_reducible apply rel_ite
    | with_reducible refine hR.wr _ _ _ (by decide +kernel) (by first | decide +kernel | exact hasFld_self _ _ | exact hasFld_all _ | (simp [hasFld]; done) ) ?_
    | with_reducible apply State.gWrite_keeps
    | with_reducible apply State.refuse19_keeps
    | (refine State.gWrite_keeps_of hR.sub _ _ _ _ _ _ ?_ (by assumption))
    | dsimp only
    | intro _ _
    | intro _
    | contradiction
    | (unfold id)
    | split
    | (rename_i hh; injection hh with hh; subst hh)
    | (rename_i hh; split at hh)

theorem State.lineWrite_keeps_of {R : State → Prop} (hR : Keeps opPartsLineWrite opFieldsLineWrite R) (s : State) (f g data : Nat) (v : LineEnv)
    (hI : R s) {a : Nat} {tT : State} (eE : State.lineWrite s f g data v = (a, tT)) : R tT := by
  have h := State.lineWrite_keeps hR s f g data v hI
  rw [eE] at h
  exact h

theorem State.hostLine_keeps {R : State → Prop} (hR : Keeps [.out] ⟨[], [], [], false⟩ R) (s : State) (f a data : Nat)
    (hI : R s) : R (State.hostLine s f a data) := by
  unfold State.hostLine
  try dsimp only
  repeat' first
    | with_reducible assumption
    | exact hR.sub
    | with_reducible apply rel_ite
    | with_reducible apply State.hostData_keeps
    | dsimp only
    | intro _ _
    | intro _
    | contradiction
    | (unfold id)
    | split
    | (rename_i hh; injection hh with hh; subst hh)
    | (rename_i hh; split at hh)

def opPartsMoveLine : List Part :=
  [.regs, .out, .draws, .stewards, .eng, .hbm, .poison, .win, .rcLines, .rcWb, .sf, .sfAge, .haIn, .homeOut, .leafMaj,
    .leafMin, .ccache, .hwm]
def opFieldsMoveLine : FSet :=
  ⟨[.HA_BACKINV_CNT_COUNT, .HA_STAT_RECALL, .HA_STAT_SF_LEVEL, .HBM_ERR_ADDR_HI_ADDR, .HBM_ERR_ADDR_LO_ADDR,
    .HBM_ERR_CH, .HBM_ERR_CODE, .HBM_ERR_PC, .HBM_ERR_SID, .HBM_ERR_VALID, .RC_HIT_CNT_COUNT, .RC_MISS_CNT_COUNT,
    .RC_SNP_CNT_COUNT, .RC_STAT_RETAINED, .RC_WB_CNT_COUNT, .SEAL_CC_MISS_CNT_COUNT, .SEAL_DENY_CNT_COUNT,
    .SEAL_ERR_ADDR_HI_ADDR, .SEAL_ERR_ADDR_LO_ADDR, .SEAL_ERR_CODE, .SEAL_ERR_LEVEL, .SEAL_ERR_RANGE, .SEAL_ERR_VALID,
    .SEAL_OVF_CNT_COUNT, .SEAL_RSTAT_FREEZE, .SEAL_RSTAT_STATE], [], [], false⟩

theorem State.moveLine_keeps {R : State → Prop} (hR : Keeps opPartsMoveLine opFieldsMoveLine R) (s : State) (f : Nat) (j : Job) (v : LineEnv)
    (hI : R s) : R (State.moveLine s f j v).2.2 := by
  have h1 : ∀ f g v, R (State.lineRead s f g v).2.2 := fun f g v => State.lineRead_keeps hR.sub s f g v hI
  have h2 : ∀ s f g d v, R s → R (State.lineWrite s f g d v).2 := fun s f g d v h => State.lineWrite_keeps hR.sub s f g d v h
  have h3 : ∀ m g e, R (State.gRead s m g e).2.2 := fun m g e => State.gRead_keeps hR.sub s m g e hI
  have h4 : ∀ m g d b e, R (State.gWrite s m g d b e).2 := fun m g d b e => State.gWrite_keeps hR.sub s m g d b e hI
  unfold State.moveLine
  revert h1 h2 h3 h4
  generalize State.lineRead = R0
  generalize State.lineWrite = W
  generalize State.gRead = G
  generalize State.gWrite = H
  intro h1 h2 h3 h4
  generalize v.data % 2 ^ 512 = xx
  extract_lets o d
  clear_value o d
  split
  · split
    · exact hI
    · generalize hg : W s _ _ _ _ = p
      have h : R p.2 := by rw [← hg]; exact h2 _ _ _ _ _ hI
      obtain ⟨c, s1⟩ := p
      exact h
  · generalize hg : R0 s _ _ _ = p
    have h : R p.2.2 := by rw [← hg]; exact h1 _ _ _
    obtain ⟨x, c, s1⟩ := p
    exact rel_ite (State.hostLine_keeps hR.sub _ _ _ _ h) h
  · generalize hg : R0 s _ _ _ = p
    have h : R p.2.2 := by rw [← hg]; exact h1 _ _ _
    obtain ⟨x, c, s1⟩ := p
    by_cases hc : c ≠ 0
    · simp only [if_pos hc]; exact h
    · simp only [if_neg hc]
      generalize hg : W s1 _ _ _ _ = p
      have h : R p.2 := by rw [← hg]; exact h2 _ _ _ _ _ h
      obtain ⟨c, s1⟩ := p
      exact h
  · split
    · exact hI
    · split
      · exact hI
      · generalize hg : H s _ _ _ _ _ = p
        have h : R p.2 := by rw [← hg]; exact h4 _ _ _ _ _
        obtain ⟨c, s1⟩ := p
        exact h
  · split
    · exact hI
    · generalize hg : G s _ _ _ = p
      have h : R p.2.2 := by rw [← hg]; exact h3 _ _ _
      obtain ⟨x, c, s1⟩ := p
      exact rel_ite (State.hostLine_keeps hR.sub _ _ _ _ h) h

theorem State.moveLine_keeps_of {R : State → Prop} (hR : Keeps opPartsMoveLine opFieldsMoveLine R) (s : State) (f : Nat) (j : Job) (v : LineEnv)
    (hI : R s) {a : Nat} {b : Nat} {tT : State} (eE : State.moveLine s f j v = (a, b, tT)) : R tT := by
  have h := State.moveLine_keeps hR s f j v hI
  rw [eE] at h
  exact h

theorem execDmaLineComplete_keeps {R : State → Prop} (hR : Keeps partsDmaLineComplete fieldsDmaLineComplete R) (q : Fin 1024) (n : Fin 64) (data : BitVec 512) (rd wr : Fin 4) (fault : Bool) (s : State)
    (hI : R s) {tT : State} (eE : execDmaLineComplete q n data rd wr fault s = .next tT) : R tT := by
  unfold execDmaLineComplete at eE
  try dsimp only at eE
  repeat' split at eE
  all_goals try (injection eE with eE; subst eE)
  all_goals repeat' first
    | with_reducible assumption
    | exact hR.sub
    | exact fun h => memWf_memStore h
    | exact fun h => memWf_memPut h
    | exact fun h => memWf_filter _ h
    | exact fun _ => rfl
    | with_reducible apply rel_ite
    | with_reducible refine hR.wr _ _ _ (by decide +kernel) (by first | decide +kernel | exact hasFld_self _ _ | exact hasFld_all _ | (simp [hasFld]; done) ) ?_
    | with_reducible apply State.dirNext_keeps
    | with_reducible apply State.flashMessage_keeps
    | with_reducible apply State.jobDone_keeps
    | with_reducible apply State.message_keeps
    | with_reducible apply State.moveLine_keeps
    | with_reducible apply State.packageReset_keeps
    | with_reducible apply State.powerOn_keeps
    | with_reducible apply State.reach_keeps
    | with_reducible apply State.setJob_keeps
    | (refine State.moveLine_keeps_of hR.sub _ _ _ _ ?_ (by assumption))
    | fail_if_no_progress (with_reducible apply hR.upd; all_goals try first | with_reducible exact .inr rfl | exact .inl (by decide +kernel) | exact id)
    | dsimp only
    | intro _ _
    | intro _
    | contradiction
    | (unfold id)
    | split
    | (rename_i hh; injection hh with hh; subst hh)
    | (rename_i hh; split at hh)

theorem State.runEngines_keeps {R : State → Prop} (hR : Keeps [.regs, .stewards, .qps, .cfgWait] ⟨[.HIF_QP_DONE_CNT_COUNT, .HIF_QP_STAT_STATE], [], [], false⟩ R) (s : State) (q opc : Nat) (cmd : Nat → Nat → Writer → State → State)
    (hI : R s) (hc : ∀ d e w s, R s → R (cmd d e w s)) : R (State.runEngines s q opc cmd) := by
  unfold State.runEngines
  refine State.startOp_keeps hR.sub _ _ _ _ hI (fun n d f s h => ?_)
  try dsimp only
  split
  · exact State.jobDone_keeps hR.sub _ _ _ _ _ _ h
  · exact rel_foldl (fun s a h => hc _ _ _ _ h) _ h

theorem execEngStart_keeps {R : State → Prop} (hR : Keeps partsEngStart fieldsEngStart R) (q : Fin 1024) (s : State)
    (hI : R s) {tT : State} (eE : execEngStart q s = .next tT) : R tT := by
  unfold execEngStart at eE
  try dsimp only at eE
  repeat' split at eE
  all_goals try (injection eE with eE; subst eE)
  all_goals repeat' first
    | with_reducible assumption
    | exact hR.sub
    | with_reducible apply rel_ite
    | with_reducible apply State.dirNext_keeps
    | with_reducible apply State.engCmd_keeps
    | with_reducible apply State.engStart_keeps
    | with_reducible apply State.flashMessage_keeps
    | with_reducible apply State.message_keeps
    | with_reducible apply State.packageReset_keeps
    | with_reducible apply State.powerOn_keeps
    | with_reducible apply State.reach_keeps
    | with_reducible apply State.runEngines_keeps
    | dsimp only
    | intro _ _
    | intro _
    | contradiction
    | (unfold id)
    | split
    | (rename_i hh; injection hh with hh; subst hh)
    | (rename_i hh; split at hh)

theorem execEngStop_keeps {R : State → Prop} (hR : Keeps partsEngStop fieldsEngStop R) (q : Fin 1024) (s : State)
    (hI : R s) {tT : State} (eE : execEngStop q s = .next tT) : R tT := by
  unfold execEngStop at eE
  try dsimp only at eE
  repeat' split at eE
  all_goals try (injection eE with eE; subst eE)
  all_goals repeat' first
    | with_reducible assumption
    | exact hR.sub
    | with_reducible apply rel_ite
    | with_reducible apply State.dirNext_keeps
    | with_reducible apply State.engCmd_keeps
    | with_reducible apply State.engReset_keeps
    | with_reducible apply State.engStop_keeps
    | with_reducible apply State.flashMessage_keeps
    | with_reducible apply State.message_keeps
    | with_reducible apply State.packageReset_keeps
    | with_reducible apply State.powerOn_keeps
    | with_reducible apply State.reach_keeps
    | with_reducible apply State.runEngines_keeps
    | dsimp only
    | intro _ _
    | intro _
    | contradiction
    | (unfold id)
    | split
    | (rename_i hh; injection hh with hh; subst hh)
    | (rename_i hh; split at hh)

theorem State.jobWaits_keeps {R : State → Prop} (hR : Keeps [.regs, .stewards, .qps, .cfgWait] ⟨[.HIF_QP_DONE_CNT_COUNT, .HIF_QP_STAT_STATE], [], [], false⟩ R) (s : State) (q n : Nat)
    (hI : R s) : R (State.jobWaits s q n) := by
  unfold State.jobWaits
  try dsimp only
  repeat' first
    | with_reducible assumption
    | exact hR.sub
    | exact fun h => memWf_memStore h
    | exact fun h => memWf_memPut h
    | exact fun h => memWf_filter _ h
    | exact fun _ => rfl
    | with_reducible apply rel_ite
    | with_reducible apply State.jobDone_keeps
    | fail_if_no_progress (with_reducible apply hR.upd; all_goals try first | with_reducible exact .inr rfl | exact .inl (by decide +kernel) | exact id)
    | dsimp only
    | intro _ _
    | intro _
    | contradiction
    | (unfold id)
    | split
    | (rename_i hh; injection hh with hh; subst hh)
    | (rename_i hh; split at hh)

theorem State.writeEntry_keeps {R : State → Prop} (hR : Keeps [.regs, .out, .stewards, .qps, .vecs, .cfgWait] ⟨[.HIF_QP_DONE_CNT_COUNT, .HIF_QP_HEAD_CQ_TAIL, .HIF_QP_STAT_ERR, .HIF_QP_STAT_PHASE, .HIF_QP_STAT_STATE], [], [], false⟩ R) (s : State) (q n : Nat) (j : Job) (ok : Bool)
    (hI : R s) : R (State.writeEntry s q n j ok) := by
  unfold State.writeEntry
  try dsimp only
  repeat' first
    | with_reducible assumption
    | exact hR.sub
    | with_reducible apply rel_ite
    | with_reducible refine hR.wr _ _ _ (by decide +kernel) (by first | decide +kernel | exact hasFld_self _ _ | exact hasFld_all _ | (simp [hasFld]; done) ) ?_
    | with_reducible apply State.emit_keeps
    | with_reducible apply State.jobGone_keeps
    | with_reducible apply State.qpError_keeps
    | with_reducible apply State.raiseQp_keeps
    | with_reducible apply State.settle_keeps
    | dsimp only
    | intro _ _
    | intro _
    | contradiction
    | (unfold id)
    | split
    | (rename_i hh; injection hh with hh; subst hh)
    | (rename_i hh; split at hh)

theorem execCompletionWrite_keeps {R : State → Prop} (hR : Keeps partsCompletionWrite fieldsCompletionWrite R) (q : Fin 1024) (n : Fin 64) (ok : Bool) (s : State)
    (hI : R s) {tT : State} (eE : execCompletionWrite q n ok s = .next tT) : R tT := by
  unfold execCompletionWrite at eE
  try dsimp only at eE
  repeat' split at eE
  all_goals try (injection eE with eE; subst eE)
  all_goals repeat' first
    | with_reducible assumption
    | exact hR.sub
    | exact fun h => memWf_memStore h
    | exact fun h => memWf_memPut h
    | exact fun h => memWf_filter _ h
    | exact fun _ => rfl
    | with_reducible apply rel_ite
    | with_reducible apply State.dirNext_keeps
    | with_reducible apply State.flashMessage_keeps
    | with_reducible apply State.jobWaits_keeps
    | with_reducible apply State.message_keeps
    | with_reducible apply State.packageReset_keeps
    | with_reducible apply State.powerOn_keeps
    | with_reducible apply State.reach_keeps
    | with_reducible apply State.writeEntry_keeps
    | fail_if_no_progress (with_reducible apply hR.upd; all_goals try first | with_reducible exact .inr rfl | exact .inl (by decide +kernel) | exact id)
    | dsimp only
    | intro _ _
    | intro _
    | contradiction
    | (unfold id)
    | split
    | (rename_i hh; injection hh with hh; subst hh)
    | (rename_i hh; split at hh)

theorem execMsixHoldoffExpiry_keeps {R : State → Prop} (hR : Keeps partsMsixHoldoffExpiry fieldsMsixHoldoffExpiry R) (f : Fin 8) (v : Fin 1024) (s : State)
    (hI : R s) {tT : State} (eE : execMsixHoldoffExpiry f v s = .next tT) : R tT := by
  unfold execMsixHoldoffExpiry at eE
  try dsimp only at eE
  repeat' split at eE
  all_goals try (injection eE with eE; subst eE)
  all_goals repeat' first
    | with_reducible assumption
    | exact hR.sub
    | exact fun h => memWf_memStore h
    | exact fun h => memWf_memPut h
    | exact fun h => memWf_filter _ h
    | exact fun _ => rfl
    | with_reducible apply rel_ite
    | with_reducible apply State.dirNext_keeps
    | with_reducible apply State.flashMessage_keeps
    | with_reducible apply State.lapseTo_keeps
    | with_reducible apply State.message_keeps
    | with_reducible apply State.packageReset_keeps
    | with_reducible apply State.powerOn_keeps
    | with_reducible apply State.reach_keeps
    | with_reducible apply State.sendVec_keeps
    | fail_if_no_progress (with_reducible apply hR.upd; all_goals try first | with_reducible exact .inr rfl | exact .inl (by decide +kernel) | exact id)
    | dsimp only
    | intro _ _
    | intro _
    | contradiction
    | (unfold id)
    | split
    | (rename_i hh; injection hh with hh; subst hh)
    | (rename_i hh; split at hh)

theorem execCfgLoad_keeps {R : State → Prop} (hR : Keeps partsCfgLoad fieldsCfgLoad R) (q : Fin 1024) (hdr : Option (BitVec 2048)) (unwrap : Bool) (s : State)
    (hI : R s) {tT : State} (eE : execCfgLoad q hdr unwrap s = .next tT) : R tT := by
  unfold execCfgLoad at eE
  try dsimp only at eE
  repeat' split at eE
  all_goals try (injection eE with eE; subst eE)
  all_goals repeat' first
    | with_reducible assumption
    | exact hR.sub
    | exact fun h => memWf_memStore h
    | exact fun h => memWf_memPut h
    | exact fun h => memWf_filter _ h
    | exact fun _ => rfl
    | with_reducible apply rel_ite
    | with_reducible apply State.cfgBegin_keeps
    | with_reducible apply State.dirNext_keeps
    | with_reducible apply State.flashMessage_keeps
    | with_reducible apply State.jobDone_keeps
    | with_reducible apply State.message_keeps
    | with_reducible apply State.packageReset_keeps
    | with_reducible apply State.powerOn_keeps
    | with_reducible apply State.reach_keeps
    | with_reducible apply State.startOp_keeps
    | fail_if_no_progress (with_reducible apply hR.upd; all_goals try first | with_reducible exact .inr rfl | exact .inl (by decide +kernel) | exact id)
    | dsimp only
    | intro _ _
    | intro _
    | contradiction
    | (unfold id)
    | split
    | (rename_i hh; injection hh with hh; subst hh)
    | (rename_i hh; split at hh)

theorem State.fnAnswer_keeps {R : State → Prop} (hR : Keeps [.regs, .out, .stewards, .qps, .cfgWait] ⟨[.HIF_QP_DONE_CNT_COUNT, .HIF_QP_STAT_STATE], [], [], false⟩ R) (s : State) (m : Mail) (rst : Nat) (body : List Byte)
    (hI : R s) : R (State.fnAnswer s m rst body) := by
  unfold State.fnAnswer
  try dsimp only
  repeat' first
    | with_reducible assumption
    | exact hR.sub
    | exact fun h => memWf_memStore h
    | exact fun h => memWf_memPut h
    | exact fun h => memWf_filter _ h
    | exact fun _ => rfl
    | with_reducible apply rel_ite
    | with_reducible apply State.hostData_keeps
    | with_reducible apply State.jobDone_keeps
    | fail_if_no_progress (with_reducible apply hR.upd; all_goals try first | with_reducible exact .inr rfl | exact .inl (by decide +kernel) | exact id)
    | dsimp only
    | intro _ _
    | intro _
    | contradiction
    | (unfold id)
    | split
    | (rename_i hh; injection hh with hh; subst hh)
    | (rename_i hh; split at hh)

theorem execMailbox_keeps {R : State → Prop} (hR : Keeps partsMailbox fieldsMailbox R) (q : Fin 1024) (req : Option (List (BitVec 8))) (s : State)
    (hI : R s) {tT : State} (eE : execMailbox q req s = .next tT) : R tT := by
  unfold execMailbox at eE
  try dsimp only at eE
  repeat' split at eE
  all_goals try (injection eE with eE; subst eE)
  all_goals repeat' first
    | with_reducible assumption
    | exact hR.sub
    | exact fun h => memWf_memStore h
    | exact fun h => memWf_memPut h
    | exact fun h => memWf_filter _ h
    | exact fun _ => rfl
    | with_reducible apply rel_ite
    | with_reducible apply State.dirNext_keeps
    | with_reducible apply State.flashMessage_keeps
    | with_reducible apply State.fnAnswer_keeps
    | with_reducible apply State.jobDone_keeps
    | with_reducible apply State.message_keeps
    | with_reducible apply State.packageReset_keeps
    | with_reducible apply State.powerOn_keeps
    | with_reducible apply State.reach_keeps
    | with_reducible apply State.startOp_keeps
    | fail_if_no_progress (with_reducible apply hR.upd; all_goals try first | with_reducible exact .inr rfl | exact .inl (by decide +kernel) | exact id)
    | dsimp only
    | intro _ _
    | intro _
    | contradiction
    | (unfold id)
    | split
    | (rename_i hh; injection hh with hh; subst hh)
    | (rename_i hh; split at hh)

theorem execMailboxTimeout_keeps {R : State → Prop} (hR : Keeps partsMailboxTimeout fieldsMailboxTimeout R) (n : Fin 2048) (s : State)
    (hI : R s) {tT : State} (eE : execMailboxTimeout n s = .next tT) : R tT := by
  unfold execMailboxTimeout at eE
  try dsimp only at eE
  repeat' split at eE
  all_goals try (injection eE with eE; subst eE)
  all_goals repeat' first
    | with_reducible assumption
    | exact hR.sub
    | exact fun h => memWf_memStore h
    | exact fun h => memWf_memPut h
    | exact fun h => memWf_filter _ h
    | exact fun _ => rfl
    | with_reducible apply rel_ite
    | with_reducible apply State.dirNext_keeps
    | with_reducible apply State.flashMessage_keeps
    | with_reducible apply State.jobDone_keeps
    | with_reducible apply State.lapseTo_keeps
    | with_reducible apply State.message_keeps
    | with_reducible apply State.packageReset_keeps
    | with_reducible apply State.powerOn_keeps
    | with_reducible apply State.reach_keeps
    | with_reducible apply State.setHelm_keeps
    | fail_if_no_progress (with_reducible apply hR.upd; all_goals try first | with_reducible exact .inr rfl | exact .inl (by decide +kernel) | exact id)
    | dsimp only
    | intro _ _
    | intro _
    | contradiction
    | (unfold id)
    | split
    | (rename_i hh; injection hh with hh; subst hh)
    | (rename_i hh; split at hh)

theorem execBar4Read_keeps {R : State → Prop} (hR : Keeps partsBar4Read fieldsBar4Read R) (f : Fin 8) (off : BitVec 36) (n : Fin 4097) (s : State)
    (hI : R s) {tT : State} (eE : execBar4Read f off n s = .next tT) : R tT := by
  unfold execBar4Read at eE
  try dsimp only at eE
  repeat' split at eE
  all_goals try (injection eE with eE; subst eE)
  all_goals repeat' first
    | with_reducible assumption
    | exact hR.sub
    | exact fun h => memWf_memStore h
    | exact fun h => memWf_memPut h
    | exact fun h => memWf_filter _ h
    | exact fun _ => rfl
    | with_reducible apply rel_ite
    | with_reducible apply State.dirNext_keeps
    | with_reducible apply State.drop_keeps
    | with_reducible apply State.emit_keeps
    | with_reducible apply State.flashMessage_keeps
    | with_reducible apply State.gRead_keeps
    | with_reducible apply State.message_keeps
    | with_reducible apply State.packageReset_keeps
    | with_reducible apply State.powerOn_keeps
    | with_reducible apply State.reach_keeps
    | (with_reducible apply rel_foldl; intro _ _ _)
    | (with_reducible apply rel_foldl2; intro _ _ _)
    | (with_reducible apply rel_foldl3; intro _ _ _)
    | (with_reducible apply rel_foldl1; intro _ _ _)
    | (refine State.gRead_keeps_of hR.sub _ _ _ _ ?_ (by assumption))
    | fail_if_no_progress (with_reducible apply hR.upd; all_goals try first | with_reducible exact .inr rfl | exact .inl (by decide +kernel) | exact id)
    | dsimp only
    | intro _ _
    | intro _
    | contradiction
    | (unfold id)
    | split
    | (rename_i hh; injection hh with hh; subst hh)
    | (rename_i hh; split at hh)

theorem execBar4Write_keeps {R : State → Prop} (hR : Keeps partsBar4Write fieldsBar4Write R) (f : Fin 8) (off : BitVec 36) (bs : List (BitVec 8)) (s : State)
    (hI : R s) {tT : State} (eE : execBar4Write f off bs s = .next tT) : R tT := by
  unfold execBar4Write at eE
  try dsimp only at eE
  repeat' split at eE
  all_goals try (injection eE with eE; subst eE)
  all_goals repeat' first
    | with_reducible assumption
    | exact hR.sub
    | with_reducible apply rel_ite
    | with_reducible apply State.dirNext_keeps
    | with_reducible apply State.drop_keeps
    | with_reducible apply State.flashMessage_keeps
    | with_reducible apply State.gRead_keeps
    | with_reducible apply State.gWrite_keeps
    | with_reducible apply State.message_keeps
    | with_reducible apply State.packageReset_keeps
    | with_reducible apply State.powerOn_keeps
    | with_reducible apply State.raise_keeps
    | with_reducible apply State.reach_keeps
    | (with_reducible apply rel_foldl; intro _ _ _)
    | (with_reducible apply rel_foldl2; intro _ _ _)
    | (with_reducible apply rel_foldl3; intro _ _ _)
    | (with_reducible apply rel_foldl1; intro _ _ _)
    | (refine State.gRead_keeps_of hR.sub _ _ _ _ ?_ (by assumption))
    | (refine State.gWrite_keeps_of hR.sub _ _ _ _ _ _ ?_ (by assumption))
    | dsimp only
    | intro _ _
    | intro _
    | contradiction
    | (unfold id)
    | split
    | (rename_i hh; injection hh with hh; subst hh)
    | (rename_i hh; split at hh)

def opPartsFnReset : List Part :=
  [.regs, .stewards, .govs, .sec, .fab, .eng, .sessions, .qps, .vecs, .mail, .cfgWait, .cfgLoad, .cfg]
def opFieldsFnReset : FSet :=
  ⟨[.BOOT_STAT_CFG, .BOOT_STAT_CFG_STATUS, .ENG_STATUS_STATE, .HIF_QP_DONE_CNT_COUNT, .HIF_QP_STAT_STATE,
    .SEC_CTL_RESET, .SEC_STATUS_ISOLATED, .SEC_STATUS_PERMIT_WAIT, .SEC_STATUS_RESET_HELD, .SEC_STATUS_STATE], [.fn,
    .sec], [], false⟩

theorem State.fnReset_keeps {R : State → Prop} (hR : Keeps opPartsFnReset opFieldsFnReset R) (s : State) (f : Nat)
    (hI : R s) : R (State.fnReset s f) := by
  unfold State.fnReset
  try dsimp only
  repeat' first
    | with_reducible assumption
    | exact hR.sub
    | exact fun h => memWf_memStore h
    | exact fun h => memWf_memPut h
    | exact fun h => memWf_filter _ h
    | exact fun _ => rfl
    | with_reducible apply rel_ite
    | with_reducible refine hR.clear _ (by decide +kernel) (fun _ _ h => hasFld_cls (fnClears_cls h)) ?_
    | with_reducible apply State.cfgOrphan_keeps
    | with_reducible apply State.engStop_keeps
    | with_reducible apply State.qpDrop_keeps
    | with_reducible apply State.setQp_keeps
    | (with_reducible apply rel_foldl; intro _ _ _)
    | (with_reducible apply rel_foldl2; intro _ _ _)
    | (with_reducible apply rel_foldl3; intro _ _ _)
    | (with_reducible apply rel_foldl1; intro _ _ _)
    | fail_if_no_progress (with_reducible apply hR.upd; all_goals try first | exact .inl (by decide +kernel) | with_reducible exact .inr rfl | exact id)
    | dsimp only
    | intro _ _
    | intro _
    | contradiction
    | (unfold id)
    | split
    | (rename_i hh; injection hh with hh; subst hh)
    | (rename_i hh; split at hh)

def opPartsFlr : List Part :=
  [.regs, .stewards, .govs, .sec, .fab, .eng, .sessions, .qps, .vecs, .mail, .cfgWait, .cfgLoad, .cfg]
def opFieldsFlr : FSet :=
  ⟨[.BOOT_STAT_CFG, .BOOT_STAT_CFG_STATUS, .ENG_STATUS_STATE, .HIF_FN_STAT_FLR_BUSY, .HIF_QP_DONE_CNT_COUNT,
    .HIF_QP_STAT_STATE, .SEC_CTL_RESET, .SEC_STATUS_ISOLATED, .SEC_STATUS_PERMIT_WAIT, .SEC_STATUS_RESET_HELD,
    .SEC_STATUS_STATE], [.fn, .sec], [], false⟩

theorem State.flr_keeps {R : State → Prop} (hR : Keeps opPartsFlr opFieldsFlr R) (s : State) (f : Nat)
    (hI : R s) : R (State.flr s f) := by
  unfold State.flr
  try dsimp only
  repeat' first
    | with_reducible assumption
    | exact hR.sub
    | with_reducible apply rel_ite
    | with_reducible refine hR.wr _ _ _ (by decide +kernel) (by first | decide +kernel | exact hasFld_self _ _ | exact hasFld_all _ | (simp [hasFld]; done) ) ?_
    | with_reducible apply State.fnReset_keeps
    | dsimp only
    | intro _ _
    | intro _
    | contradiction
    | (unfold id)
    | split
    | (rename_i hh; injection hh with hh; subst hh)
    | (rename_i hh; split at hh)

theorem execFunctionLevelReset_keeps {R : State → Prop} (hR : Keeps partsFunctionLevelReset fieldsFunctionLevelReset R) (f : Fin 8) (s : State)
    (hI : R s) {tT : State} (eE : execFunctionLevelReset f s = .next tT) : R tT := by
  unfold execFunctionLevelReset at eE
  try dsimp only at eE
  repeat' split at eE
  all_goals try (injection eE with eE; subst eE)
  all_goals repeat' first
    | with_reducible assumption
    | exact hR.sub
    | with_reducible apply rel_ite
    | with_reducible apply State.dirNext_keeps
    | with_reducible apply State.flashMessage_keeps
    | with_reducible apply State.flr_keeps
    | with_reducible apply State.message_keeps
    | with_reducible apply State.packageReset_keeps
    | with_reducible apply State.powerOn_keeps
    | with_reducible apply State.reach_keeps
    | dsimp only
    | intro _ _
    | intro _
    | contradiction
    | (unfold id)
    | split
    | (rename_i hh; injection hh with hh; subst hh)
    | (rename_i hh; split at hh)

theorem execFlrDone_keeps {R : State → Prop} (hR : Keeps partsFlrDone fieldsFlrDone R) (f : Fin 8) (s : State)
    (hI : R s) {tT : State} (eE : execFlrDone f s = .next tT) : R tT := by
  unfold execFlrDone at eE
  try dsimp only at eE
  repeat' split at eE
  all_goals try (injection eE with eE; subst eE)
  all_goals repeat' first
    | with_reducible assumption
    | exact hR.sub
    | with_reducible apply rel_ite
    | with_reducible refine hR.wr _ _ _ (by decide +kernel) (by first | decide +kernel | exact hasFld_self _ _ | exact hasFld_all _ | (simp [hasFld]; done) ) ?_
    | with_reducible apply State.dirNext_keeps
    | with_reducible apply State.flashMessage_keeps
    | with_reducible apply State.message_keeps
    | with_reducible apply State.packageReset_keeps
    | with_reducible apply State.powerOn_keeps
    | with_reducible apply State.reach_keeps
    | dsimp only
    | intro _ _
    | intro _
    | contradiction
    | (unfold id)
    | split
    | (rename_i hh; injection hh with hh; subst hh)
    | (rename_i hh; split at hh)

theorem execBusMasterDisable_keeps {R : State → Prop} (hR : Keeps partsBusMasterDisable fieldsBusMasterDisable R) (f : Fin 8) (on : Bool) (s : State)
    (hI : R s) {tT : State} (eE : execBusMasterDisable f on s = .next tT) : R tT := by
  unfold execBusMasterDisable at eE
  try dsimp only at eE
  repeat' split at eE
  all_goals try (injection eE with eE; subst eE)
  all_goals repeat' first
    | with_reducible assumption
    | exact hR.sub
    | with_reducible apply rel_ite
    | with_reducible refine hR.wr _ _ _ (by decide +kernel) (by first | decide +kernel | exact hasFld_self _ _ | exact hasFld_all _ | (simp [hasFld]; done) ) ?_
    | with_reducible apply State.dirNext_keeps
    | with_reducible apply State.flashMessage_keeps
    | with_reducible apply State.message_keeps
    | with_reducible apply State.packageReset_keeps
    | with_reducible apply State.powerOn_keeps
    | with_reducible apply State.reach_keeps
    | with_reducible apply State.sendVec_keeps
    | (with_reducible apply rel_foldl; intro _ _ _)
    | (with_reducible apply rel_foldl2; intro _ _ _)
    | (with_reducible apply rel_foldl3; intro _ _ _)
    | (with_reducible apply rel_foldl1; intro _ _ _)
    | dsimp only
    | intro _ _
    | intro _
    | contradiction
    | (unfold id)
    | split
    | (rename_i hh; injection hh with hh; subst hh)
    | (rename_i hh; split at hh)

theorem execPcieLinkDown_keeps {R : State → Prop} (hR : Keeps partsPcieLinkDown fieldsPcieLinkDown R) (p : Fin 2) (s : State)
    (hI : R s) {tT : State} (eE : execPcieLinkDown p s = .next tT) : R tT := by
  unfold execPcieLinkDown at eE
  try dsimp only at eE
  repeat' split at eE
  all_goals try (injection eE with eE; subst eE)
  all_goals repeat' first
    | with_reducible assumption
    | exact hR.sub
    | exact fun h => memWf_memStore h
    | exact fun h => memWf_memPut h
    | exact fun h => memWf_filter _ h
    | exact fun _ => rfl
    | with_reducible apply rel_ite
    | with_reducible apply State.dirNext_keeps
    | with_reducible apply State.flashMessage_keeps
    | with_reducible apply State.flr_keeps
    | with_reducible apply State.giveBack_keeps
    | with_reducible apply State.message_keeps
    | with_reducible apply State.packageReset_keeps
    | with_reducible apply State.powerOn_keeps
    | with_reducible apply State.reach_keeps
    | (with_reducible apply rel_foldl; intro _ _ _)
    | (with_reducible apply rel_foldl2; intro _ _ _)
    | (with_reducible apply rel_foldl3; intro _ _ _)
    | (with_reducible apply rel_foldl1; intro _ _ _)
    | fail_if_no_progress (with_reducible apply hR.upd; all_goals try first | with_reducible exact .inr rfl | exact .inl (by decide +kernel) | exact id)
    | dsimp only
    | intro _ _
    | intro _
    | contradiction
    | (unfold id)
    | split
    | (rename_i hh; injection hh with hh; subst hh)
    | (rename_i hh; split at hh)

theorem execPcieLinkUp_keeps {R : State → Prop} (hR : Keeps partsPcieLinkUp fieldsPcieLinkUp R) (p : Fin 2) (s : State)
    (hI : R s) {tT : State} (eE : execPcieLinkUp p s = .next tT) : R tT := by
  unfold execPcieLinkUp at eE
  try dsimp only at eE
  repeat' split at eE
  all_goals try (injection eE with eE; subst eE)
  all_goals repeat' first
    | with_reducible assumption
    | exact hR.sub
    | exact fun h => memWf_memStore h
    | exact fun h => memWf_memPut h
    | exact fun h => memWf_filter _ h
    | exact fun _ => rfl
    | with_reducible apply rel_ite
    | with_reducible apply State.dirNext_keeps
    | with_reducible apply State.flashMessage_keeps
    | with_reducible apply State.giveBack_keeps
    | with_reducible apply State.message_keeps
    | with_reducible apply State.packageReset_keeps
    | with_reducible apply State.powerOn_keeps
    | with_reducible apply State.reach_keeps
    | fail_if_no_progress (with_reducible apply hR.upd; all_goals try first | with_reducible exact .inr rfl | exact .inl (by decide +kernel) | exact id)
    | dsimp only
    | intro _ _
    | intro _
    | contradiction
    | (unfold id)
    | split
    | (rename_i hh; injection hh with hh; subst hh)
    | (rename_i hh; split at hh)

end Sys2Proof.Machine
end

