-- ==== Sys2Proof/Laws/KeepsSextant.lean ====
section
/-! SUPPORT. What the operations of `Machine/Sextant.lean` may change and what they keep. -/

namespace Sys2Proof.Machine

set_option Elab.async false
set_option linter.all false

theorem State.sxJob_keeps {R : State → Prop} (hR : Keeps [.regs, .stewards, .qps, .cfgWait] ⟨[.HIF_QP_DONE_CNT_COUNT, .HIF_QP_STAT_STATE], [], [], false⟩ R) (s : State) (r : SxReq) (status : Nat)
    (hI : R s) : R (State.sxJob s r status) := by
  unfold State.sxJob
  try dsimp only
  repeat' first
    | with_reducible assumption
    | exact hR.sub
    | exact fun h => memWf_memStore h
    | exact fun h => memWf_memPut h
    | exact fun h => memWf_filter _ h
    | exact fun _ => rfl
    | with_reducible apply rel_ite
    | with_reducible apply State.jobDone_keeps
    | fail_if_no_progress (with_reducible apply hR.upd; all_goals try first | with_reducible exact .inr rfl | exact .inl (by decide +kernel) | exact id)
    | dsimp only
    | intro _ _
    | intro _
    | contradiction
    | (unfold id)
    | split
    | (rename_i hh; injection hh with hh; subst hh)
    | (rename_i hh; split at hh)

theorem State.sxNext_keeps {R : State → Prop} (hR : Keeps [.regs, .stewards, .qps, .cfgWait, .sxq] ⟨[.HIF_QP_DONE_CNT_COUNT, .HIF_QP_STAT_STATE, .SX_STAT_REF_CODE, .SX_STAT_STEP_REF, .SX_STEP_CMD_BUSY], [], [], false⟩ R) (s : State) (n : Nat)
    (hI : R s) : R (State.sxNext s n) := by
  induction n generalizing s with
  | zero => exact hI
  | succ n ih =>
  unfold State.sxNext
  try dsimp only
  repeat' first
    | with_reducible assumption
    | (with_reducible apply ih)
    | exact hR.sub
    | exact fun h => memWf_memStore h
    | exact fun h => memWf_memPut h
    | exact fun h => memWf_filter _ h
    | exact fun _ => rfl
    | with_reducible apply rel_ite
    | with_reducible refine hR.wr _ _ _ (by decide +kernel) (by first | decide +kernel | exact hasFld_self _ _ | exact hasFld_all _ | (simp [hasFld]; done) ) ?_
    | with_reducible apply State.raise_keeps
    | with_reducible apply State.sxJob_keeps
    | fail_if_no_progress (with_reducible apply hR.upd; all_goals try first | with_reducible exact .inr rfl | exact .inl (by decide +kernel) | exact id)
    | dsimp only
    | intro _ _
    | intro _
    | contradiction
    | (unfold id)
    | split
    | (rename_i hh; injection hh with hh; subst hh)
    | (rename_i hh; split at hh)

theorem State.sxRequest_keeps {R : State → Prop} (hR : Keeps [.regs, .stewards, .qps, .cfgWait, .sxq] ⟨[.HIF_QP_DONE_CNT_COUNT, .HIF_QP_STAT_STATE, .SX_STAT_REF_CODE, .SX_STAT_STEP_REF, .SX_STEP_CMD_BUSY], [], [], false⟩ R) (s : State) (r : SxReq)
    (hI : R s) : R (State.sxRequest s r) := by
  unfold State.sxRequest
  try dsimp only
  repeat' first
    | with_reducible assumption
    | exact hR.sub
    | exact fun h => memWf_memStore h
    | exact fun h => memWf_memPut h
    | exact fun h => memWf_filter _ h
    | exact fun _ => rfl
    | with_reducible apply rel_ite
    | with_reducible apply State.sxNext_keeps
    | fail_if_no_progress (with_reducible apply hR.upd; all_goals try first | with_reducible exact .inr rfl | exact .inl (by decide +kernel) | exact id)
    | dsimp only
    | intro _ _
    | intro _
    | contradiction
    | (unfold id)
    | split
    | (rename_i hh; injection hh with hh; subst hh)
    | (rename_i hh; split at hh)

theorem State.sxStepCmd_keeps {R : State → Prop} (hR : Keeps [.regs, .stewards, .qps, .cfgWait, .sxq, .rstUnlock] ⟨[.HIF_QP_DONE_CNT_COUNT, .HIF_QP_STAT_STATE, .SX_STAT_REF_CODE, .SX_STAT_STEP_REF, .SX_STEP_CMD_BUSY], [], [], false⟩ R) (s : State) (w : Writer) (cmd : Nat) (force : Bool)
    (hI : R s) : R (State.sxStepCmd s w cmd force) := by
  unfold State.sxStepCmd
  try dsimp only
  repeat' first
    | with_reducible assumption
    | exact hR.sub
    | with_reducible apply rel_ite
    | with_reducible apply State.drop_keeps
    | with_reducible apply State.reach_keeps
    | with_reducible apply State.sxRequest_keeps
    | dsimp only
    | intro _ _
    | intro _
    | contradiction
    | (unfold id)
    | split
    | (rename_i hh; injection hh with hh; subst hh)
    | (rename_i hh; split at hh)

theorem execStep_keeps {R : State → Prop} (hR : Keeps partsStep fieldsStep R) (w : Writer) (force : Bool) (s : State)
    (hI : R s) {tT : State} (eE : execStep w force s = .next tT) : R tT := by
  unfold execStep at eE
  try dsimp only at eE
  repeat' split at eE
  all_goals try (injection eE with eE; subst eE)
  all_goals repeat' first
    | with_reducible assumption
    | exact hR.sub
    | with_reducible apply rel_ite
    | with_reducible apply State.dirNext_keeps
    | with_reducible apply State.flashMessage_keeps
    | with_reducible apply State.message_keeps
    | with_reducible apply State.packageReset_keeps
    | with_reducible apply State.powerOn_keeps
    | with_reducible apply State.reach_keeps
    | with_reducible apply State.sxStepCmd_keeps
    | dsimp only
    | intro _ _
    | intro _
    | contradiction
    | (unfold id)
    | split
    | (rename_i hh; injection hh with hh; subst hh)
    | (rename_i hh; split at hh)

theorem execSet_keeps {R : State → Prop} (hR : Keeps partsSet fieldsSet R) (w : Writer) (force : Bool) (s : State)
    (hI : R s) {tT : State} (eE : execSet w force s = .next tT) : R tT := by
  unfold execSet at eE
  try dsimp only at eE
  repeat' split at eE
  all_goals try (injection eE with eE; subst eE)
  all_goals repeat' first
    | with_reducible assumption
    | exact hR.sub
    | with_reducible apply rel_ite
    | with_reducible apply State.dirNext_keeps
    | with_reducible apply State.flashMessage_keeps
    | with_reducible apply State.message_keeps
    | with_reducible apply State.packageReset_keeps
    | with_reducible apply State.powerOn_keeps
    | with_reducible apply State.reach_keeps
    | with_reducible apply State.sxStepCmd_keeps
    | dsimp only
    | intro _ _
    | intro _
    | contradiction
    | (unfold id)
    | split
    | (rename_i hh; injection hh with hh; subst hh)
    | (rename_i hh; split at hh)

theorem execStepApply_keeps {R : State → Prop} (hR : Keeps partsStepApply fieldsStepApply R) (s : State)
    (hI : R s) {tT : State} (eE : execStepApply s = .next tT) : R tT := by
  unfold execStepApply at eE
  try dsimp only at eE
  repeat' split at eE
  all_goals try (injection eE with eE; subst eE)
  all_goals repeat' first
    | with_reducible assumption
    | exact hR.sub
    | exact fun h => memWf_memStore h
    | exact fun h => memWf_memPut h
    | exact fun h => memWf_filter _ h
    | exact fun _ => rfl
    | exact hR.sub (by decide +kernel) (subFld_self _ _)
    | with_reducible apply rel_ite
    | with_reducible refine hR.wr _ _ _ (by decide +kernel) (by first | decide +kernel | exact hasFld_self _ _ | exact hasFld_all _ | (simp [hasFld]; done) ) ?_
    | with_reducible apply State.dirNext_keeps
    | with_reducible apply State.flashMessage_keeps
    | with_reducible apply State.incr_keeps
    | with_reducible apply State.lapse_keeps
    | with_reducible apply State.lapseTo_keeps
    | with_reducible apply State.message_keeps
    | with_reducible apply State.packageReset_keeps
    | with_reducible apply State.powerOn_keeps
    | with_reducible apply State.reach_keeps
    | with_reducible apply State.sxJob_keeps
    | with_reducible apply State.sxNext_keeps
    | (with_reducible apply rel_foldl; intro _ _ _)
    | (with_reducible apply rel_foldl2; intro _ _ _)
    | (with_reducible apply rel_foldl3; intro _ _ _)
    | (with_reducible apply rel_foldl1; intro _ _ _)
    | fail_if_no_progress (with_reducible apply hR.upd; all_goals try first | with_reducible exact .inr rfl | exact .inl (by decide +kernel) | exact id)
    | dsimp only
    | intro _ _
    | intro _
    | contradiction
    | (unfold id)
    | split
    | (rename_i hh; injection hh with hh; subst hh)
    | (rename_i hh; split at hh)

theorem execSxAdjWrite_keeps {R : State → Prop} (hR : Keeps partsSxAdjWrite fieldsSxAdjWrite R) (w : Writer) (v : BitVec 32) (s : State)
    (hI : R s) {tT : State} (eE : execSxAdjWrite w v s = .next tT) : R tT := by
  unfold execSxAdjWrite at eE
  try dsimp only at eE
  repeat' split at eE
  all_goals try (injection eE with eE; subst eE)
  all_goals repeat' first
    | with_reducible assumption
    | exact hR.sub
    | with_reducible apply rel_ite
    | with_reducible refine hR.wr _ _ _ (by decide +kernel) (by first | decide +kernel | exact hasFld_self _ _ | exact hasFld_all _ | (simp [hasFld]; done) ) ?_
    | with_reducible apply State.dirNext_keeps
    | with_reducible apply State.drop_keeps
    | with_reducible apply State.flashMessage_keeps
    | with_reducible apply State.message_keeps
    | with_reducible apply State.packageReset_keeps
    | with_reducible apply State.powerOn_keeps
    | with_reducible apply State.reach_keeps
    | dsimp only
    | intro _ _
    | intro _
    | contradiction
    | (unfold id)
    | split
    | (rename_i hh; injection hh with hh; subst hh)
    | (rename_i hh; split at hh)

theorem execSxCtlWrite_keeps {R : State → Prop} (hR : Keeps partsSxCtlWrite fieldsSxCtlWrite R) (w : Writer) (v : BitVec 32) (s : State)
    (hI : R s) {tT : State} (eE : execSxCtlWrite w v s = .next tT) : R tT := by
  unfold execSxCtlWrite at eE
  injection eE with eE; subst eE
  refine State.reach_keeps hR.sub _ _ _ _ _ _ hI (fun s h => ?_)
  repeat' first
    | with_reducible assumption
    | exact hR.sub
    | with_reducible apply State.drop_keeps
    | with_reducible apply State.raise_keeps
    | with_reducible apply rel_ite
    | (refine rel_foldl_mem _ (fun s p hm h => hR.wr _ _ _ (by decide +kernel) (by simp only [List.mem_cons, List.not_mem_nil, or_false] at hm; rcases hm with rfl | rfl | rfl | rfl <;> (dsimp only; decide +kernel)) h) ?_)
    | with_reducible refine hR.wr _ _ _ (by decide +kernel) (by decide +kernel) ?_
    | split
    | dsimp only

theorem State.sxDrop_keeps {R : State → Prop} (hR : Keeps [.sxDiscard] ⟨[], [], [], false⟩ R) (s : State) (p : Nat)
    (hI : R s) : R (State.sxDrop s p) := by
  unfold State.sxDrop
  try dsimp only
  repeat' first
    | with_reducible assumption
    | exact hR.sub
    | exact fun h => memWf_memStore h
    | exact fun h => memWf_memPut h
    | exact fun h => memWf_filter _ h
    | exact fun _ => rfl
    | with_reducible apply rel_ite
    | fail_if_no_progress (with_reducible apply hR.upd; all_goals try first | with_reducible exact .inr rfl | exact .inl (by decide +kernel) | exact id)
    | dsimp only
    | intro _ _
    | intro _
    | contradiction
    | (unfold id)
    | split
    | (rename_i hh; injection hh with hh; subst hh)
    | (rename_i hh; split at hh)

theorem execPtpRxEvent_keeps {R : State → Prop} (hR : Keeps partsPtpRxEvent fieldsPtpRxEvent R) (p : Fin 2) (ptp : Bool) (type : Fin 4) (seq : BitVec 16) (s : State)
    (hI : R s) {tT : State} (eE : execPtpRxEvent p ptp type seq s = .next tT) : R tT := by
  unfold execPtpRxEvent at eE
  try dsimp only at eE
  repeat' split at eE
  all_goals try (injection eE with eE; subst eE)
  all_goals repeat' first
    | with_reducible assumption
    | exact hR.sub
    | exact fun h => memWf_memStore h
    | exact fun h => memWf_memPut h
    | exact fun h => memWf_filter _ h
    | exact fun _ => rfl
    | with_reducible apply rel_ite
    | with_reducible apply State.dirNext_keeps
    | with_reducible apply State.emit_keeps
    | with_reducible apply State.flashMessage_keeps
    | with_reducible apply State.message_keeps
    | with_reducible apply State.packageReset_keeps
    | with_reducible apply State.powerOn_keeps
    | with_reducible apply State.reach_keeps
    | with_reducible apply State.sxDrop_keeps
    | fail_if_no_progress (with_reducible apply hR.upd; all_goals try first | with_reducible exact .inr rfl | exact .inl (by decide +kernel) | exact id)
    | dsimp only
    | intro _ _
    | intro _
    | contradiction
    | (unfold id)
    | split
    | (rename_i hh; injection hh with hh; subst hh)
    | (rename_i hh; split at hh)

theorem State.setTxQueue_keeps {R : State → Prop} (hR : Keeps [.txq] ⟨[], [], [], false⟩ R) (s : State) (p : Nat) (l : List TxStamp)
    (hI : R s) : R (State.setTxQueue s p l) := by
  unfold State.setTxQueue
  try dsimp only
  repeat' first
    | with_reducible assumption
    | exact hR.sub
    | exact fun h => memWf_memStore h
    | exact fun h => memWf_memPut h
    | exact fun h => memWf_filter _ h
    | exact fun _ => rfl
    | with_reducible apply rel_ite
    | fail_if_no_progress (with_reducible apply hR.upd; all_goals try first | with_reducible exact .inr rfl | exact .inl (by decide +kernel) | exact id)
    | dsimp only
    | intro _ _
    | intro _
    | contradiction
    | (unfold id)
    | split
    | (rename_i hh; injection hh with hh; subst hh)
    | (rename_i hh; split at hh)

theorem State.txStamp_keeps {R : State → Prop} (hR : Keeps [.regs, .stewards, .txq] ⟨[.SX_PORT_STAT_TXQ_OVF, .SX_TXQ_LOST_CNT_COUNT], [], [], false⟩ R) (s : State) (p type seq stamp : Nat)
    (hI : R s) : R (State.txStamp s p type seq stamp) := by
  unfold State.txStamp
  try dsimp only
  repeat' first
    | with_reducible assumption
    | exact hR.sub
    | exact hR.sub (by decide +kernel) (subFld_self _ _)
    | with_reducible apply rel_ite
    | with_reducible refine hR.wr _ _ _ (by decide +kernel) (by first | decide +kernel | exact hasFld_self _ _ | exact hasFld_all _ | (simp [hasFld]; done) ) ?_
    | with_reducible apply State.bump_keeps
    | with_reducible apply State.raise_keeps
    | with_reducible apply State.setTxQueue_keeps
    | dsimp only
    | intro _ _
    | intro _
    | contradiction
    | (unfold id)
    | split
    | (rename_i hh; injection hh with hh; subst hh)
    | (rename_i hh; split at hh)

theorem execPtpTxEvent_keeps {R : State → Prop} (hR : Keeps partsPtpTxEvent fieldsPtpTxEvent R) (p : Fin 2) (type : Fin 4) (seq : BitVec 16) (s : State)
    (hI : R s) {tT : State} (eE : execPtpTxEvent p type seq s = .next tT) : R tT := by
  unfold execPtpTxEvent at eE
  try dsimp only at eE
  repeat' split at eE
  all_goals try (injection eE with eE; subst eE)
  all_goals repeat' first
    | with_reducible assumption
    | exact hR.sub
    | exact fun h => memWf_memStore h
    | exact fun h => memWf_memPut h
    | exact fun h => memWf_filter _ h
    | exact fun _ => rfl
    | with_reducible apply rel_ite
    | with_reducible apply State.dirNext_keeps
    | with_reducible apply State.emit_keeps
    | with_reducible apply State.flashMessage_keeps
    | with_reducible apply State.message_keeps
    | with_reducible apply State.packageReset_keeps
    | with_reducible apply State.powerOn_keeps
    | with_reducible apply State.reach_keeps
    | with_reducible apply State.txStamp_keeps
    | fail_if_no_progress (with_reducible apply hR.upd; all_goals try first | with_reducible exact .inr rfl | exact .inl (by decide +kernel) | exact id)
    | dsimp only
    | intro _ _
    | intro _
    | contradiction
    | (unfold id)
    | split
    | (rename_i hh; injection hh with hh; subst hh)
    | (rename_i hh; split at hh)

theorem execTcForward_keeps {R : State → Prop} (hR : Keeps partsTcForward fieldsTcForward R) (p : Fin 2) (type : Fin 16) (ident : BitVec 80) (seq : BitVec 16) (corr : BitVec 64) (resid : Nat) (two full : Bool) (s : State)
    (hI : R s) {tT : State} (eE : execTcForward p type ident seq corr resid two full s = .next tT) : R tT := by
  unfold execTcForward at eE
  try dsimp only at eE
  repeat' split at eE
  all_goals try (injection eE with eE; subst eE)
  all_goals repeat' first
    | with_reducible assumption
    | exact hR.sub
    | exact fun h => memWf_memStore h
    | exact fun h => memWf_memPut h
    | exact fun h => memWf_filter _ h
    | exact fun _ => rfl
    | with_reducible apply rel_ite
    | with_reducible apply State.dirNext_keeps
    | with_reducible apply State.emit_keeps
    | with_reducible apply State.flashMessage_keeps
    | with_reducible apply State.message_keeps
    | with_reducible apply State.packageReset_keeps
    | with_reducible apply State.powerOn_keeps
    | with_reducible apply State.reach_keeps
    | with_reducible apply State.sxDrop_keeps
    | fail_if_no_progress (with_reducible apply hR.upd; all_goals try first | with_reducible exact .inr rfl | exact .inl (by decide +kernel) | exact id)
    | dsimp only
    | intro _ _
    | intro _
    | contradiction
    | (unfold id)
    | split
    | (rename_i hh; injection hh with hh; subst hh)
    | (rename_i hh; split at hh)

theorem execResidenceTimeout_keeps {R : State → Prop} (hR : Keeps partsResidenceTimeout fieldsResidenceTimeout R) (s : State)
    (hI : R s) {tT : State} (eE : execResidenceTimeout s = .next tT) : R tT := by
  unfold execResidenceTimeout at eE
  try dsimp only at eE
  repeat' split at eE
  all_goals try (injection eE with eE; subst eE)
  all_goals repeat' first
    | with_reducible assumption
    | exact hR.sub
    | exact fun h => memWf_memStore h
    | exact fun h => memWf_memPut h
    | exact fun h => memWf_filter _ h
    | exact fun _ => rfl
    | exact hR.sub (by decide +kernel) (subFld_self _ _)
    | with_reducible apply rel_ite
    | with_reducible apply State.bump_keeps
    | with_reducible apply State.dirNext_keeps
    | with_reducible apply State.flashMessage_keeps
    | with_reducible apply State.lapseTo_keeps
    | with_reducible apply State.message_keeps
    | with_reducible apply State.packageReset_keeps
    | with_reducible apply State.powerOn_keeps
    | with_reducible apply State.reach_keeps
    | fail_if_no_progress (with_reducible apply hR.upd; all_goals try first | with_reducible exact .inr rfl | exact .inl (by decide +kernel) | exact id)
    | dsimp only
    | intro _ _
    | intro _
    | contradiction
    | (unfold id)
    | split
    | (rename_i hh; injection hh with hh; subst hh)
    | (rename_i hh; split at hh)

theorem execSxTxqPop_keeps {R : State → Prop} (hR : Keeps partsSxTxqPop fieldsSxTxqPop R) (w : Writer) (p : Fin 2) (s : State)
    (hI : R s) {tT : State} (eE : execSxTxqPop w p s = .next tT) : R tT := by
  unfold execSxTxqPop at eE
  try dsimp only at eE
  repeat' split at eE
  all_goals try (injection eE with eE; subst eE)
  all_goals repeat' first
    | with_reducible assumption
    | exact hR.sub
    | with_reducible apply rel_ite
    | with_reducible apply State.dirNext_keeps
    | with_reducible apply State.drop_keeps
    | with_reducible apply State.flashMessage_keeps
    | with_reducible apply State.message_keeps
    | with_reducible apply State.packageReset_keeps
    | with_reducible apply State.powerOn_keeps
    | with_reducible apply State.reach_keeps
    | with_reducible apply State.setTxQueue_keeps
    | dsimp only
    | intro _ _
    | intro _
    | contradiction
    | (unfold id)
    | split
    | (rename_i hh; injection hh with hh; subst hh)
    | (rename_i hh; split at hh)

theorem State.servoStep_keeps {R : State → Prop} (hR : Keeps [.regs, .stewards, .qps, .cfgWait, .sxq] ⟨[.HIF_QP_DONE_CNT_COUNT, .HIF_QP_STAT_STATE, .SX_STAT_REF_CODE, .SX_STAT_STEP_REF, .SX_STEP_CMD_BUSY], [], [], false⟩ R) (s : State) (ofs : Nat)
    (hI : R s) : R (State.servoStep s ofs) := by
  unfold State.servoStep
  try dsimp only
  repeat' first
    | with_reducible assumption
    | exact hR.sub
    | with_reducible apply rel_ite
    | with_reducible apply State.sxRequest_keeps
    | dsimp only
    | intro _ _
    | intro _
    | contradiction
    | (unfold id)
    | split
    | (rename_i hh; injection hh with hh; subst hh)
    | (rename_i hh; split at hh)

theorem execServoMeasurement_keeps {R : State → Prop} (hR : Keeps partsServoMeasurement fieldsServoMeasurement R) (ofs mpd : BitVec 64) (seq : BitVec 16) (rate : BitVec 32) (s : State)
    (hI : R s) {tT : State} (eE : execServoMeasurement ofs mpd seq rate s = .next tT) : R tT := by
  unfold execServoMeasurement at eE
  try dsimp only at eE
  repeat' split at eE
  all_goals try (injection eE with eE; subst eE)
  all_goals repeat' first
    | with_reducible assumption
    | exact hR.sub
    | exact fun h => memWf_memStore h
    | exact fun h => memWf_memPut h
    | exact fun h => memWf_filter _ h
    | exact fun _ => rfl
    | with_reducible apply rel_ite
    | with_reducible refine hR.wr _ _ _ (by decide +kernel) (by first | decide +kernel | exact hasFld_self _ _ | exact hasFld_all _ | (simp [hasFld]; done) ) ?_
    | with_reducible apply State.dirNext_keeps
    | with_reducible apply State.flashMessage_keeps
    | with_reducible apply State.irq_keeps
    | with_reducible apply State.message_keeps
    | with_reducible apply State.packageReset_keeps
    | with_reducible apply State.powerOn_keeps
    | with_reducible apply State.raise_keeps
    | with_reducible apply State.reach_keeps
    | with_reducible apply State.servoStep_keeps
    | fail_if_no_progress (with_reducible apply hR.upd; all_goals try first | with_reducible exact .inr rfl | exact .inl (by decide +kernel) | exact id)
    | dsimp only
    | intro _ _
    | intro _
    | contradiction
    | (unfold id)
    | split
    | (rename_i hh; injection hh with hh; subst hh)
    | (rename_i hh; split at hh)

theorem execPtpPortStateChange_keeps {R : State → Prop} (hR : Keeps partsPtpPortStateChange fieldsPtpPortStateChange R) (p : Fin 2) (st : Fin 10) (link : Bool) (ofs : BitVec 64) (s : State)
    (hI : R s) {tT : State} (eE : execPtpPortStateChange p st link ofs s = .next tT) : R tT := by
  unfold execPtpPortStateChange at eE
  try dsimp only at eE
  repeat' split at eE
  all_goals try (injection eE with eE; subst eE)
  all_goals repeat' first
    | with_reducible assumption
    | exact hR.sub
    | with_reducible apply rel_ite
    | with_reducible refine hR.wr _ _ _ (by decide +kernel) (by first | decide +kernel | exact hasFld_self _ _ | exact hasFld_all _ | (simp [hasFld]; done) ) ?_
    | with_reducible apply State.dirNext_keeps
    | with_reducible apply State.flashMessage_keeps
    | with_reducible apply State.message_keeps
    | with_reducible apply State.packageReset_keeps
    | with_reducible apply State.powerOn_keeps
    | with_reducible apply State.reach_keeps
    | with_reducible apply State.servoStep_keeps
    | dsimp only
    | intro _ _
    | intro _
    | contradiction
    | (unfold id)
    | split
    | (rename_i hh; injection hh with hh; subst hh)
    | (rename_i hh; split at hh)

theorem execPpsPulse_keeps {R : State → Prop} (hR : Keeps partsPpsPulse fieldsPpsPulse R) (s : State)
    (hI : R s) {tT : State} (eE : execPpsPulse s = .next tT) : R tT := by
  unfold execPpsPulse at eE
  try dsimp only at eE
  repeat' split at eE
  all_goals try (injection eE with eE; subst eE)
  all_goals repeat' first
    | with_reducible assumption
    | exact hR.sub
    | exact fun h => memWf_memStore h
    | exact fun h => memWf_memPut h
    | exact fun h => memWf_filter _ h
    | exact fun _ => rfl
    | with_reducible apply rel_ite
    | with_reducible apply State.dirNext_keeps
    | with_reducible apply State.emit_keeps
    | with_reducible apply State.flashMessage_keeps
    | with_reducible apply State.lapseToLocal_keeps
    | with_reducible apply State.message_keeps
    | with_reducible apply State.packageReset_keeps
    | with_reducible apply State.powerOn_keeps
    | with_reducible apply State.reach_keeps
    | fail_if_no_progress (with_reducible apply hR.upd; all_goals try first | with_reducible exact .inr rfl | exact .inl (by decide +kernel) | exact id)
    | dsimp only
    | intro _ _
    | intro _
    | contradiction
    | (unfold id)
    | split
    | (rename_i hh; injection hh with hh; subst hh)
    | (rename_i hh; split at hh)

theorem execPpsEnd_keeps {R : State → Prop} (hR : Keeps partsPpsEnd fieldsPpsEnd R) (s : State)
    (hI : R s) {tT : State} (eE : execPpsEnd s = .next tT) : R tT := by
  unfold execPpsEnd at eE
  try dsimp only at eE
  repeat' split at eE
  all_goals try (injection eE with eE; subst eE)
  all_goals repeat' first
    | with_reducible assumption
    | exact hR.sub
    | exact fun h => memWf_memStore h
    | exact fun h => memWf_memPut h
    | exact fun h => memWf_filter _ h
    | exact fun _ => rfl
    | with_reducible apply rel_ite
    | with_reducible apply State.dirNext_keeps
    | with_reducible apply State.emit_keeps
    | with_reducible apply State.flashMessage_keeps
    | with_reducible apply State.lapseTo_keeps
    | with_reducible apply State.message_keeps
    | with_reducible apply State.packageReset_keeps
    | with_reducible apply State.powerOn_keeps
    | with_reducible apply State.reach_keeps
    | fail_if_no_progress (with_reducible apply hR.upd; all_goals try first | with_reducible exact .inr rfl | exact .inl (by decide +kernel) | exact id)
    | dsimp only
    | intro _ _
    | intro _
    | contradiction
    | (unfold id)
    | split
    | (rename_i hh; injection hh with hh; subst hh)
    | (rename_i hh; split at hh)

theorem State.runTime_keeps {R : State → Prop} (hR : Keeps [.qps] ⟨[], [], [], false⟩ R) (s : State) (q sub : Nat) (k : Nat → Nat → Nat → State → State)
    (hI : R s) (hk : ∀ n d f s, R s → R (k n d f s)) : R (State.runTime s q sub k) := by
  unfold State.runTime
  repeat' first
    | with_reducible assumption
    | exact hR.sub
    | exact State.startOp_keeps hR.sub s q _ k hI hk
    | split

theorem execTimeRead_keeps {R : State → Prop} (hR : Keeps partsTimeRead fieldsTimeRead R) (q : Fin 1024) (s : State)
    (hI : R s) {tT : State} (eE : execTimeRead q s = .next tT) : R tT := by
  unfold execTimeRead at eE
  try dsimp only at eE
  repeat' split at eE
  all_goals try (injection eE with eE; subst eE)
  all_goals repeat' first
    | with_reducible assumption
    | exact hR.sub
    | with_reducible apply rel_ite
    | with_reducible apply State.dirNext_keeps
    | with_reducible apply State.flashMessage_keeps
    | with_reducible apply State.hostData_keeps
    | with_reducible apply State.jobDone_keeps
    | with_reducible apply State.message_keeps
    | with_reducible apply State.packageReset_keeps
    | with_reducible apply State.powerOn_keeps
    | with_reducible apply State.reach_keeps
    | with_reducible apply State.runTime_keeps
    | dsimp only
    | intro _ _
    | intro _
    | contradiction
    | (unfold id)
    | split
    | (rename_i hh; injection hh with hh; subst hh)
    | (rename_i hh; split at hh)

theorem execTimeStep_keeps {R : State → Prop} (hR : Keeps partsTimeStep fieldsTimeStep R) (q : Fin 1024) (s : State)
    (hI : R s) {tT : State} (eE : execTimeStep q s = .next tT) : R tT := by
  unfold execTimeStep at eE
  try dsimp only at eE
  repeat' split at eE
  all_goals try (injection eE with eE; subst eE)
  all_goals repeat' first
    | with_reducible assumption
    | exact hR.sub
    | with_reducible apply rel_ite
    | with_reducible apply State.dirNext_keeps
    | with_reducible apply State.flashMessage_keeps
    | with_reducible apply State.jobDone_keeps
    | with_reducible apply State.message_keeps
    | with_reducible apply State.packageReset_keeps
    | with_reducible apply State.powerOn_keeps
    | with_reducible apply State.reach_keeps
    | with_reducible apply State.runTime_keeps
    | with_reducible apply State.sxRequest_keeps
    | dsimp only
    | intro _ _
    | intro _
    | contradiction
    | (unfold id)
    | split
    | (rename_i hh; injection hh with hh; subst hh)
    | (rename_i hh; split at hh)

theorem execTimeAdjust_keeps {R : State → Prop} (hR : Keeps partsTimeAdjust fieldsTimeAdjust R) (q : Fin 1024) (s : State)
    (hI : R s) {tT : State} (eE : execTimeAdjust q s = .next tT) : R tT := by
  unfold execTimeAdjust at eE
  try dsimp only at eE
  repeat' split at eE
  all_goals try (injection eE with eE; subst eE)
  all_goals repeat' first
    | with_reducible assumption
    | exact hR.sub
    | with_reducible apply rel_ite
    | with_reducible refine hR.wr _ _ _ (by decide +kernel) (by first | decide +kernel | exact hasFld_self _ _ | exact hasFld_all _ | (simp [hasFld]; done) ) ?_
    | with_reducible apply State.dirNext_keeps
    | with_reducible apply State.flashMessage_keeps
    | with_reducible apply State.jobDone_keeps
    | with_reducible apply State.message_keeps
    | with_reducible apply State.packageReset_keeps
    | with_reducible apply State.powerOn_keeps
    | with_reducible apply State.reach_keeps
    | with_reducible apply State.runTime_keeps
    | dsimp only
    | intro _ _
    | intro _
    | contradiction
    | (unfold id)
    | split
    | (rename_i hh; injection hh with hh; subst hh)
    | (rename_i hh; split at hh)

end Sys2Proof.Machine
end

