-- ==== Sys2Proof/Laws/KeepsClocks.lean ====
section
/-! SUPPORT. What the operations of `Machine/Clocks.lean` may change and what they keep. -/

namespace Sys2Proof.Machine

set_option Elab.async false
set_option linter.all false

theorem State.glide_keeps {R : State → Prop} (hR : Keeps [.regs] ⟨[.CLK_SRC_ACTIVE, .CLK_SRC_DEAD_RECK, .CLK_SRC_GLIDING, .SX_STAT_DEAD_RECK], [], [], false⟩ R) (s : State)
    (hI : R s) : R (State.glide s) := by
  unfold State.glide
  try dsimp only
  repeat' first
    | with_reducible assumption
    | exact hR.sub
    | with_reducible apply rel_ite
    | with_reducible refine hR.wr _ _ _ (by decide +kernel) (by first | decide +kernel | exact hasFld_self _ _ | exact hasFld_all _ | (simp [hasFld]; done) ) ?_
    | dsimp only
    | intro _ _
    | intro _
    | contradiction
    | (unfold id)
    | split
    | (rename_i hh; injection hh with hh; subst hh)
    | (rename_i hh; split at hh)

theorem execClkSourceSelect_keeps {R : State → Prop} (hR : Keeps partsClkSourceSelect fieldsClkSourceSelect R) (w : Writer) (sel : BitVec 2) (good spread : Bool) (s : State)
    (hI : R s) {tT : State} (eE : execClkSourceSelect w sel good spread s = .next tT) : R tT := by
  unfold execClkSourceSelect at eE
  try dsimp only at eE
  repeat' split at eE
  all_goals try (injection eE with eE; subst eE)
  all_goals repeat' first
    | with_reducible assumption
    | exact hR.sub
    | with_reducible apply rel_ite
    | with_reducible refine hR.wr _ _ _ (by decide +kernel) (by first | decide +kernel | exact hasFld_self _ _ | exact hasFld_all _ | (simp [hasFld]; done) ) ?_
    | with_reducible apply State.dirNext_keeps
    | with_reducible apply State.drop_keeps
    | with_reducible apply State.flashMessage_keeps
    | with_reducible apply State.glide_keeps
    | with_reducible apply State.message_keeps
    | with_reducible apply State.packageReset_keeps
    | with_reducible apply State.powerOn_keeps
    | with_reducible apply State.reach_keeps
    | dsimp only
    | intro _ _
    | intro _
    | contradiction
    | (unfold id)
    | split
    | (rename_i hh; injection hh with hh; subst hh)
    | (rename_i hh; split at hh)

theorem execGlideDone_keeps {R : State → Prop} (hR : Keeps partsGlideDone fieldsGlideDone R) (s : State)
    (hI : R s) {tT : State} (eE : execGlideDone s = .next tT) : R tT := by
  unfold execGlideDone at eE
  try dsimp only at eE
  repeat' split at eE
  all_goals try (injection eE with eE; subst eE)
  all_goals repeat' first
    | with_reducible assumption
    | exact hR.sub
    | with_reducible apply rel_ite
    | with_reducible refine hR.wr _ _ _ (by decide +kernel) (by first | decide +kernel | exact hasFld_self _ _ | exact hasFld_all _ | (simp [hasFld]; done) ) ?_
    | with_reducible apply State.dirNext_keeps
    | with_reducible apply State.flashMessage_keeps
    | with_reducible apply State.message_keeps
    | with_reducible apply State.packageReset_keeps
    | with_reducible apply State.powerOn_keeps
    | with_reducible apply State.reach_keeps
    | dsimp only
    | intro _ _
    | intro _
    | contradiction
    | (unfold id)
    | split
    | (rename_i hh; injection hh with hh; subst hh)
    | (rename_i hh; split at hh)

theorem State.deadReckon_keeps {R : State → Prop} (hR : Keeps [.regs, .stewards, .helm] ⟨[.CLK_MON_FAIL_EV, .CLK_MON_REF_OK, .CLK_SRC_ACTIVE, .CLK_SRC_DEAD_RECK, .CLK_SRC_GLIDING, .SX_STAT_DEAD_RECK], [], [], false⟩ R) (s : State)
    (hI : R s) : R (State.deadReckon s) := by
  unfold State.deadReckon
  try dsimp only
  repeat' first
    | with_reducible assumption
    | exact hR.sub
    | exact fun h => memWf_memStore h
    | exact fun h => memWf_memPut h
    | exact fun h => memWf_filter _ h
    | exact fun _ => rfl
    | with_reducible apply rel_ite
    | with_reducible refine hR.wr _ _ _ (by decide +kernel) (by first | decide +kernel | exact hasFld_self _ _ | exact hasFld_all _ | (simp [hasFld]; done) ) ?_
    | with_reducible apply State.raise_keeps
    | with_reducible apply State.setHelm_keeps
    | (with_reducible apply rel_foldl; intro _ _ _)
    | (with_reducible apply rel_foldl2; intro _ _ _)
    | (with_reducible apply rel_foldl3; intro _ _ _)
    | (with_reducible apply rel_foldl1; intro _ _ _)
    | fail_if_no_progress (with_reducible apply hR.upd; all_goals try first | with_reducible exact .inr rfl | exact .inl (by decide +kernel) | exact id)
    | dsimp only
    | intro _ _
    | intro _
    | contradiction
    | (unfold id)
    | split
    | (rename_i hh; injection hh with hh; subst hh)
    | (rename_i hh; split at hh)

theorem execClockSourceFail_keeps {R : State → Prop} (hR : Keeps partsClockSourceFail fieldsClockSourceFail R) (silent : Bool) (w1 w2 expect : Nat) (s : State)
    (hI : R s) {tT : State} (eE : execClockSourceFail silent w1 w2 expect s = .next tT) : R tT := by
  unfold execClockSourceFail at eE
  try dsimp only at eE
  repeat' split at eE
  all_goals try (injection eE with eE; subst eE)
  all_goals repeat' first
    | with_reducible assumption
    | exact hR.sub
    | with_reducible apply rel_ite
    | with_reducible apply State.deadReckon_keeps
    | with_reducible apply State.dirNext_keeps
    | with_reducible apply State.flashMessage_keeps
    | with_reducible apply State.message_keeps
    | with_reducible apply State.packageReset_keeps
    | with_reducible apply State.powerOn_keeps
    | with_reducible apply State.reach_keeps
    | dsimp only
    | intro _ _
    | intro _
    | contradiction
    | (unfold id)
    | split
    | (rename_i hh; injection hh with hh; subst hh)
    | (rename_i hh; split at hh)

theorem execOscErrMeasure_keeps {R : State → Prop} (hR : Keeps partsOscErrMeasure fieldsOscErrMeasure R) (err : BitVec 16) (s : State)
    (hI : R s) {tT : State} (eE : execOscErrMeasure err s = .next tT) : R tT := by
  unfold execOscErrMeasure at eE
  try dsimp only at eE
  repeat' split at eE
  all_goals try (injection eE with eE; subst eE)
  all_goals repeat' first
    | with_reducible assumption
    | exact hR.sub
    | with_reducible apply rel_ite
    | with_reducible refine hR.wr _ _ _ (by decide +kernel) (by first | decide +kernel | exact hasFld_self _ _ | exact hasFld_all _ | (simp [hasFld]; done) ) ?_
    | with_reducible apply State.dirNext_keeps
    | with_reducible apply State.flashMessage_keeps
    | with_reducible apply State.lapseTo_keeps
    | with_reducible apply State.message_keeps
    | with_reducible apply State.packageReset_keeps
    | with_reducible apply State.powerOn_keeps
    | with_reducible apply State.reach_keeps
    | dsimp only
    | intro _ _
    | intro _
    | contradiction
    | (unfold id)
    | split
    | (rename_i hh; injection hh with hh; subst hh)
    | (rename_i hh; split at hh)

theorem State.returnToSource_keeps {R : State → Prop} (hR : Keeps [.regs] ⟨[.CLK_MON_REF_OK, .CLK_SRC_ACTIVE, .CLK_SRC_DEAD_RECK, .CLK_SRC_GLIDING, .HELM_IC_PEND_BITS, .SX_STAT_DEAD_RECK], [], [], false⟩ R) (s : State)
    (hI : R s) : R (State.returnToSource s) := by
  unfold State.returnToSource
  try dsimp only
  repeat' first
    | with_reducible assumption
    | exact hR.sub
    | with_reducible apply rel_ite
    | with_reducible refine hR.wr _ _ _ (by decide +kernel) (by first | decide +kernel | exact hasFld_self _ _ | exact hasFld_all _ | (simp [hasFld]; done) ) ?_
    | with_reducible apply State.glide_keeps
    | with_reducible apply State.irq_keeps
    | dsimp only
    | intro _ _
    | intro _
    | contradiction
    | (unfold id)
    | split
    | (rename_i hh; injection hh with hh; subst hh)
    | (rename_i hh; split at hh)

theorem execClockAutoReturn_keeps {R : State → Prop} (hR : Keeps partsClockAutoReturn fieldsClockAutoReturn R) (s : State)
    (hI : R s) {tT : State} (eE : execClockAutoReturn s = .next tT) : R tT := by
  unfold execClockAutoReturn at eE
  try dsimp only at eE
  repeat' split at eE
  all_goals try (injection eE with eE; subst eE)
  all_goals repeat' first
    | with_reducible assumption
    | exact hR.sub
    | with_reducible apply rel_ite
    | with_reducible apply State.dirNext_keeps
    | with_reducible apply State.flashMessage_keeps
    | with_reducible apply State.message_keeps
    | with_reducible apply State.packageReset_keeps
    | with_reducible apply State.powerOn_keeps
    | with_reducible apply State.reach_keeps
    | with_reducible apply State.returnToSource_keeps
    | dsimp only
    | intro _ _
    | intro _
    | contradiction
    | (unfold id)
    | split
    | (rename_i hh; injection hh with hh; subst hh)
    | (rename_i hh; split at hh)

theorem execClkSrcReturn_keeps {R : State → Prop} (hR : Keeps partsClkSrcReturn fieldsClkSrcReturn R) (w : Writer) (good : Bool) (s : State)
    (hI : R s) {tT : State} (eE : execClkSrcReturn w good s = .next tT) : R tT := by
  unfold execClkSrcReturn at eE
  try dsimp only at eE
  repeat' split at eE
  all_goals try (injection eE with eE; subst eE)
  all_goals repeat' first
    | with_reducible assumption
    | exact hR.sub
    | with_reducible apply rel_ite
    | with_reducible apply State.dirNext_keeps
    | with_reducible apply State.drop_keeps
    | with_reducible apply State.flashMessage_keeps
    | with_reducible apply State.message_keeps
    | with_reducible apply State.packageReset_keeps
    | with_reducible apply State.powerOn_keeps
    | with_reducible apply State.reach_keeps
    | with_reducible apply State.returnToSource_keeps
    | dsimp only
    | intro _ _
    | intro _
    | contradiction
    | (unfold id)
    | split
    | (rename_i hh; injection hh with hh; subst hh)
    | (rename_i hh; split at hh)

theorem execClkSscWrite_keeps {R : State → Prop} (hR : Keeps partsClkSscWrite fieldsClkSscWrite R) (w : Writer) (depth freq : BitVec 8) (s : State)
    (hI : R s) {tT : State} (eE : execClkSscWrite w depth freq s = .next tT) : R tT := by
  unfold execClkSscWrite at eE
  try dsimp only at eE
  repeat' split at eE
  all_goals try (injection eE with eE; subst eE)
  all_goals repeat' first
    | with_reducible assumption
    | exact hR.sub
    | with_reducible apply rel_ite
    | with_reducible refine hR.wr _ _ _ (by decide +kernel) (by first | decide +kernel | exact hasFld_self _ _ | exact hasFld_all _ | (simp [hasFld]; done) ) ?_
    | with_reducible apply State.dirNext_keeps
    | with_reducible apply State.drop_keeps
    | with_reducible apply State.flashMessage_keeps
    | with_reducible apply State.message_keeps
    | with_reducible apply State.packageReset_keeps
    | with_reducible apply State.powerOn_keeps
    | with_reducible apply State.raise_keeps
    | with_reducible apply State.reach_keeps
    | dsimp only
    | intro _ _
    | intro _
    | contradiction
    | (unfold id)
    | split
    | (rename_i hh; injection hh with hh; subst hh)
    | (rename_i hh; split at hh)

theorem State.clkout_keeps {R : State → Prop} (hR : Keeps [.out, .stewards] ⟨[], [], [], false⟩ R) (s : State) (i : Nat)
    (hI : R s) : R (State.clkout s i) := by
  unfold State.clkout
  try dsimp only
  repeat' first
    | with_reducible assumption
    | exact hR.sub
    | with_reducible apply rel_ite
    | with_reducible apply State.emit_keeps
    | with_reducible apply State.raise_keeps
    | dsimp only
    | intro _ _
    | intro _
    | contradiction
    | (unfold id)
    | split
    | (rename_i hh; injection hh with hh; subst hh)
    | (rename_i hh; split at hh)

theorem execClkoutSwitch_keeps {R : State → Prop} (hR : Keeps partsClkoutSwitch fieldsClkoutSwitch R) (w : Writer) (i : Fin 2) (src : BitVec 2) (s : State)
    (hI : R s) {tT : State} (eE : execClkoutSwitch w i src s = .next tT) : R tT := by
  unfold execClkoutSwitch at eE
  try dsimp only at eE
  repeat' split at eE
  all_goals try (injection eE with eE; subst eE)
  all_goals repeat' first
    | with_reducible assumption
    | exact hR.sub
    | with_reducible apply rel_ite
    | with_reducible refine hR.wr _ _ _ (by decide +kernel) (by first | decide +kernel | exact hasFld_self _ _ | exact hasFld_all _ | (simp [hasFld]; done) ) ?_
    | with_reducible apply State.clkout_keeps
    | with_reducible apply State.dirNext_keeps
    | with_reducible apply State.emit_keeps
    | with_reducible apply State.flashMessage_keeps
    | with_reducible apply State.message_keeps
    | with_reducible apply State.packageReset_keeps
    | with_reducible apply State.powerOn_keeps
    | with_reducible apply State.reach_keeps
    | dsimp only
    | intro _ _
    | intro _
    | contradiction
    | (unfold id)
    | split
    | (rename_i hh; injection hh with hh; subst hh)
    | (rename_i hh; split at hh)

theorem State.spineMoved_keeps {R : State → Prop} (hR : Keeps [.out, .stewards] ⟨[], [], [], false⟩ R) (s : State) (k f : Nat)
    (hI : R s) : R (State.spineMoved s k f) := by
  unfold State.spineMoved
  try dsimp only
  repeat' first
    | with_reducible assumption
    | exact hR.sub
    | with_reducible apply rel_ite
    | with_reducible apply State.clkout_keeps
    | (with_reducible apply rel_foldl; intro _ _ _)
    | (with_reducible apply rel_foldl2; intro _ _ _)
    | (with_reducible apply rel_foldl3; intro _ _ _)
    | (with_reducible apply rel_foldl1; intro _ _ _)
    | dsimp only
    | intro _ _
    | intro _
    | contradiction
    | (unfold id)
    | split
    | (rename_i hh; injection hh with hh; subst hh)
    | (rename_i hh; split at hh)

theorem State.setSynth_keeps {R : State → Prop} (hR : Keeps [.out, .stewards, .synth] ⟨[], [], [], false⟩ R) (s : State) (n k : Nat) (x : Synth)
    (hI : R s) : R (State.setSynth s n k x) := by
  unfold State.setSynth
  try dsimp only
  repeat' first
    | with_reducible assumption
    | exact hR.sub
    | exact fun h => memWf_memStore h
    | exact fun h => memWf_memPut h
    | exact fun h => memWf_filter _ h
    | exact fun _ => rfl
    | with_reducible apply rel_ite
    | with_reducible apply State.spineMoved_keeps
    | fail_if_no_progress (with_reducible apply hR.upd; all_goals try first | with_reducible exact .inr rfl | exact .inl (by decide +kernel) | exact id)
    | dsimp only
    | intro _ _
    | intro _
    | contradiction
    | (unfold id)
    | split
    | (rename_i hh; injection hh with hh; subst hh)
    | (rename_i hh; split at hh)

theorem State.setGliding_keeps {R : State → Prop} (hR : Keeps [.regs] ⟨[.FSYN_CTL_GLIDING, .SPN_SYN_GLIDING], [], [], false⟩ R) (s : State) (n k v : Nat)
    (hI : R s) : R (State.setGliding s n k v) := by
  unfold State.setGliding
  try dsimp only
  repeat' first
    | with_reducible assumption
    | exact hR.sub
    | with_reducible apply rel_ite
    | with_reducible refine hR.wr _ _ _ (by decide +kernel) (by first | decide +kernel | exact hasFld_self _ _ | exact hasFld_all _ | (simp [hasFld]; done) ) ?_
    | dsimp only
    | intro _ _
    | intro _
    | contradiction
    | (unfold id)
    | split
    | (rename_i hh; injection hh with hh; subst hh)
    | (rename_i hh; split at hh)

theorem State.synthGo_keeps {R : State → Prop} (hR : Keeps [.regs, .out, .stewards, .synth] ⟨[.FSYN_CTL_GLIDING, .FSYN_CTL_LOCKED, .SPN_SYN_GLIDING], [], [], false⟩ R) (s : State) (n k f : Nat)
    (hI : R s) : R (State.synthGo s n k f) := by
  unfold State.synthGo
  try dsimp only
  repeat' first
    | with_reducible assumption
    | exact hR.sub
    | exact fun h => memWf_memStore h
    | exact fun h => memWf_memPut h
    | exact fun h => memWf_filter _ h
    | exact fun _ => rfl
    | with_reducible apply rel_ite
    | with_reducible refine hR.wr _ _ _ (by decide +kernel) (by first | decide +kernel | exact hasFld_self _ _ | exact hasFld_all _ | (simp [hasFld]; done) ) ?_
    | with_reducible apply State.setGliding_keeps
    | with_reducible apply State.setSynth_keeps
    | fail_if_no_progress (with_reducible apply hR.upd; all_goals try first | with_reducible exact .inr rfl | exact .inl (by decide +kernel) | exact id)
    | dsimp only
    | intro _ _
    | intro _
    | contradiction
    | (unfold id)
    | split
    | (rename_i hh; injection hh with hh; subst hh)
    | (rename_i hh; split at hh)

theorem execSpnSynWrite_keeps {R : State → Prop} (hR : Keeps partsSpnSynWrite fieldsSpnSynWrite R) (w : Writer) (k : Fin 8) (freq : BitVec 21) (s : State)
    (hI : R s) {tT : State} (eE : execSpnSynWrite w k freq s = .next tT) : R tT := by
  unfold execSpnSynWrite at eE
  try dsimp only at eE
  repeat' split at eE
  all_goals try (injection eE with eE; subst eE)
  all_goals repeat' first
    | with_reducible assumption
    | exact hR.sub
    | with_reducible apply rel_ite
    | with_reducible refine hR.wr _ _ _ (by decide +kernel) (by first | decide +kernel | exact hasFld_self _ _ | exact hasFld_all _ | (simp [hasFld]; done) ) ?_
    | with_reducible apply State.dirNext_keeps
    | with_reducible apply State.drop_keeps
    | with_reducible apply State.flashMessage_keeps
    | with_reducible apply State.message_keeps
    | with_reducible apply State.packageReset_keeps
    | with_reducible apply State.powerOn_keeps
    | with_reducible apply State.reach_keeps
    | with_reducible apply State.synthGo_keeps
    | (with_reducible apply rel_foldl; intro _ _ _)
    | (with_reducible apply rel_foldl2; intro _ _ _)
    | (with_reducible apply rel_foldl3; intro _ _ _)
    | (with_reducible apply rel_foldl1; intro _ _ _)
    | dsimp only
    | intro _ _
    | intro _
    | contradiction
    | (unfold id)
    | split
    | (rename_i hh; injection hh with hh; subst hh)
    | (rename_i hh; split at hh)

theorem execFsynFreqWrite_keeps {R : State → Prop} (hR : Keeps partsFsynFreqWrite fieldsFsynFreqWrite R) (w : Writer) (n : Fin 8) (k v : Fin 4) (freq : BitVec 21) (s : State)
    (hI : R s) {tT : State} (eE : execFsynFreqWrite w n k v freq s = .next tT) : R tT := by
  unfold execFsynFreqWrite at eE
  try dsimp only at eE
  repeat' split at eE
  all_goals try (injection eE with eE; subst eE)
  all_goals repeat' first
    | with_reducible assumption
    | exact hR.sub
    | with_reducible apply rel_ite
    | with_reducible refine hR.wr _ _ _ (by decide +kernel) (by first | decide +kernel | exact hasFld_self _ _ | exact hasFld_all _ | (simp [hasFld]; done) ) ?_
    | with_reducible apply State.dirNext_keeps
    | with_reducible apply State.drop_keeps
    | with_reducible apply State.flashMessage_keeps
    | with_reducible apply State.message_keeps
    | with_reducible apply State.packageReset_keeps
    | with_reducible apply State.powerOn_keeps
    | with_reducible apply State.reach_keeps
    | with_reducible apply State.synthGo_keeps
    | dsimp only
    | intro _ _
    | intro _
    | contradiction
    | (unfold id)
    | split
    | (rename_i hh; injection hh with hh; subst hh)
    | (rename_i hh; split at hh)

theorem State.setFvs_keeps {R : State → Prop} (hR : Keeps [.fvs] ⟨[], [], [], false⟩ R) (s : State) (n : Nat) (x : Fvs)
    (hI : R s) : R (State.setFvs s n x) := by
  unfold State.setFvs
  try dsimp only
  repeat' first
    | with_reducible assumption
    | exact hR.sub
    | exact fun h => memWf_memStore h
    | exact fun h => memWf_memPut h
    | exact fun h => memWf_filter _ h
    | exact fun _ => rfl
    | with_reducible apply rel_ite
    | fail_if_no_progress (with_reducible apply hR.upd; all_goals try first | with_reducible exact .inr rfl | exact .inl (by decide +kernel) | exact id)
    | dsimp only
    | intro _ _
    | intro _
    | contradiction
    | (unfold id)
    | split
    | (rename_i hh; injection hh with hh; subst hh)
    | (rename_i hh; split at hh)

theorem State.fvsEnd_keeps {R : State → Prop} (hR : Keeps [.regs, .fvs] ⟨[.FVS_STAT_BUSY, .FVS_STAT_FAIL], [], [], false⟩ R) (s : State) (n : Nat) (failed : Bool)
    (hI : R s) : R (State.fvsEnd s n failed) := by
  unfold State.fvsEnd
  try dsimp only
  repeat' first
    | with_reducible assumption
    | exact hR.sub
    | with_reducible apply rel_ite
    | with_reducible refine hR.wr _ _ _ (by decide +kernel) (by first | decide +kernel | exact hasFld_self _ _ | exact hasFld_all _ | (simp [hasFld]; done) ) ?_
    | with_reducible apply State.setFvs_keeps
    | dsimp only
    | intro _ _
    | intro _
    | contradiction
    | (unfold id)
    | split
    | (rename_i hh; injection hh with hh; subst hh)
    | (rename_i hh; split at hh)

theorem State.fvsRail_keeps {R : State → Prop} (hR : Keeps [.out, .fvs] ⟨[], [], [], false⟩ R) (s : State) (n : Nat)
    (hI : R s) : R (State.fvsRail s n) := by
  unfold State.fvsRail
  try dsimp only
  repeat' first
    | with_reducible assumption
    | exact hR.sub
    | with_reducible apply rel_ite
    | with_reducible apply State.emit_keeps
    | with_reducible apply State.setFvs_keeps
    | dsimp only
    | intro _ _
    | intro _
    | contradiction
    | (unfold id)
    | split
    | (rename_i hh; injection hh with hh; subst hh)
    | (rename_i hh; split at hh)

theorem State.fvsAdvance_keeps {R : State → Prop} (hR : Keeps [.regs, .out, .fvs] ⟨[.FVS_STAT_BUSY, .FVS_STAT_FAIL], [], [], false⟩ R) (s : State) (n : Nat)
    (hI : R s) : R (State.fvsAdvance s n) := by
  unfold State.fvsAdvance
  try dsimp only
  repeat' first
    | with_reducible assumption
    | exact hR.sub
    | with_reducible apply rel_ite
    | with_reducible apply State.fvsEnd_keeps
    | with_reducible apply State.fvsRail_keeps
    | dsimp only
    | intro _ _
    | intro _
    | contradiction
    | (unfold id)
    | split
    | (rename_i hh; injection hh with hh; subst hh)
    | (rename_i hh; split at hh)

theorem State.riseTimeouts_keeps {R : State → Prop} (hR : Keeps [.regs, .govs, .fvs] ⟨[.FSYN_CTL_PERMIT_WAIT, .FVS_STAT_BUSY, .FVS_STAT_FAIL], [], [], false⟩ R) (s : State) (n : Nat)
    (hI : R s) : R (State.riseTimeouts s n) := by
  unfold State.riseTimeouts
  try dsimp only
  repeat' first
    | with_reducible assumption
    | exact hR.sub
    | with_reducible apply rel_ite
    | with_reducible refine hR.wr _ _ _ (by decide +kernel) (by first | decide +kernel | exact hasFld_self _ _ | exact hasFld_all _ | (simp [hasFld]; done) ) ?_
    | with_reducible apply State.fvsEnd_keeps
    | with_reducible apply State.giveBack_keeps
    | (with_reducible apply rel_foldl; intro _ _ _)
    | (with_reducible apply rel_foldl2; intro _ _ _)
    | (with_reducible apply rel_foldl3; intro _ _ _)
    | (with_reducible apply rel_foldl1; intro _ _ _)
    | dsimp only
    | intro _ _
    | intro _
    | contradiction
    | (unfold id)
    | split
    | (rename_i hh; injection hh with hh; subst hh)
    | (rename_i hh; split at hh)

def opFieldsFvsRise : FSet :=
  ⟨[.FSYN_CTL_GLIDING, .FSYN_CTL_LOCKED, .FSYN_CTL_PERMIT_WAIT, .FVS_STAT_BUSY, .FVS_STAT_FAIL, .PG_ERR_OP,
    .PG_ERR_OVERSIZE, .PG_ERR_UNITS, .PG_ERR_VALID, .PG_TO_CNT_COUNT, .SPN_SYN_GLIDING], [], [], false⟩

theorem State.fvsRise_keeps {R : State → Prop} (hR : Keeps [.regs, .out, .stewards, .govs, .synth, .fvs] opFieldsFvsRise R) (s : State) (n : Nat)
    (hI : R s) : R (State.fvsRise s n) := by
  unfold State.fvsRise
  try dsimp only
  repeat' first
    | with_reducible assumption
    | exact hR.sub
    | with_reducible apply rel_ite
    | with_reducible refine hR.wr _ _ _ (by decide +kernel) (by first | decide +kernel | exact hasFld_self _ _ | exact hasFld_all _ | (simp [hasFld]; done) ) ?_
    | with_reducible apply State.fvsAdvance_keeps
    | with_reducible apply State.request_keeps
    | with_reducible apply State.riseTimeouts_keeps
    | with_reducible apply State.setFvs_keeps
    | with_reducible apply State.synthGo_keeps
    | (with_reducible apply rel_foldl; intro _ _ _)
    | (with_reducible apply rel_foldl2; intro _ _ _)
    | (with_reducible apply rel_foldl3; intro _ _ _)
    | (with_reducible apply rel_foldl1; intro _ _ _)
    | dsimp only
    | intro _ _
    | intro _
    | contradiction
    | (unfold id)
    | split
    | (rename_i hh; injection hh with hh; subst hh)
    | (rename_i hh; split at hh)

theorem execVselSequence_keeps {R : State → Prop} (hR : Keeps partsVselSequence fieldsVselSequence R) (w : Writer) (n : Fin 8) (v : BitVec 2) (s : State)
    (hI : R s) {tT : State} (eE : execVselSequence w n v s = .next tT) : R tT := by
  unfold execVselSequence at eE
  try dsimp only at eE
  repeat' split at eE
  all_goals try (injection eE with eE; subst eE)
  all_goals repeat' first
    | with_reducible assumption
    | exact hR.sub
    | with_reducible apply rel_ite
    | with_reducible refine hR.wr _ _ _ (by decide +kernel) (by first | decide +kernel | exact hasFld_self _ _ | exact hasFld_all _ | (simp [hasFld]; done) ) ?_
    | with_reducible apply State.dirNext_keeps
    | with_reducible apply State.drop_keeps
    | with_reducible apply State.flashMessage_keeps
    | with_reducible apply State.fvsAdvance_keeps
    | with_reducible apply State.message_keeps
    | with_reducible apply State.packageReset_keeps
    | with_reducible apply State.powerOn_keeps
    | with_reducible apply State.reach_keeps
    | with_reducible apply State.setFvs_keeps
    | with_reducible apply State.synthGo_keeps
    | (with_reducible apply rel_foldl; intro _ _ _)
    | (with_reducible apply rel_foldl2; intro _ _ _)
    | (with_reducible apply rel_foldl3; intro _ _ _)
    | (with_reducible apply rel_foldl1; intro _ _ _)
    | dsimp only
    | intro _ _
    | intro _
    | contradiction
    | (unfold id)
    | split
    | (rename_i hh; injection hh with hh; subst hh)
    | (rename_i hh; split at hh)

theorem execSynthGlideStep_keeps {R : State → Prop} (hR : Keeps partsSynthGlideStep fieldsSynthGlideStep R) (n : Fin 9) (k : Fin 8) (s : State)
    (hI : R s) {tT : State} (eE : execSynthGlideStep n k s = .next tT) : R tT := by
  unfold execSynthGlideStep at eE
  try dsimp only at eE
  repeat' split at eE
  all_goals try (injection eE with eE; subst eE)
  all_goals repeat' first
    | with_reducible assumption
    | exact hR.sub
    | exact fun h => memWf_memStore h
    | exact fun h => memWf_memPut h
    | exact fun h => memWf_filter _ h
    | exact fun _ => rfl
    | with_reducible apply rel_ite
    | with_reducible apply State.dirNext_keeps
    | with_reducible apply State.flashMessage_keeps
    | with_reducible apply State.fvsAdvance_keeps
    | with_reducible apply State.lapse_keeps
    | with_reducible apply State.message_keeps
    | with_reducible apply State.packageReset_keeps
    | with_reducible apply State.powerOn_keeps
    | with_reducible apply State.reach_keeps
    | with_reducible apply State.setGliding_keeps
    | with_reducible apply State.setSynth_keeps
    | with_reducible apply State.synthGo_keeps
    | fail_if_no_progress (with_reducible apply hR.upd; all_goals try first | with_reducible exact .inr rfl | exact .inl (by decide +kernel) | exact id)
    | dsimp only
    | intro _ _
    | intro _
    | contradiction
    | (unfold id)
    | split
    | (rename_i hh; injection hh with hh; subst hh)
    | (rename_i hh; split at hh)

theorem execRailSettleCheck_keeps {R : State → Prop} (hR : Keeps partsRailSettleCheck fieldsRailSettleCheck R) (n : Fin 8) (ok : Bool) (s : State)
    (hI : R s) {tT : State} (eE : execRailSettleCheck n ok s = .next tT) : R tT := by
  unfold execRailSettleCheck at eE
  try dsimp only at eE
  repeat' split at eE
  all_goals try (injection eE with eE; subst eE)
  all_goals repeat' first
    | with_reducible assumption
    | exact hR.sub
    | exact fun h => memWf_memStore h
    | exact fun h => memWf_memPut h
    | exact fun h => memWf_filter _ h
    | exact fun _ => rfl
    | with_reducible apply rel_ite
    | with_reducible refine hR.wr _ _ _ (by decide +kernel) (by first | decide +kernel | exact hasFld_self _ _ | exact hasFld_all _ | (simp [hasFld]; done) ) ?_
    | with_reducible apply State.dirNext_keeps
    | with_reducible apply State.flashMessage_keeps
    | with_reducible apply State.fvsEnd_keeps
    | with_reducible apply State.fvsRise_keeps
    | with_reducible apply State.lapseTo_keeps
    | with_reducible apply State.message_keeps
    | with_reducible apply State.packageReset_keeps
    | with_reducible apply State.powerOn_keeps
    | with_reducible apply State.raise_keeps
    | with_reducible apply State.reach_keeps
    | with_reducible apply State.setFvs_keeps
    | fail_if_no_progress (with_reducible apply hR.upd; all_goals try first | with_reducible exact .inr rfl | exact .inl (by decide +kernel) | exact id)
    | dsimp only
    | intro _ _
    | intro _
    | contradiction
    | (unfold id)
    | split
    | (rename_i hh; injection hh with hh; subst hh)
    | (rename_i hh; split at hh)

theorem execSynthRiseGrant_keeps {R : State → Prop} (hR : Keeps partsSynthRiseGrant fieldsSynthRiseGrant R) (n : Fin 8) (k : Fin 4) (s : State)
    (hI : R s) {tT : State} (eE : execSynthRiseGrant n k s = .next tT) : R tT := by
  unfold execSynthRiseGrant at eE
  try dsimp only at eE
  repeat' split at eE
  all_goals try (injection eE with eE; subst eE)
  all_goals repeat' first
    | with_reducible assumption
    | exact hR.sub
    | exact fun h => memWf_memStore h
    | exact fun h => memWf_memPut h
    | exact fun h => memWf_filter _ h
    | exact fun _ => rfl
    | with_reducible apply rel_ite
    | with_reducible refine hR.wr _ _ _ (by decide +kernel) (by first | decide +kernel | exact hasFld_self _ _ | exact hasFld_all _ | (simp [hasFld]; done) ) ?_
    | with_reducible apply State.dirNext_keeps
    | with_reducible apply State.flashMessage_keeps
    | with_reducible apply State.fvsAdvance_keeps
    | with_reducible apply State.message_keeps
    | with_reducible apply State.packageReset_keeps
    | with_reducible apply State.powerOn_keeps
    | with_reducible apply State.reach_keeps
    | with_reducible apply State.synthGo_keeps
    | (refine State.takeGrant_keeps hR.sub _ _ _ _ ?_ (by assumption))
    | fail_if_no_progress (with_reducible apply hR.upd; all_goals try first | with_reducible exact .inr rfl | exact .inl (by decide +kernel) | exact id)
    | dsimp only
    | intro _ _
    | intro _
    | contradiction
    | (unfold id)
    | split
    | (rename_i hh; injection hh with hh; subst hh)
    | (rename_i hh; split at hh)

end Sys2Proof.Machine
end

