-- ==== Sys2Proof/Laws/KeepsHelm.lean ====
section
/-! SUPPORT. What the operations of `Machine/Helm.lean` may change and what they keep. -/

namespace Sys2Proof.Machine

set_option Elab.async false
set_option linter.all false

theorem State.setCore_keeps {R : State → Prop} (hR : Keeps [.regs] ⟨[.HELM_CORE_STAT_STATE], [], [], false⟩ R) (s : State) (c v : Nat)
    (hI : R s) : R (State.setCore s c v) := by
  unfold State.setCore
  try dsimp only
  repeat' first
    | with_reducible assumption
    | exact hR.sub
    | with_reducible apply rel_ite
    | with_reducible refine hR.wr _ _ _ (by decide +kernel) (by first | decide +kernel | exact hasFld_self _ _ | exact hasFld_all _ | (simp [hasFld]; done) ) ?_
    | dsimp only
    | intro _ _
    | intro _
    | contradiction
    | (unfold id)
    | split
    | (rename_i hh; injection hh with hh; subst hh)
    | (rename_i hh; split at hh)

theorem State.relock_keeps {R : State → Prop} (hR : Keeps [.helm] ⟨[], [], [], false⟩ R) (s : State) (c : Nat)
    (hI : R s) : R (State.relock s c) := by
  unfold State.relock
  try dsimp only
  repeat' first
    | with_reducible assumption
    | exact hR.sub
    | exact fun h => memWf_memStore h
    | exact fun h => memWf_memPut h
    | exact fun h => memWf_filter _ h
    | exact fun _ => rfl
    | with_reducible apply rel_ite
    | with_reducible apply State.setHelm_keeps
    | fail_if_no_progress (with_reducible apply hR.upd; all_goals try first | with_reducible exact .inr rfl | exact .inl (by decide +kernel) | exact id)
    | dsimp only
    | intro _ _
    | intro _
    | contradiction
    | (unfold id)
    | split
    | (rename_i hh; injection hh with hh; subst hh)
    | (rename_i hh; split at hh)

theorem State.blockWrite_keeps {R : State → Prop} (hR : Keeps [.stewards, .helm] ⟨[], [], [], false⟩ R) (s : State) (w : Writer) (r : Reg) (c v : Nat) (k : State → State)
    (hI : R s) (hk : ∀  s, R s → R (k  s)) : R (State.blockWrite s w r c v k) := by
  unfold State.blockWrite
  try dsimp only
  repeat' first
    | with_reducible assumption
    | exact hR.sub
    | with_reducible apply rel_ite
    | (with_reducible apply hk)
    | with_reducible apply State.drop_keeps
    | with_reducible apply State.relock_keeps
    | dsimp only
    | intro _ _
    | intro _
    | contradiction
    | (unfold id)
    | split
    | (rename_i hh; injection hh with hh; subst hh)
    | (rename_i hh; split at hh)

theorem State.debugWrite_keeps {R : State → Prop} (hR : Keeps [.stewards, .helm] ⟨[], [], [], false⟩ R) (s : State) (w : Writer) (r : Reg) (c v : Nat) (k : State → State)
    (hI : R s) (hk : ∀  s, R s → R (k  s)) : R (State.debugWrite s w r c v k) := by
  unfold State.debugWrite
  try dsimp only
  repeat' first
    | with_reducible assumption
    | exact hR.sub
    | exact fun h => memWf_memStore h
    | exact fun h => memWf_memPut h
    | exact fun h => memWf_filter _ h
    | exact fun _ => rfl
    | with_reducible apply rel_ite
    | (with_reducible apply hk)
    | with_reducible apply State.blockWrite_keeps
    | with_reducible apply State.drop_keeps
    | fail_if_no_progress (with_reducible apply hR.upd; all_goals try first | with_reducible exact .inr rfl | exact .inl (by decide +kernel) | exact id)
    | dsimp only
    | intro _ _
    | intro _
    | contradiction
    | (unfold id)
    | split
    | (rename_i hh; injection hh with hh; subst hh)
    | (rename_i hh; split at hh)

theorem State.wdSync_keeps {R : State → Prop} (hR : Keeps [.helm] ⟨[], [], [], false⟩ R) (s : State) (c : Nat)
    (hI : R s) : R (State.wdSync s c) := by
  unfold State.wdSync
  try dsimp only
  repeat' first
    | with_reducible assumption
    | exact hR.sub
    | exact fun h => memWf_memStore h
    | exact fun h => memWf_memPut h
    | exact fun h => memWf_filter _ h
    | exact fun _ => rfl
    | with_reducible apply rel_ite
    | with_reducible apply State.setHelm_keeps
    | fail_if_no_progress (with_reducible apply hR.upd; all_goals try first | with_reducible exact .inr rfl | exact .inl (by decide +kernel) | exact id)
    | dsimp only
    | intro _ _
    | intro _
    | contradiction
    | (unfold id)
    | split
    | (rename_i hh; injection hh with hh; subst hh)
    | (rename_i hh; split at hh)

theorem State.wdLoad_keeps {R : State → Prop} (hR : Keeps [.helm] ⟨[], [], [], false⟩ R) (s : State) (c : Nat)
    (hI : R s) : R (State.wdLoad s c) := by
  unfold State.wdLoad
  try dsimp only
  repeat' first
    | with_reducible assumption
    | exact hR.sub
    | exact fun h => memWf_memStore h
    | exact fun h => memWf_memPut h
    | exact fun h => memWf_filter _ h
    | exact fun _ => rfl
    | with_reducible apply rel_ite
    | with_reducible apply State.setHelm_keeps
    | with_reducible apply State.wdSync_keeps
    | fail_if_no_progress (with_reducible apply hR.upd; all_goals try first | with_reducible exact .inr rfl | exact .inl (by decide +kernel) | exact id)
    | dsimp only
    | intro _ _
    | intro _
    | contradiction
    | (unfold id)
    | split
    | (rename_i hh; injection hh with hh; subst hh)
    | (rename_i hh; split at hh)

theorem State.wdThaw_keeps {R : State → Prop} (hR : Keeps [.helm] ⟨[], [], [], false⟩ R) (s : State) (c : Nat)
    (hI : R s) : R (State.wdThaw s c) := by
  unfold State.wdThaw
  try dsimp only
  repeat' first
    | with_reducible assumption
    | exact hR.sub
    | exact fun h => memWf_memStore h
    | exact fun h => memWf_memPut h
    | exact fun h => memWf_filter _ h
    | exact fun _ => rfl
    | with_reducible apply rel_ite
    | with_reducible apply State.setHelm_keeps
    | with_reducible apply State.wdSync_keeps
    | fail_if_no_progress (with_reducible apply hR.upd; all_goals try first | with_reducible exact .inr rfl | exact .inl (by decide +kernel) | exact id)
    | dsimp only
    | intro _ _
    | intro _
    | contradiction
    | (unfold id)
    | split
    | (rename_i hh; injection hh with hh; subst hh)
    | (rename_i hh; split at hh)

theorem execWdtKick_keeps {R : State → Prop} (hR : Keeps partsWdtKick fieldsWdtKick R) (w : Writer) (c : Fin 8) (key : BitVec 16) (s : State)
    (hI : R s) {tT : State} (eE : execWdtKick w c key s = .next tT) : R tT := by
  unfold execWdtKick at eE
  try dsimp only at eE
  repeat' split at eE
  all_goals try (injection eE with eE; subst eE)
  all_goals repeat' first
    | with_reducible assumption
    | exact hR.sub
    | with_reducible apply rel_ite
    | with_reducible refine hR.wr _ _ _ (by decide +kernel) (by first | decide +kernel | exact hasFld_self _ _ | exact hasFld_all _ | (simp [hasFld]; done) ) ?_
    | with_reducible apply State.blockWrite_keeps
    | with_reducible apply State.dirNext_keeps
    | with_reducible apply State.drop_keeps
    | with_reducible apply State.flashMessage_keeps
    | with_reducible apply State.message_keeps
    | with_reducible apply State.packageReset_keeps
    | with_reducible apply State.powerOn_keeps
    | with_reducible apply State.reach_keeps
    | with_reducible apply State.wdLoad_keeps
    | dsimp only
    | intro _ _
    | intro _
    | contradiction
    | (unfold id)
    | split
    | (rename_i hh; injection hh with hh; subst hh)
    | (rename_i hh; split at hh)

theorem execWdtUnlock_keeps {R : State → Prop} (hR : Keeps partsWdtUnlock fieldsWdtUnlock R) (w : Writer) (c : Fin 8) (key : BitVec 16) (s : State)
    (hI : R s) {tT : State} (eE : execWdtUnlock w c key s = .next tT) : R tT := by
  unfold execWdtUnlock at eE
  try dsimp only at eE
  repeat' split at eE
  all_goals try (injection eE with eE; subst eE)
  all_goals repeat' first
    | with_reducible assumption
    | exact hR.sub
    | exact fun h => memWf_memStore h
    | exact fun h => memWf_memPut h
    | exact fun h => memWf_filter _ h
    | exact fun _ => rfl
    | with_reducible apply rel_ite
    | with_reducible apply State.blockWrite_keeps
    | with_reducible apply State.dirNext_keeps
    | with_reducible apply State.drop_keeps
    | with_reducible apply State.flashMessage_keeps
    | with_reducible apply State.message_keeps
    | with_reducible apply State.packageReset_keeps
    | with_reducible apply State.powerOn_keeps
    | with_reducible apply State.reach_keeps
    | with_reducible apply State.setHelm_keeps
    | fail_if_no_progress (with_reducible apply hR.upd; all_goals try first | with_reducible exact .inr rfl | exact .inl (by decide +kernel) | exact id)
    | dsimp only
    | intro _ _
    | intro _
    | contradiction
    | (unfold id)
    | split
    | (rename_i hh; injection hh with hh; subst hh)
    | (rename_i hh; split at hh)

theorem State.setL1_keeps {R : State → Prop} (hR : Keeps [.helmL1] ⟨[], [], [], false⟩ R) (s : State) (c k line : Nat) (x : Option HelmLine)
    (hI : R s) : R (State.setL1 s c k line x) := by
  unfold State.setL1
  try dsimp only
  repeat' first
    | with_reducible assumption
    | exact hR.sub
    | exact fun h => memWf_memStore h
    | exact fun h => memWf_memPut h
    | exact fun h => memWf_filter _ h
    | exact fun _ => rfl
    | with_reducible apply rel_ite
    | fail_if_no_progress (with_reducible apply hR.upd; all_goals try first | with_reducible exact .inr rfl | exact .inl (by decide +kernel) | exact id)
    | dsimp only
    | intro _ _
    | intro _
    | contradiction
    | (unfold id)
    | split
    | (rename_i hh; injection hh with hh; subst hh)
    | (rename_i hh; split at hh)

theorem State.setL2_keeps {R : State → Prop} (hR : Keeps [.helmL2] ⟨[], [], [], false⟩ R) (s : State) (line : Nat) (x : Option HelmLine)
    (hI : R s) : R (State.setL2 s line x) := by
  unfold State.setL2
  try dsimp only
  repeat' first
    | with_reducible assumption
    | exact hR.sub
    | exact fun h => memWf_memStore h
    | exact fun h => memWf_memPut h
    | exact fun h => memWf_filter _ h
    | exact fun _ => rfl
    | with_reducible apply rel_ite
    | fail_if_no_progress (with_reducible apply hR.upd; all_goals try first | with_reducible exact .inr rfl | exact .inl (by decide +kernel) | exact id)
    | dsimp only
    | intro _ _
    | intro _
    | contradiction
    | (unfold id)
    | split
    | (rename_i hh; injection hh with hh; subst hh)
    | (rename_i hh; split at hh)

theorem State.l1Down_keeps {R : State → Prop} (hR : Keeps [.helmL1, .helmL2] ⟨[], [], [], false⟩ R) (s : State) (line : Nat)
    (hI : R s) : R (State.l1Down s line) := by
  unfold State.l1Down
  try dsimp only
  repeat' first
    | with_reducible assumption
    | exact hR.sub
    | exact fun h => memWf_memStore h
    | exact fun h => memWf_memPut h
    | exact fun h => memWf_filter _ h
    | exact fun _ => rfl
    | with_reducible apply rel_ite
    | with_reducible apply State.setL1_keeps
    | with_reducible apply State.setL2_keeps
    | (with_reducible apply rel_foldl; intro _ _ _)
    | (with_reducible apply rel_foldl2; intro _ _ _)
    | (with_reducible apply rel_foldl3; intro _ _ _)
    | (with_reducible apply rel_foldl1; intro _ _ _)
    | fail_if_no_progress (with_reducible apply hR.upd; all_goals try first | with_reducible exact .inr rfl | exact .inl (by decide +kernel) | exact id)
    | dsimp only
    | intro _ _
    | intro _
    | contradiction
    | (unfold id)
    | split
    | (rename_i hh; injection hh with hh; subst hh)
    | (rename_i hh; split at hh)

theorem State.l1Drop_keeps {R : State → Prop} (hR : Keeps [.helmL1] ⟨[], [], [], false⟩ R) (s : State) (line but : Nat)
    (hI : R s) : R (State.l1Drop s line but) := by
  unfold State.l1Drop
  try dsimp only
  repeat' first
    | with_reducible assumption
    | exact hR.sub
    | with_reducible apply rel_ite
    | with_reducible apply State.setL1_keeps
    | (with_reducible apply rel_foldl; intro _ _ _)
    | (with_reducible apply rel_foldl2; intro _ _ _)
    | (with_reducible apply rel_foldl3; intro _ _ _)
    | (with_reducible apply rel_foldl1; intro _ _ _)
    | dsimp only
    | intro _ _
    | intro _
    | contradiction
    | (unfold id)
    | split
    | (rename_i hh; injection hh with hh; subst hh)
    | (rename_i hh; split at hh)

def opPartsHelmBelow : List Part :=
  [.regs, .draws, .stewards, .hbm, .poison, .rcLines, .rcWb, .sf, .sfAge, .haIn, .homeOut, .ccache, .helmL2, .flashC]
def opFieldsHelmBelow : FSet :=
  ⟨[.HA_BACKINV_CNT_COUNT, .HA_STAT_RECALL, .HA_STAT_SF_LEVEL, .RC_HIT_CNT_COUNT, .RC_MISS_CNT_COUNT, .RC_SNP_CNT_COUNT,
    .RC_STAT_RETAINED, .RC_WB_CNT_COUNT, .SEAL_CC_MISS_CNT_COUNT, .SEAL_DENY_CNT_COUNT, .SEAL_ERR_ADDR_HI_ADDR,
    .SEAL_ERR_ADDR_LO_ADDR, .SEAL_ERR_CODE, .SEAL_ERR_LEVEL, .SEAL_ERR_RANGE, .SEAL_ERR_VALID], [], [], false⟩

theorem State.helmBelow_keeps {R : State → Prop} (hR : Keeps opPartsHelmBelow opFieldsHelmBelow R) (s : State) (c line : Nat) (bus : Bool)
    (hI : R s) : R (State.helmBelow s c line bus).2 := by
  unfold State.helmBelow
  try dsimp only
  repeat' first
    | with_reducible assumption
    | exact hR.sub
    | exact fun h => memWf_memStore h
    | exact fun h => memWf_memPut h
    | exact fun h => memWf_filter _ h
    | exact fun _ => rfl
    | with_reducible apply rel_ite
    | with_reducible apply State.gRead_keeps
    | with_reducible apply State.raise_keeps
    | with_reducible apply State.setL2_keeps
    | (refine State.gRead_keeps_of hR.sub _ _ _ _ ?_ (by assumption))
    | fail_if_no_progress (with_reducible apply hR.upd; all_goals try first | with_reducible exact .inr rfl | exact .inl (by decide +kernel) | exact id)
    | dsimp only
    | intro _ _
    | intro _
    | contradiction
    | (unfold id)
    | split
    | (rename_i hh; injection hh with hh; subst hh)
    | (rename_i hh; split at hh)

theorem State.helmBelow_keeps_of {R : State → Prop} (hR : Keeps opPartsHelmBelow opFieldsHelmBelow R) (s : State) (c line : Nat) (bus : Bool)
    (hI : R s) {a : Option Nat} {tT : State} (eE : State.helmBelow s c line bus = (a, tT)) : R tT := by
  have h := State.helmBelow_keeps hR s c line bus hI
  rw [eE] at h
  exact h

def opPartsHelmLine : List Part :=
  [.regs, .draws, .stewards, .hbm, .poison, .rcLines, .rcWb, .sf, .sfAge, .haIn, .homeOut, .ccache, .helmL1, .helmL2,
    .flashC]
def opFieldsHelmLine : FSet :=
  ⟨[.HA_BACKINV_CNT_COUNT, .HA_STAT_RECALL, .HA_STAT_SF_LEVEL, .RC_HIT_CNT_COUNT, .RC_MISS_CNT_COUNT, .RC_SNP_CNT_COUNT,
    .RC_STAT_RETAINED, .RC_WB_CNT_COUNT, .SEAL_CC_MISS_CNT_COUNT, .SEAL_DENY_CNT_COUNT, .SEAL_ERR_ADDR_HI_ADDR,
    .SEAL_ERR_ADDR_LO_ADDR, .SEAL_ERR_CODE, .SEAL_ERR_LEVEL, .SEAL_ERR_RANGE, .SEAL_ERR_VALID], [], [], false⟩

theorem State.helmLine_keeps {R : State → Prop} (hR : Keeps opPartsHelmLine opFieldsHelmLine R) (s : State) (c k line : Nat) (bus : Bool)
    (hI : R s) : R (State.helmLine s c k line bus).2 := by
  unfold State.helmLine
  try dsimp only
  repeat' first
    | with_reducible assumption
    | exact hR.sub
    | exact fun h => memWf_memStore h
    | exact fun h => memWf_memPut h
    | exact fun h => memWf_filter _ h
    | exact fun _ => rfl
    | with_reducible apply rel_ite
    | with_reducible apply State.helmBelow_keeps
    | with_reducible apply State.l1Down_keeps
    | with_reducible apply State.setL1_keeps
    | (refine State.helmBelow_keeps_of hR.sub _ _ _ _ ?_ (by assumption))
    | fail_if_no_progress (with_reducible apply hR.upd; all_goals try first | with_reducible exact .inr rfl | exact .inl (by decide +kernel) | exact id)
    | dsimp only
    | intro _ _
    | intro _
    | contradiction
    | (unfold id)
    | split
    | (rename_i hh; injection hh with hh; subst hh)
    | (rename_i hh; split at hh)

theorem State.helmLine_keeps_of {R : State → Prop} (hR : Keeps opPartsHelmLine opFieldsHelmLine R) (s : State) (c k line : Nat) (bus : Bool)
    (hI : R s) {a : Option Nat} {tT : State} (eE : State.helmLine s c k line bus = (a, tT)) : R tT := by
  have h := State.helmLine_keeps hR s c k line bus hI
  rw [eE] at h
  exact h

theorem State.helmLast_keeps {R : State → Prop} (hR : Keeps [.helm] ⟨[], [], [], false⟩ R) (s : State) (c kind v : Nat)
    (hI : R s) : R (State.helmLast s c kind v) := by
  unfold State.helmLast
  try dsimp only
  repeat' first
    | with_reducible assumption
    | exact hR.sub
    | exact fun h => memWf_memStore h
    | exact fun h => memWf_memPut h
    | exact fun h => memWf_filter _ h
    | exact fun _ => rfl
    | with_reducible apply rel_ite
    | with_reducible apply State.setHelm_keeps
    | fail_if_no_progress (with_reducible apply hR.upd; all_goals try first | with_reducible exact .inr rfl | exact .inl (by decide +kernel) | exact id)
    | dsimp only
    | intro _ _
    | intro _
    | contradiction
    | (unfold id)
    | split
    | (rename_i hh; injection hh with hh; subst hh)
    | (rename_i hh; split at hh)

def opPartsHelmRead : List Part :=
  [.regs, .draws, .stewards, .hbm, .poison, .rcLines, .rcWb, .sf, .sfAge, .haIn, .homeOut, .ccache, .helm, .helmL1,
    .helmL2, .flashC]
def opFieldsHelmRead : FSet :=
  ⟨[.HA_BACKINV_CNT_COUNT, .HA_STAT_RECALL, .HA_STAT_SF_LEVEL, .RC_HIT_CNT_COUNT, .RC_MISS_CNT_COUNT, .RC_SNP_CNT_COUNT,
    .RC_STAT_RETAINED, .RC_WB_CNT_COUNT, .SEAL_CC_MISS_CNT_COUNT, .SEAL_DENY_CNT_COUNT, .SEAL_ERR_ADDR_HI_ADDR,
    .SEAL_ERR_ADDR_LO_ADDR, .SEAL_ERR_CODE, .SEAL_ERR_LEVEL, .SEAL_ERR_RANGE, .SEAL_ERR_VALID], [], [], false⟩

theorem State.helmRead_keeps {R : State → Prop} (hR : Keeps opPartsHelmRead opFieldsHelmRead R) (s : State) (c a : Nat) (fetch bus : Bool)
    (hI : R s) : R (State.helmRead s c a fetch bus) := by
  unfold State.helmRead
  try dsimp only
  repeat' first
    | with_reducible assumption
    | exact hR.sub
    | exact fun h => memWf_memStore h
    | exact fun h => memWf_memPut h
    | exact fun h => memWf_filter _ h
    | exact fun _ => rfl
    | with_reducible apply rel_ite
    | with_reducible apply State.helmLast_keeps
    | with_reducible apply State.helmLine_keeps
    | (refine State.helmLine_keeps_of hR.sub _ _ _ _ _ ?_ (by assumption))
    | fail_if_no_progress (with_reducible apply hR.upd; all_goals try first | with_reducible exact .inr rfl | exact .inl (by decide +kernel) | exact id)
    | dsimp only
    | intro _ _
    | intro _
    | contradiction
    | (unfold id)
    | split
    | (rename_i hh; injection hh with hh; subst hh)
    | (rename_i hh; split at hh)

def opPartsHelmStore : List Part :=
  [.regs, .draws, .stewards, .hbm, .poison, .rcLines, .rcWb, .sf, .sfAge, .haIn, .homeOut, .ccache, .helm, .helmL1,
    .helmL2, .flashC]
def opFieldsHelmStore : FSet :=
  ⟨[.HA_BACKINV_CNT_COUNT, .HA_STAT_RECALL, .HA_STAT_SF_LEVEL, .RC_HIT_CNT_COUNT, .RC_MISS_CNT_COUNT, .RC_SNP_CNT_COUNT,
    .RC_STAT_RETAINED, .RC_WB_CNT_COUNT, .SEAL_CC_MISS_CNT_COUNT, .SEAL_DENY_CNT_COUNT, .SEAL_ERR_ADDR_HI_ADDR,
    .SEAL_ERR_ADDR_LO_ADDR, .SEAL_ERR_CODE, .SEAL_ERR_LEVEL, .SEAL_ERR_RANGE, .SEAL_ERR_VALID], [], [], false⟩

theorem State.helmStore_keeps {R : State → Prop} (hR : Keeps opPartsHelmStore opFieldsHelmStore R) (s : State) (c a n data : Nat)
    (hI : R s) : R (State.helmStore s c a n data) := by
  unfold State.helmStore
  try dsimp only
  repeat' first
    | with_reducible assumption
    | exact hR.sub
    | exact fun h => memWf_memStore h
    | exact fun h => memWf_memPut h
    | exact fun h => memWf_filter _ h
    | exact fun _ => rfl
    | with_reducible apply rel_ite
    | with_reducible apply State.helmLast_keeps
    | with_reducible apply State.helmLine_keeps
    | with_reducible apply State.l1Drop_keeps
    | with_reducible apply State.setHelm_keeps
    | with_reducible apply State.setL1_keeps
    | (with_reducible apply rel_foldl; intro _ _ _)
    | (with_reducible apply rel_foldl2; intro _ _ _)
    | (with_reducible apply rel_foldl3; intro _ _ _)
    | (with_reducible apply rel_foldl1; intro _ _ _)
    | (refine State.helmLine_keeps_of hR.sub _ _ _ _ _ ?_ (by assumption))
    | fail_if_no_progress (with_reducible apply hR.upd; all_goals try first | with_reducible exact .inr rfl | exact .inl (by decide +kernel) | exact id)
    | dsimp only
    | intro _ _
    | intro _
    | contradiction
    | (unfold id)
    | split
    | (rename_i hh; injection hh with hh; subst hh)
    | (rename_i hh; split at hh)

def opPartsL2Clean : List Part :=
  [.regs, .out, .draws, .stewards, .eng, .hbm, .poison, .win, .rcLines, .rcWb, .sf, .sfAge, .haIn, .homeOut, .leafMaj,
    .leafMin, .ccache, .hwm, .helmL2]
def opFieldsL2Clean : FSet :=
  ⟨[.HA_BACKINV_CNT_COUNT, .HA_STAT_RECALL, .HA_STAT_SF_LEVEL, .HBM_ERR_ADDR_HI_ADDR, .HBM_ERR_ADDR_LO_ADDR,
    .HBM_ERR_CH, .HBM_ERR_CODE, .HBM_ERR_PC, .HBM_ERR_SID, .HBM_ERR_VALID, .RC_HIT_CNT_COUNT, .RC_MISS_CNT_COUNT,
    .RC_SNP_CNT_COUNT, .RC_STAT_RETAINED, .RC_WB_CNT_COUNT, .SEAL_CC_MISS_CNT_COUNT, .SEAL_DENY_CNT_COUNT,
    .SEAL_ERR_ADDR_HI_ADDR, .SEAL_ERR_ADDR_LO_ADDR, .SEAL_ERR_CODE, .SEAL_ERR_LEVEL, .SEAL_ERR_RANGE, .SEAL_ERR_VALID,
    .SEAL_OVF_CNT_COUNT, .SEAL_RSTAT_FREEZE, .SEAL_RSTAT_STATE], [], [], false⟩

theorem State.l2Clean_keeps {R : State → Prop} (hR : Keeps opPartsL2Clean opFieldsL2Clean R) (s : State) (line : Nat)
    (hI : R s) : R (State.l2Clean s line) := by
  unfold State.l2Clean
  try dsimp only
  repeat' first
    | with_reducible assumption
    | exact hR.sub
    | exact fun h => memWf_memStore h
    | exact fun h => memWf_memPut h
    | exact fun h => memWf_filter _ h
    | exact fun _ => rfl
    | with_reducible apply rel_ite
    | with_reducible apply State.gWrite_keeps
    | with_reducible apply State.setL2_keeps
    | (refine State.gWrite_keeps_of hR.sub _ _ _ _ _ _ ?_ (by assumption))
    | fail_if_no_progress (with_reducible apply hR.upd; all_goals try first | with_reducible exact .inr rfl | exact .inl (by decide +kernel) | exact id)
    | dsimp only
    | intro _ _
    | intro _
    | contradiction
    | (unfold id)
    | split
    | (rename_i hh; injection hh with hh; subst hh)
    | (rename_i hh; split at hh)

def opPartsHelmAct : List Part :=
  [.regs, .out, .draws, .stewards, .eng, .hbm, .poison, .win, .rcLines, .rcWb, .sf, .sfAge, .haIn, .homeOut, .leafMaj,
    .leafMin, .ccache, .hwm, .helm, .helmL1, .helmL2, .flashC]
def opFieldsHelmAct : FSet :=
  ⟨[.HA_BACKINV_CNT_COUNT, .HA_STAT_RECALL, .HA_STAT_SF_LEVEL, .HBM_ERR_ADDR_HI_ADDR, .HBM_ERR_ADDR_LO_ADDR,
    .HBM_ERR_CH, .HBM_ERR_CODE, .HBM_ERR_PC, .HBM_ERR_SID, .HBM_ERR_VALID, .RC_HIT_CNT_COUNT, .RC_MISS_CNT_COUNT,
    .RC_SNP_CNT_COUNT, .RC_STAT_RETAINED, .RC_WB_CNT_COUNT, .SEAL_CC_MISS_CNT_COUNT, .SEAL_DENY_CNT_COUNT,
    .SEAL_ERR_ADDR_HI_ADDR, .SEAL_ERR_ADDR_LO_ADDR, .SEAL_ERR_CODE, .SEAL_ERR_LEVEL, .SEAL_ERR_RANGE, .SEAL_ERR_VALID,
    .SEAL_OVF_CNT_COUNT, .SEAL_RSTAT_FREEZE, .SEAL_RSTAT_STATE], [], [], false⟩

theorem State.helmAct_keeps {R : State → Prop} (hR : Keeps opPartsHelmAct opFieldsHelmAct R) (s : State) (c : Nat) (u : HelmAct)
    (hI : R s) : R (State.helmAct s c u) := by
  unfold State.helmAct
  try dsimp only
  repeat' first
    | with_reducible assumption
    | exact hR.sub
    | exact fun h => memWf_memStore h
    | exact fun h => memWf_memPut h
    | exact fun h => memWf_filter _ h
    | exact fun _ => rfl
    | with_reducible apply rel_ite
    | with_reducible apply State.helmLast_keeps
    | with_reducible apply State.helmRead_keeps
    | with_reducible apply State.helmStore_keeps
    | with_reducible apply State.l1Down_keeps
    | with_reducible apply State.l1Drop_keeps
    | with_reducible apply State.l2Clean_keeps
    | with_reducible apply State.setHelm_keeps
    | with_reducible apply State.setL1_keeps
    | with_reducible apply State.setL2_keeps
    | fail_if_no_progress (with_reducible apply hR.upd; all_goals try first | with_reducible exact .inr rfl | exact .inl (by decide +kernel) | exact id)
    | dsimp only
    | intro _ _
    | intro _
    | contradiction
    | (unfold id)
    | split
    | (rename_i hh; injection hh with hh; subst hh)
    | (rename_i hh; split at hh)

def opPartsHelmActs : List Part :=
  [.regs, .out, .draws, .stewards, .eng, .hbm, .poison, .win, .rcLines, .rcWb, .sf, .sfAge, .haIn, .homeOut, .leafMaj,
    .leafMin, .ccache, .hwm, .helm, .helmL1, .helmL2, .flashC]
def opFieldsHelmActs : FSet :=
  ⟨[.HA_BACKINV_CNT_COUNT, .HA_STAT_RECALL, .HA_STAT_SF_LEVEL, .HBM_ERR_ADDR_HI_ADDR, .HBM_ERR_ADDR_LO_ADDR,
    .HBM_ERR_CH, .HBM_ERR_CODE, .HBM_ERR_PC, .HBM_ERR_SID, .HBM_ERR_VALID, .RC_HIT_CNT_COUNT, .RC_MISS_CNT_COUNT,
    .RC_SNP_CNT_COUNT, .RC_STAT_RETAINED, .RC_WB_CNT_COUNT, .SEAL_CC_MISS_CNT_COUNT, .SEAL_DENY_CNT_COUNT,
    .SEAL_ERR_ADDR_HI_ADDR, .SEAL_ERR_ADDR_LO_ADDR, .SEAL_ERR_CODE, .SEAL_ERR_LEVEL, .SEAL_ERR_RANGE, .SEAL_ERR_VALID,
    .SEAL_OVF_CNT_COUNT, .SEAL_RSTAT_FREEZE, .SEAL_RSTAT_STATE], [], [], false⟩

theorem State.helmActs_keeps {R : State → Prop} (hR : Keeps opPartsHelmActs opFieldsHelmActs R) (s : State) (c : Nat) (acts : List HelmAct)
    (hI : R s) : R (State.helmActs s c acts) := by
  unfold State.helmActs
  try dsimp only
  repeat' first
    | with_reducible assumption
    | exact hR.sub
    | with_reducible apply rel_ite
    | with_reducible apply State.helmAct_keeps
    | (with_reducible apply rel_foldl; intro _ _ _)
    | (with_reducible apply rel_foldl2; intro _ _ _)
    | (with_reducible apply rel_foldl3; intro _ _ _)
    | (with_reducible apply rel_foldl1; intro _ _ _)
    | dsimp only
    | intro _ _
    | intro _
    | contradiction
    | (unfold id)
    | split
    | (rename_i hh; injection hh with hh; subst hh)
    | (rename_i hh; split at hh)

theorem State.l1Reset_keeps {R : State → Prop} (hR : Keeps [.helmL1, .helmL2] ⟨[], [], [], false⟩ R) (s : State) (c : Nat)
    (hI : R s) : R (State.l1Reset s c) := by
  unfold State.l1Reset
  try dsimp only
  repeat' first
    | with_reducible assumption
    | exact hR.sub
    | exact fun h => memWf_memStore h
    | exact fun h => memWf_memPut h
    | exact fun h => memWf_filter _ h
    | exact fun _ => rfl
    | with_reducible apply rel_ite
    | with_reducible apply State.setL2_keeps
    | (with_reducible apply rel_foldl; intro _ _ _)
    | (with_reducible apply rel_foldl2; intro _ _ _)
    | (with_reducible apply rel_foldl3; intro _ _ _)
    | (with_reducible apply rel_foldl1; intro _ _ _)
    | fail_if_no_progress (with_reducible apply hR.upd; all_goals try first | with_reducible exact .inr rfl | exact .inl (by decide +kernel) | exact id)
    | dsimp only
    | intro _ _
    | intro _
    | contradiction
    | (unfold id)
    | split
    | (rename_i hh; injection hh with hh; subst hh)
    | (rename_i hh; split at hh)

theorem State.coreAsk_keeps {R : State → Prop} (hR : Keeps [.regs, .stewards, .govs] ⟨[.HELM_CORE_STAT_STATE, .PG_ERR_OP, .PG_ERR_OVERSIZE, .PG_ERR_UNITS, .PG_ERR_VALID, .PG_TO_CNT_COUNT], [], [], false⟩ R) (s : State) (c : Nat)
    (hI : R s) : R (State.coreAsk s c) := by
  unfold State.coreAsk
  try dsimp only
  repeat' first
    | with_reducible assumption
    | exact hR.sub
    | with_reducible apply rel_ite
    | with_reducible apply State.request_keeps
    | with_reducible apply State.setCore_keeps
    | dsimp only
    | intro _ _
    | intro _
    | contradiction
    | (unfold id)
    | split
    | (rename_i hh; injection hh with hh; subst hh)
    | (rename_i hh; split at hh)

theorem State.helmTimeouts_keeps {R : State → Prop} (hR : Keeps [.regs, .stewards, .govs] ⟨[.HELM_CORE_STAT_PERMIT_TO, .HELM_CORE_STAT_STATE], [], [], false⟩ R) (s : State)
    (hI : R s) : R (State.helmTimeouts s) := by
  unfold State.helmTimeouts
  try dsimp only
  repeat' first
    | with_reducible assumption
    | exact hR.sub
    | with_reducible apply rel_ite
    | with_reducible refine hR.wr _ _ _ (by decide +kernel) (by first | decide +kernel | exact hasFld_self _ _ | exact hasFld_all _ | (simp [hasFld]; done) ) ?_
    | with_reducible apply State.giveBack_keeps
    | with_reducible apply State.raise_keeps
    | with_reducible apply State.setCore_keeps
    | (with_reducible apply rel_foldl; intro _ _ _)
    | (with_reducible apply rel_foldl2; intro _ _ _)
    | (with_reducible apply rel_foldl3; intro _ _ _)
    | (with_reducible apply rel_foldl1; intro _ _ _)
    | dsimp only
    | intro _ _
    | intro _
    | contradiction
    | (unfold id)
    | split
    | (rename_i hh; injection hh with hh; subst hh)
    | (rename_i hh; split at hh)

theorem execHelmCoreRelease_keeps {R : State → Prop} (hR : Keeps partsHelmCoreRelease fieldsHelmCoreRelease R) (w : Writer) (c : Fin 8) (s : State)
    (hI : R s) {tT : State} (eE : execHelmCoreRelease w c s = .next tT) : R tT := by
  unfold execHelmCoreRelease at eE
  try dsimp only at eE
  repeat' split at eE
  all_goals try (injection eE with eE; subst eE)
  all_goals repeat' first
    | with_reducible assumption
    | exact hR.sub
    | with_reducible apply rel_ite
    | with_reducible apply State.blockWrite_keeps
    | with_reducible apply State.coreAsk_keeps
    | with_reducible apply State.dirNext_keeps
    | with_reducible apply State.drop_keeps
    | with_reducible apply State.flashMessage_keeps
    | with_reducible apply State.helmTimeouts_keeps
    | with_reducible apply State.message_keeps
    | with_reducible apply State.packageReset_keeps
    | with_reducible apply State.powerOn_keeps
    | with_reducible apply State.reach_keeps
    | dsimp only
    | intro _ _
    | intro _
    | contradiction
    | (unfold id)
    | split
    | (rename_i hh; injection hh with hh; subst hh)
    | (rename_i hh; split at hh)

theorem execHelmCoreStart_keeps {R : State → Prop} (hR : Keeps partsHelmCoreStart fieldsHelmCoreStart R) (c : Fin 8) (s : State)
    (hI : R s) {tT : State} (eE : execHelmCoreStart c s = .next tT) : R tT := by
  unfold execHelmCoreStart at eE
  try dsimp only at eE
  repeat' split at eE
  all_goals try (injection eE with eE; subst eE)
  all_goals repeat' first
    | with_reducible assumption
    | exact hR.sub
    | exact fun h => memWf_memStore h
    | exact fun h => memWf_memPut h
    | exact fun h => memWf_filter _ h
    | exact fun _ => rfl
    | with_reducible apply rel_ite
    | with_reducible refine hR.wr _ _ _ (by decide +kernel) (by first | decide +kernel | exact hasFld_self _ _ | exact hasFld_all _ | (simp [hasFld]; done) ) ?_
    | with_reducible apply State.dirNext_keeps
    | with_reducible apply State.flashMessage_keeps
    | with_reducible apply State.message_keeps
    | with_reducible apply State.packageReset_keeps
    | with_reducible apply State.powerOn_keeps
    | with_reducible apply State.reach_keeps
    | with_reducible apply State.setCore_keeps
    | with_reducible apply State.setHelm_keeps
    | with_reducible apply State.wdLoad_keeps
    | (refine State.takeGrant_keeps hR.sub _ _ _ _ ?_ (by assumption))
    | fail_if_no_progress (with_reducible apply hR.upd; all_goals try first | with_reducible exact .inr rfl | exact .inl (by decide +kernel) | exact id)
    | dsimp only
    | intro _ _
    | intro _
    | contradiction
    | (unfold id)
    | split
    | (rename_i hh; injection hh with hh; subst hh)
    | (rename_i hh; split at hh)

theorem State.coreReset_keeps {R : State → Prop} (hR : Keeps [.regs, .govs, .mail, .helm, .helmL1, .helmL2] ⟨[.HELM_CORE_STAT_STATE], [.core], [], false⟩ R) (s : State) (c : Nat)
    (hI : R s) : R (State.coreReset s c) := by
  unfold State.coreReset
  try dsimp only
  repeat' first
    | with_reducible assumption
    | exact hR.sub
    | exact fun h => memWf_memStore h
    | exact fun h => memWf_memPut h
    | exact fun h => memWf_filter _ h
    | exact fun _ => rfl
    | with_reducible apply rel_ite
    | with_reducible refine hR.clear _ (by decide +kernel) (fun _ _ h => hasFld_cls (coreClears_cls h)) ?_
    | with_reducible apply State.giveBack_keeps
    | with_reducible apply State.l1Reset_keeps
    | with_reducible apply State.setCore_keeps
    | with_reducible apply State.setHelm_keeps
    | fail_if_no_progress (with_reducible apply hR.upd; all_goals try first | with_reducible exact .inr rfl | exact .inl (by decide +kernel) | exact id)
    | dsimp only
    | intro _ _
    | intro _
    | contradiction
    | (unfold id)
    | split
    | (rename_i hh; injection hh with hh; subst hh)
    | (rename_i hh; split at hh)

theorem execHelmCoreReset_keeps {R : State → Prop} (hR : Keeps partsHelmCoreReset fieldsHelmCoreReset R) (w : Writer) (c : Fin 8) (acts : List HelmAct) (s : State)
    (hI : R s) {tT : State} (eE : execHelmCoreReset w c acts s = .next tT) : R tT := by
  unfold execHelmCoreReset at eE
  try dsimp only at eE
  repeat' split at eE
  all_goals try (injection eE with eE; subst eE)
  all_goals repeat' first
    | with_reducible assumption
    | exact hR.sub
    | with_reducible apply rel_ite
    | with_reducible apply State.blockWrite_keeps
    | with_reducible apply State.coreReset_keeps
    | with_reducible apply State.dirNext_keeps
    | with_reducible apply State.flashMessage_keeps
    | with_reducible apply State.helmActs_keeps
    | with_reducible apply State.message_keeps
    | with_reducible apply State.packageReset_keeps
    | with_reducible apply State.powerOn_keeps
    | with_reducible apply State.reach_keeps
    | dsimp only
    | intro _ _
    | intro _
    | contradiction
    | (unfold id)
    | split
    | (rename_i hh; injection hh with hh; subst hh)
    | (rename_i hh; split at hh)

theorem execWdtExpiry_keeps {R : State → Prop} (hR : Keeps partsWdtExpiry fieldsWdtExpiry R) (c : Fin 8) (s : State)
    (hI : R s) {tT : State} (eE : execWdtExpiry c s = .next tT) : R tT := by
  unfold execWdtExpiry at eE
  try dsimp only at eE
  repeat' split at eE
  all_goals try (injection eE with eE; subst eE)
  all_goals repeat' first
    | with_reducible assumption
    | exact hR.sub
    | exact fun h => memWf_memStore h
    | exact fun h => memWf_memPut h
    | exact fun h => memWf_filter _ h
    | exact fun _ => rfl
    | with_reducible apply rel_ite
    | with_reducible refine hR.wr _ _ _ (by decide +kernel) (by first | decide +kernel | exact hasFld_self _ _ | exact hasFld_all _ | (simp [hasFld]; done) ) ?_
    | with_reducible apply State.coreReset_keeps
    | with_reducible apply State.dirNext_keeps
    | with_reducible apply State.flashMessage_keeps
    | with_reducible apply State.lapseTo_keeps
    | with_reducible apply State.message_keeps
    | with_reducible apply State.packageReset_keeps
    | with_reducible apply State.powerOn_keeps
    | with_reducible apply State.reach_keeps
    | with_reducible apply State.setHelm_keeps
    | with_reducible apply State.wdLoad_keeps
    | fail_if_no_progress (with_reducible apply hR.upd; all_goals try first | with_reducible exact .inr rfl | exact .inl (by decide +kernel) | exact id)
    | dsimp only
    | intro _ _
    | intro _
    | contradiction
    | (unfold id)
    | split
    | (rename_i hh; injection hh with hh; subst hh)
    | (rename_i hh; split at hh)

theorem execFabricIrqLine_keeps {R : State → Prop} (hR : Keeps partsFabricIrqLine fieldsFabricIrqLine R) (n : Fin 8) (i : Fin 32) (high : Bool) (s : State)
    (hI : R s) {tT : State} (eE : execFabricIrqLine n i high s = .next tT) : R tT := by
  unfold execFabricIrqLine at eE
  try dsimp only at eE
  repeat' split at eE
  all_goals try (injection eE with eE; subst eE)
  all_goals repeat' first
    | with_reducible assumption
    | exact hR.sub
    | exact fun h => memWf_memStore h
    | exact fun h => memWf_memPut h
    | exact fun h => memWf_filter _ h
    | exact fun _ => rfl
    | with_reducible apply rel_ite
    | with_reducible apply State.dirNext_keeps
    | with_reducible apply State.flashMessage_keeps
    | with_reducible apply State.message_keeps
    | with_reducible apply State.packageReset_keeps
    | with_reducible apply State.powerOn_keeps
    | with_reducible apply State.reach_keeps
    | fail_if_no_progress (with_reducible apply hR.upd; all_goals try first | with_reducible exact .inr rfl | exact .inl (by decide +kernel) | exact id)
    | dsimp only
    | intro _ _
    | intro _
    | contradiction
    | (unfold id)
    | split
    | (rename_i hh; injection hh with hh; subst hh)
    | (rename_i hh; split at hh)

theorem execHelmIcSet_keeps {R : State → Prop} (hR : Keeps partsHelmIcSet fieldsHelmIcSet R) (w : Writer) (src : BitVec 9) (s : State)
    (hI : R s) {tT : State} (eE : execHelmIcSet w src s = .next tT) : R tT := by
  unfold execHelmIcSet at eE
  try dsimp only at eE
  repeat' split at eE
  all_goals try (injection eE with eE; subst eE)
  all_goals repeat' first
    | with_reducible assumption
    | exact hR.sub
    | with_reducible apply rel_ite
    | with_reducible apply State.dirNext_keeps
    | with_reducible apply State.drop_keeps
    | with_reducible apply State.flashMessage_keeps
    | with_reducible apply State.irq_keeps
    | with_reducible apply State.message_keeps
    | with_reducible apply State.packageReset_keeps
    | with_reducible apply State.powerOn_keeps
    | with_reducible apply State.reach_keeps
    | dsimp only
    | intro _ _
    | intro _
    | contradiction
    | (unfold id)
    | split
    | (rename_i hh; injection hh with hh; subst hh)
    | (rename_i hh; split at hh)

theorem execHelmIcClaim_keeps {R : State → Prop} (hR : Keeps partsHelmIcClaim fieldsHelmIcClaim R) (w : Writer) (c : Fin 8) (s : State)
    (hI : R s) {tT : State} (eE : execHelmIcClaim w c s = .next tT) : R tT := by
  unfold execHelmIcClaim at eE
  try dsimp only at eE
  repeat' split at eE
  all_goals try (injection eE with eE; subst eE)
  all_goals repeat' first
    | with_reducible assumption
    | exact hR.sub
    | exact fun h => memWf_memStore h
    | exact fun h => memWf_memPut h
    | exact fun h => memWf_filter _ h
    | exact fun _ => rfl
    | exact hR.sub (by decide +kernel) (subFld_self _ _)
    | with_reducible apply rel_ite
    | with_reducible refine hR.wr _ _ _ (by decide +kernel) (by first | decide +kernel | exact hasFld_self _ _ | exact hasFld_all _ | (simp [hasFld]; done) ) ?_
    | with_reducible apply State.dirNext_keeps
    | with_reducible apply State.flashMessage_keeps
    | with_reducible apply State.message_keeps
    | with_reducible apply State.packageReset_keeps
    | with_reducible apply State.powerOn_keeps
    | with_reducible apply State.reach_keeps
    | with_reducible apply State.setBit_keeps
    | with_reducible apply State.setHelm_keeps
    | fail_if_no_progress (with_reducible apply hR.upd; all_goals try first | exact .inl (by decide +kernel) | with_reducible exact .inr rfl | exact id)
    | dsimp only
    | intro _ _
    | intro _
    | contradiction
    | (unfold id)
    | split
    | (rename_i hh; injection hh with hh; subst hh)
    | (rename_i hh; split at hh)

theorem State.popLevel_keeps {R : State → Prop} (hR : Keeps [.regs, .helm] ⟨[.HELM_CORE_STAT_LEVEL], [], [], false⟩ R) (s : State) (c : Nat)
    (hI : R s) : R (State.popLevel s c) := by
  unfold State.popLevel
  try dsimp only
  repeat' first
    | with_reducible assumption
    | exact hR.sub
    | exact fun h => memWf_memStore h
    | exact fun h => memWf_memPut h
    | exact fun h => memWf_filter _ h
    | exact fun _ => rfl
    | with_reducible apply rel_ite
    | with_reducible refine hR.wr _ _ _ (by decide +kernel) (by first | decide +kernel | exact hasFld_self _ _ | exact hasFld_all _ | (simp [hasFld]; done) ) ?_
    | with_reducible apply State.setHelm_keeps
    | fail_if_no_progress (with_reducible apply hR.upd; all_goals try first | with_reducible exact .inr rfl | exact .inl (by decide +kernel) | exact id)
    | dsimp only
    | intro _ _
    | intro _
    | contradiction
    | (unfold id)
    | split
    | (rename_i hh; injection hh with hh; subst hh)
    | (rename_i hh; split at hh)

theorem execHelmIcComplete_keeps {R : State → Prop} (hR : Keeps partsHelmIcComplete fieldsHelmIcComplete R) (w : Writer) (c : Fin 8) (src : BitVec 9) (s : State)
    (hI : R s) {tT : State} (eE : execHelmIcComplete w c src s = .next tT) : R tT := by
  unfold execHelmIcComplete at eE
  try dsimp only at eE
  repeat' split at eE
  all_goals try (injection eE with eE; subst eE)
  all_goals repeat' first
    | with_reducible assumption
    | exact hR.sub
    | exact fun h => memWf_memStore h
    | exact fun h => memWf_memPut h
    | exact fun h => memWf_filter _ h
    | exact fun _ => rfl
    | with_reducible apply rel_ite
    | with_reducible apply State.dirNext_keeps
    | with_reducible apply State.drop_keeps
    | with_reducible apply State.flashMessage_keeps
    | with_reducible apply State.message_keeps
    | with_reducible apply State.packageReset_keeps
    | with_reducible apply State.popLevel_keeps
    | with_reducible apply State.powerOn_keeps
    | with_reducible apply State.reach_keeps
    | with_reducible apply State.setHelm_keeps
    | fail_if_no_progress (with_reducible apply hR.upd; all_goals try first | with_reducible exact .inr rfl | exact .inl (by decide +kernel) | exact id)
    | dsimp only
    | intro _ _
    | intro _
    | contradiction
    | (unfold id)
    | split
    | (rename_i hh; injection hh with hh; subst hh)
    | (rename_i hh; split at hh)

def opPartsCoreAt : List Part :=
  [.regs, .out, .draws, .stewards, .eng, .hbm, .poison, .win, .rcLines, .rcWb, .sf, .sfAge, .haIn, .homeOut, .leafMaj,
    .leafMin, .ccache, .hwm, .helm, .helmL1, .helmL2, .flashC]
def opFieldsCoreAt : FSet :=
  ⟨[.HA_BACKINV_CNT_COUNT, .HA_STAT_RECALL, .HA_STAT_SF_LEVEL, .HBM_ERR_ADDR_HI_ADDR, .HBM_ERR_ADDR_LO_ADDR,
    .HBM_ERR_CH, .HBM_ERR_CODE, .HBM_ERR_PC, .HBM_ERR_SID, .HBM_ERR_VALID, .RC_HIT_CNT_COUNT, .RC_MISS_CNT_COUNT,
    .RC_SNP_CNT_COUNT, .RC_STAT_RETAINED, .RC_WB_CNT_COUNT, .SEAL_CC_MISS_CNT_COUNT, .SEAL_DENY_CNT_COUNT,
    .SEAL_ERR_ADDR_HI_ADDR, .SEAL_ERR_ADDR_LO_ADDR, .SEAL_ERR_CODE, .SEAL_ERR_LEVEL, .SEAL_ERR_RANGE, .SEAL_ERR_VALID,
    .SEAL_OVF_CNT_COUNT, .SEAL_RSTAT_FREEZE, .SEAL_RSTAT_STATE], [], [], false⟩

theorem State.coreAt_keeps {R : State → Prop} (hR : Keeps opPartsCoreAt opFieldsCoreAt R) (s : State) (c : Nat) (acts : List HelmAct) (pc prv : Nat) (mie : Bool)
    (hI : R s) : R (State.coreAt s c acts pc prv mie) := by
  unfold State.coreAt
  try dsimp only
  repeat' first
    | with_reducible assumption
    | exact hR.sub
    | exact fun h => memWf_memStore h
    | exact fun h => memWf_memPut h
    | exact fun h => memWf_filter _ h
    | exact fun _ => rfl
    | with_reducible apply rel_ite
    | with_reducible apply State.helmActs_keeps
    | with_reducible apply State.setHelm_keeps
    | fail_if_no_progress (with_reducible apply hR.upd; all_goals try first | with_reducible exact .inr rfl | exact .inl (by decide +kernel) | exact id)
    | dsimp only
    | intro _ _
    | intro _
    | contradiction
    | (unfold id)
    | split
    | (rename_i hh; injection hh with hh; subst hh)
    | (rename_i hh; split at hh)

theorem execHelmNmi_keeps {R : State → Prop} (hR : Keeps partsHelmNmi fieldsHelmNmi R) (c : Fin 8) (acts : List HelmAct) (pc : BitVec 64) (prv : BitVec 2) (mie handling : Bool) (s : State)
    (hI : R s) {tT : State} (eE : execHelmNmi c acts pc prv mie handling s = .next tT) : R tT := by
  unfold execHelmNmi at eE
  try dsimp only at eE
  repeat' split at eE
  all_goals try (injection eE with eE; subst eE)
  all_goals repeat' first
    | with_reducible assumption
    | exact hR.sub
    | exact fun h => memWf_memStore h
    | exact fun h => memWf_memPut h
    | exact fun h => memWf_filter _ h
    | exact fun _ => rfl
    | with_reducible apply rel_ite
    | with_reducible apply State.coreAt_keeps
    | with_reducible apply State.dirNext_keeps
    | with_reducible apply State.flashMessage_keeps
    | with_reducible apply State.message_keeps
    | with_reducible apply State.packageReset_keeps
    | with_reducible apply State.powerOn_keeps
    | with_reducible apply State.reach_keeps
    | with_reducible apply State.setHelm_keeps
    | fail_if_no_progress (with_reducible apply hR.upd; all_goals try first | with_reducible exact .inr rfl | exact .inl (by decide +kernel) | exact id)
    | dsimp only
    | intro _ _
    | intro _
    | contradiction
    | (unfold id)
    | split
    | (rename_i hh; injection hh with hh; subst hh)
    | (rename_i hh; split at hh)

theorem State.unlockAbort_keeps {R : State → Prop} (hR : Keeps [.regs, .stewards, .rstUnlock, .helm] ⟨[.HELM_DBG_STAT_UNLOCK_ABORT], [], [], false⟩ R) (s : State) (c : Nat)
    (hI : R s) : R (State.unlockAbort s c) := by
  unfold State.unlockAbort
  try dsimp only
  repeat' first
    | with_reducible assumption
    | exact hR.sub
    | exact fun h => memWf_memStore h
    | exact fun h => memWf_memPut h
    | exact fun h => memWf_filter _ h
    | exact fun _ => rfl
    | with_reducible apply rel_ite
    | with_reducible refine hR.wr _ _ _ (by decide +kernel) (by first | decide +kernel | exact hasFld_self _ _ | exact hasFld_all _ | (simp [hasFld]; done) ) ?_
    | with_reducible apply State.raise_keeps
    | with_reducible apply State.relock_keeps
    | fail_if_no_progress (with_reducible apply hR.upd; all_goals try first | with_reducible exact .inr rfl | exact .inl (by decide +kernel) | exact id)
    | dsimp only
    | intro _ _
    | intro _
    | contradiction
    | (unfold id)
    | split
    | (rename_i hh; injection hh with hh; subst hh)
    | (rename_i hh; split at hh)

theorem execDbgMonitorHalt_keeps {R : State → Prop} (hR : Keeps partsDbgMonitorHalt fieldsDbgMonitorHalt R) (w : Writer) (c : Fin 8) (s : State)
    (hI : R s) {tT : State} (eE : execDbgMonitorHalt w c s = .next tT) : R tT := by
  unfold execDbgMonitorHalt at eE
  try dsimp only at eE
  repeat' split at eE
  all_goals try (injection eE with eE; subst eE)
  all_goals repeat' first
    | with_reducible assumption
    | exact hR.sub
    | exact fun h => memWf_memStore h
    | exact fun h => memWf_memPut h
    | exact fun h => memWf_filter _ h
    | exact fun _ => rfl
    | with_reducible apply rel_ite
    | with_reducible apply State.debugWrite_keeps
    | with_reducible apply State.dirNext_keeps
    | with_reducible apply State.drop_keeps
    | with_reducible apply State.flashMessage_keeps
    | with_reducible apply State.message_keeps
    | with_reducible apply State.packageReset_keeps
    | with_reducible apply State.powerOn_keeps
    | with_reducible apply State.reach_keeps
    | with_reducible apply State.setHelm_keeps
    | fail_if_no_progress (with_reducible apply hR.upd; all_goals try first | with_reducible exact .inr rfl | exact .inl (by decide +kernel) | exact id)
    | dsimp only
    | intro _ _
    | intro _
    | contradiction
    | (unfold id)
    | split
    | (rename_i hh; injection hh with hh; subst hh)
    | (rename_i hh; split at hh)

theorem execDbgHardHalt_keeps {R : State → Prop} (hR : Keeps partsDbgHardHalt fieldsDbgHardHalt R) (w : Writer) (c : Fin 8) (acts : List HelmAct) (pc : BitVec 64) (prv : BitVec 2) (mie : Bool) (s : State)
    (hI : R s) {tT : State} (eE : execDbgHardHalt w c acts pc prv mie s = .next tT) : R tT := by
  unfold execDbgHardHalt at eE
  try dsimp only at eE
  repeat' split at eE
  all_goals try (injection eE with eE; subst eE)
  all_goals repeat' first
    | with_reducible assumption
    | exact hR.sub
    | exact fun h => memWf_memStore h
    | exact fun h => memWf_memPut h
    | exact fun h => memWf_filter _ h
    | exact fun _ => rfl
    | with_reducible apply rel_ite
    | with_reducible refine hR.wr _ _ _ (by decide +kernel) (by first | decide +kernel | exact hasFld_self _ _ | exact hasFld_all _ | (simp [hasFld]; done) ) ?_
    | with_reducible apply State.coreAt_keeps
    | with_reducible apply State.debugWrite_keeps
    | with_reducible apply State.dirNext_keeps
    | with_reducible apply State.drop_keeps
    | with_reducible apply State.flashMessage_keeps
    | with_reducible apply State.message_keeps
    | with_reducible apply State.packageReset_keeps
    | with_reducible apply State.powerOn_keeps
    | with_reducible apply State.reach_keeps
    | with_reducible apply State.setCore_keeps
    | with_reducible apply State.setHelm_keeps
    | with_reducible apply State.unlockAbort_keeps
    | with_reducible apply State.wdSync_keeps
    | fail_if_no_progress (with_reducible apply hR.upd; all_goals try first | with_reducible exact .inr rfl | exact .inl (by decide +kernel) | exact id)
    | dsimp only
    | intro _ _
    | intro _
    | contradiction
    | (unfold id)
    | split
    | (rename_i hh; injection hh with hh; subst hh)
    | (rename_i hh; split at hh)

theorem execDbgHardRelease_keeps {R : State → Prop} (hR : Keeps partsDbgHardRelease fieldsDbgHardRelease R) (w : Writer) (c : Fin 8) (s : State)
    (hI : R s) {tT : State} (eE : execDbgHardRelease w c s = .next tT) : R tT := by
  unfold execDbgHardRelease at eE
  try dsimp only at eE
  repeat' split at eE
  all_goals try (injection eE with eE; subst eE)
  all_goals repeat' first
    | with_reducible assumption
    | exact hR.sub
    | exact fun h => memWf_memStore h
    | exact fun h => memWf_memPut h
    | exact fun h => memWf_filter _ h
    | exact fun _ => rfl
    | with_reducible apply rel_ite
    | with_reducible apply State.debugWrite_keeps
    | with_reducible apply State.dirNext_keeps
    | with_reducible apply State.drop_keeps
    | with_reducible apply State.flashMessage_keeps
    | with_reducible apply State.message_keeps
    | with_reducible apply State.packageReset_keeps
    | with_reducible apply State.powerOn_keeps
    | with_reducible apply State.reach_keeps
    | with_reducible apply State.setCore_keeps
    | with_reducible apply State.setHelm_keeps
    | with_reducible apply State.wdThaw_keeps
    | fail_if_no_progress (with_reducible apply hR.upd; all_goals try first | with_reducible exact .inr rfl | exact .inl (by decide +kernel) | exact id)
    | dsimp only
    | intro _ _
    | intro _
    | contradiction
    | (unfold id)
    | split
    | (rename_i hh; injection hh with hh; subst hh)
    | (rename_i hh; split at hh)

theorem execMonitorEntry_keeps {R : State → Prop} (hR : Keeps partsMonitorEntry fieldsMonitorEntry R) (c : Fin 8) (acts : List HelmAct) (pc : BitVec 64) (prv : BitVec 2) (mie ebreak : Bool) (s : State)
    (hI : R s) {tT : State} (eE : execMonitorEntry c acts pc prv mie ebreak s = .next tT) : R tT := by
  unfold execMonitorEntry at eE
  try dsimp only at eE
  repeat' split at eE
  all_goals try (injection eE with eE; subst eE)
  all_goals repeat' first
    | with_reducible assumption
    | exact hR.sub
    | exact fun h => memWf_memStore h
    | exact fun h => memWf_memPut h
    | exact fun h => memWf_filter _ h
    | exact fun _ => rfl
    | with_reducible apply rel_ite
    | with_reducible refine hR.wr _ _ _ (by decide +kernel) (by first | decide +kernel | exact hasFld_self _ _ | exact hasFld_all _ | (simp [hasFld]; done) ) ?_
    | with_reducible apply State.coreAt_keeps
    | with_reducible apply State.dirNext_keeps
    | with_reducible apply State.flashMessage_keeps
    | with_reducible apply State.message_keeps
    | with_reducible apply State.packageReset_keeps
    | with_reducible apply State.powerOn_keeps
    | with_reducible apply State.reach_keeps
    | with_reducible apply State.setCore_keeps
    | with_reducible apply State.setHelm_keeps
    | with_reducible apply State.unlockAbort_keeps
    | with_reducible apply State.wdSync_keeps
    | (with_reducible apply rel_foldl; intro _ _ _)
    | (with_reducible apply rel_foldl2; intro _ _ _)
    | (with_reducible apply rel_foldl3; intro _ _ _)
    | (with_reducible apply rel_foldl1; intro _ _ _)
    | fail_if_no_progress (with_reducible apply hR.upd; all_goals try first | with_reducible exact .inr rfl | exact .inl (by decide +kernel) | exact id)
    | dsimp only
    | intro _ _
    | intro _
    | contradiction
    | (unfold id)
    | split
    | (rename_i hh; injection hh with hh; subst hh)
    | (rename_i hh; split at hh)

theorem execMonitorExit_keeps {R : State → Prop} (hR : Keeps partsMonitorExit fieldsMonitorExit R) (c : Fin 8) (stp : Bool) (s : State)
    (hI : R s) {tT : State} (eE : execMonitorExit c stp s = .next tT) : R tT := by
  unfold execMonitorExit at eE
  try dsimp only at eE
  repeat' split at eE
  all_goals try (injection eE with eE; subst eE)
  all_goals repeat' first
    | with_reducible assumption
    | exact hR.sub
    | exact fun h => memWf_memStore h
    | exact fun h => memWf_memPut h
    | exact fun h => memWf_filter _ h
    | exact fun _ => rfl
    | with_reducible apply rel_ite
    | with_reducible refine hR.wr _ _ _ (by decide +kernel) (by first | decide +kernel | exact hasFld_self _ _ | exact hasFld_all _ | (simp [hasFld]; done) ) ?_
    | with_reducible apply State.dirNext_keeps
    | with_reducible apply State.flashMessage_keeps
    | with_reducible apply State.message_keeps
    | with_reducible apply State.packageReset_keeps
    | with_reducible apply State.popLevel_keeps
    | with_reducible apply State.powerOn_keeps
    | with_reducible apply State.raise_keeps
    | with_reducible apply State.reach_keeps
    | with_reducible apply State.setCore_keeps
    | with_reducible apply State.setHelm_keeps
    | with_reducible apply State.wdThaw_keeps
    | fail_if_no_progress (with_reducible apply hR.upd; all_goals try first | with_reducible exact .inr rfl | exact .inl (by decide +kernel) | exact id)
    | dsimp only
    | intro _ _
    | intro _
    | contradiction
    | (unfold id)
    | split
    | (rename_i hh; injection hh with hh; subst hh)
    | (rename_i hh; split at hh)

theorem State.csrAt_keeps {R : State → Prop} (hR : Keeps [.draws, .helm] ⟨[], [], [], false⟩ R) (s : State) (c r : Nat)
    (hI : R s) : R (State.csrAt s c r).2 := by
  unfold State.csrAt
  try dsimp only
  repeat' first
    | with_reducible assumption
    | exact hR.sub
    | exact fun h => memWf_memStore h
    | exact fun h => memWf_memPut h
    | exact fun h => memWf_filter _ h
    | exact fun _ => rfl
    | with_reducible apply rel_ite
    | with_reducible apply State.draw_keeps
    | with_reducible apply State.setHelm_keeps
    | (refine State.draw_keeps_of hR.sub _ _ ?_ (by assumption))
    | fail_if_no_progress (with_reducible apply hR.upd; all_goals try first | with_reducible exact .inr rfl | exact .inl (by decide +kernel) | exact id)
    | dsimp only
    | intro _ _
    | intro _
    | contradiction
    | (unfold id)
    | split
    | (rename_i hh; injection hh with hh; subst hh)
    | (rename_i hh; split at hh)

theorem State.csrAt_keeps_of {R : State → Prop} (hR : Keeps [.draws, .helm] ⟨[], [], [], false⟩ R) (s : State) (c r : Nat)
    (hI : R s) {a : Nat} {tT : State} (eE : State.csrAt s c r = (a, tT)) : R tT := by
  have h := State.csrAt_keeps hR s c r hI
  rw [eE] at h
  exact h

theorem State.dbgRead_keeps {R : State → Prop} (hR : Keeps [.draws, .helm] ⟨[], [], [], false⟩ R) (s : State) (c r : Nat)
    (hI : R s) : R (State.dbgRead s c r).2 := by
  unfold State.dbgRead
  try dsimp only
  repeat' first
    | with_reducible assumption
    | exact hR.sub
    | with_reducible apply rel_ite
    | with_reducible apply State.csrAt_keeps
    | (refine State.csrAt_keeps_of hR.sub _ _ _ ?_ (by assumption))
    | dsimp only
    | intro _ _
    | intro _
    | contradiction
    | (unfold id)
    | split
    | (rename_i hh; injection hh with hh; subst hh)
    | (rename_i hh; split at hh)

theorem State.dbgRead_keeps_of {R : State → Prop} (hR : Keeps [.draws, .helm] ⟨[], [], [], false⟩ R) (s : State) (c r : Nat)
    (hI : R s) {a : Nat} {tT : State} (eE : State.dbgRead s c r = (a, tT)) : R tT := by
  have h := State.dbgRead_keeps hR s c r hI
  rw [eE] at h
  exact h

theorem State.dbgWrite_keeps {R : State → Prop} (hR : Keeps [.helm] ⟨[], [], [], false⟩ R) (s : State) (c r v : Nat)
    (hI : R s) : R (State.dbgWrite s c r v) := by
  unfold State.dbgWrite
  try dsimp only
  repeat' first
    | with_reducible assumption
    | exact hR.sub
    | exact fun h => memWf_memStore h
    | exact fun h => memWf_memPut h
    | exact fun h => memWf_filter _ h
    | exact fun _ => rfl
    | with_reducible apply rel_ite
    | with_reducible apply State.setHelm_keeps
    | fail_if_no_progress (with_reducible apply hR.upd; all_goals try first | with_reducible exact .inr rfl | exact .inl (by decide +kernel) | exact id)
    | dsimp only
    | intro _ _
    | intro _
    | contradiction
    | (unfold id)
    | split
    | (rename_i hh; injection hh with hh; subst hh)
    | (rename_i hh; split at hh)

theorem State.dbgAcc_keeps {R : State → Prop} (hR : Keeps [.regs, .stewards, .helm] ⟨[.HELM_DBG_ACC_ERR, .HELM_DBG_ACC_REG], [], [], false⟩ R) (s : State) (w : Writer) (c reg op : Nat) (k : State → State)
    (hI : R s) (hk : ∀  s, R s → R (k  s)) : R (State.dbgAcc s w c reg op k) := by
  unfold State.dbgAcc
  try dsimp only
  repeat' first
    | with_reducible assumption
    | exact hR.sub
    | with_reducible apply rel_ite
    | (with_reducible apply hk)
    | with_reducible refine hR.wr _ _ _ (by decide +kernel) (by first | decide +kernel | exact hasFld_self _ _ | exact hasFld_all _ | (simp [hasFld]; done) ) ?_
    | with_reducible apply State.debugWrite_keeps
    | dsimp only
    | intro _ _
    | intro _
    | contradiction
    | (unfold id)
    | split
    | (rename_i hh; injection hh with hh; subst hh)
    | (rename_i hh; split at hh)

theorem execDbgRegRead_keeps {R : State → Prop} (hR : Keeps partsDbgRegRead fieldsDbgRegRead R) (w : Writer) (c : Fin 8) (reg : BitVec 14) (s : State)
    (hI : R s) {tT : State} (eE : execDbgRegRead w c reg s = .next tT) : R tT := by
  unfold execDbgRegRead at eE
  try dsimp only at eE
  repeat' split at eE
  all_goals try (injection eE with eE; subst eE)
  all_goals repeat' first
    | with_reducible assumption
    | exact hR.sub
    | with_reducible apply rel_ite
    | with_reducible refine hR.wr _ _ _ (by decide +kernel) (by first | decide +kernel | exact hasFld_self _ _ | exact hasFld_all _ | (simp [hasFld]; done) ) ?_
    | with_reducible apply State.dbgAcc_keeps
    | with_reducible apply State.dbgRead_keeps
    | with_reducible apply State.dirNext_keeps
    | with_reducible apply State.flashMessage_keeps
    | with_reducible apply State.message_keeps
    | with_reducible apply State.packageReset_keeps
    | with_reducible apply State.powerOn_keeps
    | with_reducible apply State.reach_keeps
    | (refine State.dbgRead_keeps_of hR.sub _ _ _ ?_ (by assumption))
    | dsimp only
    | intro _ _
    | intro _
    | contradiction
    | (unfold id)
    | split
    | (rename_i hh; injection hh with hh; subst hh)
    | (rename_i hh; split at hh)

theorem execDbgRegWrite_keeps {R : State → Prop} (hR : Keeps partsDbgRegWrite fieldsDbgRegWrite R) (w : Writer) (c : Fin 8) (reg : BitVec 14) (s : State)
    (hI : R s) {tT : State} (eE : execDbgRegWrite w c reg s = .next tT) : R tT := by
  unfold execDbgRegWrite at eE
  try dsimp only at eE
  repeat' split at eE
  all_goals try (injection eE with eE; subst eE)
  all_goals repeat' first
    | with_reducible assumption
    | exact hR.sub
    | with_reducible apply rel_ite
    | with_reducible apply State.dbgAcc_keeps
    | with_reducible apply State.dbgWrite_keeps
    | with_reducible apply State.dirNext_keeps
    | with_reducible apply State.flashMessage_keeps
    | with_reducible apply State.message_keeps
    | with_reducible apply State.packageReset_keeps
    | with_reducible apply State.powerOn_keeps
    | with_reducible apply State.reach_keeps
    | dsimp only
    | intro _ _
    | intro _
    | contradiction
    | (unfold id)
    | split
    | (rename_i hh; injection hh with hh; subst hh)
    | (rename_i hh; split at hh)

theorem State.patchDrop_keeps {R : State → Prop} (hR : Keeps [.helmL1] ⟨[], [], [], false⟩ R) (s : State) (c u : Nat)
    (hI : R s) : R (State.patchDrop s c u) := by
  unfold State.patchDrop
  try dsimp only
  repeat' first
    | with_reducible assumption
    | exact hR.sub
    | with_reducible apply rel_ite
    | with_reducible apply State.setL1_keeps
    | dsimp only
    | intro _ _
    | intro _
    | contradiction
    | (unfold id)
    | split
    | (rename_i hh; injection hh with hh; subst hh)
    | (rename_i hh; split at hh)

theorem execPatchWrite_keeps {R : State → Prop} (hR : Keeps partsPatchWrite fieldsPatchWrite R) (w : Writer) (c : Fin 8) (u : Fin 16) (data : Bool) (v : BitVec 32) (s : State)
    (hI : R s) {tT : State} (eE : execPatchWrite w c u data v s = .next tT) : R tT := by
  unfold execPatchWrite at eE
  try dsimp only at eE
  repeat' split at eE
  all_goals try (injection eE with eE; subst eE)
  all_goals repeat' first
    | with_reducible assumption
    | exact hR.sub
    | with_reducible apply rel_ite
    | with_reducible refine hR.wr _ _ _ (by decide +kernel) (by first | decide +kernel | exact hasFld_self _ _ | exact hasFld_all _ | (simp [hasFld]; done) ) ?_
    | with_reducible apply State.dirNext_keeps
    | with_reducible apply State.flashMessage_keeps
    | with_reducible apply State.message_keeps
    | with_reducible apply State.packageReset_keeps
    | with_reducible apply State.patchDrop_keeps
    | with_reducible apply State.powerOn_keeps
    | with_reducible apply State.reach_keeps
    | dsimp only
    | intro _ _
    | intro _
    | contradiction
    | (unfold id)
    | split
    | (rename_i hh; injection hh with hh; subst hh)
    | (rename_i hh; split at hh)

def opPartsGBytes : List Part :=
  [.regs, .draws, .stewards, .hbm, .poison, .rcLines, .rcWb, .sf, .sfAge, .haIn, .homeOut, .ccache]
def opFieldsGBytes : FSet :=
  ⟨[.HA_BACKINV_CNT_COUNT, .HA_STAT_RECALL, .HA_STAT_SF_LEVEL, .RC_HIT_CNT_COUNT, .RC_MISS_CNT_COUNT, .RC_SNP_CNT_COUNT,
    .RC_STAT_RETAINED, .RC_WB_CNT_COUNT, .SEAL_CC_MISS_CNT_COUNT, .SEAL_DENY_CNT_COUNT, .SEAL_ERR_ADDR_HI_ADDR,
    .SEAL_ERR_ADDR_LO_ADDR, .SEAL_ERR_CODE, .SEAL_ERR_LEVEL, .SEAL_ERR_RANGE, .SEAL_ERR_VALID], [], [], false⟩

theorem State.gBytes_keeps {R : State → Prop} (hR : Keeps opPartsGBytes opFieldsGBytes R) (s : State) (m : Mst) (a n : Nat)
    (hI : R s) : R (State.gBytes s m a n).2.2 := by
  unfold State.gBytes
  try dsimp only
  repeat' first
    | with_reducible assumption
    | exact hR.sub
    | with_reducible apply rel_ite
    | with_reducible apply State.drop_keeps
    | with_reducible apply State.gRead_keeps
    | (with_reducible apply rel_foldl; intro _ _ _)
    | (with_reducible apply rel_foldl2; intro _ _ _)
    | (with_reducible apply rel_foldl3; intro _ _ _)
    | (with_reducible apply rel_foldl1; intro _ _ _)
    | (refine State.gRead_keeps_of hR.sub _ _ _ _ ?_ (by assumption))
    | dsimp only
    | intro _ _
    | intro _
    | contradiction
    | (unfold id)
    | split
    | (rename_i hh; injection hh with hh; subst hh)
    | (rename_i hh; split at hh)

theorem State.gBytes_keeps_of {R : State → Prop} (hR : Keeps opPartsGBytes opFieldsGBytes R) (s : State) (m : Mst) (a n : Nat)
    (hI : R s) {a : Nat} {b : List Byte} {tT : State} (eE : State.gBytes s m a n = (a, b, tT)) : R tT := by
  have h := State.gBytes_keeps hR s m a n hI
  rw [eE] at h
  exact h

def opPartsGPut : List Part :=
  [.regs, .out, .draws, .stewards, .eng, .hbm, .poison, .win, .rcLines, .rcWb, .sf, .sfAge, .haIn, .homeOut, .leafMaj,
    .leafMin, .ccache, .hwm]
def opFieldsGPut : FSet :=
  ⟨[.HA_BACKINV_CNT_COUNT, .HA_STAT_RECALL, .HA_STAT_SF_LEVEL, .HBM_ERR_ADDR_HI_ADDR, .HBM_ERR_ADDR_LO_ADDR,
    .HBM_ERR_CH, .HBM_ERR_CODE, .HBM_ERR_PC, .HBM_ERR_SID, .HBM_ERR_VALID, .RC_HIT_CNT_COUNT, .RC_MISS_CNT_COUNT,
    .RC_SNP_CNT_COUNT, .RC_STAT_RETAINED, .RC_WB_CNT_COUNT, .SEAL_CC_MISS_CNT_COUNT, .SEAL_DENY_CNT_COUNT,
    .SEAL_ERR_ADDR_HI_ADDR, .SEAL_ERR_ADDR_LO_ADDR, .SEAL_ERR_CODE, .SEAL_ERR_LEVEL, .SEAL_ERR_RANGE, .SEAL_ERR_VALID,
    .SEAL_OVF_CNT_COUNT, .SEAL_RSTAT_FREEZE, .SEAL_RSTAT_STATE], [], [], false⟩

theorem State.gPut_keeps {R : State → Prop} (hR : Keeps opPartsGPut opFieldsGPut R) (s : State) (m : Mst) (a : Nat) (bs : List Byte)
    (hI : R s) : R (State.gPut s m a bs).2 := by
  unfold State.gPut
  try dsimp only
  repeat' first
    | with_reducible assumption
    | exact hR.sub
    | with_reducible apply rel_ite
    | with_reducible apply State.drop_keeps
    | with_reducible apply State.gRead_keeps
    | with_reducible apply State.gWrite_keeps
    | (with_reducible apply rel_foldl; intro _ _ _)
    | (with_reducible apply rel_foldl2; intro _ _ _)
    | (with_reducible apply rel_foldl3; intro _ _ _)
    | (with_reducible apply rel_foldl1; intro _ _ _)
    | (refine State.gRead_keeps_of hR.sub _ _ _ _ ?_ (by assumption))
    | (refine State.gWrite_keeps_of hR.sub _ _ _ _ _ _ ?_ (by assumption))
    | dsimp only
    | intro _ _
    | intro _
    | contradiction
    | (unfold id)
    | split
    | (rename_i hh; injection hh with hh; subst hh)
    | (rename_i hh; split at hh)

theorem State.gPut_keeps_of {R : State → Prop} (hR : Keeps opPartsGPut opFieldsGPut R) (s : State) (m : Mst) (a : Nat) (bs : List Byte)
    (hI : R s) {a : Nat} {tT : State} (eE : State.gPut s m a bs = (a, tT)) : R tT := by
  have h := State.gPut_keeps hR s m a bs hI
  rw [eE] at h
  exact h

def opPartsMailAnswer : List Part :=
  [.regs, .out, .draws, .stewards, .eng, .hbm, .poison, .win, .rcLines, .rcWb, .sf, .sfAge, .haIn, .homeOut, .leafMaj,
    .leafMin, .ccache, .hwm, .qps, .cfgWait, .helm]
def opFieldsMailAnswer : FSet :=
  ⟨[.HA_BACKINV_CNT_COUNT, .HA_STAT_RECALL, .HA_STAT_SF_LEVEL, .HBM_ERR_ADDR_HI_ADDR, .HBM_ERR_ADDR_LO_ADDR,
    .HBM_ERR_CH, .HBM_ERR_CODE, .HBM_ERR_PC, .HBM_ERR_SID, .HBM_ERR_VALID, .HIF_QP_DONE_CNT_COUNT, .HIF_QP_STAT_STATE,
    .RC_HIT_CNT_COUNT, .RC_MISS_CNT_COUNT, .RC_SNP_CNT_COUNT, .RC_STAT_RETAINED, .RC_WB_CNT_COUNT,
    .SEAL_CC_MISS_CNT_COUNT, .SEAL_DENY_CNT_COUNT, .SEAL_ERR_ADDR_HI_ADDR, .SEAL_ERR_ADDR_LO_ADDR, .SEAL_ERR_CODE,
    .SEAL_ERR_LEVEL, .SEAL_ERR_RANGE, .SEAL_ERR_VALID, .SEAL_OVF_CNT_COUNT, .SEAL_RSTAT_FREEZE, .SEAL_RSTAT_STATE], [],
    [], false⟩

theorem State.mailAnswer_keeps {R : State → Prop} (hR : Keeps opPartsMailAnswer opFieldsMailAnswer R) (s : State) (m : Mail) (rst : Nat) (body : List Byte)
    (hI : R s) : R (State.mailAnswer s m rst body) := by
  unfold State.mailAnswer
  try dsimp only
  repeat' first
    | with_reducible assumption
    | exact hR.sub
    | exact fun h => memWf_memStore h
    | exact fun h => memWf_memPut h
    | exact fun h => memWf_filter _ h
    | exact fun _ => rfl
    | with_reducible apply rel_ite
    | with_reducible apply State.fnAnswer_keeps
    | with_reducible apply State.gPut_keeps
    | with_reducible apply State.setHelm_keeps
    | (refine State.gPut_keeps_of hR.sub _ _ _ _ ?_ (by assumption))
    | fail_if_no_progress (with_reducible apply hR.upd; all_goals try first | with_reducible exact .inr rfl | exact .inl (by decide +kernel) | exact id)
    | dsimp only
    | intro _ _
    | intro _
    | contradiction
    | (unfold id)
    | split
    | (rename_i hh; injection hh with hh; subst hh)
    | (rename_i hh; split at hh)

theorem execHelmMailboxGo_keeps {R : State → Prop} (hR : Keeps partsHelmMailboxGo fieldsHelmMailboxGo R) (w : Writer) (c : Fin 8) (s : State)
    (hI : R s) {tT : State} (eE : execHelmMailboxGo w c s = .next tT) : R tT := by
  unfold execHelmMailboxGo at eE
  try dsimp only at eE
  repeat' split at eE
  all_goals try (injection eE with eE; subst eE)
  all_goals repeat' first
    | with_reducible assumption
    | exact hR.sub
    | exact fun h => memWf_memStore h
    | exact fun h => memWf_memPut h
    | exact fun h => memWf_filter _ h
    | exact fun _ => rfl
    | with_reducible apply rel_ite
    | with_reducible refine hR.wr _ _ _ (by decide +kernel) (by first | decide +kernel | exact hasFld_self _ _ | exact hasFld_all _ | (simp [hasFld]; done) ) ?_
    | with_reducible apply State.blockWrite_keeps
    | with_reducible apply State.dirNext_keeps
    | with_reducible apply State.drop_keeps
    | with_reducible apply State.flashMessage_keeps
    | with_reducible apply State.gBytes_keeps
    | with_reducible apply State.mailAnswer_keeps
    | with_reducible apply State.message_keeps
    | with_reducible apply State.packageReset_keeps
    | with_reducible apply State.powerOn_keeps
    | with_reducible apply State.reach_keeps
    | with_reducible apply State.setHelm_keeps
    | (refine State.gBytes_keeps_of hR.sub _ _ _ _ ?_ (by assumption))
    | fail_if_no_progress (with_reducible apply hR.upd; all_goals try first | with_reducible exact .inr rfl | exact .inl (by decide +kernel) | exact id)
    | dsimp only
    | intro _ _
    | intro _
    | contradiction
    | (unfold id)
    | split
    | (rename_i hh; injection hh with hh; subst hh)
    | (rename_i hh; split at hh)

theorem execHelmMailboxDone_keeps {R : State → Prop} (hR : Keeps partsHelmMailboxDone fieldsHelmMailboxDone R) (c : Fin 8) (s : State)
    (hI : R s) {tT : State} (eE : execHelmMailboxDone c s = .next tT) : R tT := by
  unfold execHelmMailboxDone at eE
  try dsimp only at eE
  repeat' split at eE
  all_goals try (injection eE with eE; subst eE)
  all_goals repeat' first
    | with_reducible assumption
    | exact hR.sub
    | exact fun h => memWf_memStore h
    | exact fun h => memWf_memPut h
    | exact fun h => memWf_filter _ h
    | exact fun _ => rfl
    | with_reducible apply rel_ite
    | with_reducible refine hR.wr _ _ _ (by decide +kernel) (by first | decide +kernel | exact hasFld_self _ _ | exact hasFld_all _ | (simp [hasFld]; done) ) ?_
    | with_reducible apply State.dirNext_keeps
    | with_reducible apply State.flashMessage_keeps
    | with_reducible apply State.irq_keeps
    | with_reducible apply State.message_keeps
    | with_reducible apply State.packageReset_keeps
    | with_reducible apply State.powerOn_keeps
    | with_reducible apply State.reach_keeps
    | with_reducible apply State.setHelm_keeps
    | fail_if_no_progress (with_reducible apply hR.upd; all_goals try first | with_reducible exact .inr rfl | exact .inl (by decide +kernel) | exact id)
    | dsimp only
    | intro _ _
    | intro _
    | contradiction
    | (unfold id)
    | split
    | (rename_i hh; injection hh with hh; subst hh)
    | (rename_i hh; split at hh)

end Sys2Proof.Machine
end

