-- ==== Sys2Proof/Laws/KeepsPower.lean ====
section
/-! SUPPORT. What the operations of `Machine/Power.lean` may change and what they keep. -/

namespace Sys2Proof.Machine

set_option Elab.async false
set_option linter.all false

theorem State.setDieRt_keeps {R : State → Prop} (hR : Keeps [.dieRt] ⟨[], [], [], false⟩ R) (s : State) (n : Nat) (x : DieRt)
    (hI : R s) : R (State.setDieRt s n x) := by
  unfold State.setDieRt
  try dsimp only
  repeat' first
    | with_reducible assumption
    | exact hR.sub
    | exact fun h => memWf_memStore h
    | exact fun h => memWf_memPut h
    | exact fun h => memWf_filter _ h
    | exact fun _ => rfl
    | with_reducible apply rel_ite
    | fail_if_no_progress (with_reducible apply hR.upd; all_goals try first | with_reducible exact .inr rfl | exact .inl (by decide +kernel) | exact id)
    | dsimp only
    | intro _ _
    | intro _
    | contradiction
    | (unfold id)
    | split
    | (rename_i hh; injection hh with hh; subst hh)
    | (rename_i hh; split at hh)

theorem State.setDie_keeps {R : State → Prop} (hR : Keeps [.regs, .stewards] ⟨[.HELM_IC_PEND_BITS, .HUB_DIE_STATE_STATE], [], [], false⟩ R) (s : State) (n v : Nat)
    (hI : R s) : R (State.setDie s n v) := by
  unfold State.setDie
  try dsimp only
  repeat' first
    | with_reducible assumption
    | exact hR.sub
    | with_reducible apply rel_ite
    | with_reducible refine hR.wr _ _ _ (by decide +kernel) (by first | decide +kernel | exact hasFld_self _ _ | exact hasFld_all _ | (simp [hasFld]; done) ) ?_
    | with_reducible apply State.irq_keeps
    | with_reducible apply State.raise_keeps
    | dsimp only
    | intro _ _
    | intro _
    | contradiction
    | (unfold id)
    | split
    | (rename_i hh; injection hh with hh; subst hh)
    | (rename_i hh; split at hh)

theorem State.bearingsPut_keeps {R : State → Prop} (hR : Keeps [.bearings] ⟨[], [], [], false⟩ R) (s : State) (v : Bool) (ks : List (List Nat))
    (hI : R s) : R (State.bearingsPut s v ks) := by
  unfold State.bearingsPut
  try dsimp only
  repeat' first
    | with_reducible assumption
    | exact hR.sub
    | exact fun h => memWf_memStore h
    | exact fun h => memWf_memPut h
    | exact fun h => memWf_filter _ h
    | exact fun _ => rfl
    | with_reducible apply rel_ite
    | (with_reducible apply rel_foldl; intro _ _ _)
    | (with_reducible apply rel_foldl2; intro _ _ _)
    | (with_reducible apply rel_foldl3; intro _ _ _)
    | (with_reducible apply rel_foldl1; intro _ _ _)
    | fail_if_no_progress (with_reducible apply hR.upd; all_goals try first | with_reducible exact .inr rfl | exact .inl (by decide +kernel) | exact id)
    | dsimp only
    | intro _ _
    | intro _
    | contradiction
    | (unfold id)
    | split
    | (rename_i hh; injection hh with hh; subst hh)
    | (rename_i hh; split at hh)

theorem State.isolate_keeps {R : State → Prop} (hR : Keeps [.crossIn] ⟨[], [], [], false⟩ R) (s : State) (n : Nat)
    (hI : R s) : R (State.isolate s n) := by
  unfold State.isolate
  try dsimp only
  repeat' first
    | with_reducible assumption
    | exact hR.sub
    | exact fun h => memWf_memStore h
    | exact fun h => memWf_memPut h
    | exact fun h => memWf_filter _ h
    | exact fun _ => rfl
    | with_reducible apply rel_ite
    | (with_reducible apply rel_foldl; intro _ _ _)
    | (with_reducible apply rel_foldl2; intro _ _ _)
    | (with_reducible apply rel_foldl3; intro _ _ _)
    | (with_reducible apply rel_foldl1; intro _ _ _)
    | fail_if_no_progress (with_reducible apply hR.upd; all_goals try first | with_reducible exact .inr rfl | exact .inl (by decide +kernel) | exact id)
    | dsimp only
    | intro _ _
    | intro _
    | contradiction
    | (unfold id)
    | split
    | (rename_i hh; injection hh with hh; subst hh)
    | (rename_i hh; split at hh)

theorem State.homeFlush_keeps {R : State → Prop} (hR : Keeps [.regs, .hbm, .poison, .rcLines, .sf] ⟨[.HA_STAT_SF_LEVEL, .RC_WB_CNT_COUNT], [], [], false⟩ R) (s : State) (st : Nat)
    (hI : R s) : R (State.homeFlush s st) := by
  unfold State.homeFlush
  try dsimp only
  repeat' first
    | with_reducible assumption
    | exact hR.sub
    | with_reducible apply rel_ite
    | with_reducible apply State.rcClean_keeps
    | (with_reducible apply rel_foldl; intro _ _ _)
    | (with_reducible apply rel_foldl2; intro _ _ _)
    | (with_reducible apply rel_foldl3; intro _ _ _)
    | (with_reducible apply rel_foldl1; intro _ _ _)
    | dsimp only
    | intro _ _
    | intro _
    | contradiction
    | (unfold id)
    | split
    | (rename_i hh; injection hh with hh; subst hh)
    | (rename_i hh; split at hh)

theorem State.stopEngines_keeps {R : State → Prop} (hR : Keeps [.regs, .govs, .eng] ⟨[.ENG_STATUS_STATE], [], [], false⟩ R) (s : State) (n : Nat)
    (hI : R s) : R (State.stopEngines s n) := by
  unfold State.stopEngines
  try dsimp only
  repeat' first
    | with_reducible assumption
    | exact hR.sub
    | with_reducible apply rel_ite
    | with_reducible apply State.engStop_keeps
    | (with_reducible apply rel_foldl; intro _ _ _)
    | (with_reducible apply rel_foldl2; intro _ _ _)
    | (with_reducible apply rel_foldl3; intro _ _ _)
    | (with_reducible apply rel_foldl1; intro _ _ _)
    | dsimp only
    | intro _ _
    | intro _
    | contradiction
    | (unfold id)
    | split
    | (rename_i hh; injection hh with hh; subst hh)
    | (rename_i hh; split at hh)

theorem State.resetSectors_keeps {R : State → Prop} (hR : Keeps [.regs, .govs, .sec, .fab] ⟨[.SEC_CTL_RESET, .SEC_STATUS_ISOLATED, .SEC_STATUS_PERMIT_WAIT, .SEC_STATUS_RESET_HELD, .SEC_STATUS_STATE], [.sec], [], false⟩ R) (s : State) (n : Nat)
    (hI : R s) : R (State.resetSectors s n) := by
  unfold State.resetSectors
  try dsimp only
  repeat' first
    | with_reducible assumption
    | exact hR.sub
    | with_reducible apply rel_ite
    | with_reducible apply State.sectorReset_keeps
    | (with_reducible apply rel_foldl; intro _ _ _)
    | (with_reducible apply rel_foldl2; intro _ _ _)
    | (with_reducible apply rel_foldl3; intro _ _ _)
    | (with_reducible apply rel_foldl1; intro _ _ _)
    | dsimp only
    | intro _ _
    | intro _
    | contradiction
    | (unfold id)
    | split
    | (rename_i hh; injection hh with hh; subst hh)
    | (rename_i hh; split at hh)

def opPartsFlushOut : List Part :=
  [.regs, .stewards, .govs, .hbm, .poison, .rcLines, .rcWb, .sf, .seals, .hbmPc, .stack, .rtq, .ni, .bearings, .hold]
def opFieldsFlushOut : FSet :=
  ⟨[.HA_STAT_SF_LEVEL, .HBM_STAT_STATE, .NOC_NI_ALT_CNT_COUNT, .NOC_NI_BOUNCE_CNT_COUNT, .NOC_NI_ERR_CODE,
    .NOC_NI_ERR_DEST, .NOC_NI_ERR_VALID, .NOC_NI_FAIL_CNT_COUNT, .RC_WB_CNT_COUNT, .SEAL_STAT_KIND,
    .SEAL_STAT_PERMIT_WAIT, .SEAL_STAT_QUEUE, .SEAL_STAT_RANGE], [], [], false⟩

theorem State.flushOut_keeps {R : State → Prop} (hR : Keeps opPartsFlushOut opFieldsFlushOut R) (s : State) (n c : Nat)
    (hI : R s) : R (State.flushOut s n c) := by
  unfold State.flushOut
  try dsimp only
  repeat' first
    | with_reducible assumption
    | exact hR.sub
    | exact fun h => memWf_memStore h
    | exact fun h => memWf_memPut h
    | exact fun h => memWf_filter _ h
    | exact fun _ => rfl
    | with_reducible apply rel_ite
    | with_reducible apply State.homeFlush_keeps
    | with_reducible apply State.rcFlushAll_keeps
    | with_reducible apply State.srCause_keeps
    | with_reducible apply State.srEntered_keeps
    | with_reducible apply State.sweepSleep_keeps
    | fail_if_no_progress (with_reducible apply hR.upd; all_goals try first | with_reducible exact .inr rfl | exact .inl (by decide +kernel) | exact id)
    | dsimp only
    | intro _ _
    | intro _
    | contradiction
    | (unfold id)
    | split
    | (rename_i hh; injection hh with hh; subst hh)
    | (rename_i hh; split at hh)

def opPartsJobsLeave : List Part := [.regs, .stewards, .govs, .sec, .fab, .qps, .cfgWait, .cfgLoad, .cfg]
def opFieldsJobsLeave : FSet :=
  ⟨[.BOOT_STAT_CFG, .BOOT_STAT_CFG_STATUS, .HIF_QP_DONE_CNT_COUNT, .HIF_QP_STAT_STATE, .SEC_CTL_RESET,
    .SEC_STATUS_ISOLATED, .SEC_STATUS_PERMIT_WAIT, .SEC_STATUS_RESET_HELD, .SEC_STATUS_STATE], [.sec], [], false⟩

theorem State.jobsLeave_keeps {R : State → Prop} (hR : Keeps opPartsJobsLeave opFieldsJobsLeave R) (s : State) (n : Nat)
    (hI : R s) : R (State.jobsLeave s n) := by
  unfold State.jobsLeave
  try dsimp only
  repeat' first
    | with_reducible assumption
    | exact hR.sub
    | exact fun h => memWf_memStore h
    | exact fun h => memWf_memPut h
    | exact fun h => memWf_filter _ h
    | exact fun _ => rfl
    | with_reducible apply rel_ite
    | with_reducible apply State.cfgDieLeft_keeps
    | with_reducible apply State.jobDone_keeps
    | with_reducible apply State.jobWaits_keeps
    | (with_reducible apply rel_foldl; intro _ _ _)
    | (with_reducible apply rel_foldl2; intro _ _ _)
    | (with_reducible apply rel_foldl3; intro _ _ _)
    | (with_reducible apply rel_foldl1; intro _ _ _)
    | fail_if_no_progress (with_reducible apply hR.upd; all_goals try first | with_reducible exact .inr rfl | exact .inl (by decide +kernel) | exact id)
    | dsimp only
    | intro _ _
    | intro _
    | contradiction
    | (unfold id)
    | split
    | (rename_i hh; injection hh with hh; subst hh)
    | (rename_i hh; split at hh)

theorem State.spanEvents_keeps {R : State → Prop} (hR : Keeps [.stewards] ⟨[], [], [], false⟩ R) (s : State) (n : Nat)
    (hI : R s) : R (State.spanEvents s n) := by
  unfold State.spanEvents
  try dsimp only
  repeat' first
    | with_reducible assumption
    | exact hR.sub
    | with_reducible apply rel_ite
    | with_reducible apply State.raise_keeps
    | (with_reducible apply rel_foldl; intro _ _ _)
    | (with_reducible apply rel_foldl2; intro _ _ _)
    | (with_reducible apply rel_foldl3; intro _ _ _)
    | (with_reducible apply rel_foldl1; intro _ _ _)
    | dsimp only
    | intro _ _
    | intro _
    | contradiction
    | (unfold id)
    | split
    | (rename_i hh; injection hh with hh; subst hh)
    | (rename_i hh; split at hh)

theorem State.linkDown_keeps {R : State → Prop} (hR : Keeps [.regs, .govs, .gkLink, .gkDir, .gkPool] ⟨[.GK_GRP_STAT_ROLE, .GK_STAT_COH, .GK_STAT_CROSS, .GK_STAT_NOC, .GK_STAT_NOC_DETOUR, .GK_STAT_STATE], [], [], false⟩ R) (s : State) (l : Nat)
    (hI : R s) : R (State.linkDown s l) := by
  unfold State.linkDown
  try dsimp only
  repeat' first
    | with_reducible assumption
    | exact hR.sub
    | with_reducible apply rel_ite
    | with_reducible refine hR.wr _ _ _ (by decide +kernel) (by first | decide +kernel | exact hasFld_self _ _ | exact hasFld_all _ | (simp [hasFld]; done) ) ?_
    | with_reducible apply State.gkCount_keeps
    | with_reducible apply State.linkReturn_keeps
    | with_reducible apply State.setDir_keeps
    | with_reducible apply State.setLink_keeps
    | with_reducible apply State.setPool_keeps
    | (with_reducible apply rel_foldl; intro _ _ _)
    | (with_reducible apply rel_foldl2; intro _ _ _)
    | (with_reducible apply rel_foldl3; intro _ _ _)
    | (with_reducible apply rel_foldl1; intro _ _ _)
    | dsimp only
    | intro _ _
    | intro _
    | contradiction
    | (unfold id)
    | split
    | (rename_i hh; injection hh with hh; subst hh)
    | (rename_i hh; split at hh)

def opPartsDieWipe : List Part :=
  (.regs :: .answer :: .draws :: .govs :: .sec :: .tree :: .fab :: .eng :: .hbm :: .poison :: .win :: .rcLines ::
    .rcMiss :: .rcWb :: .sf :: .sfAge :: .haIn :: .haTx :: .rcLossT :: .hbmPort :: .hbmPc :: .stack :: .arbs :: .rtq ::
    .ni :: .bearings :: .rtPend :: .drainT :: .gkLink :: .gkDir :: .gkPool :: .crossIn :: .lane :: .trunk :: .bundle ::
    .cfg :: .synth :: .fvs :: .scrub :: [])
def opFieldsDieWipe : FSet :=
  ⟨[.GK_GRP_STAT_ROLE, .GK_STAT_COH, .GK_STAT_CROSS, .GK_STAT_NOC, .GK_STAT_NOC_DETOUR, .GK_STAT_STATE,
    .HA_BACKINV_CNT_COUNT, .HA_STAT_SF_LEVEL, .HBM_STAT_STATE, .RC_SNP_CNT_COUNT, .RC_WB_CNT_COUNT], [.die, .eng, .sec],
    [], false⟩

theorem State.dieWipe_keeps {R : State → Prop} (hR : Keeps opPartsDieWipe opFieldsDieWipe R) (s : State) (n : Nat)
    (hI : R s) : R (State.dieWipe s n) := by
  unfold State.dieWipe
  extract_lets s1 s2 mineEng s3
  have h1 : R s1 := rel_foldl (fun s l h => State.linkDown_keeps hR.sub _ _ h) _ hI
  clear_value s1
  have h2 : R s2 := State.fabEmpty_keeps hR.sub _ _
    (hR.clear _ (by decide +kernel) (fun _ _ h => hasFld_cls (dieClears_cls h)) (State.haForget_keeps hR.sub _ _ h1))
  clear_value s2
  have h3 : R s3 := by
    unfold s3
    fail_if_no_progress (with_reducible apply hR.upd; all_goals try first | exact .inl (by decide +kernel) | with_reducible exact .inr rfl | exact id)
    all_goals first | exact h2 | exact fun h => memWf_filter _ h
  clear_value s3
  split
  · exact h3
  · extract_lets s4 s5
    have h4 : R s4 := by
      unfold s4
      fail_if_no_progress (with_reducible apply hR.upd; all_goals try first | exact .inl (by decide +kernel) | with_reducible exact .inr rfl | exact id)
      exact h3
    clear_value s4
    have h5 : R s5 := State.setStk_keeps hR.sub _ _ _ h4
    clear_value s5
    exact rel_ite (hR.wr _ _ _ (by decide +kernel) (by decide +kernel) h5) h5

theorem State.dieRelease_keeps {R : State → Prop} (hR : Keeps [.regs, .dieRt, .relq] ⟨[.RST_DIE_STAT_HELD], [], [], false⟩ R) (s : State) (n : Nat)
    (hI : R s) : R (State.dieRelease s n) := by
  unfold State.dieRelease
  try dsimp only
  repeat' first
    | with_reducible assumption
    | exact hR.sub
    | exact fun h => memWf_memStore h
    | exact fun h => memWf_memPut h
    | exact fun h => memWf_filter _ h
    | exact fun _ => rfl
    | with_reducible apply rel_ite
    | with_reducible refine hR.wr _ _ _ (by decide +kernel) (by first | decide +kernel | exact hasFld_self _ _ | exact hasFld_all _ | (simp [hasFld]; done) ) ?_
    | with_reducible apply State.setDieRt_keeps
    | fail_if_no_progress (with_reducible apply hR.upd; all_goals try first | with_reducible exact .inr rfl | exact .inl (by decide +kernel) | exact id)
    | dsimp only
    | intro _ _
    | intro _
    | contradiction
    | (unfold id)
    | split
    | (rename_i hh; injection hh with hh; subst hh)
    | (rename_i hh; split at hh)

def opPartsPlannedReset : List Part :=
  (.now :: .local_ :: .regs :: .answer :: .draws :: .stewards :: .govs :: .sec :: .tree :: .fab :: .eng :: .hbm ::
    .poison :: .win :: .rcLines :: .rcMiss :: .rcWb :: .sf :: .sfAge :: .haIn :: .haTx :: .rcLossT :: .seals :: .hbmPort
    :: .hbmPc :: .stack :: .arbs :: .rtq :: .ni :: .bearings :: .rtPend :: .drainT :: .gkLink :: .gkDir :: .gkPool ::
    .crossIn :: .lane :: .trunk :: .bundle :: .qps :: .cfgWait :: .cfgLoad :: .cfg :: .spinePull :: .synth :: .fvs ::
    .dieRt :: .hold :: .relq :: .scrub :: [])
def opFieldsPlannedReset : FSet :=
  ⟨(.BOOT_STAT_CFG :: .BOOT_STAT_CFG_STATUS :: .ENG_STATUS_STATE :: .GK_GRP_STAT_ROLE :: .GK_STAT_COH :: .GK_STAT_CROSS
    :: .GK_STAT_NOC :: .GK_STAT_NOC_DETOUR :: .GK_STAT_STATE :: .HA_BACKINV_CNT_COUNT :: .HA_STAT_SF_LEVEL ::
    .HBM_STAT_STATE :: .HELM_IC_PEND_BITS :: .HIF_QP_DONE_CNT_COUNT :: .HIF_QP_STAT_STATE :: .HUB_DIE_STATE_STATE ::
    .NOC_NI_ALT_CNT_COUNT :: .NOC_NI_BOUNCE_CNT_COUNT :: .NOC_NI_ERR_CODE :: .NOC_NI_ERR_DEST :: .NOC_NI_ERR_VALID ::
    .NOC_NI_FAIL_CNT_COUNT :: .RC_SNP_CNT_COUNT :: .RC_WB_CNT_COUNT :: .RST_DIE_STAT_CAUSE :: .RST_DIE_STAT_HELD ::
    .RST_DIE_STAT_RESETS :: .SEAL_STAT_KIND :: .SEAL_STAT_PERMIT_WAIT :: .SEAL_STAT_QUEUE :: .SEAL_STAT_RANGE ::
    .SEC_CTL_RESET :: .SEC_STATUS_ISOLATED :: .SEC_STATUS_PERMIT_WAIT :: .SEC_STATUS_RESET_HELD :: .SEC_STATUS_STATE ::
    []), [.die, .eng, .sec], [], false⟩

theorem State.plannedReset_keeps {R : State → Prop} (hR : Keeps opPartsPlannedReset opFieldsPlannedReset R) (s : State) (n : Nat)
    (hI : R s) : R (State.plannedReset s n) := by
  unfold State.plannedReset
  try dsimp only
  repeat' first
    | with_reducible assumption
    | exact hR.sub
    | exact hR.sub (by decide +kernel) (subFld_self _ _)
    | with_reducible apply rel_ite
    | with_reducible refine hR.wr _ _ _ (by decide +kernel) (by first | decide +kernel | exact hasFld_self _ _ | exact hasFld_all _ | (simp [hasFld]; done) ) ?_
    | with_reducible apply State.bearingsPut_keeps
    | with_reducible apply State.dieRelease_keeps
    | with_reducible apply State.dieWipe_keeps
    | with_reducible apply State.flushOut_keeps
    | with_reducible apply State.incr_keeps
    | with_reducible apply State.isolate_keeps
    | with_reducible apply State.jobsLeave_keeps
    | with_reducible apply State.lapse_keeps
    | with_reducible apply State.resetSectors_keeps
    | with_reducible apply State.setDie_keeps
    | with_reducible apply State.spanEvents_keeps
    | with_reducible apply State.stopEngines_keeps
    | dsimp only
    | intro _ _
    | intro _
    | contradiction
    | (unfold id)
    | split
    | (rename_i hh; injection hh with hh; subst hh)
    | (rename_i hh; split at hh)

theorem execPlannedDieReset_keeps {R : State → Prop} (hR : Keeps partsPlannedDieReset fieldsPlannedDieReset R) (w : Writer) (n : Fin 8) (s : State)
    (hI : R s) {tT : State} (eE : execPlannedDieReset w n s = .next tT) : R tT := by
  unfold execPlannedDieReset at eE
  try dsimp only at eE
  repeat' split at eE
  all_goals try (injection eE with eE; subst eE)
  all_goals repeat' first
    | with_reducible assumption
    | exact hR.sub
    | exact fun h => memWf_memStore h
    | exact fun h => memWf_memPut h
    | exact fun h => memWf_filter _ h
    | exact fun _ => rfl
    | with_reducible apply rel_ite
    | with_reducible refine hR.wr _ _ _ (by decide +kernel) (by first | decide +kernel | exact hasFld_self _ _ | exact hasFld_all _ | (simp [hasFld]; done) ) ?_
    | with_reducible apply State.dirNext_keeps
    | with_reducible apply State.drop_keeps
    | with_reducible apply State.flashMessage_keeps
    | with_reducible apply State.message_keeps
    | with_reducible apply State.packageReset_keeps
    | with_reducible apply State.plannedReset_keeps
    | with_reducible apply State.powerOn_keeps
    | with_reducible apply State.reach_keeps
    | fail_if_no_progress (with_reducible apply hR.upd; all_goals try first | with_reducible exact .inr rfl | exact .inl (by decide +kernel) | exact id)
    | dsimp only
    | intro _ _
    | intro _
    | contradiction
    | (unfold id)
    | split
    | (rename_i hh; injection hh with hh; subst hh)
    | (rename_i hh; split at hh)

def opPartsNextReset : List Part :=
  (.now :: .local_ :: .regs :: .answer :: .draws :: .stewards :: .govs :: .sec :: .tree :: .fab :: .eng :: .hbm ::
    .poison :: .win :: .rcLines :: .rcMiss :: .rcWb :: .sf :: .sfAge :: .haIn :: .haTx :: .rcLossT :: .seals :: .hbmPort
    :: .hbmPc :: .stack :: .arbs :: .rtq :: .ni :: .bearings :: .rtPend :: .drainT :: .gkLink :: .gkDir :: .gkPool ::
    .crossIn :: .lane :: .trunk :: .bundle :: .qps :: .cfgWait :: .cfgLoad :: .cfg :: .spinePull :: .synth :: .fvs ::
    .dieRt :: .hold :: .relq :: .rstq :: .scrub :: [])
def opFieldsNextReset : FSet :=
  ⟨(.BOOT_STAT_CFG :: .BOOT_STAT_CFG_STATUS :: .ENG_STATUS_STATE :: .GK_GRP_STAT_ROLE :: .GK_STAT_COH :: .GK_STAT_CROSS
    :: .GK_STAT_NOC :: .GK_STAT_NOC_DETOUR :: .GK_STAT_STATE :: .HA_BACKINV_CNT_COUNT :: .HA_STAT_SF_LEVEL ::
    .HBM_STAT_STATE :: .HELM_IC_PEND_BITS :: .HIF_QP_DONE_CNT_COUNT :: .HIF_QP_STAT_STATE :: .HUB_DIE_STATE_STATE ::
    .NOC_NI_ALT_CNT_COUNT :: .NOC_NI_BOUNCE_CNT_COUNT :: .NOC_NI_ERR_CODE :: .NOC_NI_ERR_DEST :: .NOC_NI_ERR_VALID ::
    .NOC_NI_FAIL_CNT_COUNT :: .RC_SNP_CNT_COUNT :: .RC_WB_CNT_COUNT :: .RST_DIE_STAT_CAUSE :: .RST_DIE_STAT_HELD ::
    .RST_DIE_STAT_REFUSED :: .RST_DIE_STAT_RESETS :: .SEAL_STAT_KIND :: .SEAL_STAT_PERMIT_WAIT :: .SEAL_STAT_QUEUE ::
    .SEAL_STAT_RANGE :: .SEC_CTL_RESET :: .SEC_STATUS_ISOLATED :: .SEC_STATUS_PERMIT_WAIT :: .SEC_STATUS_RESET_HELD ::
    .SEC_STATUS_STATE :: []), [.die, .eng, .sec], [], false⟩

theorem State.nextReset_keeps {R : State → Prop} (hR : Keeps opPartsNextReset opFieldsNextReset R) (s : State)
    (hI : R s) : R (State.nextReset s) := by
  unfold State.nextReset
  try dsimp only
  repeat' first
    | with_reducible assumption
    | exact hR.sub
    | exact fun h => memWf_memStore h
    | exact fun h => memWf_memPut h
    | exact fun h => memWf_filter _ h
    | exact fun _ => rfl
    | with_reducible apply rel_ite
    | with_reducible refine hR.wr _ _ _ (by decide +kernel) (by first | decide +kernel | exact hasFld_self _ _ | exact hasFld_all _ | (simp [hasFld]; done) ) ?_
    | with_reducible apply State.plannedReset_keeps
    | fail_if_no_progress (with_reducible apply hR.upd; all_goals try first | with_reducible exact .inr rfl | exact .inl (by decide +kernel) | exact id)
    | dsimp only
    | intro _ _
    | intro _
    | contradiction
    | (unfold id)
    | split
    | (rename_i hh; injection hh with hh; subst hh)
    | (rename_i hh; split at hh)

def opPartsDieRestart : List Part :=
  (.regs :: .answer :: .draws :: .stewards :: .govs :: .sec :: .tree :: .fab :: .eng :: .hbm :: .poison :: .win ::
    .rcLines :: .rcMiss :: .rcWb :: .sf :: .sfAge :: .haIn :: .haTx :: .rcLossT :: .hbmPort :: .hbmPc :: .stack :: .arbs
    :: .rtq :: .ni :: .bearings :: .rtPend :: .drainT :: .gkLink :: .gkDir :: .gkPool :: .crossIn :: .lane :: .trunk ::
    .bundle :: .cfg :: .synth :: .fvs :: .dieRt :: .relq :: .scrub :: [])
def opFieldsDieRestart : FSet :=
  ⟨[.GK_GRP_STAT_ROLE, .GK_STAT_COH, .GK_STAT_CROSS, .GK_STAT_NOC, .GK_STAT_NOC_DETOUR, .GK_STAT_STATE,
    .HA_BACKINV_CNT_COUNT, .HA_STAT_SF_LEVEL, .HBM_STAT_STATE, .HELM_IC_PEND_BITS, .HUB_DIE_STATE_STATE,
    .PWR_DIE_STAT_PSTATE, .RC_SNP_CNT_COUNT, .RC_WB_CNT_COUNT, .RST_DIE_STAT_HELD, .RST_DIE_STAT_RESETS], [.die, .eng,
    .sec], [], false⟩

theorem State.dieRestart_keeps {R : State → Prop} (hR : Keeps opPartsDieRestart opFieldsDieRestart R) (s : State) (n : Nat) (rail : Bool)
    (hI : R s) : R (State.dieRestart s n rail) := by
  unfold State.dieRestart
  try dsimp only
  repeat' first
    | with_reducible assumption
    | exact hR.sub
    | exact fun h => memWf_memStore h
    | exact fun h => memWf_memPut h
    | exact fun h => memWf_filter _ h
    | exact fun _ => rfl
    | exact hR.sub (by decide +kernel) (subFld_self _ _)
    | with_reducible apply rel_ite
    | with_reducible refine hR.wr _ _ _ (by decide +kernel) (by first | decide +kernel | exact hasFld_self _ _ | exact hasFld_all _ | (simp [hasFld]; done) ) ?_
    | with_reducible apply State.dieWipe_keeps
    | with_reducible apply State.incr_keeps
    | with_reducible apply State.raise_keeps
    | with_reducible apply State.setDie_keeps
    | with_reducible apply State.setDieRt_keeps
    | fail_if_no_progress (with_reducible apply hR.upd; all_goals try first | with_reducible exact .inr rfl | exact .inl (by decide +kernel) | exact id)
    | dsimp only
    | intro _ _
    | intro _
    | contradiction
    | (unfold id)
    | split
    | (rename_i hh; injection hh with hh; subst hh)
    | (rename_i hh; split at hh)

theorem execDieStart_keeps {R : State → Prop} (hR : Keeps partsDieStart fieldsDieStart R) (w : Writer) (n : Fin 8) (rail : Bool) (s : State)
    (hI : R s) {tT : State} (eE : execDieStart w n rail s = .next tT) : R tT := by
  unfold execDieStart at eE
  try dsimp only at eE
  repeat' split at eE
  all_goals try (injection eE with eE; subst eE)
  all_goals repeat' first
    | with_reducible assumption
    | exact hR.sub
    | with_reducible apply rel_ite
    | with_reducible refine hR.wr _ _ _ (by decide +kernel) (by first | decide +kernel | exact hasFld_self _ _ | exact hasFld_all _ | (simp [hasFld]; done) ) ?_
    | with_reducible apply State.dieRestart_keeps
    | with_reducible apply State.dirNext_keeps
    | with_reducible apply State.drop_keeps
    | with_reducible apply State.flashMessage_keeps
    | with_reducible apply State.message_keeps
    | with_reducible apply State.packageReset_keeps
    | with_reducible apply State.powerOn_keeps
    | with_reducible apply State.reach_keeps
    | dsimp only
    | intro _ _
    | intro _
    | contradiction
    | (unfold id)
    | split
    | (rename_i hh; injection hh with hh; subst hh)
    | (rename_i hh; split at hh)

def opPartsDieLost : List Part :=
  (.regs :: .answer :: .draws :: .stewards :: .health :: .govs :: .sec :: .tree :: .fab :: .eng :: .hbm :: .poison ::
    .win :: .rcLines :: .rcMiss :: .rcWb :: .sf :: .sfAge :: .haIn :: .haTx :: .homeOut :: .rcLossT :: .seals ::
    .hbmPort :: .hbmPc :: .stack :: .arbs :: .rtq :: .ni :: .bearings :: .rtPend :: .drainT :: .gkLink :: .gkDir ::
    .gkPool :: .crossIn :: .lane :: .trunk :: .bundle :: .qps :: .cfgWait :: .cfgLoad :: .cfg :: .synth :: .fvs ::
    .dieRt :: .hold :: .relq :: .scrub :: [])
def opFieldsDieLost : FSet :=
  ⟨(.BOOT_STAT_CFG :: .BOOT_STAT_CFG_STATUS :: .GK_GRP_STAT_ROLE :: .GK_STAT_COH :: .GK_STAT_CROSS :: .GK_STAT_NOC ::
    .GK_STAT_NOC_DETOUR :: .GK_STAT_STATE :: .HA_BACKINV_CNT_COUNT :: .HA_POISON_CNT_COUNT :: .HA_STAT_SF_LEVEL ::
    .HBM_STAT_CONTENT :: .HBM_STAT_STATE :: .HELM_IC_PEND_BITS :: .HIF_QP_DONE_CNT_COUNT :: .HIF_QP_STAT_STATE ::
    .HUB_DIE_STATE_LOST :: .HUB_DIE_STATE_STATE :: .MGMT_HEALTH_STAGE :: .NOC_NI_ALT_CNT_COUNT ::
    .NOC_NI_BOUNCE_CNT_COUNT :: .NOC_NI_ERR_CODE :: .NOC_NI_ERR_DEST :: .NOC_NI_ERR_VALID :: .NOC_NI_FAIL_CNT_COUNT ::
    .PWR_DIE_STAT_BUSY :: .RC_SNP_CNT_COUNT :: .RC_STAT_RETAINED :: .RC_WB_CNT_COUNT :: .RST_DIE_CTL_HOLD ::
    .RST_DIE_STAT_CAUSE :: .SEAL_STAT_KIND :: .SEAL_STAT_PERMIT_WAIT :: .SEAL_STAT_QUEUE :: .SEAL_STAT_RANGE ::
    .SEC_CTL_RESET :: .SEC_STATUS_ISOLATED :: .SEC_STATUS_PERMIT_WAIT :: .SEC_STATUS_RESET_HELD :: .SEC_STATUS_STATE ::
    []), [.die, .eng, .sec], [], false⟩

theorem State.dieLost_keeps {R : State → Prop} (hR : Keeps opPartsDieLost opFieldsDieLost R) (s : State) (n cause : Nat) (keep : Bool)
    (hI : R s) : R (State.dieLost s n cause keep) := by
  unfold State.dieLost
  extract_lets s1 s2 s3 s4 s5 s6 x again s7 s8
  have h1 : R s1 := by
    repeat' first
    | with_reducible assumption
    | exact hR.sub
    | with_reducible refine hR.wr _ _ _ (by decide +kernel) (by decide +kernel) ?_
    | with_reducible apply State.setDie_keeps
  clear_value s1
  have h2 : R s2 := by
    repeat' first
    | with_reducible assumption
    | exact hR.sub
    | with_reducible refine hR.wr _ _ _ (by decide +kernel) (by decide +kernel) ?_
    | with_reducible apply State.raise_keeps
    | with_reducible apply State.spanEvents_keeps
  clear_value s2
  have h3 : R s3 := by
    repeat' first
    | with_reducible assumption
    | exact hR.sub
    | with_reducible apply State.bearingsPut_keeps
    | with_reducible apply State.jobsLeave_keeps
    | with_reducible apply State.isolate_keeps
  clear_value s3
  have h4 : R s4 := State.rcLost_keeps hR.sub _ _ h3
  clear_value s4
  have h5 : R s5 := by
    unfold s5
    split
    · exact h4
    · dsimp only
      repeat' first
        | with_reducible assumption
        | exact hR.sub
        | with_reducible apply rel_ite
        | with_reducible apply State.srEntered_keeps
        | with_reducible apply State.srCause_keeps
        | with_reducible apply State.stackLost_keeps
        | with_reducible apply State.homeGone_keeps
        | with_reducible apply State.sweepSleep_keeps
  clear_value s5
  have h6 : R s6 := State.dieWipe_keeps hR.sub _ _ h5
  clear_value s6 again
  have h7 : R s7 := State.setDieRt_keeps hR.sub _ _ _ h6
  clear_value s7
  have h8 : R s8 := by
    refine State.capacityLost_keeps hR.sub _ _ ?_
    repeat' first
    | with_reducible assumption
    | exact hR.sub
    | with_reducible refine hR.wr _ _ _ (by decide +kernel) (by decide +kernel) ?_
    | fail_if_no_progress (with_reducible apply hR.upd; all_goals try first | exact .inl (by decide +kernel) | with_reducible exact .inr rfl | exact id)
  clear_value s8
  refine rel_ite ?_ h8
  exact State.healthUpdate_keeps hR.sub _ _ _ (hR.wr _ _ _ (by decide +kernel) (by decide +kernel) h8)

theorem execDieLost_keeps {R : State → Prop} (hR : Keeps partsDieLost fieldsDieLost R) (n : Fin 8) (cause : Fin 4) (powered : Bool) (s : State)
    (hI : R s) {tT : State} (eE : execDieLost n cause powered s = .next tT) : R tT := by
  unfold execDieLost at eE
  try dsimp only at eE
  repeat' split at eE
  all_goals try (injection eE with eE; subst eE)
  all_goals repeat' first
    | with_reducible assumption
    | exact hR.sub
    | with_reducible apply rel_ite
    | with_reducible apply State.dieLost_keeps
    | with_reducible apply State.dirNext_keeps
    | with_reducible apply State.flashMessage_keeps
    | with_reducible apply State.message_keeps
    | with_reducible apply State.nextReset_keeps
    | with_reducible apply State.packageReset_keeps
    | with_reducible apply State.powerOn_keeps
    | with_reducible apply State.reach_keeps
    | dsimp only
    | intro _ _
    | intro _
    | contradiction
    | (unfold id)
    | split
    | (rename_i hh; injection hh with hh; subst hh)
    | (rename_i hh; split at hh)

theorem execDieClockLost_keeps {R : State → Prop} (hR : Keeps partsDieClockLost fieldsDieClockLost R) (n : Fin 8) (flushed : Bool) (s : State)
    (hI : R s) {tT : State} (eE : execDieClockLost n flushed s = .next tT) : R tT := by
  unfold execDieClockLost at eE
  try dsimp only at eE
  repeat' split at eE
  all_goals try (injection eE with eE; subst eE)
  all_goals repeat' first
    | with_reducible assumption
    | exact hR.sub
    | exact fun h => memWf_memStore h
    | exact fun h => memWf_memPut h
    | exact fun h => memWf_filter _ h
    | exact fun _ => rfl
    | with_reducible apply rel_ite
    | with_reducible refine hR.wr _ _ _ (by decide +kernel) (by first | decide +kernel | exact hasFld_self _ _ | exact hasFld_all _ | (simp [hasFld]; done) ) ?_
    | with_reducible apply State.bearingsPut_keeps
    | with_reducible apply State.dirNext_keeps
    | with_reducible apply State.flashMessage_keeps
    | with_reducible apply State.homeGone_keeps
    | with_reducible apply State.isolate_keeps
    | with_reducible apply State.jobsLeave_keeps
    | with_reducible apply State.message_keeps
    | with_reducible apply State.packageReset_keeps
    | with_reducible apply State.powerOn_keeps
    | with_reducible apply State.raise_keeps
    | with_reducible apply State.rcFlushAll_keeps
    | with_reducible apply State.rcLost_keeps
    | with_reducible apply State.reach_keeps
    | with_reducible apply State.resetSectors_keeps
    | with_reducible apply State.setDie_keeps
    | with_reducible apply State.spanEvents_keeps
    | with_reducible apply State.srCause_keeps
    | with_reducible apply State.srEntered_keeps
    | with_reducible apply State.stopEngines_keeps
    | with_reducible apply State.sweepSleep_keeps
    | fail_if_no_progress (with_reducible apply hR.upd; all_goals try first | exact .inl (by decide +kernel) | with_reducible exact .inr rfl | exact id)
    | dsimp only
    | intro _ _
    | intro _
    | contradiction
    | (unfold id)
    | split
    | (rename_i hh; injection hh with hh; subst hh)
    | (rename_i hh; split at hh)

theorem execDieClockRestored_keeps {R : State → Prop} (hR : Keeps partsDieClockRestored fieldsDieClockRestored R) (n : Fin 8) (s : State)
    (hI : R s) {tT : State} (eE : execDieClockRestored n s = .next tT) : R tT := by
  unfold execDieClockRestored at eE
  try dsimp only at eE
  repeat' split at eE
  all_goals try (injection eE with eE; subst eE)
  all_goals repeat' first
    | with_reducible assumption
    | exact hR.sub
    | exact hR.sub (by decide +kernel) (subFld_self _ _)
    | with_reducible apply rel_ite
    | with_reducible apply State.dieRelease_keeps
    | with_reducible apply State.dieWipe_keeps
    | with_reducible apply State.dirNext_keeps
    | with_reducible apply State.flashMessage_keeps
    | with_reducible apply State.incr_keeps
    | with_reducible apply State.message_keeps
    | with_reducible apply State.packageReset_keeps
    | with_reducible apply State.powerOn_keeps
    | with_reducible apply State.rcLost_keeps
    | with_reducible apply State.reach_keeps
    | dsimp only
    | intro _ _
    | intro _
    | contradiction
    | (unfold id)
    | split
    | (rename_i hh; injection hh with hh; subst hh)
    | (rename_i hh; split at hh)

theorem execDieAutoRestart_keeps {R : State → Prop} (hR : Keeps partsDieAutoRestart fieldsDieAutoRestart R) (n : Fin 8) (rail : Bool) (s : State)
    (hI : R s) {tT : State} (eE : execDieAutoRestart n rail s = .next tT) : R tT := by
  unfold execDieAutoRestart at eE
  try dsimp only at eE
  repeat' split at eE
  all_goals try (injection eE with eE; subst eE)
  all_goals repeat' first
    | with_reducible assumption
    | exact hR.sub
    | with_reducible apply rel_ite
    | with_reducible apply State.dieRestart_keeps
    | with_reducible apply State.dirNext_keeps
    | with_reducible apply State.flashMessage_keeps
    | with_reducible apply State.lapseTo_keeps
    | with_reducible apply State.message_keeps
    | with_reducible apply State.packageReset_keeps
    | with_reducible apply State.powerOn_keeps
    | with_reducible apply State.reach_keeps
    | dsimp only
    | intro _ _
    | intro _
    | contradiction
    | (unfold id)
    | split
    | (rename_i hh; injection hh with hh; subst hh)
    | (rename_i hh; split at hh)

theorem State.pwrRefuse_keeps {R : State → Prop} (hR : Keeps [.regs, .stewards] ⟨[.PWR_DIE_STAT_REFUSED], [], [], false⟩ R) (s : State) (w : Writer) (n cmd : Nat)
    (hI : R s) : R (State.pwrRefuse s w n cmd) := by
  unfold State.pwrRefuse
  try dsimp only
  repeat' first
    | with_reducible assumption
    | exact hR.sub
    | with_reducible apply rel_ite
    | with_reducible refine hR.wr _ _ _ (by decide +kernel) (by first | decide +kernel | exact hasFld_self _ _ | exact hasFld_all _ | (simp [hasFld]; done) ) ?_
    | with_reducible apply State.drop_keeps
    | dsimp only
    | intro _ _
    | intro _
    | contradiction
    | (unfold id)
    | split
    | (rename_i hh; injection hh with hh; subst hh)
    | (rename_i hh; split at hh)

theorem State.lanesStop_keeps {R : State → Prop} (hR : Keeps [.regs, .govs, .lane] ⟨[.CL_BND_STAT_STATE, .TR_STAT_STATE], [], [], false⟩ R) (s : State) (n : Nat)
    (hI : R s) : R (State.lanesStop s n) := by
  unfold State.lanesStop
  try dsimp only
  repeat' first
    | with_reducible assumption
    | exact hR.sub
    | exact fun h => memWf_memStore h
    | exact fun h => memWf_memPut h
    | exact fun h => memWf_filter _ h
    | exact fun _ => rfl
    | with_reducible apply rel_ite
    | with_reducible refine hR.wr _ _ _ (by decide +kernel) (by first | decide +kernel | exact hasFld_self _ _ | exact hasFld_all _ | (simp [hasFld]; done) ) ?_
    | with_reducible apply State.giveBack_keeps
    | with_reducible apply State.setLane_keeps
    | (with_reducible apply rel_foldl; intro _ _ _)
    | (with_reducible apply rel_foldl2; intro _ _ _)
    | (with_reducible apply rel_foldl3; intro _ _ _)
    | (with_reducible apply rel_foldl1; intro _ _ _)
    | fail_if_no_progress (with_reducible apply hR.upd; all_goals try first | with_reducible exact .inr rfl | exact .inl (by decide +kernel) | exact id)
    | dsimp only
    | intro _ _
    | intro _
    | contradiction
    | (unfold id)
    | split
    | (rename_i hh; injection hh with hh; subst hh)
    | (rename_i hh; split at hh)

theorem State.lanesLose_keeps {R : State → Prop} (hR : Keeps [.regs] ⟨[.CL_BND_STAT_GRID, .CL_BND_STAT_PLL_LOCK, .CL_BND_STAT_STATE, .TR_STAT_CHK_LOCK, .TR_STAT_STATE], [], [], false⟩ R) (s : State) (n : Nat)
    (hI : R s) : R (State.lanesLose s n) := by
  unfold State.lanesLose
  try dsimp only
  repeat' first
    | with_reducible assumption
    | exact hR.sub
    | with_reducible apply rel_ite
    | with_reducible refine hR.wr _ _ _ (by decide +kernel) (by first | decide +kernel | exact hasFld_self _ _ | exact hasFld_all _ | (simp [hasFld]; done) ) ?_
    | (with_reducible apply rel_foldl; intro _ _ _)
    | (with_reducible apply rel_foldl2; intro _ _ _)
    | (with_reducible apply rel_foldl3; intro _ _ _)
    | (with_reducible apply rel_foldl1; intro _ _ _)
    | dsimp only
    | intro _ _
    | intro _
    | contradiction
    | (unfold id)
    | split
    | (rename_i hh; injection hh with hh; subst hh)
    | (rename_i hh; split at hh)

def opPartsSleepBegin : List Part :=
  [.regs, .stewards, .govs, .hbm, .poison, .rcLines, .rcWb, .sf, .seals, .hbmPc, .stack, .rtq, .ni, .bearings, .crossIn,
    .lane, .dieRt, .hold]
def opFieldsSleepBegin : FSet :=
  ⟨[.CL_BND_STAT_STATE, .HA_STAT_SF_LEVEL, .HBM_STAT_STATE, .NOC_NI_ALT_CNT_COUNT, .NOC_NI_BOUNCE_CNT_COUNT,
    .NOC_NI_ERR_CODE, .NOC_NI_ERR_DEST, .NOC_NI_ERR_VALID, .NOC_NI_FAIL_CNT_COUNT, .PWR_DIE_STAT_BUSY, .RC_WB_CNT_COUNT,
    .SEAL_STAT_KIND, .SEAL_STAT_PERMIT_WAIT, .SEAL_STAT_QUEUE, .SEAL_STAT_RANGE, .TR_STAT_STATE], [], [], false⟩

theorem State.sleepBegin_keeps {R : State → Prop} (hR : Keeps opPartsSleepBegin opFieldsSleepBegin R) (s : State) (n p : Nat)
    (hI : R s) : R (State.sleepBegin s n p) := by
  unfold State.sleepBegin
  try dsimp only
  repeat' first
    | with_reducible assumption
    | exact hR.sub
    | exact fun h => memWf_memStore h
    | exact fun h => memWf_memPut h
    | exact fun h => memWf_filter _ h
    | exact fun _ => rfl
    | with_reducible apply rel_ite
    | with_reducible refine hR.wr _ _ _ (by decide +kernel) (by first | decide +kernel | exact hasFld_self _ _ | exact hasFld_all _ | (simp [hasFld]; done) ) ?_
    | with_reducible apply State.bearingsPut_keeps
    | with_reducible apply State.flushOut_keeps
    | with_reducible apply State.isolate_keeps
    | with_reducible apply State.lanesStop_keeps
    | with_reducible apply State.setDieRt_keeps
    | fail_if_no_progress (with_reducible apply hR.upd; all_goals try first | with_reducible exact .inr rfl | exact .inl (by decide +kernel) | exact id)
    | dsimp only
    | intro _ _
    | intro _
    | contradiction
    | (unfold id)
    | split
    | (rename_i hh; injection hh with hh; subst hh)
    | (rename_i hh; split at hh)

def opPartsSleepCmd : List Part :=
  [.regs, .stewards, .govs, .hbm, .poison, .rcLines, .rcWb, .sf, .seals, .hbmPc, .stack, .rtq, .ni, .bearings, .crossIn,
    .lane, .dieRt, .hold, .rstUnlock]
def opFieldsSleepCmd : FSet :=
  ⟨[.CL_BND_STAT_STATE, .HA_STAT_SF_LEVEL, .HBM_STAT_STATE, .NOC_NI_ALT_CNT_COUNT, .NOC_NI_BOUNCE_CNT_COUNT,
    .NOC_NI_ERR_CODE, .NOC_NI_ERR_DEST, .NOC_NI_ERR_VALID, .NOC_NI_FAIL_CNT_COUNT, .PWR_DIE_STAT_BUSY,
    .PWR_DIE_STAT_REFUSED, .RC_WB_CNT_COUNT, .SEAL_STAT_KIND, .SEAL_STAT_PERMIT_WAIT, .SEAL_STAT_QUEUE,
    .SEAL_STAT_RANGE, .TR_STAT_STATE], [], [], false⟩

theorem State.sleepCmd_keeps {R : State → Prop} (hR : Keeps opPartsSleepCmd opFieldsSleepCmd R) (s : State) (w : Writer) (n p : Nat)
    (hI : R s) : R (State.sleepCmd s w n p) := by
  unfold State.sleepCmd
  try dsimp only
  repeat' first
    | with_reducible assumption
    | exact hR.sub
    | with_reducible apply rel_ite
    | with_reducible apply State.pwrRefuse_keeps
    | with_reducible apply State.reach_keeps
    | with_reducible apply State.sleepBegin_keeps
    | dsimp only
    | intro _ _
    | intro _
    | contradiction
    | (unfold id)
    | split
    | (rename_i hh; injection hh with hh; subst hh)
    | (rename_i hh; split at hh)

theorem execPwrEnterP1_keeps {R : State → Prop} (hR : Keeps partsPwrEnterP1 fieldsPwrEnterP1 R) (w : Writer) (n : Fin 8) (s : State)
    (hI : R s) {tT : State} (eE : execPwrEnterP1 w n s = .next tT) : R tT := by
  unfold execPwrEnterP1 at eE
  try dsimp only at eE
  repeat' split at eE
  all_goals try (injection eE with eE; subst eE)
  all_goals repeat' first
    | with_reducible assumption
    | exact hR.sub
    | with_reducible apply rel_ite
    | with_reducible apply State.dirNext_keeps
    | with_reducible apply State.flashMessage_keeps
    | with_reducible apply State.message_keeps
    | with_reducible apply State.packageReset_keeps
    | with_reducible apply State.powerOn_keeps
    | with_reducible apply State.reach_keeps
    | with_reducible apply State.sleepCmd_keeps
    | dsimp only
    | intro _ _
    | intro _
    | contradiction
    | (unfold id)
    | split
    | (rename_i hh; injection hh with hh; subst hh)
    | (rename_i hh; split at hh)

theorem execPwrEnterP2_keeps {R : State → Prop} (hR : Keeps partsPwrEnterP2 fieldsPwrEnterP2 R) (w : Writer) (n : Fin 8) (s : State)
    (hI : R s) {tT : State} (eE : execPwrEnterP2 w n s = .next tT) : R tT := by
  unfold execPwrEnterP2 at eE
  try dsimp only at eE
  repeat' split at eE
  all_goals try (injection eE with eE; subst eE)
  all_goals repeat' first
    | with_reducible assumption
    | exact hR.sub
    | with_reducible apply rel_ite
    | with_reducible apply State.dirNext_keeps
    | with_reducible apply State.flashMessage_keeps
    | with_reducible apply State.message_keeps
    | with_reducible apply State.packageReset_keeps
    | with_reducible apply State.powerOn_keeps
    | with_reducible apply State.reach_keeps
    | with_reducible apply State.sleepCmd_keeps
    | dsimp only
    | intro _ _
    | intro _
    | contradiction
    | (unfold id)
    | split
    | (rename_i hh; injection hh with hh; subst hh)
    | (rename_i hh; split at hh)

theorem execPwrEnterP3_keeps {R : State → Prop} (hR : Keeps partsPwrEnterP3 fieldsPwrEnterP3 R) (w : Writer) (n : Fin 8) (s : State)
    (hI : R s) {tT : State} (eE : execPwrEnterP3 w n s = .next tT) : R tT := by
  unfold execPwrEnterP3 at eE
  try dsimp only at eE
  repeat' split at eE
  all_goals try (injection eE with eE; subst eE)
  all_goals repeat' first
    | with_reducible assumption
    | exact hR.sub
    | with_reducible apply rel_ite
    | with_reducible apply State.dirNext_keeps
    | with_reducible apply State.flashMessage_keeps
    | with_reducible apply State.message_keeps
    | with_reducible apply State.packageReset_keeps
    | with_reducible apply State.powerOn_keeps
    | with_reducible apply State.reach_keeps
    | with_reducible apply State.sleepCmd_keeps
    | dsimp only
    | intro _ _
    | intro _
    | contradiction
    | (unfold id)
    | split
    | (rename_i hh; injection hh with hh; subst hh)
    | (rename_i hh; split at hh)

theorem State.fusesRead_keeps {R : State → Prop} (hR : Keeps [.regs] ⟨[.HUB_DIE_STATE_KIND, .HUB_DIE_STATE_POS, .HUB_DIE_STATE_PRESENT], [], [], false⟩ R) (s : State) (n : Nat) (fuse : Fin 8 × BitVec 2)
    (hI : R s) : R (State.fusesRead s n fuse) := by
  unfold State.fusesRead
  try dsimp only
  repeat' first
    | with_reducible assumption
    | exact hR.sub
    | with_reducible apply rel_ite
    | with_reducible refine hR.wr _ _ _ (by decide +kernel) (by first | decide +kernel | exact hasFld_self _ _ | exact hasFld_all _ | (simp [hasFld]; done) ) ?_
    | dsimp only
    | intro _ _
    | intro _
    | contradiction
    | (unfold id)
    | split
    | (rename_i hh; injection hh with hh; subst hh)
    | (rename_i hh; split at hh)

def opFieldsColdStart : FSet :=
  ⟨[.HELM_IC_PEND_BITS, .HUB_DIE_STATE_KIND, .HUB_DIE_STATE_POS, .HUB_DIE_STATE_PRESENT, .HUB_DIE_STATE_STATE,
    .PWR_DIE_STAT_BUSY, .PWR_DIE_STAT_DOMAINS, .RST_DIE_STAT_START_ERR], [], [], false⟩

theorem State.coldStart_keeps {R : State → Prop} (hR : Keeps [.regs, .stewards, .dieRt, .relq] opFieldsColdStart R) (s : State) (n : Nat) (fuse : Fin 8 × BitVec 2)
    (hI : R s) : R (State.coldStart s n fuse) := by
  unfold State.coldStart
  try dsimp only
  repeat' first
    | with_reducible assumption
    | exact hR.sub
    | exact fun h => memWf_memStore h
    | exact fun h => memWf_memPut h
    | exact fun h => memWf_filter _ h
    | exact fun _ => rfl
    | with_reducible apply rel_ite
    | with_reducible refine hR.wr _ _ _ (by decide +kernel) (by first | decide +kernel | exact hasFld_self _ _ | exact hasFld_all _ | (simp [hasFld]; done) ) ?_
    | with_reducible apply State.fusesRead_keeps
    | with_reducible apply State.setDie_keeps
    | with_reducible apply State.setDieRt_keeps
    | fail_if_no_progress (with_reducible apply hR.upd; all_goals try first | with_reducible exact .inr rfl | exact .inl (by decide +kernel) | exact id)
    | dsimp only
    | intro _ _
    | intro _
    | contradiction
    | (unfold id)
    | split
    | (rename_i hh; injection hh with hh; subst hh)
    | (rename_i hh; split at hh)

theorem State.resumeTimeouts_keeps {R : State → Prop} (hR : Keeps [.regs, .stewards, .govs, .dieRt] ⟨[.PWR_DIE_STAT_REFUSED], [], [], false⟩ R) (s : State) (n : Nat)
    (hI : R s) : R (State.resumeTimeouts s n) := by
  unfold State.resumeTimeouts
  try dsimp only
  repeat' first
    | with_reducible assumption
    | exact hR.sub
    | exact fun h => memWf_memStore h
    | exact fun h => memWf_memPut h
    | exact fun h => memWf_filter _ h
    | exact fun _ => rfl
    | with_reducible apply rel_ite
    | with_reducible refine hR.wr _ _ _ (by decide +kernel) (by first | decide +kernel | exact hasFld_self _ _ | exact hasFld_all _ | (simp [hasFld]; done) ) ?_
    | with_reducible apply State.giveBack_keeps
    | with_reducible apply State.raise_keeps
    | with_reducible apply State.setDieRt_keeps
    | fail_if_no_progress (with_reducible apply hR.upd; all_goals try first | with_reducible exact .inr rfl | exact .inl (by decide +kernel) | exact id)
    | dsimp only
    | intro _ _
    | intro _
    | contradiction
    | (unfold id)
    | split
    | (rename_i hh; injection hh with hh; subst hh)
    | (rename_i hh; split at hh)

theorem execPwrReturnP0_keeps {R : State → Prop} (hR : Keeps partsPwrReturnP0 fieldsPwrReturnP0 R) (w : Writer) (n : Fin 8) (rail : Bool) (fuse : Fin 8 × BitVec 2) (s : State)
    (hI : R s) {tT : State} (eE : execPwrReturnP0 w n rail fuse s = .next tT) : R tT := by
  unfold execPwrReturnP0 at eE
  try dsimp only at eE
  repeat' split at eE
  all_goals try (injection eE with eE; subst eE)
  all_goals repeat' first
    | with_reducible assumption
    | exact hR.sub
    | exact fun h => memWf_memStore h
    | exact fun h => memWf_memPut h
    | exact fun h => memWf_filter _ h
    | exact fun _ => rfl
    | with_reducible apply rel_ite
    | with_reducible refine hR.wr _ _ _ (by decide +kernel) (by first | decide +kernel | exact hasFld_self _ _ | exact hasFld_all _ | (simp [hasFld]; done) ) ?_
    | with_reducible apply State.coldStart_keeps
    | with_reducible apply State.dirNext_keeps
    | with_reducible apply State.flashMessage_keeps
    | with_reducible apply State.message_keeps
    | with_reducible apply State.packageReset_keeps
    | with_reducible apply State.powerOn_keeps
    | with_reducible apply State.pwrRefuse_keeps
    | with_reducible apply State.raise_keeps
    | with_reducible apply State.reach_keeps
    | with_reducible apply State.request_keeps
    | with_reducible apply State.resumeTimeouts_keeps
    | with_reducible apply State.setDieRt_keeps
    | fail_if_no_progress (with_reducible apply hR.upd; all_goals try first | with_reducible exact .inr rfl | exact .inl (by decide +kernel) | exact id)
    | dsimp only
    | intro _ _
    | intro _
    | contradiction
    | (unfold id)
    | split
    | (rename_i hh; injection hh with hh; subst hh)
    | (rename_i hh; split at hh)

theorem State.resumeGo_keeps {R : State → Prop} (hR : Keeps [.regs, .dieRt] ⟨[.PWR_DIE_STAT_BUSY], [], [], false⟩ R) (s : State) (n : Nat)
    (hI : R s) : R (State.resumeGo s n) := by
  unfold State.resumeGo
  try dsimp only
  repeat' first
    | with_reducible assumption
    | exact hR.sub
    | exact fun h => memWf_memStore h
    | exact fun h => memWf_memPut h
    | exact fun h => memWf_filter _ h
    | exact fun _ => rfl
    | with_reducible apply rel_ite
    | with_reducible refine hR.wr _ _ _ (by decide +kernel) (by first | decide +kernel | exact hasFld_self _ _ | exact hasFld_all _ | (simp [hasFld]; done) ) ?_
    | with_reducible apply State.setDieRt_keeps
    | fail_if_no_progress (with_reducible apply hR.upd; all_goals try first | with_reducible exact .inr rfl | exact .inl (by decide +kernel) | exact id)
    | dsimp only
    | intro _ _
    | intro _
    | contradiction
    | (unfold id)
    | split
    | (rename_i hh; injection hh with hh; subst hh)
    | (rename_i hh; split at hh)

theorem State.sectorsGate_keeps {R : State → Prop} (hR : Keeps [.sec] ⟨[], [], [], false⟩ R) (s : State) (n : Nat) (g : Bool)
    (hI : R s) : R (State.sectorsGate s n g) := by
  unfold State.sectorsGate
  try dsimp only
  repeat' first
    | with_reducible assumption
    | exact hR.sub
    | exact fun h => memWf_memStore h
    | exact fun h => memWf_memPut h
    | exact fun h => memWf_filter _ h
    | exact fun _ => rfl
    | with_reducible apply rel_ite
    | with_reducible apply State.setSector_keeps
    | (with_reducible apply rel_foldl; intro _ _ _)
    | (with_reducible apply rel_foldl2; intro _ _ _)
    | (with_reducible apply rel_foldl3; intro _ _ _)
    | (with_reducible apply rel_foldl1; intro _ _ _)
    | fail_if_no_progress (with_reducible apply hR.upd; all_goals try first | with_reducible exact .inr rfl | exact .inl (by decide +kernel) | exact id)
    | dsimp only
    | intro _ _
    | intro _
    | contradiction
    | (unfold id)
    | split
    | (rename_i hh; injection hh with hh; subst hh)
    | (rename_i hh; split at hh)

def opPartsBackToP0 : List Part := [.regs, .stewards, .govs, .sec, .stack, .bearings, .gkLink, .lane, .dieRt]
def opFieldsBackToP0 : FSet :=
  ⟨[.CL_BND_STAT_STATE, .PG_ERR_OP, .PG_ERR_OVERSIZE, .PG_ERR_UNITS, .PG_ERR_VALID, .PG_TO_CNT_COUNT, .TR_STAT_STATE],
    [], [], false⟩

theorem State.backToP0_keeps {R : State → Prop} (hR : Keeps opPartsBackToP0 opFieldsBackToP0 R) (s : State) (n p : Nat)
    (hI : R s) : R (State.backToP0 s n p) := by
  unfold State.backToP0
  try dsimp only
  repeat' first
    | with_reducible assumption
    | exact hR.sub
    | exact fun h => memWf_memStore h
    | exact fun h => memWf_memPut h
    | exact fun h => memWf_filter _ h
    | exact fun _ => rfl
    | with_reducible apply rel_ite
    | with_reducible refine hR.wr _ _ _ (by decide +kernel) (by first | decide +kernel | exact hasFld_self _ _ | exact hasFld_all _ | (simp [hasFld]; done) ) ?_
    | with_reducible apply State.askAdapt_keeps
    | with_reducible apply State.askLink_keeps
    | with_reducible apply State.askTraining_keeps
    | with_reducible apply State.bearingsPut_keeps
    | with_reducible apply State.genStart_keeps
    | with_reducible apply State.request_keeps
    | with_reducible apply State.sectorsGate_keeps
    | with_reducible apply State.setDieRt_keeps
    | (with_reducible apply rel_foldl; intro _ _ _)
    | (with_reducible apply rel_foldl2; intro _ _ _)
    | (with_reducible apply rel_foldl3; intro _ _ _)
    | (with_reducible apply rel_foldl1; intro _ _ _)
    | fail_if_no_progress (with_reducible apply hR.upd; all_goals try first | with_reducible exact .inr rfl | exact .inl (by decide +kernel) | exact id)
    | dsimp only
    | intro _ _
    | intro _
    | contradiction
    | (unfold id)
    | split
    | (rename_i hh; injection hh with hh; subst hh)
    | (rename_i hh; split at hh)

theorem execPwrTransitionDone_keeps {R : State → Prop} (hR : Keeps partsPwrTransitionDone fieldsPwrTransitionDone R) (n : Fin 8) (s : State)
    (hI : R s) {tT : State} (eE : execPwrTransitionDone n s = .next tT) : R tT := by
  unfold execPwrTransitionDone at eE
  try dsimp only at eE
  repeat' split at eE
  all_goals try (injection eE with eE; subst eE)
  all_goals repeat' first
    | with_reducible assumption
    | exact hR.sub
    | exact fun h => memWf_memStore h
    | exact fun h => memWf_memPut h
    | exact fun h => memWf_filter _ h
    | exact fun _ => rfl
    | with_reducible apply rel_ite
    | with_reducible refine hR.wr _ _ _ (by decide +kernel) (by first | decide +kernel | exact hasFld_self _ _ | exact hasFld_all _ | (simp [hasFld]; done) ) ?_
    | with_reducible apply State.backToP0_keeps
    | with_reducible apply State.dieWipe_keeps
    | with_reducible apply State.dirNext_keeps
    | with_reducible apply State.flashMessage_keeps
    | with_reducible apply State.lanesLose_keeps
    | with_reducible apply State.linkDown_keeps
    | with_reducible apply State.message_keeps
    | with_reducible apply State.packageReset_keeps
    | with_reducible apply State.powerOn_keeps
    | with_reducible apply State.reach_keeps
    | with_reducible apply State.resetSectors_keeps
    | with_reducible apply State.sectorsGate_keeps
    | with_reducible apply State.setDie_keeps
    | with_reducible apply State.setDieRt_keeps
    | with_reducible apply State.setSteward_keeps
    | with_reducible apply State.stackLost_keeps
    | (with_reducible apply rel_foldl; intro _ _ _)
    | (with_reducible apply rel_foldl2; intro _ _ _)
    | (with_reducible apply rel_foldl3; intro _ _ _)
    | (with_reducible apply rel_foldl1; intro _ _ _)
    | fail_if_no_progress (with_reducible apply hR.upd; all_goals try first | with_reducible exact .inr rfl | exact .inl (by decide +kernel) | exact id)
    | dsimp only
    | intro _ _
    | intro _
    | contradiction
    | (unfold id)
    | split
    | (rename_i hh; injection hh with hh; subst hh)
    | (rename_i hh; split at hh)

theorem State.convTimeouts_keeps {R : State → Prop} (hR : Keeps [.govs] ⟨[], [], [], false⟩ R) (s : State) (n : Nat)
    (hI : R s) : R (State.convTimeouts s n) := by
  unfold State.convTimeouts
  try dsimp only
  repeat' first
    | with_reducible assumption
    | exact hR.sub
    | with_reducible apply rel_ite
    | with_reducible apply State.giveBack_keeps
    | (with_reducible apply rel_foldl; intro _ _ _)
    | (with_reducible apply rel_foldl2; intro _ _ _)
    | (with_reducible apply rel_foldl3; intro _ _ _)
    | (with_reducible apply rel_foldl1; intro _ _ _)
    | dsimp only
    | intro _ _
    | intro _
    | contradiction
    | (unfold id)
    | split
    | (rename_i hh; injection hh with hh; subst hh)
    | (rename_i hh; split at hh)

def opPartsFallout : List Part := [.regs, .stewards, .govs, .stack, .qps, .cfgWait, .cfgLoad, .fvs, .dieRt]
def opFieldsFallout : FSet :=
  ⟨[.BOOT_STAT_CFG, .BOOT_STAT_CFG_STATUS, .CFG_ERR_CODE, .CFG_ERR_FAR_FAR, .CFG_ERR_SECTOR, .CFG_ERR_VALID,
    .FSYN_CTL_PERMIT_WAIT, .FVS_STAT_BUSY, .FVS_STAT_FAIL, .HELM_CORE_STAT_PERMIT_TO, .HELM_CORE_STAT_STATE,
    .HIF_QP_DONE_CNT_COUNT, .HIF_QP_STAT_STATE, .PWR_DIE_STAT_REFUSED, .SEC_CTL_RESET, .SEC_STATUS_PERMIT_WAIT], [], [],
    false⟩

theorem State.fallout_keeps {R : State → Prop} (hR : Keeps opPartsFallout opFieldsFallout R) (s : State)
    (hI : R s) : R (State.fallout s) := by
  unfold State.fallout
  try dsimp only
  repeat' first
    | with_reducible assumption
    | exact hR.sub
    | exact fun h => memWf_memStore h
    | exact fun h => memWf_memPut h
    | exact fun h => memWf_filter _ h
    | exact fun _ => rfl
    | with_reducible apply rel_ite
    | with_reducible apply State.cfgTimeouts_keeps
    | with_reducible apply State.convTimeouts_keeps
    | with_reducible apply State.helmTimeouts_keeps
    | with_reducible apply State.resumeTimeouts_keeps
    | with_reducible apply State.riseTimeouts_keeps
    | with_reducible apply State.setGov_keeps
    | with_reducible apply State.srExitTimeout_keeps
    | (with_reducible apply rel_foldl; intro _ _ _)
    | (with_reducible apply rel_foldl2; intro _ _ _)
    | (with_reducible apply rel_foldl3; intro _ _ _)
    | (with_reducible apply rel_foldl1; intro _ _ _)
    | fail_if_no_progress (with_reducible apply hR.upd; all_goals try first | with_reducible exact .inr rfl | exact .inl (by decide +kernel) | exact id)
    | dsimp only
    | intro _ _
    | intro _
    | contradiction
    | (unfold id)
    | split
    | (rename_i hh; injection hh with hh; subst hh)
    | (rename_i hh; split at hh)

theorem execPermitRequest_keeps {R : State → Prop} (hR : Keeps partsPermitRequest fieldsPermitRequest R) (p : Fin 2) (s : State)
    (hI : R s) {tT : State} (eE : execPermitRequest p s = .next tT) : R tT := by
  unfold execPermitRequest at eE
  try dsimp only at eE
  repeat' split at eE
  all_goals try (injection eE with eE; subst eE)
  all_goals repeat' first
    | with_reducible assumption
    | exact hR.sub
    | with_reducible apply rel_ite
    | with_reducible apply State.dirNext_keeps
    | with_reducible apply State.fallout_keeps
    | with_reducible apply State.flashMessage_keeps
    | with_reducible apply State.message_keeps
    | with_reducible apply State.packageReset_keeps
    | with_reducible apply State.powerOn_keeps
    | with_reducible apply State.reach_keeps
    | with_reducible apply State.request_keeps
    | dsimp only
    | intro _ _
    | intro _
    | contradiction
    | (unfold id)
    | split
    | (rename_i hh; injection hh with hh; subst hh)
    | (rename_i hh; split at hh)

theorem execPermitGrant_keeps {R : State → Prop} (hR : Keeps partsPermitGrant fieldsPermitGrant R) (g : Fin 13) (s : State)
    (hI : R s) {tT : State} (eE : execPermitGrant g s = .next tT) : R tT := by
  have key : ∀ s2 : State, R s2 → (if g.val < 8 ∧ (s2.gov g).ready.any (·.is 16 [g.val]) then
      match s2.takeGrant g 16 [g.val] with
      | some s => (.next (s.resumeGo g) : Ans)
      | none => .next s2
      else .next s2) = .next tT → R tT := by
    intro s2 h2 e
    split at e
    · split at e
      · injection e with e; subst e
        exact State.resumeGo_keeps hR.sub _ _ (State.takeGrant_keeps hR.sub _ _ _ _ h2 (by assumption))
      · injection e with e; subst e; exact h2
    · injection e with e; subst e; exact h2
  refine key _ (rel_foldl (fun s p h => ?_) _ (State.grantHead_keeps hR.sub s g hI)) eE
  refine rel_ite ?_ h
  split
  · rename_i s3 e3
    have h4 := State.takeGrant_keeps hR.sub _ _ _ _ h e3
    apply hR.upd <;> first | assumption | exact .inl (by decide +kernel) | with_reducible exact .inr rfl | exact id
  · exact h

theorem execPermitReturn_keeps {R : State → Prop} (hR : Keeps partsPermitReturn fieldsPermitReturn R) (g : Fin 13) (op : Fin 32) (s : State)
    (hI : R s) {tT : State} (eE : execPermitReturn g op s = .next tT) : R tT := by
  unfold execPermitReturn at eE
  try dsimp only at eE
  repeat' split at eE
  all_goals try (injection eE with eE; subst eE)
  all_goals repeat' first
    | with_reducible assumption
    | exact hR.sub
    | exact fun h => memWf_memStore h
    | exact fun h => memWf_memPut h
    | exact fun h => memWf_filter _ h
    | exact fun _ => rfl
    | with_reducible apply rel_ite
    | with_reducible apply State.dirNext_keeps
    | with_reducible apply State.flashMessage_keeps
    | with_reducible apply State.message_keeps
    | with_reducible apply State.packageReset_keeps
    | with_reducible apply State.powerOn_keeps
    | with_reducible apply State.reach_keeps
    | with_reducible apply State.setGov_keeps
    | fail_if_no_progress (with_reducible apply hR.upd; all_goals try first | with_reducible exact .inr rfl | exact .inl (by decide +kernel) | exact id)
    | dsimp only
    | intro _ _
    | intro _
    | contradiction
    | (unfold id)
    | split
    | (rename_i hh; injection hh with hh; subst hh)
    | (rename_i hh; split at hh)

theorem execStepPermitReturn_keeps {R : State → Prop} (hR : Keeps partsStepPermitReturn fieldsStepPermitReturn R) (g : Fin 13) (s : State)
    (hI : R s) {tT : State} (eE : execStepPermitReturn g s = .next tT) : R tT := by
  unfold execStepPermitReturn at eE
  try dsimp only at eE
  repeat' split at eE
  all_goals try (injection eE with eE; subst eE)
  all_goals repeat' first
    | with_reducible assumption
    | exact hR.sub
    | exact fun h => memWf_memStore h
    | exact fun h => memWf_memPut h
    | exact fun h => memWf_filter _ h
    | exact fun _ => rfl
    | with_reducible apply rel_ite
    | with_reducible apply State.dirNext_keeps
    | with_reducible apply State.flashMessage_keeps
    | with_reducible apply State.lapseTo_keeps
    | with_reducible apply State.message_keeps
    | with_reducible apply State.packageReset_keeps
    | with_reducible apply State.powerOn_keeps
    | with_reducible apply State.reach_keeps
    | with_reducible apply State.setGov_keeps
    | fail_if_no_progress (with_reducible apply hR.upd; all_goals try first | with_reducible exact .inr rfl | exact .inl (by decide +kernel) | exact id)
    | dsimp only
    | intro _ _
    | intro _
    | contradiction
    | (unfold id)
    | split
    | (rename_i hh; injection hh with hh; subst hh)
    | (rename_i hh; split at hh)

theorem execPermitTimeout_keeps {R : State → Prop} (hR : Keeps partsPermitTimeout fieldsPermitTimeout R) (g : Fin 13) (s : State)
    (hI : R s) {tT : State} (eE : execPermitTimeout g s = .next tT) : R tT := by
  unfold execPermitTimeout at eE
  try dsimp only at eE
  repeat' split at eE
  all_goals try (injection eE with eE; subst eE)
  all_goals repeat' first
    | with_reducible assumption
    | exact hR.sub
    | exact fun h => memWf_memStore h
    | exact fun h => memWf_memPut h
    | exact fun h => memWf_filter _ h
    | exact fun _ => rfl
    | with_reducible apply rel_ite
    | with_reducible apply State.dirNext_keeps
    | with_reducible apply State.expire_keeps
    | with_reducible apply State.fallout_keeps
    | with_reducible apply State.flashMessage_keeps
    | with_reducible apply State.lapseTo_keeps
    | with_reducible apply State.message_keeps
    | with_reducible apply State.packageReset_keeps
    | with_reducible apply State.powerOn_keeps
    | with_reducible apply State.reach_keeps
    | with_reducible apply State.setGov_keeps
    | (with_reducible apply rel_foldl; intro _ _ _)
    | (with_reducible apply rel_foldl2; intro _ _ _)
    | (with_reducible apply rel_foldl3; intro _ _ _)
    | (with_reducible apply rel_foldl1; intro _ _ _)
    | fail_if_no_progress (with_reducible apply hR.upd; all_goals try first | with_reducible exact .inr rfl | exact .inl (by decide +kernel) | exact id)
    | dsimp only
    | intro _ _
    | intro _
    | contradiction
    | (unfold id)
    | split
    | (rename_i hh; injection hh with hh; subst hh)
    | (rename_i hh; split at hh)

end Sys2Proof.Machine
end

