-- ==== Sys2Proof/Laws/KeepsBoot.lean ====
section
/-! SUPPORT. What the operations of `Machine/Boot.lean` may change and what they keep. -/

namespace Sys2Proof.Machine

set_option Elab.async false
set_option linter.all false

theorem State.healthAgain_keeps {R : State → Prop} (hR : Keeps [.regs, .health] ⟨[.MGMT_HEALTH_STAGE], [], [], false⟩ R) (s : State)
    (hI : R s) : R (State.healthAgain s) := by
  unfold State.healthAgain
  try dsimp only
  repeat' first
    | with_reducible assumption
    | exact hR.sub
    | with_reducible apply rel_ite
    | with_reducible apply State.healthUpdate_keeps
    | (with_reducible apply rel_foldl; intro _ _ _)
    | (with_reducible apply rel_foldl2; intro _ _ _)
    | (with_reducible apply rel_foldl3; intro _ _ _)
    | (with_reducible apply rel_foldl1; intro _ _ _)
    | dsimp only
    | intro _ _
    | intro _
    | contradiction
    | (unfold id)
    | split
    | (rename_i hh; injection hh with hh; subst hh)
    | (rename_i hh; split at hh)

def opPartsBare : List Part :=
  (.now :: .local_ :: .clocksUp :: .regs :: .answer :: .out :: .draws :: .stewards :: .evlog :: .jtodo :: .journal ::
    .health :: .repairs :: .govs :: .sec :: .tree :: .fab :: .eng :: .fixq :: .bcasts :: .hbm :: .poison :: .win ::
    .flash :: .rcLines :: .rcMiss :: .rcWb :: .sf :: .sfAge :: .haIn :: .haTx :: .homeOut :: .rcLossT :: .seals ::
    .leafMaj :: .leafMin :: .innerC :: .ccache :: .hwm :: .lostN :: .reenc :: .ccT :: .keys :: .keyOp :: .sessions ::
    .lastSes :: .hbmPort :: .hbmPc :: .stack :: .arbs :: .rtq :: .ni :: .bearings :: .rtPend :: .drainT :: .gkLink ::
    .gkDir :: .gkPool :: .crossIn :: .lane :: .trunk :: .bundle :: .hubDown :: .rebaseDue :: .qps :: .rot :: .vecs ::
    .mail :: .pcie :: .cfgWait :: .cfgLoad :: .loadN :: .cfg :: .cfgMeas :: .fwMeas :: .sxq :: .txq :: .residences ::
    .stepN :: .rxStamp :: .sxDiscard :: .sxMeas :: .ppsEnd :: .spinePull :: .anchorE :: .anchorT :: .synth :: .fvs ::
    .dieRt :: .hold :: .relq :: .rstq :: .flashMode :: .stage2T :: .auto :: .noAuto :: .warm :: .warmT :: .rstUnlock ::
    .tele :: .ioOff :: .lsFuse :: .transport :: .trngT :: .trngSaid :: .dbgWait :: .rcvN :: .flashOp :: .helm :: .helmL1
    :: .helmL2 :: .flashC :: .irqLine :: .pel :: .tap :: .scrub :: [])

theorem State.bare_keeps {R : State → Prop} (hR : Keeps opPartsBare .all R) (s : State) (keep : Fld → List Nat → Bool)
    (hI : R s) : R (State.bare s keep) := by
  unfold State.bare
  have h := hR.clear (s := s) (fun f i => !f.fused && !keep f i) (by decide +kernel) (fun _ _ _ => rfl) hI
  have e1 : s.pending = (s.clearRegs (fun f i => !f.fused && !keep f i)).pending := rfl
  have e2 : s.flash = (s.clearRegs (fun f i => !f.fused && !keep f i)).flash := rfl
  rw [e1, e2]
  generalize s.clearRegs (fun f i => !f.fused && !keep f i) = t at h ⊢
  apply hR.upd <;> first | assumption | exact .inl (by decide +kernel) | exact id | exact fun _ => rfl

def opPartsPowerOn : List Part :=
  (.now :: .local_ :: .clocksUp :: .regs :: .answer :: .out :: .draws :: .stewards :: .evlog :: .jtodo :: .journal ::
    .health :: .repairs :: .govs :: .sec :: .tree :: .fab :: .eng :: .fixq :: .bcasts :: .hbm :: .poison :: .win ::
    .flash :: .rcLines :: .rcMiss :: .rcWb :: .sf :: .sfAge :: .haIn :: .haTx :: .homeOut :: .rcLossT :: .seals ::
    .leafMaj :: .leafMin :: .innerC :: .ccache :: .hwm :: .lostN :: .reenc :: .ccT :: .keys :: .keyOp :: .sessions ::
    .lastSes :: .hbmPort :: .hbmPc :: .stack :: .arbs :: .rtq :: .ni :: .bearings :: .rtPend :: .drainT :: .gkLink ::
    .gkDir :: .gkPool :: .crossIn :: .lane :: .trunk :: .bundle :: .hubDown :: .rebaseDue :: .qps :: .rot :: .vecs ::
    .mail :: .pcie :: .cfgWait :: .cfgLoad :: .loadN :: .cfg :: .cfgMeas :: .fwMeas :: .sxq :: .txq :: .residences ::
    .stepN :: .rxStamp :: .sxDiscard :: .sxMeas :: .ppsEnd :: .spinePull :: .anchorE :: .anchorT :: .synth :: .fvs ::
    .dieRt :: .hold :: .relq :: .rstq :: .flashMode :: .stage2T :: .auto :: .noAuto :: .warm :: .warmT :: .rstUnlock ::
    .tele :: .ioOff :: .lsFuse :: .transport :: .trngT :: .trngSaid :: .dbgWait :: .rcvN :: .flashOp :: .helm :: .helmL1
    :: .helmL2 :: .flashC :: .irqLine :: .pel :: .tap :: .scrub :: [])

theorem State.powerOn_keeps {R : State → Prop} (hR : Keeps opPartsPowerOn .all R) (s : State)
    (hI : R s) : R (State.powerOn s) := by
  unfold State.powerOn
  try dsimp only
  repeat' first
    | with_reducible assumption
    | exact hR.sub
    | with_reducible apply rel_ite
    | with_reducible apply State.bare_keeps
    | with_reducible apply State.healthAgain_keeps
    | dsimp only
    | intro _ _
    | intro _
    | contradiction
    | (unfold id)
    | split
    | (rename_i hh; injection hh with hh; subst hh)
    | (rename_i hh; split at hh)

theorem execPowerOnReset_keeps {R : State → Prop} (hR : Keeps partsPowerOnReset fieldsPowerOnReset R) (s : State)
    (hI : R s) {tT : State} (eE : execPowerOnReset s = .next tT) : R tT := by
  unfold execPowerOnReset at eE
  try dsimp only at eE
  repeat' split at eE
  all_goals try (injection eE with eE; subst eE)
  all_goals repeat' first
    | with_reducible assumption
    | exact hR.sub
    | with_reducible apply rel_ite
    | with_reducible apply State.dirNext_keeps
    | with_reducible apply State.flashMessage_keeps
    | with_reducible apply State.message_keeps
    | with_reducible apply State.packageReset_keeps
    | with_reducible apply State.powerOn_keeps
    | with_reducible apply State.reach_keeps
    | dsimp only
    | intro _ _
    | intro _
    | contradiction
    | (unfold id)
    | split
    | (rename_i hh; injection hh with hh; subst hh)
    | (rename_i hh; split at hh)

theorem State.levelsUsed_keeps {R : State → Prop} (hR : Keeps [.regs] ⟨[.LS_DBG_STAT_USED], [], [], false⟩ R) (s : State)
    (hI : R s) : R (State.levelsUsed s) := by
  unfold State.levelsUsed
  try dsimp only
  repeat' first
    | with_reducible assumption
    | exact hR.sub
    | exact hR.sub (by decide +kernel) (subFld_self _ _)
    | with_reducible apply rel_ite
    | with_reducible apply State.setBit_keeps
    | (with_reducible apply rel_foldl; intro _ _ _)
    | (with_reducible apply rel_foldl2; intro _ _ _)
    | (with_reducible apply rel_foldl3; intro _ _ _)
    | (with_reducible apply rel_foldl1; intro _ _ _)
    | dsimp only
    | intro _ _
    | intro _
    | contradiction
    | (unfold id)
    | split
    | (rename_i hh; injection hh with hh; subst hh)
    | (rename_i hh; split at hh)

def opPartsPackageReset : List Part :=
  (.now :: .local_ :: .clocksUp :: .regs :: .answer :: .out :: .draws :: .stewards :: .evlog :: .jtodo :: .journal ::
    .health :: .repairs :: .govs :: .sec :: .tree :: .fab :: .eng :: .fixq :: .bcasts :: .hbm :: .poison :: .win ::
    .flash :: .rcLines :: .rcMiss :: .rcWb :: .sf :: .sfAge :: .haIn :: .haTx :: .homeOut :: .rcLossT :: .seals ::
    .leafMaj :: .leafMin :: .innerC :: .ccache :: .hwm :: .lostN :: .reenc :: .ccT :: .keys :: .keyOp :: .sessions ::
    .lastSes :: .hbmPort :: .hbmPc :: .stack :: .arbs :: .rtq :: .ni :: .bearings :: .rtPend :: .drainT :: .gkLink ::
    .gkDir :: .gkPool :: .crossIn :: .lane :: .trunk :: .bundle :: .hubDown :: .rebaseDue :: .qps :: .rot :: .vecs ::
    .mail :: .pcie :: .cfgWait :: .cfgLoad :: .loadN :: .cfg :: .cfgMeas :: .fwMeas :: .sxq :: .txq :: .residences ::
    .stepN :: .rxStamp :: .sxDiscard :: .sxMeas :: .ppsEnd :: .spinePull :: .anchorE :: .anchorT :: .synth :: .fvs ::
    .dieRt :: .hold :: .relq :: .rstq :: .flashMode :: .stage2T :: .auto :: .noAuto :: .warm :: .warmT :: .rstUnlock ::
    .tele :: .ioOff :: .lsFuse :: .transport :: .trngT :: .trngSaid :: .dbgWait :: .rcvN :: .flashOp :: .helm :: .helmL1
    :: .helmL2 :: .flashC :: .irqLine :: .pel :: .tap :: .scrub :: [])

theorem State.packageReset_keeps {R : State → Prop} (hR : Keeps opPartsPackageReset .all R) (s : State) (h : Nat)
    (hI : R s) : R (State.packageReset s h) := by
  unfold State.packageReset
  try dsimp only
  repeat' first
    | with_reducible assumption
    | exact hR.sub
    | exact fun h => memWf_memStore h
    | exact fun h => memWf_memPut h
    | exact fun h => memWf_filter _ h
    | exact fun _ => rfl
    | with_reducible apply rel_ite
    | with_reducible apply State.bare_keeps
    | with_reducible apply State.emit_keeps
    | with_reducible apply State.healthAgain_keeps
    | with_reducible apply State.levelsUsed_keeps
    | fail_if_no_progress (with_reducible apply hR.upd; all_goals try first | with_reducible exact .inr rfl | exact .inl (by decide +kernel) | exact id)
    | dsimp only
    | intro _ _
    | intro _
    | contradiction
    | (unfold id)
    | split
    | (rename_i hh; injection hh with hh; subst hh)
    | (rename_i hh; split at hh)

theorem State.cause_keeps {R : State → Prop} {f : Fld} (hR : Keeps [.regs] ⟨[f], [], [], false⟩ R) (s : State)
    (hI : R s) : R (State.cause s f) := by
  unfold State.cause
  try dsimp only
  repeat' first
    | with_reducible assumption
    | exact hR.sub
    | with_reducible apply rel_ite
    | with_reducible refine hR.wr _ _ _ (by decide +kernel) (by first | decide +kernel | exact hasFld_self _ _ | exact hasFld_all _ | (simp [hasFld]; done) ) ?_
    | dsimp only
    | intro _ _
    | intro _
    | contradiction
    | (unfold id)
    | split
    | (rename_i hh; injection hh with hh; subst hh)
    | (rename_i hh; split at hh)

theorem State.rstCmd_keeps {R : State → Prop} (hR : Keeps [.stewards, .rstUnlock] ⟨[], [], [], false⟩ R) (s : State) (w : Writer) (v : Nat) (k : State → State)
    (hI : R s) (hk : ∀  s, R s → R (k  s)) : R (State.rstCmd s w v k) := by
  unfold State.rstCmd
  try dsimp only
  repeat' first
    | with_reducible assumption
    | exact hR.sub
    | exact fun h => memWf_memStore h
    | exact fun h => memWf_memPut h
    | exact fun h => memWf_filter _ h
    | exact fun _ => rfl
    | with_reducible apply rel_ite
    | (with_reducible apply hk)
    | with_reducible apply State.drop_keeps
    | fail_if_no_progress (with_reducible apply hR.upd; all_goals try first | with_reducible exact .inr rfl | exact .inl (by decide +kernel) | exact id)
    | dsimp only
    | intro _ _
    | intro _
    | contradiction
    | (unfold id)
    | split
    | (rename_i hh; injection hh with hh; subst hh)
    | (rename_i hh; split at hh)

theorem execPackageReset_keeps {R : State → Prop} (hR : Keeps partsPackageReset fieldsPackageReset R) (t : PkgTrigger) (s : State)
    (hI : R s) {tT : State} (eE : execPackageReset t s = .next tT) : R tT := by
  unfold execPackageReset at eE
  try dsimp only at eE
  repeat' split at eE
  all_goals try (injection eE with eE; subst eE)
  all_goals repeat' first
    | with_reducible assumption
    | exact hR.sub
    | exact fun h => memWf_memStore h
    | exact fun h => memWf_memPut h
    | exact fun h => memWf_filter _ h
    | exact fun _ => rfl
    | exact hR.sub (by decide +kernel) (subFld_self _ _)
    | with_reducible apply rel_ite
    | with_reducible apply State.cause_keeps
    | with_reducible apply State.dirNext_keeps
    | with_reducible apply State.flashMessage_keeps
    | with_reducible apply State.message_keeps
    | with_reducible apply State.packageReset_keeps
    | with_reducible apply State.powerOn_keeps
    | with_reducible apply State.reach_keeps
    | with_reducible apply State.rstCmd_keeps
    | fail_if_no_progress (with_reducible apply hR.upd; all_goals try first | with_reducible exact .inr rfl | exact .inl (by decide +kernel) | exact id)
    | dsimp only
    | intro _ _
    | intro _
    | contradiction
    | (unfold id)
    | split
    | (rename_i hh; injection hh with hh; subst hh)
    | (rename_i hh; split at hh)

theorem State.leaveReset_keeps {R : State → Prop} (hR : Keeps [.out, .hold] ⟨[], [], [], false⟩ R) (s : State)
    (hI : R s) : R (State.leaveReset s) := by
  unfold State.leaveReset
  try dsimp only
  repeat' first
    | with_reducible assumption
    | exact hR.sub
    | exact fun h => memWf_memStore h
    | exact fun h => memWf_memPut h
    | exact fun h => memWf_filter _ h
    | exact fun _ => rfl
    | with_reducible apply rel_ite
    | with_reducible apply State.emit_keeps
    | fail_if_no_progress (with_reducible apply hR.upd; all_goals try first | with_reducible exact .inr rfl | exact .inl (by decide +kernel) | exact id)
    | dsimp only
    | intro _ _
    | intro _
    | contradiction
    | (unfold id)
    | split
    | (rename_i hh; injection hh with hh; subst hh)
    | (rename_i hh; split at hh)

theorem execResetRelease_keeps {R : State → Prop} (hR : Keeps partsResetRelease fieldsResetRelease R) (refSel testEn : Bool) (s : State)
    (hI : R s) {tT : State} (eE : execResetRelease refSel testEn s = .next tT) : R tT := by
  unfold execResetRelease at eE
  try dsimp only at eE
  repeat' split at eE
  all_goals try (injection eE with eE; subst eE)
  all_goals repeat' first
    | with_reducible assumption
    | exact hR.sub
    | with_reducible apply rel_ite
    | with_reducible refine hR.wr _ _ _ (by decide +kernel) (by first | decide +kernel | exact hasFld_self _ _ | exact hasFld_all _ | (simp [hasFld]; done) ) ?_
    | with_reducible apply State.dirNext_keeps
    | with_reducible apply State.flashMessage_keeps
    | with_reducible apply State.lapse_keeps
    | with_reducible apply State.leaveReset_keeps
    | with_reducible apply State.message_keeps
    | with_reducible apply State.packageReset_keeps
    | with_reducible apply State.powerOn_keeps
    | with_reducible apply State.reach_keeps
    | dsimp only
    | intro _ _
    | intro _
    | contradiction
    | (unfold id)
    | split
    | (rename_i hh; injection hh with hh; subst hh)
    | (rename_i hh; split at hh)

theorem execRstUnlock_keeps {R : State → Prop} (hR : Keeps partsRstUnlock fieldsRstUnlock R) (w : Writer) (key : BitVec 16) (s : State)
    (hI : R s) {tT : State} (eE : execRstUnlock w key s = .next tT) : R tT := by
  unfold execRstUnlock at eE
  try dsimp only at eE
  repeat' split at eE
  all_goals try (injection eE with eE; subst eE)
  all_goals repeat' first
    | with_reducible assumption
    | exact hR.sub
    | exact fun h => memWf_memStore h
    | exact fun h => memWf_memPut h
    | exact fun h => memWf_filter _ h
    | exact fun _ => rfl
    | with_reducible apply rel_ite
    | with_reducible apply State.dirNext_keeps
    | with_reducible apply State.drop_keeps
    | with_reducible apply State.flashMessage_keeps
    | with_reducible apply State.message_keeps
    | with_reducible apply State.packageReset_keeps
    | with_reducible apply State.powerOn_keeps
    | with_reducible apply State.reach_keeps
    | fail_if_no_progress (with_reducible apply hR.upd; all_goals try first | with_reducible exact .inr rfl | exact .inl (by decide +kernel) | exact id)
    | dsimp only
    | intro _ _
    | intro _
    | contradiction
    | (unfold id)
    | split
    | (rename_i hh; injection hh with hh; subst hh)
    | (rename_i hh; split at hh)

theorem State.windowsFlush_keeps {R : State → Prop} (hR : Keeps [.regs, .hbm, .poison, .rcLines, .sf] ⟨[.HA_STAT_SF_LEVEL, .RC_WB_CNT_COUNT], [], [], false⟩ R) (s : State)
    (hI : R s) : R (State.windowsFlush s) := by
  unfold State.windowsFlush
  try dsimp only
  repeat' first
    | with_reducible assumption
    | exact hR.sub
    | with_reducible apply rel_ite
    | with_reducible apply State.rcClean_keeps
    | (with_reducible apply rel_foldl; intro _ _ _)
    | (with_reducible apply rel_foldl2; intro _ _ _)
    | (with_reducible apply rel_foldl3; intro _ _ _)
    | (with_reducible apply rel_foldl1; intro _ _ _)
    | dsimp only
    | intro _ _
    | intro _
    | contradiction
    | (unfold id)
    | split
    | (rename_i hh; injection hh with hh; subst hh)
    | (rename_i hh; split at hh)

def opPartsRingsStop : List Part := [.regs, .stewards, .govs, .sec, .fab, .qps, .cfgWait, .cfgLoad, .cfg]
def opFieldsRingsStop : FSet :=
  ⟨[.BOOT_STAT_CFG, .BOOT_STAT_CFG_STATUS, .HIF_QP_DONE_CNT_COUNT, .HIF_QP_STAT_STATE, .SEC_CTL_RESET,
    .SEC_STATUS_ISOLATED, .SEC_STATUS_PERMIT_WAIT, .SEC_STATUS_RESET_HELD, .SEC_STATUS_STATE], [.sec], [], false⟩

theorem State.ringsStop_keeps {R : State → Prop} (hR : Keeps opPartsRingsStop opFieldsRingsStop R) (s : State)
    (hI : R s) : R (State.ringsStop s) := by
  unfold State.ringsStop
  try dsimp only
  repeat' first
    | with_reducible assumption
    | exact hR.sub
    | with_reducible apply rel_ite
    | with_reducible apply State.cfgFail_keeps
    | with_reducible apply State.cfgOrphan_keeps
    | (with_reducible apply rel_foldl; intro _ _ _)
    | (with_reducible apply rel_foldl2; intro _ _ _)
    | (with_reducible apply rel_foldl3; intro _ _ _)
    | (with_reducible apply rel_foldl1; intro _ _ _)
    | dsimp only
    | intro _ _
    | intro _
    | contradiction
    | (unfold id)
    | split
    | (rename_i hh; injection hh with hh; subst hh)
    | (rename_i hh; split at hh)

theorem State.releasesAgain_keeps {R : State → Prop} (hR : Keeps [.dieRt] ⟨[], [], [], false⟩ R) (s : State)
    (hI : R s) : R (State.releasesAgain s) := by
  unfold State.releasesAgain
  try dsimp only
  repeat' first
    | with_reducible assumption
    | exact hR.sub
    | exact fun h => memWf_memStore h
    | exact fun h => memWf_memPut h
    | exact fun h => memWf_filter _ h
    | exact fun _ => rfl
    | with_reducible apply rel_ite
    | with_reducible apply State.setDieRt_keeps
    | (with_reducible apply rel_foldl; intro _ _ _)
    | (with_reducible apply rel_foldl2; intro _ _ _)
    | (with_reducible apply rel_foldl3; intro _ _ _)
    | (with_reducible apply rel_foldl1; intro _ _ _)
    | fail_if_no_progress (with_reducible apply hR.upd; all_goals try first | with_reducible exact .inr rfl | exact .inl (by decide +kernel) | exact id)
    | dsimp only
    | intro _ _
    | intro _
    | contradiction
    | (unfold id)
    | split
    | (rename_i hh; injection hh with hh; subst hh)
    | (rename_i hh; split at hh)

theorem State.stage2_keeps {R : State → Prop} (hR : Keeps [.regs, .out, .flashMode, .stage2T] ⟨[.BOOT_STAT_STAGE], [], [], false⟩ R) (s : State)
    (hI : R s) : R (State.stage2 s) := by
  unfold State.stage2
  try dsimp only
  repeat' first
    | with_reducible assumption
    | exact hR.sub
    | exact fun h => memWf_memStore h
    | exact fun h => memWf_memPut h
    | exact fun h => memWf_filter _ h
    | exact fun _ => rfl
    | with_reducible apply rel_ite
    | with_reducible refine hR.wr _ _ _ (by decide +kernel) (by first | decide +kernel | exact hasFld_self _ _ | exact hasFld_all _ | (simp [hasFld]; done) ) ?_
    | with_reducible apply State.emit_keeps
    | fail_if_no_progress (with_reducible apply hR.upd; all_goals try first | with_reducible exact .inr rfl | exact .inl (by decide +kernel) | exact id)
    | dsimp only
    | intro _ _
    | intro _
    | contradiction
    | (unfold id)
    | split
    | (rename_i hh; injection hh with hh; subst hh)
    | (rename_i hh; split at hh)

def opPartsHubReset : List Part :=
  (.regs :: .out :: .stewards :: .govs :: .sec :: .fab :: .fixq :: .hbm :: .poison :: .rcLines :: .sf :: .sessions ::
    .lastSes :: .arbs :: .rtq :: .ni :: .bearings :: .rtPend :: .drainT :: .gkLink :: .gkDir :: .gkPool :: .hubDown ::
    .rebaseDue :: .qps :: .rot :: .vecs :: .mail :: .pcie :: .cfgWait :: .cfgLoad :: .cfg :: .cfgMeas :: .sxq :: .txq ::
    .residences :: .rxStamp :: .sxDiscard :: .sxMeas :: .ppsEnd :: .dieRt :: .relq :: .rstq :: .flashMode :: .stage2T ::
    .auto :: .warm :: .warmT :: .rstUnlock :: .flashOp :: .helm :: .helmL1 :: .helmL2 :: .flashC :: [])
def opFieldsHubReset : FSet :=
  ⟨[.BOOT_STAT_CFG, .BOOT_STAT_CFG_STATUS, .BOOT_STAT_STAGE, .GK_GRP_STAT_ROLE, .GK_STAT_COH, .GK_STAT_CROSS,
    .GK_STAT_NOC, .GK_STAT_NOC_DETOUR, .GK_STAT_STATE, .HA_STAT_SF_LEVEL, .HIF_QP_DONE_CNT_COUNT, .HIF_QP_STAT_STATE,
    .PWR_HUB_STAT_DOMAINS, .RC_WB_CNT_COUNT, .SEC_CTL_RESET, .SEC_STATUS_ISOLATED, .SEC_STATUS_PERMIT_WAIT,
    .SEC_STATUS_RESET_HELD, .SEC_STATUS_STATE], [.core, .die, .fn, .hub, .pkg, .sec], [], false⟩

theorem State.hubReset_keeps {R : State → Prop} (hR : Keeps opPartsHubReset opFieldsHubReset R) (s : State)
    (hI : R s) : R (State.hubReset s) := by
  unfold State.hubReset
  try dsimp only
  repeat' first
    | with_reducible assumption
    | exact hR.sub
    | exact fun h => memWf_memStore h
    | exact fun h => memWf_memPut h
    | exact fun h => memWf_filter _ h
    | exact fun _ => rfl
    | with_reducible apply rel_ite
    | with_reducible refine hR.wr _ _ _ (by decide +kernel) (by first | decide +kernel | exact hasFld_self _ _ | exact hasFld_all _ | (simp [hasFld]; done) ) ?_
    | with_reducible refine hR.clear _ (by decide +kernel) (fun _ _ h => hasFld_cls (hubClears_cls h)) ?_
    | with_reducible apply State.linkDown_keeps
    | with_reducible apply State.releasesAgain_keeps
    | with_reducible apply State.ringsStop_keeps
    | with_reducible apply State.stage2_keeps
    | with_reducible apply State.windowsFlush_keeps
    | (with_reducible apply rel_foldl; intro _ _ _)
    | (with_reducible apply rel_foldl2; intro _ _ _)
    | (with_reducible apply rel_foldl3; intro _ _ _)
    | (with_reducible apply rel_foldl1; intro _ _ _)
    | fail_if_no_progress (with_reducible apply hR.upd; all_goals try first | exact .inl (by decide +kernel) | with_reducible exact .inr rfl | exact id)
    | dsimp only
    | intro _ _
    | intro _
    | contradiction
    | (unfold id)
    | split
    | (rename_i hh; injection hh with hh; subst hh)
    | (rename_i hh; split at hh)

theorem execHubWarmReset_keeps {R : State → Prop} (hR : Keeps partsHubWarmReset fieldsHubWarmReset R) (t : HubTrigger) (s : State)
    (hI : R s) {tT : State} (eE : execHubWarmReset t s = .next tT) : R tT := by
  unfold execHubWarmReset at eE
  try dsimp only at eE
  repeat' split at eE
  all_goals try (injection eE with eE; subst eE)
  all_goals repeat' first
    | with_reducible assumption
    | exact hR.sub
    | exact fun h => memWf_memStore h
    | exact fun h => memWf_memPut h
    | exact fun h => memWf_filter _ h
    | exact fun _ => rfl
    | exact hR.sub (by decide +kernel) (subFld_self _ _)
    | with_reducible apply rel_ite
    | with_reducible apply State.cause_keeps
    | with_reducible apply State.dirNext_keeps
    | with_reducible apply State.flashMessage_keeps
    | with_reducible apply State.hubReset_keeps
    | with_reducible apply State.message_keeps
    | with_reducible apply State.packageReset_keeps
    | with_reducible apply State.powerOn_keeps
    | with_reducible apply State.reach_keeps
    | with_reducible apply State.rstCmd_keeps
    | fail_if_no_progress (with_reducible apply hR.upd; all_goals try first | with_reducible exact .inr rfl | exact .inl (by decide +kernel) | exact id)
    | dsimp only
    | intro _ _
    | intro _
    | contradiction
    | (unfold id)
    | split
    | (rename_i hh; injection hh with hh; subst hh)
    | (rename_i hh; split at hh)

theorem State.slotTry_keeps {R : State → Prop} (hR : Keeps [.regs, .stewards] ⟨[.LS_ERR_CODE, .LS_ERR_SOURCE, .LS_ERR_VALID, .LS_VER_CNT_COUNT], [], [], false⟩ R) (s : State) (d k : Nat) (sig : Bool)
    (hI : R s) : R (State.slotTry s d k sig).2 := by
  unfold State.slotTry
  try dsimp only
  repeat' first
    | with_reducible assumption
    | exact hR.sub
    | with_reducible apply rel_ite
    | with_reducible apply State.imageBad_keeps
    | dsimp only
    | intro _ _
    | intro _
    | contradiction
    | (unfold id)
    | split
    | (rename_i hh; injection hh with hh; subst hh)
    | (rename_i hh; split at hh)

theorem State.slotTry_keeps_of {R : State → Prop} (hR : Keeps [.regs, .stewards] ⟨[.LS_ERR_CODE, .LS_ERR_SOURCE, .LS_ERR_VALID, .LS_VER_CNT_COUNT], [], [], false⟩ R) (s : State) (d k : Nat) (sig : Bool)
    (hI : R s) {a : Bool} {tT : State} (eE : State.slotTry s d k sig = (a, tT)) : R tT := by
  have h := State.slotTry_keeps hR s d k sig hI
  rw [eE] at h
  exact h

theorem State.slotTake_keeps {R : State → Prop} (hR : Keeps [.regs, .fwMeas] ⟨[.BOOT_STAT_SLOT, .LS_STAT_READY, .LS_SVN_SVN], [], [], false⟩ R) (s : State) (d k : Nat)
    (hI : R s) : R (State.slotTake s d k) := by
  unfold State.slotTake
  try dsimp only
  repeat' first
    | with_reducible assumption
    | exact hR.sub
    | exact fun h => memWf_memStore h
    | exact fun h => memWf_memPut h
    | exact fun h => memWf_filter _ h
    | exact fun _ => rfl
    | with_reducible apply rel_ite
    | with_reducible refine hR.wr _ _ _ (by decide +kernel) (by first | decide +kernel | exact hasFld_self _ _ | exact hasFld_all _ | (simp [hasFld]; done) ) ?_
    | fail_if_no_progress (with_reducible apply hR.upd; all_goals try first | with_reducible exact .inr rfl | exact .inl (by decide +kernel) | exact id)
    | dsimp only
    | intro _ _
    | intro _
    | contradiction
    | (unfold id)
    | split
    | (rename_i hh; injection hh with hh; subst hh)
    | (rename_i hh; split at hh)

theorem State.recover_keeps {R : State → Prop} (hR : Keeps [.regs, .pcie] ⟨[.BOOT_STAT_STAGE], [], [], false⟩ R) (s : State)
    (hI : R s) : R (State.recover s) := by
  unfold State.recover
  try dsimp only
  repeat' first
    | with_reducible assumption
    | exact hR.sub
    | exact fun h => memWf_memStore h
    | exact fun h => memWf_memPut h
    | exact fun h => memWf_filter _ h
    | exact fun _ => rfl
    | with_reducible apply rel_ite
    | with_reducible refine hR.wr _ _ _ (by decide +kernel) (by first | decide +kernel | exact hasFld_self _ _ | exact hasFld_all _ | (simp [hasFld]; done) ) ?_
    | fail_if_no_progress (with_reducible apply hR.upd; all_goals try first | with_reducible exact .inr rfl | exact .inl (by decide +kernel) | exact id)
    | dsimp only
    | intro _ _
    | intro _
    | contradiction
    | (unfold id)
    | split
    | (rename_i hh; injection hh with hh; subst hh)
    | (rename_i hh; split at hh)

theorem State.slotEither_keeps {R : State → Prop} (hR : Keeps [.regs, .stewards] ⟨[.LS_ERR_CODE, .LS_ERR_SOURCE, .LS_ERR_VALID, .LS_VER_CNT_COUNT], [], [], false⟩ R) (s : State) (d k : Nat) (sigA sigB : Bool) (hI : R s) :
    R (State.slotEither s d k sigA sigB).2 := by
  have h1 := State.slotTry_keeps hR.sub s d k (sigOf sigA sigB k) hI
  rw [State.slotEither]
  generalize s.slotTry d k (sigOf sigA sigB k) = x at h1 ⊢
  obtain ⟨b, s1⟩ := x
  cases b
  · exact State.slotTry_keeps hR.sub _ _ _ _ h1
  · exact h1

theorem State.slotBoot_keeps {R : State → Prop} (hR : Keeps [.regs, .fwMeas, .auto] ⟨[.BOOT_STAT_FALLBACK, .BOOT_STAT_SLOT, .BOOT_STAT_STAGE, .LS_STAT_READY, .LS_SVN_SVN], [], [], false⟩ R) (s : State) (d k k' : Nat)
    (hI : R s) : R (State.slotBoot s d k k') := by
  unfold State.slotBoot
  try dsimp only
  repeat' first
    | with_reducible assumption
    | exact hR.sub
    | exact fun h => memWf_memStore h
    | exact fun h => memWf_memPut h
    | exact fun h => memWf_filter _ h
    | exact fun _ => rfl
    | with_reducible apply rel_ite
    | with_reducible refine hR.wr _ _ _ (by decide +kernel) (by first | decide +kernel | exact hasFld_self _ _ | exact hasFld_all _ | (simp [hasFld]; done) ) ?_
    | with_reducible apply State.slotTake_keeps
    | fail_if_no_progress (with_reducible apply hR.upd; all_goals try first | with_reducible exact .inr rfl | exact .inl (by decide +kernel) | exact id)
    | dsimp only
    | intro _ _
    | intro _
    | contradiction
    | (unfold id)
    | split
    | (rename_i hh; injection hh with hh; subst hh)
    | (rename_i hh; split at hh)

theorem State.slotCold_keeps {R : State → Prop} (hR : Keeps [.regs, .noAuto] ⟨[.BOOT_CFG_NEXT_SLOT, .BOOT_CFG_NO_AUTOLOAD, .BOOT_STAT_DIR_COPY], [], [], false⟩ R) (s : State) (c : Nat)
    (hI : R s) : R (State.slotCold s c) := by
  unfold State.slotCold
  try dsimp only
  repeat' first
    | with_reducible assumption
    | exact hR.sub
    | exact fun h => memWf_memStore h
    | exact fun h => memWf_memPut h
    | exact fun h => memWf_filter _ h
    | exact fun _ => rfl
    | with_reducible apply rel_ite
    | with_reducible refine hR.wr _ _ _ (by decide +kernel) (by first | decide +kernel | exact hasFld_self _ _ | exact hasFld_all _ | (simp [hasFld]; done) ) ?_
    | fail_if_no_progress (with_reducible apply hR.upd; all_goals try first | with_reducible exact .inr rfl | exact .inl (by decide +kernel) | exact id)
    | dsimp only
    | intro _ _
    | intro _
    | contradiction
    | (unfold id)
    | split
    | (rename_i hh; injection hh with hh; subst hh)
    | (rename_i hh; split at hh)

def opFieldsFirmwareBy : FSet :=
  ⟨[.BOOT_CFG_NEXT_SLOT, .BOOT_CFG_NO_AUTOLOAD, .BOOT_STAT_DIR_COPY, .BOOT_STAT_FALLBACK, .BOOT_STAT_SLOT,
    .BOOT_STAT_STAGE, .LS_ERR_CODE, .LS_ERR_SOURCE, .LS_ERR_VALID, .LS_STAT_READY, .LS_SVN_SVN, .LS_VER_CNT_COUNT], [],
    [], false⟩

theorem State.firmwareBy_keeps {R : State → Prop} (hR : Keeps [.regs, .stewards, .pcie, .fwMeas, .auto, .noAuto] opFieldsFirmwareBy R) (s : State) (c d : Nat) (sigA sigB : Bool)
    (hI : R s) : R (State.firmwareBy s c d sigA sigB) := by
  unfold State.firmwareBy
  try dsimp only
  repeat' first
    | with_reducible assumption
    | exact hR.sub
    | with_reducible apply rel_ite
    | with_reducible refine hR.wr _ _ _ (by decide +kernel) (by first | decide +kernel | exact hasFld_self _ _ | exact hasFld_all _ | (simp [hasFld]; done) ) ?_
    | with_reducible apply State.recover_keeps
    | with_reducible apply State.slotBoot_keeps
    | with_reducible apply State.slotCold_keeps
    | with_reducible apply State.slotEither_keeps
    | with_reducible apply State.slotTake_keeps
    | with_reducible apply State.slotTry_keeps
    | (refine State.slotEither_keeps_of hR.sub _ _ _ _ _ ?_ (by assumption))
    | (refine State.slotTry_keeps_of hR.sub _ _ _ _ ?_ (by assumption))
    | dsimp only
    | intro _ _
    | intro _
    | contradiction
    | (unfold id)
    | split
    | (rename_i hh; injection hh with hh; subst hh)
    | (rename_i hh; split at hh)

def opFieldsFirmware : FSet :=
  ⟨[.BOOT_CFG_NEXT_SLOT, .BOOT_CFG_NO_AUTOLOAD, .BOOT_STAT_DIR_COPY, .BOOT_STAT_FALLBACK, .BOOT_STAT_SLOT,
    .BOOT_STAT_STAGE, .LS_ERR_CODE, .LS_ERR_SOURCE, .LS_ERR_VALID, .LS_STAT_READY, .LS_SVN_SVN, .LS_VER_CNT_COUNT], [],
    [], false⟩

theorem State.firmware_keeps {R : State → Prop} (hR : Keeps [.regs, .stewards, .pcie, .fwMeas, .auto, .noAuto] opFieldsFirmware R) (s : State) (sigA sigB : Bool)
    (hI : R s) : R (State.firmware s sigA sigB) := by
  rw [State.firmware]
  try dsimp only
  repeat' first
    | with_reducible assumption
    | exact hR.sub
    | exact fun h => memWf_memStore h
    | exact fun h => memWf_memPut h
    | exact fun h => memWf_filter _ h
    | exact fun _ => rfl
    | with_reducible apply rel_ite
    | with_reducible apply State.firmwareBy_keeps
    | with_reducible apply State.recover_keeps
    | fail_if_no_progress (with_reducible apply hR.upd; all_goals try first | with_reducible exact .inr rfl | exact .inl (by decide +kernel) | exact id)
    | dsimp only
    | intro _ _
    | intro _
    | contradiction
    | (unfold id)
    | split
    | (rename_i hh; injection hh with hh; subst hh)
    | (rename_i hh; split at hh)

def opFieldsFuseStage : FSet :=
  ⟨[.HELM_IC_PEND_BITS, .HUB_DIE_STATE_KIND, .HUB_DIE_STATE_POS, .HUB_DIE_STATE_PRESENT, .HUB_DIE_STATE_STATE,
    .PWR_DIE_STAT_DOMAINS, .RST_DIE_STAT_START_ERR], [], [], false⟩

theorem State.fuseStage_keeps {R : State → Prop} (hR : Keeps [.regs, .out, .stewards] opFieldsFuseStage R) (s : State) (fitted : Nat) (fuses : List (Fin 8 × BitVec 2))
    (hI : R s) : R (State.fuseStage s fitted fuses) := by
  unfold State.fuseStage
  try dsimp only
  repeat' first
    | with_reducible assumption
    | exact hR.sub
    | with_reducible apply rel_ite
    | with_reducible refine hR.wr _ _ _ (by decide +kernel) (by first | decide +kernel | exact hasFld_self _ _ | exact hasFld_all _ | (simp [hasFld]; done) ) ?_
    | with_reducible apply State.emit_keeps
    | with_reducible apply State.fusesRead_keeps
    | with_reducible apply State.raise_keeps
    | with_reducible apply State.setDie_keeps
    | (with_reducible apply rel_foldl; intro _ _ _)
    | (with_reducible apply rel_foldl2; intro _ _ _)
    | (with_reducible apply rel_foldl3; intro _ _ _)
    | (with_reducible apply rel_foldl1; intro _ _ _)
    | dsimp only
    | intro _ _
    | intro _
    | contradiction
    | (unfold id)
    | split
    | (rename_i hh; injection hh with hh; subst hh)
    | (rename_i hh; split at hh)

def opPartsClocksStart : List Part := [.local_, .clocksUp, .regs, .out, .stewards, .anchorE, .anchorT, .synth, .helm]

theorem State.clocksStart_keeps {R : State → Prop} (hR : Keeps opPartsClocksStart ⟨[.CLK_MON_FAIL_EV, .CLK_MON_REF_OK, .CLK_SRC_ACTIVE, .CLK_SRC_DEAD_RECK, .CLK_SRC_GLIDING, .SX_STAT_DEAD_RECK], [], [], false⟩ R) (s : State) (srcOk : Bool)
    (hI : R s) : R (State.clocksStart s srcOk) := by
  unfold State.clocksStart
  try dsimp only
  repeat' first
    | with_reducible assumption
    | exact hR.sub
    | exact fun h => memWf_memStore h
    | exact fun h => memWf_memPut h
    | exact fun h => memWf_filter _ h
    | exact fun _ => rfl
    | with_reducible apply rel_ite
    | with_reducible refine hR.wr _ _ _ (by decide +kernel) (by first | decide +kernel | exact hasFld_self _ _ | exact hasFld_all _ | (simp [hasFld]; done) ) ?_
    | with_reducible apply State.deadReckon_keeps
    | with_reducible apply State.setSynth_keeps
    | (with_reducible apply rel_foldl; intro _ _ _)
    | (with_reducible apply rel_foldl2; intro _ _ _)
    | (with_reducible apply rel_foldl3; intro _ _ _)
    | (with_reducible apply rel_foldl1; intro _ _ _)
    | fail_if_no_progress (with_reducible apply hR.upd; all_goals try first | with_reducible exact .inr rfl | exact .inl (by decide +kernel) | exact id)
    | dsimp only
    | intro _ _
    | intro _
    | contradiction
    | (unfold id)
    | split
    | (rename_i hh; injection hh with hh; subst hh)
    | (rename_i hh; split at hh)

theorem State.meshOn_keeps {R : State → Prop} (hR : Keeps [.regs] ⟨[.NOC_NI_CTL_EN, .NOC_RTR_PORT_EN], [], [], false⟩ R) (s : State) (site : Nat)
    (hI : R s) : R (State.meshOn s site) := by
  unfold State.meshOn
  try dsimp only
  repeat' first
    | with_reducible assumption
    | exact hR.sub
    | with_reducible apply rel_ite
    | with_reducible refine hR.wr _ _ _ (by decide +kernel) (by first | decide +kernel | exact hasFld_self _ _ | exact hasFld_all _ | (simp [hasFld]; done) ) ?_
    | (with_reducible apply rel_foldl; intro _ _ _)
    | (with_reducible apply rel_foldl2; intro _ _ _)
    | (with_reducible apply rel_foldl3; intro _ _ _)
    | (with_reducible apply rel_foldl1; intro _ _ _)
    | dsimp only
    | intro _ _
    | intro _
    | contradiction
    | (unfold id)
    | split
    | (rename_i hh; injection hh with hh; subst hh)
    | (rename_i hh; split at hh)

theorem State.lifeLoad_keeps {R : State → Prop} (hR : Keeps [.regs] ⟨[.TEL_HOURS_HOURS, .TEL_LIFE_PPM], [], [], false⟩ R) (s : State) (n : Nat)
    (hI : R s) : R (State.lifeLoad s n) := by
  unfold State.lifeLoad
  try dsimp only
  repeat' first
    | with_reducible assumption
    | exact hR.sub
    | with_reducible apply rel_ite
    | with_reducible refine hR.wr _ _ _ (by decide +kernel) (by first | decide +kernel | exact hasFld_self _ _ | exact hasFld_all _ | (simp [hasFld]; done) ) ?_
    | (with_reducible apply rel_foldl; intro _ _ _)
    | (with_reducible apply rel_foldl2; intro _ _ _)
    | (with_reducible apply rel_foldl3; intro _ _ _)
    | (with_reducible apply rel_foldl1; intro _ _ _)
    | dsimp only
    | intro _ _
    | intro _
    | contradiction
    | (unfold id)
    | split
    | (rename_i hh; injection hh with hh; subst hh)
    | (rename_i hh; split at hh)

def opPartsServicesUp : List Part := [.regs, .stewards, .govs, .gkLink, .rebaseDue, .dieRt, .relq]
def opFieldsServicesUp : FSet :=
  ⟨[.HELM_CORE_STAT_PERMIT_TO, .HELM_CORE_STAT_STATE, .NOC_NI_CTL_EN, .NOC_RTR_PORT_EN, .PG_ERR_OP, .PG_ERR_OVERSIZE,
    .PG_ERR_UNITS, .PG_ERR_VALID, .PG_TO_CNT_COUNT], [], [], false⟩

theorem State.servicesUp_keeps {R : State → Prop} (hR : Keeps opPartsServicesUp opFieldsServicesUp R) (s : State)
    (hI : R s) : R (State.servicesUp s) := by
  unfold State.servicesUp
  try dsimp only
  repeat' first
    | with_reducible assumption
    | exact hR.sub
    | exact fun h => memWf_memStore h
    | exact fun h => memWf_memPut h
    | exact fun h => memWf_filter _ h
    | exact fun _ => rfl
    | with_reducible apply rel_ite
    | with_reducible apply State.askLink_keeps
    | with_reducible apply State.coreAsk_keeps
    | with_reducible apply State.helmTimeouts_keeps
    | with_reducible apply State.meshOn_keeps
    | with_reducible apply State.setDieRt_keeps
    | (with_reducible apply rel_foldl; intro _ _ _)
    | (with_reducible apply rel_foldl2; intro _ _ _)
    | (with_reducible apply rel_foldl3; intro _ _ _)
    | (with_reducible apply rel_foldl1; intro _ _ _)
    | fail_if_no_progress (with_reducible apply hR.upd; all_goals try first | exact .inl (by decide +kernel) | with_reducible exact .inr rfl | exact id)
    | dsimp only
    | intro _ _
    | intro _
    | contradiction
    | (unfold id)
    | split
    | (rename_i hh; injection hh with hh; subst hh)
    | (rename_i hh; split at hh)

theorem State.flashReads_keeps {R : State → Prop} (hR : Keeps [.now, .local_, .out, .spinePull, .flashMode] ⟨[], [], [], false⟩ R) (s : State) (octal : Bool)
    (hI : R s) : R (State.flashReads s octal) := by
  unfold State.flashReads
  try dsimp only
  repeat' first
    | with_reducible assumption
    | exact hR.sub
    | exact fun h => memWf_memStore h
    | exact fun h => memWf_memPut h
    | exact fun h => memWf_filter _ h
    | exact fun _ => rfl
    | with_reducible apply rel_ite
    | with_reducible apply State.emit_keeps
    | with_reducible apply State.lapseTo_keeps
    | fail_if_no_progress (with_reducible apply hR.upd; all_goals try first | with_reducible exact .inr rfl | exact .inl (by decide +kernel) | exact id)
    | dsimp only
    | intro _ _
    | intro _
    | contradiction
    | (unfold id)
    | split
    | (rename_i hh; injection hh with hh; subst hh)
    | (rename_i hh; split at hh)

theorem execBootStageComplete_keeps {R : State → Prop} (hR : Keeps partsBootStageComplete fieldsBootStageComplete R) (fitted : BitVec 8) (fuses : List (Fin 8 × BitVec 2)) (sigA sigB srcOk octal : Bool) (bs : BearingSet) (s : State)
    (hI : R s) {tT : State} (eE : execBootStageComplete fitted fuses sigA sigB srcOk octal bs s = .next tT) : R tT := by
  unfold execBootStageComplete at eE
  try dsimp only at eE
  repeat' split at eE
  all_goals try (injection eE with eE; subst eE)
  all_goals repeat' first
    | with_reducible assumption
    | exact hR.sub
    | exact fun h => memWf_memStore h
    | exact fun h => memWf_memPut h
    | exact fun h => memWf_filter _ h
    | exact fun _ => rfl
    | with_reducible apply rel_ite
    | with_reducible refine hR.wr _ _ _ (by decide +kernel) (by first | decide +kernel | exact hasFld_self _ _ | exact hasFld_all _ | (simp [hasFld]; done) ) ?_
    | with_reducible apply State.clocksStart_keeps
    | with_reducible apply State.dirNext_keeps
    | with_reducible apply State.firmware_keeps
    | with_reducible apply State.flashMessage_keeps
    | with_reducible apply State.flashReads_keeps
    | with_reducible apply State.fuseStage_keeps
    | with_reducible apply State.lifeLoad_keeps
    | with_reducible apply State.meshOn_keeps
    | with_reducible apply State.message_keeps
    | with_reducible apply State.packageReset_keeps
    | with_reducible apply State.powerOn_keeps
    | with_reducible apply State.putBearings_keeps
    | with_reducible apply State.reach_keeps
    | with_reducible apply State.servicesUp_keeps
    | with_reducible apply State.stage2_keeps
    | fail_if_no_progress (with_reducible apply hR.upd; all_goals try first | with_reducible exact .inr rfl | exact .inl (by decide +kernel) | exact id)
    | dsimp only
    | intro _ _
    | intro _
    | contradiction
    | (unfold id)
    | split
    | (rename_i hh; injection hh with hh; subst hh)
    | (rename_i hh; split at hh)

theorem execDieRailAbsent_keeps {R : State → Prop} (hR : Keeps partsDieRailAbsent fieldsDieRailAbsent R) (n : Fin 8) (s : State)
    (hI : R s) {tT : State} (eE : execDieRailAbsent n s = .next tT) : R tT := by
  unfold execDieRailAbsent at eE
  try dsimp only at eE
  repeat' split at eE
  all_goals try (injection eE with eE; subst eE)
  all_goals repeat' first
    | with_reducible assumption
    | exact hR.sub
    | with_reducible apply rel_ite
    | with_reducible refine hR.wr _ _ _ (by decide +kernel) (by first | decide +kernel | exact hasFld_self _ _ | exact hasFld_all _ | (simp [hasFld]; done) ) ?_
    | with_reducible apply State.dirNext_keeps
    | with_reducible apply State.flashMessage_keeps
    | with_reducible apply State.message_keeps
    | with_reducible apply State.packageReset_keeps
    | with_reducible apply State.powerOn_keeps
    | with_reducible apply State.raise_keeps
    | with_reducible apply State.reach_keeps
    | with_reducible apply State.setDie_keeps
    | dsimp only
    | intro _ _
    | intro _
    | contradiction
    | (unfold id)
    | split
    | (rename_i hh; injection hh with hh; subst hh)
    | (rename_i hh; split at hh)

theorem State.repairsLoad_keeps {R : State → Prop} (hR : Keeps [.regs] ⟨[.SEC_COLMAP_ACTIVE, .SEC_COLMAP_DEFECTS, .SEC_COLMAP_FIELD], [], [], false⟩ R) (s : State) (n : Nat)
    (hI : R s) : R (State.repairsLoad s n) := by
  unfold State.repairsLoad
  try dsimp only
  repeat' first
    | with_reducible assumption
    | exact hR.sub
    | with_reducible apply rel_ite
    | with_reducible refine hR.wr _ _ _ (by decide +kernel) (by first | decide +kernel | exact hasFld_self _ _ | exact hasFld_all _ | (simp [hasFld]; done) ) ?_
    | (with_reducible apply rel_foldl; intro _ _ _)
    | (with_reducible apply rel_foldl2; intro _ _ _)
    | (with_reducible apply rel_foldl3; intro _ _ _)
    | (with_reducible apply rel_foldl1; intro _ _ _)
    | dsimp only
    | intro _ _
    | intro _
    | contradiction
    | (unfold id)
    | split
    | (rename_i hh; injection hh with hh; subst hh)
    | (rename_i hh; split at hh)

theorem State.transportKey_keeps {R : State → Prop} (hR : Keeps [.draws, .transport] ⟨[], [], [], false⟩ R) (s : State) (n : Nat)
    (hI : R s) : R (State.transportKey s n) := by
  unfold State.transportKey
  try dsimp only
  repeat' first
    | with_reducible assumption
    | exact hR.sub
    | exact fun h => memWf_memStore h
    | exact fun h => memWf_memPut h
    | exact fun h => memWf_filter _ h
    | exact fun _ => rfl
    | with_reducible apply rel_ite
    | with_reducible apply State.draw_keeps
    | (refine State.draw_keeps_of hR.sub _ _ ?_ (by assumption))
    | fail_if_no_progress (with_reducible apply hR.upd; all_goals try first | with_reducible exact .inr rfl | exact .inl (by decide +kernel) | exact id)
    | dsimp only
    | intro _ _
    | intro _
    | contradiction
    | (unfold id)
    | split
    | (rename_i hh; injection hh with hh; subst hh)
    | (rename_i hh; split at hh)

theorem execDieRelease_keeps {R : State → Prop} (hR : Keeps partsDieRelease fieldsDieRelease R) (n : Fin 8) (rail : Bool) (s : State)
    (hI : R s) {tT : State} (eE : execDieRelease n rail s = .next tT) : R tT := by
  unfold execDieRelease at eE
  try dsimp only at eE
  repeat' split at eE
  all_goals try (injection eE with eE; subst eE)
  all_goals repeat' first
    | with_reducible assumption
    | exact hR.sub
    | exact fun h => memWf_memStore h
    | exact fun h => memWf_memPut h
    | exact fun h => memWf_filter _ h
    | exact fun _ => rfl
    | with_reducible apply rel_ite
    | with_reducible refine hR.wr _ _ _ (by decide +kernel) (by first | decide +kernel | exact hasFld_self _ _ | exact hasFld_all _ | (simp [hasFld]; done) ) ?_
    | with_reducible apply State.askLink_keeps
    | with_reducible apply State.dieWipe_keeps
    | with_reducible apply State.dirNext_keeps
    | with_reducible apply State.emit_keeps
    | with_reducible apply State.flashMessage_keeps
    | with_reducible apply State.lifeLoad_keeps
    | with_reducible apply State.message_keeps
    | with_reducible apply State.nextReset_keeps
    | with_reducible apply State.packageReset_keeps
    | with_reducible apply State.powerOn_keeps
    | with_reducible apply State.raise_keeps
    | with_reducible apply State.reach_keeps
    | with_reducible apply State.repairsLoad_keeps
    | with_reducible apply State.setDie_keeps
    | with_reducible apply State.setDieRt_keeps
    | with_reducible apply State.transportKey_keeps
    | fail_if_no_progress (with_reducible apply hR.upd; all_goals try first | with_reducible exact .inr rfl | exact .inl (by decide +kernel) | exact id)
    | dsimp only
    | intro _ _
    | intro _
    | contradiction
    | (unfold id)
    | split
    | (rename_i hh; injection hh with hh; subst hh)
    | (rename_i hh; split at hh)

def opFieldsRknDefect : FSet :=
  ⟨[.HARD_MAP_RKN0, .HARD_MAP_RKN1, .HARD_MAP_RKN2, .MGMT_HEALTH_STAGE, .MGMT_HEALTH_ZERO, .SEC_CTL_RESET,
    .SEC_STATUS_ISOLATED, .SEC_STATUS_PERMIT_WAIT, .SEC_STATUS_RESET_HELD, .SEC_STATUS_STATE], [.sec], [], false⟩

theorem State.rknDefect_keeps {R : State → Prop} (hR : Keeps [.regs, .stewards, .health, .govs, .sec, .fab] opFieldsRknDefect R) (s : State) (n k c b : Nat)
    (hI : R s) : R (State.rknDefect s n k c b) := by
  unfold State.rknDefect
  dsimp only
  repeat' first
    | with_reducible assumption
    | exact hR.sub
    | with_reducible apply rel_ite
    | with_reducible apply State.notice_keeps
    | with_reducible apply State.sectorUnavailable_keeps
    | (refine hR.wr _ _ _ (by decide +kernel) (by unfold rknMap; (repeat' split) <;> decide +kernel) ?_)

theorem execSelfTestDone_keeps {R : State → Prop} (hR : Keeps partsSelfTestDone fieldsSelfTestDone R) (n : Fin 8) (cols : List (Fin 40 × Fin 31)) (rkn : List (Fin 40 × Fin 3 × Fin 25)) (rows : List (Fin 40 × Nat)) (lost : List (Fin 40)) (s : State)
    (hI : R s) {tT : State} (eE : execSelfTestDone n cols rkn rows lost s = .next tT) : R tT := by
  unfold execSelfTestDone at eE
  try dsimp only at eE
  repeat' split at eE
  all_goals try (injection eE with eE; subst eE)
  all_goals repeat' first
    | with_reducible assumption
    | exact hR.sub
    | exact fun h => memWf_memStore h
    | exact fun h => memWf_memPut h
    | exact fun h => memWf_filter _ h
    | exact fun _ => rfl
    | exact hR.sub (by decide +kernel) (subFld_self _ _)
    | with_reducible apply rel_ite
    | with_reducible refine hR.wr _ _ _ (by decide +kernel) (by first | decide +kernel | exact hasFld_self _ _ | exact hasFld_all _ | (simp [hasFld]; done) ) ?_
    | with_reducible apply State.columnDefect_keeps
    | with_reducible apply State.dirNext_keeps
    | with_reducible apply State.flashMessage_keeps
    | with_reducible apply State.healthUpdate_keeps
    | with_reducible apply State.lapseTo_keeps
    | with_reducible apply State.message_keeps
    | with_reducible apply State.notice_keeps
    | with_reducible apply State.packageReset_keeps
    | with_reducible apply State.powerOn_keeps
    | with_reducible apply State.reach_keeps
    | with_reducible apply State.rknDefect_keeps
    | with_reducible apply State.sectorUnavailable_keeps
    | with_reducible apply State.setBit_keeps
    | with_reducible apply State.setDieRt_keeps
    | (with_reducible apply rel_foldl; intro _ _ _)
    | (with_reducible apply rel_foldl2; intro _ _ _)
    | (with_reducible apply rel_foldl3; intro _ _ _)
    | (with_reducible apply rel_foldl1; intro _ _ _)
    | fail_if_no_progress (with_reducible apply hR.upd; all_goals try first | with_reducible exact .inr rfl | exact .inl (by decide +kernel) | exact id)
    | dsimp only
    | intro _ _
    | intro _
    | contradiction
    | (unfold id)
    | split
    | (rename_i hh; injection hh with hh; subst hh)
    | (rename_i hh; split at hh)

theorem execDieReleaseDone_keeps {R : State → Prop} (hR : Keeps partsDieReleaseDone fieldsDieReleaseDone R) (n : Fin 8) (bs : BearingSet) (s : State)
    (hI : R s) {tT : State} (eE : execDieReleaseDone n bs s = .next tT) : R tT := by
  unfold execDieReleaseDone at eE
  try dsimp only at eE
  repeat' split at eE
  all_goals try (injection eE with eE; subst eE)
  all_goals repeat' first
    | with_reducible assumption
    | exact hR.sub
    | exact fun h => memWf_memStore h
    | exact fun h => memWf_memPut h
    | exact fun h => memWf_filter _ h
    | exact fun _ => rfl
    | with_reducible apply rel_ite
    | with_reducible refine hR.wr _ _ _ (by decide +kernel) (by first | decide +kernel | exact hasFld_self _ _ | exact hasFld_all _ | (simp [hasFld]; done) ) ?_
    | with_reducible apply State.askLink_keeps
    | with_reducible apply State.askTraining_keeps
    | with_reducible apply State.dirNext_keeps
    | with_reducible apply State.flashMessage_keeps
    | with_reducible apply State.healthUpdate_keeps
    | with_reducible apply State.lapseTo_keeps
    | with_reducible apply State.meshOn_keeps
    | with_reducible apply State.message_keeps
    | with_reducible apply State.nextReset_keeps
    | with_reducible apply State.packageReset_keeps
    | with_reducible apply State.powerOn_keeps
    | with_reducible apply State.putBearings_keeps
    | with_reducible apply State.reach_keeps
    | with_reducible apply State.setDie_keeps
    | with_reducible apply State.setDieRt_keeps
    | fail_if_no_progress (with_reducible apply hR.upd; all_goals try first | with_reducible exact .inr rfl | exact .inl (by decide +kernel) | exact id)
    | dsimp only
    | intro _ _
    | intro _
    | contradiction
    | (unfold id)
    | split
    | (rename_i hh; injection hh with hh; subst hh)
    | (rename_i hh; split at hh)

theorem execDieStartFail_keeps {R : State → Prop} (hR : Keeps partsDieStartFail fieldsDieStartFail R) (n : Fin 8) (cause : Fin 4) (s : State)
    (hI : R s) {tT : State} (eE : execDieStartFail n cause s = .next tT) : R tT := by
  unfold execDieStartFail at eE
  try dsimp only at eE
  repeat' split at eE
  all_goals try (injection eE with eE; subst eE)
  all_goals repeat' first
    | with_reducible assumption
    | exact hR.sub
    | exact fun h => memWf_memStore h
    | exact fun h => memWf_memPut h
    | exact fun h => memWf_filter _ h
    | exact fun _ => rfl
    | with_reducible apply rel_ite
    | with_reducible refine hR.wr _ _ _ (by decide +kernel) (by first | decide +kernel | exact hasFld_self _ _ | exact hasFld_all _ | (simp [hasFld]; done) ) ?_
    | with_reducible apply State.dieWipe_keeps
    | with_reducible apply State.dirNext_keeps
    | with_reducible apply State.flashMessage_keeps
    | with_reducible apply State.healthUpdate_keeps
    | with_reducible apply State.message_keeps
    | with_reducible apply State.nextReset_keeps
    | with_reducible apply State.packageReset_keeps
    | with_reducible apply State.powerOn_keeps
    | with_reducible apply State.raise_keeps
    | with_reducible apply State.reach_keeps
    | with_reducible apply State.setDie_keeps
    | with_reducible apply State.setDieRt_keeps
    | fail_if_no_progress (with_reducible apply hR.upd; all_goals try first | with_reducible exact .inr rfl | exact .inl (by decide +kernel) | exact id)
    | dsimp only
    | intro _ _
    | intro _
    | contradiction
    | (unfold id)
    | split
    | (rename_i hh; injection hh with hh; subst hh)
    | (rename_i hh; split at hh)

theorem execCfgAutoload_keeps {R : State → Prop} (hR : Keeps partsCfgAutoload fieldsCfgAutoload R) (unwrap : Bool) (s : State)
    (hI : R s) {tT : State} (eE : execCfgAutoload unwrap s = .next tT) : R tT := by
  unfold execCfgAutoload at eE
  try dsimp only at eE
  repeat' split at eE
  all_goals try (injection eE with eE; subst eE)
  all_goals repeat' first
    | with_reducible assumption
    | exact hR.sub
    | exact fun h => memWf_memStore h
    | exact fun h => memWf_memPut h
    | exact fun h => memWf_filter _ h
    | exact fun _ => rfl
    | with_reducible apply rel_ite
    | with_reducible refine hR.wr _ _ _ (by decide +kernel) (by first | decide +kernel | exact hasFld_self _ _ | exact hasFld_all _ | (simp [hasFld]; done) ) ?_
    | with_reducible apply State.cfgBegin_keeps
    | with_reducible apply State.dirNext_keeps
    | with_reducible apply State.flashMessage_keeps
    | with_reducible apply State.message_keeps
    | with_reducible apply State.packageReset_keeps
    | with_reducible apply State.powerOn_keeps
    | with_reducible apply State.reach_keeps
    | fail_if_no_progress (with_reducible apply hR.upd; all_goals try first | with_reducible exact .inr rfl | exact .inl (by decide +kernel) | exact id)
    | dsimp only
    | intro _ _
    | intro _
    | contradiction
    | (unfold id)
    | split
    | (rename_i hh; injection hh with hh; subst hh)
    | (rename_i hh; split at hh)

def opPartsRailStack : List Part :=
  [.regs, .answer, .stewards, .govs, .rcLines, .rcMiss, .haIn, .haTx, .homeOut, .seals, .hbmPc, .stack, .rtq, .ni,
    .bearings, .hold]
def opFieldsRailStack : FSet :=
  ⟨[.HBM_CTL_EN, .HBM_STAT_CONTENT, .HBM_STAT_STATE, .NOC_NI_ALT_CNT_COUNT, .NOC_NI_BOUNCE_CNT_COUNT, .NOC_NI_ERR_CODE,
    .NOC_NI_ERR_DEST, .NOC_NI_ERR_VALID, .NOC_NI_FAIL_CNT_COUNT, .RC_STAT_RETAINED, .SEAL_STAT_KIND,
    .SEAL_STAT_PERMIT_WAIT, .SEAL_STAT_QUEUE, .SEAL_STAT_RANGE], [], [], false⟩

theorem State.railStack_keeps {R : State → Prop} (hR : Keeps opPartsRailStack opFieldsRailStack R) (s : State) (st : Nat)
    (hI : R s) : R (State.railStack s st) := by
  unfold State.railStack
  try dsimp only
  repeat' first
    | with_reducible assumption
    | exact hR.sub
    | with_reducible apply rel_ite
    | with_reducible refine hR.wr _ _ _ (by decide +kernel) (by first | decide +kernel | exact hasFld_self _ _ | exact hasFld_all _ | (simp [hasFld]; done) ) ?_
    | with_reducible apply State.homeGone_keeps
    | with_reducible apply State.raise_keeps
    | with_reducible apply State.respond_keeps
    | with_reducible apply State.setPc_keeps
    | with_reducible apply State.stackLost_keeps
    | with_reducible apply State.sweepSleep_keeps
    | (with_reducible apply rel_foldl; intro _ _ _)
    | (with_reducible apply rel_foldl2; intro _ _ _)
    | (with_reducible apply rel_foldl3; intro _ _ _)
    | (with_reducible apply rel_foldl1; intro _ _ _)
    | dsimp only
    | intro _ _
    | intro _
    | contradiction
    | (unfold id)
    | split
    | (rename_i hh; injection hh with hh; subst hh)
    | (rename_i hh; split at hh)

theorem State.bankRail_keeps {R : State → Prop} (hR : Keeps [.fab, .ioOff] ⟨[], [], [], false⟩ R) (s : State) (n k : Nat) (up : Bool)
    (hI : R s) : R (State.bankRail s n k up) := by
  unfold State.bankRail
  try dsimp only
  repeat' first
    | with_reducible assumption
    | exact hR.sub
    | exact fun h => memWf_memStore h
    | exact fun h => memWf_memPut h
    | exact fun h => memWf_filter _ h
    | exact fun _ => rfl
    | (intro b hb; exact fabWf_of hb (fun h => by (try dsimp only); first | with_reducible exact h | exact smWf_ramFill _ _ _ _ h | exact smWf_smPut (dflt := fun _ => 0) h | exact smWf_filter _ h) (fun h => by first | exact h | exact smWf_smPut (dflt := fun _ => 0) h | exact smWf_filter _ h))
    | with_reducible apply rel_ite
    | with_reducible apply State.onFab_keeps
    | fail_if_no_progress (with_reducible apply hR.upd; all_goals try first | with_reducible exact .inr rfl | exact .inl (by decide +kernel) | exact id)
    | dsimp only
    | intro _ _
    | intro _
    | contradiction
    | (unfold id)
    | split
    | (rename_i hh; injection hh with hh; subst hh)
    | (rename_i hh; split at hh)

theorem execRailFault_keeps {R : State → Prop} (hR : Keeps partsRailFault fieldsRailFault R) (r : Rail) (s : State)
    (hI : R s) {tT : State} (eE : execRailFault r s = .next tT) : R tT := by
  unfold execRailFault at eE
  cases r with
  | monitored => injection eE with eE; subst eE; exact State.powerOn_keeps hR.sub _ hI
  | core n =>
    dsimp only at eE
    split at eE
    · injection eE with eE; subst eE
      exact State.nextReset_keeps hR.sub _ (State.dieLost_keeps hR.sub _ _ _ _ (State.raise_keeps hR.sub _ _ _ _ _ _ hI))
    · injection eE with eE; subst eE; exact hI
  | hbm st =>
    dsimp only at eE
    split at eE
    · exact execHbmTrainingFail_keeps hR.sub _ _ hI eE
    · split at eE
      · injection eE with eE; subst eE; exact State.railStack_keeps hR.sub _ _ hI
      · injection eE with eE; subst eE; exact hI
  | io _ _ _ => injection eE with eE; subst eE; exact State.bankRail_keeps hR.sub _ _ _ _ hI

theorem State.setLife_keeps {R : State → Prop} (hR : Keeps [.tele] ⟨[], [], [], false⟩ R) (s : State) (n : Nat) (x : LifeRt)
    (hI : R s) : R (State.setLife s n x) := by
  unfold State.setLife
  try dsimp only
  repeat' first
    | with_reducible assumption
    | exact hR.sub
    | exact fun h => memWf_memStore h
    | exact fun h => memWf_memPut h
    | exact fun h => memWf_filter _ h
    | exact fun _ => rfl
    | with_reducible apply rel_ite
    | fail_if_no_progress (with_reducible apply hR.upd; all_goals try first | with_reducible exact .inr rfl | exact .inl (by decide +kernel) | exact id)
    | dsimp only
    | intro _ _
    | intro _
    | contradiction
    | (unfold id)
    | split
    | (rename_i hh; injection hh with hh; subst hh)
    | (rename_i hh; split at hh)

def opPartsThermalTrip : List Part :=
  (.now :: .local_ :: .clocksUp :: .regs :: .answer :: .out :: .draws :: .stewards :: .evlog :: .jtodo :: .journal ::
    .health :: .repairs :: .govs :: .sec :: .tree :: .fab :: .eng :: .fixq :: .bcasts :: .hbm :: .poison :: .win ::
    .flash :: .rcLines :: .rcMiss :: .rcWb :: .sf :: .sfAge :: .haIn :: .haTx :: .homeOut :: .rcLossT :: .seals ::
    .leafMaj :: .leafMin :: .innerC :: .ccache :: .hwm :: .lostN :: .reenc :: .ccT :: .keys :: .keyOp :: .sessions ::
    .lastSes :: .hbmPort :: .hbmPc :: .stack :: .arbs :: .rtq :: .ni :: .bearings :: .rtPend :: .drainT :: .gkLink ::
    .gkDir :: .gkPool :: .crossIn :: .lane :: .trunk :: .bundle :: .hubDown :: .rebaseDue :: .qps :: .rot :: .vecs ::
    .mail :: .pcie :: .cfgWait :: .cfgLoad :: .loadN :: .cfg :: .cfgMeas :: .fwMeas :: .sxq :: .txq :: .residences ::
    .stepN :: .rxStamp :: .sxDiscard :: .sxMeas :: .ppsEnd :: .spinePull :: .anchorE :: .anchorT :: .synth :: .fvs ::
    .dieRt :: .hold :: .relq :: .rstq :: .flashMode :: .stage2T :: .auto :: .noAuto :: .warm :: .warmT :: .rstUnlock ::
    .tele :: .ioOff :: .lsFuse :: .transport :: .trngT :: .trngSaid :: .dbgWait :: .rcvN :: .flashOp :: .helm :: .helmL1
    :: .helmL2 :: .flashC :: .irqLine :: .pel :: .tap :: .scrub :: [])

theorem State.thermalTrip_keeps {R : State → Prop} (hR : Keeps opPartsThermalTrip .all R) (s : State)
    (hI : R s) : R (State.thermalTrip s) := by
  unfold State.thermalTrip
  try dsimp only
  repeat' first
    | with_reducible assumption
    | exact hR.sub
    | exact hR.sub (by decide +kernel) (subFld_self _ _)
    | with_reducible apply rel_ite
    | with_reducible apply State.cause_keeps
    | with_reducible apply State.emit_keeps
    | with_reducible apply State.packageReset_keeps
    | dsimp only
    | intro _ _
    | intro _
    | contradiction
    | (unfold id)
    | split
    | (rename_i hh; injection hh with hh; subst hh)
    | (rename_i hh; split at hh)

theorem execTelemetrySample_keeps {R : State → Prop} (hR : Keeps partsTelemetrySample fieldsTelemetrySample R) (site : Fin 9) (temp : BitVec 8) (mv : BitVec 12) (amp : BitVec 10) (s : State)
    (hI : R s) {tT : State} (eE : execTelemetrySample site temp mv amp s = .next tT) : R tT := by
  unfold execTelemetrySample at eE
  try dsimp only at eE
  repeat' split at eE
  all_goals try (injection eE with eE; subst eE)
  all_goals repeat' first
    | with_reducible assumption
    | exact hR.sub
    | exact fun h => memWf_memStore h
    | exact fun h => memWf_memPut h
    | exact fun h => memWf_filter _ h
    | exact fun _ => rfl
    | with_reducible apply rel_ite
    | with_reducible refine hR.wr _ _ _ (by decide +kernel) (by first | decide +kernel | exact hasFld_self _ _ | exact hasFld_all _ | (simp [hasFld]; done) ) ?_
    | with_reducible apply State.dieLost_keeps
    | with_reducible apply State.dirNext_keeps
    | with_reducible apply State.flashMessage_keeps
    | with_reducible apply State.message_keeps
    | with_reducible apply State.nextReset_keeps
    | with_reducible apply State.packageReset_keeps
    | with_reducible apply State.powerOn_keeps
    | with_reducible apply State.raise_keeps
    | with_reducible apply State.raiseFixed_keeps
    | with_reducible apply State.reach_keeps
    | with_reducible apply State.setLife_keeps
    | with_reducible apply State.thermalTrip_keeps
    | fail_if_no_progress (with_reducible apply hR.upd; all_goals try first | with_reducible exact .inr rfl | exact .inl (by decide +kernel) | exact id)
    | dsimp only
    | intro _ _
    | intro _
    | contradiction
    | (unfold id)
    | split
    | (rename_i hh; injection hh with hh; subst hh)
    | (rename_i hh; split at hh)

theorem execThermtripRelease_keeps {R : State → Prop} (hR : Keeps partsThermtripRelease fieldsThermtripRelease R) (s : State)
    (hI : R s) {tT : State} (eE : execThermtripRelease s = .next tT) : R tT := by
  unfold execThermtripRelease at eE
  try dsimp only at eE
  repeat' split at eE
  all_goals try (injection eE with eE; subst eE)
  all_goals repeat' first
    | with_reducible assumption
    | exact hR.sub
    | with_reducible apply rel_ite
    | with_reducible apply State.dirNext_keeps
    | with_reducible apply State.emit_keeps
    | with_reducible apply State.flashMessage_keeps
    | with_reducible apply State.leaveReset_keeps
    | with_reducible apply State.message_keeps
    | with_reducible apply State.packageReset_keeps
    | with_reducible apply State.powerOn_keeps
    | with_reducible apply State.reach_keeps
    | dsimp only
    | intro _ _
    | intro _
    | contradiction
    | (unfold id)
    | split
    | (rename_i hh; injection hh with hh; subst hh)
    | (rename_i hh; split at hh)

theorem execLifeHoursUpdate_keeps {R : State → Prop} (hR : Keeps partsLifeHoursUpdate fieldsLifeHoursUpdate R) (site : Fin 9) (s : State)
    (hI : R s) {tT : State} (eE : execLifeHoursUpdate site s = .next tT) : R tT := by
  unfold execLifeHoursUpdate at eE
  try dsimp only at eE
  repeat' split at eE
  all_goals try (injection eE with eE; subst eE)
  all_goals repeat' first
    | with_reducible assumption
    | exact hR.sub
    | exact fun h => memWf_memStore h
    | exact fun h => memWf_memPut h
    | exact fun h => memWf_filter _ h
    | exact fun _ => rfl
    | with_reducible apply rel_ite
    | with_reducible apply State.dirNext_keeps
    | with_reducible apply State.flashMessage_keeps
    | with_reducible apply State.lapseTo_keeps
    | with_reducible apply State.lifeLoad_keeps
    | with_reducible apply State.message_keeps
    | with_reducible apply State.notice_keeps
    | with_reducible apply State.packageReset_keeps
    | with_reducible apply State.powerOn_keeps
    | with_reducible apply State.reach_keeps
    | with_reducible apply State.setLife_keeps
    | fail_if_no_progress (with_reducible apply hR.upd; all_goals try first | with_reducible exact .inr rfl | exact .inl (by decide +kernel) | exact id)
    | dsimp only
    | intro _ _
    | intro _
    | contradiction
    | (unfold id)
    | split
    | (rename_i hh; injection hh with hh; subst hh)
    | (rename_i hh; split at hh)

end Sys2Proof.Machine
end

