-- ==== Sys2Proof/Laws/KeepsSecurity.lean ====
section
/-! SUPPORT. What the operations of `Machine/Security.lean` may change and what they keep. -/

namespace Sys2Proof.Machine

set_option Elab.async false
set_option linter.all false

def opPartsLsRefuse : List Part :=
  [.regs, .out, .draws, .stewards, .eng, .hbm, .poison, .win, .rcLines, .rcWb, .sf, .sfAge, .haIn, .homeOut, .leafMaj,
    .leafMin, .ccache, .hwm, .qps, .cfgWait, .helm]
def opFieldsLsRefuse : FSet :=
  ⟨(.HA_BACKINV_CNT_COUNT :: .HA_STAT_RECALL :: .HA_STAT_SF_LEVEL :: .HBM_ERR_ADDR_HI_ADDR :: .HBM_ERR_ADDR_LO_ADDR ::
    .HBM_ERR_CH :: .HBM_ERR_CODE :: .HBM_ERR_PC :: .HBM_ERR_SID :: .HBM_ERR_VALID :: .HIF_QP_DONE_CNT_COUNT ::
    .HIF_QP_STAT_STATE :: .LS_ERR_CODE :: .LS_ERR_SOURCE :: .LS_ERR_VALID :: .RC_HIT_CNT_COUNT :: .RC_MISS_CNT_COUNT ::
    .RC_SNP_CNT_COUNT :: .RC_STAT_RETAINED :: .RC_WB_CNT_COUNT :: .SEAL_CC_MISS_CNT_COUNT :: .SEAL_DENY_CNT_COUNT ::
    .SEAL_ERR_ADDR_HI_ADDR :: .SEAL_ERR_ADDR_LO_ADDR :: .SEAL_ERR_CODE :: .SEAL_ERR_LEVEL :: .SEAL_ERR_RANGE ::
    .SEAL_ERR_VALID :: .SEAL_OVF_CNT_COUNT :: .SEAL_RSTAT_FREEZE :: .SEAL_RSTAT_STATE :: []), [], [], false⟩

theorem State.lsRefuse_keeps {R : State → Prop} (hR : Keeps opPartsLsRefuse opFieldsLsRefuse R) (s : State) (m : Mail) (code rst : Nat)
    (hI : R s) : R (State.lsRefuse s m code rst) := by
  unfold State.lsRefuse
  try dsimp only
  repeat' first
    | with_reducible assumption
    | exact hR.sub
    | with_reducible apply rel_ite
    | with_reducible apply State.lsErr_keeps
    | with_reducible apply State.mailAnswer_keeps
    | dsimp only
    | intro _ _
    | intro _
    | contradiction
    | (unfold id)
    | split
    | (rename_i hh; injection hh with hh; subst hh)
    | (rename_i hh; split at hh)

def opPartsLsRefuseOpen : List Part :=
  [.regs, .out, .draws, .stewards, .eng, .hbm, .poison, .win, .rcLines, .rcWb, .sf, .sfAge, .haIn, .homeOut, .leafMaj,
    .leafMin, .ccache, .hwm, .qps, .cfgWait, .helm]
def opFieldsLsRefuseOpen : FSet :=
  ⟨(.HA_BACKINV_CNT_COUNT :: .HA_STAT_RECALL :: .HA_STAT_SF_LEVEL :: .HBM_ERR_ADDR_HI_ADDR :: .HBM_ERR_ADDR_LO_ADDR ::
    .HBM_ERR_CH :: .HBM_ERR_CODE :: .HBM_ERR_PC :: .HBM_ERR_SID :: .HBM_ERR_VALID :: .HIF_QP_DONE_CNT_COUNT ::
    .HIF_QP_STAT_STATE :: .LS_ERR_CODE :: .LS_ERR_SOURCE :: .LS_ERR_VALID :: .RC_HIT_CNT_COUNT :: .RC_MISS_CNT_COUNT ::
    .RC_SNP_CNT_COUNT :: .RC_STAT_RETAINED :: .RC_WB_CNT_COUNT :: .SEAL_CC_MISS_CNT_COUNT :: .SEAL_DENY_CNT_COUNT ::
    .SEAL_ERR_ADDR_HI_ADDR :: .SEAL_ERR_ADDR_LO_ADDR :: .SEAL_ERR_CODE :: .SEAL_ERR_LEVEL :: .SEAL_ERR_RANGE ::
    .SEAL_ERR_VALID :: .SEAL_OVF_CNT_COUNT :: .SEAL_RSTAT_FREEZE :: .SEAL_RSTAT_STATE :: []), [], [], false⟩

theorem State.lsRefuseOpen_keeps {R : State → Prop} (hR : Keeps opPartsLsRefuseOpen opFieldsLsRefuseOpen R) (s : State) (m : Mail) (rst : Nat)
    (hI : R s) : R (State.lsRefuseOpen s m rst) := by
  unfold State.lsRefuseOpen
  try dsimp only
  repeat' first
    | with_reducible assumption
    | exact hR.sub
    | with_reducible apply rel_ite
    | with_reducible apply State.draw_keeps
    | with_reducible apply State.lsRefuse_keeps
    | (refine State.draw_keeps_of hR.sub _ _ ?_ (by assumption))
    | dsimp only
    | intro _ _
    | intro _
    | contradiction
    | (unfold id)
    | split
    | (rename_i hh; injection hh with hh; subst hh)
    | (rename_i hh; split at hh)

def opPartsSenderRefused : List Part :=
  [.regs, .out, .draws, .stewards, .eng, .hbm, .poison, .win, .rcLines, .rcWb, .sf, .sfAge, .haIn, .homeOut, .leafMaj,
    .leafMin, .ccache, .hwm, .qps, .cfgWait, .helm]
def opFieldsSenderRefused : FSet :=
  ⟨(.HA_BACKINV_CNT_COUNT :: .HA_STAT_RECALL :: .HA_STAT_SF_LEVEL :: .HBM_ERR_ADDR_HI_ADDR :: .HBM_ERR_ADDR_LO_ADDR ::
    .HBM_ERR_CH :: .HBM_ERR_CODE :: .HBM_ERR_PC :: .HBM_ERR_SID :: .HBM_ERR_VALID :: .HIF_QP_DONE_CNT_COUNT ::
    .HIF_QP_STAT_STATE :: .LS_ERR_CODE :: .LS_ERR_SOURCE :: .LS_ERR_VALID :: .RC_HIT_CNT_COUNT :: .RC_MISS_CNT_COUNT ::
    .RC_SNP_CNT_COUNT :: .RC_STAT_RETAINED :: .RC_WB_CNT_COUNT :: .SEAL_CC_MISS_CNT_COUNT :: .SEAL_DENY_CNT_COUNT ::
    .SEAL_ERR_ADDR_HI_ADDR :: .SEAL_ERR_ADDR_LO_ADDR :: .SEAL_ERR_CODE :: .SEAL_ERR_LEVEL :: .SEAL_ERR_RANGE ::
    .SEAL_ERR_VALID :: .SEAL_OVF_CNT_COUNT :: .SEAL_RSTAT_FREEZE :: .SEAL_RSTAT_STATE :: []), [], [], false⟩

theorem State.senderRefused_keeps {R : State → Prop} (hR : Keeps opPartsSenderRefused opFieldsSenderRefused R) (s : State) (m : Mail)
    (hI : R s) : R (State.senderRefused s m) := by
  unfold State.senderRefused
  try dsimp only
  repeat' first
    | with_reducible assumption
    | exact hR.sub
    | with_reducible apply rel_ite
    | with_reducible apply State.lsRefuseOpen_keeps
    | with_reducible apply State.mailAnswer_keeps
    | dsimp only
    | intro _ _
    | intro _
    | contradiction
    | (unfold id)
    | split
    | (rename_i hh; injection hh with hh; subst hh)
    | (rename_i hh; split at hh)

def opPartsBadLength : List Part :=
  [.regs, .out, .draws, .stewards, .eng, .hbm, .poison, .win, .rcLines, .rcWb, .sf, .sfAge, .haIn, .homeOut, .leafMaj,
    .leafMin, .ccache, .hwm, .qps, .cfgWait, .helm]
def opFieldsBadLength : FSet :=
  ⟨(.HA_BACKINV_CNT_COUNT :: .HA_STAT_RECALL :: .HA_STAT_SF_LEVEL :: .HBM_ERR_ADDR_HI_ADDR :: .HBM_ERR_ADDR_LO_ADDR ::
    .HBM_ERR_CH :: .HBM_ERR_CODE :: .HBM_ERR_PC :: .HBM_ERR_SID :: .HBM_ERR_VALID :: .HIF_QP_DONE_CNT_COUNT ::
    .HIF_QP_STAT_STATE :: .LS_ERR_CODE :: .LS_ERR_SOURCE :: .LS_ERR_VALID :: .RC_HIT_CNT_COUNT :: .RC_MISS_CNT_COUNT ::
    .RC_SNP_CNT_COUNT :: .RC_STAT_RETAINED :: .RC_WB_CNT_COUNT :: .SEAL_CC_MISS_CNT_COUNT :: .SEAL_DENY_CNT_COUNT ::
    .SEAL_ERR_ADDR_HI_ADDR :: .SEAL_ERR_ADDR_LO_ADDR :: .SEAL_ERR_CODE :: .SEAL_ERR_LEVEL :: .SEAL_ERR_RANGE ::
    .SEAL_ERR_VALID :: .SEAL_OVF_CNT_COUNT :: .SEAL_RSTAT_FREEZE :: .SEAL_RSTAT_STATE :: []), [], [], false⟩

theorem State.badLength_keeps {R : State → Prop} (hR : Keeps opPartsBadLength opFieldsBadLength R) (s : State) (m : Mail)
    (hI : R s) : R (State.badLength s m) := by
  unfold State.badLength
  try dsimp only
  repeat' first
    | with_reducible assumption
    | exact hR.sub
    | with_reducible apply rel_ite
    | with_reducible apply State.lsRefuse_keeps
    | with_reducible apply State.mailAnswer_keeps
    | dsimp only
    | intro _ _
    | intro _
    | contradiction
    | (unfold id)
    | split
    | (rename_i hh; injection hh with hh; subst hh)
    | (rename_i hh; split at hh)

def opPartsMessage : List Part :=
  [.regs, .out, .draws, .stewards, .eng, .hbm, .poison, .win, .rcLines, .rcWb, .sf, .sfAge, .haIn, .homeOut, .leafMaj,
    .leafMin, .ccache, .hwm, .qps, .mail, .cfgWait, .helm]
def opFieldsMessage : FSet :=
  ⟨(.HA_BACKINV_CNT_COUNT :: .HA_STAT_RECALL :: .HA_STAT_SF_LEVEL :: .HBM_ERR_ADDR_HI_ADDR :: .HBM_ERR_ADDR_LO_ADDR ::
    .HBM_ERR_CH :: .HBM_ERR_CODE :: .HBM_ERR_PC :: .HBM_ERR_SID :: .HBM_ERR_VALID :: .HIF_QP_DONE_CNT_COUNT ::
    .HIF_QP_STAT_STATE :: .LS_ERR_CODE :: .LS_ERR_SOURCE :: .LS_ERR_VALID :: .RC_HIT_CNT_COUNT :: .RC_MISS_CNT_COUNT ::
    .RC_SNP_CNT_COUNT :: .RC_STAT_RETAINED :: .RC_WB_CNT_COUNT :: .SEAL_CC_MISS_CNT_COUNT :: .SEAL_DENY_CNT_COUNT ::
    .SEAL_ERR_ADDR_HI_ADDR :: .SEAL_ERR_ADDR_LO_ADDR :: .SEAL_ERR_CODE :: .SEAL_ERR_LEVEL :: .SEAL_ERR_RANGE ::
    .SEAL_ERR_VALID :: .SEAL_OVF_CNT_COUNT :: .SEAL_RSTAT_FREEZE :: .SEAL_RSTAT_STATE :: []), [], [], false⟩

theorem State.message_keeps {R : State → Prop} (hR : Keeps opPartsMessage opFieldsMessage R) (s : State) (n code : Nat) (admin : Bool) (len : Nat → Bool) (k : Mail → State → State)
    (hI : R s) (hk : ∀ y0 s, R s → R (k y0 s)) : R (State.message s n code admin len k) := by
  unfold State.message
  try dsimp only
  repeat' first
    | with_reducible assumption
    | exact hR.sub
    | exact fun h => memWf_memStore h
    | exact fun h => memWf_memPut h
    | exact fun h => memWf_filter _ h
    | exact fun _ => rfl
    | with_reducible apply rel_ite
    | (with_reducible apply hk)
    | with_reducible apply State.badLength_keeps
    | with_reducible apply State.senderRefused_keeps
    | fail_if_no_progress (with_reducible apply hR.upd; all_goals try first | with_reducible exact .inr rfl | exact .inl (by decide +kernel) | exact id)
    | dsimp only
    | intro _ _
    | intro _
    | contradiction
    | (unfold id)
    | split
    | (rename_i hh; injection hh with hh; subst hh)
    | (rename_i hh; split at hh)

theorem execAttest_keeps {R : State → Prop} (hR : Keeps partsAttest fieldsAttest R) (n : Fin 2048) (s : State)
    (hI : R s) {tT : State} (eE : execAttest n s = .next tT) : R tT := by
  unfold execAttest at eE
  try dsimp only at eE
  repeat' split at eE
  all_goals try (injection eE with eE; subst eE)
  all_goals repeat' first
    | with_reducible assumption
    | exact hR.sub
    | with_reducible apply rel_ite
    | with_reducible apply State.dirNext_keeps
    | with_reducible apply State.flashMessage_keeps
    | with_reducible apply State.lsRefuse_keeps
    | with_reducible apply State.mailAnswer_keeps
    | with_reducible apply State.message_keeps
    | with_reducible apply State.packageReset_keeps
    | with_reducible apply State.powerOn_keeps
    | with_reducible apply State.reach_keeps
    | dsimp only
    | intro _ _
    | intro _
    | contradiction
    | (unfold id)
    | split
    | (rename_i hh; injection hh with hh; subst hh)
    | (rename_i hh; split at hh)

theorem execGetCerts_keeps {R : State → Prop} (hR : Keeps partsGetCerts fieldsGetCerts R) (n : Fin 2048) (s : State)
    (hI : R s) {tT : State} (eE : execGetCerts n s = .next tT) : R tT := by
  unfold execGetCerts at eE
  try dsimp only at eE
  repeat' split at eE
  all_goals try (injection eE with eE; subst eE)
  all_goals repeat' first
    | with_reducible assumption
    | exact hR.sub
    | with_reducible apply rel_ite
    | with_reducible apply State.dirNext_keeps
    | with_reducible apply State.flashMessage_keeps
    | with_reducible apply State.lsRefuse_keeps
    | with_reducible apply State.mailAnswer_keeps
    | with_reducible apply State.message_keeps
    | with_reducible apply State.packageReset_keeps
    | with_reducible apply State.powerOn_keeps
    | with_reducible apply State.reach_keeps
    | dsimp only
    | intro _ _
    | intro _
    | contradiction
    | (unfold id)
    | split
    | (rename_i hh; injection hh with hh; subst hh)
    | (rename_i hh; split at hh)

theorem State.setSession_keeps {R : State → Prop} (hR : Keeps [.sessions] ⟨[], [], [], false⟩ R) (s : State) (v : Nat) (x : Option LsSession)
    (hI : R s) : R (State.setSession s v x) := by
  unfold State.setSession
  try dsimp only
  repeat' first
    | with_reducible assumption
    | exact hR.sub
    | exact fun h => memWf_memStore h
    | exact fun h => memWf_memPut h
    | exact fun h => memWf_filter _ h
    | exact fun _ => rfl
    | with_reducible apply rel_ite
    | fail_if_no_progress (with_reducible apply hR.upd; all_goals try first | with_reducible exact .inr rfl | exact .inl (by decide +kernel) | exact id)
    | dsimp only
    | intro _ _
    | intro _
    | contradiction
    | (unfold id)
    | split
    | (rename_i hh; injection hh with hh; subst hh)
    | (rename_i hh; split at hh)

theorem execSessionOpen_keeps {R : State → Prop} (hR : Keeps partsSessionOpen fieldsSessionOpen R) (n : Fin 2048) (s : State)
    (hI : R s) {tT : State} (eE : execSessionOpen n s = .next tT) : R tT := by
  unfold execSessionOpen at eE
  try dsimp only at eE
  repeat' split at eE
  all_goals try (injection eE with eE; subst eE)
  all_goals repeat' first
    | with_reducible assumption
    | exact hR.sub
    | exact fun h => memWf_memStore h
    | exact fun h => memWf_memPut h
    | exact fun h => memWf_filter _ h
    | exact fun _ => rfl
    | with_reducible apply rel_ite
    | with_reducible apply State.dirNext_keeps
    | with_reducible apply State.draw_keeps
    | with_reducible apply State.flashMessage_keeps
    | with_reducible apply State.lsRefuse_keeps
    | with_reducible apply State.mailAnswer_keeps
    | with_reducible apply State.message_keeps
    | with_reducible apply State.packageReset_keeps
    | with_reducible apply State.powerOn_keeps
    | with_reducible apply State.reach_keeps
    | with_reducible apply State.setSession_keeps
    | (refine State.draw_keeps_of hR.sub _ _ ?_ (by assumption))
    | fail_if_no_progress (with_reducible apply hR.upd; all_goals try first | with_reducible exact .inr rfl | exact .inl (by decide +kernel) | exact id)
    | dsimp only
    | intro _ _
    | intro _
    | contradiction
    | (unfold id)
    | split
    | (rename_i hh; injection hh with hh; subst hh)
    | (rename_i hh; split at hh)

theorem execKeyDeposit_keeps {R : State → Prop} (hR : Keeps partsKeyDeposit fieldsKeyDeposit R) (n : Fin 2048) (s : State)
    (hI : R s) {tT : State} (eE : execKeyDeposit n s = .next tT) : R tT := by
  unfold execKeyDeposit at eE
  try dsimp only at eE
  repeat' split at eE
  all_goals try (injection eE with eE; subst eE)
  all_goals repeat' first
    | with_reducible assumption
    | exact hR.sub
    | exact fun h => memWf_memStore h
    | exact fun h => memWf_memPut h
    | exact fun h => memWf_filter _ h
    | exact fun _ => rfl
    | with_reducible apply rel_ite
    | with_reducible apply State.dirNext_keeps
    | with_reducible apply State.flashMessage_keeps
    | with_reducible apply State.mailAnswer_keeps
    | with_reducible apply State.message_keeps
    | with_reducible apply State.packageReset_keeps
    | with_reducible apply State.powerOn_keeps
    | with_reducible apply State.reach_keeps
    | with_reducible apply State.senderRefused_keeps
    | with_reducible apply State.setSession_keeps
    | fail_if_no_progress (with_reducible apply hR.upd; all_goals try first | with_reducible exact .inr rfl | exact .inl (by decide +kernel) | exact id)
    | dsimp only
    | intro _ _
    | intro _
    | contradiction
    | (unfold id)
    | split
    | (rename_i hh; injection hh with hh; subst hh)
    | (rename_i hh; split at hh)

theorem execSessionClose_keeps {R : State → Prop} (hR : Keeps partsSessionClose fieldsSessionClose R) (n : Fin 2048) (s : State)
    (hI : R s) {tT : State} (eE : execSessionClose n s = .next tT) : R tT := by
  unfold execSessionClose at eE
  try dsimp only at eE
  repeat' split at eE
  all_goals try (injection eE with eE; subst eE)
  all_goals repeat' first
    | with_reducible assumption
    | exact hR.sub
    | exact fun h => memWf_memStore h
    | exact fun h => memWf_memPut h
    | exact fun h => memWf_filter _ h
    | exact fun _ => rfl
    | with_reducible apply rel_ite
    | with_reducible apply State.dirNext_keeps
    | with_reducible apply State.flashMessage_keeps
    | with_reducible apply State.mailAnswer_keeps
    | with_reducible apply State.message_keeps
    | with_reducible apply State.packageReset_keeps
    | with_reducible apply State.powerOn_keeps
    | with_reducible apply State.reach_keeps
    | with_reducible apply State.senderRefused_keeps
    | with_reducible apply State.setSession_keeps
    | fail_if_no_progress (with_reducible apply hR.upd; all_goals try first | with_reducible exact .inr rfl | exact .inl (by decide +kernel) | exact id)
    | dsimp only
    | intro _ _
    | intro _
    | contradiction
    | (unfold id)
    | split
    | (rename_i hh; injection hh with hh; subst hh)
    | (rename_i hh; split at hh)

theorem execSessionIdleTimeout_keeps {R : State → Prop} (hR : Keeps partsSessionIdleTimeout fieldsSessionIdleTimeout R) (v : Fin 256) (s : State)
    (hI : R s) {tT : State} (eE : execSessionIdleTimeout v s = .next tT) : R tT := by
  unfold execSessionIdleTimeout at eE
  try dsimp only at eE
  repeat' split at eE
  all_goals try (injection eE with eE; subst eE)
  all_goals repeat' first
    | with_reducible assumption
    | exact hR.sub
    | exact fun h => memWf_memStore h
    | exact fun h => memWf_memPut h
    | exact fun h => memWf_filter _ h
    | exact fun _ => rfl
    | with_reducible apply rel_ite
    | with_reducible apply State.dirNext_keeps
    | with_reducible apply State.flashMessage_keeps
    | with_reducible apply State.lapseTo_keeps
    | with_reducible apply State.message_keeps
    | with_reducible apply State.packageReset_keeps
    | with_reducible apply State.powerOn_keeps
    | with_reducible apply State.reach_keeps
    | with_reducible apply State.setSession_keeps
    | fail_if_no_progress (with_reducible apply hR.upd; all_goals try first | with_reducible exact .inr rfl | exact .inl (by decide +kernel) | exact id)
    | dsimp only
    | intro _ _
    | intro _
    | contradiction
    | (unfold id)
    | split
    | (rename_i hh; injection hh with hh; subst hh)
    | (rename_i hh; split at hh)

theorem State.arbAdvance_keeps {R : State → Prop} (hR : Keeps [.regs, .stewards, .health] ⟨[.LS_ARB_SPENT, .LS_ARB_VALUE, .MGMT_HEALTH_STAGE, .MGMT_HEALTH_ZERO], [], [], false⟩ R) (s : State) (c v : Nat)
    (hI : R s) : R (State.arbAdvance s c v) := by
  unfold State.arbAdvance
  try dsimp only
  repeat' first
    | with_reducible assumption
    | exact hR.sub
    | with_reducible apply rel_ite
    | with_reducible refine hR.wr _ _ _ (by decide +kernel) (by first | decide +kernel | exact hasFld_self _ _ | exact hasFld_all _ | (simp [hasFld]; done) ) ?_
    | with_reducible apply State.notice_keeps
    | dsimp only
    | intro _ _
    | intro _
    | contradiction
    | (unfold id)
    | split
    | (rename_i hh; injection hh with hh; subst hh)
    | (rename_i hh; split at hh)

theorem execCounterCommit_keeps {R : State → Prop} (hR : Keeps partsCounterCommit fieldsCounterCommit R) (n : Fin 2048) (stop : Option (BitVec 7 × Bool)) (s : State)
    (hI : R s) {tT : State} (eE : execCounterCommit n stop s = .next tT) : R tT := by
  unfold execCounterCommit at eE
  try dsimp only at eE
  repeat' split at eE
  all_goals try (injection eE with eE; subst eE)
  all_goals repeat' first
    | with_reducible assumption
    | exact hR.sub
    | exact fun h => memWf_memStore h
    | exact fun h => memWf_memPut h
    | exact fun h => memWf_filter _ h
    | exact fun _ => rfl
    | with_reducible apply rel_ite
    | with_reducible apply State.arbAdvance_keeps
    | with_reducible apply State.dirNext_keeps
    | with_reducible apply State.flashMessage_keeps
    | with_reducible apply State.lsRefuse_keeps
    | with_reducible apply State.mailAnswer_keeps
    | with_reducible apply State.message_keeps
    | with_reducible apply State.packageReset_keeps
    | with_reducible apply State.powerOn_keeps
    | with_reducible apply State.reach_keeps
    | fail_if_no_progress (with_reducible apply hR.upd; all_goals try first | with_reducible exact .inr rfl | exact .inl (by decide +kernel) | exact id)
    | dsimp only
    | intro _ _
    | intro _
    | contradiction
    | (unfold id)
    | split
    | (rename_i hh; injection hh with hh; subst hh)
    | (rename_i hh; split at hh)

theorem State.lifecycleTo_keeps {R : State → Prop} (hR : Keeps [.regs] ⟨[.LS_DBG_STAT_JTAG_LEVEL, .LS_DBG_STAT_PCIE_LEVEL, .LS_STAT_LIFECYCLE], [], [], false⟩ R) (s : State) (x : Nat)
    (hI : R s) : R (State.lifecycleTo s x) := by
  unfold State.lifecycleTo
  try dsimp only
  repeat' first
    | with_reducible assumption
    | exact hR.sub
    | with_reducible apply rel_ite
    | with_reducible refine hR.wr _ _ _ (by decide +kernel) (by first | decide +kernel | exact hasFld_self _ _ | exact hasFld_all _ | (simp [hasFld]; done) ) ?_
    | dsimp only
    | intro _ _
    | intro _
    | contradiction
    | (unfold id)
    | split
    | (rename_i hh; injection hh with hh; subst hh)
    | (rename_i hh; split at hh)

theorem State.fuse_keeps {R : State → Prop} (hR : Keeps [.lsFuse] ⟨[], [], [], false⟩ R) (s : State) (bank item v : Nat)
    (hI : R s) : R (State.fuse s bank item v) := by
  unfold State.fuse
  try dsimp only
  repeat' first
    | with_reducible assumption
    | exact hR.sub
    | exact fun h => memWf_memStore h
    | exact fun h => memWf_memPut h
    | exact fun h => memWf_filter _ h
    | exact fun _ => rfl
    | with_reducible apply rel_ite
    | fail_if_no_progress (with_reducible apply hR.upd; all_goals try first | with_reducible exact .inr rfl | exact .inl (by decide +kernel) | exact id)
    | dsimp only
    | intro _ _
    | intro _
    | contradiction
    | (unfold id)
    | split
    | (rename_i hh; injection hh with hh; subst hh)
    | (rename_i hh; split at hh)

theorem State.ownerFuses_keeps {R : State → Prop} (hR : Keeps [.lsFuse] ⟨[], [], [], false⟩ R) (s : State) (m : Mail) (k kek : Nat)
    (hI : R s) : R (State.ownerFuses s m k kek) := by
  unfold State.ownerFuses
  try dsimp only
  repeat' first
    | with_reducible assumption
    | exact hR.sub
    | with_reducible apply rel_ite
    | with_reducible apply State.fuse_keeps
    | (with_reducible apply rel_foldl; intro _ _ _)
    | (with_reducible apply rel_foldl2; intro _ _ _)
    | (with_reducible apply rel_foldl3; intro _ _ _)
    | (with_reducible apply rel_foldl1; intro _ _ _)
    | dsimp only
    | intro _ _
    | intro _
    | contradiction
    | (unfold id)
    | split
    | (rename_i hh; injection hh with hh; subst hh)
    | (rename_i hh; split at hh)

theorem execTakeOwnership_keeps {R : State → Prop} (hR : Keeps partsTakeOwnership fieldsTakeOwnership R) (n : Fin 2048) (kek : Option (BitVec 256)) (how : Fin 3) (s : State)
    (hI : R s) {tT : State} (eE : execTakeOwnership n kek how s = .next tT) : R tT := by
  unfold execTakeOwnership at eE
  try dsimp only at eE
  repeat' split at eE
  all_goals try (injection eE with eE; subst eE)
  all_goals repeat' first
    | with_reducible assumption
    | exact hR.sub
    | exact fun h => memWf_memStore h
    | exact fun h => memWf_memPut h
    | exact fun h => memWf_filter _ h
    | exact fun _ => rfl
    | with_reducible apply rel_ite
    | with_reducible refine hR.wr _ _ _ (by decide +kernel) (by first | decide +kernel | exact hasFld_self _ _ | exact hasFld_all _ | (simp [hasFld]; done) ) ?_
    | with_reducible apply State.dirNext_keeps
    | with_reducible apply State.flashMessage_keeps
    | with_reducible apply State.lifecycleTo_keeps
    | with_reducible apply State.lsRefuse_keeps
    | with_reducible apply State.mailAnswer_keeps
    | with_reducible apply State.message_keeps
    | with_reducible apply State.ownerFuses_keeps
    | with_reducible apply State.packageReset_keeps
    | with_reducible apply State.powerOn_keeps
    | with_reducible apply State.reach_keeps
    | with_reducible apply State.setSession_keeps
    | fail_if_no_progress (with_reducible apply hR.upd; all_goals try first | with_reducible exact .inr rfl | exact .inl (by decide +kernel) | exact id)
    | dsimp only
    | intro _ _
    | intro _
    | contradiction
    | (unfold id)
    | split
    | (rename_i hh; injection hh with hh; subst hh)
    | (rename_i hh; split at hh)

theorem execRevokeOwnerKey_keeps {R : State → Prop} (hR : Keeps partsRevokeOwnerKey fieldsRevokeOwnerKey R) (n : Fin 2048) (by_ : Option (Fin 4)) (fuseOk : Bool) (s : State)
    (hI : R s) {tT : State} (eE : execRevokeOwnerKey n by_ fuseOk s = .next tT) : R tT := by
  unfold execRevokeOwnerKey at eE
  try dsimp only at eE
  repeat' split at eE
  all_goals try (injection eE with eE; subst eE)
  all_goals repeat' first
    | with_reducible assumption
    | exact hR.sub
    | exact fun h => memWf_memStore h
    | exact fun h => memWf_memPut h
    | exact fun h => memWf_filter _ h
    | exact fun _ => rfl
    | exact hR.sub (by decide +kernel) (subFld_self _ _)
    | with_reducible apply rel_ite
    | with_reducible apply State.dirNext_keeps
    | with_reducible apply State.flashMessage_keeps
    | with_reducible apply State.fuse_keeps
    | with_reducible apply State.lsRefuse_keeps
    | with_reducible apply State.mailAnswer_keeps
    | with_reducible apply State.message_keeps
    | with_reducible apply State.packageReset_keeps
    | with_reducible apply State.powerOn_keeps
    | with_reducible apply State.reach_keeps
    | with_reducible apply State.setBit_keeps
    | fail_if_no_progress (with_reducible apply hR.upd; all_goals try first | with_reducible exact .inr rfl | exact .inl (by decide +kernel) | exact id)
    | dsimp only
    | intro _ _
    | intro _
    | contradiction
    | (unfold id)
    | split
    | (rename_i hh; injection hh with hh; subst hh)
    | (rename_i hh; split at hh)

theorem execRetire_keeps {R : State → Prop} (hR : Keeps partsRetire fieldsRetire R) (n : Fin 2048) (by_ : Option (Fin 4)) (s : State)
    (hI : R s) {tT : State} (eE : execRetire n by_ s = .next tT) : R tT := by
  unfold execRetire at eE
  try dsimp only at eE
  repeat' split at eE
  all_goals try (injection eE with eE; subst eE)
  all_goals repeat' first
    | with_reducible assumption
    | exact hR.sub
    | exact fun h => memWf_memStore h
    | exact fun h => memWf_memPut h
    | exact fun h => memWf_filter _ h
    | exact fun _ => rfl
    | with_reducible apply rel_ite
    | with_reducible apply State.dirNext_keeps
    | with_reducible apply State.flashMessage_keeps
    | with_reducible apply State.fuse_keeps
    | with_reducible apply State.lifecycleTo_keeps
    | with_reducible apply State.lsRefuse_keeps
    | with_reducible apply State.message_keeps
    | with_reducible apply State.packageReset_keeps
    | with_reducible apply State.powerOn_keeps
    | with_reducible apply State.reach_keeps
    | fail_if_no_progress (with_reducible apply hR.upd; all_goals try first | with_reducible exact .inr rfl | exact .inl (by decide +kernel) | exact id)
    | dsimp only
    | intro _ _
    | intro _
    | contradiction
    | (unfold id)
    | split
    | (rename_i hh; injection hh with hh; subst hh)
    | (rename_i hh; split at hh)

theorem State.setPel_keeps {R : State → Prop} (hR : Keeps [.pel] ⟨[], [], [], false⟩ R) (s : State) (p : Nat) (x : PelRt)
    (hI : R s) : R (State.setPel s p x) := by
  unfold State.setPel
  try dsimp only
  repeat' first
    | with_reducible assumption
    | exact hR.sub
    | exact fun h => memWf_memStore h
    | exact fun h => memWf_memPut h
    | exact fun h => memWf_filter _ h
    | exact fun _ => rfl
    | with_reducible apply rel_ite
    | fail_if_no_progress (with_reducible apply hR.upd; all_goals try first | with_reducible exact .inr rfl | exact .inl (by decide +kernel) | exact id)
    | dsimp only
    | intro _ _
    | intro _
    | contradiction
    | (unfold id)
    | split
    | (rename_i hh; injection hh with hh; subst hh)
    | (rename_i hh; split at hh)

theorem execTrngHealthFail_keeps {R : State → Prop} (hR : Keeps partsTrngHealthFail fieldsTrngHealthFail R) (s : State)
    (hI : R s) {tT : State} (eE : execTrngHealthFail s = .next tT) : R tT := by
  unfold execTrngHealthFail at eE
  try dsimp only at eE
  repeat' split at eE
  all_goals try (injection eE with eE; subst eE)
  all_goals repeat' first
    | with_reducible assumption
    | exact hR.sub
    | exact fun h => memWf_memStore h
    | exact fun h => memWf_memPut h
    | exact fun h => memWf_filter _ h
    | exact fun _ => rfl
    | with_reducible apply rel_ite
    | with_reducible refine hR.wr _ _ _ (by decide +kernel) (by first | decide +kernel | exact hasFld_self _ _ | exact hasFld_all _ | (simp [hasFld]; done) ) ?_
    | with_reducible apply State.dirNext_keeps
    | with_reducible apply State.flashMessage_keeps
    | with_reducible apply State.message_keeps
    | with_reducible apply State.packageReset_keeps
    | with_reducible apply State.powerOn_keeps
    | with_reducible apply State.raise_keeps
    | with_reducible apply State.reach_keeps
    | fail_if_no_progress (with_reducible apply hR.upd; all_goals try first | with_reducible exact .inr rfl | exact .inl (by decide +kernel) | exact id)
    | dsimp only
    | intro _ _
    | intro _
    | contradiction
    | (unfold id)
    | split
    | (rename_i hh; injection hh with hh; subst hh)
    | (rename_i hh; split at hh)

theorem State.giveChallenge_keeps {R : State → Prop} (hR : Keeps [.regs, .draws, .pel] ⟨[.PEL_AUTH_STAT_BUSY], [], [], false⟩ R) (s : State) (p : Nat)
    (hI : R s) : R (State.giveChallenge s p) := by
  unfold State.giveChallenge
  try dsimp only
  repeat' first
    | with_reducible assumption
    | exact hR.sub
    | exact fun h => memWf_memStore h
    | exact fun h => memWf_memPut h
    | exact fun h => memWf_filter _ h
    | exact fun _ => rfl
    | with_reducible apply rel_ite
    | with_reducible refine hR.wr _ _ _ (by decide +kernel) (by first | decide +kernel | exact hasFld_self _ _ | exact hasFld_all _ | (simp [hasFld]; done) ) ?_
    | with_reducible apply State.draw_keeps
    | with_reducible apply State.setPel_keeps
    | (refine State.draw_keeps_of hR.sub _ _ ?_ (by assumption))
    | fail_if_no_progress (with_reducible apply hR.upd; all_goals try first | with_reducible exact .inr rfl | exact .inl (by decide +kernel) | exact id)
    | dsimp only
    | intro _ _
    | intro _
    | contradiction
    | (unfold id)
    | split
    | (rename_i hh; injection hh with hh; subst hh)
    | (rename_i hh; split at hh)

theorem execTrngHealthRecover_keeps {R : State → Prop} (hR : Keeps partsTrngHealthRecover fieldsTrngHealthRecover R) (s : State)
    (hI : R s) {tT : State} (eE : execTrngHealthRecover s = .next tT) : R tT := by
  unfold execTrngHealthRecover at eE
  try dsimp only at eE
  repeat' split at eE
  all_goals try (injection eE with eE; subst eE)
  all_goals repeat' first
    | with_reducible assumption
    | exact hR.sub
    | exact fun h => memWf_memStore h
    | exact fun h => memWf_memPut h
    | exact fun h => memWf_filter _ h
    | exact fun _ => rfl
    | with_reducible apply rel_ite
    | with_reducible refine hR.wr _ _ _ (by decide +kernel) (by first | decide +kernel | exact hasFld_self _ _ | exact hasFld_all _ | (simp [hasFld]; done) ) ?_
    | with_reducible apply State.dirNext_keeps
    | with_reducible apply State.flashMessage_keeps
    | with_reducible apply State.giveChallenge_keeps
    | with_reducible apply State.message_keeps
    | with_reducible apply State.packageReset_keeps
    | with_reducible apply State.powerOn_keeps
    | with_reducible apply State.reach_keeps
    | (with_reducible apply rel_foldl; intro _ _ _)
    | (with_reducible apply rel_foldl2; intro _ _ _)
    | (with_reducible apply rel_foldl3; intro _ _ _)
    | (with_reducible apply rel_foldl1; intro _ _ _)
    | fail_if_no_progress (with_reducible apply hR.upd; all_goals try first | with_reducible exact .inr rfl | exact .inl (by decide +kernel) | exact id)
    | dsimp only
    | intro _ _
    | intro _
    | contradiction
    | (unfold id)
    | split
    | (rename_i hh; injection hh with hh; subst hh)
    | (rename_i hh; split at hh)

theorem execTrngWaitTimeout_keeps {R : State → Prop} (hR : Keeps partsTrngWaitTimeout fieldsTrngWaitTimeout R) (st : Option (Fin 4)) (s : State)
    (hI : R s) {tT : State} (eE : execTrngWaitTimeout st s = .next tT) : R tT := by
  unfold execTrngWaitTimeout at eE
  try dsimp only at eE
  repeat' split at eE
  all_goals try (injection eE with eE; subst eE)
  all_goals repeat' first
    | with_reducible assumption
    | exact hR.sub
    | exact fun h => memWf_memStore h
    | exact fun h => memWf_memPut h
    | exact fun h => memWf_filter _ h
    | exact fun _ => rfl
    | with_reducible apply rel_ite
    | with_reducible refine hR.wr _ _ _ (by decide +kernel) (by first | decide +kernel | exact hasFld_self _ _ | exact hasFld_all _ | (simp [hasFld]; done) ) ?_
    | with_reducible apply State.dirNext_keeps
    | with_reducible apply State.draw_keeps
    | with_reducible apply State.flashMessage_keeps
    | with_reducible apply State.lapseTo_keeps
    | with_reducible apply State.lsErr_keeps
    | with_reducible apply State.message_keeps
    | with_reducible apply State.packageReset_keeps
    | with_reducible apply State.powerOn_keeps
    | with_reducible apply State.reach_keeps
    | (refine State.draw_keeps_of hR.sub _ _ ?_ (by assumption))
    | fail_if_no_progress (with_reducible apply hR.upd; all_goals try first | with_reducible exact .inr rfl | exact .inl (by decide +kernel) | exact id)
    | dsimp only
    | intro _ _
    | intro _
    | contradiction
    | (unfold id)
    | split
    | (rename_i hh; injection hh with hh; subst hh)
    | (rename_i hh; split at hh)

theorem State.pelBlock_keeps {R : State → Prop} (hR : Keeps [.stewards] ⟨[], [], [], false⟩ R) (s : State) (p : PelSrc) (r : Reg) (i : List Nat) (v : Nat) (k : State → State)
    (hI : R s) (hk : ∀  s, R s → R (k  s)) : R (State.pelBlock s p r i v k) := by
  unfold State.pelBlock
  try dsimp only
  repeat' first
    | with_reducible assumption
    | exact hR.sub
    | with_reducible apply rel_ite
    | (with_reducible apply hk)
    | with_reducible apply State.drop_keeps
    | dsimp only
    | intro _ _
    | intro _
    | contradiction
    | (unfold id)
    | split
    | (rename_i hh; injection hh with hh; subst hh)
    | (rename_i hh; split at hh)

theorem State.authCmd_keeps {R : State → Prop} (hR : Keeps [.regs, .stewards] ⟨[.PEL_AUTH_LEVEL], [], [], false⟩ R) (s : State) (p : PelSrc) (l cmd : Nat) (k : State → State)
    (hI : R s) (hk : ∀  s, R s → R (k  s)) : R (State.authCmd s p l cmd k) := by
  unfold State.authCmd
  try dsimp only
  repeat' first
    | with_reducible assumption
    | exact hR.sub
    | with_reducible apply rel_ite
    | (with_reducible apply hk)
    | with_reducible refine hR.wr _ _ _ (by decide +kernel) (by first | decide +kernel | exact hasFld_self _ _ | exact hasFld_all _ | (simp [hasFld]; done) ) ?_
    | with_reducible apply State.drop_keeps
    | with_reducible apply State.pelBlock_keeps
    | dsimp only
    | intro _ _
    | intro _
    | contradiction
    | (unfold id)
    | split
    | (rename_i hh; injection hh with hh; subst hh)
    | (rename_i hh; split at hh)

theorem execDebugChallenge_keeps {R : State → Prop} (hR : Keeps partsDebugChallenge fieldsDebugChallenge R) (p : PelSrc) (l : BitVec 2) (s : State)
    (hI : R s) {tT : State} (eE : execDebugChallenge p l s = .next tT) : R tT := by
  unfold execDebugChallenge at eE
  try dsimp only at eE
  repeat' split at eE
  all_goals try (injection eE with eE; subst eE)
  all_goals repeat' first
    | with_reducible assumption
    | exact hR.sub
    | exact fun h => memWf_memStore h
    | exact fun h => memWf_memPut h
    | exact fun h => memWf_filter _ h
    | exact fun _ => rfl
    | with_reducible apply rel_ite
    | with_reducible refine hR.wr _ _ _ (by decide +kernel) (by first | decide +kernel | exact hasFld_self _ _ | exact hasFld_all _ | (simp [hasFld]; done) ) ?_
    | with_reducible apply State.authCmd_keeps
    | with_reducible apply State.dirNext_keeps
    | with_reducible apply State.flashMessage_keeps
    | with_reducible apply State.giveChallenge_keeps
    | with_reducible apply State.message_keeps
    | with_reducible apply State.packageReset_keeps
    | with_reducible apply State.powerOn_keeps
    | with_reducible apply State.reach_keeps
    | with_reducible apply State.setPel_keeps
    | fail_if_no_progress (with_reducible apply hR.upd; all_goals try first | with_reducible exact .inr rfl | exact .inl (by decide +kernel) | exact id)
    | dsimp only
    | intro _ _
    | intro _
    | contradiction
    | (unfold id)
    | split
    | (rename_i hh; injection hh with hh; subst hh)
    | (rename_i hh; split at hh)

theorem State.attemptOver_keeps {R : State → Prop} (hR : Keeps [.regs, .pel] ⟨[.PEL_AUTH_STAT_OK], [], [], false⟩ R) (s : State) (p : Nat) (ok : Bool)
    (hI : R s) : R (State.attemptOver s p ok) := by
  unfold State.attemptOver
  try dsimp only
  repeat' first
    | with_reducible assumption
    | exact hR.sub
    | exact fun h => memWf_memStore h
    | exact fun h => memWf_memPut h
    | exact fun h => memWf_filter _ h
    | exact fun _ => rfl
    | with_reducible apply rel_ite
    | with_reducible refine hR.wr _ _ _ (by decide +kernel) (by first | decide +kernel | exact hasFld_self _ _ | exact hasFld_all _ | (simp [hasFld]; done) ) ?_
    | with_reducible apply State.setPel_keeps
    | fail_if_no_progress (with_reducible apply hR.upd; all_goals try first | with_reducible exact .inr rfl | exact .inl (by decide +kernel) | exact id)
    | dsimp only
    | intro _ _
    | intro _
    | contradiction
    | (unfold id)
    | split
    | (rename_i hh; injection hh with hh; subst hh)
    | (rename_i hh; split at hh)

theorem State.attemptFails_keeps {R : State → Prop} (hR : Keeps [.regs, .draws, .stewards, .dbgWait, .pel] ⟨[.LS_DBG_STAT_FAILS, .LS_ERR_CODE, .LS_ERR_SOURCE, .LS_ERR_VALID, .PEL_AUTH_STAT_OK], [], [], false⟩ R) (s : State) (p : Nat) (code : Option Nat)
    (hI : R s) : R (State.attemptFails s p code) := by
  unfold State.attemptFails
  try dsimp only
  repeat' first
    | with_reducible assumption
    | exact hR.sub
    | exact fun h => memWf_memStore h
    | exact fun h => memWf_memPut h
    | exact fun h => memWf_filter _ h
    | exact fun _ => rfl
    | exact hR.sub (by decide +kernel) (subFld_self _ _)
    | with_reducible apply rel_ite
    | with_reducible apply State.attemptOver_keeps
    | with_reducible apply State.bump_keeps
    | with_reducible apply State.draw_keeps
    | with_reducible apply State.lsErr_keeps
    | (refine State.draw_keeps_of hR.sub _ _ ?_ (by assumption))
    | fail_if_no_progress (with_reducible apply hR.upd; all_goals try first | with_reducible exact .inr rfl | exact .inl (by decide +kernel) | exact id)
    | dsimp only
    | intro _ _
    | intro _
    | contradiction
    | (unfold id)
    | split
    | (rename_i hh; injection hh with hh; subst hh)
    | (rename_i hh; split at hh)

theorem State.attemptWins_keeps {R : State → Prop} (hR : Keeps [.regs, .pel] ⟨[.LS_DBG_STAT_FAILS, .LS_DBG_STAT_JTAG_LEVEL, .LS_DBG_STAT_PCIE_LEVEL, .LS_DBG_STAT_USED, .PEL_AUTH_STAT_OK], [], [], false⟩ R) (s : State) (p l : Nat)
    (hI : R s) : R (State.attemptWins s p l) := by
  unfold State.attemptWins
  try dsimp only
  repeat' first
    | with_reducible assumption
    | exact hR.sub
    | exact hR.sub (by decide +kernel) (subFld_self _ _)
    | exact hR.sub (by decide +kernel) (by unfold levelFld; split <;> decide +kernel)
    | with_reducible apply rel_ite
    | with_reducible refine hR.wr _ _ _ (by decide +kernel) (by first | decide +kernel | exact hasFld_self _ _ | exact hasFld_all _ | (simp [hasFld]; done) | (unfold levelFld; split <;> decide +kernel)) ?_
    | with_reducible apply State.attemptOver_keeps
    | with_reducible apply State.setBit_keeps
    | dsimp only
    | intro _ _
    | intro _
    | contradiction
    | (unfold id)
    | split
    | (rename_i hh; injection hh with hh; subst hh)
    | (rename_i hh; split at hh)

def opFieldsAttempt : FSet :=
  ⟨[.LS_DBG_STAT_FAILS, .LS_DBG_STAT_JTAG_LEVEL, .LS_DBG_STAT_PCIE_LEVEL, .LS_DBG_STAT_USED, .LS_ERR_CODE,
    .LS_ERR_SOURCE, .LS_ERR_VALID, .PEL_AUTH_STAT_OK], [], [], false⟩

theorem State.attempt_keeps {R : State → Prop} (hR : Keeps [.regs, .draws, .stewards, .dbgWait, .pel] opFieldsAttempt R) (s : State) (p l : Nat) (judge : State → Option (Option Nat))
    (hI : R s) : R (State.attempt s p l judge) := by
  unfold State.attempt
  try dsimp only
  repeat' first
    | with_reducible assumption
    | exact hR.sub
    | exact fun h => memWf_memStore h
    | exact fun h => memWf_memPut h
    | exact fun h => memWf_filter _ h
    | exact fun _ => rfl
    | with_reducible apply rel_ite
    | with_reducible apply State.attemptFails_keeps
    | with_reducible apply State.attemptOver_keeps
    | with_reducible apply State.attemptWins_keeps
    | fail_if_no_progress (with_reducible apply hR.upd; all_goals try first | with_reducible exact .inr rfl | exact .inl (by decide +kernel) | exact id)
    | dsimp only
    | intro _ _
    | intro _
    | contradiction
    | (unfold id)
    | split
    | (rename_i hh; injection hh with hh; subst hh)
    | (rename_i hh; split at hh)

theorem execDebugCertSubmit_keeps {R : State → Prop} (hR : Keeps partsDebugCertSubmit fieldsDebugCertSubmit R) (p : PelSrc) (l : BitVec 2) (issuerSig subjectSig : Bool) (s : State)
    (hI : R s) {tT : State} (eE : execDebugCertSubmit p l issuerSig subjectSig s = .next tT) : R tT := by
  unfold execDebugCertSubmit at eE
  try dsimp only at eE
  repeat' split at eE
  all_goals try (injection eE with eE; subst eE)
  all_goals repeat' first
    | with_reducible assumption
    | exact hR.sub
    | with_reducible apply rel_ite
    | with_reducible apply State.attempt_keeps
    | with_reducible apply State.authCmd_keeps
    | with_reducible apply State.dirNext_keeps
    | with_reducible apply State.flashMessage_keeps
    | with_reducible apply State.message_keeps
    | with_reducible apply State.packageReset_keeps
    | with_reducible apply State.powerOn_keeps
    | with_reducible apply State.reach_keeps
    | dsimp only
    | intro _ _
    | intro _
    | contradiction
    | (unfold id)
    | split
    | (rename_i hh; injection hh with hh; subst hh)
    | (rename_i hh; split at hh)

theorem execDebugPasswordSubmit_keeps {R : State → Prop} (hR : Keeps partsDebugPasswordSubmit fieldsDebugPasswordSubmit R) (p : PelSrc) (l : BitVec 2) (s : State)
    (hI : R s) {tT : State} (eE : execDebugPasswordSubmit p l s = .next tT) : R tT := by
  unfold execDebugPasswordSubmit at eE
  try dsimp only at eE
  repeat' split at eE
  all_goals try (injection eE with eE; subst eE)
  all_goals repeat' first
    | with_reducible assumption
    | exact hR.sub
    | with_reducible apply rel_ite
    | with_reducible apply State.attempt_keeps
    | with_reducible apply State.authCmd_keeps
    | with_reducible apply State.dirNext_keeps
    | with_reducible apply State.flashMessage_keeps
    | with_reducible apply State.message_keeps
    | with_reducible apply State.packageReset_keeps
    | with_reducible apply State.powerOn_keeps
    | with_reducible apply State.reach_keeps
    | dsimp only
    | intro _ _
    | intro _
    | contradiction
    | (unfold id)
    | split
    | (rename_i hh; injection hh with hh; subst hh)
    | (rename_i hh; split at hh)

theorem State.recoveryReg_keeps {R : State → Prop} (hR : Keeps [.stewards, .rstUnlock] ⟨[], [], [], false⟩ R) (s : State) (w : Writer) (r : Reg) (v : Nat) (k : State → State)
    (hI : R s) (hk : ∀  s, R s → R (k  s)) : R (State.recoveryReg s w r v k) := by
  unfold State.recoveryReg
  try dsimp only
  repeat' first
    | with_reducible assumption
    | exact hR.sub
    | with_reducible apply rel_ite
    | (with_reducible apply hk)
    | with_reducible apply State.drop_keeps
    | with_reducible apply State.reach_keeps
    | dsimp only
    | intro _ _
    | intro _
    | contradiction
    | (unfold id)
    | split
    | (rename_i hh; injection hh with hh; subst hh)
    | (rename_i hh; split at hh)

theorem State.dirWrite_keeps {R : State → Prop} (hR : Keeps [.flash] ⟨[], [], [], false⟩ R) (s : State) (c d : Nat)
    (hI : R s) : R (State.dirWrite s c d) := by
  unfold State.dirWrite
  try dsimp only
  repeat' first
    | with_reducible assumption
    | exact hR.sub
    | exact fun h => memWf_memStore h
    | exact fun h => memWf_memPut h
    | exact fun h => memWf_filter _ h
    | exact fun _ => rfl
    | with_reducible apply rel_ite
    | fail_if_no_progress (with_reducible apply hR.upd; all_goals try first | exact .inl (by decide +kernel) | with_reducible exact .inr rfl | exact id)
    | dsimp only
    | intro _ _
    | intro _
    | contradiction
    | (unfold id)
    | split
    | (rename_i hh; injection hh with hh; subst hh)
    | (rename_i hh; split at hh)

theorem State.dirNext_keeps {R : State → Prop} (hR : Keeps [.flash] ⟨[], [], [], false⟩ R) (s : State) (d : Nat)
    (hI : R s) : R (State.dirNext s d) := by
  rw [State.dirNext]
  split
  · exact State.dirWrite_keeps hR.sub _ _ _ hI
  · exact State.dirWrite_keeps hR.sub _ _ _ hI

theorem State.recoveryFails_keeps {R : State → Prop} (hR : Keeps [.regs] ⟨[.LS_RCV_STAT_ERR, .LS_RCV_STAT_STATE], [], [], false⟩ R) (s : State) (err : Nat)
    (hI : R s) : R (State.recoveryFails s err) := by
  unfold State.recoveryFails
  try dsimp only
  repeat' first
    | with_reducible assumption
    | exact hR.sub
    | with_reducible apply rel_ite
    | with_reducible refine hR.wr _ _ _ (by decide +kernel) (by first | decide +kernel | exact hasFld_self _ _ | exact hasFld_all _ | (simp [hasFld]; done) ) ?_
    | dsimp only
    | intro _ _
    | intro _
    | contradiction
    | (unfold id)
    | split
    | (rename_i hh; injection hh with hh; subst hh)
    | (rename_i hh; split at hh)

theorem execRecoveryBegin_keeps {R : State → Prop} (hR : Keeps partsRecoveryBegin fieldsRecoveryBegin R) (w : Writer) (slot : Bool) (len : BitVec 28) (s : State)
    (hI : R s) {tT : State} (eE : execRecoveryBegin w slot len s = .next tT) : R tT := by
  unfold execRecoveryBegin at eE
  try dsimp only at eE
  repeat' split at eE
  all_goals try (injection eE with eE; subst eE)
  all_goals repeat' first
    | with_reducible assumption
    | exact hR.sub
    | exact fun h => memWf_memStore h
    | exact fun h => memWf_memPut h
    | exact fun h => memWf_filter _ h
    | exact fun _ => rfl
    | with_reducible apply rel_ite
    | with_reducible refine hR.wr _ _ _ (by decide +kernel) (by first | decide +kernel | exact hasFld_self _ _ | exact hasFld_all _ | (simp [hasFld]; done) ) ?_
    | with_reducible apply State.dirNext_keeps
    | with_reducible apply State.dirWrite_keeps
    | with_reducible apply State.flashMessage_keeps
    | with_reducible apply State.message_keeps
    | with_reducible apply State.packageReset_keeps
    | with_reducible apply State.powerOn_keeps
    | with_reducible apply State.reach_keeps
    | with_reducible apply State.recoveryFails_keeps
    | with_reducible apply State.recoveryReg_keeps
    | fail_if_no_progress (with_reducible apply hR.upd; all_goals try first | with_reducible exact .inr rfl | exact .inl (by decide +kernel) | exact id)
    | dsimp only
    | intro _ _
    | intro _
    | contradiction
    | (unfold id)
    | split
    | (rename_i hh; injection hh with hh; subst hh)
    | (rename_i hh; split at hh)

theorem execRecoveryData_keeps {R : State → Prop} (hR : Keeps partsRecoveryData fieldsRecoveryData R) (w : Writer) (v : BitVec 32) (s : State)
    (hI : R s) {tT : State} (eE : execRecoveryData w v s = .next tT) : R tT := by
  rw [execRecoveryData] at eE
  injection eE with eE; subst eE
  refine State.recoveryReg_keeps hR.sub _ _ _ _ _ hI (fun s h => ?_)
  repeat' first
    | with_reducible assumption
    | exact hR.sub
    | exact fun h => memWf_memStore h
    | fail_if_no_progress (with_reducible apply hR.upd; all_goals try first | exact .inl (by decide +kernel) | with_reducible exact .inr rfl | exact id)
    | with_reducible apply rel_ite
    | with_reducible apply State.recoveryFails_keeps
    | with_reducible apply State.drop_keeps
    | with_reducible refine hR.wr _ _ _ (by decide +kernel) (by decide +kernel) ?_
    | split
    | dsimp only

theorem execRecoveryEnd_keeps {R : State → Prop} (hR : Keeps partsRecoveryEnd fieldsRecoveryEnd R) (w : Writer) (sig flashOk : Bool) (s : State)
    (hI : R s) {tT : State} (eE : execRecoveryEnd w sig flashOk s = .next tT) : R tT := by
  unfold execRecoveryEnd at eE
  try dsimp only at eE
  repeat' split at eE
  all_goals try (injection eE with eE; subst eE)
  all_goals repeat' first
    | with_reducible assumption
    | exact hR.sub
    | exact fun h => memWf_memStore h
    | exact fun h => memWf_memPut h
    | exact fun h => memWf_filter _ h
    | exact fun _ => rfl
    | with_reducible apply rel_ite
    | with_reducible apply State.dirNext_keeps
    | with_reducible apply State.draw_keeps
    | with_reducible apply State.flashMessage_keeps
    | with_reducible apply State.imageBad_keeps
    | with_reducible apply State.message_keeps
    | with_reducible apply State.packageReset_keeps
    | with_reducible apply State.powerOn_keeps
    | with_reducible apply State.reach_keeps
    | with_reducible apply State.recoveryFails_keeps
    | with_reducible apply State.recoveryReg_keeps
    | (refine State.draw_keeps_of hR.sub _ _ ?_ (by assumption))
    | fail_if_no_progress (with_reducible apply hR.upd; all_goals try first | with_reducible exact .inr rfl | exact .inl (by decide +kernel) | exact id)
    | dsimp only
    | intro _ _
    | intro _
    | contradiction
    | (unfold id)
    | split
    | (rename_i hh; injection hh with hh; subst hh)
    | (rename_i hh; split at hh)

end Sys2Proof.Machine
end

