-- ==== Sys2Proof/Laws/KeepsService.lean ====
section
/-! SUPPORT. What the operations of `Machine/Service.lean` may change and what they keep. -/

namespace Sys2Proof.Machine

set_option Elab.async false
set_option linter.all false

theorem State.setScrub_keeps {R : State → Prop} (hR : Keeps [.scrub] ⟨[], [], [], false⟩ R) (s : State) (n : Nat) (x : ScrubRt)
    (hI : R s) : R (State.setScrub s n x) := by
  unfold State.setScrub
  try dsimp only
  repeat' first
    | with_reducible assumption
    | exact hR.sub
    | exact fun h => memWf_memStore h
    | exact fun h => memWf_memPut h
    | exact fun h => memWf_filter _ h
    | exact fun _ => rfl
    | with_reducible apply rel_ite
    | fail_if_no_progress (with_reducible apply hR.upd; all_goals try first | with_reducible exact .inr rfl | exact .inl (by decide +kernel) | exact id)
    | dsimp only
    | intro _ _
    | intro _
    | contradiction
    | (unfold id)
    | split
    | (rename_i hh; injection hh with hh; subst hh)
    | (rename_i hh; split at hh)

theorem State.scrubGo_keeps {R : State → Prop} (hR : Keeps [.regs, .scrub] ⟨[.SCRUB_STAT_ACTIVE, .SCRUB_STAT_DONE, .SCRUB_STAT_SECTOR], [], [], false⟩ R) (s : State) (n k : Nat)
    (hI : R s) : R (State.scrubGo s n k) := by
  unfold State.scrubGo
  try dsimp only
  repeat' first
    | with_reducible assumption
    | exact hR.sub
    | exact fun h => memWf_memStore h
    | exact fun h => memWf_memPut h
    | exact fun h => memWf_filter _ h
    | exact fun _ => rfl
    | with_reducible apply rel_ite
    | with_reducible refine hR.wr _ _ _ (by decide +kernel) (by first | decide +kernel | exact hasFld_self _ _ | exact hasFld_all _ | (simp [hasFld]; done) ) ?_
    | with_reducible apply State.setScrub_keeps
    | fail_if_no_progress (with_reducible apply hR.upd; all_goals try first | with_reducible exact .inr rfl | exact .inl (by decide +kernel) | exact id)
    | dsimp only
    | intro _ _
    | intro _
    | contradiction
    | (unfold id)
    | split
    | (rename_i hh; injection hh with hh; subst hh)
    | (rename_i hh; split at hh)

theorem State.scrubStart_keeps {R : State → Prop} (hR : Keeps [.regs, .scrub] ⟨[.SCRUB_STAT_ACTIVE, .SCRUB_STAT_DONE, .SCRUB_STAT_SECTOR], [], [], false⟩ R) (s : State) (n : Nat)
    (hI : R s) : R (State.scrubStart s n) := by
  unfold State.scrubStart
  try dsimp only
  repeat' first
    | with_reducible assumption
    | exact hR.sub
    | with_reducible apply rel_ite
    | with_reducible refine hR.wr _ _ _ (by decide +kernel) (by first | decide +kernel | exact hasFld_self _ _ | exact hasFld_all _ | (simp [hasFld]; done) ) ?_
    | with_reducible apply State.scrubGo_keeps
    | with_reducible apply State.setScrub_keeps
    | dsimp only
    | intro _ _
    | intro _
    | contradiction
    | (unfold id)
    | split
    | (rename_i hh; injection hh with hh; subst hh)
    | (rename_i hh; split at hh)

def opPartsScrubFound : List Part := [.regs, .stewards, .health, .repairs, .govs, .sec, .fab, .cfg]
def opFieldsScrubFound : FSet :=
  ⟨[.MGMT_HEALTH_STAGE, .MGMT_HEALTH_ZERO, .SCRUB_COR_CNT_COUNT, .SCRUB_UNC_CNT_COUNT, .SEC_COLMAP_ACTIVE,
    .SEC_COLMAP_DEFECTS, .SEC_COLMAP_FIELD, .SEC_CTL_RESET, .SEC_STATUS_ISOLATED, .SEC_STATUS_PENDING_REMAP,
    .SEC_STATUS_PERMIT_WAIT, .SEC_STATUS_RESET_HELD, .SEC_STATUS_STATE], [.sec], [], false⟩

theorem State.scrubFound_keeps {R : State → Prop} (hR : Keeps opPartsScrubFound opFieldsScrubFound R) (s : State) (n k a cor unc : Nat) (fails : Bool) (slow : Nat)
    (hI : R s) : R (State.scrubFound s n k a cor unc fails slow) := by
  unfold State.scrubFound
  try dsimp only
  repeat' first
    | with_reducible assumption
    | exact hR.sub
    | exact hR.sub (by decide +kernel) (subFld_self _ _)
    | with_reducible apply rel_ite
    | with_reducible refine hR.wr _ _ _ (by decide +kernel) (by first | decide +kernel | exact hasFld_self _ _ | exact hasFld_all _ | (simp [hasFld]; done) ) ?_
    | with_reducible apply State.bump_keeps
    | with_reducible apply State.cfgBlank_keeps
    | with_reducible apply State.columnDefect_keeps
    | with_reducible apply State.raiseFixed_keeps
    | with_reducible apply State.sectorReset_keeps
    | dsimp only
    | intro _ _
    | intro _
    | contradiction
    | (unfold id)
    | split
    | (rename_i hh; injection hh with hh; subst hh)
    | (rename_i hh; split at hh)

theorem execConfigScrubFrame_keeps {R : State → Prop} (hR : Keeps partsConfigScrubFrame fieldsConfigScrubFrame R) (n : Fin 8) (cor unc : Fin 129) (fails : Bool) (slow : Nat) (s : State)
    (hI : R s) {tT : State} (eE : execConfigScrubFrame n cor unc fails slow s = .next tT) : R tT := by
  unfold execConfigScrubFrame at eE
  try dsimp only at eE
  repeat' split at eE
  all_goals try (injection eE with eE; subst eE)
  all_goals repeat' first
    | with_reducible assumption
    | exact hR.sub
    | exact fun h => memWf_memStore h
    | exact fun h => memWf_memPut h
    | exact fun h => memWf_filter _ h
    | exact fun _ => rfl
    | with_reducible apply rel_ite
    | with_reducible apply State.dirNext_keeps
    | with_reducible apply State.flashMessage_keeps
    | with_reducible apply State.lapse_keeps
    | with_reducible apply State.lapseTo_keeps
    | with_reducible apply State.message_keeps
    | with_reducible apply State.packageReset_keeps
    | with_reducible apply State.powerOn_keeps
    | with_reducible apply State.reach_keeps
    | with_reducible apply State.scrubFound_keeps
    | with_reducible apply State.scrubGo_keeps
    | with_reducible apply State.scrubStart_keeps
    | with_reducible apply State.setScrub_keeps
    | fail_if_no_progress (with_reducible apply hR.upd; all_goals try first | with_reducible exact .inr rfl | exact .inl (by decide +kernel) | exact id)
    | dsimp only
    | intro _ _
    | intro _
    | contradiction
    | (unfold id)
    | split
    | (rename_i hh; injection hh with hh; subst hh)
    | (rename_i hh; split at hh)

theorem execScrubNow_keeps {R : State → Prop} (hR : Keeps partsScrubNow fieldsScrubNow R) (n : Fin 2048) (s : State)
    (hI : R s) {tT : State} (eE : execScrubNow n s = .next tT) : R tT := by
  unfold execScrubNow at eE
  try dsimp only at eE
  repeat' split at eE
  all_goals try (injection eE with eE; subst eE)
  all_goals repeat' first
    | with_reducible assumption
    | exact hR.sub
    | with_reducible apply rel_ite
    | with_reducible apply State.dirNext_keeps
    | with_reducible apply State.flashMessage_keeps
    | with_reducible apply State.mailAnswer_keeps
    | with_reducible apply State.message_keeps
    | with_reducible apply State.packageReset_keeps
    | with_reducible apply State.powerOn_keeps
    | with_reducible apply State.reach_keeps
    | with_reducible apply State.scrubStart_keeps
    | dsimp only
    | intro _ _
    | intro _
    | contradiction
    | (unfold id)
    | split
    | (rename_i hh; injection hh with hh; subst hh)
    | (rename_i hh; split at hh)

theorem execEvtJournalRead_keeps {R : State → Prop} (hR : Keeps partsEvtJournalRead fieldsEvtJournalRead R) (n : Fin 2048) (s : State)
    (hI : R s) {tT : State} (eE : execEvtJournalRead n s = .next tT) : R tT := by
  unfold execEvtJournalRead at eE
  try dsimp only at eE
  repeat' split at eE
  all_goals try (injection eE with eE; subst eE)
  all_goals repeat' first
    | with_reducible assumption
    | exact hR.sub
    | with_reducible apply rel_ite
    | with_reducible apply State.dirNext_keeps
    | with_reducible apply State.drop_keeps
    | with_reducible apply State.flashMessage_keeps
    | with_reducible apply State.mailAnswer_keeps
    | with_reducible apply State.message_keeps
    | with_reducible apply State.packageReset_keeps
    | with_reducible apply State.powerOn_keeps
    | with_reducible apply State.reach_keeps
    | dsimp only
    | intro _ _
    | intro _
    | contradiction
    | (unfold id)
    | split
    | (rename_i hh; injection hh with hh; subst hh)
    | (rename_i hh; split at hh)

theorem execTelemetryRead_keeps {R : State → Prop} (hR : Keeps partsTelemetryRead fieldsTelemetryRead R) (n : Fin 2048) (s : State)
    (hI : R s) {tT : State} (eE : execTelemetryRead n s = .next tT) : R tT := by
  unfold execTelemetryRead at eE
  try dsimp only at eE
  repeat' split at eE
  all_goals try (injection eE with eE; subst eE)
  all_goals repeat' first
    | with_reducible assumption
    | exact hR.sub
    | with_reducible apply rel_ite
    | with_reducible apply State.dirNext_keeps
    | with_reducible apply State.flashMessage_keeps
    | with_reducible apply State.mailAnswer_keeps
    | with_reducible apply State.message_keeps
    | with_reducible apply State.packageReset_keeps
    | with_reducible apply State.powerOn_keeps
    | with_reducible apply State.reach_keeps
    | dsimp only
    | intro _ _
    | intro _
    | contradiction
    | (unfold id)
    | split
    | (rename_i hh; injection hh with hh; subst hh)
    | (rename_i hh; split at hh)

theorem execRepairRead_keeps {R : State → Prop} (hR : Keeps partsRepairRead fieldsRepairRead R) (n : Fin 2048) (s : State)
    (hI : R s) {tT : State} (eE : execRepairRead n s = .next tT) : R tT := by
  unfold execRepairRead at eE
  try dsimp only at eE
  repeat' split at eE
  all_goals try (injection eE with eE; subst eE)
  all_goals repeat' first
    | with_reducible assumption
    | exact hR.sub
    | with_reducible apply rel_ite
    | with_reducible apply State.dirNext_keeps
    | with_reducible apply State.flashMessage_keeps
    | with_reducible apply State.mailAnswer_keeps
    | with_reducible apply State.message_keeps
    | with_reducible apply State.packageReset_keeps
    | with_reducible apply State.powerOn_keeps
    | with_reducible apply State.reach_keeps
    | dsimp only
    | intro _ _
    | intro _
    | contradiction
    | (unfold id)
    | split
    | (rename_i hh; injection hh with hh; subst hh)
    | (rename_i hh; split at hh)

def opPartsFlashMessage : List Part :=
  [.regs, .out, .draws, .stewards, .eng, .hbm, .poison, .win, .rcLines, .rcWb, .sf, .sfAge, .haIn, .homeOut, .leafMaj,
    .leafMin, .ccache, .hwm, .qps, .mail, .cfgWait, .helm]
def opFieldsFlashMessage : FSet :=
  ⟨[.HA_BACKINV_CNT_COUNT, .HA_STAT_RECALL, .HA_STAT_SF_LEVEL, .HBM_ERR_ADDR_HI_ADDR, .HBM_ERR_ADDR_LO_ADDR,
    .HBM_ERR_CH, .HBM_ERR_CODE, .HBM_ERR_PC, .HBM_ERR_SID, .HBM_ERR_VALID, .HIF_QP_DONE_CNT_COUNT, .HIF_QP_STAT_STATE,
    .RC_HIT_CNT_COUNT, .RC_MISS_CNT_COUNT, .RC_SNP_CNT_COUNT, .RC_STAT_RETAINED, .RC_WB_CNT_COUNT,
    .SEAL_CC_MISS_CNT_COUNT, .SEAL_DENY_CNT_COUNT, .SEAL_ERR_ADDR_HI_ADDR, .SEAL_ERR_ADDR_LO_ADDR, .SEAL_ERR_CODE,
    .SEAL_ERR_LEVEL, .SEAL_ERR_RANGE, .SEAL_ERR_VALID, .SEAL_OVF_CNT_COUNT, .SEAL_RSTAT_FREEZE, .SEAL_RSTAT_STATE], [],
    [], false⟩

theorem State.flashMessage_keeps {R : State → Prop} (hR : Keeps opPartsFlashMessage opFieldsFlashMessage R) (s : State) (n code : Nat) (len : Nat → Bool) (k : Mail → State → State)
    (hI : R s) (hk : ∀ y0 s, R s → R (k y0 s)) : R (State.flashMessage s n code len k) := by
  unfold State.flashMessage
  try dsimp only
  repeat' first
    | with_reducible assumption
    | exact hR.sub
    | exact fun h => memWf_memStore h
    | exact fun h => memWf_memPut h
    | exact fun h => memWf_filter _ h
    | exact fun _ => rfl
    | with_reducible apply rel_ite
    | (with_reducible apply hk)
    | with_reducible apply State.mailAnswer_keeps
    | fail_if_no_progress (with_reducible apply hR.upd; all_goals try first | with_reducible exact .inr rfl | exact .inl (by decide +kernel) | exact id)
    | dsimp only
    | intro _ _
    | intro _
    | contradiction
    | (unfold id)
    | split
    | (rename_i hh; injection hh with hh; subst hh)
    | (rename_i hh; split at hh)

def opPartsFlashReply : List Part :=
  [.regs, .out, .draws, .stewards, .eng, .hbm, .poison, .win, .rcLines, .rcWb, .sf, .sfAge, .haIn, .homeOut, .leafMaj,
    .leafMin, .ccache, .hwm, .qps, .mail, .cfgWait, .helm]
def opFieldsFlashReply : FSet :=
  ⟨[.HA_BACKINV_CNT_COUNT, .HA_STAT_RECALL, .HA_STAT_SF_LEVEL, .HBM_ERR_ADDR_HI_ADDR, .HBM_ERR_ADDR_LO_ADDR,
    .HBM_ERR_CH, .HBM_ERR_CODE, .HBM_ERR_PC, .HBM_ERR_SID, .HBM_ERR_VALID, .HIF_QP_DONE_CNT_COUNT, .HIF_QP_STAT_STATE,
    .RC_HIT_CNT_COUNT, .RC_MISS_CNT_COUNT, .RC_SNP_CNT_COUNT, .RC_STAT_RETAINED, .RC_WB_CNT_COUNT,
    .SEAL_CC_MISS_CNT_COUNT, .SEAL_DENY_CNT_COUNT, .SEAL_ERR_ADDR_HI_ADDR, .SEAL_ERR_ADDR_LO_ADDR, .SEAL_ERR_CODE,
    .SEAL_ERR_LEVEL, .SEAL_ERR_RANGE, .SEAL_ERR_VALID, .SEAL_OVF_CNT_COUNT, .SEAL_RSTAT_FREEZE, .SEAL_RSTAT_STATE], [],
    [], false⟩

theorem State.flashReply_keeps {R : State → Prop} (hR : Keeps opPartsFlashReply opFieldsFlashReply R) (s : State) (m : Mail) (rst : Nat) (body : List Byte)
    (hI : R s) : R (State.flashReply s m rst body) := by
  unfold State.flashReply
  try dsimp only
  repeat' first
    | with_reducible assumption
    | exact hR.sub
    | exact fun h => memWf_memStore h
    | exact fun h => memWf_memPut h
    | exact fun h => memWf_filter _ h
    | exact fun _ => rfl
    | with_reducible apply rel_ite
    | with_reducible apply State.mailAnswer_keeps
    | fail_if_no_progress (with_reducible apply hR.upd; all_goals try first | with_reducible exact .inr rfl | exact .inl (by decide +kernel) | exact id)
    | dsimp only
    | intro _ _
    | intro _
    | contradiction
    | (unfold id)
    | split
    | (rename_i hh; injection hh with hh; subst hh)
    | (rename_i hh; split at hh)

theorem execFlashErase_keeps {R : State → Prop} (hR : Keeps partsFlashErase fieldsFlashErase R) (n : Fin 2048) (s : State)
    (hI : R s) {tT : State} (eE : execFlashErase n s = .next tT) : R tT := by
  unfold execFlashErase at eE
  try dsimp only at eE
  repeat' split at eE
  all_goals try (injection eE with eE; subst eE)
  all_goals repeat' first
    | with_reducible assumption
    | exact hR.sub
    | exact fun h => memWf_memStore h
    | exact fun h => memWf_memPut h
    | exact fun h => memWf_filter _ h
    | exact fun _ => rfl
    | with_reducible apply rel_ite
    | with_reducible apply State.dirNext_keeps
    | with_reducible apply State.flashMessage_keeps
    | with_reducible apply State.flashReply_keeps
    | with_reducible apply State.message_keeps
    | with_reducible apply State.packageReset_keeps
    | with_reducible apply State.powerOn_keeps
    | with_reducible apply State.reach_keeps
    | fail_if_no_progress (with_reducible apply hR.upd; all_goals try first | with_reducible exact .inr rfl | exact .inl (by decide +kernel) | exact id)
    | dsimp only
    | intro _ _
    | intro _
    | contradiction
    | (unfold id)
    | split
    | (rename_i hh; injection hh with hh; subst hh)
    | (rename_i hh; split at hh)

theorem execFlashWrite_keeps {R : State → Prop} (hR : Keeps partsFlashWrite fieldsFlashWrite R) (n : Fin 2048) (s : State)
    (hI : R s) {tT : State} (eE : execFlashWrite n s = .next tT) : R tT := by
  unfold execFlashWrite at eE
  try dsimp only at eE
  repeat' split at eE
  all_goals try (injection eE with eE; subst eE)
  all_goals repeat' first
    | with_reducible assumption
    | exact hR.sub
    | exact fun h => memWf_memStore h
    | exact fun h => memWf_memPut h
    | exact fun h => memWf_filter _ h
    | exact fun _ => rfl
    | with_reducible apply rel_ite
    | with_reducible apply State.dirNext_keeps
    | with_reducible apply State.drop_keeps
    | with_reducible apply State.flashMessage_keeps
    | with_reducible apply State.flashReply_keeps
    | with_reducible apply State.message_keeps
    | with_reducible apply State.packageReset_keeps
    | with_reducible apply State.powerOn_keeps
    | with_reducible apply State.reach_keeps
    | fail_if_no_progress (with_reducible apply hR.upd; all_goals try first | with_reducible exact .inr rfl | exact .inl (by decide +kernel) | exact id)
    | dsimp only
    | intro _ _
    | intro _
    | contradiction
    | (unfold id)
    | split
    | (rename_i hh; injection hh with hh; subst hh)
    | (rename_i hh; split at hh)

theorem execDirWrite_keeps {R : State → Prop} (hR : Keeps partsDirWrite fieldsDirWrite R) (n : Fin 2048) (s : State)
    (hI : R s) {tT : State} (eE : execDirWrite n s = .next tT) : R tT := by
  unfold execDirWrite at eE
  try dsimp only at eE
  repeat' split at eE
  all_goals try (injection eE with eE; subst eE)
  all_goals repeat' first
    | with_reducible assumption
    | exact hR.sub
    | exact fun h => memWf_memStore h
    | exact fun h => memWf_memPut h
    | exact fun h => memWf_filter _ h
    | exact fun _ => rfl
    | with_reducible apply rel_ite
    | with_reducible apply State.dirNext_keeps
    | with_reducible apply State.flashMessage_keeps
    | with_reducible apply State.message_keeps
    | with_reducible apply State.packageReset_keeps
    | with_reducible apply State.powerOn_keeps
    | with_reducible apply State.reach_keeps
    | fail_if_no_progress (with_reducible apply hR.upd; all_goals try first | with_reducible exact .inr rfl | exact .inl (by decide +kernel) | exact id)
    | dsimp only
    | intro _ _
    | intro _
    | contradiction
    | (unfold id)
    | split
    | (rename_i hh; injection hh with hh; subst hh)
    | (rename_i hh; split at hh)

theorem State.program_keeps {R : State → Prop} (hR : Keeps [.draws, .flash] ⟨[], [], [], false⟩ R) (s : State) (a : Nat) (l : List Byte) (hI : R s) :
    R (State.program s a l) := by
  induction l generalizing s a with
  | nil => exact hI
  | cons b r ih =>
    have h := State.draw_keeps hR.sub  s 8 hI
    rw [State.program]
    generalize s.draw 8 = p at h ⊢
    obtain ⟨x, s1⟩ := p
    split
    rename_i v s2 he
    have h2 : R s2 := by
      split at he
      · injection he with e1 e2; subst e2; exact hI
      · injection he with e1 e2; subst e2; exact h
    refine ih _ _ ?_
    apply hR.upd <;> first | assumption | exact .inl (by decide +kernel) | with_reducible exact .inr rfl | exact id | exact fun h => memWf_memPut h

theorem State.eraseAt_keeps {R : State → Prop} (hR : Keeps [.flash] ⟨[], [], [], false⟩ R) (s : State) (a : Nat)
    (hI : R s) : R (State.eraseAt s a) := by
  unfold State.eraseAt
  try dsimp only
  repeat' first
    | with_reducible assumption
    | exact hR.sub
    | exact fun h => memWf_memStore h
    | exact fun h => memWf_memPut h
    | exact fun h => memWf_filter _ h
    | exact fun _ => rfl
    | with_reducible apply rel_ite
    | fail_if_no_progress (with_reducible apply hR.upd; all_goals try first | with_reducible exact .inr rfl | exact .inl (by decide +kernel) | exact id)
    | dsimp only
    | intro _ _
    | intro _
    | contradiction
    | (unfold id)
    | split
    | (rename_i hh; injection hh with hh; subst hh)
    | (rename_i hh; split at hh)

theorem State.flashForget_keeps {R : State → Prop} (hR : Keeps [.helmL1, .flashC] ⟨[], [], [], false⟩ R) (s : State) (a n : Nat)
    (hI : R s) : R (State.flashForget s a n) := by
  unfold State.flashForget
  try dsimp only
  repeat' first
    | with_reducible assumption
    | exact hR.sub
    | exact fun h => memWf_memStore h
    | exact fun h => memWf_memPut h
    | exact fun h => memWf_filter _ h
    | exact fun _ => rfl
    | with_reducible apply rel_ite
    | fail_if_no_progress (with_reducible apply hR.upd; all_goals try first | with_reducible exact .inr rfl | exact .inl (by decide +kernel) | exact id)
    | dsimp only
    | intro _ _
    | intro _
    | contradiction
    | (unfold id)
    | split
    | (rename_i hh; injection hh with hh; subst hh)
    | (rename_i hh; split at hh)

theorem execFlashSectorRewritten_keeps {R : State → Prop} (hR : Keeps partsFlashSectorRewritten fieldsFlashSectorRewritten R) (ok : Bool) (s : State)
    (hI : R s) {tT : State} (eE : execFlashSectorRewritten ok s = .next tT) : R tT := by
  unfold execFlashSectorRewritten at eE
  try dsimp only at eE
  repeat' split at eE
  all_goals try (injection eE with eE; subst eE)
  all_goals repeat' first
    | with_reducible assumption
    | exact hR.sub
    | exact fun h => memWf_memStore h
    | exact fun h => memWf_memPut h
    | exact fun h => memWf_filter _ h
    | exact fun _ => rfl
    | with_reducible apply rel_ite
    | with_reducible apply State.dirNext_keeps
    | with_reducible apply State.eraseAt_keeps
    | with_reducible apply State.flashForget_keeps
    | with_reducible apply State.flashMessage_keeps
    | with_reducible apply State.flashReply_keeps
    | with_reducible apply State.irq_keeps
    | with_reducible apply State.message_keeps
    | with_reducible apply State.packageReset_keeps
    | with_reducible apply State.powerOn_keeps
    | with_reducible apply State.program_keeps
    | with_reducible apply State.reach_keeps
    | fail_if_no_progress (with_reducible apply hR.upd; all_goals try first | with_reducible exact .inr rfl | exact .inl (by decide +kernel) | exact id)
    | dsimp only
    | intro _ _
    | intro _
    | contradiction
    | (unfold id)
    | split
    | (rename_i hh; injection hh with hh; subst hh)
    | (rename_i hh; split at hh)

end Sys2Proof.Machine
end

