-- ==== Sys2Proof/Laws/KeepsAccess.lean ====
section
/-! SUPPORT. What the operations of `Machine/Access.lean` may change and what they keep. -/

namespace Sys2Proof.Machine

set_option Elab.async false
set_option linter.all false

def opPartsReadEffect : List Part := [.regs, .answer, .stewards, .lane, .trunk, .helm, .pel]
def opFieldsReadEffect : FSet :=
  ⟨[.CL_BIT_HI_COUNT, .ENG_STEPS_HI_COUNT, .FC_CMP_HI_COUNT, .HELM_CORE_STAT_LEVEL, .HELM_IC_PEND_BITS,
    .SEAL_HWM_HI_HWM, .SX_MEAS_MPD_HI_VALUE, .SX_MEAS_MPD_LO_VALUE, .SX_MEAS_OFS_HI_VALUE, .SX_MEAS_SEQ_SEQ,
    .SX_TIME_NS_NS, .SX_TIME_SH_SEC, .SX_TIME_SL_SEC, .TR_BIT_HI_COUNT], [], [.rc], false⟩

theorem State.readEffect_keeps {R : State → Prop} (hR : Keeps opPartsReadEffect opFieldsReadEffect R) (s : State) (w : Writer) (r : Reg) (i : List Nat)
    (hI : R s) : R (State.readEffect s w r i) := by
  unfold State.readEffect
  extract_lets a
  repeat' first
    | with_reducible assumption
    | exact hR.sub
    | with_reducible refine hR.wr _ _ _ (by decide +kernel) (by decide +kernel) ?_
    | with_reducible apply State.setLane_keeps
    | with_reducible apply State.setPel_keeps
    | with_reducible apply State.setTrunk_keeps
    | (refine rel_foldl_mem _ (fun _ _ hm h => hR.wr _ _ _ (by decide +kernel) (hasFld_rc hm) h) ?_)
    | (with_reducible refine execHelmIcClaim_keeps hR.sub _ _ _ ?_ (by assumption))
    | with_reducible apply rel_ite
    | extract_lets m
    | split

theorem State.chkNow_keeps {R : State → Prop} (hR : Keeps [.regs, .lane, .trunk] ⟨[.CL_ERR_CNT_COUNT, .CL_STAT_CHK_LOCK, .TR_ERR_CNT_COUNT, .TR_STAT_CHK_LOCK], [], [], false⟩ R) (s : State) (r : Reg) (i : List Nat) (rx : List (BitVec 64))
    (hI : R s) : R (State.chkNow s r i rx) := by
  unfold State.chkNow
  try dsimp only
  repeat' first
    | with_reducible assumption
    | exact hR.sub
    | with_reducible apply rel_ite
    | with_reducible apply State.chkWords_keeps
    | dsimp only
    | intro _ _
    | intro _
    | contradiction
    | (unfold id)
    | split
    | (rename_i hh; injection hh with hh; subst hh)
    | (rename_i hh; split at hh)

def opPartsReadReg : List Part := [.regs, .answer, .draws, .stewards, .lane, .trunk, .helm, .pel]
def opFieldsReadReg : FSet :=
  ⟨[.CL_BIT_HI_COUNT, .CL_ERR_CNT_COUNT, .CL_STAT_CHK_LOCK, .ENG_STEPS_HI_COUNT, .FC_CMP_HI_COUNT,
    .HELM_CORE_STAT_LEVEL, .HELM_IC_PEND_BITS, .SEAL_HWM_HI_HWM, .SX_MEAS_MPD_HI_VALUE, .SX_MEAS_MPD_LO_VALUE,
    .SX_MEAS_OFS_HI_VALUE, .SX_MEAS_SEQ_SEQ, .SX_TIME_NS_NS, .SX_TIME_SH_SEC, .SX_TIME_SL_SEC, .TR_BIT_HI_COUNT,
    .TR_ERR_CNT_COUNT, .TR_STAT_CHK_LOCK], [], [.rc], false⟩

theorem State.readReg_keeps {R : State → Prop} (hR : Keeps opPartsReadReg opFieldsReadReg R) (s : State) (w : Writer) (r : Reg) (i : List Nat) (rx : List (BitVec 64))
    (hI : R s) : R (State.readReg s w r i rx).2 := by
  unfold State.readReg
  try dsimp only
  repeat' first
    | with_reducible assumption
    | exact hR.sub
    | exact fun h => memWf_memStore h
    | exact fun h => memWf_memPut h
    | exact fun h => memWf_filter _ h
    | exact fun _ => rfl
    | with_reducible apply rel_ite
    | with_reducible apply State.chkNow_keeps
    | with_reducible apply State.raise_keeps
    | with_reducible apply State.readEffect_keeps
    | fail_if_no_progress (with_reducible apply hR.upd; all_goals try first | with_reducible exact .inr rfl | exact .inl (by decide +kernel) | exact id)
    | dsimp only
    | intro _ _
    | intro _
    | contradiction
    | (unfold id)
    | split
    | (rename_i hh; injection hh with hh; subst hh)
    | (rename_i hh; split at hh)

theorem State.readReg_keeps_of {R : State → Prop} (hR : Keeps opPartsReadReg opFieldsReadReg R) (s : State) (w : Writer) (r : Reg) (i : List Nat) (rx : List (BitVec 64))
    (hI : R s) {a : Nat} {tT : State} (eE : State.readReg s w r i rx = (a, tT)) : R tT := by
  have h := State.readReg_keeps hR s w r i rx hI
  rw [eE] at h
  exact h

def opPartsRead32 : List Part := [.regs, .answer, .draws, .stewards, .lane, .trunk, .helm, .pel]
def opFieldsRead32 : FSet :=
  ⟨[.CL_BIT_HI_COUNT, .CL_ERR_CNT_COUNT, .CL_STAT_CHK_LOCK, .ENG_STEPS_HI_COUNT, .FC_CMP_HI_COUNT,
    .HELM_CORE_STAT_LEVEL, .HELM_IC_PEND_BITS, .SEAL_HWM_HI_HWM, .SX_MEAS_MPD_HI_VALUE, .SX_MEAS_MPD_LO_VALUE,
    .SX_MEAS_OFS_HI_VALUE, .SX_MEAS_SEQ_SEQ, .SX_TIME_NS_NS, .SX_TIME_SH_SEC, .SX_TIME_SL_SEC, .TR_BIT_HI_COUNT,
    .TR_ERR_CNT_COUNT, .TR_STAT_CHK_LOCK], [], [.rc], false⟩

theorem State.read32_keeps {R : State → Prop} (hR : Keeps opPartsRead32 opFieldsRead32 R) (s : State) (w : Writer) (a : Nat) (env : RegEnv)
    (hI : R s) : R (State.read32 s w a env).2 := by
  unfold State.read32
  try dsimp only
  repeat' first
    | with_reducible assumption
    | exact hR.sub
    | exact fun h => memWf_memStore h
    | exact fun h => memWf_memPut h
    | exact fun h => memWf_filter _ h
    | exact fun _ => rfl
    | with_reducible apply rel_ite
    | with_reducible apply State.readReg_keeps
    | (refine State.readReg_keeps_of hR.sub _ _ _ _ _ ?_ (by assumption))
    | fail_if_no_progress (with_reducible apply hR.upd; all_goals try first | with_reducible exact .inr rfl | exact .inl (by decide +kernel) | exact id)
    | dsimp only
    | intro _ _
    | intro _
    | contradiction
    | (unfold id)
    | split
    | (rename_i hh; injection hh with hh; subst hh)
    | (rename_i hh; split at hh)

theorem State.read32_keeps_of {R : State → Prop} (hR : Keeps opPartsRead32 opFieldsRead32 R) (s : State) (w : Writer) (a : Nat) (env : RegEnv)
    (hI : R s) {a : Nat} {tT : State} (eE : State.read32 s w a env = (a, tT)) : R tT := by
  have h := State.read32_keeps hR s w a env hI
  rw [eE] at h
  exact h

theorem State.peek32_keeps {R : State → Prop} (hR : Keeps [.draws, .stewards] ⟨[], [], [], false⟩ R) (s : State) (w : Writer) (a : Nat)
    (hI : R s) : R (State.peek32 s w a).2 := by
  unfold State.peek32
  try dsimp only
  repeat' first
    | with_reducible assumption
    | exact hR.sub
    | exact fun h => memWf_memStore h
    | exact fun h => memWf_memPut h
    | exact fun h => memWf_filter _ h
    | exact fun _ => rfl
    | with_reducible apply rel_ite
    | with_reducible apply State.raise_keeps
    | fail_if_no_progress (with_reducible apply hR.upd; all_goals try first | with_reducible exact .inr rfl | exact .inl (by decide +kernel) | exact id)
    | dsimp only
    | intro _ _
    | intro _
    | contradiction
    | (unfold id)
    | split
    | (rename_i hh; injection hh with hh; subst hh)
    | (rename_i hh; split at hh)

theorem State.peek32_keeps_of {R : State → Prop} (hR : Keeps [.draws, .stewards] ⟨[], [], [], false⟩ R) (s : State) (w : Writer) (a : Nat)
    (hI : R s) {a : Nat} {tT : State} (eE : State.peek32 s w a = (a, tT)) : R tT := by
  have h := State.peek32_keeps hR s w a hI
  rw [eE] at h
  exact h

theorem State.reads_keeps {R : State → Prop} (hR : Keeps [.answer] ⟨[], [], [], false⟩ R) (p : Nat × State) (hI : R p.2) {tT : State} (eE : State.reads p = .next tT) :
    R tT := by
  unfold State.reads at eE
  injection eE with eE; subst eE
  apply hR.upd <;> first | assumption | exact .inl (by decide +kernel) | with_reducible exact .inr rfl | exact id

theorem execRcFieldRead_keeps {R : State → Prop} (hR : Keeps partsRcFieldRead fieldsRcFieldRead R) (w : Writer) (off : BitVec 25) (bytes : Nat) (env : RegEnv) (s : State)
    (hI : R s) {tT : State} (eE : execRcFieldRead w off bytes env s = .next tT) : R tT := by
  unfold execRcFieldRead at eE
  try dsimp only at eE
  repeat' split at eE
  all_goals try (injection eE with eE; subst eE)
  all_goals repeat' first
    | with_reducible assumption
    | exact hR.sub
    | with_reducible apply rel_ite
    | with_reducible apply State.dirNext_keeps
    | with_reducible apply State.flashMessage_keeps
    | with_reducible apply State.message_keeps
    | with_reducible apply State.packageReset_keeps
    | with_reducible apply State.powerOn_keeps
    | with_reducible apply State.reach_keeps
    | with_reducible apply State.read32_keeps
    | (refine State.read32_keeps_of hR.sub _ _ _ _ ?_ (by assumption))
    | (with_reducible refine State.reads_keeps hR.sub _ ?_ (by assumption))
    | (refine State.reads_keeps hR.sub _ ?_ (by assumption))
    | fail_if_no_progress (with_reducible apply hR.upd; all_goals try first | with_reducible exact .inr rfl | exact .inl (by decide +kernel) | exact id)
    | dsimp only
    | intro _ _
    | intro _
    | contradiction
    | (unfold id)
    | split
    | (rename_i hh; injection hh with hh; subst hh)
    | (rename_i hh; split at hh)

theorem execEngStepsLoRead_keeps {R : State → Prop} (hR : Keeps partsEngStepsLoRead fieldsEngStepsLoRead R) (w : Writer) (e : Fin 96) (s : State)
    (hI : R s) {tT : State} (eE : execEngStepsLoRead w e s = .next tT) : R tT := by
  unfold execEngStepsLoRead at eE
  try dsimp only at eE
  repeat' split at eE
  all_goals try (injection eE with eE; subst eE)
  all_goals repeat' first
    | with_reducible assumption
    | exact hR.sub
    | with_reducible apply rel_ite
    | with_reducible apply State.dirNext_keeps
    | with_reducible apply State.flashMessage_keeps
    | with_reducible apply State.message_keeps
    | with_reducible apply State.packageReset_keeps
    | with_reducible apply State.powerOn_keeps
    | with_reducible apply State.reach_keeps
    | with_reducible apply State.readReg_keeps
    | (refine State.readReg_keeps_of hR.sub _ _ _ _ _ ?_ (by assumption))
    | (with_reducible refine State.reads_keeps hR.sub _ ?_ (by assumption))
    | (refine State.reads_keeps hR.sub _ ?_ (by assumption))
    | fail_if_no_progress (with_reducible apply hR.upd; all_goals try first | with_reducible exact .inr rfl | exact .inl (by decide +kernel) | exact id)
    | dsimp only
    | intro _ _
    | intro _
    | contradiction
    | (unfold id)
    | split
    | (rename_i hh; injection hh with hh; subst hh)
    | (rename_i hh; split at hh)

theorem execFcCmpLoRead_keeps {R : State → Prop} (hR : Keeps partsFcCmpLoRead fieldsFcCmpLoRead R) (w : Writer) (e : Fin 96) (s : State)
    (hI : R s) {tT : State} (eE : execFcCmpLoRead w e s = .next tT) : R tT := by
  unfold execFcCmpLoRead at eE
  try dsimp only at eE
  repeat' split at eE
  all_goals try (injection eE with eE; subst eE)
  all_goals repeat' first
    | with_reducible assumption
    | exact hR.sub
    | with_reducible apply rel_ite
    | with_reducible apply State.dirNext_keeps
    | with_reducible apply State.flashMessage_keeps
    | with_reducible apply State.message_keeps
    | with_reducible apply State.packageReset_keeps
    | with_reducible apply State.powerOn_keeps
    | with_reducible apply State.reach_keeps
    | with_reducible apply State.readReg_keeps
    | (refine State.readReg_keeps_of hR.sub _ _ _ _ _ ?_ (by assumption))
    | (with_reducible refine State.reads_keeps hR.sub _ ?_ (by assumption))
    | (refine State.reads_keeps hR.sub _ ?_ (by assumption))
    | fail_if_no_progress (with_reducible apply hR.upd; all_goals try first | with_reducible exact .inr rfl | exact .inl (by decide +kernel) | exact id)
    | dsimp only
    | intro _ _
    | intro _
    | contradiction
    | (unfold id)
    | split
    | (rename_i hh; injection hh with hh; subst hh)
    | (rename_i hh; split at hh)

theorem execSealHwmLoRead_keeps {R : State → Prop} (hR : Keeps partsSealHwmLoRead fieldsSealHwmLoRead R) (w : Writer) (st : Fin 4) (r : Fin 16) (s : State)
    (hI : R s) {tT : State} (eE : execSealHwmLoRead w st r s = .next tT) : R tT := by
  unfold execSealHwmLoRead at eE
  try dsimp only at eE
  repeat' split at eE
  all_goals try (injection eE with eE; subst eE)
  all_goals repeat' first
    | with_reducible assumption
    | exact hR.sub
    | with_reducible apply rel_ite
    | with_reducible apply State.dirNext_keeps
    | with_reducible apply State.flashMessage_keeps
    | with_reducible apply State.message_keeps
    | with_reducible apply State.packageReset_keeps
    | with_reducible apply State.powerOn_keeps
    | with_reducible apply State.reach_keeps
    | with_reducible apply State.readReg_keeps
    | (refine State.readReg_keeps_of hR.sub _ _ _ _ _ ?_ (by assumption))
    | (with_reducible refine State.reads_keeps hR.sub _ ?_ (by assumption))
    | (refine State.reads_keeps hR.sub _ ?_ (by assumption))
    | fail_if_no_progress (with_reducible apply hR.upd; all_goals try first | with_reducible exact .inr rfl | exact .inl (by decide +kernel) | exact id)
    | dsimp only
    | intro _ _
    | intro _
    | contradiction
    | (unfold id)
    | split
    | (rename_i hh; injection hh with hh; subst hh)
    | (rename_i hh; split at hh)

theorem execBitLoRead_keeps {R : State → Prop} (hR : Keeps partsBitLoRead fieldsBitLoRead R) (w : Writer) (trunk : Bool) (l : Fin 224) (rx : List (BitVec 64)) (s : State)
    (hI : R s) {tT : State} (eE : execBitLoRead w trunk l rx s = .next tT) : R tT := by
  unfold execBitLoRead at eE
  try dsimp only at eE
  repeat' split at eE
  all_goals try (injection eE with eE; subst eE)
  all_goals repeat' first
    | with_reducible assumption
    | exact hR.sub
    | with_reducible apply rel_ite
    | with_reducible apply State.dirNext_keeps
    | with_reducible apply State.flashMessage_keeps
    | with_reducible apply State.message_keeps
    | with_reducible apply State.packageReset_keeps
    | with_reducible apply State.powerOn_keeps
    | with_reducible apply State.reach_keeps
    | with_reducible apply State.readReg_keeps
    | (refine State.readReg_keeps_of hR.sub _ _ _ _ _ ?_ (by assumption))
    | (with_reducible refine State.reads_keeps hR.sub _ ?_ (by assumption))
    | (refine State.reads_keeps hR.sub _ ?_ (by assumption))
    | fail_if_no_progress (with_reducible apply hR.upd; all_goals try first | with_reducible exact .inr rfl | exact .inl (by decide +kernel) | exact id)
    | dsimp only
    | intro _ _
    | intro _
    | contradiction
    | (unfold id)
    | split
    | (rename_i hh; injection hh with hh; subst hh)
    | (rename_i hh; split at hh)

theorem execSxTimeFracRead_keeps {R : State → Prop} (hR : Keeps partsSxTimeFracRead fieldsSxTimeFracRead R) (w : Writer) (s : State)
    (hI : R s) {tT : State} (eE : execSxTimeFracRead w s = .next tT) : R tT := by
  unfold execSxTimeFracRead at eE
  try dsimp only at eE
  repeat' split at eE
  all_goals try (injection eE with eE; subst eE)
  all_goals repeat' first
    | with_reducible assumption
    | exact hR.sub
    | with_reducible apply rel_ite
    | with_reducible apply State.dirNext_keeps
    | with_reducible apply State.flashMessage_keeps
    | with_reducible apply State.message_keeps
    | with_reducible apply State.packageReset_keeps
    | with_reducible apply State.powerOn_keeps
    | with_reducible apply State.reach_keeps
    | with_reducible apply State.readReg_keeps
    | (refine State.readReg_keeps_of hR.sub _ _ _ _ _ ?_ (by assumption))
    | (with_reducible refine State.reads_keeps hR.sub _ ?_ (by assumption))
    | (refine State.reads_keeps hR.sub _ ?_ (by assumption))
    | fail_if_no_progress (with_reducible apply hR.upd; all_goals try first | with_reducible exact .inr rfl | exact .inl (by decide +kernel) | exact id)
    | dsimp only
    | intro _ _
    | intro _
    | contradiction
    | (unfold id)
    | split
    | (rename_i hh; injection hh with hh; subst hh)
    | (rename_i hh; split at hh)

theorem execSxMeasOfsLoRead_keeps {R : State → Prop} (hR : Keeps partsSxMeasOfsLoRead fieldsSxMeasOfsLoRead R) (w : Writer) (s : State)
    (hI : R s) {tT : State} (eE : execSxMeasOfsLoRead w s = .next tT) : R tT := by
  unfold execSxMeasOfsLoRead at eE
  try dsimp only at eE
  repeat' split at eE
  all_goals try (injection eE with eE; subst eE)
  all_goals repeat' first
    | with_reducible assumption
    | exact hR.sub
    | with_reducible apply rel_ite
    | with_reducible apply State.dirNext_keeps
    | with_reducible apply State.flashMessage_keeps
    | with_reducible apply State.message_keeps
    | with_reducible apply State.packageReset_keeps
    | with_reducible apply State.powerOn_keeps
    | with_reducible apply State.reach_keeps
    | with_reducible apply State.readReg_keeps
    | (refine State.readReg_keeps_of hR.sub _ _ _ _ _ ?_ (by assumption))
    | (with_reducible refine State.reads_keeps hR.sub _ ?_ (by assumption))
    | (refine State.reads_keeps hR.sub _ ?_ (by assumption))
    | fail_if_no_progress (with_reducible apply hR.upd; all_goals try first | with_reducible exact .inr rfl | exact .inl (by decide +kernel) | exact id)
    | dsimp only
    | intro _ _
    | intro _
    | contradiction
    | (unfold id)
    | split
    | (rename_i hh; injection hh with hh; subst hh)
    | (rename_i hh; split at hh)

end Sys2Proof.Machine
end

