-- ==== Sys2Proof/Laws/KeepsWrites.lean ====
section
/-! SUPPORT. What the operations of `Machine/Writes.lean` may change and what they keep. -/

namespace Sys2Proof.Machine

set_option Elab.async false
set_option linter.all false

theorem Ans.after_keeps {R : State → Prop} (a : Ans) (s : State) (hI : R s) (ha : ∀ t, a = .next t → R t) :
    R (Ans.after a s) := by
  unfold Ans.after
  split
  · exact ha _ rfl
  · exact hI

theorem State.storeField_keeps {R : State → Prop} (hR : Keeps [.regs] .all R) (s : State) (r : Reg) (i : List Nat) (v : Nat) (f : Fld)
    (hI : R s) : R (State.storeField s r i v f) := by
  unfold State.storeField
  try dsimp only
  repeat' first
    | with_reducible assumption
    | exact hR.sub
    | exact fun h => memWf_memStore h
    | exact fun h => memWf_memPut h
    | exact fun h => memWf_filter _ h
    | exact fun _ => rfl
    | with_reducible apply rel_ite
    | with_reducible refine hR.wr _ _ _ (by decide +kernel) (by first | decide +kernel | exact hasFld_self _ _ | exact hasFld_all _ | (simp [hasFld]; done) ) ?_
    | fail_if_no_progress (with_reducible apply hR.upd; all_goals try first | with_reducible exact .inr rfl | exact .inl (by decide +kernel) | exact id)
    | dsimp only
    | intro _ _
    | intro _
    | contradiction
    | (unfold id)
    | split
    | (rename_i hh; injection hh with hh; subst hh)
    | (rename_i hh; split at hh)

theorem State.storeFields_keeps {R : State → Prop} (hR : Keeps [.regs, .stewards] .all R) (s : State) (w : Writer) (r : Reg) (i : List Nat) (v : Nat)
    (hI : R s) : R (State.storeFields s w r i v) := by
  unfold State.storeFields
  try dsimp only
  repeat' first
    | with_reducible assumption
    | exact hR.sub
    | with_reducible apply rel_ite
    | with_reducible apply State.drop_keeps
    | with_reducible apply State.raise_keeps
    | with_reducible apply State.storeField_keeps
    | (with_reducible apply rel_foldl; intro _ _ _)
    | (with_reducible apply rel_foldl2; intro _ _ _)
    | (with_reducible apply rel_foldl3; intro _ _ _)
    | (with_reducible apply rel_foldl1; intro _ _ _)
    | dsimp only
    | intro _ _
    | intro _
    | contradiction
    | (unfold id)
    | split
    | (rename_i hh; injection hh with hh; subst hh)
    | (rename_i hh; split at hh)

def opPartsEngWritten : List Part := [.regs, .out, .stewards, .govs, .eng, .fixq, .rstUnlock]
def opFieldsEngWritten : FSet :=
  ⟨(.CL_STAT_REALIGN :: .CL_STAT_SLIP_POS :: .ENG_FAULT_CODE :: .ENG_FAULT_DETAIL :: .ENG_FAULT_PC :: .ENG_FAULT_VALID
    :: .ENG_GEN_V_VALUE :: .ENG_LCNT_COUNT :: .ENG_LREL_COUNT :: .ENG_PC_CUR :: .ENG_STALL_COUNT :: .ENG_STATUS_END_CODE
    :: .ENG_STATUS_FAIL :: .ENG_STATUS_IN_HANDLER :: .ENG_STATUS_STATE :: .ENG_STATUS_TLATE :: .ENG_STATUS_TMR_OVR ::
    .ENG_STEPS_HI_COUNT :: .ENG_STRM_CTL_ENDED :: .ENG_STRM_CTL_RATE :: .ENG_STRM_POS_POS :: .FC_CMP_HI_COUNT ::
    .FC_DROP_CNT_COUNT :: .FC_FAIL_CNT_COUNT :: .FC_GAP_CNT_COUNT :: .FC_LANES_COUNT :: .FC_LANES_LANE0 ::
    .FC_LANES_LANE1 :: .FC_LANES_LANE2 :: .FC_LANES_LANE3 :: .FC_RING_RD_COUNT :: .FC_RUN_RUN :: .FC_SLICE_FAIL_COUNT ::
    .FC_STATUS_BM_BUSY :: .FC_UNCHK_CNT_COUNT :: .PG_ERR_OP :: .PG_ERR_OVERSIZE :: .PG_ERR_UNITS :: .PG_ERR_VALID ::
    .PG_TO_CNT_COUNT :: []), [.eng], [], false⟩

theorem State.engWritten_keeps {R : State → Prop} (hR : Keeps opPartsEngWritten opFieldsEngWritten R) (s : State) (w : Writer) (r : Reg) (i : List Nat) (v : Nat)
    (hI : R s) : R (State.engWritten s w r i v) := by
  unfold State.engWritten
  try dsimp only
  repeat' first
    | with_reducible assumption
    | exact hR.sub
    | exact fun h => memWf_memStore h
    | exact fun h => memWf_memPut h
    | exact fun h => memWf_filter _ h
    | exact fun _ => rfl
    | with_reducible apply rel_ite
    | with_reducible apply State.tmrFollow_keeps
    | (with_reducible refine Ans.after_keeps (execArm _ _ _) _ ?_ (fun _ e => execArm_keeps hR.sub _ _ _ ?_ e))
    | (with_reducible refine Ans.after_keeps (execBitmapClear _ _ _) _ ?_ (fun _ e => execBitmapClear_keeps hR.sub _ _ _ ?_ e))
    | (with_reducible refine Ans.after_keeps (execEngCmdResume _ _ _) _ ?_ (fun _ e => execEngCmdResume_keeps hR.sub _ _ _ ?_ e))
    | (with_reducible refine Ans.after_keeps (execEngCmdStep _ _ _) _ ?_ (fun _ e => execEngCmdStep_keeps hR.sub _ _ _ ?_ e))
    | (with_reducible refine Ans.after_keeps (execEngCmdStop _ _ _) _ ?_ (fun _ e => execEngCmdStop_keeps hR.sub _ _ _ ?_ e))
    | (with_reducible refine Ans.after_keeps (execEngineReset _ _ _) _ ?_ (fun _ e => execEngineReset_keeps hR.sub _ _ _ ?_ e))
    | (with_reducible refine Ans.after_keeps (execFcCountersClear _ _ _) _ ?_ (fun _ e => execFcCountersClear_keeps hR.sub _ _ _ ?_ e))
    | (with_reducible refine Ans.after_keeps (execFcLanesWrite _ _ _ _) _ ?_ (fun _ e => execFcLanesWrite_keeps hR.sub _ _ _ _ ?_ e))
    | (with_reducible refine Ans.after_keeps (execFcRingRdWrite _ _ _ _) _ ?_ (fun _ e => execFcRingRdWrite_keeps hR.sub _ _ _ _ ?_ e))
    | (with_reducible refine Ans.after_keeps (execPause _ _ _) _ ?_ (fun _ e => execPause_keeps hR.sub _ _ _ ?_ e))
    | (with_reducible refine Ans.after_keeps (execStart _ _ _) _ ?_ (fun _ e => execStart_keeps hR.sub _ _ _ ?_ e))
    | fail_if_no_progress (with_reducible apply hR.upd; all_goals try first | with_reducible exact .inr rfl | exact .inl (by decide +kernel) | exact id)
    | dsimp only
    | intro _ _
    | intro _
    | contradiction
    | (unfold id)
    | split
    | (rename_i hh; injection hh with hh; subst hh)
    | (rename_i hh; split at hh)

def opPartsFabricWritten : List Part := [.regs, .out, .stewards, .govs, .sec, .tree, .fab, .synth, .fvs, .rstUnlock]
def opFieldsFabricWritten : FSet :=
  ⟨[.FCLK_GSEL_ACTIVE, .FCLK_GSEL_LOCKED, .FCLK_GSEL_SRC, .FCLK_GSEL_SWITCHING, .FCLK_RSEL_ACTIVE, .FCLK_RSEL_LOCKED,
    .FCLK_RSEL_SRC, .FCLK_RSEL_SWITCHING, .FSYN_CTL_GLIDING, .FSYN_CTL_LOCKED, .FSYN_FREQ_FREQ, .FVS_CTL_VSEL,
    .FVS_STAT_BUSY, .FVS_STAT_FAIL, .PG_ERR_OP, .PG_ERR_OVERSIZE, .PG_ERR_UNITS, .PG_ERR_VALID, .PG_TO_CNT_COUNT,
    .SEC_CTL_RESET, .SEC_STATUS_ISOLATED, .SEC_STATUS_PERMIT_WAIT, .SEC_STATUS_RESET_HELD, .SEC_STATUS_STATE,
    .SPN_SYN_GLIDING], [.sec], [], false⟩

theorem State.fabricWritten_keeps {R : State → Prop} (hR : Keeps opPartsFabricWritten opFieldsFabricWritten R) (s : State) (w : Writer) (r : Reg) (i : List Nat) (v : Nat) (env : RegEnv)
    (hI : R s) : R (State.fabricWritten s w r i v env) := by
  unfold State.fabricWritten
  try dsimp only
  repeat' first
    | with_reducible assumption
    | exact hR.sub
    | with_reducible apply rel_ite
    | (with_reducible refine Ans.after_keeps (execClockTreeSwitch _ _ _ _ _) _ ?_ (fun _ e => execClockTreeSwitch_keeps hR.sub _ _ _ _ _ ?_ e))
    | (with_reducible refine Ans.after_keeps (execFsynFreqWrite _ _ _ _ _ _) _ ?_ (fun _ e => execFsynFreqWrite_keeps hR.sub _ _ _ _ _ _ ?_ e))
    | (with_reducible refine Ans.after_keeps (execMigrate _ _ _ _ _) _ ?_ (fun _ e => execMigrate_keeps hR.sub _ _ _ _ _ ?_ e))
    | (with_reducible refine Ans.after_keeps (execSectorReleaseRequest _ _ _ _) _ ?_ (fun _ e => execSectorReleaseRequest_keeps hR.sub _ _ _ _ ?_ e))
    | (with_reducible refine Ans.after_keeps (execSectorReset _ _ _ _) _ ?_ (fun _ e => execSectorReset_keeps hR.sub _ _ _ _ ?_ e))
    | (with_reducible refine Ans.after_keeps (execVselSequence _ _ _ _) _ ?_ (fun _ e => execVselSequence_keeps hR.sub _ _ _ _ ?_ e))
    | dsimp only
    | intro _ _
    | intro _
    | contradiction
    | (unfold id)
    | split
    | (rename_i hh; injection hh with hh; subst hh)
    | (rename_i hh; split at hh)

def opPartsNocWritten : List Part :=
  [.regs, .stewards, .health, .govs, .arbs, .ni, .bearings, .drainT, .gkDir, .rstUnlock]
def opFieldsNocWritten : FSet :=
  ⟨[.GK_CTL_GROUP, .GK_CTL_LANE, .GK_GRP_STAT_LCROSS, .GK_GRP_STAT_PAUSED, .GK_GRP_STAT_ROLE, .GK_STAT_COH,
    .GK_STAT_CROSS, .GK_STAT_NOC, .GK_STAT_NOC_DETOUR, .GK_STAT_STATE, .MGMT_HEALTH_STAGE, .MGMT_HEALTH_ZERO,
    .NOC_NI_BDATA_WORD, .NOC_NI_BSEL_INDEX, .NOC_RTR_PORT_DRAIN, .NOC_RTR_PORT_DRAINED, .NOC_RTR_PORT_EN,
    .NOC_RTR_VC_PST, .NOC_RTR_VC_REQ, .NOC_RTR_VC_RSP, .NOC_RTR_VC_SNP, .PG_ERR_OP, .PG_ERR_OVERSIZE, .PG_ERR_UNITS,
    .PG_ERR_VALID, .PG_TO_CNT_COUNT], [], [], false⟩

theorem State.nocWritten_keeps {R : State → Prop} (hR : Keeps opPartsNocWritten opFieldsNocWritten R) (s : State) (w : Writer) (r : Reg) (i : List Nat) (v : Nat) (bs : BearingSet)
    (hI : R s) : R (State.nocWritten s w r i v bs) := by
  unfold State.nocWritten
  try dsimp only
  repeat' first
    | with_reducible assumption
    | exact hR.sub
    | exact fun h => memWf_memStore h
    | exact fun h => memWf_memPut h
    | exact fun h => memWf_filter _ h
    | exact fun _ => rfl
    | with_reducible apply rel_ite
    | with_reducible apply State.newWindow_keeps
    | (with_reducible apply rel_foldl; intro _ _ _)
    | (with_reducible apply rel_foldl2; intro _ _ _)
    | (with_reducible apply rel_foldl3; intro _ _ _)
    | (with_reducible apply rel_foldl1; intro _ _ _)
    | (with_reducible refine Ans.after_keeps (execBearingInvalidate _ _ _ _ _) _ ?_ (fun _ e => execBearingInvalidate_keeps hR.sub _ _ _ _ _ ?_ e))
    | (with_reducible refine Ans.after_keeps (execBearingRead _ _ _ _ _) _ ?_ (fun _ e => execBearingRead_keeps hR.sub _ _ _ _ _ ?_ e))
    | (with_reducible refine Ans.after_keeps (execBearingWrite _ _ _ _ _) _ ?_ (fun _ e => execBearingWrite_keeps hR.sub _ _ _ _ _ ?_ e))
    | (with_reducible refine Ans.after_keeps (execGkCmdRetire _ _ _ _ _ _) _ ?_ (fun _ e => execGkCmdRetire_keeps hR.sub _ _ _ _ _ _ ?_ e))
    | (with_reducible refine Ans.after_keeps (execGkCmdSwap _ _ _ _ _ _) _ ?_ (fun _ e => execGkCmdSwap_keeps hR.sub _ _ _ _ _ _ ?_ e))
    | (with_reducible refine Ans.after_keeps (execPortDrain _ _ _ _ _) _ ?_ (fun _ e => execPortDrain_keeps hR.sub _ _ _ _ _ ?_ e))
    | (with_reducible refine Ans.after_keeps (execRouterPortConfig _ _ _ _ _ _ _) _ ?_ (fun _ e => execRouterPortConfig_keeps hR.sub _ _ _ _ _ _ _ ?_ e))
    | fail_if_no_progress (with_reducible apply hR.upd; all_goals try first | with_reducible exact .inr rfl | exact .inl (by decide +kernel) | exact id)
    | dsimp only
    | intro _ _
    | intro _
    | contradiction
    | (unfold id)
    | split
    | (rename_i hh; injection hh with hh; subst hh)
    | (rename_i hh; split at hh)

def opPartsMemWritten : List Part :=
  [.regs, .draws, .stewards, .govs, .hbm, .poison, .rcLines, .rcWb, .sf, .seals, .keys, .keyOp, .stack, .arbs,
    .rstUnlock]
def opFieldsMemWritten : FSet :=
  ⟨(.HA_STAT_SF_LEVEL :: .HBM_CH_STAT_STATE :: .HBM_HASH_MASK :: .HBM_ILV_MODE :: .HBM_STAT_STATE :: .PG_ERR_OP ::
    .PG_ERR_OVERSIZE :: .PG_ERR_UNITS :: .PG_ERR_VALID :: .PG_TO_CNT_COUNT :: .RCW_CTL_BUSY :: .RCW_CTL_EN ::
    .RC_CMD_BUSY :: .RC_STAT_RETAINED :: .RC_STAT_STATE :: .RC_WB_CNT_COUNT :: .SEAL_CTL_RATE :: .SEAL_ERR_ADDR_HI_ADDR
    :: .SEAL_ERR_ADDR_LO_ADDR :: .SEAL_ERR_CODE :: .SEAL_ERR_LEVEL :: .SEAL_ERR_RANGE :: .SEAL_ERR_VALID ::
    .SEAL_KEY_BUSY :: .SEAL_KEY_FAIL :: .SEAL_KEY_SESSION :: .SEAL_KEY_SLOT :: .SEAL_POS_POS :: .SEAL_RCTL_OWNER ::
    .SEAL_RSTAT_KEYS :: .SEAL_RSTAT_STATE :: .SEAL_RSTAT_SWSTOP :: .SEAL_STAT_KIND :: .SEAL_STAT_PERMIT_WAIT ::
    .SEAL_STAT_QUEUE :: .SEAL_STAT_RANGE :: []), [], [], false⟩

theorem State.memWritten_keeps {R : State → Prop} (hR : Keeps opPartsMemWritten opFieldsMemWritten R) (s : State) (w : Writer) (r : Reg) (i : List Nat) (v : Nat)
    (hI : R s) : R (State.memWritten s w r i v) := by
  unfold State.memWritten
  try dsimp only
  repeat' first
    | with_reducible assumption
    | exact hR.sub
    | exact fun h => memWf_memStore h
    | exact fun h => memWf_memPut h
    | exact fun h => memWf_filter _ h
    | exact fun _ => rfl
    | with_reducible apply rel_ite
    | with_reducible refine hR.wr _ _ _ (by decide +kernel) (by first | decide +kernel | exact hasFld_self _ _ | exact hasFld_all _ | (simp [hasFld]; done) ) ?_
    | with_reducible apply State.newWindow_keeps
    | (with_reducible refine Ans.after_keeps (execDisable _ _ _ _) _ ?_ (fun _ e => execDisable_keeps hR.sub _ _ _ _ ?_ e))
    | (with_reducible refine Ans.after_keeps (execEnable _ _ _ _) _ ?_ (fun _ e => execEnable_keeps hR.sub _ _ _ _ ?_ e))
    | (with_reducible refine Ans.after_keeps (execHbmCmdRetrain _ _ _) _ ?_ (fun _ e => execHbmCmdRetrain_keeps hR.sub _ _ _ ?_ e))
    | (with_reducible refine Ans.after_keeps (execHbmCmdSelfRefresh _ _ _) _ ?_ (fun _ e => execHbmCmdSelfRefresh_keeps hR.sub _ _ _ ?_ e))
    | (with_reducible refine Ans.after_keeps (execHbmCmdSelfRefreshExit _ _ _) _ ?_ (fun _ e => execHbmCmdSelfRefreshExit_keeps hR.sub _ _ _ ?_ e))
    | (with_reducible refine Ans.after_keeps (execHbmHashWrite _ _ _ _ _) _ ?_ (fun _ e => execHbmHashWrite_keeps hR.sub _ _ _ _ _ ?_ e))
    | (with_reducible refine Ans.after_keeps (execHbmIlvWrite _ _ _) _ ?_ (fun _ e => execHbmIlvWrite_keeps hR.sub _ _ _ ?_ e))
    | (with_reducible refine Ans.after_keeps (execRcCleanRange _ _ _) _ ?_ (fun _ e => execRcCleanRange_keeps hR.sub _ _ _ ?_ e))
    | (with_reducible refine Ans.after_keeps (execRcFlushAll _ _ _) _ ?_ (fun _ e => execRcFlushAll_keeps hR.sub _ _ _ ?_ e))
    | (with_reducible refine Ans.after_keeps (execRcFlushRange _ _ _) _ ?_ (fun _ e => execRcFlushRange_keeps hR.sub _ _ _ ?_ e))
    | (with_reducible refine Ans.after_keeps (execRcInvalidateReadMostly _ _ _) _ ?_ (fun _ e => execRcInvalidateReadMostly_keeps hR.sub _ _ _ ?_ e))
    | (with_reducible refine Ans.after_keeps (execRcwDisable _ _ _) _ ?_ (fun _ e => execRcwDisable_keeps hR.sub _ _ _ ?_ e))
    | (with_reducible refine Ans.after_keeps (execRcwEnable _ _ _) _ ?_ (fun _ e => execRcwEnable_keeps hR.sub _ _ _ ?_ e))
    | (with_reducible refine Ans.after_keeps (execRekey _ _ _ _) _ ?_ (fun _ e => execRekey_keeps hR.sub _ _ _ _ ?_ e))
    | (with_reducible refine Ans.after_keeps (execSealClaim _ _ _ _) _ ?_ (fun _ e => execSealClaim_keeps hR.sub _ _ _ _ ?_ e))
    | (with_reducible refine Ans.after_keeps (execSealKeyErase _ _ _ _) _ ?_ (fun _ e => execSealKeyErase_keeps hR.sub _ _ _ _ ?_ e))
    | (with_reducible refine Ans.after_keeps (execSealKeyGenerate _ _ _ _) _ ?_ (fun _ e => execSealKeyGenerate_keeps hR.sub _ _ _ _ ?_ e))
    | (with_reducible refine Ans.after_keeps (execSealKeyImport _ _ _ _ _) _ ?_ (fun _ e => execSealKeyImport_keeps hR.sub _ _ _ _ _ ?_ e))
    | (with_reducible refine Ans.after_keeps (execSealRateWrite _ _ _ _) _ ?_ (fun _ e => execSealRateWrite_keeps hR.sub _ _ _ _ ?_ e))
    | (with_reducible refine Ans.after_keeps (execSealResume _ _ _ _) _ ?_ (fun _ e => execSealResume_keeps hR.sub _ _ _ _ ?_ e))
    | fail_if_no_progress (with_reducible apply hR.upd; all_goals try first | with_reducible exact .inr rfl | exact .inl (by decide +kernel) | exact id)
    | dsimp only
    | intro _ _
    | intro _
    | contradiction
    | (unfold id)
    | split
    | (rename_i hh; injection hh with hh; subst hh)
    | (rename_i hh; split at hh)

def opPartsLaneWritten : List Part := [.regs, .stewards, .govs, .lane, .trunk, .bundle, .rstUnlock]
def opFieldsLaneWritten : FSet :=
  ⟨(.CL_BND_CTL_EN :: .CL_BND_STAT_GRID :: .CL_BND_STAT_PLL_LOCK :: .CL_BND_STAT_STATE :: .CL_BND_STAT_TRN_ERR ::
    .CL_CTL_DIV :: .CL_CTL_EN :: .CL_CTL_RXMODE :: .CL_CTL_TXINV :: .CL_CTL_USE :: .CL_LOOP_BUSY :: .CL_STAT_CHK_LOCK ::
    .CL_STAT_LOL :: .CL_STAT_LOS :: .CL_STAT_REALIGN :: .CL_STAT_SLIP_POS :: .CL_TIM_RXDSK :: .CL_TIM_RXSTB ::
    .CL_TIM_TXDSK :: .CL_TIM_TXVERN :: .PG_ERR_OP :: .PG_ERR_OVERSIZE :: .PG_ERR_UNITS :: .PG_ERR_VALID ::
    .PG_TO_CNT_COUNT :: .TR_CTL_EN :: .TR_FFE_POST1 :: .TR_FFE_PRE1 :: .TR_FFE_PRE2 :: .TR_STAT_CHK_LOCK ::
    .TR_STAT_STATE :: []), [], [], false⟩

theorem State.laneWritten_keeps {R : State → Prop} (hR : Keeps opPartsLaneWritten opFieldsLaneWritten R) (s : State) (w : Writer) (r : Reg) (i : List Nat) (v : Nat) (s0 : State)
    (hI : R s) (hI1 : R s0) : R (State.laneWritten s w r i v s0) := by
  unfold State.laneWritten
  try dsimp only
  repeat' first
    | with_reducible assumption
    | exact hR.sub
    | exact fun h => memWf_memStore h
    | exact fun h => memWf_memPut h
    | exact fun h => memWf_filter _ h
    | exact fun _ => rfl
    | with_reducible apply rel_ite
    | with_reducible apply State.prbsWritten_keeps
    | with_reducible apply State.trPrbsWritten_keeps
    | with_reducible apply State.trunkOff_keeps
    | (with_reducible refine Ans.after_keeps (execBundleDisable _ _ _) _ ?_ (fun _ e => execBundleDisable_keeps hR.sub _ _ _ ?_ e))
    | (with_reducible refine Ans.after_keeps (execBundleEnable _ _ _) _ ?_ (fun _ e => execBundleEnable_keeps hR.sub _ _ _ ?_ e))
    | (with_reducible refine Ans.after_keeps (execBundleRetrain _ _ _) _ ?_ (fun _ e => execBundleRetrain_keeps hR.sub _ _ _ ?_ e))
    | (with_reducible refine Ans.after_keeps (execLaneCtlWrite _ _ _ _) _ ?_ (fun _ e => execLaneCtlWrite_keeps hR.sub _ _ _ _ ?_ e))
    | (with_reducible refine Ans.after_keeps (execLaneInjectError _ _ _) _ ?_ (fun _ e => execLaneInjectError_keeps hR.sub _ _ _ ?_ e))
    | (with_reducible refine Ans.after_keeps (execLaneSlip _ _ _ _) _ ?_ (fun _ e => execLaneSlip_keeps hR.sub _ _ _ _ ?_ e))
    | (with_reducible refine Ans.after_keeps (execLaneTimingWrite _ _ _ _) _ ?_ (fun _ e => execLaneTimingWrite_keeps hR.sub _ _ _ _ ?_ e))
    | (with_reducible refine Ans.after_keeps (execLoopMeasure _ _ _) _ ?_ (fun _ e => execLoopMeasure_keeps hR.sub _ _ _ ?_ e))
    | (with_reducible refine Ans.after_keeps (execTrFfeWrite _ _ _ _ _ _) _ ?_ (fun _ e => execTrFfeWrite_keeps hR.sub _ _ _ _ _ _ ?_ e))
    | (with_reducible refine Ans.after_keeps (execTrunkEnable _ _ _) _ ?_ (fun _ e => execTrunkEnable_keeps hR.sub _ _ _ ?_ e))
    | (with_reducible refine Ans.after_keeps (execTrunkInjectError _ _ _) _ ?_ (fun _ e => execTrunkInjectError_keeps hR.sub _ _ _ ?_ e))
    | (with_reducible refine Ans.after_keeps (execTrunkReadapt _ _ _) _ ?_ (fun _ e => execTrunkReadapt_keeps hR.sub _ _ _ ?_ e))
    | fail_if_no_progress (with_reducible apply hR.upd; all_goals try first | with_reducible exact .inr rfl | exact .inl (by decide +kernel) | exact id)
    | dsimp only
    | intro _ _
    | intro _
    | contradiction
    | (unfold id)
    | split
    | (rename_i hh; injection hh with hh; subst hh)
    | (rename_i hh; split at hh)

def opPartsHostWritten : List Part :=
  [.regs, .out, .stewards, .qps, .mail, .cfgWait, .sxq, .txq, .ppsEnd, .rstUnlock]
def opFieldsHostWritten : FSet :=
  ⟨[.EVT_ACK_SEQ, .HIF_QP_CTL_EN, .HIF_QP_DONE_CNT_COUNT, .HIF_QP_HEAD_CQ_TAIL, .HIF_QP_HEAD_SQ_HEAD, .HIF_QP_STAT_ERR,
    .HIF_QP_STAT_PHASE, .HIF_QP_STAT_STATE, .SX_ADJ_RATE, .SX_CTL_DELAY, .SX_CTL_DOMAIN, .SX_CTL_MODE, .SX_CTL_OC_PORT,
    .SX_CTL_SERVO, .SX_CTL_SYNTONISE, .SX_CTL_TRANSPORT, .SX_PORT_STAT_PSTATE, .SX_STAT_REF_CODE, .SX_STAT_STEP_REF,
    .SX_STEP_CMD_BUSY], [], [], false⟩

theorem State.hostWritten_keeps {R : State → Prop} (hR : Keeps opPartsHostWritten opFieldsHostWritten R) (s : State) (w : Writer) (r : Reg) (i : List Nat) (v : Nat)
    (hI : R s) : R (State.hostWritten s w r i v) := by
  unfold State.hostWritten
  try dsimp only
  repeat' first
    | with_reducible assumption
    | exact hR.sub
    | exact fun h => memWf_memStore h
    | exact fun h => memWf_memPut h
    | exact fun h => memWf_filter _ h
    | exact fun _ => rfl
    | with_reducible apply rel_ite
    | with_reducible refine hR.wr _ _ _ (by decide +kernel) (by first | decide +kernel | exact hasFld_self _ _ | exact hasFld_all _ | (simp [hasFld]; done) ) ?_
    | with_reducible apply State.emit_keeps
    | (with_reducible refine Ans.after_keeps (execEvtAckWrite _ _ _) _ ?_ (fun _ e => execEvtAckWrite_keeps hR.sub _ _ _ ?_ e))
    | (with_reducible refine Ans.after_keeps (execQpDisable _ _ _) _ ?_ (fun _ e => execQpDisable_keeps hR.sub _ _ _ ?_ e))
    | (with_reducible refine Ans.after_keeps (execQpEnable _ _ _) _ ?_ (fun _ e => execQpEnable_keeps hR.sub _ _ _ ?_ e))
    | (with_reducible refine Ans.after_keeps (execSet _ _ _) _ ?_ (fun _ e => execSet_keeps hR.sub _ _ _ ?_ e))
    | (with_reducible refine Ans.after_keeps (execStep _ _ _) _ ?_ (fun _ e => execStep_keeps hR.sub _ _ _ ?_ e))
    | (with_reducible refine Ans.after_keeps (execSxAdjWrite _ _ _) _ ?_ (fun _ e => execSxAdjWrite_keeps hR.sub _ _ _ ?_ e))
    | (with_reducible refine Ans.after_keeps (execSxCtlWrite _ _ _) _ ?_ (fun _ e => execSxCtlWrite_keeps hR.sub _ _ _ ?_ e))
    | (with_reducible refine Ans.after_keeps (execSxTxqPop _ _ _) _ ?_ (fun _ e => execSxTxqPop_keeps hR.sub _ _ _ ?_ e))
    | fail_if_no_progress (with_reducible apply hR.upd; all_goals try first | with_reducible exact .inr rfl | exact .inl (by decide +kernel) | exact id)
    | dsimp only
    | intro _ _
    | intro _
    | contradiction
    | (unfold id)
    | split
    | (rename_i hh; injection hh with hh; subst hh)
    | (rename_i hh; split at hh)

def opPartsHubWritten : List Part :=
  (.now :: .local_ :: .regs :: .answer :: .out :: .draws :: .stewards :: .govs :: .sec :: .tree :: .fab :: .eng :: .fixq
    :: .hbm :: .poison :: .win :: .rcLines :: .rcMiss :: .rcWb :: .sf :: .sfAge :: .haIn :: .haTx :: .rcLossT :: .seals
    :: .hbmPort :: .hbmPc :: .stack :: .arbs :: .rtq :: .ni :: .bearings :: .rtPend :: .drainT :: .gkLink :: .gkDir ::
    .gkPool :: .crossIn :: .lane :: .trunk :: .bundle :: .qps :: .cfgWait :: .cfgLoad :: .cfg :: .spinePull :: .synth ::
    .fvs :: .dieRt :: .hold :: .relq :: .rstq :: .rstUnlock :: .lsFuse :: .scrub :: [])
def opFieldsHubWritten : FSet :=
  ⟨(.BOOT_STAT_CFG :: .BOOT_STAT_CFG_STATUS :: .CLKOUT_CTL_SRC :: .CLK_MON_REF_OK :: .CLK_SRC_ACTIVE ::
    .CLK_SRC_DEAD_RECK :: .CLK_SRC_GLIDING :: .CLK_SRC_SEL :: .CLK_SSC_DEPTH :: .CLK_SSC_FREQ :: .CL_BND_STAT_STATE ::
    .ENG_STATUS_STATE :: .FCLK_GSEL_LOCKED :: .FIX_CFG_QUORUM :: .FIX_STAT_COUNT :: .FSYN_CTL_GLIDING ::
    .FSYN_CTL_LOCKED :: .GK_GRP_STAT_ROLE :: .GK_STAT_COH :: .GK_STAT_CROSS :: .GK_STAT_NOC :: .GK_STAT_NOC_DETOUR ::
    .GK_STAT_STATE :: .HA_BACKINV_CNT_COUNT :: .HA_STAT_SF_LEVEL :: .HBM_STAT_STATE :: .HELM_IC_PEND_BITS ::
    .HIF_QP_DONE_CNT_COUNT :: .HIF_QP_STAT_STATE :: .HUB_DIE_STATE_KIND :: .HUB_DIE_STATE_POS :: .HUB_DIE_STATE_PRESENT
    :: .HUB_DIE_STATE_STATE :: .NOC_NI_ALT_CNT_COUNT :: .NOC_NI_BOUNCE_CNT_COUNT :: .NOC_NI_ERR_CODE :: .NOC_NI_ERR_DEST
    :: .NOC_NI_ERR_VALID :: .NOC_NI_FAIL_CNT_COUNT :: .PG_ERR_OP :: .PG_ERR_OVERSIZE :: .PG_ERR_UNITS :: .PG_ERR_VALID
    :: .PG_TO_CNT_COUNT :: .PWR_DIE_STAT_BUSY :: .PWR_DIE_STAT_DOMAINS :: .PWR_DIE_STAT_PSTATE :: .PWR_DIE_STAT_REFUSED
    :: .RC_SNP_CNT_COUNT :: .RC_WB_CNT_COUNT :: .RST_DIE_STAT_CAUSE :: .RST_DIE_STAT_HELD :: .RST_DIE_STAT_REFUSED ::
    .RST_DIE_STAT_RESETS :: .RST_DIE_STAT_START_ERR :: .SEAL_STAT_KIND :: .SEAL_STAT_PERMIT_WAIT :: .SEAL_STAT_QUEUE ::
    .SEAL_STAT_RANGE :: .SEC_CTL_RESET :: .SEC_STATUS_ISOLATED :: .SEC_STATUS_PERMIT_WAIT :: .SEC_STATUS_RESET_HELD ::
    .SEC_STATUS_STATE :: .SPN_SYN_FREQ :: .SPN_SYN_GLIDING :: .SX_STAT_DEAD_RECK :: .TR_STAT_STATE :: []), [.die, .eng,
    .sec], [], false⟩

theorem State.hubWritten_keeps {R : State → Prop} (hR : Keeps opPartsHubWritten opFieldsHubWritten R) (s : State) (w : Writer) (r : Reg) (i : List Nat) (v : Nat) (env : RegEnv) (s0 : State)
    (hI : R s) (hI1 : R s0) : R (State.hubWritten s w r i v env s0) := by
  unfold State.hubWritten
  try dsimp only
  repeat' first
    | with_reducible assumption
    | exact hR.sub
    | exact fun h => memWf_memStore h
    | exact fun h => memWf_memPut h
    | exact fun h => memWf_filter _ h
    | exact fun _ => rfl
    | with_reducible apply rel_ite
    | with_reducible apply State.clkout_keeps
    | with_reducible apply State.fixHost_keeps
    | with_reducible apply State.fixHostBoth_keeps
    | with_reducible apply State.fuse_keeps
    | (with_reducible refine Ans.after_keeps (execClkSourceSelect _ _ _ _ _) _ ?_ (fun _ e => execClkSourceSelect_keeps hR.sub _ _ _ _ _ ?_ e))
    | (with_reducible refine Ans.after_keeps (execClkSrcReturn _ _ _) _ ?_ (fun _ e => execClkSrcReturn_keeps hR.sub _ _ _ ?_ e))
    | (with_reducible refine Ans.after_keeps (execClkSscWrite _ _ _ _) _ ?_ (fun _ e => execClkSscWrite_keeps hR.sub _ _ _ _ ?_ e))
    | (with_reducible refine Ans.after_keeps (execClkoutSwitch _ _ _ _) _ ?_ (fun _ e => execClkoutSwitch_keeps hR.sub _ _ _ _ ?_ e))
    | (with_reducible refine Ans.after_keeps (execDieStart _ _ _ _) _ ?_ (fun _ e => execDieStart_keeps hR.sub _ _ _ _ ?_ e))
    | (with_reducible refine Ans.after_keeps (execFixCfgWrite _ _ _ _) _ ?_ (fun _ e => execFixCfgWrite_keeps hR.sub _ _ _ _ ?_ e))
    | (with_reducible refine Ans.after_keeps (execPlannedDieReset _ _ _) _ ?_ (fun _ e => execPlannedDieReset_keeps hR.sub _ _ _ ?_ e))
    | (with_reducible refine Ans.after_keeps (execPwrEnterP1 _ _ _) _ ?_ (fun _ e => execPwrEnterP1_keeps hR.sub _ _ _ ?_ e))
    | (with_reducible refine Ans.after_keeps (execPwrEnterP2 _ _ _) _ ?_ (fun _ e => execPwrEnterP2_keeps hR.sub _ _ _ ?_ e))
    | (with_reducible refine Ans.after_keeps (execPwrEnterP3 _ _ _) _ ?_ (fun _ e => execPwrEnterP3_keeps hR.sub _ _ _ ?_ e))
    | (with_reducible refine Ans.after_keeps (execPwrReturnP0 _ _ _ _ _) _ ?_ (fun _ e => execPwrReturnP0_keeps hR.sub _ _ _ _ _ ?_ e))
    | (with_reducible refine Ans.after_keeps (execSpnSynWrite _ _ _ _) _ ?_ (fun _ e => execSpnSynWrite_keeps hR.sub _ _ _ _ ?_ e))
    | fail_if_no_progress (with_reducible apply hR.upd; all_goals try first | with_reducible exact .inr rfl | exact .inl (by decide +kernel) | exact id)
    | dsimp only
    | intro _ _
    | intro _
    | contradiction
    | (unfold id)
    | split
    | (rename_i hh; injection hh with hh; subst hh)
    | (rename_i hh; split at hh)

def opPartsRecoveryWritten : List Part :=
  (.now :: .local_ :: .clocksUp :: .regs :: .answer :: .out :: .draws :: .stewards :: .evlog :: .jtodo :: .journal ::
    .health :: .repairs :: .govs :: .sec :: .tree :: .fab :: .eng :: .fixq :: .bcasts :: .hbm :: .poison :: .win ::
    .flash :: .rcLines :: .rcMiss :: .rcWb :: .sf :: .sfAge :: .haIn :: .haTx :: .homeOut :: .rcLossT :: .seals ::
    .leafMaj :: .leafMin :: .innerC :: .ccache :: .hwm :: .lostN :: .reenc :: .ccT :: .keys :: .keyOp :: .sessions ::
    .lastSes :: .hbmPort :: .hbmPc :: .stack :: .arbs :: .rtq :: .ni :: .bearings :: .rtPend :: .drainT :: .gkLink ::
    .gkDir :: .gkPool :: .crossIn :: .lane :: .trunk :: .bundle :: .hubDown :: .rebaseDue :: .qps :: .rot :: .vecs ::
    .mail :: .pcie :: .cfgWait :: .cfgLoad :: .loadN :: .cfg :: .cfgMeas :: .fwMeas :: .sxq :: .txq :: .residences ::
    .stepN :: .rxStamp :: .sxDiscard :: .sxMeas :: .ppsEnd :: .spinePull :: .anchorE :: .anchorT :: .synth :: .fvs ::
    .dieRt :: .hold :: .relq :: .rstq :: .flashMode :: .stage2T :: .auto :: .noAuto :: .warm :: .warmT :: .rstUnlock ::
    .tele :: .ioOff :: .lsFuse :: .transport :: .trngT :: .trngSaid :: .dbgWait :: .rcvN :: .flashOp :: .helm :: .helmL1
    :: .helmL2 :: .flashC :: .irqLine :: .pel :: .tap :: .scrub :: [])

theorem State.recoveryWritten_keeps {R : State → Prop} (hR : Keeps opPartsRecoveryWritten .all R) (s : State) (w : Writer) (r : Reg) (v : Nat) (env : RegEnv)
    (hI : R s) : R (State.recoveryWritten s w r v env) := by
  unfold State.recoveryWritten
  try dsimp only
  repeat' first
    | with_reducible assumption
    | exact hR.sub
    | with_reducible apply rel_ite
    | with_reducible refine hR.wr _ _ _ (by decide +kernel) (by first | decide +kernel | exact hasFld_self _ _ | exact hasFld_all _ | (simp [hasFld]; done) ) ?_
    | with_reducible apply State.recoveryReg_keeps
    | (with_reducible refine Ans.after_keeps (execRecoveryBegin _ _ _ _) _ ?_ (fun _ e => execRecoveryBegin_keeps hR.sub _ _ _ _ ?_ e))
    | (with_reducible refine Ans.after_keeps (execRecoveryData _ _ _) _ ?_ (fun _ e => execRecoveryData_keeps hR.sub _ _ _ ?_ e))
    | (with_reducible refine Ans.after_keeps (execRecoveryEnd _ _ _ _) _ ?_ (fun _ e => execRecoveryEnd_keeps hR.sub _ _ _ _ ?_ e))
    | dsimp only
    | intro _ _
    | intro _
    | contradiction
    | (unfold id)
    | split
    | (rename_i hh; injection hh with hh; subst hh)
    | (rename_i hh; split at hh)

def opPartsRstWritten : List Part :=
  (.now :: .local_ :: .clocksUp :: .regs :: .answer :: .out :: .draws :: .stewards :: .evlog :: .jtodo :: .journal ::
    .health :: .repairs :: .govs :: .sec :: .tree :: .fab :: .eng :: .fixq :: .bcasts :: .hbm :: .poison :: .win ::
    .flash :: .rcLines :: .rcMiss :: .rcWb :: .sf :: .sfAge :: .haIn :: .haTx :: .homeOut :: .rcLossT :: .seals ::
    .leafMaj :: .leafMin :: .innerC :: .ccache :: .hwm :: .lostN :: .reenc :: .ccT :: .keys :: .keyOp :: .sessions ::
    .lastSes :: .hbmPort :: .hbmPc :: .stack :: .arbs :: .rtq :: .ni :: .bearings :: .rtPend :: .drainT :: .gkLink ::
    .gkDir :: .gkPool :: .crossIn :: .lane :: .trunk :: .bundle :: .hubDown :: .rebaseDue :: .qps :: .rot :: .vecs ::
    .mail :: .pcie :: .cfgWait :: .cfgLoad :: .loadN :: .cfg :: .cfgMeas :: .fwMeas :: .sxq :: .txq :: .residences ::
    .stepN :: .rxStamp :: .sxDiscard :: .sxMeas :: .ppsEnd :: .spinePull :: .anchorE :: .anchorT :: .synth :: .fvs ::
    .dieRt :: .hold :: .relq :: .rstq :: .flashMode :: .stage2T :: .auto :: .noAuto :: .warm :: .warmT :: .rstUnlock ::
    .tele :: .ioOff :: .lsFuse :: .transport :: .trngT :: .trngSaid :: .dbgWait :: .rcvN :: .flashOp :: .helm :: .helmL1
    :: .helmL2 :: .flashC :: .irqLine :: .pel :: .tap :: .scrub :: [])

theorem State.rstWritten_keeps {R : State → Prop} (hR : Keeps opPartsRstWritten .all R) (s : State) (w : Writer) (v : Nat)
    (hI : R s) : R (State.rstWritten s w v) := by
  unfold State.rstWritten
  try dsimp only
  repeat' first
    | with_reducible assumption
    | exact hR.sub
    | exact fun h => memWf_memStore h
    | exact fun h => memWf_memPut h
    | exact fun h => memWf_filter _ h
    | exact fun _ => rfl
    | with_reducible apply rel_ite
    | with_reducible apply State.rstCmd_keeps
    | (with_reducible refine Ans.after_keeps (execHubWarmReset _ _) _ ?_ (fun _ e => execHubWarmReset_keeps hR.sub _ _ ?_ e))
    | (with_reducible refine Ans.after_keeps (execPackageReset _ _) _ ?_ (fun _ e => execPackageReset_keeps hR.sub _ _ ?_ e))
    | fail_if_no_progress (with_reducible apply hR.upd; all_goals try first | with_reducible exact .inr rfl | exact .inl (by decide +kernel) | exact id)
    | dsimp only
    | intro _ _
    | intro _
    | contradiction
    | (unfold id)
    | split
    | (rename_i hh; injection hh with hh; subst hh)
    | (rename_i hh; split at hh)

def opPartsCoreWritten : List Part :=
  [.regs, .out, .draws, .stewards, .govs, .eng, .hbm, .poison, .win, .rcLines, .rcWb, .sf, .sfAge, .haIn, .homeOut,
    .leafMaj, .leafMin, .ccache, .hwm, .qps, .mail, .cfgWait, .hold, .rstUnlock, .helm, .helmL1, .helmL2, .flashC]

theorem State.coreWritten_keeps {R : State → Prop} (hR : Keeps opPartsCoreWritten .all R) (s : State) (w : Writer) (r : Reg) (c : Fin 8) (v : Nat) (env : RegEnv)
    (hI : R s) : R (State.coreWritten s w r c v env) := by
  unfold State.coreWritten
  try dsimp only
  repeat' first
    | with_reducible assumption
    | exact hR.sub
    | exact fun h => memWf_memStore h
    | exact fun h => memWf_memPut h
    | exact fun h => memWf_filter _ h
    | exact fun _ => rfl
    | with_reducible apply rel_ite
    | with_reducible apply State.blockWrite_keeps
    | with_reducible apply State.debugWrite_keeps
    | with_reducible apply State.drop_keeps
    | with_reducible apply State.storeFields_keeps
    | with_reducible apply State.wdLoad_keeps
    | with_reducible apply State.wdSync_keeps
    | (with_reducible refine Ans.after_keeps (execDbgHardHalt _ _ _ _ _ _ _) _ ?_ (fun _ e => execDbgHardHalt_keeps hR.sub _ _ _ _ _ _ _ ?_ e))
    | (with_reducible refine Ans.after_keeps (execDbgHardRelease _ _ _) _ ?_ (fun _ e => execDbgHardRelease_keeps hR.sub _ _ _ ?_ e))
    | (with_reducible refine Ans.after_keeps (execDbgMonitorHalt _ _ _) _ ?_ (fun _ e => execDbgMonitorHalt_keeps hR.sub _ _ _ ?_ e))
    | (with_reducible refine Ans.after_keeps (execDbgRegRead _ _ _ _) _ ?_ (fun _ e => execDbgRegRead_keeps hR.sub _ _ _ _ ?_ e))
    | (with_reducible refine Ans.after_keeps (execDbgRegWrite _ _ _ _) _ ?_ (fun _ e => execDbgRegWrite_keeps hR.sub _ _ _ _ ?_ e))
    | (with_reducible refine Ans.after_keeps (execHelmCoreRelease _ _ _) _ ?_ (fun _ e => execHelmCoreRelease_keeps hR.sub _ _ _ ?_ e))
    | (with_reducible refine Ans.after_keeps (execHelmCoreReset _ _ _ _) _ ?_ (fun _ e => execHelmCoreReset_keeps hR.sub _ _ _ _ ?_ e))
    | (with_reducible refine Ans.after_keeps (execHelmMailboxGo _ _ _) _ ?_ (fun _ e => execHelmMailboxGo_keeps hR.sub _ _ _ ?_ e))
    | (with_reducible refine Ans.after_keeps (execWdtKick _ _ _ _) _ ?_ (fun _ e => execWdtKick_keeps hR.sub _ _ _ _ ?_ e))
    | (with_reducible refine Ans.after_keeps (execWdtUnlock _ _ _ _) _ ?_ (fun _ e => execWdtUnlock_keeps hR.sub _ _ _ _ ?_ e))
    | fail_if_no_progress (with_reducible apply hR.upd; all_goals try first | with_reducible exact .inr rfl | exact .inl (by decide +kernel) | exact id)
    | dsimp only
    | intro _ _
    | intro _
    | contradiction
    | (unfold id)
    | split
    | (rename_i hh; injection hh with hh; subst hh)
    | (rename_i hh; split at hh)

theorem State.helmWritten_keeps {R : State → Prop} (hR : Keeps [.regs, .stewards, .helm, .helmL1] ⟨[.HELM_CORE_STAT_LEVEL, .HELM_IC_PEND_BITS, .HELM_PATCH_ADDR_EN, .HELM_PATCH_ADDR_OFF, .HELM_PATCH_DATA_WORD], [], [], false⟩ R) (s : State) (w : Writer) (r : Reg) (i : List Nat) (v : Nat)
    (hI : R s) : R (State.helmWritten s w r i v) := by
  unfold State.helmWritten
  try dsimp only
  repeat' first
    | with_reducible assumption
    | exact hR.sub
    | with_reducible apply rel_ite
    | (with_reducible refine Ans.after_keeps (execHelmIcComplete _ _ _ _) _ ?_ (fun _ e => execHelmIcComplete_keeps hR.sub _ _ _ _ ?_ e))
    | (with_reducible refine Ans.after_keeps (execHelmIcSet _ _ _) _ ?_ (fun _ e => execHelmIcSet_keeps hR.sub _ _ _ ?_ e))
    | (with_reducible refine Ans.after_keeps (execPatchWrite _ _ _ _ _ _) _ ?_ (fun _ e => execPatchWrite_keeps hR.sub _ _ _ _ _ _ ?_ e))
    | dsimp only
    | intro _ _
    | intro _
    | contradiction
    | (unfold id)
    | split
    | (rename_i hh; injection hh with hh; subst hh)
    | (rename_i hh; split at hh)

def opPartsWritten : List Part :=
  (.now :: .local_ :: .regs :: .answer :: .out :: .draws :: .stewards :: .health :: .govs :: .sec :: .tree :: .fab ::
    .eng :: .fixq :: .hbm :: .poison :: .win :: .rcLines :: .rcMiss :: .rcWb :: .sf :: .sfAge :: .haIn :: .haTx ::
    .rcLossT :: .seals :: .keys :: .keyOp :: .hbmPort :: .hbmPc :: .stack :: .arbs :: .rtq :: .ni :: .bearings ::
    .rtPend :: .drainT :: .gkLink :: .gkDir :: .gkPool :: .crossIn :: .lane :: .trunk :: .bundle :: .qps :: .mail ::
    .cfgWait :: .cfgLoad :: .cfg :: .sxq :: .txq :: .ppsEnd :: .spinePull :: .synth :: .fvs :: .dieRt :: .hold :: .relq
    :: .rstq :: .rstUnlock :: .lsFuse :: .helm :: .helmL1 :: .scrub :: [])
def opFieldsWritten : FSet :=
  ⟨(.BOOT_STAT_CFG :: .BOOT_STAT_CFG_STATUS :: .CLKOUT_CTL_SRC :: .CLK_MON_REF_OK :: .CLK_SRC_ACTIVE ::
    .CLK_SRC_DEAD_RECK :: .CLK_SRC_GLIDING :: .CLK_SRC_SEL :: .CLK_SSC_DEPTH :: .CLK_SSC_FREQ :: .CL_BND_CTL_EN ::
    .CL_BND_STAT_GRID :: .CL_BND_STAT_PLL_LOCK :: .CL_BND_STAT_STATE :: .CL_BND_STAT_TRN_ERR :: .CL_CTL_DIV ::
    .CL_CTL_EN :: .CL_CTL_RXMODE :: .CL_CTL_TXINV :: .CL_CTL_USE :: .CL_LOOP_BUSY :: .CL_STAT_CHK_LOCK :: .CL_STAT_LOL
    :: .CL_STAT_LOS :: .CL_STAT_REALIGN :: .CL_STAT_SLIP_POS :: .CL_TIM_RXDSK :: .CL_TIM_RXSTB :: .CL_TIM_TXDSK ::
    .CL_TIM_TXVERN :: .ENG_FAULT_CODE :: .ENG_FAULT_DETAIL :: .ENG_FAULT_PC :: .ENG_FAULT_VALID :: .ENG_GEN_V_VALUE ::
    .ENG_LCNT_COUNT :: .ENG_LREL_COUNT :: .ENG_PC_CUR :: .ENG_STALL_COUNT :: .ENG_STATUS_END_CODE :: .ENG_STATUS_FAIL ::
    .ENG_STATUS_IN_HANDLER :: .ENG_STATUS_STATE :: .ENG_STATUS_TLATE :: .ENG_STATUS_TMR_OVR :: .ENG_STEPS_HI_COUNT ::
    .ENG_STRM_CTL_ENDED :: .ENG_STRM_CTL_RATE :: .ENG_STRM_POS_POS :: .EVT_ACK_SEQ :: .FCLK_GSEL_ACTIVE ::
    .FCLK_GSEL_LOCKED :: .FCLK_GSEL_SRC :: .FCLK_GSEL_SWITCHING :: .FCLK_RSEL_ACTIVE :: .FCLK_RSEL_LOCKED ::
    .FCLK_RSEL_SRC :: .FCLK_RSEL_SWITCHING :: .FC_CMP_HI_COUNT :: .FC_DROP_CNT_COUNT :: .FC_FAIL_CNT_COUNT ::
    .FC_GAP_CNT_COUNT :: .FC_LANES_COUNT :: .FC_LANES_LANE0 :: .FC_LANES_LANE1 :: .FC_LANES_LANE2 :: .FC_LANES_LANE3 ::
    .FC_RING_RD_COUNT :: .FC_RUN_RUN :: .FC_SLICE_FAIL_COUNT :: .FC_STATUS_BM_BUSY :: .FC_UNCHK_CNT_COUNT ::
    .FIX_CFG_QUORUM :: .FIX_STAT_COUNT :: .FSYN_CTL_GLIDING :: .FSYN_CTL_LOCKED :: .FSYN_FREQ_FREQ :: .FVS_CTL_VSEL ::
    .FVS_STAT_BUSY :: .FVS_STAT_FAIL :: .GK_CTL_GROUP :: .GK_CTL_LANE :: .GK_GRP_STAT_LCROSS :: .GK_GRP_STAT_PAUSED ::
    .GK_GRP_STAT_ROLE :: .GK_STAT_COH :: .GK_STAT_CROSS :: .GK_STAT_NOC :: .GK_STAT_NOC_DETOUR :: .GK_STAT_STATE ::
    .HA_BACKINV_CNT_COUNT :: .HA_STAT_SF_LEVEL :: .HBM_CH_STAT_STATE :: .HBM_HASH_MASK :: .HBM_ILV_MODE ::
    .HBM_STAT_STATE :: .HELM_CORE_STAT_LEVEL :: .HELM_IC_PEND_BITS :: .HELM_PATCH_ADDR_EN :: .HELM_PATCH_ADDR_OFF ::
    .HELM_PATCH_DATA_WORD :: .HIF_QP_CTL_EN :: .HIF_QP_DONE_CNT_COUNT :: .HIF_QP_HEAD_CQ_TAIL :: .HIF_QP_HEAD_SQ_HEAD ::
    .HIF_QP_STAT_ERR :: .HIF_QP_STAT_PHASE :: .HIF_QP_STAT_STATE :: .HUB_DIE_STATE_KIND :: .HUB_DIE_STATE_POS ::
    .HUB_DIE_STATE_PRESENT :: .HUB_DIE_STATE_STATE :: .MGMT_HEALTH_STAGE :: .MGMT_HEALTH_ZERO :: .NOC_NI_ALT_CNT_COUNT
    :: .NOC_NI_BDATA_WORD :: .NOC_NI_BOUNCE_CNT_COUNT :: .NOC_NI_BSEL_INDEX :: .NOC_NI_ERR_CODE :: .NOC_NI_ERR_DEST ::
    .NOC_NI_ERR_VALID :: .NOC_NI_FAIL_CNT_COUNT :: .NOC_RTR_PORT_DRAIN :: .NOC_RTR_PORT_DRAINED :: .NOC_RTR_PORT_EN ::
    .NOC_RTR_VC_PST :: .NOC_RTR_VC_REQ :: .NOC_RTR_VC_RSP :: .NOC_RTR_VC_SNP :: .PG_ERR_OP :: .PG_ERR_OVERSIZE ::
    .PG_ERR_UNITS :: .PG_ERR_VALID :: .PG_TO_CNT_COUNT :: .PWR_DIE_STAT_BUSY :: .PWR_DIE_STAT_DOMAINS ::
    .PWR_DIE_STAT_PSTATE :: .PWR_DIE_STAT_REFUSED :: .RCW_CTL_BUSY :: .RCW_CTL_EN :: .RC_CMD_BUSY :: .RC_SNP_CNT_COUNT
    :: .RC_STAT_RETAINED :: .RC_STAT_STATE :: .RC_WB_CNT_COUNT :: .RST_DIE_STAT_CAUSE :: .RST_DIE_STAT_HELD ::
    .RST_DIE_STAT_REFUSED :: .RST_DIE_STAT_RESETS :: .RST_DIE_STAT_START_ERR :: .SEAL_CTL_RATE :: .SEAL_ERR_ADDR_HI_ADDR
    :: .SEAL_ERR_ADDR_LO_ADDR :: .SEAL_ERR_CODE :: .SEAL_ERR_LEVEL :: .SEAL_ERR_RANGE :: .SEAL_ERR_VALID ::
    .SEAL_KEY_BUSY :: .SEAL_KEY_FAIL :: .SEAL_KEY_SESSION :: .SEAL_KEY_SLOT :: .SEAL_POS_POS :: .SEAL_RCTL_OWNER ::
    .SEAL_RSTAT_KEYS :: .SEAL_RSTAT_STATE :: .SEAL_RSTAT_SWSTOP :: .SEAL_STAT_KIND :: .SEAL_STAT_PERMIT_WAIT ::
    .SEAL_STAT_QUEUE :: .SEAL_STAT_RANGE :: .SEC_CTL_RESET :: .SEC_STATUS_ISOLATED :: .SEC_STATUS_PERMIT_WAIT ::
    .SEC_STATUS_RESET_HELD :: .SEC_STATUS_STATE :: .SPN_SYN_FREQ :: .SPN_SYN_GLIDING :: .SX_ADJ_RATE :: .SX_CTL_DELAY ::
    .SX_CTL_DOMAIN :: .SX_CTL_MODE :: .SX_CTL_OC_PORT :: .SX_CTL_SERVO :: .SX_CTL_SYNTONISE :: .SX_CTL_TRANSPORT ::
    .SX_PORT_STAT_PSTATE :: .SX_STAT_DEAD_RECK :: .SX_STAT_REF_CODE :: .SX_STAT_STEP_REF :: .SX_STEP_CMD_BUSY ::
    .TR_CTL_EN :: .TR_FFE_POST1 :: .TR_FFE_PRE1 :: .TR_FFE_PRE2 :: .TR_STAT_CHK_LOCK :: .TR_STAT_STATE :: []), [.die,
    .eng, .sec], [], false⟩

theorem State.written_keeps {R : State → Prop} (hR : Keeps opPartsWritten opFieldsWritten R) (s : State) (w : Writer) (r : Reg) (i : List Nat) (v : Nat) (env : RegEnv) (s0 : State)
    (hI : R s) (hI1 : R s0) : R (State.written s w r i v env s0) := by
  unfold State.written
  try dsimp only
  repeat' first
    | with_reducible assumption
    | exact hR.sub
    | exact fun h => memWf_memStore h
    | exact fun h => memWf_memPut h
    | exact fun h => memWf_filter _ h
    | exact fun _ => rfl
    | with_reducible apply rel_ite
    | with_reducible apply State.engWritten_keeps
    | with_reducible apply State.fabricWritten_keeps
    | with_reducible apply State.helmWritten_keeps
    | with_reducible apply State.hostWritten_keeps
    | with_reducible apply State.hubWritten_keeps
    | with_reducible apply State.laneWritten_keeps
    | with_reducible apply State.memWritten_keeps
    | with_reducible apply State.nocWritten_keeps
    | fail_if_no_progress (with_reducible apply hR.upd; all_goals try first | with_reducible exact .inr rfl | exact .inl (by decide +kernel) | exact id)
    | dsimp only
    | intro _ _
    | intro _
    | contradiction
    | (unfold id)
    | split
    | (rename_i hh; injection hh with hh; subst hh)
    | (rename_i hh; split at hh)

theorem State.spineWritten_keeps {R : State → Prop} (hR : Keeps [.regs, .stewards] ⟨[.GK_CTL_SPINE], [], [], false⟩ R) (s : State) (w : Writer) (i : List Nat) (v : Nat)
    (hI : R s) : R (State.spineWritten s w i v) := by
  unfold State.spineWritten
  try dsimp only
  repeat' first
    | with_reducible assumption
    | exact hR.sub
    | with_reducible apply rel_ite
    | with_reducible refine hR.wr _ _ _ (by decide +kernel) (by first | decide +kernel | exact hasFld_self _ _ | exact hasFld_all _ | (simp [hasFld]; done) ) ?_
    | with_reducible apply State.drop_keeps
    | dsimp only
    | intro _ _
    | intro _
    | contradiction
    | (unfold id)
    | split
    | (rename_i hh; injection hh with hh; subst hh)
    | (rename_i hh; split at hh)

theorem State.roleWritten_keeps {R : State → Prop} (hR : Keeps [.regs, .stewards] ⟨[.GK_ROLE_COH, .GK_ROLE_XSECT], [], [], false⟩ R) (s : State) (w : Writer) (i : List Nat) (v : Nat)
    (hI : R s) : R (State.roleWritten s w i v) := by
  unfold State.roleWritten
  try dsimp only
  repeat' first
    | with_reducible assumption
    | exact hR.sub
    | with_reducible apply rel_ite
    | (with_reducible refine Ans.after_keeps (execGkRoleWrite _ _ _ _ _) _ ?_ (fun _ e => execGkRoleWrite_keeps hR.sub _ _ _ _ _ ?_ e))
    | dsimp only
    | intro _ _
    | intro _
    | contradiction
    | (unfold id)
    | split
    | (rename_i hh; injection hh with hh; subst hh)
    | (rename_i hh; split at hh)

def opPartsWriteReg : List Part :=
  (.now :: .local_ :: .clocksUp :: .regs :: .answer :: .out :: .draws :: .stewards :: .evlog :: .jtodo :: .journal ::
    .health :: .repairs :: .govs :: .sec :: .tree :: .fab :: .eng :: .fixq :: .bcasts :: .hbm :: .poison :: .win ::
    .flash :: .rcLines :: .rcMiss :: .rcWb :: .sf :: .sfAge :: .haIn :: .haTx :: .homeOut :: .rcLossT :: .seals ::
    .leafMaj :: .leafMin :: .innerC :: .ccache :: .hwm :: .lostN :: .reenc :: .ccT :: .keys :: .keyOp :: .sessions ::
    .lastSes :: .hbmPort :: .hbmPc :: .stack :: .arbs :: .rtq :: .ni :: .bearings :: .rtPend :: .drainT :: .gkLink ::
    .gkDir :: .gkPool :: .crossIn :: .lane :: .trunk :: .bundle :: .hubDown :: .rebaseDue :: .qps :: .rot :: .vecs ::
    .mail :: .pcie :: .cfgWait :: .cfgLoad :: .loadN :: .cfg :: .cfgMeas :: .fwMeas :: .sxq :: .txq :: .residences ::
    .stepN :: .rxStamp :: .sxDiscard :: .sxMeas :: .ppsEnd :: .spinePull :: .anchorE :: .anchorT :: .synth :: .fvs ::
    .dieRt :: .hold :: .relq :: .rstq :: .flashMode :: .stage2T :: .auto :: .noAuto :: .warm :: .warmT :: .rstUnlock ::
    .tele :: .ioOff :: .lsFuse :: .transport :: .trngT :: .trngSaid :: .dbgWait :: .rcvN :: .flashOp :: .helm :: .helmL1
    :: .helmL2 :: .flashC :: .irqLine :: .pel :: .tap :: .scrub :: [])

theorem State.writeReg_keeps {R : State → Prop} (hR : Keeps opPartsWriteReg .all R) (s : State) (w : Writer) (r : Reg) (i : List Nat) (v : Nat) (env : RegEnv)
    (hI : R s) : R (State.writeReg s w r i v env) := by
  unfold State.writeReg
  try dsimp only
  repeat' first
    | with_reducible assumption
    | exact hR.sub
    | with_reducible apply rel_ite
    | with_reducible apply State.coreWritten_keeps
    | with_reducible apply State.drop_keeps
    | with_reducible apply State.reach_keeps
    | with_reducible apply State.recoveryWritten_keeps
    | with_reducible apply State.roleWritten_keeps
    | with_reducible apply State.rstWritten_keeps
    | with_reducible apply State.spineWritten_keeps
    | with_reducible apply State.storeFields_keeps
    | with_reducible apply State.written_keeps
    | (with_reducible refine Ans.after_keeps (execRstUnlock _ _ _) _ ?_ (fun _ e => execRstUnlock_keeps hR.sub _ _ _ ?_ e))
    | (with_reducible refine Ans.after_keeps (execSealClaim _ _ _ _) _ ?_ (fun _ e => execSealClaim_keeps hR.sub _ _ _ _ ?_ e))
    | dsimp only
    | intro _ _
    | intro _
    | contradiction
    | (unfold id)
    | split
    | (rename_i hh; injection hh with hh; subst hh)
    | (rename_i hh; split at hh)

theorem State.msixWrite_keeps {R : State → Prop} (hR : Keeps [.out, .vecs] ⟨[], [], [], false⟩ R) (s : State) (f a v : Nat)
    (hI : R s) : R (State.msixWrite s f a v) := by
  unfold State.msixWrite
  try dsimp only
  repeat' first
    | with_reducible assumption
    | exact hR.sub
    | exact fun h => memWf_memStore h
    | exact fun h => memWf_memPut h
    | exact fun h => memWf_filter _ h
    | exact fun _ => rfl
    | with_reducible apply rel_ite
    | with_reducible apply State.sendVec_keeps
    | with_reducible apply State.setVec_keeps
    | fail_if_no_progress (with_reducible apply hR.upd; all_goals try first | with_reducible exact .inr rfl | exact .inl (by decide +kernel) | exact id)
    | dsimp only
    | intro _ _
    | intro _
    | contradiction
    | (unfold id)
    | split
    | (rename_i hh; injection hh with hh; subst hh)
    | (rename_i hh; split at hh)

def opPartsWrite32 : List Part :=
  (.now :: .local_ :: .clocksUp :: .regs :: .answer :: .out :: .draws :: .stewards :: .evlog :: .jtodo :: .journal ::
    .health :: .repairs :: .govs :: .sec :: .tree :: .fab :: .eng :: .fixq :: .bcasts :: .hbm :: .poison :: .win ::
    .flash :: .rcLines :: .rcMiss :: .rcWb :: .sf :: .sfAge :: .haIn :: .haTx :: .homeOut :: .rcLossT :: .seals ::
    .leafMaj :: .leafMin :: .innerC :: .ccache :: .hwm :: .lostN :: .reenc :: .ccT :: .keys :: .keyOp :: .sessions ::
    .lastSes :: .hbmPort :: .hbmPc :: .stack :: .arbs :: .rtq :: .ni :: .bearings :: .rtPend :: .drainT :: .gkLink ::
    .gkDir :: .gkPool :: .crossIn :: .lane :: .trunk :: .bundle :: .hubDown :: .rebaseDue :: .qps :: .rot :: .vecs ::
    .mail :: .pcie :: .cfgWait :: .cfgLoad :: .loadN :: .cfg :: .cfgMeas :: .fwMeas :: .sxq :: .txq :: .residences ::
    .stepN :: .rxStamp :: .sxDiscard :: .sxMeas :: .ppsEnd :: .spinePull :: .anchorE :: .anchorT :: .synth :: .fvs ::
    .dieRt :: .hold :: .relq :: .rstq :: .flashMode :: .stage2T :: .auto :: .noAuto :: .warm :: .warmT :: .rstUnlock ::
    .tele :: .ioOff :: .lsFuse :: .transport :: .trngT :: .trngSaid :: .dbgWait :: .rcvN :: .flashOp :: .helm :: .helmL1
    :: .helmL2 :: .flashC :: .irqLine :: .pel :: .tap :: .scrub :: [])

theorem State.write32_keeps {R : State → Prop} (hR : Keeps opPartsWrite32 .all R) (s : State) (w : Writer) (a v : Nat) (env : RegEnv)
    (hI : R s) : R (State.write32 s w a v env) := by
  unfold State.write32
  try dsimp only
  repeat' first
    | with_reducible assumption
    | exact hR.sub
    | exact fun h => memWf_memStore h
    | exact fun h => memWf_memPut h
    | exact fun h => memWf_filter _ h
    | exact fun _ => rfl
    | with_reducible apply rel_ite
    | with_reducible apply State.msixWrite_keeps
    | with_reducible apply State.raiseFixed_keeps
    | with_reducible apply State.writeReg_keeps
    | fail_if_no_progress (with_reducible apply hR.upd; all_goals try first | with_reducible exact .inr rfl | exact .inl (by decide +kernel) | exact id)
    | dsimp only
    | intro _ _
    | intro _
    | contradiction
    | (unfold id)
    | split
    | (rename_i hh; injection hh with hh; subst hh)
    | (rename_i hh; split at hh)

theorem State.narrowWrite_keeps {R : State → Prop} (hR : Keeps [.stewards] ⟨[], [], [], false⟩ R) (s : State) (w : Writer) (off v : Nat)
    (hI : R s) : R (State.narrowWrite s w off v) := by
  unfold State.narrowWrite
  try dsimp only
  repeat' first
    | with_reducible assumption
    | exact hR.sub
    | exact fun h => memWf_memStore h
    | exact fun h => memWf_memPut h
    | exact fun h => memWf_filter _ h
    | exact fun _ => rfl
    | with_reducible apply rel_ite
    | with_reducible apply State.deadAccess_keeps
    | with_reducible apply State.raiseFixed_keeps
    | fail_if_no_progress (with_reducible apply hR.upd; all_goals try first | with_reducible exact .inr rfl | exact .inl (by decide +kernel) | exact id)
    | dsimp only
    | intro _ _
    | intro _
    | contradiction
    | (unfold id)
    | split
    | (rename_i hh; injection hh with hh; subst hh)
    | (rename_i hh; split at hh)

def opPartsLanePair : List Part :=
  (.now :: .local_ :: .clocksUp :: .regs :: .answer :: .out :: .draws :: .stewards :: .evlog :: .jtodo :: .journal ::
    .health :: .repairs :: .govs :: .sec :: .tree :: .fab :: .eng :: .fixq :: .bcasts :: .hbm :: .poison :: .win ::
    .flash :: .rcLines :: .rcMiss :: .rcWb :: .sf :: .sfAge :: .haIn :: .haTx :: .homeOut :: .rcLossT :: .seals ::
    .leafMaj :: .leafMin :: .innerC :: .ccache :: .hwm :: .lostN :: .reenc :: .ccT :: .keys :: .keyOp :: .sessions ::
    .lastSes :: .hbmPort :: .hbmPc :: .stack :: .arbs :: .rtq :: .ni :: .bearings :: .rtPend :: .drainT :: .gkLink ::
    .gkDir :: .gkPool :: .crossIn :: .lane :: .trunk :: .bundle :: .hubDown :: .rebaseDue :: .qps :: .rot :: .vecs ::
    .mail :: .pcie :: .cfgWait :: .cfgLoad :: .loadN :: .cfg :: .cfgMeas :: .fwMeas :: .sxq :: .txq :: .residences ::
    .stepN :: .rxStamp :: .sxDiscard :: .sxMeas :: .ppsEnd :: .spinePull :: .anchorE :: .anchorT :: .synth :: .fvs ::
    .dieRt :: .hold :: .relq :: .rstq :: .flashMode :: .stage2T :: .auto :: .noAuto :: .warm :: .warmT :: .rstUnlock ::
    .tele :: .ioOff :: .lsFuse :: .transport :: .trngT :: .trngSaid :: .dbgWait :: .rcvN :: .flashOp :: .helm :: .helmL1
    :: .helmL2 :: .flashC :: .irqLine :: .pel :: .tap :: .scrub :: [])

theorem State.lanePair_keeps {R : State → Prop} (hR : Keeps opPartsLanePair .all R) (s : State) (f n off v : Nat) (env : RegEnv)
    (hI : R s) : R (State.lanePair s f n off v env).2 := by
  unfold State.lanePair
  try dsimp only
  repeat' first
    | with_reducible assumption
    | exact hR.sub
    | exact fun h => memWf_memStore h
    | exact fun h => memWf_memPut h
    | exact fun h => memWf_filter _ h
    | exact fun _ => rfl
    | with_reducible apply rel_ite
    | with_reducible apply State.write32_keeps
    | fail_if_no_progress (with_reducible apply hR.upd; all_goals try first | with_reducible exact .inr rfl | exact .inl (by decide +kernel) | exact id)
    | dsimp only
    | intro _ _
    | intro _
    | contradiction
    | (unfold id)
    | split
    | (rename_i hh; injection hh with hh; subst hh)
    | (rename_i hh; split at hh)

theorem State.lanePair_keeps_of {R : State → Prop} (hR : Keeps opPartsLanePair .all R) (s : State) (f n off v : Nat) (env : RegEnv)
    (hI : R s) {a : Bool} {tT : State} (eE : State.lanePair s f n off v env = (a, tT)) : R tT := by
  have h := State.lanePair_keeps hR s f n off v env hI
  rw [eE] at h
  exact h

def opPartsLanePairs : List Part :=
  (.now :: .local_ :: .clocksUp :: .regs :: .answer :: .out :: .draws :: .stewards :: .evlog :: .jtodo :: .journal ::
    .health :: .repairs :: .govs :: .sec :: .tree :: .fab :: .eng :: .fixq :: .bcasts :: .hbm :: .poison :: .win ::
    .flash :: .rcLines :: .rcMiss :: .rcWb :: .sf :: .sfAge :: .haIn :: .haTx :: .homeOut :: .rcLossT :: .seals ::
    .leafMaj :: .leafMin :: .innerC :: .ccache :: .hwm :: .lostN :: .reenc :: .ccT :: .keys :: .keyOp :: .sessions ::
    .lastSes :: .hbmPort :: .hbmPc :: .stack :: .arbs :: .rtq :: .ni :: .bearings :: .rtPend :: .drainT :: .gkLink ::
    .gkDir :: .gkPool :: .crossIn :: .lane :: .trunk :: .bundle :: .hubDown :: .rebaseDue :: .qps :: .rot :: .vecs ::
    .mail :: .pcie :: .cfgWait :: .cfgLoad :: .loadN :: .cfg :: .cfgMeas :: .fwMeas :: .sxq :: .txq :: .residences ::
    .stepN :: .rxStamp :: .sxDiscard :: .sxMeas :: .ppsEnd :: .spinePull :: .anchorE :: .anchorT :: .synth :: .fvs ::
    .dieRt :: .hold :: .relq :: .rstq :: .flashMode :: .stage2T :: .auto :: .noAuto :: .warm :: .warmT :: .rstUnlock ::
    .tele :: .ioOff :: .lsFuse :: .transport :: .trngT :: .trngSaid :: .dbgWait :: .rcvN :: .flashOp :: .helm :: .helmL1
    :: .helmL2 :: .flashC :: .irqLine :: .pel :: .tap :: .scrub :: [])

theorem State.lanePairs_keeps {R : State → Prop} (hR : Keeps opPartsLanePairs .all R) (s : State) (f n d : Nat) (env : RegEnv) (k i : Nat) (hI : R s) :
    R (State.lanePairs s f n d env k i).2 := by
  induction k generalizing s i with
  | zero => exact hI
  | succ k ih =>
    have h := State.lanePair_keeps hR.sub  s f n (dWord d (8 + 2 * i)) (dWord d (9 + 2 * i)) env hI
    rw [State.lanePairs]
    generalize s.lanePair f n (dWord d (8 + 2 * i)) (dWord d (9 + 2 * i)) env = p at h ⊢
    obtain ⟨b, t⟩ := p
    cases b
    · exact h
    · exact ih _ _ h

theorem State.lanePairs_keeps_of {R : State → Prop} (hR : Keeps opPartsLanePairs .all R) (s : State) (f n d : Nat) (env : RegEnv) (k i : Nat) (hI : R s)
    {a : Option Nat} {t : State} (eE : State.lanePairs s f n d env k i = (a, t)) : R t := by
  have h := State.lanePairs_keeps hR.sub  s f n d env k i hI
  rw [eE] at h; exact h

theorem execLaneCmd_keeps {R : State → Prop} (hR : Keeps partsLaneCmd fieldsLaneCmd R) (q : Fin 1024) (s : State)
    (hI : R s) {tT : State} (eE : execLaneCmd q s = .next tT) : R tT := by
  unfold execLaneCmd at eE
  try dsimp only at eE
  repeat' split at eE
  all_goals try (injection eE with eE; subst eE)
  all_goals repeat' first
    | with_reducible assumption
    | exact hR.sub
    | exact fun h => memWf_memStore h
    | exact fun h => memWf_memPut h
    | exact fun h => memWf_filter _ h
    | exact fun _ => rfl
    | with_reducible apply rel_ite
    | with_reducible apply State.deadAccess_keeps
    | with_reducible apply State.dirNext_keeps
    | with_reducible apply State.flashMessage_keeps
    | with_reducible apply State.jobDone_keeps
    | with_reducible apply State.jobWaits_keeps
    | with_reducible apply State.lanePairs_keeps
    | with_reducible apply State.message_keeps
    | with_reducible apply State.packageReset_keeps
    | with_reducible apply State.powerOn_keeps
    | with_reducible apply State.reach_keeps
    | with_reducible apply State.startOp_keeps
    | fail_if_no_progress (with_reducible apply hR.upd; all_goals try first | with_reducible exact .inr rfl | exact .inl (by decide +kernel) | exact id)
    | dsimp only
    | intro _ _
    | intro _
    | contradiction
    | (unfold id)
    | split
    | (rename_i hh; injection hh with hh; subst hh)
    | (rename_i hh; split at hh)

end Sys2Proof.Machine
end

