-- ==== Sys2Proof/Laws/KeepsPelorus.lean ====
section
/-! SUPPORT. What the operations of `Machine/Pelorus.lean` may change and what they keep. -/

namespace Sys2Proof.Machine

set_option Elab.async false
set_option linter.all false

theorem State.pelCmd_keeps {R : State → Prop} (hR : Keeps [.stewards] ⟨[], [], [], false⟩ R) (s : State) (p : PelSrc) (cmd : Nat) (k : State → State)
    (hI : R s) (hk : ∀  s, R s → R (k  s)) : R (State.pelCmd s p cmd k) := by
  unfold State.pelCmd
  try dsimp only
  repeat' first
    | with_reducible assumption
    | exact hR.sub
    | with_reducible apply rel_ite
    | (with_reducible apply hk)
    | with_reducible apply State.drop_keeps
    | with_reducible apply State.pelBlock_keeps
    | dsimp only
    | intro _ _
    | intro _
    | contradiction
    | (unfold id)
    | split
    | (rename_i hh; injection hh with hh; subst hh)
    | (rename_i hh; split at hh)

theorem State.pelRuns_keeps {R : State → Prop} (hR : Keeps [.regs, .pel] ⟨[.PEL_STAT_BUSY], [], [], false⟩ R) (s : State) (p : PelSrc) (status : Nat) (data : Option Nat) (off : Option Nat)
    (hI : R s) : R (State.pelRuns s p status data off) := by
  unfold State.pelRuns
  try dsimp only
  repeat' first
    | with_reducible assumption
    | exact hR.sub
    | exact fun h => memWf_memStore h
    | exact fun h => memWf_memPut h
    | exact fun h => memWf_filter _ h
    | exact fun _ => rfl
    | with_reducible apply rel_ite
    | with_reducible refine hR.wr _ _ _ (by decide +kernel) (by first | decide +kernel | exact hasFld_self _ _ | exact hasFld_all _ | (simp [hasFld]; done) ) ?_
    | with_reducible apply State.setPel_keeps
    | fail_if_no_progress (with_reducible apply hR.upd; all_goals try first | with_reducible exact .inr rfl | exact .inl (by decide +kernel) | exact id)
    | dsimp only
    | intro _ _
    | intro _
    | contradiction
    | (unfold id)
    | split
    | (rename_i hh; injection hh with hh; subst hh)
    | (rename_i hh; split at hh)

theorem execPelPeek_keeps {R : State → Prop} (hR : Keeps partsPelPeek fieldsPelPeek R) (p : PelSrc) (s : State)
    (hI : R s) {tT : State} (eE : execPelPeek p s = .next tT) : R tT := by
  unfold execPelPeek at eE
  try dsimp only at eE
  repeat' split at eE
  all_goals try (injection eE with eE; subst eE)
  all_goals repeat' first
    | with_reducible assumption
    | exact hR.sub
    | with_reducible apply rel_ite
    | with_reducible apply State.dirNext_keeps
    | with_reducible apply State.flashMessage_keeps
    | with_reducible apply State.message_keeps
    | with_reducible apply State.packageReset_keeps
    | with_reducible apply State.peek32_keeps
    | with_reducible apply State.pelCmd_keeps
    | with_reducible apply State.pelRuns_keeps
    | with_reducible apply State.powerOn_keeps
    | with_reducible apply State.reach_keeps
    | (refine State.peek32_keeps_of hR.sub _ _ _ ?_ (by assumption))
    | dsimp only
    | intro _ _
    | intro _
    | contradiction
    | (unfold id)
    | split
    | (rename_i hh; injection hh with hh; subst hh)
    | (rename_i hh; split at hh)

theorem execPelConsume_keeps {R : State → Prop} (hR : Keeps partsPelConsume fieldsPelConsume R) (p : PelSrc) (env : RegEnv) (s : State)
    (hI : R s) {tT : State} (eE : execPelConsume p env s = .next tT) : R tT := by
  unfold execPelConsume at eE
  try dsimp only at eE
  repeat' split at eE
  all_goals try (injection eE with eE; subst eE)
  all_goals repeat' first
    | with_reducible assumption
    | exact hR.sub
    | with_reducible apply rel_ite
    | with_reducible apply State.dirNext_keeps
    | with_reducible apply State.flashMessage_keeps
    | with_reducible apply State.message_keeps
    | with_reducible apply State.packageReset_keeps
    | with_reducible apply State.pelCmd_keeps
    | with_reducible apply State.pelRuns_keeps
    | with_reducible apply State.powerOn_keeps
    | with_reducible apply State.reach_keeps
    | with_reducible apply State.read32_keeps
    | (refine State.read32_keeps_of hR.sub _ _ _ _ ?_ (by assumption))
    | dsimp only
    | intro _ _
    | intro _
    | contradiction
    | (unfold id)
    | split
    | (rename_i hh; injection hh with hh; subst hh)
    | (rename_i hh; split at hh)

theorem execPelRegWrite_keeps {R : State → Prop} (hR : Keeps partsPelRegWrite fieldsPelRegWrite R) (p : PelSrc) (env : RegEnv) (s : State)
    (hI : R s) {tT : State} (eE : execPelRegWrite p env s = .next tT) : R tT := by
  unfold execPelRegWrite at eE
  try dsimp only at eE
  repeat' split at eE
  all_goals try (injection eE with eE; subst eE)
  all_goals repeat' first
    | with_reducible assumption
    | exact hR.sub
    | with_reducible apply rel_ite
    | with_reducible apply State.dirNext_keeps
    | with_reducible apply State.flashMessage_keeps
    | with_reducible apply State.message_keeps
    | with_reducible apply State.packageReset_keeps
    | with_reducible apply State.pelCmd_keeps
    | with_reducible apply State.pelRuns_keeps
    | with_reducible apply State.powerOn_keeps
    | with_reducible apply State.reach_keeps
    | with_reducible apply State.write32_keeps
    | dsimp only
    | intro _ _
    | intro _
    | contradiction
    | (unfold id)
    | split
    | (rename_i hh; injection hh with hh; subst hh)
    | (rename_i hh; split at hh)

theorem execPelMemRead_keeps {R : State → Prop} (hR : Keeps partsPelMemRead fieldsPelMemRead R) (p : PelSrc) (env : RegEnv) (s : State)
    (hI : R s) {tT : State} (eE : execPelMemRead p env s = .next tT) : R tT := by
  rw [execPelMemRead] at eE
  injection eE with eE; subst eE
  refine State.pelCmd_keeps hR.sub _ _ _ _ hI (fun s h => ?_)
  refine rel_ite (State.pelRuns_keeps hR.sub _ _ _ _ _ h) ?_
  extract_lets g
  generalize hg : s.gRead binMst g (env.line.toNat, env.rd) = r
  have h1 : R r.2.2 := by rw [← hg]; exact State.gRead_keeps hR.sub _ _ _ _ h
  obtain ⟨x, c, s1⟩ := r
  exact State.pelRuns_keeps hR.sub _ _ _ _ _ h1

theorem execPelMemWrite_keeps {R : State → Prop} (hR : Keeps partsPelMemWrite fieldsPelMemWrite R) (p : PelSrc) (env : RegEnv) (s : State)
    (hI : R s) {tT : State} (eE : execPelMemWrite p env s = .next tT) : R tT := by
  rw [execPelMemWrite] at eE
  injection eE with eE; subst eE
  refine State.pelCmd_keeps hR.sub _ _ _ _ hI (fun s h => ?_)
  refine rel_ite (State.pelRuns_keeps hR.sub _ _ _ _ _ h) ?_
  extract_lets g v
  generalize hg : s.gRead binMst g (env.line.toNat, env.rd) = r
  have h1 : R r.2.2 := by rw [← hg]; exact State.gRead_keeps hR.sub _ _ _ _ h
  obtain ⟨x, c, s1⟩ := r
  refine rel_ite (State.pelRuns_keeps hR.sub _ _ _ _ _ h1) ?_
  generalize hw : s1.gWrite _ _ _ _ _ = r
  have h2 : R r.2 := by rw [← hw]; exact State.gWrite_keeps hR.sub _ _ _ _ _ _ h1
  obtain ⟨c2, s2⟩ := r
  exact State.pelRuns_keeps hR.sub _ _ _ _ _ h2

theorem State.pelLeft_keeps {R : State → Prop} (hR : Keeps [.stewards, .pel] ⟨[], [], [], false⟩ R) (s : State) (p : Nat)
    (hI : R s) : R (State.pelLeft s p) := by
  unfold State.pelLeft
  try dsimp only
  repeat' first
    | with_reducible assumption
    | exact hR.sub
    | exact fun h => memWf_memStore h
    | exact fun h => memWf_memPut h
    | exact fun h => memWf_filter _ h
    | exact fun _ => rfl
    | with_reducible apply rel_ite
    | with_reducible apply State.deadAccess_keeps
    | with_reducible apply State.setPel_keeps
    | fail_if_no_progress (with_reducible apply hR.upd; all_goals try first | with_reducible exact .inr rfl | exact .inl (by decide +kernel) | exact id)
    | dsimp only
    | intro _ _
    | intro _
    | contradiction
    | (unfold id)
    | split
    | (rename_i hh; injection hh with hh; subst hh)
    | (rename_i hh; split at hh)

theorem execPelAccessDone_keeps {R : State → Prop} (hR : Keeps partsPelAccessDone fieldsPelAccessDone R) (p : Fin 2) (s : State)
    (hI : R s) {tT : State} (eE : execPelAccessDone p s = .next tT) : R tT := by
  unfold execPelAccessDone at eE
  try dsimp only at eE
  repeat' split at eE
  all_goals try (injection eE with eE; subst eE)
  all_goals repeat' first
    | with_reducible assumption
    | exact hR.sub
    | exact fun h => memWf_memStore h
    | exact fun h => memWf_memPut h
    | exact fun h => memWf_filter _ h
    | exact fun _ => rfl
    | with_reducible apply rel_ite
    | with_reducible refine hR.wr _ _ _ (by decide +kernel) (by first | decide +kernel | exact hasFld_self _ _ | exact hasFld_all _ | (simp [hasFld]; done) ) ?_
    | with_reducible apply State.dirNext_keeps
    | with_reducible apply State.flashMessage_keeps
    | with_reducible apply State.message_keeps
    | with_reducible apply State.packageReset_keeps
    | with_reducible apply State.pelLeft_keeps
    | with_reducible apply State.powerOn_keeps
    | with_reducible apply State.reach_keeps
    | with_reducible apply State.setPel_keeps
    | fail_if_no_progress (with_reducible apply hR.upd; all_goals try first | with_reducible exact .inr rfl | exact .inl (by decide +kernel) | exact id)
    | dsimp only
    | intro _ _
    | intro _
    | contradiction
    | (unfold id)
    | split
    | (rename_i hh; injection hh with hh; subst hh)
    | (rename_i hh; split at hh)

theorem execPelRst_keeps {R : State → Prop} (hR : Keeps partsPelRst fieldsPelRst R) (p : PelSrc) (s : State)
    (hI : R s) {tT : State} (eE : execPelRst p s = .next tT) : R tT := by
  unfold execPelRst at eE
  try dsimp only at eE
  repeat' split at eE
  all_goals try (injection eE with eE; subst eE)
  all_goals repeat' first
    | with_reducible assumption
    | exact hR.sub
    | exact fun h => memWf_memStore h
    | exact fun h => memWf_memPut h
    | exact fun h => memWf_filter _ h
    | exact fun _ => rfl
    | with_reducible apply rel_ite
    | with_reducible refine hR.wr _ _ _ (by decide +kernel) (by first | decide +kernel | exact hasFld_self _ _ | exact hasFld_all _ | (simp [hasFld]; done) ) ?_
    | (with_reducible refine hR.clear _ (by decide +kernel) (fun _ _ h => hasFld_cls (l := [.dbg]) (by simpa using h)) ?_)
    | with_reducible apply State.dirNext_keeps
    | with_reducible apply State.flashMessage_keeps
    | with_reducible apply State.message_keeps
    | with_reducible apply State.packageReset_keeps
    | with_reducible apply State.pelBlock_keeps
    | with_reducible apply State.powerOn_keeps
    | with_reducible apply State.reach_keeps
    | fail_if_no_progress (with_reducible apply hR.upd; all_goals try first | with_reducible exact .inr rfl | exact .inl (by decide +kernel) | exact id)
    | dsimp only
    | intro _ _
    | intro _
    | contradiction
    | (unfold id)
    | split
    | (rename_i hh; injection hh with hh; subst hh)
    | (rename_i hh; split at hh)

def opPartsPelPut : List Part :=
  (.now :: .local_ :: .clocksUp :: .regs :: .answer :: .out :: .draws :: .stewards :: .evlog :: .jtodo :: .journal ::
    .health :: .repairs :: .govs :: .sec :: .tree :: .fab :: .eng :: .fixq :: .bcasts :: .hbm :: .poison :: .win ::
    .flash :: .rcLines :: .rcMiss :: .rcWb :: .sf :: .sfAge :: .haIn :: .haTx :: .homeOut :: .rcLossT :: .seals ::
    .leafMaj :: .leafMin :: .innerC :: .ccache :: .hwm :: .lostN :: .reenc :: .ccT :: .keys :: .keyOp :: .sessions ::
    .lastSes :: .hbmPort :: .hbmPc :: .stack :: .arbs :: .rtq :: .ni :: .bearings :: .rtPend :: .drainT :: .gkLink ::
    .gkDir :: .gkPool :: .crossIn :: .lane :: .trunk :: .bundle :: .hubDown :: .rebaseDue :: .qps :: .rot :: .vecs ::
    .mail :: .pcie :: .cfgWait :: .cfgLoad :: .loadN :: .cfg :: .cfgMeas :: .fwMeas :: .sxq :: .txq :: .residences ::
    .stepN :: .rxStamp :: .sxDiscard :: .sxMeas :: .ppsEnd :: .spinePull :: .anchorE :: .anchorT :: .synth :: .fvs ::
    .dieRt :: .hold :: .relq :: .rstq :: .flashMode :: .stage2T :: .auto :: .noAuto :: .warm :: .warmT :: .rstUnlock ::
    .tele :: .ioOff :: .lsFuse :: .transport :: .trngT :: .trngSaid :: .dbgWait :: .rcvN :: .flashOp :: .helm :: .helmL1
    :: .helmL2 :: .flashC :: .irqLine :: .pel :: .tap :: .scrub :: [])

theorem State.pelPut_keeps {R : State → Prop} (hR : Keeps opPartsPelPut .all R) (s : State) (p : PelSrc) (r : Reg) (v : Nat) (env : RegEnv)
    (hI : R s) : R (State.pelPut s p r v env) := by
  unfold State.pelPut
  try dsimp only
  repeat' first
    | with_reducible assumption
    | exact hR.sub
    | exact fun h => memWf_memStore h
    | exact fun h => memWf_memPut h
    | exact fun h => memWf_filter _ h
    | exact fun _ => rfl
    | with_reducible apply rel_ite
    | with_reducible refine hR.wr _ _ _ (by decide +kernel) (by first | decide +kernel | exact hasFld_self _ _ | exact hasFld_all _ | (simp [hasFld]; done) ) ?_
    | with_reducible apply State.drop_keeps
    | with_reducible apply State.pelBlock_keeps
    | with_reducible apply State.setPel_keeps
    | (with_reducible apply rel_foldl; intro _ _ _)
    | (with_reducible apply rel_foldl2; intro _ _ _)
    | (with_reducible apply rel_foldl3; intro _ _ _)
    | (with_reducible apply rel_foldl1; intro _ _ _)
    | (with_reducible refine Ans.after_keeps (execDebugCertSubmit _ _ _ _ _) _ ?_ (fun _ e => execDebugCertSubmit_keeps hR.sub _ _ _ _ _ ?_ e))
    | (with_reducible refine Ans.after_keeps (execDebugChallenge _ _ _) _ ?_ (fun _ e => execDebugChallenge_keeps hR.sub _ _ _ ?_ e))
    | (with_reducible refine Ans.after_keeps (execDebugPasswordSubmit _ _ _) _ ?_ (fun _ e => execDebugPasswordSubmit_keeps hR.sub _ _ _ ?_ e))
    | (with_reducible refine Ans.after_keeps (execPelConsume _ _ _) _ ?_ (fun _ e => execPelConsume_keeps hR.sub _ _ _ ?_ e))
    | (with_reducible refine Ans.after_keeps (execPelMemRead _ _ _) _ ?_ (fun _ e => execPelMemRead_keeps hR.sub _ _ _ ?_ e))
    | (with_reducible refine Ans.after_keeps (execPelMemWrite _ _ _) _ ?_ (fun _ e => execPelMemWrite_keeps hR.sub _ _ _ ?_ e))
    | (with_reducible refine Ans.after_keeps (execPelPeek _ _) _ ?_ (fun _ e => execPelPeek_keeps hR.sub _ _ ?_ e))
    | (with_reducible refine Ans.after_keeps (execPelRegWrite _ _ _) _ ?_ (fun _ e => execPelRegWrite_keeps hR.sub _ _ _ ?_ e))
    | (with_reducible refine Ans.after_keeps (execPelRst _ _) _ ?_ (fun _ e => execPelRst_keeps hR.sub _ _ ?_ e))
    | fail_if_no_progress (with_reducible apply hR.upd; all_goals try first | with_reducible exact .inr rfl | exact .inl (by decide +kernel) | exact id)
    | dsimp only
    | intro _ _
    | intro _
    | contradiction
    | (unfold id)
    | split
    | (rename_i hh; injection hh with hh; subst hh)
    | (rename_i hh; split at hh)

def opPartsPelGet : List Part := [.regs, .answer, .stewards, .lane, .trunk, .helm, .pel]
def opFieldsPelGet : FSet :=
  ⟨[.CL_BIT_HI_COUNT, .ENG_STEPS_HI_COUNT, .FC_CMP_HI_COUNT, .HELM_CORE_STAT_LEVEL, .HELM_IC_PEND_BITS,
    .SEAL_HWM_HI_HWM, .SX_MEAS_MPD_HI_VALUE, .SX_MEAS_MPD_LO_VALUE, .SX_MEAS_OFS_HI_VALUE, .SX_MEAS_SEQ_SEQ,
    .SX_TIME_NS_NS, .SX_TIME_SH_SEC, .SX_TIME_SL_SEC, .TR_BIT_HI_COUNT], [], [.rc], false⟩

theorem State.pelGet_keeps {R : State → Prop} (hR : Keeps opPartsPelGet opFieldsPelGet R) (s : State) (p : PelSrc) (r : Reg)
    (hI : R s) : R (State.pelGet s p r).2 := by
  unfold State.pelGet
  try dsimp only
  repeat' first
    | with_reducible assumption
    | exact hR.sub
    | with_reducible apply rel_ite
    | with_reducible apply State.readEffect_keeps
    | dsimp only
    | intro _ _
    | intro _
    | contradiction
    | (unfold id)
    | split
    | (rename_i hh; injection hh with hh; subst hh)
    | (rename_i hh; split at hh)

theorem State.pelGet_keeps_of {R : State → Prop} (hR : Keeps opPartsPelGet opFieldsPelGet R) (s : State) (p : PelSrc) (r : Reg)
    (hI : R s) {a : Nat} {tT : State} (eE : State.pelGet s p r = (a, tT)) : R tT := by
  have h := State.pelGet_keeps hR s p r hI
  rw [eE] at h
  exact h

def opPartsWriteWord : List Part :=
  (.now :: .local_ :: .clocksUp :: .regs :: .answer :: .out :: .draws :: .stewards :: .evlog :: .jtodo :: .journal ::
    .health :: .repairs :: .govs :: .sec :: .tree :: .fab :: .eng :: .fixq :: .bcasts :: .hbm :: .poison :: .win ::
    .flash :: .rcLines :: .rcMiss :: .rcWb :: .sf :: .sfAge :: .haIn :: .haTx :: .homeOut :: .rcLossT :: .seals ::
    .leafMaj :: .leafMin :: .innerC :: .ccache :: .hwm :: .lostN :: .reenc :: .ccT :: .keys :: .keyOp :: .sessions ::
    .lastSes :: .hbmPort :: .hbmPc :: .stack :: .arbs :: .rtq :: .ni :: .bearings :: .rtPend :: .drainT :: .gkLink ::
    .gkDir :: .gkPool :: .crossIn :: .lane :: .trunk :: .bundle :: .hubDown :: .rebaseDue :: .qps :: .rot :: .vecs ::
    .mail :: .pcie :: .cfgWait :: .cfgLoad :: .loadN :: .cfg :: .cfgMeas :: .fwMeas :: .sxq :: .txq :: .residences ::
    .stepN :: .rxStamp :: .sxDiscard :: .sxMeas :: .ppsEnd :: .spinePull :: .anchorE :: .anchorT :: .synth :: .fvs ::
    .dieRt :: .hold :: .relq :: .rstq :: .flashMode :: .stage2T :: .auto :: .noAuto :: .warm :: .warmT :: .rstUnlock ::
    .tele :: .ioOff :: .lsFuse :: .transport :: .trngT :: .trngSaid :: .dbgWait :: .rcvN :: .flashOp :: .helm :: .helmL1
    :: .helmL2 :: .flashC :: .irqLine :: .pel :: .tap :: .scrub :: [])

theorem State.writeWord_keeps {R : State → Prop} (hR : Keeps opPartsWriteWord .all R) (s : State) (w : Writer) (a v : Nat) (env : RegEnv)
    (hI : R s) : R (State.writeWord s w a v env) := by
  unfold State.writeWord
  try dsimp only
  repeat' first
    | with_reducible assumption
    | exact hR.sub
    | exact fun h => memWf_memStore h
    | exact fun h => memWf_memPut h
    | exact fun h => memWf_filter _ h
    | exact fun _ => rfl
    | with_reducible apply rel_ite
    | with_reducible apply State.pelPut_keeps
    | with_reducible apply State.write32_keeps
    | fail_if_no_progress (with_reducible apply hR.upd; all_goals try first | with_reducible exact .inr rfl | exact .inl (by decide +kernel) | exact id)
    | dsimp only
    | intro _ _
    | intro _
    | contradiction
    | (unfold id)
    | split
    | (rename_i hh; injection hh with hh; subst hh)
    | (rename_i hh; split at hh)

theorem execRegisterWrite_keeps {R : State → Prop} (hR : Keeps partsRegisterWrite fieldsRegisterWrite R) (w : Writer) (off : BitVec 25) (bytes : Nat) (val : BitVec 64) (env : RegEnv) (s : State)
    (hI : R s) {tT : State} (eE : execRegisterWrite w off bytes val env s = .next tT) : R tT := by
  unfold execRegisterWrite at eE
  try dsimp only at eE
  repeat' split at eE
  all_goals try (injection eE with eE; subst eE)
  all_goals repeat' first
    | with_reducible assumption
    | exact hR.sub
    | with_reducible apply rel_ite
    | with_reducible apply State.dirNext_keeps
    | with_reducible apply State.flashMessage_keeps
    | with_reducible apply State.message_keeps
    | with_reducible apply State.narrowWrite_keeps
    | with_reducible apply State.packageReset_keeps
    | with_reducible apply State.powerOn_keeps
    | with_reducible apply State.reach_keeps
    | with_reducible apply State.writeWord_keeps
    | dsimp only
    | intro _ _
    | intro _
    | contradiction
    | (unfold id)
    | split
    | (rename_i hh; injection hh with hh; subst hh)
    | (rename_i hh; split at hh)

theorem State.tapLoad_keeps {R : State → Prop} (hR : Keeps [.tap] ⟨[], [], [], false⟩ R) (s : State) (code act : Nat)
    (hI : R s) : R (State.tapLoad s code act) := by
  unfold State.tapLoad
  try dsimp only
  repeat' first
    | with_reducible assumption
    | exact hR.sub
    | exact fun h => memWf_memStore h
    | exact fun h => memWf_memPut h
    | exact fun h => memWf_filter _ h
    | exact fun _ => rfl
    | with_reducible apply rel_ite
    | fail_if_no_progress (with_reducible apply hR.upd; all_goals try first | with_reducible exact .inr rfl | exact .inl (by decide +kernel) | exact id)
    | dsimp only
    | intro _ _
    | intro _
    | contradiction
    | (unfold id)
    | split
    | (rename_i hh; injection hh with hh; subst hh)
    | (rename_i hh; split at hh)

theorem State.scanLoad_keeps {R : State → Prop} (hR : Keeps [.stewards, .tap] ⟨[], [], [], false⟩ R) (s : State) (code : Nat) (k : State → State)
    (hI : R s) (hk : ∀  s, R s → R (k  s)) : R (State.scanLoad s code k) := by
  unfold State.scanLoad
  try dsimp only
  repeat' first
    | with_reducible assumption
    | exact hR.sub
    | with_reducible apply rel_ite
    | (with_reducible apply hk)
    | with_reducible apply State.raise_keeps
    | with_reducible apply State.tapLoad_keeps
    | dsimp only
    | intro _ _
    | intro _
    | contradiction
    | (unfold id)
    | split
    | (rename_i hh; injection hh with hh; subst hh)
    | (rename_i hh; split at hh)

theorem State.scanDrive_keeps {R : State → Prop} (hR : Keeps [.out, .tap] ⟨[], [], [], false⟩ R) (s : State) (how : Nat) (bits : Option Nat)
    (hI : R s) : R (State.scanDrive s how bits) := by
  unfold State.scanDrive
  try dsimp only
  repeat' first
    | with_reducible assumption
    | exact hR.sub
    | exact fun h => memWf_memStore h
    | exact fun h => memWf_memPut h
    | exact fun h => memWf_filter _ h
    | exact fun _ => rfl
    | with_reducible apply rel_ite
    | with_reducible apply State.emit_keeps
    | fail_if_no_progress (with_reducible apply hR.upd; all_goals try first | with_reducible exact .inr rfl | exact .inl (by decide +kernel) | exact id)
    | dsimp only
    | intro _ _
    | intro _
    | contradiction
    | (unfold id)
    | split
    | (rename_i hh; injection hh with hh; subst hh)
    | (rename_i hh; split at hh)

theorem execIdcode_keeps {R : State → Prop} (hR : Keeps partsIdcode fieldsIdcode R) (s : State)
    (hI : R s) {tT : State} (eE : execIdcode s = .next tT) : R tT := by
  unfold execIdcode at eE
  try dsimp only at eE
  repeat' split at eE
  all_goals try (injection eE with eE; subst eE)
  all_goals repeat' first
    | with_reducible assumption
    | exact hR.sub
    | exact fun h => memWf_memStore h
    | exact fun h => memWf_memPut h
    | exact fun h => memWf_filter _ h
    | exact fun _ => rfl
    | with_reducible apply rel_ite
    | with_reducible apply State.dirNext_keeps
    | with_reducible apply State.flashMessage_keeps
    | with_reducible apply State.message_keeps
    | with_reducible apply State.packageReset_keeps
    | with_reducible apply State.powerOn_keeps
    | with_reducible apply State.reach_keeps
    | with_reducible apply State.tapLoad_keeps
    | fail_if_no_progress (with_reducible apply hR.upd; all_goals try first | with_reducible exact .inr rfl | exact .inl (by decide +kernel) | exact id)
    | dsimp only
    | intro _ _
    | intro _
    | contradiction
    | (unfold id)
    | split
    | (rename_i hh; injection hh with hh; subst hh)
    | (rename_i hh; split at hh)

theorem execSamplePreload_keeps {R : State → Prop} (hR : Keeps partsSamplePreload fieldsSamplePreload R) (pins bits : Nat) (s : State)
    (hI : R s) {tT : State} (eE : execSamplePreload pins bits s = .next tT) : R tT := by
  unfold execSamplePreload at eE
  try dsimp only at eE
  repeat' split at eE
  all_goals try (injection eE with eE; subst eE)
  all_goals repeat' first
    | with_reducible assumption
    | exact hR.sub
    | exact fun h => memWf_memStore h
    | exact fun h => memWf_memPut h
    | exact fun h => memWf_filter _ h
    | exact fun _ => rfl
    | with_reducible apply rel_ite
    | with_reducible apply State.dirNext_keeps
    | with_reducible apply State.flashMessage_keeps
    | with_reducible apply State.message_keeps
    | with_reducible apply State.packageReset_keeps
    | with_reducible apply State.powerOn_keeps
    | with_reducible apply State.reach_keeps
    | with_reducible apply State.tapLoad_keeps
    | fail_if_no_progress (with_reducible apply hR.upd; all_goals try first | with_reducible exact .inr rfl | exact .inl (by decide +kernel) | exact id)
    | dsimp only
    | intro _ _
    | intro _
    | contradiction
    | (unfold id)
    | split
    | (rename_i hh; injection hh with hh; subst hh)
    | (rename_i hh; split at hh)

theorem State.extest_keeps {R : State → Prop} (hR : Keeps [.answer, .out, .stewards, .tap] ⟨[], [], [], false⟩ R) (s : State) (code how pins bits : Nat)
    (hI : R s) : R (State.extest s code how pins bits) := by
  unfold State.extest
  try dsimp only
  repeat' first
    | with_reducible assumption
    | exact hR.sub
    | exact fun h => memWf_memStore h
    | exact fun h => memWf_memPut h
    | exact fun h => memWf_filter _ h
    | exact fun _ => rfl
    | with_reducible apply rel_ite
    | with_reducible apply State.scanDrive_keeps
    | with_reducible apply State.scanLoad_keeps
    | fail_if_no_progress (with_reducible apply hR.upd; all_goals try first | with_reducible exact .inr rfl | exact .inl (by decide +kernel) | exact id)
    | dsimp only
    | intro _ _
    | intro _
    | contradiction
    | (unfold id)
    | split
    | (rename_i hh; injection hh with hh; subst hh)
    | (rename_i hh; split at hh)

theorem execExtest_keeps {R : State → Prop} (hR : Keeps partsExtest fieldsExtest R) (pins bits : Nat) (s : State)
    (hI : R s) {tT : State} (eE : execExtest pins bits s = .next tT) : R tT := by
  unfold execExtest at eE
  try dsimp only at eE
  repeat' split at eE
  all_goals try (injection eE with eE; subst eE)
  all_goals repeat' first
    | with_reducible assumption
    | exact hR.sub
    | with_reducible apply rel_ite
    | with_reducible apply State.dirNext_keeps
    | with_reducible apply State.extest_keeps
    | with_reducible apply State.flashMessage_keeps
    | with_reducible apply State.message_keeps
    | with_reducible apply State.packageReset_keeps
    | with_reducible apply State.powerOn_keeps
    | with_reducible apply State.reach_keeps
    | dsimp only
    | intro _ _
    | intro _
    | contradiction
    | (unfold id)
    | split
    | (rename_i hh; injection hh with hh; subst hh)
    | (rename_i hh; split at hh)

theorem execExtestPulse_keeps {R : State → Prop} (hR : Keeps partsExtestPulse fieldsExtestPulse R) (pins bits : Nat) (s : State)
    (hI : R s) {tT : State} (eE : execExtestPulse pins bits s = .next tT) : R tT := by
  unfold execExtestPulse at eE
  try dsimp only at eE
  repeat' split at eE
  all_goals try (injection eE with eE; subst eE)
  all_goals repeat' first
    | with_reducible assumption
    | exact hR.sub
    | with_reducible apply rel_ite
    | with_reducible apply State.dirNext_keeps
    | with_reducible apply State.extest_keeps
    | with_reducible apply State.flashMessage_keeps
    | with_reducible apply State.message_keeps
    | with_reducible apply State.packageReset_keeps
    | with_reducible apply State.powerOn_keeps
    | with_reducible apply State.reach_keeps
    | dsimp only
    | intro _ _
    | intro _
    | contradiction
    | (unfold id)
    | split
    | (rename_i hh; injection hh with hh; subst hh)
    | (rename_i hh; split at hh)

theorem execExtestTrain_keeps {R : State → Prop} (hR : Keeps partsExtestTrain fieldsExtestTrain R) (pins bits : Nat) (s : State)
    (hI : R s) {tT : State} (eE : execExtestTrain pins bits s = .next tT) : R tT := by
  unfold execExtestTrain at eE
  try dsimp only at eE
  repeat' split at eE
  all_goals try (injection eE with eE; subst eE)
  all_goals repeat' first
    | with_reducible assumption
    | exact hR.sub
    | with_reducible apply rel_ite
    | with_reducible apply State.dirNext_keeps
    | with_reducible apply State.extest_keeps
    | with_reducible apply State.flashMessage_keeps
    | with_reducible apply State.message_keeps
    | with_reducible apply State.packageReset_keeps
    | with_reducible apply State.powerOn_keeps
    | with_reducible apply State.reach_keeps
    | dsimp only
    | intro _ _
    | intro _
    | contradiction
    | (unfold id)
    | split
    | (rename_i hh; injection hh with hh; subst hh)
    | (rename_i hh; split at hh)

theorem execClamp_keeps {R : State → Prop} (hR : Keeps partsClamp fieldsClamp R) (s : State)
    (hI : R s) {tT : State} (eE : execClamp s = .next tT) : R tT := by
  unfold execClamp at eE
  try dsimp only at eE
  repeat' split at eE
  all_goals try (injection eE with eE; subst eE)
  all_goals repeat' first
    | with_reducible assumption
    | exact hR.sub
    | with_reducible apply rel_ite
    | with_reducible apply State.dirNext_keeps
    | with_reducible apply State.flashMessage_keeps
    | with_reducible apply State.message_keeps
    | with_reducible apply State.packageReset_keeps
    | with_reducible apply State.powerOn_keeps
    | with_reducible apply State.reach_keeps
    | with_reducible apply State.scanDrive_keeps
    | with_reducible apply State.scanLoad_keeps
    | dsimp only
    | intro _ _
    | intro _
    | contradiction
    | (unfold id)
    | split
    | (rename_i hh; injection hh with hh; subst hh)
    | (rename_i hh; split at hh)

theorem execHighz_keeps {R : State → Prop} (hR : Keeps partsHighz fieldsHighz R) (s : State)
    (hI : R s) {tT : State} (eE : execHighz s = .next tT) : R tT := by
  unfold execHighz at eE
  try dsimp only at eE
  repeat' split at eE
  all_goals try (injection eE with eE; subst eE)
  all_goals repeat' first
    | with_reducible assumption
    | exact hR.sub
    | with_reducible apply rel_ite
    | with_reducible apply State.dirNext_keeps
    | with_reducible apply State.flashMessage_keeps
    | with_reducible apply State.message_keeps
    | with_reducible apply State.packageReset_keeps
    | with_reducible apply State.powerOn_keeps
    | with_reducible apply State.reach_keeps
    | with_reducible apply State.scanDrive_keeps
    | with_reducible apply State.scanLoad_keeps
    | dsimp only
    | intro _ _
    | intro _
    | contradiction
    | (unfold id)
    | split
    | (rename_i hh; injection hh with hh; subst hh)
    | (rename_i hh; split at hh)

theorem execPelReg_keeps {R : State → Prop} (hR : Keeps partsPelReg fieldsPelReg R) (dr : BitVec 40) (env : RegEnv) (s : State)
    (hI : R s) {tT : State} (eE : execPelReg dr env s = .next tT) : R tT := by
  unfold execPelReg at eE
  try dsimp only at eE
  repeat' split at eE
  all_goals try (injection eE with eE; subst eE)
  all_goals repeat' first
    | with_reducible assumption
    | exact hR.sub
    | exact fun h => memWf_memStore h
    | exact fun h => memWf_memPut h
    | exact fun h => memWf_filter _ h
    | exact fun _ => rfl
    | with_reducible apply rel_ite
    | with_reducible apply State.dirNext_keeps
    | with_reducible apply State.flashMessage_keeps
    | with_reducible apply State.message_keeps
    | with_reducible apply State.packageReset_keeps
    | with_reducible apply State.pelGet_keeps
    | with_reducible apply State.pelPut_keeps
    | with_reducible apply State.powerOn_keeps
    | with_reducible apply State.reach_keeps
    | with_reducible apply State.tapLoad_keeps
    | (refine State.pelGet_keeps_of hR.sub _ _ _ ?_ (by assumption))
    | fail_if_no_progress (with_reducible apply hR.upd; all_goals try first | with_reducible exact .inr rfl | exact .inl (by decide +kernel) | exact id)
    | dsimp only
    | intro _ _
    | intro _
    | contradiction
    | (unfold id)
    | split
    | (rename_i hh; injection hh with hh; subst hh)
    | (rename_i hh; split at hh)

theorem execBypass_keeps {R : State → Prop} (hR : Keeps partsBypass fieldsBypass R) (code : BitVec 8) (s : State)
    (hI : R s) {tT : State} (eE : execBypass code s = .next tT) : R tT := by
  unfold execBypass at eE
  try dsimp only at eE
  repeat' split at eE
  all_goals try (injection eE with eE; subst eE)
  all_goals repeat' first
    | with_reducible assumption
    | exact hR.sub
    | exact fun h => memWf_memStore h
    | exact fun h => memWf_memPut h
    | exact fun h => memWf_filter _ h
    | exact fun _ => rfl
    | with_reducible apply rel_ite
    | with_reducible apply State.dirNext_keeps
    | with_reducible apply State.flashMessage_keeps
    | with_reducible apply State.message_keeps
    | with_reducible apply State.packageReset_keeps
    | with_reducible apply State.powerOn_keeps
    | with_reducible apply State.reach_keeps
    | with_reducible apply State.scanLoad_keeps
    | with_reducible apply State.tapLoad_keeps
    | fail_if_no_progress (with_reducible apply hR.upd; all_goals try first | with_reducible exact .inr rfl | exact .inl (by decide +kernel) | exact id)
    | dsimp only
    | intro _ _
    | intro _
    | contradiction
    | (unfold id)
    | split
    | (rename_i hh; injection hh with hh; subst hh)
    | (rename_i hh; split at hh)

end Sys2Proof.Machine
end

