-- ==== Sys2Proof/Laws/Reads.lean ====
section
/-! SUPPORT. What an operation does not write reads the same after it: one law for each operation. -/

namespace Sys2Proof.Machine

set_option Elab.async false
set_option linter.all false

theorem State.bump_rd (s : State) (f : Fld) (i : List Nat) (n : Nat) {G0 : Fld} {I0 : List Nat} (hF : hasFld ⟨[f], [], [], false⟩ G0 = false) :
    (State.bump s f i n).rd G0 I0 = s.rd G0 I0 :=
  State.bump_keeps (Keeps.rd hF I0 (s.rd G0 I0)) s i n rfl

theorem State.incr_rd (s : State) (f : Fld) (i : List Nat) {G0 : Fld} {I0 : List Nat} (hF : hasFld ⟨[f], [], [], false⟩ G0 = false) :
    (State.incr s f i).rd G0 I0 = s.rd G0 I0 :=
  State.incr_keeps (Keeps.rd hF I0 (s.rd G0 I0)) s i rfl

theorem State.setBit_rd (s : State) (f : Fld) (i : List Nat) (b : Nat) (v : Bool) {G0 : Fld} {I0 : List Nat} (hF : hasFld ⟨[f], [], [], false⟩ G0 = false) :
    (State.setBit s f i b v).rd G0 I0 = s.rd G0 I0 :=
  State.setBit_keeps (Keeps.rd hF I0 (s.rd G0 I0)) s i b v rfl

theorem State.lapse_rd (s : State) (dt : Nat) {G0 : Fld} {I0 : List Nat} (hF : hasFld ⟨[], [], [], false⟩ G0 = false) :
    (State.lapse s dt).rd G0 I0 = s.rd G0 I0 :=
  State.lapse_keeps (Keeps.rd hF I0 (s.rd G0 I0)) s dt rfl

theorem State.lapseTo_rd (s : State) (t : Nat) {G0 : Fld} {I0 : List Nat} (hF : hasFld ⟨[], [], [], false⟩ G0 = false) :
    (State.lapseTo s t).rd G0 I0 = s.rd G0 I0 :=
  State.lapseTo_keeps (Keeps.rd hF I0 (s.rd G0 I0)) s t rfl

theorem State.lapseToLocal_rd (s : State) (t : Nat) {G0 : Fld} {I0 : List Nat} (hF : hasFld ⟨[], [], [], false⟩ G0 = false) :
    (State.lapseToLocal s t).rd G0 I0 = s.rd G0 I0 :=
  State.lapseToLocal_keeps (Keeps.rd hF I0 (s.rd G0 I0)) s t rfl

theorem State.setSteward_rd (s : State) (n : Nat) (q : Steward) {G0 : Fld} {I0 : List Nat} (hF : hasFld ⟨[], [], [], false⟩ G0 = false) :
    (State.setSteward s n q).rd G0 I0 = s.rd G0 I0 :=
  State.setSteward_keeps (Keeps.rd hF I0 (s.rd G0 I0)) s n q rfl

theorem State.push_rd (s : State) (n : Nat) (r : Report) {G0 : Fld} {I0 : List Nat} (hF : hasFld ⟨[], [], [], false⟩ G0 = false) :
    (State.push s n r).rd G0 I0 = s.rd G0 I0 :=
  State.push_keeps (Keeps.rd hF I0 (s.rd G0 I0)) s n r rfl

theorem State.raise_rd (s : State) (r : Reg) (i : List Nat) (rule sev : Nat) (d : List Nat) {G0 : Fld} {I0 : List Nat} (hF : hasFld ⟨[], [], [], false⟩ G0 = false) :
    (State.raise s r i rule sev d).rd G0 I0 = s.rd G0 I0 :=
  State.raise_keeps (Keeps.rd hF I0 (s.rd G0 I0)) s r i rule sev d rfl

theorem State.raiseFixed_rd (s : State) (r : Reg) (i : List Nat) (code sev : Nat) (arg : Arg) {G0 : Fld} {I0 : List Nat} (hF : hasFld ⟨[], [], [], false⟩ G0 = false) :
    (State.raiseFixed s r i code sev arg).rd G0 I0 = s.rd G0 I0 :=
  State.raiseFixed_keeps (Keeps.rd hF I0 (s.rd G0 I0)) s r i code sev arg rfl

theorem State.drop_rd (s : State) (w : Writer) (r : Reg) (i : List Nat) (v : Nat) {G0 : Fld} {I0 : List Nat} (hF : hasFld ⟨[], [], [], false⟩ G0 = false) :
    (State.drop s w r i v).rd G0 I0 = s.rd G0 I0 :=
  State.drop_keeps (Keeps.rd hF I0 (s.rd G0 I0)) s w r i v rfl

theorem State.dropF_rd (s : State) (w : Writer) (f : Fld) (i : List Nat) (v : Nat) {G0 : Fld} {I0 : List Nat} (hF : hasFld ⟨[], [], [], false⟩ G0 = false) :
    (State.dropF s w f i v).rd G0 I0 = s.rd G0 I0 :=
  State.dropF_keeps (Keeps.rd hF I0 (s.rd G0 I0)) s w f i v rfl

theorem State.healthUpdate_rd (s : State) (n : Nat) (h : Health) {G0 : Fld} {I0 : List Nat} (hF : hasFld ⟨[.MGMT_HEALTH_STAGE], [], [], false⟩ G0 = false) :
    (State.healthUpdate s n h).rd G0 I0 = s.rd G0 I0 :=
  State.healthUpdate_keeps (Keeps.rd hF I0 (s.rd G0 I0)) s n h rfl

theorem State.capacityLost_rd (s : State) (n : Nat) {G0 : Fld} {I0 : List Nat} (hF : hasFld ⟨[.MGMT_HEALTH_STAGE], [], [], false⟩ G0 = false) :
    (State.capacityLost s n).rd G0 I0 = s.rd G0 I0 :=
  State.capacityLost_keeps (Keeps.rd hF I0 (s.rd G0 I0)) s n rfl

theorem State.sectorLost_rd (s : State) (n : Nat) {G0 : Fld} {I0 : List Nat} (hF : hasFld ⟨[.MGMT_HEALTH_STAGE], [], [], false⟩ G0 = false) :
    (State.sectorLost s n).rd G0 I0 = s.rd G0 I0 :=
  State.sectorLost_keeps (Keeps.rd hF I0 (s.rd G0 I0)) s n rfl

theorem State.notice_rd (s : State) (r : Reg) (i : List Nat) (code item margin detail : Nat) (bit : Option Nat) {G0 : Fld} {I0 : List Nat} (hF : hasFld ⟨[.MGMT_HEALTH_STAGE, .MGMT_HEALTH_ZERO], [], [], false⟩ G0 = false) :
    (State.notice s r i code item margin detail bit).rd G0 I0 = s.rd G0 I0 :=
  State.notice_keeps (Keeps.rd hF I0 (s.rd G0 I0)) s r i code item margin detail bit rfl

theorem State.record_rd (s : State) (e : List Nat) {G0 : Fld} {I0 : List Nat} (hF : hasFld ⟨[], [], [], false⟩ G0 = false) :
    (State.record s e).rd G0 I0 = s.rd G0 I0 :=
  State.record_keeps (Keeps.rd hF I0 (s.rd G0 I0)) s e rfl

theorem State.deadAccess_rd (s : State) (w : Writer) (r : Reg) (i : List Nat) {G0 : Fld} {I0 : List Nat} (hF : hasFld ⟨[], [], [], false⟩ G0 = false) :
    (State.deadAccess s w r i).rd G0 I0 = s.rd G0 I0 :=
  State.deadAccess_keeps (Keeps.rd hF I0 (s.rd G0 I0)) s w r i rfl

theorem State.setGov_rd (s : State) (g : Nat) (x : Gov) {G0 : Fld} {I0 : List Nat} (hF : hasFld ⟨[], [], [], false⟩ G0 = false) :
    (State.setGov s g x).rd G0 I0 = s.rd G0 I0 :=
  State.setGov_keeps (Keeps.rd hF I0 (s.rd G0 I0)) s g x rfl

theorem State.expire_rd (s : State) (g : Nat) (p : Permit) (oversize : Bool) {G0 : Fld} {I0 : List Nat} (hF : hasFld ⟨[.PG_ERR_OP, .PG_ERR_OVERSIZE, .PG_ERR_UNITS, .PG_ERR_VALID, .PG_TO_CNT_COUNT], [], [], false⟩ G0 = false) :
    (State.expire s g p oversize).rd G0 I0 = s.rd G0 I0 :=
  State.expire_keeps (Keeps.rd hF I0 (s.rd G0 I0)) s g p oversize rfl

theorem State.request_rd (s : State) (g op units : Nat) (who : List Nat) (chain : List (List Nat)) {G0 : Fld} {I0 : List Nat} (hF : hasFld ⟨[.PG_ERR_OP, .PG_ERR_OVERSIZE, .PG_ERR_UNITS, .PG_ERR_VALID, .PG_TO_CNT_COUNT], [], [], false⟩ G0 = false) :
    (State.request s g op units who chain).rd G0 I0 = s.rd G0 I0 :=
  State.request_keeps (Keeps.rd hF I0 (s.rd G0 I0)) s g op units who chain rfl

theorem State.grantHead_rd (s : State) (g : Nat) {G0 : Fld} {I0 : List Nat} (hF : hasFld ⟨[.PG_ERR_OP, .PG_ERR_OVERSIZE, .PG_ERR_UNITS, .PG_ERR_VALID, .PG_GRANT_CNT_COUNT, .PG_TO_CNT_COUNT], [], [], false⟩ G0 = false) :
    (State.grantHead s g).rd G0 I0 = s.rd G0 I0 :=
  State.grantHead_keeps (Keeps.rd hF I0 (s.rd G0 I0)) s g rfl

theorem State.giveBack_rd (s : State) (g op : Nat) (who : List Nat) {G0 : Fld} {I0 : List Nat} (hF : hasFld ⟨[], [], [], false⟩ G0 = false) :
    (State.giveBack s g op who).rd G0 I0 = s.rd G0 I0 :=
  State.giveBack_keeps (Keeps.rd hF I0 (s.rd G0 I0)) s g op who rfl

theorem State.draw_rd (s : State) (w : Nat) {G0 : Fld} {I0 : List Nat} (hF : hasFld ⟨[], [], [], false⟩ G0 = false) :
    (State.draw s w).2.rd G0 I0 = s.rd G0 I0 :=
  State.draw_keeps (Keeps.rd hF I0 (s.rd G0 I0)) s w rfl

theorem State.emit_rd (s : State) (o : Out) {G0 : Fld} {I0 : List Nat} (hF : hasFld ⟨[], [], [], false⟩ G0 = false) :
    (State.emit s o).rd G0 I0 = s.rd G0 I0 :=
  State.emit_keeps (Keeps.rd hF I0 (s.rd G0 I0)) s o rfl

theorem State.setSector_rd (s : State) (d k : Nat) (x : SecRt) {G0 : Fld} {I0 : List Nat} (hF : hasFld ⟨[], [], [], false⟩ G0 = false) :
    (State.setSector s d k x).rd G0 I0 = s.rd G0 I0 :=
  State.setSector_keeps (Keeps.rd hF I0 (s.rd G0 I0)) s d k x rfl

theorem State.design_rd (s : State) (d a : Nat) (l : List CfgItem) {G0 : Fld} {I0 : List Nat} (hF : hasFld ⟨[], [], [], false⟩ G0 = false) :
    (State.design s d a l).rd G0 I0 = s.rd G0 I0 :=
  State.design_keeps (Keeps.rd hF I0 (s.rd G0 I0)) s d a l rfl

theorem State.fabReset_rd (s : State) (d k : Nat) {G0 : Fld} {I0 : List Nat} (hF : hasFld ⟨[], [], [], false⟩ G0 = false) :
    (State.fabReset s d k).rd G0 I0 = s.rd G0 I0 :=
  State.fabReset_keeps (Keeps.rd hF I0 (s.rd G0 I0)) s d k rfl

theorem State.fabBlank_rd (s : State) (d k : Nat) {G0 : Fld} {I0 : List Nat} (hF : hasFld ⟨[], [], [], false⟩ G0 = false) :
    (State.fabBlank s d k).rd G0 I0 = s.rd G0 I0 :=
  State.fabBlank_keeps (Keeps.rd hF I0 (s.rd G0 I0)) s d k rfl

theorem State.fabEmpty_rd (s : State) (d : Nat) {G0 : Fld} {I0 : List Nat} (hF : hasFld ⟨[], [], [], false⟩ G0 = false) :
    (State.fabEmpty s d).rd G0 I0 = s.rd G0 I0 :=
  State.fabEmpty_keeps (Keeps.rd hF I0 (s.rd G0 I0)) s d rfl

theorem State.setFf_rd (s : State) (d k col row cell b : Nat) (v : Bool) {G0 : Fld} {I0 : List Nat} (hF : hasFld ⟨[], [], [], false⟩ G0 = false) :
    (State.setFf s d k col row cell b v).rd G0 I0 = s.rd G0 I0 :=
  State.setFf_keeps (Keeps.rd hF I0 (s.rd G0 I0)) s d k col row cell b v rfl

theorem State.ctlEdge_rd (s : State) (d k col row cs : Nat) (cells : List CellIn) (ce sr cin : Bool) {G0 : Fld} {I0 : List Nat} (hF : hasFld ⟨[], [], [], false⟩ G0 = false) :
    (State.ctlEdge s d k col row cs cells ce sr cin).rd G0 I0 = s.rd G0 I0 :=
  State.ctlEdge_keeps (Keeps.rd hF I0 (s.rd G0 I0)) s d k col row cs cells ce sr cin rfl

theorem State.ctlSetReset_rd (s : State) (d k col row cs : Nat) {G0 : Fld} {I0 : List Nat} (hF : hasFld ⟨[], [], [], false⟩ G0 = false) :
    (State.ctlSetReset s d k col row cs).rd G0 I0 = s.rd G0 I0 :=
  State.ctlSetReset_keeps (Keeps.rd hF I0 (s.rd G0 I0)) s d k col row cs rfl

theorem State.segCycle_rd (s : State) (d k : Nat) (c : SegCycle) {G0 : Fld} {I0 : List Nat} (hF : hasFld ⟨[], [], [], false⟩ G0 = false) :
    (State.segCycle s d k c).rd G0 I0 = s.rd G0 I0 :=
  State.segCycle_keeps (Keeps.rd hF I0 (s.rd G0 I0)) s d k c rfl

theorem State.ramPut_rd (s : State) (d k : Nat) (key : Key) (v : Nat) {G0 : Fld} {I0 : List Nat} (hF : hasFld ⟨[], [], [], false⟩ G0 = false) :
    (State.ramPut s d k key v).rd G0 I0 = s.rd G0 I0 :=
  State.ramPut_keeps (Keeps.rd hF I0 (s.rd G0 I0)) s d k key v rfl

theorem State.writeBack_rd (s : State) (d k : Nat) (word : List Nat) {G0 : Fld} {I0 : List Nat} (hF : hasFld ⟨[], [], [], false⟩ G0 = false) :
    (State.writeBack s d k word).rd G0 I0 = s.rd G0 I0 :=
  State.writeBack_keeps (Keeps.rd hF I0 (s.rd G0 I0)) s d k word rfl

theorem State.ramEdges_rd (s : State) (c : RamCfg) (kb : Key) (p0 p1 : Option RamIn) (gap : Nat) (first0 : Bool) {G0 : Fld} {I0 : List Nat} (hF : hasFld ⟨[], [], [], false⟩ G0 = false) :
    (State.ramEdges s c kb p0 p1 gap first0).rd G0 I0 = s.rd G0 I0 :=
  State.ramEdges_keeps (Keeps.rd hF I0 (s.rd G0 I0)) s c kb p0 p1 gap first0 rfl

theorem State.ramFrame_rd (s : State) (d a data : Nat) {G0 : Fld} {I0 : List Nat} (hF : hasFld ⟨[], [], [], false⟩ G0 = false) :
    (State.ramFrame s d a data).rd G0 I0 = s.rd G0 I0 :=
  State.ramFrame_keeps (Keeps.rd hF I0 (s.rd G0 I0)) s d a data rfl

theorem State.setRkn_rd (s : State) (d k col block : Nat) (x : RknRt) {G0 : Fld} {I0 : List Nat} (hF : hasFld ⟨[], [], [], false⟩ G0 = false) :
    (State.setRkn s d k col block x).rd G0 I0 = s.rd G0 I0 :=
  State.setRkn_keeps (Keeps.rd hF I0 (s.rd G0 I0)) s d k col block x rfl

theorem State.rknEdge_rd (s : State) (d k col block : Nat) (c : RknCfg) (x : RknIn) (late : Bool) {G0 : Fld} {I0 : List Nat} (hF : hasFld ⟨[], [], [], false⟩ G0 = false) :
    (State.rknEdge s d k col block c x late).rd G0 I0 = s.rd G0 I0 :=
  State.rknEdge_keeps (Keeps.rd hF I0 (s.rd G0 I0)) s d k col block c x late rfl

theorem State.inputTakes_rd (s : State) (d k input : Nat) (live v : Bool) {G0 : Fld} {I0 : List Nat} (hF : hasFld ⟨[], [], [], false⟩ G0 = false) :
    (State.inputTakes s d k input live v).rd G0 I0 = s.rd G0 I0 :=
  State.inputTakes_keeps (Keeps.rd hF I0 (s.rd G0 I0)) s d k input live v rfl

theorem State.userNs_rd (s : State) {G0 : Fld} {I0 : List Nat} (hF : hasFld ⟨[], [], [], false⟩ G0 = false) :
    (State.userNs s).rd G0 I0 = s.rd G0 I0 :=
  State.userNs_keeps (Keeps.rd hF I0 (s.rd G0 I0)) s rfl

theorem State.irq_rd (s : State) (src : Nat) {G0 : Fld} {I0 : List Nat} (hF : hasFld ⟨[.HELM_IC_PEND_BITS], [], [], false⟩ G0 = false) :
    (State.irq s src).rd G0 I0 = s.rd G0 I0 :=
  State.irq_keeps (Keeps.rd hF I0 (s.rd G0 I0)) s src rfl

theorem State.setHelm_rd (s : State) (c : Nat) (x : HelmRt) {G0 : Fld} {I0 : List Nat} (hF : hasFld ⟨[], [], [], false⟩ G0 = false) :
    (State.setHelm s c x).rd G0 I0 = s.rd G0 I0 :=
  State.setHelm_keeps (Keeps.rd hF I0 (s.rd G0 I0)) s c x rfl

theorem State.append_rd (s : State) (r : Report) {G0 : Fld} {I0 : List Nat} (hF : hasFld ⟨[.EVT_INFO_CNT_COUNT, .EVT_LOST_CNT_COUNT, .EVT_NEXT_SEQ, .HELM_IC_PEND_BITS], [], [], false⟩ G0 = false) :
    (State.append s r).rd G0 I0 = s.rd G0 I0 :=
  State.append_keeps (Keeps.rd hF I0 (s.rd G0 I0)) s r rfl

theorem State.sectorReset_rd (s : State) (d k : Nat) {G0 : Fld} {I0 : List Nat} (hF : hasFld ⟨[.SEC_CTL_RESET, .SEC_STATUS_ISOLATED, .SEC_STATUS_PERMIT_WAIT, .SEC_STATUS_RESET_HELD, .SEC_STATUS_STATE], [.sec], [], false⟩ G0 = false) :
    (State.sectorReset s d k).rd G0 I0 = s.rd G0 I0 :=
  State.sectorReset_keeps (Keeps.rd hF I0 (s.rd G0 I0)) s d k rfl

theorem State.sectorRun_rd (s : State) (d k : Nat) {G0 : Fld} {I0 : List Nat} (hF : hasFld ⟨[.SEC_STATUS_ISOLATED, .SEC_STATUS_PERMIT_WAIT, .SEC_STATUS_STATE], [], [], false⟩ G0 = false) :
    (State.sectorRun s d k).rd G0 I0 = s.rd G0 I0 :=
  State.sectorRun_keeps (Keeps.rd hF I0 (s.rd G0 I0)) s d k rfl

theorem State.askRelease_rd (s : State) (d k : Nat) {G0 : Fld} {I0 : List Nat} (hF : hasFld ⟨[.PG_ERR_OP, .PG_ERR_OVERSIZE, .PG_ERR_UNITS, .PG_ERR_VALID, .PG_TO_CNT_COUNT, .SEC_STATUS_PERMIT_WAIT], [], [], false⟩ G0 = false) :
    (State.askRelease s d k).rd G0 I0 = s.rd G0 I0 :=
  State.askRelease_keeps (Keeps.rd hF I0 (s.rd G0 I0)) s d k rfl

theorem State.drive_rd (s : State) (g : Nat) (who : List Nat) (n0 : Nat) {G0 : Fld} {I0 : List Nat} (hF : hasFld ⟨[.PG_ERR_OP, .PG_ERR_OVERSIZE, .PG_ERR_UNITS, .PG_ERR_VALID, .PG_GRANT_CNT_COUNT, .PG_TO_CNT_COUNT], [], [], false⟩ G0 = false) :
    (State.drive s g who n0).rd G0 I0 = s.rd G0 I0 :=
  State.drive_keeps (Keeps.rd hF I0 (s.rd G0 I0)) s g who n0 rfl

theorem State.remapDone_rd (s : State) (d k : Nat) {G0 : Fld} {I0 : List Nat} (hF : hasFld ⟨[.MGMT_HEALTH_STAGE, .MGMT_HEALTH_ZERO, .SEC_STATUS_PENDING_REMAP], [], [], false⟩ G0 = false) :
    (State.remapDone s d k).rd G0 I0 = s.rd G0 I0 :=
  State.remapDone_keeps (Keeps.rd hF I0 (s.rd G0 I0)) s d k rfl

theorem State.startMigration_rd (s : State) (d k p : Nat) (held : Bool) {G0 : Fld} {I0 : List Nat} (hF : hasFld ⟨[.SEC_STATUS_STATE], [], [], false⟩ G0 = false) :
    (State.startMigration s d k p held).rd G0 I0 = s.rd G0 I0 :=
  State.startMigration_keeps (Keeps.rd hF I0 (s.rd G0 I0)) s d k p held rfl

theorem State.sectorUnavailable_rd (s : State) (d k rule : Nat) {G0 : Fld} {I0 : List Nat} (hF : hasFld opFieldsSectorUnavailable G0 = false) :
    (State.sectorUnavailable s d k rule).rd G0 I0 = s.rd G0 I0 :=
  State.sectorUnavailable_keeps (Keeps.rd hF I0 (s.rd G0 I0)) s d k rule rfl

theorem State.applyRemap_rd (s : State) (d k period : Nat) {G0 : Fld} {I0 : List Nat} (hF : hasFld ⟨[.MGMT_HEALTH_STAGE, .MGMT_HEALTH_ZERO, .SEC_COLMAP_ACTIVE, .SEC_STATUS_PENDING_REMAP, .SEC_STATUS_STATE], [], [], false⟩ G0 = false) :
    (State.applyRemap s d k period).rd G0 I0 = s.rd G0 I0 :=
  State.applyRemap_keeps (Keeps.rd hF I0 (s.rd G0 I0)) s d k period rfl

theorem State.columnDefect_rd (s : State) (d k p period : Nat) {G0 : Fld} {I0 : List Nat} (hF : hasFld opFieldsColumnDefect G0 = false) :
    (State.columnDefect s d k p period).rd G0 I0 = s.rd G0 I0 :=
  State.columnDefect_keeps (Keeps.rd hF I0 (s.rd G0 I0)) s d k p period rfl

theorem State.treeStart_rd (s : State) (d tr e : Nat) {G0 : Fld} {I0 : List Nat} (hF : hasFld ⟨[.FCLK_GSEL_LOCKED, .FCLK_GSEL_SWITCHING, .FCLK_RSEL_LOCKED, .FCLK_RSEL_SWITCHING], [], [], false⟩ G0 = false) :
    (State.treeStart s d tr e).rd G0 I0 = s.rd G0 I0 :=
  State.treeStart_keeps (Keeps.rd hF I0 (s.rd G0 I0)) s d tr e rfl

theorem State.treeEnd_rd (s : State) (d tr : Nat) {G0 : Fld} {I0 : List Nat} (hF : hasFld ⟨[.FCLK_GSEL_ACTIVE, .FCLK_GSEL_LOCKED, .FCLK_GSEL_SWITCHING, .FCLK_RSEL_ACTIVE, .FCLK_RSEL_LOCKED, .FCLK_RSEL_SWITCHING], [], [], false⟩ G0 = false) :
    (State.treeEnd s d tr).rd G0 I0 = s.rd G0 I0 :=
  State.treeEnd_keeps (Keeps.rd hF I0 (s.rd G0 I0)) s d tr rfl

theorem State.rknLate_rd (s : State) (d k : Nat) (x : Fin 3 × Fin 24 × RknIn) {G0 : Fld} {I0 : List Nat} (hF : hasFld ⟨[], [], [], false⟩ G0 = false) :
    (State.rknLate s d k x).rd G0 I0 = s.rd G0 I0 :=
  State.rknLate_keeps (Keeps.rd hF I0 (s.rd G0 I0)) s d k x rfl

theorem State.winStore_rd (s : State) (e off n v : Nat) {G0 : Fld} {I0 : List Nat} (hF : hasFld ⟨[], [], [], false⟩ G0 = false) :
    (State.winStore s e off n v).rd G0 I0 = s.rd G0 I0 :=
  State.winStore_keeps (Keeps.rd hF I0 (s.rd G0 I0)) s e off n v rfl

theorem State.linePut_rd (s : State) (key data : Nat) (bad : Bool) {G0 : Fld} {I0 : List Nat} (hF : hasFld ⟨[], [], [], false⟩ G0 = false) :
    (State.linePut s key data bad).rd G0 I0 = s.rd G0 I0 :=
  State.linePut_keeps (Keeps.rd hF I0 (s.rd G0 I0)) s key data bad rfl

theorem State.sealErr_rd (s : State) (st code r level a : Nat) {G0 : Fld} {I0 : List Nat} (hF : hasFld ⟨[.SEAL_ERR_ADDR_HI_ADDR, .SEAL_ERR_ADDR_LO_ADDR, .SEAL_ERR_CODE, .SEAL_ERR_LEVEL, .SEAL_ERR_RANGE, .SEAL_ERR_VALID], [], [], false⟩ G0 = false) :
    (State.sealErr s st code r level a).rd G0 I0 = s.rd G0 I0 :=
  State.sealErr_keeps (Keeps.rd hF I0 (s.rd G0 I0)) s st code r level a rfl

theorem State.sealDeny_rd (s : State) (st r a : Nat) {G0 : Fld} {I0 : List Nat} (hF : hasFld opFieldsSealDeny G0 = false) :
    (State.sealDeny s st r a).rd G0 I0 = s.rd G0 I0 :=
  State.sealDeny_keeps (Keeps.rd hF I0 (s.rd G0 I0)) s st r a rfl

theorem State.hbmErr_rd (s : State) (st code a sev : Nat) {G0 : Fld} {I0 : List Nat} (hF : hasFld opFieldsHbmErr G0 = false) :
    (State.hbmErr s st code a sev).rd G0 I0 = s.rd G0 I0 :=
  State.hbmErr_keeps (Keeps.rd hF I0 (s.rd G0 I0)) s st code a sev rfl

theorem State.leafTouch_rd (s : State) (st r leaf : Nat) {G0 : Fld} {I0 : List Nat} (hF : hasFld ⟨[.SEAL_CC_MISS_CNT_COUNT], [], [], false⟩ G0 = false) :
    (State.leafTouch s st r leaf).rd G0 I0 = s.rd G0 I0 :=
  State.leafTouch_keeps (Keeps.rd hF I0 (s.rd G0 I0)) s st r leaf rfl

theorem State.nodeDirty_rd (s : State) (st r j m : Nat) {G0 : Fld} {I0 : List Nat} (hF : hasFld ⟨[], [], [], false⟩ G0 = false) :
    (State.nodeDirty s st r j m).rd G0 I0 = s.rd G0 I0 :=
  State.nodeDirty_keeps (Keeps.rd hF I0 (s.rd G0 I0)) s st r j m rfl

theorem State.sealFreeze_rd (s : State) (st r kind a : Nat) {G0 : Fld} {I0 : List Nat} (hF : hasFld opFieldsSealFreeze G0 = false) :
    (State.sealFreeze s st r kind a).rd G0 I0 = s.rd G0 I0 :=
  State.sealFreeze_keeps (Keeps.rd hF I0 (s.rd G0 I0)) s st r kind a rfl

theorem State.hwmTo_rd (s : State) (st r v : Nat) {G0 : Fld} {I0 : List Nat} (hF : hasFld ⟨[], [], [], false⟩ G0 = false) :
    (State.hwmTo s st r v).rd G0 I0 = s.rd G0 I0 :=
  State.hwmTo_keeps (Keeps.rd hF I0 (s.rd G0 I0)) s st r v rfl

theorem State.leafReset_rd (s : State) (st r leaf mj : Nat) {G0 : Fld} {I0 : List Nat} (hF : hasFld ⟨[], [], [], false⟩ G0 = false) :
    (State.leafReset s st r leaf mj).rd G0 I0 = s.rd G0 I0 :=
  State.leafReset_keeps (Keeps.rd hF I0 (s.rd G0 I0)) s st r leaf mj rfl

theorem State.stackRead_rd (s : State) (st a : Nat) {G0 : Fld} {I0 : List Nat} (hF : hasFld ⟨[.SEAL_CC_MISS_CNT_COUNT], [], [], false⟩ G0 = false) :
    (State.stackRead s st a).2.2.rd G0 I0 = s.rd G0 I0 :=
  State.stackRead_keeps (Keeps.rd hF I0 (s.rd G0 I0)) s st a rfl

theorem State.stackWrite_rd (s : State) (st a data : Nat) (bad : Bool) {G0 : Fld} {I0 : List Nat} (hF : hasFld opFieldsStackWrite G0 = false) :
    (State.stackWrite s st a data bad).2.rd G0 I0 = s.rd G0 I0 :=
  State.stackWrite_keeps (Keeps.rd hF I0 (s.rd G0 I0)) s st a data bad rfl

theorem State.pipeRead_rd (s : State) (st : Nat) (m : Mst) (a : Nat) {G0 : Fld} {I0 : List Nat} (hF : hasFld opFieldsPipeRead G0 = false) :
    (State.pipeRead s st m a).2.2.rd G0 I0 = s.rd G0 I0 :=
  State.pipeRead_keeps (Keeps.rd hF I0 (s.rd G0 I0)) s st m a rfl

theorem State.pipeWrite_rd (s : State) (st : Nat) (m : Mst) (a data : Nat) (bad : Bool) {G0 : Fld} {I0 : List Nat} (hF : hasFld opFieldsPipeWrite G0 = false) :
    (State.pipeWrite s st m a data bad).2.rd G0 I0 = s.rd G0 I0 :=
  State.pipeWrite_keeps (Keeps.rd hF I0 (s.rd G0 I0)) s st m a data bad rfl

theorem State.setRc_rd (s : State) (n line : Nat) (x : RcLine) {G0 : Fld} {I0 : List Nat} (hF : hasFld ⟨[], [], [], false⟩ G0 = false) :
    (State.setRc s n line x).rd G0 I0 = s.rd G0 I0 :=
  State.setRc_keeps (Keeps.rd hF I0 (s.rd G0 I0)) s n line x rfl

theorem State.setWbs_rd (s : State) (n : Nat) (l : List RcWb) {G0 : Fld} {I0 : List Nat} (hF : hasFld ⟨[], [], [], false⟩ G0 = false) :
    (State.setWbs s n l).rd G0 I0 = s.rd G0 I0 :=
  State.setWbs_keeps (Keeps.rd hF I0 (s.rd G0 I0)) s n l rfl

theorem State.setSf_rd (s : State) (st line : Nat) (x : SfEnt) {G0 : Fld} {I0 : List Nat} (hF : hasFld ⟨[.HA_STAT_SF_LEVEL], [], [], false⟩ G0 = false) :
    (State.setSf s st line x).rd G0 I0 = s.rd G0 I0 :=
  State.setSf_keeps (Keeps.rd hF I0 (s.rd G0 I0)) s st line x rfl

theorem State.homeStore_rd (s : State) (line data : Nat) (bad : Bool) {G0 : Fld} {I0 : List Nat} (hF : hasFld ⟨[], [], [], false⟩ G0 = false) :
    (State.homeStore s line data bad).rd G0 I0 = s.rd G0 I0 :=
  State.homeStore_keeps (Keeps.rd hF I0 (s.rd G0 I0)) s line data bad rfl

theorem State.snoopOne_rd (s : State) (line : Nat) (inval : Bool) (n : Nat) {G0 : Fld} {I0 : List Nat} (hF : hasFld ⟨[.RC_SNP_CNT_COUNT], [], [], false⟩ G0 = false) :
    (State.snoopOne s line inval n).rd G0 I0 = s.rd G0 I0 :=
  State.snoopOne_keeps (Keeps.rd hF I0 (s.rd G0 I0)) s line inval n rfl

theorem State.snoopAll_rd (s : State) (line but : Nat) (inval : Bool) {G0 : Fld} {I0 : List Nat} (hF : hasFld ⟨[.HA_STAT_SF_LEVEL, .RC_SNP_CNT_COUNT], [], [], false⟩ G0 = false) :
    (State.snoopAll s line but inval).rd G0 I0 = s.rd G0 I0 :=
  State.snoopAll_keeps (Keeps.rd hF I0 (s.rd G0 I0)) s line but inval rfl

theorem State.sfAdd_rd (s : State) (line n : Nat) (own : Bool) {G0 : Fld} {I0 : List Nat} (hF : hasFld ⟨[.HA_BACKINV_CNT_COUNT, .HA_STAT_SF_LEVEL, .RC_SNP_CNT_COUNT], [], [], false⟩ G0 = false) :
    (State.sfAdd s line n own).rd G0 I0 = s.rd G0 I0 :=
  State.sfAdd_keeps (Keeps.rd hF I0 (s.rd G0 I0)) s line n own rfl

theorem State.sfDrop_rd (s : State) (line n : Nat) {G0 : Fld} {I0 : List Nat} (hF : hasFld ⟨[.HA_STAT_SF_LEVEL], [], [], false⟩ G0 = false) :
    (State.sfDrop s line n).rd G0 I0 = s.rd G0 I0 :=
  State.sfDrop_keeps (Keeps.rd hF I0 (s.rd G0 I0)) s line n rfl

theorem State.wbGo_rd (s : State) (n : Nat) (b : RcWb) {G0 : Fld} {I0 : List Nat} (hF : hasFld ⟨[.HA_STAT_SF_LEVEL, .RC_WB_CNT_COUNT], [], [], false⟩ G0 = false) :
    (State.wbGo s n b).rd G0 I0 = s.rd G0 I0 :=
  State.wbGo_keeps (Keeps.rd hF I0 (s.rd G0 I0)) s n b rfl

theorem State.wbDrain_rd (s : State) (n : Nat) {G0 : Fld} {I0 : List Nat} (hF : hasFld ⟨[.HA_STAT_SF_LEVEL, .RC_WB_CNT_COUNT], [], [], false⟩ G0 = false) :
    (State.wbDrain s n).rd G0 I0 = s.rd G0 I0 :=
  State.wbDrain_keeps (Keeps.rd hF I0 (s.rd G0 I0)) s n rfl

theorem State.rcEvict_rd (s : State) (n line : Nat) {G0 : Fld} {I0 : List Nat} (hF : hasFld ⟨[.HA_STAT_SF_LEVEL, .RC_WB_CNT_COUNT], [], [], false⟩ G0 = false) :
    (State.rcEvict s n line).rd G0 I0 = s.rd G0 I0 :=
  State.rcEvict_keeps (Keeps.rd hF I0 (s.rd G0 I0)) s n line rfl

theorem State.rcFill_rd (s : State) (n line : Nat) (x : RcLine) {G0 : Fld} {I0 : List Nat} (hF : hasFld ⟨[.HA_STAT_SF_LEVEL, .RC_WB_CNT_COUNT], [], [], false⟩ G0 = false) :
    (State.rcFill s n line x).rd G0 I0 = s.rd G0 I0 :=
  State.rcFill_keeps (Keeps.rd hF I0 (s.rd G0 I0)) s n line x rfl

theorem State.rcBring_rd (s : State) (n line : Nat) (own : Bool) {G0 : Fld} {I0 : List Nat} (hF : hasFld ⟨[.HA_BACKINV_CNT_COUNT, .HA_STAT_SF_LEVEL, .RC_SNP_CNT_COUNT, .RC_WB_CNT_COUNT], [], [], false⟩ G0 = false) :
    (State.rcBring s n line own).rd G0 I0 = s.rd G0 I0 :=
  State.rcBring_keeps (Keeps.rd hF I0 (s.rd G0 I0)) s n line own rfl

theorem State.countRetained_rd (s : State) (n : Nat) {G0 : Fld} {I0 : List Nat} (hF : hasFld ⟨[.RC_STAT_RETAINED], [], [], false⟩ G0 = false) :
    (State.countRetained s n).rd G0 I0 = s.rd G0 I0 :=
  State.countRetained_keeps (Keeps.rd hF I0 (s.rd G0 I0)) s n rfl

theorem State.recallHome_rd (s : State) (st : Nat) {G0 : Fld} {I0 : List Nat} (hF : hasFld ⟨[.HA_BACKINV_CNT_COUNT, .HA_STAT_RECALL, .HA_STAT_SF_LEVEL, .RC_SNP_CNT_COUNT, .RC_STAT_RETAINED, .RC_WB_CNT_COUNT], [], [], false⟩ G0 = false) :
    (State.recallHome s st).rd G0 I0 = s.rd G0 I0 :=
  State.recallHome_keeps (Keeps.rd hF I0 (s.rd G0 I0)) s st rfl

theorem State.recallFirst_rd (s : State) (st : Nat) {G0 : Fld} {I0 : List Nat} (hF : hasFld ⟨[.HA_BACKINV_CNT_COUNT, .HA_STAT_RECALL, .HA_STAT_SF_LEVEL, .RC_SNP_CNT_COUNT, .RC_STAT_RETAINED, .RC_WB_CNT_COUNT], [], [], false⟩ G0 = false) :
    (State.recallFirst s st).rd G0 I0 = s.rd G0 I0 :=
  State.recallFirst_keeps (Keeps.rd hF I0 (s.rd G0 I0)) s st rfl

theorem State.rcRead_rd (s : State) (n line : Nat) {G0 : Fld} {I0 : List Nat} (hF : hasFld opFieldsRcRead G0 = false) :
    (State.rcRead s n line).2.2.rd G0 I0 = s.rd G0 I0 :=
  State.rcRead_keeps (Keeps.rd hF I0 (s.rd G0 I0)) s n line rfl

theorem State.rcWrite_rd (s : State) (n line data : Nat) (bad : Bool) {G0 : Fld} {I0 : List Nat} (hF : hasFld opFieldsRcWrite G0 = false) :
    (State.rcWrite s n line data bad).2.rd G0 I0 = s.rd G0 I0 :=
  State.rcWrite_keeps (Keeps.rd hF I0 (s.rd G0 I0)) s n line data bad rfl

theorem State.refuse19_rd (s : State) (m : Mst) (g status : Nat) {G0 : Fld} {I0 : List Nat} (hF : hasFld ⟨[], [], [], false⟩ G0 = false) :
    (State.refuse19 s m g status).rd G0 I0 = s.rd G0 I0 :=
  State.refuse19_keeps (Keeps.rd hF I0 (s.rd G0 I0)) s m g status rfl

theorem State.gRead_rd (s : State) (m : Mst) (g : Nat) (env : Nat × Nat) {G0 : Fld} {I0 : List Nat} (hF : hasFld opFieldsGRead G0 = false) :
    (State.gRead s m g env).2.2.rd G0 I0 = s.rd G0 I0 :=
  State.gRead_keeps (Keeps.rd hF I0 (s.rd G0 I0)) s m g env rfl

theorem State.winDrop_rd (s : State) (w : Writer) (e off v : Nat) {G0 : Fld} {I0 : List Nat} (hF : hasFld ⟨[], [], [], false⟩ G0 = false) :
    (State.winDrop s w e off v).rd G0 I0 = s.rd G0 I0 :=
  State.winDrop_keeps (Keeps.rd hF I0 (s.rd G0 I0)) s w e off v rfl

theorem State.winWord_rd (s : State) (w : Writer) (e off v : Nat) {G0 : Fld} {I0 : List Nat} (hF : hasFld ⟨[], [], [], false⟩ G0 = false) :
    (State.winWord s w e off v).2.rd G0 I0 = s.rd G0 I0 :=
  State.winWord_keeps (Keeps.rd hF I0 (s.rd G0 I0)) s w e off v rfl

theorem State.gWrite_rd (s : State) (m : Mst) (g data : Nat) (bad : Bool) (env : Nat) {G0 : Fld} {I0 : List Nat} (hF : hasFld opFieldsGWrite G0 = false) :
    (State.gWrite s m g data bad env).2.rd G0 I0 = s.rd G0 I0 :=
  State.gWrite_keeps (Keeps.rd hF I0 (s.rd G0 I0)) s m g data bad env rfl

theorem State.setQp_rd (s : State) (q : Nat) (x : QpRt) {G0 : Fld} {I0 : List Nat} (hF : hasFld ⟨[], [], [], false⟩ G0 = false) :
    (State.setQp s q x).rd G0 I0 = s.rd G0 I0 :=
  State.setQp_keeps (Keeps.rd hF I0 (s.rd G0 I0)) s q x rfl

theorem State.setVec_rd (s : State) (f v : Nat) (x : VecRt) {G0 : Fld} {I0 : List Nat} (hF : hasFld ⟨[], [], [], false⟩ G0 = false) :
    (State.setVec s f v x).rd G0 I0 = s.rd G0 I0 :=
  State.setVec_keeps (Keeps.rd hF I0 (s.rd G0 I0)) s f v x rfl

theorem State.sendVec_rd (s : State) (f v : Nat) {G0 : Fld} {I0 : List Nat} (hF : hasFld ⟨[], [], [], false⟩ G0 = false) :
    (State.sendVec s f v).rd G0 I0 = s.rd G0 I0 :=
  State.sendVec_keeps (Keeps.rd hF I0 (s.rd G0 I0)) s f v rfl

theorem State.raiseVec_rd (s : State) (f v h : Nat) {G0 : Fld} {I0 : List Nat} (hF : hasFld ⟨[], [], [], false⟩ G0 = false) :
    (State.raiseVec s f v h).rd G0 I0 = s.rd G0 I0 :=
  State.raiseVec_keeps (Keeps.rd hF I0 (s.rd G0 I0)) s f v h rfl

theorem State.raiseQp_rd (s : State) (q : Nat) {G0 : Fld} {I0 : List Nat} (hF : hasFld ⟨[], [], [], false⟩ G0 = false) :
    (State.raiseQp s q).rd G0 I0 = s.rd G0 I0 :=
  State.raiseQp_keeps (Keeps.rd hF I0 (s.rd G0 I0)) s q rfl

theorem State.qpError_rd (s : State) (q err : Nat) {G0 : Fld} {I0 : List Nat} (hF : hasFld ⟨[.HIF_QP_STAT_ERR, .HIF_QP_STAT_STATE], [], [], false⟩ G0 = false) :
    (State.qpError s q err).rd G0 I0 = s.rd G0 I0 :=
  State.qpError_keeps (Keeps.rd hF I0 (s.rd G0 I0)) s q err rfl

theorem State.setJob_rd (s : State) (q n : Nat) (j : Job) {G0 : Fld} {I0 : List Nat} (hF : hasFld ⟨[], [], [], false⟩ G0 = false) :
    (State.setJob s q n j).rd G0 I0 = s.rd G0 I0 :=
  State.setJob_keeps (Keeps.rd hF I0 (s.rd G0 I0)) s q n j rfl

theorem State.jobGone_rd (s : State) (q n : Nat) {G0 : Fld} {I0 : List Nat} (hF : hasFld ⟨[.HIF_QP_DONE_CNT_COUNT, .HIF_QP_STAT_STATE], [], [], false⟩ G0 = false) :
    (State.jobGone s q n).rd G0 I0 = s.rd G0 I0 :=
  State.jobGone_keeps (Keeps.rd hF I0 (s.rd G0 I0)) s q n rfl

theorem State.jobEnd_rd (s : State) (q n status detail bytes : Nat) {G0 : Fld} {I0 : List Nat} (hF : hasFld ⟨[.HIF_QP_DONE_CNT_COUNT, .HIF_QP_STAT_STATE], [], [], false⟩ G0 = false) :
    (State.jobEnd s q n status detail bytes).rd G0 I0 = s.rd G0 I0 :=
  State.jobEnd_keeps (Keeps.rd hF I0 (s.rd G0 I0)) s q n status detail bytes rfl

theorem State.settle_rd (s : State) (q : Nat) (n0 : Nat) {G0 : Fld} {I0 : List Nat} (hF : hasFld ⟨[.HIF_QP_DONE_CNT_COUNT, .HIF_QP_STAT_STATE], [], [], false⟩ G0 = false) :
    (State.settle s q n0).rd G0 I0 = s.rd G0 I0 :=
  State.settle_keeps (Keeps.rd hF I0 (s.rd G0 I0)) s q n0 rfl

theorem State.jobDone_rd (s : State) (q n status detail bytes : Nat) {G0 : Fld} {I0 : List Nat} (hF : hasFld ⟨[.HIF_QP_DONE_CNT_COUNT, .HIF_QP_STAT_STATE], [], [], false⟩ G0 = false) :
    (State.jobDone s q n status detail bytes).rd G0 I0 = s.rd G0 I0 :=
  State.jobDone_keeps (Keeps.rd hF I0 (s.rd G0 I0)) s q n status detail bytes rfl

theorem State.qpDrop_rd (s : State) (q : Nat) {G0 : Fld} {I0 : List Nat} (hF : hasFld ⟨[], [], [], false⟩ G0 = false) :
    (State.qpDrop s q).rd G0 I0 = s.rd G0 I0 :=
  State.qpDrop_keeps (Keeps.rd hF I0 (s.rd G0 I0)) s q rfl

theorem State.hostData_rd (s : State) (f a : Nat) (bs : List Byte) {G0 : Fld} {I0 : List Nat} (hF : hasFld ⟨[], [], [], false⟩ G0 = false) :
    (State.hostData s f a bs).rd G0 I0 = s.rd G0 I0 :=
  State.hostData_keeps (Keeps.rd hF I0 (s.rd G0 I0)) s f a bs rfl

theorem State.lsErr_rd (s : State) (code source : Nat) {G0 : Fld} {I0 : List Nat} (hF : hasFld ⟨[.LS_ERR_CODE, .LS_ERR_SOURCE, .LS_ERR_VALID], [], [], false⟩ G0 = false) :
    (State.lsErr s code source).rd G0 I0 = s.rd G0 I0 :=
  State.lsErr_keeps (Keeps.rd hF I0 (s.rd G0 I0)) s code source rfl

theorem State.imageBad_rd (s : State) (code source : Nat) {G0 : Fld} {I0 : List Nat} (hF : hasFld ⟨[.LS_ERR_CODE, .LS_ERR_SOURCE, .LS_ERR_VALID, .LS_VER_CNT_COUNT], [], [], false⟩ G0 = false) :
    (State.imageBad s code source).rd G0 I0 = s.rd G0 I0 :=
  State.imageBad_keeps (Keeps.rd hF I0 (s.rd G0 I0)) s code source rfl

theorem State.cfgBlank_rd (s : State) (n k : Nat) {G0 : Fld} {I0 : List Nat} (hF : hasFld ⟨[], [], [], false⟩ G0 = false) :
    (State.cfgBlank s n k).rd G0 I0 = s.rd G0 I0 :=
  State.cfgBlank_keeps (Keeps.rd hF I0 (s.rd G0 I0)) s n k rfl

theorem State.remapAtLoad_rd (s : State) (n k : Nat) {G0 : Fld} {I0 : List Nat} (hF : hasFld ⟨[.MGMT_HEALTH_STAGE, .MGMT_HEALTH_ZERO, .SEC_COLMAP_ACTIVE, .SEC_STATUS_PENDING_REMAP], [], [], false⟩ G0 = false) :
    (State.remapAtLoad s n k).rd G0 I0 = s.rd G0 I0 :=
  State.remapAtLoad_keeps (Keeps.rd hF I0 (s.rd G0 I0)) s n k rfl

theorem State.cfgEnter_rd (s : State) {G0 : Fld} {I0 : List Nat} (hF : hasFld opFieldsCfgEnter G0 = false) :
    (State.cfgEnter s).rd G0 I0 = s.rd G0 I0 :=
  State.cfgEnter_keeps (Keeps.rd hF I0 (s.rd G0 I0)) s rfl

theorem State.cfgVoid_rd (s : State) {G0 : Fld} {I0 : List Nat} (hF : hasFld ⟨[.SEC_CTL_RESET, .SEC_STATUS_ISOLATED, .SEC_STATUS_PERMIT_WAIT, .SEC_STATUS_RESET_HELD, .SEC_STATUS_STATE], [.sec], [], false⟩ G0 = false) :
    (State.cfgVoid s).rd G0 I0 = s.rd G0 I0 :=
  State.cfgVoid_keeps (Keeps.rd hF I0 (s.rd G0 I0)) s rfl

theorem State.cfgClose_rd (s : State) (status detail bytes : Nat) {G0 : Fld} {I0 : List Nat} (hF : hasFld ⟨[.BOOT_STAT_CFG, .BOOT_STAT_CFG_STATUS, .HIF_QP_DONE_CNT_COUNT, .HIF_QP_STAT_STATE], [], [], false⟩ G0 = false) :
    (State.cfgClose s status detail bytes).rd G0 I0 = s.rd G0 I0 :=
  State.cfgClose_keeps (Keeps.rd hF I0 (s.rd G0 I0)) s status detail bytes rfl

theorem State.cfgFail_rd (s : State) (status detail : Nat) {G0 : Fld} {I0 : List Nat} (hF : hasFld opFieldsCfgFail G0 = false) :
    (State.cfgFail s status detail).rd G0 I0 = s.rd G0 I0 :=
  State.cfgFail_keeps (Keeps.rd hF I0 (s.rd G0 I0)) s status detail rfl

theorem State.cfgErr_rd (s : State) (n code sec far : Nat) {G0 : Fld} {I0 : List Nat} (hF : hasFld ⟨[.CFG_ERR_CODE, .CFG_ERR_FAR_FAR, .CFG_ERR_SECTOR, .CFG_ERR_VALID], [], [], false⟩ G0 = false) :
    (State.cfgErr s n code sec far).rd G0 I0 = s.rd G0 I0 :=
  State.cfgErr_keeps (Keeps.rd hF I0 (s.rd G0 I0)) s n code sec far rfl

theorem State.cfgRefuse_rd (s : State) (n code sec far : Nat) {G0 : Fld} {I0 : List Nat} (hF : hasFld opFieldsCfgRefuse G0 = false) :
    (State.cfgRefuse s n code sec far).rd G0 I0 = s.rd G0 I0 :=
  State.cfgRefuse_keeps (Keeps.rd hF I0 (s.rd G0 I0)) s n code sec far rfl

theorem State.cfgTimeouts_rd (s : State) {G0 : Fld} {I0 : List Nat} (hF : hasFld opFieldsCfgTimeouts G0 = false) :
    (State.cfgTimeouts s).rd G0 I0 = s.rd G0 I0 :=
  State.cfgTimeouts_keeps (Keeps.rd hF I0 (s.rd G0 I0)) s rfl

theorem State.cfgProceed_rd (s : State) {G0 : Fld} {I0 : List Nat} (hF : hasFld opFieldsCfgProceed G0 = false) :
    (State.cfgProceed s).rd G0 I0 = s.rd G0 I0 :=
  State.cfgProceed_keeps (Keeps.rd hF I0 (s.rd G0 I0)) s rfl

theorem State.cfgDecrypt_rd (s : State) {G0 : Fld} {I0 : List Nat} (hF : hasFld opFieldsCfgDecrypt G0 = false) :
    (State.cfgDecrypt s).rd G0 I0 = s.rd G0 I0 :=
  State.cfgDecrypt_keeps (Keeps.rd hF I0 (s.rd G0 I0)) s rfl

theorem State.cfgBegin_rd (s : State) (owner : Option (Nat × Nat)) (release : Bool) (len at_ : Nat) (hdr : Option Nat) (unwrap : Bool) {G0 : Fld} {I0 : List Nat} (hF : hasFld opFieldsCfgBegin G0 = false) :
    (State.cfgBegin s owner release len at_ hdr unwrap).rd G0 I0 = s.rd G0 I0 :=
  State.cfgBegin_keeps (Keeps.rd hF I0 (s.rd G0 I0)) s owner release len at_ hdr unwrap rfl

theorem State.operItems_rd (s : State) (n a : Nat) (items : List CfgItem) {G0 : Fld} {I0 : List Nat} (hF : hasFld ⟨[], [], [], false⟩ G0 = false) :
    (State.operItems s n a items).rd G0 I0 = s.rd G0 I0 :=
  State.operItems_keeps (Keeps.rd hF I0 (s.rd G0 I0)) s n a items rfl

theorem State.frameDesign_rd (s : State) (n a data : Nat) (items : List CfgItem) {G0 : Fld} {I0 : List Nat} (hF : hasFld ⟨[], [], [], false⟩ G0 = false) :
    (State.frameDesign s n a data items).rd G0 I0 = s.rd G0 I0 :=
  State.frameDesign_keeps (Keeps.rd hF I0 (s.rd G0 I0)) s n a data items rfl

theorem State.frameStore_rd (s : State) (n r : Nat) (items : List CfgItem) {G0 : Fld} {I0 : List Nat} (hF : hasFld ⟨[.CFG_STATUS_FRAMES], [], [], false⟩ G0 = false) :
    (State.frameStore s n r items).rd G0 I0 = s.rd G0 I0 :=
  State.frameStore_keeps (Keeps.rd hF I0 (s.rd G0 I0)) s n r items rfl

theorem State.cfgGood_rd (s : State) {G0 : Fld} {I0 : List Nat} (hF : hasFld ⟨[.BOOT_STAT_CFG, .BOOT_STAT_CFG_STATUS, .HIF_QP_DONE_CNT_COUNT, .HIF_QP_STAT_STATE, .LS_SVN_SVN], [], [], false⟩ G0 = false) :
    (State.cfgGood s).rd G0 I0 = s.rd G0 I0 :=
  State.cfgGood_keeps (Keeps.rd hF I0 (s.rd G0 I0)) s rfl

theorem State.cfgDrive_rd (s : State) (n0 : Nat) {G0 : Fld} {I0 : List Nat} (hF : hasFld ⟨[.PG_ERR_OP, .PG_ERR_OVERSIZE, .PG_ERR_UNITS, .PG_ERR_VALID, .PG_GRANT_CNT_COUNT, .PG_TO_CNT_COUNT], [], [], false⟩ G0 = false) :
    (State.cfgDrive s n0).rd G0 I0 = s.rd G0 I0 :=
  State.cfgDrive_keeps (Keeps.rd hF I0 (s.rd G0 I0)) s n0 rfl

theorem State.cfgDieLeft_rd (s : State) (n : Nat) {G0 : Fld} {I0 : List Nat} (hF : hasFld opFieldsCfgDieLeft G0 = false) :
    (State.cfgDieLeft s n).rd G0 I0 = s.rd G0 I0 :=
  State.cfgDieLeft_keeps (Keeps.rd hF I0 (s.rd G0 I0)) s n rfl

theorem State.cfgOrphan_rd (s : State) (f : Nat) {G0 : Fld} {I0 : List Nat} (hF : hasFld opFieldsCfgOrphan G0 = false) :
    (State.cfgOrphan s f).rd G0 I0 = s.rd G0 I0 :=
  State.cfgOrphan_keeps (Keeps.rd hF I0 (s.rd G0 I0)) s f rfl

theorem State.setSeal_rd (s : State) (st : Nat) (x : SealRt) {G0 : Fld} {I0 : List Nat} (hF : hasFld ⟨[.SEAL_STAT_KIND, .SEAL_STAT_PERMIT_WAIT, .SEAL_STAT_QUEUE, .SEAL_STAT_RANGE], [], [], false⟩ G0 = false) :
    (State.setSeal s st x).rd G0 I0 = s.rd G0 I0 :=
  State.setSeal_keeps (Keeps.rd hF I0 (s.rd G0 I0)) s st x rfl

theorem State.trimHeld_rd (s : State) (g : Nat) (who : List Nat) (units : Nat) {G0 : Fld} {I0 : List Nat} (hF : hasFld ⟨[], [], [], false⟩ G0 = false) :
    (State.trimHeld s g who units).rd G0 I0 = s.rd G0 I0 :=
  State.trimHeld_keeps (Keeps.rd hF I0 (s.rd G0 I0)) s g who units rfl

theorem State.sweepPermit_rd (s : State) (st : Nat) {G0 : Fld} {I0 : List Nat} (hF : hasFld opFieldsSweepPermit G0 = false) :
    (State.sweepPermit s st).rd G0 I0 = s.rd G0 I0 :=
  State.sweepPermit_keeps (Keeps.rd hF I0 (s.rd G0 I0)) s st rfl

theorem State.repairPermit_rd (s : State) (st : Nat) {G0 : Fld} {I0 : List Nat} (hF : hasFld opFieldsRepairPermit G0 = false) :
    (State.repairPermit s st).rd G0 I0 = s.rd G0 I0 :=
  State.repairPermit_keeps (Keeps.rd hF I0 (s.rd G0 I0)) s st rfl

theorem State.sweepBegin_rd (s : State) (st : Nat) (w : Sweep) {G0 : Fld} {I0 : List Nat} (hF : hasFld opFieldsSweepBegin G0 = false) :
    (State.sweepBegin s st w).rd G0 I0 = s.rd G0 I0 :=
  State.sweepBegin_keeps (Keeps.rd hF I0 (s.rd G0 I0)) s st w rfl

theorem State.sweepQueue_rd (s : State) (st : Nat) (w : Sweep) {G0 : Fld} {I0 : List Nat} (hF : hasFld opFieldsSweepQueue G0 = false) :
    (State.sweepQueue s st w).rd G0 I0 = s.rd G0 I0 :=
  State.sweepQueue_keeps (Keeps.rd hF I0 (s.rd G0 I0)) s st w rfl

theorem State.sweepNext_rd (s : State) (st : Nat) {G0 : Fld} {I0 : List Nat} (hF : hasFld opFieldsSweepNext G0 = false) :
    (State.sweepNext s st).rd G0 I0 = s.rd G0 I0 :=
  State.sweepNext_keeps (Keeps.rd hF I0 (s.rd G0 I0)) s st rfl

theorem State.sweepSleep_rd (s : State) (st : Nat) {G0 : Fld} {I0 : List Nat} (hF : hasFld ⟨[.SEAL_STAT_KIND, .SEAL_STAT_PERMIT_WAIT, .SEAL_STAT_QUEUE, .SEAL_STAT_RANGE], [], [], false⟩ G0 = false) :
    (State.sweepSleep s st).rd G0 I0 = s.rd G0 I0 :=
  State.sweepSleep_keeps (Keeps.rd hF I0 (s.rd G0 I0)) s st rfl

theorem State.sweepWake_rd (s : State) (st : Nat) {G0 : Fld} {I0 : List Nat} (hF : hasFld opFieldsSweepWake G0 = false) :
    (State.sweepWake s st).rd G0 I0 = s.rd G0 I0 :=
  State.sweepWake_keeps (Keeps.rd hF I0 (s.rd G0 I0)) s st rfl

theorem State.nodeTake_rd (s : State) (st r level m flips : Nat) {G0 : Fld} {I0 : List Nat} (hF : hasFld ⟨[], [], [], false⟩ G0 = false) :
    (State.nodeTake s st r level m flips).rd G0 I0 = s.rd G0 I0 :=
  State.nodeTake_keeps (Keeps.rd hF I0 (s.rd G0 I0)) s st r level m flips rfl

theorem State.tagMismatch_rd (s : State) (st r i : Nat) (poison : Bool) {G0 : Fld} {I0 : List Nat} (hF : hasFld opFieldsTagMismatch G0 = false) :
    (State.tagMismatch s st r i poison).rd G0 I0 = s.rd G0 I0 :=
  State.tagMismatch_keeps (Keeps.rd hF I0 (s.rd G0 I0)) s st r i poison rfl

theorem State.nodeCopyBad_rd (s : State) (st r level node : Nat) (mirror : Bool) {G0 : Fld} {I0 : List Nat} (hF : hasFld opFieldsNodeCopyBad G0 = false) :
    (State.nodeCopyBad s st r level node mirror).rd G0 I0 = s.rd G0 I0 :=
  State.nodeCopyBad_keeps (Keeps.rd hF I0 (s.rd G0 I0)) s st r level node mirror rfl

theorem State.nodeFetch_rd (s : State) (st r level node : Nat) (mirror : Bool) (flips : Nat) {G0 : Fld} {I0 : List Nat} (hF : hasFld opFieldsNodeFetch G0 = false) :
    (State.nodeFetch s st r level node mirror flips).rd G0 I0 = s.rd G0 I0 :=
  State.nodeFetch_keeps (Keeps.rd hF I0 (s.rd G0 I0)) s st r level node mirror flips rfl

theorem State.leafStore_rd (s : State) (st r : Nat) (got : List (Nat × Option Nat)) {G0 : Fld} {I0 : List Nat} (hF : hasFld opFieldsLeafStore G0 = false) :
    (State.leafStore s st r got).rd G0 I0 = s.rd G0 I0 :=
  State.leafStore_keeps (Keeps.rd hF I0 (s.rd G0 I0)) s st r got rfl

theorem State.setEngine_rd (s : State) (e : Nat) (r : EngRt) {G0 : Fld} {I0 : List Nat} (hF : hasFld ⟨[], [], [], false⟩ G0 = false) :
    (State.setEngine s e r).rd G0 I0 = s.rd G0 I0 :=
  State.setEngine_keeps (Keeps.rd hF I0 (s.rd G0 I0)) s e r rfl

theorem State.engReturn_rd (s : State) (e : Nat) {G0 : Fld} {I0 : List Nat} (hF : hasFld ⟨[], [], [], false⟩ G0 = false) :
    (State.engReturn s e).rd G0 I0 = s.rd G0 I0 :=
  State.engReturn_keeps (Keeps.rd hF I0 (s.rd G0 I0)) s e rfl

theorem State.engFault_rd (s : State) (e code detail pc : Nat) {G0 : Fld} {I0 : List Nat} (hF : hasFld ⟨[.ENG_FAULT_CODE, .ENG_FAULT_DETAIL, .ENG_FAULT_PC, .ENG_FAULT_VALID, .ENG_STATUS_STATE], [], [], false⟩ G0 = false) :
    (State.engFault s e code detail pc).rd G0 I0 = s.rd G0 I0 :=
  State.engFault_keeps (Keeps.rd hF I0 (s.rd G0 I0)) s e code detail pc rfl

theorem State.strmStart_rd (s : State) (e : Nat) {G0 : Fld} {I0 : List Nat} (hF : hasFld ⟨[.ENG_STRM_CTL_ENDED, .ENG_STRM_POS_POS], [], [], false⟩ G0 = false) :
    (State.strmStart s e).rd G0 I0 = s.rd G0 I0 :=
  State.strmStart_keeps (Keeps.rd hF I0 (s.rd G0 I0)) s e rfl

theorem State.strmStop_rd (s : State) (e : Nat) {G0 : Fld} {I0 : List Nat} (hF : hasFld ⟨[], [], [], false⟩ G0 = false) :
    (State.strmStop s e).rd G0 I0 = s.rd G0 I0 :=
  State.strmStop_keeps (Keeps.rd hF I0 (s.rd G0 I0)) s e rfl

theorem State.engBegin_rd (s : State) (e : Nat) {G0 : Fld} {I0 : List Nat} (hF : hasFld ⟨[.ENG_STATUS_STATE], [], [], false⟩ G0 = false) :
    (State.engBegin s e).rd G0 I0 = s.rd G0 I0 :=
  State.engBegin_keeps (Keeps.rd hF I0 (s.rd G0 I0)) s e rfl

theorem State.engInit_rd (s : State) (e : Nat) (arm : Bool) {G0 : Fld} {I0 : List Nat} (hF : hasFld opFieldsEngInit G0 = false) :
    (State.engInit s e arm).rd G0 I0 = s.rd G0 I0 :=
  State.engInit_keeps (Keeps.rd hF I0 (s.rd G0 I0)) s e arm rfl

theorem State.engStart_rd (s : State) (e : Nat) (arm : Bool) {G0 : Fld} {I0 : List Nat} (hF : hasFld opFieldsEngStart G0 = false) :
    (State.engStart s e arm).rd G0 I0 = s.rd G0 I0 :=
  State.engStart_keeps (Keeps.rd hF I0 (s.rd G0 I0)) s e arm rfl

theorem State.tmrStop_rd (s : State) (e : Nat) {G0 : Fld} {I0 : List Nat} (hF : hasFld ⟨[], [], [], false⟩ G0 = false) :
    (State.tmrStop s e).rd G0 I0 = s.rd G0 I0 :=
  State.tmrStop_keeps (Keeps.rd hF I0 (s.rd G0 I0)) s e rfl

theorem State.tmrRun_rd (s : State) (e : Nat) {G0 : Fld} {I0 : List Nat} (hF : hasFld ⟨[], [], [], false⟩ G0 = false) :
    (State.tmrRun s e).rd G0 I0 = s.rd G0 I0 :=
  State.tmrRun_keeps (Keeps.rd hF I0 (s.rd G0 I0)) s e rfl

theorem State.tmrFollow_rd (s : State) (e : Nat) {G0 : Fld} {I0 : List Nat} (hF : hasFld ⟨[], [], [], false⟩ G0 = false) :
    (State.tmrFollow s e).rd G0 I0 = s.rd G0 I0 :=
  State.tmrFollow_keeps (Keeps.rd hF I0 (s.rd G0 I0)) s e rfl

theorem State.engStop_rd (s : State) (e : Nat) {G0 : Fld} {I0 : List Nat} (hF : hasFld ⟨[.ENG_STATUS_STATE], [], [], false⟩ G0 = false) :
    (State.engStop s e).rd G0 I0 = s.rd G0 I0 :=
  State.engStop_keeps (Keeps.rd hF I0 (s.rd G0 I0)) s e rfl

theorem State.engPause_rd (s : State) (e : Nat) {G0 : Fld} {I0 : List Nat} (hF : hasFld ⟨[.ENG_STATUS_STATE], [], [], false⟩ G0 = false) :
    (State.engPause s e).rd G0 I0 = s.rd G0 I0 :=
  State.engPause_keeps (Keeps.rd hF I0 (s.rd G0 I0)) s e rfl

theorem State.engReset_rd (s : State) (e : Nat) {G0 : Fld} {I0 : List Nat} (hF : hasFld ⟨[], [.eng], [], false⟩ G0 = false) :
    (State.engReset s e).rd G0 I0 = s.rd G0 I0 :=
  State.engReset_keeps (Keeps.rd hF I0 (s.rd G0 I0)) s e rfl

theorem State.holdEngine_rd (s : State) (e rate : Nat) {G0 : Fld} {I0 : List Nat} (hF : hasFld ⟨[], [], [], false⟩ G0 = false) :
    (State.holdEngine s e rate).rd G0 I0 = s.rd G0 I0 :=
  State.holdEngine_keeps (Keeps.rd hF I0 (s.rd G0 I0)) s e rate rfl

theorem State.engStall_rd (s : State) (e item : Nat) {G0 : Fld} {I0 : List Nat} (hF : hasFld ⟨[.ENG_STALL_COUNT, .ENG_STATUS_STATE], [], [], false⟩ G0 = false) :
    (State.engStall s e item).rd G0 I0 = s.rd G0 I0 :=
  State.engStall_keeps (Keeps.rd hF I0 (s.rd G0 I0)) s e item rfl

theorem State.stepEmit_rd (s : State) (e w pc sw : Nat) {G0 : Fld} {I0 : List Nat} (hF : hasFld ⟨[.ENG_STRM_CTL_ENDED, .ENG_STRM_POS_POS], [], [], false⟩ G0 = false) :
    (State.stepEmit s e w pc sw).rd G0 I0 = s.rd G0 I0 :=
  State.stepEmit_keeps (Keeps.rd hF I0 (s.rd G0 I0)) s e w pc sw rfl

theorem State.stepGens_rd (s : State) (e w : Nat) (g : List (Nat × Bool)) {G0 : Fld} {I0 : List Nat} (hF : hasFld ⟨[.ENG_GEN_V_VALUE], [], [], false⟩ G0 = false) :
    (State.stepGens s e w g).rd G0 I0 = s.rd G0 I0 :=
  State.stepGens_keeps (Keeps.rd hF I0 (s.rd G0 I0)) s e w g rfl

theorem State.stepEnd_rd (s : State) (e w next : Nat) (halt : Bool) {G0 : Fld} {I0 : List Nat} (hF : hasFld ⟨[.ENG_PC_CUR, .ENG_STATUS_IN_HANDLER, .ENG_STATUS_STATE], [], [], false⟩ G0 = false) :
    (State.stepEnd s e w next halt).rd G0 I0 = s.rd G0 I0 :=
  State.stepEnd_keeps (Keeps.rd hF I0 (s.rd G0 I0)) s e w next halt rfl

theorem State.stepCommit_rd (s : State) (e w pc sw : Nat) {G0 : Fld} {I0 : List Nat} (hF : hasFld opFieldsStepCommit G0 = false) :
    (State.stepCommit s e w pc sw).rd G0 I0 = s.rd G0 I0 :=
  State.stepCommit_keeps (Keeps.rd hF I0 (s.rd G0 I0)) s e w pc sw rfl

theorem State.stepItems_rd (s : State) (e w pc : Nat) {G0 : Fld} {I0 : List Nat} (hF : hasFld opFieldsStepItems G0 = false) :
    (State.stepItems s e w pc).rd G0 I0 = s.rd G0 I0 :=
  State.stepItems_keeps (Keeps.rd hF I0 (s.rd G0 I0)) s e w pc rfl

theorem State.stepFill_rd (s : State) (e w pc : Nat) {G0 : Fld} {I0 : List Nat} (hF : hasFld opFieldsStepFill G0 = false) :
    (State.stepFill s e w pc).rd G0 I0 = s.rd G0 I0 :=
  State.stepFill_keeps (Keeps.rd hF I0 (s.rd G0 I0)) s e w pc rfl

theorem State.engWait_rd (s : State) (e : Nat) (k : WaitK) {G0 : Fld} {I0 : List Nat} (hF : hasFld ⟨[.ENG_STATUS_STATE], [], [], false⟩ G0 = false) :
    (State.engWait s e k).rd G0 I0 = s.rd G0 I0 :=
  State.engWait_keeps (Keeps.rd hF I0 (s.rd G0 I0)) s e k rfl

theorem State.engWaitOver_rd (s : State) (e : Nat) {G0 : Fld} {I0 : List Nat} (hF : hasFld opFieldsEngWaitOver G0 = false) :
    (State.engWaitOver s e).rd G0 I0 = s.rd G0 I0 :=
  State.engWaitOver_keeps (Keeps.rd hF I0 (s.rd G0 I0)) s e rfl

theorem State.fixIssue_rd (s : State) (f kind e id : Nat) {G0 : Fld} {I0 : List Nat} (hF : hasFld ⟨[], [], [], false⟩ G0 = false) :
    (State.fixIssue s f kind e id).rd G0 I0 = s.rd G0 I0 :=
  State.fixIssue_keeps (Keeps.rd hF I0 (s.rd G0 I0)) s f kind e id rfl

theorem State.syncSet_rd (s : State) (e f : Nat) (setIt : Bool) {G0 : Fld} {I0 : List Nat} (hF : hasFld ⟨[.ENG_STATUS_STATE], [], [], false⟩ G0 = false) :
    (State.syncSet s e f setIt).rd G0 I0 = s.rd G0 I0 :=
  State.syncSet_keeps (Keeps.rd hF I0 (s.rd G0 I0)) s e f setIt rfl

theorem State.syncArrive_rd (s : State) (e f : Nat) {G0 : Fld} {I0 : List Nat} (hF : hasFld ⟨[.ENG_STATUS_STATE], [], [], false⟩ G0 = false) :
    (State.syncArrive s e f).rd G0 I0 = s.rd G0 I0 :=
  State.syncArrive_keeps (Keeps.rd hF I0 (s.rd G0 I0)) s e f rfl

theorem State.syncBegin_rd (s : State) (e w pc : Nat) {G0 : Fld} {I0 : List Nat} (hF : hasFld opFieldsSyncBegin G0 = false) :
    (State.syncBegin s e w pc).rd G0 I0 = s.rd G0 I0 :=
  State.syncBegin_keeps (Keeps.rd hF I0 (s.rd G0 I0)) s e w pc rfl

theorem State.stepBegin_rd (s : State) (e : Nat) {G0 : Fld} {I0 : List Nat} (hF : hasFld opFieldsStepBegin G0 = false) :
    (State.stepBegin s e).rd G0 I0 = s.rd G0 I0 :=
  State.stepBegin_keeps (Keeps.rd hF I0 (s.rd G0 I0)) s e rfl

theorem State.runOp_rd (s : State) (e op : Nat) {G0 : Fld} {I0 : List Nat} (hF : hasFld opFieldsRunOp G0 = false) :
    (State.runOp s e op).rd G0 I0 = s.rd G0 I0 :=
  State.runOp_keeps (Keeps.rd hF I0 (s.rd G0 I0)) s e op rfl

theorem State.bcast_rd (s : State) (o : FixOp) (rebase : Bool) {G0 : Fld} {I0 : List Nat} (hF : hasFld ⟨[], [], [], false⟩ G0 = false) :
    (State.bcast s o rebase).rd G0 I0 = s.rd G0 I0 :=
  State.bcast_keeps (Keeps.rd hF I0 (s.rd G0 I0)) s o rebase rfl

theorem State.arrCounted_rd (s : State) (e id : Nat) (g : Bool) {G0 : Fld} {I0 : List Nat} (hF : hasFld ⟨[], [], [], false⟩ G0 = false) :
    (State.arrCounted s e id g).rd G0 I0 = s.rd G0 I0 :=
  State.arrCounted_keeps (Keeps.rd hF I0 (s.rd G0 I0)) s e id g rfl

theorem State.arrRefused_rd (s : State) (e id : Nat) {G0 : Fld} {I0 : List Nat} (hF : hasFld ⟨[.ENG_FAULT_CODE, .ENG_FAULT_DETAIL, .ENG_FAULT_PC, .ENG_FAULT_VALID, .ENG_STATUS_STATE], [], [], false⟩ G0 = false) :
    (State.arrRefused s e id).rd G0 I0 = s.rd G0 I0 :=
  State.arrRefused_keeps (Keeps.rd hF I0 (s.rd G0 I0)) s e id rfl

theorem State.fixApply_rd (s : State) (o : FixOp) {G0 : Fld} {I0 : List Nat} (hF : hasFld opFieldsFixApply G0 = false) :
    (State.fixApply s o).rd G0 I0 = s.rd G0 I0 :=
  State.fixApply_keeps (Keeps.rd hF I0 (s.rd G0 I0)) s o rfl

theorem State.seeOne_rd (s : State) (e : Nat) {G0 : Fld} {I0 : List Nat} (hF : hasFld opFieldsSeeOne G0 = false) :
    (State.seeOne s e).rd G0 I0 = s.rd G0 I0 :=
  State.seeOne_keeps (Keeps.rd hF I0 (s.rd G0 I0)) s e rfl

theorem State.fixHost_rd (s : State) (f kind : Nat) {G0 : Fld} {I0 : List Nat} (hF : hasFld ⟨[], [], [], false⟩ G0 = false) :
    (State.fixHost s f kind).rd G0 I0 = s.rd G0 I0 :=
  State.fixHost_keeps (Keeps.rd hF I0 (s.rd G0 I0)) s f kind rfl

theorem State.fixHostBoth_rd (s : State) (f : Nat) {G0 : Fld} {I0 : List Nat} (hF : hasFld ⟨[], [], [], false⟩ G0 = false) :
    (State.fixHostBoth s f).rd G0 I0 = s.rd G0 I0 :=
  State.fixHostBoth_keeps (Keeps.rd hF I0 (s.rd G0 I0)) s f rfl

theorem State.rebaseEngine_rd (s : State) (before : Nat) (e : Nat) {G0 : Fld} {I0 : List Nat} (hF : hasFld opFieldsRebaseEngine G0 = false) :
    (State.rebaseEngine s before e).rd G0 I0 = s.rd G0 I0 :=
  State.rebaseEngine_keeps (Keeps.rd hF I0 (s.rd G0 I0)) s before e rfl

theorem State.injectDone_rd (s : State) (e : Nat) {G0 : Fld} {I0 : List Nat} (hF : hasFld ⟨[], [], [], false⟩ G0 = false) :
    (State.injectDone s e).rd G0 I0 = s.rd G0 I0 :=
  State.injectDone_keeps (Keeps.rd hF I0 (s.rd G0 I0)) s e rfl

theorem State.txSlot_rd (s : State) (e : Nat) {G0 : Fld} {I0 : List Nat} (hF : hasFld ⟨[.FC_GAP_CNT_COUNT], [], [], false⟩ G0 = false) :
    (State.txSlot s e).rd G0 I0 = s.rd G0 I0 :=
  State.txSlot_keeps (Keeps.rd hF I0 (s.rd G0 I0)) s e rfl

theorem State.toWord_rd (s : State) (e : Nat) {G0 : Fld} {I0 : List Nat} (hF : hasFld ⟨[], [], [], false⟩ G0 = false) :
    (State.toWord s e).rd G0 I0 = s.rd G0 I0 :=
  State.toWord_keeps (Keeps.rd hF I0 (s.rd G0 I0)) s e rfl

theorem State.attach_rd (s : State) (e ix : Nat) (x : Resolution) {G0 : Fld} {I0 : List Nat} (hF : hasFld ⟨[], [], [], false⟩ G0 = false) :
    (State.attach s e ix x).rd G0 I0 = s.rd G0 I0 :=
  State.attach_keeps (Keeps.rd hF I0 (s.rd G0 I0)) s e ix x rfl

theorem State.tally_rd (s : State) (e : Nat) (row : Bool) (ix n : Nat) {G0 : Fld} {I0 : List Nat} (hF : hasFld ⟨[.FC_STATUS_BM_SAT], [], [], false⟩ G0 = false) :
    (State.tally s e row ix n).rd G0 I0 = s.rd G0 I0 :=
  State.tally_keeps (Keeps.rd hF I0 (s.rd G0 I0)) s e row ix n rfl

theorem State.tallyOp_rd (s : State) (e : Nat) (row : Bool) (ix n : Nat) {G0 : Fld} {I0 : List Nat} (hF : hasFld ⟨[.FC_STATUS_BM_SAT], [], [], false⟩ G0 = false) :
    (State.tallyOp s e row ix n).rd G0 I0 = s.rd G0 I0 :=
  State.tallyOp_keeps (Keeps.rd hF I0 (s.rd G0 I0)) s e row ix n rfl

theorem State.bitmapUpdate_rd (s : State) (e aw nbits : Nat) {G0 : Fld} {I0 : List Nat} (hF : hasFld ⟨[.FC_STATUS_BM_SAT], [], [], false⟩ G0 = false) :
    (State.bitmapUpdate s e aw nbits).rd G0 I0 = s.rd G0 I0 :=
  State.bitmapUpdate_keeps (Keeps.rd hF I0 (s.rd G0 I0)) s e aw nbits rfl

theorem State.failRecord_rd (s : State) (e : Nat) (x : Expn) (q : Resolution) (first : Bool) {G0 : Fld} {I0 : List Nat} (hF : hasFld ⟨[.FC_DROP_CNT_COUNT, .FC_STATUS_OVF], [], [], false⟩ G0 = false) :
    (State.failRecord s e x q first).rd G0 I0 = s.rd G0 I0 :=
  State.failRecord_keeps (Keeps.rd hF I0 (s.rd G0 I0)) s e x q first rfl

theorem State.laneCounts_rd (s : State) (e : Nat) (x : Expn) (f : Nat) {G0 : Fld} {I0 : List Nat} (hF : hasFld ⟨[.CL_ERR_CNT_COUNT], [], [], false⟩ G0 = false) :
    (State.laneCounts s e x f).rd G0 I0 = s.rd G0 I0 :=
  State.laneCounts_keeps (Keeps.rd hF I0 (s.rd G0 I0)) s e x f rfl

theorem State.popHead_rd (s : State) (e : Nat) {G0 : Fld} {I0 : List Nat} (hF : hasFld ⟨[], [], [], false⟩ G0 = false) :
    (State.popHead s e).rd G0 I0 = s.rd G0 I0 :=
  State.popHead_keeps (Keeps.rd hF I0 (s.rd G0 I0)) s e rfl

theorem State.countFail_rd (s : State) (e : Nat) (x : Expn) (f : Nat) {G0 : Fld} {I0 : List Nat} (hF : hasFld ⟨[.ENG_STATUS_FAIL, .FC_FAIL_CNT_COUNT, .FC_SLICE_FAIL_COUNT, .FC_STATUS_BM_SAT], [], [], false⟩ G0 = false) :
    (State.countFail s e x f).rd G0 I0 = s.rd G0 I0 :=
  State.countFail_keeps (Keeps.rd hF I0 (s.rd G0 I0)) s e x f rfl

theorem State.fcLanesStore_rd (s : State) (e v : Nat) {G0 : Fld} {I0 : List Nat} (hF : hasFld ⟨[.FC_LANES_COUNT, .FC_LANES_LANE0, .FC_LANES_LANE1, .FC_LANES_LANE2, .FC_LANES_LANE3], [], [], false⟩ G0 = false) :
    (State.fcLanesStore s e v).rd G0 I0 = s.rd G0 I0 :=
  State.fcLanesStore_keeps (Keeps.rd hF I0 (s.rd G0 I0)) s e v rfl

theorem State.lanesRealign_rd (s : State) (old new : List (Nat × Nat)) {G0 : Fld} {I0 : List Nat} (hF : hasFld ⟨[.CL_STAT_REALIGN, .CL_STAT_SLIP_POS], [], [], false⟩ G0 = false) :
    (State.lanesRealign s old new).rd G0 I0 = s.rd G0 I0 :=
  State.lanesRealign_keeps (Keeps.rd hF I0 (s.rd G0 I0)) s old new rfl

theorem State.bmApply_rd (s : State) (e : Nat) (o : BmOp) {G0 : Fld} {I0 : List Nat} (hF : hasFld ⟨[.FC_STATUS_BM_SAT], [], [], false⟩ G0 = false) :
    (State.bmApply s e o).rd G0 I0 = s.rd G0 I0 :=
  State.bmApply_keeps (Keeps.rd hF I0 (s.rd G0 I0)) s e o rfl

theorem State.fcClear_rd (s : State) (e : Nat) {G0 : Fld} {I0 : List Nat} (hF : hasFld ⟨[.FC_CMP_HI_COUNT, .FC_DROP_CNT_COUNT, .FC_FAIL_CNT_COUNT, .FC_GAP_CNT_COUNT, .FC_SLICE_FAIL_COUNT, .FC_UNCHK_CNT_COUNT], [], [], false⟩ G0 = false) :
    (State.fcClear s e).rd G0 I0 = s.rd G0 I0 :=
  State.fcClear_keeps (Keeps.rd hF I0 (s.rd G0 I0)) s e rfl

theorem State.setArb_rd (s : State) (k : Key) (a : Arb) {G0 : Fld} {I0 : List Nat} (hF : hasFld ⟨[], [], [], false⟩ G0 = false) :
    (State.setArb s k a).rd G0 I0 = s.rd G0 I0 :=
  State.setArb_keeps (Keeps.rd hF I0 (s.rd G0 I0)) s k a rfl

theorem State.newWindow_rd (s : State) (k : Key) {G0 : Fld} {I0 : List Nat} (hF : hasFld ⟨[], [], [], false⟩ G0 = false) :
    (State.newWindow s k).rd G0 I0 = s.rd G0 I0 :=
  State.newWindow_keeps (Keeps.rd hF I0 (s.rd G0 I0)) s k rfl

theorem State.setQ_rd (s : State) (site r port vc : Nat) (l : List Pkt) {G0 : Fld} {I0 : List Nat} (hF : hasFld ⟨[], [], [], false⟩ G0 = false) :
    (State.setQ s site r port vc l).rd G0 I0 = s.rd G0 I0 :=
  State.setQ_keeps (Keeps.rd hF I0 (s.rd G0 I0)) s site r port vc l rfl

theorem State.enq_rd (s : State) (site r port vc : Nat) (p : Pkt) {G0 : Fld} {I0 : List Nat} (hF : hasFld ⟨[], [], [], false⟩ G0 = false) :
    (State.enq s site r port vc p).rd G0 I0 = s.rd G0 I0 :=
  State.enq_keeps (Keeps.rd hF I0 (s.rd G0 I0)) s site r port vc p rfl

theorem State.deq_rd (s : State) (site r port vc : Nat) {G0 : Fld} {I0 : List Nat} (hF : hasFld ⟨[], [], [], false⟩ G0 = false) :
    (State.deq s site r port vc).rd G0 I0 = s.rd G0 I0 :=
  State.deq_keeps (Keeps.rd hF I0 (s.rd G0 I0)) s site r port vc rfl

theorem State.setHead_rd (s : State) (site r port vc : Nat) (p : Pkt) {G0 : Fld} {I0 : List Nat} (hF : hasFld ⟨[], [], [], false⟩ G0 = false) :
    (State.setHead s site r port vc p).rd G0 I0 = s.rd G0 I0 :=
  State.setHead_keeps (Keeps.rd hF I0 (s.rd G0 I0)) s site r port vc p rfl

theorem State.setNi_rd (s : State) (site i : Nat) (x : NiRt) {G0 : Fld} {I0 : List Nat} (hF : hasFld ⟨[], [], [], false⟩ G0 = false) :
    (State.setNi s site i x).rd G0 I0 = s.rd G0 I0 :=
  State.setNi_keeps (Keeps.rd hF I0 (s.rd G0 I0)) s site i x rfl

theorem State.setPool_rd (s : State) (n k p : Nat) (x : GkPool) {G0 : Fld} {I0 : List Nat} (hF : hasFld ⟨[], [], [], false⟩ G0 = false) :
    (State.setPool s n k p x).rd G0 I0 = s.rd G0 I0 :=
  State.setPool_keeps (Keeps.rd hF I0 (s.rd G0 I0)) s n k p x rfl

theorem State.forward_rd (s : State) (site r c port : Nat) (p : Pkt) {G0 : Fld} {I0 : List Nat} (hF : hasFld ⟨[], [], [], false⟩ G0 = false) :
    (State.forward s site r c port p).rd G0 I0 = s.rd G0 I0 :=
  State.forward_keeps (Keeps.rd hF I0 (s.rd G0 I0)) s site r c port p rfl

theorem State.setRtNext_rd (s : State) (site r c : Nat) (x : Option (Nat × Nat)) {G0 : Fld} {I0 : List Nat} (hF : hasFld ⟨[], [], [], false⟩ G0 = false) :
    (State.setRtNext s site r c x).rd G0 I0 = s.rd G0 I0 :=
  State.setRtNext_keeps (Keeps.rd hF I0 (s.rd G0 I0)) s site r c x rfl

theorem State.decide__rd (s : State) (site r c : Nat) {G0 : Fld} {I0 : List Nat} (hF : hasFld ⟨[], [], [], false⟩ G0 = false) :
    (State.decide_ s site r c).rd G0 I0 = s.rd G0 I0 :=
  State.decide__keeps (Keeps.rd hF I0 (s.rd G0 I0)) s site r c rfl

theorem State.poolDecide_rd (s : State) (n k pl : Nat) {G0 : Fld} {I0 : List Nat} (hF : hasFld ⟨[], [], [], false⟩ G0 = false) :
    (State.poolDecide s n k pl).rd G0 I0 = s.rd G0 I0 :=
  State.poolDecide_keeps (Keeps.rd hF I0 (s.rd G0 I0)) s n k pl rfl

theorem State.poolGrant_rd (s : State) (n k pl : Nat) {G0 : Fld} {I0 : List Nat} (hF : hasFld ⟨[], [], [], false⟩ G0 = false) :
    (State.poolGrant s n k pl).rd G0 I0 = s.rd G0 I0 :=
  State.poolGrant_keeps (Keeps.rd hF I0 (s.rd G0 I0)) s n k pl rfl

theorem State.outGo_rd (s : State) (site r c : Nat) {G0 : Fld} {I0 : List Nat} (hF : hasFld ⟨[], [], [], false⟩ G0 = false) :
    (State.outGo s site r c).rd G0 I0 = s.rd G0 I0 :=
  State.outGo_keeps (Keeps.rd hF I0 (s.rd G0 I0)) s site r c rfl

theorem State.voidAt_rd (s : State) (site r port vc c : Nat) {G0 : Fld} {I0 : List Nat} (hF : hasFld ⟨[], [], [], false⟩ G0 = false) :
    (State.voidAt s site r port vc c).rd G0 I0 = s.rd G0 I0 :=
  State.voidAt_keeps (Keeps.rd hF I0 (s.rd G0 I0)) s site r port vc c rfl

theorem State.bounceHead_rd (s : State) (site r port vc : Nat) {G0 : Fld} {I0 : List Nat} (hF : hasFld ⟨[.NOC_RTR_BOUNCE_COUNT], [], [], false⟩ G0 = false) :
    (State.bounceHead s site r port vc).rd G0 I0 = s.rd G0 I0 :=
  State.bounceHead_keeps (Keeps.rd hF I0 (s.rd G0 I0)) s site r port vc rfl

theorem State.rtrErr_rd (s : State) (site r port : Nat) (f : Fld) {G0 : Fld} {I0 : List Nat} (hF : hasFld ⟨[f, .NOC_RTR_ERR_PORT], [], [], false⟩ G0 = false) :
    (State.rtrErr s site r port f).rd G0 I0 = s.rd G0 I0 :=
  State.rtrErr_keeps (Keeps.rd hF I0 (s.rd G0 I0)) s site r port rfl

theorem State.flitErr_rd (s : State) (site r port : Nat) (e : FlitErr) {G0 : Fld} {I0 : List Nat} (hF : hasFld opFieldsFlitErr G0 = false) :
    (State.flitErr s site r port e).rd G0 I0 = s.rd G0 I0 :=
  State.flitErr_keeps (Keeps.rd hF I0 (s.rd G0 I0)) s site r port e rfl

theorem State.headChecks_rd (s : State) (site r port vc : Nat) (errs : List FlitErr) (p : Pkt) {G0 : Fld} {I0 : List Nat} (hF : hasFld opFieldsHeadChecks G0 = false) :
    (State.headChecks s site r port vc errs p).1.rd G0 I0 = s.rd G0 I0 :=
  State.headChecks_keeps (Keeps.rd hF I0 (s.rd G0 I0)) s site r port vc errs p rfl

theorem State.setBearing_rd (s : State) (site ni k : Nat) (b : List Nat) {G0 : Fld} {I0 : List Nat} (hF : hasFld ⟨[], [], [], false⟩ G0 = false) :
    (State.setBearing s site ni k b).rd G0 I0 = s.rd G0 I0 :=
  State.setBearing_keeps (Keeps.rd hF I0 (s.rd G0 I0)) s site ni k b rfl

theorem State.putBearing_rd (s : State) (site ni k : Nat) (b : List Nat) {G0 : Fld} {I0 : List Nat} (hF : hasFld ⟨[], [], [], false⟩ G0 = false) :
    (State.putBearing s site ni k b).rd G0 I0 = s.rd G0 I0 :=
  State.putBearing_keeps (Keeps.rd hF I0 (s.rd G0 I0)) s site ni k b rfl

theorem State.putBearings_rd (s : State) (bs : BearingSet) {G0 : Fld} {I0 : List Nat} (hF : hasFld ⟨[], [], [], false⟩ G0 = false) :
    (State.putBearings s bs).rd G0 I0 = s.rd G0 I0 :=
  State.putBearings_keeps (Keeps.rd hF I0 (s.rd G0 I0)) s bs rfl

theorem State.niErr_rd (s : State) (site ni code dest : Nat) {G0 : Fld} {I0 : List Nat} (hF : hasFld ⟨[.NOC_NI_ERR_CODE, .NOC_NI_ERR_DEST, .NOC_NI_ERR_VALID], [], [], false⟩ G0 = false) :
    (State.niErr s site ni code dest).rd G0 I0 = s.rd G0 I0 :=
  State.niErr_keeps (Keeps.rd hF I0 (s.rd G0 I0)) s site ni code dest rfl

theorem State.toOwn_rd (s : State) (site ni : Nat) (p : Pkt) {G0 : Fld} {I0 : List Nat} (hF : hasFld ⟨[], [], [], false⟩ G0 = false) :
    (State.toOwn s site ni p).rd G0 I0 = s.rd G0 I0 :=
  State.toOwn_keeps (Keeps.rd hF I0 (s.rd G0 I0)) s site ni p rfl

theorem State.niPush_rd (s : State) (site ni : Nat) (p : Pkt) {G0 : Fld} {I0 : List Nat} (hF : hasFld ⟨[], [], [], false⟩ G0 = false) :
    (State.niPush s site ni p).rd G0 I0 = s.rd G0 I0 :=
  State.niPush_keeps (Keeps.rd hF I0 (s.rd G0 I0)) s site ni p rfl

theorem State.niEnter_rd (s : State) (site ni : Nat) (p : Pkt) {G0 : Fld} {I0 : List Nat} (hF : hasFld ⟨[], [], [], false⟩ G0 = false) :
    (State.niEnter s site ni p).rd G0 I0 = s.rd G0 I0 :=
  State.niEnter_keeps (Keeps.rd hF I0 (s.rd G0 I0)) s site ni p rfl

theorem State.niCount_rd (s : State) (site ni : Nat) (p : Pkt) {G0 : Fld} {I0 : List Nat} (hF : hasFld ⟨[], [], [], false⟩ G0 = false) :
    (State.niCount s site ni p).rd G0 I0 = s.rd G0 I0 :=
  State.niCount_keeps (Keeps.rd hF I0 (s.rd G0 I0)) s site ni p rfl

theorem State.niRefuse_rd (s : State) (site ni : Nat) (p : Pkt) (status : Nat) {G0 : Fld} {I0 : List Nat} (hF : hasFld ⟨[], [], [], false⟩ G0 = false) :
    (State.niRefuse s site ni p status).rd G0 I0 = s.rd G0 I0 :=
  State.niRefuse_keeps (Keeps.rd hF I0 (s.rd G0 I0)) s site ni p status rfl

theorem State.niFail_rd (s : State) (site ni : Nat) (p : Pkt) {G0 : Fld} {I0 : List Nat} (hF : hasFld ⟨[.NOC_NI_ERR_CODE, .NOC_NI_ERR_DEST, .NOC_NI_ERR_VALID, .NOC_NI_FAIL_CNT_COUNT], [], [], false⟩ G0 = false) :
    (State.niFail s site ni p).rd G0 I0 = s.rd G0 I0 :=
  State.niFail_keeps (Keeps.rd hF I0 (s.rd G0 I0)) s site ni p rfl

theorem State.niBounce_rd (s : State) (site ni : Nat) (p : Pkt) {G0 : Fld} {I0 : List Nat} (hF : hasFld ⟨[.NOC_NI_ALT_CNT_COUNT, .NOC_NI_BOUNCE_CNT_COUNT, .NOC_NI_ERR_CODE, .NOC_NI_ERR_DEST, .NOC_NI_ERR_VALID, .NOC_NI_FAIL_CNT_COUNT], [], [], false⟩ G0 = false) :
    (State.niBounce s site ni p).rd G0 I0 = s.rd G0 I0 :=
  State.niBounce_keeps (Keeps.rd hF I0 (s.rd G0 I0)) s site ni p rfl

theorem State.pumpResend_rd (s : State) (site ni : Nat) {G0 : Fld} {I0 : List Nat} (hF : hasFld ⟨[.NOC_NI_BOUNCE_CNT_COUNT, .NOC_NI_ERR_CODE, .NOC_NI_ERR_DEST, .NOC_NI_ERR_VALID, .NOC_NI_FAIL_CNT_COUNT], [], [], false⟩ G0 = false) :
    (State.pumpResend s site ni).rd G0 I0 = s.rd G0 I0 :=
  State.pumpResend_keeps (Keeps.rd hF I0 (s.rd G0 I0)) s site ni rfl

theorem State.pumpHold_rd (s : State) (site ni : Nat) {G0 : Fld} {I0 : List Nat} (hF : hasFld ⟨[.NOC_NI_ALT_CNT_COUNT, .NOC_NI_BOUNCE_CNT_COUNT, .NOC_NI_ERR_CODE, .NOC_NI_ERR_DEST, .NOC_NI_ERR_VALID, .NOC_NI_FAIL_CNT_COUNT], [], [], false⟩ G0 = false) :
    (State.pumpHold s site ni).rd G0 I0 = s.rd G0 I0 :=
  State.pumpHold_keeps (Keeps.rd hF I0 (s.rd G0 I0)) s site ni rfl

theorem State.niPump_rd (s : State) (site ni : Nat) {G0 : Fld} {I0 : List Nat} (hF : hasFld ⟨[.NOC_NI_ALT_CNT_COUNT, .NOC_NI_BOUNCE_CNT_COUNT, .NOC_NI_ERR_CODE, .NOC_NI_ERR_DEST, .NOC_NI_ERR_VALID, .NOC_NI_FAIL_CNT_COUNT], [], [], false⟩ G0 = false) :
    (State.niPump s site ni).rd G0 I0 = s.rd G0 I0 :=
  State.niPump_keeps (Keeps.rd hF I0 (s.rd G0 I0)) s site ni rfl

theorem State.niSend_rd (s : State) (site ni : Nat) (p : Pkt) {G0 : Fld} {I0 : List Nat} (hF : hasFld ⟨[.NOC_NI_ALT_CNT_COUNT, .NOC_NI_BOUNCE_CNT_COUNT, .NOC_NI_ERR_CODE, .NOC_NI_ERR_DEST, .NOC_NI_ERR_VALID, .NOC_NI_FAIL_CNT_COUNT], [], [], false⟩ G0 = false) :
    (State.niSend s site ni p).rd G0 I0 = s.rd G0 I0 :=
  State.niSend_keeps (Keeps.rd hF I0 (s.rd G0 I0)) s site ni p rfl

theorem State.niLost_rd (s : State) (site ni : Nat) {G0 : Fld} {I0 : List Nat} (hF : hasFld ⟨[], [], [], false⟩ G0 = false) :
    (State.niLost s site ni).rd G0 I0 = s.rd G0 I0 :=
  State.niLost_keeps (Keeps.rd hF I0 (s.rd G0 I0)) s site ni rfl

theorem State.niAccept_rd (s : State) (site ni : Nat) (p : Pkt) {G0 : Fld} {I0 : List Nat} (hF : hasFld ⟨[], [], [], false⟩ G0 = false) :
    (State.niAccept s site ni p).rd G0 I0 = s.rd G0 I0 :=
  State.niAccept_keeps (Keeps.rd hF I0 (s.rd G0 I0)) s site ni p rfl

theorem State.serve_rd (s : State) (site ni : Nat) (p : Pkt) {G0 : Fld} {I0 : List Nat} (hF : hasFld opFieldsServe G0 = false) :
    (State.serve s site ni p).rd G0 I0 = s.rd G0 I0 :=
  State.serve_keeps (Keeps.rd hF I0 (s.rd G0 I0)) s site ni p rfl

theorem State.toBlock_rd (s : State) (site ni : Nat) (p : Pkt) {G0 : Fld} {I0 : List Nat} (hF : hasFld opFieldsToBlock G0 = false) :
    (State.toBlock s site ni p).rd G0 I0 = s.rd G0 I0 :=
  State.toBlock_keeps (Keeps.rd hF I0 (s.rd G0 I0)) s site ni p rfl

theorem State.setStk_rd (s : State) (st : Nat) (x : StackRt) {G0 : Fld} {I0 : List Nat} (hF : hasFld ⟨[], [], [], false⟩ G0 = false) :
    (State.setStk s st x).rd G0 I0 = s.rd G0 I0 :=
  State.setStk_keeps (Keeps.rd hF I0 (s.rd G0 I0)) s st x rfl

theorem State.setPc_rd (s : State) (st c : Nat) (x : PcRt) {G0 : Fld} {I0 : List Nat} (hF : hasFld ⟨[], [], [], false⟩ G0 = false) :
    (State.setPc s st c x).rd G0 I0 = s.rd G0 I0 :=
  State.setPc_keeps (Keeps.rd hF I0 (s.rd G0 I0)) s st c x rfl

theorem State.pull_rd (s : State) (g op : Nat) (who : List Nat) {G0 : Fld} {I0 : List Nat} (hF : hasFld ⟨[.PG_ERR_OP, .PG_ERR_OVERSIZE, .PG_ERR_UNITS, .PG_ERR_VALID, .PG_GRANT_CNT_COUNT, .PG_TO_CNT_COUNT], [], [], false⟩ G0 = false) :
    (State.pull s g op who).rd G0 I0 = s.rd G0 I0 :=
  State.pull_keeps (Keeps.rd hF I0 (s.rd G0 I0)) s g op who rfl

theorem State.askTraining_rd (s : State) (st : Nat) {G0 : Fld} {I0 : List Nat} (hF : hasFld ⟨[.PG_ERR_OP, .PG_ERR_OVERSIZE, .PG_ERR_UNITS, .PG_ERR_VALID, .PG_TO_CNT_COUNT], [], [], false⟩ G0 = false) :
    (State.askTraining s st).rd G0 I0 = s.rd G0 I0 :=
  State.askTraining_keeps (Keeps.rd hF I0 (s.rd G0 I0)) s st rfl

theorem State.trainReturn_rd (s : State) (st : Nat) {G0 : Fld} {I0 : List Nat} (hF : hasFld ⟨[], [], [], false⟩ G0 = false) :
    (State.trainReturn s st).rd G0 I0 = s.rd G0 I0 :=
  State.trainReturn_keeps (Keeps.rd hF I0 (s.rd G0 I0)) s st rfl

theorem State.refreshReturn_rd (s : State) (st : Nat) {G0 : Fld} {I0 : List Nat} (hF : hasFld ⟨[], [], [], false⟩ G0 = false) :
    (State.refreshReturn s st).rd G0 I0 = s.rd G0 I0 :=
  State.refreshReturn_keeps (Keeps.rd hF I0 (s.rd G0 I0)) s st rfl

theorem State.retrain_rd (s : State) (st : Nat) {G0 : Fld} {I0 : List Nat} (hF : hasFld ⟨[.HBM_CH_STAT_STATE, .HBM_STAT_STATE], [], [], false⟩ G0 = false) :
    (State.retrain s st).rd G0 I0 = s.rd G0 I0 :=
  State.retrain_keeps (Keeps.rd hF I0 (s.rd G0 I0)) s st rfl

theorem State.srCause_rd (s : State) (st c : Nat) {G0 : Fld} {I0 : List Nat} (hF : hasFld ⟨[.HBM_STAT_STATE], [], [], false⟩ G0 = false) :
    (State.srCause s st c).rd G0 I0 = s.rd G0 I0 :=
  State.srCause_keeps (Keeps.rd hF I0 (s.rd G0 I0)) s st c rfl

theorem State.srEnd_rd (s : State) (st c : Nat) {G0 : Fld} {I0 : List Nat} (hF : hasFld ⟨[], [], [], false⟩ G0 = false) :
    (State.srEnd s st c).rd G0 I0 = s.rd G0 I0 :=
  State.srEnd_keeps (Keeps.rd hF I0 (s.rd G0 I0)) s st c rfl

theorem State.stackLost_rd (s : State) (st : Nat) {G0 : Fld} {I0 : List Nat} (hF : hasFld ⟨[.HBM_STAT_CONTENT, .HBM_STAT_STATE], [], [], false⟩ G0 = false) :
    (State.stackLost s st).rd G0 I0 = s.rd G0 I0 :=
  State.stackLost_keeps (Keeps.rd hF I0 (s.rd G0 I0)) s st rfl

theorem State.respond_rd (s : State) (st p : Nat) (q : HbmReq) (status : Nat) (data : List Nat) {G0 : Fld} {I0 : List Nat} (hF : hasFld ⟨[.NOC_NI_ALT_CNT_COUNT, .NOC_NI_BOUNCE_CNT_COUNT, .NOC_NI_ERR_CODE, .NOC_NI_ERR_DEST, .NOC_NI_ERR_VALID, .NOC_NI_FAIL_CNT_COUNT], [], [], false⟩ G0 = false) :
    (State.respond s st p q status data).rd G0 I0 = s.rd G0 I0 :=
  State.respond_keeps (Keeps.rd hF I0 (s.rd G0 I0)) s st p q status data rfl

theorem State.enqueue_rd (s : State) (st : Nat) (q : HbmReq) {G0 : Fld} {I0 : List Nat} (hF : hasFld ⟨[], [], [], false⟩ G0 = false) :
    (State.enqueue s st q).rd G0 I0 = s.rd G0 I0 :=
  State.enqueue_keeps (Keeps.rd hF I0 (s.rd G0 I0)) s st q rfl

theorem State.takeEffect_rd (s : State) (st p : Nat) (q : HbmReq) {G0 : Fld} {I0 : List Nat} (hF : hasFld opFieldsTakeEffect G0 = false) :
    (State.takeEffect s st p q).rd G0 I0 = s.rd G0 I0 :=
  State.takeEffect_keeps (Keeps.rd hF I0 (s.rd G0 I0)) s st p q rfl

theorem State.hbmEnter_rd (s : State) (st p : Nat) (q : HbmReq) {G0 : Fld} {I0 : List Nat} (hF : hasFld opFieldsHbmEnter G0 = false) :
    (State.hbmEnter s st p q).rd G0 I0 = s.rd G0 I0 :=
  State.hbmEnter_keeps (Keeps.rd hF I0 (s.rd G0 I0)) s st p q rfl

theorem State.frontChoose_rd (s : State) (st : Nat) (scrub : Bool) {G0 : Fld} {I0 : List Nat} (hF : hasFld ⟨[], [], [], false⟩ G0 = false) :
    (State.frontChoose s st scrub).rd G0 I0 = s.rd G0 I0 :=
  State.frontChoose_keeps (Keeps.rd hF I0 (s.rd G0 I0)) s st scrub rfl

theorem State.frontStep_rd (s : State) (st : Nat) (scrub more : Bool) {G0 : Fld} {I0 : List Nat} (hF : hasFld opFieldsFrontStep G0 = false) :
    (State.frontStep s st scrub more).1.rd G0 I0 = s.rd G0 I0 :=
  State.frontStep_keeps (Keeps.rd hF I0 (s.rd G0 I0)) s st scrub more rfl

theorem State.scrubRead_rd (s : State) (st : Nat) (more : Bool) (n0 : Nat) {G0 : Fld} {I0 : List Nat} (hF : hasFld opFieldsScrubRead G0 = false) :
    (State.scrubRead s st more n0).rd G0 I0 = s.rd G0 I0 :=
  State.scrubRead_keeps (Keeps.rd hF I0 (s.rd G0 I0)) s st more n0 rfl

theorem State.scrubReads_rd (s : State) (st : Nat) {G0 : Fld} {I0 : List Nat} (hF : hasFld opFieldsScrubReads G0 = false) :
    (State.scrubReads s st).rd G0 I0 = s.rd G0 I0 :=
  State.scrubReads_keeps (Keeps.rd hF I0 (s.rd G0 I0)) s st rfl

theorem State.activate_rd (s : State) (st c : Nat) (q : HbmReq) (demand : Bool) {G0 : Fld} {I0 : List Nat} (hF : hasFld ⟨[.HBM_CH_ACT_CNT_COUNT, .HBM_CH_NBR_CNT_COUNT], [], [], false⟩ G0 = false) :
    (State.activate s st c q demand).rd G0 I0 = s.rd G0 I0 :=
  State.activate_keeps (Keeps.rd hF I0 (s.rd G0 I0)) s st c q demand rfl

theorem State.suspectRow_rd (s : State) (st a : Nat) (now_ : Bool) {G0 : Fld} {I0 : List Nat} (hF : hasFld ⟨[], [], [], false⟩ G0 = false) :
    (State.suspectRow s st a now_).rd G0 I0 = s.rd G0 I0 :=
  State.suspectRow_keeps (Keeps.rd hF I0 (s.rd G0 I0)) s st a now_ rfl

theorem State.writeParity_rd (s : State) (st ch : Nat) (q : HbmReq) (par : Nat) {G0 : Fld} {I0 : List Nat} (hF : hasFld opFieldsWriteParity G0 = false) :
    (State.writeParity s st ch q par).rd G0 I0 = s.rd G0 I0 :=
  State.writeParity_keeps (Keeps.rd hF I0 (s.rd G0 I0)) s st ch q par rfl

theorem State.fetchAltered_rd (s : State) (st : Nat) (q : HbmReq) (l flips : Nat) {G0 : Fld} {I0 : List Nat} (hF : hasFld opFieldsFetchAltered G0 = false) :
    (State.fetchAltered s st q l flips).rd G0 I0 = s.rd G0 I0 :=
  State.fetchAltered_keeps (Keeps.rd hF I0 (s.rd G0 I0)) s st q l flips rfl

theorem State.sealForget_rd (s : State) (st : Nat) {G0 : Fld} {I0 : List Nat} (hF : hasFld opFieldsSealForget G0 = false) :
    (State.sealForget s st).rd G0 I0 = s.rd G0 I0 :=
  State.sealForget_keeps (Keeps.rd hF I0 (s.rd G0 I0)) s st rfl

theorem State.stackFails_rd (s : State) (st c : Nat) {G0 : Fld} {I0 : List Nat} (hF : hasFld ⟨[.HBM_CH_STAT_STATE, .HBM_CTL_EN, .HBM_STAT_STATE, .MGMT_HEALTH_STAGE], [], [], false⟩ G0 = false) :
    (State.stackFails s st c).rd G0 I0 = s.rd G0 I0 :=
  State.stackFails_keeps (Keeps.rd hF I0 (s.rd G0 I0)) s st c rfl

theorem State.srExitTimeout_rd (s : State) (st : Nat) {G0 : Fld} {I0 : List Nat} (hF : hasFld ⟨[], [], [], false⟩ G0 = false) :
    (State.srExitTimeout s st).rd G0 I0 = s.rd G0 I0 :=
  State.srExitTimeout_keeps (Keeps.rd hF I0 (s.rd G0 I0)) s st rfl

theorem State.srEntered_rd (s : State) (st : Nat) {G0 : Fld} {I0 : List Nat} (hF : hasFld opFieldsSrEntered G0 = false) :
    (State.srEntered s st).rd G0 I0 = s.rd G0 I0 :=
  State.srEntered_keeps (Keeps.rd hF I0 (s.rd G0 I0)) s st rfl

theorem State.srExit_rd (s : State) (st : Nat) {G0 : Fld} {I0 : List Nat} (hF : hasFld ⟨[.HBM_CH_STAT_STATE, .HBM_STAT_STATE], [], [], false⟩ G0 = false) :
    (State.srExit s st).rd G0 I0 = s.rd G0 I0 :=
  State.srExit_keeps (Keeps.rd hF I0 (s.rd G0 I0)) s st rfl

theorem State.setMiss_rd (s : State) (n line : Nat) (x : RcMiss) {G0 : Fld} {I0 : List Nat} (hF : hasFld ⟨[], [], [], false⟩ G0 = false) :
    (State.setMiss s n line x).rd G0 I0 = s.rd G0 I0 :=
  State.setMiss_keeps (Keeps.rd hF I0 (s.rd G0 I0)) s n line x rfl

theorem State.setHaQ_rd (s : State) (st : Nat) (l : List HaReq) {G0 : Fld} {I0 : List Nat} (hF : hasFld ⟨[], [], [], false⟩ G0 = false) :
    (State.setHaQ s st l).rd G0 I0 = s.rd G0 I0 :=
  State.setHaQ_keeps (Keeps.rd hF I0 (s.rd G0 I0)) s st l rfl

theorem State.setTx_rd (s : State) (st line : Nat) (x : HaTx) {G0 : Fld} {I0 : List Nat} (hF : hasFld ⟨[], [], [], false⟩ G0 = false) :
    (State.setTx s st line x).rd G0 I0 = s.rd G0 I0 :=
  State.setTx_keeps (Keeps.rd hF I0 (s.rd G0 I0)) s st line x rfl

theorem State.answerWith_rd (s : State) (data : Nat) (bad : Bool) {G0 : Fld} {I0 : List Nat} (hF : hasFld ⟨[], [], [], false⟩ G0 = false) :
    (State.answerWith s data bad).rd G0 I0 = s.rd G0 I0 :=
  State.answerWith_keeps (Keeps.rd hF I0 (s.rd G0 I0)) s data bad rfl

theorem State.rcArrayError_rd (s : State) (n line : Nat) (tag : Bool) {G0 : Fld} {I0 : List Nat} (hF : hasFld ⟨[.HA_POISON_CNT_COUNT, .HA_STAT_SF_LEVEL, .RC_POISON_CNT_COUNT], [], [], false⟩ G0 = false) :
    (State.rcArrayError s n line tag).rd G0 I0 = s.rd G0 I0 :=
  State.rcArrayError_keeps (Keeps.rd hF I0 (s.rd G0 I0)) s n line tag rfl

theorem State.txEnd_rd (s : State) (st line : Nat) {G0 : Fld} {I0 : List Nat} (hF : hasFld ⟨[.HA_BACKINV_CNT_COUNT, .HA_STAT_SF_LEVEL, .RC_SNP_CNT_COUNT, .RC_WB_CNT_COUNT], [], [], false⟩ G0 = false) :
    (State.txEnd s st line).rd G0 I0 = s.rd G0 I0 :=
  State.txEnd_keeps (Keeps.rd hF I0 (s.rd G0 I0)) s st line rfl

theorem State.txTry_rd (s : State) (st line : Nat) {G0 : Fld} {I0 : List Nat} (hF : hasFld ⟨[.HA_BACKINV_CNT_COUNT, .HA_STAT_SF_LEVEL, .RC_SNP_CNT_COUNT, .RC_WB_CNT_COUNT], [], [], false⟩ G0 = false) :
    (State.txTry s st line).rd G0 I0 = s.rd G0 I0 :=
  State.txTry_keeps (Keeps.rd hF I0 (s.rd G0 I0)) s st line rfl

theorem State.haTake_rd (s : State) (st opc n line : Nat) {G0 : Fld} {I0 : List Nat} (hF : hasFld ⟨[.HA_BACKINV_CNT_COUNT, .HA_STAT_SF_LEVEL, .RC_SNP_CNT_COUNT, .RC_WB_CNT_COUNT], [], [], false⟩ G0 = false) :
    (State.haTake s st opc n line).rd G0 I0 = s.rd G0 I0 :=
  State.haTake_keeps (Keeps.rd hF I0 (s.rd G0 I0)) s st opc n line rfl

theorem State.haSnoop_rd (s : State) (n line : Nat) (inval : Bool) {G0 : Fld} {I0 : List Nat} (hF : hasFld ⟨[.HA_BACKINV_CNT_COUNT, .HA_STAT_SF_LEVEL, .RC_SNP_CNT_COUNT, .RC_WB_CNT_COUNT], [], [], false⟩ G0 = false) :
    (State.haSnoop s n line inval).rd G0 I0 = s.rd G0 I0 :=
  State.haSnoop_keeps (Keeps.rd hF I0 (s.rd G0 I0)) s n line inval rfl

theorem State.takeE_rd (s : State) (n line : Nat) (data : Nat) (bad : Bool) {G0 : Fld} {I0 : List Nat} (hF : hasFld ⟨[.HA_STAT_SF_LEVEL, .RC_WB_CNT_COUNT], [], [], false⟩ G0 = false) :
    (State.takeE s n line data bad).rd G0 I0 = s.rd G0 I0 :=
  State.takeE_keeps (Keeps.rd hF I0 (s.rd G0 I0)) s n line data bad rfl

theorem State.rcClean_rd (s : State) (n line : Nat) (inval : Bool) {G0 : Fld} {I0 : List Nat} (hF : hasFld ⟨[.HA_STAT_SF_LEVEL, .RC_WB_CNT_COUNT], [], [], false⟩ G0 = false) :
    (State.rcClean s n line inval).rd G0 I0 = s.rd G0 I0 :=
  State.rcClean_keeps (Keeps.rd hF I0 (s.rd G0 I0)) s n line inval rfl

theorem State.rcFlushAll_rd (s : State) (n : Nat) {G0 : Fld} {I0 : List Nat} (hF : hasFld ⟨[.HA_STAT_SF_LEVEL, .RC_WB_CNT_COUNT], [], [], false⟩ G0 = false) :
    (State.rcFlushAll s n).rd G0 I0 = s.rd G0 I0 :=
  State.rcFlushAll_keeps (Keeps.rd hF I0 (s.rd G0 I0)) s n rfl

theorem State.homeGone_rd (s : State) (st : Nat) {G0 : Fld} {I0 : List Nat} (hF : hasFld ⟨[.RC_STAT_RETAINED], [], [], false⟩ G0 = false) :
    (State.homeGone s st).rd G0 I0 = s.rd G0 I0 :=
  State.homeGone_keeps (Keeps.rd hF I0 (s.rd G0 I0)) s st rfl

theorem State.haForget_rd (s : State) (n : Nat) {G0 : Fld} {I0 : List Nat} (hF : hasFld ⟨[.HA_BACKINV_CNT_COUNT, .HA_STAT_SF_LEVEL, .RC_SNP_CNT_COUNT, .RC_WB_CNT_COUNT], [], [], false⟩ G0 = false) :
    (State.haForget s n).rd G0 I0 = s.rd G0 I0 :=
  State.haForget_keeps (Keeps.rd hF I0 (s.rd G0 I0)) s n rfl

theorem State.rcLost_rd (s : State) (n : Nat) {G0 : Fld} {I0 : List Nat} (hF : hasFld ⟨[.HA_BACKINV_CNT_COUNT, .HA_POISON_CNT_COUNT, .HA_STAT_SF_LEVEL, .RC_SNP_CNT_COUNT, .RC_WB_CNT_COUNT], [], [], false⟩ G0 = false) :
    (State.rcLost s n).rd G0 I0 = s.rd G0 I0 :=
  State.rcLost_keeps (Keeps.rd hF I0 (s.rd G0 I0)) s n rfl

theorem State.eraseSlot_rd (s : State) (st r i : Nat) {G0 : Fld} {I0 : List Nat} (hF : hasFld ⟨[.SEAL_RSTAT_KEYS], [], [], false⟩ G0 = false) :
    (State.eraseSlot s st r i).rd G0 I0 = s.rd G0 I0 :=
  State.eraseSlot_keeps (Keeps.rd hF I0 (s.rd G0 I0)) s st r i rfl

theorem State.rangeUncached_rd (s : State) (st r : Nat) {G0 : Fld} {I0 : List Nat} (hF : hasFld ⟨[.HA_STAT_SF_LEVEL, .RC_WB_CNT_COUNT], [], [], false⟩ G0 = false) :
    (State.rangeUncached s st r).rd G0 I0 = s.rd G0 I0 :=
  State.rangeUncached_keeps (Keeps.rd hF I0 (s.rd G0 I0)) s st r rfl

theorem State.dropRekey_rd (s : State) (st r : Nat) {G0 : Fld} {I0 : List Nat} (hF : hasFld opFieldsDropRekey G0 = false) :
    (State.dropRekey s st r).rd G0 I0 = s.rd G0 I0 :=
  State.dropRekey_keeps (Keeps.rd hF I0 (s.rd G0 I0)) s st r rfl

theorem State.keyCmd_rd (s : State) (w : Writer) (st slot op session : Nat) (ok : Bool) {G0 : Fld} {I0 : List Nat} (hF : hasFld ⟨[.SEAL_KEY_BUSY, .SEAL_KEY_FAIL, .SEAL_KEY_SESSION, .SEAL_KEY_SLOT], [], [], false⟩ G0 = false) :
    (State.keyCmd s w st slot op session ok).rd G0 I0 = s.rd G0 I0 :=
  State.keyCmd_keeps (Keeps.rd hF I0 (s.rd G0 I0)) s w st slot op session ok rfl

theorem State.giveKey_rd (s : State) (st slot k : Nat) {G0 : Fld} {I0 : List Nat} (hF : hasFld ⟨[.SEAL_RSTAT_KEYS], [], [], false⟩ G0 = false) :
    (State.giveKey s st slot k).rd G0 I0 = s.rd G0 I0 :=
  State.giveKey_keeps (Keeps.rd hF I0 (s.rd G0 I0)) s st slot k rfl

theorem State.zeroLine_rd (s : State) (st r i : Nat) {G0 : Fld} {I0 : List Nat} (hF : hasFld ⟨[], [], [], false⟩ G0 = false) :
    (State.zeroLine s st r i).rd G0 I0 = s.rd G0 I0 :=
  State.zeroLine_keeps (Keeps.rd hF I0 (s.rd G0 I0)) s st r i rfl

theorem State.treeClear_rd (s : State) (st r : Nat) {G0 : Fld} {I0 : List Nat} (hF : hasFld ⟨[], [], [], false⟩ G0 = false) :
    (State.treeClear s st r).rd G0 I0 = s.rd G0 I0 :=
  State.treeClear_keeps (Keeps.rd hF I0 (s.rd G0 I0)) s st r rfl

theorem State.pathDirty_rd (s : State) (st r leaf : Nat) {G0 : Fld} {I0 : List Nat} (hF : hasFld ⟨[], [], [], false⟩ G0 = false) :
    (State.pathDirty s st r leaf).rd G0 I0 = s.rd G0 I0 :=
  State.pathDirty_keeps (Keeps.rd hF I0 (s.rd G0 I0)) s st r leaf rfl

theorem State.metaZero_rd (s : State) (st r : Nat) {G0 : Fld} {I0 : List Nat} (hF : hasFld ⟨[], [], [], false⟩ G0 = false) :
    (State.metaZero s st r).rd G0 I0 = s.rd G0 I0 :=
  State.metaZero_keeps (Keeps.rd hF I0 (s.rd G0 I0)) s st r rfl

theorem State.sweepEnd_rd (s : State) (st : Nat) (w : Sweep) {G0 : Fld} {I0 : List Nat} (hF : hasFld opFieldsSweepEnd G0 = false) :
    (State.sweepEnd s st w).rd G0 I0 = s.rd G0 I0 :=
  State.sweepEnd_keeps (Keeps.rd hF I0 (s.rd G0 I0)) s st w rfl

theorem State.repairChunk_rd (s : State) (st : Nat) (w : Sweep) {G0 : Fld} {I0 : List Nat} (hF : hasFld opFieldsRepairChunk G0 = false) :
    (State.repairChunk s st w).rd G0 I0 = s.rd G0 I0 :=
  State.repairChunk_keeps (Keeps.rd hF I0 (s.rd G0 I0)) s st w rfl

theorem State.mainChunk_rd (s : State) (st : Nat) (w : Sweep) (bad : List (Fin 64 × BitVec 576)) {G0 : Fld} {I0 : List Nat} (hF : hasFld opFieldsMainChunk G0 = false) :
    (State.mainChunk s st w bad).rd G0 I0 = s.rd G0 I0 :=
  State.mainChunk_keeps (Keeps.rd hF I0 (s.rd G0 I0)) s st w bad rfl

theorem State.setLink_rd (s : State) (l : Nat) (x : GkLink) {G0 : Fld} {I0 : List Nat} (hF : hasFld ⟨[], [], [], false⟩ G0 = false) :
    (State.setLink s l x).rd G0 I0 = s.rd G0 I0 :=
  State.setLink_keeps (Keeps.rd hF I0 (s.rd G0 I0)) s l x rfl

theorem State.setDir_rd (s : State) (n k : Nat) (x : GkDir) {G0 : Fld} {I0 : List Nat} (hF : hasFld ⟨[], [], [], false⟩ G0 = false) :
    (State.setDir s n k x).rd G0 I0 = s.rd G0 I0 :=
  State.setDir_keeps (Keeps.rd hF I0 (s.rd G0 I0)) s n k x rfl

theorem State.askLink_rd (s : State) (l : Nat) {G0 : Fld} {I0 : List Nat} (hF : hasFld ⟨[.PG_ERR_OP, .PG_ERR_OVERSIZE, .PG_ERR_UNITS, .PG_ERR_VALID, .PG_TO_CNT_COUNT], [], [], false⟩ G0 = false) :
    (State.askLink s l).rd G0 I0 = s.rd G0 I0 :=
  State.askLink_keeps (Keeps.rd hF I0 (s.rd G0 I0)) s l rfl

theorem State.linkReturn_rd (s : State) (l : Nat) {G0 : Fld} {I0 : List Nat} (hF : hasFld ⟨[], [], [], false⟩ G0 = false) :
    (State.linkReturn s l).rd G0 I0 = s.rd G0 I0 :=
  State.linkReturn_keeps (Keeps.rd hF I0 (s.rd G0 I0)) s l rfl

theorem State.pullHead_rd (s : State) (g op : Nat) (who : List Nat) {G0 : Fld} {I0 : List Nat} (hF : hasFld ⟨[.PG_ERR_OP, .PG_ERR_OVERSIZE, .PG_ERR_UNITS, .PG_ERR_VALID, .PG_GRANT_CNT_COUNT, .PG_TO_CNT_COUNT], [], [], false⟩ G0 = false) :
    (State.pullHead s g op who).rd G0 I0 = s.rd G0 I0 :=
  State.pullHead_keeps (Keeps.rd hF I0 (s.rd G0 I0)) s g op who rfl

theorem State.gkCount_rd (s : State) (n k : Nat) {G0 : Fld} {I0 : List Nat} (hF : hasFld ⟨[.GK_STAT_COH, .GK_STAT_CROSS, .GK_STAT_NOC], [], [], false⟩ G0 = false) :
    (State.gkCount s n k).rd G0 I0 = s.rd G0 I0 :=
  State.gkCount_keeps (Keeps.rd hF I0 (s.rd G0 I0)) s n k rfl

theorem State.drainPorts_rd (s : State) (site r bits : Nat) {G0 : Fld} {I0 : List Nat} (hF : hasFld ⟨[.NOC_RTR_PORT_DRAIN], [], [], false⟩ G0 = false) :
    (State.drainPorts s site r bits).rd G0 I0 = s.rd G0 I0 :=
  State.drainPorts_keeps (Keeps.rd hF I0 (s.rd G0 I0)) s site r bits rfl

theorem State.detour_rd (s : State) (n k : Nat) (bs : BearingSet) {G0 : Fld} {I0 : List Nat} (hF : hasFld ⟨[.GK_STAT_NOC_DETOUR, .GK_STAT_STATE, .MGMT_HEALTH_STAGE, .MGMT_HEALTH_ZERO, .NOC_RTR_PORT_DRAIN], [], [], false⟩ G0 = false) :
    (State.detour s n k bs).rd G0 I0 = s.rd G0 I0 :=
  State.detour_keeps (Keeps.rd hF I0 (s.rd G0 I0)) s n k bs rfl

theorem State.dirTrained_rd (s : State) (l n k : Nat) (bad : List (Nat × Nat)) (clk : List Nat) (bs : BearingSet) {G0 : Fld} {I0 : List Nat} (hF : hasFld opFieldsDirTrained G0 = false) :
    (State.dirTrained s l n k bad clk bs).rd G0 I0 = s.rd G0 I0 :=
  State.dirTrained_keeps (Keeps.rd hF I0 (s.rd G0 I0)) s l n k bad clk bs rfl

theorem State.frameFailed_rd (s : State) (n k pl : Nat) (f : LinkFrame) (gs : List Nat) (flips : Nat) {G0 : Fld} {I0 : List Nat} (hF : hasFld ⟨[.GK_GRP_CRC_CNT_COUNT], [], [], false⟩ G0 = false) :
    (State.frameFailed s n k pl f gs flips).rd G0 I0 = s.rd G0 I0 :=
  State.frameFailed_keeps (Keeps.rd hF I0 (s.rd G0 I0)) s n k pl f gs flips rfl

theorem State.frameTaken_rd (s : State) (n k pl : Nat) (f : GkFlit) (flips : Nat) {G0 : Fld} {I0 : List Nat} (hF : hasFld ⟨[], [], [], false⟩ G0 = false) :
    (State.frameTaken s n k pl f flips).rd G0 I0 = s.rd G0 I0 :=
  State.frameTaken_keeps (Keeps.rd hF I0 (s.rd G0 I0)) s n k pl f flips rfl

theorem State.spareNotice_rd (s : State) (n k g : Nat) {G0 : Fld} {I0 : List Nat} (hF : hasFld ⟨[.MGMT_HEALTH_STAGE, .MGMT_HEALTH_ZERO], [], [], false⟩ G0 = false) :
    (State.spareNotice s n k g).rd G0 I0 = s.rd G0 I0 :=
  State.spareNotice_keeps (Keeps.rd hF I0 (s.rd G0 I0)) s n k g rfl

theorem State.swapBegin_rd (s : State) (n k g l : Nat) {G0 : Fld} {I0 : List Nat} (hF : hasFld ⟨[.GK_GRP_STAT_PAUSED], [], [], false⟩ G0 = false) :
    (State.swapBegin s n k g l).rd G0 I0 = s.rd G0 I0 :=
  State.swapBegin_keeps (Keeps.rd hF I0 (s.rd G0 I0)) s n k g l rfl

theorem State.crossSwapBegin_rd (s : State) (n k g l : Nat) {G0 : Fld} {I0 : List Nat} (hF : hasFld ⟨[], [], [], false⟩ G0 = false) :
    (State.crossSwapBegin s n k g l).rd G0 I0 = s.rd G0 I0 :=
  State.crossSwapBegin_keeps (Keeps.rd hF I0 (s.rd G0 I0)) s n k g l rfl

theorem State.groupOut_rd (s : State) (n k g : Nat) {G0 : Fld} {I0 : List Nat} (hF : hasFld opFieldsGroupOut G0 = false) :
    (State.groupOut s n k g).rd G0 I0 = s.rd G0 I0 :=
  State.groupOut_keeps (Keeps.rd hF I0 (s.rd G0 I0)) s n k g rfl

theorem State.floor_rd (s : State) (n k : Nat) (bs : BearingSet) {G0 : Fld} {I0 : List Nat} (hF : hasFld ⟨[.GK_STAT_NOC_DETOUR, .GK_STAT_STATE, .MGMT_HEALTH_STAGE, .MGMT_HEALTH_ZERO, .NOC_RTR_PORT_DRAIN], [], [], false⟩ G0 = false) :
    (State.floor s n k bs).rd G0 I0 = s.rd G0 I0 :=
  State.floor_keeps (Keeps.rd hF I0 (s.rd G0 I0)) s n k bs rfl

theorem State.loseCrossing_rd (s : State) (n k g : Nat) {G0 : Fld} {I0 : List Nat} (hF : hasFld opFieldsLoseCrossing G0 = false) :
    (State.loseCrossing s n k g).rd G0 I0 = s.rd G0 I0 :=
  State.loseCrossing_keeps (Keeps.rd hF I0 (s.rd G0 I0)) s n k g rfl

theorem State.convBegin_rd (s : State) (n k g into : Nat) {G0 : Fld} {I0 : List Nat} (hF : hasFld opFieldsConvBegin G0 = false) :
    (State.convBegin s n k g into).rd G0 I0 = s.rd G0 I0 :=
  State.convBegin_keeps (Keeps.rd hF I0 (s.rd G0 I0)) s n k g into rfl

theorem State.retireGroup_rd (s : State) (n k g : Nat) (bs : BearingSet) {G0 : Fld} {I0 : List Nat} (hF : hasFld opFieldsRetireGroup G0 = false) :
    (State.retireGroup s n k g bs).rd G0 I0 = s.rd G0 I0 :=
  State.retireGroup_keeps (Keeps.rd hF I0 (s.rd G0 I0)) s n k g bs rfl

theorem State.setCrossing_rd (s : State) (n k lc : Nat) (x : CrossIn) {G0 : Fld} {I0 : List Nat} (hF : hasFld ⟨[], [], [], false⟩ G0 = false) :
    (State.setCrossing s n k lc x).rd G0 I0 = s.rd G0 I0 :=
  State.setCrossing_keeps (Keeps.rd hF I0 (s.rd G0 I0)) s n k lc x rfl

theorem State.setLane_rd (s : State) (l : Nat) (x : LaneRt) {G0 : Fld} {I0 : List Nat} (hF : hasFld ⟨[], [], [], false⟩ G0 = false) :
    (State.setLane s l x).rd G0 I0 = s.rd G0 I0 :=
  State.setLane_keeps (Keeps.rd hF I0 (s.rd G0 I0)) s l x rfl

theorem State.setTrunk_rd (s : State) (t : Nat) (x : LaneRt) {G0 : Fld} {I0 : List Nat} (hF : hasFld ⟨[], [], [], false⟩ G0 = false) :
    (State.setTrunk s t x).rd G0 I0 = s.rd G0 I0 :=
  State.setTrunk_keeps (Keeps.rd hF I0 (s.rd G0 I0)) s t x rfl

theorem State.genStart_rd (s : State) (l : Nat) {G0 : Fld} {I0 : List Nat} (hF : hasFld ⟨[], [], [], false⟩ G0 = false) :
    (State.genStart s l).rd G0 I0 = s.rd G0 I0 :=
  State.genStart_keeps (Keeps.rd hF I0 (s.rd G0 I0)) s l rfl

theorem State.prbsWritten_rd (s : State) (l oldGen oldChk : Nat) {G0 : Fld} {I0 : List Nat} (hF : hasFld ⟨[.CL_STAT_CHK_LOCK], [], [], false⟩ G0 = false) :
    (State.prbsWritten s l oldGen oldChk).rd G0 I0 = s.rd G0 I0 :=
  State.prbsWritten_keeps (Keeps.rd hF I0 (s.rd G0 I0)) s l oldGen oldChk rfl

theorem State.bundleStart_rd (s : State) (b : Nat) {G0 : Fld} {I0 : List Nat} (hF : hasFld ⟨[.CL_BND_STAT_GRID, .CL_BND_STAT_PLL_LOCK, .CL_BND_STAT_STATE, .CL_BND_STAT_TRN_ERR, .CL_STAT_LOL, .CL_STAT_LOS], [], [], false⟩ G0 = false) :
    (State.bundleStart s b).rd G0 I0 = s.rd G0 I0 :=
  State.bundleStart_keeps (Keeps.rd hF I0 (s.rd G0 I0)) s b rfl

theorem State.bundleOff_rd (s : State) (b : Nat) {G0 : Fld} {I0 : List Nat} (hF : hasFld opFieldsBundleOff G0 = false) :
    (State.bundleOff s b).rd G0 I0 = s.rd G0 I0 :=
  State.bundleOff_keeps (Keeps.rd hF I0 (s.rd G0 I0)) s b rfl

theorem State.bundleAgain_rd (s : State) (b : Nat) {G0 : Fld} {I0 : List Nat} (hF : hasFld opFieldsBundleAgain G0 = false) :
    (State.bundleAgain s b).rd G0 I0 = s.rd G0 I0 :=
  State.bundleAgain_keeps (Keeps.rd hF I0 (s.rd G0 I0)) s b rfl

theorem State.laneCtl_rd (s : State) (w : Writer) (l v : Nat) {G0 : Fld} {I0 : List Nat} (hF : hasFld opFieldsLaneCtl G0 = false) :
    (State.laneCtl s w l v).rd G0 I0 = s.rd G0 I0 :=
  State.laneCtl_keeps (Keeps.rd hF I0 (s.rd G0 I0)) s w l v rfl

theorem State.askAdapt_rd (s : State) (t : Nat) {G0 : Fld} {I0 : List Nat} (hF : hasFld ⟨[.PG_ERR_OP, .PG_ERR_OVERSIZE, .PG_ERR_UNITS, .PG_ERR_VALID, .PG_TO_CNT_COUNT, .TR_STAT_STATE], [], [], false⟩ G0 = false) :
    (State.askAdapt s t).rd G0 I0 = s.rd G0 I0 :=
  State.askAdapt_keeps (Keeps.rd hF I0 (s.rd G0 I0)) s t rfl

theorem State.adaptAgain_rd (s : State) (t : Nat) {G0 : Fld} {I0 : List Nat} (hF : hasFld opFieldsAdaptAgain G0 = false) :
    (State.adaptAgain s t).rd G0 I0 = s.rd G0 I0 :=
  State.adaptAgain_keeps (Keeps.rd hF I0 (s.rd G0 I0)) s t rfl

theorem State.trunkLoss_rd (s : State) (t lol : Nat) {G0 : Fld} {I0 : List Nat} (hF : hasFld opFieldsTrunkLoss G0 = false) :
    (State.trunkLoss s t lol).rd G0 I0 = s.rd G0 I0 :=
  State.trunkLoss_keeps (Keeps.rd hF I0 (s.rd G0 I0)) s t lol rfl

theorem State.portTake_rd (s : State) (l n : Nat) {G0 : Fld} {I0 : List Nat} (hF : hasFld ⟨[], [], [], false⟩ G0 = false) :
    (State.portTake s l n).rd G0 I0 = s.rd G0 I0 :=
  State.portTake_keeps (Keeps.rd hF I0 (s.rd G0 I0)) s l n rfl

theorem State.chkCount_rd (s : State) (trunk : Bool) (l bits errs : Nat) {G0 : Fld} {I0 : List Nat} (hF : hasFld ⟨[.CL_ERR_CNT_COUNT, .TR_ERR_CNT_COUNT], [], [], false⟩ G0 = false) :
    (State.chkCount s trunk l bits errs).rd G0 I0 = s.rd G0 I0 :=
  State.chkCount_keeps (Keeps.rd hF I0 (s.rd G0 I0)) s trunk l bits errs rfl

theorem State.chkBits_rd (s : State) (trunk : Bool) (l x : Nat) (n0 : Nat) {G0 : Fld} {I0 : List Nat} (hF : hasFld ⟨[.CL_ERR_CNT_COUNT, .CL_STAT_CHK_LOCK, .TR_ERR_CNT_COUNT, .TR_STAT_CHK_LOCK], [], [], false⟩ G0 = false) :
    (State.chkBits s trunk l x n0).rd G0 I0 = s.rd G0 I0 :=
  State.chkBits_keeps (Keeps.rd hF I0 (s.rd G0 I0)) s trunk l x n0 rfl

theorem State.chkWords_rd (s : State) (trunk : Bool) (l : Nat) (ws : List (BitVec 64)) {G0 : Fld} {I0 : List Nat} (hF : hasFld ⟨[.CL_ERR_CNT_COUNT, .CL_STAT_CHK_LOCK, .TR_ERR_CNT_COUNT, .TR_STAT_CHK_LOCK], [], [], false⟩ G0 = false) :
    (State.chkWords s trunk l ws).rd G0 I0 = s.rd G0 I0 :=
  State.chkWords_keeps (Keeps.rd hF I0 (s.rd G0 I0)) s trunk l ws rfl

theorem State.trunkGen_rd (s : State) (t : Nat) {G0 : Fld} {I0 : List Nat} (hF : hasFld ⟨[], [], [], false⟩ G0 = false) :
    (State.trunkGen s t).rd G0 I0 = s.rd G0 I0 :=
  State.trunkGen_keeps (Keeps.rd hF I0 (s.rd G0 I0)) s t rfl

theorem State.trPrbsWritten_rd (s : State) (t oldGen oldChk : Nat) {G0 : Fld} {I0 : List Nat} (hF : hasFld ⟨[.TR_STAT_CHK_LOCK], [], [], false⟩ G0 = false) :
    (State.trPrbsWritten s t oldGen oldChk).rd G0 I0 = s.rd G0 I0 :=
  State.trPrbsWritten_keeps (Keeps.rd hF I0 (s.rd G0 I0)) s t oldGen oldChk rfl

theorem State.trunkOff_rd (s : State) (t : Nat) {G0 : Fld} {I0 : List Nat} (hF : hasFld ⟨[.TR_CTL_EN, .TR_STAT_CHK_LOCK, .TR_STAT_STATE], [], [], false⟩ G0 = false) :
    (State.trunkOff s t).rd G0 I0 = s.rd G0 I0 :=
  State.trunkOff_keeps (Keeps.rd hF I0 (s.rd G0 I0)) s t rfl

theorem State.beatTake_rd (s : State) (t n : Nat) {G0 : Fld} {I0 : List Nat} (hF : hasFld ⟨[], [], [], false⟩ G0 = false) :
    (State.beatTake s t n).rd G0 I0 = s.rd G0 I0 :=
  State.beatTake_keeps (Keeps.rd hF I0 (s.rd G0 I0)) s t n rfl

theorem State.laneSend_rd (s : State) (l : Nat) {G0 : Fld} {I0 : List Nat} (hF : hasFld ⟨[], [], [], false⟩ G0 = false) :
    (State.laneSend s l).rd G0 I0 = s.rd G0 I0 :=
  State.laneSend_keeps (Keeps.rd hF I0 (s.rd G0 I0)) s l rfl

theorem State.trunkSend_rd (s : State) (t : Nat) {G0 : Fld} {I0 : List Nat} (hF : hasFld ⟨[], [], [], false⟩ G0 = false) :
    (State.trunkSend s t).rd G0 I0 = s.rd G0 I0 :=
  State.trunkSend_keeps (Keeps.rd hF I0 (s.rd G0 I0)) s t rfl

theorem State.portLoad_rd (s : State) (trunk : Bool) (l data : Nat) {G0 : Fld} {I0 : List Nat} (hF : hasFld ⟨[], [], [], false⟩ G0 = false) :
    (State.portLoad s trunk l data).rd G0 I0 = s.rd G0 I0 :=
  State.portLoad_keeps (Keeps.rd hF I0 (s.rd G0 I0)) s trunk l data rfl

theorem State.trunkReceive_rd (s : State) (t data taken : Nat) {G0 : Fld} {I0 : List Nat} (hF : hasFld ⟨[], [], [], false⟩ G0 = false) :
    (State.trunkReceive s t data taken).rd G0 I0 = s.rd G0 I0 :=
  State.trunkReceive_keeps (Keeps.rd hF I0 (s.rd G0 I0)) s t data taken rfl

theorem State.laneAct_rd (s : State) (a : LaneAct) {G0 : Fld} {I0 : List Nat} (hF : hasFld ⟨[], [], [], false⟩ G0 = false) :
    (State.laneAct s a).rd G0 I0 = s.rd G0 I0 :=
  State.laneAct_keeps (Keeps.rd hF I0 (s.rd G0 I0)) s a rfl

theorem State.laneNs_rd (s : State) {G0 : Fld} {I0 : List Nat} (hF : hasFld ⟨[], [], [], false⟩ G0 = false) :
    (State.laneNs s).rd G0 I0 = s.rd G0 I0 :=
  State.laneNs_keeps (Keeps.rd hF I0 (s.rd G0 I0)) s rfl

theorem State.dbDrop_rd (s : State) (f q off v : Nat) {G0 : Fld} {I0 : List Nat} (hF : hasFld ⟨[], [], [], false⟩ G0 = false) :
    (State.dbDrop s f q off v).rd G0 I0 = s.rd G0 I0 :=
  State.dbDrop_keeps (Keeps.rd hF I0 (s.rd G0 I0)) s f q off v rfl

theorem State.runNop_rd (s : State) (q opc : Nat) {G0 : Fld} {I0 : List Nat} (hF : hasFld ⟨[.HIF_QP_DONE_CNT_COUNT, .HIF_QP_STAT_STATE], [], [], false⟩ G0 = false) :
    (State.runNop s q opc).rd G0 I0 = s.rd G0 I0 :=
  State.runNop_keeps (Keeps.rd hF I0 (s.rd G0 I0)) s q opc rfl

theorem State.jobLines_rd (s : State) (q n k size base : Nat) {G0 : Fld} {I0 : List Nat} (hF : hasFld ⟨[], [], [], false⟩ G0 = false) :
    (State.jobLines s q n k size base).rd G0 I0 = s.rd G0 I0 :=
  State.jobLines_keeps (Keeps.rd hF I0 (s.rd G0 I0)) s q n k size base rfl

theorem State.runMove_rd (s : State) (q opc : Nat) {G0 : Fld} {I0 : List Nat} (hF : hasFld ⟨[.HIF_QP_DONE_CNT_COUNT, .HIF_QP_STAT_STATE], [], [], false⟩ G0 = false) :
    (State.runMove s q opc).rd G0 I0 = s.rd G0 I0 :=
  State.runMove_keeps (Keeps.rd hF I0 (s.rd G0 I0)) s q opc rfl

theorem State.lineRead_rd (s : State) (f g : Nat) (v : LineEnv) {G0 : Fld} {I0 : List Nat} (hF : hasFld opFieldsLineRead G0 = false) :
    (State.lineRead s f g v).2.2.rd G0 I0 = s.rd G0 I0 :=
  State.lineRead_keeps (Keeps.rd hF I0 (s.rd G0 I0)) s f g v rfl

theorem State.lineWrite_rd (s : State) (f g data : Nat) (v : LineEnv) {G0 : Fld} {I0 : List Nat} (hF : hasFld opFieldsLineWrite G0 = false) :
    (State.lineWrite s f g data v).2.rd G0 I0 = s.rd G0 I0 :=
  State.lineWrite_keeps (Keeps.rd hF I0 (s.rd G0 I0)) s f g data v rfl

theorem State.hostLine_rd (s : State) (f a data : Nat) {G0 : Fld} {I0 : List Nat} (hF : hasFld ⟨[], [], [], false⟩ G0 = false) :
    (State.hostLine s f a data).rd G0 I0 = s.rd G0 I0 :=
  State.hostLine_keeps (Keeps.rd hF I0 (s.rd G0 I0)) s f a data rfl

theorem State.moveLine_rd (s : State) (f : Nat) (j : Job) (v : LineEnv) {G0 : Fld} {I0 : List Nat} (hF : hasFld opFieldsMoveLine G0 = false) :
    (State.moveLine s f j v).2.2.rd G0 I0 = s.rd G0 I0 :=
  State.moveLine_keeps (Keeps.rd hF I0 (s.rd G0 I0)) s f j v rfl

theorem State.jobWaits_rd (s : State) (q n : Nat) {G0 : Fld} {I0 : List Nat} (hF : hasFld ⟨[.HIF_QP_DONE_CNT_COUNT, .HIF_QP_STAT_STATE], [], [], false⟩ G0 = false) :
    (State.jobWaits s q n).rd G0 I0 = s.rd G0 I0 :=
  State.jobWaits_keeps (Keeps.rd hF I0 (s.rd G0 I0)) s q n rfl

theorem State.writeEntry_rd (s : State) (q n : Nat) (j : Job) (ok : Bool) {G0 : Fld} {I0 : List Nat} (hF : hasFld ⟨[.HIF_QP_DONE_CNT_COUNT, .HIF_QP_HEAD_CQ_TAIL, .HIF_QP_STAT_ERR, .HIF_QP_STAT_PHASE, .HIF_QP_STAT_STATE], [], [], false⟩ G0 = false) :
    (State.writeEntry s q n j ok).rd G0 I0 = s.rd G0 I0 :=
  State.writeEntry_keeps (Keeps.rd hF I0 (s.rd G0 I0)) s q n j ok rfl

theorem State.fnAnswer_rd (s : State) (m : Mail) (rst : Nat) (body : List Byte) {G0 : Fld} {I0 : List Nat} (hF : hasFld ⟨[.HIF_QP_DONE_CNT_COUNT, .HIF_QP_STAT_STATE], [], [], false⟩ G0 = false) :
    (State.fnAnswer s m rst body).rd G0 I0 = s.rd G0 I0 :=
  State.fnAnswer_keeps (Keeps.rd hF I0 (s.rd G0 I0)) s m rst body rfl

theorem State.fnReset_rd (s : State) (f : Nat) {G0 : Fld} {I0 : List Nat} (hF : hasFld opFieldsFnReset G0 = false) :
    (State.fnReset s f).rd G0 I0 = s.rd G0 I0 :=
  State.fnReset_keeps (Keeps.rd hF I0 (s.rd G0 I0)) s f rfl

theorem State.flr_rd (s : State) (f : Nat) {G0 : Fld} {I0 : List Nat} (hF : hasFld opFieldsFlr G0 = false) :
    (State.flr s f).rd G0 I0 = s.rd G0 I0 :=
  State.flr_keeps (Keeps.rd hF I0 (s.rd G0 I0)) s f rfl

theorem State.sxJob_rd (s : State) (r : SxReq) (status : Nat) {G0 : Fld} {I0 : List Nat} (hF : hasFld ⟨[.HIF_QP_DONE_CNT_COUNT, .HIF_QP_STAT_STATE], [], [], false⟩ G0 = false) :
    (State.sxJob s r status).rd G0 I0 = s.rd G0 I0 :=
  State.sxJob_keeps (Keeps.rd hF I0 (s.rd G0 I0)) s r status rfl

theorem State.sxNext_rd (s : State) (n0 : Nat) {G0 : Fld} {I0 : List Nat} (hF : hasFld ⟨[.HIF_QP_DONE_CNT_COUNT, .HIF_QP_STAT_STATE, .SX_STAT_REF_CODE, .SX_STAT_STEP_REF, .SX_STEP_CMD_BUSY], [], [], false⟩ G0 = false) :
    (State.sxNext s n0).rd G0 I0 = s.rd G0 I0 :=
  State.sxNext_keeps (Keeps.rd hF I0 (s.rd G0 I0)) s n0 rfl

theorem State.sxRequest_rd (s : State) (r : SxReq) {G0 : Fld} {I0 : List Nat} (hF : hasFld ⟨[.HIF_QP_DONE_CNT_COUNT, .HIF_QP_STAT_STATE, .SX_STAT_REF_CODE, .SX_STAT_STEP_REF, .SX_STEP_CMD_BUSY], [], [], false⟩ G0 = false) :
    (State.sxRequest s r).rd G0 I0 = s.rd G0 I0 :=
  State.sxRequest_keeps (Keeps.rd hF I0 (s.rd G0 I0)) s r rfl

theorem State.sxStepCmd_rd (s : State) (w : Writer) (cmd : Nat) (force : Bool) {G0 : Fld} {I0 : List Nat} (hF : hasFld ⟨[.HIF_QP_DONE_CNT_COUNT, .HIF_QP_STAT_STATE, .SX_STAT_REF_CODE, .SX_STAT_STEP_REF, .SX_STEP_CMD_BUSY], [], [], false⟩ G0 = false) :
    (State.sxStepCmd s w cmd force).rd G0 I0 = s.rd G0 I0 :=
  State.sxStepCmd_keeps (Keeps.rd hF I0 (s.rd G0 I0)) s w cmd force rfl

theorem State.sxDrop_rd (s : State) (p : Nat) {G0 : Fld} {I0 : List Nat} (hF : hasFld ⟨[], [], [], false⟩ G0 = false) :
    (State.sxDrop s p).rd G0 I0 = s.rd G0 I0 :=
  State.sxDrop_keeps (Keeps.rd hF I0 (s.rd G0 I0)) s p rfl

theorem State.setTxQueue_rd (s : State) (p : Nat) (l : List TxStamp) {G0 : Fld} {I0 : List Nat} (hF : hasFld ⟨[], [], [], false⟩ G0 = false) :
    (State.setTxQueue s p l).rd G0 I0 = s.rd G0 I0 :=
  State.setTxQueue_keeps (Keeps.rd hF I0 (s.rd G0 I0)) s p l rfl

theorem State.txStamp_rd (s : State) (p type seq stamp : Nat) {G0 : Fld} {I0 : List Nat} (hF : hasFld ⟨[.SX_PORT_STAT_TXQ_OVF, .SX_TXQ_LOST_CNT_COUNT], [], [], false⟩ G0 = false) :
    (State.txStamp s p type seq stamp).rd G0 I0 = s.rd G0 I0 :=
  State.txStamp_keeps (Keeps.rd hF I0 (s.rd G0 I0)) s p type seq stamp rfl

theorem State.servoStep_rd (s : State) (ofs : Nat) {G0 : Fld} {I0 : List Nat} (hF : hasFld ⟨[.HIF_QP_DONE_CNT_COUNT, .HIF_QP_STAT_STATE, .SX_STAT_REF_CODE, .SX_STAT_STEP_REF, .SX_STEP_CMD_BUSY], [], [], false⟩ G0 = false) :
    (State.servoStep s ofs).rd G0 I0 = s.rd G0 I0 :=
  State.servoStep_keeps (Keeps.rd hF I0 (s.rd G0 I0)) s ofs rfl

theorem State.glide_rd (s : State) {G0 : Fld} {I0 : List Nat} (hF : hasFld ⟨[.CLK_SRC_ACTIVE, .CLK_SRC_DEAD_RECK, .CLK_SRC_GLIDING, .SX_STAT_DEAD_RECK], [], [], false⟩ G0 = false) :
    (State.glide s).rd G0 I0 = s.rd G0 I0 :=
  State.glide_keeps (Keeps.rd hF I0 (s.rd G0 I0)) s rfl

theorem State.deadReckon_rd (s : State) {G0 : Fld} {I0 : List Nat} (hF : hasFld ⟨[.CLK_MON_FAIL_EV, .CLK_MON_REF_OK, .CLK_SRC_ACTIVE, .CLK_SRC_DEAD_RECK, .CLK_SRC_GLIDING, .SX_STAT_DEAD_RECK], [], [], false⟩ G0 = false) :
    (State.deadReckon s).rd G0 I0 = s.rd G0 I0 :=
  State.deadReckon_keeps (Keeps.rd hF I0 (s.rd G0 I0)) s rfl

theorem State.returnToSource_rd (s : State) {G0 : Fld} {I0 : List Nat} (hF : hasFld ⟨[.CLK_MON_REF_OK, .CLK_SRC_ACTIVE, .CLK_SRC_DEAD_RECK, .CLK_SRC_GLIDING, .HELM_IC_PEND_BITS, .SX_STAT_DEAD_RECK], [], [], false⟩ G0 = false) :
    (State.returnToSource s).rd G0 I0 = s.rd G0 I0 :=
  State.returnToSource_keeps (Keeps.rd hF I0 (s.rd G0 I0)) s rfl

theorem State.clkout_rd (s : State) (i : Nat) {G0 : Fld} {I0 : List Nat} (hF : hasFld ⟨[], [], [], false⟩ G0 = false) :
    (State.clkout s i).rd G0 I0 = s.rd G0 I0 :=
  State.clkout_keeps (Keeps.rd hF I0 (s.rd G0 I0)) s i rfl

theorem State.spineMoved_rd (s : State) (k f : Nat) {G0 : Fld} {I0 : List Nat} (hF : hasFld ⟨[], [], [], false⟩ G0 = false) :
    (State.spineMoved s k f).rd G0 I0 = s.rd G0 I0 :=
  State.spineMoved_keeps (Keeps.rd hF I0 (s.rd G0 I0)) s k f rfl

theorem State.setSynth_rd (s : State) (n k : Nat) (x : Synth) {G0 : Fld} {I0 : List Nat} (hF : hasFld ⟨[], [], [], false⟩ G0 = false) :
    (State.setSynth s n k x).rd G0 I0 = s.rd G0 I0 :=
  State.setSynth_keeps (Keeps.rd hF I0 (s.rd G0 I0)) s n k x rfl

theorem State.setGliding_rd (s : State) (n k v : Nat) {G0 : Fld} {I0 : List Nat} (hF : hasFld ⟨[.FSYN_CTL_GLIDING, .SPN_SYN_GLIDING], [], [], false⟩ G0 = false) :
    (State.setGliding s n k v).rd G0 I0 = s.rd G0 I0 :=
  State.setGliding_keeps (Keeps.rd hF I0 (s.rd G0 I0)) s n k v rfl

theorem State.synthGo_rd (s : State) (n k f : Nat) {G0 : Fld} {I0 : List Nat} (hF : hasFld ⟨[.FSYN_CTL_GLIDING, .FSYN_CTL_LOCKED, .SPN_SYN_GLIDING], [], [], false⟩ G0 = false) :
    (State.synthGo s n k f).rd G0 I0 = s.rd G0 I0 :=
  State.synthGo_keeps (Keeps.rd hF I0 (s.rd G0 I0)) s n k f rfl

theorem State.setFvs_rd (s : State) (n : Nat) (x : Fvs) {G0 : Fld} {I0 : List Nat} (hF : hasFld ⟨[], [], [], false⟩ G0 = false) :
    (State.setFvs s n x).rd G0 I0 = s.rd G0 I0 :=
  State.setFvs_keeps (Keeps.rd hF I0 (s.rd G0 I0)) s n x rfl

theorem State.fvsEnd_rd (s : State) (n : Nat) (failed : Bool) {G0 : Fld} {I0 : List Nat} (hF : hasFld ⟨[.FVS_STAT_BUSY, .FVS_STAT_FAIL], [], [], false⟩ G0 = false) :
    (State.fvsEnd s n failed).rd G0 I0 = s.rd G0 I0 :=
  State.fvsEnd_keeps (Keeps.rd hF I0 (s.rd G0 I0)) s n failed rfl

theorem State.fvsRail_rd (s : State) (n : Nat) {G0 : Fld} {I0 : List Nat} (hF : hasFld ⟨[], [], [], false⟩ G0 = false) :
    (State.fvsRail s n).rd G0 I0 = s.rd G0 I0 :=
  State.fvsRail_keeps (Keeps.rd hF I0 (s.rd G0 I0)) s n rfl

theorem State.fvsAdvance_rd (s : State) (n : Nat) {G0 : Fld} {I0 : List Nat} (hF : hasFld ⟨[.FVS_STAT_BUSY, .FVS_STAT_FAIL], [], [], false⟩ G0 = false) :
    (State.fvsAdvance s n).rd G0 I0 = s.rd G0 I0 :=
  State.fvsAdvance_keeps (Keeps.rd hF I0 (s.rd G0 I0)) s n rfl

theorem State.riseTimeouts_rd (s : State) (n : Nat) {G0 : Fld} {I0 : List Nat} (hF : hasFld ⟨[.FSYN_CTL_PERMIT_WAIT, .FVS_STAT_BUSY, .FVS_STAT_FAIL], [], [], false⟩ G0 = false) :
    (State.riseTimeouts s n).rd G0 I0 = s.rd G0 I0 :=
  State.riseTimeouts_keeps (Keeps.rd hF I0 (s.rd G0 I0)) s n rfl

theorem State.fvsRise_rd (s : State) (n : Nat) {G0 : Fld} {I0 : List Nat} (hF : hasFld opFieldsFvsRise G0 = false) :
    (State.fvsRise s n).rd G0 I0 = s.rd G0 I0 :=
  State.fvsRise_keeps (Keeps.rd hF I0 (s.rd G0 I0)) s n rfl

theorem State.setCore_rd (s : State) (c v : Nat) {G0 : Fld} {I0 : List Nat} (hF : hasFld ⟨[.HELM_CORE_STAT_STATE], [], [], false⟩ G0 = false) :
    (State.setCore s c v).rd G0 I0 = s.rd G0 I0 :=
  State.setCore_keeps (Keeps.rd hF I0 (s.rd G0 I0)) s c v rfl

theorem State.relock_rd (s : State) (c : Nat) {G0 : Fld} {I0 : List Nat} (hF : hasFld ⟨[], [], [], false⟩ G0 = false) :
    (State.relock s c).rd G0 I0 = s.rd G0 I0 :=
  State.relock_keeps (Keeps.rd hF I0 (s.rd G0 I0)) s c rfl

theorem State.wdSync_rd (s : State) (c : Nat) {G0 : Fld} {I0 : List Nat} (hF : hasFld ⟨[], [], [], false⟩ G0 = false) :
    (State.wdSync s c).rd G0 I0 = s.rd G0 I0 :=
  State.wdSync_keeps (Keeps.rd hF I0 (s.rd G0 I0)) s c rfl

theorem State.wdLoad_rd (s : State) (c : Nat) {G0 : Fld} {I0 : List Nat} (hF : hasFld ⟨[], [], [], false⟩ G0 = false) :
    (State.wdLoad s c).rd G0 I0 = s.rd G0 I0 :=
  State.wdLoad_keeps (Keeps.rd hF I0 (s.rd G0 I0)) s c rfl

theorem State.wdThaw_rd (s : State) (c : Nat) {G0 : Fld} {I0 : List Nat} (hF : hasFld ⟨[], [], [], false⟩ G0 = false) :
    (State.wdThaw s c).rd G0 I0 = s.rd G0 I0 :=
  State.wdThaw_keeps (Keeps.rd hF I0 (s.rd G0 I0)) s c rfl

theorem State.setL1_rd (s : State) (c k line : Nat) (x : Option HelmLine) {G0 : Fld} {I0 : List Nat} (hF : hasFld ⟨[], [], [], false⟩ G0 = false) :
    (State.setL1 s c k line x).rd G0 I0 = s.rd G0 I0 :=
  State.setL1_keeps (Keeps.rd hF I0 (s.rd G0 I0)) s c k line x rfl

theorem State.setL2_rd (s : State) (line : Nat) (x : Option HelmLine) {G0 : Fld} {I0 : List Nat} (hF : hasFld ⟨[], [], [], false⟩ G0 = false) :
    (State.setL2 s line x).rd G0 I0 = s.rd G0 I0 :=
  State.setL2_keeps (Keeps.rd hF I0 (s.rd G0 I0)) s line x rfl

theorem State.l1Down_rd (s : State) (line : Nat) {G0 : Fld} {I0 : List Nat} (hF : hasFld ⟨[], [], [], false⟩ G0 = false) :
    (State.l1Down s line).rd G0 I0 = s.rd G0 I0 :=
  State.l1Down_keeps (Keeps.rd hF I0 (s.rd G0 I0)) s line rfl

theorem State.l1Drop_rd (s : State) (line but : Nat) {G0 : Fld} {I0 : List Nat} (hF : hasFld ⟨[], [], [], false⟩ G0 = false) :
    (State.l1Drop s line but).rd G0 I0 = s.rd G0 I0 :=
  State.l1Drop_keeps (Keeps.rd hF I0 (s.rd G0 I0)) s line but rfl

theorem State.helmBelow_rd (s : State) (c line : Nat) (bus : Bool) {G0 : Fld} {I0 : List Nat} (hF : hasFld opFieldsHelmBelow G0 = false) :
    (State.helmBelow s c line bus).2.rd G0 I0 = s.rd G0 I0 :=
  State.helmBelow_keeps (Keeps.rd hF I0 (s.rd G0 I0)) s c line bus rfl

theorem State.helmLine_rd (s : State) (c k line : Nat) (bus : Bool) {G0 : Fld} {I0 : List Nat} (hF : hasFld opFieldsHelmLine G0 = false) :
    (State.helmLine s c k line bus).2.rd G0 I0 = s.rd G0 I0 :=
  State.helmLine_keeps (Keeps.rd hF I0 (s.rd G0 I0)) s c k line bus rfl

theorem State.helmLast_rd (s : State) (c kind v : Nat) {G0 : Fld} {I0 : List Nat} (hF : hasFld ⟨[], [], [], false⟩ G0 = false) :
    (State.helmLast s c kind v).rd G0 I0 = s.rd G0 I0 :=
  State.helmLast_keeps (Keeps.rd hF I0 (s.rd G0 I0)) s c kind v rfl

theorem State.helmRead_rd (s : State) (c a : Nat) (fetch bus : Bool) {G0 : Fld} {I0 : List Nat} (hF : hasFld opFieldsHelmRead G0 = false) :
    (State.helmRead s c a fetch bus).rd G0 I0 = s.rd G0 I0 :=
  State.helmRead_keeps (Keeps.rd hF I0 (s.rd G0 I0)) s c a fetch bus rfl

theorem State.helmStore_rd (s : State) (c a n data : Nat) {G0 : Fld} {I0 : List Nat} (hF : hasFld opFieldsHelmStore G0 = false) :
    (State.helmStore s c a n data).rd G0 I0 = s.rd G0 I0 :=
  State.helmStore_keeps (Keeps.rd hF I0 (s.rd G0 I0)) s c a n data rfl

theorem State.l2Clean_rd (s : State) (line : Nat) {G0 : Fld} {I0 : List Nat} (hF : hasFld opFieldsL2Clean G0 = false) :
    (State.l2Clean s line).rd G0 I0 = s.rd G0 I0 :=
  State.l2Clean_keeps (Keeps.rd hF I0 (s.rd G0 I0)) s line rfl

theorem State.helmActs_rd (s : State) (c : Nat) (acts : List HelmAct) {G0 : Fld} {I0 : List Nat} (hF : hasFld opFieldsHelmActs G0 = false) :
    (State.helmActs s c acts).rd G0 I0 = s.rd G0 I0 :=
  State.helmActs_keeps (Keeps.rd hF I0 (s.rd G0 I0)) s c acts rfl

theorem State.l1Reset_rd (s : State) (c : Nat) {G0 : Fld} {I0 : List Nat} (hF : hasFld ⟨[], [], [], false⟩ G0 = false) :
    (State.l1Reset s c).rd G0 I0 = s.rd G0 I0 :=
  State.l1Reset_keeps (Keeps.rd hF I0 (s.rd G0 I0)) s c rfl

theorem State.coreAsk_rd (s : State) (c : Nat) {G0 : Fld} {I0 : List Nat} (hF : hasFld ⟨[.HELM_CORE_STAT_STATE, .PG_ERR_OP, .PG_ERR_OVERSIZE, .PG_ERR_UNITS, .PG_ERR_VALID, .PG_TO_CNT_COUNT], [], [], false⟩ G0 = false) :
    (State.coreAsk s c).rd G0 I0 = s.rd G0 I0 :=
  State.coreAsk_keeps (Keeps.rd hF I0 (s.rd G0 I0)) s c rfl

theorem State.helmTimeouts_rd (s : State) {G0 : Fld} {I0 : List Nat} (hF : hasFld ⟨[.HELM_CORE_STAT_PERMIT_TO, .HELM_CORE_STAT_STATE], [], [], false⟩ G0 = false) :
    (State.helmTimeouts s).rd G0 I0 = s.rd G0 I0 :=
  State.helmTimeouts_keeps (Keeps.rd hF I0 (s.rd G0 I0)) s rfl

theorem State.coreReset_rd (s : State) (c : Nat) {G0 : Fld} {I0 : List Nat} (hF : hasFld ⟨[.HELM_CORE_STAT_STATE], [.core], [], false⟩ G0 = false) :
    (State.coreReset s c).rd G0 I0 = s.rd G0 I0 :=
  State.coreReset_keeps (Keeps.rd hF I0 (s.rd G0 I0)) s c rfl

theorem State.popLevel_rd (s : State) (c : Nat) {G0 : Fld} {I0 : List Nat} (hF : hasFld ⟨[.HELM_CORE_STAT_LEVEL], [], [], false⟩ G0 = false) :
    (State.popLevel s c).rd G0 I0 = s.rd G0 I0 :=
  State.popLevel_keeps (Keeps.rd hF I0 (s.rd G0 I0)) s c rfl

theorem State.coreAt_rd (s : State) (c : Nat) (acts : List HelmAct) (pc prv : Nat) (mie : Bool) {G0 : Fld} {I0 : List Nat} (hF : hasFld opFieldsCoreAt G0 = false) :
    (State.coreAt s c acts pc prv mie).rd G0 I0 = s.rd G0 I0 :=
  State.coreAt_keeps (Keeps.rd hF I0 (s.rd G0 I0)) s c acts pc prv mie rfl

theorem State.unlockAbort_rd (s : State) (c : Nat) {G0 : Fld} {I0 : List Nat} (hF : hasFld ⟨[.HELM_DBG_STAT_UNLOCK_ABORT], [], [], false⟩ G0 = false) :
    (State.unlockAbort s c).rd G0 I0 = s.rd G0 I0 :=
  State.unlockAbort_keeps (Keeps.rd hF I0 (s.rd G0 I0)) s c rfl

theorem State.csrAt_rd (s : State) (c r : Nat) {G0 : Fld} {I0 : List Nat} (hF : hasFld ⟨[], [], [], false⟩ G0 = false) :
    (State.csrAt s c r).2.rd G0 I0 = s.rd G0 I0 :=
  State.csrAt_keeps (Keeps.rd hF I0 (s.rd G0 I0)) s c r rfl

theorem State.dbgRead_rd (s : State) (c r : Nat) {G0 : Fld} {I0 : List Nat} (hF : hasFld ⟨[], [], [], false⟩ G0 = false) :
    (State.dbgRead s c r).2.rd G0 I0 = s.rd G0 I0 :=
  State.dbgRead_keeps (Keeps.rd hF I0 (s.rd G0 I0)) s c r rfl

theorem State.dbgWrite_rd (s : State) (c r v : Nat) {G0 : Fld} {I0 : List Nat} (hF : hasFld ⟨[], [], [], false⟩ G0 = false) :
    (State.dbgWrite s c r v).rd G0 I0 = s.rd G0 I0 :=
  State.dbgWrite_keeps (Keeps.rd hF I0 (s.rd G0 I0)) s c r v rfl

theorem State.patchDrop_rd (s : State) (c u : Nat) {G0 : Fld} {I0 : List Nat} (hF : hasFld ⟨[], [], [], false⟩ G0 = false) :
    (State.patchDrop s c u).rd G0 I0 = s.rd G0 I0 :=
  State.patchDrop_keeps (Keeps.rd hF I0 (s.rd G0 I0)) s c u rfl

theorem State.gBytes_rd (s : State) (m : Mst) (a n : Nat) {G0 : Fld} {I0 : List Nat} (hF : hasFld opFieldsGBytes G0 = false) :
    (State.gBytes s m a n).2.2.rd G0 I0 = s.rd G0 I0 :=
  State.gBytes_keeps (Keeps.rd hF I0 (s.rd G0 I0)) s m a n rfl

theorem State.gPut_rd (s : State) (m : Mst) (a : Nat) (bs : List Byte) {G0 : Fld} {I0 : List Nat} (hF : hasFld opFieldsGPut G0 = false) :
    (State.gPut s m a bs).2.rd G0 I0 = s.rd G0 I0 :=
  State.gPut_keeps (Keeps.rd hF I0 (s.rd G0 I0)) s m a bs rfl

theorem State.mailAnswer_rd (s : State) (m : Mail) (rst : Nat) (body : List Byte) {G0 : Fld} {I0 : List Nat} (hF : hasFld opFieldsMailAnswer G0 = false) :
    (State.mailAnswer s m rst body).rd G0 I0 = s.rd G0 I0 :=
  State.mailAnswer_keeps (Keeps.rd hF I0 (s.rd G0 I0)) s m rst body rfl

theorem State.setDieRt_rd (s : State) (n : Nat) (x : DieRt) {G0 : Fld} {I0 : List Nat} (hF : hasFld ⟨[], [], [], false⟩ G0 = false) :
    (State.setDieRt s n x).rd G0 I0 = s.rd G0 I0 :=
  State.setDieRt_keeps (Keeps.rd hF I0 (s.rd G0 I0)) s n x rfl

theorem State.setDie_rd (s : State) (n v : Nat) {G0 : Fld} {I0 : List Nat} (hF : hasFld ⟨[.HELM_IC_PEND_BITS, .HUB_DIE_STATE_STATE], [], [], false⟩ G0 = false) :
    (State.setDie s n v).rd G0 I0 = s.rd G0 I0 :=
  State.setDie_keeps (Keeps.rd hF I0 (s.rd G0 I0)) s n v rfl

theorem State.bearingsPut_rd (s : State) (v : Bool) (ks : List (List Nat)) {G0 : Fld} {I0 : List Nat} (hF : hasFld ⟨[], [], [], false⟩ G0 = false) :
    (State.bearingsPut s v ks).rd G0 I0 = s.rd G0 I0 :=
  State.bearingsPut_keeps (Keeps.rd hF I0 (s.rd G0 I0)) s v ks rfl

theorem State.isolate_rd (s : State) (n : Nat) {G0 : Fld} {I0 : List Nat} (hF : hasFld ⟨[], [], [], false⟩ G0 = false) :
    (State.isolate s n).rd G0 I0 = s.rd G0 I0 :=
  State.isolate_keeps (Keeps.rd hF I0 (s.rd G0 I0)) s n rfl

theorem State.homeFlush_rd (s : State) (st : Nat) {G0 : Fld} {I0 : List Nat} (hF : hasFld ⟨[.HA_STAT_SF_LEVEL, .RC_WB_CNT_COUNT], [], [], false⟩ G0 = false) :
    (State.homeFlush s st).rd G0 I0 = s.rd G0 I0 :=
  State.homeFlush_keeps (Keeps.rd hF I0 (s.rd G0 I0)) s st rfl

theorem State.stopEngines_rd (s : State) (n : Nat) {G0 : Fld} {I0 : List Nat} (hF : hasFld ⟨[.ENG_STATUS_STATE], [], [], false⟩ G0 = false) :
    (State.stopEngines s n).rd G0 I0 = s.rd G0 I0 :=
  State.stopEngines_keeps (Keeps.rd hF I0 (s.rd G0 I0)) s n rfl

theorem State.resetSectors_rd (s : State) (n : Nat) {G0 : Fld} {I0 : List Nat} (hF : hasFld ⟨[.SEC_CTL_RESET, .SEC_STATUS_ISOLATED, .SEC_STATUS_PERMIT_WAIT, .SEC_STATUS_RESET_HELD, .SEC_STATUS_STATE], [.sec], [], false⟩ G0 = false) :
    (State.resetSectors s n).rd G0 I0 = s.rd G0 I0 :=
  State.resetSectors_keeps (Keeps.rd hF I0 (s.rd G0 I0)) s n rfl

theorem State.flushOut_rd (s : State) (n c : Nat) {G0 : Fld} {I0 : List Nat} (hF : hasFld opFieldsFlushOut G0 = false) :
    (State.flushOut s n c).rd G0 I0 = s.rd G0 I0 :=
  State.flushOut_keeps (Keeps.rd hF I0 (s.rd G0 I0)) s n c rfl

theorem State.jobsLeave_rd (s : State) (n : Nat) {G0 : Fld} {I0 : List Nat} (hF : hasFld opFieldsJobsLeave G0 = false) :
    (State.jobsLeave s n).rd G0 I0 = s.rd G0 I0 :=
  State.jobsLeave_keeps (Keeps.rd hF I0 (s.rd G0 I0)) s n rfl

theorem State.spanEvents_rd (s : State) (n : Nat) {G0 : Fld} {I0 : List Nat} (hF : hasFld ⟨[], [], [], false⟩ G0 = false) :
    (State.spanEvents s n).rd G0 I0 = s.rd G0 I0 :=
  State.spanEvents_keeps (Keeps.rd hF I0 (s.rd G0 I0)) s n rfl

theorem State.linkDown_rd (s : State) (l : Nat) {G0 : Fld} {I0 : List Nat} (hF : hasFld ⟨[.GK_GRP_STAT_ROLE, .GK_STAT_COH, .GK_STAT_CROSS, .GK_STAT_NOC, .GK_STAT_NOC_DETOUR, .GK_STAT_STATE], [], [], false⟩ G0 = false) :
    (State.linkDown s l).rd G0 I0 = s.rd G0 I0 :=
  State.linkDown_keeps (Keeps.rd hF I0 (s.rd G0 I0)) s l rfl

theorem State.dieWipe_rd (s : State) (n : Nat) {G0 : Fld} {I0 : List Nat} (hF : hasFld opFieldsDieWipe G0 = false) :
    (State.dieWipe s n).rd G0 I0 = s.rd G0 I0 :=
  State.dieWipe_keeps (Keeps.rd hF I0 (s.rd G0 I0)) s n rfl

theorem State.dieRelease_rd (s : State) (n : Nat) {G0 : Fld} {I0 : List Nat} (hF : hasFld ⟨[.RST_DIE_STAT_HELD], [], [], false⟩ G0 = false) :
    (State.dieRelease s n).rd G0 I0 = s.rd G0 I0 :=
  State.dieRelease_keeps (Keeps.rd hF I0 (s.rd G0 I0)) s n rfl

theorem State.plannedReset_rd (s : State) (n : Nat) {G0 : Fld} {I0 : List Nat} (hF : hasFld opFieldsPlannedReset G0 = false) :
    (State.plannedReset s n).rd G0 I0 = s.rd G0 I0 :=
  State.plannedReset_keeps (Keeps.rd hF I0 (s.rd G0 I0)) s n rfl

theorem State.nextReset_rd (s : State) {G0 : Fld} {I0 : List Nat} (hF : hasFld opFieldsNextReset G0 = false) :
    (State.nextReset s).rd G0 I0 = s.rd G0 I0 :=
  State.nextReset_keeps (Keeps.rd hF I0 (s.rd G0 I0)) s rfl

theorem State.dieRestart_rd (s : State) (n : Nat) (rail : Bool) {G0 : Fld} {I0 : List Nat} (hF : hasFld opFieldsDieRestart G0 = false) :
    (State.dieRestart s n rail).rd G0 I0 = s.rd G0 I0 :=
  State.dieRestart_keeps (Keeps.rd hF I0 (s.rd G0 I0)) s n rail rfl

theorem State.dieLost_rd (s : State) (n cause : Nat) (keep : Bool) {G0 : Fld} {I0 : List Nat} (hF : hasFld opFieldsDieLost G0 = false) :
    (State.dieLost s n cause keep).rd G0 I0 = s.rd G0 I0 :=
  State.dieLost_keeps (Keeps.rd hF I0 (s.rd G0 I0)) s n cause keep rfl

theorem State.pwrRefuse_rd (s : State) (w : Writer) (n cmd : Nat) {G0 : Fld} {I0 : List Nat} (hF : hasFld ⟨[.PWR_DIE_STAT_REFUSED], [], [], false⟩ G0 = false) :
    (State.pwrRefuse s w n cmd).rd G0 I0 = s.rd G0 I0 :=
  State.pwrRefuse_keeps (Keeps.rd hF I0 (s.rd G0 I0)) s w n cmd rfl

theorem State.lanesStop_rd (s : State) (n : Nat) {G0 : Fld} {I0 : List Nat} (hF : hasFld ⟨[.CL_BND_STAT_STATE, .TR_STAT_STATE], [], [], false⟩ G0 = false) :
    (State.lanesStop s n).rd G0 I0 = s.rd G0 I0 :=
  State.lanesStop_keeps (Keeps.rd hF I0 (s.rd G0 I0)) s n rfl

theorem State.lanesLose_rd (s : State) (n : Nat) {G0 : Fld} {I0 : List Nat} (hF : hasFld ⟨[.CL_BND_STAT_GRID, .CL_BND_STAT_PLL_LOCK, .CL_BND_STAT_STATE, .TR_STAT_CHK_LOCK, .TR_STAT_STATE], [], [], false⟩ G0 = false) :
    (State.lanesLose s n).rd G0 I0 = s.rd G0 I0 :=
  State.lanesLose_keeps (Keeps.rd hF I0 (s.rd G0 I0)) s n rfl

theorem State.sleepBegin_rd (s : State) (n p : Nat) {G0 : Fld} {I0 : List Nat} (hF : hasFld opFieldsSleepBegin G0 = false) :
    (State.sleepBegin s n p).rd G0 I0 = s.rd G0 I0 :=
  State.sleepBegin_keeps (Keeps.rd hF I0 (s.rd G0 I0)) s n p rfl

theorem State.sleepCmd_rd (s : State) (w : Writer) (n p : Nat) {G0 : Fld} {I0 : List Nat} (hF : hasFld opFieldsSleepCmd G0 = false) :
    (State.sleepCmd s w n p).rd G0 I0 = s.rd G0 I0 :=
  State.sleepCmd_keeps (Keeps.rd hF I0 (s.rd G0 I0)) s w n p rfl

theorem State.fusesRead_rd (s : State) (n : Nat) (fuse : Fin 8 × BitVec 2) {G0 : Fld} {I0 : List Nat} (hF : hasFld ⟨[.HUB_DIE_STATE_KIND, .HUB_DIE_STATE_POS, .HUB_DIE_STATE_PRESENT], [], [], false⟩ G0 = false) :
    (State.fusesRead s n fuse).rd G0 I0 = s.rd G0 I0 :=
  State.fusesRead_keeps (Keeps.rd hF I0 (s.rd G0 I0)) s n fuse rfl

theorem State.coldStart_rd (s : State) (n : Nat) (fuse : Fin 8 × BitVec 2) {G0 : Fld} {I0 : List Nat} (hF : hasFld opFieldsColdStart G0 = false) :
    (State.coldStart s n fuse).rd G0 I0 = s.rd G0 I0 :=
  State.coldStart_keeps (Keeps.rd hF I0 (s.rd G0 I0)) s n fuse rfl

theorem State.resumeTimeouts_rd (s : State) (n : Nat) {G0 : Fld} {I0 : List Nat} (hF : hasFld ⟨[.PWR_DIE_STAT_REFUSED], [], [], false⟩ G0 = false) :
    (State.resumeTimeouts s n).rd G0 I0 = s.rd G0 I0 :=
  State.resumeTimeouts_keeps (Keeps.rd hF I0 (s.rd G0 I0)) s n rfl

theorem State.resumeGo_rd (s : State) (n : Nat) {G0 : Fld} {I0 : List Nat} (hF : hasFld ⟨[.PWR_DIE_STAT_BUSY], [], [], false⟩ G0 = false) :
    (State.resumeGo s n).rd G0 I0 = s.rd G0 I0 :=
  State.resumeGo_keeps (Keeps.rd hF I0 (s.rd G0 I0)) s n rfl

theorem State.sectorsGate_rd (s : State) (n : Nat) (g : Bool) {G0 : Fld} {I0 : List Nat} (hF : hasFld ⟨[], [], [], false⟩ G0 = false) :
    (State.sectorsGate s n g).rd G0 I0 = s.rd G0 I0 :=
  State.sectorsGate_keeps (Keeps.rd hF I0 (s.rd G0 I0)) s n g rfl

theorem State.backToP0_rd (s : State) (n p : Nat) {G0 : Fld} {I0 : List Nat} (hF : hasFld opFieldsBackToP0 G0 = false) :
    (State.backToP0 s n p).rd G0 I0 = s.rd G0 I0 :=
  State.backToP0_keeps (Keeps.rd hF I0 (s.rd G0 I0)) s n p rfl

theorem State.convTimeouts_rd (s : State) (n : Nat) {G0 : Fld} {I0 : List Nat} (hF : hasFld ⟨[], [], [], false⟩ G0 = false) :
    (State.convTimeouts s n).rd G0 I0 = s.rd G0 I0 :=
  State.convTimeouts_keeps (Keeps.rd hF I0 (s.rd G0 I0)) s n rfl

theorem State.fallout_rd (s : State) {G0 : Fld} {I0 : List Nat} (hF : hasFld opFieldsFallout G0 = false) :
    (State.fallout s).rd G0 I0 = s.rd G0 I0 :=
  State.fallout_keeps (Keeps.rd hF I0 (s.rd G0 I0)) s rfl

theorem State.healthAgain_rd (s : State) {G0 : Fld} {I0 : List Nat} (hF : hasFld ⟨[.MGMT_HEALTH_STAGE], [], [], false⟩ G0 = false) :
    (State.healthAgain s).rd G0 I0 = s.rd G0 I0 :=
  State.healthAgain_keeps (Keeps.rd hF I0 (s.rd G0 I0)) s rfl

theorem State.levelsUsed_rd (s : State) {G0 : Fld} {I0 : List Nat} (hF : hasFld ⟨[.LS_DBG_STAT_USED], [], [], false⟩ G0 = false) :
    (State.levelsUsed s).rd G0 I0 = s.rd G0 I0 :=
  State.levelsUsed_keeps (Keeps.rd hF I0 (s.rd G0 I0)) s rfl

theorem State.cause_rd (s : State) (f : Fld) {G0 : Fld} {I0 : List Nat} (hF : hasFld ⟨[f], [], [], false⟩ G0 = false) :
    (State.cause s f).rd G0 I0 = s.rd G0 I0 :=
  State.cause_keeps (Keeps.rd hF I0 (s.rd G0 I0)) s rfl

theorem State.leaveReset_rd (s : State) {G0 : Fld} {I0 : List Nat} (hF : hasFld ⟨[], [], [], false⟩ G0 = false) :
    (State.leaveReset s).rd G0 I0 = s.rd G0 I0 :=
  State.leaveReset_keeps (Keeps.rd hF I0 (s.rd G0 I0)) s rfl

theorem State.windowsFlush_rd (s : State) {G0 : Fld} {I0 : List Nat} (hF : hasFld ⟨[.HA_STAT_SF_LEVEL, .RC_WB_CNT_COUNT], [], [], false⟩ G0 = false) :
    (State.windowsFlush s).rd G0 I0 = s.rd G0 I0 :=
  State.windowsFlush_keeps (Keeps.rd hF I0 (s.rd G0 I0)) s rfl

theorem State.ringsStop_rd (s : State) {G0 : Fld} {I0 : List Nat} (hF : hasFld opFieldsRingsStop G0 = false) :
    (State.ringsStop s).rd G0 I0 = s.rd G0 I0 :=
  State.ringsStop_keeps (Keeps.rd hF I0 (s.rd G0 I0)) s rfl

theorem State.releasesAgain_rd (s : State) {G0 : Fld} {I0 : List Nat} (hF : hasFld ⟨[], [], [], false⟩ G0 = false) :
    (State.releasesAgain s).rd G0 I0 = s.rd G0 I0 :=
  State.releasesAgain_keeps (Keeps.rd hF I0 (s.rd G0 I0)) s rfl

theorem State.stage2_rd (s : State) {G0 : Fld} {I0 : List Nat} (hF : hasFld ⟨[.BOOT_STAT_STAGE], [], [], false⟩ G0 = false) :
    (State.stage2 s).rd G0 I0 = s.rd G0 I0 :=
  State.stage2_keeps (Keeps.rd hF I0 (s.rd G0 I0)) s rfl

theorem State.hubReset_rd (s : State) {G0 : Fld} {I0 : List Nat} (hF : hasFld opFieldsHubReset G0 = false) :
    (State.hubReset s).rd G0 I0 = s.rd G0 I0 :=
  State.hubReset_keeps (Keeps.rd hF I0 (s.rd G0 I0)) s rfl

theorem State.slotTry_rd (s : State) (d k : Nat) (sig : Bool) {G0 : Fld} {I0 : List Nat} (hF : hasFld ⟨[.LS_ERR_CODE, .LS_ERR_SOURCE, .LS_ERR_VALID, .LS_VER_CNT_COUNT], [], [], false⟩ G0 = false) :
    (State.slotTry s d k sig).2.rd G0 I0 = s.rd G0 I0 :=
  State.slotTry_keeps (Keeps.rd hF I0 (s.rd G0 I0)) s d k sig rfl

theorem State.slotTake_rd (s : State) (d k : Nat) {G0 : Fld} {I0 : List Nat} (hF : hasFld ⟨[.BOOT_STAT_SLOT, .LS_STAT_READY, .LS_SVN_SVN], [], [], false⟩ G0 = false) :
    (State.slotTake s d k).rd G0 I0 = s.rd G0 I0 :=
  State.slotTake_keeps (Keeps.rd hF I0 (s.rd G0 I0)) s d k rfl

theorem State.recover_rd (s : State) {G0 : Fld} {I0 : List Nat} (hF : hasFld ⟨[.BOOT_STAT_STAGE], [], [], false⟩ G0 = false) :
    (State.recover s).rd G0 I0 = s.rd G0 I0 :=
  State.recover_keeps (Keeps.rd hF I0 (s.rd G0 I0)) s rfl

theorem State.slotEither_rd (s : State) (d k : Nat) (sigA sigB : Bool) {G0 : Fld} {I0 : List Nat} (hF : hasFld ⟨[.LS_ERR_CODE, .LS_ERR_SOURCE, .LS_ERR_VALID, .LS_VER_CNT_COUNT], [], [], false⟩ G0 = false) :
    (State.slotEither s d k sigA sigB).2.rd G0 I0 = s.rd G0 I0 :=
  State.slotEither_keeps (Keeps.rd hF I0 (s.rd G0 I0)) s d k sigA sigB rfl

theorem State.slotBoot_rd (s : State) (d k k' : Nat) {G0 : Fld} {I0 : List Nat} (hF : hasFld ⟨[.BOOT_STAT_FALLBACK, .BOOT_STAT_SLOT, .BOOT_STAT_STAGE, .LS_STAT_READY, .LS_SVN_SVN], [], [], false⟩ G0 = false) :
    (State.slotBoot s d k k').rd G0 I0 = s.rd G0 I0 :=
  State.slotBoot_keeps (Keeps.rd hF I0 (s.rd G0 I0)) s d k k' rfl

theorem State.slotCold_rd (s : State) (c : Nat) {G0 : Fld} {I0 : List Nat} (hF : hasFld ⟨[.BOOT_CFG_NEXT_SLOT, .BOOT_CFG_NO_AUTOLOAD, .BOOT_STAT_DIR_COPY], [], [], false⟩ G0 = false) :
    (State.slotCold s c).rd G0 I0 = s.rd G0 I0 :=
  State.slotCold_keeps (Keeps.rd hF I0 (s.rd G0 I0)) s c rfl

theorem State.firmwareBy_rd (s : State) (c d : Nat) (sigA sigB : Bool) {G0 : Fld} {I0 : List Nat} (hF : hasFld opFieldsFirmwareBy G0 = false) :
    (State.firmwareBy s c d sigA sigB).rd G0 I0 = s.rd G0 I0 :=
  State.firmwareBy_keeps (Keeps.rd hF I0 (s.rd G0 I0)) s c d sigA sigB rfl

theorem State.firmware_rd (s : State) (sigA sigB : Bool) {G0 : Fld} {I0 : List Nat} (hF : hasFld opFieldsFirmware G0 = false) :
    (State.firmware s sigA sigB).rd G0 I0 = s.rd G0 I0 :=
  State.firmware_keeps (Keeps.rd hF I0 (s.rd G0 I0)) s sigA sigB rfl

theorem State.fuseStage_rd (s : State) (fitted : Nat) (fuses : List (Fin 8 × BitVec 2)) {G0 : Fld} {I0 : List Nat} (hF : hasFld opFieldsFuseStage G0 = false) :
    (State.fuseStage s fitted fuses).rd G0 I0 = s.rd G0 I0 :=
  State.fuseStage_keeps (Keeps.rd hF I0 (s.rd G0 I0)) s fitted fuses rfl

theorem State.clocksStart_rd (s : State) (srcOk : Bool) {G0 : Fld} {I0 : List Nat} (hF : hasFld ⟨[.CLK_MON_FAIL_EV, .CLK_MON_REF_OK, .CLK_SRC_ACTIVE, .CLK_SRC_DEAD_RECK, .CLK_SRC_GLIDING, .SX_STAT_DEAD_RECK], [], [], false⟩ G0 = false) :
    (State.clocksStart s srcOk).rd G0 I0 = s.rd G0 I0 :=
  State.clocksStart_keeps (Keeps.rd hF I0 (s.rd G0 I0)) s srcOk rfl

theorem State.meshOn_rd (s : State) (site : Nat) {G0 : Fld} {I0 : List Nat} (hF : hasFld ⟨[.NOC_NI_CTL_EN, .NOC_RTR_PORT_EN], [], [], false⟩ G0 = false) :
    (State.meshOn s site).rd G0 I0 = s.rd G0 I0 :=
  State.meshOn_keeps (Keeps.rd hF I0 (s.rd G0 I0)) s site rfl

theorem State.lifeLoad_rd (s : State) (n : Nat) {G0 : Fld} {I0 : List Nat} (hF : hasFld ⟨[.TEL_HOURS_HOURS, .TEL_LIFE_PPM], [], [], false⟩ G0 = false) :
    (State.lifeLoad s n).rd G0 I0 = s.rd G0 I0 :=
  State.lifeLoad_keeps (Keeps.rd hF I0 (s.rd G0 I0)) s n rfl

theorem State.servicesUp_rd (s : State) {G0 : Fld} {I0 : List Nat} (hF : hasFld opFieldsServicesUp G0 = false) :
    (State.servicesUp s).rd G0 I0 = s.rd G0 I0 :=
  State.servicesUp_keeps (Keeps.rd hF I0 (s.rd G0 I0)) s rfl

theorem State.flashReads_rd (s : State) (octal : Bool) {G0 : Fld} {I0 : List Nat} (hF : hasFld ⟨[], [], [], false⟩ G0 = false) :
    (State.flashReads s octal).rd G0 I0 = s.rd G0 I0 :=
  State.flashReads_keeps (Keeps.rd hF I0 (s.rd G0 I0)) s octal rfl

theorem State.repairsLoad_rd (s : State) (n : Nat) {G0 : Fld} {I0 : List Nat} (hF : hasFld ⟨[.SEC_COLMAP_ACTIVE, .SEC_COLMAP_DEFECTS, .SEC_COLMAP_FIELD], [], [], false⟩ G0 = false) :
    (State.repairsLoad s n).rd G0 I0 = s.rd G0 I0 :=
  State.repairsLoad_keeps (Keeps.rd hF I0 (s.rd G0 I0)) s n rfl

theorem State.transportKey_rd (s : State) (n : Nat) {G0 : Fld} {I0 : List Nat} (hF : hasFld ⟨[], [], [], false⟩ G0 = false) :
    (State.transportKey s n).rd G0 I0 = s.rd G0 I0 :=
  State.transportKey_keeps (Keeps.rd hF I0 (s.rd G0 I0)) s n rfl

theorem State.rknDefect_rd (s : State) (n k c b : Nat) {G0 : Fld} {I0 : List Nat} (hF : hasFld opFieldsRknDefect G0 = false) :
    (State.rknDefect s n k c b).rd G0 I0 = s.rd G0 I0 :=
  State.rknDefect_keeps (Keeps.rd hF I0 (s.rd G0 I0)) s n k c b rfl

theorem State.railStack_rd (s : State) (st : Nat) {G0 : Fld} {I0 : List Nat} (hF : hasFld opFieldsRailStack G0 = false) :
    (State.railStack s st).rd G0 I0 = s.rd G0 I0 :=
  State.railStack_keeps (Keeps.rd hF I0 (s.rd G0 I0)) s st rfl

theorem State.bankRail_rd (s : State) (n k : Nat) (up : Bool) {G0 : Fld} {I0 : List Nat} (hF : hasFld ⟨[], [], [], false⟩ G0 = false) :
    (State.bankRail s n k up).rd G0 I0 = s.rd G0 I0 :=
  State.bankRail_keeps (Keeps.rd hF I0 (s.rd G0 I0)) s n k up rfl

theorem State.setLife_rd (s : State) (n : Nat) (x : LifeRt) {G0 : Fld} {I0 : List Nat} (hF : hasFld ⟨[], [], [], false⟩ G0 = false) :
    (State.setLife s n x).rd G0 I0 = s.rd G0 I0 :=
  State.setLife_keeps (Keeps.rd hF I0 (s.rd G0 I0)) s n x rfl

theorem State.lsRefuse_rd (s : State) (m : Mail) (code rst : Nat) {G0 : Fld} {I0 : List Nat} (hF : hasFld opFieldsLsRefuse G0 = false) :
    (State.lsRefuse s m code rst).rd G0 I0 = s.rd G0 I0 :=
  State.lsRefuse_keeps (Keeps.rd hF I0 (s.rd G0 I0)) s m code rst rfl

theorem State.lsRefuseOpen_rd (s : State) (m : Mail) (rst : Nat) {G0 : Fld} {I0 : List Nat} (hF : hasFld opFieldsLsRefuseOpen G0 = false) :
    (State.lsRefuseOpen s m rst).rd G0 I0 = s.rd G0 I0 :=
  State.lsRefuseOpen_keeps (Keeps.rd hF I0 (s.rd G0 I0)) s m rst rfl

theorem State.senderRefused_rd (s : State) (m : Mail) {G0 : Fld} {I0 : List Nat} (hF : hasFld opFieldsSenderRefused G0 = false) :
    (State.senderRefused s m).rd G0 I0 = s.rd G0 I0 :=
  State.senderRefused_keeps (Keeps.rd hF I0 (s.rd G0 I0)) s m rfl

theorem State.badLength_rd (s : State) (m : Mail) {G0 : Fld} {I0 : List Nat} (hF : hasFld opFieldsBadLength G0 = false) :
    (State.badLength s m).rd G0 I0 = s.rd G0 I0 :=
  State.badLength_keeps (Keeps.rd hF I0 (s.rd G0 I0)) s m rfl

theorem State.setSession_rd (s : State) (v : Nat) (x : Option LsSession) {G0 : Fld} {I0 : List Nat} (hF : hasFld ⟨[], [], [], false⟩ G0 = false) :
    (State.setSession s v x).rd G0 I0 = s.rd G0 I0 :=
  State.setSession_keeps (Keeps.rd hF I0 (s.rd G0 I0)) s v x rfl

theorem State.arbAdvance_rd (s : State) (c v : Nat) {G0 : Fld} {I0 : List Nat} (hF : hasFld ⟨[.LS_ARB_SPENT, .LS_ARB_VALUE, .MGMT_HEALTH_STAGE, .MGMT_HEALTH_ZERO], [], [], false⟩ G0 = false) :
    (State.arbAdvance s c v).rd G0 I0 = s.rd G0 I0 :=
  State.arbAdvance_keeps (Keeps.rd hF I0 (s.rd G0 I0)) s c v rfl

theorem State.lifecycleTo_rd (s : State) (x : Nat) {G0 : Fld} {I0 : List Nat} (hF : hasFld ⟨[.LS_DBG_STAT_JTAG_LEVEL, .LS_DBG_STAT_PCIE_LEVEL, .LS_STAT_LIFECYCLE], [], [], false⟩ G0 = false) :
    (State.lifecycleTo s x).rd G0 I0 = s.rd G0 I0 :=
  State.lifecycleTo_keeps (Keeps.rd hF I0 (s.rd G0 I0)) s x rfl

theorem State.fuse_rd (s : State) (bank item v : Nat) {G0 : Fld} {I0 : List Nat} (hF : hasFld ⟨[], [], [], false⟩ G0 = false) :
    (State.fuse s bank item v).rd G0 I0 = s.rd G0 I0 :=
  State.fuse_keeps (Keeps.rd hF I0 (s.rd G0 I0)) s bank item v rfl

theorem State.ownerFuses_rd (s : State) (m : Mail) (k kek : Nat) {G0 : Fld} {I0 : List Nat} (hF : hasFld ⟨[], [], [], false⟩ G0 = false) :
    (State.ownerFuses s m k kek).rd G0 I0 = s.rd G0 I0 :=
  State.ownerFuses_keeps (Keeps.rd hF I0 (s.rd G0 I0)) s m k kek rfl

theorem State.setPel_rd (s : State) (p : Nat) (x : PelRt) {G0 : Fld} {I0 : List Nat} (hF : hasFld ⟨[], [], [], false⟩ G0 = false) :
    (State.setPel s p x).rd G0 I0 = s.rd G0 I0 :=
  State.setPel_keeps (Keeps.rd hF I0 (s.rd G0 I0)) s p x rfl

theorem State.giveChallenge_rd (s : State) (p : Nat) {G0 : Fld} {I0 : List Nat} (hF : hasFld ⟨[.PEL_AUTH_STAT_BUSY], [], [], false⟩ G0 = false) :
    (State.giveChallenge s p).rd G0 I0 = s.rd G0 I0 :=
  State.giveChallenge_keeps (Keeps.rd hF I0 (s.rd G0 I0)) s p rfl

theorem State.attemptOver_rd (s : State) (p : Nat) (ok : Bool) {G0 : Fld} {I0 : List Nat} (hF : hasFld ⟨[.PEL_AUTH_STAT_OK], [], [], false⟩ G0 = false) :
    (State.attemptOver s p ok).rd G0 I0 = s.rd G0 I0 :=
  State.attemptOver_keeps (Keeps.rd hF I0 (s.rd G0 I0)) s p ok rfl

theorem State.attemptFails_rd (s : State) (p : Nat) (code : Option Nat) {G0 : Fld} {I0 : List Nat} (hF : hasFld ⟨[.LS_DBG_STAT_FAILS, .LS_ERR_CODE, .LS_ERR_SOURCE, .LS_ERR_VALID, .PEL_AUTH_STAT_OK], [], [], false⟩ G0 = false) :
    (State.attemptFails s p code).rd G0 I0 = s.rd G0 I0 :=
  State.attemptFails_keeps (Keeps.rd hF I0 (s.rd G0 I0)) s p code rfl

theorem State.attemptWins_rd (s : State) (p l : Nat) {G0 : Fld} {I0 : List Nat} (hF : hasFld ⟨[.LS_DBG_STAT_FAILS, .LS_DBG_STAT_JTAG_LEVEL, .LS_DBG_STAT_PCIE_LEVEL, .LS_DBG_STAT_USED, .PEL_AUTH_STAT_OK], [], [], false⟩ G0 = false) :
    (State.attemptWins s p l).rd G0 I0 = s.rd G0 I0 :=
  State.attemptWins_keeps (Keeps.rd hF I0 (s.rd G0 I0)) s p l rfl

theorem State.dirWrite_rd (s : State) (c d : Nat) {G0 : Fld} {I0 : List Nat} (hF : hasFld ⟨[], [], [], false⟩ G0 = false) :
    (State.dirWrite s c d).rd G0 I0 = s.rd G0 I0 :=
  State.dirWrite_keeps (Keeps.rd hF I0 (s.rd G0 I0)) s c d rfl

theorem State.dirNext_rd (s : State) (d : Nat) {G0 : Fld} {I0 : List Nat} (hF : hasFld ⟨[], [], [], false⟩ G0 = false) :
    (State.dirNext s d).rd G0 I0 = s.rd G0 I0 :=
  State.dirNext_keeps (Keeps.rd hF I0 (s.rd G0 I0)) s d rfl

theorem State.recoveryFails_rd (s : State) (err : Nat) {G0 : Fld} {I0 : List Nat} (hF : hasFld ⟨[.LS_RCV_STAT_ERR, .LS_RCV_STAT_STATE], [], [], false⟩ G0 = false) :
    (State.recoveryFails s err).rd G0 I0 = s.rd G0 I0 :=
  State.recoveryFails_keeps (Keeps.rd hF I0 (s.rd G0 I0)) s err rfl

theorem State.setScrub_rd (s : State) (n : Nat) (x : ScrubRt) {G0 : Fld} {I0 : List Nat} (hF : hasFld ⟨[], [], [], false⟩ G0 = false) :
    (State.setScrub s n x).rd G0 I0 = s.rd G0 I0 :=
  State.setScrub_keeps (Keeps.rd hF I0 (s.rd G0 I0)) s n x rfl

theorem State.scrubGo_rd (s : State) (n k : Nat) {G0 : Fld} {I0 : List Nat} (hF : hasFld ⟨[.SCRUB_STAT_ACTIVE, .SCRUB_STAT_DONE, .SCRUB_STAT_SECTOR], [], [], false⟩ G0 = false) :
    (State.scrubGo s n k).rd G0 I0 = s.rd G0 I0 :=
  State.scrubGo_keeps (Keeps.rd hF I0 (s.rd G0 I0)) s n k rfl

theorem State.scrubStart_rd (s : State) (n : Nat) {G0 : Fld} {I0 : List Nat} (hF : hasFld ⟨[.SCRUB_STAT_ACTIVE, .SCRUB_STAT_DONE, .SCRUB_STAT_SECTOR], [], [], false⟩ G0 = false) :
    (State.scrubStart s n).rd G0 I0 = s.rd G0 I0 :=
  State.scrubStart_keeps (Keeps.rd hF I0 (s.rd G0 I0)) s n rfl

theorem State.scrubFound_rd (s : State) (n k a cor unc : Nat) (fails : Bool) (slow : Nat) {G0 : Fld} {I0 : List Nat} (hF : hasFld opFieldsScrubFound G0 = false) :
    (State.scrubFound s n k a cor unc fails slow).rd G0 I0 = s.rd G0 I0 :=
  State.scrubFound_keeps (Keeps.rd hF I0 (s.rd G0 I0)) s n k a cor unc fails slow rfl

theorem State.flashReply_rd (s : State) (m : Mail) (rst : Nat) (body : List Byte) {G0 : Fld} {I0 : List Nat} (hF : hasFld opFieldsFlashReply G0 = false) :
    (State.flashReply s m rst body).rd G0 I0 = s.rd G0 I0 :=
  State.flashReply_keeps (Keeps.rd hF I0 (s.rd G0 I0)) s m rst body rfl

theorem State.program_rd (s : State) (a : Nat) (l0 : List Byte) {G0 : Fld} {I0 : List Nat} (hF : hasFld ⟨[], [], [], false⟩ G0 = false) :
    (State.program s a l0).rd G0 I0 = s.rd G0 I0 :=
  State.program_keeps (Keeps.rd hF I0 (s.rd G0 I0)) s a l0 rfl

theorem State.eraseAt_rd (s : State) (a : Nat) {G0 : Fld} {I0 : List Nat} (hF : hasFld ⟨[], [], [], false⟩ G0 = false) :
    (State.eraseAt s a).rd G0 I0 = s.rd G0 I0 :=
  State.eraseAt_keeps (Keeps.rd hF I0 (s.rd G0 I0)) s a rfl

theorem State.flashForget_rd (s : State) (a n : Nat) {G0 : Fld} {I0 : List Nat} (hF : hasFld ⟨[], [], [], false⟩ G0 = false) :
    (State.flashForget s a n).rd G0 I0 = s.rd G0 I0 :=
  State.flashForget_keeps (Keeps.rd hF I0 (s.rd G0 I0)) s a n rfl

theorem State.readEffect_rd (s : State) (w : Writer) (r : Reg) (i : List Nat) {G0 : Fld} {I0 : List Nat} (hF : hasFld opFieldsReadEffect G0 = false) :
    (State.readEffect s w r i).rd G0 I0 = s.rd G0 I0 :=
  State.readEffect_keeps (Keeps.rd hF I0 (s.rd G0 I0)) s w r i rfl

theorem State.chkNow_rd (s : State) (r : Reg) (i : List Nat) (rx : List (BitVec 64)) {G0 : Fld} {I0 : List Nat} (hF : hasFld ⟨[.CL_ERR_CNT_COUNT, .CL_STAT_CHK_LOCK, .TR_ERR_CNT_COUNT, .TR_STAT_CHK_LOCK], [], [], false⟩ G0 = false) :
    (State.chkNow s r i rx).rd G0 I0 = s.rd G0 I0 :=
  State.chkNow_keeps (Keeps.rd hF I0 (s.rd G0 I0)) s r i rx rfl

theorem State.readReg_rd (s : State) (w : Writer) (r : Reg) (i : List Nat) (rx : List (BitVec 64)) {G0 : Fld} {I0 : List Nat} (hF : hasFld opFieldsReadReg G0 = false) :
    (State.readReg s w r i rx).2.rd G0 I0 = s.rd G0 I0 :=
  State.readReg_keeps (Keeps.rd hF I0 (s.rd G0 I0)) s w r i rx rfl

theorem State.read32_rd (s : State) (w : Writer) (a : Nat) (env : RegEnv) {G0 : Fld} {I0 : List Nat} (hF : hasFld opFieldsRead32 G0 = false) :
    (State.read32 s w a env).2.rd G0 I0 = s.rd G0 I0 :=
  State.read32_keeps (Keeps.rd hF I0 (s.rd G0 I0)) s w a env rfl

theorem State.peek32_rd (s : State) (w : Writer) (a : Nat) {G0 : Fld} {I0 : List Nat} (hF : hasFld ⟨[], [], [], false⟩ G0 = false) :
    (State.peek32 s w a).2.rd G0 I0 = s.rd G0 I0 :=
  State.peek32_keeps (Keeps.rd hF I0 (s.rd G0 I0)) s w a rfl

theorem State.engWritten_rd (s : State) (w : Writer) (r : Reg) (i : List Nat) (v : Nat) {G0 : Fld} {I0 : List Nat} (hF : hasFld opFieldsEngWritten G0 = false) :
    (State.engWritten s w r i v).rd G0 I0 = s.rd G0 I0 :=
  State.engWritten_keeps (Keeps.rd hF I0 (s.rd G0 I0)) s w r i v rfl

theorem State.fabricWritten_rd (s : State) (w : Writer) (r : Reg) (i : List Nat) (v : Nat) (env : RegEnv) {G0 : Fld} {I0 : List Nat} (hF : hasFld opFieldsFabricWritten G0 = false) :
    (State.fabricWritten s w r i v env).rd G0 I0 = s.rd G0 I0 :=
  State.fabricWritten_keeps (Keeps.rd hF I0 (s.rd G0 I0)) s w r i v env rfl

theorem State.nocWritten_rd (s : State) (w : Writer) (r : Reg) (i : List Nat) (v : Nat) (bs : BearingSet) {G0 : Fld} {I0 : List Nat} (hF : hasFld opFieldsNocWritten G0 = false) :
    (State.nocWritten s w r i v bs).rd G0 I0 = s.rd G0 I0 :=
  State.nocWritten_keeps (Keeps.rd hF I0 (s.rd G0 I0)) s w r i v bs rfl

theorem State.memWritten_rd (s : State) (w : Writer) (r : Reg) (i : List Nat) (v : Nat) {G0 : Fld} {I0 : List Nat} (hF : hasFld opFieldsMemWritten G0 = false) :
    (State.memWritten s w r i v).rd G0 I0 = s.rd G0 I0 :=
  State.memWritten_keeps (Keeps.rd hF I0 (s.rd G0 I0)) s w r i v rfl

theorem State.hostWritten_rd (s : State) (w : Writer) (r : Reg) (i : List Nat) (v : Nat) {G0 : Fld} {I0 : List Nat} (hF : hasFld opFieldsHostWritten G0 = false) :
    (State.hostWritten s w r i v).rd G0 I0 = s.rd G0 I0 :=
  State.hostWritten_keeps (Keeps.rd hF I0 (s.rd G0 I0)) s w r i v rfl

theorem State.helmWritten_rd (s : State) (w : Writer) (r : Reg) (i : List Nat) (v : Nat) {G0 : Fld} {I0 : List Nat} (hF : hasFld ⟨[.HELM_CORE_STAT_LEVEL, .HELM_IC_PEND_BITS, .HELM_PATCH_ADDR_EN, .HELM_PATCH_ADDR_OFF, .HELM_PATCH_DATA_WORD], [], [], false⟩ G0 = false) :
    (State.helmWritten s w r i v).rd G0 I0 = s.rd G0 I0 :=
  State.helmWritten_keeps (Keeps.rd hF I0 (s.rd G0 I0)) s w r i v rfl

theorem State.spineWritten_rd (s : State) (w : Writer) (i : List Nat) (v : Nat) {G0 : Fld} {I0 : List Nat} (hF : hasFld ⟨[.GK_CTL_SPINE], [], [], false⟩ G0 = false) :
    (State.spineWritten s w i v).rd G0 I0 = s.rd G0 I0 :=
  State.spineWritten_keeps (Keeps.rd hF I0 (s.rd G0 I0)) s w i v rfl

theorem State.roleWritten_rd (s : State) (w : Writer) (i : List Nat) (v : Nat) {G0 : Fld} {I0 : List Nat} (hF : hasFld ⟨[.GK_ROLE_COH, .GK_ROLE_XSECT], [], [], false⟩ G0 = false) :
    (State.roleWritten s w i v).rd G0 I0 = s.rd G0 I0 :=
  State.roleWritten_keeps (Keeps.rd hF I0 (s.rd G0 I0)) s w i v rfl

theorem State.msixWrite_rd (s : State) (f a v : Nat) {G0 : Fld} {I0 : List Nat} (hF : hasFld ⟨[], [], [], false⟩ G0 = false) :
    (State.msixWrite s f a v).rd G0 I0 = s.rd G0 I0 :=
  State.msixWrite_keeps (Keeps.rd hF I0 (s.rd G0 I0)) s f a v rfl

theorem State.narrowWrite_rd (s : State) (w : Writer) (off v : Nat) {G0 : Fld} {I0 : List Nat} (hF : hasFld ⟨[], [], [], false⟩ G0 = false) :
    (State.narrowWrite s w off v).rd G0 I0 = s.rd G0 I0 :=
  State.narrowWrite_keeps (Keeps.rd hF I0 (s.rd G0 I0)) s w off v rfl

theorem State.pelRuns_rd (s : State) (p : PelSrc) (status : Nat) (data : Option Nat) (off : Option Nat) {G0 : Fld} {I0 : List Nat} (hF : hasFld ⟨[.PEL_STAT_BUSY], [], [], false⟩ G0 = false) :
    (State.pelRuns s p status data off).rd G0 I0 = s.rd G0 I0 :=
  State.pelRuns_keeps (Keeps.rd hF I0 (s.rd G0 I0)) s p status data off rfl

theorem State.pelLeft_rd (s : State) (p : Nat) {G0 : Fld} {I0 : List Nat} (hF : hasFld ⟨[], [], [], false⟩ G0 = false) :
    (State.pelLeft s p).rd G0 I0 = s.rd G0 I0 :=
  State.pelLeft_keeps (Keeps.rd hF I0 (s.rd G0 I0)) s p rfl

theorem State.pelGet_rd (s : State) (p : PelSrc) (r : Reg) {G0 : Fld} {I0 : List Nat} (hF : hasFld opFieldsPelGet G0 = false) :
    (State.pelGet s p r).2.rd G0 I0 = s.rd G0 I0 :=
  State.pelGet_keeps (Keeps.rd hF I0 (s.rd G0 I0)) s p r rfl

theorem State.tapLoad_rd (s : State) (code act : Nat) {G0 : Fld} {I0 : List Nat} (hF : hasFld ⟨[], [], [], false⟩ G0 = false) :
    (State.tapLoad s code act).rd G0 I0 = s.rd G0 I0 :=
  State.tapLoad_keeps (Keeps.rd hF I0 (s.rd G0 I0)) s code act rfl

theorem State.scanDrive_rd (s : State) (how : Nat) (bits : Option Nat) {G0 : Fld} {I0 : List Nat} (hF : hasFld ⟨[], [], [], false⟩ G0 = false) :
    (State.scanDrive s how bits).rd G0 I0 = s.rd G0 I0 :=
  State.scanDrive_keeps (Keeps.rd hF I0 (s.rd G0 I0)) s how bits rfl

theorem State.extest_rd (s : State) (code how pins bits : Nat) {G0 : Fld} {I0 : List Nat} (hF : hasFld ⟨[], [], [], false⟩ G0 = false) :
    (State.extest s code how pins bits).rd G0 I0 = s.rd G0 I0 :=
  State.extest_keeps (Keeps.rd hF I0 (s.rd G0 I0)) s code how pins bits rfl

end Sys2Proof.Machine
end

