-- ==== Sys2Proof/Laws/Ops.lean ====
section
/-! SUPPORT. What the shared operations do: the field or entry they write reads as written, a block's own state reads back, a
write of a register that is reached is carried out, an event joins its site's queue, an exchange gets its reply. -/

namespace Sys2Proof.Machine

set_option Elab.async false
set_option linter.all false

/-! ## A block's own state -/

theorem State.setLife_life (s : State) (n n' : Nat) (x : LifeRt) :
    (s.setLife n x).life n' = if n = n' then x else s.life n' := by
  simp only [State.setLife, State.life, smGet_smPut, List.cons.injEq, and_true]

theorem State.spineMoved_synth (s : State) (k f : Nat) : (s.spineMoved k f).synth = s.synth :=
  State.spineMoved_keeps (Keeps.part (p := .synth) (by decide +kernel) (by decide) s) s k f rfl

theorem State.setSynth_synthAt (s : State) (n k n' k' : Nat) (x : Synth) :
    (s.setSynth n k x).synthAt n' k' = if n = n' ∧ k = k' then x else s.synthAt n' k' := by
  have h : (s.setSynth n k x).synth = smPut s.synth [n, k] x {} := by
    unfold State.setSynth
    dsimp only
    split
    · exact State.spineMoved_synth _ _ _
    · rfl
  simp only [State.synthAt, h, smGet_smPut, List.cons.injEq, and_true]

theorem State.setFvs_fvsAt (s : State) (n n' : Nat) (x : Fvs) :
    (s.setFvs n x).fvsAt n' = if n = n' then x else s.fvsAt n' := by
  simp only [State.setFvs, State.fvsAt, smGet_smPut, List.cons.injEq, and_true]

theorem State.setEngine_engine (s : State) (e e' : Nat) (r : EngRt) :
    (s.setEngine e r).engine e' = if e = e' then r else s.engine e' := by
  simp only [State.setEngine, State.engine, smGet_smPut, List.cons.injEq, and_true]

theorem State.setSector_sector (s : State) (d k d' k' : Nat) (x : SecRt) :
    (s.setSector d k x).sector d' k' = if d = d' ∧ k = k' then x else s.sector d' k' := by
  simp only [State.setSector, State.sector, smGet_smPut, List.cons.injEq, and_true]

theorem State.setLink_link (s : State) (l l' : Nat) (x : GkLink) :
    (s.setLink l x).link l' = if l = l' then x else s.link l' := by
  simp only [State.setLink, State.link, smGet_smPut, List.cons.injEq, and_true]

theorem State.setDir_dir (s : State) (n k n' k' : Nat) (x : GkDir) :
    (s.setDir n k x).dir n' k' = if n = n' ∧ k = k' then x else s.dir n' k' := by
  simp only [State.setDir, State.dir, smGet_smPut, List.cons.injEq, and_true]

theorem State.setPool_pool (s : State) (n k p n' k' p' : Nat) (x : GkPool) :
    (s.setPool n k p x).pool n' k' p' = if n = n' ∧ k = k' ∧ p = p' then x else s.pool n' k' p' := by
  simp only [State.setPool, State.pool, smGet_smPut, List.cons.injEq, and_true]

theorem State.setStk_stk (s : State) (st st' : Nat) (x : StackRt) :
    (s.setStk st x).stk st' = if st = st' then x else s.stk st' := by
  simp only [State.setStk, State.stk, smGet_smPut, List.cons.injEq, and_true]

theorem State.setPc_pc (s : State) (st c st' c' : Nat) (x : PcRt) :
    (s.setPc st c x).pc st' c' = if st = st' ∧ c = c' then x else s.pc st' c' := by
  simp only [State.setPc, State.pc, smGet_smPut, List.cons.injEq, and_true]

theorem State.setLane_laneRt (s : State) (l l' : Nat) (x : LaneRt) :
    (s.setLane l x).laneRt l' = if l = l' then x else s.laneRt l' := by
  simp only [State.setLane, State.laneRt, smGet_smPut, List.cons.injEq, and_true]

theorem State.setTrunk_trunkRt (s : State) (t t' : Nat) (x : LaneRt) :
    (s.setTrunk t x).trunkRt t' = if t = t' then x else s.trunkRt t' := by
  simp only [State.setTrunk, State.trunkRt, smGet_smPut, List.cons.injEq, and_true]

theorem State.setHelm_helmRt (s : State) (c c' : Nat) (x : HelmRt) :
    (s.setHelm c x).helmRt c' = if c = c' then x else s.helmRt c' := by
  simp only [State.setHelm, State.helmRt, smGet_smPut, List.cons.injEq, and_true]

theorem State.setRc_rcLine (s : State) (n line n' line' : Nat) (x : RcLine) :
    (s.setRc n line x).rcLine n' line' = if n = n' ∧ line = line' then x else s.rcLine n' line' := by
  simp only [State.setRc, State.rcLine, smGet_smPut, List.cons.injEq, and_true]

theorem State.setWbs_wbs (s : State) (n n' : Nat) (l : List RcWb) :
    (s.setWbs n l).wbs n' = if n = n' then l else s.wbs n' := by
  simp only [State.setWbs, State.wbs, smGet_smPut, List.cons.injEq, and_true]

theorem State.setArb_arb (s : State) (k k' : Key) (a : Arb) :
    (s.setArb k a).arb k' = if k = k' then a else s.arb k' := by
  simp only [State.setArb, State.arb, smGet_smPut, List.cons.injEq, and_true]

theorem State.setNi_niRt (s : State) (site i site' i' : Nat) (x : NiRt) :
    (s.setNi site i x).niRt site' i' = if site = site' ∧ i = i' then x else s.niRt site' i' := by
  simp only [State.setNi, State.niRt, smGet_smPut, List.cons.injEq, and_true]

theorem State.setSteward_steward (s : State) (n n' : Nat) (q : Steward) :
    (s.setSteward n q).steward n' = if n = n' then q else s.steward n' := by
  simp only [State.setSteward, State.steward, smGet_smPut, List.cons.injEq, and_true]

theorem State.setGov_gov (s : State) (g g' : Nat) (x : Gov) :
    (s.setGov g x).gov g' = if g = g' then x else s.gov g' := by
  simp only [State.setGov, State.gov, smGet_smPut, List.cons.injEq, and_true]

theorem State.setDieRt_dieAt (s : State) (n n' : Nat) (x : DieRt) :
    (s.setDieRt n x).dieAt n' = if n = n' then x else s.dieAt n' := by
  simp only [State.setDieRt, State.dieAt, smGet_smPut, List.cons.injEq, and_true]

theorem State.setMiss_miss (s : State) (n line n' line' : Nat) (x : RcMiss) :
    (s.setMiss n line x).miss n' line' = if n = n' ∧ line = line' then x else s.miss n' line' := by
  simp only [State.setMiss, State.miss, smGet_smPut, List.cons.injEq, and_true]

theorem State.setHaQ_haQ (s : State) (st st' : Nat) (l : List HaReq) :
    (s.setHaQ st l).haQ st' = if st = st' then l else s.haQ st' := by
  simp only [State.setHaQ, State.haQ, smGet_smPut, List.cons.injEq, and_true]

theorem State.setTx_tx (s : State) (st line st' line' : Nat) (x : HaTx) :
    (s.setTx st line x).tx st' line' = if st = st' ∧ line = line' then x else s.tx st' line' := by
  simp only [State.setTx, State.tx, smGet_smPut, List.cons.injEq, and_true]

theorem State.setQp_qp (s : State) (q q' : Nat) (x : QpRt) :
    (s.setQp q x).qp q' = if q = q' then x else s.qp q' := by
  simp only [State.setQp, State.qp, smGet_smPut, List.cons.injEq, and_true]

theorem State.setVec_vec (s : State) (f v f' v' : Nat) (x : VecRt) :
    (s.setVec f v x).vec f' v' = if f = f' ∧ v = v' then x else s.vec f' v' := by
  simp only [State.setVec, State.vec, smGet_smPut, List.cons.injEq, and_true]

theorem State.setPel_pelRt (s : State) (p p' : Nat) (x : PelRt) :
    (s.setPel p x).pelRt p' = if p = p' then x else s.pelRt p' := by
  simp only [State.setPel, State.pelRt, smGet_smPut, List.cons.injEq, and_true]

theorem State.setScrub_scrubRt (s : State) (n n' : Nat) (x : ScrubRt) :
    (s.setScrub n x).scrubRt n' = if n = n' then x else s.scrubRt n' := by
  simp only [State.setScrub, State.scrubRt, smGet_smPut, List.cons.injEq, and_true]

theorem State.setTxQueue_txQueue (s : State) (p p' : Nat) (l : List TxStamp) :
    (s.setTxQueue p l).txQueue p' = if p = p' then l else s.txQueue p' := by
  simp only [State.setTxQueue, State.txQueue, smGet_smPut, List.cons.injEq, and_true]

/-! ## Fields -/

/-- A counter that stops at its greatest value. -/
theorem State.bump_same (s : State) (f : Fld) (i : List Nat) (n : Nat) :
    (s.bump f i n).rd f i = min (s.rd f i + n) (2 ^ f.spec.width - 1) := by
  unfold State.bump
  rw [State.rd_wr_same]
  exact Nat.mod_eq_of_lt (Nat.lt_of_le_of_lt (Nat.min_le_right _ _) (Nat.sub_lt (Nat.two_pow_pos _) Nat.one_pos))

/-- A counter that wraps. -/
theorem State.incr_same (s : State) (f : Fld) (i : List Nat) :
    (s.incr f i).rd f i = (s.rd f i + 1) % 2 ^ f.spec.width := by
  unfold State.incr
  rw [State.rd_wr_same]

/-- A bit set reads 1. -/
theorem State.setBit_get (s : State) (f : Fld) (i : List Nat) (b : Nat) (hb : b < f.spec.width) :
    ((s.setBit f i b true).rd f i).testBit b = true := by
  unfold State.setBit
  rw [State.rd_wr_same]
  simp [Nat.testBit_mod_two_pow, hb]

/-- A write leaves every other field of every other instance alone. -/
theorem State.rd_wr_ne {s : State} {f g : Fld} {i j : List Nat} {v : Nat} {l : List (Fld × List Nat)} (h : (g, j) ∉ (f, i) :: l) :
    (s.wr f i v).rd g j = s.rd g j := by
  rw [State.rd_wr, if_neg]
  rintro ⟨rfl, rfl⟩
  exact h List.mem_cons_self

/-! ## Time -/

@[simp] theorem State.lapse_now (s : State) (d : Nat) : (s.lapse d).now = s.now + d := rfl

theorem State.lapseTo_now (s : State) (t : Nat) : (s.lapseTo t).now = max s.now t := by
  unfold State.lapseTo
  rw [State.lapse_now]
  omega

/-! ## Writes of commands -/

/-- A command's write of a register that its writer reaches is carried out. -/
theorem State.reach_of {s : State} {w : Writer} {r : Reg} {i : List Nat} (h : s.reaches w r i = true) (v : Nat)
    (k : State → State) : s.reach w r i v k = k s := by
  simp only [State.reaches, Bool.and_eq_true, Bool.not_eq_true', Bool.or_eq_true, decide_eq_true_eq, Bool.and_eq_false_iff,
    beq_eq_false_iff_ne] at h
  obtain ⟨⟨h1, h2⟩, h3⟩ := h
  unfold State.reach
  simp only [h1, Bool.false_eq_true, if_false]
  rcases h2 with h2 | ⟨h2, h4⟩
  · have : ¬ r.site i < 8 := by omega
    rcases h3 with h3 | h3 <;> simp [this, h3]
  · rcases h3 with h3 | h3 <;> rcases h4 with h4 | h4 <;> simp [h2, h3, h4]

/-- A write of a muted function changes nothing. -/
theorem State.reach_mute {s : State} {w : Writer} (h : s.mute w = true) (r : Reg) (i : List Nat) (v : Nat) (k : State → State) :
    s.reach w r i v k = s := by
  simp [State.reach, h]

/-- A next state and a fact of it: how completion statements end. -/
theorem ex_next {P : State → Prop} {x : State} (h : P x) : ∃ t, (Host.Outcome.next x : Ans) = .next t ∧ P t := ⟨x, rfl, h⟩

/-! ## Events -/

/-- A report joins the queue of its own site only. -/
theorem State.push_steward (s : State) (n m : Nat) (r : Report) (h : n ≠ m) : (s.push n r).steward m = s.steward m := by
  unfold State.push
  rw [State.setSteward_steward, if_neg h]

/-- What is emitted stands first, unless scan control holds the pin. -/
theorem State.emit_out (s : State) (o : Out) (h : o.scanned = false) : (s.emit o).out = o :: s.out := by
  simp [State.emit, h]

/-! ## Exchanges -/

/-- A message taken up at its place, of its code, from an allowed sender and of a good length, is carried out on the state
without it. -/
theorem State.message_of {s : State} {n code : Nat} {admin : Bool} {len : Nat → Bool} {m : Mail} (k : Mail → State → State)
    (hm : s.mail[n]? = some m) (hc : mailCode m.req = code) (ha : admin = true → m.admin = true)
    (hl : len m.body.length = true) :
    s.message n code admin len k = k m { s with mail := s.mail.eraseIdx n } := by
  unfold State.message
  rw [hm]
  have : (admin && !m.admin) = false := by
    cases admin
    · rfl
    · simp [ha rfl]
  simp [hc, this, hl]

/-- A message that is not there is not taken up. -/
theorem State.message_none {s : State} {n code : Nat} {admin : Bool} {len : Nat → Bool} (k : Mail → State → State)
    (hm : s.mail[n]? = none) : s.message n code admin len k = s := by
  unfold State.message
  rw [hm]

/-- A function's reply is the one of its descriptor. -/
theorem State.mailAnswer_fn {s : State} {m : Mail} (h : m.src < 8) (rst : Nat) (body : List Byte) :
    s.mailAnswer m rst body = s.fnAnswer m rst body := by
  simp [State.mailAnswer, h]

end Sys2Proof.Machine
end

