-- ==== Sys2Proof/WellFormed.lean ====
section
/-! DEFINITION. Which terms stand for a command of the device, where the operands' types alone do not say so: the sites of
the hub have fewer routers and interfaces than those of a die, a trunk lane is one of 32, a spoke has one end at each
side, an access has a width. `exec` is total and needs none of this; statements about a class of commands may ask for it. -/

namespace Sys2Proof

/-- A router, and a network interface, of a site: 24 and 48 on a fabric die, 16 and 32 on the hub (R161). -/
def routerOk (site : Fin 9) (r : Fin 24) : Bool := decide (site.val < 8) || decide (r.val < 16)
def niOk (site : Fin 9) (ni : Fin 48) : Bool := decide (site.val < 8) || decide (ni.val < 32)

/-- An end of a link (R228): sides 0 and 1 and the spoke end of a die, eight spoke ends at the hub; a spoke end has 32
groups. -/
def endOk (n : Fin 9) (k : Fin 8) : Bool := n.val == 8 || decide (k.val < 3)
def groupOk (n : Fin 9) (k : Fin 8) (g : Fin 96) : Bool := endOk n k && ((decide (n.val < 8) && decide (k.val < 2)) || decide (g.val < 32))

/-- A channel lane, or one of the 32 trunk lanes. -/
def laneOk (trunk : Bool) (l : Fin 224) : Bool := !trunk || decide (l.val < 32)

/-- Widths of a register access. -/
def bytesOk (bytes : Nat) : Bool := bytes == 1 || bytes == 2 || bytes == 4 || bytes == 8

/-- The term stands for a command of the device. -/
def Instr.wf : Instr → Bool
  | .registerWrite _ _ bytes _ _ => bytesOk bytes
  | .rcFieldRead _ _ bytes _ => bytesOk bytes
  | .bitLoRead _ trunk l _ => laneOk trunk l
  | .lossOfSignal trunk l => laneOk trunk l
  | .lossOfLock trunk l => laneOk trunk l
  | .lossConditionEnd trunk l _ => laneOk trunk l
  | .checkerLock trunk l _ => laneOk trunk l
  | .checkerLockLoss trunk l _ => laneOk trunk l
  | .niSend site ni _ _ _ _ _ => niOk site ni
  | .niBounceReceive site ni _ => niOk site ni
  | .relayForward site ni _ => niOk site ni
  | .niDeliver site ni _ _ => niOk site ni
  | .packSend site ni _ => niOk site ni
  | .niResponseTimeout site ni _ => niOk site ni
  | .bearingRead _ site ni _ => niOk site ni
  | .bearingWrite _ site ni _ => niOk site ni
  | .bearingInvalidate _ site ni _ => niOk site ni
  | .routerHeadFlit site r _ _ _ => routerOk site r
  | .stallBounce site r _ _ => routerOk site r
  | .portDrain _ site r _ => routerOk site r
  | .portDrained site r _ => routerOk site r
  | .drainTimeoutBounce site r _ _ => routerOk site r
  | .routerPortConfig _ site r _ _ _ => routerOk site r
  | .linkFrameReceive n k _ g0 g1 g2 _ => groupOk n k g0 && groupOk n k g1 && groupOk n k g2
  | .linkReplay n k _ g => groupOk n k g
  | .poolRetrain n k _ => endOk n k
  | .laneHealthInterval n k _ => endOk n k
  | .spareSwap n k g _ => groupOk n k g
  | .spareRejoin n k g => groupOk n k g
  | .crossingSpareSwap n k g _ => groupOk n k g
  | .crossingSwitchInstant n k g => groupOk n k g
  | .groupRetire n k g _ _ => groupOk n k g
  | .groupConversion n k g => groupOk n k g
  | .gkCmdSwap _ n k g _ => groupOk n k g
  | .gkCmdRetire _ n k g _ => groupOk n k g
  | .synthGlideStep n k => n.val == 8 || decide (k.val < 4)
  | .mailbox _ (some req) => decide (req.length ≤ 4096)
  | .bar4Write _ _ bs => decide (bs.length ≤ 4096)
  | _ => true

end Sys2Proof
end

