-- ==== Sys2Proof/Tests/Slice0.lean ====
section
/-! SUPPORT. Tests of the model and witnesses of its statements: small states, terms that WellFormed refuses, results that the
manual's own words and numbers give, and for every clause of a statement with hypotheses a state that meets them. -/

set_option Elab.async false
set_option maxRecDepth 20000
set_option linter.unusedVariables false

namespace Sys2Proof.Tests

open Sys2Proof Sys2Proof.Machine

/-! ## Small states -/

/-- The reset state with some register fields at given values. -/
def mk (l : List (Fld × List Nat × Nat)) : State :=
  { regs := l.foldl (fun r e => smPut r (fkey e.1 e.2.1) (e.2.2 % 2 ^ e.1.spec.width) (e.1.reset e.2.1)) [] }

/-- A report of a given severity. -/
def rep (sev : Nat) : Report := { code := .fixed 0x0100, sev := sev, die := 0, block := 0 }

/-- A requester holds a grant it has not acted on. -/
def granted (s : State) (g op : Nat) (who : List Nat) : State :=
  s.setGov g { ready := [{ op := op, who := who, units := 1, t := 0 }] }

/-- A requester's request has been withdrawn. -/
def expired (s : State) (g op : Nat) (who : List Nat) : State :=
  s.setGov g { expired := [{ op := op, who := who, units := 1, t := 0 }] }

/-- Die `n` in service. -/
def up (n : Nat) : Fld × List Nat × Nat := (.HUB_DIE_STATE_STATE, [n], 3)

/-- Engine 5, on die 0, in `STATE` `st` at address 100, with control slot `ctl` and data slot `dat` in the word there, and
further register fields `l`. -/
def engAt (st ctl dat : Nat) (l : List (Fld × List Nat × Nat)) : State :=
  (mk ([(.ENG_STATUS_STATE, [5], st), (.ENG_PC_CUR, [5], 100)] ++ l)).winStore 5 1600 16 (ctl * 2 ^ 96 + dat)

/-- The control slot with operation `op`, counter `c` and immediate `imm` (R106). -/
def ctlSlot (op c imm : Nat) : Nat := op * 2 ^ 27 + c * 2 ^ 24 + imm

/-- Queue pair `q` of function `f`, in `STATE` 1 with rings of 16 entries and the CQ head at 5, with descriptors `js` in
progress, and further register fields `l`. -/
def qpOn (f q : Nat) (js : List Job) (l : List (Fld × List Nat × Nat)) : State :=
  { mk ([(.HIF_QP_ASSIGN_VALID, [q], 1), (.HIF_QP_ASSIGN_FN, [q], f), (.HIF_QP_STAT_STATE, [q], 1), (.HIF_QP_CTL_SQ_LOG2, [q], 4),
      (.HIF_QP_CTL_CQ_LOG2, [q], 4), (.HIF_FN_STAT_BME, [f], 1)] ++ l) with qps := [([q], { jobs := js, head := 5 })] }

/-- A descriptor of opcode `opc` with word 1 `len`, and 32-bit words `ws` (index, value). -/
def desc (opc len : Nat) (ws : List (Nat × Nat)) : Nat := ws.foldl (fun a x => a + x.2 * 2 ^ (32 * x.1)) (opc + len * 2 ^ 32)

/-- A job of that descriptor, not started. -/
def jobOf (opc len : Nat) (ws : List (Nat × Nat)) : Job := { idx := 3, d := desc opc len ws }

/-- The header of a plain unsigned image of one frame for sector 5 of die 1 (R410). -/
def imgHdr : Nat :=
  0x54434647 + 2 ^ 32 + 9 * 2 ^ 64 + 2 * 2 ^ 96 + 32 * 2 ^ 168 + 2 ^ 448 + 1032 * 2 ^ 512 + 0xFF * 2 ^ 576 + 3 * 2 ^ 584

/-- An exchange of function `f` on queue pair 7: message `code` with a body. -/
def msg (f code : Nat) (body : List Byte) : Mail :=
  { src := f, q := 7, idx := 3, req := natLe code 2 ++ natLe 0 6 ++ body, limit := 4096, dst := 0x1000, t := 5 }

/-- That exchange waits, its descriptor runs, and session 5 belongs to the sender; further register fields `l`. -/
def mailed (f code : Nat) (body : List Byte) (l : List (Fld × List Nat × Nat)) : State :=
  { qpOn f 7 [{ jobOf 0x60 16 [(6, 4096)] with st := 1 }] l with
    mail := [msg f code body], sessions := [([5], some { owner := f, used := 10 })] }

/-- Path `p` with the bytes submitted and a challenge made. -/
def submitted (p : Nat) (bs : List Byte) (l : List (Fld × List Nat × Nat)) : State :=
  { mk l with pel := [([p], { sent := bs, chal := some 1 })] }

/-- A debug certificate for level `l` by vendor key `k`, bound to no device, with its signature (R450). -/
def cert (l k : Nat) : List Byte := natLe (0x54444243 + l * 2 ^ 32 + k * 2 ^ 40) 304

/-- The bytes of a firmware header that a check reads and that are not 0xFF: `MAGIC`, `FORMAT`, `FLAGS`, `SVN`, a body of
16 bytes, vendor key 0, counter 0 (R410, R434). -/
def fwCells : List (Nat × Byte) :=
  [(0, 87), (1, 70), (2, 68), (3, 84), (4, 1), (5, 0), (6, 0), (7, 0), (8, 0), (9, 0), (10, 0),
    (11, 0), (64, 16), (65, 0), (66, 0), (67, 0), (68, 0), (69, 0), (70, 0), (71, 0), (72, 0), (73, 0)]

/-- That image, its body erased, in slot A, received in full. -/
def fwAt (l : List (Fld × List Nat × Nat)) : State :=
  { mk ([(.BOOT_STAT_STAGE, [], 15), (.LS_RCV_STAT_STATE, [], 1), (.LS_RCV_CTL_LEN, [], 17)] ++ l) with
    rcvN := 272, flash := fwCells.map (fun c => (0x100000 + c.1, c.2)) }

/-- Copy 0 of a directory that names the firmware image of `fwCells` as slot A, and no configuration (R404, R405). -/
def dirCells : List (Nat × Byte) :=
  [(0, 82), (1, 73), (2, 68), (3, 84), (4, 0), (5, 0), (6, 0), (7, 0), (8, 0), (9, 0), (10, 0), (11, 0), (12, 0), (13, 0), (14, 0), (15, 0), (16, 0), (17, 0), (18, 16), (19, 0), (20, 16), (21, 1), (22, 0), (23, 0), (4092, 113), (4093, 14), (4094, 69), (4095, 163)]

/-- Stage 2 with that directory and image in the flash, and further register fields. -/
def dirAt (l : List (Fld × List Nat × Nat)) : State :=
  { mk ([(.BOOT_STAT_STAGE, [], 2)] ++ l) with
    hold := 0, flash := dirCells ++ fwCells.map (fun c => (0x100000 + c.1, c.2)) }

/-- Some facts of the environment. -/
def env0 : RegEnv :=
  { good := true, spread := false, rail := true, fuse := (0, 0), sig := true, sig2 := true, flashOk := true, period := 10,
    acts := [], pc := 0x80, prv := 3, mie := false, rx := [], line := 0x1234, rd := 0, wr := 0, bs := [] }

/-- Sector `k` of die `d` runs a design: frames of the sector by the rest of their address, and further register fields. -/
def designed (d k : Nat) (l : List (Nat × List CfgItem)) (r : List (Fld × List Nat × Nat)) : State :=
  { mk ([up d, (.SEC_STATUS_STATE, [d, k], 3)] ++ r) with
    sec := [([d, k], { gated := false })]
    fab := { design := l.map fun p => ([d, p.1 + k % 8 * 2 ^ 18 + k / 8 * 2 ^ 21], p.2) } }

/-! ## Ill-formed terms are refused, one for each check -/

theorem wf_refuses_width : (Instr.registerWrite .other 0 3 0 env0).wf = false := by decide
theorem wf_refuses_trunk_lane : (Instr.lossOfSignal true 32).wf = false := by decide
theorem wf_refuses_hub_interface : (Instr.packSend 8 32 0).wf = false := by decide
theorem wf_refuses_hub_router : (Instr.portDrained 8 16 0).wf = false := by decide
theorem wf_refuses_die_end : (Instr.poolRetrain 3 3 0).wf = false := by decide
theorem wf_refuses_spoke_group : (Instr.spareRejoin 3 2 32).wf = false := by decide
theorem wf_refuses_die_synthesizer : (Instr.synthGlideStep 3 4).wf = false := by decide
theorem wf_refuses_long_request : (Instr.mailbox 0 (some (List.replicate 4097 0))).wf = false := by decide +kernel
theorem wf_refuses_long_write : (Instr.bar4Write 0 0 (List.replicate 4097 0)).wf = false := by decide +kernel
theorem wf_takes_boundaries : (Instr.spareRejoin 3 1 95).wf = true ∧ (Instr.portDrained 8 15 0).wf = true ∧
    (Instr.registerWrite .other 0 8 0 env0).wf = true ∧ (Instr.synthGlideStep 8 7).wf = true := by decide

/-- The table of operations gives no row any bits. -/
theorem test_no_word_spells_a_command : decodeTableWord 32 0x1234 = none ∧ State.reset.withFetchWord 32 0x1234 = State.reset := by
  decide +kernel

/-! ## The register map (R21, R22, R99, R24) -/

theorem test_die_state_offset : regAt 0x10C = some (.HUB_DIE_STATE, [3]) := by decide +kernel
theorem test_engine_register_offset : regAt (0x1000000 + 0x200000 + 0xC0000 + 0x2000 + 0xBC) = some (.ENG_GEN_V, [13, 3]) := by
  decide +kernel
theorem test_reserved_region : regAt 0x600000 = none := by decide +kernel

/-- R23: a die that is not in service reads as all ones. -/
theorem test_dead_die_reads_ones :
    (match exec (.engStepsLoRead (.fn 0) 13) (mk []) with | .next t => t.answer == 0xFFFFFFFF | _ => false) = true := by
  decide +kernel

/-! ## The arithmetic of the engines (R106, R114, R118, R119) -/

/-- The worked program's word at address 4: `KIND` 2, `MEN`, `MIDX` 15, `CMD` 2, both merges, `ASEL` 1. -/
theorem test_march_word : let w := 0x000400000000 * 2 ^ 48 + 0x800F81600000
    wOP w = 0 ∧ wASEL w = 1 ∧ wLOP w = 0 ∧ wKIND w = 2 ∧ wMEN w = true ∧ wMIDX w = 15 ∧ wCMD w = 2 ∧ wAMRG w = true ∧
      wCMRG w = true ∧ illegalWord w = false := by decide +kernel
theorem test_increment_wraps_at_the_end : genInc 0 0xFFFFF 1 0xFFFFF = (0, true) := by decide
theorem test_decrement_stops_below_base : genDec 2 9 3 4 = (9, true) := by decide
theorem test_lfsr_shift : lfsrShift (2 ^ 63 + 2 ^ 62 + 2 ^ 60) = 2 ^ 63 + 2 ^ 61 + 1 := by decide
theorem test_parity : parity32 0x80000003 = true := by decide

/-- The worked program's SETL at address 0 loads 1,048,576 into counter 0 and goes on at the next word. -/
theorem test_setl_step :
    (match exec (.setl 5) (engAt 3 0x50100000 0 []) with
     | .next t => t.rd .ENG_LREL_COUNT [5, 0] == 1048576 && t.rd .ENG_PC_CUR [5] == 101
     | _ => false) = true := by decide +kernel
/-- A word whose address slot holds `LOP` INC moves generator L. -/
theorem test_nop_increments_l :
    (match exec (.engNop 5) ((engAt 3 0 0 [(.ENG_GEN_V_VALUE, [5, 3], 7)]).winStore 5 1600 16 (0x001400000000 * 2 ^ 48)) with
     | .next t => t.rd .ENG_GEN_V_VALUE [5, 3] == 8 && t.rd .ENG_GEN_V_VALUE [5, 0] == 0
     | _ => false) = true := by decide +kernel

/-! ## Reckoner blocks (R83, R85, R91 to R93) -/

theorem test_accumulator_overflows : rknAcc .add (2 ^ 63 - 1) 1 0 0 false = 2 ^ 63 ∧ rknOvf .add (2 ^ 63 - 1) 1 0 0 false = true := by
  decide
theorem test_product_of_negatives : rknM (2 ^ 27 - 1) (2 ^ 24 - 2) 0 false false = 2 := by decide
theorem test_output_shift_keeps_the_sign : rknP (2 ^ 64 - 8) 2 = 2 ^ 64 - 2 := by decide
theorem test_tie_takes_the_second_term : acsButterfly 5 4 1 2 0 0 1 = (5, true, 3, true) := by decide
theorem test_metrics_compare_modulo : acsLess 0xFFFF 1 = true ∧ acsLess 1 0xFFFF = false := by decide

/-! ## Checks and patterns (R51, R293, R305) -/

/-- PRESUMED, the check value of CRC-32 as the literature gives it: nine characters '1' to '9'. -/
theorem test_crc32_check_value : crc32 1055515178193424429617 72 = 0xCBF43926 := by decide +kernel
theorem test_training_block_reads_back : readBlock (trainBlock 5 77) = some (5, false) ∧
    readBlock (2 ^ 64 - 1 - trainBlock 5 77) = some (5, true) := by decide
theorem test_gray_levels : grayLevel 0 = 0 ∧ grayLevel 3 = 2 := by decide

/-! ## The HBM address (R235, R236) -/

theorem test_interleave_4k : hbmSplit 1 0x0000_7ABC = (3, 0x1ABC) := by decide
theorem test_bank_of_the_ninth_row_group : hbmSID (8 * 2 ^ 32) = 2 ∧ hbmRow (8 * 2 ^ 32 + 2 ^ 19) = 2 * 8192 + 1 := by decide

/-! ## Steps -/

/-- On an empty queue a nanosecond passes, a command in front leaves the queue (log entry 2). -/
theorem test_empty_queue : step State.reset = .next State.reset.tick := rfl
theorem test_front_command_leaves_the_queue :
    (match step { State.reset with pending := [.overflowEvent 3, .engNop 5] } with
     | .next t => t.pending == [.engNop 5]
     | _ => false) = true := by decide +kernel

/-- R497: an acknowledgement up to `NEXT_SEQ` is taken, one beyond it is not. -/
theorem test_ack_window :
    (match exec (.evtAckWrite (.fn 0) 6) (mk [(.EVT_NEXT_SEQ, [], 5)]), exec (.evtAckWrite (.fn 0) 5) (mk [(.EVT_NEXT_SEQ, [], 5)]) with
     | .next t, .next u => t.rd .EVT_ACK_SEQ [] == 0 && u.rd .EVT_ACK_SEQ [] == 5
     | _, _ => false) = true := by decide +kernel

/-- Bytes read in two parts. -/
theorem memBytes_add (m : List (Nat × Byte)) (a n k : Nat) (d : Byte) :
    memBytes m a (n + k) d = memBytes m a n d ++ memBytes m (a + n) k d := by
  simp [memBytes, List.range_add, Nat.add_assoc]

/-- Where nothing is listed, every byte reads as an unlisted one. -/
theorem memBytes_free (m : List (Nat × Byte)) (a n : Nat) (d : Byte)
    (h : m.all (fun e => decide (e.1 < a) || decide (a + n ≤ e.1)) = true) : memBytes m a n d = List.replicate n d := by
  have hg : ∀ l : List (Nat × Byte), l.all (fun e => decide (e.1 < a) || decide (a + n ≤ e.1)) = true →
      ∀ i, i < n → memGet l (a + i) d = d := by
    intro l
    induction l with
    | nil => intros; rfl
    | cons e r ih =>
      intro h i hi
      simp only [List.all_cons, Bool.and_eq_true, Bool.or_eq_true, decide_eq_true_eq] at h
      have : ¬ e.1 = a + i := by omega
      simp only [memGet, this, if_false]
      exact ih (by simpa using h.2) i hi
  refine List.ext_getElem (by simp [memBytes]) fun i h1 h2 => ?_
  simp only [memBytes, List.length_map, List.length_range] at h1
  simp [memBytes, hg m h i h1]

/-- A directory copy of erased flash. -/
def erasedCopy : Nat := leNat (List.replicate 4096 0xFF)

theorem erasedCopy_not_valid : dirValid erasedCopy = false := by decide +kernel

/-- Flash that lists nothing below the directory's end has no valid directory copy, so recovery's own places stand. -/
theorem slotBase_erased (s : State) (h : s.flash.all (fun e => decide (8192 ≤ e.1)) = true) (k : Nat) :
    s.slotBase k = recoveryBase k := by
  have hc : ∀ c, c ≤ 1 → s.dirCopy c = erasedCopy := fun c hc => by
    unfold State.dirCopy erasedCopy
    rw [memBytes_free]
    simp only [List.all_eq_true, decide_eq_true_eq, Bool.or_eq_true] at h ⊢
    intro e he
    have := h e he
    omega
  simp [State.slotBase, State.dirNow, State.dirPick, hc, erasedCopy_not_valid, dirFw, bitsOf]

/-- The bytes of the directory copy that `dirCells` lists. -/
def dirBytes : List Byte :=
  memBytes (dirAt []).flash 0 24 0xFF ++ List.replicate 4068 0xFF ++ memBytes (dirAt []).flash 4092 4 0xFF

theorem dirAt_copy : (dirAt []).dirCopy 0 = leNat dirBytes := by
  unfold State.dirCopy dirBytes
  rw [show 4096 * 0 = 0 from rfl, show 4096 = 24 + 4068 + 4 from rfl, memBytes_add, memBytes_add,
    memBytes_free (dirAt []).flash (0 + 24) 4068 0xFF (by decide +kernel)]

theorem dirAt_pick : (dirAt []).dirPick = some 0 := by
  have h1 : (dirAt []).dirCopy 1 = erasedCopy := by
    unfold State.dirCopy erasedCopy
    rw [memBytes_free (dirAt []).flash (4096 * 1) 4096 0xFF (by decide +kernel)]
  have hd : dirValid (leNat dirBytes) = true := by decide +kernel
  simp [State.dirPick, dirAt_copy, h1, erasedCopy_not_valid, hd]

/-! ## Witnesses: for every statement with hypotheses, a state and operands that meet them, clause by clause -/

theorem witness_StepRunsTheFrontCommand :
    ∃ (c : Instr) (s : State) (rest : List Instr), s.pending = c :: rest :=
  ⟨.engNop 5, { State.reset with pending := [.engNop 5, .overflowEvent 3] }, [.overflowEvent 3], rfl⟩

theorem witness_EmptyQueueOneNanosecond : ∃ s : State, s.pending = [] := ⟨State.reset, rfl⟩

theorem witness_StepKeepsCanonicalForms :
    ∃ s t : State, Memory.wf s = true ∧ Registers.wf s = true ∧ step s = .next t :=
  ⟨fwAt [], (fwAt []).tick, by decide +kernel, by decide +kernel, rfl⟩

theorem witness_FieldsFitTheirWidth : ∃ s : State, Registers.wf s = true := ⟨mk [up 3], by decide +kernel⟩

/-- An engine at a NOP: the step changes its registers; the reference rate and the flash are outside its tables. -/
theorem witness_CommandsChangeOnlyTheirFields :
    ∃ (c : Instr) (s t : State) (f : Fld), exec c s = .next t ∧ hasFld (changedFields c) f = false :=
  ⟨.engNop 5, engAt 3 0 0 [], (engAt 3 0 0 []).runOp 5 0, .SX_ADJ_RATE, rfl, by decide +kernel⟩

theorem witness_CommandsChangeOnlyTheirParts :
    ∃ (c : Instr) (s t : State) (p : Part), exec c s = .next t ∧ (changedParts c).contains p = false :=
  ⟨.engNop 5, engAt 3 0 0 [], (engAt 3 0 0 []).runOp 5 0, .flash, rfl, by decide +kernel⟩

theorem witness_CommandsThatStoreNothingKeepMemory :
    ∃ (c : Instr) (s t : State), storesMemory c = false ∧ exec c s = .next t :=
  let s := { mk [] with stewards := [([2], { lost := 4 })] }
  ⟨.overflowEvent 2, s, s.setSteward 2 ((s.steward 2).spill (overflowRep s 2)), by decide +kernel, rfl⟩

theorem witness_NoCommandTouchesTheQueue : ∃ (c : Instr) (s t : State), exec c s = .next t :=
  ⟨.engNop 5, { engAt 3 0 0 [] with pending := [.engNop 6] }, _, rfl⟩

theorem witness_StewardQueuesReports :
    (∃ (site : Fin 9) (off : BitVec 25) (code : BitVec 16) (sev : Fin 5) (arg : BitVec 64) (s : State), (site.val < 8 →
    (s.steward site).queue.length < 256 ∧ (s.steward site).lost = 0 ∧ (s.steward site).lostFull = 0)) ∧
    (∃ (d : Fin 8) (off : BitVec 25) (code : BitVec 16) (sev : Fin 5) (arg : BitVec 64) (s : State), 256 ≤ (s.steward
    d).queue.length ∧ (s.steward d).lost < 65534) ∧
    (∃ (d : Fin 8) (s : State), (s.steward d).queue.length < 256 ∧ (s.steward d).lostFull = 0 ∧ 0 < (s.steward d).lost) ∧
    (∃ (d : Fin 8) (off : BitVec 25) (code : BitVec 16) (sev : Fin 5) (arg : BitVec 64) (s : State), 256 ≤ (s.steward
    d).queue.length ∧ (s.steward d).lost = 65534) ∧
    (∃ (d : Fin 8) (s : State), (s.steward d).queue.length < 256 ∧ (s.steward d).lostFull = 1 ∧ (s.steward d).lost = 0) :=
  ⟨⟨3, 0x100, 0x0123, 2, 77, mk [], by decide +kernel⟩,
    ⟨3, 0x100, 0x0123, 2, 77, { mk [] with stewards := [([3], { queue := List.replicate 256 (rep 1), lost := 5 })] },
    by decide +kernel⟩,
    ⟨2, { mk [] with stewards := [([2], { lost := 4 })] }, by decide +kernel⟩,
    ⟨3, 0x1000, 0x0100, 3, 7,
    { mk [] with stewards := [([3], { queue := List.replicate 256 (rep 3), lost := 65534, lostFull := 2 })] },
    by decide +kernel⟩,
    ⟨3, { mk [] with stewards := [([3], { queue := List.replicate 255 (rep 3), lost := 0, lostFull := 1 })] },
    by decide +kernel⟩⟩

theorem witness_EventLogAppendsInOrder :
    (∃ (site : Fin 9) (r : Report) (q : List Report) (s : State), 4 ≤ s.rd .BOOT_STAT_STAGE [] ∧ s.rd .BOOT_STAT_STAGE [] ≤
    6 ∧ (s.steward site).queue = r :: q ∧ ¬(r.sev = 0 ∧ s.on .EVT_CTL_INFO_OFF [] = true)) ∧
    (∃ (site : Fin 9) (r : Report) (q : List Report) (s : State), 4 ≤ s.rd .BOOT_STAT_STAGE [] ∧ s.rd .BOOT_STAT_STAGE [] ≤
    6 ∧ (s.steward site).queue = r :: q ∧ r.sev = 0 ∧ s.on .EVT_CTL_INFO_OFF [] = true) ∧
    (∃ (r : LogRec) (q : List LogRec) (s : State), s.jtodo = r :: q) :=
  ⟨⟨4, rep 4, [],
    { mk [(.BOOT_STAT_STAGE, [], 5), (.EVT_NEXT_SEQ, [], 4097)] with stewards := [([4], { queue := [rep 4] })] },
    by decide +kernel⟩,
    ⟨4, rep 0, [rep 1],
    { mk [(.BOOT_STAT_STAGE, [], 4), (.EVT_CTL_INFO_OFF, [], 1)] with stewards := [([4], { queue := [rep 0, rep 1] })] },
    by decide +kernel⟩,
    ⟨⟨3, rep 3⟩, [], { mk [] with jtodo := [⟨3, rep 3⟩] }, by decide +kernel⟩⟩

theorem witness_EventAckAcceptsTheWindow :
    (∃ (w : Writer) (v : BitVec 32) (s : State), s.mute w = false ∧ (v.toNat + 2 ^ 32 - s.rd .EVT_ACK_SEQ []) % 2 ^ 32 ≤
    (s.rd .EVT_NEXT_SEQ [] + 2 ^ 32 - s.rd .EVT_ACK_SEQ []) % 2 ^ 32) ∧
    (∃ (w : Writer) (v : BitVec 32) (s : State), s.mute w = false ∧ (s.rd .EVT_NEXT_SEQ [] + 2 ^ 32 - s.rd .EVT_ACK_SEQ [])
    % 2 ^ 32 < (v.toNat + 2 ^ 32 - s.rd .EVT_ACK_SEQ []) % 2 ^ 32) :=
  ⟨⟨.fn 0, 5, mk [(.EVT_NEXT_SEQ, [], 5)], by decide +kernel⟩,
    ⟨.fn 0, 6, mk [(.EVT_NEXT_SEQ, [], 5)], by decide +kernel⟩⟩

theorem witness_SectorResetWritesActByState :
    (∃ (w : Writer) (d : Fin 8) (k : Fin 40) (s : State), s.reaches w .SEC_CTL [d, k] = true ∧ [0, 1, 2, 5].contains (s.rd
    .SEC_STATUS_STATE [d, k]) = true) ∧
    (∃ (w : Writer) (d : Fin 8) (k : Fin 40) (s : State), s.reaches w .SEC_CTL [d, k] = true ∧ s.rd .SEC_STATUS_STATE [d, k]
    = 3) ∧
    (∃ (w : Writer) (d : Fin 8) (k : Fin 40) (s : State), s.reaches w .SEC_CTL [d, k] = true ∧ s.rd .SEC_STATUS_STATE [d, k]
    = 4) ∧
    (∃ (w : Writer) (d : Fin 8) (k : Fin 40) (s : State), s.reaches w .SEC_CTL [d, k] = true ∧ [1, 3, 4].contains (s.rd
    .SEC_STATUS_STATE [d, k]) = true) ∧
    (∃ (w : Writer) (d : Fin 8) (k : Fin 40) (s : State), s.reaches w .SEC_CTL [d, k] = true ∧ [0, 5].contains (s.rd
    .SEC_STATUS_STATE [d, k]) = true) ∧
    (∃ (w : Writer) (d : Fin 8) (k : Fin 40) (s : State), s.reaches w .SEC_CTL [d, k] = true ∧ s.rd .SEC_STATUS_STATE [d, k]
    = 2 ∧ s.rd .SEC_STATUS_PERMIT_WAIT [d, k] = 0 ∧ 1 ≤ s.rd .PG_CFG_BUDGET [d]) ∧
    (∃ (w : Writer) (d : Fin 8) (k : Fin 40) (s : State), s.reaches w .SEC_CTL [d, k] = true ∧ s.rd .SEC_STATUS_STATE [d, k]
    = 2 ∧ s.rd .SEC_STATUS_PERMIT_WAIT [d, k] = 1) ∧
    (∃ (d : Fin 8) (k : Fin 40) (edge : Nat) (s : State), s.rd .SEC_STATUS_STATE [d, k] = 2 ∧ s.rd .SEC_STATUS_PERMIT_WAIT
    [d, k] = 1 ∧ s.grantReady d 4 [d, k] = true ∧ s.edgeOk d k edge = true) ∧
    (∃ (d : Fin 8) (k : Fin 40) (s : State), s.rd .SEC_STATUS_STATE [d, k] = 4 ∧ (s.sector d k).mig = 5 ∧ s.grantReady d 4
    [d, k] = true ∧ s.rd .SEC_STATUS_RESET_HELD [d, k] = 1) :=
  ⟨⟨.helm 0, 3, 5, mk [up 3, (.SEC_STATUS_STATE, [3, 5], 1)], by decide +kernel⟩,
    ⟨.helm 0, 3, 5, mk [up 3, (.SEC_STATUS_STATE, [3, 5], 3)], by decide +kernel⟩,
    ⟨.helm 0, 3, 5, mk [up 3, (.SEC_STATUS_STATE, [3, 5], 4)], by decide +kernel⟩,
    ⟨.helm 0, 3, 5, mk [up 3, (.SEC_STATUS_STATE, [3, 5], 4), (.SEC_CTL_RESET, [3, 5], 1)], by decide +kernel⟩,
    ⟨.helm 0, 3, 5, mk [up 3, (.SEC_STATUS_STATE, [3, 5], 5)], by decide +kernel⟩,
    ⟨.helm 0, 3, 5, mk [up 3, (.SEC_STATUS_STATE, [3, 5], 2)], by decide +kernel⟩,
    ⟨.helm 0, 3, 5, mk [up 3, (.SEC_STATUS_STATE, [3, 5], 2), (.SEC_STATUS_PERMIT_WAIT, [3, 5], 1), (.SEC_CTL_RESET, [3, 5],
    1)], by decide +kernel⟩,
    ⟨3, 5, 0, granted (mk [(.SEC_STATUS_STATE, [3, 5], 2), (.SEC_STATUS_PERMIT_WAIT, [3, 5], 1)]) 3 4 [3, 5],
    by decide +kernel⟩,
    ⟨3, 5,
    { granted (mk [(.SEC_STATUS_STATE, [3, 5], 4), (.SEC_STATUS_RESET_HELD, [3, 5], 1)]) 3 4 [3, 5] with sec := [([3, 5], { mig := 5 })] },
    by decide +kernel⟩⟩

theorem witness_SectorReleasesAtTheGrant :
    (∃ (d : Fin 8) (k : Fin 40) (edge : Nat) (s : State), s.rd .SEC_STATUS_STATE [d, k] = 2 ∧ s.rd .SEC_STATUS_PERMIT_WAIT
    [d, k] = 1 ∧ s.grantReady d 4 [d, k] = true ∧ s.edgeOk d k edge = true) ∧
    (∃ (d : Fin 8) (k : Fin 40) (s : State), s.rd .SEC_STATUS_STATE [d, k] = 2 ∧ s.rd .SEC_STATUS_PERMIT_WAIT [d, k] = 1 ∧
    s.timeoutReady d 4 [d, k] = true) ∧
    (∃ (w : Writer) (d : Fin 8) (k : Fin 40) (s : State), s.reaches w .SEC_CTL [d, k] = true ∧ s.rd .SEC_STATUS_STATE [d, k]
    = 3) :=
  ⟨⟨3, 5, 0, granted (mk [(.SEC_STATUS_STATE, [3, 5], 2), (.SEC_STATUS_PERMIT_WAIT, [3, 5], 1)]) 3 4 [3, 5],
    by decide +kernel⟩,
    ⟨3, 5, expired (mk [(.SEC_STATUS_STATE, [3, 5], 2), (.SEC_STATUS_PERMIT_WAIT, [3, 5], 1), (.SEC_CTL_RESET, [3, 5], 1)])
    3 4 [3, 5], by decide +kernel⟩,
    ⟨.helm 0, 3, 5, mk [up 3, (.SEC_STATUS_STATE, [3, 5], 3)], by decide +kernel⟩⟩

theorem witness_MigrationFollowsItsSteps :
    (∃ (w : Writer) (d : Fin 8) (k : Fin 40) (p : Nat) (s : State), s.reaches w .SEC_CTL [d, k] = true ∧ s.rd
    .SEC_STATUS_STATE [d, k] = 3 ∧ s.rd .SEC_STATUS_PENDING_REMAP [d, k] = 1) ∧
    (∃ (d : Fin 8) (k : Fin 40) (s : State), s.rd .SEC_STATUS_STATE [d, k] = 4 ∧ (s.sector d k).mig = 1) ∧
    (∃ (d : Fin 8) (k : Fin 40) (s : State), s.rd .SEC_STATUS_STATE [d, k] = 4 ∧ (s.sector d k).mig = 2) ∧
    (∃ (d : Fin 8) (k : Fin 40) (s : State), s.rd .SEC_STATUS_STATE [d, k] = 4 ∧ (s.sector d k).mig = 3 ∧ (s.sector d
    k).migHeld = false) ∧
    (∃ (d : Fin 8) (k : Fin 40) (s : State), s.rd .SEC_STATUS_STATE [d, k] = 4 ∧ (s.sector d k).mig = 3 ∧ (s.sector d
    k).migHeld = true) ∧
    (∃ (d : Fin 8) (k : Fin 40) (s : State), s.rd .SEC_STATUS_STATE [d, k] = 4 ∧ (s.sector d k).mig = 4 ∧ 1 ≤ s.rd
    .PG_CFG_BUDGET [d]) ∧
    (∃ (d : Fin 8) (k : Fin 40) (s : State), s.rd .SEC_STATUS_STATE [d, k] = 4 ∧ (s.sector d k).mig = 5 ∧ s.grantReady d 4
    [d, k] = true ∧ s.rd .SEC_STATUS_RESET_HELD [d, k] = 0) ∧
    (∃ (d : Fin 8) (k : Fin 40) (s : State), s.rd .SEC_STATUS_STATE [d, k] = 4 ∧ (s.sector d k).mig = 5 ∧ s.grantReady d 4
    [d, k] = true ∧ s.rd .SEC_STATUS_RESET_HELD [d, k] = 1) ∧
    (∃ (d : Fin 8) (k : Fin 40) (s : State), s.rd .SEC_STATUS_STATE [d, k] = 4 ∧ (s.sector d k).mig = 5 ∧ s.timeoutReady d 4
    [d, k] = true) ∧
    (∃ (d : Fin 8) (k : Fin 40) (p : Fin 31) (period : Nat) (s : State), (s.rd .SEC_STATUS_STATE [d, k] = 0 ∨ s.rd
    .SEC_STATUS_STATE [d, k] = 1) ∧ s.knownDefect d k = 31 ∧ s.columnKnown d k p = false) ∧
    (∃ (d : Fin 8) (k : Fin 40) (p : Fin 31) (period : Nat) (s : State), s.rd .SEC_STATUS_STATE [d, k] ≠ 5 ∧ s.knownDefect d
    k ≠ 31 ∧ s.columnKnown d k p = false) :=
  ⟨⟨.helm 0, 3, 5, 8, mk [up 3, (.SEC_STATUS_STATE, [3, 5], 3), (.SEC_STATUS_PENDING_REMAP, [3, 5], 1)], by decide +kernel⟩,
    ⟨3, 5, { mk [(.SEC_STATUS_STATE, [3, 5], 4)] with sec := [([3, 5], { mig := 1, migT := 60 })] }, by decide +kernel⟩,
    ⟨3, 5,
    { mk [(.SEC_STATUS_STATE, [3, 5], 4), (.SEC_COLMAP_FIELD, [3, 5], 7)] with sec := [([3, 5], { mig := 2, migT := 60 })] },
    by decide +kernel⟩,
    ⟨3, 5,
    { mk [(.SEC_STATUS_STATE, [3, 5], 4), (.SEC_COLMAP_FIELD, [3, 5], 7)] with sec := [([3, 5], { mig := 3, migT := 60 })] },
    by decide +kernel⟩,
    ⟨3, 5,
    { mk [(.SEC_STATUS_STATE, [3, 5], 4), (.SEC_COLMAP_FIELD, [3, 5], 7)] with sec := [([3, 5], { mig := 3, migT := 60, migHeld := true })] },
    by decide +kernel⟩,
    ⟨3, 5,
    { mk [(.SEC_STATUS_STATE, [3, 5], 4), (.SEC_COLMAP_FIELD, [3, 5], 7)] with sec := [([3, 5], { mig := 4, migT := 60 })] },
    by decide +kernel⟩,
    ⟨3, 5, { granted (mk [(.SEC_STATUS_STATE, [3, 5], 4)]) 3 4 [3, 5] with sec := [([3, 5], { mig := 5 })] },
    by decide +kernel⟩,
    ⟨3, 5,
    { granted (mk [(.SEC_STATUS_STATE, [3, 5], 4), (.SEC_STATUS_RESET_HELD, [3, 5], 1)]) 3 4 [3, 5] with sec := [([3, 5], { mig := 5 })] },
    by decide +kernel⟩,
    ⟨3, 5, { expired (mk [(.SEC_STATUS_STATE, [3, 5], 4)]) 3 4 [3, 5] with sec := [([3, 5], { mig := 5 })] },
    by decide +kernel⟩,
    ⟨3, 5, 30, 4, mk [(.SEC_STATUS_STATE, [3, 5], 1), (.SEC_COLMAP_FIELD, [3, 5], 31)], by decide +kernel⟩,
    ⟨3, 5, 9, 4, mk [(.SEC_STATUS_STATE, [3, 5], 3), (.SEC_COLMAP_FIELD, [3, 5], 7)], by decide +kernel⟩⟩

theorem witness_ClockTreesSwitchWithoutGlitch :
    (∃ (w : Writer) (d : Fin 8) (tr : Fin 64) (src : BitVec 6) (s : State), s.reaches w (treeReg tr) (treeIx d tr) = true ∧
    s.rd (treeSWITCHING tr) (treeIx d tr) = 0 ∧ s.rd (treeACTIVE tr) (treeIx d tr) = 0) ∧
    (∃ (w : Writer) (d : Fin 8) (tr : Fin 64) (src : BitVec 6) (s : State), s.reaches w (treeReg tr) (treeIx d tr) = true ∧
    s.rd (treeSWITCHING tr) (treeIx d tr) = 0 ∧ s.rd (treeACTIVE tr) (treeIx d tr) ≠ 0 ∧ s.rd (treeACTIVE tr) (treeIx d tr)
    ≠ treeEff d tr src.toNat) ∧
    (∃ (d : Fin 8) (tr : Fin 64) (s : State), s.rd (treeSWITCHING tr) (treeIx d tr) = 1 ∧ (smGet s.tree [d.val, tr.val]
    {}).tgt = treeEff d tr (s.rd (treeSRC tr) (treeIx d tr))) ∧
    (∃ (d : Fin 8) (tr : Fin 64) (s : State), tr.val < 16 ∧ s.rd (treeSWITCHING tr) (treeIx d tr) = 0 ∧ 8 ≤ s.rd (treeACTIVE
    tr) (treeIx d tr) ∧ s.rd (treeACTIVE tr) (treeIx d tr) ≤ 15) ∧
    (∃ (d : Fin 8) (tr : Fin 64) (s : State), s.rd (treeSWITCHING tr) (treeIx d tr) = 1 ∧ (smGet s.tree [d.val, tr.val]
    {}).tgt = treeEff d tr (s.rd (treeSRC tr) (treeIx d tr))) :=
  ⟨⟨.helm 0, 3, 5, 8, mk [up 3], by decide +kernel⟩,
    ⟨.helm 0, 3, 5, 8, mk [up 3, (.FCLK_GSEL_ACTIVE, [3, 5], 3)], by decide +kernel⟩,
    ⟨3, 5,
    { mk [(.FCLK_GSEL_SWITCHING, [3, 5], 1), (.FCLK_GSEL_SRC, [3, 5], 9)] with tree := [([3, 5], { tgt := 9, start := 50 })] },
    by decide +kernel⟩,
    ⟨3, 5, mk [(.FCLK_GSEL_ACTIVE, [3, 5], 9)], by decide +kernel⟩,
    ⟨3, 5,
    { mk [(.FCLK_GSEL_SWITCHING, [3, 5], 1), (.FCLK_GSEL_SRC, [3, 5], 9)] with tree := [([3, 5], { tgt := 9, start := 50 })] },
    by decide +kernel⟩⟩

theorem witness_FabricErrorsAreCountedAndHeld :
    (∃ (d : Fin 8) (k : Fin 40) (segs : List SegCycle) (c : SegCycle) (more : List SegCycle) (s : State), s.userRuns d k =
    true ∧ segs.filter (s.contends d k) = c :: more ∧ s.rd .SEC_SPAN_CONT [d, k] = 0) ∧
    (∃ (d : Fin 8) (k : Fin 40) (segs : List SegCycle) (c : SegCycle) (more : List SegCycle) (s : State), s.userRuns d k =
    true ∧ segs.filter (s.contends d k) = c :: more ∧ s.rd .SEC_SPAN_CONT [d, k] = 1) ∧
    (∃ (d : Fin 8) (k : Fin 40) (c : SegCycle) (s : State), s.userRuns d k = true ∧ s.contends d k c = true) ∧
    (∃ (d : Fin 8) (k : Fin 40) (deep : Bool) (col : Fin 3) (block : Fin 10) (addr : Fin 16384) (upset : BitVec 72) (c :
    RamCfg) (double : Bool) (s : State), s.userRuns d k = true ∧ s.ramOf d k deep col block = some c ∧ c.mode = .ecc ∧
    addr.val < ramDepth c deep 1 ∧ ones (s.ramUpset [d, k, deep.toNat, col, block, addr] ^^^ upset.toNat) 72 = (if double
    then 2 else 1) ∧ s.rd .MEM_ECC_DBE [d, k] = 0 ∧ (s.rd .MEM_ECC_SBE [d, k] = 0 ∨ double = true)) ∧
    (∃ (d : Fin 8) (k : Fin 40) (deep : Bool) (col : Fin 3) (block : Fin 10) (addr : Fin 16384) (upset : BitVec 72) (c :
    RamCfg) (double : Bool) (s : State), s.userRuns d k = true ∧ s.ramOf d k deep col block = some c ∧ c.mode = .ecc ∧
    addr.val < ramDepth c deep 1 ∧ ones (s.ramUpset [d, k, deep.toNat, col, block, addr] ^^^ upset.toNat) 72 = (if double
    then 2 else 1) ∧ s.rd .MEM_ECC_DBE [d, k] = 1) ∧
    (∃ (d : Fin 8) (k : Fin 40) (deep : Bool) (col : Fin 3) (block : Fin 10) (addr : Fin 16384) (s : State), s.userRuns d k
    = true ∧ [deep.toNat, col.val, block.val, addr.val] ∈ (s.sector d k).wb) ∧
    (∃ (d : Fin 8) (k : Fin 40) (lates : List (Fin 3 × Fin 24 × RknIn)) (x : Fin 3 × Fin 24 × RknIn) (more : List (Fin 3 ×
    Fin 24 × RknIn)) (s : State), s.userRuns d k = true ∧ lates.filter (s.rknTwo d k) = x :: more ∧ s.rd .RKN_STAT_LATE [d,
    k] = 0) ∧
    (∃ (d : Fin 8) (k : Fin 40) (lates : List (Fin 3 × Fin 24 × RknIn)) (x : Fin 3 × Fin 24 × RknIn) (more : List (Fin 3 ×
    Fin 24 × RknIn)) (s : State), s.userRuns d k = true ∧ lates.filter (s.rknTwo d k) = x :: more ∧ s.rd .RKN_STAT_LATE [d,
    k] = 1) :=
  ⟨⟨3, 5, [⟨true, 239, 0x11, 0x10⟩], ⟨true, 239, 0x11, 0x10⟩, [], designed 3 5 [(29 * 2 ^ 10, [.tap true 239 0 .dynamic,
    .tap true 239 4 .dynamic])] [], by decide +kernel⟩,
    ⟨3, 5, [⟨true, 239, 0x11, 0x10⟩], ⟨true, 239, 0x11, 0x10⟩, [], designed 3 5 [(29 * 2 ^ 10, [.tap true 239 0 .dynamic,
    .tap true 239 4 .dynamic])] [(.SEC_SPAN_CONT, [3, 5], 1)], by decide +kernel⟩,
    ⟨3, 5, ⟨true, 239, 0x11, 0x10⟩, designed 3 5 [(29 * 2 ^ 10, [.tap true 239 0 .dynamic, .tap true 239 4 .dynamic])] [],
    by decide +kernel⟩,
    ⟨3, 5, false, 2, 9, 1023, 4, ⟨.ecc, false, false, .readFirst, .readFirst, true, 0⟩, false, designed 3 5 [(2 ^ 15 + 2 * 2
    ^ 10, [.ram 9 ⟨.ecc, false, false, .readFirst, .readFirst, true, 0⟩])] [], by decide +kernel⟩,
    ⟨3, 5, false, 2, 9, 1023, 4, ⟨.ecc, false, false, .readFirst, .readFirst, true, 0⟩, false, designed 3 5 [(2 ^ 15 + 2 * 2
    ^ 10, [.ram 9 ⟨.ecc, false, false, .readFirst, .readFirst, true, 0⟩])] [(.MEM_ECC_DBE, [3, 5], 1)], by decide +kernel⟩,
    ⟨3, 5, true, 2, 9, 163,
    { designed 3 5 [] [] with sec := [([3, 5], { gated := false, wb := [[1, 2, 9, 163], [0, 0, 0, 1]] })] },
    by decide +kernel⟩,
    ⟨3, 5, [(2, 23, ⟨0, 0, 0, 0, 0, 1, true, 0, false, false, true, false⟩)], (2, 23, ⟨0, 0, 0, 0, 0, 1, true, 0, false,
    false, true, false⟩), [], designed 3 5 [(3 * 2 ^ 15 + 2 * 2 ^ 10, [.rkn 23 ⟨.mac, false, true, true, false, 0⟩])] [],
    by decide +kernel⟩,
    ⟨3, 5, [(2, 23, ⟨0, 0, 0, 0, 0, 1, true, 0, false, false, true, false⟩)], (2, 23, ⟨0, 0, 0, 0, 0, 1, true, 0, false,
    false, true, false⟩), [], designed 3 5 [(3 * 2 ^ 15 + 2 * 2 ^ 10, [.rkn 23 ⟨.mac, false, true, true, false, 0⟩])]
    [(.RKN_STAT_LATE, [3, 5], 1)], by decide +kernel⟩⟩

theorem witness_EngineCommandsActByState :
    (∃ (w : Writer) (e : Fin 96) (s : State), s.reaches w .ENG_CTL [e] = true ∧ [0, 6, 7, 8].contains (s.estate e) = true ∧
    (s.engine e).out = [] ∧ (s.engine e).cq = [] ∧ s.wx e + s.wy e + s.wz e ≤ 32 ∧ (s.dest e ≠ 1 ∨ s.vpUp e = true) ∧ 3 +
    ceilDiv (s.strmRate e) 16 ≤ s.rd .PG_CFG_BUDGET [engDie e]) ∧
    (∃ (w : Writer) (e : Fin 96) (s : State), s.reaches w .ENG_CTL [e] = true ∧ [0, 6, 7, 8].contains (s.estate e) = true ∧
    (s.engine e).out = [] ∧ (s.engine e).cq = [] ∧ s.wx e + s.wy e + s.wz e ≤ 32 ∧ (s.dest e ≠ 1 ∨ s.vpUp e = true) ∧ 3 +
    ceilDiv (s.strmRate e) 16 ≤ s.rd .PG_CFG_BUDGET [engDie e]) ∧
    (∃ (w : Writer) (e : Fin 96) (s : State), s.reaches w .ENG_CTL [e] = true ∧ [0, 6, 7, 8].contains (s.estate e) = true ∧
    (s.engine e).out = [] ∧ (s.engine e).cq = [] ∧ 32 < s.wx e + s.wy e + s.wz e) ∧
    (∃ (w : Writer) (e : Fin 96) (s : State), s.reaches w .ENG_CTL [e] = true ∧ [0, 6, 7, 8].contains (s.estate e) = true ∧
    (s.engine e).out = [] ∧ (s.engine e).cq = [] ∧ s.wx e + s.wy e + s.wz e ≤ 32 ∧ s.dest e = 1 ∧ s.vpUp e = false) ∧
    (∃ (e : Fin 96) (s : State), (s.engine e).startPend = 2 ∧ (s.engine e).out = [] ∧ (s.engine e).cq = [] ∧ s.wx e + s.wy e
    + s.wz e ≤ 32 ∧ (s.dest e ≠ 1 ∨ s.vpUp e = true)) ∧
    (∃ (e : Fin 96) (s : State), s.estate e = 1 ∧ s.grantReady (engDie e) 1 [e] = true ∧ s.rd .ENG_STRM_CTL_AUTO [e] = 0 ∧
    (s.engine e).armed = false) ∧
    (∃ (e : Fin 96) (s : State), s.estate e = 1 ∧ (s.gov (engDie e)).ready.any (·.is 1 [e]) = true ∧ s.rd .ENG_STRM_CTL_AUTO
    [e] = 0 ∧ (s.engine e).armed = true ∧ s.localNs ≤ s.trigger e) ∧
    (∃ (e : Fin 96) (s : State), s.estate e = 2) ∧
    (∃ (e : Fin 96) (s : State), s.estate e = 1 ∧ s.timeoutReady (engDie e) 1 [e] = true) ∧
    (∃ (w : Writer) (e : Fin 96) (s : State), s.reaches w .ENG_CTL [e] = true ∧ 1 ≤ s.estate e ∧ s.estate e ≤ 5) ∧
    (∃ (w : Writer) (e : Fin 96) (s : State), s.reaches w .ENG_CTL [e] = true ∧ (s.estate e = 3 ∨ s.estate e = 4)) ∧
    (∃ (w : Writer) (e : Fin 96) (s : State), s.reaches w .ENG_CTL [e] = true ∧ s.estate e = 5) ∧
    (∃ (w : Writer) (e : Fin 96) (s : State), s.reaches w .ENG_CTL [e] = true ∧ s.estate e ≤ 8) ∧
    (∃ (w : Writer) (e : Fin 96) (s : State), s.reaches w .ENG_CTL [e] = true ∧ 1 ≤ s.estate e ∧ s.estate e ≤ 5) ∧
    (∃ (w : Writer) (e : Fin 96) (s : State), s.reaches w .ENG_CTL [e] = true ∧ s.estate e ≠ 3 ∧ s.estate e ≠ 4) ∧
    (∃ (w : Writer) (e : Fin 96) (s : State), s.reaches w .ENG_CTL [e] = true ∧ [0, 6, 7, 8].contains (s.estate e) = true ∧
    ((s.engine e).out ≠ [] ∨ (s.engine e).cq ≠ [])) ∧
    (∃ (w : Writer) (e : Fin 96) (s : State), s.reaches w .ENG_CTL [e] = true ∧ [0, 6, 7, 8].contains (s.estate e) = true ∧
    ((s.engine e).out ≠ [] ∨ (s.engine e).cq ≠ [])) ∧
    (∃ (e : Fin 96) (s : State), (s.engine e).startPend = 1 ∧ (s.engine e).out = [] ∧ (s.engine e).cq = [] ∧ s.wx e + s.wy e
    + s.wz e ≤ 32 ∧ (s.dest e ≠ 1 ∨ s.vpUp e = true)) ∧
    (∃ (e : Fin 96) (s : State), s.estate e = 1 ∧ (s.gov (engDie e)).ready.any (·.is 1 [e]) = true ∧ s.rd .ENG_STRM_CTL_AUTO
    [e] = 0 ∧ (s.engine e).armed = true ∧ s.trigger e < s.localNs) ∧
    (∃ (e : Fin 96) (s : State), s.estate e = 1 ∧ s.grantReady (engDie e) 1 [e] = true ∧ s.on .ENG_STRM_CTL_AUTO [e] = true
    ∧ (s.engine e).armed = false) ∧
    (∃ (w : Writer) (e : Fin 96) (s : State), s.reaches w .ENG_CTL [e] = true ∧ s.estate e ≠ 5) ∧
    (∃ (w : Writer) (e : Fin 96) (s : State), s.reaches w .ENG_CTL [e] = true ∧ (s.estate e = 0 ∨ 6 ≤ s.estate e)) :=
  ⟨⟨.helm 0, 5,
    { mk [up 0, (.ENG_STATUS_STATE, [5], 6), (.ENG_PC_START, [5], 77), (.ENG_GEN_B_VALUE, [5, 2], 9), (.ENG_LCNT_COUNT, [5, 3], 4)] with eng := [([5], { lstack := [(1, 2, 3)], cstack := [4] })] },
    by decide +kernel⟩,
    ⟨.helm 0, 5, mk [up 0, (.ENG_STATUS_STATE, [5], 8)], by decide +kernel⟩,
    ⟨.helm 0, 5, mk [up 0, (.ENG_STATUS_STATE, [5], 7), (.ENG_AFMT_WX, [5], 20), (.ENG_AFMT_WY, [5], 20)],
    by decide +kernel⟩,
    ⟨.helm 0, 5, mk [up 0, (.ENG_STATUS_STATE, [5], 7), (.ENG_OUT_DEST, [5], 1)], by decide +kernel⟩,
    ⟨5, { mk [up 0, (.ENG_STATUS_STATE, [5], 7)] with eng := [([5], { startPend := 2 })] }, by decide +kernel⟩,
    ⟨5, granted (mk [up 0, (.ENG_STATUS_STATE, [5], 1)]) 0 1 [5], by decide +kernel⟩,
    ⟨5,
    { granted (mk [up 0, (.ENG_STATUS_STATE, [5], 1), (.ENG_TTRIG_SL_SEC, [5], 4)]) 0 1 [5] with eng := [([5], { armed := true })] },
    by decide +kernel⟩,
    ⟨5, mk [up 0, (.ENG_STATUS_STATE, [5], 2), (.ENG_TTRIG_SL_SEC, [5], 4)], by decide +kernel⟩,
    ⟨5, expired (mk [up 0, (.ENG_STATUS_STATE, [5], 1), (.ENG_PC_CUR, [5], 9)]) 0 1 [5], by decide +kernel⟩,
    ⟨.helm 0, 5,
    { mk [up 0, (.ENG_STATUS_STATE, [5], 1)] with govs := [([0], { held := [{ op := 1, who := [5], units := 3, t := 0 }] })], eng := [([5], { buf := [⟨0, 1, 0⟩], strmOn := true })] },
    by decide +kernel⟩,
    ⟨.helm 0, 5, { mk [up 0, (.ENG_STATUS_STATE, [5], 4)] with eng := [([5], { wait := .wait 50 })] }, by decide +kernel⟩,
    ⟨.helm 0, 5, mk [up 0, (.ENG_STATUS_STATE, [5], 5)], by decide +kernel⟩,
    ⟨.helm 0, 5, mk [up 0, (.ENG_STATUS_STATE, [5], 3), (.ENG_PC_CUR, [5], 9)], by decide +kernel⟩,
    ⟨.helm 0, 5, mk [up 0, (.ENG_STATUS_STATE, [5], 1)], by decide +kernel⟩,
    ⟨.helm 0, 5, mk [up 0, (.ENG_STATUS_STATE, [5], 5)], by decide +kernel⟩,
    ⟨.helm 0, 5, { mk [up 0, (.ENG_STATUS_STATE, [5], 6)] with eng := [([5], { out := [{ v := some 4, ix := none }] })] },
    by decide +kernel⟩,
    ⟨.helm 0, 5, { mk [up 0, (.ENG_STATUS_STATE, [5], 6)] with eng := [([5], { out := [{ v := some 4, ix := none }] })] },
    by decide +kernel⟩,
    ⟨5, { mk [up 0, (.ENG_STATUS_STATE, [5], 7)] with eng := [([5], { startPend := 1 })] }, by decide +kernel⟩,
    ⟨5,
    { granted (mk [up 0, (.ENG_STATUS_STATE, [5], 1)]) 0 1 [5] with eng := [([5], { armed := true })], local_ := 2 ^ 60 },
    by decide +kernel⟩,
    ⟨5, granted (mk [up 0, (.ENG_STATUS_STATE, [5], 1), (.ENG_STRM_CTL_AUTO, [5], 1), (.ENG_STRM_CTL_RATE, [5], 4),
    (.ENG_STRM_LEN_LEN, [5], 9)]) 0 1 [5], by decide +kernel⟩,
    ⟨.helm 0, 5, mk [up 0, (.ENG_STATUS_STATE, [5], 4)], by decide +kernel⟩,
    ⟨.helm 0, 5, mk [up 0, (.ENG_STATUS_STATE, [5], 6)], by decide +kernel⟩⟩

theorem witness_IllegalWordFaultsBeforeAnyEffect :
    (∃ (w : Writer) (e : Fin 96) (s : State), s.reaches w .ENG_CTL [e] = true ∧ s.estate e = 5 ∧ illegalWord (s.instrWord e
    (s.rd .ENG_PC_CUR [e])) = true) ∧
    (∃ (e : Fin 96) (k : Fin 15) (s : State), s.atStep e k = true ∧ wOP (s.instrWord e (s.rd .ENG_PC_CUR [e])) = k.val ∧
    illegalWord (s.instrWord e (s.rd .ENG_PC_CUR [e])) = true) :=
  ⟨⟨.helm 0, 5, engAt 5 (ctlSlot 15 0 0) 0 [up 0], by decide +kernel⟩,
    ⟨5, 0, engAt 3 (ctlSlot 0 0 1) 0 [], by decide +kernel⟩⟩

theorem witness_ControlOperationsMoveThePC :
    (∃ (e : Fin 96) (x : Nat) (s : State), s.atQuietStep e 0 x = true ∧ s.noLoopEnds e = true) ∧
    (∃ (e : Fin 96) (x : Nat) (c start end_ : Nat) (r : List (Nat × Nat × Nat)) (s : State), s.atQuietStep e 0 x = true ∧
    (s.engine e).lstack = (c, start, end_) :: r ∧ end_ = s.rd .ENG_PC_CUR [e] ∧ 2 ≤ s.rd .ENG_LCNT_COUNT [e, c] ∧ s.rd
    .ENG_LCNT_COUNT [e, c] < 2 ^ 32 ∧ start < 16384) ∧
    (∃ (e : Fin 96) (x : Nat) (s : State), s.atQuietStep e 2 x = true) ∧
    (∃ (e : Fin 96) (x : Nat) (s : State), s.atQuietStep e 3 x = true ∧ s.brCond e x = true) ∧
    (∃ (e : Fin 96) (x : Nat) (s : State), s.atQuietStep e 3 x = true ∧ s.brCond e x = false ∧ s.noLoopEnds e = true) ∧
    (∃ (e : Fin 96) (x : Nat) (s : State), s.atQuietStep e 4 x = true ∧ (s.engine e).cstack.length < 4) ∧
    (∃ (e : Fin 96) (x : Nat) (s : State), s.atQuietStep e 4 x = true ∧ 4 ≤ (s.engine e).cstack.length) ∧
    (∃ (e : Fin 96) (x a : Nat) (r : List Nat) (s : State), s.atQuietStep e 5 x = true ∧ (s.engine e).cstack = a :: r ∧ s.rd
    .ENG_STATUS_IN_HANDLER [e] = 0 ∧ a < 16384) ∧
    (∃ (e : Fin 96) (x : Nat) (s : State), s.atQuietStep e 5 x = true ∧ (s.engine e).cstack = [] ∧ s.rd
    .ENG_STATUS_IN_HANDLER [e] = 0) ∧
    (∃ (e : Fin 96) (x : Nat) (s : State), s.atQuietStep e 1 x = true ∧ s.noLoopEnds e = true ∧ s.rd .ENG_PC_CUR [e] < wIMM
    x % 2 ^ 14 ∧ (s.engine e).lstack.all (fun l => l.1 != wCNT x) = true ∧ s.rd .ENG_LREL_COUNT [e, wCNT x] ≠ 0 ∧ (s.engine
    e).lstack.length < 8) ∧
    (∃ (e : Fin 96) (x : Nat) (s : State), s.atQuietStep e 1 x = true ∧ s.rd .ENG_PC_CUR [e] < wIMM x % 2 ^ 14 ∧ (s.engine
    e).lstack.all (fun l => l.1 != wCNT x) = true ∧ s.rd .ENG_LREL_COUNT [e, wCNT x] = 0 ∧ wIMM x % 2 ^ 14 < 16383) ∧
    (∃ (e : Fin 96) (x : Nat) (s : State), s.atQuietStep e 1 x = true ∧ wIMM x % 2 ^ 14 ≤ s.rd .ENG_PC_CUR [e]) ∧
    (∃ (w : Writer) (e : Fin 96) (x : Nat) (s : State), s.reaches w .ENG_CTL [e] = true ∧ s.estate e = 5 ∧ s.instrWord e
    (s.rd .ENG_PC_CUR [e]) = x ∧ illegalWord x = false ∧ wOP x = 2 ∧ wKIND x = 0 ∧ wY x = false) ∧
    (∃ (e : Fin 96) (x : Nat) (s : State), s.atQuietStep e 1 x = true ∧ s.rd .ENG_PC_CUR [e] < wIMM x % 2 ^ 14 ∧ (s.engine
    e).lstack.any (fun l => l.1 == wCNT x) = true) ∧
    (∃ (e : Fin 96) (x : Nat) (s : State), s.atQuietStep e 1 x = true ∧ s.rd .ENG_PC_CUR [e] < wIMM x % 2 ^ 14 ∧ (s.engine
    e).lstack.all (fun l => l.1 != wCNT x) = true ∧ s.rd .ENG_LREL_COUNT [e, wCNT x] ≠ 0 ∧ 8 ≤ (s.engine e).lstack.length) ∧
    (∃ (e : Fin 96) (x a : Nat) (s : State), s.atQuietStep e 5 x = true ∧ s.on .ENG_STATUS_IN_HANDLER [e] = true ∧ (s.engine
    e).cstack.length = (s.engine e).tcall ∧ (s.engine e).lstack.length = (s.engine e).tloop ∧ (s.engine e).tret = a ∧ a <
    16384) ∧
    (∃ (e : Fin 96) (x : Nat) (s : State), s.atQuietStep e 5 x = true ∧ s.on .ENG_STATUS_IN_HANDLER [e] = true ∧ (s.engine
    e).cstack.length = (s.engine e).tcall ∧ (s.engine e).lstack.length ≠ (s.engine e).tloop) :=
  ⟨⟨5, ctlSlot 0 0 0 * 2 ^ 96, engAt 3 (ctlSlot 0 0 0) 0 [(.ENG_GEN_V_VALUE, [5, 1], 9)], by decide +kernel⟩,
    ⟨5, ctlSlot 0 0 0 * 2 ^ 96, 2, 90, 100, [],
    { engAt 3 (ctlSlot 0 0 0) 0 [(.ENG_LCNT_COUNT, [5, 2], 2)] with eng := [([5], { lstack := [(2, 90, 100)] })] },
    by decide +kernel⟩,
    ⟨5, ctlSlot 2 0 16383 * 2 ^ 96, engAt 3 (ctlSlot 2 0 16383) 0 [], by decide +kernel⟩,
    ⟨5, ctlSlot 3 1 200 * 2 ^ 96, engAt 3 (ctlSlot 3 1 200) 0 [], by decide +kernel⟩,
    ⟨5, ctlSlot 3 1 16584 * 2 ^ 96, engAt 3 (ctlSlot 3 1 16584) 0 [], by decide +kernel⟩,
    ⟨5, ctlSlot 4 0 200 * 2 ^ 96, { engAt 3 (ctlSlot 4 0 200) 0 [] with eng := [([5], { cstack := [1, 2, 3] })] },
    by decide +kernel⟩,
    ⟨5, ctlSlot 4 0 200 * 2 ^ 96, { engAt 3 (ctlSlot 4 0 200) 0 [] with eng := [([5], { cstack := [1, 2, 3, 4] })] },
    by decide +kernel⟩,
    ⟨5, ctlSlot 5 0 0 * 2 ^ 96, 7, [8], { engAt 3 (ctlSlot 5 0 0) 0 [] with eng := [([5], { cstack := [7, 8] })] },
    by decide +kernel⟩,
    ⟨5, ctlSlot 5 0 0 * 2 ^ 96, engAt 3 (ctlSlot 5 0 0) 0 [], by decide +kernel⟩,
    ⟨5, ctlSlot 1 3 200 * 2 ^ 96, engAt 3 (ctlSlot 1 3 200) 0 [(.ENG_LREL_COUNT, [5, 3], 4)], by decide +kernel⟩,
    ⟨5, ctlSlot 1 3 200 * 2 ^ 96, engAt 3 (ctlSlot 1 3 200) 0 [], by decide +kernel⟩,
    ⟨5, ctlSlot 1 3 100 * 2 ^ 96, engAt 3 (ctlSlot 1 3 100) 0 [], by decide +kernel⟩,
    ⟨.helm 0, 5, ctlSlot 2 0 16383 * 2 ^ 96, engAt 5 (ctlSlot 2 0 16383) 0 [up 0], by decide +kernel⟩,
    ⟨5, ctlSlot 1 3 200 * 2 ^ 96, { engAt 3 (ctlSlot 1 3 200) 0 [] with eng := [([5], { lstack := [(3, 1, 300)] })] },
    by decide +kernel⟩,
    ⟨5, ctlSlot 1 3 200 * 2 ^ 96,
    { engAt 3 (ctlSlot 1 3 200) 0 [(.ENG_LREL_COUNT, [5, 3], 4)] with eng := [([5], { lstack := List.replicate 8 (2, 1, 300) })] },
    by decide +kernel⟩,
    ⟨5, ctlSlot 5 0 0 * 2 ^ 96, 16383,
    { engAt 3 (ctlSlot 5 0 0) 0 [(.ENG_STATUS_IN_HANDLER, [5], 1)] with eng := [([5], { cstack := [7], tcall := 1, tret := 16383 })] },
    by decide +kernel⟩,
    ⟨5, ctlSlot 5 0 0 * 2 ^ 96,
    { engAt 3 (ctlSlot 5 0 0) 0 [(.ENG_STATUS_IN_HANDLER, [5], 1)] with eng := [([5], { lstack := [(2, 1, 300)] })] },
    by decide +kernel⟩⟩

theorem witness_EngineOperationsSetTheirRegisters :
    (∃ (e : Fin 96) (x : Nat) (s : State), s.atQuietStep e 10 x = true ∧ s.noLoopEnds e = true) ∧
    (∃ (e : Fin 96) (x : Nat) (s : State), s.atQuietStep e 11 x = true ∧ s.noLoopEnds e = true ∧ wIMM x = 1 ∧ s.strmOff e =
    false) ∧
    (∃ (e : Fin 96) (x : Nat) (s : State), s.atQuietStep e 11 x = true ∧ wIMM x = 1 ∧ s.strmOff e = true) ∧
    (∃ (e : Fin 96) (x : Nat) (s : State), s.atQuietStep e 11 x = true ∧ s.noLoopEnds e = true ∧ wIMM x = 0) ∧
    (∃ (e : Fin 96) (x : Nat) (s : State), s.atQuietStep e 12 x = true ∧ s.noLoopEnds e = true ∧ ceilDiv (wIMM x % 128) 16 ≤
    ceilDiv (s.strmRate e) 16) ∧
    (∃ (e : Fin 96) (x : Nat) (s : State), s.atQuietStep e 13 x = true ∧ s.noLoopEnds e = true ∧ (s.steward (engDie
    e)).queue.length < 256 ∧ (s.steward (engDie e)).lost = 0 ∧ (s.steward (engDie e)).lostFull = 0) ∧
    (∃ (e : Fin 96) (x : Nat) (s : State), s.atQuietStep e 14 x = true ∧ s.noLoopEnds e = true) ∧
    (∃ (e : Fin 96) (s : State), (s.engine e).strmOn = true ∧ s.estate e = 3 ∧ (s.engine e).issued < s.rd .ENG_STRM_LEN_LEN
    [e] ∧ (s.engine e).outst.length < 1024 ∧ (s.engine e).outst.length + (s.engine e).buf.length < 8192 ∧ 0 < s.strmRate e) ∧
    (∃ (e : Fin 96) (n : Nat) (data : BitVec 512) (status : Fin 4) (s : State), (s.engine e).outst.contains n = true) ∧
    (∃ (e : Fin 96) (s : State), (s.engine e).wait = .fill ∧ s.estate e = 4 ∧ s.filled e = true ∧ s.strmOff e = false ∧
    (s.engine e).strmOn = true ∧ s.rd .ENG_STRM_POS_POS [e] < s.rd .ENG_STRM_LEN_LEN [e] ∧ wKIND (s.instrWord e (s.rd
    .ENG_PC_CUR [e])) ≠ 0 ∧ wDSRC (s.instrWord e (s.rd .ENG_PC_CUR [e])) = 2 ∧ (s.engine e).buf.all (fun b => b.n != s.rd
    .ENG_STRM_POS_POS [e]) = true) ∧
    (∃ (e : Fin 96) (x : Nat) (s : State), s.estate e = 3 ∧ (s.engine e).stall = 2 ∧ (s.engine e).single = false ∧
    s.instrWord e (s.rd .ENG_PC_CUR [e]) = x ∧ wOP x = 0 ∧ wKIND x = 0 ∧ wY x = false ∧ s.noLoopEnds e = true) ∧
    (∃ (e : Fin 96) (s : State), (s.engine e).tmrDue ≠ 0 ∧ 3 ≤ s.estate e ∧ s.estate e ≤ 5 ∧ (s.engine e).tmrPend = false ∧
    s.rd .ENG_STATUS_IN_HANDLER [e] = 0) ∧
    (∃ (e : Fin 96) (s : State), (s.engine e).tmrDue ≠ 0 ∧ 3 ≤ s.estate e ∧ s.estate e ≤ 5 ∧ (s.engine e).tmrPend = true) :=
  ⟨⟨5, ctlSlot 10 7 8388607 * 2 ^ 96, engAt 3 (ctlSlot 10 7 8388607) 0 [], by decide +kernel⟩,
    ⟨5, ctlSlot 11 0 1 * 2 ^ 96,
    { engAt 3 (ctlSlot 11 0 1) 0 [(.ENG_STRM_CTL_RATE, [5], 32), (.ENG_STRM_LEN_LEN, [5], 9)] with eng := [([5], { buf := [⟨0, 1, 0⟩] })] },
    by decide +kernel⟩,
    ⟨5, ctlSlot 11 0 1 * 2 ^ 96, engAt 3 (ctlSlot 11 0 1) 0 [], by decide +kernel⟩,
    ⟨5, ctlSlot 11 0 0 * 2 ^ 96,
    { engAt 3 (ctlSlot 11 0 0) 0 [(.ENG_STRM_CTL_RATE, [5], 32), (.ENG_STRM_LEN_LEN, [5], 9)] with eng := [([5], { buf := [⟨0, 1, 0⟩], strmOn := true })] },
    by decide +kernel⟩,
    ⟨5, ctlSlot 12 0 17 * 2 ^ 96, engAt 3 (ctlSlot 12 0 17) 0 [(.ENG_STRM_CTL_RATE, [5], 32), (.ENG_STRM_LEN_LEN, [5], 9)],
    by decide +kernel⟩,
    ⟨5, ctlSlot 13 0 17 * 2 ^ 96, engAt 3 (ctlSlot 13 0 17) 0 [], by decide +kernel⟩,
    ⟨5, ctlSlot 14 0 65535 * 2 ^ 96,
    { engAt 3 (ctlSlot 14 0 65535) 0 [] with govs := [([0], { held := [{ op := 1, who := [5], units := 3, t := 0 }] })] },
    by decide +kernel⟩,
    ⟨5,
    { engAt 3 (ctlSlot 0 0 0) 0 [(.ENG_STRM_CTL_RATE, [5], 32), (.ENG_STRM_LEN_LEN, [5], 9)] with eng := [([5], { strmOn := true, issued := 4, outst := [3] })] },
    by decide +kernel⟩,
    ⟨5, 3, 17, 2,
    { engAt 3 (ctlSlot 0 0 0) 0 [(.ENG_STRM_CTL_RATE, [5], 32), (.ENG_STRM_LEN_LEN, [5], 9)] with eng := [([5], { strmOn := true, issued := 4, outst := [2, 3] })] },
    by decide +kernel⟩,
    ⟨5,
    { engAt 4 (ctlSlot 0 0 0) (2 ^ 46 + 2 * 2 ^ 44) [(.ENG_STRM_CTL_RATE, [5], 32), (.ENG_STRM_LEN_LEN, [5], 9)] with eng := [([5], { wait := .fill, strmOn := true })] },
    by decide +kernel⟩,
    ⟨5, 0, { engAt 3 (ctlSlot 0 0 0) 0 [] with eng := [([5], { stall := 2, waited := true })] }, by decide +kernel⟩,
    ⟨5, { engAt 3 (ctlSlot 0 0 0) 0 [(.ENG_TMR_PERIOD_PERIOD, [5], 100)] with eng := [([5], { tmrDue := 50 })] },
    by decide +kernel⟩,
    ⟨5, { engAt 3 (ctlSlot 0 0 0) 0 [] with eng := [([5], { tmrDue := 50, tmrPend := true })] }, by decide +kernel⟩⟩

theorem witness_WaitingStepsEndAtTheirCondition :
    (∃ (e : Fin 96) (x : Nat) (s : State), s.atQuietStep e 6 x = true ∧ wIMM x ≠ 0) ∧
    (∃ (e : Fin 96) (x u : Nat) (s : State), s.estate e = 4 ∧ (s.engine e).wait = .wait u ∧ (s.engine e).single = false ∧
    s.instrWord e (s.rd .ENG_PC_CUR [e]) = x ∧ wOP x = 6 ∧ wKIND x = 0 ∧ wY x = false ∧ s.noLoopEnds e = true) ∧
    (∃ (e : Fin 96) (x : Nat) (s : State), s.atQuietStep e 7 x = true ∧ (s.engine e).out ≠ [] ∧ (s.engine e).out.all (fun o
    => o.v.isSome) = true) ∧
    (∃ (e : Fin 96) (x : Nat) (s : State), s.estate e = 4 ∧ (s.engine e).wait = .drain true ∧ (s.engine e).out = [] ∧
    (s.engine e).single = false ∧ s.instrWord e (s.rd .ENG_PC_CUR [e]) = x ∧ wOP x = 7 ∧ wKIND x = 0 ∧ wY x = false ∧
    s.noLoopEnds e = true) ∧
    (∃ (e : Fin 96) (x : Nat) (s : State), s.atQuietStep e 9 x = true ∧ s.localNs < s.trigger e) ∧
    (∃ (e : Fin 96) (x : Nat) (s : State), s.atQuietStep e 9 x = true ∧ s.noLoopEnds e = true ∧ s.trigger e ≤ s.localNs) ∧
    (∃ (e : Fin 96) (x : Nat) (s : State), s.estate e = 4 ∧ (s.engine e).wait = .waitt ∧ (s.engine e).single = false ∧
    s.instrWord e (s.rd .ENG_PC_CUR [e]) = x ∧ wOP x = 9 ∧ wKIND x = 0 ∧ wY x = false ∧ s.noLoopEnds e = true) ∧
    (∃ (e : Fin 96) (x : Nat) (s : State), s.atQuietStep e 12 x = true ∧ ceilDiv (s.strmRate e) 16 < ceilDiv (wIMM x % 128)
    16 ∧ ceilDiv (wIMM x % 128) 16 - ceilDiv (s.strmRate e) 16 ≤ s.rd .PG_CFG_BUDGET [engDie e]) ∧
    (∃ (e : Fin 96) (x u : Nat) (s : State), s.estate e = 4 ∧ (s.engine e).wait = .rate u ∧ s.grantReady (engDie e) 2 [e] =
    true ∧ (s.engine e).single = false ∧ s.instrWord e (s.rd .ENG_PC_CUR [e]) = x ∧ wOP x = 12 ∧ wKIND x = 0 ∧ wY x = false
    ∧ s.noLoopEnds e = true) ∧
    (∃ (e : Fin 96) (x : Nat) (s : State), s.atQuietStep e 8 x = true ∧ bitsOf (wIMM x) 4 3 = 2 ∧ s.hubDown = false) ∧
    (∃ (e : Fin 96) (x : Nat) (s : State), s.atQuietStep e 8 x = true ∧ bitsOf (wIMM x) 4 3 = 4 ∧ s.hubDown = false ∧
    (s.engine e).kept = none) ∧
    (∃ (f : Fin 16) (o : FixOp) (q : List FixOp) (s : State), s.hubDown = false ∧ s.fixq = o :: q ∧ q.takeWhile (·.tied) =
    [] ∧ o.f = f.val ∧ o.kind = 1) ∧
    (∃ (f : Fin 16) (o : FixOp) (q : List FixOp) (s : State), s.hubDown = false ∧ s.fixq = o :: q ∧ q.takeWhile (·.tied) =
    [] ∧ o.f = f.val ∧ o.kind = 2 ∧ s.quorum f ≠ 0 ∧ s.quorum f = s.rd .FIX_STAT_COUNT [f] + 1) ∧
    (∃ (e : Fin 96) (x f : Nat) (b : Bcast) (s : State), s.bcasts[(s.engine e).seen]? = some b ∧ s.estate e = 4 ∧ (s.engine
    e).wait = .syncFlag f true ∧ b.f = f ∧ b.flag = true ∧ (s.engine e).single = false ∧ s.instrWord e (s.rd .ENG_PC_CUR
    [e]) = x ∧ wOP x = 8 ∧ wKIND x = 0 ∧ wY x = false ∧ s.noLoopEnds e = true) ∧
    (∃ (w : Writer) (f : Fin 16) (s : State), s.reaches w .FIX_STAT [f] = true) ∧
    (∃ (w : Writer) (f : Fin 16) (s : State), s.reaches w .FIX_STAT [f] = true) ∧
    (∃ (w : Writer) (f : Fin 16) (q : BitVec 7) (s : State), s.reaches w .FIX_CFG [f] = true) ∧
    (∃ (s : State), s.rebaseDue = true ∧ (∀ e : Fin 96, s.estate e ≠ 4)) :=
  ⟨⟨5, ctlSlot 6 0 90 * 2 ^ 96, engAt 3 (ctlSlot 6 0 90) 0 [], by decide +kernel⟩,
    ⟨5, ctlSlot 6 0 90 * 2 ^ 96, 91, { engAt 4 (ctlSlot 6 0 90) 0 [] with eng := [([5], { wait := .wait 91 })] },
    by decide +kernel⟩,
    ⟨5, ctlSlot 7 0 1 * 2 ^ 96,
    { engAt 3 (ctlSlot 7 0 1) 0 [] with eng := [([5], { out := [{ v := some 4, ix := none }] })] }, by decide +kernel⟩,
    ⟨5, ctlSlot 7 0 1 * 2 ^ 96,
    { engAt 4 (ctlSlot 7 0 1) 0 [] with eng := [([5], { wait := .drain true, sendEnd := 60 })] }, by decide +kernel⟩,
    ⟨5, ctlSlot 9 0 0 * 2 ^ 96, engAt 3 (ctlSlot 9 0 0) 0 [(.ENG_TTRIG_SL_SEC, [5], 4)], by decide +kernel⟩,
    ⟨5, ctlSlot 9 0 0 * 2 ^ 96, engAt 3 (ctlSlot 9 0 0) 0 [], by decide +kernel⟩,
    ⟨5, ctlSlot 9 0 0 * 2 ^ 96,
    { engAt 4 (ctlSlot 9 0 0) 0 [(.ENG_TTRIG_SL_SEC, [5], 4)] with eng := [([5], { wait := .waitt })] }, by decide +kernel⟩,
    ⟨5, ctlSlot 12 0 64 * 2 ^ 96, engAt 3 (ctlSlot 12 0 64) 0 [(.ENG_STRM_CTL_RATE, [5], 32)], by decide +kernel⟩,
    ⟨5, ctlSlot 12 0 64 * 2 ^ 96, 2,
    { granted (engAt 4 (ctlSlot 12 0 64) 0 [(.ENG_STRM_CTL_RATE, [5], 32)]) 0 2 [5] with eng := [([5], { wait := .rate 2 })] },
    by decide +kernel⟩,
    ⟨5, ctlSlot 8 0 41 * 2 ^ 96, engAt 3 (ctlSlot 8 0 41) 0 [], by decide +kernel⟩,
    ⟨5, ctlSlot 8 0 73 * 2 ^ 96, engAt 3 (ctlSlot 8 0 73) 0 [], by decide +kernel⟩,
    ⟨9, { f := 9, kind := 1, eng := some 5 }, [], { mk [] with fixq := [{ f := 9, kind := 1, eng := some 5 }] },
    by decide +kernel⟩,
    ⟨9, { f := 9, kind := 2, eng := some 5 }, [],
    { mk [(.FIX_CFG_QUORUM, [9], 3), (.FIX_STAT_COUNT, [9], 2)] with fixq := [{ f := 9, kind := 2, eng := some 5 }] },
    by decide +kernel⟩,
    ⟨5, ctlSlot 8 0 9 * 2 ^ 96, 9, { f := 9, flag := true, gen := false, eng := none, kind := 1, rebase := false, id := 0 },
    { { engAt 4 (ctlSlot 8 0 9) 0 [] with eng := [([5], { wait := .syncFlag 9 true })] } with bcasts := [{ f := 9, flag := true, gen := false, eng := none, kind := 1, rebase := false, id := 0 }] },
    by decide +kernel⟩,
    ⟨.helm 0, 9, mk [], by decide +kernel⟩,
    ⟨.helm 0, 9, mk [], by decide +kernel⟩,
    ⟨.helm 0, 9, 97, mk [(.FIX_STAT_COUNT, [9], 2)], by decide +kernel⟩,
    ⟨{ mk [] with rebaseDue := true, hubDown := true, eng := [([5], { flags := 7, gens := 3 })] }, by decide +kernel⟩⟩

theorem witness_ExpectationsFailOnMaskedDifferenceOrTimeout :
    (∃ (e : Fin 96) (x : Expn) (q : Resolution) (r : List Expn) (s : State), (s.engine e).cq = x :: r ∧ x.res = some q ∧
    q.unchecked = false ∧ (s.engine e).ff.length < 4096 ∧ (s.engine e).recs < s.rd .FC_REC_MAX_MAX [e]) :=
  ⟨5, { ix := 3, e := 12, m := 10, aw := 5, pc := 7, cmd := 1, x := 0, y := 0, z := 0, l := 0, headT := 40, res := some { r := 12, time := 9 } }, { r := 12, time := 9 }, [], { mk [up 0, (.FC_REC_MAX_MAX, [5], 3)] with eng := [([5], { cq := [{ ix := 3, e := 12, m := 10, aw := 5, pc := 7, cmd := 1, x := 0, y := 0, z := 0, l := 0, headT := 40, res := some { r := 12, time := 9 } }], out := [] })] }, by decide +kernel⟩

theorem witness_VectorsLeaveAndResponsesMeetTheirExpectation :
    (∃ (e : Fin 96) (s : State), (s.engine e).launched = true ∧ s.fcCount e ≠ 0 ∧ (s.engine e).out = []) ∧
    (∃ (e : Fin 96) (o : OutV) (r : List OutV) (s : State), (s.engine e).launched = true ∧ s.fcCount e ≠ 0 ∧ (s.engine
    e).out = o :: r) ∧
    (∃ (e : Fin 96) (tv b : Nat) (o : OutV) (r : List OutV) (s : State), (s.engine e).firstVecT = some tv ∧ s.dest e = 2 ∧
    (s.engine e).launched = false ∧ (s.engine e).out = o :: r ∧ s.fcCount e ≠ 0 ∧ s.rd .FC_CTL_TALIGN [e] = 0 ∧ o.v = some
    b) ∧
    (∃ (e : Fin 96) (n : Nat) (data : BitVec 512) (x : Expn) (r : List Expn) (s : State), (s.engine e).launched = true ∧
    s.rxDelay e ≤ n ∧ n - s.rxDelay e < (s.engine e).slot ∧ (s.engine e).cq = x :: r ∧ x.slot = some (n - s.rxDelay e) ∧
    x.res = none ∧ r.all (fun y => y.ix != x.ix) = true) ∧
    (∃ (e : Fin 96) (o : OutV) (r : List OutV) (s : State), s.dest e = 1 ∧ s.vpUp e = true ∧ (s.engine e).out = o :: r) ∧
    (∃ (e : Fin 96) (data : BitVec 512) (skip : Bool) (x : Expn) (r : List Expn) (s : State), s.dest e = 1 ∧ s.vpUp e = true
    ∧ (s.engine e).ff.length < 4096 ∧ (s.engine e).cq = x :: r ∧ x.res = none ∧ r.all (fun y => y.ix != x.ix) = true) ∧
    (∃ (e : Fin 96) (x : Expn) (r : List Expn) (s : State), s.dest e = 1 ∧ s.rd .FC_RSP_TO_TIMEOUT [e] ≠ 0 ∧ (s.engine e).cq
    = x :: r ∧ x.res = none ∧ r.all (fun y => y.ix != x.ix) = true) ∧
    (∃ (e : Fin 96) (x : Expn) (q : Resolution) (r : List Expn) (s : State), (s.engine e).cq = x :: r ∧ x.res = some q ∧
    q.unchecked = true) ∧
    (∃ (e : Fin 96) (x : Expn) (q : Resolution) (r : List Expn) (s : State), (s.engine e).cq = x :: r ∧ x.res = some q ∧
    q.unchecked = false ∧ q.timeout = true ∧ s.dest e = 2 ∧ 4096 ≤ (s.engine e).ff.length ∧ (s.engine e).recs < s.rd
    .FC_REC_MAX_MAX [e]) :=
  ⟨⟨5,
    { mk [up 0, (.FC_LANES_COUNT, [5], 1), (.ENG_OUT_DEST, [5], 2)] with eng := [([5], { launched := true, slot := 4 })] },
    by decide +kernel⟩,
    ⟨5, { v := some 4, ix := none }, [],
    { mk [up 0, (.FC_LANES_COUNT, [5], 1), (.ENG_OUT_DEST, [5], 2)] with eng := [([5], { launched := true, slot := 4, out := [{ v := some 4, ix := none }] })] },
    by decide +kernel⟩,
    ⟨5, 0, 4, { v := some 4, ix := none }, [],
    { mk [up 0, (.FC_LANES_COUNT, [5], 1), (.ENG_OUT_DEST, [5], 2)] with eng := [([5], { firstVecT := some 0, out := [{ v := some 4, ix := none }] })] },
    by decide +kernel⟩,
    ⟨5, 4, 77,
    { ix := 3, e := 12, m := 10, aw := 5, pc := 7, cmd := 1, x := 0, y := 0, z := 0, l := 0, headT := 40, slot := some 4 },
    [],
    { mk [up 0, (.FC_LANES_COUNT, [5], 1), (.ENG_OUT_DEST, [5], 2), (.FC_RX_DELAY, [5], 0)] with eng := [([5], { launched := true, slot := 5, cq := [{ ix := 3, e := 12, m := 10, aw := 5, pc := 7, cmd := 1, x := 0, y := 0, z := 0, l := 0, headT := 40, slot := some 4 }] })] },
    by decide +kernel⟩,
    ⟨5, { v := some 4, ix := none }, [],
    { mk [up 0, (.ENG_OUT_DEST, [5], 1), (.SEC_STATUS_STATE, [0, 14], 3)] with eng := [([5], { out := [{ v := some 4, ix := none }] })] },
    by decide +kernel⟩,
    ⟨5, 3, false, { ix := 3, e := 12, m := 10, aw := 5, pc := 7, cmd := 1, x := 0, y := 0, z := 0, l := 0, headT := 40 },
    [],
    { mk [up 0, (.ENG_OUT_DEST, [5], 1), (.SEC_STATUS_STATE, [0, 14], 3)] with eng := [([5], { cq := [{ ix := 3, e := 12, m := 10, aw := 5, pc := 7, cmd := 1, x := 0, y := 0, z := 0, l := 0, headT := 40 }] })] },
    by decide +kernel⟩,
    ⟨5, { ix := 3, e := 12, m := 10, aw := 5, pc := 7, cmd := 1, x := 0, y := 0, z := 0, l := 0, headT := 40 }, [],
    { mk [up 0, (.ENG_OUT_DEST, [5], 1), (.SEC_STATUS_STATE, [0, 14], 3), (.FC_RSP_TO_TIMEOUT, [5], 3)] with eng := [([5], { cq := [{ ix := 3, e := 12, m := 10, aw := 5, pc := 7, cmd := 1, x := 0, y := 0, z := 0, l := 0, headT := 40 }] })] },
    by decide +kernel⟩,
    ⟨5,
    { ix := 3, e := 12, m := 10, aw := 5, pc := 7, cmd := 1, x := 0, y := 0, z := 0, l := 0, headT := 40, res := some { unchecked := true, time := 0 } },
    { unchecked := true, time := 0 }, [],
    { mk [up 0] with eng := [([5], { cq := [{ ix := 3, e := 12, m := 10, aw := 5, pc := 7, cmd := 1, x := 0, y := 0, z := 0, l := 0, headT := 40, res := some { unchecked := true, time := 0 } }] })] },
    by decide +kernel⟩,
    ⟨5,
    { ix := 3, e := 12, m := 10, aw := 5, pc := 7, cmd := 1, x := 0, y := 0, z := 0, l := 0, headT := 40, res := some { timeout := true, time := 0 } },
    { timeout := true, time := 0 }, [],
    { mk [up 0, (.FC_LANES_COUNT, [5], 1), (.ENG_OUT_DEST, [5], 2), (.FC_REC_MAX_MAX, [5], 3)] with eng := [([5], { cq := [{ ix := 3, e := 12, m := 10, aw := 5, pc := 7, cmd := 1, x := 0, y := 0, z := 0, l := 0, headT := 40, res := some { timeout := true, time := 0 } }], ff := List.replicate 4096 { index := 0, engine := 5, run := 0, aw := 0, pc := 0, timeout := false, rxBad := false, first := false, droppedBefore := false, cmd := 0, time := 0, x := 0, y := 0, z := 0, l := 0, f := 1 } })] },
    by decide +kernel⟩⟩

theorem witness_FailRingAndBitmapKeepTheirRecords :
    (∃ (e : Fin 96) (x : FailRec) (r : List FailRec) (s : State), (s.engine e).ff = x :: r ∧ s.ringLog2 e ≠ 0 ∧ s.rd
    .FC_STATUS_RING_ERR [e] = 0 ∧ s.ringLevel e ≠ 2 ^ s.ringLog2 e ∧ s.rd .FC_CTL_FORMAT [e] = 1 ∧ s.mapStatus (engMst e)
    (s.ringSlot e (s.rd .FC_RING_WR_COUNT [e])) = 0 ∧ 0x800000000000 ≤ s.ringSlot e (s.rd .FC_RING_WR_COUNT [e]) ∧
    s.ringSlot e (s.rd .FC_RING_WR_COUNT [e]) < 0x1000000000000) ∧
    (∃ (e : Fin 96) (env : Fin 4) (x : FailRec) (r : List FailRec) (s : State), (s.engine e).ff = x :: r ∧ s.ringLog2 e ≠ 0
    ∧ s.rd .FC_STATUS_RING_ERR [e] = 0 ∧ s.ringLevel e ≠ 2 ^ s.ringLog2 e ∧ s.rd .FC_CTL_FORMAT [e] = 1 ∧ s.mapStatus
    (engMst e) (s.ringSlot e (s.rd .FC_RING_WR_COUNT [e])) = 2) ∧
    (∃ (w : Writer) (e : Fin 96) (s : State), s.reaches w .FC_STATUS [e] = true) ∧
    (∃ (w : Writer) (e : Fin 96) (v : BitVec 32) (s : State), s.reaches w .FC_RING_RD [e] = true ∧ (v.toNat + 2 ^ 32 - s.rd
    .FC_RING_RD_COUNT [e]) % 2 ^ 32 ≤ (s.rd .FC_RING_WR_COUNT [e] + 2 ^ 32 - s.rd .FC_RING_RD_COUNT [e]) % 2 ^ 32) ∧
    (∃ (w : Writer) (e : Fin 96) (v : BitVec 32) (s : State), s.reaches w .FC_RING_RD [e] = true ∧ (s.rd .FC_RING_WR_COUNT
    [e] + 2 ^ 32 - s.rd .FC_RING_RD_COUNT [e]) % 2 ^ 32 < (v.toNat + 2 ^ 32 - s.rd .FC_RING_RD_COUNT [e]) % 2 ^ 32) ∧
    (∃ (w : Writer) (e : Fin 96) (v : BitVec 32) (s : State), s.reaches w .FC_LANES [e] = true ∧ s.fcOpen e = true ∧
    s.fcLanesBad e v.toNat = false) ∧
    (∃ (w : Writer) (e : Fin 96) (v : BitVec 32) (s : State), s.reaches w .FC_LANES [e] = true ∧ s.fcOpen e = true ∧
    (v.toNat % 8 = 3 ∨ 5 ≤ v.toNat % 8)) ∧
    (∃ (w : Writer) (e : Fin 96) (s : State), s.reaches w .FC_CTL [e] = true ∧ (s.estate e = 0 ∨ (5 ≤ s.estate e ∧ s.estate
    e ≤ 8))) ∧
    (∃ (e : Fin 96) (s : State), s.rd .FC_STATUS_BM_BUSY [e] = 1 ∧ (s.engine e).bmHeld = []) ∧
    (∃ (w : Writer) (e : Fin 96) (s : State), s.reaches w .FC_CTL [e] = true) :=
  ⟨⟨5,
    { index := 0, engine := 5, run := 0, aw := 0, pc := 0, timeout := false, rxBad := false, first := false, droppedBefore := false, cmd := 0, time := 0, x := 0, y := 0, z := 0, l := 0, f := 1 },
    [],
    { mk [up 0, (.FC_RING_SIZE_LOG2, [5], 4), (.FC_CTL_FORMAT, [5], 1), (.FC_RING_BASE_HI_ADDR, [5], 0x8000)] with eng := [([5], { ff := [{ index := 0, engine := 5, run := 0, aw := 0, pc := 0, timeout := false, rxBad := false, first := false, droppedBefore := false, cmd := 0, time := 0, x := 0, y := 0, z := 0, l := 0, f := 1 }] })] },
    by decide +kernel⟩,
    ⟨5, 0,
    { index := 0, engine := 5, run := 0, aw := 0, pc := 0, timeout := false, rxBad := false, first := false, droppedBefore := false, cmd := 0, time := 0, x := 0, y := 0, z := 0, l := 0, f := 1 },
    [],
    { mk [up 0, (.FC_RING_SIZE_LOG2, [5], 4), (.FC_CTL_FORMAT, [5], 1), (.FC_RING_BASE_HI_ADDR, [5], 0x30)] with eng := [([5], { ff := [{ index := 0, engine := 5, run := 0, aw := 0, pc := 0, timeout := false, rxBad := false, first := false, droppedBefore := false, cmd := 0, time := 0, x := 0, y := 0, z := 0, l := 0, f := 1 }] })] },
    by decide +kernel⟩,
    ⟨.helm 0, 5, mk [up 0, (.FC_STATUS_RING_ERR, [5], 1)], by decide +kernel⟩,
    ⟨.helm 0, 5, 3, mk [up 0, (.FC_RING_WR_COUNT, [5], 3)], by decide +kernel⟩,
    ⟨.helm 0, 5, 4, mk [up 0, (.FC_RING_WR_COUNT, [5], 3)], by decide +kernel⟩,
    ⟨.helm 0, 5, 0x902, mk [up 0, (.FC_LANES_COUNT, [5], 2)], by decide +kernel⟩,
    ⟨.helm 0, 5, 3, mk [up 0], by decide +kernel⟩,
    ⟨.helm 0, 5, mk [up 0], by decide +kernel⟩,
    ⟨5, { (mk [(.FC_STATUS_BM_BUSY, [5], 1)]).winStore 5 0x80000 4 77 with eng := [] }, by decide +kernel⟩,
    ⟨.helm 0, 5, mk [up 0, (.FC_FAIL_CNT_COUNT, [5], 3)], by decide +kernel⟩⟩

theorem witness_RoutersForwardBounceAndDrain :
    (∃ (site : Fin 9) (r : Fin 24) (port : Fin 8) (vc : Fin 5) (p : Pkt) (q : List Pkt) (t' r' port' : Nat) (s : State), s.q
    site r port vc = p :: q ∧ p.malformed = false ∧ p.len ≠ 0 ∧ s.outOk site r (bitsOf p.route 0 3) p = true ∧ s.drains site
    r (bitsOf p.route 0 3) = false ∧ galkorOf site r (bitsOf p.route 0 3) = none ∧ s.raised site r (bitsOf p.route 0 3) =
    [(port.val, vc.val, p)] ∧ hopOf site r (bitsOf p.route 0 3) = some (.router t' r' port')) ∧
    (∃ (site : Fin 9) (r : Fin 24) (port : Fin 8) (vc : Fin 5) (p : Pkt) (q : List Pkt) (n k j : Nat) (s : State), s.q site
    r port vc = p :: q ∧ p.malformed = false ∧ p.len ≠ 0 ∧ s.outOk site r (bitsOf p.route 0 3) p = true ∧ s.drains site r
    (bitsOf p.route 0 3) = false ∧ galkorOf site r (bitsOf p.route 0 3) = some (n, k, j) ∧ galkorOut n k j = (site.val,
    r.val, bitsOf p.route 0 3) ∧ s.rtNext site r (bitsOf p.route 0 3) = some (port.val, vc.val) ∧ s.raised site r (bitsOf
    p.route 0 3) = [(port.val, vc.val, p)] ∧ (s.pool n k (s.poolOf n k p)).txq = [] ∧ s.poolRaised n k (s.poolOf n k p) =
    [(j, gkInput j p, port.val, vc.val, p)]) ∧
    (∃ (site : Fin 9) (r : Fin 24) (port : Fin 8) (vc : Fin 5) (p : Pkt) (q : List Pkt) (s : State), s.q site r port vc = p
    :: q ∧ p.malformed = false ∧ p.bounce = false ∧ s.outOk site r (bitsOf p.route 0 3) p = false) ∧
    (∃ (site : Fin 9) (r : Fin 24) (port : Fin 8) (vc : Fin 5) (p : Pkt) (q : List Pkt) (s : State), s.q site r port vc = p
    :: q ∧ p.malformed = false ∧ p.bounce = false ∧ s.outOk site r (bitsOf p.route 0 3) p = false ∧ s.drains site r port =
    true) ∧
    (∃ (site : Fin 9) (r : Fin 24) (port : Fin 8) (vc : Fin 5) (errs : List FlitErr) (p : Pkt) (q : List Pkt) (s : State),
    s.q site r port vc = p :: q ∧ errs.any (fun e => e.flit == 0 && e.word.isNone && e.bad) = true) ∧
    (∃ (site : Fin 9) (r : Fin 24) (port : Fin 8) (vc : Fin 5) (p : Pkt) (q : List Pkt) (s : State), s.q site r port vc = p
    :: q ∧ p.bounce = false ∧ s.rd .NOC_STALL_TIMEOUT [site] ≠ 0) ∧
    (∃ (site : Fin 9) (r : Fin 24) (port : Fin 8) (vc : Fin 5) (p : Pkt) (q : List Pkt) (s : State), s.q site r port vc = p
    :: q ∧ p.bounce = false ∧ s.drains site r (bitsOf p.route 0 3) = true) ∧
    (∃ (w : Writer) (site : Fin 9) (r : Fin 24) (bits : BitVec 8) (s : State), s.reaches w .NOC_RTR_PORT [site, r] = true) ∧
    (∃ (site : Fin 9) (r : Fin 24) (p : Fin 8) (s : State), s.drains site r p = true ∧ s.behindEmpty site r p = true) ∧
    (∃ (w : Writer) (site : Fin 9) (r : Fin 24) (p : Fin 8) (v : BitVec 32) (s : State), s.reaches w .NOC_RTR_VC [site, r,
    p] = true ∧ s.portFree site r p = true ∧ vcBad v.toNat = false) ∧
    (∃ (w : Writer) (site : Fin 9) (r : Fin 24) (p : Fin 8) (v : BitVec 32) (s : State), s.reaches w .NOC_RTR_VC [site, r,
    p] = true ∧ vcBad v.toNat = true) ∧
    (∃ (w : Writer) (site : Fin 9) (r : Fin 24) (p : Fin 8) (v : BitVec 32) (s : State), s.reaches w .NOC_RTR_PORT [site, r]
    = true ∧ (∀ b : Fin 8, s.portFree site r b = true)) :=
  ⟨⟨0, 5, 4, 0, { dest := 0x105, src := 5, cls := 0, opc := 1, route := 1, len := 2 }, [], 0, 6, 3,
    { mk [up 0, up 1, (.NOC_RTR_PORT_EN, [0, 5], 0xFF)] with rtq := [([0, 5, 4, 0], [{ dest := 0x105, src := 5, cls := 0, opc := 1, route := 1, len := 2 }])] },
    by decide +kernel⟩,
    ⟨0, 20, 4, 0, { dest := 0x105, src := 5, cls := 0, opc := 1, route := 0, len := 2 }, [], 1, 0, 0,
    { mk [up 0, up 1, (.NOC_RTR_PORT_EN, [0, 20], 0xFF), (.GK_STAT_STATE, [1, 0], 2), (.GK_STAT_NOC, [1, 0], 48), (.GK_STAT_STATE, [0, 1], 2)] with rtq := [([0, 20, 4, 0], [{ dest := 0x105, src := 5, cls := 0, opc := 1, route := 0, len := 2 }])], rtPend := [([0, 20, 0], some (4, 0))] },
    by decide +kernel⟩,
    ⟨0, 5, 4, 0, { dest := 0x105, src := 5, cls := 0, opc := 1, route := 1, len := 2 }, [],
    { mk [up 0, up 1] with rtq := [([0, 5, 4, 0], [{ dest := 0x105, src := 5, cls := 0, opc := 1, route := 1, len := 2 }])] },
    by decide +kernel⟩,
    ⟨0, 5, 4, 0, { dest := 0x105, src := 5, cls := 0, opc := 1, route := 1, len := 2 }, [],
    { mk [up 0, up 1, (.NOC_RTR_PORT_DRAIN, [0, 5], 16)] with rtq := [([0, 5, 4, 0], [{ dest := 0x105, src := 5, cls := 0, opc := 1, route := 1, len := 2 }])] },
    by decide +kernel⟩,
    ⟨0, 5, 4, 0, [⟨0, none, true⟩], { dest := 0x105, src := 5, cls := 0, opc := 1, route := 1, len := 2 }, [],
    { mk [up 0, up 1] with rtq := [([0, 5, 4, 0], [{ dest := 0x105, src := 5, cls := 0, opc := 1, route := 1, len := 2 }])] },
    by decide +kernel⟩,
    ⟨0, 5, 4, 0, { dest := 0x105, src := 5, cls := 0, opc := 1, route := 1, len := 2 }, [],
    { mk [up 0, up 1] with rtq := [([0, 5, 4, 0], [{ dest := 0x105, src := 5, cls := 0, opc := 1, route := 1, len := 2 }])] },
    by decide +kernel⟩,
    ⟨0, 5, 4, 0, { dest := 0x105, src := 5, cls := 0, opc := 1, route := 1, len := 2 }, [],
    { mk [up 0, up 1, (.NOC_RTR_PORT_DRAIN, [0, 5], 2)] with rtq := [([0, 5, 4, 0], [{ dest := 0x105, src := 5, cls := 0, opc := 1, route := 1, len := 2 }])] },
    by decide +kernel⟩,
    ⟨.helm 0, 0, 5, 3, mk [up 0, up 1, (.NOC_RTR_PORT_DRAINED, [0, 5], 6)], by decide +kernel⟩,
    ⟨0, 5, 1, mk [up 0, up 1, (.NOC_RTR_PORT_DRAIN, [0, 5], 2)], by decide +kernel⟩,
    ⟨.helm 0, 0, 5, 1, 0x08080808, mk [up 0, up 1], by decide +kernel⟩,
    ⟨.helm 0, 0, 5, 1, 0x02080808, mk [up 0, up 1], by decide +kernel⟩,
    ⟨.helm 0, 0, 5, 1, 0xA5, mk [up 0, up 1], by decide +kernel⟩⟩

theorem witness_NetworkInterfacesSendAndResendPackets :
    (∃ (w : Writer) (site : Fin 9) (ni : Fin 48) (k : Fin 512) (s : State), s.reaches w .NOC_NI_BSEL [site, ni] = true) ∧
    (∃ (w : Writer) (site : Fin 9) (ni : Fin 48) (k : Fin 512) (b : List Nat) (s : State), s.reaches w .NOC_NI_BSEL [site,
    ni] = true ∧ b = (List.range 4).map (fun j => s.rd .NOC_NI_BDATA_WORD [site.val, ni.val, j]) ∧ bPriLen b ≤ 16 ∧ bAltLen
    b ≤ 16 ∧ (∀ j : Fin 512, j ≠ k → bValid b = true → bValid (s.bearing site ni j) = true → bDest (s.bearing site ni j) ≠
    bDest b)) ∧
    (∃ (w : Writer) (site : Fin 9) (ni : Fin 48) (k : Fin 512) (b : List Nat) (s : State), s.reaches w .NOC_NI_BSEL [site,
    ni] = true ∧ b = (List.range 4).map (fun j => s.rd .NOC_NI_BDATA_WORD [site.val, ni.val, j]) ∧ (16 < bPriLen b ∨ 16 <
    bAltLen b)) ∧
    (∃ (w : Writer) (site : Fin 9) (ni : Fin 48) (k j : Fin 512) (b : List Nat) (s : State), s.reaches w .NOC_NI_BSEL [site,
    ni] = true ∧ b = (List.range 4).map (fun j => s.rd .NOC_NI_BDATA_WORD [site.val, ni.val, j]) ∧ j ≠ k ∧ bValid b = true ∧
    bValid (s.bearing site ni j) = true ∧ bDest (s.bearing site ni j) = bDest b) ∧
    (∃ (w : Writer) (site : Fin 9) (ni : Fin 48) (k : Fin 512) (s : State), s.reaches w .NOC_NI_BSEL [site, ni] = true ∧
    bWord (s.bearing site ni k) 0 < 2 ^ 32) ∧
    (∃ (site : Fin 9) (ni : Fin 48) (id dest k : Nat) (b : List Nat) (addr : BitVec 48) (tag : BitVec 10) (fn : BitVec 4) (s
    : State), niId site ni = some id ∧ (s.niRt site ni).hold = [] ∧ (s.niRt site ni).resend = [] ∧ (s.niRt site ni).held =
    [] ∧ (s.niRt site ni).reqs = [] ∧ s.rd .NOC_NI_CTL_EN [site, ni] = 1 ∧ s.niRefuses { src := id, fn := fn.toNat }
    addr.toNat = 0 ∧ isRelay site ni = false ∧ s.destOf site addr.toNat = some dest ∧ niId site ni ≠ some dest ∧
    s.bearingFor site ni dest = some (k, b) ∧ bUseAlt b = false ∧ bPriLen b ≠ 0 ∧ flitsOf (s.q site (ni.val / 2) (4 + ni.val
    % 2) 0) + 1 ≤ s.vcDepth site (ni.val / 2) (4 + ni.val % 2) 0) ∧
    (∃ (site : Fin 9) (ni : Fin 48) (p : Pkt) (r : List Pkt) (k : Nat) (b : List Nat) (s : State), (s.niRt site ni).bounced
    = p :: r ∧ r.all (fun q => decide (p.sn ≤ q.sn)) = true ∧ (s.niRt site ni).hold = [] ∧ (s.niRt site ni).resend = [] ∧
    s.rd .NOC_NI_CTL_EN [site, ni] = 1 ∧ p.alt = false ∧ p.again = false ∧ s.bearingFor site ni p.dest = some (k, b) ∧
    bAltValid b = true ∧ bUseAlt b = false ∧ bAltLen b ≠ 0 ∧ bWord b 0 < 2 ^ 32 ∧ b.length = 4 ∧ s.niRoom site ni p = true) ∧
    (∃ (site : Fin 9) (ni : Fin 48) (p : Pkt) (r : List Pkt) (s : State), (s.niRt site ni).bounced = p :: r ∧ r.all (fun q
    => decide (p.sn ≤ q.sn)) = true ∧ (s.niRt site ni).hold = [] ∧ (s.niRt site ni).resend = [] ∧ s.rd .NOC_NI_CTL_EN [site,
    ni] = 1 ∧ p.cls = 0 ∧ p.again = true ∧ isRelay site ni = false) ∧
    (∃ (site : Fin 9) (ni : Fin 48) (p : Pkt) (r : List Pkt) (s : State), (s.niRt site ni).bounced = p :: r ∧ r.all (fun q
    => decide (p.sn ≤ q.sn)) = true ∧ s.rd .NOC_NI_CTL_EN [site, ni] = 1) ∧
    (∃ (site : Fin 9) (ni : Fin 48) (p : Pkt) (r : List Pkt) (k : Nat) (b : List Nat) (s : State), (s.niRt site ni).inq = p
    :: r ∧ (s.niRt site ni).hold = [] ∧ (s.niRt site ni).resend = [] ∧ s.rd .NOC_NI_CTL_EN [site, ni] = 1 ∧ isRelay site ni
    = true ∧ niId site ni ≠ some p.dest ∧ p.cls = 3 ∧ (s.niRt site ni).held = [] ∧ s.bearingFor site ni p.dest = some (k, b)
    ∧ bUseAlt b = false ∧ bPriLen b ≠ 0 ∧ s.niRoom site ni p = true) ∧
    (∃ (site : Fin 9) (ni : Fin 48) (p : Pkt) (r : List Pkt) (s : State), (s.niRt site ni).inq = p :: r ∧ (s.niRt site
    ni).hold = [] ∧ (s.niRt site ni).resend = [] ∧ s.rd .NOC_NI_CTL_EN [site, ni] = 1 ∧ niId site ni = some p.dest ∧
    p.malformed = false ∧ p.cls = 3 ∧ s.blockRoom site ni = true ∧ p.poison = false) ∧
    (∃ (site : Fin 9) (ni : Fin 48) (src : BitVec 12) (id u k : Nat) (us b : List Nat) (s : State), niId site ni = some id ∧
    smGet (s.niRt site ni).acks [src.toNat] [] = u :: us ∧ us.length < 16 ∧ id ≠ src.toNat ∧ (s.niRt site ni).held = [] ∧
    (s.niRt site ni).hold = [] ∧ (s.niRt site ni).resend = [] ∧ s.rd .NOC_NI_CTL_EN [site, ni] = 1 ∧ s.bearingFor site ni
    src.toNat = some (k, b) ∧ bUseAlt b = false ∧ bPriLen b ≠ 0 ∧ flitsOf (s.q site (ni.val / 2) (4 + ni.val % 2) 3) + 1 ≤
    s.vcDepth site (ni.val / 2) (4 + ni.val % 2) 3) ∧
    (∃ (site : Fin 9) (ni : Fin 48) (tag : BitVec 10) (dest opc u : Nat) (s : State), (s.niRt site ni).reqs = [(tag.toNat,
    dest, opc, u)] ∧ s.rd .NOC_NI_CTL_RSP_TO [site, ni] ≠ 0 ∧ (s.niRt site ni).hold = [] ∧ (s.niRt site ni).resend = []) :=
  ⟨⟨.helm 0, 0, 10, 7, { mk [up 0, up 1] with bearings := [([0, 10, 7], [0xA2020105, 0x9, 0x70000, 0])] },
    by decide +kernel⟩,
    ⟨.helm 0, 0, 10, 7, [0xA202F105, 0x9, 0x70000, 0], mk [up 0, up 1, (.NOC_NI_BDATA_WORD, [0, 10, 0], 0xA202F105),
    (.NOC_NI_BDATA_WORD, [0, 10, 1], 0x9), (.NOC_NI_BDATA_WORD, [0, 10, 2], 0x70000), (.NOC_NI_BDATA_WORD, [0, 10, 3], 0)],
    by decide +kernel⟩,
    ⟨.helm 0, 0, 10, 7, [0x80110105, 0, 0, 0], mk [up 0, up 1, (.NOC_NI_BDATA_WORD, [0, 10, 0], 0x80110105)],
    by decide +kernel⟩,
    ⟨.helm 0, 0, 10, 8, 7, [0x80010105, 0, 0, 0],
    { mk [up 0, up 1, (.NOC_NI_BDATA_WORD, [0, 10, 0], 0x80010105)] with bearings := [([0, 10, 7], [0xA2020105, 0x9, 0x70000, 0])] },
    by decide +kernel⟩,
    ⟨.helm 0, 0, 10, 7, { mk [up 0, up 1] with bearings := [([0, 10, 7], [0xA2020105, 0x9, 0x70000, 0])] },
    by decide +kernel⟩,
    ⟨0, 10, 1, 0x801, 7, [0xA2020801, 0x9, 0x70000, 0], 0x800000000040, 9, 3,
    { mk [up 0, up 1, (.NOC_NI_CTL_EN, [0, 10], 1), (.NOC_RTR_VC_REQ, [0, 5, 4], 8), (.NOC_RTR_VC_RSP, [0, 5, 4], 8)] with bearings := [([0, 10, 7], [0xA2020801, 0x9, 0x70000, 0])] },
    by decide +kernel⟩,
    ⟨0, 10, { dest := 0x105, src := 5, cls := 0, opc := 1, route := 9, len := 2 }, [], 7, [0xA2020105, 0x9, 0x70000, 0],
    { mk [up 0, up 1, (.NOC_NI_CTL_EN, [0, 10], 1), (.NOC_RTR_VC_REQ, [0, 5, 4], 8), (.NOC_RTR_VC_RSP, [0, 5, 4], 8)] with bearings := [([0, 10, 7], [0xA2020105, 0x9, 0x70000, 0])], ni := [([0, 10], { bounced := [{ dest := 0x105, src := 5, cls := 0, opc := 1, route := 9, len := 2 }] })] },
    by decide +kernel⟩,
    ⟨0, 10, { dest := 0x105, src := 5, cls := 0, opc := 1, again := true }, [],
    { mk [up 0, up 1, (.NOC_NI_CTL_EN, [0, 10], 1), (.NOC_RTR_VC_REQ, [0, 5, 4], 8), (.NOC_RTR_VC_RSP, [0, 5, 4], 8)] with bearings := [([0, 10, 7], [0xA2020105, 0x9, 0x70000, 0])], ni := [([0, 10], { bounced := [{ dest := 0x105, src := 5, cls := 0, opc := 1, again := true }] })] },
    by decide +kernel⟩,
    ⟨0, 10, { dest := 0x105, src := 5, cls := 0, opc := 1, again := true }, [],
    { mk [up 0, up 1, (.NOC_NI_CTL_EN, [0, 10], 1), (.NOC_RTR_VC_REQ, [0, 5, 4], 8), (.NOC_RTR_VC_RSP, [0, 5, 4], 8)] with bearings := [([0, 10, 7], [0xA2020105, 0x9, 0x70000, 0])], ni := [([0, 10], { bounced := [{ dest := 0x105, src := 5, cls := 0, opc := 1, again := true }] })] },
    by decide +kernel⟩,
    ⟨0, 33, { dest := 0x105, src := 5, cls := 3, opc := 0x10 }, [], 7, [0xA2020105, 0x9, 0x70000, 0],
    { mk [up 0, up 1, (.NOC_NI_CTL_EN, [0, 33], 1)] with bearings := [([0, 33, 7], [0xA2020105, 0x9, 0x70000, 0])], ni := [([0, 33], { inq := [{ dest := 0x105, src := 5, cls := 3, opc := 0x10 }] })] },
    by decide +kernel⟩,
    ⟨0, 10, { dest := 1, src := 5, cls := 3, opc := 0x10, tag := 9 }, [],
    { mk [up 0, up 1, (.NOC_NI_CTL_EN, [0, 10], 1), (.NOC_RTR_VC_REQ, [0, 5, 4], 8), (.NOC_RTR_VC_RSP, [0, 5, 4], 8)] with ni := [([0, 10], { inq := [{ dest := 1, src := 5, cls := 3, opc := 0x10, tag := 9 }], reqs := [(9, 5, 1, 6), (8, 5, 1, 6)] })] },
    by decide +kernel⟩,
    ⟨0, 10, 0x105, 1, 40, 7, [41, 44], [0xA2020105, 0x9, 0x70000, 0],
    { mk [up 0, up 1, (.NOC_NI_CTL_EN, [0, 10], 1), (.NOC_RTR_VC_REQ, [0, 5, 4], 8), (.NOC_RTR_VC_RSP, [0, 5, 4], 8)] with bearings := [([0, 10, 7], [0xA2020105, 0x9, 0x70000, 0])], ni := [([0, 10], { acks := [([0x105], [40, 41, 44])] })] },
    by decide +kernel⟩,
    ⟨0, 10, 9, 5, 1, 6,
    { mk [up 0, up 1, (.NOC_NI_CTL_EN, [0, 10], 1), (.NOC_RTR_VC_REQ, [0, 5, 4], 8), (.NOC_RTR_VC_RSP, [0, 5, 4], 8)] with ni := [([0, 10], { reqs := [(9, 5, 1, 6)] })] },
    by decide +kernel⟩⟩

theorem witness_HbmRequestsAreServedInTheirStack :
    (∃ (st : Fin 4) (p n : Nat) (q : HbmReq) (r : List HbmReq) (s : State), s.presenting st = [(p, n, q)] ∧ smGet s.hbmPort
    [st.val, p] [] = q :: r ∧ s.stackOk st = true ∧ (s.sealCheck st { src := q.src, fn := q.fn } q.a true).1 = 0 ∧ s.rangeOf
    st q.a = none ∧ q.opc = 7 ∧ q.poison = false ∧ s.winAttr (hbmJoin s.ilv st q.a) ≠ 1) ∧
    (∃ (st : Fin 4) (c : Fin 32) (demand : Bool) (par : Fin 3) (b : Nat) (r : List Nat) (s : State), (s.pc st c).rfm = b ::
    r ∧ s.rd .HBM_CH_STAT_STATE [st, c.val / 2] ≠ 2) ∧
    (∃ (st : Fin 4) (c : Fin 32) (demand : Bool) (par : Fin 3) (s : State), (s.pc st c).rfm = [] ∧ (s.pc st c).rq = [] ∧
    (s.pc st c).wq = [] ∧ 0 < (s.pc st c).owed ∧ s.rd .HBM_CH_STAT_STATE [st, c.val / 2] ≠ 2) ∧
    (∃ (st : Fin 4) (c : Fin 32) (demand : Bool) (par : Fin 3) (q : HbmReq) (s : State), (s.pc st c).rfm = [] ∧ (s.pc st
    c).owed = 0 ∧ (s.pc st c).rq = [q] ∧ (s.pc st c).wq = [] ∧ s.rd .HBM_CH_STAT_STATE [st, c.val / 2] ≠ 2) ∧
    (∃ (st : Fin 4) (c : Fin 32) (n : Nat) (line : Fin 4) (level : Fin 8) (mirror : Bool) (flips : BitVec 576) (q : HbmReq)
    (s : State), (s.pc st c).inflight[n]? = some q) ∧
    (∃ (st : Fin 4) (c : Fin 32) (n : Nat) (line : Fin 4) (level : Fin 8) (mirror : Bool) (flips : BitVec 576) (q : HbmReq)
    (s : State), (s.pc st c).inflight[n]? = some q) ∧
    (∃ (st : Fin 4) (c : Fin 32) (s : State), (s.hstate st = 2 ∨ s.hstate st = 5)) ∧
    (∃ (st : Fin 4) (s : State), s.grantReady (9 + st) 13 [st] = true) ∧
    (∃ (st : Fin 4) (s : State), (s.gov (9 + st)).queue.any (·.is 13 [st]) = true) ∧
    (∃ (st : Fin 4) (s : State), s.rd .HBM_SCRUB_HOURS [st] ≠ 0 ∧ s.stackOk st = true ∧ (s.gov (9 + st)).ready.any (·.is 14
    [st]) = true ∧ (s.stk st).scrubPos + 64 < 603979776) ∧
    (∃ (st : Fin 4) (s : State), s.rd .HBM_CTL_PD_IDLE [st] ≠ 0 ∧ s.hstate st = 2 ∧ (∀ c : Fin 32, (s.pc st c).rq = [] ∧
    (s.pc st c).wq = [] ∧ (s.pc st c).inflight = [])) ∧
    (∃ (st : Fin 4) (bad : List (Fin 64 × BitVec 576)) (e : Reenc) (r : List Reenc) (s : State), smGet s.reenc [st.val] [] =
    e :: r ∧ e.waiting = [] ∧ smGet s.leafMaj [st.val, e.r, e.leaf] 0 + 1 < 2 ^ 56) ∧
    (∃ (st : Fin 4) (p n : Nat) (q : HbmReq) (r : List HbmReq) (s : State), s.presenting st = [(p, n, q)] ∧ smGet s.hbmPort
    [st.val, p] [] = q :: r ∧ s.stackOk st = true ∧ (s.sealCheck st { src := q.src, fn := q.fn } q.a false).1 = 0 ∧
    s.rangeOf st q.a = none ∧ q.opc = 1 ∧ s.winAttr (hbmJoin s.ilv st q.a) ≠ 1 ∧ s.poison.contains (s.lineKey st q.a) =
    false) ∧
    (∃ (st : Fin 4) (p n : Nat) (q : HbmReq) (r : List HbmReq) (s : State), s.presenting st = [(p, n, q)] ∧ smGet s.hbmPort
    [st.val, p] [] = q :: r ∧ s.stackOk st = true ∧ (s.sealCheck st { src := q.src, fn := q.fn } q.a (!q.isRead)).1 ≠ 0) ∧
    (∃ (st : Fin 4) (c : Fin 32) (n : Nat) (line : Fin 4) (level : Fin 8) (mirror : Bool) (flips : BitVec 576) (q : HbmReq)
    (s : State), (s.pc st c).inflight[n]? = some q) :=
  ⟨⟨1, 3, 3, { src := 5, fn := 15, opc := 7, tag := 0, a := 0x1240, data := [0x55AA] }, [],
    { mk [up 2, (.HBM_CTL_EN, [1], 1), (.HBM_STAT_STATE, [1], 2), (.HBM_QOS_TARGET_TARGET, [1, 3], 0)] with hbmPort := [([1, 3], [{ src := 5, fn := 15, opc := 7, tag := 0, a := 0x1240, data := [0x55AA] }])] },
    by decide +kernel⟩,
    ⟨1, 6, false, 2, 4, [5], { mk [up 2] with hbmPc := [([1, 6], { rfm := [4, 5], owed := 1 })] }, by decide +kernel⟩,
    ⟨1, 6, false, 2, { mk [up 2] with hbmPc := [([1, 6], { owed := 2 })] }, by decide +kernel⟩,
    ⟨1, 6, false, 2, { src := 5, fn := 15, opc := 1, tag := 3, a := 0x1240, data := [0x55AA] },
    { mk [up 2] with hbmPc := [([1, 6], { rq := [{ src := 5, fn := 15, opc := 1, tag := 3, a := 0x1240, data := [0x55AA] }] })] },
    by decide +kernel⟩,
    ⟨1, 6, 0, 3, 5, true, 9, { src := 5, fn := 15, opc := 1, tag := 3, a := 0x1240, data := [0x55AA] },
    { mk [up 2] with hbmPc := [([1, 6], { inflight := [{ src := 5, fn := 15, opc := 1, tag := 3, a := 0x1240, data := [0x55AA] }] })] },
    by decide +kernel⟩,
    ⟨1, 6, 0, 3, 5, true, 9, { src := 5, fn := 15, opc := 1, tag := 3, a := 0x1240, data := [0x55AA] },
    { mk [up 2] with hbmPc := [([1, 6], { inflight := [{ src := 5, fn := 15, opc := 1, tag := 3, a := 0x1240, data := [0x55AA] }] })] },
    by decide +kernel⟩,
    ⟨1, 6, { mk [up 2, (.HBM_STAT_STATE, [1], 2)] with hbmPc := [([1, 6], { owed := 8 })] }, by decide +kernel⟩,
    ⟨1, granted ({ mk [up 2] with hbmPc := [([1, 6], { owed := 8 })] }) 10 13 [1], by decide +kernel⟩,
    ⟨1,
    { { mk [up 2] with hbmPc := [([1, 6], { owed := 8 })] } with govs := [([10], { queue := [{ op := 13, who := [1], units := 4, t := 0 }] })] },
    by decide +kernel⟩,
    ⟨1, granted
    ({ mk [up 2, (.HBM_CTL_EN, [1], 1), (.HBM_STAT_STATE, [1], 2), (.HBM_SCRUB_HOURS, [1], 24)] with stack := [([1], { scrubPos := 64 })] })
    10 14 [1], by decide +kernel⟩,
    ⟨1, mk [up 2, (.HBM_CTL_PD_IDLE, [1], 5), (.HBM_STAT_STATE, [1], 2)], by decide +kernel⟩,
    ⟨1, [(3, 9)], { r := 2, leaf := 7, waiting := [] }, [],
    { mk [up 2, (.SEAL_RCTL_MODE, [1, 2], 1), (.SEAL_SIZE_MIB, [1, 2], 64), (.SEAL_RSTAT_STATE, [1, 2], 2)] with reenc := [([1], [{ r := 2, leaf := 7, waiting := [] }])] },
    by decide +kernel⟩,
    ⟨1, 3, 3, { src := 5, fn := 15, opc := 1, tag := 0, a := 0x1240, data := [] }, [],
    { mk [up 2, (.HBM_CTL_EN, [1], 1), (.HBM_STAT_STATE, [1], 2), (.HBM_QOS_TARGET_TARGET, [1, 3], 0)] with hbmPort := [([1, 3], [{ src := 5, fn := 15, opc := 1, tag := 0, a := 0x1240, data := [] }])], hbm := [(0x900001240, 7)] },
    by decide +kernel⟩,
    ⟨1, 3, 3, { src := 5, fn := 2, opc := 7, tag := 0, a := 0x1240, data := [9] }, [],
    { mk [up 2, (.HBM_CTL_EN, [1], 1), (.HBM_STAT_STATE, [1], 2), (.HBM_QOS_TARGET_TARGET, [1, 3], 0), (.SEAL_RSTAT_STATE, [1, 2], 2), (.SEAL_SIZE_MIB, [1, 2], 64), (.SEAL_RCTL_OWNER, [1, 2], 3)] with hbmPort := [([1, 3], [{ src := 5, fn := 2, opc := 7, tag := 0, a := 0x1240, data := [9] }])] },
    by decide +kernel⟩,
    ⟨1, 6, 0, 3, 5, true, 9, { src := 5, fn := 15, opc := 1, tag := 3, a := 0x1240, data := [0x55AA] },
    { mk [up 2] with hbmPc := [([1, 6], { inflight := [{ src := 5, fn := 15, opc := 1, tag := 3, a := 0x1240, data := [0x55AA] }], owed := 3 })] },
    by decide +kernel⟩⟩

theorem witness_StacksTrainRetrainAndRefreshThemselves :
    (∃ (st : Fin 4) (s : State), (s.stk st).train = 1 ∧ (s.gov (9 + st)).ready.any (·.is 12 [st]) = true ∧ (s.gov (2 *
    st)).queue = [] ∧ (s.gov (9 + st)).queue = [] ∧ s.rd .HBM_STAT_CONTENT [st] = 1) ∧
    (∃ (st : Fin 4) (s : State), (s.stk st).train = 1 ∧ (s.gov (9 + st)).ready.any (·.is 12 [st]) = true ∧ s.rd
    .HBM_STAT_CONTENT [st] = 0) ∧
    (∃ (st : Fin 4) (s : State), (s.stk st).train = 1 ∧ (s.gov (2 * st)).expired.any (·.is 11 [st]) = true) ∧
    (∃ (st : Fin 4) (s : State), (s.stk st).retry ≠ 0 ∧ (s.stk st).train = 0 ∧ 6 ≤ s.rd .PG_CFG_BUDGET [2 * st.val]) ∧
    (∃ (st : Fin 4) (softLeft : Fin 1537) (s : State), (s.stk st).train = 2 ∧ s.rd .HBM_STAT_CONTENT [st] = 0) ∧
    (∃ (st : Fin 4) (lrep : List Nat) (temp : BitVec 8) (rfm : Bool) (s : State), (s.stk st).train = 2 ∧ s.rd
    .HBM_STAT_CONTENT [st] = 1) ∧
    (∃ (st : Fin 4) (s : State), (s.stk st).train = 2) ∧
    (∃ (st : Fin 4) (s : State), s.rd .HBM_TRAIN_PERIOD [st] ≠ 0 ∧ s.hstate st = 2 ∧ (s.stk st).todo = []) ∧
    (∃ (w : Writer) (st : Fin 4) (s : State), s.reaches w .HBM_CTL [st] = true ∧ s.hstate st = 2 ∧ (s.stk st).todo = []) ∧
    (∃ (w : Writer) (st : Fin 4) (s : State), s.reaches w .HBM_CTL [st] = true ∧ s.hstate st ≠ 2 ∧ s.hstate st ≠ 5) ∧
    (∃ (st : Fin 4) (c d : Nat) (r : List Nat) (s : State), (s.stk st).todo = c :: d :: r ∧ c ≠ d) ∧
    (∃ (st : Fin 4) (c : Nat) (s : State), (s.stk st).todo = [c]) ∧
    (∃ (st : Fin 4) (c : Nat) (r : List Nat) (s : State), (s.stk st).todo = c :: r ∧ smGet (s.stk st).lrep [c] 0 = 0) ∧
    (∃ (w : Writer) (st : Fin 4) (s : State), s.reaches w .HBM_CTL [st] = true ∧ (s.hstate st = 2 ∨ s.hstate st = 5)) ∧
    (∃ (st : Fin 4) (s : State), (s.stk st).entering = true) ∧
    (∃ (w : Writer) (st : Fin 4) (s : State), s.reaches w .HBM_CTL [st] = true ∧ s.hstate st = 3 ∧ (s.stk st).causes = [4] ∧
    (s.stk st).exitAsked = false ∧ 8 ≤ s.rd .PG_CFG_BUDGET [9 + st.val]) ∧
    (∃ (st : Fin 4) (s : State), (s.stk st).exitAsked = true ∧ s.grantReady (9 + st) 12 [st] = true ∧ (s.stk st).todo = []) ∧
    (∃ (st : Fin 4) (temp : BitVec 8) (s : State), s.hstate st = 2 ∧ s.rd .HBM_TRAIN_DTEMP [st] = 0) ∧
    (∃ (w : Writer) (v : BitVec 2) (s : State), s.reaches w .HBM_ILV [] = true ∧ (∀ st : Fin 4, s.rd .HBM_CTL_EN [st] = 0)) ∧
    (∃ (w : Writer) (v : BitVec 2) (st : Fin 4) (s : State), s.reaches w .HBM_ILV [] = true ∧ s.up (2 * st) = true ∧ s.rd
    .HBM_CTL_EN [st] = 1) ∧
    (∃ (w : Writer) (st : Fin 4) (i : Fin 9) (v : BitVec 26) (s : State), s.reaches w .HBM_HASH [st, i] = true ∧ s.rd
    .HBM_CTL_EN [st] = 0) ∧
    (∃ (w : Writer) (st : Fin 4) (i : Fin 9) (v : BitVec 26) (s : State), s.reaches w .HBM_HASH [st, i] = true ∧ s.rd
    .HBM_CTL_EN [st] = 1) ∧
    (∃ (st : Fin 4) (temp : BitVec 8) (s : State), [1, 2, 3, 5].contains (s.hstate st) = true) :=
  ⟨⟨1, granted ({ mk [up 2, (.HBM_STAT_CONTENT, [1], 1)] with stack := [([1], { train := 1 })] }) 10 12 [1],
    by decide +kernel⟩,
    ⟨1, granted ({ mk [up 2, (.SEAL_RSTAT_STATE, [1, 3], 2)] with stack := [([1], { train := 1 })] }) 10 12 [1],
    by decide +kernel⟩,
    ⟨1, expired ({ mk [up 2] with stack := [([1], { train := 1 })] }) 2 11 [1], by decide +kernel⟩,
    ⟨1, { mk [up 2] with stack := [([1], { retry := 70 })] }, by decide +kernel⟩,
    ⟨1, 3, { mk [up 2] with stack := [([1], { train := 2 })] }, by decide +kernel⟩,
    ⟨1, [3, 20], 60, true, { mk [up 2, (.HBM_STAT_CONTENT, [1], 1)] with stack := [([1], { train := 2 })] },
    by decide +kernel⟩,
    ⟨1, { mk [up 2] with stack := [([1], { train := 2 })] }, by decide +kernel⟩,
    ⟨1, mk [up 2, (.HBM_TRAIN_PERIOD, [1], 2), (.HBM_STAT_STATE, [1], 2)], by decide +kernel⟩,
    ⟨.helm 0, 1, mk [up 2, (.HBM_STAT_STATE, [1], 2)], by decide +kernel⟩,
    ⟨.helm 0, 1, mk [up 2, (.HBM_STAT_STATE, [1], 3)], by decide +kernel⟩,
    ⟨1, 0, 1, [2], { mk [up 2, (.HBM_STAT_STATE, [1], 5)] with stack := [([1], { todo := [0, 1, 2] })] }, by decide +kernel⟩,
    ⟨1, 15, { mk [up 2, (.HBM_STAT_STATE, [1], 5)] with stack := [([1], { todo := [15] })] }, by decide +kernel⟩,
    ⟨1, 4, [5], { mk [up 2, (.HBM_STAT_STATE, [1], 5)] with stack := [([1], { todo := [4, 5] })] }, by decide +kernel⟩,
    ⟨.helm 0, 1, mk [up 2, (.HBM_STAT_STATE, [1], 2)], by decide +kernel⟩,
    ⟨1,
    { mk [up 2, (.HBM_STAT_STATE, [1], 2)] with hbmPc := [([1, 6], { rq := [{ src := 5, fn := 15, opc := 1, tag := 3, a := 0x1240, data := [0x55AA] }] })], stack := [([1], { entering := true })] },
    by decide +kernel⟩,
    ⟨.helm 0, 1, { mk [up 2, (.HBM_STAT_STATE, [1], 3)] with stack := [([1], { causes := [4] })] }, by decide +kernel⟩,
    ⟨1, granted ({ mk [up 2, (.HBM_STAT_STATE, [1], 3)] with stack := [([1], { exitAsked := true, causes := [4] })] }) 10 12
    [1], by decide +kernel⟩,
    ⟨1, 85, mk [up 2, (.HBM_STAT_STATE, [1], 2), (.HBM_TRAIN_DTEMP, [1], 0)], by decide +kernel⟩,
    ⟨.helm 0, 3, mk [], by decide +kernel⟩,
    ⟨.helm 0, 1, 1, mk [up 2, (.HBM_CTL_EN, [1], 1)], by decide +kernel⟩,
    ⟨.helm 0, 1, 8, 0x3FFFFFF, mk [up 2], by decide +kernel⟩,
    ⟨.helm 0, 1, 0, 5, mk [up 2, (.HBM_CTL_EN, [1], 1)], by decide +kernel⟩,
    ⟨1, 85, mk [up 2, (.HBM_STAT_STATE, [1], 2), (.HBM_TRAIN_DTEMP, [1], 5)], by decide +kernel⟩⟩

theorem witness_SealedRangesFollowTheirOwnersCommands :
    (∃ (f : Fin 8) (st : Fin 4) (r : Fin 16) (s : State), s.reaches (.fn f) .SEAL_RCTL [st, r] = true ∧ s.rd
    .SEAL_RCTL_OWNER [st, r] = 15) ∧
    (∃ (c : Fin 8) (st : Fin 4) (r : Fin 16) (s : State), s.reaches (.helm c) .SEAL_RCTL [st, r] = true ∧ s.rd
    .SEAL_RCTL_OWNER [st, r] = 15) ∧
    (∃ (w : Writer) (st : Fin 4) (r : Fin 16) (s : State), s.reaches w .SEAL_RCTL [st, r] = true ∧ s.rd .SEAL_RCTL_OWNER
    [st, r] ≠ 15) ∧
    (∃ (w : Writer) (st : Fin 4) (r : Fin 16) (s : State), s.reaches w .SEAL_RCTL [st, r] = true ∧ s.ownsRange w st r = true
    ∧ s.enableOk st r = true ∧ (s.seal st).run = none ∧ (s.seal st).repairs = []) ∧
    (∃ (w : Writer) (st : Fin 4) (r : Fin 16) (s : State), s.reaches w .SEAL_RCTL [st, r] = true ∧ s.ownsRange w st r = true
    ∧ s.enableOk st r = false) ∧
    (∃ (w : Writer) (st : Fin 4) (r : Fin 16) (s : State), s.reaches w .SEAL_RCTL [st, r] = true ∧ s.ownsRange w st r = true
    ∧ s.rd .SEAL_RSTAT_STATE [st, r] = 0) ∧
    (∃ (w : Writer) (st : Fin 4) (r : Fin 16) (s : State), s.reaches w .SEAL_RCTL [st, r] = true ∧ s.ownsRange w st r = true
    ∧ [2, 3, 5].contains (s.rd .SEAL_RSTAT_STATE [st, r]) = true) ∧
    (∃ (w : Writer) (st : Fin 4) (r : Fin 16) (s : State), s.reaches w .SEAL_RCTL [st, r] = true ∧ s.ownsRange w st r = true
    ∧ s.rd .SEAL_RSTAT_STATE [st, r] = 2 ∧ s.holdsKey st r (1 - s.rd .SEAL_RCTL_CUR [st, r]) = true) ∧
    (∃ (w : Writer) (st : Fin 4) (r : Fin 16) (s : State), s.reaches w .SEAL_RCTL [st, r] = true ∧ s.ownsRange w st r = true
    ∧ s.rd .SEAL_RSTAT_SWSTOP [st, r] = 1) ∧
    (∃ (w : Writer) (st : Fin 4) (slot : Fin 32) (s : State), s.reaches w .SEAL_KEY [st] = true ∧ s.rd .SEAL_KEY_BUSY [st] =
    0 ∧ s.ownsRange w st (slot.val / 2) = true ∧ (∀ p : Fin 2, w ≠ .pelorus p) ∧ s.slotFree st slot = true) ∧
    (∃ (w : Writer) (st : Fin 4) (slot : Fin 32) (ses : BitVec 8) (s : State), s.reaches w .SEAL_KEY [st] = true ∧ s.rd
    .SEAL_KEY_BUSY [st] = 0 ∧ s.ownsRange w st (slot.val / 2) = true ∧ (∀ p : Fin 2, w ≠ .pelorus p) ∧ s.slotFree st slot =
    true ∧ s.depositFor w ses.toNat = true) ∧
    (∃ (w : Writer) (st : Fin 4) (slot : Fin 32) (s : State), s.reaches w .SEAL_KEY [st] = true ∧ s.rd .SEAL_KEY_BUSY [st] =
    0 ∧ s.ownsRange w st (slot.val / 2) = true ∧ (∀ p : Fin 2, w ≠ .pelorus p) ∧ s.slotFree st slot = true) ∧
    (∃ (st : Fin 4) (slot : Fin 32) (u n : Nat) (s : State), smGet s.keyOp [st.val] [] = [slot.val, 3, u, n]) ∧
    (∃ (st : Fin 4) (slot : Fin 32) (u n : Nat) (s : State), smGet s.keyOp [st.val] [] = [slot.val, 1, u, n] ∧ s.rd
    .LS_STAT_TRNG_OK [] = 1) ∧
    (∃ (st : Fin 4) (s : State), (s.seal st).asked = true ∧ (s.seal st).rAsked = false ∧ (s.seal st).run ≠ none ∧
    s.sweepStopped st = false ∧ 0 < s.sealRate st ∧ (s.gov (2 * st)).ready.any (·.is 10 [st]) = true ∧ unitSum ((s.gov (2 *
    st)).held.filter (·.is 10 [st.val])) = sweepUnits (s.sealRate st)) ∧
    (∃ (st : Fin 4) (x : Sweep) (s : State), (s.seal st).asked = true ∧ (s.seal st).rAsked = false ∧ (s.seal st).run = some
    x ∧ s.timeoutReady (2 * st) 10 [st] = true) ∧
    (∃ (st : Fin 4) (x : Sweep) (l : List Sweep) (s : State), (s.seal st).retryT ≠ 0 ∧ (s.seal st).repairs = x :: l ∧
    (s.seal st).units = 0 ∧ (s.seal st).rAsked = false ∧ (s.seal st).rUnits = 0 ∧ sweepUnits (s.repairRate st) ≤ s.rd
    .PG_CFG_BUDGET [2 * st.val]) ∧
    (∃ (st : Fin 4) (x : Sweep) (s : State), s.stackOk st = true ∧ (s.seal st).repairs = [] ∧ (s.seal st).run = some x ∧
    x.kind = 2 ∧ s.rd .SEAL_RCTL_MODE [st, x.r] = 0 ∧ 0 < (s.seal st).units ∧ (s.seal st).asked = false ∧ 0 < s.sealRate st
    ∧ s.sweepStopped st = false ∧ s.chunkBusy st x.r x.pos = false ∧ x.pos + 64 < x.stop ∧ x.pos + 64 < 2 ^ 30) ∧
    (∃ (st : Fin 4) (x : Sweep) (s : State), s.stackOk st = true ∧ (s.seal st).repairs = [] ∧ (s.seal st).run = some x ∧
    (s.seal st).queue = [] ∧ x.kind = 1 ∧ 0 < (s.seal st).units ∧ (s.seal st).asked = false ∧ 0 < s.sealRate st ∧
    s.sweepStopped st = false ∧ s.chunkBusy st x.r x.pos = false ∧ x.stop ≤ x.pos + 64) ∧
    (∃ (st : Fin 4) (c : Fin 8) (rate : BitVec 6) (s : State), s.reaches (.helm c) .SEAL_CTL [st] = true) ∧
    (∃ (st : Fin 4) (rate : BitVec 6) (s : State), s.reaches .other .SEAL_CTL [st] = true) ∧
    (∃ (st : Fin 4) (r : Fin 16) (level : Fin 8) (node : BitVec 24) (s : State), s.sealLive st r = true ∧ s.rd
    .SEAL_RCTL_MODE [st, r] = 1 ∧ level.val < (treeLevels (s.rd .SEAL_SIZE_MIB [st, r])).length ∧ node.toNat < (treeLevels
    (s.rd .SEAL_SIZE_MIB [st, r])).getD level 0 ∧ smGet s.hwm [st.val, r.val] 0 + 1 < 2 ^ 56) ∧
    (∃ (st : Fin 4) (r : Fin 16) (level : Fin 8) (node : BitVec 24) (s : State), smGet s.ccache [st.val, r.val, level.val,
    node.toNat] 0 = 2 ∧ smGet s.innerC [st.val, r.val, level.val, node.toNat] 0 + 1 < 2 ^ 56) ∧
    (∃ (w : Writer) (st : Fin 4) (r : Fin 16) (s : State), s.reaches w .SEAL_RCTL [st, r] = true ∧ s.ownsRange w st r = true
    ∧ [2, 3, 5].contains (s.rd .SEAL_RSTAT_STATE [st, r]) = false ∧ s.rd .SEAL_RSTAT_STATE [st, r] ≠ 0) ∧
    (∃ (w : Writer) (st : Fin 4) (r : Fin 16) (s : State), s.reaches w .SEAL_RCTL [st, r] = true ∧ s.ownsRange w st r = true
    ∧ (s.rd .SEAL_RSTAT_STATE [st, r] ≠ 2 ∨ s.holdsKey st r (1 - s.rd .SEAL_RCTL_CUR [st, r]) = false)) ∧
    (∃ (w : Writer) (st : Fin 4) (r : Fin 16) (s : State), s.reaches w .SEAL_RCTL [st, r] = true ∧ s.ownsRange w st r = true
    ∧ s.rd .SEAL_RSTAT_SWSTOP [st, r] = 0) :=
  ⟨⟨5, 1, 3, mk [up 2], by decide +kernel⟩,
    ⟨5, 1, 3, mk [up 2], by decide +kernel⟩,
    ⟨.helm 0, 1, 3, mk [up 2, (.SEAL_RCTL_OWNER, [1, 3], 8)], by decide +kernel⟩,
    ⟨.helm 0, 1, 3, mk [up 2, (.SEAL_RCTL_OWNER, [1, 3], 8), (.SEAL_SIZE_MIB, [1, 3], 2), (.SEAL_RSTAT_KEYS, [1, 3], 1)],
    by decide +kernel⟩,
    ⟨.helm 0, 1, 3, mk [up 2, (.SEAL_RCTL_OWNER, [1, 3], 8)], by decide +kernel⟩,
    ⟨.helm 0, 1, 3,
    { mk [up 2, (.SEAL_RCTL_OWNER, [1, 3], 8), (.SEAL_SIZE_MIB, [1, 3], 2), (.SEAL_RSTAT_KEYS, [1, 3], 1)] with keys := [([1, 6], 5), ([1, 7], 8)] },
    by decide +kernel⟩,
    ⟨.helm 0, 1, 3, mk [up 2, (.SEAL_RCTL_OWNER, [1, 3], 8), (.SEAL_SIZE_MIB, [1, 3], 2), (.SEAL_RSTAT_KEYS, [1, 3], 1),
    (.SEAL_RSTAT_STATE, [1, 3], 2)], by decide +kernel⟩,
    ⟨.helm 0, 1, 3, mk [up 2, (.SEAL_RCTL_OWNER, [1, 3], 8), (.SEAL_SIZE_MIB, [1, 3], 2), (.SEAL_RSTAT_KEYS, [1, 3], 1),
    (.SEAL_RSTAT_STATE, [1, 3], 2), (.SEAL_RCTL_CUR, [1, 3], 1)], by decide +kernel⟩,
    ⟨.helm 0, 1, 3,
    { mk [up 2, (.SEAL_RCTL_OWNER, [1, 3], 8), (.SEAL_SIZE_MIB, [1, 3], 2), (.SEAL_RSTAT_KEYS, [1, 3], 1), (.SEAL_RSTAT_STATE, [1, 3], 2), (.SEAL_RSTAT_SWSTOP, [1, 3], 1)] with seals := [([1], { run := some { kind := 2, r := 3 } })] },
    by decide +kernel⟩,
    ⟨.helm 0, 1, 7, mk [up 2, (.SEAL_RCTL_OWNER, [1, 3], 8)], by decide +kernel⟩,
    ⟨.helm 0, 1, 7, 4,
    { mk [up 2, (.SEAL_RCTL_OWNER, [1, 3], 8)] with sessions := [([4], some { owner := 8, used := 0, deposit := some 3 })] },
    by decide +kernel⟩,
    ⟨.helm 0, 1, 6, mk [up 2, (.SEAL_RCTL_OWNER, [1, 3], 8)], by decide +kernel⟩,
    ⟨1, 7, 5, 0, { mk [up 2, (.SEAL_RSTAT_KEYS, [1, 3], 3)] with keyOp := [([1], [7, 3, 5, 0])], keys := [([1, 7], 8)] },
    by decide +kernel⟩,
    ⟨1, 7, 5, 0, { mk [up 2, (.LS_STAT_TRNG_OK, [], 1)] with keyOp := [([1], [7, 1, 5, 0])] }, by decide +kernel⟩,
    ⟨1,
    { mk [up 2, (.SEAL_CTL_RATE, [1], 10)] with seals := [([1], { run := some { kind := 1, r := 3, stop := 500 }, asked := true })], govs := [([2], { ready := [{ op := 10, who := [1], units := 3, t := 0 }], held := [{ op := 10, who := [1], units := 3, t := 0 }] })] },
    by decide +kernel⟩,
    ⟨1, { kind := 1, r := 3 },
    { expired (mk [up 2]) 2 10 [1] with seals := [([1], { run := some { kind := 1, r := 3 }, asked := true })] },
    by decide +kernel⟩,
    ⟨1, { kind := 4, r := 3 }, [],
    { mk [up 2] with seals := [([1], { retryT := 60, repairs := [{ kind := 4, r := 3 }] })] }, by decide +kernel⟩,
    ⟨1, { kind := 2, r := 3, stop := 500 },
    { mk [up 2, (.HBM_CTL_EN, [1], 1), (.HBM_STAT_STATE, [1], 2), (.SEAL_CTL_RATE, [1], 10)] with seals := [([1], { units := 3, run := some { kind := 2, r := 3, stop := 500 } })] },
    by decide +kernel⟩,
    ⟨1, { kind := 1, r := 3, stop := 128, pos := 64 },
    { mk [up 2, (.HBM_CTL_EN, [1], 1), (.HBM_STAT_STATE, [1], 2), (.SEAL_CTL_RATE, [1], 10), (.SEAL_RSTAT_STATE, [1, 3], 1)] with seals := [([1], { units := 3, run := some { kind := 1, r := 3, stop := 128, pos := 64 } })] },
    by decide +kernel⟩,
    ⟨1, 2, 63, mk [up 2], by decide +kernel⟩,
    ⟨1, 6, mk [up 2], by decide +kernel⟩,
    ⟨1, 3, 1, 7, mk [up 2, (.SEAL_RCTL_MODE, [1, 3], 1), (.SEAL_SIZE_MIB, [1, 3], 2), (.SEAL_RSTAT_STATE, [1, 3], 2)],
    by decide +kernel⟩,
    ⟨1, 3, 1, 7,
    { mk [up 2, (.SEAL_RCTL_MODE, [1, 3], 1), (.SEAL_SIZE_MIB, [1, 3], 2), (.SEAL_RSTAT_STATE, [1, 3], 2)] with ccache := [([1, 3, 1, 7], 2)] },
    by decide +kernel⟩,
    ⟨.helm 0, 1, 3, mk [up 2, (.SEAL_RCTL_OWNER, [1, 3], 8), (.SEAL_RSTAT_STATE, [1, 3], 4)], by decide +kernel⟩,
    ⟨.helm 0, 1, 3, mk [up 2, (.SEAL_RCTL_OWNER, [1, 3], 8), (.SEAL_RSTAT_STATE, [1, 3], 4)], by decide +kernel⟩,
    ⟨.helm 0, 1, 3, mk [up 2, (.SEAL_RCTL_OWNER, [1, 3], 8), (.SEAL_RSTAT_STATE, [1, 3], 2)], by decide +kernel⟩⟩

theorem witness_RemoteCachesAndHomesKeepLinesCoherent :
    (∃ (n : Fin 8) (line : BitVec 32) (src : BitVec 12) (fn : BitVec 4) (d : BitVec 512) (s : State), s.cacheable n
    (line.toNat * 64) = true ∧ (s.rcLine n line.toNat).st ≠ 0 ∧ (s.rcLine n line.toNat).poison = false) ∧
    (∃ (n : Fin 8) (line : BitVec 32) (src : BitVec 12) (fn : BitVec 4) (d : BitVec 512) (s : State), s.cacheable n
    (line.toNat * 64) = true ∧ 2 ≤ (s.rcLine n line.toNat).st ∧ s.winAttr (line.toNat * 64) = 1) ∧
    (∃ (n : Fin 8) (line : BitVec 32) (src : BitVec 12) (fn : BitVec 4) (d : BitVec 512) (h : Fin 4) (s : State),
    s.cacheable n (line.toNat * 64) = true ∧ (s.rcLine n line.toNat).st = 0 ∧ s.winAttr (line.toNat * 64) = 1 ∧ (s.lineHome
    line.toNat).1 = h.val ∧ s.stackOk h = true ∧ s.rcMiss = []) ∧
    (∃ (n : Fin 8) (line : BitVec 32) (h : Fin 4) (q : List HaReq) (s : State), (s.lineHome line.toNat).1 = h.val ∧ s.haQ h
    = { opc := 0x18, line := line.toNat, die := n.val } :: q ∧ (s.tx h line.toNat).req.opc = 0 ∧ s.rd .HA_STAT_RECALL [h] =
    0 ∧ s.stackOk h = true ∧ (s.sfEnt h line.toNat).owned = false ∧ (s.sf.filter (fun e => e.1.headD 9 == h.val && sfSet
    (e.1.getD 1 0) == sfSet line.toNat)).length < 16 ∧ (s.rcSet n line.toNat).length < 16) ∧
    (∃ (n m : Fin 8) (line : BitVec 32) (h : Fin 4) (q : List HaReq) (s : State), (s.lineHome line.toNat).1 = h.val ∧ s.haQ
    h = { opc := 0x19, line := line.toNat, die := n.val } :: q ∧ (s.tx h line.toNat).req.opc = 0 ∧ s.rd .HA_STAT_RECALL [h]
    = 0 ∧ s.stackOk h = true ∧ (s.sfEnt h line.toNat).mask = 2 ^ m.val ∧ m ≠ n) ∧
    (∃ (n : Fin 8) (line : BitVec 32) (h : Fin 4) (q : List HaReq) (s : State), (s.lineHome line.toNat).1 = h.val ∧ s.haQ h
    = { opc := 0x1A, line := line.toNat, die := n.val } :: q ∧ (s.tx h line.toNat).req.opc = 0 ∧ s.rd .HA_STAT_RECALL [h] =
    0 ∧ s.stackOk h = true ∧ (s.sfEnt h line.toNat).mask = 2 ^ n.val) ∧
    (∃ (n : Fin 8) (line : BitVec 32) (h : Fin 4) (q : List HaReq) (s : State), (s.lineHome line.toNat).1 = h.val ∧ s.haQ h
    = { opc := 0x1B, line := line.toNat, die := n.val } :: q) ∧
    (∃ (n : Fin 8) (line : BitVec 32) (h : Fin 4) (s : State), (s.lineHome line.toNat).1 = h.val ∧ (s.tx h
    line.toNat).req.opc ≠ 0 ∧ (s.tx h line.toNat).inval = true ∧ (s.tx h line.toNat).wait.testBit n = true ∧ (s.tx h
    line.toNat).wait ≠ 2 ^ n.val ∧ (s.rcLine n line.toNat).st = 3 ∧ (s.rcLine n line.toNat).poison = false ∧ s.wbs n = []) ∧
    (∃ (n : Fin 8) (line : BitVec 32) (h : Fin 4) (s : State), (s.lineHome line.toNat).1 = h.val ∧ (s.tx h
    line.toNat).req.opc ≠ 0 ∧ (s.tx h line.toNat).inval = false ∧ (s.tx h line.toNat).wait.testBit n = true ∧ (s.tx h
    line.toNat).wait ≠ 2 ^ n.val ∧ (s.rcLine n line.toNat).st = 2 ∧ s.wbs n = []) ∧
    (∃ (n : Fin 8) (line : BitVec 32) (h : Fin 4) (s : State), (s.lineHome line.toNat).1 = h.val ∧ (s.tx h
    line.toNat).acks.testBit n = true ∧ (s.tx h line.toNat).acks ≠ 2 ^ n.val) ∧
    (∃ (n : Fin 8) (line : BitVec 32) (s : State), (s.miss n line.toNat).grant = 3 ∧ (s.miss n line.toNat).write = true ∧
    (s.rcSet n line.toNat).length < 16) ∧
    (∃ (n : Fin 8) (line : BitVec 32) (s : State), (s.miss n line.toNat).grant = 2 ∧ (s.miss n line.toNat).write = true ∧
    (s.rcSet n line.toNat).length < 16) ∧
    (∃ (n : Fin 8) (b : RcWb) (r : List RcWb) (s : State), s.wbs n = b :: r ∧ s.stackOk (s.lineHome b.line).1 = true ∧
    b.taken = false ∧ b.poison = false) :=
  ⟨⟨3, 5, 0x300, 15, 0,
    { mk [up 0, up 3, (.RC_CTL_EN, [3], 1), (.RCW_CTL_EN, [2], 1), (.RCW_CTL_ATTR, [2], 1), (.RCW_SIZE_MIB, [2], 1), (.HBM_CTL_EN, [0], 1), (.HBM_STAT_STATE, [0], 2)] with rcLines := [([3, 5], { st := 1, data := 119 })] },
    by decide +kernel⟩,
    ⟨3, 5, 0x300, 15, 9,
    { mk [up 0, up 3, (.RC_CTL_EN, [3], 1), (.RCW_CTL_EN, [2], 1), (.RCW_CTL_ATTR, [2], 1), (.RCW_SIZE_MIB, [2], 1), (.HBM_CTL_EN, [0], 1), (.HBM_STAT_STATE, [0], 2)] with rcLines := [([3, 5], { st := 2, data := 119 })] },
    by decide +kernel⟩,
    ⟨3, 5, 0x300, 15, 9, 0, mk [up 0, up 3, (.RC_CTL_EN, [3], 1), (.RCW_CTL_EN, [2], 1), (.RCW_CTL_ATTR, [2], 1),
    (.RCW_SIZE_MIB, [2], 1), (.HBM_CTL_EN, [0], 1), (.HBM_STAT_STATE, [0], 2)], by decide +kernel⟩,
    ⟨3, 5, 0, [],
    { mk [up 0, up 3, (.RC_CTL_EN, [3], 1), (.RCW_CTL_EN, [2], 1), (.RCW_CTL_ATTR, [2], 1), (.RCW_SIZE_MIB, [2], 1), (.HBM_CTL_EN, [0], 1), (.HBM_STAT_STATE, [0], 2)] with haIn := [([0], [{ opc := 24, line := 5, die := 3 }])], hbm := memStore [] 320 (natLe 0xABC 64) 0 },
    by decide +kernel⟩,
    ⟨3, 1, 5, 0, [],
    { mk [up 0, up 3, (.RC_CTL_EN, [3], 1), (.RCW_CTL_EN, [2], 1), (.RCW_CTL_ATTR, [2], 1), (.RCW_SIZE_MIB, [2], 1), (.HBM_CTL_EN, [0], 1), (.HBM_STAT_STATE, [0], 2)] with haIn := [([0], [{ opc := 25, line := 5, die := 3 }])], sf := [([0, 5], { mask := 2 })] },
    by decide +kernel⟩,
    ⟨3, 5, 0, [],
    { mk [up 0, up 3, (.RC_CTL_EN, [3], 1), (.RCW_CTL_EN, [2], 1), (.RCW_CTL_ATTR, [2], 1), (.RCW_SIZE_MIB, [2], 1), (.HBM_CTL_EN, [0], 1), (.HBM_STAT_STATE, [0], 2)] with haIn := [([0], [{ opc := 26, line := 5, die := 3 }])], sf := [([0, 5], { mask := 8 })], rcLines := [([3, 5], { st := 1, data := 119 })] },
    by decide +kernel⟩,
    ⟨3, 5, 0, [],
    { mk [up 0, up 3, (.RC_CTL_EN, [3], 1), (.RCW_CTL_EN, [2], 1), (.RCW_CTL_ATTR, [2], 1), (.RCW_SIZE_MIB, [2], 1), (.HBM_CTL_EN, [0], 1), (.HBM_STAT_STATE, [0], 2)] with haIn := [([0], [{ opc := 27, line := 5, die := 3 }])], sf := [([0, 5], { mask := 10 })] },
    by decide +kernel⟩,
    ⟨3, 5, 0,
    { mk [up 0, up 3, (.RC_CTL_EN, [3], 1), (.RCW_CTL_EN, [2], 1), (.RCW_CTL_ATTR, [2], 1), (.RCW_SIZE_MIB, [2], 1), (.HBM_CTL_EN, [0], 1), (.HBM_STAT_STATE, [0], 2)] with haTx := [([0, 5], { req := { opc := 25, line := 5, die := 1 }, wait := 12, inval := true, acks := 0 })], rcLines := [([3, 5], { st := 3, data := 119 })], sf := [([0, 5], { mask := 12 })] },
    by decide +kernel⟩,
    ⟨3, 5, 0,
    { mk [up 0, up 3, (.RC_CTL_EN, [3], 1), (.RCW_CTL_EN, [2], 1), (.RCW_CTL_ATTR, [2], 1), (.RCW_SIZE_MIB, [2], 1), (.HBM_CTL_EN, [0], 1), (.HBM_STAT_STATE, [0], 2)] with haTx := [([0, 5], { req := { opc := 24, line := 5, die := 1 }, wait := 12, inval := false, acks := 0 })], rcLines := [([3, 5], { st := 2, data := 119 })], sf := [([0, 5], { mask := 12, owned := true })] },
    by decide +kernel⟩,
    ⟨3, 5, 0,
    { mk [up 0, up 3, (.RC_CTL_EN, [3], 1), (.RCW_CTL_EN, [2], 1), (.RCW_CTL_ATTR, [2], 1), (.RCW_SIZE_MIB, [2], 1), (.HBM_CTL_EN, [0], 1), (.HBM_STAT_STATE, [0], 2)] with haTx := [([0, 5], { req := { opc := 25, line := 5, die := 1 }, wait := 0, inval := true, acks := 12 })] },
    by decide +kernel⟩,
    ⟨3, 5,
    { mk [up 0, up 3, (.RC_CTL_EN, [3], 1), (.RCW_CTL_EN, [2], 1), (.RCW_CTL_ATTR, [2], 1), (.RCW_SIZE_MIB, [2], 1), (.HBM_CTL_EN, [0], 1), (.HBM_STAT_STATE, [0], 2)] with rcMiss := [([3, 5], { write := true, data := 66, opc := 0x19, grant := 3 })], rcLines := [([3, 5], { st := 1, data := 119 })] },
    by decide +kernel⟩,
    ⟨3, 5,
    { mk [up 0, up 3, (.RC_CTL_EN, [3], 1), (.RCW_CTL_EN, [2], 1), (.RCW_CTL_ATTR, [2], 1), (.RCW_SIZE_MIB, [2], 1), (.HBM_CTL_EN, [0], 1), (.HBM_STAT_STATE, [0], 2)] with rcMiss := [([3, 5], { write := true, data := 66, opc := 0x19, grant := 2 })] },
    by decide +kernel⟩,
    ⟨3, { line := 5, data := 9 }, [],
    { mk [up 0, up 3, (.RC_CTL_EN, [3], 1), (.RCW_CTL_EN, [2], 1), (.RCW_CTL_ATTR, [2], 1), (.RCW_SIZE_MIB, [2], 1), (.HBM_CTL_EN, [0], 1), (.HBM_STAT_STATE, [0], 2)] with rcWb := [([3], [{ line := 5, data := 9 }])], sf := [([0, 5], { mask := 8, owned := true })] },
    by decide +kernel⟩⟩

theorem witness_CacheCommandsAndWindowsFlushTheirLines :
    (∃ (w : Writer) (n : Fin 8) (l : Nat) (x : RcLine) (s : State), s.reaches w .RC_CMD [n] = true ∧ s.rd .RC_CMD_BUSY [n] =
    0 ∧ s.rcLines = [([n.val, l], x)] ∧ s.rcRange n l = true ∧ x.st = 3 ∧ x.poison = false ∧ s.stackOk (s.lineHome l).1 =
    true ∧ s.rd .RC_CMD_LEN_LEN [n] ≠ 0) ∧
    (∃ (w : Writer) (n : Fin 8) (s : State), s.reaches w .RC_CMD [n] = true ∧ s.rd .RC_CMD_BUSY [n] = 1) ∧
    (∃ (w : Writer) (n : Fin 8) (l : Nat) (x : RcLine) (s : State), s.reaches w .RC_CMD [n] = true ∧ s.rd .RC_CMD_BUSY [n] =
    0 ∧ s.rcLines = [([n.val, l], x)] ∧ s.rcRange n l = true ∧ x.st = 3 ∧ x.poison = false ∧ s.stackOk (s.lineHome l).1 =
    true ∧ s.rd .RC_CMD_LEN_LEN [n] ≠ 0) ∧
    (∃ (w : Writer) (n : Fin 8) (l : Nat) (x : RcLine) (s : State), s.reaches w .RC_CMD [n] = true ∧ s.rd .RC_CMD_BUSY [n] =
    0 ∧ s.rcLines = [([n.val, l], x)] ∧ s.rcRange n l = true ∧ x.rm = true ∧ s.rd .RC_CMD_LEN_LEN [n] ≠ 0) ∧
    (∃ (w : Writer) (n : Fin 8) (l : Nat) (x : RcLine) (s : State), s.reaches w .RC_CMD [n] = true ∧ s.rd .RC_CMD_BUSY [n] =
    0 ∧ s.rcLines = [([n.val, l], x)] ∧ x.st = 3 ∧ x.poison = false ∧ s.wbs n = [] ∧ s.stackOk (s.lineHome l).1 = true) ∧
    (∃ (n : Fin 8) (s : State), s.rd .RC_CMD_BUSY [n] = 1) ∧
    (∃ (w : Writer) (i : Fin 16) (s : State), s.mute w = false ∧ s.rd .RCW_BASE_LO_ADDR [i] * 2 ^ 20 + s.rd
    .RCW_BASE_HI_ADDR [i] * 2 ^ 32 + s.rd .RCW_SIZE_MIB [i] * 2 ^ 20 ≤ 0x2400000000) ∧
    (∃ (w : Writer) (i : Fin 16) (s : State), s.mute w = false ∧ 0x2400000000 < s.rd .RCW_BASE_LO_ADDR [i] * 2 ^ 20 + s.rd
    .RCW_BASE_HI_ADDR [i] * 2 ^ 32 + s.rd .RCW_SIZE_MIB [i] * 2 ^ 20) ∧
    (∃ (w : Writer) (i : Fin 16) (s : State), s.mute w = false ∧ s.rd .RCW_CTL_EN [i] = 1) ∧
    (∃ (n : Fin 8) (i : Fin 16) (l : Nat) (x : RcLine) (s : State), s.rd .RCW_CTL_BUSY [i] = 1 ∧ s.rcLines = [([n.val, l],
    x)] ∧ s.inWindow i l = true ∧ x.st = 3 ∧ x.poison = false ∧ s.stackOk (s.lineHome l).1 = true) ∧
    (∃ (st : Fin 4) (n : Fin 8) (l : Nat) (x : RcLine) (s : State), s.stackOk st = false ∧ s.rcLines = [([n.val, l], x)] ∧
    (s.lineHome l).1 = st.val ∧ x.st = 3) ∧
    (∃ (st : Fin 4) (n : Fin 8) (l : Nat) (x : RcLine) (s : State), s.stackOk st = false ∧ s.rcLines = [([n.val, l], x)] ∧
    (s.lineHome l).1 = st.val ∧ x.st ≠ 3) ∧
    (∃ (st : Fin 4) (s : State), s.rd .HA_STAT_RECALL [st] = 1 ∧ s.stackOk st = true) ∧
    (∃ (n : Fin 8) (s : State), smGet s.rcLossT [n.val] 0 ≠ 0) :=
  ⟨⟨.helm 0, 3, 5, { st := 3, data := 119 },
    { mk [up 0, up 3, (.RC_CTL_EN, [3], 1), (.RCW_CTL_EN, [2], 1), (.RCW_CTL_ATTR, [2], 1), (.RCW_SIZE_MIB, [2], 1), (.HBM_CTL_EN, [0], 1), (.HBM_STAT_STATE, [0], 2), (.RC_CMD_LEN_LEN, [3], 9)] with rcLines := [([3, 5], { st := 3, data := 119 })] },
    by decide +kernel⟩,
    ⟨.helm 0, 3,
    { mk [up 0, up 3, (.RC_CTL_EN, [3], 1), (.RCW_CTL_EN, [2], 1), (.RCW_CTL_ATTR, [2], 1), (.RCW_SIZE_MIB, [2], 1), (.HBM_CTL_EN, [0], 1), (.HBM_STAT_STATE, [0], 2), (.RC_CMD_BUSY, [3], 1)] with rcLines := [([3, 5], { st := 3, data := 119 })] },
    by decide +kernel⟩,
    ⟨.helm 0, 3, 5, { st := 3, data := 119 },
    { mk [up 0, up 3, (.RC_CTL_EN, [3], 1), (.RCW_CTL_EN, [2], 1), (.RCW_CTL_ATTR, [2], 1), (.RCW_SIZE_MIB, [2], 1), (.HBM_CTL_EN, [0], 1), (.HBM_STAT_STATE, [0], 2), (.RC_CMD_LEN_LEN, [3], 9)] with rcLines := [([3, 5], { st := 3, data := 119 })] },
    by decide +kernel⟩,
    ⟨.helm 0, 3, 5, { st := 1, data := 119, rm := true },
    { mk [up 0, up 3, (.RC_CTL_EN, [3], 1), (.RCW_CTL_EN, [2], 1), (.RCW_CTL_ATTR, [2], 1), (.RCW_SIZE_MIB, [2], 1), (.HBM_CTL_EN, [0], 1), (.HBM_STAT_STATE, [0], 2), (.RC_CMD_LEN_LEN, [3], 9)] with rcLines := [([3, 5], { st := 1, data := 119, rm := true })] },
    by decide +kernel⟩,
    ⟨.helm 0, 3, 5, { st := 3, data := 119 },
    { mk [up 0, up 3, (.RC_CTL_EN, [3], 1), (.RCW_CTL_EN, [2], 1), (.RCW_CTL_ATTR, [2], 1), (.RCW_SIZE_MIB, [2], 1), (.HBM_CTL_EN, [0], 1), (.HBM_STAT_STATE, [0], 2)] with rcLines := [([3, 5], { st := 3, data := 119 })] },
    by decide +kernel⟩,
    ⟨3, mk [up 0, up 3, (.RC_CTL_EN, [3], 1), (.RCW_CTL_EN, [2], 1), (.RCW_CTL_ATTR, [2], 1), (.RCW_SIZE_MIB, [2], 1),
    (.HBM_CTL_EN, [0], 1), (.HBM_STAT_STATE, [0], 2), (.RC_CMD_BUSY, [3], 1)], by decide +kernel⟩,
    ⟨.helm 0, 2, mk [up 0, up 3, (.RC_CTL_EN, [3], 1), (.RCW_CTL_EN, [2], 1), (.RCW_CTL_ATTR, [2], 1), (.RCW_SIZE_MIB, [2],
    1), (.HBM_CTL_EN, [0], 1), (.HBM_STAT_STATE, [0], 2), (.RCW_BASE_HI_ADDR, [2], 0x23)], by decide +kernel⟩,
    ⟨.helm 0, 2, mk [up 0, up 3, (.RC_CTL_EN, [3], 1), (.RCW_CTL_EN, [2], 1), (.RCW_CTL_ATTR, [2], 1), (.RCW_SIZE_MIB, [2],
    1), (.HBM_CTL_EN, [0], 1), (.HBM_STAT_STATE, [0], 2), (.RCW_BASE_HI_ADDR, [2], 0x24)], by decide +kernel⟩,
    ⟨.helm 0, 2, mk [up 0, up 3, (.RC_CTL_EN, [3], 1), (.RCW_CTL_EN, [2], 1), (.RCW_CTL_ATTR, [2], 1), (.RCW_SIZE_MIB, [2],
    1), (.HBM_CTL_EN, [0], 1), (.HBM_STAT_STATE, [0], 2)], by decide +kernel⟩,
    ⟨3, 2, 5, { st := 3, data := 119 },
    { mk [up 0, up 3, (.RC_CTL_EN, [3], 1), (.RCW_CTL_EN, [2], 1), (.RCW_CTL_ATTR, [2], 1), (.RCW_SIZE_MIB, [2], 1), (.HBM_CTL_EN, [0], 1), (.HBM_STAT_STATE, [0], 2), (.RCW_CTL_BUSY, [2], 1)] with rcLines := [([3, 5], { st := 3, data := 119 })] },
    by decide +kernel⟩,
    ⟨0, 3, 5, { st := 3, data := 119 }, { mk [up 3] with rcLines := [([3, 5], { st := 3, data := 119 })] },
    by decide +kernel⟩,
    ⟨0, 3, 5, { st := 1, data := 119 }, { mk [up 3] with rcLines := [([3, 5], { st := 1, data := 119 })] },
    by decide +kernel⟩,
    ⟨0,
    { mk [up 0, up 3, (.RC_CTL_EN, [3], 1), (.RCW_CTL_EN, [2], 1), (.RCW_CTL_ATTR, [2], 1), (.RCW_SIZE_MIB, [2], 1), (.HBM_CTL_EN, [0], 1), (.HBM_STAT_STATE, [0], 2), (.HA_STAT_RECALL, [0], 1)] with homeOut := [0, 2] },
    by decide +kernel⟩,
    ⟨3,
    { mk [up 0, up 3, (.RC_CTL_EN, [3], 1), (.RCW_CTL_EN, [2], 1), (.RCW_CTL_ATTR, [2], 1), (.RCW_SIZE_MIB, [2], 1), (.HBM_CTL_EN, [0], 1), (.HBM_STAT_STATE, [0], 2)] with rcLossT := [([3], 80)], rcLines := [([3, 5], { st := 3, data := 119 })], sf := [([0, 5], { mask := 8, owned := true })] },
    by decide +kernel⟩⟩

theorem witness_LinksTrainReplayAndRepairThemselves :
    (∃ (l : Fin 16) (s : State), (s.link l).train = 1 ∧ 8 ≤ l.val ∧ s.grantReady (l - 8) 8 [l] = true) ∧
    (∃ (l : Fin 7) (s : State), (s.link l).train = 1 ∧ (s.gov l).queue = [] ∧ s.grantReady (l + 1) 7 [l] = true) ∧
    (∃ (l : Fin 16) (bs : BearingSet) (s : State), (s.link l).train = 2 ∧ 8 ≤ l.val) ∧
    (∃ (l : Fin 16) (s : State), (s.link l).train = 1 ∧ (s.gov ((linkDies l).headD 0)).expired.any (·.is (linkOp l) [l]) =
    true) ∧
    (∃ (l : Fin 16) (s : State), (s.link l).retry ≠ 0 ∧ (s.link l).train = 0 ∧ linkUnits l ≤ s.rd .PG_CFG_BUDGET [(linkDies
    l).headD 0]) ∧
    (∃ (w : Writer) (n : Fin 8) (x : BitVec 8) (c : BitVec 5) (s : State), s.mute w = false ∧ s.up n = false ∧ s.up ((n.val
    + 1) % 8) = false) ∧
    (∃ (w : Writer) (n : Fin 8) (x : BitVec 8) (c : BitVec 5) (s : State), s.up n = true) ∧
    (∃ (l : Fin 8) (bs : BearingSet) (s : State), (s.link l).train = 2 ∧ s.rd .GK_ROLE_XSECT [l, 1] = 255) ∧
    (∃ (n : Fin 8) (k : Fin 3) (coh : Bool) (g h i : Fin 96) (f : GkFlit) (s : State), s.dirUp n k = true ∧ [g.val, h.val,
    i.val].all (fun g => (s.poolGroups n k (if coh then 1 else 0)).contains g) = true ∧ (s.pool n k (if coh then 1 else
    0)).fails < 16 ∧ (s.pool n k (if coh then 1 else 0)).buf[(s.pool n k (if coh then 1 else 0)).sent]? = some f ∧ ((s.pool
    n k (if coh then 1 else 0)).seq + 1024 - (s.pool n k (if coh then 1 else 0)).buf.length + (s.pool n k (if coh then 1
    else 0)).sent) % 1024 = (s.pool n k (if coh then 1 else 0)).exp) ∧
    (∃ (n : Fin 8) (k : Fin 3) (coh : Bool) (g h i : Fin 96) (f : GkFlit) (flips : BitVec 768) (s : State), s.dirUp n k =
    true ∧ [g.val, h.val, i.val].all (fun g => (s.poolGroups n k (if coh then 1 else 0)).contains g) = true ∧ (s.pool n k
    (if coh then 1 else 0)).fails < 16 ∧ (s.pool n k (if coh then 1 else 0)).buf[(s.pool n k (if coh then 1 else 0)).sent]?
    = some f ∧ ((s.pool n k (if coh then 1 else 0)).seq + 1024 - (s.pool n k (if coh then 1 else 0)).buf.length + (s.pool n
    k (if coh then 1 else 0)).sent) % 1024 = (s.pool n k (if coh then 1 else 0)).exp ∧ frameOk flips.toNat = false) ∧
    (∃ (n : Fin 8) (k : Fin 3) (coh : Bool) (g h i : Fin 96) (s : State), s.dirUp n k = true ∧ [g.val, h.val, i.val].all
    (fun g => (s.poolGroups n k (if coh then 1 else 0)).contains g) = true ∧ (s.pool n k (if coh then 1 else 0)).fails < 16
    ∧ (s.pool n k (if coh then 1 else 0)).buf.length = 512 ∧ (s.pool n k (if coh then 1 else 0)).sent = 512 ∧ (s.pool n k
    (if coh then 1 else 0)).txq ≠ []) ∧
    (∃ (n : Fin 9) (k : Fin 8) (coh : Bool) (g : Fin 96) (a : Nat) (s : State), (s.pool n k (if coh then 1 else 0)).nak =
    some a) ∧
    (∃ (n : Fin 9) (k : Fin 8) (coh : Bool) (s : State), 16 ≤ (s.pool n k (if coh then 1 else 0)).fails) ∧
    (∃ (n : Fin 8) (k : Fin 3) (g : Fin 96) (l : Fin 33) (c : Nat) (s : State), s.rd .GK_HEALTH_MTHR [n, k] ≠ 0 ∧ s.rd
    .GK_HEALTH_MTHR [n, k] ≤ c) ∧
    (∃ (n : Fin 9) (k : Fin 8) (g : Fin 96) (l : Fin 33) (s : State), (s.dir n k).crossed.contains (g.val, l.val) = true ∧
    (s.rd .GK_GRP_STAT_ROLE [n, k, g] = 2 ∨ s.rd .GK_GRP_STAT_ROLE [n, k, g] = 3) ∧ s.spareFree n k g = true ∧ s.busyGroup n
    k g = false) ∧
    (∃ (n : Fin 9) (k : Fin 8) (g : Fin 96) (l : Fin 33) (u : Nat) (s : State), (s.dir n k).swaps = [(g.val, l.val, u)]) ∧
    (∃ (n : Fin 9) (k : Fin 8) (g : Fin 96) (l : Fin 33) (s : State), (s.dir n k).crossed.contains (g.val, l.val) = true ∧
    s.rd .GK_GRP_STAT_ROLE [n, k, g] = 1 ∧ s.spareFree n k g = true ∧ s.busyGroup n k g = false) ∧
    (∃ (n : Fin 9) (k : Fin 8) (g : Fin 96) (l : Fin 33) (u : Nat) (s : State), (s.dir n k).cswaps = [(g.val, l.val, u)]) ∧
    (∃ (n : Fin 8) (k : Fin 3) (g : Fin 96) (bs : BearingSet) (s : State), (s.rd .GK_GRP_STAT_ROLE [n, k, g] = 2 ∨ s.rd
    .GK_GRP_STAT_ROLE [n, k, g] = 3) ∧ s.busyGroup n k g = false) ∧
    (∃ (n : Fin 8) (k : Fin 2) (g h : Fin 96) (r : List Nat) (bs : BearingSet) (s : State), s.rd .GK_GRP_STAT_ROLE [n, k, g]
    = 1 ∧ s.busyGroup n k g = false ∧ s.groupsOf n k 2 = h.val :: r) ∧
    (∃ (n : Fin 8) (k : Fin 2) (g : Fin 96) (c : GkConv) (s : State), (s.dir n k).convs = [c] ∧ c.into = g.val ∧ c.granted =
    false ∧ (s.gov ((linkDies (endLink n k)).headD 0)).queue = [] ∧ (s.gov ((linkDies (endLink n k)).getLastD 0)).ready.any
    (·.is 9 [n, k, g]) = true) ∧
    (∃ (w : Writer) (n : Fin 9) (k : Fin 8) (g : Fin 96) (l : Fin 33) (s : State), s.reaches w .GK_CTL [n, k] = true ∧ s.rd
    .GK_STAT_STATE [n, k] = 2 ∧ s.rd .GK_GRP_STAT_ROLE [n, k, g] = 2 ∧ s.spareFree n k g = true ∧ s.busyGroup n k g = false) ∧
    (∃ (w : Writer) (n : Fin 9) (k : Fin 8) (g : Fin 96) (bs : BearingSet) (s : State), s.reaches w .GK_CTL [n, k] = true ∧
    s.rd .GK_STAT_STATE [n, k] = 2 ∧ s.rd .GK_GRP_STAT_ROLE [n, k, g] = 3 ∧ s.busyGroup n k g = false) ∧
    (∃ (n : Fin 8) (k : Fin 2) (lc : Fin 48) (data : BitVec 256) (g d : Nat) (r : List (Nat × Bool)) (s : State), s.carrier
    n k lc = some g ∧ (s.crossing n k lc).pipe = (d, true) :: r ∧ s.crossCycles n k ≤ r.length + 1) ∧
    (∃ (n : Fin 8) (k : Fin 2) (lc : Fin 48) (data : BitVec 256) (flips : BitVec 264) (g d : Nat) (r : List (Nat × Bool)) (s
    : State), s.carrier n k lc = some g ∧ (s.crossing n k lc).pipe = (d, true) :: r ∧ s.crossCycles n k ≤ r.length + 1 ∧
    bitsOf flips.toNat 256 3 = 0 ∧ crc5 (bitsOf flips.toNat 0 256) 256 0 ≠ bitsOf flips.toNat 259 5) ∧
    (∃ (n : Fin 8) (k : Fin 2) (lc : Fin 48) (data : BitVec 256) (flips : BitVec 264) (g : Nat) (s : State), s.carrier n k
    lc = some g ∧ (s.crossing n k lc).pipe.length + 1 ≤ s.crossCycles n k) :=
  ⟨⟨11, granted ({ mk [up 3, up 4] with gkLink := [([11], { train := 1 })] }) 3 8 [11], by decide +kernel⟩,
    ⟨3, granted ({ mk [up 3, up 4] with gkLink := [([3], { train := 1 })] }) 4 7 [3], by decide +kernel⟩,
    ⟨11, [], { mk [up 3, up 4] with gkLink := [([11], { train := 2 })] }, by decide +kernel⟩,
    ⟨3, expired ({ mk [up 3, up 4] with gkLink := [([3], { train := 1 })] }) 3 7 [3], by decide +kernel⟩,
    ⟨3, { mk [up 3, up 4] with gkLink := [([3], { retry := 60 })] }, by decide +kernel⟩,
    ⟨.helm 0, 7, 0xFF, 12, mk [], by decide +kernel⟩,
    ⟨.helm 0, 3, 0xFF, 12, mk [up 3, up 4], by decide +kernel⟩,
    ⟨3, [],
    { mk [up 3, up 4, (.GK_ROLE_XSECT, [3, 1], 255), (.GK_ROLE_COH, [3, 1], 12)] with gkLink := [([3], { train := 2 })] },
    by decide +kernel⟩,
    ⟨3, 1, true, 5, 6, 7, { p := { dest := 5, src := 6, cls := 1, opc := 0x10, tag := 3 }, ix := 0, j := 1 },
    { mk [up 3, up 4, (.GK_STAT_STATE, [3, 1], 2), (.GK_GRP_STAT_ROLE, [3, 1, 5], 3), (.GK_GRP_STAT_ROLE, [3, 1, 6], 3), (.GK_GRP_STAT_ROLE, [3, 1, 7], 3)] with gkPool := [([3, 1, 1], { exp := 1022, disc := true, fails := 2, seq := 0, buf := [{ p := { dest := 5, src := 6, cls := 1, opc := 0x10, tag := 3 }, ix := 0, j := 1 }, { p := { dest := 5, src := 6, cls := 1, opc := 0x10, tag := 3 }, ix := 0, j := 1 }] })] },
    by decide +kernel⟩,
    ⟨3, 1, true, 5, 6, 7, { p := { dest := 5, src := 6, cls := 1, opc := 0x10, tag := 3 }, ix := 0, j := 1 }, 8,
    { mk [up 3, up 4, (.GK_STAT_STATE, [3, 1], 2), (.GK_GRP_STAT_ROLE, [3, 1, 5], 3), (.GK_GRP_STAT_ROLE, [3, 1, 6], 3), (.GK_GRP_STAT_ROLE, [3, 1, 7], 3)] with gkPool := [([3, 1, 1], { exp := 1022, fails := 2, seq := 0, buf := [{ p := { dest := 5, src := 6, cls := 1, opc := 0x10, tag := 3 }, ix := 0, j := 1 }, { p := { dest := 5, src := 6, cls := 1, opc := 0x10, tag := 3 }, ix := 0, j := 1 }] })] },
    by decide +kernel⟩,
    ⟨3, 1, true, 5, 6, 7,
    { mk [up 3, up 4, (.GK_STAT_STATE, [3, 1], 2), (.GK_GRP_STAT_ROLE, [3, 1, 5], 3), (.GK_GRP_STAT_ROLE, [3, 1, 6], 3), (.GK_GRP_STAT_ROLE, [3, 1, 7], 3)] with gkPool := [([3, 1, 1], { exp := 3, seq := 3, buf := List.replicate 512 { p := { dest := 5, src := 6, cls := 1, opc := 0x10, tag := 3 }, ix := 0, j := 1 }, sent := 512, txq := [{ p := { dest := 5, src := 6, cls := 1, opc := 0x10, tag := 3 }, ix := 0, j := 1 }] })] },
    by decide +kernel⟩,
    ⟨3, 1, false, 5, 77, { mk [up 3, up 4] with gkPool := [([3, 1, 0], { nak := some 77 })] }, by decide +kernel⟩,
    ⟨3, 1, false, { mk [up 3, up 4] with gkPool := [([3, 1, 0], { fails := 16 })] }, by decide +kernel⟩,
    ⟨3, 1, 5, 32, 300, mk [up 3, up 4, (.GK_HEALTH_MTHR, [3, 1], 300)], by decide +kernel⟩,
    ⟨3, 1, 5, 32,
    { mk [up 3, up 4, (.GK_GRP_STAT_ROLE, [3, 1, 5], 2), (.GK_GRP_STAT_SPARE_FOR, [3, 1, 5], 63)] with gkDir := [([3, 1], { crossed := [(5, 32)] })] },
    by decide +kernel⟩,
    ⟨3, 1, 5, 32, 90,
    { mk [up 3, up 4, (.GK_GRP_STAT_PAUSED, [3, 1, 5], 1)] with gkDir := [([3, 1], { swaps := [(5, 32, 90)] })] },
    by decide +kernel⟩,
    ⟨3, 1, 5, 32,
    { mk [up 3, up 4, (.GK_GRP_STAT_ROLE, [3, 1, 5], 1), (.GK_GRP_STAT_SPARE_FOR, [3, 1, 5], 63)] with gkDir := [([3, 1], { crossed := [(5, 32)] })] },
    by decide +kernel⟩,
    ⟨3, 1, 5, 32, 90, { mk [up 3, up 4] with gkDir := [([3, 1], { cswaps := [(5, 32, 90)] })] }, by decide +kernel⟩,
    ⟨3, 1, 5, [], mk [up 3, up 4, (.GK_GRP_STAT_ROLE, [3, 1, 5], 3)], by decide +kernel⟩,
    ⟨3, 1, 5, 9, [], [], mk [up 3, up 4, (.GK_GRP_STAT_ROLE, [3, 1, 5], 1), (.GK_GRP_STAT_ROLE, [3, 1, 9], 2)],
    by decide +kernel⟩,
    ⟨3, 1, 9, { from_ := 5, lc := 2, into := 9 }, granted
    ({ mk [up 3, up 4] with gkDir := [([3, 1], { convs := [{ from_ := 5, lc := 2, into := 9 }] })] }) 4 9 [3, 1, 9],
    by decide +kernel⟩,
    ⟨.helm 0, 3, 1, 5, 32, mk [up 3, up 4, (.GK_STAT_STATE, [3, 1], 2), (.GK_GRP_STAT_ROLE, [3, 1, 5], 2),
    (.GK_GRP_STAT_SPARE_FOR, [3, 1, 5], 63)], by decide +kernel⟩,
    ⟨.helm 0, 3, 1, 5, [], mk [up 3, up 4, (.GK_STAT_STATE, [3, 1], 2), (.GK_GRP_STAT_ROLE, [3, 1, 5], 3)],
    by decide +kernel⟩,
    ⟨3, 0, 7, 99, 5, 77, [(3, true)],
    { mk [up 3, up 4, up 2, (.GK_STAT_STATE, [3, 0], 2), (.PWR_DIE_STAT_PSTATE, [2], 0), (.SEC_STATUS_ISOLATED, [2, 33], 0), (.GK_GRP_STAT_ROLE, [3, 0, 5], 1), (.GK_GRP_STAT_LCROSS, [3, 0, 5], 7)] with crossIn := [([3, 0, 7], { pipe := [(77, true), (3, true)] })] },
    by decide +kernel⟩,
    ⟨3, 0, 7, 99, 4, 5, 77, [(3, true)],
    { mk [up 3, up 4, up 2, (.GK_STAT_STATE, [3, 0], 2), (.PWR_DIE_STAT_PSTATE, [2], 0), (.SEC_STATUS_ISOLATED, [2, 33], 0), (.GK_GRP_STAT_ROLE, [3, 0, 5], 1), (.GK_GRP_STAT_LCROSS, [3, 0, 5], 7)] with crossIn := [([3, 0, 7], { pipe := [(77, true), (3, true)] })] },
    by decide +kernel⟩,
    ⟨3, 0, 7, 99, 4, 5,
    { mk [up 3, up 4, up 2, (.GK_STAT_STATE, [3, 0], 2), (.PWR_DIE_STAT_PSTATE, [2], 0), (.SEC_STATUS_ISOLATED, [2, 33], 0), (.GK_GRP_STAT_ROLE, [3, 0, 5], 1), (.GK_GRP_STAT_LCROSS, [3, 0, 5], 7)] with crossIn := [([3, 0, 7], { data := 5, live := true })] },
    by decide +kernel⟩⟩

theorem witness_BundlesComeUpUnderTheirPermit :
    (∃ (w : Writer) (b : Fin 28) (s : State), s.reaches w .CL_BND_CTL [b] = true ∧ s.on .CL_BND_CTL_EN [b] = false ∧ 2 ≤
    s.rd .PG_CFG_BUDGET [bundleDie b]) ∧
    (∃ (w : Writer) (b : Fin 28) (s : State), s.reaches w .CL_BND_CTL [b] = true ∧ s.on .CL_BND_CTL_EN [b] = true) ∧
    (∃ (b : Fin 28) (s : State), s.bndState b = 1 ∧ s.grantReady (bundleDie b) 5 [b] = true) ∧
    (∃ (b : Fin 28) (s : State), s.bndState b = 2) ∧
    (∃ (b : Fin 28) (s : State), s.bndState b = 2) ∧
    (∃ (b : Fin 28) (rx : List (Option (BitVec 64))) (s : State), s.bndState b = 3 ∧ s.rd .CL_BND_TRN_LANES [b] = 255 ∧ (∀ i
    : Fin 8, rxIdx rx i = some i.val)) ∧
    (∃ (b : Fin 28) (rx : List (Option (BitVec 64))) (s : State), s.bndState b = 3 ∧ s.rd .CL_BND_TRN_LANES [b] = 255 ∧ (∀ i
    : Fin 8, rxIdx rx i = some (7 - i.val))) ∧
    (∃ (b : Fin 28) (rx : List (Option (BitVec 64))) (s : State), s.bndState b = 3 ∧ (∀ i : Fin 8, rxIdx rx i = none)) ∧
    (∃ (b : Fin 28) (rx : List (Option (BitVec 64))) (i j : Fin 8) (s : State), s.bndState b = 3 ∧ (s.rd .CL_BND_TRN_LANES
    [b]).testBit i = true ∧ rxIdx rx i = some j.val ∧ j ≠ i ∧ i.val + j.val ≠ 7) ∧
    (∃ (w : Writer) (b : Fin 28) (s : State), s.reaches w .CL_BND_CTL [b] = true ∧ s.bndState b = 4 ∧ (bundleLanes b).any
    s.laneBusy = false ∧ s.holds (bundleDie b) 5 [b] = true) ∧
    (∃ (w : Writer) (b : Fin 28) (s : State), s.reaches w .CL_BND_CTL [b] = true ∧ s.bndState b = 4 ∧ (bundleLanes b).any
    s.laneBusy = false ∧ s.holds (bundleDie b) 5 [b] = false ∧ 2 ≤ s.rd .PG_CFG_BUDGET [bundleDie b]) ∧
    (∃ (w : Writer) (b : Fin 28) (s : State), s.reaches w .CL_BND_CTL [b] = true ∧ (bundleLanes b).any s.laneBusy = true) ∧
    (∃ (w : Writer) (b : Fin 28) (s : State), s.reaches w .CL_BND_CTL [b] = true ∧ (bundleLanes b).any s.laneBusy = false) ∧
    (∃ (w : Writer) (b : Fin 28) (s : State), s.reaches w .CL_BND_CTL [b] = true ∧ (bundleLanes b).any s.laneBusy = true) ∧
    (∃ (b : Fin 28) (s : State), s.bndState b = 1 ∧ s.timeoutReady (bundleDie b) 5 [b] = true) :=
  ⟨⟨.helm 0, 3, mk [up 1], by decide +kernel⟩,
    ⟨.helm 0, 3, mk [up 1, (.CL_BND_CTL_EN, [3], 1)], by decide +kernel⟩,
    ⟨3, granted (mk [up 1, (.CL_BND_STAT_STATE, [3], 1), (.CL_BND_CTL_EN, [3], 1)]) 1 5 [3], by decide +kernel⟩,
    ⟨3, { mk [up 1, (.CL_BND_STAT_STATE, [3], 2)] with bundle := [([3], { t0 := 90 })] }, by decide +kernel⟩,
    ⟨3, { mk [up 1, (.CL_BND_STAT_STATE, [3], 2)] with bundle := [([3], { t0 := 90 })] }, by decide +kernel⟩,
    ⟨3, [some (~~~BitVec.ofNat 64 (trainBlock 0 1023)), some (BitVec.ofNat 64 (trainBlock 1 1023)), some (BitVec.ofNat 64
    (trainBlock 2 1023)), some (~~~BitVec.ofNat 64 (trainBlock 3 1023)), some (BitVec.ofNat 64 (trainBlock 4 1023)), some
    (BitVec.ofNat 64 (trainBlock 5 1023)), some (BitVec.ofNat 64 (trainBlock 6 1023)), some (~~~BitVec.ofNat 64 (trainBlock
    7 1023))], mk [up 1, (.CL_BND_STAT_STATE, [3], 3)], by decide +kernel⟩,
    ⟨3, [some (~~~BitVec.ofNat 64 (trainBlock 7 1023)), some (BitVec.ofNat 64 (trainBlock 6 1023)), some (BitVec.ofNat 64
    (trainBlock 5 1023)), some (~~~BitVec.ofNat 64 (trainBlock 4 1023)), some (BitVec.ofNat 64 (trainBlock 3 1023)), some
    (BitVec.ofNat 64 (trainBlock 2 1023)), some (BitVec.ofNat 64 (trainBlock 1 1023)), some (~~~BitVec.ofNat 64 (trainBlock
    0 1023))], mk [up 1, (.CL_BND_STAT_STATE, [3], 3)], by decide +kernel⟩,
    ⟨3, [], mk [up 1, (.CL_BND_STAT_STATE, [3], 3)], by decide +kernel⟩,
    ⟨3, [some (~~~BitVec.ofNat 64 (trainBlock 0 1023)), some (BitVec.ofNat 64 (trainBlock 1 1023)), some (BitVec.ofNat 64
    (trainBlock 3 1023))], 2, 3, mk [up 1, (.CL_BND_STAT_STATE, [3], 3)], by decide +kernel⟩,
    ⟨.helm 0, 3,
    { mk [up 1, (.CL_BND_STAT_STATE, [3], 4)] with govs := [([1], { held := [{ op := 5, who := [3], units := 2, t := 0 }] })] },
    by decide +kernel⟩,
    ⟨.helm 0, 3, mk [up 1, (.CL_BND_STAT_STATE, [3], 4)], by decide +kernel⟩,
    ⟨.helm 0, 0,
    { mk [up 0, (.CL_BND_STAT_STATE, [0], 4), (.ENG_OUT_DEST, [0], 2), (.FC_LANES_COUNT, [0], 1), (.ENG_STATUS_STATE, [0], 3)] with eng := [([0], { owned := [(0, 2)] })] },
    by decide +kernel⟩,
    ⟨.helm 0, 3,
    { mk [up 1, (.CL_BND_STAT_STATE, [3], 4), (.CL_BND_CTL_EN, [3], 1), (.CL_STAT_LOS, [25], 1)] with govs := [([1], { held := [{ op := 5, who := [3], units := 2, t := 0 }] })] },
    by decide +kernel⟩,
    ⟨.helm 0, 0,
    { mk [up 0, (.CL_BND_STAT_STATE, [0], 4), (.ENG_OUT_DEST, [0], 2), (.FC_LANES_COUNT, [0], 1), (.ENG_STATUS_STATE, [0], 3)] with eng := [([0], { owned := [(0, 2)] })] },
    by decide +kernel⟩,
    ⟨3, expired (mk [up 1, (.CL_BND_STAT_STATE, [3], 1), (.CL_BND_CTL_EN, [3], 1)]) 1 5 [3], by decide +kernel⟩⟩

theorem witness_ChannelLanesTakeTheirControlsAndReportLosses :
    (∃ (w : Writer) (l : Fin 224) (v : BitVec 7) (s : State), s.reaches w .CL_CTL [l] = true ∧ s.laneBusy l = false ∧ s.rd
    .CL_CTL_EN [l] = 0) ∧
    (∃ (w : Writer) (l : Fin 224) (v : BitVec 7) (s : State), s.reaches w .CL_CTL [l] = true ∧ s.laneBusy l = true) ∧
    (∃ (w : Writer) (l : Fin 224) (c : BitVec 9) (s : State), s.reaches w .CL_SLIP [l] = true ∧ c.toNat ≠ 0 ∧ s.bndState
    (l.val / 8) = 4 ∧ s.laneBusy l = false) ∧
    (∃ (w : Writer) (l : Fin 224) (v : BitVec 32) (s : State), s.reaches w .CL_TIM [l] = true ∧ s.on .CL_CTL_EN [l] = false
    ∧ deskewOk (bitsOf v.toNat 8 8) = true ∧ deskewOk (bitsOf v.toNat 24 8) = true) ∧
    (∃ (w : Writer) (l : Fin 224) (v : BitVec 32) (s : State), s.reaches w .CL_TIM [l] = true ∧ (deskewOk (bitsOf v.toNat 8
    8) = false ∨ deskewOk (bitsOf v.toNat 24 8) = false)) ∧
    (∃ (w : Writer) (l : Fin 224) (s : State), s.reaches w .CL_CTL [l] = true ∧ s.laneDetects l = true ∧ s.laneUse l = 0 ∧
    s.laneBusy l = false ∧ s.on .CL_LOOP_BUSY [l] = false) ∧
    (∃ (w : Writer) (l : Fin 224) (s : State), s.reaches w .CL_CTL [l] = true ∧ s.on .CL_LOOP_BUSY [l] = true) ∧
    (∃ (l : Fin 224) (u : BitVec 16) (s : State), s.on .CL_LOOP_BUSY [l] = true) ∧
    (∃ (l : Fin 224) (s : State), s.on .CL_LOOP_BUSY [l] = true) ∧
    (∃ (w : Writer) (l : Fin 224) (s : State), s.reaches w .CL_CTL [l] = true ∧ s.laneDetects l = true) ∧
    (∃ (l : Fin 224) (s : State), s.laneDetects l = true ∧ s.on .CL_STAT_LOS [l] = false) ∧
    (∃ (l : Fin 224) (s : State), s.laneDetects l = true ∧ s.strobe l = false ∧ s.on .CL_STAT_LOL [l] = false) ∧
    (∃ (l : Fin 224) (s : State), s.on .CL_STAT_LOL [l] = true) ∧
    (∃ (l : Fin 224) (data : BitVec 64) (n : Nat) (s : State), s.laneDetects (s.rxLane l) = true ∧ s.laneUse (s.rxLane l) =
    1 ∧ s.chkRuns false (s.rxLane l) = false ∧ ((s.laneRt (s.rxLane l)).rx.drop (if s.portUp (s.rxLane l) then n else
    0)).length < 16) ∧
    (∃ (l : Fin 224) (data : BitVec 64) (n : Nat) (s : State), s.laneDetects (s.rxLane l) = true ∧ s.laneUse (s.rxLane l) =
    1 ∧ s.chkRuns false (s.rxLane l) = false ∧ 16 ≤ ((s.laneRt (s.rxLane l)).rx.drop (if s.portUp (s.rxLane l) then n else
    0)).length) ∧
    (∃ (trunk : Bool) (l : Fin 224) (rx : List (BitVec 64)) (c : ChkRt) (k : Bool) (n e : Nat) (s : State), s.chkRuns trunk
    l = true ∧ s.on (chkLockFld trunk) [l] = false ∧ chkRun (trunk && s.on .TR_CTL_MOD [l]) (s.chkCode trunk l) (rx.flatMap
    fun x => (List.range 64).map fun i => x.toNat.testBit i) (if trunk then s.trunkRt l else s.laneRt l).chk false 0 0 = (c,
    k, n, e)) ∧
    (∃ (trunk : Bool) (l : Fin 224) (rx : List (BitVec 64)) (c : ChkRt) (k : Bool) (n e : Nat) (s : State), s.chkRuns trunk
    l = true ∧ s.on (chkLockFld trunk) [l] = true ∧ chkRun (trunk && s.on .TR_CTL_MOD [l]) (s.chkCode trunk l) (rx.flatMap
    fun x => (List.range 64).map fun i => x.toNat.testBit i) (if trunk then s.trunkRt l else s.laneRt l).chk true 0 0 = (c,
    k, n, e)) ∧
    (∃ (pam b : Bool) (g : Nat) (c : ChkRt), chkDegree pam g ≤ c.seen ∧ b = chkNext pam g c.reg) ∧
    (∃ (pam b : Bool) (g : Nat) (c : ChkRt), chkDegree pam g ≤ c.seen ∧ b ≠ chkNext pam g c.reg) ∧
    (∃ (w : Writer) (l : Fin 224) (v : BitVec 7) (s : State), s.reaches w .CL_CTL [l] = true ∧ s.laneBusy l = false ∧ s.rd
    .CL_CTL_EN [l] = 1) :=
  ⟨⟨.helm 0, 25, 0x5D, mk [up 1], by decide +kernel⟩,
    ⟨.helm 0, 0, 0x4A,
    { mk [up 0, (.CL_CTL_EN, [0], 1), (.ENG_OUT_DEST, [0], 2), (.FC_LANES_COUNT, [0], 1), (.ENG_STATUS_STATE, [0], 3)] with eng := [([0], { owned := [(0, 2)] })] },
    by decide +kernel⟩,
    ⟨.helm 0, 25, 70, mk [up 1, (.CL_BND_STAT_STATE, [3], 4), (.CL_STAT_REALIGN, [25], 1)], by decide +kernel⟩,
    ⟨.helm 0, 25, 0xC0054005, mk [up 1], by decide +kernel⟩,
    ⟨.helm 0, 25, 0xC0054105, mk [up 1], by decide +kernel⟩,
    ⟨.helm 0, 25, mk [up 1, (.CL_CTL_EN, [25], 1), (.CL_BND_STAT_STATE, [3], 4)], by decide +kernel⟩,
    ⟨.helm 0, 25, mk [up 1, (.CL_CTL_EN, [25], 1), (.CL_BND_STAT_STATE, [3], 4), (.CL_LOOP_BUSY, [25], 1)],
    by decide +kernel⟩,
    ⟨25, 513, mk [up 1, (.CL_LOOP_BUSY, [25], 1)], by decide +kernel⟩,
    ⟨25, mk [up 1, (.CL_LOOP_BUSY, [25], 1), (.CL_LOOP_VALID, [25], 1)], by decide +kernel⟩,
    ⟨.helm 0, 25, mk [up 1, (.CL_CTL_EN, [25], 1), (.CL_BND_STAT_STATE, [3], 4)], by decide +kernel⟩,
    ⟨25, mk [up 1, (.CL_CTL_EN, [25], 1), (.CL_BND_STAT_STATE, [3], 4)], by decide +kernel⟩,
    ⟨25, mk [up 1, (.CL_CTL_EN, [25], 1), (.CL_BND_STAT_STATE, [3], 4)], by decide +kernel⟩,
    ⟨25, mk [up 1, (.CL_STAT_LOL, [25], 1), (.CL_STAT_CHK_LOCK, [25], 1)], by decide +kernel⟩,
    ⟨30, 7, 0,
    { mk [up 1, (.CL_CTL_EN, [25], 1), (.CL_CTL_USE, [25], 1), (.CL_BND_STAT_STATE, [3], 4), (.CL_BND_STAT_REV, [3], 1), (.CL_STAT_RXINV, [25], 1)] with lane := [([25], { rxLost := true })] },
    by decide +kernel⟩,
    ⟨30, 7, 0,
    { mk [up 1, (.CL_CTL_EN, [25], 1), (.CL_CTL_USE, [25], 1), (.CL_BND_STAT_STATE, [3], 4), (.CL_BND_STAT_REV, [3], 1), (.CL_STAT_RXINV, [25], 1)] with lane := [([25], { rx := List.replicate 16 (5, false, 0) })] },
    by decide +kernel⟩,
    ⟨false, 25, [0, 5], (chkRun false 1 ([(0 : BitVec 64), 5].flatMap fun x => (List.range 64).map fun i => x.toNat.testBit
    i) {} false 0 0).1, (chkRun false 1 ([(0 : BitVec 64), 5].flatMap fun x => (List.range 64).map fun i => x.toNat.testBit
    i) {} false 0 0).2.1, (chkRun false 1 ([(0 : BitVec 64), 5].flatMap fun x => (List.range 64).map fun i =>
    x.toNat.testBit i) {} false 0 0).2.2.1, (chkRun false 1 ([(0 : BitVec 64), 5].flatMap fun x => (List.range 64).map fun i
    => x.toNat.testBit i) {} false 0 0).2.2.2, (mk [up 1, (.CL_CTL_EN, [25], 1), (.CL_BND_STAT_STATE, [3], 4),
    (.CL_PRBS_CHK, [25], 1), (.CL_ERR_CNT_COUNT, [25], 0xFFFFFFFE), (.CL_STAT_CHK_LOCK, [25], 0)]), by decide +kernel⟩,
    ⟨false, 25, [0, 5], (chkRun false 1 ([(0 : BitVec 64), 5].flatMap fun x => (List.range 64).map fun i => x.toNat.testBit
    i) {} true 0 0).1, (chkRun false 1 ([(0 : BitVec 64), 5].flatMap fun x => (List.range 64).map fun i => x.toNat.testBit
    i) {} true 0 0).2.1, (chkRun false 1 ([(0 : BitVec 64), 5].flatMap fun x => (List.range 64).map fun i => x.toNat.testBit
    i) {} true 0 0).2.2.1, (chkRun false 1 ([(0 : BitVec 64), 5].flatMap fun x => (List.range 64).map fun i =>
    x.toNat.testBit i) {} true 0 0).2.2.2, (mk [up 1, (.CL_CTL_EN, [25], 1), (.CL_BND_STAT_STATE, [3], 4), (.CL_PRBS_CHK,
    [25], 1), (.CL_ERR_CNT_COUNT, [25], 0xFFFFFFFE), (.CL_STAT_CHK_LOCK, [25], 1)]), by decide +kernel⟩,
    ⟨false, false, 1, { seen := 7, run := 13 }, by decide +kernel⟩,
    ⟨false, true, 1, { seen := 7, pos := 2000, errs := List.replicate 63 1999 }, by decide +kernel⟩,
    ⟨.helm 0, 9, 0x55, mk [up 0, (.CL_CTL_EN, [9], 1)], by decide +kernel⟩⟩

theorem witness_TrunkLanesAdaptUnderTheirPermitAndCapture :
    (∃ (w : Writer) (k : Fin 32) (s : State), s.reaches w .TR_CTL [k] = true ∧ s.trState k = 0 ∧ 3 ≤ s.rd .PG_CFG_BUDGET
    [trunkDie k]) ∧
    (∃ (k : Fin 32) (s : State), s.trState k = 1 ∧ s.grantReady (trunkDie k) 6 [k] = true) ∧
    (∃ (k : Fin 32) (snr : BitVec 8) (s : State), (s.trState k = 2 ∨ s.trState k = 4)) ∧
    (∃ (k : Fin 32) (s : State), s.trState k = 2) ∧
    (∃ (w : Writer) (k : Fin 32) (s : State), s.reaches w .TR_CTL [k] = true ∧ s.on .TR_CTL_EN [k] = true ∧ 2 ≤ s.trState k
    ∧ s.holds (trunkDie k) 6 [k] = true) ∧
    (∃ (w : Writer) (k : Fin 32) (s : State), s.reaches w .TR_CTL [k] = true ∧ s.on .TR_CTL_EN [k] = true ∧ 2 ≤ s.trState k
    ∧ s.holds (trunkDie k) 6 [k] = false ∧ 3 ≤ s.rd .PG_CFG_BUDGET [trunkDie k]) ∧
    (∃ (k : Fin 32) (s : State), s.trState k = 1 ∧ s.timeoutReady (trunkDie k) 6 [k] = true) ∧
    (∃ (k : Fin 32) (s : State), s.trState k = 3 ∧ s.holds (trunkDie k) 6 [k] = true) ∧
    (∃ (w : Writer) (k : Fin 32) (a b c : BitVec 6) (s : State), s.reaches w .TR_FFE [k] = true ∧ tapAbs a + tapAbs b +
    tapAbs c ≤ 32) ∧
    (∃ (w : Writer) (k : Fin 32) (a b c : BitVec 6) (s : State), s.reaches w .TR_FFE [k] = true ∧ 32 < tapAbs a + tapAbs b +
    tapAbs c) ∧
    (∃ (w : Writer) (k : Fin 32) (s : State), s.reaches w .TR_CTL [k] = true ∧ 2 ≤ s.trState k) ∧
    (∃ (k : Fin 32) (x : BitVec 896) (n : Nat) (s : State), s.trState k = 3 ∧ s.on .TR_CTL_CAP [k] = true ∧ s.trunkPortUp k
    = true ∧ ((s.trunkRt k).rx.drop n).length < 64) ∧
    (∃ (k : Fin 32) (x : BitVec 896) (n : Nat) (s : State), s.trState k = 3 ∧ s.on .TR_CTL_CAP [k] = true ∧ s.trunkPortUp k
    = true ∧ 64 ≤ ((s.trunkRt k).rx.drop n).length) :=
  ⟨⟨.helm 0, 5, mk [up 1], by decide +kernel⟩,
    ⟨5, granted (mk [up 1, (.TR_STAT_STATE, [5], 1)]) 1 6 [5], by decide +kernel⟩,
    ⟨5, 99, mk [up 1, (.TR_STAT_STATE, [5], 4)], by decide +kernel⟩,
    ⟨5, mk [up 1, (.TR_STAT_STATE, [5], 2)], by decide +kernel⟩,
    ⟨.helm 0, 5,
    { mk [up 1, (.TR_CTL_EN, [5], 1), (.TR_STAT_STATE, [5], 3)] with govs := [([1], { held := [{ op := 6, who := [5], units := 3, t := 0 }] })] },
    by decide +kernel⟩,
    ⟨.helm 0, 5, mk [up 1, (.TR_CTL_EN, [5], 1), (.TR_STAT_STATE, [5], 3)], by decide +kernel⟩,
    ⟨5, expired (mk [up 1, (.TR_STAT_STATE, [5], 1)]) 1 6 [5], by decide +kernel⟩,
    ⟨5,
    { mk [up 1, (.TR_STAT_STATE, [5], 3), (.TR_STAT_CHK_LOCK, [5], 1)] with govs := [([1], { held := [{ op := 6, who := [5], units := 3, t := 0 }] })] },
    by decide +kernel⟩,
    ⟨.helm 0, 5, 0x38, 20, 0x3C, mk [up 1], by decide +kernel⟩,
    ⟨.helm 0, 5, 0x38, 20, 0x3B, mk [up 1], by decide +kernel⟩,
    ⟨.helm 0, 5, mk [up 1, (.TR_STAT_STATE, [5], 3)], by decide +kernel⟩,
    ⟨5, 99, 0,
    { mk [up 1, (.TR_STAT_STATE, [5], 3), (.TR_CTL_CAP, [5], 1), (.SEC_STATUS_STATE, [1, 31], 3)] with trunk := [([5], { capSeq := 65535, rxLost := true })] },
    by decide +kernel⟩,
    ⟨5, 99, 0,
    { mk [up 1, (.TR_STAT_STATE, [5], 3), (.TR_CTL_CAP, [5], 1), (.SEC_STATUS_STATE, [1, 31], 3)] with trunk := [([5], { capSeq := 65535, rx := List.replicate 64 (5, false, 0) })] },
    by decide +kernel⟩⟩

theorem witness_DoorbellsAndQueuePairsKeepTheirRings :
    (∃ (f : Fin 8) (q : Fin 1024) (v : BitVec 32) (s : State), s.on .HIF_FN_STAT_FLR_BUSY [f] = false ∧ s.qpOwned q f = true
    ∧ s.qstate q = 1 ∧ v.toNat < s.sqSize q) ∧
    (∃ (f : Fin 8) (q : Fin 1024) (v : BitVec 32) (s : State), s.on .HIF_FN_STAT_FLR_BUSY [f] = false ∧ s.qpOwned q f = true
    ∧ s.qstate q = 1 ∧ s.sqSize q ≤ v.toNat) ∧
    (∃ (f : Fin 8) (q : Fin 1024) (v : BitVec 32) (s : State), (s.qpOwned q f = false ∨ s.qstate q ≠ 1)) ∧
    (∃ (f : Fin 8) (q : Fin 1024) (v : BitVec 32) (s : State), s.on .HIF_FN_STAT_FLR_BUSY [f] = false ∧ s.qpOwned q f = true
    ∧ s.qstate q = 1 ∧ v.toNat < s.cqSize q) ∧
    (∃ (w : Writer) (q : Fin 1024) (s : State), s.reaches w .HIF_QP_CTL [q] = true ∧ s.hifWriter w (fun f => s.qpOwned q f)
    = true ∧ s.on .HIF_QP_ASSIGN_VALID [q] = true ∧ s.sqSize q ≠ 0 ∧ s.cqSize q ≠ 0 ∧ s.qstate q = 0) ∧
    (∃ (w : Writer) (q : Fin 1024) (s : State), s.reaches w .HIF_QP_CTL [q] = true ∧ s.hifWriter w (fun f => s.qpOwned q f)
    = true ∧ s.on .HIF_QP_ASSIGN_VALID [q] = true ∧ (s.sqSize q = 0 ∨ s.cqSize q = 0)) ∧
    (∃ (w : Writer) (q : Fin 1024) (s : State), s.reaches w .HIF_QP_CTL [q] = true ∧ s.hifWriter w (fun f => s.qpOwned q f)
    = true ∧ s.qstate q = 1) ∧
    (∃ (w : Writer) (q : Fin 1024) (s : State), s.reaches w .HIF_QP_CTL [q] = true ∧ s.hifWriter w (fun f => s.qpOwned q f)
    = true ∧ s.qstate q = 3) ∧
    (∃ (q : Nat) (s : State), s.fetchTurn = some q) ∧
    (∃ (q : Nat) (d : BitVec 512) (s : State), s.fetchTurn = some q) ∧
    (∃ (q x : Nat) (d : BitVec 512) (s : State), s.fetchTurn = some q ∧ (s.qp q).jobs = [] ∧ (s.qp q).chain = false ∧
    s.firstBad d.toNat = some x) ∧
    (∃ (q : Nat) (d : BitVec 512) (s : State), s.fetchTurn = some q ∧ (s.qp q).jobs = [] ∧ (s.qp q).chain = false ∧
    s.firstBad d.toNat = none) ∧
    (∃ (q : Fin 1024) (j : Job) (s : State), (s.qp q).jobs = [j] ∧ j.st = 2 ∧ s.cqFull q = false ∧ s.on .HIF_FN_STAT_BME
    [s.rd .HIF_QP_ASSIGN_FN [q]] = true ∧ s.rd .HIF_QP_STAT_PHASE [q] ≤ 1) ∧
    (∃ (q : Fin 1024) (j : Job) (s : State), (s.qp q).jobs = [j] ∧ j.st = 2 ∧ s.cqFull q = false ∧ s.on .HIF_FN_STAT_BME
    [s.rd .HIF_QP_ASSIGN_FN [q]] = true) ∧
    (∃ (q : Fin 1024) (j : Job) (r : List Job) (s : State), (s.qp q).jobs = j :: r ∧ j.st = 2 ∧ s.cqFull q = true) ∧
    (∃ (f : Fin 8) (v : Fin 1024) (u : Nat) (s : State), (s.vec f v).due = some u ∧ (s.vec f v).masked = false ∧ s.on
    .HIF_FN_STAT_BME [f] = true) ∧
    (∃ (f : Fin 8) (v : Fin 1024) (u : Nat) (s : State), (s.vec f v).due = some u ∧ (s.vec f v).masked = true) :=
  ⟨⟨2, 7, 15, qpOn 2 7 [] [], by decide +kernel⟩,
    ⟨2, 7, 16, qpOn 2 7 [] [], by decide +kernel⟩,
    ⟨3, 7, 5, qpOn 2 7 [] [], by decide +kernel⟩,
    ⟨2, 7, 15, qpOn 2 7 [] [], by decide +kernel⟩,
    ⟨.fn 2, 7, qpOn 2 7 [] [(.HIF_QP_STAT_STATE, [7], 0), (.HIF_QP_STAT_ERR, [7], 2)], by decide +kernel⟩,
    ⟨.fn 0, 7, qpOn 2 7 [] [(.HIF_QP_STAT_STATE, [7], 0), (.HIF_QP_CTL_SQ_LOG2, [7], 0)], by decide +kernel⟩,
    ⟨.fn 2, 7, qpOn 2 7 [{ idx := 1, d := 0, st := 1 }] [(.HIF_QP_CTL_EN, [7], 1)], by decide +kernel⟩,
    ⟨.fn 2, 7, qpOn 2 7 [{ idx := 1, d := 0, st := 1 }] [(.HIF_QP_STAT_STATE, [7], 3), (.HIF_QP_STAT_ERR, [7], 2)],
    by decide +kernel⟩,
    ⟨7, { qpOn 2 7 [] [] with qps := [([7], { tail := 1 })] }, by decide +kernel⟩,
    ⟨7, 0x800, { qpOn 2 7 [] [(.HIF_QP_HEAD_SQ_HEAD, [7], 15)] with qps := [([7], { tail := 1 })] }, by decide +kernel⟩,
    ⟨7, 1, 0x500000001, { qpOn 2 7 [] [] with qps := [([7], { tail := 1 })] }, by decide +kernel⟩,
    ⟨7, 0x12340100, { qpOn 2 7 [] [] with qps := [([7], { tail := 1 })] }, by decide +kernel⟩,
    ⟨7, { idx := 1, d := 0, st := 2 }, qpOn 2 7 [{ idx := 1, d := 0, st := 2 }] [(.HIF_QP_HEAD_CQ_TAIL, [7], 15),
    (.HIF_QP_STAT_PHASE, [7], 1)], by decide +kernel⟩,
    ⟨7, { idx := 1, d := 0, st := 2 }, qpOn 2 7 [{ idx := 1, d := 0, st := 2 }] [(.HIF_QP_HEAD_CQ_TAIL, [7], 9)],
    by decide +kernel⟩,
    ⟨7, { idx := 1, d := 0, st := 2 }, [], qpOn 2 7 [{ idx := 1, d := 0, st := 2 }] [(.HIF_QP_HEAD_CQ_TAIL, [7], 4)],
    by decide +kernel⟩,
    ⟨2, 9, 400,
    { mk [(.HIF_FN_STAT_BME, [2], 1)] with vecs := [([2, 9], { masked := false, pend := true, due := some 400 })] },
    by decide +kernel⟩,
    ⟨2, 9, 400, { mk [(.HIF_FN_STAT_BME, [2], 1)] with vecs := [([2, 9], { masked := true, due := some 400 })] },
    by decide +kernel⟩⟩

theorem witness_FunctionResetsAndLinkEventsReachTheirQueuePairs :
    (∃ (f : Fin 8) (q : Fin 1024) (s : State), s.on .HIF_FN_STAT_FLR_BUSY [f] = false ∧ s.qpOwned q f = true) ∧
    (∃ (f : Fin 8) (s : State), s.on .HIF_FN_STAT_FLR_BUSY [f] = true) ∧
    (∃ (f : Fin 8) (s : State), s.on .HIF_FN_STAT_FLR_BUSY [f] = true) ∧
    (∃ (p : Fin 2) (s : State), smGet s.pcie [p.val] 0 = 1) :=
  ⟨⟨2, 7,
    { qpOn 2 7 [{ idx := 1, d := 0, st := 1 }] [(.HIF_QP_CTL_EN, [7], 1)] with vecs := [([2, 9], { masked := false, pend := true })], mail := [{ src := 2, req := [], limit := 0, dst := 0, t := 0 }] },
    by decide +kernel⟩,
    ⟨2, mk [(.HIF_FN_STAT_FLR_BUSY, [2], 1)], by decide +kernel⟩,
    ⟨2, mk [(.HIF_FN_STAT_FLR_BUSY, [2], 1)], by decide +kernel⟩,
    ⟨1, { mk [] with govs := [([8], { held := [{ op := 17, who := [1], units := 4, t := 0 }] })], pcie := [([1], 1)] },
    by decide +kernel⟩⟩

theorem witness_DescriptorsStartAndEndWithTheirStatus :
    (∃ (q : Fin 1024) (n : Nat) (j : Job) (s : State), s.mayStart q n 0x00 j = true ∧ dNOCMP j.d = false) ∧
    (∃ (q : Fin 1024) (j : Job) (s : State), s.mayStart q 0 0x00 j = true ∧ dNOCMP j.d = true ∧ (s.qp q).jobs = [j]) ∧
    (∃ (q : Fin 1024) (n : Nat) (j : Job) (s : State), s.mayStart q n 0x50 j = true ∧ dNOCMP j.d = false) ∧
    (∃ (q : Fin 1024) (j : Job) (s : State), s.mayStart q 0 0x50 j = true ∧ dNOCMP j.d = true ∧ (s.qp q).jobs = [j]) ∧
    (∃ (q : Fin 1024) (n : Nat) (j : Job) (s : State), s.mayStart q n 0x01 j = true ∧ dLEN j.d = 0) ∧
    (∃ (q : Fin 1024) (n : Nat) (j : Job) (s : State), s.mayStart q n 0x01 j = true ∧ dLEN j.d ≠ 0) ∧
    (∃ (q : Fin 1024) (n : Nat) (j : Job) (s : State), s.mayStart q n 0x02 j = true ∧ dLEN j.d = 0) ∧
    (∃ (q : Fin 1024) (n : Nat) (j : Job) (s : State), s.mayStart q n 0x02 j = true ∧ dLEN j.d ≠ 0) ∧
    (∃ (q : Fin 1024) (n : Nat) (j : Job) (s : State), s.mayStart q n 0x03 j = true ∧ dLEN j.d = 0) ∧
    (∃ (q : Fin 1024) (n : Nat) (j : Job) (s : State), s.mayStart q n 0x03 j = true ∧ dLEN j.d ≠ 0) ∧
    (∃ (q : Fin 1024) (n : Nat) (j : Job) (s : State), s.mayStart q n 0x10 j = true ∧ s.up (engDie (dWord j.d 6)) = false) ∧
    (∃ (q : Fin 1024) (n : Nat) (j : Job) (s : State), s.mayStart q n 0x10 j = true ∧ s.up (engDie (dWord j.d 6)) = true ∧
    s.usable (dWord j.d 6) (s.rd .HIF_QP_ASSIGN_FN [q]) = false) ∧
    (∃ (q : Fin 1024) (n : Nat) (j : Job) (s : State), s.mayStart q n 0x10 j = true ∧ s.up (engDie (dWord j.d 6)) = true ∧
    s.usable (dWord j.d 6) (s.rd .HIF_QP_ASSIGN_FN [q]) = true ∧ dLEN j.d ≠ 0) ∧
    (∃ (q : Fin 1024) (n : Nat) (j : Job) (s : State), s.mayStart q n 0x10 j = true ∧ s.up (engDie (dWord j.d 6)) = true ∧
    s.usable (dWord j.d 6) (s.rd .HIF_QP_ASSIGN_FN [q]) = true ∧ dLEN j.d = 0) ∧
    (∃ (q : Fin 1024) (n : Nat) (j : Job) (s : State), s.mayStart q n 0x13 j = true ∧ s.draining (dWord j.d 6) = false ∧
    s.up (engDie (dWord j.d 6)) = false) ∧
    (∃ (q : Fin 1024) (n : Nat) (j : Job) (s : State), s.mayStart q n 0x13 j = true ∧ s.draining (dWord j.d 6) = false ∧
    s.up (engDie (dWord j.d 6)) = true ∧ s.usable (dWord j.d 6) (s.rd .HIF_QP_ASSIGN_FN [q]) = false) ∧
    (∃ (q : Fin 1024) (n : Nat) (j : Job) (s : State), s.mayStart q n 0x13 j = true ∧ s.draining (dWord j.d 6) = false ∧
    s.up (engDie (dWord j.d 6)) = true ∧ s.usable (dWord j.d 6) (s.rd .HIF_QP_ASSIGN_FN [q]) = true ∧ s.ringLevel (dWord j.d
    6) = 0 ∧ dNOCMP j.d = false) ∧
    (∃ (q : Fin 1024) (n e : Nat) (j : Job) (s : State), s.mayStart q n 0x13 j = true ∧ dWord j.d 6 = e ∧ s.draining e =
    false ∧ s.up (engDie e) = true ∧ s.usable e (s.rd .HIF_QP_ASSIGN_FN [q]) = true ∧ s.ringLog2 e ≠ 0 ∧ s.ringLevel e ≠ 0 ∧
    s.recSize e ≤ dLEN j.d) ∧
    (∃ (q : Fin 1024) (n : Nat) (j : Job) (s : State), s.nextJob q = some (n, j) ∧ s.draining (dWord j.d 6) = true) ∧
    (∃ (q : Fin 1024) (n c e : Nat) (j : Job) (s : State), s.mayStart q n 0x11 j = true ∧ s.engChecks (maskEngines j.d)
    (s.rd .HIF_QP_ASSIGN_FN [q]) true = some (c, e) ∧ c ≠ 0) ∧
    (∃ (q : Fin 1024) (n : Nat) (f : Fin 8) (e : Fin 96) (j : Job) (s : State), s.mayStart q n 0x11 j = true ∧ s.rd
    .HIF_QP_ASSIGN_FN [q] = f.val ∧ maskEngines j.d = [e.val] ∧ s.up (engDie e) = true ∧ s.usable e f = true ∧ [0, 6, 7,
    8].contains (s.estate e) = true ∧ s.reaches (.ring f) .ENG_CTL [e] = true ∧ (s.engine e).out = [] ∧ (s.engine e).cq = []
    ∧ s.wx e + s.wy e + s.wz e ≤ 32 ∧ s.dest e ≠ 1 ∧ 3 + ceilDiv (s.strmRate e) 16 ≤ s.rd .PG_CFG_BUDGET [engDie e]) ∧
    (∃ (q : Fin 1024) (n c e : Nat) (j : Job) (s : State), s.mayStart q n 0x12 j = true ∧ s.engChecks (maskEngines j.d)
    (s.rd .HIF_QP_ASSIGN_FN [q]) false = some (c, e) ∧ c ≠ 0) ∧
    (∃ (q : Fin 1024) (n : Nat) (f : Fin 8) (e : Fin 96) (j : Job) (s : State), s.mayStart q n 0x12 j = true ∧ s.rd
    .HIF_QP_ASSIGN_FN [q] = f.val ∧ maskEngines j.d = [e.val] ∧ s.up (engDie e) = true ∧ s.usable e f = true ∧ 1 ≤ s.estate
    e ∧ s.estate e ≤ 5 ∧ s.reaches (.ring f) .ENG_CTL [e] = true ∧ j.d.testBit 288 = false) ∧
    (∃ (q : Fin 1024) (n : Nat) (j : Job) (s : State), s.mayStart q n 0x30 j = true ∧ bitsOf (dWord j.d 6) 4 3 = 0) ∧
    (∃ (q : Fin 1024) (n : Nat) (j : Job) (s : State), s.mayStart q n 0x30 j = true ∧ bitsOf (dWord j.d 6) 4 3 ≠ 0 ∧ s.up
    (dWord j.d 6 % 8) = false) ∧
    (∃ (q : Fin 1024) (n : Nat) (j : Job) (s : State), s.mayStart q n 0x30 j = true ∧ dWord j.d 6 = 0x10 ∧ s.up 0 = true ∧
    dWord j.d 8 = 0x11000C ∧ 1 ≤ dWord j.d 9 ∧ dWord j.d 9 < 512 ∧ s.bndState 0 = 4 ∧ s.laneBusy 0 = false ∧ s.rd
    .BOOT_STAT_STAGE [] ≠ 15 ∧ dNOCMP j.d = false) ∧
    (∃ (q : Fin 1024) (n : Nat) (j : Job) (s : State), s.mayStart q n 0x30 j = true ∧ dWord j.d 6 = 0x10 ∧ s.up 0 = true ∧
    dWord j.d 8 = 0x11000C ∧ 1 ≤ dWord j.d 9 ∧ dWord j.d 9 < 512 ∧ s.bndState 0 ≠ 4 ∧ s.rd .BOOT_STAT_STAGE [] ≠ 15) ∧
    (∃ (q : Fin 1024) (s : State), (s.nextJob q).all (fun x => dOPC x.2.d != 0x00) = true) ∧
    (∃ (q : Fin 1024) (s : State), (s.nextJob q).all (fun x => dOPC x.2.d != 0x50) = true) ∧
    (∃ (q : Fin 1024) (s : State), (s.nextJob q).all (fun x => dOPC x.2.d != 0x01) = true) ∧
    (∃ (q : Fin 1024) (s : State), (s.nextJob q).all (fun x => dOPC x.2.d != 0x02) = true) ∧
    (∃ (q : Fin 1024) (s : State), (s.nextJob q).all (fun x => dOPC x.2.d != 0x03) = true) ∧
    (∃ (q : Fin 1024) (s : State), (s.nextJob q).all (fun x => dOPC x.2.d != 0x10) = true) ∧
    (∃ (q : Fin 1024) (s : State), (s.nextJob q).all (fun x => dOPC x.2.d != 0x11) = true) ∧
    (∃ (q : Fin 1024) (s : State), (s.nextJob q).all (fun x => dOPC x.2.d != 0x12) = true) ∧
    (∃ (q : Fin 1024) (s : State), (s.nextJob q).all (fun x => dOPC x.2.d != 0x13) = true) ∧
    (∃ (q : Fin 1024) (s : State), (s.nextJob q).all (fun x => dOPC x.2.d != 0x30) = true) :=
  ⟨⟨7, 0, jobOf 0 0 [], qpOn 2 7 [jobOf 0 0 []] [], by decide +kernel⟩,
    ⟨7, jobOf 0x200 0 [], qpOn 2 7 [jobOf 0x200 0 []] [], by decide +kernel⟩,
    ⟨7, 0, jobOf 0x50 0 [], qpOn 2 7 [jobOf 0x50 0 []] [], by decide +kernel⟩,
    ⟨7, jobOf 0x250 0 [], qpOn 2 7 [jobOf 0x250 0 []] [], by decide +kernel⟩,
    ⟨7, 0, jobOf 1 0 [], qpOn 2 7 [jobOf 1 0 []] [], by decide +kernel⟩,
    ⟨7, 1, jobOf 1 128 [], qpOn 2 7 [{ jobOf 1 0 [] with st := 1 }, jobOf 1 128 []] [], by decide +kernel⟩,
    ⟨7, 0, jobOf 2 0 [], qpOn 2 7 [jobOf 2 0 []] [], by decide +kernel⟩,
    ⟨7, 0, jobOf 2 128 [], qpOn 2 7 [jobOf 2 128 []] [], by decide +kernel⟩,
    ⟨7, 0, jobOf 3 0 [], qpOn 2 7 [jobOf 3 0 []] [], by decide +kernel⟩,
    ⟨7, 0, jobOf 3 128 [], qpOn 2 7 [jobOf 3 128 []] [], by decide +kernel⟩,
    ⟨7, 0, jobOf 0x10 64 [(6, 5)], qpOn 2 7 [jobOf 0x10 64 [(6, 5)]] [], by decide +kernel⟩,
    ⟨7, 0, jobOf 0x10 64 [(6, 5)], qpOn 2 7 [jobOf 0x10 64 [(6, 5)]] [up 0], by decide +kernel⟩,
    ⟨7, 0, jobOf 0x10 64 [(6, 5)], qpOn 0 7 [jobOf 0x10 64 [(6, 5)]] [up 0], by decide +kernel⟩,
    ⟨7, 0, jobOf 0x10 0 [(6, 5)], qpOn 0 7 [jobOf 0x10 0 [(6, 5)]] [up 0], by decide +kernel⟩,
    ⟨7, 0, jobOf 0x13 128 [(6, 5)], qpOn 0 7 [jobOf 0x13 128 [(6, 5)]] [], by decide +kernel⟩,
    ⟨7, 0, jobOf 0x13 128 [(6, 5)], qpOn 1 7 [jobOf 0x13 128 [(6, 5)]] [up 0], by decide +kernel⟩,
    ⟨7, 0, jobOf 0x13 128 [(6, 5)], qpOn 0 7 [jobOf 0x13 128 [(6, 5)]] [up 0], by decide +kernel⟩,
    ⟨7, 0, 5, jobOf 0x13 12800 [(6, 5)], qpOn 0 7 [jobOf 0x13 12800 [(6, 5)]] [up 0, (.FC_RING_SIZE_LOG2, [5], 8),
    (.FC_RING_WR_COUNT, [5], 9), (.FC_RING_RD_COUNT, [5], 4)], by decide +kernel⟩,
    ⟨7, 1, jobOf 0x13 128 [(6, 5)], qpOn 0 7 [{ jobOf 0x13 128 [(6, 5)] with st := 1 }, jobOf 0x13 128 [(6, 5)]] [up 0],
    by decide +kernel⟩,
    ⟨7, 0, 7, 5, jobOf 0x11 0 [(6, 2 ^ 5)], qpOn 0 7 [jobOf 0x11 0 [(6, 2 ^ 5)]] [up 0, (.ENG_STATUS_STATE, [5], 3)],
    by decide +kernel⟩,
    ⟨7, 0, 0, 5, jobOf 0x11 0 [(6, 2 ^ 5)], qpOn 0 7 [jobOf 0x11 0 [(6, 2 ^ 5)]] [up 0], by decide +kernel⟩,
    ⟨7, 0, 2, 5, jobOf 0x12 0 [(6, 2 ^ 5)], qpOn 0 7 [jobOf 0x12 0 [(6, 2 ^ 5)]] [], by decide +kernel⟩,
    ⟨7, 0, 0, 5, jobOf 0x12 0 [(6, 2 ^ 5)], qpOn 0 7 [jobOf 0x12 0 [(6, 2 ^ 5)]] [up 0, (.ENG_STATUS_STATE, [5], 3)],
    by decide +kernel⟩,
    ⟨7, 0, jobOf 0x30 0 [], qpOn 2 7 [jobOf 0x30 0 []] [], by decide +kernel⟩,
    ⟨7, 0, jobOf 0x30 0 [(6, 0x13)], qpOn 2 7 [jobOf 0x30 0 [(6, 0x13)]] [], by decide +kernel⟩,
    ⟨7, 0, jobOf 0x30 0 [(6, 0x10), (8, 0x11000C), (9, 0x123)], qpOn 2 7 [jobOf 0x30 0 [(6, 0x10), (8, 0x11000C), (9,
    0x123)]] [up 0, (.CL_BND_STAT_STATE, [0], 4)], by decide +kernel⟩,
    ⟨7, 0, jobOf 0x30 0 [(6, 0x10), (8, 0x11000C), (9, 0x123)], qpOn 2 7 [jobOf 0x30 0 [(6, 0x10), (8, 0x11000C), (9,
    0x123)]] [up 0], by decide +kernel⟩,
    ⟨7, qpOn 2 7 [jobOf 0x40 0 []] [], by decide +kernel⟩,
    ⟨7, qpOn 2 7 [jobOf 0x40 0 []] [], by decide +kernel⟩,
    ⟨7, qpOn 2 7 [jobOf 0x40 0 []] [], by decide +kernel⟩,
    ⟨7, qpOn 2 7 [jobOf 0x40 0 []] [], by decide +kernel⟩,
    ⟨7, qpOn 2 7 [jobOf 0x40 0 []] [], by decide +kernel⟩,
    ⟨7, qpOn 2 7 [jobOf 0x40 0 []] [], by decide +kernel⟩,
    ⟨7, qpOn 2 7 [jobOf 0x40 0 []] [], by decide +kernel⟩,
    ⟨7, qpOn 2 7 [jobOf 0x40 0 []] [], by decide +kernel⟩,
    ⟨7, qpOn 2 7 [jobOf 0x40 0 []] [], by decide +kernel⟩,
    ⟨7, qpOn 2 7 [jobOf 0x40 0 []] [], by decide +kernel⟩⟩

theorem witness_RunningDescriptorsMoveTheirLines :
    (∃ (q : Fin 1024) (n : Fin 64) (x : BitVec 512) (a b : Fin 4) (j : Job) (s : State), (s.qp q).jobs[n.val]? = some j ∧
    j.st = 1 ∧ dOPC j.d = 1 ∧ j.n < j.lines ∧ s.on .HIF_FN_STAT_BME [s.rd .HIF_QP_ASSIGN_FN [q]] = true) ∧
    (∃ (q : Fin 1024) (n : Fin 64) (x : BitVec 512) (a b : Fin 4) (c : Bool) (j : Job) (s : State), (s.qp q).jobs[n.val]? =
    some j ∧ j.st = 1 ∧ [1, 2, 3, 0x10, 0x13].contains (dOPC j.d) = true ∧ j.n < j.lines ∧ s.on .HIF_FN_STAT_BME [s.rd
    .HIF_QP_ASSIGN_FN [q]] = true ∧ (s.moveLine (s.rd .HIF_QP_ASSIGN_FN [q]) j
    { data := x.toNat, rd := a, wr := b, fault := c }).1 ≠ 0) ∧
    (∃ (q : Fin 1024) (n : Fin 64) (x : BitVec 512) (a b : Fin 4) (c : Bool) (j : Job) (s : State), (s.qp q).jobs[n.val]? =
    some j ∧ j.st = 1 ∧ [1, 2, 3, 0x10, 0x13].contains (dOPC j.d) = true ∧ j.n + 1 < j.lines ∧ s.on .HIF_FN_STAT_BME [s.rd
    .HIF_QP_ASSIGN_FN [q]] = true ∧ (s.moveLine (s.rd .HIF_QP_ASSIGN_FN [q]) j
    { data := x.toNat, rd := a, wr := b, fault := c }).1 = 0) ∧
    (∃ (q : Fin 1024) (n : Fin 64) (x : BitVec 512) (a b : Fin 4) (c : Bool) (j : Job) (s : State), (s.qp q).jobs[n.val]? =
    some j ∧ j.st = 1 ∧ [1, 2, 3, 0x10, 0x13].contains (dOPC j.d) = true ∧ j.n + 1 = j.lines ∧ s.on .HIF_FN_STAT_BME [s.rd
    .HIF_QP_ASSIGN_FN [q]] = true ∧ dNOCMP j.d = false ∧ (s.moveLine (s.rd .HIF_QP_ASSIGN_FN [q]) j
    { data := x.toNat, rd := a, wr := b, fault := c }).1 = 0) ∧
    (∃ (q : Fin 1024) (n : Fin 64) (x : BitVec 512) (a b : Fin 4) (c : Bool) (j : Job) (s : State), (s.qp q).jobs[n.val]? =
    some j ∧ j.st = 1 ∧ dOPC j.d = 0x13 ∧ j.n + 1 = j.lines ∧ s.on .HIF_FN_STAT_BME [s.rd .HIF_QP_ASSIGN_FN [q]] = true ∧
    s.rd .FC_RING_RD_COUNT [dWord j.d 6] + j.k < 2 ^ 32 ∧ (s.moveLine (s.rd .HIF_QP_ASSIGN_FN [q]) j
    { data := x.toNat, rd := a, wr := b, fault := c }).1 = 0) ∧
    (∃ (q : Fin 1024) (n : Fin 64) (x : BitVec 512) (a b : Fin 4) (e o : Nat) (j : Job) (s : State), (s.qp q).jobs[n.val]? =
    some j ∧ j.st = 1 ∧ dOPC j.d = 2 ∧ j.n < j.lines ∧ s.on .HIF_FN_STAT_BME [s.rd .HIF_QP_ASSIGN_FN [q]] = true ∧ placeOf
    (dSRC j.d + 64 * j.n) = .window e o ∧ s.up (engDie e) = true ∧ s.usable e (s.rd .HIF_QP_ASSIGN_FN [q]) = true ∧
    s.mapStatus (ringMst (s.rd .HIF_QP_ASSIGN_FN [q])) (dSRC j.d + 64 * j.n) = 0 ∧ s.on .FC_STATUS_BM_BUSY [e] = false) ∧
    (∃ (q : Fin 1024) (n : Fin 64) (x : BitVec 512) (a b : Fin 4) (c : Bool) (s : State), s.on .HIF_FN_STAT_BME [s.rd
    .HIF_QP_ASSIGN_FN [q]] = false) ∧
    (∃ (f : Fin 8) (off : BitVec 36) (k : Fin 4097) (g lo m : Nat) (s : State), linePieces (s.bar4 f off.toNat) k = [(g, lo,
    m)] ∧ (s.gRead (bridgeMst (portOf f) f) g (0, 0)).2.1 = 0) ∧
    (∃ (f : Fin 8) (off : BitVec 36) (k : Fin 4097) (g lo m : Nat) (s : State), linePieces (s.bar4 f off.toNat) k = [(g, lo,
    m)] ∧ s.mapStatus (bridgeMst (portOf f) f) g ≠ 0) ∧
    (∃ (f : Fin 8) (off : BitVec 36) (bs : List (BitVec 8)) (s : State), s.on .HIF_FN_STAT_FLR_BUSY [f] = true) ∧
    (∃ (f : Fin 8) (off : BitVec 36) (bs : List (BitVec 8)) (g lo m : Nat) (s : State), s.on .HIF_FN_STAT_FLR_BUSY [f] =
    false ∧ linePieces (s.bar4 f off.toNat) bs.length = [(g, lo, m)] ∧ s.mapStatus (bridgeMst (portOf f) f) g ≠ 0) ∧
    (∃ (f : Fin 8) (off : BitVec 36) (bs : List (BitVec 8)) (g : Nat) (s : State), s.on .HIF_FN_STAT_FLR_BUSY [f] = false ∧
    linePieces (s.bar4 f off.toNat) bs.length = [(g, 0, 64)]) ∧
    (∃ (f : Fin 8) (off : BitVec 36) (bs : List (BitVec 8)) (g lo m : Nat) (s : State), s.on .HIF_FN_STAT_FLR_BUSY [f] =
    false ∧ linePieces (s.bar4 f off.toNat) bs.length = [(g, lo, m)] ∧ m ≠ 64 ∧ (s.gRead (bridgeMst (portOf f) f) g (0,
    0)).2.1 = 0) :=
  ⟨⟨7, 0, 5, 0, 0, { jobOf 1 256 [] with st := 1, k := 4, n := 2 }, qpOn 2 7
    [{ jobOf 1 256 [] with st := 1, k := 4, n := 2 }] [], by decide +kernel⟩,
    ⟨7, 0, 5, 0, 0, false, { jobOf 2 256 [(3, 0x100)] with st := 1, k := 4, n := 2 }, qpOn 2 7
    [{ jobOf 2 256 [(3, 0x100)] with st := 1, k := 4, n := 2 }] [], by decide +kernel⟩,
    ⟨7, 0, 5, 0, 0, false, { jobOf 0x10 256 [(6, 5)] with st := 1, k := 4, n := 2 }, qpOn 0 7
    [{ jobOf 0x10 256 [(6, 5)] with st := 1, k := 4, n := 2 }] [up 0, (.PWR_DIE_STAT_PSTATE, [0], 0)], by decide +kernel⟩,
    ⟨7, 0, 5, 0, 0, false, { jobOf 0x10 256 [(6, 5)] with st := 1, k := 4, n := 3 }, qpOn 0 7
    [{ jobOf 0x10 256 [(6, 5)] with st := 1, k := 4, n := 3 }] [up 0, (.PWR_DIE_STAT_PSTATE, [0], 0)], by decide +kernel⟩,
    ⟨7, 0, 5, 0, 0, false, { jobOf 0x13 256 [(6, 5)] with st := 1, k := 2, size := 128, n := 3 }, qpOn 0 7
    [{ jobOf 0x13 256 [(6, 5)] with st := 1, k := 2, size := 128, n := 3 }] [up 0, (.PWR_DIE_STAT_PSTATE, [0], 0),
    (.HBM_CTL_EN, [0], 1), (.HBM_STAT_STATE, [0], 2), (.HBM_QOS_TARGET_TARGET, [0, 0], 0), (.HBM_QOS_TARGET_TARGET, [0, 1],
    0), (.FC_RING_SIZE_LOG2, [5], 8)], by decide +kernel⟩,
    ⟨7, 0, 5, 0, 0, 5, 0x80, { jobOf 2 256 [(2, 0x500000), (3, 0x180)] with st := 1, k := 4, n := 2 }, qpOn 0 7
    [{ jobOf 2 256 [(2, 0x500000), (3, 0x180)] with st := 1, k := 4, n := 2 }] [up 0, (.PWR_DIE_STAT_PSTATE, [0], 0)],
    by decide +kernel⟩,
    ⟨7, 0, 5, 0, 0, false, qpOn 0 7 [{ jobOf 2 256 [] with st := 1, k := 4 }] [(.HIF_FN_STAT_BME, [0], 0)],
    by decide +kernel⟩,
    ⟨0, 5, 7, 0, 5, 7,
    { mk [up 0, (.PWR_DIE_STAT_PSTATE, [0], 0), (.HBM_CTL_EN, [0], 1), (.HBM_STAT_STATE, [0], 2), (.HBM_QOS_TARGET_TARGET, [0, 0], 0)] with hbm := [(8, 0x55)] },
    by decide +kernel⟩,
    ⟨0, 0x500085, 7, 0x500080 + 0x90 * 2 ^ 30, 5, 7, mk [up 0, (.HIF_BAR4_GIB, [0], 0x90)], by decide +kernel⟩,
    ⟨0, 0, [1, 2], mk [(.HIF_FN_STAT_FLR_BUSY, [0], 1)], by decide +kernel⟩,
    ⟨0, 0x500085, [1, 2], 0x500080 + 0x90 * 2 ^ 30, 5, 2, mk [up 0, (.HIF_BAR4_GIB, [0], 0x90)], by decide +kernel⟩,
    ⟨0, 0, List.replicate 64 7, 0, mk [up 0, (.PWR_DIE_STAT_PSTATE, [0], 0), (.HBM_CTL_EN, [0], 1), (.HBM_STAT_STATE, [0],
    2), (.HBM_QOS_TARGET_TARGET, [0, 0], 0)], by decide +kernel⟩,
    ⟨0, 5, [7, 8], 0, 5, 2,
    { mk [up 0, (.PWR_DIE_STAT_PSTATE, [0], 0), (.HBM_CTL_EN, [0], 1), (.HBM_STAT_STATE, [0], 2), (.HBM_QOS_TARGET_TARGET, [0, 0], 0)] with hbm := [(8, 0x55)] },
    by decide +kernel⟩⟩

theorem witness_MailboxExchangesCarryOneRequestAndOneReply :
    (∃ (q : Fin 1024) (n : Nat) (r : Option (List (BitVec 8))) (j : Job) (s : State), s.mayStart q n 0x60 j = true ∧ dLEN
    j.d = 0) ∧
    (∃ (q : Fin 1024) (n : Nat) (j : Job) (s : State), s.mayStart q n 0x60 j = true ∧ dLEN j.d ≠ 0) ∧
    (∃ (q : Fin 1024) (n : Nat) (r : List (BitVec 8)) (j : Job) (s : State), s.mayStart q n 0x60 j = true ∧ dLEN j.d ≠ 0 ∧ 8
    ≤ (r.take (dLEN j.d)).length ∧ knownCode (mailCode (r.take (dLEN j.d))) = true) ∧
    (∃ (q : Fin 1024) (r : List (BitVec 8)) (j : Job) (s : State), s.mayStart q 0 0x60 j = true ∧ (s.qp q).jobs = [j] ∧ dLEN
    j.d ≠ 0 ∧ (r.take (dLEN j.d)).length < 8 ∧ 8 ≤ dWord j.d 6 ∧ dNOCMP j.d = false) ∧
    (∃ (q : Fin 1024) (r : List (BitVec 8)) (j : Job) (s : State), s.mayStart q 0 0x60 j = true ∧ (s.qp q).jobs = [j] ∧ dLEN
    j.d ≠ 0 ∧ 8 ≤ (r.take (dLEN j.d)).length ∧ knownCode (mailCode (r.take (dLEN j.d))) = false ∧ 8 ≤ dWord j.d 6 ∧ dNOCMP
    j.d = false) ∧
    (∃ (n : Fin 2048) (m : Mail) (k : Nat) (j : Job) (s : State), s.mail[n.val]? = some m ∧ m.src < 8 ∧ s.jobAt m.q m.idx =
    some k ∧ (s.qp m.q).jobs[k]? = some j) ∧
    (∃ (n : Fin 2048) (m : Mail) (s : State), s.mail[n.val]? = some m ∧ 8 ≤ m.src) :=
  ⟨⟨7, 0, none, jobOf 0x60 0 [(6, 64)], qpOn 2 7 [jobOf 0x60 0 [(6, 64)]] [], by decide +kernel⟩,
    ⟨7, 0, jobOf 0x60 16 [(6, 64)], qpOn 2 7 [jobOf 0x60 16 [(6, 64)]] [], by decide +kernel⟩,
    ⟨7, 0, [1, 1, 0, 0, 0, 0, 0, 0, 9], jobOf 0x60 16 [(6, 64)], qpOn 2 7 [jobOf 0x60 16 [(6, 64)]] [], by decide +kernel⟩,
    ⟨7, [1, 1, 0, 0, 0, 0, 0, 0, 9], jobOf 0x60 7 [(6, 64)], qpOn 2 7 [jobOf 0x60 7 [(6, 64)]] [], by decide +kernel⟩,
    ⟨7, [1, 9, 0, 0, 0, 0, 0, 0, 9], jobOf 0x60 9 [(6, 64), (4, 4096)], qpOn 2 7 [jobOf 0x60 9 [(6, 64), (4, 4096)]] [],
    by decide +kernel⟩,
    ⟨1, { src := 2, q := 7, idx := 3, req := [], limit := 9, dst := 0, t := 5 }, 0,
    { jobOf 0x60 16 [(6, 64)] with st := 1 },
    { qpOn 2 7 [{ jobOf 0x60 16 [(6, 64)] with st := 1 }] [] with mail := [{ src := 3, q := 8, idx := 3, req := [], limit := 9, dst := 0, t := 5 }, { src := 2, q := 7, idx := 3, req := [], limit := 9, dst := 0, t := 5 }] },
    by decide +kernel⟩,
    ⟨0, { src := 11, req := [], limit := 9, dst := 0, t := 5 },
    { mk [] with mail := [{ src := 11, req := [], limit := 9, dst := 0, t := 5 }] }, by decide +kernel⟩⟩

theorem witness_ConfigurationLoadsRunOneAtATime :
    (∃ (q : Fin 1024) (n : Nat) (h : Option (BitVec 2048)) (u : Bool) (j : Job) (r : List (Nat × Nat)) (s : State),
    s.mayStart q n 0x20 j = true ∧ s.cfgLoad.phase = 0 ∧ s.auto = none ∧ s.cfgWait = (q.val, j.idx) :: r ∧ (s.rd
    .HIF_CFG_FN_MASK []).testBit (s.rd .HIF_QP_ASSIGN_FN [q]) = false) ∧
    (∃ (q : Fin 1024) (h : Option (BitVec 2048)) (u : Bool) (j : Job) (r : List (Nat × Nat)) (s : State), s.mayStart q 0
    0x20 j = true ∧ (s.qp q).jobs = [j] ∧ s.cfgLoad.phase = 0 ∧ s.auto = none ∧ s.cfgWait = (q.val, j.idx) :: r ∧ (s.rd
    .HIF_CFG_FN_MASK []).testBit (s.rd .HIF_QP_ASSIGN_FN [q]) = true ∧ dLEN j.d = 0) ∧
    (∃ (q : Fin 1024) (u : Bool) (j : Job) (r : List (Nat × Nat)) (s : State), s.mayStart q 0 0x20 j = true ∧ (s.qp q).jobs
    = [j] ∧ s.cfgLoad.phase = 0 ∧ s.auto = none ∧ s.cfgWait = (q.val, j.idx) :: r ∧ (s.rd .HIF_CFG_FN_MASK []).testBit (s.rd
    .HIF_QP_ASSIGN_FN [q]) = true ∧ dLEN j.d ≠ 0) ∧
    (∃ (q : Fin 1024) (n : Nat) (h : BitVec 2048) (u : Bool) (j : Job) (r : List (Nat × Nat)) (s : State), s.mayStart q n
    0x20 j = true ∧ s.cfgLoad.phase = 0 ∧ s.auto = none ∧ s.cfgWait = (q.val, j.idx) :: r ∧ (s.rd .HIF_CFG_FN_MASK
    []).testBit (s.rd .HIF_QP_ASSIGN_FN [q]) = true ∧ 256 ≤ dLEN j.d ∧ s.cfgHeaderCheck h.toNat (dLEN j.d) u = 0 ∧ hFRAMES
    h.toNat ≠ 0 ∧ hEncrypted h.toNat = false ∧ (hDieList h.toNat).all (fun d => s.up d && !s.migrating d) = true) ∧
    (∃ (x : BitVec 8256) (s : State), s.cfgLoad.phase = 3 ∧ s.cfgLoad.sent < hFRAMES s.cfgLoad.hdr ∧ s.cfgLoad.auto = false
    ∧ (hDIES s.cfgLoad.hdr).testBit (farDIE (recFAR x.toNat)) = true ∧ (s.cfgLoad.buf.filter (fun y => y.die = farDIE
    (recFAR x.toNat))).length < 64) ∧
    (∃ (s : State), s.cfgLoad.phase = 3 ∧ s.cfgLoad.sent < hFRAMES s.cfgLoad.hdr ∧ s.cfgLoad.auto = false) ∧
    (∃ (d : Fin 8) (fails : Fin 5) (items : List CfgItem) (x : CfgRec) (r : List CfgRec) (s : State), s.cfgLoad.phase = 3 ∧
    s.up d = true ∧ s.cfgLoad.buf = x :: r ∧ x.die = d.val ∧ s.frameCause d x.rec_ items = 0 ∧ fails.val < 4 ∧ recData
    x.rec_ ≠ 0) ∧
    (∃ (d : Fin 8) (fails : Fin 5) (items : List CfgItem) (x : CfgRec) (r : List CfgRec) (s : State), s.cfgLoad.phase = 3 ∧
    s.up d = true ∧ s.cfgLoad.buf = x :: r ∧ x.die = d.val ∧ s.frameCause d x.rec_ items ≠ 0 ∧ s.rd .CFG_ERR_VALID [d] = 0) ∧
    (∃ (d : Fin 8) (items : List CfgItem) (x : CfgRec) (r : List CfgRec) (s : State), s.cfgLoad.phase = 3 ∧ s.up d = true ∧
    s.cfgLoad.buf = x :: r ∧ x.die = d.val ∧ s.frameCause d x.rec_ items = 0 ∧ farKIND (recFAR x.rec_) ≠ 0 ∧ s.rd
    .CFG_ERR_VALID [d] = 0) ∧
    (∃ (g : Bool) (s : State), s.cfgLoad.phase = 3 ∧ s.cfgLoad.done = hFRAMES s.cfgLoad.hdr ∧ hKEY s.cfgLoad.hdr ≠ 0xFF) ∧
    (∃ (d : Fin 8) (k : Fin 40) (s : State), s.cfgLoad.phase = 3 ∧ s.cfgLoad.done = hFRAMES s.cfgLoad.hdr ∧
    s.cfgLoad.release = false ∧ (hDieList s.cfgLoad.hdr).all (fun n => (hSecList s.cfgLoad.hdr n).all (fun i => s.rd
    .SEC_STATUS_STATE [n, i] != 5)) = true ∧ s.up d = true ∧ s.cfgNamed d k = true) ∧
    (∃ (a b : Nat) (d : Fin 8) (k : Fin 40) (s : State), s.cfgLoad.phase = 4 ∧ s.up d = true ∧ s.cfgNamed d k = true ∧ s.rd
    .SEC_STATUS_STATE [d, k] = 2 ∧ (List.range 8).all (fun g => (s.gov g).queue.isEmpty) = true ∧ (s.gov ((hDieList
    s.cfgLoad.hdr).getLastD 0)).ready.any (·.is 4 cfgWho) = true ∧ (hDieList s.cfgLoad.hdr).all (fun n => (hSecList
    s.cfgLoad.hdr n).all fun i => s.rd .SEC_STATUS_STATE [n, i] != 2 || (s.treesOf n i).isEmpty || s.edgeOk n i b) = true) :=
  ⟨⟨7, 0, none, false, jobOf 0x20 1288 [], [],
    { qpOn 2 7 [jobOf 0x20 1288 []] [(.HIF_CFG_FN_MASK, [], 0xFB)] with cfgWait := [(7, 3)] }, by decide +kernel⟩,
    ⟨7, none, false, jobOf 0x20 0 [], [],
    { qpOn 2 7 [jobOf 0x20 0 []] [(.HIF_CFG_FN_MASK, [], 4)] with cfgWait := [(7, 3)] }, by decide +kernel⟩,
    ⟨7, false, jobOf 0x20 1288 [], [],
    { qpOn 2 7 [jobOf 0x20 1288 []] [(.HIF_CFG_FN_MASK, [], 4)] with cfgWait := [(7, 3)] }, by decide +kernel⟩,
    ⟨7, 0, BitVec.ofNat 2048 imgHdr, false, jobOf 0x20 1288 [], [],
    { qpOn 2 7 [jobOf 0x20 1288 []] [(.HIF_CFG_FN_MASK, [], 4), up 1, (.LS_STAT_LIFECYCLE, [], 1)] with cfgWait := [(7, 3)] },
    by decide +kernel⟩,
    ⟨0x1140000, { mk [up 1] with cfgLoad := { phase := 3, hdr := imgHdr } }, by decide +kernel⟩,
    ⟨{ mk [up 1] with cfgLoad := { phase := 3, hdr := imgHdr } }, by decide +kernel⟩,
    ⟨1, 3, [], { die := 1, rec_ := 0x1140000 + 9 * 2 ^ 32 + crc32 9 8192 * 2 ^ 8224 }, [],
    { mk [up 1, (.SEC_STATUS_STATE, [1, 5], 1)] with cfgLoad := { phase := 3, hdr := imgHdr, sent := 1, buf := [{ die := 1, rec_ := 0x1140000 + 9 * 2 ^ 32 + crc32 9 8192 * 2 ^ 8224 }] } },
    by decide +kernel⟩,
    ⟨1, 3, [], { die := 1, rec_ := 0x1140000 + 9 * 2 ^ 32 }, [],
    { mk [up 1, (.SEC_STATUS_STATE, [1, 5], 1)] with cfgLoad := { phase := 3, hdr := imgHdr, sent := 1, buf := [{ die := 1, rec_ := 0x1140000 + 9 * 2 ^ 32 }] } },
    by decide +kernel⟩,
    ⟨1, [], { die := 1, rec_ := 0x1148000 + 9 * 2 ^ 32 + crc32 9 8192 * 2 ^ 8224 }, [],
    { mk [up 1, (.SEC_STATUS_STATE, [1, 5], 1)] with cfgLoad := { phase := 3, hdr := imgHdr, sent := 1, buf := [{ die := 1, rec_ := 0x1148000 + 9 * 2 ^ 32 + crc32 9 8192 * 2 ^ 8224 }] } },
    by decide +kernel⟩,
    ⟨true, { mk [up 1] with cfgLoad := { phase := 3, hdr := imgHdr - 0xFF * 2 ^ 576, sent := 1, done := 1 } },
    by decide +kernel⟩,
    ⟨1, 5,
    { mk [up 1, (.SEC_STATUS_STATE, [1, 5], 1)] with cfgLoad := { phase := 3, hdr := imgHdr, sent := 1, done := 1 } },
    by decide +kernel⟩,
    ⟨4, 5, 1, 5, granted
    ({ mk [up 1, (.SEC_STATUS_STATE, [1, 5], 2), (.SEC_STATUS_PERMIT_WAIT, [1, 5], 1)] with cfgLoad := { phase := 4, release := true, hdr := imgHdr, sent := 1, done := 1 } })
    1 4 cfgWho, by decide +kernel⟩⟩

theorem witness_TimeStepsAreCheckedQueuedAndApplied :
    (∃ (w : Writer) (force : Bool) (s : State), s.reaches w .SX_STEP_CMD [] = true ∧ s.sxWriter w = true ∧ s.on
    .SX_STEP_CMD_BUSY [] = false ∧ s.sxq = [] ∧ s.sxCheck
    { set_ := false, val := s.sxStepVal false, force := force, src := if w = .binnacle then 2 else 0 } = 0) ∧
    (∃ (w : Writer) (force : Bool) (s : State), s.reaches w .SX_STEP_CMD [] = true ∧ s.sxWriter w = true ∧ s.on
    .SX_STEP_CMD_BUSY [] = false ∧ s.sxq = [] ∧ s.sxCheck
    { set_ := true, val := s.sxStepVal true, force := force, src := if w = .binnacle then 2 else 0 } = 0) ∧
    (∃ (w : Writer) (force : Bool) (s : State), s.reaches w .SX_STEP_CMD [] = true ∧ s.sxWriter w = true ∧ s.on
    .SX_STEP_CMD_BUSY [] = false ∧ s.sxq = [] ∧ s.sxCheck
    { set_ := false, val := s.sxStepVal false, force := force, src := if w = .binnacle then 2 else 0 } ≠ 0) ∧
    (∃ (w : Writer) (force : Bool) (s : State), s.reaches w .SX_STEP_CMD [] = true ∧ s.on .SX_STEP_CMD_BUSY [] = true) ∧
    (∃ (r : SxReq) (u v : Nat) (s : State), s.sxq = [r] ∧ r.t = some u ∧ r.set_ = true ∧ r.val = v ∧ s.clocksUp = true) ∧
    (∃ (r : SxReq) (u : Nat) (s : State), s.sxq = [r] ∧ r.t = some u ∧ r.set_ = false ∧ s.clocksUp = true) ∧
    (∃ (r : SxReq) (u k : Nat) (j : Job) (s : State), s.sxq = [r] ∧ r.t = some u ∧ r.src = 1 ∧ s.jobAt r.q r.idx = some k ∧
    (s.qp r.q).jobs[k]? = some j ∧ dNOCMP j.d = false) ∧
    (∃ (w : Writer) (v : BitVec 32) (s : State), s.reaches w .SX_ADJ [] = true ∧ s.sxWriter w = true ∧ s.adjClosed w =
    false) ∧
    (∃ (w : Writer) (v : BitVec 32) (s : State), s.reaches w .SX_ADJ [] = true ∧ s.adjClosed w = true) ∧
    (∃ (w : Writer) (v : BitVec 32) (s : State), s.reaches w .SX_CTL [] = true ∧ s.sxWriter w = true ∧ s.rd .SX_CTL_MODE []
    = 0) ∧
    (∃ (q : Fin 1024) (n : Nat) (j : Job) (s : State), s.mayStart q n 0x40 j = true ∧ bitsOf (dWord j.d 6) 0 4 = 1 ∧ dNOCMP
    j.d = false) ∧
    (∃ (q : Fin 1024) (n : Nat) (j : Job) (s : State), s.mayStart q n 0x40 j = true ∧ bitsOf (dWord j.d 6) 0 4 = 2 ∧ isAdmin
    (s.rd .HIF_QP_ASSIGN_FN [q]) = false) ∧
    (∃ (q : Fin 1024) (n : Nat) (j : Job) (s : State), s.mayStart q n 0x40 j = true ∧ bitsOf (dWord j.d 6) 0 4 = 2 ∧ isAdmin
    (s.rd .HIF_QP_ASSIGN_FN [q]) = true ∧ s.sxq = [] ∧ s.sxCheck
    { set_ := false, val := sint64 (bitsOf j.d 256 64) * 2 ^ 16 + bitsOf j.d 320 16, force := (dWord j.d 6).testBit 8, src := 1, q := q, idx := j.idx }
    = 0) ∧
    (∃ (q : Fin 1024) (n : Nat) (j : Job) (s : State), s.mayStart q n 0x40 j = true ∧ bitsOf (dWord j.d 6) 0 4 = 3 ∧ isAdmin
    (s.rd .HIF_QP_ASSIGN_FN [q]) = true ∧ s.adjClosed .other = false ∧ dNOCMP j.d = false) ∧
    (∃ (q : Fin 1024) (n : Nat) (j : Job) (s : State), s.mayStart q n 0x40 j = true ∧ bitsOf (dWord j.d 6) 0 4 = 3 ∧ isAdmin
    (s.rd .HIF_QP_ASSIGN_FN [q]) = true ∧ s.adjClosed .other = true) :=
  ⟨⟨.helm 0, false, mk [(.SX_STEP_NS_LO_NS, [], 500)], by decide +kernel⟩,
    ⟨.binnacle, true, mk [(.SX_STEP_NS_LO_NS, [], 500)], by decide +kernel⟩,
    ⟨.fn 0, false, mk [(.SX_STEP_NS_LO_NS, [], 0xFFFFFFFF), (.SX_STEP_NS_HI_NS, [], 0xFFFFFFFF)], by decide +kernel⟩,
    ⟨.fn 0, false, mk [(.SX_STEP_CMD_BUSY, [], 1)], by decide +kernel⟩,
    ⟨{ set_ := true, val := 700, force := false, src := 0, t := some 90 }, 90, 700,
    { mk [(.CL_BND_STAT_GRID, [4], 1)] with clocksUp := true, sxq := [{ set_ := true, val := 700, force := false, src := 0, t := some 90 }] },
    by decide +kernel⟩,
    ⟨{ set_ := false, val := -700, force := false, src := 0, t := some 90 }, 90,
    { mk [] with clocksUp := true, local_ := 10 ^ 18, sxq := [{ set_ := false, val := -700, force := false, src := 0, t := some 90 }] },
    by decide +kernel⟩,
    ⟨{ set_ := false, val := -700, force := false, src := 1, q := 7, idx := 3, t := some 90 }, 90, 0,
    { jobOf 0x40 0 [(6, 2)] with st := 1 },
    { qpOn 0 7 [{ jobOf 0x40 0 [(6, 2)] with st := 1 }] [] with clocksUp := true, local_ := 10 ^ 18, sxq := [{ set_ := false, val := -700, force := false, src := 1, q := 7, idx := 3, t := some 90 }] },
    by decide +kernel⟩,
    ⟨.helm 1, 0x80000001, mk [], by decide +kernel⟩,
    ⟨.helm 1, 0x80000001, mk [(.SX_PORT_STAT_PSTATE, [1], 9)], by decide +kernel⟩,
    ⟨.fn 0, 0x857F, mk [], by decide +kernel⟩,
    ⟨7, 0, jobOf 0x40 16 [(6, 1)], { qpOn 2 7 [jobOf 0x40 16 [(6, 1)]] [] with local_ := 12345678901234567890123456 },
    by decide +kernel⟩,
    ⟨7, 0, jobOf 0x40 0 [(6, 2)], qpOn 2 7 [jobOf 0x40 0 [(6, 2)]] [], by decide +kernel⟩,
    ⟨7, 0, jobOf 0x40 0 [(6, 0x102), (8, 500), (10, 9)], qpOn 0 7 [jobOf 0x40 0 [(6, 0x102), (8, 500), (10, 9)]] [],
    by decide +kernel⟩,
    ⟨7, 0, jobOf 0x40 0 [(6, 3), (8, 500)], qpOn 4 7 [jobOf 0x40 0 [(6, 3), (8, 500)]] [], by decide +kernel⟩,
    ⟨7, 0, jobOf 0x40 0 [(6, 3), (8, 500)], qpOn 4 7 [jobOf 0x40 0 [(6, 3), (8, 500)]] [(.SX_PORT_STAT_PSTATE, [1], 9)],
    by decide +kernel⟩⟩

theorem witness_PtpStampsResidencesAndThePpsPin :
    (∃ (p : Fin 2) (ty : Fin 4) (q : BitVec 16) (s : State), s.sxRuns p = true) ∧
    (∃ (p : Fin 2) (ty : Fin 4) (q : BitVec 16) (s : State), s.sxRuns p = true ∧ (s.on .SX_PORT_CFG_TWO_STEP [p] = true ∨ ty
    = 1 ∨ ty = 2) ∧ (s.txQueue p).length < 32) ∧
    (∃ (p : Fin 2) (ty : Fin 4) (q : BitVec 16) (s : State), s.sxRuns p = true ∧ (s.on .SX_PORT_CFG_TWO_STEP [p] = true ∨ ty
    = 1 ∨ ty = 2) ∧ 32 ≤ (s.txQueue p).length) ∧
    (∃ (p : Fin 2) (q : BitVec 16) (s : State), s.sxRuns p = true ∧ s.on .SX_PORT_CFG_TWO_STEP [p] = false) ∧
    (∃ (p : Fin 2) (q : BitVec 16) (i : Nat) (s : State), s.sxRuns p = true ∧ s.on .SX_PORT_CFG_TWO_STEP [p] = false ∧ smGet
    s.rxStamp [p.val, 2, q.toNat] none = some i) ∧
    (∃ (w : Writer) (p : Fin 2) (s : State), s.reaches w .SX_TXQ_CTL [p] = true ∧ s.sxWriter w = true ∧ (s.rd .SX_CTL_MODE
    [] = 0 ∨ w = .binnacle)) ∧
    (∃ (w : Writer) (p : Fin 2) (s : State), s.reaches w .SX_TXQ_CTL [p] = true ∧ s.rd .SX_CTL_MODE [] ≠ 0 ∧ w ≠ .binnacle) ∧
    (∃ (p : Fin 2) (ty : Fin 4) (idt : BitVec 80) (q : BitVec 16) (c : BitVec 64) (r : Nat) (two : Bool) (s : State), s.rd
    .SX_CTL_MODE [] = 3 ∧ s.sxRuns p = true ∧ s.sxRuns (1 - p.val) = true ∧ s.on .SX_PORT_CFG_TWO_STEP [1 - p.val] = false ∧
    ty ≠ 0) ∧
    (∃ (p : Fin 2) (ty : Fin 4) (idt : BitVec 80) (q : BitVec 16) (c : BitVec 64) (r : Nat) (two : Bool) (s : State), s.rd
    .SX_CTL_MODE [] = 3 ∧ s.sxRuns p = true ∧ s.sxRuns (1 - p.val) = true ∧ s.on .SX_PORT_CFG_TWO_STEP [1 - p.val] = true ∧
    ty ≠ 0) ∧
    (∃ (p : Fin 2) (idt : BitVec 80) (q : BitVec 16) (c : BitVec 64) (n : Nat) (two : Bool) (x : Residence) (s : State),
    s.rd .SX_CTL_MODE [] = 3 ∧ s.sxRuns p = true ∧ s.sxRuns (1 - p.val) = true ∧ s.residences = [x] ∧ s.now ≤ x.t +
    1000000000 ∧ x.type = 0 ∧ x.ident = idt.toNat ∧ x.seq = q.toNat) ∧
    (∃ (x : Residence) (r : List Residence) (s : State), s.residences = x :: r) ∧
    (∃ (o m : BitVec 64) (q : BitVec 16) (r : BitVec 32) (s : State), s.rd .SX_CTL_MODE [] ≠ 0 ∧ s.on .SX_CTL_SERVO [] =
    true) ∧
    (∃ (o m : BitVec 64) (q : BitVec 16) (r : BitVec 32) (s : State), s.rd .SX_CTL_MODE [] ≠ 0 ∧ s.on .SX_CTL_SERVO [] =
    false ∧ s.on .SX_STAT_VALID [] = true) ∧
    (∃ (p : Fin 2) (x : Fin 10) (link : Bool) (o : BitVec 64) (s : State), s.on .SX_PORT_CFG_EN [p] = true ∧ x ≠ 8) ∧
    (∃ (s : State), s.timeRuns = true ∧ s.rd .SX_PPS_WIDTH [] ≠ 0 ∧ s.tap.scan = false) ∧
    (∃ (u : Nat) (s : State), s.ppsEnd = some u ∧ s.tap.scan = false) :=
  ⟨⟨1, 2, 77,
    { mk [(.SX_PORT_CFG_EN, [1], 1), (.SX_CTL_MODE, [], 2), (.SX_PORT_IASYM_ASYM, [1], 40)] with local_ := 10 ^ 20 },
    by decide +kernel⟩,
    ⟨1, 3, 77,
    { mk [(.SX_PORT_CFG_EN, [1], 1), (.SX_CTL_MODE, [], 2), (.SX_PORT_CFG_TWO_STEP, [1], 1), (.SX_PORT_EASYM_ASYM, [1], 40)] with local_ := 10 ^ 20 },
    by decide +kernel⟩,
    ⟨1, 3, 77,
    { mk [(.SX_PORT_CFG_EN, [1], 1), (.SX_CTL_MODE, [], 2), (.SX_PORT_CFG_TWO_STEP, [1], 1)] with txq := [([1], List.replicate 32 { seq := 1, type := 0, stamp := 5 })] },
    by decide +kernel⟩,
    ⟨1, 77,
    { mk [(.SX_PORT_CFG_EN, [1], 1), (.SX_CTL_MODE, [], 2), (.SX_PORT_CFG_TWO_STEP, [1], 0)] with local_ := 10 ^ 20 },
    by decide +kernel⟩,
    ⟨1, 77, 90,
    { mk [(.SX_PORT_CFG_EN, [1], 1), (.SX_CTL_MODE, [], 2), (.SX_PORT_CFG_TWO_STEP, [1], 0)] with local_ := 10 ^ 20, rxStamp := [([1, 2, 77], some 90)] },
    by decide +kernel⟩,
    ⟨.fn 0, 1, { mk [] with txq := [([1], List.replicate 32 { seq := 1, type := 0, stamp := 5 })] }, by decide +kernel⟩,
    ⟨.fn 0, 1, { mk [(.SX_CTL_MODE, [], 1)] with txq := [([1], List.replicate 32 { seq := 1, type := 0, stamp := 5 })] },
    by decide +kernel⟩,
    ⟨1, 1, 5, 6, 2 ^ 64 - 4, 9, false, mk [(.SX_CTL_MODE, [], 3), (.SX_PORT_CFG_EN, [0], 1), (.SX_PORT_CFG_EN, [1], 1),
    (.SX_PORT_CFG_TWO_STEP, [0], 0)], by decide +kernel⟩,
    ⟨1, 1, 5, 6, 2 ^ 64 - 4, 9, false, mk [(.SX_CTL_MODE, [], 3), (.SX_PORT_CFG_EN, [0], 1), (.SX_PORT_CFG_EN, [1], 1),
    (.SX_PORT_CFG_TWO_STEP, [0], 1)], by decide +kernel⟩,
    ⟨1, 5, 6, 2 ^ 64 - 4, 9, false, { port := 0, type := 0, ident := 5, seq := 6, val := -7, t := 5 },
    { mk [(.SX_CTL_MODE, [], 3), (.SX_PORT_CFG_EN, [0], 1), (.SX_PORT_CFG_EN, [1], 1)] with residences := [{ port := 0, type := 0, ident := 5, seq := 6, val := -7, t := 5 }] },
    by decide +kernel⟩,
    ⟨{ port := 0, type := 0, ident := 5, seq := 6, val := -7, t := 5 }, [],
    { mk [(.SX_CTL_MODE, [], 3)] with residences := [{ port := 0, type := 0, ident := 5, seq := 6, val := -7, t := 5 }] },
    by decide +kernel⟩,
    ⟨2 ^ 40, 3, 9, 8, mk [(.SX_CTL_MODE, [], 1), (.SX_CTL_SERVO, [], 1)], by decide +kernel⟩,
    ⟨2 ^ 40, 3, 9, 8, mk [(.SX_CTL_MODE, [], 1), (.SX_STAT_VALID, [], 1)], by decide +kernel⟩,
    ⟨1, 9, true, 5, mk [(.SX_PORT_CFG_EN, [1], 1)], by decide +kernel⟩,
    ⟨{ mk [(.SX_PPS_WIDTH, [], 20)] with clocksUp := true, local_ := 10 ^ 20 }, by decide +kernel⟩,
    ⟨40, { mk [] with ppsEnd := some 40 }, by decide +kernel⟩⟩

theorem witness_TheReferenceSpineFollowsItsSource :
    (∃ (w : Writer) (x : BitVec 2) (good spread : Bool) (s : State), s.reaches w .CLK_SRC [] = true ∧ s.srcLink x.toNat =
    true ∧ (x = 1 → spread = false) ∧ x.toNat ≠ s.rd .CLK_SRC_SEL [] ∧ s.clocksUp = true ∧ s.on .CLK_SRC_DEAD_RECK [] =
    false) ∧
    (∃ (w : Writer) (x : BitVec 2) (good spread : Bool) (s : State), s.reaches w .CLK_SRC [] = true ∧ s.srcLink x.toNat =
    true ∧ (x = 1 → spread = false) ∧ x.toNat ≠ s.rd .CLK_SRC_SEL [] ∧ s.clocksUp = false) ∧
    (∃ (w : Writer) (x : BitVec 2) (good spread : Bool) (s : State), s.reaches w .CLK_SRC [] = true ∧ (s.srcLink x.toNat =
    false ∨ (x = 1 ∧ spread = true))) ∧
    (∃ (c : Fin 8) (silent : Bool) (a b e : Nat) (s : State), sourceFailed silent a b e = true ∧ s.clocksUp = true ∧ s.on
    .CLK_SRC_DEAD_RECK [] = false ∧ s.rd .CLK_SRC_ACTIVE [] ≠ 3) ∧
    (∃ (silent : Bool) (a b e : Nat) (s : State), (sourceFailed silent a b e = false ∨ s.rd .CLK_SRC_ACTIVE [] = 3)) ∧
    (∃ (err : BitVec 16) (s : State), s.clocksUp = true ∧ s.on .CLK_SRC_DEAD_RECK [] = false) ∧
    (∃ (s : State), s.on .CLK_SRC_DEAD_RECK [] = true ∧ s.on .CLK_SRC_AUTO_RETURN [] = true) ∧
    (∃ (s : State), s.on .CLK_SRC_AUTO_RETURN [] = false) ∧
    (∃ (w : Writer) (s : State), s.reaches w .CLK_SRC [] = true ∧ s.on .CLK_SRC_DEAD_RECK [] = true) ∧
    (∃ (w : Writer) (s : State), s.reaches w .CLK_SRC [] = true ∧ s.on .CLK_SRC_DEAD_RECK [] = true ∧ s.rd .CLK_SRC_SEL [] ≠
    3) ∧
    (∃ (w : Writer) (d f : BitVec 8) (s : State), s.reaches w .CLK_SSC [] = true ∧ s.sscBusy = false) ∧
    (∃ (w : Writer) (d f : BitVec 8) (s : State), s.reaches w .CLK_SSC [] = true ∧ s.sscBusy = true) ∧
    (∃ (w : Writer) (i : Fin 2) (x : BitVec 2) (s : State), s.reaches w .CLKOUT_CTL [i] = true ∧ x.toNat ≠ s.rd
    .CLKOUT_CTL_SRC [i] ∧ x.toNat ≠ 0 ∧ s.tap.scan = false ∧ (x.toNat = 3 → 1 ≤ (s.synthAt 8 (s.rd .CLKOUT_CTL_SPINE
    [i])).freq ∧ (s.synthAt 8 (s.rd .CLKOUT_CTL_SPINE [i])).freq ≤ clkoutMax)) :=
  ⟨⟨.fn 0, 1, true, false, { mk [] with clocksUp := true, pcie := [([0], 2)] }, by decide +kernel⟩,
    ⟨.fn 0, 3, false, false, mk [], by decide +kernel⟩,
    ⟨.fn 0, 2, false, false, mk [], by decide +kernel⟩,
    ⟨3, false, 94, 106, 100,
    { mk [(.CLK_SRC_ACTIVE, [], 1), (.HELM_CORE_STAT_STATE, [3], 2), (.CLK_MON_REF_OK, [], 1)] with clocksUp := true },
    by decide +kernel⟩,
    ⟨false, 106, 105, 100, { mk [(.CLK_SRC_ACTIVE, [], 3)] with clocksUp := true }, by decide +kernel⟩,
    ⟨0xFFF0, { mk [] with clocksUp := true, now := 1234567 }, by decide +kernel⟩,
    ⟨mk [(.CLK_SRC_DEAD_RECK, [], 1), (.CLK_SRC_AUTO_RETURN, [], 1), (.CLK_SRC_SEL, [], 2)], by decide +kernel⟩,
    ⟨mk [(.CLK_SRC_DEAD_RECK, [], 1), (.CLK_SRC_AUTO_RETURN, [], 0)], by decide +kernel⟩,
    ⟨.fn 0, mk [(.CLK_SRC_DEAD_RECK, [], 1)], by decide +kernel⟩,
    ⟨.fn 0, mk [(.CLK_SRC_DEAD_RECK, [], 1)], by decide +kernel⟩,
    ⟨.fn 0, 101, 33, mk [], by decide +kernel⟩,
    ⟨.fn 0, 10, 33, mk [(.CLKOUT_CTL_SSC, [1], 1), (.CLKOUT_CTL_SRC, [1], 2)], by decide +kernel⟩,
    ⟨.fn 0, 1, 3,
    { mk [(.CLKOUT_CTL_SPINE, [1], 5), (.CLKOUT_CTL_SSC, [1], 1)] with synth := [([8, 5], { freq := 800000, tgt := 800000 })] },
    by decide +kernel⟩⟩

theorem witness_SynthesizersGlideAndTheRailFollowsVsel :
    (∃ (w : Writer) (k : Fin 8) (f : BitVec 21) (s : State), s.reaches w .SPN_SYN [k] = true ∧ freqOk f.toNat = false) ∧
    (∃ (w : Writer) (k : Fin 8) (f : BitVec 21) (s : State), s.reaches w .SPN_SYN [k] = true ∧ freqOk f.toNat = true ∧
    s.spineCrossed k = false ∧ (List.range 8).all (fun n => (s.boundTrees n k).isEmpty) = true ∧ s.clocksUp = true ∧
    (s.synthAt 8 k).freq = 0 ∧ (s.synthAt 8 k).tgt = 0) ∧
    (∃ (w : Writer) (n : Fin 8) (k v : Fin 4) (f : BitVec 21) (s : State), s.reaches w .FSYN_FREQ [n, k, v] = true ∧
    treeCeil v < f.toNat) ∧
    (∃ (w : Writer) (n : Fin 8) (k v : Fin 4) (f : BitVec 21) (s : State), s.reaches w .FSYN_FREQ [n, k, v] = true ∧ freqOk
    f.toNat = true ∧ f.toNat ≤ treeCeil v ∧ s.rd .FVS_STAT_VCUR [n] ≠ v.val) ∧
    (∃ (w : Writer) (n : Fin 8) (k v : Fin 4) (f : BitVec 21) (s : State), s.reaches w .FSYN_FREQ [n, k, v] = true ∧ freqOk
    f.toNat = true ∧ f.toNat ≤ treeCeil v ∧ s.rd .FVS_STAT_VCUR [n] = v.val ∧ f.toNat ≠ 0 ∧ (s.synthAt n k).freq =
    (s.synthAt n k).tgt ∧ (s.synthAt n k).freq ≠ 0 ∧ (s.synthAt n k).freq ≠ f.toNat) ∧
    (∃ (n : Fin 9) (k : Fin 8) (s : State), (s.synthAt n k).freq + (s.synthAt n k).freq / 100 < (s.synthAt n k).tgt) ∧
    (∃ (n : Fin 9) (k : Fin 8) (s : State), (s.synthAt n k).tgt + (s.synthAt n k).freq / 100 < (s.synthAt n k).freq) ∧
    (∃ (k : Fin 8) (s : State), (s.synthAt 8 k).freq < (s.synthAt 8 k).tgt ∧ (s.synthAt 8 k).next = none ∧ (s.synthAt 8
    k).tgt ≤ (s.synthAt 8 k).freq + (s.synthAt 8 k).freq / 100) ∧
    (∃ (w : Writer) (n : Fin 8) (v : BitVec 2) (s : State), s.reaches w .FVS_CTL [n] = true ∧ s.vselBad n v.toNat = true) ∧
    (∃ (w : Writer) (n : Fin 8) (v : BitVec 2) (s : State), s.reaches w .FVS_CTL [n] = true ∧ s.vselBad n v.toNat = false ∧
    (List.range 4).all (fun k => decide ((s.synthAt n k).freq ≤ s.rd .FSYN_FREQ_FREQ [n, k, v.toNat])) = true ∧ s.fsynMoves
    n = false) ∧
    (∃ (n : Fin 8) (s : State), (s.fvsAt n).step = 2 ∧ (s.fvsAt n).due < (s.fvsAt n).t0 + 4 * s.settleNs n) ∧
    (∃ (n : Fin 8) (s : State), (s.fvsAt n).step = 2 ∧ (s.fvsAt n).t0 + 4 * s.settleNs n ≤ (s.fvsAt n).due) ∧
    (∃ (n : Fin 8) (s : State), (s.fvsAt n).step = 2 ∧ s.rd .FVS_CTL_VSEL [n] < 4 ∧ (s.gov n).expired = [] ∧ (List.range
    4).all (fun k => decide (s.rd .FSYN_FREQ_FREQ [n, k, s.rd .FVS_CTL_VSEL [n]] ≤ (s.synthAt n k).freq)) = true ∧
    s.fsynMoves n = false) ∧
    (∃ (n : Fin 8) (k : Fin 4) (s : State), s.on .FSYN_CTL_PERMIT_WAIT [n, k] = true ∧ s.grantReady n 15 [k] = true ∧
    (s.synthAt n k).freq = (s.synthAt n k).tgt ∧ (s.synthAt n k).freq ≠ 0 ∧ (s.synthAt n k).freq < s.rd .FSYN_FREQ_FREQ [n,
    k, s.rd .FVS_STAT_VCUR [n]]) :=
  ⟨⟨.fn 0, 3, 9999, mk [], by decide +kernel⟩,
    ⟨.fn 0, 3, 800000, { mk [] with clocksUp := true }, by decide +kernel⟩,
    ⟨.fn 0, 1, 3, 0, 900001, mk [up 1], by decide +kernel⟩,
    ⟨.fn 0, 1, 3, 0, 900000, mk [up 1, (.FVS_STAT_VCUR, [1], 1)], by decide +kernel⟩,
    ⟨.fn 0, 1, 3, 1, 900000,
    { mk [up 1, (.FVS_STAT_VCUR, [1], 1)] with synth := [([1, 3], { freq := 50000, tgt := 50000 })] }, by decide +kernel⟩,
    ⟨1, 3, { mk [up 1] with synth := [([1, 3], { freq := 50000, tgt := 70000 })] }, by decide +kernel⟩,
    ⟨8, 3, { mk [up 1] with synth := [([8, 3], { freq := 70099, tgt := 50000 })] }, by decide +kernel⟩,
    ⟨3, { mk [up 1, (.SPN_SYN_GLIDING, [3], 1)] with synth := [([8, 3], { freq := 69500, tgt := 70000 })] },
    by decide +kernel⟩,
    ⟨.fn 0, 1, 2, mk [up 1, (.FVS_STAT_BUSY, [1], 1)], by decide +kernel⟩,
    ⟨.fn 0, 1, 2, mk [up 1], by decide +kernel⟩,
    ⟨1, { mk [up 1] with fvs := [([1], { step := 2, t0 := 50, due := 20050 })] }, by decide +kernel⟩,
    ⟨1,
    { mk [up 1, (.FVS_STAT_BUSY, [1], 1), (.FVS_CTL_SETTLE, [1], 20)] with fvs := [([1], { step := 2, t0 := 50, due := 80050 })] },
    by decide +kernel⟩,
    ⟨1,
    { mk [up 1, (.FVS_STAT_BUSY, [1], 1), (.FVS_CTL_VSEL, [1], 2), (.FSYN_FREQ_FREQ, [1, 0, 2], 0), (.FSYN_FREQ_FREQ, [1, 1, 2], 0), (.FSYN_FREQ_FREQ, [1, 2, 2], 0), (.FSYN_FREQ_FREQ, [1, 3, 2], 0)] with fvs := [([1], { step := 2, t0 := 50, due := 80050 })] },
    by decide +kernel⟩,
    ⟨1, 2, granted
    ({ mk [up 1, (.FVS_STAT_VCUR, [1], 1), (.FSYN_CTL_PERMIT_WAIT, [1, 2], 1), (.FSYN_FREQ_FREQ, [1, 2, 1], 900000)] with synth := [([1, 2], { freq := 50000, tgt := 50000 })] })
    1 15 [2], by decide +kernel⟩⟩

theorem witness_HelmCoresStartTakeInterruptsAndKickTheirWatchdogs :
    (∃ (w : Writer) (c : Fin 8) (s : State), s.mute w = false ∧ s.blockWriter w c = true ∧ s.coreState c = 0 ∧ 2 ≤ s.rd
    .PG_CFG_BUDGET [8] ∧ (s.gov 8).expired = []) ∧
    (∃ (w : Writer) (c : Fin 8) (s : State), s.coreState c ≠ 0) ∧
    (∃ (c : Fin 8) (s : State), s.coreState c = 1 ∧ s.grantReady 8 18 [c] = true ∧ (s.rd .PEL_BOOTHALT_MASK []).testBit c =
    false) ∧
    (∃ (c : Fin 8) (s : State), s.coreState c = 1 ∧ s.grantReady 8 18 [c] = true ∧ (s.rd .PEL_BOOTHALT_MASK []).testBit c =
    true) ∧
    (∃ (w : Writer) (c : Fin 8) (acts : List HelmAct) (s : State), s.mute w = false ∧ s.blockWriter w c = true) ∧
    (∃ (w : Writer) (x : BitVec 9) (s : State), s.mute w = false ∧ 1 ≤ x.toNat ∧ x.toNat ≤ 15) ∧
    (∃ (w : Writer) (x : BitVec 9) (s : State), 15 < x.toNat) ∧
    (∃ (c : Fin 8) (s : State), s.claimable c ≠ 0) ∧
    (∃ (w : Writer) (c : Fin 8) (s : State), w ≠ .helm c) ∧
    (∃ (w : Writer) (c : Fin 8) (x : BitVec 9) (l : Nat) (r : List Nat) (s : State), s.mute w = false ∧ (s.helmRt
    c).serving.contains x.toNat = true ∧ (s.helmRt c).levels = l :: r ∧ l < 2 ^ Fld.HELM_CORE_STAT_LEVEL.spec.width) ∧
    (∃ (w : Writer) (c : Fin 8) (x : BitVec 9) (s : State), (s.helmRt c).serving.contains x.toNat = false) ∧
    (∃ (c : Fin 8) (acts : List HelmAct) (pc : BitVec 64) (prv : BitVec 2) (mie h : Bool) (n : Nat) (r : List Nat) (s :
    State), (s.helmRt c).nmi = n :: r ∧ (s.coreState c = 2 ∨ s.coreState c = 3) ∧ (s.helmRt c).inNmi = false) ∧
    (∃ (w : Writer) (c : Fin 8) (s : State), s.mute w = false ∧ s.blockWriter w c = true) ∧
    (∃ (w : Writer) (c : Fin 8) (k : BitVec 16) (s : State), k ≠ 0x4B1D) ∧
    (∃ (w : Writer) (c : Fin 8) (s : State), s.mute w = false ∧ s.blockWriter w c = true) ∧
    (∃ (c : Fin 8) (u : Nat) (s : State), (s.helmRt c).wdT = some u ∧ s.on .HELM_WDT_CTL_STAGE [c] = false) ∧
    (∃ (c : Fin 8) (u : Nat) (s : State), (s.helmRt c).wdT = some u ∧ s.on .HELM_WDT_CTL_STAGE [c] = true) :=
  ⟨⟨.fn 0, 3, mk [], by decide +kernel⟩,
    ⟨.fn 0, 3, mk [(.HELM_CORE_STAT_STATE, [3], 2)], by decide +kernel⟩,
    ⟨3, granted (mk [(.HELM_CORE_STAT_STATE, [3], 1), (.HELM_BOOT_LO_VEC, [], 0x400)]) 8 18 [3], by decide +kernel⟩,
    ⟨3, granted (mk [(.HELM_CORE_STAT_STATE, [3], 1), (.PEL_BOOTHALT_MASK, [], 8)]) 8 18 [3], by decide +kernel⟩,
    ⟨.helm 3, 3, [.store 0x40 8 7, .load 0x40 false],
    { mk [(.HELM_CORE_STAT_STATE, [3], 2), (.HELM_WDT_CTL_EN, [3], 1)] with mail := [{ src := 11, req := [], limit := 9, dst := 0, t := 5 }] },
    by decide +kernel⟩,
    ⟨.fn 5, 15, mk [], by decide +kernel⟩,
    ⟨.fn 5, 16, mk [], by decide +kernel⟩,
    ⟨3, mk [(.HELM_CORE_STAT_STATE, [3], 2), (.HELM_IC_SRC_PRIO, [40], 5), (.HELM_IC_SRC_TARGETS, [40], 8),
    (.HELM_IC_PEND_BITS, [1], 256)], by decide +kernel⟩,
    ⟨.fn 0, 3, mk [(.HELM_CORE_STAT_STATE, [3], 2), (.HELM_IC_SRC_PRIO, [40], 5), (.HELM_IC_SRC_TARGETS, [40], 8),
    (.HELM_IC_PEND_BITS, [1], 256)], by decide +kernel⟩,
    ⟨.helm 3, 3, 40, 2, [0],
    { mk [(.HELM_CORE_STAT_STATE, [3], 2), (.HELM_CORE_STAT_LEVEL, [3], 5)] with helm := [([3], { serving := [40, 9], levels := [2, 0] })] },
    by decide +kernel⟩,
    ⟨.helm 3, 3, 41,
    { mk [(.HELM_CORE_STAT_STATE, [3], 2), (.HELM_CORE_STAT_LEVEL, [3], 5)] with helm := [([3], { serving := [40, 9], levels := [2, 0] })] },
    by decide +kernel⟩,
    ⟨3, [.store 0x40 8 7, .load 0x40 false], 0x1234, 1, true, false, 33, [32],
    { mk [(.HELM_CORE_STAT_STATE, [3], 3)] with helm := [([3], { nmi := [33, 32] })] }, by decide +kernel⟩,
    ⟨.helm 3, 3, mk [(.HELM_CORE_STAT_STATE, [3], 2), (.HELM_WDT_CTL_EN, [3], 1), (.HELM_WDT_LOAD_US, [3], 99),
    (.HELM_WDT_CTL_STAGE, [3], 1)], by decide +kernel⟩,
    ⟨.helm 3, 3, 0x4B1E,
    { mk [(.HELM_CORE_STAT_STATE, [3], 2), (.HELM_WDT_CTL_EN, [3], 1), (.HELM_WDT_LOAD_US, [3], 99), (.HELM_WDT_CTL_STAGE, [3], 1)] with helm := [([3], { wdLeft := 4 })] },
    by decide +kernel⟩,
    ⟨.helm 3, 3, mk [], by decide +kernel⟩,
    ⟨3, 5,
    { mk [(.HELM_CORE_STAT_STATE, [3], 2), (.HELM_WDT_CTL_EN, [3], 1), (.HELM_WDT_LOAD_US, [3], 99)] with helm := [([3], { wdLeft := 4, wdT := some 5 })] },
    by decide +kernel⟩,
    ⟨3, 5,
    { mk [(.HELM_CORE_STAT_STATE, [3], 2), (.HELM_WDT_CTL_EN, [3], 1), (.HELM_WDT_LOAD_US, [3], 99), (.HELM_WDT_CTL_STAGE, [3], 1)] with helm := [([3], { wdLeft := 4, wdT := some 5 })] },
    by decide +kernel⟩⟩

theorem witness_HelmHaltsAndDebugAccessFollowTheMonitor :
    (∃ (p : Fin 2) (c : Fin 8) (s : State), s.blockWriter (.pelorus p) c = true ∧ 2 ≤ s.coreState c ∧ (s.helmRt c).monReq =
    0) ∧
    (∃ (w : Writer) (c : Fin 8) (s : State), s.coreState c < 2) ∧
    (∃ (c : Fin 8) (acts : List HelmAct) (pc : BitVec 64) (prv : BitVec 2) (mie e : Bool) (s : State), s.coreState c = 2 ∧
    (s.helmRt c).monReq = 1 ∧ s.level c < 12) ∧
    (∃ (c : Fin 8) (acts : List HelmAct) (pc : BitVec 64) (prv : BitVec 2) (mie e : Bool) (s : State), 12 ≤ s.level c) ∧
    (∃ (c : Fin 8) (l : Nat) (r : List Nat) (s : State), s.coreState c = 3 ∧ s.level c = 12 ∧ (s.helmRt c).levels = l :: r ∧
    l < 12) ∧
    (∃ (c : Fin 8) (b : Bool) (s : State), s.coreState c = 3 ∧ s.level c ≠ 12) ∧
    (∃ (p : Fin 2) (c : Fin 8) (acts : List HelmAct) (pc : BitVec 64) (prv : BitVec 2) (mie : Bool) (s : State),
    s.blockWriter (.pelorus p) c = true ∧ (s.coreState c = 2 ∨ s.coreState c = 3)) ∧
    (∃ (p : Fin 2) (c : Fin 8) (s : State), s.blockWriter (.pelorus p) c = true ∧ s.coreState c = 4) ∧
    (∃ (w : Writer) (c : Fin 8) (s : State), s.coreState c < 2) ∧
    (∃ (p : Fin 2) (c : Fin 8) (r : BitVec 14) (s : State), s.blockWriter (.pelorus p) c = true ∧ s.coreState c = 4 ∧
    dbgThere r.toNat = true) ∧
    (∃ (p : Fin 2) (c : Fin 8) (r : BitVec 14) (s : State), s.blockWriter (.pelorus p) c = true ∧ (s.coreState c ≠ 4 ∨
    dbgThere r.toNat = false)) ∧
    (∃ (p : Fin 2) (c : Fin 8) (r : BitVec 14) (s : State), s.blockWriter (.pelorus p) c = true ∧ (s.coreState c ≠ 4 ∨
    dbgThere r.toNat = false)) ∧
    (∃ (p : Fin 2) (c : Fin 8) (r : BitVec 14) (s : State), s.blockWriter (.pelorus p) c = true ∧ s.coreState c = 4 ∧ 0x1001
    ≤ r.toNat ∧ r.toNat < 0x1040) ∧
    (∃ (p : Fin 2) (c : Fin 8) (s : State), s.blockWriter (.pelorus p) c = true ∧ s.coreState c = 4) ∧
    (∃ (w : Writer) (c : Fin 8) (u : Fin 16) (v : BitVec 32) (s : State), s.mute w = false) ∧
    (∃ (w : Writer) (c : Fin 8) (u : Fin 16) (v : BitVec 32) (s : State), s.mute w = false) ∧
    (∃ (w : Writer) (c : Fin 8) (s : State), s.on .HELM_MBX_CTL_BUSY [c] = true) ∧
    (∃ (w : Writer) (c : Fin 8) (s : State), s.mute w = false ∧ s.blockWriter w c = true ∧ s.on .HELM_MBX_CTL_BUSY [c] =
    false ∧ (s.rd .HELM_MBX_LEN_LIMIT [c] = 0 ∨ 4096 < s.rd .HELM_MBX_LEN_LIMIT [c] ∨ 4096 < s.rd .HELM_MBX_LEN_REQ [c])) ∧
    (∃ (w : Writer) (c : Fin 8) (a b n l : Nat) (bs : List Byte) (s : State), s.mute w = false ∧ s.blockWriter w c = true ∧
    s.on .HELM_MBX_CTL_BUSY [c] = false ∧ s.rd .HELM_MBX_LEN_REQ [c] = n ∧ s.rd .HELM_MBX_LEN_LIMIT [c] = l ∧ a = s.rd
    .HELM_MBX_REQ_LO_ADDR [c] + s.rd .HELM_MBX_REQ_HI_ADDR [c] * 2 ^ 32 ∧ b = s.rd .HELM_MBX_RSP_LO_ADDR [c] + s.rd
    .HELM_MBX_RSP_HI_ADDR [c] * 2 ^ 32 ∧ 1 ≤ l ∧ l ≤ 4096 ∧ 1 ≤ n ∧ n ≤ 4096 ∧ (s.asked c).plainHbm a n = true ∧ (s.asked
    c).plainHbm b l = true ∧ ((s.asked c).gBytes helmMst a n).1 = 0 ∧ ((s.asked c).gBytes helmMst a n).2.1 = bs ∧ mailBounce
    bs = 0) ∧
    (∃ (c : Fin 8) (st n : Nat) (s : State), (s.helmRt c).mbx = some (st, n)) :=
  ⟨⟨1, 3, mk [(.LS_DBG_STAT_PCIE_LEVEL, [], 2), (.HELM_CORE_STAT_STATE, [3], 2)], by decide +kernel⟩,
    ⟨.pelorus 1, 3, mk [(.LS_DBG_STAT_PCIE_LEVEL, [], 2), (.HELM_CORE_STAT_STATE, [3], 1)], by decide +kernel⟩,
    ⟨3, [.store 0x40 8 7, .load 0x40 false], 0x1234, 1, true, false,
    { mk [(.HELM_CORE_STAT_STATE, [3], 2), (.HELM_CORE_STAT_LEVEL, [3], 11)] with helm := [([3], { monReq := 1, dvec := 0x800, resv := some 4 })] },
    by decide +kernel⟩,
    ⟨3, [.store 0x40 8 7, .load 0x40 false], 0x1234, 1, true, false,
    { mk [(.HELM_CORE_STAT_STATE, [3], 2), (.HELM_CORE_STAT_LEVEL, [3], 12)] with helm := [([3], { monReq := 1, dvec := 0x800 })] },
    by decide +kernel⟩,
    ⟨3, 11, [0],
    { mk [(.HELM_CORE_STAT_STATE, [3], 3), (.HELM_DBG_STAT_IN_MON, [3], 1), (.HELM_CORE_STAT_LEVEL, [3], 12)] with helm := [([3], { dpc := 5, prv := 1, pmie := true, levels := [11, 0] })] },
    by decide +kernel⟩,
    ⟨3, true,
    { mk [(.HELM_CORE_STAT_STATE, [3], 3), (.HELM_DBG_STAT_IN_MON, [3], 1), (.HELM_CORE_STAT_LEVEL, [3], 13)] with helm := [([3], { dpc := 5, prv := 1, pmie := true, levels := [12, 11, 0] })] },
    by decide +kernel⟩,
    ⟨1, 3, [.store 0x40 8 7, .load 0x40 false], 0x1234, 1, true,
    { mk [(.LS_DBG_STAT_PCIE_LEVEL, [], 2), (.HELM_CORE_STAT_STATE, [3], 3)] with helm := [([3], { resv := some 7 })] },
    by decide +kernel⟩,
    ⟨1, 3,
    { mk [(.LS_DBG_STAT_PCIE_LEVEL, [], 2), (.HELM_CORE_STAT_STATE, [3], 4), (.HELM_DBG_STAT_IN_MON, [3], 1)] with helm := [([3], { pc := 70, hold := true })] },
    by decide +kernel⟩,
    ⟨.pelorus 0, 3, mk [(.HELM_CORE_STAT_STATE, [3], 1)], by decide +kernel⟩,
    ⟨1, 3, 0x2000,
    { mk [(.LS_DBG_STAT_PCIE_LEVEL, [], 2), (.HELM_CORE_STAT_STATE, [3], 4)] with helm := [([3], { pc := 0x123456789A })] },
    by decide +kernel⟩,
    ⟨1, 3, 0x2000,
    { mk [(.LS_DBG_STAT_PCIE_LEVEL, [], 2), (.HELM_CORE_STAT_STATE, [3], 2)] with helm := [([3], { pc := 0x123456789A })] },
    by decide +kernel⟩,
    ⟨1, 3, 0x3FFF, mk [(.LS_DBG_STAT_PCIE_LEVEL, [], 2), (.HELM_CORE_STAT_STATE, [3], 4)], by decide +kernel⟩,
    ⟨1, 3, 0x1001, mk [(.LS_DBG_STAT_PCIE_LEVEL, [], 2), (.HELM_CORE_STAT_STATE, [3], 4), (.HELM_DBG_ACC_HI_DATA, [3], 4)],
    by decide +kernel⟩,
    ⟨1, 3,
    { mk [(.LS_DBG_STAT_PCIE_LEVEL, [], 2), (.HELM_CORE_STAT_STATE, [3], 4), (.HELM_DBG_ACC_HI_DATA, [3], 4)] with helm := [([3], { pc := 0x123456789A })] },
    by decide +kernel⟩,
    ⟨.fn 5, 3, 15, 99, mk [], by decide +kernel⟩,
    ⟨.fn 5, 3, 15, 0xFFFFFFFF, mk [], by decide +kernel⟩,
    ⟨.fn 0, 3, mk [(.HELM_MBX_CTL_BUSY, [3], 1)], by decide +kernel⟩,
    ⟨.helm 3, 3, mk [(.HELM_MBX_LEN_LIMIT, [3], 4097)], by decide +kernel⟩,
    ⟨.helm 3, 3, 0, 0, 8, 16, [1, 1, 0, 0, 0, 0, 0, 0],
    { mk [up 0, (.PWR_DIE_STAT_PSTATE, [0], 0), (.HBM_CTL_EN, [0], 1), (.HBM_STAT_STATE, [0], 2), (.HBM_QOS_TARGET_TARGET, [0, 0], 0), (.HELM_MBX_LEN_REQ, [3], 8), (.HELM_MBX_LEN_LIMIT, [3], 16)] with hbm := [(0, 1), (1, 1)] },
    by decide +kernel⟩,
    ⟨3, 0, 24, { mk [(.HELM_MBX_CTL_BUSY, [3], 1)] with helm := [([3], { mbx := some (0, 24) })] }, by decide +kernel⟩⟩

theorem witness_PowerStatesAndPermitsFollowTheGovernors :
    (∃ (w : Writer) (n : Fin 8) (s : State), s.reaches w .PWR_DIE_CTL [n] = true ∧ s.sleepBad n = true) ∧
    (∃ (w : Writer) (n : Fin 8) (s : State), s.reaches w .PWR_DIE_CTL [n] = true ∧ s.sleepBad n = false) ∧
    (∃ (w : Writer) (n : Fin 8) (s : State), s.reaches w .PWR_DIE_CTL [n] = true ∧ s.sleepBad n = false) ∧
    (∃ (w : Writer) (n : Fin 8) (s : State), s.reaches w .PWR_DIE_CTL [n] = true ∧ s.sleepBad n = false) ∧
    (∃ (n : Fin 8) (s : State), (s.dieAt n).pwr = 2) ∧
    (∃ (n : Fin 8) (s : State), (s.dieAt n).pwr = 3) ∧
    (∃ (n : Fin 8) (s : State), (s.dieAt n).pwr = 4) ∧
    (∃ (n : Fin 8) (s : State), (s.dieAt n).pwr = 1) ∧
    (∃ (w : Writer) (n : Fin 8) (a : Bool) (b : Fin 8 × BitVec 2) (s : State), s.reaches w .PWR_DIE_CTL [n] = true ∧ s.up n
    = true ∧ (s.rd .PWR_DIE_STAT_PSTATE [n] = 1 ∨ s.rd .PWR_DIE_STAT_PSTATE [n] = 2) ∧ s.on .PWR_DIE_STAT_BUSY [n] = false ∧
    (s.dieAt n).rel = 0 ∧ (s.dieAt n).resume = false ∧ 10 ≤ s.rd .PG_CFG_BUDGET [n] ∧ (s.gov n).expired = []) ∧
    (∃ (w : Writer) (n : Fin 8) (b : Fin 8 × BitVec 2) (s : State), s.reaches w .PWR_DIE_CTL [n] = true ∧ s.rd
    .HUB_DIE_STATE_STATE [n] = 1 ∧ s.on .PWR_DIE_STAT_BUSY [n] = false ∧ (s.dieAt n).rel = 0 ∧ (s.dieAt n).resume = false ∧
    s.on .HUB_DIE_STATE_PRESENT [n] = true) ∧
    (∃ (w : Writer) (n : Fin 8) (b : Fin 8 × BitVec 2) (s : State), s.reaches w .PWR_DIE_CTL [n] = true ∧ s.rd
    .HUB_DIE_STATE_STATE [n] = 1 ∧ s.on .PWR_DIE_STAT_BUSY [n] = false ∧ (s.dieAt n).rel = 0 ∧ (s.dieAt n).resume = false ∧
    s.on .HUB_DIE_STATE_PRESENT [n] = false ∧ fusesGood n b = true) ∧
    (∃ (w : Writer) (n : Fin 8) (b : Fin 8 × BitVec 2) (s : State), s.reaches w .PWR_DIE_CTL [n] = true ∧ s.rd
    .HUB_DIE_STATE_STATE [n] = 1 ∧ s.on .PWR_DIE_STAT_BUSY [n] = false ∧ (s.dieAt n).rel = 0 ∧ (s.dieAt n).resume = false ∧
    s.on .HUB_DIE_STATE_PRESENT [n] = false ∧ fusesGood n b = false) ∧
    (∃ (w : Writer) (n : Fin 8) (b : Fin 8 × BitVec 2) (s : State), s.reaches w .PWR_DIE_CTL [n] = true ∧ s.rd
    .HUB_DIE_STATE_STATE [n] = 1 ∧ s.on .PWR_DIE_STAT_BUSY [n] = false ∧ (s.dieAt n).rel = 0 ∧ (s.dieAt n).resume = false) ∧
    (∃ (w : Writer) (n : Fin 8) (a : Bool) (b : Fin 8 × BitVec 2) (s : State), s.reaches w .PWR_DIE_CTL [n] = true ∧ s.on
    .PWR_DIE_STAT_BUSY [n] = true) ∧
    (∃ (p : Fin 2) (s : State), 4 ≤ s.rd .BOOT_STAT_STAGE [] ∧ smGet s.pcie [p.val] 0 = 0 ∧ s.waits 8 17 [p] = false ∧ 4 ≤
    s.rd .PG_CFG_BUDGET [8] ∧ (List.range 13).all (fun k => (s.gov k).expired.isEmpty) = true) ∧
    (∃ (p : Fin 2) (s : State), s.rd .BOOT_STAT_STAGE [] < 4) ∧
    (∃ (g : Fin 13) (p : Permit) (r : List Permit) (s : State), (s.gov g).queue = p :: r ∧ s.headFits g = true ∧ p.chain =
    [] ∧ p.op ≠ 16 ∧ p.op ≠ 17 ∧ (s.gov g).ready = []) ∧
    (∃ (g : Fin 13) (s : State), s.headFits g = false ∧ (s.gov g).ready = []) ∧
    (∃ (g : Fin 13) (e : Fin 96) (p : Permit) (s : State), (s.gov g).held = [p] ∧ p.op = 1 ∧ p.who = [e.val]) ∧
    (∃ (g : Fin 13) (p : Permit) (s : State), (s.gov g).held = [p] ∧ isStepOp p.op = true) ∧
    (∃ (g : Fin 13) (p : Permit) (s : State), (s.gov g).queue = [p] ∧ p.due ≠ 0 ∧ [1, 2, 5, 6].contains p.op = true ∧
    (List.range 13).all (fun k => (s.gov k).expired.isEmpty) = true ∧ s.rd .PG_ERR_VALID [g] = 0) :=
  ⟨⟨.fn 0, 2, mk [up 2, (.PWR_DIE_STAT_BUSY, [2], 1)], by decide +kernel⟩,
    ⟨.fn 0, 2, mk [up 2, (.PWR_DIE_STAT_PSTATE, [2], 0)], by decide +kernel⟩,
    ⟨.fn 0, 3, mk [up 3, (.PWR_DIE_STAT_PSTATE, [3], 0)], by decide +kernel⟩,
    ⟨.fn 0, 2, mk [up 2, (.PWR_DIE_STAT_PSTATE, [2], 0), (.CL_BND_STAT_STATE, [7], 4)], by decide +kernel⟩,
    ⟨2, { mk [up 2, (.PWR_DIE_STAT_BUSY, [2], 1)] with dieRt := [([2], { pwr := 2 })] }, by decide +kernel⟩,
    ⟨2, { mk [up 2, (.PWR_DIE_STAT_BUSY, [2], 1)] with dieRt := [([2], { pwr := 3 })] }, by decide +kernel⟩,
    ⟨2, { mk [up 2, (.PWR_DIE_STAT_BUSY, [2], 1)] with dieRt := [([2], { pwr := 4 })] }, by decide +kernel⟩,
    ⟨2, { mk [up 2, (.PWR_DIE_STAT_PSTATE, [2], 2), (.PWR_DIE_STAT_BUSY, [2], 1)] with dieRt := [([2], { pwr := 1 })] },
    by decide +kernel⟩,
    ⟨.fn 0, 2, false, (2, 1), mk [up 2, (.PWR_DIE_STAT_PSTATE, [2], 2)], by decide +kernel⟩,
    ⟨.fn 0, 2, (2, 1), mk [(.HUB_DIE_STATE_STATE, [2], 1), (.HUB_DIE_STATE_PRESENT, [2], 1)], by decide +kernel⟩,
    ⟨.fn 0, 2, (2, 1), mk [(.HUB_DIE_STATE_STATE, [2], 1)], by decide +kernel⟩,
    ⟨.fn 0, 2, (2, 2), mk [(.HUB_DIE_STATE_STATE, [2], 1)], by decide +kernel⟩,
    ⟨.fn 0, 2, (2, 1), mk [(.HUB_DIE_STATE_STATE, [2], 1)], by decide +kernel⟩,
    ⟨.fn 0, 2, false, (2, 1), mk [up 2, (.PWR_DIE_STAT_PSTATE, [2], 2), (.PWR_DIE_STAT_BUSY, [2], 1)], by decide +kernel⟩,
    ⟨1, mk [(.BOOT_STAT_STAGE, [], 4)], by decide +kernel⟩,
    ⟨1, mk [(.BOOT_STAT_STAGE, [], 3)], by decide +kernel⟩,
    ⟨3, { op := 1, who := [37], units := 5, t := 0 }, [],
    { mk [] with govs := [([3], { queue := [{ op := 1, who := [37], units := 5, t := 0 }] })] }, by decide +kernel⟩,
    ⟨3, { mk [(.PG_CFG_BUDGET, [3], 4)] with govs := [([3], { queue := [{ op := 1, who := [37], units := 5, t := 0 }] })] },
    by decide +kernel⟩,
    ⟨3, 37, { op := 1, who := [37], units := 5, t := 0 },
    { mk [] with govs := [([3], { held := [{ op := 1, who := [37], units := 5, t := 0 }] })] }, by decide +kernel⟩,
    ⟨3, { op := 15, who := [2], units := 5, t := 70 },
    { mk [] with govs := [([3], { held := [{ op := 15, who := [2], units := 5, t := 70 }] })] }, by decide +kernel⟩,
    ⟨3, { op := 1, who := [37], units := 5, t := 70, due := 90 },
    { mk [] with govs := [([3], { queue := [{ op := 1, who := [37], units := 5, t := 70, due := 90 }] })] },
    by decide +kernel⟩⟩

theorem witness_DiesLeaveAndReturnUnderTheirRules :
    (∃ (w : Writer) (n : Fin 8) (s : State), s.reaches w .RST_DIE_CTL [n] = true ∧ (s.dpUp n = false ∨ s.on
    .PWR_DIE_STAT_BUSY [n] = true)) ∧
    (∃ (w : Writer) (n : Fin 8) (s : State), s.reaches w .RST_DIE_CTL [n] = true ∧ s.dpUp n = true ∧ s.on .PWR_DIE_STAT_BUSY
    [n] = false ∧ s.releasing = true) ∧
    (∃ (w : Writer) (n : Fin 8) (s : State), s.reaches w .RST_DIE_CTL [n] = true ∧ s.dpUp n = true ∧ s.on .PWR_DIE_STAT_BUSY
    [n] = false ∧ s.releasing = false) ∧
    (∃ (w : Writer) (n : Fin 8) (s : State), s.reaches w .RST_DIE_CTL [n] = true ∧ s.rd .HUB_DIE_STATE_STATE [n] = 5 ∧ s.on
    .RST_DIE_STAT_HELD [n] = false ∧ (s.dieAt n).rel = 0 ∧ s.tooHot n = false) ∧
    (∃ (w : Writer) (n : Fin 8) (s : State), s.reaches w .RST_DIE_CTL [n] = true ∧ s.on .RST_DIE_STAT_HELD [n] = true ∧
    (s.dieAt n).rel = 0 ∧ s.tooHot n = false) ∧
    (∃ (w : Writer) (n : Fin 8) (b : Bool) (s : State), s.reaches w .RST_DIE_CTL [n] = true ∧ s.up n = true ∧ s.on
    .RST_DIE_STAT_HELD [n] = false) ∧
    (∃ (n : Fin 8) (c : Fin 4) (b : Bool) (s : State), (s.rd .HUB_DIE_STATE_STATE [n] = 2 ∨ s.rd .HUB_DIE_STATE_STATE [n] =
    3)) ∧
    (∃ (n : Fin 8) (c : Fin 4) (b : Bool) (s : State), s.rd .HUB_DIE_STATE_STATE [n] ≠ 2 ∧ s.rd .HUB_DIE_STATE_STATE [n] ≠
    3) ∧
    (∃ (n : Fin 8) (b : Bool) (s : State), s.up n = true) ∧
    (∃ (n : Fin 8) (s : State), s.rd .HUB_DIE_STATE_STATE [n] = 4 ∧ s.rd .RST_DIE_STAT_CAUSE [n] = 3 ∧ (s.dieAt n).rel = 0 ∧
    s.on .RST_DIE_STAT_HELD [n] = false) ∧
    (∃ (n : Fin 8) (s : State), s.rd .HUB_DIE_STATE_STATE [n] = 5 ∧ s.on .HUB_DIE_STATE_LOST [n] = true ∧ s.on
    .RST_DIE_CTL_AUTO_RESTART [n] = true ∧ s.on .RST_DIE_CTL_HOLD [n] = false ∧ (s.dieAt n).rel = 0 ∧ s.tooHot n = false ∧
    s.on .RST_DIE_STAT_HELD [n] = false) ∧
    (∃ (n : Fin 8) (b : Bool) (s : State), s.on .RST_DIE_CTL_HOLD [n] = true) :=
  ⟨⟨.fn 0, 2, mk [], by decide +kernel⟩,
    ⟨.fn 0, 2, { mk [up 2, (.PWR_DIE_STAT_PSTATE, [2], 0)] with relq := [4] }, by decide +kernel⟩,
    ⟨.fn 0, 2, mk [up 2, (.PWR_DIE_STAT_PSTATE, [2], 0), (.ENG_STATUS_STATE, [25], 3), (.SEC_STATUS_STATE, [2, 4], 3)],
    by decide +kernel⟩,
    ⟨.fn 0, 2, mk [(.HUB_DIE_STATE_STATE, [2], 5)], by decide +kernel⟩,
    ⟨.fn 0, 2, mk [(.HUB_DIE_STATE_STATE, [2], 4), (.RST_DIE_STAT_HELD, [2], 1)], by decide +kernel⟩,
    ⟨.fn 0, 2, true, mk [up 2], by decide +kernel⟩,
    ⟨2, 1, true, mk [up 2, (.HBM_STAT_CONTENT, [1], 1)], by decide +kernel⟩,
    ⟨2, 1, true, mk [], by decide +kernel⟩,
    ⟨2, true, mk [up 2], by decide +kernel⟩,
    ⟨2, mk [(.HUB_DIE_STATE_STATE, [2], 4), (.RST_DIE_STAT_CAUSE, [2], 3)], by decide +kernel⟩,
    ⟨2,
    { mk [(.HUB_DIE_STATE_STATE, [2], 5), (.HUB_DIE_STATE_LOST, [2], 1), (.RST_DIE_CTL_AUTO_RESTART, [2], 1)] with dieRt := [([2], { lostT := 50 })] },
    by decide +kernel⟩,
    ⟨2, true, mk [(.HUB_DIE_STATE_STATE, [2], 5), (.HUB_DIE_STATE_LOST, [2], 1), (.RST_DIE_CTL_AUTO_RESTART, [2], 1),
    (.RST_DIE_CTL_HOLD, [2], 1)], by decide +kernel⟩⟩

theorem witness_TheDeviceBootsStageByStageAndReleasesItsDies :
    (∃ (a : BitVec 8) (b : List (Fin 8 × BitVec 2)) (x y z o : Bool) (bs : BearingSet) (s : State), s.hold = 0 ∧ s.rd
    .BOOT_STAT_STAGE [] = 0) ∧
    (∃ (a : BitVec 8) (b : List (Fin 8 × BitVec 2)) (x y z o : Bool) (bs : BearingSet) (n : Fin 8) (s : State), s.hold = 0 ∧
    s.rd .BOOT_STAT_STAGE [] = 1 ∧ a.toNat.testBit n = true ∧ fusesGood n (b.getD n (0, 0)) = true ∧ s.rd
    .RST_DIE_STAT_START_ERR [n] ≠ 5) ∧
    (∃ (a : BitVec 8) (b : List (Fin 8 × BitVec 2)) (x y z o : Bool) (bs : BearingSet) (n : Fin 8) (s : State), s.hold = 0 ∧
    s.rd .BOOT_STAT_STAGE [] = 1 ∧ a.toNat.testBit n = true ∧ fusesGood n (b.getD n (0, 0)) = false ∧ s.rd
    .RST_DIE_STAT_START_ERR [n] ≠ 5) ∧
    (∃ (a : BitVec 8) (b : List (Fin 8 × BitVec 2)) (x y z o : Bool) (bs : BearingSet) (n : Fin 8) (s : State), s.hold = 0 ∧
    s.rd .BOOT_STAT_STAGE [] = 1 ∧ a.toNat.testBit n = false ∧ s.rd .RST_DIE_STAT_START_ERR [n] ≠ 5) ∧
    (∃ (a : BitVec 8) (b : List (Fin 8 × BitVec 2)) (x y z o : Bool) (bs : BearingSet) (s : State), s.hold = 0 ∧ s.rd
    .BOOT_STAT_STAGE [] = 2 ∧ s.dirPick = none) ∧
    (∃ (a : BitVec 8) (b : List (Fin 8 × BitVec 2)) (x y z o : Bool) (bs : BearingSet) (c : Nat) (s : State), s.hold = 0 ∧
    s.rd .BOOT_STAT_STAGE [] = 2 ∧ s.warm = false ∧ s.rd .BOOT_CFG_NEXT_SLOT [] = 0 ∧ s.dirPick = some c ∧ dirPREFER
    (s.dirCopy c) ≠ 1 ∧ (dirFw (s.dirCopy c) 0).2 ≠ 0 ∧ s.fwCheck (dirFw (s.dirCopy c) 0).1 (dirFw (s.dirCopy c) 0).2 x = 0) ∧
    (∃ (a : BitVec 8) (b : List (Fin 8 × BitVec 2)) (x y z o : Bool) (bs : BearingSet) (k : Fin 8) (s : State), s.hold = 0 ∧
    s.rd .BOOT_STAT_STAGE [] = 3 ∧ s.clocksUp = false) ∧
    (∃ (a : BitVec 8) (b : List (Fin 8 × BitVec 2)) (x y z o : Bool) (bs : BearingSet) (n : Fin 8) (s : State), s.hold = 0 ∧
    s.rd .BOOT_STAT_STAGE [] = 4 ∧ s.on .HUB_DIE_STATE_PRESENT [n] = true ∧ s.rd .HUB_DIE_STATE_STATE [n] = 1 ∧ s.rd
    .RST_DIE_STAT_CAUSE [n] = 0) ∧
    (∃ (a : BitVec 8) (b : List (Fin 8 × BitVec 2)) (x y z o : Bool) (bs : BearingSet) (s : State), s.hold = 0 ∧ s.rd
    .BOOT_STAT_STAGE [] = 5 ∧ s.stage5Over = true) ∧
    (∃ (a : BitVec 8) (b : List (Fin 8 × BitVec 2)) (x y z o : Bool) (bs : BearingSet) (s : State), s.hold ≠ 0) ∧
    (∃ (n : Fin 8) (s : State), s.hold = 0 ∧ s.rd .BOOT_STAT_STAGE [] = 1) ∧
    (∃ (n : Fin 8) (r : List Nat) (s : State), s.relq = n.val :: r ∧ (s.rd .BOOT_STAT_STAGE [] = 5 ∨ s.rd .BOOT_STAT_STAGE
    [] = 6) ∧ (List.range 8).all (fun k => decide ((s.dieAt k).rel < 2)) = true) ∧
    (∃ (n : Fin 8) (r : List Nat) (s : State), s.relq = n.val :: r ∧ (s.rd .BOOT_STAT_STAGE [] = 5 ∨ s.rd .BOOT_STAT_STAGE
    [] = 6) ∧ (List.range 8).all (fun k => decide ((s.dieAt k).rel < 2)) = true ∧ s.rstq = []) ∧
    (∃ (n : Fin 8) (s : State), (s.dieAt n).rel = 2 ∧ s.spokeUp n = true ∧ s.repairs = []) ∧
    (∃ (n : Fin 8) (s : State), s.spokeUp n = false) ∧
    (∃ (n : Fin 8) (bs : BearingSet) (s : State), (s.dieAt n).rel = 3 ∧ s.rstq = []) ∧
    (∃ (n : Fin 8) (c : Fin 4) (s : State), 2 ≤ (s.dieAt n).rel ∧ s.rstq = []) ∧
    (∃ (u r : Bool) (o l : Nat) (s : State), s.auto = some (o, l, r) ∧ s.rd .BOOT_STAT_STAGE [] = 6 ∧ s.cfgLoad.phase = 0 ∧
    s.noAuto = true) ∧
    (∃ (u r : Bool) (o l : Nat) (s : State), s.auto = some (o, l, r) ∧ s.rd .BOOT_STAT_STAGE [] = 6 ∧ s.cfgLoad.phase = 0 ∧
    s.noAuto = false ∧ 1 ≤ l ∧ l < 256) :=
  ⟨⟨0xFF, [], true, true, true, true, [], { mk [] with hold := 0 }, by decide +kernel⟩,
    ⟨0xFF, [(0, 1), (1, 2), (2, 1), (3, 1), (4, 1), (5, 2), (6, 1), (7, 2)], true, true, true, true, [], 2,
    { mk [(.BOOT_STAT_STAGE, [], 1)] with hold := 0 }, by decide +kernel⟩,
    ⟨0xFF, [(0, 1), (1, 2), (2, 1), (3, 1), (4, 1), (5, 2), (6, 1), (7, 2)], true, true, true, true, [], 3,
    { mk [(.BOOT_STAT_STAGE, [], 1)] with hold := 0 }, by decide +kernel⟩,
    ⟨0xF7, [], true, true, true, true, [], 3, { mk [(.BOOT_STAT_STAGE, [], 1)] with hold := 0 }, by decide +kernel⟩,
    ⟨0xFF, [(0, 1), (1, 2), (2, 1), (3, 1), (4, 1), (5, 2), (6, 1), (7, 2)], true, true, true, true, [],
    { mk [(.BOOT_STAT_STAGE, [], 2)] with hold := 0 }, by decide +kernel⟩,
    ⟨0xFF, [], true, true, true, true, [], 0, dirAt [], by decide +kernel, by decide +kernel, by decide +kernel,
    by decide +kernel, dirAt_pick, dirAt_copy ▸ (by decide +kernel), dirAt_copy ▸ (by decide +kernel), dirAt_copy ▸
    (by decide +kernel)⟩,
    ⟨0xFF, [(0, 1), (1, 2), (2, 1), (3, 1), (4, 1), (5, 2), (6, 1), (7, 2)], true, true, false, false, [], 5,
    { mk [(.BOOT_STAT_STAGE, [], 3), (.SPN_SYN_FREQ, [5], 70000)] with hold := 0 }, by decide +kernel⟩,
    ⟨0xFF, [(0, 1), (1, 2), (2, 1), (3, 1), (4, 1), (5, 2), (6, 1), (7, 2)], true, true, false, false, [], 3,
    { mk [(.BOOT_STAT_STAGE, [], 4), (.HUB_DIE_STATE_PRESENT, [3], 1), (.HUB_DIE_STATE_STATE, [3], 1)] with hold := 0 },
    by decide +kernel⟩,
    ⟨0xFF, [(0, 1), (1, 2), (2, 1), (3, 1), (4, 1), (5, 2), (6, 1), (7, 2)], true, true, false, false, [],
    { mk [(.BOOT_STAT_STAGE, [], 5)] with hold := 0 }, by decide +kernel⟩,
    ⟨0xFF, [(0, 1), (1, 2), (2, 1), (3, 1), (4, 1), (5, 2), (6, 1), (7, 2)], true, true, false, false, [], mk [],
    by decide +kernel⟩,
    ⟨3, { mk [(.BOOT_STAT_STAGE, [], 1)] with hold := 0 }, by decide +kernel⟩,
    ⟨4, [7],
    { mk [(.BOOT_STAT_STAGE, [], 5), (.HUB_DIE_STATE_STATE, [4], 1)] with hold := 0, relq := [4, 7], dieRt := [([4], { rel := 1 })] },
    by decide +kernel⟩,
    ⟨4, [7],
    { mk [(.BOOT_STAT_STAGE, [], 6), (.HUB_DIE_STATE_STATE, [4], 1)] with hold := 0, relq := [4, 7], dieRt := [([4], { rel := 1 })] },
    by decide +kernel⟩,
    ⟨4,
    { mk [(.GK_STAT_STATE, [4, 2], 2), (.GK_STAT_STATE, [8, 4], 2), (.GK_STAT_NOC, [4, 2], 3), (.GK_STAT_NOC, [8, 4], 3)] with dieRt := [([4], { rel := 2, t0 := 50 })] },
    by decide +kernel⟩,
    ⟨4, { mk [] with dieRt := [([4], { rel := 2, t0 := 50 })] }, by decide +kernel⟩,
    ⟨4, [],
    { mk [up 5, (.HUB_DIE_STATE_STATE, [4], 2), (.PWR_DIE_STAT_BUSY, [4], 1)] with dieRt := [([4], { rel := 3, t0 := 50 })] },
    by decide +kernel⟩,
    ⟨4, 3, { mk [(.HUB_DIE_STATE_STATE, [4], 2)] with dieRt := [([4], { rel := 2, t0 := 50 })] }, by decide +kernel⟩,
    ⟨true, false, 4096, 1288, { mk [(.BOOT_STAT_STAGE, [], 6)] with auto := some (4096, 1288, false), noAuto := true },
    by decide +kernel⟩,
    ⟨true, false, 4096, 128, { mk [(.BOOT_STAT_STAGE, [], 6)] with auto := some (4096, 128, false) }, by decide +kernel⟩⟩

theorem witness_ResetsRailsAndTelemetryReachTheWholeDevice :
    (∃ (w : Writer) (s : State), s.mute w = false ∧ s.rstWriter w = true ∧ s.unlocked = true) ∧
    (∃ (w : Writer) (s : State), s.mute w = false ∧ s.unlocked = false) ∧
    (∃ (r : Bool) (s : State), s.hold = 1) ∧
    (∃ (r : Bool) (s : State), s.hold = 1) ∧
    (∃ (r e : Bool) (s : State), s.hold = 2) ∧
    (∃ (w : Writer) (s : State), s.mute w = false ∧ s.rstWriter w = true) ∧
    (∃ (w : Writer) (k : BitVec 16) (s : State), s.mute w = false ∧ k ≠ 0xC3A5) ∧
    (∃ (w : Writer) (s : State), s.mute w = false ∧ s.rstWriter w = true ∧ s.unlocked = true) ∧
    (∃ (s : State), s.binAgain = true) ∧
    (∃ (s : State), s.binAgain = false) ∧
    (∃ (n : Fin 8) (s : State), s.up n = true) ∧
    (∃ (st : Fin 4) (s : State), (s.stk st).train ≠ 2 ∧ s.on .HBM_STAT_CONTENT [st] = true) ∧
    (∃ (n : Fin 9) (x : BitVec 8) (v : BitVec 12) (a : BitVec 10) (s : State), s.hold = 0 ∧ s.stewardRuns n = true ∧ x.toNat
    < 110) ∧
    (∃ (x : BitVec 8) (v : BitVec 12) (a : BitVec 10) (s : State), s.hold = 0 ∧ 110 ≤ x.toNat ∧ 1 ≤ (s.life 8).hot) ∧
    (∃ (n : Fin 8) (x : BitVec 8) (v : BitVec 12) (a : BitVec 10) (s : State), s.hold = 0 ∧ s.up n = true ∧ 110 ≤ x.toNat ∧
    x.toNat < 118 ∧ 1 ≤ (s.life n).hot) ∧
    (∃ (s : State), s.hold = 3 ∧ (List.range 9).all (fun n => decide ((s.life n).last < 100)) = true) ∧
    (∃ (n : Fin 9) (s : State), s.hold = 3 ∧ 100 ≤ (s.life n).last) ∧
    (∃ (n : Fin 9) (s : State), s.stewardRuns n = true) :=
  ⟨⟨.fn 4, { mk [up 3, (.BOOT_STAT_STAGE, [], 6)] with rstUnlock := some (50, 8) }, by decide +kernel⟩,
    ⟨.fn 4, { mk [up 3, (.BOOT_STAT_STAGE, [], 6)] with hold := 0 }, by decide +kernel⟩,
    ⟨true, mk [], by decide +kernel⟩,
    ⟨true, mk [], by decide +kernel⟩,
    ⟨true, false, { mk [] with hold := 2 }, by decide +kernel⟩,
    ⟨.helm 3, mk [], by decide +kernel⟩,
    ⟨.helm 3, 5, { mk [] with rstUnlock := some (50, 8) }, by decide +kernel⟩,
    ⟨.fn 0,
    { qpOn 2 7 [] [up 3, (.BOOT_STAT_STAGE, [], 6), (.HELM_CORE_STAT_STATE, [2], 2)] with rstUnlock := some (50, 8) },
    by decide +kernel⟩,
    ⟨{ mk [(.BOOT_STAT_STAGE, [], 6)] with warmT := some 0 }, by decide +kernel⟩,
    ⟨mk [(.BOOT_STAT_STAGE, [], 6)], by decide +kernel⟩,
    ⟨3, mk [up 3], by decide +kernel⟩,
    ⟨3, mk [up 6, (.HBM_CTL_EN, [3], 1), (.HBM_STAT_CONTENT, [3], 1), (.HBM_STAT_STATE, [3], 2)], by decide +kernel⟩,
    ⟨3, 109, 900, 5, { mk [up 3] with hold := 0, tele := [([3], { top := 50, hot := 1 })] }, by decide +kernel⟩,
    ⟨110, 900, 5, { mk [up 3] with hold := 0, tele := [([8], { top := 50, hot := 1 })] }, by decide +kernel⟩,
    ⟨3, 117, 900, 5, { mk [up 3] with hold := 0, tele := [([3], { top := 50, hot := 1 })] }, by decide +kernel⟩,
    ⟨{ mk [] with hold := 3 }, by decide +kernel⟩,
    ⟨5, { mk [] with hold := 3, tele := [([5], { last := 100 })] }, by decide +kernel⟩,
    ⟨5, { mk [up 5] with tele := [([5], { top := 96, due := 50, hours := [1, 2, 3, 4], tenths := 7 })] }, by decide +kernel⟩⟩

theorem witness_TelemetryWarnsOnceForEachRise :
    (∃ (n : Fin 9) (x : BitVec 8) (v : BitVec 12) (a : BitVec 10) (s : State), s.hold = 0 ∧ s.stewardRuns n = true ∧ x.toNat
    < 110 ∧ s.rd .TEL_CTL_TWARN [n] ≤ x.toNat ∧ (s.life n).armed = true ∧ (s.steward n).queue.length < 256 ∧ (s.steward
    n).lost = 0 ∧ (s.steward n).lostFull = 0) ∧
    (∃ (n : Fin 9) (x : BitVec 8) (v : BitVec 12) (a : BitVec 10) (s : State), s.hold = 0 ∧ s.stewardRuns n = true ∧ x.toNat
    < 110 ∧ s.rd .TEL_CTL_TWARN [n] < x.toNat + 5 ∧ (s.life n).armed = false) ∧
    (∃ (n : Fin 9) (x : BitVec 8) (v : BitVec 12) (a : BitVec 10) (s : State), s.hold = 0 ∧ s.stewardRuns n = true ∧ x.toNat
    < 110 ∧ x.toNat + 5 ≤ s.rd .TEL_CTL_TWARN [n]) ∧
    (∃ (n : Fin 8) (x : BitVec 8) (v : BitVec 12) (a : BitVec 10) (s : State), s.hold = 0 ∧ s.stewardRuns n = true ∧ 118 ≤
    x.toNat ∧ 1 ≤ (s.life n).hotter) :=
  ⟨⟨3, 100, 900, 5, { mk [up 3, (.TEL_CTL_TWARN, [3], 100)] with hold := 0 }, by decide +kernel⟩,
    ⟨3, 96, 900, 5, { mk [up 3, (.TEL_CTL_TWARN, [3], 100)] with hold := 0, tele := [([3], { armed := false })] },
    by decide +kernel⟩,
    ⟨3, 95, 900, 5, { mk [up 3, (.TEL_CTL_TWARN, [3], 100)] with hold := 0, tele := [([3], { armed := false })] },
    by decide +kernel⟩,
    ⟨3, 118, 900, 5,
    { mk [up 3, (.TEL_CTL_TWARN, [3], 100)] with hold := 0, tele := [([3], { armed := false, hot := 1, hotter := 1 })] },
    by decide +kernel⟩⟩

theorem witness_LodestarMessagesHaveTheirEffectAndTheirReply :
    (∃ (n : Fin 2048) (m : Mail) (s : State), s.fromFn n m 0x0101 = true ∧ m.body.length = 48 ∧ s.lifecycle ≠ 3) ∧
    (∃ (n : Fin 2048) (m : Mail) (s : State), s.fromFn n m 0x0101 = true ∧ m.body.length = 48 ∧ s.lifecycle = 3 ∧ s.on
    .LS_ERR_VALID [] = false) ∧
    (∃ (n : Fin 2048) (m : Mail) (s : State), s.fromFn n m 0x0101 = true ∧ m.body.length ≠ 48 ∧ s.on .LS_ERR_VALID [] =
    false) ∧
    (∃ (n : Fin 2048) (m : Mail) (s : State), s.fromFn n m 0x0102 = true ∧ m.body.length = 0 ∧ s.lifecycle ≠ 3) ∧
    (∃ (n : Fin 2048) (s : State), s.on .LS_STAT_TRNG_OK [] = false) ∧
    (∃ (n : Fin 2048) (m : Mail) (s : State), s.on .LS_STAT_TRNG_OK [] = true ∧ s.fromFn n m 0x0103 = true ∧ m.body.length =
    96 ∧ s.lifecycle ≠ 3 ∧ s.sessions.length < 16) ∧
    (∃ (n : Fin 2048) (m : Mail) (s : State), s.on .LS_STAT_TRNG_OK [] = true ∧ s.fromFn n m 0x0103 = true ∧ m.body.length =
    96 ∧ s.lifecycle ≠ 3 ∧ 16 ≤ s.sessions.length ∧ s.on .LS_ERR_VALID [] = false) ∧
    (∃ (n : Fin 2048) (m : Mail) (v : Nat) (x : LsSession) (s : State), s.fromFn n m 0x0104 = true ∧ m.body.length = 108 ∧
    s.ownSession m = some (v, x)) ∧
    (∃ (n : Fin 2048) (m : Mail) (v : Nat) (x : LsSession) (s : State), s.fromFn n m 0x0105 = true ∧ m.body.length = 4 ∧
    s.ownSession m = some (v, x)) ∧
    (∃ (n : Fin 2048) (m : Mail) (s : State), s.fromFn n m 0x0105 = true ∧ m.body.length = 4 ∧ s.ownSession m = none) ∧
    (∃ (n : Fin 2048) (m : Mail) (v : Nat) (x : LsSession) (s : State), s.fromHelm n m 0x0105 = true ∧ m.body.length = 4 ∧
    s.ownSession m = some (v, x)) ∧
    (∃ (v : Fin 256) (x : LsSession) (s : State), smGet s.sessions [v.val] none = some x) ∧
    (∃ (n : Fin 2048) (m : Mail) (s : State), s.fromFn n m 0x0106 = true ∧ (s.mail.take n).all (fun x => mailCode x.req !=
    0x0106) = true ∧ m.admin = true ∧ m.body.length = 8 ∧ m.num 0 4 < 8 ∧ s.rd .LS_ARB_VALUE [m.num 0 4] < m.num 4 4 ∧ m.num
    4 4 ≤ s.rd .LS_SVN_SVN [m.num 0 4] ∧ m.num 4 4 ≤ 64) ∧
    (∃ (n : Fin 2048) (stop : Option (BitVec 7 × Bool)) (m : Mail) (s : State), s.fromFn n m 0x0106 = true ∧ (s.mail.take
    n).all (fun x => mailCode x.req != 0x0106) = true ∧ m.admin = true ∧ m.body.length = 8 ∧ m.num 0 4 < 8 ∧ m.num 4 4 ≤
    s.rd .LS_ARB_VALUE [m.num 0 4]) ∧
    (∃ (n : Fin 2048) (stop : Option (BitVec 7 × Bool)) (m : Mail) (s : State), s.fromFn n m 0x0106 = true ∧ (s.mail.take
    n).all (fun x => mailCode x.req != 0x0106) = true ∧ m.admin = true ∧ m.body.length = 8 ∧ m.num 0 4 < 8 ∧ s.rd
    .LS_ARB_VALUE [m.num 0 4] < m.num 4 4 ∧ s.rd .LS_SVN_SVN [m.num 0 4] < m.num 4 4 ∧ s.on .LS_ERR_VALID [] = false) ∧
    (∃ (n : Fin 2048) (stop : Option (BitVec 7 × Bool)) (m : Mail) (s : State), s.fromFn n m 0x0106 = true ∧ (s.mail.take
    n).all (fun x => mailCode x.req != 0x0106) = true ∧ m.admin = true ∧ m.body.length = 8 ∧ m.num 0 4 < 8 ∧ s.rd
    .LS_ARB_VALUE [m.num 0 4] < m.num 4 4 ∧ m.num 4 4 ≤ s.rd .LS_SVN_SVN [m.num 0 4] ∧ 64 < m.num 4 4 ∧ s.on .LS_ERR_VALID
    [] = false) ∧
    (∃ (n : Fin 2048) (b : BitVec 7) (m : Mail) (s : State), s.fromFn n m 0x0106 = true ∧ (s.mail.take n).all (fun x =>
    mailCode x.req != 0x0106) = true ∧ m.admin = true ∧ m.body.length = 8 ∧ m.num 0 4 < 8 ∧ s.rd .LS_ARB_VALUE [m.num 0 4] <
    m.num 4 4 ∧ m.num 4 4 ≤ s.rd .LS_SVN_SVN [m.num 0 4] ∧ m.num 4 4 ≤ 64 ∧ s.on .LS_ERR_VALID [] = false) ∧
    (∃ (n : Fin 2048) (stop : Option (BitVec 7 × Bool)) (m : Mail) (s : State), s.fromFn n m 0x0106 = true ∧ (s.mail.take
    n).all (fun x => mailCode x.req != 0x0106) = true ∧ m.admin = false) ∧
    (∃ (n : Fin 2048) (k : BitVec 256) (m : Mail) (v : Nat) (x : LsSession) (s : State), s.fromFn n m 0x0107 = true ∧
    m.admin = true ∧ ownerKeyCount m.body.length ≠ 0 ∧ s.lifecycle = 1 ∧ s.ownSession m = some (v, x) ∧ s.partlyOwned =
    false) ∧
    (∃ (n : Fin 2048) (k : BitVec 256) (how : Fin 3) (m : Mail) (v : Nat) (x : LsSession) (s : State), s.fromFn n m 0x0107 =
    true ∧ m.admin = true ∧ ownerKeyCount m.body.length ≠ 0 ∧ s.lifecycle = 1 ∧ s.ownSession m = some (v, x) ∧ s.partlyOwned
    = true ∧ s.on .LS_ERR_VALID [] = false) ∧
    (∃ (n : Fin 2048) (k : BitVec 256) (m : Mail) (v : Nat) (x : LsSession) (s : State), s.fromFn n m 0x0107 = true ∧
    m.admin = true ∧ ownerKeyCount m.body.length ≠ 0 ∧ s.lifecycle = 1 ∧ s.ownSession m = some (v, x) ∧ s.partlyOwned =
    false) ∧
    (∃ (n : Fin 2048) (b : Fin 4) (m : Mail) (s : State), s.fromFn n m 0x0108 = true ∧ m.admin = true ∧ m.body.length = 100
    ∧ s.lifecycle = 2 ∧ m.num 0 4 < 4 ∧ b.val ≠ m.num 0 4 ∧ (s.rd .LS_STAT_OWNER_KEYS []).testBit b = true) ∧
    (∃ (n : Fin 2048) (f : Bool) (m : Mail) (s : State), s.fromFn n m 0x0108 = true ∧ m.admin = true ∧ m.body.length = 100 ∧
    s.lifecycle = 2 ∧ s.on .LS_ERR_VALID [] = false) ∧
    (∃ (n : Fin 2048) (b : Fin 4) (m : Mail) (s : State), s.fromFn n m 0x0109 = true ∧ m.admin = true ∧ m.body.length = 96 ∧
    s.lifecycle = 2 ∧ (s.rd .LS_STAT_OWNER_KEYS []).testBit b = true) :=
  ⟨⟨0, msg 2 0x0101 (natLe 9 48), mailed 2 0x0101 (natLe 9 48) [], by decide +kernel⟩,
    ⟨0, msg 2 0x0101 (natLe 9 48), mailed 2 0x0101 (natLe 9 48) [(.LS_STAT_LIFECYCLE, [], 3)], by decide +kernel⟩,
    ⟨0, msg 2 0x0101 (natLe 9 47), mailed 2 0x0101 (natLe 9 47) [], by decide +kernel⟩,
    ⟨0, msg 2 0x0102 [], mailed 2 0x0102 [] [], by decide +kernel⟩,
    ⟨0, mk [], by decide +kernel⟩,
    ⟨0, msg 2 0x0103 (natLe 9 96), { mailed 2 0x0103 (natLe 9 96) [(.LS_STAT_TRNG_OK, [], 1)] with lastSes := 4 },
    by decide +kernel⟩,
    ⟨0, msg 2 0x0103 (natLe 9 96),
    { mailed 2 0x0103 (natLe 9 96) [(.LS_STAT_TRNG_OK, [], 1)] with sessions := (List.range 16).map (fun k => ([k + 1], some { owner := 2, used := 10 })) },
    by decide +kernel⟩,
    ⟨0, msg 2 0x0104 (natLe 5 4 ++ natLe 77 104), 5, { owner := 2, used := 10 }, mailed 2 0x0104 (natLe 5 4 ++ natLe 77 104)
    [], by decide +kernel⟩,
    ⟨0, msg 2 0x0105 (natLe 5 4), 5, { owner := 2, used := 10 }, mailed 2 0x0105 (natLe 5 4) [], by decide +kernel⟩,
    ⟨0, msg 2 0x0105 (natLe 6 4), mailed 2 0x0105 (natLe 6 4) [], by decide +kernel⟩,
    ⟨0, { src := 11, req := natLe 0x0105 8 ++ natLe 5 4, limit := 9, dst := 0, t := 5 }, 5, { owner := 8, used := 10 },
    { mk [] with mail := [{ src := 11, req := natLe 0x0105 8 ++ natLe 5 4, limit := 9, dst := 0, t := 5 }], sessions := [([5], some { owner := 8, used := 10 })] },
    by decide +kernel⟩,
    ⟨5, { owner := 2, used := 10 }, mailed 2 0x0105 [] [], by decide +kernel⟩,
    ⟨0, msg 4 0x0106 (natLe 3 4 ++ natLe 64 4), mailed 4 0x0106 (natLe 3 4 ++ natLe 64 4) [(.LS_ARB_VALUE, [3], 63),
    (.LS_SVN_SVN, [3], 64)], by decide +kernel⟩,
    ⟨0, some (3, true), msg 4 0x0106 (natLe 3 4 ++ natLe 63 4), mailed 4 0x0106 (natLe 3 4 ++ natLe 63 4) [(.LS_ARB_VALUE,
    [3], 63), (.LS_SVN_SVN, [3], 5)], by decide +kernel⟩,
    ⟨0, none, msg 4 0x0106 (natLe 3 4 ++ natLe 66 4), mailed 4 0x0106 (natLe 3 4 ++ natLe 66 4) [(.LS_ARB_VALUE, [3], 63),
    (.LS_SVN_SVN, [3], 65)], by decide +kernel⟩,
    ⟨0, none, msg 4 0x0106 (natLe 3 4 ++ natLe 65 4), mailed 4 0x0106 (natLe 3 4 ++ natLe 65 4) [(.LS_ARB_VALUE, [3], 63),
    (.LS_SVN_SVN, [3], 65)], by decide +kernel⟩,
    ⟨0, 5, msg 4 0x0106 (natLe 3 4 ++ natLe 8 4), mailed 4 0x0106 (natLe 3 4 ++ natLe 8 4) [(.LS_ARB_VALUE, [3], 3),
    (.LS_SVN_SVN, [3], 9)], by decide +kernel⟩,
    ⟨0, none, msg 2 0x0106 (natLe 3 4 ++ natLe 8 4), mailed 2 0x0106 (natLe 3 4 ++ natLe 8 4) [(.LS_ARB_VALUE, [3], 3),
    (.LS_SVN_SVN, [3], 9)], by decide +kernel⟩,
    ⟨0, 7, msg 4 0x0107 (natLe 5 4 ++ natLe 77 96 ++ natLe 99 184), 5, { owner := 4, used := 10 }, mailed 4 0x0107 (natLe 5
    4 ++ natLe 77 96 ++ natLe 99 184) [(.LS_STAT_LIFECYCLE, [], 1)], by decide +kernel⟩,
    ⟨0, 7, 2, msg 4 0x0107 (natLe 5 4 ++ natLe 77 96 ++ natLe 99 184), 5, { owner := 4, used := 10 },
    { mailed 4 0x0107 (natLe 5 4 ++ natLe 77 96 ++ natLe 99 184) [(.LS_STAT_LIFECYCLE, [], 1)] with lsFuse := [([3, 0], 7)] },
    by decide +kernel⟩,
    ⟨0, 7, msg 4 0x0107 (natLe 5 4 ++ natLe 77 96 ++ natLe 99 184), 5, { owner := 4, used := 10 }, mailed 4 0x0107 (natLe 5
    4 ++ natLe 77 96 ++ natLe 99 184) [(.LS_STAT_LIFECYCLE, [], 1)], by decide +kernel⟩,
    ⟨0, 2, msg 4 0x0108 (natLe 1 4 ++ natLe 99 96), mailed 4 0x0108 (natLe 1 4 ++ natLe 99 96) [(.LS_STAT_LIFECYCLE, [], 2),
    (.LS_STAT_OWNER_KEYS, [], 7)], by decide +kernel⟩,
    ⟨0, true, msg 4 0x0108 (natLe 1 4 ++ natLe 99 96), mailed 4 0x0108 (natLe 1 4 ++ natLe 99 96) [(.LS_STAT_LIFECYCLE, [],
    2), (.LS_STAT_OWNER_KEYS, [], 7)], by decide +kernel⟩,
    ⟨0, 2, msg 4 0x0109 (natLe 1 96), mailed 4 0x0109 (natLe 1 96) [(.LS_STAT_LIFECYCLE, [], 2), (.LS_STAT_OWNER_KEYS, [],
    7)], by decide +kernel⟩⟩

theorem witness_DebugLevelsOpenOnlyByAGoodAttempt :
    (∃ (s : State), s.on .LS_STAT_TRNG_OK [] = true) ∧
    (∃ (s : State), s.trngT.isSome = true) ∧
    (∃ (st : Fin 4) (a b u : Nat) (r : List Nat) (s : State), s.trngT = some a ∧ smGet s.keyOp [st.val] [] = b :: 1 :: u ::
    r) ∧
    (∃ (a : Nat) (s : State), s.trngT = some a ∧ s.trngSaid = false ∧ s.on .LS_ERR_VALID [] = false) ∧
    (∃ (p : PelSrc) (l : BitVec 2) (s : State), s.authTaken p = true ∧ s.on .LS_STAT_TRNG_OK [] = true) ∧
    (∃ (p : PelSrc) (l : BitVec 2) (s : State), s.authTaken p = true ∧ s.on .LS_STAT_TRNG_OK [] = false) ∧
    (∃ (p : PelSrc) (l : BitVec 2) (c : Nat) (s : State), s.authTaken p = true ∧ s.pelLevel (pelPath p) < l.toNat ∧
    s.dbgWait ≤ s.now ∧ s.lifecycle = 1 ∧ (s.pelRt (pelPath p)).sent.length = 304 ∧ leNat (s.pelRt (pelPath p)).sent = c ∧
    bitsOf c 0 32 = 0x54444243 ∧ bitsOf c 48 16 = 0 ∧ hByte c 5 ≤ 1 ∧ (s.rd .LS_STAT_VKEYS []).testBit (hByte c 5) = true ∧
    l.toNat ≤ hByte c 4 ∧ (bitsOf c 64 64 = 0 ∨ bitsOf c 64 64 = Config.serial.toNat) ∧ (s.pelRt (pelPath p)).chal.isSome =
    true) ∧
    (∃ (p : PelSrc) (l : BitVec 2) (b : Bool) (c : Nat) (s : State), s.authTaken p = true ∧ s.pelLevel (pelPath p) < l.toNat
    ∧ s.dbgWait ≤ s.now ∧ s.lifecycle = 1 ∧ (s.pelRt (pelPath p)).sent.length = 304 ∧ leNat (s.pelRt (pelPath p)).sent = c ∧
    bitsOf c 0 32 = 0x54444243 ∧ bitsOf c 48 16 = 0 ∧ hByte c 5 ≤ 1 ∧ s.on .LS_ERR_VALID [] = false) ∧
    (∃ (p : PelSrc) (l : BitVec 2) (x y : Bool) (s : State), s.authTaken p = true ∧ l.toNat ≤ s.pelLevel (pelPath p)) ∧
    (∃ (p : PelSrc) (l : BitVec 2) (x y : Bool) (s : State), s.authTaken p = true ∧ s.pelLevel (pelPath p) < l.toNat ∧ s.now
    < s.dbgWait) ∧
    (∃ (p : PelSrc) (l : BitVec 2) (h : Nat) (s : State), s.authTaken p = true ∧ s.pelLevel (pelPath p) < l.toNat ∧
    s.dbgWait ≤ s.now ∧ s.lifecycle ≠ 3 ∧ (s.pelRt (pelPath p)).sent.length = 32 ∧ smGet s.lsFuse [4, l.toNat] 0 = h ∧ h ≠
    0) ∧
    (∃ (p : PelSrc) (l : BitVec 2) (s : State), s.authTaken p = true ∧ s.pelLevel (pelPath p) < l.toNat ∧ s.dbgWait ≤ s.now
    ∧ s.lifecycle ≠ 3 ∧ smGet s.lsFuse [4, l.toNat] 0 = 0) ∧
    (∃ (p : PelSrc) (l : BitVec 2) (s : State), s.authTaken p = true ∧ s.pelLevel (pelPath p) < l.toNat ∧ s.dbgWait ≤ s.now
    ∧ s.lifecycle = 3 ∧ s.on .LS_ERR_VALID [] = false) :=
  ⟨⟨mk [(.LS_STAT_TRNG_OK, [], 1)], by decide +kernel⟩,
    ⟨{ mk [(.PEL_AUTH_STAT_BUSY, [1], 1)] with trngT := some 5, pel := [([1], { want := true })] }, by decide +kernel⟩,
    ⟨2, 70, 3, 50, [7], { mk [(.SEAL_KEY_BUSY, [2], 1)] with trngT := some 70, keyOp := [([2], [3, 1, 50, 7])] },
    by decide +kernel⟩,
    ⟨70, { mk [] with trngT := some 70 }, by decide +kernel⟩,
    ⟨.pcie 4, 2, mk [(.LS_STAT_TRNG_OK, [], 1)], by decide +kernel⟩,
    ⟨.jtag, 3, mk [], by decide +kernel⟩,
    ⟨.jtag, 3, leNat (cert 3 1), submitted 0 (cert 3 1) [(.LS_STAT_LIFECYCLE, [], 1), (.LS_STAT_VKEYS, [], 2),
    (.LS_DBG_STAT_FAILS, [], 4), (.LS_DBG_STAT_JTAG_LEVEL, [], 2)], by decide +kernel⟩,
    ⟨.pcie 0, 1, true, leNat (cert 3 1), submitted 1 (cert 3 1) [(.LS_STAT_LIFECYCLE, [], 1), (.LS_STAT_VKEYS, [], 2),
    (.LS_DBG_STAT_FAILS, [], 255)], by decide +kernel⟩,
    ⟨.pcie 0, 1, true, true, submitted 1 (cert 3 1) [(.LS_DBG_STAT_PCIE_LEVEL, [], 1)], by decide +kernel⟩,
    ⟨.jtag, 1, true, true, { submitted 0 (cert 3 1) [] with dbgWait := 5 }, by decide +kernel⟩,
    ⟨.jtag, 1, 5, { submitted 0 (natLe 7 32) [(.LS_STAT_LIFECYCLE, [], 1)] with lsFuse := [([4, 1], 5)] },
    by decide +kernel⟩,
    ⟨.jtag, 1, submitted 0 (natLe 7 32) [(.LS_STAT_LIFECYCLE, [], 1)], by decide +kernel⟩,
    ⟨.jtag, 1, submitted 0 (natLe 7 32) [(.LS_STAT_LIFECYCLE, [], 3)], by decide +kernel⟩⟩

theorem witness_RecoveryReceivesJudgesAndRestarts :
    (∃ (w : Writer) (b : Bool) (n : BitVec 28) (s : State), s.recovers w = true ∧ (n.toNat = 0 ∨ 64 * 2 ^ 20 + 256 < 16 *
    n.toNat)) ∧
    (∃ (w : Writer) (b : Bool) (n : BitVec 28) (s : State), s.recovers w = true ∧ n.toNat ≠ 0 ∧ 16 * n.toNat ≤ 64 * 2 ^ 20 +
    256) ∧
    (∃ (w : Writer) (v : BitVec 32) (s : State), s.recovers w = true ∧ s.rd .LS_RCV_STAT_STATE [] = 1 ∧ s.rcvN < 16 * s.rd
    .LS_RCV_CTL_LEN [] ∧ s.rcvN < 0x8000000) ∧
    (∃ (w : Writer) (v : BitVec 32) (s : State), s.recovers w = true ∧ 16 * s.rd .LS_RCV_CTL_LEN [] ≤ s.rcvN) ∧
    (∃ (w : Writer) (v : BitVec 32) (s : State), s.mute w = false ∧ s.unlocked = false ∧ s.rd .BOOT_STAT_STAGE [] ≠ 15) ∧
    (∃ (w : Writer) (b : Bool) (s : State), s.recovers w = true ∧ s.rd .LS_RCV_STAT_STATE [] = 1) ∧
    (∃ (w : Writer) (b : Bool) (s : State), s.recovers w = true ∧ s.rd .LS_RCV_STAT_STATE [] = 1 ∧ s.rcvN ≠ 16 * s.rd
    .LS_RCV_CTL_LEN []) ∧
    (∃ (w : Writer) (a len : Nat) (s : State), s.recovers w = true ∧ s.rd .LS_RCV_STAT_STATE [] = 1 ∧ s.rcvN = 16 * s.rd
    .LS_RCV_CTL_LEN [] ∧ s.slotBase (s.rd .LS_RCV_CTL_SLOT []) = a ∧ 256 + hBODY (leNat (memBytes s.flash a 256 0xFF)) = len
    ∧ len ≤ s.rcvN ∧ s.rcvN < len + 16 ∧ s.fwCheck a len true = 0) ∧
    (∃ (w : Writer) (a len : Nat) (s : State), s.recovers w = true ∧ s.rd .LS_RCV_STAT_STATE [] = 1 ∧ s.rcvN = 16 * s.rd
    .LS_RCV_CTL_LEN [] ∧ s.slotBase (s.rd .LS_RCV_CTL_SLOT []) = a ∧ 8192 ≤ a ∧ 256 + hBODY (leNat (memBytes s.flash a 256
    0xFF)) = len ∧ len ≤ s.rcvN ∧ s.rcvN < len + 16 ∧ s.fwCheck a len true = 0) :=
  ⟨⟨.fn 0, true, 0x400011, mk [(.BOOT_STAT_STAGE, [], 15)], by decide +kernel⟩,
    ⟨.pelorus 1, true, 0x400010, mk [(.BOOT_STAT_STAGE, [], 15)], by decide +kernel⟩,
    ⟨.fn 0, 0x01020304, { fwAt [] with rcvN := 268 }, by decide +kernel⟩,
    ⟨.fn 0, 0x01020304, fwAt [], by decide +kernel⟩,
    ⟨.fn 0, 0x01020304, { fwAt [(.BOOT_STAT_STAGE, [], 6)] with rcvN := 268 }, by decide +kernel⟩,
    ⟨.fn 0, true, fwAt [], by decide +kernel⟩,
    ⟨.fn 0, true, { fwAt [] with rcvN := 268 }, by decide +kernel⟩,
    ⟨.fn 0, 0x100000, 272, fwAt [(.LS_STAT_LIFECYCLE, [], 2), (.LS_STAT_VKEYS, [], 3)], by decide +kernel,
    by decide +kernel, by decide +kernel, (slotBase_erased _ (by decide +kernel) _).trans (by decide +kernel),
    by decide +kernel, by decide +kernel, by decide +kernel, by decide +kernel⟩,
    ⟨.fn 0, 0x100000, 272, fwAt [(.LS_STAT_LIFECYCLE, [], 2), (.LS_STAT_VKEYS, [], 3)], by decide +kernel,
    by decide +kernel, by decide +kernel, (slotBase_erased _ (by decide +kernel) _).trans (by decide +kernel),
    by decide +kernel, by decide +kernel, by decide +kernel, by decide +kernel, by decide +kernel⟩⟩

theorem witness_ScrubbingAndDvorkenorsMessagesActAndAnswer :
    (∃ (n : Fin 8) (a b : Fin 129) (f : Bool) (g : Nat) (s : State), (s.up n = false ∨ s.rd .PWR_DIE_STAT_PSTATE [n] = 2)) ∧
    (∃ (n : Fin 8) (a b : Fin 129) (f : Bool) (g : Nat) (s : State), (s.scrubRt n).on = false ∧ s.rd .SCRUB_CTL_PERIOD [n] =
    0) ∧
    (∃ (n : Fin 8) (a b : Fin 129) (f : Bool) (k : Nat) (g : Nat) (s : State), s.up n = true ∧ s.rd .PWR_DIE_STAT_PSTATE [n]
    ≠ 2 ∧ (s.scrubRt n).on = false ∧ s.rd .SCRUB_CTL_PERIOD [n] ≠ 0 ∧ s.scrubNext n 0 = some k) ∧
    (∃ (n : Fin 8) (a : Fin 129) (k : Nat) (g : Nat) (s : State), s.up n = true ∧ s.rd .PWR_DIE_STAT_PSTATE [n] ≠ 2 ∧
    (s.scrubRt n).on = true ∧ (s.scrubRt n).sector = k ∧ s.rd .SEC_STATUS_STATE [n, k] = (s.scrubRt n).st0 ∧ (s.sector n
    k).mig = 0 ∧ (s.scrubRt n).frame + 1 < 4846) ∧
    (∃ (n : Fin 8) (a b : Fin 129) (k : Nat) (g : Nat) (s : State), s.up n = true ∧ s.rd .PWR_DIE_STAT_PSTATE [n] ≠ 2 ∧
    (s.scrubRt n).on = true ∧ (s.scrubRt n).sector = k ∧ s.rd .SEC_STATUS_STATE [n, k] = (s.scrubRt n).st0 ∧ (s.sector n
    k).mig = 0 ∧ b ≠ 0 ∧ s.on .SCRUB_CTL_UNC_ACT [n] = false) ∧
    (∃ (n : Fin 8) (a b : Fin 129) (k : Nat) (g : Nat) (s : State), s.up n = true ∧ s.rd .PWR_DIE_STAT_PSTATE [n] ≠ 2 ∧
    (s.scrubRt n).on = true ∧ (s.scrubRt n).sector = k ∧ s.rd .SEC_STATUS_STATE [n, k] = (s.scrubRt n).st0 ∧ s.scrubbable n
    k = true ∧ (s.sector n k).mig = 0 ∧ b ≠ 0 ∧ s.on .SCRUB_CTL_UNC_ACT [n] = true) ∧
    (∃ (n : Fin 8) (a b : Fin 129) (f : Bool) (k l : Nat) (g : Nat) (s : State), s.up n = true ∧ s.rd .PWR_DIE_STAT_PSTATE
    [n] ≠ 2 ∧ (s.scrubRt n).on = true ∧ (s.scrubRt n).sector = k ∧ s.rd .SEC_STATUS_STATE [n, k] ≠ (s.scrubRt n).st0 ∧
    s.scrubNext n (k + 1) = some l) ∧
    (∃ (n : Fin 2048) (m : Mail) (d k : Nat) (s : State), s.fromFn n m 0x0207 = true ∧ m.admin = true ∧ m.body.length = 4 ∧
    m.num 0 4 = d ∧ d < 8 ∧ s.up d = true ∧ (s.scrubRt d).on = false ∧ s.scrubNext d 0 = some k) ∧
    (∃ (n : Fin 2048) (m : Mail) (s : State), s.fromFn n m 0x0207 = true ∧ m.admin = true ∧ m.body.length = 4 ∧ (8 ≤ m.num 0
    4 ∨ s.up (m.num 0 4) = false)) ∧
    (∃ (n : Fin 2048) (m : Mail) (s : State), s.fromFn n m 0x0201 = true ∧ m.body.length = 4) ∧
    (∃ (n : Fin 2048) (m : Mail) (s : State), s.fromFn n m 0x0202 = true ∧ m.body.length = 0) ∧
    (∃ (n : Fin 2048) (m : Mail) (s : State), s.fromFn n m 0x0203 = true ∧ m.body.length = 4) ∧
    (∃ (n : Fin 2048) (m : Mail) (s : State), s.fromFn n m 0x0204 = true ∧ m.admin = true ∧ m.body.length = 8 ∧ s.flashOp =
    none ∧ (s.mail.take n).all (fun x => !x.flash) = true ∧ m.num 0 4 % 65536 = 0 ∧ m.num 4 4 % 65536 = 0 ∧ m.num 4 4 ≠ 0) ∧
    (∃ (n : Fin 2048) (m : Mail) (s : State), s.fromFn n m 0x0204 = true ∧ m.admin = true ∧ m.body.length = 8 ∧ s.flashOp =
    none ∧ (s.mail.take n).all (fun x => !x.flash) = true ∧ (m.num 0 4 % 65536 ≠ 0 ∨ m.num 4 4 % 65536 ≠ 0)) ∧
    (∃ (n : Fin 2048) (m : Mail) (s : State), s.fromFn n m 0x0204 = true ∧ m.admin = false ∧ s.flashOp = none) ∧
    (∃ (n : Fin 2048) (m : Mail) (s : State), s.fromFn n m 0x0205 = true ∧ m.admin = true ∧ s.flashOp = none ∧
    (m.body.length ≤ 4 ∨ 4084 < m.body.length)) ∧
    (∃ (n : Fin 2048) (m : Mail) (o : FlashOp) (s : State), s.fromFn n m 0x0205 = true ∧ m.admin = true ∧ s.flashOp = some o
    ∧ o.m ≠ m ∧ 4 < m.body.length ∧ m.body.length ≤ 4084 ∧ 8 ≤ ((s.mail.take n).filter (fun x => x.flash && decide (x ≠
    o.m))).length) ∧
    (∃ (n : Fin 2048) (m : Mail) (o : FlashOp) (s : State), s.fromFn n m 0x0206 = true ∧ m.admin = true ∧ s.flashOp = some o
    ∧ m.body.length = 40 ∧ ((s.mail.take n).filter (fun x => x.flash && decide (x ≠ o.m))).length < 8) ∧
    (∃ (n : Fin 2048) (m : Mail) (s : State), s.fromFn n m 0x0205 = true ∧ m.admin = true ∧ s.flashOp = none ∧ 4 <
    m.body.length ∧ m.body.length ≤ 4084 ∧ (s.mail.take n).all (fun x => !x.flash) = true) ∧
    (∃ (n : Fin 2048) (m : Mail) (s : State), s.fromFn n m 0x0206 = true ∧ m.admin = true ∧ s.flashOp = none ∧ m.body.length
    = 40 ∧ (s.mail.take n).all (fun x => !x.flash) = true) ∧
    (∃ (o : FlashOp) (s : State), s.flashOp = some o ∧ s.mail.contains o.m = true ∧ o.m.src < 8) ∧
    (∃ (o : FlashOp) (s : State), s.flashOp = some o ∧ o.kind = 0 ∧ 1 < o.left) ∧
    (∃ (o : FlashOp) (s : State), s.flashOp = some o ∧ o.kind = 0 ∧ o.left = 1 ∧ s.mail.contains o.m = true ∧ o.m.src < 8) ∧
    (∃ (o : FlashOp) (s : State), s.flashOp = some o ∧ o.kind = 1 ∧ s.mail.contains o.m = true ∧ o.m.src < 8 ∧ (memBytes
    s.flash o.at_ o.bytes.length 0xFF).all (· == 0xFF) = true) ∧
    (∃ (o : FlashOp) (s : State), s.flashOp = some o ∧ o.kind = 2 ∧ o.bytes.length = 40) ∧
    (∃ (b : Bool) (s : State), s.flashOp = none) :=
  ⟨⟨3, 1, 0, false, 3200, mk [(.SCRUB_CTL_PERIOD, [3], 60)], by decide +kernel⟩,
    ⟨3, 1, 0, false, 3200, mk [up 3, (.SCRUB_CTL_PERIOD, [3], 0)], by decide +kernel⟩,
    ⟨3, 1, 0, false, 5, 3200, mk [up 3, (.SCRUB_CTL_PERIOD, [3], 60), (.SEC_STATUS_STATE, [3, 5], 2)], by decide +kernel⟩,
    ⟨3, 1, 5, 3200,
    { mk [up 3, (.SCRUB_CTL_PERIOD, [3], 60), (.SEC_STATUS_STATE, [3, 5], 2)] with scrub := [([3], { on := true, total := 4846, done := 7, sector := 5, frame := 4844, st0 := 2 })] },
    by decide +kernel⟩,
    ⟨3, 1, 128, 5, 3200,
    { mk [up 3, (.SCRUB_CTL_PERIOD, [3], 60), (.SEC_STATUS_STATE, [3, 5], 3), (.SCRUB_CTL_UNC_ACT, [3], 0)] with scrub := [([3], { on := true, total := 4846, done := 7, sector := 5, frame := 4845, st0 := 3 })] },
    by decide +kernel⟩,
    ⟨3, 1, 1, 5, 3200,
    { mk [up 3, (.SCRUB_CTL_PERIOD, [3], 60), (.SEC_STATUS_STATE, [3, 5], 3), (.SCRUB_CTL_UNC_ACT, [3], 1)] with scrub := [([3], { on := true, total := 4846, done := 7, sector := 5, frame := 7, st0 := 3 })] },
    by decide +kernel⟩,
    ⟨3, 1, 1, true, 5, 39, 3200,
    { mk [up 3, (.SCRUB_CTL_PERIOD, [3], 60), (.SEC_STATUS_STATE, [3, 5], 3), (.SEC_STATUS_STATE, [3, 39], 2)] with scrub := [([3], { on := true, total := 4846, done := 7, sector := 5, frame := 7, st0 := 2 })] },
    by decide +kernel⟩,
    ⟨0, msg 4 0x0207 (natLe 7 4), 7, 0, mailed 4 0x0207 (natLe 7 4) [up 7, (.SEC_STATUS_STATE, [7, 0], 3)],
    by decide +kernel⟩,
    ⟨0, msg 4 0x0207 (natLe 8 4), mailed 4 0x0207 (natLe 8 4) [up 7], by decide +kernel⟩,
    ⟨0, msg 2 0x0201 (natLe 1 4),
    { mailed 2 0x0201 (natLe 1 4) [] with journal := [{ seq := 2, rep := rep 3 }, { seq := 1, rep := rep 3 }] },
    by decide +kernel⟩,
    ⟨0, msg 2 0x0202 [], mailed 2 0x0202 [] [(.TEL_STAT_TEMP, [3], 55)], by decide +kernel⟩,
    ⟨0, msg 2 0x0203 (natLe 3 4), { mailed 2 0x0203 (natLe 3 4) [] with repairs := [[3, 59, 1, 2], [4, 59, 1, 2]] },
    by decide +kernel⟩,
    ⟨0, msg 4 0x0204 (natLe 0x20000 4 ++ natLe 0x20000 4), mailed 4 0x0204 (natLe 0x20000 4 ++ natLe 0x20000 4) [],
    by decide +kernel⟩,
    ⟨0, msg 4 0x0204 (natLe 0x20000 4 ++ natLe 0x8000 4), mailed 4 0x0204 (natLe 0x20000 4 ++ natLe 0x8000 4) [],
    by decide +kernel⟩,
    ⟨0, msg 2 0x0204 (natLe 0x20000 4 ++ natLe 0x20000 4), mailed 2 0x0204 (natLe 0x20000 4 ++ natLe 0x20000 4) [],
    by decide +kernel⟩,
    ⟨0, msg 4 0x0205 (natLe 0x20000 4), mailed 4 0x0205 (natLe 0x20000 4) [], by decide +kernel⟩,
    ⟨8, msg 4 0x0205 (natLe 0x20000 4 ++ [9]), { m := msg 0 0x0204 [], kind := 0 },
    { mailed 4 0x0205 [] [] with mail := List.replicate 8 (msg 0 0x0206 []) ++ [msg 4 0x0205 (natLe 0x20000 4 ++ [9])], flashOp := some { m := msg 0 0x0204 [], kind := 0 } },
    by decide +kernel⟩,
    ⟨7, msg 4 0x0206 (natLe 0 40), { m := msg 0 0x0204 [], kind := 0 },
    { mailed 4 0x0206 [] [] with mail := List.replicate 7 (msg 0 0x0206 []) ++ [msg 4 0x0206 (natLe 0 40)], flashOp := some { m := msg 0 0x0204 [], kind := 0 } },
    by decide +kernel⟩,
    ⟨0, msg 4 0x0205 (natLe 0x20000 4 ++ [9]), mailed 4 0x0205 (natLe 0x20000 4 ++ [9]) [], by decide +kernel⟩,
    ⟨0, msg 4 0x0206 (natLe 7 40), mailed 4 0x0206 (natLe 7 40) [], by decide +kernel⟩,
    ⟨{ m := msg 4 0x0204 [], kind := 0 },
    { mailed 4 0x0204 [] [] with flashOp := some { m := msg 4 0x0204 [], kind := 0 } }, by decide +kernel⟩,
    ⟨{ m := msg 4 0x0204 [], kind := 0, left := 2, at_ := 0x20000 },
    { mailed 4 0x0204 [] [] with flashOp := some { m := msg 4 0x0204 [], kind := 0, left := 2, at_ := 0x20000 } },
    by decide +kernel⟩,
    ⟨{ m := msg 4 0x0204 [], kind := 0, left := 1, at_ := 0x20000 },
    { mailed 4 0x0204 [] [] with flashOp := some { m := msg 4 0x0204 [], kind := 0, left := 1, at_ := 0x20000 } },
    by decide +kernel⟩,
    ⟨{ m := msg 4 0x0205 [], kind := 1, at_ := 0x20000, bytes := [1, 0xFF, 3] },
    { mailed 4 0x0205 [] [] with flashOp := some { m := msg 4 0x0205 [], kind := 1, at_ := 0x20000, bytes := [1, 0xFF, 3] } },
    by decide +kernel⟩,
    ⟨{ m := msg 4 0x0206 [], kind := 2, bytes := natLe 0x1234 40 },
    { mailed 4 0x0206 [] [] with flashOp := some { m := msg 4 0x0206 [], kind := 2, bytes := natLe 0x1234 40 } },
    by decide +kernel⟩,
    ⟨true, mk [], by decide +kernel⟩⟩

theorem witness_ReadsReturnLatchAndClear :
    (∃ (w : Writer) (e : RegEnv) (s : State), s.rd .BOOT_STAT_STAGE [] ≠ 15) ∧
    (∃ (w : Writer) (k : Fin 4) (e : RegEnv) (s : State), s.rd .BOOT_STAT_STAGE [] ≠ 15) ∧
    (∃ (w : Writer) (e : RegEnv) (s : State), s.rd .BOOT_STAT_STAGE [] ≠ 15) ∧
    (∃ (w : Writer) (n : Fin 8) (e : RegEnv) (s : State), s.rd .BOOT_STAT_STAGE [] ≠ 15 ∧ s.up n = true) ∧
    (∃ (w : Writer) (n : Fin 8) (e : RegEnv) (s : State), s.rd .BOOT_STAT_STAGE [] ≠ 15 ∧ s.up n = false) ∧
    (∃ (f : Fin 8) (q : Fin 1024) (e : RegEnv) (s : State), s.rd .BOOT_STAT_STAGE [] ≠ 15 ∧ s.on .HIF_QP_ASSIGN_VALID [q] =
    true ∧ s.rd .HIF_QP_ASSIGN_FN [q] ≠ f.val) ∧
    (∃ (f : Fin 8) (q : Fin 1024) (e : RegEnv) (s : State), s.rd .BOOT_STAT_STAGE [] ≠ 15 ∧ s.rd .HIF_QP_ASSIGN_FN [q] =
    f.val) ∧
    (∃ (w : Writer) (e : RegEnv) (s : State), s.rd .BOOT_STAT_STAGE [] = 15) ∧
    (∃ (w : Writer) (e : Fin 96) (s : State), s.rd .BOOT_STAT_STAGE [] ≠ 15 ∧ s.up (engDie e) = true) ∧
    (∃ (w : Writer) (e : Fin 96) (s : State), s.rd .BOOT_STAT_STAGE [] ≠ 15 ∧ s.up (engDie e) = false) ∧
    (∃ (w : Writer) (e : Fin 96) (s : State), s.rd .BOOT_STAT_STAGE [] ≠ 15 ∧ s.up (engDie e) = true) ∧
    (∃ (w : Writer) (st : Fin 4) (r : Fin 16) (h : Nat) (s : State), s.rd .BOOT_STAT_STAGE [] ≠ 15 ∧ s.up (2 * st) = true ∧
    smGet s.hwm [st.val, r.val] 0 = h) ∧
    (∃ (w : Writer) (l : Fin 224) (rx : List (BitVec 64)) (s : State), s.rd .BOOT_STAT_STAGE [] ≠ 15 ∧ s.up (Reg.site
    .CL_BIT_LO [l]) = true ∧ s.chkRuns false l = false) ∧
    (∃ (w : Writer) (l : Fin 32) (rx : List (BitVec 64)) (s : State), s.rd .BOOT_STAT_STAGE [] ≠ 15 ∧ s.up (Reg.site
    .TR_BIT_LO [l]) = true ∧ s.chkRuns true l = false) ∧
    (∃ (w : Writer) (l : Fin 224) (rx : List (BitVec 64)) (s : State), s.rd .BOOT_STAT_STAGE [] ≠ 15 ∧ s.up (Reg.site
    .CL_BIT_LO [l]) = true ∧ s.chkRuns false l = true) ∧
    (∃ (w : Writer) (s : State), s.rd .BOOT_STAT_STAGE [] ≠ 15) ∧
    (∃ (w : Writer) (a b c d : Nat) (s : State), s.rd .BOOT_STAT_STAGE [] ≠ 15 ∧ s.sxMeas = [a, b, c, d]) :=
  ⟨⟨.fn 2, env0, mk [(.LS_VER_CNT_COUNT, [], 0x12345678), (.BOOT_STAT_STAGE, [], 6)], by decide +kernel⟩,
    ⟨.fn 2, 3, env0, mk [(.LS_VER_CNT_COUNT, [], 0x12345678), (.BOOT_STAT_STAGE, [], 6)], by decide +kernel⟩,
    ⟨.fn 2, env0, mk [(.LS_VER_CNT_COUNT, [], 0x12345678), (.LS_ERR_VALID, [], 1), (.LS_ERR_CODE, [], 7), (.LS_ERR_SOURCE,
    [], 4)], by decide +kernel⟩,
    ⟨.helm 2, 5, env0, mk [up 5, (.SCRUB_UNC_CNT_COUNT, [5], 9)], by decide +kernel⟩,
    ⟨.helm 2, 5, env0, mk [up 4, (.SCRUB_UNC_CNT_COUNT, [5], 9)], by decide +kernel⟩,
    ⟨1, 9, env0, mk [(.HIF_QP_ASSIGN_VALID, [9], 1), (.HIF_QP_ASSIGN_FN, [9], 3), (.HIF_QP_DONE_CNT_COUNT, [9], 5)],
    by decide +kernel⟩,
    ⟨3, 9, env0, mk [(.HIF_QP_ASSIGN_VALID, [9], 1), (.HIF_QP_ASSIGN_FN, [9], 3), (.HIF_QP_DONE_CNT_COUNT, [9], 5)],
    by decide +kernel⟩,
    ⟨.fn 0, env0, mk [(.LS_VER_CNT_COUNT, [], 5), (.BOOT_STAT_STAGE, [], 15)], by decide +kernel⟩,
    ⟨.fn 0, 95, { mk [up 7] with eng := [([95], { steps := 2 ^ 64 + 2 ^ 33 + 5 })] }, by decide +kernel⟩,
    ⟨.fn 0, 95, { mk [] with eng := [([95], { steps := 2 ^ 33 + 5 })] }, by decide +kernel⟩,
    ⟨.fn 0, 95, { mk [up 7] with eng := [([95], { cmp := 2 ^ 33 + 5 })] }, by decide +kernel⟩,
    ⟨.fn 0, 3, 15, 2 ^ 33 + 5, { mk [up 6] with hwm := [([3, 15], 2 ^ 33 + 5)] }, by decide +kernel⟩,
    ⟨.fn 0, 100, [], { mk [up 3] with lane := [([100], { bits := 2 ^ 33 + 5 })] }, by decide +kernel⟩,
    ⟨.fn 0, 17, [], { mk [up 5] with trunk := [([17], { bits := 2 ^ 33 + 5 })] }, by decide +kernel⟩,
    ⟨.fn 0, 25, [0, 5],
    { mk [up 1, (.CL_CTL_EN, [25], 1), (.CL_BND_STAT_STATE, [3], 4), (.CL_PRBS_CHK, [25], 1), (.CL_STAT_CHK_LOCK, [25], 1)] with lane := [([25], { bits := 2 ^ 33 + 5 })] },
    by decide +kernel⟩,
    ⟨.fn 0, { mk [] with local_ := 2 ^ 70 + 12345678901234567890 }, by decide +kernel⟩,
    ⟨.fn 0, 1, 2, 3, 4, { mk [(.SX_MEAS_OFS_LO_VALUE, [], 9)] with sxMeas := [1, 2, 3, 4] }, by decide +kernel⟩⟩

theorem witness_ThePelorusPortOpensOnlyWhatItsLevelHolds :
    (∃ (w : Writer) (n : Fin 8) (v : BitVec 64) (e : RegEnv) (s : State), s.mute w = false ∧ s.rd .BOOT_STAT_STAGE [] ≠ 15 ∧
    s.up n = true ∧ s.rd .PWR_DIE_STAT_PSTATE [n] ≠ 2) ∧
    (∃ (w : Writer) (off : BitVec 25) (b : Nat) (v : BitVec 64) (e : RegEnv) (s : State), (off.toNat % 4 ≠ 0 ∨ (b ≠ 4 ∧ b ≠
    8))) ∧
    (∃ (w : Writer) (n : Fin 8) (v : BitVec 64) (e : RegEnv) (s : State), s.up n = false) ∧
    (∃ (w : Writer) (v : BitVec 64) (e : RegEnv) (s : State), s.mute w = false ∧ s.rd .BOOT_STAT_STAGE [] ≠ 15 ∧ (∀ c : Fin
    8, s.coreState c = 0)) ∧
    (∃ (c : Fin 8) (v : BitVec 64) (e : RegEnv) (s : State), s.rd .BOOT_STAT_STAGE [] ≠ 15) ∧
    (∃ (p : PelSrc) (s : State), s.pelTaken p = true ∧ s.pelLevel (pelPath p) = 0 ∧ s.rd .BOOT_STAT_STAGE [] ≠ 15 ∧ s.rd
    .PEL_ADDR_LO_ADDR [pelPath p] = 0x300064) ∧
    (∃ (p : PelSrc) (s : State), s.pelTaken p = true ∧ 1 ≤ s.pelLevel (pelPath p) ∧ s.rd .BOOT_STAT_STAGE [] ≠ 15 ∧ s.rd
    .PEL_ADDR_LO_ADDR [pelPath p] = 0x300064) ∧
    (∃ (p : PelSrc) (s : State), s.pelTaken p = true ∧ s.rd .BOOT_STAT_STAGE [] ≠ 15 ∧ s.rd .PEL_ADDR_LO_ADDR [pelPath p] =
    0x300050) ∧
    (∃ (p : PelSrc) (s : State), s.mute (pelWriter p) = false ∧ pelReaches p = true ∧ s.on .PEL_STAT_BUSY [pelPath p] =
    true) ∧
    (∃ (p : PelSrc) (e : RegEnv) (s : State), s.pelTaken p = true ∧ s.pelLevel (pelPath p) < 2) ∧
    (∃ (p : PelSrc) (e : RegEnv) (s : State), s.pelTaken p = true ∧ 2 ≤ s.pelLevel (pelPath p) ∧ s.rd .BOOT_STAT_STAGE [] ≠
    15 ∧ s.rd .PEL_ADDR_LO_ADDR [pelPath p] = 0x300064) ∧
    (∃ (p : PelSrc) (e : RegEnv) (s : State), s.pelTaken p = true ∧ s.pelLevel (pelPath p) < 2 ∧ s.rd .BOOT_STAT_STAGE [] ≠
    15) ∧
    (∃ (p : PelSrc) (n : Fin 8) (v : Nat) (e : RegEnv) (s : State), s.pelTaken p = true ∧ 2 ≤ s.pelLevel (pelPath p) ∧ s.rd
    .BOOT_STAT_STAGE [] ≠ 15 ∧ s.up n = true ∧ s.rd .PWR_DIE_STAT_PSTATE [n] ≠ 2 ∧ s.rd .PEL_ADDR_LO_ADDR [pelPath p] =
    Reg.addr .SCRUB_CTL [n] ∧ s.rd .PEL_DATA_LO_DATA [pelPath p] = v) ∧
    (∃ (p : PelSrc) (e : RegEnv) (s : State), s.pelTaken p = true ∧ s.rd .BOOT_STAT_STAGE [] ≠ 15 ∧ s.rd .PEL_ADDR_LO_ADDR
    [pelPath p] = 0x300060) ∧
    (∃ (p : PelSrc) (e : RegEnv) (g x : Nat) (s : State), s.pelTaken p = true ∧ 2 ≤ s.pelLevel (pelPath p) ∧ s.pelAddress p
    = g ∧ (s.gRead binMst g (e.line.toNat, e.rd)).2.1 = 0 ∧ (s.gRead binMst g (e.line.toNat, e.rd)).1 = x) ∧
    (∃ (p : PelSrc) (e : RegEnv) (k : Fin 96) (off : Nat) (s : State), s.pelTaken p = true ∧ 2 ≤ s.pelLevel (pelPath p) ∧
    placeOf (s.pelAddress p) = .window k off ∧ s.up (engDie k) = true) ∧
    (∃ (p : PelSrc) (e : RegEnv) (s : State), s.pelTaken p = true ∧ s.pelLevel (pelPath p) < 2) ∧
    (∃ (p : PelSrc) (e : RegEnv) (g v : Nat) (s : State), s.pelTaken p = true ∧ 2 ≤ s.pelLevel (pelPath p) ∧ s.pelAddress p
    = g ∧ s.rd .PEL_DATA_LO_DATA [pelPath p] + s.rd .PEL_DATA_HI_DATA [pelPath p] * 2 ^ 32 = v ∧ (s.gRead binMst g
    (e.line.toNat, e.rd)).2.1 = 0) ∧
    (∃ (p : PelSrc) (e : RegEnv) (s : State), s.pelTaken p = true ∧ s.pelLevel (pelPath p) < 2) ∧
    (∃ (p : Fin 2) (v : Nat) (s : State), s.on .PEL_STAT_BUSY [p] = true ∧ (s.pelRt p).data = some v ∧ (s.pelRt p).off.all
    (fun a => !s.deadAt a) = true) ∧
    (∃ (p : Fin 2) (s : State), s.on .PEL_STAT_BUSY [p] = true ∧ (s.pelRt p).data = none ∧ (s.pelRt p).off.all (fun a =>
    !s.deadAt a) = true) ∧
    (∃ (p : Fin 2) (a : Nat) (s : State), s.on .PEL_STAT_BUSY [p] = true ∧ (s.pelRt p).off = some a ∧ s.deadAt a = true) ∧
    (∃ (p : Fin 2) (s : State), s.on .PEL_STAT_BUSY [p] = false) ∧
    (∃ (p : PelSrc) (s : State), s.mute (pelWriter p) = false ∧ pelReaches p = true) ∧
    (∃ (a b : Nat) (s : State), 3 ≤ s.pelLevel 0) ∧
    (∃ (a b : Nat) (s : State), s.pelLevel 0 < 3) ∧
    (∃ (a b : Nat) (s : State), 3 ≤ s.pelLevel 0) ∧
    (∃ (a b : Nat) (s : State), 3 ≤ s.pelLevel 0) ∧
    (∃ (s : State), 3 ≤ s.pelLevel 0) ∧
    (∃ (s : State), 3 ≤ s.pelLevel 0) ∧
    (∃ (s : State), s.pelLevel 0 < 3) ∧
    (∃ (c : BitVec 8) (s : State), (c = 0xFF ∨ (8 ≤ c.toNat ∧ c.toNat ≠ 0x20))) ∧
    (∃ (c : BitVec 8) (s : State), 3 ≤ c.toNat ∧ c.toNat ≤ 7 ∧ s.pelLevel 0 < 3) ∧
    (∃ (a b : Nat) (s : State), s.pelLevel 0 < 3) ∧
    (∃ (a b : Nat) (s : State), s.pelLevel 0 < 3) ∧
    (∃ (s : State), s.pelLevel 0 < 3) :=
  ⟨⟨.fn 2, 3, 0xFFFFFFFF00010007, env0, mk [up 3], by decide +kernel⟩,
    ⟨.fn 2, 0x300062, 4, 5, env0, mk [up 3], by decide +kernel⟩,
    ⟨.fn 2, 3, 0x00010007, env0, mk [up 2], by decide +kernel⟩,
    ⟨.fn 0, 0x123456789ABCDEF0, env0, mk [(.BOOT_STAT_STAGE, [], 6)], by decide +kernel⟩,
    ⟨2, 0x80000000, env0, mk [(.LS_ERR_VALID, [], 1), (.LS_ERR_CODE, [], 3)], by decide +kernel⟩,
    ⟨.jtag, mk [(.PEL_ADDR_LO_ADDR, [0], 0x300064)], by decide +kernel⟩,
    ⟨.pcie 4, mk [(.PEL_ADDR_LO_ADDR, [1], 0x300064), (.LS_DBG_STAT_PCIE_LEVEL, [], 1), (.LS_VER_CNT_COUNT, [], 77)],
    by decide +kernel⟩,
    ⟨.pcie 4, mk [(.PEL_ADDR_LO_ADDR, [1], 0x300050), (.LS_DBG_STAT_JTAG_LEVEL, [], 2)], by decide +kernel⟩,
    ⟨.jtag, mk [(.PEL_STAT_BUSY, [0], 1), (.PEL_ADDR_LO_ADDR, [0], 0x300050)], by decide +kernel⟩,
    ⟨.jtag, env0, mk [(.LS_DBG_STAT_JTAG_LEVEL, [], 1), (.PEL_ADDR_LO_ADDR, [0], 0x300064)], by decide +kernel⟩,
    ⟨.jtag, env0, mk [(.LS_DBG_STAT_JTAG_LEVEL, [], 2), (.PEL_ADDR_LO_ADDR, [0], 0x300064), (.LS_VER_CNT_COUNT, [], 77)],
    by decide +kernel⟩,
    ⟨.jtag, env0, mk [(.LS_DBG_STAT_JTAG_LEVEL, [], 1), (.PEL_ADDR_LO_ADDR, [0], 0x300064)], by decide +kernel⟩,
    ⟨.jtag, 3, 0x10007, env0, mk [up 3, (.LS_DBG_STAT_JTAG_LEVEL, [], 2), (.PEL_ADDR_LO_ADDR, [0], 23199760),
    (.PEL_DATA_LO_DATA, [0], 0x10007)], by decide +kernel⟩,
    ⟨.jtag, env0, mk [(.LS_DBG_STAT_JTAG_LEVEL, [], 3), (.PEL_ADDR_LO_ADDR, [0], 0x300060), (.PEL_DATA_LO_DATA, [0],
    0x80000000), (.LS_ERR_VALID, [], 1)], by decide +kernel⟩,
    ⟨.jtag, env0, 8, 0, mk [(.LS_DBG_STAT_JTAG_LEVEL, [], 2), (.PEL_ADDR_LO_ADDR, [0], 8), (.HBM_STAT_STATE, [0], 2),
    (.HBM_CTL_EN, [0], 1), up 0], by decide +kernel⟩,
    ⟨.jtag, env0, 5, 64, mk [(.LS_DBG_STAT_JTAG_LEVEL, [], 2), (.PEL_ADDR_LO_ADDR, [0], 0x500040), (.PEL_ADDR_HI_ADDR, [0],
    0x180), up 0], by decide +kernel⟩,
    ⟨.jtag, env0, mk [(.LS_DBG_STAT_JTAG_LEVEL, [], 1)], by decide +kernel⟩,
    ⟨.jtag, env0, 8, 0x123456789, mk [(.LS_DBG_STAT_JTAG_LEVEL, [], 2), (.PEL_ADDR_LO_ADDR, [0], 8), (.PEL_DATA_LO_DATA,
    [0], 0x23456789), (.PEL_DATA_HI_DATA, [0], 1), (.HBM_STAT_STATE, [0], 2), (.HBM_CTL_EN, [0], 1), up 0],
    by decide +kernel⟩,
    ⟨.jtag, env0, mk [(.LS_DBG_STAT_JTAG_LEVEL, [], 1)], by decide +kernel⟩,
    ⟨1, 2 ^ 33 + 9, { mk [(.PEL_STAT_BUSY, [1], 1)] with pel := [([1], { status := 2, data := some (2 ^ 33 + 9) })] },
    by decide +kernel⟩,
    ⟨1, { mk [(.PEL_STAT_BUSY, [1], 1)] with pel := [([1], { status := 7 })] }, by decide +kernel⟩,
    ⟨1, 23199768,
    { mk [(.PEL_STAT_BUSY, [1], 1), up 2] with pel := [([1], { status := 0, data := some 9, off := some 23199768 })] },
    by decide +kernel⟩,
    ⟨1, mk [], by decide +kernel⟩,
    ⟨.pcie 0, mk [(.LS_DBG_STAT_JTAG_LEVEL, [], 1), (.PEL_BOOTHALT_MASK, [], 3)], by decide +kernel⟩,
    ⟨9, 5, mk [(.LS_DBG_STAT_JTAG_LEVEL, [], 3)], by decide +kernel⟩,
    ⟨9, 5, mk [(.LS_DBG_STAT_JTAG_LEVEL, [], 2)], by decide +kernel⟩,
    ⟨9, 5, mk [(.LS_DBG_STAT_JTAG_LEVEL, [], 3)], by decide +kernel⟩,
    ⟨9, 5, mk [(.LS_DBG_STAT_JTAG_LEVEL, [], 3)], by decide +kernel⟩,
    ⟨mk [(.LS_DBG_STAT_JTAG_LEVEL, [], 3)], by decide +kernel⟩,
    ⟨mk [(.LS_DBG_STAT_JTAG_LEVEL, [], 3)], by decide +kernel⟩,
    ⟨mk [(.LS_DBG_STAT_JTAG_LEVEL, [], 2)], by decide +kernel⟩,
    ⟨0xFF, mk [], by decide +kernel⟩,
    ⟨3, mk [(.LS_DBG_STAT_JTAG_LEVEL, [], 2)], by decide +kernel⟩,
    ⟨9, 5, mk [], by decide +kernel⟩,
    ⟨9, 5, mk [(.LS_DBG_STAT_JTAG_LEVEL, [], 2)], by decide +kernel⟩,
    ⟨mk [(.LS_DBG_STAT_JTAG_LEVEL, [], 2)], by decide +kernel⟩⟩

end Sys2Proof.Tests
end

section
/-! PROOFS. Writes of `SEC_CTL.RESET` by the `STATE` of their sector (R47), over the laws of the draw permits (R391 to R394),
of a steward's queue (R16) and of sector reset and release (R43, R44). -/

namespace Sys2Proof.Machine

/-! ## Draw permits -/

theorem State.wr_gov (s : State) (f : Fld) (i : List Nat) (v g : Nat) : (s.wr f i v).gov g = s.gov g := rfl

theorem State.wr_sector (s : State) (f : Fld) (i : List Nat) (v d k : Nat) : (s.wr f i v).sector d k = s.sector d k := rfl

theorem State.lapseTo_gov (s : State) (t g : Nat) : (s.lapseTo t).gov g = s.gov g := rfl

theorem State.raise_gov (s : State) (r : Reg) (i : List Nat) (rule sev : Nat) (l : List Nat) (g : Nat) :
    (s.raise r i rule sev l).gov g = s.gov g := rfl

/-- A request within the budget joins its governor's queue at the end (R391). -/
theorem State.request_queue_length (s : State) (g op units : Nat) (who : List Nat) (chain : List (List Nat))
    (hfit : units ≤ s.rd .PG_CFG_BUDGET [g]) :
    ((s.request g op units who chain).gov g).queue.length = (s.gov g).queue.length + 1 := by
  simp [State.request, Nat.not_lt.mpr hfit, State.setGov_gov]

/-- A timeout gives no grant (R393). -/
theorem State.expire_ready (s : State) (g : Nat) (p : Permit) (oversize : Bool) (g' : Nat) :
    ((s.expire g p oversize).gov g').ready = (s.gov g').ready := by
  have hgov : ∀ u : State, u.gov = s.gov →
      ((u.setGov g { u.gov g with expired := (u.gov g).expired ++ [p] }).gov g').ready = (s.gov g').ready := by
    intro u hu
    rw [State.setGov_gov]
    split
    · subst g'; rw [hu]
    · rw [hu]
  unfold State.expire
  rw [State.raise_gov]
  apply hgov
  split <;> rfl

/-- A request gives no grant. -/
theorem State.request_ready (s : State) (g op units : Nat) (who : List Nat) (chain : List (List Nat)) (g' : Nat) :
    ((s.request g op units who chain).gov g').ready = (s.gov g').ready := by
  unfold State.request
  dsimp only
  split
  · exact State.expire_ready ..
  · rw [State.setGov_gov]
    split
    · subst g'; rfl
    · rfl

/-- A grant keeps, at every governor, the grants that wait to be acted on. -/
theorem State.grantHead_ready (s : State) (g g' : Nat) : (s.gov g').ready <+: ((s.grantHead g).gov g').ready := by
  have hset : ∀ x : Gov, (s.gov g).ready <+: x.ready →
      ∀ t, (s.gov g').ready <+: ((((s.lapseTo t).setGov g x).bump .PG_GRANT_CNT_COUNT [g]).gov g').ready := by
    intro x hx t
    change _ <+: ((s.setGov g x).gov g').ready
    rw [State.setGov_gov]
    split
    · subst g'; exact hx
    · exact List.prefix_rfl
  unfold State.grantHead
  cases hq : (s.gov g).queue with
  | nil => exact List.prefix_rfl
  | cons p q =>
    dsimp only
    split
    · cases hc : p.chain with
      | nil => exact hset _ (by simp [State.lapseTo_gov]) _
      | cons c r =>
        dsimp only
        rw [State.request_ready]
        exact hset _ (by simp [State.lapseTo_gov]) _
    · exact List.prefix_rfl

/-- The wakes before a release keep the grants that wait to be acted on. -/
theorem State.drive_ready (s : State) (g : Nat) (who : List Nat) (n g' : Nat) :
    (s.gov g').ready <+: ((s.drive g who n).gov g').ready := by
  induction n generalizing s with
  | zero => exact List.prefix_rfl
  | succ n ih =>
    unfold State.drive
    split
    · split
      · exact (s.grantHead_ready g g').trans (ih _)
      · exact List.prefix_rfl
    · exact List.prefix_rfl

/-- The wakes before a release stop at a request that is the last of its chain. -/
theorem State.drive_of_last {s : State} {g : Nat} {p : Permit} {q : List Permit} (hq : (s.gov g).queue = p :: q)
    (hc : p.chain = []) (who : List Nat) (n : Nat) : s.drive g who n = s := by
  cases n <;> simp [State.drive, hq, hc]

/-- A last request that fits gives, once granted, a grant to act on (R391). -/
theorem State.grantHead_gives {s : State} {g : Nat} {p : Permit} {q : List Permit} (hq : (s.gov g).queue = p :: q)
    (hc : p.chain = []) (hfit : s.headFits g = true) {op : Nat} {who : List Nat} (hp : p.is op who = true) :
    ((s.grantHead g).gov g).ready.any (·.is op who) = true := by
  simp only [State.grantHead, hq, hfit, if_true, hc, List.isEmpty_nil]
  unfold State.bump
  rw [State.wr_gov, State.setGov_gov, if_pos rfl, List.any_append]
  simpa [Permit.is] using Or.inr hp

/-- When a requester may act on a grant (R391). -/
theorem State.grantReady_iff {s : State} {g op : Nat} {who : List Nat} :
    s.grantReady g op who = true ↔ (s.gov g).ready.any (·.is op who) = true ∨
      ∃ p q, (s.gov g).queue = p :: q ∧ p.is op who = true ∧ p.chain = [] ∧ s.headFits g = true := by
  unfold State.grantReady
  cases hq : (s.gov g).queue <;> simp [and_assoc]

/-- A requester that may act on its grant takes it. -/
theorem State.takeGrant_of_grantReady {s : State} {g op : Nat} {who : List Nat} (h : s.grantReady g op who = true) :
    ∃ t, s.takeGrant g op who = some t := by
  rw [← Option.isSome_iff_exists]
  unfold State.takeGrant
  by_cases hr : (s.gov g).ready.any (·.is op who) = true
  · simp [hr]
  · obtain ⟨p, q, hq, hp, hc, hfit⟩ := (State.grantReady_iff.mp h).resolve_left hr
    simp [hr, hq, hp, State.grantHead_gives hq hc hfit hp]

/-- A requester that may act on its grant may do so after the wakes before it. -/
theorem State.drive_grantReady {s : State} {g op : Nat} {who : List Nat} (h : s.grantReady g op who = true)
    (who' : List Nat) (n : Nat) : (s.drive g who' n).grantReady g op who = true := by
  rcases State.grantReady_iff.mp h with hr | ⟨p, q, hq, _, hc, _⟩
  · obtain ⟨p, hp, his⟩ := List.any_eq_true.mp hr
    exact State.grantReady_iff.mpr (.inl (List.any_eq_true.mpr ⟨p, (s.drive_ready g who' n g).subset hp, his⟩))
  · rwa [State.drive_of_last hq hc]

/-- Acting on a grant changes no field outside its governor's own. -/
theorem State.takeGrant_rd {s t : State} {g op : Nat} {who : List Nat} (h : s.takeGrant g op who = some t) {f : Fld}
    (hf : hasFld ⟨[.PG_ERR_OP, .PG_ERR_OVERSIZE, .PG_ERR_UNITS, .PG_ERR_VALID, .PG_GRANT_CNT_COUNT, .PG_TO_CNT_COUNT],
      [], [], false⟩ f = false) (i : List Nat) : t.rd f i = s.rd f i :=
  State.takeGrant_keeps (Keeps.rd hf i (s.rd f i)) s g op who rfl h

/-! ## A steward's queue -/

/-- A report joins a steward's queue that has room and owes no count (R16). -/
theorem State.push_queue {s : State} {n : Nat} {r : Report} (hroom : (s.steward n).queue.length < 256)
    (hlost : (s.steward n).lost = 0) (hfull : (s.steward n).lostFull = 0) :
    ((s.push n r).steward n).queue = (s.steward n).queue ++ [r] := by
  have hspill : ∀ mk, (s.steward n).spill mk = s.steward n := by
    intro mk
    cases hq : s.steward n with
    | mk queue lost lostFull =>
      rw [hq] at hlost hfull
      simp_all [Steward.spill]
  unfold State.push
  dsimp only
  rw [State.setSteward_steward, if_pos rfl, hspill, ite_self]
  simp [Steward.push, hroom, hlost, hfull]

/-- An event is queued at a steward that has room and owes no count (R16). -/
theorem State.raise_queue_length {s : State} {r : Reg} {i : List Nat} (rule sev : Nat) (l : List Nat)
    (hroom : (s.steward (r.site i)).queue.length < 256) (hlost : (s.steward (r.site i)).lost = 0)
    (hfull : (s.steward (r.site i)).lostFull = 0) :
    ((s.raise r i rule sev l).steward (r.site i)).queue.length = (s.steward (r.site i)).queue.length + 1 := by
  unfold State.raise
  dsimp only
  rw [State.push_queue hroom hlost hfull, List.length_append, List.length_singleton]

/-! ## Sector reset and release -/

theorem secCtlReset_width : (Fld.spec .SEC_CTL_RESET).width = 1 := by decide +kernel
theorem secStatusState_width : (Fld.spec .SEC_STATUS_STATE).width = 3 := by decide +kernel
theorem secStatusIsolated_width : (Fld.spec .SEC_STATUS_ISOLATED).width = 1 := by decide +kernel
theorem secStatusPermitWait_width : (Fld.spec .SEC_STATUS_PERMIT_WAIT).width = 1 := by decide +kernel
theorem secStatusResetHeld_width : (Fld.spec .SEC_STATUS_RESET_HELD).width = 1 := by decide +kernel

/-- In sector reset `STATE` reads 2, `ISOLATED` and `RESET` read 1 (R43). -/
theorem State.sectorReset_fields (s : State) (d k : Nat) :
    (s.sectorReset d k).rd .SEC_CTL_RESET [d, k] = 1 ∧ (s.sectorReset d k).rd .SEC_STATUS_STATE [d, k] = 2 ∧
      (s.sectorReset d k).rd .SEC_STATUS_ISOLATED [d, k] = 1 := by
  simp [State.sectorReset, secCtlReset_width, secStatusState_width, secStatusIsolated_width]

/-- In sector reset the trees are gated, the flip-flops at their initial values and the bridges stopped (R43). -/
theorem State.sectorReset_sector (s : State) (d k : Nat) :
    ((s.sectorReset d k).sector d k).gated = true ∧ ((s.sectorReset d k).sector d k).ffInit = true ∧
      ((s.sectorReset d k).sector d k).bridges = false := by
  unfold State.sectorReset
  simp [State.wr_sector, State.setSector_sector]

/-- A sector that runs reads `STATE` 3 (R44). -/
theorem State.sectorRun_state (s : State) (d k : Nat) : (s.sectorRun d k).rd .SEC_STATUS_STATE [d, k] = 3 := by
  simp [State.sectorRun, secStatusState_width]

/-- A release is asked for with one more request at the die's governor, for the permit or for the first wake (R44, R396). -/
theorem State.askRelease_queue_length {s : State} {d k : Nat} (hfit : 1 ≤ s.rd .PG_CFG_BUDGET [d]) :
    ((s.askRelease d k).gov d).queue.length = (s.gov d).queue.length + 1 := by
  have hfit' : 1 ≤ (s.wr .SEC_STATUS_PERMIT_WAIT [d, k] 1).rd .PG_CFG_BUDGET [d] := by simpa using hfit
  unfold State.askRelease
  dsimp only
  split <;> rw [State.request_queue_length _ _ _ _ _ _ hfit', State.wr_gov]

/-- A sector whose release is asked for reads `PERMIT_WAIT` 1 (R44). -/
theorem State.askRelease_wait (s : State) (d k : Nat) :
    (s.askRelease d k).rd .SEC_STATUS_PERMIT_WAIT [d, k] = 1 := by
  unfold State.askRelease
  dsimp only
  split <;> (rw [State.request_rd _ _ _ _ _ _ (by decide +kernel)]; simp [secStatusPermitWait_width])

/-- Once a release is asked for, `RESET` and `STATE` of the sector read as before. -/
theorem State.askRelease_keeps_control (s : State) (d k : Nat) :
    (s.askRelease d k).rd .SEC_CTL_RESET [d, k] = s.rd .SEC_CTL_RESET [d, k] ∧
      (s.askRelease d k).rd .SEC_STATUS_STATE [d, k] = s.rd .SEC_STATUS_STATE [d, k] :=
  ⟨s.askRelease_rd d k (by decide +kernel), s.askRelease_rd d k (by decide +kernel)⟩

/-! ## The commands -/

/-- A write changes no field but the one written. -/
theorem State.wr_sameFields (s : State) (f : Fld) (i : List Nat) (v : Nat) : SameFields s (s.wr f i v) [(f, i)] :=
  fun _ _ h => State.rd_wr_ne h

/-- What a write of `RESET` = 1 that reaches its sector does, by `STATE`. -/
theorem exec_sectorReset {w : Writer} {d : Fin 8} {k : Fin 40} {s : State} (h : s.reaches w .SEC_CTL [d, k] = true) :
    exec (.sectorReset w d k) s = .next
      (if s.rd .SEC_STATUS_STATE [d, k] = 3 then (s.wr .SEC_CTL_RESET [d, k] 1).sectorReset d k
      else if s.rd .SEC_STATUS_STATE [d, k] = 4 then
        (s.wr .SEC_CTL_RESET [d, k] 1).wr .SEC_STATUS_RESET_HELD [d, k] 1
      else s.wr .SEC_CTL_RESET [d, k] 1) := by
  change execSectorReset w d k s = _
  unfold execSectorReset
  rw [State.reach_of h]
  simp

/-- What a write of `RESET` = 0 that reaches its sector does, by `STATE`. -/
theorem exec_sectorReleaseRequest {w : Writer} {d : Fin 8} {k : Fin 40} {s : State}
    (h : s.reaches w .SEC_CTL [d, k] = true) :
    exec (.sectorReleaseRequest w d k) s = .next
      (if s.rd .SEC_STATUS_STATE [d, k] = 0 ∨ s.rd .SEC_STATUS_STATE [d, k] = 5 then
        (s.wr .SEC_CTL_RESET [d, k] 0).raise .SEC_CTL [d, k] 47 2 [k, s.rd .SEC_STATUS_STATE [d, k]]
      else if s.rd .SEC_STATUS_STATE [d, k] = 2 ∧ s.rd .SEC_STATUS_PERMIT_WAIT [d, k] = 0 then
        (s.wr .SEC_CTL_RESET [d, k] 0).askRelease d k
      else s.wr .SEC_CTL_RESET [d, k] 0) := by
  change execSectorReleaseRequest w d k s = _
  unfold execSectorReleaseRequest
  rw [State.reach_of h]
  simp

/-- A waiting sector in `STATE` 2 takes the grant of its release permit and runs (R44). -/
theorem exec_sectorRelease_granted {d : Fin 8} {k : Fin 40} {edge : Nat} {s : State}
    (hst : s.rd .SEC_STATUS_STATE [d, k] = 2) (hwait : s.rd .SEC_STATUS_PERMIT_WAIT [d, k] = 1)
    (hgrant : s.grantReady d 4 [d, k] = true) (hedge : s.edgeOk d k edge = true) :
    ∃ t, (s.drive d [d, k] 4).takeGrant d 4 [d, k] = some t ∧
      exec (.sectorRelease d k edge) s = .next ((t.lapse edge).sectorRun d k) := by
  obtain ⟨t, ht⟩ := State.takeGrant_of_grantReady (State.drive_grantReady hgrant [d, k] 4)
  refine ⟨t, ht, ?_⟩
  change execSectorRelease d k edge s = _
  unfold execSectorRelease
  rw [if_pos ⟨hst, hwait, hedge⟩, ht]

/-- A migration whose sector has a reset held ends in sector reset at the grant (R47, R61). -/
theorem exec_migrationRestart_held {d : Fin 8} {k : Fin 40} {s : State} (hst : s.rd .SEC_STATUS_STATE [d, k] = 4)
    (hmig : (s.sector d k).mig = 5) (hgrant : s.grantReady d 4 [d, k] = true)
    (hheld : s.rd .SEC_STATUS_RESET_HELD [d, k] = 1) :
    ∃ t, s.takeGrant d 4 [d, k] = some t ∧ exec (.migrationRestart d k) s = .next ((t.sectorReset d k).remapDone d k) := by
  obtain ⟨t, ht⟩ := State.takeGrant_of_grantReady hgrant
  have hheld' : t.on .SEC_STATUS_RESET_HELD [d, k] = true := by
    simp [State.on, State.takeGrant_rd ht (f := .SEC_STATUS_RESET_HELD) (by decide +kernel), hheld]
  refine ⟨t, ht, ?_⟩
  change execMigrationRestart d k s = _
  unfold execMigrationRestart
  rw [if_pos ⟨hst, hmig⟩, ht]
  simp [hheld']

/-- Settles O14, clause by clause of the table of R47. -/
theorem sectorResetWritesActByState : Obligations.SectorResetWritesActByState := by
  unfold Obligations.SectorResetWritesActByState
  refine ⟨?stored1, ?entered, ?held, ?stored0, ?logged, ?asked, ?waits, ?released, ?migrated⟩
  case stored1 =>
    intro w d k s h hst
    have h3 : s.rd .SEC_STATUS_STATE [d, k] ≠ 3 := by intro e; simp [e] at hst
    have h4 : s.rd .SEC_STATUS_STATE [d, k] ≠ 4 := by intro e; simp [e] at hst
    rw [exec_sectorReset h, if_neg h3, if_neg h4]
    exact ex_next ⟨by simp [secCtlReset_width], s.wr_sameFields _ _ _, rfl, rfl⟩
  case entered =>
    intro w d k s h hst
    rw [exec_sectorReset h, if_pos hst]
    obtain ⟨hreset, hstate, hiso⟩ := (s.wr .SEC_CTL_RESET [d, k] 1).sectorReset_fields d k
    exact ex_next ⟨hreset, hstate, hiso, State.sectorReset_sector ..⟩
  case held =>
    intro w d k s h hst
    rw [exec_sectorReset h, if_neg (by omega), if_pos hst]
    refine ex_next ⟨by simp [secStatusResetHeld_width], by simpa using hst, fun f i hfi => ?_⟩
    rw [State.rd_wr_ne (List.not_mem_of_not_mem_cons hfi), State.rd_wr_ne hfi]
  case stored0 =>
    intro w d k s h hst
    have h05 : ¬ (s.rd .SEC_STATUS_STATE [d, k] = 0 ∨ s.rd .SEC_STATUS_STATE [d, k] = 5) := by
      rintro (e | e) <;> simp [e] at hst
    have h2 : ¬ (s.rd .SEC_STATUS_STATE [d, k] = 2 ∧ s.rd .SEC_STATUS_PERMIT_WAIT [d, k] = 0) := by
      rintro ⟨e, -⟩; simp [e] at hst
    rw [exec_sectorReleaseRequest h, if_neg h05, if_neg h2]
    exact ex_next ⟨by simp, s.wr_sameFields _ _ _, rfl, rfl⟩
  case logged =>
    intro w d k s h hst
    have h05 : s.rd .SEC_STATUS_STATE [d, k] = 0 ∨ s.rd .SEC_STATUS_STATE [d, k] = 5 := by simpa using hst
    rw [exec_sectorReleaseRequest h, if_pos h05]
    refine ex_next ⟨?_, fun f i hfi => ?_, rfl, rfl, fun hroom hlost hfull => ?_⟩
    · rw [State.raise_rd _ _ _ _ _ _ rfl]; simp
    · rw [State.raise_rd _ _ _ _ _ _ rfl]; exact State.rd_wr_ne hfi
    · exact State.raise_queue_length (s := s.wr .SEC_CTL_RESET [d, k] 0) (r := .SEC_CTL) (i := [d, k]) 47 2 _ hroom hlost hfull
  case asked =>
    intro w d k s h hst hwait hfit
    rw [exec_sectorReleaseRequest h, if_neg (by omega), if_pos ⟨hst, hwait⟩]
    obtain ⟨hreset, hstate⟩ := (s.wr .SEC_CTL_RESET [d, k] 0).askRelease_keeps_control d k
    exact ex_next ⟨by rw [hreset]; simp, by rw [hstate]; simpa using hst, State.askRelease_wait ..,
      State.askRelease_queue_length (by simpa using hfit)⟩
  case waits =>
    intro w d k s h hst hwait
    rw [exec_sectorReleaseRequest h, if_neg (by omega), if_neg (by omega)]
    exact ex_next ⟨by simp, s.wr_sameFields _ _ _, rfl, rfl⟩
  case released =>
    intro d k edge s hst hwait hgrant hedge
    obtain ⟨t, -, ht⟩ := exec_sectorRelease_granted hst hwait hgrant hedge
    exact ⟨_, ht, State.sectorRun_state ..⟩
  case migrated =>
    intro d k s hst hmig hgrant hheld
    obtain ⟨t, -, ht⟩ := exec_migrationRestart_held hst hmig hgrant hheld
    obtain ⟨-, hstate, -⟩ := t.sectorReset_fields d k
    exact ⟨_, ht, by rw [State.remapDone_rd _ _ _ (by decide +kernel), hstate]⟩

end Sys2Proof.Machine
end

section
/-! PROOFS. The step whose word is illegal (R107), over the laws of what a fault of an engine leaves as it was (R133). -/

namespace Sys2Proof.Machine

/-! ## What of a run stays -/

/-- From `s` to `t` the output FIFO, the compare queue and the two stacks of engine `e`, the operations on their way to the
fix points, and every register field but those of the list stay. -/
def State.SameRun (s t : State) (e : Nat) (l : List (Fld × List Nat)) : Prop :=
  (t.engine e).out = (s.engine e).out ∧ (t.engine e).cq = (s.engine e).cq ∧ (t.engine e).lstack = (s.engine e).lstack ∧
    (t.engine e).cstack = (s.engine e).cstack ∧ t.fixq = s.fixq ∧ SameFields s t l

theorem State.SameRun.refl (s : State) (e : Nat) (l : List (Fld × List Nat)) : s.SameRun s e l :=
  ⟨rfl, rfl, rfl, rfl, rfl, fun _ _ _ => rfl⟩

section
variable {s t : State} {e : Nat} {l : List (Fld × List Nat)}

/-- A write of a field of the list changes nothing else. -/
theorem State.SameRun.wr (h : s.SameRun t e l) {f : Fld} {i : List Nat} (hf : (f, i) ∈ l) (v : Nat) :
    s.SameRun (t.wr f i v) e l := by
  obtain ⟨hout, hcq, hlstack, hcstack, hfixq, hfields⟩ := h
  refine ⟨hout, hcq, hlstack, hcstack, hfixq, fun g j hg => ?_⟩
  have hne : ¬ (f = g ∧ i = j) := fun ⟨hfg, hij⟩ => hg (hfg ▸ hij ▸ hf)
  rw [State.rd_wr, if_neg hne, hfields g j hg]

/-- New run-time data of the engine that have its queues and stacks. -/
theorem State.SameRun.setEngine (h : s.SameRun t e l) {r : EngRt} (hout : r.out = (t.engine e).out)
    (hcq : r.cq = (t.engine e).cq) (hlstack : r.lstack = (t.engine e).lstack) (hcstack : r.cstack = (t.engine e).cstack) :
    s.SameRun (t.setEngine e r) e l := by
  obtain ⟨hout', hcq', hlstack', hcstack', hfixq, hfields⟩ := h
  have hr : (t.setEngine e r).engine e = r := by rw [State.setEngine_engine, if_pos rfl]
  refine ⟨?_, ?_, ?_, ?_, hfixq, fun g j hg => (State.setEngine_rd _ _ _ rfl).trans (hfields g j hg)⟩
  · rw [hr, hout, hout']
  · rw [hr, hcq, hcq']
  · rw [hr, hlstack, hlstack']
  · rw [hr, hcstack, hcstack']

theorem State.SameRun.engReturn (h : s.SameRun t e l) : s.SameRun (t.engReturn e) e l := h

theorem State.SameRun.raise (h : s.SameRun t e l) (r : Reg) (i : List Nat) (rule sev : Nat) (d : List Nat) :
    s.SameRun (t.raise r i rule sev d) e l := h

/-- The timer that runs again touches none of it (R103). -/
theorem State.SameRun.tmrRun (h : s.SameRun t e l) : s.SameRun (t.tmrRun e) e l := by
  unfold State.tmrRun
  dsimp only
  split
  · exact h
  · exact h.setEngine rfl rfl rfl rfl

end

/-! ## The fault -/

theorem engStatusState_width : (Fld.spec .ENG_STATUS_STATE).width = 4 := by decide +kernel
theorem engFaultCode_width : (Fld.spec .ENG_FAULT_CODE).width = 5 := by decide +kernel
theorem engFaultPc_width : (Fld.spec .ENG_FAULT_PC).width = 14 := by decide +kernel
theorem engFaultValid_width : (Fld.spec .ENG_FAULT_VALID).width = 1 := by decide +kernel

/-- The fields that record a fault of engine `e` (R133, R134). -/
def engFaultFields (e : Nat) : List (Fld × List Nat) :=
  [(.ENG_STATUS_STATE, [e]), (.ENG_FAULT_CODE, [e]), (.ENG_FAULT_DETAIL, [e]), (.ENG_FAULT_PC, [e]), (.ENG_FAULT_VALID, [e])]

/-- A fault changes the fields that record it and nothing else of the run (R133). -/
theorem State.SameRun.engFault {s t : State} {e : Nat} (h : s.SameRun t e (engFaultFields e)) (code detail pc : Nat) :
    s.SameRun (t.engFault e code detail pc) e (engFaultFields e) := by
  unfold State.engFault
  refine State.SameRun.raise (State.SameRun.wr ?recorded (by simp [engFaultFields]) 8) _ _ _ _ _
  refine .wr (.wr (.wr (.wr ?ended ?_ code) ?_ detail) ?_ pc) ?_ 1
  case ended => exact h.engReturn.setEngine rfl rfl rfl rfl
  all_goals simp [engFaultFields]

/-- What the fields that record a fault read (R133, R134). -/
theorem State.engFault_records (s : State) (e code detail pc : Nat) :
    (s.engFault e code detail pc).estate e = 8 ∧
      (s.engFault e code detail pc).rd .ENG_FAULT_CODE [e] = code % 2 ^ 5 ∧
      (s.engFault e code detail pc).rd .ENG_FAULT_VALID [e] = 1 ∧
      (s.engFault e code detail pc).rd .ENG_FAULT_PC [e] = pc % 2 ^ 14 := by
  unfold State.engFault State.estate
  simp [State.raise_rd, hasFld, engStatusState_width, engFaultCode_width, engFaultPc_width, engFaultValid_width]

/-! ## The step -/

/-- An instruction word is read from the local windows alone (R97). -/
theorem State.instrWord_of_win {s t : State} (h : t.win = s.win) (e pc : Nat) : t.instrWord e pc = s.instrWord e pc := by
  simp only [State.instrWord, State.winRead, h]

theorem State.tmrRun_win (s : State) (e : Nat) : (s.tmrRun e).win = s.win :=
  State.tmrRun_keeps (Keeps.part (p := .win) (by decide +kernel) (by decide) s) s e rfl

/-- A step whose word is illegal does nothing but fault (R107). -/
theorem State.stepBegin_of_illegal {s : State} {e : Nat}
    (h : illegalWord (s.instrWord e (s.rd .ENG_PC_CUR [e])) = true) :
    s.stepBegin e = s.engFault e 1 0 (s.rd .ENG_PC_CUR [e]) := by
  unfold State.stepBegin
  exact if_pos h

/-- A paused engine as a STEP command has it begin its step (R103). -/
def State.stepOnce (s : State) (e : Nat) : State :=
  let s := (s.tmrRun e).wr .ENG_STATUS_STATE [e] 3
  s.setEngine e { s.engine e with single := true }

/-- An engine that begins a single step finds the instruction words it was paused with. -/
theorem State.stepOnce_word (s : State) (e pc : Nat) : (s.stepOnce e).instrWord e pc = s.instrWord e pc :=
  State.instrWord_of_win (t := s.stepOnce e) (s.tmrRun_win e) e pc

theorem State.stepOnce_pc (s : State) (e : Nat) : (s.stepOnce e).rd .ENG_PC_CUR [e] = s.rd .ENG_PC_CUR [e] := by
  unfold State.stepOnce
  simp [State.setEngine_rd, State.tmrRun_rd, hasFld]

/-- An engine that begins a single step is in `STATE` 3 and otherwise where it was paused. -/
theorem State.stepOnce_sameRun (s : State) (e : Nat) : s.SameRun (s.stepOnce e) e (engFaultFields e) :=
  State.SameRun.setEngine (.wr (State.SameRun.tmrRun (.refl s e _)) (by simp [engFaultFields]) 3) rfl rfl rfl rfl

/-! ## The commands -/

/-- A STEP command that reaches a paused engine begins one step (R103). -/
theorem exec_engCmdStep {w : Writer} {e : Fin 96} {s : State} (h : s.reaches w .ENG_CTL [e] = true) (hst : s.estate e = 5) :
    exec (.engCmdStep w e) s = .next ((s.stepOnce e).stepBegin e) := by
  change execEngCmdStep w e s = _
  unfold execEngCmdStep State.engCmd
  rw [State.reach_of h, if_pos (by simp [hst])]
  rfl

/-- The rows of the operations 0 to 14 of the control slot, in the order of their codes (R108). -/
def controlRows (e : Fin 96) : List Instr :=
  [.engNop e, .loop_ e, .jmp e, .br e, .call e, .ret e, .wait_ e, .drain e, .sync_ e, .waitt e, .setl e, .strm e, .rate e,
    .evt e, .halt e]

/-- The row of an operation begins the step whose word holds it. -/
theorem exec_controlRow {e : Fin 96} {k : Fin 15} {s : State} (h : s.atStep e k = true) :
    exec ((controlRows e).getD k (.engNop e)) s = .next (s.stepBegin e) := by
  have hrow : exec ((controlRows e).getD k (.engNop e)) s = .next (s.runOp e k) := by fin_cases k <;> rfl
  rw [hrow, State.runOp, if_pos h]

/-- Settles O20: both commands come to `State.stepBegin`, which faults before it does anything else. -/
theorem illegalWordFaultsBeforeAnyEffect : Obligations.IllegalWordFaultsBeforeAnyEffect := by
  unfold Obligations.IllegalWordFaultsBeforeAnyEffect
  refine ⟨?paused, ?running⟩
  case paused =>
    intro w e s hreach hst hill
    rw [exec_engCmdStep hreach hst, State.stepBegin_of_illegal (by rwa [State.stepOnce_pc, State.stepOnce_word]),
      State.stepOnce_pc]
    obtain ⟨hstate, hcode, hvalid, hpc⟩ := (s.stepOnce e).engFault_records e 1 0 (s.rd .ENG_PC_CUR [e])
    exact ex_next ⟨hstate, hcode, hvalid, hpc, (s.stepOnce_sameRun e).engFault 1 0 _⟩
  case running =>
    intro e k s hstep _ hill
    obtain ⟨hstate, hcode, hvalid, hpc⟩ := s.engFault_records e 1 0 (s.rd .ENG_PC_CUR [e])
    have hexec := exec_controlRow hstep
    rw [State.stepBegin_of_illegal hill] at hexec
    exact ⟨_, hexec, hstate, hcode, hvalid, hpc, (State.SameRun.refl s e _).engFault 1 0 _⟩

end Sys2Proof.Machine
end

section
/-! PROOFS. The resolution of an expectation that was compared or timed out (R142), over the laws of what its counts, its
tallies and its record leave of the engine (R151, R155, R301). -/

namespace Sys2Proof.Machine

/-! ## Run-time data of an engine -/

theorem State.engine_of_eng {s t : State} (h : t.eng = s.eng) (e : Nat) : t.engine e = s.engine e := by
  simp only [State.engine, h]

theorem State.wr_engine (s : State) (f : Fld) (i : List Nat) (v e : Nat) : (s.wr f i v).engine e = s.engine e := rfl

theorem State.bump_engine (s : State) (f : Fld) (i : List Nat) (n e : Nat) : (s.bump f i n).engine e = s.engine e := rfl

/-- A tally of the bitmap RAM is held or applied (R155, R156); the engine notes no more than what is held. -/
theorem State.tallyOp_engine (s : State) (e : Nat) (row : Bool) (ix n : Nat) :
    ∃ held, (s.tallyOp e row ix n).engine e = { s.engine e with bmHeld := held } := by
  unfold State.tallyOp
  split
  · exact ⟨_, by rw [State.setEngine_engine, if_pos rfl]⟩
  · exact ⟨(s.engine e).bmHeld, State.engine_of_eng
      (State.tally_keeps (Keeps.part (p := .eng) rfl (by decide) s) s e row ix n rfl) e⟩

/-- The tallies of a failing expectation change nothing of the engine but the updates it holds (R155, R156). -/
theorem State.bitmapUpdate_engine (s : State) (e aw nbits : Nat) :
    ∃ held, (s.bitmapUpdate e aw nbits).engine e = { s.engine e with bmHeld := held } := by
  have keep : ∀ t : State, (∃ held, t.engine e = { s.engine e with bmHeld := held }) → ∀ (row : Bool) (w ix n : Nat),
      ∃ held, (if w = 0 then t else t.tallyOp e row ix n).engine e = { s.engine e with bmHeld := held } := by
    rintro t ⟨held, ht⟩ row w ix n
    split
    · exact ⟨held, ht⟩
    · obtain ⟨held', ht'⟩ := t.tallyOp_engine e row ix n
      exact ⟨held', by rw [ht', ht]⟩
  unfold State.bitmapUpdate
  split
  · exact keep _ (keep s ⟨_, rfl⟩ true _ _ _) false _ _ _
  · exact ⟨_, rfl⟩

/-! ## The counts of a failing expectation -/

theorem fcFailCntCount_width : (Fld.spec .FC_FAIL_CNT_COUNT).width = 32 := rfl
theorem engStatusFail_width : (Fld.spec .ENG_STATUS_FAIL).width = 1 := rfl

/-- The counters of engine `e` and of its slices once an expectation failed with the bits `f` (R159). -/
def State.failCounters (s : State) (e f : Nat) : State :=
  (List.range 4).foldl (fun s j => if sliceBad f j then s.bump .FC_SLICE_FAIL_COUNT [e, j] else s)
    (s.bump .FC_FAIL_CNT_COUNT [e])

/-- What an expectation that fails counts: its counters, its tallies and `FAIL`. -/
theorem State.countFail_eq (s : State) (e : Nat) (x : Expn) (f : Nat) : s.countFail e x f =
    ((s.failCounters e f).bitmapUpdate e x.aw (ones f 512)).wr .ENG_STATUS_FAIL [e] 1 := rfl

theorem State.failCounters_engine (s : State) (e f : Nat) : (s.failCounters e f).engine e = s.engine e :=
  rel_foldl (R := fun t => t.engine e = s.engine e) (fun t j h => by split <;> exact h) _ rfl

theorem State.failCounters_failCnt (s : State) (e f : Nat) :
    (s.failCounters e f).rd .FC_FAIL_CNT_COUNT [e] = min (s.rd .FC_FAIL_CNT_COUNT [e] + 1) 0xFFFFFFFF := by
  refine rel_foldl (R := fun t => t.rd .FC_FAIL_CNT_COUNT [e] = _) (fun t j h => ?slice) _ ?count
  case slice =>
    split
    · rw [State.bump_rd _ _ _ _ rfl, h]
    · exact h
  case count => simp [State.bump_same, fcFailCntCount_width]

/-- The counts of a failing expectation change nothing of the engine but the bitmap updates it holds. -/
theorem State.countFail_engine (s : State) (e : Nat) (x : Expn) (f : Nat) :
    ∃ held, (s.countFail e x f).engine e = { s.engine e with bmHeld := held } := by
  obtain ⟨held, h⟩ := (s.failCounters e f).bitmapUpdate_engine e x.aw (ones f 512)
  exact ⟨held, by rw [State.countFail_eq, State.wr_engine, h, State.failCounters_engine]⟩

/-- `FC_FAIL_CNT` counts a failing expectation and stops at its maximum (R142, R159). -/
theorem State.countFail_failCnt (s : State) (e : Nat) (x : Expn) (f : Nat) :
    (s.countFail e x f).rd .FC_FAIL_CNT_COUNT [e] = min (s.rd .FC_FAIL_CNT_COUNT [e] + 1) 0xFFFFFFFF := by
  rw [State.countFail_eq, State.rd_wr_fld _ _ _ _ _ _ (by decide), State.bitmapUpdate_rd _ _ _ _ rfl,
    State.failCounters_failCnt]

theorem State.countFail_fail (s : State) (e : Nat) (x : Expn) (f : Nat) :
    (s.countFail e x f).rd .ENG_STATUS_FAIL [e] = 1 := by
  simp [State.countFail_eq, engStatusFail_width]

/-! ## The record of a failing expectation -/

/-- A record that is due and finds room enters the fail FIFO with the fail bits F (R151). -/
theorem State.failRecord_engine {s : State} {e : Nat} (hroom : (s.engine e).ff.length < 4096)
    (hdue : (s.engine e).recs < s.rd .FC_REC_MAX_MAX [e]) (x : Expn) (q : Resolution) (first : Bool) :
    ∃ rec_, rec_.f = failBits x q ∧ (s.failRecord e x q first).engine e =
      { s.engine e with ff := (s.engine e).ff ++ [rec_], recs := (s.engine e).recs + 1, dropped := false } := by
  have hfull : s.ffFull e = false := by simpa [State.ffFull] using hroom
  unfold State.failRecord
  rw [if_neg (Nat.not_le.mpr hdue), hfull]
  exact ⟨_, rfl, by rw [if_neg Bool.false_ne_true, State.setEngine_engine, if_pos rfl]⟩

/-! ## The resolution -/

/-- An expectation that is checked fails when it timed out or when (R ^ E) & M is not 0 (R142). -/
theorem failsIt_iff {x : Expn} {q : Resolution} (hchecked : q.unchecked = false) :
    failsIt x q = true ↔ q.timeout = true ∨ (q.r ^^^ x.e) &&& x.m ≠ 0 := by
  cases hq : q.timeout <;> simp [failsIt, failBits, hchecked, hq]

/-- The lanes' own compare counts, which the straight path alone keeps (R301). -/
def State.compareLanes (s : State) (e : Nat) (x : Expn) (f : Nat) : State :=
  if s.dest e = 2 then s.laneCounts e x f else s

theorem State.compareLanes_engine (s : State) (e : Nat) (x : Expn) (f : Nat) :
    (s.compareLanes e x f).engine e = s.engine e := by
  unfold State.compareLanes
  split
  · exact State.engine_of_eng
      (State.laneCounts_keeps (Keeps.part (p := .eng) rfl (by decide) s) s e x f rfl) e
  · rfl

theorem State.compareLanes_rd (s : State) (e : Nat) (x : Expn) (f : Nat) {g : Fld} {i : List Nat}
    (hg : hasFld ⟨[.CL_ERR_CNT_COUNT], [], [], false⟩ g = false) : (s.compareLanes e x f).rd g i = s.rd g i := by
  unfold State.compareLanes
  split
  · exact s.laneCounts_rd e x f hg
  · rfl

/-- What a failing expectation leaves in the fail capture: its counts and its record. -/
def State.captureFail (s : State) (e : Nat) (x : Expn) (q : Resolution) (first : Bool) : State :=
  let s := (s.countFail e x (failBits x q)).failRecord e x q first
  s.setEngine e { s.engine e with anyFail := true }

/-- A failing expectation whose record is due and finds room is counted, and its record enters with the fail bits F. -/
theorem State.captureFail_engine {s : State} {e : Nat} (hroom : (s.engine e).ff.length < 4096)
    (hdue : (s.engine e).recs < s.rd .FC_REC_MAX_MAX [e]) (x : Expn) (q : Resolution) (first : Bool) :
    ((s.captureFail e x q first).engine e).cmp = (s.engine e).cmp ∧
      ((s.captureFail e x q first).engine e).ff.map (·.f) = (s.engine e).ff.map (·.f) ++ [failBits x q] := by
  obtain ⟨held, hcount⟩ := s.countFail_engine e x (failBits x q)
  have hmax : (s.countFail e x (failBits x q)).rd .FC_REC_MAX_MAX [e] = s.rd .FC_REC_MAX_MAX [e] :=
    s.countFail_rd e x _ rfl
  obtain ⟨rec_, hf, hrec⟩ := State.failRecord_engine (s := s.countFail e x (failBits x q)) (e := e)
    (by rwa [hcount]) (by rwa [hcount, hmax]) x q first
  simp [State.captureFail, State.setEngine_engine, hrec, hcount, hf]

/-- The record of a failing expectation leaves its counts as they are. -/
theorem State.captureFail_rd (s : State) (e : Nat) (x : Expn) (q : Resolution) (first : Bool) {g : Fld} {i : List Nat}
    (hg : hasFld ⟨[.FC_DROP_CNT_COUNT, .FC_STATUS_OVF], [], [], false⟩ g = false) :
    (s.captureFail e x q first).rd g i = (s.countFail e x (failBits x q)).rd g i := by
  unfold State.captureFail
  rw [State.setEngine_rd _ _ _ rfl, State.failRecord_rd _ _ _ _ _ hg]

/-- The head leaves the compare queue counted in `FC_CMP`; the fail FIFO stays. -/
theorem State.popHead_engine (s : State) (e : Nat) :
    ((s.popHead e).engine e).cmp = min (2 ^ 64 - 1) ((s.engine e).cmp + 1) ∧
      ((s.popHead e).engine e).ff = (s.engine e).ff := by
  simp [State.popHead, State.setEngine_engine]

section
variable {e : Fin 96} {x : Expn} {q : Resolution} {r : List Expn} {s : State}

/-- A failing head of the compare queue that the fail FIFO does not hold back is captured and leaves. -/
theorem exec_expectationResolve_fails (hcq : (s.engine e).cq = x :: r) (hres : x.res = some q)
    (hchecked : q.unchecked = false) (hheld : s.ffHolds e = false) (hfails : failsIt x q = true) :
    exec (.expectationResolve e) s = .next
      (((s.compareLanes e x (failBits x q)).captureFail e x q (!(s.engine e).anyFail)).popHead e) := by
  change execExpectationResolve e s = _
  unfold execExpectationResolve
  simp only [hcq, hres, hchecked, hfails, hheld, Bool.false_eq_true, false_and, if_false, if_true]
  rfl

/-- A head of the compare queue that does not fail leaves. -/
theorem exec_expectationResolve_passes (hcq : (s.engine e).cq = x :: r) (hres : x.res = some q)
    (hchecked : q.unchecked = false) (hpasses : ¬ failsIt x q = true) :
    exec (.expectationResolve e) s = .next ((s.compareLanes e x (failBits x q)).popHead e) := by
  change execExpectationResolve e s = _
  unfold execExpectationResolve
  simp only [hcq, hres, hchecked, hpasses, Bool.false_eq_true, if_false]
  rfl

end

/-- Settles O24, by whether the head of the compare queue fails. -/
theorem expectationsFailOnMaskedDifferenceOrTimeout : Obligations.ExpectationsFailOnMaskedDifferenceOrTimeout := by
  unfold Obligations.ExpectationsFailOnMaskedDifferenceOrTimeout
  intro e x q r s hcq hres hchecked hroom hdue
  simp only [← failsIt_iff hchecked, ← failBits.eq_def x q]
  have hengine := s.compareLanes_engine e x (failBits x q)
  by_cases hfails : failsIt x q = true
  · have hheld : s.ffHolds e = false := by simp [State.ffHolds, State.ffFull, Nat.not_le.mpr hroom]
    rw [exec_expectationResolve_fails hcq hres hchecked hheld hfails]
    generalize (!(s.engine e).anyFail) = first
    have hmax := s.compareLanes_rd e x (failBits x q) (g := .FC_REC_MAX_MAX) (i := [e]) rfl
    obtain ⟨hcmp, hff⟩ := State.captureFail_engine (s := s.compareLanes e x (failBits x q)) (e := e)
      (by rwa [hengine]) (by rwa [hengine, hmax]) x q first
    obtain ⟨hcmp', hff'⟩ := ((s.compareLanes e x (failBits x q)).captureFail e x q first).popHead_engine e
    simp only [hfails, if_true]
    refine ex_next ⟨?_, ?_, ?_, ?_⟩
    · rw [hcmp', hcmp, hengine]
    · rw [State.popHead_rd _ _ rfl, State.captureFail_rd _ _ _ _ _ rfl, State.countFail_failCnt,
        State.compareLanes_rd _ _ _ _ rfl]
    · rw [State.popHead_rd _ _ rfl, State.captureFail_rd _ _ _ _ _ rfl, State.countFail_fail]
    · rw [hff', hff, hengine]
  · rw [exec_expectationResolve_passes hcq hres hchecked hfails]
    obtain ⟨hcmp, hff⟩ := (s.compareLanes e x (failBits x q)).popHead_engine e
    simp only [hfails, Bool.false_eq_true, if_false, List.append_nil]
    refine ex_next ⟨?_, ?_, ?_, ?_⟩
    · rw [hcmp, hengine]
    · rw [State.popHead_rd _ _ rfl, State.compareLanes_rd _ _ _ _ rfl]
    · rw [State.popHead_rd _ _ rfl, State.compareLanes_rd _ _ _ _ rfl]
    · rw [hff, hengine]

end Sys2Proof.Machine
end

section
/-! PROOFS. The warning of a telemetry reading (R505), over the laws of what a reading records (R504) and of the thermal
trip (R527). -/

namespace Sys2Proof.Machine

/-! ## What a reading records -/

/-- Life data of a site after a reading of `t`: the last one, the highest of the hour, and the readings in succession at
110 °C and at 118 °C or more (R504, R507, R527). -/
def LifeRt.reading (x : LifeRt) (t : Nat) : LifeRt :=
  { x with
    last := t, top := max x.top t
    hot := if 110 ≤ t then x.hot + 1 else 0
    hotter := if 118 ≤ t then x.hotter + 1 else 0 }

theorem LifeRt.reading_armed (x : LifeRt) (t : Nat) : (x.reading t).armed = x.armed := rfl

/-- The reading stands in the telemetry fields of its site (R504). -/
def State.telStat (s : State) (n t mv amp : Nat) : State :=
  ((s.wr .TEL_STAT_TEMP [n] t).wr .TEL_STAT_VCORE [n] mv).wr .TEL_STAT_ICORE [n] amp

/-- A site of a running steward after a reading of `t`: the reading is recorded and compared with `TWARN` (R504, R505). -/
def State.sampled (s : State) (n t mv amp : Nat) : State :=
  let x := (s.life n).reading t
  let s := s.telStat n t mv amp
  if x.armed ∧ s.rd .TEL_CTL_TWARN [n] ≤ t then
    ((s.setLife n { x with armed := false }).wr .TEL_STAT_TWARN_HIT [n] 1).raiseFixed .TEL_CTL [n] 0x0E01 2 (.details [t])
  else s.setLife n (if t + 5 ≤ s.rd .TEL_CTL_TWARN [n] then { x with armed := true } else x)

section
variable {s : State} {n : Fin 9} {t : BitVec 8} (v : BitVec 12) (a : BitVec 10)

/-- A reading below 110 °C is recorded and compared with `TWARN`; it starts nothing else. -/
theorem exec_telemetrySample_below (hhold : s.hold = 0) (hrun : s.stewardRuns n = true) (ht : t.toNat < 110) :
    exec (.telemetrySample n t v a) s = .next (s.sampled n t.toNat v.toNat a.toNat) := by
  have hhot : ((s.life n).reading t.toNat).hot = 0 := if_neg (by omega)
  have hhotter : ((s.life n).reading t.toNat).hotter = 0 := if_neg (by omega)
  change execTelemetrySample n t v a s = _
  unfold execTelemetrySample
  refine (if_neg (by simp [hhold, hrun])).trans ((if_neg ?_).trans (if_neg ?_))
  · change ¬ (_ ∧ 2 ≤ ((s.life n).reading t.toNat).hot ∨ _ ∧ 2 ≤ ((s.life n).reading t.toNat).hotter)
    omega
  · change ¬ (_ ∧ 2 ≤ ((s.life n).reading t.toNat).hot ∧ _)
    omega

/-- The second reading of a die in succession at 118 °C or more trips the device, whatever the warning (R527). -/
theorem exec_telemetrySample_trips (hhold : s.hold = 0) (hrun : s.stewardRuns n = true) (hdie : n.val < 8)
    (ht : 118 ≤ t.toNat) (hsecond : 1 ≤ (s.life n).hotter) :
    exec (.telemetrySample n t v a) s = .next (s.sampled n t.toNat v.toNat a.toNat).thermalTrip := by
  have hhotter : ((s.life n).reading t.toNat).hotter = (s.life n).hotter + 1 := if_pos ht
  change execTelemetrySample n t v a s = _
  unfold execTelemetrySample
  refine (if_neg (by simp [hhold, hrun])).trans (if_pos (.inr ⟨hdie, ?_⟩))
  change 2 ≤ ((s.life n).reading t.toNat).hotter
  omega

end

/-! ## The warning -/

theorem State.telStat_twarn (s : State) (n t mv amp : Nat) (i : List Nat) :
    (s.telStat n t mv amp).rd .TEL_CTL_TWARN i = s.rd .TEL_CTL_TWARN i := by
  simp [State.telStat]

theorem State.telStat_twarnHit (s : State) (n t mv amp : Nat) (i : List Nat) :
    (s.telStat n t mv amp).rd .TEL_STAT_TWARN_HIT i = s.rd .TEL_STAT_TWARN_HIT i := by
  simp [State.telStat]

theorem telStatTwarnHit_width : (Fld.spec .TEL_STAT_TWARN_HIT).width = 1 := rfl

theorem State.raiseFixed_life (s : State) (r : Reg) (i : List Nat) (code sev : Nat) (arg : Arg) (n : Nat) :
    (s.raiseFixed r i code sev arg).life n = s.life n := rfl

theorem State.wr_life (s : State) (f : Fld) (i : List Nat) (v n : Nat) : (s.wr f i v).life n = s.life n := rfl

/-- An event of a fixed code joins the queue of its site, where there is room and no count is owed (R16). -/
theorem State.raiseFixed_queue {s : State} {r : Reg} {i : List Nat} {n : Nat} (hsite : r.site i = n) (code sev : Nat)
    (arg : Arg) (hroom : (s.steward n).queue.length < 256) (hlost : (s.steward n).lost = 0)
    (hfull : (s.steward n).lostFull = 0) :
    ∃ rep, rep.code = .fixed code ∧
      ((s.raiseFixed r i code sev arg).steward n).queue = (s.steward n).queue ++ [rep] := by
  subst hsite
  exact ⟨_, rfl, State.push_queue hroom hlost hfull⟩

section
variable {s : State} {n t : Nat} (mv amp : Nat)

/-- At an armed site a reading that reaches `TWARN` sets `TWARN_HIT`, queues the event and disarms the site. -/
theorem State.sampled_warns (harmed : (s.life n).armed = true) (hwarn : s.rd .TEL_CTL_TWARN [n] ≤ t)
    (hroom : (s.steward n).queue.length < 256) (hlost : (s.steward n).lost = 0) (hfull : (s.steward n).lostFull = 0) :
    (s.sampled n t mv amp).rd .TEL_STAT_TWARN_HIT [n] = 1 ∧ ((s.sampled n t mv amp).life n).armed = false ∧
      ∃ rep, rep.code = .fixed 0x0E01 ∧ ((s.sampled n t mv amp).steward n).queue = (s.steward n).queue ++ [rep] := by
  unfold State.sampled
  dsimp only
  rw [State.telStat_twarn, if_pos ⟨harmed, hwarn⟩]
  refine ⟨?_, ?_, State.raiseFixed_queue rfl _ _ _ hroom hlost hfull⟩
  · rw [State.raiseFixed_rd _ _ _ _ _ _ rfl]
    simp [telStatTwarnHit_width]
  · rw [State.raiseFixed_life, State.wr_life, State.setLife_life, if_pos rfl]

/-- At a disarmed site a reading less than 5 °C below `TWARN`, or above, is recorded only. -/
theorem State.sampled_disarmed (harmed : (s.life n).armed = false) (hnear : s.rd .TEL_CTL_TWARN [n] < t + 5) :
    s.sampled n t mv amp = (s.telStat n t mv amp).setLife n ((s.life n).reading t) := by
  simp [State.sampled, State.telStat_twarn, LifeRt.reading_armed, harmed, Nat.not_le.mpr hnear]

/-- A reading 5 °C below `TWARN` arms the site. -/
theorem State.sampled_arms (hbelow : t + 5 ≤ s.rd .TEL_CTL_TWARN [n]) :
    s.sampled n t mv amp = (s.telStat n t mv amp).setLife n { (s.life n).reading t with armed := true } := by
  have hquiet : ¬ s.rd .TEL_CTL_TWARN [n] ≤ t := by omega
  simp [State.sampled, State.telStat_twarn, hquiet, hbelow]

end

/-! ## The thermal trip -/

theorem State.emit_hold (s : State) (o : Out) : (s.emit o).hold = s.hold :=
  State.emit_keeps (Keeps.part (p := .hold) rfl (by decide) s) s o rfl

theorem State.healthAgain_hold (s : State) : s.healthAgain.hold = s.hold :=
  State.healthAgain_keeps (Keeps.part (p := .hold) rfl (by decide) s) s rfl

theorem State.levelsUsed_hold (s : State) : s.levelsUsed.hold = s.hold :=
  State.levelsUsed_keeps (Keeps.part (p := .hold) rfl (by decide) s) s rfl

/-- A package reset leaves the device held by what is given (R415). -/
theorem State.packageReset_hold (s : State) (h : Nat) : (s.packageReset h).hold = h := by
  unfold State.packageReset
  rw [State.emit_hold, State.healthAgain_hold, State.levelsUsed_hold]

theorem State.cause_hold (s : State) (f : Fld) : (s.cause f).hold = s.hold := rfl

theorem rstCauseThermal_width : (Fld.spec .RST_CAUSE_THERMAL).width = 1 := rfl

/-- The trip holds the device and is recorded as the cause of the reset (R415, R527). -/
theorem State.thermalTrip_held (s : State) : s.thermalTrip.hold = 3 ∧ s.thermalTrip.rd .RST_CAUSE_THERMAL [] = 1 := by
  unfold State.thermalTrip
  constructor
  · rw [State.emit_hold, State.cause_hold, State.packageReset_hold]
  · rw [State.emit_rd _ _ rfl]
    simp [State.cause, rstCauseThermal_width]

/-- Settles O54: a reading below 110 °C is recorded and compared with `TWARN`, by whether its site is armed and how far
below `TWARN` it lies; the second one at 118 °C or more ends in the trip. -/
theorem telemetryWarnsOnceForEachRise : Obligations.TelemetryWarnsOnceForEachRise := by
  unfold Obligations.TelemetryWarnsOnceForEachRise
  refine ⟨?warns, ?disarmed, ?arms, ?trips⟩
  case warns =>
    intro n x v a s hhold hrun hx hwarn harmed hroom hlost hfull
    obtain ⟨hhit, hdisarmed, rep, hcode, hqueue⟩ :=
      State.sampled_warns v.toNat a.toNat harmed hwarn hroom hlost hfull
    rw [exec_telemetrySample_below v a hhold hrun hx]
    exact ex_next ⟨hhit, hdisarmed, by simp [hqueue], by simp [hqueue, hcode]⟩
  case disarmed =>
    intro n x v a s hhold hrun hx hnear harmed
    rw [exec_telemetrySample_below v a hhold hrun hx, State.sampled_disarmed _ _ harmed hnear]
    refine ex_next ⟨?_, rfl, ?_⟩
    · rw [State.setLife_life, if_pos rfl, LifeRt.reading_armed, harmed]
    · rw [State.setLife_rd _ _ _ rfl, State.telStat_twarnHit]
  case arms =>
    intro n x v a s hhold hrun hx hbelow
    rw [exec_telemetrySample_below v a hhold hrun hx, State.sampled_arms _ _ hbelow]
    exact ex_next ⟨by rw [State.setLife_life, if_pos rfl], rfl⟩
  case trips =>
    intro n x v a s hhold hrun hx hsecond
    rw [exec_telemetrySample_trips v a hhold hrun n.isLt hx hsecond]
    exact ex_next (State.thermalTrip_held _)

end Sys2Proof.Machine
end

section
/-! PROOFS. The obligations of the family `other`, part by part. -/

namespace Sys2Proof.Machine

-- One proof at a time: the whole development is checked within a fixed memory. The helper functions marked
-- `noncomputable` serve statements and proofs alone, so no code is made for them.
set_option Elab.async false

/-! PROOFS. What every command and every step keeps: the laws of the single commands, put together over their table. -/

/-! ## One law for all commands -/

/-- A property that survives the changes of a command's own tables of parts and fields holds after the command. -/
theorem exec_keeps {R : State → Prop} {s t : State} (hI : R s) {c : Instr} :
    Keeps (changedParts c) (changedFields c) R → exec c s = .next t → R t :=
  -- the laws of the single commands, in the order of the commands' table
  Instr.casesOn (motive := fun c => Keeps (changedParts c) (changedFields c) R → exec c s = .next t → R t) c
    (fun w off bytes val env hR => execRegisterWrite_keeps hR w off bytes val env s hI)
    (fun w off bytes env hR => execRcFieldRead_keeps hR w off bytes env s hI)
    (fun w e hR => execEngStepsLoRead_keeps hR w e s hI)
    (fun w e hR => execFcCmpLoRead_keeps hR w e s hI)
    (fun w st r hR => execSealHwmLoRead_keeps hR w st r s hI)
    (fun w trunk l rx hR => execBitLoRead_keeps hR w trunk l rx s hI)
    (fun w hR => execSxTimeFracRead_keeps hR w s hI)
    (fun w hR => execSxMeasOfsLoRead_keeps hR w s hI)
    (fun site off code sev arg hR => execBlockErrorReport_keeps hR site off code sev arg s hI)
    (fun d hR => execOverflowEvent_keeps hR d s hI)
    (fun site hR => execEventLogAppend_keeps hR site s hI)
    (fun w v hR => execEvtAckWrite_keeps hR w v s hI)
    (fun hR => execJournalWrite_keeps hR s hI)
    (fun w d k hR => execSectorReset_keeps hR w d k s hI)
    (fun w d k hR => execSectorReleaseRequest_keeps hR w d k s hI)
    (fun d k edge hR => execSectorRelease_keeps hR d k edge s hI)
    (fun d k hR => execSectorReleaseTimeout_keeps hR d k s hI)
    (fun w d k p hR => execMigrate_keeps hR w d k p s hI)
    (fun d k hR => execMigrationGated_keeps hR d k s hI)
    (fun d k hR => execMigrationCaptureDone_keeps hR d k s hI)
    (fun d k hR => execMigrationRewriteDone_keeps hR d k s hI)
    (fun d k hR => execMigrationRestoreDone_keeps hR d k s hI)
    (fun d k hR => execMigrationRestart_keeps hR d k s hI)
    (fun d k hR => execMigrationPermitTimeout_keeps hR d k s hI)
    (fun d k p period hR => execColumnDefectFound_keeps hR d k p period s hI)
    (fun d k segs hR => execSpanContention_keeps hR d k segs s hI)
    (fun d fails items hR => execCfgFrame_keeps hR d fails items s hI)
    (fun lead edge hR => execCfgReleaseInstant_keeps hR lead edge s hI)
    (fun w d tr src hR => execClockTreeSwitch_keeps hR w d tr src s hI)
    (fun d tr converged hR => execClockSwitchDone_keeps hR d tr converged s hI)
    (fun d tr hR => execClockSwitchForced_keeps hR d tr s hI)
    (fun d k deep col block addr upset hR => execMemEccError_keeps hR d k deep col block addr upset s hI)
    (fun d k deep col block addr hR => execBramScrubWriteback_keeps hR d k deep col block addr s hI)
    (fun d k lates hR => execRknLateAccess_keeps hR d k lates s hI)
    (fun w e hR => execStart_keeps hR w e s hI)
    (fun w e hR => execArm_keeps hR w e s hI)
    (fun w e hR => execEngCmdStop_keeps hR w e s hI)
    (fun w e hR => execPause_keeps hR w e s hI)
    (fun w e hR => execEngCmdResume_keeps hR w e s hI)
    (fun w e hR => execEngCmdStep_keeps hR w e s hI)
    (fun w e hR => execEngineReset_keeps hR w e s hI)
    (fun e hR => execEngStartEffect_keeps hR e s hI)
    (fun e hR => execEngPermitGrant_keeps hR e s hI)
    (fun e hR => execEngPermitTimeout_keeps hR e s hI)
    (fun e hR => execEngTrigger_keeps hR e s hI)
    (fun e hR => execEngNop_keeps hR e s hI)
    (fun e hR => execLoop_keeps hR e s hI)
    (fun e hR => execJmp_keeps hR e s hI)
    (fun e hR => execBr_keeps hR e s hI)
    (fun e hR => execCall_keeps hR e s hI)
    (fun e hR => execRet_keeps hR e s hI)
    (fun e hR => execWait_keeps hR e s hI)
    (fun e hR => execWaitEnd_keeps hR e s hI)
    (fun e hR => execDrain_keeps hR e s hI)
    (fun e hR => execDrainDone_keeps hR e s hI)
    (fun e hR => execSync_keeps hR e s hI)
    (fun e hR => execSyncBroadcastSeen_keeps hR e s hI)
    (fun e hR => execWaitt_keeps hR e s hI)
    (fun e hR => execWaittTrigger_keeps hR e s hI)
    (fun e hR => execSetl_keeps hR e s hI)
    (fun e hR => execStrm_keeps hR e s hI)
    (fun e hR => execRate_keeps hR e s hI)
    (fun e hR => execRatePermitGrant_keeps hR e s hI)
    (fun e hR => execEvt_keeps hR e s hI)
    (fun e hR => execHalt_keeps hR e s hI)
    (fun e hR => execEngTimerExpiry_keeps hR e s hI)
    (fun e hR => execEngStepUnstall_keeps hR e s hI)
    (fun e hR => execStreamFillDone_keeps hR e s hI)
    (fun e hR => execStreamReadIssue_keeps hR e s hI)
    (fun e n data status hR => execStreamReadComplete_keeps hR e n data status s hI)
    (fun n hR => execFixPointApply_keeps hR n s hI)
    (fun w f hR => execFixSet_keeps hR w f s hI)
    (fun w f hR => execFixClr_keeps hR w f s hI)
    (fun w f q hR => execFixCfgWrite_keeps hR w f q s hI)
    (fun hR => execFixRebase_keeps hR s hI)
    (fun e hR => execTxSlot_keeps hR e s hI)
    (fun e hR => execStraightPathLaunch_keeps hR e s hI)
    (fun e n data hR => execRxWordCompare_keeps hR e n data s hI)
    (fun e hR => execVpVectorTaken_keeps hR e s hI)
    (fun e data skip hR => execRpResponse_keeps hR e data skip s hI)
    (fun e hR => execResponseTimeout_keeps hR e s hI)
    (fun e hR => execExpectationResolve_keeps hR e s hI)
    (fun e env hR => execFailRingWrite_keeps hR e env s hI)
    (fun w e hR => execRingErrRestart_keeps hR w e s hI)
    (fun w e v hR => execFcRingRdWrite_keeps hR w e v s hI)
    (fun w e v hR => execFcLanesWrite_keeps hR w e v s hI)
    (fun w e hR => execBitmapClear_keeps hR w e s hI)
    (fun e hR => execBitmapClearDone_keeps hR e s hI)
    (fun w e hR => execFcCountersClear_keeps hR w e s hI)
    (fun site ni opc addr tag fn data hR => execNiSend_keeps hR site ni opc addr tag fn data s hI)
    (fun site r port vc errs hR => execRouterHeadFlit_keeps hR site r port vc errs s hI)
    (fun site ni hdrBad hR => execNiBounceReceive_keeps hR site ni hdrBad s hI)
    (fun site ni hdrBad hR => execRelayForward_keeps hR site ni hdrBad s hI)
    (fun site ni hdrBad noise hR => execNiDeliver_keeps hR site ni hdrBad noise s hI)
    (fun site ni src hR => execPackSend_keeps hR site ni src s hI)
    (fun site ni tag hR => execNiResponseTimeout_keeps hR site ni tag s hI)
    (fun site r port vc hR => execStallBounce_keeps hR site r port vc s hI)
    (fun w site r bits hR => execPortDrain_keeps hR w site r bits s hI)
    (fun site r p hR => execPortDrained_keeps hR site r p s hI)
    (fun site r port vc hR => execDrainTimeoutBounce_keeps hR site r port vc s hI)
    (fun w site r p vc v hR => execRouterPortConfig_keeps hR w site r p vc v s hI)
    (fun w site ni k hR => execBearingRead_keeps hR w site ni k s hI)
    (fun w site ni k hR => execBearingWrite_keeps hR w site ni k s hI)
    (fun w site ni k hR => execBearingInvalidate_keeps hR w site ni k s hI)
    (fun l hR => execLinkTrainingStart_keeps hR l s hI)
    (fun l bad clk bs hR => execLinkTrainingDone_keeps hR l bad clk bs s hI)
    (fun l hR => execLinkTrainingPermitTimeout_keeps hR l s hI)
    (fun l hR => execLinkTrainingRetry_keeps hR l s hI)
    (fun w n xsect coh hR => execGkRoleWrite_keeps hR w n xsect coh s hI)
    (fun n k coh g0 g1 g2 flips hR => execLinkFrameReceive_keeps hR n k coh g0 g1 g2 flips s hI)
    (fun n k coh g hR => execLinkReplay_keeps hR n k coh g s hI)
    (fun n k coh hR => execPoolRetrain_keeps hR n k coh s hI)
    (fun n k counts hR => execLaneHealthInterval_keeps hR n k counts s hI)
    (fun n k g l hR => execSpareSwap_keeps hR n k g l s hI)
    (fun n k g hR => execSpareRejoin_keeps hR n k g s hI)
    (fun n k g l hR => execCrossingSpareSwap_keeps hR n k g l s hI)
    (fun n k g hR => execCrossingSwitchInstant_keeps hR n k g s hI)
    (fun n k g clk bs hR => execGroupRetire_keeps hR n k g clk bs s hI)
    (fun n k g hR => execGroupConversion_keeps hR n k g s hI)
    (fun w n k g l hR => execGkCmdSwap_keeps hR w n k g l s hI)
    (fun w n k g bs hR => execGkCmdRetire_keeps hR w n k g bs s hI)
    (fun n k lc data flips hR => execCrossingFrameReceive_keeps hR n k lc data flips s hI)
    (fun n line write data src fn ecc hR => execRcAccess_keeps hR n line write data src fn ecc s hI)
    (fun n line hR => execCrds_keeps hR n line s hI)
    (fun n line hR => execCrdx_keeps hR n line s hI)
    (fun n line hR => execCupg_keeps hR n line s hI)
    (fun n line hR => execCevc_keeps hR n line s hI)
    (fun n line hR => execHsni_keeps hR n line s hI)
    (fun n line hR => execHsns_keeps hR n line s hI)
    (fun n line atHome hR => execCack_keeps hR n line atHome s hI)
    (fun n line hR => execDatax_keeps hR n line s hI)
    (fun n hR => execDirtyEviction_keeps hR n s hI)
    (fun w n hR => execRcFlushRange_keeps hR w n s hI)
    (fun w n hR => execRcCleanRange_keeps hR w n s hI)
    (fun w n hR => execRcInvalidateReadMostly_keeps hR w n s hI)
    (fun w n hR => execRcFlushAll_keeps hR w n s hI)
    (fun n hR => execRcCmdDone_keeps hR n s hI)
    (fun w x hR => execRcwEnable_keeps hR w x s hI)
    (fun w x hR => execRcwDisable_keeps hR w x s hI)
    (fun x hR => execRcwDisableDone_keeps hR x s hI)
    (fun st hR => execHomeUnreachable_keeps hR st s hI)
    (fun st hR => execHomeRecallDone_keeps hR st s hI)
    (fun n hR => execRcLossTimeout_keeps hR n s hI)
    (fun st hR => execHbmFrontPipeEntry_keeps hR st s hI)
    (fun st c demand par hR => execHbmSchedule_keeps hR st c demand par s hI)
    (fun st c n line finding level mirror flips hR => execHbmReadComplete_keeps hR st c n line finding level mirror flips s hI)
    (fun st c hR => execHbmRefreshDue_keeps hR st c s hI)
    (fun st temp hR => execHbmTempReading_keeps hR st temp s hI)
    (fun st hR => execHbmRefreshBurst_keeps hR st s hI)
    (fun st hR => execRefreshBurstPermitTimeout_keeps hR st s hI)
    (fun st hR => execHbmTrainingStart_keeps hR st s hI)
    (fun st hR => execHbmTrainPermitTimeout_keeps hR st s hI)
    (fun st lrep temp rfm hR => execHbmTrainingDone_keeps hR st lrep temp rfm s hI)
    (fun st hR => execHbmTrainingFail_keeps hR st s hI)
    (fun st softLeft repaired unrepaired hR => execZeroFillDone_keeps hR st softLeft repaired unrepaired s hI)
    (fun st hR => execHbmTrainRetry_keeps hR st s hI)
    (fun st hR => execHbmRetrainPeriod_keeps hR st s hI)
    (fun w st hR => execHbmCmdRetrain_keeps hR w st s hI)
    (fun st failing hR => execHbmChannelRetrainDone_keeps hR st failing s hI)
    (fun w st hR => execHbmCmdSelfRefresh_keeps hR w st s hI)
    (fun w st hR => execHbmCmdSelfRefreshExit_keeps hR w st s hI)
    (fun st hR => execSelfRefreshEntered_keeps hR st s hI)
    (fun st hR => execSelfRefreshExitGrant_keeps hR st s hI)
    (fun st hR => execHbmPowerDown_keeps hR st s hI)
    (fun st found granted hR => execHbmScrubBurst_keeps hR st found granted s hI)
    (fun w v hR => execHbmIlvWrite_keeps hR w v s hI)
    (fun w st x v hR => execHbmHashWrite_keeps hR w st x v s hI)
    (fun w st r hR => execSealClaim_keeps hR w st r s hI)
    (fun w st r hR => execEnable_keeps hR w st r s hI)
    (fun w st r hR => execDisable_keeps hR w st r s hI)
    (fun w st r hR => execRekey_keeps hR w st r s hI)
    (fun w st r hR => execSealResume_keeps hR w st r s hI)
    (fun w st slot hR => execSealKeyGenerate_keeps hR w st slot s hI)
    (fun w st slot session hR => execSealKeyImport_keeps hR w st slot session s hI)
    (fun w st slot hR => execSealKeyErase_keeps hR w st slot s hI)
    (fun st keys hR => execSealKeyDone_keeps hR st keys s hI)
    (fun st hR => execSweepPermitGrant_keeps hR st s hI)
    (fun st hR => execSweepPermitTimeout_keeps hR st s hI)
    (fun st bad hR => execSweepChunk_keeps hR st bad s hI)
    (fun w st rate hR => execSealRateWrite_keeps hR w st rate s hI)
    (fun st r level node hR => execNodeLost_keeps hR st r level node s hI)
    (fun st hR => execRepairPermitRetry_keeps hR st s hI)
    (fun st r level node hR => execCounterCacheWriteback_keeps hR st r level node s hI)
    (fun st bad hR => execLeafReencryptDone_keeps hR st bad s hI)
    (fun w b hR => execBundleEnable_keeps hR w b s hI)
    (fun w b hR => execBundleDisable_keeps hR w b s hI)
    (fun b hR => execBundleBringup_keeps hR b s hI)
    (fun b locked hR => execBundlePllLockCheck_keeps hR b locked s hI)
    (fun b rx hR => execBundleTrainDecision_keeps hR b rx s hI)
    (fun w b hR => execBundleRetrain_keeps hR w b s hI)
    (fun b hR => execBundlePermitTimeout_keeps hR b s hI)
    (fun w l v hR => execLaneCtlWrite_keeps hR w l v s hI)
    (fun w l hR => execLoopMeasure_keeps hR w l s hI)
    (fun l ui hR => execLoopMeasureDone_keeps hR l ui s hI)
    (fun w l hR => execLaneInjectError_keeps hR w l s hI)
    (fun w l c hR => execLaneSlip_keeps hR w l c s hI)
    (fun w l v hR => execLaneTimingWrite_keeps hR w l v s hI)
    (fun trunk l hR => execLossOfSignal_keeps hR trunk l s hI)
    (fun trunk l hR => execLossOfLock_keeps hR trunk l s hI)
    (fun trunk l lol hR => execLossConditionEnd_keeps hR trunk l lol s hI)
    (fun l data taken hR => execLanePortRxWord_keeps hR l data taken s hI)
    (fun w t hR => execTrunkEnable_keeps hR w t s hI)
    (fun t hR => execTrunkAdapt_keeps hR t s hI)
    (fun t snr hR => execTrunkConverged_keeps hR t snr s hI)
    (fun t hR => execTrunkNoSignal_keeps hR t s hI)
    (fun w t hR => execTrunkReadapt_keeps hR w t s hI)
    (fun w t hR => execTrunkInjectError_keeps hR w t s hI)
    (fun t hR => execTrunkPermitTimeout_keeps hR t s hI)
    (fun w t pre2 pre1 post1 hR => execTrFfeWrite_keeps hR w t pre2 pre1 post1 s hI)
    (fun t samples taken hR => execCaptureBeat_keeps hR t samples taken s hI)
    (fun f q v hR => execDbSqTail_keeps hR f q v s hI)
    (fun f q v hR => execDbCqHead_keeps hR f q v s hI)
    (fun w q hR => execQpEnable_keeps hR w q s hI)
    (fun w q hR => execQpDisable_keeps hR w q s hI)
    (fun desc hR => execDescriptorFetch_keeps hR desc s hI)
    (fun q hR => execNop_keeps hR q s hI)
    (fun q hR => execH2d_keeps hR q s hI)
    (fun q hR => execD2h_keeps hR q s hI)
    (fun q hR => execD2d_keeps hR q s hI)
    (fun q n data rd wr fault hR => execDmaLineComplete_keeps hR q n data rd wr fault s hI)
    (fun q hR => execEngLoad_keeps hR q s hI)
    (fun q hR => execEngStart_keeps hR q s hI)
    (fun q hR => execEngStop_keeps hR q s hI)
    (fun q hR => execFailDrain_keeps hR q s hI)
    (fun q hdr unwrap hR => execCfgLoad_keeps hR q hdr unwrap s hI)
    (fun rec_ hR => execCfgRecord_keeps hR rec_ s hI)
    (fun sigOk tagOk hR => execImageVerifyEnd_keeps hR sigOk tagOk s hI)
    (fun q hR => execLaneCmd_keeps hR q s hI)
    (fun q hR => execTimeRead_keeps hR q s hI)
    (fun q hR => execTimeStep_keeps hR q s hI)
    (fun q hR => execTimeAdjust_keeps hR q s hI)
    (fun q hR => execFence_keeps hR q s hI)
    (fun q req hR => execMailbox_keeps hR q req s hI)
    (fun n hR => execMailboxTimeout_keeps hR n s hI)
    (fun q n ok hR => execCompletionWrite_keeps hR q n ok s hI)
    (fun f v hR => execMsixHoldoffExpiry_keeps hR f v s hI)
    (fun f off n hR => execBar4Read_keeps hR f off n s hI)
    (fun f off bs hR => execBar4Write_keeps hR f off bs s hI)
    (fun f hR => execFunctionLevelReset_keeps hR f s hI)
    (fun f hR => execFlrDone_keeps hR f s hI)
    (fun f on hR => execBusMasterDisable_keeps hR f on s hI)
    (fun p hR => execPcieLinkDown_keeps hR p s hI)
    (fun w force hR => execStep_keeps hR w force s hI)
    (fun w force hR => execSet_keeps hR w force s hI)
    (fun hR => execStepApply_keeps hR s hI)
    (fun w v hR => execSxAdjWrite_keeps hR w v s hI)
    (fun w v hR => execSxCtlWrite_keeps hR w v s hI)
    (fun p ptp type seq hR => execPtpRxEvent_keeps hR p ptp type seq s hI)
    (fun p type seq hR => execPtpTxEvent_keeps hR p type seq s hI)
    (fun p type ident seq corr resid two full hR => execTcForward_keeps hR p type ident seq corr resid two full s hI)
    (fun hR => execResidenceTimeout_keeps hR s hI)
    (fun w p hR => execSxTxqPop_keeps hR w p s hI)
    (fun ofs mpd seq rate hR => execServoMeasurement_keeps hR ofs mpd seq rate s hI)
    (fun hR => execPpsPulse_keeps hR s hI)
    (fun hR => execPpsEnd_keeps hR s hI)
    (fun w sel good spread hR => execClkSourceSelect_keeps hR w sel good spread s hI)
    (fun hR => execGlideDone_keeps hR s hI)
    (fun silent w1 w2 expect hR => execClockSourceFail_keeps hR silent w1 w2 expect s hI)
    (fun err hR => execOscErrMeasure_keeps hR err s hI)
    (fun hR => execClockAutoReturn_keeps hR s hI)
    (fun w good hR => execClkSrcReturn_keeps hR w good s hI)
    (fun w depth freq hR => execClkSscWrite_keeps hR w depth freq s hI)
    (fun w x src hR => execClkoutSwitch_keeps hR w x src s hI)
    (fun w k freq hR => execSpnSynWrite_keeps hR w k freq s hI)
    (fun w n k v freq hR => execFsynFreqWrite_keeps hR w n k v freq s hI)
    (fun n k hR => execSynthGlideStep_keeps hR n k s hI)
    (fun w n v hR => execVselSequence_keeps hR w n v s hI)
    (fun n ok hR => execRailSettleCheck_keeps hR n ok s hI)
    (fun n k hR => execSynthRiseGrant_keeps hR n k s hI)
    (fun w n hR => execPwrEnterP1_keeps hR w n s hI)
    (fun w n hR => execPwrEnterP2_keeps hR w n s hI)
    (fun w n hR => execPwrEnterP3_keeps hR w n s hI)
    (fun w n rail fuse hR => execPwrReturnP0_keeps hR w n rail fuse s hI)
    (fun n hR => execPwrTransitionDone_keeps hR n s hI)
    (fun p hR => execPermitRequest_keeps hR p s hI)
    (fun g hR => execPermitGrant_keeps hR g s hI)
    (fun g op hR => execPermitReturn_keeps hR g op s hI)
    (fun g hR => execStepPermitReturn_keeps hR g s hI)
    (fun g hR => execPermitTimeout_keeps hR g s hI)
    (fun hR => execPowerOnReset_keeps hR s hI)
    (fun t hR => execPackageReset_keeps hR t s hI)
    (fun fitted fuses sigA sigB srcOk octal bs hR => execBootStageComplete_keeps hR fitted fuses sigA sigB srcOk octal bs s hI)
    (fun n hR => execDieRailAbsent_keeps hR n s hI)
    (fun n rail hR => execDieRelease_keeps hR n rail s hI)
    (fun n cols rkn rows lost hR => execSelfTestDone_keeps hR n cols rkn rows lost s hI)
    (fun n bs hR => execDieReleaseDone_keeps hR n bs s hI)
    (fun n cause hR => execDieStartFail_keeps hR n cause s hI)
    (fun unwrap hR => execCfgAutoload_keeps hR unwrap s hI)
    (fun w key hR => execRstUnlock_keeps hR w key s hI)
    (fun t hR => execHubWarmReset_keeps hR t s hI)
    (fun w n hR => execPlannedDieReset_keeps hR w n s hI)
    (fun w n rail hR => execDieStart_keeps hR w n rail s hI)
    (fun n cause powered hR => execDieLost_keeps hR n cause powered s hI)
    (fun n flushed hR => execDieClockLost_keeps hR n flushed s hI)
    (fun n hR => execDieClockRestored_keeps hR n s hI)
    (fun n rail hR => execDieAutoRestart_keeps hR n rail s hI)
    (fun r hR => execRailFault_keeps hR r s hI)
    (fun site temp mv amp hR => execTelemetrySample_keeps hR site temp mv amp s hI)
    (fun hR => execThermtripRelease_keeps hR s hI)
    (fun site hR => execLifeHoursUpdate_keeps hR site s hI)
    (fun n cor unc fails slow hR => execConfigScrubFrame_keeps hR n cor unc fails slow s hI)
    (fun n hR => execAttest_keeps hR n s hI)
    (fun n hR => execGetCerts_keeps hR n s hI)
    (fun n hR => execSessionOpen_keeps hR n s hI)
    (fun n hR => execKeyDeposit_keeps hR n s hI)
    (fun n hR => execSessionClose_keeps hR n s hI)
    (fun v hR => execSessionIdleTimeout_keeps hR v s hI)
    (fun n stop hR => execCounterCommit_keeps hR n stop s hI)
    (fun n kek how hR => execTakeOwnership_keeps hR n kek how s hI)
    (fun n by_ fuseOk hR => execRevokeOwnerKey_keeps hR n by_ fuseOk s hI)
    (fun n by_ hR => execRetire_keeps hR n by_ s hI)
    (fun hR => execTrngHealthFail_keeps hR s hI)
    (fun p l hR => execDebugChallenge_keeps hR p l s hI)
    (fun p l issuerSig subjectSig hR => execDebugCertSubmit_keeps hR p l issuerSig subjectSig s hI)
    (fun p l hR => execDebugPasswordSubmit_keeps hR p l s hI)
    (fun w slot len hR => execRecoveryBegin_keeps hR w slot len s hI)
    (fun w v hR => execRecoveryData_keeps hR w v s hI)
    (fun w sig flashOk hR => execRecoveryEnd_keeps hR w sig flashOk s hI)
    (fun w c hR => execHelmCoreRelease_keeps hR w c s hI)
    (fun c hR => execHelmCoreStart_keeps hR c s hI)
    (fun w c acts hR => execHelmCoreReset_keeps hR w c acts s hI)
    (fun n x high hR => execFabricIrqLine_keeps hR n x high s hI)
    (fun w src hR => execHelmIcSet_keeps hR w src s hI)
    (fun w c hR => execHelmIcClaim_keeps hR w c s hI)
    (fun w c src hR => execHelmIcComplete_keeps hR w c src s hI)
    (fun c acts pc prv mie handling hR => execHelmNmi_keeps hR c acts pc prv mie handling s hI)
    (fun w c hR => execDbgMonitorHalt_keeps hR w c s hI)
    (fun w c acts pc prv mie hR => execDbgHardHalt_keeps hR w c acts pc prv mie s hI)
    (fun w c hR => execDbgHardRelease_keeps hR w c s hI)
    (fun c acts pc prv mie ebreak hR => execMonitorEntry_keeps hR c acts pc prv mie ebreak s hI)
    (fun c stp hR => execMonitorExit_keeps hR c stp s hI)
    (fun w c reg hR => execDbgRegRead_keeps hR w c reg s hI)
    (fun w c reg hR => execDbgRegWrite_keeps hR w c reg s hI)
    (fun w c key hR => execWdtKick_keeps hR w c key s hI)
    (fun w c key hR => execWdtUnlock_keeps hR w c key s hI)
    (fun c hR => execWdtExpiry_keeps hR c s hI)
    (fun w c u data v hR => execPatchWrite_keeps hR w c u data v s hI)
    (fun ok hR => execFlashSectorRewritten_keeps hR ok s hI)
    (fun w c hR => execHelmMailboxGo_keeps hR w c s hI)
    (fun c hR => execHelmMailboxDone_keeps hR c s hI)
    (fun p hR => execPelPeek_keeps hR p s hI)
    (fun p env hR => execPelConsume_keeps hR p env s hI)
    (fun p env hR => execPelRegWrite_keeps hR p env s hI)
    (fun p env hR => execPelMemRead_keeps hR p env s hI)
    (fun p env hR => execPelMemWrite_keeps hR p env s hI)
    (fun p hR => execPelAccessDone_keeps hR p s hI)
    (fun p hR => execPelRst_keeps hR p s hI)
    (fun hR => execIdcode_keeps hR s hI)
    (fun pins bits hR => execSamplePreload_keeps hR pins bits s hI)
    (fun pins bits hR => execExtest_keeps hR pins bits s hI)
    (fun pins bits hR => execExtestPulse_keeps hR pins bits s hI)
    (fun pins bits hR => execExtestTrain_keeps hR pins bits s hI)
    (fun hR => execClamp_keeps hR s hI)
    (fun hR => execHighz_keeps hR s hI)
    (fun dr env hR => execPelReg_keeps hR dr env s hI)
    (fun code hR => execBypass_keeps hR code s hI)
    (fun n hR => execEvtJournalRead_keeps hR n s hI)
    (fun n hR => execTelemetryRead_keeps hR n s hI)
    (fun n hR => execRepairRead_keeps hR n s hI)
    (fun n hR => execFlashErase_keeps hR n s hI)
    (fun n hR => execFlashWrite_keeps hR n s hI)
    (fun n hR => execDirWrite_keeps hR n s hI)
    (fun n hR => execScrubNow_keeps hR n s hI)
    (fun refSel testEn hR => execResetRelease_keeps hR refSel testEn s hI)
    (fun n k lc hR => execCrossingFramesMissing_keeps hR n k lc s hI)
    (fun trunk l rx hR => execCheckerLock_keeps hR trunk l rx s hI)
    (fun trunk l rx hR => execCheckerLockLoss_keeps hR trunk l rx s hI)
    (fun p st link ofs hR => execPtpPortStateChange_keeps hR p st link ofs s hI)
    (fun p hR => execPcieLinkUp_keeps hR p s hI)
    (fun hR => execTrngHealthRecover_keeps hR s hI)
    (fun st hR => execTrngWaitTimeout_keeps hR st s hI)

/-! ## Every command answers

One lemma for each command with branches: every branch ends in `.next`. -/

theorem completes_next (t : State) : Completes (.next t) := ⟨t, rfl⟩

theorem Completes.ite {p : Prop} [Decidable p] {a b : Host.Outcome State Fault Refusal} (ha : Completes a) (hb : Completes b) :
    Completes (if p then a else b) := by
  split
  · exact ha
  · exact hb

theorem execRcFieldRead_completes (w : Writer) (off : BitVec 25) (bytes : Nat) (env : RegEnv) (s : State) : Completes (execRcFieldRead w off bytes env s) := by
  unfold execRcFieldRead
  repeat' split
  all_goals exact ⟨_, rfl⟩

theorem execStreamReadComplete_completes (e : Fin 96) (n : Nat) (data : BitVec 512) (status : Fin 4) (s : State) : Completes (execStreamReadComplete e n data status s) := by
  unfold execStreamReadComplete
  repeat' first | split | extract_lets
  all_goals exact ⟨_, rfl⟩

theorem execCrossingFrameReceive_completes (n : Fin 8) (k : Fin 2) (lc : Fin 48) (data : BitVec 256) (flips : BitVec 264) (s : State) : Completes (execCrossingFrameReceive n k lc data flips s) := by
  unfold execCrossingFrameReceive
  dsimp only
  with_reducible repeat' first | exact completes_next _ | split

theorem execHbmSchedule_completes (st : Fin 4) (c : Fin 32) (demand : Bool) (par : Fin 3) (s : State) : Completes (execHbmSchedule st c demand par s) := by
  unfold execHbmSchedule
  dsimp only
  with_reducible repeat' first | exact completes_next _ | split

theorem execHbmTrainingFail_completes (st : Fin 4) (s : State) : Completes (execHbmTrainingFail st s) := by
  unfold execHbmTrainingFail
  with_reducible repeat' first | exact completes_next _ | apply Completes.ite

theorem execCfgRecord_completes (rec_ : Option (BitVec 8256)) (s : State) : Completes (execCfgRecord rec_ s) := by
  unfold execCfgRecord
  dsimp only
  with_reducible repeat' first | exact completes_next _ | split

theorem execRegisterWrite_completes (w : Writer) (off : BitVec 25) (bytes : Nat) (val : BitVec 64) (env : RegEnv) (s : State) : Completes (execRegisterWrite w off bytes val env s) := by
  unfold execRegisterWrite
  with_reducible repeat' first | exact completes_next _ | apply Completes.ite

theorem execPermitTimeout_completes (g : Fin 13) (s : State) : Completes (execPermitTimeout g s) := by
  unfold execPermitTimeout
  dsimp only
  with_reducible repeat' first | exact completes_next _ | split

theorem execSweepPermitGrant_completes (st : Fin 4) (s : State) : Completes (execSweepPermitGrant st s) := by
  unfold execSweepPermitGrant
  dsimp only
  with_reducible repeat' first | exact completes_next _ | split

theorem execSweepPermitTimeout_completes (st : Fin 4) (s : State) : Completes (execSweepPermitTimeout st s) := by
  unfold execSweepPermitTimeout
  dsimp only
  with_reducible repeat' first | exact completes_next _ | split

theorem execRailFault_completes (r : Rail) (s : State) : Completes (execRailFault r s) := by
  unfold execRailFault
  cases r with
  | monitored => exact ⟨_, rfl⟩
  | core n => dsimp only; split <;> exact ⟨_, rfl⟩
  | hbm st =>
    dsimp only
    split
    · exact execHbmTrainingFail_completes _ _
    · split <;> exact ⟨_, rfl⟩
  | io => exact ⟨_, rfl⟩

theorem execPelAccessDone_completes (p s) : Completes (execPelAccessDone p s) := by
  unfold execPelAccessDone
  with_reducible repeat' first | exact completes_next _ | apply Completes.ite

theorem execPelReg_completes (dr env s) : Completes (execPelReg dr env s) := by
  unfold execPelReg
  with_reducible repeat' first | exact completes_next _ | apply Completes.ite | split | extract_lets

theorem execBypass_completes (code s) : Completes (execBypass code s) := by
  unfold execBypass
  with_reducible repeat' first | exact completes_next _ | apply Completes.ite

theorem execBitLoRead_completes (w trunk l rx s) : Completes (execBitLoRead w trunk l rx s) := by
  unfold execBitLoRead
  repeat' split
  all_goals exact ⟨_, rfl⟩

theorem execEventLogAppend_completes (site s) : Completes (execEventLogAppend site s) := by
  unfold execEventLogAppend
  with_reducible repeat' first | exact completes_next _ | apply Completes.ite | split

theorem execEvtAckWrite_completes (w v s) : Completes (execEvtAckWrite w v s) := by
  unfold execEvtAckWrite
  with_reducible repeat' first | exact completes_next _ | apply Completes.ite

theorem execJournalWrite_completes (s) : Completes (execJournalWrite s) := by
  unfold execJournalWrite
  with_reducible repeat' first | exact completes_next _ | apply Completes.ite | split

theorem execSectorRelease_completes (d k edge s) : Completes (execSectorRelease d k edge s) := by
  unfold execSectorRelease
  with_reducible repeat' first | exact completes_next _ | apply Completes.ite | split

theorem execSectorReleaseTimeout_completes (d k s) : Completes (execSectorReleaseTimeout d k s) := by
  unfold execSectorReleaseTimeout
  with_reducible repeat' first | exact completes_next _ | apply Completes.ite | split

theorem execMigrationGated_completes (d k s) : Completes (execMigrationGated d k s) := by
  unfold execMigrationGated
  with_reducible repeat' first | exact completes_next _ | apply Completes.ite

theorem execMigrationCaptureDone_completes (d k s) : Completes (execMigrationCaptureDone d k s) := by
  unfold execMigrationCaptureDone
  with_reducible repeat' first | exact completes_next _ | apply Completes.ite

theorem execMigrationRewriteDone_completes (d k s) : Completes (execMigrationRewriteDone d k s) := by
  unfold execMigrationRewriteDone
  with_reducible repeat' first | exact completes_next _ | apply Completes.ite

theorem execMigrationRestoreDone_completes (d k s) : Completes (execMigrationRestoreDone d k s) := by
  unfold execMigrationRestoreDone
  with_reducible repeat' first | exact completes_next _ | apply Completes.ite

theorem execMigrationRestart_completes (d k s) : Completes (execMigrationRestart d k s) := by
  unfold execMigrationRestart
  with_reducible repeat' first | exact completes_next _ | apply Completes.ite | split

theorem execMigrationPermitTimeout_completes (d k s) : Completes (execMigrationPermitTimeout d k s) := by
  unfold execMigrationPermitTimeout
  with_reducible repeat' first | exact completes_next _ | apply Completes.ite | split

theorem execSpanContention_completes (d k segs s) : Completes (execSpanContention d k segs s) := by
  unfold execSpanContention
  with_reducible repeat' first | exact completes_next _ | apply Completes.ite | split

theorem execClockSwitchDone_completes (d tr converged s) : Completes (execClockSwitchDone d tr converged s) := by
  unfold execClockSwitchDone
  with_reducible repeat' first | exact completes_next _ | apply Completes.ite

theorem execClockSwitchForced_completes (d tr s) : Completes (execClockSwitchForced d tr s) := by
  unfold execClockSwitchForced
  with_reducible repeat' first | exact completes_next _ | apply Completes.ite

theorem execMemEccError_completes (d k deep col block addr upset s) : Completes (execMemEccError d k deep col block addr upset s) := by
  unfold execMemEccError
  with_reducible repeat' first | exact completes_next _ | apply Completes.ite | split

theorem execBramScrubWriteback_completes (d k deep col block addr s) : Completes (execBramScrubWriteback d k deep col block addr s) := by
  unfold execBramScrubWriteback
  with_reducible repeat' first | exact completes_next _ | apply Completes.ite

theorem execRknLateAccess_completes (d k lates s) : Completes (execRknLateAccess d k lates s) := by
  unfold execRknLateAccess
  with_reducible repeat' first | exact completes_next _ | apply Completes.ite | split

theorem execCfgFrame_completes (d fails items s) : Completes (execCfgFrame d fails items s) := by
  unfold execCfgFrame
  with_reducible repeat' first | exact completes_next _ | apply Completes.ite | split | extract_lets

theorem execCfgReleaseInstant_completes (lead edge s) : Completes (execCfgReleaseInstant lead edge s) := by
  unfold execCfgReleaseInstant
  with_reducible repeat' first | exact completes_next _ | apply Completes.ite | split

theorem execImageVerifyEnd_completes (sigOk tagOk s) : Completes (execImageVerifyEnd sigOk tagOk s) := by
  unfold execImageVerifyEnd
  with_reducible repeat' first | exact completes_next _ | apply Completes.ite | split | extract_lets

theorem execEngStartEffect_completes (e s) : Completes (execEngStartEffect e s) := by
  unfold execEngStartEffect
  with_reducible repeat' first | exact completes_next _ | apply Completes.ite

theorem execEngPermitGrant_completes (e s) : Completes (execEngPermitGrant e s) := by
  unfold execEngPermitGrant
  with_reducible repeat' first | exact completes_next _ | apply Completes.ite | split

theorem execEngPermitTimeout_completes (e s) : Completes (execEngPermitTimeout e s) := by
  unfold execEngPermitTimeout
  with_reducible repeat' first | exact completes_next _ | apply Completes.ite | split

theorem execEngTrigger_completes (e s) : Completes (execEngTrigger e s) := by
  unfold execEngTrigger
  with_reducible repeat' first | exact completes_next _ | apply Completes.ite

theorem execWaitEnd_completes (e s) : Completes (execWaitEnd e s) := by
  unfold execWaitEnd
  with_reducible repeat' first | exact completes_next _ | apply Completes.ite | split

theorem execDrainDone_completes (e s) : Completes (execDrainDone e s) := by
  unfold execDrainDone
  with_reducible repeat' first | exact completes_next _ | apply Completes.ite | split

theorem execWaittTrigger_completes (e s) : Completes (execWaittTrigger e s) := by
  unfold execWaittTrigger
  with_reducible repeat' first | exact completes_next _ | apply Completes.ite | split

theorem execRatePermitGrant_completes (e s) : Completes (execRatePermitGrant e s) := by
  unfold execRatePermitGrant
  with_reducible repeat' first | exact completes_next _ | apply Completes.ite | split

theorem execEngTimerExpiry_completes (e s) : Completes (execEngTimerExpiry e s) := by
  unfold execEngTimerExpiry
  with_reducible repeat' first | exact completes_next _ | apply Completes.ite

theorem execEngStepUnstall_completes (e s) : Completes (execEngStepUnstall e s) := by
  unfold execEngStepUnstall
  with_reducible repeat' first | exact completes_next _ | apply Completes.ite

theorem execStreamFillDone_completes (e s) : Completes (execStreamFillDone e s) := by
  unfold execStreamFillDone
  with_reducible repeat' first | exact completes_next _ | apply Completes.ite | split

theorem execStreamReadIssue_completes (e s) : Completes (execStreamReadIssue e s) := by
  unfold execStreamReadIssue
  with_reducible repeat' first | exact completes_next _ | apply Completes.ite

theorem execFixPointApply_completes (n s) : Completes (execFixPointApply n s) := by
  unfold execFixPointApply
  with_reducible repeat' first | exact completes_next _ | apply Completes.ite

theorem execFixRebase_completes (s) : Completes (execFixRebase s) := by
  unfold execFixRebase
  with_reducible repeat' first | exact completes_next _ | apply Completes.ite

theorem execTxSlot_completes (e s) : Completes (execTxSlot e s) := by
  unfold execTxSlot
  with_reducible repeat' first | exact completes_next _ | apply Completes.ite

theorem execStraightPathLaunch_completes (e s) : Completes (execStraightPathLaunch e s) := by
  unfold execStraightPathLaunch
  with_reducible repeat' first | exact completes_next _ | apply Completes.ite | split | extract_lets

theorem execRxWordCompare_completes (e n data s) : Completes (execRxWordCompare e n data s) := by
  unfold execRxWordCompare
  with_reducible repeat' first | exact completes_next _ | apply Completes.ite | split

theorem execVpVectorTaken_completes (e s) : Completes (execVpVectorTaken e s) := by
  unfold execVpVectorTaken
  with_reducible repeat' first | exact completes_next _ | apply Completes.ite | split

theorem execRpResponse_completes (e data skip s) : Completes (execRpResponse e data skip s) := by
  unfold execRpResponse
  with_reducible repeat' first | exact completes_next _ | apply Completes.ite | split

theorem execResponseTimeout_completes (e s) : Completes (execResponseTimeout e s) := by
  unfold execResponseTimeout
  with_reducible repeat' first | exact completes_next _ | apply Completes.ite | split

theorem execExpectationResolve_completes (e s) : Completes (execExpectationResolve e s) := by
  unfold execExpectationResolve
  with_reducible repeat' first | exact completes_next _ | apply Completes.ite | split

theorem execFailRingWrite_completes (e env s) : Completes (execFailRingWrite e env s) := by
  unfold execFailRingWrite
  with_reducible repeat' first | exact completes_next _ | apply Completes.ite | split | extract_lets

theorem execBitmapClearDone_completes (e s) : Completes (execBitmapClearDone e s) := by
  unfold execBitmapClearDone
  with_reducible repeat' first | exact completes_next _ | apply Completes.ite

theorem execNiSend_completes (site ni opc addr tag fn data s) : Completes (execNiSend site ni opc addr tag fn data s) := by
  unfold execNiSend
  with_reducible repeat' first | exact completes_next _ | apply Completes.ite | split

theorem execRouterHeadFlit_completes (site r port vc errs s) : Completes (execRouterHeadFlit site r port vc errs s) := by
  unfold execRouterHeadFlit
  with_reducible repeat' first | exact completes_next _ | apply Completes.ite | split

theorem execNiBounceReceive_completes (site ni hdrBad s) : Completes (execNiBounceReceive site ni hdrBad s) := by
  unfold execNiBounceReceive
  with_reducible repeat' first | exact completes_next _ | apply Completes.ite | split

theorem execRelayForward_completes (site ni hdrBad s) : Completes (execRelayForward site ni hdrBad s) := by
  unfold execRelayForward
  with_reducible repeat' first | exact completes_next _ | apply Completes.ite | split | extract_lets

theorem execNiDeliver_completes (site ni hdrBad noise s) : Completes (execNiDeliver site ni hdrBad noise s) := by
  unfold execNiDeliver
  with_reducible repeat' first | exact completes_next _ | apply Completes.ite | split | extract_lets

theorem execPackSend_completes (site ni src s) : Completes (execPackSend site ni src s) := by
  unfold execPackSend
  with_reducible repeat' first | exact completes_next _ | apply Completes.ite | split | extract_lets

theorem execNiResponseTimeout_completes (site ni tag s) : Completes (execNiResponseTimeout site ni tag s) := by
  unfold execNiResponseTimeout
  with_reducible repeat' first | exact completes_next _ | apply Completes.ite | split | extract_lets

theorem execStallBounce_completes (site r port vc s) : Completes (execStallBounce site r port vc s) := by
  unfold execStallBounce
  with_reducible repeat' first | exact completes_next _ | apply Completes.ite | split

theorem execPortDrained_completes (site r p s) : Completes (execPortDrained site r p s) := by
  unfold execPortDrained
  with_reducible repeat' first | exact completes_next _ | apply Completes.ite

theorem execDrainTimeoutBounce_completes (site r port vc s) : Completes (execDrainTimeoutBounce site r port vc s) := by
  unfold execDrainTimeoutBounce
  with_reducible repeat' first | exact completes_next _ | apply Completes.ite | split

theorem execRouterPortConfig_completes (w site r p vc v s) : Completes (execRouterPortConfig w site r p vc v s) := by
  unfold execRouterPortConfig
  with_reducible repeat' first | exact completes_next _ | apply Completes.ite

theorem execLinkTrainingStart_completes (l s) : Completes (execLinkTrainingStart l s) := by
  unfold execLinkTrainingStart
  with_reducible repeat' first | exact completes_next _ | apply Completes.ite | split | extract_lets

theorem execLinkTrainingDone_completes (l bad clk bs s) : Completes (execLinkTrainingDone l bad clk bs s) := by
  unfold execLinkTrainingDone
  with_reducible repeat' first | exact completes_next _ | apply Completes.ite

theorem execLinkTrainingPermitTimeout_completes (l s) : Completes (execLinkTrainingPermitTimeout l s) := by
  unfold execLinkTrainingPermitTimeout
  with_reducible repeat' first | exact completes_next _ | apply Completes.ite | split | extract_lets

theorem execLinkTrainingRetry_completes (l s) : Completes (execLinkTrainingRetry l s) := by
  unfold execLinkTrainingRetry
  with_reducible repeat' first | exact completes_next _ | apply Completes.ite

theorem execGkRoleWrite_completes (w n xsect coh s) : Completes (execGkRoleWrite w n xsect coh s) := by
  unfold execGkRoleWrite
  with_reducible repeat' first | exact completes_next _ | apply Completes.ite

theorem execLinkFrameReceive_completes (n k coh g0 g1 g2 flips s) : Completes (execLinkFrameReceive n k coh g0 g1 g2 flips s) := by
  unfold execLinkFrameReceive
  with_reducible repeat' first | exact completes_next _ | apply Completes.ite | split | extract_lets

theorem execLinkReplay_completes (n k coh g s) : Completes (execLinkReplay n k coh g s) := by
  unfold execLinkReplay
  with_reducible repeat' first | exact completes_next _ | apply Completes.ite | split | extract_lets

theorem execPoolRetrain_completes (n k coh s) : Completes (execPoolRetrain n k coh s) := by
  unfold execPoolRetrain
  with_reducible repeat' first | exact completes_next _ | apply Completes.ite

theorem execLaneHealthInterval_completes (n k counts s) : Completes (execLaneHealthInterval n k counts s) := by
  unfold execLaneHealthInterval
  with_reducible repeat' first | exact completes_next _ | apply Completes.ite

theorem execSpareSwap_completes (n k g l s) : Completes (execSpareSwap n k g l s) := by
  unfold execSpareSwap
  with_reducible repeat' first | exact completes_next _ | apply Completes.ite

theorem execSpareRejoin_completes (n k g s) : Completes (execSpareRejoin n k g s) := by
  unfold execSpareRejoin
  with_reducible repeat' first | exact completes_next _ | apply Completes.ite | split | extract_lets

theorem execCrossingSpareSwap_completes (n k g l s) : Completes (execCrossingSpareSwap n k g l s) := by
  unfold execCrossingSpareSwap
  with_reducible repeat' first | exact completes_next _ | apply Completes.ite

theorem execCrossingSwitchInstant_completes (n k g s) : Completes (execCrossingSwitchInstant n k g s) := by
  unfold execCrossingSwitchInstant
  with_reducible repeat' first | exact completes_next _ | apply Completes.ite | split | extract_lets

theorem execGroupRetire_completes (n k g clk bs s) : Completes (execGroupRetire n k g clk bs s) := by
  unfold execGroupRetire
  with_reducible repeat' first | exact completes_next _ | apply Completes.ite

theorem execGroupConversion_completes (n k g s) : Completes (execGroupConversion n k g s) := by
  unfold execGroupConversion
  with_reducible repeat' first | exact completes_next _ | apply Completes.ite | split | extract_lets

theorem execRcAccess_completes (n line write data src fn ecc s) : Completes (execRcAccess n line write data src fn ecc s) := by
  unfold execRcAccess
  with_reducible repeat' first | exact completes_next _ | apply Completes.ite

theorem execCevc_completes (n line s) : Completes (execCevc n line s) := by
  unfold execCevc
  with_reducible repeat' first | exact completes_next _ | apply Completes.ite

theorem execCack_completes (n line atHome s) : Completes (execCack n line atHome s) := by
  unfold execCack
  with_reducible repeat' first | exact completes_next _ | apply Completes.ite

theorem execDatax_completes (n line s) : Completes (execDatax n line s) := by
  unfold execDatax
  with_reducible repeat' first | exact completes_next _ | apply Completes.ite

theorem execRcCmdDone_completes (n s) : Completes (execRcCmdDone n s) := by
  unfold execRcCmdDone
  with_reducible repeat' first | exact completes_next _ | apply Completes.ite

theorem execRcwEnable_completes (w x s) : Completes (execRcwEnable w x s) := by
  unfold execRcwEnable
  with_reducible repeat' first | exact completes_next _ | apply Completes.ite

theorem execRcwDisable_completes (w x s) : Completes (execRcwDisable w x s) := by
  unfold execRcwDisable
  with_reducible repeat' first | exact completes_next _ | apply Completes.ite

theorem execRcwDisableDone_completes (x s) : Completes (execRcwDisableDone x s) := by
  unfold execRcwDisableDone
  with_reducible repeat' first | exact completes_next _ | apply Completes.ite

theorem execHomeUnreachable_completes (st s) : Completes (execHomeUnreachable st s) := by
  unfold execHomeUnreachable
  with_reducible repeat' first | exact completes_next _ | apply Completes.ite

theorem execHomeRecallDone_completes (st s) : Completes (execHomeRecallDone st s) := by
  unfold execHomeRecallDone
  with_reducible repeat' first | exact completes_next _ | apply Completes.ite

theorem execRcLossTimeout_completes (n s) : Completes (execRcLossTimeout n s) := by
  unfold execRcLossTimeout
  with_reducible repeat' first | exact completes_next _ | apply Completes.ite

theorem execHbmReadComplete_completes (st c n line finding level mirror flips s) : Completes (execHbmReadComplete st c n line finding level mirror flips s) := by
  unfold execHbmReadComplete
  with_reducible repeat' first | exact completes_next _ | apply Completes.ite | split | extract_lets

theorem execHbmRefreshDue_completes (st c s) : Completes (execHbmRefreshDue st c s) := by
  unfold execHbmRefreshDue
  with_reducible repeat' first | exact completes_next _ | apply Completes.ite

theorem execHbmTempReading_completes (st temp s) : Completes (execHbmTempReading st temp s) := by
  unfold execHbmTempReading
  with_reducible repeat' first | exact completes_next _ | apply Completes.ite

theorem execHbmRefreshBurst_completes (st s) : Completes (execHbmRefreshBurst st s) := by
  unfold execHbmRefreshBurst
  with_reducible repeat' first | exact completes_next _ | apply Completes.ite | split

theorem execRefreshBurstPermitTimeout_completes (st s) : Completes (execRefreshBurstPermitTimeout st s) := by
  unfold execRefreshBurstPermitTimeout
  with_reducible repeat' first | exact completes_next _ | apply Completes.ite

theorem execHbmTrainingStart_completes (st s) : Completes (execHbmTrainingStart st s) := by
  unfold execHbmTrainingStart
  with_reducible repeat' first | exact completes_next _ | apply Completes.ite | split | extract_lets

theorem execHbmTrainPermitTimeout_completes (st s) : Completes (execHbmTrainPermitTimeout st s) := by
  unfold execHbmTrainPermitTimeout
  with_reducible repeat' first | exact completes_next _ | apply Completes.ite | split | extract_lets

theorem execHbmTrainingDone_completes (st lrep temp rfm s) : Completes (execHbmTrainingDone st lrep temp rfm s) := by
  unfold execHbmTrainingDone
  with_reducible repeat' first | exact completes_next _ | apply Completes.ite

theorem execZeroFillDone_completes (st softLeft repaired unrepaired s) : Completes (execZeroFillDone st softLeft repaired unrepaired s) := by
  unfold execZeroFillDone
  with_reducible repeat' first | exact completes_next _ | apply Completes.ite

theorem execHbmTrainRetry_completes (st s) : Completes (execHbmTrainRetry st s) := by
  unfold execHbmTrainRetry
  with_reducible repeat' first | exact completes_next _ | apply Completes.ite

theorem execHbmRetrainPeriod_completes (st s) : Completes (execHbmRetrainPeriod st s) := by
  unfold execHbmRetrainPeriod
  with_reducible repeat' first | exact completes_next _ | apply Completes.ite

theorem execHbmChannelRetrainDone_completes (st failing s) : Completes (execHbmChannelRetrainDone st failing s) := by
  unfold execHbmChannelRetrainDone
  with_reducible repeat' first | exact completes_next _ | apply Completes.ite | split | extract_lets

theorem execSelfRefreshExitGrant_completes (st s) : Completes (execSelfRefreshExitGrant st s) := by
  unfold execSelfRefreshExitGrant
  with_reducible repeat' first | exact completes_next _ | apply Completes.ite | split

theorem execHbmPowerDown_completes (st s) : Completes (execHbmPowerDown st s) := by
  unfold execHbmPowerDown
  with_reducible repeat' first | exact completes_next _ | apply Completes.ite

theorem execHbmScrubBurst_completes (st found granted s) : Completes (execHbmScrubBurst st found granted s) := by
  unfold execHbmScrubBurst
  with_reducible repeat' first | exact completes_next _ | apply Completes.ite | split

theorem execLeafReencryptDone_completes (st bad s) : Completes (execLeafReencryptDone st bad s) := by
  unfold execLeafReencryptDone
  with_reducible repeat' first | exact completes_next _ | apply Completes.ite | split | extract_lets

theorem execSealKeyDone_completes (st keys s) : Completes (execSealKeyDone st keys s) := by
  unfold execSealKeyDone
  with_reducible repeat' first | exact completes_next _ | apply Completes.ite | split

theorem execSweepChunk_completes (st bad s) : Completes (execSweepChunk st bad s) := by
  unfold execSweepChunk
  with_reducible repeat' first | exact completes_next _ | apply Completes.ite | split

theorem execNodeLost_completes (st r level node s) : Completes (execNodeLost st r level node s) := by
  unfold execNodeLost
  with_reducible repeat' first | exact completes_next _ | apply Completes.ite

theorem execRepairPermitRetry_completes (st s) : Completes (execRepairPermitRetry st s) := by
  unfold execRepairPermitRetry
  with_reducible repeat' first | exact completes_next _ | apply Completes.ite

theorem execCounterCacheWriteback_completes (st r level node s) : Completes (execCounterCacheWriteback st r level node s) := by
  unfold execCounterCacheWriteback
  with_reducible repeat' first | exact completes_next _ | apply Completes.ite

theorem execBundleBringup_completes (b s) : Completes (execBundleBringup b s) := by
  unfold execBundleBringup
  with_reducible repeat' first | exact completes_next _ | apply Completes.ite | split

theorem execBundlePllLockCheck_completes (b locked s) : Completes (execBundlePllLockCheck b locked s) := by
  unfold execBundlePllLockCheck
  with_reducible repeat' first | exact completes_next _ | apply Completes.ite

theorem execBundleTrainDecision_completes (b rx s) : Completes (execBundleTrainDecision b rx s) := by
  unfold execBundleTrainDecision
  with_reducible repeat' first | exact completes_next _ | apply Completes.ite

theorem execBundlePermitTimeout_completes (b s) : Completes (execBundlePermitTimeout b s) := by
  unfold execBundlePermitTimeout
  with_reducible repeat' first | exact completes_next _ | apply Completes.ite | split

theorem execLoopMeasureDone_completes (l ui s) : Completes (execLoopMeasureDone l ui s) := by
  unfold execLoopMeasureDone
  with_reducible repeat' first | exact completes_next _ | apply Completes.ite | split

theorem execLossOfSignal_completes (trunk l s) : Completes (execLossOfSignal trunk l s) := by
  unfold execLossOfSignal
  with_reducible repeat' first | exact completes_next _ | apply Completes.ite

theorem execLossOfLock_completes (trunk l s) : Completes (execLossOfLock trunk l s) := by
  unfold execLossOfLock
  with_reducible repeat' first | exact completes_next _ | apply Completes.ite

theorem execLossConditionEnd_completes (trunk l lol s) : Completes (execLossConditionEnd trunk l lol s) := by
  unfold execLossConditionEnd
  with_reducible repeat' first | exact completes_next _ | apply Completes.ite

theorem execLanePortRxWord_completes (l data taken s) : Completes (execLanePortRxWord l data taken s) := by
  unfold execLanePortRxWord
  with_reducible repeat' first | exact completes_next _ | apply Completes.ite

theorem execTrunkAdapt_completes (t s) : Completes (execTrunkAdapt t s) := by
  unfold execTrunkAdapt
  with_reducible repeat' first | exact completes_next _ | apply Completes.ite | split

theorem execTrunkConverged_completes (t snr s) : Completes (execTrunkConverged t snr s) := by
  unfold execTrunkConverged
  with_reducible repeat' first | exact completes_next _ | apply Completes.ite

theorem execTrunkNoSignal_completes (t s) : Completes (execTrunkNoSignal t s) := by
  unfold execTrunkNoSignal
  with_reducible repeat' first | exact completes_next _ | apply Completes.ite

theorem execTrunkPermitTimeout_completes (t s) : Completes (execTrunkPermitTimeout t s) := by
  unfold execTrunkPermitTimeout
  with_reducible repeat' first | exact completes_next _ | apply Completes.ite | split

theorem execCaptureBeat_completes (t samples taken s) : Completes (execCaptureBeat t samples taken s) := by
  unfold execCaptureBeat
  with_reducible repeat' first | exact completes_next _ | apply Completes.ite

theorem execDescriptorFetch_completes (desc s) : Completes (execDescriptorFetch desc s) := by
  unfold execDescriptorFetch
  with_reducible repeat' first | exact completes_next _ | apply Completes.ite | split

theorem execDmaLineComplete_completes (q n data rd wr fault s) : Completes (execDmaLineComplete q n data rd wr fault s) := by
  unfold execDmaLineComplete
  with_reducible repeat' first | exact completes_next _ | apply Completes.ite | split

theorem execFailDrain_completes (q s) : Completes (execFailDrain q s) := by
  unfold execFailDrain
  with_reducible repeat' first | exact completes_next _ | apply Completes.ite | split

theorem execCfgLoad_completes (q hdr unwrap s) : Completes (execCfgLoad q hdr unwrap s) := by
  unfold execCfgLoad
  with_reducible repeat' first | exact completes_next _ | apply Completes.ite | split

theorem execMailboxTimeout_completes (n s) : Completes (execMailboxTimeout n s) := by
  unfold execMailboxTimeout
  with_reducible repeat' first | exact completes_next _ | apply Completes.ite | split

theorem execCompletionWrite_completes (q n ok s) : Completes (execCompletionWrite q n ok s) := by
  unfold execCompletionWrite
  with_reducible repeat' first | exact completes_next _ | apply Completes.ite | split | extract_lets

theorem execMsixHoldoffExpiry_completes (f v s) : Completes (execMsixHoldoffExpiry f v s) := by
  unfold execMsixHoldoffExpiry
  with_reducible repeat' first | exact completes_next _ | apply Completes.ite | split

theorem execBar4Write_completes (f off bs s) : Completes (execBar4Write f off bs s) := by
  unfold execBar4Write
  with_reducible repeat' first | exact completes_next _ | apply Completes.ite

theorem execFlrDone_completes (f s) : Completes (execFlrDone f s) := by
  unfold execFlrDone
  with_reducible repeat' first | exact completes_next _ | apply Completes.ite

theorem execBusMasterDisable_completes (f on s) : Completes (execBusMasterDisable f on s) := by
  unfold execBusMasterDisable
  with_reducible repeat' first | exact completes_next _ | apply Completes.ite

theorem execPcieLinkUp_completes (p s) : Completes (execPcieLinkUp p s) := by
  unfold execPcieLinkUp
  with_reducible repeat' first | exact completes_next _ | apply Completes.ite

theorem execStepApply_completes (s) : Completes (execStepApply s) := by
  unfold execStepApply
  with_reducible repeat' first | exact completes_next _ | apply Completes.ite | split

theorem execPtpRxEvent_completes (p ptp type seq s) : Completes (execPtpRxEvent p ptp type seq s) := by
  unfold execPtpRxEvent
  with_reducible repeat' first | exact completes_next _ | apply Completes.ite

theorem execPtpTxEvent_completes (p type seq s) : Completes (execPtpTxEvent p type seq s) := by
  unfold execPtpTxEvent
  with_reducible repeat' first | exact completes_next _ | apply Completes.ite

theorem execTcForward_completes (p type ident seq corr resid two full s) : Completes (execTcForward p type ident seq corr resid two full s) := by
  unfold execTcForward
  with_reducible repeat' first | exact completes_next _ | apply Completes.ite | split | extract_lets

theorem execResidenceTimeout_completes (s) : Completes (execResidenceTimeout s) := by
  unfold execResidenceTimeout
  with_reducible repeat' first | exact completes_next _ | apply Completes.ite | split

theorem execServoMeasurement_completes (ofs mpd seq rate s) : Completes (execServoMeasurement ofs mpd seq rate s) := by
  unfold execServoMeasurement
  with_reducible repeat' first | exact completes_next _ | apply Completes.ite

theorem execPpsPulse_completes (s) : Completes (execPpsPulse s) := by
  unfold execPpsPulse
  with_reducible repeat' first | exact completes_next _ | apply Completes.ite

theorem execPpsEnd_completes (s) : Completes (execPpsEnd s) := by
  unfold execPpsEnd
  with_reducible repeat' first | exact completes_next _ | apply Completes.ite | split

theorem execPtpPortStateChange_completes (p st link ofs s) : Completes (execPtpPortStateChange p st link ofs s) := by
  unfold execPtpPortStateChange
  with_reducible repeat' first | exact completes_next _ | apply Completes.ite

theorem execClockSourceFail_completes (silent w1 w2 expect s) : Completes (execClockSourceFail silent w1 w2 expect s) := by
  unfold execClockSourceFail
  with_reducible repeat' first | exact completes_next _ | apply Completes.ite

theorem execOscErrMeasure_completes (err s) : Completes (execOscErrMeasure err s) := by
  unfold execOscErrMeasure
  with_reducible repeat' first | exact completes_next _ | apply Completes.ite

theorem execClockAutoReturn_completes (s) : Completes (execClockAutoReturn s) := by
  unfold execClockAutoReturn
  with_reducible repeat' first | exact completes_next _ | apply Completes.ite

theorem execSynthGlideStep_completes (n k s) : Completes (execSynthGlideStep n k s) := by
  unfold execSynthGlideStep
  with_reducible repeat' first | exact completes_next _ | apply Completes.ite

theorem execRailSettleCheck_completes (n ok s) : Completes (execRailSettleCheck n ok s) := by
  unfold execRailSettleCheck
  with_reducible repeat' first | exact completes_next _ | apply Completes.ite

theorem execSynthRiseGrant_completes (n k s) : Completes (execSynthRiseGrant n k s) := by
  unfold execSynthRiseGrant
  with_reducible repeat' first | exact completes_next _ | apply Completes.ite | split

theorem execPwrTransitionDone_completes (n s) : Completes (execPwrTransitionDone n s) := by
  unfold execPwrTransitionDone
  with_reducible repeat' first | exact completes_next _ | apply Completes.ite | split | extract_lets

theorem execPermitRequest_completes (p s) : Completes (execPermitRequest p s) := by
  unfold execPermitRequest
  with_reducible repeat' first | exact completes_next _ | apply Completes.ite

theorem execPermitGrant_completes (g s) : Completes (execPermitGrant g s) := by
  unfold execPermitGrant
  with_reducible repeat' first | exact completes_next _ | apply Completes.ite | split

theorem execStepPermitReturn_completes (g s) : Completes (execStepPermitReturn g s) := by
  unfold execStepPermitReturn
  with_reducible repeat' first | exact completes_next _ | apply Completes.ite | split

theorem execDieLost_completes (n cause powered s) : Completes (execDieLost n cause powered s) := by
  unfold execDieLost
  with_reducible repeat' first | exact completes_next _ | apply Completes.ite

theorem execDieClockLost_completes (n flushed s) : Completes (execDieClockLost n flushed s) := by
  unfold execDieClockLost
  with_reducible repeat' first | exact completes_next _ | apply Completes.ite | split

theorem execDieClockRestored_completes (n s) : Completes (execDieClockRestored n s) := by
  unfold execDieClockRestored
  with_reducible repeat' first | exact completes_next _ | apply Completes.ite

theorem execDieAutoRestart_completes (n rail s) : Completes (execDieAutoRestart n rail s) := by
  unfold execDieAutoRestart
  with_reducible repeat' first | exact completes_next _ | apply Completes.ite

theorem execPackageReset_completes (t s) : Completes (execPackageReset t s) := by
  unfold execPackageReset
  with_reducible repeat' first | exact completes_next _ | apply Completes.ite | split

theorem execBootStageComplete_completes (fitted fuses sigA sigB srcOk octal bs s) : Completes (execBootStageComplete fitted fuses sigA sigB srcOk octal bs s) := by
  unfold execBootStageComplete
  with_reducible repeat' first | exact completes_next _ | apply Completes.ite | split

theorem execDieRailAbsent_completes (n s) : Completes (execDieRailAbsent n s) := by
  unfold execDieRailAbsent
  with_reducible repeat' first | exact completes_next _ | apply Completes.ite

theorem execDieRelease_completes (n rail s) : Completes (execDieRelease n rail s) := by
  unfold execDieRelease
  with_reducible repeat' first | exact completes_next _ | apply Completes.ite | split

theorem execSelfTestDone_completes (n cols rkn rows lost s) : Completes (execSelfTestDone n cols rkn rows lost s) := by
  unfold execSelfTestDone
  with_reducible repeat' first | exact completes_next _ | apply Completes.ite

theorem execDieReleaseDone_completes (n bs s) : Completes (execDieReleaseDone n bs s) := by
  unfold execDieReleaseDone
  with_reducible repeat' first | exact completes_next _ | apply Completes.ite

theorem execDieStartFail_completes (n cause s) : Completes (execDieStartFail n cause s) := by
  unfold execDieStartFail
  with_reducible repeat' first | exact completes_next _ | apply Completes.ite

theorem execCfgAutoload_completes (unwrap s) : Completes (execCfgAutoload unwrap s) := by
  unfold execCfgAutoload
  with_reducible repeat' first | exact completes_next _ | apply Completes.ite | split

theorem execRstUnlock_completes (w key s) : Completes (execRstUnlock w key s) := by
  unfold execRstUnlock
  with_reducible repeat' first | exact completes_next _ | apply Completes.ite

theorem execHubWarmReset_completes (t s) : Completes (execHubWarmReset t s) := by
  unfold execHubWarmReset
  with_reducible repeat' first | exact completes_next _ | apply Completes.ite | split

theorem execTelemetrySample_completes (site temp mv amp s) : Completes (execTelemetrySample site temp mv amp s) := by
  unfold execTelemetrySample
  with_reducible repeat' first | exact completes_next _ | apply Completes.ite

theorem execThermtripRelease_completes (s) : Completes (execThermtripRelease s) := by
  unfold execThermtripRelease
  with_reducible repeat' first | exact completes_next _ | apply Completes.ite

theorem execLifeHoursUpdate_completes (site s) : Completes (execLifeHoursUpdate site s) := by
  unfold execLifeHoursUpdate
  with_reducible repeat' first | exact completes_next _ | apply Completes.ite

theorem execResetRelease_completes (refSel testEn s) : Completes (execResetRelease refSel testEn s) := by
  unfold execResetRelease
  with_reducible repeat' first | exact completes_next _ | apply Completes.ite

theorem execConfigScrubFrame_completes (n cor unc fails slow s) : Completes (execConfigScrubFrame n cor unc fails slow s) := by
  unfold execConfigScrubFrame
  with_reducible repeat' first | exact completes_next _ | apply Completes.ite

theorem execFlashSectorRewritten_completes (ok s) : Completes (execFlashSectorRewritten ok s) := by
  unfold execFlashSectorRewritten
  with_reducible repeat' first | exact completes_next _ | apply Completes.ite | split

theorem execSessionOpen_completes (n s) : Completes (execSessionOpen n s) := by
  unfold execSessionOpen
  with_reducible repeat' first | exact completes_next _ | apply Completes.ite

theorem execSessionIdleTimeout_completes (v s) : Completes (execSessionIdleTimeout v s) := by
  unfold execSessionIdleTimeout
  with_reducible repeat' first | exact completes_next _ | apply Completes.ite | split

theorem execCounterCommit_completes (n stop s) : Completes (execCounterCommit n stop s) := by
  unfold execCounterCommit
  with_reducible repeat' first | exact completes_next _ | apply Completes.ite

theorem execTrngHealthFail_completes (s) : Completes (execTrngHealthFail s) := by
  unfold execTrngHealthFail
  with_reducible repeat' first | exact completes_next _ | apply Completes.ite

theorem execTrngHealthRecover_completes (s) : Completes (execTrngHealthRecover s) := by
  unfold execTrngHealthRecover
  with_reducible repeat' first | exact completes_next _ | apply Completes.ite

theorem execTrngWaitTimeout_completes (st s) : Completes (execTrngWaitTimeout st s) := by
  unfold execTrngWaitTimeout
  with_reducible repeat' first | exact completes_next _ | apply Completes.ite | split

theorem execHelmCoreStart_completes (c s) : Completes (execHelmCoreStart c s) := by
  unfold execHelmCoreStart
  with_reducible repeat' first | exact completes_next _ | apply Completes.ite | split

theorem execHelmIcClaim_completes (w c s) : Completes (execHelmIcClaim w c s) := by
  unfold execHelmIcClaim
  with_reducible repeat' first | exact completes_next _ | apply Completes.ite

theorem execHelmIcComplete_completes (w c src s) : Completes (execHelmIcComplete w c src s) := by
  unfold execHelmIcComplete
  with_reducible repeat' first | exact completes_next _ | apply Completes.ite

theorem execHelmNmi_completes (c acts pc prv mie handling s) : Completes (execHelmNmi c acts pc prv mie handling s) := by
  unfold execHelmNmi
  with_reducible repeat' first | exact completes_next _ | apply Completes.ite | split | extract_lets

theorem execMonitorEntry_completes (c acts pc prv mie ebreak s) : Completes (execMonitorEntry c acts pc prv mie ebreak s) := by
  unfold execMonitorEntry
  with_reducible repeat' first | exact completes_next _ | apply Completes.ite

theorem execMonitorExit_completes (c stp s) : Completes (execMonitorExit c stp s) := by
  unfold execMonitorExit
  with_reducible repeat' first | exact completes_next _ | apply Completes.ite

theorem execWdtExpiry_completes (c s) : Completes (execWdtExpiry c s) := by
  unfold execWdtExpiry
  with_reducible repeat' first | exact completes_next _ | apply Completes.ite | split

theorem execHelmMailboxDone_completes (c s) : Completes (execHelmMailboxDone c s) := by
  unfold execHelmMailboxDone
  with_reducible repeat' first | exact completes_next _ | apply Completes.ite | split

/-- A command that branches answers a next state in each branch; every other one is a single next state. -/
theorem exec_completes (c : Instr) (s : State) : Completes (exec c s) :=
  -- the commands in the order of their table
  Instr.casesOn (motive := fun c => Completes (exec c s)) c
    (fun w off bytes val env => execRegisterWrite_completes w off bytes val env s)
    (fun w off bytes env => execRcFieldRead_completes w off bytes env s)
    (fun _ _ => completes_next _)
    (fun _ _ => completes_next _)
    (fun _ _ _ => completes_next _)
    (fun w trunk l rx => execBitLoRead_completes w trunk l rx s)
    (fun _ => completes_next _)
    (fun _ => completes_next _)
    (fun _ _ _ _ _ => completes_next _)
    (fun _ => completes_next _)
    (fun site => execEventLogAppend_completes site s)
    (fun w v => execEvtAckWrite_completes w v s)
    (execJournalWrite_completes s)
    (fun _ _ _ => completes_next _)
    (fun _ _ _ => completes_next _)
    (fun d k edge => execSectorRelease_completes d k edge s)
    (fun d k => execSectorReleaseTimeout_completes d k s)
    (fun _ _ _ _ => completes_next _)
    (fun d k => execMigrationGated_completes d k s)
    (fun d k => execMigrationCaptureDone_completes d k s)
    (fun d k => execMigrationRewriteDone_completes d k s)
    (fun d k => execMigrationRestoreDone_completes d k s)
    (fun d k => execMigrationRestart_completes d k s)
    (fun d k => execMigrationPermitTimeout_completes d k s)
    (fun _ _ _ _ => completes_next _)
    (fun d k segs => execSpanContention_completes d k segs s)
    (fun d fails items => execCfgFrame_completes d fails items s)
    (fun lead edge => execCfgReleaseInstant_completes lead edge s)
    (fun _ _ _ _ => completes_next _)
    (fun d tr converged => execClockSwitchDone_completes d tr converged s)
    (fun d tr => execClockSwitchForced_completes d tr s)
    (fun d k deep col block addr upset => execMemEccError_completes d k deep col block addr upset s)
    (fun d k deep col block addr => execBramScrubWriteback_completes d k deep col block addr s)
    (fun d k lates => execRknLateAccess_completes d k lates s)
    (fun _ _ => completes_next _)
    (fun _ _ => completes_next _)
    (fun _ _ => completes_next _)
    (fun _ _ => completes_next _)
    (fun _ _ => completes_next _)
    (fun _ _ => completes_next _)
    (fun _ _ => completes_next _)
    (fun e => execEngStartEffect_completes e s)
    (fun e => execEngPermitGrant_completes e s)
    (fun e => execEngPermitTimeout_completes e s)
    (fun e => execEngTrigger_completes e s)
    (fun _ => completes_next _)
    (fun _ => completes_next _)
    (fun _ => completes_next _)
    (fun _ => completes_next _)
    (fun _ => completes_next _)
    (fun _ => completes_next _)
    (fun _ => completes_next _)
    (fun e => execWaitEnd_completes e s)
    (fun _ => completes_next _)
    (fun e => execDrainDone_completes e s)
    (fun _ => completes_next _)
    (fun _ => completes_next _)
    (fun _ => completes_next _)
    (fun e => execWaittTrigger_completes e s)
    (fun _ => completes_next _)
    (fun _ => completes_next _)
    (fun _ => completes_next _)
    (fun e => execRatePermitGrant_completes e s)
    (fun _ => completes_next _)
    (fun _ => completes_next _)
    (fun e => execEngTimerExpiry_completes e s)
    (fun e => execEngStepUnstall_completes e s)
    (fun e => execStreamFillDone_completes e s)
    (fun e => execStreamReadIssue_completes e s)
    (fun e n data status => execStreamReadComplete_completes e n data status s)
    (fun n => execFixPointApply_completes n s)
    (fun _ _ => completes_next _)
    (fun _ _ => completes_next _)
    (fun _ _ _ => completes_next _)
    (execFixRebase_completes s)
    (fun e => execTxSlot_completes e s)
    (fun e => execStraightPathLaunch_completes e s)
    (fun e n data => execRxWordCompare_completes e n data s)
    (fun e => execVpVectorTaken_completes e s)
    (fun e data skip => execRpResponse_completes e data skip s)
    (fun e => execResponseTimeout_completes e s)
    (fun e => execExpectationResolve_completes e s)
    (fun e env => execFailRingWrite_completes e env s)
    (fun _ _ => completes_next _)
    (fun _ _ _ => completes_next _)
    (fun _ _ _ => completes_next _)
    (fun _ _ => completes_next _)
    (fun e => execBitmapClearDone_completes e s)
    (fun _ _ => completes_next _)
    (fun site ni opc addr tag fn data => execNiSend_completes site ni opc addr tag fn data s)
    (fun site r port vc errs => execRouterHeadFlit_completes site r port vc errs s)
    (fun site ni hdrBad => execNiBounceReceive_completes site ni hdrBad s)
    (fun site ni hdrBad => execRelayForward_completes site ni hdrBad s)
    (fun site ni hdrBad noise => execNiDeliver_completes site ni hdrBad noise s)
    (fun site ni src => execPackSend_completes site ni src s)
    (fun site ni tag => execNiResponseTimeout_completes site ni tag s)
    (fun site r port vc => execStallBounce_completes site r port vc s)
    (fun _ _ _ _ => completes_next _)
    (fun site r p => execPortDrained_completes site r p s)
    (fun site r port vc => execDrainTimeoutBounce_completes site r port vc s)
    (fun w site r p vc v => execRouterPortConfig_completes w site r p vc v s)
    (fun _ _ _ _ => completes_next _)
    (fun _ _ _ _ => completes_next _)
    (fun _ _ _ _ => completes_next _)
    (fun l => execLinkTrainingStart_completes l s)
    (fun l bad clk bs => execLinkTrainingDone_completes l bad clk bs s)
    (fun l => execLinkTrainingPermitTimeout_completes l s)
    (fun l => execLinkTrainingRetry_completes l s)
    (fun w n xsect coh => execGkRoleWrite_completes w n xsect coh s)
    (fun n k coh g0 g1 g2 flips => execLinkFrameReceive_completes n k coh g0 g1 g2 flips s)
    (fun n k coh g => execLinkReplay_completes n k coh g s)
    (fun n k coh => execPoolRetrain_completes n k coh s)
    (fun n k counts => execLaneHealthInterval_completes n k counts s)
    (fun n k g l => execSpareSwap_completes n k g l s)
    (fun n k g => execSpareRejoin_completes n k g s)
    (fun n k g l => execCrossingSpareSwap_completes n k g l s)
    (fun n k g => execCrossingSwitchInstant_completes n k g s)
    (fun n k g clk bs => execGroupRetire_completes n k g clk bs s)
    (fun n k g => execGroupConversion_completes n k g s)
    (fun _ _ _ _ _ => completes_next _)
    (fun _ _ _ _ _ => completes_next _)
    (fun n k lc data flips => execCrossingFrameReceive_completes n k lc data flips s)
    (fun n line write data src fn ecc => execRcAccess_completes n line write data src fn ecc s)
    (fun _ _ => completes_next _)
    (fun _ _ => completes_next _)
    (fun _ _ => completes_next _)
    (fun n line => execCevc_completes n line s)
    (fun _ _ => completes_next _)
    (fun _ _ => completes_next _)
    (fun n line atHome => execCack_completes n line atHome s)
    (fun n line => execDatax_completes n line s)
    (fun _ => completes_next _)
    (fun _ _ => completes_next _)
    (fun _ _ => completes_next _)
    (fun _ _ => completes_next _)
    (fun _ _ => completes_next _)
    (fun n => execRcCmdDone_completes n s)
    (fun w x => execRcwEnable_completes w x s)
    (fun w x => execRcwDisable_completes w x s)
    (fun x => execRcwDisableDone_completes x s)
    (fun st => execHomeUnreachable_completes st s)
    (fun st => execHomeRecallDone_completes st s)
    (fun n => execRcLossTimeout_completes n s)
    (fun _ => completes_next _)
    (fun st c demand par => execHbmSchedule_completes st c demand par s)
    (fun st c n line finding level mirror flips => execHbmReadComplete_completes st c n line finding level mirror flips s)
    (fun st c => execHbmRefreshDue_completes st c s)
    (fun st temp => execHbmTempReading_completes st temp s)
    (fun st => execHbmRefreshBurst_completes st s)
    (fun st => execRefreshBurstPermitTimeout_completes st s)
    (fun st => execHbmTrainingStart_completes st s)
    (fun st => execHbmTrainPermitTimeout_completes st s)
    (fun st lrep temp rfm => execHbmTrainingDone_completes st lrep temp rfm s)
    (fun st => execHbmTrainingFail_completes st s)
    (fun st softLeft repaired unrepaired => execZeroFillDone_completes st softLeft repaired unrepaired s)
    (fun st => execHbmTrainRetry_completes st s)
    (fun st => execHbmRetrainPeriod_completes st s)
    (fun _ _ => completes_next _)
    (fun st failing => execHbmChannelRetrainDone_completes st failing s)
    (fun _ _ => completes_next _)
    (fun _ _ => completes_next _)
    (fun _ => completes_next _)
    (fun st => execSelfRefreshExitGrant_completes st s)
    (fun st => execHbmPowerDown_completes st s)
    (fun st found granted => execHbmScrubBurst_completes st found granted s)
    (fun _ _ => completes_next _)
    (fun _ _ _ _ => completes_next _)
    (fun _ _ _ => completes_next _)
    (fun _ _ _ => completes_next _)
    (fun _ _ _ => completes_next _)
    (fun _ _ _ => completes_next _)
    (fun _ _ _ => completes_next _)
    (fun _ _ _ => completes_next _)
    (fun _ _ _ _ => completes_next _)
    (fun _ _ _ => completes_next _)
    (fun st keys => execSealKeyDone_completes st keys s)
    (fun st => execSweepPermitGrant_completes st s)
    (fun st => execSweepPermitTimeout_completes st s)
    (fun st bad => execSweepChunk_completes st bad s)
    (fun _ _ _ => completes_next _)
    (fun st r level node => execNodeLost_completes st r level node s)
    (fun st => execRepairPermitRetry_completes st s)
    (fun st r level node => execCounterCacheWriteback_completes st r level node s)
    (fun st bad => execLeafReencryptDone_completes st bad s)
    (fun _ _ => completes_next _)
    (fun _ _ => completes_next _)
    (fun b => execBundleBringup_completes b s)
    (fun b locked => execBundlePllLockCheck_completes b locked s)
    (fun b rx => execBundleTrainDecision_completes b rx s)
    (fun _ _ => completes_next _)
    (fun b => execBundlePermitTimeout_completes b s)
    (fun _ _ _ => completes_next _)
    (fun _ _ => completes_next _)
    (fun l ui => execLoopMeasureDone_completes l ui s)
    (fun _ _ => completes_next _)
    (fun _ _ _ => completes_next _)
    (fun _ _ _ => completes_next _)
    (fun trunk l => execLossOfSignal_completes trunk l s)
    (fun trunk l => execLossOfLock_completes trunk l s)
    (fun trunk l lol => execLossConditionEnd_completes trunk l lol s)
    (fun l data taken => execLanePortRxWord_completes l data taken s)
    (fun _ _ => completes_next _)
    (fun t => execTrunkAdapt_completes t s)
    (fun t snr => execTrunkConverged_completes t snr s)
    (fun t => execTrunkNoSignal_completes t s)
    (fun _ _ => completes_next _)
    (fun _ _ => completes_next _)
    (fun t => execTrunkPermitTimeout_completes t s)
    (fun _ _ _ _ _ => completes_next _)
    (fun t samples taken => execCaptureBeat_completes t samples taken s)
    (fun _ _ _ => completes_next _)
    (fun _ _ _ => completes_next _)
    (fun _ _ => completes_next _)
    (fun _ _ => completes_next _)
    (fun desc => execDescriptorFetch_completes desc s)
    (fun _ => completes_next _)
    (fun _ => completes_next _)
    (fun _ => completes_next _)
    (fun _ => completes_next _)
    (fun q n data rd wr fault => execDmaLineComplete_completes q n data rd wr fault s)
    (fun _ => completes_next _)
    (fun _ => completes_next _)
    (fun _ => completes_next _)
    (fun q => execFailDrain_completes q s)
    (fun q hdr unwrap => execCfgLoad_completes q hdr unwrap s)
    (fun rec_ => execCfgRecord_completes rec_ s)
    (fun sigOk tagOk => execImageVerifyEnd_completes sigOk tagOk s)
    (fun _ => completes_next _)
    (fun _ => completes_next _)
    (fun _ => completes_next _)
    (fun _ => completes_next _)
    (fun _ => completes_next _)
    (fun _ _ => completes_next _)
    (fun n => execMailboxTimeout_completes n s)
    (fun q n ok => execCompletionWrite_completes q n ok s)
    (fun f v => execMsixHoldoffExpiry_completes f v s)
    (fun _ _ _ => completes_next _)
    (fun f off bs => execBar4Write_completes f off bs s)
    (fun _ => completes_next _)
    (fun f => execFlrDone_completes f s)
    (fun f on => execBusMasterDisable_completes f on s)
    (fun _ => completes_next _)
    (fun _ _ => completes_next _)
    (fun _ _ => completes_next _)
    (execStepApply_completes s)
    (fun _ _ => completes_next _)
    (fun _ _ => completes_next _)
    (fun p ptp type seq => execPtpRxEvent_completes p ptp type seq s)
    (fun p type seq => execPtpTxEvent_completes p type seq s)
    (fun p type ident seq corr resid two full => execTcForward_completes p type ident seq corr resid two full s)
    (execResidenceTimeout_completes s)
    (fun _ _ => completes_next _)
    (fun ofs mpd seq rate => execServoMeasurement_completes ofs mpd seq rate s)
    (execPpsPulse_completes s)
    (execPpsEnd_completes s)
    (fun _ _ _ _ => completes_next _)
    (completes_next _)
    (fun silent w1 w2 expect => execClockSourceFail_completes silent w1 w2 expect s)
    (fun err => execOscErrMeasure_completes err s)
    (execClockAutoReturn_completes s)
    (fun _ _ => completes_next _)
    (fun _ _ _ => completes_next _)
    (fun _ _ _ => completes_next _)
    (fun _ _ _ => completes_next _)
    (fun _ _ _ _ _ => completes_next _)
    (fun n k => execSynthGlideStep_completes n k s)
    (fun _ _ _ => completes_next _)
    (fun n ok => execRailSettleCheck_completes n ok s)
    (fun n k => execSynthRiseGrant_completes n k s)
    (fun _ _ => completes_next _)
    (fun _ _ => completes_next _)
    (fun _ _ => completes_next _)
    (fun _ _ _ _ => completes_next _)
    (fun n => execPwrTransitionDone_completes n s)
    (fun p => execPermitRequest_completes p s)
    (fun g => execPermitGrant_completes g s)
    (fun _ _ => completes_next _)
    (fun g => execStepPermitReturn_completes g s)
    (fun g => execPermitTimeout_completes g s)
    (completes_next _)
    (fun t => execPackageReset_completes t s)
    (fun fitted fuses sigA sigB srcOk octal bs => execBootStageComplete_completes fitted fuses sigA sigB srcOk octal bs s)
    (fun n => execDieRailAbsent_completes n s)
    (fun n rail => execDieRelease_completes n rail s)
    (fun n cols rkn rows lost => execSelfTestDone_completes n cols rkn rows lost s)
    (fun n bs => execDieReleaseDone_completes n bs s)
    (fun n cause => execDieStartFail_completes n cause s)
    (fun unwrap => execCfgAutoload_completes unwrap s)
    (fun w key => execRstUnlock_completes w key s)
    (fun t => execHubWarmReset_completes t s)
    (fun _ _ => completes_next _)
    (fun _ _ _ => completes_next _)
    (fun n cause powered => execDieLost_completes n cause powered s)
    (fun n flushed => execDieClockLost_completes n flushed s)
    (fun n => execDieClockRestored_completes n s)
    (fun n rail => execDieAutoRestart_completes n rail s)
    (fun r => execRailFault_completes r s)
    (fun site temp mv amp => execTelemetrySample_completes site temp mv amp s)
    (execThermtripRelease_completes s)
    (fun site => execLifeHoursUpdate_completes site s)
    (fun n cor unc fails slow => execConfigScrubFrame_completes n cor unc fails slow s)
    (fun _ => completes_next _)
    (fun _ => completes_next _)
    (fun n => execSessionOpen_completes n s)
    (fun _ => completes_next _)
    (fun _ => completes_next _)
    (fun v => execSessionIdleTimeout_completes v s)
    (fun n stop => execCounterCommit_completes n stop s)
    (fun _ _ _ => completes_next _)
    (fun _ _ _ => completes_next _)
    (fun _ _ => completes_next _)
    (execTrngHealthFail_completes s)
    (fun _ _ => completes_next _)
    (fun _ _ _ _ => completes_next _)
    (fun _ _ => completes_next _)
    (fun _ _ _ => completes_next _)
    (fun _ _ => completes_next _)
    (fun _ _ _ => completes_next _)
    (fun _ _ => completes_next _)
    (fun c => execHelmCoreStart_completes c s)
    (fun _ _ _ => completes_next _)
    (fun _ _ _ => completes_next _)
    (fun _ _ => completes_next _)
    (fun w c => execHelmIcClaim_completes w c s)
    (fun w c src => execHelmIcComplete_completes w c src s)
    (fun c acts pc prv mie handling => execHelmNmi_completes c acts pc prv mie handling s)
    (fun _ _ => completes_next _)
    (fun _ _ _ _ _ _ => completes_next _)
    (fun _ _ => completes_next _)
    (fun c acts pc prv mie ebreak => execMonitorEntry_completes c acts pc prv mie ebreak s)
    (fun c stp => execMonitorExit_completes c stp s)
    (fun _ _ _ => completes_next _)
    (fun _ _ _ => completes_next _)
    (fun _ _ _ => completes_next _)
    (fun _ _ _ => completes_next _)
    (fun c => execWdtExpiry_completes c s)
    (fun _ _ _ _ _ => completes_next _)
    (fun ok => execFlashSectorRewritten_completes ok s)
    (fun _ _ => completes_next _)
    (fun c => execHelmMailboxDone_completes c s)
    (fun _ => completes_next _)
    (fun _ _ => completes_next _)
    (fun _ _ => completes_next _)
    (fun _ _ => completes_next _)
    (fun _ _ => completes_next _)
    (fun p => execPelAccessDone_completes p s)
    (fun _ => completes_next _)
    (completes_next _)
    (fun _ _ => completes_next _)
    (fun _ _ => completes_next _)
    (fun _ _ => completes_next _)
    (fun _ _ => completes_next _)
    (completes_next _)
    (completes_next _)
    (fun dr env => execPelReg_completes dr env s)
    (fun code => execBypass_completes code s)
    (fun _ => completes_next _)
    (fun _ => completes_next _)
    (fun _ => completes_next _)
    (fun _ => completes_next _)
    (fun _ => completes_next _)
    (fun _ => completes_next _)
    (fun _ => completes_next _)
    (fun refSel testEn => execResetRelease_completes refSel testEn s)
    (fun _ _ _ => completes_next _)
    (fun _ _ _ => completes_next _)
    (fun _ _ _ => completes_next _)
    (fun p st link ofs => execPtpPortStateChange_completes p st link ofs s)
    (fun p => execPcieLinkUp_completes p s)
    (execTrngHealthRecover_completes s)
    (fun st => execTrngWaitTimeout_completes st s)

/-- Settles O3. -/
theorem everyCommandAnswersANextState : Obligations.EveryCommandAnswersANextState := exec_completes

/-! ## The frames of the commands -/

/-- Settles O7: a field outside the table is one of the properties that a command keeps. -/
theorem commandsChangeOnlyTheirFields : Obligations.CommandsChangeOnlyTheirFields := by
  unfold Obligations.CommandsChangeOnlyTheirFields
  intro c s t h f i hf
  exact exec_keeps (R := fun u => u.rd f i = s.rd f i) rfl (Keeps.rd hf i _) h

/-- A part is the same in a state and itself. -/
theorem Part.same_refl (s : State) (p : Part) : p.same s s := by cases p <;> rfl

/-- Settles O8: a part outside the table is one of the properties that a command keeps. -/
theorem commandsChangeOnlyTheirParts : Obligations.CommandsChangeOnlyTheirParts := by
  unfold Obligations.CommandsChangeOnlyTheirParts
  intro c s t h p hp
  by_cases hregs : p = .regs
  · subst hregs
    exact exec_keeps (R := fun u => Part.regs.same s u) rfl (Keeps.regs hp s) h
  · exact exec_keeps (R := fun u => p.same s u) (p.same_refl s) (Keeps.part hp hregs s) h

/-- Settles O10. -/
theorem noCommandTouchesTheQueue : Obligations.NoCommandTouchesTheQueue := by
  unfold Obligations.NoCommandTouchesTheQueue
  intro c s t h
  exact exec_keeps (R := fun u => u.pending = s.pending) rfl (Keeps.pending _ _ _) h

/-- Settles O9: the memories are parts outside the table of a command that stores nothing (O8). -/
theorem commandsThatStoreNothingKeepMemory : Obligations.CommandsThatStoreNothingKeepMemory := by
  unfold Obligations.CommandsThatStoreNothingKeepMemory
  intro c s t hstores h
  have hkept : ∀ p ∈ [Part.hbm, .poison, .win, .flash], p.same s t := fun p hp =>
    commandsChangeOnlyTheirParts c s t h p (Bool.eq_false_iff.mpr (List.any_eq_false.mp hstores p hp))
  have hhbm : t.hbm = s.hbm := hkept .hbm (by decide)
  have hpoison : t.poison = s.poison := hkept .poison (by decide)
  have hwin : t.win = s.win := hkept .win (by decide)
  have hflash : t.flash = s.flash := hkept .flash (by decide)
  exact ⟨fun a => by rw [hhbm], fun a => by rw [hwin], fun a => by rw [hflash], hpoison⟩

/-! ## One step -/

theorem step_of_cons {s : State} {c : Instr} {rest : List Instr} (h : s.pending = c :: rest) :
    step s = exec c { s with pending := rest } := by
  simp only [step, h]

theorem step_of_nil {s : State} (h : s.pending = []) : step s = .next s.tick := by
  simp only [step, h]

/-- The parts of the state that a nanosecond may change. -/
def tickParts : List Part := [.now, .local_, .spinePull, .out, .draws, .stewards, .lane, .trunk, .sec, .fab]

/-- What survives the changes of a nanosecond holds after it. -/
theorem State.tick_keeps {R : State → Prop} {s : State} (hR : Keeps tickParts ⟨[], [], [], false⟩ R) (hI : R s) :
    R s.tick := by
  unfold State.tick
  exact State.userNs_keeps hR.sub _ (State.laneNs_keeps hR.sub _ (State.lapse_keeps hR.sub _ _ hI))

theorem State.tick_pending (s : State) : s.tick.pending = s.pending :=
  State.tick_keeps (Keeps.pending _ _ _) rfl

theorem State.tick_rd (s : State) (f : Fld) (i : List Nat) : s.tick.rd f i = s.rd f i :=
  State.tick_keeps (R := fun u => u.rd f i = s.rd f i) (Keeps.rd rfl i _) rfl

theorem State.tick_same (s : State) {p : Part} (hp : tickParts.contains p = false) : p.same s s.tick := by
  by_cases hregs : p = .regs
  · subst hregs
    exact State.tick_keeps (R := fun u => Part.regs.same s u) (Keeps.regs hp s) rfl
  · exact State.tick_keeps (R := fun u => p.same s u) (Keeps.part hp hregs s) (p.same_refl s)

/-- The lanes and the users' designs let no time pass. -/
theorem State.tick_now (s : State) : s.tick.now = s.now + 1 :=
  State.userNs_keeps (Keeps.part (p := .now) rfl (by decide) (s.lapse 1)) _
    (State.laneNs_keeps (Keeps.part (p := .now) rfl (by decide) (s.lapse 1)) _ rfl)

/-- Settles O1. -/
theorem stepRunsTheFrontCommand : Obligations.StepRunsTheFrontCommand := by
  unfold Obligations.StepRunsTheFrontCommand
  intro c s rest h
  exact step_of_cons h

/-- Settles O2. -/
theorem emptyQueueOneNanosecond : Obligations.EmptyQueueOneNanosecond := by
  unfold Obligations.EmptyQueueOneNanosecond
  intro s h
  refine ⟨s.tick, step_of_nil h, rfl, s.tick_now, s.tick_pending.trans h, ?memory, s.tick_rd, ?parts⟩
  case memory =>
    exact ⟨s.tick_same (p := .hbm) (by decide), s.tick_same (p := .poison) (by decide),
      s.tick_same (p := .win) (by decide), s.tick_same (p := .flash) (by decide)⟩
  case parts => exact fun p hp => s.tick_same hp

/-- Settles O4: a step is a command on the state with the rest of the queue, or a nanosecond. -/
theorem stepKeepsCanonicalForms : Obligations.StepKeepsCanonicalForms := by
  unfold Obligations.StepKeepsCanonicalForms
  intro s t hmem hregs h
  cases hq : s.pending with
  | nil =>
    rw [step_of_nil hq] at h
    obtain rfl : s.tick = t := by injection h
    obtain ⟨hmem', hregs'⟩ := State.tick_keeps (Keeps.wf _ _) ⟨hmem, hregs⟩
    exact ⟨hmem', hregs', s.tick_pending.trans hq⟩
  | cons c rest =>
    rw [step_of_cons hq] at h
    have hwf : Memory.wf { s with pending := rest } = true ∧ Registers.wf { s with pending := rest } = true :=
      ⟨hmem, hregs⟩
    obtain ⟨hmem', hregs'⟩ := exec_keeps hwf (Keeps.wf _ _) h
    exact ⟨hmem', hregs', noCommandTouchesTheQueue c _ t h⟩

/-! ## The register table -/

/-- Settles O5: every table of the state after reset is empty. -/
theorem resetIsCanonical : Obligations.ResetIsCanonical := by
  unfold Obligations.ResetIsCanonical
  exact ⟨rfl, rfl, rfl, fun _ _ => rfl⟩

/-- What a key of a table reads is listed or the default. -/
theorem smGet_cases {α : Type} (m : SMap α) (k : Key) (d : α) : (k, smGet m k d) ∈ m ∨ smGet m k d = d := by
  induction m with
  | nil => exact .inr rfl
  | cons e r ih =>
    obtain ⟨j, v⟩ := e
    by_cases hj : j = k
    · subst hj; simp [smGet]
    · simp only [smGet, if_neg hj, List.mem_cons, Prod.mk.injEq]
      exact ih.imp_left .inr

/-- Reset values fit their fields. -/
theorem Fld.reset_lt (f : Fld) (i : List Nat) : f.reset i < 2 ^ f.spec.width := by
  have hhash : ∀ n, hashDefault n < 2 ^ (Fld.spec .HBM_HASH_MASK).width := by
    intro n
    have hw : (Fld.spec .HBM_HASH_MASK).width = 26 := rfl
    rw [hw]
    unfold hashDefault
    repeat' split
    all_goals omega
  unfold Fld.reset
  split
  next hf =>
    subst hf
    have hw : (Fld.spec .PG_CFG_BUDGET).width = 8 := rfl
    rw [hw]
    split <;> (try split) <;> omega
  next =>
    split
    next hf => subst hf; exact hhash _
    next => exact f.rst_lt

/-- Settles O6. -/
theorem fieldsFitTheirWidth : Obligations.FieldsFitTheirWidth := by
  unfold Obligations.FieldsFitTheirWidth
  intro s f i h
  obtain ⟨-, hfits⟩ := Bool.and_eq_true_iff.mp h
  rcases smGet_cases s.regs (fkey f i) (f.reset i) with hin | hdef
  · have hfit := List.all_eq_true.mp hfits _ hin
    simp only [regFits, fkey, Fld.ofIdx_ctorIdx] at hfit
    exact of_decide_eq_true hfit
  · exact lt_of_eq_of_lt hdef (f.reset_lt i)

/-! PROOFS. Reports, the event log and its acknowledgement (R15, R16, R494 to R498, R511). -/

/-! ## A steward's queue -/

/-- A steward without space queues none of the counts it owes. -/
theorem Steward.spill_full {q : Steward} (h : 256 ≤ q.queue.length) (mk : Nat → Report) : q.spill mk = q := by
  have hnone : min q.lostFull (256 - q.queue.length) = 0 := by omega
  simp [Steward.spill, hnone, Nat.not_lt.mpr h]

/-- With space the count that runs is queued as one report (R16). -/
theorem Steward.spill_count {q : Steward} (hroom : q.queue.length < 256) (hfull : q.lostFull = 0) (hlost : 0 < q.lost)
    (mk : Nat → Report) : q.spill mk = { q with queue := q.queue ++ [mk q.lost], lost := 0 } := by
  simp [Steward.spill, hfull, hroom, hlost]

/-- With space a full count owed is queued as one report of 65,535 (R16). -/
theorem Steward.spill_fullCount {q : Steward} (hroom : q.queue.length < 256) (hfull : q.lostFull = 1) (hlost : q.lost = 0)
    (mk : Nat → Report) : q.spill mk = { q with queue := q.queue ++ [mk 65535], lostFull := 0 } := by
  have hone : min 1 (256 - q.queue.length) = 1 := by omega
  simp [Steward.spill, hfull, hone, hlost]

/-- A report at a full steward is only counted (R16). -/
theorem State.push_full {s : State} {n : Nat} (hn : n < 8) (h : 256 ≤ (s.steward n).queue.length) (r : Report) :
    (s.push n r).steward n =
      if (s.steward n).lost + 1 = 65535 then
        { s.steward n with lost := 0, lostFull := (s.steward n).lostFull + 1 }
      else { s.steward n with lost := (s.steward n).lost + 1 } := by
  unfold State.push
  dsimp only
  rw [State.setSteward_steward, if_pos rfl, if_pos hn, Steward.spill_full h]
  simp [Steward.push, hn, Nat.not_lt.mpr h]

/-- The hub's collector always takes a report (R15). -/
theorem State.push_hub (s : State) (r : Report) : ((s.push 8 r).steward 8).queue = (s.steward 8).queue ++ [r] := by
  unfold State.push
  dsimp only
  rw [State.setSteward_steward, if_pos rfl]
  simp [Steward.push]

/-- The report of a BLOCK_ERROR_REPORT (R15). -/
noncomputable def State.blockReport (s : State) (site : Fin 9) (off : BitVec 25) (code : BitVec 16) (sev : Fin 5) (arg : BitVec 64) :
    Report :=
  { code := .fixed code.toNat, sev := sev, die := site, block := off.toNat / 256, time := s.localNs,
    valid := s.on .SX_STAT_VALID [], arg := .known arg.toNat }

/-- Settles O11, by whether the steward has space and owes a count. -/
theorem stewardQueuesReports : Obligations.StewardQueuesReports := by
  unfold Obligations.StewardQueuesReports
  refine ⟨?queued, ?counted, ?overflow, ?fullCount, ?overflowFull⟩
  case queued =>
    intro site off code sev arg s hroom
    have hq : ((s.push site (s.blockReport site off code sev arg)).steward site).queue =
        (s.steward site).queue ++ [s.blockReport site off code sev arg] := by
      by_cases hsite : site.val < 8
      · obtain ⟨hroom, hlost, hfull⟩ := hroom hsite
        exact State.push_queue hroom hlost hfull
      · have hhub : site = 8 := by omega
        subst hhub
        exact State.push_hub _ _
    exact ex_next ⟨_, hq, rfl, rfl, rfl, rfl, rfl, rfl⟩
  case counted =>
    intro d off code sev arg s hfull hlost
    refine ex_next ?_
    rw [Fin.val_castSucc, State.push_full d.isLt hfull, if_neg (by omega)]
    exact ⟨rfl, rfl⟩
  case overflow =>
    intro d s hroom hfull hlost
    refine ex_next ?_
    rw [State.setSteward_steward, if_pos rfl, Steward.spill_count hroom hfull hlost]
    exact ⟨rfl, _, rfl, rfl, rfl⟩
  case fullCount =>
    intro d off code sev arg s hfull hlost
    refine ex_next ?_
    rw [Fin.val_castSucc, State.push_full d.isLt hfull, if_pos (by omega)]
    exact ⟨rfl, rfl, rfl⟩
  case overflowFull =>
    intro d s hroom hfull hlost
    refine ex_next ?_
    rw [State.setSteward_steward, if_pos rfl, Steward.spill_fullCount hroom hfull hlost]
    exact ⟨rfl, hlost, _, rfl, rfl, rfl⟩

/-! ## The event log -/

/-- The log takes the oldest report of a queue while it runs (R401, R496). -/
theorem exec_eventLogAppend {site : Fin 9} {r : Report} {q : List Report} {s : State}
    (hfrom : 4 ≤ s.rd .BOOT_STAT_STAGE []) (hto : s.rd .BOOT_STAT_STAGE [] ≤ 6) (hq : (s.steward site).queue = r :: q) :
    exec (.eventLogAppend site) s = .next ((s.setSteward site { s.steward site with queue := q }).append r) := by
  have hruns : s.logRuns = true := by simp [State.logRuns, hfrom, hto]
  change execEventLogAppend site s = _
  simp only [execEventLogAppend, hq, hruns, if_true]

theorem State.append_stewards (s : State) (r : Report) : (s.append r).stewards = s.stewards :=
  State.append_keeps (Keeps.part (p := .stewards) rfl (by decide) s) s r rfl

theorem State.append_steward (s : State) (r : Report) (n : Nat) : (s.append r).steward n = s.steward n := by
  simp only [State.steward, State.append_stewards]

/-- With `INFO_OFF` a report of severity 0 only counts (R511). -/
theorem State.append_infoOff {s : State} {r : Report} (hsev : r.sev = 0) (hoff : s.on .EVT_CTL_INFO_OFF [] = true) :
    s.append r = s.bump .EVT_INFO_CNT_COUNT [] := if_pos ⟨hsev, hoff⟩

/-- A record not yet acknowledged that the next one takes the slot of is counted as lost (R497). -/
noncomputable def State.slotFreed (s : State) : State :=
  if (match smGet s.evlog [s.rd .EVT_NEXT_SEQ [] % 4096] none with
    | some o => s.unacked o.seq
    | none => false) = true then (s.irq 193).bump .EVT_LOST_CNT_COUNT [] else s

theorem State.slotFreed_seq (s : State) : s.slotFreed.rd .EVT_NEXT_SEQ [] = s.rd .EVT_NEXT_SEQ [] := by
  unfold State.slotFreed
  generalize (match smGet s.evlog [s.rd .EVT_NEXT_SEQ [] % 4096] none with
    | some o => s.unacked o.seq
    | none => false) = lost
  split
  · simp (disch := decide) only [State.bump_rd, State.irq_rd]
  · rfl

theorem State.slotFreed_jtodo (s : State) : s.slotFreed.jtodo = s.jtodo := by
  unfold State.slotFreed
  generalize (match smGet s.evlog [s.rd .EVT_NEXT_SEQ [] % 4096] none with
    | some o => s.unacked o.seq
    | none => false) = lost
  split <;> rfl

/-- The record of a report under the next sequence number. -/
def State.nextRec (s : State) (r : Report) : LogRec := { seq := s.rd .EVT_NEXT_SEQ [], rep := r }

/-- The log with the record in its slot, and the journal owed it if it belongs there. -/
noncomputable def State.recorded (s : State) (r : Report) : State :=
  { s.slotFreed with
    evlog := smPut s.slotFreed.evlog [s.rd .EVT_NEXT_SEQ [] % 4096] (some (s.nextRec r)) none
    jtodo := if journaled r then s.slotFreed.jtodo ++ [s.nextRec r] else s.slotFreed.jtodo }

theorem State.append_kept {s : State} {r : Report} (hkept : ¬(r.sev = 0 ∧ s.on .EVT_CTL_INFO_OFF [] = true)) :
    s.append r = ((s.recorded r).incr .EVT_NEXT_SEQ []).irq 192 := if_neg hkept

/-- What the log holds after a report that it keeps (R496, R498). -/
theorem State.append_logged {s : State} {r : Report} (hkept : ¬(r.sev = 0 ∧ s.on .EVT_CTL_INFO_OFF [] = true)) :
    smGet (s.append r).evlog [s.rd .EVT_NEXT_SEQ [] % 4096] none = some (s.nextRec r) ∧
      (s.append r).rd .EVT_NEXT_SEQ [] = (s.rd .EVT_NEXT_SEQ [] + 1) % 2 ^ 32 ∧
      ((s.append r).rd .HELM_IC_PEND_BITS [6]).testBit 0 = true ∧
      (s.append r).jtodo = (if 3 ≤ r.sev ∨ r.sev = 1 then s.jtodo ++ [s.nextRec r] else s.jtodo) := by
  rw [State.append_kept hkept]
  have hseq : (s.recorded r).rd .EVT_NEXT_SEQ [] = s.rd .EVT_NEXT_SEQ [] := s.slotFreed_seq
  refine ⟨smGet_smPut_same s.slotFreed.evlog _ (some (s.nextRec r)) none, ?_, State.setBit_get _ _ _ _ (by decide), ?_⟩
  · rw [State.irq_rd _ _ (by decide), State.incr_same, hseq]
    rfl
  · change (if journaled r = true then s.slotFreed.jtodo ++ _ else s.slotFreed.jtodo) = _
    rw [s.slotFreed_jtodo]
    exact if_congr (by simp [journaled]) rfl rfl

/-- Settles O12, by whether the report is kept or only counted. -/
theorem eventLogAppendsInOrder : Obligations.EventLogAppendsInOrder := by
  unfold Obligations.EventLogAppendsInOrder
  refine ⟨?logged, ?counted, ?journal⟩
  case logged =>
    intro site r q s hfrom hto hq hkept
    rw [exec_eventLogAppend hfrom hto hq]
    refine ex_next ⟨?_, State.append_logged hkept⟩
    rw [State.append_steward, State.setSteward_steward, if_pos rfl]
  case counted =>
    intro site r q s hfrom hto hq hsev hoff
    rw [exec_eventLogAppend hfrom hto hq, State.append_infoOff (s := s.setSteward _ _) hsev hoff]
    refine ex_next ⟨?_, rfl, State.bump_same .., State.bump_rd _ _ _ _ (by decide)⟩
    change ((s.setSteward site _).steward site).queue = q
    rw [State.setSteward_steward, if_pos rfl]
  case journal =>
    intro r q s hq
    have h : exec .journalWrite s = .next { s with jtodo := q, journal := (r :: s.journal).take 16384 } := by
      change execJournalWrite s = _
      simp only [execJournalWrite, hq]
    rw [h]
    exact ex_next ⟨rfl, rfl⟩

/-! ## The acknowledgement -/

/-- What a write of `EVT_ACK` by a writer that is not muted does, by whether the value lies in the window (R497). -/
theorem exec_evtAckWrite {w : Writer} {v : BitVec 32} {s : State} (h : s.mute w = false) :
    exec (.evtAckWrite w v) s = .next
      (if (v.toNat + 2 ^ 32 - s.rd .EVT_ACK_SEQ []) % 2 ^ 32 ≤
          (s.rd .EVT_NEXT_SEQ [] + 2 ^ 32 - s.rd .EVT_ACK_SEQ []) % 2 ^ 32 then s.wr .EVT_ACK_SEQ [] v.toNat
      else s.drop w .EVT_ACK [] v.toNat) := by
  change execEvtAckWrite w v s = _
  unfold execEvtAckWrite
  simp only [h, Bool.false_eq_true, if_false]
  split <;> rfl

/-- Settles O13, by whether the value lies in the window. -/
theorem eventAckAcceptsTheWindow : Obligations.EventAckAcceptsTheWindow := by
  unfold Obligations.EventAckAcceptsTheWindow
  refine ⟨?accepted, ?dropped⟩
  case accepted =>
    intro w v s hmute hin
    rw [exec_evtAckWrite hmute, if_pos hin]
    refine ex_next ⟨?_, s.wr_sameFields _ _ _⟩
    rw [State.rd_wr_same]
    exact Nat.mod_eq_of_lt v.isLt
  case dropped =>
    intro w v s hmute hout
    rw [exec_evtAckWrite hmute, if_neg (by omega)]
    exact ex_next ⟨fun _ _ _ => rfl, _, State.push_hub _ _, rfl⟩

/-! PROOFS. Release, reset and migration of sectors (R43 to R48, R58 to R62), over further laws of the draw permits (R391,
R393). -/

/-! ## Draw permits: timeouts, and what permits leave alone -/

/-- The parts of the state that the draw permits may change. -/
def permitParts : List Part := [.now, .local_, .regs, .stewards, .govs, .spinePull]

/-- Acting on a grant changes no part outside the permits' own. -/
theorem State.takeGrant_part {s t : State} {g op : Nat} {who : List Nat} (h : s.takeGrant g op who = some t) {p : Part}
    (hp : permitParts.contains p = false) : p.same s t :=
  State.takeGrant_keeps (Keeps.part hp (by rintro rfl; cases hp) s) s g op who (p.same_refl s) h

/-- Acting on a timeout changes no field outside its governor's own. -/
theorem State.takeTimeout_rd {s t : State} {g op : Nat} {who : List Nat} (h : s.takeTimeout g op who = some t) {f : Fld}
    (hf : hasFld ⟨[.PG_ERR_OP, .PG_ERR_OVERSIZE, .PG_ERR_UNITS, .PG_ERR_VALID, .PG_TO_CNT_COUNT], [], [], false⟩ f = false)
    (i : List Nat) : t.rd f i = s.rd f i :=
  State.takeTimeout_keeps (Keeps.rd hf i (s.rd f i)) s g op who rfl h

/-- A request withdrawn as timed out waits for its requester to act on it (R393). -/
theorem State.expire_expired (s : State) (g : Nat) (p : Permit) (oversize : Bool) :
    ((s.expire g p oversize).gov g).expired = (s.gov g).expired ++ [p] := by
  have hgov : ∀ u : State, u.gov = s.gov →
      ((u.setGov g { u.gov g with expired := (u.gov g).expired ++ [p] }).gov g).expired = (s.gov g).expired ++ [p] := by
    intro u hu
    rw [State.setGov_gov, if_pos rfl, hu]
  unfold State.expire
  rw [State.raise_gov]
  apply hgov
  split <;> rfl

/-- When a requester may act on a timeout (R393). -/
theorem State.timeoutReady_iff {s : State} {g op : Nat} {who : List Nat} :
    s.timeoutReady g op who = true ↔ (s.gov g).expired.any (·.is op who) = true ∨
      ∃ p, (s.gov g).queue.find? (·.is op who) = some p ∧ p.due ≠ 0 := by
  unfold State.timeoutReady
  cases hq : (s.gov g).queue.find? (·.is op who) <;> simp

/-- A requester that may act on its timeout takes it. -/
theorem State.takeTimeout_of_timeoutReady {s : State} {g op : Nat} {who : List Nat}
    (h : s.timeoutReady g op who = true) : ∃ t, s.takeTimeout g op who = some t := by
  rw [← Option.isSome_iff_exists]
  unfold State.takeTimeout
  by_cases he : (s.gov g).expired.any (·.is op who) = true
  · simp [he]
  · obtain ⟨p, hp, hdue⟩ := (State.timeoutReady_iff.mp h).resolve_left he
    have his : p.is op who = true := List.find?_some (p := fun x : Permit => x.is op who) hp
    simp [he, hp, hdue, State.expire_expired, his]

/-- Time does not run back at a grant. -/
theorem State.grantHead_now (s : State) (g : Nat) : s.now ≤ (s.grantHead g).now := by
  have hreq : ∀ (u : State) (g op units : Nat) (who : List Nat) (chain : List (List Nat)),
      (u.request g op units who chain).now = u.now := fun u g op units who chain =>
    State.request_keeps (Keeps.part (p := .now) rfl (by decide) u) u g op units who chain rfl
  have hlapse : s.now ≤ (s.lapseTo (s.grantTime g)).now := by rw [State.lapseTo_now]; exact Nat.le_max_left _ _
  unfold State.grantHead
  cases (s.gov g).queue with
  | nil => exact Nat.le_refl _
  | cons p q =>
    dsimp only
    split
    · cases p.chain with
      | nil => exact hlapse
      | cons c r =>
        change s.now ≤ (State.request _ _ _ _ _ _).now
        rw [hreq]
        exact hlapse
    · exact Nat.le_refl _

theorem State.drive_now (s : State) (g : Nat) (who : List Nat) (n : Nat) : s.now ≤ (s.drive g who n).now := by
  induction n generalizing s with
  | zero => exact Nat.le_refl _
  | succ n ih =>
    unfold State.drive
    split
    · split
      · exact (s.grantHead_now g).trans (ih _)
      · exact Nat.le_refl _
    · exact Nat.le_refl _

/-- A grant acted on was given already, or is given now; it leaves the grants that wait (R391). -/
theorem State.takeGrant_cases {s t : State} {g op : Nat} {who : List Nat} (h : s.takeGrant g op who = some t) :
    ∃ u, (u = s ∨ u = s.grantHead g) ∧
      t = u.setGov g { u.gov g with ready := (u.gov g).ready.filter (fun p => !p.is op who) } := by
  have hu : ∀ u : State, (u = s ∨ u = s.grantHead g) →
      (if (u.gov g).ready.any (·.is op who) then
        some (u.setGov g { u.gov g with ready := (u.gov g).ready.filter (fun p => !p.is op who) }) else none) = some t →
      ∃ u, (u = s ∨ u = s.grantHead g) ∧
        t = u.setGov g { u.gov g with ready := (u.gov g).ready.filter (fun p => !p.is op who) } := by
    intro u hu h
    split at h
    · exact ⟨u, hu, (Option.some.inj h).symm⟩
    · cases h
  refine hu _ ?_ h
  split
  · exact .inl rfl
  · split
    · split
      · exact .inr rfl
      · exact .inl rfl
    · exact .inl rfl

theorem State.takeGrant_now {s t : State} {g op : Nat} {who : List Nat} (h : s.takeGrant g op who = some t) :
    s.now ≤ t.now := by
  obtain ⟨u, rfl | rfl, rfl⟩ := State.takeGrant_cases h
  · exact Nat.le_refl _
  · exact s.grantHead_now g

/-! ## Sectors -/

theorem State.sector_of_sec {s t : State} (h : t.sec = s.sec) (d k : Nat) : t.sector d k = s.sector d k := by
  simp only [State.sector, h]

/-- A sector that runs has its outputs live, its trees running and its bridges open (R44). -/
theorem State.sectorRun_fields (s : State) (d k : Nat) :
    (s.sectorRun d k).rd .SEC_STATUS_STATE [d, k] = 3 ∧ (s.sectorRun d k).rd .SEC_STATUS_ISOLATED [d, k] = 0 ∧
      (s.sectorRun d k).rd .SEC_STATUS_PERMIT_WAIT [d, k] = 0 := by
  simp [State.sectorRun, secStatusState_width]

theorem State.sectorRun_sector (s : State) (d k : Nat) : (s.sectorRun d k).sector d k =
    { s.sector d k with
      ffInit := false, gated := false, frozen := false, bridges := true, opened := true, mig := 0, migT := 0, migP := 0,
      migHeld := false } := by
  unfold State.sectorRun
  simp [State.wr_sector, State.setSector_sector]

/-- A sector reset returns the fields of class SEC of its sector (R6, R43). -/
theorem State.sectorReset_sec (s : State) (d k : Nat) {f : Fld} (hf : f.spec.cls = .sec) :
    (s.sectorReset d k).rd f [d, k] = f.reset [d, k] := by
  have hne : ∀ g : Fld, g.spec.cls = .die → g ≠ f := by rintro g hg rfl; rw [hg] at hf; cases hf
  unfold State.sectorReset
  dsimp only
  rw [State.rd_wr_fld _ _ _ _ _ _ (hne _ rfl), State.rd_wr_fld _ _ _ _ _ _ (hne _ rfl),
    State.rd_wr_fld _ _ _ _ _ _ (hne _ rfl), State.rd_wr_fld _ _ _ _ _ _ (hne _ rfl),
    State.rd_wr_fld _ _ _ _ _ _ (hne _ rfl)]
  exact (State.rd_clearRegs ..).trans (if_pos (by simp [secClears, hf]))

/-- A sector reset keeps what is not of its class SEC, apart from `SEC_STATUS` and `SEC_CTL` (R6, R43). -/
theorem State.sectorReset_keeps_rest (s : State) (d k : Nat) {f : Fld} {i : List Nat} (hf : f.spec.cls ≠ .sec ∨ i ≠ [d, k])
    (hstatus : f.reg ≠ .SEC_STATUS) (hctl : f.reg ≠ .SEC_CTL) : (s.sectorReset d k).rd f i = s.rd f i := by
  have hs : ∀ g : Fld, g.reg = .SEC_STATUS → g ≠ f := by rintro g hg rfl; exact hstatus hg
  have hc : ∀ g : Fld, g.reg = .SEC_CTL → g ≠ f := by rintro g hg rfl; exact hctl hg
  have hout : ¬ secClears d k f i = true := by
    simp only [secClears, Bool.and_eq_true, beq_iff_eq]
    tauto
  unfold State.sectorReset
  dsimp only
  rw [State.rd_wr_fld _ _ _ _ _ _ (hc _ rfl), State.rd_wr_fld _ _ _ _ _ _ (hs _ rfl),
    State.rd_wr_fld _ _ _ _ _ _ (hs _ rfl), State.rd_wr_fld _ _ _ _ _ _ (hs _ rfl),
    State.rd_wr_fld _ _ _ _ _ _ (hs _ rfl)]
  exact (State.rd_clearRegs ..).trans (if_neg hout)

/-- A waiting sector in `STATE` 2 whose permit timed out stays held (R48). -/
theorem exec_sectorReleaseTimeout {d : Fin 8} {k : Fin 40} {s : State} (hst : s.rd .SEC_STATUS_STATE [d, k] = 2)
    (hwait : s.rd .SEC_STATUS_PERMIT_WAIT [d, k] = 1) (h : s.timeoutReady d 4 [d, k] = true) :
    ∃ t, s.takeTimeout d 4 [d, k] = some t ∧ exec (.sectorReleaseTimeout d k) s = .next
      (((t.wr .SEC_STATUS_PERMIT_WAIT [d, k] 0).wr .SEC_CTL_RESET [d, k] 1).raise .SEC_CTL [d, k] 48 2 [k]) := by
  obtain ⟨t, ht⟩ := State.takeTimeout_of_timeoutReady h
  refine ⟨t, ht, ?_⟩
  change execSectorReleaseTimeout d k s = _
  unfold execSectorReleaseTimeout
  rw [if_pos ⟨hst, hwait⟩, ht]

/-- Settles O15: the grant, the timeout, and the reset by class. -/
theorem sectorReleasesAtTheGrant : Obligations.SectorReleasesAtTheGrant := by
  unfold Obligations.SectorReleasesAtTheGrant
  refine ⟨?granted, ?timedOut, ?reset⟩
  case granted =>
    intro d k edge s hst hwait hgrant hedge
    obtain ⟨t, ht, hexec⟩ := exec_sectorRelease_granted hst hwait hgrant hedge
    obtain ⟨hstate, hiso, hw⟩ := (t.lapse edge).sectorRun_fields d k
    refine ⟨_, hexec, hstate, hiso, hw, ?_, ?_, ?_⟩
    · rw [State.sectorRun_sector]
    · rw [State.sectorRun_sector]
    · have hnow : s.now ≤ t.now := (s.drive_now d [d, k] 4).trans (State.takeGrant_now ht)
      exact Nat.add_le_add_right hnow edge
  case timedOut =>
    intro d k s hst hwait hready
    obtain ⟨t, ht, hexec⟩ := exec_sectorReleaseTimeout hst hwait hready
    refine ⟨_, hexec, ?_, ?_, ?_⟩
    all_goals simp (disch := decide) only [State.raise_rd, State.rd_wr_fld, State.rd_wr_same, State.takeTimeout_rd ht, hst]
    all_goals rfl
  case reset =>
    intro w d k s h hst
    rw [exec_sectorReset h, if_pos hst]
    refine ex_next ⟨fun f hf _ => State.sectorReset_sec _ _ _ hf, fun f i hf hstatus hctl => ?_⟩
    rw [State.sectorReset_keeps_rest _ _ _ hf hstatus hctl]
    exact State.rd_wr_fld _ _ _ _ _ _ (by rintro rfl; exact hctl rfl)

/-! PROOFS. Migration of a sector through the steps of R61, and defects of its columns (R58 to R60). -/

theorem secColmapActive_width : (Fld.spec .SEC_COLMAP_ACTIVE).width = 5 := rfl
theorem secColmapField_width : (Fld.spec .SEC_COLMAP_FIELD).width = 5 := rfl
theorem secColmapDefects_width : (Fld.spec .SEC_COLMAP_DEFECTS).width = 2 := rfl

/-! ## Steps of a migration -/

theorem State.remapDone_sector (s : State) (d k d' k' : Nat) : (s.remapDone d k).sector d' k' = s.sector d' k' :=
  State.sector_of_sec (State.remapDone_keeps (Keeps.part (p := .sec) rfl (by decide) s) s d k rfl) d' k'

/-- With the remap in force none is pending (R59). -/
theorem State.remapDone_pending (s : State) (d k : Nat) : (s.remapDone d k).rd .SEC_STATUS_PENDING_REMAP [d, k] = 0 := by
  unfold State.remapDone
  rw [State.notice_rd _ _ _ _ _ _ _ _ (by decide)]
  simp

theorem State.request_sec (s : State) (g op units : Nat) (who : List Nat) (chain : List (List Nat)) :
    (s.request g op units who chain).sec = s.sec :=
  State.request_keeps (Keeps.part (p := .sec) rfl (by decide) s) s g op units who chain rfl

/-- A request within the budget changes no field (R391). -/
theorem State.request_regs {s : State} {g units : Nat} (hfit : units ≤ s.rd .PG_CFG_BUDGET [g]) (op : Nat) (who : List Nat)
    (chain : List (List Nat)) : (s.request g op units who chain).regs = s.regs := by
  unfold State.request
  dsimp only
  rw [if_neg (Nat.not_lt.mpr hfit)]
  rfl

/-- MIGRATE of a running sector with a pending remap starts a migration (R61). -/
theorem exec_migrate {w : Writer} {d : Fin 8} {k : Fin 40} {p : Nat} {s : State} (h : s.reaches w .SEC_CTL [d, k] = true)
    (hst : s.rd .SEC_STATUS_STATE [d, k] = 3) (hpend : s.rd .SEC_STATUS_PENDING_REMAP [d, k] = 1) :
    exec (.migrate w d k p) s = .next (s.startMigration d k p false) := by
  change execMigrate w d k p s = _
  unfold execMigrate
  rw [State.reach_of h, if_pos ⟨hst, hpend⟩]

/-- The steps of a migration, each in `STATE` 4 after the one before it. -/
theorem exec_migrationGated {d : Fin 8} {k : Fin 40} {s : State} (hst : s.rd .SEC_STATUS_STATE [d, k] = 4)
    (hmig : (s.sector d k).mig = 1) : exec (.migrationGated d k) s =
      .next ((s.lapseTo (s.sector d k).migT).setSector d k
        { s.sector d k with gated := true, mig := 2, migT := (s.sector d k).migT + 16000 }) :=
  if_pos ⟨hst, hmig⟩

theorem exec_migrationCaptureDone {d : Fin 8} {k : Fin 40} {s : State} (hst : s.rd .SEC_STATUS_STATE [d, k] = 4)
    (hmig : (s.sector d k).mig = 2) : exec (.migrationCaptureDone d k) s =
      .next ((s.lapseTo (s.sector d k).migT).setSector d k
        { s.sector d k with mig := 3, migT := (s.sector d k).migT + (30 - s.knownDefect d k) * 32768 }) :=
  if_pos ⟨hst, hmig⟩

/-- The map takes its new value once the columns are rewritten (R61). -/
noncomputable def State.rewritten (s : State) (d k : Nat) : State :=
  (s.lapseTo (s.sector d k).migT).wr .SEC_COLMAP_ACTIVE [d, k] (s.knownDefect d k)

theorem exec_migrationRewriteDone {d : Fin 8} {k : Fin 40} {s : State} (hst : s.rd .SEC_STATUS_STATE [d, k] = 4)
    (hmig : (s.sector d k).mig = 3) (hheld : (s.sector d k).migHeld = false) : exec (.migrationRewriteDone d k) s =
      .next ((s.rewritten d k).setSector d k { s.sector d k with mig := 4, migT := (s.sector d k).migT + 16000 }) :=
  (if_pos ⟨hst, hmig⟩).trans (if_neg (by simp [hheld]))

theorem exec_migrationRewriteDone_held {d : Fin 8} {k : Fin 40} {s : State} (hst : s.rd .SEC_STATUS_STATE [d, k] = 4)
    (hmig : (s.sector d k).mig = 3) (hheld : (s.sector d k).migHeld = true) : exec (.migrationRewriteDone d k) s =
      .next (((((s.rewritten d k).setSector d k { s.sector d k with mig := 0, migT := 0, migP := 0, migHeld := false }).wr
        .SEC_STATUS_STATE [d, k] 2).wr .SEC_STATUS_RESET_HELD [d, k] 0).remapDone d k) :=
  (if_pos ⟨hst, hmig⟩).trans (if_pos hheld)

theorem exec_migrationRestoreDone {d : Fin 8} {k : Fin 40} {s : State} (hst : s.rd .SEC_STATUS_STATE [d, k] = 4)
    (hmig : (s.sector d k).mig = 4) : exec (.migrationRestoreDone d k) s =
      .next (((s.lapseTo (s.sector d k).migT).setSector d k { s.sector d k with mig := 5, migT := 0 }).request d 4 1 [d, k] []) :=
  if_pos ⟨hst, hmig⟩

/-- At the grant a sector with no reset held runs again (R61). -/
theorem exec_migrationRestart_runs {d : Fin 8} {k : Fin 40} {s : State} (hst : s.rd .SEC_STATUS_STATE [d, k] = 4)
    (hmig : (s.sector d k).mig = 5) (hgrant : s.grantReady d 4 [d, k] = true)
    (hheld : s.rd .SEC_STATUS_RESET_HELD [d, k] = 0) :
    ∃ t, s.takeGrant d 4 [d, k] = some t ∧ exec (.migrationRestart d k) s = .next ((t.sectorRun d k).remapDone d k) := by
  obtain ⟨t, ht⟩ := State.takeGrant_of_grantReady hgrant
  have hheld' : t.on .SEC_STATUS_RESET_HELD [d, k] = false := by
    simp [State.on, State.takeGrant_rd ht (f := .SEC_STATUS_RESET_HELD) (by decide), hheld]
  refine ⟨t, ht, ?_⟩
  change execMigrationRestart d k s = _
  unfold execMigrationRestart
  rw [if_pos ⟨hst, hmig⟩, ht]
  simp [hheld']

/-- A migration whose permit timed out ends in sector reset (R61). -/
theorem exec_migrationPermitTimeout {d : Fin 8} {k : Fin 40} {s : State} (hst : s.rd .SEC_STATUS_STATE [d, k] = 4)
    (hmig : (s.sector d k).mig = 5) (hready : s.timeoutReady d 4 [d, k] = true) :
    ∃ t, s.takeTimeout d 4 [d, k] = some t ∧ exec (.migrationPermitTimeout d k) s =
      .next (((t.sectorReset d k).raise .SEC_CTL [d, k] 48 2 [k]).remapDone d k) := by
  obtain ⟨t, ht⟩ := State.takeTimeout_of_timeoutReady hready
  refine ⟨t, ht, ?_⟩
  change execMigrationPermitTimeout d k s = _
  unfold execMigrationPermitTimeout
  rw [if_pos ⟨hst, hmig⟩, ht]

/-! ## Defects -/

section
variable {s : State} {d k p : Nat}

/-- The defect is counted, recorded, and found in the field if no other was (R58, R62). -/
noncomputable def State.defectNoted (s : State) (d k p : Nat) : State :=
  let s := (s.wr .SEC_COLMAP_DEFECTS [d, k] (min 3 (s.rd .SEC_COLMAP_DEFECTS [d, k] + 1))).record [d, 59, k, p]
  if s.rd .SEC_COLMAP_FIELD [d, k] = 31 then s.wr .SEC_COLMAP_FIELD [d, k] p else s

/-- A defect noted changes the counts of its sector and the column found. -/
theorem State.defectNoted_rd (s : State) (d k p : Nat) {f : Fld}
    (hf : hasFld ⟨[.SEC_COLMAP_DEFECTS, .SEC_COLMAP_FIELD], [], [], false⟩ f = false) (i : List Nat) :
    (s.defectNoted d k p).rd f i = s.rd f i := by
  have hd : f ≠ .SEC_COLMAP_DEFECTS := by rintro rfl; cases hf
  have hc : f ≠ .SEC_COLMAP_FIELD := by rintro rfl; cases hf
  unfold State.defectNoted
  dsimp only
  split
  · rw [State.rd_wr_fld _ _ _ _ _ _ hc.symm, State.record_rd _ _ rfl, State.rd_wr_fld _ _ _ _ _ _ hd.symm]
  · rw [State.record_rd _ _ rfl, State.rd_wr_fld _ _ _ _ _ _ hd.symm]

theorem State.defectNoted_defects (s : State) (d k p : Nat) :
    (s.defectNoted d k p).rd .SEC_COLMAP_DEFECTS [d, k] = min 3 (s.rd .SEC_COLMAP_DEFECTS [d, k] + 1) := by
  have hmin : min 3 (s.rd .SEC_COLMAP_DEFECTS [d, k] + 1) % 4 = min 3 (s.rd .SEC_COLMAP_DEFECTS [d, k] + 1) := by omega
  unfold State.defectNoted
  dsimp only
  split
  · simp [State.record_rd, hasFld, secColmapDefects_width, hmin]
  · simp [State.record_rd, hasFld, secColmapDefects_width, hmin]

/-- A sector with no known defect has none fused and none found (R56). -/
theorem State.knownDefect_none (h : s.knownDefect d k = 31) :
    s.rd .SEC_COLMAP_FUSED [d, k] = 31 ∧ s.rd .SEC_COLMAP_FIELD [d, k] = 31 := by
  unfold State.knownDefect at h
  split at h
  next hfused => exact absurd h hfused
  next hfused => exact ⟨by omega, h⟩

/-- The first defect of a sector is the column found (R58). -/
theorem State.defectNoted_field (h : s.knownDefect d k = 31) (hp : p < 31) :
    (s.defectNoted d k p).rd .SEC_COLMAP_FIELD [d, k] = p := by
  obtain ⟨-, hfield⟩ := State.knownDefect_none h
  have hp' : p % 32 = p := by omega
  unfold State.defectNoted
  simp [State.record_rd, hasFld, hfield, secColmapField_width, hp']

theorem State.defectNoted_knownDefect (h : s.knownDefect d k = 31) (hp : p < 31) :
    (s.defectNoted d k p).knownDefect d k = p := by
  obtain ⟨hfused, -⟩ := State.knownDefect_none h
  have hfused' : (s.defectNoted d k p).rd .SEC_COLMAP_FUSED [d, k] = 31 := by
    rw [State.defectNoted_rd _ _ _ _ (by decide), hfused]
  unfold State.knownDefect
  rw [if_neg (by simp [hfused']), State.defectNoted_field h hp]

/-- What a defect not yet known does to its sector (R58 to R60). -/
theorem State.columnDefect_new (h : s.columnKnown d k p = false) (period : Nat) : s.columnDefect d k p period =
    if (s.defectNoted d k p).rd .SEC_STATUS_STATE [d, k] = 5 then s.defectNoted d k p
    else if s.knownDefect d k = 31 then
      if p = 30 then ((s.defectNoted d k p).wr .SEC_COLMAP_ACTIVE [d, k] 30).remapDone d k
      else (s.defectNoted d k p).applyRemap d k period
    else (s.defectNoted d k p).sectorUnavailable d k 59 :=
  if_neg (by simp [h])

/-- The first defect of an empty or loading sector takes effect at once (R59, R60). -/
theorem State.columnDefect_first (h : s.columnKnown d k p = false) (hknown : s.knownDefect d k = 31) (hp : p < 31)
    (hst : s.rd .SEC_STATUS_STATE [d, k] = 0 ∨ s.rd .SEC_STATUS_STATE [d, k] = 1) (period : Nat) :
    s.columnDefect d k p period = ((s.defectNoted d k p).wr .SEC_COLMAP_ACTIVE [d, k] p).remapDone d k := by
  have hst' : (s.defectNoted d k p).rd .SEC_STATUS_STATE [d, k] = s.rd .SEC_STATUS_STATE [d, k] :=
    State.defectNoted_rd _ _ _ _ (by decide) _
  rw [State.columnDefect_new h, hst', if_neg (by omega), if_pos hknown]
  split
  next h30 => rw [h30]
  next =>
    unfold State.applyRemap
    rw [State.defectNoted_knownDefect hknown hp, hst']
    rcases hst with hst | hst <;> rw [hst] <;> rfl

/-- An unavailable sector reads `STATE` 5 and is isolated (R59). -/
theorem State.sectorUnavailable_fields {rule : Nat} (hst : s.rd .SEC_STATUS_STATE [d, k] ≠ 5) :
    (s.sectorUnavailable d k rule).rd .SEC_STATUS_STATE [d, k] = 5 ∧
      (s.sectorUnavailable d k rule).rd .SEC_STATUS_ISOLATED [d, k] = 1 := by
  obtain ⟨-, -, hiso⟩ := s.sectorReset_fields d k
  unfold State.sectorUnavailable
  rw [if_neg hst]
  dsimp only
  constructor <;> rw [State.sectorLost_rd _ _ (by decide), State.raise_rd _ _ _ _ _ _ rfl]
  · simp [secStatusState_width]
  · rw [State.rd_wr_fld _ _ _ _ _ _ (by decide), hiso]

end

/-- Settles O16: the steps of R61 in order, then the defects. -/
theorem migrationFollowsItsSteps : Obligations.MigrationFollowsItsSteps := by
  unfold Obligations.MigrationFollowsItsSteps
  refine ⟨?starts, ?gated, ?captured, ?rewritten, ?rewrittenHeld, ?restored, ?runs, ?held, ?timedOut, ?first, ?second⟩
  case starts =>
    intro w d k p s h hst hpend
    rw [exec_migrate h hst hpend]
    refine ex_next ⟨?_, ?_⟩
    · simp [State.startMigration, State.setSector_rd, hasFld, secStatusState_width]
    · simp [State.startMigration, State.setSector_sector]
  case gated =>
    intro d k s hst hmig
    rw [exec_migrationGated hst hmig]
    refine ex_next ?_
    rw [State.setSector_sector, if_pos ⟨rfl, rfl⟩]
    exact ⟨rfl, rfl, rfl, State.lapseTo_now _ _, fun _ _ _ => rfl⟩
  case captured =>
    intro d k s hst hmig
    rw [exec_migrationCaptureDone hst hmig]
    refine ex_next ?_
    rw [State.setSector_sector, if_pos ⟨rfl, rfl⟩]
    exact ⟨rfl, rfl, State.lapseTo_now _ _, fun _ _ _ => rfl⟩
  case rewritten =>
    intro d k s hst hmig hheld
    rw [exec_migrationRewriteDone hst hmig hheld]
    refine ex_next ?_
    rw [State.setSector_sector, if_pos ⟨rfl, rfl⟩]
    exact ⟨rfl, State.rd_wr_same _ _ _ _, rfl, (s.lapseTo _).wr_sameFields _ _ _⟩
  case rewrittenHeld =>
    intro d k s hst hmig hheld
    rw [exec_migrationRewriteDone_held hst hmig hheld]
    refine ex_next ⟨?_, ?_, ?_, State.remapDone_pending ..⟩
    · rw [State.remapDone_sector, State.wr_sector, State.wr_sector, State.setSector_sector, if_pos ⟨rfl, rfl⟩]
    · simp (disch := decide) only [State.remapDone_rd, State.rd_wr_fld, State.setSector_rd]
      exact State.rd_wr_same _ _ _ _
    · simp (disch := decide) only [State.remapDone_rd, State.rd_wr_fld, State.rd_wr_same]
      rfl
  case restored =>
    intro d k s hst hmig hfit
    rw [exec_migrationRestoreDone hst hmig]
    have hfit' : 1 ≤ ((s.lapseTo (s.sector d k).migT).setSector d k { s.sector d k with mig := 5, migT := 0 }).rd
      .PG_CFG_BUDGET [d] := hfit
    refine ex_next ⟨?_, State.request_queue_length _ _ _ _ _ _ hfit', fun f i _ => ?_⟩
    · rw [State.sector_of_sec (State.request_sec ..), State.setSector_sector, if_pos ⟨rfl, rfl⟩]
    · exact State.rd_of_regs (State.request_regs hfit' ..) f i
  case runs =>
    intro d k s hst hmig hgrant hheld
    obtain ⟨t, -, ht⟩ := exec_migrationRestart_runs hst hmig hgrant hheld
    obtain ⟨hstate, hiso, -⟩ := t.sectorRun_fields d k
    refine ⟨_, ht, ?_, ?_, State.remapDone_pending .., ?_, ?_⟩
    · rw [State.remapDone_rd _ _ _ (by decide), hstate]
    · rw [State.remapDone_rd _ _ _ (by decide), hiso]
    · rw [State.remapDone_sector, State.sectorRun_sector]
    · rw [State.remapDone_sector, State.sectorRun_sector]
  case held =>
    intro d k s hst hmig hgrant hheld
    obtain ⟨t, -, ht⟩ := exec_migrationRestart_held hst hmig hgrant hheld
    obtain ⟨-, hstate, hiso⟩ := t.sectorReset_fields d k
    refine ⟨_, ht, ?_, ?_, ?_⟩
    · rw [State.remapDone_rd _ _ _ (by decide), hstate]
    · rw [State.remapDone_rd _ _ _ (by decide), hiso]
    · rw [State.remapDone_rd _ _ _ (by decide)]
      simp [State.sectorReset]
  case timedOut =>
    intro d k s hst hmig hready
    obtain ⟨t, -, ht⟩ := exec_migrationPermitTimeout hst hmig hready
    obtain ⟨hreset, hstate, -⟩ := t.sectorReset_fields d k
    refine ⟨_, ht, ?_, ?_⟩
    · rw [State.remapDone_rd _ _ _ (by decide), State.raise_rd _ _ _ _ _ _ rfl, hstate]
    · rw [State.remapDone_rd _ _ _ (by decide), State.raise_rd _ _ _ _ _ _ rfl, hreset]
  case first =>
    intro d k p period s hst hknown hnew
    change ∃ t, (Host.Outcome.next (s.columnDefect d k p period) : Ans) = .next t ∧ _
    rw [State.columnDefect_first hnew hknown p.isLt hst]
    refine ex_next ⟨?_, ?_, ?_, ?_⟩ <;>
      simp (disch := decide) only [State.remapDone_rd, State.rd_wr_fld, State.rd_wr_same, State.defectNoted_rd,
        State.defectNoted_defects, State.defectNoted_field hknown p.isLt, secColmapActive_width]
    omega
  case second =>
    intro d k p period s hst hknown hnew
    have hst' : (s.defectNoted d k p).rd .SEC_STATUS_STATE [d, k] ≠ 5 := by
      rwa [State.defectNoted_rd _ _ _ _ (by decide)]
    change ∃ t, (Host.Outcome.next (s.columnDefect d k p period) : Ans) = .next t ∧ _
    rw [State.columnDefect_new hnew, if_neg hst', if_neg hknown]
    exact ex_next (State.sectorUnavailable_fields hst')

/-! PROOFS. The switches of the clock trees (R63 to R66). -/

/-! ## The fields of a tree -/

section
variable (tr : Nat)

theorem treeSRC_width : (treeSRC tr).spec.width = 6 := by unfold treeSRC; split <;> rfl
theorem treeACTIVE_width : (treeACTIVE tr).spec.width = 6 := by unfold treeACTIVE; split <;> rfl
theorem treeSWITCHING_width : (treeSWITCHING tr).spec.width = 1 := by unfold treeSWITCHING; split <;> rfl
theorem treeFORCED_width : (treeFORCED tr).spec.width = 1 := by unfold treeFORCED; split <;> rfl
theorem treeLOCKED_width : (treeLOCKED tr).spec.width = 1 := by unfold treeLOCKED; split <;> rfl

@[simp] theorem treeSRC_ne_treeACTIVE : treeSRC tr ≠ treeACTIVE tr := by
  unfold treeSRC treeACTIVE; split <;> decide
@[simp] theorem treeSRC_ne_treeSWITCHING : treeSRC tr ≠ treeSWITCHING tr := by
  unfold treeSRC treeSWITCHING; split <;> decide
@[simp] theorem treeACTIVE_ne_treeSRC : treeACTIVE tr ≠ treeSRC tr := (treeSRC_ne_treeACTIVE tr).symm
@[simp] theorem treeSWITCHING_ne_treeSRC : treeSWITCHING tr ≠ treeSRC tr := (treeSRC_ne_treeSWITCHING tr).symm
@[simp] theorem treeACTIVE_ne_treeSWITCHING : treeACTIVE tr ≠ treeSWITCHING tr := by
  unfold treeACTIVE treeSWITCHING; split <;> decide
@[simp] theorem treeSWITCHING_ne_treeACTIVE : treeSWITCHING tr ≠ treeACTIVE tr := (treeACTIVE_ne_treeSWITCHING tr).symm
@[simp] theorem treeFORCED_ne_treeSRC : treeFORCED tr ≠ treeSRC tr := by
  unfold treeFORCED treeSRC; split <;> decide
@[simp] theorem treeACTIVE_ne_treeFORCED : treeACTIVE tr ≠ treeFORCED tr := by
  unfold treeACTIVE treeFORCED; split <;> decide
@[simp] theorem treeSWITCHING_ne_treeFORCED : treeSWITCHING tr ≠ treeFORCED tr := by
  unfold treeSWITCHING treeFORCED; split <;> decide
@[simp] theorem treeLOCKED_ne_treeSRC : treeLOCKED tr ≠ treeSRC tr := by
  unfold treeLOCKED treeSRC; split <;> decide
@[simp] theorem treeLOCKED_ne_treeACTIVE : treeLOCKED tr ≠ treeACTIVE tr := by
  unfold treeLOCKED treeACTIVE; split <;> decide
@[simp] theorem treeLOCKED_ne_treeSWITCHING : treeLOCKED tr ≠ treeSWITCHING tr := by
  unfold treeLOCKED treeSWITCHING; split <;> decide

end

/-- The source that a code stands for is no greater than the code. -/
theorem treeEff_lt {d tr src : Nat} (h : src < 64) : treeEff d tr src < 64 := by
  unfold treeEff; split <;> omega

/-! ## The commands -/

section
variable {d tr : Nat} {s : State}

/-- The written source stands in the tree's register, and a reserved code is reported (R63). -/
def State.treeChosen (s : State) (d tr src : Nat) : State :=
  let s := s.wr (treeSRC tr) (treeIx d tr) src
  if treeCodeOk d tr src then s else s.raise (treeReg tr) (treeIx d tr) 63 2 [tr, src]

theorem State.treeChosen_rd (s : State) (d tr src : Nat) (f : Fld) (i : List Nat) :
    (s.treeChosen d tr src).rd f i = (s.wr (treeSRC tr) (treeIx d tr) src).rd f i := by
  unfold State.treeChosen
  dsimp only
  split <;> rfl

theorem State.treeChosen_now (s : State) (d tr src : Nat) : (s.treeChosen d tr src).now = s.now := by
  unfold State.treeChosen
  dsimp only
  split <;> rfl

/-- What a write of a tree's source does where it reaches the tree (R65). -/
theorem exec_clockTreeSwitch {w : Writer} {d : Fin 8} {tr : Fin 64} {src : BitVec 6} {s : State}
    (h : s.reaches w (treeReg tr) (treeIx d tr) = true) : exec (.clockTreeSwitch w d tr src) s = .next
      (let u := s.treeChosen d tr src.toNat
      if u.on (treeSWITCHING tr) (treeIx d tr) then u
      else if u.rd (treeACTIVE tr) (treeIx d tr) = treeEff d tr src.toNat then u
      else if u.rd (treeACTIVE tr) (treeIx d tr) = 0 then u.wr (treeACTIVE tr) (treeIx d tr) (treeEff d tr src.toNat)
      else u.treeStart d tr (treeEff d tr src.toNat)) := by
  change execClockTreeSwitch w d tr src s = _
  unfold execClockTreeSwitch
  rw [State.reach_of h]
  rfl

/-- The switch of a tree ends at its target where no other source was written meanwhile (R65). -/
theorem State.treeEnd_quiet (h : (smGet s.tree [d, tr] {}).tgt = treeEff d tr (s.rd (treeSRC tr) (treeIx d tr))) :
    s.treeEnd d tr = (({ s with tree := smPut s.tree [d, tr] {} {} }).wr (treeACTIVE tr) (treeIx d tr)
      (smGet s.tree [d, tr] {}).tgt).wr (treeSWITCHING tr) (treeIx d tr) 0 := by
  refine if_pos ?_
  rw [h]
  simp

theorem State.treeEnd_quiet_rd (h : (smGet s.tree [d, tr] {}).tgt = treeEff d tr (s.rd (treeSRC tr) (treeIx d tr))) :
    (s.treeEnd d tr).rd (treeACTIVE tr) (treeIx d tr) = (smGet s.tree [d, tr] {}).tgt % 64 ∧
      (s.treeEnd d tr).rd (treeSWITCHING tr) (treeIx d tr) = 0 := by
  rw [State.treeEnd_quiet h]
  simp [treeACTIVE_width, treeSWITCHING_width]

/-- The old source has shown no edge for 10 µs (R65). -/
def State.treeLost (s : State) (d tr : Nat) : State :=
  (s.lapseTo ((smGet s.tree [d, tr] {}).start + 10000)).wr (treeFORCED tr) (treeIx d tr) 1

end

/-- Settles O17, by whether the tree is off, running, or switching. -/
theorem clockTreesSwitchWithoutGlitch : Obligations.ClockTreesSwitchWithoutGlitch := by
  unfold Obligations.ClockTreesSwitchWithoutGlitch
  refine ⟨?off, ?running, ?done, ?locked, ?forced⟩
  case off =>
    intro w d tr src s h hsw hact
    rw [exec_clockTreeSwitch h]
    have heff : treeEff d tr src.toNat < 64 := treeEff_lt src.isLt
    have hsrc : src.toNat < 64 := src.isLt
    have hoff : (s.treeChosen d tr src.toNat).on (treeSWITCHING tr) (treeIx d tr) = false := by
      simp [State.on, State.treeChosen_rd, hsw]
    dsimp only
    rw [if_neg (by simp [hoff])]
    simp only [State.treeChosen_rd, State.rd_wr_fld _ _ _ _ _ _ (treeSRC_ne_treeACTIVE tr), hact, if_true]
    split
    next he =>
      refine ex_next ⟨?_, ?_, ?_⟩
      · simp [State.treeChosen_rd, treeSRC_width, Nat.mod_eq_of_lt hsrc]
      · simp [State.treeChosen_rd, hact, he]
      · simp [State.treeChosen_rd, hsw]
    next he =>
      refine ex_next ⟨?_, ?_, ?_⟩
      · simp [State.treeChosen_rd, treeSRC_width, Nat.mod_eq_of_lt hsrc]
      · simp [treeACTIVE_width, Nat.mod_eq_of_lt heff]
      · simp [State.treeChosen_rd, hsw]
  case running =>
    intro w d tr src s h hsw hact hne
    rw [exec_clockTreeSwitch h]
    have hsrc : src.toNat < 64 := src.isLt
    have hoff : (s.treeChosen d tr src.toNat).on (treeSWITCHING tr) (treeIx d tr) = false := by
      simp [State.on, State.treeChosen_rd, hsw]
    have hact' : (s.treeChosen d tr src.toNat).rd (treeACTIVE tr) (treeIx d tr) = s.rd (treeACTIVE tr) (treeIx d tr) := by
      simp [State.treeChosen_rd]
    dsimp only
    rw [if_neg (by simp [hoff]), hact', if_neg hne, if_neg hact]
    have hrd : ∀ f i, ({ s.treeChosen d tr src.toNat with
        tree := smPut (s.treeChosen d tr src.toNat).tree [d.val, tr.val]
          { tgt := treeEff d tr src.toNat, start := (s.treeChosen d tr src.toNat).now } {} } : State).rd f i =
        (s.wr (treeSRC tr) (treeIx d tr) src.toNat).rd f i := fun f i => s.treeChosen_rd d tr src.toNat f i
    refine ex_next ⟨?_, ?_, ?_, ?_, ?_⟩
    · simp [State.treeStart, hrd, treeSRC_width, Nat.mod_eq_of_lt hsrc]
    · simp [State.treeStart, hrd]
    · simp [State.treeStart, treeSWITCHING_width]
    · simp [State.treeStart]
    · exact (smGet_smPut_same ..).trans (by rw [State.treeChosen_now])
  case done =>
    intro d tr s hsw hq
    obtain ⟨hact, hoff⟩ := State.treeEnd_quiet_rd hq
    have hon : s.on (treeSWITCHING tr) (treeIx d tr) = true := by simp [State.on, hsw]
    have hexec : exec (.clockSwitchDone d tr false) s = .next (s.treeEnd d tr) := by
      change execClockSwitchDone d tr false s = _
      simp [execClockSwitchDone, hon]
    exact ⟨_, hexec, hact, hoff⟩
  case locked =>
    intro d tr s hglobal hsw hlo hhi
    have hoff : s.on (treeSWITCHING tr) (treeIx d tr) = false := by simp [State.on, hsw]
    have hexec : exec (.clockSwitchDone d tr true) s = .next (s.wr (treeLOCKED tr) (treeIx d tr) 1) := by
      change execClockSwitchDone d tr true s = _
      simp [execClockSwitchDone, hoff, hglobal, hlo, hhi]
    rw [hexec]
    exact ex_next ⟨by simp [treeLOCKED_width], s.wr_sameFields _ _ _⟩
  case forced =>
    intro d tr s hsw hq
    have hon : s.on (treeSWITCHING tr) (treeIx d tr) = true := by simp [State.on, hsw]
    have hexec : exec (.clockSwitchForced d tr) s = .next ((s.treeLost d tr).treeEnd d tr) := if_pos hon
    have hq' : (smGet (s.treeLost d tr).tree [d.val, tr.val] {}).tgt = treeEff d tr ((s.treeLost d tr).rd (treeSRC tr) (treeIx d tr)) := by
      rw [State.treeLost, State.rd_wr_fld _ _ _ _ _ _ (treeFORCED_ne_treeSRC tr)]
      exact hq
    obtain ⟨hact, hoff⟩ := State.treeEnd_quiet_rd hq'
    rw [hexec]
    refine ex_next ⟨?_, hact, hoff, ?_⟩
    · rw [State.treeEnd_quiet hq', State.rd_wr_fld _ _ _ _ _ _ (treeSWITCHING_ne_treeFORCED tr),
        State.rd_wr_fld _ _ _ _ _ _ (treeACTIVE_ne_treeFORCED tr)]
      exact (State.rd_wr_same _ _ _ _).trans (by rw [treeFORCED_width]; rfl)
    · rw [State.treeEnd_quiet hq']
      exact Nat.le_trans (Nat.le_max_right s.now _) (Nat.le_of_eq (s.lapseTo_now _).symm)

/-! PROOFS. Span contention (R37 to R41), errors of memory words (R74 to R80) and late reckoner accesses (R87 to R90). -/

/-! ## Span contention -/

theorem secSpanSeg_width : (Fld.spec .SEC_SPAN_SEG).width = 10 := rfl

/-- The segments of a cycle take their values, and the cycle is counted (R39, R41). -/
noncomputable def State.spanCycle (s : State) (d k : Nat) (l : List SegCycle) : State :=
  (l.foldl (fun t c => t.segCycle d k c) s).bump .SEC_SPAN_CNT_COUNT [d, k]

theorem State.segCycles_rd (s : State) (d k : Nat) (l : List SegCycle) (f : Fld) (i : List Nat) :
    (l.foldl (fun t c => t.segCycle d k c) s).rd f i = s.rd f i :=
  rel_foldl (R := fun t => t.rd f i = s.rd f i) (fun t c h => (t.segCycle_rd d k c rfl).trans h) l rfl

theorem State.spanCycle_rd (s : State) (d k : Nat) (l : List SegCycle) {f : Fld} {i : List Nat}
    (h : (f, i) ≠ (.SEC_SPAN_CNT_COUNT, [d, k])) : (s.spanCycle d k l).rd f i = s.rd f i := by
  unfold State.spanCycle State.bump
  rw [State.rd_wr_ne (l := []) (by simpa using h), State.segCycles_rd]

theorem State.spanCycle_count (s : State) (d k : Nat) (l : List SegCycle) :
    (s.spanCycle d k l).rd .SEC_SPAN_CNT_COUNT [d, k] = min (s.rd .SEC_SPAN_CNT_COUNT [d, k] + 1) 0xFFFFFFFF := by
  unfold State.spanCycle
  rw [State.bump_same, State.segCycles_rd]
  rfl

/-- What a contention does, by whether an earlier one is held (R40). -/
theorem exec_spanContention {d : Fin 8} {k : Fin 40} {segs : List SegCycle} {c : SegCycle} {more : List SegCycle} {s : State}
    (hruns : s.userRuns d k = true) (hc : segs.filter (s.contends d k) = c :: more) :
    exec (.spanContention d k segs) s = .next
      (if s.rd .SEC_SPAN_CONT [d, k] = 0 then
        (((((s.spanCycle d k (c :: more)).wr .SEC_SPAN_CONT [d, k] 1).wr .SEC_SPAN_DIR [d, k] c.vertical.toNat).wr
          .SEC_SPAN_SEG [d, k] c.seg).wr .SEC_SPAN_WINNER [d, k] ((s.driving d k c).foldl max 0)).raise .SEC_SPAN [d, k] 40 0
            [c.seg, (s.driving d k c).foldl max 0]
      else s.spanCycle d k (c :: more)) := by
  have hon : (s.spanCycle d k (c :: more)).on .SEC_SPAN_CONT [d, k] = (s.rd .SEC_SPAN_CONT [d, k] != 0) := by
    rw [State.on, State.spanCycle_rd _ _ _ _ (by simp)]
  change execSpanContention d k segs s = _
  unfold execSpanContention
  rw [hc]
  refine (if_pos hruns).trans ?_
  by_cases h0 : s.rd .SEC_SPAN_CONT [d, k] = 0
  · rw [if_pos h0]
    exact if_neg (show ¬ (s.spanCycle d k (c :: more)).on .SEC_SPAN_CONT [d, k] = true by rw [hon]; simp [h0])
  · rw [if_neg h0]
    exact if_pos (show (s.spanCycle d k (c :: more)).on .SEC_SPAN_CONT [d, k] = true by rw [hon]; simpa using h0)

/-- A contending segment is driven: by the dynamic taps enabled on it (R39). -/
theorem State.driving_of_contends {s : State} {d k : Nat} {c : SegCycle} (h : s.contends d k c = true) :
    s.driving d k c ≠ [] := by
  intro hnone
  have hen : s.enabledTaps d k c = [] := by
    rw [List.eq_nil_iff_forall_not_mem]
    intro a ha
    simp only [State.enabledTaps, List.mem_map, List.mem_filter, Bool.and_eq_true] at ha
    obtain ⟨p, ⟨hp, ⟨hlt, -⟩, hen⟩, rfl⟩ := ha
    have : p.1 ∈ s.driving d k c := by
      simp only [State.driving, List.mem_map, List.mem_filter, Bool.and_eq_true, Bool.or_eq_true]
      exact ⟨p, ⟨hp, hlt, .inr hen⟩, rfl⟩
    rw [hnone] at this
    cases this
  simp [State.contends, hen] at h

theorem State.raise_fab (s : State) (r : Reg) (i : List Nat) (rule sev : Nat) (l : List Nat) :
    (s.raise r i rule sev l).fab = s.fab := rfl

/-- A cycle of one segment. -/
theorem State.spanCycle_single (s : State) (d k : Nat) (c : SegCycle) :
    (s.spanCycle d k [c]).fab = (s.segCycle d k c).fab := by
  unfold State.spanCycle State.bump
  rw [State.wr_fab, List.foldl_cons, List.foldl_nil]

theorem State.segVal_of_fab {s t : State} (h : t.fab = s.fab) (d k : Nat) (v : Bool) (seg : Nat) :
    t.segVal d k v seg = s.segVal d k v seg := by
  simp only [State.segVal, h]

/-- A driven segment takes the value of its highest-numbered enabled tap (R39). -/
theorem State.segCycle_segVal {s : State} {d k : Nat} {c : SegCycle} (h : s.driving d k c ≠ []) :
    (s.segCycle d k c).segVal d k c.vertical c.seg = c.val.getLsbD ((s.driving d k c).foldl max 0) := by
  obtain ⟨a, l, hl⟩ := List.exists_cons_of_ne_nil h
  unfold State.segCycle State.segVal
  rw [hl]
  exact smGet_smPut_same ..

/-! ## Errors of memory words -/

section
variable (s : State) (d k : Nat) (c : RamCfg) (deep : Bool) (col block addr : Nat)

/-- Port 1 reads a word of which the bits `u` are bad (R74). -/
noncomputable def State.eccRead (u : Nat) : State :=
  let s := s.onFab fun b => { b with upset := smPut b.upset ([d, k] ++ [deep.toNat, col, block, addr]) u 0 }
  s.ramPortEdge s c [d, k, deep.toNat, col, block] 1 { en := true, we := false, be := 0, addr := addr, data := 0 }

/-- The place is recorded where no error was held, or for a double-bit error over a single-bit one (R79). -/
noncomputable def State.eccPlaced (double : Bool) : State :=
  if (!s.on .MEM_ECC_SBE [d, k] && !s.on .MEM_ECC_DBE [d, k]) ||
      (double && s.on .MEM_ECC_SBE [d, k] && !s.on .MEM_ECC_DBE [d, k]) then
    (((s.wr .MEM_ECC_KIND [d, k] deep.toNat).wr .MEM_ECC_COL [d, k] col).wr .MEM_ECC_BLOCK [d, k] block).wr
      .MEM_ECC_ADDR [d, k] addr
  else s

/-- The error is shown and counted (R79, R80). -/
noncomputable def State.eccCounted (double : Bool) : State :=
  if double then (s.wr .MEM_ECC_DBE [d, k] 1).bump .MEM_DBE_CNT_COUNT [d, k]
  else (s.wr .MEM_ECC_SBE [d, k] 1).bump .MEM_SBE_CNT_COUNT [d, k]

/-- A suspect word is recorded, and a corrected one waits for its write-back (R74, R77). -/
noncomputable def State.eccQueued (double : Bool) : State :=
  let word := [deep.toNat, col, block, addr]
  let x := s.sector d k
  let s := if double || x.swb.any (· = word) then s.record (d :: 77 :: k :: word) else s
  if c.scrub && !double then s.setSector d k { x with wb := word :: x.wb.filter (· ≠ word) } else s

theorem State.eccRead_rd (u : Nat) (f : Fld) (i : List Nat) : (s.eccRead d k c deep col block addr u).rd f i = s.rd f i := by
  change (State.ramPortEdge _ _ _ _ _ _).rd f i = _
  exact State.ramPortEdge_keeps (R := fun t => t.rd f i = s.rd f i) (Keeps.rd rfl i _) _ _ _ _ _ _ rfl rfl

/-- The read changes the port's registers alone, and gives the corrected word for a single bad bit (R74). -/
theorem State.eccRead_latch {u : Nat} (hmode : c.mode = .ecc) (haddr : addr < ramDepth c deep 1) (hu : ones u 72 = 1) :
    (smGet (s.eccRead d k c deep col block addr u).fab.ports [d, k, deep.toNat, col, block, 1] {}).latch =
      { data := some (s.ramWord [d, k, deep.toNat, col, block, addr] % 2 ^ 64), err := 1 } := by
  have hdeep : ((deep.toNat : Nat) == 1) = deep := by cases deep <;> rfl
  have hkey : ramAt c [d, k, deep.toNat, col, block] 1 addr = ([d, k, deep.toNat, col, block, addr], 0) := by
    simp [ramAt, ramKey, ramWidth, hmode, ramPlace, hdeep, Nat.mod_eq_of_lt haddr, Nat.div_eq_of_lt haddr]
  have hwrites : ramWrites c 1 { en := true, we := false, be := 0, addr := addr, data := 0 } = false := rfl
  unfold State.eccRead State.ramPortEdge
  dsimp only
  rw [if_neg (by rw [hwrites]; exact Bool.false_ne_true)]
  refine (congrArg RamPort.latch (smGet_smPut_same ..)).trans ?_
  unfold State.ramLatch
  rw [hwrites]
  simp [ramReads, hmode, State.ramRead, hkey, State.ramWord, State.ramUpset, State.onFab, hu]

theorem State.eccPlaced_fab (double : Bool) : (s.eccPlaced d k deep col block addr double).fab = s.fab := by
  unfold State.eccPlaced
  split <;> rfl

theorem State.eccCounted_fab (double : Bool) : (s.eccCounted d k double).fab = s.fab := by
  unfold State.eccCounted
  split <;> rfl

theorem State.eccQueued_fab (double : Bool) : (s.eccQueued d k c deep col block addr double).fab = s.fab := by
  unfold State.eccQueued
  dsimp only
  split <;> split <;> rfl

theorem State.eccQueued_rd (double : Bool) (f : Fld) (i : List Nat) :
    (s.eccQueued d k c deep col block addr double).rd f i = s.rd f i := by
  unfold State.eccQueued
  dsimp only
  split <;> split <;> rfl

/-- A corrected word of a block with its scrub bit waits for its write-back (R74). -/
theorem State.eccQueued_waits (hscrub : c.scrub = true) :
    [deep.toNat, col, block, addr] ∈ ((s.eccQueued d k c deep col block addr false).sector d k).wb := by
  unfold State.eccQueued
  dsimp only
  rw [if_pos (by simp [hscrub]), State.setSector_sector, if_pos ⟨rfl, rfl⟩]
  exact List.mem_cons_self

end

section
variable {d : Fin 8} {k : Fin 40} {deep : Bool} {col : Fin 3} {block : Fin 10} {addr : Fin 16384} {upset : BitVec 72}
  {c : RamCfg} {double : Bool} {s : State}

/-- All of an ECC error but its report. -/
noncomputable def State.eccError (s : State) (d k : Nat) (c : RamCfg) (deep : Bool) (col block addr u : Nat) (double : Bool) : State :=
  (((s.eccRead d k c deep col block addr u).eccPlaced d k deep col block addr double).eccCounted d k double).eccQueued
    d k c deep col block addr double

/-- What an error of a word of one or two bits does (R74 to R80). -/
theorem exec_memEccError (hruns : s.userRuns d k = true) (hram : s.ramOf d k deep col block = some c) (hmode : c.mode = .ecc)
    (haddr : addr.val < ramDepth c deep 1)
    (hones : ones (s.ramUpset [d, k, deep.toNat, col, block, addr] ^^^ upset.toNat) 72 = (if double then 2 else 1)) :
    exec (.memEccError d k deep col block addr upset) s = .next
      ((s.eccError d k c deep col block addr (s.ramUpset [d, k, deep.toNat, col, block, addr] ^^^ upset.toNat) double).raise
        .MEM_ECC [d, k] 74 (if double then 3 else 0) [deep.toNat, col.val, block.val, addr.val]) := by
  have hdouble : (ones (s.ramUpset [d, k, deep.toNat, col, block, addr] ^^^ upset.toNat) 72 == 2) = double := by
    rw [hones]; cases double <;> rfl
  have hcond : s.userRuns d k = true ∧ c.mode = .ecc ∧ addr.val < ramDepth c deep 1 ∧
      (ones (s.ramUpset ([d.val, k.val] ++ [deep.toNat, col.val, block.val, addr.val]) ^^^ upset.toNat) 72 = 1 ∨
        ones (s.ramUpset ([d.val, k.val] ++ [deep.toNat, col.val, block.val, addr.val]) ^^^ upset.toNat) 72 = 2) := by
    refine ⟨hruns, hmode, haddr, ?_⟩
    simp only [List.cons_append, List.nil_append, hones]
    cases double <;> simp
  change execMemEccError d k deep col block addr upset s = _
  unfold execMemEccError
  simp only [hram]
  rw [if_pos hcond]
  simp only [List.cons_append, List.nil_append, hdouble]
  rfl

/-- A place is a place of its kind. -/
theorem memEcc_place_fits (deep : Bool) (col : Fin 3) (block : Fin 10) (addr : Fin 16384) :
    deep.toNat % 2 ^ (Fld.spec .MEM_ECC_KIND).width = (if deep then 1 else 0) ∧
      col.val % 2 ^ (Fld.spec .MEM_ECC_COL).width = col.val ∧ block.val % 2 ^ (Fld.spec .MEM_ECC_BLOCK).width = block.val ∧
      addr.val % 2 ^ (Fld.spec .MEM_ECC_ADDR).width = addr.val := by
  have hcol : (Fld.spec .MEM_ECC_COL).width = 2 := rfl
  have hblock : (Fld.spec .MEM_ECC_BLOCK).width = 4 := rfl
  have haddr : (Fld.spec .MEM_ECC_ADDR).width = 14 := rfl
  rw [hcol, hblock, haddr]
  refine ⟨?_, ?_, ?_, ?_⟩
  · cases deep <;> rfl
  all_goals omega

/-- The counts of errors of memory words (R80). -/
theorem State.eccCounted_counts (s : State) (d k : Nat) (double : Bool) :
    (s.eccCounted d k double).rd .MEM_DBE_CNT_COUNT [d, k] =
        (if double then min (s.rd .MEM_DBE_CNT_COUNT [d, k] + 1) 0xFFFFFFFF else s.rd .MEM_DBE_CNT_COUNT [d, k]) ∧
      (s.eccCounted d k double).rd .MEM_SBE_CNT_COUNT [d, k] =
        (if double then s.rd .MEM_SBE_CNT_COUNT [d, k] else min (s.rd .MEM_SBE_CNT_COUNT [d, k] + 1) 0xFFFFFFFF) := by
  unfold State.eccCounted
  cases double
  · refine ⟨?_, ?_⟩
    · simp (disch := decide) [State.bump_rd]
    · simp only [Bool.false_eq_true, if_false, State.bump_same]
      rw [State.rd_wr_fld _ _ _ _ _ _ (by decide)]
      rfl
  · refine ⟨?_, ?_⟩
    · simp only [if_true, State.bump_same]
      rw [State.rd_wr_fld _ _ _ _ _ _ (by decide)]
      rfl
    · simp (disch := decide) [State.bump_rd]

/-- The place is kept while a double-bit error is held (R79). -/
theorem State.eccPlaced_held {s : State} {d k : Nat} (h : s.rd .MEM_ECC_DBE [d, k] = 1) (deep : Bool) (col block addr : Nat)
    (double : Bool) : s.eccPlaced d k deep col block addr double = s :=
  if_neg (by simp [State.on, h])

/-- The place is taken where no error, or a lesser one, was held (R79). -/
theorem State.eccPlaced_new {s : State} {d k : Nat} {double : Bool} (h : s.rd .MEM_ECC_DBE [d, k] = 0)
    (hnew : s.rd .MEM_ECC_SBE [d, k] = 0 ∨ double = true) (deep : Bool) (col block addr : Nat) :
    s.eccPlaced d k deep col block addr double =
      (((s.wr .MEM_ECC_KIND [d, k] deep.toNat).wr .MEM_ECC_COL [d, k] col).wr .MEM_ECC_BLOCK [d, k] block).wr
        .MEM_ECC_ADDR [d, k] addr := by
  refine if_pos ?_
  rcases hnew with hnew | rfl
  · simp [State.on, h, hnew]
  · cases hs : s.on .MEM_ECC_SBE [d, k] <;> simp [State.on, h]

/-- The fields of the place stay through the count. -/
theorem State.eccCounted_rd (s : State) (d k : Nat) (double : Bool) {f : Fld}
    (hf : hasFld ⟨[.MEM_ECC_DBE, .MEM_ECC_SBE, .MEM_DBE_CNT_COUNT, .MEM_SBE_CNT_COUNT], [], [], false⟩ f = false)
    (i : List Nat) : (s.eccCounted d k double).rd f i = s.rd f i := by
  have hd : f ≠ .MEM_ECC_DBE := by rintro rfl; cases hf
  have hs : f ≠ .MEM_ECC_SBE := by rintro rfl; cases hf
  have hdc : f ≠ .MEM_DBE_CNT_COUNT := by rintro rfl; cases hf
  have hsc : f ≠ .MEM_SBE_CNT_COUNT := by rintro rfl; cases hf
  unfold State.eccCounted State.bump
  split
  · rw [State.rd_wr_fld _ _ _ _ _ _ hdc.symm, State.rd_wr_fld _ _ _ _ _ _ hd.symm]
  · rw [State.rd_wr_fld _ _ _ _ _ _ hsc.symm, State.rd_wr_fld _ _ _ _ _ _ hs.symm]

variable {u : Nat}

/-- A new error is recorded with its place (R79). -/
theorem State.eccError_place (hdbe : s.rd .MEM_ECC_DBE [d, k] = 0) (hsbe : s.rd .MEM_ECC_SBE [d, k] = 0 ∨ double = true) :
    (s.eccError d k c deep col block addr u double).rd .MEM_ECC_KIND [d, k] = (if deep then 1 else 0) ∧
      (s.eccError d k c deep col block addr u double).rd .MEM_ECC_COL [d, k] = col.val ∧
      (s.eccError d k c deep col block addr u double).rd .MEM_ECC_BLOCK [d, k] = block.val ∧
      (s.eccError d k c deep col block addr u double).rd .MEM_ECC_ADDR [d, k] = addr.val := by
  have hread := s.eccRead_rd d k c deep col block addr u
  obtain ⟨hkind, hcol, hblock, hadr⟩ := memEcc_place_fits deep col block addr
  unfold State.eccError
  rw [State.eccPlaced_new (by rw [hread]; exact hdbe) (by rw [hread]; exact hsbe)]
  refine ⟨?_, ?_, ?_, ?_⟩ <;> rw [State.eccQueued_rd, State.eccCounted_rd _ _ _ _ (by decide)] <;>
    simp (disch := decide) only [State.rd_wr_fld, State.rd_wr_same]
  · exact hkind
  · exact hcol
  · exact hblock
  · exact hadr

/-- The error is shown by its kind (R79). -/
theorem State.eccError_flags (hdbe : s.rd .MEM_ECC_DBE [d, k] = 0) :
    (s.eccError d k c deep col block addr u double).rd .MEM_ECC_DBE [d, k] = (if double then 1 else 0) ∧
      (double = false → (s.eccError d k c deep col block addr u double).rd .MEM_ECC_SBE [d, k] = 1) := by
  have hread : ((s.eccRead d k c deep col block addr u).eccPlaced d k deep col block addr double).rd .MEM_ECC_DBE [d, k] = 0 := by
    unfold State.eccPlaced
    split
    · simp (disch := decide) only [State.rd_wr_fld, State.eccRead_rd, hdbe]
    · rw [State.eccRead_rd, hdbe]
  unfold State.eccError
  simp only [State.eccQueued_rd, State.eccCounted]
  cases double
  · refine ⟨?_, fun _ => ?_⟩
    · rw [if_neg Bool.false_ne_true, State.bump_rd _ _ _ _ (by decide), State.rd_wr_fld _ _ _ _ _ _ (by decide), hread]
      rfl
    · rw [if_neg Bool.false_ne_true, State.bump_rd _ _ _ _ (by decide)]
      exact State.rd_wr_same ..
  · refine ⟨?_, fun h => (Bool.noConfusion h)⟩
    rw [if_pos rfl, State.bump_rd _ _ _ _ (by decide)]
    exact State.rd_wr_same ..

/-- The place stands outside the counts. -/
theorem State.eccPlaced_rd {s : State} {d k : Nat} {deep : Bool} {col block addr : Nat} {double : Bool} {f : Fld}
    (hf : hasFld ⟨[.MEM_ECC_KIND, .MEM_ECC_COL, .MEM_ECC_BLOCK, .MEM_ECC_ADDR], [], [], false⟩ f = false) (i : List Nat) :
    (s.eccPlaced d k deep col block addr double).rd f i = s.rd f i := by
  have hk : f ≠ .MEM_ECC_KIND := by rintro rfl; cases hf
  have hc : f ≠ .MEM_ECC_COL := by rintro rfl; cases hf
  have hb : f ≠ .MEM_ECC_BLOCK := by rintro rfl; cases hf
  have ha : f ≠ .MEM_ECC_ADDR := by rintro rfl; cases hf
  unfold State.eccPlaced
  split
  · rw [State.rd_wr_fld _ _ _ _ _ _ ha.symm, State.rd_wr_fld _ _ _ _ _ _ hb.symm, State.rd_wr_fld _ _ _ _ _ _ hc.symm,
      State.rd_wr_fld _ _ _ _ _ _ hk.symm]
  · rfl

/-- An error counts by its kind (R80). -/
theorem State.eccError_counts :
    (s.eccError d k c deep col block addr u double).rd .MEM_DBE_CNT_COUNT [d, k] =
        (if double then min (s.rd .MEM_DBE_CNT_COUNT [d, k] + 1) 0xFFFFFFFF else s.rd .MEM_DBE_CNT_COUNT [d, k]) ∧
      (s.eccError d k c deep col block addr u double).rd .MEM_SBE_CNT_COUNT [d, k] =
        (if double then s.rd .MEM_SBE_CNT_COUNT [d, k] else min (s.rd .MEM_SBE_CNT_COUNT [d, k] + 1) 0xFFFFFFFF) := by
  obtain ⟨hd, hs⟩ := ((s.eccRead d k c deep col block addr u).eccPlaced d k deep col block addr double).eccCounted_counts
    d k double
  unfold State.eccError
  rw [State.eccQueued_rd, State.eccQueued_rd, hd, hs, State.eccPlaced_rd (by decide), State.eccPlaced_rd (by decide),
    State.eccRead_rd, State.eccRead_rd]
  exact ⟨rfl, rfl⟩

/-- While a double-bit error is held the place stays (R79). -/
theorem State.eccError_held (hdbe : s.rd .MEM_ECC_DBE [d, k] = 1) {f : Fld}
    (hf : hasFld ⟨[.MEM_ECC_DBE, .MEM_ECC_SBE, .MEM_DBE_CNT_COUNT, .MEM_SBE_CNT_COUNT], [], [], false⟩ f = false) :
    (s.eccError d k c deep col block addr u double).rd f [d, k] = s.rd f [d, k] := by
  have hread := s.eccRead_rd d k c deep col block addr u
  unfold State.eccError
  rw [State.eccQueued_rd, State.eccPlaced_held (by rw [hread]; exact hdbe), State.eccCounted_rd _ _ _ _ hf, hread]

/-- The port of a corrected word gives the corrected word (R74). -/
theorem State.eccError_latch (hmode : c.mode = .ecc) (haddr : addr.val < ramDepth c deep 1) (hu : ones u 72 = 1) :
    (smGet (s.eccError d k c deep col block addr u false).fab.ports [d, k, deep.toNat, col, block, 1] {}).latch =
      { data := some (s.ramWord [d, k, deep.toNat, col, block, addr] % 2 ^ 64), err := 1 } := by
  unfold State.eccError
  rw [State.eccQueued_fab, State.eccCounted_fab, State.eccPlaced_fab]
  exact s.eccRead_latch d k c deep col block addr hmode haddr hu

end

/-! ## Late reckoner accesses -/

theorem State.rknLates_rd (s : State) (d k : Nat) (l : List (Fin 3 × Fin 24 × RknIn)) (f : Fld) (i : List Nat) :
    (l.foldl (fun t x => t.rknLate d k x) s).rd f i = s.rd f i :=
  rel_foldl (R := fun t => t.rd f i = s.rd f i) (fun t x h => (t.rknLate_rd d k x rfl).trans h) l rfl

/-- A cycle with late accesses, counted once (R87, R90). -/
noncomputable def State.lateCycle (s : State) (d k : Nat) (l : List (Fin 3 × Fin 24 × RknIn)) : State :=
  (l.foldl (fun t x => t.rknLate d k x) s).bump .RKN_LATE_CNT_COUNT [d, k]

theorem State.lateCycle_rd (s : State) (d k : Nat) (l : List (Fin 3 × Fin 24 × RknIn)) {f : Fld}
    (hf : hasFld ⟨[.RKN_LATE_CNT_COUNT], [], [], false⟩ f = false) (i : List Nat) :
    (s.lateCycle d k l).rd f i = s.rd f i := by
  unfold State.lateCycle
  rw [State.bump_rd _ _ _ _ hf, State.rknLates_rd]

theorem State.lateCycle_count (s : State) (d k : Nat) (l : List (Fin 3 × Fin 24 × RknIn)) :
    (s.lateCycle d k l).rd .RKN_LATE_CNT_COUNT [d, k] = min (s.rd .RKN_LATE_CNT_COUNT [d, k] + 1) 0xFFFFFFFF := by
  unfold State.lateCycle
  rw [State.bump_same, State.rknLates_rd]
  rfl

/-- What a cycle with late accesses does, by whether an earlier one is held (R89). -/
theorem exec_rknLateAccess {d : Fin 8} {k : Fin 40} {lates : List (Fin 3 × Fin 24 × RknIn)} {x : Fin 3 × Fin 24 × RknIn}
    {more : List (Fin 3 × Fin 24 × RknIn)} {s : State} (hruns : s.userRuns d k = true)
    (hx : lates.filter (s.rknTwo d k) = x :: more) :
    exec (.rknLateAccess d k lates) s = .next
      (if s.rd .RKN_STAT_LATE [d, k] = 0 then
        ((((s.lateCycle d k (x :: more)).wr .RKN_STAT_LATE [d, k] 1).wr .RKN_STAT_COL [d, k] x.1).wr
          .RKN_STAT_BLOCK [d, k] x.2.1).raise .RKN_STAT [d, k] 89 0 [x.1, x.2.1]
      else s.lateCycle d k (x :: more)) := by
  have hon : (s.lateCycle d k (x :: more)).on .RKN_STAT_LATE [d, k] = (s.rd .RKN_STAT_LATE [d, k] != 0) := by
    rw [State.on, State.lateCycle_rd _ _ _ _ (by decide)]
  change execRknLateAccess d k lates s = _
  unfold execRknLateAccess
  simp only [hx]
  refine (if_pos hruns).trans ?_
  by_cases h0 : s.rd .RKN_STAT_LATE [d, k] = 0
  · rw [if_pos h0]
    exact if_neg (show ¬ (s.lateCycle d k (x :: more)).on .RKN_STAT_LATE [d, k] = true by rw [hon]; simp [h0])
  · rw [if_neg h0]
    exact if_pos (show (s.lateCycle d k (x :: more)).on .RKN_STAT_LATE [d, k] = true by rw [hon]; simpa using h0)

/-- Settles O18: contentions, errors of words, write-backs and late accesses, by what is held already. -/
theorem fabricErrorsAreCountedAndHeld : Obligations.FabricErrorsAreCountedAndHeld := by
  unfold Obligations.FabricErrorsAreCountedAndHeld
  refine ⟨?contended, ?contendedAgain, ?driven, ?eccNew, ?eccHeld, ?writtenBack, ?late, ?lateAgain⟩
  case contended =>
    intro d k segs c more s hruns hc h0
    rw [exec_spanContention hruns hc, if_pos h0]
    refine ex_next ⟨?_, ?_, ?_, ?_, ?_⟩ <;> rw [State.raise_rd _ _ _ _ _ _ rfl]
    · simp (disch := decide) only [State.rd_wr_fld, State.rd_wr_same]
      rfl
    · simp only [ne_eq, reduceCtorEq, not_false_eq_true, State.rd_wr_fld, State.rd_wr_same]
      cases c.vertical <;> rfl
    · simp only [ne_eq, reduceCtorEq, not_false_eq_true, State.rd_wr_fld, State.rd_wr_same, secSpanSeg_width]
      omega
    · exact State.rd_wr_same ..
    · simp only [ne_eq, reduceCtorEq, not_false_eq_true, State.rd_wr_fld]
      exact State.spanCycle_count ..
  case contendedAgain =>
    intro d k segs c more s hruns hc h1
    rw [exec_spanContention hruns hc, if_neg (by omega)]
    exact ex_next ⟨State.spanCycle_count .., fun f i h => State.spanCycle_rd _ _ _ _ (by simpa using h)⟩
  case driven =>
    intro d k c s hruns hc
    have hval := State.segCycle_segVal (State.driving_of_contends hc)
    rw [exec_spanContention hruns (show [c].filter (s.contends d k) = c :: [] by simp [hc])]
    refine ex_next ?_
    rw [State.segVal_of_fab (t := ite _ _ _) (s := s.segCycle d k c) ?fab]
    · exact hval
    case fab => split <;> simp only [State.raise_fab, State.wr_fab, State.spanCycle_single]
  case eccNew =>
    intro d k deep col block addr upset c double s hruns hram hmode haddr hones hdbe hsbe
    rw [exec_memEccError hruns hram hmode haddr hones]
    obtain ⟨hkind, hcol, hblock, hadr⟩ := State.eccError_place hdbe hsbe
    obtain ⟨hd, hs⟩ := State.eccError_flags (c := c) (deep := deep) (col := col) (block := block) (addr := addr) hdbe
    obtain ⟨hdc, hsc⟩ := State.eccError_counts
    refine ex_next ?_
    simp only [State.raise_rd _ _ _ _ _ _ rfl]
    refine ⟨hkind, hcol, hblock, hadr, hd, hs, hdc, hsc, ?_, ?_⟩
    · rintro rfl
      exact State.eccError_latch hmode haddr hones
    · rintro rfl hscrub
      exact State.eccQueued_waits _ _ _ _ _ _ _ _ hscrub
  case eccHeld =>
    intro d k deep col block addr upset c double s hruns hram hmode haddr hones hdbe
    rw [exec_memEccError hruns hram hmode haddr hones]
    obtain ⟨hdc, hsc⟩ := State.eccError_counts
    refine ex_next ?_
    simp only [State.raise_rd _ _ _ _ _ _ rfl]
    exact ⟨State.eccError_held hdbe rfl, State.eccError_held hdbe rfl, State.eccError_held hdbe rfl,
      State.eccError_held hdbe rfl, hdc, hsc⟩
  case writtenBack =>
    intro d k deep col block addr s hruns hin
    have hexec : exec (.bramScrubWriteback d k deep col block addr) s =
        .next (s.writeBack d k [deep.toNat, col.val, block.val, addr.val]) := by
      refine if_pos ⟨hruns, List.any_eq_true.mpr ⟨_, hin, ?_⟩⟩
      simp
    rw [hexec]
    refine ex_next ⟨?_, smGet_smPut_same s.fab.upset _ 0 0, fun f i _ => State.writeBack_rd _ _ _ _ rfl⟩
    have hsec : (s.writeBack d k [deep.toNat, col.val, block.val, addr.val]).sector d k =
        { s.sector d k with
          wb := (s.sector d k).wb.filter (· ≠ [deep.toNat, col.val, block.val, addr.val])
          swb := [deep.toNat, col.val, block.val, addr.val] ::
            (s.sector d k).swb.filter (· ≠ [deep.toNat, col.val, block.val, addr.val]) } :=
      (State.setSector_sector ..).trans (if_pos ⟨rfl, rfl⟩)
    rw [hsec]
    simp
  case late =>
    intro d k lates x more s hruns hx h0
    rw [exec_rknLateAccess hruns hx, if_pos h0]
    have hcol : (Fld.spec .RKN_STAT_COL).width = 2 := rfl
    have hblock : (Fld.spec .RKN_STAT_BLOCK).width = 5 := rfl
    refine ex_next ⟨?_, ?_, ?_, ?_⟩ <;> rw [State.raise_rd _ _ _ _ _ _ rfl]
    · simp (disch := decide) only [State.rd_wr_fld, State.rd_wr_same]
      rfl
    · simp only [ne_eq, reduceCtorEq, not_false_eq_true, State.rd_wr_fld, State.rd_wr_same, hcol]
      omega
    · simp only [State.rd_wr_same, hblock]
      omega
    · simp only [ne_eq, reduceCtorEq, not_false_eq_true, State.rd_wr_fld]
      exact State.lateCycle_count ..
  case lateAgain =>
    intro d k lates x more s hruns hx h1
    rw [exec_rknLateAccess hruns hx, if_neg (by omega)]
    exact ex_next ⟨State.lateCycle_rd _ _ _ _ (by decide) _, State.lateCycle_rd _ _ _ _ (by decide) _,
      State.lateCycle_count ..⟩

/-! PROOFS. The commands, permits and triggers of the engines (R101 to R105, R125, R126, R143). -/

/-! ## Writes of a field over a range of its instances -/

/-- Writes of one field leave another field. -/
theorem State.rd_foldl_wr_fld {F f : Fld} (h : F ≠ f) (ix : Nat → List Nat) (v : State → Nat → Nat) (l : List Nat) (s : State)
    (i : List Nat) : (l.foldl (fun s c => s.wr F (ix c) (v s c)) s).rd f i = s.rd f i := by
  induction l generalizing s with
  | nil => rfl
  | cons c l ih => rw [List.foldl_cons, ih, State.rd_wr_fld _ _ _ _ _ _ h]

/-- Writes of a field at every place, with values that the writes leave alone, are read back. -/
theorem State.rd_foldl_wr_range {F : Fld} {e : Nat} {v : State → Nat → Nat}
    (hv : ∀ s i x c, v (s.wr F i x) c = v s c) (n : Nat) (s : State) {k : Nat} (hk : k < n) :
    ((List.range n).foldl (fun s c => s.wr F [e, c] (v s c)) s).rd F [e, k] = v s k % 2 ^ F.spec.width := by
  have hfold : ∀ n c, v ((List.range n).foldl (fun s c => s.wr F [e, c] (v s c)) s) c = v s c := by
    intro n c
    induction n with
    | zero => rfl
    | succ n ih => rw [List.range_succ, List.foldl_append, List.foldl_cons, List.foldl_nil, hv, ih]
  induction n with
  | zero => omega
  | succ n ih =>
    rw [List.range_succ, List.foldl_append, List.foldl_cons, List.foldl_nil]
    by_cases hkn : k = n
    · subst hkn
      rw [State.rd_wr_same, hfold]
    · rw [State.rd_wr_ne (l := []) (by simpa using hkn), ih (by omega)]

theorem State.foldl_wr_eng (F : Fld) (ix : Nat → List Nat) (v : State → Nat → Nat) (l : List Nat) (s : State) :
    (l.foldl (fun s c => s.wr F (ix c) (v s c)) s).eng = s.eng := by
  induction l generalizing s with
  | nil => rfl
  | cons c l ih => exact ih _

theorem State.foldl_wr_govs (F : Fld) (ix : Nat → List Nat) (v : State → Nat → Nat) (l : List Nat) (s : State) :
    (l.foldl (fun s c => s.wr F (ix c) (v s c)) s).govs = s.govs := by
  induction l generalizing s with
  | nil => rfl
  | cons c l ih => exact ih _

/-! ## START and ARM -/

/-- The run-time data of an engine whose run begins: its generators' seed, armed or not, and nothing of the run before. -/
noncomputable def initRt (r : EngRt) (seed : Nat) (arm : Bool) : EngRt := { r with
  lstack := [], cstack := [], tret := 0, tloop := 0, tcall := 0, cx := false, cy := false, cz := false, cl := false,
  lfsr := seed,
  steps := 0, tmrDue := 0, tmrLeft := 0, tmrPend := false, wait := .none, stall := 0, waited := false, counted := false,
  single := false, armed := arm, kept := none,
  strmOn := false, strmFirst := false, issued := 0, outst := [], buf := [], issT := [],
  out := [], cq := [], nextIx := 0, vseq := 0, launched := false, slot := 0, firstVecT := none, cfgSaid := false,
  cmp := 0, recs := 0, anyFail := false }

/-- The loop counters, the generators and the slice counters of a run that begins. -/
noncomputable def State.initArrays (s : State) (e : Nat) : State :=
  let s := (List.range 8).foldl (fun s c => s.wr .ENG_LCNT_COUNT [e, c] 0) s
  let s := (List.range 4).foldl (fun s g => s.wr .ENG_GEN_V_VALUE [e, g] (s.rd .ENG_GEN_B_VALUE [e, g])) s
  (List.range 4).foldl (fun s j => s.wr .FC_SLICE_FAIL_COUNT [e, j] 0) s

/-- The other fields of a run that begins at `pc`. -/
noncomputable def State.initFields (s : State) (e pc : Nat) : State :=
  let s := ((((s.wr .ENG_PC_CUR [e] pc).wr .ENG_STATUS_IN_HANDLER [e] 0).wr .ENG_STATUS_FAIL [e] 0).wr
    .ENG_STATUS_TLATE [e] 0).wr .ENG_STATUS_TMR_OVR [e] 0
  let s := ((((s.wr .ENG_FAULT_CODE [e] 0).wr .ENG_FAULT_DETAIL [e] 0).wr .ENG_FAULT_PC [e] 0).wr .ENG_FAULT_VALID [e] 0).wr
    .ENG_STATUS_END_CODE [e] 0
  let s := (((s.wr .ENG_STALL_COUNT [e] 0).wr .ENG_STRM_POS_POS [e] 0).wr .ENG_STRM_CTL_ENDED [e] 0).wr .ENG_STEPS_HI_COUNT [e] 0
  ((s.wr .FC_FAIL_CNT_COUNT [e] 0).wr .FC_UNCHK_CNT_COUNT [e] 0).incr .FC_RUN_RUN [e]

/-- The run-time data of an engine whose run begins are in place. -/
noncomputable def State.engFresh (s : State) (e : Nat) (arm : Bool) : State :=
  let s := s.setEngine e { s.engine e with startPend := 0 }
  s.setEngine e (initRt (s.engine e) (s.rd .ENG_LFSR_LO_SEED [e] + s.rd .ENG_LFSR_HI_SEED [e] * 2 ^ 32) arm)

/-- The engine of a run that begins, before it reads `STATE` 1 and its permit is asked for. -/
noncomputable def State.engInited (s : State) (e : Nat) (arm : Bool) : State :=
  ((s.engFresh e arm).initArrays e).initFields e (s.rd .ENG_PC_START [e])

section
variable {s : State} {e : Nat} {arm : Bool}

theorem State.initArrays_rd {f : Fld} (hl : .ENG_LCNT_COUNT ≠ f) (hg : .ENG_GEN_V_VALUE ≠ f) (hs : .FC_SLICE_FAIL_COUNT ≠ f)
    (i : List Nat) : (s.initArrays e).rd f i = s.rd f i := by
  unfold State.initArrays
  rw [State.rd_foldl_wr_fld hs, State.rd_foldl_wr_fld hg, State.rd_foldl_wr_fld hl]

theorem State.initArrays_lcnt {c : Nat} (hc : c < 8) : (s.initArrays e).rd .ENG_LCNT_COUNT [e, c] = 0 := by
  unfold State.initArrays
  rw [State.rd_foldl_wr_fld (by decide), State.rd_foldl_wr_fld (by decide),
    State.rd_foldl_wr_range (v := fun _ _ => 0) (fun _ _ _ _ => rfl) 8 _ hc]
  rfl

theorem State.initArrays_gen {g : Nat} (hg : g < 4) :
    (s.initArrays e).rd .ENG_GEN_V_VALUE [e, g] = s.rd .ENG_GEN_B_VALUE [e, g] % 2 ^ 32 := by
  unfold State.initArrays
  rw [State.rd_foldl_wr_fld (by decide),
    State.rd_foldl_wr_range (v := fun s g => s.rd .ENG_GEN_B_VALUE [e, g])
      (fun _ _ _ _ => State.rd_wr_fld _ _ _ _ _ _ (by decide)) 4 _ hg, State.rd_foldl_wr_fld (by decide)]
  rfl

theorem State.initArrays_eng : (s.initArrays e).eng = s.eng := by
  unfold State.initArrays
  rw [State.foldl_wr_eng, State.foldl_wr_eng, State.foldl_wr_eng]

theorem State.initArrays_govs : (s.initArrays e).govs = s.govs := by
  unfold State.initArrays
  rw [State.foldl_wr_govs, State.foldl_wr_govs, State.foldl_wr_govs]

theorem State.initFields_eng {pc : Nat} : (s.initFields e pc).eng = s.eng := by
  simp only [State.initFields, State.incr, State.wr_eng]

theorem State.initFields_govs {pc : Nat} : (s.initFields e pc).govs = s.govs := by
  simp only [State.initFields, State.incr, State.wr_govs]

/-- A run begins at its start address, with the flags of the run before cleared (R101). -/
theorem State.initFields_rd {pc : Nat} : (s.initFields e pc).rd .ENG_PC_CUR [e] = pc % 2 ^ 14 ∧
    (s.initFields e pc).rd .ENG_STATUS_FAIL [e] = 0 ∧ (s.initFields e pc).rd .ENG_FAULT_VALID [e] = 0 := by
  unfold State.initFields State.incr
  refine ⟨?_, ?_, ?_⟩ <;> simp (disch := decide) only [State.rd_wr_fld, State.rd_wr_same] <;> rfl

theorem State.initFields_keeps {pc : Nat} {f : Fld}
    (hf : f = .ENG_LCNT_COUNT ∨ f = .ENG_GEN_V_VALUE ∨ f = .ENG_STRM_CTL_RATE ∨ f = .PG_CFG_BUDGET) (i : List Nat) :
    (s.initFields e pc).rd f i = s.rd f i := by
  unfold State.initFields State.incr
  rcases hf with rfl | rfl | rfl | rfl <;> simp (disch := decide) only [State.rd_wr_fld]

theorem State.setEngine_govs (s : State) (e : Nat) (r : EngRt) : (s.setEngine e r).govs = s.govs := rfl

theorem State.engFresh_rd (f : Fld) (i : List Nat) : (s.engFresh e arm).rd f i = s.rd f i := by
  unfold State.engFresh
  dsimp only
  rw [State.setEngine_rd _ _ _ rfl, State.setEngine_rd _ _ _ rfl]

theorem State.engFresh_engine : (s.engFresh e arm).engine e = initRt { s.engine e with startPend := 0 }
    (s.rd .ENG_LFSR_LO_SEED [e] + s.rd .ENG_LFSR_HI_SEED [e] * 2 ^ 32) arm := by
  unfold State.engFresh
  dsimp only
  rw [State.setEngine_engine, if_pos rfl, State.setEngine_engine, if_pos rfl, State.setEngine_rd _ _ _ rfl,
    State.setEngine_rd _ _ _ rfl]

theorem State.engFresh_govs : (s.engFresh e arm).govs = s.govs := by
  unfold State.engFresh
  dsimp only
  rw [State.setEngine_govs, State.setEngine_govs]

theorem State.engInited_engine : (s.engInited e arm).engine e = initRt { s.engine e with startPend := 0 }
    (s.rd .ENG_LFSR_LO_SEED [e] + s.rd .ENG_LFSR_HI_SEED [e] * 2 ^ 32) arm := by
  rw [← State.engFresh_engine]
  unfold State.engInited State.engine
  rw [State.initFields_eng, State.initArrays_eng]

theorem State.engInited_gov (g : Nat) : (s.engInited e arm).gov g = s.gov g := by
  unfold State.engInited State.gov
  rw [State.initFields_govs, State.initArrays_govs, State.engFresh_govs]

theorem State.engInited_fields : (s.engInited e arm).rd .ENG_PC_CUR [e] = s.rd .ENG_PC_START [e] % 2 ^ 14 ∧
    (s.engInited e arm).rd .ENG_STATUS_FAIL [e] = 0 ∧ (s.engInited e arm).rd .ENG_FAULT_VALID [e] = 0 :=
  State.initFields_rd

theorem State.engInited_lcnt {c : Nat} (hc : c < 8) : (s.engInited e arm).rd .ENG_LCNT_COUNT [e, c] = 0 := by
  unfold State.engInited
  rw [State.initFields_keeps (.inl rfl), State.initArrays_lcnt hc]

theorem State.engInited_gen {g : Nat} (hg : g < 4) :
    (s.engInited e arm).rd .ENG_GEN_V_VALUE [e, g] = s.rd .ENG_GEN_B_VALUE [e, g] % 2 ^ 32 := by
  unfold State.engInited
  rw [State.initFields_keeps (.inr (.inl rfl)), State.initArrays_gen hg, State.engFresh_rd]

theorem State.engInited_keeps {f : Fld} (hf : f = .ENG_STRM_CTL_RATE ∨ f = .PG_CFG_BUDGET) (i : List Nat) :
    (s.engInited e arm).rd f i = s.rd f i := by
  unfold State.engInited
  rw [State.initFields_keeps (.inr (.inr hf))]
  rcases hf with rfl | rfl <;> rw [State.initArrays_rd (by decide) (by decide) (by decide), State.engFresh_rd]

/-- A run that begins asks for its permit (R101, R129). -/
noncomputable def State.engAsked (s : State) (e : Nat) (arm : Bool) : State :=
  ((s.engInited e arm).wr .ENG_STATUS_STATE [e] 1).request (engDie e) 1 (3 + ceilDiv ((s.engInited e arm).strmRate e) 16) [e] []

theorem State.engInit_good (hfmt : s.wx e + s.wy e + s.wz e ≤ 32) (hvp : s.dest e ≠ 1 ∨ s.vpUp e = true) :
    s.engInit e arm = s.engAsked e arm := by
  refine (if_neg (Nat.not_lt.mpr hfmt)).trans ((if_neg ?_).trans rfl)
  rintro ⟨hd, hv⟩
  exact hvp.elim (· hd) (by rw [show s.vpUp e = false from hv]; simp)

theorem State.engAsked_rd {f : Fld} (hf : f ≠ .ENG_STATUS_STATE)
    (hp : hasFld ⟨[.PG_ERR_OP, .PG_ERR_OVERSIZE, .PG_ERR_UNITS, .PG_ERR_VALID, .PG_TO_CNT_COUNT], [], [], false⟩ f = false)
    (i : List Nat) : (s.engAsked e arm).rd f i = (s.engInited e arm).rd f i := by
  unfold State.engAsked
  rw [State.request_rd _ _ _ _ _ _ hp, State.rd_wr_fld _ _ _ _ _ _ hf.symm]

theorem State.engAsked_state : (s.engAsked e arm).estate e = 1 := by
  unfold State.engAsked State.estate
  rw [State.request_rd _ _ _ _ _ _ rfl, State.rd_wr_same]
  rfl

theorem State.request_eng (s : State) (g op units : Nat) (who : List Nat) (chain : List (List Nat)) :
    (s.request g op units who chain).eng = s.eng :=
  State.request_keeps (Keeps.part (p := .eng) rfl (by rintro ⟨⟩) s) s g op units who chain rfl

theorem State.engAsked_engine : (s.engAsked e arm).engine e = initRt { s.engine e with startPend := 0 }
    (s.rd .ENG_LFSR_LO_SEED [e] + s.rd .ENG_LFSR_HI_SEED [e] * 2 ^ 32) arm := by
  rw [← State.engInited_engine]
  unfold State.engAsked State.engine
  rw [State.request_eng, State.wr_eng]

theorem State.engAsked_queue (hfit : 3 + ceilDiv (s.strmRate e) 16 ≤ s.rd .PG_CFG_BUDGET [engDie e]) :
    ((s.engAsked e arm).gov (engDie e)).queue.length = (s.gov (engDie e)).queue.length + 1 := by
  have hrate : (s.engInited e arm).strmRate e = s.strmRate e := by
    unfold State.strmRate; rw [State.engInited_keeps (.inl rfl)]
  unfold State.engAsked
  rw [State.request_queue_length, State.wr_gov, State.engInited_gov]
  rwa [State.rd_wr_fld _ _ _ _ _ _ (by decide), State.engInited_keeps (.inr rfl), hrate]

end

/-! ## The commands -/

section
variable {w : Writer} {e cmd : Nat} {k : State → State} {states : List Nat} {s : State}

/-- A command acts in the states that R105 lists. -/
theorem State.engCmd_acts (h : s.reaches w .ENG_CTL [e] = true) (hst : states.contains (s.estate e) = true) :
    s.engCmd w e cmd k states = k s :=
  (State.reach_of h ..).trans (if_pos hst)

/-- In any other state it is dropped (R105). -/
theorem State.engCmd_drops (h : s.reaches w .ENG_CTL [e] = true) (hst : states.contains (s.estate e) = false) :
    s.engCmd w e cmd k states = s.dropF w .ENG_CTL_CMD [e] cmd :=
  (State.reach_of h ..).trans (if_neg (by rw [hst]; simp))

theorem State.dropF_sameFields (s : State) (w : Writer) (f : Fld) (i : List Nat) (v : Nat) : SameFields s (s.dropF w f i v) [] :=
  fun _ _ _ => State.dropF_rd _ _ _ _ _ rfl

theorem State.dropF_eng (s : State) (w : Writer) (f : Fld) (i : List Nat) (v : Nat) : (s.dropF w f i v).eng = s.eng :=
  State.dropF_keeps (Keeps.part (p := .eng) rfl (by rintro ⟨⟩) s) s w f i v rfl

/-- A dropped command changes no field and no engine. -/
theorem State.engCmd_drops_same (h : s.reaches w .ENG_CTL [e] = true) (hst : states.contains (s.estate e) = false) :
    SameFields s (s.engCmd w e cmd k states) [] ∧ (s.engCmd w e cmd k states).eng = s.eng := by
  rw [State.engCmd_drops h hst]
  exact ⟨s.dropF_sameFields w _ _ _, s.dropF_eng w _ _ _⟩

end

/-! ### The commands in their states (R105) -/

section
variable {w : Writer} {e : Fin 96} {s : State}

theorem exec_start (h : s.reaches w .ENG_CTL [e] = true) (hst : [0, 6, 7, 8].contains (s.estate e) = true) :
    exec (.start w e) s = .next (s.engStart e false) :=
  congrArg Host.Outcome.next (State.engCmd_acts h hst)

theorem exec_arm (h : s.reaches w .ENG_CTL [e] = true) (hst : [0, 6, 7, 8].contains (s.estate e) = true) :
    exec (.arm w e) s = .next (s.engStart e true) :=
  congrArg Host.Outcome.next (State.engCmd_acts h hst)

theorem exec_engCmdStop (h : s.reaches w .ENG_CTL [e] = true) (hst : [1, 2, 3, 4, 5].contains (s.estate e) = true) :
    exec (.engCmdStop w e) s = .next (s.engStop e) :=
  congrArg Host.Outcome.next (State.engCmd_acts h hst)

theorem exec_pause (h : s.reaches w .ENG_CTL [e] = true) (hst : [3, 4].contains (s.estate e) = true) :
    exec (.pause w e) s = .next (s.engPause e) :=
  congrArg Host.Outcome.next (State.engCmd_acts h hst)

theorem exec_engCmdResume (h : s.reaches w .ENG_CTL [e] = true) (hst : [5].contains (s.estate e) = true) :
    exec (.engCmdResume w e) s = .next ((s.tmrRun e).wr .ENG_STATUS_STATE [e] 3) :=
  congrArg Host.Outcome.next (State.engCmd_acts h hst)

theorem exec_engineReset (h : s.reaches w .ENG_CTL [e] = true) (hst : [0, 1, 2, 3, 4, 5, 6, 7, 8].contains (s.estate e) = true) :
    exec (.engineReset w e) s = .next (s.engReset e) :=
  congrArg Host.Outcome.next (State.engCmd_acts h hst)

end

section
variable {s : State} {e : Nat} {arm : Bool}

/-- START and ARM take effect at once where the queues of the previous run are empty (R143). -/
theorem State.engStart_empty (hout : (s.engine e).out = []) (hcq : (s.engine e).cq = []) : s.engStart e arm = s.engInit e arm :=
  if_pos (by simp [hout, hcq])

/-- They wait where a queue is not (R143). -/
theorem State.engStart_waits (h : (s.engine e).out ≠ [] ∨ (s.engine e).cq ≠ []) :
    s.engStart e arm = s.setEngine e { s.engine e with startPend := if arm then 2 else 1 } :=
  if_neg (by simpa [Classical.or_iff_not_imp_left] using h)

theorem State.engInit_format (h : 32 < s.wx e + s.wy e + s.wz e) :
    s.engInit e arm = (s.setEngine e { s.engine e with startPend := 0 }).engFault e 16 0 (s.rd .ENG_PC_START [e]) :=
  if_pos h

theorem State.engInit_port (hfmt : s.wx e + s.wy e + s.wz e ≤ 32) (hd : s.dest e = 1) (hv : s.vpUp e = false) :
    s.engInit e arm = (s.setEngine e { s.engine e with startPend := 0 }).engFault e 9 0 (s.rd .ENG_PC_START [e]) :=
  (if_neg (Nat.not_lt.mpr hfmt)).trans (if_pos ⟨hd, hv⟩)

theorem State.setEngine_sameFields (s : State) (e : Nat) (r : EngRt) : SameFields s (s.setEngine e r) [] :=
  fun _ _ _ => State.setEngine_rd _ _ _ rfl

/-- The engine's permit has returned (R395). -/
theorem State.engReturn_held : ((s.engReturn e).gov (engDie e)).held.any (·.is 1 [e]) = false := by
  unfold State.engReturn State.giveBack
  dsimp only
  rw [State.setGov_gov, if_pos rfl, State.setGov_gov, if_pos rfl]
  simp only [List.any_filter, List.any_eq_false]
  intro p _
  cases p.is 1 [e] <;> simp

/-- The stop of a run (R102). -/
theorem State.engStop_result : (s.engStop e).estate e = 7 ∧ (s.engStop e).rd .ENG_PC_CUR [e] = s.rd .ENG_PC_CUR [e] ∧
    ((s.engStop e).engine e).buf = [] ∧ ((s.engStop e).engine e).strmOn = false ∧
    ((s.engStop e).engine e).out = (s.engine e).out ∧ ((s.engStop e).engine e).cq = (s.engine e).cq ∧
    ((s.engStop e).gov (engDie e)).held.any (·.is 1 [e]) = false := by
  have hgov : (s.engStop e).gov (engDie e) = (s.engReturn e).gov (engDie e) := by
    unfold State.engStop State.gov
    dsimp only
    rw [State.wr_govs, State.setEngine_govs]
  have heng : (s.engStop e).engine e = { s.engine e with
      wait := .none, stall := 0, waited := false, single := false, buf := [], outst := [], strmOn := false } := by
    unfold State.engStop
    dsimp only
    rw [State.wr_engine, State.setEngine_engine, if_pos rfl]
    rfl
  rw [hgov, heng]
  refine ⟨?_, State.engStop_rd _ _ rfl, rfl, rfl, rfl, rfl, State.engReturn_held⟩
  unfold State.engStop State.estate
  exact (State.rd_wr_same ..).trans rfl

theorem State.tmrStop_wait (s : State) (e : Nat) : ((s.tmrStop e).engine e).wait = (s.engine e).wait := by
  unfold State.tmrStop
  dsimp only
  split
  · rw [State.setEngine_engine, if_pos rfl]
  · rfl

theorem State.tmrStop_govs (s : State) (e : Nat) : (s.tmrStop e).govs = s.govs := by
  unfold State.tmrStop
  dsimp only
  split <;> rfl

/-- The pause of a run (R103): the engine keeps its permit. -/
theorem State.engPause_result : (s.engPause e).estate e = 5 ∧ (s.engPause e).rd .ENG_PC_CUR [e] = s.rd .ENG_PC_CUR [e] ∧
    ((s.engPause e).engine e).wait = .none ∧
    ((s.engPause e).gov (engDie e)).held.filter (·.is 1 [e]) = (s.gov (engDie e)).held.filter (·.is 1 [e]) := by
  unfold State.engPause
  refine ⟨?_, ?_, ?_, ?_⟩
  · unfold State.estate
    rw [State.tmrStop_rd _ _ rfl, State.rd_wr_same]
    rfl
  · rw [State.tmrStop_rd _ _ rfl, State.rd_wr_fld _ _ _ _ _ _ (by decide), State.setEngine_rd _ _ _ rfl, State.giveBack_rd _ _ _ _ rfl]
  · rw [State.tmrStop_wait, State.wr_engine, State.setEngine_engine, if_pos rfl]
  · unfold State.gov
    rw [State.tmrStop_govs, State.wr_govs, State.setEngine_govs]
    change ((s.giveBack (engDie e) 2 [e]).gov (engDie e)).held.filter _ = _
    unfold State.giveBack
    dsimp only
    rw [State.setGov_gov, if_pos rfl, List.filter_filter]
    refine List.filter_congr fun p _ => ?_
    cases h1 : p.is 1 [e]
    · rfl
    · have hop : p.op = 1 := by simp only [Permit.is, Bool.and_eq_true, decide_eq_true_eq] at h1; exact h1.1
      simp [Permit.is, hop]

/-- The engine after a reset: class ENG at its reset values, the window as it was (R104). -/
theorem State.engReset_class {f : Fld} (hf : f.spec.cls = .eng) : (s.engReset e).rd f [e] = f.reset [e] := by
  unfold State.engReset
  dsimp only
  rw [State.rd_clearRegs, if_pos]
  simp [engClears, hf]

theorem State.engReset_win : (s.engReset e).win = s.win := rfl

/-- An engine whose first step begins reads `STATE` 3 (R105). -/
theorem State.engBegin_result : (s.engBegin e).estate e = 3 ∧ ((s.engBegin e).engine e).stepT = (s.engBegin e).now ∧
    ((s.engBegin e).engine e).strmOn = (s.engine e).strmOn := by
  unfold State.engBegin State.estate
  dsimp only
  rw [State.wr_engine, State.setEngine_engine, if_pos rfl]
  exact ⟨(State.rd_wr_same ..).trans rfl, rfl, rfl⟩

/-! ## The permit of a run -/

/-- A grant given and not yet taken is taken as it stands: no time passes. -/
theorem State.takeGrant_given {g op : Nat} {who : List Nat} (h : (s.gov g).ready.any (·.is op who) = true) :
    ∃ x, s.takeGrant g op who = some (s.setGov g x) := by
  unfold State.takeGrant
  simp only [h, if_true]
  exact ⟨_, rfl⟩

/-- A stream with `AUTO` starts with the run (R126). -/
noncomputable def State.engAuto (s : State) (e : Nat) : State := if s.on .ENG_STRM_CTL_AUTO [e] then s.strmStart e else s

/-- The trigger of an armed engine is the instant its launch refers to. -/
noncomputable def State.engAimed (s : State) (e : Nat) : State := s.setEngine e { s.engine e with launchRef := s.trigger e }

/-- A started engine's launch refers to the local time of the grant. -/
noncomputable def State.engStarted (s : State) (e : Nat) : State := s.setEngine e { s.engine e with launchRef := s.localNs }

end

section
variable {e : Fin 96} {s t : State}

/-- What an engine in `STATE` 1 does with the grant of its permit (R105). -/
theorem exec_engPermitGrant (hst : s.estate e = 1) (ht : s.takeGrant (engDie e) 1 [e.val] = some t) :
    exec (.engPermitGrant e) s =
      if t.on .ENG_STRM_CTL_AUTO [e] && t.strmOff e then .next (t.engFault e 10 0 (t.rd .ENG_PC_CUR [e]))
      else if ((t.engAuto e).engine e).armed then
        if ((t.engAuto e).engAimed e).localNs ≤ ((t.engAuto e).engAimed e).trigger e then
          .next (((t.engAuto e).engAimed e).wr .ENG_STATUS_STATE [e] 2)
        else if ((t.engAuto e).engAimed e).on .ENG_CTL_LATE_POLICY [e] then
          .next (((t.engAuto e).engAimed e).engFault e 14 0 (((t.engAuto e).engAimed e).rd .ENG_PC_CUR [e]))
        else .next ((((t.engAuto e).engAimed e).wr .ENG_STATUS_TLATE [e] 1).engBegin e)
      else .next (((t.engAuto e).engStarted e).engBegin e) := by
  change execEngPermitGrant e s = _
  unfold execEngPermitGrant
  rw [if_pos hst, ht]
  rfl

theorem exec_engPermitTimeout (hst : s.estate e = 1) (ht : s.takeTimeout (engDie e) 1 [e.val] = some t) :
    exec (.engPermitTimeout e) s = .next (t.engFault e 13 0 (s.rd .ENG_PC_CUR [e])) := by
  change execEngPermitTimeout e s = _
  unfold execEngPermitTimeout
  dsimp only
  rw [if_pos hst, ht]

/-- A grant of a run's permit leaves the engine and its registers as they were. -/
theorem State.takeGrant_engine (ht : s.takeGrant (engDie e) 1 [e.val] = some t) (e' : Nat) : t.engine e' = s.engine e' :=
  congrArg (fun m => smGet m [e'] ({} : EngRt)) (State.takeGrant_part ht (p := .eng) rfl)

theorem State.engAuto_off (h : s.rd .ENG_STRM_CTL_AUTO [e] = 0) : s.engAuto e = s :=
  if_neg (by simp [State.on, h])

theorem State.engAuto_on (h : s.on .ENG_STRM_CTL_AUTO [e] = true) : s.engAuto e = s.strmStart e := if_pos h

theorem State.strmStart_engine (s : State) (e : Nat) : (s.strmStart e).engine e =
    { s.engine e with buf := [], outst := [], issued := 0, issT := [], strmOn := true, strmFirst := true } := by
  unfold State.strmStart
  dsimp only
  rw [State.wr_engine, State.wr_engine, State.setEngine_engine, if_pos rfl]

theorem State.engStarted_engine (s : State) (e : Nat) :
    (s.engStarted e).engine e = { s.engine e with launchRef := s.localNs } :=
  (State.setEngine_engine ..).trans (if_pos rfl)

/-- The grant of a started engine without `AUTO` begins its run. -/
theorem engPermitGrant_started (hst : s.estate e = 1) (hg : s.grantReady (engDie e) 1 [e] = true)
    (hauto : s.rd .ENG_STRM_CTL_AUTO [e] = 0) (harm : (s.engine e).armed = false) :
    ∃ t, exec (.engPermitGrant e) s = .next t ∧ t.estate e = 3 ∧ (t.engine e).stepT = t.now := by
  obtain ⟨t, ht⟩ := State.takeGrant_of_grantReady hg
  have hauto' : t.rd .ENG_STRM_CTL_AUTO [e] = 0 := by rw [State.takeGrant_rd ht rfl, hauto]
  rw [exec_engPermitGrant hst ht, if_neg (by simp [State.on, hauto']), State.engAuto_off hauto',
    if_neg (by rw [State.takeGrant_engine ht, harm]; simp)]
  obtain ⟨h3, hT, -⟩ := State.engBegin_result (s := t.engStarted e) (e := e)
  exact ex_next ⟨h3, hT⟩

/-- With `AUTO` its stream starts with it, or cannot (R126). -/
theorem engPermitGrant_auto (hst : s.estate e = 1) (hg : s.grantReady (engDie e) 1 [e] = true)
    (hauto : s.on .ENG_STRM_CTL_AUTO [e] = true) (harm : (s.engine e).armed = false) :
    ∃ t, exec (.engPermitGrant e) s = .next t ∧
      (if s.strmOff e then t.estate e = 8 ∧ t.rd .ENG_FAULT_CODE [e] = 10
        else t.estate e = 3 ∧ (t.engine e).strmOn = true) := by
  obtain ⟨t, ht⟩ := State.takeGrant_of_grantReady hg
  have hauto' : t.on .ENG_STRM_CTL_AUTO [e] = true := by
    unfold State.on at hauto ⊢; rw [State.takeGrant_rd ht rfl, hauto]
  have hoff : t.strmOff e = s.strmOff e := by
    unfold State.strmOff State.strmRate; rw [State.takeGrant_rd ht rfl, State.takeGrant_rd ht rfl]
  rw [exec_engPermitGrant hst ht, hauto', hoff, Bool.true_and, State.engAuto_on hauto']
  by_cases h : s.strmOff e = true
  · simp only [if_pos h]
    obtain ⟨h8, hcode, -, -⟩ := t.engFault_records e 10 0 (t.rd .ENG_PC_CUR [e])
    exact ex_next ⟨h8, hcode⟩
  · simp only [if_neg h]
    rw [if_neg (by rw [State.strmStart_engine, State.takeGrant_engine ht, harm]; simp)]
    obtain ⟨h3, -, hon⟩ := State.engBegin_result (s := (t.strmStart e).engStarted e) (e := e)
    exact ex_next ⟨h3, by rw [hon, State.engStarted_engine, State.strmStart_engine]⟩

/-- The state in which an armed engine without `AUTO` has taken a grant given before: its time is that of before. -/
theorem exec_engPermitGrant_armed (hst : s.estate e = 1) (hg : (s.gov (engDie e)).ready.any (·.is 1 [e]) = true)
    (hauto : s.rd .ENG_STRM_CTL_AUTO [e] = 0) (harm : (s.engine e).armed = true) :
    ∃ t : State, (∀ f i, t.rd f i = s.rd f i) ∧ exec (.engPermitGrant e) s =
      if s.localNs ≤ s.trigger e then .next (t.wr .ENG_STATUS_STATE [e] 2)
      else if s.on .ENG_CTL_LATE_POLICY [e] then .next (t.engFault e 14 0 (t.rd .ENG_PC_CUR [e]))
      else .next ((t.wr .ENG_STATUS_TLATE [e] 1).engBegin e) := by
  obtain ⟨x, ht⟩ := State.takeGrant_given hg
  have hauto' : (s.setGov (engDie e) x).rd .ENG_STRM_CTL_AUTO [e] = 0 := by rw [State.setGov_rd _ _ _ rfl, hauto]
  refine ⟨(s.setGov (engDie e) x).engAimed e, fun f i => ?_, ?_⟩
  · unfold State.engAimed
    rw [State.setEngine_rd _ _ _ rfl, State.setGov_rd _ _ _ rfl]
  · rw [exec_engPermitGrant hst ht, if_neg (by simp [State.on, hauto']), State.engAuto_off hauto',
      if_pos (by rw [State.takeGrant_engine ht, harm])]
    rfl

/-- START or ARM of an engine at rest with empty queues and a good set-up (R101). -/
theorem State.engStart_result {arm : Bool} (hout : (s.engine e).out = []) (hcq : (s.engine e).cq = [])
    (hfmt : s.wx e + s.wy e + s.wz e ≤ 32) (hvp : s.dest e ≠ 1 ∨ s.vpUp e = true)
    (hfit : 3 + ceilDiv (s.strmRate e) 16 ≤ s.rd .PG_CFG_BUDGET [engDie e]) :
    (s.engStart e arm).estate e = 1 ∧ (s.engStart e arm).rd .ENG_PC_CUR [e] = s.rd .ENG_PC_START [e] % 2 ^ 14 ∧
      (∀ g : Fin 4, (s.engStart e arm).rd .ENG_GEN_V_VALUE [e, g] = s.rd .ENG_GEN_B_VALUE [e, g] % 2 ^ 32) ∧
      (∀ c : Fin 8, (s.engStart e arm).rd .ENG_LCNT_COUNT [e, c] = 0) ∧ ((s.engStart e arm).engine e).lstack = [] ∧
      ((s.engStart e arm).engine e).cstack = [] ∧ ((s.engStart e arm).engine e).armed = arm ∧
      (s.engStart e arm).rd .ENG_STATUS_FAIL [e] = 0 ∧ (s.engStart e arm).rd .ENG_FAULT_VALID [e] = 0 ∧
      ((s.engStart e arm).gov (engDie e)).queue.length = (s.gov (engDie e)).queue.length + 1 := by
  obtain ⟨hpc, hfail, hvalid⟩ := State.engInited_fields (s := s) (e := e) (arm := arm)
  rw [State.engStart_empty hout hcq, State.engInit_good hfmt hvp, State.engAsked_engine]
  refine ⟨State.engAsked_state, ?_, fun g => ?_, fun c => ?_, rfl, rfl, rfl, ?_, ?_, State.engAsked_queue hfit⟩
  · rw [State.engAsked_rd (by decide) rfl, hpc]
  · rw [State.engAsked_rd (by decide) rfl, State.engInited_gen g.isLt]
  · rw [State.engAsked_rd (by decide) rfl, State.engInited_lcnt c.isLt]
  · rw [State.engAsked_rd (by decide) rfl, hfail]
  · rw [State.engAsked_rd (by decide) rfl, hvalid]

/-- A START that waited takes effect when its queues are empty (R143). -/
theorem engStartEffect_result {n : Nat} (hn : (s.engine e).startPend = n) (h0 : n ≠ 0) (hout : (s.engine e).out = [])
    (hcq : (s.engine e).cq = []) (hfmt : s.wx e + s.wy e + s.wz e ≤ 32) (hvp : s.dest e ≠ 1 ∨ s.vpUp e = true) :
    ∃ t, exec (.engStartEffect e) s = .next t ∧ t.estate e = 1 ∧ (t.engine e).armed = decide (n = 2) ∧
      (t.engine e).startPend = 0 := by
  refine ⟨s.engAsked e (decide (n = 2)), ?_, State.engAsked_state, ?_, ?_⟩
  · change execEngStartEffect e s = _
    unfold execEngStartEffect
    dsimp only
    rw [if_pos ⟨by omega, by simp [hout], by simp [hcq]⟩, State.engInit_good hfmt hvp, hn]
  · rw [State.engAsked_engine]; rfl
  · rw [State.engAsked_engine]; rfl

theorem State.engResume_result {w : Writer} (hreach : s.reaches w .ENG_CTL [e] = true) (hst : s.estate e = 5) :
    ∃ t, exec (.engCmdResume w e) s = .next t ∧ t.estate e = 3 ∧ SameFields s t [(.ENG_STATUS_STATE, [e])] := by
  refine ⟨_, exec_engCmdResume hreach (by rw [hst]; rfl), (State.rd_wr_same ..).trans rfl, fun f i hf => ?_⟩
  rw [State.rd_wr_ne hf, State.tmrRun_rd _ _ rfl]

theorem State.engReset_result {w : Writer} (hreach : s.reaches w .ENG_CTL [e] = true) (hst : s.estate e ≤ 8) :
    ∃ t, exec (.engineReset w e) s = .next t ∧ t.estate e = 0 ∧
      (∀ f : Fld, f.spec.cls = .eng → t.rd f [e] = f.reset [e]) ∧ t.win = s.win := by
  have hany : [0, 1, 2, 3, 4, 5, 6, 7, 8].contains (s.estate e) = true := by
    simp only [List.contains_cons, List.contains_nil, Bool.or_false, Bool.or_eq_true, beq_iff_eq]
    omega
  exact ⟨_, exec_engineReset hreach hany, (State.engReset_class rfl).trans rfl,
    fun f hf => State.engReset_class hf, State.engReset_win⟩

end

/-- Settles O19, command by command over the states of R105. -/
theorem engineCommandsActByState : Obligations.EngineCommandsActByState := by
  unfold Obligations.EngineCommandsActByState
  refine ⟨?start, ?arm, ?format, ?port, ?armEffect, ?granted, ?armed, ?trigger, ?timeout, ?stop, ?pause, ?resume, ?reset,
    ?startDrop, ?pauseDrop, ?startWaits, ?armWaits, ?startEffect, ?late, ?auto, ?resumeDrop, ?stopDrop⟩
  case start =>
    intro w e s hreach hst hout hcq hfmt hvp hfit
    exact ⟨_, exec_start hreach hst, State.engStart_result hout hcq hfmt hvp hfit⟩
  case arm =>
    intro w e s hreach hst hout hcq hfmt hvp hfit
    obtain ⟨h1, hpc, hgen, hlcnt, hl, hc, harm, hrest⟩ := State.engStart_result (arm := true) hout hcq hfmt hvp hfit
    exact ⟨_, exec_arm hreach hst, h1, harm, hpc, hgen, hlcnt, hl, hc, hrest⟩
  case format =>
    intro w e s hreach hst hout hcq hfmt
    refine ⟨_, exec_start hreach hst, ?_⟩
    rw [State.engStart_empty hout hcq, State.engInit_format hfmt]
    obtain ⟨h8, hcode, hvalid, -⟩ := State.engFault_records (s.setEngine e { s.engine e with startPend := 0 }) e 16 0 (s.rd .ENG_PC_START [e])
    exact ⟨h8, hcode, hvalid⟩
  case port =>
    intro w e s hreach hst hout hcq hfmt hd hv
    refine ⟨_, exec_start hreach hst, ?_⟩
    rw [State.engStart_empty hout hcq, State.engInit_port hfmt hd hv]
    obtain ⟨h8, hcode, hvalid, -⟩ := State.engFault_records (s.setEngine e { s.engine e with startPend := 0 }) e 9 0 (s.rd .ENG_PC_START [e])
    exact ⟨h8, hcode, hvalid⟩
  case armEffect =>
    intro e s hn hout hcq hfmt hvp
    exact engStartEffect_result hn (by decide) hout hcq hfmt hvp
  case granted =>
    intro e s hst hg hauto harm
    exact engPermitGrant_started hst hg hauto harm
  case armed =>
    intro e s hst hg hauto harm hle
    obtain ⟨t, -, ht⟩ := exec_engPermitGrant_armed hst hg hauto harm
    rw [ht, if_pos hle]
    exact ex_next ((State.rd_wr_same ..).trans rfl)
  case trigger =>
    intro e s hst
    obtain ⟨h3, hT, -⟩ := State.engBegin_result (s := s.lapseToLocal (s.trigger e)) (e := e)
    exact ⟨_, if_pos hst, h3, hT⟩
  case timeout =>
    intro e s hst ht
    obtain ⟨t, ht⟩ := State.takeTimeout_of_timeoutReady ht
    rw [exec_engPermitTimeout hst ht]
    obtain ⟨h8, hcode, -, hpc⟩ := t.engFault_records e 13 0 (s.rd .ENG_PC_CUR [e])
    exact ex_next ⟨h8, hcode, hpc⟩
  case stop =>
    intro w e s hreach h1 h5
    have hst : [1, 2, 3, 4, 5].contains (s.estate e) = true := by
      simp only [List.contains_cons, List.contains_nil, Bool.or_false, Bool.or_eq_true, beq_iff_eq]
      omega
    exact ⟨_, exec_engCmdStop hreach hst, State.engStop_result⟩
  case pause =>
    intro w e s hreach hst
    have hst : [3, 4].contains (s.estate e) = true := by simpa using hst
    exact ⟨_, exec_pause hreach hst, State.engPause_result⟩
  case resume => exact fun w e s => State.engResume_result
  case reset => exact fun w e s => State.engReset_result
  case startDrop =>
    intro w e s hreach h1 h5
    have hst : [0, 6, 7, 8].contains (s.estate e) = false := by
      simp only [List.contains_cons, List.contains_nil, Bool.or_false, Bool.or_eq_false_iff, beq_eq_false_iff_ne]
      omega
    exact ⟨_, rfl, State.engCmd_drops_same hreach hst⟩
  case pauseDrop =>
    intro w e s hreach h3 h4
    exact ⟨_, rfl, State.engCmd_drops_same hreach (by simp [h3, h4])⟩
  case startWaits =>
    intro w e s hreach hst hq
    refine ⟨_, (exec_start hreach hst).trans (congrArg _ (State.engStart_waits hq)), ?_, ?_, s.setEngine_sameFields e _⟩
    · rw [State.setEngine_engine, if_pos rfl]; rfl
    · exact State.setEngine_rd _ _ _ rfl
  case armWaits =>
    intro w e s hreach hst hq
    refine ⟨_, (exec_arm hreach hst).trans (congrArg _ (State.engStart_waits hq)), ?_, ?_, s.setEngine_sameFields e _⟩
    · rw [State.setEngine_engine, if_pos rfl]; rfl
    · exact State.setEngine_rd _ _ _ rfl
  case startEffect =>
    intro e s hn hout hcq hfmt hvp
    exact engStartEffect_result hn (by decide) hout hcq hfmt hvp
  case late =>
    intro e s hst hg hauto harm hlt
    obtain ⟨t, hrd, ht⟩ := exec_engPermitGrant_armed hst hg hauto harm
    rw [ht, if_neg (by omega)]
    split
    · obtain ⟨h8, hcode, -, -⟩ := t.engFault_records e 14 0 (t.rd .ENG_PC_CUR [e])
      exact ex_next ⟨h8, hcode⟩
    · obtain ⟨h3, -, -⟩ := State.engBegin_result (s := t.wr .ENG_STATUS_TLATE [e] 1) (e := e)
      refine ex_next ⟨h3, ?_⟩
      rw [State.engBegin_rd _ _ rfl, State.rd_wr_same]
      rfl
  case auto =>
    intro e s hst hg hauto harm
    exact engPermitGrant_auto hst hg hauto harm
  case resumeDrop =>
    intro w e s hreach h5
    exact ⟨_, rfl, State.engCmd_drops_same hreach (by simp [h5])⟩
  case stopDrop =>
    intro w e s hreach h
    have hst : [1, 2, 3, 4, 5].contains (s.estate e) = false := by
      simp only [List.contains_cons, List.contains_nil, Bool.or_false, Bool.or_eq_false_iff, beq_eq_false_iff_ne]
      omega
    exact ⟨_, rfl, State.engCmd_drops_same hreach hst⟩

/-! PROOFS. The step of an engine whose word emits nothing and allows no timer call, and the operations of its control slot
(R108 to R115, R120). -/

/-! ## A change of one engine's run-time data alone -/

/-- `u` differs from `s` in run-time data of engines only, and those of engine `e` in it are `r`. -/
structure State.OnlyEng (s u : State) (e : Nat) (r : EngRt) : Prop where
  rest : ∃ m, u = { s with eng := m }
  rt : u.engine e = r

section
variable {s u : State} {e : Nat} {r : EngRt}

theorem State.OnlyEng.refl (s : State) (e : Nat) : s.OnlyEng s e (s.engine e) := ⟨⟨s.eng, rfl⟩, rfl⟩

theorem State.OnlyEng.setEngine (h : s.OnlyEng u e r) (r' : EngRt) : s.OnlyEng (u.setEngine e r') e r' := by
  obtain ⟨⟨m, rfl⟩, -⟩ := h
  exact ⟨⟨_, rfl⟩, (State.setEngine_engine ..).trans (if_pos rfl)⟩

theorem State.OnlyEng.trans {t : State} {r' : EngRt} (h : s.OnlyEng u e r) (h' : u.OnlyEng t e r') : s.OnlyEng t e r' := by
  obtain ⟨⟨m, rfl⟩, -⟩ := h
  obtain ⟨⟨m', rfl⟩, hr⟩ := h'
  exact ⟨⟨_, rfl⟩, hr⟩

theorem State.OnlyEng.rd (h : s.OnlyEng u e r) (f : Fld) (i : List Nat) : u.rd f i = s.rd f i := by
  obtain ⟨⟨m, rfl⟩, -⟩ := h; rfl

theorem State.OnlyEng.now (h : s.OnlyEng u e r) : u.now = s.now := by obtain ⟨⟨m, rfl⟩, -⟩ := h; rfl

theorem State.OnlyEng.govs (h : s.OnlyEng u e r) : u.govs = s.govs := by obtain ⟨⟨m, rfl⟩, -⟩ := h; rfl

theorem State.OnlyEng.stewards (h : s.OnlyEng u e r) : u.stewards = s.stewards := by obtain ⟨⟨m, rfl⟩, -⟩ := h; rfl

theorem State.setEngine_stewards (s : State) (e : Nat) (r : EngRt) : (s.setEngine e r).stewards = s.stewards := rfl

theorem State.OnlyEng.genStep (h : s.OnlyEng u e r) (w : Nat) : u.genStep e w = s.genStep e w := by
  obtain ⟨⟨m, rfl⟩, -⟩ := h; rfl

end

/-! ## The parts of a step -/

/-- The run-time data of an engine after the generators of its step (R113, R115). -/
noncomputable def genRt (r : EngRt) (w : Nat) (g : List (Nat × Bool)) : EngRt :=
  { r with cx := (g.getD 0 (0, false)).2, cy := (g.getD 1 (0, false)).2, cz := (g.getD 2 (0, false)).2,
           cl := (g.getD 3 (0, false)).2, lfsr := if wLSTEP w then lfsrStep r.lfsr else r.lfsr }

/-- The run-time data of an engine at the end of its step. -/
def endRt (r : EngRt) (now : Nat) : EngRt :=
  { r with steps := (r.steps + 1) % 2 ^ 64, wait := .none, waited := false, stall := 0, counted := false, single := false,
           kept := none, stepT := now }

/-- The run-time data of an engine whose step has its waits behind it. -/
def waitedRt (r : EngRt) : EngRt := { r with wait := .none, waited := true }

/-- The run-time data of an engine whose step begins. -/
def begunRt (r : EngRt) (now : Nat) (br : Bool) : EngRt := { r with stepT := now, brOk := br, counted := false, waited := false }

theorem genRt_single (r : EngRt) (w : Nat) (g : List (Nat × Bool)) : (genRt r w g).single = r.single := rfl
theorem waitedRt_single (r : EngRt) : (waitedRt r).single = r.single := rfl
theorem begunRt_single (r : EngRt) (now : Nat) (br : Bool) : (begunRt r now br).single = r.single := rfl

/-- The end check of R110, the range of the next PC, and the end of the step (R120); `v` is the state a fault goes back to. -/
noncomputable def State.stepSeq (s v : State) (e w pc next : Nat) (seq halt : Bool) : State :=
  let (s4, n) := if seq then s.loopEnd e pc (s.engine e).lstack else (s, next)
  if 16384 ≤ n then v.engFault e 2 0 pc else s4.stepEnd e w n halt

/-- The control operation of a step that emits nothing, and what follows it. -/
noncomputable def State.stepAct (u v : State) (e w pc : Nat) : State :=
  match ctlOf e pc w u with
  | .fault c => v.engFault e c 0 pc
  | .go next seq s2 => (s2.stepGens e w (u.genStep e w)).stepSeq v e w pc next seq false
  | .halt next s2 => (s2.stepGens e w (u.genStep e w)).stepSeq v e w pc next true true

section
variable {s u v : State} {e w pc : Nat}

/-- A step of `KIND` 0 emits nothing (R118). -/
theorem State.stepEmit_quiet (hk : wKIND w = 0) (sw : Nat) : s.OnlyEng (s.stepEmit e w pc sw) e (s.engine e) := by
  unfold State.stepEmit
  simp only [hk, bne_self_eq_false, Bool.false_and, Bool.false_eq_true, if_false, Nat.reduceLeDiff, decide_false,
    List.append_nil, List.isEmpty_nil, Bool.not_true, Bool.and_false, Bool.or_false,
    Nat.zero_ne_one, OfNat.zero_ne_ofNat]
  exact (State.OnlyEng.refl s e).setEngine (s.engine e)

/-- With nothing to emit the step finds room. -/
theorem State.stepRoom_quiet (hk : wKIND w = 0) : s.stepRoom e w = true := by
  simp [State.stepRoom, hk]

theorem State.stepCommit_quiet (hk : wKIND w = 0) (sw : Nat) :
    ∃ u, s.OnlyEng u e (s.engine e) ∧ s.stepCommit e w pc sw = u.stepAct s e w pc := by
  have h := State.stepEmit_quiet (s := s) (e := e) (pc := pc) hk sw
  refine ⟨_, h, ?_⟩
  unfold State.stepCommit State.stepAct
  dsimp only
  rw [h.genStep]
  cases ctlOf e pc w (s.stepEmit e w pc sw) with
  | fault c => rfl
  | go next seq s2 => rfl
  | halt next s2 => rfl

/-- A step that emits nothing comes to its control operation once its waits are over (R120). -/
theorem State.stepFill_quiet (hk : wKIND w = 0) :
    ∃ u v, s.OnlyEng u e (waitedRt (s.engine e)) ∧ s.stepFill e w pc = u.stepAct v e w pc := by
  have h := (State.OnlyEng.refl s e).setEngine (waitedRt (s.engine e))
  obtain ⟨u, hu, hcommit⟩ := State.stepCommit_quiet (s := s.setEngine e (waitedRt (s.engine e))) (e := e) (pc := pc) hk 0
  rw [h.rt] at hu
  refine ⟨u, s.setEngine e (waitedRt (s.engine e)), h.trans hu, ?_⟩
  rw [← hcommit]
  refine (if_neg (by simp [hk])).trans ?_
  exact (if_neg (by simp [hk])).trans ((if_neg (by simp [hk])).trans (if_pos (State.stepRoom_quiet hk)))

/-- A legal step whose operation waits for nothing (R120). -/
theorem State.stepBegin_quiet (hw : s.instrWord e (s.rd .ENG_PC_CUR [e]) = w) (hill : illegalWord w = false)
    (hk : wKIND w = 0) (hop : ∀ k ∈ [6, 7, 8, 9, 12], wOP w ≠ k) :
    ∃ u v, s.OnlyEng u e (waitedRt (begunRt (s.engine e) s.now (wOP w == 3 && s.brCond e w))) ∧
      s.stepBegin e = u.stepAct v e w (s.rd .ENG_PC_CUR [e]) := by
  have h := (State.OnlyEng.refl s e).setEngine (begunRt (s.engine e) s.now (wOP w == 3 && s.brCond e w))
  obtain ⟨u, v, hu, hfill⟩ := State.stepFill_quiet (pc := s.rd .ENG_PC_CUR [e]) (e := e)
    (s := s.setEngine e (begunRt (s.engine e) s.now (wOP w == 3 && s.brCond e w))) hk
  rw [h.rt] at hu
  refine ⟨u, v, h.trans hu, ?_⟩
  rw [← hfill]
  unfold State.stepBegin
  dsimp only
  rw [hw, if_neg (by simp [hill])]
  split
  · exact absurd ‹_› (hop 6 (by decide))
  · exact absurd ‹_› (hop 7 (by decide))
  · exact absurd ‹_› (hop 8 (by decide))
  · exact absurd ‹_› (hop 9 (by decide))
  · exact absurd ‹_› (hop 12 (by decide))
  · rfl

/-! ## The end of a step -/

/-- From `s`, the state that the control operation gave, to `t`: the step of engine `e` has ended with the generators `g` and
the run-time data `r`, and goes on at `next`. -/
structure State.Stepped (s t : State) (e : Nat) (g : List (Nat × Bool)) (r : EngRt) (next : Nat) : Prop where
  state : t.estate e = 3
  pc : t.rd .ENG_PC_CUR [e] = next
  gens : ∀ k : Fin 4, t.rd .ENG_GEN_V_VALUE [e, k] = (g.getD k (0, false)).1 % 2 ^ 32
  fields : ∀ f : Fld, .ENG_GEN_V_VALUE ≠ f → .ENG_PC_CUR ≠ f → .ENG_STATUS_STATE ≠ f → ∀ i, t.rd f i = s.rd f i
  rt : t.engine e = endRt r s.now
  stewards : t.stewards = s.stewards

theorem State.stepGens_engine (g : List (Nat × Bool)) : (s.stepGens e w g).engine e = genRt (s.engine e) w g := by
  unfold State.stepGens
  dsimp only
  rw [State.setEngine_engine, if_pos rfl]
  rfl

theorem State.stepGens_gen (g : List (Nat × Bool)) {k : Nat} (hk : k < 4) :
    (s.stepGens e w g).rd .ENG_GEN_V_VALUE [e, k] = (g.getD k (0, false)).1 % 2 ^ 32 := by
  unfold State.stepGens
  dsimp only
  rw [State.setEngine_rd _ _ _ rfl]
  exact State.rd_foldl_wr_range (v := fun _ i => (g.getD i (0, false)).1) (fun _ _ _ _ => rfl) 4 s hk

theorem State.stepGens_part {p : Part} (hp : [Part.regs, .eng].contains p = false) (hq : p ≠ .regs)
    (g : List (Nat × Bool)) : p.same s (s.stepGens e w g) :=
  State.stepGens_keeps (Keeps.part hp hq s) s e w g (p.same_refl s)

theorem State.stepGens_now (g : List (Nat × Bool)) : (s.stepGens e w g).now = s.now :=
  State.stepGens_part (p := .now) rfl (by decide) g

theorem State.stepGens_stewards (g : List (Nat × Bool)) : (s.stepGens e w g).stewards = s.stewards :=
  State.stepGens_part (p := .stewards) rfl (by decide) g

/-- The end of a step that allows no timer call, of an engine that runs on. -/
theorem State.stepEnd_runs {next : Nat} (hy : wY w = false) (hs : (s.engine e).single = false) :
    s.stepEnd e w next false =
      ((s.setEngine e (endRt (s.engine e) s.now)).wr .ENG_PC_CUR [e] next).wr .ENG_STATUS_STATE [e] 3 := by
  unfold State.stepEnd
  simp only [hy, Bool.false_and, Bool.false_eq_true, if_false, hs]
  rfl

/-- The end of a step that allows no timer call, of an engine that a STEP command has run (R103). -/
theorem State.stepEnd_single {next : Nat} (hy : wY w = false) (hs : (s.engine e).single = true) :
    s.stepEnd e w next false =
      (((s.setEngine e (endRt (s.engine e) s.now)).wr .ENG_PC_CUR [e] next).wr .ENG_STATUS_STATE [e] 5).tmrStop e := by
  unfold State.stepEnd
  simp only [hy, Bool.false_and, Bool.false_eq_true, if_false, hs, if_true]
  rfl

/-- The end of a HALT (R101). -/
theorem State.stepEnd_halts {next : Nat} (hy : wY w = false) :
    s.stepEnd e w next true =
      (((s.setEngine e (endRt (s.engine e) s.now)).wr .ENG_PC_CUR [e] next).engReturn e).wr .ENG_STATUS_STATE [e] 6 := by
  unfold State.stepEnd
  simp only [hy, Bool.false_and, Bool.false_eq_true, if_false, if_true]
  rfl

theorem State.stepEnd_stepped {g : List (Nat × Bool)} {next : Nat} {r : EngRt} (hu : (s.stepGens e w g).OnlyEng u e r)
    (hy : wY w = false) (hs : r.single = false) (hn : next < 16384) :
    s.Stepped (u.stepEnd e w next false) e g r next := by
  rw [State.stepEnd_runs hy (by rw [hu.rt, hs]), hu.rt, hu.now, State.stepGens_now]
  have hrd : ∀ r' f i, (u.setEngine e r').rd f i = (s.stepGens e w g).rd f i := fun r' f i => by
    rw [State.setEngine_rd _ _ _ rfl, hu.rd]
  constructor
  · exact (State.rd_wr_same ..).trans rfl
  · rw [State.rd_wr_fld _ _ _ _ _ _ (by decide), State.rd_wr_same]
    exact Nat.mod_eq_of_lt hn
  · intro k
    rw [State.rd_wr_fld _ _ _ _ _ _ (by decide), State.rd_wr_fld _ _ _ _ _ _ (by decide), hrd, State.stepGens_gen g k.isLt]
  · intro f hgen hpc hstate i
    rw [State.rd_wr_fld _ _ _ _ _ _ hstate, State.rd_wr_fld _ _ _ _ _ _ hpc, hrd,
      State.stepGens_rd _ _ _ _ (by simp [hasFld, Ne.symm hgen])]
  · rw [State.wr_engine, State.wr_engine, State.setEngine_engine, if_pos rfl]
  · rw [State.wr_stewards, State.wr_stewards, State.setEngine_stewards, hu.stewards, State.stepGens_stewards]

/-! ## Where a step goes on -/

/-- At an address where the top loop does not end the step goes on behind it (R110). -/
theorem State.loopEnd_free {l : List (Nat × Nat × Nat)} (h : l.all (fun x => x.2.2 != pc) = true) :
    s.loopEnd e pc l = (s.setEngine e { s.engine e with lstack := l }, pc + 1) := by
  cases l with
  | nil => rfl
  | cons x l =>
    obtain ⟨c, start, end_⟩ := x
    have hne : end_ ≠ pc := by simp at h; exact h.1
    unfold State.loopEnd
    rw [if_neg hne]

section
variable {s2 : State} {next : Nat}

/-- A step that jumps goes on at its target. -/
theorem State.stepAct_jump (hctl : ctlOf e pc w u = .go next false s2) (hy : wY w = false)
    (hs : (s2.engine e).single = false) (hn : next < 16384) :
    s2.Stepped (u.stepAct v e w pc) e (u.genStep e w) (genRt (s2.engine e) w (u.genStep e w)) next := by
  have hact : u.stepAct v e w pc = (s2.stepGens e w (u.genStep e w)).stepEnd e w next false := by
    unfold State.stepAct
    rw [hctl]
    exact if_neg (by omega)
  rw [hact, ← State.stepGens_engine]
  exact State.stepEnd_stepped (.refl ..) hy (by rw [State.stepGens_engine]; exact hs) hn

theorem State.stepSeq_free {halt : Bool} (hl : (s.engine e).lstack.all (fun x => x.2.2 != pc) = true) (hpc : pc < 16383) :
    s.stepSeq v e w pc next true halt = (s.setEngine e (s.engine e)).stepEnd e w (pc + 1) halt := by
  unfold State.stepSeq
  simp only [if_true]
  rw [State.loopEnd_free hl]
  exact if_neg (by omega)

/-- A step in sequence, where no loop ends, goes on behind it. -/
theorem State.stepAct_next (hctl : ctlOf e pc w u = .go next true s2) (hy : wY w = false)
    (hs : (s2.engine e).single = false) (hl : (s2.engine e).lstack.all (fun x => x.2.2 != pc) = true) (hpc : pc < 16383) :
    s2.Stepped (u.stepAct v e w pc) e (u.genStep e w) (genRt (s2.engine e) w (u.genStep e w)) (pc + 1) := by
  have hact : u.stepAct v e w pc = ((s2.stepGens e w (u.genStep e w)).setEngine e
      ((s2.stepGens e w (u.genStep e w)).engine e)).stepEnd e w (pc + 1) false := by
    unfold State.stepAct
    rw [hctl]
    exact State.stepSeq_free (by rw [State.stepGens_engine]; exact hl) hpc
  rw [hact, ← State.stepGens_engine]
  exact State.stepEnd_stepped ((State.OnlyEng.refl ..).setEngine _) hy (by rw [State.stepGens_engine]; exact hs) (by omega)

/-- A control operation that faults leaves the fault of its code (R133). -/
theorem State.stepAct_fault {c : Nat} (hctl : ctlOf e pc w u = .fault c) (hc : c < 32) :
    (u.stepAct v e w pc).estate e = 8 ∧ (u.stepAct v e w pc).rd .ENG_FAULT_CODE [e] = c := by
  have hact : u.stepAct v e w pc = v.engFault e c 0 pc := by unfold State.stepAct; rw [hctl]
  obtain ⟨h8, hcode, -, -⟩ := v.engFault_records e c 0 pc
  rw [hact]
  exact ⟨h8, hcode.trans (Nat.mod_eq_of_lt hc)⟩

end

end

/-! ## The quiet step of a row -/

/-- What a quiet step of operation `k` at `e` means: its word, and the engine that runs it. -/
structure State.Quiet (s : State) (e k w : Nat) : Prop where
  at_ : s.atStep e k = true
  word : s.instrWord e (s.rd .ENG_PC_CUR [e]) = w
  legal : illegalWord w = false
  kind : wKIND w = 0
  y : wY w = false
  single : (s.engine e).single = false
  op : wOP w = k

/-- A word that holds a reserved operation is illegal (R107). -/
theorem illegalWord_of_reserved {w : Nat} (h : 15 ≤ wOP w) : illegalWord w = true := by
  unfold illegalWord
  simp [h]

theorem State.quiet_of_atQuietStep {s : State} {e k w : Nat} (h : s.atQuietStep e k w = true) : s.Quiet e k w := by
  simp only [State.atQuietStep, Bool.and_eq_true, beq_iff_eq, Bool.not_eq_true'] at h
  obtain ⟨⟨⟨⟨⟨hat, hw⟩, hleg⟩, hk⟩, hy⟩, hs⟩ := h
  refine ⟨hat, hw, hleg, hk, hy, hs, ?_⟩
  simp only [State.atStep, hw, Bool.and_eq_true, Bool.or_eq_true, beq_iff_eq, decide_eq_true_eq] at hat
  obtain ⟨-, hop | h15⟩ := hat
  · exact hop
  · rw [illegalWord_of_reserved h15] at hleg
    cases hleg

theorem State.noLoopEnds_iff {s : State} {e : Nat} : s.noLoopEnds e = true ↔
    (s.engine e).lstack.all (fun x => x.2.2 != s.rd .ENG_PC_CUR [e]) = true ∧ s.rd .ENG_PC_CUR [e] < 16383 := by
  simp [State.noLoopEnds]

section
variable {s : State} {e : Fin 96} {k : Fin 15} {w : Nat}

/-- The run-time data of the engine as the control operation of its quiet step finds them. -/
noncomputable def State.actRt (s : State) (e w : Nat) : EngRt := waitedRt (begunRt (s.engine e) s.now (wOP w == 3 && s.brCond e w))

/-- A quiet step whose operation waits for nothing comes to its control operation. -/
theorem State.Quiet.acts (h : s.Quiet e k w) (hk : k.val ∉ [6, 7, 8, 9, 12]) :
    ∃ u v, s.OnlyEng u e (s.actRt e w) ∧ u.genStep e w = s.genStep e w ∧
      exec ((controlRows e).getD k (.engNop e)) s = .next (u.stepAct v e w (s.rd .ENG_PC_CUR [e])) := by
  obtain ⟨u, v, hu, hbegin⟩ := State.stepBegin_quiet h.word h.legal h.kind (fun n hn => by rw [h.op]; rintro rfl; exact hk hn)
  exact ⟨u, v, hu, hu.genStep w, by rw [exec_controlRow h.at_, hbegin]⟩

theorem State.Quiet.pc_loops (hl : s.noLoopEnds e = true) {u : State} (hu : s.OnlyEng u e (s.actRt e w)) :
    (u.engine e).lstack.all (fun x => x.2.2 != s.rd .ENG_PC_CUR [e]) = true := by
  rw [hu.rt]; exact (State.noLoopEnds_iff.mp hl).1

/-- The last pass through the top loop is not yet reached: back to its start, with one pass less to go (R110). -/
theorem State.loopEnd_again {s : State} {e pc c start : Nat} {r : List (Nat × Nat × Nat)}
    (h2 : 2 ≤ s.rd .ENG_LCNT_COUNT [e, c]) (hlt : s.rd .ENG_LCNT_COUNT [e, c] < 2 ^ 32) :
    ∃ u, s.loopEnd e pc ((c, start, pc) :: r) = (u, start) ∧ u.rd .ENG_LCNT_COUNT [e, c] = s.rd .ENG_LCNT_COUNT [e, c] - 1 ∧
      u.engine e = { s.engine e with lstack := (c, start, pc) :: r } := by
  have hrd : (s.wr .ENG_LCNT_COUNT [e, c] (s.rd .ENG_LCNT_COUNT [e, c] + 2 ^ 32 - 1)).rd .ENG_LCNT_COUNT [e, c] =
      s.rd .ENG_LCNT_COUNT [e, c] - 1 := by
    rw [State.rd_wr_same]
    change _ % 2 ^ 32 = _
    omega
  unfold State.loopEnd
  rw [if_pos rfl]
  dsimp only
  rw [hrd, if_pos (by omega)]
  exact ⟨_, rfl, by rw [State.setEngine_rd _ _ _ rfl, hrd], by rw [State.setEngine_engine, if_pos rfl, State.wr_engine]⟩

end

/-! ## The operations -/

section
variable {s u : State} {e pc w : Nat}

theorem ctlOf_nop (h : wOP w = 0) : ctlOf e pc w u = .go (pc + 1) true u := by unfold ctlOf; rw [h]; rfl
theorem ctlOf_loop (h : wOP w = 1) : ctlOf e pc w u = ctlLoop e pc w u := by unfold ctlOf; rw [h]; rfl
theorem ctlOf_jmp (h : wOP w = 2) : ctlOf e pc w u = .go (wIMM w % 2 ^ 14) false u := by unfold ctlOf; rw [h]; rfl
theorem ctlOf_br (h : wOP w = 3) : ctlOf e pc w u = ctlBr e pc w u := by unfold ctlOf; rw [h]; rfl
theorem ctlOf_call (h : wOP w = 4) : ctlOf e pc w u = ctlCall e pc w u := by unfold ctlOf; rw [h]; rfl
theorem ctlOf_ret (h : wOP w = 5) : ctlOf e pc w u = ctlRet e pc w u := by unfold ctlOf; rw [h]; rfl

theorem ctlLoop_end (h : wIMM w % 2 ^ 14 ≤ pc) : ctlLoop e pc w u = .fault 5 := if_pos h

theorem ctlLoop_used (h : pc < wIMM w % 2 ^ 14) (hc : (u.engine e).lstack.any (fun x => x.1 == wCNT w) = true) :
    ctlLoop e pc w u = .fault 4 :=
  (if_neg (by omega)).trans (if_pos (by simpa using hc))

/-- The counter of a LOOP is not in use. -/
theorem not_any_of_all {l : List (Nat × Nat × Nat)} {c : Nat} (h : l.all (fun x => x.1 != c) = true) :
    ¬ l.any (fun x => x.1 = c) = true := by
  simp only [List.all_eq_true, bne_iff_ne, List.any_eq_true, decide_eq_true_eq, not_exists, not_and] at h ⊢
  exact h

theorem ctlLoop_skips (h : pc < wIMM w % 2 ^ 14) (hc : (u.engine e).lstack.all (fun x => x.1 != wCNT w) = true)
    (h0 : u.rd .ENG_LREL_COUNT [e, wCNT w] = 0) : ctlLoop e pc w u = .go (wIMM w % 2 ^ 14 + 1) false u :=
  (if_neg (by omega)).trans ((if_neg (not_any_of_all hc)).trans (if_pos h0))

theorem ctlLoop_full (h : pc < wIMM w % 2 ^ 14) (hc : (u.engine e).lstack.all (fun x => x.1 != wCNT w) = true)
    (h0 : u.rd .ENG_LREL_COUNT [e, wCNT w] ≠ 0) (h8 : 8 ≤ (u.engine e).lstack.length) : ctlLoop e pc w u = .fault 3 :=
  (if_neg (by omega)).trans ((if_neg (not_any_of_all hc)).trans ((if_neg h0).trans (if_pos h8)))

/-- A LOOP that opens its loop (R110). -/
noncomputable def State.loopOpened (u : State) (e pc w : Nat) : State :=
  (u.setEngine e { u.engine e with lstack := (wCNT w, pc + 1, wIMM w % 2 ^ 14) :: (u.engine e).lstack }).wr
    .ENG_LCNT_COUNT [e, wCNT w] (u.rd .ENG_LREL_COUNT [e, wCNT w])

theorem ctlLoop_opens (h : pc < wIMM w % 2 ^ 14) (hc : (u.engine e).lstack.all (fun x => x.1 != wCNT w) = true)
    (h0 : u.rd .ENG_LREL_COUNT [e, wCNT w] ≠ 0) (h8 : (u.engine e).lstack.length < 8) :
    ctlLoop e pc w u = .go (pc + 1) true (u.loopOpened e pc w) :=
  (if_neg (by omega)).trans ((if_neg (not_any_of_all hc)).trans ((if_neg h0).trans (if_neg (by omega))))

theorem State.loopOpened_engine : (u.loopOpened e pc w).engine e =
    { u.engine e with lstack := (wCNT w, pc + 1, wIMM w % 2 ^ 14) :: (u.engine e).lstack } := by
  unfold State.loopOpened
  rw [State.wr_engine, State.setEngine_engine, if_pos rfl]

theorem ctlCall_full (h : 4 ≤ (u.engine e).cstack.length) : ctlCall e pc w u = .fault 6 := if_pos h

theorem ctlCall_pushes (h : (u.engine e).cstack.length < 4) : ctlCall e pc w u =
    .go (wIMM w % 2 ^ 14) false (u.setEngine e { u.engine e with cstack := (pc + 1) :: (u.engine e).cstack }) :=
  if_neg (by omega)

theorem ctlRet_pops {a : Nat} {r : List Nat} (h : (u.engine e).cstack = a :: r) (hh : u.rd .ENG_STATUS_IN_HANDLER [e] = 0) :
    ctlRet e pc w u = .go a false (u.setEngine e { u.engine e with cstack := r }) := by
  unfold ctlRet
  simp only [State.on, hh, h]
  exact if_neg (by simp)

theorem ctlRet_empty (h : (u.engine e).cstack = []) (hh : u.rd .ENG_STATUS_IN_HANDLER [e] = 0) :
    ctlRet e pc w u = .fault 7 := by
  unfold ctlRet
  simp only [State.on, hh, h]
  exact if_neg (by simp)

theorem ctlRet_handler (hh : u.on .ENG_STATUS_IN_HANDLER [e] = true) (hc : (u.engine e).cstack.length = (u.engine e).tcall)
    (hl : (u.engine e).lstack.length = (u.engine e).tloop) :
    ctlRet e pc w u = .go (u.engine e).tret false (u.wr .ENG_STATUS_IN_HANDLER [e] 0) :=
  (if_pos ⟨hh, hc⟩).trans (if_neg (not_not.mpr hl))

theorem ctlRet_open (hh : u.on .ENG_STATUS_IN_HANDLER [e] = true) (hc : (u.engine e).cstack.length = (u.engine e).tcall)
    (hl : (u.engine e).lstack.length ≠ (u.engine e).tloop) : ctlRet e pc w u = .fault 8 :=
  (if_pos ⟨hh, hc⟩).trans (if_pos hl)

end

/-- A STEP command runs one quiet jump of a paused engine, which then is paused again (R103). -/
theorem engCmdStep_jump {w : Writer} {e : Fin 96} {x : Nat} {s : State} (hreach : s.reaches w .ENG_CTL [e] = true)
    (hst : s.estate e = 5) (hx : s.instrWord e (s.rd .ENG_PC_CUR [e]) = x) (hleg : illegalWord x = false) (hop : wOP x = 2)
    (hk : wKIND x = 0) (hy : wY x = false) :
    ∃ t, exec (.engCmdStep w e) s = .next t ∧ t.estate e = 5 ∧ t.rd .ENG_PC_CUR [e] = wIMM x % 2 ^ 14 := by
  obtain ⟨u, v, hu, hbegin⟩ := State.stepBegin_quiet (s := s.stepOnce e) (e := e) (w := x)
    (by rw [State.stepOnce_pc, State.stepOnce_word, hx]) hleg hk (by rw [hop]; decide)
  have hsingle : ((s.stepOnce e).engine e).single = true := by
    unfold State.stepOnce
    dsimp only
    rw [State.setEngine_engine, if_pos rfl]
  have hact : u.stepAct v e x ((s.stepOnce e).rd .ENG_PC_CUR [e]) =
      (u.stepGens e x (u.genStep e x)).stepEnd e x (wIMM x % 2 ^ 14) false := by
    unfold State.stepAct
    rw [ctlOf_jmp hop]
    exact if_neg (Nat.not_le.mpr (Nat.mod_lt _ (by decide)))
  rw [exec_engCmdStep hreach hst, hbegin, hact, State.stepEnd_single hy (by
    rw [State.stepGens_engine, hu.rt, genRt_single, waitedRt_single, begunRt_single, hsingle])]
  refine ex_next ⟨?_, ?_⟩
  · unfold State.estate
    rw [State.tmrStop_rd _ _ rfl, State.rd_wr_same]
    rfl
  · rw [State.tmrStop_rd _ _ rfl, State.rd_wr_fld _ _ _ _ _ _ (by decide), State.rd_wr_same]
    exact Nat.mod_eq_of_lt (Nat.mod_lt _ (by decide))

/-- A quiet step at the end of the top loop, with two passes or more to go (R110). -/
theorem engNop_loops {e : Fin 96} {x c start : Nat} {r : List (Nat × Nat × Nat)} {s : State} (h : s.Quiet e 0 x)
    (hl : (s.engine e).lstack = (c, start, s.rd .ENG_PC_CUR [e]) :: r) (h2 : 2 ≤ s.rd .ENG_LCNT_COUNT [e, c])
    (hlt : s.rd .ENG_LCNT_COUNT [e, c] < 2 ^ 32) (hstart : start < 16384) :
    ∃ t, exec (.engNop e) s = .next t ∧ t.rd .ENG_PC_CUR [e] = start ∧
      t.rd .ENG_LCNT_COUNT [e, c] = s.rd .ENG_LCNT_COUNT [e, c] - 1 ∧ (t.engine e).lstack = (s.engine e).lstack := by
  obtain ⟨u, v, hu, -, hexec⟩ := h.acts (k := 0) (by decide)
  have hcnt : (u.stepGens e x (u.genStep e x)).rd .ENG_LCNT_COUNT [e, c] = s.rd .ENG_LCNT_COUNT [e, c] := by
    rw [State.stepGens_rd _ _ _ _ rfl, hu.rd]
  have hstack : ((u.stepGens e x (u.genStep e x)).engine e).lstack = (c, start, s.rd .ENG_PC_CUR [e]) :: r := by
    rw [State.stepGens_engine, hu.rt]; exact hl
  obtain ⟨z, hz, hzcnt, hzrt⟩ := State.loopEnd_again (s := u.stepGens e x (u.genStep e x)) (e := e) (c := c) (start := start)
    (pc := s.rd .ENG_PC_CUR [e]) (r := r) (by rwa [hcnt]) (by rwa [hcnt])
  have hact : u.stepAct v e x (s.rd .ENG_PC_CUR [e]) = z.stepEnd e x start false := by
    unfold State.stepAct
    rw [ctlOf_nop h.op]
    unfold State.stepSeq
    simp only [if_true, hstack, hz]
    exact if_neg (by omega)
  have hsingle : (z.engine e).single = false := by
    rw [hzrt, State.stepGens_engine, hu.rt]; exact h.single
  rw [hact, State.stepEnd_runs h.y hsingle] at hexec
  refine ⟨_, hexec, ?_, ?_, ?_⟩
  · rw [State.rd_wr_fld _ _ _ _ _ _ (by decide), State.rd_wr_same]
    exact Nat.mod_eq_of_lt hstart
  · rw [State.rd_wr_fld _ _ _ _ _ _ (by decide), State.rd_wr_fld _ _ _ _ _ _ (by decide), State.setEngine_rd _ _ _ rfl, hzcnt, hcnt]
  · rw [State.wr_engine, State.wr_engine, State.setEngine_engine, if_pos rfl, hl]
    change (z.engine e).lstack = _
    rw [hzrt]

section
variable {s : State} {e : Fin 96} {k : Fin 15} {w : Nat}

theorem State.Quiet.not_single {n : Nat} (h : s.Quiet e n w) {u : State} (hu : s.OnlyEng u e (s.actRt e w)) :
    (u.engine e).single = false := by
  rw [hu.rt]; exact h.single

/-- A quiet step whose operation makes `F` of the state and jumps. -/
theorem State.Quiet.jumps (h : s.Quiet e k w) (hk : k.val ∉ [6, 7, 8, 9, 12]) {next : Nat} (hn : next < 16384)
    (F : State → State) (hctl : ∀ u, s.OnlyEng u e (s.actRt e w) →
      ctlOf e (s.rd .ENG_PC_CUR [e]) w u = .go next false (F u) ∧ ((F u).engine e).single = false) :
    ∃ u t, s.OnlyEng u e (s.actRt e w) ∧ exec ((controlRows e).getD k (.engNop e)) s = .next t ∧
      (F u).Stepped t e (s.genStep e w) (genRt ((F u).engine e) w (s.genStep e w)) next := by
  obtain ⟨u, v, hu, hgen, hexec⟩ := h.acts hk
  obtain ⟨hs2, hsingle⟩ := hctl u hu
  exact ⟨u, _, hu, hexec, hgen ▸ State.stepAct_jump hs2 h.y hsingle hn⟩

/-- A quiet step whose operation makes `F` of the state and goes on in sequence, where no loop ends. -/
theorem State.Quiet.nexts (h : s.Quiet e k w) (hk : k.val ∉ [6, 7, 8, 9, 12]) (hpc : s.rd .ENG_PC_CUR [e] < 16383)
    (F : State → State) (hctl : ∀ u, s.OnlyEng u e (s.actRt e w) →
      ctlOf e (s.rd .ENG_PC_CUR [e]) w u = .go (s.rd .ENG_PC_CUR [e] + 1) true (F u) ∧ ((F u).engine e).single = false ∧
      ((F u).engine e).lstack.all (fun x => x.2.2 != s.rd .ENG_PC_CUR [e]) = true) :
    ∃ u t, s.OnlyEng u e (s.actRt e w) ∧ exec ((controlRows e).getD k (.engNop e)) s = .next t ∧
      (F u).Stepped t e (s.genStep e w) (genRt ((F u).engine e) w (s.genStep e w)) (s.rd .ENG_PC_CUR [e] + 1) := by
  obtain ⟨u, v, hu, hgen, hexec⟩ := h.acts hk
  obtain ⟨hs2, hsingle, hl⟩ := hctl u hu
  exact ⟨u, _, hu, hexec, hgen ▸ State.stepAct_next hs2 h.y hsingle hl hpc⟩

/-- A quiet step whose operation faults. -/
theorem State.Quiet.faults (h : s.Quiet e k w) (hk : k.val ∉ [6, 7, 8, 9, 12]) {c : Nat} (hc : c < 32)
    (hctl : ∀ u, s.OnlyEng u e (s.actRt e w) → ctlOf e (s.rd .ENG_PC_CUR [e]) w u = .fault c) :
    ∃ t, exec ((controlRows e).getD k (.engNop e)) s = .next t ∧ t.estate e = 8 ∧ t.rd .ENG_FAULT_CODE [e] = c := by
  obtain ⟨u, v, hu, -, hexec⟩ := h.acts hk
  exact ⟨_, hexec, State.stepAct_fault (hctl u hu) hc⟩

end

/-- A BR goes to its target where its condition held at the start of the step (R109). -/
theorem ctlBr_taken {u : State} {e pc w : Nat} (h : (u.engine e).brOk = true) :
    ctlBr e pc w u = .go (wIMM w % 2 ^ 14) false u := if_pos h

theorem ctlBr_passed {u : State} {e pc w : Nat} (h : (u.engine e).brOk = false) :
    ctlBr e pc w u = .go (pc + 1) true u := if_neg (by simp [h])

theorem imm14_lt (w : Nat) : wIMM w % 2 ^ 14 < 16384 := Nat.mod_lt _ (by decide)

/-- Settles O21, operation by operation: `State.Quiet.acts` brings each row to its control operation, and `State.Stepped`
says where the step goes on. -/
theorem controlOperationsMoveThePC : Obligations.ControlOperationsMoveThePC := by
  unfold Obligations.ControlOperationsMoveThePC
  refine ⟨?nop, ?loops, ?jmp, ?taken, ?passed, ?call, ?callFull, ?ret, ?retEmpty, ?opens, ?skips, ?endBad, ?single, ?used,
    ?full, ?handler, ?open_⟩
  case nop =>
    intro e x s hq hl
    have h := State.quiet_of_atQuietStep hq
    obtain ⟨u, t, hu, hexec, ht⟩ := h.nexts (k := 0) (by decide) (State.noLoopEnds_iff.mp hl).2 id
      fun u hu => ⟨ctlOf_nop h.op, h.not_single hu, State.Quiet.pc_loops hl hu⟩
    refine ⟨t, hexec, ht.pc, ht.state, ?_, ht.gens, ?_, ?_⟩ <;> (rw [ht.rt, id, hu.rt]; rfl)
  case loops =>
    intro e x c start end_ r s hq hl hend h2 hlt hstart
    subst hend
    exact engNop_loops (State.quiet_of_atQuietStep hq) hl h2 hlt hstart
  case jmp =>
    intro e x s hq
    have h := State.quiet_of_atQuietStep hq
    obtain ⟨u, t, hu, hexec, ht⟩ := h.jumps (k := 2) (by decide) (imm14_lt x) id
      fun u hu => ⟨ctlOf_jmp h.op, h.not_single hu⟩
    refine ⟨t, hexec, ht.pc, ?_, ?_⟩ <;> (rw [ht.rt, id, hu.rt]; rfl)
  case taken =>
    intro e x s hq hbr
    have h := State.quiet_of_atQuietStep hq
    obtain ⟨u, t, hu, hexec, ht⟩ := h.jumps (k := 3) (by decide) (imm14_lt x) id
      fun u hu => ⟨(ctlOf_br h.op).trans (ctlBr_taken (by rw [hu.rt]; simp [State.actRt, waitedRt, begunRt, h.op, hbr])),
        h.not_single hu⟩
    exact ⟨t, hexec, ht.pc⟩
  case passed =>
    intro e x s hq hbr hl
    have h := State.quiet_of_atQuietStep hq
    obtain ⟨u, t, hu, hexec, ht⟩ := h.nexts (k := 3) (by decide) (State.noLoopEnds_iff.mp hl).2 id
      fun u hu => ⟨(ctlOf_br h.op).trans (ctlBr_passed (by rw [hu.rt]; simp [State.actRt, waitedRt, begunRt, h.op, hbr])),
        h.not_single hu, State.Quiet.pc_loops hl hu⟩
    exact ⟨t, hexec, ht.pc⟩
  case call =>
    intro e x s hq hc
    have h := State.quiet_of_atQuietStep hq
    obtain ⟨u, t, hu, hexec, ht⟩ := h.jumps (k := 4) (by decide) (imm14_lt x)
      (fun u => u.setEngine e { u.engine e with cstack := (s.rd .ENG_PC_CUR [e] + 1) :: (u.engine e).cstack })
      fun u hu => ⟨(ctlOf_call h.op).trans (ctlCall_pushes (by rw [hu.rt]; exact hc)),
        by rw [State.setEngine_engine, if_pos rfl, hu.rt]; exact h.single⟩
    refine ⟨t, hexec, ht.pc, ?_⟩
    rw [ht.rt, State.setEngine_engine, if_pos rfl, hu.rt]
    rfl
  case callFull =>
    intro e x s hq hc
    have h := State.quiet_of_atQuietStep hq
    exact h.faults (k := 4) (by decide) (by decide) fun u hu => (ctlOf_call h.op).trans (ctlCall_full (by rw [hu.rt]; exact hc))
  case ret =>
    intro e x a r s hq hc hh ha
    have h := State.quiet_of_atQuietStep hq
    obtain ⟨u, t, hu, hexec, ht⟩ := h.jumps (k := 5) (by decide) ha
      (fun u => u.setEngine e { u.engine e with cstack := r })
      fun u hu => ⟨(ctlOf_ret h.op).trans (ctlRet_pops (by rw [hu.rt]; exact hc) (by rw [hu.rd, hh])),
        by rw [State.setEngine_engine, if_pos rfl, hu.rt]; exact h.single⟩
    refine ⟨t, hexec, ht.pc, ?_⟩
    rw [ht.rt, State.setEngine_engine, if_pos rfl]
    rfl
  case retEmpty =>
    intro e x s hq hc hh
    have h := State.quiet_of_atQuietStep hq
    exact h.faults (k := 5) (by decide) (by decide)
      fun u hu => (ctlOf_ret h.op).trans (ctlRet_empty (by rw [hu.rt]; exact hc) (by rw [hu.rd, hh]))
  case opens =>
    intro e x s hq hl hend hc h0 h8
    have h := State.quiet_of_atQuietStep hq
    obtain ⟨u, t, hu, hexec, ht⟩ := h.nexts (k := 1) (by decide) (State.noLoopEnds_iff.mp hl).2
      (fun u => u.loopOpened e (s.rd .ENG_PC_CUR [e]) x)
      fun u hu => ⟨(ctlOf_loop h.op).trans (ctlLoop_opens hend (by rw [hu.rt]; exact hc) (by rw [hu.rd]; exact h0)
          (by rw [hu.rt]; exact h8)),
        by rw [State.loopOpened_engine, hu.rt]; exact h.single,
        by
          rw [State.loopOpened_engine]
          simp only [List.all_cons, State.Quiet.pc_loops hl hu, Bool.and_true, bne_iff_ne]
          omega⟩
    refine ⟨t, hexec, ht.pc, ?_, ?_⟩
    · rw [ht.fields _ (by decide) (by decide) (by decide)]
      unfold State.loopOpened
      rw [State.rd_wr_same, hu.rd]
      rfl
    · rw [ht.rt, State.loopOpened_engine, hu.rt]
      rfl
  case skips =>
    intro e x s hq hend hc h0 hlast
    have h := State.quiet_of_atQuietStep hq
    obtain ⟨u, t, hu, hexec, ht⟩ := h.jumps (k := 1) (by decide) (next := wIMM x % 2 ^ 14 + 1) (by omega) id
      fun u hu => ⟨(ctlOf_loop h.op).trans (ctlLoop_skips hend (by rw [hu.rt]; exact hc) (by rw [hu.rd, h0])),
        h.not_single hu⟩
    refine ⟨t, hexec, ht.pc, ?_⟩
    rw [ht.rt, id, hu.rt]
    rfl
  case endBad =>
    intro e x s hq hend
    have h := State.quiet_of_atQuietStep hq
    exact h.faults (k := 1) (by decide) (by decide) fun u hu => (ctlOf_loop h.op).trans (ctlLoop_end hend)
  case single =>
    intro w e x s hreach hst hx hleg hop hk hy
    exact engCmdStep_jump hreach hst hx hleg hop hk hy
  case used =>
    intro e x s hq hend hc
    have h := State.quiet_of_atQuietStep hq
    exact h.faults (k := 1) (by decide) (by decide)
      fun u hu => (ctlOf_loop h.op).trans (ctlLoop_used hend (by rw [hu.rt]; exact hc))
  case full =>
    intro e x s hq hend hc h0 h8
    have h := State.quiet_of_atQuietStep hq
    exact h.faults (k := 1) (by decide) (by decide) fun u hu => (ctlOf_loop h.op).trans
      (ctlLoop_full hend (by rw [hu.rt]; exact hc) (by rw [hu.rd]; exact h0) (by rw [hu.rt]; exact h8))
  case handler =>
    intro e x a s hq hh hc hl ha hlt
    subst ha
    have h := State.quiet_of_atQuietStep hq
    have hret : ∀ u, s.OnlyEng u e (s.actRt e x) → (u.engine e).tret = (s.engine e).tret := fun u hu => by rw [hu.rt]; rfl
    obtain ⟨u, t, hu, hexec, ht⟩ := h.jumps (k := 5) (by decide) hlt (fun u => u.wr .ENG_STATUS_IN_HANDLER [e] 0)
      fun u hu => ⟨(ctlOf_ret h.op).trans ((ctlRet_handler (by rw [State.on, hu.rd]; exact hh) (by rw [hu.rt]; exact hc)
          (by rw [hu.rt]; exact hl)).trans (by rw [hret u hu])),
        by rw [State.wr_engine, hu.rt]; exact h.single⟩
    refine ⟨t, hexec, ht.pc, ?_⟩
    rw [ht.fields _ (by decide) (by decide) (by decide), State.rd_wr_same]
    rfl
  case open_ =>
    intro e x s hq hh hc hl
    have h := State.quiet_of_atQuietStep hq
    exact h.faults (k := 5) (by decide) (by decide) fun u hu => (ctlOf_ret h.op).trans
      (ctlRet_open (by rw [State.on, hu.rd]; exact hh) (by rw [hu.rt]; exact hc) (by rw [hu.rt]; exact hl))

/-! PROOFS. The operations of the control slot that set registers, the streams, the stall and the timer of an engine (R101,
R108, R112, R126 to R128, R130, R132). -/

/-! ## The operations -/

section
variable {s u : State} {e pc w : Nat}

theorem ctlOf_setl (h : wOP w = 10) :
    ctlOf e pc w u = .go (pc + 1) true (u.wr .ENG_LREL_COUNT [e, wCNT w] (wIMM w)) := by unfold ctlOf; rw [h]; rfl
theorem ctlOf_strm (h : wOP w = 11) : ctlOf e pc w u = ctlStrm e pc w u := by unfold ctlOf; rw [h]; rfl
theorem ctlOf_rate (h : wOP w = 12) : ctlOf e pc w u = ctlRate e pc w u := by unfold ctlOf; rw [h]; rfl
theorem ctlOf_evt (h : wOP w = 13) : ctlOf e pc w u = ctlEvt e pc w u := by unfold ctlOf; rw [h]; rfl
theorem ctlOf_halt (h : wOP w = 14) :
    ctlOf e pc w u = .halt (pc + 1) (u.wr .ENG_STATUS_END_CODE [e] (wIMM w % 2 ^ 16)) := by unfold ctlOf; rw [h]; rfl

theorem ctlStrm_starts (h : wIMM w = 1) (hoff : u.strmOff e = false) :
    ctlStrm e pc w u = .go (pc + 1) true (u.strmStart e) :=
  (if_pos (by rw [h])).trans (if_neg (by simp [hoff]))

theorem ctlStrm_refused (h : wIMM w = 1) (hoff : u.strmOff e = true) : ctlStrm e pc w u = .fault 10 :=
  (if_pos (by rw [h])).trans (if_pos hoff)

theorem ctlStrm_stops (h : wIMM w = 0) : ctlStrm e pc w u = .go (pc + 1) true (u.strmStop e) :=
  if_neg (by rw [h]; decide)

theorem State.strmStop_engine : (u.strmStop e).engine e =
    { u.engine e with buf := [], outst := [], strmOn := false, strmFirst := false } :=
  (State.setEngine_engine ..).trans (if_pos rfl)

/-- What a RATE step does at its control operation (R130): the permit follows, and a rate of 0 stops the stream. -/
noncomputable def State.rateSet (u : State) (e w : Nat) : State :=
  let rt := wIMM w % 2 ^ 7
  let s := if ceilDiv rt 16 = ceilDiv (u.strmRate e) 16 then u else u.holdEngine e rt
  let s := s.wr .ENG_STRM_CTL_RATE [e] rt
  if rt = 0 then s.strmStop e else s

theorem ctlRate_eq : ctlRate e pc w u = .go (pc + 1) true (u.rateSet e w) := rfl

theorem State.rateSet_rd : (u.rateSet e w).rd .ENG_STRM_CTL_RATE [e] = wIMM w % 128 := by
  have hmod : ∀ n, n % 2 ^ 7 % 2 ^ (Fld.spec .ENG_STRM_CTL_RATE).width = n % 128 := fun n => Nat.mod_mod ..
  unfold State.rateSet
  dsimp only
  split
  · rw [State.strmStop_rd _ _ rfl, State.rd_wr_same, hmod]
  · rw [State.rd_wr_same, hmod]

theorem State.holdEngine_eng (r : Nat) : (u.holdEngine e r).eng = u.eng := rfl

/-- A RATE step leaves the loops of its engine, and whether a STEP command runs it. -/
theorem State.rateSet_engine : ((u.rateSet e w).engine e).single = (u.engine e).single ∧
    ((u.rateSet e w).engine e).lstack = (u.engine e).lstack := by
  have hheld : ∀ rt, (if ceilDiv rt 16 = ceilDiv (u.strmRate e) 16 then u else u.holdEngine e rt).engine e = u.engine e := by
    intro rt
    split
    · rfl
    · exact State.engine_of_eng (State.holdEngine_eng rt) e
  unfold State.rateSet
  dsimp only
  split
  · rw [State.strmStop_engine, State.wr_engine, hheld]
    exact ⟨rfl, rfl⟩
  · rw [State.wr_engine, hheld]
    exact ⟨rfl, rfl⟩

/-- The event of an EVT step (R108). -/
noncomputable def State.evtReport (u : State) (e pc w : Nat) : Report :=
  { code := .ofRule 0x0200 108, sev := 0, die := engDie e, block := Reg.blockNo .ENG_CTL [e], time := u.localNs,
    valid := u.on .SX_STAT_VALID [], arg := .known (wIMM w % 2 ^ 16 + e * 2 ^ 16 + pc * 2 ^ 32) }

theorem ctlEvt_eq : ctlEvt e pc w u = .go (pc + 1) true (u.push (engDie e) (u.evtReport e pc w)) := rfl

theorem State.push_eng (s : State) (n : Nat) (r : Report) : (s.push n r).eng = s.eng :=
  State.push_keeps (Keeps.part (p := .eng) rfl (by decide) s) s n r rfl

/-- Where no more units are wanted a RATE step waits for nothing (R130). -/
theorem State.stepBegin_rate (hw : s.instrWord e (s.rd .ENG_PC_CUR [e]) = w) (hill : illegalWord w = false)
    (hk : wKIND w = 0) (hop : wOP w = 12) (hunits : ceilDiv (wIMM w % 128) 16 ≤ ceilDiv (s.strmRate e) 16) :
    ∃ u v, s.OnlyEng u e (waitedRt (begunRt (s.engine e) s.now (wOP w == 3 && s.brCond e w))) ∧
      s.stepBegin e = u.stepAct v e w (s.rd .ENG_PC_CUR [e]) := by
  have h := (State.OnlyEng.refl s e).setEngine (begunRt (s.engine e) s.now (wOP w == 3 && s.brCond e w))
  obtain ⟨u, v, hu, hfill⟩ := State.stepFill_quiet (pc := s.rd .ENG_PC_CUR [e]) (e := e)
    (s := s.setEngine e (begunRt (s.engine e) s.now (wOP w == 3 && s.brCond e w))) hk
  rw [h.rt] at hu
  refine ⟨u, v, h.trans hu, ?_⟩
  rw [← hfill]
  unfold State.stepBegin
  dsimp only
  rw [hw, if_neg (by simp [hill])]
  split
  case h_5 => exact if_pos (Nat.sub_eq_zero_of_le hunits)
  all_goals simp_all

end

/-! ## HALT and the stall -/

/-- A HALT where no loop ends: the run is over, and its permit returns (R101, R395). -/
theorem engHalt_result {e : Fin 96} {x : Nat} {s : State} (h : s.Quiet e 14 x) (hl : s.noLoopEnds e = true) :
    ∃ t, exec (.halt e) s = .next t ∧ t.estate e = 6 ∧ t.rd .ENG_STATUS_END_CODE [e] = wIMM x % 2 ^ 16 ∧
      t.rd .ENG_PC_CUR [e] = s.rd .ENG_PC_CUR [e] + 1 ∧ (t.gov (engDie e)).held.any (·.is 1 [e]) = false := by
  obtain ⟨u, v, hu, -, hexec⟩ := h.acts (k := 14) (by decide)
  obtain ⟨hends, hpc⟩ := State.noLoopEnds_iff.mp hl
  have hact : u.stepAct v e x (s.rd .ENG_PC_CUR [e]) =
      ((((u.wr .ENG_STATUS_END_CODE [e] (wIMM x % 2 ^ 16)).stepGens e x (u.genStep e x)).setEngine e
        (((u.wr .ENG_STATUS_END_CODE [e] (wIMM x % 2 ^ 16)).stepGens e x (u.genStep e x)).engine e)).stepEnd e x
          (s.rd .ENG_PC_CUR [e] + 1) true) := by
    unfold State.stepAct
    rw [ctlOf_halt h.op]
    exact State.stepSeq_free (by rw [State.stepGens_engine, State.wr_engine, hu.rt]; exact hends) hpc
  rw [hact, State.stepEnd_halts h.y] at hexec
  refine ⟨_, hexec, (State.rd_wr_same ..).trans rfl, ?_, ?_, ?_⟩
  · rw [State.rd_wr_fld _ _ _ _ _ _ (by decide), State.engReturn_rd _ _ rfl, State.rd_wr_fld _ _ _ _ _ _ (by decide),
      State.setEngine_rd _ _ _ rfl, State.setEngine_rd _ _ _ rfl, State.stepGens_rd _ _ _ _ rfl, State.rd_wr_same]
    exact Nat.mod_mod (wIMM x) (2 ^ 16)
  · rw [State.rd_wr_fld _ _ _ _ _ _ (by decide), State.engReturn_rd _ _ rfl, State.rd_wr_same]
    exact Nat.mod_eq_of_lt (Nat.succ_lt_succ hpc)
  · rw [State.wr_gov, State.engReturn_held]

/-- A stalled step that emits nothing goes on (R120, R132). -/
theorem engStepUnstall_result {e : Fin 96} {x : Nat} {s : State} (hst : s.estate e = 3) (hstall : (s.engine e).stall = 2)
    (hs : (s.engine e).single = false) (hx : s.instrWord e (s.rd .ENG_PC_CUR [e]) = x) (hop : wOP x = 0)
    (hk : wKIND x = 0) (hy : wY x = false) (hl : s.noLoopEnds e = true) :
    ∃ t, exec (.engStepUnstall e) s = .next t ∧ t.estate e = 3 ∧ (t.engine e).stall = 0 ∧
      t.rd .ENG_PC_CUR [e] = s.rd .ENG_PC_CUR [e] + 1 := by
  obtain ⟨hends, hpc⟩ := State.noLoopEnds_iff.mp hl
  obtain ⟨u, hu, hcommit⟩ := State.stepCommit_quiet (s := s) (e := e) (pc := s.rd .ENG_PC_CUR [e]) hk 0
  have hexec : exec (.engStepUnstall e) s = .next (u.stepAct s e x (s.rd .ENG_PC_CUR [e])) := by
    rw [← hcommit]
    change execEngStepUnstall e s = _
    unfold execEngStepUnstall
    dsimp only
    rw [if_pos ⟨hst, by omega⟩, hx]
    exact congrArg Host.Outcome.next
      ((if_neg (by simp [hk])).trans ((if_neg (by simp [hk])).trans (if_pos (State.stepRoom_quiet hk))))
  have ht := State.stepAct_next (v := s) (ctlOf_nop hop) hy (by rw [hu.rt, hs]) (by rw [hu.rt]; exact hends) hpc
  refine ⟨_, hexec, ht.state, ?_, ht.pc⟩
  rw [ht.rt]
  rfl

/-! ## Streams -/

/-- The fill of the first stream step is there, and the step goes on, to stall at the word not yet read (R127). -/
theorem streamFillDone_stalls {e : Fin 96} {s : State} (hwait : (s.engine e).wait = .fill) (hst : s.estate e = 4)
    (hfill : s.filled e = true) (hoff : s.strmOff e = false) (hon : (s.engine e).strmOn = true)
    (hlen : s.rd .ENG_STRM_POS_POS [e] < s.rd .ENG_STRM_LEN_LEN [e])
    (hkind : wKIND (s.instrWord e (s.rd .ENG_PC_CUR [e])) ≠ 0) (hsrc : wDSRC (s.instrWord e (s.rd .ENG_PC_CUR [e])) = 2)
    (hbuf : (s.engine e).buf.all (fun b => b.n != s.rd .ENG_STRM_POS_POS [e]) = true) :
    ∃ t, exec (.streamFillDone e) s = .next t ∧ t.estate e = 3 ∧ (t.engine e).stall = 2 := by
  have hnone : (s.engine e).buf.find? (fun b => decide (b.n = s.rd .ENG_STRM_POS_POS [e])) = none := by
    rw [List.find?_eq_none]
    intro b hb
    simpa using List.all_eq_true.mp hbuf b hb
  have hitems : ∀ r : EngRt, r.strmOn = (s.engine e).strmOn → r.buf = (s.engine e).buf →
      (((s.wr .ENG_STATUS_STATE [e] 3).setEngine e r).stepItems e (s.instrWord e (s.rd .ENG_PC_CUR [e]))
        (s.rd .ENG_PC_CUR [e])) =
      ((s.wr .ENG_STATUS_STATE [e] 3).setEngine e r).engStall e 2 := by
    intro r hron hrbuf
    have heng : ((s.wr .ENG_STATUS_STATE [e] 3).setEngine e r).engine e = r := (State.setEngine_engine ..).trans (if_pos rfl)
    have hpos : ∀ f, .ENG_STATUS_STATE ≠ f → ((s.wr .ENG_STATUS_STATE [e] 3).setEngine e r).rd f [e] = s.rd f [e] := fun f hf => by
      rw [State.setEngine_rd _ _ _ rfl, State.rd_wr_fld _ _ _ _ _ _ hf]
    have hoff' : ((s.wr .ENG_STATUS_STATE [e] 3).setEngine e r).strmOff e = false := by
      rw [← hoff]
      unfold State.strmOff State.strmRate
      rw [hpos _ (by decide), hpos _ (by decide)]
    unfold State.stepItems
    dsimp only
    rw [if_pos ⟨hkind, hsrc⟩, hoff', heng, hron, hon, if_neg (by decide), hpos _ (by decide), hpos _ (by decide),
      if_neg (by omega), hrbuf, hnone]
  have hstall : ∀ u : State, (u.engStall e 2).estate e = 3 ∧ ((u.engStall e 2).engine e).stall = 2 := by
    intro u
    unfold State.engStall State.estate
    dsimp only
    rw [State.wr_engine, State.setEngine_engine, if_pos rfl]
    exact ⟨(State.rd_wr_same ..).trans rfl, rfl⟩
  have hexec : exec (.streamFillDone e) s = .next (s.engWaitOver e) := by
    change execStreamFillDone e s = _
    unfold execStreamFillDone
    rw [hwait]
    exact if_pos ⟨hst, hfill⟩
  have hover : ∃ r, s.engWaitOver e = ((s.wr .ENG_STATUS_STATE [e] 3).setEngine e r).engStall e 2 := by
    unfold State.engWaitOver State.stepFill
    dsimp only
    rw [State.wr_engine]
    split
    · rw [show (s.wr .ENG_STATUS_STATE [e] 3).filled e = true by
        rw [← hfill]
        unfold State.filled
        rw [State.rd_wr_fld _ _ _ _ _ _ (by decide), State.rd_wr_fld _ _ _ _ _ _ (by decide), State.wr_engine]]
      exact ⟨_, hitems _ rfl rfl⟩
    · exact ⟨_, hitems _ rfl rfl⟩
  obtain ⟨r, hr⟩ := hover
  exact ⟨_, hexec, hr ▸ hstall _⟩

/-- A read of a stream word is issued while reads, room and words are left (R127). -/
theorem streamReadIssue_result {e : Fin 96} {s : State} (hon : (s.engine e).strmOn = true) (hst : s.estate e = 3)
    (hlen : (s.engine e).issued < s.rd .ENG_STRM_LEN_LEN [e]) (hout : (s.engine e).outst.length < 1024)
    (hroom : (s.engine e).outst.length + (s.engine e).buf.length < 8192) (hrate : 0 < s.strmRate e) :
    ∃ t, exec (.streamReadIssue e) s = .next t ∧ (t.engine e).issued = (s.engine e).issued + 1 ∧
      (t.engine e).outst = (s.engine e).outst ++ [(s.engine e).issued] ∧ SameFields s t [] := by
  have hexec : exec (.streamReadIssue e) s = .next _ := if_pos ⟨hon, by omega, by omega, hlen, hout, hroom, hrate⟩
  refine ⟨_, hexec, ?_, ?_, ?_⟩
  · rw [State.setEngine_engine, if_pos rfl]
  · rw [State.setEngine_engine, if_pos rfl]
  · intro f i _
    rw [State.setEngine_rd _ _ _ rfl]
    split
    · rfl
    · exact State.lapseTo_rd _ _ rfl

/-- The response of a stream read enters the buffer under its word's number (R127). -/
theorem streamReadComplete_result {e : Fin 96} {n : Nat} (data : BitVec 512) (status : Fin 4) {s : State}
    (hn : (s.engine e).outst.contains n = true) :
    ∃ t, exec (.streamReadComplete e n data status) s = .next t ∧
      (t.engine e).buf.length = (s.engine e).buf.length + 1 ∧ ((t.engine e).buf.getLast?.map (·.n)) = some n ∧
      (t.engine e).outst = (s.engine e).outst.filter (· ≠ n) := by
  rcases hg : s.gRead (engMst e) (s.strmAddr e n) (data.toNat, status) with ⟨d, c, u⟩
  have hread : u.engine e = s.engine e := State.engine_of_eng
    (State.gRead_keeps_of (Keeps.part (p := .eng) rfl (by decide) s) s _ _ _ rfl hg) e
  have hexec : exec (.streamReadComplete e n data status) s = .next (u.setEngine e { u.engine e with
      outst := (u.engine e).outst.filter (· ≠ n), buf := (u.engine e).buf ++ [{ n := n, data := d, status := c }] }) := by
    change execStreamReadComplete e n data status s = _
    unfold execStreamReadComplete
    rw [if_pos hn, hg]
  refine ⟨_, hexec, ?_⟩
  rw [State.setEngine_engine, if_pos rfl, hread]
  exact ⟨by rw [List.length_append]; rfl, by rw [List.getLast?_concat]; rfl, rfl⟩

/-- A timer expiry makes a call pending (R112). -/
theorem exec_engTimerExpiry {e : Fin 96} {s : State} (hdue : (s.engine e).tmrDue ≠ 0) (h3 : 3 ≤ s.estate e) (h5 : s.estate e ≤ 5) :
    ∃ r : EngRt, r.tmrDue = (s.engine e).tmrDue + s.rd .ENG_TMR_PERIOD_PERIOD [e] ∧ exec (.engTimerExpiry e) s = .next
      (if (s.engine e).tmrPend || s.on .ENG_STATUS_IN_HANDLER [e] then
        ((((s.lapseTo (s.engine e).tmrDue).setEngine e r).wr .ENG_STATUS_TMR_OVR [e] 1).raise .ENG_CTL [e] 112 0 [e])
      else (s.lapseTo (s.engine e).tmrDue).setEngine e { r with tmrPend := true }) := by
  refine ⟨{ s.engine e with
    tmrDue := (s.engine e).tmrDue + (s.lapseTo (s.engine e).tmrDue).rd .ENG_TMR_PERIOD_PERIOD [e] }, ?_, ?_⟩
  · rw [State.lapseTo_rd _ _ rfl]
  · refine (if_pos ⟨hdue, h3, h5⟩).trans ?_
    dsimp only
    have hon : (s.lapseTo (s.engine e).tmrDue).on .ENG_STATUS_IN_HANDLER [e] = s.on .ENG_STATUS_IN_HANDLER [e] := by
      unfold State.on; rw [State.lapseTo_rd _ _ rfl]
    rw [hon]
    split <;> rfl

/-- Settles O22: each operation over the quiet step of O21, then the streams, the stall and the timer. -/
theorem engineOperationsSetTheirRegisters : Obligations.EngineOperationsSetTheirRegisters := by
  unfold Obligations.EngineOperationsSetTheirRegisters
  refine ⟨?setl, ?starts, ?refused, ?stops, ?rate, ?evt, ?halt, ?issue, ?complete, ?fill, ?unstall, ?call, ?overrun⟩
  case setl =>
    intro e x s hq hl
    have h := State.quiet_of_atQuietStep hq
    obtain ⟨u, t, hu, hexec, ht⟩ := h.nexts (k := 10) (by decide) (State.noLoopEnds_iff.mp hl).2
      (fun u => u.wr .ENG_LREL_COUNT [e, wCNT x] (wIMM x))
      fun u hu => ⟨ctlOf_setl h.op, by rw [State.wr_engine]; exact h.not_single hu,
        by rw [State.wr_engine]; exact State.Quiet.pc_loops hl hu⟩
    refine ⟨t, hexec, ?_, ht.pc⟩
    rw [ht.fields _ (by decide) (by decide) (by decide), State.rd_wr_same]
    have hlt : wIMM x < 2 ^ 23 := Nat.mod_lt _ (by decide)
    rw [Nat.mod_eq_of_lt hlt]
    exact Nat.mod_eq_of_lt (Nat.lt_of_lt_of_le hlt (by decide))
  case starts =>
    intro e x s hq hl himm hoff
    have h := State.quiet_of_atQuietStep hq
    obtain ⟨u, t, hu, hexec, ht⟩ := h.nexts (k := 11) (by decide) (State.noLoopEnds_iff.mp hl).2 (fun u => u.strmStart e)
      fun u hu => ⟨(ctlOf_strm h.op).trans (ctlStrm_starts himm (by
          rw [← hoff]; unfold State.strmOff State.strmRate; rw [hu.rd, hu.rd])),
        by rw [State.strmStart_engine]; exact h.not_single hu,
        by rw [State.strmStart_engine]; exact State.Quiet.pc_loops hl hu⟩
    refine ⟨t, hexec, ?_, ?_, ?_, ?_, ?_, ht.pc⟩
    · rw [ht.rt, State.strmStart_engine]; rfl
    · rw [ht.rt, State.strmStart_engine]; rfl
    · rw [ht.rt, State.strmStart_engine]; rfl
    · rw [ht.fields _ (by decide) (by decide) (by decide)]
      unfold State.strmStart
      exact (State.rd_wr_fld _ _ _ _ _ _ (by decide)).trans ((State.rd_wr_same ..).trans rfl)
    · rw [ht.fields _ (by decide) (by decide) (by decide)]
      unfold State.strmStart
      exact (State.rd_wr_same ..).trans rfl
  case refused =>
    intro e x s hq himm hoff
    have h := State.quiet_of_atQuietStep hq
    exact h.faults (k := 11) (by decide) (by decide) fun u hu => (ctlOf_strm h.op).trans (ctlStrm_refused himm (by
      rw [← hoff]; unfold State.strmOff State.strmRate; rw [hu.rd, hu.rd]))
  case stops =>
    intro e x s hq hl himm
    have h := State.quiet_of_atQuietStep hq
    obtain ⟨u, t, hu, hexec, ht⟩ := h.nexts (k := 11) (by decide) (State.noLoopEnds_iff.mp hl).2 (fun u => u.strmStop e)
      fun u hu => ⟨(ctlOf_strm h.op).trans (ctlStrm_stops himm),
        by rw [State.strmStop_engine]; exact h.not_single hu,
        by rw [State.strmStop_engine]; exact State.Quiet.pc_loops hl hu⟩
    refine ⟨t, hexec, ?_, ?_⟩ <;> (rw [ht.rt, State.strmStop_engine]; rfl)
  case rate =>
    intro e x s hq hl hunits
    have h := State.quiet_of_atQuietStep hq
    obtain ⟨hends, hpc⟩ := State.noLoopEnds_iff.mp hl
    obtain ⟨u, v, hu, hbegin⟩ := State.stepBegin_rate h.word h.legal h.kind h.op hunits
    have hexec := exec_controlRow (k := 12) h.at_
    obtain ⟨hsingle, hstack⟩ := State.rateSet_engine (u := u) (e := e) (w := x)
    have ht := State.stepAct_next (v := v) ((ctlOf_rate h.op).trans ctlRate_eq) h.y (by rw [hsingle]; exact h.not_single hu)
      (by rw [hstack]; exact State.Quiet.pc_loops hl hu) hpc
    rw [hbegin] at hexec
    exact ⟨_, hexec, by rw [ht.fields _ (by decide) (by decide) (by decide), State.rateSet_rd], ht.pc⟩
  case evt =>
    intro e x s hq hl hroom hlost hfull
    have h := State.quiet_of_atQuietStep hq
    have hpush : ∀ u : State, ∀ r, (u.push (engDie e) r).engine e = u.engine e :=
      fun u r => State.engine_of_eng (State.push_eng ..) e
    obtain ⟨u, t, hu, hexec, ht⟩ := h.nexts (k := 13) (by decide) (State.noLoopEnds_iff.mp hl).2
      (fun u => u.push (engDie e) (u.evtReport e (s.rd .ENG_PC_CUR [e]) x))
      fun u hu => ⟨(ctlOf_evt h.op).trans ctlEvt_eq, by rw [hpush]; exact h.not_single hu,
        by rw [hpush]; exact State.Quiet.pc_loops hl hu⟩
    have hsite : u.steward (engDie e) = s.steward (engDie e) := by unfold State.steward; rw [hu.stewards]
    refine ⟨t, hexec, ?_, ht.pc⟩
    rw [show t.steward (engDie e) = _ from congrArg (fun m => smGet m [engDie e] ({} : Steward)) ht.stewards]
    change ((u.push (engDie e) _).steward (engDie e)).queue.length = _
    rw [State.push_queue (by rwa [hsite]) (by rwa [hsite]) (by rwa [hsite]), hsite, List.length_append]
    rfl
  case halt => exact fun e x s hq hl => engHalt_result (State.quiet_of_atQuietStep hq) hl
  case issue => exact fun e s hon hst hlen hout hroom hrate => streamReadIssue_result hon hst hlen hout hroom hrate
  case complete => exact fun e n data status s hn => streamReadComplete_result data status hn
  case fill =>
    exact fun e s hwait hst hfill hoff hon hlen hkind hsrc hbuf =>
      streamFillDone_stalls hwait hst hfill hoff hon hlen hkind hsrc hbuf
  case unstall => exact fun e x s hst hstall hs hx hop hk hy hl => engStepUnstall_result hst hstall hs hx hop hk hy hl
  case call =>
    intro e s hdue h3 h5 hpend hh
    obtain ⟨r, hr, hexec⟩ := exec_engTimerExpiry hdue h3 h5
    rw [hexec, if_neg (by simp [hpend, State.on, hh])]
    refine ex_next ⟨?_, ?_, ?_⟩
    · rw [State.setEngine_engine, if_pos rfl]
    · rw [State.setEngine_engine, if_pos rfl]; exact hr
    · exact State.lapseTo_now ..
  case overrun =>
    intro e s hdue h3 h5 hpend
    obtain ⟨r, hr, hexec⟩ := exec_engTimerExpiry hdue h3 h5
    rw [hexec, if_pos (by simp [hpend])]
    refine ex_next ?_
    rw [State.raise_rd _ _ _ _ _ _ rfl, State.rd_wr_same]
    rfl

/-! PROOFS. The waits of a step, and the operations on the fix points at the hub (R120 to R125, R129, R130, R417). -/

/-! ## A step that waits -/

section
variable {s : State} {e w : Nat}

theorem State.engWait_result (k : WaitK) : (s.engWait e k).estate e = 4 ∧ ((s.engWait e k).engine e).wait = k ∧
    ∀ f, .ENG_STATUS_STATE ≠ f → ∀ i, (s.engWait e k).rd f i = s.rd f i := by
  unfold State.engWait State.estate
  rw [State.wr_engine, State.setEngine_engine, if_pos rfl]
  refine ⟨(State.rd_wr_same ..).trans rfl, rfl, fun f hf i => ?_⟩
  rw [State.rd_wr_fld _ _ _ _ _ _ hf, State.setEngine_rd _ _ _ rfl]

/-- The engine whose legal step has begun. -/
noncomputable def State.begun (s : State) (e w : Nat) : State := s.setEngine e (begunRt (s.engine e) s.now (wOP w == 3 && s.brCond e w))

theorem State.begun_engine : (s.begun e w).engine e = begunRt (s.engine e) s.now (wOP w == 3 && s.brCond e w) :=
  (State.setEngine_engine ..).trans (if_pos rfl)

theorem State.setEngine_localNs (s : State) (e : Nat) (r : EngRt) : (s.setEngine e r).localNs = s.localNs := rfl

theorem State.setEngine_hubDown (s : State) (e : Nat) (r : EngRt) : (s.setEngine e r).hubDown = s.hubDown := rfl

theorem State.begun_localNs : (s.begun e w).localNs = s.localNs := State.setEngine_localNs ..

theorem State.begun_hubDown : (s.begun e w).hubDown = s.hubDown := State.setEngine_hubDown ..

theorem State.begun_trigger : (s.begun e w).trigger e = s.trigger e := by
  unfold State.begun State.trigger
  rw [State.setEngine_rd _ _ _ rfl, State.setEngine_rd _ _ _ rfl, State.setEngine_rd _ _ _ rfl]

theorem State.begun_rd (f : Fld) (i : List Nat) : (s.begun e w).rd f i = s.rd f i := State.setEngine_rd _ _ _ rfl

/-! What the operations that wait do at the beginning of their step (R120). -/

theorem State.stepBegin_wait (hw : s.instrWord e (s.rd .ENG_PC_CUR [e]) = w) (hill : illegalWord w = false)
    (hop : wOP w = 6) : s.stepBegin e =
      if wIMM w = 0 then (s.begun e w).stepFill e w (s.rd .ENG_PC_CUR [e])
      else (s.begun e w).engWait e (.wait ((s.begun e w).now + wIMM w)) := by
  unfold State.stepBegin
  dsimp only
  rw [hw, if_neg (by simp [hill])]
  split
  case h_1 => rfl
  all_goals simp_all

theorem State.stepBegin_drain (hw : s.instrWord e (s.rd .ENG_PC_CUR [e]) = w) (hill : illegalWord w = false)
    (hop : wOP w = 7) : s.stepBegin e =
      if (s.begun e w).drained e (wIMM w % 2 = 1) then (s.begun e w).stepFill e w (s.rd .ENG_PC_CUR [e])
      else (s.begun e w).engWait e (.drain (wIMM w % 2 = 1)) := by
  unfold State.stepBegin
  dsimp only
  rw [hw, if_neg (by simp [hill])]
  split
  case h_2 => rfl
  all_goals simp_all

theorem State.stepBegin_sync (hw : s.instrWord e (s.rd .ENG_PC_CUR [e]) = w) (hill : illegalWord w = false)
    (hop : wOP w = 8) : s.stepBegin e =
      (s.begun e w).syncBegin e w (s.rd .ENG_PC_CUR [e]) := by
  unfold State.stepBegin
  dsimp only
  rw [hw, if_neg (by simp [hill])]
  split
  case h_3 => rfl
  all_goals simp_all

theorem State.stepBegin_waitt (hw : s.instrWord e (s.rd .ENG_PC_CUR [e]) = w) (hill : illegalWord w = false)
    (hop : wOP w = 9) : s.stepBegin e =
      if (s.begun e w).trigger e ≤ (s.begun e w).localNs then
        ((s.begun e w).wr .ENG_STATUS_TLATE [e] 1).stepFill e w (s.rd .ENG_PC_CUR [e])
      else (s.begun e w).engWait e .waitt := by
  unfold State.stepBegin
  dsimp only
  rw [hw, if_neg (by simp [hill])]
  split
  case h_4 => rfl
  all_goals simp_all

theorem State.stepBegin_rise (hw : s.instrWord e (s.rd .ENG_PC_CUR [e]) = w) (hill : illegalWord w = false)
    (hop : wOP w = 12) : s.stepBegin e =
      if ceilDiv (wIMM w % 2 ^ 7) 16 - ceilDiv ((s.begun e w).strmRate e) 16 = 0 then
        (s.begun e w).stepFill e w (s.rd .ENG_PC_CUR [e])
      else ((s.begun e w).engWait e (.rate (ceilDiv (wIMM w % 2 ^ 7) 16 - ceilDiv ((s.begun e w).strmRate e) 16))).request
        (engDie e) 2 (ceilDiv (wIMM w % 2 ^ 7) 16 - ceilDiv ((s.begun e w).strmRate e) 16) [e] [] := by
  unfold State.stepBegin
  dsimp only
  rw [hw, if_neg (by simp [hill])]
  split
  case h_5 => rfl
  all_goals simp_all

/-! ## The end of a wait -/

/-- A wait over: its step, which emits nothing, comes to its control operation. -/
theorem State.engWaitOver_quiet (hw : s.instrWord e (s.rd .ENG_PC_CUR [e]) = w) (hk : wKIND w = 0) :
    ∃ u v, (s.wr .ENG_STATUS_STATE [e] 3).OnlyEng u e (waitedRt (s.engine e)) ∧
      s.engWaitOver e = u.stepAct v e w (s.rd .ENG_PC_CUR [e]) := by
  obtain ⟨u, v, hu, hfill⟩ := State.stepFill_quiet (s := s.wr .ENG_STATUS_STATE [e] 3) (e := e)
    (pc := s.rd .ENG_PC_CUR [e]) hk
  refine ⟨u, v, hu, ?_⟩
  rw [← hfill, ← hw]
  rfl

/-- The control operation that names no row of its own goes on in sequence (R108). -/
theorem ctlOf_waits {u : State} {pc : Nat} (h : wOP w = 6 ∨ wOP w = 7 ∨ wOP w = 8 ∨ wOP w = 9) :
    ctlOf e pc w u = .go (pc + 1) true u := by
  unfold ctlOf
  rcases h with h | h | h | h <;> rw [h] <;> rfl

/-- The wait of a quiet step is over: the step ends, in `STATE` 3 at PC + 1. -/
theorem State.engWaitOver_next (hw : s.instrWord e (s.rd .ENG_PC_CUR [e]) = w) (hk : wKIND w = 0) (hy : wY w = false)
    (hop : wOP w = 6 ∨ wOP w = 7 ∨ wOP w = 8 ∨ wOP w = 9) (hs : (s.engine e).single = false) (hl : s.noLoopEnds e = true) :
    ∃ u, (s.wr .ENG_STATUS_STATE [e] 3).OnlyEng u e (waitedRt (s.engine e)) ∧
      u.Stepped (s.engWaitOver e) e (u.genStep e w) (genRt (u.engine e) w (u.genStep e w)) (s.rd .ENG_PC_CUR [e] + 1) := by
  obtain ⟨hends, hpc⟩ := State.noLoopEnds_iff.mp hl
  obtain ⟨u, v, hu, hover⟩ := State.engWaitOver_quiet hw hk
  refine ⟨u, hu, ?_⟩
  rw [hover]
  exact State.stepAct_next (ctlOf_waits hop) hy (by rw [hu.rt]; exact hs) (by rw [hu.rt]; exact hends) hpc

theorem State.engWaitOver_now (s : State) (e : Nat) : (s.engWaitOver e).now = s.now :=
  State.engWaitOver_keeps (Keeps.part (p := .now) rfl (by decide) s) s e rfl

/-- The same of a state `t` that has the engine, its PC and its window of `s`: the wait of `s` is over in it. -/
theorem State.engWaitOver_done {t : State} (heng : t.engine e = s.engine e)
    (hrd : t.rd .ENG_PC_CUR [e] = s.rd .ENG_PC_CUR [e]) (hwin : t.win = s.win)
    (hw : s.instrWord e (s.rd .ENG_PC_CUR [e]) = w) (hk : wKIND w = 0) (hy : wY w = false)
    (hop : wOP w = 6 ∨ wOP w = 7 ∨ wOP w = 8 ∨ wOP w = 9) (hs : (s.engine e).single = false) (hl : s.noLoopEnds e = true) :
    (t.engWaitOver e).estate e = 3 ∧ (t.engWaitOver e).rd .ENG_PC_CUR [e] = s.rd .ENG_PC_CUR [e] + 1 ∧
      (t.engWaitOver e).now = t.now := by
  have hl' : t.noLoopEnds e = true := by unfold State.noLoopEnds at hl ⊢; rwa [heng, hrd]
  obtain ⟨u, -, ht⟩ := State.engWaitOver_next (s := t) (e := e) (w := w) (by rw [hrd, State.instrWord_of_win hwin, hw]) hk hy hop
    (by rw [heng, hs]) hl'
  exact ⟨ht.state, by rw [ht.pc, hrd], State.engWaitOver_now ..⟩

end

/-! ## The ends of the waits -/

section
variable {e : Fin 96} {s : State}

theorem exec_waitEnd {u : Nat} (hst : s.estate e = 4) (hwait : (s.engine e).wait = .wait u) :
    exec (.waitEnd e) s = .next ((s.lapseTo u).engWaitOver e) := by
  change execWaitEnd e s = _
  unfold execWaitEnd
  rw [hwait]
  exact if_pos hst

theorem exec_waittTrigger (hst : s.estate e = 4) (hwait : (s.engine e).wait = .waitt) :
    exec (.waittTrigger e) s = .next ((s.lapseToLocal (s.trigger e)).engWaitOver e) := by
  change execWaittTrigger e s = _
  unfold execWaittTrigger
  rw [hwait]
  exact if_pos hst

/-- With the output FIFO empty a drain that does not wait for the results is over once the last slot has been sent (R122). -/
theorem exec_drainDone (hst : s.estate e = 4) (hwait : (s.engine e).wait = .drain true) (hout : (s.engine e).out = []) :
    exec (.drainDone e) s = .next ((s.lapseTo (s.engine e).sendEnd).engWaitOver e) := by
  have hend : (s.engine e).sendEnd ≤ (s.lapseTo (s.engine e).sendEnd).now := by rw [State.lapseTo_now]; omega
  have hdrained : (s.lapseTo (s.engine e).sendEnd).drained e true = true := by
    change (((s.engine e).out.all (fun o => o.v.isNone)) &&
      decide ((s.engine e).sendEnd ≤ (s.lapseTo (s.engine e).sendEnd).now) && (true || (s.engine e).cq.isEmpty)) = true
    rw [hout]
    simp [hend]
  change execDrainDone e s = _
  unfold execDrainDone
  rw [hwait]
  dsimp only
  rw [hout]
  simp only [List.all_nil, if_true]
  exact if_pos ⟨hst, hdrained⟩

/-- The grant of a rise of the rate ends its wait (R130). -/
theorem exec_ratePermitGrant {u : Nat} {t : State} (hst : s.estate e = 4) (hwait : (s.engine e).wait = .rate u)
    (ht : s.takeGrant (engDie e) 2 [e.val] = some t) : exec (.ratePermitGrant e) s = .next (t.engWaitOver e) := by
  change execRatePermitGrant e s = _
  unfold execRatePermitGrant
  rw [hwait]
  dsimp only
  rw [if_pos hst, ht]

end

/-- A RATE step whose wait is over sets its rate, whatever loop ends at it. -/
theorem State.engWaitOver_rate {t : State} {e x : Nat} (hw : t.instrWord e (t.rd .ENG_PC_CUR [e]) = x) (hk : wKIND x = 0)
    (hy : wY x = false) (hop : wOP x = 12) (hs : (t.engine e).single = false) (hl : t.noLoopEnds e = true) :
    (t.engWaitOver e).estate e = 3 ∧ (t.engWaitOver e).rd .ENG_STRM_CTL_RATE [e] = wIMM x % 128 := by
  obtain ⟨hends, hpc⟩ := State.noLoopEnds_iff.mp hl
  obtain ⟨u, v, hu, hover⟩ := State.engWaitOver_quiet hw hk
  obtain ⟨hsingle, hstack⟩ := State.rateSet_engine (u := u) (e := e) (w := x)
  have ht := State.stepAct_next (v := v) ((ctlOf_rate hop).trans ctlRate_eq) hy (by rw [hsingle, hu.rt]; exact hs)
    (by rw [hstack, hu.rt]; exact hends) hpc
  rw [hover]
  exact ⟨ht.state, by rw [ht.fields _ (by decide) (by decide) (by decide), State.rateSet_rd]⟩

/-! ## Operations on the fix points -/

section
variable {s : State} {o : FixOp} {q : List FixOp}

/-- The oldest operation alone falls in the slot (R123). -/
theorem exec_fixPointApply_one (hdown : s.hubDown = false) (hq : s.fixq = o :: q) (htied : q.takeWhile (·.tied) = [])
    (hkind : o.kind = 1 ∨ o.kind = 2) :
    exec (.fixPointApply 1) s = .next ((State.lapse { s with fixq := q } 1).fixApply o) := by
  have hordered : [o].filter (·.kind = 0) ++ [o].filter (·.kind = 1) ++ [o].filter (fun o => decide (2 ≤ o.kind)) = [o] := by
    rcases hkind with h | h <;> simp [h]
  change execFixPointApply 1 s = _
  unfold execFixPointApply
  rw [if_neg (by simp [hdown])]
  simp only [hq, List.drop_succ_cons, List.drop_zero, htied, List.length_nil, Nat.add_zero, List.take_succ_cons,
    List.take_zero, hordered, List.foldl_cons, List.foldl_nil]

theorem State.fixApply_set (h : o.kind = 1) : s.fixApply o = (s.wr .FIX_STAT_FLAG [o.f] 1).bcast o false := by
  unfold State.fixApply; rw [h]; rfl

/-- The state after an arrival that reaches the quorum, before its broadcast (R123). -/
noncomputable def State.quorumReached (s : State) (o : FixOp) : State :=
  let s := s.arrCounted (o.eng.getD 0) o.id (s.on .FIX_STAT_GEN [o.f])
  ((s.wr .FIX_STAT_COUNT [o.f] 0).wr .FIX_STAT_GEN [o.f] (s.rd .FIX_STAT_GEN [o.f] + 1)).wr .FIX_STAT_FLAG [o.f] 1

theorem State.arrCounted_only (s : State) (e id : Nat) (g : Bool) : ∃ m, s.arrCounted e id g = { s with eng := m } := ⟨_, rfl⟩

theorem State.fixApply_quorum (h : o.kind = 2) (h0 : s.quorum o.f ≠ 0) (hq : s.quorum o.f = s.rd .FIX_STAT_COUNT [o.f] + 1) :
    s.fixApply o = (s.quorumReached o).bcast o false := by
  unfold State.fixApply State.quorumReached
  rw [h]
  dsimp only
  rw [if_neg h0]
  obtain ⟨m, hm⟩ := s.arrCounted_only (o.eng.getD 0) o.id (s.on .FIX_STAT_GEN [o.f])
  have hc : (s.arrCounted (o.eng.getD 0) o.id (s.on .FIX_STAT_GEN [o.f])).quorum o.f ≤
      (s.arrCounted (o.eng.getD 0) o.id (s.on .FIX_STAT_GEN [o.f])).rd .FIX_STAT_COUNT [o.f] + 1 := by
    rw [hm]; exact hq.le
  rw [if_pos hc]
  rfl

theorem State.quorumReached_fields : (s.quorumReached o).rd .FIX_STAT_FLAG [o.f] = 1 ∧
    (s.quorumReached o).rd .FIX_STAT_COUNT [o.f] = 0 ∧
    (s.quorumReached o).rd .FIX_STAT_GEN [o.f] = (s.rd .FIX_STAT_GEN [o.f] + 1) % 2 ∧
    (s.quorumReached o).bcasts = s.bcasts := by
  unfold State.quorumReached
  obtain ⟨m, hm⟩ := s.arrCounted_only (o.eng.getD 0) o.id (s.on .FIX_STAT_GEN [o.f])
  dsimp only
  rw [hm]
  refine ⟨(State.rd_wr_same ..).trans rfl, ?_, ?_, by simp only [State.wr_bcasts]⟩
  · rw [State.rd_wr_fld _ _ _ _ _ _ (by decide), State.rd_wr_fld _ _ _ _ _ _ (by decide), State.rd_wr_same]
    rfl
  · rw [State.rd_wr_fld _ _ _ _ _ _ (by decide), State.rd_wr_same]
    rfl

theorem State.bcast_bcasts (s : State) (o : FixOp) (b : Bool) : (s.bcast o b).bcasts.length = s.bcasts.length + 1 := by
  simp [State.bcast]

end

/-! ## An engine that sees a broadcast -/

section
variable {s t : State} {e : Nat}

/-- The engine's copies after broadcast `b` (R123). -/
def seenRt (r : EngRt) (b : Bcast) : EngRt :=
  { r with seen := r.seen + 1, flags := putBit r.flags b.f b.flag, gens := putBit r.gens b.f b.gen }

/-- From `s` to `t` run-time data of engine `e` alone have changed. -/
structure State.TouchEng (s t : State) (e : Nat) : Prop where
  rest : ∃ m, t = { s with eng := m }
  others : ∀ e', e' ≠ e → t.engine e' = s.engine e'

theorem State.TouchEng.refl (s : State) (e : Nat) : s.TouchEng s e := ⟨⟨s.eng, rfl⟩, fun _ _ => rfl⟩

theorem State.TouchEng.setEngine (h : s.TouchEng t e) (r : EngRt) : s.TouchEng (t.setEngine e r) e := by
  obtain ⟨⟨m, rfl⟩, hothers⟩ := h
  refine ⟨⟨_, rfl⟩, fun e' he => ?_⟩
  rw [State.setEngine_engine, if_neg (Ne.symm he)]
  exact hothers e' he

theorem State.TouchEng.rd (h : s.TouchEng t e) (f : Fld) (i : List Nat) : t.rd f i = s.rd f i := by
  obtain ⟨⟨m, rfl⟩, -⟩ := h; rfl

/-- What the engine's step, waiting or paused, makes of broadcast number `seen` (R123). -/
noncomputable def State.bcastMet (s : State) (e : Nat) (b : Bcast) : State :=
  s.mapArrival e fun a => { a with done := a.done || a.completes (s.engine e).seen b }

theorem State.seeOne_some {b : Bcast} (h : s.bcasts[(s.engine e).seen]? = some b) : s.seeOne e =
    if (s.bcastMet e b).estate e == 4 && (bcastEnds e ((s.bcastMet e b).engine e).wait b || arrDone ((s.bcastMet e b).engine e).wait) then
      ((s.bcastMet e b).setEngine e (seenRt ((s.bcastMet e b).engine e) b)).engWaitOver e
    else (s.bcastMet e b).setEngine e (seenRt ((s.bcastMet e b).engine e) b) := by
  unfold State.seeOne
  dsimp only
  rw [h]
  rfl

theorem State.bcastMet_touches (b : Bcast) : s.TouchEng (s.bcastMet e b) e := by
  unfold State.bcastMet State.mapArrival
  exact (State.TouchEng.refl s e).setEngine _

/-- An engine that does not wait follows a broadcast with its copies alone. -/
theorem State.seeOne_touches (h4 : s.estate e ≠ 4) : s.TouchEng (s.seeOne e) e := by
  cases hb : s.bcasts[(s.engine e).seen]? with
  | none =>
    have : s.seeOne e = s := by unfold State.seeOne; dsimp only; rw [hb]
    rw [this]
    exact .refl s e
  | some b =>
    have hmet := State.bcastMet_touches (s := s) (e := e) b
    have h4' : ((s.bcastMet e b).estate e == 4) = false := by
      unfold State.estate at h4 ⊢
      rw [hmet.rd]
      exact beq_false_of_ne h4
    rw [State.seeOne_some hb, h4', Bool.false_and, if_neg (by decide)]
    exact hmet.setEngine _

/-- An engine that waits for a flag goes on when a broadcast shows it (R123). -/
theorem State.seeOne_flag {b : Bcast} {f x : Nat} (hb : s.bcasts[(s.engine e).seen]? = some b) (h4 : s.estate e = 4)
    (hwait : (s.engine e).wait = .syncFlag f true) (hf : b.f = f) (hflag : b.flag = true) (hs : (s.engine e).single = false)
    (hw : s.instrWord e (s.rd .ENG_PC_CUR [e]) = x) (hop : wOP x = 8) (hk : wKIND x = 0) (hy : wY x = false)
    (hl : s.noLoopEnds e = true) :
    (s.seeOne e).estate e = 3 ∧ (s.seeOne e).rd .ENG_PC_CUR [e] = s.rd .ENG_PC_CUR [e] + 1 ∧
      ((s.seeOne e).engine e).seen = (s.engine e).seen + 1 ∧
      ((s.seeOne e).engine e).flags = putBit (s.engine e).flags f true := by
  have hmet : ∃ k, s.bcastMet e b = s.setEngine e { s.engine e with kept := k } := by
    refine ⟨(s.engine e).kept.map fun a => { a with done := a.done || a.completes (s.engine e).seen b }, ?_⟩
    unfold State.bcastMet State.mapArrival
    dsimp only
    rw [hwait]
  obtain ⟨k, hk'⟩ := hmet
  have hrt : (s.bcastMet e b).engine e = { s.engine e with kept := k } := by
    rw [hk', State.setEngine_engine, if_pos rfl]
  have htouch := (State.bcastMet_touches (s := s) (e := e) b).setEngine (seenRt ((s.bcastMet e b).engine e) b)
  have hends : ((s.bcastMet e b).estate e == 4 && (bcastEnds e ((s.bcastMet e b).engine e).wait b ||
      arrDone ((s.bcastMet e b).engine e).wait)) = true := by
    have h4' : (s.bcastMet e b).estate e = 4 := ((State.bcastMet_touches b).rd ..).trans h4
    rw [h4', hrt]
    change (true && (bcastEnds e (s.engine e).wait b || arrDone (s.engine e).wait)) = true
    rw [hwait]
    simp [bcastEnds, hf, hflag]
  rw [State.seeOne_some hb, if_pos hends]
  have heng : ((s.bcastMet e b).setEngine e (seenRt ((s.bcastMet e b).engine e) b)).engine e =
      seenRt { s.engine e with kept := k } b := by rw [State.setEngine_engine, if_pos rfl, hrt]
  have hwin : ((s.bcastMet e b).setEngine e (seenRt ((s.bcastMet e b).engine e) b)).win = s.win := by
    obtain ⟨⟨m, hm⟩, -⟩ := htouch; rw [hm]
  have hpc := htouch.rd .ENG_PC_CUR [e]
  generalize (s.bcastMet e b).setEngine e (seenRt ((s.bcastMet e b).engine e) b) = v at heng hwin hpc
  obtain ⟨u, hu, ht⟩ := State.engWaitOver_next (s := v) (e := e) (w := x)
    (by rw [hpc, State.instrWord_of_win hwin, hw]) hk hy (.inr (.inr (.inl hop))) (by rw [heng]; exact hs)
    (by unfold State.noLoopEnds at hl ⊢; rw [heng, hpc]; exact hl)
  refine ⟨ht.state, by rw [ht.pc, hpc], ?_, ?_⟩
  · rw [ht.rt, hu.rt, heng]; rfl
  · rw [ht.rt, hu.rt, heng, ← hf, ← hflag]; rfl

/-! ## The re-base -/

/-- A re-base clears the copies of an engine that does not wait, and touches no other (R417). -/
theorem State.rebaseEngine_clears (before : Nat) (h4 : s.estate e ≠ 4) : s.TouchEng (s.rebaseEngine before e) e ∧
    ((s.rebaseEngine before e).engine e).flags = 0 ∧ ((s.rebaseEngine before e).engine e).gens = 0 := by
  have hsee : s.TouchEng ((List.range (before - (s.engine e).seen)).foldl (fun s _ => s.seeOne e) s) e := by
    refine rel_foldl (R := fun t => s.TouchEng t e) (fun t _ h => ?_) _ (.refl s e)
    have h4' : t.estate e ≠ 4 := by unfold State.estate at h4 ⊢; rwa [h.rd]
    have h' := State.seeOne_touches h4'
    obtain ⟨⟨m, rfl⟩, hothers⟩ := h
    obtain ⟨⟨m', hm'⟩, hothers'⟩ := h'
    exact ⟨⟨m', hm'⟩, fun e' he => (hothers' e' he).trans (hothers e' he)⟩
  unfold State.rebaseEngine
  generalize (List.range (before - (s.engine e).seen)).foldl (fun s _ => s.seeOne e) s = t at hsee
  dsimp only
  have hclear := hsee.setEngine { t.engine e with seen := t.bcasts.length, flags := 0, gens := 0 }
  have hrt : (t.setEngine e { t.engine e with seen := t.bcasts.length, flags := 0, gens := 0 }).engine e =
      { t.engine e with seen := t.bcasts.length, flags := 0, gens := 0 } := (State.setEngine_engine ..).trans (if_pos rfl)
  generalize t.setEngine e { t.engine e with seen := t.bcasts.length, flags := 0, gens := 0 } = v at hclear hrt
  have h4' : v.estate e ≠ 4 := by unfold State.estate at h4 ⊢; rwa [hclear.rd]
  have hzero : (v.engine e).flags = 0 ∧ (v.engine e).gens = 0 := by rw [hrt]; exact ⟨rfl, rfl⟩
  have hset : ∀ k : Option Arrival, s.TouchEng (v.setEngine e { v.engine e with kept := k }) e ∧
      ((v.setEngine e { v.engine e with kept := k }).engine e).flags = 0 ∧
      ((v.setEngine e { v.engine e with kept := k }).engine e).gens = 0 := by
    intro k
    refine ⟨hclear.setEngine _, ?_⟩
    rw [State.setEngine_engine, if_pos rfl]
    exact hzero
  rw [if_neg h4']
  split
  · split
    · exact hset _
    · exact hset _
  · exact ⟨hclear, hzero⟩

/-- The re-base of the engines below `n`, none of which waits. -/
theorem State.rebaseEngines_clear (before n : Nat) (h4 : ∀ e, e < n → s.estate e ≠ 4) :
    (∃ m, (List.range n).foldl (fun s e => s.rebaseEngine before e) s = { s with eng := m }) ∧
      ∀ e, e < n → (((List.range n).foldl (fun s e => s.rebaseEngine before e) s).engine e).flags = 0 ∧
        (((List.range n).foldl (fun s e => s.rebaseEngine before e) s).engine e).gens = 0 := by
  induction n with
  | zero => exact ⟨⟨s.eng, rfl⟩, fun e he => absurd he (Nat.not_lt_zero e)⟩
  | succ n ih =>
    obtain ⟨⟨m, hm⟩, hz⟩ := ih fun e he => h4 e (by omega)
    rw [List.range_succ, List.foldl_append, List.foldl_cons, List.foldl_nil]
    generalize (List.range n).foldl (fun s e => s.rebaseEngine before e) s = t at hm hz
    have hn4 : t.estate n ≠ 4 := by rw [hm]; exact h4 n (by omega)
    obtain ⟨⟨⟨m', hm'⟩, hothers⟩, hzero⟩ := State.rebaseEngine_clears before hn4
    refine ⟨⟨m', by rw [hm', hm]⟩, fun e he => ?_⟩
    by_cases hen : e = n
    · rw [hen]; exact hzero
    · rw [hothers e hen]
      exact hz e (by omega)

theorem State.foldl_bcast_length (l : List Nat) (s : State) :
    (l.foldl (fun s f => s.bcast { f := f, kind := 0, eng := none } true) s).bcasts.length = s.bcasts.length + l.length := by
  induction l generalizing s with
  | nil => rfl
  | cons f l ih => rw [List.foldl_cons, ih, State.bcast_bcasts, List.length_cons]; omega

end

/-- The hub is up again, and broadcasts the cleared state (R417). -/
noncomputable def State.rebaseBegun (s : State) : State := { s with rebaseDue := false, hubDown := false }

noncomputable def State.rebaseSaid (s : State) : State :=
  (List.range 16).foldl (fun s f => s.bcast { f := f, kind := 0, eng := none } true) s

theorem exec_fixRebase {s : State} (h : s.rebaseDue = true) : exec .fixRebase s =
    .next ((List.range 96).foldl (fun t e => t.rebaseEngine s.bcasts.length e) s.rebaseBegun.rebaseSaid) := by
  change execFixRebase s = _
  unfold execFixRebase State.rebaseBegun State.rebaseSaid
  rw [if_pos h]

theorem State.foldl_bcast_rest (l : List Nat) (s : State) :
    (l.foldl (fun s f => s.bcast { f := f, kind := 0, eng := none } true) s).rebaseDue = s.rebaseDue ∧
    (l.foldl (fun s f => s.bcast { f := f, kind := 0, eng := none } true) s).hubDown = s.hubDown ∧
    (l.foldl (fun s f => s.bcast { f := f, kind := 0, eng := none } true) s).regs = s.regs := by
  induction l generalizing s with
  | nil => exact ⟨rfl, rfl, rfl⟩
  | cons f l ih => exact ih (s.bcast { f := f, kind := 0, eng := none } true)

/-- After a re-base the copies of every engine read 0, where none waits (R123, R417). -/
theorem State.rebased_result {s : State} (h4 : ∀ e : Fin 96, s.estate e ≠ 4) {t : State}
    (ht : t = (List.range 96).foldl (fun t e => t.rebaseEngine s.bcasts.length e) s.rebaseBegun.rebaseSaid := by rfl) :
    t.rebaseDue = false ∧ t.hubDown = false ∧ t.bcasts.length = s.bcasts.length + 16 ∧
      ∀ e : Fin 96, (t.engine e).flags = 0 ∧ (t.engine e).gens = 0 := by
  obtain ⟨hdue, hdown, hregs⟩ := State.foldl_bcast_rest (List.range 16) s.rebaseBegun
  have hlen := State.foldl_bcast_length (List.range 16) s.rebaseBegun
  change s.rebaseBegun.rebaseSaid.rebaseDue = _ at hdue
  change s.rebaseBegun.rebaseSaid.hubDown = _ at hdown
  change s.rebaseBegun.rebaseSaid.regs = _ at hregs
  change s.rebaseBegun.rebaseSaid.bcasts.length = _ at hlen
  obtain ⟨⟨m, hm⟩, hzero⟩ := State.rebaseEngines_clear (s := s.rebaseBegun.rebaseSaid) s.bcasts.length 96 fun e he => by
    unfold State.estate
    rw [State.rd_of_regs hregs]
    exact h4 ⟨e, he⟩
  rw [← ht] at hm hzero
  generalize s.rebaseBegun.rebaseSaid = v at hdue hdown hlen hm
  refine ⟨?_, ?_, ?_, fun e => hzero e e.isLt⟩
  · rw [hm]; exact hdue
  · rw [hm]; exact hdown
  · rw [hm]; exact hlen

/-! ## The steps that wait, by operation -/

section
variable {e : Fin 96} {x : Nat} {s : State}

/-- The row of a quiet step begins that step. -/
theorem State.Quiet.exec_row {k : Fin 15} (h : s.Quiet e k x) :
    exec ((controlRows e).getD k (.engNop e)) s = .next (s.stepBegin e) := exec_controlRow h.at_

theorem sync_set (h : s.Quiet e 8 x) (hact : bitsOf (wIMM x) 4 3 = 2) (hdown : s.hubDown = false) :
    ∃ t, exec (.sync_ e) s = .next t ∧ t.estate e = 4 ∧
      t.fixq = s.fixq ++ [{ f := wIMM x % 16, kind := 1, eng := some e.val, id := (s.engine e).opN + 1 }] := by
  have hbegin : s.stepBegin e = (s.begun e x).syncSet e (wIMM x % 16) true := by
    rw [State.stepBegin_sync h.word h.legal h.op]
    unfold State.syncBegin
    dsimp only
    rw [hact]
    rfl
  have hissue : ∀ r id, (((s.begun e x).setEngine e r).fixIssue (wIMM x % 16) 1 e id).fixq =
      s.fixq ++ [{ f := wIMM x % 16, kind := 1, eng := some e.val, id := id }] := by
    intro r id
    unfold State.fixIssue
    rw [State.setEngine_hubDown, State.begun_hubDown, hdown]
    rfl
  refine ⟨_, (h.exec_row (k := 8)).trans (congrArg Host.Outcome.next hbegin), (State.engWait_result _).1, ?_⟩
  unfold State.syncSet
  refine (hissue _ _).trans ?_
  rw [State.begun_engine]
  rfl

theorem sync_arrive (h : s.Quiet e 8 x) (hact : bitsOf (wIMM x) 4 3 = 4) (hdown : s.hubDown = false)
    (hkept : (s.engine e).kept = none) :
    ∃ t, exec (.sync_ e) s = .next t ∧ t.estate e = 4 ∧
      (t.engine e).wait = .syncArr { f := wIMM x % 16, id := (s.engine e).opN + 1, issued := true } ∧
      t.fixq = s.fixq ++ [{ f := wIMM x % 16, kind := 2, eng := some e.val, id := (s.engine e).opN + 1 }] := by
  have hbegin : s.stepBegin e = (s.begun e x).syncArrive e (wIMM x % 16) := by
    rw [State.stepBegin_sync h.word h.legal h.op]
    unfold State.syncBegin
    dsimp only
    rw [hact, show ((s.begun e x).engine e).kept = none by rw [State.begun_engine]; exact hkept]
    rfl
  have hissue : ∀ r id, (((s.begun e x).setEngine e r).fixIssue (wIMM x % 16) 2 e id).fixq =
      s.fixq ++ [{ f := wIMM x % 16, kind := 2, eng := some e.val, id := id }] := by
    intro r id
    unfold State.fixIssue
    rw [State.setEngine_hubDown, State.begun_hubDown, hdown]
    rfl
  refine ⟨_, (h.exec_row (k := 8)).trans (congrArg Host.Outcome.next hbegin), (State.engWait_result _).1, ?_, ?_⟩
  · unfold State.syncArrive
    refine (State.engWait_result _).2.1.trans ?_
    rw [State.begun_engine, State.begun_hubDown, hdown]
    rfl
  · unfold State.syncArrive
    refine (hissue _ _).trans ?_
    rw [State.begun_engine]
    rfl

/-- A rise of the rate asks for the units it wants and waits (R130). -/
theorem rate_rises (h : s.Quiet e 12 x) (hlt : ceilDiv (s.strmRate e) 16 < ceilDiv (wIMM x % 128) 16)
    (hfit : ceilDiv (wIMM x % 128) 16 - ceilDiv (s.strmRate e) 16 ≤ s.rd .PG_CFG_BUDGET [engDie e]) :
    ∃ t, exec (.rate e) s = .next t ∧ t.estate e = 4 ∧
      (t.gov (engDie e)).queue.length = (s.gov (engDie e)).queue.length + 1 := by
  have hrate : (s.begun e x).strmRate e = s.strmRate e := by unfold State.strmRate; rw [State.begun_rd]
  have hbegin : s.stepBegin e = ((s.begun e x).engWait e (.rate (ceilDiv (wIMM x % 128) 16 - ceilDiv (s.strmRate e) 16))).request
      (engDie e) 2 (ceilDiv (wIMM x % 128) 16 - ceilDiv (s.strmRate e) 16) [e] [] := by
    rw [State.stepBegin_rise h.word h.legal h.op, hrate]
    exact if_neg (by change ¬ (ceilDiv (wIMM x % 128) 16 - _ = 0); omega)
  obtain ⟨h4, -, hrd⟩ := State.engWait_result (s := s.begun e x) (e := e)
    (.rate (ceilDiv (wIMM x % 128) 16 - ceilDiv (s.strmRate e) 16))
  refine ⟨_, (h.exec_row (k := 12)).trans (congrArg Host.Outcome.next hbegin), ?_, ?_⟩
  · unfold State.estate at h4 ⊢
    rw [State.request_rd _ _ _ _ _ _ rfl, h4]
  · rw [State.request_queue_length _ _ _ _ _ _ (by rw [hrd _ (by decide), State.begun_rd]; exact hfit)]
    rfl

/-- A WAITT step whose trigger has passed is late (R125). -/
theorem waitt_late (h : s.Quiet e 9 x) (hl : s.noLoopEnds e = true) (hlate : s.trigger e ≤ s.localNs) :
    ∃ t, exec (.waitt e) s = .next t ∧ t.estate e = 3 ∧ t.rd .ENG_STATUS_TLATE [e] = 1 ∧
      t.rd .ENG_PC_CUR [e] = s.rd .ENG_PC_CUR [e] + 1 := by
  obtain ⟨hends, hpc⟩ := State.noLoopEnds_iff.mp hl
  obtain ⟨u, v, hu, hfill⟩ := State.stepFill_quiet (s := (s.begun e x).wr .ENG_STATUS_TLATE [e] 1) (e := e)
    (pc := s.rd .ENG_PC_CUR [e]) h.kind
  rw [State.wr_engine, State.begun_engine] at hu
  have hbegin : s.stepBegin e = u.stepAct v e x (s.rd .ENG_PC_CUR [e]) := by
    rw [State.stepBegin_waitt h.word h.legal h.op, ← hfill]
    refine if_pos ?_
    rw [State.begun_trigger, State.begun_localNs]
    exact hlate
  have ht := State.stepAct_next (v := v) (ctlOf_waits (u := u) (.inr (.inr (.inr h.op)))) h.y (by rw [hu.rt]; exact h.single)
    (by rw [hu.rt]; exact hends) hpc
  refine ⟨_, (h.exec_row (k := 9)).trans (congrArg Host.Outcome.next hbegin), ht.state, ?_, ht.pc⟩
  rw [ht.fields _ (by decide) (by decide) (by decide), hu.rd, State.rd_wr_same]
  rfl

end

/-- A write of FIX_CFG stores the quorum and clears COUNT (R124). -/
theorem exec_fixCfgWrite {w : Writer} {f : Fin 16} {q : BitVec 7} {s : State} (h : s.reaches w .FIX_CFG [f] = true) :
    exec (.fixCfgWrite w f q) s = .next
      (if 96 < q.toNat then ((s.wr .FIX_CFG_QUORUM [f] q.toNat).wr .FIX_STAT_COUNT [f] 0).raise .FIX_CFG [f] 124 2 [f, q.toNat]
      else (s.wr .FIX_CFG_QUORUM [f] q.toNat).wr .FIX_STAT_COUNT [f] 0) := by
  change execFixCfgWrite w f q s = _
  unfold execFixCfgWrite
  rw [State.reach_of h]

/-- Settles O23: the steps that wait and how each wait ends, then the operations at the hub. -/
theorem waitingStepsEndAtTheirCondition : Obligations.WaitingStepsEndAtTheirCondition := by
  unfold Obligations.WaitingStepsEndAtTheirCondition
  refine ⟨?wait, ?waitEnd, ?drain, ?drainDone, ?waitt, ?late, ?trigger, ?rises, ?granted, ?set, ?arrive, ?applySet, ?applyArrival,
    ?seen, ?fixSet, ?fixClr, ?fixCfg, ?rebase⟩
  case wait =>
    intro e x s hq h0
    have h := State.quiet_of_atQuietStep hq
    have hbegin : s.stepBegin e = (s.begun e x).engWait e (.wait ((s.begun e x).now + wIMM x)) := by
      rw [State.stepBegin_wait h.word h.legal h.op]
      exact if_neg h0
    obtain ⟨h4, hwait, hrd⟩ := State.engWait_result (s := s.begun e x) (e := e) (.wait ((s.begun e x).now + wIMM x))
    exact ⟨_, (h.exec_row (k := 6)).trans (congrArg Host.Outcome.next hbegin), h4, hwait, by rw [hrd _ (by decide), State.begun_rd]⟩
  case waitEnd =>
    intro e x u s hst hwait hs hw hop hk hy hl
    obtain ⟨h3, hpc, hnow⟩ := State.engWaitOver_done (s := s) (t := s.lapseTo u) (e := e) rfl rfl rfl hw hk hy (.inl hop) hs hl
    exact ⟨_, exec_waitEnd hst hwait, h3, hpc, by rw [hnow, State.lapseTo_now]⟩
  case drain =>
    intro e x s hq hout hall
    have h := State.quiet_of_atQuietStep hq
    have hnot : (s.begun e x).drained e (wIMM x % 2 = 1) = false := by
      unfold State.drained
      rw [State.begun_engine]
      cases hcons : (s.engine e).out with
      | nil => exact absurd hcons hout
      | cons o r =>
        have ho : o.v.isSome = true := List.all_eq_true.mp hall o (by rw [hcons]; exact List.mem_cons_self)
        have ho' : o.v.isNone = false := by cases hv : o.v <;> simp_all
        simp [begunRt, hcons, ho']
    have hbegin : s.stepBegin e = (s.begun e x).engWait e (.drain (wIMM x % 2 = 1)) := by
      rw [State.stepBegin_drain h.word h.legal h.op]
      exact if_neg (by rw [hnot]; decide)
    obtain ⟨h4, hwait, -⟩ := State.engWait_result (s := s.begun e x) (e := e) (.drain (wIMM x % 2 = 1))
    exact ⟨_, (h.exec_row (k := 7)).trans (congrArg Host.Outcome.next hbegin), h4, hwait⟩
  case drainDone =>
    intro e x s hst hwait hout hs hw hop hk hy hl
    obtain ⟨h3, hpc, hnow⟩ := State.engWaitOver_done (s := s) (t := s.lapseTo (s.engine e).sendEnd) (e := e) rfl rfl rfl hw hk hy
      (.inr (.inl hop)) hs hl
    exact ⟨_, exec_drainDone hst hwait hout, h3, hpc, by rw [hnow, State.lapseTo_now]; exact Nat.le_max_right ..⟩
  case waitt =>
    intro e x s hq hlt
    have h := State.quiet_of_atQuietStep hq
    have hbegin : s.stepBegin e = (s.begun e x).engWait e .waitt := by
      rw [State.stepBegin_waitt h.word h.legal h.op]
      refine if_neg ?_
      rw [State.begun_trigger, State.begun_localNs]
      exact Nat.not_le.mpr hlt
    obtain ⟨h4, hwait, -⟩ := State.engWait_result (s := s.begun e x) (e := e) .waitt
    exact ⟨_, (h.exec_row (k := 9)).trans (congrArg Host.Outcome.next hbegin), h4, hwait⟩
  case late => exact fun e x s hq hl hlate => waitt_late (State.quiet_of_atQuietStep hq) hl hlate
  case trigger =>
    intro e x s hst hwait hs hw hop hk hy hl
    obtain ⟨h3, hpc, -⟩ := State.engWaitOver_done (s := s) (t := s.lapseToLocal (s.trigger e)) (e := e) rfl rfl rfl hw hk hy
      (.inr (.inr (.inr hop))) hs hl
    exact ⟨_, exec_waittTrigger hst hwait, h3, hpc⟩
  case rises => exact fun e x s hq hlt hfit => rate_rises (State.quiet_of_atQuietStep hq) hlt hfit
  case granted =>
    intro e x u s hst hwait hg hs hw hop hk hy hl
    obtain ⟨t, ht⟩ := State.takeGrant_of_grantReady hg
    have heng : t.engine e = s.engine e := State.engine_of_eng (State.takeGrant_part ht (p := .eng) rfl) e
    have hpc : t.rd .ENG_PC_CUR [e] = s.rd .ENG_PC_CUR [e] := State.takeGrant_rd ht rfl _
    refine ⟨_, exec_ratePermitGrant hst hwait ht, State.engWaitOver_rate ?_ hk hy hop (by rw [heng, hs]) ?_⟩
    · rw [hpc, State.instrWord_of_win (State.takeGrant_part ht (p := .win) rfl), hw]
    · unfold State.noLoopEnds at hl ⊢
      rwa [heng, hpc]
  case set => exact fun e x s hq hact hdown => sync_set (State.quiet_of_atQuietStep hq) hact hdown
  case arrive => exact fun e x s hq hact hdown hkept => sync_arrive (State.quiet_of_atQuietStep hq) hact hdown hkept
  case applySet =>
    intro f o q s hdown hq htied hf hkind
    refine ⟨_, exec_fixPointApply_one hdown hq htied (.inl hkind), ?_⟩
    rw [State.fixApply_set hkind, hf]
    refine ⟨?_, rfl, State.bcast_bcasts .., State.lapse_now ..⟩
    rw [State.bcast_rd _ _ _ rfl]
    exact (State.rd_wr_same ..).trans rfl
  case applyArrival =>
    intro f o q s hdown hq htied hf hkind h0 hquorum
    refine ⟨_, exec_fixPointApply_one hdown hq htied (.inr hkind), ?_⟩
    rw [State.fixApply_quorum hkind (by rw [hf]; exact h0) (by rw [hf]; exact hquorum)]
    obtain ⟨hflag, hcount, hgen, hb⟩ := State.quorumReached_fields (s := State.lapse { s with fixq := q } 1) (o := o)
    rw [hf] at hflag hcount hgen
    refine ⟨?_, ?_, ?_, ?_⟩
    · rw [State.bcast_rd _ _ _ rfl, hflag]
    · rw [State.bcast_rd _ _ _ rfl, hcount]
    · rw [State.bcast_rd _ _ _ rfl, hgen]
      rfl
    · rw [State.bcast_bcasts, hb]
      rfl
  case seen =>
    intro e x f b s hb h4 hwait hf hflag hs hw hop hk hy hl
    exact ⟨_, rfl, State.seeOne_flag hb h4 hwait hf hflag hs hw hop hk hy hl⟩
  case fixSet =>
    intro w f s h
    exact ⟨_, congrArg Host.Outcome.next (State.reach_of h ..), rfl, fun _ _ _ => rfl⟩
  case fixClr =>
    intro w f s h
    exact ⟨_, congrArg Host.Outcome.next (State.reach_of h ..), rfl, fun _ _ _ => rfl⟩
  case fixCfg =>
    intro w f q s h
    rw [exec_fixCfgWrite h]
    have hq : ((s.wr .FIX_CFG_QUORUM [f] q.toNat).wr .FIX_STAT_COUNT [f] 0).rd .FIX_CFG_QUORUM [f] = q.toNat := by
      rw [State.rd_wr_fld _ _ _ _ _ _ (by decide), State.rd_wr_same]
      exact Nat.mod_eq_of_lt q.isLt
    have hc : ((s.wr .FIX_CFG_QUORUM [f] q.toNat).wr .FIX_STAT_COUNT [f] 0).rd .FIX_STAT_COUNT [f] = 0 := (State.rd_wr_same ..).trans rfl
    have hsame : SameFields s ((s.wr .FIX_CFG_QUORUM [f] q.toNat).wr .FIX_STAT_COUNT [f] 0)
        [(.FIX_CFG_QUORUM, [f]), (.FIX_STAT_COUNT, [f])] := fun g i hgi => by
      rw [State.rd_wr_ne (List.not_mem_of_not_mem_cons hgi), State.rd_wr_ne hgi]
    split
    · refine ex_next ⟨?_, ?_, fun g i hgi => ?_⟩
      · rw [State.raise_rd _ _ _ _ _ _ rfl, hq]
      · rw [State.raise_rd _ _ _ _ _ _ rfl, hc]
      · rw [State.raise_rd _ _ _ _ _ _ rfl, hsame g i hgi]
    · exact ex_next ⟨hq, hc, hsame⟩
  case rebase =>
    intro s hdue h4
    exact ⟨_, exec_fixRebase hdue, State.rebased_result h4⟩

/-! PROOFS. Slots, lanes and fabric ports, and the resolution of expectations (R140, R141, R145 to R147, R149 to R151). -/

/-! ## Slots -/

section
variable {s : State} {e : Nat}

theorem State.injectDone_eng (s : State) (e : Nat) : (s.injectDone e).eng = s.eng :=
  State.injectDone_keeps (Keeps.part (p := .eng) rfl (by decide) s) s e rfl

theorem State.emit_eng (s : State) (o : Out) : (s.emit o).eng = s.eng :=
  State.emit_keeps (Keeps.part (p := .eng) rfl (by decide) s) s o rfl

/-- The engine sends `bits` in its next slot (R145). -/
noncomputable def State.slotSent (s : State) (e : Nat) (r : EngRt) (n bits out : Nat) : State :=
  ((s.setEngine e { r with slot := n + 1, txBits := bits }).injectDone e).emit (.slot e n out)

theorem State.slotSent_engine (r : EngRt) (n bits out : Nat) :
    (s.slotSent e r n bits out).engine e = { r with slot := n + 1, txBits := bits } := by
  unfold State.slotSent
  rw [State.engine_of_eng (State.emit_eng ..), State.engine_of_eng (State.injectDone_eng ..), State.setEngine_engine, if_pos rfl]

theorem State.slotSent_rd (r : EngRt) (n bits out : Nat) (f : Fld) (i : List Nat) :
    (s.slotSent e r n bits out).rd f i = s.rd f i := by
  unfold State.slotSent
  rw [State.emit_rd _ _ rfl, State.injectDone_rd _ _ rfl, State.setEngine_rd _ _ _ rfl]

/-- An empty output FIFO leaves the slot idle, and it is counted as a gap (R145). -/
theorem State.txSlot_idle (h : (s.engine e).out = []) : s.txSlot e =
    (s.slotSent e (s.engine e) (s.engine e).slot (s.idleBits e) (s.injected e (s.idleBits e))).bump .FC_GAP_CNT_COUNT [e] := by
  unfold State.txSlot
  dsimp only
  split
  · rfl
  · next o r h' => rw [h] at h'; cases h'

/-- The run-time data of an engine once the head of its output FIFO has a slot. -/
noncomputable def headRt (r : EngRt) (o : OutV) (rest : List OutV) : EngRt := { r with
  out := rest
  cq := match o.ix with
    | some ix => r.cq.map (fun x => if x.ix = ix then { x with slot := some r.slot } else x)
    | none => r.cq }

/-- The head of the output FIFO takes the slot (R145). -/
theorem State.txSlot_head {o : OutV} {r : List OutV} (h : (s.engine e).out = o :: r) :
    ∃ x : EngRt, x.out = r ∧ x.launched = (s.engine e).launched ∧ s.txSlot e =
      s.slotSent e x (s.engine e).slot (o.v.getD (s.idleBits e)) (s.injected e (o.v.getD (s.idleBits e))) := by
  unfold State.txSlot
  dsimp only
  split
  · next h' => rw [h] at h'; cases h'
  · next o' r' h' =>
    obtain ⟨rfl, rfl⟩ := List.cons.inj (h.symm.trans h')
    split
    · next v hv =>
      rw [hv]
      exact ⟨{ headRt (s.engine e) o r with sendEnd := s.slotT e ((s.engine e).slot + 1) }, rfl, rfl, rfl⟩
    · next hv =>
      rw [hv]
      exact ⟨headRt (s.engine e) o r, rfl, rfl, rfl⟩

/-- The slot period of an engine that has launched. -/
theorem exec_txSlot {e : Fin 96} (hl : (s.engine e).launched = true) (hc : s.fcCount e ≠ 0) :
    exec (.txSlot e) s = .next ((s.lapseTo (s.slotT e (s.engine e).slot)).txSlot e) := if_pos ⟨hl, hc⟩

theorem State.lapseTo_engine (s : State) (t e : Nat) : (s.lapseTo t).engine e = s.engine e := rfl

theorem State.lapseTo_idleBits (t : Nat) : (s.lapseTo t).idleBits e = s.idleBits e := rfl

/-- Slot period 0 begins with the first vector (R147). -/
theorem straightPathLaunch_result {e : Fin 96} {tv b : Nat} {o : OutV} {r : List OutV} (hfirst : (s.engine e).firstVecT = some tv)
    (hd : s.dest e = 2) (hl : (s.engine e).launched = false) (hout : (s.engine e).out = o :: r) (hc : s.fcCount e ≠ 0)
    (ht : s.rd .FC_CTL_TALIGN [e] = 0) (ho : o.v = some b) :
    ∃ t, exec (.straightPathLaunch e) s = .next t ∧ (t.engine e).launched = true ∧ (t.engine e).slot = 1 ∧
      (t.engine e).out = r ∧ (t.engine e).txBits = b := by
  have heng : ((s.toWord e).wr .FC_GAP_CNT_COUNT [e] 0).engine e = s.engine e := by
    rw [State.wr_engine]
    exact State.engine_of_eng (State.toWord_keeps (Keeps.part (p := .eng) rfl (by decide) s) s e rfl) e
  have hexec : exec (.straightPathLaunch e) s = .next ((((s.toWord e).wr .FC_GAP_CNT_COUNT [e] 0).setEngine e
      { ((s.toWord e).wr .FC_GAP_CNT_COUNT [e] 0).engine e with
        launched := true, launchT := ((s.toWord e).wr .FC_GAP_CNT_COUNT [e] 0).now, slot := 0, txBits := 0 }).txSlot e) := by
    have hoff : s.on .FC_CTL_TALIGN [e] = false := by simp [State.on, ht]
    change execStraightPathLaunch e s = _
    unfold execStraightPathLaunch
    dsimp only
    rw [hfirst]
    dsimp only
    rw [if_pos ⟨hd, hl, by rw [hout]; rfl, hc⟩, hoff, if_neg (by decide)]
  rw [hexec, heng]
  generalize (s.toWord e).wr .FC_GAP_CNT_COUNT [e] 0 = u
  have hrt : ∀ x, (u.setEngine e x).engine e = x := fun x => (State.setEngine_engine ..).trans (if_pos rfl)
  obtain ⟨x, hx, hxl, hslot⟩ := State.txSlot_head (e := e)
    (s := u.setEngine e { s.engine e with launched := true, launchT := u.now, slot := 0, txBits := 0 }) (o := o) (r := r)
    (by rw [hrt]; exact hout)
  rw [hrt] at hslot hxl
  rw [hslot, ho]
  refine ex_next ?_
  rw [State.slotSent_engine]
  exact ⟨hxl, rfl, hx, rfl⟩

/-! ## Expectations -/

/-- A resolution is attached to the expectation of its index alone (R141). -/
theorem State.attach_cq {x : Expn} {r : List Expn} (hcq : (s.engine e).cq = x :: r) (hr : r.all (fun y => y.ix != x.ix) = true)
    (q : Resolution) : ((s.attach e x.ix q).engine e).cq = { x with res := some q } :: r := by
  unfold State.attach
  dsimp only
  rw [State.setEngine_engine, if_pos rfl]
  dsimp only
  rw [hcq, List.map_cons, if_pos rfl]
  congr 1
  conv_rhs => rw [← List.map_id r]
  refine List.map_congr_left fun y hy => if_neg ?_
  simpa using List.all_eq_true.mp hr y hy

theorem exec_rxWordCompare {e : Fin 96} {n : Nat} {data : BitVec 512} {x : Expn} {r : List Expn}
    (hl : (s.engine e).launched = true) (hd : s.rxDelay e ≤ n) (hn : n - s.rxDelay e < (s.engine e).slot)
    (hcq : (s.engine e).cq = x :: r) (hslot : x.slot = some (n - s.rxDelay e)) (hres : x.res = none) :
    exec (.rxWordCompare e n data) s = .next ((s.lapseTo (s.slotT e n)).attach e x.ix
      { r := (s.lapseTo (s.slotT e n)).rxCorrected e data.toNat, rxBad := (s.lapseTo (s.slotT e n)).rxBad e,
        time := (s.lapseTo (s.slotT e n)).localNs }) := by
  change execRxWordCompare e n data s = _
  unfold execRxWordCompare
  dsimp only
  rw [if_pos ⟨hl, hd, hn⟩, hcq, List.find?_cons_of_pos (by simp [hslot, hres])]

theorem State.lapseTo_rxCorrected (t d : Nat) : (s.lapseTo t).rxCorrected e d = s.rxCorrected e d := rfl

theorem exec_rpResponse {e : Fin 96} {data : BitVec 512} {skip : Bool} {x : Expn} {r : List Expn} (hd : s.dest e = 1)
    (hv : s.vpUp e = true) (hroom : (s.engine e).ff.length < 4096) (hcq : (s.engine e).cq = x :: r) (hres : x.res = none) :
    exec (.rpResponse e data skip) s =
      .next (s.attach e x.ix { r := data.toNat, unchecked := skip, time := s.localNs }) := by
  have hholds : s.ffHolds e = false := by simp [State.ffHolds, State.ffFull, Nat.not_le.mpr hroom]
  change execRpResponse e data skip s = _
  unfold execRpResponse
  rw [if_pos ⟨hd, hv, hholds⟩, hcq, List.find?_cons_of_pos (by simp [hres])]

theorem exec_responseTimeout {e : Fin 96} {x : Expn} {r : List Expn} (hd : s.dest e = 1) (ht : s.rd .FC_RSP_TO_TIMEOUT [e] ≠ 0)
    (hcq : (s.engine e).cq = x :: r) (hres : x.res = none) :
    exec (.responseTimeout e) s = .next ((s.lapseTo (x.headT + s.rd .FC_RSP_TO_TIMEOUT [e] * 1000)).attach e x.ix
      { timeout := true, time := (s.lapseTo (x.headT + s.rd .FC_RSP_TO_TIMEOUT [e] * 1000)).localNs }) := by
  change execResponseTimeout e s = _
  unfold execResponseTimeout
  dsimp only
  rw [if_pos ⟨hd, ht⟩, hcq]
  exact if_pos (by rw [hres]; rfl)

theorem exec_vpVectorTaken {e : Fin 96} {o : OutV} {r : List OutV} (hd : s.dest e = 1) (hv : s.vpUp e = true)
    (hout : (s.engine e).out = o :: r) : exec (.vpVectorTaken e) s = .next
      ((s.setEngine e { s.engine e with out := r, vseq := ((s.engine e).vseq + 1) % 2 ^ 32 }).emit
        (.vector e (s.engine e).vseq (o.v.getD 0))) := by
  change execVpVectorTaken e s = _
  unfold execVpVectorTaken
  dsimp only
  rw [if_pos ⟨hd, hv⟩, hout]

theorem exec_expectationResolve_unchecked {e : Fin 96} {x : Expn} {q : Resolution} {r : List Expn}
    (hcq : (s.engine e).cq = x :: r) (hres : x.res = some q) (hq : q.unchecked = true) :
    exec (.expectationResolve e) s = .next ((s.bump .FC_UNCHK_CNT_COUNT [e.val]).popHead e) := by
  change execExpectationResolve e s = _
  unfold execExpectationResolve
  simp only [hcq, hres, hq, if_true]

theorem State.popHead_length {x : Expn} {r : List Expn} (hcq : (s.engine e).cq = x :: r) :
    ((s.popHead e).engine e).cq.length = r.length := by
  unfold State.popHead
  dsimp only
  rw [State.setEngine_engine, if_pos rfl, hcq]
  cases r <;> rfl

/-- A record that finds the FIFO full is dropped and counted (R151). -/
noncomputable def State.recordDropped (s : State) (e : Nat) : State :=
  ((s.setEngine e { s.engine e with dropped := true }).bump .FC_DROP_CNT_COUNT [e]).wr .FC_STATUS_OVF [e] 1

theorem State.recordDropped_engine : (s.recordDropped e).engine e = { s.engine e with dropped := true } :=
  (State.setEngine_engine ..).trans (if_pos rfl)

theorem State.recordDropped_ovf : (s.recordDropped e).rd .FC_STATUS_OVF [e] = 1 := (State.rd_wr_same ..).trans rfl

theorem State.recordDropped_count :
    (s.recordDropped e).rd .FC_DROP_CNT_COUNT [e] = min (s.rd .FC_DROP_CNT_COUNT [e] + 1) 0xFFFFFFFF := by
  refine (State.rd_wr_fld _ _ _ _ _ _ (by decide)).trans ((State.bump_same _ _ _ _).trans ?_)
  rw [State.setEngine_rd _ _ _ rfl]
  rfl

theorem State.failRecord_full (hfull : 4096 ≤ (s.engine e).ff.length) (hdue : (s.engine e).recs < s.rd .FC_REC_MAX_MAX [e])
    (x : Expn) (q : Resolution) (first : Bool) : s.failRecord e x q first = s.recordDropped e :=
  (if_neg (Nat.not_le.mpr hdue)).trans (if_pos (by simp [State.ffFull, hfull]))

theorem State.captureFail_of {x : Expn} {q : Resolution} {first : Bool} {v : State}
    (hv : (s.countFail e x (failBits x q)).failRecord e x q first = v) :
    s.captureFail e x q first = v.setEngine e { v.engine e with anyFail := true } := by
  subst hv
  rfl

/-- A failing expectation whose record finds the FIFO full leaves it as it is. -/
theorem State.captureFail_full (hfull : 4096 ≤ (s.engine e).ff.length) (hdue : (s.engine e).recs < s.rd .FC_REC_MAX_MAX [e])
    (x : Expn) (q : Resolution) (first : Bool) :
    ((s.captureFail e x q first).engine e).ff = (s.engine e).ff ∧
      ((s.captureFail e x q first).engine e).dropped = true ∧
      (s.captureFail e x q first).rd .FC_STATUS_OVF [e] = 1 ∧
      (s.captureFail e x q first).rd .FC_DROP_CNT_COUNT [e] = min (s.rd .FC_DROP_CNT_COUNT [e] + 1) 0xFFFFFFFF := by
  obtain ⟨held, hcount⟩ := s.countFail_engine e x (failBits x q)
  have hrd : ∀ f, hasFld ⟨[.ENG_STATUS_FAIL, .FC_FAIL_CNT_COUNT, .FC_SLICE_FAIL_COUNT, .FC_STATUS_BM_SAT], [], [], false⟩ f = false →
      (s.countFail e x (failBits x q)).rd f [e] = s.rd f [e] := fun f hf => s.countFail_rd e x _ hf
  rw [State.captureFail_of (State.failRecord_full (by rwa [hcount]) (by rwa [hcount, hrd _ rfl]) x q first)]
  have hdropped := State.recordDropped_engine (s := s.countFail e x (failBits x q)) (e := e)
  have hovf := State.recordDropped_ovf (s := s.countFail e x (failBits x q)) (e := e)
  have hn := State.recordDropped_count (s := s.countFail e x (failBits x q)) (e := e)
  generalize (s.countFail e x (failBits x q)).recordDropped e = v at hdropped hovf hn
  rw [State.setEngine_engine, if_pos rfl, State.setEngine_rd _ _ _ rfl, State.setEngine_rd _ _ _ rfl, hdropped, hcount]
  exact ⟨rfl, rfl, hovf, hn.trans (by rw [hrd _ rfl])⟩

theorem State.popHead_dropped : ((s.popHead e).engine e).dropped = (s.engine e).dropped := by
  unfold State.popHead
  dsimp only
  rw [State.setEngine_engine, if_pos rfl]

end

/-- Settles O25: the slots, the receive words and responses, and the resolutions that O24 leaves. -/
theorem vectorsLeaveAndResponsesMeetTheirExpectation : Obligations.VectorsLeaveAndResponsesMeetTheirExpectation := by
  unfold Obligations.VectorsLeaveAndResponsesMeetTheirExpectation
  refine ⟨?idle, ?slot, ?launch, ?rx, ?vector, ?response, ?timeout, ?unchecked, ?overflow⟩
  case idle =>
    intro e s hl hc hout
    rw [exec_txSlot hl hc, State.txSlot_idle (by rw [State.lapseTo_engine, hout])]
    refine ex_next ⟨?_, ?_⟩
    · rw [State.bump_engine, State.slotSent_engine, State.lapseTo_engine]
    · rw [State.bump_same, State.slotSent_rd, State.lapseTo_rd _ _ rfl]
      rfl
  case slot =>
    intro e o r s hl hc hout
    obtain ⟨x, hx, -, hslot⟩ := State.txSlot_head (s := s.lapseTo (s.slotT e (s.engine e).slot)) (e := e) (o := o) (r := r)
      (by rw [State.lapseTo_engine, hout])
    rw [exec_txSlot hl hc, hslot]
    refine ex_next ⟨?_, ?_, ?_, ?_⟩
    · rw [State.slotSent_engine, State.lapseTo_engine]
    · rw [State.slotSent_engine]; exact hx
    · rw [State.slotSent_engine, State.lapseTo_idleBits]
    · rw [State.slotSent_rd, State.lapseTo_rd _ _ rfl]
  case launch =>
    exact fun e tv b o r s hfirst hd hl hout hc ht ho => straightPathLaunch_result hfirst hd hl hout hc ht ho
  case rx =>
    intro e n data x r s hl hd hn hcq hslot hres hr
    rw [exec_rxWordCompare hl hd hn hcq hslot hres]
    refine ex_next ?_
    rw [State.attach_cq (s := s.lapseTo (s.slotT e n)) (by rw [State.lapseTo_engine, hcq]) hr, State.lapseTo_rxCorrected]
    exact ⟨rfl, rfl, rfl⟩
  case vector =>
    intro e o r s hd hv hout
    rw [exec_vpVectorTaken hd hv hout]
    refine ex_next ⟨?_, ?_, fun f i _ => ?_⟩
    · rw [State.engine_of_eng (State.emit_eng ..), State.setEngine_engine, if_pos rfl]
    · rw [State.engine_of_eng (State.emit_eng ..), State.setEngine_engine, if_pos rfl]
    · rw [State.emit_rd _ _ rfl, State.setEngine_rd _ _ _ rfl]
  case response =>
    intro e data skip x r s hd hv hroom hcq hres hr
    rw [exec_rpResponse hd hv hroom hcq hres]
    exact ex_next (State.attach_cq hcq hr _)
  case timeout =>
    intro e x r s hd ht hcq hres hr
    rw [exec_responseTimeout hd ht hcq hres]
    refine ex_next ⟨?_, State.lapseTo_now ..⟩
    rw [State.attach_cq (s := s.lapseTo (x.headT + s.rd .FC_RSP_TO_TIMEOUT [e] * 1000)) (by rw [State.lapseTo_engine, hcq]) hr]
    rfl
  case unchecked =>
    intro e x q r s hcq hres hq
    rw [exec_expectationResolve_unchecked hcq hres hq]
    refine ex_next ⟨State.popHead_length (s := s.bump .FC_UNCHK_CNT_COUNT [e.val]) hcq, ?_, fun f i hf => ?_⟩
    · rw [State.popHead_rd _ _ rfl, State.bump_same]
      rfl
    · rw [State.popHead_rd _ _ rfl]
      unfold State.bump
      rw [State.rd_wr_ne hf]
  case overflow =>
    intro e x q r s hcq hres hq hto hd hfull hdue
    have hheld : s.ffHolds e = false := by simp [State.ffHolds, hd]
    have hfails : failsIt x q = true := (failsIt_iff hq).mpr (.inl hto)
    have hengine := s.compareLanes_engine e x (failBits x q)
    have hmax := s.compareLanes_rd e x (failBits x q) (g := .FC_REC_MAX_MAX) (i := [e]) rfl
    have hdrop := s.compareLanes_rd e x (failBits x q) (g := .FC_DROP_CNT_COUNT) (i := [e]) rfl
    rw [exec_expectationResolve_fails hcq hres hq hheld hfails]
    obtain ⟨hff, hdropped, hovf, hcnt⟩ := State.captureFail_full (s := s.compareLanes e x (failBits x q)) (e := e)
      (by rwa [hengine]) (by rwa [hengine, hmax]) x q (!(s.engine e).anyFail)
    obtain ⟨-, hff'⟩ := ((s.compareLanes e x (failBits x q)).captureFail e x q (!(s.engine e).anyFail)).popHead_engine e
    refine ex_next ⟨?_, ?_, ?_, ?_⟩
    · rw [hff', hff, hengine]
    · rw [State.popHead_rd _ _ rfl, hovf]
    · rw [State.popHead_rd _ _ rfl, hcnt, hdrop]
    · rw [State.popHead_dropped, hdropped]

/-! PROOFS. The fail ring, the lanes of a straight path, the bitmap RAM and the counters (R148, R153 to R156, R159, R539). -/

/-! ## The fail ring -/

section
variable {s : State} {e : Fin 96} {x : FailRec} {r : List FailRec}

/-- A short record is one line (R152). -/
theorem linesOf_short (x : FailRec) : ∃ d, linesOf (recordBytes true x) = [d] := by
  have hlen : (recordBytes true x).length = 64 := by simp [recordBytes, natLe]
  unfold linesOf
  rw [hlen]
  exact ⟨_, rfl⟩

/-- One line to write: its status is that of the write (R153). -/
theorem State.gStoreLines_one {m : Mst} {g d env c : Nat} {u : State} (hw : s.gWrite m g d false env = (c, u)) :
    s.gStoreLines m g env [d] = (c, u) := by
  unfold State.gStoreLines
  rw [hw]
  dsimp only
  by_cases hc : c ≠ 0
  · rw [if_pos hc]
  · rw [if_neg hc, State.gStoreLines, not_not.mp hc]

/-- The write of the head record of a ring that is on, not in error and not full (R153). -/
theorem exec_failRingWrite {env : Fin 4} {d c : Nat} {u : State} (hff : (s.engine e).ff = x :: r) (hlog : s.ringLog2 e ≠ 0)
    (herr : s.rd .FC_STATUS_RING_ERR [e] = 0) (hroom : s.ringLevel e ≠ 2 ^ s.ringLog2 e) (hfmt : s.rd .FC_CTL_FORMAT [e] = 1)
    (hd : linesOf (recordBytes true x) = [d])
    (hw : s.gWrite (engMst e) (s.ringSlot e (s.rd .FC_RING_WR_COUNT [e])) d false env = (c, u)) :
    exec (.failRingWrite e env) s =
      if c ≠ 0 then .next ((u.wr .FC_STATUS_RING_ERR [e.val] 1).raise .FC_CTL [e.val] 153 2 [e.val, c])
      else .next ((u.setEngine e { u.engine e with ff := r }).incr .FC_RING_WR_COUNT [e.val]) := by
  have hon : s.on .FC_CTL_FORMAT [e] = true := by simp [State.on, hfmt]
  have hlines : s.gStoreLines (engMst e) (s.ringSlot e (s.rd .FC_RING_WR_COUNT [e])) env [d] = (c, u) := State.gStoreLines_one hw
  change execFailRingWrite e env s = _
  unfold execFailRingWrite
  dsimp only
  rw [hff]
  dsimp only
  rw [if_neg (by simp [hlog, State.on, herr, hroom]), hon, hd, hlines]

theorem placeOf_host {g : Nat} (hlo : 0x800000000000 ≤ g) (hhi : g < 0x1000000000000) : ∃ p a, placeOf g = .host p a := by
  unfold placeOf
  rw [if_neg (by omega), if_neg (by omega), if_neg (by omega), if_neg (by omega), if_neg (by omega), if_neg (by omega),
    if_neg (by omega), if_neg (by omega), if_neg (by omega)]
  split
  · exact ⟨_, _, rfl⟩
  · exact ⟨_, _, rfl⟩

/-- A line written to an answering host leaves the device (R153). -/
theorem State.gWrite_host {m : Mst} {g d : Nat} {bad : Bool} (hmap : s.mapStatus m g = 0) (hlo : 0x800000000000 ≤ g)
    (hhi : g < 0x1000000000000) : ∃ o, s.gWrite m g d bad 0 = (0, s.emit o) := by
  obtain ⟨p, a, hp⟩ := placeOf_host hlo hhi
  unfold State.gWrite
  simp only [hmap, hp]
  exact ⟨_, rfl⟩

/-- A line that the map refuses is written nowhere (R19). -/
theorem State.gWrite_refused {m : Mst} {g d c env : Nat} {bad : Bool} (hmap : s.mapStatus m g = c) (hc : c ≠ 0) :
    s.gWrite m g d bad env = (c, s.refuse19 m g c) := by
  subst hmap
  exact if_pos hc

end

/-! ## The registers of the ring and of the lanes -/

section
variable {w : Writer} {e : Fin 96} {s : State}

theorem State.drop_sameFields (s : State) (w : Writer) (r : Reg) (i : List Nat) (v : Nat) : SameFields s (s.drop w r i v) [] :=
  fun _ _ _ => State.drop_rd _ _ _ _ _ rfl

theorem exec_fcRingRdWrite {v : BitVec 32} (h : s.reaches w .FC_RING_RD [e] = true) :
    exec (.fcRingRdWrite w e v) s = .next
      (if (v.toNat + 2 ^ 32 - s.rd .FC_RING_RD_COUNT [e]) % 2 ^ 32 ≤ s.ringLevel e then s.wr .FC_RING_RD_COUNT [e] v.toNat
      else s.drop w .FC_RING_RD [e] v.toNat) := by
  change execFcRingRdWrite w e v s = _
  unfold execFcRingRdWrite
  rw [State.reach_of h]

/-- The state in which `FC_LANES` holds `v` and the straight path starts anew with the lanes it then owns. -/
noncomputable def State.lanesTaken (s : State) (e v : Nat) : State :=
  let own := (s.fcLanesStore e v).fcOwned e
  ((s.fcLanesStore e v).setEngine e { s.engine e with launched := false, owned := own }).lanesRealign (s.engine e).owned own

theorem exec_fcLanesWrite {v : BitVec 32} (h : s.reaches w .FC_LANES [e] = true) (hopen : s.fcOpen e = true) :
    exec (.fcLanesWrite w e v) s =
      .next (if s.fcLanesBad e v.toNat then s.drop w .FC_LANES [e] v.toNat else s.lanesTaken e v.toNat) := by
  change execFcLanesWrite w e v s = _
  unfold execFcLanesWrite
  rw [State.reach_of h, hopen, if_neg (by decide)]
  rfl

theorem State.lanesTaken_rd {v : Nat} {f : Fld} (hf : hasFld ⟨[.CL_STAT_REALIGN, .CL_STAT_SLIP_POS], [], [], false⟩ f = false)
    (i : List Nat) : (s.lanesTaken e v).rd f i = (s.fcLanesStore e v).rd f i := by
  unfold State.lanesTaken
  rw [State.lanesRealign_rd _ _ _ hf, State.setEngine_rd _ _ _ rfl]

theorem State.lanesTaken_launched {v : Nat} : ((s.lanesTaken e v).engine e).launched = false := by
  unfold State.lanesTaken
  rw [State.engine_of_eng (State.lanesRealign_keeps (Keeps.part (p := .eng) rfl (by decide) _) _ _ _ rfl),
    State.setEngine_engine, if_pos rfl]

theorem State.fcLanesStore_fields {v : Nat} : (s.fcLanesStore e v).rd .FC_LANES_COUNT [e] = v % 8 ∧
    (s.fcLanesStore e v).rd .FC_LANES_LANE0 [e] = bitsOf v 8 6 ∧ (s.fcLanesStore e v).rd .FC_LANES_LANE1 [e] = bitsOf v 14 6 ∧
    (s.fcLanesStore e v).rd .FC_LANES_LANE2 [e] = bitsOf v 20 6 ∧ (s.fcLanesStore e v).rd .FC_LANES_LANE3 [e] = bitsOf v 26 6 := by
  have hcount : (Fld.spec .FC_LANES_COUNT).width = 3 := rfl
  have h0 : (Fld.spec .FC_LANES_LANE0).width = 6 := rfl
  have h1 : (Fld.spec .FC_LANES_LANE1).width = 6 := rfl
  have h2 : (Fld.spec .FC_LANES_LANE2).width = 6 := rfl
  have h3 : (Fld.spec .FC_LANES_LANE3).width = 6 := rfl
  unfold State.fcLanesStore bitsOf
  refine ⟨?_, ?_, ?_, ?_, ?_⟩ <;>
    simp (disch := decide) only [State.rd_wr_fld, State.rd_wr_same, hcount, h0, h1, h2, h3, Nat.mod_mod, Nat.reducePow]

/-! ## The bitmap RAM and the counters -/

/-- A byte of a memory from which the addresses that `f` does not keep are taken out. -/
theorem memGet_filter (m : List (Nat × Byte)) (f : Nat → Bool) (a : Nat) (d : Byte) :
    memGet (m.filter fun c => f c.1) a d = if f a then memGet m a d else d := by
  induction m with
  | nil => simp [memGet]
  | cons c m ih =>
    obtain ⟨b, v⟩ := c
    by_cases hb : f b = true
    · rw [List.filter_cons_of_pos (by simpa using hb)]
      unfold memGet
      by_cases hba : b = a
      · subst hba; simp [hb]
      · rw [if_neg hba, if_neg hba, ih]
    · rw [List.filter_cons_of_neg (by simpa using hb), ih]
      by_cases hba : b = a
      · subst hba; simp [hb]
      · conv_rhs => unfold memGet
        rw [if_neg hba]

theorem exec_bitmapClear (h : s.reaches w .FC_CTL [e] = true) (hst : s.estate e = 0 ∨ (5 ≤ s.estate e ∧ s.estate e ≤ 8)) :
    exec (.bitmapClear w e) s =
      .next ((s.wr .FC_STATUS_BM_BUSY [e] 1).setEngine e { s.engine e with bmEnd := s.now + 20000 }) := by
  have hw : s.winWritable e = true := by
    change (s.estate e == 0 || (decide (5 ≤ s.estate e) && decide (s.estate e ≤ 8))) = true
    simpa using hst
  change execBitmapClear w e s = _
  unfold execBitmapClear
  rw [State.reach_of h, if_pos hw]

/-- The state in which a clear of the bitmap RAM is over (R156). -/
noncomputable def State.bitmapCleared (s : State) (e : Nat) : State :=
  (({ s with win := s.win.filter (fun c => !(e * 2 ^ 20 + 0x80000 ≤ c.1 && c.1 < e * 2 ^ 20 + 0xC0000)) } : State).wr
    .FC_STATUS_BM_BUSY [e] 0).setEngine e { s.engine e with bmEnd := 0, bmHeld := [] }

theorem exec_bitmapClearDone (hbusy : s.rd .FC_STATUS_BM_BUSY [e] = 1) (hheld : (s.engine e).bmHeld = []) :
    exec (.bitmapClearDone e) s = .next (s.bitmapCleared e) := by
  change execBitmapClearDone e s = _
  unfold execBitmapClearDone
  rw [if_pos (by simp [State.on, hbusy])]
  dsimp only
  rw [hheld]
  rfl

theorem State.bitmapCleared_byte (s : State) (e a : Nat) :
    (s.bitmapCleared e).winByte e a = if 0x80000 ≤ a ∧ a < 0xC0000 then 0 else s.winByte e a := by
  have hwin : (s.bitmapCleared e).win =
    s.win.filter (fun c => !(e * 2 ^ 20 + 0x80000 ≤ c.1 && c.1 < e * 2 ^ 20 + 0xC0000)) := rfl
  unfold State.winByte
  rw [hwin, memGet_filter s.win (fun k => !(e * 2 ^ 20 + 0x80000 ≤ k && k < e * 2 ^ 20 + 0xC0000))]
  by_cases h : 0x80000 ≤ a ∧ a < 0xC0000
  · rw [if_pos h, if_neg (by simp; omega)]
  · rw [if_neg h, if_pos (by simp; omega)]

/-- The counters after they are cleared (R159, R539). -/
theorem State.fcClear_result : (s.fcClear e).rd .FC_FAIL_CNT_COUNT [e] = 0 ∧ (s.fcClear e).rd .FC_UNCHK_CNT_COUNT [e] = 0 ∧
    (s.fcClear e).rd .FC_DROP_CNT_COUNT [e] = 0 ∧ (s.fcClear e).rd .FC_GAP_CNT_COUNT [e] = 0 ∧
    ((s.fcClear e).engine e).cmp = 0 ∧ (s.fcClear e).rd .FC_RUN_RUN [e] = s.rd .FC_RUN_RUN [e] := by
  unfold State.fcClear
  dsimp only
  refine ⟨?_, ?_, ?_, ?_, ?_, ?_⟩
  case refine_5 =>
    rw [State.engine_of_eng (State.foldl_wr_eng ..)]
    simp only [State.wr_engine]
    rw [State.setEngine_engine, if_pos rfl]
  case refine_6 =>
    rw [State.rd_foldl_wr_fld (by decide)]
    simp (disch := decide) only [State.rd_wr_fld]
    exact State.setEngine_rd _ _ _ rfl
  all_goals
    rw [State.rd_foldl_wr_fld (by decide)]
    simp (disch := decide) only [State.rd_wr_fld, State.rd_wr_same]
    rfl

end

/-- Settles O26, clause by clause. -/
theorem failRingAndBitmapKeepTheirRecords : Obligations.FailRingAndBitmapKeepTheirRecords := by
  unfold Obligations.FailRingAndBitmapKeepTheirRecords
  refine ⟨?written, ?refused, ?restart, ?read, ?readBad, ?lanes, ?lanesBad, ?clear, ?cleared, ?counters⟩
  case written =>
    intro e x r s hff hlog herr hroom hfmt hmap hlo hhi
    obtain ⟨d, hd⟩ := linesOf_short x
    obtain ⟨o, ho⟩ := State.gWrite_host (d := d) (bad := false) hmap hlo hhi
    rw [exec_failRingWrite hff hlog herr hroom hfmt hd ho, if_neg (by decide)]
    refine ex_next ⟨?_, ?_, fun f i hf => ?_⟩
    · unfold State.incr
      rw [State.wr_engine, State.setEngine_engine, if_pos rfl]
    · rw [State.incr_same, State.setEngine_rd _ _ _ rfl, State.emit_rd _ _ rfl]
      rfl
    · unfold State.incr
      rw [State.rd_wr_ne hf, State.setEngine_rd _ _ _ rfl, State.emit_rd _ _ rfl]
  case refused =>
    intro e env x r s hff hlog herr hroom hfmt hmap
    obtain ⟨d, hd⟩ := linesOf_short x
    rw [exec_failRingWrite hff hlog herr hroom hfmt hd (State.gWrite_refused hmap (by decide)), if_pos (by decide)]
    refine ex_next ⟨hff, ?_, ?_⟩
    · rw [State.raise_rd _ _ _ _ _ _ rfl, State.rd_wr_same]
      rfl
    · rw [State.raise_rd _ _ _ _ _ _ rfl, State.rd_wr_fld _ _ _ _ _ _ (by decide), State.refuse19_rd _ _ _ _ rfl]
  case restart =>
    intro w e s h
    exact ⟨_, congrArg Host.Outcome.next (State.reach_of h ..), (State.rd_wr_same ..).trans rfl, s.wr_sameFields _ _ _⟩
  case read =>
    intro w e v s h hle
    rw [exec_fcRingRdWrite h, if_pos (show _ ≤ s.ringLevel e from hle)]
    exact ex_next ⟨(State.rd_wr_same ..).trans (Nat.mod_eq_of_lt v.isLt), s.wr_sameFields _ _ _⟩
  case readBad =>
    intro w e v s h hlt
    rw [exec_fcRingRdWrite h, if_neg (Nat.not_le.mpr (show s.ringLevel e < _ from hlt))]
    exact ex_next (s.drop_sameFields w _ _ _)
  case lanes =>
    intro w e v s h hopen hbad
    rw [exec_fcLanesWrite h hopen, hbad, if_neg (by decide)]
    obtain ⟨hcount, h0, h1, h2, h3⟩ := State.fcLanesStore_fields (s := s) (e := e) (v := v.toNat)
    refine ex_next ⟨?_, ?_, ?_, ?_, ?_, State.lanesTaken_launched⟩
    · rw [State.lanesTaken_rd rfl, hcount]
    · rw [State.lanesTaken_rd rfl, h0]
    · rw [State.lanesTaken_rd rfl, h1]
    · rw [State.lanesTaken_rd rfl, h2]
    · rw [State.lanesTaken_rd rfl, h3]
  case lanesBad =>
    intro w e v s h hopen hv
    have hbad : s.fcLanesBad e v.toNat = true := by
      unfold State.fcLanesBad
      rcases hv with hv | hv <;> simp [hv]
    rw [exec_fcLanesWrite h hopen, hbad, if_pos rfl]
    exact ex_next (s.drop_sameFields w _ _ _)
  case clear =>
    intro w e s h hst
    rw [exec_bitmapClear h hst]
    refine ex_next ⟨?_, fun f i hf => ?_⟩
    · rw [State.setEngine_rd _ _ _ rfl, State.rd_wr_same]
      rfl
    · rw [State.setEngine_rd _ _ _ rfl, State.rd_wr_ne hf]
  case cleared =>
    intro e s hbusy hheld
    rw [exec_bitmapClearDone hbusy hheld]
    refine ex_next ⟨?_, State.bitmapCleared_byte s e⟩
    unfold State.bitmapCleared
    rw [State.setEngine_rd _ _ _ rfl, State.rd_wr_same]
    rfl
  case counters =>
    intro w e s h
    exact ⟨_, congrArg Host.Outcome.next (State.reach_of h ..), State.fcClear_result⟩

/-! PROOFS. Trunk lanes (R300, R303, R305 to R309, R315). -/

/-! ## Requests within the budget -/

/-- A request within the budget changes no field (R391). -/
theorem State.request_sameFields {s : State} {g units : Nat} (hfit : units ≤ s.rd .PG_CFG_BUDGET [g]) (op : Nat) (who : List Nat)
    (chain : List (List Nat)) (f : Fld) (i : List Nat) : (s.request g op units who chain).rd f i = s.rd f i :=
  State.rd_of_regs (State.request_regs hfit op who chain) f i

/-! ## Fields outside a list -/

section
variable {s t u : State} {l m n : List (Fld × List Nat)}

theorem SameFields.refl (s : State) (l : List (Fld × List Nat)) : SameFields s s l := fun _ _ _ => rfl

theorem SameFields.mono (h : SameFields s t l) (hl : l ⊆ m) : SameFields s t m := fun f i hf => h f i fun hm => hf (hl hm)

theorem SameFields.trans (h : SameFields s t l) (h' : SameFields t u m) (hl : l ⊆ n) (hm : m ⊆ n) : SameFields s u n :=
  fun f i hf => ((h'.mono hm) f i hf).trans ((h.mono hl) f i hf)

/-- A write of a field of the list keeps those outside. -/
theorem SameFields.wr (h : SameFields s t l) {f : Fld} {i : List Nat} (hm : (f, i) ∈ l) (v : Nat) : SameFields s (t.wr f i v) l :=
  fun g j hg => (State.rd_wr_ne (f := f) (i := i) (g := g) (j := j) (l := l)
    (fun hc => (List.mem_cons.mp hc).elim (fun e => hg (e ▸ hm)) hg)).trans (h g j hg)

theorem SameFields.of_rd (h : SameFields s t l) (hu : ∀ f i, u.rd f i = t.rd f i) : SameFields s u l :=
  fun f i hf => (hu f i).trans (h f i hf)

end

/-! ## Adaptation -/

section
variable {s : State} {k : Nat}

theorem State.askAdapt_result (hfit : 3 ≤ s.rd .PG_CFG_BUDGET [trunkDie k]) : (s.askAdapt k).trState k = 1 ∧
    ((s.askAdapt k).gov (trunkDie k)).queue.length = (s.gov (trunkDie k)).queue.length + 1 ∧
    SameFields s (s.askAdapt k) [(.TR_STAT_STATE, [k])] := by
  have hfit' : 3 ≤ (s.wr .TR_STAT_STATE [k] 1).rd .PG_CFG_BUDGET [trunkDie k] := by
    rwa [State.rd_wr_fld _ _ _ _ _ _ (by decide)]
  unfold State.askAdapt State.trState
  refine ⟨?_, State.request_queue_length _ _ _ _ _ _ hfit', fun f i hf => ?_⟩
  · rw [State.request_sameFields hfit', State.rd_wr_same]
    rfl
  · rw [State.request_sameFields hfit', State.rd_wr_ne hf]

/-- The state of a lane that has had no signal until the instant `t` (R307). -/
noncomputable def State.unsignalled (s : State) (k t : Nat) : State :=
  ((s.lapseTo t).wr .TR_STAT_STATE [k] 4).raise .TR_CTL [k] 307 0 [k]

theorem State.unsignalled_result (t : Nat) : (s.unsignalled k t).trState k = 4 ∧ (s.unsignalled k t).now = max s.now t ∧
    SameFields s (s.unsignalled k t) [(.TR_STAT_STATE, [k])] := by
  unfold State.unsignalled State.trState
  refine ⟨?_, State.lapseTo_now s t, fun f i hf => ?_⟩
  · rw [State.raise_rd _ _ _ _ _ _ rfl, State.rd_wr_same]
    rfl
  · rw [State.raise_rd _ _ _ _ _ _ rfl, State.rd_wr_ne hf]
    rfl

/-- The state of a lane that starts to adapt under its permit (R307). -/
noncomputable def State.adapting (s : State) (k : Nat) : State := (s.wr .TR_STAT_STATE [k] 2).setTrunk k { s.trunkRt k with adaptT := s.now }

theorem State.adapting_result : (s.adapting k).trState k = 2 ∧ ((s.adapting k).trunkRt k).adaptT = s.now ∧
    (s.adapting k).govs = s.govs ∧ SameFields s (s.adapting k) [(.TR_STAT_STATE, [k])] := by
  unfold State.adapting State.trState
  refine ⟨?_, ?_, rfl, fun f i hf => ?_⟩
  · rw [State.setTrunk_rd _ _ _ rfl, State.rd_wr_same]
    rfl
  · rw [State.setTrunk_trunkRt, if_pos rfl]
  · rw [State.setTrunk_rd _ _ _ rfl, State.rd_wr_ne hf]

theorem State.adaptAgain_held (h : s.holds (trunkDie k) 6 [k] = true) :
    s.adaptAgain k = (s.wr .TR_STAT_CHK_LOCK [k] 0).adapting k := if_pos h

theorem State.adaptAgain_unheld (h : s.holds (trunkDie k) 6 [k] = false) :
    s.adaptAgain k = (s.wr .TR_STAT_CHK_LOCK [k] 0).askAdapt k := if_neg (Bool.eq_false_iff.mp h)

/-- A lane that holds its permit adapts again without a request (R303, R307). -/
theorem State.adaptAgain_result (h : s.holds (trunkDie k) 6 [k] = true) : (s.adaptAgain k).trState k = 2 ∧
    ((s.adaptAgain k).trunkRt k).adaptT = s.now ∧ (s.adaptAgain k).govs = s.govs ∧
    SameFields s (s.adaptAgain k) [(.TR_STAT_STATE, [k]), (.TR_STAT_CHK_LOCK, [k])] := by
  rw [State.adaptAgain_held h]
  obtain ⟨hst, ht, hg, hsame⟩ := State.adapting_result (s := s.wr .TR_STAT_CHK_LOCK [k] 0) (k := k)
  refine ⟨hst, ht, hg, (State.wr_sameFields s .TR_STAT_CHK_LOCK [k] 0).trans hsame ?_ ?_⟩ <;> simp

/-- A lane without its permit asks for it (R17, R307). -/
theorem State.adaptAgain_asks (h : s.holds (trunkDie k) 6 [k] = false) (hfit : 3 ≤ s.rd .PG_CFG_BUDGET [trunkDie k]) :
    (s.adaptAgain k).trState k = 1 ∧
    ((s.adaptAgain k).gov (trunkDie k)).queue.length = (s.gov (trunkDie k)).queue.length + 1 ∧
    SameFields s (s.adaptAgain k) [(.TR_STAT_STATE, [k]), (.TR_STAT_CHK_LOCK, [k])] := by
  rw [State.adaptAgain_unheld h]
  obtain ⟨hst, hq, hsame⟩ := State.askAdapt_result (s := s.wr .TR_STAT_CHK_LOCK [k] 0) (k := k)
    (by rwa [State.rd_wr_fld _ _ _ _ _ _ (by decide)])
  refine ⟨hst, hq, (State.wr_sameFields s .TR_STAT_CHK_LOCK [k] 0).trans hsame ?_ ?_⟩ <;> simp

end

/-! ## The commands -/

section
variable {w : Writer} {k : Fin 32} {s : State}

theorem exec_trunkEnable (h : s.reaches w .TR_CTL [k] = true) (hst : s.trState k = 0) :
    exec (.trunkEnable w k) s = .next ((s.wr .TR_CTL_EN [k] 1).askAdapt k) := by
  have hst' : (s.wr .TR_CTL_EN [k] 1).trState k = 0 := by
    unfold State.trState
    rwa [State.rd_wr_fld _ _ _ _ _ _ (by decide)]
  change execTrunkEnable w k s = _
  unfold execTrunkEnable
  rw [State.reach_of h]
  dsimp only
  rw [if_pos hst']

theorem exec_trunkAdapt {t : State} (hst : s.trState k = 1) (ht : s.takeGrant (trunkDie k) 6 [k] = some t) :
    exec (.trunkAdapt k) s = .next ((t.adapting k).trunkGen k) := by
  change execTrunkAdapt k s = _
  unfold execTrunkAdapt
  rw [if_pos hst, ht]
  rfl

theorem exec_trunkReadapt (h : s.reaches w .TR_CTL [k] = true) (hen : s.on .TR_CTL_EN [k] = true) (hst : 2 ≤ s.trState k) :
    exec (.trunkReadapt w k) s = .next (s.adaptAgain k) := by
  change execTrunkReadapt w k s = _
  unfold execTrunkReadapt
  rw [State.reach_of h]
  dsimp only
  rw [if_neg (by simp [hen]; omega), if_neg (by omega)]

theorem exec_trunkPermitTimeout {t : State} (hst : s.trState k = 1) (ht : s.takeTimeout (trunkDie k) 6 [k] = some t) :
    exec (.trunkPermitTimeout k) s = .next ((t.wr .TR_STAT_STATE [k] 0).raise .TR_CTL [k.val] 307 2 [k.val]) := by
  change execTrunkPermitTimeout k s = _
  unfold execTrunkPermitTimeout
  rw [if_pos hst, ht]

theorem exec_lossOfSignal_trunk (hst : s.trState k = 3) :
    exec (.lossOfSignal true (k.castLE (by decide))) s = .next ((s.raise .TR_CTL [k.val] 303 0 [0]).adaptAgain k) := by
  change execLossOfSignal true _ s = _
  exact congrArg Host.Outcome.next (if_pos hst)

theorem exec_trFfeWrite {a b c : BitVec 6} (h : s.reaches w .TR_FFE [k] = true) : exec (.trFfeWrite w k a b c) s = .next
    (if tapAbs a + tapAbs b + tapAbs c ≤ 32 then
      ((s.wr .TR_FFE_PRE2 [k] a.toNat).wr .TR_FFE_PRE1 [k] b.toNat).wr .TR_FFE_POST1 [k] c.toNat
    else s.drop w .TR_FFE [k] (a.toNat + b.toNat * 2 ^ 8 + c.toNat * 2 ^ 16)) :=
  congrArg Host.Outcome.next (State.reach_of h ..)

theorem exec_trunkInjectError (h : s.reaches w .TR_CTL [k] = true) (hst : 2 ≤ s.trState k) :
    exec (.trunkInjectError w k) s = .next (s.setTrunk k { s.trunkRt k with inject := true }) :=
  congrArg Host.Outcome.next ((State.reach_of h ..).trans (if_pos hst))

/-- The fabric takes the oldest capture beats (R309). -/
theorem State.beatTake_result (s : State) (k n : Nat) :
    (s.beatTake k n).trunkRt k = { s.trunkRt k with rx := (s.trunkRt k).rx.drop n } ∧ SameFields s (s.beatTake k n) [] := by
  refine ⟨?_, fun f i _ => State.beatTake_rd _ _ _ rfl⟩
  unfold State.beatTake
  rw [State.setTrunk_trunkRt, if_pos rfl]

/-- A trunk lane's FIFO after a capture beat (R309). -/
def captured (x : LaneRt) (samples : Nat) : LaneRt :=
  { x with rx := x.rx ++ [(samples, x.rxLost, x.capSeq)], rxLost := false, capSeq := (x.capSeq + 1) % 2 ^ 16 }

/-- A trunk lane's FIFO after a capture beat that finds no place (R309). -/
def uncaptured (x : LaneRt) : LaneRt := { x with rxLost := true, capSeq := (x.capSeq + 1) % 2 ^ 16 }

theorem exec_captureBeat {x : BitVec 896} {n : Nat} (hst : s.trState k = 3) (hcap : s.on .TR_CTL_CAP [k] = true)
    (hup : s.trunkPortUp k = true) : exec (.captureBeat k x n) s =
      if ((s.beatTake k n).trunkRt k).rx.length < 64 then
        .next ((s.beatTake k n).setTrunk k (captured ((s.beatTake k n).trunkRt k) x.toNat))
      else .next (((s.beatTake k n).setTrunk k (uncaptured ((s.beatTake k n).trunkRt k))).wr .TR_STAT_CAP_OVF [k.val] 1) :=
  if_pos ⟨hst, hcap, hup⟩

end

/-- Settles O37, clause by clause. -/
theorem trunkLanesAdaptUnderTheirPermitAndCapture : Obligations.TrunkLanesAdaptUnderTheirPermitAndCapture := by
  unfold Obligations.TrunkLanesAdaptUnderTheirPermitAndCapture
  refine ⟨?enable, ?adapt, ?converged, ?noSignal, ?readapt, ?ask, ?timeout, ?loss, ?ffe, ?ffeBad, ?inject, ?beat, ?beatLost⟩
  case enable =>
    intro w k s h hst hfit
    rw [exec_trunkEnable h hst]
    obtain ⟨hst1, hq, hsame⟩ := State.askAdapt_result (s := s.wr .TR_CTL_EN [k] 1) (k := k)
      (by rwa [State.rd_wr_fld _ _ _ _ _ _ (by decide)])
    refine ex_next ⟨hst1, ?_, hq, (State.wr_sameFields s .TR_CTL_EN [k] 1).trans hsame (by simp) (by simp)⟩
    rw [hsame _ _ (by simp), State.rd_wr_same]
    rfl
  case adapt =>
    intro k s hst hready
    obtain ⟨t, ht⟩ := State.takeGrant_of_grantReady hready
    rw [exec_trunkAdapt hst ht]
    obtain ⟨hst2, hadapt, -, -⟩ := State.adapting_result (s := t) (k := k)
    refine ex_next ⟨?_, ?_⟩
    · exact (State.trunkGen_rd _ _ rfl).trans hst2
    · unfold State.trunkGen
      rw [State.setTrunk_trunkRt, if_pos rfl]
      exact hadapt
  case converged =>
    intro k snr s hst
    refine ⟨_, if_pos hst, ?_, ?_, ((SameFields.refl s _).wr (by simp) _).wr (by simp) _⟩
    · unfold State.trState
      rw [State.rd_wr_fld _ _ _ _ _ _ (by decide), State.rd_wr_same]
      rfl
    · rw [State.rd_wr_same]
      exact Nat.mod_eq_of_lt snr.isLt
  case noSignal =>
    intro k s hst
    exact ⟨s.unsignalled k ((s.trunkRt k).adaptT + 50000000), if_pos hst, State.unsignalled_result _⟩
  case readapt =>
    intro w k s h hen hst hheld
    rw [exec_trunkReadapt h hen hst]
    exact ex_next (State.adaptAgain_result hheld)
  case ask =>
    intro w k s h hen hst hheld hfit
    rw [exec_trunkReadapt h hen hst]
    exact ex_next (State.adaptAgain_asks hheld hfit)
  case timeout =>
    intro k s hst hready
    obtain ⟨t, ht⟩ := State.takeTimeout_of_timeoutReady hready
    rw [exec_trunkPermitTimeout hst ht]
    refine ex_next ?_
    unfold State.trState
    rw [State.raise_rd _ _ _ _ _ _ rfl, State.rd_wr_same]
    rfl
  case loss =>
    intro k s hst hheld
    rw [exec_lossOfSignal_trunk hst]
    obtain ⟨hst2, -, hgovs, hsame⟩ := State.adaptAgain_result (s := s.raise .TR_CTL [k.val] 303 0 [0]) (k := k) hheld
    exact ex_next ⟨hst2, hgovs, fun f i hf => (hsame f i hf).trans (State.raise_rd _ _ _ _ _ _ rfl)⟩
  case ffe =>
    intro w k a b c s h hle
    rw [exec_trFfeWrite h, if_pos hle]
    have h2 : (Fld.spec .TR_FFE_PRE2).width = 6 := rfl
    have h1 : (Fld.spec .TR_FFE_PRE1).width = 6 := rfl
    have hp : (Fld.spec .TR_FFE_POST1).width = 6 := rfl
    refine ex_next ⟨?_, ?_, ?_, (((SameFields.refl s _).wr (by simp) _).wr (by simp) _).wr (by simp) _⟩
    · simp (disch := decide) only [State.rd_wr_fld, State.rd_wr_same, h2, Nat.mod_eq_of_lt a.isLt]
    · simp (disch := decide) only [State.rd_wr_fld, State.rd_wr_same, h1, Nat.mod_eq_of_lt b.isLt]
    · simp only [State.rd_wr_same, hp, Nat.mod_eq_of_lt c.isLt]
  case ffeBad =>
    intro w k a b c s h hlt
    rw [exec_trFfeWrite h, if_neg (by omega)]
    exact ex_next (State.drop_sameFields _ _ _ _ _)
  case inject =>
    intro w k s h hst
    rw [exec_trunkInjectError h hst]
    refine ex_next ⟨?_, fun f i _ => State.setTrunk_rd _ _ _ rfl⟩
    rw [State.setTrunk_trunkRt, if_pos rfl]
  case beat =>
    intro k x n s hst hcap hup hroom
    obtain ⟨hrt, hsame⟩ := State.beatTake_result s k n
    rw [exec_captureBeat hst hcap hup, if_pos (by rwa [hrt])]
    refine ex_next ?_
    rw [State.setTrunk_trunkRt, if_pos rfl, hrt]
    exact ⟨rfl, rfl, rfl, fun f i hf => (State.setTrunk_rd _ _ _ rfl).trans (hsame f i hf)⟩
  case beatLost =>
    intro k x n s hst hcap hup hfull
    obtain ⟨hrt, hsame⟩ := State.beatTake_result s k n
    rw [exec_captureBeat hst hcap hup, if_neg (by rw [hrt]; exact Nat.not_lt.mpr hfull)]
    have hwr : ∀ u : State, (u.wr .TR_STAT_CAP_OVF [k] 1).trunkRt k = u.trunkRt k := fun _ => rfl
    refine ex_next ?_
    rw [hwr, State.setTrunk_trunkRt, if_pos rfl, hrt]
    refine ⟨rfl, rfl, rfl, ?_, fun f i hf => ?_⟩
    · rw [State.rd_wr_same]
      rfl
    · rw [State.rd_wr_ne hf, State.setTrunk_rd _ _ _ rfl]
      exact hsame f i List.not_mem_nil

/-! PROOFS. Bundles: bring-up, training and their permits (R287 to R295, R304, R312). -/

/-! ## Folds over lanes -/

/-- A fold whose steps leave a field alone leaves it alone. -/
theorem State.rd_foldl_keep {α : Type} {g : State → α → State} {f : Fld} {i : List Nat} (h : ∀ s x, (g s x).rd f i = s.rd f i)
    (l : List α) (s : State) : (l.foldl g s).rd f i = s.rd f i :=
  rel_foldl (R := fun t => t.rd f i = s.rd f i) (fun t x ht => (h t x).trans ht) l rfl

/-- A fold whose steps leave a part alone leaves it alone. -/
theorem State.foldl_keep {α β : Type} (π : State → β) {g : State → α → State} (h : ∀ s x, π (g s x) = π s) (l : List α) (s : State) :
    π (l.foldl g s) = π s :=
  rel_foldl (R := fun t => π t = π s) (f := g) (fun t x ht => (h t x).trans ht) l rfl

/-- A fold one of whose steps writes a field, and no other step touches it. -/
theorem State.rd_foldl_once {α : Type} {g : State → α → State} {f : Fld} {i : List Nat} {x : α} {v : Nat}
    (hx : ∀ s, (g s x).rd f i = v) (l : List α) (hy : ∀ y ∈ l, y ≠ x → ∀ s, (g s y).rd f i = s.rd f i) (s : State)
    (hmem : x ∈ l ∨ s.rd f i = v) : (l.foldl g s).rd f i = v := by
  induction l generalizing s with
  | nil => exact hmem.resolve_left List.not_mem_nil
  | cons y l ih =>
    refine ih (fun z hz => hy z (List.mem_cons_of_mem _ hz)) _ ?_
    by_cases he : y = x
    · exact Or.inr (he ▸ hx s)
    · rcases hmem with hm | hv
      · exact Or.inl ((List.mem_cons.mp hm).resolve_left (Ne.symm he))
      · exact Or.inr ((hy y List.mem_cons_self he s).trans hv)

theorem mem_bundleLanes {b : Nat} (i : Fin 8) : 8 * b + i.val ∈ bundleLanes b :=
  List.mem_map.mpr ⟨i.val, List.mem_range.mpr i.isLt, rfl⟩

/-- A field that a fold over the lanes of a bundle sets in each of them. -/
theorem State.rd_bundleLanes {g : State → Nat → State} {f : Fld} {v : Nat} (hx : ∀ s l, (g s l).rd f [l] = v)
    (hy : ∀ s l l', l ≠ l' → (g s l).rd f [l'] = s.rd f [l']) (s : State) (b : Nat) (i : Fin 8) :
    ((bundleLanes b).foldl g s).rd f [8 * b + i.val] = v :=
  State.rd_foldl_once (x := 8 * b + i.val) (fun s => hx s _) _ (fun _ _ hne s => hy s _ _ hne) s (Or.inl (mem_bundleLanes i))

theorem State.rd_wr_lane {s : State} {f g : Fld} {l l' v : Nat} (h : l ≠ l') : (s.wr f [l] v).rd g [l'] = s.rd g [l'] :=
  State.rd_wr_ix _ _ _ _ _ _ (by simpa using h)

/-! ## Bring-up -/

section
variable {w : Writer} {b : Fin 28} {s : State}

/-- A lane of a bundle that starts its PLL (R294). -/
noncomputable def State.lossCleared (s : State) (l : Nat) : State := (s.wr .CL_STAT_LOS [l] 0).wr .CL_STAT_LOL [l] 0

/-- The registers of a bundle that starts its PLL (R294). -/
noncomputable def State.pllStarts (s : State) (b : Nat) : State :=
  (((({ s with bundle := smPut s.bundle [b] { t0 := s.now } {} } : State).wr .CL_BND_STAT_STATE [b] 2).wr
    .CL_BND_STAT_PLL_LOCK [b] 0).wr .CL_BND_STAT_GRID [b] 0).wr .CL_BND_STAT_TRN_ERR [b] 0

theorem State.bundleStart_eq (s : State) (b : Nat) :
    s.bundleStart b = (bundleLanes b).foldl (fun s l => s.lossCleared l) (s.pllStarts b) := rfl

theorem State.bundleStart_bundle (s : State) (b : Nat) {f : Fld} (i : List Nat) (hs : Fld.CL_STAT_LOS ≠ f) (hl : Fld.CL_STAT_LOL ≠ f) :
    (s.bundleStart b).rd f i = (s.pllStarts b).rd f i := by
  rw [State.bundleStart_eq]
  refine State.rd_foldl_keep (fun u l => ?_) _ _
  unfold State.lossCleared
  rw [State.rd_wr_fld _ _ _ _ _ _ hl, State.rd_wr_fld _ _ _ _ _ _ hs]

theorem State.bundleStart_t0 (s : State) (b : Nat) : (smGet (s.bundleStart b).bundle [b] {}).t0 = s.now := by
  rw [State.bundleStart_eq, State.foldl_keep State.bundle (g := fun s l => s.lossCleared l) (fun _ _ => rfl)]
  exact congrArg BundleRt.t0 (smGet_smPut_same ..)

theorem State.bundleStart_now (s : State) (b : Nat) : (s.bundleStart b).now = s.now :=
  State.bundleStart_keeps (Keeps.part (p := .now) rfl (by rintro ⟨⟩) s) s b rfl

theorem State.bundleStart_govs (s : State) (b : Nat) : (s.bundleStart b).govs = s.govs :=
  State.bundleStart_keeps (Keeps.part (p := .govs) rfl (by rintro ⟨⟩) s) s b rfl

theorem State.bundleStart_state (s : State) (b : Nat) : (s.bundleStart b).bndState b = 2 := by
  unfold State.bndState
  rw [State.bundleStart_bundle _ _ _ (by decide) (by decide)]
  unfold State.pllStarts
  simp (disch := decide) only [State.rd_wr_fld, State.rd_wr_same]
  rfl

theorem State.bundleStart_lock (s : State) (b : Nat) : (s.bundleStart b).rd .CL_BND_STAT_PLL_LOCK [b] = 0 := by
  rw [State.bundleStart_bundle _ _ _ (by decide) (by decide)]
  unfold State.pllStarts
  simp (disch := decide) only [State.rd_wr_fld, State.rd_wr_same]
  rfl

/-- The bundle asks for its permit (R292). -/
noncomputable def State.bundleAsks (s : State) (b : Nat) : State :=
  ((s.wr .CL_BND_STAT_STATE [b] 1).wr .CL_BND_STAT_TRN_ERR [b] 0).request (bundleDie b) 5 2 [b] []

theorem State.bundleAsks_result {b : Nat} (hfit : 2 ≤ s.rd .PG_CFG_BUDGET [bundleDie b]) : (s.bundleAsks b).bndState b = 1 ∧
    (s.bundleAsks b).rd .CL_BND_STAT_TRN_ERR [b] = 0 ∧
    ((s.bundleAsks b).gov (bundleDie b)).queue.length = (s.gov (bundleDie b)).queue.length + 1 ∧
    SameFields s (s.bundleAsks b) [(.CL_BND_STAT_STATE, [b]), (.CL_BND_STAT_TRN_ERR, [b])] := by
  have hfit' : 2 ≤ ((s.wr .CL_BND_STAT_STATE [b] 1).wr .CL_BND_STAT_TRN_ERR [b] 0).rd .PG_CFG_BUDGET [bundleDie b] := by
    simpa (disch := decide) only [State.rd_wr_fld] using hfit
  unfold State.bundleAsks State.bndState
  refine ⟨?_, ?_, State.request_queue_length _ _ _ _ _ _ hfit', SameFields.of_rd
    (((SameFields.refl s _).wr (by simp) _).wr (by simp) _) (State.request_sameFields hfit' _ _ _)⟩
  · rw [State.request_sameFields hfit', State.rd_wr_fld _ _ _ _ _ _ (by decide), State.rd_wr_same]
    rfl
  · rw [State.request_sameFields hfit', State.rd_wr_same]
    rfl

theorem exec_bundleEnable_off (h : s.reaches w .CL_BND_CTL [b] = true) (hoff : s.on .CL_BND_CTL_EN [b] = false) :
    exec (.bundleEnable w b) s = .next ((s.wr .CL_BND_CTL_EN [b] 1).bundleAsks b) :=
  congrArg Host.Outcome.next ((State.reach_of h ..).trans (if_neg (Bool.eq_false_iff.mp hoff)))

theorem exec_bundleEnable_on (h : s.reaches w .CL_BND_CTL [b] = true) (hon : s.on .CL_BND_CTL_EN [b] = true) :
    exec (.bundleEnable w b) s = .next s :=
  congrArg Host.Outcome.next ((State.reach_of h ..).trans (if_pos hon))

theorem exec_bundleBringup {t : State} (hst : s.bndState b = 1) (ht : s.takeGrant (bundleDie b) 5 [b] = some t) :
    exec (.bundleBringup b) s = .next (t.bundleStart b) := by
  change execBundleBringup b s = _
  unfold execBundleBringup
  rw [if_pos hst, ht]

/-! ## The PLL -/

/-- The state in which a bundle's PLL is locked, at the instant `t` (R294). -/
noncomputable def State.pllLocked (s : State) (b t : Nat) : State :=
  (bundleLanes b).foldl (fun s l => s.setLane l { s.laneRt l with genReg := 0 })
    (((s.lapseTo t).wr .CL_BND_STAT_PLL_LOCK [b] 1).wr .CL_BND_STAT_STATE [b] 3)

theorem State.pllLocked_result (s : State) (b t : Nat) : (s.pllLocked b t).bndState b = 3 ∧
    (s.pllLocked b t).rd .CL_BND_STAT_PLL_LOCK [b] = 1 ∧ (s.pllLocked b t).now = max s.now t := by
  unfold State.pllLocked State.bndState
  refine ⟨?_, ?_, ?_⟩
  · rw [State.rd_foldl_keep (fun _ _ => State.setLane_rd _ _ _ rfl), State.rd_wr_same]
    rfl
  · rw [State.rd_foldl_keep (fun _ _ => State.setLane_rd _ _ _ rfl), State.rd_wr_fld _ _ _ _ _ _ (by decide), State.rd_wr_same]
    rfl
  · exact (State.foldl_keep State.now (g := fun s l => s.setLane l { s.laneRt l with genReg := 0 }) (fun _ _ => rfl) _ _).trans
      (State.lapseTo_now s t)

/-- The state in which a bring-up has failed (R293, R294). -/
def State.bundleFails (s : State) (b err : Nat) : State := (s.wr .CL_BND_STAT_STATE [b] 5).wr .CL_BND_STAT_TRN_ERR [b] err

theorem State.bundleFails_result {err : Nat} (herr : err < 16) (s : State) (b : Nat) : (s.bundleFails b err).bndState b = 5 ∧
    (s.bundleFails b err).rd .CL_BND_STAT_TRN_ERR [b] = err := by
  unfold State.bundleFails State.bndState
  rw [State.rd_wr_fld _ _ _ _ _ _ (by decide), State.rd_wr_same, State.rd_wr_same]
  have hw : (Fld.spec .CL_BND_STAT_TRN_ERR).width = 4 := rfl
  rw [hw]
  exact ⟨rfl, Nat.mod_eq_of_lt herr⟩

theorem exec_bundlePllLockCheck_locked (hst : s.bndState b = 2) : exec (.bundlePllLockCheck b true) s =
    .next (s.pllLocked b ((smGet s.bundle [b.val] {}).t0 + 60000)) := if_pos hst

theorem exec_bundlePllLockCheck_unlocked (hst : s.bndState b = 2) : exec (.bundlePllLockCheck b false) s =
    .next ((s.lapseTo ((smGet s.bundle [b.val] {}).t0 + 50000)).bundleFails b 3) := if_pos hst

end

/-! ## Training (R293) -/

/-- The receivers of lanes that take part in the training and whose block can be read. -/
def rxPresent (rx : List (Option (BitVec 64))) (lanes : Nat) : List Nat :=
  (List.range 8).filter (fun i => lanes.testBit i && (rxIdx rx i).isSome)

/-- The state in which the training has been heard, at the instant `t`. -/
noncomputable def State.heard (s : State) (b : Nat) (p : List Nat) (t : Nat) : State :=
  (s.lapseTo t).wr .CL_BND_STAT_PRESENT [b] (p.foldl (fun a i => a + 2 ^ i) 0)

/-- A lane of a trained bundle starts its data (R289, R300). -/
noncomputable def State.realigned (s : State) (l : Nat) : State :=
  let s := (s.wr .CL_STAT_REALIGN [l] 1).wr .CL_STAT_CHK_LOCK [l] 0
  if s.on .CL_CTL_EN [l] ∧ s.rd .CL_CTL_USE [l] = 2 then s.genStart l else s

/-- The state in which the received inversions of the receivers `p` are taken. -/
noncomputable def State.inverted (s : State) (b : Nat) (rx : List (Option (BitVec 64))) (p : List Nat) : State :=
  p.foldl (fun s i => s.wr .CL_STAT_RXINV [8 * b + (rxIdx rx i).getD 0] (if rxInv rx i then 1 else 0)) s

/-- The state in which a bundle is trained, its order being `rev` (R293, R295). -/
noncomputable def State.trained (s : State) (b : Nat) (rx : List (Option (BitVec 64))) (p : List Nat) (rev : Nat) : State :=
  let s := (s.wr .CL_BND_STAT_REV [b] rev).inverted b rx p
  let s := s.wr .CL_BND_STAT_GRID [b] (if s.on .CL_BND_CTL_SSC [b] = false ∧ s.on .SX_STAT_VALID [] then 1 else 0)
  ((bundleLanes b).foldl (fun s l => s.realigned l) s).wr .CL_BND_STAT_STATE [b] 4

section
variable {b : Fin 28} {rx : List (Option (BitVec 64))} {s : State}

theorem exec_bundleTrainDecision (hst : s.bndState b = 3) : exec (.bundleTrainDecision b rx) s =
    if (rxPresent rx (s.rd .CL_BND_TRN_LANES [b])).isEmpty then
      .next ((s.heard b (rxPresent rx (s.rd .CL_BND_TRN_LANES [b])) ((smGet s.bundle [b.val] {}).t0 + 1050000)).bundleFails b 1)
    else if (rxPresent rx (s.rd .CL_BND_TRN_LANES [b])).all (fun i => rxIdx rx i == some i) ||
        (rxPresent rx (s.rd .CL_BND_TRN_LANES [b])).all (fun i => rxIdx rx i == some (7 - i)) then
      .next ((s.heard b (rxPresent rx (s.rd .CL_BND_TRN_LANES [b])) ((smGet s.bundle [b.val] {}).t0 + 1050000)).trained b rx
        (rxPresent rx (s.rd .CL_BND_TRN_LANES [b]))
        (if (rxPresent rx (s.rd .CL_BND_TRN_LANES [b])).all (fun i => rxIdx rx i == some i) then 0 else 1))
    else
      .next ((s.heard b (rxPresent rx (s.rd .CL_BND_TRN_LANES [b])) ((smGet s.bundle [b.val] {}).t0 + 1050000)).bundleFails b 2) := by
  change execBundleTrainDecision b rx s = _
  unfold execBundleTrainDecision
  rw [if_pos hst]
  dsimp only
  rw [State.lapseTo_rd _ _ rfl]
  rfl

theorem mem_rxPresent {lanes i : Nat} : i ∈ rxPresent rx lanes ↔ i < 8 ∧ lanes.testBit i = true ∧ (rxIdx rx i).isSome = true := by
  simp [rxPresent]

theorem rxPresent_all (h : ∀ i : Fin 8, (rxIdx rx i).isSome = true) : rxPresent rx 255 = List.range 8 := by
  refine List.filter_eq_self.mpr fun i hi => ?_
  have hbit : Nat.testBit 255 i = true := by
    have : ∀ j : Fin 8, Nat.testBit 255 j = true := by decide
    exact this ⟨i, List.mem_range.mp hi⟩
  rw [hbit, h ⟨i, List.mem_range.mp hi⟩]
  rfl

theorem State.realigned_rd (s : State) (l : Nat) {f : Fld} (i : List Nat) (hr : Fld.CL_STAT_REALIGN ≠ f)
    (hc : Fld.CL_STAT_CHK_LOCK ≠ f) : (s.realigned l).rd f i = s.rd f i := by
  have hwr : ((s.wr .CL_STAT_REALIGN [l] 1).wr .CL_STAT_CHK_LOCK [l] 0).rd f i = s.rd f i := by
    rw [State.rd_wr_fld _ _ _ _ _ _ hc, State.rd_wr_fld _ _ _ _ _ _ hr]
  unfold State.realigned
  dsimp only
  split
  · exact hwr
  · exact hwr

theorem State.realigned_realign (s : State) (l l' : Nat) :
    (s.realigned l).rd .CL_STAT_REALIGN [l'] = (s.wr .CL_STAT_REALIGN [l] 1).rd .CL_STAT_REALIGN [l'] := by
  have hwr : ((s.wr .CL_STAT_REALIGN [l] 1).wr .CL_STAT_CHK_LOCK [l] 0).rd .CL_STAT_REALIGN [l'] =
      (s.wr .CL_STAT_REALIGN [l] 1).rd .CL_STAT_REALIGN [l'] := State.rd_wr_fld _ _ _ _ _ _ (by decide)
  unfold State.realigned
  dsimp only
  split
  · exact hwr
  · exact hwr

theorem State.heard_present (s : State) (b t : Nat) : (s.heard b (List.range 8) t).rd .CL_BND_STAT_PRESENT [b] = 255 := by
  unfold State.heard
  rw [State.rd_wr_same]
  rfl

theorem State.trained_rd (s : State) (b : Nat) (rx : List (Option (BitVec 64))) (p : List Nat) (rev : Nat) {f : Fld} {i : List Nat}
    (hst : Fld.CL_BND_STAT_STATE ≠ f) (hr : Fld.CL_STAT_REALIGN ≠ f) (hc : Fld.CL_STAT_CHK_LOCK ≠ f)
    (hg : Fld.CL_BND_STAT_GRID ≠ f) :
    (s.trained b rx p rev).rd f i = ((s.wr .CL_BND_STAT_REV [b] rev).inverted b rx p).rd f i := by
  unfold State.trained
  dsimp only
  rw [State.rd_wr_fld _ _ _ _ _ _ hst, State.rd_foldl_keep (fun s l => s.realigned_rd l i hr hc), State.rd_wr_fld _ _ _ _ _ _ hg]

theorem State.inverted_rd (s : State) (b : Nat) (rx : List (Option (BitVec 64))) (p : List Nat) {f : Fld} {i : List Nat}
    (h : Fld.CL_STAT_RXINV ≠ f) : (s.inverted b rx p).rd f i = s.rd f i :=
  State.rd_foldl_keep (fun _ _ => State.rd_wr_fld _ _ _ _ _ _ h) _ _

theorem State.trained_state (s : State) (b : Nat) (p : List Nat) (rev : Nat) : (s.trained b rx p rev).bndState b = 4 :=
  State.rd_wr_same ..

theorem State.trained_rev (s : State) (b : Nat) (p : List Nat) {rev : Nat} (hrev : rev < 2) :
    (s.trained b rx p rev).rd .CL_BND_STAT_REV [b] = rev := by
  have hw : (Fld.spec .CL_BND_STAT_REV).width = 1 := rfl
  rw [State.trained_rd _ _ _ _ _ (by decide) (by decide) (by decide) (by decide), State.inverted_rd _ _ _ _ (by decide),
    State.rd_wr_same, hw]
  exact Nat.mod_eq_of_lt hrev

theorem State.trained_present (s : State) (b t rev : Nat) :
    ((s.heard b (List.range 8) t).trained b rx (List.range 8) rev).rd .CL_BND_STAT_PRESENT [b] = 255 := by
  rw [State.trained_rd _ _ _ _ _ (by decide) (by decide) (by decide) (by decide), State.inverted_rd _ _ _ _ (by decide),
    State.rd_wr_fld _ _ _ _ _ _ (by decide), State.heard_present]

theorem State.realigned_now (s : State) (l : Nat) : (s.realigned l).now = s.now := by
  unfold State.realigned
  dsimp only
  split
  · rfl
  · rfl

theorem State.inverted_now (s : State) (b : Nat) (p : List Nat) : (s.inverted b rx p).now = s.now :=
  State.foldl_keep State.now (g := fun s i => s.wr .CL_STAT_RXINV [8 * b + (rxIdx rx i).getD 0] (if rxInv rx i then 1 else 0)) (fun _ _ => rfl) p s

theorem State.trained_now (s : State) (b : Nat) (p : List Nat) (rev : Nat) : (s.trained b rx p rev).now = s.now := by
  have hwr : ∀ (u : State) (f : Fld) (i : List Nat) (v : Nat), (u.wr f i v).now = u.now := fun _ _ _ _ => rfl
  unfold State.trained
  dsimp only
  rw [hwr, State.foldl_keep State.now (fun u l => u.realigned_now l), hwr, State.inverted_now, hwr]

theorem State.trained_realign (s : State) (b : Nat) (p : List Nat) (rev : Nat) (i : Fin 8) :
    (s.trained b rx p rev).rd .CL_STAT_REALIGN [8 * b + i.val] = 1 := by
  unfold State.trained
  dsimp only
  rw [State.rd_wr_fld _ _ _ _ _ _ (by decide)]
  refine State.rd_bundleLanes (fun u l => ?_) (fun u l l' hne => ?_) _ _ _
  · rw [State.realigned_realign, State.rd_wr_same]
    rfl
  · rw [State.realigned_realign, State.rd_wr_lane hne]

/-- The received inversions land in the lanes that the receivers read, where `σ` says which. -/
theorem State.trained_rxinv (s : State) (b : Nat) {σ : Fin 8 → Fin 8} (hσ : Function.Injective σ)
    (hrx : ∀ i : Fin 8, rxIdx rx i = some (σ i).val) (rev : Nat) (i : Fin 8) :
    (s.trained b rx (List.range 8) rev).rd .CL_STAT_RXINV [8 * b + (σ i).val] = (if rxInv rx i then 1 else 0) := by
  rw [State.trained_rd _ _ _ _ _ (by decide) (by decide) (by decide) (by decide)]
  unfold State.inverted
  refine State.rd_foldl_once (x := i.val) (fun u => ?_) _ (fun j hj hne u => ?_) _ (Or.inl (List.mem_range.mpr i.isLt))
  · rw [hrx i, Option.getD_some, State.rd_wr_same]
    split
    · rfl
    · rfl
  · have hσj := hrx ⟨j, List.mem_range.mp hj⟩
    rw [hσj, Option.getD_some]
    refine State.rd_wr_lane fun he => hne ?_
    have hval : σ ⟨j, List.mem_range.mp hj⟩ = σ i := Fin.ext (Nat.add_left_cancel he)
    exact congrArg Fin.val (hσ hval)

end

/-! ## Retraining, and off again -/

section
variable {w : Writer} {b : Fin 28} {s : State}

theorem exec_bundleRetrain (h : s.reaches w .CL_BND_CTL [b] = true) (hst : s.bndState b = 4)
    (hidle : (bundleLanes b).any s.laneBusy = false) : exec (.bundleRetrain w b) s = .next (s.bundleAgain b) :=
  congrArg Host.Outcome.next ((State.reach_of h ..).trans (if_pos ⟨hidle, Or.inl hst⟩))

theorem exec_bundleRetrain_busy (h : s.reaches w .CL_BND_CTL [b] = true) (hbusy : (bundleLanes b).any s.laneBusy = true) :
    ∃ v, exec (.bundleRetrain w b) s = .next (s.drop w .CL_BND_CTL [b] v) :=
  ⟨_, congrArg Host.Outcome.next ((State.reach_of h ..).trans (if_neg (by rw [hbusy]; simp)))⟩

theorem exec_bundleDisable (h : s.reaches w .CL_BND_CTL [b] = true) (hidle : (bundleLanes b).any s.laneBusy = false) :
    exec (.bundleDisable w b) s = .next (s.bundleOff b) :=
  congrArg Host.Outcome.next ((State.reach_of h ..).trans (if_neg (Bool.eq_false_iff.mp hidle)))

theorem exec_bundleDisable_busy (h : s.reaches w .CL_BND_CTL [b] = true) (hbusy : (bundleLanes b).any s.laneBusy = true) :
    ∃ v, exec (.bundleDisable w b) s = .next (s.drop w .CL_BND_CTL [b] v) :=
  ⟨_, congrArg Host.Outcome.next ((State.reach_of h ..).trans (if_pos hbusy))⟩

theorem exec_bundlePermitTimeout {t : State} (hst : s.bndState b = 1) (ht : s.takeTimeout (bundleDie b) 5 [b] = some t) :
    exec (.bundlePermitTimeout b) s = .next (t.bundleFails b 4) := by
  change execBundlePermitTimeout b s = _
  unfold execBundlePermitTimeout
  rw [if_pos hst, ht]
  rfl

/-- A permit that is given back is not held (R394). -/
theorem State.giveBack_held (s : State) (g op : Nat) (who : List Nat) : ((s.giveBack g op who).gov g).held.any (·.is op who) = false := by
  unfold State.giveBack
  dsimp only
  rw [State.setGov_gov, if_pos rfl]
  simp only [List.any_filter, List.any_eq_false]
  intro p _
  cases p.is op who <;> simp

/-- A lane of a bundle that goes off (R312). -/
noncomputable def State.laneOff (s : State) (l : Nat) : State :=
  ((s.wr .CL_STAT_LOS [l] 0).wr .CL_STAT_LOL [l] 0).wr .CL_STAT_CHK_LOCK [l] 0 |>.setLane l { s.laneRt l with genOn := false }

theorem State.laneOff_rd (s : State) (l : Nat) (f : Fld) (i : List Nat) : (s.laneOff l).rd f i =
    (((s.wr .CL_STAT_LOS [l] 0).wr .CL_STAT_LOL [l] 0).wr .CL_STAT_CHK_LOCK [l] 0).rd f i := State.setLane_rd _ _ _ rfl

/-- The registers of a bundle that goes off, before its lanes stop (R312). -/
noncomputable def State.bundleStops (s : State) (b : Nat) : State :=
  ((((s.giveBack (bundleDie b) 5 [b]).wr .CL_BND_CTL_EN [b] 0).wr .CL_BND_STAT_STATE [b] 0).wr .CL_BND_STAT_PLL_LOCK [b] 0).wr
    .CL_BND_STAT_GRID [b] 0

theorem State.bundleOff_eq (s : State) (b : Nat) :
    s.bundleOff b = (bundleLanes b).foldl (fun s l => s.laneOff l) (s.bundleStops b) := rfl

theorem State.bundleOff_bundle (s : State) (b : Nat) {f : Fld} (i : List Nat) (hs : Fld.CL_STAT_LOS ≠ f) (hl : Fld.CL_STAT_LOL ≠ f)
    (hc : Fld.CL_STAT_CHK_LOCK ≠ f) : (s.bundleOff b).rd f i = (s.bundleStops b).rd f i := by
  rw [State.bundleOff_eq]
  exact State.rd_foldl_keep (fun u l => by
    rw [State.laneOff_rd, State.rd_wr_fld _ _ _ _ _ _ hc, State.rd_wr_fld _ _ _ _ _ _ hl, State.rd_wr_fld _ _ _ _ _ _ hs]) _ _

theorem State.bundleStops_fields (s : State) (b : Nat) : (s.bundleStops b).rd .CL_BND_STAT_STATE [b] = 0 ∧
    (s.bundleStops b).rd .CL_BND_CTL_EN [b] = 0 ∧ (s.bundleStops b).rd .CL_BND_STAT_PLL_LOCK [b] = 0 := by
  unfold State.bundleStops
  simp (disch := decide) only [State.rd_wr_fld, State.rd_wr_same]
  exact ⟨rfl, rfl, rfl⟩

theorem State.bundleOff_held (s : State) (b : Nat) : ((s.bundleOff b).gov (bundleDie b)).held.any (·.is 5 [b]) = false := by
  have hgovs : (s.bundleOff b).govs = (s.giveBack (bundleDie b) 5 [b]).govs := by
    rw [State.bundleOff_eq, State.foldl_keep State.govs (g := fun s l => s.laneOff l) (fun _ _ => rfl)]
    rfl
  unfold State.gov
  rw [hgovs]
  exact s.giveBack_held _ _ _

theorem State.bundleOff_losses (s : State) (b : Nat) (i : Fin 8) :
    (s.bundleOff b).rd .CL_STAT_LOS [8 * b + i.val] = 0 ∧ (s.bundleOff b).rd .CL_STAT_LOL [8 * b + i.val] = 0 := by
  rw [State.bundleOff_eq]
  constructor
  all_goals
    refine State.rd_bundleLanes (fun u l => ?_) (fun u l l' hne => ?_) _ _ _
    · rw [State.laneOff_rd]
      simp (disch := decide) only [State.rd_wr_fld, State.rd_wr_same]
      rfl
    · rw [State.laneOff_rd, State.rd_wr_lane hne, State.rd_wr_lane hne, State.rd_wr_lane hne]

end

/-- Settles O35, clause by clause. -/
theorem bundlesComeUpUnderTheirPermit : Obligations.BundlesComeUpUnderTheirPermit := by
  unfold Obligations.BundlesComeUpUnderTheirPermit
  refine ⟨?enable, ?enabled, ?grant, ?locked, ?unlocked, ?straight, ?back, ?none, ?mixed, ?retrain, ?retrainAsks, ?retrainBusy,
    ?disable, ?disableBusy, ?timeout⟩
  case enable =>
    intro w b s h hoff hfit
    rw [exec_bundleEnable_off h hoff]
    obtain ⟨hst, herr, hq, hsame⟩ := State.bundleAsks_result (s := s.wr .CL_BND_CTL_EN [b] 1) (b := b)
      (by rwa [State.rd_wr_fld _ _ _ _ _ _ (by decide)])
    refine ex_next ⟨hst, ?_, herr, hq, (State.wr_sameFields s .CL_BND_CTL_EN [b] 1).trans hsame (by simp) (by simp)⟩
    rw [hsame _ _ (by simp), State.rd_wr_same]
    rfl
  case enabled =>
    intro w b s h hon
    exact ⟨s, exec_bundleEnable_on h hon, SameFields.refl _ _⟩
  case grant =>
    intro b s hst hready
    obtain ⟨t, ht⟩ := State.takeGrant_of_grantReady hready
    exact ⟨_, exec_bundleBringup hst ht, t.bundleStart_state b, t.bundleStart_lock b,
      (t.bundleStart_t0 b).trans (t.bundleStart_now b).symm⟩
  case locked =>
    intro b s hst
    exact ⟨_, exec_bundlePllLockCheck_locked hst, State.pllLocked_result ..⟩
  case unlocked =>
    intro b s hst
    obtain ⟨h5, herr⟩ := State.bundleFails_result (err := 3) (by decide) (s.lapseTo ((smGet s.bundle [b.val] {}).t0 + 50000)) b
    exact ⟨_, exec_bundlePllLockCheck_unlocked hst, h5, herr, State.lapseTo_now _ _⟩
  case straight =>
    intro b rx s hst hlanes hrx
    have hpres : rxPresent rx 255 = List.range 8 := rxPresent_all fun i => by rw [hrx i]; rfl
    have hall : (List.range 8).all (fun i => rxIdx rx i == some i) = true :=
      List.all_eq_true.mpr fun i hi => by simp [hrx ⟨i, List.mem_range.mp hi⟩]
    rw [exec_bundleTrainDecision hst, hlanes, hpres, if_neg (by decide), hall, Bool.true_or, if_pos rfl, if_pos rfl]
    exact ex_next ⟨State.trained_state .., State.trained_rev _ _ _ (by decide), State.trained_present ..,
      (State.trained_now ..).trans (State.lapseTo_now _ _), State.trained_rxinv _ _ (σ := id) Function.injective_id hrx _,
      State.trained_realign _ _ _ _⟩
  case back =>
    intro b rx s hst hlanes hrx
    have hpres : rxPresent rx 255 = List.range 8 := rxPresent_all fun i => by rw [hrx i]; rfl
    have hall : (List.range 8).all (fun i => rxIdx rx i == some (7 - i)) = true :=
      List.all_eq_true.mpr fun i hi => by simp [hrx ⟨i, List.mem_range.mp hi⟩]
    have hnot : (List.range 8).all (fun i => rxIdx rx i == some i) = false :=
      List.all_eq_false.mpr ⟨0, by decide, by rw [show rxIdx rx 0 = some 7 from hrx 0]; decide⟩
    rw [exec_bundleTrainDecision hst, hlanes, hpres, if_neg (by decide), hall, Bool.or_true, if_pos rfl, hnot, if_neg (by decide)]
    have hrev : ∀ i : Fin 8, i.rev.val = 7 - i.val := fun i => by rw [Fin.val_rev]; omega
    refine ex_next ⟨State.trained_state .., State.trained_rev _ _ _ (by decide), State.trained_present .., fun i => ?_⟩
    have hinv := State.trained_rxinv (s.heard b (List.range 8) ((smGet s.bundle [b.val] {}).t0 + 1050000)) b Fin.rev_injective
      (fun i => (hrx i).trans (congrArg some (hrev i).symm)) 1 i
    rwa [hrev i] at hinv
  case none =>
    intro b rx s hst hrx
    have hpres : rxPresent rx (s.rd .CL_BND_TRN_LANES [b]) = [] := by
      refine List.filter_eq_nil_iff.mpr fun i hi => ?_
      simp [hrx ⟨i, List.mem_range.mp hi⟩]
    rw [exec_bundleTrainDecision hst, hpres, List.isEmpty_nil, if_pos rfl]
    obtain ⟨h5, herr⟩ := State.bundleFails_result (err := 1) (by decide)
      (s.heard b [] ((smGet s.bundle [b.val] {}).t0 + 1050000)) b
    refine ex_next ⟨h5, herr, ?_⟩
    unfold State.bundleFails State.heard
    simp (disch := decide) only [State.rd_wr_fld, State.rd_wr_same]
    rfl
  case mixed =>
    intro b rx i j s hst hbit hrx hne hsum
    have hmem : i.val ∈ rxPresent rx (s.rd .CL_BND_TRN_LANES [b]) := mem_rxPresent.mpr ⟨i.isLt, hbit, by rw [hrx]; rfl⟩
    have hstraight : (rxPresent rx (s.rd .CL_BND_TRN_LANES [b])).all (fun i => rxIdx rx i == some i) = false :=
      List.all_eq_false.mpr ⟨i, hmem, by simpa [hrx, Fin.ext_iff] using hne⟩
    have hback : (rxPresent rx (s.rd .CL_BND_TRN_LANES [b])).all (fun i => rxIdx rx i == some (7 - i)) = false :=
      List.all_eq_false.mpr ⟨i, hmem, by simp [hrx]; omega⟩
    have hsome : (rxPresent rx (s.rd .CL_BND_TRN_LANES [b])).isEmpty = false := by
      cases hp : rxPresent rx (s.rd .CL_BND_TRN_LANES [b]) with
      | nil => rw [hp] at hmem; cases hmem
      | cons => rfl
    rw [exec_bundleTrainDecision hst, hsome, hstraight, hback, if_neg (by decide), if_neg (by decide)]
    exact ex_next (State.bundleFails_result (by decide) _ _)
  case retrain =>
    intro w b s h hst hidle hheld
    rw [exec_bundleRetrain h hst hidle, show s.bundleAgain b = s.bundleStart b from if_pos hheld]
    exact ex_next ⟨s.bundleStart_state b, s.bundleStart_t0 b, s.bundleStart_govs b⟩
  case retrainAsks =>
    intro w b s h hst hidle hheld hfit
    rw [exec_bundleRetrain h hst hidle, show s.bundleAgain b = s.bundleAsks b from if_neg (Bool.eq_false_iff.mp hheld)]
    obtain ⟨h1, -, hq, -⟩ := State.bundleAsks_result hfit
    exact ex_next ⟨h1, hq⟩
  case retrainBusy =>
    intro w b s h hbusy
    obtain ⟨v, hv⟩ := exec_bundleRetrain_busy h hbusy
    exact ⟨_, hv, State.drop_sameFields _ _ _ _ _⟩
  case disable =>
    intro w b s h hidle
    obtain ⟨hst, hen, hlock⟩ := s.bundleStops_fields b
    refine ⟨_, exec_bundleDisable h hidle, ?_, ?_, ?_, s.bundleOff_held b, s.bundleOff_losses b⟩
    · exact (s.bundleOff_bundle b [b.val] (by decide) (by decide) (by decide)).trans hst
    · exact (s.bundleOff_bundle b [b.val] (by decide) (by decide) (by decide)).trans hen
    · exact (s.bundleOff_bundle b [b.val] (by decide) (by decide) (by decide)).trans hlock
  case disableBusy =>
    intro w b s h hbusy
    obtain ⟨v, hv⟩ := exec_bundleDisable_busy h hbusy
    exact ⟨_, hv, State.drop_sameFields _ _ _ _ _⟩
  case timeout =>
    intro b s hst hready
    obtain ⟨t, ht⟩ := State.takeTimeout_of_timeoutReady hready
    exact ⟨_, exec_bundlePermitTimeout hst ht, State.bundleFails_result (by decide) _ _⟩

/-! PROOFS. Channel lanes: the counter of received bits (R300). -/

/-- A state in which the checker of channel lane 0 runs, not locked, and its bit counter holds 2^64, which no counter of 64 bits
holds. -/
def wideCounter : State :=
  (((State.reset.wr .CL_CTL_EN [0] 1).wr .CL_BND_STAT_STATE [0] 4).wr .CL_PRBS_CHK [0] 1).setLane 0 { bits := 2 ^ 64 }

theorem wideCounter_runs : wideCounter.chkRuns false 0 = true := by decide +kernel

theorem wideCounter_unlocked : wideCounter.on .CL_STAT_CHK_LOCK [0] = false := by decide +kernel

/-- A checker that meets no word counts no bit. -/
theorem exec_checkerLock_none (trunk : Bool) (l : Fin 224) (s : State) : exec (.checkerLock trunk l []) s = .next s := by
  change execCheckerLock trunk l [] s = _
  unfold execCheckerLock State.chkWords
  split
  · rfl
  · rfl

/-- Refutes O36: its clause of CHECKER_LOCK says that the bit counter reads `min (2^64 - 1)` of what it held and the bits met, in
every state. With no word met, a counter that holds 2^64 keeps it, while the clause asks for 2^64 - 1. -/
theorem not_channelLanesTakeTheirControlsAndReportLosses : ¬ Obligations.ChannelLanesTakeTheirControlsAndReportLosses := by
  unfold Obligations.ChannelLanesTakeTheirControlsAndReportLosses
  rintro ⟨-, -, -, -, -, -, -, -, -, -, -, -, -, -, -, hchecker, -⟩
  obtain ⟨t, ht, -, -, -, hbits, -⟩ :=
    hchecker false 0 [] (wideCounter.laneRt 0).chk false 0 0 wideCounter wideCounter_runs wideCounter_unlocked rfl
  obtain rfl : wideCounter = t := by simpa [exec_checkerLock_none] using ht
  exact absurd hbits (by decide +kernel)

/-! PROOFS. Recovery (R406, R454, R459). -/

/-! ## Bytes of the flash -/

theorem natLe_length (x n : Nat) : (natLe x n).length = n := by
  induction n generalizing x with
  | zero => rfl
  | succ n ih => exact congrArg Nat.succ (ih (x / 256))

/-- The bytes just stored are read back. -/
theorem memBytes_memStore (m : List (Nat × Byte)) (a : Nat) (bs : List Byte) (d : Byte) :
    memBytes (memStore m a bs d) a bs.length d = bs := by
  refine List.ext_getElem (by simp [memBytes]) fun n h1 h2 => ?_
  simp only [memBytes, List.getElem_map, List.getElem_range]
  exact memGet_memStore_inside _ _ _ _ _ h2

/-- Writing a copy of the directory leaves the flash from both copies on. -/
theorem State.dirWrite_flash (s : State) {c : Nat} (hc : c ≤ 1) (d : Nat) {a : Nat} (ha : 8192 ≤ a) :
    memGet (s.dirWrite c d).flash a 0xFF = memGet s.flash a 0xFF := by
  unfold State.dirWrite
  dsimp only
  refine memGet_memStore_outside _ _ _ _ _ (Or.inr ?_)
  rw [natLe_length]
  omega

/-- One of the two copies of the directory is written (R509). -/
theorem State.dirNext_writes {P : State → Prop} (s : State) (h : ∀ c x, c ≤ 1 → P (s.dirWrite c x)) (d : Nat) :
    P (s.dirNext d) := by
  rw [State.dirNext]
  split
  · exact h _ _ (Nat.zero_le 1)
  · exact h _ _ (Nat.sub_le 1 _)

theorem State.dirNext_flash (s : State) (d : Nat) {a : Nat} (ha : 8192 ≤ a) :
    memGet (s.dirNext d).flash a 0xFF = memGet s.flash a 0xFF :=
  State.dirNext_writes (P := fun t => memGet t.flash a 0xFF = memGet s.flash a 0xFF) s
    (fun _ x hc => s.dirWrite_flash hc x ha) d

/-! ## Package resets (R415) -/

/-- What a package reset leaves, before the health and the levels held are recorded again (R415, R420, R484). -/
noncomputable def State.stripped (s : State) (h : Nat) : State :=
  { s.bare (fun f _ => f.spec.cls == .por || f.spec.cls == .dbg) with
    hold := h, dbgWait := s.dbgWait, pel := s.pel, tap := { s.tap with scan := false, drive := none } }

theorem State.packageReset_eq (s : State) (h : Nat) :
    s.packageReset h = (s.stripped h).levelsUsed.healthAgain.emit (.pin 31 0) := rfl

theorem State.stripped_rd (s : State) (h : Nat) (f : Fld) (i : List Nat) : (s.stripped h).rd f i =
    if f.fused = false ∧ f.spec.cls ≠ .por ∧ f.spec.cls ≠ .dbg then f.reset i else s.rd f i := by
  have hregs : (s.stripped h).rd f i = (s.clearRegs (fun f _ => !f.fused && !(f.spec.cls == .por || f.spec.cls == .dbg))).rd f i := rfl
  rw [hregs, State.rd_clearRegs]
  simp

theorem State.packageReset_flash (s : State) (h : Nat) : (s.packageReset h).flash = s.flash := by
  rw [State.packageReset_eq]
  exact State.emit_keeps (R := fun t => t.flash = s.flash) (Keeps.part (p := .flash) rfl (by decide) s) _ _
    (State.healthAgain_keeps (Keeps.part (p := .flash) rfl (by decide) s) _
      (State.levelsUsed_keeps (Keeps.part (p := .flash) rfl (by decide) s) _ rfl))

/-- A package reset leaves every other field as the strip left it. -/
theorem State.packageReset_rd (s : State) (h : Nat) {f : Fld} (hused : hasFld ⟨[.LS_DBG_STAT_USED], [], [], false⟩ f = false)
    (hstage : hasFld ⟨[.MGMT_HEALTH_STAGE], [], [], false⟩ f = false) (i : List Nat) :
    (s.packageReset h).rd f i = (s.stripped h).rd f i := by
  rw [State.packageReset_eq, State.emit_rd _ _ rfl, State.healthAgain_rd _ hstage, State.levelsUsed_rd _ hused]

/-! ## The recovery registers -/

section
variable {w : Writer} {s : State}

theorem State.recovers_iff : s.recovers w = true ↔
    s.mute w = false ∧ s.unlocked = false ∧ s.rd .BOOT_STAT_STAGE [] = 15 ∧ recoveryWriter w = true := by
  simp [State.recovers, and_assoc]

/-- In recovery its registers are written by their writers (R459). -/
theorem State.recoveryReg_of (h : s.recovers w = true) {r : Reg} (hsite : r.site [] = 8) (v : Nat) (k : State → State) :
    s.recoveryReg w r v k = k s := by
  obtain ⟨hmute, hlock, hstage, hw⟩ := State.recovers_iff.mp h
  have hreach : s.reaches w r [] = true := by simp [State.reaches, hmute, hlock, hsite]
  exact (State.reach_of hreach ..).trans (if_pos ⟨hstage, hw⟩)

/-- Outside recovery a write of its registers is dropped (R459). -/
theorem State.recoveryReg_dropped (hmute : s.mute w = false) (hlock : s.unlocked = false) (hstage : s.rd .BOOT_STAT_STAGE [] ≠ 15)
    {r : Reg} (hsite : r.site [] = 8) (v : Nat) (k : State → State) : s.recoveryReg w r v k = s.drop w r [] v := by
  have hreach : s.reaches w r [] = true := by simp [State.reaches, hmute, hlock, hsite]
  exact (State.reach_of hreach ..).trans (if_neg (by simp [hstage]))

theorem State.recoveryFails_result {err : Nat} (herr : err < 16) : (s.recoveryFails err).rd .LS_RCV_STAT_STATE [] = 3 ∧
    (s.recoveryFails err).rd .LS_RCV_STAT_ERR [] = err := by
  have hw : (Fld.spec .LS_RCV_STAT_ERR).width = 4 := rfl
  unfold State.recoveryFails
  rw [State.rd_wr_fld _ _ _ _ _ _ (by decide), State.rd_wr_same, State.rd_wr_same, hw]
  exact ⟨rfl, Nat.mod_eq_of_lt herr⟩

theorem State.recoveryFails_sameFields (err : Nat) :
    SameFields s (s.recoveryFails err) [(.LS_RCV_STAT_STATE, []), (.LS_RCV_STAT_ERR, [])] :=
  ((SameFields.refl s _).wr (by simp) _).wr (by simp) _

theorem State.recoveryFails_flash (err : Nat) : (s.recoveryFails err).flash = s.flash := rfl

theorem State.imageBad_flash (code source : Nat) : (s.imageBad code source).flash = s.flash :=
  State.imageBad_keeps (R := fun t => t.flash = s.flash) (Keeps.part (p := .flash) rfl (by decide) s) s code source rfl

/-- The bytes received so far are given up. -/
noncomputable def State.rcvDropped (s : State) : State := { s with rcvN := 0 }

theorem State.rcvDropped_flash : s.rcvDropped.flash = s.flash := rfl

theorem State.rcvDropped_rd (f : Fld) (i : List Nat) : s.rcvDropped.rd f i = s.rd f i := rfl

/-! ## Begin -/

/-- The registers name the slot and the length of the image that comes (R454). -/
noncomputable def State.recoveryNamed (s : State) (b n : Nat) : State := (s.wr .LS_RCV_CTL_SLOT [] b).wr .LS_RCV_CTL_LEN [] n

/-- The image is received from its first byte on. -/
noncomputable def State.receiving (s : State) : State :=
  ((({ s.wr .LS_RCV_STAT_STATE [] 1 with rcvN := 0 } : State).wr .LS_RCV_STAT_ERR [] 0)).wr .LS_RCV_STAT_BYTES [] 0

/-- Where no copy of the directory is valid, recovery writes one. -/
noncomputable def State.dirGiven (s : State) (b : Nat) : State := if s.dirPick.isNone then s.dirWrite 0 (recoveryDir b) else s

theorem exec_recoveryBegin {b : Bool} {n : BitVec 28} (h : s.recovers w = true) : exec (.recoveryBegin w b n) s = .next
    (if 16 * n.toNat = 0 ∨ fwMax + 256 < 16 * n.toNat then (s.recoveryNamed b.toNat n.toNat).recoveryFails 3
    else ((s.recoveryNamed b.toNat n.toNat).dirGiven b.toNat).receiving) :=
  congrArg Host.Outcome.next (State.recoveryReg_of h rfl ..)

theorem State.dirGiven_rd (b : Nat) (f : Fld) (i : List Nat) : (s.dirGiven b).rd f i = s.rd f i := by
  unfold State.dirGiven
  split
  · exact State.dirWrite_rd _ _ _ rfl
  · rfl

theorem State.receiving_fields : s.receiving.rd .LS_RCV_STAT_STATE [] = 1 ∧ s.receiving.rd .LS_RCV_STAT_ERR [] = 0 ∧
    s.receiving.rd .LS_RCV_STAT_BYTES [] = 0 := by
  have hrcv : ∀ (u : State) (n : Nat) (f : Fld) (i : List Nat), ({ u with rcvN := n } : State).rd f i = u.rd f i :=
    fun _ _ _ _ => rfl
  unfold State.receiving
  simp (disch := decide) only [State.rd_wr_fld, State.rd_wr_same, hrcv]
  exact ⟨rfl, rfl, rfl⟩

theorem State.receiving_sameFields :
    SameFields s s.receiving [(.LS_RCV_STAT_STATE, []), (.LS_RCV_STAT_ERR, []), (.LS_RCV_STAT_BYTES, [])] := by
  unfold State.receiving
  exact ((((SameFields.refl s _).wr (f := .LS_RCV_STAT_STATE) (i := []) (by simp) 1).of_rd (fun _ _ => rfl)).wr (by simp) _).wr
    (by simp) _

theorem State.receiving_flash : s.receiving.flash = s.flash := rfl

theorem State.receiving_rcvN : s.receiving.rcvN = 0 := rfl

theorem State.recoveryNamed_flash (b n : Nat) : (s.recoveryNamed b n).flash = s.flash := rfl

theorem State.recoveryNamed_dirPick (b n : Nat) : (s.recoveryNamed b n).dirPick = s.dirPick := rfl

theorem State.dirGiven_flash (h : s.dirPick.isSome = true) (b : Nat) : (s.dirGiven b).flash = s.flash := by
  unfold State.dirGiven
  rw [if_neg (by simpa [Option.isSome_iff_ne_none] using h)]

/-! ## Data -/

theorem exec_recoveryData {v : BitVec 32} (h : s.recovers w = true) : exec (.recoveryData w v) s = .next
    (if s.rd .LS_RCV_STAT_STATE [] = 1 ∧ s.rcvN < 16 * s.rd .LS_RCV_CTL_LEN [] then
      ({ s with flash := memStore s.flash (s.slotBase (s.rd .LS_RCV_CTL_SLOT []) + s.rcvN) (natLe v.toNat 4) 0xFF,
                rcvN := s.rcvN + 4 } : State).wr .LS_RCV_STAT_BYTES [] ((s.rcvN + 4) / 16)
    else s) :=
  congrArg Host.Outcome.next (State.recoveryReg_of h rfl ..)

/-! ## End -/

theorem exec_recoveryEnd_flash {b : Bool} (h : s.recovers w = true) (hst : s.rd .LS_RCV_STAT_STATE [] = 1) :
    exec (.recoveryEnd w b false) s = .next (s.recoveryFails 4) :=
  congrArg Host.Outcome.next ((State.recoveryReg_of h rfl ..).trans ((if_neg (by simp [hst])).trans (if_pos rfl)))

/-- An image that has not come whole (R454). -/
theorem exec_recoveryEnd_short {b : Bool} (h : s.recovers w = true) (hst : s.rd .LS_RCV_STAT_STATE [] = 1)
    (hn : s.rcvN ≠ 16 * s.rd .LS_RCV_CTL_LEN []) :
    exec (.recoveryEnd w b true) s = .next ((s.imageBad 4 4).rcvDropped.recoveryFails 3) :=
  congrArg Host.Outcome.next ((State.recoveryReg_of h rfl ..).trans ((if_neg (by simp [hst])).trans
    ((if_neg (by decide)).trans (if_pos (Or.inl hn)))))

variable {a len : Nat}

/-- An image that has come whole is judged (R454): good, or failing its signature alone. -/
theorem exec_recoveryEnd_judged {b : Bool} (h : s.recovers w = true) (hst : s.rd .LS_RCV_STAT_STATE [] = 1)
    (hn : s.rcvN = 16 * s.rd .LS_RCV_CTL_LEN []) (ha : s.slotBase (s.rd .LS_RCV_CTL_SLOT []) = a)
    (hlen : 256 + hBODY (leNat (memBytes s.flash a 256 0xFF)) = len) (hle : len ≤ s.rcvN) (hlt : s.rcvN < len + 16)
    (hc : s.fwCheck a len b = 0 ∨ s.fwCheck a len b = 1) : exec (.recoveryEnd w b true) s = .next
      (if s.fwCheck a len b = 0 then (s.dirNext (dirPutFw s.dirNow (s.rd .LS_RCV_CTL_SLOT []) a len)).packageReset 0
      else (s.imageBad 1 4).recoveryFails 1) := by
  have hwhole : ¬ (s.rcvN ≠ 16 * s.rd .LS_RCV_CTL_LEN [] ∨ len ≤ 16 * s.rd .LS_RCV_CTL_LEN [] - 16 ∨
      16 * s.rd .LS_RCV_CTL_LEN [] < len) := by omega
  subst hlen ha
  refine congrArg Host.Outcome.next ((State.recoveryReg_of h rfl ..).trans ((if_neg (by simp [hst])).trans
    ((if_neg (by decide)).trans ((if_neg hwhole).trans ?_))))
  dsimp only
  rcases hc with hc | hc <;> rw [hc]
  · rfl
  · rfl

/-- An image that is good with a good signature fails by the signature alone. -/
theorem State.fwCheck_unsigned (h : s.fwCheck a len true = 0) : s.fwCheck a len false = 1 := by
  unfold State.fwCheck at h ⊢
  dsimp only at h ⊢
  split at h
  next => cases h
  next hform =>
    split at h
    next hkey => exact absurd h hkey
    next hkey =>
      split at h
      next => cases h
      next hcounter =>
        split at h
        next => cases h
        next hsvn => rw [if_neg hform, if_neg hkey, if_neg hcounter, if_neg hsvn, if_pos rfl]

end

/-- Settles O57: begin, data and end in recovery, by what has come and how the image is judged; and the registers outside it. -/
theorem recoveryReceivesJudgesAndRestarts : Obligations.RecoveryReceivesJudgesAndRestarts := by
  unfold Obligations.RecoveryReceivesJudgesAndRestarts
  refine ⟨?beginBad, ?begin, ?data, ?full, ?outside, ?flashBad, ?short, ?unsigned, ?good⟩
  case beginBad =>
    intro w b n s h hn
    have hbad : 16 * n.toNat = 0 ∨ fwMax + 256 < 16 * n.toNat := by unfold fwMax; omega
    rw [exec_recoveryBegin h, if_pos hbad]
    obtain ⟨hst, herr⟩ := State.recoveryFails_result (s := s.recoveryNamed b.toNat n.toNat) (err := 3) (by decide)
    exact ex_next ⟨hst, herr, rfl⟩
  case begin =>
    intro w b n s h hn hle
    have hgood : ¬ (16 * n.toNat = 0 ∨ fwMax + 256 < 16 * n.toNat) := by unfold fwMax; omega
    have hslot : (Fld.spec .LS_RCV_CTL_SLOT).width = 1 := rfl
    have hlen : (Fld.spec .LS_RCV_CTL_LEN).width = 28 := rfl
    rw [exec_recoveryBegin h, if_neg hgood]
    obtain ⟨hst, herr, hbytes⟩ := State.receiving_fields (s := (s.recoveryNamed b.toNat n.toNat).dirGiven b.toNat)
    refine ex_next ⟨hst, herr, hbytes, ?_, ?_, State.receiving_rcvN, fun hdir => ?_⟩
    · rw [State.receiving_sameFields _ _ (by simp), State.dirGiven_rd, State.recoveryNamed,
        State.rd_wr_fld _ _ _ _ _ _ (by decide), State.rd_wr_same, hslot]
      exact Nat.mod_eq_of_lt b.toNat_lt
    · rw [State.receiving_sameFields _ _ (by simp), State.dirGiven_rd, State.recoveryNamed, State.rd_wr_same, hlen]
      exact Nat.mod_eq_of_lt n.isLt
    · rw [State.receiving_flash, State.dirGiven_flash (by rwa [State.recoveryNamed_dirPick]), State.recoveryNamed_flash]
  case data =>
    intro w v s h hst hn hmax
    have hbytes : (Fld.spec .LS_RCV_STAT_BYTES).width = 24 := rfl
    rw [exec_recoveryData h, if_pos ⟨hst, hn⟩]
    refine ex_next ⟨rfl, ?_, ?_, fun a ha => ?_, (SameFields.of_rd (SameFields.refl s _) (fun _ _ => rfl)).wr (by simp) _⟩
    · rw [State.rd_wr_same, hbytes]
      exact Nat.mod_eq_of_lt (by omega)
    · have hstore := memBytes_memStore s.flash (s.slotBase (s.rd .LS_RCV_CTL_SLOT []) + s.rcvN) (natLe v.toNat 4) 0xFF
      rwa [natLe_length] at hstore
    · refine memGet_memStore_outside _ _ _ _ _ ?_
      rwa [natLe_length]
  case full =>
    intro w v s h hn
    exact ⟨_, exec_recoveryData h, if_neg fun hc => absurd hc.2 (Nat.not_lt.mpr hn)⟩
  case outside =>
    intro w v s hmute hlock hstage
    exact ⟨_, congrArg Host.Outcome.next (State.recoveryReg_dropped hmute hlock hstage rfl _ _), rfl, rfl,
      State.drop_sameFields _ _ _ _ _⟩
  case flashBad =>
    intro w b s h hst
    obtain ⟨h3, herr⟩ := State.recoveryFails_result (s := s) (err := 4) (by decide)
    exact ⟨_, exec_recoveryEnd_flash h hst, h3, herr, State.recoveryFails_sameFields _⟩
  case short =>
    intro w b s h hst hn
    obtain ⟨h3, herr⟩ := State.recoveryFails_result (s := (s.imageBad 4 4).rcvDropped) (err := 3) (by decide)
    refine ⟨_, exec_recoveryEnd_short h hst hn, h3, herr, ?_, ?_⟩
    · rw [State.recoveryFails_rd _ _ rfl, State.rcvDropped_rd]
      unfold State.imageBad
      rw [State.lsErr_rd _ _ _ rfl, State.bump_same]
      exact Nat.min_comm _ _
    · rw [State.recoveryFails_flash, State.rcvDropped_flash, State.imageBad_flash]
  case unsigned =>
    intro w a len s h hst hn ha hlen hle hlt hc
    have hc' := State.fwCheck_unsigned hc
    obtain ⟨h3, herr⟩ := State.recoveryFails_result (s := s.imageBad 1 4) (err := 1) (by decide)
    rw [exec_recoveryEnd_judged h hst hn ha hlen hle hlt (Or.inr hc'), hc', if_neg (by decide)]
    exact ex_next ⟨h3, herr, by rw [State.recoveryFails_flash, State.imageBad_flash]⟩
  case good =>
    intro w a len s h hst hn ha hbase hlen hle hlt hc
    rw [exec_recoveryEnd_judged h hst hn ha hlen hle hlt (Or.inl hc), if_pos hc]
    refine ex_next ⟨?_, State.packageReset_hold _ _, fun k => ?_⟩
    · rw [State.packageReset_rd _ _ rfl rfl, State.stripped_rd]
      rfl
    · rw [State.packageReset_flash]
      exact State.dirNext_flash _ _ (by omega)

/-! PROOFS. Doorbells (R325). -/

/-- Queue pair 0 belongs to function 0; it is not enabled, and no ring size is set. -/
def ownedUnsized : State := State.reset.wr .HIF_QP_ASSIGN_VALID [0] 1

theorem ownedUnsized_state : ownedUnsized.qstate 0 = 0 := by decide +kernel

theorem exec_dbSqTail_ownedUnsized : exec (.dbSqTail 0 0 0) ownedUnsized =
    .next ((ownedUnsized.wr .HIF_QP_STAT_ERR [0] 3).dbDrop 0 0 0 0) := by
  have hbusy : ownedUnsized.on .HIF_FN_STAT_FLR_BUSY [0] = false := by decide +kernel
  have hown : ownedUnsized.qpOwned 0 0 = true := by decide +kernel
  have hsize : ownedUnsized.sqSize 0 ≤ 0 := by decide +kernel
  exact congrArg Host.Outcome.next ((if_neg (by simp [hbusy])).trans ((if_neg (by simp [hown])).trans (if_pos hsize)))

/-- Refutes O38: its third clause says that a doorbell of a queue pair that is not in STATE 1 changes no field. The model asks
for the size of the ring first (R325), so a value that no ring holds sets ERR 3 also where STATE is 0: so for a write of 0 by
the owner of a queue pair without a ring size. -/
theorem not_doorbellsAndQueuePairsKeepTheirRings : ¬ Obligations.DoorbellsAndQueuePairsKeepTheirRings := by
  unfold Obligations.DoorbellsAndQueuePairsKeepTheirRings
  rintro ⟨-, -, hdrop, -⟩
  obtain ⟨t, ht, -, hsame⟩ := hdrop 0 0 0 ownedUnsized (Or.inr (by simp [ownedUnsized_state]))
  obtain rfl := Host.Outcome.next.inj (exec_dbSqTail_ownedUnsized.symm.trans ht)
  have herr := hsame .HIF_QP_STAT_ERR [0] List.not_mem_nil
  rw [State.dbDrop_rd _ _ _ _ _ rfl, State.rd_wr_same] at herr
  exact absurd herr (by decide +kernel)

/-! PROOFS. Queue pairs: how a descriptor starts and ends (R326, R329, R338, R339, R344). -/

/-! ## The next descriptor -/

section
variable {s : State} {q n opc : Nat} {j : Job}

/-- The next descriptor stands at its place and has not started; it fences nothing behind others. -/
theorem State.nextJob_some (h : s.nextJob q = some (n, j)) :
    (s.qp q).jobs[n]? = some j ∧ j.st = 0 ∧ (dFenced j.d = true → n = 0) ∧ s.cqFull q = false := by
  unfold State.nextJob at h
  dsimp only at h
  split at h
  next => cases h
  next m hm =>
    split at h
    next => cases h
    next i hi =>
      split at h
      next => cases h
      next hno =>
        obtain ⟨rfl, rfl⟩ := Prod.mk.inj (Option.some.inj h)
        obtain ⟨hlt, hst, -⟩ := List.findIdx?_eq_some_iff_getElem.mp hm
        have hget : (s.qp q).jobs[m] = i := by
          rw [List.getElem?_eq_getElem hlt] at hi
          exact Option.some.inj hi
        have hst0 : i.st = 0 := by simpa [hget] using hst
        simp only [not_or, not_and, Bool.not_eq_true] at hno
        exact ⟨hi, hst0, fun hf => Nat.eq_zero_of_not_pos fun hpos => by simpa [hf] using hno.1 hpos, hno.2.2⟩

theorem State.mayStart_iff : s.mayStart q n opc j = true ↔
    s.nextJob q = some (n, j) ∧ dOPC j.d = opc ∧ j.bad = none ∧ j.pred = 1 := by
  simp [State.mayStart, and_assoc]

theorem State.mayStart_job (h : s.mayStart q n opc j = true) : (s.qp q).jobs[n]? = some j :=
  (State.nextJob_some (State.mayStart_iff.mp h).1).1

end

/-! ## Replacing a descriptor -/

section
variable {s : State} {q n : Nat}

theorem State.setJob_qp (s : State) (q n : Nat) (j : Job) : (s.setJob q n j).qp q = { s.qp q with jobs := (s.qp q).jobs.set n j } := by
  unfold State.setJob
  dsimp only
  rw [State.setQp_qp, if_pos rfl]

theorem State.setJob_qp_ne {q' : Nat} (h : q ≠ q') (j : Job) : (s.setJob q n j).qp q' = s.qp q' := by
  unfold State.setJob
  dsimp only
  rw [State.setQp_qp, if_neg h]

theorem State.setJob_job {i : Job} (h : (s.qp q).jobs[n]? = some i) (j : Job) : ((s.setJob q n j).qp q).jobs[n]? = some j := by
  rw [State.setJob_qp]
  obtain ⟨hlt, -⟩ := List.getElem?_eq_some_iff.mp h
  exact List.getElem?_set_self hlt

end

/-! ## What an end lets go on -/

/-- `t` is `s` but for descriptors of queue pair `q` that had not started, and for the line of configuration loads. -/
structure State.Settles (s t : State) (q : Nat) : Prop where
  rest : ∃ m c, t = { s with qps := m, cfgWait := c }
  other : ∀ q', q' ≠ q → t.qp q' = s.qp q'
  pair : ∃ l, t.qp q = { s.qp q with jobs := l } ∧ l.length = (s.qp q).jobs.length
  started : ∀ (n : Nat) (j : Job), (s.qp q).jobs[n]? = some j → j.st ≠ 0 → (t.qp q).jobs[n]? = some j

section
variable {s t u : State} {q n : Nat}

theorem State.Settles.refl (s : State) (q : Nat) : s.Settles s q :=
  ⟨⟨s.qps, s.cfgWait, rfl⟩, fun _ _ => rfl, ⟨_, rfl, rfl⟩, fun _ _ h _ => h⟩

theorem State.Settles.trans (h : s.Settles t q) (h' : t.Settles u q) : s.Settles u q := by
  obtain ⟨m, c, rfl⟩ := h.rest
  obtain ⟨m', c', hu⟩ := h'.rest
  obtain ⟨l, hl, hlen⟩ := h.pair
  obtain ⟨l', hl', hlen'⟩ := h'.pair
  refine ⟨⟨m', c', hu⟩, fun q' hq => (h'.other q' hq).trans (h.other q' hq), ⟨l', ?_, ?_⟩, fun n j hj hst => ?_⟩
  · rw [hl', hl]
  · rw [hlen', hl, hlen]
  · exact h'.started n j (h.started n j hj hst) hst

/-- A descriptor that had not started is replaced. -/
theorem State.Settles.setJob {i : Job} (hi : (s.qp q).jobs[n]? = some i) (hst : i.st = 0) (j : Job) :
    s.Settles (s.setJob q n j) q := by
  refine ⟨⟨_, s.cfgWait, rfl⟩, fun q' hq => State.setJob_qp_ne (Ne.symm hq) j, ⟨_, State.setJob_qp .., List.length_set ..⟩,
    fun m k hk hkst => ?_⟩
  rw [State.setJob_qp]
  have hne : n ≠ m := by
    rintro rfl
    exact hkst (Option.some.inj (hi.symm.trans hk) ▸ hst)
  exact (List.getElem?_set_ne hne).trans hk

/-- A descriptor that ends with a failure stays in its line (R344). -/
theorem State.jobEnd_fails {j : Job} (hj : (s.qp q).jobs[n]? = some j) {status : Nat} (hs : status ≠ 0) (detail bytes : Nat) :
    s.jobEnd q n status detail bytes = s.setJob q n (j.ended status detail bytes) := by
  unfold State.jobEnd
  rw [hj]
  exact if_neg fun h => hs h.1

/-- What settles of its own accord (R329, R338, R339). -/
theorem State.settle_settles (q fuel : Nat) (s : State) : s.Settles (s.settle q fuel) q := by
  induction fuel generalizing s with
  | zero => exact State.Settles.refl s q
  | succ fuel ih =>
    unfold State.settle
    split
    next => exact State.Settles.refl s q
    next n j hn =>
      obtain ⟨hj, hst, -, -⟩ := State.nextJob_some hn
      split
      · rw [State.jobEnd_fails hj (by decide)]
        exact (State.Settles.setJob hj hst _).trans (ih _)
      · split
        next w _ =>
          rw [State.jobEnd_fails hj (by decide)]
          exact (State.Settles.setJob hj hst _).trans (ih _)
        next =>
          split
          · exact ⟨⟨s.qps, _, rfl⟩, fun _ _ => rfl, ⟨_, rfl, rfl⟩, fun _ _ h _ => h⟩
          · exact State.Settles.refl s q

theorem State.Settles.sameFields (h : s.Settles t q) : SameFields s t [] := by
  obtain ⟨m, c, rfl⟩ := h.rest
  exact fun _ _ _ => rfl

/-! ## The end of a descriptor -/

/-- `t` is `s` in which descriptor `n` of queue pair `q` has become `j`, and others may have settled. -/
structure State.Ends (s t : State) (q n : Nat) (j : Job) : Prop where
  rest : ∃ m c, t = { s with qps := m, cfgWait := c }
  job : (t.qp q).jobs[n]? = some j
  length : (t.qp q).jobs.length = (s.qp q).jobs.length

/-- A descriptor that ends with a failure, or with OK and an entry to write (R344). -/
theorem State.jobDone_ends {j : Job} (hj : (s.qp q).jobs[n]? = some j) {status : Nat} (hs : status ≠ 0 ∨ dNOCMP j.d = false)
    (detail bytes : Nat) : s.Ends (s.jobDone q n status detail bytes) q n (j.ended status detail bytes) := by
  have hend : s.jobEnd q n status detail bytes = s.setJob q n (j.ended status detail bytes) := by
    unfold State.jobEnd
    rw [hj]
    exact if_neg fun h => hs.elim (fun hs => hs h.1) (fun hn => by simp [hn] at h)
  unfold State.jobDone
  rw [hend]
  have hset := State.settle_settles q 65 (s.setJob q n (j.ended status detail bytes))
  obtain ⟨m, c, hrest⟩ := hset.rest
  obtain ⟨l, hl, hlen⟩ := hset.pair
  refine ⟨⟨m, c, hrest⟩, hset.started _ _ (State.setJob_job hj _) (show 2 ≠ 0 by decide), ?_⟩
  rw [hl]
  exact hlen.trans (by rw [State.setJob_qp, List.length_set])

theorem State.Ends.sameFields {j : Job} (h : s.Ends t q n j) : SameFields s t [] := by
  obtain ⟨m, c, rfl⟩ := h.rest
  exact fun _ _ _ => rfl

/-- The only descriptor of its queue pair. -/
theorem State.Ends.jobs {i j : Job} (h : s.Ends t q 0 j) (hi : (s.qp q).jobs = [i]) : (t.qp q).jobs = [j] := by
  have hlen := h.length
  rw [hi] at hlen
  obtain ⟨k, hk⟩ := List.length_eq_one_iff.mp hlen
  have hjob := h.job
  rw [hk] at hjob ⊢
  exact congrArg (fun x => [x]) (Option.some.inj hjob)

theorem State.setJob_ends {i : Job} (hi : (s.qp q).jobs[n]? = some i) (j : Job) : s.Ends (s.setJob q n j) q n j :=
  ⟨⟨_, s.cfgWait, rfl⟩, State.setJob_job hi j, by rw [State.setJob_qp, List.length_set]⟩

theorem State.Ends.trans {i j : Job} (h : s.Ends t q n i) (h' : t.Ends u q n j) : s.Ends u q n j := by
  obtain ⟨m, c, rfl⟩ := h.rest
  obtain ⟨m', c', hu⟩ := h'.rest
  exact ⟨⟨m', c', hu⟩, h'.job, h'.length.trans h.length⟩

/-- The only descriptor of its queue pair leaves, and is counted (R326, R351). -/
theorem State.jobGone_only {j : Job} (hj : (s.qp q).jobs = [j]) : ((s.jobGone q 0).qp q).jobs = [] ∧
    (s.jobGone q 0).rd .HIF_QP_DONE_CNT_COUNT [q] = min (s.rd .HIF_QP_DONE_CNT_COUNT [q] + 1) 0xFFFFFFFF := by
  have hwr : ∀ (u : State) (f : Fld) (i : List Nat) (v : Nat), (u.wr f i v).qp q = u.qp q := fun _ _ _ _ => rfl
  unfold State.jobGone
  dsimp only
  rw [hj]
  simp only [List.getElem?_cons_zero, List.drop_succ_cons, List.drop_nil, List.take_zero, List.append_nil, List.isEmpty_nil,
    true_and, if_true]
  generalize (if j.status = 0 ∨ j.status = 4 then 1 else 2) = r
  split
  · refine ⟨?_, ?_⟩
    · rw [hwr, State.bump, hwr, State.setQp_qp, if_pos rfl]
    · rw [State.rd_wr_fld _ _ _ _ _ _ (by decide), State.bump_same, State.setQp_rd _ _ _ rfl]
      rfl
  · refine ⟨?_, ?_⟩
    · rw [State.bump, hwr, State.setQp_qp, if_pos rfl]
    · rw [State.bump_same, State.setQp_rd _ _ _ rfl]
      rfl

/-- The only descriptor of a queue pair ends with OK and no entry: it leaves at once and is counted (R344, R351). -/
theorem State.jobDone_leaves {j : Job} (hj : (s.qp q).jobs = [j]) (hn : dNOCMP j.d = true) (detail bytes : Nat) :
    ((s.jobDone q 0 0 detail bytes).qp q).jobs = [] ∧
      (s.jobDone q 0 0 detail bytes).rd .HIF_QP_DONE_CNT_COUNT [q] = min (s.rd .HIF_QP_DONE_CNT_COUNT [q] + 1) 0xFFFFFFFF := by
  have hend : s.jobEnd q 0 0 detail bytes = (s.setJob q 0 (j.ended 0 detail bytes)).jobGone q 0 := by
    unfold State.jobEnd
    rw [hj]
    exact if_pos ⟨rfl, hn⟩
  have honly : ((s.setJob q 0 (j.ended 0 detail bytes)).qp q).jobs = [j.ended 0 detail bytes] := by
    rw [State.setJob_qp, hj]
    rfl
  obtain ⟨hjobs, hcnt⟩ := State.jobGone_only honly
  have hset := State.settle_settles q 65 ((s.setJob q 0 (j.ended 0 detail bytes)).jobGone q 0)
  obtain ⟨l, hl, hlen⟩ := hset.pair
  unfold State.jobDone
  rw [hend]
  refine ⟨?_, ?_⟩
  · rw [hl]
    exact List.eq_nil_of_length_eq_zero (hlen.trans (by rw [hjobs]; rfl))
  · rw [hset.sameFields _ _ List.not_mem_nil, hcnt, State.setJob_rd _ _ _ _ rfl]

end

/-! ## The start of a descriptor -/

section
variable {s : State} {q n opc : Nat} {j : Job}

theorem State.startOp_of (h : s.mayStart q n opc j = true) (k : Nat → Nat → Nat → State → State) :
    s.startOp q opc k = k n j.d (s.rd .HIF_QP_ASSIGN_FN [q]) (s.setJob q n { j with st := 1 }) := by
  obtain ⟨hnext, hopc, hbad, hpred⟩ := State.mayStart_iff.mp h
  unfold State.startOp
  rw [hnext]
  exact if_pos ⟨hopc, hbad, hpred⟩

/-- Where the next descriptor has another opcode, or none may start, nothing starts. -/
theorem State.startOp_other (h : (s.nextJob q).all (fun x => dOPC x.2.d != opc) = true) (k : Nat → Nat → Nat → State → State) :
    s.startOp q opc k = s := by
  unfold State.startOp
  split
  next => rfl
  next n j hn =>
    rw [hn] at h
    exact if_neg fun hc => by simp [hc.1] at h

/-- The descriptor that starts, and what comes of it. -/
theorem State.startOp_ends {i : Job} (h : s.mayStart q n opc j = true) {k : Nat → Nat → Nat → State → State}
    (hk : ∀ u, (u.qp q).jobs[n]? = some { j with st := 1 } → s.Ends u q n { j with st := 1 } →
      u.Ends (k n j.d (s.rd .HIF_QP_ASSIGN_FN [q]) u) q n i) : s.Ends (s.startOp q opc k) q n i := by
  have hset := State.setJob_ends (State.mayStart_job h) { j with st := 1 }
  rw [State.startOp_of h]
  exact hset.trans (hk _ hset.job hset)

end

/-! PROOFS. The mailbox (R337, R482, R508). -/

section
variable {s t : State} {q : Fin 1024} {n : Nat} {j : Job}

/-! ## What an end leaves alone -/

theorem State.Ends.mail {q n : Nat} (h : s.Ends t q n j) : t.mail = s.mail := by
  obtain ⟨m, c, rfl⟩ := h.rest
  rfl

theorem State.Ends.out {q n : Nat} (h : s.Ends t q n j) : t.out = s.out := by
  obtain ⟨m, c, rfl⟩ := h.rest
  rfl

theorem State.Ends.now {q n : Nat} (h : s.Ends t q n j) : t.now = s.now := by
  obtain ⟨m, c, rfl⟩ := h.rest
  rfl

/-- A descriptor that runs ends with a failure, or with OK and an entry to write. -/
theorem State.running_ends {q : Nat} (h : (s.qp q).jobs[n]? = some { j with st := 1 }) {status : Nat}
    (hs : status ≠ 0 ∨ dNOCMP j.d = false) (detail bytes : Nat) :
    s.Ends (s.jobDone q n status detail bytes) q n (j.ended status detail bytes) :=
  State.jobDone_ends (j := { j with st := 1 }) h hs detail bytes

/-- Data to host memory leave the device (R317). -/
theorem State.hostData_eq (s : State) (f a : Nat) (bs : List Byte) : s.hostData f a bs =
    { s with out := .hostWrite (portOf f) f a (s.on .HIF_FN_CTL_RO_DATA [f]) bs :: s.out } := by
  unfold State.hostData State.emit
  rw [show Out.scanned (.hostWrite (portOf f) f a (s.on .HIF_FN_CTL_RO_DATA [f]) bs) = false from rfl, Bool.and_false]
  rfl

/-! ## Requests -/

/-- A reply without a body that the limit holds (R508). -/
theorem replyBytes_empty {limit : Nat} (h : 8 ≤ limit) (code rst : Nat) :
    replyBytes code rst [] limit = natLe code 2 ++ natLe rst 2 ++ natLe 0 4 := by
  unfold replyBytes
  dsimp only
  rw [if_neg (by simp; omega), List.append_nil]
  exact List.take_of_length_le (by simp [natLe_length]; omega)

/-- The exchange of a MAILBOX descriptor `j` of queue pair `q` whose request is `r` (R337). -/
noncomputable def State.exchange (s : State) (q : Nat) (j : Job) (r : List Byte) : Mail :=
  { src := s.rd .HIF_QP_ASSIGN_FN [q], q := q, idx := j.idx, req := r, limit := dWord j.d 6, dst := dDST j.d, t := s.now }

/-- The descriptor ends without an exchange. -/
theorem exec_mailbox_ends {r : Option (List (BitVec 8))} {status : Nat} (h : s.mayStart q n 0x60 j = true)
    (hs : dLEN j.d = 0 ∧ status = 4 ∨ dLEN j.d ≠ 0 ∧ r = none ∧ status = 8) :
    ∃ t, exec (.mailbox q r) s = .next t ∧ s.Ends t q n (j.ended status 0 0) := by
  refine ⟨_, rfl, State.startOp_ends h fun u hu _ => ?_⟩
  rcases hs with ⟨hlen, rfl⟩ | ⟨hlen, rfl, rfl⟩
  · rw [if_pos hlen]
    exact State.running_ends hu (Or.inl (by decide)) 0 0
  · rw [if_neg hlen]
    exact State.running_ends hu (Or.inl (by decide)) 0 0

/-- A request that comes: it waits for its answer, or gets it at once. -/
theorem exec_mailbox_request (r : List (BitVec 8)) (h : s.mayStart q n 0x60 j = true) (hlen : dLEN j.d ≠ 0) :
    exec (.mailbox q (some r)) s = .next
      (if mailBounce (r.take (dLEN j.d)) = 0 then
        { s.setJob q n { j with st := 1 } with mail := s.mail ++ [s.exchange q j (r.take (dLEN j.d))] }
      else (s.setJob q n { j with st := 1 }).fnAnswer (s.exchange q j (r.take (dLEN j.d))) (mailBounce (r.take (dLEN j.d))) []) := by
  have hjob := State.setJob_job (State.mayStart_job h) { j with st := 1 }
  refine congrArg Host.Outcome.next ((State.startOp_of h _).trans ((if_neg hlen).trans ?_))
  dsimp only
  rw [hjob]
  rfl

/-- The only descriptor of its queue pair is found where it runs. -/
theorem State.jobAt_only {q : Nat} (hj : (s.qp q).jobs = [{ j with st := 1 }]) : s.jobAt q j.idx = some 0 := by
  unfold State.jobAt
  rw [hj]
  simp

/-- A request that is answered at once (R508): the reply goes to the host and the descriptor ends with OK. -/
theorem exec_mailbox_bounced {r : List (BitVec 8)} (h : s.mayStart q 0 0x60 j = true) (honly : (s.qp q).jobs = [j])
    (hlen : dLEN j.d ≠ 0) (hb : mailBounce (r.take (dLEN j.d)) ≠ 0) (hlimit : 8 ≤ dWord j.d 6) (hn : dNOCMP j.d = false) :
    ∃ t, exec (.mailbox q (some r)) s = .next t ∧ (t.qp q).jobs = [j.ended 0 0 8] ∧ t.mail = s.mail ∧ t.out =
      .hostWrite (portOf (s.rd .HIF_QP_ASSIGN_FN [q])) (s.rd .HIF_QP_ASSIGN_FN [q]) (dDST j.d)
        (s.on .HIF_FN_CTL_RO_DATA [s.rd .HIF_QP_ASSIGN_FN [q]])
        (natLe (mailCode (r.take (dLEN j.d))) 2 ++ natLe (mailBounce (r.take (dLEN j.d))) 2 ++ natLe 0 4) :: s.out := by
  have honly' : ((s.setJob q 0 { j with st := 1 }).qp q).jobs = [{ j with st := 1 }] := by
    rw [State.setJob_qp, honly]
    rfl
  have hanswer : (s.setJob q 0 { j with st := 1 }).fnAnswer (s.exchange q j (r.take (dLEN j.d))) (mailBounce (r.take (dLEN j.d))) [] =
      ((s.setJob q 0 { j with st := 1 }).hostData (s.rd .HIF_QP_ASSIGN_FN [q]) (dDST j.d)
        (natLe (mailCode (r.take (dLEN j.d))) 2 ++ natLe (mailBounce (r.take (dLEN j.d))) 2 ++ natLe 0 4)).jobDone q 0 0 0 8 := by
    unfold State.fnAnswer
    rw [show (s.setJob q 0 { j with st := 1 }).jobAt (s.exchange q j (r.take (dLEN j.d))).q
      (s.exchange q j (r.take (dLEN j.d))).idx = some 0 from State.jobAt_only honly']
    dsimp only
    rw [show (s.exchange q j (r.take (dLEN j.d))).limit = dWord j.d 6 from rfl, replyBytes_empty hlimit]
    simp only [List.length_append, natLe_length]
    rfl
  rw [exec_mailbox_request r h hlen, if_neg hb, hanswer]
  generalize hu : (s.setJob q 0 { j with st := 1 }).hostData (s.rd .HIF_QP_ASSIGN_FN [q]) (dDST j.d)
    (natLe (mailCode (r.take (dLEN j.d))) 2 ++ natLe (mailBounce (r.take (dLEN j.d))) 2 ++ natLe 0 4) = u
  rw [State.hostData_eq] at hu
  have huj : (u.qp q).jobs = [{ j with st := 1 }] := by rw [← hu]; exact honly'
  have hends := State.running_ends (s := u) (q := q) (n := 0) (j := j) (status := 0) (by rw [huj]; rfl) (Or.inr hn) 0 8
  refine ex_next ⟨hends.jobs huj, ?_, ?_⟩
  · rw [hends.mail, ← hu]
    rfl
  · rw [hends.out, ← hu]
    rfl

theorem mailBounce_known {r : List Byte} (hlen : 8 ≤ r.length) (hk : knownCode (mailCode r) = true) : mailBounce r = 0 := by
  unfold mailBounce
  rw [if_neg (by omega), if_pos hk]

theorem mailBounce_short {r : List Byte} (hlen : r.length < 8) : mailBounce r = 3 := if_pos hlen

theorem mailBounce_unknown {r : List Byte} (hlen : 8 ≤ r.length) (hk : knownCode (mailCode r) = false) : mailBounce r = 1 := by
  unfold mailBounce
  rw [if_neg (by omega), if_neg (by simp [hk])]

/-! ## Exchanges that are not answered -/

/-- The state at the instant `u`, at the earliest, in which the exchange at place `n` is gone. -/
noncomputable def State.unanswered (s : State) (n u : Nat) : State := { s.lapseTo u with mail := s.mail.eraseIdx n }

theorem State.unanswered_now (n u : Nat) : (s.unanswered n u).now = max s.now u := State.lapseTo_now s u

theorem State.unanswered_mail (n u : Nat) : (s.unanswered n u).mail = s.mail.eraseIdx n := rfl

theorem State.unanswered_rd (n u : Nat) (f : Fld) (i : List Nat) : (s.unanswered n u).rd f i = s.rd f i := rfl

theorem State.unanswered_jobAt (n u q i : Nat) : (s.unanswered n u).jobAt q i = s.jobAt q i := rfl

theorem exec_mailboxTimeout {n : Fin 2048} {m : Mail} (hm : s.mail[n.val]? = some m) : exec (.mailboxTimeout n) s =
    if m.src < 8 then
      match (s.unanswered n (m.t + 1000000000)).jobAt m.q m.idx with
      | some k => .next ((s.unanswered n (m.t + 1000000000)).jobDone m.q k 5 0 0)
      | none => .next (s.unanswered n (m.t + 1000000000))
    else .next ((s.unanswered n (m.t + 1000000000)).setHelm (m.src - 8)
      { (s.unanswered n (m.t + 1000000000)).helmRt (m.src - 8) with mbx := some (5, 0) }) := by
  change execMailboxTimeout n s = _
  unfold execMailboxTimeout
  rw [hm]
  rfl

/-- A function's descriptor ends with ABORTED (R337). -/
theorem exec_mailboxTimeout_fn {n : Fin 2048} {m : Mail} {k : Nat} (hm : s.mail[n.val]? = some m) (hsrc : m.src < 8)
    (hat : s.jobAt m.q m.idx = some k) :
    exec (.mailboxTimeout n) s = .next ((s.unanswered n (m.t + 1000000000)).jobDone m.q k 5 0 0) := by
  rw [exec_mailboxTimeout hm, if_pos hsrc]
  generalize m.t + 1000000000 = u
  rw [State.unanswered_jobAt, hat]

/-- Its exchange is gone, and its descriptor has ended. -/
theorem State.unanswered_ends {q k : Nat} {j : Job} (hj : (s.qp q).jobs[k]? = some j) (n u : Nat) :
    ((s.unanswered n u).jobDone q k 5 0 0).mail = s.mail.eraseIdx n ∧
    (((s.unanswered n u).jobDone q k 5 0 0).qp q).jobs[k]? = some (j.ended 5 0 0) ∧
    ((s.unanswered n u).jobDone q k 5 0 0).now = max s.now u ∧ SameFields s ((s.unanswered n u).jobDone q k 5 0 0) [] := by
  have hends := State.jobDone_ends (s := s.unanswered n u) (q := q) (n := k) (status := 5) hj (Or.inl (by decide)) 0 0
  refine ⟨?_, hends.job, ?_, fun f i hf => ?_⟩
  · rw [hends.mail, State.unanswered_mail]
  · rw [hends.now, State.unanswered_now]
  · rw [hends.sameFields f i hf, State.unanswered_rd]

end

/-- Settles O42, by what the request is; and the exchange that nobody answers, by who sent it. -/
theorem mailboxExchangesCarryOneRequestAndOneReply : Obligations.MailboxExchangesCarryOneRequestAndOneReply := by
  unfold Obligations.MailboxExchangesCarryOneRequestAndOneReply
  refine ⟨?empty, ?fault, ?known, ?short, ?unknown, ?timeout, ?helm⟩
  case empty =>
    intro q n r j s h hlen
    obtain ⟨t, ht, hends⟩ := exec_mailbox_ends h (Or.inl ⟨hlen, rfl⟩)
    exact ⟨t, ht, hends.job, hends.mail, hends.sameFields⟩
  case fault =>
    intro q n j s h hlen
    obtain ⟨t, ht, hends⟩ := exec_mailbox_ends h (Or.inr ⟨hlen, rfl, rfl⟩)
    exact ⟨t, ht, hends.job, hends.mail, hends.sameFields⟩
  case known =>
    intro q n r j s h hlen hlong hk
    rw [exec_mailbox_request r h hlen, if_pos (mailBounce_known hlong hk)]
    exact ex_next ⟨State.setJob_job (State.mayStart_job h) _, fun _ _ _ => rfl, rfl⟩
  case short =>
    intro q r j s h honly hlen hshort hlimit hn
    have hb := mailBounce_short hshort
    obtain ⟨t, ht, hj, hm, ho⟩ := exec_mailbox_bounced h honly hlen (by rw [hb]; decide) hlimit hn
    exact ⟨t, ht, hj, hm, by rw [ho, hb]⟩
  case unknown =>
    intro q r j s h honly hlen hlong hk hlimit hn
    have hb := mailBounce_unknown hlong hk
    obtain ⟨t, ht, hj, hm, ho⟩ := exec_mailbox_bounced h honly hlen (by rw [hb]; decide) hlimit hn
    exact ⟨t, ht, hj, hm, by rw [ho, hb]⟩
  case timeout =>
    intro n m k j s hm hsrc hat hj
    exact ⟨_, exec_mailboxTimeout_fn hm hsrc hat, State.unanswered_ends hj _ _⟩
  case helm =>
    intro n m s hm hsrc
    rw [exec_mailboxTimeout hm, if_neg (Nat.not_lt.mpr hsrc)]
    generalize m.t + 1000000000 = u
    refine ex_next ⟨rfl, ?_, State.unanswered_now n u, fun f i _ => ?_⟩
    · rw [State.setHelm_helmRt, if_pos rfl]
    · rw [State.setHelm_rd _ _ _ rfl, State.unanswered_rd]

/-! PROOFS. The Sextant's steps, sets, rate and control, and the TIME descriptors (R336, R353, R355, R356, R367, R369, R370). -/

/-! ## Requests -/

section
variable {s : State} {r : SxReq} {w : Writer} {force : Bool}

theorem State.sxCheck_sxq (s : State) (l : List SxReq) (r : SxReq) : ({ s with sxq := l } : State).sxCheck r = s.sxCheck r := rfl

theorem State.sxCheck_lt (s : State) (r : SxReq) : s.sxCheck r < 4 := by
  unfold State.sxCheck
  dsimp only
  split
  · decide
  · split
    · decide
    · split
      · decide
      · split
        · decide
        · decide

/-- The state in which a request is accepted now (R355). -/
noncomputable def State.sxAccepted (s : State) (r : SxReq) : State := { s.wr .SX_STEP_CMD_BUSY [] 1 with sxq := [{ r with t := some s.now }] }

/-- The state in which a request is refused with code `c` (R355). -/
noncomputable def State.sxRefused (s : State) (r : SxReq) (c : Nat) : State :=
  (((({ s with sxq := [] } : State).wr .SX_STAT_STEP_REF [] 1).wr .SX_STAT_REF_CODE [] c).raise .SX_STAT [] 355 2 [c, r.src]).sxJob r 7

/-- With nothing waiting a request is checked at once (R355). -/
theorem State.sxRequest_empty (hq : s.sxq = []) (ht : r.t = none) :
    s.sxRequest r = if s.sxCheck r = 0 then s.sxAccepted r else s.sxRefused r (s.sxCheck r) := by
  unfold State.sxRequest
  rw [hq]
  change State.sxNext { s with sxq := [r] } 1 = _
  unfold State.sxNext
  dsimp only
  rw [ht, if_neg (by decide), State.sxCheck_sxq]
  split
  · rfl
  · rfl

theorem State.sxAccepted_sameFields : SameFields s (s.sxAccepted r) [(.SX_STEP_CMD_BUSY, [])] :=
  (State.wr_sameFields s .SX_STEP_CMD_BUSY [] 1).of_rd fun _ _ => rfl

theorem State.sxAccepted_busy : (s.sxAccepted r).rd .SX_STEP_CMD_BUSY [] = 1 :=
  (State.rd_wr_same s .SX_STEP_CMD_BUSY [] 1).trans rfl

/-- A request that no descriptor made has no descriptor to end. -/
theorem State.sxJob_none (h : r.src ≠ 1) (status : Nat) : s.sxJob r status = s := if_neg h

theorem State.sxRefused_none (h : r.src ≠ 1) (c : Nat) : s.sxRefused r c =
    ((({ s with sxq := [] } : State).wr .SX_STAT_STEP_REF [] 1).wr .SX_STAT_REF_CODE [] c).raise .SX_STAT [] 355 2 [c, r.src] :=
  State.sxJob_none h 7

theorem State.sxRefused_result (h : r.src ≠ 1) {c : Nat} (hc : c < 4) : (s.sxRefused r c).rd .SX_STAT_STEP_REF [] = 1 ∧
    (s.sxRefused r c).local_ = s.local_ ∧ (s.sxRefused r c).sxq = [] ∧ (s.sxRefused r c).rd .SX_STAT_REF_CODE [] = c ∧
    SameFields s (s.sxRefused r c) [(.SX_STAT_STEP_REF, []), (.SX_STAT_REF_CODE, [])] := by
  have hw : (Fld.spec .SX_STAT_REF_CODE).width = 3 := rfl
  rw [State.sxRefused_none h]
  refine ⟨?_, rfl, rfl, ?_, ?_⟩
  · rw [State.raise_rd _ _ _ _ _ _ rfl, State.rd_wr_fld _ _ _ _ _ _ (by decide), State.rd_wr_same]
    rfl
  · rw [State.raise_rd _ _ _ _ _ _ rfl, State.rd_wr_same, hw]
    exact Nat.mod_eq_of_lt (by omega)
  · refine SameFields.of_rd ?_ fun f i => State.raise_rd _ _ _ _ _ _ rfl
    exact (((SameFields.refl s _).of_rd (u := { s with sxq := [] }) fun _ _ => rfl).wr (by simp) _).wr (by simp) _

/-! ## The step commands -/

/-- The request that a write of `SX_STEP_CMD` makes (R355, R370). -/
noncomputable def State.stepReq (s : State) (w : Writer) (set_ force : Bool) : SxReq :=
  { set_ := set_, val := s.sxStepVal set_, force := force, src := if w = .binnacle then 2 else 0 }

theorem State.stepReq_src (s : State) (w : Writer) (set_ force : Bool) : (s.stepReq w set_ force).src ≠ 1 := by
  unfold State.stepReq
  dsimp only
  split
  · decide
  · decide

theorem State.sxStepCmd_of (h : s.reaches w .SX_STEP_CMD [] = true) (cmd : Nat) : s.sxStepCmd w cmd force =
    if s.sxWriter w = false ∨ s.on .SX_STEP_CMD_BUSY [] then s.drop w .SX_STEP_CMD [] (cmd + (if force then 4 else 0))
    else s.sxRequest (s.stepReq w (cmd == 2) force) := by
  unfold State.sxStepCmd
  dsimp only
  rw [State.reach_of h]
  rfl

theorem exec_step (h : s.reaches w .SX_STEP_CMD [] = true) (hw : s.sxWriter w = true) (hb : s.on .SX_STEP_CMD_BUSY [] = false) :
    exec (.step_ w force) s = .next (s.sxRequest (s.stepReq w false force)) :=
  congrArg Host.Outcome.next ((State.sxStepCmd_of h 1).trans (if_neg (by simp [hw, hb])))

theorem exec_set (h : s.reaches w .SX_STEP_CMD [] = true) (hw : s.sxWriter w = true) (hb : s.on .SX_STEP_CMD_BUSY [] = false) :
    exec (.set_ w force) s = .next (s.sxRequest (s.stepReq w true force)) :=
  congrArg Host.Outcome.next ((State.sxStepCmd_of h 2).trans (if_neg (by simp [hw, hb])))

theorem exec_set_busy (h : s.reaches w .SX_STEP_CMD [] = true) (hb : s.on .SX_STEP_CMD_BUSY [] = true) :
    exec (.set_ w force) s = .next (s.drop w .SX_STEP_CMD [] (2 + (if force then 4 else 0))) :=
  congrArg Host.Outcome.next ((State.sxStepCmd_of h 2).trans (if_pos (Or.inr hb)))

/-! ## The apply -/

/-- Every tap takes the time `new` (R289, R356). -/
noncomputable def State.tapsTake (s : State) (new : Nat) : State :=
  (List.range 28).foldl (fun s b => s.wr .CL_BND_STAT_GRID [b] 0)
    { s with local_ := new, sxq := [], anchorE := s.now, anchorT := new / nsUnit, stepN := s.stepN + 1 }

/-- 20 ns later the request is complete (R356). -/
noncomputable def State.stepComplete (s : State) : State :=
  (((s.lapse 20).wr .SX_STAT_VALID [] 1).incr .SX_STAT_STEPS []).wr .SX_STEP_CMD_BUSY [] 0

/-- The time that a request gives the taps (R356). -/
noncomputable def State.sxNew (s : State) (r : SxReq) : Nat :=
  ((if r.set_ then r.val * fracUnit else (s.local_ : Int) + r.val * fracUnit) % (localWrap : Int)).toNat

theorem exec_stepApply {u : Nat} (hq : s.sxq = [r]) (ht : r.t = some u) : exec .stepApply s =
    .next ((((s.lapseTo (u + 1000)).tapsTake ((s.lapseTo (u + 1000)).sxNew r)).stepComplete.sxJob r 0).sxNext 1) := by
  change execStepApply s = _
  unfold execStepApply
  rw [hq]
  dsimp only
  rw [ht]
  rfl

theorem State.sxNext_empty (h : s.sxq = []) (n : Nat) : s.sxNext n = s := by
  cases n with
  | zero => rfl
  | succ n =>
    unfold State.sxNext
    rw [h]

/-! ### What the apply leaves -/

theorem State.tapsTake_eq (new : Nat) : ∃ m, s.tapsTake new =
    { s with local_ := new, sxq := [], anchorE := s.now, anchorT := new / nsUnit, stepN := s.stepN + 1, regs := m } :=
  rel_foldl (R := fun t => ∃ m, t = { s with local_ := new, sxq := [], anchorE := s.now, anchorT := new / nsUnit, stepN := s.stepN + 1, regs := m })
    (f := fun s b => s.wr .CL_BND_STAT_GRID [b] 0) (fun t b ht => by obtain ⟨m, rfl⟩ := ht; exact ⟨_, rfl⟩) _ ⟨s.regs, rfl⟩

theorem State.tapsTake_rd (new : Nat) {f : Fld} (hf : Fld.CL_BND_STAT_GRID ≠ f) (i : List Nat) : (s.tapsTake new).rd f i = s.rd f i :=
  (State.rd_foldl_keep (fun _ _ => State.rd_wr_fld _ _ _ _ _ _ hf) _ _).trans rfl

theorem State.tapsTake_grid (new : Nat) (b : Fin 28) : (s.tapsTake new).rd .CL_BND_STAT_GRID [b] = 0 := by
  unfold State.tapsTake
  refine State.rd_foldl_once (x := b.val) (fun u => ?_) _ (fun y _ hne u => State.rd_wr_lane hne) _
    (Or.inl (List.mem_range.mpr b.isLt))
  rw [State.rd_wr_same]
  exact Nat.zero_mod _

theorem State.stepComplete_fields : s.stepComplete.rd .SX_STAT_VALID [] = 1 ∧ s.stepComplete.rd .SX_STEP_CMD_BUSY [] = 0 ∧
    s.stepComplete.rd .SX_STAT_STEPS [] = (s.rd .SX_STAT_STEPS [] + 1) % 2 ^ Fld.SX_STAT_STEPS.spec.width := by
  unfold State.stepComplete
  refine ⟨?_, ?_, ?_⟩
  · unfold State.incr
    simp (disch := decide) only [State.rd_wr_fld, State.rd_wr_same]
    rfl
  · rw [State.rd_wr_same]
    rfl
  · rw [State.rd_wr_fld _ _ _ _ _ _ (by decide), State.incr_same, State.rd_wr_fld _ _ _ _ _ _ (by decide)]
    rfl

theorem State.stepComplete_rd {f : Fld} (h1 : Fld.SX_STAT_VALID ≠ f) (h2 : Fld.SX_STAT_STEPS ≠ f) (h3 : Fld.SX_STEP_CMD_BUSY ≠ f)
    (i : List Nat) : s.stepComplete.rd f i = s.rd f i := by
  unfold State.stepComplete State.incr
  rw [State.rd_wr_fld _ _ _ _ _ _ h3, State.rd_wr_fld _ _ _ _ _ _ h2, State.rd_wr_fld _ _ _ _ _ _ h1]
  rfl

theorem State.stepComplete_now : s.stepComplete.now = s.now + 20 := rfl

theorem State.stepComplete_sxq : s.stepComplete.sxq = s.sxq := rfl

theorem State.stepComplete_qps : s.stepComplete.qps = s.qps := rfl

theorem State.stepComplete_local (h : s.clocksUp = true) : s.stepComplete.local_ = (s.local_ + 20 * s.rateUnits) % localWrap :=
  if_pos h

theorem State.rateUnits_of_rd {t : State} (h : t.rd .SX_ADJ_RATE [] = s.rd .SX_ADJ_RATE []) : t.rateUnits = s.rateUnits := by
  unfold State.rateUnits
  rw [h]

/-! ### The whole apply -/

/-- The state in which the request of the taps is complete, before its descriptor ends. -/
noncomputable def State.stepDone (s : State) (r : SxReq) (u : Nat) : State :=
  ((s.lapseTo (u + 1000)).tapsTake ((s.lapseTo (u + 1000)).sxNew r)).stepComplete

theorem State.sxJob_sxq (status : Nat) : (s.sxJob r status).sxq = s.sxq :=
  State.sxJob_keeps (Keeps.part (p := .sxq) rfl (by rintro ⟨⟩) s) s r status rfl

theorem State.sxJob_now (status : Nat) : (s.sxJob r status).now = s.now :=
  State.sxJob_keeps (Keeps.part (p := .now) rfl (by rintro ⟨⟩) s) s r status rfl

theorem State.sxJob_local (status : Nat) : (s.sxJob r status).local_ = s.local_ :=
  State.sxJob_keeps (Keeps.part (p := .local_) rfl (by rintro ⟨⟩) s) s r status rfl

theorem State.tapsTake_sxq (new : Nat) : (s.tapsTake new).sxq = [] := by
  obtain ⟨m, hm⟩ := s.tapsTake_eq new
  rw [hm]

theorem State.tapsTake_now (new : Nat) : (s.tapsTake new).now = s.now := by
  obtain ⟨m, hm⟩ := s.tapsTake_eq new
  rw [hm]

theorem State.tapsTake_local (new : Nat) : (s.tapsTake new).local_ = new := by
  obtain ⟨m, hm⟩ := s.tapsTake_eq new
  rw [hm]

theorem State.tapsTake_clocksUp (new : Nat) : (s.tapsTake new).clocksUp = s.clocksUp := by
  obtain ⟨m, hm⟩ := s.tapsTake_eq new
  rw [hm]

theorem State.tapsTake_qps (new : Nat) : (s.tapsTake new).qps = s.qps := by
  obtain ⟨m, hm⟩ := s.tapsTake_eq new
  rw [hm]

theorem exec_stepApply_done {u : Nat} (hq : s.sxq = [r]) (ht : r.t = some u) :
    exec .stepApply s = .next ((s.stepDone r u).sxJob r 0) := by
  have hempty : ((s.stepDone r u).sxJob r 0).sxq = [] := by
    rw [State.sxJob_sxq, State.stepDone, State.stepComplete_sxq, State.tapsTake_sxq]
  exact (exec_stepApply hq ht).trans (congrArg Host.Outcome.next (State.sxNext_empty hempty 1))

theorem State.lapseTo_clocksUp (u : Nat) : (s.lapseTo u).clocksUp = s.clocksUp := rfl

theorem State.lapseTo_qps (u : Nat) : (s.lapseTo u).qps = s.qps := rfl

theorem State.stepDone_local (hup : s.clocksUp = true) (u : Nat) :
    (s.stepDone r u).local_ = ((s.lapseTo (u + 1000)).sxNew r + 20 * s.rateUnits) % localWrap := by
  have hrate : ((s.lapseTo (u + 1000)).tapsTake ((s.lapseTo (u + 1000)).sxNew r)).rateUnits = s.rateUnits :=
    State.rateUnits_of_rd (by rw [State.tapsTake_rd _ (by decide), State.lapseTo_rd _ _ rfl])
  unfold State.stepDone
  rw [State.stepComplete_local (by rw [State.tapsTake_clocksUp, State.lapseTo_clocksUp, hup]), State.tapsTake_local, hrate]

theorem State.stepDone_now (u : Nat) : (s.stepDone r u).now = max s.now (u + 1000) + 20 := by
  rw [State.stepDone, State.stepComplete_now, State.tapsTake_now, State.lapseTo_now]

theorem State.stepDone_fields (u : Nat) : (s.stepDone r u).rd .SX_STAT_VALID [] = 1 ∧ (s.stepDone r u).rd .SX_STEP_CMD_BUSY [] = 0 ∧
    (s.stepDone r u).rd .SX_STAT_STEPS [] = (s.rd .SX_STAT_STEPS [] + 1) % 2 ^ Fld.SX_STAT_STEPS.spec.width := by
  obtain ⟨hv, hb, hn⟩ := State.stepComplete_fields (s := (s.lapseTo (u + 1000)).tapsTake ((s.lapseTo (u + 1000)).sxNew r))
  refine ⟨hv, hb, hn.trans ?_⟩
  rw [State.tapsTake_rd _ (by decide), State.lapseTo_rd _ _ rfl]

theorem State.stepDone_qps (u : Nat) : (s.stepDone r u).qps = s.qps := by
  rw [State.stepDone, State.stepComplete_qps, State.tapsTake_qps, State.lapseTo_qps]

/-- A set gives the taps its own time (R356). -/
theorem State.sxNew_set {v : Nat} (hset : r.set_ = true) (hv : r.val = v) : s.sxNew r = v * fracUnit % localWrap := by
  unfold State.sxNew
  rw [hset, if_pos rfl, hv]
  generalize localWrap = m
  generalize fracUnit = n
  rw [← Int.natCast_mul, ← Int.natCast_emod, Int.toNat_natCast]

end

/-! ## Rate and control -/

section
variable {s : State} {w : Writer} {v : BitVec 32}

theorem exec_sxAdjWrite (h : s.reaches w .SX_ADJ [] = true) : exec (.sxAdjWrite w v) s = .next
    (if s.sxWriter w = false ∨ s.adjClosed w then s.drop w .SX_ADJ [] v.toNat else s.wr .SX_ADJ_RATE [] v.toNat) :=
  congrArg Host.Outcome.next (State.reach_of h ..)

/-- The fields of `SX_CTL` but its `MODE`, after a write of `x` (R369). -/
noncomputable def State.sxCtlTaken (s : State) (x : Nat) : State :=
  (((((((s.wr .SX_CTL_SERVO [] (bitsOf x 5 1)).wr .SX_CTL_SYNTONISE [] (bitsOf x 6 1)).wr .SX_CTL_MODE [] (bitsOf x 0 2)).wr
    .SX_CTL_OC_PORT [] (bitsOf x 2 1)).wr .SX_CTL_DELAY [] (bitsOf x 3 1)).wr .SX_CTL_TRANSPORT [] (bitsOf x 4 1)).wr
    .SX_CTL_DOMAIN [] (bitsOf x 8 8))

theorem exec_sxCtlWrite (h : s.reaches w .SX_CTL [] = true) (hw : s.sxWriter w = true) (hm : s.rd .SX_CTL_MODE [] = 0) :
    exec (.sxCtlWrite w v) s = .next (if 128 ≤ bitsOf v.toNat 8 8 then
      (s.sxCtlTaken v.toNat).raise .SX_CTL [] 369 2 [bitsOf v.toNat 8 8] else s.sxCtlTaken v.toNat) :=
  congrArg Host.Outcome.next ((State.reach_of h ..).trans ((if_neg (by simp [hw])).trans (if_pos (Or.inl hm))))

theorem bitsOf_lt (x a n : Nat) : bitsOf x a n < 2 ^ n := Nat.mod_lt _ (Nat.two_pow_pos n)

theorem State.sxCtlTaken_fields (s : State) (x : Nat) : (s.sxCtlTaken x).rd .SX_CTL_MODE [] = bitsOf x 0 2 ∧
    (s.sxCtlTaken x).rd .SX_CTL_OC_PORT [] = bitsOf x 2 1 ∧ (s.sxCtlTaken x).rd .SX_CTL_DELAY [] = bitsOf x 3 1 ∧
    (s.sxCtlTaken x).rd .SX_CTL_TRANSPORT [] = bitsOf x 4 1 ∧ (s.sxCtlTaken x).rd .SX_CTL_SERVO [] = bitsOf x 5 1 ∧
    (s.sxCtlTaken x).rd .SX_CTL_SYNTONISE [] = bitsOf x 6 1 ∧ (s.sxCtlTaken x).rd .SX_CTL_DOMAIN [] = bitsOf x 8 8 := by
  unfold State.sxCtlTaken
  refine ⟨?_, ?_, ?_, ?_, ?_, ?_, ?_⟩ <;> simp (disch := decide) only [State.rd_wr_fld, State.rd_wr_same]
  all_goals exact Nat.mod_eq_of_lt (bitsOf_lt _ _ _)

end

/-! ## TIME descriptors -/

section
variable {s : State} {q : Fin 1024} {n sub : Nat} {j : Job}

theorem State.runTime_of (h : s.mayStart q n 0x40 j = true) (hsub : bitsOf (dWord j.d 6) 0 4 = sub)
    (k : Nat → Nat → Nat → State → State) :
    s.runTime q sub k = k n j.d (s.rd .HIF_QP_ASSIGN_FN [q]) (s.setJob q n { j with st := 1 }) := by
  unfold State.runTime
  rw [(State.mayStart_iff.mp h).1]
  exact (if_pos hsub).trans (State.startOp_of h k)

/-- The 16-byte time record (R336). -/
noncomputable def State.timeRecord (s : State) : List Byte :=
  natLe (tNS s.time16) 4 ++ natLe (tSEC s.time16) 6 ++ natLe (tFRAC s.time16) 2 ++ natLe 0 4

theorem exec_timeRead (h : s.mayStart q n 0x40 j = true) (hsub : bitsOf (dWord j.d 6) 0 4 = 1) : exec (.timeRead q) s =
    .next (((s.setJob q n { j with st := 1 }).hostData (s.rd .HIF_QP_ASSIGN_FN [q]) (dDST j.d) s.timeRecord).jobDone q n 0 0 16) :=
  congrArg Host.Outcome.next (State.runTime_of h hsub _)

theorem exec_timeStep_denied (h : s.mayStart q n 0x40 j = true) (hsub : bitsOf (dWord j.d 6) 0 4 = 2)
    (hf : isAdmin (s.rd .HIF_QP_ASSIGN_FN [q]) = false) :
    exec (.timeStep q) s = .next ((s.setJob q n { j with st := 1 }).jobDone q n 1 0 0) :=
  congrArg Host.Outcome.next ((State.runTime_of h hsub _).trans (if_pos hf))

/-- The request of a TIME_STEP descriptor (R336). -/
noncomputable def timeStepReq (q : Nat) (j : Job) : SxReq :=
  { set_ := false, val := sint64 (bitsOf j.d 256 64) * 2 ^ 16 + bitsOf j.d 320 16, force := (dWord j.d 6).testBit 8, src := 1,
    q := q, idx := j.idx }

theorem exec_timeStep (h : s.mayStart q n 0x40 j = true) (hsub : bitsOf (dWord j.d 6) 0 4 = 2)
    (hf : isAdmin (s.rd .HIF_QP_ASSIGN_FN [q]) = true) :
    exec (.timeStep q) s = .next ((s.setJob q n { j with st := 1 }).sxRequest (timeStepReq q j)) := by
  have hjob := State.setJob_job (State.mayStart_job h) { j with st := 1 }
  refine congrArg Host.Outcome.next ((State.runTime_of h hsub _).trans ((if_neg (by simp [hf])).trans ?_))
  dsimp only
  rw [hjob]
  rfl

theorem exec_timeAdjust (h : s.mayStart q n 0x40 j = true) (hsub : bitsOf (dWord j.d 6) 0 4 = 3)
    (hf : isAdmin (s.rd .HIF_QP_ASSIGN_FN [q]) = true) : exec (.timeAdjust q) s = .next
      (if s.adjClosed .other then (s.setJob q n { j with st := 1 }).jobDone q n 7 0 0
      else ((s.setJob q n { j with st := 1 }).wr .SX_ADJ_RATE [] (dWord j.d 8)).jobDone q n 0 0 0) :=
  congrArg Host.Outcome.next ((State.runTime_of h hsub _).trans (if_neg (by simp [hf])))

theorem State.Ends.sxq {t : State} {q n : Nat} (h : s.Ends t q n j) : t.sxq = s.sxq := by
  obtain ⟨m, c, rfl⟩ := h.rest
  rfl

/-- A descriptor that starts and ends in one go. -/
theorem State.start_ends (h : (s.qp q).jobs[n]? = some j) {status : Nat} (hs : status ≠ 0 ∨ dNOCMP j.d = false) (detail bytes : Nat) :
    s.Ends ((s.setJob q n { j with st := 1 }).jobDone q n status detail bytes) q n (j.ended status detail bytes) :=
  (State.setJob_ends h { j with st := 1 }).trans (State.running_ends (State.setJob_job h _) hs detail bytes)

end

/-- Settles O44: the checks of a request, its apply, the rate and control writes, and the TIME descriptors. -/
theorem timeStepsAreCheckedQueuedAndApplied : Obligations.TimeStepsAreCheckedQueuedAndApplied := by
  unfold Obligations.TimeStepsAreCheckedQueuedAndApplied
  refine ⟨?step, ?set, ?refused, ?busy, ?applySet, ?applyStep, ?applyJob, ?adj, ?adjClosed, ?ctl, ?read, ?denied, ?timeStep,
    ?adjust, ?adjustClosed⟩
  case step =>
    intro w force s h hw hb hq hc
    have hc' : s.sxCheck (s.stepReq w false force) = 0 := hc
    rw [exec_step h hw hb, State.sxRequest_empty hq rfl, if_pos hc']
    exact ex_next ⟨State.sxAccepted_busy, rfl, rfl, State.sxAccepted_sameFields⟩
  case set =>
    intro w force s h hw hb hq hc
    have hc' : s.sxCheck (s.stepReq w true force) = 0 := hc
    rw [exec_set h hw hb, State.sxRequest_empty hq rfl, if_pos hc']
    exact ex_next ⟨State.sxAccepted_busy, rfl, rfl, State.sxAccepted_sameFields⟩
  case refused =>
    intro w force s h hw hb hq hc
    have hc' : s.sxCheck (s.stepReq w false force) ≠ 0 := hc
    rw [exec_step h hw hb, State.sxRequest_empty hq rfl, if_neg hc']
    exact ex_next (State.sxRefused_result (s.stepReq_src w false force) (s.sxCheck_lt _))
  case busy =>
    intro w force s h hb
    exact ⟨_, exec_set_busy h hb, rfl, rfl, State.drop_sameFields _ _ _ _ _⟩
  case applySet =>
    intro r u v s hq ht hset hv hup
    obtain ⟨hvalid, hbusy, hsteps⟩ := State.stepDone_fields (s := s) (r := r) u
    refine ⟨_, exec_stepApply_done hq ht, ?_, ?_, ?_, ?_, ?_, ?_, fun b => ?_⟩
    · rw [State.sxJob_sxq, State.stepDone, State.stepComplete_sxq, State.tapsTake_sxq]
    · rw [State.sxJob_rd _ _ _ rfl, hvalid]
    · rw [State.sxJob_rd _ _ _ rfl, hbusy]
    · rw [State.sxJob_rd _ _ _ rfl, hsteps]
    · rw [State.sxJob_now, State.stepDone_now]
    · rw [State.sxJob_local, State.stepDone_local hup, State.sxNew_set hset hv]
    · rw [State.sxJob_rd _ _ _ rfl, State.stepDone, State.stepComplete_rd (by decide) (by decide) (by decide), State.tapsTake_grid]
  case applyStep =>
    intro r u s hq ht hset hup
    obtain ⟨hvalid, hbusy, -⟩ := State.stepDone_fields (s := s) (r := r) u
    refine ⟨_, exec_stepApply_done hq ht, ?_, ?_, ?_, ?_⟩
    · rw [State.sxJob_sxq, State.stepDone, State.stepComplete_sxq, State.tapsTake_sxq]
    · rw [State.sxJob_rd _ _ _ rfl, hvalid]
    · rw [State.sxJob_rd _ _ _ rfl, hbusy]
    · rw [State.sxJob_local, State.stepDone_local hup, State.sxNew, hset, if_neg (by decide)]
  case applyJob =>
    intro r u k j s hq ht hsrc hat hj hn
    have hqp : (s.stepDone r u).qp r.q = s.qp r.q := by
      unfold State.qp
      rw [State.stepDone_qps]
    have hat' : (s.stepDone r u).jobAt r.q r.idx = some k := by
      unfold State.jobAt
      rwa [hqp]
    have hends := State.jobDone_ends (s := s.stepDone r u) (q := r.q) (n := k) (j := j) (status := 0) (by rwa [hqp]) (Or.inr hn) 0 0
    have hjob : (s.stepDone r u).sxJob r 0 = (s.stepDone r u).jobDone r.q k 0 0 0 := by
      unfold State.sxJob
      rw [if_pos hsrc, hat']
    rw [exec_stepApply_done hq ht, hjob]
    refine ex_next ⟨?_, hends.job⟩
    rw [hends.sxq, State.stepDone, State.stepComplete_sxq, State.tapsTake_sxq]
  case adj =>
    intro w v s h hw hopen
    have hwidth : (Fld.spec .SX_ADJ_RATE).width = 32 := rfl
    rw [exec_sxAdjWrite h, if_neg (by simp [hw, hopen])]
    refine ex_next ⟨?_, State.wr_sameFields s .SX_ADJ_RATE [] v.toNat⟩
    rw [State.rd_wr_same, hwidth]
    exact Nat.mod_eq_of_lt v.isLt
  case adjClosed =>
    intro w v s h hclosed
    rw [exec_sxAdjWrite h, if_pos (Or.inr hclosed)]
    exact ex_next (State.drop_sameFields _ _ _ _ _)
  case ctl =>
    intro w v s h hw hm
    rw [exec_sxCtlWrite h hw hm]
    split
    · refine ex_next ?_
      simp only [State.raise_rd _ _ _ _ _ _ rfl]
      exact s.sxCtlTaken_fields _
    · exact ex_next (s.sxCtlTaken_fields _)
  case read =>
    intro q n j s h hsub hn
    have hjob := State.setJob_job (State.mayStart_job h) { j with st := 1 }
    rw [exec_timeRead h hsub, State.hostData_eq]
    have hends := State.running_ends (q := q) (n := n) (j := j) (status := 0)
      (s := { s.setJob q n { j with st := 1 } with
        out := .hostWrite (portOf (s.rd .HIF_QP_ASSIGN_FN [q])) (s.rd .HIF_QP_ASSIGN_FN [q]) (dDST j.d)
          ((s.setJob q n { j with st := 1 }).on .HIF_FN_CTL_RO_DATA [s.rd .HIF_QP_ASSIGN_FN [q]]) s.timeRecord ::
          (s.setJob q n { j with st := 1 }).out }) hjob (Or.inr hn) 0 16
    exact ex_next ⟨hends.job, fun f i hf => hends.sameFields f i hf, hends.out⟩
  case denied =>
    intro q n j s h hsub hf
    have hends := State.start_ends (status := 1) (State.mayStart_job h) (Or.inl (by decide)) 0 0
    exact ⟨_, exec_timeStep_denied h hsub hf, hends.job, hends.sxq, hends.sameFields⟩
  case timeStep =>
    intro q n j s h hsub hf hq hc
    have hc' : (s.setJob q n { j with st := 1 }).sxCheck (timeStepReq q j) = 0 := hc
    have hq' : (s.setJob q n { j with st := 1 }).sxq = [] := hq
    rw [exec_timeStep h hsub hf, State.sxRequest_empty hq' rfl, if_pos hc']
    exact ex_next ⟨State.setJob_job (State.mayStart_job h) _, State.sxAccepted_busy, rfl⟩
  case adjust =>
    intro q n j s h hsub hf hopen hn
    have hwidth : (Fld.spec .SX_ADJ_RATE).width = 32 := rfl
    have hends := State.running_ends (s := (s.setJob q n { j with st := 1 }).wr .SX_ADJ_RATE [] (dWord j.d 8)) (q := q) (n := n)
      (j := j) (status := 0) (State.setJob_job (State.mayStart_job h) { j with st := 1 }) (Or.inr hn) 0 0
    rw [exec_timeAdjust h hsub hf, if_neg (Bool.eq_false_iff.mp hopen)]
    refine ex_next ⟨hends.job, ?_, fun f i hfi => ?_⟩
    · rw [hends.sameFields _ _ List.not_mem_nil, State.rd_wr_same, hwidth]
      exact Nat.mod_eq_of_lt (bitsOf_lt _ _ _)
    · rw [hends.sameFields _ _ List.not_mem_nil, State.rd_wr_ne hfi, State.setJob_rd _ _ _ _ rfl]
  case adjustClosed =>
    intro q n j s h hsub hf hclosed
    have hends := State.start_ends (status := 7) (State.mayStart_job h) (Or.inl (by decide)) 0 0
    rw [exec_timeAdjust h hsub hf, if_pos hclosed]
    exact ex_next ⟨hends.job, hends.sameFields⟩

/-! PROOFS. Running descriptors and the BAR4 window (R18, R320, R330, R331, R333, R344). -/

/-! ## Lines of a running descriptor -/

section
variable {s u : State} {q : Fin 1024} {n : Fin 64} {x : BitVec 512} {a b : Fin 4} {c : Bool} {j : Job} {st dt : Nat}

/-- What the host or the user design answers to a line. -/
def lineEnv (x : BitVec 512) (a b : Fin 4) (c : Bool) : LineEnv := { data := x.toNat, rd := a, wr := b, fault := c }

/-- A descriptor that moves lines has one left to move, and its function may master the bus (R319, R330). -/
def State.moves (s : State) (q n : Nat) (j : Job) : Prop :=
  (s.qp q).jobs[n]? = some j ∧ j.st = 1 ∧ [1, 2, 3, 0x10, 0x13].contains (dOPC j.d) = true ∧ j.n < j.lines ∧
    s.on .HIF_FN_STAT_BME [s.rd .HIF_QP_ASSIGN_FN [q]] = true

theorem exec_dmaLineComplete (h : s.moves q n j)
    (hm : s.moveLine (s.rd .HIF_QP_ASSIGN_FN [q]) j (lineEnv x a b c) = (st, dt, u)) : exec (.dmaLineComplete q n x a b c) s =
      if st ≠ 0 then .next (u.jobDone q n st dt (64 * j.n))
      else if j.n + 1 = j.lines then
        .next ((if dOPC j.d = 0x13 then
          (u.setJob q n { j with n := j.n + 1 }).wr .FC_RING_RD_COUNT [dWord j.d 6]
            ((u.setJob q n { j with n := j.n + 1 }).rd .FC_RING_RD_COUNT [dWord j.d 6] + j.k)
          else u.setJob q n { j with n := j.n + 1 }).jobDone q n 0 0 (64 * j.lines))
      else .next (u.setJob q n { j with n := j.n + 1 }) := by
  obtain ⟨hj, hst, hop, hn, hbme⟩ := h
  change execDmaLineComplete q n x a b c s = _
  unfold execDmaLineComplete
  dsimp only
  rw [hj]
  dsimp only
  rw [if_pos ⟨hst, hop, hn, hbme⟩]
  unfold lineEnv at hm
  rw [hm]

theorem exec_dmaLineComplete_halted (hbme : s.on .HIF_FN_STAT_BME [s.rd .HIF_QP_ASSIGN_FN [q]] = false) :
    exec (.dmaLineComplete q n x a b c) s = .next s := by
  change execDmaLineComplete q n x a b c s = _
  unfold execDmaLineComplete
  dsimp only
  split
  · rfl
  · exact if_neg fun h => by simp [hbme] at h

theorem State.moveLine_qps {f : Nat} {v : LineEnv} (hm : s.moveLine f j v = (st, dt, u)) : u.qps = s.qps :=
  State.moveLine_keeps_of (Keeps.part (p := .qps) rfl (by decide) s) s f j v rfl hm

theorem State.moveLine_job {f q n : Nat} {v : LineEnv} (hm : s.moveLine f j v = (st, dt, u)) (hj : (s.qp q).jobs[n]? = some j) :
    (u.qp q).jobs[n]? = some j := by
  unfold State.qp
  rw [State.moveLine_qps hm]
  exact hj

theorem State.moveLine_ringRd {f : Nat} {v : LineEnv} (hm : s.moveLine f j v = (st, dt, u)) (i : List Nat) :
    u.rd .FC_RING_RD_COUNT i = s.rd .FC_RING_RD_COUNT i :=
  State.moveLine_keeps_of (Keeps.rd (f := .FC_RING_RD_COUNT) rfl i (s.rd .FC_RING_RD_COUNT i)) s f j v rfl hm

theorem State.jobDone_sameMemory (s : State) (q n c e k : Nat) : SameMemory s (s.jobDone q n c e k) :=
  ⟨State.jobDone_keeps (Keeps.part (p := .hbm) rfl (by decide) s) s q n c e k rfl,
    State.jobDone_keeps (Keeps.part (p := .poison) rfl (by decide) s) s q n c e k rfl,
    State.jobDone_keeps (Keeps.part (p := .win) rfl (by decide) s) s q n c e k rfl,
    State.jobDone_keeps (Keeps.part (p := .flash) rfl (by decide) s) s q n c e k rfl⟩

/-- The last line of a descriptor other than a drain (R330). -/
theorem exec_dmaLineComplete_last (h : s.moves q n j) (hm : s.moveLine (s.rd .HIF_QP_ASSIGN_FN [q]) j (lineEnv x a b c) = (0, dt, u))
    (hl : j.n + 1 = j.lines) (hop : dOPC j.d ≠ 0x13) :
    exec (.dmaLineComplete q n x a b c) s = .next ((u.setJob q n { j with n := j.n + 1 }).jobDone q n 0 0 (64 * j.lines)) := by
  rw [exec_dmaLineComplete h hm, if_neg (by simp), if_pos hl, if_neg hop]

/-- The last line of a drain: the ring's read count advances by its records (R333). -/
theorem exec_dmaLineComplete_drained (h : s.moves q n j)
    (hm : s.moveLine (s.rd .HIF_QP_ASSIGN_FN [q]) j (lineEnv x a b c) = (0, dt, u)) (hl : j.n + 1 = j.lines)
    (hop : dOPC j.d = 0x13) : exec (.dmaLineComplete q n x a b c) s =
      .next (((u.setJob q n { j with n := j.n + 1 }).wr .FC_RING_RD_COUNT [dWord j.d 6]
        (s.rd .FC_RING_RD_COUNT [dWord j.d 6] + j.k)).jobDone q n 0 0 (64 * j.lines)) := by
  rw [exec_dmaLineComplete h hm, if_neg (by simp), if_pos hl, if_pos hop, ← State.moveLine_ringRd hm]
  rfl

theorem State.qp_wr (s : State) (f : Fld) (i : List Nat) (v q : Nat) : (s.wr f i v).qp q = s.qp q := by
  unfold State.qp
  rw [State.wr_qps]

theorem State.jobDone_wr_ringRd {e v : Nat} (hv : v < 2 ^ 32) (s : State) (q n c d k : Nat) :
    ((s.wr .FC_RING_RD_COUNT [e] v).jobDone q n c d k).rd .FC_RING_RD_COUNT [e] = v :=
  (State.jobDone_rd _ _ _ _ _ _ rfl).trans ((State.rd_wr_same _ _ _ _).trans (Nat.mod_eq_of_lt hv))

theorem exec_dmaLineComplete_earlier (h : s.moves q n j)
    (hm : s.moveLine (s.rd .HIF_QP_ASSIGN_FN [q]) j (lineEnv x a b c) = (0, dt, u)) (hl : j.n + 1 < j.lines) :
    exec (.dmaLineComplete q n x a b c) s = .next (u.setJob q n { j with n := j.n + 1 }) := by
  rw [exec_dmaLineComplete h hm, if_neg (by simp), if_neg (by omega)]

/-- A host error of H2D moves nothing (R330). -/
theorem State.moveLine_fault {f : Nat} {v : LineEnv} (hop : dOPC j.d = 1) (hv : v.fault = true) : s.moveLine f j v = (8, 0, s) := by
  simp only [State.moveLine, hop]
  rw [if_pos hv]

/-- D2H of a line of an engine window sends the line as the window holds it (R97, R330). -/
theorem State.moveLine_window {f e o : Nat} {v : LineEnv} (hop : dOPC j.d = 2) (hp : placeOf (dSRC j.d + 64 * j.n) = .window e o)
    (hu : s.usable e f = true) (hmap : s.mapStatus (ringMst f) (dSRC j.d + 64 * j.n) = 0)
    (hbm : s.on .FC_STATUS_BM_BUSY [e] = false) :
    s.moveLine f j v = (0, 0, s.hostLine f (dDST j.d + 64 * j.n) (s.winRead e (o / 64 * 64) 64)) := by
  have hr : s.lineRead f (dSRC j.d + 64 * j.n) v = (s.winRead e (o / 64 * 64) 64, 0, s) := by
    unfold State.lineRead State.lineRefused lineMst State.gRead
    rw [hp]
    dsimp only
    rw [if_neg (by rw [hu]; simp), if_neg (by rw [hmap]; simp), if_neg (by rw [hbm]; simp)]
  simp only [State.moveLine, hop, hr]
  rw [if_pos trivial]

/-- The host sees the line, and memory stays. -/
theorem exec_dmaLineComplete_window {f e o : Nat} (h : s.moves q n j) (hf : s.rd .HIF_QP_ASSIGN_FN [q] = f) (hop : dOPC j.d = 2)
    (hm : s.moveLine f j (lineEnv x a b c) = (0, 0, s.hostLine f (dDST j.d + 64 * j.n) (s.winRead e o 64))) :
    ∃ t, exec (.dmaLineComplete q n x a b c) s = .next t ∧
      t.out = .hostWrite (portOf f) f ((dDST j.d + 64 * j.n) % 2 ^ 64) (s.on .HIF_FN_CTL_RO_DATA [f]) (natLe (s.winRead e o 64) 64) ::
        s.out ∧ SameMemory s t := by
  subst hf
  unfold State.hostLine at hm
  rw [State.hostData_eq] at hm
  generalize hw : Out.hostWrite _ _ _ _ _ = w at hm ⊢
  by_cases hl : j.n + 1 = j.lines
  · refine ⟨_, exec_dmaLineComplete_last h hm hl (by rw [hop]; decide),
      State.jobDone_keeps (Keeps.part (p := .out) rfl (by decide) _) _ q n 0 0 _ rfl, ?_⟩
    exact State.jobDone_sameMemory _ _ _ _ _ _
  · have hlt : j.n < j.lines := h.2.2.2.1
    exact ⟨_, exec_dmaLineComplete_earlier h hm (by omega), rfl, rfl, rfl, rfl, rfl⟩

end

/-! ## The BAR4 window (R320) -/

section
variable {s : State} {f : Fin 8} {off : BitVec 36} {g lo m : Nat}

/-- An access within one line begins at its byte of that line. -/
theorem linePieces_start {a n : Nat} (h : linePieces a n = [(g, lo, m)]) : g + lo = a := by
  have hhead := congrArg (fun l : List (Nat × Nat × Nat) => l.head?.map fun x => x.1 + x.2.1) h
  unfold linePieces at hhead
  split at hhead
  · cases hhead
  · rw [List.range_succ_eq_map] at hhead
    have hle : a / 64 * 64 ≤ a := Nat.div_mul_le_self a 64
    have hsum : (a / 64 + 0) * 64 + (max a ((a / 64 + 0) * 64) - (a / 64 + 0) * 64) = g + lo := Option.some.inj hhead
    rw [← hsum, Nat.add_zero, max_eq_left hle]
    exact Nat.add_sub_of_le hle

theorem exec_bar4Read {k : Fin 4097} (h : linePieces (s.bar4 f off.toNat) k = [(g, lo, m)]) :
    exec (.bar4Read f off k) s = .next ((({ (s.gRead (bridgeMst (portOf f) f) g (0, 0)).2.2 with
      answer := leNat (if (s.gRead (bridgeMst (portOf f) f) g (0, 0)).2.1 = 0 then
        ((natLe (s.gRead (bridgeMst (portOf f) f) g (0, 0)).1 64).drop lo).take m else List.replicate m 0xFF) } : State)).emit
      (.readReply f (leNat (if (s.gRead (bridgeMst (portOf f) f) g (0, 0)).2.1 = 0 then
        ((natLe (s.gRead (bridgeMst (portOf f) f) g (0, 0)).1 64).drop lo).take m else List.replicate m 0xFF)) 0)) := by
  change execBar4Read f off k s = _
  unfold execBar4Read
  dsimp only
  rw [h]
  rfl

theorem exec_bar4Write_inReset {bs : List (BitVec 8)} (h : s.on .HIF_FN_STAT_FLR_BUSY [f] = true) :
    exec (.bar4Write f off bs) s = .next s := if_pos h

/-- A write within one line. -/
theorem exec_bar4Write {bs : List (BitVec 8)} (h : s.on .HIF_FN_STAT_FLR_BUSY [f] = false)
    (hl : linePieces (s.bar4 f off.toNat) bs.length = [(g, lo, m)]) : exec (.bar4Write f off bs) s =
      .next (if m = 64 then (s.gWrite (bridgeMst (portOf f) f) g (leNat (bs.take m)) false 0).2
        else if (s.gRead (bridgeMst (portOf f) f) g (0, 0)).2.1 = 0 then
          ((s.gRead (bridgeMst (portOf f) f) g (0, 0)).2.2.gWrite (bridgeMst (portOf f) f) g
            (mergeLine (s.gRead (bridgeMst (portOf f) f) g (0, 0)).1 lo (bs.take m)) false 0).2
        else (s.gRead (bridgeMst (portOf f) f) g (0, 0)).2.2.raise .HIF_BAR4 [f] 320 2
          [f, g, (s.gRead (bridgeMst (portOf f) f) g (0, 0)).2.1]) := by
  change execBar4Write f off bs s = _
  unfold execBar4Write
  rw [if_neg (by rw [h]; decide)]
  dsimp only
  rw [hl, ← linePieces_start hl]
  simp only [List.foldl_cons, List.foldl_nil, Nat.sub_self, List.drop_zero]

theorem State.emit_sameMemory (s : State) (o : Out) : SameMemory s (s.emit o) :=
  ⟨State.emit_keeps (Keeps.part (p := .hbm) rfl (by decide) s) s o rfl,
    State.emit_keeps (Keeps.part (p := .poison) rfl (by decide) s) s o rfl,
    State.emit_keeps (Keeps.part (p := .win) rfl (by decide) s) s o rfl,
    State.emit_keeps (Keeps.part (p := .flash) rfl (by decide) s) s o rfl⟩

theorem State.refuse19_sameMemory (s : State) (w : Mst) (g c : Nat) : SameMemory s (s.refuse19 w g c) := ⟨rfl, rfl, rfl, rfl⟩

/-- A read that the address map refuses (R19). -/
theorem State.gRead_refused {w : Mst} {c : Nat} {env : Nat × Nat} (hmap : s.mapStatus w g = c) (hc : c ≠ 0) :
    s.gRead w g env = (ones512, c, s.refuse19 w g c) := by
  unfold State.gRead
  rw [hmap]
  exact if_pos hc

end

/-- Settles O41: a line's result decides between the three ends of `exec_dmaLineComplete`, and a BAR4 access within one line is
one access of the address map. -/
theorem runningDescriptorsMoveTheirLines : Obligations.RunningDescriptorsMoveTheirLines := by
  unfold Obligations.RunningDescriptorsMoveTheirLines
  refine ⟨?hostFault, ?fails, ?earlier, ?last, ?drained, ?window, ?halted, ?read, ?readRefused, ?inReset, ?writeRefused, ?whole,
    ?part⟩
  case hostFault =>
    intro q n x a b j s hj hst hop hn hbme
    have hm := State.moveLine_fault (s := s) (f := s.rd .HIF_QP_ASSIGN_FN [q]) (v := lineEnv x a b true) hop rfl
    have hx := exec_dmaLineComplete ⟨hj, hst, by rw [hop]; decide, hn, hbme⟩ hm
    rw [if_pos (by decide)] at hx
    exact ⟨_, hx, (State.jobDone_ends hj (Or.inl (by decide)) _ _).job, State.jobDone_sameMemory _ _ _ _ _ _⟩
  case fails =>
    intro q n x a b c j s hj hst hop hn hbme hc
    generalize hm : s.moveLine (s.rd .HIF_QP_ASSIGN_FN [q]) j _ = r at hc ⊢
    obtain ⟨st, dt, u⟩ := r
    have hx := exec_dmaLineComplete ⟨hj, hst, hop, hn, hbme⟩ hm
    rw [if_pos hc] at hx
    exact ⟨_, hx, (State.jobDone_ends (State.moveLine_job hm hj) (Or.inl hc) _ _).job⟩
  case earlier =>
    intro q n x a b c j s hj hst hop hn hbme hc
    generalize hm : s.moveLine (s.rd .HIF_QP_ASSIGN_FN [q]) j _ = r at hc
    obtain ⟨st, dt, u⟩ := r
    obtain rfl : st = 0 := hc
    exact ⟨_, exec_dmaLineComplete_earlier ⟨hj, hst, hop, by omega, hbme⟩ hm hn, State.setJob_job (State.moveLine_job hm hj) _⟩
  case last =>
    intro q n x a b c j s hj hst hop hn hbme hcmp hc
    generalize hm : s.moveLine (s.rd .HIF_QP_ASSIGN_FN [q]) j _ = r at hc
    obtain ⟨st, dt, u⟩ := r
    obtain rfl : st = 0 := hc
    have hset := State.setJob_job (State.moveLine_job hm hj) { j with n := j.n + 1 }
    by_cases hd : dOPC j.d = 0x13
    · exact ⟨_, exec_dmaLineComplete_drained ⟨hj, hst, hop, by omega, hbme⟩ hm hn hd,
        (State.jobDone_ends (j := { j with n := j.n + 1 }) ((congrArg (·.jobs[n.val]?) (State.qp_wr _ _ _ _ q)).trans hset)
          (Or.inr hcmp) _ _).job⟩
    · exact ⟨_, exec_dmaLineComplete_last ⟨hj, hst, hop, by omega, hbme⟩ hm hn hd,
        (State.jobDone_ends (j := { j with n := j.n + 1 }) hset (Or.inr hcmp) _ _).job⟩
  case drained =>
    intro q n x a b c j s hj hst hop hn hbme hk hc
    generalize hm : s.moveLine (s.rd .HIF_QP_ASSIGN_FN [q]) j _ = r at hc
    obtain ⟨st, dt, u⟩ := r
    obtain rfl : st = 0 := hc
    exact ⟨_, exec_dmaLineComplete_drained ⟨hj, hst, by rw [hop]; decide, by omega, hbme⟩ hm hn hop,
      State.jobDone_wr_ringRd hk _ _ _ _ _ _⟩
  case window =>
    intro q n x a b e o j s hj hst hop hn hbme hp _ hu hmap hbm
    exact exec_dmaLineComplete_window ⟨hj, hst, by rw [hop]; decide, hn, hbme⟩ rfl hop
      (State.moveLine_window hop hp hu hmap hbm)
  case halted => exact fun q n x a b c s h => ⟨s, exec_dmaLineComplete_halted h, rfl⟩
  case read =>
    intro f off k g lo m s hl hc
    refine ⟨_, exec_bar4Read hl, ?_⟩
    rw [if_pos hc]
    exact State.emit_keeps (Keeps.part (p := .answer) rfl (by decide) _) _ _ rfl
  case readRefused =>
    intro f off k g lo m s hl hc
    refine ⟨_, exec_bar4Read hl, ?_⟩
    rw [State.gRead_refused rfl hc, if_neg hc]
    exact ⟨State.emit_keeps (Keeps.part (p := .answer) rfl (by decide) _) _ _ rfl, State.emit_sameMemory _ _⟩
  case inReset => exact fun f off bs s h => ⟨s, exec_bar4Write_inReset h, rfl⟩
  case writeRefused =>
    intro f off bs g lo m s hflr hl hc
    refine ⟨_, exec_bar4Write hflr hl, ?_⟩
    rw [State.gRead_refused rfl hc, State.gWrite_refused rfl hc, if_neg hc]
    split
    · exact ⟨fun f i _ => State.raise_rd _ _ _ _ _ _ rfl, State.refuse19_sameMemory _ _ _ _⟩
    · exact ⟨fun f i _ => (State.raise_rd _ _ _ _ _ _ rfl).trans (State.raise_rd _ _ _ _ _ _ rfl), rfl, rfl, rfl, rfl⟩
  case whole =>
    intro f off bs g s hflr hl
    exact ⟨_, (exec_bar4Write hflr hl).trans (congrArg _ (if_pos rfl)), rfl⟩
  case part =>
    intro f off bs g lo m s hflr hl hm hc
    exact ⟨_, (exec_bar4Write hflr hl).trans (congrArg _ ((if_neg hm).trans (if_pos hc))), rfl⟩

/-! PROOFS. The opcodes of the queue pairs: how each descriptor begins or ends (R329 to R333, R335, R338). -/

/-! ## A lane's slip register over the data plane (R313, R335) -/

section
variable {s : State} {w : Writer} {v : Nat} {env : RegEnv}

/-- A lane of a bundle that is up slips; its deskew is no longer aligned (R313). -/
noncomputable def State.slipped (s : State) (l v : Nat) : State :=
  (s.wr .CL_STAT_SLIP_POS [l] ((s.rd .CL_STAT_SLIP_POS [l] + v) % s.laneW l)).wr .CL_STAT_REALIGN [l] 0

theorem exec_laneSlip_reached {l : Fin 224} {c : BitVec 9} (h : s.reaches w .CL_SLIP [l] = true) (hc : c.toNat ≠ 0) :
    execLaneSlip w l c s = .next (if s.bndState (l.val / 8) = 4 ∧ s.laneBusy l = false then s.slipped l c.toNat
      else s.drop w .CL_SLIP [l] c.toNat) :=
  congrArg Host.Outcome.next ((State.reach_of h ..).trans (if_neg hc))

theorem clSlip_reaches (hm : s.mute w = false) (hup : s.up 0 = true) : s.reaches w .CL_SLIP [0] = true := by
  have hsite : Reg.CL_SLIP.site [0] = 0 := by decide
  have hhub : Reg.CL_SLIP.hubGlobal [0] = false := by decide
  have hinfra : Reg.CL_SLIP.infra = false := by decide
  simp [State.reaches, hm, hsite, hup, hhub, hinfra]

theorem clSlip_accepted : s.rejects w .CL_SLIP [0] v = false := by
  have haddr : Reg.CL_SLIP.addr [0] = 0x111000C := by decide
  simp [State.rejects, haddr, State.engRejects, State.ringRejects, State.sealRejects, State.laneRejects, State.helmRejects,
    Reg.engSetup]

theorem clSlip_written (hv : v < 512) (h0 : v ≠ 0) (hm : s.mute w = false) (hup : s.up 0 = true) :
    (s.storeFields w .CL_SLIP [0] v).written w .CL_SLIP [0] v env s =
      if s.bndState 0 = 4 ∧ s.laneBusy 0 = false then s.slipped 0 v else s.drop w .CL_SLIP [0] v := by
  have hst : s.storeFields w .CL_SLIP [0] v = s := rfl
  have hwr : s.written w .CL_SLIP [0] v env s = (execLaneSlip w 0 (BitVec.ofNat 9 v) s).after s := rfl
  have hv9 : (BitVec.ofNat 9 v).toNat = v := by simp; omega
  rw [hst, hwr, exec_laneSlip_reached (clSlip_reaches hm hup) (by rw [hv9]; exact h0), hv9]
  rfl

/-- A write of `CL_SLIP` of lane 0 slips the lane or is dropped. -/
theorem State.write32_clSlip (hv : v < 512) (h0 : v ≠ 0) (hm : s.mute w = false) (hup : s.up 0 = true)
    (hst : s.rd .BOOT_STAT_STAGE [] ≠ 15) : s.write32 w 0x111000C v env =
      if s.bndState 0 = 4 ∧ s.laneBusy 0 = false then s.slipped 0 v else s.drop w .CL_SLIP [0] v := by
  have hreg : regHere 0x111000C = some (.CL_SLIP, [0]) := by decide +kernel
  have hun : s.unserved 0x111000C = false := by simp [State.unserved, hst]
  have hw : s.writeReg w .CL_SLIP [0] v env = s.reach w .CL_SLIP [0] v fun s =>
      if s.rejects w .CL_SLIP [0] v then s.drop w .CL_SLIP [0] v
      else (s.storeFields w .CL_SLIP [0] v).written w .CL_SLIP [0] v env s := rfl
  unfold State.write32
  rw [if_neg (by simp [hm, hun]), if_neg (by decide), if_neg (by decide), hreg]
  dsimp only
  rw [hw, State.reach_of (clSlip_reaches hm hup), clSlip_accepted, if_neg (by decide), clSlip_written hv h0 hm hup]

/-- A dropped write stands in the steward's queue. -/
theorem drop_logged (hq : s.stewards = []) : dropLogged ((s.drop w .CL_SLIP [0] v).steward 0) = true := by
  have hst : s.steward 0 = {} := by
    unfold State.steward
    rw [hq]
    rfl
  have hsite : Reg.CL_SLIP.site [0] = 0 := by decide
  unfold State.drop State.raiseFixed dropLogged
  dsimp only
  rw [hsite, State.push_queue (by rw [hst]; decide) (by rw [hst]) (by rw [hst]), hst]
  simp

/-- One slip of lane 0 by LANE_CMD: refused while the bundle is not up or an engine holds the lane (R335). -/
theorem State.lanePair_clSlip {f : Nat} (hv : v < 512) (h0 : v ≠ 0) (hup : s.up 0 = true) (hst : s.rd .BOOT_STAT_STAGE [] ≠ 15) :
    s.lanePair f 0 0x11000C v env = if s.bndState 0 = 4 ∧ s.laneBusy 0 = false then (true, s.slipped 0 v)
      else (false, s.drop (.ring (Fin.ofNat 8 f)) .CL_SLIP [0] v) := by
  have hbare : ({ s with stewards := [] } : State).write32 (.ring (Fin.ofNat 8 f)) 0x111000C v env =
      if s.bndState 0 = 4 ∧ s.laneBusy 0 = false then ({ s with stewards := [] } : State).slipped 0 v
      else ({ s with stewards := [] } : State).drop (.ring (Fin.ofNat 8 f)) .CL_SLIP [0] v :=
    State.write32_clSlip (s := { s with stewards := [] }) hv h0 rfl hup hst
  unfold State.lanePair
  dsimp only
  rw [show dieBase 0 + 0x11000C = 0x111000C from rfl, hbare, State.write32_clSlip hv h0 rfl hup hst]
  split
  · rfl
  · rw [drop_logged rfl]
    rfl

end

/-! ## The descriptors -/

section
variable {s u : State} {q n opc : Nat} {j : Job}

/-- A descriptor that runs has its lines to move. -/
theorem State.jobLines_ends {k size base : Nat} (h : (u.qp q).jobs[n]? = some { j with st := 1 }) :
    u.Ends (u.jobLines q n k size base) q n { j with st := 1, k := k, size := size, base := base, n := 0 } := by
  unfold State.jobLines
  rw [h]
  exact State.setJob_ends h _

theorem State.runNop_ends (h : s.mayStart q n opc j = true) (hn : dNOCMP j.d = false) :
    s.Ends (s.runNop q opc) q n (j.ended 0 0 0) :=
  State.startOp_ends h fun _ hu _ => State.running_ends hu (Or.inr hn) 0 0

theorem State.runNop_leaves (h : s.mayStart q 0 opc j = true) (hn : dNOCMP j.d = true) (hj : (s.qp q).jobs = [j]) :
    ((s.runNop q opc).qp q).jobs = [] ∧ (s.runNop q opc).rd .HIF_QP_DONE_CNT_COUNT [q] =
      min (s.rd .HIF_QP_DONE_CNT_COUNT [q] + 1) 0xFFFFFFFF := by
  have hset : ((s.setJob q 0 { j with st := 1 }).qp q).jobs = [{ j with st := 1 }] := by
    rw [State.setJob_qp, hj]
    rfl
  unfold State.runNop
  rw [State.startOp_of h, ← State.setJob_rd s q 0 { j with st := 1 } rfl]
  exact State.jobDone_leaves hset hn 0 0

theorem State.runMove_zero (h : s.mayStart q n opc j = true) (hl : dLEN j.d = 0) : s.Ends (s.runMove q opc) q n (j.ended 4 0 0) :=
  State.startOp_ends h fun _ hu _ => by
    rw [if_pos hl]
    exact State.running_ends hu (Or.inl (by decide)) 0 0

theorem State.runMove_lines (h : s.mayStart q n opc j = true) (hl : dLEN j.d ≠ 0) :
    s.Ends (s.runMove q opc) q n { j with st := 1, k := dLEN j.d / 64, size := 64, base := 0, n := 0 } :=
  State.startOp_ends h fun _ hu _ => by
    rw [if_neg hl]
    exact State.jobLines_ends hu

/-- Starting a descriptor leaves the registers. -/
theorem State.Ends.rd {i : Job} (h : s.Ends u q n i) (f : Fld) (x : List Nat) : u.rd f x = s.rd f x :=
  h.sameFields f x List.not_mem_nil

theorem State.Ends.up {i : Job} (h : s.Ends u q n i) (k : Nat) : u.up k = s.up k := by
  unfold State.up
  rw [h.rd]

theorem State.Ends.usable {i : Job} (h : s.Ends u q n i) (e f : Nat) : u.usable e f = s.usable e f := by
  obtain ⟨m, c, rfl⟩ := h.rest
  rfl

/-- The engine of a descriptor decides what it ends with (R331, R333). -/
theorem State.engineFor_down {e f : Nat} {k : State → State} (hu : (u.qp q).jobs[n]? = some { j with st := 1 })
    (hup : u.up (engDie e) = false) : u.Ends (u.engineFor q n e f k) q n (j.ended 2 e 0) := by
  rw [show u.engineFor q n e f k = u.jobDone q n 2 e 0 from if_pos hup]
  exact State.running_ends hu (Or.inl (by decide)) e 0

theorem State.engineFor_denied {e f : Nat} {k : State → State} (hu : (u.qp q).jobs[n]? = some { j with st := 1 })
    (hup : u.up (engDie e) = true) (huse : u.usable e f = false) : u.Ends (u.engineFor q n e f k) q n (j.ended 1 e 0) := by
  rw [show u.engineFor q n e f k = u.jobDone q n 1 e 0 from (if_neg (by rw [hup]; simp)).trans (if_pos huse)]
  exact State.running_ends hu (Or.inl (by decide)) e 0

theorem State.engineFor_good {e f : Nat} {k : State → State} (hup : u.up (engDie e) = true) (huse : u.usable e f = true) :
    u.engineFor q n e f k = k u :=
  (if_neg (by rw [hup]; simp)).trans (if_neg (by rw [huse]; simp))

/-- What ENG_LOAD does when it starts (R331). -/
def loadStart (q n d f : Nat) (s : State) : State :=
  s.engineFor q n (dWord d 6) f fun s => if dLEN d = 0 then s.jobDone q n 4 0 0 else s.jobLines q n (dLEN d / 64) 64 0

/-! ## FAIL_DRAIN (R333) -/

/-- What FAIL_DRAIN does when it starts. -/
noncomputable def drainStart (q n d f : Nat) (s : State) : State :=
  s.engineFor q n (dWord d 6) f fun s =>
    let k := if s.ringLog2 (dWord d 6) = 0 then 0 else min (dLEN d / s.recSize (dWord d 6)) (s.ringLevel (dWord d 6))
    if k = 0 then s.jobDone q n 0 0 0 else s.jobLines q n k (s.recSize (dWord d 6)) (s.rd .FC_RING_RD_COUNT [dWord d 6])

theorem exec_failDrain {q : Fin 1024} (h : s.mayStart q n 0x13 j = true) (hd : s.draining (dWord j.d 6) = false) :
    exec (.failDrain q) s = .next (s.startOp q 0x13 (drainStart q)) := by
  change execFailDrain q s = _
  unfold execFailDrain
  rw [(State.mayStart_iff.mp h).1]
  dsimp only
  rw [hd, if_neg (by decide)]
  rfl

theorem exec_failDrain_waits {q : Fin 1024} (h : s.nextJob q = some (n, j)) (hd : s.draining (dWord j.d 6) = true) :
    exec (.failDrain q) s = .next s := by
  change execFailDrain q s = _
  unfold execFailDrain
  rw [h]
  exact if_pos hd

theorem exec_failDrain_other {q : Fin 1024} (h : (s.nextJob q).all (fun x => dOPC x.2.d != 0x13) = true) :
    exec (.failDrain q) s = .next s := by
  change execFailDrain q s = _
  unfold execFailDrain
  split
  next => rfl
  next =>
    split
    next => rfl
    next => exact congrArg Host.Outcome.next (State.startOp_other h _)

/-- A drain of an empty ring ends at once. -/
theorem drainStart_empty {f : Nat} (hu : (u.qp q).jobs[n]? = some { j with st := 1 }) (hup : u.up (engDie (dWord j.d 6)) = true)
    (huse : u.usable (dWord j.d 6) f = true) (hl : u.ringLevel (dWord j.d 6) = 0) (hn : dNOCMP j.d = false) :
    u.Ends (drainStart q n j.d f u) q n (j.ended 0 0 0) := by
  unfold drainStart
  rw [State.engineFor_good hup huse]
  dsimp only
  rw [hl, Nat.min_zero, ite_self, if_pos rfl]
  exact State.running_ends hu (Or.inr hn) 0 0

theorem drainStart_runs {e f : Nat} (hu : (u.qp q).jobs[n]? = some { j with st := 1 }) (he : dWord j.d 6 = e)
    (hup : u.up (engDie e) = true) (huse : u.usable e f = true) (hlog : u.ringLog2 e ≠ 0) (hl : u.ringLevel e ≠ 0)
    (hr : u.recSize e ≤ dLEN j.d) : u.Ends (drainStart q n j.d f u) q n { j with
      st := 1, k := min (dLEN j.d / u.recSize e) (u.ringLevel e), size := u.recSize e, base := u.rd .FC_RING_RD_COUNT [e], n := 0 } := by
  subst he
  have hpos : 0 < u.recSize (dWord j.d 6) := by unfold State.recSize; split <;> decide
  have hdiv := Nat.div_pos hr hpos
  unfold drainStart
  rw [State.engineFor_good hup huse]
  dsimp only
  rw [if_neg hlog, if_neg (by omega)]
  exact State.jobLines_ends hu

/-! ## ENG_START and ENG_STOP (R332) -/

/-- The command that ENG_START and ENG_STOP give to an engine. -/
noncomputable def startCmd (d e : Nat) (w : Writer) (s : State) : State :=
  if d.testBit 288 then s.engCmd w e 2 (·.engStart e true) [0, 6, 7, 8] else s.engCmd w e 1 (·.engStart e false) [0, 6, 7, 8]

noncomputable def stopCmd (d e : Nat) (w : Writer) (s : State) : State :=
  if d.testBit 288 then s.engCmd w e 7 (·.engReset e) [0, 1, 2, 3, 4, 5, 6, 7, 8] else s.engCmd w e 3 (·.engStop e) [1, 2, 3, 4, 5]

/-- The checks of one engine that is in service, usable, and in a state where it can start. -/
theorem State.engChecks_one {e f : Nat} {start : Bool} (hup : s.up (engDie e) = true) (huse : s.usable e f = true)
    (hst : start = true → [0, 6, 7, 8].contains (s.estate e) = true) : s.engChecks [e] f start = none := by
  have h3 : (start && !([0, 6, 7, 8].contains (s.estate e))) = false := by
    cases start with
    | false => rfl
    | true => rw [hst rfl]; rfl
  unfold State.engChecks
  simp only [List.find?_cons, hup, huse, h3, Bool.not_true, List.find?_nil]

theorem State.runEngines_fails {c e : Nat} {cmd : Nat → Nat → Writer → State → State} (h : s.mayStart q n opc j = true)
    (hc : s.engChecks (maskEngines j.d) (s.rd .HIF_QP_ASSIGN_FN [q]) (opc == 0x11) = some (c, e)) (h0 : c ≠ 0) :
    s.Ends (s.runEngines q opc cmd) q n (j.ended c e 0) :=
  State.startOp_ends h fun u hu hset => by
    have hc' : u.engChecks (maskEngines j.d) (s.rd .HIF_QP_ASSIGN_FN [q]) (opc == 0x11) = some (c, e) := by
      obtain ⟨m, c', rfl⟩ := hset.rest
      exact hc
    dsimp only
    rw [hc']
    exact State.running_ends hu (Or.inl h0) e 0

theorem State.runEngines_one {e : Nat} {f : Fin 8} {cmd : Nat → Nat → Writer → State → State} (h : s.mayStart q n opc j = true)
    (hf : s.rd .HIF_QP_ASSIGN_FN [q] = f.val) (hm : maskEngines j.d = [e])
    (hc : s.engChecks [e] f (opc == 0x11) = none) :
    s.runEngines q opc cmd = cmd j.d e (.ring f) (s.setJob q n { j with st := 1 }) := by
  have hc' : (s.setJob q n { j with st := 1 }).engChecks [e] f (opc == 0x11) = none := hc
  unfold State.runEngines
  rw [State.startOp_of h, hf]
  dsimp only
  rw [hm, hc']
  dsimp only
  rw [dif_pos f.isLt]
  rfl

theorem State.engStart_job {e : Nat} {arm : Bool} {i : Option Job} (h : (s.qp q).jobs[n]? = i) :
    ((s.engStart e arm).qp q).jobs[n]? = i := by
  have hq : (s.engStart e arm).qps = s.qps := State.engStart_keeps (Keeps.part (p := .qps) rfl (by decide) s) s e arm rfl
  unfold State.qp
  rw [hq]
  exact h

theorem State.engStop_job {e : Nat} {i : Option Job} (h : (s.qp q).jobs[n]? = i) : ((s.engStop e).qp q).jobs[n]? = i := by
  have hq : (s.engStop e).qps = s.qps := State.engStop_keeps (Keeps.part (p := .qps) rfl (by decide) s) s e rfl
  unfold State.qp
  rw [hq]
  exact h

/-- ENG_START gives its engine the command that the descriptor names (R332). -/
theorem exec_engStart {q : Fin 1024} {e : Fin 96} {f : Fin 8} (h : s.mayStart q n 0x11 j = true)
    (hf : s.rd .HIF_QP_ASSIGN_FN [q] = f.val) (hm : maskEngines j.d = [e.val]) (hup : s.up (engDie e) = true)
    (huse : s.usable e f = true) (hst : [0, 6, 7, 8].contains (s.estate e) = true)
    (hr : s.reaches (.ring f) .ENG_CTL [e] = true) :
    exec (.engStart q) s = .next ((s.setJob q n { j with st := 1 }).engStart e (j.d.testBit 288)) := by
  have hr' : (s.setJob q n { j with st := 1 }).reaches (.ring f) .ENG_CTL [e] = true := hr
  have hst' : [0, 6, 7, 8].contains ((s.setJob q n { j with st := 1 }).estate e) = true := hst
  refine congrArg Host.Outcome.next ((State.runEngines_one h hf hm (State.engChecks_one hup huse fun _ => hst)).trans ?_)
  split
  next hb => rw [hb]; exact State.engCmd_acts hr' hst'
  next hb =>
    rw [Bool.not_eq_true] at hb
    rw [hb]
    exact State.engCmd_acts hr' hst'

theorem exec_engStop {q : Fin 1024} {e : Fin 96} {f : Fin 8} (h : s.mayStart q n 0x12 j = true)
    (hf : s.rd .HIF_QP_ASSIGN_FN [q] = f.val) (hm : maskEngines j.d = [e.val]) (hup : s.up (engDie e) = true)
    (huse : s.usable e f = true) (hst : [1, 2, 3, 4, 5].contains (s.estate e) = true)
    (hr : s.reaches (.ring f) .ENG_CTL [e] = true) (hb : j.d.testBit 288 = false) :
    exec (.engStop q) s = .next ((s.setJob q n { j with st := 1 }).engStop e) := by
  have hr' : (s.setJob q n { j with st := 1 }).reaches (.ring f) .ENG_CTL [e] = true := hr
  have hst' : [1, 2, 3, 4, 5].contains ((s.setJob q n { j with st := 1 }).estate e) = true := hst
  refine congrArg Host.Outcome.next ((State.runEngines_one h hf hm (State.engChecks_one hup huse fun h => by cases h)).trans ?_)
  rw [if_neg (by rw [hb]; simp)]
  exact State.engCmd_acts hr' hst'

/-! ## LANE_CMD (R335) -/

/-- What LANE_CMD does when it starts. -/
noncomputable def laneStart (q j d f : Nat) (s : State) : State :=
  if dWord d 6 / 16 % 8 = 0 then s.jobDone q j 4 0 0
  else if s.up (dWord d 6 % 8) = false then (s.deadAccess (.ring (Fin.ofNat 8 f)) .HUB_DIE_STATE [dWord d 6 % 8]).jobDone q j 2 0 0
  else
    let (bad, s) := s.lanePairs f (dWord d 6 % 8) d noEnv (dWord d 6 / 16 % 8) 0
    match bad with
    | some i => s.jobDone q j 7 i 0
    | none => if (dWord d 6).testBit 8 then s.jobWaits q j else s.jobDone q j 0 0 0

theorem exec_laneCmd {q : Fin 1024} : exec (.laneCmd q) s = .next (s.startOp q 0x30 (laneStart q)) := rfl

theorem laneStart_none {f : Nat} (hu : (u.qp q).jobs[n]? = some { j with st := 1 }) (hc : bitsOf (dWord j.d 6) 4 3 = 0) :
    u.Ends (laneStart q n j.d f u) q n (j.ended 4 0 0) := by
  rw [show laneStart q n j.d f u = u.jobDone q n 4 0 0 from if_pos hc]
  exact State.running_ends hu (Or.inl (by decide)) 0 0

/-- A lane of a die out of service (R23, R335). -/
theorem laneStart_dead {f : Nat} (hu : (u.qp q).jobs[n]? = some { j with st := 1 }) (hc : bitsOf (dWord j.d 6) 4 3 ≠ 0)
    (hup : u.up (dWord j.d 6 % 8) = false) : ((laneStart q n j.d f u).qp q).jobs[n]? = some (j.ended 2 0 0) ∧
      SameFields u (laneStart q n j.d f u) [] := by
  have hx : laneStart q n j.d f u =
      (u.deadAccess (.ring (Fin.ofNat 8 f)) .HUB_DIE_STATE [dWord j.d 6 % 8]).jobDone q n 2 0 0 := (if_neg hc).trans (if_pos hup)
  have hends := State.running_ends (s := u.deadAccess (.ring (Fin.ofNat 8 f)) .HUB_DIE_STATE [dWord j.d 6 % 8]) (q := q) (n := n)
    hu (status := 2) (Or.inl (by decide)) 0 0
  rw [hx]
  exact ⟨hends.job, fun g x _ => (hends.rd g x).trans (State.deadAccess_rd _ _ _ _ rfl)⟩

/-- One pair, and no wait. -/
theorem laneStart_one {f v : Nat} (h6 : dWord j.d 6 = 0x10) (hup : u.up 0 = true) (h8 : dWord j.d 8 = 0x11000C)
    (h9 : dWord j.d 9 = v) (h0 : 1 ≤ v) (hv : v < 512) (hst : u.rd .BOOT_STAT_STAGE [] ≠ 15) : laneStart q n j.d f u =
      if u.bndState 0 = 4 ∧ u.laneBusy 0 = false then (u.slipped 0 v).jobDone q n 0 0 0
      else (u.drop (.ring (Fin.ofNat 8 f)) .CL_SLIP [0] v).jobDone q n 7 0 0 := by
  unfold laneStart
  rw [h6, if_neg (by decide), if_neg (by rw [hup]; decide)]
  rw [show (0x10 / 16 % 8 : Nat) = 0 + 1 from rfl]
  unfold State.lanePairs
  rw [show 8 + 2 * 0 = 8 from rfl, show 9 + 2 * 0 = 9 from rfl, h8, h9]
  rw [State.lanePair_clSlip hv (by omega) hup hst]
  by_cases hb : u.bndState 0 = 4 ∧ u.laneBusy 0 = false
  · rw [if_pos hb, if_pos hb]
    rfl
  · rw [if_neg hb, if_neg hb]
    rfl

end

/-- Settles O40: a descriptor that may start runs its opcode's body once, and each body ends it or gives it its lines. -/
theorem descriptorsStartAndEndWithTheirStatus : Obligations.DescriptorsStartAndEndWithTheirStatus := by
  unfold Obligations.DescriptorsStartAndEndWithTheirStatus
  refine ⟨?nop, ?nopQuiet, ?fence, ?fenceQuiet, ?h2dZero, ?h2d, ?d2hZero, ?d2h, ?d2dZero, ?d2d, ?loadDown, ?loadDenied, ?load,
    ?loadZero, ?drainDown, ?drainDenied, ?drainEmpty, ?drain, ?drainWaits, ?startFails, ?start, ?stopFails, ?stop, ?laneNone,
    ?laneDead, ?laneSlips, ?laneRefused, ?nopOther, ?fenceOther, ?h2dOther, ?d2hOther, ?d2dOther, ?loadOther, ?startOther, ?stopOther, ?drainOther, ?laneOther⟩
  case nop =>
    intro q n j s h hn
    exact ⟨_, rfl, (State.runNop_ends h hn).job, (State.runNop_ends h hn).sameFields⟩
  case nopQuiet => exact fun q j s h hn hj => ⟨_, rfl, State.runNop_leaves h hn hj⟩
  case fence =>
    intro q n j s h hn
    obtain ⟨hnext, hop, -, -⟩ := State.mayStart_iff.mp h
    have h0 : n = 0 := (State.nextJob_some hnext).2.2.1 (by unfold dFenced; rw [hop]; simp)
    exact ⟨_, rfl, h0, (State.runNop_ends h hn).job, (State.runNop_ends h hn).sameFields⟩
  case fenceQuiet => exact fun q j s h hn hj => ⟨_, rfl, State.runNop_leaves h hn hj⟩
  case h2dZero => exact fun q n j s h hl => ⟨_, rfl, (State.runMove_zero h hl).job, (State.runMove_zero h hl).sameFields⟩
  case h2d => exact fun q n j s h hl => ⟨_, rfl, (State.runMove_lines h hl).sameFields, (State.runMove_lines h hl).job⟩
  case d2hZero => exact fun q n j s h hl => ⟨_, rfl, (State.runMove_zero h hl).job, (State.runMove_zero h hl).sameFields⟩
  case d2h => exact fun q n j s h hl => ⟨_, rfl, (State.runMove_lines h hl).sameFields, (State.runMove_lines h hl).job⟩
  case d2dZero => exact fun q n j s h hl => ⟨_, rfl, (State.runMove_zero h hl).job, (State.runMove_zero h hl).sameFields⟩
  case d2d => exact fun q n j s h hl => ⟨_, rfl, (State.runMove_lines h hl).sameFields, (State.runMove_lines h hl).job⟩
  case loadDown =>
    intro q n j s h hup
    have hends := State.startOp_ends (k := loadStart q) h fun u hu hset =>
      State.engineFor_down hu ((hset.up _).trans hup)
    exact ⟨_, rfl, hends.job, hends.sameFields⟩
  case loadDenied =>
    intro q n j s h hup huse
    have hends := State.startOp_ends (k := loadStart q) h fun u hu hset =>
      State.engineFor_denied hu ((hset.up _).trans hup) ((hset.usable _ _).trans huse)
    exact ⟨_, rfl, hends.job, hends.sameFields⟩
  case load =>
    intro q n j s h hup huse hl
    have hends := State.startOp_ends (k := loadStart q) h fun u hu hset => by
      unfold loadStart
      rw [State.engineFor_good ((hset.up _).trans hup) ((hset.usable _ _).trans huse), if_neg hl]
      exact State.jobLines_ends hu
    exact ⟨_, rfl, hends.sameFields, hends.job⟩
  case loadZero =>
    intro q n j s h hup huse hl
    have hends := State.startOp_ends (k := loadStart q) h fun u hu hset => by
      unfold loadStart
      rw [State.engineFor_good ((hset.up _).trans hup) ((hset.usable _ _).trans huse), if_pos hl]
      exact State.running_ends hu (Or.inl (show 4 ≠ 0 by decide)) 0 0
    exact ⟨_, rfl, hends.job, hends.sameFields⟩
  case drainDown =>
    intro q n j s h hd hup
    exact ⟨_, exec_failDrain h hd, (State.startOp_ends h fun u hu hset => State.engineFor_down hu ((hset.up _).trans hup)).job⟩
  case drainDenied =>
    intro q n j s h hd hup huse
    exact ⟨_, exec_failDrain h hd, (State.startOp_ends h fun u hu hset =>
      State.engineFor_denied hu ((hset.up _).trans hup) ((hset.usable _ _).trans huse)).job⟩
  case drainEmpty =>
    intro q n j s h hd hup huse hl hn
    have hends := State.startOp_ends (k := drainStart q) h fun u hu hset =>
      drainStart_empty hu ((hset.up _).trans hup) ((hset.usable _ _).trans huse)
        (by obtain ⟨m, c, rfl⟩ := hset.rest; exact hl) hn
    exact ⟨_, exec_failDrain h hd, hends.job, hends.sameFields⟩
  case drain =>
    intro q n e j s h he hd hup huse hlog hl hr
    have hends := State.startOp_ends (k := drainStart q) (i := { j with
        st := 1, k := min (dLEN j.d / s.recSize e) (s.ringLevel e), size := s.recSize e, base := s.rd .FC_RING_RD_COUNT [e], n := 0 })
        h fun u hu hset => by
      obtain ⟨m, c, rfl⟩ := hset.rest
      exact drainStart_runs hu he hup huse hlog hl hr
    exact ⟨_, exec_failDrain h (by rw [he]; exact hd), hends.sameFields, hends.job⟩
  case drainWaits => exact fun q n j s h hd => ⟨s, exec_failDrain_waits h hd, rfl⟩
  case startFails =>
    intro q n c e j s h hc h0
    have hends := State.runEngines_fails (cmd := startCmd) h hc h0
    exact ⟨_, rfl, hends.job, hends.sameFields⟩
  case start =>
    intro q n f e j s h hf hm hup huse hst hr hout hcq hfmt hvp hfit
    obtain ⟨hstate, -, -, -, -, -, harm, -⟩ := State.engStart_result (s := s.setJob q n { j with st := 1 }) (e := e)
      (arm := j.d.testBit 288) hout hcq hfmt (Or.inl hvp) hfit
    exact ⟨_, exec_engStart h hf hm hup huse hst hr, hstate,
      State.engStart_job (State.setJob_job (State.mayStart_job h) { j with st := 1 }), harm⟩
  case stopFails =>
    intro q n c e j s h hc h0
    have hends := State.runEngines_fails (cmd := stopCmd) h hc h0
    exact ⟨_, rfl, hends.job, hends.sameFields⟩
  case stop =>
    intro q n f e j s h hf hm hup huse hlo hhi hr hb
    have hst : [1, 2, 3, 4, 5].contains (s.estate e) = true := by
      simp only [List.contains_eq_mem, List.mem_cons, List.not_mem_nil, decide_eq_true_eq]
      omega
    obtain ⟨hstate, -⟩ := State.engStop_result (s := s.setJob q n { j with st := 1 }) (e := e)
    exact ⟨_, exec_engStop h hf hm hup huse hst hr hb, hstate,
      State.engStop_job (State.setJob_job (State.mayStart_job h) { j with st := 1 })⟩
  case laneNone =>
    intro q n j s h hc
    have hends := State.startOp_ends (k := laneStart q) h fun u hu _ => laneStart_none hu hc
    exact ⟨_, exec_laneCmd, hends.job, hends.sameFields⟩
  case laneDead =>
    intro q n j s h hc hup
    have hset := State.setJob_ends (State.mayStart_job h) { j with st := 1 }
    obtain ⟨hjob, hsame⟩ := laneStart_dead (f := s.rd .HIF_QP_ASSIGN_FN [q]) hset.job hc ((hset.up _).trans hup)
    refine ⟨_, exec_laneCmd, ?_⟩
    rw [State.startOp_of h]
    exact ⟨hjob, fun g x hx => (hsame g x hx).trans (hset.rd g x)⟩
  case laneSlips =>
    intro q n j s h h6 hup h8 h0 hv hbnd hbusy hst hn
    have hset := State.setJob_job (State.mayStart_job h) { j with st := 1 }
    refine ⟨_, exec_laneCmd, ?_⟩
    rw [State.startOp_of h, laneStart_one (u := s.setJob q n { j with st := 1 }) h6 hup h8 rfl h0 hv hst, if_pos ⟨hbnd, hbusy⟩]
    have hends := State.running_ends (s := (s.setJob q n { j with st := 1 }).slipped 0 (dWord j.d 9)) (q := q) (n := n) hset
      (status := 0) (Or.inr hn) 0 0
    refine ⟨hends.job, (hends.rd _ _).trans ?_⟩
    exact (State.rd_wr_fld _ _ _ _ _ _ (by decide)).trans (State.rd_wr_same _ _ _ _)
  case laneRefused =>
    intro q n j s h h6 hup h8 h0 hv hbnd hst
    have hset := State.setJob_job (State.mayStart_job h) { j with st := 1 }
    refine ⟨_, exec_laneCmd, ?_⟩
    rw [State.startOp_of h, laneStart_one (u := s.setJob q n { j with st := 1 }) h6 hup h8 rfl h0 hv hst,
      if_neg (fun hc => hbnd hc.1)]
    generalize s.rd .HIF_QP_ASSIGN_FN [q] = f
    have hends := State.running_ends (s := (s.setJob q n { j with st := 1 }).drop (.ring (Fin.ofNat 8 f)) .CL_SLIP [0] (dWord j.d 9))
      (q := q) (n := n) hset (status := 7) (Or.inl (by decide)) 0 0
    exact ⟨hends.job, (hends.rd _ _).trans (State.drop_sameFields _ _ _ _ _ _ _ List.not_mem_nil)⟩
  case nopOther => exact fun q s h => ⟨_, rfl, State.startOp_other h _⟩
  case fenceOther => exact fun q s h => ⟨_, rfl, State.startOp_other h _⟩
  case h2dOther => exact fun q s h => ⟨_, rfl, State.startOp_other h _⟩
  case d2hOther => exact fun q s h => ⟨_, rfl, State.startOp_other h _⟩
  case d2dOther => exact fun q s h => ⟨_, rfl, State.startOp_other h _⟩
  case loadOther => exact fun q s h => ⟨_, rfl, State.startOp_other h _⟩
  case startOther => exact fun q s h => ⟨_, rfl, State.startOp_other h _⟩
  case stopOther => exact fun q s h => ⟨_, rfl, State.startOp_other h _⟩
  case drainOther => exact fun q s h => ⟨s, exec_failDrain_other h, rfl⟩
  case laneOther => exact fun q s h => ⟨_, exec_laneCmd, State.startOp_other h _⟩

/-! PROOFS. Resets of a function and events of a PCIe link (R319, R345, R347, R395). -/

/-! ## Stages of a function's reset (R347) -/

section
variable {s : State} {f : Nat}

/-- The queue pairs of a function lose their descriptors. -/
noncomputable def State.pairsDropped (s : State) (l : List Nat) : State := l.foldl (fun s q => (s.qpDrop q).setQp q {}) s

/-- The engines of a function stop where `FLR_ENG` asks for it. -/
noncomputable def State.enginesDropped (s : State) (f : Nat) : State :=
  if s.on .HIF_FN_CTL_FLR_ENG [f] then
    (List.range 96).foldl (fun s e =>
      if s.usable e f ∧ s.up (engDie e) ∧ [1, 2, 3, 4, 5].contains (s.estate e) then s.engStop e else s) s
  else s

/-- The queue pairs of the list and the exchanges of the function are gone. -/
noncomputable def State.pairsGone (s : State) (f : Nat) (l : List Nat) : State :=
  let t := (s.cfgOrphan f).pairsDropped l
  { t with mail := t.mail.filter (fun m => m.src ≠ f) }

/-- The function's engines, vectors and sessions are gone; its registers are not yet. -/
noncomputable def State.fnDropped (s : State) (f : Nat) : State :=
  let t := s.enginesDropped f
  { t with
    vecs := smKeep t.vecs (fun i => i.headD 8 ≠ f)
    sessions := t.sessions.filter (fun e => match e.2 with
      | some x => x.owner ≠ f
      | none => false) }

theorem State.fnReset_eq (s : State) (f : Nat) : s.fnReset f =
    ((s.pairsGone f ((List.range 1024).filter (s.qpOwned · f))).fnDropped f).clearRegs (fnClears f (s.qpOwned · f)) := rfl

theorem State.flr_eq (h : s.on .HIF_FN_STAT_FLR_BUSY [f] = false) : s.flr f = (s.wr .HIF_FN_STAT_FLR_BUSY [f] 1).fnReset f :=
  if_neg (by rw [h]; simp)

theorem State.flr_under_way (h : s.on .HIF_FN_STAT_FLR_BUSY [f] = true) : s.flr f = s := if_pos h

theorem State.pairsDropped_qp {q : Nat} {l : List Nat} (h : q ∈ l ∨ s.qp q = {}) : (s.pairsDropped l).qp q = {} := by
  unfold State.pairsDropped
  induction l generalizing s with
  | nil => exact h.resolve_left (List.not_mem_nil)
  | cons a l ih =>
    refine ih (s := (s.qpDrop a).setQp a {}) ?_
    by_cases ha : a = q
    · subst ha
      exact Or.inr (by rw [State.setQp_qp, if_pos rfl])
    · refine h.imp (fun h => (List.mem_cons.mp h).resolve_left (Ne.symm ha)) fun h => ?_
      rw [State.setQp_qp, if_neg ha]
      change (s.setQp a _).qp q = {}
      rw [State.setQp_qp, if_neg ha, h]

theorem State.enginesDropped_keeps {R : State → Prop} (hR : Keeps [.regs, .govs, .eng] ⟨[.ENG_STATUS_STATE], [], [], false⟩ R)
    (hI : R s) : R (s.enginesDropped f) := by
  unfold State.enginesDropped
  split
  · exact rel_foldl (fun s e h => by
      split
      · exact State.engStop_keeps hR s e h
      · exact h) _ hI
  · exact hI

/-! ## What a reset leaves (R347) -/

theorem State.fnDropped_qp (q : Nat) : (s.fnDropped f).qp q = s.qp q :=
  congrArg (fun m => smGet m [q] ({} : QpRt)) (State.enginesDropped_keeps (Keeps.part (p := .qps) rfl (by decide) s) rfl)

theorem State.fnDropped_mail : (s.fnDropped f).mail = s.mail :=
  State.enginesDropped_keeps (f := f) (Keeps.part (p := .mail) rfl (by decide) s) rfl

theorem State.fnDropped_vec (v : Nat) : (s.fnDropped f).vec f v = {} :=
  (smGet_filter _ (fun i => decide (i.headD 8 ≠ f)) [f, v] _).trans (by simp)

/-- A session that does not belong to function `f`. -/
def sessionNot (f : Nat) (e : Key × Option LsSession) : Bool :=
  match e.2 with
  | some x => x.owner != f
  | none => false

theorem State.fnDropped_sessions : (s.fnDropped f).sessions.all (sessionNot f) = true := by
  refine List.all_eq_true.mpr fun e he => ?_
  have hkept := (List.mem_filter.mp he).2
  unfold sessionNot
  cases h : e.2 with
  | none => simp [h] at hkept
  | some x => simpa [h] using hkept

theorem State.clearRegs_qp (p : Fld → List Nat → Bool) (q : Nat) : (s.clearRegs p).qp q = s.qp q := rfl
theorem State.clearRegs_mail (p : Fld → List Nat → Bool) : (s.clearRegs p).mail = s.mail := rfl
theorem State.clearRegs_vec (p : Fld → List Nat → Bool) (v : Nat) : (s.clearRegs p).vec f v = s.vec f v := rfl
theorem State.clearRegs_sessions (p : Fld → List Nat → Bool) : (s.clearRegs p).sessions = s.sessions := rfl
theorem State.clearRegs_govs (p : Fld → List Nat → Bool) : (s.clearRegs p).govs = s.govs := rfl

theorem State.pairsGone_qp {q : Nat} {l : List Nat} (h : q ∈ l) : (s.pairsGone f l).qp q = {} :=
  State.pairsDropped_qp (Or.inl h)

theorem State.pairsGone_mail {l : List Nat} : (s.pairsGone f l).mail.all (fun m => m.src != f) = true := by
  refine List.all_eq_true.mpr fun m hm => ?_
  simpa using (List.mem_filter.mp hm).2

theorem State.fnReset_qp {q : Nat} (hq : q < 1024) (ho : s.qpOwned q f = true) : (s.fnReset f).qp q = {} := by
  have hmem : q ∈ (List.range 1024).filter (s.qpOwned · f) := List.mem_filter.mpr ⟨List.mem_range.mpr hq, ho⟩
  rw [State.fnReset_eq, State.clearRegs_qp, State.fnDropped_qp, State.pairsGone_qp hmem]

theorem State.fnReset_mail : (s.fnReset f).mail.all (fun m => m.src != f) = true := by
  rw [State.fnReset_eq, State.clearRegs_mail, State.fnDropped_mail, State.pairsGone_mail]

theorem State.fnReset_sessions : (s.fnReset f).sessions.all (sessionNot f) = true := by
  rw [State.fnReset_eq, State.clearRegs_sessions, State.fnDropped_sessions]

theorem State.fnReset_vec (v : Nat) : (s.fnReset f).vec f v = {} := by
  rw [State.fnReset_eq, State.clearRegs_vec, State.fnDropped_vec]

/-- The queue pairs of the function read their reset values. -/
theorem State.fnReset_own {q : Nat} {g : Fld} (ho : s.qpOwned q f = true) (hc : g.spec.cls = .fn) (hb : g.reg ≠ .HIF_BAR4) :
    (s.fnReset f).rd g [q] = g.reset [q] := by
  have hclr : fnClears f (s.qpOwned · f) g [q] = true := by simp [fnClears, hc, hb, ho]
  rw [State.fnReset_eq, State.rd_clearRegs, if_pos hclr]

end

/-! ## The training permit of a port (R395) -/

/-- Nobody holds a permit of an operation and requester at a governor. -/
def State.unheld (s : State) (g op : Nat) (who : List Nat) : Prop := (s.gov g).held.any (·.is op who) = false

section
variable {s : State} {g op : Nat} {who : List Nat}

theorem State.unheld_of_govs {t : State} (h : t.govs = s.govs) (hs : s.unheld g op who) : t.unheld g op who := by
  unfold State.unheld State.gov
  rw [h]
  exact hs

/-- A permit that is given back adds none to those held. -/
theorem State.giveBack_unheld (g' op' : Nat) (who' : List Nat) (hs : s.unheld g op who) : (s.giveBack g' op' who').unheld g op who := by
  unfold State.unheld State.giveBack at *
  dsimp only
  rw [State.setGov_gov]
  split
  next hg =>
    subst hg
    rw [List.any_eq_false] at hs ⊢
    exact fun p hp => hs p (List.mem_of_mem_filter hp)
  next => exact hs

theorem State.engStop_unheld (e : Nat) (hs : s.unheld g op who) : (s.engStop e).unheld g op who :=
  State.unheld_of_govs (s := (s.giveBack (engDie e) 1 [e]).giveBack (engDie e) 2 [e]) rfl
    (State.giveBack_unheld _ _ _ (State.giveBack_unheld _ _ _ hs))

theorem State.sectorReset_unheld (d k : Nat) (hs : s.unheld g op who) : (s.sectorReset d k).unheld g op who :=
  State.unheld_of_govs (s := ((s.clearRegs (secClears d k)).fabReset d k).giveBack d 4 [d, k]) rfl
    (State.giveBack_unheld _ _ _ (State.unheld_of_govs (s := s)
      (State.fabReset_keeps (Keeps.part (p := .govs) rfl (by decide) _) _ d k rfl) hs))

theorem State.cfgVoid_unheld (hs : s.unheld g op who) : s.cfgVoid.unheld g op who := by
  unfold State.cfgVoid State.cfgEach
  refine rel_foldl (R := fun s => s.unheld g op who) (fun s n hs => ?_) _ hs
  split
  · refine rel_foldl (R := fun s => s.unheld g op who) (fun s k hs => ?_) _ hs
    beta_reduce
    split
    · exact hs
    · exact State.unheld_of_govs (s := s.sectorReset n k)
        (State.cfgBlank_keeps (Keeps.part (p := .govs) rfl (by decide) _) _ n k rfl) (State.sectorReset_unheld n k hs)
  · exact hs

theorem State.cfgClose_unheld (c d k : Nat) (hs : s.unheld g op who) : (s.cfgClose c d k).unheld g op who := by
  have hback : ({ s.giveBack 8 19 cfgWho with cfgLoad := {} } : State).unheld g op who :=
    State.unheld_of_govs (s := s.giveBack 8 19 cfgWho) rfl (State.giveBack_unheld _ _ _ hs)
  unfold State.cfgClose
  dsimp only
  split
  · split
    · exact State.unheld_of_govs (State.jobDone_keeps (Keeps.part (p := .govs) rfl (by decide) _) _ _ _ _ _ _ rfl) hback
    · exact hback
  · split
    · split
      · exact hback
      · exact hback
    · exact hback

theorem State.cfgOrphan_unheld (f : Nat) (hs : s.unheld g op who) : (s.cfgOrphan f).unheld g op who := by
  unfold State.cfgOrphan
  dsimp only
  split
  · exact hs
  · split
    · split
      · exact hs
      · unfold State.cfgFail
        dsimp only
        split
        · exact State.cfgClose_unheld _ _ _ (State.cfgVoid_unheld hs)
        · exact State.cfgClose_unheld _ _ _ hs
    · exact hs

theorem State.pairsDropped_govs (l : List Nat) : (s.pairsDropped l).govs = s.govs :=
  State.foldl_keep State.govs (g := fun s q => (s.qpDrop q).setQp q {}) (fun s q =>
    State.setQp_keeps (Keeps.part (p := .govs) rfl (by decide) s) _ q {}
      (State.qpDrop_keeps (Keeps.part (p := .govs) rfl (by decide) s) s q rfl)) l s

theorem State.pairsGone_govs (f : Nat) (l : List Nat) : (s.pairsGone f l).govs = ((s.cfgOrphan f).pairsDropped l).govs := rfl

theorem State.pairsGone_unheld (f : Nat) (l : List Nat) (hs : s.unheld g op who) : (s.pairsGone f l).unheld g op who :=
  State.unheld_of_govs ((State.pairsGone_govs f l).trans (State.pairsDropped_govs l)) (State.cfgOrphan_unheld f hs)

theorem State.enginesDropped_unheld (f : Nat) (hs : s.unheld g op who) : (s.enginesDropped f).unheld g op who := by
  unfold State.enginesDropped
  split
  · refine rel_foldl (R := fun s => s.unheld g op who) (fun s e hs => ?_) _ hs
    split
    · exact State.engStop_unheld e hs
    · exact hs
  · exact hs

theorem State.fnDropped_unheld (f : Nat) (hs : s.unheld g op who) : (s.fnDropped f).unheld g op who :=
  State.enginesDropped_unheld f hs

theorem State.flr_unheld (f : Nat) (hs : s.unheld g op who) : (s.flr f).unheld g op who := by
  by_cases hb : s.on .HIF_FN_STAT_FLR_BUSY [f] = true
  · rw [State.flr_under_way hb]
    exact hs
  · rw [State.flr_eq (by simpa using hb), State.fnReset_eq]
    exact State.unheld_of_govs (State.clearRegs_govs _) (State.fnDropped_unheld _ (State.pairsGone_unheld _ _ hs))

end

/-! ## The commands -/

section
variable {s : State}

theorem State.flr_busy (s : State) (f : Nat) : (s.flr f).rd .HIF_FN_STAT_FLR_BUSY [f] ≠ 0 := by
  by_cases hb : s.on .HIF_FN_STAT_FLR_BUSY [f] = true
  · rw [State.flr_under_way hb]
    simpa [State.on] using hb
  · rw [State.flr_eq (by simpa using hb), State.fnReset_rd _ _ rfl, State.rd_wr_same]
    decide

theorem State.flr_busy_other {f : Nat} (g : Nat) (h : s.rd .HIF_FN_STAT_FLR_BUSY [f] ≠ 0) :
    (s.flr g).rd .HIF_FN_STAT_FLR_BUSY [f] ≠ 0 := by
  by_cases hfg : g = f
  · subst hfg
    exact s.flr_busy g
  · by_cases hb : s.on .HIF_FN_STAT_FLR_BUSY [g] = true
    · rw [State.flr_under_way hb]
      exact h
    · rwa [State.flr_eq (by simpa using hb), State.fnReset_rd _ _ rfl, State.rd_wr_ne (l := []) (by simpa using Ne.symm hfg)]

theorem exec_functionLevelReset (f : Fin 8) : exec (.functionLevelReset f) s = .next (s.flr f) := rfl

theorem exec_flrDone {f : Fin 8} (h : s.on .HIF_FN_STAT_FLR_BUSY [f] = true) : exec (.flrDone f) s =
    .next ((s.wr .HIF_FN_STAT_FLR_BUSY [f] 0).wr .HIF_FN_STAT_FLR_CNT [f] (s.rd .HIF_FN_STAT_FLR_CNT [f] + 1)) := if_pos h

/-- The messages that Bus Master Enable held back (R319). -/
noncomputable def State.sendHeld (s : State) (f : Nat) : State :=
  (s.vecs.filter (fun e => e.1.headD 8 = f && e.2.pend && !e.2.masked)).foldl (fun s e => s.sendVec f (e.1.getD 1 0)) s

theorem State.sendHeld_rd (f : Nat) (g : Fld) (i : List Nat) : (s.sendHeld f).rd g i = s.rd g i :=
  State.rd_foldl_keep (g := fun s (e : Key × VecRt) => s.sendVec f (e.1.getD 1 0)) (fun s _ => State.sendVec_rd s f _ rfl) _ _

theorem State.sendHeld_qps (f : Nat) : (s.sendHeld f).qps = s.qps :=
  State.foldl_keep State.qps (g := fun s (e : Key × VecRt) => s.sendVec f (e.1.getD 1 0))
    (fun s e => State.sendVec_keeps (Keeps.part (p := .qps) rfl (by decide) s) s f _ rfl) _ _

theorem exec_busMasterDisable (f : Fin 8) (b : Bool) : exec (.busMasterDisable f b) s =
    .next (if b then (s.wr .HIF_FN_STAT_BME [f] 1).sendHeld f else s.wr .HIF_FN_STAT_BME [f] 0) := by
  cases b <;> rfl

theorem exec_pcieLinkUp {p : Fin 2} (h : smGet s.pcie [p.val] 0 = 1) :
    exec (.pcieLinkUp p) s = .next { s.giveBack 8 17 [p] with pcie := smPut s.pcie [p.val] 2 0 } := if_pos h

/-- The functions of a list are reset one after another. -/
noncomputable def State.flrs (s : State) (p : Nat) (l : List Nat) : State := l.foldl (fun s i => s.flr (4 * p + i)) s

/-- The port's link is down, and its training permit is given back. -/
noncomputable def State.linkLost (s : State) (p : Nat) : State := { s.giveBack 8 17 [p] with pcie := smPut s.pcie [p] 0 0 }

theorem exec_pcieLinkDown (p : Fin 2) : exec (.pcieLinkDown p) s = .next ((s.linkLost p).flrs p (List.range 4)) := rfl

theorem State.linkSet_pcie (s : State) (p v : Nat) :
    smGet ({ s.giveBack 8 17 [p] with pcie := smPut s.pcie [p] v 0 } : State).pcie [p] 0 = v := by
  change smGet (smPut s.pcie [p] v 0) [p] 0 = v
  rw [smGet_smPut, if_pos rfl]

theorem State.flrs_busy {p i : Nat} {l : List Nat} (h : i ∈ l ∨ s.rd .HIF_FN_STAT_FLR_BUSY [4 * p + i] ≠ 0) :
    (s.flrs p l).rd .HIF_FN_STAT_FLR_BUSY [4 * p + i] ≠ 0 := by
  unfold State.flrs
  induction l generalizing s with
  | nil => exact h.resolve_left List.not_mem_nil
  | cons a l ih =>
    refine ih (s := s.flr (4 * p + a)) ?_
    by_cases ha : i = a
    · subst ha
      exact Or.inr (s.flr_busy _)
    · exact h.imp (fun h => (List.mem_cons.mp h).resolve_left ha) (State.flr_busy_other _)

theorem State.flrs_pcie (p : Nat) (l : List Nat) : (s.flrs p l).pcie = s.pcie :=
  State.foldl_keep State.pcie (g := fun s i => s.flr (4 * p + i))
    (fun s i => State.flr_keeps (Keeps.part (p := .pcie) (by decide) (by decide) s) s _ rfl) _ _

theorem State.flrs_unheld {g op : Nat} {who : List Nat} (p : Nat) (l : List Nat) (h : s.unheld g op who) :
    (s.flrs p l).unheld g op who :=
  rel_foldl (R := fun s => s.unheld g op who) (fun _ i h => State.flr_unheld (4 * p + i) h) l h

end

/-- Settles O39, by the stages of a function's reset; the permit of a port that trains stays given back. -/
theorem functionResetsAndLinkEventsReachTheirQueuePairs : Obligations.FunctionResetsAndLinkEventsReachTheirQueuePairs := by
  unfold Obligations.FunctionResetsAndLinkEventsReachTheirQueuePairs
  refine ⟨?reset, ?underWay, ?done, ?busMaster, ?linkDown, ?linkUp⟩
  case reset =>
    intro f q s hb ho
    have ho' : (s.wr .HIF_FN_STAT_FLR_BUSY [f] 1).qpOwned q f = true := by
      rw [← ho]
      unfold State.qpOwned State.on
      rw [State.rd_wr_fld _ _ _ _ _ _ (by decide), State.rd_wr_fld _ _ _ _ _ _ (by decide)]
    refine ⟨_, exec_functionLevelReset f, ?_⟩
    rw [State.flr_eq hb]
    refine ⟨(State.fnReset_rd _ _ rfl).trans (State.rd_wr_same _ _ _ _), (State.fnReset_own ho' rfl (by decide)).trans rfl,
      State.fnReset_qp q.isLt ho', (State.fnReset_own ho' rfl (by decide)).trans rfl, State.fnReset_mail, State.fnReset_sessions,
      fun v => State.fnReset_vec v, ?_, fun i => ?_⟩
    · exact (State.fnReset_rd _ _ rfl).trans (State.rd_wr_fld _ _ _ _ _ _ (by decide))
    · exact (State.fnReset_rd _ _ rfl).trans (State.rd_wr_fld _ _ _ _ _ _ (by decide))
  case underWay => exact fun f s h => ⟨s, (exec_functionLevelReset f).trans (congrArg _ (State.flr_under_way h)), rfl⟩
  case done =>
    intro f s h
    refine ⟨_, exec_flrDone h, ?_, State.rd_wr_same _ _ _ _, ?_⟩
    · rw [State.rd_wr_fld _ _ _ _ _ _ (by decide), State.rd_wr_same]
      rfl
    · exact ((SameFields.refl s _).wr (by simp) 0).wr (by simp) _
  case busMaster =>
    intro f b s
    refine ⟨_, exec_busMasterDisable f b, ?_⟩
    cases b with
    | false => exact ⟨State.rd_wr_same _ _ _ _, rfl, (SameFields.refl s _).wr (by simp) 0⟩
    | true =>
      refine ⟨(State.sendHeld_rd _ _ _).trans (State.rd_wr_same _ _ _ _), State.sendHeld_qps _, fun g i hi => ?_⟩
      exact (State.sendHeld_rd _ _ _).trans (((SameFields.refl s [(.HIF_FN_STAT_BME, [f.val])]).wr (by simp) 1) g i hi)
  case linkDown =>
    intro p i s
    refine ⟨_, exec_pcieLinkDown p, State.flrs_busy (Or.inl (List.mem_range.mpr i.isLt)), ?_, State.flrs_unheld _ _ ?_⟩
    · rw [State.flrs_pcie]
      exact State.linkSet_pcie _ _ _
    · exact State.giveBack_held s 8 17 [p]
  case linkUp =>
    intro p s h
    exact ⟨_, exec_pcieLinkUp h, State.linkSet_pcie _ _ _, State.giveBack_held s 8 17 [p], fun g i _ => State.giveBack_rd s 8 17 [p] rfl⟩

/-! PROOFS. The reference spine, the spread and the clock outputs (R373 to R378, R531). -/

/-! ## The spine's source (R373, R376) -/

section
variable {s : State} {w : Writer} {x : BitVec 2} {good spread : Bool}

/-- The selected source is stored with the monitor's verdict on it. -/
noncomputable def State.srcTaken (s : State) (v : Nat) (good : Bool) : State :=
  (s.wr .CLK_SRC_SEL [] v).wr .CLK_MON_REF_OK [] (if good then 1 else 0)

theorem exec_clkSourceSelect (h : s.reaches w .CLK_SRC [] = true) (hl : s.srcLink x.toNat = true)
    (hs : x = 1 → spread = false) (hx : x.toNat ≠ s.rd .CLK_SRC_SEL []) : exec (.clkSourceSelect w x good spread) s =
      .next (if s.clocksUp ∧ s.on .CLK_SRC_DEAD_RECK [] = false then (s.srcTaken x.toNat good).glide else s.srcTaken x.toNat good) := by
  have hon : (s.srcTaken x.toNat good).on .CLK_SRC_DEAD_RECK [] = s.on .CLK_SRC_DEAD_RECK [] := by
    unfold State.on State.srcTaken
    rw [State.rd_wr_fld _ _ _ _ _ _ (by decide), State.rd_wr_fld _ _ _ _ _ _ (by decide)]
  have hno : ¬(s.srcLink x.toNat = false ∨ (x = 1 ∧ spread = true)) := by
    rintro (h | ⟨h1, h2⟩)
    · simp [hl] at h
    · simp [hs h1] at h2
  rw [← hon]
  exact congrArg Host.Outcome.next ((State.reach_of h ..).trans ((if_neg hno).trans (if_neg hx)))

theorem exec_clkSourceSelect_refused (h : s.reaches w .CLK_SRC [] = true)
    (hno : s.srcLink x.toNat = false ∨ (x = 1 ∧ spread = true)) : exec (.clkSourceSelect w x good spread) s =
      .next (s.drop w .CLK_SRC [] (s.wordWith .CLK_SRC [] [(.CLK_SRC_SEL, x.toNat)])) :=
  congrArg Host.Outcome.next ((State.reach_of h ..).trans (if_pos hno))

theorem State.glide_fields : s.glide.rd .CLK_SRC_ACTIVE [] = s.rd .CLK_SRC_SEL [] % 2 ^ 2 ∧ s.glide.rd .CLK_SRC_GLIDING [] = 1 ∧
    s.glide.rd .CLK_SRC_DEAD_RECK [] = 0 ∧ s.glide.rd .SX_STAT_DEAD_RECK [] = 0 := by
  unfold State.glide
  refine ⟨?_, ?_, ?_, ?_⟩ <;> simp (disch := decide) only [State.rd_wr_fld, State.rd_wr_same] <;> rfl

theorem State.srcTaken_sel (x : BitVec 2) (good : Bool) : (s.srcTaken x.toNat good).rd .CLK_SRC_SEL [] = x.toNat := by
  have hw : Fld.CLK_SRC_SEL.spec.width = 2 := rfl
  unfold State.srcTaken
  rw [State.rd_wr_fld _ _ _ _ _ _ (by decide), State.rd_wr_same, hw, Nat.mod_eq_of_lt x.isLt]

theorem State.srcTaken_ok (v : Nat) (good : Bool) : (s.srcTaken v good).rd .CLK_MON_REF_OK [] = if good then 1 else 0 := by
  unfold State.srcTaken
  rw [State.rd_wr_same]
  cases good <;> rfl

theorem State.srcTaken_sameFields (v : Nat) (good : Bool) : SameFields s (s.srcTaken v good) [(.CLK_SRC_SEL, []), (.CLK_MON_REF_OK, [])] :=
  ((SameFields.refl s _).wr (by simp) _).wr (by simp) _

/-- The spine returns to its source with dead reckoning over (R376). -/
theorem State.returnToSource_fields : s.returnToSource.rd .CLK_SRC_DEAD_RECK [] = 0 ∧ s.returnToSource.rd .CLK_SRC_GLIDING [] = 1 ∧
    s.returnToSource.rd .CLK_SRC_ACTIVE [] = s.rd .CLK_SRC_SEL [] % 2 ^ 2 ∧ s.returnToSource.rd .SX_STAT_DEAD_RECK [] = 0 := by
  obtain ⟨hact, hglide, hdead, hsx⟩ := State.glide_fields (s := s.wr .CLK_MON_REF_OK [] 1)
  unfold State.returnToSource
  refine ⟨(State.irq_rd _ _ rfl).trans hdead, (State.irq_rd _ _ rfl).trans hglide, ?_, (State.irq_rd _ _ rfl).trans hsx⟩
  rw [State.irq_rd _ _ rfl, hact, State.rd_wr_fld _ _ _ _ _ _ (by decide)]

theorem exec_clkSrcReturn (h : s.reaches w .CLK_SRC [] = true) (hd : s.on .CLK_SRC_DEAD_RECK [] = true) :
    exec (.clkSrcReturn w good) s = .next (if good = true ∨ s.rd .CLK_SRC_SEL [] = 3 then s.returnToSource
      else s.drop w .CLK_SRC [] (s.wordWith .CLK_SRC [] [(.CLK_SRC_CMD, 1)])) :=
  congrArg Host.Outcome.next ((State.reach_of h ..).trans (if_neg (by rw [hd]; simp)))

end

/-! ## A source that fails (R374, R375) -/

section
variable {s : State}

/-- The spine's fields once it reckons by the oscillator. -/
noncomputable def State.reckoning (s : State) : State :=
  (((((s.wr .CLK_MON_FAIL_EV [] 1).wr .CLK_MON_REF_OK [] 0).wr .CLK_SRC_ACTIVE [] 3).wr .CLK_SRC_DEAD_RECK [] 1).wr
    .CLK_SRC_GLIDING [] 0).wr .SX_STAT_DEAD_RECK [] 1

/-- The non-maskable clock-fail event reaches a helm core that is out of reset. -/
noncomputable def State.clockNmi (s : State) (c : Nat) : State :=
  if s.rd .HELM_CORE_STAT_STATE [c] < 2 then s else s.setHelm c { s.helmRt c with nmi := (s.helmRt c).nmi ++ [32] }

theorem State.deadReckon_eq : s.deadReckon = ((List.range 8).foldl State.clockNmi s.reckoning).raise .CLK_MON [] 375 0 [] := rfl

theorem State.clockNmi_rd (c : Nat) (f : Fld) (i : List Nat) : (s.clockNmi c).rd f i = s.rd f i := by
  unfold State.clockNmi
  split
  · rfl
  · exact State.setHelm_rd _ _ _ rfl

theorem State.deadReckon_reckoning (f : Fld) (i : List Nat) : s.deadReckon.rd f i = s.reckoning.rd f i := by
  rw [State.deadReckon_eq, State.raise_rd _ _ _ _ _ _ rfl]
  exact State.rd_foldl_keep (g := State.clockNmi) (fun s c => s.clockNmi_rd c f i) _ _

theorem State.clockNmi_helmRt_ne {c c' : Nat} (h : c' ≠ c) : (s.clockNmi c').helmRt c = s.helmRt c := by
  unfold State.clockNmi
  split
  · rfl
  · rw [State.setHelm_helmRt, if_neg h]

/-- Every core that is out of reset gets the event once. -/
theorem State.foldl_clockNmi {c : Nat} {l : List Nat} (hl : l.Nodup) (hc : c ∈ l) :
    ((l.foldl State.clockNmi s).helmRt c).nmi =
      if s.rd .HELM_CORE_STAT_STATE [c] < 2 then (s.helmRt c).nmi else (s.helmRt c).nmi ++ [32] := by
  have hskip : ∀ (l : List Nat) (s : State), c ∉ l → (l.foldl State.clockNmi s).helmRt c = s.helmRt c := by
    intro l
    induction l with
    | nil => exact fun _ _ => rfl
    | cons a l ih =>
      intro s h
      rw [List.mem_cons, not_or] at h
      rw [List.foldl_cons, ih _ h.2, State.clockNmi_helmRt_ne (Ne.symm h.1)]
  induction l generalizing s with
  | nil => cases hc
  | cons a l ih =>
    obtain ⟨ha, hl⟩ := List.nodup_cons.mp hl
    rw [List.foldl_cons]
    by_cases hac : a = c
    · subst hac
      rw [hskip l _ ha]
      unfold State.clockNmi
      split
      · rfl
      · rw [State.setHelm_helmRt, if_pos rfl]
    · rw [ih hl ((List.mem_cons.mp hc).resolve_left (Ne.symm hac)), State.clockNmi_rd, State.clockNmi_helmRt_ne hac]

theorem State.deadReckon_nmi (c : Fin 8) : (s.deadReckon.helmRt c).nmi =
    if s.rd .HELM_CORE_STAT_STATE [c] < 2 then (s.helmRt c).nmi else (s.helmRt c).nmi ++ [32] := by
  have hraise : ∀ u : State, (u.raise .CLK_MON [] 375 0 []).helmRt c = u.helmRt c := fun u =>
    congrArg (fun m => smGet m [c.val] ({} : HelmRt)) (State.raise_keeps (Keeps.part (p := .helm) rfl (by decide) u) u _ _ _ _ _ rfl)
  rw [State.deadReckon_eq, hraise, State.foldl_clockNmi List.nodup_range (List.mem_range.mpr c.isLt)]
  have hst : s.reckoning.rd .HELM_CORE_STAT_STATE [c] = s.rd .HELM_CORE_STAT_STATE [c] := by
    unfold State.reckoning
    simp (disch := decide) only [State.rd_wr_fld]
  rw [hst]
  rfl

/-- The fields of dead reckoning (R375). -/
theorem State.reckoning_fields : s.reckoning.rd .CLK_SRC_DEAD_RECK [] = 1 ∧ s.reckoning.rd .CLK_SRC_ACTIVE [] = 3 ∧
    s.reckoning.rd .CLK_MON_FAIL_EV [] = 1 ∧ s.reckoning.rd .CLK_MON_REF_OK [] = 0 ∧ s.reckoning.rd .SX_STAT_DEAD_RECK [] = 1 ∧
    s.reckoning.rd .CLK_SRC_SEL [] = s.rd .CLK_SRC_SEL [] := by
  unfold State.reckoning
  refine ⟨?_, ?_, ?_, ?_, ?_, ?_⟩ <;> simp (disch := decide) only [State.rd_wr_fld, State.rd_wr_same] <;> rfl

theorem exec_clockSourceFail {silent : Bool} {a b e : Nat} : exec (.clockSourceFail silent a b e) s =
    .next (if sourceFailed silent a b e = true ∧ s.clocksUp = true ∧ s.on .CLK_SRC_DEAD_RECK [] = false ∧ s.rd .CLK_SRC_ACTIVE [] ≠ 3
      then s.deadReckon else s) := by
  rw [apply_ite Host.Outcome.next]
  rfl

/-- The next whole millisecond. -/
def nextMs (t : Nat) : Nat := t / 1000000 * 1000000 + 1000000

theorem nextMs_spec (t : Nat) : nextMs t % 1000000 = 0 ∧ t < nextMs t := by
  unfold nextMs
  omega

theorem exec_oscErrMeasure {err : BitVec 16} (hc : s.clocksUp = true) (hd : s.on .CLK_SRC_DEAD_RECK [] = false) :
    exec (.oscErrMeasure err) s = .next ((s.lapseTo (nextMs s.now)).wr .CLK_MON_OSC_ERR [] err.toNat) := if_pos ⟨hc, hd⟩

theorem State.measured_osc (u : Nat) (err : BitVec 16) :
    ((s.lapseTo u).wr .CLK_MON_OSC_ERR [] err.toNat).rd .CLK_MON_OSC_ERR [] = err.toNat ∧
      ((s.lapseTo u).wr .CLK_MON_OSC_ERR [] err.toNat).now = max s.now u ∧
      SameFields s ((s.lapseTo u).wr .CLK_MON_OSC_ERR [] err.toNat) [(.CLK_MON_OSC_ERR, [])] := by
  have hw : Fld.CLK_MON_OSC_ERR.spec.width = 16 := rfl
  refine ⟨?_, State.lapseTo_now s u, ?_⟩
  · rw [State.rd_wr_same, hw, Nat.mod_eq_of_lt err.isLt]
  · exact ((SameFields.refl s _).of_rd fun f i => State.lapseTo_rd s u rfl).wr (by simp) _

end

/-! ## The spread and the clock outputs (R377, R378) -/

section
variable {s : State} {w : Writer}

/-- The word of a write of `CLK_SSC`, and the state once it is taken. -/
def sscWord (d f : BitVec 8) : Nat := d.toNat + f.toNat * 2 ^ 8

noncomputable def State.sscTaken (s : State) (d f : BitVec 8) : State :=
  let s := (s.wr .CLK_SSC_DEPTH [] d.toNat).wr .CLK_SSC_FREQ [] f.toNat
  if 100 < d.toNat ∨ f.toNat < 30 ∨ 64 < f.toNat then s.raise .CLK_SSC [] 397 2 [sscWord d f] else s

theorem exec_clkSscWrite {d f : BitVec 8} (h : s.reaches w .CLK_SSC [] = true) : exec (.clkSscWrite w d f) s =
    .next (if s.sscBusy = true then s.drop w .CLK_SSC [] (sscWord d f) else s.sscTaken d f) :=
  congrArg Host.Outcome.next (State.reach_of h ..)

theorem State.sscTaken_rd (d f : BitVec 8) (g : Fld) (i : List Nat) : (s.sscTaken d f).rd g i =
    ((s.wr .CLK_SSC_DEPTH [] d.toNat).wr .CLK_SSC_FREQ [] f.toNat).rd g i := by
  unfold State.sscTaken
  dsimp only
  split
  · exact State.raise_rd _ _ _ _ _ _ rfl
  · rfl

theorem State.sscTaken_fields (d f : BitVec 8) : (s.sscTaken d f).rd .CLK_SSC_DEPTH [] = d.toNat ∧
    (s.sscTaken d f).rd .CLK_SSC_FREQ [] = f.toNat ∧
    SameFields s (s.sscTaken d f) [(.CLK_SSC_DEPTH, []), (.CLK_SSC_FREQ, [])] := by
  have hd : Fld.CLK_SSC_DEPTH.spec.width = 8 := rfl
  have hf : Fld.CLK_SSC_FREQ.spec.width = 8 := rfl
  refine ⟨?_, ?_, fun g i hg => ?_⟩
  · rw [State.sscTaken_rd, State.rd_wr_fld _ _ _ _ _ _ (by decide), State.rd_wr_same, hd, Nat.mod_eq_of_lt d.isLt]
  · rw [State.sscTaken_rd, State.rd_wr_same, hf, Nat.mod_eq_of_lt f.isLt]
  · rw [State.sscTaken_rd]
    exact (((SameFields.refl s _).wr (by simp) _).wr (by simp) _) g i hg

/-- The pin of `CLKOUTi` is low and its new source is stored. -/
def State.clkoutTaken (s : State) (i src : Nat) : State := (s.emit (.pin (10 + i) 0)).wr .CLKOUT_CTL_SRC [i] src

theorem exec_clkoutSwitch {i : Fin 2} {x : BitVec 2} (h : s.reaches w .CLKOUT_CTL [i] = true)
    (hx : x.toNat ≠ s.rd .CLKOUT_CTL_SRC [i]) (h0 : x.toNat ≠ 0) :
    exec (.clkoutSwitch w i x) s = .next ((s.clkoutTaken i x.toNat).clkout i) :=
  congrArg Host.Outcome.next ((State.reach_of h ..).trans ((if_neg hx).trans (if_neg h0)))

/-- What pin `CLKOUTi` shows while it runs from source `v`. -/
noncomputable def State.clkoutSeen (s : State) (i v : Nat) : Out :=
  .clkout i (if v = 3 then 8 + s.rd .CLKOUT_CTL_SPINE [i] else v) (if s.on .CLKOUT_CTL_SSC [i] then s.spread.1 else 0)
    (if s.on .CLKOUT_CTL_SSC [i] then s.spread.2 else 0)

/-- A source whose clock the pin can drive: the pin runs from it (R378, R531). -/
theorem State.clkout_runs {i v : Nat} (hv : s.rd .CLKOUT_CTL_SRC [i] = v) (h0 : v ≠ 0) (hscan : s.tap.scan = false)
    (h3 : v = 3 → 1 ≤ (s.synthAt 8 (s.rd .CLKOUT_CTL_SPINE [i])).freq ∧
      (s.synthAt 8 (s.rd .CLKOUT_CTL_SPINE [i])).freq ≤ clkoutMax) :
    s.clkout i = { s with out := s.clkoutSeen i v :: s.out } := by
  have hf : ∀ f, f = (if v = 3 then (smGet s.synth [8, s.rd .CLKOUT_CTL_SPINE [i]] {}).freq else clkoutMax) →
      ¬(v = 0 ∨ f = 0) ∧ ¬(clkoutMax < f) := by
    intro f hf
    by_cases hv3 : v = 3
    · obtain ⟨hlo, hhi⟩ := h3 hv3
      rw [if_pos hv3] at hf
      subst hf
      exact ⟨fun h => h.elim h0 fun h => by unfold State.synthAt at hlo; omega, Nat.not_lt.mpr hhi⟩
    · rw [if_neg hv3] at hf
      subst hf
      exact ⟨fun h => h.elim h0 (by decide), by decide⟩
  obtain ⟨hrun, hmax⟩ := hf _ rfl
  unfold State.clkout
  dsimp only
  rw [hv, if_neg hrun, if_neg hmax]
  unfold State.emit
  rw [hscan, Bool.false_and, if_neg (by decide)]
  unfold State.clkoutSeen
  by_cases hs : s.on .CLKOUT_CTL_SSC [i] = true
  · simp only [hs, if_true]
  · simp only [hs]
    rfl

theorem State.clkoutTaken_eq {i v : Nat} (hscan : s.tap.scan = false) : s.clkoutTaken i v =
    ({ s with out := .pin (10 + i) 0 :: s.out } : State).wr .CLKOUT_CTL_SRC [i] v := by
  unfold State.clkoutTaken State.emit
  rw [hscan, Bool.false_and, if_neg (by decide)]

theorem State.clkoutTaken_other {i v : Nat} (f : Fld) (hf : Fld.CLKOUT_CTL_SRC ≠ f) (j : List Nat) :
    (s.clkoutTaken i v).rd f j = s.rd f j := by
  unfold State.clkoutTaken
  rw [State.rd_wr_fld _ _ _ _ _ _ hf, State.emit_rd _ _ rfl]

theorem State.clkoutTaken_src {i : Nat} (x : BitVec 2) : (s.clkoutTaken i x.toNat).rd .CLKOUT_CTL_SRC [i] = x.toNat := by
  have hw : Fld.CLKOUT_CTL_SRC.spec.width = 2 := rfl
  unfold State.clkoutTaken
  rw [State.rd_wr_same, hw, Nat.mod_eq_of_lt x.isLt]

theorem State.clkoutTaken_spread {i v : Nat} : (s.clkoutTaken i v).spread = s.spread := by
  unfold State.spread
  rw [State.clkoutTaken_other _ (by decide), State.clkoutTaken_other _ (by decide)]

end

/-- Settles O46, by the state that each command leaves of the spine, the spread and the pins. -/
theorem theReferenceSpineFollowsItsSource : Obligations.TheReferenceSpineFollowsItsSource := by
  unfold Obligations.TheReferenceSpineFollowsItsSource
  refine ⟨?select, ?early, ?refused, ?glideDone, ?fails, ?good, ?oscillator, ?autoReturn, ?stays, ?returns, ?returnRefused, ?ssc,
    ?sscRefused, ?clkout⟩
  case select =>
    intro w x good spread s h hl hs hx hc hd
    rw [exec_clkSourceSelect h hl hs hx, if_pos ⟨hc, hd⟩]
    obtain ⟨hact, hglide, -, -⟩ := State.glide_fields (s := s.srcTaken x.toNat good)
    refine ex_next ⟨(State.glide_rd _ rfl).trans (State.srcTaken_sel x good), ?_, hglide,
      (State.glide_rd _ rfl).trans (State.srcTaken_ok _ _)⟩
    rw [hact, State.srcTaken_sel, Nat.mod_eq_of_lt x.isLt]
  case early =>
    intro w x good spread s h hl hs hx hc
    rw [exec_clkSourceSelect h hl hs hx, if_neg (by rw [hc]; simp)]
    exact ex_next ⟨State.srcTaken_sel x good, State.srcTaken_sameFields _ _ _ _ (by simp), State.srcTaken_sameFields _ _⟩
  case refused => exact fun w x good spread s h hno => ⟨_, exec_clkSourceSelect_refused h hno, State.drop_sameFields _ _ _ _ _⟩
  case glideDone => exact fun s => ⟨_, rfl, State.rd_wr_same _ _ _ _, (SameFields.refl s _).wr (by simp) _⟩
  case fails =>
    intro c silent a b e s hf hc hd ha
    rw [exec_clockSourceFail, if_pos ⟨hf, hc, hd, ha⟩]
    obtain ⟨h1, h2, h3, h4, h5, h6⟩ := State.reckoning_fields (s := s)
    refine ex_next ?_
    rw [State.deadReckon_reckoning, State.deadReckon_reckoning, State.deadReckon_reckoning, State.deadReckon_reckoning,
      State.deadReckon_reckoning, State.deadReckon_reckoning]
    exact ⟨h1, h2, h3, h4, h5, h6, State.deadReckon_nmi c⟩
  case good =>
    intro silent a b e s h
    refine ⟨s, ?_, rfl⟩
    rw [exec_clockSourceFail, if_neg]
    rintro ⟨hf, -, -, ha⟩
    exact h.elim (fun h => by simp [h] at hf) ha
  case oscillator =>
    intro err s hc hd
    obtain ⟨hmod, hlt⟩ := nextMs_spec s.now
    obtain ⟨hosc, hnow, hsame⟩ := State.measured_osc (s := s) (nextMs s.now) err
    rw [Nat.max_eq_right hlt.le] at hnow
    exact ⟨_, exec_oscErrMeasure hc hd, hosc, by rw [hnow]; exact hmod, by rw [hnow]; exact hlt, hsame⟩
  case autoReturn =>
    intro s hd ha
    obtain ⟨hdead, hglide, hact, hsx⟩ := State.returnToSource_fields (s := s)
    exact ⟨_, if_pos ⟨hd, ha⟩, hdead, hglide, hact, hsx⟩
  case stays => exact fun s ha => ⟨s, if_neg fun h => by simp [ha] at h, rfl⟩
  case returns =>
    intro w s h hd
    obtain ⟨hdead, hglide, -, -⟩ := State.returnToSource_fields (s := s)
    exact ⟨_, (exec_clkSrcReturn h hd).trans (congrArg _ (if_pos (Or.inl rfl))), hdead, hglide⟩
  case returnRefused =>
    intro w s h hd hsel
    exact ⟨_, (exec_clkSrcReturn h hd).trans (congrArg _ (if_neg (by simp [hsel]))), State.drop_sameFields _ _ _ _ _⟩
  case ssc =>
    intro w d f s h hb
    exact ⟨_, (exec_clkSscWrite h).trans (congrArg _ (if_neg (by rw [hb]; decide))), State.sscTaken_fields d f⟩
  case sscRefused =>
    intro w d f s h hb
    exact ⟨_, (exec_clkSscWrite h).trans (congrArg _ (if_pos hb)), State.drop_sameFields _ _ _ _ _⟩
  case clkout =>
    intro w i x s h hx h0 hscan h3
    have hspine := State.clkoutTaken_other (s := s) (i := i) (v := x.toNat) .CLKOUT_CTL_SPINE (by decide) [i]
    have hsynth : (s.clkoutTaken i x.toNat).synth = s.synth := by rw [State.clkoutTaken_eq hscan]; rfl
    have hon : (s.clkoutTaken i x.toNat).on .CLKOUT_CTL_SSC [i] = s.on .CLKOUT_CTL_SSC [i] := by
      unfold State.on
      rw [State.clkoutTaken_other _ (by decide)]
    have hruns := State.clkout_runs (s := s.clkoutTaken i x.toNat) (State.clkoutTaken_src x) h0
      (by rw [State.clkoutTaken_eq hscan]; exact hscan) (by unfold State.synthAt; rw [hsynth, hspine]; exact h3)
    unfold State.clkoutSeen at hruns
    rw [hspine, hon, State.clkoutTaken_spread] at hruns
    refine ⟨_, exec_clkoutSwitch h hx h0, (State.clkout_rd _ _ rfl).trans (State.clkoutTaken_src x), ?_, fun f j hf => ?_⟩
    · rw [hruns]
      refine congrArg (List.cons _) ?_
      rw [State.clkoutTaken_eq hscan]
      rfl
    · rw [State.clkout_rd _ _ rfl]
      exact (((SameFields.refl s _).of_rd fun f i => State.emit_rd s _ rfl).wr (by simp) _) f j hf

/-! PROOFS. Synthesizers and the voltage-frequency sequencer (R379 to R384, R395). -/

/-! ## Synthesizers (R379) -/

section
variable {s : State} {w : Writer} {n k f : Nat}

theorem State.setSynth_same (x : Synth) : (s.setSynth n k x).synthAt n k = x := by
  rw [State.setSynth_synthAt, if_pos ⟨rfl, rfl⟩]

theorem State.setSynth_now (x : Synth) : (s.setSynth n k x).now = s.now :=
  State.setSynth_keeps (Keeps.part (p := .now) rfl (by decide) s) s n k x rfl

/-- A frequency begins a glide of a synthesizer that runs and stands still. -/
theorem State.synthGo_glides (heq : (s.synthAt n k).freq = (s.synthAt n k).tgt) (h0 : (s.synthAt n k).freq ≠ 0) (hf : f ≠ 0)
    (hne : (s.synthAt n k).freq ≠ f) :
    s.synthGo n k f = (s.setSynth n k { s.synthAt n k with tgt := f }).setGliding n k 1 := by
  unfold State.synthGo
  dsimp only
  rw [if_neg (by simp [heq]), if_neg (Ne.symm hne), if_neg (by simp [hf, h0])]

/-- A stopped synthesizer takes its frequency at once. -/
theorem State.synthGo_stopped (h0 : (s.synthAt 8 k).freq = 0) (ht : (s.synthAt 8 k).tgt = 0) (hf : f ≠ 0) :
    s.synthGo 8 k f = s.setSynth 8 k { freq := f, tgt := f } := by
  unfold State.synthGo
  dsimp only
  rw [if_neg (by simp [h0, ht]), if_neg (by simpa [h0] using hf), if_pos (Or.inr h0), if_pos rfl]

theorem State.synthGo_zero (h0 : (s.synthAt 8 k).freq = 0) (ht : (s.synthAt 8 k).tgt = 0) : s.synthGo 8 k 0 = s := by
  unfold State.synthGo
  dsimp only
  rw [if_neg (by simp [h0, ht]), if_pos h0.symm]

/-- A spine's frequency that stands still at 0 takes effect at once. -/
theorem State.synthGo_spine (h0 : (s.synthAt 8 k).freq = 0) (ht : (s.synthAt 8 k).tgt = 0) :
    ((s.synthGo 8 k f).synthAt 8 k).freq = f ∧ ((s.synthGo 8 k f).synthAt 8 k).tgt = f ∧ SameFields s (s.synthGo 8 k f) [] := by
  by_cases hf : f = 0
  · subst hf
    rw [State.synthGo_zero h0 ht]
    exact ⟨h0, ht, SameFields.refl s _⟩
  · rw [State.synthGo_stopped h0 ht hf, State.setSynth_same]
    exact ⟨rfl, rfl, fun g i _ => State.setSynth_rd _ _ _ _ rfl⟩

/-- The frequency of a spine is stored, and takes effect where the clocks run. -/
noncomputable def State.spnTaken (s : State) (k f : Nat) : State :=
  let s := s.wr .SPN_SYN_FREQ [k] f
  if s.clocksUp then s.synthGo 8 k f else s

theorem State.boundTrees_of_rd {t : State} (h : ∀ i, t.rd .FCLK_GSEL_SRC i = s.rd .FCLK_GSEL_SRC i)
    (h' : ∀ i, t.rd .FCLK_GSEL_ACTIVE i = s.rd .FCLK_GSEL_ACTIVE i) (n k : Nat) : t.boundTrees n k = s.boundTrees n k := by
  unfold State.boundTrees
  simp only [h, h']

/-- The fields of a spine whose frequency is taken. -/
theorem State.spnTaken_spec (k : Fin 8) (f : BitVec 21) (hc : s.clocksUp = true) (h0 : (s.synthAt 8 k).freq = 0)
    (ht : (s.synthAt 8 k).tgt = 0) : (s.spnTaken k f.toNat).rd .SPN_SYN_FREQ [k] = f.toNat ∧
      ((s.spnTaken k f.toNat).synthAt 8 k).freq = f.toNat ∧ ((s.spnTaken k f.toNat).synthAt 8 k).tgt = f.toNat ∧
      SameFields s (s.spnTaken k f.toNat) [(.SPN_SYN_FREQ, [k.val])] := by
  have hw : Fld.SPN_SYN_FREQ.spec.width = 21 := rfl
  obtain ⟨hfreq, htgt, hsame⟩ := State.synthGo_spine (s := s.wr .SPN_SYN_FREQ [k] f.toNat) (k := k) (f := f.toNat) h0 ht
  have heq : s.spnTaken k f.toNat = (s.wr .SPN_SYN_FREQ [k] f.toNat).synthGo 8 k f.toNat := if_pos hc
  rw [heq]
  refine ⟨?_, hfreq, htgt, ((SameFields.refl s _).wr (by simp) f.toNat).of_rd fun g i => hsame g i List.not_mem_nil⟩
  rw [hsame _ _ List.not_mem_nil, State.rd_wr_same, hw, Nat.mod_eq_of_lt f.isLt]

/-- A frequency of a spine to which no tree is bound. -/
theorem exec_spnSynWrite {k : Fin 8} {f : BitVec 21} (h : s.reaches w .SPN_SYN [k] = true) (hok : freqOk f.toNat = true)
    (hx : s.spineCrossed k = false) (hb : ∀ n < 8, s.boundTrees n k = [])
    (hsame : SameFields s (s.spnTaken k f.toNat) [(.SPN_SYN_FREQ, [k.val])]) :
    exec (.spnSynWrite w k f) s = .next (s.spnTaken k f.toNat) := by
  have hhigh : (List.range 8).any (fun n =>
      !(s.boundTrees n k).isEmpty && decide (treeCeil (s.rd .FVS_STAT_VCUR [n]) < f.toNat)) = false := by
    rw [List.any_eq_false]
    intro n hn
    rw [hb n (List.mem_range.mp hn)]
    simp
  have hfree : (List.range 8).foldl (fun t n => (t.boundTrees n k).foldl (fun t g => t.wr .FCLK_GSEL_LOCKED [n, g] 0) t)
      (s.spnTaken k f.toNat) = s.spnTaken k f.toNat := by
    refine rel_foldl_mem (R := fun t => t = s.spnTaken k f.toNat) _ (fun t n hn ht => ?_) rfl
    subst ht
    rw [State.boundTrees_of_rd (fun i => hsame _ i (by simp)) (fun i => hsame _ i (by simp)), hb n (List.mem_range.mp hn)]
    rfl
  refine congrArg Host.Outcome.next ((State.reach_of h ..).trans ?_)
  dsimp only
  rw [if_neg (by rw [hok, hhigh, hx]; simp)]
  split
  · rfl
  · exact hfree

theorem exec_spnSynWrite_refused {k : Fin 8} {f : BitVec 21} (h : s.reaches w .SPN_SYN [k] = true) (hbad : freqOk f.toNat = false) :
    exec (.spnSynWrite w k f) s = .next (s.drop w .SPN_SYN [k] f.toNat) :=
  congrArg Host.Outcome.next ((State.reach_of h ..).trans (if_pos (Or.inl hbad)))

theorem exec_fsynFreqWrite_refused {n : Fin 8} {k v : Fin 4} {f : BitVec 21} (h : s.reaches w .FSYN_FREQ [n, k, v] = true)
    (hbad : treeCeil v < f.toNat) : exec (.fsynFreqWrite w n k v f) s = .next (s.drop w .FSYN_FREQ [n, k, v] f.toNat) :=
  congrArg Host.Outcome.next ((State.reach_of h ..).trans (if_pos (Or.inr hbad)))

theorem exec_fsynFreqWrite {n : Fin 8} {k v : Fin 4} {f : BitVec 21} (h : s.reaches w .FSYN_FREQ [n, k, v] = true)
    (hok : freqOk f.toNat = true) (hle : f.toNat ≤ treeCeil v) : exec (.fsynFreqWrite w n k v f) s =
      .next (if s.rd .FVS_STAT_VCUR [n] = v.val then (s.wr .FSYN_FREQ_FREQ [n, k, v] f.toNat).synthGo n k f.toNat
        else s.wr .FSYN_FREQ_FREQ [n, k, v] f.toNat) := by
  have hvcur : (s.wr .FSYN_FREQ_FREQ [n, k, v] f.toNat).rd .FVS_STAT_VCUR [n] = s.rd .FVS_STAT_VCUR [n] :=
    State.rd_wr_fld _ _ _ _ _ _ (by decide)
  rw [← hvcur]
  refine congrArg Host.Outcome.next ((State.reach_of h ..).trans (if_neg ?_))
  rw [hok]
  simp [Nat.not_lt.mpr hle]

theorem State.freqStored_rd (n : Fin 8) (k v : Fin 4) (f : BitVec 21) :
    (s.wr .FSYN_FREQ_FREQ [n, k, v] f.toNat).rd .FSYN_FREQ_FREQ [n, k, v] = f.toNat := by
  have hw : Fld.FSYN_FREQ_FREQ.spec.width = 21 := rfl
  rw [State.rd_wr_same, hw, Nat.mod_eq_of_lt f.isLt]

theorem State.setGliding_die (n : Fin 8) (k v : Nat) : s.setGliding n k v = s.wr .FSYN_CTL_GLIDING [n, k] v :=
  if_neg (by have := n.isLt; omega)

/-- A synthesizer of a die begins to glide. -/
theorem State.synthGo_die {n : Fin 8} {k f : Nat} (heq : (s.synthAt n k).freq = (s.synthAt n k).tgt) (h0 : (s.synthAt n k).freq ≠ 0)
    (hf : f ≠ 0) (hne : (s.synthAt n k).freq ≠ f) : (s.synthGo n k f).synthAt n k = { s.synthAt n k with tgt := f } ∧
      (s.synthGo n k f).rd .FSYN_CTL_GLIDING [n, k] = 1 ∧
      SameFields s (s.synthGo n k f) [(.FSYN_CTL_GLIDING, [n.val, k])] := by
  rw [State.synthGo_glides heq h0 hf hne, State.setGliding_die]
  refine ⟨State.setSynth_same _, State.rd_wr_same _ _ _ _, ?_⟩
  exact (((SameFields.refl s _).of_rd fun g i => State.setSynth_rd s _ _ _ rfl).wr (by simp) _)

/-! ## The steps of a glide (R379) -/

theorem exec_synthGlideStep {n : Fin 9} {k : Fin 8} {g : Nat} (hne : (s.synthAt n k).freq ≠ (s.synthAt n k).tgt)
    (hg : (if (s.synthAt n k).freq < (s.synthAt n k).tgt then
        min (s.synthAt n k).tgt ((s.synthAt n k).freq + (s.synthAt n k).freq / 100)
      else max (s.synthAt n k).tgt ((s.synthAt n k).freq - (s.synthAt n k).freq / 100)) = g) (hgt : g ≠ (s.synthAt n k).tgt) :
    exec (.synthGlideStep n k) s = .next ((s.lapse 1000).setSynth n k { s.synthAt n k with freq := g }) := by
  change execSynthGlideStep n k s = _
  unfold execSynthGlideStep
  dsimp only
  rw [if_neg hne, hg, if_pos hgt]

/-- What a step of a glide that goes on leaves. -/
theorem State.glideStep_spec (n k : Nat) (x : Synth) (dt : Nat) : ((s.lapse dt).setSynth n k x).synthAt n k = x ∧
    ((s.lapse dt).setSynth n k x).now = s.now + dt ∧ SameFields s ((s.lapse dt).setSynth n k x) [] :=
  ⟨State.setSynth_same x, State.setSynth_now x, fun _ _ _ => (State.setSynth_rd _ _ _ _ rfl).trans (State.lapse_rd _ _ rfl)⟩

/-- The last step of a spine's glide. -/
theorem exec_synthGlideStep_last {k : Fin 8} (hlt : (s.synthAt 8 k).freq < (s.synthAt 8 k).tgt)
    (hle : (s.synthAt 8 k).tgt ≤ (s.synthAt 8 k).freq + (s.synthAt 8 k).freq / 100) (hn : (s.synthAt 8 k).next = none) :
    exec (.synthGlideStep 8 k) s = .next (((s.lapse 1000).setSynth 8 k
      { freq := (s.synthAt 8 k).tgt, tgt := (s.synthAt 8 k).tgt }).wr .SPN_SYN_GLIDING [k] 0) := by
  change execSynthGlideStep 8 k s = _
  unfold execSynthGlideStep
  dsimp only
  rw [show ((8 : Fin 9) : Nat) = 8 from rfl, if_neg hlt.ne, if_pos hlt, Nat.min_eq_left hle, if_neg (fun h => h rfl), hn]
  rfl

end

/-! ## The sequencer (R384) -/

section
variable {s : State} {w : Writer} {n : Fin 8}

theorem exec_vselSequence_refused {v : BitVec 2} (h : s.reaches w .FVS_CTL [n] = true) (hbad : s.vselBad n v.toNat = true) :
    exec (.vselSequence w n v) s = .next ((s.wr .FVS_STAT_FAIL [n] 1).drop w .FVS_CTL [n]
      (s.wordWith .FVS_CTL [n] [(.FVS_CTL_VSEL, v.toNat)])) :=
  congrArg Host.Outcome.next ((State.reach_of h ..).trans (if_pos hbad))

/-- A setting is taken: the synthesizers that are above it go down (R384). -/
noncomputable def State.vselTaken (s : State) (n v : Nat) : State :=
  (((s.wr .FVS_CTL_VSEL [n] v).wr .FVS_STAT_BUSY [n] 1).setFvs n { step := 1 })

theorem exec_vselSequence {v : BitVec 2} (h : s.reaches w .FVS_CTL [n] = true) (hgood : s.vselBad n v.toNat = false)
    (hlow : ∀ k < 4, (s.synthAt n k).freq ≤ s.rd .FSYN_FREQ_FREQ [n, k, v.toNat]) :
    exec (.vselSequence w n v) s = .next ((s.vselTaken n v.toNat).fvsAdvance n) := by
  have hstay : (List.range 4).foldl (fun s k =>
      if s.rd .FSYN_FREQ_FREQ [n, k, v.toNat] < (s.synthAt n k).freq then s.synthGo n k (s.rd .FSYN_FREQ_FREQ [n, k, v.toNat])
      else s) (s.vselTaken n v.toNat) = s.vselTaken n v.toNat := by
    refine rel_foldl_mem (R := fun t => t = s.vselTaken n v.toNat) _ (fun t k hk ht => ?_) rfl
    subst ht
    have hrd : (s.vselTaken n v.toNat).rd .FSYN_FREQ_FREQ [n, k, v.toNat] = s.rd .FSYN_FREQ_FREQ [n, k, v.toNat] := by
      unfold State.vselTaken
      rw [State.setFvs_rd _ _ _ rfl, State.rd_wr_fld _ _ _ _ _ _ (by decide), State.rd_wr_fld _ _ _ _ _ _ (by decide)]
    rw [hrd]
    exact if_neg (Nat.not_lt.mpr (hlow k (List.mem_range.mp hk)))
  refine congrArg Host.Outcome.next ((State.reach_of h ..).trans ((if_neg (by rw [hgood]; simp)).trans ?_))
  dsimp only
  exact congrArg (State.fvsAdvance · n) hstay

theorem State.fvsAdvance_moving (h : s.fsynMoves n = true) : s.fvsAdvance n = s := if_pos h

theorem State.fvsAdvance_rail (hm : s.fsynMoves n = false) (hs : (s.fvsAt n).step = 1) : s.fvsAdvance n = s.fvsRail n :=
  (if_neg (by rw [hm]; simp)).trans (if_pos hs)

theorem State.fvsAdvance_ends (hm : s.fsynMoves n = false) (hs : (s.fvsAt n).step = 3) : s.fvsAdvance n = s.fvsEnd n false :=
  (if_neg (by rw [hm]; simp)).trans ((if_neg (by rw [hs]; decide)).trans (if_pos hs))

theorem State.fsynMoves_of_rd {t : State} (h : ∀ i, t.rd .FSYN_CTL_GLIDING i = s.rd .FSYN_CTL_GLIDING i)
    (h' : ∀ i, t.rd .FSYN_CTL_PERMIT_WAIT i = s.rd .FSYN_CTL_PERMIT_WAIT i) (n : Nat) : t.fsynMoves n = s.fsynMoves n := by
  unfold State.fsynMoves State.on
  simp only [h, h']

theorem State.vselTaken_sameFields (v : Nat) : SameFields s (s.vselTaken n v) [(.FVS_CTL_VSEL, [n.val]), (.FVS_STAT_BUSY, [n.val])] :=
  (((SameFields.refl s _).wr (by simp) v).wr (by simp) 1).of_rd fun _ _ => State.setFvs_rd _ _ _ rfl

theorem State.settleNs_of_rd {t : State} (h : t.rd .FVS_CTL_SETTLE [n] = s.rd .FVS_CTL_SETTLE [n]) : t.settleNs n = s.settleNs n := by
  unfold State.settleNs
  rw [h]

/-- With nothing moving the rail is driven at once. -/
theorem State.vselTaken_rail (v : BitVec 2) (hm : s.fsynMoves n = false) :
    ((s.vselTaken n v.toNat).fvsAdvance n).rd .FVS_CTL_VSEL [n] = v.toNat ∧
      ((s.vselTaken n v.toNat).fvsAdvance n).rd .FVS_STAT_BUSY [n] = 1 ∧
      ((s.vselTaken n v.toNat).fvsAdvance n).fvsAt n = { step := 2, t0 := s.now, due := s.now + s.settleNs n } ∧
      ((s.vselTaken n v.toNat).fvsAdvance n).out = .pin (20 + n) v.toNat :: s.out ∧
      SameFields s ((s.vselTaken n v.toNat).fvsAdvance n) [(.FVS_CTL_VSEL, [n.val]), (.FVS_STAT_BUSY, [n.val])] := by
  have hsame := State.vselTaken_sameFields (s := s) (n := n) v.toNat
  have hvsel : (s.vselTaken n v.toNat).rd .FVS_CTL_VSEL [n] = v.toNat := by
    have hw : Fld.FVS_CTL_VSEL.spec.width = 2 := rfl
    unfold State.vselTaken
    rw [State.setFvs_rd _ _ _ rfl, State.rd_wr_fld _ _ _ _ _ _ (by decide), State.rd_wr_same, hw, Nat.mod_eq_of_lt v.isLt]
  have hbusy : (s.vselTaken n v.toNat).rd .FVS_STAT_BUSY [n] = 1 := by
    unfold State.vselTaken
    rw [State.setFvs_rd _ _ _ rfl, State.rd_wr_same]
    rfl
  have hstep : ((s.vselTaken n v.toNat).fvsAt n).step = 1 := by
    unfold State.vselTaken
    rw [State.setFvs_fvsAt, if_pos rfl]
  have hmoves : (s.vselTaken n v.toNat).fsynMoves n = false :=
    (State.fsynMoves_of_rd (fun i => hsame _ i (by simp)) (fun i => hsame _ i (by simp)) _).trans hm
  have hsettle : (s.vselTaken n v.toNat).settleNs n = s.settleNs n := State.settleNs_of_rd (hsame _ _ (by simp))
  rw [State.fvsAdvance_rail hmoves hstep]
  unfold State.fvsRail
  rw [hvsel, hsettle]
  have hnow : (s.vselTaken n v.toNat).now = s.now := rfl
  have hout : (s.vselTaken n v.toNat).out = s.out := rfl
  rw [hnow]
  generalize hu : (s.vselTaken n v.toNat).setFvs n { step := 2, t0 := s.now, due := s.now + s.settleNs n } = u
  have hscan : Out.scanned (.pin (20 + n.val) v.toNat) = false := by
    have := n.isLt
    simp only [Out.scanned]
    simp
    omega
  have hrd : ∀ f i, (u.emit (.pin (20 + n.val) v.toNat)).rd f i = (s.vselTaken n v.toNat).rd f i := fun f i => by
    rw [State.emit_rd _ _ rfl, ← hu]
    exact State.setFvs_rd _ _ _ rfl
  refine ⟨(hrd _ _).trans hvsel, (hrd _ _).trans hbusy, ?_, ?_, hsame.of_rd hrd⟩
  · have hfvs : (u.emit (.pin (20 + n.val) v.toNat)).fvsAt n = u.fvsAt n :=
      congrArg (fun m => smGet m [n.val] ({} : Fvs)) (State.emit_keeps (Keeps.part (p := .fvs) rfl (by decide) u) u _ rfl)
    rw [hfvs, ← hu, State.setFvs_fvsAt, if_pos rfl]
  · rw [State.emit_out _ _ hscan, ← hu]
    rfl

/-! ## The rail (R384) -/

theorem exec_railSettleCheck_again (hs : (s.fvsAt n).step = 2) (hd : (s.fvsAt n).due < (s.fvsAt n).t0 + 4 * s.settleNs n) :
    exec (.railSettleCheck n false) s = .next ((s.lapseTo (s.fvsAt n).due).setFvs n { s.fvsAt n with
      due := min ((s.fvsAt n).due + 10000) ((s.fvsAt n).t0 + 4 * s.settleNs n) }) := by
  have hset : (s.lapseTo (s.fvsAt n).due).settleNs n = s.settleNs n := rfl
  change execRailSettleCheck n false s = _
  unfold execRailSettleCheck
  dsimp only
  rw [if_pos hs, if_neg (by decide), hset, if_neg (Nat.not_le.mpr hd)]

theorem exec_railSettleCheck_late (hs : (s.fvsAt n).step = 2) (hd : (s.fvsAt n).t0 + 4 * s.settleNs n ≤ (s.fvsAt n).due) :
    exec (.railSettleCheck n false) s =
      .next (((s.lapseTo (s.fvsAt n).due).fvsEnd n true).raise .FVS_CTL [n] 384 0 [n]) := by
  have hset : (s.lapseTo (s.fvsAt n).due).settleNs n = s.settleNs n := rfl
  change execRailSettleCheck n false s = _
  unfold execRailSettleCheck
  dsimp only
  rw [if_pos hs, if_neg (by decide), hset, if_pos hd]

theorem exec_railSettleCheck_right (hs : (s.fvsAt n).step = 2) : exec (.railSettleCheck n true) s =
    .next (((s.lapseTo (s.fvsAt n).due).wr .FVS_STAT_VCUR [n] (s.rd .FVS_CTL_VSEL [n])).fvsRise n) := by
  change execRailSettleCheck n true s = _
  unfold execRailSettleCheck
  dsimp only
  rw [if_pos hs, if_pos rfl]
  rfl

theorem State.fvsEnd_fvsAt (b : Bool) : (s.fvsEnd n b).fvsAt n = {} := by
  have hwr : ∀ (u : State) (f : Fld) (i : List Nat) (v : Nat), (u.wr f i v).fvsAt n = u.fvsAt n := fun _ _ _ _ => rfl
  unfold State.fvsEnd
  dsimp only
  split
  · rw [hwr, hwr, State.setFvs_fvsAt, if_pos rfl]
  · rw [hwr, State.setFvs_fvsAt, if_pos rfl]

theorem State.fvsEnd_failed : (s.fvsEnd n true).rd .FVS_STAT_BUSY [n] = 0 ∧ (s.fvsEnd n true).rd .FVS_STAT_FAIL [n] = 1 ∧
    (s.fvsEnd n true).rd .FVS_STAT_VCUR [n] = s.rd .FVS_STAT_VCUR [n] := by
  unfold State.fvsEnd
  simp only [if_true]
  refine ⟨?_, State.rd_wr_same _ _ _ _, ?_⟩
  · rw [State.rd_wr_fld _ _ _ _ _ _ (by decide), State.rd_wr_same]
    rfl
  · rw [State.rd_wr_fld _ _ _ _ _ _ (by decide), State.rd_wr_fld _ _ _ _ _ _ (by decide), State.setFvs_rd _ _ _ rfl]

/-- With nothing to raise the sequence ends. -/
theorem State.fvsRise_ends (he : (s.gov n).expired = [])
    (hup : ∀ k < 4, s.rd .FSYN_FREQ_FREQ [n, k, s.rd .FVS_STAT_VCUR [n]] ≤ (s.synthAt n k).freq) (hm : s.fsynMoves n = false) :
    s.fvsRise n = (s.setFvs n { step := 3 }).fvsEnd n false := by
  generalize hu : s.setFvs n { step := 3 } = u
  have hrd : ∀ f i, u.rd f i = s.rd f i := fun f i => by rw [← hu]; exact State.setFvs_rd _ _ _ rfl
  have hsyn : ∀ k, u.synthAt n k = s.synthAt n k := fun k => by rw [← hu]; rfl
  have hstay : (List.range 4).foldl (fun t k =>
      if (t.synthAt n k).freq < t.rd .FSYN_FREQ_FREQ [n, k, s.rd .FVS_STAT_VCUR [n]] then
        if t.treeUses n k then
          (t.wr .FSYN_CTL_PERMIT_WAIT [n, k] 1).request n 15
            (ceilDiv (t.rd .FSYN_FREQ_FREQ [n, k, s.rd .FVS_STAT_VCUR [n]] - (t.synthAt n k).freq) 100000) [k] []
        else t.synthGo n k (t.rd .FSYN_FREQ_FREQ [n, k, s.rd .FVS_STAT_VCUR [n]])
      else t) u = u := by
    refine rel_foldl_mem (R := fun t => t = u) _ (fun t k hk ht => ?_) rfl
    subst ht
    rw [hrd, hsyn]
    exact if_neg (Nat.not_lt.mpr (hup k (List.mem_range.mp hk)))
  have hexp : u.riseTimeouts n = u := if_neg (by
    have : (u.gov n).expired = [] := by rw [← hu]; exact he
    rw [this]
    simp)
  have hmoves : u.fsynMoves n = false := (State.fsynMoves_of_rd (fun i => hrd _ i) (fun i => hrd _ i) _).trans hm
  have hstep : (u.fvsAt n).step = 3 := by rw [← hu, State.setFvs_fvsAt, if_pos rfl]
  unfold State.fvsRise
  dsimp only
  rw [hu, hstay, hexp, State.fvsAdvance_ends hmoves hstep]

theorem State.fvsEnd_good : (s.fvsEnd n false).rd .FVS_STAT_BUSY [n] = 0 ∧
    (s.fvsEnd n false).rd .FVS_STAT_VCUR [n] = s.rd .FVS_STAT_VCUR [n] := by
  unfold State.fvsEnd
  simp only [Bool.false_eq_true, if_false]
  refine ⟨State.rd_wr_same _ _ _ _, ?_⟩
  rw [State.rd_wr_fld _ _ _ _ _ _ (by decide), State.setFvs_rd _ _ _ rfl]

/-- A synthesizer that rises has its permit (R384, R395). -/
theorem exec_synthRiseGrant {k : Fin 4} {u : State} (hw : s.on .FSYN_CTL_PERMIT_WAIT [n, k] = true)
    (ht : s.takeGrant n 15 [k] = some u) : exec (.synthRiseGrant n k) s =
      .next (((u.wr .FSYN_CTL_PERMIT_WAIT [n, k] 0).synthGo n k (u.rd .FSYN_FREQ_FREQ [n, k, u.rd .FVS_STAT_VCUR [n]])).fvsAdvance n) := by
  have hvcur : (u.wr .FSYN_CTL_PERMIT_WAIT [n, k] 0).rd .FVS_STAT_VCUR [n] = u.rd .FVS_STAT_VCUR [n] :=
    State.rd_wr_fld _ _ _ _ _ _ (by decide)
  have hfreq : (u.wr .FSYN_CTL_PERMIT_WAIT [n, k] 0).rd .FSYN_FREQ_FREQ [n, k, u.rd .FVS_STAT_VCUR [n]] =
      u.rd .FSYN_FREQ_FREQ [n, k, u.rd .FVS_STAT_VCUR [n]] := State.rd_wr_fld _ _ _ _ _ _ (by decide)
  change execSynthRiseGrant n k s = _
  unfold execSynthRiseGrant
  rw [if_pos hw, ht]

/-- A rise that begins moves its synthesizer, so the sequence goes on. -/
theorem State.rise_spec {k : Fin 4} {f : Nat} (heq : (s.synthAt n k).freq = (s.synthAt n k).tgt) (h0 : (s.synthAt n k).freq ≠ 0)
    (hlt : (s.synthAt n k).freq < f) :
    (((s.wr .FSYN_CTL_PERMIT_WAIT [n, k] 0).synthGo n k f).fvsAdvance n).rd .FSYN_CTL_PERMIT_WAIT [n, k] = 0 ∧
      (((s.wr .FSYN_CTL_PERMIT_WAIT [n, k] 0).synthGo n k f).fvsAdvance n).rd .FSYN_CTL_GLIDING [n, k] = 1 ∧
      ((((s.wr .FSYN_CTL_PERMIT_WAIT [n, k] 0).synthGo n k f).fvsAdvance n).synthAt n k).tgt = f := by
  obtain ⟨hsyn, hglide, hsame⟩ := State.synthGo_die (s := s.wr .FSYN_CTL_PERMIT_WAIT [n, k] 0) (n := n) (k := k) (f := f) heq h0
    (by omega) hlt.ne
  have hmoves : ((s.wr .FSYN_CTL_PERMIT_WAIT [n, k] 0).synthGo n k f).fsynMoves n = true := by
    refine List.any_eq_true.mpr ⟨k, List.mem_range.mpr k.isLt, ?_⟩
    unfold State.on
    rw [hglide]
    rfl
  rw [State.fvsAdvance_moving hmoves]
  refine ⟨?_, hglide, by rw [hsyn]⟩
  rw [hsame _ _ (by simp), State.rd_wr_same]
  rfl

end

/-- Settles O47, by the fields that each command leaves of a synthesizer and of the sequencer. -/
theorem synthesizersGlideAndTheRailFollowsVsel : Obligations.SynthesizersGlideAndTheRailFollowsVsel := by
  unfold Obligations.SynthesizersGlideAndTheRailFollowsVsel
  refine ⟨?spnRefused, ?spnStopped, ?fsynRefused, ?fsynStored, ?fsynGlides, ?stepUp, ?stepDown, ?stepLast, ?vselRefused, ?vsel,
    ?railAgain, ?railLate, ?railRight, ?rise⟩
  case spnRefused =>
    exact fun w k f s h hbad => ⟨_, exec_spnSynWrite_refused h hbad, State.drop_sameFields _ _ _ _ _, rfl⟩
  case spnStopped =>
    intro w k f s h hok hx hb hc h0 ht
    have hfree : ∀ n < 8, s.boundTrees n k = [] := fun n hn =>
      List.isEmpty_iff.mp (List.all_eq_true.mp hb n (List.mem_range.mpr hn))
    have hspec := State.spnTaken_spec k f hc h0 ht
    exact ⟨_, exec_spnSynWrite h hok hx hfree hspec.2.2.2, hspec⟩
  case fsynRefused =>
    exact fun w n k v f s h hbad => ⟨_, exec_fsynFreqWrite_refused h hbad, State.drop_sameFields _ _ _ _ _, rfl⟩
  case fsynStored =>
    intro w n k v f s h hok hle hv
    exact ⟨_, (exec_fsynFreqWrite h hok hle).trans (congrArg _ (if_neg hv)), State.freqStored_rd n k v f, rfl,
      (SameFields.refl s _).wr (by simp) _⟩
  case fsynGlides =>
    intro w n k v f s h hok hle hv hf heq h0 hne
    obtain ⟨hsyn, hglide, hsame⟩ := State.synthGo_die (s := s.wr .FSYN_FREQ_FREQ [n, k, v] f.toNat) (n := n) (k := k)
      (f := f.toNat) heq h0 hf hne
    refine ⟨_, (exec_fsynFreqWrite h hok hle).trans (congrArg _ (if_pos hv)), ?_, hglide, by rw [hsyn]; rfl, by rw [hsyn]⟩
    rw [hsame _ _ (by simp), State.freqStored_rd]
  case stepUp =>
    intro n k s h
    obtain ⟨hsyn, hnow, hsame⟩ := State.glideStep_spec (s := s) n k
      { s.synthAt n k with freq := (s.synthAt n k).freq + (s.synthAt n k).freq / 100 } 1000
    refine ⟨_, exec_synthGlideStep (by omega) ((if_pos (by omega)).trans (Nat.min_eq_right h.le)) h.ne, ?_, ?_, hnow, hsame⟩
    · rw [hsyn]
    · rw [hsyn]
  case stepDown =>
    intro n k s h
    obtain ⟨hsyn, hnow, hsame⟩ := State.glideStep_spec (s := s) n k
      { s.synthAt n k with freq := (s.synthAt n k).freq - (s.synthAt n k).freq / 100 } 1000
    refine ⟨_, exec_synthGlideStep (by omega) ((if_neg (by omega)).trans (Nat.max_eq_right (by omega))) (by omega), ?_, ?_, hnow, hsame⟩
    · rw [hsyn]
    · rw [hsyn]
  case stepLast =>
    intro k s hlt hn hle
    obtain ⟨hsyn, hnow, hsame⟩ := State.glideStep_spec (s := s) 8 k { freq := (s.synthAt 8 k).tgt, tgt := (s.synthAt 8 k).tgt } 1000
    refine ⟨_, exec_synthGlideStep_last hlt hle hn, ?_, State.rd_wr_same _ _ _ _, ?_⟩
    · exact congrArg Synth.freq hsyn
    · exact SameFields.wr (SameFields.mono hsame (by simp)) (by simp) _
  case vselRefused =>
    intro w n v s h hbad
    refine ⟨_, exec_vselSequence_refused h hbad, ?_, ?_⟩
    · rw [State.drop_sameFields _ _ _ _ _ _ _ List.not_mem_nil, State.rd_wr_same]
      rfl
    · exact ((SameFields.refl s _).wr (by simp) 1).of_rd fun g i => State.drop_sameFields _ _ _ _ _ g i List.not_mem_nil
  case vsel =>
    intro w n v s h hgood hlow hm
    refine ⟨_, exec_vselSequence h hgood fun k hk => ?_, State.vselTaken_rail v hm⟩
    exact of_decide_eq_true (List.all_eq_true.mp hlow k (List.mem_range.mpr hk))
  case railAgain =>
    intro n s hs hd
    refine ⟨_, exec_railSettleCheck_again hs hd, ?_, State.lapseTo_now _ _, ?_, fun g i _ => ?_⟩
    · rw [State.setFvs_fvsAt, if_pos rfl]
      exact hs
    · rw [State.setFvs_fvsAt, if_pos rfl]
    · exact (State.setFvs_rd _ _ _ rfl).trans (State.lapseTo_rd _ _ rfl)
  case railLate =>
    intro n s hs hd
    have hfvs : ∀ u : State, (u.raise .FVS_CTL [n] 384 0 [n]).fvsAt n = u.fvsAt n := fun u =>
      congrArg (fun m => smGet m [n.val] ({} : Fvs)) (State.raise_keeps (Keeps.part (p := .fvs) rfl (by decide) u) u _ _ _ _ _ rfl)
    obtain ⟨hbusy, hfail, hvcur⟩ := State.fvsEnd_failed (s := s.lapseTo (s.fvsAt n).due) (n := n)
    exact ⟨_, exec_railSettleCheck_late hs hd, (hfvs _).trans (State.fvsEnd_fvsAt _), (State.raise_rd _ _ _ _ _ _ rfl).trans hbusy,
      (State.raise_rd _ _ _ _ _ _ rfl).trans hfail,
      (State.raise_rd _ _ _ _ _ _ rfl).trans (hvcur.trans (State.lapseTo_rd _ _ rfl))⟩
  case railRight =>
    intro n s hs hv he hup hm
    have hw : Fld.FVS_STAT_VCUR.spec.width = 2 := rfl
    generalize hu : (s.lapseTo (s.fvsAt n).due).wr .FVS_STAT_VCUR [n] (s.rd .FVS_CTL_VSEL [n]) = u
    have hrd : ∀ g i, g ≠ .FVS_STAT_VCUR → u.rd g i = s.rd g i := fun g i hg => by
      rw [← hu, State.rd_wr_fld _ _ _ _ _ _ (Ne.symm hg)]
      exact State.lapseTo_rd _ _ rfl
    have hvcur : u.rd .FVS_STAT_VCUR [n] = s.rd .FVS_CTL_VSEL [n] := by
      rw [← hu, State.rd_wr_same, hw]
      exact Nat.mod_eq_of_lt hv
    have hsyn : ∀ k, u.synthAt n k = s.synthAt n k := fun k => by rw [← hu]; rfl
    have hends := State.fvsRise_ends (s := u) (n := n) (by rw [← hu]; exact he)
      (fun k hk => by
        rw [hvcur, hsyn, hrd _ _ (by decide)]
        exact of_decide_eq_true (List.all_eq_true.mp hup k (List.mem_range.mpr hk)))
      ((State.fsynMoves_of_rd (fun i => hrd _ i (by decide)) (fun i => hrd _ i (by decide)) _).trans hm)
    refine ⟨u.fvsRise n, (exec_railSettleCheck_right hs).trans (by rw [hu]), ?_⟩
    obtain ⟨hbusy, hkeep⟩ := State.fvsEnd_good (s := u.setFvs n { step := 3 }) (n := n)
    rw [hends]
    exact ⟨hkeep.trans ((State.setFvs_rd _ _ _ rfl).trans hvcur), hbusy, State.fvsEnd_fvsAt _⟩
  case rise =>
    intro n k s hw hg heq h0 hlt
    obtain ⟨u, hu⟩ := State.takeGrant_of_grantReady hg
    have hsyn : u.synthAt n k = s.synthAt n k :=
      congrArg (fun m => smGet m [n.val, k.val] ({} : Synth)) (State.takeGrant_part hu (p := .synth) rfl)
    refine ⟨_, exec_synthRiseGrant hw hu, ?_⟩
    rw [State.takeGrant_rd hu rfl, State.takeGrant_rd hu rfl]
    exact State.rise_spec (by rw [hsyn]; exact heq) (by rw [hsyn]; exact h0) (by rw [hsyn]; exact hlt)

/-! PROOFS. Helm cores: release, reset, interrupts and watchdogs (R465 to R470, R476 to R479). -/

/-! ## Writes of a core's block -/

section
variable {s : State} {w : Writer} {r : Reg} {c v : Nat} {k : State → State}

theorem State.blockWrite_taken (hm : s.mute w = false) (hw : s.blockWriter w c = true) : s.blockWrite w r c v k = k (s.relock c) :=
  (if_neg (by rw [hm]; simp)).trans (if_neg (by rw [hw]; simp))

/-- What holds of the state, of the dropped write and of the command's result holds after a write of a core's block. -/
theorem State.blockWrite_cases {P : State → Prop} (hs : P s) (hd : P (s.drop w r [c] v)) (hk : P (k (s.relock c))) :
    P (s.blockWrite w r c v k) := by
  unfold State.blockWrite
  split
  · exact hs
  · split
    · exact hd
    · exact hk

theorem State.relock_sameFields (s : State) (c : Nat) (l : List (Fld × List Nat)) : SameFields s (s.relock c) l :=
  fun _ _ _ => State.relock_rd _ _ rfl

theorem State.relock_helmRt : (s.relock c).helmRt c = { s.helmRt c with unlock := none } := by
  unfold State.relock
  rw [State.setHelm_helmRt, if_pos rfl]

theorem State.drop_helm (i : List Nat) : (s.drop w r i v).helm = s.helm :=
  State.raiseFixed_keeps (Keeps.part (p := .helm) rfl (by decide) s) s r i _ _ _ rfl

theorem State.drop_helmRt (i : List Nat) (c : Nat) : (s.drop w r i v).helmRt c = s.helmRt c :=
  congrArg (fun m => smGet m [c] ({} : HelmRt)) (State.drop_helm i)

theorem State.helmRt_wr (f : Fld) (i : List Nat) (x c : Nat) : (s.wr f i x).helmRt c = s.helmRt c := rfl

/-- A write that ends as a dropped one changes no field. -/
theorem State.blockWrite_dropped {i : List Nat} {r' : Reg} {v' : Nat} (hk : k (s.relock c) = (s.relock c).drop w r' i v') :
    SameFields s (s.blockWrite w r c v k) [] :=
  State.blockWrite_cases (P := fun t => SameFields s t []) (SameFields.refl s _) (State.drop_sameFields _ _ _ _ _)
    (by rw [hk]; exact (State.relock_sameFields s c []).of_rd fun f i' => State.drop_sameFields _ _ _ _ _ f i' List.not_mem_nil)

end

/-! ## The count of a watchdog (R477, R478) -/

section
variable {s : State} {c : Nat}

/-- A core's data but for what is left of its watchdog's count. -/
theorem State.wdSync_helmRt : (s.wdSync c).helmRt c =
    { s.helmRt c with wdLeft := s.wdCount c, wdT := if s.wdRuns c then some s.now else none } := by
  unfold State.wdSync
  rw [State.setHelm_helmRt, if_pos rfl]

/-- A loaded count (R477). -/
theorem State.wdLoad_helmRt : ∃ t, (s.wdLoad c).helmRt c = { s.helmRt c with wdLeft := s.rd .HELM_WDT_LOAD_US [c] * 1000, wdT := t } := by
  unfold State.wdLoad
  rw [State.wdSync_helmRt]
  unfold State.wdCount
  rw [State.setHelm_helmRt, if_pos rfl]
  exact ⟨_, rfl⟩

end

/-! ## Starting and resetting (R469, R470, R476) -/

section
variable {s : State} {c : Fin 8}

theorem State.helmTimeouts_none (h : (s.gov 8).expired = []) : s.helmTimeouts = s := by
  unfold State.helmTimeouts
  refine rel_foldl (R := fun t => t = s) (fun t c ht => ?_) _ rfl
  subst ht
  exact if_neg (by rw [h]; simp)

/-- A core that asks for its permit (R469). -/
theorem State.coreAsk_spec (hfit : 2 ≤ s.rd .PG_CFG_BUDGET [8]) (he : (s.gov 8).expired = []) :
    (s.coreAsk c).helmTimeouts.coreState c = 1 ∧
      ((s.coreAsk c).helmTimeouts.gov 8).queue.length = (s.gov 8).queue.length + 1 ∧
      SameFields s (s.coreAsk c).helmTimeouts [(.HELM_CORE_STAT_STATE, [c.val])] := by
  have hfit' : 2 ≤ (s.setCore c 1).rd .PG_CFG_BUDGET [8] := by rwa [State.setCore_rd _ _ _ rfl]
  have hexp : ((s.coreAsk c).gov 8).expired = [] := by
    unfold State.coreAsk State.request
    dsimp only
    rw [if_neg (Nat.not_lt.mpr hfit'), State.setGov_gov, if_pos rfl]
    exact he
  rw [State.helmTimeouts_none hexp]
  have hrd : ∀ f i, (s.coreAsk c).rd f i = (s.setCore c 1).rd f i := State.request_sameFields hfit' _ _ _
  refine ⟨?_, State.request_queue_length _ _ _ _ _ _ hfit', ((SameFields.refl s _).wr (by simp) 1).of_rd hrd⟩
  exact (hrd _ _).trans (State.rd_wr_same _ _ _ _)

theorem exec_helmCoreRelease {w : Writer} (hm : s.mute w = false) (hw : s.blockWriter w c = true) (h0 : s.coreState c = 0) :
    exec (.helmCoreRelease w c) s = .next ((s.relock c).coreAsk c).helmTimeouts := by
  have h0' : (s.relock c).coreState c = 0 := (State.relock_rd _ _ rfl).trans h0
  exact congrArg Host.Outcome.next ((State.blockWrite_taken hm hw).trans (if_pos h0'))

theorem exec_helmCoreRelease_other {w : Writer} (h0 : s.coreState c ≠ 0) :
    ∃ t, exec (.helmCoreRelease w c) s = .next t ∧ SameFields s t [] := by
  have h0' : (s.relock c).coreState c ≠ 0 := fun h => h0 ((State.relock_rd _ _ rfl).symm.trans h)
  exact ⟨_, rfl, State.blockWrite_dropped (if_neg h0')⟩

/-- The data of a core that starts; `hold`: its boot halt. -/
def startRt (vec : Nat) (hold : Bool) : HelmRt := { pc := vec, dvec := vec + 0x200, hold := hold, fresh := hold }

theorem exec_helmCoreStart {u : State} (h1 : s.coreState c = 1) (ht : s.takeGrant 8 18 [c] = some u) : exec (.helmCoreStart c) s =
    .next ((if (u.rd .PEL_BOOTHALT_MASK []).testBit c then
      ((u.setHelm c (startRt u.bootVec true)).setCore c 4).wr .HELM_DBG_STAT_CAUSE [c] 5
      else (u.setHelm c (startRt u.bootVec false)).setCore c 2).wdLoad c) := by
  change execHelmCoreStart c s = _
  unfold execHelmCoreStart
  rw [if_pos h1, ht]
  dsimp only
  generalize u.bootVec = v
  generalize (u.rd .PEL_BOOTHALT_MASK []).testBit c = b
  cases b with
  | false => rw [if_neg Bool.false_ne_true, if_neg Bool.false_ne_true]; rfl
  | true => rw [if_pos rfl, if_pos rfl]; rfl

theorem State.bootVec_of_rd {t : State} (h : t.rd .HELM_BOOT_LO_VEC [] = s.rd .HELM_BOOT_LO_VEC [])
    (h' : t.rd .HELM_BOOT_HI_VEC [] = s.rd .HELM_BOOT_HI_VEC []) : t.bootVec = s.bootVec := by
  unfold State.bootVec
  rw [h, h']

theorem State.setCore_same (v : Nat) (hv : v < 8) (c : Nat) : (s.setCore c v).coreState c = v :=
  (State.rd_wr_same _ _ _ _).trans (Nat.mod_eq_of_lt hv)

/-- A core that starts runs at the boot vector. -/
theorem State.started_helmRt (x : HelmRt) (f : State → State) (hf : ∀ u : State, (f u).helmRt c = u.helmRt c) :
    ∃ n t, ((f (s.setHelm c x)).wdLoad c).helmRt c = { x with wdLeft := n, wdT := t } := by
  obtain ⟨t, ht⟩ := State.wdLoad_helmRt (s := f (s.setHelm c x)) (c := c)
  rw [hf, State.setHelm_helmRt, if_pos rfl] at ht
  exact ⟨_, t, ht⟩

/-- The registers of class CORE of a core in reset (R470). -/
theorem State.coreReset_core {f : Fld} (hc : f.spec.cls = .core) : (s.coreReset c).rd f [c] = f.reset [c] := by
  have hst : Fld.HELM_CORE_STAT_STATE ≠ f := fun h => by subst h; cases hc
  have hclr : coreClears c f [c] = true := by simp [coreClears, hc]
  unfold State.coreReset
  rw [State.setHelm_rd _ _ _ rfl]
  change ((((s.l1Reset c).giveBack 8 18 [c]).clearRegs (coreClears c)).setCore c 0).rd f [c] = _
  unfold State.setCore
  rw [State.rd_wr_fld _ _ _ _ _ _ hst, State.rd_clearRegs, if_pos hclr]

theorem State.coreReset_state : (s.coreReset c).coreState c = 0 := by
  unfold State.coreReset State.coreState
  rw [State.setHelm_rd _ _ _ rfl]
  change ((((s.l1Reset c).giveBack 8 18 [c]).clearRegs (coreClears c)).setCore c 0).rd .HELM_CORE_STAT_STATE [c] = 0
  exact State.setCore_same 0 (by decide) c

theorem State.coreReset_helmRt : (s.coreReset c).helmRt c = {} := by
  unfold State.coreReset
  rw [State.setHelm_helmRt, if_pos rfl]

theorem State.coreReset_mail : (s.coreReset c).mail.all (fun m => m.src != 8 + c.val) = true := by
  refine List.all_eq_true.mpr fun m hm => ?_
  simpa using (List.mem_filter.mp hm).2

theorem State.giveBack_queue (g op : Nat) (who : List Nat) : ((s.giveBack g op who).gov g).queue.any (·.is op who) = false := by
  unfold State.giveBack
  dsimp only
  rw [State.setGov_gov, if_pos rfl]
  simp only [List.any_filter, List.any_eq_false]
  intro p _
  cases p.is op who <;> simp

theorem State.coreReset_queue : ((s.coreReset c).gov 8).queue.any (·.is 18 [c]) = false :=
  State.giveBack_queue (s := s.l1Reset c) 8 18 [c]

end

/-! ## Interrupts (R465 to R468) -/

section
variable {s : State} {c : Fin 8} {w : Writer}

/-- A bit that is set reads 1, and no other register changes. -/
theorem State.setBit_set {f : Fld} {i : List Nat} {b : Nat} (hb : b < f.spec.width) :
    ((s.setBit f i b true).rd f i).testBit b = true ∧ SameFields s (s.setBit f i b true) [(f, i)] := by
  unfold State.setBit
  refine ⟨?_, (SameFields.refl s _).wr (by simp) _⟩
  rw [State.rd_wr_same, Nat.testBit_mod_two_pow]
  simp [hb, Nat.testBit_or]

theorem exec_helmIcSet {x : BitVec 9} (hm : s.mute w = false) (hlo : 1 ≤ x.toNat) (hhi : x.toNat ≤ 15) :
    exec (.helmIcSet w x) s = .next (s.irq x.toNat) :=
  congrArg Host.Outcome.next ((if_neg (by rw [hm]; simp)).trans (if_pos ⟨hlo, hhi⟩))

theorem State.irq_low {x : Nat} (hx : x ≤ 15) : s.irq x = s.setBit .HELM_IC_PEND_BITS [0] x true := by
  unfold State.irq
  rw [Nat.div_eq_of_lt (by omega), Nat.mod_eq_of_lt (by omega)]

/-- A claim by core `c`: a pending bit below 256 is cleared. -/
noncomputable def State.claimTaken (s : State) (src : Nat) : State :=
  if src < 256 then s.setBit .HELM_IC_PEND_BITS [src / 32] (src % 32) false else s

theorem State.claimTaken_rd {src : Nat} {f : Fld} (hf : Fld.HELM_IC_PEND_BITS ≠ f) (i : List Nat) :
    (s.claimTaken src).rd f i = s.rd f i := by
  unfold State.claimTaken
  split
  · exact State.rd_wr_fld _ _ _ _ _ _ hf
  · rfl

theorem State.claimTaken_helmRt {src : Nat} (c : Nat) : (s.claimTaken src).helmRt c = s.helmRt c := by
  unfold State.claimTaken
  split <;> rfl

/-- The core that has claimed `src`. -/
noncomputable def State.claimed (s : State) (c src : Nat) : State :=
  let s := s.claimTaken src
  let x := s.helmRt c
  let s := s.setHelm c { x with serving := src :: x.serving, levels := s.level c :: x.levels }
  { s.wr .HELM_CORE_STAT_LEVEL [c] (s.rd .HELM_IC_SRC_PRIO [src]) with answer := src }

theorem exec_helmIcClaim (h : s.claimable c ≠ 0) : exec (.helmIcClaim (.helm c) c) s = .next (s.claimed c (s.claimable c)) :=
  (if_pos rfl).trans (if_neg h)

theorem State.claimed_spec (src : Nat) : (s.claimed c src).answer = src ∧
    (s.claimed c src).level c = s.rd .HELM_IC_SRC_PRIO [src] % 2 ^ Fld.HELM_CORE_STAT_LEVEL.spec.width ∧
    ((s.claimed c src).helmRt c).serving = src :: (s.helmRt c).serving ∧
    ((s.claimed c src).helmRt c).levels = s.level c :: (s.helmRt c).levels := by
  have hlevel : (s.claimTaken src).level c = s.level c := State.claimTaken_rd (by decide) _
  have hrt : (s.claimed c src).helmRt c = { s.helmRt c with
      serving := src :: (s.helmRt c).serving, levels := s.level c :: (s.helmRt c).levels } := by
    rw [← hlevel, ← State.claimTaken_helmRt (s := s) (src := src)]
    exact (State.setHelm_helmRt _ _ _ _).trans (if_pos rfl)
  refine ⟨rfl, ?_, by rw [hrt], by rw [hrt]⟩
  refine (State.rd_wr_same _ _ _ _).trans ?_
  rw [State.setHelm_rd _ _ _ rfl, State.claimTaken_rd (by decide)]

theorem exec_helmIcClaim_other (h : w ≠ .helm c) : exec (.helmIcClaim w c) s = .next { s with answer := 0 } := if_neg h

/-- A source whose service ends. -/
noncomputable def State.completed (s : State) (c src : Nat) : State :=
  (s.setHelm c { s.helmRt c with serving := (s.helmRt c).serving.erase src }).popLevel c

theorem exec_helmIcComplete {x : BitVec 9} (hm : s.mute w = false) (hx : (s.helmRt c).serving.contains x.toNat = true) :
    exec (.helmIcComplete w c x) s = .next (s.completed c x.toNat) :=
  (if_neg (by rw [hm]; simp)).trans (if_pos hx)

theorem exec_helmIcComplete_other {x : BitVec 9} (hx : (s.helmRt c).serving.contains x.toNat = false) :
    ∃ t, exec (.helmIcComplete w c x) s = .next t ∧ t.helm = s.helm ∧ SameFields s t [] := by
  by_cases hm : s.mute w = true
  · exact ⟨s, if_pos hm, rfl, SameFields.refl s _⟩
  · exact ⟨_, (if_neg hm).trans (if_neg (by rw [hx]; simp)), State.drop_helm _, State.drop_sameFields _ _ _ _ _⟩

/-- L and the stack of levels of a core whose interrupted level is `l`. -/
theorem State.popLevel_spec {l : Nat} {r : List Nat} (hl : (s.helmRt c).levels = l :: r)
    (hlt : l < 2 ^ Fld.HELM_CORE_STAT_LEVEL.spec.width) : (s.popLevel c).level c = l ∧
      (s.popLevel c).helmRt c = { s.helmRt c with levels := r } ∧ SameFields s (s.popLevel c) [(.HELM_CORE_STAT_LEVEL, [c.val])] := by
  unfold State.popLevel
  dsimp only
  rw [hl]
  refine ⟨?_, ?_, ?_⟩
  · exact (State.rd_wr_same _ _ _ _).trans (Nat.mod_eq_of_lt hlt)
  · rw [State.helmRt_wr, State.setHelm_helmRt, if_pos rfl]
    rfl
  · exact ((SameFields.refl s _).of_rd fun f i => State.setHelm_rd _ _ _ rfl).wr (by simp) _

/-- What a core saves when it takes the non-maskable event `n`. -/
noncomputable def nmiRt (x : HelmRt) (rest : List Nat) (pc prv vec n : Nat) (mie : Bool) : HelmRt := { x with
  nmi := rest, inNmi := true, mpp := prv, mpie := mie, mie := false, mode := 3, pc := vec + 0x100
  csr := smPut (smPut x.csr [0x341] (some pc) none) [0x342] (some (0x8000000000000000 + n)) none }

theorem exec_helmNmi {acts : List HelmAct} {pc : BitVec 64} {prv : BitVec 2} {mie h : Bool} {n : Nat} {r : List Nat}
    (hn : (s.helmRt c).nmi = n :: r) (hc : s.coreState c = 2 ∨ s.coreState c = 3) (hi : (s.helmRt c).inNmi = false) :
    exec (.helmNmi c acts pc prv mie h) s = .next ((s.coreAt c acts pc.toNat prv.toNat mie).setHelm c
      (nmiRt ((s.coreAt c acts pc.toNat prv.toNat mie).helmRt c) r pc.toNat prv.toNat
        (s.coreAt c acts pc.toNat prv.toNat mie).bootVec n mie)) := by
  change execHelmNmi c acts pc prv mie h s = _
  unfold execHelmNmi
  dsimp only
  rw [hn]
  dsimp only
  rw [if_pos ⟨hc, by rw [hi]; rfl⟩]
  rfl

theorem State.coreAt_bootVec (acts : List HelmAct) (pc prv : Nat) (mie : Bool) : (s.coreAt c acts pc prv mie).bootVec = s.bootVec :=
  State.bootVec_of_rd (State.coreAt_rd _ _ _ _ _ _ rfl) (State.coreAt_rd _ _ _ _ _ _ rfl)

theorem nmiRt_csr (x : HelmRt) (rest : List Nat) (pc prv vec n : Nat) (mie : Bool) :
    smGet (nmiRt x rest pc prv vec n mie).csr [0x341] none = some pc ∧
      smGet (nmiRt x rest pc prv vec n mie).csr [0x342] none = some (0x8000000000000000 + n) := by
  unfold nmiRt
  dsimp only
  generalize some (0x8000000000000000 + n) = v
  refine ⟨?_, ?_⟩
  · rw [smGet_smPut, if_neg (by decide), smGet_smPut, if_pos rfl]
  · rw [smGet_smPut, if_pos rfl]

end

/-! ## Watchdog commands (R477 to R479) -/

section
variable {s : State} {c : Fin 8} {w : Writer}

/-- The count of a watchdog is loaded anew, and its stage is 0. -/
noncomputable def State.kicked (s : State) (c : Nat) : State := (s.wr .HELM_WDT_CTL_STAGE [c] 0).wdLoad c

theorem exec_wdtKick (hm : s.mute w = false) (hw : s.blockWriter w c = true) :
    exec (.wdtKick w c 0x4B1D) s = .next ((s.relock c).kicked c) :=
  congrArg Host.Outcome.next ((State.blockWrite_taken hm hw).trans (if_pos rfl))

theorem State.kicked_spec : (s.kicked c).rd .HELM_WDT_CTL_STAGE [c] = 0 ∧
    ((s.kicked c).helmRt c).wdLeft = s.rd .HELM_WDT_LOAD_US [c] * 1000 ∧ SameFields s (s.kicked c) [(.HELM_WDT_CTL_STAGE, [c.val])] := by
  obtain ⟨t, ht⟩ := State.wdLoad_helmRt (s := s.wr .HELM_WDT_CTL_STAGE [c] 0) (c := c)
  unfold State.kicked
  refine ⟨(State.wdLoad_rd _ _ rfl).trans (State.rd_wr_same _ _ _ _), ?_, ?_⟩
  · rw [ht]
    exact congrArg (· * 1000) (State.rd_wr_fld _ _ _ _ _ _ (by decide))
  · exact ((SameFields.refl s _).wr (by simp) 0).of_rd fun f i => State.wdLoad_rd _ _ rfl

theorem exec_wdtKick_bad {k : BitVec 16} (hk : k ≠ 0x4B1D) :
    ∃ t, exec (.wdtKick w c k) s = .next t ∧ (t.helmRt c).wdLeft = (s.helmRt c).wdLeft ∧ SameFields s t [] := by
  have hk' : ¬(k.toNat = 0x4B1D) := fun h => hk (BitVec.eq_of_toNat_eq h)
  refine ⟨_, rfl, ?_, State.blockWrite_dropped (if_neg hk')⟩
  refine State.blockWrite_cases (P := fun t => (t.helmRt c).wdLeft = (s.helmRt c).wdLeft) rfl ?_ ?_
  · rw [State.drop_helmRt]
  · rw [if_neg hk', State.drop_helmRt, State.relock_helmRt]

theorem exec_wdtUnlock (hm : s.mute w = false) (hw : s.blockWriter w c = true) : exec (.wdtUnlock w c 0x5A3C) s =
    .next ((s.relock c).setHelm c { (s.relock c).helmRt c with unlock := some ((s.relock c).now + 100000) }) :=
  congrArg Host.Outcome.next ((State.blockWrite_taken hm hw).trans (if_pos rfl))

/-- The first expiry: the stage is 1 and the event waits (R477). -/
noncomputable def State.warned (s : State) (c : Nat) : State :=
  let s := s.setHelm c { s.helmRt c with nmi := (s.helmRt c).nmi ++ [33] }
  (s.wr .HELM_WDT_CTL_STAGE [c] 1).wdLoad c

theorem exec_wdtExpiry {u : Nat} (hu : (s.helmRt c).wdT = some u) : exec (.wdtExpiry c) s =
    .next (if s.on .HELM_WDT_CTL_STAGE [c] then
      ((s.lapseTo (u + (s.helmRt c).wdLeft)).coreReset c).wr .HELM_CORE_STAT_WDT_RESET [c] 1
      else (s.lapseTo (u + (s.helmRt c).wdLeft)).warned c) := by
  have hon : ∀ n, (s.lapseTo n).on .HELM_WDT_CTL_STAGE [c] = s.on .HELM_WDT_CTL_STAGE [c] := fun _ => rfl
  change execWdtExpiry c s = _
  unfold execWdtExpiry
  rw [hu]
  dsimp only
  generalize u + (s.helmRt c).wdLeft = n
  rw [hon]
  by_cases hb : s.on .HELM_WDT_CTL_STAGE [c] = true
  · rw [if_pos hb, if_pos hb]
  · rw [if_neg hb, if_neg hb]
    rfl

theorem State.warned_spec (n : Nat) : ((s.lapseTo n).warned c).rd .HELM_WDT_CTL_STAGE [c] = 1 ∧
    (((s.lapseTo n).warned c).helmRt c).nmi = (s.helmRt c).nmi ++ [33] ∧
    (((s.lapseTo n).warned c).helmRt c).wdLeft = s.rd .HELM_WDT_LOAD_US [c] * 1000 ∧
    ((s.lapseTo n).warned c).now = max s.now n ∧ SameFields s ((s.lapseTo n).warned c) [(.HELM_WDT_CTL_STAGE, [c.val])] := by
  generalize hv : (s.lapseTo n).setHelm c { (s.lapseTo n).helmRt c with nmi := ((s.lapseTo n).helmRt c).nmi ++ [33] } = v
  have hrd : ∀ f i, v.rd f i = s.rd f i := fun f i => by
    rw [← hv]
    exact (State.setHelm_rd _ _ _ rfl).trans (State.lapseTo_rd _ _ rfl)
  have hrt : v.helmRt c = { s.helmRt c with nmi := (s.helmRt c).nmi ++ [33] } := by
    rw [← hv, State.setHelm_helmRt, if_pos rfl]
    rfl
  have hnow : v.now = max s.now n := by
    rw [← hv]
    exact State.lapseTo_now s n
  have heq : (s.lapseTo n).warned c = (v.wr .HELM_WDT_CTL_STAGE [c] 1).wdLoad c := by rw [← hv]; rfl
  obtain ⟨t, ht⟩ := State.wdLoad_helmRt (s := v.wr .HELM_WDT_CTL_STAGE [c] 1) (c := c)
  rw [State.helmRt_wr, hrt, State.rd_wr_fld _ _ _ _ _ _ (by decide), hrd] at ht
  rw [heq]
  refine ⟨(State.wdLoad_rd _ _ rfl).trans (State.rd_wr_same _ _ _ _), by rw [ht], by rw [ht], hnow, ?_⟩
  exact (((SameFields.refl s _).of_rd hrd).wr (by simp) 1).of_rd fun f i => State.wdLoad_rd _ _ rfl

end

/-- Settles O48, by the data and the fields that each command leaves of its core. -/
theorem helmCoresStartTakeInterruptsAndKickTheirWatchdogs : Obligations.HelmCoresStartTakeInterruptsAndKickTheirWatchdogs := by
  unfold Obligations.HelmCoresStartTakeInterruptsAndKickTheirWatchdogs
  refine ⟨?release, ?releaseOther, ?start, ?startHeld, ?reset, ?line, ?set, ?setOther, ?claim, ?claimOther, ?complete,
    ?completeOther, ?nmi, ?kick, ?kickBad, ?unlock, ?warns, ?resets⟩
  case release =>
    intro w c s hm hw h0 hfit he
    obtain ⟨hst, hq, hsame⟩ := State.coreAsk_spec (s := s.relock c) (c := c)
      (by rw [State.relock_rd _ _ rfl]; exact hfit) he
    exact ⟨_, exec_helmCoreRelease hm hw h0, hst, hq, fun f i hf => (hsame f i hf).trans (State.relock_rd _ _ rfl)⟩
  case releaseOther => exact fun w c s h0 => exec_helmCoreRelease_other h0
  case start =>
    intro c s h1 hg hb
    obtain ⟨u, hu⟩ := State.takeGrant_of_grantReady hg
    have hvec : u.bootVec = s.bootVec := State.bootVec_of_rd (State.takeGrant_rd hu rfl _) (State.takeGrant_rd hu rfl _)
    have hb' : (u.rd .PEL_BOOTHALT_MASK []).testBit c ≠ true := by rw [State.takeGrant_rd hu rfl, hb]; decide
    obtain ⟨n, t, ht⟩ := State.started_helmRt (s := u) (c := c) (startRt u.bootVec false) (fun u => u.setCore c 2) fun _ => rfl
    refine ⟨_, exec_helmCoreStart h1 hu, ?_⟩
    rw [if_neg hb']
    refine ⟨(State.wdLoad_rd _ _ rfl).trans (State.setCore_same 2 (by decide) c), ?_⟩
    rw [ht, hvec]
    exact ⟨rfl, rfl, rfl⟩
  case startHeld =>
    intro c s h1 hg hb
    obtain ⟨u, hu⟩ := State.takeGrant_of_grantReady hg
    have hvec : u.bootVec = s.bootVec := State.bootVec_of_rd (State.takeGrant_rd hu rfl _) (State.takeGrant_rd hu rfl _)
    have hb' : (u.rd .PEL_BOOTHALT_MASK []).testBit c = true := by rw [State.takeGrant_rd hu rfl, hb]
    obtain ⟨n, t, ht⟩ := State.started_helmRt (s := u) (c := c) (startRt u.bootVec true)
      (fun u => (u.setCore c 4).wr .HELM_DBG_STAT_CAUSE [c] 5) fun _ => rfl
    refine ⟨_, exec_helmCoreStart h1 hu, ?_⟩
    rw [if_pos hb']
    refine ⟨(State.wdLoad_rd _ _ rfl).trans ((State.rd_wr_fld _ _ _ _ _ _ (by decide)).trans (State.setCore_same 4 (by decide) c)),
      (State.wdLoad_rd _ _ rfl).trans (State.rd_wr_same _ _ _ _), ?_⟩
    rw [ht, hvec]
    rfl
  case reset =>
    intro w c acts s hm hw
    refine ⟨_, congrArg Host.Outcome.next (State.blockWrite_taken hm hw), State.coreReset_state, State.coreReset_helmRt,
      State.coreReset_mail, (State.coreReset_core rfl).trans rfl, (State.coreReset_core rfl).trans rfl,
      (State.coreReset_core rfl).trans rfl, (State.coreReset_core rfl).trans rfl, State.coreReset_queue⟩
  case line =>
    intro n i b s
    exact ⟨_, rfl, (smGet_smPut _ _ _ _ _).trans (if_pos rfl), fun _ _ _ => rfl⟩
  case set =>
    intro w x s hm hlo hhi
    refine ⟨_, exec_helmIcSet hm hlo hhi, ?_⟩
    rw [State.irq_low hhi]
    exact State.setBit_set (show x.toNat < 32 by omega)
  case setOther =>
    intro w x s hx
    by_cases hm : s.mute w = true
    · exact ⟨s, congrArg Host.Outcome.next (if_pos hm), SameFields.refl s _⟩
    · exact ⟨_, congrArg Host.Outcome.next ((if_neg hm).trans (if_neg (by omega))), State.drop_sameFields _ _ _ _ _⟩
  case claim => exact fun c s h => ⟨_, exec_helmIcClaim h, State.claimed_spec _⟩
  case claimOther => exact fun w c s h => ⟨_, exec_helmIcClaim_other h, rfl, rfl, fun _ _ _ => rfl⟩
  case complete =>
    intro w c x l r s hm hx hl hlt
    have hrt : (s.setHelm c { s.helmRt c with serving := (s.helmRt c).serving.erase x.toNat }).helmRt c =
        { s.helmRt c with serving := (s.helmRt c).serving.erase x.toNat } := by rw [State.setHelm_helmRt, if_pos rfl]
    obtain ⟨hlevel, hpop, hsame⟩ := State.popLevel_spec (l := l) (r := r) (c := c) (by rw [hrt]; exact hl) hlt
    refine ⟨_, exec_helmIcComplete hm hx, hlevel, ?_, ?_, fun f i hf => (hsame f i hf).trans (State.setHelm_rd _ _ _ rfl)⟩
    · exact congrArg HelmRt.levels hpop
    · exact (congrArg HelmRt.serving hpop).trans (congrArg HelmRt.serving hrt)
  case completeOther => exact fun w c x s hx => exec_helmIcComplete_other hx
  case nmi =>
    intro c acts pc prv mie h n r s hn hc hi
    refine ⟨_, exec_helmNmi hn hc hi, ?_⟩
    rw [State.setHelm_helmRt, if_pos rfl, State.coreAt_bootVec]
    obtain ⟨h341, h342⟩ := nmiRt_csr ((s.coreAt c acts pc.toNat prv.toNat mie).helmRt c) r pc.toNat prv.toNat s.bootVec n mie
    exact ⟨rfl, rfl, rfl, rfl, rfl, rfl, rfl, h341, h342,
      fun f i _ => (State.setHelm_rd _ _ _ rfl).trans (State.setHelm_rd _ _ _ rfl)⟩
  case kick =>
    intro w c s hm hw
    obtain ⟨hstage, hleft, hsame⟩ := State.kicked_spec (s := s.relock c) (c := c)
    rw [State.relock_rd _ _ rfl] at hleft
    exact ⟨_, exec_wdtKick hm hw, hstage, hleft, fun f i hf => (hsame f i hf).trans (State.relock_rd _ _ rfl)⟩
  case kickBad => exact fun w c k s hk => exec_wdtKick_bad hk
  case unlock =>
    intro w c s hm hw
    refine ⟨_, exec_wdtUnlock hm hw, ?_, fun f i _ => (State.setHelm_rd _ _ _ rfl).trans (State.relock_rd _ _ rfl)⟩
    rw [State.setHelm_helmRt, if_pos rfl]
    rfl
  case warns =>
    intro c u s hu hb
    exact ⟨_, (exec_wdtExpiry hu).trans (congrArg _ (if_neg (by rw [hb]; decide))), State.warned_spec _⟩
  case resets =>
    intro c u s hu hb
    refine ⟨_, (exec_wdtExpiry hu).trans (congrArg _ (if_pos hb)), ?_, State.coreReset_helmRt, State.rd_wr_same _ _ _ _⟩
    exact (State.rd_wr_fld _ _ _ _ _ _ (by decide)).trans State.coreReset_state

/-! PROOFS. Helm cores: the monitor, hard halts, register access, patch units and the mailbox (R463, R464, R471 to R475, R480 to
R482). -/

/-! ## A program's accesses leave its monitor vector -/

section
variable {s t : State} {c d v : Nat}

/-- The monitor's vector of core `c` is `v`. -/
def State.dvecIs (s : State) (c v : Nat) : Prop := (s.helmRt c).dvec = v

theorem State.dvecIs_of_helm (h : t.helm = s.helm) (hs : s.dvecIs c v) : t.dvecIs c v := by
  unfold State.dvecIs State.helmRt
  rw [h]
  exact hs

theorem State.dvecIs_setHelm {x : HelmRt} (hx : x.dvec = (s.helmRt d).dvec) (hs : s.dvecIs c v) : (s.setHelm d x).dvecIs c v := by
  unfold State.dvecIs
  rw [State.setHelm_helmRt]
  split
  next h =>
    subst h
    exact hx.trans hs
  next => exact hs

theorem State.helmLast_dvecIs {k x : Nat} (hs : s.dvecIs c v) : (s.helmLast d k x).dvecIs c v := State.dvecIs_setHelm rfl hs

theorem State.helmLine_helm {k line : Nat} {bus : Bool} {a : Option Nat} (h : s.helmLine d k line bus = (a, t)) : t.helm = s.helm :=
  State.helmLine_keeps_of (Keeps.part (p := .helm) (by decide) (by decide) s) s d k line bus rfl h

theorem State.helmRead_dvecIs {a : Nat} {fetch bus : Bool} (hs : s.dvecIs c v) : (s.helmRead d a fetch bus).dvecIs c v := by
  unfold State.helmRead
  dsimp only
  split
  · exact hs
  · split
    next h =>
      have hu := State.dvecIs_of_helm (State.helmLine_helm h) hs
      split
      · exact State.helmLast_dvecIs hu
      · exact State.helmLast_dvecIs hu
    next h => exact State.helmLast_dvecIs (State.dvecIs_of_helm (State.helmLine_helm h) hs)

theorem State.l1Drop_helm (line but : Nat) : (s.l1Drop line but).helm = s.helm :=
  State.l1Drop_keeps (Keeps.part (p := .helm) (by decide) (by decide) s) s line but rfl

theorem State.helmStore_dvecIs {a n x : Nat} (hs : s.dvecIs c v) : (s.helmStore d a n x).dvecIs c v := by
  unfold State.helmStore
  dsimp only
  split
  · exact State.helmLast_dvecIs hs
  · split
    next u h =>
      have hu := State.dvecIs_of_helm (State.helmLine_helm h) hs
      refine rel_foldl (R := fun t => t.dvecIs c v) (fun t e ht => ?_) _ (State.helmLast_dvecIs
        (State.dvecIs_of_helm (State.l1Drop_helm (a / 64) d) hu))
      split
      · exact State.dvecIs_setHelm rfl ht
      · exact ht
    next h => exact State.helmLast_dvecIs (State.dvecIs_of_helm (State.helmLine_helm h) hs)
  · exact hs

theorem State.l1Down_helm (line : Nat) : (s.l1Down line).helm = s.helm :=
  State.l1Down_keeps (Keeps.part (p := .helm) (by decide) (by decide) s) s line rfl

theorem State.l2Clean_helm (line : Nat) : (s.l2Clean line).helm = s.helm :=
  State.l2Clean_keeps (Keeps.part (p := .helm) (by decide) (by decide) s) s line rfl

theorem State.setL2_helm (line : Nat) (x : Option HelmLine) : (s.setL2 line x).helm = s.helm := rfl

theorem State.setL1_helm (c k line : Nat) (x : Option HelmLine) : (s.setL1 c k line x).helm = s.helm := rfl

/-- Only the last access and the reservation of a core change with its program's accesses. -/
theorem State.helmAct_dvecIs (a : HelmAct) (hs : s.dvecIs c v) : (s.helmAct d a).dvecIs c v := by
  cases a with
  | fetch a bus => exact State.helmRead_dvecIs hs
  | load a bus => exact State.helmRead_dvecIs hs
  | store a n x => exact State.helmStore_dvecIs hs
  | lr a => exact State.dvecIs_setHelm rfl (State.helmRead_dvecIs hs)
  | sc a n x =>
    unfold State.helmAct
    dsimp only
    split
    · exact State.helmStore_dvecIs (State.dvecIs_setHelm rfl hs)
    · exact State.helmLast_dvecIs (State.dvecIs_setHelm rfl hs)
  | clean a => exact State.dvecIs_of_helm ((State.l2Clean_helm _).trans (State.l1Down_helm _)) hs
  | flush a =>
    unfold State.helmAct
    exact State.dvecIs_of_helm ((State.setL2_helm _ _).trans
      ((State.l1Drop_helm _ _).trans ((State.l2Clean_helm _).trans (State.l1Down_helm _)))) hs
  | inval a =>
    unfold State.helmAct
    exact State.dvecIs_of_helm ((State.setL2_helm _ _).trans (State.l1Drop_helm _ _)) hs
  | fenceI => exact hs
  | evict l2 a =>
    unfold State.helmAct
    dsimp only
    split
    · exact State.dvecIs_of_helm ((State.setL2_helm _ _).trans ((State.l2Clean_helm _).trans (State.l1Down_helm _))) hs
    · exact State.dvecIs_of_helm ((State.setL1_helm _ _ _ _).trans (State.l1Down_helm _)) hs
  | flashErr a => exact hs

theorem State.helmActs_dvec (acts : List HelmAct) : ((s.helmActs d acts).helmRt c).dvec = (s.helmRt c).dvec := by
  change (s.helmActs d acts).dvecIs c (s.helmRt c).dvec
  unfold State.helmActs
  split
  · exact rel_foldl (R := fun t => t.dvecIs c (s.helmRt c).dvec) (fun t a ht => State.helmAct_dvecIs a ht) acts rfl
  · exact (rfl : s.dvecIs c (s.helmRt c).dvec)

end

/-! ## Halts of a core (R471 to R475, R480) -/

section
variable {s : State} {c : Fin 8} {p : Fin 2}

theorem State.debugWrite_taken {r : Reg} {v : Nat} {k : State → State} (hw : s.blockWriter (.pelorus p) c = true) :
    s.debugWrite (.pelorus p) r c v k = k (s.relock c) := State.blockWrite_taken rfl hw

/-- What holds of the state, of the dropped write and of the command's result holds after a write of a debug register. -/
theorem State.debugWrite_cases {P : State → Prop} {w : Writer} {r : Reg} {v : Nat} {k : State → State} (hs : P s)
    (hd : P (s.drop w r [c] v)) (hk : P (k (s.relock c))) : P (s.debugWrite w r c v k) := by
  unfold State.debugWrite
  split
  · exact State.blockWrite_cases hs hd hk
  · split
    · exact hs
    · exact hd

theorem exec_dbgMonitorHalt (hw : s.blockWriter (.pelorus p) c = true) (hc : 2 ≤ s.coreState c) (hr : (s.helmRt c).monReq = 0) :
    exec (.dbgMonitorHalt (.pelorus p) c) s =
      .next ((s.relock c).setHelm c { (s.relock c).helmRt c with monReq := 1 }) := by
  have hst : ¬((s.relock c).coreState c < 2) := by
    rw [show (s.relock c).coreState c = s.coreState c from State.relock_rd _ _ rfl]
    omega
  have hreq : ((s.relock c).helmRt c).monReq = 0 := by rw [State.relock_helmRt]; exact hr
  exact congrArg Host.Outcome.next ((State.debugWrite_taken hw).trans ((if_neg hst).trans (if_pos hreq)))

theorem State.relock_coreState_lt (h : s.coreState c < 2) : (s.relock c).coreState c < 2 := by
  rwa [show (s.relock c).coreState c = s.coreState c from State.relock_rd _ _ rfl]

theorem exec_dbgMonitorHalt_inReset {w : Writer} (hc : s.coreState c < 2) : ∃ t, exec (.dbgMonitorHalt w c) s = .next t ∧
    (t.helmRt c).monReq = (s.helmRt c).monReq ∧ SameFields s t [] := by
  refine ⟨_, rfl, State.debugWrite_cases (P := fun t => (t.helmRt c).monReq = (s.helmRt c).monReq ∧ SameFields s t [])
    ⟨rfl, SameFields.refl s _⟩ ⟨by rw [State.drop_helmRt], State.drop_sameFields _ _ _ _ _⟩ ?_⟩
  rw [if_pos (State.relock_coreState_lt hc), State.drop_helmRt, State.relock_helmRt]
  exact ⟨rfl, (State.relock_sameFields s c []).of_rd fun f i => State.drop_sameFields _ _ _ _ _ f i List.not_mem_nil⟩

/-- A cancelled unlock: `rst` if it was one of `RST_CMD`. -/
noncomputable def State.aborted (s : State) (c : Nat) (rst : Bool) : State :=
  (((if rst then { s with rstUnlock := none } else s : State).relock c).wr .HELM_DBG_STAT_UNLOCK_ABORT [c] 1).raise
    .HELM_DBG_STAT [c] 480 0 [c]

theorem State.unlockAbort_eq : ∃ rst wd : Bool, s.unlockAbort c = if rst || wd then s.aborted c rst else s := ⟨_, _, rfl⟩

theorem State.aborted_helmRt (rst : Bool) : (s.aborted c rst).helmRt c = { s.helmRt c with unlock := none } := by
  have hraise : ∀ u : State, (u.raise .HELM_DBG_STAT [c] 480 0 [c]).helmRt c = u.helmRt c := fun u =>
    congrArg (fun m => smGet m [c.val] ({} : HelmRt)) (State.raise_keeps (Keeps.part (p := .helm) rfl (by decide) u) u _ _ _ _ _ rfl)
  unfold State.aborted
  rw [hraise, State.helmRt_wr, State.relock_helmRt]
  cases rst <;> rfl

/-- An unlock that a halt cancels leaves the core's other data (R480). -/
theorem State.unlockAbort_helmRt : ∃ u, (s.unlockAbort c).helmRt c = { s.helmRt c with unlock := u } := by
  obtain ⟨rst, wd, h⟩ := State.unlockAbort_eq (s := s) (c := c)
  rw [h]
  split
  · exact ⟨none, State.aborted_helmRt rst⟩
  · exact ⟨(s.helmRt c).unlock, rfl⟩

/-- The core has stopped for its monitor: it runs at the monitor's vector (R471). -/
def monitorRt (x : HelmRt) (pc prv level : Nat) (mie : Bool) : HelmRt := { x with
  dpc := pc, prv := prv, pmie := mie, levels := level :: x.levels, mode := 3, mie := true, pc := x.dvec, monReq := 0, resv := none }

/-- The state of a core that enters its monitor for `cause`, before the group's halt. -/
noncomputable def State.entered (s : State) (c pc prv cause : Nat) (mie : Bool) : State :=
  let s := s.setHelm c (monitorRt (s.helmRt c) pc prv (s.level c) mie)
  let s := (s.wr .HELM_CORE_STAT_LEVEL [c] 12).wr .HELM_DBG_STAT_IN_MON [c] 1
  (((s.wr .HELM_DBG_STAT_CAUSE [c] cause).setCore c 3).wdSync c).unlockAbort c

/-- The cores of the group are asked to halt (R471). -/
noncomputable def State.groupHalted (s : State) (c : Nat) : State :=
  if s.on .HELM_DBG_CTL_GROUP [c] then
    (List.range 8).foldl (fun s d =>
      if d ≠ c ∧ s.on .HELM_DBG_CTL_GROUP [d] ∧ s.coreState d = 2 ∧ (s.helmRt d).monReq = 0 then
        s.setHelm d { s.helmRt d with monReq := 4 }
      else s) s
  else s

theorem exec_monitorEntry {acts : List HelmAct} {pc : BitVec 64} {prv : BitVec 2} {mie e : Bool} (hc : s.coreState c = 2)
    (hr : (s.helmRt c).monReq = 1) (hl : s.level c < 12) : exec (.monitorEntry c acts pc prv mie e) s =
      .next ((((s.coreAt c acts pc.toNat prv.toNat mie).wdSync c).entered c pc.toNat prv.toNat 1 mie).groupHalted c) := by
  change execMonitorEntry c acts pc prv mie e s = _
  unfold execMonitorEntry
  dsimp only
  rw [hr, if_pos (by decide : (1 : Nat) ≠ 0), if_pos ⟨hc, by decide, hl⟩]
  rfl

theorem exec_monitorEntry_masked {acts : List HelmAct} {pc : BitVec 64} {prv : BitVec 2} {mie e : Bool} (hl : 12 ≤ s.level c) :
    exec (.monitorEntry c acts pc prv mie e) s = .next s := if_neg fun h => by omega

/-- The halt of the group leaves the core that halted it and every register. -/
theorem State.groupHalted_keeps {P : State → Prop} (hP : ∀ (u : State) (d : Nat) (x : HelmRt), d ≠ c.val → P u → P (u.setHelm d x))
    (hs : P s) : P (s.groupHalted c) := by
  unfold State.groupHalted
  split
  · refine rel_foldl (R := P) (fun u d hu => ?_) _ hs
    split
    next h => exact hP u d _ h.1 hu
    next => exact hu
  · exact hs

theorem State.groupHalted_helmRt : (s.groupHalted c).helmRt c = s.helmRt c :=
  State.groupHalted_keeps (P := fun u => u.helmRt c = s.helmRt c)
    (fun u d x hd hu => by rw [State.setHelm_helmRt, if_neg hd]; exact hu) rfl

theorem State.groupHalted_rd (f : Fld) (i : List Nat) : (s.groupHalted c).rd f i = s.rd f i :=
  State.groupHalted_keeps (P := fun u => u.rd f i = s.rd f i) (fun _ _ _ _ hu => (State.setHelm_rd _ _ _ rfl).trans hu) rfl

theorem State.entered_helmRt (pc prv cause : Nat) (mie : Bool) : ∃ n d u, (s.entered c pc prv cause mie).helmRt c =
    { monitorRt (s.helmRt c) pc prv (s.level c) mie with wdLeft := n, wdT := d, unlock := u } := by
  unfold State.entered
  dsimp only
  generalize hv : ((((s.setHelm c (monitorRt (s.helmRt c) pc prv (s.level c) mie)).wr .HELM_CORE_STAT_LEVEL [c] 12).wr
    .HELM_DBG_STAT_IN_MON [c] 1).wr .HELM_DBG_STAT_CAUSE [c] cause).setCore c 3 = v
  have hrt : v.helmRt c = monitorRt (s.helmRt c) pc prv (s.level c) mie := by
    rw [← hv]
    exact (State.setHelm_helmRt _ _ _ _).trans (if_pos rfl)
  obtain ⟨u, hu⟩ := State.unlockAbort_helmRt (s := v.wdSync c) (c := c)
  rw [State.wdSync_helmRt, hrt] at hu
  exact ⟨_, _, u, hu⟩

theorem State.entered_fields (pc prv : Nat) (mie : Bool) : (s.entered c pc prv 1 mie).coreState c = 3 ∧
    (s.entered c pc prv 1 mie).level c = 12 ∧ (s.entered c pc prv 1 mie).rd .HELM_DBG_STAT_IN_MON [c] = 1 ∧
    (s.entered c pc prv 1 mie).rd .HELM_DBG_STAT_CAUSE [c] = 1 := by
  unfold State.entered State.coreState State.level State.setCore
  dsimp only
  refine ⟨?_, ?_, ?_, ?_⟩ <;> rw [State.unlockAbort_rd _ _ rfl, State.wdSync_rd _ _ rfl] <;>
    simp (disch := decide) only [State.rd_wr_fld, State.rd_wr_same] <;> rfl

theorem State.coreAt_helmRt (acts : List HelmAct) (pc prv : Nat) (mie : Bool) : (s.coreAt c acts pc prv mie).helmRt c =
    { (s.helmActs c acts).helmRt c with pc := pc, mode := prv, mie := mie, fresh := false, csr := [] } := by
  unfold State.coreAt
  dsimp only
  rw [State.setHelm_helmRt, if_pos rfl]

/-- A core that leaves its monitor goes on where it was, at the level it had (R473, R474). -/
noncomputable def State.left (s : State) (c : Nat) : State :=
  let s := s.popLevel c
  let s := s.setHelm c { s.helmRt c with
    mode := (s.helmRt c).prv, mie := (s.helmRt c).pmie, pc := (s.helmRt c).dpc, step_ := false, resv := none }
  ((s.wr .HELM_DBG_STAT_IN_MON [c] 0).setCore c 2).wdThaw c

theorem exec_monitorExit (hc : s.coreState c = 3) (hl : s.level c = 12) : exec (.monitorExit c false) s = .next (s.left c) :=
  (if_pos hc).trans (if_neg fun h => h hl)

theorem exec_monitorExit_busy {b : Bool} (hc : s.coreState c = 3) (hl : s.level c ≠ 12) :
    exec (.monitorExit c b) s = .next (s.raise .HELM_DBG_STAT [c] 473 2 [c]) := (if_pos hc).trans (if_pos hl)

/-- A thaw changes the watchdog's count alone. -/
theorem State.wdThaw_helmRt : ∃ n d, (s.wdThaw c).helmRt c = { s.helmRt c with wdLeft := n, wdT := d } := by
  unfold State.wdThaw
  dsimp only
  rw [State.wdSync_helmRt]
  split
  · exact ⟨_, _, rfl⟩
  · split
    · rw [State.setHelm_helmRt, if_pos rfl]
      exact ⟨_, _, rfl⟩
    · exact ⟨_, _, rfl⟩

theorem State.left_spec {l : Nat} {r : List Nat} (hl : (s.helmRt c).levels = l :: r) (hlt : l < 12) : (s.left c).coreState c = 2 ∧
    (s.left c).level c = l ∧ (s.left c).rd .HELM_DBG_STAT_IN_MON [c] = 0 ∧ ((s.left c).helmRt c).pc = (s.helmRt c).dpc ∧
    ((s.left c).helmRt c).mode = (s.helmRt c).prv ∧ ((s.left c).helmRt c).mie = (s.helmRt c).pmie ∧
    ((s.left c).helmRt c).levels = r := by
  obtain ⟨hlevel, hrt, -⟩ := State.popLevel_spec (s := s) (c := c) hl (hlt.trans (by decide : 12 < 2 ^ 4))
  generalize hv : (s.popLevel c).setHelm c { (s.popLevel c).helmRt c with
    mode := ((s.popLevel c).helmRt c).prv, mie := ((s.popLevel c).helmRt c).pmie, pc := ((s.popLevel c).helmRt c).dpc
    step_ := false, resv := none } = v
  have heq : s.left c = ((v.wr .HELM_DBG_STAT_IN_MON [c] 0).setCore c 2).wdThaw c := by rw [← hv]; rfl
  have hvrt : v.helmRt c = { s.helmRt c with
      levels := r, mode := (s.helmRt c).prv, mie := (s.helmRt c).pmie, pc := (s.helmRt c).dpc, step_ := false, resv := none } := by
    rw [← hv, State.setHelm_helmRt, if_pos rfl, hrt]
  have hvl : v.level c = l := by
    rw [← hlevel, ← hv]
    exact State.setHelm_rd _ _ _ rfl
  obtain ⟨n, d, hthaw⟩ := State.wdThaw_helmRt (s := (v.wr .HELM_DBG_STAT_IN_MON [c] 0).setCore c 2) (c := c)
  have hcore : ∀ u : State, (u.setCore c 2).helmRt c = u.helmRt c := fun _ => rfl
  rw [hcore, State.helmRt_wr, hvrt] at hthaw
  rw [heq, hthaw]
  refine ⟨?_, ?_, ?_, rfl, rfl, rfl, rfl⟩
  · exact (State.wdThaw_rd _ _ rfl).trans (State.setCore_same 2 (by decide) c)
  · refine (State.wdThaw_rd _ _ rfl).trans ((State.rd_wr_fld _ _ _ _ _ _ (by decide)).trans ?_)
    exact (State.rd_wr_fld _ _ _ _ _ _ (by decide)).trans hvl
  · refine (State.wdThaw_rd _ _ rfl).trans ((State.rd_wr_fld _ _ _ _ _ _ (by decide)).trans ?_)
    exact State.rd_wr_same _ _ _ _

/-- A core that is hard halted where its program has come to (R475, R481). -/
def State.hardHalted (s : State) (c : Nat) : State :=
  let s := s.wdSync c
  let s := (s.setHelm c { s.helmRt c with resv := none }).wr .HELM_DBG_STAT_CAUSE [c] 6
  ((s.setCore c 4).wdSync c).unlockAbort c

theorem exec_dbgHardHalt {acts : List HelmAct} {pc : BitVec 64} {prv : BitVec 2} {mie : Bool}
    (hw : s.blockWriter (.pelorus p) c = true) (hc : s.coreState c = 2 ∨ s.coreState c = 3) :
    exec (.dbgHardHalt (.pelorus p) c acts pc prv mie) s =
      .next (((s.relock c).coreAt c acts pc.toNat prv.toNat mie).hardHalted c) := by
  have hst : (s.relock c).coreState c = s.coreState c := State.relock_rd _ _ rfl
  refine congrArg Host.Outcome.next ((State.debugWrite_taken hw).trans ((if_neg ?_).trans (if_neg ?_)))
  · rw [hst]; omega
  · rw [hst]; omega

theorem State.hardHalted_spec : (s.hardHalted c).coreState c = 4 ∧ (s.hardHalted c).rd .HELM_DBG_STAT_CAUSE [c] = 6 ∧
    ((s.hardHalted c).helmRt c).resv = none ∧ ((s.hardHalted c).helmRt c).pc = (s.helmRt c).pc ∧
    ((s.hardHalted c).helmRt c).mode = (s.helmRt c).mode := by
  generalize hv : (((s.wdSync c).setHelm c { (s.wdSync c).helmRt c with resv := none }).wr .HELM_DBG_STAT_CAUSE [c] 6).setCore c 4 = v
  have heq : s.hardHalted c = (v.wdSync c).unlockAbort c := by rw [← hv]; rfl
  have hrt : v.helmRt c = { (s.wdSync c).helmRt c with resv := none } := by
    rw [← hv]
    exact (State.setHelm_helmRt _ _ _ _).trans (if_pos rfl)
  rw [State.wdSync_helmRt] at hrt
  obtain ⟨u, hu⟩ := State.unlockAbort_helmRt (s := v.wdSync c) (c := c)
  rw [State.wdSync_helmRt, hrt] at hu
  rw [heq, hu]
  refine ⟨?_, ?_, rfl, rfl, rfl⟩
  · refine (State.unlockAbort_rd _ _ rfl).trans ((State.wdSync_rd _ _ rfl).trans ?_)
    rw [← hv]
    exact State.setCore_same 4 (by decide) c
  · refine (State.unlockAbort_rd _ _ rfl).trans ((State.wdSync_rd _ _ rfl).trans ?_)
    rw [← hv]
    exact (State.rd_wr_fld _ _ _ _ _ _ (by decide)).trans (State.rd_wr_same _ _ _ _)

/-- A core that is released from its hard halt, in the monitor or not (R475). -/
noncomputable def State.resumed (s : State) (c : Nat) : State :=
  let s := s.setHelm c { s.helmRt c with resv := none, hold := false, fresh := false }
  (s.setCore c (if s.on .HELM_DBG_STAT_IN_MON [c] then 3 else 2)).wdThaw c

theorem exec_dbgHardRelease (hw : s.blockWriter (.pelorus p) c = true) (hc : s.coreState c = 4) :
    exec (.dbgHardRelease (.pelorus p) c) s = .next ((s.relock c).resumed c) := by
  have hst : (s.relock c).coreState c = 4 := (State.relock_rd _ _ rfl).trans hc
  exact congrArg Host.Outcome.next ((State.debugWrite_taken hw).trans ((if_neg (by rw [hst]; decide)).trans (if_pos hst)))

theorem exec_dbgHardRelease_inReset {w : Writer} (hc : s.coreState c < 2) :
    ∃ t, exec (.dbgHardRelease w c) s = .next t ∧ SameFields s t [] := by
  refine ⟨_, rfl, State.debugWrite_cases (P := fun t => SameFields s t []) (SameFields.refl s _) (State.drop_sameFields _ _ _ _ _) ?_⟩
  rw [if_pos (State.relock_coreState_lt hc)]
  exact (State.relock_sameFields s c []).of_rd fun f i => State.drop_sameFields _ _ _ _ _ f i List.not_mem_nil

theorem State.resumed_spec : (s.resumed c).coreState c = (if s.on .HELM_DBG_STAT_IN_MON [c] then 3 else 2) ∧
    ((s.resumed c).helmRt c).pc = (s.helmRt c).pc ∧ SameFields s (s.resumed c) [(.HELM_CORE_STAT_STATE, [c.val])] := by
  generalize hv : s.setHelm c { s.helmRt c with resv := none, hold := false, fresh := false } = v
  have hrd : ∀ f i, v.rd f i = s.rd f i := fun f i => by rw [← hv]; exact State.setHelm_rd _ _ _ rfl
  have hrt : (v.helmRt c).pc = (s.helmRt c).pc := by rw [← hv, State.setHelm_helmRt, if_pos rfl]
  have hon : v.on .HELM_DBG_STAT_IN_MON [c] = s.on .HELM_DBG_STAT_IN_MON [c] := by unfold State.on; rw [hrd]
  generalize hx : (if s.on .HELM_DBG_STAT_IN_MON [c] then 3 else 2) = x
  have hx8 : x < 8 := by rw [← hx]; split <;> decide
  have heq : s.resumed c = (v.setCore c x).wdThaw c := by rw [← hx, ← hon, ← hv]; rfl
  obtain ⟨n, d, hthaw⟩ := State.wdThaw_helmRt (s := v.setCore c x) (c := c)
  rw [heq]
  refine ⟨(State.wdThaw_rd _ _ rfl).trans (State.setCore_same x hx8 c), ?_, ?_⟩
  · rw [hthaw]
    exact hrt
  · exact (((SameFields.refl s _).of_rd hrd).wr (by simp) x).of_rd fun f i => State.wdThaw_rd _ _ rfl

end

/-! ## Register access of a halted core (R475) -/

section
variable {s t : State} {c : Fin 8} {p : Fin 2} {r op : Nat} {k : State → State}

/-- What a debug access reads depends on the core's registers, the local time and the values still to be drawn. -/
theorem State.csrAt_congr (hh : t.helmRt c = { s.helmRt c with unlock := none }) (hd : t.draws = s.draws) :
    (t.csrAt c r).1 = (s.csrAt c r).1 := by
  unfold State.csrAt State.draw
  dsimp only
  rw [hh, hd]
  dsimp only
  cases smGet (s.helmRt c).csr [r] none with
  | some v => rfl
  | none =>
    dsimp only
    split <;> rfl

theorem State.dbgRead_congr (hh : t.helmRt c = { s.helmRt c with unlock := none }) (hd : t.draws = s.draws) (hn : t.now = s.now) :
    (t.dbgRead c r).1 = (s.dbgRead c r).1 := by
  have hcsr := State.csrAt_congr (r := r) hh hd
  unfold State.dbgRead mstatusWith
  dsimp only
  rw [hh, hn]
  repeat' split
  all_goals first | rfl | (dsimp only; rw [hcsr]) | exact hcsr

/-- The state on which a debug access of register `r` by the Pelorus port acts. -/
noncomputable def State.accessed (s : State) (c r : Nat) : State := (s.relock c).wr .HELM_DBG_ACC_REG [c] r

theorem State.accessed_helmRt : (s.accessed c r).helmRt c = { s.helmRt c with unlock := none } := State.relock_helmRt

theorem State.accessed_rd (f : Fld) (i : List Nat) (hf : f ≠ .HELM_DBG_ACC_REG) : (s.accessed c r).rd f i = s.rd f i :=
  (State.rd_wr_fld _ _ _ _ _ _ hf.symm).trans (State.relock_rd _ _ rfl)

theorem State.dbgAcc_taken (hw : s.blockWriter (.pelorus p) c = true) (hc : s.coreState c = 4) (hr : dbgThere r = true) :
    s.dbgAcc (.pelorus p) c r op k = k (s.accessed c r) :=
  (State.debugWrite_taken hw).trans (if_pos ⟨(State.accessed_rd _ _ (by decide)).trans hc, hr⟩)

theorem State.dbgAcc_refused (hw : s.blockWriter (.pelorus p) c = true) (hc : s.coreState c ≠ 4 ∨ dbgThere r = false) :
    s.dbgAcc (.pelorus p) c r op k = (s.accessed c r).wr .HELM_DBG_ACC_ERR [c] 1 := by
  refine (State.debugWrite_taken hw).trans (if_neg fun h => ?_)
  obtain ⟨hst, hth⟩ := h
  rcases hc with h4 | hf
  · exact h4 ((State.accessed_rd (s := s) (c := c) (r := r) _ _ (by decide)).symm.trans hst)
  · rw [hf] at hth
    exact absurd hth (by decide)

/-- The state after a debug read of register `r`. -/
noncomputable def State.debugRead (s : State) (c r : Nat) : State :=
  ((s.dbgRead c r).2.wr .HELM_DBG_ACC_LO_DATA [c] ((s.dbgRead c r).1 % 2 ^ 32)).wr .HELM_DBG_ACC_HI_DATA [c]
    ((s.dbgRead c r).1 / 2 ^ 32)

theorem State.debugRead_spec : (s.debugRead c r).rd .HELM_DBG_ACC_LO_DATA [c] = (s.dbgRead c r).1 % 2 ^ 32 ∧
    (s.debugRead c r).rd .HELM_DBG_ACC_HI_DATA [c] = (s.dbgRead c r).1 / 2 ^ 32 % 2 ^ 32 ∧
    (s.debugRead c r).rd .HELM_DBG_ACC_ERR [c] = s.rd .HELM_DBG_ACC_ERR [c] := by
  have hlo : (Fld.spec .HELM_DBG_ACC_LO_DATA).width = 32 := rfl
  have hhi : (Fld.spec .HELM_DBG_ACC_HI_DATA).width = 32 := rfl
  have herr := State.dbgRead_rd s c r (G0 := .HELM_DBG_ACC_ERR) (I0 := [c.val]) rfl
  unfold State.debugRead
  generalize s.dbgRead c r = x at herr ⊢
  refine ⟨?_, ?_, ?_⟩ <;> simp (disch := decide) only [State.rd_wr_fld, State.rd_wr_same]
  · rw [hlo, Nat.mod_mod]
  · rw [hhi]
  · exact herr

theorem exec_dbgRegRead (p : Fin 2) (r : BitVec 14) (hw : s.blockWriter (.pelorus p) c = true) (hc : s.coreState c = 4)
    (hr : dbgThere r.toNat = true) :
    exec (.dbgRegRead (.pelorus p) c r) s = .next ((s.accessed c r.toNat).debugRead c r.toNat) :=
  congrArg Host.Outcome.next (State.dbgAcc_taken hw hc hr)

theorem State.dbgRead_shadowed : s.dbgRead c 0x2000 = ((s.helmRt c).pc, s) ∧ s.dbgRead c 0x1000 = (0, s) ∧
    s.dbgRead c 0x7C9 = ((s.helmRt c).dpc, s) ∧ s.dbgRead c 0x7CA = ((s.helmRt c).dvec, s) := ⟨rfl, rfl, rfl, rfl⟩

/-- A register that a debug access reads from the core's table of known values. -/
theorem State.dbgRead_known {v : Nat} (hr : [0x2000, 0x1000, 0x7C8, 0x7C9, 0x7CA, 0xC01, 0x300].contains r = false)
    (hv : smGet (s.helmRt c).csr [r] none = some v) : s.dbgRead c r = (v, s) := by
  have hcsr : s.csrAt c r = (v, s) := by
    unfold State.csrAt
    dsimp only
    rw [hv]
  simp only [List.contains_eq_mem, List.mem_cons, List.not_mem_nil, or_false, decide_eq_false_iff_not, not_or] at hr
  obtain ⟨h1, h2, h3, h4, h5, h6, h7⟩ := hr
  unfold State.dbgRead
  dsimp only
  rw [if_neg h1, if_neg h2, if_neg h3, if_neg h4, if_neg h5, if_neg h6, if_neg h7, hcsr]

theorem State.dbgRead_csr {v : Nat} (hr : csrThere r = true) (hn : [0x7C8, 0x7C9, 0x7CA, 0xC01, 0x300].contains r = false)
    (hv : smGet (s.helmRt c).csr [r] none = some v) : s.dbgRead c r = (v, s) := by
  refine State.dbgRead_known ?_ hv
  have h1 : r ≠ 0x2000 := fun h => absurd (h ▸ hr) (by decide)
  have h2 : r ≠ 0x1000 := fun h => absurd (h ▸ hr) (by decide)
  simp only [List.contains_eq_mem, List.mem_cons, List.not_mem_nil, or_false, decide_eq_false_iff_not, not_or] at hn ⊢
  exact ⟨h1, h2, hn⟩

theorem State.dbgRead_x {v : Nat} (hlo : 0x1001 ≤ r) (hhi : r < 0x1040) (hv : smGet (s.helmRt c).csr [r] none = some v) :
    s.dbgRead c r = (v, s) := by
  refine State.dbgRead_known ?_ hv
  simp only [List.contains_eq_mem, List.mem_cons, List.not_mem_nil, or_false, decide_eq_false_iff_not]
  omega

/-- The value that a debug write takes. -/
noncomputable def State.accData (s : State) (c : Nat) : Nat := s.rd .HELM_DBG_ACC_LO_DATA [c] + s.rd .HELM_DBG_ACC_HI_DATA [c] * 2 ^ 32

theorem exec_dbgRegWrite (p : Fin 2) (r : BitVec 14) (hw : s.blockWriter (.pelorus p) c = true) (hc : s.coreState c = 4)
    (hr : dbgThere r.toNat = true) :
    exec (.dbgRegWrite (.pelorus p) c r) s = .next ((s.accessed c r.toNat).dbgWrite c r.toNat (s.accData c)) := by
  have hdata : (s.accessed c r.toNat).accData c = s.accData c := by
    unfold State.accData
    rw [State.accessed_rd _ _ (by decide), State.accessed_rd _ _ (by decide)]
  refine congrArg Host.Outcome.next ((State.dbgAcc_taken hw hc hr).trans ?_)
  rw [← hdata]
  rfl

theorem State.dbgWrite_x {v : Nat} (hlo : 0x1001 ≤ r) (hhi : r < 0x1040) :
    smGet ((s.dbgWrite c r v).helmRt c).csr [r] none = some v := by
  unfold State.dbgWrite
  dsimp only
  rw [if_neg (by omega), if_neg (by omega), if_neg (by omega), if_neg (by omega), if_neg (by omega), if_neg (by omega),
    State.setHelm_helmRt, if_pos rfl]
  exact smGet_smPut_same (α := Option Nat) (s.helmRt c).csr [r] (some v) none

theorem State.dbgWrite_pc {v : Nat} : ((s.dbgWrite c 0x2000 v).helmRt c).pc = v :=
  congrArg HelmRt.pc ((State.setHelm_helmRt _ _ _ _).trans (if_pos rfl))

theorem State.accErr_spec : ((s.accessed c r).wr .HELM_DBG_ACC_ERR [c] 1).rd .HELM_DBG_ACC_ERR [c] = 1 ∧
    ((s.accessed c r).wr .HELM_DBG_ACC_ERR [c] 1).rd .HELM_DBG_ACC_LO_DATA [c] = s.rd .HELM_DBG_ACC_LO_DATA [c] :=
  ⟨State.rd_wr_same _ _ _ _, (State.rd_wr_fld _ _ _ _ _ _ (by decide)).trans (State.accessed_rd _ _ (by decide))⟩

end

/-! ## Patch units and the mailbox (R463, R464, R482) -/

section
variable {s : State} {w : Writer} {c : Fin 8} {u : Fin 16}

theorem State.patchDrop_l1 (u : Nat) (k : Fin 2) :
    (s.patchDrop c u).l1 c k ((0x01C000000000 + 4 * s.rd .HELM_PATCH_ADDR_OFF [c, u]) / 64) = none := by
  unfold State.patchDrop State.l1 State.setL1
  dsimp only
  rw [smGet_smPut, smGet_smPut]
  match k with
  | 0 => exact (if_neg (by simp)).trans (if_pos rfl)
  | 1 => exact if_pos rfl

theorem State.patchDrop_same (u : Nat) (l : List (Fld × List Nat)) : SameFields s (s.patchDrop c u) l :=
  (SameFields.refl s l).of_rd fun _ _ => State.patchDrop_rd _ _ _ rfl

theorem exec_patchWrite {data : Bool} {v : BitVec 32} (hm : s.mute w = false) : exec (.patchWrite w c u data v) s =
    .next (if data then (s.wr .HELM_PATCH_DATA_WORD [c, u] v.toNat).patchDrop c u
    else (((s.patchDrop c u).wr .HELM_PATCH_ADDR_EN [c, u] (v.toNat % 2)).wr .HELM_PATCH_ADDR_OFF [c, u]
      (v.toNat / 4)).patchDrop c u) := congrArg Host.Outcome.next (if_neg (by rw [hm]; simp))

theorem exec_patchWrite_word {v : BitVec 32} (hm : s.mute w = false) : ∃ t, exec (.patchWrite w c u true v) s = .next t ∧
    t.rd .HELM_PATCH_DATA_WORD [c, u] = v.toNat ∧
    (∀ k : Fin 2, t.l1 c k ((0x01C000000000 + 4 * s.rd .HELM_PATCH_ADDR_OFF [c, u]) / 64) = none) ∧
    SameFields s t [(.HELM_PATCH_DATA_WORD, [c, u])] := by
  have hw : (Fld.spec .HELM_PATCH_DATA_WORD).width = 32 := rfl
  refine ⟨_, exec_patchWrite hm, ?_, fun k => ?_, ?_⟩
  · refine (State.patchDrop_rd _ _ _ rfl).trans ((State.rd_wr_same _ _ _ _).trans ?_)
    rw [hw]
    exact Nat.mod_eq_of_lt v.isLt
  · have h := State.patchDrop_l1 (s := s.wr .HELM_PATCH_DATA_WORD [c, u] v.toNat) (c := c) u k
    rw [State.rd_wr_fld _ _ _ _ _ _ (by decide)] at h
    exact h
  · exact ((SameFields.refl s _).wr (by simp) _).of_rd fun _ _ => State.patchDrop_rd _ _ _ rfl

theorem exec_patchWrite_addr {v : BitVec 32} (hm : s.mute w = false) : ∃ t, exec (.patchWrite w c u false v) s = .next t ∧
    t.rd .HELM_PATCH_ADDR_EN [c, u] = v.toNat % 2 ∧
    t.rd .HELM_PATCH_ADDR_OFF [c, u] = v.toNat / 4 % 2 ^ Fld.HELM_PATCH_ADDR_OFF.spec.width ∧
    SameFields s t [(.HELM_PATCH_ADDR_EN, [c, u]), (.HELM_PATCH_ADDR_OFF, [c, u])] := by
  have hw : (Fld.spec .HELM_PATCH_ADDR_EN).width = 1 := rfl
  refine ⟨_, exec_patchWrite hm, ?_, ?_, ?_⟩
  · refine (State.patchDrop_rd _ _ _ rfl).trans
      ((State.rd_wr_fld _ _ _ _ _ _ (by decide)).trans ((State.rd_wr_same _ _ _ _).trans ?_))
    rw [hw]
    exact Nat.mod_mod _ _
  · exact (State.patchDrop_rd _ _ _ rfl).trans (State.rd_wr_same _ _ _ _)
  · exact (((State.patchDrop_same u _).wr (by simp) _).wr (by simp) _).of_rd fun _ _ => State.patchDrop_rd _ _ _ rfl

theorem State.asked_busy : (s.asked c).rd .HELM_MBX_CTL_BUSY [c] = 1 := State.rd_wr_same _ _ _ _

theorem State.asked_rd (f : Fld) (i : List Nat) (hf : f ≠ .HELM_MBX_CTL_BUSY) : (s.asked c).rd f i = s.rd f i :=
  (State.rd_wr_fld _ _ _ _ _ _ hf.symm).trans (State.relock_rd _ _ rfl)

theorem State.relock_busy : (s.relock c).on .HELM_MBX_CTL_BUSY [c] = s.on .HELM_MBX_CTL_BUSY [c] := by
  unfold State.on
  rw [State.relock_rd _ _ rfl]

theorem State.drop_mail (r : Reg) (i : List Nat) (v : Nat) : (s.drop w r i v).mail = s.mail :=
  State.drop_keeps (Keeps.part (p := .mail) (by decide) (by decide) s) s w r i v rfl

theorem exec_helmMailboxGo_busy (hb : s.on .HELM_MBX_CTL_BUSY [c] = true) : ∃ t, exec (.helmMailboxGo w c) s = .next t ∧
    t.mail = s.mail ∧ SameFields s t [] := by
  have hbusy := (State.relock_busy (s := s) (c := c)).trans hb
  refine ⟨_, rfl, ?_, State.blockWrite_dropped (if_pos hbusy)⟩
  refine State.blockWrite_cases (P := fun t => t.mail = s.mail) rfl (State.drop_mail _ _ _) ?_
  rw [if_pos hbusy]
  exact State.drop_mail _ _ _

/-- The mail that a helm core's accepted request leaves for the hub. -/
noncomputable def State.helmMailRun (s : State) (c : Nat) : State :=
  let req := s.rd .HELM_MBX_REQ_LO_ADDR [c] + s.rd .HELM_MBX_REQ_HI_ADDR [c] * 2 ^ 32
  let rsp := s.rd .HELM_MBX_RSP_LO_ADDR [c] + s.rd .HELM_MBX_RSP_HI_ADDR [c] * 2 ^ 32
  let n := s.rd .HELM_MBX_LEN_REQ [c]
  let lim := s.rd .HELM_MBX_LEN_LIMIT [c]
  let done (s : State) (st : Nat) : State := s.setHelm c { s.helmRt c with mbx := some (st, 0) }
  if lim = 0 ∨ 4096 < lim ∨ 4096 < n then done s 6
  else if n = 0 then done s 4
  else if s.plainHbm req n = false ∨ s.plainHbm rsp lim = false then done s 1
  else
    let (st, bs, s) := s.gBytes helmMst req n
    if st ≠ 0 then done s st
    else
      let m : Mail := { src := 8 + c, req := bs, limit := lim, dst := rsp, t := s.now }
      if mailBounce bs = 0 then { s with mail := s.mail ++ [m] } else s.mailAnswer m (mailBounce bs) []

theorem exec_helmMailboxGo (hm : s.mute w = false) (hw : s.blockWriter w c = true) (hb : s.on .HELM_MBX_CTL_BUSY [c] = false) :
    exec (.helmMailboxGo w c) s = .next ((s.asked c).helmMailRun c) :=
  congrArg Host.Outcome.next ((State.blockWrite_taken hm hw).trans
    (if_neg (by rw [State.relock_busy, hb]; simp)))

theorem State.helmMailRun_invalid (h : s.rd .HELM_MBX_LEN_LIMIT [c] = 0 ∨ 4096 < s.rd .HELM_MBX_LEN_LIMIT [c] ∨
    4096 < s.rd .HELM_MBX_LEN_REQ [c]) : s.helmMailRun c = s.setHelm c { s.helmRt c with mbx := some (6, 0) } := if_pos h

theorem State.helmMailRun_sent {a b n l : Nat} {bs : List Byte} (hn : s.rd .HELM_MBX_LEN_REQ [c] = n)
    (hl : s.rd .HELM_MBX_LEN_LIMIT [c] = l) (ha : a = s.rd .HELM_MBX_REQ_LO_ADDR [c] + s.rd .HELM_MBX_REQ_HI_ADDR [c] * 2 ^ 32)
    (hb : b = s.rd .HELM_MBX_RSP_LO_ADDR [c] + s.rd .HELM_MBX_RSP_HI_ADDR [c] * 2 ^ 32) (hl1 : 1 ≤ l) (hl2 : l ≤ 4096)
    (hn1 : 1 ≤ n) (hn2 : n ≤ 4096) (hpa : s.plainHbm a n = true) (hpb : s.plainHbm b l = true)
    (hst : (s.gBytes helmMst a n).1 = 0) (hbs : (s.gBytes helmMst a n).2.1 = bs) (hok : mailBounce bs = 0) :
    (s.helmMailRun c).mail.getLast?.map (fun m => (m.src, m.req, m.limit, m.dst)) = some (8 + c.val, bs, l, b) := by
  unfold State.helmMailRun
  dsimp only
  rw [← ha, ← hb, hn, hl, if_neg (by omega), if_neg (by omega), if_neg (by rw [hpa, hpb]; simp)]
  generalize s.gBytes helmMst a n = x at hst hbs ⊢
  obtain ⟨st, bs', u⟩ := x
  subst hbs
  dsimp only at hst hok ⊢
  rw [if_neg (by simp [hst]), if_pos hok, List.getLast?_append]
  rfl

/-- The end of a helm core's exchange with status `st` and `n` bytes (R482). -/
theorem exec_helmMailboxDone {st n : Nat} (h : (s.helmRt c).mbx = some (st, n)) : ∃ t, exec (.helmMailboxDone c) s = .next t ∧
    t.rd .HELM_MBX_CTL_BUSY [c] = 0 ∧ (t.helmRt c).mbx = none ∧
    t.rd .HELM_MBX_CTL_STATUS [c] = st % 2 ^ Fld.HELM_MBX_CTL_STATUS.spec.width ∧
    t.rd .HELM_MBX_CTL_BYTES [c] = n % 2 ^ Fld.HELM_MBX_CTL_BYTES.spec.width := by
  generalize hv : ((s.wr .HELM_MBX_CTL_BUSY [c] 0).wr .HELM_MBX_CTL_STATUS [c] st).wr .HELM_MBX_CTL_BYTES [c] n = v
  refine ⟨(v.setHelm c { v.helmRt c with mbx := none }).irq (16 + c), ?_, ?_, ?_, ?_, ?_⟩
  · change execHelmMailboxDone c s = _
    unfold execHelmMailboxDone
    rw [h, ← hv]
  · rw [State.irq_rd _ _ rfl, State.setHelm_rd _ _ _ rfl, ← hv]
    simp (disch := decide) only [State.rd_wr_fld, State.rd_wr_same]
    rfl
  · exact congrArg HelmRt.mbx ((State.setHelm_helmRt _ _ _ _).trans (if_pos rfl))
  · rw [State.irq_rd _ _ rfl, State.setHelm_rd _ _ _ rfl, ← hv]
    simp (disch := decide) only [State.rd_wr_fld, State.rd_wr_same]
  · rw [State.irq_rd _ _ rfl, State.setHelm_rd _ _ _ rfl, ← hv]
    exact State.rd_wr_same _ _ _ _

end

/-- A core asked to halt stops in its monitor, which keeps where it was and at what level (R471). -/
theorem exec_monitorEntry_spec {c : Fin 8} {acts : List HelmAct} {pc : BitVec 64} {prv : BitVec 2} {mie e : Bool} {s : State}
    (hc : s.coreState c = 2) (hr : (s.helmRt c).monReq = 1) (hl : s.level c < 12) :
    ∃ t, exec (.monitorEntry c acts pc prv mie e) s = .next t ∧ t.coreState c = 3 ∧ t.level c = 12 ∧
      t.rd .HELM_DBG_STAT_IN_MON [c] = 1 ∧ t.rd .HELM_DBG_STAT_CAUSE [c] = 1 ∧ (t.helmRt c).dpc = pc.toNat ∧
      (t.helmRt c).prv = prv.toNat ∧ (t.helmRt c).pmie = mie ∧ (t.helmRt c).pc = (s.helmRt c).dvec ∧ (t.helmRt c).mode = 3 ∧
      (t.helmRt c).levels = (s.helmActs c acts).level c :: ((s.helmActs c acts).helmRt c).levels ∧ (t.helmRt c).monReq = 0 ∧
      (t.helmRt c).resv = none := by
  generalize hu : (s.coreAt c acts pc.toNat prv.toNat mie).wdSync c = u
  have hurt : ∃ n d, u.helmRt c = { (s.coreAt c acts pc.toNat prv.toNat mie).helmRt c with wdLeft := n, wdT := d } := by
    rw [← hu, State.wdSync_helmRt]
    exact ⟨_, _, rfl⟩
  obtain ⟨n, d, hurt⟩ := hurt
  rw [State.coreAt_helmRt] at hurt
  have hlevel : u.level c = (s.helmActs c acts).level c := by
    rw [← hu]
    exact (State.wdSync_rd _ _ rfl).trans (State.setHelm_rd _ _ _ rfl)
  obtain ⟨hst, hlv, hmon, hcause⟩ := State.entered_fields (s := u) (c := c) pc.toNat prv.toNat mie
  obtain ⟨n', d', x, hrt⟩ := State.entered_helmRt (s := u) (c := c) pc.toNat prv.toNat 1 mie
  refine ⟨_, exec_monitorEntry hc hr hl, ?_⟩
  rw [hu, State.groupHalted_helmRt, State.groupHalted_rd, State.groupHalted_rd, hrt, hlevel, hurt]
  refine ⟨?_, ?_, hmon, hcause, rfl, rfl, rfl, ?_, rfl, rfl, rfl, rfl⟩
  · exact (State.groupHalted_rd _ _).trans hst
  · exact (State.groupHalted_rd _ _).trans hlv
  · exact State.helmActs_dvec acts

theorem State.dbgThere_x {r : Nat} (hlo : 0x1001 ≤ r) (hhi : r < 0x1040) : dbgThere r = true := by
  unfold dbgThere
  rw [decide_eq_true (show 0x1000 ≤ r by omega), decide_eq_true hhi]
  simp

/-- Settles O49: the state that each command of the monitor, the debug access, the patch units and the mailbox leaves. -/
theorem helmHaltsAndDebugAccessFollowTheMonitor : Obligations.HelmHaltsAndDebugAccessFollowTheMonitor := by
  unfold Obligations.HelmHaltsAndDebugAccessFollowTheMonitor
  refine ⟨fun p c s hw hc hr => ?_, fun w c s hc => exec_dbgMonitorHalt_inReset hc, fun c acts pc prv mie e s hc hr hl =>
    exec_monitorEntry_spec hc hr hl, fun c acts pc prv mie e s hl => ⟨_, exec_monitorEntry_masked hl, rfl⟩,
    fun c l r s hc hl hlv hlt => ⟨_, exec_monitorExit hc hl, State.left_spec hlv hlt⟩, fun c b s hc hl =>
    ⟨_, exec_monitorExit_busy hc hl, ?_, ?_⟩, fun p c acts pc prv mie s hw hc => ?_, fun p c s hw hc => ?_, fun w c s hc =>
    exec_dbgHardRelease_inReset hc, fun p c r s hw hc hr => ?_, fun c r v s => ?_, fun p c r s hw hc => ?_,
    fun p c r s hw hc => ?_, fun p c r s hw hc hlo hhi => ?_, fun p c s hw hc => ?_, fun w c u v s hm => exec_patchWrite_word hm,
    fun w c u v s hm => exec_patchWrite_addr hm, fun w c s hb => exec_helmMailboxGo_busy hb, fun w c s hm hw hb h => ?_,
    fun w c a b n l bs s hm hw hb hn hl ha hb' hl1 hl2 hn1 hn2 hpa hpb hst hbs hok => ?_, fun c st n s h =>
    exec_helmMailboxDone h⟩
  · refine ⟨_, exec_dbgMonitorHalt hw hc hr, ?_, (State.relock_sameFields s c []).of_rd fun _ _ => State.setHelm_rd _ _ _ rfl⟩
    exact congrArg HelmRt.monReq ((State.setHelm_helmRt _ _ _ _).trans (if_pos rfl))
  · exact State.raise_keeps (Keeps.part (p := .helm) rfl (by decide) s) s _ _ _ _ _ rfl
  · exact (SameFields.refl s _).of_rd fun _ _ => State.raise_rd _ _ _ _ _ _ rfl
  · obtain ⟨hst, hcause, hresv, hpc, hmode⟩ := State.hardHalted_spec (s := (s.relock c).coreAt c acts pc.toNat prv.toNat mie) (c := c)
    refine ⟨_, exec_dbgHardHalt hw hc, hst, hcause, hresv, hpc.trans ?_, hmode.trans ?_⟩ <;> rw [State.coreAt_helmRt]
  · obtain ⟨hst, hpc, hsame⟩ := State.resumed_spec (s := s.relock c) (c := c)
    have hon : (s.relock c).on .HELM_DBG_STAT_IN_MON [c] = s.on .HELM_DBG_STAT_IN_MON [c] := by
      unfold State.on
      rw [State.relock_rd _ _ rfl]
    rw [hon] at hst
    rw [State.relock_helmRt] at hpc
    exact ⟨_, exec_dbgHardRelease hw hc, hst, hpc, (State.relock_sameFields s c []).trans hsame (by simp) (by simp)⟩
  · obtain ⟨hlo, hhi, herr⟩ := State.debugRead_spec (s := s.accessed c r.toNat) (c := c) (r := r.toNat)
    rw [State.dbgRead_congr (s := s) State.accessed_helmRt rfl rfl] at hlo hhi
    exact ⟨_, exec_dbgRegRead p r hw hc hr, hlo, hhi, herr.trans (State.accessed_rd _ _ (by decide))⟩
  · obtain ⟨hpc, h0, hdpc, hdvec⟩ := State.dbgRead_shadowed (s := s) (c := c)
    exact ⟨hpc, h0, hdpc, hdvec, State.dbgRead_csr, State.dbgRead_x⟩
  · exact ⟨_, congrArg Host.Outcome.next (State.dbgAcc_refused hw hc), State.accErr_spec⟩
  · refine ⟨_, congrArg Host.Outcome.next (State.dbgAcc_refused hw hc), State.accErr_spec.1, ?_, ?_⟩ <;>
      rw [State.helmRt_wr, State.accessed_helmRt]
  · exact ⟨_, exec_dbgRegWrite p r hw hc (State.dbgThere_x hlo hhi), State.dbgWrite_x hlo hhi⟩
  · exact ⟨_, exec_dbgRegWrite p 0x2000 hw hc rfl, State.dbgWrite_pc⟩
  · have hlim := State.asked_rd (s := s) (c := c) .HELM_MBX_LEN_LIMIT [c] (by decide)
    have hreq := State.asked_rd (s := s) (c := c) .HELM_MBX_LEN_REQ [c] (by decide)
    refine ⟨_, exec_helmMailboxGo hm hw hb, ?_⟩
    rw [State.helmMailRun_invalid (by rw [hlim, hreq]; exact h)]
    refine ⟨?_, (State.setHelm_rd _ _ _ rfl).trans State.asked_busy, rfl⟩
    exact congrArg HelmRt.mbx ((State.setHelm_helmRt _ _ _ _).trans (if_pos rfl))
  · refine ⟨_, exec_helmMailboxGo hm hw hb, State.helmMailRun_sent ?_ ?_ ?_ ?_ hl1 hl2 hn1 hn2 hpa hpb hst hbs hok⟩
    · exact (State.asked_rd _ _ (by decide)).trans hn
    · exact (State.asked_rd _ _ (by decide)).trans hl
    · rw [State.asked_rd _ _ (by decide), State.asked_rd _ _ (by decide)]
      exact ha
    · rw [State.asked_rd _ _ (by decide), State.asked_rd _ _ (by decide)]
      exact hb'

/-! PROOFS. Configuration loads (R48 to R55, R334, R410, R411, R437, R438, R458). -/

/-! ## Every sector that a load names -/

/-- A fold over a list with `a` reaches `Q`: `P` holds up to `a`, and `Q` from there on. -/
theorem foldl_reaches {α : Type} {P Q : State → Prop} {g : State → α → State} {a : α}
    (hstep : ∀ t x, P t → x ≠ a → P (g t x)) (hat : ∀ t, P t → Q (g t a)) (hQ : ∀ t x, Q t → Q (g t x)) :
    ∀ {l : List α}, a ∈ l → ∀ {s : State}, P s → Q (l.foldl g s)
  | [], h, _, _ => absurd h List.not_mem_nil
  | x :: l, h, s, hs => by
    by_cases hx : x = a
    · subst hx
      exact rel_foldl hQ l (hat s hs)
    · exact foldl_reaches hstep hat hQ (List.mem_of_ne_of_mem (Ne.symm hx) h) (hstep s x hs hx)

section
variable {s t : State} {d k : Nat}

theorem State.cfgNamed_iff : s.cfgNamed d k = true ↔
    (hDIES s.cfgLoad.hdr).testBit d = true ∧ (hSECTORS s.cfgLoad.hdr d).testBit k = true := by
  simp [State.cfgNamed]

/-- A change of each named sector reaches the named sector `k` of die `d`. -/
theorem State.cfgEach_reaches {P Q : State → Prop} {f : Nat → Nat → State → State} (hn : s.cfgNamed d k = true) (hd : d < 8)
    (hk : k < 40) (hup : ∀ t, P t → t.up d = true ∧ t.cfgLoad.hdr = s.cfgLoad.hdr) (hstep : ∀ n i t, P t → (n, i) ≠ (d, k) → P (f n i t))
    (hat : ∀ t, P t → Q (f d k t)) (hQ : ∀ n i t, Q t → Q (f n i t)) (hs : P s) : Q (s.cfgEach f) := by
  obtain ⟨hdie, hsec⟩ := State.cfgNamed_iff.mp hn
  have hdmem : d ∈ hDieList s.cfgLoad.hdr := List.mem_filter.mpr ⟨List.mem_range.mpr hd, hdie⟩
  have hkmem : k ∈ hSecList s.cfgLoad.hdr d := List.mem_filter.mpr ⟨List.mem_range.mpr hk, hsec⟩
  refine foldl_reaches (P := P) (a := d) (fun t n ht hne => ?_) (fun t ht => ?_) (fun t n ht => ?_) hdmem hs
  · split
    · exact rel_foldl (fun t i ht => hstep n i t ht fun h => hne (Prod.mk.inj h).1) _ ht
    · exact ht
  · obtain ⟨htup, hhdr⟩ := hup t ht
    rw [if_pos htup, hhdr]
    exact foldl_reaches (P := P) (a := k) (fun t i ht hne => hstep d i t ht fun h => hne (Prod.mk.inj h).2) hat (fun t i => hQ d i t)
      hkmem ht
  · split
    · exact rel_foldl (fun t i ht => hQ n i t ht) _ ht
    · exact ht

/-! ## The end of a load -/

/-- The load of descriptor `idx` of queue pair `q` leaves its place; the descriptor has not ended. -/
noncomputable def State.loadLeft (s : State) (q idx : Nat) : State :=
  { { s.giveBack 8 19 cfgWho with cfgLoad := {} } with cfgWait := s.cfgWait.filter (· ≠ (q, idx)) }

theorem State.cfgClose_owned {q idx n : Nat} (ho : s.cfgLoad.owner = some (q, idx)) (hat : s.jobAt q idx = some n)
    (status detail bytes : Nat) : s.cfgClose status detail bytes = (s.loadLeft q idx).jobDone q n status detail bytes := by
  unfold State.cfgClose
  dsimp only
  rw [ho]
  dsimp only
  split
  next m hm =>
    obtain rfl : m = n := Option.some.inj (hm.symm.trans hat)
    rfl
  next hm => cases hm.symm.trans hat

theorem State.jobDone_cfgLoad (q n status detail bytes : Nat) : (s.jobDone q n status detail bytes).cfgLoad = s.cfgLoad :=
  State.jobDone_keeps (Keeps.part (p := .cfgLoad) rfl (by decide) s) s q n status detail bytes rfl

/-- However a load ends, its place is free. -/
theorem State.cfgClose_cfgLoad (status detail bytes : Nat) : (s.cfgClose status detail bytes).cfgLoad = {} := by
  have hraise : ∀ (u : State) (l : List Nat), (u.raise .BOOT_STAT [] 413 0 l).cfgLoad = u.cfgLoad := fun u l =>
    State.raise_keeps (Keeps.part (p := .cfgLoad) rfl (by decide) u) u _ _ _ _ _ rfl
  unfold State.cfgClose
  dsimp only
  split
  · split
    · rw [State.jobDone_cfgLoad]
    · rfl
  · split
    · split
      · rfl
      · rw [hraise]
        rfl
    · rfl

theorem State.cfgFail_cfgLoad (status detail : Nat) : (s.cfgFail status detail).cfgLoad = {} := State.cfgClose_cfgLoad _ _ _

theorem State.cfgClose_now (status detail bytes : Nat) : (s.cfgClose status detail bytes).now = s.now :=
  State.cfgClose_keeps (Keeps.part (p := .now) rfl (by decide) s) s status detail bytes rfl

theorem State.imageBad_count (code source : Nat) : (s.imageBad code source).rd .LS_VER_CNT_COUNT [] =
    min (s.rd .LS_VER_CNT_COUNT [] + 1) 0xFFFFFFFF :=
  (State.lsErr_rd _ _ _ rfl).trans (State.bump_same _ _ _ _)

/-- The first refusal of a die's engine is recorded (R55). -/
theorem State.cfgErr_first {n code sec far : Nat} (h : s.rd .CFG_ERR_VALID [n] = 0) (hc : code < 16) (hf : far < 2 ^ 32) :
    (s.cfgErr n code sec far).rd .CFG_ERR_VALID [n] = 1 ∧ (s.cfgErr n code sec far).rd .CFG_ERR_CODE [n] = code ∧
      (s.cfgErr n code sec far).rd .CFG_ERR_FAR_FAR [n] = far := by
  have hon : s.on .CFG_ERR_VALID [n] = false := by
    unfold State.on
    rw [h]
    rfl
  have hwc : (Fld.spec .CFG_ERR_CODE).width = 4 := rfl
  have hwf : (Fld.spec .CFG_ERR_FAR_FAR).width = 32 := rfl
  unfold State.cfgErr
  dsimp only
  rw [hon, if_neg (by decide)]
  refine ⟨?_, ?_, ?_⟩ <;> rw [State.raise_rd _ _ _ _ _ _ rfl] <;>
    simp (disch := decide) only [State.rd_wr_fld, State.rd_wr_same]
  · rfl
  · rw [hwc]
    exact Nat.mod_eq_of_lt hc
  · rw [hwf]
    exact Nat.mod_eq_of_lt hf

theorem recFAR_lt (r : Nat) : recFAR r < 2 ^ 32 := Nat.mod_lt _ (Nat.two_pow_pos _)

/-- A refused frame ends the load and leaves its cause (R54, R55). -/
theorem State.cfgRefuse_spec {n code sec far : Nat} (h : s.rd .CFG_ERR_VALID [n] = 0) (hc : code < 16) (hf : far < 2 ^ 32) :
    (s.cfgRefuse n code sec far).cfgLoad = {} ∧ (s.cfgRefuse n code sec far).rd .CFG_ERR_VALID [n] = 1 ∧
      (s.cfgRefuse n code sec far).rd .CFG_ERR_CODE [n] = code ∧ (s.cfgRefuse n code sec far).rd .CFG_ERR_FAR_FAR [n] = far := by
  obtain ⟨hv, hcode, hfar⟩ := State.cfgErr_first (s := s) (sec := sec) h hc hf
  exact ⟨State.cfgFail_cfgLoad _ _, (State.cfgFail_rd _ _ _ rfl).trans hv, (State.cfgFail_rd _ _ _ rfl).trans hcode,
    (State.cfgFail_rd _ _ _ rfl).trans hfar⟩

end

/-! ## The start of a load -/

section
variable {s : State} {q : Fin 1024} {n : Nat} {j : Job} {r : List (Nat × Nat)}

/-- The descriptor runs, and its load holds the header `h`. -/
noncomputable def State.loadOpened (s : State) (owner : Option (Nat × Nat)) (release : Bool) (len at_ h phase : Nat) : State :=
  { s with cfgLoad := { owner := owner, auto := owner.isNone, release := release, len := len, at_ := at_, hdr := h, phase := phase } }

theorem exec_cfgLoad (h : Option (BitVec 2048)) (u : Bool) (hmay : s.mayStart q n 0x20 j = true) (hph : s.cfgLoad.phase = 0)
    (hauto : s.auto = none) (hwait : s.cfgWait = (q.val, j.idx) :: r) : exec (.cfgLoad q h u) s = .next
      (if (s.rd .HIF_CFG_FN_MASK []).testBit (s.rd .HIF_QP_ASSIGN_FN [q]) = false then
        ({ s.setJob q n { j with st := 1 } with cfgWait := r } : State).jobDone q n 1 0 0
      else (s.setJob q n { j with st := 1 }).cfgBegin (some (q.val, j.idx)) (j.d.testBit 192) (dLEN j.d) 0 (h.map (·.toNat)) u) := by
  change execCfgLoad q h u s = _
  unfold execCfgLoad
  rw [if_pos ⟨hph, by rw [hauto]; rfl⟩, hwait]
  dsimp only
  rw [if_pos rfl, State.startOp_of hmay]
  rw [State.setJob_rd _ _ _ _ rfl, show (s.setJob q n { j with st := 1 }).cfgWait = (q.val, j.idx) :: r from hwait]
  rfl

theorem exec_cfgLoad_denied (h : Option (BitVec 2048)) (u : Bool) (hmay : s.mayStart q n 0x20 j = true) (hph : s.cfgLoad.phase = 0)
    (hauto : s.auto = none) (hwait : s.cfgWait = (q.val, j.idx) :: r)
    (hfn : (s.rd .HIF_CFG_FN_MASK []).testBit (s.rd .HIF_QP_ASSIGN_FN [q]) = false) :
    ∃ t, exec (.cfgLoad q h u) s = .next t ∧ (t.qp q).jobs[n]? = some (j.ended 1 0 0) ∧ t.cfgLoad = s.cfgLoad ∧ SameFields s t [] := by
  have hjob := State.setJob_job (State.mayStart_job hmay) { j with st := 1 }
  have hends := State.running_ends (s := { s.setJob q n { j with st := 1 } with cfgWait := r }) (q := q) (n := n) (j := j)
    (status := 1) hjob (Or.inl (by decide)) 0 0
  refine ⟨_, exec_cfgLoad h u hmay hph hauto hwait, ?_⟩
  rw [if_pos hfn]
  refine ⟨hends.job, State.jobDone_cfgLoad _ _ _ _ _, ?_⟩
  exact (SameFields.refl s []).of_rd fun f i => (hends.sameFields f i List.not_mem_nil).trans (State.setJob_rd s q n { j with st := 1 } rfl)

/-- A load that ends before it has entered a sector: nothing but its descriptor and its place changes. -/
theorem exec_cfgLoad_ends (h : Option (BitVec 2048)) (u : Bool) {status : Nat} (hmay : s.mayStart q 0 0x20 j = true)
    (honly : (s.qp q).jobs = [j]) (hph : s.cfgLoad.phase = 0) (hauto : s.auto = none)
    (hwait : s.cfgWait = (q.val, j.idx) :: r)
    (hfn : (s.rd .HIF_CFG_FN_MASK []).testBit (s.rd .HIF_QP_ASSIGN_FN [q]) = true)
    (hs : dLEN j.d = 0 ∧ status = 4 ∨ dLEN j.d ≠ 0 ∧ h = none ∧ status = 8) :
    ∃ t, exec (.cfgLoad q h u) s = .next t ∧ (t.qp q).jobs = [j.ended status 0 0] ∧ t.cfgLoad = {} ∧ SameFields s t [] := by
  generalize hu : (s.setJob q 0 { j with st := 1 }).loadOpened (some (q.val, j.idx)) (j.d.testBit 192) (dLEN j.d) 0 0 0 = v
  have hjobs : (v.qp q).jobs = [{ j with st := 1 }] := by
    rw [← hu]
    change ((s.setJob q 0 { j with st := 1 }).qp q).jobs = _
    rw [State.setJob_qp, honly]
    rfl
  have howner : v.cfgLoad.owner = some (q.val, j.idx) := by rw [← hu]; rfl
  have hrd : ∀ f i, v.rd f i = s.rd f i := fun f i => by rw [← hu]; exact State.setJob_rd s q 0 { j with st := 1 } rfl
  have hexec : exec (.cfgLoad q h u) s = .next (v.cfgClose status 0 0) := by
    rw [exec_cfgLoad h u hmay hph hauto hwait, if_neg (by rw [hfn]; simp), ← hu]
    rcases hs with ⟨hlen, rfl⟩ | ⟨hlen, rfl, rfl⟩
    · exact congrArg Host.Outcome.next (if_pos hlen)
    · exact congrArg Host.Outcome.next (if_neg hlen)
  have hstatus : status ≠ 0 := by omega
  have hleft : ((v.loadLeft q j.idx).qp q).jobs = [{ j with st := 1 }] := hjobs
  have hends := State.running_ends (s := v.loadLeft q j.idx) (q := q) (n := 0) (j := j) (by rw [hleft]; rfl) (Or.inl hstatus) 0 0
  have hclose := State.cfgClose_owned howner (State.jobAt_only hjobs) status 0 0
  refine ⟨_, hexec, ?_, State.cfgClose_cfgLoad _ _ _, (SameFields.refl s []).of_rd fun f i => ?_⟩
  · rw [hclose]
    exact hends.jobs hleft
  · rw [hclose]
    exact (hends.sameFields f i List.not_mem_nil).trans ((State.giveBack_rd v 8 19 cfgWho rfl).trans (hrd f i))

theorem State.cfgProceed_enters (hp : s.cfgLoad.phase = 2) (hm : (hDieList s.cfgLoad.hdr).all (fun n => !s.migrating n) = true) :
    s.cfgProceed = { s.cfgEnter with cfgLoad := { s.cfgLoad with phase := 3 } } := by
  unfold State.cfgProceed
  rw [if_pos ⟨hp, hm⟩]
  have hl : s.cfgEnter.cfgLoad = s.cfgLoad :=
    State.cfgEnter_keeps (Keeps.part (p := .cfgLoad) (by decide) (by decide) s) s rfl
  dsimp only
  rw [hl]

theorem State.cfgEnter_qp (q : Nat) : s.cfgEnter.qp q = s.qp q := by
  unfold State.qp
  rw [show s.cfgEnter.qps = s.qps from State.cfgEnter_keeps (Keeps.part (p := .qps) (by decide) (by decide) s) s rfl]

/-- The load of a good plain image whose dies are in service and at rest opens its stream (R52, R437). -/
theorem State.cfgBegin_plain {owner : Option (Nat × Nat)} {release u : Bool} {len at_ h : Nat} (hlen : 256 ≤ len)
    (hh : h < 2 ^ 2048) (hc : s.cfgHeaderCheck h len u = 0) (hfr : hFRAMES h ≠ 0) (henc : hEncrypted h = false)
    (hd : (hDieList h).all (fun d => s.up d && !s.migrating d) = true) :
    s.cfgBegin owner release len at_ (some h) u = (s.loadOpened owner release len at_ h 2).cfgProceed := by
  have hup : (hDieList h).find? (fun n => !s.up n) = none := by
    refine List.find?_eq_none.mpr fun d hmem => ?_
    have hx := List.all_eq_true.mp hd d hmem
    simp only [Bool.and_eq_true] at hx
    simp [hx.1]
  unfold State.cfgBegin
  dsimp only
  rw [if_neg (show ¬len = 0 by omega), if_neg (show ¬len < 256 by omega), Nat.mod_eq_of_lt hh]
  refine (if_neg (not_not_intro hc)).trans ((if_neg hfr).trans ?_)
  split
  next n hn => cases hn.symm.trans hup
  next => rw [henc, if_neg (by decide)]; rfl

theorem exec_cfgLoad_opens {h : BitVec 2048} {u : Bool} (hmay : s.mayStart q n 0x20 j = true) (hph : s.cfgLoad.phase = 0)
    (hauto : s.auto = none) (hwait : s.cfgWait = (q.val, j.idx) :: r)
    (hfn : (s.rd .HIF_CFG_FN_MASK []).testBit (s.rd .HIF_QP_ASSIGN_FN [q]) = true) (hlen : 256 ≤ dLEN j.d)
    (hc : s.cfgHeaderCheck h.toNat (dLEN j.d) u = 0) (hfr : hFRAMES h.toNat ≠ 0) (henc : hEncrypted h.toNat = false)
    (hd : (hDieList h.toNat).all (fun d => s.up d && !s.migrating d) = true) :
    ∃ t, exec (.cfgLoad q (some h) u) s = .next t ∧ t.cfgLoad.phase = 3 ∧ t.cfgLoad.hdr = h.toNat ∧ t.cfgLoad.sent = 0 ∧
      t.cfgLoad.owner = some (q.val, j.idx) ∧ (t.qp q).jobs[n]? = some { j with st := 1 } := by
  have hjob := State.setJob_job (State.mayStart_job hmay) { j with st := 1 }
  have hbegin := State.cfgBegin_plain (s := s.setJob q n { j with st := 1 }) (owner := some (q.val, j.idx))
    (release := j.d.testBit 192) (at_ := 0) (u := u) hlen h.isLt hc hfr henc hd
  have hrest : (hDieList h.toNat).all (fun d => !s.migrating d) = true := by
    refine List.all_eq_true.mpr fun d hmem => ?_
    have hx := List.all_eq_true.mp hd d hmem
    simp only [Bool.and_eq_true] at hx
    exact hx.2
  refine ⟨_, exec_cfgLoad (some h) u hmay hph hauto hwait, ?_⟩
  rw [if_neg (by rw [hfn]; simp), show (some h).map (·.toNat) = some h.toNat from rfl, hbegin,
    State.cfgProceed_enters rfl hrest]
  refine ⟨rfl, rfl, rfl, rfl, ?_⟩
  exact (congrArg (fun x => x.jobs[n]?) (State.cfgEnter_qp (s := (s.setJob q n { j with st := 1 }).loadOpened (some (q.val, j.idx))
    (j.d.testBit 192) (dLEN j.d) 0 h.toNat 2) q.val)).trans hjob

end

/-! ## The records and frames of a load -/

section
variable {s : State}

theorem State.cfgDecrypt_streaming (h : s.cfgLoad.phase = 3) : s.cfgDecrypt = s := if_neg (by rw [h]; decide)

theorem State.cfgProceed_streaming (h : s.cfgLoad.phase = 3) : s.cfgProceed = s := if_neg fun hc => by
  rw [h] at hc
  exact absurd hc.1 (by decide)

theorem exec_cfgRecord_some {x : BitVec 8256} (hp : s.cfgLoad.phase = 3) (hsent : s.cfgLoad.sent < hFRAMES s.cfgLoad.hdr)
    (hauto : s.cfgLoad.auto = false) (hdie : (hDIES s.cfgLoad.hdr).testBit (farDIE (recFAR x.toNat)) = true)
    (hroom : (s.cfgLoad.buf.filter (fun y => y.die = farDIE (recFAR x.toNat))).length < 64) :
    exec (.cfgRecord (some x)) s = .next { s with cfgLoad := { s.cfgLoad with
      sent := s.cfgLoad.sent + 1, buf := s.cfgLoad.buf ++ [{ die := farDIE (recFAR x.toNat), rec_ := x.toNat }] } } := by
  change execCfgRecord (some x) s = _
  unfold execCfgRecord
  dsimp only
  rw [State.cfgDecrypt_streaming hp, State.cfgProceed_streaming hp, if_pos ⟨hp, hsent⟩, hauto, if_neg (by decide)]
  dsimp only [Option.map_some]
  rw [if_neg (by rw [hdie]; simp), if_neg (Nat.not_le.mpr hroom)]

theorem exec_cfgRecord_none (hp : s.cfgLoad.phase = 3) (hsent : s.cfgLoad.sent < hFRAMES s.cfgLoad.hdr)
    (hauto : s.cfgLoad.auto = false) : exec (.cfgRecord none) s = .next (s.cfgFail 8 0) := by
  change execCfgRecord none s = _
  unfold execCfgRecord
  dsimp only
  rw [State.cfgDecrypt_streaming hp, State.cfgProceed_streaming hp, if_pos ⟨hp, hsent⟩, hauto, if_neg (by decide)]
  rfl

/-- The first record of the buffer is taken out. -/
noncomputable def State.recordTaken (s : State) (r : List CfgRec) : State := { s with cfgLoad := { s.cfgLoad with buf := r } }

theorem exec_cfgFrame {d : Fin 8} {fails : Fin 5} {items : List CfgItem} {x : CfgRec} {r : List CfgRec} (hp : s.cfgLoad.phase = 3)
    (hup : s.up d = true) (hbuf : s.cfgLoad.buf = x :: r) (hx : x.die = d.val) (hok : s.frameCause d x.rec_ items ≠ 0 ∨ fails.val < 4 ∨ farKIND (recFAR x.rec_) ≠ 0) :
    exec (.cfgFrame d fails items) s = .next
      (if s.frameCause d x.rec_ items ≠ 0 then
        (s.recordTaken r).cfgRefuse d (s.frameCause d x.rec_ items) (farSector (recFAR x.rec_) % 64) (recFAR x.rec_)
      else if fails.val < 4 then (s.recordTaken r).frameStore d x.rec_ items
      else (s.recordTaken r).cfgRefuse d 5 (farSector (recFAR x.rec_)) (recFAR x.rec_)) := by
  have hfind : s.cfgLoad.buf.find? (fun x => x.die = d.val) = some x := by
    rw [hbuf]
    exact List.find?_cons_of_pos (by simp [hx])
  have herase : s.cfgLoad.buf.erase x = r := by rw [hbuf]; exact List.erase_cons_head ..
  change execCfgFrame d fails items s = _
  unfold execCfgFrame
  dsimp only
  rw [hfind]
  dsimp only
  rw [if_pos ⟨hp, hup⟩, herase,
    show State.frameCause { s with cfgLoad := { s.cfgLoad with buf := r } } d x.rec_ items = s.frameCause d x.rec_ items from rfl]
  split
  · rfl
  next hc =>
    split
    · rfl
    next hf => rw [if_neg ((hok.resolve_left hc).resolve_left hf)]; rfl

theorem State.frameCause_lt (n r : Nat) (items : List CfgItem) : s.frameCause n r items < 16 := by
  unfold State.frameCause
  dsimp only
  repeat' split
  all_goals decide

/-- A good frame stands at its address, is counted, and has left the buffer (R51, R55). -/
theorem State.frameStore_spec (n r : Nat) (items : List CfgItem) :
    smGet (s.frameStore n r items).cfg [n, recFAR r] 0 = recData r ∧
    (s.frameStore n r items).cfgLoad = { s.cfgLoad with done := s.cfgLoad.done + 1 } ∧
    (s.frameStore n r items).rd .CFG_STATUS_FRAMES [n] = (s.rd .CFG_STATUS_FRAMES [n] + 1) % 2 ^ Fld.CFG_STATUS_FRAMES.spec.width ∧
    SameFields s (s.frameStore n r items) [(.CFG_STATUS_FRAMES, [n])] := by
  generalize hv : ((s.setSector n (farSector (recFAR r)) { s.sector n (farSector (recFAR r)) with
    frames := (s.sector n (farSector (recFAR r))).frames + 1
    rkn := addColumn (recFAR r) (s.sector n (farSector (recFAR r))).rkn }).wr .CFG_STATUS_FRAMES [n]
      (s.rd .CFG_STATUS_FRAMES [n] + 1)) = v
  have heq : s.frameStore n r items = ({ v with
      cfg := smPut v.cfg [n, recFAR r] (recData r) 0
      cfgLoad := { v.cfgLoad with done := v.cfgLoad.done + 1 } } : State).frameDesign n (recFAR r) (recData r) items := by
    rw [← hv]
    unfold State.frameStore
    dsimp only
    rw [State.setSector_rd _ _ _ _ rfl]
  have hload : v.cfgLoad = s.cfgLoad := by rw [← hv]; rfl
  rw [heq]
  generalize hw : ({ v with
    cfg := smPut v.cfg [n, recFAR r] (recData r) 0
    cfgLoad := { v.cfgLoad with done := v.cfgLoad.done + 1 } } : State) = w
  refine ⟨?_, ?_, ?_, ?_⟩
  · rw [State.frameDesign_keeps (Keeps.part (p := .cfg) rfl (by decide) w) w n (recFAR r) (recData r) items rfl, ← hw]
    exact smGet_smPut_same _ _ _ _
  · rw [State.frameDesign_keeps (Keeps.part (p := .cfgLoad) rfl (by decide) w) w n (recFAR r) (recData r) items rfl, ← hw, ← hload]
  · refine (State.frameDesign_rd _ _ _ _ _ rfl).trans ?_
    rw [← hw]
    refine Eq.trans (?_ : _ = v.rd .CFG_STATUS_FRAMES [n]) ?_
    · rfl
    · rw [← hv]
      exact State.rd_wr_same _ _ _ _
  · refine SameFields.of_rd (t := v) ?_ fun f i => ?_
    · rw [← hv]
      exact ((SameFields.refl s _).of_rd fun _ _ => State.setSector_rd _ _ _ _ rfl).wr (by simp) _
    · refine (State.frameDesign_rd _ _ _ _ _ rfl).trans ?_
      rw [← hw]
      rfl

end

/-! ## The end of an image and its release -/

section
variable {s : State} {d : Fin 8} {k : Fin 40}

theorem exec_imageVerifyEnd_bad {g : Bool} (hp : s.cfgLoad.phase = 3) (hdone : s.cfgLoad.done = hFRAMES s.cfgLoad.hdr)
    (hkey : hKEY s.cfgLoad.hdr ≠ 0xFF) : exec (.imageVerifyEnd false g) s = .next ((s.imageBad 1 1).cfgFail 1 0) :=
  (if_pos ⟨hp, hdone⟩).trans (if_pos ⟨hkey, rfl⟩)

/-- Every named sector holds the image (R53). -/
noncomputable def State.loadHeld (s : State) : State :=
  ({ s with loadN := s.loadN + 1 } : State).cfgEach fun n k u =>
    (u.setSector n k { u.sector n k with img := u.loadN }).wr .SEC_STATUS_STATE [n, k] 2

/-- No named sector is out of service. -/
def State.namedUsable (s : State) : Prop := (hDieList s.cfgLoad.hdr).all (fun n =>
  (hSecList s.cfgLoad.hdr n).all (fun i => s.rd .SEC_STATUS_STATE [n, i] != 5)) = true

theorem State.namedUsable_find (h : s.namedUsable) : (hDieList s.cfgLoad.hdr).findSome? (fun n =>
    ((hSecList s.cfgLoad.hdr n).find? (fun k => s.rd .SEC_STATUS_STATE [n, k] = 5)).map (fun k => (n, k))) = none := by
  refine List.findSome?_eq_none_iff.mpr fun n hn => Option.map_eq_none_iff.mpr (List.find?_eq_none.mpr fun i hi => ?_)
  have hx := List.all_eq_true.mp (List.all_eq_true.mp h n hn) i hi
  simpa using hx

theorem exec_imageVerifyEnd_good (hp : s.cfgLoad.phase = 3) (hdone : s.cfgLoad.done = hFRAMES s.cfgLoad.hdr)
    (hrel : s.cfgLoad.release = false) (h : s.namedUsable) : exec (.imageVerifyEnd true true) s = .next s.loadHeld.cfgGood := by
  change execImageVerifyEnd true true s = _
  unfold execImageVerifyEnd
  dsimp only
  rw [if_pos ⟨hp, hdone⟩, if_neg (by simp), if_neg (by simp), State.namedUsable_find h]
  dsimp only
  rw [hrel, if_neg (by decide)]
  rfl

theorem State.loadHeld_keeps {P : State → Prop} (h0 : P { s with loadN := s.loadN + 1 })
    (hP : ∀ (n i : Nat) (x : SecRt) (u : State), P u → P ((u.setSector n i x).wr .SEC_STATUS_STATE [n, i] 2)) : P s.loadHeld :=
  rel_foldl (R := P) (fun u n hu => by
    split
    · exact rel_foldl (R := P) (fun u i hu => hP n i _ u hu) _ hu
    · exact hu) _ h0

theorem State.loadHeld_state (hup : s.up d = true) (hn : s.cfgNamed d k = true) : s.loadHeld.rd .SEC_STATUS_STATE [d, k] = 2 := by
  refine State.cfgEach_reaches (P := fun u => u.up d = true ∧ u.cfgLoad.hdr = s.cfgLoad.hdr)
    (Q := fun u => u.rd .SEC_STATUS_STATE [d, k] = 2) (d := d.val) (k := k.val) hn d.isLt k.isLt (fun _ h => h)
    (fun n i u hu _ => ⟨?_, hu.2⟩) (fun u _ => State.rd_wr_same _ _ _ _) (fun n i u hu => ?_) ⟨hup, rfl⟩
  · refine Eq.trans ?_ hu.1
    unfold State.up
    rw [State.rd_wr_fld _ _ _ _ _ _ (by decide), State.setSector_rd _ _ _ _ rfl]
  · rw [State.rd_wr]
    split
    · rfl
    · exact (State.setSector_rd _ _ _ _ rfl).trans hu

/-- The end of a load that is good (R438). -/
theorem State.cfgGood_spec : s.cfgGood.cfgLoad = {} ∧ s.cfgGood.now = s.now ∧
    s.cfgGood.rd .LS_SVN_SVN [hCOUNTER s.cfgLoad.hdr] =
      max (s.rd .LS_SVN_SVN [hCOUNTER s.cfgLoad.hdr]) (hSVN s.cfgLoad.hdr) % 2 ^ Fld.LS_SVN_SVN.spec.width :=
  ⟨State.cfgClose_cfgLoad _ _ _, State.cfgClose_now _ _ _, (State.cfgClose_rd _ _ _ _ rfl).trans (State.rd_wr_same _ _ _ _)⟩

/-- The driver of a load's requests finds none. -/
theorem State.cfgDrive_empty (h : (List.range 8).all (fun g => (s.gov g).queue.isEmpty) = true) (n : Nat) : s.cfgDrive n = s := by
  have hnone : (List.range 8).find? (fun g => ((s.gov g).queue.head?.map (·.who)) = some cfgWho && s.headFits g) = none := by
    refine List.find?_eq_none.mpr fun g hg => ?_
    have hq := List.isEmpty_iff.mp (List.all_eq_true.mp h g hg)
    simp [hq]
  cases n with
  | zero => rfl
  | succ n =>
    unfold State.cfgDrive
    rw [hnone]

theorem State.takeGrant_ready {g op : Nat} {who : List Nat} (h : (s.gov g).ready.any (·.is op who) = true) :
    s.takeGrant g op who = some (s.setGov g { s.gov g with ready := (s.gov g).ready.filter (fun p => !p.is op who) }) := by
  unfold State.takeGrant
  dsimp only
  rw [if_pos h, if_pos h]

/-- A sector runs at its release. -/
noncomputable def State.secReleased (n i : Nat) (s : State) : State :=
  if s.rd .SEC_STATUS_STATE [n, i] = 2 then (s.sectorRun n i).wr .SEC_CTL_RESET [n, i] 0 else s

theorem State.secReleased_up (n i m : Nat) : (State.secReleased n i s).up m = s.up m := by
  unfold State.secReleased State.sectorRun State.up
  dsimp only
  split
  · simp (disch := decide) only [State.rd_wr_fld]
    rw [State.setSector_rd _ _ _ _ rfl]
  · rfl

theorem State.secReleased_now (n i : Nat) : (State.secReleased n i s).now = s.now := by
  unfold State.secReleased
  split <;> rfl

theorem State.secReleased_cfgLoad (n i : Nat) : (State.secReleased n i s).cfgLoad = s.cfgLoad := by
  unfold State.secReleased
  split <;> rfl

/-- The release of another sector leaves a sector's state. -/
theorem State.secReleased_other {n i d k : Nat} (h : (n, i) ≠ (d, k)) {f : Fld} : (State.secReleased n i s).rd f [d, k] = s.rd f [d, k] := by
  have hne : ∀ g, (f, [d, k]) ∉ [(g, [n, i])] := by
    intro g hg
    simp only [List.mem_singleton, Prod.mk.injEq, List.cons.injEq, and_true] at hg
    exact h (Prod.ext hg.2.1.symm hg.2.2.symm)
  unfold State.secReleased State.sectorRun
  dsimp only
  split
  · rw [State.rd_wr_ne (hne _), State.rd_wr_ne (hne _), State.rd_wr_ne (hne _), State.rd_wr_ne (hne _)]
    rfl
  · rfl

/-- A sector that held its image runs after its release, and stays so. -/
theorem State.secReleased_same {n i : Nat} (h : s.rd .SEC_STATUS_STATE [n, i] = 2) :
    (State.secReleased n i s).rd .SEC_STATUS_STATE [n, i] = 3 ∧ (State.secReleased n i s).rd .SEC_CTL_RESET [n, i] = 0 := by
  unfold State.secReleased
  rw [if_pos h]
  exact ⟨(State.rd_wr_fld _ _ _ _ _ _ (by decide)).trans (State.sectorRun_fields s n i).1, State.rd_wr_same _ _ _ _⟩

theorem State.secReleased_running (n i : Nat) {d k : Nat} (h : s.rd .SEC_STATUS_STATE [d, k] = 3 ∧ s.rd .SEC_CTL_RESET [d, k] = 0) :
    (State.secReleased n i s).rd .SEC_STATUS_STATE [d, k] = 3 ∧ (State.secReleased n i s).rd .SEC_CTL_RESET [d, k] = 0 := by
  by_cases hni : (n, i) = (d, k)
  · obtain ⟨rfl, rfl⟩ := Prod.mk.inj hni
    unfold State.secReleased
    rw [if_neg (by rw [h.1]; decide)]
    exact h
  · rw [State.secReleased_other hni, State.secReleased_other hni]
    exact h

/-- The named sectors run from the release instant on. -/
theorem State.cfgRun_spec (hup : s.up d = true) (hn : s.cfgNamed d k = true) (hst : s.rd .SEC_STATUS_STATE [d, k] = 2) :
    (s.cfgEach State.secReleased).rd .SEC_STATUS_STATE [d, k] = 3 ∧ (s.cfgEach State.secReleased).rd .SEC_CTL_RESET [d, k] = 0 ∧
      (s.cfgEach State.secReleased).now = s.now := by
  rw [← and_assoc]
  refine ⟨State.cfgEach_reaches
    (P := fun u => (u.up d = true ∧ u.cfgLoad.hdr = s.cfgLoad.hdr) ∧ u.rd .SEC_STATUS_STATE [d, k] = 2)
    (Q := fun u => u.rd .SEC_STATUS_STATE [d, k] = 3 ∧ u.rd .SEC_CTL_RESET [d, k] = 0) (d := d.val) (k := k.val) hn d.isLt k.isLt
    (fun _ h => h.1) (fun n i u hu hne => ?_) (fun u hu => State.secReleased_same hu.2) (fun n i u hu =>
      State.secReleased_running n i hu) ⟨⟨hup, rfl⟩, hst⟩, ?_⟩
  · obtain ⟨⟨huup, huh⟩, hus⟩ := hu
    refine ⟨⟨(State.secReleased_up n i d).trans huup, ?_⟩, (State.secReleased_other hne).trans hus⟩
    rw [State.secReleased_cfgLoad]
    exact huh
  · refine rel_foldl (R := fun u => u.now = s.now) (fun u n hu => ?_) _ rfl
    split
    · exact rel_foldl (R := fun u => u.now = s.now) (fun u i hu => (State.secReleased_now n i).trans hu) _ hu
    · exact hu

/-- The load takes the grant of its last permit, and time goes on to the release instant and the edge after it. -/
noncomputable def State.releaseDue (s : State) (g n : Nat) : State :=
  (s.setGov g { s.gov g with ready := (s.gov g).ready.filter (fun p => !p.is 4 cfgWho) }).lapse n

theorem exec_cfgReleaseInstant {a b : Nat} (hp : s.cfgLoad.phase = 4) (hq : (List.range 8).all (fun g => (s.gov g).queue.isEmpty) = true)
    (hready : (s.gov ((hDieList s.cfgLoad.hdr).getLastD 0)).ready.any (·.is 4 cfgWho) = true)
    (hedge : (hDieList s.cfgLoad.hdr).all (fun n => (hSecList s.cfgLoad.hdr n).all fun i =>
      s.rd .SEC_STATUS_STATE [n, i] != 2 || (s.treesOf n i).isEmpty || s.edgeOk n i b) = true) :
    exec (.cfgReleaseInstant a b) s =
      .next ((s.releaseDue ((hDieList s.cfgLoad.hdr).getLastD 0) (10000 + a + b)).cfgEach State.secReleased).cfgGood := by
  change execCfgReleaseInstant a b s = _
  unfold execCfgReleaseInstant
  generalize 5000 = fuel
  dsimp only
  rw [if_pos ⟨hp, hedge⟩, State.cfgDrive_empty hq, State.takeGrant_ready hready]
  rfl

end

/-- Settles O43, by the stage of the load: its start, its records, its frames, its end and its release. -/
theorem configurationLoadsRunOneAtATime : Obligations.ConfigurationLoadsRunOneAtATime := by
  unfold Obligations.ConfigurationLoadsRunOneAtATime
  refine ⟨fun q n h u j r s hmay hph hauto hwait hfn => exec_cfgLoad_denied h u hmay hph hauto hwait hfn,
    fun q h u j r s hmay honly hph hauto hwait hfn hlen => exec_cfgLoad_ends h u hmay honly hph hauto hwait hfn (Or.inl ⟨hlen, rfl⟩),
    fun q u j r s hmay honly hph hauto hwait hfn hlen =>
      exec_cfgLoad_ends none u hmay honly hph hauto hwait hfn (Or.inr ⟨hlen, rfl, rfl⟩),
    fun q n h u j r s hmay hph hauto hwait hfn hlen hc hfr henc hd =>
      exec_cfgLoad_opens hmay hph hauto hwait hfn hlen hc hfr henc hd,
    fun x s hp hsent hauto hdie hroom => ⟨_, exec_cfgRecord_some hp hsent hauto hdie hroom, rfl, rfl, fun _ _ _ => rfl⟩,
    fun s hp hsent hauto => ⟨_, exec_cfgRecord_none hp hsent hauto, State.cfgFail_cfgLoad _ _⟩,
    fun d fails items x r s hp hup hbuf hx hc hfails hr => ?good, fun d fails items x r s hp hup hbuf hx hc hv => ?cause,
    fun d items x r s hp hup hbuf hx hc hkind hv => ?verify, fun g s hp hdone hkey => ?signature,
    fun d k s hp hdone hrel huse hup hn => ?held, fun a b d k s hp hup hn hst hq hready hedge => ?run⟩
  case good =>
    obtain ⟨hcfg, hload, hcount, hsame⟩ := State.frameStore_spec (s := s.recordTaken r) d x.rec_ items
    refine ⟨_, exec_cfgFrame hp hup hbuf hx (Or.inr (Or.inl hfails)), ?_⟩
    rw [if_neg (by rw [hc]; simp), if_pos hfails, hload]
    exact ⟨hcfg, rfl, rfl, hcount, hsame⟩
  case cause =>
    have hlt := State.frameCause_lt (s := s) d x.rec_ items
    refine ⟨_, exec_cfgFrame hp hup hbuf hx (Or.inl hc), ?_⟩
    rw [if_pos hc]
    exact State.cfgRefuse_spec (s := s.recordTaken r) hv hlt (recFAR_lt _)
  case verify =>
    refine ⟨_, exec_cfgFrame hp hup hbuf hx (Or.inr (Or.inr hkind)), ?_⟩
    rw [if_neg (by rw [hc]; simp), if_neg (by decide)]
    exact State.cfgRefuse_spec (s := s.recordTaken r) hv (by decide) (recFAR_lt _)
  case signature =>
    exact ⟨_, exec_imageVerifyEnd_bad hp hdone hkey, State.cfgFail_cfgLoad _ _,
      (State.cfgFail_rd _ _ _ rfl).trans (State.imageBad_count 1 1)⟩
  case held =>
    obtain ⟨hload, -, hsvn⟩ := State.cfgGood_spec (s := s.loadHeld)
    have hrest : s.loadHeld.cfgLoad = s.cfgLoad ∧ ∀ i, s.loadHeld.rd .LS_SVN_SVN i = s.rd .LS_SVN_SVN i := by
      refine State.loadHeld_keeps (P := fun u => u.cfgLoad = s.cfgLoad ∧ ∀ i, u.rd .LS_SVN_SVN i = s.rd .LS_SVN_SVN i)
        ⟨rfl, fun _ => rfl⟩ fun n i x u hu => ⟨hu.1, fun i' => ?_⟩
      rw [State.rd_wr_fld _ _ _ _ _ _ (by decide), State.setSector_rd _ _ _ _ rfl, hu.2]
    rw [hrest.1, hrest.2] at hsvn
    exact ⟨_, exec_imageVerifyEnd_good hp hdone hrel huse, hload, (State.cfgGood_rd _ rfl).trans (State.loadHeld_state hup hn), hsvn⟩
  case run =>
    obtain ⟨hload, hnow, -⟩ := State.cfgGood_spec
      (s := (s.releaseDue ((hDieList s.cfgLoad.hdr).getLastD 0) (10000 + a + b)).cfgEach State.secReleased)
    obtain ⟨hstate, hreset, htime⟩ := State.cfgRun_spec
      (s := s.releaseDue ((hDieList s.cfgLoad.hdr).getLastD 0) (10000 + a + b)) (d := d) (k := k) hup hn hst
    exact ⟨_, exec_cfgReleaseInstant hp hq hready hedge, hload, (State.cfgGood_rd _ rfl).trans hstate,
      (State.cfgGood_rd _ rfl).trans hreset, hnow.trans htime⟩

/-! PROOFS. Permits of the hub's governor (R391, R395). -/

/-- The request of a PCIe port for its training (R395). -/
def portRequest : Permit := { op := 17, who := [0], units := 4, t := 0 }

/-- At the hub's governor a request for one unit waits before the request of port 0. -/
def portBehind : State := State.reset.setGov 8 { queue := [{ op := 1, who := [0], units := 1, t := 0 }, portRequest] }

/-- Port `p` takes its training permit, if it has it or stands at the head of the queue. -/
noncomputable def State.portGrant (s : State) (p : Nat) : State :=
  match s.takeGrant 8 17 [p] with
  | some s => { s with pcie := smPut s.pcie [p] 1 0 }
  | none => s

theorem exec_permitGrant_hub (s : State) : exec (.permitGrant 8) s = .next (((s.grantHead 8).portGrant 0).portGrant 1) := rfl

theorem portBehind_queue : (portBehind.gov 8).queue = [{ op := 1, who := [0], units := 1, t := 0 }, portRequest] := by
  decide +kernel

/-- The grant of the first request lets the port's request go at once. -/
theorem portBehind_granted : ((((portBehind.grantHead 8).portGrant 0).portGrant 1).gov 8).queue = [] := by decide +kernel

/-- Refutes O50: its clause of a head request that fits says that the rest of the queue stays. The model lets the PCIe ports take
their training permits after each grant of the hub's governor (log entry 63), so where a port's request stands behind the head and
fits as well, both leave the queue. -/
theorem not_powerStatesAndPermitsFollowTheGovernors : ¬ Obligations.PowerStatesAndPermitsFollowTheGovernors := by
  unfold Obligations.PowerStatesAndPermitsFollowTheGovernors
  rintro ⟨-, -, -, -, -, -, -, -, -, -, -, -, -, -, -, -, hgrant, -⟩
  obtain ⟨t, ht, -, hqueue, -⟩ := hgrant 8 { op := 1, who := [0], units := 1, t := 0 } [portRequest] portBehind portBehind_queue
    (by decide +kernel) rfl (by decide) (by decide) (by decide +kernel)
  obtain rfl := Host.Outcome.next.inj ((exec_permitGrant_hub portBehind).symm.trans ht)
  exact absurd (portBehind_granted.symm.trans hqueue) (by decide)

/-! PROOFS. Dies that leave service and return (R214, R418, R419, R421 to R423). -/

/-! ## What a die's leaving changes -/

/-- What changes when a die leaves the data plane and is wiped: not its notes in the hub, nor the line of releases. -/
def opPartsLeave : List Part :=
  [.now, .local_, .spinePull, .stewards, .dieRt, .eng, .crossIn] ++ opPartsDieWipe ++ opPartsFlushOut ++ opPartsJobsLeave ++
    opPartsRcLost ++ opPartsHomeGone ++ opPartsSrEntered

/-- The same without the hub's own table of dies. -/
def opPartsLeaveRest : List Part := opPartsLeave.filter (· ≠ .dieRt)

noncomputable def opFieldsLeave : FSet :=
  ⟨[.ENG_STATUS_STATE, .RC_STAT_RETAINED, .HBM_STAT_CONTENT, .HA_POISON_CNT_COUNT] ++ opFieldsDieWipe.flds ++ opFieldsFlushOut.flds ++
    opFieldsJobsLeave.flds ++ opFieldsSrEntered.flds, [.die, .eng, .sec], [], false⟩

section
variable {s : State} {n : Nat} {R : State → Prop}

/-- The last part of a die's wipe: its stack's queues go, and a stack that keeps its contents sleeps (R420). -/
noncomputable def State.stackWipe (s : State) (n : Nat) : State :=
  match dieStack n with
  | none => s
  | some st =>
    let s := { s with
      sf := offDie s.sf st, haIn := offDie s.haIn st, haTx := offDie s.haTx st
      hbmPort := offDie s.hbmPort st, hbmPc := offDie s.hbmPc st }
    let s := s.setStk st { causes := (s.stk st).causes, suspect := (s.stk st).suspect }
    if s.on .HBM_STAT_CONTENT [st] then s.wr .HBM_STAT_STATE [st] 3 else s

theorem State.stackWipe_rd {f : Fld} (hf : f ≠ .HBM_STAT_STATE) (i : List Nat) : (s.stackWipe n).rd f i = s.rd f i := by
  unfold State.stackWipe
  split
  · rfl
  · refine (apply_ite (fun u : State => u.rd f i) _ _ _).trans ?_
    split
    · exact State.rd_wr_fld _ _ _ _ _ _ hf.symm
    · rfl

/-- The registers of a wiped die, before its stack goes. -/
theorem State.dieWipe_regs : ∃ u : State, s.dieWipe n = u.stackWipe n ∧
    u.regs = ((((dieLinks n).foldl (fun s l => s.linkDown l) s).haForget n).clearRegs (dieClears n)).regs := ⟨_, rfl, rfl⟩

/-- A wiped die's fields of its own classes read their reset values; a stack that keeps its contents sleeps. -/
theorem State.dieWipe_cleared {f : Fld} {i : List Nat} (hc : dieClears n f i = true) (hf : f ≠ .HBM_STAT_STATE) :
    (s.dieWipe n).rd f i = f.reset i := by
  obtain ⟨u, hu, hregs⟩ := State.dieWipe_regs (s := s) (n := n)
  rw [hu, State.stackWipe_rd hf, State.rd_of_regs hregs, State.rd_clearRegs, if_pos hc]

theorem State.dieWipe_engine (n : Fin 8) (k : Fin 12) : (s.dieWipe n).estate (12 * n.val + k.val) = 0 := by
  have hc : dieClears n .ENG_STATUS_STATE [12 * n.val + k.val] = true ∧ Fld.reset .ENG_STATUS_STATE [12 * n.val + k.val] = 0 := by
    revert n k
    decide +kernel
  exact (State.dieWipe_cleared hc.1 (by decide)).trans hc.2

theorem State.dieWipe_sector (n : Fin 8) (k : Fin 40) : (s.dieWipe n).rd .SEC_STATUS_STATE [n, k] = 0 := by
  have hc : dieClears n .SEC_STATUS_STATE [n, k] = true ∧ Fld.reset .SEC_STATUS_STATE [n, k] = 0 := by
    revert n k
    decide +kernel
  exact (State.dieWipe_cleared hc.1 (by decide)).trans hc.2

theorem State.dieWipe_leaves (hR : Keeps opPartsLeaveRest opFieldsLeave R) (hs : R s) : R (s.dieWipe n) :=
  State.dieWipe_keeps hR.sub s n hs

theorem State.setDie_state {v : Nat} (hv : v < 8) : (s.setDie n v).rd .HUB_DIE_STATE_STATE [n] = v := by
  unfold State.setDie
  dsimp only
  split
  next h => exact h
  next =>
    rw [State.raise_rd _ _ _ _ _ _ rfl, State.irq_rd _ _ rfl, State.rd_wr_same]
    exact Nat.mod_eq_of_lt hv

theorem State.setDie_other {v m : Nat} (hm : m ≠ n) : (s.setDie m v).rd .HUB_DIE_STATE_STATE [n] = s.rd .HUB_DIE_STATE_STATE [n] := by
  unfold State.setDie
  dsimp only
  split
  · rfl
  · rw [State.raise_rd _ _ _ _ _ _ rfl, State.irq_rd _ _ rfl, State.rd_wr_ne (l := []) (by simpa using Ne.symm hm)]

theorem State.setDie_part {v : Nat} {p : Part} (hp : [Part.regs, .stewards].contains p = false) (hr : p ≠ .regs) :
    p.same s (s.setDie n v) := State.setDie_keeps (Keeps.part hp hr s) s n v (Part.same_refl _ _)

/-! ## A planned reset -/

/-- A planned reset of die `n` is noted (R418). -/
noncomputable def State.resetNoted (s : State) (n : Nat) : State := ((s.setDie n 4).wr .RST_DIE_STAT_CAUSE [n] 2).incr .RST_DIE_STAT_RESETS [n]

/-- Die `n` stops and leaves the data plane by plan (R214). -/
noncomputable def State.leaves (s : State) (n : Nat) : State :=
  let s := (((((s.spanEvents n).stopEngines n).resetSectors n).isolate n).jobsLeave n)
  (s.bearingsPut false (s.bearingsTo n))

/-- Die `n` stops, leaves the data plane and is wiped (R214, R418). -/
noncomputable def State.resetRun (s : State) (n : Nat) : State := (((s.leaves n).flushOut n 1).lapse 4000000).dieWipe n

theorem State.plannedReset_eq : s.plannedReset n = ((s.resetNoted n).resetRun n).dieRelease n := rfl

theorem State.leaves_keeps (hR : Keeps opPartsLeaveRest opFieldsLeave R) (hs : R s) : R (s.leaves n) :=
  State.bearingsPut_keeps hR.sub _ _ _ (State.jobsLeave_keeps hR.sub _ _ (State.isolate_keeps hR.sub _ _
    (State.resetSectors_keeps hR.sub _ _ (State.stopEngines_keeps hR.sub _ _ (State.spanEvents_keeps hR.sub _ _ hs)))))

theorem State.resetRun_keeps (hR : Keeps opPartsLeaveRest opFieldsLeave R) (hs : R s) : R (s.resetRun n) :=
  State.dieWipe_keeps hR.sub _ _ (State.lapse_keeps hR.sub _ _ (State.flushOut_keeps hR.sub _ _ _ (State.leaves_keeps hR hs)))

theorem State.resetRun_rd {f : Fld} (hf : hasFld opFieldsLeave f = false) (i : List Nat) : (s.resetRun n).rd f i = s.rd f i :=
  State.resetRun_keeps (Keeps.rd hf i (s.rd f i)) rfl

theorem State.resetRun_dieRt : (s.resetRun n).dieRt = s.dieRt :=
  State.resetRun_keeps (Keeps.part (p := .dieRt) (by decide) (by decide) s) rfl

theorem State.resetRun_relq : (s.resetRun n).relq = s.relq :=
  State.resetRun_keeps (Keeps.part (p := .relq) (by decide) (by decide) s) rfl

theorem State.dieAt_of {t : State} (h : t.dieRt = s.dieRt) (m : Nat) : t.dieAt m = s.dieAt m := by
  unfold State.dieAt
  rw [h]

/-- Die `n` stands at the end of the line of releases. -/
noncomputable def State.lined (s : State) (n : Nat) : State := { s.setDieRt n { s.dieAt n with rel := 1 } with relq := s.relq ++ [n] }

theorem State.lined_dieAt : (s.lined n).dieAt n = { s.dieAt n with rel := 1 } :=
  (State.dieAt_of (s := s.setDieRt n { s.dieAt n with rel := 1 }) rfl n).trans ((State.setDieRt_dieAt _ _ _ _).trans (if_pos rfl))

theorem State.lined_rd (f : Fld) (i : List Nat) : (s.lined n).rd f i = s.rd f i := rfl

theorem State.lined_now : (s.lined n).now = s.now := rfl

theorem State.lined_relq : (s.lined n).relq = s.relq ++ [n] := rfl

theorem State.lined_other {m : Nat} (hm : m ≠ n) : (s.lined m).dieAt n = s.dieAt n :=
  (State.dieAt_of (s := s.setDieRt m { s.dieAt m with rel := 1 }) rfl n).trans ((State.setDieRt_dieAt _ _ _ _).trans (if_neg hm))

theorem State.resetNoted_fields : (s.resetNoted n).rd .HUB_DIE_STATE_STATE [n] = 4 ∧ (s.resetNoted n).rd .RST_DIE_STAT_CAUSE [n] = 2 ∧
    (s.resetNoted n).rd .RST_DIE_STAT_RESETS [n] = (s.rd .RST_DIE_STAT_RESETS [n] + 1) % 2 ^ Fld.RST_DIE_STAT_RESETS.spec.width ∧
    (s.resetNoted n).rd .RST_DIE_CTL_HOLD [n] = s.rd .RST_DIE_CTL_HOLD [n] := by
  unfold State.resetNoted State.incr
  refine ⟨?_, ?_, ?_, ?_⟩ <;> simp (disch := decide) only [State.rd_wr_fld, State.rd_wr_same]
  · exact State.setDie_state (by decide)
  · rfl
  · rw [State.setDie_rd _ _ _ rfl]
  · exact State.setDie_rd _ _ _ rfl

/-- A die that is reset is held, or stands in the line of releases (R407, R418). -/
theorem State.dieRelease_spec : if s.on .RST_DIE_CTL_HOLD [n] then (s.dieRelease n).rd .RST_DIE_STAT_HELD [n] = 1
    else ((s.dieRelease n).dieAt n).rel = 1 ∧ (s.dieRelease n).relq = s.relq ++ [n] := by
  unfold State.dieRelease
  split
  · exact State.rd_wr_same _ _ _ _
  · exact ⟨congrArg DieRt.rel State.lined_dieAt, rfl⟩

theorem State.on_of_rd {t : State} {f : Fld} {i : List Nat} (h : t.rd f i = s.rd f i) : t.on f i = s.on f i := by
  unfold State.on
  rw [h]

theorem State.plannedReset_spec (n : Fin 8) : (s.plannedReset n).rd .HUB_DIE_STATE_STATE [n] = 4 ∧
    (s.plannedReset n).rd .RST_DIE_STAT_CAUSE [n] = 2 ∧
    (s.plannedReset n).rd .RST_DIE_STAT_RESETS [n] = (s.rd .RST_DIE_STAT_RESETS [n] + 1) % 2 ^ Fld.RST_DIE_STAT_RESETS.spec.width ∧
    (∀ k : Fin 12, (s.plannedReset n).estate (12 * n.val + k.val) = 0) ∧
    (∀ k : Fin 40, (s.plannedReset n).rd .SEC_STATUS_STATE [n, k] = 0) ∧
    (if s.on .RST_DIE_CTL_HOLD [n] then (s.plannedReset n).rd .RST_DIE_STAT_HELD [n] = 1
      else ((s.plannedReset n).dieAt n).rel = 1 ∧ (s.plannedReset n).relq = s.relq ++ [n.val]) := by
  obtain ⟨hst, hcause, hresets, hhold⟩ := State.resetNoted_fields (s := s) (n := n.val)
  have hrel := State.dieRelease_spec (s := (s.resetNoted n).resetRun n) (n := n.val)
  rw [State.on_of_rd ((State.resetRun_rd rfl _).trans hhold), State.resetRun_relq] at hrel
  have hrelq : (s.resetNoted n).relq = s.relq := State.setDie_part (p := .relq) rfl (by decide)
  rw [hrelq] at hrel
  rw [State.plannedReset_eq]
  refine ⟨?_, ?_, ?_, fun k => ?_, fun k => ?_, hrel⟩
  · exact (State.dieRelease_rd _ _ rfl).trans ((State.resetRun_rd rfl _).trans hst)
  · exact (State.dieRelease_rd _ _ rfl).trans ((State.resetRun_rd rfl _).trans hcause)
  · exact (State.dieRelease_rd _ _ rfl).trans ((State.resetRun_rd rfl _).trans hresets)
  · exact (State.dieRelease_rd _ _ rfl).trans (State.dieWipe_engine n k)
  · exact (State.dieRelease_rd _ _ rfl).trans (State.dieWipe_sector n k)

/-- A planned reset of another die leaves what the hub notes of a die. -/
theorem State.plannedReset_other {m n : Nat} (hm : m ≠ n) :
    (s.plannedReset m).rd .HUB_DIE_STATE_STATE [n] = s.rd .HUB_DIE_STATE_STATE [n] ∧
    (s.plannedReset m).rd .RST_DIE_STAT_CAUSE [n] = s.rd .RST_DIE_STAT_CAUSE [n] ∧
    (s.plannedReset m).dieAt n = s.dieAt n := by
  have hne : ∀ f g : Fld, (f, [n]) ∉ [(g, [m])] := fun f g => by simpa using fun _ => Ne.symm hm
  rw [State.plannedReset_eq]
  refine ⟨?_, ?_, ?_⟩
  · refine (State.dieRelease_rd _ _ rfl).trans ((State.resetRun_rd rfl _).trans ?_)
    exact (State.rd_wr_ne (hne _ _)).trans ((State.rd_wr_ne (hne _ _)).trans (State.setDie_other hm))
  · refine (State.dieRelease_rd _ _ rfl).trans ((State.resetRun_rd rfl _).trans ?_)
    exact (State.rd_wr_ne (hne _ _)).trans ((State.rd_wr_ne (hne _ _)).trans (State.setDie_rd _ _ _ rfl))
  · have hnoted : (s.resetNoted m).dieRt = s.dieRt := State.setDie_part (p := .dieRt) rfl (by decide)
    have hrun := State.dieAt_of ((State.resetRun_dieRt (s := s.resetNoted m) (n := m)).trans hnoted)
    unfold State.dieRelease
    split
    · exact hrun n
    · exact (State.lined_other hm).trans (hrun n)

theorem exec_plannedDieReset {w : Writer} {n : Fin 8} (h : s.reaches w .RST_DIE_CTL [n] = true) :
    ∃ word, exec (.plannedDieReset w n) s = .next
      (if s.dpUp n = false ∨ s.on .PWR_DIE_STAT_BUSY [n] then (s.wr .RST_DIE_STAT_REFUSED [n] 1).drop w .RST_DIE_CTL [n] word
      else if s.releasing then { s with rstq := s.rstq ++ [n.val] }
      else s.plannedReset n) := ⟨_, congrArg Host.Outcome.next (State.reach_of h _ _)⟩

/-! ## A restart -/

/-- A restart of die `n` is noted: a held die is no longer held, another one is reset (R423). -/
noncomputable def State.restartNoted (s : State) (n : Nat) : State :=
  if s.on .RST_DIE_STAT_HELD [n] then s.wr .RST_DIE_STAT_HELD [n] 0
  else (s.incr .RST_DIE_STAT_RESETS [n]).setDieRt n { s.dieAt n with restartT := some s.now }

theorem State.dieWipe_rest {f : Fld} (hf : hasFld opFieldsLeave f = false) (i : List Nat) : (s.dieWipe n).rd f i = s.rd f i :=
  State.dieWipe_leaves (Keeps.rd hf i (s.rd f i)) rfl

theorem State.dieWipe_part {p : Part} (hp : opPartsLeaveRest.contains p = false) (hr : p ≠ .regs) : p.same s (s.dieWipe n) :=
  State.dieWipe_leaves (Keeps.part hp hr s) (Part.same_refl _ _)

/-- A restarted die with its rail stands at the end of the line of releases. -/
theorem State.dieRestart_spec : ((s.dieRestart n true).dieAt n) = { (s.restartNoted n).dieAt n with rel := 1 } ∧
    (s.dieRestart n true).relq = s.relq ++ [n] ∧ (s.dieRestart n true).now = s.now ∧
    (∀ f i, hasFld opFieldsLeave f = false → (s.dieRestart n true).rd f i = (s.restartNoted n).rd f i) := by
  have hnoted : (s.restartNoted n).relq = s.relq ∧ (s.restartNoted n).now = s.now := by
    unfold State.restartNoted
    split <;> exact ⟨rfl, rfl⟩
  have heq : s.dieRestart n true = ((s.restartNoted n).dieWipe n).lined n := rfl
  have hdie := State.dieAt_of (State.dieWipe_part (s := s.restartNoted n) (n := n) (p := .dieRt) (by decide) (by decide)) n
  have hrelq : ((s.restartNoted n).dieWipe n).relq = (s.restartNoted n).relq :=
    State.dieWipe_part (p := .relq) (by decide) (by decide)
  have hnow : ((s.restartNoted n).dieWipe n).now = (s.restartNoted n).now :=
    State.dieWipe_keeps (Keeps.part (p := .now) (by decide) (by decide) _) _ _ rfl
  rw [heq, State.lined_dieAt, hdie, State.lined_relq, hrelq, hnoted.1, State.lined_now, hnow, hnoted.2]
  refine ⟨rfl, rfl, rfl, fun f i hf => ?_⟩
  exact (State.lined_rd f i).trans (State.dieWipe_rest hf i)

theorem State.restartNoted_held (h : s.on .RST_DIE_STAT_HELD [n] = true) : s.restartNoted n = s.wr .RST_DIE_STAT_HELD [n] 0 := if_pos h

theorem State.restartNoted_lost (h : s.on .RST_DIE_STAT_HELD [n] = false) : s.restartNoted n =
    (s.incr .RST_DIE_STAT_RESETS [n]).setDieRt n { s.dieAt n with restartT := some s.now } := if_neg (by rw [h]; simp)

theorem exec_dieStart {w : Writer} {n : Fin 8} {rail : Bool} (h : s.reaches w .RST_DIE_CTL [n] = true) :
    ∃ word, exec (.dieStart w n rail) s = .next
      (if (s.rd .HUB_DIE_STATE_STATE [n] = 5 ∨ s.on .RST_DIE_STAT_HELD [n]) ∧ (s.dieAt n).rel = 0 ∧ s.tooHot n = false then
        s.dieRestart n rail
      else (s.wr .RST_DIE_STAT_REFUSED [n] 1).drop w .RST_DIE_CTL [n] word) := ⟨_, congrArg Host.Outcome.next (State.reach_of h _ _)⟩

theorem State.refusedDie_spec (w : Writer) (word : Nat) :
    ((s.wr .RST_DIE_STAT_REFUSED [n] 1).drop w .RST_DIE_CTL [n] word).rd .RST_DIE_STAT_REFUSED [n] = 1 ∧
    SameFields s ((s.wr .RST_DIE_STAT_REFUSED [n] 1).drop w .RST_DIE_CTL [n] word) [(.RST_DIE_STAT_REFUSED, [n])] :=
  ⟨(State.drop_rd _ _ _ _ _ rfl).trans (State.rd_wr_same _ _ _ _),
    ((SameFields.refl s _).wr (by simp) 1).of_rd fun _ _ => State.drop_rd _ _ _ _ _ rfl⟩

/-! ## Losses -/

/-- A loss of die `n` is noted (R421). -/
noncomputable def State.lossNoted (s : State) (n st cause : Nat) : State :=
  ((s.setDie n st).wr .HUB_DIE_STATE_LOST [n] 1).wr .RST_DIE_STAT_CAUSE [n] cause

theorem State.lossNoted_fields {st cause : Nat} (hst : st < 8) (hc : cause < 16) :
    (s.lossNoted n st cause).rd .HUB_DIE_STATE_STATE [n] = st ∧ (s.lossNoted n st cause).rd .HUB_DIE_STATE_LOST [n] = 1 ∧
    (s.lossNoted n st cause).rd .RST_DIE_STAT_CAUSE [n] = cause := by
  have hw : (Fld.spec .RST_DIE_STAT_CAUSE).width = 4 := rfl
  unfold State.lossNoted
  refine ⟨?_, ?_, ?_⟩ <;> simp (disch := decide) only [State.rd_wr_fld, State.rd_wr_same]
  · exact State.setDie_state hst
  · rfl
  · rw [hw]
    exact Nat.mod_eq_of_lt hc

/-- The stack of a lost die sleeps with its contents, or has lost them (R223, R250, R251). -/
noncomputable def State.stackAfterLoss (s : State) (n : Nat) (keep : Bool) : State :=
  match dieStack n with
  | none => s
  | some st =>
    let s := (s.sweepSleep st).homeGone st
    if keep then (s.srCause st 3).srEntered st else s.stackLost st

theorem State.stackAfterLoss_keeps {keep : Bool} (hR : Keeps opPartsLeaveRest opFieldsLeave R) (hs : R s) : R (s.stackAfterLoss n keep) := by
  unfold State.stackAfterLoss
  split
  · exact hs
  next st _ =>
    have hhome : R ((s.sweepSleep st).homeGone st) := State.homeGone_keeps hR.sub _ _ (State.sweepSleep_keeps hR.sub _ _ hs)
    dsimp only
    split
    · exact State.srEntered_keeps hR.sub _ _ (State.srCause_keeps hR.sub _ _ _ hhome)
    · exact State.stackLost_keeps hR.sub _ _ hhome

/-- A lost die leaves the data plane and is wiped (R214). -/
noncomputable def State.lossRun (s : State) (n cause : Nat) (keep : Bool) : State :=
  let s := ((s.raise .HUB_DIE_STATE [n] 421 3 [n, cause]).spanEvents n)
  let s := ((s.isolate n).jobsLeave n).bearingsPut false (s.bearingsTo n)
  ((s.rcLost n).stackAfterLoss n keep).dieWipe n

theorem State.lossRun_keeps {cause : Nat} {keep : Bool} (hR : Keeps opPartsLeaveRest opFieldsLeave R) (hs : R s) :
    R (s.lossRun n cause keep) :=
  State.dieWipe_keeps hR.sub _ _ (State.stackAfterLoss_keeps hR (State.rcLost_keeps hR.sub _ _ (State.bearingsPut_keeps hR.sub _ _ _
    (State.jobsLeave_keeps hR.sub _ _ (State.isolate_keeps hR.sub _ _ (State.spanEvents_keeps hR.sub _ _
      (State.raise_keeps hR.sub _ _ _ _ _ _ hs)))))))

/-- What the hub knows of a die that has been lost. -/
noncomputable def State.lostRt (s : State) (n : Nat) : DieRt :=
  { s.dieAt n with rel := 0, pwr := 0, resume := false, withdrawn := [], lostT := s.now }

/-- The hub's notes after a loss: the die is in no line, and is held if it was lost again too soon (R423). -/
noncomputable def State.lossEnd (s : State) (n : Nat) : State :=
  let again := match (s.dieAt n).restartT with
    | some t => decide (s.now < t + 10000000000)
    | none => false
  let s := s.setDieRt n (s.lostRt n)
  let s := (({ s with relq := s.relq.filter (· ≠ n) } : State).wr .PWR_DIE_STAT_BUSY [n] 0).capacityLost n
  if again then
    let s := s.wr .RST_DIE_CTL_HOLD [n] 1
    s.healthUpdate n { s.hlth n with dead := true }
  else s

theorem State.dieLost_eq (cause : Nat) (keep : Bool) :
    s.dieLost n cause keep = ((s.lossNoted n 5 cause).lossRun n cause keep).lossEnd n := rfl

theorem State.lossEnd_keeps (hR : Keeps [.regs, .health] ⟨[.PWR_DIE_STAT_BUSY, .RST_DIE_CTL_HOLD, .MGMT_HEALTH_STAGE], [], [], false⟩ R)
    (hs : R ({ s.setDieRt n (s.lostRt n) with relq := s.relq.filter (· ≠ n) } : State)) : R (s.lossEnd n) := by
  unfold State.lossEnd
  dsimp only
  generalize (match (s.dieAt n).restartT with
    | some t => decide (s.now < t + 10000000000)
    | none => false) = again
  have hcap := State.capacityLost_keeps hR.sub _ n (hR.wr .PWR_DIE_STAT_BUSY [n] 0 rfl rfl hs)
  split
  · exact State.healthUpdate_keeps hR.sub _ _ _ (hR.wr _ _ _ rfl rfl hcap)
  · exact hcap

theorem State.lossEnd_rd {f : Fld} (hf : hasFld ⟨[.PWR_DIE_STAT_BUSY, .RST_DIE_CTL_HOLD, .MGMT_HEALTH_STAGE], [], [], false⟩ f = false)
    (i : List Nat) : (s.lossEnd n).rd f i = s.rd f i :=
  State.lossEnd_keeps (Keeps.rd hf i (s.rd f i)) rfl

theorem State.lossEnd_dieAt : (s.lossEnd n).dieAt n = s.lostRt n := by
  have h : (s.lossEnd n).dieRt = (s.setDieRt n (s.lostRt n)).dieRt :=
    State.lossEnd_keeps (Keeps.part (p := .dieRt) rfl (by decide) (s.setDieRt n (s.lostRt n))) rfl
  exact (State.dieAt_of h n).trans ((State.setDieRt_dieAt _ _ _ _).trans (if_pos rfl))

/-- The state of a lost die in the hub. -/
def State.isLost (s : State) (n cause : Nat) : Prop :=
  s.rd .HUB_DIE_STATE_STATE [n] = 5 ∧ s.rd .HUB_DIE_STATE_LOST [n] = 1 ∧ s.rd .RST_DIE_STAT_CAUSE [n] = cause ∧ (s.dieAt n).rel = 0

theorem State.dieLost_isLost {cause : Nat} {keep : Bool} (hc : cause < 16) : (s.dieLost n cause keep).isLost n cause := by
  obtain ⟨hst, hlost, hcause⟩ := State.lossNoted_fields (s := s) (n := n) (st := 5) (cause := cause) (by decide) hc
  have hrun : ∀ {f : Fld}, hasFld opFieldsLeave f = false → ∀ (u : State) (i : List Nat), (u.lossRun n cause keep).rd f i = u.rd f i :=
    fun hf u i => State.lossRun_keeps (Keeps.rd hf i (u.rd _ i)) rfl
  rw [State.dieLost_eq]
  refine ⟨?_, ?_, ?_, ?_⟩
  · exact (State.lossEnd_rd rfl _).trans ((hrun rfl _ _).trans hst)
  · exact (State.lossEnd_rd rfl _).trans ((hrun rfl _ _).trans hlost)
  · exact (State.lossEnd_rd rfl _).trans ((hrun rfl _ _).trans hcause)
  · rw [State.lossEnd_dieAt]
    rfl

/-- A reset that waited for the end of a release leaves a lost die. -/
theorem State.nextReset_isLost {cause : Nat} (h : s.isLost n cause) : s.nextReset.isLost n cause := by
  obtain ⟨hst, hlost, hcause, hrel⟩ := h
  unfold State.nextReset
  split
  · exact ⟨hst, hlost, hcause, hrel⟩
  · split
    next => exact ⟨hst, hlost, hcause, hrel⟩
    next m r hq =>
      dsimp only
      split
      next hup =>
        have hm : m ≠ n := by
          rintro rfl
          have h3 : s.rd .HUB_DIE_STATE_STATE [m] = 3 := by
            simp only [State.dpUp, State.up, Bool.and_eq_true, decide_eq_true_eq] at hup
            exact hup.1
          rw [hst] at h3
          exact absurd h3 (by decide)
        obtain ⟨hst', hcause', hdie⟩ := State.plannedReset_other (s := { s with rstq := r }) hm
        exact ⟨hst'.trans hst, (State.plannedReset_rd _ _ rfl).trans hlost, hcause'.trans hcause,
          (congrArg DieRt.rel hdie).trans hrel⟩
      next =>
        refine ⟨?_, ?_, ?_, hrel⟩
        · exact (State.rd_wr_fld _ _ _ _ _ _ (by decide)).trans hst
        · exact (State.rd_wr_fld _ _ _ _ _ _ (by decide)).trans hlost
        · exact (State.rd_wr_fld _ _ _ _ _ _ (by decide)).trans hcause

/-! ## A lost clock (R422) -/

/-- A lost clock of die `n` is noted. -/
noncomputable def State.clockNoted (s : State) (n : Nat) : State :=
  ((s.setDie n 4).wr .RST_DIE_STAT_CAUSE [n] 3).wr .HUB_DIE_STATE_LOST [n] 1

/-- The cache of a die without its clock: flushed, given up, or given until its time. -/
noncomputable def State.cacheAfterClock (s : State) (n : Nat) (flushed : Bool) : State :=
  if flushed then s.rcFlushAll n
  else if s.rd .RC_CTL_LOSS_TO [n] = 0 then s.rcLost n
  else { s with rcLossT := smPut s.rcLossT [n] (s.now + s.rd .RC_CTL_LOSS_TO [n] * 100000) 0 }

theorem State.cacheAfterClock_rd {f : Fld} (hf : hasFld opFieldsLeave f = false) (flushed : Bool) (i : List Nat) :
    (s.cacheAfterClock n flushed).rd f i = s.rd f i := by
  have hR : Keeps opPartsLeaveRest opFieldsLeave (fun u => u.rd f i = s.rd f i) := Keeps.rd hf i (s.rd f i)
  unfold State.cacheAfterClock
  split
  · exact State.rcFlushAll_keeps hR.sub _ _ rfl
  · split
    · exact State.rcLost_keeps hR.sub _ _ rfl
    · exact State.rd_with_rcLossT _ _ _ _

/-- The stack of a die without its clock sleeps. -/
noncomputable def State.stackAfterClock (s : State) (n : Nat) : State :=
  match dieStack n with
  | some st => (((s.sweepSleep st).srCause st 2).srEntered st).homeGone st
  | none => s

theorem State.stackAfterClock_keeps (hR : Keeps opPartsLeaveRest opFieldsLeave R) (hs : R s) : R (s.stackAfterClock n) := by
  unfold State.stackAfterClock
  split
  · exact State.homeGone_keeps hR.sub _ _ (State.srEntered_keeps hR.sub _ _ (State.srCause_keeps hR.sub _ _ _
      (State.sweepSleep_keeps hR.sub _ _ hs)))
  · exact hs

theorem exec_dieClockLost {n : Fin 8} {flushed : Bool} (h : s.up n = true) : exec (.dieClockLost n flushed) s =
    .next (((((s.clockNoted n).raise .HUB_DIE_STATE [n] 422 3 [n.val]).leaves n).cacheAfterClock n flushed).stackAfterClock n) := by
  refine (if_pos h).trans ?_
  unfold State.stackAfterClock
  generalize dieStack n.val = stack
  cases stack with
  | none => rfl
  | some st => rfl

theorem State.clockLost_rd {f : Fld} (hf : hasFld opFieldsLeave f = false) (flushed : Bool) (i : List Nat) :
    (((((s.clockNoted n).raise .HUB_DIE_STATE [n] 422 3 [n]).leaves n).cacheAfterClock n flushed).stackAfterClock n).rd f i =
      (s.clockNoted n).rd f i := by
  refine (State.stackAfterClock_keeps (Keeps.rd hf i _) rfl).trans ((State.cacheAfterClock_rd hf flushed i).trans ?_)
  exact (State.leaves_keeps (Keeps.rd hf i _) rfl).trans (State.raise_rd _ _ _ _ _ _ rfl)

theorem State.clockNoted_fields : (s.clockNoted n).rd .HUB_DIE_STATE_STATE [n] = 4 ∧ (s.clockNoted n).rd .RST_DIE_STAT_CAUSE [n] = 3 ∧
    (s.clockNoted n).rd .HUB_DIE_STATE_LOST [n] = 1 := by
  unfold State.clockNoted
  refine ⟨?_, ?_, ?_⟩ <;> simp (disch := decide) only [State.rd_wr_fld, State.rd_wr_same]
  · exact State.setDie_state (by decide)
  · rfl
  · rfl

/-- A cache neither flushed nor given up in time is given up when the clock comes back. -/
noncomputable def State.cacheGivenUp (s : State) (n : Nat) : State := if smGet s.rcLossT [n] 0 ≠ 0 then s.rcLost n else s

theorem State.cacheGivenUp_keeps (hR : Keeps opPartsLeaveRest opFieldsLeave R) (hs : R s) : R (s.cacheGivenUp n) := by
  unfold State.cacheGivenUp
  split
  · exact State.rcLost_keeps hR.sub _ _ hs
  · exact hs

theorem exec_dieClockRestored {n : Fin 8} (hst : s.rd .HUB_DIE_STATE_STATE [n] = 4) (hc : s.rd .RST_DIE_STAT_CAUSE [n] = 3)
    (hrel : (s.dieAt n).rel = 0) (hheld : s.on .RST_DIE_STAT_HELD [n] = false) : exec (.dieClockRestored n) s =
      .next ((((s.cacheGivenUp n).incr .RST_DIE_STAT_RESETS [n]).dieWipe n).dieRelease n) := if_pos ⟨hst, hc, hrel, hheld⟩

theorem State.clockRestored_spec (n : Fin 8) {u : State}
    (hu : u = (((s.cacheGivenUp n).incr .RST_DIE_STAT_RESETS [n]).dieWipe n)) :
    (u.dieRelease n).rd .RST_DIE_STAT_RESETS [n] = (s.rd .RST_DIE_STAT_RESETS [n] + 1) % 2 ^ Fld.RST_DIE_STAT_RESETS.spec.width ∧
    (if s.on .RST_DIE_CTL_HOLD [n] then (u.dieRelease n).rd .RST_DIE_STAT_HELD [n] = 1
      else ((u.dieRelease n).dieAt n).rel = 1 ∧ (u.dieRelease n).relq = s.relq ++ [n.val]) := by
  have hgiven : ∀ {f : Fld}, hasFld opFieldsLeave f = false → ∀ i, (s.cacheGivenUp n).rd f i = s.rd f i :=
    fun hf i => State.cacheGivenUp_keeps (Keeps.rd hf i _) rfl
  have hhold : u.rd .RST_DIE_CTL_HOLD [n] = s.rd .RST_DIE_CTL_HOLD [n] := by
    rw [hu]
    exact (State.dieWipe_rest rfl _).trans ((State.rd_wr_fld _ _ _ _ _ _ (by decide)).trans (hgiven rfl _))
  have hrelq : u.relq = s.relq := by
    rw [hu]
    refine Eq.trans (State.dieWipe_part (p := .relq) (by decide) (by decide)) ?_
    exact State.cacheGivenUp_keeps (Keeps.part (p := .relq) (by decide) (by decide) s) rfl
  have hrel := State.dieRelease_spec (s := u) (n := n.val)
  rw [State.on_of_rd hhold, hrelq] at hrel
  refine ⟨(State.dieRelease_rd _ _ rfl).trans ?_, hrel⟩
  rw [hu]
  refine (State.dieWipe_rest rfl _).trans ((State.rd_wr_same _ _ _ _).trans ?_)
  rw [hgiven rfl]

end

theorem exec_dieLost {s : State} {n : Fin 8} {c : Fin 4} {b : Bool}
    (h : s.rd .HUB_DIE_STATE_STATE [n] = 2 ∨ s.rd .HUB_DIE_STATE_STATE [n] = 3) :
    exec (.dieLost n c b) s = .next ((s.dieLost n (4 + c) (b && c.val != 1)).nextReset) := if_pos h

theorem exec_dieLost_out {s : State} {n : Fin 8} {c : Fin 4} {b : Bool} (h2 : s.rd .HUB_DIE_STATE_STATE [n] ≠ 2)
    (h3 : s.rd .HUB_DIE_STATE_STATE [n] ≠ 3) : exec (.dieLost n c b) s = .next s := if_neg (not_or.mpr ⟨h2, h3⟩)

theorem exec_dieAutoRestart {s : State} {n : Fin 8} {b : Bool} (hst : s.rd .HUB_DIE_STATE_STATE [n] = 5)
    (hlost : s.on .HUB_DIE_STATE_LOST [n] = true) (hauto : s.on .RST_DIE_CTL_AUTO_RESTART [n] = true)
    (hhold : s.on .RST_DIE_CTL_HOLD [n] = false) (hrel : (s.dieAt n).rel = 0) (hhot : s.tooHot n = false) :
    exec (.dieAutoRestart n b) s = .next ((s.lapseTo ((s.dieAt n).lostT + 1000000000)).dieRestart n b) :=
  if_pos ⟨hst, hlost, hauto, hhold, hrel, hhot⟩

theorem exec_dieAutoRestart_held {s : State} {n : Fin 8} {b : Bool} (hhold : s.on .RST_DIE_CTL_HOLD [n] = true) :
    exec (.dieAutoRestart n b) s = .next s := by
  refine if_neg fun h => ?_
  obtain ⟨-, -, -, hfalse, -⟩ := h
  rw [hhold] at hfalse
  exact absurd hfalse (by decide)

/-- A restart 1 s after the loss, at the instant `due` at the earliest. -/
theorem State.autoRestart_spec {s : State} (n : Fin 8) (due : Nat) (hheld : s.on .RST_DIE_STAT_HELD [n] = false) {t : State}
    (ht : t = (s.lapseTo due).dieRestart n true) :
    (t.dieAt n).rel = 1 ∧ t.relq = s.relq ++ [n.val] ∧ t.now = max s.now due ∧ (t.dieAt n).restartT = some t.now := by
  have hheld' : (s.lapseTo due).on .RST_DIE_STAT_HELD [n] = false := hheld
  obtain ⟨hdie, hrelq, hnow, -⟩ := State.dieRestart_spec (s := s.lapseTo due) (n := n.val)
  rw [State.restartNoted_lost hheld', State.setDieRt_dieAt, if_pos rfl] at hdie
  rw [← ht] at hdie hrelq hnow
  refine ⟨congrArg DieRt.rel hdie, hrelq, hnow.trans (State.lapseTo_now _ _), ?_⟩
  rw [hnow]
  exact congrArg DieRt.restartT hdie

/-- Settles O51, by what takes the die out of service or brings it back. -/
theorem diesLeaveAndReturnUnderTheirRules : Obligations.DiesLeaveAndReturnUnderTheirRules := by
  unfold Obligations.DiesLeaveAndReturnUnderTheirRules
  refine ⟨?refused, ?waits, ?planned, ?startLost, ?startHeld, ?startRefused, ?lost, ?notLost, ?clockLost, ?clockBack, ?auto, ?hold⟩
  case refused =>
    intro w n s h hc
    obtain ⟨word, ht⟩ := exec_plannedDieReset (n := n) h
    rw [if_pos hc] at ht
    exact ⟨_, ht, State.refusedDie_spec w word⟩
  case waits =>
    intro w n s h hup hbusy hrel
    obtain ⟨word, ht⟩ := exec_plannedDieReset (n := n) h
    rw [if_neg (by rw [hup, hbusy]; simp), if_pos hrel] at ht
    exact ⟨_, ht, rfl, fun _ _ _ => rfl⟩
  case planned =>
    intro w n s h hup hbusy hrel
    obtain ⟨word, ht⟩ := exec_plannedDieReset (n := n) h
    rw [if_neg (by rw [hup, hbusy]; simp), if_neg (by rw [hrel]; simp)] at ht
    have hempty : s.relq = [] := by
      simp only [State.releasing, Bool.or_eq_false_iff, Bool.not_eq_false', List.isEmpty_iff] at hrel
      exact hrel.1
    have hspec := State.plannedReset_spec (s := s) n
    rw [hempty, List.nil_append] at hspec
    exact ⟨_, ht, hspec⟩
  case startLost =>
    intro w n s h hst hheld hrel hhot
    obtain ⟨word, ht⟩ := exec_dieStart (n := n) (rail := true) h
    rw [if_pos ⟨Or.inl hst, hrel, hhot⟩] at ht
    obtain ⟨hdie, hrelq, -, hrd⟩ := State.dieRestart_spec (s := s) (n := n.val)
    refine ⟨_, ht, congrArg DieRt.rel hdie, hrelq, (hrd _ _ rfl).trans ?_⟩
    rw [State.restartNoted_lost hheld, State.setDieRt_rd _ _ _ rfl]
    exact State.rd_wr_same _ _ _ _
  case startHeld =>
    intro w n s h hheld hrel hhot
    obtain ⟨word, ht⟩ := exec_dieStart (n := n) (rail := true) h
    rw [if_pos ⟨Or.inr hheld, hrel, hhot⟩] at ht
    obtain ⟨hdie, hrelq, -, hrd⟩ := State.dieRestart_spec (s := s) (n := n.val)
    refine ⟨_, ht, congrArg DieRt.rel hdie, hrelq, (hrd _ _ rfl).trans ?_, (hrd _ _ rfl).trans ?_⟩ <;>
      rw [State.restartNoted_held hheld]
    · exact State.rd_wr_same _ _ _ _
    · exact State.rd_wr_fld _ _ _ _ _ _ (by decide)
  case startRefused =>
    intro w n b s h hup hheld
    obtain ⟨word, ht⟩ := exec_dieStart (n := n) (rail := b) h
    have h3 : s.rd .HUB_DIE_STATE_STATE [n] = 3 := of_decide_eq_true hup
    rw [if_neg (by rw [h3, hheld]; simp)] at ht
    exact ⟨_, ht, State.refusedDie_spec w word⟩
  case lost =>
    intro n c b s hst
    obtain ⟨h5, hlost, hcause, hrel⟩ := State.nextReset_isLost
      (State.dieLost_isLost (s := s) (n := n.val) (cause := 4 + c.val) (keep := b && c.val != 1) (by omega))
    exact ⟨_, exec_dieLost hst, h5, hlost, hcause, hrel⟩
  case notLost =>
    intro n c b s h2 h3
    exact ⟨_, exec_dieLost_out h2 h3, rfl⟩
  case clockLost =>
    intro n b s hup
    obtain ⟨hst, hcause, hlost⟩ := State.clockNoted_fields (s := s) (n := n.val)
    exact ⟨_, exec_dieClockLost hup, (State.clockLost_rd rfl b _).trans hst, (State.clockLost_rd rfl b _).trans hcause,
      (State.clockLost_rd rfl b _).trans hlost⟩
  case clockBack =>
    intro n s hst hc hrel hheld
    exact ⟨_, exec_dieClockRestored hst hc hrel hheld, State.clockRestored_spec n rfl⟩
  case auto =>
    intro n s hst hlost hauto hhold hrel hhot hheld
    exact ⟨_, exec_dieAutoRestart hst hlost hauto hhold hrel hhot, State.autoRestart_spec n _ hheld rfl⟩
  case hold =>
    intro n b s hhold
    exact ⟨_, exec_dieAutoRestart_held hhold, rfl⟩

/-! PROOFS. Boot stages and the release of dies (R28, R401 to R409, R413, R526, R533). -/

/-! ## The fuses of the dies (R10, R401, R408) -/

section
variable {s t : State} {n m : Nat}

theorem State.setDie_elsewhere {v : Nat} {f : Fld} (hm : m ≠ n) (hf : f ≠ .HELM_IC_PEND_BITS) : (s.setDie m v).rd f [n] = s.rd f [n] := by
  unfold State.setDie
  dsimp only
  split
  · rfl
  · rw [State.raise_rd _ _ _ _ _ _ rfl, State.irq_rd _ _ (by simp [hasFld, hf]),
      State.rd_wr_ne (l := []) (by simpa using fun _ => Ne.symm hm)]

/-- What the end of stage 1 does to one die. -/
noncomputable def State.fuseDie (fitted : Nat) (fuses : List (Fin 8 × BitVec 2)) (s : State) (n : Nat) : State :=
  let s := s.emit (.pin (20 + n) 2)
  if s.rd .RST_DIE_STAT_START_ERR [n] = 5 then s
  else if fitted.testBit n = false then s.wr .HUB_DIE_STATE_PRESENT [n] 0
  else if fusesGood n (fuses.getD n (0, 0)) then
    ((s.fusesRead n (fuses.getD n (0, 0))).wr .PWR_DIE_STAT_DOMAINS [n] 1).setDie n 1
  else ((s.wr .HUB_DIE_STATE_PRESENT [n] 0).wr .RST_DIE_STAT_START_ERR [n] 4).raise .HUB_DIE_STATE [n] 408 3 [n, 4]

theorem State.fuseStage_eq (fitted : Nat) (fuses : List (Fin 8 × BitVec 2)) :
    s.fuseStage fitted fuses = (List.range 8).foldl (State.fuseDie fitted fuses) s := rfl

theorem State.fuseDie_elsewhere (fitted : Nat) (fuses : List (Fin 8 × BitVec 2)) {f : Fld} (hm : m ≠ n) (hf : f ≠ .HELM_IC_PEND_BITS) :
    (s.fuseDie fitted fuses m).rd f [n] = s.rd f [n] := by
  have hne : ∀ g, (f, [n]) ∉ [(g, [m])] := fun g => by simpa using fun _ => Ne.symm hm
  unfold State.fuseDie State.fusesRead
  dsimp only
  split
  · exact State.emit_rd _ _ rfl
  · split
    · exact (State.rd_wr_ne (hne _)).trans (State.emit_rd _ _ rfl)
    · split
      · rw [State.setDie_elsewhere hm hf, State.rd_wr_ne (hne _), State.rd_wr_ne (hne _), State.rd_wr_ne (hne _),
          State.rd_wr_ne (hne _), State.emit_rd _ _ rfl]
      · rw [State.raise_rd _ _ _ _ _ _ rfl, State.rd_wr_ne (hne _), State.rd_wr_ne (hne _), State.emit_rd _ _ rfl]

theorem State.fuseDie_fitted {fitted : Nat} {fuses : List (Fin 8 × BitVec 2)} (he : s.rd .RST_DIE_STAT_START_ERR [n] ≠ 5)
    (hfit : fitted.testBit n = true) (hgood : fusesGood n (fuses.getD n (0, 0)) = true) : s.fuseDie fitted fuses n =
      (((s.emit (.pin (20 + n) 2)).fusesRead n (fuses.getD n (0, 0))).wr .PWR_DIE_STAT_DOMAINS [n] 1).setDie n 1 := by
  unfold State.fuseDie
  dsimp only
  rw [State.emit_rd _ _ rfl, if_neg he, if_neg (by simp [hfit]), if_pos hgood]

theorem State.fuseDie_bad {fitted : Nat} {fuses : List (Fin 8 × BitVec 2)} (he : s.rd .RST_DIE_STAT_START_ERR [n] ≠ 5)
    (hfit : fitted.testBit n = true) (hgood : fusesGood n (fuses.getD n (0, 0)) = false) : s.fuseDie fitted fuses n =
      (((s.emit (.pin (20 + n) 2)).wr .HUB_DIE_STATE_PRESENT [n] 0).wr .RST_DIE_STAT_START_ERR [n] 4).raise .HUB_DIE_STATE [n]
        408 3 [n, 4] := by
  unfold State.fuseDie
  dsimp only
  rw [State.emit_rd _ _ rfl, if_neg he, if_neg (by simp [hfit]), if_neg (by rw [hgood]; decide)]

theorem State.fuseDie_absent {fitted : Nat} {fuses : List (Fin 8 × BitVec 2)} (he : s.rd .RST_DIE_STAT_START_ERR [n] ≠ 5)
    (hfit : fitted.testBit n = false) : s.fuseDie fitted fuses n = (s.emit (.pin (20 + n) 2)).wr .HUB_DIE_STATE_PRESENT [n] 0 := by
  unfold State.fuseDie
  dsimp only
  rw [State.emit_rd _ _ rfl, if_neg he, if_pos hfit]

/-- The place in the package and the state that the hub notes of a die. -/
noncomputable def State.dieNote (s : State) (n : Nat) : List Nat :=
  [s.rd .HUB_DIE_STATE_PRESENT [n], s.rd .HUB_DIE_STATE_STATE [n], s.rd .HUB_DIE_STATE_POS [n], s.rd .HUB_DIE_STATE_KIND [n],
    s.rd .RST_DIE_STAT_START_ERR [n]]

theorem State.fuseDie_note {fitted : Nat} {fuses : List (Fin 8 × BitVec 2)} (hm : m ≠ n) :
    (s.fuseDie fitted fuses m).dieNote n = s.dieNote n := by
  unfold State.dieNote
  simp (disch := decide) only [State.fuseDie_elsewhere fitted fuses hm]

theorem State.fusesRead_note (fuse : Fin 8 × BitVec 2) : ((s.fusesRead n fuse).wr .PWR_DIE_STAT_DOMAINS [n] 1).dieNote n =
    [1, s.rd .HUB_DIE_STATE_STATE [n], fuse.1.val, fuse.2.toNat, s.rd .RST_DIE_STAT_START_ERR [n]] := by
  have hpos : (Fld.spec .HUB_DIE_STATE_POS).width = 4 := rfl
  have hkind : (Fld.spec .HUB_DIE_STATE_KIND).width = 2 := rfl
  have hpres : (Fld.spec .HUB_DIE_STATE_PRESENT).width = 1 := rfl
  have hlt := fuse.1.isLt
  unfold State.dieNote State.fusesRead
  simp (disch := decide) only [State.rd_wr_fld, State.rd_wr_same]
  rw [hpos, hkind, hpres, Nat.mod_eq_of_lt (show fuse.1.val < 2 ^ 4 by omega), Nat.mod_eq_of_lt fuse.2.isLt]
  rfl

theorem State.setDie_note {v : Nat} (hv : v < 8) : (s.setDie n v).dieNote n =
    [s.rd .HUB_DIE_STATE_PRESENT [n], v, s.rd .HUB_DIE_STATE_POS [n], s.rd .HUB_DIE_STATE_KIND [n], s.rd .RST_DIE_STAT_START_ERR [n]] := by
  unfold State.dieNote
  rw [State.setDie_state hv, State.setDie_rd _ _ _ rfl, State.setDie_rd _ _ _ rfl, State.setDie_rd _ _ _ rfl,
    State.setDie_rd _ _ _ rfl]

/-- What holds of a die after its own fuses have been judged holds at the end of stage 1. -/
theorem State.fuseStage_reaches {fitted : Nat} {fuses : List (Fin 8 × BitVec 2)} {Q : State → Prop} (hn : n < 8)
    (hQ : ∀ t, Q t → t.rd .RST_DIE_STAT_START_ERR [n] ≠ 5) (hnote : ∀ t u : State, u.dieNote n = t.dieNote n → Q t → Q u)
    (hat : ∀ t : State, t.rd .RST_DIE_STAT_START_ERR [n] ≠ 5 → Q (t.fuseDie fitted fuses n))
    (hs : s.rd .RST_DIE_STAT_START_ERR [n] ≠ 5) : Q (s.fuseStage fitted fuses) := by
  rw [State.fuseStage_eq]
  refine foldl_reaches (P := fun u => u.rd .RST_DIE_STAT_START_ERR [n] ≠ 5) (a := n) (fun u m hu hm => ?_) hat (fun u m hu => ?_)
    (List.mem_range.mpr hn) hs
  · rw [State.fuseDie_elsewhere fitted fuses hm (by decide)]
    exact hu
  · by_cases hm : m = n
    · subst hm
      exact hat u (hQ u hu)
    · exact hnote u _ (State.fuseDie_note hm) hu

theorem State.fuseStage_now (fitted : Nat) (fuses : List (Fin 8 × BitVec 2)) : (s.fuseStage fitted fuses).now = s.now :=
  State.fuseStage_keeps (Keeps.part (p := .now) rfl (by decide) s) s fitted fuses rfl

/-! ## The end of a stage -/

variable {a : BitVec 8} {b : List (Fin 8 × BitVec 2)} {x y z o : Bool} {bs : BearingSet}

theorem exec_bootStage0 (hh : s.hold = 0) (hst : s.rd .BOOT_STAT_STAGE [] = 0) :
    exec (.bootStageComplete a b x y z o bs) s = .next ((s.wr .LS_STAT_TRNG_OK [] 1).wr .BOOT_STAT_STAGE [] 1) := by
  change execBootStageComplete a b x y z o bs s = _
  unfold execBootStageComplete
  rw [if_neg (by simp [hh]), hst]
  rfl

theorem exec_bootStage1 (hh : s.hold = 0) (hst : s.rd .BOOT_STAT_STAGE [] = 1) :
    exec (.bootStageComplete a b x y z o bs) s = .next (s.fuseStage a.toNat b).stage2 := by
  change execBootStageComplete a b x y z o bs s = _
  unfold execBootStageComplete
  rw [if_neg (by simp [hh]), hst]
  rfl

theorem exec_bootStage2 (hh : s.hold = 0) (hst : s.rd .BOOT_STAT_STAGE [] = 2) :
    exec (.bootStageComplete a b x y z o bs) s = .next ((s.flashReads o).firmware x y) := by
  change execBootStageComplete a b x y z o bs s = _
  unfold execBootStageComplete
  rw [if_neg (by simp [hh]), hst]
  rfl

theorem exec_bootStage3 (hh : s.hold = 0) (hst : s.rd .BOOT_STAT_STAGE [] = 3) : exec (.bootStageComplete a b x y z o bs) s =
    .next ((((s.clocksStart z).wr .PWR_HUB_STAT_DOMAINS [] 0x3F).lifeLoad 8).wr .BOOT_STAT_STAGE [] 4) := by
  change execBootStageComplete a b x y z o bs s = _
  unfold execBootStageComplete
  rw [if_neg (by simp [hh]), hst]
  rfl

theorem exec_bootStage4 (hh : s.hold = 0) (hst : s.rd .BOOT_STAT_STAGE [] = 4) :
    exec (.bootStageComplete a b x y z o bs) s = .next (s.servicesUp.wr .BOOT_STAT_STAGE [] 5) := by
  change execBootStageComplete a b x y z o bs s = _
  unfold execBootStageComplete
  rw [if_neg (by simp [hh]), hst]
  rfl

theorem exec_bootStage5 (hh : s.hold = 0) (hst : s.rd .BOOT_STAT_STAGE [] = 5) (hover : s.stage5Over = true) :
    exec (.bootStageComplete a b x y z o bs) s =
      .next { (if s.warm then (s.meshOn 8).putBearings bs else s).wr .BOOT_STAT_STAGE [] 6 with warm := false } := by
  change execBootStageComplete a b x y z o bs s = _
  unfold execBootStageComplete
  rw [if_neg (by simp [hh]), hst]
  exact if_pos hover

theorem exec_bootStage_held (hh : s.hold ≠ 0) : exec (.bootStageComplete a b x y z o bs) s = .next s := if_pos hh

theorem State.stage2_stage : s.stage2.rd .BOOT_STAT_STAGE [] = 2 := by
  refine (State.emit_rd _ _ rfl).trans (Eq.trans (?_ : _ = (s.wr .BOOT_STAT_STAGE [] 2).rd .BOOT_STAT_STAGE []) ?_)
  · rfl
  · exact State.rd_wr_same _ _ _ _

theorem State.stage2_time : s.stage2.stage2T = s.now := by
  unfold State.stage2
  generalize hv : ({ s.wr .BOOT_STAT_STAGE [] 2 with stage2T := s.now, flashMode := 0 } : State) = v
  rw [State.emit_keeps (Keeps.part (p := .stage2T) rfl (by decide) v) v (.pin 31 0) rfl, ← hv]

theorem State.stage2_note : s.stage2.dieNote n = s.dieNote n := by
  unfold State.dieNote
  rw [State.stage2_rd _ rfl, State.stage2_rd _ rfl, State.stage2_rd _ rfl, State.stage2_rd _ rfl, State.stage2_rd _ rfl]

/-! ## The firmware (R405, R406, R533) -/

theorem State.flashReads_flash (o : Bool) : (s.flashReads o).flash = s.flash :=
  State.flashReads_keeps (Keeps.part (p := .flash) rfl (by decide) s) s o rfl

theorem State.dirCopy_of (h : t.flash = s.flash) (c : Nat) : t.dirCopy c = s.dirCopy c := by
  unfold State.dirCopy
  rw [h]

theorem State.dirPick_of (h : t.flash = s.flash) : t.dirPick = s.dirPick := by
  unfold State.dirPick
  rw [State.dirCopy_of h, State.dirCopy_of h]

theorem State.dirPick_lt {c : Nat} (h : s.dirPick = some c) : c < 2 := by
  unfold State.dirPick at h
  dsimp only at h
  split at h
  · split at h <;> obtain rfl := Option.some.inj h <;> decide
  · split at h
    · obtain rfl := Option.some.inj h
      decide
    · cases h

/-- The flash is read from the instant `u` on. -/
noncomputable def State.flashReadAt (s : State) (u : Nat) (octal : Bool) : State :=
  { (s.lapseTo u).emit (.pin 31 1) with flashMode := if octal then 2 else 1 }

theorem State.flashReadAt_now (u : Nat) (o : Bool) : (s.flashReadAt u o).now = max s.now u :=
  (State.emit_keeps (Keeps.part (p := .now) rfl (by decide) (s.lapseTo u)) (s.lapseTo u) (.pin 31 1) rfl).trans
    (State.lapseTo_now s u)

theorem State.flashReads_warm (o : Bool) : (s.flashReads o).warm = s.warm :=
  State.flashReads_keeps (R := fun u => u.warm = s.warm) (Keeps.part (p := .warm) (by decide) (by decide) s) s o rfl

theorem State.flashReads_pcie (o : Bool) : (s.flashReads o).pcie = s.pcie :=
  State.flashReads_keeps (R := fun u => u.pcie = s.pcie) (Keeps.part (p := .pcie) (by decide) (by decide) s) s o rfl

theorem State.flashReads_field (o : Bool) (f : Fld) (i : List Nat) : (s.flashReads o).rd f i = s.rd f i :=
  State.flashReads_rd s o (by rfl)

theorem State.flashReads_eq (o : Bool) : s.flashReads o = s.flashReadAt (s.stage2T + 10000) o := rfl

theorem State.flashReads_now (o : Bool) : (s.flashReads o).now = max s.now (s.stage2T + 10000) := by
  rw [State.flashReads_eq, State.flashReadAt_now]

/-- The firmware chosen by the directory copy `pick`, if there is one. -/
noncomputable def State.firmwareOf (s : State) (pick : Option Nat) (x y : Bool) : State :=
  match pick with
  | none => s.recover
  | some c => s.firmwareBy c (s.dirCopy c) x y

theorem State.firmware_eq (x y : Bool) : s.firmware x y = s.firmwareOf s.dirPick x y := rfl

/-- The firmware of slot A is chosen at a cold start, if it is good. -/
theorem State.firmwareBy_slotA {c d : Nat} {x y : Bool} (hwarm : s.warm = false) (hnext : s.rd .BOOT_CFG_NEXT_SLOT [] = 0)
    (hpref : dirPREFER d ≠ 1) : s.firmwareBy c d x y =
      if ((s.slotCold c).slotEither d 0 x y).1.2 then
        ((s.slotCold c).slotEither d 0 x y).2.slotBoot d 0 ((s.slotCold c).slotEither d 0 x y).1.1
      else ((s.slotCold c).slotEither d 0 x y).2.recover := by
  unfold State.firmwareBy
  rw [hwarm, if_neg (by decide)]
  dsimp only
  rw [hnext, if_neg (show ¬(0 : Nat) = 1 by decide), if_neg (show ¬(0 : Nat) = 2 by decide), if_neg hpref]

/-- Without a valid directory the device goes to recovery (R406). -/
theorem State.firmware_none (h : s.dirPick = none) (x y : Bool) : s.firmware x y = s.recover := by
  rw [State.firmware_eq, h]
  rfl

theorem State.recover_spec (o : Bool) : (s.flashReads o).recover.rd .BOOT_STAT_STAGE [] = 15 ∧
    smGet (s.flashReads o).recover.pcie [0] 0 = 2 ∧ (s.flashReads o).recover.flashMode = (if o then 2 else 1) ∧
    (s.flashReads o).recover.now = max s.now (s.stage2T + 10000) ∧
    SameFields s (s.flashReads o).recover [(.BOOT_STAT_STAGE, [])] := by
  have hrd : ∀ f i, (s.flashReads o).recover.rd f i = ((s.flashReads o).wr .BOOT_STAT_STAGE [] 15).rd f i := fun _ _ => rfl
  refine ⟨?_, smGet_smPut_same (s.flashReads o).pcie [0] 2 0, rfl, State.flashReads_now o, ?_⟩
  · rw [hrd, State.rd_wr_same]
    rfl
  · exact (((SameFields.refl s _).of_rd fun _ _ => State.flashReads_rd s o rfl).wr (by simp) 15).of_rd hrd

/-- The verdict on a firmware image depends on the flash, the keys and the fused versions. -/
theorem State.fwCheck_of (hflash : t.flash = s.flash)
    (hrd : ∀ f i, f ∈ [Fld.LS_STAT_LIFECYCLE, .LS_STAT_VKEYS, .LS_STAT_OWNER_KEYS, .LS_ARB_VALUE] → t.rd f i = s.rd f i)
    (off len : Nat) (sig : Bool) : t.fwCheck off len sig = s.fwCheck off len sig := by
  unfold State.fwCheck State.keyCheck
  rw [hflash, hrd .LS_STAT_LIFECYCLE [] (by simp), hrd .LS_STAT_VKEYS [] (by simp), hrd .LS_STAT_OWNER_KEYS [] (by simp),
    hrd .LS_ARB_VALUE [0] (by simp)]

theorem State.fwCheck_length {off len : Nat} {sig : Bool} (h : s.fwCheck off len sig = 0) : 256 ≤ len := by
  unfold State.fwCheck at h
  dsimp only at h
  split at h
  · cases h
  next hok =>
    simp only [not_or, not_not] at hok
    omega

theorem memBytes_take (m : List (Nat × Byte)) (a : Nat) {n k : Nat} (h : k ≤ n) (d : Byte) :
    (memBytes m a n d).take k = memBytes m a k d := by
  unfold memBytes
  rw [← List.map_take, List.take_range, Nat.min_eq_left h]

/-- A slot that is not empty and passes its checks is good. -/
theorem State.slotTry_good {d k : Nat} {sig : Bool} (hlen : (dirFw d k).2 ≠ 0) (h : s.fwCheck (dirFw d k).1 (dirFw d k).2 sig = 0) :
    s.slotTry d k sig = (true, s) := by
  unfold State.slotTry
  dsimp only
  rw [if_neg hlen, if_pos h]

/-- The wanted slot A boots at a cold start (R405). -/
theorem State.firmware_slotA {c : Nat} {x y : Bool} (hwarm : s.warm = false) (hnext : s.rd .BOOT_CFG_NEXT_SLOT [] = 0)
    (hpick : s.dirPick = some c) (hpref : dirPREFER (s.dirCopy c) ≠ 1) (hlen : (dirFw (s.dirCopy c) 0).2 ≠ 0)
    (hfw : s.fwCheck (dirFw (s.dirCopy c) 0).1 (dirFw (s.dirCopy c) 0).2 x = 0) :
    s.firmware x y = (s.slotCold c).slotBoot (s.dirCopy c) 0 0 := by
  have hcold : (s.slotCold c).fwCheck (dirFw (s.dirCopy c) 0).1 (dirFw (s.dirCopy c) 0).2 x = 0 := by
    refine (State.fwCheck_of (s := s) (t := s.slotCold c) rfl (fun f i hf => ?_) _ _ _).trans hfw
    have hne : f ≠ .BOOT_STAT_DIR_COPY ∧ f ≠ .BOOT_CFG_NEXT_SLOT ∧ f ≠ .BOOT_CFG_NO_AUTOLOAD := by
      revert hf
      revert f
      decide +kernel
    obtain ⟨h1, h2, h3⟩ := hne
    refine (State.rd_wr_fld _ _ _ _ _ _ h3.symm).trans ((State.rd_wr_fld _ _ _ _ _ _ h2.symm).trans ?_)
    exact State.rd_wr_fld s .BOOT_STAT_DIR_COPY f [] i c h1.symm
  have heither : (s.slotCold c).slotEither (s.dirCopy c) 0 x y = ((0, true), s.slotCold c) := by
    unfold State.slotEither
    rw [show sigOf x y 0 = x from rfl, State.slotTry_good hlen hcold]
    rfl
  rw [State.firmware_eq, hpick]
  refine (State.firmwareBy_slotA hwarm hnext hpref).trans ?_
  rw [heither]
  rfl

theorem State.slotBoot_pcie {c d : Nat} : ((s.slotCold c).slotBoot d 0 0).pcie = s.pcie :=
  State.slotBoot_keeps (R := fun u => u.pcie = s.pcie) (Keeps.part (p := .pcie) (by decide) (by decide) s) _ d 0 0
    (State.slotCold_keeps (R := fun u => u.pcie = s.pcie) (Keeps.part (p := .pcie) (by decide) (by decide) s) s c rfl)

theorem State.slotBoot_fields {c d : Nat} (hc : c < 2) (hlen : 256 ≤ (dirFw d 0).2) :
    ((s.slotCold c).slotBoot d 0 0).rd .BOOT_STAT_STAGE [] = 3 ∧ ((s.slotCold c).slotBoot d 0 0).rd .BOOT_STAT_SLOT [] = 0 ∧
    ((s.slotCold c).slotBoot d 0 0).rd .BOOT_STAT_FALLBACK [] = 0 ∧ ((s.slotCold c).slotBoot d 0 0).rd .BOOT_STAT_DIR_COPY [] = c ∧
    ((s.slotCold c).slotBoot d 0 0).rd .LS_STAT_READY [] = 1 ∧
    ((s.slotCold c).slotBoot d 0 0).rd .LS_SVN_SVN [0] = hSVN (leNat (memBytes s.flash (dirFw d 0).1 256 0xFF)) := by
  have hsvn : (Fld.spec .LS_SVN_SVN).width = 32 := rfl
  have hcopy : (Fld.spec .BOOT_STAT_DIR_COPY).width = 1 := rfl
  have hflash : (s.slotCold c).flash = s.flash := rfl
  have hhdr := memBytes_take s.flash (dirFw d 0).1 hlen 0xFF
  generalize hv : s.slotCold c = v at hflash
  have hdir : v.rd .BOOT_STAT_DIR_COPY [] = c := by
    rw [← hv]
    unfold State.slotCold
    simp (disch := decide) only [State.rd_wr_fld, State.rd_wr_same]
    rw [hcopy]
    exact Nat.mod_eq_of_lt hc
  generalize hfm : ({ v with fwMeas := (Config.sha384 (memBytes v.flash (dirFw d 0).1 (dirFw d 0).2 0xFF)).toNat } : State) = w
  have hwd : w.rd .BOOT_STAT_DIR_COPY [] = c := by rw [← hfm]; exact hdir
  generalize hx : hSVN (leNat (memBytes s.flash (dirFw d 0).1 256 0xFF)) = svn
  have hxlt : svn < 2 ^ 32 := by rw [← hx]; exact bitsOf_lt _ _ _
  generalize hu : (((w.wr .LS_SVN_SVN [0] svn).wr .LS_STAT_READY [] 1).wr .BOOT_STAT_SLOT [] 0) = u
  have htake : v.slotTake d 0 = u := by
    rw [← hu, ← hx, ← hhdr, ← hflash, ← hfm]
    rfl
  have hboot : ∀ f i, (v.slotBoot d 0 0).rd f i = ((u.wr .BOOT_STAT_FALLBACK [] 0).wr .BOOT_STAT_STAGE [] 3).rd f i := by
    intro f i
    rw [← htake]
    rfl
  refine ⟨?_, ?_, ?_, ?_, ?_, ?_⟩ <;> rw [hboot, ← hu] <;> simp (disch := decide) only [State.rd_wr_fld, State.rd_wr_same]
  · rfl
  · rfl
  · rfl
  · exact hwd
  · rfl
  · rw [hsvn]
    exact Nat.mod_eq_of_lt hxlt

end

/-! ## Clocks and services (R401, R403) -/

section
variable {s : State} {n : Nat}

theorem State.clocksStart_off (h : s.clocksUp = false) (z : Bool) : s.clocksStart z =
    (let s := { s with clocksUp := true, local_ := 0, anchorE := s.now, anchorT := 0 }
     let s := (List.range 8).foldl (fun s k => s.setSynth 8 k { freq := s.rd .SPN_SYN_FREQ [k], tgt := s.rd .SPN_SYN_FREQ [k] }) s
     if z then (s.wr .CLK_SRC_ACTIVE [] (s.rd .CLK_SRC_SEL [])).wr .CLK_MON_REF_OK [] 1 else s.deadReckon) := by
  unfold State.clocksStart
  rw [h, if_neg (by decide)]

/-- The spines' synthesizers run at their set frequencies. -/
noncomputable def State.spinesSet (s : State) : State :=
  (List.range 8).foldl (fun s k => s.setSynth 8 k { freq := s.rd .SPN_SYN_FREQ [k], tgt := s.rd .SPN_SYN_FREQ [k] }) s

theorem State.spinesSet_keeps {R : State → Prop} (hR : Keeps [.out, .stewards, .synth] ⟨[], [], [], false⟩ R) (hs : R s) : R s.spinesSet := by
  unfold State.spinesSet
  exact rel_foldl (fun u k hu => State.setSynth_keeps hR u 8 k _ hu) _ hs

theorem State.spinesSet_rd (f : Fld) (i : List Nat) : s.spinesSet.rd f i = s.rd f i :=
  State.spinesSet_keeps (R := fun u => u.rd f i = s.rd f i) (Keeps.rd (by rfl) i (s.rd f i)) rfl

theorem State.spinesSet_clocksUp : s.spinesSet.clocksUp = s.clocksUp :=
  State.spinesSet_keeps (R := fun t => t.clocksUp = s.clocksUp) (Keeps.part (p := .clocksUp) (by decide) (by decide) s) rfl

theorem State.spinesSet_local : s.spinesSet.local_ = s.local_ :=
  State.spinesSet_keeps (R := fun t => t.local_ = s.local_) (Keeps.part (p := .local_) (by decide) (by decide) s) rfl

/-- The registers of `u` and its synthesizer `k` of the hub are those that `s` sets. -/
def State.spineIs (s u : State) (k : Nat) : Prop :=
  (∀ f i, u.rd f i = s.rd f i) ∧ (u.synthAt 8 k).freq = s.rd .SPN_SYN_FREQ [k]

theorem State.spinesSet_synth (k : Fin 8) : (s.spinesSet.synthAt 8 k).freq = s.rd .SPN_SYN_FREQ [k] := by
  have hrd : ∀ (u : State) (m : Nat) (x : Synth), (∀ f i, u.rd f i = s.rd f i) → ∀ f i, (u.setSynth 8 m x).rd f i = s.rd f i :=
    fun u m x hu f i => (State.setSynth_rd _ _ _ _ rfl).trans (hu f i)
  have hspine : s.spineIs s.spinesSet k := by
    unfold State.spinesSet
    refine foldl_reaches (P := fun u => ∀ f i, u.rd f i = s.rd f i) (Q := fun u => s.spineIs u k) (a := k.val)
      (fun u m hu _ => hrd u m _ hu) (fun u hu => ⟨hrd u _ _ hu, ?_⟩) (fun u m hu => ⟨hrd u m _ hu.1, ?_⟩)
      (List.mem_range.mpr k.isLt) (fun _ _ => rfl)
    · rw [State.setSynth_synthAt, if_pos ⟨rfl, rfl⟩]
      exact hu _ _
    · rw [State.setSynth_synthAt]
      split
      next hm =>
        obtain ⟨-, rfl⟩ := hm
        exact hu.1 _ _
      next => exact hu.2
  exact hspine.2

/-- The clocks' part of the end of stage 3. -/
noncomputable def State.clocksOn (s : State) : State := ({ s with clocksUp := true, local_ := 0, anchorE := s.now, anchorT := 0 } : State).spinesSet

/-- The source of the spines is taken, or its failure (R375). -/
noncomputable def State.sourceTaken (s : State) (z : Bool) : State :=
  if z then (s.wr .CLK_SRC_ACTIVE [] (s.rd .CLK_SRC_SEL [])).wr .CLK_MON_REF_OK [] 1 else s.deadReckon

theorem State.clocksStart_eq (h : s.clocksUp = false) (z : Bool) : s.clocksStart z = s.clocksOn.sourceTaken z := State.clocksStart_off h z

theorem State.clocksOn_spec : s.clocksOn.clocksUp = true ∧ s.clocksOn.local_ = 0 ∧
    (∀ k : Fin 8, (s.clocksOn.synthAt 8 k).freq = s.rd .SPN_SYN_FREQ [k]) ∧ ∀ f i, s.clocksOn.rd f i = s.rd f i := by
  refine ⟨?_, ?_, fun k => State.spinesSet_synth k, fun f i => State.spinesSet_rd f i⟩
  · unfold State.clocksOn
    rw [State.spinesSet_clocksUp]
  · unfold State.clocksOn
    rw [State.spinesSet_local]

theorem State.sourceTaken_part {z : Bool} {p : Part} (hp : [Part.regs, .stewards, .helm].contains p = false) (hr : p ≠ .regs) :
    p.same s (s.sourceTaken z) := by
  unfold State.sourceTaken
  have hk : Keeps [.regs, .stewards, .helm] .all (fun t => p.same s t) := Keeps.part hp hr s
  split
  · exact hk.wr _ _ _ rfl rfl (hk.wr _ _ _ rfl rfl (p.same_refl s))
  · exact State.deadReckon_keeps (Keeps.part hp hr s) s (Part.same_refl _ _)

theorem State.sourceTaken_deadReck (z : Bool) :
    (s.sourceTaken z).rd .CLK_SRC_DEAD_RECK [] = if z then s.rd .CLK_SRC_DEAD_RECK [] else 1 := by
  unfold State.sourceTaken
  split
  · simp (disch := decide) only [State.rd_wr_fld]
  · unfold State.deadReckon
    dsimp only
    rw [State.raise_rd _ _ _ _ _ _ rfl, State.rd_foldl_keep]
    · simp (disch := decide) only [State.rd_wr_fld, State.rd_wr_same]
      rfl
    · intro u c
      split
      · rfl
      · exact State.setHelm_rd _ _ _ rfl

theorem State.synthAt_eq (d k : Nat) : s.synthAt d k = smGet s.synth [d, k] {} := rfl

theorem State.stage3_spec (h : s.clocksUp = false) (z : Bool) {t : State}
    (ht : t = ((((s.clocksStart z).wr .PWR_HUB_STAT_DOMAINS [] 0x3F).lifeLoad 8).wr .BOOT_STAT_STAGE [] 4)) :
    t.rd .BOOT_STAT_STAGE [] = 4 ∧ t.clocksUp = true ∧ t.local_ = 0 ∧ t.rd .PWR_HUB_STAT_DOMAINS [] = 0x3F ∧
      (∀ k : Fin 8, (t.synthAt 8 k).freq = s.rd .SPN_SYN_FREQ [k]) ∧
      t.rd .CLK_SRC_DEAD_RECK [] = (if z then s.rd .CLK_SRC_DEAD_RECK [] else 1) := by
  obtain ⟨hup, hlocal, hsynth, hrd⟩ := State.clocksOn_spec (s := s)
  rw [State.clocksStart_eq h] at ht
  generalize hv : s.clocksOn.sourceTaken z = v at ht
  have hvup : v.clocksUp = s.clocksOn.clocksUp := by rw [← hv]; exact State.sourceTaken_part (p := .clocksUp) rfl (by decide)
  have hvlocal : v.local_ = s.clocksOn.local_ := by rw [← hv]; exact State.sourceTaken_part (p := .local_) rfl (by decide)
  have hvsynth : v.synth = s.clocksOn.synth := by rw [← hv]; exact State.sourceTaken_part (p := .synth) rfl (by decide)
  have hvdead : v.rd .CLK_SRC_DEAD_RECK [] = (if z then s.rd .CLK_SRC_DEAD_RECK [] else 1) := by
    rw [← hv, State.sourceTaken_deadReck, hrd]
  generalize hw : v.wr .PWR_HUB_STAT_DOMAINS [] 0x3F = w at ht
  have hload : ∀ {p : Part}, [Part.regs].contains p = false → p ≠ .regs → p.same w (w.lifeLoad 8) := fun hp hr =>
    State.lifeLoad_keeps (Keeps.part hp hr w) w 8 (Part.same_refl _ _)
  have hup' : (w.lifeLoad 8).clocksUp = w.clocksUp := hload (p := .clocksUp) rfl (by decide)
  have hlocal' : (w.lifeLoad 8).local_ = w.local_ := hload (p := .local_) rfl (by decide)
  have hsynth' : (w.lifeLoad 8).synth = w.synth := hload (p := .synth) rfl (by decide)
  subst ht
  refine ⟨?_, ?_, ?_, ?_, fun k => ?_, ?_⟩
  · rw [State.rd_wr_same]
    rfl
  · rw [State.wr_clocksUp, hup', ← hw, State.wr_clocksUp, hvup, hup]
  · rw [State.wr_local_, hlocal', ← hw, State.wr_local_, hvlocal, hlocal]
  · refine (State.rd_wr_fld _ _ _ _ _ _ (by decide)).trans ((State.lifeLoad_rd _ _ rfl).trans ?_)
    rw [← hw, State.rd_wr_same]
    rfl
  · refine .trans ?_ (hsynth k)
    rw [State.synthAt_eq, State.synthAt_eq, State.wr_synth, hsynth', ← hw, State.wr_synth, hvsynth]
  · refine (State.rd_wr_fld _ _ _ _ _ _ (by decide)).trans ((State.lifeLoad_rd _ _ rfl).trans ?_)
    rw [← hw]
    exact (State.rd_wr_fld _ _ _ _ _ _ (by decide)).trans hvdead

/-- The mesh of the hub, and the helm cores that boot asks for (R469). -/
def State.coresUp (s : State) : State :=
  let s := if s.warm then { s with rebaseDue := true } else s.meshOn 8
  ((List.range 8).foldl (fun s c =>
    if (s.rd .HELM_BOOT_AUTO_MASK []).testBit c ∧ s.coreState c = 0 then s.coreAsk c else s) s).helmTimeouts

/-- Die `n` is released in stage 5. -/
noncomputable def State.toRelease (s : State) (n : Nat) : Bool := (s.dieAt n).rel == 1 ||
  (s.on .HUB_DIE_STATE_PRESENT [n] && s.rd .HUB_DIE_STATE_STATE [n] == 1 && s.rd .RST_DIE_STAT_CAUSE [n] == 0)

/-- The dies of `ns` wait for their releases. -/
noncomputable def State.allLined (s : State) (ns : List Nat) : State := ns.foldl (fun s n => s.setDieRt n { s.dieAt n with rel := 1 }) s

/-- After a hub warm reset the spokes of the dies in service are trained. -/
noncomputable def State.spokesAsked (s : State) : State :=
  if s.warm then (List.range 8).foldl (fun s n => if s.up n then s.askLink (8 + n) else s) s else s

theorem State.servicesUp_eq : s.servicesUp =
    { (s.coresUp.allLined ((List.range 8).filter s.coresUp.toRelease)).spokesAsked with
      relq := (List.range 8).filter s.coresUp.toRelease } := rfl

theorem State.coresUp_rd {f : Fld} (hf : hasFld opFieldsServicesUp f = false) (i : List Nat) : s.coresUp.rd f i = s.rd f i := by
  have hR : Keeps [.regs, .stewards, .govs] opFieldsServicesUp (fun u => u.rd f i = s.rd f i) := Keeps.rd hf i (s.rd f i)
  refine State.helmTimeouts_keeps hR.sub _ (rel_foldl (R := fun u => u.rd f i = s.rd f i) (fun u c hu => ?_) _ ?_)
  · split
    · exact State.coreAsk_keeps hR.sub _ _ hu
    · exact hu
  · split
    · rfl
    · exact State.meshOn_keeps hR.sub _ _ rfl

theorem State.allLined_rel {ns : List Nat} (hn : n ∈ ns) : ((s.allLined ns).dieAt n).rel = 1 := by
  refine foldl_reaches (P := fun _ => True) (Q := fun u => (u.dieAt n).rel = 1) (a := n) (fun _ _ _ _ => trivial) (fun u _ => ?_)
    (fun u m hu => ?_) hn trivial
  · rw [State.setDieRt_dieAt, if_pos rfl]
  · rw [State.setDieRt_dieAt]
    split
    · rfl
    · exact hu

theorem State.spokesAsked_dieRt : s.spokesAsked.dieRt = s.dieRt := by
  unfold State.spokesAsked
  split
  · refine rel_foldl (R := fun u => u.dieRt = s.dieRt) (fun u m hu => ?_) _ rfl
    split
    · exact (State.askLink_keeps (Keeps.part (p := .dieRt) rfl (by decide) u) u (8 + m) rfl : _ = u.dieRt).trans hu
    · exact hu
  · rfl

theorem State.servicesUp_lines (n : Fin 8) (hpres : s.on .HUB_DIE_STATE_PRESENT [n] = true) (hst : s.rd .HUB_DIE_STATE_STATE [n] = 1)
    (hcause : s.rd .RST_DIE_STAT_CAUSE [n] = 0) :
    s.servicesUp.relq.contains n.val = true ∧ (s.servicesUp.dieAt n).rel = 1 := by
  have hfresh : s.coresUp.toRelease n = true := by
    have hpres' : s.coresUp.on .HUB_DIE_STATE_PRESENT [n] = true := (State.on_of_rd (State.coresUp_rd (by decide) _)).trans hpres
    have hst' : s.coresUp.rd .HUB_DIE_STATE_STATE [n] = 1 := (State.coresUp_rd (by decide) _).trans hst
    have hcause' : s.coresUp.rd .RST_DIE_STAT_CAUSE [n] = 0 := (State.coresUp_rd (by decide) _).trans hcause
    unfold State.toRelease
    rw [hpres', hst', hcause']
    simp
  have hmem : n.val ∈ (List.range 8).filter s.coresUp.toRelease := List.mem_filter.mpr ⟨List.mem_range.mpr n.isLt, hfresh⟩
  have hrelq : s.servicesUp.relq = (List.range 8).filter s.coresUp.toRelease := by rw [State.servicesUp_eq]
  have hdie : s.servicesUp.dieRt = (s.coresUp.allLined ((List.range 8).filter s.coresUp.toRelease)).spokesAsked.dieRt := by rw [State.servicesUp_eq]
  rw [hrelq, State.dieAt_of (hdie.trans State.spokesAsked_dieRt)]
  exact ⟨List.contains_iff_mem.mpr hmem, State.allLined_rel hmem⟩

end

/-! ## The release of a die (R407, R408) -/

section
variable {s : State} {n : Nat}

theorem State.nextReset_none (h : s.rstq = []) : s.nextReset = s := by
  unfold State.nextReset
  rw [h]
  split <;> rfl

theorem exec_dieRailAbsent {n : Fin 8} (hh : s.hold = 0) (hst : s.rd .BOOT_STAT_STAGE [] = 1) : exec (.dieRailAbsent n) s = .next
    ((((s.wr .HUB_DIE_STATE_PRESENT [n] 0).setDie n 1).wr .RST_DIE_STAT_START_ERR [n] 5).raise .HUB_DIE_STATE [n] 409 0 [n.val]) :=
  if_pos ⟨hh, hst⟩

theorem State.railAbsent_spec {u : State} (hu : u = (((s.wr .HUB_DIE_STATE_PRESENT [n] 0).setDie n 1).wr .RST_DIE_STAT_START_ERR [n] 5).raise
    .HUB_DIE_STATE [n] 409 0 [n]) : u.rd .HUB_DIE_STATE_PRESENT [n] = 0 ∧ u.rd .HUB_DIE_STATE_STATE [n] = 1 ∧
    u.rd .RST_DIE_STAT_START_ERR [n] = 5 := by
  subst hu
  refine ⟨?_, ?_, ?_⟩ <;> rw [State.raise_rd _ _ _ _ _ _ rfl]
  · refine (State.rd_wr_fld _ _ _ _ _ _ (by decide)).trans ((State.setDie_rd _ _ _ rfl).trans (State.rd_wr_same _ _ _ _))
  · exact (State.rd_wr_fld _ _ _ _ _ _ (by decide)).trans (State.setDie_state (by decide))
  · exact State.rd_wr_same _ _ _ _

/-- The die that begins its release is reset if it had begun one before. -/
noncomputable def State.wipedAgain (s : State) (n : Nat) : State := if s.rd .HUB_DIE_STATE_STATE [n] = 2 then s.dieWipe n else s

/-- Die `n` has its rail and begins its release. -/
noncomputable def State.railOn (s : State) (n : Nat) : State :=
  let s := (s.setDieRt n { s.dieAt n with rel := 2, t0 := s.now }).setDie n 2
  let s := (s.wr .PWR_DIE_STAT_PSTATE [n] 0).wr .PWR_DIE_STAT_DOMAINS [n] 31
  if s.rd .RST_DIE_STAT_CAUSE [n] = 0 then s.wr .RST_DIE_STAT_CAUSE [n] 1 else s

/-- The steward of die `n` loads its records, and the spoke is trained. -/
noncomputable def State.stewardOn (s : State) (n : Nat) : State :=
  ((((s.emit (.pin (20 + n) 2)).repairsLoad n).lifeLoad n).transportKey n).askLink (8 + n)

def opPartsStewardOn : List Part := [.regs, .out, .stewards, .govs, .gkLink, .draws, .transport]

noncomputable def opFieldsStewardOn : FSet :=
  ⟨[.SEC_COLMAP_ACTIVE, .SEC_COLMAP_DEFECTS, .SEC_COLMAP_FIELD, .TEL_HOURS_HOURS, .TEL_LIFE_PPM, .PG_ERR_OP, .PG_ERR_OVERSIZE,
    .PG_ERR_UNITS, .PG_ERR_VALID, .PG_TO_CNT_COUNT], [], [], false⟩

theorem State.stewardOn_keeps {R : State → Prop} (hR : Keeps opPartsStewardOn opFieldsStewardOn R) (hs : R s) : R (s.stewardOn n) :=
  State.askLink_keeps hR.sub _ _ (State.transportKey_keeps hR.sub _ _ (State.lifeLoad_keeps hR.sub _ _
    (State.repairsLoad_keeps hR.sub _ _ (State.emit_keeps hR.sub _ _ hs))))

theorem State.stewardOn_rd {f : Fld} (hf : hasFld opFieldsStewardOn f = false) (i : List Nat) : (s.stewardOn n).rd f i = s.rd f i :=
  State.stewardOn_keeps (R := fun u => u.rd f i = s.rd f i) (Keeps.rd hf i _) rfl

theorem State.stewardOn_dieRt : (s.stewardOn n).dieRt = s.dieRt :=
  State.stewardOn_keeps (R := fun u => u.dieRt = s.dieRt) (Keeps.part (p := .dieRt) (by decide) (by decide) s) rfl

theorem State.stewardOn_relq : (s.stewardOn n).relq = s.relq :=
  State.stewardOn_keeps (R := fun u => u.relq = s.relq) (Keeps.part (p := .relq) (by decide) (by decide) s) rfl

theorem State.wipedAgain_keeps {R : State → Prop} (hR : Keeps opPartsLeaveRest opFieldsLeave R) (hs : R s) : R (s.wipedAgain n) := by
  unfold State.wipedAgain
  split
  · exact State.dieWipe_leaves hR hs
  · exact hs

theorem State.wipedAgain_relq : (s.wipedAgain n).relq = s.relq :=
  State.wipedAgain_keeps (R := fun u => u.relq = s.relq) (Keeps.part (p := .relq) (by decide) (by decide) s) rfl

theorem State.wipedAgain_rd {f : Fld} (hf : hasFld opFieldsLeave f = false) (i : List Nat) : (s.wipedAgain n).rd f i = s.rd f i :=
  State.wipedAgain_keeps (R := fun u => u.rd f i = s.rd f i) (Keeps.rd hf i _) rfl

theorem State.railOn_relq : (s.railOn n).relq = s.relq := by
  have hset : ((s.setDieRt n { s.dieAt n with rel := 2, t0 := s.now }).setDie n 2).relq = s.relq :=
    State.setDie_part (p := .relq) rfl (by decide)
  unfold State.railOn
  dsimp only
  split <;> exact hset

theorem State.railOn_dieAt : (s.railOn n).dieAt n = { s.dieAt n with rel := 2, t0 := s.now } := by
  have hset : ((s.setDieRt n { s.dieAt n with rel := 2, t0 := s.now }).setDie n 2).dieRt =
      (s.setDieRt n { s.dieAt n with rel := 2, t0 := s.now }).dieRt := State.setDie_part (p := .dieRt) rfl (by decide)
  have hat := (State.dieAt_of hset n).trans ((State.setDieRt_dieAt _ _ _ _).trans (if_pos rfl))
  unfold State.railOn
  dsimp only
  split <;> exact hat

theorem State.railOn_fields : (s.railOn n).rd .HUB_DIE_STATE_STATE [n] = 2 ∧ (s.railOn n).rd .PWR_DIE_STAT_PSTATE [n] = 0 ∧
    (s.railOn n).rd .PWR_DIE_STAT_DOMAINS [n] = 31 ∧
    (s.railOn n).rd .RST_DIE_STAT_CAUSE [n] = (if s.rd .RST_DIE_STAT_CAUSE [n] = 0 then 1 else s.rd .RST_DIE_STAT_CAUSE [n]) := by
  have hst := State.setDie_state (s := s.setDieRt n { s.dieAt n with rel := 2, t0 := s.now }) (n := n) (v := 2) (by decide)
  have hc : ((s.setDieRt n { s.dieAt n with rel := 2, t0 := s.now }).setDie n 2).rd .RST_DIE_STAT_CAUSE [n] =
      s.rd .RST_DIE_STAT_CAUSE [n] := (State.setDie_rd _ _ _ rfl).trans (State.setDieRt_rd _ _ _ rfl)
  unfold State.railOn
  dsimp only
  generalize (s.setDieRt n { s.dieAt n with rel := 2, t0 := s.now }).setDie n 2 = v at hst hc ⊢
  rw [State.rd_wr_fld _ _ _ _ _ _ (by decide), State.rd_wr_fld _ _ _ _ _ _ (by decide), hc]
  split
  next h0 =>
    simp (disch := decide) only [State.rd_wr_fld, State.rd_wr_same]
    exact ⟨hst, rfl, rfl, rfl⟩
  next h0 =>
    simp (disch := decide) only [State.rd_wr_fld, State.rd_wr_same]
    exact ⟨hst, rfl, rfl, hc⟩

/-- A die at the head of the line begins its release where none is under way. -/
def State.mayRelease (s : State) (n : Nat) (r : List Nat) : Prop :=
  s.relq = n :: r ∧ (s.rd .BOOT_STAT_STAGE [] = 5 ∨ s.rd .BOOT_STAT_STAGE [] = 6) ∧
    (List.range 8).all (fun k => decide ((s.dieAt k).rel < 2)) = true

/-- The line of releases without its head. -/
noncomputable def State.lineLeft (s : State) (r : List Nat) : State := { s with relq := r }

theorem exec_dieRelease {n : Fin 8} {r : List Nat} {rail : Bool} (h : s.mayRelease n r) : exec (.dieRelease n rail) s = .next
    (if rail = false then
      (((((s.lineLeft r).setDieRt n { (s.lineLeft r).dieAt n with rel := 0 }).wr .PWR_DIE_STAT_BUSY [n] 0).setDie n 1).wr
        .PWR_DIE_STAT_PSTATE [n] 3 |>.raise .PWR_DIE_CTL [n] 526 0 [n.val]).nextReset
    else (((s.lineLeft r).wipedAgain n).railOn n).stewardOn n) := by
  obtain ⟨hq, hst, hrel⟩ := h
  change execDieRelease n rail s = _
  unfold execDieRelease
  rw [hq]
  dsimp only
  rw [if_pos ⟨rfl, hst, hrel⟩]
  cases rail <;> rfl

theorem State.releaseBegun_spec {r : List Nat} {t : State} (ht : t = (((s.lineLeft r).wipedAgain n).railOn n).stewardOn n) :
    t.relq = r ∧ (t.dieAt n).rel = 2 ∧ t.rd .HUB_DIE_STATE_STATE [n] = 2 ∧
      t.rd .PWR_DIE_STAT_PSTATE [n] = 0 ∧ t.rd .PWR_DIE_STAT_DOMAINS [n] = 31 ∧
      t.rd .RST_DIE_STAT_CAUSE [n] = (if s.rd .RST_DIE_STAT_CAUSE [n] = 0 then 1 else s.rd .RST_DIE_STAT_CAUSE [n]) := by
  obtain ⟨hst, hp, hdom, hc⟩ := State.railOn_fields (s := (s.lineLeft r).wipedAgain n) (n := n)
  have hcause : ((s.lineLeft r).wipedAgain n).rd .RST_DIE_STAT_CAUSE [n] = s.rd .RST_DIE_STAT_CAUSE [n] :=
    State.wipedAgain_rd (by decide) _
  rw [hcause] at hc
  rw [ht]
  refine ⟨?_, ?_, ?_, ?_, ?_, ?_⟩
  · rw [State.stewardOn_relq, State.railOn_relq, State.wipedAgain_relq]
    rfl
  · rw [State.dieAt_of State.stewardOn_dieRt, State.railOn_dieAt]
  · exact (State.stewardOn_rd (by decide) _).trans hst
  · exact (State.stewardOn_rd (by decide) _).trans hp
  · exact (State.stewardOn_rd (by decide) _).trans hdom
  · exact (State.stewardOn_rd (by decide) _).trans hc

/-- A die without its rail is laid up. -/
noncomputable def State.laidUp (s : State) (n : Nat) : State :=
  ((((s.setDieRt n { s.dieAt n with rel := 0 }).wr .PWR_DIE_STAT_BUSY [n] 0).setDie n 1).wr .PWR_DIE_STAT_PSTATE [n] 3).raise
    .PWR_DIE_CTL [n] 526 0 [n]

theorem State.laidUp_keeps {R : State → Prop} (hR : Keeps [.regs, .stewards] ⟨[.PWR_DIE_STAT_BUSY, .HELM_IC_PEND_BITS, .HUB_DIE_STATE_STATE,
    .PWR_DIE_STAT_PSTATE], [], [], false⟩ R) (hs : R (s.setDieRt n { s.dieAt n with rel := 0 })) : R (s.laidUp n) :=
  State.raise_keeps hR.sub _ _ _ _ _ _ (hR.wr _ _ _ rfl rfl (State.setDie_keeps hR.sub _ _ _ (hR.wr _ _ _ rfl rfl hs)))

theorem State.laidUp_spec : (s.laidUp n).relq = s.relq ∧ (s.laidUp n).rstq = s.rstq ∧ ((s.laidUp n).dieAt n).rel = 0 ∧
    (s.laidUp n).rd .HUB_DIE_STATE_STATE [n] = 1 ∧ (s.laidUp n).rd .PWR_DIE_STAT_PSTATE [n] = 3 := by
  have hdie : (s.laidUp n).dieRt = (s.setDieRt n { s.dieAt n with rel := 0 }).dieRt :=
    State.laidUp_keeps (R := fun u => u.dieRt = (s.setDieRt n { s.dieAt n with rel := 0 }).dieRt)
      (Keeps.part (p := .dieRt) (by decide) (by decide) _) rfl
  refine ⟨?_, ?_, ?_, ?_, ?_⟩
  · exact State.laidUp_keeps (R := fun u => u.relq = s.relq) (Keeps.part (p := .relq) (by decide) (by decide) s) rfl
  · exact State.laidUp_keeps (R := fun u => u.rstq = s.rstq) (Keeps.part (p := .rstq) (by decide) (by decide) s) rfl
  · rw [State.dieAt_of hdie, State.setDieRt_dieAt, if_pos rfl]
  · refine (State.raise_rd _ _ _ _ _ _ rfl).trans ((State.rd_wr_fld _ _ _ _ _ _ (by decide)).trans ?_)
    exact State.setDie_state (by decide)
  · exact (State.raise_rd _ _ _ _ _ _ rfl).trans (State.rd_wr_same _ _ _ _)

/-! ## The self-test and the end of a release -/

/-- What a good self-test notes: the rows and columns it has not found bad (R503). -/
noncomputable def State.testNoted (s : State) (n : Nat) : State :=
  let s := { s with repairs := s.repairs.filter (fun e => e.take 2 != [n, 77]) }
  let s := (s.setBit .MGMT_HEALTH_ZERO [n] 1 false).setBit .MGMT_HEALTH_ZERO [n] 2 false
  s.healthUpdate n { s.hlth n with secLost := false, low := (s.hlth n).low - ((s.hlth n).low &&& 6) }

/-- Sectors whose recorded columns are not mapped become unavailable. -/
noncomputable def State.colsChecked (s : State) (n : Nat) : State :=
  (List.range 40).foldl (fun s k =>
    if (s.recordedCols n k).any (· ≠ s.knownDefect n k) then s.sectorUnavailable n k 59 else s) s

theorem State.colsChecked_none (h : s.repairs = []) : s.colsChecked n = s := by
  refine rel_foldl (R := fun u => u = s) (fun u k hu => ?_) _ rfl
  subst hu
  refine if_neg ?_
  unfold State.recordedCols
  rw [h]
  simp

/-- The self-test of die `n` is done at the instant `due`, at the earliest, and finds nothing. -/
noncomputable def State.tested (s : State) (n due : Nat) : State :=
  (((s.lapseTo due).testNoted n).colsChecked n).setDieRt n
    { (((s.lapseTo due).testNoted n).colsChecked n).dieAt n with rel := 3 }

theorem exec_selfTestDone {n : Fin 8} (hrel : (s.dieAt n).rel = 2) (hup : s.spokeUp n = true) :
    exec (.selfTestDone n [] [] [] []) s = .next (s.tested n ((s.dieAt n).t0 + 28000000)) := by
  change execSelfTestDone n [] [] [] [] s = _
  unfold execSelfTestDone
  rw [if_pos ⟨hrel, hup⟩]
  generalize (s.dieAt n).t0 + 28000000 = due
  dsimp only [List.foldl_nil]
  rfl

theorem exec_selfTestDone_down {n : Fin 8} (hup : s.spokeUp n = false) : exec (.selfTestDone n [] [] [] []) s = .next s :=
  if_neg fun h => by rw [hup] at h; exact absurd h.2 (by decide)

theorem State.tested_spec (due : Nat) (hrep : s.repairs = []) : ((s.tested n due).dieAt n).rel = 3 ∧ (s.tested n due).now = max s.now due := by
  have hnone : ((s.lapseTo due).testNoted n).repairs = [] := by
    change s.repairs.filter _ = []
    rw [hrep]
    rfl
  unfold State.tested
  rw [State.colsChecked_none hnone, State.setDieRt_dieAt, if_pos rfl]
  exact ⟨rfl, State.lapseTo_now s due⟩

/-- Die `n` is in service (R407). -/
noncomputable def State.served (s : State) (n : Nat) (bs : BearingSet) : State :=
  let s := ((s.meshOn n).wr .RC_CTL_EN [n] 1).wr .RC_STAT_STATE [n] 1
  let s := s.putBearings (bs.filter (fun b => b.1.val == n || bitsOf b.2.2.2.toNat 8 4 == n))
  ((s.setDie n 3).wr .PWR_DIE_STAT_BUSY [n] 0).wr .RST_DIE_STAT_START_ERR [n] 0

/-- What die `n` asks for when it has entered service: its stack's training and its ring links'. -/
noncomputable def State.serviceAsks (s : State) (n : Nat) : State :=
  let s := s.healthUpdate n { s.hlth n with dead := false }
  let s := match dieStack n with
    | some st => s.askTraining st
    | none => s
  let s := if s.up ((n + 1) % 8) then s.askLink n else s
  if s.up ((n + 7) % 8) then s.askLink ((n + 7) % 8) else s

def opPartsServiceAsks : List Part := [.regs, .stewards, .health, .govs, .stack, .gkLink]

def opFieldsServiceAsks : FSet :=
  ⟨[.MGMT_HEALTH_STAGE, .PG_ERR_OP, .PG_ERR_OVERSIZE, .PG_ERR_UNITS, .PG_ERR_VALID, .PG_TO_CNT_COUNT], [], [], false⟩

theorem State.serviceAsks_keeps {R : State → Prop} (hR : Keeps opPartsServiceAsks opFieldsServiceAsks R) (hs : R s) : R (s.serviceAsks n) := by
  have hlink : ∀ (u : State) (b : Bool) (l : Nat), R u → R (if b then u.askLink l else u) := fun u b l hu => by
    split
    · exact State.askLink_keeps hR.sub _ _ hu
    · exact hu
  have hhealth : R (s.healthUpdate n { s.hlth n with dead := false }) := State.healthUpdate_keeps hR.sub _ _ _ hs
  unfold State.serviceAsks
  refine hlink _ _ _ (hlink _ _ _ ?_)
  dsimp only
  split
  · exact State.askTraining_keeps hR.sub _ _ hhealth
  · exact hhealth

theorem exec_dieReleaseDone {n : Fin 8} (bs : BearingSet) (hrel : (s.dieAt n).rel = 3) : exec (.dieReleaseDone n bs) s =
    .next ((((s.lapseTo ((s.dieAt n).t0 + 31000000)).setDieRt n { s.dieAt n with rel := 0 }).served n bs).serviceAsks n).nextReset := by
  change execDieReleaseDone n bs s = _
  unfold execDieReleaseDone
  rw [if_pos hrel]
  generalize (s.dieAt n).t0 + 31000000 = due
  rfl

theorem State.served_keeps {R : State → Prop} (bs : BearingSet) (hR : Keeps [.regs, .stewards, .ni, .bearings] ⟨[.NOC_NI_CTL_EN,
    .NOC_RTR_PORT_EN, .RC_CTL_EN, .RC_STAT_STATE, .HELM_IC_PEND_BITS, .HUB_DIE_STATE_STATE, .PWR_DIE_STAT_BUSY,
    .RST_DIE_STAT_START_ERR], [], [], false⟩ R) (hs : R s) : R (s.served n bs) :=
  hR.wr _ _ _ rfl rfl (hR.wr _ _ _ rfl rfl (State.setDie_keeps hR.sub _ _ _ (State.putBearings_keeps hR.sub _ _
    (hR.wr _ _ _ rfl rfl (hR.wr _ _ _ rfl rfl (State.meshOn_keeps hR.sub _ _ hs))))))

theorem State.served_fields (bs : BearingSet) : (s.served n bs).rd .HUB_DIE_STATE_STATE [n] = 3 ∧
    (s.served n bs).rd .PWR_DIE_STAT_BUSY [n] = 0 ∧ (s.served n bs).rd .RST_DIE_STAT_START_ERR [n] = 0 ∧
    (s.served n bs).rd .RC_CTL_EN [n] = 1 := by
  unfold State.served
  dsimp only
  refine ⟨?_, ?_, ?_, ?_⟩ <;> simp (disch := decide) only [State.rd_wr_fld, State.rd_wr_same]
  · exact State.setDie_state (by decide)
  · rfl
  · rfl
  · rw [State.setDie_rd _ _ _ rfl, State.putBearings_rd _ _ rfl, State.rd_wr_fld _ _ _ _ _ _ (by decide), State.rd_wr_same]
    rfl

theorem State.releaseDone_spec (due : Nat) (bs : BearingSet) (hq : s.rstq = []) {t : State}
    (ht : t = ((((s.lapseTo due).setDieRt n { s.dieAt n with rel := 0 }).served n bs).serviceAsks n).nextReset) : (t.dieAt n).rel = 0 ∧ t.rd .HUB_DIE_STATE_STATE [n] = 3 ∧
      t.rd .PWR_DIE_STAT_BUSY [n] = 0 ∧ t.rd .RST_DIE_STAT_START_ERR [n] = 0 ∧ t.rd .RC_CTL_EN [n] = 1 ∧ t.now = max s.now due := by
  have hnow : ((s.lapseTo due).setDieRt n { s.dieAt n with rel := 0 }).now = max s.now due := State.lapseTo_now s due
  have hq' : ((s.lapseTo due).setDieRt n { s.dieAt n with rel := 0 }).rstq = [] := hq
  have hrel : (((s.lapseTo due).setDieRt n { s.dieAt n with rel := 0 }).dieAt n).rel = 0 := by
    rw [State.setDieRt_dieAt, if_pos rfl]
  generalize (s.lapseTo due).setDieRt n { s.dieAt n with rel := 0 } = u at hnow hq' hrel ht
  obtain ⟨hst, hbusy, herr, hen⟩ := State.served_fields (s := u) (n := n) bs
  have hdie : (u.served n bs).dieRt = u.dieRt :=
    State.served_keeps (R := fun v => v.dieRt = u.dieRt) bs (Keeps.part (p := .dieRt) (by decide) (by decide) u) rfl
  have hrstq : (u.served n bs).rstq = u.rstq :=
    State.served_keeps (R := fun v => v.rstq = u.rstq) bs (Keeps.part (p := .rstq) (by decide) (by decide) u) rfl
  have htime : (u.served n bs).now = u.now :=
    State.served_keeps (R := fun v => v.now = u.now) bs (Keeps.part (p := .now) (by decide) (by decide) u) rfl
  generalize u.served n bs = v at hst hbusy herr hen hdie hrstq htime ht
  have hrd : ∀ {f : Fld}, hasFld opFieldsServiceAsks f = false → ∀ i, (v.serviceAsks n).rd f i = v.rd f i :=
    fun hf i => State.serviceAsks_keeps (R := fun w => w.rd _ i = v.rd _ i) (Keeps.rd hf i _) rfl
  have hq2 : (v.serviceAsks n).rstq = v.rstq :=
    State.serviceAsks_keeps (R := fun w => w.rstq = v.rstq) (Keeps.part (p := .rstq) (by decide) (by decide) v) rfl
  have hdie2 : (v.serviceAsks n).dieRt = v.dieRt :=
    State.serviceAsks_keeps (R := fun w => w.dieRt = v.dieRt) (Keeps.part (p := .dieRt) (by decide) (by decide) v) rfl
  have hnow2 : (v.serviceAsks n).now = v.now :=
    State.serviceAsks_keeps (R := fun w => w.now = v.now) (Keeps.part (p := .now) (by decide) (by decide) v) rfl
  rw [State.nextReset_none (hq2.trans (hrstq.trans hq'))] at ht
  rw [ht]
  refine ⟨?_, (hrd (by decide) _).trans hst, (hrd (by decide) _).trans hbusy, (hrd (by decide) _).trans herr,
    (hrd (by decide) _).trans hen, hnow2.trans (htime.trans hnow)⟩
  rw [State.dieAt_of (hdie2.trans hdie), hrel]

/-- A release of die `n` that fails with code `c` (R408). -/
def State.startFailed (s : State) (n c : Nat) : State :=
  let s := (s.dieWipe n).setDieRt n { (s.dieWipe n).dieAt n with rel := 0 }
  let s := (s.wr .RST_DIE_STAT_START_ERR [n] c).wr .PWR_DIE_STAT_BUSY [n] 0
  let s := if c = 4 then (s.setDie n 0).wr .HUB_DIE_STATE_PRESENT [n] 0 else (s.setDie n 5).wr .HUB_DIE_STATE_LOST [n] 0
  let s := s.raise .RST_DIE_CTL [n] 408 3 [n, c]
  s.healthUpdate n { s.hlth n with dead := true }

theorem exec_dieStartFail {n : Fin 8} {c : Fin 4} (hrel : 2 ≤ (s.dieAt n).rel) :
    exec (.dieStartFail n c) s = .next (s.startFailed n (c.val + 1)).nextReset := by
  have hdie : (s.dieWipe n).dieAt n = s.dieAt n := State.dieAt_of (State.dieWipe_part (p := .dieRt) (by decide) (by decide)) n
  change execDieStartFail n c s = _
  unfold execDieStartFail State.startFailed
  rw [if_pos hrel, hdie]

theorem State.startFailed_keeps {R : State → Prop} {c : Nat} (hR : Keeps [.regs, .stewards, .health] ⟨[.RST_DIE_STAT_START_ERR,
    .PWR_DIE_STAT_BUSY, .HELM_IC_PEND_BITS, .HUB_DIE_STATE_STATE, .HUB_DIE_STATE_PRESENT, .HUB_DIE_STATE_LOST, .MGMT_HEALTH_STAGE],
    [], [], false⟩ R) (hs : R ((s.dieWipe n).setDieRt n { (s.dieWipe n).dieAt n with rel := 0 })) : R (s.startFailed n c) := by
  have hnote : R ((((s.dieWipe n).setDieRt n { (s.dieWipe n).dieAt n with rel := 0 }).wr .RST_DIE_STAT_START_ERR [n] c).wr
    .PWR_DIE_STAT_BUSY [n] 0) := hR.wr _ _ _ rfl rfl (hR.wr _ _ _ rfl rfl hs)
  unfold State.startFailed
  dsimp only
  refine State.healthUpdate_keeps hR.sub _ _ _ (State.raise_keeps hR.sub _ _ _ _ _ _ ?_)
  split
  · exact hR.wr _ _ _ rfl rfl (State.setDie_keeps hR.sub _ _ _ hnote)
  · exact hR.wr _ _ _ rfl rfl (State.setDie_keeps hR.sub _ _ _ hnote)

theorem State.startFailed_fields {c : Nat} (hc : c < 16) : (s.startFailed n c).rd .RST_DIE_STAT_START_ERR [n] = c ∧
    (s.startFailed n c).rd .HUB_DIE_STATE_STATE [n] = (if c = 4 then 0 else 5) := by
  have hw : (Fld.spec .RST_DIE_STAT_START_ERR).width = 4 := rfl
  unfold State.startFailed
  dsimp only
  rw [State.healthUpdate_rd _ _ _ rfl, State.healthUpdate_rd _ _ _ rfl, State.raise_rd _ _ _ _ _ _ rfl,
    State.raise_rd _ _ _ _ _ _ rfl]
  split
  · refine ⟨?_, (State.rd_wr_fld _ _ _ _ _ _ (by decide)).trans (State.setDie_state (by decide))⟩
    rw [State.rd_wr_fld _ _ _ _ _ _ (by decide), State.setDie_rd _ _ _ rfl, State.rd_wr_fld _ _ _ _ _ _ (by decide),
      State.rd_wr_same, hw]
    exact Nat.mod_eq_of_lt hc
  · refine ⟨?_, (State.rd_wr_fld _ _ _ _ _ _ (by decide)).trans (State.setDie_state (by decide))⟩
    rw [State.rd_wr_fld _ _ _ _ _ _ (by decide), State.setDie_rd _ _ _ rfl, State.rd_wr_fld _ _ _ _ _ _ (by decide),
      State.rd_wr_same, hw]
    exact Nat.mod_eq_of_lt hc

theorem State.startFail_spec {c : Nat} (hc : c < 16) (hq : s.rstq = []) : ((s.startFailed n c).nextReset.dieAt n).rel = 0 ∧
    (s.startFailed n c).nextReset.rd .RST_DIE_STAT_START_ERR [n] = c ∧
    (s.startFailed n c).nextReset.rd .HUB_DIE_STATE_STATE [n] = (if c = 4 then 0 else 5) := by
  have hrstq : (s.startFailed n c).rstq = ((s.dieWipe n).setDieRt n { (s.dieWipe n).dieAt n with rel := 0 }).rstq :=
    State.startFailed_keeps (R := fun v => v.rstq = ((s.dieWipe n).setDieRt n { (s.dieWipe n).dieAt n with rel := 0 }).rstq)
      (Keeps.part (p := .rstq) (by decide) (by decide) _) rfl
  have hdie : (s.startFailed n c).dieRt = ((s.dieWipe n).setDieRt n { (s.dieWipe n).dieAt n with rel := 0 }).dieRt :=
    State.startFailed_keeps (R := fun v => v.dieRt = ((s.dieWipe n).setDieRt n { (s.dieWipe n).dieAt n with rel := 0 }).dieRt)
      (Keeps.part (p := .dieRt) (by decide) (by decide) _) rfl
  have hwipe : (s.dieWipe n).rstq = s.rstq := State.dieWipe_part (p := .rstq) (by decide) (by decide)
  rw [State.nextReset_none (hrstq.trans (hwipe.trans hq))]
  refine ⟨?_, State.startFailed_fields hc⟩
  rw [State.dieAt_of hdie, State.setDieRt_dieAt, if_pos rfl]

/-! ## The autoload (R413) -/

theorem exec_cfgAutoload {u r : Bool} {o l : Nat} (ha : s.auto = some (o, l, r)) (hst : s.rd .BOOT_STAT_STAGE [] = 6)
    (hp : s.cfgLoad.phase = 0) : exec (.cfgAutoload u) s = .next (if s.noAuto then ({ s with auto := none } : State).wr .BOOT_STAT_CFG [] 4
      else (({ s with auto := none } : State).wr .BOOT_STAT_CFG [] 1).cfgBegin none r l o (some (leNat (memBytes s.flash o 256 0xFF))) u) := by
  change execCfgAutoload u s = _
  unfold execCfgAutoload
  rw [ha]
  dsimp only
  rw [if_pos ⟨hst, hp⟩]
  split <;> rfl

/-- An image too short for a header is inconsistent. -/
theorem State.cfgHeaderCheck_short (len : Nat) (u : Bool) : s.cfgHeaderCheck 0 len u = 4 := by
  have hbad : hInconsistent 0 len = true := by simp [hInconsistent, hMAGIC, bitsOf]
  unfold State.cfgHeaderCheck
  dsimp only
  exact if_pos hbad

/-- A refused autoload records its status (R413). -/
noncomputable def State.autoRefused (s : State) (status : Nat) : State :=
  ((s.wr .BOOT_STAT_CFG [] 3).wr .BOOT_STAT_CFG_STATUS [] status).raise .BOOT_STAT [] 413 0 [status, 0]

theorem State.cfgClose_auto {status : Nat} (ho : s.cfgLoad.owner = none) (ha : s.cfgLoad.auto = true) (hs : status ≠ 0) :
    s.cfgClose status 0 0 = ({ s.giveBack 8 19 cfgWho with cfgLoad := {} } : State).autoRefused status := by
  unfold State.cfgClose
  dsimp only
  rw [ho]
  dsimp only
  rw [if_pos ha, if_neg hs, if_neg hs]
  rfl

theorem State.cfgBegin_short {r u : Bool} {len at_ h : Nat} (h0 : len ≠ 0) (h256 : len < 256) :
    s.cfgBegin none r len at_ (some h) u = ((s.loadOpened none r len at_ 0 0).imageBad 4 1).cfgClose 1 0 0 := by
  unfold State.cfgBegin
  dsimp only
  rw [if_neg h0, if_pos h256, State.cfgHeaderCheck_short, if_pos (by decide)]
  rfl

theorem State.shortAutoload_spec {r u : Bool} {len at_ h : Nat} (h0 : len ≠ 0) (h256 : len < 256) {t : State}
    (ht : t = s.cfgBegin none r len at_ (some h) u) : t.auto = s.auto ∧ t.rd .BOOT_STAT_CFG [] = 3 ∧
      t.rd .BOOT_STAT_CFG_STATUS [] = 1 ∧ t.cfgLoad = {} := by
  have hload : ((s.loadOpened none r len at_ 0 0).imageBad 4 1).cfgLoad = (s.loadOpened none r len at_ 0 0).cfgLoad :=
    State.imageBad_keeps (R := fun u => u.cfgLoad = (s.loadOpened none r len at_ 0 0).cfgLoad)
      (Keeps.part (p := .cfgLoad) (by decide) (by decide) _) _ _ _ rfl
  have hauto : ((s.loadOpened none r len at_ 0 0).imageBad 4 1).auto = s.auto :=
    State.imageBad_keeps (R := fun u => u.auto = s.auto) (Keeps.part (p := .auto) (by decide) (by decide) s) _ _ _ rfl
  rw [State.cfgBegin_short h0 h256] at ht
  generalize (s.loadOpened none r len at_ 0 0).imageBad 4 1 = v at hload hauto ht
  have hclose := State.cfgClose_auto (s := v) (status := 1) (by rw [hload]; rfl) (by rw [hload]; rfl) (by decide)
  refine ⟨?_, ?_, ?_, ?_⟩
  · rw [ht, State.cfgClose_keeps (R := fun u => u.auto = v.auto) (Keeps.part (p := .auto) (by decide) (by decide) v) _ _ _ _ rfl, hauto]
  · rw [ht, hclose]
    exact (State.raise_rd _ _ _ _ _ _ rfl).trans ((State.rd_wr_fld _ _ _ _ _ _ (by decide)).trans (State.rd_wr_same _ _ _ _))
  · rw [ht, hclose]
    exact (State.raise_rd _ _ _ _ _ _ rfl).trans (State.rd_wr_same _ _ _ _)
  · rw [ht, State.cfgClose_cfgLoad]

end

theorem coldStage_rd (u : State) : ({ u with warm := false } : State).rd .BOOT_STAT_STAGE [] = u.rd .BOOT_STAT_STAGE [] := rfl

theorem State.wr_dieAt (s : State) (f : Fld) (i : List Nat) (v n : Nat) : (s.wr f i v).dieAt n = s.dieAt n := rfl

/-- Settles O52, by the stage that ends, and by the step of a die's release. -/
theorem theDeviceBootsStageByStageAndReleasesItsDies : Obligations.TheDeviceBootsStageByStageAndReleasesItsDies := by
  unfold Obligations.TheDeviceBootsStageByStageAndReleasesItsDies
  refine ⟨?stage0, ?fitted, ?badFuses, ?absent, ?recovery, ?slotA, ?clocks, ?services, ?dies, ?held, ?rail, ?release, ?laidUp,
    ?tested, ?untested, ?served, ?failed, ?suppressed, ?short⟩
  case stage0 =>
    intro a b x y z o bs s hh hst
    refine ⟨_, exec_bootStage0 hh hst, State.rd_wr_same _ _ _ _, ?_, ((SameFields.refl s _).wr (by simp) 1).wr (by simp) 1⟩
    exact (State.rd_wr_fld _ _ _ _ _ _ (by decide)).trans (State.rd_wr_same _ _ _ _)
  case fitted =>
    intro a b x y z o bs n s hh hst hfit hgood herr
    have hnote : (s.fuseStage a.toNat b).dieNote n =
          [1, 1, (b.getD n (0, 0)).1.val, (b.getD n (0, 0)).2.toNat, (s.fuseStage a.toNat b).rd .RST_DIE_STAT_START_ERR [n]] ∧
        (s.fuseStage a.toNat b).rd .RST_DIE_STAT_START_ERR [n] ≠ 5 := by
      refine State.fuseStage_reaches (n := n.val) (Q := fun u => u.dieNote n =
        [1, 1, (b.getD n (0, 0)).1.val, (b.getD n (0, 0)).2.toNat, u.rd .RST_DIE_STAT_START_ERR [n]] ∧
        u.rd .RST_DIE_STAT_START_ERR [n] ≠ 5) n.isLt (fun t ht => ht.2) (fun t u htu ht => ?_) (fun t ht => ?_) herr
      · have herr' : u.rd .RST_DIE_STAT_START_ERR [n] = t.rd .RST_DIE_STAT_START_ERR [n] := congrArg (fun l => l.getD 4 0) htu
        rw [htu, herr']
        exact ht
      · rw [State.fuseDie_fitted ht hfit hgood, State.setDie_note (by decide)]
        have hread := State.fusesRead_note (s := t.emit (.pin (20 + n.val) 2)) (n := n.val) (b.getD n (0, 0))
        simp only [State.dieNote, List.cons.injEq, and_true] at hread ⊢
        obtain ⟨hp, -, hpos, hk, he⟩ := hread
        rw [State.emit_rd _ _ rfl] at he
        have hsame : ∀ v : State, (v.setDie n 1).rd .RST_DIE_STAT_START_ERR [n] = v.rd .RST_DIE_STAT_START_ERR [n] :=
          fun v => State.setDie_rd _ _ _ rfl
        refine ⟨⟨hp, trivial, hpos, hk, (hsame _).symm⟩, ?_⟩
        rw [hsame, he]
        exact ht
    obtain ⟨hnote, -⟩ := hnote
    have hst2 := State.stage2_note (s := s.fuseStage a.toNat b) (n := n.val)
    rw [hnote] at hst2
    simp only [State.dieNote, List.cons.injEq, and_true] at hst2
    obtain ⟨hp, hs1, hpos, hk, -⟩ := hst2
    exact ⟨_, exec_bootStage1 hh hst, State.stage2_stage, State.stage2_time.trans (State.fuseStage_now _ _), hp, hs1, hpos, hk⟩
  case badFuses =>
    intro a b x y z o bs n s hh hst hfit hgood herr
    have hbad : (s.fuseStage a.toNat b).rd .HUB_DIE_STATE_PRESENT [n] = 0 ∧
        (s.fuseStage a.toNat b).rd .RST_DIE_STAT_START_ERR [n] = 4 := by
      refine State.fuseStage_reaches (n := n.val) (Q := fun u => u.rd .HUB_DIE_STATE_PRESENT [n] = 0 ∧
        u.rd .RST_DIE_STAT_START_ERR [n] = 4) n.isLt (fun t ht => by rw [ht.2]; decide) (fun t u htu ht => ?_) (fun t ht => ?_) herr
      · exact ⟨(congrArg (fun l => l.getD 0 0) htu : _).trans ht.1, (congrArg (fun l => l.getD 4 0) htu : _).trans ht.2⟩
      · rw [State.fuseDie_bad ht hfit hgood, State.raise_rd _ _ _ _ _ _ rfl, State.raise_rd _ _ _ _ _ _ rfl]
        exact ⟨(State.rd_wr_fld _ _ _ _ _ _ (by decide)).trans (State.rd_wr_same _ _ _ _), State.rd_wr_same _ _ _ _⟩
    exact ⟨_, exec_bootStage1 hh hst, State.stage2_stage, (State.stage2_rd _ rfl).trans hbad.1, (State.stage2_rd _ rfl).trans hbad.2⟩
  case absent =>
    intro a b x y z o bs n s hh hst hfit herr
    have hgone : (s.fuseStage a.toNat b).rd .HUB_DIE_STATE_PRESENT [n] = 0 ∧
        (s.fuseStage a.toNat b).rd .RST_DIE_STAT_START_ERR [n] ≠ 5 := by
      refine State.fuseStage_reaches (n := n.val) (Q := fun u => u.rd .HUB_DIE_STATE_PRESENT [n] = 0 ∧
        u.rd .RST_DIE_STAT_START_ERR [n] ≠ 5) n.isLt (fun t ht => ht.2) (fun t u htu ht => ?_) (fun t ht => ?_) herr
      · have herr' : u.rd .RST_DIE_STAT_START_ERR [n] = t.rd .RST_DIE_STAT_START_ERR [n] := congrArg (fun l => l.getD 4 0) htu
        rw [herr']
        exact ⟨(congrArg (fun l => l.getD 0 0) htu : _).trans ht.1, ht.2⟩
      · rw [State.fuseDie_absent ht hfit]
        refine ⟨State.rd_wr_same _ _ _ _, ?_⟩
        rw [State.rd_wr_fld _ _ _ _ _ _ (by decide : Fld.HUB_DIE_STATE_PRESENT ≠ .RST_DIE_STAT_START_ERR), State.emit_rd _ _ rfl]
        exact ht
    exact ⟨_, exec_bootStage1 hh hst, State.stage2_stage, (State.stage2_rd _ rfl).trans hgone.1⟩
  case recovery =>
    intro a b x y z o bs s hh hst hpick
    refine ⟨_, exec_bootStage2 hh hst, ?_⟩
    rw [State.firmware_none ((State.dirPick_of (State.flashReads_flash o)).trans hpick)]
    exact State.recover_spec o
  case slotA =>
    intro a b x y z o bs c s hh hst hwarm hnext hpick hpref hlen hfw
    have hcopy : (s.flashReads o).dirCopy c = s.dirCopy c := State.dirCopy_of (State.flashReads_flash o) c
    have hboot := State.firmware_slotA (s := s.flashReads o) (c := c) (x := x) (y := y) ((State.flashReads_warm o).trans hwarm)
      ((State.flashReads_field o _ _).trans hnext) ((State.dirPick_of (State.flashReads_flash o)).trans hpick)
      (by rw [hcopy]; exact hpref) (by rw [hcopy]; exact hlen)
      (by rw [hcopy, State.fwCheck_of (State.flashReads_flash o) fun f i _ => State.flashReads_field o f i]; exact hfw)
    obtain ⟨h1, h2, h3, h4, h5, h6⟩ := State.slotBoot_fields (s := s.flashReads o) (d := s.dirCopy c) (State.dirPick_lt hpick)
      (State.fwCheck_length hfw)
    rw [State.flashReads_flash] at h6
    refine ⟨_, exec_bootStage2 hh hst, ?_⟩
    rw [hboot, hcopy]
    exact ⟨h1, h2, h3, h4, h5, h6, State.slotBoot_pcie.trans (State.flashReads_pcie o)⟩
  case clocks =>
    intro a b x y z o bs k s hh hst hup
    obtain ⟨h1, h2, h3, h4, h5, h6⟩ := State.stage3_spec hup z rfl
    exact ⟨_, exec_bootStage3 hh hst, h1, h2, h3, h4, h5 k, h6⟩
  case services =>
    intro a b x y z o bs n s hh hst hp hs1 hc
    obtain ⟨hline, hrel⟩ := State.servicesUp_lines n hp hs1 hc
    refine ⟨_, exec_bootStage4 hh hst, State.rd_wr_same _ _ _ _, ?_, ?_⟩
    · rw [State.wr_relq]
      exact hline
    · rw [State.wr_dieAt]
      exact hrel
  case dies =>
    intro a b x y z o bs s hh hst hover
    exact ⟨_, exec_bootStage5 hh hst hover, (coldStage_rd _).trans (State.rd_wr_same _ _ _ _), rfl⟩
  case held =>
    intro a b x y z o bs s hh
    exact ⟨_, exec_bootStage_held hh, rfl⟩
  case rail =>
    intro n s hh hst
    exact ⟨_, exec_dieRailAbsent hh hst, State.railAbsent_spec rfl⟩
  case release =>
    intro n r s hq hst hrel
    exact ⟨_, exec_dieRelease ⟨hq, hst, hrel⟩, State.releaseBegun_spec rfl⟩
  case laidUp =>
    intro n r s hq hst hrel hrst
    obtain ⟨hrelq, hrstq, hdie, hs1, hp⟩ := State.laidUp_spec (s := s.lineLeft r) (n := n.val)
    have hnext : ((s.lineLeft r).laidUp n).nextReset = (s.lineLeft r).laidUp n := State.nextReset_none (hrstq.trans hrst)
    refine ⟨((s.lineLeft r).laidUp n).nextReset, exec_dieRelease (rail := false) ⟨hq, hst, hrel⟩, ?_⟩
    rw [hnext]
    exact ⟨hrelq, hdie, hs1, hp⟩
  case tested =>
    intro n s hrel hup hrep
    exact ⟨_, exec_selfTestDone hrel hup, State.tested_spec _ hrep⟩
  case untested =>
    intro n s hup
    exact ⟨_, exec_selfTestDone_down hup, rfl⟩
  case served =>
    intro n bs s hrel hq
    exact ⟨_, exec_dieReleaseDone bs hrel, State.releaseDone_spec _ bs hq rfl⟩
  case failed =>
    intro n c s hrel hq
    obtain ⟨hdie, herr, hs⟩ := State.startFail_spec (n := n.val) (c := c.val + 1) (by omega) hq
    refine ⟨_, exec_dieStartFail hrel, hdie, herr, hs.trans ?_⟩
    clear hdie herr hs
    revert c
    decide
  case suppressed =>
    intro u r o l s ha hst hp hno
    refine ⟨_, exec_cfgAutoload ha hst hp, ?_⟩
    rw [if_pos hno]
    exact ⟨rfl, State.rd_wr_same _ _ _ _, rfl, (SameFields.refl s _).wr (by simp) 4⟩
  case short =>
    intro u r o l s ha hst hp hno h1 h256
    refine ⟨_, exec_cfgAutoload ha hst hp, ?_⟩
    rw [if_neg (by rw [hno]; decide)]
    exact State.shortAutoload_spec (Nat.ne_of_gt h1) h256 rfl

/-! PROOFS. Resets of the device, rails, telemetry and the hours of life (R251, R415 to R417, R420, R504, R507, R525 to
R527). -/

/-! ## Resets of the package (R415, R420) -/

section
variable {s t : State} {n h : Nat}

theorem State.healthAgain_part {p : Part} (hp : [Part.regs, .health].contains p = false) (hr : p ≠ .regs) : p.same s s.healthAgain :=
  State.healthAgain_keeps (Keeps.part hp hr s) s (Part.same_refl _ _)

/-- A package reset leaves every other part as the strip left it. -/
theorem State.packageReset_part {p : Part} (hp : [Part.regs, .health, .out].contains p = false) (hr : p ≠ .regs) :
    p.same (s.stripped h) (s.packageReset h) := by
  have hk : Keeps [.regs, .health, .out] .all (fun u => p.same (s.stripped h) u) := Keeps.part hp hr _
  rw [State.packageReset_eq]
  exact State.emit_keeps hk.sub _ _ (State.healthAgain_keeps hk.sub _ (State.levelsUsed_keeps hk.sub _ (Part.same_refl _ _)))

/-- The cause of a package reset is recorded; the device is held as given and begins at stage 0. -/
theorem State.packageReset_cause {f : Fld} (hf : f ≠ .BOOT_STAT_STAGE) (hw : f.spec.width = 1) :
    ((s.packageReset h).cause f).hold = h ∧ ((s.packageReset h).cause f).rd f [] = 1 ∧
      ((s.packageReset h).cause f).rd .BOOT_STAT_STAGE [] = 0 := by
  refine ⟨(State.cause_hold _ _).trans (State.packageReset_hold _ _), ?_, ?_⟩
  · exact (State.rd_wr_same _ _ _ _).trans (by rw [hw]; rfl)
  · refine (State.rd_wr_fld _ _ _ _ _ _ hf).trans ((State.packageReset_rd s h rfl rfl []).trans ?_)
    rw [State.stripped_rd, if_pos (by decide)]
    rfl

/-- Power-on reset returns every field that no fuse holds, but for the stage of service computed again. -/
theorem State.powerOn_rd {f : Fld} (hf : f.fused = false) (hstage : f ≠ .MGMT_HEALTH_STAGE) (i : List Nat) :
    s.powerOn.rd f i = f.reset i := by
  have hbare : s.powerOn.rd f i = (s.bare fun _ _ => false).rd f i := State.healthAgain_rd _ (by simp [hasFld, hstage])
  have hregs : (s.bare fun _ _ => false).rd f i = (s.clearRegs fun f _ => !f.fused && !false).rd f i := rfl
  rw [hbare, hregs, State.rd_clearRegs, if_pos (by simp [hf])]

/-! ## Commands after an unlock (R416) -/

theorem State.rstCmd_runs {w : Writer} (hm : s.mute w = false) (hw : s.rstWriter w = true) (hu : s.unlocked = true) (v : Nat)
    (k : State → State) : s.rstCmd w v k = k { s with rstUnlock := none } := by
  unfold State.rstCmd
  rw [if_neg (by simp [hm])]
  exact if_pos (by rw [hw, hu]; rfl)

theorem State.rstCmd_locked {w : Writer} (hm : s.mute w = false) (hu : s.unlocked = false) (v : Nat) (k : State → State) :
    s.rstCmd w v k = ({ s with rstUnlock := none } : State).drop w .RST_CMD [] v := by
  unfold State.rstCmd
  rw [if_neg (by simp [hm])]
  exact if_neg (by rw [hu, Bool.and_false]; decide)

/-- The unlock is over. -/
noncomputable def State.locked (s : State) : State := { s with rstUnlock := none }

theorem State.lockedDrop_sameFields (w : Writer) (r : Reg) (v : Nat) : SameFields s (s.locked.drop w r [] v) [] :=
  ((SameFields.refl s []).of_rd (t := s.locked) fun _ _ => rfl).of_rd fun f i => (State.drop_sameFields _ w r [] v) f i (by simp)

theorem State.drop_part {p : Part} (hp : [Part.stewards].contains p = false) (hr : p ≠ .regs) (w : Writer) (r : Reg) (i : List Nat) (v : Nat) :
    p.same s (s.drop w r i v) :=
  State.drop_keeps (Keeps.part hp hr s) s w r i v (Part.same_refl _ _)

/-! ## Hub warm reset (R417) -/

/-- Before the registers of the hub return: caches flushed, rings stopped, releases begun anew, spokes down. -/
noncomputable def State.hubStopped (s : State) : State :=
  (List.range 8).foldl (fun s n => s.linkDown (8 + n)) (s.windowsFlush.ringsStop).releasesAgain

/-- The state of the hub's blocks that a warm reset returns. -/
noncomputable def State.hubCleared (s : State) : State :=
  { s with
    qps := [], rot := [], vecs := [], mail := [], cfgWait := [], pcie := [], sessions := [], lastSes := 0, cfgMeas := 0
    flashOp := none, helm := [], helmL1 := [], helmL2 := [], flashC := [], rstUnlock := none, auto := none
    rtq := offDie s.rtq 8, rtPend := offDie s.rtPend 8, ni := offDie s.ni 8, bearings := offDie s.bearings 8, drainT := offDie s.drainT 8
    arbs := smKeep s.arbs (fun i => !(i.take 2 == [0, 8])), govs := smKeep s.govs (fun i => i ≠ [8])
    gkDir := offDie s.gkDir 8, gkPool := offDie s.gkPool 8
    fixq := [], hubDown := true, rebaseDue := false
    sxq := s.sxKept, txq := [], residences := [], rxStamp := [], sxDiscard := [], sxMeas := []
    ppsEnd := none, stewards := smKeep s.stewards (fun i => i ≠ [8])
    relq := [], rstq := [], warm := true, warmT := some s.now }

theorem State.hubCleared_rd (f : Fld) (i : List Nat) : s.hubCleared.rd f i = s.rd f i := State.rd_of_regs rfl f i

theorem State.hubCleared_flash : s.hubCleared.flash = s.flash := rfl

theorem State.hubReset_eq : s.hubReset = ((s.hubStopped.clearRegs hubClears).hubCleared.wr .PWR_HUB_STAT_DOMAINS [] 7).stage2 := rfl

theorem State.hubStopped_flash : s.hubStopped.flash = s.flash := by
  have hk : Keeps (.gkLink :: .gkDir :: .gkPool :: .dieRt :: .hbm :: .poison :: .rcLines :: .sf :: opPartsRingsStop) .all
      (fun u => u.flash = s.flash) := Keeps.part (p := .flash) (by decide) (by decide) s
  have hagain : (s.windowsFlush.ringsStop).releasesAgain.flash = s.flash :=
    State.releasesAgain_keeps hk.sub _ (State.ringsStop_keeps hk.sub _ (State.windowsFlush_keeps hk.sub _ rfl))
  unfold State.hubStopped
  generalize (s.windowsFlush.ringsStop).releasesAgain = u at hagain
  generalize List.range 8 = l
  exact rel_foldl (R := fun u => u.flash = s.flash) (f := fun s n => s.linkDown (8 + n))
    (fun u n hu => State.linkDown_keeps hk.sub u _ hu) l hagain

theorem State.clearRegs_flash (p : Fld → List Nat → Bool) : (s.clearRegs p).flash = s.flash := rfl

theorem State.stage2_part {p : Part} (hp : [Part.regs, .out, .flashMode, .stage2T].contains p = false) (hr : p ≠ .regs) :
    p.same s s.stage2 :=
  State.stage2_keeps (Keeps.part hp hr s) s (Part.same_refl _ _)

/-- What a hub warm reset leaves, whatever its cause. -/
theorem State.hubReset_spec : s.hubReset.rd .BOOT_STAT_STAGE [] = 2 ∧ s.hubReset.warm = true ∧ s.hubReset.qps = [] ∧
    s.hubReset.helm = [] ∧ (∀ c : Fin 8, s.hubReset.coreState c = 0) ∧ s.hubReset.flash = s.flash := by
  rw [State.hubReset_eq]
  generalize hu : s.hubStopped.clearRegs hubClears = u
  have hflash : u.flash = s.flash := by rw [← hu, State.clearRegs_flash, State.hubStopped_flash]
  have hcore : ∀ c : Fin 8, u.rd .HELM_CORE_STAT_STATE [c] = 0 := by
    intro c
    rw [← hu, State.rd_clearRegs, if_pos (by revert c; decide)]
    rfl
  generalize hv : u.hubCleared.wr .PWR_HUB_STAT_DOMAINS [] 7 = v
  refine ⟨State.stage2_stage, ?_, ?_, ?_, fun c => ?_, ?_⟩
  · exact (State.stage2_part (p := .warm) (by decide) (by decide)).trans (by rw [← hv]; rfl)
  · exact (State.stage2_part (p := .qps) (by decide) (by decide)).trans (by rw [← hv]; rfl)
  · exact (State.stage2_part (p := .helm) (by decide) (by decide)).trans (by rw [← hv]; rfl)
  · refine (State.stage2_rd _ rfl).trans ?_
    rw [← hv, State.rd_wr_fld _ _ _ _ _ _ (by decide), State.hubCleared_rd, hcore]
  · exact (State.stage2_part (p := .flash) (by decide) (by decide)).trans (by rw [← hv, State.wr_flash, State.hubCleared_flash, hflash])

/-- The cause of a hub warm reset is recorded over what it leaves. -/
theorem State.hubReset_cause {f : Fld} (hf : f ≠ .BOOT_STAT_STAGE) (hw : f.spec.width = 1) :
    (s.hubReset.cause f).rd .BOOT_STAT_STAGE [] = 2 ∧ (s.hubReset.cause f).rd f [] = 1 := by
  obtain ⟨hstage, -⟩ := State.hubReset_spec (s := s)
  exact ⟨(State.rd_wr_fld _ _ _ _ _ _ hf).trans hstage, (State.rd_wr_same _ _ _ _).trans (by rw [hw]; rfl)⟩

theorem State.hubReset_commanded : (s.hubReset.cause .RST_CAUSE_SW_HUB).warm = true ∧ (s.hubReset.cause .RST_CAUSE_SW_HUB).qps = [] ∧
    (s.hubReset.cause .RST_CAUSE_SW_HUB).helm = [] ∧ (∀ c : Fin 8, (s.hubReset.cause .RST_CAUSE_SW_HUB).coreState c = 0) ∧
    (s.hubReset.cause .RST_CAUSE_SW_HUB).flash = s.flash := by
  obtain ⟨-, hwarm, hqps, hhelm, hcores, hflash⟩ := State.hubReset_spec (s := s)
  generalize s.hubReset = u at hwarm hqps hhelm hcores hflash
  exact ⟨hwarm, hqps, hhelm, fun c => (State.rd_wr_fld _ _ _ _ _ _ (by decide)).trans (hcores c), hflash⟩

/-! ## Rails (R526) -/

/-- The requests of a pseudo-channel that lose their data are answered with status 6. -/
noncomputable def State.railAnswers (s : State) (st c : Nat) : State :=
  (((s.pc st c).inflight ++ (s.pc st c).rq).foldl (fun s q => s.respond st (s.hbmChannel st q.a) q 6 q.allOnes) s).setPc st c {}

theorem State.railStack_eq {st : Nat} : s.railStack st = ((((((List.range 32).foldl (fun s c => s.railAnswers st c) s).wr
    .HBM_CTL_EN [st] 0).stackLost st).homeGone st).sweepSleep st).raise .HBM_CTL [st] 526 3 [st] := rfl

theorem State.stackLost_content {st : Nat} : (s.stackLost st).rd .HBM_STAT_CONTENT [st] = 0 := State.rd_wr_same _ _ _ _

/-- A stack whose rail fails is disabled and holds nothing. -/
theorem State.railStack_spec {st : Nat} : (s.railStack st).rd .HBM_CTL_EN [st] = 0 ∧ (s.railStack st).rd .HBM_STAT_CONTENT [st] = 0 := by
  rw [State.railStack_eq, State.raise_rd _ _ _ _ _ _ rfl, State.raise_rd _ _ _ _ _ _ rfl, State.sweepSleep_rd _ _ rfl,
    State.sweepSleep_rd _ _ rfl, State.homeGone_rd _ _ rfl, State.homeGone_rd _ _ rfl, State.stackLost_content,
    State.stackLost_rd _ _ rfl]
  exact ⟨State.rd_wr_same _ _ _ _, rfl⟩

theorem State.bankRail_spec {k : Nat} {u : Bool} : smGet (s.bankRail n k u).ioOff [n, k] false = !u ∧
    SameFields s (s.bankRail n k u) [] ∧ (s.bankRail n k u).sec = s.sec := by
  refine ⟨?_, (SameFields.refl s _).of_rd fun f i => State.bankRail_rd s n k u (by rfl), ?_⟩
  · unfold State.bankRail
    dsimp only
    split <;> exact smGet_smPut_same s.ioOff [n, k] (!u) false
  · exact State.bankRail_keeps (Keeps.part (p := .sec) (by decide) (by decide) s) s n k u rfl

/-! ## Telemetry (R504, R507, R527) -/

theorem State.setLife_with (x : LifeRt) : (s.setLife n x).life n = x := by
  rw [State.setLife_life, if_pos rfl]

/-- What a reading records at a site, armed or not. -/
theorem State.sampled_spec {x mv amp : Nat} (hx : x < 2 ^ 8) (hmv : mv < 2 ^ 12) (hamp : amp < 2 ^ 10) :
    (s.sampled n x mv amp).rd .TEL_STAT_TEMP [n] = x ∧ (s.sampled n x mv amp).rd .TEL_STAT_VCORE [n] = mv ∧
    (s.sampled n x mv amp).rd .TEL_STAT_ICORE [n] = amp ∧
    ∃ b, (s.sampled n x mv amp).life n = { (s.life n).reading x with armed := b } := by
  have hwt : (Fld.spec .TEL_STAT_TEMP).width = 8 := rfl
  have hwv : (Fld.spec .TEL_STAT_VCORE).width = 12 := rfl
  have hwi : (Fld.spec .TEL_STAT_ICORE).width = 10 := rfl
  have hrd : ∀ {f : Fld}, f ≠ .TEL_STAT_TWARN_HIT → (s.sampled n x mv amp).rd f [n] = (s.telStat n x mv amp).rd f [n] := by
    intro f hf
    unfold State.sampled
    dsimp only
    split
    · rw [State.raiseFixed_rd _ _ _ _ _ _ (by rfl), State.rd_wr_fld _ _ _ _ _ _ hf.symm, State.setLife_rd _ _ _ (by rfl)]
    · exact State.setLife_rd _ _ _ (by rfl)
  refine ⟨?_, ?_, ?_, ?_⟩
  · rw [hrd (by decide), State.telStat]
    simp (disch := decide) only [State.rd_wr_fld, State.rd_wr_same]
    rw [hwt, Nat.mod_eq_of_lt hx]
  · rw [hrd (by decide), State.telStat]
    simp (disch := decide) only [State.rd_wr_fld, State.rd_wr_same]
    rw [hwv, Nat.mod_eq_of_lt hmv]
  · rw [hrd (by decide), State.telStat]
    simp (disch := decide) only [State.rd_wr_same]
    rw [hwi, Nat.mod_eq_of_lt hamp]
  · unfold State.sampled
    dsimp only
    split
    · exact ⟨false, by rw [State.raiseFixed_life, State.wr_life, State.setLife_with]⟩
    · rw [State.setLife_with]
      split
      · exact ⟨true, rfl⟩
      · exact ⟨((s.life n).reading x).armed, rfl⟩

theorem State.sampled_dieState {x mv amp : Nat} (i : List Nat) :
    (s.sampled n x mv amp).rd .HUB_DIE_STATE_STATE i = s.rd .HUB_DIE_STATE_STATE i := by
  unfold State.sampled State.telStat
  dsimp only
  split
  · rw [State.raiseFixed_rd _ _ _ _ _ _ rfl, State.rd_wr_fld _ _ _ _ _ _ (by decide), State.setLife_rd _ _ _ rfl]
    simp (disch := decide) only [State.rd_wr_fld]
  · rw [State.setLife_rd _ _ _ rfl]
    simp (disch := decide) only [State.rd_wr_fld]

/-- The second reading of the hub in succession at 110 °C or more trips the device (R527). -/
theorem exec_telemetrySample_hubTrips {x : BitVec 8} (v : BitVec 12) (a : BitVec 10) (hhold : s.hold = 0) (hx : 110 ≤ x.toNat)
    (hsecond : 1 ≤ (s.life 8).hot) :
    exec (.telemetrySample 8 x v a) s = .next (s.sampled 8 x.toNat v.toNat a.toNat).thermalTrip := by
  have hhot : ((s.life 8).reading x.toNat).hot = (s.life 8).hot + 1 := if_pos hx
  change execTelemetrySample 8 x v a s = _
  unfold execTelemetrySample
  refine (if_neg (by simp [hhold, State.stewardRuns])).trans (if_pos (.inl ⟨rfl, ?_⟩))
  change 2 ≤ ((s.life 8).reading x.toNat).hot
  omega

/-- The second reading of a die in succession at 110 °C or more, below 118 °C, takes it out of service (R527). -/
theorem exec_telemetrySample_loses {m : Fin 9} {x : BitVec 8} (v : BitVec 12) (a : BitVec 10) (hhold : s.hold = 0) (hdie : m.val < 8)
    (hst : s.rd .HUB_DIE_STATE_STATE [m] = 3) (hx : 110 ≤ x.toNat) (hlow : x.toNat < 118) (hsecond : 1 ≤ (s.life m).hot) :
    exec (.telemetrySample m x v a) s = .next ((((s.sampled m x.toNat v.toNat a.toNat).raise .PWR_DIE_CTL [m.val] 527 3
      [m.val, x.toNat]).dieLost m 6 true).nextReset) := by
  have hhot : ((s.life m).reading x.toNat).hot = (s.life m).hot + 1 := if_pos hx
  have hhotter : ((s.life m).reading x.toNat).hotter = 0 := if_neg (by omega)
  have hrun : s.stewardRuns m = true := by simp [State.stewardRuns, hst]
  have hst' := (State.sampled_dieState (s := s) (n := m) (x := x.toNat) (mv := v.toNat) (amp := a.toNat) [m.val]).trans hst
  change execTelemetrySample m x v a s = _
  unfold execTelemetrySample
  refine (if_neg (by simp [hhold, hrun])).trans ((if_neg ?_).trans (if_pos ⟨hdie, ?_, .inr hst'⟩))
  · change ¬ (m.val = 8 ∧ _ ∨ m.val < 8 ∧ 2 ≤ ((s.life m).reading x.toNat).hotter)
    omega
  · change 2 ≤ ((s.life m).reading x.toNat).hot
    omega

/-- The life data of a site after an hour. -/
noncomputable def LifeRt.hour (x : LifeRt) (due : Nat) : LifeRt :=
  { x with
    top := 0, due := due, hours := x.hours.set (lifeBin x.top) (x.hours.getD (lifeBin x.top) 0 + 1)
    tenths := x.tenths + lifeWeight (lifeBin x.top) }

/-- The end of an hour, before the notice that a whole tenth of the life is used up may be given. -/
noncomputable def State.hourEnds (s : State) (n : Nat) (x : LifeRt) : State := (s.setLife n (x.hour (s.now + 3600000000000))).lifeLoad n

theorem State.hourEnds_spec (x : LifeRt) : (s.hourEnds n x).life n = x.hour (s.now + 3600000000000) ∧ (s.hourEnds n x).now = s.now := by
  unfold State.hourEnds
  generalize hu : s.setLife n (x.hour (s.now + 3600000000000)) = u
  have htele : (u.lifeLoad n).tele = u.tele := State.lifeLoad_keeps (Keeps.part (p := .tele) rfl (by decide) u) u n rfl
  have hnow : (u.lifeLoad n).now = u.now := State.lifeLoad_keeps (Keeps.part (p := .now) rfl (by decide) u) u n rfl
  refine ⟨?_, hnow.trans (by rw [← hu]; rfl)⟩
  unfold State.life
  rw [htele, ← hu]
  exact State.setLife_with _

/-- An hour that ends leaves its life data, with a notice or without. -/
theorem exec_lifeHoursUpdate {m : Fin 9} (hrun : s.stewardRuns m = true) : ∃ t, exec (.lifeHoursUpdate m) s = .next t ∧
    t.life m = (s.life m).hour ((s.lapseTo (s.life m).due).now + 3600000000000) ∧ t.now = (s.lapseTo (s.life m).due).now := by
  have hexec : exec (.lifeHoursUpdate m) s = .next
      (if lifeTenths (s.life m).tenths < lifeTenths ((s.life m).hour 0).tenths then
        ((s.lapseTo (s.life m).due).hourEnds m (s.life m)).notice .TEL_CTL [m] 0x1050 m (lifeLeft ((s.life m).hour 0).tenths) 0 none
      else (s.lapseTo (s.life m).due).hourEnds m (s.life m)) := by
    change execLifeHoursUpdate m s = _
    exact if_pos hrun
  obtain ⟨hlife, hnow⟩ := State.hourEnds_spec (s := s.lapseTo (s.life m).due) (n := m) (s.life m)
  rw [hexec]
  generalize (s.lapseTo (s.life m).due).hourEnds m (s.life m) = u at hlife hnow
  split
  · generalize lifeLeft ((s.life m).hour 0).tenths = left
    refine ⟨_, rfl, ?_, ?_⟩
    · refine Eq.trans ?_ hlife
      exact congrArg (fun t : SMap LifeRt => smGet t [m.val] {}) (State.notice_keeps (R := fun w => w.tele = u.tele)
        (Keeps.part (p := .tele) (by decide) (by decide) u) u .TEL_CTL [m] 0x1050 m left 0 none rfl)
    · exact (State.notice_keeps (R := fun w => w.now = u.now) (Keeps.part (p := .now) (by decide) (by decide) u) u .TEL_CTL [m] 0x1050
        m left 0 none rfl).trans hnow
  · exact ⟨u, rfl, hlife, hnow⟩

/-- The device leaves reset, or a trip ends. -/
theorem State.leaveReset_spec : s.leaveReset.hold = 0 ∧ s.leaveReset.out = .pin 31 1 :: s.out ∧ s.leaveReset.now = s.now ∧
    SameFields s s.leaveReset [] := by
  unfold State.leaveReset
  refine ⟨State.emit_hold _ _, State.emit_out _ _ rfl, ?_, (SameFields.refl s _).of_rd fun f i => State.leaveReset_rd s (by rfl)⟩
  exact State.emit_keeps (Keeps.part (p := .now) rfl (by decide) s) _ _ rfl

end

/-- Settles O53, by the kind of reset, the rail and the reading. -/
theorem resetsRailsAndTelemetryReachTheWholeDevice : Obligations.ResetsRailsAndTelemetryReachTheWholeDevice := by
  unfold Obligations.ResetsRailsAndTelemetryReachTheWholeDevice
  refine ⟨?powerOn, ?pin, ?command, ?commandLocked, ?release, ?testHeld, ?pinRises, ?unlock, ?wrongKey, ?hubCommand, ?hubAgain,
    ?lockstep, ?monitored, ?core, ?hbm, ?io, ?sample, ?hubTrip, ?dieTrip, ?tripEnds, ?tripStays, ?hour⟩
  case powerOn =>
    intro s
    refine ⟨s.powerOn, rfl, ?_, ?_, ?_, ?_, ?_, ?_, ?_, ?_, fun f i hf hs => State.powerOn_rd hf hs i⟩
    · exact State.healthAgain_part (p := .hold) rfl (by decide)
    · exact State.healthAgain_part (p := .clocksUp) rfl (by decide)
    · exact State.healthAgain_part (p := .flash) rfl (by decide)
    · exact State.healthAgain_part (p := .journal) rfl (by decide)
    · exact State.healthAgain_part (p := .lsFuse) rfl (by decide)
    · exact State.healthAgain_part (p := .hbm) rfl (by decide)
    · exact State.healthAgain_part (p := .qps) rfl (by decide)
    · exact State.healthAgain_part (p := .eng) rfl (by decide)
  case pin =>
    intro s
    obtain ⟨hhold, hcause, hstage⟩ := State.packageReset_cause (s := s) (h := 2) (f := .RST_CAUSE_PIN) (by decide) rfl
    refine ⟨_, rfl, hhold, hcause, ?_, ?_, hstage, ?_, fun n => ?_⟩
    · exact State.packageReset_part (p := .clocksUp) rfl (by decide)
    · exact s.packageReset_flash 2
    · exact State.packageReset_part (p := .qps) rfl (by decide)
    · refine (State.rd_wr_fld _ _ _ _ _ _ (by decide)).trans ((State.packageReset_rd s 2 rfl rfl _).trans ?_)
      rw [State.stripped_rd, if_pos (by decide)]
      rfl
  case command =>
    intro w s hm hw hu
    exact ⟨_, congrArg Host.Outcome.next (State.rstCmd_runs hm hw hu _ _), State.packageReset_cause (by decide) rfl⟩
  case commandLocked =>
    intro w s hm hu
    refine ⟨s.locked.drop w .RST_CMD [] 2, congrArg Host.Outcome.next (State.rstCmd_locked hm hu _ _),
      State.lockedDrop_sameFields w _ _, ?_, ?_⟩
    · exact State.drop_part (p := .hold) (s := s.locked) (by decide) (by decide) w _ _ _
    · exact State.drop_part (p := .qps) (s := s.locked) (by decide) (by decide) w _ _ _
  case release =>
    intro r s hh
    obtain ⟨hhold, hout, hnow, hsame⟩ := State.leaveReset_spec (s := (s.lapse 10000000).wr .CLK_SRC_REF_SEL [] r.toNat)
    have hw : (Fld.spec .CLK_SRC_REF_SEL).width = 1 := rfl
    refine ⟨_, if_pos hh, hhold, hnow, ?_, hout, ?_⟩
    · rw [hsame _ _ (by simp), State.rd_wr_same, hw]
      cases r <;> rfl
    · exact ((((SameFields.refl s _).of_rd (t := s.lapse 10000000) fun _ _ => rfl).wr (by simp) r.toNat)).of_rd
        fun f i => hsame f i (by simp)
  case testHeld =>
    intro r s hh
    exact ⟨_, if_pos hh, hh, rfl, (SameFields.refl s _).of_rd fun _ _ => rfl⟩
  case pinRises =>
    intro r e s hh
    obtain ⟨hhold, hout, hnow, hsame⟩ := State.leaveReset_spec (s := s)
    exact ⟨_, (if_neg (by rw [hh]; decide)).trans (if_pos hh), hhold, hnow, hout, hsame⟩
  case unlock =>
    intro w s hm hw
    refine ⟨_, (if_neg (by simp [hm])).trans (if_pos ⟨hw, rfl⟩), rfl, ?_, (SameFields.refl s _).of_rd fun _ _ => rfl⟩
    exact decide_eq_true (Nat.le_add_right s.now 100000)
  case wrongKey =>
    intro w k s hm hk
    have hk' : k.toNat ≠ 0xC3A5 := fun h => hk (BitVec.eq_of_toNat_eq h)
    refine ⟨s.locked.drop w .RST_UNLOCK [] k.toNat, (if_neg (by simp [hm])).trans (if_neg fun h => hk' h.2), ?_,
      State.lockedDrop_sameFields w _ _⟩
    exact State.drop_part (p := .rstUnlock) (s := s.locked) (by decide) (by decide) w _ _ _
  case hubCommand =>
    intro w s hm hw hu
    obtain ⟨hstage, hcause⟩ := State.hubReset_cause (s := s.locked) (f := .RST_CAUSE_SW_HUB) (by decide) rfl
    exact ⟨_, congrArg Host.Outcome.next (State.rstCmd_runs hm hw hu _ _), hstage, hcause, State.hubReset_commanded⟩
  case hubAgain =>
    intro s hagain
    exact ⟨_, if_pos hagain, (State.packageReset_cause (by decide) rfl).2⟩
  case lockstep =>
    intro s hagain
    obtain ⟨hstage, hcause⟩ := State.hubReset_cause (s := s) (f := .RST_CAUSE_BIN_LOCKSTEP) (by decide) rfl
    exact ⟨_, if_neg (by simp [hagain]), hcause, hstage⟩
  case monitored =>
    intro s
    exact ⟨s.powerOn, rfl, State.healthAgain_part (p := .hold) rfl (by decide), State.powerOn_rd rfl (by decide) []⟩
  case core =>
    intro n s hup
    obtain ⟨hst, hlost, hcause, -⟩ := State.nextReset_isLost
      (State.dieLost_isLost (s := s.raise .PWR_DIE_CTL [n.val] 526 3 [n.val]) (n := n.val) (cause := 5) (keep := false) (by decide))
    exact ⟨_, if_pos hup, hst, hlost, hcause⟩
  case hbm =>
    intro st s htrain hcontent
    exact ⟨_, (if_neg htrain).trans (if_pos hcontent), State.railStack_spec⟩
  case io =>
    intro n k u s
    exact ⟨_, rfl, State.bankRail_spec⟩
  case sample =>
    intro n x v a s hhold hrun hx
    obtain ⟨htemp, hv, ha, b, hlife⟩ := State.sampled_spec (s := s) (n := n) x.isLt v.isLt a.isLt
    refine ⟨_, exec_telemetrySample_below v a hhold hrun hx, htemp, hv, ha, ?_, ?_, ?_⟩ <;> rw [hlife]
    · rfl
    · rfl
    · exact if_neg (by omega)
  case hubTrip =>
    intro x v a s hhold hx hsecond
    exact ⟨_, exec_telemetrySample_hubTrips v a hhold hx hsecond, State.thermalTrip_held _⟩
  case dieTrip =>
    intro n x v a s hhold hup hx hlow hsecond
    have hst : s.rd .HUB_DIE_STATE_STATE [n.val] = 3 := of_decide_eq_true hup
    obtain ⟨hst', -, hcause, -⟩ := State.nextReset_isLost
      (State.dieLost_isLost (s := (s.sampled n x.toNat v.toNat a.toNat).raise .PWR_DIE_CTL [n.val] 527 3 [n.val, x.toNat]) (n := n.val)
        (cause := 6) (keep := true) (by decide))
    exact ⟨_, exec_telemetrySample_loses (m := n.castLE (by decide)) v a hhold n.isLt hst hx hlow hsecond, hst', hcause⟩
  case tripEnds =>
    intro s hh hcool
    obtain ⟨hhold, hout, -, hsame⟩ := State.leaveReset_spec (s := s)
    refine ⟨_, if_pos ⟨hh, hcool⟩, (State.emit_hold _ _).trans hhold, ?_, hsame.of_rd fun f i => State.emit_rd _ _ (by rfl)⟩
    rw [State.emit_out _ _ rfl, hout]
  case tripStays =>
    intro n s hh hhot
    refine ⟨s, if_neg ?_, rfl⟩
    rintro ⟨-, hcool⟩
    have hn := of_decide_eq_true (List.all_eq_true.mp hcool n.val (List.mem_range.mpr n.isLt))
    omega
  case hour =>
    intro n s hrun
    obtain ⟨t, hexec, hlife, hnow⟩ := exec_lifeHoursUpdate hrun
    refine ⟨t, hexec, ?_, ?_, ?_, ?_⟩
    · rw [hlife]; rfl
    · rw [hlife]; rfl
    · rw [hlife]; rfl
    · rw [hnow, State.lapseTo_now]

/-! PROOFS. Ownership (R448). -/

section
variable {s : State} {n : Fin 2048} {m : Mail}

/-- The exchange at a place is taken up: its sender may, and its length is good. -/
theorem State.message_runs {code : Nat} {admin : Bool} {len : Nat → Bool} {k : Mail → State → State} (hm : s.mail[n.val]? = some m)
    (hcode : mailCode m.req = code) (hsender : (admin && !m.admin) = false) (hlen : len m.body.length = true) :
    s.message n code admin len k = k m { s with mail := s.mail.eraseIdx n } := by
  unfold State.message
  rw [hm]
  exact (if_pos hcode).trans ((if_neg (by simp [hsender])).trans (if_neg (by simp [hlen])))

/-- The message leaves its queue, and the session it came through is used. -/
noncomputable def State.ownerTakes (s : State) (n v : Nat) (x : LsSession) : State :=
  ({ s with mail := s.mail.eraseIdx n } : State).setSession v (some { x with used := s.now })

/-- A TAKE_OWNERSHIP that loses its power is a power-on reset over the fuses that it blew. -/
theorem exec_takeOwnership_cut {k : BitVec 256} {v : Nat} {x : LsSession} (hm : s.mail[n.val]? = some m)
    (hcode : mailCode m.req = 0x0107) (hadmin : m.admin = true) (hlen : ownerKeyCount m.body.length ≠ 0) (hlife : s.lifecycle = 1)
    (hown : s.ownSession m = some (v, x)) (hpart : s.partlyOwned = false) :
    exec (.takeOwnership n (some k) 2) s =
      .next ((s.ownerTakes n v x).ownerFuses m (ownerKeyCount m.body.length) k.toNat).powerOn := by
  refine congrArg Host.Outcome.next ((State.message_runs hm hcode (by simp [hadmin]) (by simpa using hlen)).trans ?_)
  have hlife' : ({ s with mail := s.mail.eraseIdx n } : State).lifecycle = 1 := hlife
  have hown' : ({ s with mail := s.mail.eraseIdx n } : State).ownSession m = some (v, x) := hown
  have hpart' : (s.ownerTakes n v x).partlyOwned = false := hpart
  dsimp only
  rw [if_neg (by simp [hlife']), hown']
  exact (if_neg (by simp [State.ownerTakes] at hpart'; simp [hpart'])).trans ((if_neg (by decide)).trans (if_neg (by decide)))

theorem State.powerOn_lsFuse : s.powerOn.lsFuse = s.lsFuse := State.healthAgain_part (p := .lsFuse) rfl (by decide)

end

/-- TAKE_OWNERSHIP by function 0 through session 0: one key, the wrapped key and the three hashes, every byte 0. -/
def zeroOwner : Mail := { src := 0, req := natLe 0x0107 8 ++ List.replicate 284 0, limit := 0, dst := 0, t := 0 }

/-- The device is SHIPPED, session 0 is function 0's, no owner fuse is blown, and the message waits. -/
noncomputable def zeroOwned : State :=
  { State.reset.wr .LS_STAT_LIFECYCLE [] 1 with mail := [zeroOwner], sessions := [([0], some { owner := 0, used := 0 })], lsFuse := [] }

/-- No fuse is blown by values of 0. -/
theorem zeroOwned_unfused : ((zeroOwned.ownerTakes 0 0 { owner := 0, used := 0 }).ownerFuses zeroOwner
    (ownerKeyCount zeroOwner.body.length) 0).lsFuse = [] := by
  decide +kernel

/-- Refutes O55: a clause says that owner fuses are found blown after a TAKE_OWNERSHIP that loses its power. A fuse word of the
value 0 has no blown fuse: where the keys, the unwrapped key and the hashes are all 0, no owner fuse is blown after it. -/
theorem not_lodestarMessagesHaveTheirEffectAndTheirReply : ¬ Obligations.LodestarMessagesHaveTheirEffectAndTheirReply := by
  unfold Obligations.LodestarMessagesHaveTheirEffectAndTheirReply
  rintro ⟨-, -, -, -, -, -, -, -, -, -, -, -, -, -, -, -, -, -, -, -, hcut, -⟩
  have hcode : mailCode zeroOwner.req = 0x0107 := by decide +kernel
  have hlen : ownerKeyCount zeroOwner.body.length ≠ 0 := by decide +kernel
  have hlife : zeroOwned.lifecycle = 1 := by decide +kernel
  have hown : zeroOwned.ownSession zeroOwner = some (0, { owner := 0, used := 0 }) := by decide +kernel
  obtain ⟨t, ht, -, hpart, -⟩ := hcut 0 0 zeroOwner 0 { owner := 0, used := 0 } zeroOwned (by decide +kernel) (by decide) hlen hlife
    hown (by decide)
  obtain rfl := Host.Outcome.next.inj ((exec_takeOwnership_cut rfl hcode (by decide) hlen hlife hown (by decide)).symm.trans ht)
  rw [State.partlyOwned, State.powerOn_lsFuse] at hpart
  have hnone := zeroOwned_unfused
  exact absurd (hpart.symm.trans (congrArg (fun l : SMap Nat => l.any fun e => [1, 3, 4].contains (e.1.headD 0)) hnone)) (by decide)

/-! PROOFS. The random generator and debug authorisation (R447, R449 to R453, R458, R493). -/

/-! ## Challenges (R447, R450) -/

section
variable {s : State} {p q : Nat}

theorem State.draw_pelRt (w : Nat) : (s.draw w).2.pelRt p = s.pelRt p := rfl

theorem State.giveChallenge_eq : s.giveChallenge p = ((s.draw 384).2.setPel p { (s.draw 384).2.pelRt p with
    want := false, chal := some (s.draw 384).1, toRead := natLe (s.draw 384).1 48, sent := [] }).wr .PEL_AUTH_STAT_BUSY [p] 0 := rfl

theorem State.wr_pelRt (f : Fld) (i : List Nat) (v : Nat) : (s.wr f i v).pelRt p = s.pelRt p := rfl

/-- A challenge of 48 bytes waits to be read on its path; the bytes submitted before are gone. -/
theorem State.giveChallenge_path : ((s.giveChallenge p).pelRt p).want = false ∧ ((s.giveChallenge p).pelRt p).toRead.length = 48 ∧
    ((s.giveChallenge p).pelRt p).chal.isSome = true ∧ ((s.giveChallenge p).pelRt p).sent = [] ∧
    (s.giveChallenge p).rd .PEL_AUTH_STAT_BUSY [p] = 0 := by
  rw [State.giveChallenge_eq, State.wr_pelRt, State.setPel_pelRt, if_pos rfl]
  exact ⟨rfl, natLe_length _ _, rfl, rfl, State.rd_wr_same _ _ _ _⟩

theorem State.giveChallenge_other (h : p ≠ q) : (s.giveChallenge p).pelRt q = s.pelRt q := by
  rw [State.giveChallenge_eq, State.wr_pelRt, State.setPel_pelRt, if_neg (by omega), State.draw_pelRt]

theorem State.giveChallenge_busy (h : p ≠ q) : (s.giveChallenge p).rd .PEL_AUTH_STAT_BUSY [q] = s.rd .PEL_AUTH_STAT_BUSY [q] := by
  rw [State.giveChallenge_eq, State.rd_wr_ne (l := []) (by simpa using fun h' => h h'.symm)]
  rfl

/-- The challenge of a path is made, if it waits for one. -/
def State.challengeDue (s : State) (p : Nat) : State := if (s.pelRt p).want then s.giveChallenge p else s

/-- What holds of a path once the generator gives output: no challenge waits, and one that waited before stands. -/
def challenged (s t : State) (p : Nat) : Prop :=
  (t.pelRt p).want = false ∧ ((s.pelRt p).want = true → (t.pelRt p).toRead.length = 48 ∧ t.rd .PEL_AUTH_STAT_BUSY [p] = 0)

theorem State.challengeDue_path : challenged s (s.challengeDue p) p := by
  unfold State.challengeDue
  split
  next hwant =>
    obtain ⟨hwant', hread, -, -, hbusy⟩ := State.giveChallenge_path (s := s) (p := p)
    exact ⟨hwant', fun _ => ⟨hread, hbusy⟩⟩
  next hwant => exact ⟨by simpa using hwant, fun h => absurd h hwant⟩

theorem State.challengeDue_other (h : p ≠ q) : (s.challengeDue p).pelRt q = s.pelRt q ∧
    (s.challengeDue p).rd .PEL_AUTH_STAT_BUSY [q] = s.rd .PEL_AUTH_STAT_BUSY [q] := by
  unfold State.challengeDue
  split
  · exact ⟨State.giveChallenge_other h, State.giveChallenge_busy h⟩
  · exact ⟨rfl, rfl⟩

/-- The challenges that wait on the two paths are made. -/
def State.challengesDue (s : State) : State := (s.challengeDue 0).challengeDue 1

theorem State.challengesDue_paths (p : Fin 2) : challenged s s.challengesDue p := by
  obtain ⟨hrt, hbusy⟩ := State.challengeDue_other (s := s.challengeDue 0) (p := 1) (q := 0) (by decide)
  obtain ⟨hrt', -⟩ := State.challengeDue_other (s := s) (p := 0) (q := 1) (by decide)
  match p with
  | 0 =>
    obtain ⟨hwant, hdone⟩ := State.challengeDue_path (s := s) (p := 0)
    refine ⟨(congrArg PelRt.want hrt).trans hwant, fun h => ?_⟩
    obtain ⟨hread, hclear⟩ := hdone h
    exact ⟨(congrArg (fun x : PelRt => x.toRead.length) hrt).trans hread, hbusy.trans hclear⟩
  | 1 =>
    obtain ⟨hwant, hdone⟩ := State.challengeDue_path (s := s.challengeDue 0) (p := 1)
    exact ⟨hwant, fun h => hdone ((congrArg PelRt.want hrt').trans h)⟩

theorem State.challengeDue_field {f : Fld} (hf : hasFld ⟨[.PEL_AUTH_STAT_BUSY], [], [], false⟩ f = false) (i : List Nat) :
    (s.challengeDue p).rd f i = s.rd f i := by
  unfold State.challengeDue
  split
  · exact State.giveChallenge_rd _ _ hf
  · rfl

theorem State.challengeDue_part {π : Part} (hp : [Part.regs, .draws, .pel].contains π = false) (hr : π ≠ .regs) :
    π.same s (s.challengeDue p) := by
  unfold State.challengeDue
  split
  · exact State.giveChallenge_keeps (Keeps.part hp hr s) s p (Part.same_refl _ _)
  · exact π.same_refl s

/-- The generator's health, and since when it gives no output. -/
noncomputable def State.trngSet (s : State) (ok : Nat) (since : Option Nat) : State :=
  { s.wr .LS_STAT_TRNG_OK [] ok with trngT := since, trngSaid := false }

theorem State.trngSet_ok (ok : Nat) (since : Option Nat) : (s.trngSet ok since).rd .LS_STAT_TRNG_OK [] = ok % 2 :=
  State.rd_wr_same s .LS_STAT_TRNG_OK [] ok

theorem exec_trngHealthRecover (h : s.trngT.isSome = true) : exec .trngHealthRecover s = .next (s.trngSet 1 none).challengesDue := if_pos h

/-! ## First errors (R458) -/

theorem State.lsErr_part {π : Part} (hp : [Part.regs, .stewards].contains π = false) (hr : π ≠ .regs) (code source : Nat) :
    π.same s (s.lsErr code source) :=
  State.lsErr_keeps (Keeps.part hp hr s) s code source (Part.same_refl _ _)

/-- A first error is recorded with its code and its source. -/
theorem State.lsErr_first {code source : Nat} (hfirst : s.on .LS_ERR_VALID [] = false) (hc : code < 16) (hs : source < 8) :
    (s.lsErr code source).on .LS_ERR_VALID [] = true ∧ (s.lsErr code source).rd .LS_ERR_CODE [] = code ∧
    (s.lsErr code source).rd .LS_ERR_SOURCE [] = source := by
  have hwc : (Fld.spec .LS_ERR_CODE).width = 4 := rfl
  have hws : (Fld.spec .LS_ERR_SOURCE).width = 3 := rfl
  have hrd : ∀ f, (s.lsErr code source).rd f [] =
      (((s.wr .LS_ERR_CODE [] code).wr .LS_ERR_SOURCE [] source).wr .LS_ERR_VALID [] 1).rd f [] := by
    intro f
    unfold State.lsErr
    dsimp only
    rw [State.raise_rd _ _ _ _ _ _ (by rfl), hfirst]
    rfl
  refine ⟨?_, ?_, ?_⟩
  · rw [State.on, hrd, State.rd_wr_same]
    rfl
  · rw [hrd]
    simp (disch := decide) only [State.rd_wr_fld, State.rd_wr_same]
    rw [hwc]
    exact Nat.mod_eq_of_lt hc
  · rw [hrd]
    simp (disch := decide) only [State.rd_wr_fld, State.rd_wr_same]
    rw [hws]
    exact Nat.mod_eq_of_lt hs

theorem State.lsErr_hasErr {code source : Nat} (hfirst : s.on .LS_ERR_VALID [] = false) (hc : code < 16) (hs : source < 8) :
    (s.lsErr code source).hasErr code source = true := by
  obtain ⟨hv, hcode, hsource⟩ := State.lsErr_first hfirst hc hs
  simp [State.hasErr, hv, hcode, hsource]

/-! ## Requests that waited too long (R447) -/

/-- The key generation of a stack fails. -/
noncomputable def State.keyGivenUp (s : State) (st : Nat) : State :=
  ({ s with keyOp := smPut s.keyOp [st] [] [] }.wr .SEAL_KEY_BUSY [st] 0).wr .SEAL_KEY_FAIL [st] 1

theorem exec_trngWaitTimeout_key {st : Fin 4} {a b u : Nat} {r : List Nat} (ha : s.trngT = some a)
    (hk : smGet s.keyOp [st.val] [] = b :: 1 :: u :: r) :
    exec (.trngWaitTimeout (some st)) s = .next ((s.lapseTo (max a u + 100000000)).keyGivenUp st) := by
  change execTrngWaitTimeout (some st) s = _
  unfold execTrngWaitTimeout
  rw [ha]
  dsimp only
  rw [hk]
  rfl

theorem State.keyGivenUp_spec {st : Nat} : (s.keyGivenUp st).rd .SEAL_KEY_BUSY [st] = 0 ∧ (s.keyGivenUp st).rd .SEAL_KEY_FAIL [st] = 1 ∧
    (s.keyGivenUp st).now = s.now ∧ SameFields s (s.keyGivenUp st) [(.SEAL_KEY_BUSY, [st]), (.SEAL_KEY_FAIL, [st])] :=
  ⟨(State.rd_wr_fld _ _ _ _ _ _ (by decide)).trans (State.rd_wr_same _ _ _ _), State.rd_wr_same _ _ _ _, rfl,
    (((SameFields.refl s _).of_rd fun _ _ => rfl).wr (by simp) 0).wr (by simp) 1⟩

/-- The failure of the generator is said, once. -/
noncomputable def State.trngSays (s : State) : State := { s with trngSaid := true }

/-- The failure is recorded with a free source. -/
noncomputable def State.trngFailure (s : State) : State := (s.draw 3).2.trngSays.lsErr 6 (s.draw 3).1

theorem exec_trngWaitTimeout_said {a : Nat} (ha : s.trngT = some a) (hs : s.trngSaid = false) :
    exec (.trngWaitTimeout none) s = .next (s.lapseTo (a + 1000000000)).trngFailure := by
  change execTrngWaitTimeout none s = _
  unfold execTrngWaitTimeout
  rw [ha]
  dsimp only
  rw [if_neg (by simp [hs])]
  unfold State.trngFailure State.trngSays
  rfl

theorem State.trngFailure_spec (hfirst : s.on .LS_ERR_VALID [] = false) : s.trngFailure.on .LS_ERR_VALID [] = true ∧
    s.trngFailure.rd .LS_ERR_CODE [] = 6 ∧ s.trngFailure.now = s.now ∧ s.trngFailure.trngSaid = true := by
  have hfirst' : (s.draw 3).2.trngSays.on .LS_ERR_VALID [] = false := hfirst
  obtain ⟨hv, hcode, -⟩ := State.lsErr_first (code := 6) (source := (s.draw 3).1) hfirst' (by decide) (Nat.mod_lt _ (by decide))
  exact ⟨hv, hcode, State.lsErr_part (π := .now) rfl (by decide) _ _, State.lsErr_part (π := .trngSaid) rfl (by decide) _ _⟩

end

/-! ## Attempts (R449 to R453) -/

section
variable {s : State} {p : PelSrc} {l cmd : Nat}

/-- A command of `PEL_AUTH` that is taken names its level. -/
noncomputable def State.levelNamed (s : State) (p l : Nat) : State := s.wr .PEL_AUTH_LEVEL [p] l

theorem State.authCmd_taken (h : s.authTaken p = true) (k : State → State) :
    s.authCmd p l cmd k = k (s.levelNamed (pelPath p) l) := by
  simp only [State.authTaken, Bool.and_eq_true, Bool.not_eq_true'] at h
  obtain ⟨⟨hmute, hreach⟩, hbusy⟩ := h
  have hbusy' : (s.wr .PEL_AUTH_LEVEL [pelPath p] l).on .PEL_AUTH_STAT_BUSY [pelPath p] = false :=
    (State.on_of_rd (State.rd_wr_fld _ _ _ _ _ _ (by decide))).trans hbusy
  exact (if_neg (by simp [hmute])).trans ((if_pos hreach).trans (if_neg (by simp [hbusy'])))

/-- A challenge on a path for which the Lodestar does not work changes the level named only. -/
theorem State.giveChallenge_sameFields (h : s.authTaken p = true) :
    SameFields s ((s.levelNamed (pelPath p) l).giveChallenge (pelPath p)) [(.PEL_AUTH_LEVEL, [pelPath p])] := by
  simp only [State.authTaken, Bool.and_eq_true, Bool.not_eq_true'] at h
  obtain ⟨-, hbusy⟩ := h
  have hbusy' : s.rd .PEL_AUTH_STAT_BUSY [pelPath p] = 0 := by simpa [State.on] using hbusy
  have hsame : SameFields s (s.levelNamed (pelPath p) l) [(.PEL_AUTH_LEVEL, [pelPath p])] := (SameFields.refl s _).wr (by simp) l
  intro f i hfi
  refine Eq.trans ?_ (hsame f i hfi)
  rw [State.giveChallenge_eq, State.rd_wr]
  split
  next he =>
    obtain ⟨rfl, rfl⟩ := he
    exact (hbusy'.symm.trans (hsame _ _ (by simp)).symm : _)
  next => rfl

theorem State.levelNamed_rd {f : Fld} (hf : Fld.PEL_AUTH_LEVEL ≠ f) (n : Nat) (i : List Nat) :
    (s.levelNamed n l).rd f i = s.rd f i := State.rd_wr_fld _ _ _ _ _ _ hf

theorem State.levelNamed_pelLevel (n k : Nat) : (s.levelNamed n l).pelLevel k = s.pelLevel k := by
  unfold State.pelLevel
  rw [State.levelNamed_rd (by decide), State.levelNamed_rd (by decide)]

variable {n : Nat} {judge : State → Option (Option Nat)}

theorem State.attempt_low (h : l ≤ s.pelLevel n) : s.attempt n l judge = s := if_pos h

theorem State.attempt_waits (h : s.pelLevel n < l) (hw : s.now < s.dbgWait) : s.attempt n l judge = s.attemptOver n false :=
  (if_neg (by omega)).trans (if_pos hw)

theorem State.attempt_wins (h : s.pelLevel n < l) (hw : s.dbgWait ≤ s.now) (hj : judge s = none) :
    s.attempt n l judge = s.attemptWins n l := by
  refine (if_neg (by omega)).trans ((if_neg (by omega)).trans ?_)
  rw [hj]

theorem State.attempt_fails (h : s.pelLevel n < l) (hw : s.dbgWait ≤ s.now) {c : Option Nat} (hj : judge s = some c) :
    s.attempt n l judge = s.attemptFails n c := by
  refine (if_neg (by omega)).trans ((if_neg (by omega)).trans ?_)
  rw [hj]

theorem State.attemptOver_spec (ok : Bool) : (s.attemptOver n ok).rd .PEL_AUTH_STAT_OK [n] = ok.toNat ∧
    ((s.attemptOver n ok).pelRt n).chal = none := by
  refine ⟨(State.rd_wr_same _ _ _ _).trans (by cases ok <;> rfl), ?_⟩
  unfold State.attemptOver
  rw [State.wr_pelRt, State.setPel_pelRt, if_pos rfl]

theorem State.attemptOver_pelLevel (ok : Bool) (k : Nat) : (s.attemptOver n ok).pelLevel k = s.pelLevel k := by
  unfold State.pelLevel
  rw [State.attemptOver_rd _ _ _ rfl, State.attemptOver_rd _ _ _ rfl]

/-- The fields that a good attempt writes, before its challenge is used up. -/
noncomputable def State.levelRises (s : State) (n l : Nat) : State :=
  ((s.wr (levelFld n) [] l).setBit .LS_DBG_STAT_USED [] (l - 1) true).wr .LS_DBG_STAT_FAILS [] 0

theorem State.levelRises_rd {f : Fld} (hf : hasFld ⟨[.LS_DBG_STAT_FAILS, .LS_DBG_STAT_USED], [], [], false⟩ f = false) (i : List Nat) :
    (s.levelRises n l).rd f i = (s.wr (levelFld n) [] l).rd f i :=
  (State.rd_wr_fld _ _ _ _ _ _ (by rintro rfl; simp [hasFld] at hf)).trans
    (State.rd_wr_fld _ _ _ _ _ _ (by rintro rfl; simp [hasFld] at hf))

/-- A good attempt sets the level of its path and keeps that of the other. -/
theorem State.levelRises_pelLevel (h4 : l < 4) : (s.levelRises (pelPath p) l).pelLevel (pelPath p) = l ∧
    (s.levelRises (pelPath p) l).pelLevel (1 - pelPath p) = s.pelLevel (1 - pelPath p) := by
  have hj : (Fld.spec .LS_DBG_STAT_JTAG_LEVEL).width = 2 := rfl
  have hp : (Fld.spec .LS_DBG_STAT_PCIE_LEVEL).width = 2 := rfl
  unfold State.pelLevel
  rw [State.levelRises_rd rfl, State.levelRises_rd rfl]
  cases p with
  | jtag =>
    refine ⟨?_, ?_⟩
    · exact (State.rd_wr_same _ _ _ _).trans (by rw [show (levelFld (pelPath .jtag)).spec.width = 2 from rfl]; exact Nat.mod_eq_of_lt h4)
    · exact State.rd_wr_fld s .LS_DBG_STAT_JTAG_LEVEL .LS_DBG_STAT_PCIE_LEVEL [] [] l (by decide)
  | pcie f =>
    refine ⟨?_, ?_⟩
    · exact (State.rd_wr_same _ _ _ _).trans (by rw [show (levelFld (pelPath (.pcie f))).spec.width = 2 from rfl]; exact Nat.mod_eq_of_lt h4)
    · exact State.rd_wr_fld s .LS_DBG_STAT_PCIE_LEVEL .LS_DBG_STAT_JTAG_LEVEL [] [] l (by decide)

theorem State.levelRises_used (h0 : 0 < l) (h4 : l < 4) : ((s.levelRises n l).rd .LS_DBG_STAT_USED []).testBit (l - 1) = true := by
  have hw : (Fld.spec .LS_DBG_STAT_USED).width = 3 := rfl
  unfold State.levelRises
  rw [State.rd_wr_fld _ _ _ _ _ _ (by decide)]
  unfold State.setBit
  rw [State.rd_wr_same, hw, Nat.testBit_mod_two_pow, if_pos rfl, Nat.testBit_or, Nat.testBit_two_pow_self]
  simp
  omega

theorem State.attemptWins_eq : s.attemptWins n l = (s.levelRises n l).attemptOver n true := rfl

/-- A good attempt sets the level of its path and `USED`, clears the failures and uses up its challenge. -/
theorem State.attemptWins_spec (h0 : 0 < l) (h4 : l < 4) : (s.attemptWins (pelPath p) l).pelLevel (pelPath p) = l ∧
    (s.attemptWins (pelPath p) l).pelLevel (1 - pelPath p) = s.pelLevel (1 - pelPath p) ∧
    ((s.attemptWins (pelPath p) l).rd .LS_DBG_STAT_USED []).testBit (l - 1) = true ∧
    (s.attemptWins (pelPath p) l).rd .LS_DBG_STAT_FAILS [] = 0 ∧ (s.attemptWins (pelPath p) l).rd .PEL_AUTH_STAT_OK [pelPath p] = 1 ∧
    ((s.attemptWins (pelPath p) l).pelRt (pelPath p)).chal = none := by
  obtain ⟨hmine, hother⟩ := State.levelRises_pelLevel (s := s) (p := p) h4
  obtain ⟨hok, hchal⟩ := State.attemptOver_spec (s := s.levelRises (pelPath p) l) (n := pelPath p) true
  rw [State.attemptWins_eq]
  refine ⟨?_, ?_, ?_, ?_, hok, hchal⟩
  · rw [State.attemptOver_pelLevel, hmine]
  · rw [State.attemptOver_pelLevel, hother]
  · rw [State.attemptOver_rd _ _ _ rfl]
    exact State.levelRises_used h0 h4
  · rw [State.attemptOver_rd _ _ _ rfl]
    exact State.rd_wr_same _ _ _ _

/-- No attempt is judged before the instant `d`. -/
noncomputable def State.waitUntil (s : State) (d : Nat) : State := { s with dbgWait := d }

theorem State.waitUntil_rd (d : Nat) (f : Fld) (i : List Nat) : (s.waitUntil d).rd f i = s.rd f i := rfl

/-- The failure is counted and the wait begins. -/
noncomputable def State.failCounted (s : State) : State :=
  (s.bump .LS_DBG_STAT_FAILS []).waitUntil (s.now + failWait ((s.bump .LS_DBG_STAT_FAILS []).rd .LS_DBG_STAT_FAILS []) * 1000000000)

theorem State.bump_fails : (s.bump .LS_DBG_STAT_FAILS []).rd .LS_DBG_STAT_FAILS [] = min 255 (s.rd .LS_DBG_STAT_FAILS [] + 1) :=
  (State.bump_same s .LS_DBG_STAT_FAILS [] 1).trans (Nat.min_comm _ _)

theorem State.failCounted_rd (f : Fld) (i : List Nat) : s.failCounted.rd f i = (s.bump .LS_DBG_STAT_FAILS []).rd f i :=
  State.waitUntil_rd _ f i

theorem State.failCounted_fails : s.failCounted.rd .LS_DBG_STAT_FAILS [] = min 255 (s.rd .LS_DBG_STAT_FAILS [] + 1) :=
  (State.failCounted_rd _ _).trans State.bump_fails

theorem State.failCounted_wait :
    s.failCounted.dbgWait = s.now + failWait (min 255 (s.rd .LS_DBG_STAT_FAILS [] + 1)) * 1000000000 := by
  rw [← State.bump_fails, State.failCounted, State.waitUntil]

/-- The failure is recorded, with its cause or a free one. -/
noncomputable def State.failRecorded (s : State) (c : Option Nat) : State :=
  match c with
  | some c => s.lsErr c 2
  | none => (s.draw 4).2.lsErr (s.draw 4).1 2

theorem State.attemptFails_eq (c : Option Nat) : s.attemptFails n c = (s.failCounted.failRecorded c).attemptOver n false := by
  unfold State.attemptFails State.failCounted State.waitUntil State.failRecorded
  generalize 1000000000 = second
  cases c <;> rfl

theorem State.failRecorded_rd {f : Fld} (hf : hasFld ⟨[.LS_ERR_CODE, .LS_ERR_SOURCE, .LS_ERR_VALID], [], [], false⟩ f = false)
    (c : Option Nat) (i : List Nat) : (s.failRecorded c).rd f i = s.rd f i := by
  cases c with
  | some c => exact State.lsErr_rd _ _ _ hf
  | none => exact State.lsErr_rd _ _ _ hf

theorem State.failRecorded_wait (c : Option Nat) : (s.failRecorded c).dbgWait = s.dbgWait := by
  cases c with
  | some c => exact State.lsErr_part (π := .dbgWait) rfl (by decide) _ _
  | none => exact State.lsErr_part (s := (s.draw 4).2) (π := .dbgWait) rfl (by decide) _ _

/-- A failed attempt keeps both levels; it counts, costs time and uses up its challenge. -/
theorem State.attemptFails_spec (c : Option Nat) : (∀ k, (s.attemptFails n c).pelLevel k = s.pelLevel k) ∧
    (s.attemptFails n c).rd .LS_DBG_STAT_FAILS [] = min 255 (s.rd .LS_DBG_STAT_FAILS [] + 1) ∧
    (s.attemptFails n c).rd .PEL_AUTH_STAT_OK [n] = 0 ∧
    (s.attemptFails n c).dbgWait = s.now + failWait (min 255 (s.rd .LS_DBG_STAT_FAILS [] + 1)) * 1000000000 ∧
    ((s.attemptFails n c).pelRt n).chal = none := by
  have hcounted : ∀ k, s.failCounted.pelLevel k = s.pelLevel k := fun k => by
    unfold State.pelLevel
    rw [State.failCounted_rd, State.failCounted_rd, State.bump_rd _ _ _ _ rfl, State.bump_rd _ _ _ _ rfl]
  obtain ⟨hok, hchal⟩ := State.attemptOver_spec (s := s.failCounted.failRecorded c) (n := n) false
  rw [State.attemptFails_eq]
  refine ⟨fun k => ?_, ?_, hok, ?_, hchal⟩
  · rw [State.attemptOver_pelLevel, ← hcounted k]
    unfold State.pelLevel
    rw [State.failRecorded_rd rfl, State.failRecorded_rd rfl]
  · rw [State.attemptOver_rd _ _ _ rfl, State.failRecorded_rd rfl, State.failCounted_fails]
  · exact (State.attemptOver_keeps (R := fun u => u.dbgWait = (s.failCounted.failRecorded c).dbgWait)
      (Keeps.part (p := .dbgWait) (by decide) (by decide) (s.failCounted.failRecorded c)) _ n false rfl).trans
      ((State.failRecorded_wait c).trans State.failCounted_wait)

/-- A failed attempt of a known cause records it as the first error. -/
theorem State.attemptFails_hasErr {c : Nat} (hc : c < 16) (hfirst : s.on .LS_ERR_VALID [] = false) :
    (s.attemptFails n (some c)).hasErr c 2 = true := by
  have hfirst' : s.failCounted.on .LS_ERR_VALID [] = false :=
    (State.on_of_rd ((State.failCounted_rd _ _).trans (State.bump_rd _ _ _ _ rfl))).trans hfirst
  have herr : (s.failCounted.lsErr c 2).hasErr c 2 = true := State.lsErr_hasErr hfirst' hc (by decide)
  have hover : ∀ u : State, (u.attemptOver n false).hasErr c 2 = u.hasErr c 2 := fun u => by
    unfold State.hasErr State.on
    rw [State.attemptOver_rd _ _ _ rfl, State.attemptOver_rd _ _ _ rfl, State.attemptOver_rd _ _ _ rfl]
  rw [State.attemptFails_eq, hover]
  exact herr

/-! ## Verdicts -/

/-- A certificate of a vendor key, in SHIPPED, whose issuer signature is bad fails with cause 1. -/
theorem State.certJudge_unsigned {c : Nat} {b : Bool} (hlife : s.lifecycle = 1) (hlen : (s.pelRt n).sent.length = 304)
    (hc : leNat (s.pelRt n).sent = c) (hmagic : bitsOf c 0 32 = 0x54444243) (hres : bitsOf c 48 16 = 0) (hissuer : hByte c 5 ≤ 1) :
    s.certJudge n l false b = some (some 1) := by
  subst hc
  unfold State.certJudge
  simp [hlife, hlen, hmagic, hres, hissuer]

/-- A certificate of an unrevoked vendor key, in SHIPPED, of this device or none, for the level, is good. -/
theorem State.certJudge_good {c : Nat} (hlife : s.lifecycle = 1) (hlen : (s.pelRt n).sent.length = 304)
    (hc : leNat (s.pelRt n).sent = c) (hmagic : bitsOf c 0 32 = 0x54444243) (hres : bitsOf c 48 16 = 0) (hissuer : hByte c 5 ≤ 1)
    (hkey : (s.rd .LS_STAT_VKEYS []).testBit (hByte c 5) = true) (hl : l ≤ hByte c 4)
    (hserial : bitsOf c 64 64 = 0 ∨ bitsOf c 64 64 = Config.serial.toNat) (hchal : (s.pelRt n).chal.isSome = true) :
    s.certJudge n l true true = none := by
  have hchal' : (s.pelRt n).chal.isNone = false := by
    cases h : (s.pelRt n).chal with
    | none => rw [h] at hchal; cases hchal
    | some x => rfl
  have hfor : ¬ (hByte c 4 < l ∨ (bitsOf c 64 64 ≠ 0 ∧ bitsOf c 64 64 ≠ Config.serial.toNat)) := by
    rintro (h | ⟨h0, h1⟩)
    · omega
    · exact hserial.elim h0 h1
  subst hc
  unfold State.certJudge
  dsimp only
  rw [hlife, hlen, hmagic, hres, decide_eq_true hissuer, hkey, hchal', if_neg (by decide), if_neg (by simp), if_neg (by simp),
    if_neg (by simp), if_neg hfor, if_neg (by decide)]

theorem State.passwordJudge_fused {h : Nat} (hlife : s.lifecycle ≠ 3) (hlen : (s.pelRt n).sent.length = 32)
    (hh : smGet s.lsFuse [4, l] 0 = h) (h0 : h ≠ 0) :
    s.passwordJudge n l = if (Config.sha384 (s.pelRt n).sent).toNat = h then none else some none := by
  subst hh
  unfold State.passwordJudge
  dsimp only
  rw [if_neg hlife, if_neg (by omega)]
  by_cases hm : (Config.sha384 (s.pelRt n).sent).toNat = smGet s.lsFuse [4, l] 0
  · rw [if_pos ⟨h0, hm⟩, if_pos hm]
  · rw [if_neg fun h => hm h.2, if_neg hm]

theorem State.passwordJudge_unfused (hlife : s.lifecycle ≠ 3) (hh : smGet s.lsFuse [4, l] 0 = 0) :
    ∃ c, s.passwordJudge n l = some c := by
  unfold State.passwordJudge
  dsimp only
  rw [if_neg hlife]
  split
  · exact ⟨_, rfl⟩
  · rw [if_neg fun h => h.1 hh]
    exact ⟨_, rfl⟩

end

section
variable {s : State} {p : PelSrc} {l : BitVec 2}

theorem exec_debugCertSubmit {x y : Bool} (h : s.authTaken p = true) : exec (.debugCertSubmit p l x y) s =
    .next ((s.levelNamed (pelPath p) l.toNat).attempt (pelPath p) l.toNat fun s => s.certJudge (pelPath p) l.toNat x y) :=
  congrArg Host.Outcome.next (State.authCmd_taken h _)

theorem exec_debugPasswordSubmit (h : s.authTaken p = true) : exec (.debugPasswordSubmit p l) s =
    .next ((s.levelNamed (pelPath p) l.toNat).attempt (pelPath p) l.toNat fun s => s.passwordJudge (pelPath p) l.toNat) :=
  congrArg Host.Outcome.next (State.authCmd_taken h _)

end

/-- Settles O56, by what a command of the path does to it, and by the verdict on an attempt. -/
theorem debugLevelsOpenOnlyByAGoodAttempt : Obligations.DebugLevelsOpenOnlyByAGoodAttempt := by
  unfold Obligations.DebugLevelsOpenOnlyByAGoodAttempt
  refine ⟨?fails, ?recovers, ?keyWait, ?said, ?challenge, ?challengeWaits, ?certificate, ?unsigned, ?low, ?waits, ?password,
    ?unfused, ?retired⟩
  case fails =>
    intro s h
    refine ⟨_, if_pos h, (State.raise_rd _ _ _ _ _ _ rfl).trans (State.trngSet_ok 0 (some s.now)), ?_⟩
    exact State.raise_keeps (Keeps.part (p := .trngT) rfl (by decide) (s.trngSet 0 (some s.now))) _ _ _ _ _ _ rfl
  case recovers =>
    intro s h
    refine ⟨_, exec_trngHealthRecover h, ?_, ?_, fun p => State.challengesDue_paths (s := s.trngSet 1 none) p⟩
    · exact (State.challengeDue_field rfl _).trans ((State.challengeDue_field rfl _).trans (State.trngSet_ok 1 none))
    · exact (State.challengeDue_part (π := .trngT) (by decide) (by decide)).trans
        (State.challengeDue_part (s := s.trngSet 1 none) (π := .trngT) (by decide) (by decide))
  case keyWait =>
    intro st a b u r s ha hk
    obtain ⟨hbusy, hfail, hnow, hsame⟩ := State.keyGivenUp_spec (s := s.lapseTo (max a u + 100000000)) (st := st.val)
    refine ⟨_, exec_trngWaitTimeout_key ha hk, hbusy, hfail, hnow.trans (State.lapseTo_now s _), ?_⟩
    exact fun f i h => (hsame f i h).trans (State.lapseTo_rd s _ (by rfl))
  case said =>
    intro a s ha hs hfirst
    have hfirst' : (s.lapseTo (a + 1000000000)).on .LS_ERR_VALID [] = false :=
      (State.on_of_rd (State.lapseTo_rd s _ rfl)).trans hfirst
    obtain ⟨hv, hcode, hnow, hsaid⟩ := State.trngFailure_spec hfirst'
    exact ⟨_, exec_trngWaitTimeout_said ha hs, hv, hcode, hnow.trans (State.lapseTo_now s _), hsaid⟩
  case challenge =>
    intro p l s h hok
    have hw : (Fld.spec .PEL_AUTH_LEVEL).width = 2 := rfl
    obtain ⟨-, hread, hchal, hsent, hbusy⟩ := State.giveChallenge_path (s := s.levelNamed (pelPath p) l.toNat) (p := pelPath p)
    refine ⟨_, (congrArg Host.Outcome.next (State.authCmd_taken h _)).trans (congrArg Host.Outcome.next (if_pos ?_)), ?_, hread, hchal,
      hsent, ?_⟩
    · exact (State.on_of_rd (State.levelNamed_rd (by decide) _ _)).trans hok
    · refine (State.giveChallenge_rd _ _ rfl).trans ((State.rd_wr_same _ _ _ _).trans ?_)
      rw [hw]
      exact Nat.mod_eq_of_lt l.isLt
    · exact State.giveChallenge_sameFields h
  case challengeWaits =>
    intro p l s h hok
    refine ⟨_, (congrArg Host.Outcome.next (State.authCmd_taken h _)).trans (congrArg Host.Outcome.next (if_neg ?_)),
      State.rd_wr_same _ _ _ _, ?_, ?_⟩
    · have hoff := (State.on_of_rd (State.levelNamed_rd (s := s) (l := l.toNat) (by decide) (pelPath p) [])).trans hok
      simpa using hoff
    · rw [State.wr_pelRt, State.setPel_pelRt, if_pos rfl]
    · exact (((SameFields.refl s _).wr (by simp) l.toNat).of_rd fun f i => State.setPel_rd _ _ _ (by rfl)).wr (by simp) 1
  case certificate =>
    intro p l c s h hlow hwait hlife hlen hc hmagic hres hissuer hkey hl hserial hchal
    have hgood : (s.levelNamed (pelPath p) l.toNat).certJudge (pelPath p) l.toNat true true = none :=
      State.certJudge_good ((State.levelNamed_rd (by decide) _ _).trans hlife) hlen hc hmagic hres hissuer
        ((congrArg (fun k => k.testBit (hByte c 5)) (State.levelNamed_rd (by decide) _ _)).trans hkey) hl hserial hchal
    obtain ⟨hmine, hother, hused, hfails, hok, hgone⟩ :=
      State.attemptWins_spec (s := s.levelNamed (pelPath p) l.toNat) (p := p) (l := l.toNat) (by omega) l.isLt
    refine ⟨_, (exec_debugCertSubmit h).trans (congrArg Host.Outcome.next
      (State.attempt_wins (by rwa [State.levelNamed_pelLevel]) hwait hgood)), hmine, ?_, hused, hfails, hok, hgone⟩
    exact hother.trans (State.levelNamed_pelLevel _ _)
  case unsigned =>
    intro p l b c s h hlow hwait hlife hlen hc hmagic hres hissuer hfirst
    have hlow' : (s.levelNamed (pelPath p) l.toNat).pelLevel (pelPath p) < l.toNat := by rwa [State.levelNamed_pelLevel]
    have hbad : (s.levelNamed (pelPath p) l.toNat).certJudge (pelPath p) l.toNat false b = some (some 1) :=
      State.certJudge_unsigned ((State.levelNamed_rd (by decide) _ _).trans hlife) hlen hc hmagic hres hissuer
    obtain ⟨hlevel, hfails, hok, hwaits, hgone⟩ := State.attemptFails_spec (s := s.levelNamed (pelPath p) l.toNat) (n := pelPath p) (some 1)
    have hcount : (s.levelNamed (pelPath p) l.toNat).rd .LS_DBG_STAT_FAILS [] = s.rd .LS_DBG_STAT_FAILS [] :=
      State.levelNamed_rd (by decide) _ _
    rw [hcount] at hfails hwaits
    refine ⟨_, (exec_debugCertSubmit h).trans (congrArg Host.Outcome.next
      (State.attempt_fails hlow' hwait hbad)), ?_, ?_, hfails, hok, hwaits, ?_, hgone⟩
    · exact (hlevel 0).trans (State.levelNamed_pelLevel _ _)
    · exact (hlevel 1).trans (State.levelNamed_pelLevel _ _)
    · exact State.attemptFails_hasErr (by decide) ((State.on_of_rd (State.levelNamed_rd (by decide) _ _)).trans hfirst)
  case low =>
    intro p l x y s h hlow
    refine ⟨_, (exec_debugCertSubmit h).trans (congrArg Host.Outcome.next
      (State.attempt_low (by rwa [State.levelNamed_pelLevel]))), rfl, rfl, (SameFields.refl s _).wr (by simp) l.toNat⟩
  case waits =>
    intro p l x y s h hlow hwait
    refine ⟨_, (exec_debugCertSubmit h).trans (congrArg Host.Outcome.next
      (State.attempt_waits (by rwa [State.levelNamed_pelLevel]) hwait)), (State.attemptOver_spec false).1, rfl, ?_⟩
    exact (((SameFields.refl s _).wr (by simp) l.toNat).of_rd fun f i => State.setPel_rd _ _ _ (by rfl)).wr (by simp) 0
  case password =>
    intro p l k s h hlow hwait hlife hlen hk h0
    have hjudge := State.passwordJudge_fused (s := s.levelNamed (pelPath p) l.toNat) (n := pelPath p) (l := l.toNat)
      (fun he => hlife ((State.levelNamed_rd (by decide) _ _).symm.trans he)) hlen hk h0
    have hsent : ((s.levelNamed (pelPath p) l.toNat).pelRt (pelPath p)).sent = (s.pelRt (pelPath p)).sent := rfl
    rw [hsent] at hjudge
    have hlow' : (s.levelNamed (pelPath p) l.toNat).pelLevel (pelPath p) < l.toNat := by rwa [State.levelNamed_pelLevel]
    by_cases hm : (Config.sha384 (s.pelRt (pelPath p)).sent).toNat = k
    · rw [if_pos hm] at hjudge
      obtain ⟨hmine, hother, -, hfails, -, -⟩ :=
        State.attemptWins_spec (s := s.levelNamed (pelPath p) l.toNat) (p := p) (l := l.toNat) (by omega) l.isLt
      rw [if_pos hm, if_pos hm]
      exact ⟨_, (exec_debugPasswordSubmit h).trans (congrArg Host.Outcome.next (State.attempt_wins hlow' hwait hjudge)), hmine, hfails,
        hother.trans (State.levelNamed_pelLevel _ _)⟩
    · rw [if_neg hm] at hjudge
      obtain ⟨hlevel, hfails, -, -, -⟩ := State.attemptFails_spec (s := s.levelNamed (pelPath p) l.toNat) (n := pelPath p) none
      rw [if_neg hm, if_neg hm]
      refine ⟨_, (exec_debugPasswordSubmit h).trans (congrArg Host.Outcome.next (State.attempt_fails hlow' hwait hjudge)), ?_, ?_, ?_⟩
      · exact (hlevel _).trans (State.levelNamed_pelLevel _ _)
      · rw [hfails, State.levelNamed_rd (by decide)]
      · exact (hlevel _).trans (State.levelNamed_pelLevel _ _)
  case unfused =>
    intro p l s h hlow hwait hlife hk
    have hlow' : (s.levelNamed (pelPath p) l.toNat).pelLevel (pelPath p) < l.toNat := by rwa [State.levelNamed_pelLevel]
    obtain ⟨c, hjudge⟩ := State.passwordJudge_unfused (s := s.levelNamed (pelPath p) l.toNat) (n := pelPath p) (l := l.toNat)
      (fun he => hlife ((State.levelNamed_rd (by decide) _ _).symm.trans he)) hk
    obtain ⟨hlevel, hfails, -, -, -⟩ := State.attemptFails_spec (s := s.levelNamed (pelPath p) l.toNat) (n := pelPath p) c
    refine ⟨_, (exec_debugPasswordSubmit h).trans (congrArg Host.Outcome.next
      (State.attempt_fails hlow' hwait hjudge)), ?_, ?_⟩
    · exact (hlevel _).trans (State.levelNamed_pelLevel _ _)
    · rw [hfails, State.levelNamed_rd (by decide)]
  case retired =>
    intro p l s h hlow hwait hlife hfirst
    have hlow' : (s.levelNamed (pelPath p) l.toNat).pelLevel (pelPath p) < l.toNat := by rwa [State.levelNamed_pelLevel]
    have hjudge : (s.levelNamed (pelPath p) l.toNat).passwordJudge (pelPath p) l.toNat = some (some 5) :=
      if_pos ((State.levelNamed_rd (by decide) _ _).trans hlife)
    obtain ⟨hlevel, hfails, -, -, -⟩ := State.attemptFails_spec (s := s.levelNamed (pelPath p) l.toNat) (n := pelPath p) (some 5)
    refine ⟨_, (exec_debugPasswordSubmit h).trans (congrArg Host.Outcome.next
      (State.attempt_fails hlow' hwait hjudge)), ?_, ?_, ?_⟩
    · exact (hlevel _).trans (State.levelNamed_pelLevel _ _)
    · rw [hfails, State.levelNamed_rd (by decide)]
    · exact State.attemptFails_hasErr (by decide) ((State.on_of_rd (State.levelNamed_rd (by decide) _ _)).trans hfirst)

/-! PROOFS. Configuration scrubbing (R500, R501). -/

section
variable {s : State} {n : Fin 8}

/-- A frame without an uncorrectable word, of a column that does not fail, is counted only. -/
theorem State.scrubFound_clean (u : State) (n k a cor slow : Nat) : (u.scrubFound n k a cor 0 false slow).rd .SCRUB_UNC_CNT_COUNT [n] =
    min (u.rd .SCRUB_UNC_CNT_COUNT [n] + 0) (2 ^ 32 - 1) := by
  have hfound : u.scrubFound n k a cor 0 false slow = (u.bump .SCRUB_COR_CNT_COUNT [n] cor).bump .SCRUB_UNC_CNT_COUNT [n] 0 := rfl
  rw [hfound, State.bump_same, State.bump_rd _ _ _ _ rfl]
  rfl

/-- Every frame of a pass adds to the counter of uncorrectable words, whose sum stops at its maximum. -/
theorem exec_configScrubFrame_uncorrectable (cor : Fin 129) (slow : Nat) (hup : s.up n = true) (hps : s.rd .PWR_DIE_STAT_PSTATE [n] ≠ 2)
    (hon : (s.scrubRt n).on = true) (hst : s.rd .SEC_STATUS_STATE [n, (s.scrubRt n).sector] = (s.scrubRt n).st0)
    (hmig : (s.sector n (s.scrubRt n).sector).mig = 0) : ∃ t, exec (.configScrubFrame n cor 0 false slow) s = .next t ∧
      t.rd .SCRUB_UNC_CNT_COUNT [n] = min (s.rd .SCRUB_UNC_CNT_COUNT [n] + 0) (2 ^ 32 - 1) := by
  have hunc : ((s.lapseTo ((s.scrubRt n).t0 + s.rd .SCRUB_CTL_PERIOD [n] * 1000000000 * (s.scrubRt n).done /
      (s.scrubRt n).total)).lapse 128).rd .SCRUB_UNC_CNT_COUNT [n] = s.rd .SCRUB_UNC_CNT_COUNT [n] := by
    rw [State.lapse_rd _ _ rfl, State.lapseTo_rd _ _ rfl]
  change ∃ t, execConfigScrubFrame n cor 0 false slow s = .next t ∧ _
  unfold execConfigScrubFrame
  dsimp only
  rw [if_neg (by simp [hup, hps]), if_neg (by simp [hon]), if_neg (by simp [hst, hmig])]
  generalize (s.lapseTo _).lapse 128 = u at hunc
  refine ⟨_, rfl, ?_⟩
  rw [← hunc, apply_ite (fun t : State => t.rd .SCRUB_UNC_CNT_COUNT [n.val]), State.scrubGo_rd _ _ _ rfl, ite_self,
    State.setScrub_rd _ _ _ rfl]
  exact State.scrubFound_clean u n _ _ cor slow

end

/-- A pass of die 0 reads sector 0, and the table holds a value beyond the width of the die's counter of uncorrectable words. -/
noncomputable def overfullScrub : State :=
  { State.reset.wr .HUB_DIE_STATE_STATE [0] 3 with
    regs := smPut (State.reset.wr .HUB_DIE_STATE_STATE [0] 3).regs (fkey .SCRUB_UNC_CNT_COUNT [0]) (2 ^ 32) 0
    scrub := [([0], { on := true })] }

/-- Refutes O58: a clause says that a frame without an uncorrectable word changes the counter of corrected words only. The
counter of uncorrectable words is written with every frame, and its sum stops at its maximum: so where the table holds 2^32 for
that field, a frame leaves 2^32 - 1. -/
theorem not_scrubbingAndDvorkenorsMessagesActAndAnswer : ¬ Obligations.ScrubbingAndDvorkenorsMessagesActAndAnswer := by
  unfold Obligations.ScrubbingAndDvorkenorsMessagesActAndAnswer
  rintro ⟨-, -, -, hframe, -⟩
  have hup : overfullScrub.up 0 = true := by decide +kernel
  have hps : overfullScrub.rd .PWR_DIE_STAT_PSTATE [0] ≠ 2 := by decide +kernel
  have hst : overfullScrub.rd .SEC_STATUS_STATE [0, 0] = 0 := by decide +kernel
  have hunc : overfullScrub.rd .SCRUB_UNC_CNT_COUNT [0] = 2 ^ 32 := by decide +kernel
  obtain ⟨t, ht, -, -, -, -, hsame⟩ := hframe 0 0 0 0 overfullScrub hup hps rfl rfl hst (by decide +kernel) (by decide)
  obtain ⟨t', ht', hcount⟩ := exec_configScrubFrame_uncorrectable (s := overfullScrub) (n := 0) 0 0 hup hps rfl hst (by decide +kernel)
  obtain rfl := Host.Outcome.next.inj (ht.symm.trans ht')
  have hkept := hsame .SCRUB_UNC_CNT_COUNT [0] (by simp)
  rw [show t.rd .SCRUB_UNC_CNT_COUNT [0] = _ from hcount, hunc] at hkept
  exact absurd hkept (by decide)

/-! PROOFS. Register reads (R2). -/

/-- A 32-bit read returns 32 bits. -/
theorem exec_rcFieldRead_answer_lt {s t : State} {w : Writer} {off : BitVec 25} {env : RegEnv}
    (h : exec (.rcFieldRead w off 4 env) s = .next t) : t.answer < 2 ^ 32 := by
  change execRcFieldRead w off 4 env s = _ at h
  unfold execRcFieldRead at h
  dsimp only at h
  rw [if_neg (by decide)] at h
  obtain rfl := Host.Outcome.next.inj h
  exact Nat.mod_lt _ (by decide)

/-- The table holds 2^32 for the counter of failed images, a field of 32 bits. -/
noncomputable def overfullCount : State := { State.reset with regs := [(fkey .LS_VER_CNT_COUNT [], 2 ^ 32)] }

/-- Refutes O59: its first clause says that a read of LS_VER_CNT returns what the table holds for the field. A 32-bit read
returns 32 bits: so where the table holds 2^32 for it, the read does not return that. -/
theorem not_readsReturnLatchAndClear : ¬ Obligations.ReadsReturnLatchAndClear := by
  unfold Obligations.ReadsReturnLatchAndClear
  rintro ⟨hread, -⟩
  have hstage : overfullCount.rd .BOOT_STAT_STAGE [] ≠ 15 := by decide +kernel
  have hcount : overfullCount.rd .LS_VER_CNT_COUNT [] = 2 ^ 32 := by decide +kernel
  obtain ⟨t, ht, hanswer, -⟩ := hread .binnacle noEnv overfullCount hstage
  have hlt := exec_rcFieldRead_answer_lt ht
  rw [hanswer, hcount] at hlt
  exact absurd hlt (by decide)

/-! PROOFS. The Pelorus port (R483). -/

/-- The table holds 2^32 for the low data word of the JTAG path, a field of 32 bits. -/
def overfullData : State := { State.reset with regs := [(fkey .PEL_DATA_LO_DATA [0], 2 ^ 32)] }

/-- Refutes O60: a clause says that the low 32 bits of what PEL_REG captures of the low data word are what the table holds for the
field: so not where the table holds 2^32 for it. -/
theorem not_thePelorusPortOpensOnlyWhatItsLevelHolds : ¬ Obligations.ThePelorusPortOpensOnlyWhatItsLevelHolds := by
  unfold Obligations.ThePelorusPortOpensOnlyWhatItsLevelHolds
  rintro ⟨-, -, -, -, -, -, -, -, -, -, -, -, -, -, -, -, -, -, -, -, -, -, -, -, -, -, -, -, -, -, -, -, -, hread, -⟩
  have hdata : overfullData.rd .PEL_DATA_LO_DATA [0] = 2 ^ 32 := by decide +kernel
  obtain ⟨t, -, hanswer, -⟩ := hread 0 noEnv overfullData
  have hlt : t.answer % 2 ^ 32 < 2 ^ 32 := Nat.mod_lt _ (by decide)
  rw [hanswer, hdata] at hlt
  exact absurd hlt (by decide)

/-! PROOFS. Self-refresh of a stack (R250). -/

/-- The standing-refresh request of stack 0, withdrawn by its governor (R393). -/
def lateRefresh : Permit := { op := 12, who := [0], units := 8, t := 0 }

/-- Stack 0 stands in self-refresh by command 2 alone, and a timeout of its standing-refresh permit has not been acted on. -/
noncomputable def timedOutExit : State :=
  { (State.reset.wr .HUB_DIE_STATE_STATE [0] 3).wr .HBM_STAT_STATE [0] 3 with
    stack := [([0], { causes := [4] })], govs := [([9], { expired := [lateRefresh] })] }

theorem exec_hbmCmdSelfRefreshExit (w : Writer) (st : Fin 4) (s : State) :
    exec (.hbmCmdSelfRefreshExit w st) s = .next (s.hbmCmd w st 3
      (s.hstate st = 3 && (s.stk st).causes == [4] && !(s.stk st).exitAsked) fun s =>
        ((s.setStk st { s.stk st with exitAsked := true }).request (9 + st) 12 8 [st] []).srExitTimeout st) := rfl

/-- Refutes O30: its clause of HBM_CMD_SELF_REFRESH_EXIT says that the exit waits for its permit wherever the command may act. Where a
withdrawn request for the stack's standing-refresh permit has not been acted on, the command takes it for its own request's
timeout and asks no more. -/
theorem not_stacksTrainRetrainAndRefreshThemselves : ¬ Obligations.StacksTrainRetrainAndRefreshThemselves := by
  unfold Obligations.StacksTrainRetrainAndRefreshThemselves
  rintro ⟨-, -, -, -, -, -, -, -, -, -, -, -, -, -, -, hexit, -⟩
  obtain ⟨t, ht, hasked, -⟩ := hexit (.fn 0) 0 timedOutExit (by decide +kernel) (by decide +kernel) (by decide +kernel)
    (by decide +kernel) (by decide +kernel)
  obtain rfl := Host.Outcome.next.inj ((exec_hbmCmdSelfRefreshExit (.fn 0) 0 timedOutExit).symm.trans ht)
  exact absurd hasked (by decide +kernel)

/-! PROOFS. Home agents (R219). -/

/-- Die 1's upgrade of line 0 waits at the home agent of stack 0, and the cache of die 2 has a grant of that line under way. -/
noncomputable def grantUnderWay : State :=
  { ((State.reset.wr .HUB_DIE_STATE_STATE [0] 3).wr .HBM_CTL_EN [0] 1).wr .HBM_STAT_STATE [0] 2 with
    haIn := [([0], [{ opc := 0x1A, line := 0, die := 1 }])], sf := [([0, 0], { mask := 2 })],
    rcMiss := [([2, 0], { grant := 2 })] }

theorem grantUnderWay_haQ : grantUnderWay.haQ 0 = [{ opc := 0x1A, line := 0, die := 1 }] := rfl

theorem exec_cupg (n : Fin 8) (line : BitVec 32) (s : State) :
    exec (.cupg n line) s = .next (s.haTake (s.lineHome line.toNat).1 0x1A n line.toNat) := rfl

/-- The home agent leaves the upgrade in its queue. -/
theorem grantUnderWay_held :
    (grantUnderWay.haTake (grantUnderWay.lineHome 0).1 0x1A 1 0).haQ 0 = [{ opc := 0x1A, line := 0, die := 1 }] := by
  decide +kernel

/-- Refutes O32: its clause of CUPG says that the home agent takes the oldest request of a line wherever no transaction is open on the
line. A request of the line also waits while a cache has a grant of it under way. -/
theorem not_remoteCachesAndHomesKeepLinesCoherent : ¬ Obligations.RemoteCachesAndHomesKeepLinesCoherent := by
  unfold Obligations.RemoteCachesAndHomesKeepLinesCoherent
  rintro ⟨-, -, -, -, -, hcupg, -⟩
  obtain ⟨t, ht, hqueue, -⟩ := hcupg 1 0 0 [] grantUnderWay (by decide +kernel) grantUnderWay_haQ (by decide +kernel)
    (by decide +kernel) (by decide +kernel) (by decide +kernel)
  obtain rfl := Host.Outcome.next.inj ((exec_cupg 1 0 grantUnderWay).symm.trans ht)
  exact absurd (grantUnderWay_held.symm.trans hqueue) (by decide)

/-! PROOFS. The loss of a remote cache without its flush (R214, R224). -/

/-- The cache of die 0 is past its time for a flush on clock loss, and die 1's read of line 0 waits for the answer of die 0 to a
snoop. -/
def lossFreesRead : State :=
  { State.reset with
    rcLossT := [([0], 1)], haTx := [([0, 0], { req := { opc := 0x18, line := 0, die := 1 }, wait := 1, inval := false })] }

theorem exec_rcLossTimeout {n : Fin 8} {s : State} (h : smGet s.rcLossT [n.val] 0 ≠ 0) :
    exec (.rcLossTimeout n) s = .next (({ s.lapseTo (smGet s.rcLossT [n.val] 0) with
      rcLossT := smPut s.rcLossT [n.val] 0 0 } : State).rcLost n) := if_pos h

/-- The read ends, and its line enters the cache of die 1. -/
theorem lossFreesRead_filled : (({ lossFreesRead.lapseTo 1 with rcLossT := smPut lossFreesRead.rcLossT [0] 0 0 } : State).rcLost 0).rcLines
    = [([1, 0], { st := 1 })] := by decide +kernel

/-- Refutes O33: its clause of RC_LOSS_TIMEOUT says that of the cached lines only those of the lost cache go and none comes. Where the
lost cache owed the one answer that another die's read waited for, the read ends with the loss and its line enters that die's
cache. -/
theorem not_cacheCommandsAndWindowsFlushTheirLines : ¬ Obligations.CacheCommandsAndWindowsFlushTheirLines := by
  unfold Obligations.CacheCommandsAndWindowsFlushTheirLines
  rintro ⟨-, -, -, -, -, -, -, -, -, -, -, -, -, hloss⟩
  have hdue : smGet lossFreesRead.rcLossT [0] 0 ≠ 0 := by decide
  obtain ⟨t, ht, -, -, hlines, -⟩ := hloss 0 lossFreesRead hdue
  obtain rfl := Host.Outcome.next.inj ((exec_rcLossTimeout (n := 0) hdue).symm.trans ht)
  exact absurd (lossFreesRead_filled.symm.trans hlines) (by decide)

/-! PROOFS. The health of link lanes (R206). -/

/-- The spare of group 0 stands in for its lane 0, and the threshold of sampler disagreements is 1. -/
def spareInUse : State := (State.reset.wr .GK_GRP_STAT_SPARE_FOR [0, 0, 0] 0).wr .GK_HEALTH_MTHR [0, 0] 1

/-- The lanes of direction (0, 0) that have crossed, in the next state. -/
def crossedAfter : Ans → List (Nat × Nat)
  | .next t => (t.dir 0 0).crossed
  | _ => []

theorem crossedAfter_spareInUse : crossedAfter (exec (.laneHealthInterval 0 0 [(0, 0, 1)]) spareInUse) = [] := by decide +kernel

/-- Refutes O34: its clause of LANE_HEALTH_INTERVAL says that every lane past the threshold enters the lanes that have crossed. A lane
that its group's spare stands in for is out of use and never does. -/
theorem not_linksTrainReplayAndRepairThemselves : ¬ Obligations.LinksTrainReplayAndRepairThemselves := by
  unfold Obligations.LinksTrainReplayAndRepairThemselves
  rintro ⟨-, -, -, -, -, -, -, -, -, -, -, -, -, hhealth, -⟩
  obtain ⟨t, ht, hcrossed, -⟩ := hhealth 0 0 0 0 1 spareInUse (by decide +kernel) (by decide +kernel)
  have hnone : (t.dir (0 : Fin 8) (0 : Fin 3)).crossed = [] := (congrArg crossedAfter ht).symm.trans crossedAfter_spareInUse
  rw [hnone] at hcrossed
  exact Bool.false_ne_true hcrossed

/-! PROOFS. Sealed ranges: claims, range commands, key operations, sweeps and the counter tree (R260 to R285). -/

/-! ## The sweeps of a stack -/

section
variable {s : State} {st r : Nat}

theorem State.setSeal_seal (x : SealRt) : (s.setSeal st x).seal st = x := by
  simp only [State.setSeal, State.seal]
  exact smGet_smPut_same _ _ _ _

/-- What `SEAL_STAT.KIND` shows of the sweeps of a stack (R283): repairs go first. -/
noncomputable def SealRt.kind (x : SealRt) : Nat :=
  match x.repairs, x.run with
  | _ :: _, _ => 4
  | [], some w => w.kind
  | [], none => 0

theorem SealRt.kind_repairs {x : SealRt} (h : x.repairs ≠ []) : x.kind = 4 := by
  unfold SealRt.kind
  cases hx : x.repairs with
  | nil => exact absurd hx h
  | cons => rfl

theorem State.setSeal_kind (x : SealRt) : (s.setSeal st x).rd .SEAL_STAT_KIND [st] = x.kind % 8 := by
  unfold State.setSeal SealRt.kind
  dsimp only
  cases x.repairs with
  | nil => cases x.run <;> simp (disch := decide) only [State.rd_wr_fld, State.rd_wr_same] <;> rfl
  | cons => simp (disch := decide) only [State.rd_wr_fld, State.rd_wr_same]; rfl

theorem State.setSeal_permitWait (x : SealRt) :
    (s.setSeal st x).rd .SEAL_STAT_PERMIT_WAIT [st] = if x.asked || x.rAsked then 1 else 0 := by
  unfold State.setSeal
  dsimp only
  simp (disch := decide) only [State.rd_wr_fld, State.rd_wr_same]
  split <;> rfl

theorem State.setSeal_now (x : SealRt) : (s.setSeal st x).now = s.now := by
  unfold State.setSeal
  rfl

theorem State.setSeal_hbm (x : SealRt) : (s.setSeal st x).hbm = s.hbm := by
  unfold State.setSeal
  rfl

theorem State.setSeal_gov (x : SealRt) (g : Nat) : (s.setSeal st x).gov g = s.gov g := by
  unfold State.setSeal
  rfl

theorem State.request_seal (g op units : Nat) (who : List Nat) (chain : List (List Nat)) :
    (s.request g op units who chain).seal st = s.seal st :=
  congrArg (fun m : SMap SealRt => smGet m [st] {}) (State.request_keeps (Keeps.part (p := .seals) rfl (by decide) s) s g op units who chain rfl)

/-- `SEAL_STAT.KIND` shows the sweeps as they are. -/
def State.kindShown (s : State) (st : Nat) : Prop := s.rd .SEAL_STAT_KIND [st] = (s.seal st).kind % 8

theorem State.setSeal_kindShown (x : SealRt) : (s.setSeal st x).kindShown st := by
  unfold State.kindShown
  rw [State.setSeal_kind, State.setSeal_seal]

theorem State.wr_kindShown (h : s.kindShown st) {f : Fld} (hf : f ≠ .SEAL_STAT_KIND) (i : List Nat) (v : Nat) :
    (s.wr f i v).kindShown st := (State.rd_wr_fld s f .SEAL_STAT_KIND i [st] v hf).trans h

theorem State.wr_seal (f : Fld) (i : List Nat) (v : Nat) : (s.wr f i v).seal st = s.seal st := rfl

/-- Bringing the permit of the running sweep to its rate changes only what it holds and asks for. -/
theorem State.sweepPermit_seal : ((s.sweepPermit st).seal st).run = (s.seal st).run ∧
    ((s.sweepPermit st).seal st).repairs = (s.seal st).repairs := by
  unfold State.sweepPermit
  dsimp only
  split
  · exact ⟨rfl, rfl⟩
  split
  · exact ⟨rfl, rfl⟩
  split
  · rw [State.setSeal_seal]
    exact ⟨rfl, rfl⟩
  split
  · exact ⟨rfl, rfl⟩
  split
  · rw [State.request_seal, State.setSeal_seal]
    exact ⟨rfl, rfl⟩
  split
  · rw [State.setSeal_seal]
    exact ⟨rfl, rfl⟩
  · exact ⟨rfl, rfl⟩

theorem State.sweepPermit_kindShown (h : s.kindShown st) : (s.sweepPermit st).kindShown st := by
  unfold State.sweepPermit
  dsimp only
  cases hrun : (s.seal st).run with
  | none => exact h
  | some w =>
    dsimp only
    split
    · exact h
    split
    · exact State.setSeal_kindShown _
    split
    · exact h
    split
    · unfold State.kindShown
      rw [State.request_rd _ _ _ _ _ _ rfl, State.request_seal]
      exact State.setSeal_kindShown _
    split
    · exact State.setSeal_kindShown _
    · exact h

/-- Bringing the permit of a repair to its rate changes only what it holds and asks for. -/
theorem State.repairPermit_seal : ((s.repairPermit st).seal st).run = (s.seal st).run ∧
    ((s.repairPermit st).seal st).repairs = (s.seal st).repairs := by
  unfold State.repairPermit
  dsimp only
  split
  · rw [State.setSeal_seal]
    exact ⟨rfl, rfl⟩
  split
  · exact ⟨rfl, rfl⟩
  split
  · rw [State.request_seal, State.setSeal_seal]
    exact ⟨rfl, rfl⟩
  split
  · rw [State.setSeal_seal]
    exact ⟨rfl, rfl⟩
  · exact ⟨rfl, rfl⟩

theorem State.repairPermit_kindShown (h : s.kindShown st) : (s.repairPermit st).kindShown st := by
  unfold State.repairPermit
  dsimp only
  cases hrep : (s.seal st).repairs with
  | nil => exact State.setSeal_kindShown _
  | cons w l =>
    dsimp only
    split
    · exact h
    split
    · unfold State.kindShown
      rw [State.request_rd _ _ _ _ _ _ rfl, State.request_seal]
      exact State.setSeal_kindShown _
    split
    · exact State.setSeal_kindShown _
    · exact h

/-! ## A sweep begins -/

/-- The sweep that begins runs from position 0, and shows unless a repair does. -/
theorem State.sweepBegin_spec (w : Sweep) : (s.sweepBegin st w).rd .SEAL_POS_POS [st, w.r] = 0 ∧
    ((s.sweepBegin st w).seal st).run = some w ∧ (s.sweepBegin st w).kindShown st ∧
    ((s.sweepBegin st w).seal st).repairs = (s.seal st).repairs := by
  unfold State.sweepBegin
  have hseal := State.setSeal_seal (s := s) (st := st) { s.seal st with run := some w }
  have hshown := State.setSeal_kindShown (s := s) (st := st) { s.seal st with run := some w }
  generalize s.setSeal st { s.seal st with run := some w } = u at hseal hshown
  obtain ⟨hrun, hrep⟩ := State.sweepPermit_seal (s := u.wr .SEAL_POS_POS [st, w.r] 0) (st := st)
  refine ⟨(State.sweepPermit_rd _ _ rfl).trans (State.rd_wr_same _ _ _ _), ?_,
    State.sweepPermit_kindShown (State.wr_kindShown hshown (by decide) _ _), ?_⟩
  · rw [hrun, State.wr_seal, hseal]
  · rw [hrep, State.wr_seal, hseal]

theorem State.sweepQueue_idle {w : Sweep} (h : (s.seal st).run = none) : s.sweepQueue st w = s.sweepBegin st w := by
  unfold State.sweepQueue
  dsimp only
  rw [h]

/-- A sweep queued behind another leaves its range at its position. -/
theorem State.sweepQueue_pos {w : Sweep} (h : s.rd .SEAL_POS_POS [st, w.r] = 0) : (s.sweepQueue st w).rd .SEAL_POS_POS [st, w.r] = 0 := by
  unfold State.sweepQueue
  dsimp only
  cases (s.seal st).run with
  | none =>
    obtain ⟨hpos, -⟩ := State.sweepBegin_spec (s := s) (st := st) w
    exact hpos
  | some v => exact (State.setSeal_rd _ _ _ rfl).trans h

/-! ## First errors (R276, R284) -/

theorem State.sealErr_valid (code a level : Nat) : (s.sealErr st code r level a).rd .SEAL_ERR_VALID [st] ≠ 0 := by
  unfold State.sealErr
  split
  next hon => simpa [State.on] using hon
  next =>
    rw [State.rd_wr_same]
    decide

theorem State.sealErr_code {code : Nat} (hc : code < 16) (hfirst : s.rd .SEAL_ERR_VALID [st] = 0) (a level : Nat) :
    (s.sealErr st code r level a).rd .SEAL_ERR_CODE [st] = code := by
  have hw : (Fld.spec .SEAL_ERR_CODE).width = 4 := rfl
  unfold State.sealErr
  rw [if_neg (by simp [State.on, hfirst])]
  simp (disch := decide) only [State.rd_wr_fld, State.rd_wr_same]
  rw [hw]
  exact Nat.mod_eq_of_lt hc

/-! ## Claims (R264) -/

theorem exec_sealClaim {w : Writer} {st : Fin 4} {r : Fin 16} {o : Nat} (h : s.reaches w .SEAL_RCTL [st, r] = true)
    (ho : sealWriter w = some o) (hfree : s.rd .SEAL_RCTL_OWNER [st, r] = 15) :
    exec (.sealClaim w st r) s = .next (s.wr .SEAL_RCTL_OWNER [st, r] o) := by
  change execSealClaim w st r s = _
  unfold execSealClaim
  dsimp only
  rw [State.reach_of h, ho]
  exact congrArg Host.Outcome.next (if_pos hfree)

theorem exec_sealClaim_owned {w : Writer} {st : Fin 4} {r : Fin 16} (h : s.reaches w .SEAL_RCTL [st, r] = true)
    (hown : s.rd .SEAL_RCTL_OWNER [st, r] ≠ 15) :
    exec (.sealClaim w st r) s = .next (s.drop w .SEAL_RCTL [st, r] (s.wordWith .SEAL_RCTL [st, r] [(.SEAL_RCTL_CLAIM, 1)])) := by
  change execSealClaim w st r s = _
  unfold execSealClaim
  dsimp only
  rw [State.reach_of h]
  cases sealWriter w with
  | none => rfl
  | some o => exact congrArg Host.Outcome.next (if_neg hown)

/-! ## Range commands (R267) -/

/-- A command of the owner that is out of place: code 6 (R267). -/
noncomputable def State.sealRefused (s : State) (st r cmd : Nat) : State := (s.sealErr st 6 r 0 0).raise .SEAL_CTL [st] 267 2 [r, cmd]

/-- What a command out of place leaves and records. -/
theorem State.sealRefused_spec (cmd : Nat) : (s.sealRefused st r cmd).rd .SEAL_RSTAT_STATE [st, r] = s.rd .SEAL_RSTAT_STATE [st, r] ∧
    (s.sealRefused st r cmd).seals = s.seals ∧ (s.sealRefused st r cmd).rd .SEAL_ERR_VALID [st] ≠ 0 ∧
    (s.rd .SEAL_ERR_VALID [st] = 0 → (s.sealRefused st r cmd).rd .SEAL_ERR_CODE [st] = 6) := by
  unfold State.sealRefused
  refine ⟨(State.raise_rd _ _ _ _ _ _ rfl).trans (State.sealErr_rd _ _ _ _ _ _ rfl), ?_, ?_, fun hfirst => ?_⟩
  · exact State.sealErr_keeps (Keeps.part (p := .seals) rfl (by decide) s) s st 6 r 0 0 rfl
  · rw [State.raise_rd _ _ _ _ _ _ rfl]
    exact State.sealErr_valid _ _ _
  · exact (State.raise_rd _ _ _ _ _ _ rfl).trans (State.sealErr_code (by decide) hfirst _ _)

theorem State.sealCmd_accepted {w : Writer} {cmd : Nat} {k : State → Option State} {t : State}
    (h : s.reaches w .SEAL_RCTL [st, r] = true) (ho : s.ownsRange w st r = true) (hk : k s = some t) : s.sealCmd w st r cmd k = t := by
  unfold State.sealCmd
  dsimp only
  rw [State.reach_of h, if_pos ho, hk]

theorem State.sealCmd_refused {w : Writer} {cmd : Nat} {k : State → Option State}
    (h : s.reaches w .SEAL_RCTL [st, r] = true) (ho : s.ownsRange w st r = true) (hk : k s = none) :
    s.sealCmd w st r cmd k = s.sealRefused st r cmd := by
  unfold State.sealCmd
  dsimp only
  rw [State.reach_of h, if_pos ho, hk]
  rfl

/-- ENABLE makes the range one of `STATE` 1 and starts the sweep that initialises it. -/
noncomputable def State.rangeEnabled (s : State) (st r : Nat) : State :=
  ((s.rangeUncached st r).wr .SEAL_RSTAT_STATE [st, r] 1).sweepQueue st { kind := 1, r := r, stop := 16384 * s.rd .SEAL_SIZE_MIB [st, r] }

theorem exec_enable {w : Writer} {st : Fin 4} {r : Fin 16} (h : s.reaches w .SEAL_RCTL [st, r] = true)
    (ho : s.ownsRange w st r = true) (hok : s.enableOk st r = true) : exec (.enable w st r) s = .next (s.rangeEnabled st r) :=
  congrArg Host.Outcome.next (State.sealCmd_accepted h ho (if_pos hok))

theorem exec_enable_refused {w : Writer} {st : Fin 4} {r : Fin 16} (h : s.reaches w .SEAL_RCTL [st, r] = true)
    (ho : s.ownsRange w st r = true) (hbad : s.enableOk st r = false) : exec (.enable w st r) s = .next (s.sealRefused st r 1) :=
  congrArg Host.Outcome.next (State.sealCmd_refused h ho (if_neg (by rw [hbad]; decide)))

theorem State.rangeUncached_seal (r : Nat) : (s.rangeUncached st r).seal st = s.seal st :=
  congrArg (fun m : SMap SealRt => smGet m [st] {}) (State.rangeUncached_keeps (Keeps.part (p := .seals) rfl (by decide) s) s st r rfl)

theorem State.rangeEnabled_spec (hrun : (s.seal st).run = none) (hrep : (s.seal st).repairs = []) :
    (s.rangeEnabled st r).rd .SEAL_RSTAT_STATE [st, r] = 1 ∧ (s.rangeEnabled st r).rd .SEAL_POS_POS [st, r] = 0 ∧
    ((s.rangeEnabled st r).seal st).run = some { kind := 1, r := r, stop := 16384 * s.rd .SEAL_SIZE_MIB [st, r] } ∧
    (s.rangeEnabled st r).rd .SEAL_STAT_KIND [st] = 1 ∧
    (s.rangeEnabled st r).rd .SEAL_RCTL_OWNER [st, r] = s.rd .SEAL_RCTL_OWNER [st, r] := by
  unfold State.rangeEnabled
  have hseal := State.rangeUncached_seal (s := s) (st := st) r
  have howner : ((s.rangeUncached st r).wr .SEAL_RSTAT_STATE [st, r] 1).rd .SEAL_RCTL_OWNER [st, r] = s.rd .SEAL_RCTL_OWNER [st, r] :=
    (State.rd_wr_fld _ _ _ _ _ _ (by decide)).trans (State.rangeUncached_rd _ _ _ rfl)
  have hstate := State.rd_wr_same (s.rangeUncached st r) .SEAL_RSTAT_STATE [st, r] 1
  rw [← State.wr_seal .SEAL_RSTAT_STATE [st, r] 1] at hseal
  generalize (s.rangeUncached st r).wr .SEAL_RSTAT_STATE [st, r] 1 = u at hseal howner hstate
  rw [← hseal] at hrun hrep
  rw [State.sweepQueue_idle hrun]
  obtain ⟨hpos, hrun', hshown, hrep'⟩ :=
    State.sweepBegin_spec (s := u) (st := st) { kind := 1, r := r, stop := 16384 * s.rd .SEAL_SIZE_MIB [st, r] }
  refine ⟨(State.sweepBegin_rd _ _ _ rfl).trans hstate, hpos, hrun', hshown.trans ?_, (State.sweepBegin_rd _ _ _ rfl).trans howner⟩
  unfold SealRt.kind
  rw [hrep', hrep, hrun']
  rfl

/-- DISABLE of a free range erases its slots and gives it up. -/
def State.rangeGivenUp (s : State) (st r : Nat) : State := ((s.eraseSlot st r 0).eraseSlot st r 1).wr .SEAL_RCTL_OWNER [st, r] 15

theorem exec_disable_free {w : Writer} {st : Fin 4} {r : Fin 16} (h : s.reaches w .SEAL_RCTL [st, r] = true)
    (ho : s.ownsRange w st r = true) (hst : s.rd .SEAL_RSTAT_STATE [st, r] = 0) :
    exec (.disable w st r) s = .next (s.rangeGivenUp st r) :=
  congrArg Host.Outcome.next (State.sealCmd_accepted h ho (if_pos hst))

theorem State.eraseSlot_keys (i j : Nat) : smGet (s.eraseSlot st r i).keys [st, 2 * r + j] 0 = if i = j then 0 else smGet s.keys [st, 2 * r + j] 0 := by
  unfold State.eraseSlot
  refine (smGet_smPut s.keys [st, 2 * r + i] [st, 2 * r + j] 0 0).trans ?_
  simp

theorem sub_and_two_pow_testBit (x i : Nat) : (x - (x &&& 2 ^ i)).testBit i = false := by
  rw [Nat.testBit_eq_decide_div_mod_eq, Nat.and_two_pow, Nat.toNat_testBit, Nat.mul_comm, Nat.sub_mul_div]
  simp only [decide_eq_false_iff_not]
  omega

theorem State.eraseSlot_bits (i : Nat) : (s.eraseSlot st r i).rd .SEAL_RSTAT_KEYS [st, r] =
    (s.rd .SEAL_RSTAT_KEYS [st, r] - (s.rd .SEAL_RSTAT_KEYS [st, r] &&& 2 ^ i)) % 2 ^ 2 := by
  unfold State.eraseSlot State.setBit
  exact State.rd_wr_same _ _ _ _

/-- A slot erased holds no key. -/
theorem State.eraseSlot_bit (i : Nat) : ((s.eraseSlot st r i).rd .SEAL_RSTAT_KEYS [st, r]).testBit i = false := by
  rw [State.eraseSlot_bits, Nat.testBit_mod_two_pow, sub_and_two_pow_testBit, Bool.and_false]

/-- With both slots erased the range holds no key. -/
theorem State.eraseSlots_none : ((s.eraseSlot st r 0).eraseSlot st r 1).rd .SEAL_RSTAT_KEYS [st, r] = 0 := by
  have hbit := State.eraseSlot_bit (s := s) (st := st) (r := r) 0
  have hlt : (s.eraseSlot st r 0).rd .SEAL_RSTAT_KEYS [st, r] < 4 := by
    rw [State.eraseSlot_bits]
    exact Nat.mod_lt _ (by decide)
  rw [State.eraseSlot_bits]
  generalize (s.eraseSlot st r 0).rd .SEAL_RSTAT_KEYS [st, r] = y at hbit hlt
  have heven : y = 0 ∨ y = 2 := by
    have hmod : y % 2 ≠ 1 := by simpa [Nat.testBit_zero] using hbit
    omega
  rcases heven with rfl | rfl <;> rfl

theorem State.rangeGivenUp_spec : (s.rangeGivenUp st r).rd .SEAL_RCTL_OWNER [st, r] = 15 ∧
    (s.rangeGivenUp st r).rd .SEAL_RSTAT_STATE [st, r] = s.rd .SEAL_RSTAT_STATE [st, r] ∧
    (s.rangeGivenUp st r).rd .SEAL_RSTAT_KEYS [st, r] = 0 ∧ smGet (s.rangeGivenUp st r).keys [st, 2 * r] 0 = 0 ∧
    smGet (s.rangeGivenUp st r).keys [st, 2 * r + 1] 0 = 0 := by
  unfold State.rangeGivenUp
  refine ⟨State.rd_wr_same _ _ _ _, ?_, ?_, ?_, ?_⟩
  · exact (State.rd_wr_fld _ _ _ _ _ _ (by decide)).trans ((State.eraseSlot_rd _ _ _ _ rfl).trans (State.eraseSlot_rd _ _ _ _ rfl))
  · exact (State.rd_wr_fld _ _ _ _ _ _ (by decide)).trans State.eraseSlots_none
  · exact (State.eraseSlot_keys 1 0).trans (State.eraseSlot_keys 0 0)
  · exact State.eraseSlot_keys 1 1

/-- A live range that is disabled has no re-key left. -/
def State.rangeStopped (s : State) (st r : Nat) : State :=
  ((s.wr .SEAL_RSTAT_SWSTOP [st, r] 0).wr .SEAL_RSTAT_STATE [st, r] 4).dropRekey st r

/-- DISABLE of a live range starts its release. -/
noncomputable def State.rangeReleased (s : State) (st r : Nat) : State :=
  (s.rangeStopped st r).sweepQueue st { kind := 3, r := r, stop := 16384 * (s.rangeStopped st r).rd .SEAL_SIZE_MIB [st, r] }

theorem exec_disable_live {w : Writer} {st : Fin 4} {r : Fin 16} (h : s.reaches w .SEAL_RCTL [st, r] = true)
    (ho : s.ownsRange w st r = true) (hst : [2, 3, 5].contains (s.rd .SEAL_RSTAT_STATE [st, r]) = true) :
    exec (.disable w st r) s = .next (s.rangeReleased st r) := by
  have hlive : s.sealState st r = 2 ∨ s.sealState st r = 3 ∨ s.sealState st r = 5 := by
    simpa [State.sealState] using hst
  exact congrArg Host.Outcome.next (State.sealCmd_accepted h ho ((if_neg (by omega)).trans (if_pos hlive)))

theorem exec_disable_refused {w : Writer} {st : Fin 4} {r : Fin 16} (h : s.reaches w .SEAL_RCTL [st, r] = true)
    (ho : s.ownsRange w st r = true) (hst : [2, 3, 5].contains (s.rd .SEAL_RSTAT_STATE [st, r]) = false)
    (hfree : s.rd .SEAL_RSTAT_STATE [st, r] ≠ 0) : exec (.disable w st r) s = .next (s.sealRefused st r 2) := by
  have hlive : ¬ (s.sealState st r = 2 ∨ s.sealState st r = 3 ∨ s.sealState st r = 5) := by
    simpa [State.sealState] using hst
  exact congrArg Host.Outcome.next (State.sealCmd_refused h ho ((if_neg hfree).trans (if_neg hlive)))

theorem State.rangeReleased_rd {f : Fld} (hf : hasFld opFieldsSweepQueue f = false) (i : List Nat) :
    (s.rangeReleased st r).rd f i = ((s.wr .SEAL_RSTAT_SWSTOP [st, r] 0).wr .SEAL_RSTAT_STATE [st, r] 4).rd f i :=
  (State.sweepQueue_rd _ _ _ hf).trans (State.dropRekey_rd _ _ _ hf)

theorem State.rangeReleased_spec : (s.rangeReleased st r).rd .SEAL_RSTAT_STATE [st, r] = 4 ∧
    (s.rangeReleased st r).rd .SEAL_RCTL_OWNER [st, r] = s.rd .SEAL_RCTL_OWNER [st, r] ∧ (s.rangeReleased st r).keys = s.keys := by
  refine ⟨(State.rangeReleased_rd rfl _).trans (State.rd_wr_same _ _ _ _), (State.rangeReleased_rd rfl _).trans
    ((State.rd_wr_fld _ _ _ _ _ _ (by decide)).trans (State.rd_wr_fld _ _ _ _ _ _ (by decide))), ?_⟩
  unfold State.rangeReleased State.rangeStopped
  exact State.sweepQueue_keeps (Keeps.part (p := .keys) rfl (by decide) s) _ _ _
    (State.dropRekey_keeps (Keeps.part (p := .keys) rfl (by decide) s) _ _ _ rfl)

/-- REKEY gives `STATE` 3 and position 0, and queues the sweep. -/
noncomputable def State.rangeRekeyed (s : State) (st r : Nat) : State :=
  ((s.wr .SEAL_RSTAT_STATE [st, r] 3).wr .SEAL_POS_POS [st, r] 0).sweepQueue st
    { kind := 2, r := r, stop := 16384 * s.rd .SEAL_SIZE_MIB [st, r] }

theorem exec_rekey {w : Writer} {st : Fin 4} {r : Fin 16} (h : s.reaches w .SEAL_RCTL [st, r] = true)
    (ho : s.ownsRange w st r = true) (hst : s.rd .SEAL_RSTAT_STATE [st, r] = 2)
    (hkey : s.holdsKey st r (1 - s.rd .SEAL_RCTL_CUR [st, r]) = true) : exec (.rekey w st r) s = .next (s.rangeRekeyed st r) :=
  congrArg Host.Outcome.next (State.sealCmd_accepted h ho (if_pos ⟨hst, hkey⟩))

theorem exec_rekey_refused {w : Writer} {st : Fin 4} {r : Fin 16} (h : s.reaches w .SEAL_RCTL [st, r] = true)
    (ho : s.ownsRange w st r = true)
    (hbad : s.rd .SEAL_RSTAT_STATE [st, r] ≠ 2 ∨ s.holdsKey st r (1 - s.rd .SEAL_RCTL_CUR [st, r]) = false) :
    exec (.rekey w st r) s = .next (s.sealRefused st r 3) := by
  refine congrArg Host.Outcome.next (State.sealCmd_refused h ho (if_neg ?_))
  rintro ⟨hst, hkey⟩
  exact hbad.elim (fun hne => hne hst) (fun hno => Bool.false_ne_true (hno.symm.trans hkey))

theorem State.rangeRekeyed_spec : (s.rangeRekeyed st r).rd .SEAL_RSTAT_STATE [st, r] = 3 ∧
    (s.rangeRekeyed st r).rd .SEAL_POS_POS [st, r] = 0 ∧
    (s.rangeRekeyed st r).rd .SEAL_RCTL_CUR [st, r] = s.rd .SEAL_RCTL_CUR [st, r] := by
  unfold State.rangeRekeyed
  refine ⟨(State.sweepQueue_rd _ _ _ rfl).trans ((State.rd_wr_fld _ _ _ _ _ _ (by decide)).trans (State.rd_wr_same _ _ _ _)),
    State.sweepQueue_pos (State.rd_wr_same _ _ _ _),
    (State.sweepQueue_rd _ _ _ rfl).trans ((State.rd_wr_fld _ _ _ _ _ _ (by decide)).trans (State.rd_wr_fld _ _ _ _ _ _ (by decide)))⟩

theorem exec_sealResume {w : Writer} {st : Fin 4} {r : Fin 16} (h : s.reaches w .SEAL_RCTL [st, r] = true)
    (ho : s.ownsRange w st r = true) (hstop : s.rd .SEAL_RSTAT_SWSTOP [st, r] = 1) :
    exec (.sealResume w st r) s = .next ((s.wr .SEAL_RSTAT_SWSTOP [st, r] 0).sweepPermit st) :=
  congrArg Host.Outcome.next (State.sealCmd_accepted h ho (if_pos (by rw [State.on, hstop]; rfl)))

theorem exec_sealResume_refused {w : Writer} {st : Fin 4} {r : Fin 16} (h : s.reaches w .SEAL_RCTL [st, r] = true)
    (ho : s.ownsRange w st r = true) (hstop : s.rd .SEAL_RSTAT_SWSTOP [st, r] = 0) :
    exec (.sealResume w st r) s = .next (s.sealRefused st r 4) :=
  congrArg Host.Outcome.next (State.sealCmd_refused h ho (if_neg (by rw [State.on, hstop]; decide)))

/-! ## Key operations (R266, R283, R446) -/

/-- A key operation begins. -/
noncomputable def State.keyBegun (s : State) (st slot op session : Nat) : State :=
  let t := (s.wr .SEAL_KEY_SLOT [st] slot).wr .SEAL_KEY_SESSION [st] session
  { t with keyOp := smPut t.keyOp [st] [slot, op, t.now, session] [] }.wr .SEAL_KEY_BUSY [st] 1

theorem State.keyCmd_taken {w : Writer} {slot op session : Nat} {ok : Bool} (h : s.reaches w .SEAL_KEY [st] = true)
    (hidle : s.rd .SEAL_KEY_BUSY [st] = 0) (ho : s.ownsRange w st (slot / 2) = true) (hw : ∀ p : Fin 2, w ≠ .pelorus p)
    (hslot : slot < 32) (hfree : s.slotFree st slot = true) (hok : ok = true) :
    s.keyCmd w st slot op session ok = s.keyBegun st slot op session := by
  have hfree' : ((s.wr .SEAL_KEY_SLOT [st] slot).wr .SEAL_KEY_SESSION [st] session).slotFree st slot = true := by
    unfold State.slotFree State.sealState at hfree ⊢
    simp (disch := decide) only [State.rd_wr_fld]
    exact hfree
  unfold State.keyCmd
  dsimp only
  rw [State.reach_of h]
  refine (if_neg ?_).trans (if_pos ⟨hslot, hfree', hok⟩)
  rw [State.on, hidle]
  cases w with
  | pelorus p => exact absurd rfl (hw p)
  | fn _ | helm _ | binnacle | ring | other => simp [ho]

/-- The operation under way shows its slot. -/
theorem State.keyBegun_spec {slot op session : Nat} (hslot : slot < 32) :
    (s.keyBegun st slot op session).rd .SEAL_KEY_BUSY [st] = 1 ∧ (s.keyBegun st slot op session).rd .SEAL_KEY_SLOT [st] = slot ∧
    (smGet (s.keyBegun st slot op session).keyOp [st] []).take 2 = [slot, op] := by
  have hw : (Fld.spec .SEAL_KEY_SLOT).width = 6 := rfl
  refine ⟨State.rd_wr_same _ _ _ _, ?_, ?_⟩
  · refine (State.rd_wr_fld _ _ _ _ _ _ (by decide)).trans ((State.rd_wr_fld _ _ _ _ _ _ (by decide)).trans
      ((State.rd_wr_same s .SEAL_KEY_SLOT [st] slot).trans ?_))
    rw [hw]
    exact Nat.mod_eq_of_lt (by omega)
  · exact congrArg (List.take 2) (smGet_smPut_same s.keyOp [st] [slot, op, s.now, session] [])

/-- The operation under way shows its session. -/
theorem State.keyBegun_session {slot op session : Nat} (hses : session < 256) :
    (s.keyBegun st slot op session).rd .SEAL_KEY_SESSION [st] = session := by
  have hw : (Fld.spec .SEAL_KEY_SESSION).width = 8 := rfl
  refine (State.rd_wr_fld _ _ _ _ _ _ (by decide)).trans
    ((State.rd_wr_same (s.wr .SEAL_KEY_SLOT [st] slot) .SEAL_KEY_SESSION [st] session).trans ?_)
  rw [hw]
  exact Nat.mod_eq_of_lt hses

theorem slotBits (slot : Fin 32) : (slot.val : BitVec 6).toNat = slot.val := by
  simp only [BitVec.natCast_eq_ofNat, BitVec.toNat_ofNat]
  omega

/-- A key operation has ended. -/
noncomputable def State.keyEnded (s : State) (st : Nat) : State := { s with keyOp := smPut s.keyOp [st] [] [] }.wr .SEAL_KEY_BUSY [st] 0

theorem State.keyEnded_busy : (s.keyEnded st).rd .SEAL_KEY_BUSY [st] = 0 := State.rd_wr_same _ _ _ _

theorem exec_sealKeyDone_erase {st : Fin 4} {slot u n : Nat} (h : smGet s.keyOp [st.val] [] = [slot, 3, u, n]) :
    exec (.sealKeyDone st none) s = .next ((s.keyEnded st).eraseSlot st (slot / 2) (slot % 2)) := by
  change execSealKeyDone st none s = _
  unfold execSealKeyDone
  rw [h]
  rfl

/-- The slot takes a new key of 768 free bits. -/
noncomputable def State.keyMade (s : State) (st slot : Nat) : State :=
  ((s.draw 512).2.draw 256).2.giveKey st slot ((s.draw 512).1 + ((s.draw 512).2.draw 256).1 * 2 ^ 512)

theorem exec_sealKeyDone_generate {st : Fin 4} {slot u n : Nat} (h : smGet s.keyOp [st.val] [] = [slot, 1, u, n])
    (hok : s.rd .LS_STAT_TRNG_OK [] = 1) : exec (.sealKeyDone st none) s = .next ((s.keyEnded st).keyMade st slot) := by
  have hon : ¬ (1 = 1 ∧ s.on .LS_STAT_TRNG_OK [] = false) := by
    rw [State.on, hok]
    decide
  change execSealKeyDone st none s = _
  unfold execSealKeyDone
  rw [h]
  exact (if_neg hon).trans (if_pos rfl)

theorem State.keyMade_spec (slot : Nat) : (s.keyMade st slot).rd .SEAL_KEY_BUSY [st] = s.rd .SEAL_KEY_BUSY [st] ∧
    ((s.keyMade st slot).rd .SEAL_RSTAT_KEYS [st, slot / 2]).testBit (slot % 2) = true ∧ (s.keyMade st slot).draws = s.draws + 2 := by
  unfold State.keyMade
  refine ⟨(State.giveKey_rd _ _ _ _ rfl).trans ((State.draw_rd _ _ rfl).trans (State.draw_rd _ _ rfl)), ?_, rfl⟩
  unfold State.giveKey
  exact State.setBit_get _ _ _ _ (Nat.mod_lt _ (by decide))

theorem State.keyErased_spec (slot : Nat) : (s.eraseSlot st (slot / 2) (slot % 2)).rd .SEAL_KEY_BUSY [st] = s.rd .SEAL_KEY_BUSY [st] ∧
    ((s.eraseSlot st (slot / 2) (slot % 2)).rd .SEAL_RSTAT_KEYS [st, slot / 2]).testBit (slot % 2) = false ∧
    smGet (s.eraseSlot st (slot / 2) (slot % 2)).keys [st, slot] 0 = 0 := by
  refine ⟨State.eraseSlot_rd _ _ _ _ rfl, State.eraseSlot_bit _, ?_⟩
  have hkey := State.eraseSlot_keys (s := s) (st := st) (r := slot / 2) (slot % 2) (slot % 2)
  rw [if_pos rfl, show 2 * (slot / 2) + slot % 2 = slot by omega] at hkey
  exact hkey

/-! ## The permit of a sweep (R277, R280) -/

theorem State.sealRate_of {t : State} (h : t.rd .SEAL_CTL_RATE [st] = s.rd .SEAL_CTL_RATE [st]) : t.sealRate st = s.sealRate st := by
  unfold State.sealRate
  rw [h]

/-- A sweep that holds what its rate needs keeps its permit as it is. -/
theorem State.sweepPermit_settled (hask : (s.seal st).asked = false) (hrate : 0 < s.sealRate st)
    (hunits : (s.seal st).units = sweepUnits (s.sealRate st)) : s.sweepPermit st = s := by
  unfold State.sweepPermit
  dsimp only
  cases hrun : (s.seal st).run with
  | none => rfl
  | some w =>
    dsimp only
    rw [if_neg (by omega : ¬ s.sealRate st = 0), hask, hunits, if_neg (Nat.lt_irrefl _), if_neg (Nat.lt_irrefl _)]
    split <;> rfl

theorem exec_sweepPermitGrant {st : Fin 4} {t : State} (hask : (s.seal st).asked = true) (hrep : (s.seal st).rAsked = false)
    (ht : s.takeGrant (2 * st) 10 [st.val] = some t) :
    exec (.sweepPermitGrant st) s = .next ((t.setSeal st { s.seal st with
      units := unitSum ((t.gov (2 * st)).held.filter (·.is 10 [st.val])), asked := false }).sweepPermit st) := by
  change execSweepPermitGrant st s = _
  unfold execSweepPermitGrant
  simp only [hask, hrep, Bool.false_eq_true, if_false, if_true]
  rw [ht]

theorem State.takeGrant_held {s t : State} {g op : Nat} {who : List Nat} (hready : (s.gov g).ready.any (·.is op who) = true)
    (ht : s.takeGrant g op who = some t) : (t.gov g).held = (s.gov g).held := by
  unfold State.takeGrant at ht
  simp only [hready, if_true, Option.some.injEq] at ht
  rw [← ht, State.setGov_gov, if_pos rfl]

theorem sweepPermitGrant_spec {st : Fin 4} {t : State} (hask : (s.seal st).asked = true) (hrep : (s.seal st).rAsked = false)
    (hrate : 0 < s.sealRate st) (hready : (s.gov (2 * st)).ready.any (·.is 10 [st.val]) = true)
    (hunits : unitSum ((s.gov (2 * st)).held.filter (·.is 10 [st.val])) = sweepUnits (s.sealRate st))
    (ht : s.takeGrant (2 * st) 10 [st.val] = some t) :
    ∃ u, exec (.sweepPermitGrant st) s = .next u ∧ (u.seal st).asked = false ∧ (u.seal st).units = sweepUnits (s.sealRate st) ∧
      u.rd .SEAL_STAT_PERMIT_WAIT [st] = 0 := by
  rw [exec_sweepPermitGrant hask hrep ht, State.takeGrant_held hready ht, hunits]
  have hseal := State.setSeal_seal (s := t) (st := st) { s.seal st with units := sweepUnits (s.sealRate st), asked := false }
  have hwait := State.setSeal_permitWait (s := t) (st := st) { s.seal st with units := sweepUnits (s.sealRate st), asked := false }
  have hrate' : (t.setSeal st { s.seal st with units := sweepUnits (s.sealRate st), asked := false }).sealRate st = s.sealRate st :=
    State.sealRate_of ((State.setSeal_rd _ _ _ rfl).trans (State.takeGrant_rd ht rfl _))
  generalize t.setSeal st { s.seal st with units := sweepUnits (s.sealRate st), asked := false } = u at hseal hwait hrate'
  rw [State.sweepPermit_settled (s := u) (by rw [hseal]) (by rw [hrate']; exact hrate) (by rw [hseal, hrate'])]
  exact ⟨u, rfl, by rw [hseal], by rw [hseal], by rw [hwait, hrep]; rfl⟩

/-- The running sweep stops at its boundary, its permit having timed out. -/
def State.sweepTimedOut (s : State) (st r : Nat) (x : SealRt) : State :=
  ((((s.giveBack (2 * st) 10 [st]).setSeal st x).wr .SEAL_RSTAT_SWSTOP [st, r] 1).sealErr st 7 r 0 0).raise .SEAL_CTL [st] 280 2 [r]

theorem exec_sweepPermitTimeout {st : Fin 4} {w : Sweep} {t : State} (hask : (s.seal st).asked = true)
    (hrep : (s.seal st).rAsked = false) (hrun : (s.seal st).run = some w) (ht : s.takeTimeout (2 * st) 10 [st.val] = some t) :
    exec (.sweepPermitTimeout st) s = .next (t.sweepTimedOut st w.r { s.seal st with asked := false, units := 0 }) := by
  change execSweepPermitTimeout st s = _
  unfold execSweepPermitTimeout
  simp only [hask, hrep, Bool.false_eq_true, if_false, if_true]
  rw [hrun, ht]
  rfl

theorem State.sealErr_seal (code a level : Nat) : (s.sealErr st code r level a).seal st = s.seal st :=
  congrArg (fun m : SMap SealRt => smGet m [st] {}) (State.sealErr_keeps (Keeps.part (p := .seals) rfl (by decide) s) s st code r level a rfl)

theorem State.raise_seal (g : Reg) (i : List Nat) (rule sev : Nat) (l : List Nat) : (s.raise g i rule sev l).seal st = s.seal st := rfl

theorem State.sweepTimedOut_spec (x : SealRt) : (s.sweepTimedOut st r x).seal st = x ∧
    (s.sweepTimedOut st r x).rd .SEAL_RSTAT_SWSTOP [st, r] = 1 ∧
    (s.rd .SEAL_ERR_VALID [st] = 0 → (s.sweepTimedOut st r x).rd .SEAL_ERR_CODE [st] = 7) := by
  unfold State.sweepTimedOut
  have hseal := State.setSeal_seal (s := s.giveBack (2 * st) 10 [st]) (st := st) x
  have hvalid : ((s.giveBack (2 * st) 10 [st]).setSeal st x).rd .SEAL_ERR_VALID [st] = s.rd .SEAL_ERR_VALID [st] :=
    (State.setSeal_rd _ _ _ rfl).trans (State.giveBack_rd _ _ _ _ rfl)
  generalize (s.giveBack (2 * st) 10 [st]).setSeal st x = u at hseal hvalid
  rw [State.raise_seal, State.sealErr_seal, State.wr_seal, State.raise_rd _ _ _ _ _ _ rfl, State.sealErr_rd _ _ _ _ _ _ rfl,
    State.raise_rd _ _ _ _ _ _ rfl]
  refine ⟨hseal, State.rd_wr_same _ _ _ _, fun hfirst => State.sealErr_code (by decide) ?_ _ _⟩
  rw [State.rd_wr_fld _ _ _ _ _ _ (by decide), hvalid, hfirst]

theorem exec_repairPermitRetry {st : Fin 4} (h : (s.seal st).retryT ≠ 0) : exec (.repairPermitRetry st) s =
    .next (((s.lapseTo (s.seal st).retryT).setSeal st { s.seal st with retryT := 0 }).repairPermit st) := if_pos h

theorem sweepUnits_pos (n : Nat) : 0 < sweepUnits n := by
  unfold sweepUnits
  omega

/-- A repair that holds nothing asks for its permit. -/
theorem State.repairPermit_asks {x : Sweep} {l : List Sweep} (hrep : (s.seal st).repairs = x :: l) (hlent : (s.seal st).units = 0)
    (hask : (s.seal st).rAsked = false) (hretry : (s.seal st).retryT = 0) (hunits : (s.seal st).rUnits = 0) :
    s.repairPermit st = (s.setSeal st { s.seal st with rAsked := true }).request (2 * st) 10 (sweepUnits (s.repairRate st)) [st, 1] [] := by
  unfold State.repairPermit
  dsimp only
  rw [hrep]
  dsimp only
  rw [hlent, hask, hretry, hunits]
  exact (if_neg (by simp)).trans (if_pos (sweepUnits_pos _))

theorem repairPermitRetry_spec {st : Fin 4} {x : Sweep} {l : List Sweep} (hretry : (s.seal st).retryT ≠ 0)
    (hrep : (s.seal st).repairs = x :: l) (hlent : (s.seal st).units = 0) (hask : (s.seal st).rAsked = false)
    (hunits : (s.seal st).rUnits = 0) (hbudget : sweepUnits (s.repairRate st) ≤ s.rd .PG_CFG_BUDGET [2 * st.val]) :
    ∃ t, exec (.repairPermitRetry st) s = .next t ∧ (t.seal st).retryT = 0 ∧ (t.seal st).rAsked = true ∧
      (t.gov (2 * st)).queue.length = (s.gov (2 * st)).queue.length + 1 ∧ t.now = max s.now (s.seal st).retryT := by
  rw [exec_repairPermitRetry hretry]
  have hseal := State.setSeal_seal (s := s.lapseTo (s.seal st).retryT) (st := st) { s.seal st with retryT := 0 }
  have hrate : ((s.lapseTo (s.seal st).retryT).setSeal st { s.seal st with retryT := 0 }).repairRate st = s.repairRate st := by
    unfold State.repairRate
    rw [State.sealRate_of ((State.setSeal_rd _ _ _ rfl).trans (State.lapseTo_rd _ _ rfl))]
  have hbud : ((s.lapseTo (s.seal st).retryT).setSeal st { s.seal st with retryT := 0 }).rd .PG_CFG_BUDGET [2 * st.val] =
      s.rd .PG_CFG_BUDGET [2 * st.val] := (State.setSeal_rd _ _ _ rfl).trans (State.lapseTo_rd _ _ rfl)
  have hgov : ((s.lapseTo (s.seal st).retryT).setSeal st { s.seal st with retryT := 0 }).gov (2 * st) = s.gov (2 * st) :=
    (State.setSeal_gov _ _).trans (State.lapseTo_gov _ _ _)
  have hnow : ((s.lapseTo (s.seal st).retryT).setSeal st { s.seal st with retryT := 0 }).now = max s.now (s.seal st).retryT :=
    (State.setSeal_keeps (Keeps.part (p := .now) rfl (by decide) (s.lapseTo (s.seal st).retryT)) _ st _ rfl).trans (State.lapseTo_now _ _)
  generalize (s.lapseTo (s.seal st).retryT).setSeal st { s.seal st with retryT := 0 } = u at hseal hrate hbud hgov hnow
  rw [State.repairPermit_asks (s := u) (by rw [hseal]; exact hrep) (by rw [hseal]; exact hlent) (by rw [hseal]; exact hask)
    (by rw [hseal]) (by rw [hseal]; exact hunits), hrate]
  refine ⟨_, rfl, ?_, ?_, ?_, ?_⟩
  · rw [State.request_seal, State.setSeal_seal, hseal]
  · rw [State.request_seal, State.setSeal_seal]
  · rw [State.request_queue_length _ _ _ _ _ _ (by rw [State.setSeal_rd _ _ _ rfl, hbud]; exact hbudget), State.setSeal_gov, hgov]
  · exact (State.request_keeps (Keeps.part (p := .now) rfl (by decide) u) _ _ _ _ _ _
      (State.setSeal_keeps (Keeps.part (p := .now) rfl (by decide) u) _ st _ rfl)).trans hnow

/-! ## Chunks of a sweep (R278, R279) -/

theorem exec_sweepChunk {st : Fin 4} {w : Sweep} (hok : s.stackOk st = true) (hrep : (s.seal st).repairs = [])
    (hrun : (s.seal st).run = some w) (hunits : 0 < (s.seal st).units) (hask : (s.seal st).asked = false) (hrate : 0 < s.sealRate st)
    (hstop : s.sweepStopped st = false) (hbusy : s.chunkBusy st w.r w.pos = false) :
    exec (.sweepChunk st []) s = .next ((s.lapse (ceilDiv 4096 (s.sealRate st))).mainChunk st w []) := by
  change execSweepChunk st [] s = _
  unfold execSweepChunk
  dsimp only
  rw [if_neg (by rw [hok]; decide), hrep]
  dsimp only
  rw [hrun]
  exact if_pos ⟨by simp [hunits, hask], hrate, hstop, hbusy⟩

/-- A chunk of a re-key of a range without integrity, no bit altered, moves the sweep on. -/
theorem State.mainChunk_rekey {w : Sweep} (hkind : w.kind = 2) (hmode : s.rd .SEAL_RCTL_MODE [st, w.r] = 0) (hmore : w.pos + 64 < w.stop) :
    s.mainChunk st w [] = (s.wr .SEAL_POS_POS [st, w.r] (w.pos + 64)).setSeal st { s.seal st with run := some { w with pos := w.pos + 64 } } := by
  have hon : s.on .SEAL_RCTL_MODE [st, w.r] = false := by rw [State.on, hmode]; rfl
  unfold State.mainChunk
  dsimp only
  rw [hkind, hon, if_pos hmore]
  rfl

theorem sweepChunk_rekey_spec {st : Fin 4} {w : Sweep} (hok : s.stackOk st = true) (hrep : (s.seal st).repairs = [])
    (hrun : (s.seal st).run = some w) (hkind : w.kind = 2) (hmode : s.rd .SEAL_RCTL_MODE [st, w.r] = 0)
    (hunits : 0 < (s.seal st).units) (hask : (s.seal st).asked = false) (hrate : 0 < s.sealRate st)
    (hstop : s.sweepStopped st = false) (hbusy : s.chunkBusy st w.r w.pos = false) (hmore : w.pos + 64 < w.stop)
    (hpos : w.pos + 64 < 2 ^ 30) :
    ∃ t, exec (.sweepChunk st []) s = .next t ∧ t.rd .SEAL_POS_POS [st, w.r] = w.pos + 64 ∧
      (t.seal st).run = some { w with pos := w.pos + 64 } ∧ t.now = s.now + ceilDiv 4096 (s.sealRate st) ∧ t.hbm = s.hbm := by
  have hw : (Fld.spec .SEAL_POS_POS).width = 30 := rfl
  rw [exec_sweepChunk hok hrep hrun hunits hask hrate hstop hbusy]
  generalize ceilDiv 4096 (s.sealRate st) = d
  rw [State.mainChunk_rekey (s := s.lapse d) hkind ((State.lapse_rd _ _ rfl).trans hmode) hmore]
  refine ⟨_, rfl, ?_, ?_, ?_, ?_⟩
  · rw [State.setSeal_rd _ _ _ rfl, State.rd_wr_same, hw]
    exact Nat.mod_eq_of_lt hpos
  · rw [State.setSeal_seal]
  · exact State.setSeal_now _
  · exact State.setSeal_hbm _

/-- The last chunk of an initialisation: its lines read zero. -/
def State.chunkZeroed (s : State) (st : Nat) (w : Sweep) : State :=
  ((chunkLines w.pos).foldl (fun s i => s.zeroLine st w.r i) (if w.pos = 0 then s.treeClear st w.r else s)).wr .SEAL_POS_POS [st, w.r]
    (w.pos + 64)

theorem State.zeroLine_seals (i : Nat) : (s.zeroLine st r i).seals = s.seals :=
  State.zeroLine_keeps (Keeps.part (p := .seals) rfl (by decide) s) s st r i rfl

theorem State.treeClear_seals : (s.treeClear st r).seals = s.seals :=
  State.treeClear_keeps (Keeps.part (p := .seals) rfl (by decide) s) s st r rfl

theorem State.chunkZeroed_seal (w : Sweep) : (s.chunkZeroed st w).seal st = s.seal st := by
  have hseals : (s.chunkZeroed st w).seals = s.seals := by
    unfold State.chunkZeroed
    rw [State.wr_seals, State.foldl_keep State.seals (g := fun s i => s.zeroLine st w.r i) (fun _ _ => State.zeroLine_seals _)]
    split
    · exact State.treeClear_seals
    · rfl
  exact congrArg (fun m : SMap SealRt => smGet m [st] {}) hseals

theorem State.mainChunk_last {w : Sweep} (hkind : w.kind = 1) (hlast : w.stop ≤ w.pos + 64) :
    s.mainChunk st w [] = ((s.chunkZeroed st w).wr .SEAL_RSTAT_STATE [st, w.r] 2).sweepNext st := by
  unfold State.mainChunk
  dsimp only
  rw [hkind, if_neg (by omega)]
  unfold State.sweepEnd
  rw [hkind]
  rfl

/-- No sweep follows: none runs, and the permit has gone back. -/
theorem State.sweepNext_none (hqueue : (s.seal st).queue = []) (hrep : (s.seal st).repairs = []) :
    ((s.sweepNext st).seal st).run = none ∧ (s.sweepNext st).rd .SEAL_STAT_KIND [st] = 0 ∧
    ((s.sweepNext st).gov (2 * st)).held.any (·.is 10 [st]) = false := by
  have hseal : (s.giveBack (2 * st) 10 [st]).seal st = s.seal st := rfl
  unfold State.sweepNext
  dsimp only
  rw [hseal, hqueue]
  dsimp only
  rw [State.setSeal_seal, State.setSeal_kind, State.setSeal_gov, State.giveBack_held]
  refine ⟨rfl, ?_, rfl⟩
  unfold SealRt.kind
  rw [hrep]
  rfl

theorem sweepChunk_last_spec {st : Fin 4} {w : Sweep} (hok : s.stackOk st = true) (hrep : (s.seal st).repairs = [])
    (hrun : (s.seal st).run = some w) (hqueue : (s.seal st).queue = []) (hkind : w.kind = 1)
    (hunits : 0 < (s.seal st).units) (hask : (s.seal st).asked = false) (hrate : 0 < s.sealRate st)
    (hstop : s.sweepStopped st = false) (hbusy : s.chunkBusy st w.r w.pos = false) (hlast : w.stop ≤ w.pos + 64) :
    ∃ t, exec (.sweepChunk st []) s = .next t ∧ t.rd .SEAL_RSTAT_STATE [st, w.r] = 2 ∧ (t.seal st).run = none ∧
      t.rd .SEAL_STAT_KIND [st] = 0 ∧ (t.gov (2 * st)).held.any (·.is 10 [st]) = false := by
  rw [exec_sweepChunk hok hrep hrun hunits hask hrate hstop hbusy, State.mainChunk_last hkind hlast]
  generalize ceilDiv 4096 (s.sealRate st) = d
  have hseal : (s.lapse d).seal st = s.seal st := rfl
  rw [← State.chunkZeroed_seal w, ← State.wr_seal .SEAL_RSTAT_STATE [st, w.r] 2] at hseal
  have hstate := State.rd_wr_same ((s.lapse d).chunkZeroed st w) .SEAL_RSTAT_STATE [st, w.r] 2
  generalize ((s.lapse d).chunkZeroed st w).wr .SEAL_RSTAT_STATE [st, w.r] 2 = u at hstate hseal
  exact ⟨_, rfl, (State.sweepNext_rd _ _ rfl).trans hstate, State.sweepNext_none (by rw [hseal]; exact hqueue) (by rw [hseal]; exact hrep)⟩

/-! ## Rates (R280, R283) -/

/-- The new rate of a stack's sweeps. -/
noncomputable def State.sealRateSet (s : State) (st rate : Nat) : State :=
  let t := s.wr .SEAL_CTL_RATE [st] rate
  let t := if 40 < rate then t.raise .SEAL_CTL [st] 283 2 [rate] else t
  (t.sweepPermit st).repairPermit st

theorem exec_sealRateWrite {st : Fin 4} {c : Fin 8} {rate : BitVec 6} (h : s.reaches (.helm c) .SEAL_CTL [st] = true) :
    exec (.sealRateWrite (.helm c) st rate) s = .next (s.sealRateSet st rate.toNat) :=
  congrArg Host.Outcome.next (State.reach_of h _ _)

theorem State.sealRateSet_rate {rate : Nat} (hr : rate < 64) : (s.sealRateSet st rate).rd .SEAL_CTL_RATE [st] = rate := by
  have hw : (Fld.spec .SEAL_CTL_RATE).width = 6 := rfl
  unfold State.sealRateSet
  dsimp only
  rw [State.repairPermit_rd _ _ rfl, State.sweepPermit_rd _ _ rfl]
  have hset : (s.wr .SEAL_CTL_RATE [st] rate).rd .SEAL_CTL_RATE [st] = rate := by
    rw [State.rd_wr_same, hw]
    exact Nat.mod_eq_of_lt hr
  split
  · exact (State.raise_rd _ _ _ _ _ _ rfl).trans hset
  · exact hset

theorem exec_sealRateWrite_other {st : Fin 4} {rate : BitVec 6} (h : s.reaches .other .SEAL_CTL [st] = true) :
    exec (.sealRateWrite .other st rate) s = .next (s.drop .other .SEAL_CTL [st] rate.toNat) :=
  congrArg Host.Outcome.next (State.reach_of h _ _)

/-! ## The counter tree (R273, R276, R277) -/

/-- The counts and the record of a node both of whose copies fail. -/
noncomputable def State.nodeSeen (s : State) (st r level m : Nat) : State :=
  let size := s.rd .SEAL_SIZE_MIB [st, r]
  let a := nodeAddr size (s.rd .SEAL_MBASE_MIB [st, r]) (nodeNumber size level m)
  (((s.bump .SEAL_NODE_CNT_COUNT [st] 2).bump .SEAL_LOST_CNT_COUNT [st]).sealErr st 3 r level a).raise .SEAL_CTL [st] 276 3 [r, level, m]

/-- Is an entry of the lost nodes under node `m` of a level of range `r`? -/
noncomputable def underNode (st r level m : Nat) (k : Key) : Bool :=
  k.headD 9 == st && k.getD 1 99 == r && (decide (k.getD 2 0 ≤ level) && k.getD 3 0 / 8 ^ (level - k.getD 2 0) == m)

/-- Node `m` of a level is lost, and what is lost below it is not listed apart. -/
noncomputable def State.setLost (s : State) (st r level m : Nat) : State :=
  { s with lostN := smPut (smKeep s.lostN (fun k => !underNode st r level m k)) [st, r, level, m] true false }

theorem State.setLost_rd (level m : Nat) (f : Fld) (i : List Nat) : (s.setLost st r level m).rd f i = s.rd f i := rfl

theorem State.setLost_lost (level m : Nat) : smGet (s.setLost st r level m).lostN [st, r, level, m] false = true :=
  smGet_smPut_same (smKeep s.lostN (fun k => !underNode st r level m k)) [st, r, level, m] true false

theorem State.setLost_hwm (level m : Nat) : (s.setLost st r level m).hwm = s.hwm := rfl

/-- The node is lost. -/
noncomputable def State.nodeGone (s : State) (st r level m : Nat) : State := (s.nodeSeen st r level m).setLost st r level m

/-- The repairs of a stack without those under node `m` of a level of range `r`. -/
noncomputable def SealRt.without (x : SealRt) (r level m : Nat) : SealRt :=
  { x with repairs := x.repairs.filter fun w => !(w.r == r && (decide (w.level ≤ level) && w.node / 8 ^ (level - w.level) == m)) }

/-- The repair of a lost node. -/
def nodeRepair (size r level m v : Nat) : Sweep :=
  { kind := 4, r := r, pos := m * 64 * 8 ^ level, node := m, level := level,
    stop := min (16384 * size) ((m + 1) * 64 * 8 ^ level), val := v }

/-- The stack's sweeps with the repair of a lost node queued. -/
noncomputable def SealRt.repairing (x : SealRt) (size r level m v : Nat) : SealRt :=
  { x.without r level m with repairs := (x.without r level m).repairs ++ [nodeRepair size r level m v] }

theorem exec_nodeLost {st : Fin 4} {r : Fin 16} {level : Fin 8} {node : BitVec 24} (hlive : s.sealLive st r = true)
    (hmode : s.rd .SEAL_RCTL_MODE [st, r] = 1) (hlevel : level.val < (treeLevels (s.rd .SEAL_SIZE_MIB [st, r])).length)
    (hnode : node.toNat < (treeLevels (s.rd .SEAL_SIZE_MIB [st, r])).getD level 0)
    (hhwm : smGet (s.nodeGone st r level node.toNat).hwm [st.val, r.val] 0 + 1 < 2 ^ 56) :
    exec (.nodeLost st r level node) s = .next (((s.nodeGone st r level node.toNat).setSeal st
      (((s.nodeGone st r level node.toNat).seal st).repairing (s.rd .SEAL_SIZE_MIB [st, r]) r level node.toNat
        (smGet (s.nodeGone st r level node.toNat).hwm [st.val, r.val] 0 + 1))).repairPermit st) := by
  change execNodeLost st r level node s = _
  unfold execNodeLost
  dsimp only
  rw [if_pos ⟨hlive, by rw [State.on, hmode]; rfl, hlevel, hnode⟩]
  unfold State.nodeGone State.setLost State.nodeSeen at *
  dsimp only at *
  rw [if_neg (Nat.not_le.mpr hhwm)]
  rfl

theorem State.nodeSeen_hwm (level m : Nat) : (s.nodeSeen st r level m).hwm = s.hwm := by
  unfold State.nodeSeen
  exact State.raise_keeps (Keeps.part (p := .hwm) rfl (by decide) s) _ _ _ _ _ _ (State.sealErr_keeps
    (Keeps.part (p := .hwm) rfl (by decide) s) _ _ _ _ _ _ rfl)

theorem State.nodeGone_hwm (level m : Nat) : (s.nodeGone st r level m).hwm = s.hwm :=
  (State.setLost_hwm level m).trans (State.nodeSeen_hwm level m)

theorem State.nodeSeen_counts (level m : Nat) :
    (s.nodeSeen st r level m).rd .SEAL_LOST_CNT_COUNT [st] = min (s.rd .SEAL_LOST_CNT_COUNT [st] + 1) 0xFFFFFFFF ∧
    (s.nodeSeen st r level m).rd .SEAL_NODE_CNT_COUNT [st] = min (s.rd .SEAL_NODE_CNT_COUNT [st] + 2) 0xFFFFFFFF := by
  unfold State.nodeSeen
  dsimp only
  rw [State.raise_rd _ _ _ _ _ _ rfl, State.sealErr_rd _ _ _ _ _ _ rfl, State.raise_rd _ _ _ _ _ _ rfl, State.sealErr_rd _ _ _ _ _ _ rfl,
    State.bump_rd _ _ _ _ (G0 := .SEAL_NODE_CNT_COUNT) rfl, State.bump_same, State.bump_same, State.bump_rd _ _ _ _ rfl]
  exact ⟨rfl, rfl⟩

theorem nodeLost_spec {st : Fin 4} {r : Fin 16} {level : Fin 8} {node : BitVec 24} (hlive : s.sealLive st r = true)
    (hmode : s.rd .SEAL_RCTL_MODE [st, r] = 1) (hlevel : level.val < (treeLevels (s.rd .SEAL_SIZE_MIB [st, r])).length)
    (hnode : node.toNat < (treeLevels (s.rd .SEAL_SIZE_MIB [st, r])).getD level 0) (hhwm : smGet s.hwm [st.val, r.val] 0 + 1 < 2 ^ 56) :
    ∃ t, exec (.nodeLost st r level node) s = .next t ∧ smGet t.lostN [st.val, r.val, level.val, node.toNat] false = true ∧
      t.rd .SEAL_LOST_CNT_COUNT [st] = min (s.rd .SEAL_LOST_CNT_COUNT [st] + 1) 0xFFFFFFFF ∧
      t.rd .SEAL_NODE_CNT_COUNT [st] = min (s.rd .SEAL_NODE_CNT_COUNT [st] + 2) 0xFFFFFFFF ∧
      ((t.seal st).repairs.getLast?.map (·.node)) = some node.toNat ∧ t.rd .SEAL_STAT_KIND [st] = 4 := by
  have hhwm' : smGet (s.nodeGone st r level node.toNat).hwm [st.val, r.val] 0 + 1 < 2 ^ 56 := by
    rw [State.nodeGone_hwm]
    exact hhwm
  rw [exec_nodeLost hlive hmode hlevel hnode hhwm']
  obtain ⟨hlost, hnodes⟩ := State.nodeSeen_counts (s := s) (st := st) (r := r) level node.toNat
  rw [← State.setLost_rd level node.toNat] at hlost hnodes
  have hgone := State.setLost_lost (s := s.nodeSeen st r level node.toNat) (st := st) (r := r) level node.toNat
  generalize smGet (s.nodeGone st r level node.toNat).hwm [st.val, r.val] 0 + 1 = v
  change (s.nodeGone st r level node.toNat).rd _ _ = _ at hlost hnodes
  change smGet (s.nodeGone st r level node.toNat).lostN _ _ = _ at hgone
  generalize s.nodeGone st r level node.toNat = u at *
  have hne : ((u.seal st).repairing (s.rd .SEAL_SIZE_MIB [st, r]) r level node.toNat v).repairs ≠ [] := by simp [SealRt.repairing]
  have hlast : ((u.seal st).repairing (s.rd .SEAL_SIZE_MIB [st, r]) r level node.toNat v).repairs.getLast?.map (·.node) = some node.toNat := by
    simp [SealRt.repairing, nodeRepair]
  generalize (u.seal st).repairing (s.rd .SEAL_SIZE_MIB [st, r]) r level node.toNat v = x at hne hlast
  obtain ⟨-, hrep⟩ := State.repairPermit_seal (s := u.setSeal st x) (st := st.val)
  rw [State.setSeal_seal] at hrep
  refine ⟨_, rfl, ?_, ?_, ?_, by rw [hrep]; exact hlast, ?_⟩
  · rw [State.repairPermit_keeps (Keeps.part (p := .lostN) rfl (by decide) u) _ _
      (State.setSeal_keeps (Keeps.part (p := .lostN) rfl (by decide) u) _ _ _ rfl)]
    exact hgone
  · exact (State.repairPermit_rd _ _ rfl).trans ((State.setSeal_rd _ _ _ rfl).trans hlost)
  · exact (State.repairPermit_rd _ _ rfl).trans ((State.setSeal_rd _ _ _ rfl).trans hnodes)
  · have hshown : ((u.setSeal st x).repairPermit st).rd .SEAL_STAT_KIND [st] = (((u.setSeal st x).repairPermit st).seal st).kind % 8 :=
      State.repairPermit_kindShown (State.setSeal_kindShown x)
    rw [hshown, SealRt.kind_repairs (by rw [hrep]; exact hne)]

/-- The counter of a dirty node rises in its parent. -/
def State.nodeCounted (s : State) (st r : Nat) (k : Key) (v : Nat) : State :=
  ({ s with innerC := smPut s.innerC k v 0, ccache := smPut s.ccache k 1 0, ccT := smPut s.ccT k s.now 0 } : State).hwmTo st r v

/-- A node is written back no sooner than 64 ns after the last time. -/
noncomputable def State.nodeTurn (s : State) (k : Key) : State := if smGet s.ccT k 0 = 0 then s else s.lapseTo (smGet s.ccT k 0 + 64)

/-- The node's counter has risen, and its parent is dirty. -/
noncomputable def State.nodeWritten (s : State) (st r level node : Nat) (v : Nat) : State :=
  let t := (s.nodeTurn [st, r, level, node]).nodeCounted st r [st, r, level, node] v
  if level + 1 < (treeLevels (s.rd .SEAL_SIZE_MIB [st, r])).length then t.nodeDirty st r (level + 1) (node / 8) else t

theorem State.nodeTurn_innerC (k : Key) : (s.nodeTurn k).innerC = s.innerC := by
  unfold State.nodeTurn
  split <;> rfl

theorem State.nodeTurn_rd (k : Key) (f : Fld) (i : List Nat) : (s.nodeTurn k).rd f i = s.rd f i := by
  unfold State.nodeTurn
  split <;> rfl

theorem State.nodeCounted_rd (k : Key) (v : Nat) (f : Fld) (i : List Nat) : (s.nodeCounted st r k v).rd f i = s.rd f i := rfl

theorem State.nodeCounted_counts (k : Key) (v : Nat) :
    smGet (s.nodeCounted st r k v).innerC k 0 = v ∧ smGet (s.nodeCounted st r k v).ccache k 0 = 1 :=
  ⟨smGet_smPut_same s.innerC k v 0, smGet_smPut_same s.ccache k 1 0⟩

theorem exec_counterCacheWriteback {st : Fin 4} {r : Fin 16} {level : Fin 8} {node : BitVec 24}
    (hdirty : smGet s.ccache [st.val, r.val, level.val, node.toNat] 0 = 2)
    (hlt : smGet s.innerC [st.val, r.val, level.val, node.toNat] 0 + 1 < 2 ^ 56) :
    exec (.counterCacheWriteback st r level node) s =
      .next (s.nodeWritten st r level node.toNat (smGet s.innerC [st.val, r.val, level.val, node.toNat] 0 + 1)) := by
  have hinner := State.nodeTurn_innerC (s := s) [st.val, r.val, level.val, node.toNat]
  have hsize := State.nodeTurn_rd (s := s) [st.val, r.val, level.val, node.toNat] .SEAL_SIZE_MIB [st.val, r.val]
  rw [← hinner] at hlt ⊢
  change execCounterCacheWriteback st r level node s = _
  unfold execCounterCacheWriteback State.nodeWritten
  dsimp only
  rw [if_pos hdirty, ← hsize]
  change (if 2 ^ 56 ≤ smGet (s.nodeTurn [st.val, r.val, level.val, node.toNat]).innerC _ 0 + 1 then _ else _) = _
  rw [if_neg (Nat.not_le.mpr hlt)]
  rfl

theorem State.nodeDirty_ccache_ne {j m : Nat} {k : Key} (h : [st, r, j, m] ≠ k) : smGet (s.nodeDirty st r j m).ccache k 0 = smGet s.ccache k 0 :=
  (smGet_smPut s.ccache [st, r, j, m] k 2 0).trans (if_neg h)

theorem State.nodeWritten_spec (level node v : Nat) :
    smGet (s.nodeWritten st r level node v).innerC [st, r, level, node] 0 = v ∧
    smGet (s.nodeWritten st r level node v).ccache [st, r, level, node] 0 = 1 ∧ SameFields s (s.nodeWritten st r level node v) [] := by
  unfold State.nodeWritten
  dsimp only
  obtain ⟨hinner, hcache⟩ := State.nodeCounted_counts (s := s.nodeTurn [st, r, level, node]) (st := st) (r := r) [st, r, level, node] v
  have hrd : ∀ f i, ((s.nodeTurn [st, r, level, node]).nodeCounted st r [st, r, level, node] v).rd f i = s.rd f i :=
    fun f i => (State.nodeCounted_rd _ _ _ _).trans (State.nodeTurn_rd _ _ _)
  generalize (s.nodeTurn [st, r, level, node]).nodeCounted st r [st, r, level, node] v = u at hinner hcache hrd
  split
  · exact ⟨hinner, (State.nodeDirty_ccache_ne (by simp)).trans hcache, fun f i _ => hrd f i⟩
  · exact ⟨hinner, hcache, fun f i _ => hrd f i⟩

end

/-- Settles O31, clause by clause: each command in place gives the state named above (`rangeEnabled`, `rangeGivenUp`, `rangeReleased`,
`rangeRekeyed`, `keyBegun`, …), each out of place the one of `sealRefused`. -/
theorem sealedRangesFollowTheirOwnersCommands : Obligations.SealedRangesFollowTheirOwnersCommands := by
  unfold Obligations.SealedRangesFollowTheirOwnersCommands
  refine ⟨?claimFn, ?claimHelm, ?claimOwned, ?enable, ?enableBad, ?disableFree, ?disableLive, ?rekey, ?resume, ?generate, ?import_,
    ?erase, ?eraseDone, ?generateDone, ?permit, ?timeout, ?retry, ?chunk, ?lastChunk, ?rate, ?rateOther, ?nodeLost, ?writeback,
    ?disableBad, ?rekeyBad, ?resumeBad⟩
  case claimFn =>
    intro f st r s h hfree
    have hw : (Fld.spec .SEAL_RCTL_OWNER).width = 4 := rfl
    refine ⟨_, exec_sealClaim h rfl hfree, ?_, State.wr_sameFields _ _ _ _⟩
    rw [State.rd_wr_same, hw]
    exact Nat.mod_eq_of_lt (by omega)
  case claimHelm =>
    intro c st r s h hfree
    exact ⟨_, exec_sealClaim h rfl hfree, State.rd_wr_same _ _ _ _⟩
  case claimOwned =>
    intro w st r s h hown
    exact ⟨_, exec_sealClaim_owned h hown, State.drop_sameFields _ _ _ _ _⟩
  case enable =>
    intro w st r s h ho hok hrun hrep
    exact ⟨_, exec_enable h ho hok, State.rangeEnabled_spec hrun hrep⟩
  case enableBad =>
    intro w st r s h ho hbad
    exact ⟨_, exec_enable_refused h ho hbad, State.sealRefused_spec _⟩
  case disableFree =>
    intro w st r s h ho hst
    obtain ⟨howner, hstate, hkeys⟩ := State.rangeGivenUp_spec (s := s) (st := st.val) (r := r.val)
    exact ⟨_, exec_disable_free h ho hst, howner, hstate.trans hst, hkeys⟩
  case disableLive =>
    intro w st r s h ho hst
    exact ⟨_, exec_disable_live h ho hst, State.rangeReleased_spec⟩
  case rekey =>
    intro w st r s h ho hst hkey
    exact ⟨_, exec_rekey h ho hst hkey, State.rangeRekeyed_spec⟩
  case resume =>
    intro w st r s h ho hstop
    exact ⟨_, exec_sealResume h ho hstop, (State.sweepPermit_rd _ _ rfl).trans (State.rd_wr_same _ _ _ _),
      (State.sweepPermit_rd _ _ rfl).trans (State.rd_wr_fld _ _ _ _ _ _ (by decide))⟩
  case generate =>
    intro w st slot s h hidle ho hw hfree
    exact ⟨_, congrArg Host.Outcome.next ((State.keyCmd_taken h hidle (by rwa [slotBits]) hw (by rw [slotBits]; omega)
      (by rwa [slotBits]) rfl).trans (by rw [slotBits])), State.keyBegun_spec slot.isLt⟩
  case import_ =>
    intro w st slot ses s h hidle ho hw hfree hdep
    obtain ⟨hbusy, -, hop⟩ := State.keyBegun_spec (s := s) (st := st.val) (op := 2) (session := ses.toNat) slot.isLt
    exact ⟨_, congrArg Host.Outcome.next ((State.keyCmd_taken h hidle (by rwa [slotBits]) hw (by rw [slotBits]; omega)
      (by rwa [slotBits]) hdep).trans (by rw [slotBits])), hbusy, hop, State.keyBegun_session ses.isLt⟩
  case erase =>
    intro w st slot s h hidle ho hw hfree
    obtain ⟨hbusy, -, hop⟩ := State.keyBegun_spec (s := s) (st := st.val) (op := 3) (session := s.rd .SEAL_KEY_SESSION [st]) slot.isLt
    exact ⟨_, congrArg Host.Outcome.next ((State.keyCmd_taken h hidle (by rwa [slotBits]) hw (by rw [slotBits]; omega)
      (by rwa [slotBits]) rfl).trans (by rw [slotBits])), hbusy, hop⟩
  case eraseDone =>
    intro st slot u n s hop
    obtain ⟨hbusy, hbit, hkey⟩ := State.keyErased_spec (s := s.keyEnded st) (st := st.val) slot.val
    exact ⟨_, exec_sealKeyDone_erase hop, hbusy.trans State.keyEnded_busy, hbit, hkey⟩
  case generateDone =>
    intro st slot u n s hop hok
    obtain ⟨hbusy, hbit, hdraws⟩ := State.keyMade_spec (s := s.keyEnded st) (st := st.val) slot.val
    exact ⟨_, exec_sealKeyDone_generate hop hok, hbusy.trans State.keyEnded_busy, hbit, hdraws⟩
  case permit =>
    intro st s hask hrep _ _ hrate hready hunits
    obtain ⟨t, ht⟩ := State.takeGrant_of_grantReady (State.grantReady_iff.mpr (.inl hready))
    exact sweepPermitGrant_spec hask hrep hrate hready hunits ht
  case timeout =>
    intro st x s hask hrep hrun hready
    obtain ⟨t, ht⟩ := State.takeTimeout_of_timeoutReady hready
    obtain ⟨hseal, hstop, hcode⟩ := State.sweepTimedOut_spec (s := t) (st := st.val) (r := x.r) { s.seal st with asked := false, units := 0 }
    refine ⟨_, exec_sweepPermitTimeout hask hrep hrun ht, ?_, ?_, hstop, fun hfirst => hcode ?_⟩
    · rw [hseal]
    · rw [hseal]
    · rw [State.takeTimeout_rd ht rfl, hfirst]
  case retry =>
    intro st x l s hretry hrep hlent hask hunits hbudget
    exact repairPermitRetry_spec hretry hrep hlent hask hunits hbudget
  case chunk =>
    intro st x s hok hrep hrun hkind hmode hunits hask hrate hstop hbusy hmore hpos
    exact sweepChunk_rekey_spec hok hrep hrun hkind hmode hunits hask hrate hstop hbusy hmore hpos
  case lastChunk =>
    intro st x s hok hrep hrun hqueue hkind hunits hask hrate hstop hbusy hlast
    exact sweepChunk_last_spec hok hrep hrun hqueue hkind hunits hask hrate hstop hbusy hlast
  case rate =>
    intro st c rate s h
    exact ⟨_, exec_sealRateWrite h, State.sealRateSet_rate rate.isLt⟩
  case rateOther =>
    intro st rate s h
    exact ⟨_, exec_sealRateWrite_other h, State.drop_sameFields _ _ _ _ _⟩
  case nodeLost =>
    intro st r level node s hlive hmode hlevel hnode hhwm
    exact nodeLost_spec hlive hmode hlevel hnode hhwm
  case writeback =>
    intro st r level node s hdirty hlt
    exact ⟨_, exec_counterCacheWriteback hdirty hlt, State.nodeWritten_spec _ _ _⟩
  case disableBad =>
    intro w st r s h ho hst hfree
    exact ⟨_, exec_disable_refused h ho hst hfree, State.sealRefused_spec _⟩
  case rekeyBad =>
    intro w st r s h ho hbad
    exact ⟨_, exec_rekey_refused h ho hbad, State.sealRefused_spec _⟩
  case resumeBad =>
    intro w st r s h ho hstop
    exact ⟨_, exec_sealResume_refused h ho hstop, State.sealRefused_spec _⟩

/-! PROOFS. Network interfaces: bearings, what an interface sends, bounces, deliveries and timeouts (R165, R171 to R179, R192, R193). -/

/-! ## What an idle interface's pump changes -/

section
variable {s t u : State} {site ni : Nat}

/-- The state with another table of interfaces. -/
noncomputable def State.withNi (s : State) (m : SMap NiRt) : State := { s with ni := m }

/-- The two states agree outside the table of interfaces, and on interface `ni` of mesh `site`. -/
def niLike (site ni : Nat) (s t : State) : Prop := ∃ m, t = s.withNi m ∧ smGet m [site, ni] {} = s.niRt site ni

theorem niLike.refl (s : State) : niLike site ni s s := ⟨s.ni, rfl, rfl⟩

theorem niLike.trans (h : niLike site ni s t) (h' : niLike site ni t u) : niLike site ni s u := by
  obtain ⟨m, rfl, hm⟩ := h
  obtain ⟨m', rfl, hm'⟩ := h'
  exact ⟨m', rfl, hm'.trans hm⟩

theorem niLike.niRt (h : niLike site ni s t) : t.niRt site ni = s.niRt site ni := by
  obtain ⟨m, rfl, hm⟩ := h
  exact hm

theorem niLike.rd (h : niLike site ni s t) (f : Fld) (i : List Nat) : t.rd f i = s.rd f i := by
  obtain ⟨m, rfl, -⟩ := h
  rfl

theorem niLike.q (h : niLike site ni s t) (a r port vc : Nat) : t.q a r port vc = s.q a r port vc := by
  obtain ⟨m, rfl, -⟩ := h
  rfl

theorem niLike.now (h : niLike site ni s t) : t.now = s.now := by
  obtain ⟨m, rfl, -⟩ := h
  rfl

theorem niLike.bearing (h : niLike site ni s t) (k : Nat) : t.bearing site ni k = s.bearing site ni k := by
  obtain ⟨m, rfl, -⟩ := h
  rfl

theorem niLike.setNi (h : niLike site ni s t) (x : NiRt) : niLike site ni (s.setNi site ni x) (t.setNi site ni x) := by
  obtain ⟨m, rfl, -⟩ := h
  exact ⟨smPut m [site, ni] x {}, rfl, (smGet_smPut_same _ _ _ _).trans (smGet_smPut_same _ _ _ _).symm⟩

/-- Writing an interface as it stands changes nothing that reads. -/
theorem State.setNi_like {x : NiRt} (h : s.niRt site ni = x) : niLike site ni s (s.setNi site ni x) :=
  ⟨smPut s.ni [site, ni] x {}, rfl, (smGet_smPut_same _ _ _ _).trans h.symm⟩

theorem State.pumpResend_idle (h : (s.niRt site ni).resend = []) : niLike site ni s (s.pumpResend site ni) := by
  unfold State.pumpResend
  dsimp only
  rw [h]
  refine State.setNi_like ?_
  rw [← h]

theorem State.pumpHold_idle (h : (s.niRt site ni).hold = []) : niLike site ni s (s.pumpHold site ni) := by
  unfold State.pumpHold
  dsimp only
  rw [h]
  refine State.setNi_like ?_
  rw [← h]

/-- The two queues of an interface are empty. -/
def niIdle (s : State) (site ni : Nat) : Prop := (s.niRt site ni).hold = [] ∧ (s.niRt site ni).resend = []

theorem niIdle.like (h : niIdle s site ni) (hl : niLike site ni s t) : niIdle t site ni := by
  unfold niIdle at *
  rw [hl.niRt]
  exact h

theorem State.pumpOnce_idle (h : niIdle s site ni) : niLike site ni s ((s.pumpResend site ni).pumpHold site ni) := by
  obtain ⟨hhold, hresend⟩ := h
  have hl := State.pumpResend_idle hresend
  refine hl.trans (State.pumpHold_idle ?_)
  rw [hl.niRt]
  exact hhold

/-- An interface with nothing to send sends nothing. -/
theorem State.niPump_idle (h : niIdle s site ni) : niLike site ni s (s.niPump site ni) := by
  unfold State.niPump
  split
  · have hl := State.pumpOnce_idle h
    exact hl.trans (State.pumpOnce_idle (h.like hl))
  · exact niLike.refl s

/-! ## One packet is sent -/

/-- The counts of an interface after a packet has been sent for the first time (R173). -/
noncomputable def NiRt.counted (x : NiRt) (relay : Bool) (p : Pkt) (now : Nat) : NiRt :=
  let x := { x with sn := x.sn + 1 }
  if relay then x
  else match p.cls with
    | 0 => { x with reqs := x.reqs ++ [(p.tag, p.dest, p.opc, now)] }
    | 1 => { x with posted := smPut x.posted [p.dest] (smGet x.posted [p.dest] 0 + 1) 0 }
    | _ => x

theorem State.niCount_eq (p : Pkt) :
    s.niCount site ni p = s.setNi site ni ((s.niRt site ni).counted (isRelay site ni) p s.now) := rfl

/-- Counting touches the counts alone. -/
theorem NiRt.counted_rest (x : NiRt) (relay : Bool) (p : Pkt) (now : Nat) : (x.counted relay p now).hold = x.hold ∧
    (x.counted relay p now).resend = x.resend ∧ (x.counted relay p now).inq = x.inq ∧ (x.counted relay p now).acks = x.acks := by
  unfold NiRt.counted
  dsimp only
  split
  · exact ⟨rfl, rfl, rfl, rfl⟩
  · split <;> exact ⟨rfl, rfl, rfl, rfl⟩

theorem NiRt.counted_request {x : NiRt} {p : Pkt} (hp : p.cls = 0) (now : Nat) :
    (x.counted false p now).reqs = x.reqs ++ [(p.tag, p.dest, p.opc, now)] := by
  unfold NiRt.counted
  rw [hp]
  rfl

/-- The packet as it leaves on a route for the first time. -/
noncomputable def Pkt.onRoute (p : Pkt) (route len sn : Nat) : Pkt :=
  { p with route := route, len := len, hops := 0, alt := false, again := false, sn := sn }

/-- The packet as it leaves on the primary route of its bearing. -/
noncomputable def Pkt.sentOn (p : Pkt) (b : List Nat) (sn : Nat) : Pkt := p.onRoute (bPri b) (bPriLen b) sn

theorem Pkt.onRoute_rest (p : Pkt) (route len sn : Nat) : (p.onRoute route len sn).cls = p.cls ∧ (p.onRoute route len sn).dest = p.dest ∧
    (p.onRoute route len sn).tag = p.tag ∧ (p.onRoute route len sn).opc = p.opc := ⟨rfl, rfl, rfl, rfl⟩

theorem Pkt.onRoute_route (p : Pkt) (route len sn : Nat) : (p.onRoute route len sn).route = route := rfl

/-- A packet keeps its class, destination, tag and opcode. -/
theorem Pkt.sentOn_rest (p : Pkt) (b : List Nat) (sn : Nat) : (p.sentOn b sn).cls = p.cls ∧ (p.sentOn b sn).dest = p.dest ∧
    (p.sentOn b sn).tag = p.tag ∧ (p.sentOn b sn).opc = p.opc := Pkt.onRoute_rest p _ _ _

theorem Pkt.sentOn_cls (p : Pkt) (b : List Nat) (sn : Nat) : (p.sentOn b sn).cls = p.cls := (p.sentOn_rest b sn).1

theorem State.niRoom_onRoute (p : Pkt) (route len sn : Nat) : s.niRoom site ni (p.onRoute route len sn) = s.niRoom site ni p := rfl

theorem State.withNi_bearing (m : SMap NiRt) (a c k : Nat) : (s.withNi m).bearing a c k = s.bearing a c k := rfl

theorem State.withNi_bearingFor (m : SMap NiRt) (a c d : Nat) : (s.withNi m).bearingFor a c d = s.bearingFor a c d := by
  unfold State.bearingFor
  simp only [State.withNi_bearing]
  rfl

theorem State.withNi_vcRoom (m : SMap NiRt) (a r port vc : Nat) (p : Pkt) : (s.withNi m).vcRoom a r port vc p = s.vcRoom a r port vc p := by
  unfold State.vcRoom State.vcDepth
  rfl

theorem State.withNi_niRoom (m : SMap NiRt) (p : Pkt) : (s.withNi m).niRoom site ni p = s.niRoom site ni p := by
  unfold State.niRoom
  exact State.withNi_vcRoom m _ _ _ _ p

theorem State.setNi_eq (x : NiRt) : s.setNi site ni x = s.withNi (smPut s.ni [site, ni] x {}) := rfl

theorem niLike.bearingFor (h : niLike site ni s t) (d : Nat) : t.bearingFor site ni d = s.bearingFor site ni d := by
  obtain ⟨m, rfl, -⟩ := h
  exact State.withNi_bearingFor m _ _ _

theorem niLike.niRoom (h : niLike site ni s t) (p : Pkt) : t.niRoom site ni p = s.niRoom site ni p := by
  obtain ⟨m, rfl, -⟩ := h
  exact State.withNi_niRoom m p

theorem State.niRoom_sentOn (p : Pkt) (b : List Nat) (sn : Nat) : s.niRoom site ni (p.sentOn b sn) = s.niRoom site ni p :=
  State.niRoom_onRoute p _ _ _

theorem State.pumpHold_one {p : Pkt} {k : Nat} {b : List Nat} (hhold : (s.niRt site ni).hold = [p])
    (hheld : (s.niRt site ni).held = []) (hb : s.bearingFor site ni p.dest = some (k, b)) (halt : bUseAlt b = false)
    (hlen : bPriLen b ≠ 0) (hroom : s.niRoom site ni p = true) :
    s.pumpHold site ni = ((s.setNi site ni { s.niRt site ni with hold := [] }).niCount site ni
      (p.sentOn b (s.niRt site ni).sn)).niEnter site ni (p.sentOn b (s.niRt site ni).sn) := by
  have hx : (s.setNi site ni { s.niRt site ni with hold := [] }).niRt site ni = { s.niRt site ni with hold := [] } := by
    rw [State.setNi_niRt, if_pos ⟨rfl, rfl⟩]
  have hb' : (s.setNi site ni { s.niRt site ni with hold := [] }).bearingFor site ni p.dest = some (k, b) := by
    rw [State.setNi_eq, State.withNi_bearingFor]
    exact hb
  have hroom' : (s.setNi site ni { s.niRt site ni with hold := [] }).niRoom site ni (p.sentOn b (s.niRt site ni).sn) = true := by
    rw [State.setNi_eq, State.withNi_niRoom, State.niRoom_sentOn]
    exact hroom
  unfold State.pumpHold
  dsimp only
  rw [hhold]
  dsimp only [List.foldl_cons, List.foldl_nil]
  generalize s.setNi site ni { s.niRt site ni with hold := [] } = u at hx hb' hroom' ⊢
  rw [hx]
  dsimp only
  rw [hheld, hb']
  unfold Pkt.sentOn Pkt.onRoute at hroom' ⊢
  simp only [List.contains_nil, Bool.or_false, Bool.false_eq_true, if_false, bRoute, halt, hlen, hroom', if_true]

/-- A packet in a buffer, the moment it enters. -/
def Pkt.entered (p : Pkt) (now : Nat) : Pkt := { p with t := now, arr := now }

theorem State.setQ_q_same (a r port vc : Nat) (l : List Pkt) : (s.setQ a r port vc l).q a r port vc = l := smGet_smPut_same _ _ _ _

theorem State.niEnter_q (p : Pkt) :
    (s.niEnter site ni p).q site (ni / 2) (4 + ni % 2) p.cls = s.q site (ni / 2) (4 + ni % 2) p.cls ++ [p.entered s.now] :=
  State.setQ_q_same _ _ _ _ _

theorem State.niEnter_niRt (p : Pkt) : (s.niEnter site ni p).niRt site ni = s.niRt site ni := rfl

theorem State.niOut_spec (y : NiRt) (p : Pkt) :
    (((s.setNi site ni y).niCount site ni p).niEnter site ni p).niRt site ni = y.counted (isRelay site ni) p s.now ∧
    (((s.setNi site ni y).niCount site ni p).niEnter site ni p).q site (ni / 2) (4 + ni % 2) p.cls =
      s.q site (ni / 2) (4 + ni % 2) p.cls ++ [p.entered s.now] := by
  rw [State.niCount_eq, State.niEnter_niRt, State.niEnter_q, State.setNi_niRt, State.setNi_niRt, if_pos ⟨rfl, rfl⟩, if_pos ⟨rfl, rfl⟩]
  exact ⟨rfl, rfl⟩

theorem State.niPush_eq (p : Pkt) : s.niPush site ni p = s.withNi (smPut s.ni [site, ni]
    { s.niRt site ni with hold := (s.niRt site ni).hold ++ [p] } {}) := rfl

theorem State.withNi_q (m : SMap NiRt) (a r port vc : Nat) : (s.withNi m).q a r port vc = s.q a r port vc := rfl

theorem State.withNi_rd (m : SMap NiRt) (f : Fld) (i : List Nat) : (s.withNi m).rd f i = s.rd f i := rfl

theorem State.withNi_now (m : SMap NiRt) : (s.withNi m).now = s.now := rfl

/-- What an interface that has sent one packet for the first time leaves: the packet behind the others at its router, and the counts. -/
structure sentOne (site ni : Nat) (s t : State) (p : Pkt) (b : List Nat) : Prop where
  queue : t.q site (ni / 2) (4 + ni % 2) p.cls =
    s.q site (ni / 2) (4 + ni % 2) p.cls ++ [(p.sentOn b (s.niRt site ni).sn).entered s.now]
  counts : t.niRt site ni = (s.niRt site ni).counted (isRelay site ni) (p.sentOn b (s.niRt site ni).sn) s.now

/-- An enabled interface with nothing else to send, a bearing and room sends its packet (R171, R173). -/
theorem State.niPush_sent {p : Pkt} {k : Nat} {b : List Nat} (hidle : niIdle s site ni) (hheld : (s.niRt site ni).held = [])
    (hen : s.rd .NOC_NI_CTL_EN [site, ni] = 1) (hb : s.bearingFor site ni p.dest = some (k, b)) (halt : bUseAlt b = false)
    (hlen : bPriLen b ≠ 0) (hroom : s.niRoom site ni p = true) : sentOne site ni s ((s.niPush site ni p).niPump site ni) p b := by
  obtain ⟨hhold, hresend⟩ := hidle
  have hpush : (s.niPush site ni p).niRt site ni = { s.niRt site ni with hold := [p] } := by
    unfold State.niPush
    dsimp only
    rw [State.setNi_niRt, if_pos ⟨rfl, rfl⟩, hhold]
    rfl
  have hl : niLike site ni (s.niPush site ni p) ((s.niPush site ni p).pumpResend site ni) :=
    State.pumpResend_idle (by rw [hpush]; exact hresend)
  have hx := hl.niRt.trans hpush
  have hone := State.pumpHold_one (s := (s.niPush site ni p).pumpResend site ni) (p := p) (by rw [hx]) (by rw [hx]; exact hheld)
    (by rw [hl.bearingFor, State.niPush_eq, State.withNi_bearingFor]; exact hb) halt hlen
    (by rw [hl.niRoom, State.niPush_eq, State.withNi_niRoom]; exact hroom)
  have hon : (s.niPush site ni p).on .NOC_NI_CTL_EN [site, ni] = true := by
    rw [State.on, State.niPush_eq, State.withNi_rd, hen]
    rfl
  have hq : ((s.niPush site ni p).pumpResend site ni).q site (ni / 2) (4 + ni % 2) p.cls = s.q site (ni / 2) (4 + ni % 2) p.cls := by
    rw [hl.q, State.niPush_eq, State.withNi_q]
  have hnow : ((s.niPush site ni p).pumpResend site ni).now = s.now := by
    rw [hl.now, State.niPush_eq, State.withNi_now]
  have hback : ({ ((s.niPush site ni p).pumpResend site ni).niRt site ni with hold := [] } : NiRt) = s.niRt site ni := by
    rw [hx, ← hhold]
  have hsn : (((s.niPush site ni p).pumpResend site ni).niRt site ni).sn = (s.niRt site ni).sn := by rw [hx]
  unfold State.niPump
  rw [if_pos hon, hone, hback, hsn]
  obtain ⟨hrt, hout⟩ := State.niOut_spec (s := (s.niPush site ni p).pumpResend site ni) (site := site) (ni := ni) (s.niRt site ni)
    (p.sentOn b (s.niRt site ni).sn)
  rw [hnow, Pkt.sentOn_cls, hq] at hout
  rw [hnow] at hrt
  obtain ⟨hold', hresend', -, -⟩ := NiRt.counted_rest (s.niRt site ni) (isRelay site ni) (p.sentOn b (s.niRt site ni).sn) s.now
  have hlike := State.pumpOnce_idle (s := (((s.niPush site ni p).pumpResend site ni).setNi site ni (s.niRt site ni)).niCount site ni
    (p.sentOn b (s.niRt site ni).sn) |>.niEnter site ni (p.sentOn b (s.niRt site ni).sn)) (site := site) (ni := ni)
    ⟨by rw [hrt, hold', hhold], by rw [hrt, hresend', hresend]⟩
  exact ⟨(hlike.q _ _ _ _).trans hout, hlike.niRt.trans hrt⟩

end

/-! PROOFS. Bearings read, written and made invalid (R192, R193). -/

/-! ## The words of a bearing -/

section
variable {b : List Nat}

theorem bitsOf_eq (x a n : Nat) : bitsOf x a n = x / 2 ^ a % 2 ^ n := rfl

theorem bWord_cons_zero (x : Nat) (l : List Nat) : bWord (x :: l) 0 = x := rfl

theorem bWord_cons_tail (x : Nat) (i : Nat) : bWord (x :: b.tail) (i + 1) = bWord b (i + 1) := by
  cases b <;> rfl

theorem bValid_iff : bValid b = true ↔ bitsOf (bWord b 0) 31 1 = 1 := beq_iff_eq

theorem bUseAlt_iff : bUseAlt b = true ↔ bitsOf (bWord b 0) 30 1 = 1 := beq_iff_eq

theorem bUseAlt_false_iff : bUseAlt b = false ↔ bitsOf (bWord b 0) 30 1 = 0 := by
  rw [← Bool.not_eq_true, bUseAlt_iff]
  have := Nat.mod_lt (bWord b 0 / 2 ^ 30) (show 2 ^ 1 > 0 by decide)
  rw [bitsOf_eq]
  omega

/-- Bits below a power of two do not see it added. -/
theorem bitsOf_add_pow {x lo n k : Nat} (h : lo + n ≤ k) : bitsOf (x + 2 ^ k) lo n = bitsOf x lo n := by
  obtain ⟨m, rfl⟩ := Nat.exists_eq_add_of_le h
  rw [bitsOf_eq, bitsOf_eq, Nat.pow_add, Nat.pow_add, Nat.mul_assoc, Nat.add_mul_div_left _ _ (Nat.two_pow_pos lo),
    Nat.add_mul_mod_self_left]

/-- A bearing that is made invalid keeps its destination (R192). -/
theorem bearing_invalidated (h : bWord b 0 < 2 ^ 32) (hv : bValid b = true) :
    bValid ((bWord b 0 - 2 ^ 31) :: b.tail) = false ∧ bDest ((bWord b 0 - 2 ^ 31) :: b.tail) = bDest b := by
  rw [bValid_iff, bitsOf_eq] at hv
  unfold bDest
  rw [← Bool.not_eq_true, bValid_iff, bWord_cons_zero, bitsOf_eq]
  obtain ⟨x, hx⟩ : ∃ x, bWord b 0 = x + 2 ^ 31 := ⟨bWord b 0 - 2 ^ 31, by omega⟩
  rw [hx, bitsOf_add_pow (by decide), Nat.add_sub_cancel, Nat.div_eq_of_lt (by omega)]
  exact ⟨by decide, rfl⟩

/-- A bearing turned to its alternate route keeps its destination, its validity and its alternate (R179). -/
theorem bearing_alternate (hu : bUseAlt b = false) :
    bUseAlt ((bWord b 0 + 2 ^ 30) :: b.tail) = true ∧ bValid ((bWord b 0 + 2 ^ 30) :: b.tail) = bValid b ∧
    bDest ((bWord b 0 + 2 ^ 30) :: b.tail) = bDest b ∧ bAltValid ((bWord b 0 + 2 ^ 30) :: b.tail) = bAltValid b ∧
    bAltLen ((bWord b 0 + 2 ^ 30) :: b.tail) = bAltLen b ∧ bAlt ((bWord b 0 + 2 ^ 30) :: b.tail) = bAlt b := by
  rw [bUseAlt_false_iff, bitsOf_eq] at hu
  rw [bUseAlt_iff]
  unfold bValid bDest bAltValid bAltLen bAlt
  rw [bWord_cons_zero, bWord_cons_tail, bWord_cons_tail, bitsOf_add_pow (lo := 0) (by decide),
    bitsOf_add_pow (lo := 29) (by decide), bitsOf_add_pow (lo := 24) (by decide), bitsOf_eq, bitsOf_eq, bitsOf_eq,
    Nat.add_div_right _ (Nat.two_pow_pos 30), show (bWord b 0 + 2 ^ 30) / 2 ^ 31 = bWord b 0 / 2 ^ 31 by omega]
  exact ⟨by omega, rfl, rfl, rfl, rfl, rfl⟩

end

/-! ## Commands on a bearing -/

section
variable {s : State} {w : Writer} {site : Fin 9} {ni : Fin 48} {k : Fin 512} {b : List Nat}

theorem State.setBearing_bearing (a c j a' c' j' : Nat) : (s.setBearing a c j b).bearing a' c' j' =
    if [a, c, j] = [a', c', j'] then b else s.bearing a' c' j' := smGet_smPut _ _ _ _ _

/-- What a read of a bearing shows (R192). -/
noncomputable def State.bearingShown (s : State) (site ni k : Nat) : State :=
  (List.range 4).foldl (fun u j => u.wr .NOC_NI_BDATA_WORD [site, ni, j] (bWord (s.bearing site ni k) j)) (s.wr .NOC_NI_BSEL_INDEX [site, ni] k)

theorem exec_bearingRead (h : s.reaches w .NOC_NI_BSEL [site, ni] = true) :
    exec (.bearingRead w site ni k) s = .next (s.bearingShown site ni k) :=
  congrArg Host.Outcome.next (State.reach_of h _ _)

theorem State.bearingShown_index : (s.bearingShown site ni k).rd .NOC_NI_BSEL_INDEX [site, ni] = k.val := by
  unfold State.bearingShown
  rw [State.rd_foldl_keep (fun u c => State.rd_wr_fld _ _ _ _ _ _ (by decide)), State.rd_wr_same,
    show (Fld.spec .NOC_NI_BSEL_INDEX).width = 9 from rfl]
  exact Nat.mod_eq_of_lt k.isLt

theorem State.bearingShown_word (j : Fin 4) :
    (s.bearingShown site ni k).rd .NOC_NI_BDATA_WORD [site, ni, j] = bWord (s.bearing site ni k) j % 2 ^ 32 := by
  unfold State.bearingShown
  generalize s.wr .NOC_NI_BSEL_INDEX [site, ni] k = u
  generalize s.bearing site ni k = b
  have hw : (Fld.spec .NOC_NI_BDATA_WORD).width = 32 := rfl
  obtain ⟨j, hj⟩ := j
  obtain rfl | rfl | rfl | rfl : j = 0 ∨ j = 1 ∨ j = 2 ∨ j = 3 := by omega
  all_goals simp [show List.range 4 = [0, 1, 2, 3] from rfl, State.rd_wr, hw]

theorem exec_bearingInvalidate (h : s.reaches w .NOC_NI_BSEL [site, ni] = true) :
    exec (.bearingInvalidate w site ni k) s = .next ((s.wr .NOC_NI_BSEL_INDEX [site, ni] k).setBearing site ni k
      (if bValid (s.bearing site ni k) then (bWord (s.bearing site ni k) 0 - 2 ^ 31) :: (s.bearing site ni k).tail
        else s.bearing site ni k)) :=
  congrArg Host.Outcome.next (State.reach_of h _ _)

/-- The BDATA words of an interface, as a bearing. -/
noncomputable def State.bdata (s : State) (site ni : Nat) : List Nat := (List.range 4).map (fun j => s.rd .NOC_NI_BDATA_WORD [site, ni, j])

/-- A bearing that R192 refuses: a duplicate of a valid one, or one that names a length above 16. -/
noncomputable def State.bearingBad (s : State) (site ni k : Nat) (b : List Nat) : Bool :=
  (bValid b && (List.range 512).any (fun j => j != k && bValid (s.bearing site ni j) && bDest (s.bearing site ni j) == bDest b)) ||
    16 < bPriLen b || 16 < bAltLen b

theorem exec_bearingWrite (h : s.reaches w .NOC_NI_BSEL [site, ni] = true) :
    exec (.bearingWrite w site ni k) s = .next (if s.bearingBad site ni k (s.bdata site ni)
      then s.drop w .NOC_NI_BSEL [site, ni] (k + 2 ^ 13)
      else (s.wr .NOC_NI_BSEL_INDEX [site, ni] k).putBearing site ni k (s.bdata site ni)) :=
  congrArg Host.Outcome.next (State.reach_of h _ _)

theorem State.bearingBad_false (hp : bPriLen b ≤ 16) (ha : bAltLen b ≤ 16)
    (hd : ∀ j : Fin 512, j ≠ k → bValid b = true → bValid (s.bearing site ni j) = true → bDest (s.bearing site ni j) ≠ bDest b) :
    s.bearingBad site ni k b = false := by
  unfold State.bearingBad
  simp only [Bool.or_eq_false_iff, decide_eq_false_iff_not, not_lt, Bool.and_eq_false_imp, List.any_eq_false, List.mem_range]
  refine ⟨⟨fun hv j hj hit => ?_, hp⟩, ha⟩
  simp only [Bool.and_eq_true, bne_iff_ne, ne_eq, beq_iff_eq] at hit
  obtain ⟨⟨hjk, hvj⟩, hdj⟩ := hit
  exact hd ⟨j, hj⟩ (fun e => hjk (congrArg Fin.val e)) hv hvj hdj

theorem State.bearingBad_length (h : 16 < bPriLen b ∨ 16 < bAltLen b) : s.bearingBad site ni k b = true := by
  unfold State.bearingBad
  simp only [Bool.or_eq_true, decide_eq_true_eq]
  tauto

theorem State.bearingBad_duplicate {j : Fin 512} (hj : j ≠ k) (hv : bValid b = true) (hvj : bValid (s.bearing site ni j) = true)
    (hd : bDest (s.bearing site ni j) = bDest b) : s.bearingBad site ni k b = true := by
  unfold State.bearingBad
  have hany : (List.range 512).any (fun j => j != k && bValid (s.bearing site ni j) && bDest (s.bearing site ni j) == bDest b) = true := by
    rw [List.any_eq_true]
    refine ⟨j, List.mem_range.2 j.isLt, ?_⟩
    rw [hvj, hd, bne_iff_ne.2 (fun e => hj (Fin.ext e)), beq_self_eq_true]
    rfl
  rw [hv, hany]
  rfl

theorem State.putBearing_bearing (a c j : Nat) : (s.putBearing a c j b).bearing a c j = bClean b := by
  have hset : (s.setBearing a c j (bClean b)).bearing a c j = bClean b := by
    rw [State.setBearing_bearing, if_pos rfl]
  unfold State.putBearing
  dsimp only
  split
  · exact hset
  · exact hset

theorem State.drop_bearings (r : Reg) (i : List Nat) (v : Nat) : (s.drop w r i v).bearings = s.bearings :=
  State.drop_keeps (Keeps.part (p := .bearings) rfl (by decide) s) s w r i v rfl

end

/-! PROOFS. What interfaces send, take back and deliver (R165, R171 to R179). -/

section
variable {s t u : State} {site ni : Nat}

/-! ## A packet that has been sent -/

theorem sentOne.last {p : Pkt} {b : List Nat} (h : sentOne site ni s t p b) :
    (t.q site (ni / 2) (4 + ni % 2) p.cls).getLast? = some ((p.sentOn b (s.niRt site ni).sn).entered s.now) := by
  rw [h.queue, List.getLast?_append, List.getLast?_singleton]
  rfl

theorem Pkt.entered_rest (p : Pkt) (now : Nat) : (p.entered now).route = p.route ∧ (p.entered now).dest = p.dest ∧
    (p.entered now).tag = p.tag := ⟨rfl, rfl, rfl⟩

theorem sentOne.route {p : Pkt} {b : List Nat} (h : sentOne site ni s t p b) :
    (t.q site (ni / 2) (4 + ni % 2) p.cls).getLast?.map (·.route) = some (bPri b) := by
  rw [h.last, Option.map_some, (Pkt.entered_rest _ _).1]
  unfold Pkt.sentOn
  rw [Pkt.onRoute_route]

theorem sentOne.dest {p : Pkt} {b : List Nat} (h : sentOne site ni s t p b) :
    (t.q site (ni / 2) (4 + ni % 2) p.cls).getLast?.map (·.dest) = some p.dest := by
  rw [h.last, Option.map_some, (Pkt.entered_rest _ _).2.1, (p.sentOn_rest _ _).2.1]

theorem sentOne.tag {p : Pkt} {b : List Nat} (h : sentOne site ni s t p b) :
    (t.q site (ni / 2) (4 + ni % 2) p.cls).getLast?.map (·.tag) = some p.tag := by
  rw [h.last, Option.map_some, (Pkt.entered_rest _ _).2.2, (p.sentOn_rest _ _).2.2.1]

theorem sentOne.length {p : Pkt} {b : List Nat} (h : sentOne site ni s t p b) :
    (t.q site (ni / 2) (4 + ni % 2) p.cls).length = (s.q site (ni / 2) (4 + ni % 2) p.cls).length + 1 := by
  rw [h.queue, List.length_append, List.length_singleton]

/-- A packet for another interface is pushed and pumped. -/
theorem State.niSend_other {p : Pkt} (h : niId site ni ≠ some p.dest) : s.niSend site ni p = (s.niPush site ni p).niPump site ni :=
  if_neg h

theorem State.niRoom_of_flits {p : Pkt} {c : Nat} (hc : p.cls = c) (hf : opcFlits p.opc = 1)
    (h : flitsOf (s.q site (ni / 2) (4 + ni % 2) c) + 1 ≤ s.vcDepth site (ni / 2) (4 + ni % 2) c) : s.niRoom site ni p = true := by
  unfold State.niRoom State.vcRoom
  rw [hc, hf]
  exact decide_eq_true h

theorem State.on_of_one {f : Fld} {i : List Nat} (h : s.rd f i = 1) : s.on f i = true := by
  rw [State.on, h]
  rfl

theorem niIdle.of_eq {x : NiRt} (h : t.niRt site ni = x) (hhold : x.hold = []) (hresend : x.resend = []) : niIdle t site ni := by
  unfold niIdle
  rw [h]
  exact ⟨hhold, hresend⟩

/-! ## A request (R165, R171, R173) -/

theorem State.withNi_niRefuses (m : SMap NiRt) (x : Mst) (g : Nat) : (s.withNi m).niRefuses x g = s.niRefuses x g := by
  unfold State.niRefuses
  split <;> rfl

theorem State.withNi_destOf (m : SMap NiRt) (n g : Nat) : (s.withNi m).destOf n g = s.destOf n g := by
  unfold State.destOf
  split <;> rfl

theorem niLike.niRefuses (h : niLike site ni s t) (x : Mst) (g : Nat) : t.niRefuses x g = s.niRefuses x g := by
  obtain ⟨m, rfl, -⟩ := h
  exact State.withNi_niRefuses m x g

theorem niLike.destOf (h : niLike site ni s t) (n g : Nat) : t.destOf n g = s.destOf n g := by
  obtain ⟨m, rfl, -⟩ := h
  exact State.withNi_destOf m n g

theorem niLike.vcDepth (h : niLike site ni s t) (a r port vc : Nat) : t.vcDepth a r port vc = s.vcDepth a r port vc := by
  obtain ⟨m, rfl, -⟩ := h
  rfl

/-- A one-line read of a block. -/
noncomputable def readPkt (id dest tag fn addr : Nat) : Pkt :=
  { dest := dest, src := id, cls := 0, opc := 1, tag := tag, fn := fn, addr := addr, data := [] }

end

section
variable {s : State} {site : Fin 9} {ni : Fin 48} {id dest k : Nat} {b : List Nat} {addr : BitVec 48} {tag : BitVec 10} {fn : BitVec 4}

theorem exec_niSend_read (hid : niId site ni = some id) (hidle : niIdle s site ni) (hreqs : (s.niRt site ni).reqs = [])
    (hen : s.rd .NOC_NI_CTL_EN [site, ni] = 1) (hok : s.niRefuses { src := id, fn := fn.toNat } addr.toNat = 0)
    (hdest : s.destOf site addr.toNat = some dest) (hother : niId site ni ≠ some dest) :
    exec (.niSend site ni 1 addr tag fn []) s =
      .next (((s.niPump site ni).niPush site ni (readPkt id dest tag.toNat fn.toNat addr.toNat)).niPump site ni) := by
  have hl := State.niPump_idle hidle
  obtain ⟨hhold, hresend⟩ := hidle
  change execNiSend site ni 1 addr tag fn [] s = _
  unfold execNiSend
  rw [hid]
  generalize s.niPump site ni = u at hl
  have hon : u.on .NOC_NI_CTL_EN [site, ni] = true := State.on_of_one (by rw [hl.rd]; exact hen)
  rw [show opcClass (1 : BitVec 5).toNat = some 0 from rfl]
  dsimp only
  rw [hon, hl.niRefuses, hok, hl.destOf, hdest]
  rw [if_neg (by decide), if_neg, if_neg (by decide)]
  · exact congrArg Host.Outcome.next (State.niSend_other hother)
  · unfold NiRt.tags
    rw [hl.niRt, hreqs, hhold]
    simp
end

/-! ## Bounces (R174, R179) -/

/-- The bounce that was first sent: the earlier of the two. -/
def olderSn (b : Option Pkt) (p : Pkt) : Option Pkt :=
  match b with
  | none => some p
  | some o => if p.sn < o.sn then some p else some o

theorem foldl_olderSn {p : Pkt} : ∀ {r : List Pkt}, r.all (fun q => decide (p.sn ≤ q.sn)) = true → r.foldl olderSn (some p) = some p
  | [], _ => rfl
  | q :: r, h => by
    simp only [List.all_cons, Bool.and_eq_true, decide_eq_true_eq] at h
    rw [List.foldl_cons, show olderSn (some p) q = some p from if_neg (Nat.not_lt.2 h.1)]
    exact foldl_olderSn h.2

section
variable {s t : State} {site : Fin 9} {ni : Fin 48} {p : Pkt} {r : List Pkt}

/-- A bounce that the interface has taken out of its return queue. -/
noncomputable def State.bounceTaken (s : State) (site ni : Nat) (r : List Pkt) : State :=
  s.setNi site ni { s.niRt site ni with bounced := r }

theorem State.bounceTaken_niRt (a c : Nat) : (s.bounceTaken a c r).niRt a c = { s.niRt a c with bounced := r } := by
  unfold State.bounceTaken
  rw [State.setNi_niRt, if_pos ⟨rfl, rfl⟩]

theorem State.bounceTaken_rd (a c : Nat) (f : Fld) (i : List Nat) : (s.bounceTaken a c r).rd f i = s.rd f i := State.setNi_rd _ _ _ _ rfl

theorem exec_niBounceReceive (hb : (s.niRt site ni).bounced = p :: r) (hall : r.all (fun q => decide (p.sn ≤ q.sn)) = true)
    (hen : s.rd .NOC_NI_CTL_EN [site, ni] = 1) (bad : Bool) : exec (.niBounceReceive site ni bad) s = .next
      (if bad then (s.bounceTaken site ni r).niLost site ni
        else (((s.bounceTaken site ni r).niBounce site ni p).niPump site ni)) := by
  change execNiBounceReceive site ni bad s = _
  have hfold : (p :: r).foldl olderSn none = some p := foldl_olderSn hall
  unfold execNiBounceReceive
  dsimp only
  rw [State.on_of_one hen, if_neg (by decide), hb]
  generalize hx : List.foldl _ none (p :: r) = o
  obtain rfl : o = some p := hx.symm.trans hfold
  dsimp only
  rw [List.erase_cons_head, ← State.bounceTaken]
  cases bad
  · simp only [Bool.false_eq_true, if_false]
  · simp only [if_true]

theorem State.niLost_ni : (s.niLost site ni).ni = s.ni := State.niLost_keeps (Keeps.part (p := .ni) rfl (by decide) s) s _ _ rfl

/-- A request that has bounced for good: its completion is with the block, its count and the first error are taken (R179). -/
noncomputable def State.requestFailed (s : State) (site ni : Nat) (p : Pkt) : State :=
  ((((s.bump .NOC_NI_BOUNCE_CNT_COUNT [site, ni]).bump .NOC_NI_FAIL_CNT_COUNT [site, ni]).niErr site ni 2 p.dest).setNi site ni
    { s.niRt site ni with reqs := (s.niRt site ni).reqs.filter (fun q => q.1 != p.tag) }.release).toOwn site ni (p.refusal 2)

theorem State.niErr_niRt (a c code d : Nat) : (s.niErr a c code d).ni = s.ni :=
  State.niErr_keeps (Keeps.part (p := .ni) rfl (by decide) s) s a c code d rfl

theorem State.niFail_request (hc : p.cls = 0) (hrel : isRelay site ni = false) :
    (s.bump .NOC_NI_BOUNCE_CNT_COUNT [site, ni]).niFail site ni p = s.requestFailed site ni p := by
  unfold State.niFail
  dsimp only
  rw [hc, hrel, show (((s.bump .NOC_NI_BOUNCE_CNT_COUNT [site, ni]).bump .NOC_NI_FAIL_CNT_COUNT [site, ni]).niErr site ni 2 p.dest).niRt
    site ni = s.niRt site ni from congrArg (smGet · _ _) (State.niErr_niRt _ _ _ _)]
  rfl

theorem State.niBounce_again (hc : p.cls = 0) (hrel : isRelay site ni = false) (hag : p.again = true) :
    s.niBounce site ni p = s.requestFailed site ni p := by
  rw [← State.niFail_request hc hrel]
  unfold State.niBounce
  dsimp only
  split
  · rw [hag, if_neg (by simp)]
  · rfl

theorem State.toOwn_niRt (a c : Nat) (q : Pkt) :
    (s.toOwn a c q).niRt a c = { s.niRt a c with block := (s.niRt a c).block ++ [q] } := by
  unfold State.toOwn
  dsimp only
  rw [State.setNi_niRt, if_pos ⟨rfl, rfl⟩]

theorem State.requestFailed_niRt : (s.requestFailed site ni p).niRt site ni = { ({ s.niRt site ni with
    reqs := (s.niRt site ni).reqs.filter (fun q => q.1 != p.tag) } : NiRt).release with
    block := (s.niRt site ni).block ++ [p.refusal 2] } := by
  unfold State.requestFailed
  rw [State.toOwn_niRt, State.setNi_niRt, if_pos ⟨rfl, rfl⟩]
  rfl

theorem State.niErr_valid (a c code d : Nat) : (s.niErr a c code d).rd .NOC_NI_ERR_VALID [a, c] ≠ 0 := by
  unfold State.niErr
  dsimp only
  split
  next h => simpa [State.on] using h
  next =>
    rw [State.rd_wr_same]
    decide

theorem State.requestFailed_valid : (s.requestFailed site ni p).rd .NOC_NI_ERR_VALID [site, ni] ≠ 0 := by
  unfold State.requestFailed
  rw [State.toOwn_rd _ _ _ _ rfl, State.setNi_rd _ _ _ _ rfl]
  exact State.niErr_valid _ _ _ _

theorem State.requestFailed_count : (s.requestFailed site ni p).rd .NOC_NI_FAIL_CNT_COUNT [site, ni] =
    min (s.rd .NOC_NI_FAIL_CNT_COUNT [site, ni] + 1) 0xFFFFFFFF := by
  unfold State.requestFailed
  rw [State.toOwn_rd _ _ _ _ rfl, State.setNi_rd _ _ _ _ rfl, State.niErr_rd _ _ _ _ _ rfl, State.bump_same,
    State.bump_rd _ _ _ _ rfl]
  rfl

end

/-! ## The alternate route (R179) -/

section
variable {s t : State} {site ni : Nat} {p : Pkt} {k : Nat} {b b' : List Nat} {d : Nat}

/-- The bearing `k` if it is a valid one for destination `d`. -/
noncomputable def State.bearingOf (s : State) (site ni d k : Nat) : Option (Nat × List Nat) :=
  if bValid (s.bearing site ni k) && bDest (s.bearing site ni k) == d then some (k, s.bearing site ni k) else none

theorem State.bearingOf_some (h : s.bearingOf site ni d k = some (k, b)) :
    b = s.bearing site ni k ∧ bValid b = true ∧ bDest b = d := by
  unfold State.bearingOf at h
  split at h
  next hv =>
    simp only [Option.some.injEq, Prod.mk.injEq, true_and] at h
    subst h
    simpa using hv
  next => exact absurd h (by simp)

theorem State.bearingOf_fst {j : Nat} (h : s.bearingOf site ni d j = some (k, b)) : j = k := by
  unfold State.bearingOf at h
  split at h
  · exact congrArg Prod.fst (Option.some.inj h)
  · exact absurd h (by simp)

/-- Where one bearing is replaced by another for the same destination, that one is found in its place. -/
theorem findSome_bearing_set (hv : bValid b' = bValid b) (hd : bDest b' = bDest b) {l : List Nat}
    (h : l.findSome? (s.bearingOf site ni d) = some (k, b)) : l.findSome? ((s.setBearing site ni k b').bearingOf site ni d) = some (k, b') := by
  have hnew : ∀ i, (s.setBearing site ni k b').bearing site ni i = if k = i then b' else s.bearing site ni i := by
    intro i
    rw [State.setBearing_bearing]
    simp only [List.cons.injEq, and_true, true_and]
  have hat : s.bearingOf site ni d k = some (k, b) := by
    obtain ⟨i, -, hk⟩ := List.exists_of_findSome?_eq_some h
    have hik : i = k := State.bearingOf_fst hk
    rwa [hik] at hk
  have hnow : (s.setBearing site ni k b').bearingOf site ni d k = some (k, b') := by
    obtain ⟨-, hvb, hdb⟩ := State.bearingOf_some hat
    unfold State.bearingOf
    rw [hnew, if_pos rfl, hv, hd, hvb, hdb]
    simp
  induction l with
  | nil => exact absurd h (by simp)
  | cons j l ih =>
    rw [List.findSome?_cons] at h ⊢
    cases hj : s.bearingOf site ni d j with
    | some x =>
      rw [hj] at h
      rw [Option.some.inj h] at hj
      rw [State.bearingOf_fst hj, hnow]
    | none =>
      rw [hj] at h
      have hne : k ≠ j := fun e => by rw [← e, hat] at hj; cases hj
      have hsame : (s.setBearing site ni k b').bearingOf site ni d j = none := by
        rw [← hj]
        unfold State.bearingOf
        rw [hnew, if_neg hne]
      rw [hsame]
      exact ih h

theorem State.setBearing_bearingFor (hv : bValid b' = bValid b) (hd : bDest b' = bDest b) (h : s.bearingFor site ni d = some (k, b)) :
    (s.setBearing site ni k b').bearingFor site ni d = some (k, b') := findSome_bearing_set hv hd h

theorem State.pumpResend_one (hresend : (s.niRt site ni).resend = [p]) (hb : s.bearingFor site ni p.dest = some (k, b))
    (hvalid : bAltValid b = true) (hlen : bAltLen b ≠ 0) (hroom : s.niRoom site ni p = true) :
    s.pumpResend site ni = (s.setNi site ni { s.niRt site ni with resend := [] }).niEnter site ni
      { p with route := bAlt b, len := bAltLen b } := by
  have hb' : (s.setNi site ni { s.niRt site ni with resend := [] }).bearingFor site ni p.dest = some (k, b) := by
    rw [State.setNi_eq, State.withNi_bearingFor]
    exact hb
  have hroom' : (s.setNi site ni { s.niRt site ni with resend := [] }).niRoom site ni p = true := by
    rw [State.setNi_eq, State.withNi_niRoom]
    exact hroom
  unfold State.pumpResend
  dsimp only
  rw [hresend]
  dsimp only [List.foldl_cons, List.foldl_nil]
  generalize s.setNi site ni { s.niRt site ni with resend := [] } = u at hb' hroom' ⊢
  rw [hb']
  dsimp only
  rw [hvalid, if_neg (by decide), if_neg hlen, if_pos ⟨hroom', rfl⟩]

/-- The packet as it leaves again on a route. -/
def Pkt.onAlt (p : Pkt) (route len : Nat) : Pkt := { p with route := route, len := len }

theorem Pkt.onAlt_rest (p : Pkt) (route len : Nat) : (p.onAlt route len).cls = p.cls ∧ (p.onAlt route len).route = route := ⟨rfl, rfl⟩

/-- A bounce that is sent again: its alternate route from now on (R174, R179). -/
noncomputable def Pkt.turned (p : Pkt) : Pkt := { p with hops := 0, bounce := false, alt := true, again := true }

theorem Pkt.turned_rest (p : Pkt) : p.turned.cls = p.cls ∧ p.turned.dest = p.dest ∧ p.turned.opc = p.opc := ⟨rfl, rfl, rfl⟩

/-- An enabled interface with one packet to send again, an alternate route and room sends it (R174, R179). -/
theorem State.niPump_again (hhold : (s.niRt site ni).hold = []) (hen : s.rd .NOC_NI_CTL_EN [site, ni] = 1)
    (hresend : (s.niRt site ni).resend = [p]) (hb : s.bearingFor site ni p.dest = some (k, b))
    (hvalid : bAltValid b = true) (hlen : bAltLen b ≠ 0) (hroom : s.niRoom site ni p = true) :
    niLike site ni ((s.setNi site ni { s.niRt site ni with resend := [] }).niEnter site ni (p.onAlt (bAlt b) (bAltLen b)))
      (s.niPump site ni) := by
  unfold State.niPump
  rw [if_pos (State.on_of_one hen), State.pumpResend_one hresend hb hvalid hlen hroom, ← Pkt.onAlt]
  have hidle : niIdle ((s.setNi site ni { s.niRt site ni with resend := [] }).niEnter site ni (p.onAlt (bAlt b) (bAltLen b))) site ni := by
    refine niIdle.of_eq (x := { s.niRt site ni with resend := [] }) ?_ hhold rfl
    rw [State.niEnter_niRt, State.setNi_niRt, if_pos ⟨rfl, rfl⟩]
  have hl := State.pumpHold_idle hidle.1
  exact hl.trans (State.pumpOnce_idle (hidle.like hl))

end

/-! PROOFS. What interfaces send, take back and deliver: the obligation (R165, R171 to R179, R192, R193). -/

/-! ## A bounce that is sent again (R179) -/

section
variable {s t : State} {site : Fin 9} {ni : Fin 48} {p : Pkt} {k : Nat} {b : List Nat} {r : List Pkt}

theorem State.bearing_of_bearings (h : t.bearings = s.bearings) (a c j : Nat) : t.bearing a c j = s.bearing a c j := by
  unfold State.bearing
  rw [h]

theorem State.bearingFor_of_bearings (h : t.bearings = s.bearings) (a c d : Nat) : t.bearingFor a c d = s.bearingFor a c d := by
  unfold State.bearingFor
  simp only [State.bearing_of_bearings h]

theorem State.niEnter_bearings (q : Pkt) : (s.niEnter site ni q).bearings = s.bearings := rfl

/-- The room of an interface is that of its router's input. -/
theorem State.niRoom_congr {p q : Pkt} (hq : t.rtq = s.rtq) (hrd : ∀ f i, [Fld.NOC_RTR_VC_REQ, .NOC_RTR_VC_PST, .NOC_RTR_VC_SNP,
    .NOC_RTR_VC_RSP].contains f = true → t.rd f i = s.rd f i) (hc : q.cls = p.cls) (ho : q.opc = p.opc) (a c : Nat) :
    t.niRoom a c q = s.niRoom a c p := by
  unfold State.niRoom State.vcRoom State.vcDepth State.q
  rw [hq, hc, ho]
  congr 2
  split
  · exact hrd _ _ rfl
  · exact hrd _ _ rfl
  · exact hrd _ _ rfl
  · exact hrd _ _ rfl
  · rfl

/-- The bounce is counted, and its bearing turned to the alternate route. -/
noncomputable def State.turnCounted (s : State) (site ni k : Nat) (b : List Nat) : State :=
  ((s.bump .NOC_NI_BOUNCE_CNT_COUNT [site, ni]).bump .NOC_NI_ALT_CNT_COUNT [site, ni]).setBearing site ni k ((bWord b 0 + 2 ^ 30) :: b.tail)

/-- The interface holds new packets for the destination, and sends the bounce again. -/
noncomputable def NiRt.turning (x : NiRt) (p : Pkt) : NiRt := { x.hold174 p.dest with resend := [p.turned] }

theorem NiRt.hold174_rest (x : NiRt) (d : Nat) : (x.hold174 d).hold = x.hold ∧ (x.hold174 d).bounced = x.bounced := by
  unfold NiRt.hold174
  split <;> exact ⟨rfl, rfl⟩

theorem NiRt.turning_rest (x : NiRt) (p : Pkt) : (x.turning p).hold = x.hold ∧ (x.turning p).bounced = x.bounced ∧
    (x.turning p).resend = [p.turned] := by
  obtain ⟨hhold, hbounced⟩ := x.hold174_rest p.dest
  exact ⟨hhold, hbounced, rfl⟩

theorem State.niBounce_turn (hb : s.bearingFor site ni p.dest = some (k, b)) (halt : p.alt = false) (hag : p.again = false)
    (hv : bAltValid b = true) (hu : bUseAlt b = false) (hresend : (s.niRt site ni).resend = []) :
    s.niBounce site ni p = (s.turnCounted site ni k b).setNi site ni ((s.niRt site ni).turning p) := by
  have hb' : (s.bump .NOC_NI_BOUNCE_CNT_COUNT [site, ni]).bearingFor site ni p.dest = some (k, b) :=
    (State.bearingFor_of_bearings (s := s) (t := s.bump .NOC_NI_BOUNCE_CNT_COUNT [site, ni]) rfl _ _ _).trans hb
  have hins : ((s.niRt site ni).hold174 p.dest).resend = [] := by
    unfold NiRt.hold174
    split <;> exact hresend
  unfold State.niBounce
  dsimp only
  rw [hb']
  dsimp only
  rw [halt, hag, hv, hu, if_pos (show (!false && !false && true) = true from rfl), if_neg (by decide)]
  rw [show (((s.bump .NOC_NI_BOUNCE_CNT_COUNT [site, ni]).bump .NOC_NI_ALT_CNT_COUNT [site, ni]).setBearing site ni k
    ((bWord b 0 + 2 ^ 30) :: b.tail)).niRt site ni = s.niRt site ni from rfl, hins]
  rfl

theorem State.turnCounted_niRt : (s.turnCounted site ni k b).niRt site ni = s.niRt site ni := rfl
theorem State.turnCounted_rtq : (s.turnCounted site ni k b).rtq = s.rtq := rfl

theorem State.turnCounted_rd {f : Fld} (hf : f ≠ .NOC_NI_ALT_CNT_COUNT) (hf' : f ≠ .NOC_NI_BOUNCE_CNT_COUNT) (i : List Nat) :
    (s.turnCounted site ni k b).rd f i = s.rd f i := by
  unfold State.turnCounted State.bump
  rw [State.setBearing_rd _ _ _ _ _ rfl, State.rd_wr_fld _ _ _ _ _ _ hf.symm, State.rd_wr_fld _ _ _ _ _ _ hf'.symm]

theorem State.turnCounted_counts :
    (s.turnCounted site ni k b).rd .NOC_NI_BOUNCE_CNT_COUNT [site, ni] = min (s.rd .NOC_NI_BOUNCE_CNT_COUNT [site, ni] + 1) 0xFFFFFFFF ∧
    (s.turnCounted site ni k b).rd .NOC_NI_ALT_CNT_COUNT [site, ni] = min (s.rd .NOC_NI_ALT_CNT_COUNT [site, ni] + 1) 0xFFFFFFFF := by
  unfold State.turnCounted
  rw [State.setBearing_rd _ _ _ _ _ rfl, State.setBearing_rd _ _ _ _ _ rfl, State.bump_rd _ _ _ _ rfl, State.bump_same,
    State.bump_same, State.bump_rd _ _ _ _ rfl]
  exact ⟨rfl, rfl⟩

theorem State.turnCounted_bearing : (s.turnCounted site ni k b).bearing site ni k = (bWord b 0 + 2 ^ 30) :: b.tail := by
  unfold State.turnCounted
  rw [State.setBearing_bearing, if_pos rfl]

theorem State.turnCounted_bearingFor {d : Nat} (hu : bUseAlt b = false) (hb : s.bearingFor site ni d = some (k, b)) :
    (s.turnCounted site ni k b).bearingFor site ni d = some (k, (bWord b 0 + 2 ^ 30) :: b.tail) := by
  obtain ⟨-, hvalid, hdest, -⟩ := bearing_alternate hu
  exact State.setBearing_bearingFor hvalid hdest ((State.bearingFor_of_bearings (s := s)
    (t := (s.bump .NOC_NI_BOUNCE_CNT_COUNT [site, ni]).bump .NOC_NI_ALT_CNT_COUNT [site, ni]) rfl _ _ _).trans hb)

/-- What a bounce that is sent again leaves (R179). -/
theorem State.niBounce_turned (hb : s.bearingFor site ni p.dest = some (k, b)) (halt : p.alt = false) (hag : p.again = false)
    (hv : bAltValid b = true) (hu : bUseAlt b = false) (hlen : bAltLen b ≠ 0) (hidle : niIdle s site ni)
    (hen : s.rd .NOC_NI_CTL_EN [site, ni] = 1) (hroom : s.niRoom site ni p = true) {t : State}
    (ht : t = (s.niBounce site ni p).niPump site ni) :
    (t.niRt site ni).bounced = (s.niRt site ni).bounced ∧ (∀ f i, t.rd f i = (s.turnCounted site ni k b).rd f i) ∧
    t.bearing site ni k = (bWord b 0 + 2 ^ 30) :: b.tail ∧
    ((t.q site (ni.val / 2) (4 + ni.val % 2) p.cls).getLast?.map (·.route)) = some (bAlt b) := by
  obtain ⟨hhold, hresend⟩ := hidle
  rw [State.niBounce_turn hb halt hag hv hu hresend] at ht
  obtain ⟨huse, -, -, hvalid, hlen', halt'⟩ := bearing_alternate hu
  have hfor := State.turnCounted_bearingFor hu hb
  have hrt := State.turnCounted_niRt (s := s) (site := site) (ni := ni) (k := k) (b := b)
  have hEN : (s.turnCounted site ni k b).rd .NOC_NI_CTL_EN [site, ni] = 1 := by
    rw [State.turnCounted_rd (by decide) (by decide)]
    exact hen
  have hR : (s.turnCounted site ni k b).niRoom site ni p.turned = true := by
    rw [State.niRoom_congr (s := s) (p := p) State.turnCounted_rtq (fun f i hf => ?_) p.turned_rest.1 p.turned_rest.2.2]
    · exact hroom
    · exact State.turnCounted_rd (by rintro rfl; revert hf; decide) (by rintro rfl; revert hf; decide) i
  have hbear := State.turnCounted_bearing (s := s) (site := site) (ni := ni) (k := k) (b := b)
  generalize s.turnCounted site ni k b = u at *
  obtain ⟨hxh, hxb, hxr⟩ := NiRt.turning_rest (s.niRt site ni) p
  generalize (s.niRt site ni).turning p = x at ht hxh hxb hxr
  have hset : (u.setNi site ni x).niRt site ni = x := by rw [State.setNi_niRt, if_pos ⟨rfl, rfl⟩]
  have hl := State.niPump_again (s := u.setNi site ni x) (site := site) (ni := ni) (p := p.turned) (k := k)
    (b := (bWord b 0 + 2 ^ 30) :: b.tail) (by rw [hset, hxh, hhold]) hEN (by rw [hset, hxr])
    (by rw [State.setNi_eq, State.withNi_bearingFor]; exact hfor) (hvalid.trans hv) (by rw [hlen']; exact hlen)
    (by rw [State.setNi_eq, State.withNi_niRoom]; exact hR)
  rw [← ht, hset] at hl
  refine ⟨?_, fun f i => ?_, ?_, ?_⟩
  · rw [hl.niRt, State.niEnter_niRt, State.setNi_niRt, if_pos ⟨rfl, rfl⟩]
    exact hxb
  · rw [hl.rd, State.niEnter_rd _ _ _ _ rfl, State.setNi_rd _ _ _ _ rfl, State.setNi_rd _ _ _ _ rfl]
  · rw [hl.bearing, State.bearing_of_bearings (State.niEnter_bearings _), State.setNi_eq, State.withNi_bearing,
      State.setNi_eq, State.withNi_bearing, hbear]
  · rw [hl.q]
    have hq := State.niEnter_q (s := (u.setNi site ni x).setNi site ni { x with resend := [] }) (site := site) (ni := ni)
      (p.turned.onAlt (bAlt ((bWord b 0 + 2 ^ 30) :: b.tail)) (bAltLen ((bWord b 0 + 2 ^ 30) :: b.tail)))
    rw [(Pkt.onAlt_rest _ _ _).1, p.turned_rest.1] at hq
    rw [hq, List.getLast?_append, List.getLast?_singleton, halt']
    rfl

end

/-! PROOFS. What interfaces forward, deliver, acknowledge and give up; the obligation (R165, R171 to R179, R192, R193). -/

section
variable {s t : State} {site : Fin 9} {ni : Fin 48} {p : Pkt} {r : List Pkt}

/-! ## A relay (R172) -/

/-- A packet as a relay takes it in: its route is its own bearing's. -/
noncomputable def Pkt.fresh (p : Pkt) : Pkt := { p with route := 0, len := 0, hops := 0, alt := false, again := false }

theorem Pkt.fresh_rest (p : Pkt) : p.fresh.cls = p.cls ∧ p.fresh.dest = p.dest ∧ p.fresh.opc = p.opc := ⟨rfl, rfl, rfl⟩

/-- The interface with its first packet taken in. -/
noncomputable def State.inTaken (s : State) (site ni : Nat) (r : List Pkt) : State := s.setNi site ni { s.niRt site ni with inq := r }

theorem State.inTaken_niRt (a c : Nat) : (s.inTaken a c r).niRt a c = { s.niRt a c with inq := r } := by
  unfold State.inTaken
  rw [State.setNi_niRt, if_pos ⟨rfl, rfl⟩]

theorem exec_relayForward (hin : (s.niRt site ni).inq = p :: r) (hrel : isRelay site ni = true) (hother : niId site ni ≠ some p.dest)
    (hen : s.rd .NOC_NI_CTL_EN [site, ni] = 1) (hc : p.cls = 3) :
    exec (.relayForward site ni false) s = .next (((s.inTaken site ni r).niPush site ni p.fresh).niPump site ni) := by
  change execRelayForward site ni false s = _
  unfold execRelayForward
  dsimp only
  rw [hin]
  dsimp only
  rw [if_pos ⟨hrel, hother, State.on_of_one hen⟩, if_neg (by decide), ← State.inTaken]
  rw [show (s.inTaken site ni r).niAccept site ni p = s.inTaken site ni r from if_neg (by rw [hc]; decide)]
  exact congrArg Host.Outcome.next (State.niSend_other hother)

/-! ## A delivered response (R173, R176, R177) -/

theorem NiRt.answered_rest (x : NiRt) (p : Pkt) : (x.answered p).hold = x.hold ∧ (x.answered p).resend = x.resend ∧
    (x.answered p).inq = x.inq ∧ (x.answered p).block = x.block := by
  unfold NiRt.answered
  split <;> exact ⟨rfl, rfl, rfl, rfl⟩

theorem NiRt.answered_reqs (x : NiRt) (h : p.opc ≠ 0x15) : (x.answered p).reqs = x.reqs.filter (fun q => q.1 != p.tag) := by
  unfold NiRt.answered
  rw [if_neg h]
  rfl

theorem Pkt.poison_none (h : p.poison = false) : { p with poison := false } = p := by
  rw [← h]

theorem State.toBlock_response (hid : niId site ni = some p.dest) (hc : p.cls = 3) : s.toBlock site ni p = s.toOwn site ni p := by
  unfold State.toBlock
  unfold niId at hid
  cases he : niEndpoint site ni with
  | none => rw [he] at hid; cases hid
  | some ep =>
    dsimp only
    rw [hc, if_neg (by omega), if_neg (by omega), if_neg (by omega)]

theorem exec_niDeliver_response (hin : (s.niRt site ni).inq = p :: r) (hen : s.rd .NOC_NI_CTL_EN [site, ni] = 1)
    (hid : niId site ni = some p.dest) (hmal : p.malformed = false) (hc : p.cls = 3) (hroom : s.blockRoom site ni = true)
    (hpoison : p.poison = false) : exec (.niDeliver site ni false []) s =
      .next (((s.setNi site ni (({ s.niRt site ni with inq := r } : NiRt).answered p)).toOwn site ni p).niPump site ni) := by
  change execNiDeliver site ni false [] s = _
  unfold execNiDeliver
  dsimp only
  rw [hin]
  dsimp only [List.zipIdx_nil, List.foldl_nil]
  rw [State.on_of_one hen, if_neg (by decide), if_neg (fun h => h.2 hid), if_neg (by decide), hroom, if_neg (by decide), hmal,
    if_neg (by decide), if_pos hc, hpoison]
  simp only [bne_self_eq_false, Bool.and_false, Bool.false_and, Bool.false_eq_true, if_false, Bool.or_false]
  generalize s.setNi site ni (({ s.niRt site ni with inq := r } : NiRt).answered p) = u
  rw [show u.niAccept site ni p = u from if_neg (by rw [hc]; decide)]
  rw [Pkt.poison_none hpoison, State.toBlock_response hid hc]

theorem State.delivered_spec (hidle : niIdle s site ni) (htx : t = ((s.setNi site ni (({ s.niRt site ni with inq := r } : NiRt).answered p)).toOwn
    site ni p).niPump site ni) : (t.niRt site ni).inq = r ∧ (t.niRt site ni).block = (s.niRt site ni).block ++ [p] ∧
      (p.opc ≠ 0x15 → (t.niRt site ni).reqs = (s.niRt site ni).reqs.filter (fun q => q.1 != p.tag)) := by
  obtain ⟨hhold, hresend⟩ := hidle
  obtain ⟨ahold, aresend, ainq, ablock⟩ := NiRt.answered_rest { s.niRt site ni with inq := r } p
  have areqs := NiRt.answered_reqs (p := p) { s.niRt site ni with inq := r }
  generalize ({ s.niRt site ni with inq := r } : NiRt).answered p = x at htx ahold aresend ainq ablock areqs
  have hrt : ((s.setNi site ni x).toOwn site ni p).niRt site ni = { x with block := x.block ++ [p] } := by
    rw [State.toOwn_niRt, State.setNi_niRt, if_pos ⟨rfl, rfl⟩]
  have hl := State.niPump_idle (niIdle.of_eq hrt (ahold.trans hhold) (aresend.trans hresend))
  rw [htx, hl.niRt, hrt]
  exact ⟨ainq, congrArg (· ++ [p]) ablock, areqs⟩

/-! ## Acknowledgements (R173) -/

/-- Acknowledgement of `n` posted packets. -/
def ackPkt (dest id n : Nat) : Pkt := { dest := dest, src := id, cls := 3, opc := 0x15, tag := n, fn := 0 }

theorem ackPkt_rest (dest id n : Nat) : (ackPkt dest id n).cls = 3 ∧ (ackPkt dest id n).dest = dest ∧ (ackPkt dest id n).tag = n ∧
    opcFlits (ackPkt dest id n).opc = 1 := ⟨rfl, rfl, rfl, rfl⟩

/-- The acknowledgements owed to a source are no longer owed. -/
noncomputable def State.acksTaken (s : State) (site ni src : Nat) : State :=
  s.setNi site ni { s.niRt site ni with acks := smPut (s.niRt site ni).acks [src] [] [] }

theorem State.acksTaken_niRt (a c src : Nat) :
    (s.acksTaken a c src).niRt a c = { s.niRt a c with acks := smPut (s.niRt a c).acks [src] [] [] } := by
  unfold State.acksTaken
  rw [State.setNi_niRt, if_pos ⟨rfl, rfl⟩]

theorem exec_packSend {src : BitVec 12} {id v : Nat} {vs : List Nat} (hid : niId site ni = some id)
    (hacks : smGet (s.niRt site ni).acks [src.toNat] [] = v :: vs) (hlen : vs.length < 16) (hother : id ≠ src.toNat) :
    exec (.packSend site ni src) s = .next ((((if 16 ≤ vs.length + 1 then s else s.lapseTo (v + 1000)).acksTaken site ni src.toNat).niPush
      site ni (ackPkt src.toNat id (vs.length + 1))).niPump site ni) := by
  have hsend : ∀ u : State, u.niSend site ni (ackPkt src.toNat id (vs.length + 1)) =
      (u.niPush site ni (ackPkt src.toNat id (vs.length + 1))).niPump site ni := fun u =>
    State.niSend_other (by rw [hid]; exact fun h => hother (Option.some.inj h))
  have hrt : (if 16 ≤ vs.length + 1 then s else s.lapseTo (v + 1000)).niRt site ni = s.niRt site ni := by
    split <;> rfl
  change execPackSend site ni src s = _
  unfold execPackSend
  dsimp only
  rw [hid, hacks]
  dsimp only
  rw [← hsend, State.acksTaken, hrt, Nat.min_eq_right (show vs.length + 1 ≤ 16 from hlen),
    show (v :: vs).drop (vs.length + 1) = [] from List.drop_length (l := v :: vs)]
  rfl

/-! ## A request that is not answered (R176) -/

/-- The completion of a request that is not answered. -/
def lostPkt (dest id opc tag : Nat) : Pkt := ({ dest := dest, src := id, cls := 0, opc := opc, tag := tag } : Pkt).refusal 2

theorem State.niRt_of_ni (h : t.ni = s.ni) (a c : Nat) : t.niRt a c = s.niRt a c := by
  unfold State.niRt
  rw [h]

/-- The request past its time is counted. -/
noncomputable def State.timeoutCounted (s : State) (site ni dest v : Nat) : State :=
  ((s.lapseTo v).bump .NOC_NI_TO_CNT_COUNT [site, ni]).niErr site ni 4 dest

theorem State.timeoutCounted_now (dest v : Nat) : (s.timeoutCounted site ni dest v).now = max s.now v := by
  unfold State.timeoutCounted
  rw [show (((s.lapseTo v).bump .NOC_NI_TO_CNT_COUNT [site, ni]).niErr site ni 4 dest).now = ((s.lapseTo v).bump .NOC_NI_TO_CNT_COUNT
    [site, ni]).now from State.niErr_keeps (Keeps.part (p := .now) rfl (by decide) _) _ _ _ _ _ rfl]
  exact State.lapseTo_now _ _

theorem State.timeoutCounted_count (dest v : Nat) : (s.timeoutCounted site ni dest v).rd .NOC_NI_TO_CNT_COUNT [site, ni] =
    min (s.rd .NOC_NI_TO_CNT_COUNT [site, ni] + 1) 0xFFFFFFFF := by
  unfold State.timeoutCounted
  rw [State.niErr_rd _ _ _ _ _ rfl, State.bump_same, State.lapseTo_rd _ _ rfl]
  rfl

theorem exec_niResponseTimeout {tag : BitVec 10} {dest opc v : Nat} (hreqs : (s.niRt site ni).reqs = [(tag.toNat, dest, opc, v)])
    (hlim : s.rd .NOC_NI_CTL_RSP_TO [site, ni] ≠ 0) : exec (.niResponseTimeout site ni tag) s =
      .next (((((s.timeoutCounted site ni dest (v + s.rd .NOC_NI_CTL_RSP_TO [site, ni] * 10000)).setNi site ni
        ({ s.niRt site ni with reqs := [] } : NiRt).release).toOwn site ni (lostPkt dest ((niId site ni).getD 0) opc tag.toNat)).raise
        .NOC_NI_CTL [site, ni] 176 0 [dest, tag.toNat]).niPump site ni) := by
  change execNiResponseTimeout site ni tag s = _
  unfold execNiResponseTimeout
  dsimp only
  rw [hreqs, List.find?_cons_of_pos (by simp)]
  dsimp only
  rw [if_neg hlim, show [(tag.toNat, dest, opc, v)].filter (fun q => q.1 != tag.toNat) = [] by simp, ← State.timeoutCounted, ← lostPkt]

theorem State.timedOut_spec {x : NiRt} {q : Pkt} {dest tag v : Nat} {u : State} (hhold : x.hold = []) (hresend : x.resend = [])
    (ht : t = (((u.setNi site ni x).toOwn site ni q).raise .NOC_NI_CTL [site, ni] v 0 [dest, tag]).niPump site ni) :
    t.niRt site ni = { x with block := x.block ++ [q] } ∧ (∀ f i, t.rd f i = u.rd f i) ∧ t.now = u.now := by
  have hrt : ((u.setNi site ni x).toOwn site ni q).niRt site ni = { x with block := x.block ++ [q] } := by
    rw [State.toOwn_niRt, State.setNi_niRt, if_pos ⟨rfl, rfl⟩]
  have hni : ∀ w : State, (w.raise .NOC_NI_CTL [site, ni] v 0 [dest, tag]).ni = w.ni := fun w =>
    State.raise_keeps (Keeps.part (p := .ni) rfl (by decide) w) w _ _ _ _ _ rfl
  have hnow : ∀ w : State, (w.raise .NOC_NI_CTL [site, ni] v 0 [dest, tag]).now = w.now := fun w =>
    State.raise_keeps (Keeps.part (p := .now) rfl (by decide) w) w _ _ _ _ _ rfl
  have hrt' := (State.niRt_of_ni (hni ((u.setNi site ni x).toOwn site ni q)) site ni).trans hrt
  have hl := State.niPump_idle (niIdle.of_eq hrt' hhold hresend)
  rw [← ht] at hl
  refine ⟨hl.niRt.trans hrt', fun f i => ?_, ?_⟩
  · rw [hl.rd, State.raise_rd _ _ _ _ _ _ rfl, State.toOwn_rd _ _ _ _ rfl, State.setNi_rd _ _ _ _ rfl]
  · rw [hl.now, hnow]
    rfl

end

/-! PROOFS. Network interfaces: the obligation (R165, R171 to R179, R192, R193). -/

section
variable {s : State} {site : Fin 9} {ni : Fin 48}

theorem State.acksTaken_idle {src : Nat} (h : niIdle s site ni) : niIdle (s.acksTaken site ni src) site ni :=
  niIdle.of_eq (State.acksTaken_niRt _ _ _) h.1 h.2

theorem State.withNi_vcDepth (m : SMap NiRt) (a r port vc : Nat) : (s.withNi m).vcDepth a r port vc = s.vcDepth a r port vc := rfl

/-- What a packet of acknowledgement needs does not hang on the time. -/
theorem State.ackReady {c : Prop} [Decidable c] {v d k : Nat} {b : List Nat} {u : State} (hu : u = if c then s else s.lapseTo v)
    (hb : s.bearingFor site ni d = some (k, b)) :
    u.ni = s.ni ∧ u.rtq = s.rtq ∧ u.bearingFor site ni d = some (k, b) ∧ ∀ f i, u.rd f i = s.rd f i := by
  rw [hu]
  split
  · exact ⟨rfl, rfl, hb, fun _ _ => rfl⟩
  · exact ⟨rfl, rfl, (State.bearingFor_of_bearings rfl _ _ _).trans hb, fun _ _ => State.lapseTo_rd _ _ rfl⟩

/-- One acknowledgement of all posted packets owed to a source is sent. -/
theorem State.ack_sent {u : State} {d id n k : Nat} {b : List Nat} (hidle : niIdle u site ni) (hheld : (u.niRt site ni).held = [])
    (hen : u.rd .NOC_NI_CTL_EN [site, ni] = 1) (hb : u.bearingFor site ni d = some (k, b)) (halt : bUseAlt b = false)
    (hlen : bPriLen b ≠ 0)
    (hroom : flitsOf (u.q site (ni.val / 2) (4 + ni.val % 2) 3) + 1 ≤ u.vcDepth site (ni.val / 2) (4 + ni.val % 2) 3) :
    sentOne site ni (u.acksTaken site ni d) (((u.acksTaken site ni d).niPush site ni (ackPkt d id n)).niPump site ni) (ackPkt d id n) b := by
  obtain ⟨hcls, hdest, -, hflits⟩ := ackPkt_rest d id n
  refine State.niPush_sent (k := k) (State.acksTaken_idle hidle) ?_ ?_ ?_ halt hlen (State.niRoom_of_flits hcls hflits ?_)
  · rw [State.acksTaken_niRt]
    exact hheld
  · unfold State.acksTaken
    rw [State.setNi_rd _ _ _ _ rfl]
    exact hen
  · unfold State.acksTaken
    rw [State.setNi_eq, State.withNi_bearingFor, hdest]
    exact hb
  · unfold State.acksTaken
    rw [State.setNi_eq, State.withNi_q, State.withNi_vcDepth]
    exact hroom

theorem State.vcDepth_of_rd {u : State} (h : ∀ f i, u.rd f i = s.rd f i) (a r port vc : Nat) : u.vcDepth a r port vc = s.vcDepth a r port vc := by
  unfold State.vcDepth
  simp only [h]

theorem State.q_of_rtq {u : State} (h : u.rtq = s.rtq) (a r port vc : Nat) : u.q a r port vc = s.q a r port vc := by
  unfold State.q
  rw [h]

end

/-- Settles O28, clause by clause: a bearing's words, one packet sent by an idle interface, a bounce, a delivery, a timeout. -/
theorem networkInterfacesSendAndResendPackets : Obligations.NetworkInterfacesSendAndResendPackets := by
  unfold Obligations.NetworkInterfacesSendAndResendPackets
  refine ⟨?bearingRead, ?bearingWrite, ?bearingTooLong, ?bearingDuplicate, ?bearingInvalid, ?send, ?again, ?failed, ?headerBad, ?relay,
    ?deliver, ?acknowledge, ?timeout⟩
  case bearingRead =>
    intro w site ni k s h
    exact ⟨_, exec_bearingRead h, State.bearingShown_index, State.bearingShown_word⟩
  case bearingWrite =>
    intro w site ni k b s h hb hpri halt hdup
    have hdata : s.bdata site ni = b := hb.symm
    refine ⟨_, (exec_bearingWrite h).trans (congrArg Host.Outcome.next (if_neg ?_)), ?_, ?_⟩
    · rw [hdata, State.bearingBad_false hpri halt hdup]
      decide
    · rw [State.putBearing_bearing, hdata]
    · rw [State.putBearing_rd _ _ _ _ _ rfl, State.rd_wr_same, show (Fld.spec .NOC_NI_BSEL_INDEX).width = 9 from rfl]
      exact Nat.mod_eq_of_lt k.isLt
  case bearingTooLong =>
    intro w site ni k b s h hb hlong
    have hdata : s.bdata site ni = b := hb.symm
    refine ⟨_, (exec_bearingWrite h).trans (congrArg Host.Outcome.next (if_pos ?_)), State.drop_bearings _ _ _,
      State.drop_sameFields _ _ _ _ _⟩
    rw [hdata]
    exact State.bearingBad_length hlong
  case bearingDuplicate =>
    intro w site ni k j b s h hb hjk hv hvj hd
    have hdata : s.bdata site ni = b := hb.symm
    refine ⟨_, (exec_bearingWrite h).trans (congrArg Host.Outcome.next (if_pos ?_)), State.drop_bearings _ _ _,
      State.drop_sameFields _ _ _ _ _⟩
    rw [hdata]
    exact State.bearingBad_duplicate hjk hv hvj hd
  case bearingInvalid =>
    intro w site ni k s h hlt
    refine ⟨_, exec_bearingInvalidate h, ?_⟩
    rw [State.setBearing_bearing, if_pos rfl]
    split
    next hv => exact bearing_invalidated hlt hv
    next hv => exact ⟨Bool.not_eq_true _ ▸ hv, rfl⟩
  case send =>
    intro site ni id dest k b addr tag fn s hid hhold hresend hheld hreqs hen hok hrel hdest hother hb hu hlen hroom
    refine ⟨_, exec_niSend_read hid ⟨hhold, hresend⟩ hreqs hen hok hdest hother, ?_⟩
    have hl := State.niPump_idle (s := s) (site := site) (ni := ni) ⟨hhold, hresend⟩
    generalize s.niPump site ni = u at hl
    generalize hp : readPkt id dest tag.toNat fn.toNat addr.toNat = p
    obtain ⟨hc, hd, htag, hopc⟩ : p.cls = 0 ∧ p.dest = dest ∧ p.tag = tag.toNat ∧ p.opc = 1 := by
      rw [← hp]
      exact ⟨rfl, rfl, rfl, rfl⟩
    have hsent := State.niPush_sent (s := u) (site := site) (ni := ni) (p := p) (k := k) (b := b) (niIdle.like ⟨hhold, hresend⟩ hl)
      (by rw [hl.niRt]; exact hheld) (by rw [hl.rd]; exact hen) (by rw [hl.bearingFor, hd]; exact hb) hu hlen
      (State.niRoom_of_flits hc (by rw [hopc]; rfl) (by rw [hl.q, hl.vcDepth]; exact hroom))
    have hlength := hsent.length
    have hroute := hsent.route
    have hdest' := hsent.dest
    have hcounts := hsent.counts
    obtain ⟨ccls, cdest, ctag, copc⟩ := p.sentOn_rest b (u.niRt site ni).sn
    rw [hc] at hlength hroute hdest' ccls
    rw [hl.q] at hlength
    refine ⟨?_, hlength, hroute, by rw [hdest', hd]⟩
    rw [hcounts, hrel, NiRt.counted_request ccls, ctag, cdest, copc, htag, hd, hopc, hl.niRt, hreqs, hl.now, List.nil_append]
  case again =>
    intro site ni p r k b s hb hall hhold hresend hen halt hag hfor hv hu hlen hlt hfour hroom
    refine ⟨_, exec_niBounceReceive hb hall hen false, ?_⟩
    have hrt := State.bounceTaken_niRt (s := s) (r := r) site ni
    have hrd := State.bounceTaken_rd (s := s) (r := r) site ni
    obtain ⟨hbounced, hfields, hbearing, hroute⟩ := State.niBounce_turned (s := s.bounceTaken site ni r) (site := site) (ni := ni) (p := p)
      (k := k) (b := b) (by rw [State.bounceTaken, State.setNi_eq, State.withNi_bearingFor]; exact hfor) halt hag hv hu hlen
      (niIdle.of_eq hrt hhold hresend) (by rw [hrd]; exact hen)
      (by rw [State.bounceTaken, State.setNi_eq, State.withNi_niRoom]; exact hroom) rfl
    obtain ⟨hcount, haltCount⟩ := State.turnCounted_counts (s := s.bounceTaken site ni r) (site := site) (ni := ni) (k := k) (b := b)
    rw [hrd] at hcount haltCount
    rw [hrt] at hbounced
    rw [if_neg (by decide)]
    refine ⟨hbounced, (hfields _ _).trans hcount, (hfields _ _).trans haltCount, ?_, hroute⟩
    rw [hbearing]
    exact (bearing_alternate hu).1
  case failed =>
    intro site ni p r s hb hall hhold hresend hen hc hag hrel
    refine ⟨_, exec_niBounceReceive hb hall hen false, ?_⟩
    have hrt := State.bounceTaken_niRt (s := s) (r := r) site ni
    have hrd := State.bounceTaken_rd (s := s) (r := r) site ni
    rw [if_neg (by decide), State.niBounce_again hc hrel hag]
    generalize s.bounceTaken site ni r = u at hrt hrd
    have hfailed := State.requestFailed_niRt (s := u) (site := site) (ni := ni) (p := p)
    rw [hrt] at hfailed
    have hl := State.niPump_idle (niIdle.of_eq hfailed hhold hresend)
    refine ⟨?_, ?_, ?_, ?_⟩
    · rw [hl.niRt, hfailed]
      rfl
    · rw [hl.rd, State.requestFailed_count, hrd]
    · rw [hl.niRt, hfailed]
      exact List.length_append
    · rw [hl.rd]
      exact State.requestFailed_valid
  case headerBad =>
    intro site ni p r s hb hall hen
    refine ⟨_, exec_niBounceReceive hb hall hen true, ?_, ?_⟩
    · rw [if_pos rfl, State.niRt_of_ni State.niLost_ni, State.bounceTaken_niRt]
    · intro f i _
      rw [if_pos rfl, State.niLost_rd _ _ _ rfl, State.bounceTaken_rd]
  case relay =>
    intro site ni p r k b s hin hhold hresend hen hrel hother hc hheld hb hu hlen hroom
    refine ⟨_, exec_relayForward hin hrel hother hen hc, ?_⟩
    have hrt := State.inTaken_niRt (s := s) (r := r) site ni
    obtain ⟨fcls, fdest, fopc⟩ := p.fresh_rest
    have hsent := State.niPush_sent (s := s.inTaken site ni r) (site := site) (ni := ni) (p := p.fresh) (k := k) (b := b)
      (niIdle.of_eq hrt hhold hresend) (by rw [hrt]; exact hheld)
      (by rw [State.inTaken, State.setNi_rd _ _ _ _ rfl]; exact hen)
      (by rw [State.inTaken, State.setNi_eq, State.withNi_bearingFor, fdest]; exact hb) hu hlen
      (by rw [State.inTaken, State.setNi_eq, State.withNi_niRoom, State.niRoom_congr (s := s) (p := p) rfl (fun _ _ _ => rfl) fcls fopc]
          exact hroom)
    have hroute := hsent.route
    rw [fcls, hc] at hroute
    refine ⟨?_, hroute⟩
    obtain ⟨-, -, cinq, -⟩ := NiRt.counted_rest ((s.inTaken site ni r).niRt site ni) (isRelay site ni)
      (p.fresh.sentOn b ((s.inTaken site ni r).niRt site ni).sn) (s.inTaken site ni r).now
    rw [hsent.counts, cinq, hrt]
  case deliver =>
    intro site ni p r s hin hhold hresend hen hid hmal hc hroom hpoison
    exact ⟨_, exec_niDeliver_response hin hen hid hmal hc hroom hpoison, State.delivered_spec ⟨hhold, hresend⟩ rfl⟩
  case acknowledge =>
    intro site ni src id v k vs b s hid hacks hlen hother hheld hhold hresend hen hb hu hpri hroom
    refine ⟨_, exec_packSend hid hacks hlen hother, ?_⟩
    generalize hx : (if 16 ≤ vs.length + 1 then s else s.lapseTo (v + 1000)) = u
    obtain ⟨huni, hurtq, hubear, hurd⟩ := State.ackReady hx.symm hb
    have hurt := State.niRt_of_ni huni site ni
    have hsent := State.ack_sent (u := u) (site := site) (ni := ni) (d := src.toNat) (id := id) (n := vs.length + 1) (k := k) (b := b)
      (niIdle.of_eq hurt hhold hresend) (by rw [hurt]; exact hheld) (by rw [hurd]; exact hen) hubear hu hpri
      (by rw [State.q_of_rtq hurtq, State.vcDepth_of_rd hurd]; exact hroom)
    obtain ⟨-, -, -, cacks⟩ := NiRt.counted_rest ((u.acksTaken site ni src.toNat).niRt site ni) (isRelay site ni)
      ((ackPkt src.toNat id (vs.length + 1)).sentOn b ((u.acksTaken site ni src.toNat).niRt site ni).sn) (u.acksTaken site ni src.toNat).now
    refine ⟨?_, hsent.tag⟩
    rw [hsent.counts, cacks, State.acksTaken_niRt]
    exact smGet_smPut_same (u.niRt site ni).acks [src.toNat] [] []
  case timeout =>
    intro site ni tag dest opc v s hreqs hlim hhold hresend
    refine ⟨_, exec_niResponseTimeout hreqs hlim, ?_⟩
    have hnow := State.timeoutCounted_now (s := s) (site := site) (ni := ni) dest (v + s.rd .NOC_NI_CTL_RSP_TO [site, ni] * 10000)
    have hcount := State.timeoutCounted_count (s := s) (site := site) (ni := ni) dest (v + s.rd .NOC_NI_CTL_RSP_TO [site, ni] * 10000)
    generalize s.timeoutCounted site ni dest (v + s.rd .NOC_NI_CTL_RSP_TO [site, ni] * 10000) = u at hnow hcount
    obtain ⟨hrt, hrd, htime⟩ := State.timedOut_spec (u := u) (x := ({ s.niRt site ni with reqs := [] } : NiRt).release) hhold hresend rfl
    refine ⟨?_, (hrd _ _).trans hcount, ?_, htime.trans hnow⟩
    · rw [hrt]
      rfl
    · rw [hrt]
      exact List.length_append

/-! PROOFS. The front pipe of an HBM controller with one port that presents (R185, R239, R240, R243, R265). -/

/-! ## An arbiter with one candidate (R185) -/

theorem filter_singleton (f : Nat → Bool) (n : Nat) : [n].filter f = [n] ∨ [n].filter f = [] := by
  rw [List.filter_singleton]
  cases f n <;> simp

theorem maxOf_singleton (n : Nat) : maxOf [n] = n := Nat.max_eq_right (Nat.zero_le n)

theorem pick_one {f g : List Nat} {n : Nat} (hf : f = [n] ∨ f = []) (hg : g = [n] ∨ g = []) :
    (if !f.isEmpty then (maxOf f, true) else if !g.isEmpty then (maxOf g, true) else (maxOf [n], false)).1 = n := by
  rcases hf with rfl | rfl
  · exact maxOf_singleton n
  · rcases hg with rfl | rfl <;> exact maxOf_singleton n

theorem Arb.decision_one (a : Arb) (par : ArbPar) (n : Nat) : (a.decision par [n]).1 = n := by
  refine Eq.trans ?_ (pick_one (filter_singleton ((a.opened par).forces par) n)
    (filter_singleton (fun i => decide (par.window = 0) || !(a.opened par).mask.contains i) n))
  exact (apply_ite Prod.fst _ _ _).trans (ite_self _)

theorem frontDecide_one (a : Arb) (par : ArbPar) (p n : Nat) : (frontDecide a par [(p, n)]).1 = p := by
  unfold frontDecide
  dsimp only
  rw [List.map_singleton, Arb.decision_one, List.find?_cons_of_pos (by simp)]
  rfl

section
variable {s t u : State} {st : Nat}

/-! ## What a choice of the front arbiter changes -/

/-- The state with other arbiters, and another table of stacks. -/
noncomputable def State.withFront (s : State) (a : SMap Arb) (m : SMap StackRt) : State := { s with arbs := a, stack := m }

/-- A decision of the front arbiter of stack `st` changes arbiters and the pending decision alone. -/
def frontLike (st : Nat) (s u : State) : Prop :=
  ∃ a m, u = s.withFront a m ∧ (smGet m [st] {}).entering = (s.stk st).entering

theorem frontLike.refl (s : State) : frontLike st s s := ⟨s.arbs, s.stack, rfl, rfl⟩

theorem frontLike.choice (a : SMap Arb) (x : Option Nat) : frontLike st s (s.withFront a (smPut s.stack [st] { s.stk st with next := x } {})) :=
  ⟨a, _, rfl, by rw [smGet_smPut_same]⟩

theorem State.frontChoose_like (scrub : Bool) : frontLike st s (s.frontChoose st scrub) := by
  unfold State.frontChoose
  dsimp only
  split
  · exact frontLike.choice _ _
  · split
    · exact frontLike.choice s.arbs none
    · exact frontLike.choice _ _

/-- With one port that presents, that port is chosen. -/
theorem State.frontChoose_one {p n : Nat} {q : HbmReq} (h : s.presenting st = [(p, n, q)]) :
    ((s.frontChoose st false).stk st).next = some p := by
  unfold State.frontChoose
  dsimp only
  rw [h, List.map_singleton, Bool.false_and, if_neg (by decide), if_neg (by simp), frontDecide_one, State.setStk_stk, if_pos rfl]

theorem State.presenting_lt {p n : Nat} {q : HbmReq} (h : (p, n, q) ∈ s.presenting st) : p < 16 := by
  unfold State.presenting at h
  obtain ⟨p', hp', hx⟩ := List.mem_filterMap.1 h
  cases hport : smGet s.hbmPort [st, p'] [] with
  | nil => rw [hport] at hx; cases hx
  | cons q' r =>
    rw [hport] at hx
    dsimp only at hx
    rw [ite_eq_iff] at hx
    rcases hx with ⟨-, hx⟩ | ⟨-, hx⟩
    · cases hx
    · obtain rfl : p' = p := congrArg (fun y : Nat × Nat × HbmReq => y.1) (Option.some.inj hx)
      exact List.mem_range.1 hp'

/-- A request leaves its port. -/
noncomputable def State.portTaken (s : State) (st p : Nat) (r : List HbmReq) : State := { s with hbmPort := smPut s.hbmPort [st, p] r [] }

/-- The pending decision holds while its port still presents (R239). -/
noncomputable def State.pendingHolds (s : State) (st : Nat) : Bool :=
  (s.stk st).next.any fun p => if p = 16 then false else (s.presenting st).any (fun x => x.1 = p)

theorem State.pendingHolds_one {p n : Nat} {q : HbmReq} (h : s.presenting st = [(p, n, q)]) (hh : s.pendingHolds st = true) :
    (s.stk st).next = some p := by
  unfold State.pendingHolds at hh
  cases hn : (s.stk st).next with
  | none => rw [hn] at hh; cases hh
  | some p' =>
    rw [hn, h, Option.any_some] at hh
    by_cases h16 : p' = 16
    · rw [if_pos h16] at hh
      cases hh
    · rw [if_neg h16] at hh
      simp only [List.any_cons, List.any_nil, Bool.or_false, decide_eq_true_eq] at hh
      rw [hh]

/-- With one port that presents its oldest request enters. -/
theorem State.frontStep_one {p n : Nat} {q : HbmReq} {r : List HbmReq} (h : s.presenting st = [(p, n, q)])
    (hq : smGet s.hbmPort [st, p] [] = q :: r) :
    ∃ u, frontLike st s u ∧ (s.frontStep st false false).1 = ((u.portTaken st p r).hbmEnter st p q).frontChoose st false := by
  have hp : p ≠ 16 := by
    have := State.presenting_lt (s := s) (st := st) (p := p) (n := n) (q := q) (by rw [h]; exact List.mem_singleton.2 rfl)
    omega
  have hlike : frontLike st s (if s.pendingHolds st then s else s.frontChoose st false) := by
    split
    · exact frontLike.refl s
    · exact State.frontChoose_like false
  have hnext : ((if s.pendingHolds st then s else s.frontChoose st false).stk st).next = some p := by
    split
    next hh => exact State.pendingHolds_one h hh
    next => exact State.frontChoose_one h
  refine ⟨_, hlike, ?_⟩
  unfold State.frontStep
  dsimp only
  rw [show (s.stk st).next.any _ = s.pendingHolds st from rfl]
  obtain ⟨a, m, hu, -⟩ := hlike
  generalize (if s.pendingHolds st then s else s.frontChoose st false) = u at hu hnext
  rw [hnext]
  dsimp only
  rw [if_neg hp, show u.hbmPort = s.hbmPort by rw [hu]; rfl, hq]
  unfold State.portTaken
  rw [show u.hbmPort = s.hbmPort by rw [hu]; rfl]

end

/-! PROOFS. What a request does when it enters the front pipe of its stack (R240, R265). -/

section
variable {s t u v : State} {st p : Nat} {q : HbmReq} {r : List HbmReq}

/-! ## What hangs on the registers alone -/

theorem State.sealLive_of_rd (h : ∀ f i, u.rd f i = s.rd f i) (r : Nat) : u.sealLive st r = s.sealLive st r := by
  unfold State.sealLive State.sealState
  rw [h]

theorem State.inRange_of_rd (h : ∀ f i, u.rd f i = s.rd f i) (r a : Nat) : u.inRange st r a = s.inRange st r a := by
  unfold State.inRange
  dsimp only
  rw [h, h]

theorem State.inMeta_of_rd (h : ∀ f i, u.rd f i = s.rd f i) (r a : Nat) : u.inMeta st r a = s.inMeta st r a := by
  unfold State.inMeta State.on
  dsimp only
  rw [h, h, h]

theorem State.sealOwns_of_rd (h : ∀ f i, u.rd f i = s.rd f i) (r : Nat) (m : Mst) : u.sealOwns st r m = s.sealOwns st r m := by
  unfold State.sealOwns
  rw [h]

theorem State.sealGrants_of_rd (h : ∀ f i, u.rd f i = s.rd f i) (r : Nat) (m : Mst) : u.sealGrants st r m = s.sealGrants st r m := by
  unfold State.sealGrants State.on
  simp only [h]

theorem State.rangeOf_of_rd (h : ∀ f i, u.rd f i = s.rd f i) (a : Nat) : u.rangeOf st a = s.rangeOf st a := by
  unfold State.rangeOf
  simp only [State.sealLive_of_rd h, State.inRange_of_rd h]

theorem State.sealCheck_of_rd (h : ∀ f i, u.rd f i = s.rd f i) (m : Mst) (a : Nat) (w : Bool) : u.sealCheck st m a w = s.sealCheck st m a w := by
  unfold State.sealCheck State.sealState
  simp only [State.rangeOf_of_rd h, State.sealLive_of_rd h, State.inMeta_of_rd h, State.sealOwns_of_rd h, State.sealGrants_of_rd h, h]

theorem State.hashBit_of_rd (h : ∀ f i, u.rd f i = s.rd f i) (i a : Nat) : u.hashBit st i a = s.hashBit st i a := by
  simp only [State.hashBit, h]

theorem State.lineKey_of_rd (h : ∀ f i, u.rd f i = s.rd f i) (a : Nat) : u.lineKey st a = s.lineKey st a := by
  simp only [State.lineKey, State.locOf, State.hashBit_of_rd h]

theorem State.pcOf_of_rd (h : ∀ f i, u.rd f i = s.rd f i) (a : Nat) : u.pcOf st a = s.pcOf st a := by
  simp only [State.pcOf, State.hbmChannel, State.hbmPC, State.hashBit_of_rd h]

theorem State.bankOf_of_rd (h : ∀ f i, u.rd f i = s.rd f i) (a : Nat) : u.bankOf st a = s.bankOf st a := by
  simp only [State.bankOf, State.hbmBG, State.hbmBA, State.hashBit_of_rd h]

theorem State.ilv_of_rd (h : ∀ f i, u.rd f i = s.rd f i) : u.ilv = s.ilv := by
  simp only [State.ilv, h]

theorem State.winAttr_of_rd (h : ∀ f i, u.rd f i = s.rd f i) (g : Nat) : u.winAttr g = s.winAttr g := by
  unfold State.winAttr State.on
  simp only [h]

theorem State.stackOk_of_rd (h : ∀ f i, u.rd f i = s.rd f i) (he : (u.stk st).entering = (s.stk st).entering) :
    u.stackOk st = s.stackOk st := by
  unfold State.stk at he
  simp only [State.stackOk, State.up, State.on, h, he]

/-! ## A request that passes the checks -/

/-- The line of a request of one line. -/
theorem HbmReq.lines_one (h : opcLines q.opc = 1) : q.lines = [q.a] := by
  unfold HbmReq.lines
  rw [h]
  exact congrArg (fun x => [x]) (Nat.add_zero q.a)

/-- A one-line request outside every sealed range and every read-mostly window takes effect at once (R240, R265). -/
theorem State.hbmEnter_passed (hok : s.stackOk st = true) (hcheck : (s.sealCheck st { src := q.src, fn := q.fn } q.a (!q.isRead)).1 = 0)
    (hrange : s.rangeOf st q.a = none) (hone : opcLines q.opc = 1) (hwin : s.winAttr (hbmJoin s.ilv st q.a) ≠ 1) :
    s.hbmEnter st p q = s.takeEffect st p q := by
  unfold State.hbmEnter
  rw [hok, if_neg (by decide)]
  dsimp only
  rw [hcheck, if_neg (by simp), HbmReq.lines_one hone]
  dsimp only [List.foldl_cons, List.foldl_nil]
  rw [if_neg hwin]
  unfold State.leafLocked State.overflows
  rw [hrange]

/-- A request that the checks refuse is answered, and recorded (R265). -/
theorem State.hbmEnter_refused (hok : s.stackOk st = true)
    (hcheck : (s.sealCheck st { src := q.src, fn := q.fn } q.a (!q.isRead)).1 ≠ 0) : ∃ k c d,
    s.hbmEnter st p q = (s.sealDeny st k q.a).respond st p q c d := by
  unfold State.hbmEnter
  rw [hok, if_neg (by decide)]
  dsimp only
  rw [if_pos hcheck]
  exact ⟨_, _, _, rfl⟩

/-- A line outside every sealed range is stored. -/
theorem State.stackWrite_open {a : Nat} (hrange : s.rangeOf st a = none) (data : Nat) (bad : Bool) :
    s.stackWrite st a data bad = (0, s.linePut (s.lineKey st a) data bad) := by
  unfold State.stackWrite
  rw [hrange]

theorem State.stackRead_open {a : Nat} (hrange : s.rangeOf st a = none) (hp : s.poison.contains (s.lineKey st a) = false) :
    s.stackRead st a = (s.lineData (s.lineKey st a), 0, s) := by
  unfold State.stackRead
  rw [hrange]
  dsimp only
  rw [hp, if_neg (by decide)]

/-- A posted write of one line outside every range is stored and queued. -/
theorem State.takeEffect_write (hopc : q.opc = 7) (hrange : s.rangeOf st q.a = none) (hpoison : q.poison = false) :
    s.takeEffect st p q = (s.linePut (s.lineKey st q.a) (q.data.getD 0 0) false).enqueue st q := by
  have hread : q.isRead = false := by
    unfold HbmReq.isRead
    rw [hopc]
    rfl
  have hposted : q.posted = true := by
    unfold HbmReq.posted
    rw [hopc]
    rfl
  unfold State.takeEffect
  rw [hread, if_neg (by decide), HbmReq.lines_one (by rw [hopc]; rfl), hpoison]
  simp only [List.length_cons, List.length_nil, List.range_succ, List.range_zero, List.nil_append, List.zip_cons_cons, List.zip_nil_left,
    List.foldl_cons, List.foldl_nil, Bool.false_eq_true, if_false, State.stackWrite_open hrange, Nat.max_self, if_true]
  unfold State.respond
  rw [hposted, if_pos rfl]

/-- A read of one line outside every range takes the line's data as they are, and is queued. -/
theorem State.takeEffect_read (hopc : q.opc = 1) (hrange : s.rangeOf st q.a = none)
    (hpoison : s.poison.contains (s.lineKey st q.a) = false) :
    s.takeEffect st p q = s.enqueue st { q with data := [s.lineData (s.lineKey st q.a)], status := 0 } := by
  have hread : q.isRead = true := by
    unfold HbmReq.isRead
    rw [hopc]
    rfl
  unfold State.takeEffect
  rw [hread, if_pos rfl, HbmReq.lines_one (by rw [hopc]; rfl)]
  simp only [List.foldl_cons, List.foldl_nil, State.stackRead_open hrange hpoison, List.nil_append, Nat.max_self]

end

/-! PROOFS. One request enters the front pipe: a write, a read, a refusal (R239, R240, R243, R265). -/

section
variable {s t u v : State} {st p n : Nat} {q : HbmReq} {r : List HbmReq}

/-- The state in which the only port that presents has given up its oldest request. -/
structure frontTaken (s v : State) (st p : Nat) (r : List HbmReq) : Prop where
  rd : ∀ f i, v.rd f i = s.rd f i
  entering : (v.stk st).entering = (s.stk st).entering
  port : smGet v.hbmPort [st, p] [] = r
  hbm : v.hbm = s.hbm
  hbmPc : v.hbmPc = s.hbmPc
  poison : v.poison = s.poison

theorem State.frontStep_taken (h : s.presenting st = [(p, n, q)]) (hq : smGet s.hbmPort [st, p] [] = q :: r) :
    ∃ v, frontTaken s v st p r ∧ (s.frontStep st false false).1 = (v.hbmEnter st p q).frontChoose st false := by
  obtain ⟨u, ⟨a, m, hu, he⟩, hstep⟩ := State.frontStep_one h hq
  refine ⟨_, ?_, hstep⟩
  subst hu
  exact ⟨fun _ _ => rfl, he, smGet_smPut_same _ _ _ _, rfl, rfl, rfl⟩

theorem frontTaken.lineKey (h : frontTaken s v st p r) (a : Nat) : v.lineKey st a = s.lineKey st a := State.lineKey_of_rd h.rd a
theorem frontTaken.rangeOf (h : frontTaken s v st p r) (a : Nat) : v.rangeOf st a = s.rangeOf st a := State.rangeOf_of_rd h.rd a
theorem frontTaken.pcOf (h : frontTaken s v st p r) (a : Nat) : v.pcOf st a = s.pcOf st a := State.pcOf_of_rd h.rd a

theorem frontTaken.pc (h : frontTaken s v st p r) (c : Nat) : v.pc st c = s.pc st c := by
  unfold State.pc
  rw [h.hbmPc]

theorem frontTaken.stackOk (h : frontTaken s v st p r) : v.stackOk st = s.stackOk st := State.stackOk_of_rd h.rd h.entering

/-- What the checks of the taken request find is what they find in the state before. -/
theorem frontTaken.passed (h : frontTaken s v st p r) (hok : s.stackOk st = true)
    (hcheck : (s.sealCheck st { src := q.src, fn := q.fn } q.a (!q.isRead)).1 = 0) (hrange : s.rangeOf st q.a = none)
    (hone : opcLines q.opc = 1) (hwin : s.winAttr (hbmJoin s.ilv st q.a) ≠ 1) : v.hbmEnter st p q = v.takeEffect st p q := by
  refine State.hbmEnter_passed ?_ ?_ ?_ hone ?_
  · rw [h.stackOk]
    exact hok
  · rw [State.sealCheck_of_rd h.rd]
    exact hcheck
  · rw [h.rangeOf]
    exact hrange
  · rw [State.winAttr_of_rd h.rd, State.ilv_of_rd h.rd]
    exact hwin

/-- The choice of the next grant touches neither ports, queues, lines nor poison. -/
theorem State.frontChoose_rest (scrub : Bool) : (s.frontChoose st scrub).hbmPort = s.hbmPort ∧ (s.frontChoose st scrub).hbm = s.hbm ∧
    (s.frontChoose st scrub).hbmPc = s.hbmPc := by
  obtain ⟨a, m, h, -⟩ := State.frontChoose_like (s := s) (st := st) scrub
  rw [h]
  exact ⟨rfl, rfl, rfl⟩

theorem State.pc_of_hbmPc (h : t.hbmPc = s.hbmPc) (c : Nat) : t.pc st c = s.pc st c := by
  unfold State.pc
  rw [h]

theorem State.enqueue_rest : (s.enqueue st q).hbmPort = s.hbmPort ∧ (s.enqueue st q).hbm = s.hbm := ⟨rfl, rfl⟩

theorem State.enqueue_wq (h : q.isRead = false) :
    ((s.enqueue st q).pc st (s.pcOf st q.a)).wq = (s.pc st (s.pcOf st q.a)).wq ++ [q] := by
  unfold State.enqueue
  dsimp only
  rw [h, if_neg (by decide), State.setPc_pc, if_pos ⟨rfl, rfl⟩]

theorem State.enqueue_rq (h : q.isRead = true) :
    ((s.enqueue st q).pc st (s.pcOf st q.a)).rq = (s.pc st (s.pcOf st q.a)).rq ++ [q] := by
  unfold State.enqueue
  dsimp only
  rw [h, if_pos rfl, State.setPc_pc, if_pos ⟨rfl, rfl⟩]

theorem State.linePut_data (k d : Nat) : (s.linePut k d false).hbm = memStore s.hbm k (natLe d 64) 0 := rfl

theorem State.linePut_rest (k d : Nat) : (s.linePut k d false).hbmPort = s.hbmPort ∧ (s.linePut k d false).hbmPc = s.hbmPc ∧
    (s.linePut k d false).regs = s.regs := ⟨rfl, rfl, rfl⟩

theorem State.respond_part {x : Part} (hx : [Part.regs, .stewards, .rtq, .ni, .bearings, .hold].contains x = false) (hr : x ≠ .regs)
    (c : Nat) (d : List Nat) : x.same s (s.respond st p q c d) :=
  State.respond_keeps (Keeps.part hx hr s) s _ _ _ _ _ (Part.same_refl _ _)

theorem State.sealDeny_part {x : Part} (hx : [Part.regs, .draws, .stewards].contains x = false) (hr : x ≠ .regs) (k a : Nat) :
    x.same s (s.sealDeny st k a) :=
  State.sealDeny_keeps (Keeps.part hx hr s) s _ _ _ (Part.same_refl _ _)

theorem State.denied_rest (k c : Nat) (d : List Nat) : ((s.sealDeny st k q.a).respond st p q c d).hbmPort = s.hbmPort ∧
    ((s.sealDeny st k q.a).respond st p q c d).hbm = s.hbm ∧ ((s.sealDeny st k q.a).respond st p q c d).hbmPc = s.hbmPc :=
  ⟨Eq.trans (State.respond_part (x := .hbmPort) rfl (by decide) c d) (State.sealDeny_part (x := .hbmPort) rfl (by decide) k q.a),
    Eq.trans (State.respond_part (x := .hbm) rfl (by decide) c d) (State.sealDeny_part (x := .hbm) rfl (by decide) k q.a),
    Eq.trans (State.respond_part (x := .hbmPc) rfl (by decide) c d) (State.sealDeny_part (x := .hbmPc) rfl (by decide) k q.a)⟩

/-- A posted write of one line that enters alone (R240). -/
theorem State.frontStep_write (h : s.presenting st = [(p, n, q)]) (hq : smGet s.hbmPort [st, p] [] = q :: r) (hok : s.stackOk st = true)
    (hcheck : (s.sealCheck st { src := q.src, fn := q.fn } q.a true).1 = 0) (hrange : s.rangeOf st q.a = none) (hopc : q.opc = 7)
    (hpoison : q.poison = false) (hwin : s.winAttr (hbmJoin s.ilv st q.a) ≠ 1) (ht : t = (s.frontStep st false false).1) :
    smGet t.hbmPort [st, p] [] = r ∧ t.hbm = memStore s.hbm (s.lineKey st q.a) (natLe (q.data.getD 0 0) 64) 0 ∧
    (t.pc st (s.pcOf st q.a)).wq = (s.pc st (s.pcOf st q.a)).wq ++ [q] := by
  obtain ⟨v, hv, hstep⟩ := State.frontStep_taken h hq
  have hread : q.isRead = false := by
    unfold HbmReq.isRead
    rw [hopc]
    rfl
  rw [hv.passed hok (by rw [hread]; exact hcheck) hrange (by rw [hopc]; rfl) hwin,
    State.takeEffect_write hopc (by rw [hv.rangeOf]; exact hrange) hpoison, ← ht] at hstep
  obtain ⟨hport, hhbm, hpc⟩ := State.frontChoose_rest (s := (v.linePut (v.lineKey st q.a) (q.data.getD 0 0) false).enqueue st q)
    (st := st) false
  rw [← hstep] at hport hhbm hpc
  obtain ⟨eport, ehbm⟩ := State.enqueue_rest (s := v.linePut (v.lineKey st q.a) (q.data.getD 0 0) false) (st := st) (q := q)
  obtain ⟨lport, lpc, lregs⟩ := State.linePut_rest (s := v) (v.lineKey st q.a) (q.data.getD 0 0)
  have hwq := State.enqueue_wq (s := v.linePut (v.lineKey st q.a) (q.data.getD 0 0) false) (st := st) hread
  rw [State.pcOf_of_rd (State.rd_of_regs lregs), hv.pcOf, State.pc_of_hbmPc lpc, hv.pc] at hwq
  refine ⟨?_, ?_, ?_⟩
  · rw [hport, eport, lport, hv.port]
  · rw [hhbm, ehbm, State.linePut_data, hv.hbm, hv.lineKey]
  · rw [State.pc_of_hbmPc hpc, hwq]

theorem HbmReq.isRead_of_opc {d : List Nat} {c : Nat} (h : q.opc = 1) : ({ q with data := d, status := c } : HbmReq).isRead = true := by
  unfold HbmReq.isRead
  dsimp only
  rw [h]
  rfl

/-- A read of one line that enters alone (R240). -/
theorem State.frontStep_read (h : s.presenting st = [(p, n, q)]) (hq : smGet s.hbmPort [st, p] [] = q :: r) (hok : s.stackOk st = true)
    (hcheck : (s.sealCheck st { src := q.src, fn := q.fn } q.a false).1 = 0) (hrange : s.rangeOf st q.a = none) (hopc : q.opc = 1)
    (hwin : s.winAttr (hbmJoin s.ilv st q.a) ≠ 1) (hclean : s.poison.contains (s.lineKey st q.a) = false)
    (ht : t = (s.frontStep st false false).1) :
    smGet t.hbmPort [st, p] [] = r ∧ t.hbm = s.hbm ∧ (t.pc st (s.pcOf st q.a)).rq = (s.pc st (s.pcOf st q.a)).rq ++
      [{ q with data := [s.lineData (s.lineKey st q.a)], status := 0 }] := by
  obtain ⟨v, hv, hstep⟩ := State.frontStep_taken h hq
  have hread : q.isRead = true := by
    unfold HbmReq.isRead
    rw [hopc]
    rfl
  have hdata : v.lineData (s.lineKey st q.a) = s.lineData (s.lineKey st q.a) := by
    unfold State.lineData
    rw [hv.hbm]
  rw [hv.passed hok (by rw [hread]; exact hcheck) hrange (by rw [hopc]; rfl) hwin,
    State.takeEffect_read hopc (by rw [hv.rangeOf]; exact hrange) (by rw [hv.poison, hv.lineKey]; exact hclean), ← ht,
    hv.lineKey, hdata] at hstep
  generalize hq' : ({ q with data := [s.lineData (s.lineKey st q.a)], status := 0 } : HbmReq) = q' at hstep
  have ha : q'.a = q.a := by rw [← hq']
  obtain ⟨hport, hhbm, hpc⟩ := State.frontChoose_rest (s := v.enqueue st q') (st := st) false
  rw [← hstep] at hport hhbm hpc
  obtain ⟨eport, ehbm⟩ := State.enqueue_rest (s := v) (st := st) (q := q')
  have hrq := State.enqueue_rq (s := v) (st := st) (q := q') (by rw [← hq']; exact HbmReq.isRead_of_opc hopc)
  rw [hv.pcOf, hv.pc, ha] at hrq
  refine ⟨?_, ?_, ?_⟩
  · rw [hport, eport, hv.port]
  · rw [hhbm, ehbm, hv.hbm]
  · rw [State.pc_of_hbmPc hpc, hrq]

/-- A request that the checks refuse changes neither its port's other requests nor lines nor queues (R265). -/
theorem State.frontStep_refused (h : s.presenting st = [(p, n, q)]) (hq : smGet s.hbmPort [st, p] [] = q :: r) (hok : s.stackOk st = true)
    (hcheck : (s.sealCheck st { src := q.src, fn := q.fn } q.a (!q.isRead)).1 ≠ 0) (ht : t = (s.frontStep st false false).1) :
    smGet t.hbmPort [st, p] [] = r ∧ t.hbm = s.hbm ∧ t.hbmPc = s.hbmPc := by
  obtain ⟨v, hv, hstep⟩ := State.frontStep_taken h hq
  obtain ⟨k, c, d, hdeny⟩ := State.hbmEnter_refused (s := v) (st := st) (p := p) (q := q) (by rw [hv.stackOk]; exact hok)
    (by rw [State.sealCheck_of_rd hv.rd]; exact hcheck)
  rw [hdeny, ← ht] at hstep
  obtain ⟨hport, hhbm, hpc⟩ := State.frontChoose_rest (s := (v.sealDeny st k q.a).respond st p q c d) (st := st) false
  rw [← hstep] at hport hhbm hpc
  obtain ⟨h1, h2, h3⟩ := State.denied_rest (s := v) (st := st) (p := p) (q := q) k c d
  refine ⟨?_, ?_, ?_⟩
  · rw [hport, h1, hv.port]
  · rw [hhbm, h2, hv.hbm]
  · rw [hpc, h3, hv.hbmPc]

end

/-! PROOFS. Scheduling in a pseudo-channel: a due RFM, an owed refresh, the only read (R241, R244 to R246). -/

section
variable {s t u : State} {st : Fin 4} {c : Fin 32} {demand : Bool} {par : Fin 3} {q : HbmReq}

/-- The stack is busy from now on. -/
noncomputable def State.busied (s : State) (st : Nat) : State := s.setStk st { s.stk st with busyT := s.now, powerDown := false }

theorem State.busied_rd (n : Nat) (f : Fld) (i : List Nat) : (s.busied n).rd f i = s.rd f i := State.setStk_rd _ _ _ rfl

theorem exec_hbmSchedule (h : s.rd .HBM_CH_STAT_STATE [st, c.val / 2] ≠ 2) :
    ¬ (s.busied st).rd .HBM_CH_STAT_STATE [st.val, c.val / 2] = 2 := by
  rw [State.busied_rd]
  exact h

/-- An RFM is issued. -/
noncomputable def State.rfmIssued (s : State) (st c : Nat) (b : Nat) (r : List Nat) : State :=
  ((s.busied st).setPc st c { s.pc st c with rfm := r, rows := smPut (s.pc st c).rows [b] 0 0 }).bump .HBM_CH_RFM_CNT_COUNT [st, c / 2]

theorem exec_hbmSchedule_rfm {b : Nat} {r : List Nat} (hrfm : (s.pc st c).rfm = b :: r)
    (h : s.rd .HBM_CH_STAT_STATE [st, c.val / 2] ≠ 2) :
    exec (.hbmSchedule st c demand par) s = .next (s.rfmIssued st c b r) := by
  change execHbmSchedule st c demand par s = _
  unfold execHbmSchedule
  dsimp only
  rw [← State.busied, if_neg (exec_hbmSchedule h), hrfm]
  rfl

theorem State.bump_pc (f : Fld) (i : List Nat) (k a b : Nat) : (s.bump f i k).pc a b = s.pc a b := rfl

theorem State.rfmIssued_spec (b : Nat) (r : List Nat) : ((s.rfmIssued st c b r).pc st c).rfm = r ∧
    smGet ((s.rfmIssued st c b r).pc st c).rows [b] 0 = 0 ∧
    (s.rfmIssued st c b r).rd .HBM_CH_RFM_CNT_COUNT [st, c.val / 2] =
      min (s.rd .HBM_CH_RFM_CNT_COUNT [st, c.val / 2] + 1) 0xFFFFFFFF := by
  unfold State.rfmIssued
  rw [State.bump_pc, State.setPc_pc, if_pos ⟨rfl, rfl⟩, State.bump_same, State.setPc_rd _ _ _ _ rfl, State.busied_rd]
  exact ⟨rfl, smGet_smPut_same (s.pc st c).rows [b] 0 0, rfl⟩

/-! ## An owed refresh -/

/-- An owed refresh is issued, and closes every row. -/
noncomputable def State.refreshed (s : State) (st c : Nat) : State :=
  (s.busied st).setPc st c
    { s.pc st c with owed := (s.pc st c).owed - 1, rows := [], burst := (s.pc st c).burst && decide (1 < (s.pc st c).owed) }

theorem exec_hbmSchedule_refresh (hrfm : (s.pc st c).rfm = []) (hrq : (s.pc st c).rq = []) (hwq : (s.pc st c).wq = [])
    (howed : 0 < (s.pc st c).owed) (h : s.rd .HBM_CH_STAT_STATE [st, c.val / 2] ≠ 2) :
    exec (.hbmSchedule st c demand par) s = .next (s.refreshed st c) := by
  change execHbmSchedule st c demand par s = _
  unfold execHbmSchedule State.refreshed
  dsimp only
  rw [← State.busied, if_neg (exec_hbmSchedule h), hrfm]
  dsimp only
  rw [if_pos ⟨howed, .inr (.inl (by rw [hrq, hwq]; rfl))⟩]

/-! ## The only read -/

theorem State.activate_pc (a b : Nat) : ∃ rows acts rfm, (s.activate a b q demand).pc a b = { s.pc a b with rows := rows, acts := acts, rfm := rfm } ∧
    smGet rows [s.bankOf a q.a] 0 = hbmRow q.a + 1 := by
  unfold State.activate
  dsimp only
  split
  next hopen => exact ⟨_, _, _, rfl, hopen⟩
  next =>
    rw [State.setPc_pc, if_pos ⟨rfl, rfl⟩]
    exact ⟨_, _, _, rfl, smGet_smPut_same _ _ _ _⟩

theorem find?_singleton_or {α : Type} (f : α → Bool) (x : α) : [x].find? f = some x ∨ [x].find? f = none := by
  rw [List.find?_singleton]
  cases f x <;> simp

theorem State.pick_one (n : Nat) (x : PcRt) : s.pick n x [q] = some q := by
  unfold State.pick
  dsimp only
  generalize hf : List.find? _ [q] = o
  generalize hg : List.find? _ [q] = o'
  obtain ho | ho : o = some q ∨ o = none := hf ▸ find?_singleton_or _ q
  · rw [ho]
  · obtain ho' | ho' : o' = some q ∨ o' = none := hg ▸ find?_singleton_or _ q
    · rw [ho, ho']
      exact ite_self _
    · rw [ho, ho']
      exact ite_self _

/-- The only read is issued, its row open. -/
noncomputable def State.readIssued (s : State) (st c : Nat) (q : HbmReq) (demand : Bool) : State :=
  let u := ((s.busied st).setPc st c { s.pc st c with drain := false }).activate st c q demand
  u.setPc st c { u.pc st c with rq := takeOut q (u.pc st c).rq, inflight := (u.pc st c).inflight ++ [q] }

theorem exec_hbmSchedule_read (hrfm : (s.pc st c).rfm = []) (howed : (s.pc st c).owed = 0) (hrq : (s.pc st c).rq = [q])
    (hwq : (s.pc st c).wq = []) (h : s.rd .HBM_CH_STAT_STATE [st, c.val / 2] ≠ 2) :
    exec (.hbmSchedule st c demand par) s = .next (s.readIssued st c q demand) := by
  change execHbmSchedule st c demand par s = _
  unfold execHbmSchedule State.readIssued
  dsimp only
  rw [← State.busied, if_neg (exec_hbmSchedule h), hrfm]
  dsimp only
  rw [if_neg (by omega), hwq, hrq]
  dsimp only [List.length_nil, List.find?_nil]
  generalize hf : List.find? _ [q] = o
  obtain ho | ho : o = some q ∨ o = none := hf ▸ find?_singleton_or _ q
  · subst ho
    simp only [Nat.not_le.2 (show 0 < 48 by decide), show (0 : Nat) ≤ 16 from Nat.zero_le _, if_true, if_false]
  · subst ho
    simp only [Nat.not_le.2 (show 0 < 48 by decide), show (0 : Nat) ≤ 16 from Nat.zero_le _, if_true, if_false, Bool.false_or,
      List.isEmpty_cons, Bool.false_eq_true, State.pick_one]

theorem takeOut_only : takeOut q [q] = [] := if_pos rfl

theorem State.readIssued_spec (hrq : (s.pc st c).rq = [q]) : ((s.readIssued st c q demand).pc st c).rq = [] ∧
    ((s.readIssued st c q demand).pc st c).inflight = (s.pc st c).inflight ++ [q] ∧
    smGet ((s.readIssued st c q demand).pc st c).rows [s.bankOf st q.a] 0 = hbmRow q.a + 1 := by
  obtain ⟨rows, acts, rfm, hpc, hrow⟩ := State.activate_pc (s := (s.busied st).setPc st c { s.pc st c with drain := false }) (q := q)
    (demand := demand) st c
  rw [State.setPc_pc, if_pos ⟨rfl, rfl⟩] at hpc
  rw [State.bankOf_of_rd (s := s) (fun f i => (State.setPc_rd _ _ _ _ rfl).trans (State.busied_rd _ f i))] at hrow
  unfold State.readIssued
  dsimp only
  rw [State.setPc_pc, if_pos ⟨rfl, rfl⟩, hpc]
  dsimp only
  rw [hrq]
  exact ⟨takeOut_only, rfl, hrow⟩

end

/-! PROOFS. A read in flight completes (R240, R252, R276). -/

section
variable {s t u : State} {st : Fin 4} {c : Fin 32} {n : Nat} {line : Fin 4} {level : Fin 8} {mirror : Bool} {flips : BitVec 576} {q : HbmReq}

/-- The place of a line hangs on the hash masks of its stack (R236). -/
theorem State.lineKey_of_mask {n : Nat} (h : ∀ i : Nat, u.rd .HBM_HASH_MASK [n, i] = s.rd .HBM_HASH_MASK [n, i]) (a : Nat) :
    u.lineKey n a = s.lineKey n a := by
  simp only [State.lineKey, State.locOf, State.hashBit, h]

/-- The read has left its pseudo-channel. -/
noncomputable def State.readLeft (s : State) (st c n : Nat) : State := s.setPc st c { s.pc st c with inflight := (s.pc st c).inflight.eraseIdx n }

theorem State.readLeft_pc (a b : Nat) : (s.readLeft a b n).pc a b = { s.pc a b with inflight := (s.pc a b).inflight.eraseIdx n } := by
  unfold State.readLeft
  rw [State.setPc_pc, if_pos ⟨rfl, rfl⟩]

theorem State.readLeft_rd (a b : Nat) (f : Fld) (i : List Nat) : (s.readLeft a b n).rd f i = s.rd f i := State.setPc_rd _ _ _ _ rfl

theorem State.readLeft_lines (a b : Nat) : (s.readLeft a b n).hbm = s.hbm ∧ (s.readLeft a b n).poison = s.poison := ⟨rfl, rfl⟩

/-- An error at address `a` is counted and recorded. -/
noncomputable def State.errorFound (s : State) (st : Nat) (f : Fld) (ch code a sev : Nat) (sure : Bool) : State :=
  ((s.bump f [st, ch]).hbmErr st code a sev).suspectRow st a sure

theorem State.hbmErr_part {x : Part} (hx : [Part.regs, .stewards].contains x = false) (hr : x ≠ .regs) (n code a sev : Nat) :
    x.same s (s.hbmErr n code a sev) :=
  State.hbmErr_keeps (Keeps.part hx hr s) s _ _ _ _ (Part.same_refl _ _)

theorem State.suspectRow_part {x : Part} (hx : [Part.repairs, .stack].contains x = false) (hr : x ≠ .regs) (n a : Nat) (sure : Bool) :
    x.same s (s.suspectRow n a sure) :=
  State.suspectRow_keeps (Keeps.part hx hr s) s _ _ _ (Part.same_refl _ _)

theorem State.errorFound_rest (n : Nat) (f : Fld) (ch code a sev : Nat) (sure : Bool) :
    (s.errorFound n f ch code a sev sure).hbm = s.hbm ∧ (s.errorFound n f ch code a sev sure).poison = s.poison ∧
    (s.errorFound n f ch code a sev sure).hbmPc = s.hbmPc :=
  ⟨Eq.trans (State.suspectRow_part (x := .hbm) rfl (by decide) n a sure) (State.hbmErr_part (x := .hbm) rfl (by decide) n code a sev),
    Eq.trans (State.suspectRow_part (x := .poison) rfl (by decide) n a sure) (State.hbmErr_part (x := .poison) rfl (by decide) n code a sev),
    Eq.trans (State.suspectRow_part (x := .hbmPc) rfl (by decide) n a sure) (State.hbmErr_part (x := .hbmPc) rfl (by decide) n code a sev)⟩

theorem State.respond_rest (a k x : Nat) (d : List Nat) : (s.respond a k q x d).hbm = s.hbm ∧ (s.respond a k q x d).poison = s.poison ∧
    (s.respond a k q x d).hbmPc = s.hbmPc :=
  ⟨State.respond_part (x := .hbm) rfl (by decide) x d, State.respond_part (x := .poison) rfl (by decide) x d,
    State.respond_part (x := .hbmPc) rfl (by decide) x d⟩

theorem State.errorFound_count {f : Fld} (hf : hasFld opFieldsHbmErr f = false) (n ch code a sev : Nat) (sure : Bool) :
    (s.errorFound n f ch code a sev sure).rd f [n, ch] = min (s.rd f [n, ch] + 1) (2 ^ f.spec.width - 1) := by
  unfold State.errorFound
  rw [State.suspectRow_rd _ _ _ _ rfl, State.hbmErr_rd _ _ _ _ _ hf, State.bump_same]

/-- Where a finding stands. -/
noncomputable def HbmReq.errAt (q : HbmReq) (line : Nat) : Nat := q.a + 64 * (line % q.lines.length)

theorem exec_hbmReadComplete_clean (h : (s.pc st c).inflight[n]? = some q) : ∃ k x d,
    exec (.hbmReadComplete st c n line 0 level mirror flips) s = .next ((s.readLeft st c n).respond st k q x d) := by
  change ∃ k x d, execHbmReadComplete st c n line 0 level mirror flips s = _
  unfold execHbmReadComplete
  dsimp only
  rw [h]
  exact ⟨_, _, _, rfl⟩

theorem exec_hbmReadComplete_corrected (h : (s.pc st c).inflight[n]? = some q) : ∃ k x d,
    exec (.hbmReadComplete st c n line 1 level mirror flips) s = .next (((s.readLeft st c n).errorFound st .HBM_CH_COR_CNT_COUNT (c / 2) 1
      (q.errAt line) 0 false).respond st k q x d) := by
  change ∃ k x d, execHbmReadComplete st c n line 1 level mirror flips s = _
  unfold execHbmReadComplete
  dsimp only
  rw [h]
  exact ⟨_, _, _, rfl⟩

/-- The line of an uncorrectable error holds the poison syndrome, unless a newer write stands. -/
noncomputable def State.poisonedUnless (s : State) (k : Nat) (newer : Bool) : State := if !newer then s.linePut k 0 true else s

theorem exec_hbmReadComplete_uncorrectable (h : (s.pc st c).inflight[n]? = some q) {w : State}
    (hw : w = (s.readLeft st c n).errorFound st .HBM_CH_UNC_CNT_COUNT (c / 2) 2 (q.errAt line) 3 true) : ∃ k x d,
    exec (.hbmReadComplete st c n line 2 level mirror flips) s = .next ((w.poisonedUnless (w.lineKey st (q.errAt line))
      (w.newerWrite st q (q.errAt line) (s.pc st c))).respond st k q x d) := by
  change ∃ k x d, execHbmReadComplete st c n line 2 level mirror flips s = _
  unfold execHbmReadComplete
  dsimp only
  simp only [h, show ((2 : Fin 8) : Nat) = 2 from rfl, decide_true, Bool.true_or, Bool.true_and, if_true]
  rw [← State.readLeft, ← HbmReq.errAt, ← State.errorFound, ← hw, ← State.poisonedUnless]
  exact ⟨_, _, _, rfl⟩

/-- A corrected error is counted; the lines stay as they are. -/
theorem State.corrected_spec (k x : Nat) (d : List Nat) {t : State} (ht : t = ((s.readLeft st c n).errorFound st .HBM_CH_COR_CNT_COUNT (c / 2)
    1 (q.errAt line) 0 false).respond st k q x d) : (t.pc st c).inflight = (s.pc st c).inflight.eraseIdx n ∧
    t.rd .HBM_CH_COR_CNT_COUNT [st, c.val / 2] = min (s.rd .HBM_CH_COR_CNT_COUNT [st, c.val / 2] + 1) 0xFFFFFFFF ∧
    t.hbm = s.hbm ∧ t.poison = s.poison := by
  have hcount := State.errorFound_count (s := s.readLeft st c n) (f := .HBM_CH_COR_CNT_COUNT) rfl st (c / 2) 1 (q.errAt line) 0 false
  obtain ⟨ehbm, epoison, epc⟩ := State.errorFound_rest (s := s.readLeft st c n) st .HBM_CH_COR_CNT_COUNT (c / 2) 1 (q.errAt line) 0 false
  obtain ⟨lhbm, lpoison⟩ := State.readLeft_lines (s := s) (n := n) st c
  rw [State.readLeft_rd] at hcount
  generalize (s.readLeft st c n).errorFound st .HBM_CH_COR_CNT_COUNT (c / 2) 1 (q.errAt line) 0 false = w at *
  obtain ⟨rhbm, rpoison, rpc⟩ := State.respond_rest (s := w) (q := q) st k x d
  rw [← ht] at rhbm rpoison rpc
  refine ⟨?_, ?_, rhbm.trans (ehbm.trans lhbm), rpoison.trans (epoison.trans lpoison)⟩
  · rw [State.pc_of_hbmPc (rpc.trans epc), State.readLeft_pc]
  · rw [ht, State.respond_rd _ _ _ _ _ _ rfl, hcount]
    rfl

theorem insertNat_contains (k : Nat) (l : List Nat) : (insertNat k l).contains k = true := by
  induction l with
  | nil => simp [insertNat]
  | cons y l ih =>
    unfold insertNat
    split
    next e => simp [e]
    next =>
      split
      · simp
      · rw [List.contains_cons, ih, Bool.or_true]

/-- An uncorrectable error is counted; its line is poisoned unless a newer write stands. -/
theorem State.uncorrectable_spec {w t : State} (hw : w = (s.readLeft st c n).errorFound st .HBM_CH_UNC_CNT_COUNT (c / 2) 2 (q.errAt line) 3 true)
    (k x : Nat) (d : List Nat) (ht : t = (w.poisonedUnless (w.lineKey st (q.errAt line)) (w.newerWrite st q (q.errAt line) (s.pc st c))).respond
      st k q x d) : (t.pc st c).inflight = (s.pc st c).inflight.eraseIdx n ∧
    t.rd .HBM_CH_UNC_CNT_COUNT [st, c.val / 2] = min (s.rd .HBM_CH_UNC_CNT_COUNT [st, c.val / 2] + 1) 0xFFFFFFFF ∧
    (s.newerWrite st q (q.errAt line) (s.pc st c) = false → t.poison.contains (s.lineKey st (q.errAt line)) = true) := by
  have hcount := State.errorFound_count (s := s.readLeft st c n) (f := .HBM_CH_UNC_CNT_COUNT) rfl st (c / 2) 2 (q.errAt line) 3 true
  obtain ⟨ehbm, epoison, epc⟩ := State.errorFound_rest (s := s.readLeft st c n) st .HBM_CH_UNC_CNT_COUNT (c / 2) 2 (q.errAt line) 3 true
  obtain ⟨lhbm, lpoison⟩ := State.readLeft_lines (s := s) (n := n) st c
  have hkey : w.lineKey st (q.errAt line) = s.lineKey st (q.errAt line) := by
    refine State.lineKey_of_mask (fun i => ?_) _
    rw [hw]
    unfold State.errorFound
    rw [State.suspectRow_rd _ _ _ _ rfl, State.hbmErr_rd _ _ _ _ _ rfl, State.bump_rd _ _ _ _ rfl, State.readLeft_rd]
  have hnewer : w.newerWrite st q (q.errAt line) (s.pc st c) = s.newerWrite st q (q.errAt line) (s.pc st c) := by
    unfold State.newerWrite State.lineData
    rw [hkey, hw, ehbm, lhbm]
  rw [State.readLeft_rd, ← hw] at hcount
  rw [hkey, hnewer] at ht
  rw [← hw] at epc
  generalize hv : w.poisonedUnless (s.lineKey st (q.errAt line)) (s.newerWrite st q (q.errAt line) (s.pc st c)) = v at ht
  have hvpc : v.hbmPc = w.hbmPc := by
    rw [← hv]
    unfold State.poisonedUnless
    split <;> rfl
  have hvrd : ∀ f i, v.rd f i = w.rd f i := by
    rw [← hv]
    unfold State.poisonedUnless
    split <;> exact fun _ _ => rfl
  obtain ⟨-, rpoison, rpc⟩ := State.respond_rest (s := v) (q := q) st k x d
  rw [← ht] at rpoison rpc
  refine ⟨?_, ?_, fun hn => ?_⟩
  · rw [State.pc_of_hbmPc (rpc.trans (hvpc.trans epc)), State.readLeft_pc]
  · rw [ht, State.respond_rd _ _ _ _ _ _ rfl, hvrd, hcount]
    rfl
  · rw [rpoison, ← hv, hn]
    exact insertNat_contains _ _

/-- A read that returns as it is. -/
theorem State.cleanRead_spec (k x : Nat) (d : List Nat) {t : State} (ht : t = (s.readLeft st c n).respond st k q x d) :
    t.pc st c = { s.pc st c with inflight := (s.pc st c).inflight.eraseIdx n } ∧ t.hbm = s.hbm ∧ t.poison = s.poison := by
  obtain ⟨rhbm, rpoison, rpc⟩ := State.respond_rest (s := s.readLeft st c n) (q := q) st k x d
  obtain ⟨lhbm, lpoison⟩ := State.readLeft_lines (s := s) (n := n) st c
  rw [← ht] at rhbm rpoison rpc
  exact ⟨(State.pc_of_hbmPc rpc c).trans (State.readLeft_pc _ _), rhbm.trans lhbm, rpoison.trans lpoison⟩

end

/-! PROOFS. Refreshes, the idle front pipe under a scrub burst, power-down and a leaf's re-encryption (R234, R244, R245, R253, R274). -/

section
variable {s t u : State} {st : Fin 4} {c : Fin 32}

/-! ## Refreshes (R244, R245) -/

theorem State.request_hbmPc (g op units : Nat) (who : List Nat) (chain : List (List Nat)) :
    (s.request g op units who chain).hbmPc = s.hbmPc :=
  State.request_keeps (Keeps.part (p := .hbmPc) rfl (by decide) s) s _ _ _ _ _ rfl

theorem exec_hbmRefreshDue (h : s.hstate st = 2 ∨ s.hstate st = 5) : ∃ t, exec (.hbmRefreshDue st c) s = .next t ∧
    t.hbmPc = (s.setPc st c { s.pc st c with owed := (s.pc st c).owed + 1 }).hbmPc := by
  change ∃ t, execHbmRefreshDue st c s = _ ∧ _
  unfold execHbmRefreshDue
  dsimp only
  rw [if_pos (by tauto)]
  split
  · exact ⟨_, rfl, State.request_hbmPc _ _ _ _ _⟩
  · exact ⟨_, rfl, rfl⟩

/-- A step for each of several pseudo-channels acts on its own alone. -/
theorem State.pc_foldl {n : Nat} {g : State → Nat → State} {h : PcRt → PcRt}
    (hg : ∀ s c c', (g s c).pc n c' = if c = c' then h (s.pc n c') else s.pc n c') :
    ∀ {l : List Nat} (s : State) (c : Nat), l.Nodup → (l.foldl g s).pc n c = if c ∈ l then h (s.pc n c) else s.pc n c
  | [], _, _, _ => rfl
  | d :: l, s, c, hl => by
    obtain ⟨hd, hl⟩ := List.nodup_cons.1 hl
    rw [List.foldl_cons, State.pc_foldl hg (g s d) c hl, hg]
    by_cases hdc : d = c
    · subst hdc
      rw [if_neg hd, if_pos rfl, if_pos List.mem_cons_self]
    · rw [if_neg hdc]
      simp only [List.mem_cons, Ne.symm hdc, false_or]

/-- The refreshes of a burst, pseudo-channel by pseudo-channel. -/
noncomputable def State.burstIssued (s : State) (st : Nat) : State :=
  (List.range 32).foldl (fun s c => s.setPc st c { s.pc st c with owed := 0, burst := false, rows := [] }) s

theorem State.burstIssued_pc (n : Nat) (c : Fin 32) : (s.burstIssued n).pc n c = { s.pc n c with owed := 0, burst := false, rows := [] } := by
  unfold State.burstIssued
  rw [State.pc_foldl (h := fun x => { x with owed := 0, burst := false, rows := [] }) (fun s c c' => ?_) _ _ List.nodup_range,
    if_pos (List.mem_range.2 c.isLt)]
  rw [State.setPc_pc]
  by_cases hc : c = c'
  · rw [if_pos ⟨rfl, hc⟩, if_pos hc, hc]
  · rw [if_neg (fun h => hc h.2), if_neg hc]

/-- The owed refreshes are marked to go one at a time. -/
noncomputable def State.burstMarked (s : State) (st : Nat) : State :=
  (List.range 32).foldl (fun s c => let x := s.pc st c; if 0 < x.owed then s.setPc st c { x with burst := true } else s) s

/-- The mark of one pseudo-channel. -/
noncomputable def PcRt.marked (x : PcRt) : PcRt := if 0 < x.owed then { x with burst := true } else x

theorem State.burstMarked_pc (n : Nat) (c : Fin 32) : (s.burstMarked n).pc n c = (s.pc n c).marked := by
  unfold State.burstMarked
  rw [State.pc_foldl (h := PcRt.marked) (fun s c c' => ?_) _ _ List.nodup_range, if_pos (List.mem_range.2 c.isLt)]
  dsimp only
  by_cases hc : c = c'
  · subst hc
    unfold PcRt.marked
    rw [if_pos rfl]
    split
    · rw [State.setPc_pc, if_pos ⟨rfl, rfl⟩]
    · rfl
  · rw [if_neg hc]
    split
    · rw [State.setPc_pc, if_neg (fun h => hc h.2)]
    · rfl

theorem State.burstMarked_rest (n : Nat) : (s.burstMarked n).now = s.now ∧ ∀ g, (s.burstMarked n).gov g = s.gov g := by
  unfold State.burstMarked
  refine ⟨State.foldl_keep (·.now) (fun s c => ?_) _ _, fun g => State.foldl_keep (·.gov g) (fun s c => ?_) _ _⟩
  · dsimp only
    split <;> rfl
  · dsimp only
    split <;> rfl

theorem exec_hbmRefreshBurst (h : s.grantReady (9 + st) 13 [st] = true) :
    ∃ u, s.takeGrant (9 + st) 13 [st] = some u ∧ exec (.hbmRefreshBurst st) s = .next (u.burstIssued st) := by
  obtain ⟨u, hu⟩ := State.takeGrant_of_grantReady h
  refine ⟨u, hu, ?_⟩
  change execHbmRefreshBurst st s = _
  unfold execHbmRefreshBurst
  rw [hu]
  rfl

theorem exec_refreshBurstPermitTimeout (h : (s.gov (9 + st)).queue.any (·.is 13 [st]) = true) : exec (.refreshBurstPermitTimeout st) s =
    .next (((s.lapseTo ((s.stk st).burstT + 1000)).giveBack (9 + st) 13 [st]).burstMarked st) := if_pos h

/-! ## Power-down (R234, R256) -/

theorem exec_hbmPowerDown (hidle : s.rd .HBM_CTL_PD_IDLE [st] ≠ 0) (hstate : s.hstate st = 2)
    (h : ∀ c : Fin 32, (s.pc st c).rq = [] ∧ (s.pc st c).wq = [] ∧ (s.pc st c).inflight = []) : exec (.hbmPowerDown st) s =
    .next ((s.lapseTo ((s.stk st).busyT + s.rd .HBM_CTL_PD_IDLE [st] * 100)).setStk st { s.stk st with powerDown := true }) := by
  refine if_pos ⟨hidle, hstate, ?_⟩
  rw [List.all_eq_true]
  intro c hc
  obtain ⟨hrq, hwq, hfl⟩ := h ⟨c, List.mem_range.1 hc⟩
  rw [hrq, hwq, hfl]
  rfl

/-! ## Re-encryption of a leaf (R274) -/

/-- The first re-encryption of a stack is taken up. -/
noncomputable def State.reencPopped (s : State) (st : Nat) (r : List Reenc) : State := { s with reenc := smPut s.reenc [st] r [] }

/-- The first re-encryption of a stack ends, its leaf's major counter one higher. -/
noncomputable def State.leafReencrypted (s : State) (st : Nat) (e : Reenc) (r : List Reenc) : State :=
  ((((s.reencPopped st r).leafReset st e.r e.leaf (smGet s.leafMaj [st, e.r, e.leaf] 0 + 1)).hwmTo st e.r
    (smGet s.leafMaj [st, e.r, e.leaf] 0 + 1)).bump .SEAL_OVF_CNT_COUNT [st]).nodeDirty st e.r 0 e.leaf

theorem exec_leafReencryptDone {bad : List (Fin 64 × BitVec 576)} {e : Reenc} {r : List Reenc} (he : smGet s.reenc [st.val] [] = e :: r)
    (hw : e.waiting = []) (hlt : smGet s.leafMaj [st.val, e.r, e.leaf] 0 + 1 < 2 ^ 56) : ∃ got,
    exec (.leafReencryptDone st bad) s = .next ((s.leafReencrypted st e r).leafStore st e.r got) := by
  change ∃ got, execLeafReencryptDone st bad s = _
  have hre : ∀ v : State, smGet v.leafMaj [st.val, e.r, e.leaf] 0 = smGet s.leafMaj [st.val, e.r, e.leaf] 0 →
      v.leafReencrypt st e.r e.leaf = some ((((v.leafReset st e.r e.leaf (smGet s.leafMaj [st.val, e.r, e.leaf] 0 + 1)).hwmTo st e.r
        (smGet s.leafMaj [st.val, e.r, e.leaf] 0 + 1)).bump .SEAL_OVF_CNT_COUNT [st]).nodeDirty st e.r 0 e.leaf) := fun v hv => by
    unfold State.leafReencrypt
    dsimp only
    rw [hv, if_neg (Nat.not_le.2 hlt)]
  unfold execLeafReencryptDone
  rw [he]
  dsimp only
  rw [← State.reencPopped, hre (s.reencPopped st r) rfl, hw]
  exact ⟨_, rfl⟩

theorem State.leafReencrypted_spec (e : Reenc) (r : List Reenc) : smGet (s.leafReencrypted st e r).reenc [st.val] [] = r ∧
    smGet (s.leafReencrypted st e r).leafMaj [st.val, e.r, e.leaf] 0 = smGet s.leafMaj [st.val, e.r, e.leaf] 0 + 1 ∧
    (s.leafReencrypted st e r).rd .SEAL_OVF_CNT_COUNT [st] = min (s.rd .SEAL_OVF_CNT_COUNT [st] + 1) 0xFFFFFFFF := by
  unfold State.leafReencrypted
  generalize smGet s.leafMaj [st.val, e.r, e.leaf] 0 + 1 = m
  refine ⟨?_, ?_, ?_⟩
  · exact smGet_smPut_same s.reenc [st.val] r []
  · exact smGet_smPut_same s.leafMaj [st.val, e.r, e.leaf] m 0
  · rw [State.nodeDirty_rd _ _ _ _ _ rfl, State.bump_same, State.hwmTo_rd _ _ _ _ rfl, State.leafReset_rd _ _ _ _ _ rfl]
    rfl

theorem State.leafStore_rest (n r : Nat) (got : List (Nat × Option Nat)) : (s.leafStore n r got).reenc = s.reenc ∧
    (s.leafStore n r got).leafMaj = s.leafMaj :=
  ⟨State.leafStore_keeps (Keeps.part (p := .reenc) rfl (by decide) s) s _ _ _ rfl,
    State.leafStore_keeps (Keeps.part (p := .leafMaj) rfl (by decide) s) s _ _ _ rfl⟩

end

/-! PROOFS. A scrub burst with its grant; the obligation of the HBM controllers (R234, R239 to R246, R252, R253, R265, R274, R276). -/

section
variable {s t u : State}

/-! ## Scrub reads where no port presents (R243, R253) -/

theorem frontLike.trans {n : Nat} (h : frontLike n s t) (h' : frontLike n t u) : frontLike n s u := by
  obtain ⟨a, m, rfl, he⟩ := h
  obtain ⟨a', m', rfl, he'⟩ := h'
  exact ⟨a', m', rfl, he'.trans he⟩

theorem frontLike.rd {n : Nat} (h : frontLike n s t) (f : Fld) (i : List Nat) : t.rd f i = s.rd f i := by
  obtain ⟨a, m, rfl, -⟩ := h
  rfl

/-- No port of stack `n` holds a request. -/
def portsEmpty (s : State) (n : Nat) : Prop := ∀ p : Fin 16, smGet s.hbmPort [n, p] [] = []

theorem portsEmpty.like {n : Nat} (h : portsEmpty s n) (hl : frontLike n s t) : portsEmpty t n := by
  obtain ⟨a, m, rfl, -⟩ := hl
  exact h

theorem portsEmpty.presenting {n : Nat} (h : portsEmpty s n) : s.presenting n = [] := by
  unfold State.presenting
  rw [List.filterMap_eq_nil_iff]
  intro p hp
  rw [h ⟨p, List.mem_range.1 hp⟩]

/-- Where no port presents the scrub input is chosen, or none. -/
theorem portsEmpty.frontChoose {n : Nat} (h : portsEmpty s n) (scrub : Bool) :
    ((s.frontChoose n scrub).stk n).next = if scrub then some 16 else none := by
  unfold State.frontChoose scrubWins
  dsimp only
  rw [h.presenting]
  cases scrub
  · rw [Bool.false_and, if_neg (by decide), if_pos (by rfl), State.setStk_stk, if_pos rfl]
    rfl
  · rw [if_pos (by rfl), State.setStk_stk, if_pos rfl]
    rfl

/-- The decision that a scrub read finds pending holds. -/
noncomputable def State.scrubPending (s : State) (n : Nat) : Bool :=
  (s.stk n).next.any fun p => if p = 16 then true else (s.presenting n).any (fun x => x.1 = p)

theorem portsEmpty.pending {n : Nat} (h : portsEmpty s n) (hp : s.scrubPending n = true) : (s.stk n).next = some 16 := by
  unfold State.scrubPending at hp
  rw [h.presenting] at hp
  cases hn : (s.stk n).next with
  | none => rw [hn] at hp; cases hp
  | some p =>
    rw [hn, Option.any_some] at hp
    by_cases h16 : p = 16
    · rw [h16]
    · rw [if_neg h16] at hp
      cases hp

/-- A scrub read enters where no port presents. -/
theorem portsEmpty.frontStep {n : Nat} (h : portsEmpty s n) (more : Bool) : frontLike n s (s.frontStep n true more).1 := by
  have hlike : frontLike n s (if s.scrubPending n then s else s.frontChoose n true) := by
    split
    · exact frontLike.refl s
    · exact State.frontChoose_like true
  have hnext : ((if s.scrubPending n then s else s.frontChoose n true).stk n).next = some 16 := by
    split
    next hp => exact h.pending hp
    next => exact h.frontChoose true
  unfold State.frontStep
  dsimp only
  rw [show (s.stk n).next.any _ = s.scrubPending n from rfl]
  generalize (if s.scrubPending n then s else s.frontChoose n true) = u at hlike hnext
  rw [hnext]
  exact hlike.trans (State.frontChoose_like more)

theorem portsEmpty.scrubRead {n : Nat} (more : Bool) : ∀ {k : Nat} {s : State}, portsEmpty s n → frontLike n s (s.scrubRead n more k)
  | 0, s, _ => frontLike.refl s
  | k + 1, s, h => by
    have hl := h.frontStep more
    unfold State.scrubRead
    dsimp only
    split
    · exact hl
    · exact hl.trans (portsEmpty.scrubRead more (h.like hl))

theorem portsEmpty.scrubReads {n : Nat} (h : portsEmpty s n) : frontLike n s (s.scrubReads n) := by
  unfold State.scrubReads
  refine rel_foldl (R := fun t => frontLike n s t) (fun t i ht => ?_) _ (frontLike.refl s)
  exact ht.trans (portsEmpty.scrubRead _ (h.like ht))

/-! ## A scrub burst with its grant (R253) -/

/-- The time of a scrub burst: the first starts the pass, a later one waits for its instant `v`. -/
noncomputable def State.scrubTimed (s : State) (st v : Nat) : State :=
  if (s.stk st).scrubT = 0 then s.setStk st { s.stk st with scrubT := s.now } else s.lapseTo v

theorem State.scrubTimed_rest (n v : Nat) : (∀ g, (s.scrubTimed n v).gov g = s.gov g) ∧ (s.scrubTimed n v).hbmPort = s.hbmPort ∧
    ∀ f i, (s.scrubTimed n v).rd f i = s.rd f i := by
  unfold State.scrubTimed
  split
  · exact ⟨fun _ => rfl, rfl, fun _ _ => State.setStk_rd _ _ _ rfl⟩
  · exact ⟨fun _ => rfl, rfl, fun _ _ => State.lapseTo_rd _ _ rfl⟩

theorem exec_hbmScrubBurst {st : Fin 4} (hh : s.rd .HBM_SCRUB_HOURS [st] ≠ 0) (hok : s.stackOk st = true)
    (hready : (s.gov (9 + st)).ready.any (·.is 14 [st]) = true) (hpos : (s.stk st).scrubPos + 64 < 603979776) : 
    ∃ u : State, ∃ v : Nat, ∃ x : Gov, u = ((s.scrubTimed st v).setGov (9 + st) x).scrubReads st ∧
    exec (.hbmScrubBurst st [] true) s = .next (u.setStk st { u.stk st with scrubPos := (s.stk st).scrubPos + 64 }) := by
  have hgrant : ∀ v, (s.scrubTimed st v).waits (9 + st) 14 [st] = true ∧
      ∃ x, (s.scrubTimed st v).takeGrant (9 + st) 14 [st.val] = some ((s.scrubTimed st v).setGov (9 + st) x) := fun v => by
    have hready' : ((s.scrubTimed st v).gov (9 + st)).ready.any (·.is 14 [st.val]) = true := by
      rw [(State.scrubTimed_rest (s := s) st v).1]
      exact hready
    refine ⟨?_, State.takeGrant_given hready'⟩
    unfold State.waits
    dsimp only
    rw [hready', Bool.or_true]
  obtain ⟨hwaits, x, hx⟩ := hgrant ((s.stk st).scrubT + (s.stk st).scrubPos / 64 * (s.rd .HBM_SCRUB_HOURS [st] * 3600000000000) / 9437184)
  refine ⟨_, (s.stk st).scrubT + (s.stk st).scrubPos / 64 * (s.rd .HBM_SCRUB_HOURS [st] * 3600000000000) / 9437184, x, rfl, ?_⟩
  change execHbmScrubBurst st [] true s = _
  unfold execHbmScrubBurst
  dsimp only
  rw [if_pos ⟨hh, hok⟩, ← State.scrubTimed, hwaits, if_pos rfl, if_pos rfl, hx]
  dsimp only [List.foldl_nil]
  rw [if_neg (Nat.not_le.2 hpos)]

theorem State.scrubBurst_fields {n v : Nat} {x : Gov} {u : State} (hu : u = ((s.scrubTimed n v).setGov (9 + n) x).scrubReads n)
    (h : portsEmpty s n) (f : Fld) (i : List Nat) : u.rd f i = s.rd f i := by
  obtain ⟨-, hport, hrd⟩ := State.scrubTimed_rest (s := s) n v
  have hempty : portsEmpty ((s.scrubTimed n v).setGov (9 + n) x) n := by
    unfold portsEmpty
    rw [show ((s.scrubTimed n v).setGov (9 + n) x).hbmPort = (s.scrubTimed n v).hbmPort from rfl, hport]
    exact h
  rw [hu, hempty.scrubReads.rd, State.setGov_rd _ _ _ rfl, hrd]

end

/-- Settles O29, clause by clause: one request that enters, one command of the scheduler, one read that returns, and the refreshes,
the scrub, the power-down and the re-encryption of a leaf. -/
theorem hbmRequestsAreServedInTheirStack : Obligations.HbmRequestsAreServedInTheirStack := by
  unfold Obligations.HbmRequestsAreServedInTheirStack
  refine ⟨?write, ?rfm, ?refresh, ?read, ?corrected, ?uncorrectable, ?due, ?burst, ?burstTimeout, ?scrub, ?powerDown, ?reencrypt,
    ?readEnters, ?refused, ?clean⟩
  case write =>
    intro st p n q r s h hq hok hcheck hrange hopc hpoison hwin
    obtain ⟨hport, hhbm, hwq⟩ := State.frontStep_write h hq hok hcheck hrange hopc hpoison hwin rfl
    refine ⟨_, rfl, hport, hhbm, fun a ha => ?_, hwq⟩
    rw [hhbm]
    exact memGet_memStore_outside _ _ _ _ _ (by rw [natLe_length]; exact ha)
  case rfm =>
    intro st c demand par b r s hrfm hstate
    exact ⟨_, exec_hbmSchedule_rfm hrfm hstate, State.rfmIssued_spec b r⟩
  case refresh =>
    intro st c demand par s hrfm hrq hwq howed hstate
    refine ⟨_, exec_hbmSchedule_refresh hrfm hrq hwq howed hstate, ?_, ?_, fun f i _ => ?_⟩
    · unfold State.refreshed
      rw [State.setPc_pc, if_pos ⟨rfl, rfl⟩]
    · unfold State.refreshed
      rw [State.setPc_pc, if_pos ⟨rfl, rfl⟩]
    · exact (State.setPc_rd _ _ _ _ rfl).trans (State.busied_rd _ _ _)
  case read =>
    intro st c demand par q s hrfm howed hrq hwq hstate
    exact ⟨_, exec_hbmSchedule_read hrfm howed hrq hwq hstate, State.readIssued_spec hrq⟩
  case corrected =>
    intro st c n line level mirror flips q s h
    obtain ⟨k, x, d, hexec⟩ := exec_hbmReadComplete_corrected (line := line) (level := level) (mirror := mirror) (flips := flips) h
    exact ⟨_, hexec, State.corrected_spec k x d rfl⟩
  case uncorrectable =>
    intro st c n line level mirror flips q s h
    obtain ⟨k, x, d, hexec⟩ := exec_hbmReadComplete_uncorrectable (line := line) (level := level) (mirror := mirror) (flips := flips) h rfl
    exact ⟨_, hexec, State.uncorrectable_spec rfl k x d rfl⟩
  case due =>
    intro st c s hstate
    obtain ⟨t, hexec, hpc⟩ := exec_hbmRefreshDue (c := c) hstate
    refine ⟨t, hexec, ?_⟩
    rw [State.pc_of_hbmPc hpc, State.setPc_pc, if_pos ⟨rfl, rfl⟩]
  case burst =>
    intro st s h
    obtain ⟨u, -, hexec⟩ := exec_hbmRefreshBurst h
    refine ⟨_, hexec, fun c => ?_⟩
    rw [State.burstIssued_pc]
    exact ⟨rfl, rfl⟩
  case burstTimeout =>
    intro st s h
    obtain ⟨hnow, hgov⟩ := State.burstMarked_rest (s := (s.lapseTo ((s.stk st).burstT + 1000)).giveBack (9 + st) 13 [st]) st
    refine ⟨_, exec_refreshBurstPermitTimeout h, ?_, fun c hc => ?_, ?_⟩
    · rw [hgov]
      exact State.giveBack_queue _ _ _
    · rw [State.burstMarked_pc,
        State.pc_of_hbmPc (s := s) (t := (s.lapseTo ((s.stk st).burstT + 1000)).giveBack (9 + st) 13 [st]) rfl]
      unfold PcRt.marked
      rw [if_pos hc]
    · rw [hnow]
      exact (Nat.le_max_right _ _).trans (State.lapseTo_now s _).ge
  case scrub =>
    intro st s hh hok hready hpos
    obtain ⟨u, v, x, hu, hexec⟩ := exec_hbmScrubBurst hh hok hready hpos
    refine ⟨_, hexec, ?_, fun hports f i _ => ?_⟩
    · rw [State.setStk_stk, if_pos rfl]
    · exact (State.setStk_rd _ _ _ rfl).trans (State.scrubBurst_fields hu hports f i)
  case powerDown =>
    intro st s hidle hstate h
    refine ⟨_, exec_hbmPowerDown hidle hstate h, ?_, ?_⟩
    · rw [State.setStk_stk, if_pos rfl]
    · exact (Nat.le_max_right _ _).trans (State.lapseTo_now s _).ge
  case reencrypt =>
    intro st bad e r s he hw hlt
    obtain ⟨got, hexec⟩ := exec_leafReencryptDone (bad := bad) he hw hlt
    obtain ⟨hre, hmaj, hcount⟩ := State.leafReencrypted_spec (s := s) (st := st) e r
    obtain ⟨hre', hmaj'⟩ := State.leafStore_rest (s := s.leafReencrypted st e r) st e.r got
    refine ⟨_, hexec, ?_, ?_, ?_⟩
    · rw [hre', hre]
    · rw [hmaj', hmaj]
    · rw [State.leafStore_rd _ _ _ _ rfl, hcount]
  case readEnters =>
    intro st p n q r s h hq hok hcheck hrange hopc hwin hclean
    exact ⟨_, rfl, State.frontStep_read h hq hok hcheck hrange hopc hwin hclean rfl⟩
  case refused =>
    intro st p n q r s h hq hok hcheck
    exact ⟨_, rfl, State.frontStep_refused h hq hok hcheck rfl⟩
  case clean =>
    intro st c n line level mirror flips q s h
    obtain ⟨k, x, d, hexec⟩ := exec_hbmReadComplete_clean (line := line) (level := level) (mirror := mirror) (flips := flips) h
    exact ⟨_, hexec, State.cleanRead_spec k x d rfl⟩

/-! PROOFS. Routers: what an arbiter's decision, a departing head and a pool's grant change in the buffers (R169, R183 to R186, R201). -/

/-! ## Where an output leads (R162, R163) -/

/-- No output of a router leads back into the same router. -/
theorem hopOf_ne {site r c t r' port : Nat} (h : hopOf site r c = some (.router t r' port)) : ¬ (t = site ∧ r' = r) := by
  unfold hopOf at h
  dsimp only at h
  rintro ⟨rfl, rfl⟩
  split at h
  · cases h
  split at h
  · simp at h
  split at h
  · simp at h
  split at h
  next hy => simp only [Option.some.injEq, Hop.router.injEq] at h; omega
  split at h
  next hx => simp only [Option.some.injEq, Hop.router.injEq] at h; omega
  split at h
  next hsite =>
    split at h
    · simp only [Option.some.injEq, Hop.router.injEq] at h; omega
    split at h
    · simp only [Option.some.injEq, Hop.router.injEq] at h; omega
    split at h
    · simp only [Option.some.injEq, Hop.router.injEq] at h; omega
    · cases h
  next hsite =>
    obtain ⟨n, hn, h⟩ := List.exists_of_findSome?_eq_some h
    obtain ⟨j, -, h⟩ := List.exists_of_findSome?_eq_some h
    split at h
    · simp only [Option.some.injEq, Hop.router.injEq] at h
      have := List.mem_range.1 hn
      omega
    · cases h

section
variable {s t u : State} {site r port vc c : Nat} {p : Pkt} {l : List Pkt}

/-! ## Buffers -/

theorem State.setQ_q (a b d e a' b' d' e' : Nat) : (s.setQ a b d e l).q a' b' d' e' =
    if [a, b, d, e] = [a', b', d', e'] then l else s.q a' b' d' e' := smGet_smPut _ _ _ _ _

/-- The buffers that a change leaves alone are those of the routing table. -/
theorem State.q_of_table (h : t.rtq = s.rtq) (a b d e : Nat) : t.q a b d e = s.q a b d e := by
  unfold State.q
  rw [h]

/-- The head of a buffer has left, or the buffer is as it was. -/
def leftOr (s t : State) (site r port vc : Nat) : Prop :=
  t.q site r port vc = s.q site r port vc ∨ (t.q site r port vc).length = (s.q site r port vc).tail.length

theorem leftOr.of_table (h : t.rtq = s.rtq) : leftOr s t site r port vc := .inl (State.q_of_table h _ _ _ _)

theorem leftOr.table (h : leftOr s t site r port vc) (hu : u.rtq = t.rtq) : leftOr s u site r port vc := by
  unfold leftOr at *
  rw [State.q_of_table hu]
  exact h

theorem leftOr.table_left (h : leftOr t u site r port vc) (ht : t.rtq = s.rtq) : leftOr s u site r port vc := by
  unfold leftOr at *
  rw [State.q_of_table ht] at h
  exact h

theorem State.deq_length : ((s.deq site r port vc).q site r port vc).length = (s.q site r port vc).tail.length := by
  unfold State.deq
  rw [State.setQ_q_same]
  split
  next h => rw [h]; rfl
  next h => rw [h]

theorem State.deq_q_ne {a b d e : Nat} (h : [site, r, port, vc] ≠ [a, b, d, e]) : (s.deq site r port vc).q a b d e = s.q a b d e := by
  unfold State.deq
  rw [State.setQ_q, if_neg h]

theorem State.deq_leftOr (a b d e : Nat) : leftOr s (s.deq a b d e) site r port vc := by
  by_cases h : [a, b, d, e] = [site, r, port, vc]
  · simp only [List.cons.injEq, and_true] at h
    obtain ⟨rfl, rfl, rfl, rfl⟩ := h
    exact .inr State.deq_length
  · exact .inl (State.deq_q_ne h)

/-- A packet that leaves a router enters no buffer of that router. -/
theorem State.forward_q (q : Nat) : (s.forward site r c q p).q site r port vc = s.q site r port vc := by
  unfold State.forward
  dsimp only
  split
  · rfl
  · rfl
  next t r' port' hhop =>
    unfold State.enq
    rw [State.setQ_q, if_neg]
    intro h
    simp only [List.cons.injEq, and_true] at h
    exact hopOf_ne hhop ⟨h.1, h.2.1⟩

/-! ## What a decision changes (R185, R186) -/

theorem State.decide_part {x : Part} (hx : [Part.arbs, .rtPend].contains x = false) (hr : x ≠ .regs) (a b d : Nat) :
    x.same s (s.decide_ a b d) :=
  State.decide__keeps (Keeps.part hx hr s) s _ _ _ (Part.same_refl _ _)

theorem State.poolDecide_part {x : Part} (hx : [Part.arbs, .gkPool].contains x = false) (hr : x ≠ .regs) (a b d : Nat) :
    x.same s (s.poolDecide a b d) :=
  State.poolDecide_keeps (Keeps.part hx hr s) s _ _ _ (Part.same_refl _ _)

theorem State.decide_rtq (a b d : Nat) : (s.decide_ a b d).rtq = s.rtq := State.decide_part (x := .rtq) rfl (by decide) a b d

theorem State.poolDecide_rtq (a b d : Nat) : (s.poolDecide a b d).rtq = s.rtq := State.poolDecide_part (x := .rtq) rfl (by decide) a b d

theorem State.choose_rtq (a b d : Nat) : (s.choose a b d).1.rtq = s.rtq :=
  State.choose_keeps (Keeps.part (p := .rtq) rfl (by decide) s) s _ _ _ rfl

/-- The request that the pending decision of a pool names, while it is raised. -/
noncomputable def State.poolPick (s : State) (n k pl : Nat) : Option (Nat × Nat × Nat × Nat × Pkt) :=
  (s.pool n k pl).pend.bind fun x => (s.poolRaised n k pl).find? fun y => (y.1, y.2.1) = x

/-- A pool's pending decision, or one made afresh where it is void. -/
noncomputable def State.poolReady (s : State) (n k pl : Nat) : State := if (s.poolPick n k pl).isSome then s else s.poolDecide n k pl

/-- The packet of request `y` leaves its router's buffer for the pool. -/
noncomputable def State.poolTaken (s : State) (n k pl : Nat) (y : Nat × Nat × Nat × Nat × Pkt) : State :=
  let p := y.2.2.2.2
  let x := s.pool n k pl
  let o := galkorOut n k y.1
  (((s.setPool n k pl { x with
      txq := (List.range (opcFlits p.opc)).map (fun i => { p := p.shift y.2.2.1, ix := i, j := y.1 }), pend := none
      fly := smPut x.fly [y.1, p.vc] (smGet x.fly [y.1, p.vc] 0 + opcFlits p.opc) 0 }).deq o.1 o.2.1 y.2.2.1 y.2.2.2.1).decide_
    o.1 o.2.1 o.2.2).poolDecide n k pl

theorem State.poolGrant_eq (n k pl : Nat) : s.poolGrant n k pl = if (s.pool n k pl).txq.isEmpty = false then s
    else match (s.poolReady n k pl).poolPick n k pl with
      | none => s.poolReady n k pl
      | some y => (s.poolReady n k pl).poolTaken n k pl y := by
  unfold State.poolGrant
  refine ite_congr rfl (fun _ => rfl) (fun _ => ?_)
  dsimp only
  split
  next h => rw [show (s.poolReady n k pl).poolPick n k pl = none from h]; rfl
  next j i port vc p h => rw [show (s.poolReady n k pl).poolPick n k pl = some (j, i, port, vc, p) from h]; rfl

theorem State.poolReady_rtq (n k pl : Nat) : (s.poolReady n k pl).rtq = s.rtq := by
  unfold State.poolReady
  split
  · rfl
  · exact State.poolDecide_rtq _ _ _

/-- Of a pool's grant at most the head of one buffer leaves. -/
theorem State.poolGrant_leftOr (n k pl : Nat) : leftOr s (s.poolGrant n k pl) site r port vc := by
  rw [State.poolGrant_eq]
  split
  · exact .inl rfl
  cases (s.poolReady n k pl).poolPick n k pl with
  | none => exact leftOr.of_table (State.poolReady_rtq _ _ _)
  | some y =>
    refine leftOr.table ?_ (State.poolDecide_rtq _ _ _)
    refine leftOr.table ?_ (State.decide_rtq _ _ _)
    exact (State.deq_leftOr _ _ _ _).table_left (State.poolReady_rtq (s := s) n k pl)

/-- Of an output's grant at most the head of a buffer leaves, and what leaves enters no buffer of the same router. -/
theorem State.outGo_leftOr : leftOr s (s.outGo site r c) site r port vc := by
  unfold State.outGo
  split
  · exact .inl rfl
  have hrtq := State.choose_rtq (s := s) site r c
  generalize s.choose site r c = x at hrtq
  obtain ⟨u, y⟩ := x
  dsimp only at hrtq ⊢
  split
  · exact leftOr.of_table hrtq
  next port' vc' p' =>
    split
    · exact (State.poolGrant_leftOr _ _ _).table_left hrtq
    · refine leftOr.table ?_ (State.decide_rtq _ _ _)
      refine leftOr.table_left ?_ hrtq
      have hd := State.deq_leftOr (s := u) (site := site) (r := r) (port := port) (vc := vc) site r port' vc'
      unfold leftOr at hd ⊢
      rw [State.forward_q]
      exact hd

end

/-! PROOFS. Routers: the only request of an output is granted (R169, R183 to R186, R201 to R203). -/

section
variable {s t u : State} {site r port vc c : Nat} {p : Pkt}

/-! ## What the raised requests hang on -/

theorem State.poolOf_of_rd (h : ∀ f i, t.rd f i = s.rd f i) (n k : Nat) (p : Pkt) : t.poolOf n k p = s.poolOf n k p := by
  unfold State.poolOf
  simp only [h]

theorem State.linkCarries_of_rd (h : ∀ f i, t.rd f i = s.rd f i) (n k : Nat) (p : Pkt) : t.linkCarries n k p = s.linkCarries n k p := by
  unfold State.linkCarries State.dirUp State.on
  dsimp only
  rw [State.poolOf_of_rd h, h, h, h, h]

theorem State.outOk_of_rd (h : ∀ f i, t.rd f i = s.rd f i) (p : Pkt) : t.outOk site r c p = s.outOk site r c p := by
  unfold State.outOk
  simp only [State.vcDepth_of_rd h, State.linkCarries_of_rd h, h]

/-- The two states agree in everything that the requests of outputs hang on: buffers, registers, interfaces, flits on their way. -/
structure sameRequests (s t : State) : Prop where
  table : t.rtq = s.rtq
  interfaces : t.ni = s.ni
  rd : ∀ f i, t.rd f i = s.rd f i
  fly : ∀ n k pl, (t.pool n k pl).fly = (s.pool n k pl).fly

theorem sameRequests.flying (h : sameRequests s t) (n k j vc : Nat) : t.flying n k j vc = s.flying n k j vc := by
  unfold State.flying
  rw [h.fly, h.fly]

theorem sameRequests.vcRoom (h : sameRequests s t) (a b d e : Nat) (p : Pkt) (far : Nat) :
    t.vcRoom a b d e p far = s.vcRoom a b d e p far := by
  unfold State.vcRoom
  rw [State.q_of_table h.table, State.vcDepth_of_rd h.rd]

theorem sameRequests.outRoom (h : sameRequests s t) (p : Pkt) : t.outRoom site r c p = s.outRoom site r c p := by
  unfold State.outRoom State.niRt
  simp only [h.vcRoom, h.flying, h.interfaces]

theorem sameRequests.raised (h : sameRequests s t) : t.raised site r c = s.raised site r c := by
  unfold State.raised
  simp only [State.q_of_table h.table, State.outOk_of_rd h.rd, h.outRoom]

theorem State.decide_same (a b d : Nat) : sameRequests s (s.decide_ a b d) where
  table := State.decide_rtq a b d
  interfaces := State.decide_part (x := .ni) rfl (by decide) a b d
  rd f i := State.decide__rd _ _ _ _ rfl
  fly n k pl := congrArg (fun m => (smGet m [n, k, pl] {}).fly) (State.decide_part (x := .gkPool) (s := s) rfl (by decide) a b d)

/-! ## The only request of an output -/

/-- The request that the pending decision of an output names, while it is raised. -/
noncomputable def State.outPick (s : State) (site r c : Nat) : Option (Nat × Nat × Pkt) :=
  (s.rtNext site r c).bind fun x => (s.raised site r c).find? fun y => (y.1, y.2.1) = x

theorem State.choose_some {y : Nat × Nat × Pkt} (h : s.outPick site r c = some y) : s.choose site r c = (s, some y) := by
  unfold State.choose
  dsimp only
  split
  next y' hy => rw [show some y' = some y from hy.symm.trans h]
  next hy => rw [State.outPick, hy] at h; cases h

theorem State.choose_fresh (h : s.outPick site r c = none) :
    s.choose site r c = (s.decide_ site r c, (s.decide_ site r c).outPick site r c) := by
  unfold State.choose
  dsimp only
  split
  next y' hy => rw [State.outPick, hy] at h; cases h
  next => rfl

/-- The only request raised is the one that a decision names. -/
theorem State.outPick_one {y : Nat × Nat × Pkt} (h : s.raised site r c = [(port, vc, p)]) (hy : s.outPick site r c = some y) :
    y = (port, vc, p) := by
  unfold State.outPick at hy
  obtain ⟨x, -, hx⟩ := Option.bind_eq_some_iff.1 hy
  have := List.mem_of_find?_eq_some hx
  rw [h] at this
  exact List.mem_singleton.1 this

theorem State.setRtNext_rtNext (x : Option (Nat × Nat)) : (s.setRtNext site r c x).rtNext site r c = x := smGet_smPut_same _ _ _ _

/-- A decision among one request names it. -/
theorem State.decide_next (h : s.raised site r c = [(port, vc, p)]) : (s.decide_ site r c).rtNext site r c = some (port, vc) := by
  unfold State.decide_
  rw [h]
  dsimp only
  rw [List.map_singleton, show [arbInput port vc p.bounce].eraseDups = [arbInput port vc p.bounce] from rfl, Arb.decision_one, State.setRtNext_rtNext, List.find?_cons_of_pos (by simp)]
  rfl

theorem State.outPick_pending (h : s.raised site r c = [(port, vc, p)]) (hn : s.rtNext site r c = some (port, vc)) :
    s.outPick site r c = some (port, vc, p) := by
  unfold State.outPick
  rw [hn, h, Option.bind_some, List.find?_cons_of_pos (by simp)]

/-- The only request of an output is chosen. -/
theorem State.choose_one (h : s.raised site r c = [(port, vc, p)]) : ∃ u, sameRequests s u ∧ u.now = s.now ∧
    s.choose site r c = (u, some (port, vc, p)) := by
  cases hp : s.outPick site r c with
  | some y =>
    rw [State.choose_some hp, State.outPick_one h hp]
    exact ⟨s, ⟨rfl, rfl, fun _ _ => rfl, fun _ _ _ => rfl⟩, rfl, rfl⟩
  | none =>
    have hs := State.decide_same (s := s) site r c
    rw [State.choose_fresh hp, State.outPick_pending (hs.raised.trans h) (State.decide_next h)]
    exact ⟨_, hs, State.decide_part (x := .now) rfl (by decide) _ _ _, rfl⟩

theorem State.enq_q (a b d e : Nat) : (s.enq a b d e p).q a b d e = s.q a b d e ++ [p.entered s.now] := State.setQ_q_same _ _ _ _ _

theorem State.forward_router {t' r' port' : Nat} (h : hopOf site r c = some (.router t' r' port')) (q : Nat) :
    s.forward site r c q p = s.enq t' r' port' p.vc (p.shift q) := by
  unfold State.forward
  rw [h]

theorem Pkt.shift_route (q : Nat) : (p.shift q).route = p.route % 2 ^ 48 / 8 + q * 2 ^ 45 := rfl

/-- The only request of a mesh output leaves its buffer for the next router's. -/
theorem State.outGo_one {t' r' port' : Nat} (hd : s.drains site r c = false) (hg : galkorOf site r c = none)
    (h : s.raised site r c = [(port, vc, p)]) (hhop : hopOf site r c = some (.router t' r' port')) :
    ((s.outGo site r c).q site r port vc).length = (s.q site r port vc).tail.length ∧
    (s.outGo site r c).q t' r' port' p.vc = s.q t' r' port' p.vc ++ [(p.shift port).entered s.now] := by
  obtain ⟨u, hs, hnow, hchoose⟩ := State.choose_one h
  have hne : [site, r, port, vc] ≠ [t', r', port', p.vc] := fun e => by
    simp only [List.cons.injEq, and_true] at e
    exact hopOf_ne hhop ⟨e.1.symm, e.2.1.symm⟩
  unfold State.outGo
  rw [hd, if_neg (by decide), hchoose]
  dsimp only
  rw [hg]
  dsimp only
  rw [State.q_of_table (State.decide_rtq site r c), State.q_of_table (State.decide_rtq site r c), State.forward_q, State.deq_length,
    State.q_of_table hs.table, State.forward_router hhop, State.enq_q, State.deq_q_ne hne, State.q_of_table hs.table,
    show (u.deq site r port vc).now = u.now from rfl, hnow]
  exact ⟨rfl, rfl⟩

end

/-! PROOFS. Routers: the only request of a pool is granted, and a head bounces (R178 to R181, R201 to R203). -/

section
variable {s t u : State} {site r port vc c : Nat} {p : Pkt} {n k pl j i : Nat}

/-! ## The only request of a pool (R201 to R203) -/

theorem State.poolDecide_pool (n' k' pl' : Nat) : ((s.poolDecide n k pl).pool n' k' pl').txq = (s.pool n' k' pl').txq ∧
    ((s.poolDecide n k pl).pool n' k' pl').fly = (s.pool n' k' pl').fly := by
  have hset : ∀ u : State, (∀ a b d, u.pool a b d = s.pool a b d) → ∀ x : Option (Nat × Nat),
      ((u.setPool n k pl { s.pool n k pl with pend := x }).pool n' k' pl').txq = (s.pool n' k' pl').txq ∧
      ((u.setPool n k pl { s.pool n k pl with pend := x }).pool n' k' pl').fly = (s.pool n' k' pl').fly := fun u hu x => by
    rw [State.setPool_pool]
    split
    next h =>
      obtain ⟨rfl, rfl, rfl⟩ := h
      exact ⟨rfl, rfl⟩
    next => exact ⟨congrArg _ (hu _ _ _), congrArg _ (hu _ _ _)⟩
  unfold State.poolDecide
  split
  · exact hset s (fun _ _ _ => rfl) none
  · exact hset _ (fun _ _ _ => rfl) _

theorem State.poolDecide_same : sameRequests s (s.poolDecide n k pl) where
  table := State.poolDecide_rtq n k pl
  interfaces := State.poolDecide_part (x := .ni) rfl (by decide) n k pl
  rd f i := State.poolDecide_rd _ _ _ _ rfl
  fly _ _ _ := (State.poolDecide_pool _ _ _).2

theorem State.poolDecide_rtNext (a b d : Nat) : (s.poolDecide n k pl).rtNext a b d = s.rtNext a b d :=
  congrArg (fun m => smGet m [a, b, d] none) (State.poolDecide_part (x := .rtPend) (s := s) rfl (by decide) n k pl)

theorem sameRequests.poolRaised (h : sameRequests s t) (hn : ∀ a b d, t.rtNext a b d = s.rtNext a b d) :
    t.poolRaised n k pl = s.poolRaised n k pl := by
  unfold State.poolRaised State.drains
  simp only [h.raised, hn, h.rd, State.poolOf_of_rd h.rd]

theorem State.poolDecide_pend {y : Nat × Nat × Pkt} (h : s.poolRaised n k pl = [(j, i, y)]) :
    ((s.poolDecide n k pl).pool n k pl).pend = some (j, i) := by
  unfold State.poolDecide
  rw [h]
  dsimp only
  rw [List.map_singleton, Arb.decision_one, State.setPool_pool, if_pos ⟨rfl, rfl, rfl⟩, List.find?_cons_of_pos (by simp)]
  rfl

theorem State.poolPick_one {y : Nat × Nat × Pkt} {z : Nat × Nat × Nat × Nat × Pkt} (h : s.poolRaised n k pl = [(j, i, y)])
    (hz : s.poolPick n k pl = some z) : z = (j, i, y) := by
  unfold State.poolPick at hz
  obtain ⟨x, -, hx⟩ := Option.bind_eq_some_iff.1 hz
  have := List.mem_of_find?_eq_some hx
  rw [h] at this
  exact List.mem_singleton.1 this

theorem State.poolPick_pending {y : Nat × Nat × Pkt} (h : s.poolRaised n k pl = [(j, i, y)]) (hp : (s.pool n k pl).pend = some (j, i)) :
    s.poolPick n k pl = some (j, i, y) := by
  unfold State.poolPick
  rw [hp, h, Option.bind_some, List.find?_cons_of_pos (by simp)]

/-- The only request of a pool is the one it takes. -/
theorem State.poolReady_pick {y : Nat × Nat × Pkt} (h : s.poolRaised n k pl = [(j, i, y)]) :
    (s.poolReady n k pl).poolPick n k pl = some (j, i, y) := by
  unfold State.poolReady
  cases hp : s.poolPick n k pl with
  | some z =>
    rw [Option.isSome_some, if_pos rfl, hp, State.poolPick_one h hp]
  | none =>
    rw [Option.isSome_none, if_neg (by decide)]
    exact State.poolPick_pending ((State.poolDecide_same.poolRaised (State.poolDecide_rtNext)).trans h) (State.poolDecide_pend h)

/-- The `m` flits of a packet that wait for frames of link `j`. -/
noncomputable def Pkt.waiting (p : Pkt) (m j : Nat) : List GkFlit := (List.range m).map (fun i => { p := p, ix := i, j := j })

theorem State.decide_pool (a b d n k pl : Nat) : (s.decide_ a b d).pool n k pl = s.pool n k pl :=
  congrArg (fun m : SMap GkPool => smGet m [n, k, pl] {}) (State.decide_part (x := .gkPool) (s := s) rfl (by decide) a b d)

theorem State.deq_pool (a b d e n k pl : Nat) : (s.deq a b d e).pool n k pl = s.pool n k pl := rfl

theorem State.setPool_q (x : GkPool) (a b d e : Nat) : (s.setPool n k pl x).q a b d e = s.q a b d e := rfl

theorem State.poolTaken_txq (y : Nat × Nat × Nat × Nat × Pkt) :
    ((s.poolTaken n k pl y).pool n k pl).txq = (y.2.2.2.2.shift y.2.2.1).waiting (opcFlits y.2.2.2.2.opc) y.1 := by
  unfold State.poolTaken
  dsimp only
  rw [(State.poolDecide_pool _ _ _).1, State.decide_pool, State.deq_pool, State.setPool_pool, if_pos ⟨rfl, rfl, rfl⟩]
  rfl

theorem State.poolTaken_length (h : galkorOut n k j = (site, r, c)) :
    ((s.poolTaken n k pl (j, i, port, vc, p)).q site r port vc).length = (s.q site r port vc).tail.length := by
  unfold State.poolTaken
  dsimp only
  rw [h]
  dsimp only
  rw [State.q_of_table (State.poolDecide_rtq _ _ _), State.q_of_table (State.decide_rtq _ _ _), State.deq_length, State.setPool_q]

theorem opcFlits_pos (o : Nat) : 0 < opcFlits o := by
  unfold opcFlits
  split
  · decide
  · split <;> decide

theorem Pkt.waiting_length (p : Pkt) (m j : Nat) : (p.waiting m j).length = m := by
  unfold Pkt.waiting
  rw [List.length_map, List.length_range]

theorem Pkt.waiting_head (p : Pkt) {m : Nat} (hm : 0 < m) (j : Nat) : (p.waiting m j).head?.map (·.p.route) = some p.route := by
  unfold Pkt.waiting
  obtain ⟨k, rfl⟩ := Nat.exists_eq_succ_of_ne_zero hm.ne'
  rw [List.range_succ_eq_map]
  rfl

/-- The only request of a Galkor output, and of its pool, leaves its buffer and waits in the pool. -/
theorem State.outGo_galkor (hd : s.drains site r c = false) (hg : galkorOf site r c = some (n, k, j)) (hout : galkorOut n k j = (site, r, c))
    (hnext : s.rtNext site r c = some (port, vc)) (h : s.raised site r c = [(port, vc, p)])
    (htx : (s.pool n k (s.poolOf n k p)).txq = []) (hpool : s.poolRaised n k (s.poolOf n k p) = [(j, gkInput j p, port, vc, p)]) :
    ((s.outGo site r c).q site r port vc).length = (s.q site r port vc).tail.length ∧
    ((s.outGo site r c).pool n k (s.poolOf n k p)).txq = (p.shift port).waiting (opcFlits p.opc) j := by
  have hgo : s.outGo site r c = (s.poolReady n k (s.poolOf n k p)).poolTaken n k (s.poolOf n k p) (j, gkInput j p, port, vc, p) := by
    unfold State.outGo
    rw [hd, if_neg (by decide), State.choose_some (State.outPick_pending h hnext)]
    dsimp only
    rw [hg]
    dsimp only
    rw [State.poolGrant_eq, htx, if_neg (by simp), State.poolReady_pick hpool]
  rw [hgo, State.poolTaken_txq, State.poolTaken_length hout, State.q_of_table (State.poolReady_rtq _ _ _)]
  exact ⟨rfl, rfl⟩

/-! ## A head that bounces (R178) -/

theorem State.voidAt_part {x : Part} (hx : [Part.rtPend, .gkPool].contains x = false) (hr : x ≠ .regs) (a b d e f : Nat) :
    x.same s (s.voidAt a b d e f) :=
  State.voidAt_keeps (Keeps.part hx hr s) s _ _ _ _ _ (Part.same_refl _ _)

theorem State.outGo_now : (s.outGo site r c).now = s.now :=
  State.outGo_keeps (Keeps.part (p := .now) rfl (by decide) s) s _ _ _ rfl

/-- A head that bounces, counted and with the decisions that chose it void. -/
noncomputable def State.bounceCounted (s : State) (site r port vc : Nat) (p : Pkt) : State :=
  (s.bump .NOC_RTR_BOUNCE_COUNT [site, r]).voidAt site r port vc (bitsOf p.route 0 3)

/-- The packet as it waits for its way back. -/
noncomputable def Pkt.back (p : Pkt) (port now : Nat) : Pkt := { (p.shift port).bounced with t := now }

theorem State.bounceHead_eq {l : List Pkt} (h : s.q site r port vc = p :: l) : s.bounceHead site r port vc =
    ((s.bounceCounted site r port vc p).setHead site r port vc (p.back port (s.bounceCounted site r port vc p).now)).outGo site r port := by
  unfold State.bounceHead
  rw [h]
  rfl

theorem State.bounceCounted_rest : (s.bounceCounted site r port vc p).rtq = s.rtq ∧ (s.bounceCounted site r port vc p).now = s.now ∧
    (s.bounceCounted site r port vc p).rd .NOC_RTR_BOUNCE_COUNT [site, r] = min (s.rd .NOC_RTR_BOUNCE_COUNT [site, r] + 1) 0xFFFFFFFF := by
  unfold State.bounceCounted
  refine ⟨State.voidAt_part (x := .rtq) rfl (by decide) _ _ _ _ _, State.voidAt_part (x := .now) rfl (by decide) _ _ _ _ _, ?_⟩
  rw [State.voidAt_rd _ _ _ _ _ _ rfl, State.bump_same]
  rfl

theorem State.setHead_q {l : List Pkt} {x : Pkt} (h : s.q site r port vc = p :: l) :
    (s.setHead site r port vc x).q site r port vc = x :: l := by
  unfold State.setHead
  rw [State.setQ_q_same, h]

/-- What a head that bounces leaves (R178). -/
theorem State.bounceHead_spec {l : List Pkt} (h : s.q site r port vc = p :: l) :
    (s.bounceHead site r port vc).rd .NOC_RTR_BOUNCE_COUNT [site, r] = min (s.rd .NOC_RTR_BOUNCE_COUNT [site, r] + 1) 0xFFFFFFFF ∧
    (s.bounceHead site r port vc).now = s.now ∧ (((s.bounceHead site r port vc).q site r port vc).length = l.length ∨
      (s.bounceHead site r port vc).q site r port vc = p.back port s.now :: l) := by
  obtain ⟨htable, hnow, hcount⟩ := State.bounceCounted_rest (s := s) (site := site) (r := r) (port := port) (vc := vc) (p := p)
  rw [State.bounceHead_eq h, hnow]
  generalize s.bounceCounted site r port vc p = u at htable hnow hcount
  have hq := State.setHead_q (s := u) (x := p.back port s.now) ((State.q_of_table htable site r port vc).trans h)
  have hleft := State.outGo_leftOr (s := u.setHead site r port vc (p.back port s.now)) (site := site) (r := r) (port := port) (vc := vc)
    (c := port)
  unfold leftOr at hleft
  rw [hq] at hleft
  refine ⟨?_, ?_, hleft.symm⟩
  · rw [State.outGo_rd _ _ _ _ rfl, State.setHead_rd _ _ _ _ _ _ rfl, hcount]
  · rw [State.outGo_now]
    exact hnow

/-- A head that bounces while its way back drains waits for it. -/
theorem State.bounceHead_waits {l : List Pkt} (h : s.q site r port vc = p :: l) (hd : s.drains site r port = true) :
    (s.bounceHead site r port vc).q site r port vc = p.back port s.now :: l := by
  obtain ⟨htable, hnow, -⟩ := State.bounceCounted_rest (s := s) (site := site) (r := r) (port := port) (vc := vc) (p := p)
  have hdrains : ((s.bounceCounted site r port vc p).setHead site r port vc (p.back port s.now)).drains site r port = true := by
    unfold State.drains State.bounceCounted at *
    rw [State.setHead_rd _ _ _ _ _ _ rfl, State.voidAt_rd _ _ _ _ _ _ rfl, State.bump_rd _ _ _ _ rfl]
    exact hd
  rw [State.bounceHead_eq h, hnow]
  unfold State.outGo
  rw [if_pos hdrains]
  exact State.setHead_q ((State.q_of_table htable site r port vc).trans h)

end

/-! PROOFS. Routers: the obligation (R167 to R170, R175, R176, R178, R180 to R182, R185, R189, R190). -/

section
variable {s t u : State} {site : Fin 9} {r : Fin 24} {port : Fin 8} {vc : Fin 5} {p : Pkt} {q : List Pkt}

/-! ## The checks of an arriving head (R167, R175, R176) -/

theorem State.headChecks_clean (hm : p.malformed = false) (a b d e : Nat) : s.headChecks a b d e [] p = (s, true) := by
  unfold State.headChecks
  dsimp only
  rw [List.filter_nil, List.find?_nil]
  dsimp only
  rw [hm, if_neg (by decide), List.any_nil, if_neg (by decide), List.foldl_nil]

/-- A head that may not go on (R170): without a bounce, and its route at an end or its output not usable. -/
noncomputable def State.headLost (s : State) (site r port : Nat) (p : Pkt) : Bool :=
  !p.bounce && ((decide (p.len = 0) && port != 4 && port != 5) || !s.outOk site r (bitsOf p.route 0 3) p)

theorem exec_routerHeadFlit (h : s.q site r port vc = p :: q) (hm : p.malformed = false) : exec (.routerHeadFlit site r port vc []) s =
    .next (if s.headLost site r port p then s.bounceHead site r port vc else s.outGo site r (bitsOf p.route 0 3)) := by
  change execRouterHeadFlit site r port vc [] s = _
  unfold execRouterHeadFlit
  rw [h]
  dsimp only
  rw [State.headChecks_clean hm]
  dsimp only
  rw [if_pos rfl]
  exact (apply_ite Host.Outcome.next _ _ _).symm

theorem State.headLost_false (hlen : p.len ≠ 0) (hok : s.outOk site r (bitsOf p.route 0 3) p = true) : s.headLost site r port p = false := by
  unfold State.headLost
  rw [hok, decide_eq_false hlen]
  simp

theorem State.headLost_true (hb : p.bounce = false) (hok : s.outOk site r (bitsOf p.route 0 3) p = false) :
    s.headLost site r port p = true := by
  unfold State.headLost
  rw [hok, hb]
  simp

/-- A header that cannot be corrected. -/
def headFlitBad (e : FlitErr) : Bool := e.flit = 0 && e.word.isNone && e.bad

/-- The finding of a header that cannot be corrected. -/
noncomputable def State.headerLost (s : State) (site r port : Nat) : State :=
  ((s.rtrErr site r port .NOC_RTR_ERR_HUNC).bump .NOC_RTR_UNCCNT_COUNT [site, r]).raise .NOC_RTR_PORT [site, r] 176 3 [r, port]

theorem State.flitErr_headBad {e : FlitErr} (h : headFlitBad e = true) (a b d : Nat) : s.flitErr a b d e = s.headerLost a b d := by
  unfold headFlitBad at h
  simp only [Bool.and_eq_true, decide_eq_true_eq, Option.isNone_iff_eq_none] at h
  obtain ⟨⟨-, hw⟩, hb⟩ := h
  unfold State.flitErr
  dsimp only
  rw [hw, hb]
  rfl

theorem State.headChecks_headBad {errs : List FlitErr} (h : errs.any (fun e => e.flit == 0 && e.word.isNone && e.bad) = true) (a b d e : Nat) :
    s.headChecks a b d e errs p = ((s.headerLost a b d).deq a b d e, false) := by
  obtain ⟨x, hx, hbad⟩ := List.any_eq_true.1 h
  have hxb : headFlitBad x = true := by
    unfold headFlitBad
    rw [← beq_eq_decide]
    exact hbad
  have h0 : x.flit = 0 := by
    simp only [Bool.and_eq_true, beq_iff_eq] at hbad
    exact hbad.1.1
  have hmem : x ∈ errs.filter (fun e => e.flit.val < opcFlits p.opc) := by
    rw [List.mem_filter]
    exact ⟨hx, by rw [h0]; exact decide_eq_true (opcFlits_pos _)⟩
  obtain ⟨y, hy⟩ := Option.isSome_iff_exists.1 (List.find?_isSome.2 ⟨x, hmem, hxb⟩)
  unfold State.headChecks
  dsimp only
  rw [show (errs.filter (fun e => e.flit.val < opcFlits p.opc)).find? (fun e => e.flit = 0 && e.word.isNone && e.bad) = some y from hy]
  dsimp only
  rw [State.flitErr_headBad (List.find?_some hy)]

theorem exec_routerHeadFlit_headBad {errs : List FlitErr} (h : s.q site r port vc = p :: q)
    (hbad : errs.any (fun e => e.flit == 0 && e.word.isNone && e.bad) = true) : exec (.routerHeadFlit site r port vc errs) s =
    .next ((s.headerLost site r port).deq site r port vc) := by
  change execRouterHeadFlit site r port vc errs s = _
  unfold execRouterHeadFlit
  rw [h]
  dsimp only
  rw [State.headChecks_headBad hbad]
  rfl

theorem State.rtrErr_set (f : Fld) (hw : 1 % 2 ^ f.spec.width = 1) : (s.rtrErr site r port f).rd f [site, r] = 1 := by
  unfold State.rtrErr
  dsimp only
  rw [State.rd_wr_same, hw]

theorem State.headerLost_spec : (s.headerLost site r port).rtq = s.rtq ∧ (s.headerLost site r port).rd .NOC_RTR_ERR_HUNC [site, r] = 1 ∧
    (s.headerLost site r port).rd .NOC_RTR_UNCCNT_COUNT [site, r] = min (s.rd .NOC_RTR_UNCCNT_COUNT [site, r] + 1) 0xFFFFFFFF := by
  unfold State.headerLost
  refine ⟨?_, ?_, ?_⟩
  · refine Eq.trans (State.raise_keeps (Keeps.part (p := .rtq) rfl (by decide) _) _ _ _ _ _ _ rfl) ?_
    exact State.rtrErr_keeps (f := .NOC_RTR_ERR_HUNC) (Keeps.part (p := .rtq) rfl (by decide) s) s _ _ _ rfl
  · rw [State.raise_rd _ _ _ _ _ _ rfl, State.bump_rd _ _ _ _ rfl]
    exact State.rtrErr_set _ rfl
  · rw [State.raise_rd _ _ _ _ _ _ rfl, State.bump_same, State.rtrErr_rd _ _ _ _ _ rfl]
    rfl

/-! ## Timeouts and drains (R180, R181) -/

theorem exec_stallBounce (h : s.q site r port vc = p :: q) (hb : p.bounce = false) (ht : s.rd .NOC_STALL_TIMEOUT [site] ≠ 0) :
    exec (.stallBounce site r port vc) s =
      .next ((s.lapseTo (p.t + s.rd .NOC_STALL_TIMEOUT [site] * 1000)).bounceHead site r port vc) := by
  change execStallBounce site r port vc s = _
  unfold execStallBounce
  dsimp only
  rw [h]
  dsimp only
  rw [if_neg (by rw [hb]; simp [ht])]

/-- The instant at which a packet has waited the drain timeout. -/
noncomputable def State.drainDue (s : State) (site r : Nat) (p : Pkt) : Nat :=
  max p.arr (smGet s.drainT [site, r, bitsOf p.route 0 3] 0) + s.rd .NOC_DRAIN_TIMEOUT [site] * 1000

theorem exec_drainTimeoutBounce (h : s.q site r port vc = p :: q) (hb : p.bounce = false)
    (hd : s.drains site r (bitsOf p.route 0 3) = true) :
    exec (.drainTimeoutBounce site r port vc) s = .next ((s.lapseTo (s.drainDue site r p)).bounceHead site r port vc) := by
  change execDrainTimeoutBounce site r port vc s = _
  unfold execDrainTimeoutBounce
  rw [h]
  exact if_pos ⟨hd, hb⟩

/-- The waiting times of the outputs that drain. -/
noncomputable def State.drainTimed (s : State) (site r old bits : Nat) : State :=
  { s with drainT := (List.range 8).foldl (fun m p =>
      if bits.testBit p then (if old.testBit p then m else smPut m [site, r, p] s.now 0) else smPut m [site, r, p] 0 0) s.drainT }

theorem State.drainTimed_rd (a b old bits : Nat) (f : Fld) (i : List Nat) : (s.drainTimed a b old bits).rd f i = s.rd f i :=
  State.rd_of_regs rfl f i

theorem exec_portDrain {w : Writer} {bits : BitVec 8} (h : s.reaches w .NOC_RTR_PORT [site, r] = true) : exec (.portDrain w site r bits) s =
    .next (((s.drainTimed site r (s.rd .NOC_RTR_PORT_DRAIN [site, r]) bits.toNat).wr .NOC_RTR_PORT_DRAIN [site, r] bits.toNat).wr
      .NOC_RTR_PORT_DRAINED [site, r] (s.rd .NOC_RTR_PORT_DRAINED [site, r] &&& bits.toNat)) :=
  congrArg Host.Outcome.next (State.reach_of h _ _)

theorem exec_portDrained {c : Fin 8} (hd : s.drains site r c = true) (h : s.behindEmpty site r c = true) :
    exec (.portDrained site r c) s = .next (s.setBit .NOC_RTR_PORT_DRAINED [site, r] c true) := if_pos ⟨hd, h⟩

/-! ## Configuration of a port (R182, R190) -/

/-- The depths of the VCs of an input. -/
noncomputable def State.vcTaken (s : State) (site r p v : Nat) : State :=
  (((s.wr .NOC_RTR_VC_REQ [site, r, p] (bitsOf v 0 6)).wr .NOC_RTR_VC_PST [site, r, p] (bitsOf v 8 6)).wr
    .NOC_RTR_VC_SNP [site, r, p] (bitsOf v 16 6)).wr .NOC_RTR_VC_RSP [site, r, p] (bitsOf v 24 6)

theorem exec_routerPortConfig_vc {w : Writer} {c : Fin 8} {v : BitVec 32} (h : s.reaches w .NOC_RTR_VC [site, r, c] = true) :
    exec (.routerPortConfig w site r c true v) s = .next (if vcBad v.toNat || !s.portFree site r c
      then s.drop w .NOC_RTR_VC [site, r, c] v.toNat else s.vcTaken site r c v.toNat) := by
  change execRouterPortConfig w site r c true v s = _
  unfold execRouterPortConfig
  dsimp only
  rw [if_pos rfl, State.reach_of h]
  rfl

theorem State.vcTaken_spec (a b d v : Nat) : (s.vcTaken a b d v).rd .NOC_RTR_VC_REQ [a, b, d] = bitsOf v 0 6 ∧
    (s.vcTaken a b d v).rd .NOC_RTR_VC_PST [a, b, d] = bitsOf v 8 6 ∧ (s.vcTaken a b d v).rd .NOC_RTR_VC_SNP [a, b, d] = bitsOf v 16 6 ∧
    (s.vcTaken a b d v).rd .NOC_RTR_VC_RSP [a, b, d] = bitsOf v 24 6 := by
  unfold State.vcTaken
  have hfit : ∀ x, bitsOf v x 6 % 2 ^ 6 = bitsOf v x 6 := fun x => Nat.mod_eq_of_lt (bitsOf_lt _ _ _)
  refine ⟨?_, ?_, ?_, ?_⟩
  · simp (disch := decide) only [State.rd_wr_fld]
    rw [State.rd_wr_same]
    exact hfit 0
  · simp (disch := decide) only [State.rd_wr_fld]
    rw [State.rd_wr_same]
    exact hfit 8
  · simp (disch := decide) only [State.rd_wr_fld]
    rw [State.rd_wr_same]
    exact hfit 16
  · rw [State.rd_wr_same]
    exact hfit 24

theorem State.keptBits_none (h : ∀ b : Fin 8, s.portFree site r b = true) (f : Nat → Bool) :
    (List.range 8).filter (fun b => f b && !s.portFree site r b) = [] := by
  rw [List.filter_eq_nil_iff]
  intro b hb
  rw [h ⟨b, List.mem_range.1 hb⟩]
  simp

theorem exec_routerPortConfig_en {w : Writer} {c : Fin 8} {v : BitVec 32} (h : s.reaches w .NOC_RTR_PORT [site, r] = true)
    (hfree : ∀ b : Fin 8, s.portFree site r b = true) :
    exec (.routerPortConfig w site r c false v) s = .next (s.wr .NOC_RTR_PORT_EN [site, r] (v.toNat % 256)) := by
  change execRouterPortConfig w site r c false v s = _
  unfold execRouterPortConfig
  dsimp only
  rw [if_neg (by decide), State.reach_of h, State.keptBits_none hfree (fun b => (s.rd .NOC_RTR_PORT_EN [site, r]).testBit b && !(v.toNat % 256).testBit b)]
  rfl

end

/-- Settles O27, clause by clause: the only request of an output, of a pool, a head that bounces, the drains and the configuration. -/
theorem routersForwardBounceAndDrain : Obligations.RoutersForwardBounceAndDrain := by
  unfold Obligations.RoutersForwardBounceAndDrain
  refine ⟨?mesh, ?galkor, ?bounce, ?waits, ?headerBad, ?stall, ?drainTimeout, ?drain, ?drained, ?depths, ?badDepths, ?enable⟩
  case mesh =>
    intro site r port vc p q t' r' port' s h hm hlen hok hd hg hraised hhop
    refine ⟨_, exec_routerHeadFlit h hm, ?_⟩
    obtain ⟨hlength, hqueue⟩ := State.outGo_one hd hg hraised hhop
    rw [h] at hlength
    rw [State.headLost_false hlen hok, if_neg (by decide), hqueue]
    refine ⟨hlength, ?_, List.length_append⟩
    rw [List.getLast?_append, List.getLast?_singleton, Option.some_or, Option.map_some, (Pkt.entered_rest _ _).1, Pkt.shift_route]
  case galkor =>
    intro site r port vc p q n k j s h hm hlen hok hd hg hout hnext hraised htx hpool
    refine ⟨_, exec_routerHeadFlit h hm, ?_⟩
    obtain ⟨hlength, hwait⟩ := State.outGo_galkor hd hg hout hnext hraised htx hpool
    rw [h] at hlength
    rw [State.headLost_false hlen hok, if_neg (by decide), hwait]
    refine ⟨hlength, Pkt.waiting_length _ _ _, ?_⟩
    rw [Pkt.waiting_head _ (opcFlits_pos _), Pkt.shift_route]
  case bounce =>
    intro site r port vc p q s h hm hb hok
    refine ⟨_, exec_routerHeadFlit h hm, ?_⟩
    obtain ⟨hcount, -, hqueue⟩ := State.bounceHead_spec h
    rw [State.headLost_true hb hok, if_pos rfl]
    exact ⟨hcount, hqueue.imp id (fun e => by rw [e]; rfl)⟩
  case waits =>
    intro site r port vc p q s h hm hb hok hd
    refine ⟨_, exec_routerHeadFlit h hm, ?_⟩
    rw [State.headLost_true hb hok, if_pos rfl]
    exact State.bounceHead_waits h hd
  case headerBad =>
    intro site r port vc errs p q s h hbad
    obtain ⟨htable, hunc, hcount⟩ := State.headerLost_spec (s := s) (site := site) (r := r) (port := port)
    refine ⟨_, exec_routerHeadFlit_headBad h hbad, ?_, ?_, ?_⟩
    · rw [State.deq_length, State.q_of_table htable, h]
      rfl
    · rw [State.deq_rd _ _ _ _ _ rfl, hunc]
    · rw [State.deq_rd _ _ _ _ _ rfl, hcount]
  case stall =>
    intro site r port vc p q s h hb ht
    refine ⟨_, exec_stallBounce h hb ht, ?_⟩
    generalize p.t + s.rd .NOC_STALL_TIMEOUT [site] * 1000 = v
    obtain ⟨hcount, hnow, hqueue⟩ := State.bounceHead_spec (s := s.lapseTo v) (site := site) (r := r) (port := port) (vc := vc) (p := p) h
    rw [State.lapseTo_rd _ _ rfl] at hcount
    refine ⟨hcount, hnow.trans (State.lapseTo_now _ _), hqueue.imp id (fun e => ?_)⟩
    rw [e, hnow]
    rfl
  case drainTimeout =>
    intro site r port vc p q s h hb hd
    refine ⟨_, exec_drainTimeoutBounce h hb hd, ?_⟩
    have hdue : p.arr + s.rd .NOC_DRAIN_TIMEOUT [site] * 1000 ≤ s.drainDue site r p := Nat.add_le_add_right (Nat.le_max_left _ _) _
    generalize s.drainDue site r p = v at hdue
    obtain ⟨hcount, hnow, hqueue⟩ := State.bounceHead_spec (s := s.lapseTo v) (site := site) (r := r) (port := port) (vc := vc) (p := p) h
    rw [State.lapseTo_rd _ _ rfl] at hcount
    refine ⟨hcount, ?_, hqueue.imp id (fun e => ?_)⟩
    · rw [hnow, State.lapseTo_now]
      exact hdue.trans (Nat.le_max_right _ _)
    · rw [e, hnow]
      rfl
  case drain =>
    intro w site r bits s h
    have hand : s.rd .NOC_RTR_PORT_DRAINED [site, r] &&& bits.toNat < 2 ^ 8 := Nat.and_lt_two_pow _ bits.isLt
    refine ⟨_, exec_portDrain h, ?_, ?_, ?_⟩
    · rw [State.rd_wr_fld _ _ _ _ _ _ (by decide), State.rd_wr_same]
      exact Nat.mod_eq_of_lt bits.isLt
    · rw [State.rd_wr_same]
      exact Nat.mod_eq_of_lt hand
    · refine SameFields.wr (SameFields.wr (fun f i _ => State.drainTimed_rd _ _ _ _ f i) (by simp) _) (by simp) _
  case drained =>
    intro site r c s hd h
    exact ⟨_, exec_portDrained hd h, State.setBit_set c.isLt⟩
  case depths =>
    intro w site r c v s h hfree hbad
    refine ⟨_, exec_routerPortConfig_vc h, ?_⟩
    rw [hbad, hfree, if_neg (by decide)]
    exact State.vcTaken_spec _ _ _ _
  case badDepths =>
    intro w site r c v s h hbad
    refine ⟨_, exec_routerPortConfig_vc h, ?_⟩
    rw [hbad, Bool.true_or, if_pos rfl]
    exact State.drop_sameFields _ _ _ _ _
  case enable =>
    intro w site r c v s h hfree
    refine ⟨_, exec_routerPortConfig_en h hfree, ?_⟩
    rw [State.rd_wr_same]
    exact Nat.mod_eq_of_lt (Nat.mod_lt _ (by decide))

end Sys2Proof.Machine
end
